-- ==== Sys2Proof/Word.lean ====
section
/-! DEFINITION. The word types of the machine and the sparse map that registers, scratchpads, tiles and
memory are held in. -/

namespace Sys2Proof

/-- One byte of memory (R4: multi-byte values are little-endian). -/
abbrev Byte := BitVec 8
/-- A 16-bit half. -/
abbrev W16 := BitVec 16
/-- A 32-bit register (R131). -/
abbrev W32 := BitVec 32
/-- A 64-bit value, held in an even/odd register pair (R38). -/
abbrev W64 := BitVec 64
/-- One bit per lane of a team of at most 1,024 lanes (R116). -/
abbrev LaneMask := BitVec 1024
/-- A 128-byte line (R441). -/
abbrev LineData := BitVec 1024

/-- A sparse map from keys to values: key and value pairs in ONE canonical form (`SMap.wf`). What an
unlisted key reads as is given at every read, so that equal maps are equal lists. -/
abbrev SMap (α : Type) := List (Nat × α)

/-- The keys rise strictly and no entry holds what an unlisted key reads as. -/
abbrev SMap.wf {α : Type} (dflt : α) (m : SMap α) : Prop :=
  m.Pairwise (fun p q => p.1 < q.1) ∧ ∀ p ∈ m, p.2 ≠ dflt

/-- Memory: a list of addressed bytes. -/
abbrev Memory := List Host.Cell

/-- Memory's canonical form: addresses rise strictly and no listed byte is zero, the value an unlisted address
reads as (log entry 1). -/
abbrev Memory.wf (m : Memory) : Prop := SMap.wf (0 : Byte) m

end Sys2Proof
end

