-- ==== Sys2Proof/Syntax.lean ====
section
/-! DEFINITION. The syntax of the machine: operands, suffixes, and ONE inductive `Instr` with a constructor for every row of
the opcode table. The first part are Doltar instructions as decoded from memory (R58 to R75); the compact rows carry
the fields of their C32 word; the last part are the table's EVENTS, the whole and indivisible steps the host, the
front end and the engines take beside the teams' instructions, with the numbers that name what acts. -/

namespace Sys2Proof

/-- An operand code of R63 as decoded. -/
inductive Opnd where
  /-- 0x00 to 0xAF: a vector register. -/
  | v (n : Fin 176)
  /-- 0xB0 to 0xEF: a scalar register. -/
  | s (n : Fin 64)
  /-- 0xF0 to 0xF7: the per-lane register selected through x0 to x7. -/
  | x (n : Fin 8)
  /-- 0xF8: zero as a source, the result discarded as a destination, and what an unused field holds. -/
  | zero
  /-- 0xF9: the lane index. -/
  | lane
  /-- 0xFA: the L96 literal. -/
  | lit
  /-- 0xFB: all ones. -/
  | ones
  deriving DecidableEq, Repr

/-- Rounding modes (R35). -/
inductive Rm where
  | rne | rtz | rup | rdn
  deriving DecidableEq, Repr

/-- The eight integer types of R69. -/
inductive ITy where
  | s32 | z32 | s64 | z64 | s16x2 | z16x2 | s8x4 | z8x4
  deriving DecidableEq, Repr

/-- The float types of R69. -/
inductive FTy where
  | f32 | bf16x2 | f16x2
  deriving DecidableEq, Repr

/-- The types of ICMP (R172), FTOI (R190) and ITOF (R191), in sub[63:62]. -/
inductive CmpTy where
  | s32 | z32 | s64 | z64
  deriving DecidableEq, Repr

/-- The comparisons of ICMP (R172). -/
inductive ICmp where
  | eq | ne | lt | le
  deriving DecidableEq, Repr

/-- The comparisons of FCMP (R184). -/
inductive FCmp where
  | lt | le | eq | ne | gt | ge | ord | un
  deriving DecidableEq, Repr

/-- The types of LEA (R174). -/
inductive LeaTy where
  | z32 | s64 | z64
  deriving DecidableEq, Repr

/-- The element FCLASS reads (R185) and the form of FEXPO (R186). -/
inductive ClassFmt where
  | f32 | bf16 | f16
  deriving DecidableEq, Repr

/-- The forms of CVT (R189). -/
inductive CvtKind where
  | f32bf16 | f32f16 | f32nf8
  | bf16 (rm : Rm) | f16 (rm : Rm) | nf8 (rm : Rm)
  deriving DecidableEq, Repr

/-- The element formats Q2 to Q8 (R40). -/
inductive QFmt where
  | q2 | q3 | q4 | q5 | q6 | q7 | q8
  deriving DecidableEq, Repr

/-- The operations of TRED and TSCAN (R195). -/
inductive TreeOp where
  | iadd | iaddS32Sat | iaddZ32Sat | iadd64 | iminS32 | iminZ32 | imaxS32 | imaxZ32
  | and | or | xor | fadd | fmin | fmax
  deriving DecidableEq, Repr

/-- The modes of TSHFL (R196). -/
inductive Shfl where
  | idx | up | down | xor
  deriving DecidableEq, Repr

/-- The modes of VOTE (R198). -/
inductive VoteOp where
  | any | all | none | uni
  deriving DecidableEq, Repr

/-- The two-source mask operations of KOP (R158). -/
inductive KBin where
  | and | or | xor | andn | orn
  deriving DecidableEq, Repr

/-- KOP's forms (R158). -/
inductive KopForm where
  | bin (op : KBin) (ka kb : Fin 8)
  | not (ka : Fin 8)
  | clr
  | set
  deriving DecidableEq, Repr

/-- KMOV's forms (R158). -/
inductive KmovForm where
  | v2k (kd : Fin 8) (a : Opnd)
  | k2v (d : Opnd) (ka : Fin 8)
  | s2k (kd : Fin 8) (a b : Opnd)
  | k2s (d : Opnd) (ka : Fin 8) (b : Opnd)
  deriving DecidableEq, Repr

/-- Access sizes of R67. -/
inductive Size where
  | b8 | b16 | b32 | b64 | b128
  deriving DecidableEq, Repr

/-- Cache policies of R204. -/
inductive Cache where
  | normal | keep | stream | bypass
  deriving DecidableEq, Repr

/-- Memory orders of R67. -/
inductive Order where
  | rlx | acq | rel | ar
  deriving DecidableEq, Repr

/-- The seven scopes of R16. -/
inductive Scope where
  | team | blk | cg | die | dev | pod | sys
  deriving DecidableEq, Repr

/-- The memory control field of R67. -/
structure MemCtl where
  size : Size
  cache : Cache
  order : Order
  scope : Scope
  deriving DecidableEq, Repr

/-- The operations of ATOM, ATOMS and RED (R211). -/
inductive AtomOp where
  | add | minS | minZ | maxS | maxZ | and | or | xor | exch | cas | inc | dec
  | faddF32 | faddBf16x2 | fminF32 | fmaxF32
  deriving DecidableEq, Repr

/-- The operations of CCTL (R218). -/
inductive CctlOp where
  | wb | inv | drop
  deriving DecidableEq, Repr

/-- The modes of XSET (R157). -/
inductive XsetMode where
  | all | idx | add
  deriving DecidableEq, Repr

/-- The formats LDW and MMF name (R317). -/
inductive PFmt where
  | q (q : QFmt) | bf16 | fp16 | nf8
  deriving DecidableEq, Repr

/-- The formats of TLD and TST (R317). -/
inductive TFmt where
  | b32 | bf16 | f16 | nf8
  deriving DecidableEq, Repr

/-- The operations of COLL (R395). -/
inductive CollOp where
  | allred | redsc | allg | bcast
  deriving DecidableEq, Repr

/-- Full width, .lo or .hi of SRD and SWR (R159). -/
inductive Half where
  | full | lo | hi
  deriving DecidableEq, Repr

/-- What every full form carries (R61): stall count, execution mask and its inversion, and the third word of an L96. -/
structure Hdr where
  stall : BitVec 4
  kmask : Fin 8
  kinv : Bool
  lit : Option W32
  deriving DecidableEq, Repr

/-- The modifiers of R66; `scale` is the signed three-bit field. -/
structure Mods where
  nega : Bool
  negb : Bool
  negc : Bool
  absa : Bool
  absb : Bool
  absc : Bool
  clamp : Bool
  scale : BitVec 3
  deriving DecidableEq, Repr

/-- The fields of a C32 word beside cop and sub (R70): b and d as the eight bits stand, since an immediate and an operand
code share b and a `nop` ignores both. -/
structure CRaw where
  kmask : Fin 8
  imm : Bool
  b : BitVec 8
  d : BitVec 8
  stall : BitVec 2
  deriving DecidableEq, Repr

/-- One body of a pair word (R73): bits [31:2] of a C32 word. -/
structure PBody where
  cop : Fin 64
  sub : BitVec 2
  w : CRaw
  deriving DecidableEq, Repr

/-- A register as the schedule tracks it (R76 to R79): a vector, scalar, index or mask register. -/
inductive RegKey where
  | v (n : Nat) | s (n : Nat) | x (n : Nat) | k (n : Nat)
  deriving DecidableEq, Repr

/-- What the scrubber or a demand read finds in a DRAM line (R462). -/
inductive ScrubFound where
  | clean | corrected | uncorrectable
  deriving DecidableEq, Repr

/-- An error as its detector reports it (R480, R482): resource class 1 to 5, severity, context, unit and first affected
physical address. -/
structure ErrorReport where
  cls : Nat
  sev : Nat
  ctx : Nat
  unit : W64
  pa : W64
  /-- the block in whose core state it lies (R488) -/
  holder : Option Nat
  deriving DecidableEq, Repr

/-- The steps of the machine, one constructor per row of the opcode table. -/
inductive Instr where
  /-- NOP (R180). Full-form no-op that changes no state and honours its stall count. -/
  | nop (h : Hdr)
  /-- IADD (R169). Integer add, wrapped or saturated, per lane. -/
  | iadd (h : Hdr) (ty : ITy) (sat : Bool) (m : Mods) (d : Opnd) (a : Opnd) (b : Opnd)
  /-- ISUB (R169). Integer subtract, wrapped or saturated, per lane. -/
  | isub (h : Hdr) (ty : ITy) (sat : Bool) (m : Mods) (d : Opnd) (a : Opnd) (b : Opnd)
  /-- IADD3 (R169). Three-operand integer add. -/
  | iadd3 (h : Hdr) (ty : ITy) (sat : Bool) (m : Mods) (d : Opnd) (a : Opnd) (b : Opnd) (c : Opnd)
  /-- IMUL (R169). Integer multiply, low half or saturated. -/
  | imul (h : Hdr) (ty : ITy) (sat : Bool) (m : Mods) (d : Opnd) (a : Opnd) (b : Opnd)
  /-- IMULH (R170). High half of the exact integer product. -/
  | imulh (h : Hdr) (ty : ITy) (d : Opnd) (a : Opnd) (b : Opnd)
  /-- IMAD (R169). Integer multiply-add. -/
  | imad (h : Hdr) (ty : ITy) (sat : Bool) (m : Mods) (d : Opnd) (a : Opnd) (b : Opnd) (c : Opnd)
  /-- IMADW (R170). 32-bit multiply with 64-bit addend into a 64-bit pair. -/
  | imadw (h : Hdr) (signed sat : Bool) (d : Opnd) (a : Opnd) (b : Opnd) (c : Opnd)
  /-- IDIV (R171). Integer divide with the fixed results of R39, never trapping. -/
  | idiv (h : Hdr) (ty : ITy) (sat : Bool) (d : Opnd) (a : Opnd) (b : Opnd)
  /-- IREM (R171). Integer remainder with the fixed results of R39. -/
  | irem (h : Hdr) (ty : ITy) (d : Opnd) (a : Opnd) (b : Opnd)
  /-- IMIN (R169). Integer minimum. -/
  | imin (h : Hdr) (ty : ITy) (m : Mods) (d : Opnd) (a : Opnd) (b : Opnd)
  /-- IMAX (R169). Integer maximum. -/
  | imax (h : Hdr) (ty : ITy) (m : Mods) (d : Opnd) (a : Opnd) (b : Opnd)
  /-- ISAD (R169). Absolute difference plus addend. -/
  | isad (h : Hdr) (ty : ITy) (sat : Bool) (d : Opnd) (a : Opnd) (b : Opnd) (c : Opnd)
  /-- ICMP (R172). Integer compare writing a mask register. -/
  | icmp (h : Hdr) (ty : CmpTy) (c : ICmp) (kd : Fin 8) (a : Opnd) (b : Opnd)
  /-- SEL (R173). Per-lane select under a mask register. -/
  | sel (h : Hdr) (w : Fin 4) (d : Opnd) (a : Opnd) (b : Opnd) (kc : Fin 8)
  /-- LEA (R174). Address formation with shifted index. -/
  | lea (h : Hdr) (ty : LeaTy) (d : Opnd) (a : Opnd) (b : Opnd) (c : Opnd)
  /-- AND (R175). Bitwise and. -/
  | andL (h : Hdr) (w : Fin 4) (d : Opnd) (a : Opnd) (b : Opnd)
  /-- OR (R175). Bitwise or. -/
  | orL (h : Hdr) (w : Fin 4) (d : Opnd) (a : Opnd) (b : Opnd)
  /-- XOR (R175). Bitwise exclusive or. -/
  | xorL (h : Hdr) (w : Fin 4) (d : Opnd) (a : Opnd) (b : Opnd)
  /-- ANDN (R175). Bitwise and with complement. -/
  | andn (h : Hdr) (w : Fin 4) (d : Opnd) (a : Opnd) (b : Opnd)
  /-- SHL (R175). Shift left. -/
  | shl (h : Hdr) (w : Fin 4) (d : Opnd) (a : Opnd) (b : Opnd)
  /-- SHR (R175). Logical shift right. -/
  | shr (h : Hdr) (w : Fin 4) (d : Opnd) (a : Opnd) (b : Opnd)
  /-- SAR (R175). Arithmetic shift right. -/
  | sar (h : Hdr) (w : Fin 4) (d : Opnd) (a : Opnd) (b : Opnd)
  /-- ROL (R175). Rotate left. -/
  | rol (h : Hdr) (w : Fin 4) (d : Opnd) (a : Opnd) (b : Opnd)
  /-- FSHR (R176). Funnel shift right of a word pair. -/
  | fshr (h : Hdr) (d : Opnd) (a : Opnd) (b : Opnd) (c : Opnd)
  /-- BFE (R176). Bit-field extract, signed or unsigned. -/
  | bfe (h : Hdr) (signed : Bool) (d : Opnd) (a : Opnd) (b : Opnd)
  /-- BFI (R176). Bit-field insert. -/
  | bfi (h : Hdr) (d : Opnd) (a : Opnd) (b : Opnd) (c : Opnd)
  /-- POPC (R177). Population count. -/
  | popc (h : Hdr) (w : Fin 4) (d : Opnd) (a : Opnd)
  /-- CLZ (R177). Count leading zeros. -/
  | clz (h : Hdr) (w : Fin 4) (d : Opnd) (a : Opnd)
  /-- CTZ (R177). Count trailing zeros. -/
  | ctz (h : Hdr) (w : Fin 4) (d : Opnd) (a : Opnd)
  /-- BREV (R177). Bit reverse. -/
  | brev (h : Hdr) (w : Fin 4) (d : Opnd) (a : Opnd)
  /-- PRMB (R178). Byte permute with sign replication. -/
  | prmb (h : Hdr) (d : Opnd) (a : Opnd) (b : Opnd) (c : Opnd)
  /-- IDOT4 (R179). Four-byte integer dot product with addend. -/
  | idot4 (h : Hdr) (sat sa sb : Bool) (d : Opnd) (a : Opnd) (b : Opnd) (c : Opnd)
  /-- IDOT2 (R179). Two-half integer dot product with addend. -/
  | idot2 (h : Hdr) (sat sa sb : Bool) (d : Opnd) (a : Opnd) (b : Opnd) (c : Opnd)
  /-- MOV (R180). Register move of 32 or 64 bits. -/
  | mov (h : Hdr) (w : Fin 4) (d : Opnd) (a : Opnd)
  /-- FADD (R182). Float add with one rounding. -/
  | fadd (h : Hdr) (ty : FTy) (rm : Rm) (m : Mods) (d : Opnd) (a : Opnd) (b : Opnd)
  /-- FSUB (R182). Float subtract with one rounding. -/
  | fsub (h : Hdr) (ty : FTy) (rm : Rm) (m : Mods) (d : Opnd) (a : Opnd) (b : Opnd)
  /-- FMUL (R182). Float multiply with one rounding. -/
  | fmul (h : Hdr) (ty : FTy) (rm : Rm) (m : Mods) (d : Opnd) (a : Opnd) (b : Opnd)
  /-- FFMA (R182). Fused multiply-add with one rounding. -/
  | ffma (h : Hdr) (ty : FTy) (rm : Rm) (m : Mods) (d : Opnd) (a : Opnd) (b : Opnd) (c : Opnd)
  /-- FMIN (R183). Float minimum with NaN and signed-zero rules. -/
  | fmin (h : Hdr) (ty : FTy) (m : Mods) (d : Opnd) (a : Opnd) (b : Opnd)
  /-- FMAX (R183). Float maximum with NaN and signed-zero rules. -/
  | fmax (h : Hdr) (ty : FTy) (m : Mods) (d : Opnd) (a : Opnd) (b : Opnd)
  /-- FCMP (R184). FP32 compare writing a mask register. -/
  | fcmp (h : Hdr) (c : FCmp) (m : Mods) (kd : Fin 8) (a : Opnd) (b : Opnd)
  /-- FCLASS (R185). Float classification against a class set into a mask. -/
  | fclass (h : Hdr) (f : ClassFmt) (m : Mods) (kd : Fin 8) (a : Opnd) (b : Opnd)
  /-- FRND (R186). Round to integral value in the same format. -/
  | frnd (h : Hdr) (ty : FTy) (rm : Rm) (m : Mods) (d : Opnd) (a : Opnd)
  /-- FSCALE (R186). Multiply by a power of two with one rounding. -/
  | fscale (h : Hdr) (ty : FTy) (rm : Rm) (m : Mods) (d : Opnd) (a : Opnd) (b : Opnd)
  /-- FEXPO (R186). Exact floor of log2 of the magnitude. -/
  | fexpo (h : Hdr) (f : ClassFmt) (d : Opnd) (a : Opnd)
  /-- FDOT2 (R187). Two-element packed dot product plus FP32 addend. -/
  | fdot2 (h : Hdr) (bf : Bool) (rm : Rm) (m : Mods) (d : Opnd) (a : Opnd) (b : Opnd) (c : Opnd)
  /-- FRCP (R188). Correctly rounded reciprocal. -/
  | frcp (h : Hdr) (rm : Rm) (m : Mods) (d : Opnd) (a : Opnd)
  /-- FRSQ (R188). Correctly rounded reciprocal square root. -/
  | frsq (h : Hdr) (rm : Rm) (m : Mods) (d : Opnd) (a : Opnd)
  /-- FSQRT (R188). Correctly rounded square root. -/
  | fsqrt (h : Hdr) (rm : Rm) (m : Mods) (d : Opnd) (a : Opnd)
  /-- FEXP2 (R188). Correctly rounded power of two. -/
  | fexp2 (h : Hdr) (m : Mods) (d : Opnd) (a : Opnd)
  /-- FLOG2 (R188). Correctly rounded log2. -/
  | flog2 (h : Hdr) (m : Mods) (d : Opnd) (a : Opnd)
  /-- FSIN (R188). Correctly rounded sin(pi x). -/
  | fsin (h : Hdr) (m : Mods) (d : Opnd) (a : Opnd)
  /-- FCOS (R188). Correctly rounded cos(pi x). -/
  | fcos (h : Hdr) (m : Mods) (d : Opnd) (a : Opnd)
  /-- FTANH (R188). Correctly rounded hyperbolic tangent. -/
  | ftanh (h : Hdr) (m : Mods) (d : Opnd) (a : Opnd)
  /-- FSIGM (R188). Correctly rounded logistic sigmoid. -/
  | fsigm (h : Hdr) (m : Mods) (d : Opnd) (a : Opnd)
  /-- FDIV (R182). Variable-latency float divide. -/
  | fdiv (h : Hdr) (rm : Rm) (m : Mods) (d : Opnd) (a : Opnd) (b : Opnd)
  /-- CVT (R189). Conversion between float formats, widening exactly or narrowing under the overflow table. -/
  | cvt (h : Hdr) (k : CvtKind) (m : Mods) (d : Opnd) (a : Opnd) (b : Opnd) (c : Opnd)
  /-- FTOI (R190). FP32 to integer conversion under the q8 policy. -/
  | ftoi (h : Hdr) (ty : CmpTy) (rm : Rm) (m : Mods) (d : Opnd) (a : Opnd)
  /-- ITOF (R191). Integer to FP32 conversion. -/
  | itof (h : Hdr) (ty : CmpTy) (rm : Rm) (m : Mods) (d : Opnd) (a : Opnd)
  /-- QPACK (R192). Packs each mask word's 32 FP32 lanes into one QB block. -/
  | qpack (h : Hdr) (q : QFmt) (m : Mods) (d : Opnd) (a : Opnd)
  /-- QUNPK (R193). Widens one QB element to FP32. -/
  | qunpk (h : Hdr) (q : QFmt) (d : Opnd) (a : Opnd) (b : Opnd) (c : Opnd)
  /-- TRED (R195). Cross-lane reduction on the lane-index tree. -/
  | tred (h : Hdr) (op : TreeOp) (d : Opnd) (a : Opnd)
  /-- TSCAN (R195). Cross-lane inclusive or exclusive prefix on the lane-index tree. -/
  | tscan (h : Hdr) (op : TreeOp) (excl : Bool) (d : Opnd) (a : Opnd)
  /-- TSHFL (R196). Cross-lane shuffle by index, up, down or xor. -/
  | tshfl (h : Hdr) (md : Shfl) (wide : Bool) (d : Opnd) (a : Opnd) (b : Opnd) (c : Opnd)
  /-- TBCST (R197). Broadcast of one lane's value. -/
  | tbcst (h : Hdr) (first wide : Bool) (d : Opnd) (a : Opnd) (b : Opnd) (c : Opnd)
  /-- VOTE (R198). Team vote any, all, none or uniform. -/
  | vote (h : Hdr) (md : VoteOp) (d : Opnd) (a : Opnd)
  /-- MATCH (R199). Writes a mask of matching lanes. -/
  | matchL (h : Hdr) (all wide : Bool) (kd : Fin 8) (a : Opnd)
  /-- KOP (R158). Logical operation on mask registers. -/
  | kop (h : Hdr) (kd : Fin 8) (f : KopForm)
  /-- KCNT (R158). Counts set lanes of a mask. -/
  | kcnt (h : Hdr) (d : Opnd) (ka : Fin 8)
  /-- KFND (R158). Finds the lowest or highest set lane of a mask. -/
  | kfnd (h : Hdr) (hi : Bool) (d : Opnd) (ka : Fin 8)
  /-- KMOV (R158). Moves between masks and vector or scalar registers. -/
  | kmov (h : Hdr) (f : KmovForm)
  /-- LD (R207). Load from a generic address per lane. -/
  | ld (h : Hdr) (mc : MemCtl) (sx : Bool) (d : Opnd) (a : Opnd) (b : Opnd)
  /-- ST (R207). Store to a generic address per lane. -/
  | st (h : Hdr) (mc : MemCtl) (a : Opnd) (b : Opnd) (c : Opnd)
  /-- LDS (R207). Load from the block's own scratchpad. -/
  | lds (h : Hdr) (mc : MemCtl) (sx : Bool) (d : Opnd) (a : Opnd) (b : Opnd)
  /-- STS (R207). Store to the block's own scratchpad. -/
  | sts (h : Hdr) (mc : MemCtl) (a : Opnd) (b : Opnd) (c : Opnd)
  /-- LDU (R208). One scalar load for the whole team. -/
  | ldu (h : Hdr) (mc : MemCtl) (sx : Bool) (d : Opnd) (a : Opnd) (b : Opnd)
  /-- ATOM (R211). Atomic read-modify-write at the location's home returning the old value. -/
  | atom (h : Hdr) (mc : MemCtl) (op : AtomOp) (d : Opnd) (a : Opnd) (b : Opnd) (c : Opnd)
  /-- ATOMS (R213). Atomic on the block's own scratchpad. -/
  | atoms (h : Hdr) (mc : MemCtl) (op : AtomOp) (d : Opnd) (a : Opnd) (b : Opnd) (c : Opnd)
  /-- RED (R214). Atomic reduction without a returned value. -/
  | red (h : Hdr) (mc : MemCtl) (op : AtomOp) (a : Opnd) (b : Opnd) (c : Opnd)
  /-- FENCE (R216). Orders the issuing lanes' accesses at a scope. -/
  | fence (h : Hdr) (ord : Order) (scope : Scope)
  /-- PREF (R217). Prefetch of a line into the caches. -/
  | pref (h : Hdr) (l2 : Bool) (cache : Cache) (a : Opnd) (b : Opnd)
  /-- CCTL (R218). Cache control: write back, invalidate or drop a line. -/
  | cctl (h : Hdr) (op : CctlOp) (a : Opnd) (b : Opnd)
  /-- WAITC (R220). Holds the sub-team until an async counter falls to a threshold. -/
  | waitc (h : Hdr) (cls : Fin 8) (a : Opnd)
  /-- RDC (R219). Ordered read of the meridian. -/
  | rdc (h : Hdr) (ord : Order) (scope : Scope) (d : Opnd)
  /-- ABAR_INIT (R221). Initialises an async barrier object. -/
  | abarInit (h : Hdr) (g : Bool) (a : Opnd) (b : Opnd) (c : Opnd)
  /-- ABAR_ARRIVE (R221). Arrives on an async barrier object, a release. -/
  | abarArrive (h : Hdr) (g : Bool) (d : Opnd) (a : Opnd)
  /-- ABAR_EXPECT (R221). Adds expected bytes to an async barrier object. -/
  | abarExpect (h : Hdr) (g : Bool) (a : Opnd) (b : Opnd)
  /-- ABAR_WAIT (R221). Waits until an async barrier object's epoch passes a value. -/
  | abarWait (h : Hdr) (g : Bool) (a : Opnd) (b : Opnd)
  /-- ABAR_TEST (R221). Tests whether an async barrier object's epoch has passed a value. -/
  | abarTest (h : Hdr) (g : Bool) (d : Opnd) (a : Opnd) (b : Opnd)
  /-- BAR (R223). Block barrier arrive and wait. -/
  | bar (h : Hdr) (a : Opnd) (b : Opnd)
  /-- BAR_ARRIVE (R223). Block barrier arrive without waiting. -/
  | barArrive (h : Hdr) (a : Opnd) (b : Opnd)
  /-- GBAR (R226). Launch-wide barrier at device scope. -/
  | gbar (h : Hdr) (a : Opnd)
  /-- BRA (R150). Branch, splitting the sub-team by the execution mask. -/
  | bra (h : Hdr) (off : BitVec 16)
  /-- BRX (R150). Indirect jump with one group per distinct target. -/
  | brx (h : Hdr) (a : Opnd)
  /-- CALL (R150). Call writing link words and performing an implicit claim. -/
  | call (h : Hdr) (d : Opnd) (off : BitVec 16)
  /-- CALLI (R150). Indirect call with one group per target. -/
  | calli (h : Hdr) (d : Opnd) (a : Opnd)
  /-- RET (R150). Return releasing the registers the call claimed. -/
  | ret (h : Hdr) (a : Opnd)
  /-- EXIT (R151). Ends lanes; frees the record or the team's row. -/
  | exit (h : Hdr)
  /-- YIELD (R152). Marks the sub-team yielded and not ready for a while. -/
  | yield (h : Hdr)
  /-- PAUSE (R152). Makes the sub-team not ready for a number of nanoseconds. -/
  | pause (h : Hdr) (a : Opnd)
  /-- TRAP (R153). Raises SWTRAP. -/
  | trap (h : Hdr) (a : Opnd)
  /-- BRK (R153). Raises BRKPT. -/
  | brk (h : Hdr)
  /-- JOIN (R124). Waits for sibling sub-teams and fuses them. -/
  | join (h : Hdr)
  /-- CLAIM (R155). Claims vector registers from the core's pool. -/
  | claim (h : Hdr) (a : Opnd) (cnt : BitVec 6)
  /-- RELEASE (R156). Returns vector registers to the pool. -/
  | release (h : Hdr) (a : Opnd) (cnt : BitVec 6)
  /-- XSET (R157). Writes an index register. -/
  | xset (h : Hdr) (md : XsetMode) (xn : Fin 8) (a : Opnd)
  /-- XGET (R157). Reads an index register into a vector register. -/
  | xget (h : Hdr) (d : Opnd) (xn : Fin 8)
  /-- TCOPY (R280). Issues a tensor copy to the copy engine. -/
  | tcopy (h : Hdr) (g : Bool) (a : Opnd) (c : Opnd)
  /-- TGATH (R285). Issues a row gather. -/
  | tgath (h : Hdr) (g : Bool) (a : Opnd) (c : Opnd)
  /-- TSCAT (R286). Issues a row scatter. -/
  | tscat (h : Hdr) (g : Bool) (a : Opnd) (c : Opnd)
  /-- TMCST (R288). Issues a multicast to cluster-group scratchpads. -/
  | tmcst (h : Hdr) (a : Opnd) (b : Opnd) (c : Opnd)
  /-- CBINI (R295). Initialises a circular-buffer descriptor. -/
  | cbini (h : Hdr) (g tags : Bool) (n1 : BitVec 6) (a : Opnd) (b : Opnd) (c : Opnd)
  /-- CBACQ (R298). Acquires the oldest filled slot of a circular buffer. -/
  | cbacq (h : Hdr) (g tag : Bool) (d : Opnd) (a : Opnd)
  /-- CBREL (R299). Frees the oldest acquired slot of a circular buffer. -/
  | cbrel (h : Hdr) (g : Bool) (a : Opnd)
  /-- CBPUT (R297). Marks a reserved slot written. -/
  | cbput (h : Hdr) (g : Bool) (a : Opnd) (b : Opnd) (c : Opnd)
  /-- CBRES (R296). Reserves a circular-buffer slot. -/
  | cbres (h : Hdr) (g : Bool) (d : Opnd) (a : Opnd)
  /-- CBST (R300). Reads circular-buffer counts. -/
  | cbst (h : Hdr) (g : Bool) (d : Opnd) (a : Opnd)
  /-- TFILL (R289). Fills a scratchpad range with a pattern. -/
  | tfill (h : Hdr) (a : Opnd) (b : Opnd) (c : Opnd)
  /-- LDW (R318). Loads a weight image into a plane's shadow copy. -/
  | ldw (h : Hdr) (f : PFmt) (p : Fin 8) (a : Opnd)
  /-- WSWAP (R319). Exchanges active and shadow plane copies. -/
  | wswap (h : Hdr)
  /-- MMQ (R320). Block-integer product into an int32 tile. -/
  | mmq (h : Hdr) (q : QFmt) (t p : Fin 8) (b : Opnd)
  /-- MSA (R321). Scales an int32 tile into an FP32 accumulator tile. -/
  | msa (h : Hdr) (t ts : Fin 8) (b : Opnd) (c : Opnd)
  /-- MMQA (R322). Block-integer product with scaled accumulate. -/
  | mmqa (h : Hdr) (q : QFmt) (t p : Fin 8) (b : Opnd) (c : Opnd)
  /-- MMQA_CB (R323). Scaled block-integer product fed from a circular buffer. -/
  | mmqaCb (h : Hdr) (q : QFmt) (t : Fin 8) (b : Opnd) (c : Opnd)
  /-- MMF (R325). Float matrix product into an FP32 tile. -/
  | mmf (h : Hdr) (f : PFmt) (t p : Fin 8) (b : Opnd)
  /-- TLD (R326). Loads a tile from a scratchpad image. -/
  | tld (h : Hdr) (f : TFmt) (t : Fin 8) (a : Opnd) (b : Opnd)
  /-- TST (R327). Stores a tile to a scratchpad image, optionally tracked. -/
  | tst (h : Hdr) (f : TFmt) (trk : Bool) (a : Opnd) (b : Opnd) (t : Fin 8)
  /-- TZERO (R328). Zeroes a tile and sets its K-block index. -/
  | tzero (h : Hdr) (t : Fin 8) (b : Opnd)
  /-- TMV_T2V (R329). Moves tile elements into vector registers. -/
  | tmvT2v (h : Hdr) (d : Opnd) (t : Fin 8) (b : Opnd)
  /-- TMV_V2T (R329). Moves vector registers into tile elements. -/
  | tmvV2t (h : Hdr) (t : Fin 8) (a : Opnd) (b : Opnd)
  /-- TSTAT (R331). Reads a tile's status. -/
  | tstat (h : Hdr) (d : Opnd) (t : Fin 8)
  /-- TACC (R330). Adds one tile into another. -/
  | tacc (h : Hdr) (t ts : Fin 8)
  /-- ATTS (R349). Issues attention scoring over a page range. -/
  | atts (h : Hdr) (a : Opnd) (b : Opnd) (c : Opnd)
  /-- ATTV (R350). Issues attention value accumulation with mass addition. -/
  | attv (h : Hdr) (a : Opnd) (b : Opnd) (c : Opnd)
  /-- ATTM (R351). Issues mass addition only. -/
  | attm (h : Hdr) (a : Opnd) (b : Opnd) (c : Opnd)
  /-- EVICT (R355). Sends an eviction request to the eviction engine. -/
  | evict (h : Hdr) (a : Opnd)
  /-- PLATR (R359). Reads plat table entries per lane. -/
  | platr (h : Hdr) (d : Opnd) (a : Opnd) (b : Opnd)
  /-- RGATH (R382). Station gather of table rows into local scratch. -/
  | rgath (h : Hdr) (d : Opnd) (a : Opnd)
  /-- REDRX (R386). Station drain and check of queued reduction packets. -/
  | redrx (h : Hdr) (d : Opnd) (a : Opnd)
  /-- NMCALL (R375). Near-memory call to an explicit stack. -/
  | nmcall (h : Hdr) (a : Opnd) (b : Opnd) (c : Opnd)
  /-- NMCALL_A (R375). Near-memory call to the stack owning an address. -/
  | nmcallA (h : Hdr) (a : Opnd) (b : Opnd) (c : Opnd)
  /-- NMRET (R380). Writes a call's return data and ends the sub-team. -/
  | nmret (h : Hdr) (a : Opnd) (b : Opnd)
  /-- CLSEND (R397). Sends a chunk to a peer scratchpad or memory. -/
  | clsend (h : Hdr) (a : Opnd) (c : Opnd)
  /-- CLRED (R397). Sends a chunk for reduction at a peer or in memory. -/
  | clred (h : Hdr) (a : Opnd) (c : Opnd)
  /-- CLARM (R399). Arms a triggered operation slot. -/
  | clarm (h : Hdr) (clr : Bool) (a : Opnd) (b : Opnd)
  /-- CLARM_OFF (R399). Disarms a triggered operation slot. -/
  | clarmOff (h : Hdr) (b : Opnd)
  /-- SBSET (R394). Sets bits of a scoreboard, a release. -/
  | sbset (h : Hdr) (sb : Fin 4) (a : Opnd)
  /-- SBSET_CLR (R394). Clears bits of a scoreboard. -/
  | sbsetClr (h : Hdr) (sb : Fin 4) (a : Opnd)
  /-- SBSET_RD (R394). Reads a scoreboard, an acquire. -/
  | sbsetRd (h : Hdr) (d : Opnd) (sb : Fin 4)
  /-- COLL (R407). Issues a block's part in a whole-group collective. -/
  | coll (h : Hdr) (op : CollOp) (arr : Bool) (t : Fin 8) (a : Opnd) (c : Opnd)
  /-- CLOSE (R413). Computes a closure word over scratchpad elements. -/
  | close (h : Hdr) (d : Opnd) (a : Opnd) (b : Opnd) (c : Opnd)
  /-- BOPEN (R422). Opens a store bundle in a slot. -/
  | bopen (h : Hdr) (n : Fin 4) (a : Opnd)
  /-- STB (R423). Writes into a bundle's pending versions. -/
  | stb (h : Hdr) (n : Fin 4) (mc : MemCtl) (a : Opnd) (b : Opnd) (c : Opnd)
  /-- BCOMMIT (R424). Closes and starts committing a bundle. -/
  | bcommit (h : Hdr) (n : Fin 4)
  /-- BABORT (R427). Closes and discards a bundle. -/
  | babort (h : Hdr) (n : Fin 4)
  /-- VSNAP (R428). Takes a snapshot time into %vs. -/
  | vsnap (h : Hdr) (d : Opnd)
  /-- LDV (R429). Versioned load at the snapshot, fracturing where no version fits. -/
  | ldv (h : Hdr) (mc : MemCtl) (sx : Bool) (d : Opnd) (a : Opnd) (b : Opnd) (kc : Fin 8)
  /-- BFETCH (R434). Copies every line of one bundle at its version into the scratchpad. -/
  | bfetch (h : Hdr) (a : Opnd) (b : Opnd) (c : Opnd)
  /-- SRD (R160). Reads a special register. -/
  | srd (h : Hdr) (half : Half) (d : Opnd) (num : BitVec 8)
  /-- SWR (R160). Writes a special register of the team. -/
  | swr (h : Hdr) (half : Half) (num : BitVec 8) (a : Opnd)
  /-- SWRP (R160). Privileged write of the launch's %lease. -/
  | swrp (h : Hdr) (num : BitVec 8) (a : Opnd)
  /-- OVLD (R161). Privileged load of the context's overflow table. -/
  | ovld (h : Hdr) (a : Opnd)
  /-- TRET (R162). Returns from the trap handler, again or skip. -/
  | tret (h : Hdr) (skip : Bool)
  /-- HALT (R163). Stops and saves the launch with a hold. -/
  | halt (h : Hdr)
  /-- PAIR (R75). P64 word issuing two compact bodies together. -/
  | pair (a b : PBody)
  /-- ENTRY_WORD (R85). Compact nop declaring a register budget for calls. -/
  | entryWord (w : CRaw)
  /-- COMPACT_NOP (R72). Compact no-op. -/
  | compactNop (sub : BitVec 2) (w : CRaw)
  /-- COMPACT_MOV (R72). Compact move. -/
  | compactMov (w : CRaw)
  /-- COMPACT_IADD_S32 (R72). Compact 32-bit add. -/
  | compactIaddS32 (w : CRaw)
  /-- COMPACT_ISUB_S32 (R72). Compact 32-bit subtract. -/
  | compactIsubS32 (w : CRaw)
  /-- COMPACT_IMUL_S32 (R72). Compact 32-bit multiply. -/
  | compactImulS32 (w : CRaw)
  /-- COMPACT_IMIN_S32 (R72). Compact signed minimum. -/
  | compactIminS32 (w : CRaw)
  /-- COMPACT_IMAX_S32 (R72). Compact signed maximum. -/
  | compactImaxS32 (w : CRaw)
  /-- COMPACT_AND (R72). Compact bitwise and. -/
  | compactAnd (w : CRaw)
  /-- COMPACT_OR (R72). Compact bitwise or. -/
  | compactOr (w : CRaw)
  /-- COMPACT_XOR (R72). Compact bitwise xor. -/
  | compactXor (w : CRaw)
  /-- COMPACT_SHL (R72). Compact shift left. -/
  | compactShl (w : CRaw)
  /-- COMPACT_SHR (R72). Compact logical shift right. -/
  | compactShr (w : CRaw)
  /-- COMPACT_SAR (R72). Compact arithmetic shift right. -/
  | compactSar (w : CRaw)
  /-- COMPACT_IADD_S64 (R72). Compact 64-bit add on even pairs. -/
  | compactIaddS64 (w : CRaw)
  /-- COMPACT_POPC (R72). Compact population count. -/
  | compactPopc (w : CRaw)
  /-- COMPACT_CLZ (R72). Compact count leading zeros. -/
  | compactClz (w : CRaw)
  /-- COMPACT_FADD_F32 (R72). Compact FP32 add. -/
  | compactFaddF32 (w : CRaw)
  /-- COMPACT_FSUB_F32 (R72). Compact FP32 subtract. -/
  | compactFsubF32 (w : CRaw)
  /-- COMPACT_FMUL_F32 (R72). Compact FP32 multiply. -/
  | compactFmulF32 (w : CRaw)
  /-- COMPACT_FMIN_F32 (R72). Compact FP32 minimum. -/
  | compactFminF32 (w : CRaw)
  /-- COMPACT_FMAX_F32 (R72). Compact FP32 maximum. -/
  | compactFmaxF32 (w : CRaw)
  /-- COMPACT_FADD_BF16X2 (R72). Compact packed BF16 add. -/
  | compactFaddBf16x2 (w : CRaw)
  /-- COMPACT_FMUL_BF16X2 (R72). Compact packed BF16 multiply. -/
  | compactFmulBf16x2 (w : CRaw)
  /-- COMPACT_FRCP (R72). Compact FP32 reciprocal. -/
  | compactFrcp (w : CRaw)
  /-- COMPACT_FRSQ (R72). Compact FP32 reciprocal square root. -/
  | compactFrsq (w : CRaw)
  /-- COMPACT_FEXP2 (R72). Compact FP32 power of two. -/
  | compactFexp2 (w : CRaw)
  /-- COMPACT_CVT_F32_BF16LO (R72). Compact widening of the low BF16 half. -/
  | compactCvtF32Bf16lo (w : CRaw)
  /-- COMPACT_CVT_BF16_F32 (R72). Compact narrowing of FP32 to BF16. -/
  | compactCvtBf16F32 (w : CRaw)
  /-- COMPACT_ITOF_S32 (R72). Compact signed integer to FP32. -/
  | compactItofS32 (w : CRaw)
  /-- COMPACT_FTOI_S32 (R72). Compact FP32 to signed integer. -/
  | compactFtoiS32 (w : CRaw)
  /-- COMPACT_ICMP_EQ (R72). Compact equality compare into k7. -/
  | compactIcmpEq (w : CRaw)
  /-- COMPACT_ICMP_LT_S32 (R72). Compact signed less-than compare into k7. -/
  | compactIcmpLtS32 (w : CRaw)
  /-- COMPACT_FCMP_LT (R72). Compact FP32 less-than compare into k7. -/
  | compactFcmpLt (w : CRaw)
  /-- COMPACT_SEL (R72). Compact select under k7. -/
  | compactSel (w : CRaw)
  /-- COMPACT_LDS_32 (R209). Compact 32-bit scratchpad load. -/
  | compactLds32 (ord : BitVec 2) (w : CRaw)
  /-- COMPACT_STS_32 (R209). Compact 32-bit scratchpad store. -/
  | compactSts32 (ord : BitVec 2) (w : CRaw)
  /-- COMPACT_LD_32 (R209). Compact 32-bit device-scope load. -/
  | compactLd32 (ord : BitVec 2) (w : CRaw)
  /-- COMPACT_ST_32 (R209). Compact 32-bit device-scope store. -/
  | compactSt32 (ord : BitVec 2) (w : CRaw)
  /-- COMPACT_TSHFL_XOR (R72). Compact xor shuffle by an immediate. -/
  | compactTshflXor (w : CRaw)
  /-- COMPACT_BAR (R72). Compact block barrier over every team. -/
  | compactBar (w : CRaw)
  /-- COMPACT_WAITC (R72). Compact wait on an async counter. -/
  | compactWaitc (w : CRaw)
  /-- COMPACT_YIELD (R72). Compact yield. -/
  | compactYield (w : CRaw)
  /-- COMPACT_BRA (R72). Compact branch with 16-bit offset. -/
  | compactBra (w : CRaw)
  /-- COMPACT_EXIT (R72). Compact exit. -/
  | compactExit (w : CRaw)
  /-- COMPACT_RET (R72). Compact return through link v0:v1. -/
  | compactRet (w : CRaw)
  /-- COMPACT_ABAR_WAIT (R72). Compact wait on an async barrier object. -/
  | compactAbarWait (w : CRaw)
  /-- COMPACT_CBACQ (R307). Compact circular-buffer acquire. -/
  | compactCbacq (w : CRaw)
  /-- COMPACT_CBREL (R307). Compact circular-buffer release. -/
  | compactCbrel (w : CRaw)
  /-- MODULE_RESET (R500). Module reset zeroes the meridian and starts firmware verification and bring-up. -/
  | moduleReset
  /-- BRING_UP_READY (R500). Training and tests end and MNSTAT.ready is set. -/
  | bringUpReady
  /-- CONTEXT_ENABLE (R92). Host sets CTXCFG.en, enabling the context and resetting its overflow table. -/
  | contextEnable (c : Nat) (cfg : W32)
  /-- CONTEXT_KILL (R114). Host clears CTXCFG.en, killing the context at once without a save. -/
  | contextKill (c : Nat)
  /-- QUEUE_ENABLE (R93). Host sets QCTL.en, enabling a queue if its sizes are legal. -/
  | queueEnable (q : Nat) (ctl : W32)
  /-- QWPTR (R94). Host write of a queue's write pointer publishes packets or halts with PTRBAD. -/
  | qwptr (q : Nat) (val : W32)
  /-- QUEUE_RESTART (R115). Host writes 1 to QSTAT.halt and the queue resumes at QRPTR. -/
  | queueRestart (q : Nat)
  /-- REGISTER_WRITE (R5). Host write to a register with no behaviour of its own. -/
  | registerWrite (off : Nat) (val : W32)
  /-- KEY_LOAD (R496). KEYCTL op 1 loads a key slot from KEYDATA. -/
  | keyLoad (slot : Nat)
  /-- KEY_CLEAR (R496). KEYCTL op 2 clears a key slot. -/
  | keyClear (slot : Nat)
  /-- ATTESTATION (R498). ATTCTL.go makes the device sign and write an attestation report. -/
  | attestation
  /-- FWLOAD (R497). Host writes a firmware image through the recovery window. -/
  | fwload (off : Nat) (val : W32)
  /-- SVCTL (R490). Write to a monitor's control discards its interval and starts a new one. -/
  | svctl (mon : Nat) (val : W32)
  /-- SVIVAL (R490). Write to a monitor's interval discards its interval and starts a new one. -/
  | svival (mon : Nat) (val : W32)
  /-- MSCWAYS (R465). Sets a context's row-cache ways unless resident or over the total. -/
  | mscways (stack : Nat) (val : W32)
  /-- LKDEVID (R478). Write of the device id, taking effect at the next meridian exchange. -/
  | lkdevid (val : W32)
  /-- LKMCTL (R478). Write of the reference device id, unlocking until relock. -/
  | lkmctl (val : W32)
  /-- NOP_PACKET (R101). Front-end NOP packet. -/
  | nopPacket (q : Nat)
  /-- LAUNCH (R103). Launch packet starting a kernel under its launch header. -/
  | launch (q : Nat)
  /-- STAGE (R101). Moves ranges to tiers at quiesce points. -/
  | stage (q : Nat)
  /-- PIN (R101). Makes ranges present and pinned. -/
  | pin (q : Nat)
  /-- UNPIN (R101). Drops one PIN hold on each page of ranges. -/
  | unpin (q : Nat)
  /-- MOVEHOME (R101). Moves pages to a target tier, interleave and stack. -/
  | movehome (q : Nat)
  /-- SIGNAL (R98). Performs a signal store or add on an event object. -/
  | signal (q : Nat)
  /-- WAIT (R101). Completes when its dependency is met. -/
  | waitPacket (q : Nat)
  /-- BARRIER (R100). Orders the queue: waits for earlier packets and holds later ones. -/
  | barrier (q : Nat)
  /-- DRAIN (R101). Writes dirty memory-side cache bytes of a range to DRAM. -/
  | drain (q : Nat)
  /-- RESUME (R114). Action 0 returns a stopped or held launch to placement. -/
  | resume (q : Nat)
  /-- RESUME_ABANDON (R114). Action 1 abandons a stopped or held launch. -/
  | resumeAbandon (q : Nat)
  /-- PREEMPT (R113). Saves a launch or its blocks on named clusters, with or without a hold. -/
  | preempt (q : Nat)
  /-- TIMESTAMP (R101). Stores the meridian to memory with release order. -/
  | timestamp (q : Nat)
  /-- FENCE_PACKET (R101). Orders the queue's memory effects at a scope. -/
  | fencePacket (q : Nat)
  /-- OVLOAD (R101). Writes a context's overflow table from a packet. -/
  | ovload (q : Nat)
  /-- WORKING_SET_STAGING (R105). Command processor checks, stages and holds a launch's working-set list. -/
  | workingSetStaging (q n : Nat)
  /-- PAGE_MOVE (R9). Command processor moves a page between tiers or homes at a quiesce point. -/
  | pageMove (ctx vpage tier ilv stack : Nat)
  /-- PAGE_REQUEST_ANSWER (R107). A PRI answer arrives, pinning or failing the requesting operation. -/
  | pageRequestAnswer (slot code : Nat)
  /-- PAGE_REQUEST_TIMEOUT (R107). A page-request slot waits past PRITO and its operation fails. -/
  | pageRequestTimeout (slot : Nat)
  /-- ATS_INVALIDATION (R246). PCIe ATS invalidation clears a pinned host page's translation. -/
  | atsInvalidation (pasid va pages : Nat)
  /-- OPPOINT_STABLE (R111). Regulator reports a die's operating point stable, releasing held first blocks. -/
  | oppointStable (die : Nat)
  /-- BLOCK_PLACEMENT (R109). Distributor places an eligible block on a core. -/
  | blockPlacement (q lseq : Nat) (cores : List Nat)
  /-- PLACEMENT_AGING (R110). Each waited millisecond raises a launch's placement priority. -/
  | placementAging (q lseq : Nat)
  /-- COMPLETION_RECORD_POST (R112). A waiting completion record is written once the ring has room. -/
  | completionRecordPost (q : Nat)
  /-- SCHEDULER_AGING (R128). A sub-team ready 1,024 cycles without issue is chosen first. -/
  | schedulerAging (bid team rec : Nat)
  /-- CLAIM_GRANT (R137). The claim at the head of the core's queue is granted when the pool holds its need. -/
  | claimGrant (core : Nat)
  /-- DEADLK (R138). Every team waits in claims for 1,024 cycles and all trap with DEADLK. -/
  | deadlk (core : Nat)
  /-- PAUSE_END (R152). A paused sub-team becomes ready when its time has passed. -/
  | pauseEnd (bid team rec : Nat)
  /-- YIELD_END (R152). A yielded sub-team becomes ready after others issued or 64 cycles. -/
  | yieldEnd (bid team rec : Nat)
  /-- PROBE_END (R253). Probe mode ends, the checkpoint is restored and the team halts. -/
  | probeEnd (bid team : Nat)
  /-- CAPTURE (R260). Halted units are captured into the context record and the fault or saved record posted. -/
  | capture (q lseq : Nat)
  /-- RESTORE (R269). A saved unit is placed again and its state, deliveries, tiles and operations restored. -/
  | restore (q lseq idx : Nat) (cores : List Nat)
  /-- COPY_UNIT (R280). The copy engine writes one 128-byte unit and counts barrier bytes. -/
  | copyUnit (bid op : Nat)
  /-- CB_RESERVATION (R293). A waiting reservation takes a freed slot. -/
  | cbReservation (bid off : Nat)
  /-- COPY_RETIRE (R303). A copy operation retires when all its writes are performed. -/
  | copyRetire (bid op : Nat)
  /-- MATRIX_EXECUTE (R312). The matrix engine starts the next instruction in entry order. -/
  | matrixExecute (bid : Nat)
  /-- MATRIX_RETIRE (R315). A matrix instruction finishes and retires in class 1. -/
  | matrixRetire (bid : Nat)
  /-- SLOT_ACQUIRE (R324). A buffer-fed product acquires a filled slot and applies or holds its block. -/
  | slotAcquire (bid : Nat)
  /-- SEQUENCE_ENTRY (R346). An attention instruction enters its sequence, raising busy. -/
  | sequenceEntry (bid op : Nat)
  /-- ATTENTION_GROUP (R350). An attention instruction processes one 32-token group. -/
  | attentionGroup (bid op : Nat)
  /-- ATTENTION_EXIT (R346). An attention instruction lowers busy and retires. -/
  | attentionExit (bid op : Nat)
  /-- EVICTION_START (R355). The eviction engine checks translations and claims the sequence. -/
  | evictionStart (ev : Nat)
  /-- EVICTION_RUN (R356). After busy reaches zero the eviction selects, compacts, frees, remaps and ends. -/
  | evictionRun (ev : Nat)
  /-- NMCALL_WRITE_BACK (R376). The call unit checks the call's pages and writes back its ranges. -/
  | nmcallWriteBack (call : Nat)
  /-- STATION_DISPATCH (R378). A stack's dispatcher starts a call's station block. -/
  | stationDispatch (stack : Nat)
  /-- NMCALL_RETURN (R376). The station block has ended; writes are acknowledged, the return area written and result lines invalidated. -/
  | nmcallReturn (call : Nat)
  /-- NMCALL_ARRIVE (R376). After lease expiry the call arrives on its barrier object and retires. -/
  | nmcallArrive (call : Nat)
  /-- REDUCTION_PACKET (R385). A received reduction packet is queued on its stack or dropped. -/
  | reductionPacket (n : Nat)
  /-- CHUNK_RECEIVE (R403). A received chunk is checked at the ingress port and delivered or rejected. -/
  | chunkReceive (n : Nat)
  /-- COLLECTIVE_RETIRE (R397). A CLSEND or CLRED retires once delivered, applied, queued or rejected. -/
  | collectiveRetire (bid op : Nat)
  /-- START_MESSAGE (R408). A rank receives a COLL start message and compares it. -/
  | startMessage (n : Nat)
  /-- COLL_COMPLETE (R412). A collective completes, writing rows, status and its arrival. -/
  | collComplete (bid op : Nat)
  /-- TAG_QUARANTINE_END (R391). A freed collective or bundle tag leaves its 10 µs quarantine. -/
  | tagQuarantineEnd (ctx id : Nat)
  /-- BUNDLE_PREPARE (R424). A home prepares a bundle's pending versions and answers. -/
  | bundlePrepare (bun home : Nat)
  /-- BUNDLE_CHOOSE (R424). With every answer in, the engine chooses Tc and sends commits. -/
  | bundleChoose (bun : Nat)
  /-- BUNDLE_COMMIT_MESSAGE (R424). A home turns prepared versions into committed versions with Tc. -/
  | bundleCommitMessage (bun home : Nat)
  /-- BUNDLE_ABORT_MESSAGE (R426). A home discards a bundle's pending or prepared versions. -/
  | bundleAbortMessage (bun home : Nat)
  /-- BUNDLE_INSTALL (R425). At Tc a home installs committed versions. -/
  | bundleInstall (line : Nat)
  /-- BUNDLE_RETIRE (R424). After acknowledgements and Tc the commit retires and frees the slot. -/
  | bundleRetire (bun : Nat)
  /-- VERSION_RECLAIM (R431). A home drops version-table entries older than the reclamation age. -/
  | versionReclaim (line : Nat)
  /-- DIRECTORY_MERGE (R443). Sibling halves unchanged for 100 µs merge. -/
  | directoryMerge (die slice region size : Nat)
  /-- GRANT_EXPIRY (R447). A grant-table entry is freed once its expiry passes. -/
  | grantExpiry (line : Nat)
  /-- LEASE_SWEEP (R450). A slice visits its leased lines and drops invalid ones. -/
  | leaseSweep (die slice : Nat)
  /-- SLICE_SLEEP (R450). A slice enters retention sleep after dropping invalid leases. -/
  | sliceSleep (die slice : Nat)
  /-- SLICE_WAKE (R450). A slice wakes and keeps or drops its leased lines. -/
  | sliceWake (die slice : Nat)
  /-- HOT_LIST_PUBLISH (R456). At each interval end a stack publishes and clears its hot list. -/
  | hotListPublish (stack : Nat)
  /-- SCRUB (R462). The scrubber reads a line, correcting or poisoning it. -/
  | scrub (line : Nat) (found : ScrubFound)
  /-- POD_REQUEST (R471). A UALink request is received and served or dropped. -/
  | podRequest (n : Nat)
  /-- REASSEMBLY_TIMEOUT (R472). An incomplete message 10 µs old is dropped. -/
  | reassemblyTimeout (n : Nat)
  /-- PORT_DOWN (R475). A port unable to deliver for 1 ms goes down and its requests fail. -/
  | portDown (port : Nat)
  /-- MERIDIAN_EXCHANGE (R476). Timestamps are exchanged with neighbours once per microsecond. -/
  | meridianExchange (agree : Bool)
  /-- LOSS_OF_LOCK (R477). A meridian loop declares loss of lock and drops remote leases. -/
  | lossOfLock
  /-- RELOCK (R477). After 1 ms within bound the loop relocks. -/
  | relock
  /-- ERROR_DETECTED (R480). An error is recorded and a targeted test starts. -/
  | errorDetected (e : ErrorReport)
  /-- TARGETED_TEST_END (R483). A targeted test ends; the resource is passed, spared or fenced and logged. -/
  | targetedTestEnd (n : Nat) (passed : Bool)
  /-- MONITOR_LATCH (R490). At interval end a monitor latches its histogram. -/
  | monitorLatch (mon : Nat)
  /-- POWER_LOOP (R493). Every 1 ms the power loop lowers or raises the operating-point cap. -/
  | powerLoop (watts : Nat)
  /-- READY_BIT_SET (R76). The value of a variable-latency instruction (load, atomic, IDIV, FDIV, SRD, PLATR, CLOSE, LDV and the like) arrives and sets its register's ready bit. -/
  | readyBitSet (bid team : Nat) (key : RegKey)
  /-- HOME_ACKNOWLEDGEMENT (R235). A home answers a store, atomic or RED with its acknowledgement and GWCT. -/
  | homeAcknowledgement (bid team : Nat)
  /-- GWCT_PASSED (R235). The meridian passes the largest GWCT (plus 20 ns at pod and system scope) that a waiting release holds, and the release completes. -/
  | gwctPassed (bid team rec : Nat)
  /-- DEPENDENCY_MET (R97). An event object written by another agent reaches a waiting packet's threshold and is seen within 2 µs. -/
  | dependencyMet (q : Nat)
  /-- ATS_TRANSLATION_COMPLETION (R106). The answer to a PCIe ATS translation request arrives, and the command processor writes the frame and sets pin on a host page. -/
  | atsTranslationCompletion (slot frame : Nat)
  /-- PCIE_COMPLETION_TIMEOUT (R260). An access outstanding to host memory reaches its PCIe completion timeout, ending the halt's wait for it. -/
  | pcieCompletionTimeout (bid team : Nat)
  /-- PORT_UP (R470). A UALink port completes training and comes up, and its LKSTAT bit is set. -/
  | portUp (port lanes : Nat)
  /-- DIE_TEMPERATURE_CAP (R493). A die rises above 105 °C and is capped at point 7, or falls below 95 °C and is released from the cap. -/
  | dieTemperatureCap (die celsius : Nat)
  /-- BFETCH_COMPLETE (R434). A BFETCH has read its lines at the bundle's version, written its output and retires in class 5. -/
  | bfetchComplete (bid op : Nat)
  deriving DecidableEq, Repr

end Sys2Proof
end

