-- ==== Sys2Proof/Machine/Forms.lean ====
section
/-! DEFINITION. Operand codes and the legality of every instruction form: which operands, suffixes and bits the
entries of R63 to R74, R149 to R162, R165 to R199, R203 to R226, R278, R317, R343, R371, R395 and R421 allow. A word
that breaks one of these checks traps with ILLOP at decode (R80). -/

namespace Sys2Proof.Machine

/-! Codes of the enumerated fields. -/

/-- The operand code of R63. -/
def opndCode : Opnd → Nat
  | .v n => n.val
  | .s n => 0xB0 + n.val
  | .x n => 0xF0 + n.val
  | .zero => 0xF8
  | .lane => 0xF9
  | .lit => 0xFA
  | .ones => 0xFB

/-- The operand a code names (R63); codes 0xFC to 0xFF name none. -/
def opndOf (c : Nat) : Option Opnd :=
  if h : c < 176 then some (.v ⟨c, h⟩)
  else if h : c - 176 < 64 then some (.s ⟨c - 176, h⟩)
  else if h : c - 240 < 8 then some (.x ⟨c - 240, h⟩)
  else if c = 0xF8 then some .zero
  else if c = 0xF9 then some .lane
  else if c = 0xFA then some .lit
  else if c = 0xFB then some .ones
  else none

/-! Operand forms. `L` says whether a literal word stands with the instruction. -/

def opIsS : Opnd → Bool
  | .s _ => true
  | _ => false

def opIsZero : Opnd → Bool
  | .zero => true
  | _ => false

/-- A source of one register: any code, the literal only where there is one (R63). -/
def opSrc (L : Bool) : Opnd → Bool
  | .lit => L
  | _ => true

/-- A 64-bit source: an even register (R63). -/
def opSrc64 (L : Bool) : Opnd → Bool
  | .v n => n.val % 2 == 0
  | .s n => n.val % 2 == 0
  | .lit => L
  | _ => true

def opSrcW (L wide : Bool) (o : Opnd) : Bool := if wide then opSrc64 L o else opSrc L o

/-- A destination of one register, or 0xF8 to discard (R63). -/
def opDst : Opnd → Bool
  | .v _ | .s _ | .x _ | .zero => true
  | _ => false

def opDst64 : Opnd → Bool
  | .v n => n.val % 2 == 0
  | .s n => n.val % 2 == 0
  | .x _ | .zero => true
  | _ => false

def opDstW (wide : Bool) (o : Opnd) : Bool := if wide then opDst64 o else opDst o

/-- A destination that may not be scalar. -/
def opVdst (o : Opnd) : Bool := opDst o && !opIsS o

def opVdstW (wide : Bool) (o : Opnd) : Bool := opDstW wide o && !opIsS o

/-- A scalar or literal operand; the codes for zero and all ones stand for those literals (R84; log entry 20). -/
def opUni (L : Bool) : Opnd → Bool
  | .s _ | .zero | .ones => true
  | .lit => L
  | _ => false

def opUni64 (L : Bool) : Opnd → Bool
  | .s n => n.val % 2 == 0
  | .zero | .ones => true
  | .lit => L
  | _ => false

/-- A scalar register. -/
def opS : Opnd → Bool := opIsS

/-- An even scalar pair. -/
def opSpair : Opnd → Bool
  | .s n => n.val % 2 == 0
  | _ => false

def opSor0 (o : Opnd) : Bool := opIsS o || opIsZero o

/-- A scalar, or an even scalar pair in the `.g` form. -/
def opBuf (g : Bool) (o : Opnd) : Bool := if g then opSpair o else opIsS o

/-- An even vector register by its own number (R149). -/
def opVpair : Opnd → Bool
  | .v n => n.val % 2 == 0
  | _ => false

/-- A branch target: an even vector or scalar pair (R149). -/
def opTarget (o : Opnd) : Bool := opVpair o || opSpair o

/-- A vector register by its own number (R317). -/
def opV : Opnd → Bool
  | .v _ => true
  | _ => false

/-- A scalar or vector register by its own number (R317, R343). -/
def opSV (o : Opnd) : Bool := opIsS o || opV o

/-- A generic base: an even vector or scalar pair (R201; log entry 22 for indexed codes). -/
def opBaseG : Opnd → Bool
  | .v n => n.val % 2 == 0
  | .s n => n.val % 2 == 0
  | .x _ => true
  | _ => false

/-- A scratchpad base (R201). -/
def opBaseS : Opnd → Bool
  | .v _ | .s _ | .x _ => true
  | _ => false

/-- An offset (R201). -/
def opOff (L : Bool) : Opnd → Bool
  | .zero | .v _ | .s _ | .x _ => true
  | .lit => L
  | _ => false

/-- A data register of `n` registers (R203), as a destination. -/
def opLoadDst (n : Nat) : Opnd → Bool
  | .v m => m.val % n == 0
  | .x _ | .zero => true
  | _ => false

/-- What an atomic returns into: registers of either class (R211; R64 gives a scalar one execution), or nothing. -/
def opAtomDst (n : Nat) : Opnd → Bool
  | .s m => m.val % n == 0
  | o => opLoadDst n o

/-- A data operand of `n` registers (R203, R207). -/
def opData (L : Bool) (n : Nat) : Opnd → Bool
  | .v m => m.val % n == 0
  | .s m => m.val % n == 0
  | .lit => L && n != 4
  | _ => true

/-- Registers of an access (R203). -/
def sizeRegs : Size → Nat
  | .b64 => 2
  | .b128 => 4
  | _ => 1

/-- Bytes of an access (R67). -/
def sizeBytes : Size → Nat
  | .b8 => 1 | .b16 => 2 | .b32 => 4 | .b64 => 8 | .b128 => 16

/-- A scalar destination takes scalar, literal and constant sources only (R64). -/
def pipeOk (d : Opnd) (l : List Opnd) : Bool :=
  !opIsS d || l.all (opUni true)

/-- The modifiers an entry allows (R66): signs of a, b and c, scale, clamp. -/
def modsOk (m : Mods) (a b c sc cl : Bool) : Bool :=
  (a || !(m.nega || m.absa)) && (b || !(m.negb || m.absb)) && (c || !(m.negc || m.absc)) &&
  (sc || m.scale == 0) && (cl || !m.clamp)

/-- No modifier. -/
def noMods : Mods := ⟨false, false, false, false, false, false, false, 0⟩

/-- kmask and kinv are zero. -/
def km0 (h : Hdr) : Bool := h.kmask == 0 && !h.kinv

def lit? (h : Hdr) : Bool := h.lit.isSome

/-- Where the entry gives the 96-bit form for a literal source (R149, R165, R343), the literal stands in a source field. -/
def litUse (h : Hdr) (l : List Opnd) : Bool := !lit? h || l.contains .lit

/-- Elsewhere a literal that no field reads is zero (R65; log entry 23). -/
def litZero (h : Hdr) (l : List Opnd) : Bool :=
  match h.lit with
  | none => true
  | some w => w == 0 || l.contains .lit

def ityWide : ITy → Bool
  | .s64 | .z64 => true
  | _ => false

/-- Types marked "32/64" (R169). -/
def ityPlain : ITy → Bool
  | .s32 | .z32 | .s64 | .z64 => true
  | _ => false

def cmpWide : CmpTy → Bool
  | .s64 | .z64 => true
  | _ => false

def wWide (w : Fin 4) : Bool := w.val ≥ 2

/-- Sign extension only below 32 bits (R203). -/
def sxOk (sz : Size) (sx : Bool) : Bool := !sx || sz == .b8 || sz == .b16

def atomFloat : AtomOp → Bool
  | .faddF32 | .faddBf16x2 | .fminF32 | .fmaxF32 => true
  | _ => false

/-- Sizes of R211. -/
def atomSize (op : AtomOp) (sz : Size) : Bool := sz == .b32 || (sz == .b64 && !atomFloat op)

/-- A special register of R145: width 64, held by lanes, writable by SWR. -/
structure SReg where
  wide : Bool
  lane : Bool
  rw : Bool
  deriving DecidableEq, Repr

/-- The special registers of R145 by number. -/
def sreg (n : Nat) : Option SReg :=
  if n = 0 then some ⟨false, true, false⟩
  else if n ≤ 7 then some ⟨true, true, false⟩
  else if n = 8 then some ⟨true, false, false⟩
  else if n = 0x0C ∨ n = 0x0D ∨ n = 0x1A then some ⟨false, false, true⟩
  else if n ≤ 0x10 ∨ n = 0x13 then some ⟨false, false, false⟩
  else if n = 0x11 ∨ n = 0x12 ∨ n = 0x14 ∨ n = 0x18 then some ⟨true, false, false⟩
  else if n = 0x19 then some ⟨true, false, true⟩
  else if n = 0x40 ∨ n = 0x41 ∨ n = 0x42 then some ⟨false, false, false⟩
  else none

/-- R160's width rule. -/
def halfOk (r : SReg) (h : Half) : Bool := r.wide || h == .full

def pfmtFloat : PFmt → Bool
  | .q _ => false
  | _ => true

/-- Legality of a full instruction; compact ones and pairs are judged below. An event is no word and always legal. -/
def legalFull (i : Instr) : Bool :=
  match i with
  | .nop h => !lit? h
  | .iadd h ty _ m d a b | .isub h ty _ m d a b | .imul h ty _ m d a b
  | .imin h ty m d a b | .imax h ty m d a b =>
    modsOk m true true false false false && opDstW (ityWide ty) d && opSrcW (lit? h) (ityWide ty) a
      && opSrcW (lit? h) (ityWide ty) b && pipeOk d [a, b]
      && litUse h [a, b]
  | .iadd3 h ty _ m d a b c =>
    ityPlain ty && modsOk m true true true false false && opDstW (ityWide ty) d && opSrcW (lit? h) (ityWide ty) a
      && opSrcW (lit? h) (ityWide ty) b && opSrcW (lit? h) (ityWide ty) c && pipeOk d [a, b, c]
      && litUse h [a, b, c]
  | .imad h ty _ m d a b c =>
    modsOk m true true true false false && opDstW (ityWide ty) d && opSrcW (lit? h) (ityWide ty) a
      && opSrcW (lit? h) (ityWide ty) b && opSrcW (lit? h) (ityWide ty) c && pipeOk d [a, b, c]
      && litUse h [a, b, c]
  | .imulh h ty d a b | .idiv h ty _ d a b | .irem h ty d a b =>
    ityPlain ty && opDstW (ityWide ty) d && opSrcW (lit? h) (ityWide ty) a && opSrcW (lit? h) (ityWide ty) b
      && pipeOk d [a, b]
      && litUse h [a, b]
  | .imadw h _ _ d a b c =>
    opDst64 d && opSrc (lit? h) a && opSrc (lit? h) b && opSrc64 (lit? h) c && pipeOk d [a, b, c]
      && litUse h [a, b, c]
  | .isad h ty _ d a b c =>
    opDstW (ityWide ty) d && opSrcW (lit? h) (ityWide ty) a && opSrcW (lit? h) (ityWide ty) b
      && opSrcW (lit? h) (ityWide ty) c && pipeOk d [a, b, c]
      && litUse h [a, b, c]
  | .icmp h ty _ kd a b => kd != 0 && opSrcW (lit? h) (cmpWide ty) a && opSrcW (lit? h) (cmpWide ty) b
      && litUse h [a, b]
  | .sel h w d a b _ => opVdstW (wWide w) d && opSrcW (lit? h) (wWide w) a && opSrcW (lit? h) (wWide w) b
      && litUse h [a, b]
  | .lea h ty d a b c =>
    opDstW (ty != .z32) d && opSrcW (lit? h) (ty != .z32) a && opSrc (lit? h) b && opSrc (lit? h) c
      && pipeOk d [a, b, c]
      && litUse h [a, b, c]
  | .andL h w d a b | .orL h w d a b | .xorL h w d a b | .andn h w d a b =>
    opDstW (wWide w) d && opSrcW (lit? h) (wWide w) a && opSrcW (lit? h) (wWide w) b && pipeOk d [a, b]
      && litUse h [a, b]
  | .shl h w d a b | .shr h w d a b | .sar h w d a b | .rol h w d a b =>
    opDstW (wWide w) d && opSrcW (lit? h) (wWide w) a && opSrc (lit? h) b && pipeOk d [a, b]
      && litUse h [a, b]
  | .fshr h d a b c | .bfi h d a b c | .prmb h d a b c | .idot4 h _ _ _ d a b c | .idot2 h _ _ _ d a b c =>
    opDst d && opSrc (lit? h) a && opSrc (lit? h) b && opSrc (lit? h) c && pipeOk d [a, b, c]
      && litUse h [a, b, c]
  | .bfe h _ d a b => opDst d && opSrc (lit? h) a && opSrc (lit? h) b && pipeOk d [a, b]
      && litUse h [a, b]
  | .popc h w d a | .clz h w d a | .ctz h w d a => opDst d && opSrcW (lit? h) (wWide w) a && pipeOk d [a]
      && litUse h [a]
  | .brev h w d a | .mov h w d a => opDstW (wWide w) d && opSrcW (lit? h) (wWide w) a && pipeOk d [a]
      && litUse h [a]
  | .fadd h _ _ m d a b | .fsub h _ _ m d a b | .fmul h _ _ m d a b =>
    modsOk m true true false true true && opDst d && opSrc (lit? h) a && opSrc (lit? h) b && pipeOk d [a, b]
      && litUse h [a, b]
  | .fdiv h _ m d a b =>
    modsOk m true true false true true && opDst d && opSrc (lit? h) a && opSrc (lit? h) b && pipeOk d [a, b]
      && litUse h [a, b]
  | .ffma h _ _ m d a b c =>
    modsOk m true true true true true && opDst d && opSrc (lit? h) a && opSrc (lit? h) b && opSrc (lit? h) c
      && pipeOk d [a, b, c]
      && litUse h [a, b, c]
  | .fdot2 h _ _ m d a b c =>
    modsOk m true true true true true && opDst d && opSrc (lit? h) a && opSrc (lit? h) b && opSrc (lit? h) c
      && pipeOk d [a, b, c]
      && litUse h [a, b, c]
  | .fmin h _ m d a b | .fmax h _ m d a b =>
    modsOk m true true false false true && opDst d && opSrc (lit? h) a && opSrc (lit? h) b && pipeOk d [a, b]
      && litUse h [a, b]
  | .fcmp h _ m kd a b =>
    modsOk m true true false false false && kd != 0 && opSrc (lit? h) a && opSrc (lit? h) b
      && litUse h [a, b]
  | .fclass h _ m kd a b =>
    modsOk m true false false false false && kd != 0 && opSrc (lit? h) a && opUni (lit? h) b
      && litUse h [a, b]
  | .frnd h _ _ m d a => modsOk m true false false false true && opDst d && opSrc (lit? h) a && pipeOk d [a]
      && litUse h [a]
  | .fscale h _ _ m d a b =>
    modsOk m true false false true true && opDst d && opSrc (lit? h) a && opSrc (lit? h) b && pipeOk d [a, b]
      && litUse h [a, b]
  | .fexpo h _ d a => opDst d && opSrc (lit? h) a && pipeOk d [a]
      && litUse h [a]
  | .frcp h _ m d a | .frsq h _ m d a | .fsqrt h _ m d a =>
    modsOk m true false false true true && opDst d && opSrc (lit? h) a && pipeOk d [a]
      && litUse h [a]
  | .fexp2 h m d a | .flog2 h m d a | .fsin h m d a | .fcos h m d a | .ftanh h m d a | .fsigm h m d a =>
    modsOk m true false false true true && opDst d && opSrc (lit? h) a && pipeOk d [a]
      && litUse h [a]
  | .cvt h k m d a b c =>
    let srcs := opDst d && opSrc (lit? h) a && opSrc (lit? h) b && opSrc (lit? h) c && pipeOk d [a, b, c]
      && litUse h [a, b, c]
    match k with
    | .f32bf16 | .f32f16 | .f32nf8 => modsOk m false false false false false && opIsZero c && srcs
    | .bf16 _ | .f16 _ => modsOk m true true false false false && opIsZero c && srcs
    | .nf8 _ => modsOk m true true false false false && srcs
  | .ftoi h ty _ m d a =>
    modsOk m true false false true false && opDstW (cmpWide ty) d && opSrc (lit? h) a && pipeOk d [a]
      && litUse h [a]
  | .itof h ty _ m d a =>
    modsOk m false false false true false && opDst d && opSrcW (lit? h) (cmpWide ty) a && pipeOk d [a]
      && litUse h [a]
  | .qpack h _ m d a => modsOk m true false false false false && opVdst d && opSrc (lit? h) a
      && litUse h [a]
  | .qunpk h _ d a b c =>
    opDst d && opSrc64 (lit? h) a && opSrc (lit? h) b && opSrc (lit? h) c && pipeOk d [a, b, c]
      && litUse h [a, b, c]
  | .tred h op d a => opDstW (op == .iadd64) d && opSrcW (lit? h) (op == .iadd64) a
      && litUse h [a]
  | .tscan h op _ d a => opVdstW (op == .iadd64) d && opSrcW (lit? h) (op == .iadd64) a
      && litUse h [a]
  | .tshfl h md w d a b c =>
    opVdstW w d && opSrcW (lit? h) w a && (if md == .idx then opSrc (lit? h) b else opUni (lit? h) b)
      && opSrcW (lit? h) w c
      && litUse h [a, b, c]
  | .tbcst h first w d a b c =>
    opDstW w d && opSrcW (lit? h) w a
      && (if first then opIsZero b && opIsZero c else opUni (lit? h) b && opSrcW (lit? h) w c)
      && litUse h [a, b, c]
  | .vote h _ d a => opDst d && opSrc (lit? h) a
      && litUse h [a]
  | .matchL h _ w kd a => kd != 0 && opSrcW (lit? h) w a
      && litUse h [a]
  | .kop h kd _ => kd != 0 && !lit? h
  | .kcnt h d _ => opDst d && !lit? h
  | .kfnd h _ d _ => opDst d && !lit? h
  | .kmov h f =>
    match f with
    | .v2k kd a => kd != 0 && opSrc (lit? h) a && litZero h [a]
    | .k2v d _ => !lit? h && opVdst d
    | .s2k kd a b => kd != 0 && opUni (lit? h) a && opUni (lit? h) b && litZero h [a, b]
    | .k2s d _ b => km0 h && opIsS d && opUni (lit? h) b && litZero h [b]
  | .ld h mc sx d a b =>
    (mc.order == .rlx || mc.order == .acq) && sxOk mc.size sx && opLoadDst (sizeRegs mc.size) d && opBaseG a
      && opOff (lit? h) b
      && litZero h [a, b]
  | .st h mc a b c =>
    (mc.order == .rlx || mc.order == .rel) && opBaseG a && opOff (lit? h) b && opData (lit? h) (sizeRegs mc.size) c
      && litZero h [a, b, c]
  | .lds h mc sx d a b =>
    (mc.order == .rlx || mc.order == .acq) && mc.cache == .normal && sxOk mc.size sx
      && opLoadDst (sizeRegs mc.size) d && opBaseS a && opOff (lit? h) b
      && litZero h [a, b]
  | .sts h mc a b c =>
    (mc.order == .rlx || mc.order == .rel) && mc.cache == .normal && opBaseS a && opOff (lit? h) b
      && opData (lit? h) (sizeRegs mc.size) c
      && litZero h [a, b, c]
  | .ldu h mc sx d a b =>
    km0 h && (mc.order == .rlx || mc.order == .acq) && sxOk mc.size sx && opIsS d
      && opData false (sizeRegs mc.size) d && opSpair a && (opSor0 b || (lit? h && b == .lit))
      && litZero h [a, b]
  | .atom h mc op d a b c =>
    atomSize op mc.size && !(op == .cas && opIsZero d) && opAtomDst (sizeRegs mc.size) d && opBaseG a
      && opOff (lit? h) b && opData (lit? h) (sizeRegs mc.size) c
      && pipeOk d [a, b, c] && litZero h [a, b, c]
  | .atoms h mc op d a b c =>
    atomSize op mc.size && mc.cache == .normal && !(op == .cas && opIsZero d) && opAtomDst (sizeRegs mc.size) d
      && opBaseS a && opOff (lit? h) b && opData (lit? h) (sizeRegs mc.size) c
      && pipeOk d [a, b, c] && litZero h [a, b, c]
  | .red h mc op a b c =>
    atomSize op mc.size && op != .exch && op != .cas && (mc.order == .rlx || mc.order == .rel) && opBaseG a
      && opOff (lit? h) b && opData (lit? h) (sizeRegs mc.size) c
      && litZero h [a, b, c]
  | .fence h ord _ => km0 h && ord != .rlx && litZero h []
  | .pref h _ _ a b | .cctl h _ a b => opBaseG a && opOff (lit? h) b
      && litZero h [a, b]
  | .waitc h cls a => km0 h && cls.val ≤ 5 && opUni (lit? h) a
      && litZero h [a]
  | .rdc h _ _ d => km0 h && opDst64 d && litZero h []
  | .abarInit h g a b c => km0 h && opBuf g a && opUni (lit? h) b && opUni (lit? h) c
      && litZero h [a, b, c]
  | .abarArrive h g d a => km0 h && opBuf g a && opSor0 d && litZero h []
  | .abarExpect h g a b | .abarWait h g a b => km0 h && opBuf g a && opUni (lit? h) b
      && litZero h [a, b]
  | .abarTest h g d a b => km0 h && opBuf g a && opDst d && opUni (lit? h) b
      && litZero h [a, b]
  | .bar h a b | .barArrive h a b => km0 h && opUni (lit? h) a && opUni (lit? h) b
      && litZero h [a, b]
  | .gbar h a => km0 h && opUni (lit? h) a
      && litZero h [a]
  | .bra h off => !lit? h || off == 0
  | .brx h a => !lit? h && opTarget a
  | .call h d off => opVpair d && (!lit? h || off == 0)
  | .calli h d a => !lit? h && opVpair d && opTarget a
  | .ret h a => !lit? h && opVpair a
  | .exit h | .brk h => !lit? h
  | .yield h | .join h => !lit? h && km0 h
  | .pause h a => km0 h && opUni (lit? h) a && litUse h [a]
  | .trap h a => opUni (lit? h) a && litUse h [a]
  | .claim h a cnt | .release h a cnt =>
    km0 h && opUni (lit? h) a && cnt.toNat ≤ 22 && (opIsZero a || cnt == 0)
      && litZero h [a]
  | .xset h _ _ a => opSrc (lit? h) a
      && litZero h [a]
  | .xget h d _ => !lit? h && opVdst d
  | .tcopy h g a c | .tgath h g a c | .tscat h g a c =>
    !lit? h && km0 h && opIsS a && (if g then opSpair c else opSor0 c)
  | .tmcst h a b c => !lit? h && km0 h && opIsS a && opSpair b && opSor0 c
  | .cbini h g _ _ a b c => !lit? h && km0 h && opBuf g a && opIsS b && opIsS c
  | .cbacq h g tag d a => !lit? h && km0 h && opBuf tag d && opBuf g a
  | .cbrel h g a => !lit? h && km0 h && opBuf g a
  | .cbput h g a b c => !lit? h && km0 h && opBuf g a && opIsS b && opSor0 c
  | .cbres h g d a | .cbst h g d a => !lit? h && km0 h && opIsS d && opBuf g a
  | .tfill h a b c => !lit? h && km0 h && opIsS a && opIsS b && opIsS c
  | .ldw h f p a => km0 h && !lit? h && opIsS a && (!pfmtFloat f || p.val % 2 == 0)
  | .wswap h => km0 h && !lit? h
  | .mmq h _ _ _ b => km0 h && !lit? h && (opIsS b || opV b)
  | .msa h _ _ b c => km0 h && !lit? h && opIsS b && opIsS c
  | .mmqa h _ _ _ b c => km0 h && !lit? h && (opIsS b || opV b) && opSpair c
  | .mmqaCb h _ _ b c => km0 h && !lit? h && opIsS b && opIsS c
  | .mmf h f _ p b => km0 h && !lit? h && pfmtFloat f && p.val % 2 == 0 && (opIsS b || opV b)
  | .tld h f _ a b => km0 h && !lit? h && f != .nf8 && opSpair a && opSor0 b
  | .tst h f trk a b _ => km0 h && !lit? h && (!trk || f == .b32) && opSpair a && opSor0 b
  | .tzero h _ b => km0 h && opUni (lit? h) b
      && litZero h [b]
  | .tmvT2v h d _ b => opV d && opUni (lit? h) b
      && litZero h [b]
  | .tmvV2t h _ a b => opV a && opUni (lit? h) b
      && litZero h [a, b]
  | .tstat h d _ => km0 h && !lit? h && opSV d
  | .tacc h _ _ => km0 h && !lit? h
  | .atts h a b c | .attv h a b c | .attm h a b c => km0 h && opIsS a && opUni (lit? h) b && opUni (lit? h) c
      && litUse h [a, b, c]
  | .evict h a => km0 h && !lit? h && opIsS a
  | .platr h d a b => opSV d && opSpair a && (opUni (lit? h) b || opV b) && (!opIsS d || opUni true b)
      && litUse h [a, b]
  | .rgath h d a | .redrx h d a => km0 h && !lit? h && opSor0 d && opIsS a
  | .nmcall h a b c => km0 h && opIsS a && opUni (lit? h) b && opSor0 c
      && litZero h [a, b, c]
  | .nmcallA h a b c => km0 h && !lit? h && opIsS a && opSpair b && opSor0 c
  | .nmret h a b => km0 h && opIsS a && opUni (lit? h) b
      && litZero h [a, b]
  | .clsend h a c | .clred h a c => km0 h && !lit? h && opIsS a && opSor0 c
  | .clarm h _ a b => km0 h && opIsS a && opUni (lit? h) b
      && litZero h [a, b]
  | .clarmOff h b => km0 h && opUni (lit? h) b
      && litZero h [b]
  | .sbset h _ a | .sbsetClr h _ a => km0 h && opUni64 (lit? h) a
      && litZero h [a]
  | .sbsetRd h d _ => km0 h && !lit? h && opSpair d
  | .coll h op arr _ a c => km0 h && !lit? h && (!arr || op == .allred || op == .redsc) && opIsS a && opSor0 c
  | .close h d a b c => km0 h && opSpair d && opIsS a && opUni (lit? h) b && opUni (lit? h) c
      && litZero h [a, b, c]
  | .bopen h _ a => km0 h && opUni (lit? h) a
      && litZero h [a]
  | .stb h _ mc a b c =>
    mc.cache == .normal && mc.order == .rlx && (mc.scope == .dev || mc.scope == .pod) && opBaseG a
      && opOff (lit? h) b && opData (lit? h) (sizeRegs mc.size) c
      && litZero h [a, b, c]
  | .bcommit h _ | .babort h _ => km0 h && !lit? h
  | .vsnap h d => km0 h && !lit? h && (opSpair d || opIsZero d)
  | .ldv h mc sx d a b kc =>
    mc.cache == .normal && (mc.order == .rlx || mc.order == .acq) && (mc.scope == .dev || mc.scope == .pod)
      && sxOk mc.size sx && opLoadDst (sizeRegs mc.size) d && opBaseG a && opOff (lit? h) b && kc != 0
      && litZero h [a, b]
  | .bfetch h a b c => km0 h && opIsS a && opSpair b && opUni (lit? h) c
      && litZero h [a, b, c]
  | .srd h half d num =>
    !lit? h && (match sreg num.toNat with
      | none => false
      | some r => halfOk r half && opDstW (r.wide && half == .full) d && !(r.lane && opIsS d))
  | .swr h half num a =>
    km0 h && (match sreg num.toNat with
      | none => false
      | some r => r.rw && halfOk r half
          && (if r.wide && half == .full then opUni64 (lit? h) a else opUni (lit? h) a))
      && litZero h [a]
  | .swrp h num a => km0 h && num == 0x40 && opUni (lit? h) a
      && litZero h [a]
  | .ovld h a => km0 h && opUni (lit? h) a
      && litZero h [a]
  | .tret h _ => km0 h && !lit? h
  | .halt h => km0 h && !lit? h
  | _ => true

/-! The compact form (R70 to R72, R200, R209, R307). -/

/-- The header of the full instruction a compact word executes (R71), with an immediate as its literal. -/
def cHdr (w : CRaw) : Hdr :=
  ⟨w.stall.zeroExtend 4, w.kmask, false, if w.imm then some (w.b.zeroExtend 32) else none⟩

/-- The same without a literal. -/
def cHdr0 (w : CRaw) : Hdr := ⟨w.stall.zeroExtend 4, w.kmask, false, none⟩

/-- Field b: an immediate, or an operand code; 0xFA is no code of a C32 (R63, R71). -/
def cB (w : CRaw) : Option Opnd := if w.imm then some .lit else opndOf w.b.toNat

/-- Field d; 0xFA is no code of a C32 there either (R63). -/
def cD (w : CRaw) : Option Opnd := if w.d = 0xFA then none else opndOf w.d.toNat

/-- Field b names an even vector register (codes 36 and 37, R72). -/
def cBpair (w : CRaw) : Bool := decide (w.b.toNat < 176) && w.b.toNat % 2 == 0

/-- Field d as d and a, field b as b (R71). -/
def cBin (w : CRaw) (f : Opnd → Opnd → Instr) : Option Instr :=
  match cD w, cB w with
  | some d, some b => some (f d b)
  | _, _ => none

/-- imm 0 and d unused. -/
def cPlain (w : CRaw) : Bool := !w.imm && w.d == 0

def orderOf (n : BitVec 2) : Order :=
  if n = 0 then .rlx else if n = 1 then .acq else if n = 2 then .rel else .ar

/-- The full instruction a compact one executes exactly as (R71); none where its own fields break R71 or R72. -/
def expand (i : Instr) : Option Instr :=
  match i with
  | .entryWord w => some (.nop (cHdr0 w))
  | .compactNop _ w => some (.nop (cHdr0 w))
  | .compactMov w => cBin w fun d b => .mov (cHdr w) 0 d b
  | .compactIaddS32 w => cBin w fun d b => .iadd (cHdr w) .s32 false noMods d d b
  | .compactIsubS32 w => cBin w fun d b => .isub (cHdr w) .s32 false noMods d d b
  | .compactImulS32 w => cBin w fun d b => .imul (cHdr w) .s32 false noMods d d b
  | .compactIminS32 w => cBin w fun d b => .imin (cHdr w) .s32 noMods d d b
  | .compactImaxS32 w => cBin w fun d b => .imax (cHdr w) .s32 noMods d d b
  | .compactAnd w => cBin w fun d b => .andL (cHdr w) 0 d d b
  | .compactOr w => cBin w fun d b => .orL (cHdr w) 0 d d b
  | .compactXor w => cBin w fun d b => .xorL (cHdr w) 0 d d b
  | .compactShl w => cBin w fun d b => .shl (cHdr w) 0 d d b
  | .compactShr w => cBin w fun d b => .shr (cHdr w) 0 d d b
  | .compactSar w => cBin w fun d b => .sar (cHdr w) 0 d d b
  | .compactIaddS64 w => cBin w fun d b => .iadd (cHdr w) .s64 false noMods d d b
  | .compactPopc w => cBin w fun d b => .popc (cHdr w) 0 d b
  | .compactClz w => cBin w fun d b => .clz (cHdr w) 0 d b
  | .compactFaddF32 w => cBin w fun d b => .fadd (cHdr w) .f32 .rne noMods d d b
  | .compactFsubF32 w => cBin w fun d b => .fsub (cHdr w) .f32 .rne noMods d d b
  | .compactFmulF32 w => cBin w fun d b => .fmul (cHdr w) .f32 .rne noMods d d b
  | .compactFminF32 w => cBin w fun d b => .fmin (cHdr w) .f32 noMods d d b
  | .compactFmaxF32 w => cBin w fun d b => .fmax (cHdr w) .f32 noMods d d b
  | .compactFaddBf16x2 w => cBin w fun d b => .fadd (cHdr w) .bf16x2 .rne noMods d d b
  | .compactFmulBf16x2 w => cBin w fun d b => .fmul (cHdr w) .bf16x2 .rne noMods d d b
  | .compactFrcp w => cBin w fun d b => .frcp (cHdr w) .rne noMods d b
  | .compactFrsq w => cBin w fun d b => .frsq (cHdr w) .rne noMods d b
  | .compactFexp2 w => cBin w fun d b => .fexp2 (cHdr w) noMods d b
  | .compactCvtF32Bf16lo w => cBin w fun d b => .cvt (cHdr w) .f32bf16 noMods d b .zero .zero
  | .compactCvtBf16F32 w => cBin w fun d b => .cvt (cHdr w) (.bf16 .rne) noMods d b .zero .zero
  | .compactItofS32 w => cBin w fun d b => .itof (cHdr w) .s32 .rne noMods d b
  | .compactFtoiS32 w => cBin w fun d b => .ftoi (cHdr w) .s32 .rne noMods d b
  | .compactIcmpEq w => cBin w fun d b => .icmp (cHdr w) .s32 .eq 7 d b
  | .compactIcmpLtS32 w => cBin w fun d b => .icmp (cHdr w) .s32 .lt 7 d b
  | .compactFcmpLt w => cBin w fun d b => .fcmp (cHdr w) .lt noMods 7 d b
  | .compactSel w => cBin w fun d b => .sel (cHdr w) 0 d d b 7
  | .compactLds32 o w =>
    if w.imm then none
    else cBin w fun d b => .lds (cHdr w) ⟨.b32, .normal, orderOf o, .blk⟩ false d b .zero
  | .compactSts32 o w =>
    if w.imm then none
    else cBin w fun d b => .sts (cHdr w) ⟨.b32, .normal, orderOf o, .blk⟩ b .zero d
  | .compactLd32 o w =>
    if w.imm || !cBpair w then none
    else cBin w fun d b => .ld (cHdr w) ⟨.b32, .normal, orderOf o, .dev⟩ false d b .zero
  | .compactSt32 o w =>
    if w.imm || !cBpair w then none
    else cBin w fun d b => .st (cHdr w) ⟨.b32, .normal, orderOf o, .dev⟩ b .zero d
  | .compactTshflXor w => if w.imm then cBin w fun d b => .tshfl (cHdr w) .xor false d d b .zero else none
  | .compactBar w => if w.imm && w.d == 0 && w.b.toNat ≤ 15 then some (.bar (cHdr w) .lit .zero) else none
  | .compactWaitc w =>
    if w.imm && w.d == 0 then
      some (.waitc ⟨w.stall.zeroExtend 4, w.kmask, false, some ((w.b &&& 31).zeroExtend 32)⟩
        (Fin.ofNat 8 (w.b.toNat / 32)) .lit)
    else none
  | .compactYield w => if cPlain w && w.b == 0 then some (.yield (cHdr0 w)) else none
  | .compactBra w => if w.imm then some (.bra (cHdr0 w) (w.b ++ w.d)) else none
  | .compactExit w => if cPlain w && w.b == 0 then some (.exit (cHdr0 w)) else none
  | .compactRet w => if cPlain w && w.b == 0 then some (.ret (cHdr0 w) (.v 0)) else none
  | .compactAbarWait w =>
    if w.imm then (cD w).map fun d => .abarWait (cHdr w) false d .lit else none
  | .compactCbacq w => if w.imm then none else cBin w fun d b => .cbacq (cHdr w) false false d b
  | .compactCbrel w =>
    if cPlain w then (cB w).map fun b => .cbrel (cHdr w) false b else none
  | _ => none

/-- The instruction of a compact word's cop and sub fields (R72, R85); codes 48 to 63, and a non-zero sub elsewhere than in
`nop` and codes 34 to 37, name none. -/
def compactOf (cop : Nat) (sub : BitVec 2) (w : CRaw) : Option Instr :=
  if cop = 0 then (if sub = 1 then some (.entryWord w) else some (.compactNop sub w))
  else if cop = 34 then some (.compactLds32 sub w)
  else if cop = 35 then some (.compactSts32 sub w)
  else if cop = 36 then some (.compactLd32 sub w)
  else if cop = 37 then some (.compactSt32 sub w)
  else if sub ≠ 0 then none
  else match cop with
    | 1 => some (.compactMov w) | 2 => some (.compactIaddS32 w) | 3 => some (.compactIsubS32 w)
    | 4 => some (.compactImulS32 w) | 5 => some (.compactIminS32 w) | 6 => some (.compactImaxS32 w)
    | 7 => some (.compactAnd w) | 8 => some (.compactOr w) | 9 => some (.compactXor w)
    | 10 => some (.compactShl w) | 11 => some (.compactShr w) | 12 => some (.compactSar w)
    | 13 => some (.compactIaddS64 w) | 14 => some (.compactPopc w) | 15 => some (.compactClz w)
    | 16 => some (.compactFaddF32 w) | 17 => some (.compactFsubF32 w) | 18 => some (.compactFmulF32 w)
    | 19 => some (.compactFminF32 w) | 20 => some (.compactFmaxF32 w) | 21 => some (.compactFaddBf16x2 w)
    | 22 => some (.compactFmulBf16x2 w) | 23 => some (.compactFrcp w) | 24 => some (.compactFrsq w)
    | 25 => some (.compactFexp2 w) | 26 => some (.compactCvtF32Bf16lo w) | 27 => some (.compactCvtBf16F32 w)
    | 28 => some (.compactItofS32 w) | 29 => some (.compactFtoiS32 w) | 30 => some (.compactIcmpEq w)
    | 31 => some (.compactIcmpLtS32 w) | 32 => some (.compactFcmpLt w) | 33 => some (.compactSel w)
    | 38 => some (.compactTshflXor w) | 39 => some (.compactBar w) | 40 => some (.compactWaitc w)
    | 41 => some (.compactYield w) | 42 => some (.compactBra w) | 43 => some (.compactExit w)
    | 44 => some (.compactRet w) | 45 => some (.compactAbarWait w) | 46 => some (.compactCbacq w)
    | 47 => some (.compactCbrel w)
    | _ => none

/-! The pair word (R73 to R75). -/

/-- The body's compact instruction. -/
def bodyInstr (p : PBody) : Option Instr := compactOf p.cop.val p.sub p.w

/-- A register of a pair's rules by operand code: the code, or a pair's two codes; constants name none. -/
def codeRegs (code : Nat) (wide : Bool) : List Nat :=
  if code ≥ 0xF0 then [] else if wide then [code, code + 1] else [code]

/-- Registers field d names (R74). -/
def bodyD (p : PBody) : List Nat :=
  if p.cop = 0 then [] else codeRegs p.w.d.toNat (p.cop.val == 13)

/-- Registers field b names. -/
def bodyB (p : PBody) : List Nat :=
  if p.cop = 0 ∨ p.w.imm then []
  else codeRegs p.w.b.toNat (p.cop.val == 13 || p.cop.val == 36 || p.cop.val == 37)

/-- The compares, which write k7. -/
def bodyCmp (p : PBody) : Bool := p.cop.val == 30 || p.cop.val == 31 || p.cop.val == 32

/-- Registers a body writes: none for a `nop`, a store or a compare. -/
def bodyDst (p : PBody) : List Nat :=
  if bodyCmp p ∨ p.cop.val = 35 ∨ p.cop.val = 37 then [] else bodyD p

def isIndexed (code : Nat) : Bool := decide (0xF0 ≤ code ∧ code ≤ 0xF7)

def bodyIndexed (p : PBody) : Bool :=
  p.cop != 0 && (isIndexed p.w.d.toNat || (!p.w.imm && isIndexed p.w.b.toNat))

/-- The rules of R74 beside rule 1. -/
def pairOk (a b : PBody) : Bool :=
  let both := a.cop != 0 && b.cop != 0
  let regs := bodyD a ++ bodyB a ++ bodyD b ++ bodyB b
  (!both || a.w.kmask == b.w.kmask)
    && !(bodyD b ++ bodyB b).any (fun r => (bodyD a).contains r)
    && !(bodyCmp a && b.cop != 0 && (bodyCmp b || b.cop.val == 33 || a.w.kmask == 7))
    && !(bodyDst a).any (fun r => (bodyDst b).contains r)
    && ((List.range 4).all fun k => (regs.filter fun r => r < 176 && r % 4 == k).length ≤ 2)
    && !bodyIndexed a && !bodyIndexed b
    && a.cop.val < 39 && b.cop.val < 39 && !(decide (34 ≤ b.cop.val) && decide (b.cop.val ≤ 37))

/-- Legality of a compact instruction: its fields obey R71 and R72, and the instruction it executes is legal. -/
def legalCompact (i : Instr) : Bool :=
  match i with
  | .entryWord _ => true
  | .compactNop sub _ => sub != 1
  | _ =>
    match expand i with
    | some f => legalFull f
    | none => false

def isCompact (i : Instr) : Bool :=
  match i with
  | .entryWord _ => true
  | .compactNop _ _ => true
  | .compactMov _ | .compactIaddS32 _ | .compactIsubS32 _ | .compactImulS32 _ | .compactIminS32 _
  | .compactImaxS32 _ | .compactAnd _ | .compactOr _ | .compactXor _ | .compactShl _ | .compactShr _
  | .compactSar _ | .compactIaddS64 _ | .compactPopc _ | .compactClz _ | .compactFaddF32 _
  | .compactFsubF32 _ | .compactFmulF32 _ | .compactFminF32 _ | .compactFmaxF32 _ | .compactFaddBf16x2 _
  | .compactFmulBf16x2 _ | .compactFrcp _ | .compactFrsq _ | .compactFexp2 _ | .compactCvtF32Bf16lo _
  | .compactCvtBf16F32 _ | .compactItofS32 _ | .compactFtoiS32 _ | .compactIcmpEq _ | .compactIcmpLtS32 _
  | .compactFcmpLt _ | .compactSel _ | .compactLds32 _ _ | .compactSts32 _ _ | .compactLd32 _ _
  | .compactSt32 _ _ | .compactTshflXor _ | .compactBar _ | .compactWaitc _ | .compactYield _
  | .compactBra _ | .compactExit _ | .compactRet _ | .compactAbarWait _ | .compactCbacq _
  | .compactCbrel _ => true
  | _ => false

/-- A pair body is a legal compact instruction (R80: ILLOP comes before PAIRV). -/
def legalBody (p : PBody) : Bool :=
  match bodyInstr p with
  | some i => legalCompact i
  | none => false

/-- Legality of every instruction. -/
def legal (i : Instr) : Bool :=
  match i with
  | .pair a b => legalBody a && legalBody b && pairOk a b
  | _ => if isCompact i then legalCompact i else legalFull i

end Sys2Proof.Machine
end

