-- ==== Sys2Proof/WellFormed.lean ====
section
/-! DEFINITION. Well-formed instructions: those some word of R58 to R75 encodes. Each check stands with its rule in
Machine/Forms.lean. -/

namespace Sys2Proof

/-- The instruction is legal: a word that decodes to it raises no decode trap of its own. -/
def Instr.wf (i : Instr) : Bool := Machine.legal i

end Sys2Proof
end

