-- ==== Sys2Proof/Decode.lean ====
section
/-! DEFINITION. The encodings of chapter 03: fields to words, words to instructions, total on any bytes and refusing by
name. An instruction is decoded by reading its fields, and accepted only where it is well formed and its own encoding is
the word read, so that every unused field is checked (R63, R65, R70). -/

namespace Sys2Proof

open Machine

/-- Why bytes are no instruction: ILLOP and PAIRV of R80, or too few bytes. -/
inductive DecodeErr where
  | illop
  | pairv
  | truncated
  deriving DecidableEq, Repr

/-- The fields of an F64 or L96 (R61); `m10` is [59:50]. -/
structure Raw where
  major : Nat
  sub : Nat
  m10 : Nat
  c : Nat
  b : Nat
  a : Nat
  d : Nat
  kinv : Bool
  kmask : Nat
  stall : Nat
  lit : Option W32
  deriving DecidableEq, Repr

/-! Codes of the suffixes. -/

def boolBit (b : Bool) : Nat := if b then 1 else 0

def rmCode : Rm → Nat
  | .rne => 0 | .rtz => 1 | .rup => 2 | .rdn => 3
def rmOf (n : Nat) : Rm :=
  if n = 0 then .rne else if n = 1 then .rtz else if n = 2 then .rup else .rdn

def ityCode : ITy → Nat
  | .s32 => 0 | .z32 => 1 | .s64 => 2 | .z64 => 3 | .s16x2 => 4 | .z16x2 => 5 | .s8x4 => 6 | .z8x4 => 7
def ityOf (n : Nat) : ITy :=
  if n = 0 then .s32 else if n = 1 then .z32 else if n = 2 then .s64 else if n = 3 then .z64
  else if n = 4 then .s16x2 else if n = 5 then .z16x2 else if n = 6 then .s8x4 else .z8x4

/-- sub of an integer major (R69). -/
def iSub (ty : ITy) (sat : Bool) : Nat := ityCode ty + 8 * boolBit sat

def ftyCode : FTy → Nat
  | .f32 => 0 | .bf16x2 => 1 | .f16x2 => 2
def ftyOf (n : Nat) : FTy := if n = 0 then .f32 else if n = 1 then .bf16x2 else .f16x2

/-- sub of a float major (R69). -/
def fSub (ty : FTy) (rm : Rm) : Nat := 4 * ftyCode ty + rmCode rm

def cmpTyCode : CmpTy → Nat
  | .s32 => 0 | .z32 => 1 | .s64 => 2 | .z64 => 3
def cmpTyOf (n : Nat) : CmpTy :=
  if n = 0 then .s32 else if n = 1 then .z32 else if n = 2 then .s64 else .z64

def icmpCode : ICmp → Nat
  | .eq => 0 | .ne => 1 | .lt => 2 | .le => 3
def icmpOf (n : Nat) : ICmp :=
  if n = 0 then .eq else if n = 1 then .ne else if n = 2 then .lt else .le

def fcmpCode : FCmp → Nat
  | .lt => 0 | .le => 1 | .eq => 2 | .ne => 3 | .gt => 4 | .ge => 5 | .ord => 6 | .un => 7
def fcmpOf (n : Nat) : FCmp :=
  if n = 0 then .lt else if n = 1 then .le else if n = 2 then .eq else if n = 3 then .ne
  else if n = 4 then .gt else if n = 5 then .ge else if n = 6 then .ord else .un

def leaCode : LeaTy → Nat
  | .z32 => 1 | .s64 => 2 | .z64 => 3
def leaOf (n : Nat) : LeaTy := if n = 1 then .z32 else if n = 2 then .s64 else .z64

def classCode : ClassFmt → Nat
  | .f32 => 0 | .bf16 => 1 | .f16 => 2
def classOf (n : Nat) : ClassFmt := if n = 0 then .f32 else if n = 1 then .bf16 else .f16

def cvtCode : CvtKind → Nat
  | .f32bf16 => 0 | .f32f16 => 1 | .f32nf8 => 2
  | .bf16 rm => 4 + rmCode rm | .f16 rm => 8 + rmCode rm | .nf8 rm => 12 + rmCode rm
def cvtOf (n : Nat) : CvtKind :=
  if n = 0 then .f32bf16 else if n = 1 then .f32f16 else if n < 4 then .f32nf8
  else if n < 8 then .bf16 (rmOf (n - 4)) else if n < 12 then .f16 (rmOf (n - 8)) else .nf8 (rmOf (n - 12))

def qCode : QFmt → Nat
  | .q2 => 2 | .q3 => 3 | .q4 => 4 | .q5 => 5 | .q6 => 6 | .q7 => 7 | .q8 => 8
def qOf (n : Nat) : QFmt :=
  if n = 2 then .q2 else if n = 3 then .q3 else if n = 4 then .q4 else if n = 5 then .q5
  else if n = 6 then .q6 else if n = 7 then .q7 else .q8

def treeCode : TreeOp → Nat
  | .iadd => 0 | .iaddS32Sat => 1 | .iaddZ32Sat => 2 | .iadd64 => 3 | .iminS32 => 4 | .iminZ32 => 5
  | .imaxS32 => 6 | .imaxZ32 => 7 | .and => 8 | .or => 9 | .xor => 10 | .fadd => 11 | .fmin => 12 | .fmax => 13
def treeOf (n : Nat) : TreeOp :=
  if n = 0 then .iadd else if n = 1 then .iaddS32Sat else if n = 2 then .iaddZ32Sat else if n = 3 then .iadd64
  else if n = 4 then .iminS32 else if n = 5 then .iminZ32 else if n = 6 then .imaxS32 else if n = 7 then .imaxZ32
  else if n = 8 then .and else if n = 9 then .or else if n = 10 then .xor else if n = 11 then .fadd
  else if n = 12 then .fmin else .fmax

def shflCode : Shfl → Nat
  | .idx => 0 | .up => 1 | .down => 2 | .xor => 3
def shflOf (n : Nat) : Shfl := if n = 0 then .idx else if n = 1 then .up else if n = 2 then .down else .xor

def voteCode : VoteOp → Nat
  | .any => 0 | .all => 1 | .none => 2 | .uni => 3
def voteOf (n : Nat) : VoteOp := if n = 0 then .any else if n = 1 then .all else if n = 2 then .none else .uni

def kbinCode : KBin → Nat
  | .and => 0 | .or => 1 | .xor => 2 | .andn => 3 | .orn => 4
def kbinOf (n : Nat) : KBin :=
  if n = 0 then .and else if n = 1 then .or else if n = 2 then .xor else if n = 3 then .andn else .orn

def sizeCode : Size → Nat
  | .b8 => 0 | .b16 => 1 | .b32 => 2 | .b64 => 3 | .b128 => 4
def sizeOf (n : Nat) : Size :=
  if n = 0 then .b8 else if n = 1 then .b16 else if n = 2 then .b32 else if n = 3 then .b64 else .b128

def cacheCode : Cache → Nat
  | .normal => 0 | .keep => 1 | .stream => 2 | .bypass => 3
def cacheOf (n : Nat) : Cache :=
  if n = 0 then .normal else if n = 1 then .keep else if n = 2 then .stream else .bypass

def orderCode : Order → Nat
  | .rlx => 0 | .acq => 1 | .rel => 2 | .ar => 3
def orderOfNat (n : Nat) : Order :=
  if n = 0 then .rlx else if n = 1 then .acq else if n = 2 then .rel else .ar

def scopeCode : Scope → Nat
  | .team => 0 | .blk => 1 | .cg => 2 | .die => 3 | .dev => 4 | .pod => 5 | .sys => 6
def scopeOf (n : Nat) : Scope :=
  if n = 0 then .team else if n = 1 then .blk else if n = 2 then .cg else if n = 3 then .die
  else if n = 4 then .dev else if n = 5 then .pod else .sys

def atomCode : AtomOp → Nat
  | .add => 0 | .minS => 1 | .minZ => 2 | .maxS => 3 | .maxZ => 4 | .and => 5 | .or => 6 | .xor => 7
  | .exch => 8 | .cas => 9 | .inc => 10 | .dec => 11 | .faddF32 => 12 | .faddBf16x2 => 13 | .fminF32 => 14
  | .fmaxF32 => 15
def atomOf (n : Nat) : AtomOp :=
  if n = 0 then .add else if n = 1 then .minS else if n = 2 then .minZ else if n = 3 then .maxS
  else if n = 4 then .maxZ else if n = 5 then .and else if n = 6 then .or else if n = 7 then .xor
  else if n = 8 then .exch else if n = 9 then .cas else if n = 10 then .inc else if n = 11 then .dec
  else if n = 12 then .faddF32 else if n = 13 then .faddBf16x2 else if n = 14 then .fminF32 else .fmaxF32

def cctlCode : CctlOp → Nat
  | .wb => 0 | .inv => 1 | .drop => 2
def cctlOf (n : Nat) : CctlOp := if n = 0 then .wb else if n = 1 then .inv else .drop

def xsetCode : XsetMode → Nat
  | .all => 0 | .idx => 1 | .add => 2
def xsetOf (n : Nat) : XsetMode := if n = 0 then .all else if n = 1 then .idx else .add

def pfmtCode : PFmt → Nat
  | .q q => qCode q | .bf16 => 9 | .fp16 => 10 | .nf8 => 11
def pfmtOf (n : Nat) : PFmt := if n = 9 then .bf16 else if n = 10 then .fp16 else if n = 11 then .nf8 else .q (qOf n)

def tfmtCode : TFmt → Nat
  | .b32 => 0 | .bf16 => 1 | .f16 => 2 | .nf8 => 3
def tfmtOf (n : Nat) : TFmt := if n = 0 then .b32 else if n = 1 then .bf16 else if n = 2 then .f16 else .nf8

def collCode : CollOp → Nat
  | .allred => 0 | .redsc => 1 | .allg => 2 | .bcast => 3
def collOf (n : Nat) : CollOp := if n = 0 then .allred else if n = 1 then .redsc else if n = 2 then .allg else .bcast

def halfCode : Half → Nat
  | .full => 0 | .lo => 1 | .hi => 2
def halfOf (n : Nat) : Half := if n = 0 then .full else if n = 1 then .lo else .hi

/-- The modifier bits of R61. -/
def modsCode (m : Mods) : Nat :=
  boolBit m.nega + 2 * boolBit m.negb + 4 * boolBit m.negc + 8 * boolBit m.absa + 16 * boolBit m.absb
    + 32 * boolBit m.absc + 64 * boolBit m.clamp + 128 * m.scale.toNat
def modsOf (n : Nat) : Mods :=
  ⟨n.testBit 0, n.testBit 1, n.testBit 2, n.testBit 3, n.testBit 4, n.testBit 5, n.testBit 6, BitVec.ofNat 3 (n / 128)⟩

/-- The memory control field of R67. -/
def mcCode (m : MemCtl) : Nat :=
  128 * sizeCode m.size + 32 * cacheCode m.cache + 8 * orderCode m.order + scopeCode m.scope
def mcOf (n : Nat) : MemCtl :=
  ⟨sizeOf (n / 128), cacheOf (n / 32 % 4), orderOfNat (n / 8 % 4), scopeOf (n % 8)⟩

/-! The encoder: an instruction's fields. -/

/-- The fields with operand codes as numbers. -/
def rawN (h : Hdr) (major sub m10 d a b c : Nat) : Raw :=
  ⟨major, sub, m10, c, b, a, d, h.kinv, h.kmask.val, h.stall.toNat, h.lit⟩

/-- The fields with operands. -/
def rawO (h : Hdr) (major sub m10 : Nat) (d a b c : Opnd) : Raw :=
  rawN h major sub m10 (opndCode d) (opndCode a) (opndCode b) (opndCode c)

/-- The fields of a full instruction, after the tables of each chapter; none for a compact one, a pair or an event. -/
def toRaw (i : Instr) : Option Raw :=
  match i with
  | .nop h => some (rawO h 0x00 0 0 .zero .zero .zero .zero)
  | .iadd h ty sat m d a b => some (rawO h 0x01 (iSub ty sat) (modsCode m) d a b .zero)
  | .isub h ty sat m d a b => some (rawO h 0x02 (iSub ty sat) (modsCode m) d a b .zero)
  | .iadd3 h ty sat m d a b c => some (rawO h 0x03 (iSub ty sat) (modsCode m) d a b c)
  | .imul h ty sat m d a b => some (rawO h 0x04 (iSub ty sat) (modsCode m) d a b .zero)
  | .imulh h ty d a b => some (rawO h 0x05 (iSub ty false) 0 d a b .zero)
  | .imad h ty sat m d a b c => some (rawO h 0x06 (iSub ty sat) (modsCode m) d a b c)
  | .imadw h sg sat d a b c => some (rawO h 0x07 (iSub (if sg then .s32 else .z32) sat) 0 d a b c)
  | .idiv h ty sat d a b => some (rawO h 0x08 (iSub ty sat) 0 d a b .zero)
  | .irem h ty d a b => some (rawO h 0x09 (iSub ty false) 0 d a b .zero)
  | .imin h ty m d a b => some (rawO h 0x0A (iSub ty false) (modsCode m) d a b .zero)
  | .imax h ty m d a b => some (rawO h 0x0B (iSub ty false) (modsCode m) d a b .zero)
  | .isad h ty sat d a b c => some (rawO h 0x0C (iSub ty sat) 0 d a b c)
  | .icmp h ty c kd a b =>
    some (rawN h 0x0D (4 * cmpTyCode ty + icmpCode c) 0 kd.val (opndCode a) (opndCode b) 0xF8)
  | .sel h w d a b kc => some (rawN h 0x0E w.val 0 (opndCode d) (opndCode a) (opndCode b) kc.val)
  | .lea h ty d a b c => some (rawO h 0x0F (leaCode ty) 0 d a b c)
  | .andL h w d a b => some (rawO h 0x10 w.val 0 d a b .zero)
  | .orL h w d a b => some (rawO h 0x11 w.val 0 d a b .zero)
  | .xorL h w d a b => some (rawO h 0x12 w.val 0 d a b .zero)
  | .andn h w d a b => some (rawO h 0x13 w.val 0 d a b .zero)
  | .shl h w d a b => some (rawO h 0x14 w.val 0 d a b .zero)
  | .shr h w d a b => some (rawO h 0x15 w.val 0 d a b .zero)
  | .sar h w d a b => some (rawO h 0x16 w.val 0 d a b .zero)
  | .rol h w d a b => some (rawO h 0x17 w.val 0 d a b .zero)
  | .fshr h d a b c => some (rawO h 0x18 0 0 d a b c)
  | .bfe h sg d a b => some (rawO h 0x19 (boolBit (!sg)) 0 d a b .zero)
  | .bfi h d a b c => some (rawO h 0x1A 0 0 d a b c)
  | .popc h w d a => some (rawO h 0x1B w.val 0 d a .zero .zero)
  | .clz h w d a => some (rawO h 0x1C w.val 0 d a .zero .zero)
  | .ctz h w d a => some (rawO h 0x1D w.val 0 d a .zero .zero)
  | .brev h w d a => some (rawO h 0x1E w.val 0 d a .zero .zero)
  | .prmb h d a b c => some (rawO h 0x1F 0 0 d a b c)
  | .idot4 h sat sa sb d a b c =>
    some (rawO h 0x20 (8 * boolBit sat + 2 * boolBit sa + boolBit sb) 0 d a b c)
  | .idot2 h sat sa sb d a b c =>
    some (rawO h 0x21 (8 * boolBit sat + 2 * boolBit sa + boolBit sb) 0 d a b c)
  | .mov h w d a => some (rawO h 0x22 w.val 0 d a .zero .zero)
  | .fadd h ty rm m d a b => some (rawO h 0x40 (fSub ty rm) (modsCode m) d a b .zero)
  | .fsub h ty rm m d a b => some (rawO h 0x41 (fSub ty rm) (modsCode m) d a b .zero)
  | .fmul h ty rm m d a b => some (rawO h 0x42 (fSub ty rm) (modsCode m) d a b .zero)
  | .ffma h ty rm m d a b c => some (rawO h 0x43 (fSub ty rm) (modsCode m) d a b c)
  | .fmin h ty m d a b => some (rawO h 0x44 (fSub ty .rne) (modsCode m) d a b .zero)
  | .fmax h ty m d a b => some (rawO h 0x45 (fSub ty .rne) (modsCode m) d a b .zero)
  | .fcmp h c m kd a b => some (rawN h 0x46 (fcmpCode c) (modsCode m) kd.val (opndCode a) (opndCode b) 0xF8)
  | .fclass h f m kd a b => some (rawN h 0x47 (classCode f) (modsCode m) kd.val (opndCode a) (opndCode b) 0xF8)
  | .frnd h ty rm m d a => some (rawO h 0x48 (fSub ty rm) (modsCode m) d a .zero .zero)
  | .fscale h ty rm m d a b => some (rawO h 0x49 (fSub ty rm) (modsCode m) d a b .zero)
  | .fexpo h f d a => some (rawO h 0x4A (classCode f) 0 d a .zero .zero)
  | .fdot2 h bf rm m d a b c => some (rawO h 0x4B (fSub (if bf then .bf16x2 else .f16x2) rm) (modsCode m) d a b c)
  | .frcp h rm m d a => some (rawO h 0x50 (rmCode rm) (modsCode m) d a .zero .zero)
  | .frsq h rm m d a => some (rawO h 0x51 (rmCode rm) (modsCode m) d a .zero .zero)
  | .fsqrt h rm m d a => some (rawO h 0x52 (rmCode rm) (modsCode m) d a .zero .zero)
  | .fexp2 h m d a => some (rawO h 0x53 0 (modsCode m) d a .zero .zero)
  | .flog2 h m d a => some (rawO h 0x54 0 (modsCode m) d a .zero .zero)
  | .fsin h m d a => some (rawO h 0x55 0 (modsCode m) d a .zero .zero)
  | .fcos h m d a => some (rawO h 0x56 0 (modsCode m) d a .zero .zero)
  | .ftanh h m d a => some (rawO h 0x57 0 (modsCode m) d a .zero .zero)
  | .fsigm h m d a => some (rawO h 0x58 0 (modsCode m) d a .zero .zero)
  | .fdiv h rm m d a b => some (rawO h 0x59 (rmCode rm) (modsCode m) d a b .zero)
  | .cvt h k m d a b c => some (rawO h 0x60 (cvtCode k) (modsCode m) d a b c)
  | .ftoi h ty rm m d a => some (rawO h 0x61 (4 * cmpTyCode ty + rmCode rm) (modsCode m) d a .zero .zero)
  | .itof h ty rm m d a => some (rawO h 0x62 (4 * cmpTyCode ty + rmCode rm) (modsCode m) d a .zero .zero)
  | .qpack h q m d a => some (rawO h 0x63 (qCode q) (modsCode m) d a .zero .zero)
  | .qunpk h q d a b c => some (rawO h 0x64 (qCode q) 0 d a b c)
  | .tred h op d a => some (rawO h 0x70 (treeCode op) 0 d a .zero .zero)
  | .tscan h op ex d a => some (rawO h 0x71 (treeCode op) 0 d a .zero (if ex then .ones else .zero))
  | .tshfl h md w d a b c => some (rawO h 0x72 (shflCode md + 8 * boolBit w) 0 d a b c)
  | .tbcst h f w d a b c => some (rawO h 0x73 (boolBit f + 8 * boolBit w) 0 d a b c)
  | .vote h md d a => some (rawO h 0x74 (voteCode md) 0 d a .zero .zero)
  | .matchL h al w kd a => some (rawN h 0x75 (boolBit al + 2 * boolBit w) 0 kd.val (opndCode a) 0xF8 0xF8)
  | .kop h kd f =>
    match f with
    | .bin op ka kb => some (rawN h 0x76 (kbinCode op) 0 kd.val ka.val kb.val 0xF8)
    | .not ka => some (rawN h 0x76 5 0 kd.val ka.val 0xF8 0xF8)
    | .clr => some (rawN h 0x76 6 0 kd.val 0xF8 0xF8 0xF8)
    | .set => some (rawN h 0x76 7 0 kd.val 0xF8 0xF8 0xF8)
  | .kcnt h d ka => some (rawN h 0x77 0 0 (opndCode d) ka.val 0xF8 0xF8)
  | .kfnd h hi d ka => some (rawN h 0x78 (boolBit hi) 0 (opndCode d) ka.val 0xF8 0xF8)
  | .kmov h f =>
    match f with
    | .v2k kd a => some (rawN h 0x79 0 0 kd.val (opndCode a) 0xF8 0xF8)
    | .k2v d ka => some (rawN h 0x79 1 0 (opndCode d) ka.val 0xF8 0xF8)
    | .s2k kd a b => some (rawN h 0x79 2 0 kd.val (opndCode a) (opndCode b) 0xF8)
    | .k2s d ka b => some (rawN h 0x79 3 0 (opndCode d) ka.val (opndCode b) 0xF8)
  | .ld h mc sx d a b => some (rawO h 0x80 (boolBit sx) (mcCode mc) d a b .zero)
  | .st h mc a b c => some (rawO h 0x81 0 (mcCode mc) .zero a b c)
  | .lds h mc sx d a b => some (rawO h 0x82 (boolBit sx) (mcCode mc) d a b .zero)
  | .sts h mc a b c => some (rawO h 0x83 0 (mcCode mc) .zero a b c)
  | .ldu h mc sx d a b => some (rawO h 0x84 (boolBit sx) (mcCode mc) d a b .zero)
  | .atom h mc op d a b c => some (rawO h 0x85 (atomCode op) (mcCode mc) d a b c)
  | .atoms h mc op d a b c => some (rawO h 0x86 (atomCode op) (mcCode mc) d a b c)
  | .red h mc op a b c => some (rawO h 0x87 (atomCode op) (mcCode mc) .zero a b c)
  | .fence h ord sc => some (rawO h 0x88 0 (8 * orderCode ord + scopeCode sc) .zero .zero .zero .zero)
  | .pref h l2 ca a b => some (rawO h 0x89 (boolBit l2) (32 * cacheCode ca) .zero a b .zero)
  | .cctl h op a b => some (rawO h 0x8A (cctlCode op) 0 .zero a b .zero)
  | .waitc h cls a => some (rawO h 0x8C cls.val 0 .zero a .zero .zero)
  | .rdc h ord sc d => some (rawO h 0x8D 0 (8 * orderCode ord + scopeCode sc) d .zero .zero .zero)
  | .abarInit h g a b c => some (rawO h 0x8E (8 * boolBit g) 0 .zero a b c)
  | .abarArrive h g d a => some (rawO h 0x8E (1 + 8 * boolBit g) 0 d a .zero .zero)
  | .abarExpect h g a b => some (rawO h 0x8E (2 + 8 * boolBit g) 0 .zero a b .zero)
  | .abarWait h g a b => some (rawO h 0x8E (3 + 8 * boolBit g) 0 .zero a b .zero)
  | .abarTest h g d a b => some (rawO h 0x8E (4 + 8 * boolBit g) 0 d a b .zero)
  | .bar h a b => some (rawO h 0x8F 0 0 .zero a b .zero)
  | .barArrive h a b => some (rawO h 0x8F 1 0 .zero a b .zero)
  | .gbar h a => some (rawO h 0x90 0 4 .zero a .zero .zero)
  | .bra h off => some (rawN h 0xA0 0 0 0xF8 0xF8 (off.toNat % 256) (off.toNat / 256))
  | .brx h a => some (rawN h 0xA1 0 0 0xF8 (opndCode a) 0 0)
  | .call h d off => some (rawN h 0xA2 0 0 (opndCode d) 0xF8 (off.toNat % 256) (off.toNat / 256))
  | .calli h d a => some (rawN h 0xA3 0 0 (opndCode d) (opndCode a) 0 0)
  | .ret h a => some (rawN h 0xA4 0 0 0xF8 (opndCode a) 0 0)
  | .exit h => some (rawN h 0xA5 0 0 0xF8 0xF8 0 0)
  | .yield h => some (rawN h 0xA6 0 0 0xF8 0xF8 0 0)
  | .pause h a => some (rawN h 0xA7 0 0 0xF8 (opndCode a) 0 0)
  | .trap h a => some (rawN h 0xA8 0 0 0xF8 (opndCode a) 0 0)
  | .brk h => some (rawN h 0xA9 0 0 0xF8 0xF8 0 0)
  | .join h => some (rawN h 0xAA 0 0 0xF8 0xF8 0 0)
  | .claim h a cnt => some (rawO h 0xB0 0 cnt.toNat .zero a .zero .zero)
  | .release h a cnt => some (rawO h 0xB1 0 cnt.toNat .zero a .zero .zero)
  | .xset h md xn a => some (rawN h 0xB2 (xsetCode md) 0 xn.val (opndCode a) 0xF8 0xF8)
  | .xget h d xn => some (rawN h 0xB3 0 0 (opndCode d) xn.val 0xF8 0xF8)
  | .tcopy h g a c => some (rawO h 0xC0 (8 * boolBit g) 0 .zero a .zero c)
  | .tgath h g a c => some (rawO h 0xC1 (8 * boolBit g) 0 .zero a .zero c)
  | .tscat h g a c => some (rawO h 0xC2 (8 * boolBit g) 0 .zero a .zero c)
  | .tmcst h a b c => some (rawO h 0xC3 0 0 .zero a b c)
  | .cbini h g tags n1 a b c => some (rawO h 0xC4 (8 * boolBit g) (n1.toNat + 64 * boolBit tags) .zero a b c)
  | .cbacq h g tag d a => some (rawO h 0xC5 (8 * boolBit g + boolBit tag) 0 d a .zero .zero)
  | .cbrel h g a => some (rawO h 0xC6 (8 * boolBit g) 0 .zero a .zero .zero)
  | .cbput h g a b c => some (rawO h 0xC7 (8 * boolBit g) 0 .zero a b c)
  | .cbres h g d a => some (rawO h 0xC8 (8 * boolBit g) 0 d a .zero .zero)
  | .cbst h g d a => some (rawO h 0xC9 (8 * boolBit g) 0 d a .zero .zero)
  | .tfill h a b c => some (rawO h 0xCA 0 0 .zero a b c)
  | .ldw h f p a => some (rawN h 0xD0 (pfmtCode f) 0 p.val (opndCode a) 0xF8 0xF8)
  | .wswap h => some (rawO h 0xD1 0 0 .zero .zero .zero .zero)
  | .mmq h q t p b => some (rawN h 0xD2 (qCode q) 0 t.val p.val (opndCode b) 0xF8)
  | .msa h t ts b c => some (rawN h 0xD3 0 0 t.val ts.val (opndCode b) (opndCode c))
  | .mmqa h q t p b c => some (rawN h 0xD4 (qCode q) 0 t.val p.val (opndCode b) (opndCode c))
  | .mmqaCb h q t b c => some (rawN h 0xD4 (qCode q) 1 t.val 0xF8 (opndCode b) (opndCode c))
  | .mmf h f t p b => some (rawN h 0xD5 (pfmtCode f) 0 t.val p.val (opndCode b) 0xF8)
  | .tld h f t a b => some (rawN h 0xD6 (tfmtCode f) 0 t.val (opndCode a) (opndCode b) 0xF8)
  | .tst h f trk a b t =>
    some (rawN h 0xD7 (tfmtCode f + 8 * boolBit trk) 0 0xF8 (opndCode a) (opndCode b) t.val)
  | .tzero h t b => some (rawN h 0xD8 0 0 t.val 0xF8 (opndCode b) 0xF8)
  | .tmvT2v h d t b => some (rawN h 0xD9 0 0 (opndCode d) t.val (opndCode b) 0xF8)
  | .tmvV2t h t a b => some (rawN h 0xD9 1 0 t.val (opndCode a) (opndCode b) 0xF8)
  | .tstat h d t => some (rawN h 0xDA 0 0 (opndCode d) t.val 0xF8 0xF8)
  | .tacc h t ts => some (rawN h 0xDB 0 0 t.val ts.val 0xF8 0xF8)
  | .atts h a b c => some (rawO h 0xE0 0 0 .zero a b c)
  | .attv h a b c => some (rawO h 0xE1 0 0 .zero a b c)
  | .attm h a b c => some (rawO h 0xE2 0 0 .zero a b c)
  | .evict h a => some (rawO h 0xE3 0 0 .zero a .zero .zero)
  | .platr h d a b => some (rawO h 0xE4 0 0 d a b .zero)
  | .rgath h d a => some (rawO h 0xE6 0 0 d a .zero .zero)
  | .redrx h d a => some (rawO h 0xE7 0 0 d a .zero .zero)
  | .nmcall h a b c => some (rawO h 0xE8 0 0 .zero a b c)
  | .nmcallA h a b c => some (rawO h 0xE8 1 0 .zero a b c)
  | .nmret h a b => some (rawO h 0xE9 0 0 .zero a b .zero)
  | .clsend h a c => some (rawO h 0xEA 0 0 .zero a .zero c)
  | .clred h a c => some (rawO h 0xEB 0 0 .zero a .zero c)
  | .clarm h clr a b => some (rawO h 0xEC (boolBit clr) 0 .zero a b .zero)
  | .clarmOff h b => some (rawO h 0xEC 2 0 .zero .zero b .zero)
  | .sbset h sb a => some (rawN h 0xED 0 0 sb.val (opndCode a) 0xF8 0xF8)
  | .sbsetClr h sb a => some (rawN h 0xED 1 0 sb.val (opndCode a) 0xF8 0xF8)
  | .sbsetRd h d sb => some (rawN h 0xED 2 0 (opndCode d) sb.val 0xF8 0xF8)
  | .coll h op arr t a c =>
    some (rawN h 0xEE (collCode op + 8 * boolBit arr) 0 t.val (opndCode a) 0xF8 (opndCode c))
  | .close h d a b c => some (rawO h 0xEF 0 0 d a b c)
  | .bopen h n a => some (rawO h 0xF0 (4 * n.val) 0 .zero a .zero .zero)
  | .stb h n mc a b c => some (rawO h 0xF1 (4 * n.val) (mcCode mc) .zero a b c)
  | .bcommit h n => some (rawO h 0xF2 (4 * n.val) 0 .zero .zero .zero .zero)
  | .babort h n => some (rawO h 0xF3 (4 * n.val) 0 .zero .zero .zero .zero)
  | .vsnap h d => some (rawO h 0xF4 0 0 d .zero .zero .zero)
  | .ldv h mc sx d a b kc =>
    some (rawN h 0xF5 (boolBit sx) (mcCode mc) (opndCode d) (opndCode a) (opndCode b) kc.val)
  | .bfetch h a b c => some (rawO h 0xF6 0 0 .zero a b c)
  | .srd h hf d num => some (rawN h 0xF8 (halfCode hf) 0 (opndCode d) 0xF8 0xF8 num.toNat)
  | .swr h hf num a => some (rawN h 0xF9 (halfCode hf) 0 0xF8 (opndCode a) 0xF8 num.toNat)
  | .swrp h num a => some (rawN h 0xFA 0 0 0xF8 (opndCode a) 0xF8 num.toNat)
  | .ovld h a => some (rawO h 0xFB 0 0 .zero a .zero .zero)
  | .tret h sk => some (rawO h 0xFC (boolBit sk) 0 .zero .zero .zero .zero)
  | .halt h => some (rawO h 0xFD 0 0 .zero .zero .zero .zero)
  | _ => none

/-- The two words of the fields, and the literal (R61). -/
def rawWords (r : Raw) : List W32 :=
  let kind := if r.lit.isSome then 2 else 1
  let n := kind + 2 ^ 2 * r.major + 2 ^ 10 * r.stall + 2 ^ 14 * r.kmask + 2 ^ 17 * boolBit r.kinv + 2 ^ 18 * r.d
    + 2 ^ 26 * r.a + 2 ^ 34 * r.b + 2 ^ 42 * r.c + 2 ^ 50 * r.m10 + 2 ^ 60 * r.sub
  BitVec.ofNat 32 n :: BitVec.ofNat 32 (n / 2 ^ 32) :: r.lit.toList

/-- A compact word (R70). -/
def cWord (cop : Nat) (sub : BitVec 2) (w : CRaw) : W32 :=
  BitVec.ofNat 32 (4 * cop + 2 ^ 8 * w.stall.toNat + 2 ^ 10 * w.d.toNat + 2 ^ 18 * w.b.toNat
    + 2 ^ 26 * boolBit w.imm + 2 ^ 27 * w.kmask.val + 2 ^ 30 * sub.toNat)

/-- cop and sub of a compact instruction (R72). -/
def copOf (i : Instr) : Option (Nat × BitVec 2 × CRaw) :=
  match i with
  | .entryWord w => some (0, 1, w)
  | .compactNop sub w => some (0, sub, w)
  | .compactMov w => some (1, 0, w) | .compactIaddS32 w => some (2, 0, w) | .compactIsubS32 w => some (3, 0, w)
  | .compactImulS32 w => some (4, 0, w) | .compactIminS32 w => some (5, 0, w)
  | .compactImaxS32 w => some (6, 0, w) | .compactAnd w => some (7, 0, w) | .compactOr w => some (8, 0, w)
  | .compactXor w => some (9, 0, w) | .compactShl w => some (10, 0, w) | .compactShr w => some (11, 0, w)
  | .compactSar w => some (12, 0, w) | .compactIaddS64 w => some (13, 0, w) | .compactPopc w => some (14, 0, w)
  | .compactClz w => some (15, 0, w) | .compactFaddF32 w => some (16, 0, w)
  | .compactFsubF32 w => some (17, 0, w) | .compactFmulF32 w => some (18, 0, w)
  | .compactFminF32 w => some (19, 0, w) | .compactFmaxF32 w => some (20, 0, w)
  | .compactFaddBf16x2 w => some (21, 0, w) | .compactFmulBf16x2 w => some (22, 0, w)
  | .compactFrcp w => some (23, 0, w) | .compactFrsq w => some (24, 0, w) | .compactFexp2 w => some (25, 0, w)
  | .compactCvtF32Bf16lo w => some (26, 0, w) | .compactCvtBf16F32 w => some (27, 0, w)
  | .compactItofS32 w => some (28, 0, w) | .compactFtoiS32 w => some (29, 0, w)
  | .compactIcmpEq w => some (30, 0, w) | .compactIcmpLtS32 w => some (31, 0, w)
  | .compactFcmpLt w => some (32, 0, w) | .compactSel w => some (33, 0, w)
  | .compactLds32 o w => some (34, o, w) | .compactSts32 o w => some (35, o, w)
  | .compactLd32 o w => some (36, o, w) | .compactSt32 o w => some (37, o, w)
  | .compactTshflXor w => some (38, 0, w) | .compactBar w => some (39, 0, w) | .compactWaitc w => some (40, 0, w)
  | .compactYield w => some (41, 0, w) | .compactBra w => some (42, 0, w) | .compactExit w => some (43, 0, w)
  | .compactRet w => some (44, 0, w) | .compactAbarWait w => some (45, 0, w)
  | .compactCbacq w => some (46, 0, w) | .compactCbrel w => some (47, 0, w)
  | _ => none

/-- The words of an instruction (R58); none for an event. -/
def encode (i : Instr) : List W32 :=
  match i with
  | .pair a b => [cWord a.cop.val a.sub a.w ||| 3, cWord b.cop.val b.sub b.w]
  | _ =>
    match copOf i with
    | some (cop, sub, w) => [cWord cop sub w]
    | none =>
      match toRaw i with
      | some r => rawWords r
      | none => []

/-! The decoder. -/

/-- The fields of two words and a literal (R61). -/
def rawOf (w0 w1 : W32) (lit : Option W32) : Raw :=
  let n := w0.toNat + 2 ^ 32 * w1.toNat
  { major := n / 2 ^ 2 % 256, sub := n / 2 ^ 60, m10 := n / 2 ^ 50 % 1024, c := n / 2 ^ 42 % 256,
    b := n / 2 ^ 34 % 256, a := n / 2 ^ 26 % 256, d := n / 2 ^ 18 % 256, kinv := n / 2 ^ 17 % 2 == 1,
    kmask := n / 2 ^ 14 % 8, stall := n / 2 ^ 10 % 16, lit := lit }

def rawHdr (r : Raw) : Hdr := ⟨BitVec.ofNat 4 r.stall, Fin.ofNat 8 r.kmask, r.kinv, r.lit⟩

def rMods (r : Raw) : Mods := modsOf r.m10
def rMc (r : Raw) : MemCtl := mcOf r.m10
def f8 (n : Nat) : Fin 8 := Fin.ofNat 8 n
def f4 (n : Nat) : Fin 4 := Fin.ofNat 4 n

/-- Continue with field d and a as operands, or with fewer or more of them. -/
def withD (r : Raw) (f : Opnd → Instr) : Option Instr := (opndOf r.d).map f
def withA (r : Raw) (f : Opnd → Instr) : Option Instr := (opndOf r.a).map f
def withB (r : Raw) (f : Opnd → Instr) : Option Instr := (opndOf r.b).map f
def withDA (r : Raw) (f : Opnd → Opnd → Instr) : Option Instr :=
  match opndOf r.d, opndOf r.a with
  | some d, some a => some (f d a)
  | _, _ => none
def withDB (r : Raw) (f : Opnd → Opnd → Instr) : Option Instr :=
  match opndOf r.d, opndOf r.b with
  | some d, some b => some (f d b)
  | _, _ => none
def withAB (r : Raw) (f : Opnd → Opnd → Instr) : Option Instr :=
  match opndOf r.a, opndOf r.b with
  | some a, some b => some (f a b)
  | _, _ => none
def withAC (r : Raw) (f : Opnd → Opnd → Instr) : Option Instr :=
  match opndOf r.a, opndOf r.c with
  | some a, some c => some (f a c)
  | _, _ => none
def withBC (r : Raw) (f : Opnd → Opnd → Instr) : Option Instr :=
  match opndOf r.b, opndOf r.c with
  | some b, some c => some (f b c)
  | _, _ => none
def withDAB (r : Raw) (f : Opnd → Opnd → Opnd → Instr) : Option Instr :=
  match opndOf r.d, opndOf r.a, opndOf r.b with
  | some d, some a, some b => some (f d a b)
  | _, _, _ => none
def withABC (r : Raw) (f : Opnd → Opnd → Opnd → Instr) : Option Instr :=
  match opndOf r.a, opndOf r.b, opndOf r.c with
  | some a, some b, some c => some (f a b c)
  | _, _, _ => none
def withDABC (r : Raw) (f : Opnd → Opnd → Opnd → Opnd → Instr) : Option Instr :=
  match opndOf r.d, opndOf r.a, opndOf r.b, opndOf r.c with
  | some d, some a, some b, some c => some (f d a b c)
  | _, _, _, _ => none

/-- Majors 0x00 to 0x22. -/
def ofRawInt (r : Raw) : Option Instr :=
  let h := rawHdr r
  let ty := ityOf (r.sub % 8)
  let sat := r.sub / 8 == 1
  let w := f4 r.sub
  match r.major with
  | 0x00 => some (.nop h)
  | 0x01 => withDAB r (.iadd h ty sat (rMods r))
  | 0x02 => withDAB r (.isub h ty sat (rMods r))
  | 0x03 => withDABC r (.iadd3 h ty sat (rMods r))
  | 0x04 => withDAB r (.imul h ty sat (rMods r))
  | 0x05 => withDAB r (.imulh h ty)
  | 0x06 => withDABC r (.imad h ty sat (rMods r))
  | 0x07 => withDABC r (.imadw h (r.sub % 8 == 0) sat)
  | 0x08 => withDAB r (.idiv h ty sat)
  | 0x09 => withDAB r (.irem h ty)
  | 0x0A => withDAB r (.imin h ty (rMods r))
  | 0x0B => withDAB r (.imax h ty (rMods r))
  | 0x0C => withDABC r (.isad h ty sat)
  | 0x0D => withAB r (.icmp h (cmpTyOf (r.sub / 4)) (icmpOf (r.sub % 4)) (f8 r.d))
  | 0x0E => withDAB r fun d a b => .sel h w d a b (f8 r.c)
  | 0x0F => withDABC r (.lea h (leaOf r.sub))
  | 0x10 => withDAB r (.andL h w)
  | 0x11 => withDAB r (.orL h w)
  | 0x12 => withDAB r (.xorL h w)
  | 0x13 => withDAB r (.andn h w)
  | 0x14 => withDAB r (.shl h w)
  | 0x15 => withDAB r (.shr h w)
  | 0x16 => withDAB r (.sar h w)
  | 0x17 => withDAB r (.rol h w)
  | 0x18 => withDABC r (.fshr h)
  | 0x19 => withDAB r (.bfe h (r.sub == 0))
  | 0x1A => withDABC r (.bfi h)
  | 0x1B => withDA r (.popc h w)
  | 0x1C => withDA r (.clz h w)
  | 0x1D => withDA r (.ctz h w)
  | 0x1E => withDA r (.brev h w)
  | 0x1F => withDABC r (.prmb h)
  | 0x20 => withDABC r (.idot4 h sat (r.sub / 2 % 2 == 1) (r.sub % 2 == 1))
  | 0x21 => withDABC r (.idot2 h sat (r.sub / 2 % 2 == 1) (r.sub % 2 == 1))
  | 0x22 => withDA r (.mov h w)
  | _ => none

/-- Majors 0x40 to 0x64. -/
def ofRawFloat (r : Raw) : Option Instr :=
  let h := rawHdr r
  let ty := ftyOf (r.sub / 4)
  let rm := rmOf (r.sub % 4)
  let m := rMods r
  match r.major with
  | 0x40 => withDAB r (.fadd h ty rm m)
  | 0x41 => withDAB r (.fsub h ty rm m)
  | 0x42 => withDAB r (.fmul h ty rm m)
  | 0x43 => withDABC r (.ffma h ty rm m)
  | 0x44 => withDAB r (.fmin h ty m)
  | 0x45 => withDAB r (.fmax h ty m)
  | 0x46 => withAB r (.fcmp h (fcmpOf r.sub) m (f8 r.d))
  | 0x47 => withAB r (.fclass h (classOf r.sub) m (f8 r.d))
  | 0x48 => withDA r (.frnd h ty rm m)
  | 0x49 => withDAB r (.fscale h ty rm m)
  | 0x4A => withDA r (.fexpo h (classOf r.sub))
  | 0x4B => withDABC r (.fdot2 h (r.sub / 4 == 1) rm m)
  | 0x50 => withDA r (.frcp h rm m)
  | 0x51 => withDA r (.frsq h rm m)
  | 0x52 => withDA r (.fsqrt h rm m)
  | 0x53 => withDA r (.fexp2 h m)
  | 0x54 => withDA r (.flog2 h m)
  | 0x55 => withDA r (.fsin h m)
  | 0x56 => withDA r (.fcos h m)
  | 0x57 => withDA r (.ftanh h m)
  | 0x58 => withDA r (.fsigm h m)
  | 0x59 => withDAB r (.fdiv h rm m)
  | 0x60 => withDABC r (.cvt h (cvtOf r.sub) m)
  | 0x61 => withDA r (.ftoi h (cmpTyOf (r.sub / 4)) rm m)
  | 0x62 => withDA r (.itof h (cmpTyOf (r.sub / 4)) rm m)
  | 0x63 => withDA r (.qpack h (qOf r.sub) m)
  | 0x64 => withDABC r (.qunpk h (qOf r.sub))
  | _ => none

/-- Majors 0x70 to 0x79. -/
def ofRawCross (r : Raw) : Option Instr :=
  let h := rawHdr r
  match r.major with
  | 0x70 => withDA r (.tred h (treeOf r.sub))
  | 0x71 => withDA r (.tscan h (treeOf r.sub) (r.c == 0xFB))
  | 0x72 => withDABC r (.tshfl h (shflOf (r.sub % 8)) (r.sub / 8 == 1))
  | 0x73 => withDABC r (.tbcst h (r.sub % 8 == 1) (r.sub / 8 == 1))
  | 0x74 => withDA r (.vote h (voteOf r.sub))
  | 0x75 => withA r (.matchL h (r.sub % 2 == 1) (r.sub / 2 == 1) (f8 r.d))
  | 0x76 =>
    some (.kop h (f8 r.d) (if r.sub = 5 then .not (f8 r.a) else if r.sub = 6 then .clr
      else if r.sub = 7 then .set else .bin (kbinOf r.sub) (f8 r.a) (f8 r.b)))
  | 0x77 => withD r fun d => .kcnt h d (f8 r.a)
  | 0x78 => withD r fun d => .kfnd h (r.sub == 1) d (f8 r.a)
  | 0x79 =>
    if r.sub = 0 then withA r fun a => .kmov h (.v2k (f8 r.d) a)
    else if r.sub = 1 then withD r fun d => .kmov h (.k2v d (f8 r.a))
    else if r.sub = 2 then withAB r fun a b => .kmov h (.s2k (f8 r.d) a b)
    else withDB r fun d b => .kmov h (.k2s d (f8 r.a) b)
  | _ => none

/-- Majors 0x80 to 0x90. -/
def ofRawMem (r : Raw) : Option Instr :=
  let h := rawHdr r
  let mc := rMc r
  let ord := orderOfNat (r.m10 / 8 % 4)
  let g := r.sub / 8 == 1
  match r.major with
  | 0x80 => withDAB r (.ld h mc (r.sub == 1))
  | 0x81 => withABC r (.st h mc)
  | 0x82 => withDAB r (.lds h mc (r.sub == 1))
  | 0x83 => withABC r (.sts h mc)
  | 0x84 => withDAB r (.ldu h mc (r.sub == 1))
  | 0x85 => withDABC r (.atom h mc (atomOf r.sub))
  | 0x86 => withDABC r (.atoms h mc (atomOf r.sub))
  | 0x87 => withABC r (.red h mc (atomOf r.sub))
  | 0x88 => some (.fence h ord (scopeOf (r.m10 % 8)))
  | 0x89 => withAB r (.pref h (r.sub == 1) (cacheOf (r.m10 / 32 % 4)))
  | 0x8A => withAB r (.cctl h (cctlOf r.sub))
  | 0x8C => withA r (.waitc h (f8 r.sub))
  | 0x8D => withD r (.rdc h ord (scopeOf (r.m10 % 8)))
  | 0x8E =>
    if r.sub % 8 = 0 then withABC r (.abarInit h g)
    else if r.sub % 8 = 1 then withDA r (.abarArrive h g)
    else if r.sub % 8 = 2 then withAB r (.abarExpect h g)
    else if r.sub % 8 = 3 then withAB r (.abarWait h g)
    else withDAB r (.abarTest h g)
  | 0x8F => if r.sub = 0 then withAB r (.bar h) else withAB r (.barArrive h)
  | 0x90 => withA r (.gbar h)
  | _ => none

/-- Majors 0xA0 to 0xB3. -/
def ofRawControl (r : Raw) : Option Instr :=
  let h := rawHdr r
  let off := BitVec.ofNat 16 (r.b + 256 * r.c)
  match r.major with
  | 0xA0 => some (.bra h off)
  | 0xA1 => withA r (.brx h)
  | 0xA2 => withD r fun d => .call h d off
  | 0xA3 => withDA r (.calli h)
  | 0xA4 => withA r (.ret h)
  | 0xA5 => some (.exit h)
  | 0xA6 => some (.yield h)
  | 0xA7 => withA r (.pause h)
  | 0xA8 => withA r (.trap h)
  | 0xA9 => some (.brk h)
  | 0xAA => some (.join h)
  | 0xB0 => withA r fun a => .claim h a (BitVec.ofNat 6 r.m10)
  | 0xB1 => withA r fun a => .release h a (BitVec.ofNat 6 r.m10)
  | 0xB2 => withA r (.xset h (xsetOf r.sub) (f8 r.d))
  | 0xB3 => withD r fun d => .xget h d (f8 r.a)
  | _ => none

/-- Majors 0xC0 to 0xDB. -/
def ofRawEngine (r : Raw) : Option Instr :=
  let h := rawHdr r
  let g := r.sub / 8 == 1
  match r.major with
  | 0xC0 => withAC r (.tcopy h g)
  | 0xC1 => withAC r (.tgath h g)
  | 0xC2 => withAC r (.tscat h g)
  | 0xC3 => withABC r (.tmcst h)
  | 0xC4 => withABC r (.cbini h g (r.m10 / 64 == 1) (BitVec.ofNat 6 (r.m10 % 64)))
  | 0xC5 => withDA r (.cbacq h g (r.sub % 2 == 1))
  | 0xC6 => withA r (.cbrel h g)
  | 0xC7 => withABC r (.cbput h g)
  | 0xC8 => withDA r (.cbres h g)
  | 0xC9 => withDA r (.cbst h g)
  | 0xCA => withABC r (.tfill h)
  | 0xD0 => withA r (.ldw h (pfmtOf r.sub) (f8 r.d))
  | 0xD1 => some (.wswap h)
  | 0xD2 => withB r (.mmq h (qOf r.sub) (f8 r.d) (f8 r.a))
  | 0xD3 => withBC r (.msa h (f8 r.d) (f8 r.a))
  | 0xD4 =>
    if r.m10 = 1 then withBC r (.mmqaCb h (qOf r.sub) (f8 r.d))
    else withBC r (.mmqa h (qOf r.sub) (f8 r.d) (f8 r.a))
  | 0xD5 => withB r (.mmf h (pfmtOf r.sub) (f8 r.d) (f8 r.a))
  | 0xD6 => withAB r (.tld h (tfmtOf r.sub) (f8 r.d))
  | 0xD7 => withAB r fun a b => .tst h (tfmtOf (r.sub % 4)) (r.sub / 8 == 1) a b (f8 r.c)
  | 0xD8 => withB r (.tzero h (f8 r.d))
  | 0xD9 =>
    if r.sub = 0 then withDB r fun d b => .tmvT2v h d (f8 r.a) b
    else withAB r (.tmvV2t h (f8 r.d))
  | 0xDA => withD r fun d => .tstat h d (f8 r.a)
  | 0xDB => some (.tacc h (f8 r.d) (f8 r.a))
  | _ => none

/-- Majors 0xE0 to 0xFD. -/
def ofRawSystem (r : Raw) : Option Instr :=
  let h := rawHdr r
  let n := f4 (r.sub / 4)
  match r.major with
  | 0xE0 => withABC r (.atts h)
  | 0xE1 => withABC r (.attv h)
  | 0xE2 => withABC r (.attm h)
  | 0xE3 => withA r (.evict h)
  | 0xE4 => withDAB r (.platr h)
  | 0xE6 => withDA r (.rgath h)
  | 0xE7 => withDA r (.redrx h)
  | 0xE8 => if r.sub = 0 then withABC r (.nmcall h) else withABC r (.nmcallA h)
  | 0xE9 => withAB r (.nmret h)
  | 0xEA => withAC r (.clsend h)
  | 0xEB => withAC r (.clred h)
  | 0xEC => if r.sub = 2 then withB r (.clarmOff h) else withAB r (.clarm h (r.sub == 1))
  | 0xED =>
    if r.sub = 0 then withA r (.sbset h (f4 r.d))
    else if r.sub = 1 then withA r (.sbsetClr h (f4 r.d))
    else withD r fun d => .sbsetRd h d (f4 r.a)
  | 0xEE => withAC r (.coll h (collOf (r.sub % 8)) (r.sub / 8 == 1) (f8 r.d))
  | 0xEF => withDABC r (.close h)
  | 0xF0 => withA r (.bopen h n)
  | 0xF1 => withABC r (.stb h n (rMc r))
  | 0xF2 => some (.bcommit h n)
  | 0xF3 => some (.babort h n)
  | 0xF4 => withD r (.vsnap h)
  | 0xF5 => withDAB r fun d a b => .ldv h (rMc r) (r.sub == 1) d a b (f8 r.c)
  | 0xF6 => withABC r (.bfetch h)
  | 0xF8 => withD r fun d => .srd h (halfOf r.sub) d (BitVec.ofNat 8 r.c)
  | 0xF9 => withA r (.swr h (halfOf r.sub) (BitVec.ofNat 8 r.c))
  | 0xFA => withA r (.swrp h (BitVec.ofNat 8 r.c))
  | 0xFB => withA r (.ovld h)
  | 0xFC => some (.tret h (r.sub == 1))
  | 0xFD => some (.halt h)
  | _ => none

/-- The instruction of a full form's fields, before its checks. -/
def ofRaw (r : Raw) : Option Instr :=
  if r.major < 0x40 then ofRawInt r
  else if r.major < 0x70 then ofRawFloat r
  else if r.major < 0x80 then ofRawCross r
  else if r.major < 0xA0 then ofRawMem r
  else if r.major < 0xC0 then ofRawControl r
  else if r.major < 0xE0 then ofRawEngine r
  else ofRawSystem r

/-- A full form: the fields name an instruction, it is well formed, and its own fields are these. -/
def decodeRaw (r : Raw) : Except DecodeErr Instr :=
  match ofRaw r with
  | none => .error .illop
  | some i => if i.wf && toRaw i == some r then .ok i else .error .illop

/-- The fields of a compact word beside cop and sub (R70). -/
def cRawOf (w : W32) : CRaw :=
  let n := w.toNat
  ⟨Fin.ofNat 8 (n / 2 ^ 27), n / 2 ^ 26 % 2 == 1, BitVec.ofNat 8 (n / 2 ^ 18), BitVec.ofNat 8 (n / 2 ^ 10),
    BitVec.ofNat 2 (n / 2 ^ 8)⟩

def copBits (w : W32) : Nat := w.toNat / 4 % 64
def subBits (w : W32) : BitVec 2 := BitVec.ofNat 2 (w.toNat / 2 ^ 30)

/-- A compact word (R70, R72). -/
def decodeC (w : W32) : Except DecodeErr Instr :=
  match compactOf (copBits w) (subBits w) (cRawOf w) with
  | none => .error .illop
  | some i => if i.wf then .ok i else .error .illop

def bodyOf (w : W32) : PBody := ⟨Fin.ofNat 64 (copBits w), subBits w, cRawOf w⟩

/-- A pair word (R73, R74): ILLOP of a body comes before PAIRV (R80). -/
def decodePair (w0 w1 : W32) : Except DecodeErr Instr :=
  let a := bodyOf w0
  let b := bodyOf w1
  if !(legalBody a && legalBody b) then .error .illop
  else if w1.toNat % 4 ≠ 0 ∨ !pairOk a b then .error .pairv
  else .ok (.pair a b)

/-- The length in bytes that a first word's low bits give (R58). -/
def kindLen (w0 : W32) : Nat :=
  if w0.toNat % 4 = 0 then 4 else if w0.toNat % 4 = 2 then 12 else 8

/-- The instruction at the head of a list of words. -/
def decodeWords (l : List W32) : Except DecodeErr Instr :=
  match l with
  | [] => .error .truncated
  | w0 :: t =>
    if w0.toNat % 4 = 0 then decodeC w0
    else match t with
      | [] => .error .truncated
      | w1 :: t' =>
        if w0.toNat % 4 = 1 then decodeRaw (rawOf w0 w1 none)
        else if w0.toNat % 4 = 3 then decodePair w0 w1
        else match t' with
          | [] => .error .truncated
          | w2 :: _ => decodeRaw (rawOf w0 w1 (some w2))

/-- Four bytes as a little-endian word (R4, R58). -/
def leWord (a b c d : Byte) : W32 :=
  BitVec.ofNat 32 (a.toNat + 2 ^ 8 * b.toNat + 2 ^ 16 * c.toNat + 2 ^ 24 * d.toNat)

/-- Bytes as words; bytes beyond the last whole word are dropped. -/
def wordsOf : List Byte → List W32
  | a :: b :: c :: d :: l => leWord a b c d :: wordsOf l
  | _ => []

/-- A word's bytes. -/
def wordBytes (w : W32) : List Byte :=
  [w.extractLsb' 0 8, w.extractLsb' 8 8, w.extractLsb' 16 8, w.extractLsb' 24 8]

/-- The instruction at the head of a list of bytes, and the bytes after it. -/
def decode (l : List Byte) : Except DecodeErr (Instr × List Byte) :=
  match decodeWords (wordsOf (l.take 12)) with
  | .error e => .error e
  | .ok i => .ok (i, l.drop (4 * (encode i).length))

/-- The little-endian words of a number, n of them. -/
def natWords : Nat → Nat → List W32
  | 0, _ => []
  | n + 1, w => BitVec.ofNat 32 w :: natWords n (w / 2 ^ 32)

/-- The decoder on an instruction of the opcode table by its bits, bit 0 the lowest of the first word; the bits the table
does not give are zero. -/
def decodeTableWord (_nbits w : Nat) : Option Instr :=
  match decode ((natWords 3 w).flatMap wordBytes) with
  | .ok (i, _) => some i
  | .error _ => none

end Sys2Proof
end

