-- ==== Sys2Proof/Config.lean ====
section
/-! DEFINITION. What one module fixes, and the free values: constants without a body, so that nothing can be proved of
the value and every statement holds whatever it is. -/

namespace Sys2Proof.Config

/-- FREE VALUE (log entry 2). The undefined value a source reads at an undersized distance with sbchk clear (R79).
Applied to the counter `State.freeCtr` and the lane. -/
opaque undersized : Nat → Nat → W32

/-- FREE VALUE (log entry 3). The bytes that data written under one key decrypt to under another (R496):
the keys written under, the keys read under, address, stored byte. -/
opaque decryptOther : Nat → Nat → Nat → Byte → Byte

/-- FREE VALUE (log entry 4). The part's voltage table OPVOLT (R492, R499: "Part-specific"), in mV. -/
opaque opVolt : Nat → W32

/-- FREE VALUE (log entry 5). The device's public identity key, 64 bytes (R498). -/
opaque idKey : Nat → Byte

/-- FREE VALUE (log entry 5). The 29,792-byte signature over the report's first 256 bytes (R498):
the report as a number, the byte's index. -/
opaque attSignature : Nat → Nat → Byte

/-- FREE VALUE (log entry 5). SHAKE256-256 digest byte of firmware image i (R498): image, index. -/
opaque imageDigest : Nat → Nat → Byte

/-- FREE VALUE (log entry 5). The fused minimum security version (R497, R498). -/
opaque fusedVersion : W64

/-- FREE VALUE (log entry 5). Whether the boot ROM's verification of an image passes (R497), by the bytes written
through FWLOAD, read as one number (0: the image the module was built with). -/
opaque imageVerifies : Nat → Bool

/-- FREE VALUE (log entry 6). A sample a monitor takes (R489), by source code, instance and sample counter: latencies and
levels are timing and sensors, which the spec gives no value. -/
opaque monitorSample : Nat → Nat → Nat → W32

/-- FREE VALUE (log entry 7). Sectors, 1 to 8 after the model's clamp, that a compressed unit takes (R458, R461: another
implementation's encoding may give other counts). -/
opaque czSectors : Nat → Nat

/-- FREE VALUE (log entry 8). What a register holds whose read of host memory reached its completion timeout (R260): by the
counter `State.freeCtr` and the lane. -/
opaque lostRead : Nat → Nat → W32

/-- FREE VALUE (log entry 33). The code of a record's wait kind in a context record, and its wait data word (R265 gives
neither), by the model's number of the wait and what it waits for. -/
opaque waitKind : Nat → Byte
opaque waitData : Nat → Nat → W64

/-- FREE VALUE (log entry 33). How the header of a block record marks a `CLARM` slot's arm state (R264 gives no bit): the last
byte of its 64, from armed and the clear option. -/
opaque armByte : Bool → Bool → Byte

/-- FREE VALUE (log entry 33). A word of the launch record for a `GBAR` phase state (R263 gives no layout): the phase, the
arrivals. -/
opaque gbarWord : Bool → Nat → W64

/-- FREE VALUE (log entry 39). The trappc and wid of a stop for an error in a core's state, which no instruction raised (R488),
by the counter `State.freeCtr`. -/
opaque coreErrWord : Nat → W64

/-- FREE VALUE (log entry 111). The lease time left on a line at its home on another device, which only that device knows (R235,
R447): by the counter `State.freeCtr`; the model holds it to the longest lease and skew. -/
opaque peerLease : Nat → Nat

/-- FREE VALUE (log entry 123). The reclamation age of a home on another device, a register of that device (R431, R436), by the home's
number; the model holds it to 1 to 1,000,000 µs. -/
opaque peerAge : Nat → Nat

/-- Lanes of a team at most (R10). -/
def maxLanes : Nat := 1024
/-- Teams of a block at most (R10). -/
def maxTeams : Nat := 16
/-- Records of a team (R116). -/
def maxRecords : Nat := 32
/-- The root's parent identifier (R117, R121). -/
def root : Nat := 0x3FF
/-- Split entries of a quadrant (R121). -/
def splitEntries : Nat := 512
/-- Split entries of a station (R363). -/
def stationSplitEntries : Nat := 128
/-- Registers of a core's pool (R3, R136). -/
def poolRegs : Nat := 196608
/-- Scratchpad bytes of a core (R3). -/
def coreScratch : Nat := 524288
/-- Local scratch bytes of a station (R363). -/
def stationScratch : Nat := 65536
/-- Lease-table rows of a core (R116). -/
def rows : Nat := 64
/-- Fabric drain horizon in ns (R391, R417). -/
def drainHorizon : Nat := 10000
/-- Pod delivery bound in ns (R424). -/
def dmax : Nat := 3000
/-- Skew between meridians in ns (R27). -/
def skew : Nat := 20
/-- The longest `%lease` in ns (R145). -/
def maxLease : Nat := 10000
/-- Bytes of the fast tier (R239). -/
def fastBytes : Nat := 0x8000000000
/-- Bytes of both tiers (R239). -/
def moduleBytes : Nat := 0x20000000000
/-- Base of the local scratchpad window (R13). -/
def localWindow : Nat := 0x00FFF00000000000
/-- Base of the cluster window (R13). -/
def clusterWindow : Nat := 0x00FFE00000000000

end Sys2Proof.Config
end

