-- ==== Sys2Proof/Machine/State.lean ====
section
/-! DEFINITION. The state of one module as plain data, every piece the spec names, and the state after module reset.
INVENTORY.md lists each field with its rule. Fields marked MODEL are the model's own (a free value's counter, the
order in which agents move, handles), not the spec's. -/

namespace Sys2Proof.Machine

/-- Why the machine stops outright. Every trap and stop the spec describes is a NEXT state; a fault is left for what the spec
gives no machine to do. -/
inductive Fault where
  /-- Raised by every team instruction's meaning when `State.cur` names no sub-team that holds lanes, so no lane executes the
  instruction (R118). Safe: hardware never issues such an instruction. -/
  | noIssuer
  deriving DecidableEq, Repr

/-- Why a meaning is not given. -/
inductive Refusal where
  /-- Raised by a dispatch arm that has no meaning yet; safe. -/
  | notModelled (mnemonic : String)
  deriving DecidableEq, Repr

/-- A sub-team: block handle, team and record number. -/
structure Issuer where
  bid : Nat
  team : Nat
  sub : Nat
  deriving DecidableEq, Repr

/-- Why a record does not issue (R127). A record whose condition has come true issues its instruction afresh. -/
inductive Wait where
  | ready
  /-- a source or destination register's ready bit is clear, or a lock bit set (R76, R135) -/
  | register
  /-- an engine limit, a counter at 255, an engine another block holds (R18, R273, R310, R314, R345, R375, R398, R407) -/
  | limit
  | waitc (cls n : Nat)
  /-- a release waits for acknowledgements and GWCT at a scope (R235) -/
  | release (scope : Scope)
  /-- arrived at BAR, waiting for the phase, and where it goes on (R223) -/
  | bar (id : Nat) (next : W64)
  /-- to arrive again where the team has already arrived (R224) -/
  | barAgain (id : Nat)
  | gbar (id : Nat) (next : W64)
  | gbarAgain (id : Nat)
  /-- an `ABAR` WAIT on an object's epoch, and where it goes on (R25) -/
  | abar (addr : W64) (epoch : W32) (next : W64)
  /-- of n registers, and where it goes on -/
  | claim (n : Nat) (implicit : Bool) (next : W64)
  /-- RELEASE or RET waits for ready and lock bits (R156, R135) -/
  | releaseRegs (lo hi : Nat)
  /-- waits at a buffer (R296, R298): the scalar register it will write, with the tag's after it, and where it goes on -/
  | cbacq (addr : W64) (dst : Nat) (tag : Bool) (next : W64)
  | cbres (addr : W64) (dst : Nat) (next : W64)
  /-- at a `JOIN`, for the other children of split entry e (R124) -/
  | join (e : Nat)
  | pause (until_ : Nat)
  | yield (until_ : Nat) (others : List Issuer)
  /-- a recoverable trap waits for another sub-team's handler (R144) -/
  | handler
  /-- a split that finds no free record and a held group (R120, third case) -/
  | splitFull
  /-- both groups of a record stand at different JOINs (R125) -/
  | heldJoin
  /-- a tag in quarantine (R391, R422) -/
  | quarantine (id : Nat)
  /-- STB at a full home, LDV behind a prepared version (R423, R430) -/
  | version (line : Nat)
  deriving DecidableEq, Repr

/-- A fixed-latency result on its way: register, pass word, encoded time at which it is available (R77). -/
structure Pend where
  key : RegKey
  word : Nat
  at_ : Nat
  deriving DecidableEq, Repr

/-- The held group of a record (R116, R120): lanes and the address they re-execute. -/
structure Held where
  lanes : LaneMask
  pc : W64
  /-- they stand at a `JOIN` (R125) -/
  atJoin : Bool
  deriving DecidableEq, Repr

/-- A sub-team record (R116). -/
structure Record where
  num : Nat
  pc : W64
  k0 : LaneMask
  parent : Nat
  alloc : Nat
  wait : Wait
  held : Option Held
  /-- marked yielded (R129) -/
  yielded : Bool
  /-- ready 1,024 cycles without issue (R128) -/
  aged : Bool
  /-- meridian since which it has been ready (R128) -/
  readySince : Nat
  /-- MODEL: the issue counter at its last issue, for the recency rule of R128 -/
  issuedAt : Nat
  /-- encoded time of its next instruction (R77) -/
  etime : Nat
  pend : List Pend
  deriving DecidableEq, Repr

/-- A split-table entry (R121). -/
structure Split where
  entry : Nat
  parent : Nat
  arms : Nat
  deriving DecidableEq, Repr

/-- A bundle slot (R416). -/
structure Slot where
  open_ : Bool
  cmt : Bool
  lines : Nat
  homes : Nat
  gen : Nat
  id : Nat
  deriving DecidableEq, Repr

/-- An async operation of a team, in issue order (R17, R18): class, handle, whether its engine has finished and the ERROR
record's status it retires with. -/
structure AsyncOp where
  id : Nat
  cls : Nat
  fin : Bool
  err : Option Nat
  deriving DecidableEq, Repr

/-- The checkpoint of run-ahead (R251). -/
structure Ckpt where
  records : List Record
  splits : List Split
  k : SMap LaneMask
  s : SMap W32
  v : SMap W32
  x : SMap W32
  /-- `%vs`, which `VSNAP` writes (R255) -/
  vs : W64
  deriving DecidableEq, Repr

/-- Probe mode (R251 to R254). -/
structure Probe where
  ckpt : Ckpt
  sub : Nat
  missPc : W64
  missVa : W64
  missWid : W64
  since : Nat
  issued : Nat
  /-- marked vector and index lanes, scalar and mask registers (R252), by the keys of the maps they mark -/
  pv : List Nat
  px : List Nat
  ps : List Nat
  pk : List Nat
  pages : List (Nat × Nat)
  deriving DecidableEq, Repr

/-- A team (R116). -/
structure Team where
  idx : Nat
  /-- lease-table row 16q + i of its core, or the station's slot -/
  row : Nat
  /-- lanes, e0 -/
  lanes : Nat
  /-- linear work-identifier bits above field 0 and field 1 are the block's; this is the whole identifier of lane 0 -/
  wid0 : W64
  records : List Record
  splits : List Split
  /-- k1 to k7 -/
  k : SMap LaneMask
  s : SMap W32
  /-- lane l of register r at key 1024 r + l -/
  v : SMap W32
  /-- lane l of x_n at key 1024 n + l -/
  x : SMap W32
  /-- the six async counters (R17) -/
  cnt : SMap Nat
  ops : List AsyncOp
  mode : W32
  prio : W32
  trapc : W32
  trapa : W64
  trappc : W64
  trapst : W32
  vs : W64
  bstat : W64
  gmiss : W32
  /-- registers drawn from the pool, H (R136) -/
  drawn : Nat
  /-- registers whose ready bit is clear, with the lanes whose values are on their way (R76, R156) -/
  waits : List (RegKey × LaneMask)
  /-- of those, the registers that reads of host memory will fill, with their lanes (R260) -/
  hostWait : List (RegKey × LaneMask)
  /-- locked vector registers, with the matrix instruction that holds the lock and the lanes it reads (R135, R316) -/
  lockBits : List (Nat × Nat × LaneMask)
  slots : List Slot
  /-- lines of stores not yet acknowledged by their home (R235) -/
  unacked : List Nat
  /-- the largest GWCT returned (R235) -/
  gwct : Nat
  /-- last host address stored to, for the flushing read (R469) -/
  lastHost : Nat
  /-- records that issued BAR id since the team's last arrival there, with the count named: (id, record, count) (R224) -/
  barIssued : List (Nat × Nat × Option Nat)
  gbarIssued : List (Nat × Nat)
  /-- MODEL: the lanes in the trap handler, which say whose recoverable trap stops the launch (R144) -/
  hlanes : LaneMask
  probe : Option Probe
  /-- issues nothing until its unit is captured (R258, R260) -/
  halted : Bool
  /-- has left its row (R22) -/
  left : Bool
  deriving DecidableEq, Repr

/-- A barrier of BAR (R224, R264). -/
structure BarState where
  arrived : List Nat
  /-- expected count; none for every unexited team -/
  expect : Option Nat
  phase : Bool
  deriving DecidableEq, Repr

/-- A GBAR phase (R226): arrived (block index, team). -/
structure GBarState where
  arrived : List (Nat × Nat)
  phase : Bool
  deriving DecidableEq, Repr

/-- Where a block runs. -/
inductive Site where
  | core (n : Nat)
  | station (stack n : Nat)
  deriving DecidableEq, Repr

/-- Copy engine operations (R305). -/
inductive CopyKind where
  | tcopy | tgath | tscat | tmcst | tfill
  deriving DecidableEq, Repr

/-- States of a copy operation (R305). -/
inductive CopyPhase where
  | notStarted | waitSlot | running | finished
  deriving DecidableEq, Repr

/-- A copy operation (R273, R305). -/
structure CopyOp where
  id : Nat
  team : Nat
  kind : CopyKind
  phase : CopyPhase
  /-- elements or rows done -/
  done : Nat
  /-- MODEL: bytes done of the row in progress -/
  part : Nat
  misses : Nat
  /-- the reserved slot's offset -/
  slot : Option Nat
  /-- rank mask of a multicast -/
  ranks : W64
  /-- barrier object's generic address (own offset in each receiver for a multicast) -/
  bar : Option W64
  /-- the descriptor as read at issue: 128, 64 or 12 bytes, byte 0 lowest -/
  desc : Memory
  /-- wrote poison (R304) -/
  poisoned : Bool
  pc : W64
  /-- memory lines written and not yet acknowledged -/
  unacked : List Nat
  deriving DecidableEq, Repr

/-- A waiter at a circular buffer of this scratchpad, in arrival order (R293, R298). -/
structure CbWaiter where
  off : Nat
  /-- an acquire (CBACQ, `mmqa.cb`) or a reservation -/
  acq : Bool
  /-- the sub-team that waits, or with `op` a copy operation of block `bid` -/
  who : Issuer
  op : Option Nat
  deriving DecidableEq, Repr

/-- One copy of a plane (R308): tag 0 empty, else the LDW code; recorded offset; image bytes. -/
structure Plane where
  tag : Nat
  src : Nat
  img : Memory
  deriving DecidableEq, Repr

/-- A tile's status (R309). -/
structure TileStat where
  valid : Bool
  dirty : Bool
  track : Nat
  addr : W64
  /-- bytes between rows of the tracked image (R327) -/
  pitch : Nat
  nb : Nat
  deriving DecidableEq, Repr

/-- A matrix instruction in entry order (R312, R334). -/
structure MatOp where
  id : Nat
  team : Nat
  ins : Instr
  pc : W64
  /-- scalar operand values read at issue: fields a, b, c and the high word of the pair -/
  va : W64
  vb : W64
  vc : W64
  /-- vector source words read when it executes: (lane, word) at key 64 n + j, captured at issue under the lock -/
  vec : SMap W32
  /-- lanes of k0 ∩ execution mask, for TMV -/
  mask : LaneMask
  /-- its own block is in the array, or was (R324) -/
  started : Bool
  fin : Bool
  /-- the context's overflow policies, read at issue (R50) -/
  ov : W32
  deriving DecidableEq, Repr

/-- An acquired slot of a buffer-fed product (R324, R334), in acquisition order. -/
structure AcqSlot where
  /-- the instruction that acquired it, by its id, team and pc, with the overflow policies that it read -/
  op : Nat
  team : Nat
  pc : W64
  ov : W32
  /-- the slot's tag word: k, plane, bits that must be zero -/
  tag : Nat
  tile : Nat
  q : QFmt
  /-- not yet in the window -/
  stalled : Bool
  applied : Bool
  sw : Nat
  slotOff : Nat
  bufOff : Nat
  deriving DecidableEq, Repr

def AcqSlot.k (a : AcqSlot) : Nat := a.tag % 65536
def AcqSlot.plane (a : AcqSlot) : Nat := a.tag / 65536 % 8

/-- The matrix engine as one block holds it (R308 to R314). Tile words [m][n] at key 8192 t + 32 m + n. -/
structure Matrix where
  owned : Bool
  active : SMap Plane
  shadow : SMap Plane
  tiles : SMap W32
  /-- the engine's tile states -/
  stat : SMap TileStat
  /-- the issue-side copy (R313): plane tags of both copies and tile states -/
  iactive : SMap Nat
  ishadow : SMap Nat
  istat : SMap TileStat
  queue : List MatOp
  acq : List AcqSlot
  deriving DecidableEq, Repr

/-- An attention instruction issued and not finished (R345, R361). -/
structure AttOp where
  id : Nat
  team : Nat
  ins : Instr
  pc : W64
  /-- operand values read at issue: the descriptor's offset, first page, pages -/
  off : Nat
  first : Nat
  count : Nat
  desc : Memory
  entered : Bool
  /-- the view taken at entry: npages and the page addresses of the range -/
  npages : Nat
  pages : List W64
  groups : Nat
  /-- memory lines its mass additions wrote -/
  lines : List Nat
  deriving DecidableEq, Repr

/-- CLSEND and CLRED in flight (R397). -/
structure SendOp where
  id : Nat
  team : Nat
  red : Bool
  desc : Memory
  /-- fired by an armed slot: counts in no class (R400) -/
  fired : Bool
  poisoned : Bool
  /-- parts without an outcome yet: part, port (31 without one); a memory destination has one part to each device it lies on -/
  parts : List (Nat × Nat)
  /-- no part was rejected or lost -/
  ok : Bool
  pc : W64
  bar : Option Nat
  /-- memory lines of this module it wrote -/
  lines : List Nat
  /-- the largest GWCT that other devices' homes returned (R20) -/
  gwct : Nat
  deriving DecidableEq, Repr

/-- The outcome of an operation: none while a part has none. -/
def SendOp.done (o : SendOp) : Option Bool := if o.parts.isEmpty then some o.ok else none

/-- An armed triggered-operation slot (R399): slot number, descriptor, address of the CLARM, clear option. -/
structure Arm where
  n : Nat
  desc : Memory
  pc : W64
  clr : Bool
  armed : Bool
  deriving DecidableEq, Repr

/-- A chunk a rank has received for a collective: chunk index, sending rank, header, elements; none where it failed. -/
structure CNode where
  chunk : Nat
  rank : Nat
  /-- the port it came in by -/
  port : Nat
  hdr : BitVec 256
  els : Option (List Nat)
  deriving DecidableEq, Repr

/-- A whole-group collective of a block (R407 to R412). -/
structure CollOpS where
  id : Nat
  op : CollOp
  arrival : Bool
  tile : Nat
  goff : Nat
  bar : Option Nat
  /-- (team, op handle) of each issue; whether two issues differed; the last issue's address -/
  issues : List (Nat × Nat)
  differs : Bool
  pc : W64
  /-- group (context, id) -/
  group : Nat × Nat
  started : Bool
  /-- the group descriptor as read at the start -/
  desc : Memory
  /-- rows supplied, at key 32 m + n -/
  rows_ : SMap W32
  /-- start messages held: rank, values (R408) -/
  starts : List (Nat × List Nat)
  /-- partial values received, in order of arrival -/
  nodes : List CNode
  /-- chunks whose partial or result this rank has sent on -/
  sent : List Nat
  /-- the accumulator's chunks so far: chunk, ranks folded in, header, elements (R410) -/
  accs : List CNode
  folded : List (Nat × Nat)
  /-- chunks with a final value here, or failed; no value where the rank's rows stay -/
  final : List (Nat × Option (List Nat))
  failed : List Nat
  mismatch : Bool
  degraded : Bool
  deriving DecidableEq, Repr

/-- A BFETCH in flight (R434). -/
structure FetchOp where
  id : Nat
  team : Nat
  out : Nat
  addr : W64
  limit : Nat
  vs : W64
  pc : W64
  deriving DecidableEq, Repr

/-- A block with its scratchpad (R116, R263, R264), on a core or a station. -/
structure Block where
  bid : Nat
  q : Nat
  lseq : Nat
  /-- block linear index (R109); for a station block the call's handle -/
  idx : Nat
  site : Site
  teams : List Team
  scratch : Memory
  scratchLen : Nat
  /-- poisoned 8-byte units by index (R272) -/
  spoison : List Nat
  /-- offsets of the barrier objects that INIT has written, which R25's test follows (R26; log entry 15) -/
  objs : List Nat
  bars : SMap BarState
  sb : SMap W64
  /-- MODEL: scoreboards updated and not yet tested (R400); empty between steps -/
  sbTest : List Nat
  arms : List Arm
  copies : List CopyOp
  cbq : List CbWaiter
  mat : Matrix
  atts : List AttOp
  sends : List SendOp
  colls : List CollOpS
  /-- collectives that have completed, until they retire (R407): op handle, group (context, id) -/
  collsDone : List (Nat × Nat × Nat)
  /-- start messages that no collective waits for any more: context, id, rank -/
  startsLate : List (Nat × Nat × Nat)
  fetches : List FetchOp
  /-- NMRET's return data (R380) -/
  ret : Option (List Byte)
  /-- every team has left but the cluster group still runs: the scratchpad stays (R271) -/
  gone : Bool
  deriving DecidableEq, Repr

/-- A launch header (R103). -/
structure LaunchHdr where
  entry : W64
  w : List Nat
  budget : Nat
  ceiling : Nat
  e : List Nat
  scratch : Nat
  chain : Nat
  prio : Nat
  oppt : Nat
  pre : Bool
  cores : Bool
  trap : Bool
  handler : W64
  wslist : W64
  wscount : Nat
  lease : Nat
  args : List W32
  deriving DecidableEq, Repr

/-- A range of a working-set list (R104): base, pages, rights, hint. -/
structure WsEntry where
  base : Nat
  pages : Nat
  rights : Nat
  hint : Nat
  deriving DecidableEq, Repr

/-- Where a launch stands (R7, R113). -/
inductive LState where
  | staging | eligible | running | stopping | stopped | held | complete
  deriving DecidableEq, Repr

/-- A page of a launch's batch, with the meridian, core and row of its recording (R254). -/
structure BatchPage where
  page : W64
  at_ : Nat
  core : Nat
  row : Nat
  deriving DecidableEq, Repr

/-- What a stop or a save reports (R112, R258). -/
structure Stop where
  cause : Nat
  pc : W64
  trapa : W64
  wid : W64
  at_ : Nat
  core : Nat
  row : Nat
  /-- save reason: 0 for a fault, 0x3F pre-empted -/
  reason : Nat
  hold : Bool
  /-- a maintenance save, which posts no record (R486) -/
  silent : Bool
  pages : List BatchPage
  deriving DecidableEq, Repr

/-- A launch (R7, R103, R113). -/
structure Launch where
  /-- MODEL: handle of its packet; 0 before the packet starts -/
  pid : Nat
  q : Nat
  lseq : Nat
  ctx : Nat
  off : Nat
  tag : W32
  ovl : Bool
  irq : Bool
  sig : Option (W64 × W64)
  hdr : LaunchHdr
  state : LState
  priv : Bool
  /-- effective priority (R103) and milliseconds waited unplaced (R110) -/
  prio : Nat
  waited : Nat
  waitSince : Nat
  eligAt : Nat
  /-- its working-set list as read (R104) -/
  ws : List WsEntry
  /-- holds taken on the list's pages, in order (R105) -/
  held : Nat
  staged : Bool
  /-- memory as it stood at eligibility, from which its code is fetched (R89) -/
  code : Memory
  lease : Nat
  /-- linear index of the next block to place -/
  nextIdx : Nat
  gbars : SMap GBarState
  stop : Option Stop
  /-- block handles to halt and capture (R259) -/
  halting : List Nat
  /-- physical address of its launch record, and of each block record: (linear index, address) (R262) -/
  recBase : Option Nat
  blkRecs : List (Nat × W64)
  status : Nat
  deriving DecidableEq, Repr

/-- A saved block: its structured state, whose image in memory is the context record (R262 to R269). -/
structure Saved where
  blk : Block
  reason : Nat
  hold : Bool
  deriving DecidableEq, Repr

/-- A packet taken from a ring and not complete (R95, R100). -/
structure Packet where
  /-- MODEL: handle -/
  id : Nat
  q : Nat
  off : Nat
  op : Nat
  tag : W32
  irq : Bool
  sig : Option (W64 × W64)
  lseq : Nat
  /-- the body's units as read at its start (R95), byte 0 lowest -/
  body : List Nat
  /-- pages of its ranges that a `PIN` has held (R101) -/
  prog : Nat
  /-- done but waiting to post its record (R112) -/
  done : Bool
  status : Nat
  deriving DecidableEq, Repr

/-- A completion record that waits for room (R112): queue, 64 bytes as a number with byte 0 lowest, and the packet that
completes with it. -/
structure Post where
  q : Nat
  bytes : BitVec 512
  pid : Option Nat
  deriving DecidableEq, Repr

/-- Where a request for a host page stands: an ATS translation request, waiting for a page-request slot after it found the page
absent, in a slot (R106). -/
inductive PrPhase where
  | ats | waiting | pri
  deriving DecidableEq, Repr

/-- A request for a host page (R106 to R108), by its slot; one that has no page-request slot has a handle from 256 on. -/
structure PageReq where
  slot : Nat
  ctx : Nat
  page : Nat
  /-- asked for by the launch `key` of the queue, or by its `PIN` packet of handle `key` -/
  launch : Bool
  q : Nat
  key : Nat
  since : Nat
  phase : PrPhase
  killed : Bool
  deriving DecidableEq, Repr

/-- A claim in a core's queue (R137). -/
structure ClaimReq where
  core : Nat
  who : Issuer
  n : Nat
  need : Nat
  /-- where the sub-team stands when granted -/
  next : W64
  since : Nat
  deriving DecidableEq, Repr

/-- Rows, scratchpad and registers a core holds for a waiting block, by its linear index (R110). -/
structure Reserve where
  core : Nat
  q : Nat
  lseq : Nat
  idx : Nat
  rows : List Nat
  /-- bytes and registers reserved of those that have become free -/
  scratch : Nat
  regs : Nat
  /-- MODEL: bytes and registers free on the core when last seen -/
  seenS : Nat
  seenR : Nat
  deriving DecidableEq, Repr

/-- A leaf as it maps an address (R241): the entry, its page's virtual base and length. -/
structure Tr where
  leaf : W64
  vbase : Nat
  size : Nat
  deriving DecidableEq, Repr

/-- A level-one copy of a physical line (R247): core, virtual tag and context, the translation whose rights its tag holds, dirty,
placement. Its bytes are those of the die's level-two line. -/
structure L1Copy where
  core : Nat
  line : Nat
  vline : Nat
  ctx : Nat
  tr : Tr
  dirty : Bool
  cache : Cache
  deriving DecidableEq, Repr

/-- A line in a die's level-two slices (R441): a home line, or a leased copy with its stamp (R446, R448). -/
structure CLine where
  die : Nat
  line : Nat
  data : LineData
  dirty : Bool
  poison : Bool
  stamp : Option Nat
  /-- the interleave code of the page it was filled through, by which the physical address follows from its place (R439) -/
  ilv : Nat
  deriving DecidableEq, Repr

/-- A directory entry below or at a parcel (R442, R443): first line, lines, state, sharers and owner. -/
inductive DirState where
  | i | s | e | o | m
  deriving DecidableEq, Repr

/-- A directory entry (R442). -/
structure DirEnt where
  die : Nat
  slice : Nat
  base : Nat
  size : Nat
  state : DirState
  sharers : List Nat
  owner : Option Nat
  changed : Nat
  deriving DecidableEq, Repr

/-- A grant-table entry (R447). -/
structure Grant where
  line : Nat
  expiry : Nat
  remote : Bool
  deriving DecidableEq, Repr

/-- A line of a memory-side cache (R452); the list holds them most recently used first. -/
structure MscLine where
  stack : Nat
  line : Nat
  dirty : Bool
  ctx : Nat
  /-- the DRAM beneath it holds the poison pattern (R462) -/
  under : Bool
  deriving DecidableEq, Repr

/-- A row-cache entry (R383). -/
structure RowEnt where
  stack : Nat
  ctx : Nat
  table : Nat
  rowb : Nat
  row : Nat
  /-- the set it lies in -/
  set_ : Nat
  freq : Nat
  deriving DecidableEq, Repr

/-- A hot-list candidate (R456). -/
structure Cand where
  stack : Nat
  p : Nat
  est : Nat
  deriving DecidableEq, Repr

/-- A cluster TLB entry (R247): leaf and the page it maps. -/
structure TlbEnt where
  cluster : Nat
  ctx : Nat
  vbase : Nat
  pages : Nat
  leaf : W64
  deriving DecidableEq, Repr

/-- A near-memory call (R376, R378). -/
inductive CallPhase where
  | issued | queued | running | ended | returned
  deriving DecidableEq, Repr

/-- A near-memory call (R371 to R381). -/
structure Call where
  id : Nat
  /-- the calling block by launch and index, its handle when resident, the team and the class-3 operation -/
  q : Nat
  lseq : Nat
  idx : Nat
  team : Nat
  op : Nat
  ctx : Nat
  pc : W64
  stack : Nat
  prio : Nat
  msg : Memory
  bar : Option Nat
  phase : CallPhase
  since : Nat
  station : Nat
  rstat : Nat
  cause : Nat
  data : List Byte
  fteam : Nat
  flane : Nat
  fpc : W64
  trapa : W64
  /-- the call counts in its dispatcher (R378) -/
  counted : Bool
  expiry : Nat
  deriving DecidableEq, Repr

/-- A queued reduction packet (R384, R385): arrival port, 32-byte header, destination, count, payload. -/
structure RedPkt where
  stack : Nat
  port : Nat
  hdr : BitVec 256
  dst : Nat
  count : Nat
  data : List Byte
  poisoned : Bool
  deriving DecidableEq, Repr

/-- An eviction (R355 to R357). -/
inductive EvPhase where
  | waiting | claimed
  deriving DecidableEq, Repr

/-- An eviction request in the eviction engine. -/
structure Evict where
  id : Nat
  q : Nat
  lseq : Nat
  idx : Nat
  team : Nat
  op : Nat
  ctx : Nat
  pc : W64
  req : BitVec 128
  phase : EvPhase
  /-- pages it holds pinned until it ends, by virtual address (R355) -/
  pages : List Nat
  deriving DecidableEq, Repr

/-- A registration in the group table (R390). -/
structure GroupReg where
  ctx : Nat
  id : Nat
  gen : Nat
  rank : Nat
  q : Nat
  lseq : Nat
  idx : Nat
  /-- its mismatch log and the entries that holds (R405) -/
  mlog : Nat
  mcap : Nat
  deriving DecidableEq, Repr

/-- A tag out of use (R391, R417): context, id, end of the quarantine. -/
structure Quar where
  ctx : Nat
  id : Nat
  bundle : Bool
  until_ : Nat
  deriving DecidableEq, Repr

/-- A chunk on the wire (R401): destination device and context, 32-byte header, receiver fields of the sender's descriptor,
payload. -/
structure Chunk where
  dev : Nat
  ctx : Nat
  hdr : BitVec 256
  /-- destination offset in the peer's scratchpad -/
  dst : Nat
  /-- or places in memory: (place, key slot, interleave code, bytes) in order -/
  places : List (Nat × Nat × Nat × Nat)
  mem : Bool
  red : Bool
  /-- a collective's chunk: sender's rank -/
  coll : Option Nat
  rbit : Option Nat
  pbar : Option Nat
  data : List Byte
  /-- the sending operation: queue, launch, block index, handle -/
  src : List Nat
  deriving DecidableEq, Repr

/-- A message between devices, or between ranks of one device (R471). -/
inductive Msg where
  | chunk (c : Chunk)
  /-- a start message (R408): context, id, gen, destination rank, sender rank, compared values -/
  | start (ctx id gen dst rank : Nat) (vals : List Nat)
  /-- a reduction packet (R384): 64-byte prefix, payload; the sending device and operation -/
  | red (prefix_ : BitVec 512) (data : List Byte) (dev : Nat) (src : List Nat)
  /-- a pod request (R471): address, kind 0 read, 1 write, 2 atomic, 3 other; the requester's context and key slot; bytes, for a
  compare-and-swap the operand's and then the compare value's, for a read its `%lease` -/
  | pod (addr : W64) (kind : Nat) (op : AtomOp) (ctx key : Nat) (data : List Byte)
  /-- a bundle message: device, context, id, gen, home; kind 0 prepare, 1 answer, 2 full, 3 commit, 4 abort, 5 acknowledgement, 6 an
  `STB` accepted; a 48-bit time, lease expiry; a prepare carries the manifest -/
  | bundle (dev ctx id gen home kind time expiry : Nat) (man : List (W64 × Nat))
  /-- an `STB` at its home: device, context, id, gen, place of the line, key slot, its virtual address, bytes under a mask -/
  | stb (dev ctx id gen line key : Nat) (va : W64) (mask : BitVec 128) (data : LineData)
  /-- one write of a message cut under R472: the message's key, whether it is the last, the message -/
  | piece (key : Nat) (last : Bool) (whole : Msg)
  /-- a meridian exchange (R478): sender's device id, its ref, whether it stands on a chain to the reference -/
  | timing (dev ref : Nat) (chained : Bool)
  /-- the completion of a CLSEND, CLRED at a peer: sending operation, applied, GWCT of a memory write -/
  | ack (src : List Nat) (ok : Bool) (gwct : Nat)
  deriving DecidableEq, Repr

/-- A message that has arrived on a port (31 for this device). -/
structure NetIn where
  port : Nat
  msg : Msg
  deriving DecidableEq, Repr

/-- What the module sends to the outside. -/
inductive Out where
  | msix (q : Nat)
  | mctp (stat : W32) (entry : BitVec 512)
  | net (dev port : Nat) (msg : Msg)
  | ats (pasid page : Nat)
  | pri (pasid page : Nat)
  | atsDone (pasid va pages : Nat)
  /-- the zero-length flushing read of a release at system scope: context's PASID, host address (R469) -/
  | flush (pasid addr : Nat)
  | lost (dev : Nat)
  /-- the answer to a peer's pod request (R29, R235): port, address, kind, bytes read or the atomic's old value, poison, GWCT or the
  lease's expiry -/
  | answer (port : Nat) (addr : W64) (kind : Nat) (data : List Byte) (poison : Bool) (gwct : Nat)
  deriving DecidableEq, Repr

/-- A message being reassembled (R472). -/
structure Reasm where
  key : Nat
  port : Nat
  since : Nat
  deriving DecidableEq, Repr

/-- A version state of a line at its home (R419). -/
inductive PendState where
  | pending | prepared (tp : Nat) | committed (tc : Nat)
  deriving DecidableEq, Repr

/-- A pending, prepared or committed version (R419, R423). -/
structure PendLine where
  /-- the bundle; 0 for one of another device at another device's home -/
  bun : Nat
  line : Nat
  /-- context and key slot of the page it was written through -/
  ctx : Nat
  key : Nat
  va : W64
  mask : BitVec 128
  data : LineData
  state : PendState
  deriving DecidableEq, Repr

/-- A version-table entry (R419): current's Tc and manifest, and the previous version. -/
structure Version where
  line : Nat
  curTc : Nat
  man : Nat
  /-- previous version: its bytes, poison, commit time, manifest -/
  prev : Option (LineData × Bool × Nat × Nat)
  deriving DecidableEq, Repr

/-- A manifest (R419): its bundle's tag and lines by virtual and physical address. -/
structure Manifest where
  bun : Nat
  id : Nat
  gen : Nat
  tc : Nat
  lines : List (W64 × Nat)
  deriving DecidableEq, Repr

/-- Where a bundle stands (R424). -/
inductive BunPhase where
  | open_ | preparing | chosen | aborting (full : Bool) | retired
  deriving DecidableEq, Repr

/-- A bundle (R417, R424): the writing team, tag, prepared and answered homes, commit time. -/
structure Bundle where
  id : Nat
  /-- the writer's device; another's bundle has no queue, team or slot here -/
  dev : Nat
  q : Nat
  lseq : Nat
  idx : Nat
  team : Nat
  slot : Nat
  ctx : Nat
  tag : Nat
  gen : Nat
  op : Nat
  /-- meridian of its `BCOMMIT` or `BABORT` (R489) -/
  since : Nat
  phase : BunPhase
  /-- homes: device · 8 + stack, ascending -/
  homes : List Nat
  prepared : List Nat
  acked : List Nat
  /-- homes on other devices that owe an answer to the last message, with the port it took -/
  asked : List (Nat × Nat)
  /-- `STB`s that homes on other devices have not accepted yet (R424): home, port -/
  stbs : List (Nat × Nat)
  /-- a message of it was lost (R474, R475) -/
  lost : Bool
  newest : Nat
  expiry : Nat
  remote : Bool
  tc : Nat
  /-- the manifest that another device's bundle brought (R424) -/
  man : List (W64 × Nat)
  deriving DecidableEq, Repr

/-- A key slot (R496): the two XTS keys it holds. -/
structure KeySlot where
  slot : Nat
  key : BitVec 512
  deriving DecidableEq, Repr

/-- A compute die's operating point (R111, R493). -/
structure Die where
  point : Nat
  cap : Nat
  hot : Bool
  deriving DecidableEq, Repr

/-- A targeted test in progress (R480, R483). -/
structure Test where
  rep : ErrorReport
  tdet : Nat
  count : Nat
  deriving DecidableEq, Repr

/-- A monitor's interval in progress (R490). -/
structure Mon where
  start : Nat
  /-- MODEL: samples of sensors and latencies taken in earlier intervals, which free values are applied to -/
  samples : Nat
  /-- samples of sources that the module's own state gives: how many, the least, the greatest, and the bins -/
  count : Nat
  least : Nat
  most : Nat
  bins : SMap Nat
  deriving DecidableEq, Repr

/-- An interval that starts at a meridian, with no sample yet. -/
def Mon.fresh (start samples : Nat) : Mon := ⟨start, samples, 0, 2 ^ 32 - 1, 0, []⟩

/-- One move of the machine's agents, as plain data (MODEL): which agent acts next where the spec gives no order. -/
inductive Choice where
  /-- the sub-team issues its next instruction -/
  | issue (who : Issuer)
  /-- the event happens -/
  | event (i : Instr)
  /-- time passes (R27) -/
  | tick (ns : Nat)
  /-- a message or request arrives on a port -/
  | arrive (n : NetIn)
  /-- the host writes bytes of host memory, or another device memory it may write, at a physical address -/
  | hostStore (pa : Nat) (bytes : List Byte)
  /-- a line homed on another device changes there: its current version, its entry in that home's version table, and whether it holds
  a prepared or committed version of another device's bundle (R419) -/
  | peerLine (line : Nat) (data : LineData) (poison : Bool) (ver : Option Version) (pend : Option PendState)
  /-- a die evicts a line to its home (R444) -/
  | evictLine (die line : Nat)
  deriving DecidableEq, Repr

/-- The state of the module. -/
structure State where
  /-- MODEL: moves still to be made, in order; when empty the machine moves by its own default order -/
  agenda : List Choice
  /-- MODEL: the sub-team whose instruction executes -/
  cur : Issuer
  /-- MODEL: counter that free values are applied to -/
  freeCtr : Nat
  /-- MODEL: next unused handle -/
  nextId : Nat
  /-- MODEL: instructions issued, for R128's recency -/
  issueCtr : Nat
  /-- the meridian in ns (R27) -/
  time : Nat
  /-- BAR0 registers by offset / 4, those that hold their reset value unlisted (R467); see `barReset` -/
  bar0 : SMap W32
  /-- memory by physical address, at the point of visibility (R236, R239) -/
  mem : Memory
  /-- poisoned lines, PA / 128 (R462) -/
  mpoison : List Nat
  /-- the keys each line of memory was last written under, plus one; unlisted for slot 0's (R495) -/
  lineKey : SMap Nat
  /-- the level-two slices (R441), each set most recently used first -/
  lines : List CLine
  /-- the level-one caches (R247), each set most recently used first -/
  l1 : List L1Copy
  /-- directory entries (R442), most recently used first -/
  dir : List DirEnt
  grants : List Grant
  /-- sleeping slices: die · 64 + slice, meridian at entry (R450) -/
  asleep : SMap Nat
  msc : List MscLine
  /-- MSC selectors, stack · 64 + context; unlisted 511 (R453) -/
  psel : SMap Nat
  /-- the 1-in-32 counters, stack · 8 + slice -/
  lruIns : SMap Nat
  /-- row-cache ways, stack · 64 + context (R454) -/
  rowWays : SMap Nat
  rowCache : List RowEnt
  /-- row accesses since the last halving, stack · 64 + context (R383) -/
  rowAcc : SMap Nat
  /-- hot-list sketch, (stack · 4 + row) · 4096 + index (R455) -/
  sketch : SMap Nat
  cands : List Cand
  /-- by stack, the meridian at which its hot list's interval started (R456) -/
  hlSince : SMap Nat
  /-- CZUNITS and CZSECT, stack · 64 + context (R461) -/
  czUnits : SMap Nat
  czSect : SMap Nat
  tlb : List TlbEnt
  /-- overflow tables by context; unlisted 0x15 (R46) -/
  ovtab : SMap W32
  keys : List KeySlot
  /-- KEYDATA (R496) -/
  keyData : BitVec 512
  /-- holds per page, context · 2^40 + VA[55:16]: by working-set lists and by PIN (R105, R101) -/
  wsHolds : SMap Nat
  pinHolds : SMap Nat
  packets : List Packet
  /-- by queue, the largest GWCT returned for a write of its packets (R98, R101, R112) -/
  qgwct : SMap Nat
  posts : List Post
  preqs : List PageReq
  launches : List Launch
  blocks : List Block
  saved : List Saved
  reserves : List Reserve
  claims : List ClaimReq
  die0 : Die
  die1 : Die
  calls : List Call
  redq : List RedPkt
  evicts : List Evict
  groups : List GroupReg
  quars : List Quar
  inNet : List NetIn
  landing : List NetIn
  out : List Out
  bundles : List Bundle
  pendLines : List PendLine
  versions : List Version
  manifests : List Manifest
  reasm : List Reasm
  /-- unlocked meridian loop: meridian since which its bound has held (R477) -/
  lockSince : Nat
  /-- retired 64 KiB frames (R487) -/
  retired : List Nat
  /-- station-die SRAM rows spared, by stack, and fast and capacity spares stand in BAR0 (R485) -/
  staSpares : SMap Nat
  tests : List Test
  /-- maintenance log entries by index mod 256 (R481) -/
  mlog : SMap (BitVec 512)
  mons : SMap Mon
  /-- meridian since which power has been below 95 % of the limit (R493) -/
  coolSince : Option Nat
  /-- meridian of the last power measurement (R493) -/
  powerAt : Nat
  /-- firmware images written through FWLOAD, by image (R497) -/
  images : SMap Nat
  /-- the attestation report window (R498) -/
  report : Memory
  deriving DecidableEq, Repr

/-- The value each BAR0 register takes at module reset, by word offset (R92, R93, R388, R392, R436, R465, R466, R468,
R479, R491, R499): zero but for those listed here. -/
def barReset (w : Nat) : W32 :=
  let off := 4 * w
  if 0x1A0000 ≤ off ∧ off < 0x1A0200 ∧ off % 0x40 = 0x08 then 1000
  else if 0x1B0000 ≤ off ∧ off < 0x1B0800 ∧ off % 0x100 = 0x08 then 1000
  else if 0x1B0000 ≤ off ∧ off < 0x1B0800 ∧ off % 0x100 = 0x10 then 0x80000018
  else if 0x1C0000 ≤ off ∧ off < 0x1C0200 ∧ off % 0x100 = 0x00 then 1
  else if off = 0x1E0014 then 0x02000200
  else if off = 0x1E0018 ∨ off = 0x1E001C then 0x80808080
  else if off = 0x1E0020 then 0x400
  else if off = 0x1E0024 then 2800
  else if 0x1F0000 ≤ off ∧ off < 0x1F4000 ∧ off % 0x100 = 0x04 then 1000
  else if 0x1F0000 ≤ off ∧ off < 0x1F4000 ∧ off % 0x100 = 0x10 then 0xFFFFFFFF
  else if off = 0x2000000 then 100
  else 0

/-- The machine right after module reset (R46, R111, R465, R478, R500): the meridian at 0, every register at its reset value, no
context or queue enabled, nothing resident. Memory lists nothing (log entry 1). -/
def State.reset : State where
  agenda := []
  cur := ⟨0, 0, 0⟩
  freeCtr := 0
  nextId := 1
  issueCtr := 0
  time := 0
  bar0 := []
  mem := []
  mpoison := []
  lineKey := []
  lines := []
  l1 := []
  dir := []
  grants := []
  asleep := []
  msc := []
  psel := []
  lruIns := []
  rowWays := []
  rowCache := []
  rowAcc := []
  sketch := []
  cands := []
  hlSince := []
  czUnits := []
  czSect := []
  tlb := []
  ovtab := []
  keys := []
  keyData := 0
  wsHolds := []
  pinHolds := []
  packets := []
  qgwct := []
  posts := []
  preqs := []
  launches := []
  blocks := []
  saved := []
  reserves := []
  claims := []
  die0 := ⟨0, 15, false⟩
  die1 := ⟨0, 15, false⟩
  calls := []
  redq := []
  evicts := []
  groups := []
  quars := []
  inNet := []
  landing := []
  out := []
  bundles := []
  pendLines := []
  versions := []
  manifests := []
  reasm := []
  lockSince := 0
  retired := []
  staSpares := []
  tests := []
  mlog := []
  mons := []
  coolSince := none
  powerAt := 0
  images := []
  report := []

end Sys2Proof.Machine
end

