-- ==== Sys2Proof/Machine/Num.lean ====
section
/-! DEFINITION. Number formats and exact arithmetic (02_numbers.md): values are computed exactly on integers and dyadic
numbers and narrowed once. -/

namespace Sys2Proof.Machine

/-- A floating-point format of R30. -/
structure FFmt where
  frac : Nat
  expo : Nat
  bias : Nat
  /-- NF8 has no infinity (R34) -/
  hasInf : Bool
  deriving DecidableEq, Repr

def fp32 : FFmt := ⟨23, 8, 127, true⟩
def bf16 : FFmt := ⟨7, 8, 127, true⟩
def fp16 : FFmt := ⟨10, 5, 15, true⟩
def nf8 : FFmt := ⟨3, 4, 8, false⟩

def FFmt.width (f : FFmt) : Nat := 1 + f.expo + f.frac

/-- A float's value: the sign, and `m × 2^e` for a finite one. -/
inductive FVal where
  | nan
  | inf (neg : Bool)
  | fin (neg : Bool) (m : Nat) (e : Int)
  deriving DecidableEq, Repr

/-- The canonical NaN of the format (R30, R32). -/
def FFmt.nanBits (f : FFmt) : Nat :=
  if f.hasInf then (2 ^ f.expo - 1) * 2 ^ f.frac + 2 ^ (f.frac - 1) else 2 ^ (f.expo + f.frac) - 1

/-- The largest finite encoding without its sign. -/
def FFmt.maxBits (f : FFmt) : Nat :=
  if f.hasInf then (2 ^ f.expo - 1) * 2 ^ f.frac - 1 else 2 ^ (f.expo + f.frac) - 2

/-- The infinity's encoding without its sign. -/
def FFmt.infBits (f : FFmt) : Nat := (2 ^ f.expo - 1) * 2 ^ f.frac

def FFmt.withSign (f : FFmt) (neg : Bool) (mag : Nat) : Nat :=
  if neg then 2 ^ (f.expo + f.frac) + mag else mag

/-- The value an encoding stands for (R30, R34). -/
def FFmt.decode (f : FFmt) (bits : Nat) : FVal :=
  let neg := (bits >>> (f.expo + f.frac)) % 2 == 1
  let ex := (bits >>> f.frac) % 2 ^ f.expo
  let fr := bits % 2 ^ f.frac
  if f.hasInf && ex == 2 ^ f.expo - 1 then
    if fr == 0 then .inf neg else .nan
  else if !f.hasInf && ex == 2 ^ f.expo - 1 && fr == 2 ^ f.frac - 1 then .nan
  else if ex == 0 then .fin neg fr (1 - (f.bias : Int) - f.frac)
  else .fin neg (2 ^ f.frac + fr) ((ex : Int) - f.bias - f.frac)

/-- `m ÷ 2^k` rounded to an integer in the mode (R35); the sign says which way is up. Every k from ⌊log2 m⌋ + 3 on rounds
alike. -/
def roundShift (rm : Rm) (neg : Bool) (m k : Nat) : Nat :=
  let k := min k (Nat.log2 m + 3)
  let q := m >>> k
  let r := m % 2 ^ k
  let up : Bool := match rm with
    | .rne => decide (2 * r > 2 ^ k) || (decide (2 * r = 2 ^ k) && q % 2 == 1)
    | .rtz => false
    | .rup => r != 0 && !neg
    | .rdn => r != 0 && neg
  if up then q + 1 else q

/-- A rounded result: an encoding without sign, or an overflow (R36). -/
inductive Rounded where
  | bits (mag : Nat)
  | over
  deriving DecidableEq, Repr

/-- A finite non-negative `m × 2^e` rounded once into the format, into the subnormal range where it lies there (R31,
R36; log entry 12). -/
def FFmt.round (f : FFmt) (rm : Rm) (neg : Bool) (m : Nat) (e : Int) : Rounded :=
  if m = 0 then .bits 0 else
  let qmin : Int := 1 - (f.bias : Int) - f.frac
  let q : Int := max ((Nat.log2 m : Int) + e - f.frac) qmin
  let k : Int := q - e
  let r := if k ≤ 0 then m <<< (-k).toNat else roundShift rm neg m k.toNat
  let (r, q) := if r = 2 ^ (f.frac + 1) then (2 ^ f.frac, q + 1) else (r, q)
  if r < 2 ^ f.frac then .bits r
  else
    let field := (q + f.frac + f.bias).toNat
    let mag := field * 2 ^ f.frac + (r - 2 ^ f.frac)
    if mag > f.maxBits then .over else .bits mag

/-- The IEEE 754 overflow result for the mode (R47, policy 0b01; R48). -/
def FFmt.ieeeOver (f : FFmt) (rm : Rm) (neg : Bool) : Nat :=
  let toInf : Bool := match rm with
    | .rne => true
    | .rtz => false
    | .rup => !neg
    | .rdn => neg
  f.withSign neg (if toInf then f.infBits else f.maxBits)

/-- A value rounded into its own format, as arithmetic does (R31, R32, R48). -/
def FFmt.encode (f : FFmt) (rm : Rm) (v : FVal) : Nat :=
  match v with
  | .nan => f.nanBits
  | .inf neg => f.withSign neg f.infBits
  | .fin neg m e =>
    match f.round rm neg m e with
    | .bits mag => f.withSign neg mag
    | .over => f.ieeeOver rm neg

/-- What an overflow writes under a policy of the overflow table (R47). -/
def FFmt.policyOver (f : FFmt) (pol : Nat) (rm : Rm) (neg : Bool) : Nat :=
  if pol = 0 then f.withSign neg f.maxBits
  else if pol = 1 ∧ f.hasInf then f.ieeeOver rm neg
  else f.nanBits

/-- A narrowing conversion into the format (R36). -/
def FFmt.narrow (f : FFmt) (pol : Nat) (rm : Rm) (v : FVal) : Nat :=
  match v with
  | .nan => f.nanBits
  | .inf neg => if f.hasInf then f.withSign neg f.infBits else f.policyOver pol rm neg
  | .fin neg m e =>
    match f.round rm neg m e with
    | .bits mag => f.withSign neg mag
    | .over => f.policyOver pol rm neg

/-- −x and |x| on values (R66 acts on the sign bit). -/
def FVal.neg : FVal → FVal
  | .nan => .nan
  | .inf s => .inf (!s)
  | .fin s m e => .fin (!s) m e

/-- Multiplied by 2^n, exactly (R66). -/
def FVal.scale (n : Int) : FVal → FVal
  | .fin s m e => .fin s m (e + n)
  | v => v

/-- The exact product (R182). -/
def FVal.mul : FVal → FVal → FVal
  | .nan, _ => .nan
  | _, .nan => .nan
  | .inf s, .inf t => .inf (s != t)
  | .inf s, .fin t m _ => if m = 0 then .nan else .inf (s != t)
  | .fin s m _, .inf t => if m = 0 then .nan else .inf (s != t)
  | .fin s m e, .fin t n g => .fin (s != t) (m * n) (e + g)

/-- A finite value as an integer multiple of 2^g, for g at or below its exponent. -/
def signedAt (neg : Bool) (m : Nat) (e g : Int) : Int :=
  let w : Int := (m <<< (e - g).toNat : Nat)
  if neg then -w else w

/-- The least exponent among finite terms. -/
def minExp : List FVal → Int → Int
  | [], g => g
  | .fin _ m e :: l, g => minExp l (if m = 0 then g else min e g)
  | _ :: l, g => minExp l g

/-- The exact sum of finite terms at exponent g. -/
def sumAt (g : Int) : List FVal → Int
  | [] => 0
  | .fin s m e :: l => (if m = 0 then 0 else signedAt s m e g) + sumAt g l
  | _ :: l => sumAt g l

def FVal.isNan : FVal → Bool
  | .nan => true
  | _ => false

def FVal.isInf (neg : Bool) : FVal → Bool
  | .inf s => s == neg
  | _ => false

/-- A zero with the sign. -/
def FVal.isZero (neg : Bool) : FVal → Bool
  | .fin s m _ => m == 0 && s == neg
  | _ => false

/-- The exact sum of terms, with IEEE 754's special values: opposed infinities give NaN; a zero sum is −0 when every term is
−0, and otherwise +0, or −0 when rounding toward −∞ (log entry 12). -/
def FVal.sum (rm : Rm) (l : List FVal) : FVal :=
  if l.any FVal.isNan then .nan
  else if l.any (FVal.isInf false) then (if l.any (FVal.isInf true) then .nan else .inf false)
  else if l.any (FVal.isInf true) then .inf true
  else
    let g := minExp l 0
    let t := sumAt g l
    if t = 0 then
      if l.all (FVal.isZero true) then .fin true 0 0
      else if l.all (FVal.isZero false) then .fin false 0 0
      else .fin (rm == .rdn) 0 0
    else .fin (decide (t < 0)) t.natAbs g

/-- A quotient to more bits than any format keeps, the last bit set when a remainder is left (R182). -/
def quotJam (m n : Nat) : Nat × Int :=
  let s := 80 + Nat.log2 n
  let q := (m <<< s) / n
  (2 * q + (if q * n = m <<< s then 0 else 1), -(s : Int) - 1)

/-- The exact quotient, jammed (R182). -/
def FVal.div : FVal → FVal → FVal
  | .nan, _ => .nan
  | _, .nan => .nan
  | .inf _, .inf _ => .nan
  | .inf s, .fin t _ _ => .inf (s != t)
  | .fin s _ _, .inf t => .fin (s != t) 0 0
  | .fin s m e, .fin t n g =>
    if n = 0 then (if m = 0 then .nan else .inf (s != t))
    else if m = 0 then .fin (s != t) 0 0
    else
      let (q, k) := quotJam m n
      .fin (s != t) q (e - g + k)

/-- The integer square root, bit by bit from bit i − 1 down. -/
def isqrtBits (n : Nat) : Nat → Nat → Nat
  | 0, r => r
  | i + 1, r => isqrtBits n i (let c := r + 2 ^ i; if c * c ≤ n then c else r)

def isqrt (n : Nat) : Nat := isqrtBits n (Nat.log2 n / 2 + 1) 0

/-- `m × 2^e` with an even exponent. -/
def evenExp (m : Nat) (e : Int) : Nat × Int := if e % 2 = 0 then (m, e) else (2 * m, e - 1)

/-- √x (R188). -/
def FVal.sqrt : FVal → FVal
  | .nan => .nan
  | .inf s => if s then .nan else .inf false
  | .fin s m e =>
    if m = 0 then .fin s 0 0
    else if s then .nan
    else
      let (m, e) := evenExp m e
      let n := m <<< 120
      let r := isqrt n
      .fin false (2 * r + (if r * r = n then 0 else 1)) (e / 2 - 61)

/-- 1 ÷ √x (R188). -/
def FVal.rsqrt : FVal → FVal
  | .nan => .nan
  | .inf s => if s then .nan else .fin false 0 0
  | .fin s m e =>
    if m = 0 then .inf s
    else if s then .nan
    else
      let (m, e) := evenExp m e
      let t := 2 ^ 200
      let r := isqrt (t / m)
      .fin false (2 * r + (if r * r * m = t then 0 else 1)) (-(e / 2) - 101)

/-- 1 ÷ x (R188). -/
def FVal.rcp (v : FVal) : FVal := FVal.div (.fin false 1 0) v

/-! The transcendental functions of R188 are computed in fixed point with 320 fraction bits, far below the closest any FP32
argument's result comes to a rounding boundary (log entry 13), and rounded once. -/

/-- Fraction bits of the fixed point. -/
def fixP : Nat := 320
/-- ⌊π × 2^320⌋. -/
def piFix : Nat := 0x3243f6a8885a308d313198a2e03707344a4093822299f31d0082efa98ec4e6c89452821e638d01377
/-- ⌊ln 2 × 2^320⌋. -/
def ln2Fix : Nat := 0xb17217f7d1cf79abc9e3b39803f2f6af40f343267298b62d8a0d175b8baafa2be7b876206debac98

/-- Σ y^k ÷ k! from term t = y^k ÷ k!, in fixed point. -/
def expSeries (y : Nat) : Nat → Nat → Nat → Nat
  | 0, _, _ => 0
  | n + 1, k, t => t + expSeries y n (k + 1) (((t * y) >>> fixP) / (k + 1))

/-- e^y for 0 ≤ y ≤ 1. -/
def expFix (y : Nat) : Nat := expSeries y 90 0 (2 ^ fixP)

/-- Σ (−1)^k y^(2k+1) ÷ (2k+1)! from its terms. -/
def sinSeries (y2 : Nat) : Nat → Nat → Nat → Int
  | 0, _, _ => 0
  | n + 1, k, t => (t : Int) - sinSeries y2 n (k + 1) (((t * y2) >>> fixP) / ((2 * k + 2) * (2 * k + 3)))

/-- sin y for 0 ≤ y ≤ π ÷ 2. -/
def sinFix (y : Nat) : Nat := (sinSeries ((y * y) >>> fixP) 60 0 y).toNat

/-- Σ z^(2k+1) ÷ (2k+1). -/
def atanhSeries (z2 : Nat) : Nat → Nat → Nat → Nat
  | 0, _, _ => 0
  | n + 1, k, t => t / (2 * k + 1) + atanhSeries z2 n (k + 1) ((t * z2) >>> fixP)

/-- `m × 2^e` in fixed point, cut. -/
def toFix (m : Nat) (e : Int) : Nat :=
  let k := e + fixP
  if 0 ≤ k then m <<< k.toNat else m >>> (-k).toNat

/-- A fixed-point value, jammed. -/
def ofFix (neg : Bool) (w : Nat) : FVal := .fin neg (2 * w + 1) (-(fixP : Int) - 1)

/-- e^y for fixed-point y as w × 2^n, w in fixed point. -/
def expSplit (y : Nat) : Nat × Nat :=
  let n := y / ln2Fix
  (expFix (y - n * ln2Fix), n)

/-- 2^x (R188). An integral x is exact. -/
def FVal.exp2 : FVal → FVal
  | .nan => .nan
  | .inf s => if s then .fin false 0 0 else .inf false
  | .fin s m e =>
    if m = 0 then .fin false 1 0
    else if e ≥ 12 ∨ (m : Int) * 2 ^ (e.toNat) ≥ 2 ^ 12 ∧ e ≥ 0 then
      (if s then .fin false 1 (-4096) else .fin false 1 4096)
    else
      let y := toFix m e
      let n := y >>> fixP
      let fr := y % 2 ^ fixP
      if fr = 0 then .fin false 1 (if s then -(n : Int) else n)
      else if n ≥ 4096 then (if s then .fin false 1 (-4096) else .fin false 1 4096)
      else
        let (n, fr) : Int × Nat := if s then (-(n : Int) - 1, 2 ^ fixP - fr) else (n, fr)
        (ofFix false (expFix ((fr * ln2Fix) >>> fixP))).scale n

/-- log2 x (R188). -/
def FVal.log2 : FVal → FVal
  | .nan => .nan
  | .inf s => if s then .nan else .inf false
  | .fin s m e =>
    if m = 0 then .inf true
    else if s then .nan
    else
      let l := Nat.log2 m
      let one := 2 ^ fixP
      let w := toFix m (-(l : Int))
      let (w, ex) : Nat × Int := if 2 * w ≥ 3 * one then (w / 2, (l : Int) + e + 1) else (w, (l : Int) + e)
      if w = one then .fin (decide (ex < 0)) ex.natAbs 0
      else
        let below : Bool := decide (w < one)
        let u := if below then one - w else w - one
        let z := (u <<< fixP) / (w + one)
        let ln := 2 * atanhSeries ((z * z) >>> fixP) 90 0 z
        let t : Int := (ln <<< fixP) / ln2Fix
        let r : Int := ex * (one : Int) + (if below then -t else t)
        ofFix (decide (r < 0)) r.natAbs

/-- sin(π u) for a fixed-point u in [0, 2), with its sign. -/
def sinPiFix (u : Nat) : Bool × Nat :=
  let one := 2 ^ fixP
  let neg : Bool := decide (u ≥ one)
  let u := u % one
  let u := if 2 * u > one then one - u else u
  (neg, sinFix ((u * piFix) >>> fixP))

/-- x mod 2 in fixed point, for a finite x; x is a dyadic number of at most 149 fraction bits. -/
def mod2Fix (s : Bool) (m : Nat) (e : Int) : Nat :=
  let u := if e ≥ 1 then 0 else toFix m e % (2 * 2 ^ fixP)
  if s ∧ u ≠ 0 then 2 * 2 ^ fixP - u else u

/-- sin(πx) (R188): +0 and −0 at non-zero integers by their sign. -/
def FVal.sinPi : FVal → FVal
  | .nan => .nan
  | .inf _ => .nan
  | .fin s m e =>
    let u := mod2Fix s m e
    if u % 2 ^ fixP = 0 then .fin s 0 0
    else let (n, w) := sinPiFix u; ofFix n w

/-- cos(πx) (R188): +0 at half-integers. -/
def FVal.cosPi : FVal → FVal
  | .nan => .nan
  | .inf _ => .nan
  | .fin s m e =>
    let u := (mod2Fix s m e + 2 ^ fixP / 2) % (2 * 2 ^ fixP)
    if u % 2 ^ fixP = 0 then .fin false 0 0
    else if u % 2 ^ fixP = 2 ^ fixP / 2 then .fin (decide (u ≥ 2 ^ fixP)) 1 0
    else let (n, w) := sinPiFix u; ofFix n w

/-- `m × 2^e` is at least 2^k. -/
def atLeastPow (m : Nat) (e k : Int) : Bool := m != 0 && decide ((Nat.log2 m : Int) + e ≥ k)

/-- tanh x (R188). -/
def FVal.tanh : FVal → FVal
  | .nan => .nan
  | .inf s => .fin s 1 0
  | .fin s m e =>
    if m = 0 then .fin s 0 0
    else if atLeastPow m e 5 then .fin s (2 ^ 80 - 1) (-80)
    else
      let (w, n) := expSplit (2 * toFix m e)
      let a := w <<< n
      let one := 2 ^ fixP
      let (q, k) := quotJam ((a - one) <<< 200) (a + one)
      .fin s q (k - 200)

/-- 1 ÷ (1 + e^−x) (R188). -/
def FVal.sigm : FVal → FVal
  | .nan => .nan
  | .inf s => if s then .fin false 0 0 else .fin false 1 0
  | .fin s m e =>
    if m = 0 then .fin false 1 (-1)
    else if atLeastPow m e 8 then (if s then .fin false 1 (-300) else .fin false (2 ^ 80 - 1) (-80))
    else
      let (w, n) := expSplit (toFix m e)
      let a := w <<< n
      let one := 2 ^ fixP
      let (q, k) := quotJam ((if s then one else a) <<< 400) (a + one)
      .fin false q (k - 400)

/-- −1, 0 or 1 as a finite or infinite value is less than, equal to or greater than another (−0 equals +0). -/
def FVal.cmp (a b : FVal) : Int :=
  let key : FVal → List FVal → Int := fun v l =>
    match v with
    | .fin s m e => if m = 0 then 0 else signedAt s m e (minExp l 0)
    | _ => 0
  match a, b with
  | .inf s, .inf t => if s = t then 0 else if s then -1 else 1
  | .inf s, _ => if s then -1 else 1
  | _, .inf t => if t then 1 else -1
  | _, _ =>
    let x := key a [a, b]
    let y := key b [a, b]
    if x < y then -1 else if x = y then 0 else 1

/-- Rounded to an integer in the mode (R36, R190). -/
def roundInt (rm : Rm) (neg : Bool) (m : Nat) (e : Int) : Int :=
  let w : Nat := if e ≥ 0 then m <<< e.toNat else roundShift rm neg m (-e).toNat
  if neg then -(w : Int) else w

/-- ⌊log2⌋ of a non-zero finite magnitude. -/
def floorLog2 (m : Nat) (e : Int) : Int := (Nat.log2 m : Int) + e

/-- Result clamped to [+0, 1] after rounding, on FP encodings (R66). -/
def FFmt.clamp01 (f : FFmt) (bits : Nat) : Nat :=
  match f.decode bits with
  | .nan => 0
  | v =>
    let one := f.bias * 2 ^ f.frac
    if bits / 2 ^ (f.expo + f.frac) = 1 then 0
    else if v.cmp (.fin false 1 0) = 1 then one else bits

/-! Integers (R38, R39). -/

/-- Width of an integer type's element and whether it is signed. -/
def ityWidth : ITy → Nat
  | .s32 | .z32 => 32
  | .s64 | .z64 => 64
  | .s16x2 | .z16x2 => 16
  | .s8x4 | .z8x4 => 8

def itySigned : ITy → Bool
  | .s32 | .s64 | .s16x2 | .s8x4 => true
  | _ => false

/-- Elements in a register of a type. -/
def ityCount : ITy → Nat
  | .s16x2 | .z16x2 => 2
  | .s8x4 | .z8x4 => 4
  | _ => 1

/-- An element read as its type. -/
def readInt (signed : Bool) (w : Nat) (bits : Nat) : Int :=
  let b := bits % 2 ^ w
  if signed ∧ b ≥ 2 ^ (w - 1) then (b : Int) - (2 ^ w : Nat) else b

/-- The range's ends. -/
def intMin (signed : Bool) (w : Nat) : Int := if signed then -((2 ^ (w - 1) : Nat) : Int) else 0
def intMax (signed : Bool) (w : Nat) : Int := if signed then ((2 ^ (w - 1) : Nat) : Int) - 1 else ((2 ^ w : Nat) : Int) - 1

/-- v mod 2^width (R38). -/
def wrapInt (w : Nat) (v : Int) : Nat := (v % ((2 ^ w : Nat) : Int)).toNat

/-- The nearer end of the range when outside it (R38). -/
def clampInt (signed : Bool) (w : Nat) (v : Int) : Int :=
  max (intMin signed w) (min (intMax signed w) v)

/-- A result written wrapped or saturated. -/
def narrowInt (sat signed : Bool) (w : Nat) (v : Int) : Nat :=
  wrapInt w (if sat then clampInt signed w v else v)

/-- IDIV's quotient and IREM's remainder (R39). -/
def divInt (signed : Bool) (w : Nat) (sat : Bool) (a b : Int) : Nat :=
  if b = 0 then 0 else narrowInt sat signed w (Int.tdiv a b)

def remInt (w : Nat) (a b : Int) : Nat :=
  if b = 0 then wrapInt w a else wrapInt w (Int.tmod a b)

/-! Q elements and QB blocks (R40 to R44). -/

def qBits : QFmt → Nat
  | .q2 => 2 | .q3 => 3 | .q4 => 4 | .q5 => 5 | .q6 => 6 | .q7 => 7 | .q8 => 8

/-- sat_sym (R40). -/
def satSym (b : Nat) (v : Int) : Int :=
  let h : Int := ((2 ^ (b - 1) : Nat) : Int) - 1
  max (-h) (min h v)

/-- Element i of a Qb bit stream read as a number (R41). -/
def qElem (b stream i : Nat) : Int := readInt true b (stream >>> (b * i))

/-- The bit stream of the elements, element 0 lowest (R41). -/
def qStream (b : Nat) : List Int → Nat
  | [] => 0
  | m :: l => wrapInt b m + 2 ^ b * qStream b l

/-- The larger magnitude of two finite values, infinity counting as the largest FP32 (R43). -/
def magMax (a b : FVal) : FVal :=
  let norm : FVal → FVal := fun v =>
    match v with
    | .inf _ => fp32.decode fp32.maxBits
    | .fin _ m e => .fin false m e
    | .nan => .nan
  if (norm a).cmp (norm b) = -1 then norm b else norm a

/-- QPACK of 32 values (R43): exponent byte and elements. -/
def qpackBlock (b pol : Nat) (xs : List FVal) : Nat × List Int :=
  if xs.any FVal.isNan then (0xFF, xs.map fun _ => 0)
  else if (xs.any (FVal.isInf true) || xs.any (FVal.isInf false)) && pol != 0 then (0xFF, xs.map fun _ => 0)
  else
    match xs.foldl magMax (.fin false 0 0) with
    | .fin _ m e =>
      if m = 0 then (1, xs.map fun _ => 0)
      else
        let ex := max 1 (min 254 (floorLog2 m e - ((b : Int) - 2) + 127))
        (ex.toNat, xs.map fun x =>
          match x with
          | .fin s n g => satSym b (roundInt .rne s n (g + 127 - ex))
          | .inf s => satSym b (if s then -(2 ^ 40) else 2 ^ 40)
          | .nan => 0)
    | _ => (0xFF, xs.map fun _ => 0)

/-- One element widened to FP32 (R44, R193). -/
def qunpkElem (pol : Nat) (ex : Nat) (m : Int) : Nat :=
  if ex = 0xFF then fp32.nanBits
  else fp32.narrow pol .rne (.fin (decide (m < 0)) m.natAbs ((ex : Int) - 127))

/-! The overflow table (R46). -/

def ovPol (t : W32) (lo : Nat) : Nat := (t.toNat >>> lo) % 4
def polFp32 (t : W32) : Nat := ovPol t 0
def polBf16 (t : W32) : Nat := ovPol t 2
def polFp16 (t : W32) : Nat := ovPol t 4
def polNf8 (t : W32) : Nat := ovPol t 6
def polQ8 (t : W32) : Nat := ovPol t 8
def polQ4 (t : W32) : Nat := ovPol t 10
def polQ2 (t : W32) : Nat := ovPol t 12

/-- The policy for a Q destination (R46). -/
def polQ (t : W32) : QFmt → Nat
  | .q2 => polQ2 t
  | .q8 => polQ8 t
  | _ => polQ4 t

/-- A value OVLD or OVLOAD accepts (R47): [31:14] zero and no field 0b11. -/
def ovLegal (t : W32) : Bool :=
  decide (t.toNat < 2 ^ 14) && (List.range 7).all fun i => ovPol t (2 * i) != 3

/-- FTOI's narrowing under the q8 policy (R49). -/
def ftoiNarrow (pol : Nat) (signed : Bool) (w : Nat) (rm : Rm) (v : FVal) : Nat :=
  let indef := if signed then 2 ^ (w - 1) else 2 ^ w - 1
  match v with
  | .nan => if pol = 0 then 0 else indef
  | .inf s => if pol = 0 then wrapInt w (if s then intMin signed w else intMax signed w) else indef
  | .fin s m e =>
    let r := roundInt rm s m e
    if intMin signed w ≤ r ∧ r ≤ intMax signed w then wrapInt w r
    else if pol = 0 then wrapInt w (clampInt signed w r) else indef

/-! Closure-word arithmetic (R53 to R56). -/

/-- M = 2^61 − 1. -/
def M61 : Nat := 2 ^ 61 - 1

/-- The weight of a finite float (R53). -/
def floatWeight (neg : Bool) (m : Nat) (e : Int) : Nat :=
  if m = 0 then 0
  else
    let w := (m * 2 ^ ((e + 149).toNat % 61)) % M61
    if neg then (M61 - w) % M61 else w

/-- Element types of the format byte (R384): 0 FP32, 1 BF16, 2 FP16, 3 s32, 4 z32. -/
def elemSize (t : Nat) : Nat := if t = 1 ∨ t = 2 then 2 else 4

def elemFmt (t : Nat) : FFmt := if t = 1 then bf16 else if t = 2 then fp16 else fp32

/-- An element's weight, and whether it is non-finite (R53, R54). -/
def elemWeight (t bits : Nat) : Nat × Bool :=
  if t = 3 then ((readInt true 32 bits % (M61 : Int)).toNat, false)
  else if t ≥ 4 then (bits % M61, false)
  else
    match (elemFmt t).decode bits with
    | .fin s m e => (floatWeight s m e, false)
    | _ => ((2 ^ 60 + bits) % M61, true)

/-- residue61 of elements, and whether one is non-finite (R55). -/
def residue61 (t : Nat) (els : List Nat) : Nat × Bool :=
  els.foldl (fun acc x => let (w, nf) := elemWeight t x; ((acc.1 + w) % M61, acc.2 || nf)) (0, false)

/-- The closure word of elements with a transit-only mark (R55). -/
def closureWord (t : Nat) (els : List Nat) (tonly : Bool) : W64 :=
  let (r, nf) := residue61 t els
  BitVec.ofNat 64 (r + (if nf then 2 ^ 61 else 0) + (if !nf && !tonly then 2 ^ 62 else 0)
    + (if tonly then 2 ^ 63 else 0))

def FVal.minmax (mx : Bool) (a b : FVal) (ba bb nan : Nat) : Nat :=
  match a, b with
  | .nan, .nan => nan
  | .nan, _ => bb
  | _, .nan => ba
  | _, _ =>
    let c := a.cmp b
    let lessA : Bool := decide (c = -1) || (decide (c = 0) && a.isZero true)
    if lessA != mx then ba else bb

/-- The lesser or greater float, −0 below +0, a lone NaN giving the other operand (R183). -/
def fMinMax (f : FFmt) (mx : Bool) (a b : Nat) : Nat :=
  FVal.minmax mx (f.decode a) (f.decode b) a b f.nanBits

/-- The combination of R384's operator on two elements, and the error term's weight (R56); none where c is non-finite. -/
def combine (t op a b : Nat) : Nat × Option Nat :=
  if t ≥ 3 then
    let sg : Bool := t == 3
    let x := readInt sg 32 a
    let y := readInt sg 32 b
    if op = 0 then
      let c := wrapInt 32 (x + y)
      (c, some ((((x + y) - readInt sg 32 c) % (M61 : Int)).toNat))
    else
      let firstMin : Bool := decide (x ≤ y)
      let (mn, mx) := if firstMin then (a, b) else (b, a)
      if op = 1 then (mn, some (elemWeight t mx).1) else (mx, some (elemWeight t mn).1)
  else
    let f := elemFmt t
    let va := f.decode a
    let vb := f.decode b
    if op = 0 then
      let c := f.encode .rne (FVal.sum .rne [va, vb])
      match f.decode c with
      | .fin s m e =>
        match FVal.sum .rne [va, vb, .fin (!s) m e] with
        | .fin s' m' e' => (c, some (floatWeight s' m' e'))
        | _ => (c, none)
      | _ => (c, none)
    else
      let c := fMinMax f (op == 2) a b
      let o := fMinMax f (op != 2) a b
      match f.decode c, f.decode o with
      | .fin .., .fin .. => (c, some (elemWeight t o).1)
      | _, _ => (c, none)

end Sys2Proof.Machine
end

