-- ==== Sys2Proof/Machine/Ops.lean ====
section
/-! DEFINITION. The named operations over the state: sparse maps, bytes, lanes, registers, host registers, blocks, teams,
sub-team records and launches; taking a trap and returning from one (R91, R143, R144, R162, R257, R258); a team's entry
into run-ahead and its end (R251 to R255); splitting and fusing (R120 to R125). -/

namespace Sys2Proof.Machine

/-! Sparse maps. -/

/-- The value at a key, `d` where unlisted. -/
def smGet {α : Type} (d : α) : SMap α → Nat → α
  | [], _ => d
  | (k, v) :: m, n => if n = k then v else smGet d m n

/-- A key without its entry. -/
def smErase {α : Type} (m : SMap α) (n : Nat) : SMap α := m.filter fun p => p.1 != n

/-- An entry, none where the value is what an unlisted key reads as. -/
def smEntry {α : Type} [DecidableEq α] (d : α) (n : Nat) (v : α) : SMap α := if v = d then [] else [(n, v)]

/-- The map with a key set, in canonical form. -/
def smSet {α : Type} [DecidableEq α] (d : α) : SMap α → Nat → α → SMap α
  | [], n, v => smEntry d n v
  | (k, w) :: m, n, v => if n ≤ k then smEntry d n v ++ smErase ((k, w) :: m) n else (k, w) :: smSet d m n v

/-- Successive keys from n set to the values of a list. -/
def smSetList {α : Type} [DecidableEq α] (d : α) (m : SMap α) : Nat → List α → SMap α
  | _, [] => m
  | n, v :: l => smSetList d (smSet d m n v) (n + 1) l

/-- The keys in [lo, hi) removed. -/
def smDrop {α : Type} (m : SMap α) (lo hi : Nat) : SMap α := m.filter fun p => p.1 < lo || hi ≤ p.1

/-! Bytes of memory. -/

/-- A byte; an address nothing has written reads 0 (log entry 1). -/
def byteAt (m : Memory) (a : Nat) : Byte := smGet 0 m a

def bytesAt (m : Memory) (a : Nat) : Nat → List Byte
  | 0 => []
  | n + 1 => byteAt m a :: bytesAt m (a + 1) n

def setBytes (m : Memory) (a : Nat) (l : List Byte) : Memory := smSetList 0 m a l

/-- A little-endian number (R4). -/
def leNat : List Byte → Nat
  | [] => 0
  | b :: l => b.toNat + 256 * leNat l

/-- The n little-endian bytes of a number. -/
def leBytes : Nat → Nat → List Byte
  | 0, _ => []
  | n + 1, v => BitVec.ofNat 8 v :: leBytes n (v / 256)

def numAt (m : Memory) (a n : Nat) : Nat := leNat (bytesAt m a n)

/-- Bits [hi:lo] of a number. -/
def bitsOf (v hi lo : Nat) : Nat := v / 2 ^ lo % 2 ^ (hi + 1 - lo)

def w32 (n : Nat) : W32 := BitVec.ofNat 32 n
def w64 (n : Nat) : W64 := BitVec.ofNat 64 n

/-- A pair, low register first (R38). -/
def pairVal (lo hi : W32) : W64 := hi ++ lo
def loHalf (v : W64) : W32 := v.extractLsb' 0 32
def hiHalf (v : W64) : W32 := v.extractLsb' 32 32

/-! Lanes. -/

/-- The lanes of a mask among the first n. -/
def maskLanes (m : LaneMask) (n : Nat) : List Nat := (List.range n).filter fun l => m.getLsbD l

def laneBit (l : Nat) : LaneMask := BitVec.ofNat 1024 (2 ^ l)

def maskOf (l : List Nat) : LaneMask := l.foldl (fun m i => m ||| laneBit i) 0

/-- Lanes 0 to n − 1. -/
def firstLanes (n : Nat) : LaneMask := BitVec.ofNat 1024 (2 ^ n - 1)

def countLanes (m : LaneMask) (n : Nat) : Nat := (maskLanes m n).length

/-- The lowest lane of a mask. -/
def lowLane (m : LaneMask) (n : Nat) : Option Nat := (maskLanes m n).head?

/-- Bits of lanes in `who` taken from `new`, every other bit kept (R118). -/
def maskMerge (old new who : LaneMask) : LaneMask := (old &&& ~~~who) ||| (new &&& who)

/-- Word j of a mask, of pw lanes, holds a lane. -/
def wordLive (m : LaneMask) (pw j : Nat) : Bool := m.toNat / 2 ^ (pw * j) % 2 ^ pw != 0

/-- The words of a mask that hold a lane, of those that lanes below n fill (R12, R364). -/
def liveWords (m : LaneMask) (pw n : Nat) : List Nat := (List.range ((n + pw - 1) / pw)).filter (wordLive m pw)

/-! Host registers (R92, R93, R438, R467): 32-bit words of BAR0 by offset. -/

def bar (s : State) (off : Nat) : W32 := smGet (barReset (off / 4)) s.bar0 (off / 4)

def setBar (s : State) (off : Nat) (v : W32) : State :=
  { s with bar0 := smSet (barReset (off / 4)) s.bar0 (off / 4) v }

def bar64 (s : State) (off : Nat) : Nat := (bar s off).toNat + 2 ^ 32 * (bar s (off + 4)).toNat

/-- Add to a saturating 32-bit counter. -/
def barCount (s : State) (off : Nat) : State :=
  let v := (bar s off).toNat
  if v = 2 ^ 32 - 1 then s else setBar s off (w32 (v + 1))

/-! Monitors (R489, R490). -/

def svBase (mon : Nat) : Nat := 0x1F0000 + 0x100 * mon

/-- The bin of a sample: its bit length, at most 31. -/
def binOf (v : Nat) : Nat := if v = 0 then 0 else min 31 (v.log2 + 1)

def sat32 (n : Nat) : Nat := min n (2 ^ 32 - 1)

/-- n samples of one value. -/
def Mon.add (m : Mon) (n v : Nat) : Mon :=
  let k := binOf v
  { m with count := sat32 (m.count + n), least := min m.least (sat32 v), most := max m.most (sat32 v)
           bins := smSet 0 m.bins k (sat32 (smGet 0 m.bins k + n)) }

/-- A monitor is enabled on a source and an instance. -/
def monOn (s : State) (mon src inst : Nat) : Bool :=
  let ctl := (bar s (svBase mon)).toNat
  ctl.testBit 31 && bitsOf ctl 23 16 == src && bitsOf ctl 8 0 == inst

def monOf (s : State) (mon : Nat) : Mon := smGet (Mon.fresh 0 0) s.mons mon
def setMon (s : State) (mon : Nat) (m : Mon) : State := { s with mons := smSet (Mon.fresh 0 0) s.mons mon m }

/-- n samples of a source's instance, at every monitor that is enabled on it. -/
def noteSample (s : State) (src inst n v : Nat) : State :=
  ((List.range 64).filter fun m => monOn s m src inst).foldl (fun s m => setMon s m ((monOf s m).add n v)) s

/-- Module bring-up is done (R500). -/
def ready (s : State) : Bool := (bar s 0x1E0000).getLsbD 30

def ctxBase (c : Nat) : Nat := 0x80000 + 0x40 * c
def qBase (q : Nat) : Nat := 0x100000 + 0x40 * q
def ctxEn (s : State) (c : Nat) : Bool := (bar s (ctxBase c)).getLsbD 31
def ctxPriv (s : State) (c : Nat) : Bool := (bar s (ctxBase c)).getLsbD 30
def ctxKey (s : State) (c : Nat) : Nat := bitsOf (bar s (ctxBase c)).toNat 26 20
def ctxPasid (s : State) (c : Nat) : Nat := bitsOf (bar s (ctxBase c)).toNat 19 0
def queueCtx (s : State) (q : Nat) : Nat := bitsOf (bar s (qBase q + 8)).toNat 21 16
def devId (s : State) : Nat := (bar s 0x1D0000).toNat % 1024

/-- The context's overflow table (R46). -/
def ovtab (s : State) (c : Nat) : W32 := smGet 0x15 s.ovtab c

/-! Blocks, teams, records, launches. -/

/-- The registers whose ready bit is clear (R76). -/
def Team.unready (t : Team) : List RegKey := t.waits.map Prod.fst

/-- The locked registers, with the matrix instruction that holds each lock (R135). -/
def Team.locks (t : Team) : List (Nat × Nat) := t.lockBits.map fun p => (p.1, p.2.1)

/-- What happened before another team's synchronisation happens before what this one does after it (R233): a later release of its
own waits for the other's writes too. -/
def Team.inherit (t u : Team) : Team :=
  { t with unacked := t.unacked ++ u.unacked.filter fun l => !t.unacked.contains l
           gwct := max t.gwct u.gwct
           lastHost := if t.lastHost = 0 then u.lastHost else t.lastHost }

def State.block? (s : State) (bid : Nat) : Option Block := s.blocks.find? fun b => b.bid == bid
def State.modBlock (s : State) (bid : Nat) (f : Block → Block) : State :=
  { s with blocks := s.blocks.map fun b => if b.bid = bid then f b else b }
def Block.team? (b : Block) (i : Nat) : Option Team := b.teams.find? fun t => t.idx == i
def Block.modTeam (b : Block) (i : Nat) (f : Team → Team) : Block :=
  { b with teams := b.teams.map fun t => if t.idx = i then f t else t }
def Team.rec? (t : Team) (n : Nat) : Option Record := t.records.find? fun r => r.num == n
def Team.modRec (t : Team) (n : Nat) (f : Record → Record) : Team :=
  { t with records := t.records.map fun r => if r.num = n then f r else r }
def State.modTeam (s : State) (bid i : Nat) (f : Team → Team) : State := s.modBlock bid fun b => b.modTeam i f
def State.modRec (s : State) (w : Issuer) (f : Record → Record) : State :=
  s.modTeam w.bid w.team fun t => t.modRec w.sub f
def State.team? (s : State) (bid i : Nat) : Option Team :=
  match s.block? bid with
  | some b => b.team? i
  | none => none
def State.launch? (s : State) (q lseq : Nat) : Option Launch := s.launches.find? fun l => l.q == q && l.lseq == lseq
def State.modLaunch (s : State) (q lseq : Nat) (f : Launch → Launch) : State :=
  { s with launches := s.launches.map fun l => if l.q = q ∧ l.lseq = lseq then f l else l }

/-- The records, in ascending number. -/
def insertRec (r : Record) : List Record → List Record
  | [] => [r]
  | q :: l => if r.num < q.num then r :: q :: l else q :: insertRec r l

/-- Lanes of a team that have not exited (R118). -/
def Team.live (t : Team) : LaneMask :=
  t.records.foldl (fun m r => m ||| r.k0 ||| (match r.held with | some h => h.lanes | none => 0)) 0

def Site.isStation : Site → Bool
  | .station _ _ => true
  | .core _ => false

def Block.coreNum (b : Block) : Nat :=
  match b.site with
  | .core n => n
  | .station st n => 16 * st + n

/-- `%core` (R145): die, cluster and core of core number 192 d + 48 c + n. -/
def coreId (n : Nat) : Nat := n / 192 * 256 + n / 48 % 4 * 64 + n % 48

def coreDie (n : Nat) : Nat := n / 192
def coreCluster (n : Nat) : Nat := n / 48

/-- The die a block's accesses are made on; a station's stack is wired to die stack ÷ 4 (R439). -/
def Block.die (b : Block) : Nat :=
  match b.site with
  | .core n => coreDie n
  | .station st _ => st / 4

/-- Everything an executing instruction can name. -/
structure Env where
  s : State
  who : Issuer
  blk : Block
  team : Team
  rcd : Record
  la : Launch
  deriving DecidableEq, Repr

/-- The issuing sub-team and what it belongs to; none where `cur` names no resident sub-team that holds lanes. -/
def getEnv (s : State) : Option Env :=
  match s.block? s.cur.bid with
  | none => none
  | some b =>
    match b.team? s.cur.team with
    | none => none
    | some t =>
      match t.rec? s.cur.sub with
      | none => none
      | some r =>
        match s.launch? b.q b.lseq with
        | none => none
        | some l => if r.k0 = 0 then none else some ⟨s, s.cur, b, t, r, l⟩

def Env.station (e : Env) : Bool := e.blk.site.isStation
def Env.probing (e : Env) : Bool := e.team.probe.isSome
/-- Lanes of a pass (R12, R364). -/
def Env.pw (e : Env) : Nat := if e.station then 16 else 32

/-! Launch geometry (R10, R103, R109). -/

def LaunchHdr.width (h : LaunchHdr) (i : Nat) : Nat := h.w.getD i 0
def LaunchHdr.ext (h : LaunchHdr) (i : Nat) : Nat := h.e.getD i 1

/-- Blocks of the launch. -/
def LaunchHdr.blocks (h : LaunchHdr) : Nat := h.ext 2 * h.ext 3 * h.ext 4 * h.ext 5

/-- The linear index, the fields 5 to 2 read as one number, of the n-th block in ascending order. -/
def LaunchHdr.linear (h : LaunchHdr) (n : Nat) : Nat :=
  let f2 := n % h.ext 2
  let f3 := n / h.ext 2 % h.ext 3
  let f4 := n / (h.ext 2 * h.ext 3) % h.ext 4
  let f5 := n / (h.ext 2 * h.ext 3 * h.ext 4)
  f2 + 2 ^ h.width 2 * (f3 + 2 ^ h.width 3 * (f4 + 2 ^ h.width 4 * f5))

/-- Field 2 of a block's linear index, its rank in the cluster group. -/
def LaunchHdr.rank (h : LaunchHdr) (idx : Nat) : Nat := idx % 2 ^ h.width 2

/-- The work identifier of lane 0 of a team (R10). -/
def LaunchHdr.wid (h : LaunchHdr) (idx team : Nat) : W64 :=
  w64 (2 ^ h.width 0 * team + 2 ^ (h.width 0 + h.width 1) * idx)

/-! Registers. -/

def vKey (r l : Nat) : Nat := 1024 * r + l
def Team.getV (t : Team) (r l : Nat) : W32 := smGet 0 t.v (vKey r l)
def Team.getS (t : Team) (n : Nat) : W32 := smGet 0 t.s n
def Team.getX (t : Team) (n l : Nat) : W32 := smGet 0 t.x (vKey n l)
def Team.setV (t : Team) (r l : Nat) (v : W32) : Team := { t with v := smSet 0 t.v (vKey r l) v }
def Team.setS (t : Team) (n : Nat) (v : W32) : Team := { t with s := smSet 0 t.s n v }
def Team.setX (t : Team) (n l : Nat) (v : W32) : Team := { t with x := smSet 0 t.x (vKey n l) v }
/-- A mask register as a sub-team reads it: k0 is its live mask (R158). -/
def Team.getK (t : Team) (r : Record) (n : Nat) : LaneMask := if n = 0 then r.k0 else smGet 0 t.k n
def Team.setK (t : Team) (n : Nat) (m : LaneMask) : Team := { t with k := smSet 0 t.k n m }

def Team.pairS (t : Team) (n : Nat) : W64 := pairVal (t.getS n) (t.getS (n + 1))

/-- Fields of an index register (R133). -/
def xStep (x : W32) : Nat := bitsOf x.toNat 31 24
def xIndex (x : W32) : Nat := bitsOf x.toNat 23 16
def xBound (x : W32) : Nat := bitsOf x.toNat 15 8
def xBase (x : W32) : Nat := bitsOf x.toNat 7 0
def xWithIndex (x : W32) (i : Nat) : W32 := w32 (2 ^ 24 * xStep x + 2 ^ 16 * (i % 256) + x.toNat % 2 ^ 16)

/-! Waking. -/

def wakeRec (p : Wait → Bool) (now : Nat) (r : Record) : Record :=
  if p r.wait then { r with wait := .ready, readySince := now, aged := false } else r

def Team.wake (p : Wait → Bool) (now : Nat) (t : Team) : Team := { t with records := t.records.map (wakeRec p now) }

def Block.wake (p : Wait → Bool) (now : Nat) (b : Block) : Block := { b with teams := b.teams.map (Team.wake p now) }

def State.wakeAll (s : State) (p : Wait → Bool) : State := { s with blocks := s.blocks.map (Block.wake p s.time) }

def Wait.isLimit : Wait → Bool
  | .limit => true
  | _ => false
def Wait.isRegister : Wait → Bool
  | .register => true
  | .releaseRegs _ _ => true
  | _ => false
def Wait.isHandler : Wait → Bool
  | .handler => true
  | _ => false
def Wait.isSplit : Wait → Bool
  | .splitFull => true
  | _ => false
def Wait.isHeldJoin : Wait → Bool
  | .heldJoin => true
  | _ => false
def Wait.isJoin : Wait → Bool
  | .join _ => true
  | _ => false

/-- Every outstanding fixed-latency result of the team completes (R78). -/
def Team.drain (t : Team) : Team := { t with records := t.records.map fun r => { r with pend := [] } }

/-- The waits before which a team's outstanding results complete (R78). -/
def Wait.drains : Wait → Bool
  | .waitc _ _ | .bar _ _ | .barAgain _ | .gbar _ _ | .gbarAgain _ | .abar _ _ _ | .claim _ _ _ | .cbacq _ _ _ _
  | .cbres _ _ _ | .join _ | .heldJoin => true
  | _ => false

/-- The sub-team waits where it stands. -/
def Team.waitAt (t : Team) (n : Nat) (w : Wait) : Team :=
  (if w.drains then t.drain else t).modRec n fun r => { r with wait := w }

/-- The issuing sub-team waits and issues its instruction afresh when woken (R127). -/
def holdAs (w : Wait) (who : Issuer) (s : State) : State := s.modTeam who.bid who.team fun t => t.waitAt who.sub w

/-! Splitting, fusing and leaving (R119 to R126). -/

/-- The lowest entry of the quadrant's split table that no team of `used` names (R121; log entry 14). -/
def freeEntry (n : Nat) (used : List Nat) : Nat :=
  ((List.range n).find? fun i => !used.contains i).getD 0

/-- Split entries in use by the teams that share the issuing team's split table: its quadrant's, or its station block's. -/
def usedEntries (s : State) (b : Block) (t : Team) : List Nat :=
  (s.blocks.filter fun c => c.site == b.site).flatMap fun c =>
    (c.teams.filter fun u => b.site.isStation || u.row / 16 == t.row / 16).flatMap fun u => u.splits.map Split.entry

/-- The lowest-numbered free record numbers of a team. -/
def freeRecs (t : Team) : List Nat :=
  (List.range Config.maxRecords).filter fun n => !(t.records.any fun r => r.num == n)

/-- One group fewer under entry e (R122): an entry left with one child gives it its own parent, an entry left with none
goes and counts as a child gone in turn. `fuel` bounds the chain of parents. -/
def dropArm (t : Team) (e : Nat) : Nat → Team
  | 0 => t
  | fuel + 1 =>
    match t.splits.find? fun p => p.entry == e with
    | none => t
    | some p =>
      if p.arms ≤ 1 then
        dropArm { t with splits := t.splits.filter fun q => q.entry != e } p.parent fuel
      else if p.arms = 2 then
        { t with
          splits := (t.splits.filter fun q => q.entry != e).map fun q =>
            if q.parent = e then { q with parent := p.parent } else q
          records := t.records.map fun r => if r.parent = e then { r with parent := p.parent } else r }
      else
        { t with splits := t.splits.map fun q => if q.entry = e then { q with arms := q.arms - 1 } else q }

/-- Two records may fuse without an instruction (R123). -/
def canFuse (a b : Record) : Bool :=
  a.num != b.num && a.parent == b.parent && a.pc == b.pc && a.alloc == b.alloc && a.held.isNone && b.held.isNone
    && (a.wait == .ready || a.wait.isJoin) && (b.wait == .ready || b.wait.isJoin)

/-- The first pair of records that may fuse. -/
def fusePair : List Record → Option (Record × Record)
  | [] => none
  | a :: l =>
    match l.find? (canFuse a) with
    | some b => some (a, b)
    | none => fusePair l

/-- Record `gone` joins record `keep`, which takes the given pc and wait. The team's outstanding results complete (R78). -/
def mergeRec (now : Nat) (keep gone : Record) (pc : W64) (w : Wait) (t : Team) : Team :=
  let join : Record → Record := fun r =>
    if r.num = keep.num then
      { r with k0 := r.k0 ||| gone.k0, etime := max r.etime gone.etime, pc := pc, wait := w }
    else r
  let t : Team := { t with records := (t.records.filter fun r => r.num != gone.num).map join }
  Team.wake (fun w => w.isSplit || w.isHeldJoin) now (dropArm t.drain gone.parent 64)

/-- Every fusion of R123, the lower number keeping the lanes. A sub-team that waits at the `JOIN` has issued it, so what it
fuses with waits there too (log entry 26). -/
def fuseAll (now : Nat) : Nat → Team → Team
  | 0, t => t
  | fuel + 1, t =>
    match fusePair t.records with
    | none => t
    | some (a, b) =>
      let keep := if a.num < b.num then a else b
      let gone := if a.num < b.num then b else a
      fuseAll now fuel (mergeRec now keep gone a.pc (if a.wait.isJoin then a.wait else b.wait) t)

/-- The sub-teams whose parent is e. -/
def Team.kids (t : Team) (e : Nat) : List Record := t.records.filter fun r => r.parent == e

/-- The wait of a sub-team at a `JOIN` is over (R124): entry e has gone, or all its children wait there. -/
def joinOver (t : Team) (r : Record) : Bool :=
  match r.wait with
  | .join e =>
    !(t.splits.any fun p => p.entry == e) ||
      (!(t.splits.any fun p => p.parent == e) && (t.kids e).all fun k => k.held.isNone && k.wait == .join e && k.pc == r.pc)
  | _ => false

/-- The sub-teams a `JOIN` whose wait is over fuses. -/
def joinKids (t : Team) (r : Record) : List Record :=
  match r.wait with
  | .join e => if t.splits.any fun p => p.entry == e then t.kids e else [r]
  | _ => [r]

/-- Waits at `JOIN` that are over end: the children fuse into the lowest record and go on after it. Where their allocations
differ one issues the `JOIN` afresh, which traps (R124). -/
def settleJoins (now : Nat) : Nat → Team → Team
  | 0, t => t
  | fuel + 1, t =>
    match t.records.find? (joinOver t) with
    | none => t
    | some r =>
      let ks := joinKids t r
      match ks with
      | [] => t
      | keep :: rest =>
        let t :=
          if ks.all fun k => k.alloc == keep.alloc then
            let t := rest.foldl (fun t k => mergeRec now keep k keep.pc .ready t) t
            t.modRec keep.num fun r => { r with pc := keep.pc + 8, wait := .ready, readySince := now, aged := false }
          else t.modRec keep.num fun r => { r with wait := .ready, readySince := now, aged := false }
        settleJoins now fuel t

/-- Fusion and the ends of waits at `JOIN`, after any sub-team's pc changes. -/
def Team.fuse (now : Nat) (t : Team) : Team :=
  let t := if t.records.length ≤ 1 then t else fuseAll now 32 t
  if t.records.any fun r => r.wait.isJoin then
    let t := settleJoins now 32 t
    if t.records.length ≤ 1 then t else fuseAll now 32 t
  else t

/-- Fusion where a sub-team comes to a new pc or allocation without issuing (R123). -/
def Team.fuseAt (now n : Nat) (t : Team) : Team :=
  match t.rec? n with
  | some r => if t.records.any (canFuse r) then t.fuse now else t
  | none => t

/-- A record whose active lanes are gone: its held lanes take over at the address that held them (R125), or it is freed
(R122). -/
def Team.recEmpty (now : Nat) (t : Team) (n : Nat) : Team :=
  match t.rec? n with
  | none => t
  | some r =>
    if r.k0 ≠ 0 then t
    else match r.held with
      | some h => t.modRec n fun r => { r with k0 := h.lanes, pc := h.pc, held := none, wait := .ready, readySince := now, aged := false }
      | none =>
        let t := { t with records := t.records.filter fun q => q.num != n }
        Team.wake (fun w => w.isSplit || w.isHeldJoin) now (dropArm t r.parent 64)

/-- Cycles of the clock that a block runs on, in ns, rounded up: 25 ÷ (5 + p) ns a cycle at operating point p, 1.25 ns on a
station (R2, R364, R492). -/
def cyclesNs (s : State) (b : Block) (n : Nat) : Nat :=
  if b.site.isStation then (n * 5 + 3) / 4
  else
    let p := if b.die = 0 then s.die0.point else s.die1.point
    (n * 25 + (5 + p) - 1) / (5 + p)

/-! Traps. -/

/-- The recoverable classes (R91). -/
def recoverable (cause : Nat) : Bool := cause == 0x04 || cause == 0x05 || cause == 0x30 || cause == 0x31

/-- `%trapst.inh` (R147). -/
def Team.inh (t : Team) : Bool := t.trapst.getLsbD 8

/-- Of two stops the one of earlier meridian stands, ties by `%core` and then by slot (R258). -/
def stopBefore (a b : Stop) : Bool :=
  decide (a.at_ < b.at_) ||
    (a.at_ == b.at_ && (decide (coreId a.core < coreId b.core) || (a.core == b.core && decide (a.row ≤ b.row))))

/-- A batch with further pages, each kept once. -/
def addPages (old new : List BatchPage) : List BatchPage :=
  new.foldl (fun l p => if l.any fun q => q.page == p.page then l else l ++ [p]) old

/-- A page recorded now by the executing team. -/
def Env.batchPage (e : Env) (p : W64) : BatchPage := ⟨p, e.s.time, e.blk.coreNum, e.team.row⟩

/-- A probing team restores its checkpoint and is halted (R253, R255); the asynchronous counters are not part of it. -/
def Team.endProbe (t : Team) : Team :=
  match t.probe with
  | none => t
  | some p =>
    { t with records := p.ckpt.records, splits := p.ckpt.splits, k := p.ckpt.k, s := p.ckpt.s, v := p.ckpt.v,
             x := p.ckpt.x, vs := p.ckpt.vs, probe := none, halted := true }

/-- A team of a unit to be saved issues nothing more; a probing one rolls back first; results complete (R260). -/
def Team.halt (t : Team) : Team :=
  { t.endProbe.drain with halted := true }

/-- Resident units of a launch: its blocks on cores. -/
def State.blocksOf (s : State) (q lseq : Nat) : List Block :=
  s.blocks.filter fun b => b.q == q && b.lseq == lseq && !b.site.isStation

/-- Halt blocks of a launch so that they are captured (R259, R260). Teams in probe mode go on until it ends unless `all`. -/
def haltBlocks (s : State) (q lseq : Nat) (bids : List Nat) (all : Bool) : State :=
  let stop : Team → Team := fun t => if !all && t.probe.isSome then t else t.halt
  let stopB : Block → Block := fun b => if bids.contains b.bid then { b with teams := b.teams.map stop } else b
  let s : State := { s with blocks := s.blocks.map stopB }
  s.modLaunch q lseq fun l => { l with halting := l.halting ++ bids.filter fun i => !l.halting.contains i }

/-- The launch stops for a cause (R258): the earliest stop gives the record, and pages join the batch. -/
def stopLaunch (s : State) (q lseq : Nat) (st : Stop) (all : Bool) : State :=
  let s := s.modLaunch q lseq fun l =>
    let keep := match l.stop with
      | none => st
      | some o =>
        let w := if o.reason ≠ 0 ∨ (st.reason = 0 ∧ stopBefore o st = false) then st else o
        { w with pages := addPages o.pages st.pages }
    { l with stop := some keep, state := .stopping }
  haltBlocks s q lseq ((s.blocksOf q lseq).map Block.bid) all

/-- A call ends with NMFAULT (R381): its station block stops and goes, and the return area will hold these. -/
def endCall (s : State) (b : Block) (cause team lane : Nat) (pc trapa : W64) : State :=
  let data := match b.ret with
    | some d => d
    | none => []
  { s with
    blocks := s.blocks.filter fun c => c.bid != b.bid
    calls := s.calls.map fun c =>
      if c.id = b.idx then
        { c with phase := .ended, rstat := 0x25, cause := cause, fteam := team, flane := lane, fpc := pc,
                 trapa := trapa, data := data, counted := false }
      else c }

/-- What a trap reports of its instruction (R112). -/
def Env.stopInfo (e : Env) (cause : Nat) (trapa : W64) (lane : Nat) : Stop :=
  { cause := cause, pc := e.rcd.pc, trapa := trapa, wid := e.team.wid0 + w64 lane, at_ := e.s.time,
    core := e.blk.coreNum, row := e.team.row, reason := 0, hold := false, silent := false, pages := [] }

/-- Entering the handler (R143): the trap registers are written, inh set, outstanding results complete, and the pc goes to
the handler in the same record. -/
def enterHandler (e : Env) (cause : Nat) (trapa : W64) (ilen : Nat) : State :=
  e.s.modTeam e.who.bid e.who.team fun t =>
    let t := { t.drain with trapc := w32 cause, trapa := trapa, trappc := e.rcd.pc, trapst := w32 (256 + ilen),
                            hlanes := e.rcd.k0 }
    Team.fuseAt e.s.time e.who.sub (t.modRec e.who.sub fun r => { r with pc := e.la.hdr.handler, wait := .ready })

/-- TAKING A TRAP (R80, R143, R144, R253, R257, R258, R381). The trapping instruction has no effect. On a station the call
ends; in probe mode the trap is not raised and the probe ends; a recoverable cause in a launch with a handler enters it, or
waits while another sub-team is in it; every other cause stops the launch. `ilen` is bits [1:0] of the instruction. -/
def takeTrap (e : Env) (cause : Nat) (trapa : W64) (lane ilen : Nat) : State :=
  if e.station then endCall e.s e.blk cause e.who.team lane e.rcd.pc trapa
  else if e.probing then e.s.modTeam e.who.bid e.who.team Team.endProbe
  else if recoverable cause && e.la.hdr.trap then
    if e.team.inh then
      if e.rcd.k0 &&& e.team.hlanes ≠ 0 then
        stopLaunch e.s e.la.q e.la.lseq (e.stopInfo cause trapa lane) true
      else holdAs .handler e.who e.s
    else enterHandler e cause trapa ilen
  else stopLaunch e.s e.la.q e.la.lseq (e.stopInfo cause trapa lane) true

/-- The length that `%trapst.ilen` gives (R147). -/
def ilenBytes (n : Nat) : Nat := if n = 0 then 4 else if n = 2 then 12 else 8

/-- RETURN FROM A TRAP (R162): inh is cleared, the sub-team goes on at `%trappc` or after its instruction, and sub-teams that
waited for the handler become ready. -/
def returnTrap (e : Env) (skip : Bool) : State :=
  e.s.modTeam e.who.bid e.who.team fun t =>
    let n := t.trapst.toNat % 4
    let dest := if skip then t.trappc + w64 (ilenBytes n) else t.trappc
    let t := { t with trapst := w32 n, hlanes := 0 }
    Team.wake Wait.isHandler e.s.time (t.modRec e.who.sub fun r => { r with pc := dest })

/-- The page of an address in a batch: 64 KiB-aligned (R254). -/
def pageOf (va : W64) : W64 := w64 (va.toNat / 65536 * 65536)

/-- The pages of a launch's batch (R254). -/
def launchBatch (s : State) (q lseq : Nat) : List BatchPage :=
  match s.launch? q lseq with
  | some l => (l.stop.map Stop.pages).getD []
  | none => []

/-- The launch has recorded 256 pages (R253). -/
def batchFull (s : State) (q lseq : Nat) : Bool := decide (256 ≤ (launchBatch s q lseq).length)

/-- Probe mode of every team of a launch ends (R253). -/
def endProbes (s : State) (q lseq : Nat) : State :=
  let one : Block → Block := fun b =>
    if b.q = q ∧ b.lseq = lseq then { b with teams := b.teams.map Team.endProbe } else b
  { s with blocks := s.blocks.map one }

/-- The team has recorded 64 pages. -/
def Team.pagesFull (t : Team) : Bool :=
  match t.probe with
  | some p => decide (64 ≤ p.pages.length)
  | none => false

/-- Recording a page in probe mode (R252, R254): at the team, and in the launch's batch. The page that reaches a limit of R253
ends the probe, so none is recorded after it. -/
def recordPage (s : State) (e : Env) (va : W64) : State :=
  if batchFull s e.la.q e.la.lseq || ((s.team? e.who.bid e.who.team).any Team.pagesFull) then s else
  let p := pageOf va
  let s := s.modTeam e.who.bid e.who.team fun t =>
    { t with probe := t.probe.map fun pr =>
        if pr.pages.any (fun q => q.1 == p.toNat) then pr else { pr with pages := pr.pages ++ [(p.toNat, s.time)] } }
  s.modLaunch e.la.q e.la.lseq fun l => { l with stop := l.stop.map fun st => { st with pages := addPages st.pages [e.batchPage p] } }

/-- ENTERING RUN-AHEAD (R251): the team checkpoints and probes from the missed instruction, and the launch's first
checkpoint requests its halt. `lane` is the lowest lane that missed. -/
def enterProbe (e : Env) (va : W64) (lane : Nat) : State :=
  let s := e.s.modTeam e.who.bid e.who.team fun t =>
    let ck : Ckpt := ⟨t.records, t.splits, t.k, t.s, t.v, t.x, t.vs⟩
    let pr : Probe :=
      { ckpt := ck, sub := e.who.sub, missPc := e.rcd.pc, missVa := va, missWid := t.wid0 + w64 lane,
        since := e.s.time, issued := 0, pv := [], px := [], ps := [], pk := [],
        pages := [((pageOf va).toNat, e.s.time)] }
    { t with probe := some pr }
  stopLaunch s e.la.q e.la.lseq { (e.stopInfo 0x10 va lane) with pages := [e.batchPage (pageOf va)] } false

/-- A missing translation in an instruction's access: run-ahead on a core (R251), the end of the call on a station (R369);
a team already probing records nothing more here. -/
def takeMiss (e : Env) (va : W64) (lane ilen : Nat) : State :=
  if e.station ∨ e.probing then takeTrap e 0x10 va lane ilen else enterProbe e va lane

end Sys2Proof.Machine
end

