-- ==== Sys2Proof/Machine/MemOps.lean ====
section
/-! DEFINITION. Memory as the agents reach it: physical addresses (R239, R439), page tables and translations (R240 to
R250), routes (R473), keys (R495), the die images of level-two slices with their level-one copies, directory and leases
(R441 to R451), the memory-side cache and hot list (R452 to R456), scratchpads with poison marks and barrier objects
(R13, R14, R24 to R26, R271, R272). -/

namespace Sys2Proof.Machine

/-! Physical addresses. -/

/-- Whose memory a physical address names (R239). -/
inductive HomeK where
  | own | host | pod (dev : Nat)
  deriving DecidableEq, Repr

/-- A place in memory: whose it is, its key in `State.mem`, the key slot it is accessed through, whether a host line is
cacheable, and the interleave code it is reached under. The key of fast-tier memory is the stack in [38:36] over the stack's local offset, which every ilv code
maps onto (R439); of any other memory, the physical address. -/
structure Phys where
  kind : HomeK
  loc : Nat
  key : Nat
  rol : Bool
  ilv : Nat
  deriving DecidableEq, Repr

/-- The stack that holds a fast-tier address under an ilv code (R439). -/
def fastStack (ilv pa : Nat) : Nat :=
  if ilv = 0 then (bitsOf pa 38 36) ^^^ (bitsOf pa 14 12)
  else if ilv = 1 then 4 * bitsOf pa 38 38 + ((bitsOf pa 37 36) ^^^ (bitsOf pa 13 12))
  else bitsOf pa 38 36

/-- The place of a byte in a device's map. -/
def mapLoc (ilv pa : Nat) : Nat :=
  if pa < Config.fastBytes then 2 ^ 36 * fastStack ilv pa + pa % 2 ^ 36 else pa

/-- The stack whose memory-side cache an own place passes through (R439). -/
def stackOf (loc : Nat) : Nat :=
  if loc < Config.fastBytes then bitsOf loc 38 36 else (bitsOf loc 38 36) ^^^ (bitsOf loc 14 12)

def locDie (loc : Nat) : Nat := stackOf loc / 4

/-- The place a frame's byte lies at; a pod frame that names this device is this module's (R239). -/
def physOf (s : State) (ilv key : Nat) (rol : Bool) (pa : Nat) : Phys :=
  let top := bitsOf pa 51 50
  if top = 0 then ⟨.own, mapLoc ilv pa, key, rol, ilv⟩
  else if top = 1 then ⟨.host, pa, key, rol, ilv⟩
  else
    let dev := bitsOf pa 50 41
    let m := pa % 2 ^ 41
    if dev = devId s then ⟨.own, mapLoc ilv m, key, rol, ilv⟩
    else ⟨.pod dev, 2 ^ 51 + 2 ^ 41 * dev + mapLoc ilv m, key, rol, ilv⟩

/-- The line of a place. -/
def Phys.line (p : Phys) : Nat := p.loc / 128

/-- The level-two slice of a line (R440). -/
def l2Slice (line : Nat) : Nat := (line % 64) ^^^ (line / 64 % 64)

/-! Keys (R495, R496). -/

/-- The keys a slot holds, as a number; none for an empty slot. Slot 0 always holds the device's own, 0 here. -/
def keyGenOf (s : State) (slot : Nat) : Option Nat :=
  if slot = 0 then some 0 else (s.keys.find? fun k => k.slot == slot).map fun k => k.key.toNat + 1

/-! Lines. -/

/-- Byte i of a line replaced. -/
def setLineByte (d : LineData) (i : Nat) (b : Byte) : LineData :=
  (d &&& ~~~((0xFF : LineData) <<< (8 * i))) ||| ((b.zeroExtend 1024) <<< (8 * i))

/-- The stored bytes of a line, byte i in bits [8i + 7 : 8i]. -/
def rawLine (m : Memory) (line : Nat) : LineData :=
  m.foldr (fun c d => if c.1 / 128 = line then setLineByte d (c.1 % 128) c.2 else d) 0

def lineByte (d : LineData) (i : Nat) : Byte := d.extractLsb' (8 * i) 8

def lineBytes (d : LineData) (o n : Nat) : List Byte := (List.range n).map fun i => lineByte d (o + i)

def packLine (l : List Byte) : LineData := BitVec.ofNat 1024 (leNat l)

/-- The line as it decrypts under a slot's key: bytes written under another key read as free values (log entry 3). -/
def memLine (s : State) (p : Phys) : LineData :=
  let raw := rawLine s.mem p.line
  let old := smGet 0 s.lineKey p.line
  match p.kind with
  | .host => raw
  | _ =>
    match keyGenOf s p.key with
    | some g =>
      if g = old then raw
      else packLine ((List.range 128).map fun i => Config.decryptOther old g (128 * p.line + i) (lineByte raw i))
    | none => raw

/-- Bytes o and on of a line replaced. -/
def spliceLine (d : LineData) (o : Nat) (l : List Byte) : LineData :=
  let n := l.length
  let mask := BitVec.ofNat 1024 ((2 ^ (8 * n) - 1) * 2 ^ (8 * o))
  (d &&& ~~~mask) ||| BitVec.ofNat 1024 (leNat l * 2 ^ (8 * o))

/-- A line written whole into memory. -/
def putLine (m : Memory) (line : Nat) (d : LineData) : Memory :=
  setBytes m (128 * line) (lineBytes d 0 128)

/-! The memory-side cache and the hot list (R452 to R456). -/

def satAdd16 (n : Nat) : Nat := if n < 65535 then n + 1 else 65535

def hashMul : List Nat := [0x9E3779B97, 0x7F4A7C159, 0x6A09E667F, 0x5BB67AE85]

/-- One access counted in the sketch, and the page's estimate (R455). -/
def countSketch (s : State) (stack p : Nat) : State × Nat :=
  (List.range 4).foldl (fun (acc : State × Nat) i =>
    let h := (p * hashMul.getD i 0) % 2 ^ 36 / 2 ^ 24
    let k := (4 * stack + i) * 4096 + h
    let v := satAdd16 (smGet 0 acc.1.sketch k)
    ({ acc.1 with sketch := smSet 0 acc.1.sketch k v }, min acc.2 v)) (s, 65535)

/-- The candidate list after a count (R456). -/
def updateCands (cs : List Cand) (stack p est : Nat) : List Cand :=
  if cs.any fun c => c.stack == stack && c.p == p then
    cs.map fun c => if c.stack = stack ∧ c.p = p then { c with est := est } else c
  else
    let mine := cs.filter fun c => c.stack == stack
    if mine.length < 64 then cs ++ [⟨stack, p, est⟩]
    else
      let low := mine.foldl (fun (b : Option Cand) c =>
        match b with
        | none => some c
        | some d => if c.est < d.est ∨ (c.est = d.est ∧ d.p < c.p) then some c else some d) none
      match low with
      | none => cs
      | some d => if d.est < est then (cs.filter fun c => !(c == d)) ++ [⟨stack, p, est⟩] else cs

/-- Slice and set of a line in its stack's memory-side cache (R440). -/
def mscSlice (loc : Nat) : Nat := bitsOf loc 9 7
def mscSet (loc : Nat) : Nat := bitsOf loc 22 10

/-- A line of a page with cz set, as the TLBs hold its context's leaves. -/
def czLine (s : State) (ctx loc : Nat) : Bool :=
  s.tlb.any fun e =>
    let leaf := e.leaf.toNat
    let pa := mapLoc (bitsOf leaf 7 6) loc
    let frame := bitsOf leaf 51 16 * 65536
    e.ctx == ctx && leaf.testBit 8 && decide (frame ≤ pa) && decide (pa < frame + 65536 * e.pages)

/-- A unit written compressed to DRAM (R461): its sectors are a free value (log entry 7). -/
def czCount (s : State) (stack ctx : Nat) : State :=
  let k := 64 * stack + ctx
  let n := smGet 0 s.czUnits k
  let sectors := 1 + Config.czSectors (64 * n + k) % 8
  { s with czUnits := smSet 0 s.czUnits k ((n + 1) % 2 ^ 64)
           czSect := smSet 0 s.czSect k ((smGet 0 s.czSect k + sectors) % 2 ^ 64) }

def rowWaysTotal (s : State) (stack : Nat) : Nat :=
  (List.range 64).foldl (fun n c => n + smGet 0 s.rowWays (64 * stack + c)) 0

/-- Poison of a memory line set or cleared. -/
def setMPoison (s : State) (line : Nat) (b : Bool) : State :=
  let rest := s.mpoison.filter fun l => l != line
  { s with mpoison := if b then line :: rest else rest }

/-- A line leaves the memory-side cache: a dirty one is written to DRAM, a clean one leaves what the DRAM holds (R452, R461, R462). -/
def mscLeave (s : State) (v : MscLine) : State :=
  if v.dirty then (if czLine s v.ctx (128 * v.line) then czCount s v.stack v.ctx else s)
  else if v.under then setMPoison s v.line true else s

/-- An ordinary fill of a line by a context: selector, insertion place and victims (R452, R453). Lines beyond the ways open to the
fill go, least recently used first. -/
def mscFill (s : State) (stack line ctx : Nat) (dirty : Bool) : State :=
  let loc := 128 * line
  let i := mscSet loc
  let key := 64 * stack + ctx
  let sel := smGet 511 s.psel key
  let ded := i % 256 == 4 * ctx
  let lru := i % 256 == 4 * ctx + 2
  let sel' := if ded then min 1023 (sel + 1) else if lru then sel - 1 else sel
  let low := lru || (!ded && 512 ≤ sel)
  let ck := 8 * stack + mscSlice loc
  let n := smGet 0 s.lruIns ck
  let atMru := !low || n % 32 == 31
  let s := { s with psel := smSet 511 s.psel key sel', lruIns := if low then smSet 0 s.lruIns ck ((n + 1) % 32) else s.lruIns }
  let inSet : MscLine → Bool := fun l =>
    l.stack == stack && mscSet (128 * l.line) == i && mscSlice (128 * l.line) == mscSlice loc
  let mine := s.msc.filter inSet
  let ways := 16 - rowWaysTotal s stack
  let gone := mine.drop (ways - 1)
  let s := gone.foldl mscLeave s
  let msc := s.msc.filter fun l => !gone.contains l
  let e : MscLine := ⟨stack, line, dirty, ctx, false⟩
  { s with msc := if atMru then e :: msc else msc ++ [e] }

/-- One access performed at a stack's memory-side cache (R452, R455), to a line of a page under an interleave code: its frame is
PA[51:16]. -/
def mscTouch (s : State) (line ilv ctx : Nat) (write : Bool) : State :=
  let loc := 128 * line
  let stack := stackOf loc
  let page := mapLoc ilv loc / 65536
  let (s, est) := countSketch s stack page
  let s := { s with cands := updateCands s.cands stack page est }
  match s.msc.find? fun l => l.stack == stack && l.line == line with
  | some l =>
    { s with msc := { l with dirty := l.dirty || write } :: s.msc.filter fun k => !(k.stack == stack && k.line == line) }
  | none => mscFill s stack line ctx write

/-! The die images. -/

/-- The home copy of a line in its die's slices. -/
def homeCopy? (s : State) (line : Nat) : Option CLine :=
  s.lines.find? fun c => c.line == line && c.stamp.isNone && c.die == locDie (128 * line)

/-- A leased copy on a die (R446). -/
def leasedCopy? (s : State) (die line : Nat) : Option CLine :=
  s.lines.find? fun c => c.die == die && c.line == line && c.stamp.isSome

/-- R448: a stamp is valid at a meridian. -/
def stampValid (stamp t : Nat) : Bool :=
  let d := (stamp + 2 ^ 20 - t / 64 % 2 ^ 20) % 2 ^ 20
  decide (1 ≤ d) && decide (d < 2 ^ 19)

def stampOf (expiry : Nat) : Nat := expiry / 64 % 2 ^ 20

/-- A line's value and poison at its home (R229): the die image of its home where it is held there, else memory. -/
def homeLine (s : State) (p : Phys) : LineData × Bool :=
  match p.kind with
  | .own =>
    match homeCopy? s p.line with
    | some c => (c.data, c.poison)
    | none => (memLine s p, s.mpoison.contains p.line)
  | _ => (memLine s p, s.mpoison.contains p.line)

/-- Bytes at a home; they lie within one line. -/
def homeBytes (s : State) (p : Phys) (n : Nat) : List Byte := lineBytes (homeLine s p).1 (p.loc % 128) n

/-! Sets and their order (R204, R441, R444). A set holds its lines most recently used first. -/

/-- Set of a line in its slice, and of a virtual line in a level-one cache (log entry 76). -/
def l2Set (line : Nat) : Nat := line / 64 % 4096
def l1Set (vline : Nat) : Nat := vline % 768

/-- An element placed behind the n most recently used of its set. -/
def insertBehind {α : Type} (same : α → Bool) (x : α) : Nat → List α → List α
  | _, [] => [x]
  | 0, l => x :: l
  | n + 1, y :: l => y :: insertBehind same x (if same y then n else n + 1) l

/-- Placement at MRU, or at LRU of a set of 16 (R204). -/
def placeIn {α : Type} (same : α → Bool) (x : α) (cache : Cache) (l : List α) : List α :=
  if cache = .stream then insertBehind same x 15 l else x :: l

def sameL2 (a b : CLine) : Bool := a.die == b.die && l2Slice a.line == l2Slice b.line && l2Set a.line == l2Set b.line
def sameL1 (a b : L1Copy) : Bool := a.core == b.core && l1Set a.vline == l1Set b.vline

/-- A line enters a die's slice; the set gives up its least recently used lines at the move's end (`fitL2`). -/
def l2Put (s : State) (c : CLine) (cache : Cache) : State := { s with lines := placeIn (sameL2 c) c cache s.lines }

/-- A line of a die is used: it becomes the most recently used of its set. -/
def l2Use (s : State) (die line : Nat) : State :=
  let it : CLine → Bool := fun c => c.die == die && c.line == line
  { s with lines := s.lines.filter it ++ s.lines.filter fun c => !it c }

/-- Bring a line into its home die's slice (R441). -/
def fillHome (s : State) (p : Phys) (ctx : Nat) (cache : Cache := .normal) : State :=
  match homeCopy? s p.line with
  | some _ => s
  | none =>
    let c : CLine := ⟨locDie p.loc, p.line, memLine s p, false, s.mpoison.contains p.line, none, p.ilv⟩
    mscTouch (l2Put s c cache) p.line p.ilv ctx false

def State.modLine (s : State) (die line : Nat) (f : CLine → CLine) : State :=
  { s with lines := s.lines.map fun c => if c.die = die ∧ c.line = line then f c else c }

/-- The keys a line is encrypted under from its next write on (R495). -/
def setLineKey (s : State) (p : Phys) : State :=
  match p.kind with
  | .host => s
  | _ =>
    match keyGenOf s p.key with
    | some g => { s with lineKey := smSet 0 s.lineKey p.line g }
    | none => s

/-- Write a dirty home copy to the memory-side cache and keep it clean: its point of visibility (R236). -/
def writeBack (s : State) (line : Nat) : State :=
  match homeCopy? s line with
  | some c =>
    if c.dirty then
      let s := { s with mem := putLine s.mem line c.data }
      let s := setMPoison s line c.poison
      let clean : L1Copy → L1Copy := fun k => if k.line = line ∧ coreDie k.core = c.die then { k with dirty := false } else k
      let s : State := { s.modLine c.die line fun c => { c with dirty := false } with l1 := s.l1.map clean }
      mscTouch s line c.ilv 0 true
    else s
  | none => s

/-! The directory (R442 to R444). -/

def DirEnt.covers (d : DirEnt) (die line : Nat) : Bool :=
  d.die == die && d.slice == l2Slice line && decide (d.base ≤ line) && decide (line < d.base + d.size)

def dirEntry? (s : State) (die line : Nat) : Option DirEnt := s.dir.find? fun d => d.covers die line

def addSharer (l : List Nat) (c : Nat) : List Nat := if l.contains c then l else l ++ [c]

/-- Level-one copies of the lines that an entry covers. -/
def entryCopies (s : State) (d : DirEnt) : List L1Copy := s.l1.filter fun k => d.covers (coreDie k.core) k.line

/-- The entry once copies of its lines are gone: the cores that still hold one, and the state they leave (R442). -/
def DirEnt.settle (d : DirEnt) (ks : List L1Copy) (now : Nat) : DirEnt :=
  let cores := d.sharers.filter fun c => ks.any fun k => k.core == c
  let owner := if (d.owner.map fun c => cores.contains c).getD false then d.owner else none
  let dirty := ks.any fun k => k.dirty
  let st : DirState :=
    if cores.isEmpty then .i
    else match d.state with
      | .m => if owner.isNone then .s else if dirty then .m else .e
      | .o => if owner.isNone || !dirty then .s else if cores.length = 1 then .m else .o
      | .e => if owner.isNone then .s else .e
      | x => x
  let e : DirEnt := { d with state := st, sharers := cores, owner := if st == .i || st == .s then none else owner }
  if e = d then d else { e with changed := now }

/-- The entries of a die follow the copies of some lines that are gone. -/
def dirSettle (s : State) (die : Nat) (lines : List Nat) : State :=
  { s with dir := s.dir.map fun d => if lines.any (d.covers die) then d.settle (entryCopies s d) s.time else d }

/-- Level-one copies invalidated or evicted. Their bytes stand in the level-two line. -/
def l1Drop (s : State) (gone : L1Copy → Bool) : State :=
  let out := s.l1.filter gone
  if out.isEmpty then s
  else
    let lines : Nat → List Nat := fun die => (out.filter fun k => coreDie k.core == die).map L1Copy.line
    let s : State := { s with l1 := s.l1.filter fun k => !gone k }
    dirSettle (dirSettle s 0 (lines 0)) 1 (lines 1)

/-- Every level-one copy of a line on a die invalidated. -/
def l1DropLine (s : State) (die line : Nat) : State := l1Drop s fun k => k.line == line && coreDie k.core == die

/-- Level-two lines dropped, with every level-one copy of them (R444). -/
def dropLines (s : State) (gone : CLine → Bool) : State :=
  let out := s.lines.filter gone
  if out.isEmpty then s
  else l1Drop { s with lines := s.lines.filter fun c => !gone c } fun k =>
    out.any fun c => c.line == k.line && c.die == coreDie k.core

/-- A die evicts a line to its home (R444): a dirty home copy is written back. -/
def evictLine (s : State) (die line : Nat) : State :=
  let s := if s.lines.any fun c => c.die == die && c.line == line && c.stamp.isNone then writeBack s line else s
  dropLines s fun c => c.die == die && c.line == line

/-- Every set of the slices gives up what lies beyond its 16 ways, the least recently used (R441). -/
def fitL2 (s : State) : State :=
  let split : List CLine × List CLine := s.lines.foldl (fun acc c =>
    if (acc.1.filter (sameL2 c)).length < 16 then (acc.1 ++ [c], acc.2) else (acc.1, acc.2 ++ [c])) ([], [])
  if s.lines.length ≤ 16 then s else split.2.foldl (fun s c => evictLine s c.die c.line) s

/-- Room for an entry: the least recently used of a full slice goes, with its level-one copies (R444). -/
def dirRoom (s : State) (die slice : Nat) : State :=
  let mine := s.dir.filter fun d => d.die == die && d.slice == slice
  if mine.length < 65536 then s
  else match mine.getLast? with
    | none => s
    | some e =>
      let s := l1Drop s fun k => e.covers (coreDie k.core) k.line
      { s with dir := s.dir.filter fun d => !(d.die == die && d.slice == slice && d.base == e.base) }

/-- An entry takes another's place, most recently used. -/
def putDir (s : State) (old new : DirEnt) : State := { s with dir := new :: s.dir.filter fun d => !(d == old) }

/-- A core reads a line into its level-one cache (R442). -/
def dirRead (s : State) (die line core : Nat) : State :=
  match dirEntry? s die line with
  | none =>
    let s := dirRoom s die (l2Slice line)
    { s with dir := ⟨die, l2Slice line, line / 512 * 512, 512, .e, [core], some core, s.time⟩ :: s.dir }
  | some d =>
    match d.state with
    | .i => putDir s d { d with state := .e, sharers := [core], owner := some core, changed := s.time }
    | .s | .o =>
      if d.sharers.contains core then putDir s d d
      else putDir s d { d with sharers := addSharer d.sharers core, changed := s.time }
    | .e =>
      if d.owner = some core then putDir s d d
      else putDir s d { d with state := .s, sharers := addSharer d.sharers core, owner := none, changed := s.time }
    | .m =>
      if d.owner = some core then putDir s d d
      else putDir s d { d with state := .o, sharers := addSharer d.sharers core, changed := s.time }

/-- Another core than `core` holds a level-one copy of another line of the region. -/
def othersHold (s : State) (d : DirEnt) (line core : Nat) : Bool :=
  (entryCopies s d).any fun k => k.line != line && k.core != core

/-- The entry that holds a line splits, each time the half that holds the line, until that half can serve a write (R443). -/
def dirSplit (s : State) (die line core : Nat) : Nat → State
  | 0 => s
  | fuel + 1 =>
    match dirEntry? s die line with
    | none => s
    | some d =>
      if d.size ≤ 1 ∨ !othersHold s d line core then s
      else
        let h := d.size / 2
        let a := { d with size := h, changed := s.time }
        let b := { d with base := d.base + h, size := h, changed := s.time }
        let s := dirRoom (putDir s d d) die (l2Slice line)
        dirSplit { s with dir := [a, b] ++ s.dir.filter fun e => !(e == d) } die line core fuel

/-- A core writes a line in its level-one cache: every other copy is invalidated first (R442). -/
def dirWrite (s : State) (die line core : Nat) : State :=
  let s := match dirEntry? s die line with
    | none =>
      let s := dirRoom s die (l2Slice line)
      { s with dir := ⟨die, l2Slice line, line / 512 * 512, 512, .m, [core], some core, s.time⟩ :: s.dir }
    | some _ => dirSplit s die line core 10
  match dirEntry? s die line with
  | none => s
  | some d => putDir s d { d with state := .m, sharers := [core], owner := some core, changed := s.time }

/-! Level-one copies (R204, R247, R248). -/

/-- The copy that a core holds of a physical line. -/
def l1Copy? (s : State) (core line : Nat) : Option L1Copy := s.l1.find? fun k => k.core == core && k.line == line

/-- A line enters a core's cache in a set of 16 ways: of a full set the least recently used copy goes that is not kept, or else
the least recently used. -/
def l1Put (s : State) (k : L1Copy) : State :=
  let set := s.l1.filter (sameL1 k)
  let gone := if set.length < 16 then none
    else ((set.filter fun j => j.cache != .keep).getLast?).orElse fun _ => set.getLast?
  let s := match gone with
    | some g => l1Drop s fun j => j == g
    | none => s
  { s with l1 := placeIn (sameL1 k) k k.cache s.l1 }

/-- A core takes or uses a copy; a copy it holds under another tag is retagged (R248). -/
def l1Take (s : State) (k : L1Copy) : State :=
  match l1Copy? s k.core k.line with
  | none => l1Put s k
  | some j =>
    let rest : State := { s with l1 := s.l1.filter fun i => !(i == j) }
    let k' := { k with dirty := k.dirty || j.dirty, cache := j.cache }
    if sameL1 j k then { rest with l1 := k' :: rest.l1 } else l1Put rest k'

/-- The translation that a core's cache holds in the tag of an address (R247). -/
def l1Tag? (s : State) (core ctx va : Nat) : Option Tr :=
  (s.l1.find? fun k => k.core == core && k.ctx == ctx && k.vline == va / 128).map L1Copy.tr

/-! Leases (R446 to R451). -/

def grantOf (s : State) (line : Nat) : Option Grant := s.grants.find? fun g => g.line == line

/-- GWCT of a line: the recorded expiry while it has not passed (R447). -/
def gwctOf (s : State) (line : Nat) : Nat :=
  match grantOf s line with
  | some g => if s.time ≤ g.expiry then g.expiry else 0
  | none => 0

/-! Retention sleep (R450). -/

def sliceKey (die slice : Nat) : Nat := 64 * die + slice
def sleeping (s : State) (die slice : Nat) : Bool := s.asleep.any fun p => p.1 == sliceKey die slice

/-- A leased line of a slice. -/
def leasedIn (die slice : Nat) (c : CLine) : Bool := c.die == die && l2Slice c.line == slice && c.stamp.isSome

/-- A slice wakes: after 2^25 ns or more it drops its leased lines, and counts them. -/
def wakeSlice (s : State) (die slice : Nat) : State :=
  if sleeping s die slice then
    let slept := s.time + 1 - smGet 0 s.asleep (sliceKey die slice)
    let s : State := { s with asleep := smSet 0 s.asleep (sliceKey die slice) 0 }
    if slept < 33554432 then s
    else
      let n := (s.lines.filter (leasedIn die slice)).length
      let s := dropLines s (leasedIn die slice)
      (List.range n).foldl (fun s _ => barCount s (0x1C0000 + 0x100 * die + 4)) s
  else s

/-- The slices that serve a core's request for a line are awake: its own die's, and the home's (R450; log entry 151). -/
def wakeFor (s : State) (core : Nat) (p : Phys) : State :=
  let s := wakeSlice s (coreDie core) (l2Slice p.line)
  if p.kind = .own then wakeSlice s (locDie p.loc) (l2Slice p.line) else s

/-- A line of another device's memory. -/
def podLine (line : Nat) : Bool := (128 * line).testBit 51

/-- GWCT that another device's home returns (R235): one of its leases may stand that this module knows nothing of. -/
def peerGwct (s : State) (n : Nat) : Nat :=
  let f := Config.peerLease n % (Config.maxLease + Config.skew + 1)
  if f = 0 then 0 else s.time + f

/-- Homes answer for written lines (R20, R235): each is at its point of visibility, and the largest GWCT stands beside `g`. -/
def answered (s : State) (lines : List Nat) (g : Nat) : Nat × State :=
  let s := lines.foldl writeBack s
  let g := lines.foldl (fun n l => max n (gwctOf s l)) g
  let n := (lines.filter podLine).length
  ((List.range n).foldl (fun m i => max m (peerGwct s (s.freeCtr + i))) g, { s with freeCtr := s.freeCtr + n })

def putGrant (s : State) (line expiry : Nat) (remote : Bool) : State :=
  match grantOf s line with
  | some g =>
    { s with grants := s.grants.map fun h =>
        if h = g then { g with expiry := max g.expiry expiry, remote := g.remote || remote } else h }
  | none => { s with grants := s.grants ++ [⟨line, expiry, remote⟩] }

/-- A line holds a prepared or committed bundle version (R424). -/
def hasPrepared (s : State) (line : Nat) : Bool :=
  s.pendLines.any fun v => v.line == line && (match v.state with | .pending => false | _ => true)

/-- Device is unlocked from the pod's meridian (R477). -/
def unlocked (s : State) : Bool := (bar s 0x1D0008).getLsbD 31

/-- The grant table of a line's home slice has no entry for it and no room (R447). -/
def tableFull (s : State) (p : Phys) : Bool :=
  (grantOf s p.line).isNone && !decide ((s.grants.filter fun g => locDie (128 * g.line) == locDie p.loc
    && l2Slice g.line == l2Slice p.line).length < 131072)

/-- Whether a home grants a lease on a line now (R447, R477): its table has room and no version is prepared. -/
def grants? (s : State) (p : Phys) : Bool :=
  !hasPrepared s p.line &&
  (match p.kind with
    | .pod _ => !unlocked s
    | _ => true) && !tableFull s p

/-- What a core asks with: its number, virtual line, context, translation, policy and its launch's `%lease`. -/
structure Req where
  core : Nat
  vline : Nat
  ctx : Nat
  tr : Tr
  cache : Cache
  lease : Nat
  deriving DecidableEq, Repr

def Req.copy (r : Req) (line : Nat) (dirty : Bool) : L1Copy := ⟨r.core, line, r.vline, r.ctx, r.tr, dirty, r.cache⟩

/-- A read's effect on the caches of its die once the level-two slice holds the line: a hit in the core's own cache uses its copy,
a miss uses the level-two line and, unless it bypasses, takes a copy. -/
def readCaches (s : State) (r : Req) (p : Phys) (toL1 : Bool) : State :=
  if (l1Copy? s r.core p.line).isSome then l1Take s (r.copy p.line false)
  else
    let die := coreDie r.core
    let s := l2Use s die p.line
    if r.cache = .bypass ∨ !toL1 then s else l1Take (dirRead s die p.line r.core) (r.copy p.line false)

/-- A read of a line that its die holds no valid copy of goes to the home, which grants a lease or refuses one (R447). -/
def leaseRead (s : State) (r : Req) (p : Phys) (toL1 : Bool) : (LineData × Bool) × State :=
  let die := coreDie r.core
  let s := if p.kind = .own then fillHome s p r.ctx r.cache else s
  let v := homeLine s p
  if grants? s p then
    let exp := s.time + r.lease
    let c : CLine := ⟨die, p.line, v.1, false, v.2, some (stampOf exp), p.ilv⟩
    (v, readCaches (l2Put (putGrant s p.line exp false) c r.cache) r p toL1)
  else (v, if tableFull s p then barCount s (0x1C0000 + 0x100 * locDie p.loc + 8) else s)

/-- A core's read of a line (R234, R441, R446 to R449): from its die's slices, filled from the home where absent. The
copies taken move lines, never a value. -/
def coreReadLine (s : State) (r : Req) (p : Phys) (toL1 : Bool := true) : (LineData × Bool) × State :=
  let die := coreDie r.core
  let s := wakeFor s r.core p
  let remote : Unit → (LineData × Bool) × State := fun _ =>
    match leasedCopy? s die p.line with
    | some c =>
      if (c.stamp.map fun t => stampValid t s.time).getD false then ((c.data, c.poison), readCaches s r p toL1)
      else leaseRead (dropLines s fun k => k.die == die && k.line == p.line && k.stamp.isSome) r p toL1
    | none => leaseRead s r p toL1
  match p.kind with
  | .own =>
    if locDie p.loc = die then
      let s := fillHome s p r.ctx r.cache
      (homeLine s p, readCaches s r p toL1)
    else remote ()
  | .pod _ => remote ()
  | .host => if p.rol then remote () else (homeLine s p, s)

/-- Bytes of a leased copy on a die replaced, its stamp unchanged (R449). -/
def patchLeased (s : State) (die : Nat) (p : Phys) (l : List Byte) : State :=
  { s with lines := s.lines.map fun c =>
      if c.die = die ∧ c.line = p.line ∧ c.stamp.isSome then { c with data := spliceLine c.data (p.loc % 128) l } else c }

/-- Bytes written at a home, within one line; `poison` marks data that carries poison. -/
def homeWrite (s : State) (p : Phys) (ctx : Nat) (l : List Byte) (poison : Bool) (cache : Cache := .normal) : State :=
  match p.kind with
  | .own =>
    let s := fillHome s p ctx cache
    let s := setLineKey s p
    s.modLine (locDie p.loc) p.line fun c =>
      if c.stamp.isSome then c
      else { c with data := spliceLine c.data (p.loc % 128) l, dirty := true, poison := c.poison || poison }
  | _ =>
    let d := spliceLine (memLine s p) (p.loc % 128) l
    let s := setLineKey s p
    let s := { s with mem := putLine s.mem p.line d }
    if poison then setMPoison s p.line true else s

/-- A core's store of bytes within one line (R442, R449): performed at the home's slice, other level-one copies
invalidated, the issuing die's leased copy patched. -/
def coreWrite (s : State) (r : Req) (p : Phys) (l : List Byte) (poison : Bool := false) : State :=
  let die := coreDie r.core
  let s := homeWrite (wakeFor s r.core p) p r.ctx l poison r.cache
  let s := patchLeased s die p l
  match p.kind with
  | .own =>
    if locDie p.loc = die then
      let s := if (l1Copy? s r.core p.line).isSome then s else l2Use s die p.line
      if r.cache = .bypass then l1DropLine s die p.line
      else
        let s := l1Drop s fun k => k.line == p.line && coreDie k.core == die && k.core != r.core
        l1Take (dirWrite s die p.line r.core) (r.copy p.line true)
    else l1DropLine s (locDie p.loc) p.line
  | _ => s

/-- An atomic's write at the home (R212, R449): level-one copies go, and the leased copy on the issuing die. -/
def atomicWrite (s : State) (r : Req) (p : Phys) (l : List Byte) : State :=
  let die := coreDie r.core
  let s := homeWrite (wakeFor s r.core p) p r.ctx l false
  let s := dropLines s fun c => c.die == die && c.line == p.line && c.stamp.isSome
  l1DropLine s (locDie p.loc) p.line

/-- Clear a line's poison after a write of all its bytes with clean data (R464). -/
def clearPoison (s : State) (p : Phys) : State :=
  let s := { s with lines := s.lines.map fun c => if c.line = p.line ∧ c.stamp.isNone then { c with poison := false } else c }
  if (homeCopy? s p.line).isSome then s else setMPoison s p.line false

/-! Accesses of units that write through to the point of visibility: the front end, engines at retirement, maintenance. -/

/-- Bytes written at a home and at once at its point of visibility. -/
def devWrite (s : State) (p : Phys) (ctx : Nat) (l : List Byte) : State :=
  let s := homeWrite s p ctx l false
  match p.kind with
  | .own => writeBack (l1DropLine s (locDie p.loc) p.line) p.line
  | _ => s

/-- Bytes as pieces that lie within lines, with their offsets from the start. -/
def linePieces (off : Nat) : Nat → Nat → List (Nat × Nat)
  | 0, _ => []
  | fuel + 1, n =>
    if n = 0 then []
    else
      let k := min n (128 - off % 128)
      (off, k) :: linePieces (off + k) fuel (n - k)

/-- A run of bytes at physical addresses under ilv 0b00 and a key slot, read at the homes. -/
def paRead (s : State) (key pa n : Nat) : List Byte :=
  (linePieces pa (n + 1) n).flatMap fun q => homeBytes s (physOf s 0 key false q.1) q.2

/-- The same written, at the point of visibility. -/
def paWrite (s : State) (key ctx pa : Nat) (l : List Byte) : State :=
  (linePieces pa (l.length + 1) l.length).foldl (fun s q =>
    devWrite s (physOf s 0 key false q.1) ctx ((l.drop (q.1 - pa)).take q.2)) s

def paNum (s : State) (pa n : Nat) : Nat := leNat (paRead s 0 pa n)

/-! Translation (R240 to R250). -/

def Tr.bit (t : Tr) (i : Nat) : Bool := t.leaf.getLsbD i
def Tr.r (t : Tr) : Bool := t.bit 2
def Tr.w (t : Tr) : Bool := t.bit 3 && !t.bit 10
def Tr.a (t : Tr) : Bool := t.bit 4
def Tr.x (t : Tr) : Bool := t.bit 5
def Tr.ilv (t : Tr) : Nat := bitsOf t.leaf.toNat 7 6
def Tr.cz (t : Tr) : Bool := t.bit 8
def Tr.rol (t : Tr) : Bool := t.bit 11
def Tr.pin (t : Tr) : Bool := t.bit 12
def Tr.key (t : Tr) : Nat := bitsOf t.leaf.toNat 62 56
def Tr.frame (t : Tr) : Nat := bitsOf t.leaf.toNat 51 16 * 65536
/-- The physical address of a byte of the page. -/
def Tr.pa (t : Tr) (va : Nat) : Nat := t.frame + (va - t.vbase)

def Tr.phys (s : State) (t : Tr) (va : Nat) : Phys := physOf s t.ilv t.key t.rol (t.pa va)

/-- A leaf of a page size is not malformed (R242). -/
def leafOk (leaf size : Nat) : Bool :=
  let frame := bitsOf leaf 51 16 * 65536
  let top := bitsOf frame 51 50
  let host := top == 1
  let m := if top = 0 then frame else frame % 2 ^ 41
  let tier := bitsOf leaf 9 9
  let ilv := bitsOf leaf 7 6
  let cap := decide (Config.fastBytes ≤ m)
  bitsOf leaf 63 63 == 0 && bitsOf leaf 55 52 == 0 && bitsOf leaf 15 13 == 0 && frame % size == 0 && ilv != 3
    && (host && tier == 0 && bitsOf leaf 8 8 == 0 && !(bitsOf leaf 11 11 == 1 && bitsOf leaf 3 3 == 1)
      || !host && bitsOf leaf 11 11 == 0 && decide (m + size ≤ Config.moduleBytes)
        && (cap || decide (m + size ≤ Config.fastBytes)) && (ilv == 0 || !cap) && tier == (if cap then 1 else 0))

/-- A pointer entry is not malformed: zero bits, and the next table within the module and aligned (R242). -/
def pointerOk (ent nextLevel : Nat) : Bool :=
  let t := bitsOf ent 51 8 * 256
  bitsOf ent 63 52 == 0 && bitsOf ent 7 2 == 0 && decide (t < Config.moduleBytes)
    && t % (if nextLevel = 2 then 65536 else if nextLevel = 1 then 4096 else 256) == 0

/-- The walk from the table of a level (R240), to a leaf and its level. -/
def walkFrom (s : State) (va : Nat) : Nat → Nat → Option (Nat × Nat)
  | 0, table =>
    let ent := paNum s (table + 8 * bitsOf va 20 16) 8
    if ent % 2 = 1 ∧ bitsOf ent 1 1 = 1 then some (ent, 0) else none
  | lvl + 1, table =>
    let idx := if lvl = 2 then bitsOf va 55 43 else if lvl = 1 then bitsOf va 42 30 else bitsOf va 29 21
    let ent := paNum s (table + 8 * idx) 8
    if ent % 2 = 0 then none
    else if bitsOf ent 1 1 = 1 then (if lvl = 2 then none else some (ent, lvl + 1))
    else if pointerOk ent lvl then walkFrom s va lvl (bitsOf ent 51 8 * 256) else none

def levelSize (lvl : Nat) : Nat := if lvl = 0 then 65536 else if lvl = 1 then 2 ^ 21 else 2 ^ 30

/-- The leaf of an address in a context's table, pinned or not. -/
def findLeaf (s : State) (ctx va : Nat) : Option Tr :=
  let root := bar64 s (ctxBase ctx + 8)
  if va < 2 ^ 56 ∧ root < Config.moduleBytes then
    match walkFrom s va 3 root with
    | some (ent, lvl) =>
      if leafOk ent (levelSize lvl) then some ⟨w64 ent, va / levelSize lvl * levelSize lvl, levelSize lvl⟩ else none
    | none => none
  else none

/-- Where the leaf of an address lies: the physical address of its entry. -/
def walkEntry (s : State) (va : Nat) : Nat → Nat → Option Nat
  | 0, table => some (table + 8 * bitsOf va 20 16)
  | lvl + 1, table =>
    let idx := if lvl = 2 then bitsOf va 55 43 else if lvl = 1 then bitsOf va 42 30 else bitsOf va 29 21
    let at_ := table + 8 * idx
    let ent := paNum s at_ 8
    if ent % 2 = 1 ∧ bitsOf ent 1 1 = 0 ∧ pointerOk ent lvl = true then walkEntry s va lvl (bitsOf ent 51 8 * 256)
    else some at_

def leafEntry (s : State) (ctx va : Nat) : Option Nat := walkEntry s va 3 (bar64 s (ctxBase ctx + 8))

/-- A present translation: pinned (R244). -/
def translate (s : State) (ctx va : Nat) : Option Tr :=
  match findLeaf s ctx va with
  | some t => if t.pin then some t else none
  | none => none

/-- A core's translation (R247): the rights tag of a line its cache holds, else its cluster's TLB, else the walk. -/
def coreTranslate (s : State) (core ctx va : Nat) : Option Tr :=
  match l1Tag? s core ctx va with
  | some t => some t
  | none =>
    match s.tlb.find? fun e => e.cluster == coreCluster core && e.ctx == ctx && decide (e.vbase ≤ va)
        && decide (va < e.vbase + 65536 * e.pages) with
    | some e => some ⟨e.leaf, e.vbase, 65536 * e.pages⟩
    | none => translate s ctx va

/-- A translation held in the cluster's TLB, of at most 16,384 (R247). -/
def tlbFill (s : State) (cluster ctx : Nat) (t : Tr) : State :=
  if s.tlb.any fun e => e.cluster == cluster && e.ctx == ctx && e.vbase == t.vbase then s
  else
    let mine := s.tlb.filter fun e => e.cluster == cluster
    let tlb := if mine.length < 16384 then s.tlb
      else match mine.head? with
        | some o => s.tlb.filter fun e => !(e == o)
        | none => s.tlb
    { s with tlb := tlb ++ [⟨cluster, ctx, t.vbase, t.size / 65536, t.leaf⟩] }

/-! Routes (R473). -/

/-- The aperture entry that decides a physical address's route. -/
def routeOf (s : State) (pa : Nat) : Option Nat :=
  (List.range 64).find? fun i =>
    let base := 0x1D1000 + 0x10 * i
    let lo := bar64 s base
    let hi := bar64 s (base + 8)
    let route := bitsOf lo 63 62
    (route == 1 || route == 2) && decide (bitsOf hi 31 0 ≤ pa / 2 ^ 20) && decide (pa / 2 ^ 20 ≤ bitsOf hi 63 32)

/-- The live ports of a mask of ports: a port that is down leaves every route (R475, R479). -/
def livePorts (s : State) (ports : Nat) : List Nat :=
  (List.range 18).filter fun i => ports.testBit i && (bar s 0x1D0008).getLsbD i

/-- A physical address off this module has a usable route. -/
def routed (s : State) (pa : Nat) : Bool :=
  match routeOf s pa with
  | none => false
  | some i =>
    let lo := bar64 s (0x1D1000 + 0x10 * i)
    bitsOf lo 63 62 == 1 || !(livePorts s (bitsOf lo 51 34)).isEmpty

/-- The port a request takes among a route's live ports (R474). -/
def pickPort (live : List Nat) (h : Nat) : Nat := live.getD (h % live.length) 0

/-- The address that a pod frame gives a place: its stack bits stand as the leaf's interleave reads them. -/
def podFrame (ilv loc : Nat) : Nat := 2 ^ 51 + bitsOf loc 50 41 * 2 ^ 41 + mapLoc ilv (loc % 2 ^ 41)

/-- The port of a pod memory request, chosen by the frame's address. -/
def podPort (s : State) (pa : Nat) : Nat :=
  match routeOf s pa with
  | none => 0
  | some i => pickPort (livePorts s (bitsOf (bar64 s (0x1D1000 + 0x10 * i)) 51 34)) ((bitsOf pa 22 7) ^^^ (bitsOf pa 38 23))

/-- The live ports towards a device, of the lowest-numbered route 0b10 entry that names it (R474). -/
def devPorts (s : State) (dev : Nat) : List Nat :=
  match (List.range 64).find? fun i =>
      let lo := bar64 s (0x1D1000 + 0x10 * i)
      bitsOf lo 63 62 == 2 && bitsOf lo 61 52 == dev with
  | none => []
  | some i => livePorts s (bitsOf (bar64 s (0x1D1000 + 0x10 * i)) 51 34)

/-- A route carries an atomic class (0 FetchAdd, 1 Swap, 2 CAS, 3 Extended) at a size (R212, R473). -/
def routeAtomic (s : State) (pa cls : Nat) (wide : Bool) : Bool :=
  match routeOf s pa with
  | none => false
  | some i =>
    let lo := bar64 s (0x1D1000 + 0x10 * i)
    !(bitsOf lo 63 62 == 1 && cls == 3) && lo.testBit (26 + 2 * cls + (if wide then 1 else 0))

/-! Scratchpads. -/

/-- Units of 8 bytes a range touches, and those it covers. -/
def unitsTouched (off n : Nat) : List Nat :=
  if n = 0 then [] else (List.range ((off + n - 1) / 8 - off / 8 + 1)).map fun i => off / 8 + i

def unitCovered (off n u : Nat) : Bool := decide (off ≤ 8 * u) && decide (8 * u + 8 ≤ off + n)

def scratchPoison (b : Block) (off n : Nat) : Bool := (unitsTouched off n).any fun u => b.spoison.contains u

/-- A barrier object's fields (R24). -/
structure BarObj where
  epoch : Nat
  owed : Nat
  mark : Nat
  legs : Nat
  rsvd : Nat
  opn : Nat
  deriving DecidableEq, Repr

def objOf (n : Nat) : BarObj :=
  ⟨bitsOf n 127 96, bitsOf n 95 64, bitsOf n 63 55, bitsOf n 54 32, bitsOf n 31 23, bitsOf n 22 0⟩
def BarObj.num (o : BarObj) : Nat :=
  o.opn + 2 ^ 23 * o.rsvd + 2 ^ 32 * o.legs + 2 ^ 55 * o.mark + 2 ^ 64 * o.owed + 2 ^ 96 * o.epoch

def getObj (b : Block) (off : Nat) : BarObj := objOf (numAt b.scratch off 16)

/-- A scoreboard updated; its armed slots are still to be tested (R394, R400). -/
def setSb (b : Block) (n : Nat) (v : W64) : Block :=
  { b with sb := smSet 0 b.sb n v, sbTest := if b.sbTest.contains n then b.sbTest else b.sbTest ++ [n] }

/-- R25's test after an update: the phase closes where open and owed are zero, and a mark sets its scoreboard bit. -/
def closeTest (b : Block) (off : Nat) : Block :=
  let o := getObj b off
  if o.opn = 0 ∧ o.owed = 0 then
    let o' := { o with epoch := (o.epoch + 1) % 2 ^ 32, opn := o.legs, owed := 0 }
    let b := { b with scratch := setBytes b.scratch off (leBytes 16 o'.num) }
    if o.mark / 256 = 1 then
      let sb := o.mark / 64 % 4
      setSb b sb (smGet 0 b.sb sb ||| w64 (2 ^ (o.mark % 64)))
    else b
  else b

/-- One indivisible update of an object (R26). -/
def updateObj (b : Block) (off : Nat) (f : BarObj → BarObj) : Block :=
  closeTest { b with scratch := setBytes b.scratch off (leBytes 16 (f (getObj b off)).num) } off

/-- An arrival, and a delivery of bytes (R24, R302). -/
def objArrive (o : BarObj) : BarObj := { o with opn := (o.opn + 2 ^ 23 - 1) % 2 ^ 23 }
def objDeliver (n : Nat) (o : BarObj) : BarObj := { o with owed := (o.owed + 2 ^ 32 - n % 2 ^ 32) % 2 ^ 32 }

/-- An epoch operand has been passed (R25). -/
def epochPassed (epoch e : Nat) : Bool :=
  let d := (epoch + 2 ^ 32 - e) % 2 ^ 32
  decide (1 ≤ d) && decide (d < 2 ^ 31)

/-- Bytes written to a scratchpad: a unit covered whole loses its poison mark, data that carries poison sets it, and an
object touched is tested (R26, R272). -/
def putScratch (b : Block) (off : Nat) (l : List Byte) (poison : Bool) : Block :=
  let n := l.length
  let clear := b.spoison.filter fun u => !unitCovered off n u
  let marks := if poison then (unitsTouched off n).foldl (fun m u => if m.contains u then m else u :: m) b.spoison
    else if b.spoison.isEmpty then [] else clear
  let b := { b with scratch := setBytes b.scratch off l, spoison := marks }
  (b.objs.filter fun o => decide (o < off + n) && decide (off < o + 16)).foldl closeTest b

/-- Marks of units that the pieces of one store cover together (R272). -/
def clearUnits (b : Block) (pieces : List (Nat × Nat)) : Block :=
  if b.spoison.isEmpty then b
  else { b with spoison := b.spoison.filter fun u =>
    !((List.range 8).all fun i => pieces.any fun p => decide (p.1 ≤ 8 * u + i) && decide (8 * u + i < p.1 + p.2)) }

/-! Generic addresses (R13 to R15). -/

/-- Where an address leads: a scratchpad of a resident block, or memory with its translation. -/
inductive Target where
  | scr (bid off : Nat)
  | mem (t : Tr) (p : Phys)
  deriving DecidableEq, Repr

/-- Teams in the instance of a narrow scope that a block lies in (R15, R232). -/
def scopeTeams (s : State) (b : Block) (sc : Scope) : List Team :=
  match sc with
  | .blk => b.teams
  | .cg =>
    match s.launch? b.q b.lseq with
    | none => b.teams
    | some la =>
      let g : Block → Nat := fun c => c.idx / 2 ^ la.hdr.width 2
      (s.blocks.filter fun c => c.q == b.q && c.lseq == b.lseq && g c == g b && !c.site.isStation).flatMap Block.teams
  | _ => []

/-- A team acquires at a scope: what happened before releases within it happens before the team's later accesses (R232, R233). A
release at die scope or wider has waited for its own. -/
def acquireAt (s : State) (w : Issuer) (sc : Scope) : State :=
  match s.block? w.bid with
  | none => s
  | some b =>
    if b.site.isStation then s
    else
      let us := (scopeTeams s b sc).filter fun u => !u.unacked.isEmpty || u.gwct != 0
      if us.isEmpty then s else s.modTeam w.bid w.team fun t => us.foldl Team.inherit t

/-- The block of a cluster group by rank. -/
def groupBlock? (s : State) (h : LaunchHdr) (b : Block) (rank : Nat) : Option Block :=
  let idx := b.idx / 2 ^ h.width 2 * 2 ^ h.width 2 + rank
  s.blocks.find? fun c => c.q == b.q && c.lseq == b.lseq && c.idx == idx && !c.site.isStation

def cSPWIN : Nat := 0x15
def cALIGN : Nat := 0x14
def cXLATE : Nat := 0x10
def cPERM : Nat := 0x11
def cATOMRT : Nat := 0x12
def cPOISON : Nat := 0x13
def cILLOP : Nat := 0x01
def cPCALIGN : Nat := 0x03
def cIDXB : Nat := 0x04
def cSTALLX : Nat := 0x05
def cBUDGET : Nat := 0x06
def cPRIV : Nat := 0x08
def cTILE : Nat := 0x20
def cCBUF : Nat := 0x22
def cBUNDLE : Nat := 0x24

/-- The place in R205's order. -/
def causeRank (c : Nat) : Nat :=
  if c = cSPWIN then 0 else if c = cALIGN then 1 else if c = cXLATE then 2 else if c = cPERM then 3
  else if c = cATOMRT then 4 else 5

/-- An address in a scratchpad window; none for ordinary memory. -/
def windowOf (ea : Nat) : Bool := decide (Config.clusterWindow ≤ ea) && decide (ea < 2 ^ 56)

/-- The scratchpad an address in a window names (R13, R14), for an access of n bytes. -/
def resolveWindow (s : State) (h : LaunchHdr) (b : Block) (ea n : Nat) : Except Nat (Nat × Nat) :=
  if Config.localWindow ≤ ea then
    let off := ea % 2 ^ 44
    if off + n ≤ b.scratchLen then .ok (b.bid, off) else .error cSPWIN
  else if b.site.isStation then .error cSPWIN
  else
    let rank := bitsOf ea 25 20
    let off := ea % 2 ^ 20
    if bitsOf ea 43 26 ≠ 0 ∨ h.ext 2 ≤ rank then .error cSPWIN
    else match groupBlock? s h b rank with
      | some c => if off + n ≤ c.scratchLen then .ok (c.bid, off) else .error cSPWIN
      | none => .error cSPWIN

/-- What an access needs (R243): 0 read, 1 write, 2 atomic. -/
def rightsOk (t : Tr) (need : Nat) : Bool :=
  if need = 0 then t.r else if need = 1 then t.w else t.w && t.a

/-- A frame that a site reaches: a station's lie in the fast tier on the call's stack, under ILV 0b10 (R368). -/
def siteReach (site : Site) (t : Tr) (p : Phys) : Bool :=
  match site with
  | .station stack _ => t.ilv == 2 && p.kind == .own && decide (p.loc < Config.fastBytes) && stackOf p.loc == stack
  | .core _ => true

/-- Where ordinary memory lies, with the rights, key and route of an access (R205, R243, R368, R473, R495). -/
def resolveMem (s : State) (b : Block) (ctx ea need : Nat) : Except Nat (Tr × Phys) :=
  let tr := match b.site with
    | .core n => coreTranslate s n ctx ea
    | .station _ _ => translate s ctx ea
  match tr with
  | none => .error cXLATE
  | some t =>
    let p := t.phys s ea
    if !rightsOk t need then .error cPERM
    else if p.kind ≠ .host ∧ (keyGenOf s t.key).isNone then .error cPERM
    else if p.kind ≠ .own ∧ !routed s (t.pa ea) then .error cPERM
    else if siteReach b.site t p then .ok (t, p)
    else .error cPERM

/-- A generic address for an access of n bytes (R13 to R15, R205). -/
def resolve (s : State) (h : LaunchHdr) (b : Block) (ctx ea n need : Nat) : Except Nat Target :=
  if windowOf ea then
    match resolveWindow s h b ea n with
    | .error c => .error c
    | .ok (bid, off) => if off % n = 0 then .ok (.scr bid off) else .error cALIGN
  else if ea % n ≠ 0 then .error cALIGN
  else match resolveMem s b ctx ea need with
    | .error c => .error c
    | .ok (t, p) => .ok (.mem t p)

/-- The local-window address of an own-scratchpad offset (R201). -/
def localAddr (off : Nat) : W64 := w64 (Config.localWindow + off)

end Sys2Proof.Machine
end

