-- ==== Sys2Proof/Machine/Operands.lean ====
section
/-! DEFINITION. How an instruction issues: the registers its fields name, the passes and the encoded schedule (R12, R76 to
R79), the checks in their order (R80), reading and writing operands (R63, R64, R133), and the marks of probe mode (R252,
R253). A meaning is a `Form` (what it reads and writes) and an effect on a `Ctx`. -/

namespace Sys2Proof.Machine

/-- A field of an instruction: an operand code with the number of registers it covers, a mask, one word of a mask (that a
scalar operand's low five bits name), or an index register. `i` is the field's place: 0 to 3 for a to d, 4 for the
execution mask. -/
inductive Field where
  | opnd (i : Nat) (o : Opnd) (n : Nat)
  | mask (i k : Nat)
  | mword (i k : Nat) (b : Opnd)
  | idx (i q : Nat)
  deriving DecidableEq, Repr

/-- How an instruction passes over the lanes (R12, R64, R77): a pass a word; a pass a word with every source read in the
first; one pass under the execution mask; one pass on the scalar pipe, which ignores it. -/
inductive Pass where
  | vec | cross | ctl | scalar
  deriving DecidableEq, Repr

/-- What an instruction does in probe mode (R252, R253): it executes and marks; it ends the probe; it is discarded and its
destinations are 0, marked; its meaning says. -/
inductive ProbeK where
  | run | ends | zero | own
  deriving DecidableEq, Repr

/-- What of an instruction the schedule and the checks see. `lat` is L of R76, none for variable latency. -/
structure Form where
  srcs : List Field
  dsts : List Field
  pass : Pass
  lat : Option Nat
  probe : ProbeK
  /-- runs on a station (R90) -/
  sta : Bool
  /-- needs a privileged launch (R81) -/
  prv : Bool
  deriving DecidableEq, Repr

/-- What an instruction's words say beside its operands. -/
structure Iss where
  len : Nat
  /-- bits [1:0] of the first word -/
  ilen : Nat
  stall : Nat
  kmask : Nat
  kinv : Bool
  lit : W32
  deriving DecidableEq, Repr

def issOf (h : Hdr) : Iss :=
  match h.lit with
  | none => ⟨8, 1, h.stall.toNat, h.kmask.val, h.kinv, 0⟩
  | some w => ⟨12, 2, h.stall.toNat, h.kmask.val, h.kinv, w⟩

/-- A full form's header as a compact word issues it: four bytes (R71). -/
def cissOf (h : Hdr) : Iss := ⟨4, 0, h.stall.toNat, h.kmask.val, h.kinv, h.lit.getD 0⟩

/-- An instruction as it executes. `s` is the state with the issue recorded and the pc moved past it; registers are read from
`e`, as they stood before. -/
structure Ctx where
  e : Env
  s : State
  iss : Iss
  /-- the lanes that take part -/
  m : LaneMask
  /-- undersized reads (R79): field, register, word -/
  bad : List (Nat × RegKey × Nat)
  deriving DecidableEq, Repr

/-- What an instruction comes to. -/
inductive Res where
  /-- it has its effect -/
  | done (s : State)
  /-- it traps, with no effect -/
  | trap (cause : Nat) (trapa : W64) (lane : Nat)
  /-- it meets a missing translation (R251) -/
  | miss (va : W64) (lane : Nat)
  /-- it does not issue yet -/
  | hold (w : Wait)
  deriving DecidableEq, Repr

/-! Registers that fields name. -/

def Field.place : Field → Nat
  | .opnd i _ _ => i
  | .mask i _ => i
  | .mword i _ _ => i
  | .idx i _ => i

/-- What `%trapa` holds for an undersized source (R79). -/
def Field.code : Field → Nat
  | .opnd _ o _ => opndCode o
  | .mask _ k => 0x100 + k
  | .mword _ k _ => 0x100 + k
  | .idx _ q => 0xF0 + q

/-- The registers a field names by its own code. -/
def Field.keys : Field → List RegKey
  | .opnd _ (.v r) n => (List.range n).map fun k => .v (r.val + k)
  | .opnd _ (.s r) n => (List.range n).map fun k => .s (r.val + k)
  | .opnd _ _ _ => []
  | .mask _ k => if k = 0 then [] else [.k k]
  | .mword _ k _ => if k = 0 then [] else [.k k]
  | .idx _ q => [.x q]

/-- The index register a field selects through. -/
def Field.via : Field → Option Nat
  | .opnd _ (.x q) _ => some q.val
  | _ => none

/-- The vector register an index register value selects (R133). -/
def xReg (x : W32) : Nat := xBase x + xIndex x

/-! The execution mask and the passes. -/

/-- k0 ∩ execution mask (R62). -/
def execMask (e : Env) (i : Iss) : LaneMask :=
  let k := e.team.getK e.rcd i.kmask
  e.rcd.k0 &&& (if i.kinv then ~~~k else k)

/-- The lanes that take part: on the scalar pipe the mask is ignored (R64). -/
def passMask (e : Env) (f : Form) (i : Iss) : LaneMask :=
  match f.pass with
  | .scalar => e.rcd.k0
  | _ => execMask e i

/-- The words of the instruction's passes, in order. -/
def passWords (e : Env) (m : LaneMask) : List Nat := liveWords m e.pw e.team.lanes

/-- w of R77. -/
def passCount (e : Env) (f : Form) (m : LaneMask) : Nat :=
  match f.pass with
  | .vec | .cross => max (passWords e m).length 1
  | .ctl | .scalar => 1

/-- The words of the team, live or not. -/
def teamWords (e : Env) : List Nat := List.range ((e.team.lanes + e.pw - 1) / e.pw)

/-- The words of a source that a form reads: a cross-lane instruction reads every one (R77, R158). -/
def srcWords (e : Env) (f : Form) (m : LaneMask) : List Nat :=
  match f.pass with
  | .cross => teamWords e
  | _ => passWords e m

/-- The lanes whose index registers a source field selects through. -/
def srcLanes (e : Env) (f : Form) (m : LaneMask) : List Nat :=
  match f.pass with
  | .cross => maskLanes e.rcd.k0 e.team.lanes
  | _ => maskLanes m e.team.lanes

/-- A result for a register's word is still on its way at an encoded time (R77). A scalar is one word. -/
def lateAt (r : Record) (key : RegKey) (w t : Nat) : Bool :=
  r.pend.any fun p => p.key == key && p.word == w && decide (t < p.at_)

/-- The rank of a word's pass. -/
def rankOf (f : Form) (ws : List Nat) (w : Nat) : Nat :=
  match f.pass with
  | .vec => ws.findIdx fun j => j == w
  | _ => 0

/-- The undersized reads of one register that a field names by its code. -/
def lateKey (e : Env) (f : Form) (ws : List Nat) (i : Nat) (key : RegKey) : List (Nat × RegKey × Nat) :=
  match key with
  | .s _ => if lateAt e.rcd key 0 e.rcd.etime then [(i, key, 0)] else []
  | _ => (ws.filter fun w => lateAt e.rcd key w (e.rcd.etime + rankOf f ws w)).map fun w => (i, key, w)

/-- The value of a scalar or literal operand as it stands. -/
def Env.scalarNow (e : Env) (lit : W32) : Opnd → Nat
  | .s n => (e.team.getS n.val).toNat
  | .lit => lit.toNat
  | .ones => 2 ^ 32 - 1
  | _ => 0

/-- The words that hold the 32 lanes of a mask's word b[4:0] (R158). -/
def Env.maskWord (e : Env) (b : Nat) : List Nat :=
  if e.pw = 16 then [2 * (b % 32), 2 * (b % 32) + 1] else [b % 32]

/-- The undersized reads of a source field (R77, R79). A field that selects through x_n reads x_n and the registers its lanes
select. -/
def lateField (e : Env) (f : Form) (lit : W32) (m : LaneMask) (ws : List Nat) (fd : Field) : List (Nat × RegKey × Nat) :=
  match fd with
  | .mword i k b => lateKey e f (e.maskWord (e.scalarNow lit b)) i (.k k)
  | .opnd i (.x q) n =>
    lateKey e f ws i (.x q.val) ++
      (srcLanes e f m).flatMap fun l =>
        let w := l / e.pw
        ((List.range n).filter fun k =>
            lateAt e.rcd (.v (xReg (e.team.getX q.val l) + k)) w (e.rcd.etime + rankOf f ws w)).map fun k =>
          (i, .v (xReg (e.team.getX q.val l) + k), w)
  | fd => fd.keys.flatMap (lateKey e f ws fd.place)

/-- The words whose execution mask a form reads: a single pass reads those of every live word. -/
def maskWords (e : Env) (f : Form) (ws : List Nat) : List Nat :=
  match f.pass with
  | .ctl => passWords e e.rcd.k0
  | .scalar => []
  | _ => ws

/-- Every undersized read in R79's order: the sources, a destination's index register, then the execution mask. -/
def lateReads (e : Env) (f : Form) (i : Iss) (m : LaneMask) : List (Field × List (Nat × RegKey × Nat)) :=
  if e.rcd.pend.isEmpty then []
  else
    let ws := passWords e m
    let srcs := f.srcs.map fun fd => (fd, lateField e f i.lit m (srcWords e f m) fd)
    let dsts := f.dsts.map fun fd =>
      (fd, match fd.via with
        | some q => lateKey e f ws fd.place (.x q)
        | none => [])
    let k := Field.mask 4 i.kmask
    let mask := (k, k.keys.flatMap (lateKey e f (maskWords e f ws) 4))
    (srcs ++ dsts ++ [mask]).filter fun p => !p.2.isEmpty

/-- Bits of the undersized words of the execution mask are free values (R79). -/
def freeMask (e : Env) (i : Iss) (bad : List (Nat × RegKey × Nat)) (m : LaneMask) : LaneMask :=
  bad.foldl (fun m b =>
    if b.1 = 4 then
      let lanes := (List.range e.pw).map fun k => e.pw * b.2.2 + k
      lanes.foldl (fun m l =>
        let bit := (Config.undersized (8 * e.s.freeCtr + 4) l).getLsbD 0 != i.kinv
        if bit && e.rcd.k0.getLsbD l then m ||| laneBit l else m &&& ~~~laneBit l) m
    else m) m

/-! Index registers (R133). -/

/-- x_q of a lane as the instruction reads it; undersized, a free value. -/
def Ctx.xval (c : Ctx) (q l : Nat) : W32 :=
  if c.bad.any fun b => b.2.1 == .x q && b.2.2 == l / c.e.pw then Config.undersized (8 * c.e.s.freeCtr + 5) (1024 * q + l)
  else c.e.team.getX q l

/-- A lane's selection breaks R133. -/
def idxBad (alloc n : Nat) (x : W32) : Bool :=
  decide (xBound x ≤ xIndex x) || decide (alloc < xBase x + xBound x)
    || (decide (2 ≤ n) && (xReg x % (if n ≤ 2 then 2 else 4) != 0 || decide (xBound x ≤ xIndex x + (n - 1))))

/-- The first lane and index register that break R133. -/
def Ctx.idxFault (c : Ctx) (f : Form) : Option (Nat × Nat) :=
  let fds := (f.srcs ++ f.dsts).filterMap fun fd =>
    match fd with
    | .opnd _ (.x q) n => some (q.val, n)
    | _ => none
  if fds.isEmpty then none
  else (maskLanes c.m c.e.team.lanes).findSome? fun l =>
    (fds.find? fun p => idxBad c.e.rcd.alloc p.2 (c.xval p.1 l)).map fun p => (l, p.1)

/-- The index registers an instruction names. -/
def Form.indexes (f : Form) : List Nat := ((f.srcs ++ f.dsts).filterMap Field.via).dedup

/-- The post-step (R133): once per instruction for each index register named. -/
def postStep (m : LaneMask) (fs : List Nat) (t : Team) : Team :=
  fs.foldl (fun t q => (maskLanes m t.lanes).foldl (fun t l =>
    let x := t.getX q l
    t.setX q l (xWithIndex x ((xIndex x + xStep x) % 256))) t) t

/-! Ready bits and locks (R76, R135). -/

/-- The registers a form names, with those its lanes select; and those of them that it writes. -/
def Ctx.named (c : Ctx) (fds : List Field) : List RegKey :=
  fds.flatMap fun fd =>
    match fd with
    | .opnd _ (.x q) n => (maskLanes c.m c.e.team.lanes).flatMap fun l =>
        (List.range n).map fun k => .v (xReg (c.xval q.val l) + k)
    | fd => fd.keys

/-- A ready bit is clear or a lock bit set for a register that would be read or written. -/
def busyKeys (t : Team) (reads writes : List RegKey) : Bool :=
  (reads ++ writes).any (fun k => t.unready.contains k) ||
    writes.any fun k =>
      match k with
      | .v n => t.locks.any fun p => p.1 == n
      | _ => false

/-! The checks before the effect (R80). -/

/-- The first vector register named by its code at or above the allocation (R132); of several the fields a, b, c come before d
(log entry 114). -/
def budgetFault (e : Env) (f : Form) : Option Nat :=
  (f.srcs ++ f.dsts).findSome? fun fd =>
    match fd with
    | .opnd _ (.v r) n => if e.rcd.alloc < r.val + n then some (max r.val e.rcd.alloc) else none
    | _ => none

/-- A vector register from v64 on is named, on a station (R80). -/
def stationReg (f : Form) : Bool :=
  (f.srcs ++ f.dsts).any fun fd =>
    match fd with
    | .opnd _ (.v r) n => decide (64 < r.val + n)
    | _ => false

/-- What the checks say. -/
inductive Gate where
  | go (c : Ctx)
  | wait
  | trap (cause : Nat) (trapa : W64) (lane : Nat)
  deriving DecidableEq, Repr

def Env.low (e : Env) (m : LaneMask) : Nat :=
  ((lowLane m e.team.lanes).orElse fun _ => lowLane e.rcd.k0 e.team.lanes).getD 0

/-- STALLX is checked (`%mode.sbchk`, R146). -/
def Team.sbchk (t : Team) : Bool := t.mode.getLsbD 0

/-- The place in R80's order of what a body's checks say; one that goes on stands last. Ready bits and locks let neither issue
before its operands count (R76, R135). -/
def Gate.phase : Gate → Nat
  | .go _ => 9
  | .wait => 1
  | .trap cause _ _ =>
    if cause = cILLOP then 0 else if cause = cPRIV then 2 else if cause = cBUDGET then 3 else if cause = cSTALLX then 4 else 5

/-- The first stop of two bodies' checks in R80's order; within one step of it body A's fields and mask come before body B's
(log entry 113). -/
def Gate.first (a b : Gate) : Gate := if b.phase < a.phase then b else a

/-- THE CHECKS OF R80 in order, for one body. Neither ready bits nor locks let an instruction issue. -/
def gate (f : Form) (i : Iss) (e : Env) : Gate :=
  let m := passMask e f i
  let low := e.low m
  if e.station && (!f.sta || stationReg f) then .trap cILLOP 0 low
  else if busyKeys e.team ((f.srcs ++ [Field.mask 4 i.kmask]).flatMap Field.keys) (f.dsts.flatMap Field.keys) then .wait
  else if f.prv && !e.la.priv then .trap cPRIV 0 low
  else match budgetFault e f with
    | some r => .trap cBUDGET (w64 r) low
    | none =>
      match lateReads e f i m with
      | (fd, l) :: rest =>
        if e.team.sbchk then .trap cSTALLX (w64 fd.code) low
        else
          let bad := ((fd, l) :: rest).flatMap Prod.snd
          let c : Ctx := ⟨e, e.s, i, freeMask e i bad m, bad⟩
          match c.idxFault f with
          | some (l, q) => .trap cIDXB (w64 q) l
          | none => if busyKeys e.team (c.named f.srcs) (c.named f.dsts) then .wait else .go c
      | [] =>
        let c : Ctx := ⟨e, e.s, i, m, []⟩
        match c.idxFault f with
        | some (l, q) => .trap cIDXB (w64 q) l
        | none => if busyKeys e.team (c.named f.srcs) (c.named f.dsts) then .wait else .go c

/-! Operand values (R63). -/

def Ctx.isBad (c : Ctx) (i : Nat) (key : RegKey) (l : Nat) : Bool :=
  c.bad.any fun b => b.1 == i && b.2.1 == key && (b.2.2 == l / c.e.pw || (match key with
    | .s _ => true
    | _ => false))

/-- The k-th register of a field in a lane; undersized, a free value (R79). -/
def Ctx.rdReg (c : Ctx) (i : Nat) (o : Opnd) (k l : Nat) : W32 :=
  let free (key : RegKey) (v : W32) : W32 :=
    if c.bad.isEmpty then v
    else if c.isBad i key l then Config.undersized (8 * c.e.s.freeCtr + i) (1024 * k + l) else v
  match o with
  | .v r => free (.v (r.val + k)) (c.e.team.getV (r.val + k) l)
  | .s r => free (.s (r.val + k)) (c.e.team.getS (r.val + k))
  | .x q => let r := xReg (c.xval q.val l) + k; free (.v r) (c.e.team.getV r l)
  | .zero => 0
  | .lane => if k = 0 then w32 l else 0
  | .lit => if k = 0 then c.iss.lit else 0
  | .ones => 0xFFFFFFFF

/-- A 32-bit source in a lane. -/
def Ctx.rd (c : Ctx) (i : Nat) (o : Opnd) (l : Nat) : W32 := c.rdReg i o 0 l

/-- A 64-bit source; `sx` for a signed type, whose literal is sign-extended (R63). -/
def Ctx.rd64 (c : Ctx) (i : Nat) (o : Opnd) (sx : Bool) (l : Nat) : W64 :=
  match o with
  | .lit => if sx then c.iss.lit.signExtend 64 else c.iss.lit.zeroExtend 64
  | o => pairVal (c.rdReg i o 0 l) (c.rdReg i o 1 l)

/-- A source of n registers as a number. -/
def Ctx.rdN (c : Ctx) (i : Nat) (o : Opnd) (n l : Nat) : Nat :=
  (List.range n).foldr (fun k acc => (c.rdReg i o k l).toNat + 2 ^ 32 * acc) 0

/-- A uniform source. -/
def Ctx.uni (c : Ctx) (i : Nat) (o : Opnd) : W32 := c.rd i o 0
def Ctx.uni64 (c : Ctx) (i : Nat) (o : Opnd) : W64 := c.rd64 i o false 0

/-- A mask source; bits of undersized words are free values. -/
def Ctx.rdMask (c : Ctx) (i k : Nat) : LaneMask :=
  let v := c.e.team.getK c.e.rcd k
  c.bad.foldl (fun v b =>
    if b.1 = i ∧ b.2.1 = .k k then
      ((List.range c.e.pw).map fun j => c.e.pw * b.2.2 + j).foldl (fun v l =>
        if (Config.undersized (8 * c.e.s.freeCtr + i) l).getLsbD 0 then v ||| laneBit l else v &&& ~~~laneBit l) v
    else v) v

/-- The lanes that take part, ascending. -/
def Ctx.lanes (c : Ctx) : List Nat := maskLanes c.m c.e.team.lanes

/-! Recording an issue. -/

/-- The registers and words that a destination field of a form takes: through x_n, each word of a register that one of its
lanes selects; of one word of a mask, that word alone. -/
def Ctx.dstWords (c : Ctx) (ws : List Nat) (fd : Field) : List (RegKey × Nat) :=
  match fd with
  | .opnd _ (.x q) n =>
    (c.lanes.flatMap fun l => (List.range n).map fun k => (RegKey.v (xReg (c.xval q.val l) + k), l / c.e.pw)).dedup
  | .mword i k b =>
    (ws.filter fun w => (c.e.maskWord (c.rd i b 0).toNat).contains w).map fun w => (.k k, w)
  | fd => fd.keys.flatMap fun key =>
    match key with
    | .s _ => [(key, 0)]
    | _ => ws.map fun w => (key, w)

/-- The results that a fixed-latency form leaves on their way (R77): word j in the pass of rank j, also of a cross-lane form; in
the single pass of an engine major all words; a scalar in the last pass (R194). -/
def newPends (c : Ctx) (f : Form) : List Pend :=
  match f.lat with
  | none => []
  | some lat =>
    let ws := passWords c.e c.m
    let t := c.e.rcd.etime
    let wr : Form := match f.pass with
      | .cross => { f with pass := .vec }
      | _ => f
    f.dsts.flatMap fun fd => (c.dstWords ws fd).map fun p =>
      match p.1 with
      | .s _ => ⟨p.1, 0, t + (passCount c.e f c.m - 1) + lat⟩
      | _ => ⟨p.1, p.2, t + rankOf wr ws p.2 + lat⟩

/-- Older results for the same register and word give way; results available by `now` are forgotten. -/
def mergePends (now : Nat) (old new : List Pend) : List Pend :=
  (old.filter fun p => decide (now < p.at_) && !(new.any fun q => q.key == p.key && q.word == p.word))
    ++ new.filter fun p => decide (now < p.at_)

/-- The issue recorded (R77, R128, R129): the next encoded time, results on their way, cleared ready bits of a
variable-latency form, the pc past the instruction. An empty mask leaves no result (R12). -/
def beginIssue (fs : List (Form × Ctx)) (e : Env) (i : Iss) : State :=
  let w := fs.foldl (fun n p => max n (passCount e p.1 p.2.m)) 1
  let t' := e.rcd.etime + (w - 1) + max i.stall 1
  let live := fs.filter fun p => !(p.2.m == 0)
  let new := live.flatMap fun p => newPends p.2 p.1
  let unr := live.flatMap fun p => if p.1.lat.isSome then [] else (p.2.named p.1.dsts).map fun k => (k, p.2.m)
  let s : State := { e.s with issueCtr := e.s.issueCtr + 1, freeCtr := e.s.freeCtr + 1 }
  s.modTeam e.who.bid e.who.team fun t =>
    let count : Probe → Probe := fun p => { p with issued := p.issued + 1 }
    let t : Team := { t with waits := t.waits ++ unr, probe := t.probe.map count }
    t.modRec e.who.sub fun r =>
      { r with pc := r.pc + w64 i.len, etime := t', pend := mergePends t' r.pend new, yielded := false, aged := false,
               wait := .ready, readySince := e.s.time, issuedAt := e.s.issueCtr }

/-! Results. -/

def Ctx.modTeam (c : Ctx) (s : State) (f : Team → Team) : State := s.modTeam c.e.who.bid c.e.who.team f

/-- The k-th register of a destination in a lane. -/
def Ctx.putReg (c : Ctx) (d : Opnd) (k l : Nat) (v : W32) (t : Team) : Team :=
  match d with
  | .v r => t.setV (r.val + k) l v
  | .s r => t.setS (r.val + k) v
  | .x q => t.setV (xReg (c.xval q.val l) + k) l v
  | _ => t

/-- The low n registers of a number in one lane. -/
def Ctx.putLane (c : Ctx) (d : Opnd) (n l v : Nat) (t : Team) : Team :=
  (List.range n).foldl (fun t k => c.putReg d k l (w32 (v / 2 ^ (32 * k))) t) t

/-- A destination of n registers in the lanes of a list: a scalar takes one value, that of lane 0's call (R64). -/
def Ctx.putOn (c : Ctx) (ls : List Nat) (d : Opnd) (n : Nat) (f : Nat → Nat) (s : State) : State :=
  match d with
  | .s _ => c.modTeam s fun t => c.putLane d n 0 (f 0) t
  | .zero => s
  | _ => c.modTeam s fun t => ls.foldl (fun t l => c.putLane d n l (f l) t) t

def Ctx.put (c : Ctx) (d : Opnd) (f : Nat → W32) (s : State) : State := c.putOn c.lanes d 1 (fun l => (f l).toNat) s
def Ctx.put64 (c : Ctx) (d : Opnd) (f : Nat → W64) (s : State) : State := c.putOn c.lanes d 2 (fun l => (f l).toNat) s

/-- A team-uniform result. -/
def Ctx.putUni (c : Ctx) (d : Opnd) (n v : Nat) (s : State) : State := c.putOn c.lanes d n (fun _ => v) s

/-! Marks of probe mode (R252). -/

/-- A register's mark in a lane. -/
def Probe.markedReg (p : Probe) (key : RegKey) (l : Nat) : Bool :=
  match key with
  | .v n => p.pv.contains (vKey n l)
  | .s n => p.ps.contains n
  | .x n => p.px.contains (vKey n l)
  | .k n => p.pk.contains n

/-- A source field is marked in a lane. -/
def Ctx.markedAt (c : Ctx) (fds : List Field) (l : Nat) : Bool :=
  match c.e.team.probe with
  | none => false
  | some p => fds.any fun fd =>
      match fd with
      | .opnd _ (.x q) n => p.markedReg (.x q.val) l
          || (List.range n).any fun k => p.markedReg (.v (xReg (c.xval q.val l) + k)) l
      | fd => fd.keys.any fun k => p.markedReg k l

def setMark (b : Bool) (k : Nat) (l : List Nat) : List Nat :=
  if b then (if l.contains k then l else k :: l) else l.filter fun j => j != k

/-- A destination's marks in the lanes of a list; a scalar or mask has one, set when any of them is. -/
def Ctx.markDst (c : Ctx) (fd : Field) (ls : List Nat) (mk : Nat → Bool) (p : Probe) : Probe :=
  match fd with
  | .opnd _ (.x q) n =>
    let one : Nat → Probe → Nat → Probe := fun l p k =>
      { p with pv := setMark (mk l) (vKey (xReg (c.xval q.val l) + k) l) p.pv }
    ls.foldl (fun p l => (List.range n).foldl (one l) p) p
  | .idx _ q => ls.foldl (fun p l => { p with px := setMark (mk l) (vKey q l) p.px }) p
  | fd => fd.keys.foldl (fun p key =>
      match key with
      | .v n => ls.foldl (fun p l => { p with pv := setMark (mk l) (vKey n l) p.pv }) p
      | .s n => { p with ps := setMark (ls.any mk) n p.ps }
      | .k n => { p with pk := setMark (ls.any mk) n p.pk }
      | .x _ => p) p

def Ctx.mark (c : Ctx) (fds : List Field) (mk : Nat → Bool) (s : State) : State :=
  let all : Probe → Probe := fun p => fds.foldl (fun p fd => c.markDst fd c.lanes mk p) p
  c.modTeam s fun t => { t with probe := t.probe.map all }

/-- Every source of a form, with the execution mask. -/
def Form.allSrcs (f : Form) (i : Iss) : List Field := f.srcs ++ [.mask 4 i.kmask]

/-- The marks of an executed form: per lane on the vector pipe; where a cross-lane source is marked in any lane, all. -/
def Ctx.markRun (c : Ctx) (f : Form) (s : State) : State :=
  if c.e.probing then
    match f.pass with
    | .vec => c.mark f.dsts (fun l => c.markedAt (f.allSrcs c.iss) l) s
    | _ =>
      let any := c.lanes.any fun l => c.markedAt (f.allSrcs c.iss) l
      c.mark f.dsts (fun _ => any) s
  else s

/-- The marks of a cross-lane result whose lanes read different lanes of their sources (R252): `mk` says of a lane whether what it
read is marked. -/
def Ctx.markLanes (c : Ctx) (fd : Field) (mk : Nat → Bool) (s : State) : State :=
  if c.e.probing then c.mark [fd] (fun l => c.markedAt [.mask 4 c.iss.kmask] l || mk l) s else s

/-- Every destination 0 and marked; a mask keeps its bits (R252). -/
def Ctx.zeroDsts (c : Ctx) (f : Form) (s : State) : State :=
  f.dsts.foldl (fun s fd =>
    match fd with
    | .opnd _ d n => c.mark [fd] (fun _ => true) (c.putUni d n 0 s)
    | _ => s) s

/-! Issuing. -/

/-- The issuing record waits where it stands: the pc returns to the instruction. -/
def Ctx.waitHere (c : Ctx) (w : Wait) (s : State) : State :=
  c.modTeam s fun t => (t.modRec c.e.who.sub fun r => { r with pc := c.e.rcd.pc }).waitAt c.e.who.sub w

/-- After the effect: the post-step, and fusion (R123). In probe mode the team's 4,096th instruction or 64th page ends it, and the
launch's 256th page that of all its teams (R253). -/
def finish (fs : List (Form × Ctx)) (e : Env) (s : State) : State :=
  let s := s.modTeam e.who.bid e.who.team fun t =>
    let t := fs.foldl (fun t p => postStep p.2.m p.1.indexes t) t
    let t := t.fuse s.time
    match t.probe with
    | some p => if 4096 ≤ p.issued ∨ 64 ≤ p.pages.length then t.endProbe else t
    | none => t
  if e.probing && batchFull s e.la.q e.la.lseq then endProbes s e.la.q e.la.lseq else s

/-- The effect of one body as the mode has it (R12, R252, R253): an empty mask has none, probe mode discards or ends. -/
def bodyEffect (f : Form) (c : Ctx) (eff : Ctx → Res) : Res :=
  if c.m = 0 then .done c.s
  else if c.e.probing then
    match f.probe with
    | .zero => .done (c.zeroDsts f c.s)
    | .run =>
      match eff c with
      | .done s => .done (c.markRun f s)
      | r => r
    | _ => eff c
  else eff c

/-- How a result ends: taking a trap (R80, R143), starting run-ahead (R251), waiting, or going on. -/
def conclude (fs : List (Form × Ctx)) (e : Env) (i : Iss) : Res → State
  | .done s => finish fs e s
  | .trap cause trapa lane => takeTrap e cause trapa lane i.ilen
  | .miss va lane => takeMiss e va lane i.ilen
  | .hold w => holdAs w e.who e.s

/-- One instruction of one body, issued by a sub-team. -/
def runForm (f : Form) (i : Iss) (eff : Ctx → Res) (e : Env) : State :=
  if e.probing && f.probe == .ends then e.s.modTeam e.who.bid e.who.team Team.endProbe
  else match gate f i e with
    | .wait => holdAs .register e.who e.s
    | .trap cause trapa lane => takeTrap e cause trapa lane i.ilen
    | .go c =>
      let c := { c with s := beginIssue [(f, c)] e i }
      conclude [(f, c)] e i (bodyEffect f c eff)

/-- The meaning of a form: what the issuing sub-team does. -/
def issueForm (f : Form) (i : Iss) (eff : Ctx → Res) (s : State) : Host.Outcome State Fault Refusal :=
  match getEnv s with
  | none => .fault .noIssuer
  | some e => .next (runForm f i eff e)

/-- What a stop of the checks does. -/
def stopAt (e : Env) (ilen : Nat) : Gate → State
  | .trap cause trapa lane => takeTrap e cause trapa lane ilen
  | _ => holdAs .register e.who e.s

/-- Both bodies of a pair (R75): each reads the state before, A's effect and then B's; a trap of either leaves neither. -/
def runPair (fa fb : Form) (ia ib : Iss) (effa effb : Ctx → Res) (e : Env) : State :=
  let i : Iss := { ia with len := 8, ilen := 3 }
  if e.probing && (fa.probe == .ends || fb.probe == .ends) then e.s.modTeam e.who.bid e.who.team Team.endProbe
  else match gate fa ia e, gate fb ib e with
    | .go ca, .go cb =>
      let s := beginIssue [(fa, ca), (fb, cb)] e { i with stall := max ia.stall ib.stall }
      let fs := [(fa, { ca with s := s }), (fb, { cb with s := s })]
      match bodyEffect fa { ca with s := s } effa with
      | .done sa => conclude fs e i (bodyEffect fb { cb with s := sa } effb)
      | r => conclude fs e i r
    | ga, gb => stopAt e i.ilen (ga.first gb)

def issuePair (fa fb : Form) (ia ib : Iss) (effa effb : Ctx → Res) (s : State) : Host.Outcome State Fault Refusal :=
  match getEnv s with
  | none => .fault .noIssuer
  | some e => .next (runPair fa fb ia ib effa effb e)

/-! Common shapes of forms. -/

/-- An arithmetic form: on the scalar pipe where the destination is scalar (R64). -/
def arithForm (srcs : List Field) (d : Opnd) (n lat : Nat) : Form :=
  ⟨srcs, [.opnd 3 d n], if opIsS d then .scalar else .vec, some lat, .run, true, false⟩

def fA (o : Opnd) (n : Nat) : Field := .opnd 0 o n
def fB (o : Opnd) (n : Nat) : Field := .opnd 1 o n
def fC (o : Opnd) (n : Nat) : Field := .opnd 2 o n
def fD (o : Opnd) (n : Nat) : Field := .opnd 3 o n

/-- A form of a control or engine major, which issues in one pass (R77). -/
def ctlForm (srcs dsts : List Field) (probe : ProbeK) (sta : Bool) : Form :=
  ⟨srcs, dsts, .ctl, none, probe, sta, false⟩

/-- A scalar destination. -/
def dstScalar : Field → Bool
  | .opnd _ o _ => opIsS o
  | _ => false

/-- A form of a memory, register-management or system major that acts once for the sub-team: it passes over the live words as any
other does (R77). -/
def teamForm (srcs dsts : List Field) (probe : ProbeK) (sta prv : Bool) : Form := ⟨srcs, dsts, .vec, none, probe, sta, prv⟩

end Sys2Proof.Machine
end

