-- ==== Sys2Proof/Machine/Flags.lean ====
section
/-! DEFINITION. The masks, which are this machine's flags: writing them (R118), and the comparisons that compute them (R172,
R184, R185, R198, R199). -/

namespace Sys2Proof.Machine

/-- A meaning of one body: what the schedule sees and the effect. -/
structure Op where
  form : Form
  eff : Ctx → Res

/-- A meaning as a full form issues it. -/
def Op.run (o : Op) (i : Iss) (s : State) : Host.Outcome State Fault Refusal := issueForm o.form i o.eff s

/-- The meaning of a word whose fields name no instruction (R80). -/
def Op.illegal : Op := ⟨ctlForm [] [] .run true, fun c => .trap cILLOP 0 (c.e.low c.m)⟩

/-- The bits of the lanes of a mask, from a predicate. -/
def maskFrom (ls : List Nat) (p : Nat → Bool) : LaneMask := maskOf (ls.filter p)

/-- A mask register's bits in the lanes that take part (R118). -/
def Ctx.putMask (c : Ctx) (kd : Nat) (m : LaneMask) (s : State) : State :=
  c.modTeam s fun t => t.setK kd (maskMerge (t.getK c.e.rcd kd) m c.m)

/-- A compare: bit l of kd by a predicate of the lane. -/
def Ctx.putPred (c : Ctx) (kd : Nat) (p : Nat → Bool) (s : State) : State := c.putMask kd (maskFrom c.lanes p) s

/-- A form that writes a mask per lane; always on the vector pipe (R167). -/
def maskForm (srcs : List Field) (kd lat : Nat) : Form := ⟨srcs, [.mask 3 kd], .vec, some lat, .run, true, false⟩

/-- The integer comparisons (R172). -/
def icmpHolds (k : ICmp) (a b : Int) : Bool :=
  match k with
  | .eq => decide (a = b)
  | .ne => decide (a ≠ b)
  | .lt => decide (a < b)
  | .le => decide (a ≤ b)

/-- The float comparisons (R184): −0 equals +0. -/
def fcmpHolds (k : FCmp) (a b : FVal) : Bool :=
  let un := a.isNan || b.isNan
  let c := a.cmp b
  match k with
  | .lt => !un && c == -1
  | .le => !un && decide (c ≤ 0)
  | .eq => !un && c == 0
  | .ne => un || c != 0
  | .gt => !un && c == 1
  | .ge => !un && decide (0 ≤ c)
  | .ord => !un
  | .un => un

/-- The bit of the class set that an element's class is (R185). -/
def fclassBit (f : FFmt) (bits : Nat) : Nat :=
  let sub := bits / 2 ^ f.frac % 2 ^ f.expo == 0
  match f.decode bits with
  | .nan => 8
  | .inf s => if s then 0 else 7
  | .fin s m _ =>
    if m = 0 then (if s then 3 else 4)
    else if sub then (if s then 2 else 5)
    else (if s then 1 else 6)

end Sys2Proof.Machine
end

