-- ==== Sys2Proof/Machine/Fetch.lean ====
section
/-! DEFINITION. Instruction fetch (R58 to R60, R80, R89, R250). -/

namespace Sys2Proof.Machine

/-- Memory with the lines that dies hold dirty written into it: what a launch's code image is taken from (R89). -/
def imageOf (s : State) : Memory :=
  s.lines.foldl (fun m c => if c.dirty && c.stamp.isNone then putLine m c.line c.data else m) s.mem

/-- The state with memory as it stood when the launch became eligible. -/
def codeView (s : State) (la : Launch) : State := { s with mem := la.code, lines := [], mpoison := [] }

/-- The translation of an address as an issuing block's site sees it. -/
def siteTranslate (s : State) (b : Block) (ctx va : Nat) : Option Tr :=
  match b.site with
  | .core n => coreTranslate s n ctx va
  | .station _ _ => translate s ctx va

/-- n bytes of code at a virtual address of one page, as they stood at eligibility. -/
def codeBytes (s : State) (la : Launch) (t : Tr) (va n : Nat) : List Byte :=
  let v := codeView s la
  let t := (findLeaf v la.ctx va).getD t
  (linePieces va (n + 1) n).flatMap fun p => homeBytes v (t.phys v p.1) p.2

/-- What a fetch gives. -/
inductive Fetched where
  | ok (i : Instr)
  | trap (cause : Nat)
  | missing
  deriving DecidableEq, Repr

/-- The first word's bits [1:0]: the length of an instruction (R58). -/
def headLen (l : List Byte) : Nat := match wordsOf (l.take 4) with
  | w :: _ => kindLen w
  | [] => 4

/-- The line that code lies in carries poison (R463). -/
def codePoison (s : State) (b : Block) (p : Phys) : Bool :=
  if b.site.isStation then s.mpoison.contains p.line else (homeLine s p).2

/-- The instruction at an address (R59, R80, R250, R368, R463). One that would cross its fetch block traps with ILLOP. -/
def fetchAt (s : State) (b : Block) (la : Launch) (va : Nat) : Fetched :=
  match siteTranslate s b la.ctx va with
  | none => .missing
  | some t =>
    if !t.x || ((t.phys s va).kind != .host && (keyGenOf s t.key).isNone) || !siteReach b.site t (t.phys s va) then .trap cPERM
    else if codePoison s b (t.phys s va) then .trap cPOISON
    else
      let bytes := codeBytes s la t va (min 12 (64 - va % 64))
      if 64 < va % 64 + headLen bytes then .trap cILLOP
      else match decode bytes with
        | .ok (i, _) => .ok i
        | .error .pairv => .trap 0x02
        | .error _ => .trap cILLOP

/-- Whether an offset of a fetch block is an instruction start, by the lengths from the block's first word on (R59). -/
def startsAt (block : List Byte) (target : Nat) : Nat → Nat → Bool
  | 0, _ => false
  | fuel + 1, off =>
    if off = target then true
    else if target < off then false
    else startsAt block target fuel (off + headLen (block.drop off))

/-- An address is an instruction start (R60). Where its page has no translation the fetch there decides (log entry 17). -/
def isStart (s : State) (b : Block) (la : Launch) (va : Nat) : Bool :=
  va % 4 == 0 &&
    match siteTranslate s b la.ctx va with
    | none => true
    | some t => startsAt (codeBytes s la t (va / 64 * 64) 64) (va % 64) 17 0

/-- The budget that the entry word at a call target declares (R85, R141). -/
def entryBudget (s : State) (b : Block) (la : Launch) (va : Nat) : Option Nat :=
  match siteTranslate s b la.ctx va with
  | none => none
  | some t =>
    match wordsOf (codeBytes s la t va 4) with
    | w :: _ =>
      if w.toNat % 4 = 0 ∧ copBits w = 0 ∧ subBits w = 1 then some (bitsOf w.toNat 17 10) else none
    | [] => none

end Sys2Proof.Machine
end

