-- ==== Sys2Proof/Machine/Front.lean ====
section
/-! DEFINITION. What the front end does for others: reading and writing a context's memory, event-object signals (R98), records
(R112), holds on pages and their translations (R105, R244, R249), and the record area (R262). -/

namespace Sys2Proof.Machine

/-! A context's memory as the front end reaches it: by the page table, pinned or not; an unmapped page reads zero and takes no
write (log entry 18). -/

def vaPhys (s : State) (ctx va : Nat) : Option Phys := (findLeaf s ctx va).map fun t => t.phys s va

def vaRead (s : State) (ctx va n : Nat) : List Byte :=
  (linePieces va (n + 1) n).flatMap fun q =>
    match vaPhys s ctx q.1 with
    | some p => homeBytes s p q.2
    | none => List.replicate q.2 0

def vaNum (s : State) (ctx va n : Nat) : Nat := leNat (vaRead s ctx va n)

def vaWrite (s : State) (ctx va : Nat) (l : List Byte) : State :=
  (linePieces va (l.length + 1) l.length).foldl (fun s q =>
    match vaPhys s ctx q.1 with
    | some p => devWrite s p ctx ((l.drop (q.1 - va)).take q.2)
    | none => s) s

/-- A signal on an event object (R98): bits [2:0] of the address say store or add. -/
def signalDo (s : State) (ctx : Nat) (sig : W64 × W64) : State :=
  let a := sig.1.toNat / 8 * 8
  let v := if sig.1.toNat % 8 = 1 then vaNum s ctx a 8 + sig.2.toNat else sig.2.toNat
  vaWrite s ctx a (leBytes 8 v)

/-! Records. -/

/-- What a record says (R112). -/
structure Rec where
  kind : Nat
  op : Nat
  status : Nat
  tag : W32
  off : Nat
  lseq : Nat
  trapc : Nat
  reason : Nat
  npages : Nat
  trappc : W64
  trapa : W64
  wid : W64
  batch : W64
  deriving DecidableEq, Repr

def Rec.plain (kind op status : Nat) (tag : W32) (off lseq : Nat) : Rec :=
  ⟨kind, op, status, tag, off, lseq, 0, 0, 0, 0, 0, 0, 0⟩

/-- The 64 bytes, the posting time left 0. -/
def Rec.bytes (r : Rec) : List Byte :=
  leBytes 1 r.kind ++ leBytes 1 r.op ++ leBytes 2 r.status ++ leBytes 4 r.tag.toNat ++ leBytes 4 r.off ++ leBytes 4 r.lseq
    ++ leBytes 8 0 ++ leBytes 1 r.trapc ++ leBytes 1 r.reason ++ leBytes 2 r.npages ++ leBytes 4 0
    ++ leBytes 8 r.trappc.toNat ++ leBytes 8 r.trapa.toNat ++ leBytes 8 r.wid.toNat ++ leBytes 8 r.batch.toNat

/-- The completion ring has room (R112). -/
def ringRoom (s : State) (q : Nat) : Bool :=
  let b := qBase q
  let n := 2 ^ ((bar s (b + 0x28)).toNat % 16)
  decide (((bar s (b + 0x2C)) - (bar s (b + 0x30))).toNat < n)

/-- The writes of a queue's packets that have completed are complete at system scope: the meridian has passed the GWCTs returned for
them, by the skew (R98, R112, R235). -/
def queueReleased (s : State) (q : Nat) : Bool :=
  let g := smGet 0 s.qgwct q
  g == 0 || decide (g + Config.skew < s.time)

/-- A GWCT returned for a write of a queue's packets. -/
def noteGwct (s : State) (q g : Nat) : State := { s with qgwct := smSet 0 s.qgwct q (max (smGet 0 s.qgwct q) g) }

/-- A packet's write to its context's memory, with the GWCTs of its lines. -/
def packetWrite (s : State) (q va : Nat) (l : List Byte) : State :=
  let ctx := queueCtx s q
  let s := vaWrite s ctx va l
  let lines := (linePieces va (l.length + 1) l.length).filterMap fun r => (vaPhys s ctx r.1).map Phys.line
  let r := answered s lines 0
  noteGwct r.2 q r.1

/-- A packet is complete: its signal, then its interrupt (R98), and it is no longer outstanding. -/
def packetDone (s : State) (pid : Nat) : State :=
  match s.packets.find? fun p => p.id == pid with
  | none => s
  | some p =>
    let s := { s with packets := s.packets.filter fun k => k.id != pid }
    let s := match p.sig with
      | some g => signalDo s (queueCtx s p.q) g
      | none => s
    if p.irq then { s with out := s.out ++ [.msix p.q] } else s

/-- A record written at QCWIDX, with the meridian of the posting. -/
def postNow (s : State) (p : Post) : State :=
  let b := qBase p.q
  let n := 2 ^ ((bar s (b + 0x28)).toNat % 16)
  let idx := bar s (b + 0x2C)
  let at_ := bar64 s (b + 0x20) + 64 * (idx.toNat % n)
  let l := leBytes 64 p.bytes.toNat
  let s := vaWrite s (queueCtx s p.q) at_ (l.take 16 ++ leBytes 8 s.time ++ l.drop 24)
  let s := setBar s (b + 0x2C) (idx + 1)
  match p.pid with
  | some pid => packetDone s pid
  | none => s

/-- A record may be written: the ring has room, and the writes it is a release of are complete (R112). -/
def mayPost (s : State) (q : Nat) : Bool := ringRoom s q && queueReleased s q

/-- A record posted, or held while it may not be written or another record of the queue waits (R112). -/
def postRec (s : State) (q : Nat) (r : Rec) (pid : Option Nat) : State :=
  let p : Post := ⟨q, BitVec.ofNat 512 (leNat r.bytes), pid⟩
  if mayPost s q && !s.posts.any fun o => o.q == q then postNow s p else { s with posts := s.posts ++ [p] }

/-- A packet completes with a status: DONE, or CANCEL (R107, R112). -/
def packetComplete (s : State) (pid kind status : Nat) : State :=
  match s.packets.find? fun p => p.id == pid with
  | none => s
  | some p =>
    let fin : Packet → Packet := fun k => if k.id = pid then { k with done := true, status := status } else k
    postRec { s with packets := s.packets.map fin } p.q (Rec.plain kind p.op status p.tag p.off p.lseq) (some pid)

/-- An engine error that retires posts an ERROR record (R21, R112). -/
def postError (s : State) (la : Launch) (status : Nat) : State :=
  postRec s la.q (Rec.plain 2 1 status la.tag la.off la.lseq) none

/-! Pages. -/

/-- A page of a context in the hold tables. -/
def pageKey (ctx va : Nat) : Nat := ctx * 2 ^ 40 + va / 65536

def pageHolds (s : State) (k : Nat) : Nat := smGet 0 s.wsHolds k + smGet 0 s.pinHolds k

/-- A translation removed or changed: the page's level-one lines are written back and dropped with its TLB entries (R249). -/
def dropPage (s : State) (ctx va : Nat) : State :=
  let page := va / 65536
  let inPage : L1Copy → Bool := fun k => k.ctx == ctx && k.vline / 512 == page
  let s := ((s.l1.filter inPage).map L1Copy.line).foldl writeBack s
  { l1Drop s inPage with
    tlb := s.tlb.filter fun e => !(e.ctx == ctx && decide (e.vbase / 65536 ≤ page)
      && decide (page < e.vbase / 65536 + e.pages)) }

/-- The pin bit of the leaf that maps a page (R244). -/
def setPin (s : State) (ctx va : Nat) (b : Bool) : State :=
  match leafEntry s ctx va with
  | none => s
  | some at_ =>
    let v := paNum s at_ 8
    let w := if b then v ||| 2 ^ 12 else v &&& (2 ^ 64 - 1 - 2 ^ 12)
    paWrite s 0 ctx at_ (leBytes 8 w)

/-- A page of the same leaf is held, or held pinned by an eviction (R355): a larger leaf keeps its pin while any of its pages
is. -/
def leafHeld (s : State) (ctx va : Nat) : Bool :=
  match findLeaf s ctx va with
  | none => false
  | some t =>
    let lo := pageKey ctx t.vbase
    let hi := lo + t.size / 65536
    (s.wsHolds ++ s.pinHolds).any (fun h => decide (lo ≤ h.1) && decide (h.1 < hi))
      || s.evicts.any fun e => e.pages.any fun g =>
        decide (lo ≤ pageKey e.ctx (65536 * g)) && decide (pageKey e.ctx (65536 * g) < hi)

/-- One hold taken on a page: the first sets pin. -/
def takeHold (s : State) (ws : Bool) (ctx va : Nat) : State :=
  let k := pageKey ctx va
  let s := if leafHeld s ctx va then s else setPin s ctx va true
  if ws then { s with wsHolds := smSet 0 s.wsHolds k (smGet 0 s.wsHolds k + 1) }
  else { s with pinHolds := smSet 0 s.pinHolds k (smGet 0 s.pinHolds k + 1) }

/-- One hold dropped: the last clears pin and drops the page's cached translations and lines (R249). -/
def dropHold (s : State) (ws : Bool) (ctx va : Nat) : State :=
  let k := pageKey ctx va
  let n := if ws then smGet 0 s.wsHolds k else smGet 0 s.pinHolds k
  if n = 0 then s
  else
    let s := if ws then { s with wsHolds := smSet 0 s.wsHolds k (n - 1) } else { s with pinHolds := smSet 0 s.pinHolds k (n - 1) }
    if pageHolds s k = 0 then
      let s := dropPage s ctx va
      if leafHeld s ctx va then s else setPin s ctx va false
    else s

/-! The record area (R262, R263). -/

/-- TS of a team section. -/
def teamSection (h : LaunchHdr) : Nat := 32768 + h.ext 0 * (4 * h.ceiling + 32)

def roundUp (n m : Nat) : Nat := (n + m - 1) / m * m

/-- RB of a launch's block records. -/
def blockRecLen (h : LaunchHdr) : Nat :=
  roundUp (4096 + h.ext 1 * teamSection h + 262144 + roundUp h.scratch 4096 + 4096) 65536

/-- Reservations in a context's area: base offset and length. -/
def reserved (s : State) (ctx : Nat) : List (Nat × Nat) :=
  (s.launches.filter fun l => l.ctx == ctx).flatMap fun l =>
    (match l.recBase with
      | some a => [(a, 4096)]
      | none => []) ++
      l.blkRecs.map fun r => (r.2.toNat, blockRecLen l.hdr)

/-- The lowest free place of n bytes in a context's area, in units of 4 KiB. -/
def findRoom (s : State) (ctx n : Nat) : Option Nat :=
  let base := bar64 s (ctxBase ctx + 0x10)
  let len := (bar s (ctxBase ctx + 0x20)).toNat * 65536
  let used := reserved s ctx
  let cands := base :: used.map fun r => roundUp (r.1 + r.2) 4096
  let ok : Nat → Bool := fun a => decide (base ≤ a) && decide (a + n ≤ base + len)
    && used.all fun r => decide (a + n ≤ r.1) || decide (r.1 + r.2 ≤ a)
  (cands.filter ok).foldl (fun b a =>
    match b with
    | none => some a
    | some c => some (min a c)) none

/-! The end of a launch. -/

/-- The pages of a working-set list, in order. -/
def wsPages (l : List WsEntry) : List Nat := l.flatMap fun w => (List.range w.pages).map fun i => w.base + 65536 * i

/-- The holds that a launch has taken on its list are dropped (R105). -/
def dropWs (s : State) (la : Launch) : State :=
  ((wsPages la.ws).take la.held).foldl (fun s va => dropHold s true la.ctx va) s

/-- The launch leaves: its working-set holds are dropped, its reservations go, and its packet completes with a status (R7,
R105, R114, R262). -/
def endLaunch (s : State) (la : Launch) (kind status : Nat) : State :=
  let s := dropWs s la
  let s := { s with
    launches := s.launches.filter fun l => !(l.q == la.q && l.lseq == la.lseq)
    reserves := s.reserves.filter fun r => !(r.q == la.q && r.lseq == la.lseq) }
  packetComplete s la.pid kind status

/-- R7 stage 8: complete when every block has been placed and has left, and none is saved. -/
def launchTest (s : State) (q lseq : Nat) : State :=
  match s.launch? q lseq with
  | none => s
  | some la =>
    if la.state = .running ∧ la.hdr.blocks ≤ la.nextIdx ∧
        (s.blocks.any fun b => b.q == q && b.lseq == lseq && !b.site.isStation) = false ∧
        (s.saved.any fun v => v.blk.q == q && v.blk.lseq == lseq) = false then
      endLaunch s la 1 la.status
    else s

end Sys2Proof.Machine
end

