-- ==== Sys2Proof/Machine/Life.lean ====
section
/-! DEFINITION. How work ends: asynchronous operations and their counters (R17 to R22), barriers of a block and a launch (R224,
R226), teams leaving rows, rows leased (R110), blocks freed (R271), operating points lowered (R111). -/

namespace Sys2Proof.Machine

/-! Asynchronous counters. -/

def Team.count (t : Team) (cls : Nat) : Nat := smGet 0 t.cnt cls
def Team.setCount (t : Team) (cls n : Nat) : Team := { t with cnt := smSet 0 t.cnt cls n }

/-- The counter stands at 255: the instruction does not issue (R18). -/
def cntFull (t : Team) (cls : Nat) : Bool := decide (255 ≤ t.count cls)

/-- An operation counted (R17). -/
def Team.addOp (t : Team) (id cls : Nat) : Team :=
  { t.setCount cls (t.count cls + 1) with ops := t.ops ++ [⟨id, cls, false, none⟩] }

/-- The operations of a class, oldest first, that retire now: finished, with every older one of the class (R18). -/
def readyOps (l : List AsyncOp) (cls : Nat) : List AsyncOp := (l.filter fun o => o.cls == cls).takeWhile fun o => o.fin

/-- They retire. -/
def Team.retire (t : Team) (cls : Nat) : Team :=
  let gone := readyOps t.ops cls
  { t.setCount cls (t.count cls - gone.length) with ops := t.ops.filter fun o => !(gone.contains o) }

/-- A `WAITC` whose threshold is met (R19). -/
def Team.waitcMet (t : Team) : Wait → Bool
  | .waitc c n => decide (t.count c ≤ n)
  | _ => false

/-! Barriers of a block (R224). -/

/-- Every record with active lanes has issued the barrier since the team's last arrival, none holding lanes. -/
def Team.allIssued (t : Team) (issued : List Nat) : Bool :=
  !issued.isEmpty && t.records.all fun r => r.k0 == 0 || (issued.contains r.num && r.held.isNone)

def barOf (b : Block) (id : Nat) : BarState := smGet ⟨[], none, false⟩ b.bars id

/-- Teams of the block that have not exited. -/
def Block.unexited (b : Block) : Nat := (b.teams.filter fun t => t.live != 0).length

/-- A record released from `BAR` id goes on. -/
def releaseBar (id now : Nat) (r : Record) : Record :=
  match r.wait with
  | .bar i next => if i = id then { r with wait := .ready, pc := next, readySince := now, aged := false } else r
  | .barAgain i => if i = id then { r with wait := .ready, readySince := now, aged := false } else r
  | _ => r

/-- The team's arrival at id, when it has come about: the phase's count is that of its first arrival. -/
def arriveBar (id : Nat) (b : Block) (t : Team) : Block :=
  let st := barOf b id
  let mine := t.barIssued.filter fun p => p.1 == id
  if !st.arrived.contains t.idx && t.allIssued (mine.map fun p => p.2.1) then
    let cnt := (mine.getLast?.map fun p => p.2.2).getD none
    let st := { st with arrived := st.arrived ++ [t.idx], expect := if st.arrived.isEmpty then cnt else st.expect }
    let drop : Team → Team := fun u => { u with barIssued := u.barIssued.filter fun p => p.1 != id }
    { (b.modTeam t.idx drop) with bars := smSet ⟨[], none, false⟩ b.bars id st }
  else b

/-- The phase completes when the arrived teams number its count (R224); sub-teams released fuse. -/
def barTest (now id : Nat) (b : Block) : Block :=
  let b := b.teams.foldl (arriveBar id) b
  let st := barOf b id
  if !st.arrived.isEmpty && decide (st.expect.getD b.unexited ≤ st.arrived.length) then
    let go : Team → Team := fun t =>
      (b.teams.foldl Team.inherit { t with records := t.records.map (releaseBar id now) }).fuse now
    { b with bars := smSet ⟨[], none, false⟩ b.bars id ⟨[], none, !st.phase⟩, teams := b.teams.map go }
  else b

def barTestAll (now : Nat) (b : Block) : Block := (List.range 16).foldl (fun b id => barTest now id b) b

/-! The launch-wide barrier (R226). -/

def gbarOf (la : Launch) (id : Nat) : GBarState := smGet ⟨[], false⟩ la.gbars id

def releaseGbar (id now : Nat) (r : Record) : Record :=
  match r.wait with
  | .gbar i next => if i = id then { r with wait := .ready, pc := next, readySince := now, aged := false } else r
  | .gbarAgain i => if i = id then { r with wait := .ready, readySince := now, aged := false } else r
  | _ => r

/-- Arrivals that have come about at a launch's barrier id. -/
def gbarArrivals (s : State) (la : Launch) (id : Nat) : List (Nat × Nat) :=
  (s.blocksOf la.q la.lseq).flatMap fun b =>
    (b.teams.filter fun t => t.allIssued ((t.gbarIssued.filter fun p => p.1 == id).map Prod.snd)).map fun t => (b.idx, t.idx)

/-- The phase completes when every unexited team of the launch has arrived. -/
def gbarTest (s : State) (q lseq id : Nat) : State :=
  match s.launch? q lseq with
  | none => s
  | some la =>
    let st := gbarOf la id
    let new := (gbarArrivals s la id).filter fun p => !st.arrived.contains p
    let arrived := st.arrived ++ new
    let drop : Block → Team → Team := fun b t =>
      if new.contains (b.idx, t.idx) then { t with gbarIssued := t.gbarIssued.filter fun p => p.1 != id } else t
    let mine : Block → Bool := fun b => b.q == q && b.lseq == lseq && !b.site.isStation
    let upd : Block → Block := fun b => if mine b then { b with teams := b.teams.map (drop b) } else b
    let s := { s with blocks := s.blocks.map upd }
    let all := (s.blocksOf q lseq).all fun b => b.teams.all fun t => t.live == 0 || arrived.contains (b.idx, t.idx)
    if !arrived.isEmpty && all then
      let now := s.time
      let go : Team → Team := fun t => ({ t with records := t.records.map (releaseGbar id now) } : Team).fuse now
      let upd : Block → Block := fun b => if mine b then { b with teams := b.teams.map go } else b
      let s := { s with blocks := s.blocks.map upd }
      s.modLaunch q lseq fun l => { l with gbars := smSet ⟨[], false⟩ l.gbars id ⟨[], !st.phase⟩ }
    else s.modLaunch q lseq fun l => { l with gbars := smSet ⟨[], false⟩ l.gbars id ⟨arrived, st.phase⟩ }

def gbarTestAll (s : State) (q lseq : Nat) : State := (List.range 4).foldl (fun s id => gbarTest s q lseq id) s

/-! Rows, registers and scratchpad of a core (R109, R110, R136). -/

/-- Teams that hold rows of a core. -/
def coreTeams (s : State) (core : Nat) : List Team :=
  (s.blocks.filter fun b => b.site == .core core).flatMap fun b => b.teams.filter fun t => !t.left

/-- `%pool` (R136). -/
def poolFree (s : State) (core : Nat) : Nat :=
  Config.poolRegs - (coreTeams s core).foldl (fun n t => n + t.drawn) 0

/-- Scratchpad bytes free on a core; a block's stay until it is freed. -/
def scratchFree (s : State) (core : Nat) : Nat :=
  Config.coreScratch - (s.blocks.filter fun b => b.site == .core core).foldl (fun n b => n + b.scratchLen) 0

/-- Rows free on a core that no waiting block holds. -/
def freeRows (s : State) (core : Nat) : List Nat :=
  let used := (coreTeams s core).map Team.row
  let held := (s.reserves.filter fun r => r.core == core).flatMap Reserve.rows
  (List.range Config.rows).filter fun r => !used.contains r && !held.contains r

/-- The placement priority (R110). -/
def placePrio (la : Launch) : Nat := min 63 (la.prio + la.waited)

/-- A launch with blocks to place. -/
def wantsPlace (la : Launch) : Bool :=
  (la.state == .eligible || la.state == .running) && decide (la.nextIdx < la.hdr.blocks)

/-- A core fenced by maintenance takes no block (R486, R499): MNFCORE's bit at `%core`. -/
def coreFenced (s : State) (core : Nat) : Bool :=
  (bar s (0x1E0040 + 4 * (coreId core / 32))).getLsbD (coreId core % 32)

/-- Rows, scratchpad bytes, registers. -/
structure Need where
  rows : Nat
  scratch : Nat
  regs : Nat
  deriving DecidableEq, Repr

def needOf (h : LaunchHdr) : Need := ⟨h.ext 1, h.scratch, h.budget * h.ext 0 * h.ext 1⟩

/-- A saved block's rows are those of the teams that have not left, its registers their saved H. -/
def savedNeed (b : Block) : Need :=
  let ts := b.teams.filter fun t => !t.left
  ⟨ts.length, b.scratchLen, ts.foldl (fun n t => n + t.drawn) 0⟩

/-- Blocks of a launch that wait to be placed, by linear index, with what they need (R110): saved blocks that may return, and
unplaced blocks in their order. A waiting block beyond those for which rows are held comes too. -/
def waitingBlocks (s : State) (l : Launch) : List (Nat × Need) :=
  let back := if l.state == .running then s.saved.filter fun v => !v.hold && v.blk.q == l.q && v.blk.lseq == l.lseq else []
  let n := min (l.hdr.blocks - l.nextIdx) (s.reserves.length + 1)
  back.map (fun v => (v.blk.idx, savedNeed v.blk))
    ++ if wantsPlace l then (List.range n).map fun i => (l.hdr.linear (l.nextIdx + i), needOf l.hdr) else []

/-- The waiting block of a launch that wants a core: one that rows are held for there and that lacks rows, or one that rows are held
for nowhere, on the cluster of its group. -/
def wantsCore (s : State) (l : Launch) (core : Nat) : Option (Nat × Need) :=
  let mine := s.reserves.filter fun r => r.q == l.q && r.lseq == l.lseq
  let grp : Nat → Nat := fun i => i / 2 ^ l.hdr.width 2
  (waitingBlocks s l).find? fun b =>
    match mine.find? fun r => r.idx == b.1 with
    | some r => r.core == core && decide (r.rows.length < b.2.rows)
    | none => mine.all fun r => grp r.idx != grp b.1 || coreCluster r.core == coreCluster core

/-- The launch and block that a freed row goes to (R110): an overlapping successor in the queue, else the highest placement priority,
the earliest eligible first. -/
def leaseTo (s : State) (core q lseq : Nat) : Option (Launch × Nat) :=
  let want := s.launches.filterMap fun l => (wantsCore s l core).map fun b => (l, b.1)
  match want.find? fun p => p.1.q == q && p.1.lseq == (lseq + 1) % 2 ^ 32 && p.1.ovl with
  | some p => some p
  | none => want.foldl (fun b p =>
      match b with
      | none => some p
      | some m =>
        if placePrio m.1 < placePrio p.1 ∨ (placePrio m.1 = placePrio p.1 ∧ p.1.eligAt < m.1.eligAt) then some p else some m) none

/-- A row that a team of launch (q, lseq) has freed is leased and held for a waiting block (R110). -/
def leaseRow (s : State) (core row q lseq : Nat) : State :=
  if coreFenced s core then s
  else match leaseTo s core q lseq with
    | none => s
    | some (l, idx) =>
      let mine : Reserve → Bool := fun r => r.core == core && r.q == l.q && r.lseq == l.lseq && r.idx == idx
      if s.reserves.any mine then
        let add : Reserve → Reserve := fun k => if mine k then { k with rows := k.rows ++ [row] } else k
        { s with reserves := s.reserves.map add }
      else
        { s with reserves := s.reserves ++ [⟨core, l.q, l.lseq, idx, [row], 0, 0, scratchFree s core, poolFree s core⟩] }

/-- Reservations end; the rows held, `taken` aside, are leased on. -/
def dropReserves (s : State) (gone : Reserve → Bool) (taken : List Nat) : State :=
  let out := s.reserves.filter gone
  let s : State := { s with reserves := s.reserves.filter fun r => !gone r }
  out.foldl (fun s r =>
    (r.rows.filter fun i => !taken.contains i).foldl (fun s i => leaseRow s r.core i r.q r.lseq) s) s

/-- What a waiting block lacks. -/
def Reserve.need (s : State) (r : Reserve) : Need :=
  match s.launch? r.q r.lseq with
  | none => ⟨0, 0, 0⟩
  | some l => (((waitingBlocks s l).find? fun b => b.1 == r.idx).map Prod.snd).getD (needOf l.hdr)

/-- Scratchpad bytes and registers that have become free on a core since they were last seen are reserved for the blocks that rows
are held for there, up to what each lacks (R110). -/
def fitCore (s : State) (core : Nat) : State :=
  let here := s.reserves.filter fun r => r.core == core
  let curS := scratchFree s core
  let curR := poolFree s core
  let gain0 := here.foldl (fun n r => (max n.1 (curS - r.seenS), max n.2 (curR - r.seenR))) (0, 0)
  let loose0 : Nat × Nat := (curS - gain0.1 - here.foldl (fun n r => n + r.scratch) 0, curR - gain0.2 - here.foldl (fun n r => n + r.regs) 0)
  let r := s.reserves.foldl (fun (a : (Nat × Nat) × List Reserve) r =>
    if r.core = core then
      let need := r.need s
      let x := min a.1.1 (need.scratch - (loose0.1 + r.scratch))
      let y := min a.1.2 (need.regs - (loose0.2 + r.regs))
      ((a.1.1 - x, a.1.2 - y), a.2 ++ [{ r with scratch := r.scratch + x, regs := r.regs + y, seenS := curS, seenR := curR }])
    else (a.1, a.2 ++ [r])) (gain0, [])
  { s with reserves := r.2 }

def fitReserves (s : State) : State := ((s.reserves.map Reserve.core).dedup).foldl fitCore s

/-! Operating points (R111). -/

/-- The highest point that a launch resident on a die asks for, within the caps. -/
def dieWants (s : State) (die : Nat) (d : Die) : Nat :=
  let cap := if d.hot then min d.cap 7 else d.cap
  let on := s.launches.filter fun l => (s.blocksOf l.q l.lseq).any fun b => coreDie b.coreNum == die
  min cap (on.foldl (fun n l => max n l.hdr.oppt) 0)

/-- A die lowers its point when no resident launch asks for it. -/
def dieLower (s : State) : State :=
  let low : Nat → Die → Die := fun i d => { d with point := min d.point (dieWants s i d) }
  { s with die0 := low 0 s.die0, die1 := low 1 s.die1 }

/-! Leaving. -/

/-- The blocks of a cluster group. -/
def groupBlocks (s : State) (h : LaunchHdr) (b : Block) : List Block :=
  s.blocks.filter fun c => c.q == b.q && c.lseq == b.lseq && !c.site.isStation
    && c.idx / 2 ^ h.width 2 == b.idx / 2 ^ h.width 2

/-- Every armed slot of a block is tested against its scoreboard. -/
def Block.retest (b : Block) : Block := if b.arms.any fun a => a.armed then { b with sbTest := List.range 4 } else b

/-- Registrations of a block end (R390): no block registers their ids for the fabric drain horizon (R391; log entry 31). -/
def endRegs (s : State) (q lseq idx : Nat) : State :=
  let mine : GroupReg → Bool := fun g => g.q == q && g.lseq == lseq && g.idx == idx
  let gone := s.groups.filter mine
  if gone.isEmpty then s
  else
    let rest := s.groups.filter fun g => !mine g
    let s : State :=
      { s with groups := rest
               quars := s.quars ++ gone.map fun g => ⟨g.ctx, g.id, false, s.time + Config.drainHorizon⟩
               blocks := s.blocks.map Block.retest }
    s.wakeAll Wait.isLimit

/-- Blocks of a group are freed when every block of it has left its rows (R22, R271). -/
def freeGroup (s : State) (la : Launch) (b : Block) : State :=
  let grp := groupBlocks s la.hdr b
  let savedMate := s.saved.any fun v => v.blk.q == b.q && v.blk.lseq == b.lseq
    && v.blk.idx / 2 ^ la.hdr.width 2 == b.idx / 2 ^ la.hdr.width 2
  if grp.all (fun c => c.gone) && !savedMate then
    let s : State := { s with blocks := s.blocks.filter fun c => !(grp.any fun g => g.bid == c.bid) }
    let s := s.wakeAll Wait.isLimit
    dieLower (launchTest s la.q la.lseq)
  else s

/-- A line of host memory (R239). -/
def hostLine (line : Nat) : Bool := (128 * line).testBit 50 && !(128 * line).testBit 51

/-- The zero-length flushing read of host memory, to the last host address a team has written, under its context's PASID (R469). -/
def flushRead (s : State) (ctx : Nat) (t : Team) : State :=
  if t.lastHost = 0 then s else { s with out := s.out ++ [.flush (ctxPasid s ctx) t.lastHost] }

/-- A team that goes: its stores are acknowledged at their homes, and their GWCTs stay with its queue (R8, R20, R112, R235). -/
def teamAcks (s : State) (q : Nat) (t : Team) : Nat × State :=
  let r := answered (flushRead s (queueCtx s q) t) t.unacked t.gwct
  (r.1, noteGwct r.2 q r.1)

/-- A team with no lane left and every counter at zero leaves its row (R22): its registers return, the row is leased, and a
block without teams goes. A saved block holds no row. -/
def leaveTest (s : State) (bid ti : Nat) : State :=
  match s.block? bid with
  | none => s
  | some b =>
    match b.team? ti with
    | none => s
    | some t =>
      if t.left || t.live != 0 || !(t.cnt.isEmpty) || b.site.isStation || (s.saved.any fun v => v.blk.bid == bid) then s
      else
        match s.launch? b.q b.lseq with
        | none => s
        | some la =>
          let (g, s) := teamAcks s b.q t
          let s := s.modTeam bid ti fun t => { t with left := true, drawn := 0, unacked := [], gwct := g }
          let s := leaseRow s b.coreNum t.row b.q b.lseq
          match s.block? bid with
          | none => s
          | some b =>
            if b.teams.all fun t => t.left then
              freeGroup (endRegs (s.modBlock bid fun b => { b with gone := true }) b.q b.lseq b.idx) la b
            else s

/-- Error records of operations that retire (R21). -/
def retireErrors (s : State) (la : Launch) (l : List AsyncOp) : State :=
  l.foldl (fun s o =>
    match o.err with
    | some e => postError s la e
    | none => s) s

/-- Retirement in one class of a team, in issue order (R18), and what it releases: `WAITC`, instructions held at a limit,
the row of an exited team. -/
def retireClass (s : State) (bid ti cls : Nat) : State :=
  match s.block? bid with
  | none => s
  | some b =>
    match b.team? ti with
    | none => s
    | some t =>
      let gone := readyOps t.ops cls
      let s := match s.launch? b.q b.lseq with
        | some la => retireErrors s la gone
        | none => s
      let now := s.time
      let s := s.modTeam bid ti fun t =>
        let t := t.retire cls
        Team.wake (fun w => w.isLimit || t.waitcMet w) now t
      leaveTest s bid ti

/-- An engine finishes an operation, with the status of an error or none. -/
def finishOp (s : State) (bid ti id cls : Nat) (err : Option Nat) : State :=
  let fin : AsyncOp → AsyncOp := fun o => if o.id = id then { o with fin := true, err := err } else o
  retireClass (s.modTeam bid ti fun t => { t with ops := t.ops.map fin }) bid ti cls

/-- After lanes of a team have gone: its barriers, and its row. -/
def afterExit (s : State) (bid ti : Nat) : State :=
  let now := s.time
  let s := s.modBlock bid (barTestAll now)
  let s := match s.block? bid with
    | some b => gbarTestAll s b.q b.lseq
    | none => s
  leaveTest s bid ti

/-! The register pool (R136, R137). -/

/-- A claim's effect: registers drawn, the allocation raised, the new registers 0 in the live lanes (R136). -/
def applyClaim (s : State) (w : Issuer) (n : Nat) : State :=
  s.modTeam w.bid w.team fun t =>
    match t.rec? w.sub with
    | none => t
    | some r =>
      let ls := maskLanes r.k0 t.lanes
      let v := ((List.range n).map fun k => r.alloc + k).foldl (fun v k =>
        ls.foldl (fun v l => smSet 0 v (vKey k l) 0) v) t.v
      { t with v := v, drawn := t.drawn + n * ls.length }.modRec w.sub fun r => { r with alloc := r.alloc + n }

/-- A claim made (R137): granted at once behind an empty queue, else queued; granted, the sub-team goes on at `next`. -/
def claimFor (s : State) (core : Nat) (w : Issuer) (n need : Nat) (next : W64) (implicit : Bool) : State :=
  if (s.claims.any fun c => c.core == core) = false ∧ need ≤ poolFree s core then
    (applyClaim s w n).modRec w fun r => { r with pc := next }
  else
    { (s.modTeam w.bid w.team fun t => t.waitAt w.sub (.claim n implicit next)) with
      claims := s.claims ++ [⟨core, w, n, need, next, s.time⟩] }

/-- A release's effect (R136): the registers return to the pool, and their values are lost. -/
def applyRelease (s : State) (w : Issuer) (n : Nat) : State :=
  s.modTeam w.bid w.team fun t =>
    match t.rec? w.sub with
    | none => t
    | some r =>
      let ls := maskLanes r.k0 t.lanes
      let v := ((List.range n).map fun k => r.alloc - n + k).foldl (fun v k =>
        ls.foldl (fun v l => smSet 0 v (vKey k l) 0) v) t.v
      { t with v := v, drawn := t.drawn - n * ls.length }.modRec w.sub fun r => { r with alloc := r.alloc - n }

/-- A register that a release covers is not ready, or locked, in the lanes that release it (R135, R156). -/
def releaseBusy (t : Team) (m : LaneMask) (lo hi : Nat) : Bool :=
  (t.waits.any fun p =>
    match p.1 with
    | .v n => decide (lo ≤ n) && decide (n < hi) && p.2 &&& m != 0
    | _ => false) || t.lockBits.any fun p => decide (lo ≤ p.1) && decide (p.1 < hi) && p.2.2 &&& m != 0

/-- The claim at the head of a core's queue is granted (R137). -/
def grantHead (s : State) (core : Nat) : State :=
  match s.claims.find? fun c => c.core == core with
  | none => s
  | some c =>
    if c.need ≤ poolFree s core then
      let s := { s with claims := s.claims.filter fun d => !(d == c) }
      let now := s.time
      let s := (applyClaim s c.who c.n).modRec c.who fun r => { r with wait := .ready, pc := c.next, readySince := now, aged := false }
      s.modTeam c.who.bid c.who.team (Team.fuseAt now c.who.sub)
    else s

end Sys2Proof.Machine
end

