-- ==== Sys2Proof/Machine/Access.lean ====
section
/-! DEFINITION. Accesses of teams and engines to generic addresses: reading and writing a resolved place (R207, R229, R368),
ranges in pieces that lie within lines (R13 to R15), poison (R272, R464), requests to the pod (R471), errors detected
(R480). -/

namespace Sys2Proof.Machine

/-! The row cache (R383, R454). -/

/-- Room for `need` lines of a context in a set: rows of lowest frequency go first, the least recently used among equals. -/
def rowRoom (mine : RowEnt → Bool) (ways need : Nat) : Nat → List RowEnt → List RowEnt
  | 0, l => l
  | fuel + 1, l =>
    let here := l.filter mine
    if here.foldl (fun n r => n + (r.rowb + 127) / 128) need ≤ ways then l
    else
      let low := here.foldl (fun (b : Option RowEnt) r =>
        match b with
        | none => some r
        | some k => if r.freq ≤ k.freq then some r else some k) none
      match low with
      | none => l
      | some r => rowRoom mine ways need fuel (l.filter fun k => !(k == r))

/-- A table row read by a gather: counted, and held in the context's row-cache ways. The list holds rows most recently used
first. It changes no value. -/
def rowAccess (s : State) (stack ctx table rowb row set : Nat) : State :=
  let key := 64 * stack + ctx
  let ways := smGet 0 s.rowWays key
  if ways = 0 then s
  else
    let n := smGet 0 s.rowAcc key + 1
    let half : RowEnt → RowEnt := fun r => if r.stack = stack ∧ r.ctx = ctx then { r with freq := r.freq / 2 } else r
    let s : State := if n = 2 ^ 20 then { s with rowAcc := smSet 0 s.rowAcc key 0, rowCache := s.rowCache.map half }
      else { s with rowAcc := smSet 0 s.rowAcc key n }
    let it : RowEnt → Bool := fun r =>
      r.stack == stack && r.ctx == ctx && r.table == table && r.rowb == rowb && r.row == row
    match s.rowCache.find? it with
    | some r => { s with rowCache := { r with freq := min 15 (r.freq + 1) } :: s.rowCache.filter fun k => !it k }
    | none =>
      let need := (rowb + 127) / 128
      if ways < need then s
      else
        let mine : RowEnt → Bool := fun r => r.stack == stack && r.ctx == ctx && r.set_ == set
        { s with rowCache := ⟨stack, ctx, table, rowb, row, set, 1⟩ :: rowRoom mine ways need 16 s.rowCache }

/-! Errors (R480, R484). -/

/-- An error recorded: it joins the test of its resource, or starts one. -/
def detectError (s : State) (r : ErrorReport) : State :=
  let same : Test → Bool := fun t => t.rep.cls == r.cls && t.rep.unit == r.unit
  if s.tests.any same then
    { s with tests := s.tests.map fun t => if same t then { t with count := min (t.count + 1) (2 ^ 32 - 1) } else t }
  else { s with tests := s.tests ++ [⟨r, s.time, 1⟩] }

/-! Requests to other devices (R471). -/

/-- A request to pod memory goes out on its port: kind 1 a write, 2 an atomic. -/
def podSend (s : State) (p : Phys) (ctx kind : Nat) (op : AtomOp) (l : List Byte) : State :=
  match p.kind with
  | .pod dev =>
    let m := p.loc % 2 ^ 41
    let port := podPort s (podFrame p.ilv p.loc)
    { s with out := s.out ++ [.net dev port (.pod (w64 m) kind op ctx p.key l)] }
  | _ => s

/-! One piece. -/

def blockReq (b : Block) (la : Launch) (t : Tr) (cache : Cache) (ea : Nat) : Req :=
  ⟨b.coreNum, ea / 128, la.ctx, t, cache, la.lease⟩

/-- A translation used by a core stays in its cluster's TLB; a hit in its own cache asks for none (R247). -/
def useTlb (s : State) (b : Block) (la : Launch) (t : Tr) (ea : Nat) : State :=
  match b.site with
  | .core n => if (l1Tag? s n la.ctx ea).isSome then s else tlbFill s (coreCluster n) la.ctx t
  | .station _ _ => s

/-- The bytes of a place, whether they carry poison, and the state after the read. The place lies within one line. -/
def readPlace (s : State) (b : Block) (la : Launch) (cache : Cache) (ea : Nat) (tg : Target) (n : Nat) :
    (List Byte × Bool) × State :=
  match tg with
  | .scr bid off =>
    match s.block? bid with
    | some c => ((bytesAt c.scratch off n, scratchPoison c off n), s)
    | none => (([], false), s)
  | .mem t p =>
    if b.site.isStation then
      ((lineBytes (memLine s p) (p.loc % 128) n, s.mpoison.contains p.line), mscTouch s p.line p.ilv la.ctx false)
    else
      let r := coreReadLine (useTlb s b la t ea) (blockReq b la t cache ea) p
      ((lineBytes r.1.1 (p.loc % 128) n, r.1.2), r.2)

/-- A place carries poison, as this block would read it (R272, R462). -/
def placePoison (s : State) (b : Block) (la : Launch) (ea : Nat) (tg : Target) (n : Nat) : Bool :=
  (readPlace s b la .normal ea tg n).1.2

/-- A line as a station writes it, at the memory-side cache (R368, R370). -/
def stationWrite (s : State) (p : Phys) (ctx : Nat) (l : List Byte) (poison : Bool) : State :=
  let d := spliceLine (memLine s p) (p.loc % 128) l
  let s := setLineKey s p
  let s : State := { s with mem := putLine s.mem p.line d }
  let s := if poison then setMPoison s p.line true else s
  mscTouch s p.line p.ilv ctx true

/-- Bytes written to a place. -/
def writePlace (s : State) (b : Block) (la : Launch) (cache : Cache) (ea : Nat) (tg : Target) (l : List Byte)
    (poison : Bool) : State :=
  match tg with
  | .scr bid off => s.modBlock bid fun c => putScratch c off l poison
  | .mem t p =>
    if b.site.isStation then stationWrite s p la.ctx l poison
    else podSend (coreWrite (useTlb s b la t ea) (blockReq b la t cache ea) p l poison) p la.ctx 1 .exch l

/-- The memory line of a place. -/
def Target.line? : Target → Option Phys
  | .scr _ _ => none
  | .mem _ p => some p

/-- A write of a whole line of clean data clears its poison (R464). -/
def coverLine (s : State) (b : Block) (p : Phys) : State :=
  if b.site.isStation then setMPoison s p.line false else clearPoison s p

/-- The lines of a list of written pieces that they cover whole. -/
def coveredLines (l : List (Phys × Nat)) : List Phys :=
  let lines := (l.map fun q => q.1.line).dedup
  lines.filterMap fun ln =>
    let ps := l.filter fun q => q.1.line == ln
    if (List.range 128).all fun i => ps.any fun q => decide (q.1.loc % 128 ≤ i) && decide (i < q.1.loc % 128 + q.2) then
      (ps.head?).map Prod.fst
    else none

/-- Poison cleared where the pieces of one instruction or unit, all clean, cover a unit or a line (R272, R464). -/
def clearCovered (s : State) (b : Block) (l : List (Target × Nat)) : State :=
  let s :=
    if s.mpoison.isEmpty && (s.lines.any fun c => c.poison) == false then s
    else (coveredLines (l.filterMap fun q => q.1.line?.map fun p => (p, q.2))).foldl (fun s p => coverLine s b p) s
  let scr := l.filterMap fun q =>
    match q.1 with
    | .scr bid off => some (bid, off, q.2)
    | .mem _ _ => none
  ((scr.map Prod.fst).dedup).foldl (fun s bid =>
    s.modBlock bid fun c => clearUnits c ((scr.filter fun q => q.1 == bid).map Prod.snd)) s

/-! Ranges. -/

/-- A piece of a range: its address, place and bytes. -/
abbrev Piece := Nat × Target × Nat

/-- A range resolved in pieces, or the first failing piece's cause and address. `need` as for `rightsOk`. -/
def resolveRange (s : State) (b : Block) (la : Launch) (ea n need : Nat) : Except (Nat × Nat) (List Piece) :=
  (linePieces ea (n + 1) n).foldr (fun q acc =>
    let one : Except Nat Target :=
      if windowOf q.1 then
        match resolveWindow s la.hdr b q.1 q.2 with
        | .error c => .error c
        | .ok r => .ok (.scr r.1 r.2)
      else
        match resolveMem s b la.ctx q.1 need with
        | .error c => .error c
        | .ok r => .ok (.mem r.1 r.2)
    match one, acc with
    | .error c, _ => .error (c, q.1)
    | .ok _, .error e => .error e
    | .ok t, .ok l => .ok ((q.1, t, q.2) :: l)) (.ok [])

/-- The bytes of resolved pieces, whether any carries poison, and the state after. -/
def readPieces (s : State) (b : Block) (la : Launch) (l : List Piece) : (List Byte × Bool) × State :=
  l.foldl (fun acc q =>
    let r := readPlace acc.2 b la .bypass q.1 q.2.1 q.2.2
    ((acc.1.1 ++ r.1.1, acc.1.2 || r.1.2), r.2)) (([], false), s)

/-- Bytes written over resolved pieces, with poison or clean. -/
def writePieces (s : State) (b : Block) (la : Launch) (l : List Piece) (bytes : List Byte) (poison : Bool) : State :=
  let s := (l.foldl (fun acc q =>
    (writePlace acc.1 b la .bypass q.1 q.2.1 (acc.2.take q.2.2) poison, acc.2.drop q.2.2)) (s, bytes)).1
  if poison then s else clearCovered s b (l.map Prod.snd)

/-- The memory lines of pieces. -/
def pieceLines (l : List Piece) : List Nat := (l.filterMap fun q => q.2.1.line?.map Phys.line).dedup

/-- An engine's read of a range. -/
def genRead (s : State) (b : Block) (la : Launch) (ea n : Nat) : Except (Nat × Nat) ((List Byte × Bool) × State) :=
  match resolveRange s b la ea n 0 with
  | .error e => .error e
  | .ok l => .ok (readPieces s b la l)

/-- Own-scratchpad bytes. -/
def Block.bytes (b : Block) (off n : Nat) : List Byte := bytesAt b.scratch off n
def Block.num (b : Block) (off n : Nat) : Nat := leNat (b.bytes off n)

/-- An own-scratchpad range lies within the scratch size. -/
def Block.fits (b : Block) (off n : Nat) : Bool := decide (off + n ≤ b.scratchLen)

/-- A gather's access to the row of a table at an address, where that lies in this module's memory. The set is that of the
row's first line. -/
def rowTouch (s : State) (b : Block) (la : Launch) (table rowb row ea : Nat) : State :=
  if windowOf ea then s
  else match siteTranslate s b la.ctx ea with
    | none => s
    | some t =>
      let p := t.phys s ea
      if p.kind = .own then rowAccess s (stackOf p.loc) la.ctx table rowb row (mscSet p.loc) else s

end Sys2Proof.Machine
end

