-- ==== Sys2Proof/Machine/Memory.lean ====
section
/-! DEFINITION. The memory majors 0x80 to 0x8D (R201 to R220): loads and stores, atomics, fences, prefetch, cache control, the
ordered clock and `WAITC`. -/

namespace Sys2Proof.Machine

/-! Addresses and checks (R201, R205). -/

/-- The effective address of a lane: a generic base, or an own-scratchpad base. -/
def Ctx.ea (c : Ctx) (gen : Bool) (a b : Opnd) (l : Nat) : Nat :=
  if gen then (c.rd64 0 a false l + (c.rd 1 b l).signExtend 64).toNat
  else (localAddr (c.rd 0 a l + c.rd 1 b l).toNat).toNat

/-- An access of a lane that passed the checks: lane, address, place. -/
abbrev Acc := Nat × Nat × Target

/-- A failed check: cause, address, lane. -/
abbrev AccFail := Nat × Nat × Nat

/-- Of two failures the first in R205's order stands, and of one cause the lower lane. -/
def worseFail (o : Option AccFail) (f : AccFail) : Option AccFail :=
  match o with
  | none => some f
  | some g => if causeRank f.1 < causeRank g.1 then some f else some g

/-- Each lane's place, or its cause. `extra` is what the instruction checks of a place after its translation. -/
def Ctx.resolveLanes (c : Ctx) (ls : List Nat) (ea : Nat → Nat) (n need : Nat) (extra : Nat → Target → Option Nat) :
    List (Nat × Nat × Except Nat Target) :=
  ls.map fun l =>
    (l, ea l,
      match resolve c.e.s c.e.la.hdr c.e.blk c.e.la.ctx (ea l) n need with
      | .error k => .error k
      | .ok tg =>
        match extra (ea l) tg with
        | some k => .error k
        | none => .ok tg)

/-- The failure that stands among lanes, causes in `skip` left out. -/
def firstBad (l : List (Nat × Nat × Except Nat Target)) (skip : List Nat) : Option AccFail :=
  l.foldl (fun o r =>
    match r.2.2 with
    | .error k => if skip.contains k then o else worseFail o (k, r.2.1, r.1)
    | .ok _ => o) none

/-- The lanes that passed. -/
def goodAccs (l : List (Nat × Nat × Except Nat Target)) : List Acc :=
  l.filterMap fun r =>
    match r.2.2 with
    | .ok tg => some (r.1, r.2.1, tg)
    | .error _ => none

/-- A failure as an instruction ends with it (R205, R251). -/
def failRes (f : AccFail) : Res :=
  if f.1 = cXLATE then .miss (w64 f.2.1) f.2.2 else .trap f.1 (w64 f.2.1) f.2.2

/-- Some memory or scratchpad unit carries poison. -/
def anyPoison (s : State) : Bool :=
  !s.mpoison.isEmpty || s.lines.any (fun c => c.poison) || s.blocks.any fun b => !b.spoison.isEmpty

/-- A place read into registers carries poison (R205, R272, R463). -/
def Ctx.poisonAt (c : Ctx) (n : Nat) (ea : Nat) (tg : Target) : Option Nat :=
  if anyPoison c.e.s && placePoison c.e.s c.e.blk c.e.la ea tg n then some cPOISON else none

/-- Poison at a location's home, where an atomic is performed (R212, R215). -/
def Ctx.homePoison (c : Ctx) (n : Nat) (tg : Target) : Bool :=
  match tg with
  | .scr bid off => (c.e.s.block? bid).any fun b => scratchPoison b off n
  | .mem _ p => if c.e.station then c.e.s.mpoison.contains p.line else (homeLine c.e.s p).2

/-- THE CHECKS OF R205 over every lane, then the effect. -/
def Ctx.access (c : Ctx) (ls : List Nat) (ea : Nat → Nat) (n need : Nat) (extra : Nat → Target → Option Nat)
    (act : List Acc → Res) : Res :=
  let rs := c.resolveLanes ls ea n need extra
  match firstBad rs [] with
  | some f => failRes f
  | none => act (goodAccs rs)

def orderRel : Order → Bool
  | .rel | .ar => true
  | _ => false

def orderAcq : Order → Bool
  | .acq | .ar => true
  | _ => false

/-- An acquire, once the instruction is done (R231, R232). -/
def Ctx.acquires (c : Ctx) (ord : Order) (sc : Scope) (s : State) : State :=
  if orderAcq ord && !c.e.probing then acquireAt s c.e.who sc else s

/-- In probe mode (R252): lanes whose address is marked check nothing; a missing lane records its page; any other failure ends
the probe; `act` is given the places that are present. -/
def Ctx.probeAccess (c : Ctx) (addr : List Field) (ls : List Nat) (ea : Nat → Nat) (n need : Nat)
    (extra : Nat → Target → Option Nat) (act : State → List Acc → State) : Res :=
  let rs := c.resolveLanes (ls.filter fun l => !c.markedAt addr l) ea n need extra
  match firstBad rs [cXLATE] with
  | some f => .trap f.1 (w64 f.2.1) f.2.2
  | none =>
    let s := rs.foldl (fun s r =>
      match r.2.2 with
      | .error _ => recordPage s c.e (w64 r.2.1)
      | .ok _ => s) c.s
    .done (act s (goodAccs rs))

/-! Loads (R203, R207, R208). -/

/-- The register value of bytes loaded: narrow ones are extended (R203). -/
def loadVal (sz : Size) (sx : Bool) (l : List Byte) : Nat :=
  let v := leNat l
  if sx then
    match sz with
    | .b8 => ((BitVec.ofNat 8 v).signExtend 32).toNat
    | .b16 => ((BitVec.ofNat 16 v).signExtend 32).toNat
    | _ => v
  else v

/-- The lanes' bytes in ascending order, as (lane, value), and the state after the reads. -/
def Ctx.readLanes (c : Ctx) (s : State) (cache : Cache) (n : Nat) (val : List Byte → Nat) (accs : List Acc) :
    List (Nat × Nat) × State :=
  accs.foldl (fun acc q =>
    let r := readPlace acc.2 c.e.blk c.e.la cache q.2.1 q.2.2 n
    (acc.1 ++ [(q.1, val r.1.1)], r.2)) ([], s)

/-- The value of a lane in a list of lane values; 0 for a lane without one. -/
def laneVal (l : List (Nat × Nat)) (n : Nat) : Nat :=
  match l.find? fun p => p.1 == n with
  | some p => p.2
  | none => 0

/-- Registers that reads of host memory fill wait for their completions (R260). -/
def Ctx.noteHost (c : Ctx) (d : Opnd) (k : Nat) (accs : List Acc) (s : State) : State :=
  let host : Acc → Bool := fun q =>
    match q.2.2 with
    | .mem _ p => p.kind == .host
    | .scr _ _ => false
  if c.e.station || !accs.any host then s
  else c.modTeam s fun t => { t with hostWait := t.hostWait ++ (c.named [fD d k]).map fun r => (r, c.m) }

/-- A load's effect on its lanes. -/
def Ctx.load (c : Ctx) (mc : MemCtl) (sx gen : Bool) (d a b : Opnd) (ls : List Nat) : Res :=
  let n := sizeBytes mc.size
  let k := sizeRegs mc.size
  let put : State → List Acc → State := fun s accs =>
    let r := c.readLanes s mc.cache n (loadVal mc.size sx) accs
    let one : Nat → Nat := fun l => if opIsS d then laneVal r.1 (ls.headD 0) else laneVal r.1 l
    c.noteHost d k accs (c.putOn ls d k one r.2)
  if c.e.probing then
    let addr := [fA a (if gen then 2 else 1), fB b 1]
    c.probeAccess addr ls (c.ea gen a b) n 0 (c.poisonAt n) fun s accs =>
      let ok := accs.map Prod.fst
      c.mark [fD d k] (fun l => if opIsS d then ok.isEmpty else !ok.contains l) (put s accs)
  else c.access ls (c.ea gen a b) n 0 (c.poisonAt n) fun accs => .done (c.acquires mc.order mc.scope (put c.s accs))

def loadForm (gen sta : Bool) (pass : Pass) (k : Nat) (d a b : Opnd) : Form :=
  ⟨[fA a (if gen then 2 else 1), fB b 1], [fD d k], pass, none, .own, sta, false⟩

def opLd (mc : MemCtl) (sx : Bool) (d a b : Opnd) : Op where
  form := loadForm true true .vec (sizeRegs mc.size) d a b
  eff := fun c => c.load mc sx true d a b c.lanes
/-- R207. -/
def execLd (h : Hdr) (mc : MemCtl) (sx : Bool) (d a b : Opnd) (s : State) : Host.Outcome State Fault Refusal :=
  (opLd mc sx d a b).run (issOf h) s

def opLds (mc : MemCtl) (sx : Bool) (d a b : Opnd) : Op where
  form := loadForm false true .vec (sizeRegs mc.size) d a b
  eff := fun c => c.load mc sx false d a b c.lanes
/-- R207. -/
def execLds (h : Hdr) (mc : MemCtl) (sx : Bool) (d a b : Opnd) (s : State) : Host.Outcome State Fault Refusal :=
  (opLds mc sx d a b).run (issOf h) s

def opLdu (mc : MemCtl) (sx : Bool) (d a b : Opnd) : Op where
  form := loadForm true false .scalar (sizeRegs mc.size) d a b
  eff := fun c => c.load mc sx true d a b [c.e.low c.m]
/-- R208. -/
def execLdu (h : Hdr) (mc : MemCtl) (sx : Bool) (d a b : Opnd) (s : State) : Host.Outcome State Fault Refusal :=
  (opLdu mc sx d a b).run (issOf h) s

/-! Releases (R231, R235). -/

/-- Every earlier access of the team has completed at a scope (R235): its reads of host memory have returned their values. -/
def releaseDone (t : Team) (now : Nat) (sc : Scope) : Bool :=
  match sc with
  | .team | .blk | .cg => true
  | .die | .dev => t.unacked.isEmpty && t.hostWait.isEmpty && (t.gwct == 0 || decide (t.gwct < now))
  | .pod | .sys => t.unacked.isEmpty && t.hostWait.isEmpty && (t.gwct == 0 || decide (t.gwct + Config.skew < now))

/-- The wait of an instruction that is a release (R231, R235). A station's writes are performed at their point of visibility and
answered with GWCT 0 (R370); in probe mode nothing is written. -/
def Ctx.relHold (c : Ctx) (rel : Bool) (sc : Scope) : Option Wait :=
  if rel && !c.e.station && !c.e.probing && !releaseDone c.e.team c.e.s.time sc then some (.release sc) else none

/-- A release's effect once it need not wait. -/
def Ctx.afterRel (c : Ctx) (rel : Bool) (sc : Scope) (r : Res) : Res :=
  match c.relHold rel sc with
  | some w => .hold w
  | none => r

/-! Stores (R207). -/

/-- A core's stores wait for their homes' acknowledgements (R235); the last host address is noted (R469). -/
def Ctx.noteStores (c : Ctx) (accs : List Acc) (s : State) : State :=
  if c.e.station then s
  else
    let ps := accs.filterMap fun q =>
      match q.2.2 with
      | .mem t p => some (p, t.pa q.2.1)
      | .scr _ _ => none
    if ps.isEmpty then s
    else
      let lines := (ps.map fun p => p.1.line).dedup
      let host := (ps.filter fun p => p.1.kind == .host).getLast?
      c.modTeam s fun t =>
        { t with unacked := t.unacked ++ lines.filter (fun l => !t.unacked.contains l)
                 lastHost := (host.map Prod.snd).getD t.lastHost }

/-- The lanes' writes, ascending, so that the highest lane's stand (R206). -/
def Ctx.storeLanes (c : Ctx) (cache : Cache) (n : Nat) (val : Nat → Nat) (accs : List Acc) (s : State) : State :=
  let s := accs.foldl (fun s q => writePlace s c.e.blk c.e.la cache q.2.1 q.2.2 (leBytes n (val q.1)) false) s
  c.noteStores accs (clearCovered s c.e.blk (accs.map fun q => (q.2.2, n)))

def noExtra : Nat → Target → Option Nat := fun _ _ => none

def Ctx.store (c : Ctx) (mc : MemCtl) (gen : Bool) (a b x : Opnd) : Res :=
  let n := sizeBytes mc.size
  let k := sizeRegs mc.size
  if c.e.probing then
    c.probeAccess [fA a (if gen then 2 else 1), fB b 1] c.lanes (c.ea gen a b) n 1 noExtra fun s _ => s
  else
    c.afterRel (orderRel mc.order) mc.scope
      (c.access c.lanes (c.ea gen a b) n 1 noExtra fun accs =>
        .done (c.storeLanes mc.cache n (fun l => c.rdN 2 x k l) accs c.s))

def storeForm (gen sta : Bool) (k : Nat) (a b x : Opnd) : Form :=
  ⟨[fA a (if gen then 2 else 1), fB b 1, fC x k], [], .vec, none, .own, sta, false⟩

def opSt (mc : MemCtl) (a b x : Opnd) : Op where
  form := storeForm true true (sizeRegs mc.size) a b x
  eff := fun c => c.store mc true a b x
/-- R207. -/
def execSt (h : Hdr) (mc : MemCtl) (a b x : Opnd) (s : State) : Host.Outcome State Fault Refusal :=
  (opSt mc a b x).run (issOf h) s

def opSts (mc : MemCtl) (a b x : Opnd) : Op where
  form := storeForm false true (sizeRegs mc.size) a b x
  eff := fun c => c.store mc false a b x
/-- R207. -/
def execSts (h : Hdr) (mc : MemCtl) (a b x : Opnd) (s : State) : Host.Outcome State Fault Refusal :=
  (opSts mc a b x).run (issOf h) s

/-! Atomics (R211 to R215). -/

/-- The new value of an atomic of w bits from the old value o, the operand c and the compare value. -/
def atomNew (op : AtomOp) (w o c cmp : Nat) : Nat :=
  let so := readInt true w o
  let sc := readInt true w c
  match op with
  | .add => (o + c) % 2 ^ w
  | .minS => if so ≤ sc then o else c
  | .minZ => min o c
  | .maxS => if so ≤ sc then c else o
  | .maxZ => max o c
  | .and => o &&& c
  | .or => o ||| c
  | .xor => o ^^^ c
  | .exch => c
  | .cas => if o = cmp then c else o
  | .inc => if c ≤ o then 0 else o + 1
  | .dec => if o = 0 ∨ c < o then c else o - 1
  | .faddF32 => fp32.encode .rne (FVal.sum .rne [fp32.decode o, fp32.decode c])
  | .faddBf16x2 =>
    let half : Nat → Nat := fun i =>
      bf16.encode .rne (FVal.sum .rne [bf16.decode (bitsOf o (16 * i + 15) (16 * i)), bf16.decode (bitsOf c (16 * i + 15) (16 * i))])
    half 0 + 65536 * half 1
  | .fminF32 => fMinMax fp32 false o c
  | .fmaxF32 => fMinMax fp32 true o c

/-- The route class of an atomic (R212). -/
def atomClass : AtomOp → Nat
  | .add => 0
  | .exch => 1
  | .cas => 2
  | _ => 3

/-- An atomic off this module whose route does not carry it (R212). -/
def Ctx.routeAt (c : Ctx) (op : AtomOp) (wide : Bool) (ea : Nat) (tg : Target) : Option Nat :=
  match tg with
  | .scr _ _ => none
  | .mem t p => if p.kind != .own && !routeAtomic c.e.s (t.pa ea) (atomClass op) wide then some cATOMRT else none

/-- The value at a place's home, and the write of an atomic there (R212). -/
def Ctx.homeVal (c : Ctx) (s : State) (tg : Target) (n : Nat) : Nat :=
  match tg with
  | .scr bid off =>
    match s.block? bid with
    | some b => numAt b.scratch off n
    | none => 0
  | .mem _ p => leNat (if c.e.station then lineBytes (memLine s p) (p.loc % 128) n else homeBytes s p n)

def Ctx.homePut (c : Ctx) (s : State) (op : AtomOp) (ea : Nat) (tg : Target) (n new operand cmp : Nat) : State :=
  match tg with
  | .scr bid off => s.modBlock bid fun b => putScratch b off (leBytes n new) false
  | .mem t p =>
    if c.e.station then stationWrite s p c.e.la.ctx (leBytes n new) false
    else
      let s := useTlb s c.e.blk c.e.la t ea
      podSend (atomicWrite s (blockReq c.e.blk c.e.la t .normal ea) p (leBytes n new)) p c.e.la.ctx 2 op
        (leBytes n operand ++ (if op = .cas then leBytes n cmp else []))

/-- The lanes' operations in ascending order, each indivisible (R206): old values, and the state after. -/
def Ctx.atomLanes (c : Ctx) (op : AtomOp) (n : Nat) (x : Nat → Nat) (cmp : Nat → Nat) (accs : List Acc) (s : State) :
    List (Nat × Nat) × State :=
  accs.foldl (fun acc q =>
    let o := c.homeVal acc.2 q.2.2 n
    (acc.1 ++ [(q.1, o)], c.homePut acc.2 op q.2.1 q.2.2 n (atomNew op (8 * n) o (x q.1) (cmp q.1)) (x q.1) (cmp q.1))) ([], s)

def scopeRank : Scope → Nat
  | .team => 0 | .blk => 1 | .cg => 2 | .die => 3 | .dev => 4 | .pod => 5 | .sys => 6

/-- The scope that atomics are performed at (R212): pod memory's at pod scope or wider, host memory's at system scope. -/
def atomScope (sc : Scope) (accs : List Acc) : Scope :=
  accs.foldl (fun sc q =>
    match q.2.2 with
    | .scr _ _ => sc
    | .mem _ p =>
      match p.kind with
      | .own => sc
      | .pod _ => if scopeRank sc < scopeRank .pod then .pod else sc
      | .host => .sys) sc

/-- Lanes that an atomic is performed for: all that take part, or with a scalar destination the lowest (R64, R211). -/
def Ctx.atomLs (c : Ctx) (d : Opnd) : List Nat := if opIsS d then [c.e.low c.m] else c.lanes

/-- `ATOM` and `ATOMS`. -/
def Ctx.atomic (c : Ctx) (mc : MemCtl) (op : AtomOp) (gen : Bool) (d a b x : Opnd) : Res :=
  let n := sizeBytes mc.size
  let k := sizeRegs mc.size
  let ls := c.atomLs d
  let extra : Nat → Target → Option Nat := fun ea tg =>
    (c.routeAt op (n == 8) ea tg).orElse fun _ => if c.homePoison n tg then some cPOISON else none
  if c.e.probing then
    c.probeAccess [fA a (if gen then 2 else 1), fB b 1] ls (c.ea gen a b) n 2 extra fun s _ =>
      c.mark [fD d k] (fun _ => true) (c.putUni d k 0 s)
  else
    c.afterRel (orderRel mc.order) mc.scope
      (c.access ls (c.ea gen a b) n 2 extra fun accs =>
        let sc := atomScope mc.scope accs
        c.afterRel (orderRel mc.order) sc
          (let r := c.atomLanes op n (fun l => c.rdN 2 x k l) (fun l => c.rdN 3 d k l) accs c.s
           let val : Nat → Nat := fun l => laneVal r.1 (if opIsS d then ls.headD 0 else l)
           .done (c.acquires mc.order sc (c.noteHost d k accs (c.putOn ls d k val (c.noteStores accs r.2))))))

def atomForm (op : AtomOp) (gen sta : Bool) (k : Nat) (d a b x : Opnd) : Form :=
  ⟨[fA a (if gen then 2 else 1), fB b 1, fC x k] ++ (if op = .cas then [fD d k] else []), [fD d k],
    if opIsS d then .scalar else .vec, none, .own, sta, false⟩

def opAtom (mc : MemCtl) (op : AtomOp) (d a b x : Opnd) : Op where
  form := atomForm op true true (sizeRegs mc.size) d a b x
  eff := fun c => c.atomic mc op true d a b x
/-- R211. -/
def execAtom (h : Hdr) (mc : MemCtl) (op : AtomOp) (d a b x : Opnd) (s : State) : Host.Outcome State Fault Refusal :=
  (opAtom mc op d a b x).run (issOf h) s

def opAtoms (mc : MemCtl) (op : AtomOp) (d a b x : Opnd) : Op where
  form := atomForm op false false (sizeRegs mc.size) d a b x
  eff := fun c => c.atomic mc op false d a b x
/-- R213. -/
def execAtoms (h : Hdr) (mc : MemCtl) (op : AtomOp) (d a b x : Opnd) (s : State) : Host.Outcome State Fault Refusal :=
  (opAtoms mc op d a b x).run (issOf h) s

/-- A `RED` discarded on poison, for the maintenance log (R215, R480). -/
def Ctx.redPoison (c : Ctx) (s : State) (q : Acc) : State :=
  match q.2.2 with
  | .scr _ off =>
    detectError s ⟨1, 1, c.e.la.ctx, w64 (coreDie c.e.blk.coreNum + 256 * 2 + 2 ^ 16 * (off / 128)), 0, none⟩
  | .mem t p => detectError s ⟨2, 1, c.e.la.ctx, w64 (stackOf p.loc), w64 (t.pa q.2.1), none⟩

/-- `RED`: lanes on poisoned locations are discarded (R214, R215). -/
def Ctx.reduce (c : Ctx) (mc : MemCtl) (op : AtomOp) (a b x : Opnd) : Res :=
  let n := sizeBytes mc.size
  let k := sizeRegs mc.size
  if c.e.probing then
    c.probeAccess [fA a 2, fB b 1] c.lanes (c.ea true a b) n 1 (c.routeAt op (n == 8)) fun s _ => s
  else
    c.afterRel (orderRel mc.order) mc.scope
      (c.access c.lanes (c.ea true a b) n 1 (c.routeAt op (n == 8)) fun accs =>
        c.afterRel (orderRel mc.order) (atomScope mc.scope accs)
          (let bad := accs.filter fun q => c.homePoison n q.2.2
           let ok := accs.filter fun q => !c.homePoison n q.2.2
           let s := (c.atomLanes op n (fun l => c.rdN 2 x k l) (fun _ => 0) ok c.s).2
           .done (bad.foldl c.redPoison (c.noteStores ok s))))

def opRed (mc : MemCtl) (op : AtomOp) (a b x : Opnd) : Op where
  form := storeForm true true (sizeRegs mc.size) a b x
  eff := fun c => c.reduce mc op a b x
/-- R214. -/
def execRed (h : Hdr) (mc : MemCtl) (op : AtomOp) (a b x : Opnd) (s : State) : Host.Outcome State Fault Refusal :=
  (opRed mc op a b x).run (issOf h) s

/-! Fences, cache instructions, the clock, `WAITC`. -/

def opFence (ord : Order) (sc : Scope) : Op where
  form := ⟨[], [], .vec, none, .run, true, false⟩
  eff := fun c => c.afterRel (orderRel ord) sc (.done (c.acquires ord sc c.s))
/-- R216. Accesses are performed in program order, so that only a release waits. -/
def execFence (h : Hdr) (ord : Order) (sc : Scope) (s : State) : Host.Outcome State Fault Refusal :=
  (opFence ord sc).run (issOf h) s

/-- The lanes of `PREF` and `CCTL` whose address translates and may be read; the others are dropped. -/
def Ctx.reachable (c : Ctx) (a b : Opnd) : List (Nat × Tr × Phys) :=
  c.lanes.filterMap fun l =>
    let ea := c.ea true a b l
    if windowOf ea || c.markedAt [fA a 2, fB b 1] l then none
    else match resolveMem c.e.s c.e.blk c.e.la.ctx ea 0 with
      | .ok (t, p) => some (ea, t, p)
      | .error _ => none

def opPref (l2 : Bool) (cache : Cache) (a b : Opnd) : Op where
  form := ⟨[fA a 2, fB b 1], [], .vec, none, .run, false, false⟩
  eff := fun c => .done ((c.reachable a b).foldl (fun s q =>
    if (homeLine s q.2.2).2 then s
    else
      let s := useTlb s c.e.blk c.e.la q.2.1 q.1
      (coreReadLine s (blockReq c.e.blk c.e.la q.2.1 cache q.1) q.2.2 (!l2)).2) c.s)
/-- R217. -/
def execPref (h : Hdr) (l2 : Bool) (cache : Cache) (a b : Opnd) (s : State) : Host.Outcome State Fault Refusal :=
  (opPref l2 cache a b).run (issOf h) s

/-- `CCTL` on a line of a core's die (R218). -/
def cctlLine (s : State) (op : CctlOp) (core line : Nat) : State :=
  let die := coreDie core
  match op with
  | .wb =>
    let clean : L1Copy → L1Copy := fun k => if k.core = core ∧ k.line = line then { k with dirty := false } else k
    dirSettle { s with l1 := s.l1.map clean } die [line]
  | .inv => l1Drop s fun k => k.core == core && k.line == line
  | .drop => dropLines s fun c => c.die == die && c.line == line && c.stamp.isSome

def opCctl (op : CctlOp) (a b : Opnd) : Op where
  form := ⟨[fA a 2, fB b 1], [], .vec, none, .run, false, false⟩
  eff := fun c => .done ((c.reachable a b).foldl (fun s q => cctlLine s op c.e.blk.coreNum q.2.2.line) c.s)
/-- R218. -/
def execCctl (h : Hdr) (op : CctlOp) (a b : Opnd) (s : State) : Host.Outcome State Fault Refusal :=
  (opCctl op a b).run (issOf h) s

def opRdc (ord : Order) (sc : Scope) (d : Opnd) : Op where
  form := ⟨[], [fD d 2], if opIsS d then .scalar else .vec, none, .run, false, false⟩
  eff := fun c => c.afterRel (orderRel ord) sc (.done (c.acquires ord sc (c.putUni d 2 c.e.s.time c.s)))
/-- R219. -/
def execRdc (h : Hdr) (ord : Order) (sc : Scope) (d : Opnd) (s : State) : Host.Outcome State Fault Refusal :=
  (opRdc ord sc d).run (issOf h) s

def opWaitc (cls : Nat) (a : Opnd) : Op where
  form := teamForm [fA a 1] [] .ends true false
  eff := fun c =>
    let n := (c.uni 0 a).toNat
    if c.e.team.count cls ≤ n ∨ 255 ≤ n then .done c.s else .hold (.waitc cls n)
/-- R220. -/
def execWaitc (h : Hdr) (cls : Fin 8) (a : Opnd) (s : State) : Host.Outcome State Fault Refusal :=
  (opWaitc cls.val a).run (issOf h) s

end Sys2Proof.Machine
end

