-- ==== Sys2Proof/Machine/Barrier.lean ====
section
/-! DEFINITION. Meeting points: async barrier objects (R221, R222), `BAR` (R223 to R225) and `GBAR` (R226). -/

namespace Sys2Proof.Machine

/-! Barrier objects. -/

/-- The address an `ABAR` names (R221). -/
def Ctx.objAddr (c : Ctx) (g : Bool) (a : Opnd) : Nat :=
  if g then (c.uni64 0 a).toNat else (localAddr (c.uni 0 a).toNat).toNat

/-- The object at an address: block handle and offset, or the cause (R24). -/
def Env.objAt (e : Env) (addr : Nat) : Except Nat (Nat × Nat) :=
  if windowOf addr then
    match resolveWindow e.s e.la.hdr e.blk addr 16 with
    | .error k => .error k
    | .ok r => if r.2 % 16 = 0 then .ok r else .error cALIGN
  else .error cSPWIN

/-- An `ABAR` on its object, after the checks of its operands. In probe mode an operation on a marked address checks
nothing (R252). -/
def Ctx.onObj (c : Ctx) (g : Bool) (a : Opnd) (bad : Bool) (probe : Res) (act : Nat → Nat → Res) : Res :=
  let addr := c.objAddr g a
  if c.e.probing && c.markedAt [fA a (if g then 2 else 1)] 0 then probe
  else if bad then .trap cILLOP 0 (c.e.low c.m)
  else match c.e.objAt addr with
    | .error k => .trap k (w64 addr) (c.e.low c.m)
    | .ok (bid, off) => if c.e.probing then probe else act bid off

def abarForm (g : Bool) (a : Opnd) (srcs dsts : List Field) (probe : ProbeK) : Form :=
  ⟨fA a (if g then 2 else 1) :: srcs, dsts, if dsts.any dstScalar then .scalar else .vec, none, probe, true, false⟩

/-- The object after INIT (R221). -/
def initObj (count mark : Nat) : BarObj := ⟨0, 0, mark, count, 0, count⟩

def opAbarInit (g : Bool) (a b x : Opnd) : Op where
  form := abarForm g a [fB b 1, fC x 1] [] .own
  eff := fun c =>
    let n := (c.uni 1 b).toNat
    let mk := (c.uni 2 x).toNat
    c.onObj g a (n == 0 || decide (2 ^ 23 ≤ n) || decide (2 ^ 9 ≤ mk)) (.done c.s) fun bid off =>
      .done (c.s.modBlock bid fun b =>
        updateObj { b with objs := if b.objs.contains off then b.objs else b.objs ++ [off] } off fun _ => initObj n mk)
/-- R221. -/
def execAbarInit (h : Hdr) (g : Bool) (a b x : Opnd) (s : State) : Host.Outcome State Fault Refusal :=
  (opAbarInit g a b x).run (issOf h) s

def opAbarArrive (g : Bool) (d a : Opnd) : Op where
  form := abarForm g a [] [fD d 1] .own
  eff := fun c =>
    c.onObj g a false (.done (c.mark [fD d 1] (fun _ => true) (c.putUni d 1 0 c.s))) fun bid off =>
      let old := match c.e.s.block? bid with
        | some b => (getObj b off).epoch
        | none => 0
      .done (c.putUni d 1 old (c.s.modBlock bid fun b => updateObj b off objArrive))
/-- R221, R222. -/
def execAbarArrive (h : Hdr) (g : Bool) (d a : Opnd) (s : State) : Host.Outcome State Fault Refusal :=
  (opAbarArrive g d a).run (issOf h) s

def objExpect (n : Nat) (o : BarObj) : BarObj := { o with owed := (o.owed + n) % 2 ^ 32 }

def opAbarExpect (g : Bool) (a b : Opnd) : Op where
  form := abarForm g a [fB b 1] [] .own
  eff := fun c =>
    c.onObj g a false (.done c.s) fun bid off =>
      .done (c.s.modBlock bid fun k => updateObj k off (objExpect (c.uni 1 b).toNat))
/-- R221. -/
def execAbarExpect (h : Hdr) (g : Bool) (a b : Opnd) (s : State) : Host.Outcome State Fault Refusal :=
  (opAbarExpect g a b).run (issOf h) s

/-- The issuing record waits at its instruction, and goes on after it when the wait is over. -/
def Ctx.waitNext (c : Ctx) (w : Wait) (s : State) : State :=
  c.modTeam s fun t => (t.modRec c.e.who.sub fun r => { r with pc := c.e.rcd.pc }).waitAt c.e.who.sub w

/-- The epoch of an object of a block. -/
def objEpoch (s : State) (bid off : Nat) : Nat :=
  match s.block? bid with
  | some b => (getObj b off).epoch
  | none => 0

/-- An object's scope (R222): cluster group through the cluster window, else block. -/
def objScope (g : Bool) : Scope := if g then .cg else .blk

def opAbarWait (g : Bool) (a b : Opnd) : Op where
  form := abarForm g a [fB b 1] [] .ends
  eff := fun c =>
    c.onObj g a false (.done c.s) fun bid off =>
      let e := c.uni 1 b
      if epochPassed (objEpoch c.e.s bid off) e.toNat then .done (acquireAt c.s c.e.who (objScope g))
      else .done (c.waitNext (.abar (w64 (c.objAddr g a)) e (c.e.rcd.pc + w64 c.iss.len)) c.s)
/-- R221, R222. -/
def execAbarWait (h : Hdr) (g : Bool) (a b : Opnd) (s : State) : Host.Outcome State Fault Refusal :=
  (opAbarWait g a b).run (issOf h) s

def opAbarTest (g : Bool) (d a b : Opnd) : Op where
  form := abarForm g a [fB b 1] [fD d 1] .own
  eff := fun c =>
    let addr := c.objAddr g a
    if c.e.probing && c.markedAt [fA a (if g then 2 else 1)] 0 then
      .done (c.mark [fD d 1] (fun _ => true) (c.putUni d 1 0 c.s))
    else match c.e.objAt addr with
      | .error k => .trap k (w64 addr) (c.e.low c.m)
      | .ok (bid, off) =>
        let v := if epochPassed (objEpoch c.e.s bid off) (c.uni 1 b).toNat then 1 else 0
        let mk := c.markedAt [fB b 1] 0
        let s := c.mark [fD d 1] (fun _ => mk) (c.putUni d 1 v c.s)
        .done (if v = 1 ∧ c.e.probing = false then acquireAt s c.e.who (objScope g) else s)
/-- R221, R222. -/
def execAbarTest (h : Hdr) (g : Bool) (d a b : Opnd) (s : State) : Host.Outcome State Fault Refusal :=
  (opAbarTest g d a b).run (issOf h) s

/-! The block barrier. -/

/-- `BAR` with and without a wait (R223, R224). -/
def Ctx.barrier (c : Ctx) (wait : Bool) (a b : Opnd) : Res :=
  let id := (c.uni 0 a).toNat
  let n := (c.uni 1 b).toNat
  let e1 := if c.e.station then c.e.blk.teams.length else c.e.la.hdr.ext 1
  if 15 < id ∨ (!opIsZero b ∧ (n = 0 ∨ e1 < n)) then .trap cILLOP 0 (c.e.low c.m)
  else if (barOf c.e.blk id).arrived.contains c.e.who.team then .hold (.barAgain id)
  else
    let s := c.modTeam c.s fun t =>
      { t.drain with barIssued := t.barIssued ++ [(id, c.e.who.sub, if opIsZero b then none else some n)] }
    let s := if wait then c.waitNext (.bar id (c.e.rcd.pc + w64 c.iss.len)) s else s
    let now := s.time
    .done (s.modBlock c.e.who.bid (barTest now id))

def opBar (a b : Opnd) : Op where
  form := teamForm [fA a 1, fB b 1] [] .ends true false
  eff := fun c => c.barrier true a b
/-- R223. -/
def execBar (h : Hdr) (a b : Opnd) (s : State) : Host.Outcome State Fault Refusal := (opBar a b).run (issOf h) s

def opBarArrive (a b : Opnd) : Op where
  form := teamForm [fA a 1, fB b 1] [] .ends true false
  eff := fun c => c.barrier false a b
/-- R223. -/
def execBarArrive (h : Hdr) (a b : Opnd) (s : State) : Host.Outcome State Fault Refusal := (opBarArrive a b).run (issOf h) s

/-! The launch-wide barrier. -/

def opGbar (a : Opnd) : Op where
  form := teamForm [fA a 1] [] .ends false false
  eff := fun c =>
    let id := (c.uni 0 a).toNat
    if 3 < id ∨ !c.e.la.hdr.cores then .trap cILLOP 0 (c.e.low c.m)
    else if (gbarOf c.e.la id).arrived.contains (c.e.blk.idx, c.e.who.team) then .hold (.gbarAgain id)
    else
      c.afterRel true .dev
        (let s := c.modTeam c.s fun t => { t.drain with gbarIssued := t.gbarIssued ++ [(id, c.e.who.sub)] }
         .done (gbarTest (c.waitNext (.gbar id (c.e.rcd.pc + w64 c.iss.len)) s) c.e.la.q c.e.la.lseq id))
/-- R226. -/
def execGbar (h : Hdr) (a : Opnd) (s : State) : Host.Outcome State Fault Refusal := (opGbar a).run (issOf h) s

end Sys2Proof.Machine
end

