-- ==== Sys2Proof/Machine/Chunk.lean ====
section
/-! DEFINITION. What engines share: stopping a launch for an operation (R256), descriptors read from the scratchpad, group
registrations (R390, R391), and chunks: forming, sending and firing them (R389, R396 to R402). -/

namespace Sys2Proof.Machine

/-! Stops of engine operations (R21, R256). -/

/-- The launch stops for an operation of a team: the record names the operation's instruction. An operation that an armed slot
fired where the launch has no chain team is reported at the block's first team (log entry 32). -/
def engineStop (s : State) (b : Block) (team cause : Nat) (pc trapa : W64) (pages : List W64) : State :=
  match (b.team? team).or b.teams.head? with
  | none => s
  | some t =>
    let st : Stop :=
      { cause := cause, pc := pc, trapa := trapa, wid := t.wid0, at_ := s.time, core := b.coreNum, row := t.row, reason := 0,
        hold := false, silent := false, pages := pages.map fun p => ⟨p, s.time, b.coreNum, t.row⟩ }
    stopLaunch s b.q b.lseq st (cause != cXLATE)

/-- Addresses in the pages of a range, one to a page. -/
def pagesOf (ea n : Nat) : List Nat :=
  if n = 0 then [] else (List.range ((ea + n - 1) / 65536 - ea / 65536 + 1)).map fun i => max ea (65536 * (ea / 65536 + i))

/-- The first 64 of a list of addresses that have no translation, as pages (R256). -/
def missingPages (s : State) (b : Block) (ctx : Nat) (l : List Nat) : List W64 :=
  (((l.filter fun a => !windowOf a && (siteTranslate s b ctx a).isNone).map fun a => pageOf (w64 a)).dedup).take 64

/-- A stop of an operation whose remaining addresses are listed, one to a page. -/
def engineFault (s : State) (b : Block) (la : Launch) (team : Nat) (pc : W64) (e : Nat × Nat) (ahead : List Nat) : State :=
  engineStop s b team e.1 pc (w64 e.2) (if e.1 = cXLATE then missingPages s b la.ctx (e.2 :: ahead) else [])

/-! Matrix instructions in the engine. -/

/-- The place that a `COLL` which has started holds in the engine's order (R412); it is no matrix instruction. -/
def isColl : Instr → Bool
  | .coll _ _ _ _ _ _ => true
  | _ => false

/-- The slot that an instruction not yet started has acquired (R324). -/
def slotOf (b : Block) (o : MatOp) : Option AcqSlot := b.mat.acq.find? fun a => a.op == o.id && a.stalled

/-! Descriptors. -/

/-- A range of the own scratchpad copied to addresses from 0. -/
def Block.copyOut (b : Block) (off n : Nat) : Memory := setBytes [] 0 (b.bytes off n)

/-- A cause with `%trapa` of an own-scratchpad offset. -/
def scrFail (cause off : Nat) : Option (Nat × W64) := some (cause, localAddr off)

/-- The first check that fails. -/
def firstFail (l : List (Option (Nat × W64))) : Option (Nat × W64) := l.findSome? id

def illIf (b : Bool) : Option (Nat × W64) := if b then some (cILLOP, 0) else none

/-- Own-scratchpad ranges (offset, bytes) beyond the scratch size. -/
def spwinIf (b : Block) (l : List (Nat × Nat)) : Option (Nat × W64) :=
  (l.find? fun r => !b.fits r.1 r.2).bind fun r => scrFail cSPWIN r.1

/-- Own-scratchpad offsets that are not aligned: (offset, alignment). -/
def alignIf (l : List (Nat × Nat)) : Option (Nat × W64) :=
  (l.find? fun r => r.1 % r.2 != 0).bind fun r => scrFail cALIGN r.1

/-- A list of optional ranges. -/
def optList {α : Type} (o : Option α) : List α :=
  match o with
  | some a => [a]
  | none => []

/-! Tiles as the scratch side sees them. -/

def tileKey (t m n : Nat) : Nat := 8192 * t + 32 * m + n
def Block.tile (b : Block) (t m n : Nat) : W32 := smGet 0 b.mat.tiles (tileKey t m n)

/-- The issue-side state of a tile (R313). -/
def noTile : TileStat := ⟨false, false, 0, 0, 0, 0⟩
def Block.itile (b : Block) (t : Nat) : TileStat := smGet noTile b.mat.istat t

/-- Rows of a tile as bytes. -/
def Block.tileBytes (b : Block) (t r0 rows : Nat) : List Byte :=
  (List.range (32 * rows)).flatMap fun i => leBytes 4 (b.tile t (r0 + i / 32) (i % 32)).toNat

/-! Groups (R389, R390, R391). -/

/-- A group descriptor (R389). -/
structure GDesc where
  id : Nat
  gen : Nat
  nranks : Nat
  myrank : Nat
  rtab : Nat
  root : Nat
  lbase : Nat
  lexp : Nat
  r0 : Nat
  nr1 : Nat
  cr1 : Nat
  nleaf : Nat
  fmt : Nat
  mlog : Nat
  mcap : Nat
  /-- the bytes that are to be zero -/
  zeros : Nat
  deriving DecidableEq, Repr

def gdescOf (m : Memory) (o : Nat) : GDesc :=
  let f : Nat → Nat → Nat := fun a n => numAt m (o + a) n
  { id := f 0 2, gen := f 2 1, nranks := f 4 2, myrank := f 6 2, rtab := f 8 4, root := f 12 2, lbase := f 16 4, lexp := f 20 1,
    r0 := f 21 1, nr1 := f 22 1, cr1 := f 23 1, nleaf := f 24 4, fmt := f 28 1, mlog := f 32 8, mcap := f 40 4,
    zeros := f 3 1 + f 14 2 + f 29 3 + f 44 4 + f 56 8 }

def GDesc.etype (g : GDesc) : Nat := g.fmt % 16
def GDesc.opr (g : GDesc) : Nat := g.fmt / 16 % 4

/-- The subtree fields are outside their limits. -/
def GDesc.badTree (g : GDesc) : Bool := decide (31 < g.lexp) || g.lbase % 2 ^ g.lexp != 0

/-- A field of a group descriptor is outside its limits; `tree`: its subtree fields are read (R410 ignores them). -/
def GDesc.bad (g : GDesc) (tree : Bool) : Bool :=
  g.zeros != 0 || g.nranks == 0 || decide (1024 < g.nranks) || decide (g.nranks ≤ g.myrank) || decide (g.nranks ≤ g.root)
    || g.rtab % 4 != 0 || (tree && g.badTree) || decide (255 < g.r0 + g.nr1) || g.nleaf == 0
    || !(g.etype == 0 || g.etype == 3 || g.etype == 4) || g.opr == 3 || decide (64 ≤ g.fmt) || g.mlog % 32 != 0
    || windowOf g.mlog

/-- Chunks of a group (R389). -/
def GDesc.chunks (g : GDesc) : Nat := (g.nr1 + 1 + g.cr1) / (g.cr1 + 1)

/-- First row and rows of a chunk. -/
def GDesc.rowsOf (g : GDesc) (c : Nat) : Nat × Nat :=
  let a := g.r0 + c * (g.cr1 + 1)
  (a, min (g.cr1 + 1) (g.r0 + g.nr1 + 1 - a))

/-- A rank table entry of a block's scratchpad: device and context (R390). -/
def rankEntry (b : Block) (g : GDesc) (r : Nat) : Nat × Nat :=
  let e := b.num (g.rtab + 4 * r) 4
  (e % 1024, bitsOf e 15 10)

/-- What R390 and R391 say to a block that names a group. -/
inductive Reg where
  | ok | bad | full | quarantine
  deriving DecidableEq, Repr

def regCheck (s : State) (la : Launch) (b : Block) (g : GDesc) : Reg :=
  let mine : GroupReg → Bool := fun r => r.q == b.q && r.lseq == b.lseq && r.idx == b.idx
  let same := s.groups.filter fun r => r.ctx == la.ctx && r.id == g.id
  if same.any fun r => r.gen != g.gen || (r.rank == g.myrank && !mine r) || (mine r && r.rank != g.myrank) then .bad
  else if same.any mine then .ok
  else if s.quars.any fun k => k.ctx == la.ctx && k.id == g.id && !k.bundle then .quarantine
  else if 4096 ≤ s.groups.length then .full
  else .ok

/-- The block becomes a rank of the group; chunks held for it go on in the order they arrived, and those of another generation
are dropped and counted (R391); start messages of another go on, for their difference to be found (R408). -/
def register (s : State) (la : Launch) (b : Block) (g : GDesc) : State :=
  if s.groups.any fun r => r.ctx == la.ctx && r.id == g.id && r.q == b.q && r.lseq == b.lseq && r.idx == b.idx then s
  else
    let s : State := { s with groups := s.groups ++ [⟨la.ctx, g.id, g.gen, g.myrank, b.q, b.lseq, b.idx, g.mlog, g.mcap⟩] }
    let mine : NetIn → Bool := fun n =>
      match n.msg with
      | .chunk c => c.ctx == la.ctx && bitsOf c.hdr.toNat 15 0 == g.id
      | .start ctx id _ _ _ _ => ctx == la.ctx && id == g.id
      | _ => false
    let genOf : NetIn → Nat := fun n =>
      match n.msg with
      | .chunk c => bitsOf c.hdr.toNat 23 16
      | _ => g.gen
    let held := s.landing.filter mine
    let drop := held.filter fun n => genOf n != g.gen
    let s := drop.foldl (fun s _ => barCount s 0x190000) s
    { s with landing := s.landing.filter fun n => !mine n, inNet := held.filter (fun n => genOf n == g.gen) ++ s.inNet }

/-! Remote descriptors (R396), as copied at issue or arming. -/

structure RDesc where
  srcK : Nat
  dstK : Nat
  fmt : Nat
  tile : Nat
  flags : Nat
  rbit : Nat
  sbit : Nat
  peer : Nat
  src : Nat
  count : Nat
  dst : Nat
  pbar : Nat
  grp : Nat
  chunk : Nat
  tmask : W64
  tsb : Nat
  top : Nat
  zeros : Nat
  deriving DecidableEq, Repr

def rdescOf (m : Memory) : RDesc :=
  let f : Nat → Nat → Nat := fun a n => numAt m a n
  { srcK := f 0 1 % 4, dstK := f 0 1 / 4 % 4, fmt := f 1 1, tile := f 2 1, flags := f 3 1, rbit := f 4 1, sbit := f 5 1,
    peer := f 6 2, src := f 8 4, count := f 12 4, dst := f 16 8, pbar := f 24 4, grp := f 28 4, chunk := f 32 4,
    tmask := w64 (f 36 8), tsb := f 44 1, top := f 45 1, zeros := f 0 1 / 16 + f 46 18 }

def RDesc.etype (d : RDesc) : Nat := d.fmt % 16
def RDesc.opr (d : RDesc) : Nat := d.fmt / 16 % 4
def RDesc.bytes (d : RDesc) : Nat := d.count * elemSize d.etype
def RDesc.rows (d : RDesc) : Nat := d.src / 256 % 256 + 1
def RDesc.row0 (d : RDesc) : Nat := d.src % 256

/-- A field of a remote descriptor is outside its limits. -/
def RDesc.bad (d : RDesc) (red armed : Bool) : Bool :=
  d.zeros != 0 || decide (1 < d.srcK) || decide (1 < d.dstK) || decide (4 < d.etype) || decide (64 ≤ d.fmt)
    || (red && d.opr == 3) || decide (7 < d.tile) || decide (3 < d.flags) || d.count == 0 || decide (65536 < d.bytes)
    || decide (3 < d.tsb) || decide (1 < d.top) || (armed && d.tmask == 0)
    || (d.srcK == 1 && (decide (65536 ≤ d.src) || decide (256 < d.row0 + d.rows) || d.count != 32 * d.rows
          || elemSize d.etype != 4))
    || (d.dstK == 1 && windowOf d.dst)

/-- THE CHECKS of `CLSEND`, `CLRED` and `CLARM` (R397, R399): cause and `%trapa` of the first that fails. `off` is the
descriptor's offset, `desc` its bytes. -/
def sendCheck (b : Block) (off : Nat) (desc : Memory) (red armed : Bool) (bar : Option Nat) : Option (Nat × W64) :=
  let d := rdescOf desc
  let g := gdescOf b.scratch d.grp
  let es := elemSize d.etype
  firstFail
    [spwinIf b [(off, 64)],
     illIf (d.bad red armed),
     spwinIf b [(d.grp, 64)],
     illIf (g.bad true || (d.dstK == 0 && decide (g.nranks ≤ d.peer))),
     spwinIf b ([(g.rtab, 4 * g.nranks)] ++ (optList bar).map (fun o => (o, 16))
       ++ (if d.srcK = 0 then [(d.src, d.bytes)] else [])),
     alignIf ([(off, 64), (d.grp, 64)] ++ (optList bar).map (fun o => (o, 16))
       ++ (if d.srcK = 0 then [(d.src, es)] else [])),
     (if d.dstK = 0 ∧ d.dst % es ≠ 0 ∨ d.dstK = 1 ∧ d.dst % 128 ≠ 0 then some (cALIGN, w64 d.dst)
      else if d.dstK = 0 ∧ d.pbar ≠ 2 ^ 32 - 1 ∧ d.pbar % 16 ≠ 0 then some (cALIGN, w64 d.pbar) else none),
     (if d.srcK = 1 ∧ !(b.itile d.tile).valid then some (cTILE, w64 d.tile) else none)]

/-! Chunks (R401, R402). -/

/-- Fields of a chunk header. -/
structure CHdr where
  id : Nat
  gen : Nat
  ctx : Nat
  rank : Nat
  chunk : Nat
  hops : Nat
  fmt : Nat
  flags : Nat
  closure : W64
  trail : W64
  deriving DecidableEq, Repr

def CHdr.num (h : CHdr) : BitVec 256 :=
  BitVec.ofNat 256 (h.id % 2 ^ 16 + 2 ^ 16 * (h.gen % 256) + 2 ^ 24 * (h.ctx % 64) + 2 ^ 40 * (h.rank % 1024)
    + 2 ^ 64 * (h.chunk % 2 ^ 32) + 2 ^ 96 * (h.hops % 256) + 2 ^ 104 * (h.fmt % 256) + 2 ^ 112 * (h.flags % 2 ^ 16)
    + 2 ^ 128 * h.closure.toNat + 2 ^ 192 * h.trail.toNat)

def chdrOf (v : BitVec 256) : CHdr :=
  let n := v.toNat
  { id := bitsOf n 15 0, gen := bitsOf n 23 16, ctx := bitsOf n 29 24, rank := bitsOf n 49 40, chunk := bitsOf n 95 64,
    hops := bitsOf n 103 96, fmt := bitsOf n 111 104, flags := bitsOf n 127 112, closure := w64 (bitsOf n 191 128),
    trail := w64 (bitsOf n 255 192) }

def CHdr.failed (h : CHdr) : Bool := h.flags.testBit 1
def CHdr.poisoned (h : CHdr) : Bool := h.flags.testBit 0
def CHdr.result (h : CHdr) : Bool := h.flags.testBit 2

/-- The header as this device sends it on a port (R402). -/
def CHdr.hop (h : CHdr) (dev port : Nat) (reduced : Bool) : CHdr :=
  let sh := 16 * (h.hops % 4)
  let id := dev % 1024 + 1024 * port + (if reduced then 2 ^ 15 else 0)
  { h with trail := (h.trail &&& ~~~(w64 (2 ^ sh * 65535))) ||| w64 (2 ^ sh * id), hops := min 255 (h.hops + 1) }

/-- Elements of a payload. -/
def elemsOf (sz : Nat) : Nat → List Byte → List Nat
  | 0, _ => []
  | fuel + 1, l => if l.isEmpty then [] else leNat (l.take sz) :: elemsOf sz fuel (l.drop sz)

def elems (t : Nat) (l : List Byte) : List Nat := elemsOf (elemSize t) l.length l

/-- The closure word of a payload that a rank supplies itself: tonly where an element is non-finite (R404, R413). -/
def ownClosure (t : Nat) (els : List Nat) : W64 := closureWord t els (residue61 t els).2

/-- The port by which a message to a device leaves (R402, R474): 31 for this device itself, none where it is lost. `h` chooses among
the live ports. -/
def routeTo (s : State) (dev h : Nat) : Option Nat :=
  if dev = devId s then some 31
  else
    match devPorts s dev with
    | [] => none
    | live => some (pickPort live h)

/-- A message to a device: over a port, or to this device's own ranks (R402, R474, R475). None where it is lost. -/
def deliver (s : State) (dev h : Nat) (mk : Nat → Msg) : Option State :=
  (routeTo s dev h).map fun p =>
    if dev = devId s then { s with inNet := s.inNet ++ [⟨31, mk p⟩] } else { s with out := s.out ++ [.net dev p (mk p)] }

/-- The device that owns a place; this one for its own and its host's memory. -/
def placeDev (s : State) (p : Phys) : Nat :=
  match p.kind with
  | .pod d => d
  | _ => devId s

/-- The places of resolved memory pieces, as a chunk carries them: (place, key slot, interleave code, bytes). -/
def memPlaces (l : List Piece) : List (Nat × Nat × Nat × Nat) :=
  l.filterMap fun q => q.2.1.line?.map fun p => (p.loc, p.key, p.ilv, q.2.2)

/-- Where a memory destination lies, or the cause and address that stop it (R398). -/
def sendPlaces (s : State) (b : Block) (la : Launch) (d : RDesc) (red : Bool) : Except (Nat × Nat) (List Piece) :=
  match resolveRange s b la d.dst d.bytes 1 with
  | .error e => .error e
  | .ok l =>
    let ilvBad := l.any fun q =>
      match q.2.1 with
      | .mem t p => t.ilv != 2 || p.kind == .host
      | .scr _ _ => true
    if red && ilvBad then .error (cPERM, d.dst) else .ok l

/-- The devices that memory pieces lie on, in the order they come; the peer alone for a scratchpad destination. -/
def sendDevs (s : State) (peer : Option Nat) (places : List Piece) : List Nat :=
  match peer with
  | some d => [d]
  | none => ((places.filterMap fun q => q.2.1.line?.map (placeDev s)).reverse.dedup).reverse

/-- Source bytes that go with pieces: each piece with its part of the payload. -/
def splitData : List Piece → List Byte → List (Piece × List Byte)
  | [], _ => []
  | q :: l, data => (q, data.take q.2.2) :: splitData l (data.drop q.2.2)

/-- One part of an operation leaves for a device, or is lost (R474). -/
def sendPart (s : State) (op : SendOp) (part dev hash : Nat) (mk : Nat → Msg) : State × SendOp :=
  match routeTo s dev hash, deliver s dev hash mk with
  | some p, some t => (t, { op with parts := op.parts ++ [(part, p)] })
  | _, _ => ({ s with out := s.out ++ [.lost dev] }, { op with ok := false })

/-- FORMING AND SENDING the chunk of a `CLSEND` or `CLRED` (R397), past every check: the state with the operation in flight.
`op` is its handle; places are those of a memory destination. A memory range with homes on several devices goes as one chunk to each,
with that device's bytes (log entry 119). -/
def sendChunk (s : State) (b : Block) (la : Launch) (desc : Memory) (op : SendOp) (places : List Piece) : State :=
  let d := rdescOf desc
  let g := gdescOf b.scratch d.grp
  let data := if d.srcK = 1 then b.tileBytes d.tile d.row0 d.rows else b.bytes d.src d.bytes
  let pois := d.srcK == 0 && scratchPoison b d.src d.bytes
  let peer := rankEntry b g d.peer
  let toMem := d.dstK == 1
  let hdr : List Byte → CHdr := fun data =>
    { id := g.id, gen := g.gen, ctx := la.ctx, rank := if toMem then 0 else d.peer, chunk := d.chunk, hops := 0,
      fmt := d.fmt, flags := if pois then 1 else 0, closure := ownClosure d.etype (elems d.etype data), trail := 0 }
  let src : Nat → List Nat := fun part => [b.q, b.lseq, b.idx, op.id, part]
  let chunk : Nat → List Piece → List Byte → Nat → Msg := fun part ps data port =>
    .chunk { dev := devId s, ctx := if toMem then la.ctx else peer.2, hdr := ((hdr data).hop (devId s) port false).num, dst := d.dst,
             places := memPlaces ps, mem := toMem, red := op.red, coll := none,
             rbit := if d.flags.testBit 0 then some d.rbit else none,
             pbar := if d.pbar = 2 ^ 32 - 1 ∨ toMem then none else some d.pbar, data := data, src := src part }
  let op := { op with poisoned := pois }
  let (s, op) :=
    if op.red && toMem then
      let p := (places.head?).bind fun q => q.2.1.line?
      let dpa := (p.map Phys.loc).getD 0
      let dev := p.elim (devId s) (placeDev s)
      sendPart s op 0 dev ((bitsOf dpa 22 7) ^^^ (bitsOf dpa 38 23)) fun port =>
        .red (BitVec.ofNat 512 (((hdr data).hop (devId s) port false).num.toNat + 2 ^ 256 * (dpa % 2 ^ 41) + 2 ^ 320 * d.count)) data
          (devId s) (src 0)
    else
      ((sendDevs s (if toMem then none else some peer.1) places).zipIdx).foldl (fun a p =>
        let mine := (splitData places data).filter fun q => q.1.2.1.line?.map (placeDev s) == some p.1
        let bytes := if toMem then mine.flatMap Prod.snd else data
        sendPart a.1 a.2 p.2 p.1 (g.id ^^^ (d.chunk % 65536)) (chunk p.2 (mine.map Prod.fst) bytes)) (s, op)
  s.modBlock b.bid fun b => { b with sends := b.sends ++ [op] }

/-! Firing (R400). -/

/-- The operations of a block in flight; a 17th does not issue (R398). -/
def Block.sendFull (b : Block) : Bool := decide (16 ≤ b.sends.length)

/-- The chain team of a launch. -/
def chainTeam (la : Launch) : Nat := la.hdr.chain

/-- The registration that a slot's operation needs is not to be had now (R390, R391). -/
def slotHeld (s : State) (b : Block) (a : Arm) : Bool :=
  match s.launch? b.q b.lseq with
  | none => true
  | some la =>
    match regCheck s la b (gdescOf b.scratch (rdescOf a.desc).grp) with
    | .full | .quarantine => true
    | _ => false

def disarm (n : Nat) (b : Block) : Block := { b with arms := b.arms.map fun k => if k.n = n then { k with armed := false } else k }

/-- One armed slot whose mask is satisfied fires: it is disarmed, and its operation runs or stops the launch (R400, log entry 32). -/
def fireSlot (s : State) (bid : Nat) (a : Arm) : State :=
  match s.block? bid with
  | none => s
  | some b =>
    match s.launch? b.q b.lseq with
    | none => s
    | some la =>
      let d := rdescOf a.desc
      let red := d.top == 1
      let g := gdescOf b.scratch d.grp
      let s := s.modBlock bid (disarm a.n)
      match sendCheck b 0 a.desc red true none with
      | some (cause, trapa) => engineStop s b (chainTeam la) cause a.pc trapa []
      | none =>
        if regCheck s la b g = .bad then engineStop s b (chainTeam la) cILLOP a.pc 0 []
        else match (if d.dstK = 1 then sendPlaces s b la d red else .ok []) with
          | .error e => engineFault s b la (chainTeam la) a.pc e (pagesOf d.dst d.bytes)
          | .ok places =>
            let op : SendOp :=
              { id := s.nextId, team := chainTeam la, red := red, desc := a.desc, fired := true, poisoned := false, parts := [],
                ok := true, pc := a.pc, bar := none, lines := [], gwct := 0 }
            let s : State := { s with nextId := s.nextId + 1 }
            sendChunk (register s la b g) b la a.desc op places

/-- A slot is armed and its mask satisfied. -/
def armMet (b : Block) (sb : Nat) (a : Arm) : Bool :=
  let d := rdescOf a.desc
  a.armed && d.tsb == sb && (smGet 0 b.sb sb &&& d.tmask) == d.tmask

/-- The slots of a block in ascending order. -/
def Block.armsUp (b : Block) : List Arm :=
  (List.range 16).flatMap fun n => b.arms.filter fun a => a.n == n

/-- One scoreboard tested after its update (R400): every satisfied slot fires, then the clears apply. -/
def testSb (s : State) (bid sb : Nat) : State :=
  match s.block? bid with
  | none => s
  | some b =>
    let met := b.armsUp.filter fun a => armMet b sb a && !slotHeld s b a
    let go := met.take (16 - b.sends.length)
    let s := go.foldl (fun s a => fireSlot s bid a) s
    let clear := (go.filter fun a => a.clr).foldl (fun m a => m ||| (rdescOf a.desc).tmask) (0 : W64)
    if clear = 0 then s
    else s.modBlock bid fun b => { b with sb := smSet 0 b.sb sb (smGet 0 b.sb sb &&& ~~~clear) }

/-- The scoreboards of a block that were updated are tested. -/
def testArms (s : State) (bid : Nat) : State :=
  match s.block? bid with
  | none => s
  | some b =>
    let s := s.modBlock bid fun b => { b with sbTest := [] }
    b.sbTest.foldl (fun s n => testSb s bid n) s

/-! Waiters at barrier objects (R25, R221). -/

/-- The wait of a record at an object is over, seen from its block. -/
def abarOver (s : State) (la : Launch) (b : Block) (r : Record) : Bool :=
  match r.wait with
  | .abar addr e _ =>
    match resolveWindow s la.hdr b addr.toNat 16 with
    | .error _ => false
    | .ok (bid, off) =>
      match s.block? bid with
      | some c => epochPassed (getObj c off).epoch e.toNat
      | none => false
  | _ => false

/-- A record released from an object goes on. -/
def releaseAbar (now : Nat) (r : Record) : Record :=
  match r.wait with
  | .abar _ _ next => { r with wait := .ready, pc := next, readySince := now, aged := false }
  | _ => r

/-- Every sub-team of a block whose object's epoch has passed goes on. -/
def wakeAbar (s : State) (b : Block) : State :=
  if b.teams.any fun t => t.records.any fun r => match r.wait with
    | .abar _ _ _ => true
    | _ => false
  then
    match s.launch? b.q b.lseq with
    | none => s
    | some la =>
      let done_ : Record → Bool := fun r => abarOver s la b r
      let now := s.time
      let go : Team → Team := fun t =>
        if t.records.any done_ then
          ((scopeTeams s b .cg).foldl Team.inherit
            { t with records := t.records.map fun r => if done_ r then releaseAbar now r else r }).fuse now
        else t
      s.modBlock b.bid fun c => { c with teams := c.teams.map go }
  else s

/-- WHAT FOLLOWS AN UPDATE at once: armed slots of updated scoreboards are tested (R400), and waits at barrier objects
that are over end (R25). -/
def settle (s : State) : State :=
  let s := (s.blocks.filter fun b => !b.sbTest.isEmpty).foldl (fun s b => testArms s b.bid) s
  s.blocks.foldl wakeAbar s

end Sys2Proof.Machine
end

