-- ==== Sys2Proof/Machine/Copy.lean ====
section
/-! DEFINITION. The copy engine and circular buffers (R273 to R307). -/

namespace Sys2Proof.Machine

/-! Circular buffers (R290 to R294). -/

/-- A circular-buffer descriptor (R290). -/
structure CBuf where
  base : Nat
  ssize : Nat
  count : Nat
  free : Nat
  filled : Nat
  head : Nat
  tail : Nat
  rsv : Nat
  done : Nat
  tags : Nat
  /-- reserved bits -/
  zeros : Nat
  deriving DecidableEq, Repr

def cbufOf (n : Nat) : CBuf :=
  { base := bitsOf n 31 0, ssize := bitsOf n 63 32, count := bitsOf n 71 64, free := bitsOf n 87 80, filled := bitsOf n 95 88,
    head := bitsOf n 103 96, tail := bitsOf n 111 104, rsv := bitsOf n 119 112, done := bitsOf n 191 128,
    tags := bitsOf n 255 224, zeros := bitsOf n 79 72 + bitsOf n 127 120 + bitsOf n 223 192 }

def CBuf.num (c : CBuf) : Nat :=
  c.base + 2 ^ 32 * c.ssize + 2 ^ 64 * c.count + 2 ^ 80 * c.free + 2 ^ 88 * c.filled + 2 ^ 96 * c.head + 2 ^ 104 * c.tail
    + 2 ^ 112 * c.rsv + 2 ^ 128 * c.done + 2 ^ 224 * c.tags

def noTags : Nat := 2 ^ 32 - 1

/-- R291. -/
def CBuf.broken (c : CBuf) (len : Nat) : Bool :=
  c.zeros != 0 || c.count == 0 || decide (64 < c.count) || decide (c.count < c.free + c.rsv + c.filled)
    || decide (c.count ≤ c.head) || decide (c.count ≤ c.tail) || c.tail != (c.head + c.filled + c.rsv) % c.count
    || (List.range 64).any (fun i => c.done.testBit i &&
        !((List.range c.rsv).any fun j => (c.head + c.filled + j) % c.count == i))
    || c.base % 128 != 0 || c.ssize % 128 != 0 || c.ssize == 0
    || (c.tags != noTags && (c.tags % 4 != 0 || decide (len < c.tags + 4 * c.count)))

def CBuf.acq (c : CBuf) : Nat := c.count - c.free - c.rsv - c.filled
def CBuf.slot (c : CBuf) (i : Nat) : Nat := c.base + i * c.ssize

/-- The descriptor at an offset of a block's scratchpad; none where R291 finds it broken. -/
def getCb (b : Block) (off : Nat) : Option CBuf :=
  let c := cbufOf (b.num off 32)
  if c.broken b.scratchLen then none else some c

def putCb (b : Block) (off : Nat) (c : CBuf) : Block := putScratch b off (leBytes 32 c.num) false

/-- A reservation (R293): the slot taken. -/
def CBuf.reserve (c : CBuf) : Nat × CBuf :=
  (c.tail, { c with tail := (c.tail + 1) % c.count, free := c.free - 1, rsv := c.rsv + 1 })

/-- Slots written in turn count as filled (R294). -/
def CBuf.settle (c : CBuf) : Nat → CBuf
  | 0 => c
  | fuel + 1 =>
    let i := (c.head + c.filled) % c.count
    if 0 < c.rsv ∧ c.done.testBit i then
      ({ c with done := c.done - 2 ^ i, filled := c.filled + 1, rsv := c.rsv - 1 } : CBuf).settle fuel
    else c

/-- The word at a slot's tag. -/
def tagAt (b : Block) (c : CBuf) (i : Nat) : Nat := if c.tags = noTags then 0 else b.num (c.tags + 4 * i) 4

/-- Slot i written, with its tag (R294). -/
def fillSlot (b : Block) (off i : Nat) (tag : Nat) : Block :=
  match getCb b off with
  | none => b
  | some c =>
    let b := if c.tags = noTags then b else putScratch b (c.tags + 4 * i) (leBytes 4 tag) false
    putCb b off (({ c with done := c.done ||| 2 ^ i } : CBuf).settle 64)

/-- An acquire's update (R298): the slot's offset and tag. -/
def acquireSlot (b : Block) (off : Nat) (c : CBuf) : (Nat × Nat) × Block :=
  ((c.slot c.head, tagAt b c c.head),
    putCb b off { c with head := (c.head + 1) % c.count, filled := c.filled - 1 })

/-- The first waiter at a buffer of one kind. -/
def firstWaiter (b : Block) (off : Nat) (acq : Bool) : Option CbWaiter := b.cbq.find? fun w => w.off == off && w.acq == acq

def dropWaiter (b : Block) (w : CbWaiter) : Block := { b with cbq := b.cbq.filter fun k => !(k == w) }

/-- What a wait at a buffer writes when it is served, and where the sub-team goes on: the registers and the next pc. -/
def cbGoes (v tag : Nat) : Wait → Option (List (Nat × Nat) × W64)
  | .cbacq _ d g next => some ((d, v) :: if g then [(d + 1, tag)] else [], next)
  | .cbres _ d next => some ([(d, v)], next)
  | _ => none

/-- A waiting sub-team is served: it takes its slot's offset and tag and goes on behind its instruction. -/
def serveSub (s : State) (w : CbWaiter) (v tag : Nat) : State :=
  let now := s.time
  s.modTeam w.who.bid w.who.team fun t =>
    match (t.rec? w.who.sub).bind fun r => cbGoes v tag r.wait with
    | none => t
    | some (ds, next) =>
      Team.fuse now (ds.foldl (fun t p => t.setS p.1 (w32 p.2))
        (t.modRec w.who.sub fun r => { r with pc := next, wait := .ready, readySince := now, aged := false }))

def Wait.isCb : Wait → Bool
  | .cbacq _ _ _ _ => true
  | .cbres _ _ _ => true
  | _ => false

/-- A sub-team that waits at a descriptor found broken issues its instruction again. -/
def wakeWaiter (s : State) (w : CbWaiter) : State :=
  let now := s.time
  s.modRec w.who (wakeRec Wait.isCb now)

def State.modCopy (s : State) (bid id : Nat) (f : CopyOp → CopyOp) : State :=
  s.modBlock bid fun b => { b with copies := b.copies.map fun o => if o.id = id then f o else o }

def Block.copy? (b : Block) (id : Nat) : Option CopyOp := b.copies.find? fun o => o.id == id

/-- A copy stops its launch at its reservation, at the buffer that its descriptor names (R291). -/
def copyStop (s : State) (bid id : Nat) : State :=
  match s.block? bid with
  | none => s
  | some b =>
    match b.copy? id with
    | none => s
    | some o => engineStop s b o.team cCBUF o.pc (w64 (numAt o.desc 8 8)) []

/-- A slot granted to a copy's reservation. -/
def grantCopy (s : State) (tgt off : Nat) (w : CbWaiter) (id : Nat) (c : CBuf) : State :=
  let (i, c') := c.reserve
  let s := s.modBlock tgt fun b => putCb (dropWaiter b w) off c'
  s.modCopy w.who.bid id fun o => { o with phase := .running, slot := some (c.slot i) }

/-- The address of an offset in the window that an address names. -/
def sameWindow (addr off : Nat) : Nat := if Config.localWindow ≤ addr then (localAddr off).toNat else addr / 2 ^ 20 * 2 ^ 20 + off

/-- The scope of an operation of block `bid` on an object in scratchpad `tgt`. -/
def scratchScope (bid tgt : Nat) : Scope := if bid = tgt then .blk else .cg

/-- The waiting reservations of a buffer are granted while it has a free slot (R292, R293). -/
def serveRes (s : State) (tgt off : Nat) : Nat → State
  | 0 => s
  | fuel + 1 =>
    match s.block? tgt with
    | none => s
    | some b =>
      match firstWaiter b off false with
      | none => s
      | some w =>
        let out : State := s.modBlock tgt fun b => dropWaiter b w
        match getCb b off, w.op with
        | none, none => serveRes (wakeWaiter out w) tgt off fuel
        | none, some id => serveRes (copyStop out w.who.bid id) tgt off fuel
        | some c, none =>
          if 0 < c.free then
            let (i, c') := c.reserve
            let s := acquireAt (out.modBlock tgt fun b => putCb b off c') w.who (scratchScope w.who.bid tgt)
            serveRes (serveSub s w (c.slot i) 0) tgt off fuel
          else s
        | some c, some id => if 0 < c.free then serveRes (grantCopy s tgt off w id c) tgt off fuel else s

/-- Offset operands of matrix instructions: the low word of a value (R334). -/
def offOf (v : W64) : Nat := (loHalf v).toNat

/-- Bytes of a column record (R323). -/
def recLen (q : QFmt) : Nat := 4 * qBits q + 8

/-- A poisoned unit among bytes of a scratchpad. -/
def poisonedAt (b : Block) (off n : Nat) : Bool := (unitsTouched off n).any fun u => b.spoison.contains u

/-- A buffer-fed product takes the oldest filled slot (R298, R324): the engine judges its block when it comes to it. -/
def grantMat (b : Block) (off : Nat) (c : CBuf) (o : MatOp) : Block :=
  match o.ins with
  | .mmqaCb _ q t _ _ =>
    let a : AcqSlot :=
      { op := o.id, team := o.team, pc := o.pc, ov := o.ov, tag := tagAt b c c.head, tile := t.val, q := q, stalled := true,
        applied := false, sw := offOf o.vc, slotOff := c.slot c.head, bufOff := off }
    let b := (acquireSlot b off c).2
    { b with mat := { b.mat with acq := b.mat.acq ++ [a] } }
  | _ => b

/-- The buffer suits a product (R323), and nothing that the product reads of it is poisoned (R332). -/
def feedsMat (b : Block) (off : Nat) (c : CBuf) (q : QFmt) : Bool :=
  c.tags != noTags && decide (32 * recLen q ≤ c.ssize) && !poisonedAt b off 32 && !poisonedAt b (c.tags + 4 * c.head) 4

/-- The waiting acquires of a buffer are served while it has a filled slot (R292, R298). A product whose buffer does not suit
it keeps its place until the engine stops its launch. -/
def serveAcq (s : State) (tgt off : Nat) : Nat → State
  | 0 => s
  | fuel + 1 =>
    match s.block? tgt with
    | none => s
    | some b =>
      match firstWaiter b off true with
      | none => s
      | some w =>
        let out : State := s.modBlock tgt fun b => dropWaiter b w
        match getCb b off, w.op with
        | none, none => serveAcq (wakeWaiter out w) tgt off fuel
        | none, some _ => s
        | some c, none =>
          if 0 < c.filled then
            let r := acquireSlot b off c
            let s := acquireAt (out.modBlock tgt fun b => (acquireSlot b off c).2) w.who (scratchScope w.who.bid tgt)
            serveAcq (serveSub s w r.1.1 r.1.2) tgt off fuel
          else s
        | some c, some id =>
          match b.mat.queue.find? fun o => o.id == id with
          | none => serveAcq out tgt off fuel
          | some o =>
            match o.ins with
            | .mmqaCb _ q _ _ _ =>
              if 0 < c.filled ∧ feedsMat b off c q then serveAcq (out.modBlock tgt fun b => grantMat b off c o) tgt off fuel else s
            | _ => serveAcq out tgt off fuel

/-- After an update of a buffer its waiters are served: reservations, then acquires. -/
def serveCb (s : State) (tgt off : Nat) : State := serveAcq (serveRes s tgt off 64) tgt off 64

/-! Buffer operands (R278, R291). -/

/-- The buffer an operand names: block handle and offset, or cause. -/
def Env.bufAt (e : Env) (addr : Nat) : Except Nat (Nat × Nat) :=
  if windowOf addr then
    match resolveWindow e.s e.la.hdr e.blk addr 32 with
    | .error k => .error k
    | .ok r => if r.2 % 32 = 0 then .ok r else .error cALIGN
  else .error cSPWIN

/-- An operation on a well-formed descriptor; `act` is given the buffer's block, offset and descriptor. -/
def Ctx.onCb (c : Ctx) (g : Bool) (a : Opnd) (act : Block → Nat → CBuf → Res) : Res :=
  let addr := c.objAddr g a
  match c.e.bufAt addr with
  | .error k => .trap k (w64 addr) (c.e.low c.m)
  | .ok (bid, off) =>
    match c.e.s.block? bid with
    | none => .trap cSPWIN (w64 addr) (c.e.low c.m)
    | some b =>
      match getCb b off with
      | none => .trap cCBUF (w64 addr) (c.e.low c.m)
      | some cb => act b off cb

def Ctx.cbTrap (c : Ctx) (g : Bool) (a : Opnd) : Res := .trap cCBUF (w64 (c.objAddr g a)) (c.e.low c.m)

def cbForm (g : Bool) (a : Opnd) (srcs dsts : List Field) (probe : ProbeK) : Form :=
  ⟨fA a (if g then 2 else 1) :: srcs, dsts, .ctl, none, probe, false, false⟩

/-- The issuing sub-team waits at a buffer, in its place in the order (R293, R298). -/
def Ctx.cbWait (c : Ctx) (b : Block) (off : Nat) (acq : Bool) (w : Wait) : Res :=
  let me : CbWaiter := ⟨off, acq, c.e.who, none⟩
  .done (c.waitNext w (c.s.modBlock b.bid fun b => if b.cbq.contains me then b else { b with cbq := b.cbq ++ [me] }))

/-- Another waiter of the kind stands before the issuing sub-team. -/
def Ctx.cbBehind (c : Ctx) (b : Block) (off : Nat) (acq : Bool) : Bool :=
  match firstWaiter b off acq with
  | none => false
  | some w => !(w == ⟨off, acq, c.e.who, none⟩)

/-- The number of a scalar destination. -/
def sNum : Opnd → Nat
  | .s r => r.val
  | _ => 0

def opCbini (g tags : Bool) (n1 : Nat) (a b x : Opnd) : Op where
  form := cbForm g a [fB b 1, fC x 1] [] .zero
  eff := fun c =>
    let addr := c.objAddr g a
    let base := (c.uni 1 b).toNat
    let sz := (c.uni 2 x).toNat
    let n := n1 + 1
    let tg := if tags then base + n * sz else noTags
    let low := c.e.low c.m
    match (if windowOf addr then resolveWindow c.e.s c.e.la.hdr c.e.blk addr 32 else .error cSPWIN) with
    | .error k => .trap k (w64 addr) low
    | .ok (bid, off) =>
      match c.e.s.block? bid with
      | none => .trap cSPWIN (w64 addr) low
      | some t =>
        if t.scratchLen < base + n * sz ∨ (tags = true ∧ t.scratchLen < tg + 4 * n) then
          .trap cSPWIN (w64 (sameWindow addr base)) low
        else if off % 32 ≠ 0 then .trap cALIGN (w64 addr) low
        else if base % 128 ≠ 0 ∨ sz = 0 ∨ sz % 128 ≠ 0 ∨ (t.cbq.any fun w => w.off == off) then c.cbTrap g a
        else .done (c.s.modBlock bid fun t =>
          putCb t off ⟨base, sz, n, n, 0, 0, 0, 0, 0, tg, 0⟩)
/-- R295. -/
def execCbini (h : Hdr) (g tags : Bool) (n1 : BitVec 6) (a b x : Opnd) (s : State) : Host.Outcome State Fault Refusal :=
  (opCbini g tags n1.toNat a b x).run (issOf h) s

def opCbacq (g tag : Bool) (d a : Opnd) : Op where
  form := cbForm g a [] [fD d (if tag then 2 else 1)] .ends
  eff := fun c => c.onCb g a fun b off cb =>
    if cb.filled = 0 ∨ c.cbBehind b off true then c.cbWait b off true (.cbacq (w64 (c.objAddr g a)) (sNum d) tag (c.e.rcd.pc + w64 c.iss.len))
    else
      let r := acquireSlot b off cb
      let s := c.s.modBlock b.bid fun t => (acquireSlot t off cb).2
      let s := acquireAt (serveCb s b.bid off) c.e.who (objScope g)
      .done (c.putUni d (if tag then 2 else 1) (r.1.1 + 2 ^ 32 * r.1.2) s)
/-- R298. -/
def execCbacq (h : Hdr) (g tag : Bool) (d a : Opnd) (s : State) : Host.Outcome State Fault Refusal :=
  (opCbacq g tag d a).run (issOf h) s

def opCbrel (g : Bool) (a : Opnd) : Op where
  form := cbForm g a [] [] .zero
  eff := fun c => c.onCb g a fun b off cb =>
    if cb.acq = 0 then c.cbTrap g a
    else .done (serveCb (c.s.modBlock b.bid fun t => putCb t off { cb with free := cb.free + 1 }) b.bid off)
/-- R299. -/
def execCbrel (h : Hdr) (g : Bool) (a : Opnd) (s : State) : Host.Outcome State Fault Refusal :=
  (opCbrel g a).run (issOf h) s

/-- The reserved, unwritten slot at an offset (R297). -/
def CBuf.putSlot (c : CBuf) (at_ : Nat) : Option Nat :=
  ((List.range c.rsv).map fun j => (c.head + c.filled + j) % c.count).find? fun i => c.slot i == at_ && !c.done.testBit i

def opCbput (g : Bool) (a b x : Opnd) : Op where
  form := cbForm g a [fB b 1, fC x 1] [] .zero
  eff := fun c => c.onCb g a fun t off cb =>
    match cb.putSlot (c.uni 1 b).toNat with
    | none => c.cbTrap g a
    | some i => .done (serveCb (c.s.modBlock t.bid fun t => fillSlot t off i (c.uni 2 x).toNat) t.bid off)
/-- R297. -/
def execCbput (h : Hdr) (g : Bool) (a b x : Opnd) (s : State) : Host.Outcome State Fault Refusal :=
  (opCbput g a b x).run (issOf h) s

def opCbres (g : Bool) (d a : Opnd) : Op where
  form := cbForm g a [] [fD d 1] .zero
  eff := fun c => c.onCb g a fun b off cb =>
    if cb.free = 0 ∨ c.cbBehind b off false then c.cbWait b off false (.cbres (w64 (c.objAddr g a)) (sNum d) (c.e.rcd.pc + w64 c.iss.len))
    else
      let (i, cb') := cb.reserve
      let s := c.s.modBlock b.bid fun t => putCb t off cb'
      .done (c.putUni d 1 (cb.slot i) (acquireAt (serveCb s b.bid off) c.e.who (objScope g)))
/-- R296. -/
def execCbres (h : Hdr) (g : Bool) (d a : Opnd) (s : State) : Host.Outcome State Fault Refusal :=
  (opCbres g d a).run (issOf h) s

def opCbst (g : Bool) (d a : Opnd) : Op where
  form := cbForm g a [] [fD d 1] .zero
  eff := fun c => c.onCb g a fun _ _ cb =>
    .done (c.putUni d 1 (2 ^ 24 * (cb.acq % 256) + 2 ^ 16 * cb.rsv + 2 ^ 8 * cb.filled + cb.free) c.s)
/-- R300. -/
def execCbst (h : Hdr) (g : Bool) (d a : Opnd) (s : State) : Host.Outcome State Fault Refusal :=
  (opCbst g d a).run (issOf h) s

/-! Tensor descriptors (R274 to R277). -/

structure Dim where
  ext : Nat
  ss : Int
  ds : Int
  org : Int
  deriving DecidableEq, Repr

structure Tensor where
  src : Nat
  dst : Nat
  esz : Nat
  ndim : Nat
  /-- compressed units are fetched compressed -/
  z : Bool
  cb : Bool
  tag : Nat
  pad : Nat
  dims : List Dim
  /-- reserved bits, and records at or above ndim -/
  zeros : Nat
  deriving DecidableEq, Repr

def sxNum (w n : Nat) : Int := readInt true w n

def dimOf (m : Memory) (k : Nat) : Dim :=
  let o := 32 + 16 * k
  ⟨numAt m o 4, sxNum 40 (numAt m (o + 4) 5), sxNum 40 (numAt m (o + 9) 5), sxNum 16 (numAt m (o + 14) 2)⟩

def tensorOf (m : Memory) : Tensor :=
  let nd := numAt m 17 1
  let fl := numAt m 18 2
  { src := numAt m 0 8, dst := numAt m 8 8, esz := numAt m 16 1, ndim := nd, z := fl.testBit 0, cb := fl.testBit 1, tag := numAt m 20 4,
    pad := numAt m 24 8, dims := (List.range (min nd 6)).map (dimOf m),
    zeros := fl / 4 + ((List.range 6).filter fun k => nd ≤ k).foldl (fun a k => a + numAt m (32 + 16 * k) 16) 0 }

/-- Element bytes and alignment (R276). -/
def elemBytes (esz : Nat) : Nat := if esz < 4 then 2 ^ esz else if esz = 4 then 16 else 4 * (esz - 3)
def elemAlign (esz : Nat) : Nat := if esz < 4 then 2 ^ esz else if esz = 4 then 8 else 4

def Tensor.total (t : Tensor) : Nat := t.dims.foldl (fun n d => n * d.ext) 1

/-- R277. -/
def Tensor.bad (t : Tensor) (mcast : Bool) : Bool :=
  t.zeros != 0 || t.ndim == 0 || decide (6 < t.ndim) || decide (12 ≤ t.esz)
    || decide (2 ^ 31 - 1 < t.total * elemBytes t.esz) || (mcast && t.cb)

/-- The inside indices of a dimension: first j and count. -/
def Dim.inside (d : Dim) : Int × Nat :=
  let lo := max 0 (-d.org)
  let hi := min (d.ext : Int) ((d.ext : Int) - d.org)
  (lo + d.org, (hi - lo).toNat)

/-- Lowest and highest offset of a footprint, from (first index, count, stride) of each dimension; none when empty. -/
def footprint (l : List (Int × Nat × Int)) (e : Nat) : Option (Int × Int) :=
  if l.any fun d => d.2.1 == 0 then none
  else
    let lo := l.foldl (fun a d => a + min (d.1 * d.2.2) ((d.1 + (d.2.1 : Int) - 1) * d.2.2)) 0
    let hi := l.foldl (fun a d => a + max (d.1 * d.2.2) ((d.1 + (d.2.1 : Int) - 1) * d.2.2)) 0
    some (lo, hi + e - 1)

def Tensor.srcDims (t : Tensor) : List (Int × Nat × Int) := t.dims.map fun d => (d.inside.1, d.inside.2, d.ss)
def Tensor.dstDims (t : Tensor) : List (Int × Nat × Int) := t.dims.map fun d => (0, d.ext, d.ds)

def wrap64 (v : Int) : Nat := wrapInt 64 v

/-- The first misaligned element address of a footprint, from its first element's offset. -/
def footAlign (base : Int) (l : List (Int × Nat × Int)) (al : Nat) : Option Nat :=
  if l.any fun d => d.2.1 == 0 then none
  else
    let first := l.foldl (fun a d => a + d.1 * d.2.2) base
    if first % (al : Int) ≠ 0 then some (wrap64 first)
    else (l.find? fun d => decide (2 ≤ d.2.1) && d.2.2 % (al : Int) != 0).map fun d => wrap64 (first + d.2.2)

/-- R282's window check of bytes lo to hi of generic addresses. -/
def footWindow (e : Env) (base : Int) (f : Option (Int × Int)) : Option (Nat × W64) :=
  match f with
  | none => none
  | some (lo, hi) =>
    let a := wrap64 (base + lo)
    let z := wrap64 (base + hi)
    if windowOf a then
      match resolveWindow e.s e.la.hdr e.blk a (hi - lo + 1).toNat with
      | .error k => some (k, w64 a)
      | .ok _ => none
    else if windowOf z then some (cSPWIN, w64 z)
    else none

/-- The checks of a buffer that a copy fills: block and descriptor, or SPWIN, ALIGN and CBUF in their places. -/
structure BufChk where
  spwin : Option (Nat × W64)
  align : Option (Nat × W64)
  cbuf : Option (Nat × W64)
  buf : Option (Nat × Nat × CBuf)
  deriving DecidableEq, Repr

def bufChk (e : Env) (addr : Nat) : BufChk :=
  match e.bufAt addr with
  | .error k => if k = cSPWIN then ⟨some (k, w64 addr), none, none, none⟩ else ⟨none, some (k, w64 addr), none, none⟩
  | .ok (bid, off) =>
    match (e.s.block? bid).bind fun b => getCb b off with
    | some c => ⟨none, none, none, some (bid, off, c)⟩
    | none => ⟨none, none, some (cCBUF, w64 addr), none⟩

def noBuf : BufChk := ⟨none, none, none, none⟩

/-- The checks of a barrier operand, a generic address. -/
def barSpwin (e : Env) (bar : Option Nat) : Option (Nat × W64) :=
  bar.bind fun a => match e.objAt a with
    | .error k => if k = cSPWIN then some (k, w64 a) else none
    | .ok _ => none
def barAlign (e : Env) (bar : Option Nat) : Option (Nat × W64) :=
  bar.bind fun a => match e.objAt a with
    | .error k => if k = cALIGN then some (k, w64 a) else none
    | .ok _ => none

/-- The checks of `TCOPY` (R277, R279, R282). -/
def tcopyCheck (e : Env) (off : Nat) (bar : Option Nat) : Option (Nat × W64) :=
  let b := e.blk
  let t := tensorOf (b.copyOut off 128)
  let eb := elemBytes t.esz
  let al := elemAlign t.esz
  let sf := footprint t.srcDims eb
  let df := footprint t.dstDims eb
  let k := if t.cb then bufChk e t.dst else noBuf
  let inSlot := match df, k.buf with
    | some (lo, hi), some (_, _, c) => decide (0 ≤ lo) && decide (hi < c.ssize)
    | _, _ => true
  firstFail
    [spwinIf b [(off, 128)], illIf (t.bad false),
     footWindow e t.src sf, (if t.cb then k.spwin else footWindow e t.dst df), barSpwin e bar,
     alignIf [(off, 128)],
     (footAlign t.src t.srcDims al).map fun a => (cALIGN, w64 a),
     (if t.cb then k.align else none),
     (footAlign (if t.cb then 0 else t.dst) t.dstDims al).map fun a => (cALIGN, w64 a),
     barAlign e bar, k.cbuf, (if inSlot then none else some (cCBUF, w64 t.dst))]

/-! Gathers (R284). -/

structure Gather where
  table : Nat
  packed : Nat
  rows : Nat
  rowb : Nat
  defrow : Nat
  idx : Nat
  n : Nat
  cb : Bool
  tag : Nat
  zeros : Nat
  deriving DecidableEq, Repr

def gatherOf (m : Memory) : Gather :=
  { table := numAt m 0 8, packed := numAt m 8 8, rows := numAt m 20 4, rowb := numAt m 24 4, defrow := numAt m 28 4,
    idx := numAt m 32 4, n := numAt m 36 4, cb := numAt m 40 4 % 2 == 1, tag := numAt m 44 4,
    zeros := numAt m 16 4 + numAt m 40 4 / 2 + numAt m 48 16 }

def Gather.bad (g : Gather) (scat : Bool) : Bool :=
  g.zeros != 0 || decide (65536 < g.n) || decide (g.rowb < 8) || decide (65536 < g.rowb) || g.rowb % 8 != 0 || g.rows == 0
    || decide (g.rows ≤ g.defrow) || (scat && g.cb)

def Gather.valid (g : Gather) (x : Nat) : Bool := decide (x < g.rows) && x != 2 ^ 32 - 1

/-- The window check of a run of bytes. -/
def runWindow (e : Env) (a n : Nat) : Option (Nat × W64) :=
  if n = 0 then none else footWindow e a (some (0, (n : Int) - 1))

def alignAddr (a al : Nat) : Option (Nat × W64) := if a % al = 0 then none else some (cALIGN, w64 a)

/-- The checks of `TGATH` and `TSCAT` (R279, R284). -/
def gatherCheck (e : Env) (off : Nat) (scat : Bool) (bar : Option Nat) : Option (Nat × W64) :=
  let b := e.blk
  let g := gatherOf (b.copyOut off 64)
  let k := if g.cb then bufChk e g.packed else noBuf
  let fits := match k.buf with
    | some (_, _, c) => decide (g.n * g.rowb ≤ c.ssize)
    | none => true
  firstFail
    [spwinIf b [(off, 64)], illIf (g.bad scat),
     (if g.n = 0 then none else spwinIf b [(g.idx, 4 * g.n)]), runWindow e g.table (g.rows * g.rowb),
     (if g.cb then k.spwin else runWindow e g.packed (g.n * g.rowb)), barSpwin e bar,
     alignIf [(off, 64), (g.idx, 4)], alignAddr g.table 8, (if g.cb then k.align else alignAddr g.packed 8),
     barAlign e bar, k.cbuf, (if fits then none else some (cCBUF, w64 g.packed))]

/-! Issue. -/

/-- R273, R18. -/
def Ctx.copyFull (c : Ctx) : Bool := decide (16 ≤ c.e.blk.copies.length) || cntFull c.e.team 0

/-- The buffer an operation reserves in: address and tag. -/
def CopyOp.buf (o : CopyOp) : Option (Nat × Nat) :=
  match o.kind with
  | .tcopy => let t := tensorOf o.desc; if t.cb then some (t.dst, t.tag) else none
  | .tgath => let g := gatherOf o.desc; if g.cb then some (g.packed, g.tag) else none
  | _ => none

/-- Elements, rows or words of an operation. -/
def CopyOp.total (o : CopyOp) : Nat :=
  match o.kind with
  | .tcopy | .tmcst => (tensorOf o.desc).total
  | .tgath | .tscat => (gatherOf o.desc).n
  | .tfill => numAt o.desc 4 4 / 4

/-- Where an operation's buffer lies. -/
def copyBuf (s : State) (la : Launch) (b : Block) (o : CopyOp) : Option (Nat × Nat) :=
  o.buf.bind fun p =>
    match resolveWindow s la.hdr b p.1 32 with
    | .ok r => some r
    | .error _ => none

/-- The operation has written its last unit (R294): its slot counts as written. -/
def copyDone (s : State) (la : Launch) (b : Block) (o : CopyOp) : State :=
  let s := s.modCopy b.bid o.id fun k => { k with phase := .finished }
  match o.buf, copyBuf s la b o, o.slot with
  | some (addr, tag), some (bid, off), some at_ =>
    match (s.block? bid).bind fun t => getCb t off with
    | none => engineStop s b o.team cCBUF o.pc (w64 addr) []
    | some c =>
      let i := (at_ - c.base) / c.ssize
      serveCb (s.modBlock bid fun t => fillSlot t off i tag) bid off
  | _, _, _ => s

/-- The operation starts (R293): it runs, or its reservation joins the buffer's order. -/
def copyStart (s : State) (la : Launch) (bid id : Nat) : State :=
  match s.block? bid with
  | none => s
  | some b =>
    match b.copy? id with
    | none => s
    | some o =>
      match copyBuf s la b o with
      | none => s.modCopy bid id fun o => { o with phase := .running }
      | some (tb, off) =>
        let w : CbWaiter := ⟨off, false, ⟨bid, o.team, 0⟩, some id⟩
        let s := s.modCopy bid id fun o => { o with phase := .waitSlot }
        serveCb (s.modBlock tb fun t => { t with cbq := t.cbq ++ [w] }) tb off

/-- An operation that has nothing left to write is done. -/
def copyEndTest (s : State) (la : Launch) (bid id : Nat) : State :=
  match s.block? bid with
  | none => s
  | some b =>
    match b.copy? id with
    | none => s
    | some o => if o.phase = .running ∧ o.total ≤ o.done then copyDone s la b o else s

/-- A copy issues (R273, R17): counted, and started. -/
def Ctx.issueCopy (c : Ctx) (kind : CopyKind) (desc : Memory) (ranks : W64) (bar : Option Nat) : State :=
  let id := c.s.nextId
  let o : CopyOp :=
    { id := id, team := c.e.who.team, kind := kind, phase := .notStarted, done := 0, part := 0, misses := 0, slot := none,
      ranks := ranks, bar := bar.map w64, desc := desc, poisoned := false, pc := c.e.rcd.pc, unacked := [] }
  let s : State := { c.s with nextId := id + 1 }
  let s := c.modTeam s fun t => t.addOp id 0
  let s := s.modBlock c.e.who.bid fun b => { b with copies := b.copies ++ [o] }
  copyEndTest (copyStart s c.e.la c.e.who.bid id) c.e.la c.e.who.bid id

/-- Checks, the limits that hold issue, and the issue. -/
def Ctx.copyRes (c : Ctx) (bad : Option (Nat × W64)) (kind : CopyKind) (desc : Memory) (ranks : W64) (bar : Option Nat) : Res :=
  match bad with
  | some (k, t) => .trap k t (c.e.low c.m)
  | none => if c.copyFull then .hold .limit else .done (c.issueCopy kind desc ranks bar)

/-- A barrier operand: none for 0xF8. -/
def Ctx.barOperand (c : Ctx) (g : Bool) (x : Opnd) : Option Nat :=
  if opIsZero x then none
  else some (if g then (c.uni64 2 x).toNat else (localAddr (c.uni 2 x).toNat).toNat)

def copyForm (g : Bool) (a x : Opnd) : Form := ctlForm [fA a 1, fC x (if g then 2 else 1)] [] .zero false

def opTcopy (g : Bool) (a x : Opnd) : Op where
  form := copyForm g a x
  eff := fun c =>
    let off := (c.uni 0 a).toNat
    let bar := c.barOperand g x
    c.copyRes (tcopyCheck c.e off bar) .tcopy (c.e.blk.copyOut off 128) 0 bar
/-- R280. -/
def execTcopy (h : Hdr) (g : Bool) (a x : Opnd) (s : State) : Host.Outcome State Fault Refusal :=
  (opTcopy g a x).run (issOf h) s

def opTgath (g : Bool) (a x : Opnd) : Op where
  form := copyForm g a x
  eff := fun c =>
    let off := (c.uni 0 a).toNat
    let bar := c.barOperand g x
    c.copyRes (gatherCheck c.e off false bar) .tgath (c.e.blk.copyOut off 64) 0 bar
/-- R285. -/
def execTgath (h : Hdr) (g : Bool) (a x : Opnd) (s : State) : Host.Outcome State Fault Refusal :=
  (opTgath g a x).run (issOf h) s

def opTscat (g : Bool) (a x : Opnd) : Op where
  form := copyForm g a x
  eff := fun c =>
    let off := (c.uni 0 a).toNat
    let bar := c.barOperand g x
    c.copyRes (gatherCheck c.e off true bar) .tscat (c.e.blk.copyOut off 64) 0 bar
/-- R286. -/
def execTscat (h : Hdr) (g : Bool) (a x : Opnd) (s : State) : Host.Outcome State Fault Refusal :=
  (opTscat g a x).run (issOf h) s

/-- Ranks of a mask. -/
def ranksOf (m : W64) : List Nat := (List.range 48).filter fun i => m.getLsbD i

/-- The cluster-window address of an offset in a rank's scratchpad. -/
def rankAddr (r off : Nat) : Nat := Config.clusterWindow + 2 ^ 20 * r + off

/-- A multicast's receivers that a run of own-scratchpad bytes leaves (R288). -/
def mcastWindow (e : Env) (m : W64) (off n : Int) : Option (Nat × W64) :=
  (ranksOf m).findSome? fun r =>
    match groupBlock? e.s e.la.hdr e.blk r with
    | none => some (cSPWIN, w64 (rankAddr r off.toNat))
    | some t => if off < 0 ∨ (t.scratchLen : Int) < off + n then some (cSPWIN, w64 (rankAddr r off.toNat)) else none

/-- The checks of `TMCST` (R277, R282, R288). -/
def tmcstCheck (e : Env) (off : Nat) (m : W64) (bar : Option Nat) : Option (Nat × W64) :=
  let b := e.blk
  let t := tensorOf (b.copyOut off 128)
  let eb := elemBytes t.esz
  let al := elemAlign t.esz
  let d0 : Int := (t.dst % 2 ^ 44 : Nat)
  let df := footprint t.dstDims eb
  firstFail
    [spwinIf b [(off, 128)], illIf (t.bad true || decide (2 ^ 48 ≤ m.toNat)),
     footWindow e t.src (footprint t.srcDims eb),
     (if (ranksOf m).any fun r => decide (e.la.hdr.ext 2 ≤ r) then some (cSPWIN, w64 t.dst) else none),
     (if t.dst < Config.localWindow ∨ 2 ^ 56 ≤ t.dst then some (cSPWIN, w64 t.dst) else none),
     df.bind fun f => mcastWindow e m (d0 + f.1) (f.2 - f.1 + 1),
     bar.bind fun o => mcastWindow e m o 16,
     alignIf [(off, 128)],
     (footAlign t.src t.srcDims al).map fun a => (cALIGN, w64 a),
     (footAlign t.dst t.dstDims al).map fun a => (cALIGN, w64 a),
     bar.bind fun o => if o % 16 = 0 then none else some (cALIGN, localAddr o)]

def opTmcst (a b x : Opnd) : Op where
  form := ctlForm [fA a 1, fB b 2, fC x 1] [] .zero false
  eff := fun c =>
    let off := (c.uni 0 a).toNat
    let m := c.uni64 1 b
    let bar := if opIsZero x then none else some (c.uni 2 x).toNat
    c.copyRes (tmcstCheck c.e off m bar) .tmcst (c.e.blk.copyOut off 128) m bar
/-- R288. -/
def execTmcst (h : Hdr) (a b x : Opnd) (s : State) : Host.Outcome State Fault Refusal := (opTmcst a b x).run (issOf h) s

/-- The checks of `TFILL` (R289). -/
def tfillCheck (b : Block) (off n : Nat) : Option (Nat × W64) :=
  firstFail [spwinIf b [(off, n)], alignIf [(off, 4)], if n % 4 = 0 then none else some (cALIGN, localAddr off)]

def opTfill (a b x : Opnd) : Op where
  form := ctlForm [fA a 1, fB b 1, fC x 1] [] .zero false
  eff := fun c =>
    let off := (c.uni 0 a).toNat
    let n := (c.uni 1 b).toNat
    let desc := setBytes [] 0 (leBytes 4 off ++ leBytes 4 n ++ leBytes 4 (c.uni 2 x).toNat)
    c.copyRes (tfillCheck c.e.blk off n) .tfill desc 0 none
/-- R289. -/
def execTfill (h : Hdr) (a b x : Opnd) (s : State) : Host.Outcome State Fault Refusal := (opTfill a b x).run (issOf h) s

/-! Units (R280, R285, R286, R288, R289). -/

/-- One run of bytes: its source address, or the bytes themselves; the destination addresses; how many. -/
structure Move where
  src : Except (List Byte) Nat
  dsts : List Nat
  n : Nat

/-- What a unit does: its moves, and the elements or rows, bytes and misses done after it. -/
structure CopyStep where
  moves : List Move
  done : Nat
  part : Nat
  misses : Nat

/-- Indices of element e, dimension 0 fastest. -/
def elemIdx : List Dim → Nat → List Nat
  | [], _ => []
  | d :: l, e => e % d.ext :: elemIdx l (e / d.ext)

def dotStride (l : List (Int × Int)) : Int := l.foldl (fun a p => a + p.1 * p.2) 0

/-- The source of element e: none where it is padding. -/
def Tensor.srcAt (t : Tensor) (e : Nat) : Option Nat :=
  let js := (t.dims.zip (elemIdx t.dims e)).map fun p => (p.1, (p.2 : Int) + p.1.org)
  if js.all fun p => decide (0 ≤ p.2) && decide (p.2 < p.1.ext) then
    some (wrap64 (t.src + dotStride (js.map fun p => (p.2, p.1.ss))))
  else none

/-- The destination of element e, from base D. -/
def Tensor.dstAt (t : Tensor) (D : Nat) (e : Nat) : Nat :=
  wrap64 (D + dotStride ((t.dims.zip (elemIdx t.dims e)).map fun p => ((p.2 : Int), p.1.ds)))

/-- The padding of one element. -/
def padBytes (pad n : Nat) : List Byte := (List.range n).map fun j => BitVec.ofNat 8 (pad / 2 ^ (8 * (j % 8)))

/-- Elements from e whose destinations lie in one aligned 128-byte block: how many. -/
def runLen (dst : Nat → Nat) (blk e : Nat) : Nat → Nat
  | 0 => 0
  | fuel + 1 => if dst e / 128 = blk then 1 + runLen dst blk (e + 1) fuel else 0

/-- The unit of a tensor from element `done` on. -/
def tensorStep (t : Tensor) (D : Nat) (spread : Nat → List Nat) (done : Nat) : CopyStep :=
  let dst := t.dstAt D
  let n := runLen dst (dst done / 128) done (t.total - done)
  let eb := elemBytes t.esz
  let mv : Nat → Move := fun e =>
    { src := match t.srcAt e with
        | some a => .ok a
        | none => .error (padBytes t.pad eb)
      dsts := spread (dst e), n := eb }
  ⟨(List.range n).map fun i => mv (done + i), done + n, 0, 0⟩

/-- The unit of a gather or scatter: bytes of one row in one destination block. -/
def rowStep (g : Gather) (scat : Bool) (x P k part : Nat) : CopyStep :=
  let ok := g.valid x
  let miss := if ok || part != 0 then 0 else 1
  if scat && !ok then ⟨[], k + 1, 0, 1⟩
  else
    let row := g.table + (if ok then x else g.defrow) * g.rowb + part
    let pk := P + k * g.rowb + part
    let src := if scat then pk else row
    let dst := if scat then row else pk
    let n := min (g.rowb - part) (128 - dst % 128)
    let last := part + n == g.rowb
    ⟨[⟨.ok src, [dst], n⟩], if last then k + 1 else k, if last then 0 else part + n, miss⟩

/-- The unit of a fill. -/
def fillStep (off pat done total : Nat) : CopyStep :=
  let at_ := off + 4 * done
  let n := min (total - done) ((128 - at_ % 128) / 4)
  ⟨(List.range n).map fun i => ⟨.error (leBytes 4 pat), [(localAddr (at_ + 4 * i)).toNat], 4⟩, done + n, 0, 0⟩

/-- The base that an operation writes from: its slot's address in the buffer's window, or its destination. -/
def CopyOp.baseAt (o : CopyOp) (addr : Nat) : Nat :=
  match o.buf, o.slot with
  | some (a, _), some s => sameWindow a s
  | _, _ => addr

def CopyOp.step (b : Block) (o : CopyOp) : CopyStep :=
  match o.kind with
  | .tcopy => let t := tensorOf o.desc; tensorStep t (o.baseAt t.dst) (fun a => [a]) o.done
  | .tmcst =>
    let t := tensorOf o.desc
    if ranksOf o.ranks = [] then ⟨[], t.total, 0, 0⟩
    else tensorStep t (t.dst % 2 ^ 44) (fun a => (ranksOf o.ranks).map fun r => rankAddr r a) o.done
  | .tgath => let g := gatherOf o.desc; rowStep g false (b.num (g.idx + 4 * o.done) 4) (o.baseAt g.packed) o.done o.part
  | .tscat => let g := gatherOf o.desc; rowStep g true (b.num (g.idx + 4 * o.done) 4) g.packed o.done o.part
  | .tfill => fillStep (numAt o.desc 0 4) (numAt o.desc 8 4) o.done o.total

/-- The first failing piece of a move, or of a list of moves. -/
def moveFail (s : State) (b : Block) (la : Launch) (m : Move) : Option (Nat × Nat) :=
  let one : Nat → Nat → Option (Nat × Nat) := fun a need =>
    match resolveRange s b la a m.n need with
    | .error e => some e
    | .ok _ => none
  (match m.src with
    | .ok a => one a 0
    | .error _ => none).orElse fun _ => m.dsts.findSome? fun a => one a 1

/-- Which bytes of a piece just read carry poison: those of a marked unit of a scratchpad, all of a poisoned line (R272, R283). -/
def pieceMarks (s : State) (tg : Target) (n : Nat) (p : Bool) : List Bool :=
  match tg with
  | .scr bid off => (List.range n).map fun i => p && (s.block? bid).any fun c => c.spoison.contains ((off + i) / 8)
  | .mem _ _ => List.replicate n p

/-- A source piece read by the copy engine. With z, compressed units are read as their controller holds them and fill no cache on
the way (R281). -/
def copyRead (s : State) (b : Block) (la : Launch) (z : Bool) (q : Piece) : (List Byte × Bool) × State :=
  match q.2.1 with
  | .mem t p =>
    if z && t.cz && p.kind == .own then ((homeBytes s p q.2.2, (homeLine s p).2), useTlb s b la t q.1)
    else readPlace s b la .bypass q.1 q.2.1 q.2.2
  | .scr _ _ => readPlace s b la .bypass q.1 q.2.1 q.2.2

/-- Maximal runs of equal marks: offset, bytes and mark. -/
def markRuns : Nat → List Bool → List (Nat × Nat × Bool)
  | _, [] => []
  | at_, m :: l =>
    match markRuns (at_ + 1) l with
    | (a, n, k) :: rest => if k = m then (at_, n + 1, m) :: rest else (at_, 1, m) :: (a, n, k) :: rest
    | [] => [(at_, 1, m)]

/-- What the moves of a unit leave behind: the state, the pieces written from clean and from poisoned data, the lines written. -/
structure CopyAcc where
  s : State
  clean : List (Target × Nat)
  soiled : List (Target × Nat)
  pois : Bool
  lines : List Nat

/-- One run of a move written to one destination. -/
def putRun (b : Block) (la : Launch) (acc : CopyAcc) (ea : Nat) (l : List Byte) (p : Bool) : CopyAcc :=
  match resolveRange acc.s b la ea l.length 1 with
  | .error _ => acc
  | .ok ps =>
    let r := ps.foldl (fun w q => (writePlace w.1 b la .bypass q.1 q.2.1 (w.2.take q.2.2) p, w.2.drop q.2.2)) (acc.s, l)
    { acc with s := r.1, clean := (if p then [] else ps.map Prod.snd) ++ acc.clean,
               soiled := (if p then ps.map Prod.snd else []) ++ acc.soiled, lines := acc.lines ++ pieceLines ps }

/-- A move carried out: its source read, and the runs of clean and of poisoned bytes written to each destination. -/
def doMove (b : Block) (la : Launch) (z : Bool) (acc : CopyAcc) (m : Move) : CopyAcc :=
  let (data, marks, s) : List Byte × List Bool × State := match m.src with
    | .error l => (l, List.replicate l.length false, acc.s)
    | .ok a =>
      match resolveRange acc.s b la a m.n 0 with
      | .error _ => ([], [], acc.s)
      | .ok ps => ps.foldl (fun w q =>
          let r := copyRead w.2.2 b la z q
          (w.1 ++ r.1.1, w.2.1 ++ pieceMarks r.2 q.2.1 q.2.2 r.1.2, r.2)) ([], [], acc.s)
  m.dsts.foldl (fun acc a => (markRuns 0 marks).foldl (fun acc k =>
      putRun b la acc (a + k.1) ((data.drop k.1).take k.2.1) k.2.2) acc)
    { acc with s := s, pois := acc.pois || marks.any id }

/-- A piece as the units of a scratchpad, or the line of memory, that it touches. -/
def pieceUnits (q : Target × Nat) : List (Target × Nat) :=
  match q.1 with
  | .scr bid off => (unitsTouched off q.2).map fun u =>
      let lo := max off (8 * u)
      (.scr bid lo, min (off + q.2) (8 * u + 8) - lo)
  | .mem _ _ => [q]

/-- Two pieces of one unit of a scratchpad or one line of memory. -/
def sameUnit (a b : Target × Nat) : Bool :=
  match a.1, b.1 with
  | .scr i x, .scr j y => i == j && x / 8 == y / 8
  | .mem _ p, .mem _ q => p.line == q.line
  | _, _ => false

/-- Marks that the clean pieces of a unit clear together; one that it has set stays (R272). -/
def CopyAcc.clear (a : CopyAcc) (b : Block) : State :=
  if a.soiled.isEmpty then clearCovered a.s b a.clean
  else
    let bad := a.soiled.flatMap pieceUnits
    clearCovered a.s b ((a.clean.flatMap pieceUnits).filter fun q => !(bad.any (sameUnit q)))

/-- Bytes of a unit counted at its barrier objects (R302). -/
def countUnit (s : State) (la : Launch) (b : Block) (o : CopyOp) (n : Nat) : State :=
  match o.bar with
  | none => s
  | some addr =>
    let objs := if o.kind = .tmcst then (ranksOf o.ranks).map fun r => rankAddr r addr.toNat else [addr.toNat]
    objs.foldl (fun s a =>
      match resolveWindow s la.hdr b a 16 with
      | .ok (bid, off) => s.modBlock bid fun t => updateObj t off (objDeliver n)
      | .error _ => s) s

/-- Addresses that an operation has still to touch, one to a page of each element or row (R256). -/
def copyAhead (b : Block) (o : CopyOp) : List Nat :=
  let t := tensorOf o.desc
  let left := (List.range (o.total - o.done)).map fun i => o.done + i
  let srcs : Nat → List Nat := fun e => (optList (t.srcAt e)).flatMap fun a => pagesOf a (elemBytes t.esz)
  match o.kind with
  | .tcopy => left.flatMap fun e => srcs e ++ pagesOf (t.dstAt (o.baseAt t.dst) e) (elemBytes t.esz)
  | .tmcst => if ranksOf o.ranks = [] then [] else left.flatMap srcs
  | .tgath | .tscat =>
    let g := gatherOf o.desc
    left.flatMap fun k =>
      let x := b.num (g.idx + 4 * k) 4
      if o.kind = .tscat ∧ !g.valid x then []
      else pagesOf (g.table + (if g.valid x then x else g.defrow) * g.rowb) g.rowb ++ pagesOf (o.baseAt g.packed + k * g.rowb) g.rowb
  | .tfill => []

/-- The block is not being halted, so its engines go on (R261). -/
def engineRuns (la : Launch) (b : Block) : Bool := !la.halting.contains b.bid

/-- A gather begins a row (R383). -/
def rowStart (s : State) (b : Block) (la : Launch) (o : CopyOp) : State :=
  let g := gatherOf o.desc
  let x := b.num (g.idx + 4 * o.done) 4
  let r := if g.valid x then x else g.defrow
  rowTouch s b la g.table g.rowb r (g.table + r * g.rowb)

/-- The copy engine writes one unit of an operation (R280, R283, R302), or its launch stops. -/
def copyUnit (s : State) (bid id : Nat) : State :=
  match s.block? bid with
  | none => s
  | some b =>
    match b.copy? id, s.launch? b.q b.lseq with
    | some o, some la =>
      if o.phase ≠ .running ∨ !engineRuns la b then s
      else if o.total ≤ o.done then copyDone s la b o
      else
        let u := o.step b
        match u.moves.findSome? (moveFail s b la) with
        | some e => engineFault s b la o.team o.pc e (copyAhead b o)
        | none =>
          let s := if o.kind = .tgath ∧ o.part = 0 then rowStart s b la o else s
          let acc := u.moves.foldl (doMove b la (o.kind != .tgath && o.kind != .tscat && (tensorOf o.desc).z)) ⟨s, [], [], false, []⟩
          let s := countUnit (acc.clear b) la b o (u.moves.foldl (fun n m => n + m.n) 0)
          let upd : CopyOp → CopyOp := fun k =>
            { k with done := u.done, part := u.part, misses := k.misses + u.misses, poisoned := k.poisoned || acc.pois,
                     unacked := k.unacked ++ (acc.lines.dedup.filter fun l => !k.unacked.contains l) }
          copyEndTest (s.modCopy bid id upd) la bid id
    | _, _ => s

/-- COPY_UNIT. -/
def execCopyUnit (bid id : Nat) (s : State) : Host.Outcome State Fault Refusal := .next (copyUnit s bid id)

/-- CB_RESERVATION (R293). -/
def execCbReservation (bid off : Nat) (s : State) : Host.Outcome State Fault Refusal := .next (serveCb s bid off)

/-- Writes of a team performed at their homes, and the GWCTs returned (R20, R235). -/
def ackLines (s : State) (bid team : Nat) (lines : List Nat) : State :=
  let r := answered s lines 0
  r.2.modTeam bid team fun t => { t with gwct := max t.gwct r.1 }

/-- The oldest unretired operation of a class in a team. -/
def oldestOp (b : Block) (team cls : Nat) : Option Nat :=
  (b.team? team).bind fun t => ((t.ops.filter fun o => o.cls == cls).head?).map AsyncOp.id

/-- Instructions of a block held at an engine's limit may issue again. -/
def wakeLimits (s : State) (bid : Nat) : State :=
  let now := s.time
  s.modBlock bid (Block.wake Wait.isLimit now)

/-- A copy retires, in its place in issue order (R18, R287, R303, R304). -/
def copyRetire (s : State) (bid id : Nat) : State :=
  match s.block? bid with
  | none => s
  | some b =>
    match b.copy? id with
    | none => s
    | some o =>
      if o.phase ≠ .finished ∨ oldestOp b o.team 0 ≠ some id then s
      else
        let s := ackLines s bid o.team o.unacked
        let s := s.modTeam bid o.team fun t => { t with gmiss := t.gmiss + w32 o.misses }
        let s := s.modBlock bid fun b => { b with copies := b.copies.filter fun k => k.id != id }
        wakeLimits (finishOp s bid o.team id 0 (if o.poisoned then some 0x20 else none)) bid

/-- COPY_RETIRE. -/
def execCopyRetire (bid id : Nat) (s : State) : Host.Outcome State Fault Refusal := .next (copyRetire s bid id)

end Sys2Proof.Machine
end

