-- ==== Sys2Proof/Machine/Matrix.lean ====
section
/-! DEFINITION. The matrix engine (R308 to R333). -/

namespace Sys2Proof.Machine

/-! Formats. -/

/-- The F code of a plane format (R317). -/
def pfmtCode : PFmt → Nat
  | .q q => qBits q
  | .bf16 => 9
  | .fp16 => 10
  | .nf8 => 11

/-- A tag is Q2 to Q8. -/
def tagIsQ (t : Nat) : Bool := decide (2 ≤ t) && decide (t ≤ 8)
def tagFloat (t : Nat) : Bool := decide (9 ≤ t)

/-- The float format of a tag, and its element bytes. -/
def tagFmt (t : Nat) : FFmt := if t = 9 then bf16 else if t = 10 then fp16 else nf8
def tagBytes (t : Nat) : Nat := if t = 11 then 1 else 2

/-- Row bytes of a plane image (R318). -/
def rowBytes (t : Nat) : Nat := if tagFloat t then 32 * tagBytes t else 4 * t

/-- Bytes of a tile element (R326). -/
def tfmtBytes : TFmt → Nat
  | .b32 => 4
  | .bf16 | .f16 => 2
  | .nf8 => 1

/-! Tiles. -/

def State.modMat (s : State) (bid : Nat) (f : Matrix → Matrix) : State := s.modBlock bid fun b => { b with mat := f b.mat }

def tileStat (m : SMap TileStat) (t : Nat) : TileStat := smGet noTile m t
def setStat (m : SMap TileStat) (t : Nat) (f : TileStat → TileStat) : SMap TileStat := smSet noTile m t (f (tileStat m t))

def TileStat.written (st : TileStat) : TileStat := { st with valid := true, dirty := true }
def TileStat.soil (st : TileStat) : TileStat := { st with dirty := true }

/-- Rows r0 and on of a tile replaced by a function of row and column. -/
def putRows (m : SMap W32) (t r0 rows : Nat) (f : Nat → Nat → W32) : SMap W32 :=
  let lo := tileKey t r0 0
  let hi := tileKey t (r0 + rows) 0
  let new := ((List.range (32 * rows)).map fun i => (lo + i, f (r0 + i / 32) (i % 32))).filter fun p => p.2 != 0
  m.filter (fun p => decide (p.1 < lo)) ++ new ++ m.filter (fun p => decide (hi ≤ p.1))

def putTile (m : SMap W32) (t : Nat) (f : Nat → Nat → W32) : SMap W32 := putRows m t 0 256 f

/-- What an instruction's completed effect leaves in the tile states; `nb1` counts a buffer-fed product as one block, as the
issue-side copy does (R313); in the engine its blocks count as they are applied. -/
def statEffect (nb1 : Bool) (ins : Instr) (va vb : W64) (m : SMap TileStat) : SMap TileStat :=
  match ins with
  | .mmq _ _ t _ _ => setStat m t.val TileStat.written
  | .msa _ t _ _ _ => setStat m t.val TileStat.soil
  | .mmqa _ _ t _ _ _ => setStat m t.val TileStat.soil
  | .mmqaCb _ _ t _ _ =>
    if nb1 then setStat m t.val fun st => { st with dirty := true, nb := (st.nb + 1) % 65536 } else m
  | .mmf _ _ t _ _ => setStat m t.val TileStat.soil
  | .tld _ _ t _ _ => setStat m t.val TileStat.written
  | .tst _ _ trk _ _ t =>
    if trk then
      let own := decide (Config.localWindow ≤ va.toNat)
      setStat m t.val fun st =>
        { st with dirty := false, track := if own then 3 else 2, addr := if own then w64 (va.toNat % 2 ^ 44) else va,
                  pitch := offOf vb }
    else m
  | .tzero _ t _ => setStat m t.val fun st => { st with valid := true, dirty := true, nb := vb.toNat % 65536 }
  | .tmvV2t _ t _ _ => setStat m t.val TileStat.written
  | .tacc _ t _ => setStat m t.val TileStat.soil
  | .coll _ _ _ t _ _ => if nb1 then setStat m t.val TileStat.soil else m
  | _ => m

/-- The tile an instruction writes, and those it touches. -/
def tileWrites : Instr → Option Nat
  | .mmq _ _ t _ _ => some t.val
  | .msa _ t _ _ _ => some t.val
  | .mmqa _ _ t _ _ _ => some t.val
  | .mmqaCb _ _ t _ _ => some t.val
  | .mmf _ _ t _ _ => some t.val
  | .tld _ _ t _ _ => some t.val
  | .tzero _ t _ => some t.val
  | .tmvV2t _ t _ _ => some t.val
  | .tacc _ t _ => some t.val
  | _ => none

def tileReads : Instr → List Nat
  | .msa _ _ ts _ _ => [ts.val]
  | .tst _ _ _ _ _ t => [t.val]
  | .tmvT2v _ _ t _ => [t.val]
  | .tacc _ _ ts => [ts.val]
  | .coll _ _ _ t _ _ => [t.val]
  | _ => []

def tilesTouched (i : Instr) : List Nat := optList (tileWrites i) ++ tileReads i

/-- The plane tags after an instruction (R318, R319). -/
def tagEffect (ins : Instr) (act sh : SMap Nat) : SMap Nat × SMap Nat :=
  match ins with
  | .ldw _ f p _ =>
    let c := pfmtCode f
    let sh := smSet 0 sh p.val c
    (act, if tagFloat c then smSet 0 sh (p.val + 1) c else sh)
  | .wswap _ => (sh, act)
  | _ => (act, sh)

/-! Issue (R310 to R316). -/

/-- The engine is held by another resident block of the core (R310). -/
def Env.matHeld (e : Env) : Bool :=
  !e.blk.mat.owned && e.s.blocks.any fun b => b.site == e.blk.site && b.bid != e.blk.bid && b.mat.owned

/-- A tile is in flight (R309): a writer has issued and not finished, or a collective has it (R412). -/
def tileInFlight (b : Block) (t : Nat) : Bool :=
  (b.mat.queue.any fun o => !o.fin && (tileWrites o.ins == some t)) || b.colls.any fun c => c.started && c.tile == t

/-- The registers of a run and whether one is busy (R76, R135), and the lanes' first registers. -/
def Ctx.runBase (c : Ctx) (o : Opnd) (l : Nat) : Nat :=
  match o with
  | .v r => r.val
  | .x q => xReg (c.xval q.val l)
  | _ => 0

/-- A run of n registers from a field, over lanes: `BUDGET`, `IDXB`, or a register that is not ready. -/
def Ctx.runCheck (c : Ctx) (o : Opnd) (n : Nat) (ls : List Nat) (writes : Bool) : Option Res :=
  match o with
  | .v r =>
    if c.e.rcd.alloc < r.val + n then some (.trap cBUDGET (w64 (max r.val c.e.rcd.alloc)) (c.e.low c.m))
    else
      let ks := (List.range n).map fun k => RegKey.v (r.val + k)
      if busyKeys c.e.team (if writes then [] else ks) (if writes then ks else []) then some (.hold .register) else none
  | .x q =>
    match ls.find? fun l => decide (xBound (c.xval q.val l) < xIndex (c.xval q.val l) + n) with
    | some l => some (.trap cIDXB (w64 q.val) l)
    | none =>
      let ks := ls.flatMap fun l => (List.range n).map fun k => RegKey.v (c.runBase o l + k)
      if busyKeys c.e.team (if writes then [] else ks) (if writes then ks else []) then some (.hold .register) else none
  | _ => none

/-- Lanes 0 to 31 of the issuing sub-team, as a vector operand is read (R311). -/
def Ctx.colLanes (c : Ctx) : List Nat := (List.range 32).filter fun l => c.e.rcd.k0.getLsbD l

/-- n words of a run in lanes, at key 64 l + j. -/
def Ctx.readRun (c : Ctx) (i : Nat) (o : Opnd) (n : Nat) (ls : List Nat) : SMap W32 :=
  ls.flatMap fun l => ((List.range n).map fun j => (64 * l + j, c.rdReg i o j l)).filter fun p => p.2 != 0

/-- Registers a run locks (R316). -/
def Ctx.runRegs (c : Ctx) (o : Opnd) (n : Nat) (ls : List Nat) : List Nat :=
  match o with
  | .v r => (List.range n).map fun k => r.val + k
  | .x _ => (ls.flatMap fun l => (List.range n).map fun k => c.runBase o l + k).dedup
  | _ => []

/-- What an instruction brings to the engine beside itself. -/
structure MatIn where
  va : W64
  vb : W64
  vc : W64
  vec : SMap W32
  locks : List Nat

def noIn : MatIn := ⟨0, 0, 0, [], []⟩

/-- THE ISSUE of a matrix instruction: it waits for the engine and its limits, traps on the first check that fails, or enters
the engine and updates the issue-side copy. -/
def Ctx.matIssue (c : Ctx) (ins : Instr) (bad : Option (Nat × W64)) (x : MatIn) : Res :=
  if c.e.matHeld then .hold .limit
  else match bad with
    | some (k, t) => .trap k t (c.e.low c.m)
    | none =>
      if 32 ≤ (c.e.blk.mat.queue.filter fun o => !o.fin && !isColl o.ins).length ∨ cntFull c.e.team 1 then .hold .limit
      else
        let id := c.s.nextId
        let op : MatOp :=
          { id := id, team := c.e.who.team, ins := ins, pc := c.e.rcd.pc, va := x.va, vb := x.vb, vc := x.vc, vec := x.vec,
            mask := c.m, started := false, fin := false, ov := ovtab c.e.s c.e.la.ctx }
        let s : State := { c.s with nextId := id + 1 }
        let s := c.modTeam s fun t =>
          { t.addOp id 1 with lockBits := t.lockBits ++ x.locks.map fun r => (r, id, c.m) }
        .done (s.modMat c.e.who.bid fun m =>
          let tags := tagEffect ins m.iactive m.ishadow
          { m with owned := true, queue := m.queue ++ [op], istat := statEffect true ins x.va x.vb m.istat,
                   iactive := tags.1, ishadow := tags.2 })

def tileBad (b : Block) (t : Nat) : Option (Nat × W64) := if (b.itile t).valid then none else some (cTILE, w64 t)

/-- An issue-side plane tag that a product cannot use (R320, R325). -/
def planeBad (b : Block) (p : Nat) (ok : Nat → Bool) : Option (Nat × W64) :=
  if ok (smGet 0 b.mat.iactive p) then none else some (cTILE, w64 (16 + p))

def matForm (srcs : List Field) : Form := ctlForm srcs [] .zero false

def opLdw (h : Hdr) (f : PFmt) (p : Fin 8) (a : Opnd) : Op where
  form := matForm [fA a 1]
  eff := fun c =>
    let off := (c.uni 0 a).toNat
    c.matIssue (.ldw h f p a)
      (firstFail [spwinIf c.e.blk [(off, 256 * rowBytes (pfmtCode f))], alignIf [(off, 128)]])
      { noIn with va := w64 off }
/-- R318. -/
def execLdw (h : Hdr) (f : PFmt) (p : Fin 8) (a : Opnd) (s : State) : Host.Outcome State Fault Refusal :=
  (opLdw h f p a).run (issOf h) s

def opWswap (h : Hdr) : Op where
  form := matForm []
  eff := fun c => c.matIssue (.wswap h) none noIn
/-- R319. -/
def execWswap (h : Hdr) (s : State) : Host.Outcome State Fault Refusal := (opWswap h).run (issOf h) s

/-- A source of columns: n bytes of scratchpad from an offset, or a run of registers of lanes 0 to 31. `extra` are further
checks, in order, of ranges and offsets; `tile` the checks of tiles and planes. -/
def Ctx.colIssue (c : Ctx) (ins : Instr) (b : Opnd) (bytes regs : Nat) (vc : W64) (ranges : List (Nat × Nat))
    (tile : List (Option (Nat × W64))) : Res :=
  if opIsS b then
    let off := (c.uni 1 b).toNat
    c.matIssue ins (firstFail (spwinIf c.e.blk ((off, bytes) :: ranges) :: alignIf [(off, 4)] :: tile))
      { noIn with vb := w64 off, vc := vc }
  else if c.e.matHeld then .hold .limit
  else match c.runCheck b regs c.colLanes false with
    | some r => r
    | none =>
      c.matIssue ins (firstFail (spwinIf c.e.blk ranges :: tile))
        { noIn with vc := vc, vec := c.readRun 1 b regs c.colLanes, locks := c.runRegs b regs c.colLanes }

/-- A column operand: a scalar offset, or a run named by its first register. -/
def colField (b : Opnd) (regs : Nat) : Field :=
  match b with
  | .v _ => fB b regs
  | _ => fB b 1

def opMmq (h : Hdr) (q : QFmt) (t p : Fin 8) (b : Opnd) : Op where
  form := matForm [colField b (qBits q)]
  eff := fun c => c.colIssue (.mmq h q t p b) b (128 * qBits q) (qBits q) 0 [] [planeBad c.e.blk p.val tagIsQ]
/-- R320. -/
def execMmq (h : Hdr) (q : QFmt) (t p : Fin 8) (b : Opnd) (s : State) : Host.Outcome State Fault Refusal :=
  (opMmq h q t p b).run (issOf h) s

def opMsa (h : Hdr) (t ts : Fin 8) (b x : Opnd) : Op where
  form := matForm [fB b 1, fC x 1]
  eff := fun c =>
    let sw := (c.uni 1 b).toNat
    let sa := (c.uni 2 x).toNat
    c.matIssue (.msa h t ts b x)
      (firstFail [spwinIf c.e.blk [(sw, 256), (sa, 32)], tileBad c.e.blk t.val, tileBad c.e.blk ts.val])
      { noIn with vb := w64 sw, vc := w64 sa }
/-- R321. -/
def execMsa (h : Hdr) (t ts : Fin 8) (b c : Opnd) (s : State) : Host.Outcome State Fault Refusal :=
  (opMsa h t ts b c).run (issOf h) s

def opMmqa (h : Hdr) (q : QFmt) (t p : Fin 8) (b x : Opnd) : Op where
  form := matForm [colField b (qBits q), fC x 2]
  eff := fun c =>
    let v := c.uni64 2 x
    c.colIssue (.mmqa h q t p b x) b (128 * qBits q) (qBits q) v [((loHalf v).toNat, 256), ((hiHalf v).toNat, 32)]
      [tileBad c.e.blk t.val, planeBad c.e.blk p.val tagIsQ]
/-- R322. -/
def execMmqa (h : Hdr) (q : QFmt) (t p : Fin 8) (b c : Opnd) (s : State) : Host.Outcome State Fault Refusal :=
  (opMmqa h q t p b c).run (issOf h) s

def opMmqaCb (h : Hdr) (q : QFmt) (t : Fin 8) (b x : Opnd) : Op where
  form := matForm [fB b 1, fC x 1]
  eff := fun c =>
    let off := (c.uni 1 b).toNat
    c.matIssue (.mmqaCb h q t b x) (firstFail [spwinIf c.e.blk [(off, 32)], alignIf [(off, 32)], tileBad c.e.blk t.val])
      { noIn with vb := w64 off, vc := (c.uni 2 x).zeroExtend 64 }
/-- R323. -/
def execMmqaCb (h : Hdr) (q : QFmt) (t : Fin 8) (b c : Opnd) (s : State) : Host.Outcome State Fault Refusal :=
  (opMmqaCb h q t b c).run (issOf h) s

def opMmf (h : Hdr) (f : PFmt) (t p : Fin 8) (b : Opnd) : Op where
  form := matForm [colField b (8 * tagBytes (pfmtCode f))]
  eff := fun c =>
    c.colIssue (.mmf h f t p b) b (1024 * tagBytes (pfmtCode f)) (8 * tagBytes (pfmtCode f)) 0 []
      [tileBad c.e.blk t.val, planeBad c.e.blk p.val fun g => g == pfmtCode f]
/-- R325. -/
def execMmf (h : Hdr) (f : PFmt) (t p : Fin 8) (b : Opnd) (s : State) : Host.Outcome State Fault Refusal :=
  (opMmf h f t p b).run (issOf h) s

/-- The pitch of a tile image (R326). -/
def Ctx.pitch (c : Ctx) (f : TFmt) (b : Opnd) : Nat := if opIsZero b then 32 * tfmtBytes f else (c.uni 1 b).toNat

/-- The checks of a tile image at an address. -/
def imageBad (e : Env) (f : TFmt) (addr pitch : Nat) : Option (Nat × W64) :=
  let row := 32 * tfmtBytes f
  let n := 255 * pitch + row
  firstFail
    [if windowOf addr then
       match resolveWindow e.s e.la.hdr e.blk addr n with
       | .error k => some (k, w64 addr)
       | .ok _ => none
     else some (cSPWIN, w64 addr),
     if pitch < row ∨ pitch % 16 ≠ 0 ∨ addr % 16 ≠ 0 then some (cALIGN, w64 addr) else none]

def opTld (h : Hdr) (f : TFmt) (t : Fin 8) (a b : Opnd) : Op where
  form := matForm [fA a 2, fB b 1]
  eff := fun c =>
    let addr := (c.uni64 0 a).toNat
    c.matIssue (.tld h f t a b) (imageBad c.e f addr (c.pitch f b)) { noIn with va := w64 addr, vb := w64 (c.pitch f b) }
/-- R326. -/
def execTld (h : Hdr) (f : TFmt) (t : Fin 8) (a b : Opnd) (s : State) : Host.Outcome State Fault Refusal :=
  (opTld h f t a b).run (issOf h) s

def opTst (h : Hdr) (f : TFmt) (trk : Bool) (a b : Opnd) (t : Fin 8) : Op where
  form := matForm [fA a 2, fB b 1]
  eff := fun c =>
    let addr := (c.uni64 0 a).toNat
    c.matIssue (.tst h f trk a b t) (firstFail [imageBad c.e f addr (c.pitch f b), tileBad c.e.blk t.val])
      { noIn with va := w64 addr, vb := w64 (c.pitch f b) }
/-- R327. -/
def execTst (h : Hdr) (f : TFmt) (trk : Bool) (a b : Opnd) (t : Fin 8) (s : State) : Host.Outcome State Fault Refusal :=
  (opTst h f trk a b t).run (issOf h) s

def opTzero (h : Hdr) (t : Fin 8) (b : Opnd) : Op where
  form := matForm [fB b 1]
  eff := fun c => c.matIssue (.tzero h t b) none { noIn with vb := (c.uni 1 b).zeroExtend 64 }
/-- R328. -/
def execTzero (h : Hdr) (t : Fin 8) (b : Opnd) (s : State) : Host.Outcome State Fault Refusal :=
  (opTzero h t b).run (issOf h) s

/-- The selector of `TMV` (R329): first row, first column, columns. -/
def tmvSel (b : W32) : Nat × Nat × Nat := (bitsOf b.toNat 7 0, bitsOf b.toNat 12 8, bitsOf b.toNat 17 13 + 1)

def tmvBad (b : W32) (t : Nat) : Option (Nat × W64) :=
  let s := tmvSel b
  if 2 ^ 18 ≤ b.toNat ∨ 32 < s.2.1 + s.2.2 then some (cTILE, w64 t) else none

/-- Lanes of a `TMV` whose row lies in the tile. -/
def Ctx.tmvLanes (c : Ctx) (r0 : Nat) : List Nat := c.lanes.filter fun l => r0 + l ≤ 255

def opTmvT2v (h : Hdr) (d : Opnd) (t : Fin 8) (b : Opnd) : Op where
  form := ctlForm [fB b 1] [fD d 1] .own false
  eff := fun c =>
    let sel := c.uni 1 b
    let (_, _, n) := tmvSel sel
    if c.e.probing then
      .done ((List.range n).foldl (fun s j =>
        match d with
        | .v r => if h : r.val + j < 176 then
            let o := Opnd.v ⟨r.val + j, h⟩
            c.mark [fD o 1] (fun _ => true) (c.putUni o 1 0 s)
          else s
        | _ => c.mark [fD d 1] (fun _ => true) (c.putUni d 1 0 s)) c.s)
    else if c.e.matHeld then .hold .limit
    else match tmvBad sel t.val, c.runCheck d n c.lanes true with
      | _, some (.trap k tr l) => .trap k tr l
      | some (k, tr), _ => .trap k tr (c.e.low c.m)
      | none, some r => r
      | none, none =>
        let regs := c.runRegs d n c.lanes
        let base : SMap W32 := (c.lanes.map fun l => (l, w32 (c.runBase d l))).filter fun p => p.2 != 0
        match c.matIssue (.tmvT2v h d t b) (tileBad c.e.blk t.val) { noIn with vb := sel.zeroExtend 64, vec := base } with
        | .done s => .done (c.modTeam s fun u =>
            { u with waits := u.waits ++ regs.map fun r => (RegKey.v r, c.m) })
        | r => r
/-- R329. -/
def execTmvT2v (h : Hdr) (d : Opnd) (t : Fin 8) (b : Opnd) (s : State) : Host.Outcome State Fault Refusal :=
  (opTmvT2v h d t b).run (issOf h) s

def opTmvV2t (h : Hdr) (t : Fin 8) (a b : Opnd) : Op where
  form := matForm [fA a 1, fB b 1]
  eff := fun c =>
    let sel := c.uni 1 b
    let (r0, _, n) := tmvSel sel
    if c.e.matHeld then .hold .limit
    else match tmvBad sel t.val, c.runCheck a n (c.tmvLanes r0) false with
      | _, some (.trap k tr l) => .trap k tr l
      | some (k, tr), _ => .trap k tr (c.e.low c.m)
      | none, some r => r
      | none, none =>
        c.matIssue (.tmvV2t h t a b) none
          { noIn with vb := sel.zeroExtend 64, vec := c.readRun 0 a n (c.tmvLanes r0), locks := c.runRegs a n c.lanes }
/-- R329. -/
def execTmvV2t (h : Hdr) (t : Fin 8) (a b : Opnd) (s : State) : Host.Outcome State Fault Refusal :=
  (opTmvV2t h t a b).run (issOf h) s

/-- The status word of a tile (R331). -/
def tstatWord (b : Block) (t : Nat) : Nat :=
  let st := b.itile t
  2 ^ 16 * st.nb + 8 * st.track + (if tileInFlight b t then 4 else 0) + (if st.dirty then 2 else 0)
    + (if st.valid then 1 else 0)

def opTstat (d : Opnd) (t : Nat) : Op where
  form := ⟨[], [fD d 1], .ctl, some 4, .zero, false, false⟩
  eff := fun c =>
    if c.e.matHeld then .hold .limit
    else .done (c.putUni d 1 (tstatWord c.e.blk t) (c.s.modMat c.e.who.bid fun m => { m with owned := true }))
/-- R331. -/
def execTstat (h : Hdr) (d : Opnd) (t : Fin 8) (s : State) : Host.Outcome State Fault Refusal :=
  (opTstat d t.val).run (issOf h) s

def opTacc (h : Hdr) (t ts : Fin 8) : Op where
  form := matForm []
  eff := fun c => c.matIssue (.tacc h t ts) (firstFail [tileBad c.e.blk t.val, tileBad c.e.blk ts.val]) noIn
/-- R330. -/
def execTacc (h : Hdr) (t ts : Fin 8) (s : State) : Host.Outcome State Fault Refusal := (opTacc h t ts).run (issOf h) s

/-! Products (R320, R321, R325). -/

/-- Sum over k of products of two lists. -/
def dotInt (a b : List Int) : Int := (a.zip b).foldl (fun n p => n + p.1 * p.2) 0

/-- Elements of a Q block from its bytes. -/
def qElems (b : Nat) (bytes : List Byte) : List Int :=
  let v := leNat bytes
  (List.range 32).map fun k => qElem b v k

/-- The bytes of n words of lane l in a vector operand. -/
def vecBytes (v : SMap W32) (l n : Nat) : List Byte := (List.range n).flatMap fun j => leBytes 4 (smGet 0 v (64 * l + j)).toNat

/-- The columns of a product: n bytes each, `pitch` apart from an offset, or from the vector operand. -/
def colsOf (b : Block) (o : MatOp) (scal : Bool) (off pitch n : Nat) : List (List Byte) :=
  (List.range 32).map fun i => if scal then b.bytes (off + i * pitch) n else vecBytes o.vec i (n / 4)

/-- P[m][n] of R320: the active plane's rows against columns of A bits. -/
def intProduct (pl : Plane) (A : Nat) (cols : List (List Byte)) : List (List Int) :=
  let xs := cols.map (qElems A)
  (List.range 256).map fun m =>
    let w := qElems pl.tag (bytesAt pl.img (m * (4 * pl.tag)) (4 * pl.tag))
    xs.map fun x => dotInt w x

def matVal {α : Type} (d : α) (l : List (List α)) (m n : Nat) : α := (l.getD m []).getD n d

/-- One element of `MSA` (R321). -/
def msaElem (pol acc : Nat) (p : Int) (ew ea : Nat) : Nat :=
  let a := fp32.decode acc
  if ew = 0xFF ∨ ea = 0xFF ∨ a.isNan then fp32.nanBits
  else if a.isInf true || a.isInf false then acc
  else if p = 0 then acc
  else fp32.narrow pol .rne (FVal.sum .rne [a, .fin (decide (p < 0)) p.natAbs ((ew : Int) + ea - 254)])

/-- The accumulate stage over a tile: exponents as byte lists. -/
def msaTile (pol : Nat) (tiles : SMap W32) (t : Nat) (p : Nat → Nat → Int) (ew ea : List Byte) : SMap W32 :=
  putTile tiles t fun m n =>
    w32 (msaElem pol (smGet 0 tiles (tileKey t m n)).toNat (p m n) (ew.getD m 0).toNat (ea.getD n 0).toNat)

/-- A float column or row as values. -/
def floatElems (tag : Nat) (bytes : List Byte) : List FVal :=
  let s := tagBytes tag
  (List.range 32).map fun k => (tagFmt tag).decode (leNat ((bytes.drop (k * s)).take s))

def mmfTile (tiles : SMap W32) (t : Nat) (pl : Plane) (cols : List (List Byte)) : SMap W32 :=
  let rb := rowBytes pl.tag
  let ws := (List.range 256).map fun m => floatElems pl.tag (bytesAt pl.img (m * rb) rb)
  let xs := cols.map (floatElems pl.tag)
  putTile tiles t fun m n =>
    let prods := ((ws.getD m []).zip (xs.getD n [])).map fun p => p.1.mul p.2
    w32 (fp32.encode .rne (FVal.sum .rne (fp32.decode (smGet 0 tiles (tileKey t m n)).toNat :: prods)))

/-! Execution (R312, R332). -/

def emptyPlane : Plane := ⟨0, 0, []⟩
def Block.plane (b : Block) (p : Nat) : Plane := smGet emptyPlane b.mat.active p

/-- The first poisoned unit of an own-scratchpad range, as an address. -/
def poisonUnit (b : Block) (r : Nat × Nat) : Option Nat :=
  ((unitsTouched r.1 r.2).find? fun u => b.spoison.contains u).map fun u => (localAddr (8 * u)).toNat

/-- Own-scratchpad ranges an instruction reads when it executes. -/
def matRanges (o : MatOp) : List (Nat × Nat) :=
  match o.ins with
  | .ldw _ f _ _ => [(offOf o.va, 256 * rowBytes (pfmtCode f))]
  | .mmq _ q _ _ b => if opIsS b then [(offOf o.vb, 128 * qBits q)] else []
  | .msa _ _ _ _ _ => [(offOf o.vb, 256), (offOf o.vc, 32)]
  | .mmqa _ q _ _ b _ =>
    (if opIsS b then [(offOf o.vb, 128 * qBits q)] else []) ++ [((loHalf o.vc).toNat, 256), ((hiHalf o.vc).toNat, 32)]
  | .mmf _ f _ _ b => if opIsS b then [(offOf o.vb, 1024 * tagBytes (pfmtCode f))] else []
  | _ => []

/-- The block and offset of a window address. -/
def winAt (s : State) (la : Launch) (b : Block) (addr : Nat) : Option (Block × Nat) :=
  match resolveWindow s la.hdr b addr 1 with
  | .ok r => (s.block? r.1).map fun c => (c, r.2)
  | .error _ => none

/-- Poison that an instruction would read (R332): a unit's generic address. -/
def matPoison (s : State) (la : Launch) (b : Block) (o : MatOp) : Option Nat :=
  match o.ins with
  | .tld _ f _ _ _ =>
    match winAt s la b o.va.toNat with
    | none => none
    | some (c, off) =>
      (List.range 256).findSome? fun m =>
        let r := off + m * offOf o.vb
        ((unitsTouched r (32 * tfmtBytes f)).find? fun u => c.spoison.contains u).map fun u =>
          o.va.toNat / 2 ^ 20 * 2 ^ 20 + 8 * u
  | _ => (matRanges o).findSome? (poisonUnit b)

/-- A tile element read from an image (R326), and as it is stored (R327). -/
def tldElem (f : TFmt) (n : Nat) : Nat :=
  match f with
  | .b32 => n
  | .bf16 => fp32.encode .rne (bf16.decode n)
  | .f16 => fp32.encode .rne (fp16.decode n)
  | .nf8 => fp32.encode .rne (nf8.decode n)

def tstElem (f : TFmt) (ov : W32) (n : Nat) : Nat :=
  match f with
  | .b32 => n
  | .bf16 => bf16.narrow (polBf16 ov) .rne (fp32.decode n)
  | .f16 => fp16.narrow (polFp16 ov) .rne (fp32.decode n)
  | .nf8 => nf8.narrow (polNf8 ov) .rne (fp32.decode n)

/-- The engine's part of an instruction: planes, tiles, scratchpads and registers after it. -/
def matEffect (s : State) (la : Launch) (b : Block) (o : MatOp) : State :=
  let ov := o.ov
  let tiles := b.mat.tiles
  let setTiles : SMap W32 → State := fun t => s.modMat b.bid fun m => { m with tiles := t }
  match o.ins with
  | .ldw _ f p _ =>
    let c := pfmtCode f
    let src := offOf o.va
    let pl : Plane := ⟨c, src, b.copyOut src (256 * rowBytes c)⟩
    s.modMat b.bid fun m =>
      let sh := smSet emptyPlane m.shadow p.val pl
      { m with shadow := if tagFloat c then smSet emptyPlane sh (p.val + 1) pl else sh }
  | .wswap _ => s.modMat b.bid fun m => { m with active := m.shadow, shadow := m.active }
  | .mmq _ q t p x =>
    let P := intProduct (b.plane p.val) (qBits q) (colsOf b o (opIsS x) (offOf o.vb) (4 * qBits q) (4 * qBits q))
    setTiles (putTile tiles t.val fun m n => BitVec.ofInt 32 (matVal 0 P m n))
  | .msa _ t ts _ _ =>
    setTiles (msaTile (polFp32 ov) tiles t.val (fun m n => readInt true 32 (smGet 0 tiles (tileKey ts.val m n)).toNat)
      (b.bytes (offOf o.vb) 256) (b.bytes (offOf o.vc) 32))
  | .mmqa _ q t p x _ =>
    let P := intProduct (b.plane p.val) (qBits q) (colsOf b o (opIsS x) (offOf o.vb) (4 * qBits q) (4 * qBits q))
    setTiles (msaTile (polFp32 ov) tiles t.val (matVal 0 P) (b.bytes (loHalf o.vc).toNat 256) (b.bytes (hiHalf o.vc).toNat 32))
  | .mmf _ f t p x =>
    let n := 32 * tagBytes (pfmtCode f)
    setTiles (mmfTile tiles t.val (b.plane p.val) (colsOf b o (opIsS x) (offOf o.vb) n n))
  | .tld _ f t _ _ =>
    match winAt s la b o.va.toNat with
    | none => s
    | some (c, off) =>
      let e := tfmtBytes f
      setTiles (putTile tiles t.val fun m n => w32 (tldElem f (numAt c.scratch (off + m * offOf o.vb + n * e) e)))
  | .tst _ f _ _ _ t =>
    match winAt s la b o.va.toNat with
    | none => s
    | some (c, off) =>
      let row : Nat → List Byte := fun m =>
        (List.range 32).flatMap fun n => leBytes (tfmtBytes f) (tstElem f ov (b.tile t.val m n).toNat)
      s.modBlock c.bid fun c => (List.range 256).foldl (fun c m => putScratch c (off + m * offOf o.vb) (row m) false) c
  | .tzero _ t _ => setTiles (putTile tiles t.val fun _ _ => 0)
  | .tmvT2v _ d t _ =>
    let (r0, n0, n) := tmvSel (loHalf o.vb)
    if opIsZero d then s
    else
      let base : Nat → Nat := fun l => (smGet 0 o.vec l).toNat
      let one : Team → Nat → Team := fun u l =>
        if r0 + l ≤ 255 then
          (List.range n).foldl (fun u j => u.setV (base l + j) l (b.tile t.val (r0 + l) (n0 + j))) u
        else u
      s.modTeam b.bid o.team fun u =>
        let ls := maskLanes o.mask u.lanes
        let keys := ls.flatMap fun l => (List.range n).map fun j => RegKey.v (base l + j)
        let u := ls.foldl one u
        Team.wake Wait.isRegister s.time { u with waits := u.waits.filter fun w => !keys.contains w.1 }
  | .tmvV2t _ t _ _ =>
    let (r0, n0, n) := tmvSel (loHalf o.vb)
    let m0 := if (tileStat b.mat.stat t.val).valid then tiles else putTile tiles t.val fun _ _ => 0
    let ls := (List.range 256).filter fun l => o.mask.getLsbD l && decide (r0 + l ≤ 255)
    setTiles (ls.foldl (fun m l =>
      (List.range n).foldl (fun m j => smSet 0 m (tileKey t.val (r0 + l) (n0 + j)) (smGet 0 o.vec (64 * l + j))) m) m0)
  | .tacc _ t ts =>
    setTiles (putTile tiles t.val fun m n =>
      w32 (fp32.encode .rne (FVal.sum .rne
        [fp32.decode (b.tile t.val m n).toNat, fp32.decode (b.tile ts.val m n).toNat])))
  | .coll _ _ _ t _ _ =>
    let rows : SMap W32 := (tiles.filter fun p => p.1 / 8192 == t.val).map fun p => (p.1 % 8192, p.2)
    s.modBlock b.bid fun c => { c with colls := c.colls.map fun k => if k.id = o.id then { k with rows_ := rows } else k }
  | _ => s

/-- The next instruction in entry order that has not finished. -/
def matHead (b : Block) : Option MatOp := b.mat.queue.find? fun o => !o.fin

/-- A collective in flight holds a tile that an instruction touches (R412). -/
def collHolds (b : Block) (o : MatOp) : Bool :=
  b.colls.any fun c => c.started && c.id != o.id && (tilesTouched o.ins).contains c.tile
    && !(b.mat.queue.any fun k => k.id == c.id)

/-- Blocks held for a tile (R324). -/
def heldFor (b : Block) (t : Nat) : List AcqSlot := b.mat.acq.filter fun a => a.tile == t && !a.applied && !a.stalled

/-- An instruction finishes in the engine: its locks clear (R316), the tile states follow. -/
def matFinish (s : State) (bid : Nat) (o : MatOp) : State :=
  let now := s.time
  let s := s.modMat bid fun m =>
    { m with queue := m.queue.map fun k => if k.id = o.id then { k with started := true, fin := true } else k
             stat := statEffect false o.ins o.va o.vb m.stat }
  let s := s.modTeam bid o.team fun t =>
    if t.locks.any fun p => p.2 == o.id then
      Team.wake Wait.isRegister now { t with lockBits := t.lockBits.filter fun p => p.2.1 != o.id }
    else t
  wakeLimits s bid

/-- The block that the array takes next: held or at the head, with the index its tile waits for (R324). -/
def nextBlock (b : Block) : Option AcqSlot :=
  b.mat.acq.find? fun a => !a.applied && !a.stalled && a.k == (tileStat b.mat.stat a.tile).nb

/-- Why a block cannot be applied now: cause and `%trapa`. -/
def applyBad (b : Block) (a : AcqSlot) : Option (Nat × Nat) :=
  let w := a.sw + 256 * a.plane
  if 2 ^ 32 ≤ w ∨ !b.fits w 256 then some (cSPWIN, (localAddr w).toNat)
  else if !b.fits a.slotOff (32 * recLen a.q) then some (cSPWIN, (localAddr a.slotOff).toNat)
  else if !tagIsQ (b.plane a.plane).tag then some (cTILE, 16 + a.plane)
  else match ([(a.slotOff, 32 * recLen a.q), (w, 256)]).findSome? (poisonUnit b) with
    | some u => some (cPOISON, u)
    | none => none

/-- One block applied to its tile (R324). -/
def applyBlock (s : State) (b : Block) (a : AcqSlot) : State :=
  let n := 4 * qBits a.q
  let r := recLen a.q
  let cols := (List.range 32).map fun i => b.bytes (a.slotOff + i * r) n
  let ea := (List.range 32).map fun i => byteAt b.scratch (a.slotOff + i * r + n)
  let P := intProduct (b.plane a.plane) (qBits a.q) cols
  s.modMat b.bid fun m =>
    { m with
      tiles := msaTile (polFp32 a.ov) m.tiles a.tile (matVal 0 P) (b.bytes (a.sw + 256 * a.plane) 256) ea
      stat := setStat m.stat a.tile fun st => { st with dirty := true, nb := (st.nb + 1) % 65536 }
      acq := m.acq.map fun k => if k = a then { k with applied := true } else k }

/-- An applied slot with none before it is released as `CBREL` releases (R299, R324), or stops the launch. -/
def releaseSlot (s : State) (b : Block) (a : AcqSlot) : State :=
  match getCb b a.bufOff with
  | none => engineStop s b a.team cCBUF a.pc (localAddr a.bufOff) []
  | some c =>
    if c.acq = 0 then engineStop s b a.team cCBUF a.pc (localAddr a.bufOff) []
    else
      let s := s.modBlock b.bid fun b =>
        putCb { b with mat := { b.mat with acq := b.mat.acq.tail } } a.bufOff { c with free := c.free + 1 }
      serveCb s b.bid a.bufOff

/-- What the engine does before the instruction at its head: it releases the oldest slot once that is applied, applies the block
whose turn has come, or ends the product that has applied its own (R324). -/
def engineFirst (s : State) (b : Block) : Option State :=
  match b.mat.acq.head?, nextBlock b, matHead b with
  | some a, n, h =>
    if a.applied then some (releaseSlot s b a)
    else match n, h with
      | some k, _ =>
        some (match applyBad b k with
          | some (c, t) => engineStop s b k.team c k.pc (w64 t) []
          | none => applyBlock s b k)
      | none, some o => if o.started then some (matFinish s b.bid o) else none
      | none, none => none
  | none, _, some o => if o.started then some (matFinish s b.bid o) else none
  | none, _, none => none

/-- The instruction at the head can execute; a product fed by a buffer waits for its slot. -/
def headGoes (s : State) (la : Launch) (b : Block) (o : MatOp) : Bool :=
  !collHolds b o && match o.ins with
    | .mmqaCb _ _ _ _ _ => false
    | .tzero _ t _ => (heldFor b t.val).isEmpty
    | _ => (matPoison s la b o).isNone

/-- A halted block's engine goes on while it holds lock bits that the instruction at its head lets clear (R135, R260). -/
def lockGoes (s : State) (la : Launch) (b : Block) : Bool :=
  (b.teams.any fun t => !t.lockBits.isEmpty) && (engineFirst s b).isNone && (matHead b).any (headGoes s la b)

/-- The next instruction executes (R312), or stops its launch (R328, R332). A buffer-fed product takes its slot by SLOT_ACQUIRE. -/
def matExecute (s : State) (bid : Nat) : State :=
  match s.block? bid with
  | none => s
  | some b =>
    match s.launch? b.q b.lseq with
    | none => s
    | some la =>
      if !engineRuns la b && !lockGoes s la b then s
      else match engineFirst s b, matHead b with
        | some t, _ => t
        | none, none => s
        | none, some o =>
          if collHolds b o then s
          else match o.ins with
            | .mmqaCb _ _ _ _ _ => s
            | .tzero _ t _ =>
              if (heldFor b t.val).isEmpty then matFinish (matEffect s la b o) bid o
              else engineStop s b o.team cTILE o.pc (w64 t.val) []
            | .coll _ _ _ _ _ _ =>
              (matEffect s la b o).modMat bid fun m => { m with queue := m.queue.filter fun k => k.id != o.id }
            | _ =>
              match matPoison s la b o with
              | some a => engineStop s b o.team cPOISON o.pc (w64 a) []
              | none => matFinish (matEffect s la b o) bid o

/-- MATRIX_EXECUTE. -/
def execMatrixExecute (bid : Nat) (s : State) : Host.Outcome State Fault Refusal := .next (matExecute s bid)

/-- The first finished instruction that is the oldest of its team's class 1 retires (R18). -/
def matRetire (s : State) (bid : Nat) : State :=
  match s.block? bid with
  | none => s
  | some b =>
    match b.mat.queue.find? fun o => o.fin && oldestOp b o.team 1 == some o.id with
    | none => s
    | some o =>
      finishOp (s.modMat bid fun m => { m with queue := m.queue.filter fun k => k.id != o.id }) bid o.team o.id 1 none

/-- MATRIX_RETIRE. -/
def execMatrixRetire (bid : Nat) (s : State) : Host.Outcome State Fault Refusal := .next (matRetire s bid)

/-! Buffer-fed products (R323, R324). -/

/-- What R324 does with a block of index k. -/
inductive BlockFate where
  | apply | hold | stall | stop (cause trapa : Nat)
  deriving DecidableEq, Repr

def blockFate (b : Block) (t tag : Nat) : BlockFate :=
  let k := tag % 65536
  let p := bitsOf tag 18 16
  let nb := (tileStat b.mat.stat t).nb
  let held := b.mat.acq.filter fun a => !a.applied && !a.stalled
  if 2 ^ 19 ≤ tag then .stop cTILE t
  else if !tagIsQ (b.plane p).tag then .stop cTILE (16 + p)
  else if k = nb then .apply
  else if k < nb ∨ (held.any fun a => a.tile == t && a.k == k) then .stop cTILE t
  else if k ≤ nb + 8 ∧ held.length < 8 then .hold
  else .stall

/-- The product at the head goes on with its slot: its block enters the array, is held, or stalls. -/
def enterBlock (s : State) (b : Block) (o : MatOp) (a : AcqSlot) : State :=
  let enters : State := s.modMat b.bid fun m => { m with acq := m.acq.map fun k => if k = a then { k with stalled := false } else k }
  match blockFate b a.tile a.tag with
  | .stop c t => engineStop s b o.team c o.pc (w64 t) []
  | .stall => s
  | .hold => matFinish enters b.bid o
  | .apply =>
    enters.modMat b.bid fun m => { m with queue := m.queue.map fun k => if k.id = o.id then { k with started := true } else k }

/-- The product at the head acquires a slot as `CBACQ` does (R298, R323, R324), or waits. -/
def acquireFor (s : State) (b : Block) (o : MatOp) (q : QFmt) : State :=
  let off := offOf o.vb
  let me : CbWaiter := ⟨off, true, ⟨b.bid, o.team, 0⟩, some o.id⟩
  let stop : Nat → W64 → State := fun c a => engineStop (s.modBlock b.bid fun b => dropWaiter b me) b o.team c o.pc a []
  match poisonUnit b (off, 32) with
  | some u => stop cPOISON (w64 u)
  | none =>
    match getCb b off with
    | none => stop cCBUF (localAddr off)
    | some c =>
      if c.tags = noTags ∨ c.ssize < 32 * recLen q then stop cCBUF (localAddr off)
      else if c.filled = 0 ∨ ((firstWaiter b off true).any fun w => !(w == me)) then
        if b.cbq.contains me then s else s.modBlock b.bid fun b => { b with cbq := b.cbq ++ [me] }
      else match poisonUnit b (c.tags + 4 * c.head, 4) with
        | some u => stop cPOISON (w64 u)
        | none => serveCb (s.modBlock b.bid fun b => grantMat (dropWaiter b me) off c o) b.bid off

/-- SLOT_ACQUIRE: what comes first in the engine, or the product at its head acquires its slot or goes on with it. -/
def slotAcquire (s : State) (bid : Nat) : State :=
  match s.block? bid with
  | none => s
  | some b =>
    match s.launch? b.q b.lseq with
    | none => s
    | some la =>
      if !engineRuns la b then s
      else match engineFirst s b, matHead b with
        | some t, _ => t
        | none, none => s
        | none, some o =>
          if collHolds b o then s
          else match o.ins with
            | .mmqaCb _ q _ _ _ =>
              match slotOf b o with
              | some a => enterBlock s b o a
              | none => acquireFor s b o q
            | _ => s

/-- SLOT_ACQUIRE (R324). -/
def execSlotAcquire (bid : Nat) (s : State) : Host.Outcome State Fault Refusal := .next (slotAcquire s bid)

end Sys2Proof.Machine
end

