-- ==== Sys2Proof/Machine/System.lean ====
section
/-! DEFINITION. The special registers (R145 to R148) and the system majors 0xF8 to 0xFD (R159 to R164). -/

namespace Sys2Proof.Machine

/-- The field widths of `%wid` (R10; a station's, R366). -/
def Env.widths (e : Env) : List Nat := if e.station then [6, 2, 0, 0, 0, 0] else e.la.hdr.w

def Env.wid (e : Env) (l : Nat) : W64 := e.team.wid0 + w64 l

/-- Field i of `%wid`. -/
def Env.wfld (e : Env) (i l : Nat) : Nat :=
  (e.wid l).toNat / 2 ^ ((e.widths.take i).foldl (· + ·) 0) % 2 ^ e.widths.getD i 0

/-- `%subt` (R148). -/
def Env.subt (e : Env) : Nat := 64 * e.rcd.parent + e.team.records.length

/-- `%async` (R145). -/
def Team.async (t : Team) : Nat := (List.range 6).foldl (fun n c => n + 256 ^ c * t.count c) 0

/-- The value of a special register in a lane (R145). -/
def specialVal (e : Env) (num l : Nat) : Nat :=
  if num = 0x00 then l
  else if num = 0x01 then (e.wid l).toNat
  else if num ≤ 0x07 then e.wfld (num - 2) l
  else if num = 0x08 then e.s.time
  else if num = 0x09 then e.rcd.alloc
  else if num = 0x0A then e.la.hdr.ceiling
  else if num = 0x0B then poolFree e.s e.blk.coreNum
  else if num = 0x0C then e.team.mode.toNat
  else if num = 0x0D then e.team.prio.toNat
  else if num = 0x0E then e.subt
  else if num = 0x0F then coreId e.blk.coreNum
  else if num = 0x10 then e.team.trapc.toNat
  else if num = 0x11 then e.team.trapa.toNat
  else if num = 0x12 then e.team.trappc.toNat
  else if num = 0x13 then e.team.trapst.toNat
  else if num = 0x14 then e.team.async
  else if num = 0x18 then e.team.vs.toNat
  else if num = 0x19 then e.team.bstat.toNat
  else if num = 0x1A then e.team.gmiss.toNat
  else if num = 0x40 then e.la.lease
  else if num = 0x41 then (ovtab e.s e.la.ctx).toNat
  else if num = 0x42 then e.la.ctx
  else 0

/-- The numbers `SRD` and `SWR` reach on a station (R164). -/
def stationSpecial (num : Nat) : Bool := decide (num ≤ 0x09) || num == 0x0C || num == 0x0E

/-- Read and written only by a privileged launch (R81, R145). -/
def privSpecial (num : Nat) : Bool := num == 0x0D || num == 0x40

/-- Width in registers of a whole special register's value. -/
def specialRegs (num : Nat) (half : Half) : Nat :=
  if ((sreg num).map SReg.wide).getD false && half == .full then 2 else 1

/-- The half named (R160). -/
def halfVal (half : Half) (v : Nat) : Nat :=
  match half with
  | .full => v
  | .lo => v % 2 ^ 32
  | .hi => v / 2 ^ 32

def opSrd (half : Half) (d : Opnd) (num : Nat) : Op where
  form := ⟨[], [fD d (specialRegs num half)], if opIsS d then .scalar else .vec, none, .run, stationSpecial num, privSpecial num⟩
  eff := fun c => .done (c.putOn c.lanes d (specialRegs num half) (fun l => halfVal half (specialVal c.e num l)) c.s)
/-- R160. -/
def execSrd (h : Hdr) (half : Half) (d : Opnd) (num : BitVec 8) (s : State) : Host.Outcome State Fault Refusal :=
  (opSrd half d num.toNat).run (issOf h) s

/-- A 64-bit register with the written part replaced. -/
def mergeHalf (half : Half) (old : W64) (v : W64) : W64 :=
  match half with
  | .full => v
  | .lo => pairVal (loHalf v) (hiHalf old)
  | .hi => pairVal (loHalf old) (loHalf v)

/-- The team after `SWR` (R145, R146, R435): reserved bits stay 0. -/
def swrTeam (half : Half) (num : Nat) (v : W64) (t : Team) : Team :=
  if num = 0x0C then { t with mode := loHalf v &&& 1 }
  else if num = 0x0D then { t with prio := loHalf v &&& 0x3F }
  else if num = 0x19 then { t with bstat := mergeHalf half t.bstat v &&& ~~~(w64 (2 ^ 51)) }
  else if num = 0x1A then { t with gmiss := loHalf v }
  else t

def opSwr (half : Half) (num : Nat) (a : Opnd) : Op where
  form := teamForm [fA a (specialRegs num half)] [] .ends (stationSpecial num) (privSpecial num)
  eff := fun c =>
    let v := if specialRegs num half = 2 then c.uni64 0 a else (c.uni 0 a).zeroExtend 64
    .done (c.modTeam c.s (swrTeam half num v))
/-- R160. -/
def execSwr (h : Hdr) (half : Half) (num : BitVec 8) (a : Opnd) (s : State) : Host.Outcome State Fault Refusal :=
  (opSwr half num.toNat a).run (issOf h) s

def opSwrp (a : Opnd) : Op where
  form := teamForm [fA a 1] [] .ends false true
  eff := fun c =>
    let v := (c.uni 0 a).toNat
    if 50 ≤ v ∧ v ≤ 10000 then .done (c.s.modLaunch c.e.la.q c.e.la.lseq fun l => { l with lease := v })
    else .trap cILLOP 0 (c.e.low c.m)
/-- R160. Only `%lease` is writable, which the form's legality says. -/
def execSwrp (h : Hdr) (num : BitVec 8) (a : Opnd) (s : State) : Host.Outcome State Fault Refusal :=
  if num = 0x40 then (opSwrp a).run (issOf h) s else Op.illegal.run (issOf h) s

/-- A value an overflow table may take (R47). -/
def ovtabLegal (v : Nat) : Bool :=
  decide (v < 2 ^ 14) && (List.range 7).all fun i => v / 4 ^ i % 4 != 3

def setOvtab (s : State) (ctx : Nat) (v : W32) : State := { s with ovtab := smSet 0x15 s.ovtab ctx v }

def opOvld (a : Opnd) : Op where
  form := teamForm [fA a 1] [] .ends false true
  eff := fun c =>
    let v := c.uni 0 a
    if ovtabLegal v.toNat then .done (setOvtab c.s c.e.la.ctx v) else .trap cILLOP 0 (c.e.low c.m)
/-- R161. -/
def execOvld (h : Hdr) (a : Opnd) (s : State) : Host.Outcome State Fault Refusal := (opOvld a).run (issOf h) s

def opTret (skip : Bool) : Op where
  form := teamForm [] [] .ends false false
  eff := fun c => if c.e.team.inh then .done (returnTrap { c.e with s := c.s } skip) else .trap cILLOP 0 (c.e.low c.m)
/-- R162. -/
def execTret (h : Hdr) (skip : Bool) (s : State) : Host.Outcome State Fault Refusal := (opTret skip).run (issOf h) s

/-- What a save by pre-emption records (R112, R163): reason 0x3F and the address given. -/
def saveInfo (s : State) (pc : W64) (core row : Nat) (hold silent : Bool) : Stop :=
  { cause := 0, pc := pc, trapa := 0, wid := 0, at_ := s.time, core := core, row := row, reason := 0x3F, hold := hold,
    silent := silent, pages := [] }

def opHalt : Op where
  form := teamForm [] [] .ends false true
  eff := fun c =>
    .done (stopLaunch c.s c.e.la.q c.e.la.lseq
      (saveInfo c.s c.e.rcd.pc c.e.blk.coreNum c.e.team.row true false) true)
/-- R163. -/
def execHalt (h : Hdr) (s : State) : Host.Outcome State Fault Refusal := opHalt.run (issOf h) s

end Sys2Proof.Machine
end

