-- ==== Sys2Proof/Machine/Save.lean ====
section
/-! DEFINITION. Saved blocks: the context record that software sees (R262 to R267, R305, R334, R361, R416), and what reaches a
block wherever it is (R268). -/

namespace Sys2Proof.Machine

/-! Images. -/

/-- Bytes at ascending offsets, zero elsewhere, of a section of `len` bytes. -/
def layOut (len : Nat) (l : List (Nat × List Byte)) : List Byte :=
  let body := l.foldl (fun acc f => acc ++ List.replicate (f.1 - acc.length) 0 ++ f.2) []
  (body ++ List.replicate (len - body.length) 0).take len

/-- The bytes of a map from `a` on, n of them. -/
def denseBytes : Memory → Nat → Nat → List Byte
  | _, _, 0 => []
  | [], _, n + 1 => 0 :: denseBytes [] 0 n
  | (k, v) :: m, a, n + 1 => if k = a then v :: denseBytes m (a + 1) n else 0 :: denseBytes ((k, v) :: m) (a + 1) n

/-- The model's number of a wait, and what it waits for. -/
def Wait.code : Wait → Nat × Nat
  | .ready => (0, 0)
  | .register => (1, 0)
  | .limit => (2, 0)
  | .waitc c n => (3, 256 * c + n)
  | .release _ => (4, 0)
  | .bar i _ => (5, i)
  | .barAgain i => (6, i)
  | .gbar i _ => (7, i)
  | .gbarAgain i => (8, i)
  | .abar a e _ => (9, a.toNat + 2 ^ 64 * e.toNat)
  | .claim n _ _ => (10, n)
  | .releaseRegs lo hi => (11, 256 * lo + hi)
  | .cbacq a _ _ _ => (12, a.toNat)
  | .cbres a _ _ => (13, a.toNat)
  | .join e => (14, e)
  | .pause u => (15, u)
  | .yield u _ => (16, u)
  | .handler => (17, 0)
  | .splitFull => (18, 0)
  | .heldJoin => (19, 0)
  | .quarantine i => (20, i)
  | .version l => (21, l)

def maskBytes (m : LaneMask) : List Byte := leBytes 128 m.toNat

/-- A sub-team record (R265). -/
def recordImage (r : Record) : List Byte :=
  let w := r.wait.code
  let word := r.parent % 1024 + 2 ^ 16 * (r.alloc / 8 % 32) + 2 ^ 24 * (Config.waitKind w.1).toNat
    + (if r.yielded then 2 ^ 32 else 0)
  let held := match r.held with
    | some h => (h.pc.toNat, h.lanes)
    | none => (0, 0)
  layOut 512 [(0, leBytes 8 r.pc.toNat), (8, leBytes 8 word), (16, leBytes 8 held.1),
    (24, leBytes 8 (if w.1 = 0 then 0 else (Config.waitData w.1 w.2).toNat)), (128, maskBytes r.k0), (256, maskBytes held.2)]

/-- A bundle slot (R416). -/
def Slot.num (s : Slot) : Nat :=
  s.id + 2 ^ 16 * s.gen + 2 ^ 48 * s.homes + 2 ^ 53 * s.lines + (if s.cmt then 2 ^ 62 else 0) + (if s.open_ then 2 ^ 63 else 0)

/-- A team section (R265). -/
def teamImage (h : LaunchHdr) (t : Team) : List Byte :=
  let recs := (List.range 32).flatMap fun n =>
    match t.rec? n with
    | some r => recordImage r
    | none => List.replicate 512 0
  let splits := (t.splits.take 32).flatMap fun p => leBytes 8 (p.entry + 2 ^ 16 * p.parent + 2 ^ 32 * p.arms)
  let sregs := (List.range 64).flatMap fun n => leBytes 4 (t.getS n).toNat
  let ks := (List.range 7).flatMap fun n => maskBytes (smGet 0 t.k (n + 1))
  let specials := [t.async, t.mode.toNat, t.prio.toNat, t.trapc.toNat, t.trapa.toNat, t.trappc.toNat, t.trapst.toNat,
    t.vs.toNat, t.bstat.toNat, t.gmiss.toNat].flatMap (leBytes 8)
  let claimOf : Record → Option Nat := fun r =>
    match r.wait with
    | .claim n _ _ => some (r.num + 128 + 2 ^ 16 * n)
    | _ => none
  let claim := (t.records.findSome? claimOf).getD 0
  let lanes := List.range (h.ext 0)
  let vregs := lanes.flatMap fun l => (List.range h.ceiling).flatMap fun r => leBytes 4 (t.getV r l).toNat
  let xregs := lanes.flatMap fun l => (List.range 8).flatMap fun n => leBytes 4 (t.getX n l).toNat
  layOut (teamSection h)
    [(0, recs), (0x4000, splits), (0x4100, sregs), (0x4200, ks), (0x4580, specials), (0x4600, leBytes 8 t.drawn),
     (0x4608, leBytes 8 claim), (0x4610, (t.slots.take 4).flatMap fun k => leBytes 8 k.num), (0x8000, vregs),
     (0x8000 + 4 * h.ext 0 * h.ceiling, xregs)]

def blockTile (b : Block) (t : Nat) : TileStat := smGet noTile b.mat.stat t

/-- A tile's state in a record (R266, R415): 0 not valid, 1 copied, as the destination of a collective in flight is, 2 or 3 reloaded
from its tracked image. -/
def tileSaveState (b : Block) (t : Nat) : Nat :=
  let st := blockTile b t
  if !st.valid then 0
  else if !st.dirty && st.track != 0 && !(b.colls.any fun c => c.started && c.tile == t) then st.track
  else 1

/-- The block header (R264). -/
def headerImage (v : Saved) : List Byte :=
  let b := v.blk
  let bars := (List.range 16).flatMap fun i =>
    let st := barOf b i
    leBytes 8 (st.arrived.foldl (fun n t => n ||| 2 ^ t) 0 + 2 ^ 16 * ((if st.arrived.isEmpty then 0 else st.expect.getD b.unexited) % 32) + (if st.phase then 2 ^ 31 else 0))
  let sbs := (List.range 4).flatMap fun i => leBytes 8 (smGet 0 b.sb i).toNat
  let tiles := (List.range 8).flatMap fun t =>
    let st := blockTile b t
    let k := tileSaveState b t
    leBytes 8 (k + (if st.dirty then 4 else 0)) ++ leBytes 8 (if 2 ≤ k then st.addr.toNat else 0)
  let arms := (List.range 16).flatMap fun n =>
    match b.arms.find? fun a => a.n == n with
    | some a => denseBytes a.desc 0 63 ++ [Config.armByte a.armed a.clr]
    | none => List.replicate 64 0
  layOut 4096
    [(0, leBytes 8 (b.q + 2 ^ 32 * b.lseq)), (8, leBytes 8 b.idx), (0x10, leBytes 8 v.reason),
     (0x18, leBytes 8 (coreId b.coreNum)), (0x20, bars), (0xA0, sbs), (0xC0, tiles), (0x140, arms)]

/-- A copy operation's entry (R305). -/
def copyImage (b : Block) (o : CopyOp) : List Byte :=
  let kind := match o.kind with
    | .tcopy => 1
    | .tgath => 2
    | .tscat => 3
    | .tmcst => 4
    | .tfill => 5
  let state := match o.phase with
    | .notStarted => 0
    | .waitSlot => 1
    | .running => 2
    | .finished => if o.poisoned then 4 else 3
  let order := match b.team? o.team with
    | some t => (t.ops.filter fun k => k.cls == 0).findIdx fun k => k.id == o.id
    | none => 0
  layOut 160
    [(0, leBytes 8 (kind + 16 * state + 256 * o.team + 2 ^ 16 * (order % 256) + 2 ^ 32 * o.done)), (8, leBytes 8 o.misses),
     (16, leBytes 8 (if o.kind = .tmcst then o.ranks.toNat else o.slot.getD 0)),
     (24, leBytes 8 (match o.bar with
       | some a => if o.kind = .tmcst then (localAddr a.toNat).toNat else a.toNat
       | none => 0)), (32, denseBytes o.desc 0 128)]

/-- The two instruction words of an instruction (R334, R361). -/
def twoWords (i : Instr) : List Byte := ((encode i).take 2).flatMap fun w => leBytes 4 w.toNat

def planeImage (m : SMap Plane) : List Byte :=
  (List.range 8).flatMap fun p =>
    let k := smGet ⟨0, 0, []⟩ m p
    leBytes 8 (k.tag + 2 ^ 32 * k.src)

def slotImage (a : AcqSlot) : List Byte :=
  let bit : Bool → Nat → Nat := fun b n => if b then 2 ^ n else 0
  leBytes 8 (a.k + 2 ^ 16 * a.plane + 2 ^ 19 * a.tile + 2 ^ 22 * qBits a.q + bit a.stalled 29 + bit a.applied 30 + 2 ^ 31
    + 2 ^ 32 * a.sw) ++ leBytes 8 (a.slotOff + 2 ^ 32 * a.bufOff)

def matOpImage (b : Block) (o : MatOp) : List Byte :=
  let hi := match o.ins with
    | .tld _ _ _ _ _ => hiHalf o.va
    | .tst _ _ _ _ _ _ => hiHalf o.va
    | .mmqa _ _ _ _ _ _ => hiHalf o.vc
    | _ => 0
  let vb := match o.ins with
    | .tld _ _ _ _ b => if opIsZero b then 0 else loHalf o.vb
    | .tst _ _ _ _ b _ => if opIsZero b then 0 else loHalf o.vb
    | _ => loHalf o.vb
  layOut 32
    [(0, twoWords o.ins),
     (8, leBytes 8 (o.team + 128 + (match slotOf b o with
       | some a => 256 + 2 ^ 12 * (b.mat.acq.findIdx fun k => k == a) % 2 ^ 16
       | none => 0))),
     (16, [loHalf o.va, vb, loHalf o.vc, hi].flatMap fun w => leBytes 4 w.toNat)]

def attImage (o : AttOp) : List Byte :=
  layOut 32
    [(0, twoWords o.ins), (8, leBytes 4 (o.team + 128 + (if o.entered then 256 else 0) + 2 ^ 16 * o.groups)),
     (16, [o.off, o.first, o.count].flatMap (leBytes 4))]

/-- The outstanding-operations section. -/
def opsImage (b : Block) : List Byte :=
  let m := b.mat
  layOut 4096
    [(0, (b.copies.take 16).flatMap (copyImage b)), (0xA00, planeImage m.active), (0xA40, planeImage m.shadow),
     (0xA80, (List.range 8).flatMap fun t => leBytes 8 (blockTile b t).nb), (0xAC0, (m.acq.take 16).flatMap slotImage),
     (0xBC0, ((m.queue.filter fun o => !o.fin && !isColl o.ins).take 32).flatMap (matOpImage b)), (0xFC0, (b.atts.take 2).flatMap attImage)]

/-- The tile area. -/
def tileArea (b : Block) : List Byte :=
  (List.range 8).flatMap fun t =>
    if tileSaveState b t = 1 then b.tileBytes t 0 256 else List.replicate 32768 0

/-- A block record (R263). -/
def blockImage (h : LaunchHdr) (v : Saved) : List Byte :=
  let b := v.blk
  let teams := (List.range (h.ext 1)).flatMap fun i =>
    match b.team? i with
    | some t => teamImage h t
    | none => List.replicate (teamSection h) 0
  layOut (blockRecLen h)
    [(0, headerImage v ++ teams ++ tileArea b ++ layOut (roundUp h.scratch 4096) [(0, denseBytes b.scratch 0 b.scratchLen)]
        ++ opsImage b)]

/-- Offset of the scratchpad image in a block record. -/
def imageOff (h : LaunchHdr) : Nat := 4096 + h.ext 1 * teamSection h + 262144

/-- A line of a record, written whole, is clean, or holds the poison pattern where a marked unit lies in it (R272). -/
def recordPoison (s : State) (p : Phys) (b : Bool) : State :=
  let put : CLine → CLine := fun c => if c.line = p.line ∧ c.stamp.isNone then { c with poison := b } else c
  setMPoison { s with lines := s.lines.map put } p.line b

/-- The record written where its launch's context has it; a launch loaded from outside has none. -/
def writeRecord (s : State) (v : Saved) : State :=
  match s.launch? v.blk.q v.blk.lseq with
  | none => s
  | some la =>
    match la.blkRecs.find? fun r => r.1 == v.blk.idx with
    | none => s
    | some r =>
      let key := ctxKey s la.ctx
      let img := blockImage la.hdr v
      let at_ := r.2.toNat
      let s := paWrite s key la.ctx at_ img
      let bad := (v.blk.spoison.map fun u => (at_ + imageOff la.hdr + 8 * u) / 128).dedup
      (List.range (img.length / 128)).foldl (fun s i =>
        recordPoison s (physOf s 0 key false (at_ + 128 * i)) (bad.contains (at_ / 128 + i))) s

/-! A block wherever it is (R268). -/

/-- A resident or saved block by handle. -/
def State.anyBlock? (s : State) (bid : Nat) : Option Block :=
  (s.block? bid).orElse fun _ => (s.saved.find? fun v => v.blk.bid == bid).map Saved.blk

/-- A block of a launch by its index, resident or saved. -/
def State.blockAt? (s : State) (q lseq idx : Nat) : Option Block :=
  let mine : Block → Bool := fun b => b.q == q && b.lseq == lseq && b.idx == idx && !b.site.isStation
  (s.blocks.find? mine).orElse fun _ => (s.saved.find? fun v => mine v.blk).map Saved.blk

/-- A move on a block: where it is resident as it stands, and where it is saved on its record (R261, R268). -/
def atBlock (s : State) (bid : Nat) (f : State → State) : State :=
  match s.block? bid with
  | some _ => f s
  | none =>
    match s.saved.find? fun v => v.blk.bid == bid with
    | none => s
    | some v =>
      let s := f { s with blocks := v.blk :: s.blocks }
      match s.block? bid with
      | none => s
      | some b =>
        let v := { v with blk := b }
        let put : Saved → Saved := fun w => if w.blk.bid = bid then v else w
        writeRecord { s with blocks := s.blocks.filter (fun c => c.bid != bid), saved := s.saved.map put } v

end Sys2Proof.Machine
end

