-- ==== Sys2Proof/Machine/Attention.lean ====
section
/-! DEFINITION. The attention engine and the eviction engine (R336 to R362). -/

namespace Sys2Proof.Machine

/-! Descriptors (R337, R342). -/

/-- An attention descriptor. -/
structure ADesc where
  seq : Nat
  qoff : Nat
  posoff : Nat
  soff : Nat
  poff : Nat
  ooff : Nat
  scale : Nat
  pitch : Nat
  rows : Nat
  cfg : Nat
  zeros : Nat
  deriving DecidableEq, Repr

def adescOf (m : Memory) : ADesc :=
  { seq := numAt m 0 8, qoff := numAt m 8 4, posoff := numAt m 12 4, soff := numAt m 16 4, poff := numAt m 20 4,
    ooff := numAt m 24 4, scale := numAt m 28 4, pitch := numAt m 32 2, rows := numAt m 34 1, cfg := numAt m 35 1,
    zeros := numAt m 36 28 }

/-- D and s of a cfg byte. -/
def cfgDim (cfg : Nat) : Nat := 32 * (cfg % 8 + 1)
def cfgBytes (cfg : Nat) : Nat := if cfg.testBit 3 then 1 else 2
def cfgFmt (cfg : Nat) : FFmt := if cfg.testBit 3 then nf8 else bf16

/-- A sequence descriptor (R337). -/
structure SeqDesc where
  seqid : Nat
  lh : Nat
  cfg : Nat
  plist : Nat
  npages : Nat
  pcap : Nat
  busy : Nat
  state : Nat
  plat : Nat
  platlen : Nat
  ntok : Nat
  flist : Nat
  nfree : Nat
  fcap : Nat
  /-- reserved bytes and bits -/
  zeros : Nat
  deriving DecidableEq, Repr

def seqDescOf (l : List Byte) : SeqDesc :=
  let f : Nat → Nat → Nat := fun a n => leNat ((l.drop a).take n)
  { seqid := f 0 8, lh := f 8 4, cfg := f 12 1, plist := f 16 8, npages := f 24 4, pcap := f 28 4, busy := f 32 4, state := f 36 1,
    plat := f 40 8, platlen := f 48 4, ntok := f 52 4, flist := f 56 8, nfree := f 64 4, fcap := f 68 4,
    zeros := f 13 3 + f 12 1 / 16 + f 36 1 / 2 + f 38 2 + f 80 48 }

/-- Offset of a page's metadata record, and the page's bytes with both records (R338). -/
def metaOff (cfg : Nat) : Nat := 128 * cfgDim cfg * cfgBytes cfg
def kvBytes (cfg : Nat) : Nat := metaOff cfg + 512

/-! Issue (R343 to R345). -/

/-- Which of the three an attention instruction is. -/
inductive AttKind where
  | scores | values | masses
  deriving DecidableEq, Repr

def attKind : Instr → AttKind
  | .attv _ _ _ _ => .values
  | .attm _ _ _ _ => .masses
  | _ => .scores

/-- Own-scratchpad ranges: queries, positions, scores, P and O. -/
def ADesc.q (d : ADesc) : Nat × Nat := (d.qoff, d.rows * cfgDim d.cfg * cfgBytes d.cfg)
def ADesc.pos (d : ADesc) : Nat × Nat := (d.posoff, 4 * d.rows)
def ADesc.rowLen (d : ADesc) (k : AttKind) (c : Nat) : Nat := (if k = .scores then 4 else cfgBytes d.cfg) * 64 * c
def ADesc.s (d : ADesc) (c : Nat) : Nat × Nat := (d.soff, (d.rows - 1) * d.pitch + d.rowLen .scores c)
def ADesc.p (d : ADesc) (c : Nat) : Nat × Nat := (d.poff, (d.rows - 1) * d.pitch + d.rowLen .values c)
def ADesc.o (d : ADesc) : Nat × Nat := (d.ooff, 4 * d.rows * cfgDim d.cfg)

/-- The ranges an instruction uses, its output first where it has one. -/
def ADesc.ranges (d : ADesc) (k : AttKind) (c : Nat) : List (Nat × Nat) :=
  match k with
  | .scores => [d.s c, d.q, d.pos]
  | .values => [d.o, d.p c]
  | .masses => [d.p c]

def rangesMeet (a b : Nat × Nat) : Bool := decide (a.1 < b.1 + b.2) && decide (b.1 < a.1 + a.2)

/-- R344's first item. -/
def ADesc.bad (d : ADesc) (k : AttKind) (c : Nat) : Bool :=
  d.zeros != 0 || decide (32 ≤ d.cfg) || d.rows == 0 || decide (32 < d.rows) || c == 0 || decide (64 < c) || d.pitch % 4 != 0
    || decide (d.pitch < d.rowLen k c)
    || (k != .masses && match d.ranges k c with
      | out :: ins => ins.any (rangesMeet out)
      | [] => false)

def addrAlign (a n : Nat) : Option (Nat × W64) := if a % n = 0 then none else some (cALIGN, w64 a)

/-- THE CHECKS of an attention instruction (R344): the count is judged before anything is read. -/
def attCheck (b : Block) (k : AttKind) (off c : Nat) : Option (Nat × W64) :=
  let d := adescOf (b.copyOut off 64)
  firstFail
    [illIf (c == 0 || decide (64 < c)), spwinIf b [(off, 64)], illIf (d.bad k c), spwinIf b (d.ranges k c),
     alignIf ((off, 64) :: (d.ranges k c).map fun r => (r.1, 4)), addrAlign d.seq 128]

/-- A block's limit of attention instructions in flight (R345, R360). -/
def attFull (b : Block) : Bool := decide ((if b.site.isStation then 1 else 2) ≤ b.atts.length)

/-- The issue of an attention instruction. -/
def Ctx.attIssue (c : Ctx) (ins : Instr) (a b x : Opnd) : Res :=
  let off := (c.uni 0 a).toNat
  let cnt := (c.uni 2 x).toNat
  match attCheck c.e.blk (attKind ins) off cnt with
  | some (k, t) => .trap k t (c.e.low c.m)
  | none =>
    if attFull c.e.blk || cntFull c.e.team 4 then .hold .limit
    else
      let id := c.s.nextId
      let op : AttOp :=
        { id := id, team := c.e.who.team, ins := ins, pc := c.e.rcd.pc, off := off, first := (c.uni 1 b).toNat, count := cnt,
          desc := c.e.blk.copyOut off 64, entered := false, npages := 0, pages := [], groups := 0, lines := [] }
      let s : State := { c.s with nextId := id + 1 }
      let s := c.modTeam s fun t => t.addOp id 4
      .done (s.modBlock c.e.who.bid fun b => { b with atts := b.atts ++ [op] })

def attForm (a b x : Opnd) : Form := ctlForm [fA a 1, fB b 1, fC x 1] [] .zero true

def opAtts (h : Hdr) (a b x : Opnd) : Op where
  form := attForm a b x
  eff := fun c => c.attIssue (.atts h a b x) a b x
/-- R349. -/
def execAtts (h : Hdr) (a b c : Opnd) (s : State) : Host.Outcome State Fault Refusal := (opAtts h a b c).run (issOf h) s

def opAttv (h : Hdr) (a b x : Opnd) : Op where
  form := attForm a b x
  eff := fun c => c.attIssue (.attv h a b x) a b x
/-- R350. -/
def execAttv (h : Hdr) (a b c : Opnd) (s : State) : Host.Outcome State Fault Refusal := (opAttv h a b c).run (issOf h) s

def opAttm (h : Hdr) (a b x : Opnd) : Op where
  form := attForm a b x
  eff := fun c => c.attIssue (.attm h a b x) a b x
/-- R351. -/
def execAttm (h : Hdr) (a b c : Opnd) (s : State) : Host.Outcome State Fault Refusal := (opAttm h a b c).run (issOf h) s

/-! Reading and updating a sequence. A check that fails gives a cause and the address that `%trapa` holds. -/

/-- The stack of an address under R336: an ILV 0b10 frame of this module. -/
def seqStack (s : State) (b : Block) (ctx va : Nat) : Except (Nat × Nat) Nat :=
  if windowOf va then .error (cPERM, va)
  else match siteTranslate s b ctx va with
    | none => .error (cXLATE, va)
    | some t =>
      let p := t.phys s va
      if t.ilv = 2 ∧ p.kind = .own ∧ p.loc < Config.fastBytes then .ok (stackOf p.loc) else .error (cPERM, va)

/-- A range lies on a stack. -/
def seqPlaced (s : State) (b : Block) (ctx stack va n : Nat) : Except (Nat × Nat) Unit :=
  let off : Nat → Option (Nat × Nat) := fun a =>
    match seqStack s b ctx a with
    | .error e => some e
    | .ok st => if st = stack then none else some (cPERM, a)
  match (pagesOf va n).findSome? off with
  | some e => .error e
  | none => .ok ()

/-- An engine's read that consumes poison nowhere: the bytes, and the state after. -/
def cleanRead (b : Block) (la : Launch) (ea n : Nat) (s : State) : Except (Nat × Nat) (List Byte × State) :=
  match resolveRange s b la ea n 0 with
  | .error e => .error e
  | .ok l => l.foldl (fun acc q =>
      match acc with
      | .error e => .error e
      | .ok (bytes, s) =>
        let r := readPlace s b la .bypass q.1 q.2.1 q.2.2
        if r.1.2 then .error (cPOISON, q.1) else .ok (bytes ++ r.1.1, r.2)) (.ok ([], s))

/-- Own-scratchpad bytes without a poison mark. -/
def cleanScratch (b : Block) (off n : Nat) : Except (Nat × Nat) (List Byte) :=
  match poisonUnit b (off, n) with
  | some a => .error (cPOISON, a)
  | none => .ok (b.bytes off n)

/-- The bytes of pieces as their homes hold them. -/
def homePieces (s : State) (b : Block) (l : List Piece) : List Byte :=
  l.flatMap fun q =>
    match q.2.1 with
    | .scr bid off =>
      match s.block? bid with
      | some t => bytesAt t.scratch off q.2.2
      | none => []
    | .mem _ p => if b.site.isStation then lineBytes (memLine s p) (p.loc % 128) q.2.2 else homeBytes s p q.2.2

/-- Copies of lines held under leases are dropped (R444, R446). -/
def dropLeased (s : State) (lines : List Nat) : State :=
  dropLines s fun c => c.stamp.isSome && lines.contains c.line

/-- An indivisible update at the home: the bytes replaced (R346, R352). -/
def homeUpdate (s : State) (b : Block) (la : Launch) (l : List Piece) (bytes : List Byte) : State :=
  (l.foldl (fun acc q =>
    let mine := acc.2.take q.2.2
    let s := match q.2.1 with
      | .scr bid off => acc.1.modBlock bid fun t => putScratch t off mine false
      | .mem t p =>
        if b.site.isStation then stationWrite acc.1 p la.ctx mine false
        else atomicWrite (useTlb acc.1 b la t q.1) (blockReq b la t .bypass q.1) p mine
    (s, acc.2.drop q.2.2)) (s, bytes)).1

/-- A 32-bit field of a sequence descriptor updated at its home. -/
def seqUpdate (s : State) (b : Block) (la : Launch) (ea n v : Nat) : Except (Nat × Nat) State :=
  match resolveRange s b la ea n 2 with
  | .error e => .error e
  | .ok l => .ok (homeUpdate s b la l (leBytes n v))

/-- The operation of an attention instruction or a call on a station stops its launch, or ends the call (R354, R360). -/
def siteStop (s : State) (b : Block) (la : Launch) (team : Nat) (pc : W64) (e : Nat × Nat) (ahead : List Nat) : State :=
  if b.site.isStation then
    let lane := ((b.team? team).bind fun t => lowLane t.live t.lanes).getD 0
    endCall s b e.1 team lane pc (w64 e.2)
  else engineFault s b la team pc e ahead

/-! Entering (R346 to R348). -/

def State.modAtt (s : State) (bid id : Nat) (f : AttOp → AttOp) : State :=
  s.modBlock bid fun b => { b with atts := b.atts.map fun o => if o.id = id then f o else o }

def Block.att? (b : Block) (id : Nat) : Option AttOp := b.atts.find? fun o => o.id == id

/-- The place of a sequence descriptor, which two requests share where they name one sequence. -/
def seqPlace (s : State) (b : Block) (ctx va : Nat) : Option Nat := (siteTranslate s b ctx va).map fun t => (t.phys s va).loc

def Evict.seq (e : Evict) : Nat := e.req.toNat % 2 ^ 64

/-- An eviction request whose block is resident and runs. -/
def evictAt (s : State) (e : Evict) : Option (Block × Launch) :=
  match s.launch? e.q e.lseq, s.blocks.find? fun b => b.q == e.q && b.lseq == e.lseq && b.idx == e.idx && !b.site.isStation with
  | some la, some b => if engineRuns la b then some (b, la) else none
  | _, _ => none

/-- An earlier `EVICT` on the same sequence has not claimed it yet (R347): requests reach the home in the order of their
issues. -/
def evictBefore (s : State) (place id : Nat) : Bool :=
  s.evicts.any fun e => e.phase == .waiting && decide (e.op < id) &&
    match evictAt s e with
    | some (b, la) => seqPlace s b la.ctx e.seq == some place
    | none => false

/-- An earlier attention instruction has not entered the sequence yet (R347). -/
def entryBefore (s : State) (place id : Nat) : Bool :=
  s.blocks.any fun b =>
    match s.launch? b.q b.lseq with
    | none => false
    | some la => engineRuns la b && b.atts.any fun o =>
        !o.entered && decide (o.id < id) && seqPlace s b la.ctx (adescOf o.desc).seq == some place

/-- The entry (R346, R348): the state with busy raised and the view taken, none while the sequence is being evicted. -/
def seqEnter (s : State) (b : Block) (la : Launch) (o : AttOp) : Except (Nat × Nat) (Option State) :=
  let d := adescOf o.desc
  match seqStack s b la.ctx d.seq, resolveRange s b la d.seq 128 0 with
  | .error e, _ => .error e
  | _, .error e => .error e
  | .ok st, .ok l =>
    let q := seqDescOf (homePieces s b l)
    let place := (seqPlace s b la.ctx d.seq).getD 0
    if q.state.testBit 0 || evictBefore s place o.id || entryBefore s place o.id then .ok none
    else if d.cfg % 16 ≠ q.cfg % 32 then .error (cILLOP, 0)
    else
      let hi := min (o.first + o.count) q.npages
      let n := 8 * (hi - o.first)
      match seqPlaced s b la.ctx st (q.plist + 8 * o.first) n, cleanRead b la (q.plist + 8 * o.first) n s with
      | .error e, _ => .error e
      | _, .error e => .error e
      | .ok _, .ok (bytes, s) =>
        match seqUpdate s b la (d.seq + 32) 4 (q.busy + 1) with
        | .error e => .error e
        | .ok s =>
          let view : AttOp → AttOp := fun o =>
            { o with entered := true, npages := q.npages
                     pages := (List.range (hi - o.first)).map fun i => w64 (leNat ((bytes.drop (8 * i)).take 8)) }
          .ok (some (s.modAtt b.bid o.id view))

def sequenceEntry (s : State) (bid id : Nat) : State :=
  match s.block? bid with
  | none => s
  | some b =>
    match b.att? id, s.launch? b.q b.lseq with
    | some o, some la =>
      if o.entered || !engineRuns la b then s
      else match seqEnter s b la o with
        | .ok (some s) => s
        | .ok none => s
        | .error e => siteStop s b la o.team o.pc e []
    | _, _ => s

/-- SEQUENCE_ENTRY. -/
def execSequenceEntry (bid op : Nat) (s : State) : Host.Outcome State Fault Refusal := .next (sequenceEntry s bid op)

/-! Groups (R349 to R354). -/

/-- What the records of a page say. -/
structure PageRec where
  valid : Nat
  pos : List Nat
  mass : List Nat
  /-- sequence, layer and head -/
  seqid : Nat
  lh : Nat
  zeros : Nat
  deriving DecidableEq, Repr

def pageRecOf (l : List Byte) : PageRec :=
  let f : Nat → Nat → Nat := fun a n => leNat ((l.drop a).take n)
  { valid := f 16 8, pos := (List.range 64).map fun j => f (256 + 4 * j) 4, mass := (List.range 64).map fun j => f (32 + 2 * j) 2,
    seqid := f 0 8, lh := f 8 4, zeros := f 12 4 + f 24 8 + f 160 96 }

def PageRec.ok (r : PageRec) (j : Nat) : Bool := r.valid.testBit j

/-- The records of page P, checked (R354). -/
def pageRecs (b : Block) (la : Launch) (d : ADesc) (P : Nat) (s : State) : Except (Nat × Nat) (PageRec × State) :=
  match seqStack s b la.ctx d.seq with
  | .error e => .error e
  | .ok st =>
    match seqPlaced s b la.ctx st P (kvBytes d.cfg), cleanRead b la d.seq 12 s with
    | .error (k, a), _ => .error (k, if k = cPERM then P else a)
    | _, .error e => .error e
    | .ok _, .ok (q, s) =>
      match cleanRead b la (P + metaOff d.cfg) 512 s with
      | .error e => .error e
      | .ok (l, s) =>
        let r := pageRecOf l
        if r.seqid ≠ leNat (q.take 8) ∨ r.lh ≠ leNat (q.drop 8) ∨ r.zeros ≠ 0 then .error (cILLOP, 0) else .ok (r, s)

/-- A row of elements as values. -/
def rowVals (cfg : Nat) (l : List Byte) : List FVal :=
  let s := cfgBytes cfg
  (List.range (l.length / s)).map fun k => (cfgFmt cfg).decode (leNat ((l.drop (k * s)).take s))

/-- Rows read for slots of a page, as (slot, values): a key row, or a value row at `base`. -/
def slotRows (b : Block) (la : Launch) (d : ADesc) (base : Nat) (js : List Nat) (s : State) :
    Except (Nat × Nat) (List (Nat × List FVal) × State) :=
  let n := cfgDim d.cfg * cfgBytes d.cfg
  js.foldl (fun acc j =>
    match acc with
    | .error e => .error e
    | .ok (rows, s) =>
      match cleanRead b la (base + j * n) n s with
      | .error e => .error e
      | .ok (l, s) => .ok (rows ++ [(j, rowVals d.cfg l)], s)) (.ok ([], s))

def rowOf (rows : List (Nat × List FVal)) (j : Nat) : List FVal := ((rows.find? fun r => r.1 == j).map Prod.snd).getD []

/-- The score of a query row and a key row (R349): groups of 32 dimensions, each an exact sum rounded once. -/
def attScore (scale : Nat) (q k : List FVal) : Nat :=
  let prods := (q.zip k).map fun p => p.1.mul p.2
  let acc := (List.range (prods.length / 32)).foldl (fun acc g =>
    fp32.encode .rne (FVal.sum .rne (fp32.decode acc :: (prods.drop (32 * g)).take 32))) 0
  fp32.encode .rne ((fp32.decode scale).mul (fp32.decode acc))

def negInf32 : Nat := 0xFF800000

/-- The slots of a group's half. -/
def halfSlots (h : Nat) : List Nat := (List.range 32).map fun j => 32 * h + j

/-- One group of `ATTS`: the scores of 32 slots of page i (R349). -/
def attScores (s : State) (b : Block) (la : Launch) (o : AttOp) (i h : Nat) : Except (Nat × Nat) State := do
  let d := adescOf o.desc
  let dim := cfgDim d.cfg * cfgBytes d.cfg
  let t0 := (i - o.first) * 64
  let put : (Nat → Nat → Nat) → State → State := fun f s =>
    (List.range d.rows).foldl (fun s q =>
      s.modBlock b.bid fun b =>
        putScratch b (d.soff + q * d.pitch + 4 * (t0 + 32 * h)) ((halfSlots h).flatMap fun j => leBytes 4 (f q j)) false) s
  if o.npages ≤ i then .ok (put (fun _ _ => negInf32) s)
  else
    let P := (o.pages.getD (i - o.first) 0).toNat
    let (r, s) ← pageRecs b la d P s
    let qs ← cleanScratch b d.q.1 d.q.2
    let ps ← cleanScratch b d.pos.1 d.pos.2
    let qpos : Nat → Nat := fun q => leNat ((ps.drop (4 * q)).take 4)
    let sees : Nat → Nat → Bool := fun q j => r.ok j && decide (r.pos.getD j 0 ≤ qpos q)
    let js := (halfSlots h).filter fun j => (List.range d.rows).any fun q => sees q j
    let (ks, s) ← slotRows b la d P js s
    let score : Nat → Nat → Nat := fun q j =>
      if sees q j then attScore d.scale (rowVals d.cfg ((qs.drop (q * dim)).take dim)) (rowOf ks j) else negInf32
    .ok (put score s)

/-- The mass addend of a token column (R352). -/
def massAddend (ps : List FVal) : Nat :=
  let pos := ps.filter fun x =>
    match x with
    | .fin neg m _ => !neg && m != 0
    | .inf neg => !neg
    | .nan => false
  match FVal.sum .rne pos with
  | .fin _ m e => min (roundInt .rne false m (e + 8)).toNat 65535
  | .inf _ => 65535
  | .nan => 0

/-- Masses added to the slots of a group, each an indivisible update at the home; the lines written. -/
def addMasses (s : State) (b : Block) (la : Launch) (metaAt : Nat) (adds : List (Nat × Nat)) :
    Except (Nat × Nat) (State × List Nat) :=
  match resolveRange s b la metaAt 256 2 with
  | .error e => .error e
  | .ok _ => adds.foldl (fun acc p =>
      match acc with
      | .error e => .error e
      | .ok (s, lines) =>
        let ea := metaAt + 32 + 2 * p.1
        match resolveRange s b la ea 2 2 with
        | .error e => .error e
        | .ok l =>
          let old := leNat (homePieces s b l)
          .ok (homeUpdate s b la l (leBytes 2 (min (old + p.2) 65535)), lines ++ pieceLines l)) (.ok (s, []))

/-- One group of `ATTV` or `ATTM` (R350 to R352). -/
def attValues (s : State) (b : Block) (la : Launch) (o : AttOp) (i h : Nat) : Except (Nat × Nat) State := do
  let d := adescOf o.desc
  let dim := cfgDim d.cfg
  let es := cfgBytes d.cfg
  let P := (o.pages.getD (i - o.first) 0).toNat
  let (r, s) ← pageRecs b la d P s
  let js := (halfSlots h).filter r.ok
  if js.isEmpty then .ok s
  else
    let t : Nat → Nat := fun j => (i - o.first) * 64 + j
    let (pAt, pLen) := d.p o.count
    let pb ← cleanScratch b pAt pLen
    let pv : Nat → Nat → FVal := fun q j => (cfgFmt d.cfg).decode (leNat ((pb.drop (q * d.pitch + es * t j)).take es))
    let s ←
      if attKind o.ins = .values then do
        let (vs, s) ← slotRows b la d (P + 64 * dim * es) js s
        let ob ← cleanScratch b d.o.1 d.o.2
        let out := (List.range d.rows).flatMap fun q => (List.range dim).flatMap fun k =>
          let old := leNat ((ob.drop (4 * (q * dim + k))).take 4)
          let prods := js.map fun j => (pv q j).mul ((rowOf vs j).getD k (.fin false 0 0))
          leBytes 4 (fp32.encode .rne (FVal.sum .rne (fp32.decode old :: prods)))
        Except.ok (s.modBlock b.bid fun b => putScratch b d.ooff out false)
      else Except.ok s
    if attKind o.ins = .values ∧ d.cfg.testBit 4 then .ok s
    else
      let adds := js.map fun j => (j, massAddend ((List.range d.rows).map fun q => pv q j))
      let (s, lines) ← addMasses s b la (P + metaOff d.cfg) adds
      let note : AttOp → AttOp := fun k => { k with lines := (k.lines ++ lines).dedup }
      .ok (s.modAtt b.bid o.id note)

/-- Groups of an entered instruction: two of each page; `ATTS` has those of pages it does not read too. -/
def AttOp.total (o : AttOp) : Nat := 2 * (if attKind o.ins = .scores then o.count else min (o.first + o.count) o.npages - o.first)

/-- Addresses in the pages that an instruction has still to read (R256). -/
def attAhead (o : AttOp) : List Nat :=
  (o.pages.drop (o.groups / 2)).flatMap fun p => pagesOf p.toNat (kvBytes (adescOf o.desc).cfg)

def attentionGroup (s : State) (bid id : Nat) : State :=
  match s.block? bid with
  | none => s
  | some b =>
    match b.att? id, s.launch? b.q b.lseq with
    | some o, some la =>
      if !o.entered || !engineRuns la b || decide (o.total ≤ o.groups) then s
      else
        let i := o.first + o.groups / 2
        match (if attKind o.ins = .scores then attScores s b la o i (o.groups % 2) else attValues s b la o i (o.groups % 2)) with
        | .ok s => s.modAtt bid id fun k => { k with groups := k.groups + 1 }
        | .error e => siteStop s b la o.team o.pc e (attAhead o)
    | _, _ => s

/-- ATTENTION_GROUP. -/
def execAttentionGroup (bid op : Nat) (s : State) : Host.Outcome State Fault Refusal := .next (attentionGroup s bid op)

/-- Busy lowered by 1 in one update at the home (R346, R362). -/
def lowerBusy (s : State) (b : Block) (la : Launch) (seq : Nat) : Except (Nat × Nat) State :=
  match resolveRange s b la (seq + 32) 4 2 with
  | .error e => .error e
  | .ok l => .ok (homeUpdate s b la l (leBytes 4 (leNat (homePieces s b l) + 2 ^ 32 - 1)))

/-- Once its last group is done, an instruction leaves its sequence and finishes (R346, R353); copies of the lines that its
masses changed are dropped, so that the update is a release at device scope. -/
def attentionExit (s : State) (bid id : Nat) : State :=
  match s.block? bid with
  | none => s
  | some b =>
    match b.att? id, s.launch? b.q b.lseq with
    | some o, some la =>
      if !o.entered || !engineRuns la b || decide (o.groups < o.total) then s
      else match lowerBusy (dropLeased s o.lines) b la (adescOf o.desc).seq with
        | .error e => siteStop s b la o.team o.pc e []
        | .ok s =>
          let s := if b.site.isStation then s else ackLines s bid o.team o.lines
          let s := s.modBlock bid fun b => { b with atts := b.atts.filter fun k => k.id != id }
          wakeLimits (finishOp s bid o.team id 4 none) bid
    | _, _ => s

/-- ATTENTION_EXIT. -/
def execAttentionExit (bid op : Nat) (s : State) : Host.Outcome State Fault Refusal := .next (attentionExit s bid op)

/-- R362: busy is lowered for each entered instruction of a block that is given up. -/
def abandonAtts (s : State) (b : Block) (la : Launch) : State :=
  (b.atts.filter fun o => o.entered).foldl (fun s o =>
    let at_ := (adescOf o.desc).seq + 32
    vaWrite s la.ctx at_ (leBytes 4 (vaNum s la.ctx at_ 4 + 2 ^ 32 - 1))) s

/-! Eviction (R355 to R358). -/

/-- A request of 16 bytes: threshold, decay, window, sinks, and what is to be zero. -/
structure EvReq where
  seq : Nat
  thr : Nat
  decay : Nat
  win : Nat
  sinks : Nat
  zeros : Nat
  deriving DecidableEq, Repr

def evReqOf (v : BitVec 128) : EvReq :=
  let n := v.toNat
  { seq := bitsOf n 63 0, thr := bitsOf n 79 64, decay := bitsOf n 83 80, win := bitsOf n 111 96, sinks := bitsOf n 127 112,
    zeros := bitsOf n 87 84 + bitsOf n 95 88 }

/-- THE CHECKS of `EVICT` (R344, R355). -/
def evictCheck (b : Block) (off : Nat) : Option (Nat × W64) :=
  let r := evReqOf (BitVec.ofNat 128 (b.num off 16))
  firstFail [spwinIf b [(off, 16)], illIf (r.zeros != 0), alignIf [(off, 16)], addrAlign r.seq 128]

def opEvict (a : Opnd) : Op where
  form := ctlForm [fA a 1] [] .zero false
  eff := fun c =>
    let off := (c.uni 0 a).toNat
    match evictCheck c.e.blk off with
    | some (k, t) => .trap k t (c.e.low c.m)
    | none =>
      if cntFull c.e.team 4 then .hold .limit
      else
        let id := c.s.nextId
        let e : Evict :=
          { id := id, q := c.e.blk.q, lseq := c.e.blk.lseq, idx := c.e.blk.idx, team := c.e.who.team, op := id, ctx := c.e.la.ctx,
            pc := c.e.rcd.pc, req := BitVec.ofNat 128 (c.e.blk.num off 16), phase := .waiting, pages := [] }
        let s : State := { c.s with nextId := id + 1, evicts := c.s.evicts ++ [e] }
        .done (c.modTeam s fun t => t.addOp id 4)
/-- R355. -/
def execEvict (h : Hdr) (a : Opnd) (s : State) : Host.Outcome State Fault Refusal := (opEvict a).run (issOf h) s

/-- Page addresses of a sequence's list, entries 0 to npages − 1. -/
def pageList (s : State) (ctx : Nat) (q : SeqDesc) : List Nat :=
  (List.range q.npages).map fun i => vaNum s ctx (q.plist + 8 * i) 8

/-- The structures of a sequence, as ranges (R355, R336). -/
def seqRanges (q : SeqDesc) (seq : Nat) (pages : List Nat) : List (Nat × Nat) :=
  [(seq, 128), (q.plist, 8 * q.npages)] ++ pages.map (fun p => (p, kvBytes q.cfg))
    ++ [(q.flist, 8 * q.fcap), (q.plat, 4 * q.platlen)]

/-- The start check of R355: translations first, then rights to read and to write; a window is left to EVPLACE. -/
def evictStartBad (s : State) (b : Block) (ctx : Nat) (l : List (Nat × Nat)) : Option (Nat × Nat) :=
  let addrs := (l.flatMap fun r => pagesOf r.1 r.2).filter fun a => !windowOf a
  ((addrs.find? fun a => (siteTranslate s b ctx a).isNone).map fun a => (cXLATE, a)).orElse fun _ =>
    (addrs.find? fun a =>
      match siteTranslate s b ctx a with
      | some t => !t.r || !t.w || ((t.phys s a).kind != .host && (keyGenOf s t.key).isNone)
      | none => false).map fun a => (cPERM, a)

def State.modEvict (s : State) (id : Nat) (f : Evict → Evict) : State :=
  { s with evicts := s.evicts.map fun e => if e.id = id then f e else e }

/-- The start of an eviction (R355, R356 step 1): the check, and the claim in its turn. -/
def evictionStart (s : State) (id : Nat) : State :=
  match s.evicts.find? fun e => e.id == id with
  | none => s
  | some e =>
    match evictAt s e with
    | none => s
    | some (b, la) =>
      let seq := e.seq
      let q := seqDescOf (vaRead s la.ctx seq 128)
      let place := (seqPlace s b la.ctx seq).getD 0
      if e.phase ≠ .waiting ∨ q.state.testBit 0 ∨ evictBefore s place e.op ∨ entryBefore s place e.op then s
      else
        let ranges := seqRanges q seq (if (siteTranslate s b la.ctx seq).isSome then pageList s la.ctx q else [])
        match evictStartBad s b la.ctx ranges with
        | some k => engineFault s b la e.team e.pc k (ranges.flatMap fun r => pagesOf r.1 r.2)
        | none =>
          let held := ((ranges.flatMap fun r => pagesOf r.1 r.2).map fun a => a / 65536).dedup
          let s := vaWrite s la.ctx (seq + 36) (leBytes 1 (q.state ||| 1))
          s.modEvict id fun e => { e with phase := .claimed, pages := held }

/-- EVICTION_START. -/
def execEvictionStart (ev : Nat) (s : State) : Host.Outcome State Fault Refusal := .next (evictionStart s ev)

/-- A line of a range carries poison. -/
def vaPoison (s : State) (ctx va n : Nat) : Bool :=
  (linePieces va (n + 1) n).any fun q =>
    match vaPhys s ctx q.1 with
    | some p => (homeLine s p).2
    | none => false

/-- Lines of a range. -/
def vaLines (s : State) (ctx va n : Nat) : List Nat :=
  (linePieces va (n + 1) n).filterMap fun q => (vaPhys s ctx q.1).map Phys.line

/-- A token as an eviction sees it: position, mass, page and slot. -/
structure Tok where
  pos : Nat
  mass : Nat
  page : Nat
  slot : Nat
  deriving DecidableEq, Repr

/-- Tokens in ascending position. -/
def insertTok (t : Tok) : List Tok → List Tok
  | [] => [t]
  | u :: l => if t.pos ≤ u.pos then t :: u :: l else u :: insertTok t l

/-- Step 4 of R356. -/
def tokKept (q : SeqDesc) (r : EvReq) (t : Tok) : Bool :=
  decide (t.pos < r.sinks) || decide (q.ntok - r.win ≤ t.pos) || decide (r.thr ≤ t.mass)

/-- Two tokens of a list hold one position. -/
def posTwice : List Tok → Bool
  | [] => false
  | t :: l => (l.any fun u => u.pos == t.pos) || posTwice l

/-- A sequence breaks R336, seen by the eviction engine. -/
def evPlaceBad (s : State) (ctx : Nat) (l : List (Nat × Nat)) : Bool :=
  let stackAt : Nat → Option Nat := fun a =>
    if windowOf a then none
    else match findLeaf s ctx a with
      | none => none
      | some t =>
        let p := t.phys s a
        if t.ilv = 2 ∧ p.kind = .own ∧ p.loc < Config.fastBytes then some (stackOf p.loc) else none
  let sts := (l.flatMap fun r => pagesOf r.1 r.2).map stackAt
  sts.any fun o => o.isNone || o != sts.headD none

/-- What an eviction decides: pages, records, survivors in order, and the status of R357, 0 for none. -/
structure EvPlan where
  q : SeqDesc
  pages : List Nat
  recs : List PageRec
  keep : List Tok
  drop : List Tok
  status : Nat
  deriving DecidableEq, Repr

/-- Steps 3 and 4 of R356, with R357's checks. -/
def evPlan (s : State) (ctx : Nat) (r : EvReq) : EvPlan :=
  let q := seqDescOf (vaRead s ctx r.seq 128)
  let pages := pageList s ctx q
  let metas := pages.map fun p => p + metaOff q.cfg
  let recs := metas.map fun a => pageRecOf (vaRead s ctx a 512)
  let toks := (recs.zipIdx.flatMap fun p =>
    ((List.range 64).filter p.1.ok).map fun j => (⟨p.1.pos.getD j 0, p.1.mass.getD j 0, p.2, j⟩ : Tok))
  let sorted := toks.foldl (fun l t => insertTok t l) []
  let keep := sorted.filter (tokKept q r)
  let m := (keep.length + 63) / 64
  let row := cfgDim q.cfg * cfgBytes q.cfg
  let rowAt : Tok → Nat := fun t => pages.getD t.page 0 + t.slot * row
  let poisoned := vaPoison s ctx r.seq 128 || vaPoison s ctx q.plist (8 * q.npages)
    || metas.any (fun a => vaPoison s ctx a 512)
    || keep.any fun t => vaPoison s ctx (rowAt t) row || vaPoison s ctx (rowAt t + 64 * row) row
  let badMeta := q.zeros != 0 || decide (q.pcap < q.npages)
    || recs.any fun k => k.zeros != 0 || k.seqid != q.seqid || k.lh != q.lh
  let badPos := toks.any (fun t => decide (q.platlen ≤ t.pos)) || posTwice sorted
  let status :=
    if evPlaceBad s ctx (seqRanges q r.seq pages) then 0x33 else if poisoned then 0x34 else if badMeta then 0x32
    else if badPos then 0x31 else if q.fcap < q.nfree + (q.npages - m) then 0x30 else 0
  ⟨q, pages, recs, keep, sorted.filter fun t => !tokKept q r t, status⟩

/-- A slot's image: key row, value row, decayed mass and position. -/
structure SlotImg where
  key : List Byte
  val : List Byte
  mass : Nat
  pos : Nat

/-- Steps 5 to 8 of R356. -/
def evApply (s : State) (ctx : Nat) (r : EvReq) (p : EvPlan) : State :=
  let q := p.q
  let row := cfgDim q.cfg * cfgBytes q.cfg
  let m := (p.keep.length + 63) / 64
  let imgs : List SlotImg := p.keep.map fun t =>
    let at_ := p.pages.getD t.page 0 + t.slot * row
    ⟨vaRead s ctx at_ row, vaRead s ctx (at_ + 64 * row) row, t.mass / 2 ^ r.decay, t.pos⟩
  let putPage : State → Nat → State := fun s i =>
    let P := p.pages.getD i 0
    let mine := (imgs.drop (64 * i)).take 64
    let n := mine.length
    let s := mine.zipIdx.foldl (fun s k =>
      vaWrite (vaWrite s ctx (P + k.2 * row) k.1.key) ctx (P + (64 + k.2) * row) k.1.val) s
    let rec_ := P + metaOff q.cfg
    let s := vaWrite s ctx (rec_ + 16) (leBytes 8 (2 ^ n - 1))
    let s := vaWrite s ctx (rec_ + 32) (((mine.map SlotImg.mass) ++ List.replicate (64 - n) 0).flatMap (leBytes 2))
    vaWrite s ctx (rec_ + 256) (((mine.map SlotImg.pos) ++ List.replicate (64 - n) (2 ^ 32 - 1)).flatMap (leBytes 4))
  let s := (List.range q.npages).foldl putPage s
  let s := vaWrite s ctx (q.flist + 8 * q.nfree) ((p.pages.drop m).flatMap (leBytes 8))
  let s := p.drop.foldl (fun s t => vaWrite s ctx (q.plat + 4 * t.pos) (leBytes 4 0x80000000)) s
  let s := p.keep.zipIdx.foldl (fun s k =>
    vaWrite s ctx (q.plat + 4 * k.1.pos) (leBytes 4 (0x40000000 + k.2 / 64 * 64 + k.2 % 64))) s
  vaWrite (vaWrite s ctx (r.seq + 64) (leBytes 4 (q.nfree + (q.npages - m)))) ctx (r.seq + 24) (leBytes 4 m)

/-- Step 9 of R356: evst, ndrop and nkeep, then evicting cleared. -/
def evEnd (s : State) (ctx : Nat) (p : EvPlan) (seq : Nat) : State :=
  let ok := p.status == 0
  let s := vaWrite s ctx (seq + 72) (leBytes 4 (if ok then p.drop.length else 0))
  let s := vaWrite s ctx (seq + 76) (leBytes 4 (if ok then p.keep.length else 0))
  vaWrite (vaWrite s ctx (seq + 37) (leBytes 1 p.status)) ctx (seq + 36) (leBytes 1 (p.q.state - p.q.state % 2))

/-- Pages that an eviction held pinned, and that no hold is left on, lose their translation (R355, R249). -/
def releaseEvictPages (s : State) (e : Evict) : State :=
  e.pages.foldl (fun s g =>
    let va := 65536 * g
    if leafHeld s e.ctx va then s else setPin (dropPage s e.ctx va) e.ctx va false) s

/-- Once its sequence is quiet, an eviction selects, compacts, frees, remaps and ends (R356, R357); its `EVICT` retires, in
error with a status of R357. -/
def evictionRun (s : State) (id : Nat) : State :=
  match s.evicts.find? fun e => e.id == id with
  | none => s
  | some e =>
    let seq := e.seq
    if e.phase ≠ .claimed ∨ (seqDescOf (vaRead s e.ctx seq 128)).busy ≠ 0 then s
    else
      let r := evReqOf e.req
      let p := evPlan s e.ctx r
      let s := if p.status = 0 then evApply s e.ctx r p else s
      let s := evEnd s e.ctx p seq
      let lines := ((seqRanges p.q seq p.pages).flatMap fun g => vaLines s e.ctx g.1 g.2).dedup
      let s := dropLeased s lines
      let s := releaseEvictPages { s with evicts := s.evicts.filter fun k => k.id != id } e
      match s.blockAt? e.q e.lseq e.idx with
      | none => s
      | some b => atBlock s b.bid fun s =>
          finishOp (ackLines s b.bid e.team lines) b.bid e.team e.op 4 (if p.status = 0 then none else some p.status)

/-- EVICTION_RUN. -/
def execEvictionRun (ev : Nat) (s : State) : Host.Outcome State Fault Refusal := .next (evictionRun s ev)

/-! PLATR (R359). -/

/-- What the sequence descriptor gives `PLATR`: plat and platlen, or the cause. -/
def Ctx.platHead (c : Ctx) (sd : Nat) : Except Nat (Nat × Nat) :=
  let rd : Nat → Nat → Except Nat Nat := fun ea n =>
    match resolve c.e.s c.e.la.hdr c.e.blk c.e.la.ctx ea n 0 with
    | .error k => .error k
    | .ok tg =>
      let r := readPlace c.e.s c.e.blk c.e.la .normal ea tg n
      if r.1.2 then .error cPOISON else .ok (leNat r.1.1)
  match rd (sd + 40) 8, rd (sd + 48) 4 with
  | .error a, .error b => .error (if causeRank b < causeRank a then b else a)
  | .error k, _ => .error k
  | _, .error k => .error k
  | .ok p, .ok n => .ok (p, n)

def opPlatr (d a b : Opnd) : Op where
  form := ⟨[fA a 2, fB b 1], [fD d 1], if opIsS d then .scalar else .vec, none, .own, false, false⟩
  eff := fun c =>
    let sd := (c.uni64 0 a).toNat
    let low := c.e.low c.m
    let none_ : State → Res := fun s => .done (c.mark [fD d 1] (fun _ => true) (c.putUni d 1 0 s))
    if c.e.probing && c.markedAt [fA a 2] low then none_ c.s
    else match c.platHead sd with
      | .error k =>
        if k = cXLATE then (if c.e.probing then none_ (recordPage c.s c.e (w64 sd)) else .miss (w64 sd) low)
        else .trap k (w64 sd) low
      | .ok (plat, len) =>
        let x : Nat → Nat := fun l => (c.rd 1 b l).toNat
        let ls := if opIsS d then [low] else c.lanes
        let inside := ls.filter fun l => decide (x l < len)
        let ea : Nat → Nat := fun l => (plat + 4 * x l) % 2 ^ 64
        let put : State → List Acc → State := fun s accs =>
          let r := c.readLanes s .normal 4 leNat accs
          c.putOn ls d 1 (fun l => laneVal r.1 (if opIsS d then low else l)) r.2
        if c.e.probing then
          c.probeAccess [fB b 1] inside ea 4 0 (c.poisonAt 4) fun s accs =>
            let ok := accs.map Prod.fst
            let bad : Nat → Bool := fun l => c.markedAt [fB b 1] l || (inside.contains l && !ok.contains l)
            c.mark [fD d 1] (fun l => bad (if opIsS d then low else l)) (put s accs)
        else c.access inside ea 4 0 (c.poisonAt 4) fun accs => .done (put c.s accs)
/-- R359. -/
def execPlatr (h : Hdr) (d a b : Opnd) (s : State) : Host.Outcome State Fault Refusal := (opPlatr d a b).run (issOf h) s

end Sys2Proof.Machine
end

