-- ==== Sys2Proof/Machine/Control.lean ====
section
/-! DEFINITION. The control majors 0xA0 to 0xAA (R119, R120, R124, R125, R140 to R142, R149 to R153). -/

namespace Sys2Proof.Machine

/-- A group of a control instruction (R119): its lanes, where they go, the link word of a call, the registers an implicit
claim draws or a return releases per lane. -/
structure Grp where
  lanes : LaneMask
  pc : W64
  link : Option W64
  claim : Nat
  rel : Nat
  deriving DecidableEq, Repr

/-- The address after the instruction. -/
def Ctx.next (c : Ctx) : W64 := c.e.rcd.pc + w64 c.iss.len

/-- A branch's target (R68): the offset counts words from the next instruction. -/
def Ctx.target (c : Ctx) (off : BitVec 16) : W64 :=
  c.next + 4 * (if c.iss.len = 12 then c.iss.lit.signExtend 64 else off.signExtend 64)

/-- The lanes of k0 that do not take part, at the next instruction. -/
def Ctx.rest (c : Ctx) : List Grp :=
  let m := c.e.rcd.k0 &&& ~~~c.m
  if m = 0 then [] else [⟨m, c.next, none, 0, 0⟩]

/-- A failed check: cause, `%trapa`, lowest lane. -/
abbrev Bad := Nat × W64 × Nat

/-- R60. -/
def Ctx.startBad (c : Ctx) (t : W64) (m : LaneMask) : Option Bad :=
  if isStart c.e.s c.e.blk c.e.la t.toNat then none else some (cPCALIGN, t, c.e.low m)

/-- A call group at a target (R141, R164), after its checks. -/
def Ctx.callGroup (c : Ctx) (m : LaneMask) (t : W64) : Except Bad Grp :=
  match c.startBad t m with
  | some b => .error b
  | none =>
    let claim := match entryBudget c.e.s c.e.blk c.e.la t.toNat with
      | none => some 0
      | some b =>
        let ceil := if c.e.station then 64 else c.e.la.hdr.ceiling
        if b % 8 ≠ 0 ∨ ceil < b then none else some (b - c.e.rcd.alloc)
    match claim with
    | none => .error (cBUDGET, w64 ((entryBudget c.e.s c.e.blk c.e.la t.toNat).getD 0), c.e.low m)
    | some n => .ok ⟨m, t, some (w64 (2 ^ 56 * (n / 8)) ||| (c.next &&& w64 (2 ^ 56 - 1))), n, 0⟩

/-- Numbers in ascending order, each once. -/
def insertNat (n : Nat) : List Nat → List Nat
  | [] => [n]
  | m :: l => if n < m then n :: m :: l else if n = m then m :: l else m :: insertNat n l

def sortNats (l : List Nat) : List Nat := l.foldl (fun acc n => insertNat n acc) []

/-- The lanes that take part, by a key: ascending keys with their lanes. -/
def Ctx.byKey (c : Ctx) (key : Nat → Nat) : List (Nat × LaneMask) :=
  (sortNats (c.lanes.map key)).map fun k => (k, maskFrom c.lanes fun l => key l == k)

/-- The first failing check in group order, or every group. -/
def collect (l : List (Except Bad Grp)) : Except Bad (List Grp) :=
  l.foldr (fun g acc =>
    match g with
    | .error b => .error b
    | .ok g =>
      match acc with
      | .error b => .error b
      | .ok gs => .ok (g :: gs)) (.ok [])

/-- The groups of `BRX` and `CALLI` (R119, R150). -/
def Ctx.indirect (c : Ctx) (a : Opnd) (call : Bool) : Except Bad (List Grp) :=
  let val : Nat → W64 := fun l => c.rd64 0 a false l
  collect ((c.byKey fun l => (val l).toNat % 2 ^ 56).map fun p =>
    match (maskLanes p.2 c.e.team.lanes).find? fun l => 2 ^ 56 ≤ (val l).toNat with
    | some l => .error (cPCALIGN, val l, l)
    | none =>
      if call then c.callGroup p.2 (w64 p.1)
      else match c.startBad (w64 p.1) p.2 with
        | some b => .error b
        | none => .ok ⟨p.2, w64 p.1, none, 0, 0⟩)

/-- The groups of `RET` (R119, R140, R142): ascending by target and then by count. On a station the allocation is fixed, so that a
return releases nothing whatever its link says (R164; log entry 117). -/
def Ctx.returns (c : Ctx) (a : Opnd) : Except Bad (List Grp) :=
  let val : Nat → W64 := fun l => c.rd64 0 a false l
  let key : Nat → Nat := fun l => (val l).toNat % 2 ^ 56 * 32 + bitsOf (val l).toNat 60 56
  collect ((c.byKey key).map fun p =>
    let rel := p.1 % 32
    let t := w64 (p.1 / 32)
    match (maskLanes p.2 c.e.team.lanes).find? fun l => 2 ^ 61 ≤ (val l).toNat ∨ 22 < rel with
    | some l => .error (cPCALIGN, val l, l)
    | none =>
      match c.startBad t p.2 with
      | some b => .error b
      | none =>
        if c.e.station then .ok ⟨p.2, t, none, 0, 0⟩
        else if c.e.rcd.alloc < 8 * rel then .error (cBUDGET, w64 (8 * rel), c.e.low p.2)
        else .ok ⟨p.2, t, none, 0, 8 * rel⟩)

/-- A placed group's call or return work in its sub-team (R136, R141, R142, R150). -/
def Ctx.groupWork (c : Ctx) (d : Opnd) (s : State) (n : Nat) (g : Grp) : State :=
  let w : Issuer := { c.e.who with sub := n }
  let s := match g.link with
    | some v => c.putOn (maskLanes g.lanes c.e.team.lanes) d 2 (fun _ => v.toNat) s
    | none => s
  let s := if g.rel = 0 then s else applyRelease s w g.rel
  if g.claim = 0 then s
  else claimFor s c.e.blk.coreNum w g.claim (g.claim * countLanes g.lanes c.e.team.lanes) g.pc true

/-- A backward branch marks its sub-team (R129). -/
def Ctx.backward (c : Ctx) (mark : Bool) (g : Grp) : Bool := mark && decide (g.pc.toNat ≤ c.e.rcd.pc.toNat)

/-- The issuing record takes a group. -/
def Ctx.takeGroup (c : Ctx) (mark : Bool) (g : Grp) (s : State) : State :=
  c.modTeam s fun t => t.modRec c.e.who.sub fun r =>
    { r with k0 := g.lanes, pc := g.pc, yielded := r.yielded || c.backward mark g }

/-- A record that a split makes. -/
def Ctx.newRecord (c : Ctx) (mark : Bool) (e : Nat) (s : State) (n : Nat) (g : Grp) : State :=
  c.modTeam s fun t =>
    match t.rec? c.e.who.sub with
    | none => t
    | some r =>
      let q : Record :=
        { r with num := n, k0 := g.lanes, pc := g.pc, parent := e, yielded := c.backward mark g, held := none,
                 wait := .ready, aged := false, pend := [] }
      { t with records := insertRec q t.records }

/-- RESOLVING the groups (R120). -/
def Ctx.resolve (c : Ctx) (d : Opnd) (mark : Bool) (gs : List Grp) : Res :=
  match gs with
  | [] => .done c.s
  | [g] => .done (c.groupWork d (c.takeGroup mark g c.s) c.e.who.sub g)
  | g :: rest =>
    if c.e.rcd.held.isSome then .hold .splitFull
    else
      let s := c.modTeam c.s Team.drain
      let free := freeRecs c.e.team
      if rest.length ≤ free.length then
        let e := freeEntry (if c.e.station then Config.stationSplitEntries else Config.splitEntries)
          (usedEntries c.e.s c.e.blk c.e.team)
        let s := (rest.zip free).foldl (fun s p => c.newRecord mark e s p.2 p.1) s
        let s := c.takeGroup mark g s
        let s := c.modTeam s fun t =>
          { t.modRec c.e.who.sub (fun r => { r with parent := e }) with
            splits := t.splits ++ [⟨e, c.e.rcd.parent, gs.length⟩] }
        let s := c.groupWork d s c.e.who.sub g
        .done ((rest.zip free).foldl (fun s p => c.groupWork d s p.2 p.1) s)
      else
        let held := rest.foldl (fun m q => m ||| q.lanes) 0
        let s := c.takeGroup mark g s
        let s := c.modTeam s fun t =>
          t.modRec c.e.who.sub fun r => { r with held := some ⟨held, c.e.rcd.pc, false⟩ }
        .done (c.groupWork d s c.e.who.sub g)

/-- The groups that a resolution would place. -/
def Ctx.placed (c : Ctx) (gs : List Grp) : List Grp :=
  if gs.length - 1 ≤ (freeRecs c.e.team).length then gs else gs.take 1

/-- Resolve after the checks; in probe mode an implicit claim or a release ends it (R253). -/
def Ctx.branch (c : Ctx) (d : Opnd) (mark : Bool) (gs : Except Bad (List Grp)) : Res :=
  match gs with
  | .error b => .trap b.1 b.2.1 b.2.2
  | .ok gs =>
    let all := gs ++ c.rest
    if c.e.probing && gs.any (fun g => g.claim != 0 || g.rel != 0) then
      .done (c.e.s.modTeam c.e.who.bid c.e.who.team Team.endProbe)
    else
      match (c.placed all).find? fun g => g.rel != 0 && releaseBusy c.e.team g.lanes (c.e.rcd.alloc - g.rel) c.e.rcd.alloc with
      | some g => .hold (.releaseRegs (c.e.rcd.alloc - g.rel) c.e.rcd.alloc)
      | none => c.resolve d mark all

/-- The form of a control major: a link is ready when written. -/
def branchForm (srcs dsts : List Field) : Form := ⟨srcs, dsts, .ctl, some 0, .run, true, false⟩

def opBra (off : BitVec 16) : Op where
  form := branchForm [] []
  eff := fun c => c.branch .zero true
    (match c.startBad (c.target off) c.m with
      | some b => .error b
      | none => .ok [⟨c.m, c.target off, none, 0, 0⟩])
/-- R150. -/
def execBra (h : Hdr) (off : BitVec 16) (s : State) : Host.Outcome State Fault Refusal := (opBra off).run (issOf h) s

def opBrx (a : Opnd) : Op where
  form := branchForm [fA a 2] []
  eff := fun c => c.branch .zero true (c.indirect a false)
/-- R150. -/
def execBrx (h : Hdr) (a : Opnd) (s : State) : Host.Outcome State Fault Refusal := (opBrx a).run (issOf h) s

def opCall (d : Opnd) (off : BitVec 16) : Op where
  form := branchForm [] [fD d 2]
  eff := fun c => c.branch d false
    (match c.callGroup c.m (c.target off) with
      | .error b => .error b
      | .ok g => .ok [g])
/-- R150. -/
def execCall (h : Hdr) (d : Opnd) (off : BitVec 16) (s : State) : Host.Outcome State Fault Refusal :=
  (opCall d off).run (issOf h) s

def opCalli (d a : Opnd) : Op where
  form := branchForm [fA a 2] [fD d 2]
  eff := fun c => c.branch d true (c.indirect a true)
/-- R150. -/
def execCalli (h : Hdr) (d a : Opnd) (s : State) : Host.Outcome State Fault Refusal := (opCalli d a).run (issOf h) s

def opRet (a : Opnd) : Op where
  form := branchForm [fA a 2] []
  eff := fun c => c.branch .zero true (c.returns a)
/-- R150. -/
def execRet (h : Hdr) (a : Opnd) (s : State) : Host.Outcome State Fault Refusal := (opRet a).run (issOf h) s

/-- Lanes of the issuing record end (R151). -/
def Ctx.exitLanes (c : Ctx) (s : State) : State :=
  let now := s.time
  let s := c.modTeam s fun t =>
    let t := t.modRec c.e.who.sub fun r => { r with k0 := r.k0 &&& ~~~c.m }
    (t.recEmpty now c.e.who.sub).fuse now
  afterExit s c.e.who.bid c.e.who.team

def opExit : Op where
  form := ctlForm [] [] .ends true
  eff := fun c => .done (c.exitLanes c.s)
/-- R151. -/
def execExit (h : Hdr) (s : State) : Host.Outcome State Fault Refusal := opExit.run (issOf h) s

/-- The other ready sub-teams of the quadrant, of a priority at or above the team's (R152). -/
def yieldOthers (e : Env) : List Issuer :=
  (e.s.blocks.filter fun b => b.site == e.blk.site).flatMap fun b =>
    (b.teams.filter fun t => t.row / 16 == e.team.row / 16 && !t.halted && !t.left
        && decide (e.team.prio.toNat ≤ t.prio.toNat)).flatMap fun t =>
      (t.records.filter fun r => r.k0 != 0 && r.wait == .ready).filterMap fun r =>
        let w : Issuer := ⟨b.bid, t.idx, r.num⟩
        if w = e.who then none else some w

/-- `YIELD` (R152). -/
def Ctx.yield (c : Ctx) : State :=
  let w := Wait.yield (c.e.s.time + cyclesNs c.e.s c.e.blk 64) (yieldOthers c.e)
  c.modTeam c.s fun t => (t.modRec c.e.who.sub fun r => { r with yielded := true }).waitAt c.e.who.sub w

def opYield : Op where
  form := ctlForm [] [] .ends true
  eff := fun c => .done c.yield
/-- R152. -/
def execYield (h : Hdr) (s : State) : Host.Outcome State Fault Refusal := opYield.run (issOf h) s

def opPause (a : Opnd) : Op where
  form := ctlForm [fA a 1] [] .ends true
  eff := fun c =>
    let n := (c.uni 0 a).toNat
    .done (if n = 0 then c.yield
      else c.modTeam c.s fun t => t.waitAt c.e.who.sub (.pause (c.e.s.time + min n 1048575)))
/-- R152. -/
def execPause (h : Hdr) (a : Opnd) (s : State) : Host.Outcome State Fault Refusal := (opPause a).run (issOf h) s

def opTrap (a : Opnd) : Op where
  form := ctlForm [fA a 1] [] .run true
  eff := fun c => .trap 0x30 ((c.uni 0 a).zeroExtend 64) (c.e.low c.m)
/-- R153. -/
def execTrap (h : Hdr) (a : Opnd) (s : State) : Host.Outcome State Fault Refusal := (opTrap a).run (issOf h) s

def opBrk : Op where
  form := ctlForm [] [] .run true
  eff := fun c => .trap 0x31 0 (c.e.low c.m)
/-- R153. -/
def execBrk (h : Hdr) (s : State) : Host.Outcome State Fault Refusal := opBrk.run (issOf h) s

/-- Every other child of the issuing sub-team's parent waits at its `JOIN` (R124). -/
def Ctx.othersAtJoin (c : Ctx) : Bool :=
  let e := c.e.rcd.parent
  !(c.e.team.splits.any fun p => p.parent == e) &&
    (c.e.team.kids e).all fun k =>
      k.num == c.e.rcd.num || (k.held.isNone && k.wait == .join e && k.pc == c.e.rcd.pc)

/-- `JOIN` by the lanes k, none held, under a split entry (R124). -/
def Ctx.joinNow (c : Ctx) (k : LaneMask) : Res :=
  let e := c.e.rcd.parent
  let allocs := (c.e.team.kids e).map Record.alloc
  if c.othersAtJoin && allocs.any fun a => a != c.e.rcd.alloc then
    .trap cBUDGET (w64 (allocs.foldl max 0)) (c.e.low c.e.rcd.k0)
  else
    .done (c.modTeam c.s fun t =>
      (t.modRec c.e.who.sub fun r => { r with k0 := k, held := none, pc := c.e.rcd.pc }).waitAt c.e.who.sub (.join e))

/-- A held group that stands at this same `JOIN` joins the active lanes (R125). -/
def Ctx.heldHere (c : Ctx) : Bool := c.e.rcd.held.any fun h => h.atJoin && h.pc == c.e.rcd.pc

/-- A sub-team whose parent is the root passes its `JOIN` at once (R124), whatever it holds; only a group held at this very `JOIN`
goes with it (log entry 116). -/
def Ctx.joinRoot (c : Ctx) : Res :=
  let rejoin : Record → Record := fun r =>
    match r.held with
    | some h => if c.heldHere then { r with k0 := r.k0 ||| h.lanes, held := none } else r
    | none => r
  .done (c.modTeam c.s fun t => t.modRec c.e.who.sub rejoin)

def opJoin : Op where
  form := ctlForm [] [] .ends true
  eff := fun c =>
    if c.e.rcd.parent = Config.root then c.joinRoot else
    match c.e.rcd.held with
    | none => c.joinNow c.e.rcd.k0
    | some h =>
      if h.atJoin then
        if h.pc = c.e.rcd.pc then c.joinNow (c.e.rcd.k0 ||| h.lanes) else .hold .heldJoin
      else
        .done (c.modTeam c.s fun t => t.modRec c.e.who.sub fun r =>
          { r with k0 := h.lanes, pc := h.pc, held := some ⟨c.e.rcd.k0, c.e.rcd.pc, true⟩ })
/-- R124. -/
def execJoin (h : Hdr) (s : State) : Host.Outcome State Fault Refusal := opJoin.run (issOf h) s

end Sys2Proof.Machine
end

