-- ==== Sys2Proof/Machine/Issue.lean ====
section
/-! DEFINITION. Which sub-team may issue (R127, R128), what it fetches (R250), and the loading of a program from outside that
`withFetchWord` stands for (log entry 30). -/

namespace Sys2Proof.Machine

/-- A sub-team that may issue (R127): ready, of a team that is not halted and has a launch. -/
def mayIssue (t : Team) (r : Record) : Bool := !t.halted && !t.left && r.k0 != 0 && r.wait == .ready

/-- The sub-team that `cur` names may issue. -/
def canIssue (s : State) : Bool :=
  match getEnv s with
  | none => false
  | some e => mayIssue e.team e.rcd

/-- A fetch that fails (R80, R250): a decode fault, PERM or POISON; a missing translation stops the launch without run-ahead, with
that one page in the batch. -/
def fetchFail (e : Env) (f : Fetched) : State :=
  let low := e.low e.rcd.k0
  match f with
  | .ok _ => e.s
  | .trap cause => takeTrap e cause (if cause = cPERM ∨ cause = cPOISON then e.rcd.pc else 0) low 0
  | .missing =>
    if e.station ∨ e.probing then takeTrap e cXLATE e.rcd.pc low 0
    else stopLaunch e.s e.la.q e.la.lseq { (e.stopInfo cXLATE e.rcd.pc low) with pages := [e.batchPage (pageOf e.rcd.pc)] } true

/-! Choosing who issues (R128). -/

/-- A candidate: its sub-team with what the choice reads. -/
structure Cand1 where
  who : Issuer
  site : Site
  row : Nat
  prio : Nat
  aged : Bool
  since : Nat
  issuedAt : Nat
  yielded : Bool
  deriving DecidableEq, Repr

def candidates (s : State) : List Cand1 :=
  s.blocks.flatMap fun b => b.teams.flatMap fun t =>
    (t.records.filter (mayIssue t)).map fun r =>
      ⟨⟨b.bid, t.idx, r.num⟩, b.site, t.row, t.prio.toNat, r.aged || decide (r.readySince + cyclesNs s b 1024 ≤ s.time),
        r.readySince, r.issuedAt, r.yielded⟩

def sameQuad (a b : Cand1) : Bool := a.site == b.site && a.row / 16 == b.row / 16

/-- The order of slots and records. -/
def slotBefore (a b : Cand1) : Bool := decide (a.row < b.row) || (a.row == b.row && decide (a.who.sub < b.who.sub))

/-- The better of a list by an order. -/
def bestBy {α : Type} (better : α → α → Bool) (l : List α) : Option α :=
  l.foldl (fun b a =>
    match b with
    | none => some a
    | some c => if better a c then some a else some c) none

/-- The choice of R128 among the candidates of one quadrant. -/
def chooseIn (l : List Cand1) : Option Cand1 :=
  let aged := l.filter fun c => c.aged
  if aged.isEmpty then
    let top := l.foldl (fun n c => max n c.prio) 0
    let cs := l.filter fun c => c.prio == top
    let free := cs.filter fun c => !c.yielded ||
      !(cs.any fun d => d.who != c.who && d.who.bid == c.who.bid && d.who.team == c.who.team)
    let rest := if free.isEmpty then cs else free
    bestBy (fun a c => decide (a.issuedAt < c.issuedAt) || (a.issuedAt == c.issuedAt && slotBefore a c)) rest
  else
    bestBy (fun a c => decide (a.since < c.since) || (a.since == c.since && slotBefore a c)) aged

/-- The candidates that their quadrants choose. -/
def picks (s : State) : List Cand1 :=
  let l := candidates s
  l.filter fun c => chooseIn (l.filter (sameQuad c)) == some c

/-- A sub-team is its quadrant's choice. -/
def isChosen (s : State) (w : Issuer) : Bool := (picks s).any fun c => c.who == w

/-- A quadrant's choice, taking the quadrant whose choice has issued least recently. -/
def chooseIssuer (s : State) : Option Issuer :=
  (bestBy (fun a c => decide (a.issuedAt < c.issuedAt)) (picks s)).map Cand1.who

/-! A program placed from outside. -/

/-- The virtual address of the placed word. -/
def progVa : Nat := 0x10000

/-- Page-table entries and the code of a placed program in fast-tier memory, as (address, value, bytes): a walk of four levels
from 0x100000 to the frame 0x130000, which the leaf maps pinned with r, w, a and x. -/
def progCells (code : Nat) : List (Nat × Nat × Nat) :=
  [(0x100000, 0x110001, 8), (0x110000, 0x120001, 8), (0x120000, 0x128001, 8),
   (0x128008, 0x130000 + 2 ^ 12 + 0x3F, 8), (0x130000, code, 12)]

def progMem (m : Memory) (code : Nat) : Memory :=
  (progCells code).foldl (fun m c => setBytes m (physOf State.reset 0 0 false c.1).loc (leBytes c.2.2 c.2.1)) m

def progHdr : LaunchHdr :=
  { entry := w64 progVa, w := [0, 0, 0, 0, 0, 0], budget := 176, ceiling := 176, e := [1, 1, 1, 1, 1, 1], scratch := 4096,
    chain := 0, prio := 0, oppt := 0, pre := false, cores := false, trap := false, handler := 0, wslist := 0, wscount := 0,
    lease := 400, args := [] }

/-- A team as it starts (R117): every lane in record 0 at the entry. -/
def newTeam (idx row lanes : Nat) (wid : W64) (entry : W64) (alloc : Nat) (s : SMap W32) (prio now drawn : Nat) : Team :=
  { idx := idx, row := row, lanes := lanes, wid0 := wid,
    records := [⟨0, entry, firstLanes lanes, Config.root, alloc, .ready, none, false, false, now, 0, 0, []⟩],
    splits := [], k := [], s := s, v := [], x := [], cnt := [], ops := [], mode := 0, prio := w32 prio, trapc := 0,
    trapa := 0, trappc := 0, trapst := 0, vs := 0, bstat := 0, gmiss := 0, drawn := drawn, waits := [], hostWait := [], lockBits := [],
    slots := List.replicate 4 ⟨false, false, 0, 0, 0, 0⟩, unacked := [], gwct := 0, lastHost := 0, barIssued := [],
    gbarIssued := [], hlanes := 0, probe := none, halted := false, left := false }

def newMatrix : Matrix := ⟨false, [], [], [], [], [], [], [], [], []⟩

/-- A block with nothing in it but its teams (R271). -/
def newBlock (bid q lseq idx : Nat) (site : Site) (teams : List Team) (len : Nat) : Block :=
  { bid := bid, q := q, lseq := lseq, idx := idx, site := site, teams := teams, scratch := [], scratchLen := len,
    spoison := [], objs := [], bars := [], sb := [], sbTest := [], arms := [], copies := [], cbq := [], mat := newMatrix, atts := [],
    sends := [], colls := [], collsDone := [], startsLate := [], fetches := [], ret := none, gone := false }

def newLaunch (pid q lseq ctx off : Nat) (tag : W32) (hdr : LaunchHdr) (code : Memory) : Launch :=
  { pid := pid, q := q, lseq := lseq, ctx := ctx, off := off, tag := tag, ovl := false, irq := false, sig := none,
    hdr := hdr, state := .running, priv := false, prio := hdr.prio, waited := 0, waitSince := 0, eligAt := 0, ws := [], held := 0,
    staged := false, code := code, lease := if hdr.lease = 0 then 400 else hdr.lease, nextIdx := 0, gbars := [],
    stop := none, halting := [], recBase := none, blkRecs := [], status := 0 }

/-- The state with a program of at most 12 bytes loaded from outside: context 0 enabled with a page table, a launch of one lane
resident on core 0 and chosen to issue next. -/
def loadProgram (s : State) (code : Nat) : State :=
  let mem := progMem s.mem code
  let bid := s.nextId
  let s := setBar (setBar s (ctxBase 0) 0x80000000) (ctxBase 0 + 8) 0x100000
  let la : Launch := { newLaunch 0 0 0 0 0 0 progHdr mem with nextIdx := 1 }
  let t := newTeam 0 0 1 0 (w64 progVa) 176 [] 0 s.time 176
  { s with
    mem := mem
    nextId := bid + 1
    launches := la :: s.launches.filter fun l => !(l.q == 0 && l.lseq == 0)
    blocks := newBlock bid 0 0 0 (.core 0) [t] 4096 :: s.blocks
    agenda := .issue ⟨bid, 0, 0⟩ :: s.agenda }

end Sys2Proof.Machine
end

