-- ==== Sys2Proof/Machine/Station.lean ====
section
/-! DEFINITION. Stations and near-memory calls (R363 to R388). -/

namespace Sys2Proof.Machine

/-- A major that only a station has (R371). -/
def stationOnly (o : Op) (h : Hdr) (s : State) : Host.Outcome State Fault Refusal :=
  match getEnv s with
  | none => .fault .noIssuer
  | some e => if e.station then o.run (issOf h) s else Op.illegal.run (issOf h) s

/-! Calling (R371 to R375). -/

/-- The header of an argument message (R372). -/
structure NmMsg where
  entry : Nat
  teams : Nat
  lanes : Nat
  nin : Nat
  nres : Nat
  len : Nat
  roff : Nat
  zeros : Nat
  deriving DecidableEq, Repr

def nmMsgOf (m : Memory) : NmMsg :=
  let f : Nat → Nat → Nat := fun a n => numAt m a n
  { entry := f 0 8, teams := f 8 1, lanes := f 9 1, nin := f 10 1, nres := f 11 1, len := f 12 1, roff := f 16 4,
    zeros := f 13 3 + f 20 12 }

def NmMsg.bad (m : NmMsg) : Bool :=
  m.entry % 64 != 0 || decide (2 ^ 56 ≤ m.entry) || m.teams == 0 || decide (4 < m.teams) || m.lanes == 0 || decide (64 < m.lanes)
    || decide (8 < m.nin) || decide (8 < m.nres) || decide (m.len < 2) || decide (16 < m.len)
    || decide (16 * m.len < 32 + 8 * (m.nin + m.nres)) || m.zeros != 0

/-- Range records from i on, as (address, bytes) (R373). -/
def rangesFrom (m : Memory) (i n : Nat) : List (Nat × Nat) :=
  (List.range n).map fun k =>
    let v := numAt m (32 + 8 * (i + k)) 8
    (128 * (v % 2 ^ 49), 128 * (v / 2 ^ 49))

def nmInputs (m : Memory) : List (Nat × Nat) := rangesFrom m 0 (nmMsgOf m).nin
def nmResults (m : Memory) : List (Nat × Nat) := rangesFrom m (nmMsgOf m).nin (nmMsgOf m).nres

/-- THE CHECKS of `NMCALL` in the scratchpad (R375). -/
def nmCheck (b : Block) (off : Nat) (stack : Option Nat) (bar : Option Nat) : Option (Nat × W64) :=
  let m := nmMsgOf (b.copyOut off 32)
  let whole := b.copyOut off (16 * m.len)
  let objs := (optList bar).map fun o => (o, 16)
  firstFail
    [spwinIf b [(off, 32)],
     illIf (m.bad || (optList stack).any (fun n => decide (7 < n))
       || (b.fits off (16 * m.len) && (nmInputs whole ++ nmResults whole).any fun r => r.2 == 0)),
     spwinIf b ([(off, 16 * m.len), (m.roff, 96)] ++ objs),
     alignIf ([(off, 16), (m.roff, 16)] ++ objs)]

/-- The stack of an address (R375): its cause where it has none. -/
def nmStack (e : Env) (va : Nat) : Except Nat Nat :=
  if windowOf va then .error cPERM
  else match resolveMem e.s e.blk e.la.ctx va 0 with
    | .error k => .error k
    | .ok (t, p) => if t.ilv = 2 ∧ p.kind = .own ∧ p.loc < Config.fastBytes then .ok (stackOf p.loc) else .error cPERM

/-- The unretired calls of a block. -/
def blockCalls (s : State) (b : Block) : List Call := s.calls.filter fun c => c.q == b.q && c.lseq == b.lseq && c.idx == b.idx

/-- A call made: its message is read whole, and it counts in class 3. -/
def Ctx.makeCall (c : Ctx) (off stack : Nat) (bar : Option Nat) : State :=
  let id := c.s.nextId
  let b := c.e.blk
  let call : Call :=
    { id := id, q := b.q, lseq := b.lseq, idx := b.idx, team := c.e.who.team, op := id, ctx := c.e.la.ctx, pc := c.e.rcd.pc,
      stack := stack, prio := c.e.team.prio.toNat, msg := b.copyOut off (16 * (nmMsgOf (b.copyOut off 32)).len), bar := bar,
      phase := .issued, since := c.s.time, station := 0, rstat := 0, cause := 0, data := [], fteam := 0, flane := 0, fpc := 0,
      trapa := 0, counted := false, expiry := 0 }
  let s : State := { c.s with nextId := id + 1, calls := c.s.calls ++ [call] }
  c.modTeam s fun t => t.addOp id 3

/-- `NMCALL` and `NMCALL.a` past their fields (R375): a ninth call of the block does not issue, and is not checked. -/
def Ctx.nmCall (c : Ctx) (byAddr : Bool) (a b x : Opnd) : Res :=
  let off := (c.uni 0 a).toNat
  let bar := if opIsZero x then none else some (c.uni 2 x).toNat
  let va := (c.uni64 1 b).toNat
  if 8 ≤ (blockCalls c.e.s c.e.blk).length ∨ cntFull c.e.team 3 then .hold .limit
  else c.afterRel true .dev
    (match nmCheck c.e.blk off (if byAddr then none else some (c.uni 1 b).toNat) bar with
      | some (k, t) => .trap k t (c.e.low c.m)
      | none =>
        match (if byAddr then nmStack c.e va else .ok (c.uni 1 b).toNat) with
        | .error k => if k = cXLATE then .miss (w64 va) (c.e.low c.m) else .trap k (w64 va) (c.e.low c.m)
        | .ok stack => .done (c.makeCall off stack bar))

def opNmcall (byAddr : Bool) (a b x : Opnd) : Op where
  form := ctlForm [fA a 1, fB b (if byAddr then 2 else 1), fC x 1] [] .zero false
  eff := fun c => c.nmCall byAddr a b x
/-- R371, R375. -/
def execNmcall (h : Hdr) (a b c : Opnd) (s : State) : Host.Outcome State Fault Refusal :=
  (opNmcall false a b c).run (issOf h) s
/-- R371, R375. -/
def execNmcallA (h : Hdr) (a b c : Opnd) (s : State) : Host.Outcome State Fault Refusal :=
  (opNmcall true a b c).run (issOf h) s

/-! The course of a call (R376 to R379). -/

def State.modCall (s : State) (id : Nat) (f : Call → Call) : State :=
  { s with calls := s.calls.map fun c => if c.id = id then f c else c }

def State.call? (s : State) (id : Nat) : Option Call := s.calls.find? fun c => c.id == id

/-- The pages that R376's check translates, in its order, with the right each needs: 0 read, 1 write, 3 execute. -/
def callPages (m : Memory) : List (Nat × Nat) :=
  let of : Nat → List (Nat × Nat) → List (Nat × Nat) := fun need l =>
    (l.flatMap fun r => pagesOf r.1 r.2).map fun a => (a / 65536 * 65536, need)
  ((nmMsgOf m).entry / 65536 * 65536, 3) :: (of 0 (nmInputs m) ++ of 1 (nmResults m))

/-- A page is refused. A window has no frame on any stack. -/
def pageRefused (s : State) (ctx stack : Nat) (p : Nat × Nat) : Bool :=
  windowOf p.1 ||
    match translate s ctx p.1 with
    | none => false
    | some t =>
      let ph := t.phys s p.1
      !(t.ilv == 2 && ph.kind == .own && decide (ph.loc < Config.fastBytes) && stackOf ph.loc == stack)
        || (if p.2 = 0 then !t.r else if p.2 = 1 then !t.w else !t.x)

/-- The lines of ranges, as they are mapped. -/
def rangeLines (s : State) (ctx : Nat) (l : List (Nat × Nat)) : List Nat :=
  (l.flatMap fun r => (List.range (r.2 / 128)).filterMap fun i =>
    (translate s ctx (r.1 + 128 * i)).map fun t => (t.phys s (r.1 + 128 * i)).line).dedup

/-- The return area (R374): data where there are any, and the fields from byte 64. -/
def returnBytes (c : Call) (now : Nat) : List Byte :=
  leBytes 1 c.rstat ++ leBytes 1 c.cause ++ leBytes 2 c.data.length ++ leBytes 1 (c.stack + 8 * c.station)
    ++ leBytes 1 c.fteam ++ leBytes 2 c.flane ++ leBytes 8 c.fpc.toNat ++ leBytes 8 c.trapa.toNat ++ leBytes 8 now

/-- The return area is written to the calling block, wherever it is (R268, R376 step 4). -/
def writeReturn (s : State) (c : Call) : State :=
  match s.blockAt? c.q c.lseq c.idx with
  | none => s
  | some b =>
    let at_ := (nmMsgOf c.msg).roff
    let now := s.time
    let put : Block → Block := fun b => putScratch (putScratch b at_ c.data false) (at_ + 64) (returnBytes c now) false
    atBlock s b.bid fun s => s.modBlock b.bid put

/-- The calls that a stack's dispatcher holds (R378, R388). -/
def heldCalls (s : State) (stack : Nat) : Nat := (s.calls.filter fun c => c.stack == stack && c.counted).length

/-- Steps 1 and 2 of R376: the check, the write-back, and the arrival at the dispatcher. -/
def callCheck (s : State) (id : Nat) : State :=
  match s.call? id with
  | none => s
  | some c =>
    let pages := callPages c.msg
    let missing := pages.filter fun p => !windowOf p.1 && (translate s c.ctx p.1).isNone
    if c.phase ≠ .issued ∨ 256 ≤ heldCalls s c.stack then s
    else match missing with
      | m :: rest =>
        match s.blockAt? c.q c.lseq c.idx, s.launch? c.q c.lseq with
        | some b, some la =>
          if (s.block? b.bid).isSome && engineRuns la b then
            engineFault s b la c.team c.pc (cXLATE, m.1) (rest.map Prod.fst)
          else s
        | _, _ => s
      | [] =>
        match pages.find? (pageRefused s c.ctx c.stack) with
        | some p =>
          let c : Call := { c with phase := .returned, rstat := 0x25, cause := cPERM, trapa := w64 p.1 }
          writeReturn (s.modCall id fun _ => c) c
        | none =>
          let s := (rangeLines s c.ctx (nmInputs c.msg ++ nmResults c.msg)).foldl writeBack s
          let c : Call := { c with phase := .queued, counted := true }
          { s with calls := s.calls.filter (fun k => k.id != id) ++ [c] }

/-- NMCALL_WRITE_BACK. -/
def execNmcallWriteBack (call : Nat) (s : State) : Host.Outcome State Fault Refusal := .next (callCheck s call)

/-- A station is fenced, or runs a block (R378, R388). -/
def stationFenced (s : State) (stack st : Nat) : Bool := (bar s (0x180000 + 0x40 * stack)).getLsbD st
def stationBusy (s : State) (stack st : Nat) : Bool := s.blocks.any fun b => b.site == .station stack st

/-- The teams of a station block as they start (R366). -/
def stationTeams (c : Call) (st now : Nat) : List Team :=
  let m := nmMsgOf c.msg
  let sregs := smSetList 0 [] 0 [w32 (16 * m.len), w32 c.stack, w32 st]
  (List.range m.teams).map fun i => newTeam i i m.lanes (w64 (64 * i)) (w64 m.entry) 64 sregs c.prio now 0

/-- The dispatcher's next call: the highest priority, then the earliest arrival (R378). -/
def nextCall (s : State) (stack : Nat) : Option Call :=
  bestBy (fun a b => decide (b.prio < a.prio)) (s.calls.filter fun c => c.stack == stack && c.phase == .queued)

/-- A stack's dispatcher starts a call, or ends one where every station is fenced (R378). -/
def dispatchCall (s : State) (stack : Nat) : State :=
  match nextCall s stack with
  | none => s
  | some c =>
    if (List.range 16).all (stationFenced s stack) then
      s.modCall c.id fun c => { c with phase := .ended, rstat := 0x25, cause := 0, counted := false }
    else match (List.range 16).find? fun i => !stationFenced s stack i && !stationBusy s stack i with
      | none => s
      | some st =>
        let bid := s.nextId
        let blk : Block :=
          { newBlock bid c.q c.lseq c.id (.station stack st) (stationTeams c st s.time) Config.stationScratch with
            scratch := c.msg }
        let s := s.modCall c.id fun c => { c with phase := .running, station := st }
        { s with nextId := bid + 1, blocks := s.blocks ++ [blk] }

/-- STATION_DISPATCH. -/
def execStationDispatch (stack : Nat) (s : State) : Host.Outcome State Fault Refusal := .next (dispatchCall s stack)

def stationBlock? (s : State) (id : Nat) : Option Block := s.blocks.find? fun b => b.site.isStation && b.idx == id

/-- A station block's teams have all exited and nothing of theirs is in flight. -/
def stationDone (b : Block) : Bool := b.teams.all fun t => t.live == 0 && t.cnt.isEmpty

/-- Copies of lines in every cache go, dirty ones too (R376 step 5). -/
def dropCopies (s : State) (lines : List Nat) : State := dropLines s fun c => lines.contains c.line

/-- The meridian that must pass for the leases on lines (R376 step 5); 0 for none. -/
def leaseEnd (s : State) (lines : List Nat) : Nat :=
  let gs := s.grants.filter fun g => lines.contains g.line && decide (s.time ≤ g.expiry)
  let e := gs.foldl (fun n g => max n g.expiry) 0
  if gs.any Grant.remote then e + Config.skew else e

/-- Steps 4 and 5 of R376. -/
def callReturn (s : State) (c : Call) : State :=
  let s := writeReturn { s with blocks := s.blocks.filter fun b => !(b.site.isStation && b.idx == c.id) } c
  let lines := rangeLines s c.ctx (nmResults c.msg)
  let e := leaseEnd s lines
  (dropCopies s lines).modCall c.id fun _ => { c with phase := .returned, counted := false, expiry := e }

def nmcallReturn (s : State) (id : Nat) : State :=
  match s.call? id with
  | none => s
  | some c =>
    match c.phase, stationBlock? s id with
    | .ended, _ => callReturn s c
    | .running, some b => if stationDone b then callReturn s { c with data := b.ret.getD [] } else s
    | _, _ => s

/-- NMCALL_RETURN. -/
def execNmcallReturn (call : Nat) (s : State) : Host.Outcome State Fault Refusal := .next (nmcallReturn s call)

/-- Step 6 of R376: one ARRIVE, and retirement in class 3, in error after NMFAULT (R21). -/
def nmcallArrive (s : State) (id : Nat) : State :=
  match s.call? id with
  | none => s
  | some c =>
    if c.phase ≠ .returned ∨ (c.expiry ≠ 0 ∧ s.time ≤ c.expiry) then s
    else
      let s : State := { s with calls := s.calls.filter fun k => k.id != id }
      match s.blockAt? c.q c.lseq c.idx with
      | none => s
      | some b =>
        let arrive : Block → Block := fun b =>
          match c.bar with
          | some off => updateObj b off objArrive
          | none => b
        atBlock s b.bid fun s =>
          let s := s.modBlock b.bid arrive
          wakeLimits (finishOp (noteSample s 0x06 c.stack 1 (s.time - c.since)) b.bid c.team c.op 3 none) b.bid

/-- NMCALL_ARRIVE. -/
def execNmcallArrive (call : Nat) (s : State) : Host.Outcome State Fault Refusal := .next (nmcallArrive s call)

/-- The station blocks and calls of a launch stop at once (R379). -/
def dropCalls (s : State) (q lseq : Nat) : State :=
  { s with
    blocks := s.blocks.filter fun b => !(b.site.isStation && b.q == q && b.lseq == lseq)
    calls := s.calls.filter fun c => !(c.q == q && c.lseq == lseq) }

/-! Ending a call (R380). -/

def opNmret (a b : Opnd) : Op where
  form := ctlForm [fA a 1, fB b 1] [] .run true
  eff := fun c =>
    let off := (c.uni 0 a).toNat
    let n := (c.uni 1 b).toNat
    let low := c.e.low c.m
    if c.e.blk.ret.isSome || decide (64 < n) then .trap cILLOP 0 low
    else if Config.stationScratch < off + n then .trap cSPWIN (localAddr off) low
    else
      let data := c.e.blk.bytes off n
      .done (c.exitLanes (c.s.modBlock c.e.who.bid fun b => { b with ret := some data }))
/-- R380. -/
def execNmret (h : Hdr) (a b : Opnd) (s : State) : Host.Outcome State Fault Refusal := stationOnly (opNmret a b) h s

/-! Gathering rows (R382, R383). -/

/-- THE CHECKS of `RGATH` before any row is read. -/
def rgathCheck (b : Block) (off : Nat) : Option (Nat × W64) :=
  let g := gatherOf (b.copyOut off 64)
  let local_ := decide (Config.localWindow ≤ g.packed) && decide (g.packed < 2 ^ 56)
  firstFail
    [spwinIf b [(off, 64)], illIf (g.bad false || g.cb || !local_), alignIf [(off, 64), (g.idx, 4)], alignAddr g.table 8,
     alignAddr g.packed 8, spwinIf b [(g.packed % 2 ^ 44, g.n * g.rowb)], spwinIf b [(g.idx, 4 * g.n)]]

/-- A gather in progress: the misses counted, and the cause and address of the row that was refused. -/
structure GathAcc where
  s : State
  misses : Nat
  bad : Option (Nat × Nat)

/-- Row k gathered into the local scratch, and a miss counted; nothing once a row was refused. -/
def rgathRow (bid : Nat) (la : Launch) (g : Gather) (acc : GathAcc) (k : Nat) : GathAcc :=
  match acc.bad, acc.s.block? bid with
  | none, some b =>
    let x := b.num (g.idx + 4 * k) 4
    let r := if g.valid x then x else g.defrow
    let ea := g.table + r * g.rowb
    let s := rowTouch acc.s b la g.table g.rowb r ea
    match cleanRead b la ea g.rowb s with
    | .error (c, a) => { acc with s := s, bad := some (c, if c = cPERM then ea else a) }
    | .ok (l, s) =>
      ⟨s.modBlock bid (fun b => putScratch b (g.packed % 2 ^ 44 + k * g.rowb) l false), acc.misses + if g.valid x then 0 else 1, none⟩
  | _, _ => acc

def opRgath (d a : Opnd) : Op where
  form := ctlForm [fA a 1] [fD d 1] .run true
  eff := fun c =>
    let off := (c.uni 0 a).toNat
    match rgathCheck c.e.blk off with
    | some (k, t) => .trap k t (c.e.low c.m)
    | none =>
      let g := gatherOf (c.e.blk.copyOut off 64)
      let r := (List.range g.n).foldl (rgathRow c.e.who.bid c.e.la g) ⟨c.s, 0, none⟩
      match r.bad, r.s.block? c.e.who.bid with
      | some k, some b => .done (endCall r.s b k.1 c.e.who.team (c.e.low c.m) c.e.rcd.pc (w64 k.2))
      | _, _ => .done (c.putUni d 1 r.misses r.s)
/-- R382. -/
def execRgath (h : Hdr) (d a : Opnd) (s : State) : Host.Outcome State Fault Refusal := stationOnly (opRgath d a) h s

/-! Remote reductions (R384 to R387). -/

def dropReg (stack : Nat) : Nat := 0x180010 + 0x40 * stack

/-- A drain descriptor (R386). -/
structure Drain where
  id : Nat
  gen : Nat
  most : Nat
  rep : Nat
  zeros : Nat
  deriving DecidableEq, Repr

def drainOf (m : Memory) (o : Nat) : Drain :=
  let f : Nat → Nat → Nat := fun a n => numAt m (o + a) n
  { id := f 0 2, gen := f 2 1, most := f 4 2, rep := f 8 4, zeros := f 3 1 + f 6 2 + f 12 4 }

def noRep : Nat := 2 ^ 32 - 1

def Drain.bad (d : Drain) : Bool :=
  d.zeros != 0 || d.most == 0 || decide (256 < d.most) || (d.rep != noRep && d.rep % 16 != 0)

def drainCheck (b : Block) (off : Nat) : Option (Nat × W64) :=
  let d := drainOf b.scratch off
  firstFail
    [spwinIf b [(off, 16)], illIf d.bad, (if d.rep = noRep then none else spwinIf b [(d.rep, 32 * d.most)]), alignIf [(off, 16)]]

/-- The elements of two payloads reduced one by one: the results, the sum of their error terms' weights, and whether every
result is finite (R56). -/
def reduceEls (t op : Nat) (a b : List Nat) : List Nat × Nat × Bool :=
  (a.zip b).foldr (fun p acc =>
    let (c, e) := combine t op p.1 p.2
    match e with
    | some w => (c :: acc.1, (acc.2.1 + w) % M61, acc.2.2)
    | none => (c :: acc.1, acc.2.1, false)) ([], 0, true)

/-- `acv` and `tonly` of a closure word (R55). -/
def closAcv (w : W64) : Bool := w.getLsbD 62
def closTonly (w : W64) : Bool := w.getLsbD 63

/-- The checks of one reduction (R386, R403, R404): the results, whether the transit check holds, whether the arithmetic one
does. `ton` marks a as degraded. -/
def reduceCheck (t op : Nat) (a : List Nat) (ton : Bool) (b : List Nat) (clos : W64) : List Nat × Bool × Bool :=
  let (c, e, fin) := reduceEls t op a b
  let transit := closureWord t b (closTonly clos) == clos
  let arith := !(closAcv (closureWord t a ton) && closAcv clos && fin)
    || ((residue61 t a).1 + (residue61 t b).1) % M61 == ((residue61 t c).1 + e) % M61
  (c, transit, arith)

/-- A mismatch entry (R387). -/
def mismatchEntry (k : RedPkt) (kind now : Nat) : List Byte :=
  let h := chdrOf k.hdr
  leBytes 4 (h.id + 2 ^ 16 * h.gen) ++ leBytes 4 h.chunk ++ leBytes 1 h.hops ++ leBytes 1 kind
    ++ leBytes 2 (bitsOf h.trail.toNat (16 * ((h.hops + 3) % 4) + 15) (16 * ((h.hops + 3) % 4))) ++ leBytes 1 k.port ++ leBytes 3 0
    ++ leBytes 8 k.dst ++ leBytes 8 now

/-- A drain in progress: packets taken, packets bad, and the first poisoned address met. -/
structure DrainAcc where
  s : State
  taken : Nat
  bad : Nat
  poison : Option Nat

/-- The first poisoned line of a range of places. -/
def poisonLine (s : State) (a n : Nat) : Option Nat :=
  ((List.range ((a + n - 1) / 128 - a / 128 + 1)).find? fun i => s.mpoison.contains (a / 128 + i)).map fun i =>
    max a (128 * (a / 128 + i))

/-- One packet of the queue, in `REDRX`'s loop (R386). Destination bytes are read and written as they are stored. -/
def drainOne (d : Drain) (bid : Nat) (acc : DrainAcc) (k : RedPkt) : DrainAcc :=
  let h := chdrOf k.hdr
  if acc.poison.isSome || decide (d.most ≤ acc.taken + acc.bad) || h.id != d.id then acc
  else
    let s : State := { acc.s with redq := acc.s.redq.erase k }
    if h.gen ≠ d.gen then { acc with s := barCount s (dropReg k.stack) }
    else
      let t := h.fmt % 16
      let op := h.fmt / 16 % 4
      let n := k.count * elemSize t
      match (if k.poisoned then some k.dst else poisonLine s k.dst n) with
      | some a => { acc with s := s, poison := some a }
      | none =>
        let (c, transit, arith) := reduceCheck t op (elems t (bytesAt s.mem k.dst n)) false (elems t k.data) h.closure
        if transit && arith then
          let s : State := { s with mem := setBytes s.mem k.dst (c.flatMap (leBytes (elemSize t))) }
          let s := (linePieces k.dst (n + 1) n).foldl (fun s q => mscTouch s (q.1 / 128) 2 0 true) s
          { acc with s := s, taken := acc.taken + 1 }
        else
          let put : Block → Block := fun b =>
            if d.rep = noRep then b
            else putScratch b (d.rep + 32 * acc.bad) (mismatchEntry k (if transit then 2 else 1) s.time) false
          { acc with s := s.modBlock bid put, bad := acc.bad + 1 }

def opRedrx (d a : Opnd) : Op where
  form := ctlForm [fA a 1] [fD d 1] .run true
  eff := fun c =>
    let off := (c.uni 0 a).toNat
    match drainCheck c.e.blk off, c.e.blk.site with
    | some (k, t), _ => .trap k t (c.e.low c.m)
    | none, .core _ => .trap cILLOP 0 (c.e.low c.m)
    | none, .station stack _ =>
      let dr := drainOf c.e.blk.scratch off
      let r := (c.e.s.redq.filter fun k => k.stack == stack).foldl (drainOne dr c.e.who.bid) ⟨c.s, 0, 0, none⟩
      match r.poison with
      | some a => .done (endCall r.s c.e.blk cPOISON c.e.who.team (c.e.low c.m) c.e.rcd.pc (w64 a))
      | none => .done (c.putUni d 1 (65536 * r.bad + r.taken) r.s)
/-- R386. -/
def execRedrx (h : Hdr) (d a : Opnd) (s : State) : Host.Outcome State Fault Refusal := stationOnly (opRedrx d a) h s

/-- A reduction packet as its prefix gives it (R384): the stack its destination names, and what R385 drops it for. -/
def redPacket (port : Nat) (pre : BitVec 512) (data : List Byte) : RedPkt × Bool :=
  let n := pre.toNat
  let hdr := BitVec.ofNat 256 n
  let h := chdrOf hdr
  let dst := bitsOf n 319 256
  let cnt := bitsOf n 351 320
  let len := cnt * elemSize (h.fmt % 16)
  let drop := bitsOf n 511 352 != 0 || bitsOf n 39 32 != 0 || bitsOf n 63 56 != 0 || bitsOf n 127 120 != 0
    || decide (64 ≤ h.fmt) || decide (4 < h.fmt % 16) || h.fmt / 16 == 3 || cnt == 0
    || decide (65536 < len) || decide (Config.fastBytes ≤ dst) || decide (2 ^ 36 < dst % 2 ^ 36 + len)
  (⟨bitsOf dst 38 36, port, hdr, dst, cnt, data.take len, h.poisoned⟩, drop)

/-- A message is a reduction packet for a stack. -/
def NetIn.redFor (stack : Nat) (n : NetIn) : Bool :=
  match n.msg with
  | .red pre _ _ _ => bitsOf pre.toNat 294 292 == stack
  | _ => false

end Sys2Proof.Machine
end

