-- ==== Sys2Proof/Machine/Collective.lean ====
section
/-! DEFINITION. The collective engine (R389 to R415): remote sends and reductions, triggered operations, `COLL` and `CLOSE`. -/

namespace Sys2Proof.Machine

/-! Sending (R393, R397, R398). -/

/-- A hold or a trap from the registration of a group (R390, R391). -/
def Ctx.regRes (c : Ctx) (g : GDesc) (go : Res) : Res :=
  match regCheck c.e.s c.e.la c.e.blk g with
  | .bad => .trap cILLOP 0 (c.e.low c.m)
  | .full => .hold .limit
  | .quarantine => .hold (.quarantine g.id)
  | .ok => go

/-- The pc back at the instruction, which the launch's stop leaves to be issued again. -/
def Ctx.standHere (c : Ctx) (s : State) : State :=
  c.modTeam s fun t => t.modRec c.e.who.sub fun r => { r with pc := c.e.rcd.pc }

def Ctx.ownBar (c : Ctx) (x : Opnd) : Option Nat := if opIsZero x then none else some (c.uni 2 x).toNat

/-- `CLSEND` and `CLRED`. -/
def Ctx.remoteOp (c : Ctx) (red : Bool) (a x : Opnd) : Res :=
  let b := c.e.blk
  let la := c.e.la
  let low := c.e.low c.m
  let off := (c.uni 0 a).toNat
  let bar := c.ownBar x
  let desc := b.copyOut off 64
  let d := rdescOf desc
  let g := gdescOf b.scratch d.grp
  if c.e.who.team ≠ chainTeam la then .trap cILLOP 0 low
  else match sendCheck b off desc red false bar with
    | some (k, t) => .trap k t low
    | none =>
      c.regRes g
        (if b.sendFull || cntFull c.e.team 2 then .hold .limit
        else match (if d.dstK = 1 then sendPlaces c.e.s b la d red else .ok []) with
          | .error e =>
            if e.1 = cXLATE then
              .done (engineFault (c.standHere c.s) b la c.e.who.team c.e.rcd.pc e (pagesOf d.dst d.bytes))
            else .trap e.1 (w64 e.2) low
          | .ok places =>
            let id := c.s.nextId
            let op : SendOp :=
              { id := id, team := c.e.who.team, red := red, desc := desc, fired := false, poisoned := false, parts := [],
                ok := true, pc := c.e.rcd.pc, bar := bar, lines := [], gwct := 0 }
            let s : State := { c.s with nextId := id + 1 }
            let s := c.modTeam s fun t => t.addOp id 2
            .done (sendChunk (register s la b g) b la desc op places))

def remoteForm (a x : Opnd) : Form := ctlForm [fA a 1, fC x 1] [] .zero false

def opClsend (a x : Opnd) : Op where
  form := remoteForm a x
  eff := fun c => c.remoteOp false a x
/-- R397. -/
def execClsend (h : Hdr) (a c : Opnd) (s : State) : Host.Outcome State Fault Refusal := (opClsend a c).run (issOf h) s

def opClred (a x : Opnd) : Op where
  form := remoteForm a x
  eff := fun c => c.remoteOp true a x
/-- R397. -/
def execClred (h : Hdr) (a c : Opnd) (s : State) : Host.Outcome State Fault Refusal := (opClred a c).run (issOf h) s

/-! Triggered operations (R399). -/

def opClarm (clr : Bool) (a b : Opnd) : Op where
  form := { ctlForm [fA a 1, fB b 1] [] .zero false with lat := some 4 }
  eff := fun c =>
    let n := (c.uni 1 b).toNat
    let off := (c.uni 0 a).toNat
    let blk := c.e.blk
    let desc := blk.copyOut off 64
    let d := rdescOf desc
    let g := gdescOf blk.scratch d.grp
    if 15 < n then .trap cILLOP 0 (c.e.low c.m)
    else match sendCheck blk off desc (d.top == 1) true none with
      | some (k, t) => .trap k t (c.e.low c.m)
      | none =>
        let arm : Arm := ⟨n, desc, c.e.rcd.pc, clr, true⟩
        c.regRes g
          (.done ((register c.s c.e.la blk g).modBlock blk.bid fun b =>
            { b with arms := b.arms.filter (fun k => k.n != n) ++ [arm] }))
/-- R399. -/
def execClarm (h : Hdr) (clr : Bool) (a b : Opnd) (s : State) : Host.Outcome State Fault Refusal :=
  (opClarm clr a b).run (issOf h) s

def opClarmOff (b : Opnd) : Op where
  form := { ctlForm [fB b 1] [] .zero false with lat := some 4 }
  eff := fun c =>
    let n := (c.uni 1 b).toNat
    if 15 < n then .trap cILLOP 0 (c.e.low c.m)
    else .done (c.s.modBlock c.e.who.bid (disarm n))
/-- R399. -/
def execClarmOff (h : Hdr) (b : Opnd) (s : State) : Host.Outcome State Fault Refusal := (opClarmOff b).run (issOf h) s

/-! Scoreboards (R394). -/

def sbForm (a : Opnd) : Form := { ctlForm [fA a 2] [] .zero false with lat := some 4 }

def opSbset (sb : Nat) (a : Opnd) : Op where
  form := sbForm a
  eff := fun c => .done (c.s.modBlock c.e.who.bid fun b => setSb b sb (smGet 0 b.sb sb ||| c.uni64 0 a))
/-- R394. -/
def execSbset (h : Hdr) (sb : Fin 4) (a : Opnd) (s : State) : Host.Outcome State Fault Refusal :=
  (opSbset sb.val a).run (issOf h) s

def opSbsetClr (sb : Nat) (a : Opnd) : Op where
  form := sbForm a
  eff := fun c => .done (c.s.modBlock c.e.who.bid fun b => setSb b sb (smGet 0 b.sb sb &&& ~~~(c.uni64 0 a)))
/-- R394. -/
def execSbsetClr (h : Hdr) (sb : Fin 4) (a : Opnd) (s : State) : Host.Outcome State Fault Refusal :=
  (opSbsetClr sb.val a).run (issOf h) s

def opSbsetRd (d : Opnd) (sb : Nat) : Op where
  form := { ctlForm [] [fD d 2] .run false with lat := some 4 }
  eff := fun c => .done (c.putUni d 2 (smGet 0 c.e.blk.sb sb).toNat c.s)
/-- R394. -/
def execSbsetRd (h : Hdr) (d : Opnd) (sb : Fin 4) (s : State) : Host.Outcome State Fault Refusal :=
  (opSbsetRd d sb.val).run (issOf h) s

/-! `CLOSE` (R413, R414). -/

def opClose (d a b x : Opnd) : Op where
  form := ctlForm [fA a 1, fB b 1, fC x 1] [fD d 2] .run true
  eff := fun c =>
    let off := (c.uni 0 a).toNat
    let t := (c.uni 2 x).toNat % 16
    let n := (c.uni 1 b).toNat * elemSize t
    let blk := c.e.blk
    let bad := firstFail
      [illIf (decide (4 < t) || decide (65536 < n)), (if n = 0 then none else spwinIf blk [(off, n)]),
       alignIf [(off, elemSize t)], (if n = 0 then none else (poisonUnit blk (off, n)).map fun p => (cPOISON, w64 p))]
    if c.e.probing && c.markedAt [fA a 1, fB b 1, fC x 1] (c.e.low c.m) then .done (c.putUni d 2 0 c.s)
    else match bad with
    | some (k, p) => .trap k p (c.e.low c.m)
    | none => .done (c.putUni d 2 (ownClosure t (elems t (blk.bytes off n))).toNat c.s)
/-- R413. -/
def execClose (h : Hdr) (d a b c : Opnd) (s : State) : Host.Outcome State Fault Refusal := (opClose d a b c).run (issOf h) s

/-! `COLL`: issue (R407). -/

/-- THE CHECKS of `COLL` at issue, and of its descriptor at its start. An arrival `COLL` ignores the subtree fields (R410). -/
def collCheck (b : Block) (off : Nat) (bar : Option Nat) (arr : Bool) : Option (Nat × W64) :=
  let g := gdescOf b.scratch off
  let objs := (optList bar).map fun o => (o, 16)
  firstFail
    [spwinIf b [(off, 64)], illIf (g.bad !arr || decide (b.scratchLen < 4 * g.nranks)), spwinIf b ((g.rtab, 4 * g.nranks) :: objs),
     alignIf ((off, 64) :: objs)]

/-- The groups of a block's collectives that have not retired (R407): those in progress, and those that have completed while some
team's older operation of the class holds their retirement (R18). -/
def Block.collGroups (b : Block) : List (Nat × Nat) :=
  b.colls.map CollOpS.group
    ++ (b.collsDone.filter fun k => b.teams.any fun t => t.ops.any fun o => o.id == k.1).map Prod.snd

/-- A team's part joins the earliest operation that waits for it, or makes one. -/
def joinColl (k : CollOpS) (team : Nat) : Bool := !k.started && !(k.issues.any fun i => i.1 == team)

def opColl (op : CollOp) (arr : Bool) (t : Nat) (a x : Opnd) : Op where
  form := remoteForm a x
  eff := fun c =>
    let off := (c.uni 0 a).toNat
    let bar := c.ownBar x
    let b := c.e.blk
    let team := c.e.who.team
    let g := gdescOf b.scratch off
    let key := (c.e.la.ctx, g.id)
    let low := c.e.low c.m
    match collCheck b off bar arr with
    | some (k, p) => .trap k p low
    | none =>
      c.regRes g
        (if !(b.itile t).valid then .trap cTILE (w64 t) low
        else if cntFull c.e.team 2 then .hold .limit
        else match b.colls.find? fun k => joinColl k team with
          | some k =>
            let differs := k.differs || k.op != op || k.arrival != arr || k.tile != t || k.goff != off || k.bar != bar
            let upd : CollOpS → CollOpS := fun j =>
              if j.id = k.id then { j with issues := j.issues ++ [(team, j.id)], differs := differs, pc := c.e.rcd.pc } else j
            let s := c.modTeam c.s fun t => t.addOp k.id 2
            .done (s.modBlock b.bid fun b => { b with colls := b.colls.map upd })
          | none =>
            if 4 ≤ b.collGroups.length ∨ b.collGroups.contains key = true then .hold .limit
            else
              let id := c.s.nextId
              let k : CollOpS :=
                { id := id, op := op, arrival := arr, tile := t, goff := off, bar := bar, issues := [(team, id)],
                  differs := false, pc := c.e.rcd.pc, group := key, started := false, desc := [], rows_ := [], starts := [],
                  nodes := [], sent := [], accs := [], folded := [], final := [], failed := [], mismatch := false,
                  degraded := false }
              let s : State := { c.s with nextId := id + 1 }
              let s := c.modTeam s fun t => t.addOp id 2
              .done (s.modBlock b.bid fun b => { b with colls := b.colls ++ [k] }))
/-- R407. -/
def execColl (h : Hdr) (op : CollOp) (arr : Bool) (t : Fin 8) (a c : Opnd) (s : State) : Host.Outcome State Fault Refusal :=
  (opColl op arr t.val a c).run (issOf h) s

/-! `COLL`: the start (R407, R408). -/

def State.modColl (s : State) (bid id : Nat) (f : CollOpS → CollOpS) : State :=
  s.modBlock bid fun b => { b with colls := b.colls.map fun k => if k.id = id then f k else k }

def collCode : CollOp → Nat
  | .allred => 0
  | .redsc => 1
  | .allg => 2
  | .bcast => 3

/-- What a start message compares, with the sender's subtree last. -/
def startVals (k : CollOpS) (g : GDesc) : List Nat :=
  [collCode k.op, if k.arrival then 1 else 0, g.nranks, g.r0, g.nr1, g.cr1, g.nleaf, g.fmt, g.gen, g.lbase, g.lexp]

/-- Every team of a block that has not exited has issued the operation. -/
def allIssuedColl (b : Block) (k : CollOpS) : Bool := b.teams.all fun t => t.live == 0 || k.issues.any fun i => i.1 == t.idx

/-- Messages held for a group go on (R391, R408). -/
def releaseLanding (s : State) (ctx id : Nat) : State :=
  let mine : NetIn → Bool := fun n =>
    match n.msg with
    | .chunk c => c.ctx == ctx && bitsOf c.hdr.toNat 15 0 == id
    | .start x i _ _ _ _ => x == ctx && i == id
    | _ => false
  { s with landing := s.landing.filter fun n => !mine n, inNet := s.landing.filter mine ++ s.inNet }

/-- The ranks of a group but its own. -/
def GDesc.others (g : GDesc) : List Nat := (List.range g.nranks).filter fun r => r != g.myrank

def failAll (k : CollOpS) (g : GDesc) : CollOpS :=
  { k with failed := List.range g.chunks, final := (List.range g.chunks).map fun c => (c, none) }

/-- The operation starts: it registers, takes its place in the matrix engine's order, and tells every other rank. A rank that
no route reaches is waited for no longer, and every chunk fails (R474). -/
def collStart (s : State) (b : Block) (la : Launch) (k : CollOpS) : State :=
  let g := gdescOf b.scratch k.goff
  let stop : Nat → W64 → State := fun c t =>
    engineStop s b (((k.issues.getLast?).map Prod.fst).getD 0) c k.pc t []
  if k.differs then stop cILLOP 0
  else match collCheck b k.goff k.bar k.arrival with
    | some (c, t) => stop c t
    | none =>
      match regCheck s la b g with
      | .bad => stop cILLOP 0
      | .ok =>
        let k' : CollOpS :=
          { k with started := true, desc := b.copyOut k.goff 64, group := (la.ctx, g.id), starts := [(g.myrank, startVals k g)] }
        let ins : Instr := .coll ⟨1, 0, false, none⟩ k.op k.arrival ⟨k.tile % 8, Nat.mod_lt _ (by decide)⟩ .zero .zero
        let mark : MatOp :=
          { id := k.id, team := ((k.issues.head?).map Prod.fst).getD 0, ins := ins, pc := k.pc, va := 0, vb := 0, vc := 0,
            vec := [], mask := 0, started := false, fin := false, ov := 0 }
        let s := register s la b g
        let s := (s.modColl b.bid k.id fun _ => k').modMat b.bid fun m =>
          { m with queue := m.queue ++ [mark], istat := setStat m.istat k.tile TileStat.soil }
        let s := g.others.foldl (fun s r =>
          let (dev, ctx) := rankEntry b g r
          match deliver s dev g.id fun _ => .start ctx g.id g.gen r g.myrank (startVals k g) with
          | some s => s
          | none => ({ s with out := s.out ++ [.lost dev] } : State).modColl b.bid k.id fun k =>
              { failAll k g with starts := k.starts ++ [(r, startVals k g)] }) s
        releaseLanding s la.ctx g.id
      | _ => s

/-! `COLL`: chunks (R408 to R411). -/

/-- A mismatch log entry (R405). -/
def logEntry (h : CHdr) (kind port dev row rows rank now : Nat) : List Byte :=
  leBytes 4 (h.id + 2 ^ 16 * h.gen) ++ leBytes 4 h.chunk ++ leBytes 1 h.hops ++ leBytes 1 kind
    ++ leBytes 2 (bitsOf h.trail.toNat (16 * ((h.hops + 3) % 4) + 15) (16 * ((h.hops + 3) % 4))) ++ leBytes 1 port
    ++ leBytes 1 0 ++ leBytes 2 dev ++ leBytes 1 row ++ leBytes 1 rows ++ leBytes 2 rank ++ leBytes 4 0 ++ leBytes 8 now

/-- A rejection counted and logged at the receiving rank; a log write that faults is dropped (R403, R405). -/
def reject (s : State) (ctx mlog mcap : Nat) (entry : List Byte) : State :=
  let s := barCount s 0x190004
  let may : Nat → Bool := fun va =>
    match translate s ctx va with
    | some t => t.w && t.a && ((t.phys s va).kind == .host || (keyGenOf s t.key).isSome)
    | none => false
  if mlog = 0 ∨ !may mlog then s
  else
    let i := vaNum s ctx mlog 8
    let s := vaWrite s ctx mlog (leBytes 8 (i + 1))
    if i < mcap ∧ may (mlog + 32 + 32 * i) = true then vaWrite s ctx (mlog + 32 + 32 * i) entry else s

/-- What a rank works with: its block, launch, descriptor and every rank's subtree. -/
structure CollEnv where
  b : Block
  la : Launch
  g : GDesc
  subs : List (Nat × Nat)

abbrev CollAcc := State × CollOpS

def addFailed (k : CollOpS) (c : Nat) : CollOpS := { k with failed := if k.failed.contains c then k.failed else k.failed ++ [c] }
def addFinal (k : CollOpS) (c : Nat) (v : Option (List Nat)) : CollOpS :=
  { k with final := k.final ++ [(c, v)] }

/-- The elements that a rank supplies for a chunk. -/
def ownEls (k : CollOpS) (g : GDesc) (c : Nat) : List Nat :=
  let (r0, rows) := g.rowsOf c
  (List.range (32 * rows)).map fun i => (smGet 0 k.rows_ (32 * r0 + i)).toNat

/-- A value of its own: no hop yet, degraded where an element is non-finite (R404). `lexp` is the height it stands at. -/
def ownNode (e : CollEnv) (k : CollOpS) (c : Nat) : CNode :=
  let els := ownEls k e.g c
  let h : CHdr :=
    { id := e.g.id, gen := e.g.gen, ctx := e.la.ctx, rank := 0, chunk := c, hops := 0, fmt := e.g.fmt, flags := 0,
      closure := ownClosure e.g.etype els, trail := 0 }
  ⟨c, e.g.lexp, 31, h.num, some els⟩

/-- A node is sent to a rank; failed, as a header alone (R411). A lost one fails here (R474). -/
def sendNode (e : CollEnv) (x : CNode) (res reduced : Bool) (acc : CollAcc) (to_ : Nat) : CollAcc :=
  let (s, k) := acc
  let h := chdrOf x.hdr
  let (dev, ctx) := rankEntry e.b e.g to_
  let h : CHdr :=
    { h with rank := to_, ctx := e.la.ctx, flags := (if x.els.isNone then 2 else 0) + (if res then 4 else 0),
             closure := if x.els.isNone then 0 else h.closure }
  let mk : Nat → Msg := fun port =>
    .chunk { dev := devId s, ctx := ctx, hdr := (h.hop (devId s) port reduced).num, dst := 0, places := [], mem := false,
             red := false, coll := some e.g.myrank, rbit := none, pbar := none,
             data := (x.els.getD []).flatMap (leBytes 4), src := [] }
  match deliver s dev (e.g.id ^^^ (x.chunk % 65536)) mk with
  | some s => (s, k)
  | none => ({ s with out := s.out ++ [.lost dev] }, addFinal (addFailed k x.chunk) x.chunk none)

/-- A received value folded in as the second operand, with the checks of a reducer (R403, R404). -/
def foldNode (e : CollEnv) (s : State) (x y : CNode) : State × CNode :=
  let hx := chdrOf x.hdr
  let hy := chdrOf y.hdr
  let t := e.g.etype
  match x.els, y.els with
  | some a, some b =>
    let (c, transit, arith) := reduceCheck t e.g.opr a (closTonly hx.closure) b hy.closure
    let (row, rows) := e.g.rowsOf x.chunk
    if transit && arith then
      let ton := closTonly hx.closure || closTonly hy.closure || (residue61 t c).2
      (s, { x with els := some c, hdr := ({ hy with closure := closureWord t c ton } : CHdr).num })
    else
      (reject s e.la.ctx e.g.mlog e.g.mcap
        (logEntry hy (if transit then 2 else 3) y.port (devId s) row rows e.g.myrank s.time),
        { x with els := none, hdr := y.hdr })
  | _, _ => (s, { x with els := none, hdr := y.hdr })

/-- Where a rank's climb of the leaf tree ends for now. -/
inductive Climb where
  | wait
  | up (r : Nat)
  | top
  deriving DecidableEq, Repr

/-- The rank whose subtree holds a leaf. -/
def ownerOf (subs : List (Nat × Nat)) (leaf : Nat) : Nat :=
  subs.findIdx fun p => decide (p.1 ≤ leaf) && decide (leaf < p.1 + 2 ^ p.2)

/-- The least power of two at or above n. -/
def ceilPow2 (n : Nat) : Nat := ((List.range 33).map fun i => 2 ^ i).find? (fun p => n ≤ p) |>.getD (2 ^ 33)

def CNode.isResult (x : CNode) : Bool := (chdrOf x.hdr).result

/-- A partial received from a rank for a chunk. -/
def partialFrom (k : CollOpS) (c r : Nat) : Option CNode := k.nodes.find? fun x => x.chunk == c && x.rank == r && !x.isResult

/-- The climb from a rank's subtree (R409): it folds right siblings until it meets a left one, or the root. -/
def climb (e : CollEnv) (c : Nat) : Nat → CollAcc × CNode → (CollAcc × CNode) × Climb
  | 0, a => (a, .wait)
  | fuel + 1, ((s, k), x) =>
    let w := 2 ^ x.rank
    let i := e.g.lbase / w
    if ceilPow2 e.g.nleaf ≤ w then (((s, k), x), .top)
    else if i % 2 = 1 then (((s, k), x), .up (ownerOf e.subs ((i - 1) * w)))
    else
      let sib := (i + 1) * w
      if e.g.nleaf ≤ sib ∨ x.els.isNone then climb e c fuel ((s, k), { x with rank := x.rank + 1 })
      else
        let r := ownerOf e.subs sib
        match partialFrom k c r with
        | none => (((s, k), x), .wait)
        | some y =>
          let (s, x) := foldNode e s x y
          climb e c fuel ((s, { k with folded := k.folded ++ [(c, r)] }), { x with rank := x.rank + 1 })

/-- The accumulator's folding (R410): arrivals in order, until every rank's is in or one failed. -/
def accumulate (e : CollEnv) (c : Nat) : Nat → CollAcc × CNode → (CollAcc × CNode) × Climb
  | 0, a => (a, .wait)
  | fuel + 1, ((s, k), x) =>
    if e.g.myrank ≠ 0 then (((s, k), x), .up 0)
    else if x.els.isNone ∨ e.g.nranks ≤ (k.folded.filter fun f => f.1 == c).length + 1 then (((s, k), x), .top)
    else match k.nodes.find? fun y => y.chunk == c && !y.isResult && !k.folded.contains (c, y.rank) with
      | none => (((s, k), x), .wait)
      | some y =>
        let (s, x) := foldNode e s x y
        accumulate e c fuel ((s, { k with folded := k.folded ++ [(c, y.rank)] }), x)

/-- A chunk's value is final at this rank. -/
def takeFinal (e : CollEnv) (k : CollOpS) (c : Nat) (x : CNode) : CollOpS :=
  match x.els with
  | none => addFinal (addFailed k c) c none
  | some els =>
    let ton := closTonly (chdrOf x.hdr).closure
    { addFinal k c (some els) with degraded := k.degraded || (ton && e.g.nranks != 1) }

/-- A result received for a chunk is taken. -/
def awaitResult (e : CollEnv) (k : CollOpS) (c : Nat) : CollOpS :=
  match k.nodes.find? fun x => x.chunk == c && x.isResult with
  | some x => takeFinal e k c x
  | none => k

/-- The rank that a scattered chunk's value goes to. -/
def GDesc.target (g : GDesc) (c : Nat) : Nat := c % g.nranks

/-- Progress of one chunk of a reduction. -/
def reduceStep (e : CollEnv) (acc : CollAcc) (c : Nat) : CollAcc :=
  let (s, k) := acc
  let waits := k.op == .allred || e.g.target c == e.g.myrank
  if k.sent.contains c then (s, if waits then awaitResult e k c else addFinal k c none)
  else
    let x := (k.accs.find? fun x => x.chunk == c).getD (ownNode e k c)
    let go := if k.arrival then accumulate e c (e.g.nranks + 1) (acc, x) else climb e c 40 (acc, x)
    let (((s, k), x), dest) := go
    let k : CollOpS := { k with accs := k.accs.filter (fun y => y.chunk != c) ++ [x] }
    let k := if x.els.isNone then addFailed k c else k
    let red := k.folded.any fun f => f.1 == c
    match dest with
    | .wait => (s, k)
    | .up r =>
      let (s, k) := sendNode e x false red (s, { k with sent := k.sent ++ [c] }) r
      (s, if waits ∨ k.final.any (fun f => f.1 == c) then k else addFinal k c none)
    | .top =>
      let tos := if k.op = .allred then e.g.others else (e.g.others.filter fun r => r == e.g.target c)
      let (s, k) := tos.foldl (sendNode e x true red) (s, { k with sent := k.sent ++ [c] })
      if k.final.any fun f => f.1 == c then (s, k)
      else (s, if waits then takeFinal e k c x else addFinal k c none)

/-- Progress of one chunk of `.allg` or `.bcast`. -/
def moveStep (e : CollEnv) (acc : CollAcc) (c : Nat) : CollAcc :=
  let (s, k) := acc
  let src := if k.op = .allg then e.g.target c else e.g.root
  if src = e.g.myrank then
    let (s, k) := e.g.others.foldl (sendNode e (ownNode e k c) true false) (s, k)
    (s, if k.final.any fun f => f.1 == c then k else addFinal k c none)
  else (s, awaitResult e k c)

/-- The subtrees meet R409. -/
def partitionOk (g : GDesc) (subs : List (Nat × Nat)) : Bool :=
  let T := ceilPow2 g.nleaf
  let hi : Nat × Nat → Nat := fun p => p.1 + 2 ^ p.2
  let rec disjoint : List (Nat × Nat) → Bool
    | [] => true
    | p :: l => (l.all fun q => decide (hi p ≤ q.1) || decide (hi q ≤ p.1)) && disjoint l
  subs.all (fun p => decide (hi p ≤ T) && decide (p.1 < g.nleaf)) && disjoint subs
    && (subs.foldl (fun n p => n + (min (hi p) g.nleaf - p.1)) 0) == g.nleaf

/-- A rank has what it needs to move chunks: its rows read and every start message. -/
def collGoes (b : Block) (k : CollOpS) (g : GDesc) : Bool :=
  k.started && !(b.mat.queue.any fun o => o.id == k.id) && (List.range g.nranks).all fun r => k.starts.any fun p => p.1 == r

/-- Everything a rank can do on one operation. A difference between start messages is found as soon as one shows it (R408). -/
def collProgress (s : State) (b : Block) (la : Launch) (k : CollOpS) : State :=
  let g := gdescOf k.desc 0
  let differ := k.starts.any fun p => p.2.take 9 != (startVals k g).take 9
  if k.mismatch then s
  else if k.started && differ then s.modColl b.bid k.id fun k => { failAll k g with mismatch := true }
  else if !collGoes b k g || decide (g.chunks ≤ k.failed.length) then s
  else
    let vals : Nat → List Nat := fun r => ((k.starts.find? fun p => p.1 == r).map Prod.snd).getD []
    let all := (List.range g.nranks).map vals
    let subs := all.map fun v => (v.getD 9 0, v.getD 10 0)
    let bad := (k.op == .allred || k.op == .redsc) && !k.arrival && !partitionOk g subs
    if bad then s.modColl b.bid k.id fun k => { failAll k g with mismatch := true }
    else
      let e : CollEnv := ⟨b, la, g, subs⟩
      let open_ := (List.range g.chunks).filter fun c => !(k.final.any fun f => f.1 == c)
      let one : CollAcc → Nat → CollAcc := fun acc c =>
        match k.op with
        | .allred | .redsc => reduceStep e acc c
        | .allg | .bcast => moveStep e acc c
      let (s, k') := open_.foldl one (s, k)
      s.modColl b.bid k.id fun _ => k'

/-- What a block's collectives do at once: those whose last team has issued start, and those that can go on do. -/
def collBlock (s : State) (bid : Nat) : State :=
  match s.block? bid with
  | none => s
  | some b =>
    match s.launch? b.q b.lseq with
    | none => s
    | some la =>
      let s := b.colls.foldl (fun s k =>
        match s.block? bid, s.launch? b.q b.lseq with
        | some b, some la => if !k.started && engineRuns la b && allIssuedColl b k then collStart s b la k else s
        | _, _ => s) s
      match s.block? bid with
      | none => s
      | some b => b.colls.foldl (fun s k =>
          match s.block? bid with
          | some b => collProgress s b la k
          | none => s) s

/-- The pass over every block, saved ones too where something can change (R415). -/
def collPass (s : State) : State :=
  let s := (s.blocks.filter fun b => !b.colls.isEmpty).foldl (fun s b => collBlock s b.bid) s
  (s.saved.filter fun v => v.blk.colls.any fun k => k.started).foldl (fun s v =>
    let t := collBlock { s with blocks := v.blk :: s.blocks } v.blk.bid
    if (t.block? v.blk.bid).any fun b => b.colls != v.blk.colls then atBlock s v.blk.bid fun s => collBlock s v.blk.bid else s) s

/-! Receiving (R391, R397, R403). -/

/-- A message's bytes in the landing area. -/
def landSize (n : NetIn) : Nat :=
  match n.msg with
  | .chunk c => 32 + c.data.length
  | _ => 32

def landCtx (n : NetIn) : Nat :=
  match n.msg with
  | .chunk c => c.ctx
  | .start ctx _ _ _ _ _ => ctx
  | _ => 0

/-- The message is held in its context's landing area, or waits in the link while that is full. -/
def land (s : State) (i : Nat) (n : NetIn) : State :=
  let used := ((s.landing.filter fun m => landCtx m == landCtx n).map landSize).foldl (· + ·) 0
  if 2 ^ 20 < used + landSize n then s else { s with inNet := s.inNet.eraseIdx i, landing := s.landing ++ [n] }

/-- What becomes of a message for a rank of a group. -/
inductive Recv where
  | drop | hold
  | rank (g : GroupReg)
  deriving DecidableEq, Repr

/-- What the registrations say of a message (R391). `gen` is that of a chunk; a start message goes on whatever its generation, which its rank compares (R408; log entry 120). -/
def recvAt (s : State) (ctx id : Nat) (gen : Option Nat) (rank : Nat) : Recv :=
  let same := s.groups.filter fun g => g.ctx == ctx && g.id == id
  if same.isEmpty then
    if s.quars.any fun k => k.ctx == ctx && k.id == id && !k.bundle then .drop else .hold
  else if same.any fun g => gen.any fun n => g.gen != n then .drop
  else match same.find? fun g => g.rank == rank with
    | some g => .rank g
    | none => .hold

/-- A part of an operation has an outcome; one that was lost before has had it. -/
def SendOp.answer (o : SendOp) (part : Nat) (ok : Bool) (lines : List Nat) (gwct : Nat) : SendOp :=
  if o.parts.any fun p => p.1 == part then
    { o with parts := o.parts.filter fun p => p.1 != part
             ok := o.ok && ok
             lines := o.lines ++ lines
             gwct := max o.gwct gwct }
  else o

/-- The sending operation learns the outcome of a part, on this device or another: lines of this module that it wrote, or the GWCT that
the other device's home returned (R20). -/
def ackDone (s : State) (src : List Nat) (ok : Bool) (lines : List Nat) (gwct : Nat) : State :=
  match src with
  | [q, lseq, idx, op, part] =>
    match s.blockAt? q lseq idx with
    | none => s
    | some b =>
      let fin : SendOp → SendOp := fun o => if o.id = op then o.answer part ok lines gwct else o
      atBlock s b.bid fun s => s.modBlock b.bid fun b => { b with sends := b.sends.map fin }
  | _ => s

/-- The receiver answers the sending device; lines it wrote are answered by their homes (R235). -/
def ackSend (s : State) (dev : Nat) (src : List Nat) (ok : Bool) (lines : List Nat) : State :=
  if dev = devId s then ackDone s src ok lines 0
  else
    let r := answered s lines 0
    (deliver r.2 dev 0 fun _ => .ack src ok r.1).getD r.2

/-- A place of this module or its host, as a chunk names it. -/
def placePhys (pl key ilv : Nat) : Phys :=
  if bitsOf pl 51 51 = 0 ∧ bitsOf pl 50 50 = 1 then ⟨.host, pl, key, false, ilv⟩ else ⟨.own, pl % 2 ^ 41, key, false, ilv⟩

/-- A memory chunk written at its home (R397): the state, and the lines of it. -/
def writePlaces (s : State) (c : Chunk) (pois : Bool) : State × List Nat :=
  let ps := c.places.map fun p => (placePhys p.1 p.2.1 p.2.2.1, p.2.2.2)
  let s := (ps.foldl (fun acc p => (homeWrite acc.1 p.1 c.ctx (acc.2.take p.2) pois, acc.2.drop p.2)) (s, c.data)).1
  let s := if pois then s else (coveredLines ps).foldl clearPoison s
  (s, (ps.map fun p => p.1.line).dedup)

/-- What a peer scratchpad's chunk writes (R397), or the kind of check it fails; 0 for a range outside the scratchpad. -/
def peerValue (b : Block) (c : Chunk) : Except Nat (List Byte × Bool) :=
  let h := chdrOf c.hdr
  let t := h.fmt % 16
  let n := c.data.length
  if b.scratchLen < c.dst + n then .error 0
  else if !c.red then .ok (c.data, h.poisoned)
  else
    let (v, transit, arith) := reduceCheck t (h.fmt / 16 % 4) (elems t (b.bytes c.dst n)) false (elems t c.data) h.closure
    if !transit then .error 3
    else if !arith then .error 2
    else .ok (v.flatMap (leBytes (elemSize t)), h.poisoned || scratchPoison b c.dst n)

/-- The receiver bit and barrier object follow the bytes (R397). -/
def peerAfter (c : Chunk) (b : Block) : Block :=
  let b := match c.rbit with
    | some r => setSb b (r / 64 % 4) (smGet 0 b.sb (r / 64 % 4) ||| w64 (2 ^ (r % 64)))
    | none => b
  match c.pbar with
  | some o => if o % 16 = 0 ∧ o + 16 ≤ b.scratchLen then updateObj b o (objDeliver c.data.length) else b
  | none => b

/-- The port's check (R403). -/
def portFails (port : Nat) (c : Chunk) : Bool :=
  let h := chdrOf c.hdr
  port != 31 && !h.failed && closureWord (h.fmt % 16) (elems (h.fmt % 16) c.data) (closTonly h.closure) != h.closure

/-- A `CLSEND` or `CLRED` chunk for a rank of this device. -/
def peerChunk (s : State) (port : Nat) (c : Chunk) (g : GroupReg) : State :=
  let h := chdrOf c.hdr
  match s.blockAt? g.q g.lseq g.idx with
  | none => ackSend s c.dev c.src false []
  | some b =>
    let bad : Nat → State → State := fun kind s =>
      if kind = 0 then s else reject s g.ctx g.mlog g.mcap (logEntry h kind port (devId s) 0 0 g.rank s.time)
    let after : State → State := fun s => atBlock s b.bid fun s => s.modBlock b.bid (peerAfter c)
    match (if portFails port c then .error 1 else peerValue b c) with
    | .error k => ackSend (after (bad k s)) c.dev c.src false []
    | .ok (v, pois) =>
      let s := atBlock s b.bid fun s => s.modBlock b.bid fun b => putScratch b c.dst v pois
      ackSend (after s) c.dev c.src true []

/-- A collective's chunk at a rank: kept for its progress, failed where the port rejects it. -/
def collChunk (s : State) (port : Nat) (c : Chunk) (g : GroupReg) (sender : Nat) : State :=
  let h := chdrOf c.hdr
  match s.blockAt? g.q g.lseq g.idx with
  | none => s
  | some b =>
    match b.colls.find? fun k => k.started && k.group == (g.ctx, g.id) with
    | none => s
    | some k =>
      let d := gdescOf k.desc 0
      let (row, rows) := d.rowsOf h.chunk
      let bad := portFails port c
      let s := if bad then reject s g.ctx d.mlog d.mcap (logEntry h 1 port (devId s) row rows g.rank s.time) else s
      let x : CNode := ⟨h.chunk, sender, port, c.hdr, if bad || h.failed then none else some (elems d.etype c.data)⟩
      atBlock s b.bid fun s => s.modColl b.bid k.id fun k => { k with nodes := k.nodes ++ [x] }

/-- A start message at a rank (R408): taken by the operation in progress that has none of that sender, else held. One of an operation
that failed before it came is taken by none. -/
def startMsg (s : State) (i : Nat) (n : NetIn) (g : GroupReg) (rank : Nat) (vals : List Nat) : State :=
  match s.blockAt? g.q g.lseq g.idx with
  | none => land s i n
  | some b =>
    if b.startsLate.contains (g.ctx, g.id, rank) then
      let s : State := { s with inNet := s.inNet.eraseIdx i }
      atBlock s b.bid fun s => s.modBlock b.bid fun b => { b with startsLate := b.startsLate.erase (g.ctx, g.id, rank) }
    else match b.colls.find? fun k => k.started && k.group == (g.ctx, g.id) && !(k.starts.any fun p => p.1 == rank) with
    | none => land s i n
    | some k =>
      let s : State := { s with inNet := s.inNet.eraseIdx i }
      atBlock s b.bid fun s => s.modColl b.bid k.id fun k => { k with starts := k.starts ++ [(rank, vals)] }

/-- A message of the collective engine that has arrived. -/
def chunkReceive (s : State) (i : Nat) : State :=
  match s.inNet[i]? with
  | none => s
  | some n =>
    let s' : State := { s with inNet := s.inNet.eraseIdx i }
    match n.msg with
    | .chunk c =>
      let h := chdrOf c.hdr
      if c.mem then
        if portFails n.port c then ackSend (barCount s' 0x190004) c.dev c.src false []
        else
          let (t, lines) := writePlaces s' c h.poisoned
          ackSend t c.dev c.src true lines
      else match recvAt s c.ctx h.id (some h.gen) h.rank with
        | .drop => ackSend (barCount s' 0x190000) c.dev c.src false []
        | .hold => land s i n
        | .rank g =>
          match c.coll with
          | some r => collChunk s' n.port c g r
          | none => peerChunk s' n.port c g
    | .ack src ok gwct => ackDone s' src ok [] gwct
    | _ => s

/-- A received packet is queued on its stack in arrival order and its sender told, dropped and counted, or held by the link while that
stack's queue is full (R385, R397; log entry 121). -/
def reductionPacket (s : State) (i : Nat) : State :=
  match s.inNet[i]? with
  | none => s
  | some n =>
    match n.msg with
    | .red pre data dev src =>
      let (k, drop) := redPacket n.port pre data
      let rest : State := { s with inNet := s.inNet.eraseIdx i }
      if (s.inNet.take i).any (NetIn.redFor k.stack) then s
      else if drop then ackSend (barCount rest (dropReg k.stack)) dev src false []
      else if 4096 ≤ (s.redq.filter fun r => r.stack == k.stack).length then s
      else ackSend { rest with redq := s.redq ++ [k] } dev src true []
    | _ => s

/-- REDUCTION_PACKET. -/
def execReductionPacket (n : Nat) (s : State) : Host.Outcome State Fault Refusal := .next (reductionPacket s n)

/-- A start message that has arrived (R391, R408). -/
def startMessage (s : State) (i : Nat) : State :=
  match s.inNet[i]? with
  | none => s
  | some n =>
    match n.msg with
    | .start ctx id _ dst rank vals =>
      match recvAt s ctx id none dst with
      | .drop => barCount { s with inNet := s.inNet.eraseIdx i } 0x190000
      | .hold => land s i n
      | .rank g => startMsg s i n g rank vals
    | _ => s

/-- START_MESSAGE. -/
def execStartMessage (n : Nat) (s : State) : Host.Outcome State Fault Refusal := .next (startMessage s n)

/-- CHUNK_RECEIVE. -/
def execChunkReceive (n : Nat) (s : State) : Host.Outcome State Fault Refusal := .next (chunkReceive s n)

/-! Retirement. -/

/-- A remote operation retires (R397, R406): its sender bit, its arrival, its record. Slots that could not fire at the limit
are tested. -/
def collectiveRetire (s : State) (bid op : Nat) : State :=
  match s.anyBlock? bid with
  | none => s
  | some b =>
    match b.sends.find? fun o => o.id == op with
    | none => s
    | some o =>
      match o.done with
      | none => s
      | some ok =>
        if !o.fired && oldestOp b o.team 2 != some op then s
        else
          let d := rdescOf o.desc
          let err := if !ok then some 0x23 else if o.poisoned then some 0x21 else none
          let upd : Block → Block := fun b =>
            let b := Block.retest { b with sends := b.sends.filter fun k => k.id != op }
            let b := if d.flags.testBit 1 then setSb b (d.sbit / 64 % 4) (smGet 0 b.sb (d.sbit / 64 % 4) ||| w64 (2 ^ (d.sbit % 64)))
              else b
            match o.bar with
            | some off => updateObj b off objArrive
            | none => b
          atBlock s bid fun s =>
            let s := ackLines s bid o.team o.lines
            let s := s.modTeam bid o.team fun t => { t with gwct := max t.gwct o.gwct }
            let s := s.modBlock bid upd
            wakeLimits (if o.fired then s else finishOp s bid o.team op 2 err) bid

/-- COLLECTIVE_RETIRE. -/
def execCollectiveRetire (bid op : Nat) (s : State) : Host.Outcome State Fault Refusal := .next (collectiveRetire s bid op)

/-- The status field (R411). -/
def collStatus (k : CollOpS) : Nat :=
  let low := k.failed.foldl (fun (b : Option Nat) c =>
    match b with
    | none => some c
    | some d => some (min c d)) none
  min k.failed.length 65535 + 2 ^ 16 * ((low.getD 0) % 65536) + (if k.degraded then 2 ^ 32 else 0)
    + (if k.mismatch then 2 ^ 33 else 0)

/-- The rows of successful chunks. -/
def collRows (k : CollOpS) (g : GDesc) (m : SMap W32) : SMap W32 :=
  k.final.foldl (fun m f =>
    match f.2 with
    | none => m
    | some els => smSetList 0 m (tileKey k.tile (g.rowsOf f.1).1 0) (els.map w32)) m

/-- A collective completes (R411, R412). -/
def collComplete (s : State) (bid op : Nat) : State :=
  match s.anyBlock? bid with
  | none => s
  | some b =>
    match b.colls.find? fun k => k.id == op with
    | none => s
    | some k =>
      let g := gdescOf k.desc 0
      if !collGoes b k g && !k.mismatch then s
      else if !((List.range g.chunks).all fun c => k.final.any fun f => f.1 == c) then s
      else
        let upd : Block → Block := fun b =>
          let b : Block := { b with
            colls := b.colls.filter fun j => j.id != op
            collsDone := (b.collsDone.filter fun j => b.teams.any fun t => t.ops.any fun o => o.id == j.1) ++ [(op, k.group)]
            startsLate := b.startsLate ++ ((g.others.filter fun r => !(k.starts.any fun p => p.1 == r)).map fun r => (k.group.1, k.group.2, r))
            mat := { b.mat with tiles := collRows k g b.mat.tiles, stat := setStat b.mat.stat k.tile TileStat.soil
                                queue := b.mat.queue.filter fun o => o.id != op } }
          let b := putScratch b (k.goff + 48) (leBytes 8 (collStatus k)) false
          match k.bar with
          | some off => updateObj b off objArrive
          | none => b
        let err := if k.failed.isEmpty && !k.mismatch then none else some 0x23
        atBlock s bid fun s =>
          let s := s.modBlock bid upd
          let s := k.issues.zipIdx.foldl (fun s p =>
            finishOp s bid p.1.1 p.1.2 2 (if p.2 + 1 = k.issues.length then err else none)) s
          wakeLimits s bid

/-- COLL_COMPLETE. -/
def execCollComplete (bid op : Nat) (s : State) : Host.Outcome State Fault Refusal := .next (collComplete s bid op)

/-- A tag's quarantine ends (R391, R417): instructions that wait for the id issue again. -/
def tagQuarantineEnd (s : State) (ctx id : Nat) : State :=
  let gone : Quar → Bool := fun k => k.ctx == ctx && k.id == id && decide (k.until_ ≤ s.time)
  if s.quars.any gone then
    let ended : Wait → Bool := fun w =>
      match w with
      | .quarantine i => i == id
      | _ => false
    ({ s with quars := s.quars.filter fun k => !gone k, blocks := s.blocks.map Block.retest } : State).wakeAll ended
  else s

/-- TAG_QUARANTINE_END. -/
def execTagQuarantineEnd (ctx id : Nat) (s : State) : Host.Outcome State Fault Refusal := .next (tagQuarantineEnd s ctx id)

end Sys2Proof.Machine
end

