-- ==== Sys2Proof/Machine/Bundle.lean ====
section
/-! DEFINITION. The bundle engine: bundles across homes, versions, snapshots (R416 to R437). -/

namespace Sys2Proof.Machine

/-! Homes and lines (R418, R419). -/

/-- A line's home as (device, stack) in one number. -/
def homeOfLine (s : State) (line : Nat) : Nat :=
  let loc := 128 * line
  let dev := if bitsOf loc 51 51 = 1 then bitsOf loc 50 41 else devId s
  8 * dev + stackOf (loc % 2 ^ 41)

/-- A home on another device. -/
def homeRemote (s : State) (home : Nat) : Bool := home / 8 != devId s

/-- A line of this module or of the pod as a place; the stack stands in its bits [38:36], as under interleave code 0b10. -/
def linePhys (line key : Nat) : Phys :=
  let loc := 128 * line
  if bitsOf loc 51 51 = 1 then ⟨.pod (bitsOf loc 50 41), loc, key, false, 2⟩
  else ⟨.own, loc, key, false, 2⟩

/-- `tle` (R420). -/
def tle (t s : Nat) : Bool := decide ((s + 2 ^ 48 - t % 2 ^ 48) % 2 ^ 48 < 2 ^ 47)

def version? (s : State) (line : Nat) : Option Version := s.versions.find? fun v => v.line == line

/-- A commit time as a home compares it (R420): older than any snapshot where it is 0. The model keeps times as counts of ns; of a
commit time the low 48 bits leave the device. -/
def effTc (s : State) (tc : Nat) : Nat := if tc + 2 ^ 47 < s.time then 0 else tc

/-- The bundle register block of a home's stack (R436). -/
def bunReg (home off : Nat) : Nat := 0x1A0000 + 0x40 * (home % 8) + off

/-- The reclamation age of a home in ns (R431); another device's is its own register (log entry 123). -/
def reclaimAge (s : State) (home : Nat) : Nat :=
  1000 * (if homeRemote s home then 1 + Config.peerAge home % 1000000 else (bar s (bunReg home 8)).toNat)

/-- The meridian time nearest to now of a 48-bit count that another device sends. -/
def widenTime (now t : Nat) : Nat :=
  let d := (t + 2 ^ 48 - now % 2 ^ 48) % 2 ^ 48
  if d < 2 ^ 47 then now + d else now + d - 2 ^ 48

def Wait.isVersion : Wait → Bool
  | .version _ => true
  | _ => false

/-- A message of a bundle to a home on another device (R474): the port it takes, none where it is lost. -/
def toHome (s : State) (home tag : Nat) (m : Msg) : State × Option Nat :=
  match devPorts s (home / 8) with
  | [] => ({ s with out := s.out ++ [.lost (home / 8)] }, none)
  | live => ({ s with out := s.out ++ [.net (home / 8) (pickPort live tag) m] }, some (pickPort live tag))

/-! Slots and tags (R416, R417, R422). -/

def Slot.tag (s : Slot) : Nat := s.id + 2 ^ 16 * s.gen
def noSlot : Slot := ⟨false, false, 0, 0, 0, 0⟩
def Team.slot (t : Team) (n : Nat) : Slot := t.slots.getD n noSlot
def Team.setSlot (t : Team) (n : Nat) (k : Slot) : Team := { t with slots := t.slots.set n k }

/-- The bundle that a team's slot holds. -/
def teamBundle? (s : State) (b : Block) (team n : Nat) : Option Bundle :=
  s.bundles.find? fun k => k.dev == devId s && k.q == b.q && k.lseq == b.lseq && k.idx == b.idx && k.team == team && k.slot == n

def State.modBundle (s : State) (id : Nat) (f : Bundle → Bundle) : State :=
  { s with bundles := s.bundles.map fun k => if k.id = id then f k else k }

def bunForm (srcs : List Field) : Form := { ctlForm srcs [] .zero false with lat := some 4 }

def opBopen (n : Nat) (a : Opnd) : Op where
  form := bunForm [fA a 1]
  eff := fun c =>
    let v := (c.uni 0 a).toNat
    let id := v % 65536
    let low := c.e.low c.m
    let sl := c.e.team.slot n
    let ctx := c.e.la.ctx
    if 2 ^ 24 ≤ v then .trap cILLOP 0 low
    else if sl.open_ || sl.cmt then .trap cBUNDLE (w64 sl.tag) low
    else if c.e.s.bundles.any fun k => k.dev == devId c.e.s && k.ctx == ctx && k.tag == id then .trap cBUNDLE (w64 v) low
    else if c.e.s.quars.any fun k => k.bundle && k.ctx == ctx && k.id == id then .hold (.quarantine id)
    else
      let b := c.e.blk
      let bun : Bundle :=
        { id := c.s.nextId, dev := devId c.s, q := b.q, lseq := b.lseq, idx := b.idx, team := c.e.who.team, slot := n, ctx := ctx,
          tag := id, gen := v / 65536, op := 0, since := 0, phase := .open_, homes := [], prepared := [], acked := [], asked := [], stbs := [],
          lost := false, newest := 0, expiry := 0, remote := false, tc := 0, man := [] }
      let s : State := { c.s with nextId := c.s.nextId + 1, bundles := c.s.bundles ++ [bun] }
      .done (c.modTeam s fun t => t.setSlot n ⟨true, false, 0, 0, v / 65536, id⟩)
/-- R422. -/
def execBopen (h : Hdr) (n : Fin 4) (a : Opnd) (s : State) : Host.Outcome State Fault Refusal :=
  (opBopen n.val a).run (issOf h) s

/-! Writing (R423). -/

/-- Bytes laid into a line under a mask. -/
def maskBits (o n : Nat) : BitVec 128 := BitVec.ofNat 128 ((2 ^ n - 1) * 2 ^ o)

/-- A lane's bytes enter the pending version of their line. -/
def putPend (l : List PendLine) (bun ctx key : Nat) (va line o : Nat) (bytes : List Byte) : List PendLine :=
  let it : PendLine → Bool := fun k => k.bun == bun && k.line == line
  let add : PendLine → PendLine := fun k =>
    if it k then { k with mask := k.mask ||| maskBits o bytes.length, data := spliceLine k.data o bytes } else k
  if l.any it then l.map add
  else l ++ [⟨bun, line, ctx, key, w64 (va / 128 * 128), maskBits o bytes.length, spliceLine 0 o bytes, .pending⟩]

/-- A home of this module has room for n more pending lines (R423). -/
def pendRoom (s : State) (home n : Nat) : Bool :=
  decide ((s.pendLines.filter fun p => homeOfLine s p.line == home).length + n ≤ 65536)

/-- An `STB`'s line goes to its home on another device, which is to accept it (R424). -/
def tellStb (bun : Bundle) (s : State) (line : Nat) : State :=
  match s.pendLines.find? fun p => p.bun == bun.id && p.line == line with
  | none => s
  | some p =>
    let home := homeOfLine s line
    let r := toHome s home bun.tag (.stb (devId s) bun.ctx bun.tag bun.gen line p.key p.va p.mask p.data)
    match r.2 with
    | some port => r.1.modBundle bun.id fun k => { k with stbs := k.stbs ++ [(home, port)] }
    | none => r.1.modBundle bun.id fun k => { k with lost := true }

/-- Lines of accesses in memory: place of the line, and whether it may be a bundle line. -/
def accLine (q : Acc) : Option (Nat × Tr × Phys) :=
  match q.2.2 with
  | .scr _ _ => none
  | .mem t p => some (p.line, t, p)

/-- An access that is no bundle line, or whose home the scope does not reach (R418, R423). -/
def notBundleLine (sc : Scope) (q : Acc) : Bool :=
  match q.2.2 with
  | .scr _ _ => true
  | .mem _ p =>
    match p.kind with
    | .own => false
    | .host => true
    | .pod _ => sc == .dev

def Ctx.stb (c : Ctx) (n : Nat) (mc : MemCtl) (a b x : Opnd) : Res :=
  let sz := sizeBytes mc.size
  let k := sizeRegs mc.size
  let low := c.e.low c.m
  if c.e.probing then
    c.probeAccess [fA a 2, fB b 1] c.lanes (c.ea true a b) sz 1 noExtra fun s _ => s
  else
    let rs := c.resolveLanes c.lanes (c.ea true a b) sz 1 noExtra
    match firstBad rs [] with
    | some f => failRes f
    | none =>
      let accs := goodAccs rs
      let sl := c.e.team.slot n
      match (if sl.open_ then teamBundle? c.e.s c.e.blk c.e.who.team n else none) with
      | none => .trap cBUNDLE (w64 sl.tag) low
      | some bun =>
        let lines := (accs.filterMap fun q => (accLine q).map Prod.fst).dedup
        let held := (c.e.s.pendLines.filter fun p => p.bun == bun.id).map PendLine.line
        let new := lines.filter fun l => !held.contains l
        let homes := (bun.homes ++ lines.map (homeOfLine c.e.s)).dedup
        if accs.any (notBundleLine mc.scope) || decide (256 < held.length + new.length) || decide (16 < homes.length) then
          .trap cBUNDLE (w64 sl.tag) low
        else
          let room : Nat → Bool := fun h => homeRemote c.e.s h || pendRoom c.e.s h (new.filter fun l => homeOfLine c.e.s l == h).length
          match new.find? fun l => !room (homeOfLine c.e.s l) with
          | some l => .hold (.version l)
          | none =>
            let put : List PendLine → Acc → List PendLine := fun ps q =>
              match accLine q with
              | none => ps
              | some (line, t, p) => putPend ps bun.id bun.ctx t.key q.2.1 line (p.loc % 128) (leBytes sz (c.rdN 2 x k q.1))
            let s : State := { c.s with pendLines := accs.foldl put c.s.pendLines }
            let s := (lines.filter fun l => homeRemote c.e.s (homeOfLine c.e.s l)).foldl (tellStb bun) s
            let s := s.modBundle bun.id fun k => { k with homes := homes }
            .done (c.modTeam s fun t =>
              t.setSlot n { sl with lines := held.length + new.length, homes := homes.length })

def opStb (n : Nat) (mc : MemCtl) (a b x : Opnd) : Op where
  form := ⟨[fA a 2, fB b 1, fC x (sizeRegs mc.size)], [], .vec, none, .own, false, false⟩
  eff := fun c => c.stb n mc a b x
/-- R423. -/
def execStb (h : Hdr) (n : Fin 4) (mc : MemCtl) (a b c : Opnd) (s : State) : Host.Outcome State Fault Refusal :=
  (opStb n.val mc a b c).run (issOf h) s

/-! Closing (R424, R427). -/

/-- `BCOMMIT` and `BABORT`: the slot closes, and the operation counts in class 5 (`%trapa` of `BUNDLE`: log entry 92). -/
def Ctx.closeSlot (c : Ctx) (n : Nat) (phase : BunPhase) : Res :=
  let sl := c.e.team.slot n
  match (if sl.open_ then teamBundle? c.e.s c.e.blk c.e.who.team n else none) with
  | none => .trap cBUNDLE (w64 sl.tag) (c.e.low c.m)
  | some bun =>
    if cntFull c.e.team 5 then .hold .limit
    else
      let id := c.s.nextId
      let s : State := { c.s with nextId := id + 1 }
      let s := c.modTeam s fun t => (t.addOp id 5).setSlot n { sl with open_ := false, cmt := true }
      .done (s.modBundle bun.id fun k => { k with op := id, since := c.s.time, phase := phase })

def opBcommit (n : Nat) : Op where
  form := bunForm []
  eff := fun c => c.closeSlot n .preparing
/-- R424. -/
def execBcommit (h : Hdr) (n : Fin 4) (s : State) : Host.Outcome State Fault Refusal := (opBcommit n.val).run (issOf h) s

def opBabort (n : Nat) : Op where
  form := bunForm []
  eff := fun c => c.closeSlot n (.aborting false)
/-- R427. -/
def execBabort (h : Hdr) (n : Fin 4) (s : State) : Host.Outcome State Fault Refusal := (opBabort n.val).run (issOf h) s

/-! The course of a commit (R424 to R427). -/

/-- The bundle's pending lines at a home. -/
def bunLines (s : State) (bun home : Nat) : List PendLine :=
  s.pendLines.filter fun p => p.bun == bun && homeOfLine s p.line == home

/-- A prepared or committed version. -/
def PendLine.fixed (p : PendLine) : Bool :=
  match p.state with
  | .pending => false
  | _ => true

/-- A home prepares a bundle (R424 step 2): none while a line holds another bundle's prepared or committed version; `full` where
its version table has no room. -/
inductive Prep where
  | wait
  | full
  | done (s : State) (newest expiry : Nat) (remote : Bool)

def prepHome (s : State) (bun home : Nat) : Prep :=
  let mine := bunLines s bun home
  let busy := mine.any fun p => s.pendLines.any fun o => o.line == p.line && o.bun != bun && o.fixed
  if busy then .wait
  else
    let fresh := mine.filter fun p => (version? s p.line).isNone
    let used := (s.versions.filter fun v => homeOfLine s v.line == home).length
    if 2 ^ 21 < used + fresh.length then .full
    else
      let newest := mine.foldl (fun n p => max n (((version? s p.line).map Version.curTc).getD 0)) 0
      let gs := s.grants.filter fun g => decide (s.time ≤ g.expiry) && mine.any fun p => p.line == g.line
      let now := s.time
      let mark : PendLine → PendLine := fun p =>
        if p.bun = bun ∧ mine.any (fun q => q.line == p.line) then { p with state := .prepared now } else p
      let s : State := { s with
        pendLines := s.pendLines.map mark
        versions := s.versions ++ fresh.map fun p => ⟨p.line, 0, 0, none⟩ }
      .done s newest (gs.foldl (fun n g => max n g.expiry) 0) (gs.any Grant.remote)

def State.bundle? (s : State) (id : Nat) : Option Bundle := s.bundles.find? fun k => k.id == id

/-- Homes in ascending order. -/
def Bundle.nextHome (k : Bundle) : Option Nat :=
  (k.homes.filter fun h => !k.prepared.contains h).foldl (fun b h =>
    match b with
    | none => some h
    | some g => some (min g h)) none

def Bundle.msg (k : Bundle) (home kind time : Nat) (man : List (W64 × Nat)) : Msg :=
  .bundle k.dev k.ctx k.tag k.gen home kind (time % 2 ^ 48) 0 man

/-- The bundle aborts as where a home is full (R426). -/
def Bundle.giveUp (k : Bundle) : Bundle := { k with phase := .aborting true, acked := [], asked := [] }

/-- A home has prepared the bundle and answered (R424). -/
def Bundle.answered (k : Bundle) (home newest expiry : Nat) (remote : Bool) : Bundle :=
  { k with prepared := k.prepared ++ [home], asked := k.asked.filter (fun a => a.1 != home), newest := max k.newest newest,
           expiry := max k.expiry expiry, remote := k.remote || remote }

/-- A home has acknowledged the commit or abort, or the message to it was lost. -/
def Bundle.ack (k : Bundle) (home : Nat) : Bundle :=
  { k with acked := k.acked ++ [home], asked := k.asked.filter fun a => a.1 != home }

def Bundle.waitsFor (k : Bundle) (home : Nat) : Bool := k.asked.any fun a => a.1 == home

/-- The manifest of a bundle (R419): its lines, or those that another device's bundle brought. -/
def manifestOf (s : State) (k : Bundle) (tc : Nat) : Manifest :=
  ⟨k.id, k.tag, k.gen, tc,
    if k.dev = devId s then (s.pendLines.filter fun p => p.bun == k.id).map fun p => (p.va, p.line) else k.man⟩

/-- A home is prepared (R424 steps 1 and 2), once every `STB` has been accepted. One on another device answers by message; one that no
message reaches counts as full (R474; log entry 122). -/
def bundlePrepare (s : State) (bun home : Nat) : State :=
  match s.bundle? bun with
  | none => s
  | some k =>
    if k.dev ≠ devId s ∨ k.phase ≠ .preparing ∨ k.nextHome ≠ some home ∨ k.stbs ≠ [] ∨ k.waitsFor home = true then s
    else if k.lost then s.modBundle bun Bundle.giveUp
    else if homeRemote s home then
      let r := toHome s home k.tag (k.msg home 0 0 (manifestOf s k 0).lines)
      match r.2 with
      | some port => r.1.modBundle bun fun k => { k with asked := k.asked ++ [(home, port)] }
      | none => r.1.modBundle bun Bundle.giveUp
    else match prepHome s bun home with
      | .wait => s
      | .full => s.modBundle bun Bundle.giveUp
      | .done s newest expiry remote => s.modBundle bun fun k => k.answered home newest expiry remote

/-- BUNDLE_PREPARE. -/
def execBundlePrepare (bun home : Nat) (s : State) : Host.Outcome State Fault Refusal := .next (bundlePrepare s bun home)

def bundleChoose (s : State) (bun : Nat) : State :=
  match s.bundle? bun with
  | none => s
  | some k =>
    if k.dev ≠ devId s ∨ k.phase ≠ .preparing ∨ k.homes = [] ∨ k.nextHome ≠ none then s
    else
      let tc := max (s.time + Config.dmax) (k.newest + 1)
      let s : State := { s with manifests := s.manifests ++ [manifestOf s k tc] }
      s.modBundle bun fun k => { k with phase := .chosen, tc := tc }

/-- BUNDLE_CHOOSE. -/
def execBundleChoose (bun : Nat) (s : State) : Host.Outcome State Fault Refusal := .next (bundleChoose s bun)

/-- A home turns a bundle's prepared versions into committed ones; a commit after its time is counted at a home of this module (R425,
R436). An `LDV` that waited there is judged again (R430). -/
def commitHome (s : State) (bun home tc : Nat) : State :=
  let s := if tc < s.time ∧ !homeRemote s home then barCount s (bunReg home 0x10) else s
  let fix : PendLine → PendLine := fun p =>
    if p.bun = bun ∧ homeOfLine s p.line = home then { p with state := .committed tc } else p
  ({ s with pendLines := s.pendLines.map fix } : State).wakeAll Wait.isVersion

/-- A message goes to a home of the bundle, which acknowledges it: at once on this module, by message from another device. A lost one
is not answered. -/
def Bundle.tell (k : Bundle) (s : State) (home kind time : Nat) : State :=
  if homeRemote s home then
    let r := toHome s home k.tag (k.msg home kind time [])
    match r.2 with
    | some port => r.1.modBundle k.id fun k => { k with asked := k.asked ++ [(home, port)] }
    | none => r.1.modBundle k.id fun k => { k.ack home with lost := true }
  else s.modBundle k.id fun k => k.ack home

def bundleCommitMessage (s : State) (bun home : Nat) : State :=
  match s.bundle? bun with
  | none => s
  | some k =>
    if k.dev ≠ devId s ∨ k.phase ≠ .chosen ∨ !k.homes.contains home ∨ k.acked.contains home ∨ k.waitsFor home = true then s
    else k.tell (commitHome s bun home k.tc) home 3 k.tc

/-- BUNDLE_COMMIT_MESSAGE. -/
def execBundleCommitMessage (bun home : Nat) (s : State) : Host.Outcome State Fault Refusal :=
  .next (bundleCommitMessage s bun home)

/-- A home discards a bundle's versions, with the entries it reserved for lines that no bundle has written (R419, R426, R427); what
waited there goes on. -/
def abortHome (s : State) (bun home : Nat) : State :=
  let drop : PendLine → Bool := fun p => p.bun == bun && homeOfLine s p.line == home
  let reserved : Version → Bool := fun v =>
    v.curTc == 0 && v.prev.isNone && s.pendLines.any fun p => drop p && p.fixed && p.line == v.line
  ({ s with pendLines := s.pendLines.filter (fun p => !drop p)
            versions := s.versions.filter fun v => !reserved v } : State).wakeAll Wait.isVersion

def bundleAbortMessage (s : State) (bun home : Nat) : State :=
  match s.bundle? bun with
  | none => s
  | some k =>
    match k.phase with
    | .aborting _ =>
      if k.dev ≠ devId s ∨ !k.homes.contains home ∨ k.acked.contains home ∨ k.waitsFor home = true ∨ k.stbs ≠ [] then s
      else k.tell (abortHome s bun home) home 4 0
    | _ => s

/-- BUNDLE_ABORT_MESSAGE. -/
def execBundleAbortMessage (bun home : Nat) (s : State) : Host.Outcome State Fault Refusal :=
  .next (bundleAbortMessage s bun home)

/-- Bytes of `b` laid over `a` under a byte mask. -/
def overlay (a b : LineData) (mask : BitVec 128) : LineData :=
  packLine ((List.range 128).map fun i => if mask.getLsbD i then lineByte b i else lineByte a i)

/-- A committed version installed (R425, R464): one write of the bundle's bytes, level-one copies invalidated. -/
def installLine (s : State) (p : PendLine) (tc : Nat) : State :=
  let ph := { linePhys p.line p.key with ilv := ((findLeaf s p.ctx p.va.toNat).map Tr.ilv).getD 2 }
  let cur := homeLine s ph
  let old := ((version? s p.line).map fun v => (v.curTc, v.man)).getD (0, 0)
  let s := homeWrite s ph p.ctx (lineBytes (overlay cur.1 p.data p.mask) 0 128) false
  let s := if p.mask = BitVec.allOnes 128 then clearPoison s ph else s
  let s := l1DropLine s (locDie ph.loc) p.line
  let v : Version := ⟨p.line, tc, p.bun, some (cur.1, cur.2, old.1, old.2)⟩
  let s : State := { s with
    versions := s.versions.filter (fun v => v.line != p.line) ++ [v]
    pendLines := s.pendLines.erase p }
  s.wakeAll Wait.isVersion

/-- The committed versions whose time has come are installed on a line. -/
def bundleInstall (s : State) (line : Nat) : State :=
  let due : PendLine → Option (PendLine × Nat) := fun p =>
    match p.state with
    | .committed tc => if p.line = line ∧ tc ≤ s.time then some (p, tc) else none
    | _ => none
  match s.pendLines.findSome? due with
  | some (p, tc) => installLine s p tc
  | none => s

/-- BUNDLE_INSTALL. -/
def execBundleInstall (line : Nat) (s : State) : Host.Outcome State Fault Refusal := .next (bundleInstall s line)

/-- `%bstat`'s status of a slot (R435). -/
def setBstat (t : Team) (n v : Nat) : Team :=
  let sh := 52 + 3 * n
  { t with bstat := (t.bstat &&& ~~~(w64 (7 * 2 ^ sh))) ||| w64 (v * 2 ^ sh) }

/-- The outcome of a bundle that can retire: its status in `%bstat`, and an error. -/
def bundleOutcome (s : State) (k : Bundle) : Option (Nat × Option Nat) :=
  let allAcked := k.homes.all fun h => k.acked.contains h
  match k.phase with
  | .preparing => if k.homes = [] then some (1, none) else none
  | .chosen =>
    let t := max k.tc k.expiry + (if k.remote then Config.skew else 0)
    if allAcked && decide (t < s.time) && !(s.pendLines.any fun p => p.bun == k.id) then
      some (1, if k.lost then some 0x40 else none)
    else none
  | .aborting full => if allAcked then some (if full then (2, some 0x40) else (3, none)) else none
  | _ => none

/-- A bundle leaves its slot: the tag goes into quarantine (R417). -/
def freeBundle (s : State) (k : Bundle) : State :=
  { s with bundles := s.bundles.filter fun j => j.id != k.id
           quars := s.quars ++ [⟨k.ctx, k.tag, true, s.time + Config.drainHorizon⟩] }

def bundleRetire (s : State) (bun : Nat) : State :=
  match s.bundle? bun with
  | none => s
  | some k =>
    if k.dev ≠ devId s then s
    else match bundleOutcome s k, s.blockAt? k.q k.lseq k.idx with
      | some (st, err), some b =>
        let lines := if st = 1 then ((s.manifests.find? fun m => m.bun == k.id).map fun m => m.lines.map Prod.snd).getD [] else []
        atBlock (freeBundle s k) b.bid fun s =>
          let s := if st = 3 then s else noteSample s 0x07 0 1 (s.time - k.since)
          let s := ackLines s b.bid k.team lines
          let s := s.modTeam b.bid k.team fun t => (setBstat t k.slot st).setSlot k.slot noSlot
          wakeLimits (finishOp s b.bid k.team k.op 5 err) b.bid
      | some _, none => freeBundle s k
      | none, _ => s

/-- BUNDLE_RETIRE. -/
def execBundleRetire (bun : Nat) (s : State) : Host.Outcome State Fault Refusal := .next (bundleRetire s bun)

/-- R431. -/
def versionReclaim (s : State) (line : Nat) : State :=
  match version? s line with
  | none => s
  | some v =>
    if hasPrepared s line || decide (s.time ≤ v.curTc + reclaimAge s (homeOfLine s line)) then s
    else { s with versions := s.versions.filter fun w => w.line != line }

/-- VERSION_RECLAIM. -/
def execVersionReclaim (line : Nat) (s : State) : Host.Outcome State Fault Refusal := .next (versionReclaim s line)

/-- R437: bundles of a launch that is given up. Open ones and commits that have not chosen their time are aborted; the others
go on to their retirement. -/
def killBundles (s : State) (q lseq : Nat) : State :=
  (s.bundles.filter fun k => k.dev == devId s && k.q == q && k.lseq == lseq).foldl (fun s k =>
    if k.phase = .chosen then s
    else
      let s := k.homes.foldl (fun s h => k.tell (abortHome s k.id h) h 4 0) s
      freeBundle s k) s

/-! Snapshots (R428 to R430). -/

def opVsnap (d : Opnd) : Op where
  form := { ctlForm [] [fD d 2] .run false with lat := some 4 }
  eff := fun c =>
    let now := c.e.s.time
    .done (c.putUni d 2 now (c.modTeam c.s fun t => { t with vs := w64 now }))
/-- R428. -/
def execVsnap (h : Hdr) (d : Opnd) (s : State) : Host.Outcome State Fault Refusal := (opVsnap d).run (issOf h) s

/-- What a snapshot finds at a line's home (R429, R430). -/
inductive Snap where
  | wait
  | frac (kind : Nat)
  /-- data, poison, commit time, manifest -/
  | at_ (data : LineData) (poison : Bool) (tc man : Nat)
  deriving DecidableEq, Repr

def snapLine (s : State) (p : Phys) (vs : Nat) : Snap :=
  let snap := vs % 2 ^ 48
  let waits := s.pendLines.any fun k => k.line == p.line &&
    match k.state with
    | .pending => false
    | .prepared tp => tle tp snap
    | .committed tc => tle tc snap
  let cur := homeLine s p
  let old : Nat → Bool := fun tc => effTc s tc == 0 || tle tc snap
  if waits then .wait
  else if tle snap s.time && decide (reclaimAge s (homeOfLine s p.line) < 2 * ((s.time + 2 ^ 48 - snap) % 2 ^ 48)) then .frac 1
  else match version? s p.line with
    | none => .at_ cur.1 cur.2 0 0
    | some v =>
      if old v.curTc then .at_ cur.1 cur.2 (effTc s v.curTc) v.man
      else match v.prev with
        | some (d, pois, tc, man) => if old tc then .at_ d pois (effTc s tc) man else .frac 0
        | none => .frac 0

/-- The first fracture is recorded in `%bstat` (R429, R435). -/
def fracture (kind ea : Nat) (t : Team) : Team :=
  if t.bstat.getLsbD 50 then t
  else
    let v := t.bstat.toNat / 2 ^ 51 * 2 ^ 51 + 2 ^ 50 + kind * 2 ^ 49 + bitsOf ea 55 7
    { t with bstat := w64 v }

/-- What a lane of `LDV` gets: bytes, or a fracture, or a wait. -/
def Ctx.ldvLane (c : Ctx) (n : Nat) (q : Acc) : Snap :=
  match q.2.2 with
  | .scr _ _ =>
    let r := (readPlace c.e.s c.e.blk c.e.la .normal q.2.1 q.2.2 n).1
    .at_ (packLine (List.replicate (q.2.1 % 128) 0 ++ r.1)) r.2 0 0
  | .mem _ p =>
    match p.kind with
    | .host => .at_ (homeLine c.e.s p).1 (homeLine c.e.s p).2 0 0
    | _ => snapLine c.e.s p c.e.team.vs.toNat

/-- Where a lane's bytes stand in the line it is given. -/
def accOff (q : Acc) : Nat :=
  match q.2.2 with
  | .scr _ _ => q.2.1 % 128
  | .mem _ p => p.loc % 128

/-- A line that only another device's home holds, at scope 4. -/
def offDevice (sc : Scope) (q : Acc) : Bool :=
  match q.2.2 with
  | .scr _ _ => false
  | .mem _ p =>
    match p.kind with
    | .pod _ => sc == .dev
    | _ => false

def Ctx.ldv (c : Ctx) (mc : MemCtl) (sx : Bool) (d a b : Opnd) (kc : Nat) : Res :=
  let n := sizeBytes mc.size
  let k := sizeRegs mc.size
  let rs := c.resolveLanes c.lanes (c.ea true a b) n 0 noExtra
  match firstBad rs [] with
  | some f => failRes f
  | none =>
    let accs := goodAccs rs
    if accs.any (offDevice mc.scope) then .trap cBUNDLE 0 (c.e.low c.m)
    else
      let got := accs.map fun q => (q, c.ldvLane n q)
      let wait : Acc × Snap → Option Nat := fun g =>
        match g.2 with
        | .wait => (accLine g.1).map Prod.fst
        | _ => none
      let bad : Acc × Snap → Bool := fun g =>
        match g.2 with
        | .at_ _ p _ _ => p
        | _ => false
      match got.findSome? wait, got.find? bad with
      | some l, _ => .hold (.version l)
      | none, some g => .trap cPOISON (w64 g.1.2.1) g.1.1
      | none, none =>
        let vals := got.filterMap fun g =>
          match g.2 with
          | .at_ data _ _ _ => some (g.1.1, loadVal mc.size sx (lineBytes data (accOff g.1) n))
          | _ => none
        let fr : Team → Acc × Snap → Team := fun t g =>
          match g.2 with
          | .frac kind => fracture kind g.1.2.1 t
          | _ => t
        let ok := vals.map Prod.fst
        let s := c.putOn ok d k (laneVal vals) c.s
        let s := c.putPred kc (fun l => ok.contains l) s
        .done (c.modTeam s fun t => got.foldl fr t)

def opLdv (mc : MemCtl) (sx : Bool) (d a b : Opnd) (kc : Nat) : Op where
  form := ⟨[fA a 2, fB b 1], [fD d (sizeRegs mc.size), .mask 2 kc], .vec, none, .zero, false, false⟩
  eff := fun c => c.ldv mc sx d a b kc
/-- R429. -/
def execLdv (h : Hdr) (mc : MemCtl) (sx : Bool) (d a b : Opnd) (kc : Fin 8) (s : State) : Host.Outcome State Fault Refusal :=
  (opLdv mc sx d a b kc.val).run (issOf h) s

/-! Fetching a bundle (R434). -/

def opBfetch (a b x : Opnd) : Op where
  form := ctlForm [fA a 1, fB b 2, fC x 1] [] .zero false
  eff := fun c =>
    let off := (c.uni 0 a).toNat
    let m := (c.uni 2 x).toNat
    match firstFail [illIf (m == 0 || decide (256 < m)), spwinIf c.e.blk [(off, 32 + 144 * m)], alignIf [(off, 16)]] with
    | some (k, t) => .trap k t (c.e.low c.m)
    | none =>
      if cntFull c.e.team 5 then .hold .limit
      else
        let id := c.s.nextId
        let o : FetchOp := ⟨id, c.e.who.team, off, c.uni64 1 b, m, c.e.team.vs, c.e.rcd.pc⟩
        let s : State := { c.s with nextId := id + 1 }
        let s := c.modTeam s fun t => t.addOp id 5
        .done (s.modBlock c.e.who.bid fun b => { b with fetches := b.fetches ++ [o] })
/-- R434. -/
def execBfetch (h : Hdr) (a b c : Opnd) (s : State) : Host.Outcome State Fault Refusal := (opBfetch a b c).run (issOf h) s

/-- The header of the output. -/
def fetchHead (tag count missing tc : Nat) : List Byte :=
  leBytes 4 tag ++ leBytes 2 count ++ leBytes 2 missing ++ leBytes 8 (tc % 2 ^ 48) ++ leBytes 16 0

/-- A line's version of a commit time: its bytes and poison. -/
def versionAt (s : State) (p : Phys) (tc : Nat) : Option (LineData × Bool) :=
  match version? s p.line with
  | none => none
  | some v =>
    if v.curTc = tc then some (homeLine s p)
    else match v.prev with
      | some (d, pois, t, _) => if t = tc then some (d, pois) else none
      | none => none

/-- A record of the output: the line's address, and its bytes where it still has them. -/
def fetchRecord (va : W64) (v : Option (LineData × Bool)) : List Byte :=
  leBytes 8 va.toNat ++ leBytes 8 (if v.isSome then 0 else 1) ++
    match v with
    | some (d, _) => lineBytes d 0 128
    | none => List.replicate 128 0

/-- The places of a manifest's lines as the context maps them, or the first that it does not. -/
def manifestPlaces (s : State) (b : Block) (la : Launch) (m : Manifest) : Except (Nat × Nat) (List (W64 × Phys)) :=
  m.lines.foldr (fun l acc =>
    match resolveMem s b la.ctx l.1.toNat 0, acc with
    | .error k, _ => .error (k, l.1.toNat)
    | .ok _, .error e => .error e
    | .ok (_, p), .ok ps => .ok ((l.1, p) :: ps)) (.ok [])

/-- The output written and the operation retired. -/
def fetchEnd (s : State) (bid : Nat) (o : FetchOp) (head : List Byte) (recs : List (W64 × Option (LineData × Bool))) : State :=
  let put : Block → Block := fun b =>
    let b : Block := { b with fetches := b.fetches.filter fun k => k.id != o.id }
    let b := putScratch b o.out head false
    recs.zipIdx.foldl (fun b r =>
      let at_ := o.out + 32 + 144 * r.2
      let bytes := fetchRecord r.1.1 r.1.2
      putScratch (putScratch b at_ (bytes.take 16) false) (at_ + 16) (bytes.drop 16)
        ((r.1.2.map Prod.snd).getD false)) b
  let pois := recs.any fun r => (r.2.map Prod.snd).getD false
  wakeLimits (finishOp (s.modBlock bid put) bid o.team o.id 5 (if pois then some 0x41 else none)) bid

def bfetchComplete (s : State) (bid op : Nat) : State :=
  match s.block? bid with
  | none => s
  | some b =>
    match b.fetches.find? fun o => o.id == op, s.launch? b.q b.lseq with
    | some o, some la =>
      let ea := o.addr.toNat
      let fail : Nat → Nat → List Nat → State := fun k a rest => engineFault s b la o.team o.pc (k, a) rest
      let none_ : State → State := fun s => fetchEnd s bid o (fetchHead 0 0 0 0) []
      if !engineRuns la b then s
      else if windowOf ea then none_ s
      else match resolveMem s b la.ctx ea 0 with
        | .error k => fail k ea []
        | .ok (_, p) =>
          if p.kind = .host then none_ s
          else match snapLine s p o.vs.toNat with
            | .wait => s
            | .frac kind => none_ (s.modTeam bid o.team (fracture kind ea))
            | .at_ _ _ tc man =>
              match (if tc = 0 then none else s.manifests.find? fun m => m.bun == man) with
              | none => none_ s
              | some m =>
                match manifestPlaces s b la m with
                | .error e => fail e.1 e.2 (m.lines.map fun l => l.1.toNat)
                | .ok ps =>
                  let recs := (ps.take o.limit).map fun l => (l.1, versionAt s l.2 m.tc)
                  let missing := (recs.filter fun r => r.2.isNone).length
                  fetchEnd s bid o (fetchHead (m.id + 2 ^ 16 * m.gen) m.lines.length missing m.tc) recs
    | _, _ => s

/-- BFETCH_COMPLETE. -/
def execBfetchComplete (bid op : Nat) (s : State) : Host.Outcome State Fault Refusal := .next (bfetchComplete s bid op)

end Sys2Proof.Machine
end

