-- ==== Sys2Proof/Machine/Link.lean ====
section
/-! DEFINITION. The link engine: requests of peers, ports, and the pod's meridian (R469 to R479). -/

namespace Sys2Proof.Machine

def lkDrop (s : State) : State := barCount s 0x1D000C

/-! Requests of peers (R470 to R472). -/

/-- A pod request at its home (R471): the place that its address names, the stack in bits [38:36] as the requester's leaf gave it
(R439; log entry 112); none where the address is no pod memory. -/
def podPlace (addr : W64) (key : Nat) : Option Phys :=
  if addr.toNat < 2 ^ 41 then some ⟨.own, addr.toNat, key, false, 2⟩ else none

/-- The atomic of a peer, performed at the home (R212): the old value, and whether it was poisoned, which leaves it (R215). -/
def podAtomic (s : State) (p : Phys) (op : AtomOp) (ctx : Nat) (data : List Byte) : List Byte × Bool × State :=
  let n := if op = .cas then data.length / 2 else data.length
  let old := homeBytes s p n
  if (homeLine s p).2 then (old, true, s)
  else
    let v := atomNew op (8 * n) (leNat old) (leNat (data.take n)) (leNat (data.drop n))
    let s := homeWrite s p ctx (leBytes n v) false
    (old, false, l1DropLine s (locDie p.loc) p.line)

/-- A read, write or atomic of a peer served at its home and answered on its port (R29): a read with the line's bytes and its lease
(R447), the others with the GWCT (R235). -/
def servePod (s : State) (port : Nat) (addr : W64) (p : Phys) (kind : Nat) (op : AtomOp) (ctx : Nat) (data : List Byte) : State :=
  let say : State → List Byte → Bool → Nat → State := fun s l pois t => { s with out := s.out ++ [.answer port addr kind l pois t] }
  if kind = 0 then
    let s := fillHome s p ctx
    let v := homeLine s p
    let lease := s.time + (if data.isEmpty then 400 else leNat data)
    let (s, t) := if grants? s p && !unlocked s then (putGrant s p.line lease true, lease) else (s, 0)
    say s (lineBytes v.1 0 128) v.2 t
  else if kind = 1 then
    let s := homeWrite s p ctx data false
    let r := answered (l1DropLine s (locDie p.loc) p.line) [p.line] 0
    say r.2 [] false r.1
  else
    let (old, pois, s) := podAtomic s p op ctx data
    let r := answered s [p.line] 0
    say r.2 old pois r.1

/-- A bundle that a home holds, by its tag (R417). -/
def foreignBundle? (s : State) (dev ctx id : Nat) : Option Bundle :=
  s.bundles.find? fun k => k.dev == dev && k.ctx == ctx && k.tag == id

/-- A message about a bundle back to the device that writes it. -/
def bundleSay (s : State) (dev ctx id gen home kind time expiry : Nat) : State :=
  match devPorts s dev with
  | [] => { s with out := s.out ++ [.lost dev] }
  | live => { s with out := s.out ++ [.net dev (pickPort live id) (.bundle dev ctx id gen home kind (time % 2 ^ 48) expiry [])] }

/-- A home of this module still holds a bundle of another device. -/
def Bundle.heldAt (k : Bundle) (home : Nat) : Bool := k.homes.contains home && !k.acked.contains home

/-- Bytes of a peer's `STB` enter this home's pending version (R423), of a bundle it begins or knows, and the home accepts them; none
while the home has no room for a new line. -/
def foreignStb (s : State) (dev ctx id gen line key : Nat) (va : W64) (mask : BitVec 128) (data : LineData) : Option State :=
  let home := homeOfLine s line
  let drop := barCount s (bunReg home 0xC)
  let add : State → Nat → Option State := fun s bun =>
    let it : PendLine → Bool := fun p => p.bun == bun && p.line == line
    if s.pendLines.any it || pendRoom s home 1 then
      let rest := s.pendLines.filter fun p => !it p
      some (bundleSay { s with pendLines := rest ++ [⟨bun, line, ctx, key, va, mask, data, .pending⟩] } dev ctx id gen home 6 0 0)
    else none
  match foreignBundle? s dev ctx id with
  | some k =>
    if k.gen ≠ gen ∨ k.dev = devId s ∨ (k.homes.contains home && k.acked.contains home) = true then some drop
    else add (s.modBundle k.id fun k => { k with homes := if k.homes.contains home then k.homes else k.homes ++ [home] }) k.id
  | none =>
    let bun := s.nextId
    let k : Bundle :=
      { id := bun, dev := dev, q := 0, lseq := 0, idx := 0, team := 0, slot := 0, ctx := ctx, tag := id, gen := gen, op := 0,
        since := 0, phase := .open_, homes := [home], prepared := [], acked := [], asked := [], stbs := [], lost := false, newest := 0,
        expiry := 0, remote := true, tc := 0, man := [] }
    add { s with nextId := bun + 1, bundles := s.bundles ++ [k] } bun

/-- A home of this module has finished with another device's bundle: it acknowledges, and the last one forgets the bundle. -/
def foreignDone (s : State) (k : Bundle) (home : Nat) : State :=
  let s := s.modBundle k.id fun k => k.ack home
  let s : State := { s with bundles := s.bundles.filter fun j => !(j.id == k.id && j.homes.all fun h => j.acked.contains h) }
  bundleSay s k.dev k.ctx k.tag k.gen home 5 0 0

/-- A message about another device's bundle at a home of this module (R424, R426, R427): none while a prepare waits. -/
def foreignMsg (s : State) (k : Bundle) (home kind time : Nat) (man : List (W64 × Nat)) : Option State :=
  if kind = 0 then
    match prepHome s k.id home with
    | .wait => none
    | .full => some (bundleSay s k.dev k.ctx k.tag k.gen home 2 0 0)
    | .done s newest expiry _ =>
      some (bundleSay (s.modBundle k.id fun k => { k with prepared := k.prepared ++ [home], man := man }) k.dev k.ctx k.tag k.gen home 1
        newest expiry)
  else if kind = 3 then
    let tc := widenTime s.time time
    let s := commitHome s k.id home tc
    let s : State := if s.manifests.any fun m => m.bun == k.id then s else { s with manifests := s.manifests ++ [manifestOf s k tc] }
    some (foreignDone s k home)
  else if kind = 4 then some (foreignDone (abortHome s k.id home) k home)
  else some s

/-- A home on another device answers for one of this device's bundles. -/
def ownAnswer (s : State) (k : Bundle) (home kind time expiry : Nat) : State :=
  if kind = 6 then
    s.modBundle k.id fun k => { k with stbs := match k.stbs.find? fun a => a.1 == home with
      | some a => k.stbs.erase a
      | none => k.stbs }
  else if !k.waitsFor home then s
  else if kind = 1 then
    let now := s.time
    let mark : PendLine → PendLine := fun p =>
      if p.bun = k.id ∧ homeOfLine s p.line = home then { p with state := .prepared now } else p
    ({ s with pendLines := s.pendLines.map mark } : State).modBundle k.id fun k =>
      k.answered home (if time = 0 then 0 else widenTime now time) expiry true
  else if kind = 2 then s.modBundle k.id Bundle.giveUp
  else if kind = 5 then s.modBundle k.id fun k => k.ack home
  else s

/-- A bundle message that arrives (R417, R424, R426); none while a prepare waits. One that names no bundle its home holds is dropped and
counted. -/
def bundleMsg (s : State) (dev ctx id gen home kind time expiry : Nat) (man : List (W64 × Nat)) : Option State :=
  if dev = devId s then
    match foreignBundle? s dev ctx id with
    | some k => some (if k.gen = gen then ownAnswer s k home kind time expiry else s)
    | none => some s
  else match foreignBundle? s dev ctx id with
    | none => some (barCount s (bunReg home 0xC))
    | some k => if k.gen ≠ gen ∨ k.heldAt home = false then some (barCount s (bunReg home 0xC)) else foreignMsg s k home kind time man

/-- A write of a message that was cut: the message goes on when its last write arrives on the port of its first (R472). -/
def pieceArrives (s : State) (i port key : Nat) (last : Bool) (whole : Msg) : State :=
  let rest := s.inNet.eraseIdx i
  let drop : Reasm → Bool := fun r => r.key == key
  let done_ : State → State := fun s =>
    if last then { s with inNet := rest.take i ++ [⟨port, whole⟩] ++ rest.drop i, reasm := s.reasm.filter fun r => !drop r } else s
  match s.reasm.find? drop with
  | none => done_ { s with inNet := rest, reasm := s.reasm ++ [⟨key, port, s.time⟩] }
  | some r =>
    if r.port = port then done_ { s with inNet := rest }
    else lkDrop { s with inNet := rest, reasm := s.reasm.filter fun r => !drop r }

/-- A request that has arrived is served, or dropped and counted; one of no type that is served is answered as unsupported (R470). Chunks, start messages and reduction packets have events of
their own; timing exchanges are taken by MERIDIAN_EXCHANGE. -/
def podRequest (s : State) (i : Nat) : State :=
  match s.inNet[i]? with
  | none => s
  | some n =>
    let s' : State := { s with inNet := s.inNet.eraseIdx i }
    match n.msg with
    | .pod addr kind op ctx key data =>
      match podPlace addr key with
      | none => lkDrop s'
      | some p =>
        if 2 < kind then lkDrop { s' with out := s'.out ++ [.answer n.port addr kind [] false 0] }
        else servePod s' n.port addr p kind op ctx data
    | .bundle dev ctx id gen home kind time expiry man => (bundleMsg s' dev ctx id gen home kind time expiry man).getD s
    | .stb dev ctx id gen line key va mask data => (foreignStb s' dev ctx id gen line key va mask data).getD s
    | .piece key last whole => pieceArrives s i n.port key last whole
    | _ => s

/-- POD_REQUEST. -/
def execPodRequest (n : Nat) (s : State) : Host.Outcome State Fault Refusal := .next (podRequest s n)

def reassemblyTimeout (s : State) (i : Nat) : State :=
  match s.reasm[i]? with
  | none => s
  | some r => if s.time < r.since + 10000 then s else lkDrop { s with reasm := s.reasm.eraseIdx i }

/-- REASSEMBLY_TIMEOUT. -/
def execReassemblyTimeout (n : Nat) (s : State) : Host.Outcome State Fault Refusal := .next (reassemblyTimeout s n)

/-! Ports (R470, R475). -/

def lkStat (s : State) : Nat := (bar s 0x1D0008).toNat
def setLkStat (s : State) (bit : Nat) (b : Bool) : State :=
  let v := lkStat s
  setBar s 0x1D0008 (w32 (if b then v ||| 2 ^ bit else v &&& (2 ^ 32 - 1 - 2 ^ bit)))
def portsUp (s : State) : Nat := lkStat s % 2 ^ 18

/-- The virtual address and the interleave through which a context's clusters reach a place, by their TLBs; else the place itself
(log entry 80). -/
def reachOf (s : State) (ctx loc : Nat) : Nat × Nat :=
  let hit : TlbEnt → Option (Nat × Nat) := fun e =>
    let t : Tr := ⟨e.leaf, e.vbase, 65536 * e.pages⟩
    ((List.range e.pages).find? fun i =>
      e.ctx == ctx && decide ((t.phys s (e.vbase + 65536 * i + loc % 65536)).loc = loc)).map fun i =>
        (e.vbase + 65536 * i + loc % 65536, t.ilv)
  (s.tlb.findSome? hit).getD (loc, 2)

/-- What an errored write to a place reports. -/
def vaOfPlace (s : State) (ctx loc : Nat) : Nat := (reachOf s ctx loc).1

/-- The port that a pod place's requests take: the frame's address chooses it (R474). -/
def placePort (s : State) (ctx loc : Nat) : Option Nat :=
  if bitsOf loc 51 51 = 1 then some (podPort s (podFrame (reachOf s ctx loc).2 loc)) else none

/-- An outstanding write or atomic of a team on a port stops its launch with POISON. -/
def portStops (s : State) (port : Nat) (b : Block) : Option (Team × Nat) :=
  let ctx := ((s.launch? b.q b.lseq).map Launch.ctx).getD 0
  b.teams.findSome? fun t => (t.unacked.find? fun l => placePort s ctx (128 * l) == some port).map fun l => (t, 128 * l)

/-- Parts of a remote operation in flight over a port are lost (R475). -/
def SendOp.losePort (port : Nat) (o : SendOp) : SendOp :=
  if o.parts.any fun p => p.2 == port then { o with parts := o.parts.filter (fun p => p.2 != port), ok := false } else o

/-- A bundle's messages over a port are lost: a commit or abort is acknowledged no more, and one not yet prepared everywhere aborts
(R474; log entry 122). -/
def Bundle.losePort (port : Nat) (k : Bundle) : Bundle :=
  let mine := (k.asked.filter fun a => a.2 == port).map Prod.fst
  let stbs := k.stbs.filter fun a => a.2 != port
  if mine.isEmpty && stbs == k.stbs then k
  else if k.phase = .preparing ∨ k.phase = .open_ then { k with stbs := stbs, asked := k.asked.filter (fun a => a.2 != port), lost := true }
  else mine.foldl Bundle.ack { k with stbs := stbs, lost := true }

def portDown (s : State) (port : Nat) : State :=
  if 18 ≤ port ∨ !(portsUp s).testBit port then s
  else
    let stops := s.blocks.filterMap fun b => (portStops s port b).map fun r => (b, r)
    let lose : Block → Block := fun b => { b with sends := b.sends.map (SendOp.losePort port) }
    let s : State := { s with
      blocks := s.blocks.map lose
      saved := s.saved.map fun v => { v with blk := lose v.blk }
      bundles := s.bundles.map (Bundle.losePort port) }
    let s := setBar (setLkStat s port false) (0x1D0040 + 4 * port) 0
    stops.foldl (fun s r =>
      match s.launch? r.1.q r.1.lseq with
      | none => s
      | some la =>
        let lines := r.2.1.unacked.filter fun l => placePort s la.ctx (128 * l) != some port
        let s := s.modTeam r.1.bid r.2.1.idx fun t => { t with unacked := lines }
        engineStop s r.1 r.2.1.idx cPOISON (((r.2.1.records.head?).map Record.pc).getD 0)
          (w64 (vaOfPlace s la.ctx r.2.2)) []) s

/-- PORT_DOWN. -/
def execPortDown (port : Nat) (s : State) : Host.Outcome State Fault Refusal := .next (portDown s port)

def portUp (s : State) (port lanes : Nat) : State :=
  if 18 ≤ port ∨ !(lanes == 1 || lanes == 2 || lanes == 4) then s
  else setBar (setLkStat s port true) (0x1D0040 + 4 * port) (w32 lanes)

/-- PORT_UP. -/
def execPortUp (port lanes : Nat) (s : State) : Host.Outcome State Fault Refusal := .next (portUp s port lanes)

/-! The pod meridian (R476 to R478). -/

/-- A write of LKDEVID or LKMCTL waits for the next exchange. -/
def lockPend : Nat := 2 ^ 64

def lkRef (s : State) : Nat := (bar s 0x1D0004).toNat % 1024
def isReference (s : State) : Bool := devId s == lkRef s

/-- Unlocked: leased copies whose home lies on another device go (R477). -/
def unlock (s : State) : State :=
  let far : CLine → Bool := fun c => c.stamp.isSome && bitsOf (128 * c.line) 51 51 == 1
  let s := setLkStat s 31 true
  dropLines s far

/-- An exchange with the neighbours: `agree` says whether a chain of live links and agreeing devices reaches a reference. -/
def meridianExchange (s : State) (agree : Bool) : State :=
  let timing : NetIn → Bool := fun n =>
    match n.msg with
    | .timing _ _ _ => true
    | _ => false
  let mine : List Out := (List.range 18).filterMap fun i =>
    if (portsUp s).testBit i then some (.net 0 i (.timing (devId s) (lkRef s) (!unlocked s))) else none
  let s : State := { s with inNet := s.inNet.filter fun n => !timing n, out := s.out ++ mine }
  if isReference s then
    let s := setLkStat (setLkStat s 31 false) 30 false
    { s with lockSince := if s.lockSince = lockPend then s.time else s.lockSince }
  else if !agree || portsUp s == 0 then { unlock (setLkStat s 30 true) with lockSince := s.time }
  else if s.lockSince = lockPend then { unlock (setLkStat s 30 false) with lockSince := s.time }
  else if (lkStat s).testBit 30 then { setLkStat s 30 false with lockSince := s.time }
  else s

/-- MERIDIAN_EXCHANGE. -/
def execMeridianExchange (agree : Bool) (s : State) : Host.Outcome State Fault Refusal := .next (meridianExchange s agree)

def lossOfLock (s : State) : State := if isReference s then s else { unlock s with lockSince := s.time }

/-- LOSS_OF_LOCK. -/
def execLossOfLock (s : State) : Host.Outcome State Fault Refusal := .next (lossOfLock s)

def relock (s : State) : State :=
  if !unlocked s || (lkStat s).testBit 30 || decide (s.time < s.lockSince + 1000000) then s else setLkStat s 31 false

/-- RELOCK. -/
def execRelock (s : State) : Host.Outcome State Fault Refusal := .next (relock s)

/-- LKDEVID, written only while every port is down (R470, R478). -/
def writeLkdevid (s : State) (val : W32) : State :=
  if portsUp s = 0 then { setBar s 0x1D0000 (val &&& 0x3FF) with lockSince := lockPend } else s
def execLkdevid (val : W32) (s : State) : Host.Outcome State Fault Refusal :=
  .next (if ready s then writeLkdevid s val else s)

/-- LKMCTL. -/
def writeLkmctl (s : State) (val : W32) : State := { setBar s 0x1D0004 (val &&& 0x3FF) with lockSince := lockPend }
def execLkmctl (val : W32) (s : State) : Host.Outcome State Fault Refusal :=
  .next (if ready s then writeLkmctl s val else s)

end Sys2Proof.Machine
end

