-- ==== Sys2Proof/Machine/MemEngine.lean ====
section
/-! DEFINITION. The memory engine's own moves: directory merges, leases, retention sleep, hot lists, scrubbing, row-cache ways
(R443 to R466). -/

namespace Sys2Proof.Machine

/-! The directory (R443). -/

/-- A core holds a copy of a line of an entry. -/
def entryHeld (s : State) (d : DirEnt) : Bool :=
  !(entryCopies s d).isEmpty

/-- Two sibling halves merge. -/
def directoryMerge (s : State) (die slice region size : Nat) : State :=
  let at_ : Nat → Option DirEnt := fun base =>
    s.dir.find? fun d => d.die == die && d.slice == slice && d.base == base && d.size == size
  match at_ region, at_ (region + size) with
  | some a, some b =>
    let old : DirEnt → Bool := fun d => decide (d.changed + 100000 ≤ s.time)
    let same := a.state == b.state && a.sharers == b.sharers && a.owner == b.owner
    let fits := decide (0 < size) && decide (2 * size ≤ 512) && region % (2 * size) == 0
    let put : DirEnt → State := fun d =>
      { s with dir := { d with base := region, size := 2 * size, changed := s.time } :: s.dir.filter fun e => !(e == a) && !(e == b) }
    if !fits then s
    else if old a && old b && same then put a
    else if !entryHeld s a then put b
    else if !entryHeld s b then put a
    else s
  | _, _ => s

/-- DIRECTORY_MERGE. -/
def execDirectoryMerge (die slice region size : Nat) (s : State) : Host.Outcome State Fault Refusal :=
  .next (directoryMerge s die slice region size)

/-! Leases (R447, R450). -/

def grantExpiry (s : State) (line : Nat) : State :=
  { s with grants := s.grants.filter fun g => !(g.line == line && decide (g.expiry < s.time)) }

/-- GRANT_EXPIRY. -/
def execGrantExpiry (line : Nat) (s : State) : Host.Outcome State Fault Refusal := .next (grantExpiry s line)

/-- A leased line that is not valid at a meridian (R448). -/
def CLine.stale (c : CLine) (now : Nat) : Bool := !((c.stamp.map fun t => stampValid t now).getD true)

/-- A slice's leased lines that are not valid are dropped. -/
def dropInvalid (s : State) (die slice : Nat) : State := dropLines s fun c => leasedIn die slice c && c.stale s.time

def leaseSweep (s : State) (die slice : Nat) : State := if sleeping s die slice then s else dropInvalid s die slice

/-- LEASE_SWEEP. -/
def execLeaseSweep (die slice : Nat) (s : State) : Host.Outcome State Fault Refusal := .next (leaseSweep s die slice)

/-- Into retention sleep, where L2CTL.rs allows it. The map holds the meridian plus one, so that 0 is a value too. -/
def sliceSleep (s : State) (die slice : Nat) : State :=
  if sleeping s die slice || decide (2 ≤ die) || decide (64 ≤ slice) || !(bar s (0x1C0000 + 0x100 * die)).getLsbD 0 then s
  else { dropInvalid s die slice with asleep := smSet 0 s.asleep (sliceKey die slice) (s.time + 1) }

/-- SLICE_SLEEP. -/
def execSliceSleep (die slice : Nat) (s : State) : Host.Outcome State Fault Refusal := .next (sliceSleep s die slice)

/-- SLICE_WAKE. -/
def execSliceWake (die slice : Nat) (s : State) : Host.Outcome State Fault Refusal := .next (wakeSlice s die slice)

/-- The visit that every awake slice pays its leased lines at least once every 16 ms, here at each multiple of 16 ms. -/
def sweepAll (s : State) (now : Nat) : State := dropLines s fun c => c.stale now && !sleeping s c.die (l2Slice c.line)

/-! Hot lists (R456, R457). -/

def mscBase (stack : Nat) : Nat := 0x1B0000 + 0x100 * stack

/-- Candidates in descending estimate, ties in ascending page. -/
def insertCand (c : Cand) : List Cand → List Cand
  | [] => [c]
  | d :: l => if d.est < c.est ∨ (d.est = c.est ∧ c.p < d.p) then c :: d :: l else d :: insertCand c l

def hotEntries (l : List Cand) : List Byte :=
  (List.range 64).flatMap fun i =>
    match l[i]? with
    | some c => leBytes 8 (c.p + 2 ^ 48 * c.est)
    | none => leBytes 8 0

/-- The meridian at which the interval of a stack's hot list ends. -/
def hotListEnd (s : State) (stack : Nat) : Nat :=
  smGet 0 s.hlSince stack + 1000 * ((bar s (mscBase stack + 8)).toNat % 2 ^ 24)

/-- The end of an interval: the list is published where HLBASE is set, and the counters and the list are cleared. -/
def hotListPublish (s : State) (stack : Nat) : State :=
  if 8 ≤ stack ∨ s.time < hotListEnd s stack then s
  else
    let base := bar64 s (mscBase stack)
    let mine := (s.cands.filter fun c => c.stack == stack).foldl (fun l c => insertCand c l) []
    let seq := (bar s (mscBase stack + 0xC)).toNat + 1
    let s :=
      if base = 0 then s
      else
        let s := paWrite s 0 0 (base + 64) (hotEntries mine)
        let s := paWrite s 0 0 base (leBytes 8 seq ++ leBytes 8 s.time ++ leBytes 1 mine.length ++ List.replicate 47 0)
        setBar s (mscBase stack + 0xC) (w32 seq)
    { s with sketch := smDrop s.sketch (stack * 16384) ((stack + 1) * 16384), cands := s.cands.filter fun c => c.stack != stack
             hlSince := smSet 0 s.hlSince stack s.time }

/-- HOT_LIST_PUBLISH. -/
def execHotListPublish (stack : Nat) (s : State) : Host.Outcome State Fault Refusal := .next (hotListPublish s stack)

/-! The scrubber (R462). -/

/-- Lines of the 1 KiB unit of a line of a page with cz set; else the line. -/
def poisonUnitLines (s : State) (line : Nat) : List Nat :=
  if (List.range 64).any fun c => czLine s c (128 * line) then (List.range 8).map fun i => line / 8 * 8 + i else [line]

/-- A line of DRAM takes the poison pattern: what the memory-side cache holds of it stands until it leaves (R452, R462). -/
def dramPoison (s : State) (line : Nat) : State :=
  let held : MscLine → Bool := fun l => l.line == line
  if s.msc.any held then { s with msc := s.msc.map fun l => if held l then { l with under := true } else l } else setMPoison s line true

/-- What the scrubber or a demand read finds in a line of DRAM. -/
def scrub (s : State) (line : Nat) (found : ScrubFound) : State :=
  let stack := stackOf (128 * line)
  if Config.moduleBytes ≤ 128 * line then s
  else match found with
    | .clean => s
    | .corrected =>
      detectError (barCount s (mscBase stack + 0x18)) ⟨2, 0, 0xFF, w64 stack, w64 (128 * line), none⟩
    | .uncorrectable =>
      let s := (poisonUnitLines s line).foldl dramPoison s
      detectError (barCount s (mscBase stack + 0x14)) ⟨2, 1, 0xFF, w64 stack, w64 (128 * line), none⟩

/-- SCRUB. -/
def execScrub (line : Nat) (found : ScrubFound) (s : State) : Host.Outcome State Fault Refusal := .next (scrub s line found)

/-! Row-cache ways (R454, R465). -/

/-- A context has a resident launch. -/
def ctxResident (s : State) (ctx : Nat) : Bool :=
  s.blocks.any fun b => (s.launch? b.q b.lseq).any fun l => l.ctx == ctx

/-- MSCWAYS of the selected context. Rows beyond the new ways go. -/
def mscways (s : State) (stack : Nat) (val : W32) : State :=
  let ctx := (bar s (mscBase stack + 0x20)).toNat % 64
  let n := val.toNat % 16
  let key := 64 * stack + ctx
  if 8 ≤ stack ∨ 8 < n ∨ ctxResident s ctx ∨ 12 < rowWaysTotal s stack - smGet 0 s.rowWays key + n then s
  else { s with rowWays := smSet 0 s.rowWays key n, rowCache := s.rowCache.filter fun r => !(r.stack == stack && r.ctx == ctx) }

/-- MSCWAYS. -/
def execMscways (stack : Nat) (val : W32) (s : State) : Host.Outcome State Fault Refusal := .next (if ready s then mscways s stack val else s)

end Sys2Proof.Machine
end

