-- ==== Sys2Proof/Machine/Packets.lean ====
section
/-! DEFINITION. Rings and packets: reading and judging the packet at a ring's head (R94 to R104), halting a queue, starting a
packet (R95, R100). -/

namespace Sys2Proof.Machine

/-! Reading a ring (R94). -/

/-- A byte, or a run of bytes, of a number with byte 0 lowest. -/
def byteOf (v i : Nat) : Nat := v / 2 ^ (8 * i) % 256
def bytesOf (v i n : Nat) : Nat := v / 2 ^ (8 * i) % 2 ^ (8 * n)

def qCtl (s : State) (q : Nat) : Nat := (bar s (qBase q + 8)).toNat
def qStat (s : State) (q : Nat) : Nat := (bar s (qBase q + 0xC)).toNat
def qRptr (s : State) (q : Nat) : Nat := (bar s (qBase q + 0x14)).toNat

/-- Bytes of a queue's ring. -/
def ringSize (s : State) (q : Nat) : Nat := 2 ^ (qCtl s q % 32)

/-- Units published and not yet taken. -/
def occupancy (s : State) (q : Nat) : Nat := (bar s (qBase q + 0x10) - bar s (qBase q + 0x14)).toNat

/-- Byte offset in the ring of unit n of the stream. -/
def unitOff (s : State) (q n : Nat) : Nat := 16 * n % ringSize s q

def ringUnit (s : State) (q n : Nat) : Nat := vaNum s (queueCtx s q) (bar64 s (qBase q) + unitOff s q n) 16

/-- The queue takes packets (R93, R102, R114). -/
def queueRuns (s : State) (q : Nat) : Bool :=
  ready s && (qCtl s q).testBit 31 && ctxEn s (queueCtx s q) && !(qStat s q).testBit 31 && !(qStat s q).testBit 30

/-! Packets (R96 to R99). -/

/-- A packet read from a ring. -/
structure Pkt where
  op : Nat
  tag : W32
  off : Nat
  len : Nat
  ovl : Bool
  irq : Bool
  deps : List (Nat × Nat)
  sig : Option (W64 × W64)
  body : List Nat
  deriving DecidableEq, Repr

/-- Minimum bodies by opcode (R99). -/
def minBody : List Nat := [0, 8, 1, 1, 1, 1, 1, 1, 0, 1, 1, 1, 1, 1, 1]

/-- Packets that wait to start for every earlier one, and that hold later ones (R100). -/
def opWaits (op : Nat) (ovl : Bool) : Bool := (op == 1 && !ovl) || [4, 5, 6, 8, 9, 12, 13, 14].contains op
def opHolds (op : Nat) : Bool := [3, 4, 5, 7, 8, 9, 13, 14].contains op

/-- The 16-byte units of an event object's address and threshold, a signal, or a range. -/
def unitAddr (u : Nat) : Nat := bytesOf u 0 8
def unitVal (u : Nat) : Nat := bytesOf u 8 8

/-- A range entry of R104, and whether its limits hold. -/
def wsOf (u : Nat) : WsEntry := ⟨unitAddr u, bytesOf u 8 4, byteOf u 12, byteOf u 13⟩
def wsBad (u : Nat) : Bool :=
  let w := wsOf u
  bytesOf u 14 2 != 0 || decide (3 < w.hint) || w.rights == 0 || decide (15 < w.rights) || w.pages == 0 || w.base % 65536 != 0

/-! The launch header (R10, R11, R103). -/

/-- The header, its units joined. -/
def hdrOf (units : List Nat) : LaunchHdr :=
  let v := (units.take 8).zipIdx.foldl (fun n p => n + p.1 * 2 ^ (128 * p.2)) 0
  let fl := byteOf v 47
  { entry := w64 (bytesOf v 0 8), w := (List.range 6).map fun i => byteOf v (8 + i), budget := byteOf v 14, ceiling := byteOf v 15,
    e := (List.range 6).map fun i => bytesOf v (16 + 4 * i) 4, scratch := bytesOf v 40 4, chain := byteOf v 44,
    prio := byteOf v 45, oppt := byteOf v 46, pre := fl.testBit 0, cores := fl.testBit 1, trap := fl.testBit 2,
    handler := w64 (bytesOf v 48 8), wslist := w64 (bytesOf v 56 8), wscount := bytesOf v 64 2, lease := bytesOf v 66 2,
    args := (List.range 12).map fun i => w32 (bytesOf v (80 + 4 * i) 4) }

/-- The reserved bits of a header, zero in a well-formed one. -/
def hdrRsvd (units : List Nat) : Bool :=
  byteOf (units.getD 2 0) 15 / 8 != 0 || bytesOf (units.getD 4 0) 4 12 != 0

/-- A malformed header. -/
def LaunchHdr.bad (h : LaunchHdr) : Bool :=
  let ws := (List.range 6).map fun i => h.width i
  h.entry.toNat % 64 != 0 || decide (10 < h.width 0) || decide (4 < h.width 1) || decide (64 < ws.foldl (· + ·) 0)
    || h.budget % 8 != 0 || h.ceiling % 8 != 0 || decide (h.ceiling < h.budget) || decide (176 < h.ceiling)
    || (List.range 6).any (fun i => h.ext i == 0 || decide (2 ^ h.width i < h.ext i))
    || decide (48 < h.ext 2) || decide (4096 < h.ext 0 * h.ext 1) || decide (Config.poolRegs < h.budget * h.ext 0 * h.ext 1)
    || decide (Config.coreScratch < h.scratch) || !(decide (h.chain < h.ext 1) || h.chain == 0xFF)
    || !(decide (h.prio ≤ 63) || h.prio == 0xFF) || decide (15 < h.oppt) || h.handler.toNat % 4 != 0
    || (!h.trap && h.handler != 0) || h.wslist.toNat % 16 != 0 || decide (256 < h.wscount)
    || !(h.lease == 0 || (decide (50 ≤ h.lease) && decide (h.lease ≤ 10000)))

/-- The units of a header's working-set list. -/
def wsUnits (s : State) (ctx : Nat) (h : LaunchHdr) : List Nat :=
  (List.range h.wscount).map fun i => vaNum s ctx (h.wslist.toNat + 16 * i) 16

/-! Judging a packet (R99, R102). -/

/-- A reserved or illegal value in the body of a packet other than `LAUNCH` (R99; MOVEHOME and DRAIN: log entry 125). -/
def bodyRsvd (op : Nat) (body : List Nat) : Bool :=
  let b := body.getD 0 0
  match op with
  | 2 | 3 | 4 => body.any wsBad
  | 5 => decide (1 < byteOf b 12) || decide (2 < byteOf b 13) || decide (7 < byteOf b 14) || byteOf b 15 != 0
  | 6 => decide (1 < unitAddr b % 8)
  | 7 => unitAddr b % 8 != 0
  | 9 => bytesOf b 12 4 != 0
  | 10 => decide (63 < byteOf b 0) || bytesOf b 1 4 != 0 || decide (1 < byteOf b 9) || bytesOf b 10 6 != 0
  | 11 => decide (63 < byteOf b 0) || bytesOf b 1 4 != 0 || decide (3 < byteOf b 9) || bytesOf b 11 5 != 0
  | 12 => unitAddr b % 8 != 0 || bytesOf b 8 8 != 0
  | 13 => decide (byteOf b 0 < 4) || decide (6 < byteOf b 0) || bytesOf b 1 15 != 0
  | 14 => decide (63 < byteOf b 0) || bytesOf b 1 3 != 0 || bytesOf b 8 8 != 0
  | _ => false

/-- A privileged packet on an unprivileged context. -/
def bodyPriv (s : State) (q op : Nat) (body : List Nat) : Bool :=
  !ctxPriv s (queueCtx s q) &&
    (op == 14 || ((op == 10 || op == 11) && queueCtx s (byteOf (body.getD 0 0) 0) != queueCtx s q))

/-- The packet at unit n of a ring, of which `occ` units are published from there on; or the cause that halts the queue, in the order
of R102. -/
def parseAt (s : State) (q n occ : Nat) : Except Nat Pkt :=
  let h := ringUnit s q n
  let op := byteOf h 0
  let len := byteOf h 1
  let fl := bytesOf h 2 2
  let deps := (if fl.testBit 1 then 1 else 0) + (if fl.testBit 2 then 1 else 0)
  let sigs := if fl.testBit 3 then 1 else 0
  if len = 0 ∨ (op < 15 ∧ len < 1 + deps + sigs + minBody.getD op 0) then .error 0x11
  else if 15 ≤ op then .error 0x12
  else if unitVal h ≠ 0 ∨ 32 ≤ fl ∨ (fl.testBit 0 ∧ op ≠ 1) then .error 0x13
  else if occ < len then .error 0x14
  else
    let units := (List.range (len - 1)).map fun i => ringUnit s q (n + 1 + i)
    let depU := units.take deps
    let sigU := (units.drop deps).take sigs
    let body := units.drop (deps + sigs)
    if depU.any (fun u => unitAddr u % 8 != 0) || sigU.any (fun u => decide (1 < unitAddr u % 8)) || bodyRsvd op body then
      .error 0x13
    else if bodyPriv s q op body then .error 0x15
    else if op = 1 ∧ (hdrRsvd body || (hdrOf body).bad || (wsUnits s (queueCtx s q) (hdrOf body)).any wsBad) then .error 0x16
    else .ok
      { op := op, tag := w32 (bytesOf h 4 4), off := unitOff s q n, len := len, ovl := fl.testBit 0, irq := fl.testBit 4,
        deps := depU.map fun u => (unitAddr u, unitVal u),
        sig := (sigU.head?).map fun u => (w64 (unitAddr u), w64 (unitVal u)), body := body }

/-- The packet at the head of a ring that holds one. -/
def headPkt (s : State) (q : Nat) : Except Nat Pkt :=
  if ringSize s q / 16 < occupancy s q then .error 0x10 else parseAt s q (qRptr s q) (occupancy s q)

/-! Halting (R102). -/

def haltQueue (s : State) (q err : Nat) : State :=
  let h := ringUnit s q (qRptr s q)
  let off := unitOff s q (qRptr s q)
  let s := setBar s (qBase q + 0xC) (w32 (2 ^ 31 + 2 ^ 30 * bitsOf (qStat s q) 30 30 + 2 ^ 16 * err))
  let s := setBar s (qBase q + 0x18) (w32 off)
  postRec s q (Rec.plain 6 (byteOf h 0) err (w32 (bytesOf h 4 4)) off 0) none

/-- The head is judged as soon as it is the head. -/
def headCheck (s : State) (q : Nat) : State :=
  if queueRuns s q && occupancy s q != 0 then
    match headPkt s q with
    | .ok _ => s
    | .error e => haltQueue s q e
  else s

/-! Starting (R95, R97, R100). -/

def depMet (s : State) (q : Nat) (d : Nat × Nat) : Bool := decide (d.2 ≤ vaNum s (queueCtx s q) d.1 8)

/-- Outstanding packets of a queue let one start. -/
def mayStart (s : State) (q : Nat) (p : Pkt) : Bool :=
  let mine := s.packets.filter fun k => k.q == q
  !(mine.any fun k => opHolds k.op) && (!opWaits p.op p.ovl || mine.isEmpty) && p.deps.all (depMet s q)

/-- The packet that a start event of an opcode starts. -/
def startOf (s : State) (q op : Nat) : Option Pkt :=
  if queueRuns s q && occupancy s q != 0 then
    match headPkt s q with
    | .ok p => if p.op = op ∧ mayStart s q p then some p else none
    | .error _ => none
  else none

/-- QRPTR advances past the packet, which is outstanding under the handle of the state before. -/
def takePacket (s : State) (q : Nat) (p : Pkt) (lseq : Nat) : State :=
  let s := setBar s (qBase q + 0x14) (w32 (qRptr s q + p.len))
  let k : Packet :=
    { id := s.nextId, q := q, off := p.off, op := p.op, tag := p.tag, irq := p.irq, sig := p.sig, lseq := lseq, body := p.body,
      prog := 0, done := false, status := 0 }
  { s with packets := s.packets ++ [k], nextId := s.nextId + 1 }

/-- A packet that starts, as read, acts and is complete with a status. The queue's next packet is judged. -/
def runTaken (s : State) (q : Nat) (p : Pkt) (act : State → State × Nat) : State :=
  let id := s.nextId
  let r := act (takePacket s q p 0)
  headCheck (packetComplete r.1 id 1 r.2) q

/-- The packet at the queue's head, where it may start and has the opcode. -/
def runPacket (s : State) (q op : Nat) (act : Pkt → State → State × Nat) : State :=
  match startOf s q op with
  | none => headCheck s q
  | some p => runTaken s q p (act p)

/-- The first body unit. -/
def Pkt.unit (p : Pkt) : Nat := p.body.getD 0 0

end Sys2Proof.Machine
end

