-- ==== Sys2Proof/Machine/Staging.lean ====
section
/-! DEFINITION. Pages on their way: holds of `PIN` and working-set lists, host translations (R105 to R108, R246), moves between
tiers and homes (R9, R101). -/

namespace Sys2Proof.Machine

/-! Requests for host pages (R106). -/

/-- A leaf names host memory; its host writes it with PA[49:16] zero (R244; DEDUCED, log entry 36). -/
def Tr.host (t : Tr) : Bool := bitsOf t.frame 51 50 == 1

/-- An ATS translation request for a page, unless one for the same operation is outstanding. -/
def askPage (s : State) (ctx va : Nat) (launch : Bool) (q key : Nat) : State :=
  let page := va / 65536
  if s.preqs.any fun r => r.ctx == ctx && r.page == page && r.launch == launch && r.q == q && r.key == key && !r.killed then s
  else
    { s with preqs := s.preqs ++ [⟨256 + s.nextId, ctx, page, launch, q, key, s.time, .ats, false⟩], nextId := s.nextId + 1,
             out := s.out ++ [.ats (ctxPasid s ctx) page] }

/-- The page-request slots in use. -/
def slotsUsed (s : State) : List Nat := (s.preqs.filter fun r => r.phase == .pri).map PageReq.slot

/-- Free slots go to waiting requests in their order (R106). -/
def grantSlots (s : State) : Nat → State
  | 0 => s
  | n + 1 =>
    match s.preqs.find? (fun r => r.phase == .waiting), (List.range 256).find? fun i => !(slotsUsed s).contains i with
    | some r, some i =>
      let go : PageReq → PageReq := fun k => if k = r then { k with slot := i, phase := .pri, since := s.time } else k
      grantSlots { s with preqs := s.preqs.map go, out := s.out ++ [.pri (ctxPasid s r.ctx) r.page] } n
    | _, _ => s

/-! Holding pages (R105). -/

/-- One attempt to hold a page. -/
inductive Hold where
  | held (s : State)
  /-- a host page that has no translation yet -/
  | ask
  | full
  | unmapped


def tryHold (s : State) (ws : Bool) (ctx va : Nat) : Hold :=
  match findLeaf s ctx va with
  | none => .unmapped
  | some t =>
    if 65535 ≤ pageHolds s (pageKey ctx va) then .full
    else if t.host && !t.pin then .ask
    else .held (takeHold s ws ctx va)

/-- The pages of a packet's ranges, in order. -/
def rangePages (body : List Nat) : List Nat := wsPages (body.map wsOf)

def State.modPacket (s : State) (id : Nat) (f : Packet → Packet) : State :=
  { s with packets := s.packets.map fun k => if k.id = id then f k else k }

/-- A `PIN` goes on over its pages (R101, R105). -/
def pinFrom (q ctx id : Nat) : List Nat → State → State
  | [], s => packetComplete s id 1 0
  | va :: rest, s =>
    match tryHold s false ctx va with
    | .held s => pinFrom q ctx id rest (s.modPacket id fun k => { k with prog := k.prog + 1 })
    | .ask => askPage s ctx va false q id
    | .full => packetComplete s id 1 9
    | .unmapped => packetComplete s id 1 1

def pinOn (s : State) (id : Nat) : State :=
  match s.packets.find? fun k => k.id == id && k.op == 3 && !k.done with
  | none => s
  | some k => pinFrom k.q (queueCtx s k.q) id ((rangePages k.body).drop k.prog) s

/-! The staging of a launch (R105). -/

def wsRights (t : Tr) (r : Nat) : Bool :=
  (!r.testBit 0 || t.r) && (!r.testBit 1 || t.bit 3) && (!r.testBit 2 || t.a) && (!r.testBit 3 || t.x)

/-- Step 1. -/
def wsGranted (s : State) (ctx : Nat) (l : List WsEntry) : Bool :=
  l.all fun w => (wsPages [w]).all fun va =>
    match findLeaf s ctx va with
    | some t => wsRights t w.rights
    | none => false

/-- A page lies in the capacity tier of this module, or in its fast tier. -/
def inCapacity (s : State) (t : Tr) (va : Nat) : Bool :=
  let p := t.phys s va
  p.kind == .own && decide (Config.fastBytes ≤ p.loc)
def inFast (s : State) (t : Tr) (va : Nat) : Bool :=
  let p := t.phys s va
  p.kind == .own && decide (p.loc < Config.fastBytes)

/-- Pages that a list asks for in the fast tier. -/
def wsFast (l : List WsEntry) : List Nat := wsPages (l.filter fun w => w.hint != 1)

/-- Step 2 is done. -/
def wsPlaced (s : State) (ctx : Nat) (l : List WsEntry) : Bool :=
  (wsFast l).all fun va =>
    match findLeaf s ctx va with
    | some t => !inCapacity s t va
    | none => true

/-- Pages of the fast tier that a list needs beside those that others hold (R105). -/
def fastNeed (s : State) (ctx : Nat) (l : List WsEntry) : Nat :=
  let here : Nat → Bool := fun va =>
    match findLeaf s ctx va with
    | some t => (t.phys s va).kind == .own
    | none => false
  let own := (((wsFast l).filter here).map (pageKey ctx)).dedup
  let held := ((s.wsHolds ++ s.pinHolds).map Prod.fst).dedup.filter fun k =>
    !own.contains k &&
      (match findLeaf s (k / 2 ^ 40) (k % 2 ^ 40 * 65536) with
        | some t => inFast s t (k % 2 ^ 40 * 65536)
        | none => false)
  own.length + held.length + (s.retired.filter fun f => decide (f * 65536 < Config.fastBytes)).length

/-- Blocks that unfenced cores of a cluster hold at once (R109). -/
def clusterHolds (s : State) (h : LaunchHdr) (cl : Nat) : Nat :=
  let regs := h.budget * h.ext 0 * h.ext 1
  let one := min (Config.rows / h.ext 1)
    (min (if h.scratch = 0 then Config.rows else Config.coreScratch / h.scratch) (if regs = 0 then Config.rows else Config.poolRegs / regs))
  ((List.range 48).filter fun i => !coreFenced s (48 * cl + i)).length * one

/-- The launch can be placed at all (R109, R262, R487). -/
def everPlaced (s : State) (la : Launch) : Bool :=
  let h := la.hdr
  let groups := (List.range 8).map fun cl => clusterHolds s h cl / h.ext 2
  let area := (bar s (ctxBase la.ctx + 0x20)).toNat * 65536
  decide (4096 + blockRecLen h ≤ area)
    && decide ((if h.cores then h.ext 3 * h.ext 4 * h.ext 5 else 1) ≤ groups.foldl (· + ·) 0)

/-- Where a launch is eligible (R105, R7 stage 3): its code is that of memory now (R89). -/
def makeEligible (s : State) (q lseq : Nat) : State :=
  match s.launch? q lseq with
  | none => s
  | some la =>
    if !everPlaced s la then endLaunch s la 1 4
    else s.modLaunch q lseq fun l =>
      { l with state := .eligible, eligAt := s.time, waitSince := s.time, waited := 0, code := imageOf s }

/-- A launch fails before it runs: at once where its packet has started, else at its start. -/
def failLaunch (s : State) (la : Launch) (status : Nat) : State :=
  if la.pid = 0 then (dropWs s la).modLaunch la.q la.lseq fun l => { l with status := status, held := 0 }
  else endLaunch s la 1 status

/-- Step 3, from a page on. -/
def wsHold (q lseq ctx : Nat) : List Nat → State → State
  | [], s =>
    let s := s.modLaunch q lseq fun l => { l with staged := true }
    match s.launch? q lseq with
    | some la => if la.pid = 0 then s else makeEligible s q lseq
    | none => s
  | va :: rest, s =>
    match tryHold s true ctx va with
    | .held s => wsHold q lseq ctx rest (s.modLaunch q lseq fun l => { l with held := l.held + 1 })
    | .ask => askPage s ctx va true q lseq
    | .full =>
      match s.launch? q lseq with
      | some la => failLaunch s la 9
      | none => s
    | .unmapped =>
      match s.launch? q lseq with
      | some la => failLaunch s la 5
      | none => s

/-- The command processor's work on a launch's list, as far as it goes now (R105). -/
def stageOn (s : State) (q lseq : Nat) : State :=
  match s.launch? q lseq with
  | none => s
  | some la =>
    if la.state ≠ .staging ∨ la.staged ∨ la.status ≠ 0 then s
    else if la.held = 0 ∧ !wsGranted s la.ctx la.ws then failLaunch s la 5
    else if 2 ^ 23 < fastNeed s la.ctx la.ws then failLaunch s la 4
    else if !wsPlaced s la.ctx la.ws then s
    else wsHold q lseq la.ctx ((wsPages la.ws).drop la.held) s

/-- A launch as its packet gives it, not yet started (R103). -/
def launchOf (s : State) (q lseq : Nat) (p : Pkt) : Launch :=
  let ctx := queueCtx s q
  let h := hdrOf p.body
  let qp := bitsOf (qCtl s q) 13 8
  { newLaunch 0 q lseq ctx p.off p.tag h [] with
    ovl := p.ovl, irq := p.irq, sig := p.sig, state := .staging, priv := ctxPriv s ctx,
    prio := if h.prio = 0xFF then qp else min h.prio qp, ws := (wsUnits s ctx h).map wsOf }

/-- The well-formed `LAUNCH` packets in a ring from unit n on, in order; a packet that is not well formed is passed over by its
length. -/
def laterLaunches (s : State) (q : Nat) : Nat → Nat → Nat → List Pkt
  | 0, _, _ => []
  | fuel + 1, n, occ =>
    if occ = 0 then []
    else match parseAt s q n occ with
      | .error _ =>
        let len := byteOf (ringUnit s q n) 1
        if len = 0 ∨ occ < len then [] else laterLaunches s q fuel ((n + len) % 2 ^ 32) (occ - len)
      | .ok p => (if p.op = 1 then [p] else []) ++ laterLaunches s q fuel ((n + p.len) % 2 ^ 32) (occ - p.len)

def qLseq (s : State) (q : Nat) : Nat := (bar s (qBase q + 0x34)).toNat

/-- A launch that has not started and whose packet this is. -/
def isUnstarted (q : Nat) (p : Pkt) (l : Launch) : Bool :=
  l.q == q && l.pid == 0 && l.off == p.off && l.tag == p.tag && l.hdr == hdrOf p.body && l.state == .staging

def unstarted? (s : State) (q : Nat) (p : Pkt) : Option Launch := s.launches.find? (isUnstarted q p)

/-- The `LAUNCH` packets of a queue that lie beyond the last started packet and below QWPTR. -/
def ahead (s : State) (q : Nat) : List Pkt := laterLaunches s q (occupancy s q) (qRptr s q) (occupancy s q)

/-- The command processor takes up the i-th `LAUNCH` that lies beyond the last started packet, of at most eight; it reads their lists in
ring order (R105). -/
def lookAhead (s : State) (q i : Nat) : State :=
  if i < 8 ∧ queueRuns s q ∧ occupancy s q ≤ ringSize s q / 16 then
    match (ahead s q)[i]? with
    | none => s
    | some p =>
      let lseq := (qLseq s q + i) % 2 ^ 32
      match unstarted? s q p with
      | some la => stageOn s q la.lseq
      | none =>
        if (s.launch? q lseq).isSome || !((ahead s q).take i).all fun k => (unstarted? s q k).isSome then s
        else stageOn { s with launches := s.launches ++ [launchOf s q lseq p] } q lseq
  else s

/-- The launch n of a queue: one whose packet has started, else one in the ring. -/
def workingSetStaging (s : State) (q n : Nat) : State :=
  match s.launch? q n with
  | some la => stageOn s q la.lseq
  | none => lookAhead s q ((n + 2 ^ 32 - qLseq s q) % 2 ^ 32)

/-- WORKING_SET_STAGING (R105). -/
def execWorkingSetStaging (q n : Nat) (s : State) : Host.Outcome State Fault Refusal := .next (workingSetStaging s q n)

/-! Answers (R107, R108). -/

/-- Launches that a failed `PIN` cancels: later ones of the queue, not started, whose lists overlap its ranges (R107). -/
def cancelLater (s : State) (q : Nat) (body : List Nat) : State :=
  let pages := rangePages body
  (ahead s q).zipIdx.foldl (fun s p =>
    let la := launchOf s q ((qLseq s q + p.2) % 2 ^ 32) p.1
    if (wsPages la.ws).any pages.contains then
      match unstarted? s q p.1 with
      | some l => (dropWs s l).modLaunch q l.lseq fun l => { l with status := 3, held := 0, staged := false }
      | none => { s with launches := s.launches ++ [{ la with status := 3 }] }
    else s) s

/-- The operation that asked for a page fails with an answer's code. -/
def failRequest (s : State) (r : PageReq) (code : Nat) : State :=
  let status := 2 + 2 ^ 12 * (code % 16)
  if r.launch then
    match s.launch? r.q r.key with
    | some la => if la.state = .staging then failLaunch s la status else s
    | none => s
  else
    match s.packets.find? fun k => k.id == r.key with
    | some k => cancelLater (packetComplete s k.id 1 status) r.q k.body
    | none => s

def dropReq (s : State) (r : PageReq) : State := { s with preqs := s.preqs.filter fun k => !(k == r) }

/-- A PRI answer (R107, R108): 0 is success, and the page is translated afresh. -/
def pageRequestAnswer (s : State) (slot code : Nat) : State :=
  match s.preqs.find? fun r => r.slot == slot && r.phase == .pri with
  | none => s
  | some r =>
    let s := dropReq s r
    let s :=
      if r.killed then
        let o := ctxBase r.ctx + 0x18
        let n := bar64 s o + 1
        setBar (setBar s o (w32 n)) (o + 4) (w32 (n / 2 ^ 32))
      else if code = 0 then askPage s r.ctx (r.page * 65536) r.launch r.q r.key
      else failRequest s r code
    grantSlots s 1

/-- PAGE_REQUEST_ANSWER (R107, R108). -/
def execPageRequestAnswer (slot code : Nat) (s : State) : Host.Outcome State Fault Refusal := .next (pageRequestAnswer s slot code)

/-- PRITO in ns (R468). -/
def pritoNs (s : State) : Nat := (bar s 0x2000000).toNat % 65536 * 1000000

/-- A slot has waited longer than PRITO (R107, R108). -/
def pageRequestTimeout (s : State) (slot : Nat) : State :=
  match s.preqs.find? fun r => r.slot == slot && r.phase == .pri with
  | none => s
  | some r =>
    if s.time ≤ r.since + pritoNs s then s
    else
      let s := dropReq s r
      grantSlots (if r.killed then s else failRequest s r 0xF) 1

/-- PAGE_REQUEST_TIMEOUT (R107, R108). -/
def execPageRequestTimeout (slot : Nat) (s : State) : Host.Outcome State Fault Refusal := .next (pageRequestTimeout s slot)

/-- Bits [hi:lo] of a leaf replaced. -/
def putField (v hi lo x : Nat) : Nat := v - 2 ^ lo * bitsOf v hi lo + 2 ^ lo * (x % 2 ^ (hi + 1 - lo))

/-- The entry that maps an address, rewritten. -/
def editLeaf (s : State) (ctx va : Nat) (f : Nat → Nat) : State :=
  match leafEntry s ctx va with
  | none => s
  | some at_ => paWrite s 0 ctx at_ (leBytes 8 (f (paNum s at_ 8)))

/-- The answer to an ATS request: the host frame PA[49:16], or from 2^34 on, that the page is absent (R106, R244). -/
def atsCompletion (s : State) (slot frame : Nat) : State :=
  match s.preqs.find? fun r => r.slot == slot && r.phase == .ats with
  | none => s
  | some r =>
    if r.killed then dropReq s r
    else if frame < 2 ^ 34 then
      let s := dropReq s r
      let s := editLeaf s r.ctx (r.page * 65536) fun v => putField (putField v 49 16 frame) 12 12 1
      if r.launch then stageOn s r.q r.key else pinOn s r.key
    else
      let s := dropReq s r
      grantSlots { s with preqs := s.preqs ++ [{ r with phase := .waiting }] } 1

/-- ATS_TRANSLATION_COMPLETION (R106). -/
def execAtsTranslationCompletion (slot frame : Nat) (s : State) : Host.Outcome State Fault Refusal :=
  .next (atsCompletion s slot frame)

/-- A page of a context loses its host translation (R246). -/
def invalidatePage (s : State) (ctx va : Nat) : State :=
  match findLeaf s ctx va with
  | none => s
  | some t =>
    if t.host && t.pin then
      let s := editLeaf s ctx va fun v => putField (putField v 49 16 0) 12 12 0
      let gone : CLine → Bool := fun c => decide (t.pa t.vbase ≤ 128 * c.line) && decide (128 * c.line < t.pa t.vbase + t.size)
      let s := (List.range (t.size / 65536)).foldl (fun s i => dropPage s ctx (t.vbase + 65536 * i)) s
      dropLines s gone
    else s

/-- An ATS invalidation of pages from a virtual address on, under a PASID (R246). -/
def atsInvalidation (s : State) (pasid va pages : Nat) : State :=
  let ctxs := (List.range 64).filter fun c => ctxEn s c && ctxPasid s c == pasid
  let s := ctxs.foldl (fun s c => (List.range pages).foldl (fun s i => invalidatePage s c (va + 65536 * i)) s) s
  { s with out := s.out ++ [.atsDone pasid va pages] }

/-- ATS_INVALIDATION (R246). -/
def execAtsInvalidation (pasid va pages : Nat) (s : State) : Host.Outcome State Fault Refusal :=
  .next (atsInvalidation s pasid va pages)

/-! Moving pages (R9, R101, R457). -/

/-- Regions of module memory that a context's table and its leaves use, from a table of a level: interleave code, address, bytes. -/
def usedAt (s : State) : Nat → Nat → List (Nat × Nat × Nat)
  | 0, table => (0, table, 256) :: (List.range 32).filterMap fun i =>
      let ent := paNum s (table + 8 * i) 8
      if ent % 4 = 3 then some (bitsOf ent 7 6, bitsOf ent 51 16 * 65536, 65536) else none
  | lvl + 1, table =>
    let n := if lvl = 0 then 512 else 8192
    (0, table, 8 * n) :: (List.range n).flatMap fun i =>
      let ent := paNum s (table + 8 * i) 8
      if ent % 2 = 0 then []
      else if bitsOf ent 1 1 = 1 then [(bitsOf ent 7 6, bitsOf ent 51 16 * 65536, levelSize (lvl + 1))]
      else if pointerOk ent lvl then usedAt s lvl (bitsOf ent 51 8 * 256) else []

/-- Every region in use: tables and pages, record areas, hot lists, retired frames. -/
def usedRegions (s : State) : List (Nat × Nat × Nat) :=
  let ctxs := (List.range 64).filter (ctxEn s)
  (ctxs.flatMap fun c =>
    let root := bar64 s (ctxBase c + 8)
    (if root < Config.moduleBytes then usedAt s 3 root else [])
      ++ [(0, bar64 s (ctxBase c + 0x10), (bar s (ctxBase c + 0x20)).toNat * 65536)])
    ++ (List.range 8).map (fun k => (0, bar64 s (mscBase k), 576)) ++ s.retired.map fun f => (0, f * 65536, 65536)

/-- A place of module memory lies in a region: each interleave code is its own inverse (R439). -/
def inRegion (r : Nat × Nat × Nat) (loc : Nat) : Bool :=
  let pa := mapLoc r.1 loc
  decide (r.2.1 / 4096 * 4096 ≤ pa) && decide (pa < r.2.1 + r.2.2)

/-- A frame of a size whose granules no region holds. -/
def frameFree (used : List (Nat × Nat × Nat)) (ilv pa size : Nat) : Bool :=
  (List.range (size / 4096)).all fun i => !used.any fun r => inRegion r (mapLoc ilv (pa + 4096 * i))

/-- The first of n numbers from i on that p holds of. -/
def firstFrom (p : Nat → Bool) (i : Nat) : Nat → Option Nat
  | 0 => none
  | n + 1 => if p i then some i else firstFrom p (i + 1) n

/-- The lowest free frame of a tier, on the stack named under ilv 0b10 (DESIGN CHOICE, log entry 37). -/
def freeFrame (s : State) (size tier ilv stack : Nat) : Option Nat :=
  let used := usedRegions s
  let base := if tier = 0 then 0 else Config.fastBytes
  let top := if tier = 0 then Config.fastBytes else Config.moduleBytes
  (firstFrom (fun i =>
    let pa := base + size * i
    (ilv != 2 || tier != 0 || bitsOf pa 38 36 == stack) && frameFree used ilv pa size) 0 ((top - base) / size)).map fun i => base + size * i

/-- A line's bytes and poison moved: the copy is under the leaf's own slot. -/
def moveLine (s : State) (ctx : Nat) (a b : Phys) : State :=
  let s := mscTouch (writeBack s a.line) a.line a.ilv ctx false
  let bad := s.mpoison.contains a.line
  let d := memLine s a
  let g := match keyGenOf s a.key with
    | some g => g
    | none => smGet 0 s.lineKey a.line
  let ren : Nat → Nat := fun l => if l = a.line then b.line else l
  let s := dropLines s fun c => c.line == a.line || c.line == b.line
  let s : State :=
    { s with
      mem := putLine s.mem b.line d
      lineKey := smSet 0 s.lineKey b.line g
      pendLines := s.pendLines.map fun p => { p with line := ren p.line }
      versions := s.versions.map fun v => { v with line := ren v.line }
      manifests := s.manifests.map fun m => { m with lines := m.lines.map fun l => (l.1, ren l.2) } }
  mscTouch (setMPoison s b.line bad) b.line b.ilv ctx true

/-- The page that a leaf maps moves to a frame (R249, R457). -/
def moveTo (s : State) (ctx : Nat) (t : Tr) (pa tier ilv : Nat) : State :=
  let s := (List.range (t.size / 65536)).foldl (fun s i => dropPage s ctx (t.vbase + 65536 * i)) s
  let s := (List.range (t.size / 128)).foldl (fun s i =>
    moveLine s ctx (t.phys s (t.vbase + 128 * i)) (physOf s ilv t.key false (pa + 128 * i))) s
  editLeaf s ctx t.vbase fun v => putField (putField (putField v 51 16 (pa / 65536)) 9 9 tier) 7 6 ilv

/-- A resident launch of the context names the page (R9), or an eviction holds it pinned (R355). -/
def pageBusy (s : State) (ctx : Nat) (t : Tr) : Bool :=
  let inPage : Nat → Bool := fun va => decide (t.vbase ≤ va) && decide (va < t.vbase + t.size)
  (s.launches.any fun l => l.ctx == ctx && (s.blocks.any fun b => b.q == l.q && b.lseq == l.lseq)
      && (wsPages l.ws).any inPage)
    || s.evicts.any fun e => e.ctx == ctx && e.pages.any fun g => inPage (65536 * g)

/-- A page of this module moves at a quiesce point. A capacity-tier page has interleave code 0b00 (R242). -/
def movePage (s : State) (ctx va tier ilv stack : Nat) : Option State :=
  match findLeaf s ctx va with
  | none => none
  | some t =>
    let ilv := if tier = 0 then ilv else 0
    if (t.phys s va).kind ≠ .own ∨ 1 < tier ∨ 2 < ilv ∨ 7 < stack ∨ pageBusy s ctx t then none
    else (freeFrame s t.size tier ilv stack).map fun pa => moveTo s ctx t pa tier ilv

/-- Every page of a `STAGE` is in the tier its hint asks for; with the status it completes with (R101). -/
def stagePlaced (s : State) (ctx : Nat) : List (Nat × Nat) → Option Nat
  | [] => some 0
  | (va, hint) :: rest =>
    match findLeaf s ctx va with
    | none => some 1
    | some t => if (if hint = 1 then inFast s t va else inCapacity s t va) then none else stagePlaced s ctx rest

/-- A `STAGE` completes once its pages are in place. -/
def stageTest (s : State) (id : Nat) : State :=
  match s.packets.find? fun k => k.id == id && k.op == 2 && !k.done with
  | none => s
  | some k =>
    match stagePlaced s (queueCtx s k.q) ((k.body.map wsOf).flatMap fun w => (wsPages [w]).map fun va => (va, w.hint)) with
    | some status => packetComplete s id 1 status
    | none => s

/-- Leaves of a context's table, from a table of a level. -/
def leavesAt (s : State) : Nat → Nat → Nat → List Tr
  | 0, table, va => (List.range 32).filterMap fun i =>
      let ent := paNum s (table + 8 * i) 8
      if ent % 4 = 3 then some ⟨w64 ent, va + 65536 * i, 65536⟩ else none
  | lvl + 1, table, va =>
    let span := if lvl = 2 then 2 ^ 43 else if lvl = 1 then 2 ^ 30 else 2 ^ 21
    (List.range (if lvl = 0 then 512 else 8192)).flatMap fun i =>
      let ent := paNum s (table + 8 * i) 8
      if ent % 2 = 0 then []
      else if bitsOf ent 1 1 = 1 then [⟨w64 ent, va + span * i, span⟩]
      else if pointerOk ent lvl then leavesAt s lvl (bitsOf ent 51 8 * 256) (va + span * i) else []

/-- How hot a leaf's frames are in the hot lists published last, those of all stacks together (R457). -/
def leafHeat (s : State) (t : Tr) : Nat :=
  (List.range 8).foldl (fun n k =>
    let base := bar64 s (mscBase k)
    if base = 0 then n
    else (List.range (min 64 (paNum s (base + 16) 1))).foldl (fun n i =>
      let e := paNum s (base + 64 + 8 * i) 8
      let f := e % 2 ^ 36 * 65536
      if t.frame ≤ f ∧ f < t.frame + t.size then n + e / 2 ^ 48 else n) n) 0

/-- No page of the fast tier that may go out is colder (R105; log entry 130). -/
def coldest (s : State) (t : Tr) : Bool :=
  let h := leafHeat s t
  h == 0 || ((List.range 64).filter (ctxEn s)).all fun c =>
    let root := bar64 s (ctxBase c + 8)
    !decide (root < Config.moduleBytes) || (leavesAt s 3 root 0).all fun g =>
      !inFast s g g.vbase || leafHeld s c g.vbase || pageBusy s c g || decide (h ≤ leafHeat s g)

/-- An outstanding `STAGE` of the context asks for a page of the leaf in the capacity tier (R101). -/
def stageAsksOut (s : State) (ctx : Nat) (t : Tr) : Bool :=
  s.packets.any fun k => k.op == 2 && !k.done && queueCtx s k.q == ctx &&
    (wsPages ((k.body.map wsOf).filter fun w => w.hint == 1)).any fun va => decide (t.vbase ≤ va) && decide (va < t.vbase + t.size)

/-- A page goes out to the capacity tier: for a `STAGE`, or to make room, where nothing holds it, the coldest first (R101, R105). -/
def mayGoOut (s : State) (ctx : Nat) (t : Tr) : Bool := stageAsksOut s ctx t || (!leafHeld s ctx t.vbase && coldest s t)

/-- A move by the command processor. -/
def pageMove (s : State) (ctx vpage tier ilv stack : Nat) : State :=
  let va := vpage * 65536
  if tier = 1 ∧ ((findLeaf s ctx va).any fun t => !mayGoOut s ctx t) then s
  else match movePage s ctx va tier ilv stack with
    | none => s
    | some s => (s.packets.map Packet.id).foldl stageTest s

/-- PAGE_MOVE (R9, R101, R105). -/
def execPageMove (ctx vpage tier ilv stack : Nat) (s : State) : Host.Outcome State Fault Refusal :=
  .next (pageMove s ctx vpage tier ilv stack)

end Sys2Proof.Machine
end

