-- ==== Sys2Proof/Machine/FrontEnd.lean ====
section
/-! DEFINITION. The packets of R99 (R101, R103, R113, R114), records held back (R112), launches given up (R114, R362, R379, R437). -/

namespace Sys2Proof.Machine

/-! Giving up a launch. -/

/-- Rows freed together are leased (R110). -/
def leaseRows (s : State) (b : Block) : State :=
  match b.site with
  | .core c => (b.teams.filter fun t => !t.left).foldl (fun s t => leaseRow s c t.row b.q b.lseq) s
  | .station _ _ => s

/-- Resident blocks leave their core: no registration ends here (R415). -/
def dropBlocks (s : State) (bids : List Nat) : State :=
  let gone := s.blocks.filter fun b => bids.contains b.bid
  let s : State :=
    { s with
      blocks := s.blocks.filter fun b => !bids.contains b.bid
      claims := s.claims.filter fun c => !bids.contains c.who.bid }
  dieLower ((gone.foldl leaseRows s).wakeAll Wait.isLimit)

/-- A launch that is abandoned or killed: its teams stop and its engine operations are given up. It stands as complete until the
commits that have chosen their times are done (R437). -/
def giveUp (s : State) (la : Launch) (status : Nat) : State :=
  let mine : Block → Bool := fun b => b.q == la.q && b.lseq == la.lseq
  let saved := (s.saved.map Saved.blk).filter mine
  let here := s.blocks.filter mine
  let s := (here ++ saved).foldl (fun s b => abandonAtts s b la) s
  let s := dropCalls s la.q la.lseq
  let s := killBundles s la.q la.lseq
  let s := (here ++ saved).foldl (fun s b => b.teams.foldl (fun s t => (teamAcks s la.q t).2) (endRegs s b.q b.lseq b.idx)) s
  let s : State :=
    { s with
      saved := s.saved.filter fun v => !mine v.blk
      evicts := s.evicts.filter fun e => !(e.q == la.q && e.lseq == la.lseq && e.phase == .waiting)
      preqs := s.preqs.filter fun r => !(r.launch && r.q == la.q && r.key == la.lseq && r.phase != .pri) }
  let s := dropBlocks s ((here.filter fun b => !b.site.isStation).map Block.bid)
  let s := s.modLaunch la.q la.lseq fun l => { l with state := .complete, status := status, stop := none, halting := [] }
  dropReserves s (fun r => r.q == la.q && r.lseq == la.lseq) []

/-- The status of a launch that a kill has ended, which posts nothing of its own. -/
def killedStatus : Nat := 2 ^ 16

/-- The handle in `op` of the packet that stands for a queue's KILLED record until it is posted. -/
def killedOp : Nat := 0xFF

/-- Commits of a launch are under way still. -/
def commitsLeft (s : State) (la : Launch) : Bool := s.bundles.any fun k => k.dev == devId s && k.q == la.q && k.lseq == la.lseq

/-- Launches given up end once their commits are done, then KILLED records are posted (R114, R437; their fields: log entry 127). -/
def finishEnds (s : State) : State :=
  let s := (s.launches.filter fun l => l.state == .complete && !commitsLeft s l).foldl (fun s l =>
    if l.status = killedStatus then
      let s := dropWs s l
      { s with launches := s.launches.filter fun m => !(m.q == l.q && m.lseq == l.lseq) }
    else endLaunch s l 1 l.status) s
  (s.packets.filter fun k => k.op == killedOp && !k.done && !s.launches.any fun l => l.q == k.q && l.state == .complete).foldl
    (fun s k => postRec (s.modPacket k.id fun k => { k with done := true }) k.q (Rec.plain 7 0 0 0 0 0) (some k.id)) s

/-! Packets that act at once. -/

/-- NOP_PACKET (R101). -/
def nopPacket (s : State) (q : Nat) : State := runPacket s q 0 fun _ s => (s, 0)
def execNopPacket (q : Nat) (s : State) : Host.Outcome State Fault Refusal := .next (nopPacket s q)

/-- SIGNAL (R98, R101). -/
def signalPacket (s : State) (q : Nat) : State :=
  runPacket s q 6 fun p s =>
    let a := unitAddr p.unit
    let s := signalDo s (queueCtx s q) (w64 a, w64 (unitVal p.unit))
    let r := answered s ((vaPhys s (queueCtx s q) (a / 8 * 8)).map Phys.line).toList 0
    (noteGwct r.2 q r.1, 0)
def execSignal (q : Nat) (s : State) : Host.Outcome State Fault Refusal := .next (signalPacket s q)

/-- BARRIER (R100). -/
def barrierPacket (s : State) (q : Nat) : State := runPacket s q 8 fun _ s => (s, 0)
def execBarrier (q : Nat) (s : State) : Host.Outcome State Fault Refusal := .next (barrierPacket s q)

/-- TIMESTAMP (R101). -/
def timestampPacket (s : State) (q : Nat) : State :=
  runPacket s q 12 fun p s => (packetWrite s q (unitAddr p.unit) (leBytes 8 s.time), 0)
def execTimestamp (q : Nat) (s : State) : Host.Outcome State Fault Refusal := .next (timestampPacket s q)

/-- FENCE (R100, R101). Every earlier packet is complete, its record a release at system scope. -/
def fencePkt (s : State) (q : Nat) : State := runPacket s q 13 fun _ s => (s, 0)
def execFencePacket (q : Nat) (s : State) : Host.Outcome State Fault Refusal := .next (fencePkt s q)

/-- OVLOAD (R46 to R50, R101). -/
def ovloadPacket (s : State) (q : Nat) : State :=
  runPacket s q 14 fun p s =>
    let v := bytesOf p.unit 4 4
    if ovtabLegal v then (setOvtab s (byteOf p.unit 0) (w32 v), 0) else (s, 6)
def execOvload (q : Nat) (s : State) : Host.Outcome State Fault Refusal := .next (ovloadPacket s q)

/-- The memory-side cache's dirty lines written to DRAM (R101, R459, R461). -/
def drainLines (s : State) (p : MscLine → Bool) : State :=
  let go := s.msc.filter fun l => l.dirty && p l
  let clean : MscLine → MscLine := fun l => if p l then { l with dirty := false, under := l.under && !l.dirty } else l
  let s : State := { s with msc := s.msc.map clean }
  go.foldl (fun s l => if czLine s l.ctx (128 * l.line) then czCount s l.stack l.ctx else s) s

/-- Pages of a packet's ranges up to the first that is not mapped, and whether there is one (R101; log entry 124). -/
def mappedPages (s : State) (ctx : Nat) : List Nat → List (Nat × Tr) × Bool
  | [] => ([], false)
  | va :: rest =>
    match findLeaf s ctx va with
    | none => ([], true)
    | some t =>
      let r := mappedPages s ctx rest
      ((va, t) :: r.1, r.2)

def unitPages (u : Nat) : List Nat := (List.range (bytesOf u 8 4)).map fun i => unitAddr u + 65536 * i

/-- A line of module memory that a context's pages hold (log entry 38). -/
def ctxLine (s : State) (ctx line : Nat) : Bool :=
  let root := bar64 s (ctxBase ctx + 8)
  decide (root < Config.moduleBytes) && (usedAt s 3 root).any fun r => inRegion r (128 * line)

/-- DRAIN (R101): no pages stands for all memory of the context. -/
def drainPacket (s : State) (q : Nat) : State :=
  runPacket s q 9 fun p s =>
    if bytesOf p.unit 8 4 = 0 then (drainLines s fun l => ctxLine s (queueCtx s q) l.line, 0)
    else
      let r := mappedPages s (queueCtx s q) (unitPages p.unit)
      let inPage : MscLine → Bool := fun l => r.1.any fun g =>
        (g.2.phys s g.1).kind == .own && (List.range 16).any fun i =>
          (g.2.phys s (g.1 + 4096 * i)).loc / 4096 == l.line / 32
      (drainLines s inPage, if r.2 then 1 else 0)
def execDrain (q : Nat) (s : State) : Host.Outcome State Fault Refusal := .next (drainPacket s q)

/-- UNPIN (R101). A page that an eviction holds pinned makes it wait (R355). -/
def unpinPacket (s : State) (q : Nat) : State :=
  let ctx := queueCtx s q
  match startOf s q 4 with
  | none => headCheck s q
  | some p =>
    let r := mappedPages s ctx (rangePages p.body)
    if r.1.any fun g => s.evicts.any fun e => e.ctx == ctx && e.pages.contains (g.1 / 65536) then s
    else runPacket s q 4 fun _ s => (r.1.foldl (fun s g => dropHold s false ctx g.1) s, if r.2 then 1 else 0)
def execUnpin (q : Nat) (s : State) : Host.Outcome State Fault Refusal := .next (unpinPacket s q)

/-- MOVEHOME (R9, R101): every page at once, when each is at a quiesce point. Pages of other memory stay. -/
def movehomePacket (s : State) (q : Nat) : State :=
  let ctx := queueCtx s q
  match startOf s q 5 with
  | none => headCheck s q
  | some p =>
    let u := p.unit
    let r := mappedPages s ctx (unitPages u)
    let own := r.1.filter fun g => (g.2.phys s g.1).kind == .own
    let bases := (own.map fun g => g.2.vbase).dedup
    let moved := bases.foldl (fun (acc : Option State) va =>
      acc.bind fun s => movePage s ctx va (byteOf u 12) (byteOf u 13) (byteOf u 14)) (some s)
    match moved with
    | none => s
    | some t => runTaken t q p fun s => (s, if r.2 then 1 else 0)
def execMovehome (q : Nat) (s : State) : Host.Outcome State Fault Refusal := .next (movehomePacket s q)

/-! Packets that stay outstanding. -/

/-- A packet starts and goes on by `next`, given its handle. -/
def openPacket (s : State) (q op : Nat) (next : State → Nat → State) : State :=
  match startOf s q op with
  | none => headCheck s q
  | some p => headCheck (next (takePacket s q p 0) s.nextId) q

/-- STAGE (R101). -/
def stagePacket (s : State) (q : Nat) : State := openPacket s q 2 stageTest
def execStage (q : Nat) (s : State) : Host.Outcome State Fault Refusal := .next (stagePacket s q)

/-- PIN (R101, R105). -/
def pinPacket (s : State) (q : Nat) : State := openPacket s q 3 pinOn
def execPin (q : Nat) (s : State) : Host.Outcome State Fault Refusal := .next (pinPacket s q)

/-- A `WAIT` completes when its dependency is met (R97, R101). -/
def waitTest (s : State) (id : Nat) : State :=
  match s.packets.find? fun k => k.id == id && k.op == 7 && !k.done with
  | none => s
  | some k =>
    let u := k.body.getD 0 0
    if depMet s k.q (unitAddr u, unitVal u) then packetComplete s id 1 0 else s

/-- WAIT (R101). -/
def waitPkt (s : State) (q : Nat) : State := openPacket s q 7 waitTest
def execWaitPacket (q : Nat) (s : State) : Host.Outcome State Fault Refusal := .next (waitPkt s q)

/-- The outstanding `WAIT` of a queue sees its event object (R97). -/
def dependencyMet (s : State) (q : Nat) : State := ((s.packets.filter fun k => k.q == q).map Packet.id).foldl waitTest s
/-- DEPENDENCY_MET (R97). -/
def execDependencyMet (q : Nat) (s : State) : Host.Outcome State Fault Refusal := .next (dependencyMet s q)

/-- A `LAUNCH` starts (R95, R103, R105): one that failed or was cancelled while it was staged completes. -/
def launchPacket (s : State) (q : Nat) : State :=
  match startOf s q 1 with
  | none => headCheck s q
  | some p =>
    let lseq := qLseq s q
    let id := s.nextId
    let old := unstarted? s q p
    let la := (old.getD (launchOf s q lseq p))
    let drop : Launch → Bool := fun l => l.q == q && l.pid == 0 && (l.lseq == lseq || l.lseq == la.lseq)
    let s := { s with launches := s.launches.filter fun l => !drop l }
    let s := takePacket s q p lseq
    let s := setBar s (qBase q + 0x34) (w32 (lseq + 1))
    let la := { la with pid := id, lseq := lseq, irq := p.irq, sig := p.sig, ovl := p.ovl }
    let s := { s with launches := s.launches ++ [la] }
    let s :=
      if la.status ≠ 0 then endLaunch s la (if la.status = 3 then 5 else 1) la.status
      else if la.staged then makeEligible s q lseq
      else s
    headCheck s q
/-- LAUNCH (R103). -/
def execLaunch (q : Nat) (s : State) : Host.Outcome State Fault Refusal := .next (launchPacket s q)

/-! RESUME and PREEMPT (R113, R114). -/

/-- The launch that a body names. -/
def namedLaunch (s : State) (u : Nat) : Option Launch := s.launches.find? fun l =>
  l.q == byteOf u 0 && l.lseq == bytesOf u 5 4 && l.pid != 0

/-- A launch that a `RESUME` acts on: stopped, or with blocks held. -/
def resumable (s : State) (la : Launch) : Bool :=
  (la.state == .stopped || la.state == .held || la.state == .running)
    && (la.state == .stopped || s.saved.any fun v => v.hold && v.blk.q == la.q && v.blk.lseq == la.lseq)

/-- A stopped or held launch returns to placement; host pages of its working set, and those that `PIN`
holds in its context, that lost their translation are translated afresh (R246). -/
def resumeLaunch (s : State) (la : Launch) : State :=
  let free : Saved → Saved := fun v => if v.blk.q = la.q ∧ v.blk.lseq = la.lseq then { v with hold := false } else v
  let s : State := { s with saved := s.saved.map free }
  let s := s.modLaunch la.q la.lseq fun l =>
    { l with state := .running, stop := none, waitSince := s.time, waited := 0 }
  let pinned := (s.pinHolds.filter fun h => h.1 / 2 ^ 40 == la.ctx && h.2 != 0).map fun h => 65536 * (h.1 % 2 ^ 40)
  (wsPages la.ws ++ pinned).dedup.foldl (fun s va =>
    match findLeaf s la.ctx va with
    | some t => if t.host && !t.pin then askPage s la.ctx va true la.q la.lseq else s
    | none => s) s

/-- A head packet of the opcode whose body has byte [9] as wanted. -/
def actionAt (s : State) (q op act : Nat) : Bool :=
  match startOf s q op with
  | some p => byteOf p.unit 9 == act
  | none => false

/-- RESUME, action 0 (R114). -/
def resumePacket (s : State) (q : Nat) : State :=
  if actionAt s q 10 0 then
    runPacket s q 10 fun p s =>
      match namedLaunch s p.unit with
      | some la => if resumable s la then (launchTest (resumeLaunch s la) la.q la.lseq, 0) else (s, 8)
      | none => (s, 8)
  else headCheck s q
def execResume (q : Nat) (s : State) : Host.Outcome State Fault Refusal := .next (resumePacket s q)

/-- RESUME, action 1 (R114). -/
def resumeAbandonPacket (s : State) (q : Nat) : State :=
  if actionAt s q 10 1 then
    runPacket s q 10 fun p s =>
      match namedLaunch s p.unit with
      | some la => if resumable s la then (giveUp s la 7, 0) else (s, 8)
      | none => (s, 8)
  else headCheck s q
def execResumeAbandon (q : Nat) (s : State) : Host.Outcome State Fault Refusal := .next (resumeAbandonPacket s q)

/-- The blocks of a launch that a `PREEMPT` halts: whole save units (R113, R259). -/
def preemptBlocks (s : State) (la : Launch) (mode mask : Nat) : List Nat :=
  let here := s.blocksOf la.q la.lseq
  let named := here.filter fun b => mode % 2 == 0 || mask.testBit (coreCluster b.coreNum)
  let grp : Block → Nat := fun b => b.idx / 2 ^ la.hdr.width 2
  let all := if la.hdr.cores && !named.isEmpty then here else here.filter fun b => named.any fun c => grp c == grp b
  all.map Block.bid

/-- A launch that runs is halted for a save (R113); probing teams end their probe (R253). -/
def preemptLaunch (s : State) (la : Launch) (mode mask : Nat) : Option State :=
  let bids := preemptBlocks s la mode mask
  let core := ((s.blocks.find? fun b => bids.contains b.bid).map Block.coreNum).getD 0
  if la.hdr.pre ∧ la.state = .running ∧ la.stop.isNone ∧ !bids.isEmpty then
    let whole := mode % 2 == 0 || la.hdr.cores
    let s := s.modLaunch la.q la.lseq fun l =>
      { l with stop := some (saveInfo s 0 core 0 (decide (2 ≤ mode)) false), state := if whole then .stopping else l.state }
    some (haltBlocks s la.q la.lseq bids true)
  else none

/-- PREEMPT (R113, R114), complete once the halt is requested (log entry 126). It reaches a launch that is stopping too: its teams
end their probes (R253). -/
def preemptPacket (s : State) (q : Nat) : State :=
  runPacket s q 11 fun p s =>
    match namedLaunch s p.unit with
    | none => (s, 8)
    | some la =>
      match preemptLaunch s la (byteOf p.unit 9) (byteOf p.unit 10) with
      | some s => (s, 0)
      | none => (if la.state = .stopping then haltBlocks s la.q la.lseq la.halting true else s, 8)
def execPreempt (q : Nat) (s : State) : Host.Outcome State Fault Refusal := .next (preemptPacket s q)

/-! Records held back (R112). -/

def completionRecordPost (s : State) (q : Nat) : State :=
  match s.posts.find? fun p => p.q == q with
  | none => s
  | some p => if mayPost s q then headCheck (postNow { s with posts := s.posts.filter fun o => !(o == p) } p) q else s
/-- COMPLETION_RECORD_POST (R112). -/
def execCompletionRecordPost (q : Nat) (s : State) : Host.Outcome State Fault Refusal := .next (completionRecordPost s q)

end Sys2Proof.Machine
end

