-- ==== Sys2Proof/Machine/Capture.lean ====
section
/-! DEFINITION. Ends of run-ahead and of waits (R152, R253, R260), capture of halted blocks (R255, R258 to R268), deadlocked cores
(R138). -/

namespace Sys2Proof.Machine

/-! Values and acknowledgements that arrive (R76, R235, R260). -/

/-- Registers that matrix instructions not yet executed will write (R329): they stay not ready through a save. -/
def tmvKeys (b : Block) (team : Nat) : List RegKey :=
  (b.mat.queue.filter fun o => !o.fin && o.team == team).flatMap fun o =>
    match o.ins with
    | .tmvT2v _ d _ _ =>
      if opIsZero d then []
      else (maskLanes o.mask Config.maxLanes).flatMap fun l =>
        (List.range (tmvSel (loHalf o.vb)).2.2).map fun j => RegKey.v ((smGet 0 o.vec l).toNat + j)
    | _ => []

/-- Instructions held at their registers may issue again. -/
def Team.wakeRegs (now : Nat) (t : Team) : Team := t.wake Wait.isRegister now

/-- A value arrives in a register. -/
def readyBitSet (s : State) (bid team : Nat) (key : RegKey) : State :=
  match s.block? bid with
  | none => s
  | some b =>
    if (tmvKeys b team).contains key then s
    else
      let now := s.time
      s.modTeam bid team fun t =>
        { t with waits := t.waits.filter fun w => w.1 != key, hostWait := t.hostWait.filter fun p => p.1 != key }.wakeRegs now

/-- READY_BIT_SET (R76). -/
def execReadyBitSet (bid team : Nat) (key : RegKey) (s : State) : Host.Outcome State Fault Refusal :=
  .next (readyBitSet s bid team key)

/-- A register's lanes take values of a counter. -/
def setLost (n : Nat) (p : RegKey × LaneMask) (t : Team) : Team :=
  let ls := maskLanes p.2 t.lanes
  match p.1 with
  | .v r => ls.foldl (fun t l => t.setV r l (Config.lostRead n l)) t
  | .s r => t.setS r (Config.lostRead n 0)
  | .x r => ls.foldl (fun t l => t.setX r l (Config.lostRead n l)) t
  | .k _ => t

/-- A halted team's reads of host memory end without a completion: what their registers hold is free (log entry 8). -/
def pcieTimeout (s : State) (bid team : Nat) : State :=
  match s.team? bid team with
  | none => s
  | some t =>
    if !t.halted || t.hostWait.isEmpty then s
    else
      let n := s.freeCtr
      let keys := t.hostWait.map Prod.fst
      let s := s.modTeam bid team fun t =>
        let t := (t.hostWait.zipIdx).foldl (fun t p => setLost (n + p.2) p.1 t) t
        { t with waits := t.waits.filter fun w => !keys.contains w.1, hostWait := [] }
      { s with freeCtr := n + t.hostWait.length }

/-- PCIE_COMPLETION_TIMEOUT (R260). -/
def execPcieCompletionTimeout (bid team : Nat) (s : State) : Host.Outcome State Fault Refusal := .next (pcieTimeout s bid team)

/-- Releases of a team that have nothing left to wait for. -/
def releaseOver (t : Team) (now : Nat) : Wait → Bool
  | .release sc => releaseDone t now sc
  | _ => false

def Team.wakeReleases (now : Nat) (t : Team) : Team := t.wake (releaseOver t now) now

/-- A release waits. -/
def Wait.isRelease : Wait → Bool
  | .release _ => true
  | _ => false

/-- The homes of a team's stores, atomics and reductions answer with acknowledgements and GWCTs: host memory by the completion of a
flushing read, which a release issues (R236, R469). -/
def homeAcks (s : State) (bid team : Nat) : State :=
  match s.block? bid, s.team? bid team with
  | some b, some t =>
    let released := t.records.any fun r => r.wait.isRelease
    let stay := if released then [] else t.unacked.filter hostLine
    let s := if released then flushRead s (queueCtx s b.q) t else s
    let (g, s) := answered s (t.unacked.filter fun l => !stay.contains l) t.gwct
    let now := s.time
    s.modTeam bid team fun t =>
      { t with unacked := stay, gwct := g, lastHost := if released then 0 else t.lastHost }.wakeReleases now
  | _, _ => s

/-- HOME_ACKNOWLEDGEMENT (R235, R469). -/
def execHomeAcknowledgement (bid team : Nat) (s : State) : Host.Outcome State Fault Refusal := .next (homeAcks s bid team)

/-- The meridian has passed the GWCTs that a release waits for. -/
def gwctPassed (s : State) (bid team sub : Nat) : State :=
  let now := s.time
  s.modTeam bid team fun t => t.modRec sub (wakeRec (releaseOver t now) now)

/-- GWCT_PASSED (R235). -/
def execGwctPassed (bid team sub : Nat) (s : State) : Host.Outcome State Fault Refusal := .next (gwctPassed s bid team sub)

/-! Ends of waits (R128, R137, R138, R152). -/

/-- SCHEDULER_AGING (R128): ready 1,024 cycles without issue. -/
def schedulerAging (s : State) (bid team sub : Nat) : State :=
  match s.block? bid with
  | none => s
  | some b =>
    let n := cyclesNs s b 1024
    s.modTeam bid team fun t => t.modRec sub fun r =>
      if mayIssue t r && decide (r.readySince + n ≤ s.time) then { r with aged := true } else r
def execSchedulerAging (bid team sub : Nat) (s : State) : Host.Outcome State Fault Refusal :=
  .next (schedulerAging s bid team sub)

/-- CLAIM_GRANT (R137). -/
def execClaimGrant (core : Nat) (s : State) : Host.Outcome State Fault Refusal := .next (grantHead s core)

/-- PAUSE_END (R152): `%time` has reached the pause's end. -/
def pauseEnd (s : State) (bid team sub : Nat) : State :=
  let late : Wait → Bool := fun w =>
    match w with
    | .pause u => decide (u ≤ s.time)
    | _ => false
  let now := s.time
  s.modRec ⟨bid, team, sub⟩ (wakeRec late now)
def execPauseEnd (bid team sub : Nat) (s : State) : Host.Outcome State Fault Refusal := .next (pauseEnd s bid team sub)

/-- A sub-team has issued since the issue counter stood at n, or is no longer there. -/
def hasIssued (s : State) (n : Nat) (w : Issuer) : Bool :=
  match (s.team? w.bid w.team).bind fun t => t.rec? w.sub with
  | none => true
  | some r => decide (n < r.issuedAt)

/-- YIELD_END (R152): every other sub-team that was ready has issued once, or 64 cycles have passed. -/
def yieldEnd (s : State) (bid team sub : Nat) : State :=
  let now := s.time
  s.modRec ⟨bid, team, sub⟩ fun r =>
    let late : Wait → Bool := fun w =>
      match w with
      | .yield u others => decide (u ≤ now) || others.all (hasIssued s r.issuedAt)
      | _ => false
    wakeRec late now r
def execYieldEnd (bid team sub : Nat) (s : State) : Host.Outcome State Fault Refusal := .next (yieldEnd s bid team sub)

def Wait.isClaim : Wait → Bool
  | .claim _ _ _ => true
  | _ => false

/-- Records that hold lanes of the unexited teams of a core's blocks. -/
def coreRecords (s : State) (core : Nat) : List (Block × Team × Record) :=
  (s.blocks.filter fun b => b.site == .core core).flatMap fun b =>
    b.teams.flatMap fun t => (t.records.filter fun r => r.k0 != 0 || r.held.isSome).map fun r => (b, t, r)

/-- A record's DEADLK trap (R138): its pc is the `CLAIM`'s, or the target of the call that claims. -/
def deadlkStop (s : State) (p : Block × Team × Record) : State :=
  let lane := (lowLane p.2.2.k0 p.2.1.lanes).getD 0
  let st : Stop :=
    { cause := 0x07, pc := p.2.2.pc, trapa := 0, wid := p.2.1.wid0 + w64 lane, at_ := s.time, core := p.1.coreNum,
      row := p.2.1.row, reason := 0, hold := false, silent := false, pages := [] }
  stopLaunch s p.1.q p.1.lseq st true

/-- DEADLK: every unexited sub-team of a core waits in a claim and the head does not fit. -/
def deadlk (s : State) (core : Nat) : State :=
  let rs := coreRecords s core
  match s.claims.find? fun c => c.core == core with
  | none => s
  | some c =>
    if poolFree s core < c.need && rs.all fun p => p.2.2.wait.isClaim && !p.2.1.halted then rs.foldl deadlkStop s else s
def execDeadlk (core : Nat) (s : State) : Host.Outcome State Fault Refusal := .next (deadlk s core)

/-! The end of run-ahead (R253). -/

/-- The bounds of probe mode that time and pages set: 50 µs, 64 pages of the team, 256 of the launch, 4,096 instructions. -/
def probeOver (s : State) (b : Block) (p : Probe) : Bool :=
  let batch := match s.launch? b.q b.lseq with
    | some la =>
      match la.stop with
      | some st => st.pages.length
      | none => 0
    | none => 0
  decide (p.since + 50000 ≤ s.time) || decide (64 ≤ p.pages.length) || decide (256 ≤ batch) || decide (4096 ≤ p.issued)

/-- PROBE_END (R253, R255). -/
def probeEnd (s : State) (bid team : Nat) : State :=
  match s.block? bid with
  | none => s
  | some b =>
    match (b.team? team).bind Team.probe with
    | none => s
    | some p => if probeOver s b p then s.modTeam bid team Team.endProbe else s
def execProbeEnd (bid team : Nat) (s : State) : Host.Outcome State Fault Refusal := .next (probeEnd s bid team)

/-! Capture (R260 to R268). -/

/-- A halted block's teams issue nothing and wait for no host access, and its engine lets no more lock bits clear (R135, R260; log
entry 27). -/
def captureReady (s : State) (la : Launch) (b : Block) : Bool :=
  (b.teams.all fun t => t.left || (t.halted && t.probe.isNone && t.hostWait.isEmpty)) && !lockGoes s la b

/-- A team's loads, stores and atomics complete (R227, R260). -/
def completeTeam (s : State) (b : Block) (t : Team) : State :=
  let (g, s) := answered (flushRead s (queueCtx s b.q) t) t.unacked t.gwct
  let keep := tmvKeys b t.idx
  (noteGwct s b.q g).modTeam b.bid t.idx fun t =>
    { t.drain with unacked := [], gwct := g, lastHost := 0, waits := t.waits.filter fun w => keep.contains w.1 }

def Wait.isPause : Wait → Bool
  | .pause _ => true
  | .yield _ _ => true
  | _ => false

/-- A product at the head whose own block is in the array ends there; one whose block the engine refused waits with its slot (R261,
R333). -/
def settleHead (s : State) (bid : Nat) : State :=
  match s.block? bid with
  | none => s
  | some b =>
    match matHead b with
    | none => s
    | some o =>
      if !o.started then s
      else if b.mat.acq.any fun a => a.op == o.id && !a.applied then
        s.modMat bid fun m =>
          { m with queue := m.queue.map fun k => if k.id = o.id then { k with started := false } else k
                   acq := m.acq.map fun a => if a.op = o.id then { a with stalled := true } else a }
      else matFinish s bid o

/-- A block as it is saved: pauses have ended (R152), and who waits at a buffer waits afresh after restore (R306). -/
def savedBlock (now : Nat) (b : Block) : Block := { b.wake Wait.isPause now with cbq := [] }

/-- One block saved: its record is written. -/
def saveBlock (st : Stop) (s : State) (bid : Nat) : State :=
  let s := settleHead s bid
  match s.block? bid with
  | none => s
  | some b =>
    let v : Saved := ⟨savedBlock s.time b, if st.reason = 0 then st.cause else 0x3F, st.hold⟩
    { writeRecord s v with saved := s.saved ++ [v] }

/-- The order of recording: by meridian, ties by `%core` and then slot (R254). -/
def batchBefore (a b : BatchPage) : Bool :=
  decide (a.at_ < b.at_) || (a.at_ == b.at_ &&
    (decide (coreId a.core < coreId b.core) || (a.core == b.core && decide (a.row < b.row))))

def insertPage (p : BatchPage) : List BatchPage → List BatchPage
  | [] => [p]
  | q :: l => if batchBefore p q then p :: q :: l else q :: insertPage p l

/-- The batch of a stop: the first missing page first, at most 256. -/
def batchOf (st : Stop) : List W64 :=
  let l := (st.pages.foldl (fun l p => insertPage p l) []).map BatchPage.page
  let first := pageOf st.trapa
  (if st.cause = cXLATE ∧ l.contains first then first :: l.filter fun p => p != first else l).take 256

/-- The launch record (R263). -/
def writeLaunchRecord (s : State) (la : Launch) (batch : List W64) : State :=
  match la.recBase with
  | none => s
  | some a =>
    let key := ctxKey s la.ctx
    let s := paWrite s key la.ctx a ((List.range 4).flatMap fun i =>
      let g := gbarOf la i
      leBytes 8 (Config.gbarWord g.phase g.arrived.length).toNat)
    if batch.isEmpty then s else paWrite s key la.ctx (a + 0x800) (batch.flatMap fun p => leBytes 8 p.toNat)

/-- The record that a captured stop or hold posts (R112, R255, R258): none for a save that returns to placement. -/
def captureRec (la : Launch) (st : Stop) (batch : List W64) : Option Rec :=
  if st.silent then none
  else if st.reason = 0 then
    some { kind := 3, op := 1, status := 0, tag := la.tag, off := la.off, lseq := la.lseq, trapc := st.cause, reason := 0,
           npages := batch.length, trappc := st.pc, trapa := st.trapa, wid := st.wid,
           batch := if batch.isEmpty then 0 else w64 (la.recBase.getD 0 + 0x800) }
  else if st.hold then
    some { kind := 4, op := 1, status := 0, tag := la.tag, off := la.off, lseq := la.lseq, trapc := 0, reason := 0x3F,
           npages := 0, trappc := st.pc, trapa := 0, wid := 0, batch := 0 }
  else none

/-- The launch after its units are saved (R113). A stopped launch holds every block of it. -/
def captureEnd (s : State) (la : Launch) (st : Stop) : State :=
  let batch := if st.reason = 0 then batchOf st else []
  let s := writeLaunchRecord s la batch
  let hold : Saved → Saved := fun v =>
    if st.reason = 0 ∧ v.blk.q = la.q ∧ v.blk.lseq = la.lseq then { v with hold := true } else v
  let s : State := { s with saved := s.saved.map hold }
  let s := s.modLaunch la.q la.lseq fun l =>
    { l with stop := none, halting := [],
             state := if st.reason = 0 then .stopped else if st.hold && l.state == .stopping then .held else .running,
             waitSince := if wantsPlace l then l.waitSince else s.time, waited := if wantsPlace l then l.waited else 0 }
  let s := match captureRec la st batch with
    | some r => postRec s la.q r none
    | none => s
  launchTest s la.q la.lseq

/-- Halted units are captured together. -/
def capture (s : State) (q lseq : Nat) : State :=
  match s.launch? q lseq with
  | none => s
  | some la =>
    match la.stop with
    | none => s
    | some st =>
      let hs := s.blocks.filter fun b => la.halting.contains b.bid
      if hs.all (captureReady s la) then
        let s := hs.foldl (fun s b => b.teams.foldl (fun s t => if t.left then s else completeTeam s b t) s) s
        let s := (hs.map Block.bid).foldl (saveBlock st) s
        captureEnd (dropBlocks s (hs.map Block.bid)) la st
      else s

/-- CAPTURE (R255, R258, R260 to R268). -/
def execCapture (q lseq : Nat) (s : State) : Host.Outcome State Fault Refusal := .next (capture s q lseq)

end Sys2Proof.Machine
end

