-- ==== Sys2Proof/Machine/Integer.lean ====
section
/-! DEFINITION. The integer and logical majors 0x00 to 0x22 (R165 to R180). -/

namespace Sys2Proof.Machine

/-- Registers of a value of a type. -/
def ityRegs (ty : ITy) : Nat := if ityWide ty then 2 else 1

/-- A source's bits as its type reads them: one register, or a pair whose literal is extended by the type (R63). -/
def Ctx.rdTy (c : Ctx) (i : Nat) (o : Opnd) (ty : ITy) (l : Nat) : Nat :=
  if ityWide ty then (c.rd64 i o (ty == .s64) l).toNat else (c.rd i o l).toNat

/-- An element after its modifiers: absolute value, then negation, each wrapped (R66). -/
def intMod (sg : Bool) (w : Nat) (neg abs : Bool) (v : Int) : Int :=
  let v := if abs then readInt sg w (wrapInt w (if sg then (v.natAbs : Int) else v)) else v
  if neg then readInt sg w (wrapInt w (-v)) else v

/-- Element e of a register's bits, modified. -/
def intElem (ty : ITy) (neg abs : Bool) (bits e : Nat) : Int :=
  intMod (itySigned ty) (ityWidth ty) neg abs (readInt (itySigned ty) (ityWidth ty) (bits / 2 ^ ((ityWidth ty) * e)))

/-- The elements written side by side. -/
def packElems (w : Nat) (n : Nat) (f : Nat → Nat) : Nat :=
  (List.range n).foldr (fun e acc => f e % 2 ^ w + 2 ^ w * acc) 0

/-- A typed result of up to three typed sources, evaluated exactly and narrowed once (R169). -/
def intEval (ty : ITy) (sat : Bool) (m : Mods) (g : Int → Int → Int → Int) (x y z : Nat) : Nat :=
  packElems (ityWidth ty) (ityCount ty) fun e =>
    narrowInt sat (itySigned ty) (ityWidth ty)
      (g (intElem ty m.nega m.absa x e) (intElem ty m.negb m.absb y e) (intElem ty m.negc m.absc z e))

/-- R169's majors of two sources. -/
def intOp2 (ty : ITy) (sat : Bool) (m : Mods) (lat : Nat) (d a b : Opnd) (g : Int → Int → Int) : Op where
  form := arithForm [fA a (ityRegs ty), fB b (ityRegs ty)] d (ityRegs ty) lat
  eff := fun c => .done (c.putOn c.lanes d (ityRegs ty)
    (fun l => intEval ty sat m (fun x y _ => g x y) (c.rdTy 0 a ty l) (c.rdTy 1 b ty l) 0) c.s)

/-- R169's majors of three sources. -/
def intOp3 (ty : ITy) (sat : Bool) (m : Mods) (lat : Nat) (d a b x : Opnd) (g : Int → Int → Int → Int) : Op where
  form := arithForm [fA a (ityRegs ty), fB b (ityRegs ty), fC x (ityRegs ty)] d (ityRegs ty) lat
  eff := fun c => .done (c.putOn c.lanes d (ityRegs ty)
    (fun l => intEval ty sat m g (c.rdTy 0 a ty l) (c.rdTy 1 b ty l) (c.rdTy 2 x ty l)) c.s)

/-- A result of one, two or three sources read as numbers, of `ra`, `rb`, `rc` registers, into `rd`. -/
def natOp (srcs : List Field) (d : Opnd) (rd lat : Nat) (g : Ctx → Nat → Nat) : Op where
  form := arithForm srcs d rd lat
  eff := fun c => .done (c.putOn c.lanes d rd (g c) c.s)

/-- R180. `NOP` ignores its mask. -/
def opNop : Op where
  form := ⟨[], [], .vec, some 4, .run, true, false⟩
  eff := fun c => .done c.s

/-- The header of a `NOP`: kmask and kinv are ignored. -/
def nopIss (i : Iss) : Iss := { i with kmask := 0, kinv := false }

/-- R180. -/
def execNop (h : Hdr) (s : State) : Host.Outcome State Fault Refusal := opNop.run (nopIss (issOf h)) s

def opIadd (ty : ITy) (sat : Bool) (m : Mods) (d a b : Opnd) : Op := intOp2 ty sat m 4 d a b fun x y => x + y
/-- R169. -/
def execIadd (h : Hdr) (ty : ITy) (sat : Bool) (m : Mods) (d a b : Opnd) (s : State) : Host.Outcome State Fault Refusal :=
  (opIadd ty sat m d a b).run (issOf h) s

def opIsub (ty : ITy) (sat : Bool) (m : Mods) (d a b : Opnd) : Op := intOp2 ty sat m 4 d a b fun x y => x - y
/-- R169. -/
def execIsub (h : Hdr) (ty : ITy) (sat : Bool) (m : Mods) (d a b : Opnd) (s : State) : Host.Outcome State Fault Refusal :=
  (opIsub ty sat m d a b).run (issOf h) s

def opIadd3 (ty : ITy) (sat : Bool) (m : Mods) (d a b c : Opnd) : Op :=
  intOp3 ty sat m 4 d a b c fun x y z => x + y + z
/-- R169. -/
def execIadd3 (h : Hdr) (ty : ITy) (sat : Bool) (m : Mods) (d a b c : Opnd) (s : State) :
    Host.Outcome State Fault Refusal :=
  (opIadd3 ty sat m d a b c).run (issOf h) s

def opImul (ty : ITy) (sat : Bool) (m : Mods) (d a b : Opnd) : Op := intOp2 ty sat m 6 d a b fun x y => x * y
/-- R169. -/
def execImul (h : Hdr) (ty : ITy) (sat : Bool) (m : Mods) (d a b : Opnd) (s : State) : Host.Outcome State Fault Refusal :=
  (opImul ty sat m d a b).run (issOf h) s

/-- R170: bits [2w − 1 : w] of the exact product. -/
def opImulh (ty : ITy) (d a b : Opnd) : Op :=
  intOp2 ty false noMods 6 d a b fun x y => (x * y).fdiv ((2 ^ (ityWidth ty) : Nat) : Int)
/-- R170. -/
def execImulh (h : Hdr) (ty : ITy) (d a b : Opnd) (s : State) : Host.Outcome State Fault Refusal :=
  (opImulh ty d a b).run (issOf h) s

def opImad (ty : ITy) (sat : Bool) (m : Mods) (d a b c : Opnd) : Op :=
  intOp3 ty sat m 6 d a b c fun x y z => x * y + z
/-- R169. -/
def execImad (h : Hdr) (ty : ITy) (sat : Bool) (m : Mods) (d a b c : Opnd) (s : State) :
    Host.Outcome State Fault Refusal :=
  (opImad ty sat m d a b c).run (issOf h) s

/-- R170: 32-bit factors, a 64-bit addend and result. -/
def opImadw (sg sat : Bool) (d a b x : Opnd) : Op :=
  natOp [fA a 1, fB b 1, fC x 2] d 2 6 fun c l =>
    let p := readInt sg 32 (c.rd 0 a l).toNat * readInt sg 32 (c.rd 1 b l).toNat
    narrowInt sat sg 64 (p + readInt sg 64 (c.rd64 2 x sg l).toNat)
/-- R170. -/
def execImadw (h : Hdr) (sg sat : Bool) (d a b c : Opnd) (s : State) : Host.Outcome State Fault Refusal :=
  (opImadw sg sat d a b c).run (issOf h) s

/-- A division: variable latency (R171). -/
def divOp (ty : ITy) (d a b : Opnd) (g : Int → Int → Nat) : Op where
  form := { arithForm [fA a (ityRegs ty), fB b (ityRegs ty)] d (ityRegs ty) 0 with lat := none }
  eff := fun c => .done (c.putOn c.lanes d (ityRegs ty)
    (fun l => g (readInt (itySigned ty) (ityWidth ty) (c.rdTy 0 a ty l)) (readInt (itySigned ty) (ityWidth ty) (c.rdTy 1 b ty l))) c.s)

def opIdiv (ty : ITy) (sat : Bool) (d a b : Opnd) : Op := divOp ty d a b (divInt (itySigned ty) (ityWidth ty) sat)
/-- R171, R39. -/
def execIdiv (h : Hdr) (ty : ITy) (sat : Bool) (d a b : Opnd) (s : State) : Host.Outcome State Fault Refusal :=
  (opIdiv ty sat d a b).run (issOf h) s

def opIrem (ty : ITy) (d a b : Opnd) : Op := divOp ty d a b (remInt (ityWidth ty))
/-- R171, R39. -/
def execIrem (h : Hdr) (ty : ITy) (d a b : Opnd) (s : State) : Host.Outcome State Fault Refusal :=
  (opIrem ty d a b).run (issOf h) s

def opImin (ty : ITy) (m : Mods) (d a b : Opnd) : Op := intOp2 ty false m 4 d a b min
/-- R169. -/
def execImin (h : Hdr) (ty : ITy) (m : Mods) (d a b : Opnd) (s : State) : Host.Outcome State Fault Refusal :=
  (opImin ty m d a b).run (issOf h) s

def opImax (ty : ITy) (m : Mods) (d a b : Opnd) : Op := intOp2 ty false m 4 d a b max
/-- R169. -/
def execImax (h : Hdr) (ty : ITy) (m : Mods) (d a b : Opnd) (s : State) : Host.Outcome State Fault Refusal :=
  (opImax ty m d a b).run (issOf h) s

def opIsad (ty : ITy) (sat : Bool) (d a b c : Opnd) : Op :=
  intOp3 ty sat noMods 4 d a b c fun x y z => ((x - y).natAbs : Int) + z
/-- R169. -/
def execIsad (h : Hdr) (ty : ITy) (sat : Bool) (d a b c : Opnd) (s : State) : Host.Outcome State Fault Refusal :=
  (opIsad ty sat d a b c).run (issOf h) s

def cmpIty : CmpTy → ITy
  | .s32 => .s32
  | .z32 => .z32
  | .s64 => .s64
  | .z64 => .z64

def opIcmp (ty : CmpTy) (k : ICmp) (kd : Nat) (a b : Opnd) : Op where
  form := maskForm [fA a (ityRegs (cmpIty ty)), fB b (ityRegs (cmpIty ty))] kd 4
  eff := fun c =>
    let t := cmpIty ty
    .done (c.putPred kd (fun l =>
      icmpHolds k (readInt (itySigned t) (ityWidth t) (c.rdTy 0 a t l)) (readInt (itySigned t) (ityWidth t) (c.rdTy 1 b t l))) c.s)
/-- R172. -/
def execIcmp (h : Hdr) (ty : CmpTy) (k : ICmp) (kd : Fin 8) (a b : Opnd) (s : State) :
    Host.Outcome State Fault Refusal :=
  (opIcmp ty k kd.val a b).run (issOf h) s

/-- Registers of a width code: 0 and 1 are 32 bits, 2 and 3 a pair (R173, R175). -/
def wRegs (w : Fin 4) : Nat := if wWide w then 2 else 1
def wBits (w : Fin 4) : Nat := 32 * wRegs w

/-- A source of a width code as a number; a 64-bit literal is zero-extended. -/
def Ctx.rdW (c : Ctx) (i : Nat) (o : Opnd) (w : Fin 4) (l : Nat) : Nat := c.rdN i o (wRegs w) l

def opSel (w : Fin 4) (d a b : Opnd) (kc : Nat) : Op where
  form := { arithForm [fA a (wRegs w), fB b (wRegs w), .mask 2 kc] d (wRegs w) 4 with pass := .vec }
  eff := fun c =>
    let k := c.rdMask 2 kc
    .done (c.putOn c.lanes d (wRegs w) (fun l => if k.getLsbD l then c.rdW 0 a w l else c.rdW 1 b w l) c.s)
/-- R173. -/
def execSel (h : Hdr) (w : Fin 4) (d a b : Opnd) (kc : Fin 8) (s : State) : Host.Outcome State Fault Refusal :=
  (opSel w d a b kc.val).run (issOf h) s

def opLea (ty : LeaTy) (d a b x : Opnd) : Op :=
  match ty with
  | .z32 => natOp [fA a 1, fB b 1, fC x 1] d 1 4 fun c l =>
      (c.rd 0 a l).toNat + (c.rd 1 b l).toNat * 2 ^ ((c.rd 2 x l).toNat % 32)
  | .s64 => natOp [fA a 2, fB b 1, fC x 1] d 2 4 fun c l =>
      wrapInt 64 (((c.rd64 0 a true l).toNat : Int) +
        readInt true 32 (c.rd 1 b l).toNat * ((2 ^ ((c.rd 2 x l).toNat % 64) : Nat) : Int))
  | .z64 => natOp [fA a 2, fB b 1, fC x 1] d 2 4 fun c l =>
      (c.rd64 0 a false l).toNat + (c.rd 1 b l).toNat * 2 ^ ((c.rd 2 x l).toNat % 64)
/-- R174. -/
def execLea (h : Hdr) (ty : LeaTy) (d a b c : Opnd) (s : State) : Host.Outcome State Fault Refusal :=
  (opLea ty d a b c).run (issOf h) s

/-- A bitwise major of R175. -/
def logicOp (w : Fin 4) (d a b : Opnd) (g : Nat → Nat → Nat) : Op :=
  natOp [fA a (wRegs w), fB b (wRegs w)] d (wRegs w) 4 fun c l => g (c.rdW 0 a w l) (c.rdW 1 b w l)

def opAnd (w : Fin 4) (d a b : Opnd) : Op := logicOp w d a b fun x y => x &&& y
/-- R175. -/
def execAnd (h : Hdr) (w : Fin 4) (d a b : Opnd) (s : State) : Host.Outcome State Fault Refusal :=
  (opAnd w d a b).run (issOf h) s
def opOr (w : Fin 4) (d a b : Opnd) : Op := logicOp w d a b fun x y => x ||| y
/-- R175. -/
def execOr (h : Hdr) (w : Fin 4) (d a b : Opnd) (s : State) : Host.Outcome State Fault Refusal :=
  (opOr w d a b).run (issOf h) s
def opXor (w : Fin 4) (d a b : Opnd) : Op := logicOp w d a b fun x y => x ^^^ y
/-- R175. -/
def execXor (h : Hdr) (w : Fin 4) (d a b : Opnd) (s : State) : Host.Outcome State Fault Refusal :=
  (opXor w d a b).run (issOf h) s
def opAndn (w : Fin 4) (d a b : Opnd) : Op := logicOp w d a b fun x y => x &&& (y ^^^ (2 ^ wBits w - 1))
/-- R175. -/
def execAndn (h : Hdr) (w : Fin 4) (d a b : Opnd) (s : State) : Host.Outcome State Fault Refusal :=
  (opAndn w d a b).run (issOf h) s

/-- A shift of R175: the amount is b mod the width. -/
def shiftOp (w : Fin 4) (d a b : Opnd) (g : Nat → Nat → Nat) : Op :=
  natOp [fA a (wRegs w), fB b 1] d (wRegs w) 4 fun c l => g (c.rdW 0 a w l) ((c.rd 1 b l).toNat % wBits w)

def opShl (w : Fin 4) (d a b : Opnd) : Op := shiftOp w d a b fun x n => x * 2 ^ n
/-- R175. -/
def execShl (h : Hdr) (w : Fin 4) (d a b : Opnd) (s : State) : Host.Outcome State Fault Refusal :=
  (opShl w d a b).run (issOf h) s
def opShr (w : Fin 4) (d a b : Opnd) : Op := shiftOp w d a b fun x n => x / 2 ^ n
/-- R175. -/
def execShr (h : Hdr) (w : Fin 4) (d a b : Opnd) (s : State) : Host.Outcome State Fault Refusal :=
  (opShr w d a b).run (issOf h) s
def opSar (w : Fin 4) (d a b : Opnd) : Op :=
  shiftOp w d a b fun x n => wrapInt (wBits w) ((readInt true (wBits w) x).fdiv ((2 ^ n : Nat) : Int))
/-- R175. -/
def execSar (h : Hdr) (w : Fin 4) (d a b : Opnd) (s : State) : Host.Outcome State Fault Refusal :=
  (opSar w d a b).run (issOf h) s
def opRol (w : Fin 4) (d a b : Opnd) : Op :=
  shiftOp w d a b fun x n => x * 2 ^ n + x / 2 ^ (wBits w - n)
/-- R175. -/
def execRol (h : Hdr) (w : Fin 4) (d a b : Opnd) (s : State) : Host.Outcome State Fault Refusal :=
  (opRol w d a b).run (issOf h) s

def opFshr (d a b x : Opnd) : Op :=
  natOp [fA a 1, fB b 1, fC x 1] d 1 4 fun c l =>
    (pairVal (c.rd 1 b l) (c.rd 0 a l)).toNat / 2 ^ ((c.rd 2 x l).toNat % 32)
/-- R176. -/
def execFshr (h : Hdr) (d a b c : Opnd) (s : State) : Host.Outcome State Fault Refusal := (opFshr d a b c).run (issOf h) s

/-- Position and length of R176, from b. -/
def fieldPos (b : W32) : Nat := min (b.toNat % 256) 32
def fieldLen (b : W32) : Nat := min (b.toNat / 256 % 256) (32 - fieldPos b)

def opBfe (sg : Bool) (d a b : Opnd) : Op :=
  natOp [fA a 1, fB b 1] d 1 4 fun c l =>
    let p := fieldPos (c.rd 1 b l)
    let n := fieldLen (c.rd 1 b l)
    if n = 0 then 0 else wrapInt 32 (readInt sg n ((c.rd 0 a l).toNat / 2 ^ p))
/-- R176. -/
def execBfe (h : Hdr) (sg : Bool) (d a b : Opnd) (s : State) : Host.Outcome State Fault Refusal :=
  (opBfe sg d a b).run (issOf h) s

def opBfi (d a b x : Opnd) : Op :=
  natOp [fA a 1, fB b 1, fC x 1] d 1 4 fun c l =>
    let p := fieldPos (c.rd 1 b l)
    let n := fieldLen (c.rd 1 b l)
    let y := (c.rd 2 x l).toNat
    y / 2 ^ (p + n) * 2 ^ (p + n) + (c.rd 0 a l).toNat % 2 ^ n * 2 ^ p + y % 2 ^ p
/-- R176. -/
def execBfi (h : Hdr) (d a b c : Opnd) (s : State) : Host.Outcome State Fault Refusal := (opBfi d a b c).run (issOf h) s

/-- Set bits among the low n. -/
def popNat (n v : Nat) : Nat := ((List.range n).filter v.testBit).length

/-- Zero bits above the highest set bit, and below the lowest, of n bits. -/
def clzNat (n v : Nat) : Nat := (((List.range n).reverse).takeWhile fun i => !v.testBit i).length
def ctzNat (n v : Nat) : Nat := ((List.range n).takeWhile fun i => !v.testBit i).length

/-- The n bits in reverse order. -/
def revNat (n v : Nat) : Nat := (List.range n).foldl (fun acc i => 2 * acc + (v.testBit i).toNat) 0

/-- A bit-count major of R177. -/
def countOp (w : Fin 4) (rd : Nat) (d a : Opnd) (g : Nat → Nat → Nat) : Op :=
  natOp [fA a (wRegs w)] d rd 4 fun c l => g (wBits w) (c.rdW 0 a w l)

def opPopc (w : Fin 4) (d a : Opnd) : Op := countOp w 1 d a popNat
/-- R177. -/
def execPopc (h : Hdr) (w : Fin 4) (d a : Opnd) (s : State) : Host.Outcome State Fault Refusal :=
  (opPopc w d a).run (issOf h) s
def opClz (w : Fin 4) (d a : Opnd) : Op := countOp w 1 d a clzNat
/-- R177. -/
def execClz (h : Hdr) (w : Fin 4) (d a : Opnd) (s : State) : Host.Outcome State Fault Refusal :=
  (opClz w d a).run (issOf h) s
def opCtz (w : Fin 4) (d a : Opnd) : Op := countOp w 1 d a ctzNat
/-- R177. -/
def execCtz (h : Hdr) (w : Fin 4) (d a : Opnd) (s : State) : Host.Outcome State Fault Refusal :=
  (opCtz w d a).run (issOf h) s
def opBrev (w : Fin 4) (d a : Opnd) : Op := countOp w (wRegs w) d a revNat
/-- R177. -/
def execBrev (h : Hdr) (w : Fin 4) (d a : Opnd) (s : State) : Host.Outcome State Fault Refusal :=
  (opBrev w d a).run (issOf h) s

/-- Byte i of R178's result. -/
def prmbByte (src sel i : Nat) : Nat :=
  let n := sel / 2 ^ (4 * i) % 16
  let y := src / 2 ^ (8 * (n % 8)) % 256
  if n < 8 then y else if y / 128 = 1 then 0xFF else 0

def opPrmb (d a b x : Opnd) : Op :=
  natOp [fA a 1, fB b 1, fC x 1] d 1 4 fun c l =>
    packElems 8 4 (prmbByte ((c.rd 0 a l).toNat + 2 ^ 32 * (c.rd 1 b l).toNat) (c.rd 2 x l).toNat)
/-- R178. -/
def execPrmb (h : Hdr) (d a b c : Opnd) (s : State) : Host.Outcome State Fault Refusal := (opPrmb d a b c).run (issOf h) s

/-- R179's dot product of n elements of w bits. -/
def dotOp (w n : Nat) (sat sa sb : Bool) (d a b x : Opnd) : Op :=
  natOp [fA a 1, fB b 1, fC x 1] d 1 6 fun c l =>
    let sg := sa || sb
    let p := (List.range n).foldl (fun acc i =>
      acc + readInt sa w ((c.rd 0 a l).toNat / 2 ^ (w * i)) * readInt sb w ((c.rd 1 b l).toNat / 2 ^ (w * i))) (0 : Int)
    narrowInt sat sg 32 (readInt sg 32 (c.rd 2 x l).toNat + p)

def opIdot4 (sat sa sb : Bool) (d a b c : Opnd) : Op := dotOp 8 4 sat sa sb d a b c
/-- R179. -/
def execIdot4 (h : Hdr) (sat sa sb : Bool) (d a b c : Opnd) (s : State) : Host.Outcome State Fault Refusal :=
  (opIdot4 sat sa sb d a b c).run (issOf h) s
def opIdot2 (sat sa sb : Bool) (d a b c : Opnd) : Op := dotOp 16 2 sat sa sb d a b c
/-- R179. -/
def execIdot2 (h : Hdr) (sat sa sb : Bool) (d a b c : Opnd) (s : State) : Host.Outcome State Fault Refusal :=
  (opIdot2 sat sa sb d a b c).run (issOf h) s

def opMov (w : Fin 4) (d a : Opnd) : Op := natOp [fA a (wRegs w)] d (wRegs w) 4 fun c l => c.rdW 0 a w l
/-- R180. -/
def execMov (h : Hdr) (w : Fin 4) (d a : Opnd) (s : State) : Host.Outcome State Fault Refusal :=
  (opMov w d a).run (issOf h) s

end Sys2Proof.Machine
end

