-- ==== Sys2Proof/Machine/Float.lean ====
section
/-! DEFINITION. The float majors 0x40 to 0x59 (R181 to R188). -/

namespace Sys2Proof.Machine

def ftyFmt : FTy → FFmt
  | .f32 => fp32
  | .bf16x2 => bf16
  | .f16x2 => fp16

/-- Elements of a register (R37). -/
def ftyCount : FTy → Nat
  | .f32 => 1
  | _ => 2

/-- The sign bit cleared, then inverted, as the modifiers ask (R66). -/
def signMod (f : FFmt) (neg abs : Bool) (bits : Nat) : Nat :=
  let top := 2 ^ (f.expo + f.frac)
  let mag := bits % top
  let sg : Bool := (bits / top % 2 == 1 && !abs) != neg
  f.withSign sg mag

/-- Element e of a register's bits in a format. -/
def fElem (f : FFmt) (bits e : Nat) : Nat := bits / 2 ^ (f.width * e) % 2 ^ f.width

/-- Element e of a source after its modifiers. -/
def fSrc (f : FFmt) (neg abs : Bool) (bits : W32) (e : Nat) : Nat := signMod f neg abs (fElem f bits.toNat e)

/-- The scale field as a power of two (R66). -/
def scaleOf (m : Mods) : Int := m.scale.toInt

/-- Clamping after rounding (R66). -/
def clampIf (f : FFmt) (m : Mods) (bits : Nat) : Nat := if m.clamp then f.clamp01 bits else bits

/-- An exact result scaled, rounded once and clamped (R66, R181). -/
def fFinish (f : FFmt) (rm : Rm) (m : Mods) (v : FVal) : Nat := clampIf f m (f.encode rm (v.scale (scaleOf m)))

/-- A float major of up to three sources; g takes the modified bits of element e. -/
def floatOp (ty : FTy) (m : Mods) (srcs : List Opnd) (d : Opnd) (lat : Nat)
    (g : FFmt → Nat → Nat → Nat → Nat) : Op :=
  let a := srcs.getD 0 .zero
  let b := srcs.getD 1 .zero
  let x := srcs.getD 2 .zero
  natOp ([fA a 1, fB b 1, fC x 1].take srcs.length) d 1 lat fun c l =>
    let f := ftyFmt ty
    packElems f.width (ftyCount ty) fun e =>
      g f (fSrc f m.nega m.absa (c.rd 0 a l) e) (fSrc f m.negb m.absb (c.rd 1 b l) e)
        (fSrc f m.negc m.absc (c.rd 2 x l) e)

def opFadd (ty : FTy) (rm : Rm) (m : Mods) (d a b : Opnd) : Op :=
  floatOp ty m [a, b] d 6 fun f x y _ => fFinish f rm m (FVal.sum rm [f.decode x, f.decode y])
/-- R182. -/
def execFadd (h : Hdr) (ty : FTy) (rm : Rm) (m : Mods) (d a b : Opnd) (s : State) : Host.Outcome State Fault Refusal :=
  (opFadd ty rm m d a b).run (issOf h) s

def opFsub (ty : FTy) (rm : Rm) (m : Mods) (d a b : Opnd) : Op :=
  floatOp ty m [a, b] d 6 fun f x y _ => fFinish f rm m (FVal.sum rm [f.decode x, (f.decode y).neg])
/-- R182. -/
def execFsub (h : Hdr) (ty : FTy) (rm : Rm) (m : Mods) (d a b : Opnd) (s : State) : Host.Outcome State Fault Refusal :=
  (opFsub ty rm m d a b).run (issOf h) s

def opFmul (ty : FTy) (rm : Rm) (m : Mods) (d a b : Opnd) : Op :=
  floatOp ty m [a, b] d 6 fun f x y _ => fFinish f rm m ((f.decode x).mul (f.decode y))
/-- R182. -/
def execFmul (h : Hdr) (ty : FTy) (rm : Rm) (m : Mods) (d a b : Opnd) (s : State) : Host.Outcome State Fault Refusal :=
  (opFmul ty rm m d a b).run (issOf h) s

def opFfma (ty : FTy) (rm : Rm) (m : Mods) (d a b x : Opnd) : Op :=
  floatOp ty m [a, b, x] d 6 fun f x y z =>
    fFinish f rm m (FVal.sum rm [(f.decode x).mul (f.decode y), f.decode z])
/-- R182: the product is not rounded. -/
def execFfma (h : Hdr) (ty : FTy) (rm : Rm) (m : Mods) (d a b c : Opnd) (s : State) :
    Host.Outcome State Fault Refusal :=
  (opFfma ty rm m d a b c).run (issOf h) s

def opFmin (ty : FTy) (m : Mods) (d a b : Opnd) : Op :=
  floatOp ty m [a, b] d 6 fun f x y _ => clampIf f m (fMinMax f false x y)
/-- R183. -/
def execFmin (h : Hdr) (ty : FTy) (m : Mods) (d a b : Opnd) (s : State) : Host.Outcome State Fault Refusal :=
  (opFmin ty m d a b).run (issOf h) s

def opFmax (ty : FTy) (m : Mods) (d a b : Opnd) : Op :=
  floatOp ty m [a, b] d 6 fun f x y _ => clampIf f m (fMinMax f true x y)
/-- R183. -/
def execFmax (h : Hdr) (ty : FTy) (m : Mods) (d a b : Opnd) (s : State) : Host.Outcome State Fault Refusal :=
  (opFmax ty m d a b).run (issOf h) s

def opFcmp (k : FCmp) (m : Mods) (kd : Nat) (a b : Opnd) : Op where
  form := maskForm [fA a 1, fB b 1] kd 6
  eff := fun c => .done (c.putPred kd (fun l =>
    fcmpHolds k (fp32.decode (fSrc fp32 m.nega m.absa (c.rd 0 a l) 0))
      (fp32.decode (fSrc fp32 m.negb m.absb (c.rd 1 b l) 0))) c.s)
/-- R184. -/
def execFcmp (h : Hdr) (k : FCmp) (m : Mods) (kd : Fin 8) (a b : Opnd) (s : State) :
    Host.Outcome State Fault Refusal :=
  (opFcmp k m kd.val a b).run (issOf h) s

def classFmt : ClassFmt → FFmt
  | .f32 => fp32
  | .bf16 => bf16
  | .f16 => fp16

def opFclass (cf : ClassFmt) (m : Mods) (kd : Nat) (a b : Opnd) : Op where
  form := maskForm [fA a 1, fB b 1] kd 6
  eff := fun c => .done (c.putPred kd (fun l =>
    (c.uni 1 b).getLsbD (fclassBit (classFmt cf) (fSrc (classFmt cf) m.nega m.absa (c.rd 0 a l) 0))) c.s)
/-- R185. -/
def execFclass (h : Hdr) (cf : ClassFmt) (m : Mods) (kd : Fin 8) (a b : Opnd) (s : State) :
    Host.Outcome State Fault Refusal :=
  (opFclass cf m kd.val a b).run (issOf h) s

/-- R186: rounding to an integral value, which keeps the sign of a zero. -/
def frndBits (f : FFmt) (rm : Rm) (bits : Nat) : Nat :=
  match f.decode bits with
  | .nan => f.nanBits
  | .inf s => f.withSign s f.infBits
  | .fin s m e => f.encode rm (.fin s (roundInt rm s m e).natAbs 0)

def opFrnd (ty : FTy) (rm : Rm) (m : Mods) (d a : Opnd) : Op :=
  floatOp ty m [a] d 6 fun f x _ _ => clampIf f m (frndBits f rm x)
/-- R186. -/
def execFrnd (h : Hdr) (ty : FTy) (rm : Rm) (m : Mods) (d a : Opnd) (s : State) : Host.Outcome State Fault Refusal :=
  (opFrnd ty rm m d a).run (issOf h) s

/-- The power element e of b gives (R186). -/
def fscaleK (ty : FTy) (b : W32) (e : Nat) : Int :=
  match ty with
  | .f32 => readInt true 32 b.toNat
  | _ => readInt true 16 (b.toNat / 2 ^ (16 * e))

def opFscale (ty : FTy) (rm : Rm) (m : Mods) (d a b : Opnd) : Op :=
  natOp [fA a 1, fB b 1] d 1 6 fun c l =>
    let f := ftyFmt ty
    packElems f.width (ftyCount ty) fun e =>
      fFinish f rm m ((f.decode (fSrc f m.nega m.absa (c.rd 0 a l) e)).scale (fscaleK ty (c.rd 1 b l) e))
/-- R186. -/
def execFscale (h : Hdr) (ty : FTy) (rm : Rm) (m : Mods) (d a b : Opnd) (s : State) :
    Host.Outcome State Fault Refusal :=
  (opFscale ty rm m d a b).run (issOf h) s

/-- R186's exponent of an element, in w bits. -/
def fexpoBits (f : FFmt) (w bits : Nat) : Nat :=
  match f.decode bits with
  | .nan => 2 ^ (w - 1) - 2
  | .inf _ => 2 ^ (w - 1) - 1
  | .fin _ m e => if m = 0 then 2 ^ (w - 1) else wrapInt w (floorLog2 m e)

def opFexpo (cf : ClassFmt) (d a : Opnd) : Op :=
  natOp [fA a 1] d 1 6 fun c l =>
    let f := classFmt cf
    packElems f.width (32 / f.width) fun e => fexpoBits f f.width (fElem f (c.rd 0 a l).toNat e)
/-- R186. -/
def execFexpo (h : Hdr) (cf : ClassFmt) (d a : Opnd) (s : State) : Host.Outcome State Fault Refusal :=
  (opFexpo cf d a).run (issOf h) s

def opFdot2 (bf : Bool) (rm : Rm) (m : Mods) (d a b x : Opnd) : Op :=
  natOp [fA a 1, fB b 1, fC x 1] d 1 6 fun c l =>
    let f := if bf then bf16 else fp16
    let p : Nat → FVal := fun e =>
      (f.decode (fSrc f m.nega m.absa (c.rd 0 a l) e)).mul (f.decode (fSrc f m.negb m.absb (c.rd 1 b l) e))
    fFinish fp32 rm m (FVal.sum rm [p 0, p 1, fp32.decode (fSrc fp32 m.negc m.absc (c.rd 2 x l) 0)])
/-- R187. -/
def execFdot2 (h : Hdr) (bf : Bool) (rm : Rm) (m : Mods) (d a b c : Opnd) (s : State) :
    Host.Outcome State Fault Refusal :=
  (opFdot2 bf rm m d a b c).run (issOf h) s

/-- A function of one FP32 source, scaled, rounded once and clamped (R188). -/
def fnOp (rm : Rm) (m : Mods) (d a : Opnd) (g : FVal → FVal) : Op :=
  floatOp .f32 m [a] d 12 fun f x _ _ => fFinish f rm m (g (f.decode x))

def opFrcp (rm : Rm) (m : Mods) (d a : Opnd) : Op := fnOp rm m d a FVal.rcp
/-- R188. -/
def execFrcp (h : Hdr) (rm : Rm) (m : Mods) (d a : Opnd) (s : State) : Host.Outcome State Fault Refusal :=
  (opFrcp rm m d a).run (issOf h) s
def opFrsq (rm : Rm) (m : Mods) (d a : Opnd) : Op := fnOp rm m d a FVal.rsqrt
/-- R188. -/
def execFrsq (h : Hdr) (rm : Rm) (m : Mods) (d a : Opnd) (s : State) : Host.Outcome State Fault Refusal :=
  (opFrsq rm m d a).run (issOf h) s
def opFsqrt (rm : Rm) (m : Mods) (d a : Opnd) : Op := fnOp rm m d a FVal.sqrt
/-- R188. -/
def execFsqrt (h : Hdr) (rm : Rm) (m : Mods) (d a : Opnd) (s : State) : Host.Outcome State Fault Refusal :=
  (opFsqrt rm m d a).run (issOf h) s
def opFexp2 (m : Mods) (d a : Opnd) : Op := fnOp .rne m d a FVal.exp2
/-- R188. -/
def execFexp2 (h : Hdr) (m : Mods) (d a : Opnd) (s : State) : Host.Outcome State Fault Refusal :=
  (opFexp2 m d a).run (issOf h) s
def opFlog2 (m : Mods) (d a : Opnd) : Op := fnOp .rne m d a FVal.log2
/-- R188. -/
def execFlog2 (h : Hdr) (m : Mods) (d a : Opnd) (s : State) : Host.Outcome State Fault Refusal :=
  (opFlog2 m d a).run (issOf h) s
def opFsin (m : Mods) (d a : Opnd) : Op := fnOp .rne m d a FVal.sinPi
/-- R188. -/
def execFsin (h : Hdr) (m : Mods) (d a : Opnd) (s : State) : Host.Outcome State Fault Refusal :=
  (opFsin m d a).run (issOf h) s
def opFcos (m : Mods) (d a : Opnd) : Op := fnOp .rne m d a FVal.cosPi
/-- R188. -/
def execFcos (h : Hdr) (m : Mods) (d a : Opnd) (s : State) : Host.Outcome State Fault Refusal :=
  (opFcos m d a).run (issOf h) s
def opFtanh (m : Mods) (d a : Opnd) : Op := fnOp .rne m d a FVal.tanh
/-- R188. -/
def execFtanh (h : Hdr) (m : Mods) (d a : Opnd) (s : State) : Host.Outcome State Fault Refusal :=
  (opFtanh m d a).run (issOf h) s
def opFsigm (m : Mods) (d a : Opnd) : Op := fnOp .rne m d a FVal.sigm
/-- R188. -/
def execFsigm (h : Hdr) (m : Mods) (d a : Opnd) (s : State) : Host.Outcome State Fault Refusal :=
  (opFsigm m d a).run (issOf h) s

def opFdiv (rm : Rm) (m : Mods) (d a b : Opnd) : Op :=
  let o := floatOp .f32 m [a, b] d 0 fun f x y _ => fFinish f rm m ((f.decode x).div (f.decode y))
  { o with form := { o.form with lat := none } }
/-- R182: variable latency. -/
def execFdiv (h : Hdr) (rm : Rm) (m : Mods) (d a b : Opnd) (s : State) : Host.Outcome State Fault Refusal :=
  (opFdiv rm m d a b).run (issOf h) s

end Sys2Proof.Machine
end

