-- ==== Sys2Proof/Machine/Convert.lean ====
section
/-! DEFINITION. The conversions, majors 0x60 to 0x64 (R189 to R193). -/

namespace Sys2Proof.Machine

/-- The overflow table of the launch's context as it stands (R46). -/
def Ctx.ov (c : Ctx) : W32 := ovtab c.s c.e.la.ctx

/-- One narrowing of CVT (R36, R189) of a modified FP32 source. -/
def narrowTo (f : FFmt) (pol : Nat) (rm : Rm) (x : Nat) : Nat := f.narrow pol rm (fp32.decode x)

/-- R189's result in a lane. -/
def cvtBits (k : CvtKind) (m : Mods) (ov a b x : W32) : Nat :=
  let xa := fSrc fp32 m.nega m.absa a 0
  let xb := fSrc fp32 m.negb m.absb b 0
  let widen (f : FFmt) (n : Nat) : Nat := fp32.encode .rne (f.decode (fElem f a.toNat (b.toNat % n)))
  match k with
  | .f32bf16 => widen bf16 2
  | .f32f16 => widen fp16 2
  | .f32nf8 => widen nf8 4
  | .bf16 rm => narrowTo bf16 (polBf16 ov) rm xa + 2 ^ 16 * narrowTo bf16 (polBf16 ov) rm xb
  | .f16 rm => narrowTo fp16 (polFp16 ov) rm xa + 2 ^ 16 * narrowTo fp16 (polFp16 ov) rm xb
  | .nf8 rm =>
    narrowTo nf8 (polNf8 ov) rm xa + 2 ^ 8 * narrowTo nf8 (polNf8 ov) rm xb + 2 ^ 16 * (x.toNat % 2 ^ 16)

def opCvt (k : CvtKind) (m : Mods) (d a b x : Opnd) : Op :=
  natOp [fA a 1, fB b 1, fC x 1] d 1 6 fun c l => cvtBits k m c.ov (c.rd 0 a l) (c.rd 1 b l) (c.rd 2 x l)
/-- R189. -/
def execCvt (h : Hdr) (k : CvtKind) (m : Mods) (d a b c : Opnd) (s : State) : Host.Outcome State Fault Refusal :=
  (opCvt k m d a b c).run (issOf h) s

def opFtoi (ty : CmpTy) (rm : Rm) (m : Mods) (d a : Opnd) : Op :=
  natOp [fA a 1] d (ityRegs (cmpIty ty)) 6 fun c l =>
    ftoiNarrow (polQ8 c.ov) (itySigned (cmpIty ty)) (ityWidth (cmpIty ty)) rm
      ((fp32.decode (fSrc fp32 m.nega m.absa (c.rd 0 a l) 0)).scale (scaleOf m))
/-- R190, R49. -/
def execFtoi (h : Hdr) (ty : CmpTy) (rm : Rm) (m : Mods) (d a : Opnd) (s : State) : Host.Outcome State Fault Refusal :=
  (opFtoi ty rm m d a).run (issOf h) s

def opItof (ty : CmpTy) (rm : Rm) (m : Mods) (d a : Opnd) : Op :=
  natOp [fA a (ityRegs (cmpIty ty))] d 1 6 fun c l =>
    let t := cmpIty ty
    let v := readInt (itySigned t) (ityWidth t) (c.rdTy 0 a t l)
    fp32.encode rm ((FVal.fin (decide (v < 0)) v.natAbs 0).scale (scaleOf m))
/-- R191. -/
def execItof (h : Hdr) (ty : CmpTy) (rm : Rm) (m : Mods) (d a : Opnd) (s : State) : Host.Outcome State Fault Refusal :=
  (opItof ty rm m d a).run (issOf h) s

/-- One mask word of R192: block of the lanes 32w to 32w + 31, written to every live lane of the word. A lane outside the
execution mask whose indexed destination breaks R133 keeps its registers (log entry 16). -/
def qpackWord (c : Ctx) (q : QFmt) (m : Mods) (d a : Opnd) (s : State) (w : Nat) : State :=
  let xs := (List.range 32).map fun j =>
    if c.m.getLsbD (32 * w + j) then fp32.decode (fSrc fp32 m.nega m.absa (c.rd 0 a (32 * w + j)) 0) else .fin false 0 0
  let (ex, ms) := qpackBlock (qBits q) (polQ c.ov q) xs
  let stream := qStream (qBits q) ms
  let live := (List.range 32).filter fun j =>
    c.e.rcd.k0.getLsbD (32 * w + j) && (c.m.getLsbD (32 * w + j) || (match d with
      | .x n => !idxBad c.e.rcd.alloc 1 (c.xval n.val (32 * w + j))
      | _ => true))
  c.putOn (live.map fun j => 32 * w + j) d 1
    (fun l => if l % 32 < qBits q then stream / 2 ^ (32 * (l % 32)) % 2 ^ 32 else ex) s

def opQpack (q : QFmt) (m : Mods) (d a : Opnd) : Op where
  form := { arithForm [fA a 1] d 1 8 with pass := .vec }
  eff := fun c => .done ((liveWords c.m 32 c.e.team.lanes).foldl (qpackWord c q m d a) c.s)
/-- R192. -/
def execQpack (h : Hdr) (q : QFmt) (m : Mods) (d a : Opnd) (s : State) : Host.Outcome State Fault Refusal :=
  (opQpack q m d a).run (issOf h) s

def opQunpk (q : QFmt) (d a b x : Opnd) : Op :=
  natOp [fA a 2, fB b 1, fC x 1] d 1 6 fun c l =>
    let o := (c.rd 1 b l).toNat % 64
    let bits := qBits q
    qunpkElem (polFp32 c.ov) ((c.rd 2 x l).toNat % 256)
      (readInt true bits ((c.rd64 0 a false l).toNat / 2 ^ o))
/-- R193. -/
def execQunpk (h : Hdr) (q : QFmt) (d a b c : Opnd) (s : State) : Host.Outcome State Fault Refusal :=
  (opQunpk q d a b c).run (issOf h) s

end Sys2Proof.Machine
end

