-- ==== Sys2Proof/Machine/Cross.lean ====
section
/-! DEFINITION. The cross-lane majors 0x70 to 0x75 (R194 to R199) on the lane-index tree of R52. -/

namespace Sys2Proof.Machine

/-- A tree operation's node and identity (R195). -/
def treeNode (op : TreeOp) (x y : Nat) : Nat :=
  let sat (sg : Bool) : Nat := narrowInt true sg 32 (readInt sg 32 x + readInt sg 32 y)
  match op with
  | .iadd => (x + y) % 2 ^ 32
  | .iaddS32Sat => sat true
  | .iaddZ32Sat => sat false
  | .iadd64 => (x + y) % 2 ^ 64
  | .iminS32 => if readInt true 32 x ≤ readInt true 32 y then x else y
  | .iminZ32 => min x y
  | .imaxS32 => if readInt true 32 x ≤ readInt true 32 y then y else x
  | .imaxZ32 => max x y
  | .and => x &&& y
  | .or => x ||| y
  | .xor => x ^^^ y
  | .fadd => fp32.encode .rne (FVal.sum .rne [fp32.decode x, fp32.decode y])
  | .fmin => fMinMax fp32 false x y
  | .fmax => fMinMax fp32 true x y

def treeIdent : TreeOp → Nat
  | .iminS32 => 0x7FFFFFFF
  | .iminZ32 | .and => 0xFFFFFFFF
  | .imaxS32 | .fadd => 0x80000000
  | .fmin => 0x7F800000
  | .fmax => 0xFF800000
  | _ => 0

/-- Two children of a node, of which each may be absent (R52). -/
def joinNodes (op : TreeOp) : Option Nat → Option Nat → Option Nat
  | some x, some y => some (treeNode op x y)
  | some x, none => some x
  | none, y => y

/-- The node for lanes [lo, lo + 2^j) (R52). -/
def treeAt (op : TreeOp) (v : Nat → Option Nat) : Nat → Nat → Option Nat
  | 0, lo => v lo
  | j + 1, lo => joinNodes op (treeAt op v j lo) (treeAt op v j (lo + 2 ^ j))

/-- The least j with n ≤ 2^j. -/
def treeDepth (n : Nat) : Nat := if n ≤ 1 then 0 else Nat.log2 (n - 1) + 1

/-- The largest aligned subtrees that cover lanes lo to n − 1, combined from left to right onto an accumulated value (R52): those
of 2^j lanes and fewer. -/
def coverFrom (op : TreeOp) (v : Nat → Option Nat) (n : Nat) : Nat → Nat → Option Nat → Option Nat
  | 0, lo, acc => if lo + 1 ≤ n then joinNodes op acc (v lo) else acc
  | j + 1, lo, acc =>
    if lo + 2 ^ (j + 1) ≤ n then coverFrom op v n j (lo + 2 ^ (j + 1)) (joinNodes op acc (treeAt op v (j + 1) lo))
    else coverFrom op v n j lo acc

/-- The combination of lanes 0 to n − 1 as R52 covers them. -/
def prefixUpTo (op : TreeOp) (v : Nat → Option Nat) (n : Nat) : Option Nat := coverFrom op v n (treeDepth (n + 1)) 0 none

def treeRegs (op : TreeOp) : Nat := if op = .iadd64 then 2 else 1

/-- A source's value in each lane of P; the literal of `.iadd.64` is zero-extended (log entry 115), absent elsewhere. -/
def Ctx.treeVal (c : Ctx) (op : TreeOp) (a : Opnd) (l : Nat) : Option Nat :=
  if c.m.getLsbD l then some (c.rdN 0 a (treeRegs op) l) else none

/-- A cross-lane form (R194). -/
def crossForm (srcs : List Field) (d : Opnd) (n : Nat) : Form := ⟨srcs, [.opnd 3 d n], .cross, some 8, .run, true, false⟩

/-- One whose lanes read different lanes, and are marked by what each read (R252). -/
def laneForm (srcs : List Field) (d : Opnd) (n : Nat) : Form := { crossForm srcs d n with probe := .own }

def opTred (op : TreeOp) (d a : Opnd) : Op where
  form := crossForm [fA a (treeRegs op)] d (treeRegs op)
  eff := fun c =>
    .done (c.putUni d (treeRegs op) ((treeAt op (c.treeVal op a) (treeDepth c.e.team.lanes) 0).getD 0) c.s)
/-- R195. -/
def execTred (h : Hdr) (op : TreeOp) (d a : Opnd) (s : State) : Host.Outcome State Fault Refusal :=
  (opTred op d a).run (issOf h) s

def opTscan (op : TreeOp) (excl : Bool) (d a : Opnd) : Op where
  form := laneForm [fA a (treeRegs op)] d (treeRegs op)
  eff := fun c =>
    let before : Nat → Nat → Bool := fun l j => if excl then decide (j < l) else decide (j ≤ l)
    .done (c.markLanes (fD d (treeRegs op)) (fun l => c.lanes.any fun j => before l j && c.markedAt [fA a (treeRegs op)] j)
      (c.putOn c.lanes d (treeRegs op) (fun l =>
      (prefixUpTo op (c.treeVal op a) (if excl then l else l + 1)).getD (treeIdent op)) c.s))
/-- R195, R52. -/
def execTscan (h : Hdr) (op : TreeOp) (excl : Bool) (d a : Opnd) (s : State) : Host.Outcome State Fault Refusal :=
  (opTscan op excl d a).run (issOf h) s

/-- R196's source lane: b is unsigned for `idx`, signed for `up` and `down`. -/
def shflLane (md : Shfl) (l : Nat) (b : W32) : Int :=
  match md with
  | .idx => b.toNat
  | .up => l - b.toInt
  | .down => l + b.toInt
  | .xor => (l ^^^ (b.toNat % 1024) : Nat)

/-- The source lane where it is a lane of k0, else none. -/
def shflSrc (k0 : LaneMask) (md : Shfl) (l : Nat) (b : W32) : Option Nat :=
  let src := shflLane md l b
  if 0 ≤ src ∧ src < 1024 ∧ k0.getLsbD src.toNat then some src.toNat else none

def opTshfl (md : Shfl) (wide : Bool) (d a b x : Opnd) : Op where
  form := laneForm [fA a (if wide then 2 else 1), fB b 1, fC x (if wide then 2 else 1)] d (if wide then 2 else 1)
  eff := fun c =>
    let n := if wide then 2 else 1
    let from_ : Nat → Option Nat := fun l => shflSrc c.e.rcd.k0 md l (c.rd 1 b l)
    .done (c.markLanes (fD d n) (fun l => c.markedAt [fB b 1] l || (match from_ l with
        | some src => c.markedAt [fA a n] src
        | none => c.markedAt [fC x n] l))
      (c.putOn c.lanes d n (fun l =>
        match from_ l with
        | some src => c.rdN 0 a n src
        | none => c.rdN 2 x n l) c.s))
/-- R196. -/
def execTshfl (h : Hdr) (md : Shfl) (wide : Bool) (d a b c : Opnd) (s : State) : Host.Outcome State Fault Refusal :=
  (opTshfl md wide d a b c).run (issOf h) s

def opTbcst (first wide : Bool) (d a b x : Opnd) : Op where
  form := laneForm [fA a (if wide then 2 else 1), fB b 1, fC x (if wide then 2 else 1)] d (if wide then 2 else 1)
  eff := fun c =>
    let n := if wide then 2 else 1
    let low := c.e.low c.m
    let src := if first then low else (c.uni 1 b).toNat
    let live : Bool := decide (src < 1024) && c.e.rcd.k0.getLsbD src
    let val : Nat → Nat := fun l => if live then c.rdN 0 a n src else c.rdN 2 x n l
    .done (c.markLanes (fD d n) (fun l => (!first && c.markedAt [fB b 1] l)
        || (if live then c.markedAt [fA a n] src else c.markedAt [fC x n] (if opIsS d then low else l)))
      (match d with
      | .s _ => c.putUni d n (val low) c.s
      | _ => c.putOn c.lanes d n val c.s))
/-- R197. -/
def execTbcst (h : Hdr) (first wide : Bool) (d a b c : Opnd) (s : State) : Host.Outcome State Fault Refusal :=
  (opTbcst first wide d a b c).run (issOf h) s

/-- Every value of a list is the same. -/
def allSame : List Nat → Bool
  | [] => true
  | x :: l => l.all fun y => y == x

/-- R198. -/
def voteHolds (md : VoteOp) (vals : List Nat) : Bool :=
  match md with
  | .any => vals.any fun v => v != 0
  | .all => vals.all fun v => v != 0
  | .none => vals.all fun v => v == 0
  | .uni => allSame vals

def opVote (md : VoteOp) (d a : Opnd) : Op where
  form := crossForm [fA a 1] d 1
  eff := fun c => .done (c.putUni d 1 (voteHolds md (c.lanes.map fun l => (c.rd 0 a l).toNat)).toNat c.s)
/-- R198. -/
def execVote (h : Hdr) (md : VoteOp) (d a : Opnd) (s : State) : Host.Outcome State Fault Refusal :=
  (opVote md d a).run (issOf h) s

def opMatch (all wide : Bool) (kd : Nat) (a : Opnd) : Op where
  form := ⟨[fA a (if wide then 2 else 1)], [.mask 3 kd], .cross, some 8, .run, true, false⟩
  eff := fun c =>
    let n := if wide then 2 else 1
    let ls := c.lanes
    let same := allSame (ls.map fun l => c.rdN 0 a n l)
    .done (c.putPred kd (fun l =>
      if all then same
      else (ls.find? fun j => c.rdN 0 a n j == c.rdN 0 a n l) == some l) c.s)
/-- R199. -/
def execMatch (h : Hdr) (all wide : Bool) (kd : Fin 8) (a : Opnd) (s : State) : Host.Outcome State Fault Refusal :=
  (opMatch all wide kd.val a).run (issOf h) s

end Sys2Proof.Machine
end

