-- ==== Sys2Proof/Machine/Compact.lean ====
section
/-! DEFINITION. The compact form, which executes as the full instruction it expands to (R70 to R72, R85), and the pair word
(R73 to R75). -/

namespace Sys2Proof.Machine

/-- The body of a full instruction that a compact word expands to, with its header. -/
def compactOp (i : Instr) : Option (Hdr × Op) :=
  match i with
  | .nop h => some (h, opNop)
  | .mov h w d a => some (h, opMov w d a)
  | .iadd h ty sat m d a b => some (h, opIadd ty sat m d a b)
  | .isub h ty sat m d a b => some (h, opIsub ty sat m d a b)
  | .imul h ty sat m d a b => some (h, opImul ty sat m d a b)
  | .imin h ty m d a b => some (h, opImin ty m d a b)
  | .imax h ty m d a b => some (h, opImax ty m d a b)
  | .andL h w d a b => some (h, opAnd w d a b)
  | .orL h w d a b => some (h, opOr w d a b)
  | .xorL h w d a b => some (h, opXor w d a b)
  | .shl h w d a b => some (h, opShl w d a b)
  | .shr h w d a b => some (h, opShr w d a b)
  | .sar h w d a b => some (h, opSar w d a b)
  | .popc h w d a => some (h, opPopc w d a)
  | .clz h w d a => some (h, opClz w d a)
  | .fadd h ty rm m d a b => some (h, opFadd ty rm m d a b)
  | .fsub h ty rm m d a b => some (h, opFsub ty rm m d a b)
  | .fmul h ty rm m d a b => some (h, opFmul ty rm m d a b)
  | .fmin h ty m d a b => some (h, opFmin ty m d a b)
  | .fmax h ty m d a b => some (h, opFmax ty m d a b)
  | .frcp h rm m d a => some (h, opFrcp rm m d a)
  | .frsq h rm m d a => some (h, opFrsq rm m d a)
  | .fexp2 h m d a => some (h, opFexp2 m d a)
  | .cvt h k m d a b c => some (h, opCvt k m d a b c)
  | .itof h ty rm m d a => some (h, opItof ty rm m d a)
  | .ftoi h ty rm m d a => some (h, opFtoi ty rm m d a)
  | .icmp h ty k kd a b => some (h, opIcmp ty k kd.val a b)
  | .fcmp h k m kd a b => some (h, opFcmp k m kd.val a b)
  | .sel h w d a b kc => some (h, opSel w d a b kc.val)
  | .lds h mc sx d a b => some (h, opLds mc sx d a b)
  | .sts h mc a b c => some (h, opSts mc a b c)
  | .ld h mc sx d a b => some (h, opLd mc sx d a b)
  | .st h mc a b c => some (h, opSt mc a b c)
  | .tshfl h md wide d a b c => some (h, opTshfl md wide d a b c)
  | .bar h a b => some (h, opBar a b)
  | .waitc h cls a => some (h, opWaitc cls.val a)
  | .yield h => some (h, opYield)
  | .bra h off => some (h, opBra off)
  | .exit h => some (h, opExit)
  | .ret h a => some (h, opRet a)
  | .abarWait h g a b => some (h, opAbarWait g a b)
  | .cbacq h g tag d a => some (h, opCbacq g tag d a)
  | .cbrel h g a => some (h, opCbrel g a)
  | _ => none

/-- What a compact word issues: its schedule and body; a word that R71 or R72 breaks is ILLOP. -/
def compactBody (i : Instr) : Iss × Op :=
  match (expand i).bind compactOp with
  | some (h, o) => (cissOf h, o)
  | none => (⟨4, 0, 1, 0, false, 0⟩, Op.illegal)

/-- A compact word executes as the full instruction would (R71). -/
def compactRun (i : Instr) (s : State) : Host.Outcome State Fault Refusal :=
  (compactBody i).2.run (compactBody i).1 s

/-- A compact `nop`, which ignores its fields but stall (R72). -/
def compactNopRun (w : CRaw) (s : State) : Host.Outcome State Fault Refusal := opNop.run (nopIss (cissOf (cHdr0 w))) s

/-- R72. -/
def execCompactMov (w : CRaw) (s : State) : Host.Outcome State Fault Refusal := compactRun (.compactMov w) s
/-- R72. -/
def execCompactIaddS32 (w : CRaw) (s : State) : Host.Outcome State Fault Refusal := compactRun (.compactIaddS32 w) s
/-- R72. -/
def execCompactIsubS32 (w : CRaw) (s : State) : Host.Outcome State Fault Refusal := compactRun (.compactIsubS32 w) s
/-- R72. -/
def execCompactImulS32 (w : CRaw) (s : State) : Host.Outcome State Fault Refusal := compactRun (.compactImulS32 w) s
/-- R72. -/
def execCompactIminS32 (w : CRaw) (s : State) : Host.Outcome State Fault Refusal := compactRun (.compactIminS32 w) s
/-- R72. -/
def execCompactImaxS32 (w : CRaw) (s : State) : Host.Outcome State Fault Refusal := compactRun (.compactImaxS32 w) s
/-- R72. -/
def execCompactAnd (w : CRaw) (s : State) : Host.Outcome State Fault Refusal := compactRun (.compactAnd w) s
/-- R72. -/
def execCompactOr (w : CRaw) (s : State) : Host.Outcome State Fault Refusal := compactRun (.compactOr w) s
/-- R72. -/
def execCompactXor (w : CRaw) (s : State) : Host.Outcome State Fault Refusal := compactRun (.compactXor w) s
/-- R72. -/
def execCompactShl (w : CRaw) (s : State) : Host.Outcome State Fault Refusal := compactRun (.compactShl w) s
/-- R72. -/
def execCompactShr (w : CRaw) (s : State) : Host.Outcome State Fault Refusal := compactRun (.compactShr w) s
/-- R72. -/
def execCompactSar (w : CRaw) (s : State) : Host.Outcome State Fault Refusal := compactRun (.compactSar w) s
/-- R72. -/
def execCompactIaddS64 (w : CRaw) (s : State) : Host.Outcome State Fault Refusal := compactRun (.compactIaddS64 w) s
/-- R72. -/
def execCompactPopc (w : CRaw) (s : State) : Host.Outcome State Fault Refusal := compactRun (.compactPopc w) s
/-- R72. -/
def execCompactClz (w : CRaw) (s : State) : Host.Outcome State Fault Refusal := compactRun (.compactClz w) s
/-- R72. -/
def execCompactFaddF32 (w : CRaw) (s : State) : Host.Outcome State Fault Refusal := compactRun (.compactFaddF32 w) s
/-- R72. -/
def execCompactFsubF32 (w : CRaw) (s : State) : Host.Outcome State Fault Refusal := compactRun (.compactFsubF32 w) s
/-- R72. -/
def execCompactFmulF32 (w : CRaw) (s : State) : Host.Outcome State Fault Refusal := compactRun (.compactFmulF32 w) s
/-- R72. -/
def execCompactFminF32 (w : CRaw) (s : State) : Host.Outcome State Fault Refusal := compactRun (.compactFminF32 w) s
/-- R72. -/
def execCompactFmaxF32 (w : CRaw) (s : State) : Host.Outcome State Fault Refusal := compactRun (.compactFmaxF32 w) s
/-- R72. -/
def execCompactFaddBf16x2 (w : CRaw) (s : State) : Host.Outcome State Fault Refusal := compactRun (.compactFaddBf16x2 w) s
/-- R72. -/
def execCompactFmulBf16x2 (w : CRaw) (s : State) : Host.Outcome State Fault Refusal := compactRun (.compactFmulBf16x2 w) s
/-- R72. -/
def execCompactFrcp (w : CRaw) (s : State) : Host.Outcome State Fault Refusal := compactRun (.compactFrcp w) s
/-- R72. -/
def execCompactFrsq (w : CRaw) (s : State) : Host.Outcome State Fault Refusal := compactRun (.compactFrsq w) s
/-- R72. -/
def execCompactFexp2 (w : CRaw) (s : State) : Host.Outcome State Fault Refusal := compactRun (.compactFexp2 w) s
/-- R72. -/
def execCompactCvtF32Bf16lo (w : CRaw) (s : State) : Host.Outcome State Fault Refusal := compactRun (.compactCvtF32Bf16lo w) s
/-- R72. -/
def execCompactCvtBf16F32 (w : CRaw) (s : State) : Host.Outcome State Fault Refusal := compactRun (.compactCvtBf16F32 w) s
/-- R72. -/
def execCompactItofS32 (w : CRaw) (s : State) : Host.Outcome State Fault Refusal := compactRun (.compactItofS32 w) s
/-- R72. -/
def execCompactFtoiS32 (w : CRaw) (s : State) : Host.Outcome State Fault Refusal := compactRun (.compactFtoiS32 w) s
/-- R72. -/
def execCompactIcmpEq (w : CRaw) (s : State) : Host.Outcome State Fault Refusal := compactRun (.compactIcmpEq w) s
/-- R72. -/
def execCompactIcmpLtS32 (w : CRaw) (s : State) : Host.Outcome State Fault Refusal := compactRun (.compactIcmpLtS32 w) s
/-- R72. -/
def execCompactFcmpLt (w : CRaw) (s : State) : Host.Outcome State Fault Refusal := compactRun (.compactFcmpLt w) s
/-- R72. -/
def execCompactSel (w : CRaw) (s : State) : Host.Outcome State Fault Refusal := compactRun (.compactSel w) s
/-- R209. -/
def execCompactLds32 (ord : BitVec 2) (w : CRaw) (s : State) : Host.Outcome State Fault Refusal := compactRun (.compactLds32 ord w) s
/-- R209. -/
def execCompactSts32 (ord : BitVec 2) (w : CRaw) (s : State) : Host.Outcome State Fault Refusal := compactRun (.compactSts32 ord w) s
/-- R209. -/
def execCompactLd32 (ord : BitVec 2) (w : CRaw) (s : State) : Host.Outcome State Fault Refusal := compactRun (.compactLd32 ord w) s
/-- R209. -/
def execCompactSt32 (ord : BitVec 2) (w : CRaw) (s : State) : Host.Outcome State Fault Refusal := compactRun (.compactSt32 ord w) s
/-- R72. -/
def execCompactTshflXor (w : CRaw) (s : State) : Host.Outcome State Fault Refusal := compactRun (.compactTshflXor w) s
/-- R72. -/
def execCompactBar (w : CRaw) (s : State) : Host.Outcome State Fault Refusal := compactRun (.compactBar w) s
/-- R72. -/
def execCompactWaitc (w : CRaw) (s : State) : Host.Outcome State Fault Refusal := compactRun (.compactWaitc w) s
/-- R72. -/
def execCompactYield (w : CRaw) (s : State) : Host.Outcome State Fault Refusal := compactRun (.compactYield w) s
/-- R72. -/
def execCompactBra (w : CRaw) (s : State) : Host.Outcome State Fault Refusal := compactRun (.compactBra w) s
/-- R72. -/
def execCompactExit (w : CRaw) (s : State) : Host.Outcome State Fault Refusal := compactRun (.compactExit w) s
/-- R72. -/
def execCompactRet (w : CRaw) (s : State) : Host.Outcome State Fault Refusal := compactRun (.compactRet w) s
/-- R72. -/
def execCompactAbarWait (w : CRaw) (s : State) : Host.Outcome State Fault Refusal := compactRun (.compactAbarWait w) s
/-- R307. -/
def execCompactCbacq (w : CRaw) (s : State) : Host.Outcome State Fault Refusal := compactRun (.compactCbacq w) s
/-- R307. -/
def execCompactCbrel (w : CRaw) (s : State) : Host.Outcome State Fault Refusal := compactRun (.compactCbrel w) s

/-- R72. -/
def execCompactNop (_sub : BitVec 2) (w : CRaw) (s : State) : Host.Outcome State Fault Refusal := compactNopRun w s

/-- R85. The entry word executes as the compact `nop` that it is. -/
def execEntryWord (w : CRaw) (s : State) : Host.Outcome State Fault Refusal := compactNopRun w s

/-! The pair (R75). -/

/-- A body of a pair: a `nop` ignores its fields and issues under the other body's mask (R74). -/
def pairBody (p other : PBody) : Iss × Op :=
  if p.cop = 0 then
    ({ cissOf (cHdr0 p.w) with kmask := if other.cop = 0 then 0 else other.w.kmask.val }, opNop)
  else
    match bodyInstr p with
    | some i => compactBody i
    | none => (⟨4, 0, 1, 0, false, 0⟩, Op.illegal)

/-- R75. -/
def execPair (a b : PBody) (s : State) : Host.Outcome State Fault Refusal :=
  let x := pairBody a b
  let y := pairBody b a
  issuePair x.2.form y.2.form x.1 y.1 x.2.eff y.2.eff s

end Sys2Proof.Machine
end

