-- ==== Sys2Proof/Machine/Reload.lean ====
section
/-! DEFINITION. A context record read back at restore (R263 to R267): its fields as memory holds them, and the fields outside their
range. What the record does not say in numbers of the spec (log entry 28) is kept from the save. -/

namespace Sys2Proof.Machine

/-- A number at an offset of an image. -/
def imgNum (img : List Byte) (at_ n : Nat) : Nat := leNat ((img.drop at_).take n)

/-- n numbers of w bytes from an offset. -/
def imgNums (img : List Byte) (at_ w n : Nat) : List Nat :=
  let part := (img.drop at_).take (w * n)
  (List.range n).map fun i => leNat ((part.drop (w * i)).take w)

/-- A sub-team record (R265): none where the place is all zero. -/
def imgRecord (img : List Byte) (t : Team) (n : Nat) : Option Record :=
  let r := (img.drop (512 * n)).take 512
  if r.all fun x => x == 0 then none
  else
    let old : Record := (t.rec? n).getD ⟨n, 0, 0, Config.root, 0, .ready, none, false, false, 0, 0, 0, []⟩
    let w := imgNum r 8 8
    let lanes : LaneMask := BitVec.ofNat _ (imgNum r 256 128)
    some { old with pc := w64 (imgNum r 0 8), parent := w % 1024, alloc := 8 * bitsOf w 20 16, yielded := w.testBit 32,
                    k0 := BitVec.ofNat _ (imgNum r 128 128),
                    held := if lanes = 0 then none
                      else some ⟨lanes, w64 (imgNum r 16 8), (old.held.map Held.atJoin).getD false⟩ }

/-- A split entry: one without arms is empty. -/
def imgSplit (w : Nat) : Option Split :=
  if bitsOf w 37 32 = 0 then none else some ⟨bitsOf w 8 0, bitsOf w 25 16, bitsOf w 37 32⟩

def imgSlot (w : Nat) : Slot := ⟨w.testBit 63, w.testBit 62, bitsOf w 61 53, bitsOf w 52 48, bitsOf w 23 16, bitsOf w 15 0⟩

/-- Words of lanes: word j of lane l at `at_ + 4 (l * pitch + j)`, under the key of register j. -/
def imgLanes (img : List Byte) (at_ lanes pitch : Nat) (key : Nat → Nat → Nat) : SMap W32 :=
  ((imgNums img at_ 4 (lanes * pitch)).zipIdx).foldl (fun m p =>
    if p.1 = 0 then m else smSet 0 m (key (p.2 % pitch) (p.2 / pitch)) (w32 p.1)) []

/-- A team section (R265). -/
def imgTeam (h : LaunchHdr) (img : List Byte) (t : Team) : Team :=
  let sp : Nat → W64 := fun i => w64 (imgNum img (0x4580 + 8 * i) 8)
  { t with
    records := (List.range 32).filterMap (imgRecord img t)
    splits := (imgNums img 0x4000 8 32).filterMap imgSplit
    s := smSetList 0 [] 0 ((imgNums img 0x4100 4 64).map w32)
    k := smSetList 0 [] 1 ((imgNums img 0x4200 128 7).map fun n => (BitVec.ofNat _ n : LaneMask))
    mode := loHalf (sp 1), prio := loHalf (sp 2), trapc := loHalf (sp 3), trapa := sp 4, trappc := sp 5, trapst := loHalf (sp 6)
    vs := sp 7, bstat := sp 8, gmiss := loHalf (sp 9)
    drawn := imgNum img 0x4600 4
    slots := (imgNums img 0x4610 8 4).map imgSlot
    v := imgLanes img 0x8000 (h.ext 0) h.ceiling vKey
    x := imgLanes img (0x8000 + 4 * h.ext 0 * h.ceiling) (h.ext 0) 8 vKey }

/-- A `BAR` state (R264). -/
def imgBar (w : Nat) : BarState :=
  let arrived := (List.range 16).filter fun t => w.testBit t
  ⟨arrived, if arrived.isEmpty then none else some (bitsOf w 20 16), w.testBit 31⟩

/-- A tile's descriptor (R264) over what the save left of it. -/
def imgTile (st : TileStat) (w addr : Nat) : TileStat :=
  { st with valid := w % 4 != 0, dirty := w.testBit 2, track := if 2 ≤ w % 4 then w % 4 else st.track,
            addr := if 2 ≤ w % 4 then w64 addr else st.addr }

/-- An operation of the copy engine: what it has done (R305). -/
def imgCopy (img : List Byte) (o : CopyOp) : CopyOp :=
  { o with done := imgNum img 4 4, misses := imgNum img 8 4, desc := setBytes [] 0 ((img.drop 32).take 128) }

/-- A plane copy's tag and source (R334). -/
def imgPlanes (img : List Byte) (at_ : Nat) (m : SMap Plane) : SMap Plane :=
  (imgNums img at_ 8 8).zipIdx.foldl (fun m p =>
    smSet ⟨0, 0, []⟩ m p.2 { smGet ⟨0, 0, []⟩ m p.2 with tag := p.1 % 16, src := p.1 / 2 ^ 32 }) m

/-- A block as its record has it. -/
def imgBlock (h : LaunchHdr) (img : List Byte) (b : Block) : Block :=
  let ts := teamSection h
  let tileAt := 4096 + h.ext 1 * ts
  let scr := tileAt + 262144
  let ops := img.drop (scr + roundUp h.scratch 4096)
  let tiles := (imgNums img tileAt 4 65536).zipIdx.foldl (fun m p => smSet 0 m p.2 (w32 p.1)) b.mat.tiles
  let stat := (List.range 8).foldl (fun m t =>
    let st := imgTile (blockTile b t) (imgNum img (0xC0 + 16 * t) 8) (imgNum img (0xC8 + 16 * t) 8)
    smSet noTile m t { st with nb := imgNum ops (0xA80 + 8 * t) 2 }) b.mat.stat
  { b with
    teams := b.teams.map fun t => imgTeam h ((img.drop (4096 + ts * t.idx)).take ts) t
    bars := smSetList ⟨[], none, false⟩ [] 0 ((imgNums img 0x20 8 16).map imgBar)
    sb := smSetList 0 [] 0 ((imgNums img 0xA0 8 4).map w64)
    arms := b.arms.map fun a => { a with desc := setBytes a.desc 0 ((img.drop (0x140 + 64 * a.n)).take 63) }
    scratch := setBytes [] 0 ((img.drop scr).take b.scratchLen)
    copies := b.copies.zipIdx.map fun p => imgCopy ((ops.drop (160 * p.2)).take 160) p.1
    mat := { b.mat with tiles := tiles, stat := stat, active := imgPlanes ops 0xA00 b.mat.active
                        shadow := imgPlanes ops 0xA40 b.mat.shadow } }

/-- A sub-team record outside its range (R117, R121, R134). -/
def Record.strange (h : LaunchHdr) (t : Team) (r : Record) : Bool :=
  decide (r.alloc < 8) || decide (h.ceiling < r.alloc) || r.pc.toNat % 4 != 0
    || !(r.parent == Config.root || t.splits.any fun p => p.entry == r.parent)
    || decide (2 ^ t.lanes ≤ r.k0.toNat) || (r.held.any fun g => decide (2 ^ t.lanes ≤ g.lanes.toNat))

/-- Fields of a team outside their range. -/
def Team.strange (t : Team) : Bool :=
  (t.splits.any fun p => !(p.parent == Config.root || t.splits.any fun q => q.entry == p.parent))
    || decide (Config.poolRegs < t.drawn) || decide (64 ≤ t.prio.toNat) || (t.slots.any fun k => decide (256 < k.lines) || decide (16 < k.homes))

/-- The first sub-team of a block that a field outside its range affects: for a field of the block or the team, its first. -/
def strangeRec (h : LaunchHdr) (head : List Byte) (v : Saved) (b : Block) : Option (Team × Record) :=
  let all := b.teams.flatMap fun t => t.records.map fun r => (t, r)
  let bars := (imgNums head 0x20 8 16).any fun w => decide (16 < bitsOf w 20 16)
  if bars || imgNum head 0 8 % 64 != v.blk.q || imgNum head 4 4 != v.blk.lseq || imgNum head 8 8 != v.blk.idx then all.head?
  else all.find? fun p => p.2.strange h p.1 || p.1.strange

/-- A saved block as restore finds its record (R267), or the sub-team that a field outside its range affects. -/
def readRecord (s : State) (la : Launch) (v : Saved) : Except (Team × Record) Saved :=
  match la.blkRecs.find? fun r => r.1 == v.blk.idx with
  | none => .ok v
  | some r =>
    let img := paRead s (ctxKey s la.ctx) r.2.toNat (blockRecLen la.hdr)
    if img = blockImage la.hdr v then .ok v
    else
      let b := imgBlock la.hdr img v.blk
      match strangeRec la.hdr (img.take 4096) v b with
      | some p => .error p
      | none => .ok { v with blk := b }

end Sys2Proof.Machine
end

