-- ==== Sys2Proof/Machine/Place.lean ====
section
/-! DEFINITION. The distributor and the regulator loops (R109 to R111, R262, R271, R310), and restore (R269, R270, R306, R335). -/

namespace Sys2Proof.Machine

/-! What a block needs of a core (R109, R110, R139). -/

/-- A reservation of a launch on a core. -/
def Reserve.mine (core q lseq : Nat) (r : Reserve) : Bool := r.core == core && r.q == q && r.lseq == lseq

/-- What other waiting blocks have reserved of a core's scratchpad and registers (R110). -/
def othersReserve (s : State) (core : Nat) (mine : Reserve → Bool) : Nat × Nat :=
  (s.reserves.filter fun r => r.core == core && !mine r).foldl (fun n r => (n.1 + r.scratch, n.2 + r.regs)) (0, 0)

/-- Rows of a core that a block may take: free ones, and those held for it. -/
def rowsFor (s : State) (core : Nat) (mine : Reserve → Bool) : List Nat :=
  freeRows s core ++ (s.reserves.filter mine).flatMap Reserve.rows

/-- A core under test is kept idle (R484). -/
def coreTested (s : State) (core : Nat) : Bool :=
  s.tests.any fun t => t.rep.cls == 4 && t.rep.unit.toNat % 2 ^ 32 == coreId core

/-- A core has what a block needs. -/
def coreFits (s : State) (core : Nat) (mine : Reserve → Bool) (n : Need) : Bool :=
  let o := othersReserve s core mine
  decide (core < 384) && !coreFenced s core && !coreTested s core && decide (n.rows ≤ (rowsFor s core mine).length)
    && decide (n.scratch ≤ scratchFree s core - o.1) && decide (n.regs ≤ poolFree s core - o.2)

/-- Team t takes the quadrant with the most free rows, the lowest-numbered among equals, and its lowest row. -/
def pickRow (free : List Nat) : Option Nat :=
  let n : Nat → Nat := fun quad => (free.filter fun r => r / 16 == quad).length
  let quad := (List.range 4).foldl (fun b i => if n b < n i then i else b) 0
  (List.range Config.rows).find? fun r => r / 16 == quad && free.contains r

/-- Rows of k teams in order. -/
def pickRows (free : List Nat) : Nat → List Nat
  | 0 => []
  | k + 1 =>
    match pickRow free with
    | none => []
    | some r => r :: pickRows (free.filter fun i => i != r) k

/-! Operating points (R111, R492, R493). -/

def dieAt (s : State) (die : Nat) : Die := if die = 0 then s.die0 else s.die1
def Die.limit (d : Die) : Nat := if d.hot then min d.cap 7 else d.cap

/-- A launch that has blocks to place, or saved ones to place again. -/
def awaitsPlace (s : State) (la : Launch) : Bool :=
  wantsPlace la || (la.state == .running && s.saved.any fun v => !v.hold && v.blk.q == la.q && v.blk.lseq == la.lseq)

/-- The first block of a launch on a die waits for a stable point (R111). -/
def pointReady (s : State) (la : Launch) (core : Nat) : Bool :=
  let die := coreDie core
  ((s.blocksOf la.q la.lseq).any fun b => coreDie b.coreNum == die) ||
    decide (min la.hdr.oppt (dieAt s die).limit ≤ (dieAt s die).point)

/-- The regulator loop reports the point that the launches resident on the die and those that wait for it ask for. -/
def oppointStable (s : State) (die : Nat) : State :=
  let up : Die → Die := fun d =>
    let want := (s.launches.filter (awaitsPlace s)).foldl (fun n l => max n l.hdr.oppt) (dieWants s die d)
    { d with point := max d.point (min d.limit want) }
  if die = 0 then { s with die0 := up s.die0 } else if die = 1 then { s with die1 := up s.die1 } else s

/-- OPPOINT_STABLE. -/
def execOppointStable (die : Nat) (s : State) : Host.Outcome State Fault Refusal := .next (oppointStable s die)

/-! Placement (R109, R117, R262, R271). -/

/-- Space in the record area for a block: the launch record first (R262). -/
def reserveRecord (s : State) (la : Launch) (idx : Nat) : Option State :=
  let s? := match la.recBase with
    | some _ => some s
    | none => (findRoom s la.ctx 4096).map fun a => s.modLaunch la.q la.lseq fun l => { l with recBase := some a }
  s?.bind fun s =>
    (findRoom s la.ctx (blockRecLen la.hdr)).map fun a =>
      s.modLaunch la.q la.lseq fun l => { l with blkRecs := l.blkRecs ++ [(idx, w64 a)] }

/-- The teams of a new block on its rows. -/
def newTeams (s : State) (la : Launch) (idx : Nat) (rows : List Nat) : List Team :=
  let h := la.hdr
  let args : SMap W32 := smSetList 0 [] 0 h.args
  rows.zipIdx.map fun p =>
    newTeam p.2 p.1 (h.ext 0) (h.wid idx p.2) h.entry h.budget args la.prio s.time (h.budget * h.ext 0)

/-- The reservations of a launch for a block, and on the core it is placed on, end; rows left of them are leased on (R110). -/
def placedReserves (s : State) (q lseq idx core : Nat) (rows : List Nat) : State :=
  dropReserves s (fun r => r.q == q && r.lseq == lseq && (r.idx == idx || r.core == core)) rows

/-- The launch's next block placed on a core. -/
def placeBlock (s : State) (q lseq core : Nat) : Option State :=
  match s.launch? q lseq with
  | none => none
  | some la =>
    let idx := la.hdr.linear la.nextIdx
    if wantsPlace la && coreFits s core (Reserve.mine core q lseq) (needOf la.hdr) && pointReady s la core then
      (reserveRecord s la idx).map fun s =>
        let rows := pickRows (rowsFor s core (Reserve.mine core q lseq)) (la.hdr.ext 1)
        let b := newBlock s.nextId q lseq idx (.core core) (newTeams s la idx rows) la.hdr.scratch
        let s := { s with blocks := s.blocks ++ [b], nextId := s.nextId + 1 }.modLaunch q lseq fun l =>
          { l with nextIdx := l.nextIdx + 1, state := .running }
        dieLower (placedReserves s q lseq idx core rows)
    else none

/-- The unit that is placed whole: one block, a cluster group, or every block (R109). -/
def unitLen (h : LaunchHdr) : Nat := if h.cores then h.blocks else if 0 < h.width 2 then h.ext 2 else 1

/-- Groups of consecutive blocks lie on one cluster each. -/
def groupsTogether (n : Nat) (cores : List Nat) : Bool :=
  cores.zipIdx.all fun p => coreCluster p.1 == coreCluster (cores.getD (p.2 / n * n) 0)

/-- Another launch that goes first by R110 and whose next block fits a core. -/
def goesFirst (s : State) (la : Launch) (cores : List Nat) : Bool :=
  s.launches.any fun l =>
    !(l.q == la.q && l.lseq == la.lseq) && wantsPlace l && unitLen l.hdr == 1
      && (decide (placePrio la < placePrio l) || (placePrio la == placePrio l && decide (l.eligAt < la.eligAt)))
      && cores.any fun c => coreFits s c (Reserve.mine c l.q l.lseq) (needOf l.hdr) && pointReady s l c

/-- A launch that waits for placement and can never be placed (R109, R487). -/
def neverPlaced (s : State) (la : Launch) : Bool :=
  awaitsPlace s la && !everPlaced s la && (s.blocksOf la.q la.lseq).isEmpty

/-- The next unit of a launch placed on the named cores, whole or not at all. -/
def blockPlacement (s : State) (q lseq : Nat) (cores : List Nat) : State :=
  match s.launch? q lseq with
  | none => s
  | some la =>
    if neverPlaced s la then giveUp s la 4
    else if cores.length = unitLen la.hdr && groupsTogether (la.hdr.ext 2) cores && !goesFirst s la cores then
      (cores.foldl (fun (o : Option State) c => o.bind fun s => placeBlock s q lseq c) (some s)).getD s
    else s

/-- BLOCK_PLACEMENT. -/
def execBlockPlacement (q lseq : Nat) (cores : List Nat) (s : State) : Host.Outcome State Fault Refusal :=
  .next (blockPlacement s q lseq cores)

/-- Each full millisecond that a launch has waited with a block unplaced raises its placement priority (R110). -/
def placementAging (s : State) (q lseq : Nat) : State :=
  s.modLaunch q lseq fun l =>
    if awaitsPlace s l && decide (l.waitSince + 1000000 * (l.waited + 1) ≤ s.time) && decide (l.prio + l.waited < 63) then
      { l with waited := l.waited + 1 }
    else l

/-- PLACEMENT_AGING. -/
def execPlacementAging (q lseq : Nat) (s : State) : Host.Outcome State Fault Refusal := .next (placementAging s q lseq)

/-! Restore (R269, R270). -/

/-- The saved blocks that are placed again together, in ascending index (R259). -/
def savedUnit (s : State) (la : Launch) (idx : Nat) : List Saved :=
  let mine := s.saved.filter fun v => v.blk.q == la.q && v.blk.lseq == la.lseq
  let grp : Nat → Nat := fun i => i / 2 ^ la.hdr.width 2
  let unit := if la.hdr.cores then mine else mine.filter fun v => grp v.blk.idx == grp idx
  unit.foldl (fun l v =>
    l.takeWhile (fun w => decide (w.blk.idx < v.blk.idx)) ++ v :: l.dropWhile fun w => decide (w.blk.idx < v.blk.idx)) []

/-- A wait as it is entered again: an instruction that was held issues afresh, an arrival stands. -/
def Wait.again (w : Wait) : Wait :=
  match w with
  | .bar i n => .bar i n
  | .gbar i n => .gbar i n
  | .abar a e n => .abar a e n
  | .claim n i x => .claim n i x
  | .join e => .join e
  | _ => .ready

/-- A restored team, on its new row. -/
def restoredTeam (now : Nat) (row : Nat) (t : Team) : Team :=
  { t with row := row, halted := false,
           records := t.records.map fun r => { r with wait := r.wait.again, readySince := now, aged := false } }

/-- A plane copy reloaded from its source offset (R335). -/
def reloadPlane (b : Block) (p : Plane) : Plane := if p.tag = 0 then p else { p with img := b.copyOut p.src (256 * rowBytes p.tag) }

/-- The issue-side copy rebuilt from the restored engine, the instructions re-entered, the blocks held, and the collectives in flight
(R313, R335, R412). -/
def reissue (b : Block) (m : Matrix) : Matrix :=
  let tags : SMap Plane → SMap Nat := fun ps => ps.filterMap fun p => if p.2.tag = 0 then none else some (p.1, p.2.tag)
  let ops := m.queue.filter fun o => !o.fin
  let r := ops.foldl (fun (a : (SMap Nat × SMap Nat) × SMap TileStat) o =>
    (tagEffect o.ins a.1.1 a.1.2, statEffect true o.ins o.va o.vb a.2)) ((tags m.active, tags m.shadow), m.stat)
  let held := m.acq.filter fun a => !a.applied && !a.stalled
  let st := held.foldl (fun n a => setStat n a.tile fun st => { st with nb := (st.nb + 1) % 65536 }) r.2
  let st := (b.colls.filter fun c => c.started).foldl (fun n c => setStat n c.tile TileStat.soil) st
  { m with iactive := r.1.1, ishadow := r.1.2, istat := st }

/-- A block as it stands once placed again: planes from their images, arms to be tested afresh. -/
def restoredBlock (now core : Nat) (rows : List Nat) (b : Block) : Block :=
  let live := b.teams.filter fun t => !t.left
  let rowOf : Team → Nat := fun t => rows.getD ((live.map Team.idx).findIdx fun i => i == t.idx) t.row
  let planes : SMap Plane → SMap Plane := fun m => m.map fun p => (p.1, reloadPlane b p.2)
  Block.retest { b with
    site := .core core
    teams := b.teams.map fun t => if t.left then t else restoredTeam now (rowOf t) t
    mat := reissue b { b.mat with active := planes b.mat.active, shadow := planes b.mat.shadow } }

/-- One block of a unit put on a core. Leased copies on the core's die go, so that the block reads nothing there older than what it has
read or written before (R229; log entry 118). -/
def restoreBlock (s : State) (la : Launch) (v : Saved) (core : Nat) : Option State :=
  let need := savedNeed v.blk
  let engine := v.blk.mat.owned && s.blocks.any fun b => b.site == .core core && b.mat.owned
  let mine := Reserve.mine core la.q la.lseq
  if coreFits s core mine need && pointReady s la core && !engine then
    let rows := pickRows (rowsFor s core mine) need.rows
    let b := restoredBlock s.time core rows v.blk
    let s := dropLines s fun c => c.die == coreDie core && c.stamp.isSome
    let s := { s with blocks := s.blocks ++ [b], saved := s.saved.filter fun w => w.blk.bid != v.blk.bid }
    some (dieLower (placedReserves s la.q la.lseq v.blk.idx core rows))
  else none

/-- A clean tile reloaded from the image that its last tracking `TST` stored (R266). -/
def reloadTile (s : State) (la : Launch) (bid t : Nat) : State :=
  match s.block? bid with
  | none => s
  | some b =>
    let st := blockTile b t
    if tileSaveState b t < 2 then s
    else
      let src := if st.track = 3 then some (b, st.addr.toNat) else winAt s la b st.addr.toNat
      match src with
      | none => s
      | some (c, off) =>
        s.modMat bid fun m =>
          { m with tiles := putTile m.tiles t fun r n => w32 (c.num (off + r * st.pitch + 4 * n) 4) }

/-- The missing page that an attention instruction or a `BFETCH` meets first when it goes on (R269). -/
def attMissing (s : State) (b : Block) (la : Launch) (o : AttOp) : Option Nat :=
  let next := if o.entered then ((o.pages.drop (o.groups / 2)).take 1).flatMap fun p => pagesOf p.toNat (kvBytes (adescOf o.desc).cfg)
    else pagesOf (adescOf o.desc).seq 128
  next.find? fun a => !windowOf a && (siteTranslate s b la.ctx a).isNone

/-- Engine operations re-entered (R261, R269, R306): a copy that waited for a slot reserves afresh; one whose next unit has no
translation stops the launch, as do an attention instruction and a `BFETCH`. -/
def reenterOps (s : State) (la : Launch) (bid : Nat) : State :=
  match s.block? bid with
  | none => s
  | some b =>
    let s := b.atts.foldl (fun s o =>
      match attMissing s b la o with
      | some a => engineFault s b la o.team o.pc (cXLATE, a) (attAhead o)
      | none => s) s
    let s := b.fetches.foldl (fun s o =>
      let a := o.addr.toNat
      if !windowOf a && (siteTranslate s b la.ctx a).isNone then engineFault s b la o.team o.pc (cXLATE, a) [] else s) s
    b.copies.foldl (fun s o =>
      if o.phase = .waitSlot then copyStart s la bid o.id
      else if o.phase = .running ∧ o.done < o.total then
        match (o.step b).moves.findSome? (moveFail s b la) with
        | some e => if e.1 = cXLATE then engineFault s b la o.team o.pc e (copyAhead b o) else s
        | none => s
      else s) s

/-- Claims in progress enter the tail of the core's queue (R139). -/
def requeueClaims (s : State) (bid : Nat) : State :=
  match s.block? bid with
  | none => s
  | some b =>
    let reqs : List ClaimReq := b.teams.flatMap fun t => t.records.filterMap fun r =>
      match r.wait with
      | .claim n _ next => some ⟨b.coreNum, ⟨bid, t.idx, r.num⟩, n, n * countLanes r.k0 t.lanes, next, s.time⟩
      | _ => none
    reqs.foldl (fun s c => grantHead { s with claims := s.claims ++ [c] } c.core) s

/-- A unit after it has been put in place: tiles, engine operations, claims, and what its teams wait for. -/
def restoreUnit (s : State) (la : Launch) (bids : List Nat) : State :=
  let s := bids.foldl (fun s i => (List.range 8).foldl (fun s t => reloadTile s la i t) s) s
  let s := bids.foldl (fun s i => reenterOps s la i) s
  let s := bids.foldl requeueClaims s
  let now := s.time
  let s := bids.foldl (fun s i => s.modBlock i (barTestAll now)) s
  let s := gbarTestAll s la.q la.lseq
  bids.foldl (fun s i =>
    match s.block? i with
    | none => s
    | some b => (b.teams.map Team.idx).foldl (fun s t => leaveTest s i t) s) s

/-- The saved blocks as their records have them, or the block and sub-team that a field outside its range affects (R267). -/
def readUnit (s : State) (la : Launch) (l : List Saved) : Except (Block × Team × Record) (List Saved) :=
  l.foldr (fun v acc =>
    match readRecord s la v, acc with
    | .error p, _ => .error (v.blk, p)
    | .ok _, .error p => .error p
    | .ok w, .ok ws => .ok (w :: ws)) (.ok [])

/-- A launch stopped by a record that restore cannot take (R267). -/
def recordStop (s : State) (p : Block × Team × Record) : State :=
  let lane := (lowLane p.2.2.k0 p.2.1.lanes).getD 0
  stopLaunch s p.1.q p.1.lseq
    { cause := cILLOP, pc := p.2.2.pc, trapa := 0, wid := p.2.1.wid0 + w64 lane, at_ := s.time, core := p.1.coreNum, row := p.2.1.row,
      reason := 0, hold := false, silent := false, pages := [] } true

/-- A saved unit placed again on the named cores, whole or not at all. -/
def restore (s : State) (q lseq idx : Nat) (cores : List Nat) : State :=
  match s.launch? q lseq with
  | none => s
  | some la =>
    let unit := savedUnit s la idx
    let whole := la.hdr.cores || decide (0 < la.hdr.width 2)
    if neverPlaced s la then giveUp s la 4
    else if la.state = .running ∧ !unit.isEmpty ∧ (unit.all fun v => !v.hold) ∧ cores.length = unit.length
        ∧ (!whole || groupsTogether (la.hdr.ext 2) cores) ∧ !goesFirst s la cores then
      match readUnit s la unit with
      | .error p => recordStop s p
      | .ok unit =>
        match (unit.zip cores).foldl (fun (o : Option State) p => o.bind fun s => restoreBlock s la p.1 p.2) (some s) with
        | none => s
        | some t => restoreUnit t la (unit.map fun v => v.blk.bid)
    else s

/-- RESTORE. -/
def execRestore (q lseq idx : Nat) (cores : List Nat) (s : State) : Host.Outcome State Fault Refusal :=
  .next (restore s q lseq idx cores)

end Sys2Proof.Machine
end

