-- ==== Sys2Proof/Machine/Maint.lean ====
section
/-! DEFINITION. The maintenance engine: reset and bring-up (R497, R500), errors, tests and sparing (R480 to R488), monitors (R489 to
R491), the power loops (R493), keys (R496) and attestation (R498). -/

namespace Sys2Proof.Machine

/-! Reset and bring-up. -/

/-- Memory that is not this module's own (R239). -/
def foreignMem (m : Memory) : Memory := m.filter fun c => decide (2 ^ 50 ≤ c.1)

/-- MODULE_RESET (R500): every part of the module takes its reset state. Host and pod memory are not the module's; what its own
DRAM holds then is log entry 1's. -/
def moduleReset (s : State) : State :=
  { State.reset with
    agenda := s.agenda
    freeCtr := s.freeCtr
    out := s.out
    images := s.images
    mem := foreignMem s.mem
    mpoison := s.mpoison.filter fun l => decide (2 ^ 50 ≤ 128 * l)
    lineKey := s.lineKey.filter fun p => decide (2 ^ 50 ≤ 128 * p.1) }
def execModuleReset (s : State) : Host.Outcome State Fault Refusal := .next (moduleReset s)

def mnStat (s : State) : Nat := (bar s 0x1E0000).toNat

/-- Bits of MNSTAT: boot [29:28], ready [30], replace [31]. -/
def setMnStat (s : State) (ready replace : Bool) (boot : Nat) : State :=
  setBar s 0x1E0000 (w32 (2 ^ 28 * boot + (if ready then 2 ^ 30 else 0) + (if replace then 2 ^ 31 else 0)))

/-- BRING_UP_READY (R497, R500): firmware that fails its verification leaves the module in recovery. -/
def bringUpReady (s : State) : State :=
  if ready s then s
  else
    let ok := Config.imageVerifies (smGet 0 s.images 0)
    setMnStat s ok ((mnStat s).testBit 31) (if ok then 0 else 1)
def execBringUpReady (s : State) : Host.Outcome State Fault Refusal := .next (bringUpReady s)

/-- FWLOAD (R497): a word of a firmware image, taken in recovery. The images are the stream of words written. -/
def fwload (s : State) (off : Nat) (val : W32) : State :=
  if bitsOf (mnStat s) 29 28 = 1 ∧ off < 4096 ∧ off % 4 = 0 then
    { s with images := smSet 0 s.images 0 (smGet 0 s.images 0 * 2 ^ 44 + 2 ^ 32 * (off + 1) + val.toNat) }
  else s
def execFwload (off : Nat) (val : W32) (s : State) : Host.Outcome State Fault Refusal := .next (fwload s off val)

/-! Keys (R495, R496). -/

/-- A slot is named by an enabled context, or by a pinned leaf of one. -/
def keyInUse (s : State) (slot : Nat) : Bool :=
  ((List.range 64).any fun c => ctxEn s c && ctxKey s c == slot) ||
    ((s.wsHolds ++ s.pinHolds).map Prod.fst ++ s.evicts.flatMap fun e => e.pages.map fun g => pageKey e.ctx (65536 * g)).any fun h =>
      let c := h / 2 ^ 40
      ctxEn s c &&
        (match findLeaf s c (h % 2 ^ 40 * 65536) with
          | some t => t.pin && t.key == slot
          | none => false)

/-- KEYCTL after an operation; KEYDATA is cleared. -/
def keyDone (s : State) (op slot st : Nat) : State :=
  { setBar s 0x200000 (w32 (slot % 128 + 2 ^ 8 * op + 2 ^ 24 * st)) with keyData := 0 }

/-- Operations 1, load, and 2, clear. -/
def keyOp (s : State) (op slot : Nat) : State :=
  if slot = 0 ∨ 127 < slot then keyDone s op slot 3
  else if keyInUse s slot then keyDone s op slot 2
  else
    let rest := s.keys.filter fun k => k.slot != slot
    let s : State := { s with keys := if op = 1 then rest ++ [⟨slot, s.keyData⟩] else rest }
    keyDone s op slot 1

/-- KEY_LOAD (R496). -/
def keyLoad (s : State) (slot : Nat) : State := keyOp s 1 slot
def execKeyLoad (slot : Nat) (s : State) : Host.Outcome State Fault Refusal := .next (keyLoad s slot)
/-- KEY_CLEAR (R496). -/
def keyClear (s : State) (slot : Nat) : State := keyOp s 2 slot
def execKeyClear (slot : Nat) (s : State) : Host.Outcome State Fault Refusal := .next (keyClear s slot)

/-! Attestation (R498). -/

/-- Bytes at ascending addresses from 0, zeros unlisted. -/
def denseMem (l : List Byte) : Memory := (l.zipIdx.filter fun p => p.1 != 0).map fun p => (p.2, p.1)

/-- Bytes [255:0] of a report. -/
def reportHead (s : State) : List Byte :=
  ((List.range 8).flatMap fun i => leBytes 4 (bar s (0x2000C0 + 4 * i)).toNat) ++ leBytes 8 s.time
    ++ leBytes 2 (bar s 0x1D0000).toNat ++ List.replicate 6 0
    ++ ((List.range 4).flatMap fun i => (List.range 32).map fun j => Config.imageDigest i j)
    ++ leBytes 8 Config.fusedVersion.toNat ++ List.replicate 72 0

/-- ATTESTATION: ATTCTL.go is written, the report window is written and done is set. -/
def attestation (s : State) : State :=
  let head := reportHead s
  let sig := (List.range 29792).map fun i => Config.attSignature (leNat head) i
  setBar { s with report := denseMem (head ++ sig) } 0x2000E0 3
def execAttestation (s : State) : Host.Outcome State Fault Refusal := .next (attestation s)

/-! Errors (R480 to R488). -/

/-- A block's unit: itself, its cluster group, or its launch's blocks (R259). -/
def unitOf (s : State) (la : Launch) (b : Block) : List Nat :=
  ((s.blocksOf la.q la.lseq).filter fun c =>
    la.hdr.cores || c.idx / 2 ^ la.hdr.width 2 == b.idx / 2 ^ la.hdr.width 2).map Block.bid

/-- Blocks resident on a core are halted to be saved and placed again, with no hold and no record (R486). -/
def saveOff (s : State) (core : Nat) : State :=
  (s.blocks.filter fun b => b.site == .core core).foldl (fun s b =>
    match s.launch? b.q b.lseq with
    | none => s
    | some la =>
      let keep : Launch → Launch := fun l =>
        match l.stop with
        | some _ => l
        | none => { l with stop := some (saveInfo s 0 core 0 false true) }
      haltBlocks (s.modLaunch la.q la.lseq keep) la.q la.lseq (unitOf s la b) true) s

/-- An uncorrectable error in the state of the core that a block runs on (R488). -/
def coreStop (s : State) (bid : Nat) : State :=
  match s.block? bid with
  | none => s
  | some b =>
    match s.launch? b.q b.lseq with
    | none => s
    | some la =>
      let n := s.freeCtr
      let s := { s with freeCtr := n + 2 }
      if b.site.isStation then siteStop s b la 0 (Config.coreErrWord n) (cPOISON, 0) []
      else
        let st : Stop :=
          { cause := cPOISON, pc := Config.coreErrWord n, trapa := 0, wid := Config.coreErrWord (n + 1), at_ := s.time,
            core := b.coreNum, row := ((b.teams.head?).map Team.row).getD 0, reason := 0, hold := false, silent := false,
            pages := [] }
        stopLaunch s b.q b.lseq st true

/-- A line that a die holds in a slice, poisoned; at its home the poison travels with it when it is written back (R462). -/
def poisonOnDie (s : State) (die line : Nat) : State :=
  s.modLine die line fun c => { c with poison := true, dirty := c.dirty || c.stamp.isNone }

/-- A line that a memory-side cache holds, poisoned (R462). -/
def poisonInMsc (s : State) (line : Nat) : State :=
  let held : MscLine → Bool := fun l => l.line == line
  if s.msc.any held then
    setMPoison { s with msc := s.msc.map fun l => if held l then { l with dirty := true } else l } line true
  else s

/-- A line's copy at its home, and its DRAM, poisoned for good (R487). -/
def poisonHome (s : State) (line : Nat) : State :=
  let put : CLine → CLine := fun c => if c.line = line ∧ c.stamp.isNone then { c with poison := true, dirty := true } else c
  setMPoison { s with lines := s.lines.map put } line true

/-- Fields of a unit (R482). -/
def unitField (r : ErrorReport) (hi lo : Nat) : Nat := bitsOf r.unit.toNat hi lo

/-- What an uncorrectable error does to data at once (R272, R462, R488). -/
def errorData (s : State) (r : ErrorReport) : State :=
  let struct := unitField r 15 8
  if r.sev ≠ 1 then s
  else if r.cls = 2 ∨ (r.cls = 1 ∧ (struct = 1 ∨ struct = 6 ∨ struct = 7)) then
    let line := r.pa.toNat / 128
    if r.pa = 0 then s
    else if r.cls = 2 then dramPoison s line
    else if struct = 7 then poisonInMsc s line
    else poisonOnDie s (unitField r 7 0) line
  else if r.cls = 1 ∧ (struct = 2 ∨ struct = 8) then
    match r.holder with
    | none => s
    | some bid =>
      let row := unitField r 31 16
      s.modBlock bid fun b =>
        { b with spoison := b.spoison ++ ((List.range 16).map fun i => 16 * row + i).filter fun u =>
            decide (8 * u < b.scratchLen) && !b.spoison.contains u }
  else if r.cls = 1 ∨ r.cls = 4 then
    match r.holder with
    | none => s
    | some bid => coreStop s bid
  else s

/-- The core number of a `%core` value. -/
def coreOfId (id : Nat) : Nat := id / 256 % 2 * 192 + id / 64 % 4 * 48 + id % 64

def setFence (s : State) (stack st : Nat) (b : Bool) : State :=
  let o := 0x180000 + 0x40 * stack
  let v := (bar s o).toNat
  setBar s o (w32 (if b then v ||| 2 ^ st else v &&& (2 ^ 32 - 1 - 2 ^ st)))

/-- ERROR_DETECTED (R480, R483, R484): the error joins a test, or starts one; cores are emptied and stations fenced for theirs. -/
def errorDetected (s : State) (r : ErrorReport) : State :=
  let s := errorData (detectError s r) r
  if r.cls = 4 then saveOff s (coreOfId (unitField r 31 0))
  else if r.cls = 5 ∧ unitField r 7 0 < 8 ∧ unitField r 15 8 < 16 then setFence s (unitField r 7 0) (unitField r 15 8) true
  else s
def execErrorDetected (r : ErrorReport) (s : State) : Host.Outcome State Fault Refusal := .next (errorDetected s r)

/-- A log entry (R482). -/
def testLogEntry (t : Test) (tend outcome : Nat) : BitVec 512 :=
  BitVec.ofNat 512 (leNat (leBytes 8 t.tdet ++ leBytes 8 tend ++ leBytes 1 t.rep.cls ++ leBytes 1 t.rep.sev ++ leBytes 1 outcome
    ++ leBytes 1 t.rep.ctx ++ leBytes 4 t.count ++ leBytes 8 t.rep.unit.toNat ++ leBytes 8 t.rep.pa.toNat))

/-- An entry written to the ring, or counted as lost (R481); outcome 5 sets replace and sends a message (R487). -/
def writeLog (s : State) (e : BitVec 512) (outcome : Nat) : State :=
  let w := bar s 0x1E0004
  let s :=
    if (w - bar s 0x1E0008).toNat = 256 then barCount s 0x1E000C
    else setBar { s with mlog := smSet 0 s.mlog (w.toNat % 256) e } 0x1E0004 (w + 1)
  if outcome = 5 then
    let s := setMnStat s (ready s) true (bitsOf (mnStat s) 29 28)
    { s with out := s.out ++ [.mctp (bar s 0x1E0000) e] }
  else s

/-- A field of a spare count lowered by one, and whether there was a spare. -/
def takeSpare (s : State) (off lo width : Nat) : State × Bool :=
  let v := (bar s off).toNat
  if bitsOf v (lo + width - 1) lo = 0 then (s, false) else (setBar s off (w32 (v - 2 ^ lo)), true)

/-- Fenced stations of a stack. -/
def fencedStations (s : State) (stack : Nat) : Nat := ((List.range 16).filter (stationFenced s stack)).length

/-- A lasting error is spared while the budget lasts (R485), else handled by R487; the outcome is 2, 3, 4 or 5. -/
def spare (s : State) (r : ErrorReport) : State × Nat :=
  let a := unitField r 7 0
  let b := unitField r 15 8
  if r.cls = 1 then
    if b = 7 ∨ b = 8 then
      let n := smGet 0 s.staSpares a
      if n < 64 then ({ s with staSpares := smSet 0 s.staSpares a (n + 1) }, 2) else (s, 5)
    else
      let t := takeSpare s 0x1E0014 (16 * (a % 2)) 16
      (t.1, if t.2 then 2 else 5)
  else if r.cls = 2 then
    let t := if a < 8 then takeSpare s (0x1E0018 + 4 * (a / 4)) (8 * (a % 4)) 8 else takeSpare s 0x1E0020 0 16
    if t.2 then (t.1, 2)
    else
      let frame := r.pa.toNat / 65536
      let s := (List.range 512).foldl (fun s i => poisonHome s (512 * frame + i)) t.1
      ({ s with retired := if s.retired.contains frame then s.retired else s.retired ++ [frame] }, 5)
  else if r.cls = 3 then
    let w := (bar s (0x1D0040 + 4 * a)).toNat
    if 2 ≤ w then (setBar s (0x1D0040 + 4 * a) (w32 (w / 2)), 4) else (portDown s a, 5)
  else if r.cls = 4 then
    let id := unitField r 31 0
    let die := id / 256 % 2
    let n := bitsOf (bar s 0x1E0010).toNat (4 * die + 3) (4 * die)
    let s := setBar s (0x1E0040 + 4 * (id / 32)) (bar s (0x1E0040 + 4 * (id / 32)) ||| w32 (2 ^ (id % 32)))
    (if n = 15 then s else setBar s 0x1E0010 (bar s 0x1E0010 + w32 (16 ^ die)), if n < 8 then 3 else 5)
  else
    (setFence s a b true, if fencedStations s a ≤ 2 then 3 else 5)

/-- A core or station is idle, so that it can be tested (R484). -/
def testable (s : State) (r : ErrorReport) : Bool :=
  if r.cls = 4 then !(s.blocks.any fun b => b.site == .core (coreOfId (unitField r 31 0)))
  else if r.cls = 5 then !stationBusy s (unitField r 7 0) (unitField r 15 8)
  else true

/-- TARGETED_TEST_END (R482 to R487): the n-th test in progress ends. -/
def targetedTestEnd (s : State) (n : Nat) (passed : Bool) : State :=
  match s.tests[n]? with
  | none => s
  | some t =>
    if !testable s t.rep then s
    else
      let s : State := { s with tests := s.tests.eraseIdx n }
      if passed then
        let s := if t.rep.cls = 5 then setFence s (unitField t.rep 7 0) (unitField t.rep 15 8) false else s
        writeLog s (testLogEntry t s.time 1) 1
      else
        let r := spare s t.rep
        writeLog r.1 (testLogEntry t s.time r.2) r.2
def execTargetedTestEnd (n : Nat) (passed : Bool) (s : State) : Host.Outcome State Fault Refusal :=
  .next (targetedTestEnd s n passed)

/-! Monitors (R489 to R491). -/

/-- A listed source and an instance in its range. -/
def sourceOk (src inst : Nat) : Bool :=
  match src with
  | 0x01 => decide (inst < 8)
  | 0x02 | 0x11 | 0x14 => decide (inst < 2)
  | 0x03 | 0x06 | 0x12 => decide (inst < 8)
  | 0x04 | 0x07 | 0x13 | 0x15 => inst == 0
  | 0x05 => decide (inst < 18)
  | 0x10 => decide (inst < 64)
  | 0x16 => decide (inst < 512) && decide (inst % 64 < 48)
  | _ => false

/-- A new interval starts (R490). -/
def newInterval (s : State) (mon : Nat) : State :=
  setMon s mon (Mon.fresh s.time (monOf s mon).samples)

/-- SVCTL (R489, R490). -/
def svctl (s : State) (mon : Nat) (val : W32) : State :=
  if 64 ≤ mon then s
  else
    let v := val &&& 0x80FF01FF
    let ok := sourceOk (bitsOf v.toNat 23 16) (bitsOf v.toNat 8 0)
    newInterval (setBar s (svBase mon) (if ok then v else v &&& 0x7FFFFFFF)) mon
def execSvctl (mon : Nat) (val : W32) (s : State) : Host.Outcome State Fault Refusal :=
  .next (if ready s then svctl s mon val else s)

/-- SVIVAL (R490, R491). -/
def svival (s : State) (mon : Nat) (val : W32) : State :=
  if 64 ≤ mon ∨ val.toNat = 0 ∨ 1000000 < val.toNat then s else newInterval (setBar s (svBase mon + 4) val) mon
def execSvival (mon : Nat) (val : W32) (s : State) : Host.Outcome State Fault Refusal :=
  .next (if ready s then svival s mon val else s)

/-- What an interval latches: count, minimum, maximum and the bins. -/
def latched (l : List Nat) : Nat × Nat × Nat × List Nat :=
  (sat32 l.length, l.foldl min (2 ^ 32 - 1), l.foldl max 0,
    (List.range 32).map fun i => sat32 (l.filter fun v => binOf v == i).length)

/-- Sources whose samples follow from the module's own state: the duration of `NMCALL` and `BCOMMIT`, a queue's occupancy, `%pool`. -/
def ownSource (src : Nat) : Bool := src == 0x06 || src == 0x07 || src == 0x10 || src == 0x16

/-- The value of a level that the module's own state gives. -/
def levelOf (s : State) (src inst : Nat) : Nat :=
  if src = 0x10 then occupancy s inst else poolFree s (inst / 256 % 2 * 192 + inst / 64 % 4 * 48 + inst % 64)

/-- n samples of each such level that a monitor is enabled on (R489). -/
def sampleLevels (s : State) (n : Nat) : State :=
  if n = 0 ∨ s.bar0 = [] then s
  else (List.range 64).foldl (fun s m =>
    let ctl := (bar s (svBase m)).toNat
    let src := bitsOf ctl 23 16
    if ctl.testBit 31 && (src == 0x10 || src == 0x16) then setMon s m ((monOf s m).add n (levelOf s src (bitsOf ctl 8 0))) else s) s

/-- Samples of a sensor or a latency in an interval: one a microsecond for a level; for a latency as many as there were events,
which the model does not time (log entry 6). -/
def intervalSamples (src inst ival start : Nat) : List Nat :=
  let n := if 0x10 ≤ src then ival else (Config.monitorSample (256 + src) inst start).toNat
  (List.range n).map fun i => (Config.monitorSample src inst (start + i)).toNat

/-- MONITOR_LATCH (R490). -/
def monitorLatch (s : State) (mon : Nat) : State :=
  let ctl := (bar s (svBase mon)).toNat
  let ival := (bar s (svBase mon + 4)).toNat
  let m := monOf s mon
  let src := bitsOf ctl 23 16
  if 64 ≤ mon ∨ !ctl.testBit 31 ∨ s.time < m.start + 1000 * ival then s
  else
    let l := if ownSource src then [] else intervalSamples src (bitsOf ctl 8 0) ival m.samples
    let r := if ownSource src then (m.count, m.least, m.most, (List.range 32).map fun i => smGet 0 m.bins i) else latched l
    let o := svBase mon
    let s := setBar (setBar (setBar s (o + 0xC) (w32 r.1)) (o + 0x10) (w32 r.2.1)) (o + 0x14) (w32 r.2.2.1)
    let s := r.2.2.2.zipIdx.foldl (fun s p => setBar s (o + 0x40 + 4 * p.2) (w32 p.1)) s
    let s := setBar s (o + 8) (bar s (o + 8) + 2)
    setMon s mon (Mon.fresh s.time (m.samples + l.length))
def execMonitorLatch (mon : Nat) (s : State) : Host.Outcome State Fault Refusal := .next (monitorLatch s mon)

/-! Power (R493). -/

def setCaps (s : State) (f : Nat → Nat) : State :=
  dieLower { s with die0 := { s.die0 with cap := f s.die0.cap }, die1 := { s.die1 with cap := f s.die1.cap } }

/-- POWER_LOOP: one measurement, at least 1 ms after the one before. -/
def powerLoop (s : State) (watts : Nat) : State :=
  if s.time < s.powerAt + 1000000 then s
  else
    let limit := (bar s 0x1E0024).toNat
    let s : State := { s with powerAt := s.time }
    if limit < watts then setCaps { s with coolSince := none } fun c => c - 1
    else if 100 * watts < 95 * limit then
      match s.coolSince with
      | none => { s with coolSince := some s.time }
      | some t =>
        if t + 10000000 ≤ s.time then setCaps { s with coolSince := some s.time } fun c => min 15 (c + 1) else s
    else { s with coolSince := none }
def execPowerLoop (watts : Nat) (s : State) : Host.Outcome State Fault Refusal := .next (powerLoop s watts)

/-- DIE_TEMPERATURE_CAP: above 105 °C a die is capped at point 7, until below 95 °C. -/
def dieTemperature (s : State) (die celsius : Nat) : State :=
  let f : Die → Die := fun d => { d with hot := if 105 < celsius then true else if celsius < 95 then false else d.hot }
  dieLower (if die = 0 then { s with die0 := f s.die0 } else if die = 1 then { s with die1 := f s.die1 } else s)
def execDieTemperatureCap (die celsius : Nat) (s : State) : Host.Outcome State Fault Refusal := .next (dieTemperature s die celsius)

end Sys2Proof.Machine
end

