-- ==== Sys2Proof/Machine/HostRegs.lean ====
section
/-! DEFINITION. The host's register writes (R5, R92 to R94, R114, R115, and the blocks of R388, R392, R436, R465, R466, R468, R473,
R479, R491, R499), and what its reads return. -/

namespace Sys2Proof.Machine

/-- Before MNSTAT.ready only the maintenance and security blocks respond (R497, R500). -/
def whenReady (s : State) (f : State → State) : State := if ready s then f s else s

/-! Contexts (R92, R114). -/

/-- A context's level-one copies and cached translations go. -/
def dropContext (s : State) (c : Nat) : State :=
  let mine : L1Copy → Bool := fun k => k.ctx == c
  let s := ((s.l1.filter mine).map L1Copy.line).foldl writeBack s
  { l1Drop s mine with tlb := s.tlb.filter fun e => e.ctx != c }

/-- CONTEXT_ENABLE (R46, R92, R453): CTXCFG.en rises with the fields of the word written. -/
def contextEnable (s : State) (c : Nat) (cfg : W32) : State :=
  if 64 ≤ c ∨ ctxEn s c then s
  else
    let s := setBar s (ctxBase c) ((cfg &&& 0x47FFFFFF) ||| 0x80000000)
    let s := (List.range 8).foldl (fun s k => { s with psel := smSet 511 s.psel (64 * k + c) 511 }) s
    dropContext (setOvtab s c 0x15) c
def execContextEnable (c : Nat) (cfg : W32) (s : State) : Host.Outcome State Fault Refusal :=
  .next (whenReady s fun s => contextEnable s c cfg)

/-- A queue of a killed context sets dead and halt, and a KILLED record is to be posted (R114). -/
def killQueue (s : State) (q : Nat) : State :=
  let s := setBar s (qBase q + 0xC) (bar s (qBase q + 0xC) ||| 0xC0000000)
  let k : Packet :=
    { id := s.nextId, q := q, off := 0, op := killedOp, tag := 0, irq := false, sig := none, lseq := 0, body := [], prog := 0,
      done := false, status := 0 }
  { s with packets := s.packets ++ [k], nextId := s.nextId + 1 }

/-- CONTEXT_KILL (R108, R114, R362, R379, R437): CTXCFG.en falls. Launches not yet started go with their holds; packets that an
enabled queue has outstanding go, and those of killed launches; records that wait for room stay, and their packets (log entry 104). -/
def contextKill (s : State) (c : Nat) : State :=
  if 64 ≤ c ∨ !ctxEn s c then s
  else
    let s := (s.launches.filter fun l => l.ctx == c && l.pid == 0).foldl dropWs s
    let s : State := { s with launches := s.launches.filter fun l => !(l.ctx == c && l.pid == 0) }
    let dead := (s.launches.filter fun l => l.ctx == c).map Launch.pid
    let s := (s.launches.filter fun l => l.ctx == c).foldl (fun s l => giveUp s l killedStatus) s
    let late : PageReq → PageReq := fun r => if r.ctx = c then { r with killed := true } else r
    let s : State :=
      { s with
        packets := s.packets.filter fun k => k.done || !(queueCtx s k.q == c && ((qCtl s k.q).testBit 31 || dead.contains k.id))
        preqs := (s.preqs.filter fun r => r.ctx != c || r.phase == .pri).map late }
    let s := dropContext (setBar s (ctxBase c) (bar s (ctxBase c) &&& 0x7FFFFFFF)) c
    ((List.range 64).filter fun q => queueCtx s q == c && (qCtl s q).testBit 31).foldl killQueue s
def execContextKill (c : Nat) (s : State) : Host.Outcome State Fault Refusal := .next (whenReady s fun s => contextKill s c)

/-! Queues (R93, R94, R115). -/

/-- A queue's sizes are legal. -/
def queueLegal (s : State) (q ctl : Nat) : Bool :=
  decide (12 ≤ ctl % 32) && decide (ctl % 32 ≤ 26) && decide (4 ≤ (bar s (qBase q + 0x28)).toNat % 16)
    && decide ((bar s (qBase q + 0x28)).toNat % 16 ≤ 14)

/-- A write of QCTL; dead clears where en rises and the context is enabled (R115; log entry 128). -/
def writeQctl (s : State) (q : Nat) (ctl : W32) : State :=
  let old := bar s (qBase q + 8)
  if old.getLsbD 31 then setBar s (qBase q + 8) ((old &&& 0x003F001F) ||| (ctl &&& 0x80003F00))
  else
    let en := ctl.getLsbD 31 && queueLegal s q ctl.toNat
    let s := setBar s (qBase q + 8) ((ctl &&& 0x003F3F1F) ||| (if en then 0x80000000 else 0))
    let s :=
      if en && ctxEn s (queueCtx s q) then setBar s (qBase q + 0xC) (bar s (qBase q + 0xC) &&& 0xBFFFFFFF) else s
    headCheck s q

/-- QUEUE_ENABLE (R93, R115). -/
def queueEnable (s : State) (q : Nat) (ctl : W32) : State := if 64 ≤ q then s else writeQctl s q ctl
def execQueueEnable (q : Nat) (ctl : W32) (s : State) : Host.Outcome State Fault Refusal :=
  .next (whenReady s fun s => queueEnable s q ctl)

/-- QWPTR (R94, R102): packets are published. -/
def writeQwptr (s : State) (q : Nat) (val : W32) : State :=
  if 64 ≤ q then s else headCheck (setBar s (qBase q + 0x10) val) q
def execQwptr (q : Nat) (val : W32) (s : State) : Host.Outcome State Fault Refusal := .next (whenReady s fun s => writeQwptr s q val)

/-- Launches read ahead and not started are read afresh from a ring that its host has corrected; one that was cancelled stays so while
its packet stands (R107). -/
def forgetAhead (s : State) (q : Nat) : State :=
  let ps := (ahead s q).zipIdx
  let mine : Launch → Bool := fun l => l.q == q && l.pid == 0
  let place : Launch → Option Nat := fun l =>
    if l.status = 3 then (ps.find? fun p => isUnstarted q p.1 l).map fun p => (qLseq s q + p.2) % 2 ^ 32 else none
  let gone : Launch → Bool := fun l => mine l && (place l).isNone
  let s := (s.launches.filter gone).foldl dropWs s
  { s with launches := (s.launches.filter fun l => !gone l).map fun l =>
             if mine l then { l with lseq := (place l).getD l.lseq } else l
           preqs := s.preqs.filter fun r => !(r.launch && r.q == q && r.phase != .pri
             && s.launches.any fun l => gone l && l.lseq == r.key) }

/-- QUEUE_RESTART (R5, R93, R115): 1 is written to QSTAT.halt. A dead queue takes no packet until dead clears too (log entry 129). -/
def queueRestart (s : State) (q : Nat) : State :=
  let v := bar s (qBase q + 0xC)
  if 64 ≤ q ∨ !v.getLsbD 31 then s
  else headCheck (forgetAhead (setBar s (qBase q + 0xC) (v &&& 0x7FFFFFFF)) q) q
def execQueueRestart (q : Nat) (s : State) : Host.Outcome State Fault Refusal := .next (whenReady s fun s => queueRestart s q)

/-! Other registers. -/

/-- A value in a range is taken; others are ignored. -/
def takeRange (s : State) (off n lo hi : Nat) (v : W32) : State := if lo ≤ n ∧ n ≤ hi then setBar s off v else s

/-- A word of a context's block (R92, R262). -/
def writeCtx (s : State) (c r : Nat) (v : W32) : State :=
  let off := ctxBase c + r
  if r = 0 then
    if v.getLsbD 31 then contextEnable s c v
    else if ctxEn s c then contextKill s c
    else setBar s off (v &&& 0x47FFFFFF)
  else if ctxEn s c then s
  else if 8 ≤ r ∧ r ≤ 0x20 then setBar s off v
  else s

/-- A word of a queue's block (R93). -/
def writeQueue (s : State) (q r : Nat) (v : W32) : State :=
  let off := qBase q + r
  let idle := !(qCtl s q).testBit 31
  if r = 0 then (if idle then setBar s off (v &&& 0xFFFFF000) else s)
  else if r = 4 ∨ r = 0x24 then (if idle then setBar s off v else s)
  else if r = 8 then queueEnable s q v
  else if r = 0xC then (if v.getLsbD 31 then queueRestart s q else s)
  else if r = 0x10 then writeQwptr s q v
  else if r = 0x14 then (if (qStat s q).testBit 31 then forgetAhead (setBar s off v) q else s)
  else if r = 0x20 then (if idle then setBar s off (v &&& 0xFFFFFFC0) else s)
  else if r = 0x28 then (if idle then setBar s off (v &&& 0xF) else s)
  else if r = 0x30 then setBar s off v
  else s

/-- A word of a memory-side cache's block (R465). -/
def writeMsc (s : State) (stack r : Nat) (v : W32) : State :=
  let off := mscBase stack + r
  if r = 0 then setBar s off (v &&& 0xFFFFF000)
  else if r = 4 then setBar s off v
  else if r = 8 then takeRange s off (v.toNat % 2 ^ 24) 100 1000000 (v &&& 0xFFFFFF)
  else if r = 0x10 then takeRange s off (v.toNat % 1024) 1 720 (v &&& 0x800003FF)
  else if r = 0x14 ∨ r = 0x18 then setBar s off v
  else if r = 0x20 then setBar s off (v &&& 0x3F)
  else if r = 0x24 then mscways s stack v
  else s

/-- A word of the aperture table (R473); bits [33:32] of a route 0b01 entry read as zero. -/
def writeAperture (s : State) (off : Nat) (v : W32) : State :=
  setBar s off (if off % 16 = 0 then v &&& 0xFC000000 else v)

/-- KEYCTL (R496). -/
def writeKeyctl (s : State) (v : W32) : State :=
  let op := bitsOf v.toNat 9 8
  let slot := v.toNat % 128
  if op = 1 then keyLoad s slot else if op = 2 then keyClear s slot else setBar s 0x200000 (v &&& 0x0300037F)

/-- A word of KEYDATA. -/
def writeKeydata (s : State) (i : Nat) (v : W32) : State :=
  { s with keyData := BitVec.ofNat 512 (s.keyData.toNat - 2 ^ (32 * i) * bitsOf s.keyData.toNat (32 * i + 31) (32 * i)
      + 2 ^ (32 * i) * v.toNat) }

/-- The maintenance and security blocks (R499), which respond before bring-up is done. -/
def writeMaint (s : State) (off : Nat) (v : W32) : State :=
  if off = 0x1E0008 then setBar s off v
  else if off = 0x1E000C then setBar s off v
  else if off = 0x1E0024 then takeRange s off v.toNat 500 2800 v
  else if off = 0x200000 then writeKeyctl s v
  else if 0x200040 ≤ off ∧ off < 0x200080 then writeKeydata s ((off - 0x200040) / 4) v
  else if 0x2000C0 ≤ off ∧ off < 0x2000E0 then (if (bar s 0x2000E0).getLsbD 0 then s else setBar s off v)
  else if off = 0x2000E0 then (if v.getLsbD 0 then attestation s else setBar s off (bar s off &&& 2))
  else if 0x200100 ≤ off ∧ off < 0x201100 then fwload s (off - 0x200100) v
  else s

/-- Offset of a block among blocks of a size from a base: its number and the offset within it. -/
def within (off base size n : Nat) : Option (Nat × Nat) :=
  if base ≤ off ∧ off < base + size * n then some ((off - base) / size, (off - base) % size) else none

/-- Every other block. -/
def writeBlock (s : State) (off : Nat) (v : W32) : State :=
  match within off 0x80000 0x40 64, within off 0x100000 0x40 64, within off 0x180000 0x40 8, within off 0x1A0000 0x40 8,
    within off 0x1B0000 0x100 8, within off 0x1F0000 0x100 64 with
  | some (c, r), _, _, _, _, _ => writeCtx s c r v
  | _, some (q, r), _, _, _, _ => writeQueue s q r v
  | _, _, some (_, r), _, _, _ => if r = 0x10 then setBar s off v else s
  | _, _, _, some (_, r), _, _ =>
    if r = 8 then takeRange s off v.toNat 1 1000000 v else if r = 0xC ∨ r = 0x10 then setBar s off v else s
  | _, _, _, _, some (k, r), _ => writeMsc s k r v
  | _, _, _, _, _, some (m, r) => if r = 0 then svctl s m v else if r = 4 then svival s m v else s
  | _, _, _, _, _, _ =>
    if off = 0x190000 ∨ off = 0x190004 then setBar s off v
    else if off = 0x1C0000 ∨ off = 0x1C0100 then setBar s off (v &&& 1)
    else if off = 0x1C0004 ∨ off = 0x1C0008 ∨ off = 0x1C0104 ∨ off = 0x1C0108 then setBar s off v
    else if off = 0x1D0000 then writeLkdevid s v
    else if off = 0x1D0004 then writeLkmctl s v
    else if off = 0x1D000C then setBar s off v
    else if 0x1D1000 ≤ off ∧ off < 0x1D1400 then writeAperture s off v
    else if off = 0x2000000 then takeRange s off (v.toNat % 65536) 1 60000 (v &&& 0xFFFF)
    else s

/-- A 32-bit write by the host: offsets of BAR0, and PRITO's after them (log entry 41). Read-only and reserved bits are ignored. -/
def hostWrite (s : State) (off : Nat) (v : W32) : State :=
  if off % 4 ≠ 0 then s
  else if (0x1E0000 ≤ off ∧ off < 0x1F0000) ∨ (0x200000 ≤ off ∧ off < 0x210000) then writeMaint s off v
  else whenReady s fun s => writeBlock s off v

/-- REGISTER_WRITE (R5). -/
def execRegisterWrite (off : Nat) (val : W32) (s : State) : Host.Outcome State Fault Refusal := .next (hostWrite s off val)

/-! What a host read returns. -/

/-- The view of the selected context in a memory-side cache's block (R465). -/
def mscView (s : State) (stack r : Nat) : Option W32 :=
  let key := 64 * stack + (bar s (mscBase stack + 0x20)).toNat % 64
  match r with
  | 0x24 => some (w32 (smGet 0 s.rowWays key))
  | 0x28 => some (w32 (smGet 511 s.psel key))
  | 0x30 => some (w32 (smGet 0 s.czUnits key))
  | 0x34 => some (w32 (smGet 0 s.czUnits key / 2 ^ 32))
  | 0x38 => some (w32 (smGet 0 s.czSect key))
  | 0x3C => some (w32 (smGet 0 s.czSect key / 2 ^ 32))
  | _ => none

/-- Registers that the device computes. -/
def liveReg (s : State) (off : Nat) : Option W32 :=
  match within off 0x180000 0x40 8, within off 0x1A0000 0x40 8, within off 0x1B0000 0x100 8, within off 0x1C0000 0x100 2 with
  | some (k, r), _, _, _ =>
    if r = 4 then some (w32 (((List.range 16).filter (stationBusy s k)).foldl (fun n i => n + 2 ^ i) 0))
    else if r = 8 then some (w32 (heldCalls s k))
    else if r = 0xC then some (w32 (s.redq.filter fun p => p.stack == k).length)
    else none
  | _, some (k, r), _, _ =>
    let here : Nat → Bool := fun line => homeOfLine s line == 8 * devId s + k
    if r = 0 then some (w32 (s.versions.filter fun v => here v.line).length)
    else if r = 4 then some (w32 (s.pendLines.filter fun p => here p.line).length)
    else none
  | _, _, some (k, r), _ => mscView s k r
  | _, _, _, some (d, r) => if r = 0xC then some (w32 (s.dir.filter fun e => e.die == d && decide (e.size < 512)).length) else none
  | _, _, _, _ =>
    if off = 0x190008 then some (w32 (min s.landing.length 65535))
    else if off = 0x19000C then some (w32 s.groups.length)
    else if 0x1D1000 ≤ off ∧ off < 0x1D1400 ∧ off % 16 = 4 then
      some (if bitsOf (bar s off).toNat 31 30 = 1 then bar s off &&& 0xFFFFFFFC else bar s off)
    else if 0x1E0080 ≤ off ∧ off < 0x1E00C0 then some (Config.opVolt ((off - 0x1E0080) / 4))
    else if 0x1E1000 ≤ off ∧ off < 0x1E5000 then
      some ((smGet 0 s.mlog ((off - 0x1E1000) / 64)).extractLsb' (8 * ((off - 0x1E1000) % 64)) 32)
    else if 0x200080 ≤ off ∧ off < 0x2000C0 then
      some (w32 (leNat ((List.range 4).map fun i => Config.idKey (off - 0x200080 + i))))
    else if (0x200040 ≤ off ∧ off < 0x200080) ∨ (0x200100 ≤ off ∧ off < 0x201100) then some 0
    else if 0x208000 ≤ off ∧ off < 0x208000 + 30048 then some (w32 (numAt s.report (off - 0x208000) 4))
    else none

/-- A 32-bit read by the host; none where nothing responds. -/
def hostRead (s : State) (off : Nat) : Option W32 :=
  if ready s || (decide (0x1E0000 ≤ off) && decide (off < 0x1F0000)) || (decide (0x200000 ≤ off) && decide (off < 0x210000)) then
    some ((liveReg s off).getD (bar s off))
  else none

end Sys2Proof.Machine
end

