-- ==== Sys2Proof/Machine/Mask.lean ====
section
/-! DEFINITION. The mask majors 0x76 to 0x79 (R158). -/

namespace Sys2Proof.Machine

/-- The two-source operations, per lane. -/
def kbin (op : KBin) (x y : LaneMask) : LaneMask :=
  match op with
  | .and => x &&& y
  | .or => x ||| y
  | .xor => x ^^^ y
  | .andn => x &&& ~~~y
  | .orn => x ||| ~~~y

/-- Mask fields a form of `KOP` reads. -/
def kopSrcs : KopForm → List Field
  | .bin _ ka kb => [.mask 0 ka.val, .mask 1 kb.val]
  | .not ka => [.mask 0 ka.val]
  | .clr | .set => []

def opKop (kd : Nat) (f : KopForm) : Op where
  form := maskForm (kopSrcs f) kd 4
  eff := fun c => .done (c.putMask kd (match f with
    | .bin op ka kb => kbin op (c.rdMask 0 ka.val) (c.rdMask 1 kb.val)
    | .not ka => ~~~(c.rdMask 0 ka.val)
    | .clr => 0
    | .set => BitVec.allOnes 1024) c.s)
/-- R158. -/
def execKop (h : Hdr) (kd : Fin 8) (f : KopForm) (s : State) : Host.Outcome State Fault Refusal :=
  (opKop kd.val f).run (issOf h) s

/-- A form that reads a whole mask in its first pass and gives one value (R77, R158). -/
def maskReadForm (d : Opnd) (ka : Nat) : Form := ⟨[.mask 0 ka], [.opnd 3 d 1], .cross, some 4, .run, true, false⟩

def opKcnt (d : Opnd) (ka : Nat) : Op where
  form := maskReadForm d ka
  eff := fun c => .done (c.putUni d 1 (countLanes (c.rdMask 0 ka &&& c.m) c.e.team.lanes) c.s)
/-- R158. -/
def execKcnt (h : Hdr) (d : Opnd) (ka : Fin 8) (s : State) : Host.Outcome State Fault Refusal :=
  (opKcnt d ka.val).run (issOf h) s

def opKfnd (hi : Bool) (d : Opnd) (ka : Nat) : Op where
  form := maskReadForm d ka
  eff := fun c =>
    let ls := maskLanes (c.rdMask 0 ka &&& c.m) c.e.team.lanes
    .done (c.putUni d 1 ((if hi then ls.getLast? else ls.head?).getD 0xFFFFFFFF) c.s)
/-- R158. -/
def execKfnd (h : Hdr) (hi : Bool) (d : Opnd) (ka : Fin 8) (s : State) : Host.Outcome State Fault Refusal :=
  (opKfnd hi d ka.val).run (issOf h) s

/-- The lanes of word w of a mask: 32 of them, whatever the site's passes (R158). -/
def wordMask (w : Nat) : LaneMask := BitVec.ofNat 1024 (0xFFFFFFFF * 2 ^ (32 * w))

def opKmov (f : KmovForm) : Op :=
  match f with
  | .v2k kd a =>
    { form := maskForm [fA a 1] kd.val 4
      eff := fun c => .done (c.putPred kd.val (fun l => c.rd 0 a l != 0) c.s) }
  | .k2v d ka =>
    { form := ⟨[.mask 0 ka.val], [.opnd 3 d 1], .vec, some 4, .run, true, false⟩
      eff := fun c =>
        let k := c.rdMask 0 ka.val
        .done (c.put d (fun l => if k.getLsbD l then 1 else 0) c.s) }
  | .s2k kd a b =>
    { form := { maskForm [fA a 1, fB b 1] kd.val 4 with dsts := [.mword 3 kd.val b] }
      eff := fun c =>
        let w := (c.uni 1 b).toNat % 32
        let bits := BitVec.ofNat 1024 ((c.uni 0 a).toNat * 2 ^ (32 * w))
        .done (c.modTeam c.s fun t =>
          t.setK kd.val (maskMerge (t.getK c.e.rcd kd.val) bits (c.m &&& wordMask w))) }
  | .k2s d ka b =>
    { form := ⟨[.mword 0 ka.val b, fB b 1], [.opnd 3 d 1], .scalar, some 4, .run, true, false⟩
      eff := fun c =>
        let w := (c.uni 1 b).toNat % 32
        .done (c.putUni d 1 ((c.rdMask 0 ka.val).toNat / 2 ^ (32 * w) % 2 ^ 32) c.s) }
/-- R158. -/
def execKmov (h : Hdr) (f : KmovForm) (s : State) : Host.Outcome State Fault Refusal := (opKmov f).run (issOf h) s

end Sys2Proof.Machine
end

