-- ==== Sys2Proof/Machine/RegMgmt.lean ====
section
/-! DEFINITION. The register-management majors 0xB0 to 0xB3 (R154 to R157). On a station they trap (R164). -/

namespace Sys2Proof.Machine

/-- The count of `CLAIM` and `RELEASE` (R154, R155). -/
def Ctx.regCount (c : Ctx) (a : Opnd) (cnt : BitVec 6) : Nat :=
  if opIsZero a then 8 * cnt.toNat else (c.uni 0 a).toNat

def opClaim (a : Opnd) (cnt : BitVec 6) : Op where
  form := teamForm [fA a 1] [] .ends false false
  eff := fun c =>
    let n := c.regCount a cnt
    if n % 8 ≠ 0 ∨ c.e.la.hdr.ceiling < c.e.rcd.alloc + n then .trap cBUDGET (w64 n) (c.e.low c.m)
    else if n = 0 then .done c.s
    else
      let back := c.modTeam c.s fun t => t.modRec c.e.who.sub fun r => { r with pc := c.e.rcd.pc }
      .done (claimFor back c.e.blk.coreNum c.e.who n (n * countLanes c.e.rcd.k0 c.e.team.lanes)
        (c.e.rcd.pc + w64 c.iss.len) false)
/-- R155. -/
def execClaim (h : Hdr) (a : Opnd) (cnt : BitVec 6) (s : State) : Host.Outcome State Fault Refusal :=
  (opClaim a cnt).run (issOf h) s

def opRelease (a : Opnd) (cnt : BitVec 6) : Op where
  form := teamForm [fA a 1] [] .ends false false
  eff := fun c =>
    let n := c.regCount a cnt
    let hi := c.e.rcd.alloc
    if n % 8 ≠ 0 ∨ hi < n then .trap cBUDGET (w64 n) (c.e.low c.m)
    else if n = 0 then .done c.s
    else if releaseBusy c.e.team c.e.rcd.k0 (hi - n) hi then .hold (.releaseRegs (hi - n) hi)
    else .done (applyRelease c.s c.e.who n)
/-- R156. -/
def execRelease (h : Hdr) (a : Opnd) (cnt : BitVec 6) (s : State) : Host.Outcome State Fault Refusal :=
  (opRelease a cnt).run (issOf h) s

/-- x_n after `XSET` (R157). -/
def xsetVal (md : XsetMode) (x a : W32) : W32 :=
  match md with
  | .all => a
  | .idx => xWithIndex x (a.toNat % 256)
  | .add => xWithIndex x ((xIndex x + a.toNat) % 256)

def opXset (md : XsetMode) (xn : Nat) (a : Opnd) : Op where
  form := ⟨fA a 1 :: (if md = .all then [] else [.idx 3 xn]), [.idx 3 xn], .vec, some 4, .run, false, false⟩
  eff := fun c => .done (c.modTeam c.s fun t =>
    c.lanes.foldl (fun t l => t.setX xn l (xsetVal md (c.xval xn l) (c.rd 0 a l))) t)
/-- R157. -/
def execXset (h : Hdr) (md : XsetMode) (xn : Fin 8) (a : Opnd) (s : State) : Host.Outcome State Fault Refusal :=
  (opXset md xn.val a).run (issOf h) s

def opXget (d : Opnd) (xn : Nat) : Op where
  form := ⟨[.idx 0 xn], [fD d 1], .vec, some 4, .run, false, false⟩
  eff := fun c => .done (c.put d (fun l => c.xval xn l) c.s)
/-- R157. -/
def execXget (h : Hdr) (d : Opnd) (xn : Fin 8) (s : State) : Host.Outcome State Fault Refusal :=
  (opXget d xn.val).run (issOf h) s

end Sys2Proof.Machine
end

