-- ==== Sys2Proof/Machine/Dispatch.lean ====
section
/-! DEFINITION. One arm per instruction and event: its meaning. -/

namespace Sys2Proof.Machine

def exec (i : Instr) (s : State) : Host.Outcome State Fault Refusal :=
  match i with
  | .nop h => Sys2Proof.Machine.execNop h s
  | .iadd h ty sat m d a b => Sys2Proof.Machine.execIadd h ty sat m d a b s
  | .isub h ty sat m d a b => Sys2Proof.Machine.execIsub h ty sat m d a b s
  | .iadd3 h ty sat m d a b c => Sys2Proof.Machine.execIadd3 h ty sat m d a b c s
  | .imul h ty sat m d a b => Sys2Proof.Machine.execImul h ty sat m d a b s
  | .imulh h ty d a b => Sys2Proof.Machine.execImulh h ty d a b s
  | .imad h ty sat m d a b c => Sys2Proof.Machine.execImad h ty sat m d a b c s
  | .imadw h signed sat d a b c => Sys2Proof.Machine.execImadw h signed sat d a b c s
  | .idiv h ty sat d a b => Sys2Proof.Machine.execIdiv h ty sat d a b s
  | .irem h ty d a b => Sys2Proof.Machine.execIrem h ty d a b s
  | .imin h ty m d a b => Sys2Proof.Machine.execImin h ty m d a b s
  | .imax h ty m d a b => Sys2Proof.Machine.execImax h ty m d a b s
  | .isad h ty sat d a b c => Sys2Proof.Machine.execIsad h ty sat d a b c s
  | .icmp h ty c kd a b => Sys2Proof.Machine.execIcmp h ty c kd a b s
  | .sel h w d a b kc => Sys2Proof.Machine.execSel h w d a b kc s
  | .lea h ty d a b c => Sys2Proof.Machine.execLea h ty d a b c s
  | .andL h w d a b => Sys2Proof.Machine.execAnd h w d a b s
  | .orL h w d a b => Sys2Proof.Machine.execOr h w d a b s
  | .xorL h w d a b => Sys2Proof.Machine.execXor h w d a b s
  | .andn h w d a b => Sys2Proof.Machine.execAndn h w d a b s
  | .shl h w d a b => Sys2Proof.Machine.execShl h w d a b s
  | .shr h w d a b => Sys2Proof.Machine.execShr h w d a b s
  | .sar h w d a b => Sys2Proof.Machine.execSar h w d a b s
  | .rol h w d a b => Sys2Proof.Machine.execRol h w d a b s
  | .fshr h d a b c => Sys2Proof.Machine.execFshr h d a b c s
  | .bfe h signed d a b => Sys2Proof.Machine.execBfe h signed d a b s
  | .bfi h d a b c => Sys2Proof.Machine.execBfi h d a b c s
  | .popc h w d a => Sys2Proof.Machine.execPopc h w d a s
  | .clz h w d a => Sys2Proof.Machine.execClz h w d a s
  | .ctz h w d a => Sys2Proof.Machine.execCtz h w d a s
  | .brev h w d a => Sys2Proof.Machine.execBrev h w d a s
  | .prmb h d a b c => Sys2Proof.Machine.execPrmb h d a b c s
  | .idot4 h sat sa sb d a b c => Sys2Proof.Machine.execIdot4 h sat sa sb d a b c s
  | .idot2 h sat sa sb d a b c => Sys2Proof.Machine.execIdot2 h sat sa sb d a b c s
  | .mov h w d a => Sys2Proof.Machine.execMov h w d a s
  | .fadd h ty rm m d a b => Sys2Proof.Machine.execFadd h ty rm m d a b s
  | .fsub h ty rm m d a b => Sys2Proof.Machine.execFsub h ty rm m d a b s
  | .fmul h ty rm m d a b => Sys2Proof.Machine.execFmul h ty rm m d a b s
  | .ffma h ty rm m d a b c => Sys2Proof.Machine.execFfma h ty rm m d a b c s
  | .fmin h ty m d a b => Sys2Proof.Machine.execFmin h ty m d a b s
  | .fmax h ty m d a b => Sys2Proof.Machine.execFmax h ty m d a b s
  | .fcmp h c m kd a b => Sys2Proof.Machine.execFcmp h c m kd a b s
  | .fclass h f m kd a b => Sys2Proof.Machine.execFclass h f m kd a b s
  | .frnd h ty rm m d a => Sys2Proof.Machine.execFrnd h ty rm m d a s
  | .fscale h ty rm m d a b => Sys2Proof.Machine.execFscale h ty rm m d a b s
  | .fexpo h f d a => Sys2Proof.Machine.execFexpo h f d a s
  | .fdot2 h bf rm m d a b c => Sys2Proof.Machine.execFdot2 h bf rm m d a b c s
  | .frcp h rm m d a => Sys2Proof.Machine.execFrcp h rm m d a s
  | .frsq h rm m d a => Sys2Proof.Machine.execFrsq h rm m d a s
  | .fsqrt h rm m d a => Sys2Proof.Machine.execFsqrt h rm m d a s
  | .fexp2 h m d a => Sys2Proof.Machine.execFexp2 h m d a s
  | .flog2 h m d a => Sys2Proof.Machine.execFlog2 h m d a s
  | .fsin h m d a => Sys2Proof.Machine.execFsin h m d a s
  | .fcos h m d a => Sys2Proof.Machine.execFcos h m d a s
  | .ftanh h m d a => Sys2Proof.Machine.execFtanh h m d a s
  | .fsigm h m d a => Sys2Proof.Machine.execFsigm h m d a s
  | .fdiv h rm m d a b => Sys2Proof.Machine.execFdiv h rm m d a b s
  | .cvt h k m d a b c => Sys2Proof.Machine.execCvt h k m d a b c s
  | .ftoi h ty rm m d a => Sys2Proof.Machine.execFtoi h ty rm m d a s
  | .itof h ty rm m d a => Sys2Proof.Machine.execItof h ty rm m d a s
  | .qpack h q m d a => Sys2Proof.Machine.execQpack h q m d a s
  | .qunpk h q d a b c => Sys2Proof.Machine.execQunpk h q d a b c s
  | .tred h op d a => Sys2Proof.Machine.execTred h op d a s
  | .tscan h op excl d a => Sys2Proof.Machine.execTscan h op excl d a s
  | .tshfl h md wide d a b c => Sys2Proof.Machine.execTshfl h md wide d a b c s
  | .tbcst h first wide d a b c => Sys2Proof.Machine.execTbcst h first wide d a b c s
  | .vote h md d a => Sys2Proof.Machine.execVote h md d a s
  | .matchL h all wide kd a => Sys2Proof.Machine.execMatch h all wide kd a s
  | .kop h kd f => Sys2Proof.Machine.execKop h kd f s
  | .kcnt h d ka => Sys2Proof.Machine.execKcnt h d ka s
  | .kfnd h hi d ka => Sys2Proof.Machine.execKfnd h hi d ka s
  | .kmov h f => Sys2Proof.Machine.execKmov h f s
  | .ld h mc sx d a b => Sys2Proof.Machine.execLd h mc sx d a b s
  | .st h mc a b c => Sys2Proof.Machine.execSt h mc a b c s
  | .lds h mc sx d a b => Sys2Proof.Machine.execLds h mc sx d a b s
  | .sts h mc a b c => Sys2Proof.Machine.execSts h mc a b c s
  | .ldu h mc sx d a b => Sys2Proof.Machine.execLdu h mc sx d a b s
  | .atom h mc op d a b c => Sys2Proof.Machine.execAtom h mc op d a b c s
  | .atoms h mc op d a b c => Sys2Proof.Machine.execAtoms h mc op d a b c s
  | .red h mc op a b c => Sys2Proof.Machine.execRed h mc op a b c s
  | .fence h ord scope => Sys2Proof.Machine.execFence h ord scope s
  | .pref h l2 cache a b => Sys2Proof.Machine.execPref h l2 cache a b s
  | .cctl h op a b => Sys2Proof.Machine.execCctl h op a b s
  | .waitc h cls a => Sys2Proof.Machine.execWaitc h cls a s
  | .rdc h ord scope d => Sys2Proof.Machine.execRdc h ord scope d s
  | .abarInit h g a b c => Sys2Proof.Machine.execAbarInit h g a b c s
  | .abarArrive h g d a => Sys2Proof.Machine.execAbarArrive h g d a s
  | .abarExpect h g a b => Sys2Proof.Machine.execAbarExpect h g a b s
  | .abarWait h g a b => Sys2Proof.Machine.execAbarWait h g a b s
  | .abarTest h g d a b => Sys2Proof.Machine.execAbarTest h g d a b s
  | .bar h a b => Sys2Proof.Machine.execBar h a b s
  | .barArrive h a b => Sys2Proof.Machine.execBarArrive h a b s
  | .gbar h a => Sys2Proof.Machine.execGbar h a s
  | .bra h off => Sys2Proof.Machine.execBra h off s
  | .brx h a => Sys2Proof.Machine.execBrx h a s
  | .call h d off => Sys2Proof.Machine.execCall h d off s
  | .calli h d a => Sys2Proof.Machine.execCalli h d a s
  | .ret h a => Sys2Proof.Machine.execRet h a s
  | .exit h => Sys2Proof.Machine.execExit h s
  | .yield h => Sys2Proof.Machine.execYield h s
  | .pause h a => Sys2Proof.Machine.execPause h a s
  | .trap h a => Sys2Proof.Machine.execTrap h a s
  | .brk h => Sys2Proof.Machine.execBrk h s
  | .join h => Sys2Proof.Machine.execJoin h s
  | .claim h a cnt => Sys2Proof.Machine.execClaim h a cnt s
  | .release h a cnt => Sys2Proof.Machine.execRelease h a cnt s
  | .xset h md xn a => Sys2Proof.Machine.execXset h md xn a s
  | .xget h d xn => Sys2Proof.Machine.execXget h d xn s
  | .tcopy h g a c => Sys2Proof.Machine.execTcopy h g a c s
  | .tgath h g a c => Sys2Proof.Machine.execTgath h g a c s
  | .tscat h g a c => Sys2Proof.Machine.execTscat h g a c s
  | .tmcst h a b c => Sys2Proof.Machine.execTmcst h a b c s
  | .cbini h g tags n1 a b c => Sys2Proof.Machine.execCbini h g tags n1 a b c s
  | .cbacq h g tag d a => Sys2Proof.Machine.execCbacq h g tag d a s
  | .cbrel h g a => Sys2Proof.Machine.execCbrel h g a s
  | .cbput h g a b c => Sys2Proof.Machine.execCbput h g a b c s
  | .cbres h g d a => Sys2Proof.Machine.execCbres h g d a s
  | .cbst h g d a => Sys2Proof.Machine.execCbst h g d a s
  | .tfill h a b c => Sys2Proof.Machine.execTfill h a b c s
  | .ldw h f p a => Sys2Proof.Machine.execLdw h f p a s
  | .wswap h => Sys2Proof.Machine.execWswap h s
  | .mmq h q t p b => Sys2Proof.Machine.execMmq h q t p b s
  | .msa h t ts b c => Sys2Proof.Machine.execMsa h t ts b c s
  | .mmqa h q t p b c => Sys2Proof.Machine.execMmqa h q t p b c s
  | .mmqaCb h q t b c => Sys2Proof.Machine.execMmqaCb h q t b c s
  | .mmf h f t p b => Sys2Proof.Machine.execMmf h f t p b s
  | .tld h f t a b => Sys2Proof.Machine.execTld h f t a b s
  | .tst h f trk a b t => Sys2Proof.Machine.execTst h f trk a b t s
  | .tzero h t b => Sys2Proof.Machine.execTzero h t b s
  | .tmvT2v h d t b => Sys2Proof.Machine.execTmvT2v h d t b s
  | .tmvV2t h t a b => Sys2Proof.Machine.execTmvV2t h t a b s
  | .tstat h d t => Sys2Proof.Machine.execTstat h d t s
  | .tacc h t ts => Sys2Proof.Machine.execTacc h t ts s
  | .atts h a b c => Sys2Proof.Machine.execAtts h a b c s
  | .attv h a b c => Sys2Proof.Machine.execAttv h a b c s
  | .attm h a b c => Sys2Proof.Machine.execAttm h a b c s
  | .evict h a => Sys2Proof.Machine.execEvict h a s
  | .platr h d a b => Sys2Proof.Machine.execPlatr h d a b s
  | .rgath h d a => Sys2Proof.Machine.execRgath h d a s
  | .redrx h d a => Sys2Proof.Machine.execRedrx h d a s
  | .nmcall h a b c => Sys2Proof.Machine.execNmcall h a b c s
  | .nmcallA h a b c => Sys2Proof.Machine.execNmcallA h a b c s
  | .nmret h a b => Sys2Proof.Machine.execNmret h a b s
  | .clsend h a c => Sys2Proof.Machine.execClsend h a c s
  | .clred h a c => Sys2Proof.Machine.execClred h a c s
  | .clarm h clr a b => Sys2Proof.Machine.execClarm h clr a b s
  | .clarmOff h b => Sys2Proof.Machine.execClarmOff h b s
  | .sbset h sb a => Sys2Proof.Machine.execSbset h sb a s
  | .sbsetClr h sb a => Sys2Proof.Machine.execSbsetClr h sb a s
  | .sbsetRd h d sb => Sys2Proof.Machine.execSbsetRd h d sb s
  | .coll h op arr t a c => Sys2Proof.Machine.execColl h op arr t a c s
  | .close h d a b c => Sys2Proof.Machine.execClose h d a b c s
  | .bopen h n a => Sys2Proof.Machine.execBopen h n a s
  | .stb h n mc a b c => Sys2Proof.Machine.execStb h n mc a b c s
  | .bcommit h n => Sys2Proof.Machine.execBcommit h n s
  | .babort h n => Sys2Proof.Machine.execBabort h n s
  | .vsnap h d => Sys2Proof.Machine.execVsnap h d s
  | .ldv h mc sx d a b kc => Sys2Proof.Machine.execLdv h mc sx d a b kc s
  | .bfetch h a b c => Sys2Proof.Machine.execBfetch h a b c s
  | .srd h half d num => Sys2Proof.Machine.execSrd h half d num s
  | .swr h half num a => Sys2Proof.Machine.execSwr h half num a s
  | .swrp h num a => Sys2Proof.Machine.execSwrp h num a s
  | .ovld h a => Sys2Proof.Machine.execOvld h a s
  | .tret h skip => Sys2Proof.Machine.execTret h skip s
  | .halt h => Sys2Proof.Machine.execHalt h s
  | .pair a b => Sys2Proof.Machine.execPair a b s
  | .entryWord w => Sys2Proof.Machine.execEntryWord w s
  | .compactNop sub w => Sys2Proof.Machine.execCompactNop sub w s
  | .compactMov w => Sys2Proof.Machine.execCompactMov w s
  | .compactIaddS32 w => Sys2Proof.Machine.execCompactIaddS32 w s
  | .compactIsubS32 w => Sys2Proof.Machine.execCompactIsubS32 w s
  | .compactImulS32 w => Sys2Proof.Machine.execCompactImulS32 w s
  | .compactIminS32 w => Sys2Proof.Machine.execCompactIminS32 w s
  | .compactImaxS32 w => Sys2Proof.Machine.execCompactImaxS32 w s
  | .compactAnd w => Sys2Proof.Machine.execCompactAnd w s
  | .compactOr w => Sys2Proof.Machine.execCompactOr w s
  | .compactXor w => Sys2Proof.Machine.execCompactXor w s
  | .compactShl w => Sys2Proof.Machine.execCompactShl w s
  | .compactShr w => Sys2Proof.Machine.execCompactShr w s
  | .compactSar w => Sys2Proof.Machine.execCompactSar w s
  | .compactIaddS64 w => Sys2Proof.Machine.execCompactIaddS64 w s
  | .compactPopc w => Sys2Proof.Machine.execCompactPopc w s
  | .compactClz w => Sys2Proof.Machine.execCompactClz w s
  | .compactFaddF32 w => Sys2Proof.Machine.execCompactFaddF32 w s
  | .compactFsubF32 w => Sys2Proof.Machine.execCompactFsubF32 w s
  | .compactFmulF32 w => Sys2Proof.Machine.execCompactFmulF32 w s
  | .compactFminF32 w => Sys2Proof.Machine.execCompactFminF32 w s
  | .compactFmaxF32 w => Sys2Proof.Machine.execCompactFmaxF32 w s
  | .compactFaddBf16x2 w => Sys2Proof.Machine.execCompactFaddBf16x2 w s
  | .compactFmulBf16x2 w => Sys2Proof.Machine.execCompactFmulBf16x2 w s
  | .compactFrcp w => Sys2Proof.Machine.execCompactFrcp w s
  | .compactFrsq w => Sys2Proof.Machine.execCompactFrsq w s
  | .compactFexp2 w => Sys2Proof.Machine.execCompactFexp2 w s
  | .compactCvtF32Bf16lo w => Sys2Proof.Machine.execCompactCvtF32Bf16lo w s
  | .compactCvtBf16F32 w => Sys2Proof.Machine.execCompactCvtBf16F32 w s
  | .compactItofS32 w => Sys2Proof.Machine.execCompactItofS32 w s
  | .compactFtoiS32 w => Sys2Proof.Machine.execCompactFtoiS32 w s
  | .compactIcmpEq w => Sys2Proof.Machine.execCompactIcmpEq w s
  | .compactIcmpLtS32 w => Sys2Proof.Machine.execCompactIcmpLtS32 w s
  | .compactFcmpLt w => Sys2Proof.Machine.execCompactFcmpLt w s
  | .compactSel w => Sys2Proof.Machine.execCompactSel w s
  | .compactLds32 ord w => Sys2Proof.Machine.execCompactLds32 ord w s
  | .compactSts32 ord w => Sys2Proof.Machine.execCompactSts32 ord w s
  | .compactLd32 ord w => Sys2Proof.Machine.execCompactLd32 ord w s
  | .compactSt32 ord w => Sys2Proof.Machine.execCompactSt32 ord w s
  | .compactTshflXor w => Sys2Proof.Machine.execCompactTshflXor w s
  | .compactBar w => Sys2Proof.Machine.execCompactBar w s
  | .compactWaitc w => Sys2Proof.Machine.execCompactWaitc w s
  | .compactYield w => Sys2Proof.Machine.execCompactYield w s
  | .compactBra w => Sys2Proof.Machine.execCompactBra w s
  | .compactExit w => Sys2Proof.Machine.execCompactExit w s
  | .compactRet w => Sys2Proof.Machine.execCompactRet w s
  | .compactAbarWait w => Sys2Proof.Machine.execCompactAbarWait w s
  | .compactCbacq w => Sys2Proof.Machine.execCompactCbacq w s
  | .compactCbrel w => Sys2Proof.Machine.execCompactCbrel w s
  | .moduleReset => Sys2Proof.Machine.execModuleReset s
  | .bringUpReady => Sys2Proof.Machine.execBringUpReady s
  | .contextEnable c cfg => Sys2Proof.Machine.execContextEnable c cfg s
  | .contextKill c => Sys2Proof.Machine.execContextKill c s
  | .queueEnable q ctl => Sys2Proof.Machine.execQueueEnable q ctl s
  | .qwptr q val => Sys2Proof.Machine.execQwptr q val s
  | .queueRestart q => Sys2Proof.Machine.execQueueRestart q s
  | .registerWrite off val => Sys2Proof.Machine.execRegisterWrite off val s
  | .keyLoad slot => Sys2Proof.Machine.execKeyLoad slot s
  | .keyClear slot => Sys2Proof.Machine.execKeyClear slot s
  | .attestation => Sys2Proof.Machine.execAttestation s
  | .fwload off val => Sys2Proof.Machine.execFwload off val s
  | .svctl mon val => Sys2Proof.Machine.execSvctl mon val s
  | .svival mon val => Sys2Proof.Machine.execSvival mon val s
  | .mscways stack val => Sys2Proof.Machine.execMscways stack val s
  | .lkdevid val => Sys2Proof.Machine.execLkdevid val s
  | .lkmctl val => Sys2Proof.Machine.execLkmctl val s
  | .nopPacket q => Sys2Proof.Machine.execNopPacket q s
  | .launch q => Sys2Proof.Machine.execLaunch q s
  | .stage q => Sys2Proof.Machine.execStage q s
  | .pin q => Sys2Proof.Machine.execPin q s
  | .unpin q => Sys2Proof.Machine.execUnpin q s
  | .movehome q => Sys2Proof.Machine.execMovehome q s
  | .signal q => Sys2Proof.Machine.execSignal q s
  | .waitPacket q => Sys2Proof.Machine.execWaitPacket q s
  | .barrier q => Sys2Proof.Machine.execBarrier q s
  | .drain q => Sys2Proof.Machine.execDrain q s
  | .resume q => Sys2Proof.Machine.execResume q s
  | .resumeAbandon q => Sys2Proof.Machine.execResumeAbandon q s
  | .preempt q => Sys2Proof.Machine.execPreempt q s
  | .timestamp q => Sys2Proof.Machine.execTimestamp q s
  | .fencePacket q => Sys2Proof.Machine.execFencePacket q s
  | .ovload q => Sys2Proof.Machine.execOvload q s
  | .workingSetStaging q n => Sys2Proof.Machine.execWorkingSetStaging q n s
  | .pageMove ctx vpage tier ilv stack => Sys2Proof.Machine.execPageMove ctx vpage tier ilv stack s
  | .pageRequestAnswer slot code => Sys2Proof.Machine.execPageRequestAnswer slot code s
  | .pageRequestTimeout slot => Sys2Proof.Machine.execPageRequestTimeout slot s
  | .atsInvalidation pasid va pages => Sys2Proof.Machine.execAtsInvalidation pasid va pages s
  | .oppointStable die => Sys2Proof.Machine.execOppointStable die s
  | .blockPlacement q lseq cores => Sys2Proof.Machine.execBlockPlacement q lseq cores s
  | .placementAging q lseq => Sys2Proof.Machine.execPlacementAging q lseq s
  | .completionRecordPost q => Sys2Proof.Machine.execCompletionRecordPost q s
  | .schedulerAging bid team rec => Sys2Proof.Machine.execSchedulerAging bid team rec s
  | .claimGrant core => Sys2Proof.Machine.execClaimGrant core s
  | .deadlk core => Sys2Proof.Machine.execDeadlk core s
  | .pauseEnd bid team rec => Sys2Proof.Machine.execPauseEnd bid team rec s
  | .yieldEnd bid team rec => Sys2Proof.Machine.execYieldEnd bid team rec s
  | .probeEnd bid team => Sys2Proof.Machine.execProbeEnd bid team s
  | .capture q lseq => Sys2Proof.Machine.execCapture q lseq s
  | .restore q lseq idx cores => Sys2Proof.Machine.execRestore q lseq idx cores s
  | .copyUnit bid op => Sys2Proof.Machine.execCopyUnit bid op s
  | .cbReservation bid off => Sys2Proof.Machine.execCbReservation bid off s
  | .copyRetire bid op => Sys2Proof.Machine.execCopyRetire bid op s
  | .matrixExecute bid => Sys2Proof.Machine.execMatrixExecute bid s
  | .matrixRetire bid => Sys2Proof.Machine.execMatrixRetire bid s
  | .slotAcquire bid => Sys2Proof.Machine.execSlotAcquire bid s
  | .sequenceEntry bid op => Sys2Proof.Machine.execSequenceEntry bid op s
  | .attentionGroup bid op => Sys2Proof.Machine.execAttentionGroup bid op s
  | .attentionExit bid op => Sys2Proof.Machine.execAttentionExit bid op s
  | .evictionStart ev => Sys2Proof.Machine.execEvictionStart ev s
  | .evictionRun ev => Sys2Proof.Machine.execEvictionRun ev s
  | .nmcallWriteBack call => Sys2Proof.Machine.execNmcallWriteBack call s
  | .stationDispatch stack => Sys2Proof.Machine.execStationDispatch stack s
  | .nmcallReturn call => Sys2Proof.Machine.execNmcallReturn call s
  | .nmcallArrive call => Sys2Proof.Machine.execNmcallArrive call s
  | .reductionPacket n => Sys2Proof.Machine.execReductionPacket n s
  | .chunkReceive n => Sys2Proof.Machine.execChunkReceive n s
  | .collectiveRetire bid op => Sys2Proof.Machine.execCollectiveRetire bid op s
  | .startMessage n => Sys2Proof.Machine.execStartMessage n s
  | .collComplete bid op => Sys2Proof.Machine.execCollComplete bid op s
  | .tagQuarantineEnd ctx id => Sys2Proof.Machine.execTagQuarantineEnd ctx id s
  | .bundlePrepare bun home => Sys2Proof.Machine.execBundlePrepare bun home s
  | .bundleChoose bun => Sys2Proof.Machine.execBundleChoose bun s
  | .bundleCommitMessage bun home => Sys2Proof.Machine.execBundleCommitMessage bun home s
  | .bundleAbortMessage bun home => Sys2Proof.Machine.execBundleAbortMessage bun home s
  | .bundleInstall line => Sys2Proof.Machine.execBundleInstall line s
  | .bundleRetire bun => Sys2Proof.Machine.execBundleRetire bun s
  | .versionReclaim line => Sys2Proof.Machine.execVersionReclaim line s
  | .directoryMerge die slice region size => Sys2Proof.Machine.execDirectoryMerge die slice region size s
  | .grantExpiry line => Sys2Proof.Machine.execGrantExpiry line s
  | .leaseSweep die slice => Sys2Proof.Machine.execLeaseSweep die slice s
  | .sliceSleep die slice => Sys2Proof.Machine.execSliceSleep die slice s
  | .sliceWake die slice => Sys2Proof.Machine.execSliceWake die slice s
  | .hotListPublish stack => Sys2Proof.Machine.execHotListPublish stack s
  | .scrub line found => Sys2Proof.Machine.execScrub line found s
  | .podRequest n => Sys2Proof.Machine.execPodRequest n s
  | .reassemblyTimeout n => Sys2Proof.Machine.execReassemblyTimeout n s
  | .portDown port => Sys2Proof.Machine.execPortDown port s
  | .meridianExchange agree => Sys2Proof.Machine.execMeridianExchange agree s
  | .lossOfLock => Sys2Proof.Machine.execLossOfLock s
  | .relock => Sys2Proof.Machine.execRelock s
  | .errorDetected e => Sys2Proof.Machine.execErrorDetected e s
  | .targetedTestEnd n passed => Sys2Proof.Machine.execTargetedTestEnd n passed s
  | .monitorLatch mon => Sys2Proof.Machine.execMonitorLatch mon s
  | .powerLoop watts => Sys2Proof.Machine.execPowerLoop watts s
  | .readyBitSet bid team key => Sys2Proof.Machine.execReadyBitSet bid team key s
  | .homeAcknowledgement bid team => Sys2Proof.Machine.execHomeAcknowledgement bid team s
  | .gwctPassed bid team rec => Sys2Proof.Machine.execGwctPassed bid team rec s
  | .dependencyMet q => Sys2Proof.Machine.execDependencyMet q s
  | .atsTranslationCompletion slot frame => Sys2Proof.Machine.execAtsTranslationCompletion slot frame s
  | .pcieCompletionTimeout bid team => Sys2Proof.Machine.execPcieCompletionTimeout bid team s
  | .portUp port lanes => Sys2Proof.Machine.execPortUp port lanes s
  | .dieTemperatureCap die celsius => Sys2Proof.Machine.execDieTemperatureCap die celsius s
  | .bfetchComplete bid op => Sys2Proof.Machine.execBfetchComplete bid op s

end Sys2Proof.Machine
end

