-- ==== Sys2Proof/Machine/Agenda.lean ====
section
/-! DEFINITION. The moves of the machine, of the outside and of time, and the move that the machine makes by itself when its
agenda is empty (log entry 10). -/

namespace Sys2Proof.Machine

/-- Time passes (R27): levels are sampled at each microsecond (R489), and awake slices visit their leased lines at each multiple of
16 ms (R450). -/
def tick (s : State) (ns : Nat) : State :=
  let t := s.time + ns
  let first := s.time / 16000000 + 1
  let s := (List.range (t / 16000000 + 1 - first)).foldl (fun s i => sweepAll s (16000000 * (first + i)))
    (sampleLevels s (t / 1000 - s.time / 1000))
  { s with time := t }

/-- Memory outside the module written by its own host or device (R229, R239): bytes at physical addresses of host memory, or at
places of a peer's map. -/
def hostStore (s : State) (pa : Nat) (l : List Byte) : State :=
  if 2 ^ 50 ≤ pa ∧ pa + l.length ≤ 2 ^ 52 then { s with mem := setBytes s.mem pa l } else s

/-- A line of another device's memory changes at its home (R419, R423): the module's view of it follows. -/
def peerLine (s : State) (line : Nat) (data : LineData) (poison : Bool) (ver : Option Version) (pend : Option PendState) : State :=
  if podLine line then
    let held : List PendLine := match pend with
      | some st => [⟨0, line, 0, 0, 0, 0, 0, st⟩]
      | none => []
    let vs : List Version := match ver with
      | some v => [{ v with line := line }]
      | none => []
    let s : State := setMPoison { s with mem := putLine s.mem line data } line poison
    ({ s with versions := s.versions.filter (fun v => v.line != line) ++ vs
              pendLines := s.pendLines.filter (fun p => !(p.bun == 0 && p.line == line)) ++ held } : State).wakeAll Wait.isVersion
  else s

/-- A move that is tried. -/
abbrev Attempt := State → Host.Outcome State Fault Refusal

/-! The events that may come about of themselves, in the order in which the default tries them. -/

/-- Events of a team: values, acknowledgements, ends of waits. -/
def teamEvents (s : State) (b : Block) (t : Team) : List Attempt :=
  let now := s.time
  t.unready.map (fun k => execReadyBitSet b.bid t.idx k)
    ++ (if t.unacked.isEmpty then [] else [execHomeAcknowledgement b.bid t.idx])
    ++ t.records.flatMap (fun r =>
      match r.wait with
      | .release sc => if releaseDone t now sc then [execGwctPassed b.bid t.idx r.num] else []
      | .ready => if r.aged then [] else [execSchedulerAging b.bid t.idx r.num]
      | .pause _ => [execPauseEnd b.bid t.idx r.num]
      | .yield _ _ => [execYieldEnd b.bid t.idx r.num]
      | _ => [])
    ++ (if t.probe.isSome then [execProbeEnd b.bid t.idx] else [])

/-- Events of a block's engines. -/
def engineEvents (b : Block) : List Attempt :=
  b.copies.flatMap (fun o => [execCopyUnit b.bid o.id, execCopyRetire b.bid o.id])
    ++ (if b.mat.queue.isEmpty && b.mat.acq.isEmpty then [] else [execMatrixExecute b.bid, execSlotAcquire b.bid, execMatrixRetire b.bid])
    ++ b.atts.flatMap (fun o => [execSequenceEntry b.bid o.id, execAttentionGroup b.bid o.id, execAttentionExit b.bid o.id])
    ++ b.sends.map (fun o => execCollectiveRetire b.bid o.id) ++ b.colls.map (fun o => execCollComplete b.bid o.id)
    ++ b.fetches.map fun o => execBfetchComplete b.bid o.id

/-- Messages that have arrived or are held, in order. -/
def netEvents (s : State) : List Attempt :=
  (List.range s.inNet.length).flatMap fun i => [execChunkReceive i, execStartMessage i, execReductionPacket i, execPodRequest i]

/-- Calls, evictions and bundles. -/
def farEvents (s : State) : List Attempt :=
  s.calls.flatMap (fun c => [execNmcallWriteBack c.id, execNmcallReturn c.id, execNmcallArrive c.id])
    ++ (List.range 8).map execStationDispatch
    ++ s.evicts.flatMap (fun e => [execEvictionStart e.id, execEvictionRun e.id])
    ++ s.bundles.flatMap (fun k =>
      k.homes.map (fun h => execBundlePrepare k.id h) ++ [execBundleChoose k.id]
        ++ k.homes.map (fun h => execBundleCommitMessage k.id h)
        ++ k.homes.map (fun h => execBundleAbortMessage k.id h) ++ [execBundleRetire k.id])
    ++ s.pendLines.map (fun p => execBundleInstall p.line) ++ s.versions.map (fun v => execVersionReclaim v.line)
    ++ s.quars.map fun k => execTagQuarantineEnd k.ctx k.id

/-- The packets that may start at a queue's head, and its records. -/
def queueEvents (s : State) : List Attempt :=
  (List.range 64).flatMap fun q =>
    (if s.posts.any fun p => p.q == q then [execCompletionRecordPost q] else [])
      ++ (if s.packets.any fun k => k.q == q && k.op == 7 then [execDependencyMet q] else [])
      ++ (if queueRuns s q && occupancy s q != 0 then
            (List.range 8).map (fun i => execWorkingSetStaging q ((qLseq s q + i) % 2 ^ 32)) ++
            [execNopPacket q, execLaunch q, execStage q, execPin q, execUnpin q, execMovehome q, execSignal q, execWaitPacket q,
             execBarrier q, execDrain q, execResume q, execResumeAbandon q, execPreempt q, execTimestamp q, execFencePacket q, execOvload q]
          else [])

/-- Cores for n consecutive blocks of a launch, in one cluster, each fitting by itself. -/
def coresIn (fits : Nat → Bool) (n : Nat) : Option (List Nat) :=
  (List.range 8).findSome? fun cl =>
    let free := ((List.range 48).map fun i => 48 * cl + i).filter fits
    if n ≤ free.length then some (free.take n) else none

/-- Placement: each unit on cores of its own (log entry 10). -/
def placeEvents (s : State) : List Attempt :=
  [execOppointStable 0, execOppointStable 1] ++ s.launches.flatMap fun l =>
    (if wantsPlace l then
      let fits : Nat → Bool := fun c => coreFits s c (Reserve.mine c l.q l.lseq) (needOf l.hdr) && pointReady s l c
      let n := if l.hdr.cores then l.hdr.ext 2 else unitLen l.hdr
      match coresIn fits n with
      | some cs => [execBlockPlacement l.q l.lseq ((List.range (unitLen l.hdr)).map fun i => cs.getD (i % n) 0)]
      | none => []
    else [])
      ++ (if awaitsPlace s l then [execPlacementAging l.q l.lseq] else [])
      ++ (s.saved.filter fun v => v.blk.q == l.q && v.blk.lseq == l.lseq && !v.hold).flatMap fun v =>
        let unit := savedUnit s l v.blk.idx
        let fits : Nat → Bool := fun c => coreFits s c (Reserve.mine c l.q l.lseq) (savedNeed v.blk) && pointReady s l c
        match coresIn fits unit.length with
        | some cs => [execRestore l.q l.lseq v.blk.idx cs]
        | none => []

/-- What the meridian brings: leases that have passed, halves of the directory that merge, hot lists and monitors whose intervals end,
messages and page requests given up, and a lock found again. -/
def timeEvents (s : State) : List Attempt :=
  s.grants.map (fun g => execGrantExpiry g.line)
    ++ s.dir.map (fun d => execDirectoryMerge d.die d.slice d.base d.size)
    ++ (List.range 8).map execHotListPublish
    ++ ((List.range 64).filter fun m => (bar s (svBase m)).getLsbD 31).map execMonitorLatch
    ++ (List.range s.reasm.length).map execReassemblyTimeout
    ++ s.preqs.map (fun r => execPageRequestTimeout r.slot) ++ [execRelock]

/-- Everything that the module may do next of itself, but for what its sensors, its links and its host bring. -/
def ownEvents (s : State) : List Attempt :=
  (if ready s || bitsOf (mnStat s) 29 28 == 1 then [] else [execBringUpReady])
    ++ s.blocks.flatMap (fun b => b.teams.flatMap (teamEvents s b))
    ++ ((s.claims.map ClaimReq.core).dedup.flatMap fun c => [execClaimGrant c, execDeadlk c])
    ++ (s.launches.filter fun l => l.stop.isSome).map (fun l => execCapture l.q l.lseq)
    ++ s.blocks.flatMap engineEvents ++ farEvents s ++ netEvents s ++ queueEvents s ++ placeEvents s ++ timeEvents s

/-- The first of some moves that changes the machine. -/
def firstMove (s : State) : List Attempt → Option State
  | [] => none
  | f :: fs =>
    match f s with
    | .next t => if t = s then firstMove s fs else some t
    | _ => firstMove s fs

/-- The sub-team that `cur` names fetches and executes its next instruction; one that is not ready, or that its quadrant does not
choose (R127, R128), does nothing. -/
def issueNext (s : State) : Host.Outcome State Fault Refusal :=
  match getEnv s with
  | none => .next s
  | some e =>
    if mayIssue e.team e.rcd && isChosen s s.cur then
      match fetchAt s e.blk e.la e.rcd.pc.toNat with
      | .ok i => exec i s
      | f => .next (fetchFail e f)
    else .next s

/-- One move. An event is a row that no word encodes. -/
def move (c : Choice) (s : State) : Host.Outcome State Fault Refusal :=
  match c with
  | .issue w => issueNext { s with cur := w }
  | .event i => if encode i = [] then exec i s else .next s
  | .tick ns => .next (tick s ns)
  | .arrive n => .next { s with inNet := s.inNet ++ [n] }
  | .hostStore pa l => .next (hostStore s pa l)
  | .peerLine line data poison ver pend => .next (peerLine s line data poison ver pend)
  | .evictLine die line => .next (evictLine s die line)

/-- What moves next of itself: a nanosecond passes, and then a ready sub-team issues, or, every fourth nanosecond or where
none is ready, the first event that changes the machine comes about. -/
def defaultMove (s : State) : Host.Outcome State Fault Refusal :=
  let s := tick s 1
  let issue : Host.Outcome State Fault Refusal :=
    match chooseIssuer s with
    | some w => move (.issue w) s
    | none => .next s
  if s.time % 4 ≠ 0 ∧ (chooseIssuer s).isSome then issue
  else match firstMove s (ownEvents s) with
    | some t => .next t
    | none => issue

/-- What follows every move at once: triggered operations and waits at barrier objects (R25, R400), collectives (R407),
launches given up whose commits are done (R437), level-two sets that give up what lies beyond their ways (R441), and
what becomes free on a core while a block waits there (R110). -/
def follow (s : State) : State := fitReserves (fitL2 (finishEnds (settle (collPass (settle s)))))

/-- A move, and what follows it. -/
def moveOn (r : Host.Outcome State Fault Refusal) : Host.Outcome State Fault Refusal :=
  match r with
  | .next t => .next (follow t)
  | r => r

end Sys2Proof.Machine
end

