-- ==== Sys2Proof/Machine/Step.lean ====
section
/-! DEFINITION. One step of the machine: the head of the agenda moves, or the machine's own choice; and the state that runs a
given instruction next. -/

namespace Sys2Proof.Machine

/-- One step. -/
def step (s : State) : Host.Outcome State Fault Refusal :=
  match s.agenda with
  | c :: rest => moveOn (move c { s with agenda := rest })
  | [] => moveOn (defaultMove s)

/-- The state with an instruction placed where the next step fetches (log entry 30). -/
def State.withFetchWord (s : State) (_nbits w : Nat) : State := loadProgram s (w % 2 ^ 96)

end Sys2Proof.Machine
end

