-- ==== Sys2Proof/Safety.lean ====
section
/-! DEFINITION. The terms in which claims about instructions are stated: when an instruction executes, what its issue leaves
alone, and what a destination takes. -/

namespace Sys2Proof.Machine

/-- The step goes on. -/
def Goes (s : State) : Prop := ∃ t, step s = .next t

/-- The sub-team that `cur` names executes an instruction of form f normally: it holds lanes, R80's checks pass, its team is not in
probe mode, and some lane takes part (R12). `c` holds the lanes that take part and the undersized reads. -/
structure Runs (f : Form) (i : Iss) (s : State) (e : Env) (c : Ctx) : Prop where
  env : getEnv s = some e
  calm : e.probing = false
  go : gate f i e = .go c
  lane : c.m ≠ 0

/-- What the issue of `i` executes: the full form `j` of header `h` itself, or a compact word that executes exactly as `j` (R71). -/
def Issues (i j : Instr) (h : Hdr) (iss : Iss) : Prop := i = j ∧ iss = issOf h ∨ expand i = some j ∧ iss = cissOf h

/-- Everything but the blocks, the issue counter and the free values' counter is as it was: memory, caches, tables, host registers,
launches, time. -/
def SameOutside (s t : State) : Prop := { t with blocks := s.blocks, issueCtr := s.issueCtr, freeCtr := s.freeCtr } = s

/-- Everything but the blocks is as it was, the counters of `beginIssue` aside; other blocks, the other teams of the block, and the
block's scratchpad, barriers and engines are as they were; `u` is the issuing team afterwards. -/
structure OnlyTeam (e : Env) (s t : State) (u : Team) : Prop where
  outside : SameOutside s t
  others : ∀ b, b ≠ e.who.bid → t.block? b = s.block? b
  block : ∃ ts, t.block? e.who.bid = some { e.blk with teams := ts }
  teams : ∀ i, i ≠ e.who.team → t.team? e.who.bid i = s.team? e.who.bid i
  team : t.team? e.who.bid e.who.team = some u

/-- The first register that a destination names in a lane, by its own code or through an index register (R133). -/
def Ctx.firstReg (c : Ctx) (d : Opnd) (l : Nat) : Option Nat :=
  match d with
  | .v r => some r.val
  | .x q => some (xReg (c.xval q.val l))
  | _ => none

/-- The k-th 32-bit register of a number, low register first (R38). -/
def regOf (v k : Nat) : W32 := w32 (v / 2 ^ (32 * k))

/-- A vector register in a lane after a destination of n registers has taken `val`. -/
def Ctx.vAfter (c : Ctx) (d : Opnd) (n : Nat) (val : Nat → Nat) (r l : Nat) : W32 :=
  match c.firstReg d l with
  | some r0 => if l ∈ c.lanes ∧ r0 ≤ r ∧ r < r0 + n then regOf (val l) (r - r0) else e0
  | none => e0
where e0 := c.e.team.getV r l

/-- A scalar register after it; a scalar takes one value (R64). -/
def Ctx.sAfter (c : Ctx) (d : Opnd) (n : Nat) (val : Nat → Nat) (r : Nat) : W32 :=
  match d with
  | .s r0 => if r0.val ≤ r ∧ r < r0.val + n then regOf (val 0) (r - r0.val) else c.e.team.getS r
  | _ => c.e.team.getS r

/-- An index register in a lane after an instruction that names those of a list: the index advances by the step, mod 256 (R133). -/
def Ctx.xAfter (c : Ctx) (qs : List Nat) (q l : Nat) : W32 :=
  let x := c.e.team.getX q l
  if q ∈ qs ∧ l ∈ c.lanes then xWithIndex x ((xIndex x + xStep x) % 256) else x

/-- The team's state beside its registers, records and splits is as it was: masks k1 to k7, the async counters and operations, the
special and trap registers, locks, slots, reservations; `unr` are the ready bits that the issue has cleared, each with its lanes. -/
def SameTeam (e : Env) (u : Team) (unr : List (RegKey × LaneMask)) : Prop :=
  u = { e.team with v := u.v, s := u.s, x := u.x, records := u.records, splits := u.splits, waits := e.team.waits ++ unr }

/-- The registers after an instruction whose only destination, of n registers, takes `val`, and everything else that it leaves. -/
structure Wrote (f : Form) (e : Env) (c : Ctx) (d : Opnd) (n : Nat) (val : Nat → Nat) (u : Team) : Prop where
  vec : ∀ r l, l < 1024 → u.getV r l = c.vAfter d n val r l
  sca : ∀ r, u.getS r = c.sAfter d n val r
  idx : ∀ q l, l < 1024 → u.getX q l = c.xAfter f.indexes q l
  rest : SameTeam e u (if f.lat.isSome then [] else (c.named f.dsts).map fun k => (k, c.m))

/-- The instruction executes and writes `val` to its destination: nothing else changes but the issuing records, which move on. -/
def Writes (i : Instr) (f : Form) (s : State) (e : Env) (c : Ctx) (d : Opnd) (n : Nat) (val : Nat → Nat) : Prop :=
  ∃ t u, exec i s = .next t ∧ OnlyTeam e s t u ∧ Wrote f e c d n val u

/-- A mask register, index registers as in `Wrote`, and nothing else: in the lanes that take part kd takes the bits of `m`, elsewhere
it keeps its own (R118). -/
structure Masked (f : Form) (e : Env) (c : Ctx) (kd : Nat) (m : LaneMask) (u : Team) : Prop where
  mask : ∀ k, k ≠ 0 → smGet 0 u.k k = if k = kd then maskMerge (smGet 0 e.team.k k) m c.m else smGet 0 e.team.k k
  idx : ∀ q l, l < 1024 → u.getX q l = c.xAfter f.indexes q l
  rest : u = { e.team with k := u.k, x := u.x, records := u.records, splits := u.splits }

/-- The instruction executes and writes a mask register in the lanes that take part. -/
def SetsMask (i : Instr) (f : Form) (s : State) (e : Env) (c : Ctx) (kd : Nat) (m : LaneMask) : Prop :=
  ∃ t u, exec i s = .next t ∧ OnlyTeam e s t u ∧ Masked f e c kd m u

/-- An instruction enters an engine as the operation s.nextId of class `cls` of its team: the class's counter rises by one, the
operation stands last in the team's order (R17, R18), and beside it only index registers, records, splits, locks and ready bits of the
team change; `B` is the issuing block afterwards. -/
structure Entered (f : Form) (e : Env) (c : Ctx) (cls : Nat) (s t : State) (u : Team) (B : Block) : Prop where
  block : t.block? e.who.bid = some B
  team : B.team? e.who.team = some u
  others : ∀ b, b ≠ e.who.bid → t.block? b = s.block? b
  outside : { t with blocks := s.blocks, issueCtr := s.issueCtr, freeCtr := s.freeCtr, nextId := s.nextId } = s
  fresh : t.nextId = s.nextId + 1
  ops : u.ops = e.team.ops ++ [⟨s.nextId, cls, false, none⟩]
  count : ∀ k, u.count k = if k = cls then e.team.count k + 1 else e.team.count k
  idx : ∀ q l, l < 1024 → u.getX q l = c.xAfter f.indexes q l
  rest : u = { e.team with x := u.x, records := u.records, splits := u.splits, cnt := u.cnt, ops := u.ops, lockBits := u.lockBits,
                           waits := u.waits }

/-- The operation `id` of a team that still holds lanes has finished in class `cls`, with the status `err` of an error or none: it
retires, and with it every finished one of the class behind which none unfinished stands (R18). -/
def Retired (s t : State) (bid ti id cls : Nat) (err : Option Nat) : Prop :=
  ∀ u, s.team? bid ti = some u → u.live ≠ 0 → ∃ u', t.team? bid ti = some u' ∧
    (let ops := u.ops.map fun o => if o.id = id then { o with fin := true, err := err } else o
     let gone := (ops.filter fun o => o.cls == cls).takeWhile fun o => o.fin
     u'.count cls = u.count cls - gone.length ∧ u'.ops = ops.filter (fun o => !(gone.contains o))) ∧
    u'.v = u.v ∧ u'.s = u.s ∧ u'.k = u.k

/-! Events. -/

/-- An event answers a next state of which P holds. -/
def Answers (i : Instr) (s : State) (P : State → Prop) : Prop := ∃ t, exec i s = .next t ∧ P t

/-- Only host registers differ, and of them only those at the named offsets. -/
def OnlyRegs (s t : State) (offs : List Nat) : Prop :=
  t = { s with bar0 := t.bar0 } ∧ ∀ off, (∀ o ∈ offs, off / 4 ≠ o / 4) → bar t off = bar s off

/-! Memory as the statements read it. -/

/-- The byte at a place of memory, as the machine holds it (R229). -/
def memByte (s : State) (p : Phys) : Byte := (homeBytes s p 1).headD 0

/-- A physical address under an interleaving code, reached through a key slot. -/
def placeOf (s : State) (ilv key pa : Nat) : Phys := physOf s ilv key false pa

/-- A byte of a block's scratchpad. -/
def scrByte (s : State) (bid off : Nat) : Byte :=
  match s.block? bid with
  | some b => byteAt b.scratch off
  | none => 0

/-- Every byte of every scratchpad is as it was. -/
def SameScratch (s t : State) : Prop := ∀ bid off, scrByte t bid off = scrByte s bid off

/-- Every byte of memory reads as before through a key slot. -/
def SameMemory (s t : State) (key : Nat) : Prop := ∀ ilv pa, memByte t (placeOf t ilv key pa) = memByte s (placeOf s ilv key pa)

/-- The memory places that accesses name are all reached through one key slot. -/
def OneKey (accs : List Acc) (key : Nat) : Prop := ∀ q ∈ accs, ∀ t p, q.2.2 = .mem t p → p.key = key

/-- The team's state beside its registers, records, splits, ready bits and the notes that accesses leave (R235, R260, R469). -/
def SameTeamAcc (e : Env) (u : Team) : Prop :=
  u = { e.team with v := u.v, s := u.s, x := u.x, records := u.records, splits := u.splits, waits := u.waits,
                    hostWait := u.hostWait, unacked := u.unacked, gwct := u.gwct, lastHost := u.lastHost }

/-- The issuing sub-team is the only one of its team, and holds no held group. -/
def Lone (e : Env) : Prop := e.team.records = [e.rcd] ∧ e.rcd.held = none

/-- The team after an instruction that moves or changes its one record to `r`: beside it only the index registers that the
instruction names differ. -/
structure OnlyRecord (f : Form) (e : Env) (c : Ctx) (u : Team) (r : Record) : Prop where
  idx : ∀ q l, l < 1024 → u.getX q l = c.xAfter f.indexes q l
  rest : u = { e.team with x := u.x, records := [r] }

/-- The registers as in `Wrote`, where the instruction may also change what the team notes of accesses. -/
structure Noted (f : Form) (e : Env) (c : Ctx) (d : Opnd) (n : Nat) (val : Nat → Nat) (u : Team) : Prop where
  vec : ∀ r l, l < 1024 → u.getV r l = c.vAfter d n val r l
  sca : ∀ r, u.getS r = c.sAfter d n val r
  idx : ∀ q l, l < 1024 → u.getX q l = c.xAfter f.indexes q l
  rest : SameTeamAcc e u

/-- What an acquire at a scope leaves of a team's notes (R231 to R233): the unacknowledged lines and the largest expiry of every team
of the instance of a narrow scope are its own too. -/
structure Acquired (s : State) (e : Env) (sc : Scope) (u : Team) : Prop where
  host : u.hostWait = e.team.hostWait
  lines : ∀ l, l ∈ u.unacked ↔ l ∈ e.team.unacked ∨ e.station = false ∧ ∃ v ∈ scopeTeams s e.blk sc, l ∈ v.unacked
  own : e.team.gwct ≤ u.gwct
  others : e.station = false → ∀ v ∈ scopeTeams s e.blk sc, v.gwct ≤ u.gwct

/-- The issuing record after an issue: past the instruction, at the next encoded time (R77, R128, R129). -/
def Issued (e : Env) (c : Ctx) (w : Nat) (pend : List Pend) (r : Record) : Prop :=
  r = { e.rcd with pc := e.rcd.pc + w64 c.iss.len, etime := e.rcd.etime + (w - 1) + max c.iss.stall 1, pend := pend,
                   yielded := false, aged := false, wait := .ready, readySince := e.s.time, issuedAt := e.s.issueCtr }

/-- The object of an `ABAR` after its test (R25). -/
def tested (o : BarObj) : BarObj :=
  if o.opn = 0 ∧ o.owed = 0 then { o with epoch := (o.epoch + 1) % 2 ^ 32, opn := o.legs } else o

/-! What every step keeps. -/

/-- A launch that has been given up stands only while commits of its bundles are under way (R437); every update of a scoreboard has been
tested against the armed slots (R400); and no sub-team waits at a barrier object whose epoch has passed (R25). -/
def State.Settled (s : State) : Prop :=
  (∀ l ∈ s.launches, l.state = .complete → ∃ k ∈ s.bundles, k.dev = devId s ∧ k.q = l.q ∧ k.lseq = l.lseq) ∧
  (∀ b ∈ s.blocks, b.sbTest = []) ∧
  ∀ b ∈ s.blocks, ∀ la, s.launch? b.q b.lseq = some la → ∀ t ∈ b.teams, ∀ r ∈ t.records, abarOver s la b r = false

/-! Numbers as the statements write them. -/

/-- n elements of w bits side by side, the first lowest. -/
def sideBySide (w n : Nat) (g : Nat → Nat) : Nat := ((List.range n).map fun k => g k % 2 ^ w * 2 ^ (w * k)).sum

/-- An exact integer in a type of w bits: with `sat` the nearer end of the range replaces a value outside it; the result modulo 2^w. -/
def inType (sat sg : Bool) (w : Nat) (v : Int) : Nat :=
  let lo : Int := if sg then -(2 : Int) ^ (w - 1) else 0
  let hi : Int := if sg then (2 : Int) ^ (w - 1) - 1 else (2 : Int) ^ w - 1
  ((if sat then max lo (min hi v) else v) % (2 : Int) ^ w).toNat

/-- Element k of a source of an integer type in a lane, after its modifiers (R66, R169). -/
def Ctx.intSrc (c : Ctx) (ty : ITy) (i : Nat) (o : Opnd) (neg abs : Bool) (l k : Nat) : Int :=
  intElem ty neg abs (c.rdTy i o ty l) k

/-- An integer result: every element's exact value in the type (R37, R169). -/
def intResult (ty : ITy) (sat : Bool) (v : Nat → Int) : Nat :=
  sideBySide (ityWidth ty) (ityCount ty) fun k => inType sat (itySigned ty) (ityWidth ty) (v k)

/-- Element k of a float source in a lane, after its modifiers (R66). -/
def Ctx.fltSrc (c : Ctx) (f : FFmt) (i : Nat) (o : Opnd) (neg abs : Bool) (l k : Nat) : FVal :=
  f.decode (fSrc f neg abs (c.rd i o l) k)

/-- A float result: every element's exact value scaled, rounded once and clamped (R37, R66, R181). -/
def fltResult (ty : FTy) (rm : Rm) (m : Mods) (v : Nat → FVal) : Nat :=
  sideBySide (ftyFmt ty).width (ftyCount ty) fun k => fFinish (ftyFmt ty) rm m (v k)

end Sys2Proof.Machine
end

