-- ==== Sys2Proof/Certificates/Slice0/Obligations.lean ====
section
/-! DEFINITION. The statements for the provers: what each instruction and each event of the machine does, that decoding reads what
encoding writes, that a step runs what it decodes, and what every step keeps. -/

open Sys2Proof Sys2Proof.Machine

/-- R169, R37, R66: the arithmetic integer majors: each element's formula exactly, then clamped or wrapped in the type. -/
def Obligations.IntegerArithmetic : Prop :=
  ∀ (h : Hdr) (ty : ITy) (sat : Bool) (m : Mods) (d a b x : Opnd) (s : State) (e : Env) (c : Ctx),
    let n := ityRegs ty
    let two := arithForm [fA a n, fB b n] d n
    let three := arithForm [fA a n, fB b n, fC x n] d n
    let va := c.intSrc ty 0 a m.nega m.absa
    let vb := c.intSrc ty 1 b m.negb m.absb
    let vx := c.intSrc ty 2 x m.negc m.absc
    (Runs (two 4) (issOf h) s e c →
      Writes (.iadd h ty sat m d a b) (two 4) s e c d n (fun l => intResult ty sat fun k => va l k + vb l k) ∧
      Writes (.isub h ty sat m d a b) (two 4) s e c d n (fun l => intResult ty sat fun k => va l k - vb l k) ∧
      Writes (.imin h ty m d a b) (two 4) s e c d n (fun l => intResult ty false fun k => min (va l k) (vb l k)) ∧
      Writes (.imax h ty m d a b) (two 4) s e c d n (fun l => intResult ty false fun k => max (va l k) (vb l k))) ∧
    (Runs (two 6) (issOf h) s e c →
      Writes (.imul h ty sat m d a b) (two 6) s e c d n (fun l => intResult ty sat fun k => va l k * vb l k)) ∧
    (Runs (three 4) (issOf h) s e c →
      Writes (.iadd3 h ty sat m d a b x) (three 4) s e c d n (fun l => intResult ty sat fun k => va l k + vb l k + vx l k) ∧
      Writes (.isad h ty sat d a b x) (three 4) s e c d n (fun l => intResult ty sat fun k =>
        |c.intSrc ty 0 a false false l k - c.intSrc ty 1 b false false l k| + c.intSrc ty 2 x false false l k)) ∧
    (Runs (three 6) (issOf h) s e c →
      Writes (.imad h ty sat m d a b x) (three 6) s e c d n (fun l => intResult ty sat fun k => va l k * vb l k + vx l k))

/-- R170, R174: the high half of a product, the widening multiply-add, and address formation. R179: integer dot products of four bytes or two
halves, with signs of each side, added to c in a 32-bit type. -/
def Obligations.WideArithmeticAndDots : Prop :=
  (
    ∀ (h : Hdr) (ty : ITy) (sg sat : Bool) (d a b x : Opnd) (s : State) (e : Env) (c : Ctx),
      let n := ityRegs ty
      (Runs (arithForm [fA a n, fB b n] d n 6) (issOf h) s e c →
        Writes (.imulh h ty d a b) (arithForm [fA a n, fB b n] d n 6) s e c d n (fun l => intResult ty false fun k =>
          (c.intSrc ty 0 a false false l k * c.intSrc ty 1 b false false l k) / (2 : Int) ^ ityWidth ty)) ∧
      (Runs (arithForm [fA a 1, fB b 1, fC x 2] d 2 6) (issOf h) s e c →
        Writes (.imadw h sg sat d a b x) (arithForm [fA a 1, fB b 1, fC x 2] d 2 6) s e c d 2 (fun l =>
          inType sat sg 64 (readInt sg 32 (c.rd 0 a l).toNat * readInt sg 32 (c.rd 1 b l).toNat
            + readInt sg 64 (c.rd64 2 x sg l).toNat))) ∧
      (Runs (arithForm [fA a 1, fB b 1, fC x 1] d 1 4) (issOf h) s e c →
        Writes (.lea h .z32 d a b x) (arithForm [fA a 1, fB b 1, fC x 1] d 1 4) s e c d 1
          (fun l => (c.rd 0 a l + (c.rd 1 b l) <<< ((c.rd 2 x l).toNat % 32)).toNat)) ∧
      (Runs (arithForm [fA a 2, fB b 1, fC x 1] d 2 4) (issOf h) s e c →
        Writes (.lea h .s64 d a b x) (arithForm [fA a 2, fB b 1, fC x 1] d 2 4) s e c d 2
          (fun l => (c.rd64 0 a true l + ((c.rd 1 b l).signExtend 64) <<< ((c.rd 2 x l).toNat % 64)).toNat) ∧
        Writes (.lea h .z64 d a b x) (arithForm [fA a 2, fB b 1, fC x 1] d 2 4) s e c d 2
          (fun l => (c.rd64 0 a false l + ((c.rd 1 b l).zeroExtend 64) <<< ((c.rd 2 x l).toNat % 64)).toNat))) ∧
  (
    ∀ (h : Hdr) (sat sa sb : Bool) (d a b x : Opnd) (s : State) (e : Env) (c : Ctx),
      let f := arithForm [fA a 1, fB b 1, fC x 1] d 1 6
      let el : Bool → Nat → Nat → W32 → Int := fun sg w i v => readInt sg w (v.toNat / 2 ^ (w * i))
      let term : Nat → Nat → Nat → Int := fun w l i => el sa w i (c.rd 0 a l) * el sb w i (c.rd 1 b l)
      let sg := sa || sb
      let acc : Nat → Int := fun l => readInt sg 32 (c.rd 2 x l).toNat
      Runs f (issOf h) s e c →
        Writes (.idot4 h sat sa sb d a b x) f s e c d 1 (fun l =>
          inType sat sg 32 (acc l + term 8 l 0 + term 8 l 1 + term 8 l 2 + term 8 l 3)) ∧
        Writes (.idot2 h sat sa sb d a b x) f s e c d 1 (fun l =>
          inType sat sg 32 (acc l + term 16 l 0 + term 16 l 1)))

/-- R171, R39: division truncates toward zero and the remainder has the dividend's sign; a division by zero gives 0 and leaves the dividend,
and the most negative value by −1 wraps, or with `.sat` clamps. The issue clears the destination's ready bits (R76). -/
def Obligations.DivisionResults : Prop :=
  ∀ (h : Hdr) (ty : ITy) (sat : Bool) (d a b : Opnd) (s : State) (e : Env) (c : Ctx),
    let n := ityRegs ty
    let f : Form := { arithForm [fA a n, fB b n] d n 0 with lat := none }
    let w := ityWidth ty
    let x : Nat → Int := fun l => readInt (itySigned ty) w (c.rdTy 0 a ty l)
    let y : Nat → Int := fun l => readInt (itySigned ty) w (c.rdTy 1 b ty l)
    Runs f (issOf h) s e c →
      Writes (.idiv h ty sat d a b) f s e c d n (fun l =>
        if y l = 0 then 0 else inType sat (itySigned ty) w ((x l).tdiv (y l))) ∧
      Writes (.irem h ty d a b) f s e c d n (fun l =>
        if y l = 0 then inType false (itySigned ty) w (x l)
        else inType false (itySigned ty) w (x l - y l * (x l).tdiv (y l)))

/-- R175, R176, R180, R173: bitwise majors and shifts, whose amount is b mod the width, in 32 bits or a pair; the funnel shift; moves and
selection by a mask. -/
def Obligations.LogicShiftsAndMoves : Prop :=
  ∀ (h : Hdr) (w : Fin 4) (d a b x : Opnd) (kc : Fin 8) (s : State) (e : Env) (c : Ctx),
    let n := if w.val < 2 then 1 else 2
    let W := 32 * n
    let va : Nat → BitVec W := fun l => BitVec.ofNat W (c.rdN 0 a n l)
    let vb : Nat → BitVec W := fun l => BitVec.ofNat W (c.rdN 1 b n l)
    let by_ : Nat → Nat := fun l => (c.rd 1 b l).toNat % W
    let two := arithForm [fA a n, fB b n] d n 4
    let sh := arithForm [fA a n, fB b 1] d n 4
    let pick : Form := { arithForm [fA a n, fB b n, .mask 2 kc.val] d n 4 with pass := .vec }
    (Runs two (issOf h) s e c →
      Writes (.andL h w d a b) two s e c d n (fun l => (va l &&& vb l).toNat) ∧
      Writes (.orL h w d a b) two s e c d n (fun l => (va l ||| vb l).toNat) ∧
      Writes (.xorL h w d a b) two s e c d n (fun l => (va l ^^^ vb l).toNat) ∧
      Writes (.andn h w d a b) two s e c d n (fun l => (va l &&& ~~~vb l).toNat)) ∧
    (Runs sh (issOf h) s e c →
      Writes (.shl h w d a b) sh s e c d n (fun l => (va l <<< by_ l).toNat) ∧
      Writes (.shr h w d a b) sh s e c d n (fun l => (va l >>> by_ l).toNat) ∧
      Writes (.sar h w d a b) sh s e c d n (fun l => ((va l).sshiftRight (by_ l)).toNat) ∧
      Writes (.rol h w d a b) sh s e c d n (fun l => ((va l).rotateLeft (by_ l)).toNat)) ∧
    (Runs (arithForm [fA a 1, fB b 1, fC x 1] d 1 4) (issOf h) s e c →
      Writes (.fshr h d a b x) (arithForm [fA a 1, fB b 1, fC x 1] d 1 4) s e c d 1 (fun l =>
        ((c.rd 0 a l ++ c.rd 1 b l) >>> ((c.rd 2 x l).toNat % 32)).toNat % 2 ^ 32)) ∧
    (Runs (arithForm [fA a n] d n 4) (issOf h) s e c →
      Writes (.mov h w d a) (arithForm [fA a n] d n 4) s e c d n (fun l => c.rdN 0 a n l)) ∧
    (Runs pick (issOf h) s e c →
      Writes (.sel h w d a b kc) pick s e c d n (fun l =>
        if (c.rdMask 2 kc.val).getLsbD l then c.rdN 0 a n l else c.rdN 1 b n l))

/-- R176, R177, R178: bit fields by the position and length that b packs; bit counts, 32 or 64 bits wide; byte permutation. -/
def Obligations.BitFieldsAndCounts : Prop :=
  ∀ (h : Hdr) (w : Fin 4) (sg : Bool) (d a b x : Opnd) (s : State) (e : Env) (c : Ctx),
    let n := if w.val < 2 then 1 else 2
    let W := 32 * n
    let p : Nat → Nat := fun l => min ((c.rd 1 b l).toNat % 256) 32
    let k : Nat → Nat := fun l => min ((c.rd 1 b l).toNat / 256 % 256) (32 - p l)
    let bit : Nat → Nat → Bool := fun l j => (c.rdN 0 a n l).testBit j
    let one := arithForm [fA a n] d 1 4
    let fb : Form := arithForm [fA a 1, fB b 1] d 1 4
    let f3 := arithForm [fA a 1, fB b 1, fC x 1] d 1 4
    (Runs fb (issOf h) s e c → ∃ val : Nat → Nat, Writes (.bfe h sg d a b) fb s e c d 1 val ∧
      ∀ l j, j < 32 → (val l).testBit j =
        if k l = 0 then false
        else if j < k l then (c.rd 0 a l).getLsbD (p l + j)
        else sg && (c.rd 0 a l).getLsbD (p l + k l - 1)) ∧
    (Runs f3 (issOf h) s e c →
      (∃ val : Nat → Nat, Writes (.bfi h d a b x) f3 s e c d 1 val ∧
        ∀ l j, j < 32 → (val l).testBit j =
          if p l ≤ j ∧ j < p l + k l then (c.rd 0 a l).getLsbD (j - p l) else (c.rd 2 x l).getLsbD j) ∧
      ∃ val : Nat → Nat, Writes (.prmb h d a b x) f3 s e c d 1 val ∧
        ∀ l i, i < 4 →
          let nib := (c.rd 2 x l).toNat / 2 ^ (4 * i) % 16
          let src := ((c.rd 1 b l ++ c.rd 0 a l).toNat / 2 ^ (8 * (nib % 8))) % 256
          val l / 2 ^ (8 * i) % 256 = if nib < 8 then src else if 128 ≤ src then 0xFF else 0) ∧
    (Runs one (issOf h) s e c →
      (∃ val : Nat → Nat, Writes (.clz h w d a) one s e c d 1 val ∧
        ∀ l, val l ≤ W ∧ (∀ j, W - val l ≤ j → j < W → bit l j = false) ∧ (val l < W → bit l (W - 1 - val l) = true)) ∧
      (∃ val : Nat → Nat, Writes (.ctz h w d a) one s e c d 1 val ∧
        ∀ l, val l ≤ W ∧ (∀ j, j < val l → bit l j = false) ∧ (val l < W → bit l (val l) = true)) ∧
      Writes (.popc h w d a) one s e c d 1 (fun l => ((List.range W).filter fun j => bit l j).length)) ∧
    (Runs (arithForm [fA a n] d n 4) (issOf h) s e c →
      ∃ val : Nat → Nat, Writes (.brev h w d a) (arithForm [fA a n] d n 4) s e c d n val ∧
        ∀ l j, j < W → (val l).testBit j = bit l (W - 1 - j))

/-- R180, R72, R85: a `NOP`, full, compact or an entry word, ignores its mask and changes nothing but the issuing record. R12: an instruction
whose mask holds no lane has no effect but to move on. -/
def Obligations.NopsAndEmptyMasksMoveOn : Prop :=
  (
    ∀ (h : Hdr) (i : Instr) (iss : Iss) (s : State) (e : Env) (c : Ctx),
      let f : Form := ⟨[], [], .vec, some 4, .run, true, false⟩
      Issues i (.nop h) h iss → Runs f { iss with kmask := 0, kinv := false } s e c → Writes i f s e c .zero 0 (fun _ => 0)) ∧
  (
    ∀ (h : Hdr) (ty : ITy) (sat sx : Bool) (m : Mods) (mc : MemCtl) (off : BitVec 16) (d a b x : Opnd) (f : Form) (i : Instr)
      (s : State) (e : Env) (c : Ctx),
      (i = .iadd h ty sat m d a b ∧ f = arithForm [fA a (ityRegs ty), fB b (ityRegs ty)] d (ityRegs ty) 4) ∨
        (i = .ld h mc sx d a b ∧ f = loadForm true true .vec (sizeRegs mc.size) d a b) ∨
        (i = .st h mc a b x ∧ f = storeForm true true (sizeRegs mc.size) a b x) ∨
        (i = .trap h a ∧ f = ctlForm [fA a 1] [] .run true) ∨ (i = .exit h ∧ f = ctlForm [] [] .ends true) ∨
        (i = .bra h off ∧ f = branchForm [] []) →
      getEnv s = some e → e.probing = false → gate f (issOf h) e = .go c → c.m = 0 →
      ∃ t u, exec i s = .next t ∧ OnlyTeam e s t u ∧ u = { e.team with x := u.x, records := u.records, splits := u.splits } ∧
        (∀ q l, l < 1024 → u.getX q l = e.team.getX q l) ∧
        (e.team.records = [e.rcd] → ∃ r, u.records = [r] ∧ r.pc = e.rcd.pc + w64 (issOf h).len ∧ r.k0 = e.rcd.k0))

/-- R181, R182, R183, R66: the float arithmetic of FP32 and packed BF16 and FP16: each element's exact result scaled, rounded once and
clamped; a fused multiply-add does not round its product. -/
def Obligations.FloatArithmetic : Prop :=
  ∀ (h : Hdr) (ty : FTy) (rm : Rm) (m : Mods) (bf : Bool) (d a b x : Opnd) (s : State) (e : Env) (c : Ctx),
    let F := ftyFmt ty
    let two := arithForm [fA a 1, fB b 1] d 1 6
    let three := arithForm [fA a 1, fB b 1, fC x 1] d 1 6
    let va := c.fltSrc F 0 a m.nega m.absa
    let vb := c.fltSrc F 1 b m.negb m.absb
    let vx := c.fltSrc F 2 x m.negc m.absc
    let h2 := if bf then bf16 else fp16
    (Runs two (issOf h) s e c →
      Writes (.fadd h ty rm m d a b) two s e c d 1 (fun l => fltResult ty rm m fun k => FVal.sum rm [va l k, vb l k]) ∧
      Writes (.fsub h ty rm m d a b) two s e c d 1 (fun l => fltResult ty rm m fun k => FVal.sum rm [va l k, (vb l k).neg]) ∧
      Writes (.fmul h ty rm m d a b) two s e c d 1 (fun l => fltResult ty rm m fun k => (va l k).mul (vb l k)) ∧
      Writes (.fscale h ty rm m d a b) two s e c d 1 (fun l => fltResult ty rm m fun k =>
        (va l k).scale (if ty = .f32 then (c.rd 1 b l).toInt else readInt true 16 ((c.rd 1 b l).toNat / 2 ^ (16 * k)))) ∧
      Writes (.fmin h ty m d a b) two s e c d 1 (fun l => sideBySide F.width (ftyCount ty) fun k =>
        clampIf F m (fMinMax F false (fSrc F m.nega m.absa (c.rd 0 a l) k) (fSrc F m.negb m.absb (c.rd 1 b l) k))) ∧
      Writes (.fmax h ty m d a b) two s e c d 1 (fun l => sideBySide F.width (ftyCount ty) fun k =>
        clampIf F m (fMinMax F true (fSrc F m.nega m.absa (c.rd 0 a l) k) (fSrc F m.negb m.absb (c.rd 1 b l) k)))) ∧
    (Runs three (issOf h) s e c →
      Writes (.ffma h ty rm m d a b x) three s e c d 1 (fun l => fltResult ty rm m fun k =>
        FVal.sum rm [(va l k).mul (vb l k), vx l k]) ∧
      Writes (.fdot2 h bf rm m d a b x) three s e c d 1 (fun l => fFinish fp32 rm m (FVal.sum rm
        [(c.fltSrc h2 0 a m.nega m.absa l 0).mul (c.fltSrc h2 1 b m.negb m.absb l 0),
         (c.fltSrc h2 0 a m.nega m.absa l 1).mul (c.fltSrc h2 1 b m.negb m.absb l 1),
         c.fltSrc fp32 2 x m.negc m.absc l 0]))) ∧
    (Runs (arithForm [fA a 1] d 1 6) (issOf h) s e c →
      Writes (.frnd h ty rm m d a) (arithForm [fA a 1] d 1 6) s e c d 1 (fun l => sideBySide F.width (ftyCount ty) fun k =>
        clampIf F m (frndBits F rm (fSrc F m.nega m.absa (c.rd 0 a l) k))))

/-- R182, R186, R187, R188: division, the exponent, and the functions of one FP32 source: the exact value scaled, rounded once and clamped. -/
def Obligations.FloatFunctions : Prop :=
  ∀ (h : Hdr) (cf : ClassFmt) (rm : Rm) (m : Mods) (d a b : Opnd) (s : State) (e : Env) (c : Ctx),
    let fn := arithForm [fA a 1] d 1 12
    let dv : Form := { arithForm [fA a 1, fB b 1] d 1 0 with lat := none }
    let va : Nat → FVal := fun l => c.fltSrc fp32 0 a m.nega m.absa l 0
    let out : Rm → FVal → Nat := fun rm v => fFinish fp32 rm m v
    (Runs dv (issOf h) s e c →
      Writes (.fdiv h rm m d a b) dv s e c d 1 (fun l => out rm ((va l).div (c.fltSrc fp32 1 b m.negb m.absb l 0)))) ∧
    (Runs (arithForm [fA a 1] d 1 6) (issOf h) s e c →
      Writes (.fexpo h cf d a) (arithForm [fA a 1] d 1 6) s e c d 1 (fun l =>
        let F := classFmt cf
        sideBySide F.width (32 / F.width) fun k =>
          match F.decode (fElem F (c.rd 0 a l).toNat k) with
          | .nan => 2 ^ (F.width - 1) - 2
          | .inf _ => 2 ^ (F.width - 1) - 1
          | .fin _ v g => if v = 0 then 2 ^ (F.width - 1) else inType false true F.width (Nat.log2 v + g))) ∧
    (Runs fn (issOf h) s e c →
      Writes (.frcp h rm m d a) fn s e c d 1 (fun l => out rm (FVal.div (.fin false 1 0) (va l))) ∧
      Writes (.frsq h rm m d a) fn s e c d 1 (fun l => out rm (va l).rsqrt) ∧
      Writes (.fsqrt h rm m d a) fn s e c d 1 (fun l => out rm (va l).sqrt) ∧
      Writes (.fexp2 h m d a) fn s e c d 1 (fun l => out .rne (va l).exp2) ∧
      Writes (.flog2 h m d a) fn s e c d 1 (fun l => out .rne (va l).log2) ∧
      Writes (.fsin h m d a) fn s e c d 1 (fun l => out .rne (va l).sinPi) ∧
      Writes (.fcos h m d a) fn s e c d 1 (fun l => out .rne (va l).cosPi) ∧
      Writes (.ftanh h m d a) fn s e c d 1 (fun l => out .rne (va l).tanh) ∧
      Writes (.fsigm h m d a) fn s e c d 1 (fun l => out .rne (va l).sigm))

/-- R189 to R193, R36, R49: conversions; a value outside the narrower format takes what the context's overflow table says. -/
def Obligations.Conversions : Prop :=
  ∀ (h : Hdr) (k : CvtKind) (ty : CmpTy) (rm : Rm) (q : QFmt) (m : Mods) (d a b x : Opnd) (s : State) (e : Env) (c : Ctx),
    let n := ityRegs (cmpIty ty)
    let f3 := arithForm [fA a 1, fB b 1, fC x 1] d 1 6
    let ov := ovtab s e.la.ctx
    (Runs f3 (issOf h) s e c →
      Writes (.cvt h k m d a b x) f3 s e c d 1 (fun l =>
        let xa := fSrc fp32 m.nega m.absa (c.rd 0 a l) 0
        let xb := fSrc fp32 m.negb m.absb (c.rd 1 b l) 0
        let pos := (c.rd 1 b l).toNat
        match k with
        | .f32bf16 => fp32.encode .rne (bf16.decode (fElem bf16 (c.rd 0 a l).toNat (pos % 2)))
        | .f32f16 => fp32.encode .rne (fp16.decode (fElem fp16 (c.rd 0 a l).toNat (pos % 2)))
        | .f32nf8 => fp32.encode .rne (nf8.decode (fElem nf8 (c.rd 0 a l).toNat (pos % 4)))
        | .bf16 r => narrowTo bf16 (polBf16 ov) r xa + 2 ^ 16 * narrowTo bf16 (polBf16 ov) r xb
        | .f16 r => narrowTo fp16 (polFp16 ov) r xa + 2 ^ 16 * narrowTo fp16 (polFp16 ov) r xb
        | .nf8 r => narrowTo nf8 (polNf8 ov) r xa + 2 ^ 8 * narrowTo nf8 (polNf8 ov) r xb
            + 2 ^ 16 * ((c.rd 2 x l).toNat % 2 ^ 16))) ∧
    (Runs (arithForm [fA a 1] d n 6) (issOf h) s e c →
      Writes (.ftoi h ty rm m d a) (arithForm [fA a 1] d n 6) s e c d n (fun l =>
        ftoiNarrow (polQ8 ov) (itySigned (cmpIty ty)) (ityWidth (cmpIty ty)) rm
          ((c.fltSrc fp32 0 a m.nega m.absa l 0).scale m.scale.toInt))) ∧
    (Runs (arithForm [fA a n] d 1 6) (issOf h) s e c →
      Writes (.itof h ty rm m d a) (arithForm [fA a n] d 1 6) s e c d 1 (fun l =>
        let v := readInt (itySigned (cmpIty ty)) (ityWidth (cmpIty ty)) (c.rdTy 0 a (cmpIty ty) l)
        fp32.encode rm ((FVal.fin (decide (v < 0)) v.natAbs 0).scale m.scale.toInt))) ∧
    (Runs (arithForm [fA a 2, fB b 1, fC x 1] d 1 6) (issOf h) s e c →
      Writes (.qunpk h q d a b x) (arithForm [fA a 2, fB b 1, fC x 1] d 1 6) s e c d 1 (fun l =>
        qunpkElem (polFp32 ov) ((c.rd 2 x l).toNat % 256)
          (readInt true (qBits q) ((c.rd64 0 a false l).toNat / 2 ^ ((c.rd 1 b l).toNat % 64)))))

/-- R172, R184, R185, R118: the comparisons and the class test write a mask's bits in the lanes that take part. R199: `MATCH` marks the first
lane of each value, or every lane where all values are the same. -/
def Obligations.ComparesAndMatchesWriteMasks : Prop :=
  (
    ∀ (h : Hdr) (ty : CmpTy) (ic : ICmp) (fc : FCmp) (cf : ClassFmt) (m : Mods) (kd : Fin 8) (a b : Opnd)
      (s : State) (e : Env) (c : Ctx),
      let t := cmpIty ty
      let n := ityRegs t
      let fi := maskForm [fA a n, fB b n] kd.val 4
      let ff := maskForm [fA a 1, fB b 1] kd.val 6
      let x : Nat → Int := fun l => readInt (itySigned t) (ityWidth t) (c.rdTy 0 a t l)
      let y : Nat → Int := fun l => readInt (itySigned t) (ityWidth t) (c.rdTy 1 b t l)
      (Runs fi (issOf h) s e c → ∃ k : LaneMask, SetsMask (.icmp h ty ic kd a b) fi s e c kd.val k ∧
        ∀ l ∈ c.lanes, k.getLsbD l = match ic with
          | .eq => decide (x l = y l)
          | .ne => decide (x l ≠ y l)
          | .lt => decide (x l < y l)
          | .le => decide (x l ≤ y l)) ∧
      (Runs ff (issOf h) s e c →
        (∃ k : LaneMask, SetsMask (.fcmp h fc m kd a b) ff s e c kd.val k ∧
          ∀ l ∈ c.lanes, k.getLsbD l =
            fcmpHolds fc (c.fltSrc fp32 0 a m.nega m.absa l 0) (c.fltSrc fp32 1 b m.negb m.absb l 0)) ∧
        ∃ k : LaneMask, SetsMask (.fclass h cf m kd a b) ff s e c kd.val k ∧
          ∀ l ∈ c.lanes, k.getLsbD l =
            (c.rd 1 b 0).getLsbD (fclassBit (classFmt cf) (fSrc (classFmt cf) m.nega m.absa (c.rd 0 a l) 0)))) ∧
  (
    ∀ (h : Hdr) (all wide : Bool) (kd : Fin 8) (a : Opnd) (s : State) (e : Env) (c : Ctx),
      let n := if wide then 2 else 1
      let f : Form := ⟨[fA a n], [.mask 3 kd.val], .cross, some 8, .run, true, false⟩
      Runs f (issOf h) s e c → ∃ k : LaneMask, SetsMask (.matchL h all wide kd a) f s e c kd.val k ∧
        ∀ l ∈ c.lanes, k.getLsbD l =
          if all then decide (∀ i ∈ c.lanes, ∀ j ∈ c.lanes, c.rdN 0 a n i = c.rdN 0 a n j)
          else decide (∀ j ∈ c.lanes, j < l → c.rdN 0 a n j ≠ c.rdN 0 a n l))

/-- R192, R167: `QPACK` writes each packed word of the lanes that take part, in every live lane of it, whether or not the lane is inside the
execution mask: the low lanes the QB stream's words, the others the block exponent. -/
def Obligations.PackingWritesWords : Prop :=
  ∀ (h : Hdr) (q : QFmt) (m : Mods) (r : Fin 176) (a : Opnd) (s : State) (e : Env) (c : Ctx),
    let f : Form := { arithForm [fA a 1] (.v r) 1 8 with pass := .vec }
    Runs f (issOf h) s e c → ∃ t u, exec (.qpack h q m (.v r) a) s = .next t ∧ OnlyTeam e s t u ∧
      ∀ g l, l < 1024 → u.getV g l =
        let w := l / 32
        let xs : List FVal := (List.range 32).map fun j =>
          if c.m.getLsbD (32 * w + j) then c.fltSrc fp32 0 a m.nega m.absa (32 * w + j) 0 else .fin false 0 0
        let blk := qpackBlock (qBits q) (polQ (ovtab s e.la.ctx) q) xs
        if g = r.val ∧ w ∈ liveWords c.m 32 e.team.lanes ∧ e.rcd.k0.getLsbD l then
          (if l % 32 < qBits q then w32 (qStream (qBits q) blk.2 / 2 ^ (32 * (l % 32))) else w32 blk.1)
        else e.team.getV g l

/-- R194 to R197, R52: reductions and scans on the lane-index tree over the lanes that take part, an exclusive scan's first lane taking the
identity; shuffles and broadcasts read a live lane's value, and their default where the lane is none. -/
def Obligations.CrossLaneValues : Prop :=
  ∀ (h : Hdr) (op : TreeOp) (excl wide first : Bool) (md : Shfl) (vo : VoteOp) (d a b x : Opnd) (s : State) (e : Env) (c : Ctx),
    let n := if op = .iadd64 then 2 else 1
    let k := if wide then 2 else 1
    let f1 := crossForm [fA a n] d n
    let fs := laneForm [fA a n] d n
    let f3 := laneForm [fA a k, fB b 1, fC x k] d k
    let v : Nat → Option Nat := fun l => if c.m.getLsbD l then some (c.rdN 0 a n l) else none
    let live : Nat → Bool := fun j => decide (j < 1024) && e.rcd.k0.getLsbD j
    let pick : Nat → Nat → Nat := fun src l => if live src then c.rdN 0 a k src else c.rdN 2 x k l
    (Runs f1 (issOf h) s e c →
      Writes (.tred h op d a) f1 s e c d n (fun _ => (treeAt op v (treeDepth e.team.lanes) 0).getD 0)) ∧
    (Runs fs (issOf h) s e c →
      Writes (.tscan h op excl d a) fs s e c d n (fun l =>
        (prefixUpTo op v (if excl then l else l + 1)).getD (treeIdent op))) ∧
    (Runs f3 (issOf h) s e c →
      Writes (.tshfl h md wide d a b x) f3 s e c d k (fun l =>
        let j := (c.rd 1 b l).toNat
        let i : Int := (c.rd 1 b l).toInt
        let at_ : Int → Nat := fun p => if 0 ≤ p then pick p.toNat l else c.rdN 2 x k l
        match md with
        | .idx => pick j l
        | .up => at_ (l - i)
        | .down => at_ (l + i)
        | .xor => pick (l ^^^ j % 1024) l) ∧
      (opIsS d = false → Writes (.tbcst h first wide d a b x) f3 s e c d k (fun l =>
        pick (if first then e.low c.m else (c.rd 1 b 0).toNat) l)) ∧
      (opIsS d = true → Writes (.tbcst h first wide d a b x) f3 s e c d k (fun _ =>
        pick (if first then e.low c.m else (c.rd 1 b 0).toNat) (e.low c.m)))) ∧
    (Runs (crossForm [fA a 1] d 1) (issOf h) s e c →
      Writes (.vote h vo d a) (crossForm [fA a 1] d 1) s e c d 1 (fun _ =>
        let holds : Bool := match vo with
          | .any => decide (∃ l ∈ c.lanes, c.rd 0 a l ≠ 0)
          | .all => decide (∀ l ∈ c.lanes, c.rd 0 a l ≠ 0)
          | .none => decide (∀ l ∈ c.lanes, c.rd 0 a l = 0)
          | .uni => decide (∀ l ∈ c.lanes, ∀ j ∈ c.lanes, c.rd 0 a l = c.rd 0 a j)
        if holds then 1 else 0))

/-- R158, R118: the mask majors combine masks per lane and move them; a count and a find read the lanes that take part. -/
def Obligations.MaskOperations : Prop :=
  ∀ (h : Hdr) (kd ka kb : Fin 8) (op : KBin) (hi : Bool) (d a b : Opnd) (s : State) (e : Env) (c : Ctx),
    let K : Nat → Fin 8 → LaneMask := fun i k => c.rdMask i k.val
    let fk : List Field → Form := fun srcs => maskForm srcs kd.val 4
    let fr : Form := ⟨[.mask 0 ka.val], [.opnd 3 d 1], .cross, some 4, .run, true, false⟩
    let w : Nat := (c.rd 1 b 0).toNat % 32
    let ks := maskLanes (K 0 ka &&& c.m) e.team.lanes
    (Runs (fk [.mask 0 ka.val, .mask 1 kb.val]) (issOf h) s e c →
      SetsMask (.kop h kd (.bin op ka kb)) (fk [.mask 0 ka.val, .mask 1 kb.val]) s e c kd.val (match op with
        | .and => K 0 ka &&& K 1 kb
        | .or => K 0 ka ||| K 1 kb
        | .xor => K 0 ka ^^^ K 1 kb
        | .andn => K 0 ka &&& ~~~K 1 kb
        | .orn => K 0 ka ||| ~~~K 1 kb)) ∧
    (Runs (fk [.mask 0 ka.val]) (issOf h) s e c →
      SetsMask (.kop h kd (.not ka)) (fk [.mask 0 ka.val]) s e c kd.val (~~~K 0 ka)) ∧
    (Runs (fk []) (issOf h) s e c →
      SetsMask (.kop h kd .clr) (fk []) s e c kd.val 0 ∧ SetsMask (.kop h kd .set) (fk []) s e c kd.val (BitVec.allOnes 1024)) ∧
    (Runs fr (issOf h) s e c →
      Writes (.kcnt h d ka) fr s e c d 1 (fun _ => ks.length) ∧
      Writes (.kfnd h hi d ka) fr s e c d 1 (fun _ => ((if hi then ks.getLast? else ks.head?).getD 0xFFFFFFFF))) ∧
    (Runs (fk [fA a 1]) (issOf h) s e c → ∃ k : LaneMask,
      SetsMask (.kmov h (.v2k kd a)) (fk [fA a 1]) s e c kd.val k ∧ ∀ l ∈ c.lanes, k.getLsbD l = (c.rd 0 a l != 0)) ∧
    (let f : Form := ⟨[.mask 0 ka.val], [.opnd 3 d 1], .vec, some 4, .run, true, false⟩
     Runs f (issOf h) s e c →
      Writes (.kmov h (.k2v d ka)) f s e c d 1 (fun l => if (K 0 ka).getLsbD l then 1 else 0)) ∧
    (let f : Form := ⟨[.mword 0 ka.val b, fB b 1], [.opnd 3 d 1], .scalar, some 4, .run, true, false⟩
     Runs f (issOf h) s e c →
      Writes (.kmov h (.k2s d ka b)) f s e c d 1 (fun _ => (K 0 ka).toNat / 2 ^ (32 * w) % 2 ^ 32)) ∧
    (Runs { fk [fA a 1, fB b 1] with dsts := [.mword 3 kd.val b] } (issOf h) s e c → ∃ t u,
      exec (.kmov h (.s2k kd a b)) s = .next t ∧ OnlyTeam e s t u ∧ u.v = e.team.v ∧ u.s = e.team.s ∧
      ∀ k l, k ≠ 0 → l < 1024 → (smGet 0 u.k k).getLsbD l =
        if k = kd.val ∧ c.m.getLsbD l ∧ l / 32 = w then (c.rd 0 a 0).getLsbD (l % 32) else (smGet 0 e.team.k k).getLsbD l)

/-- R201, R203, R206 to R209: a load whose lanes meet no cause of R205 writes each lane's bytes, extended as its size and `.sx` say: those of
the scratchpad it names, or those that this module's memory on the core's own die holds. No byte of memory or of a scratchpad changes.
R208: `LDU` reads the address once, for the lowest lane that takes part, into scalar registers. -/
def Obligations.LoadsReadBytes : Prop :=
  (
    ∀ (h : Hdr) (mc : MemCtl) (sx gen : Bool) (d a b : Opnd) (i : Instr) (iss : Iss) (s : State) (e : Env) (c : Ctx) (key : Nat),
      let n := sizeBytes mc.size
      let k := sizeRegs mc.size
      let f := loadForm gen true .vec k d a b
      let rs := c.resolveLanes c.lanes (c.ea gen a b) n 0 (c.poisonAt n)
      Issues i (if gen then .ld h mc sx d a b else .lds h mc sx d a b) h iss →
      Runs f iss s e c → opIsS d = false → firstBad rs [] = none → OneKey (goodAccs rs) key →
        ∃ t u val, exec i s = .next t ∧ t.team? e.who.bid e.who.team = some u ∧ SameTeamAcc e u ∧
          (∀ r l, l < 1024 → u.getV r l = c.vAfter d k val r l) ∧ u.s = e.team.s ∧
          (∀ q l, l < 1024 → u.getX q l = c.xAfter f.indexes q l) ∧
          (∀ q ∈ goodAccs rs, match q.2.2 with
            | .scr bid off => ∀ B, s.block? bid = some B → val q.1 = loadVal mc.size sx (bytesAt B.scratch off n)
            | .mem _ p => (e.blk.site.isStation = false ∧ p.kind = .own ∧ locDie p.loc = coreDie e.blk.coreNum →
                val q.1 = loadVal mc.size sx (homeBytes s p n))) ∧
          SameScratch s t ∧ SameMemory s t key) ∧
  (
    ∀ (h : Hdr) (mc : MemCtl) (sx : Bool) (r0 : Fin 64) (a b : Opnd) (s : State) (e : Env) (c : Ctx),
      let n := sizeBytes mc.size
      let k := sizeRegs mc.size
      let f := loadForm true false .scalar k (.s r0) a b
      let l0 := e.low c.m
      let rs := c.resolveLanes [l0] (c.ea true a b) n 0 (c.poisonAt n)
      Runs f (issOf h) s e c → firstBad rs [] = none →
        ∃ t u val, exec (.ldu h mc sx (.s r0) a b) s = .next t ∧ t.team? e.who.bid e.who.team = some u ∧ SameTeamAcc e u ∧
          u.v = e.team.v ∧ (∀ r, u.getS r = if r0.val ≤ r ∧ r < r0.val + k then regOf val (r - r0.val) else e.team.getS r) ∧
          SameScratch s t ∧
          ∀ q ∈ goodAccs rs, match q.2.2 with
            | .scr bid off => ∀ B, s.block? bid = some B → val = loadVal mc.size sx (bytesAt B.scratch off n)
            | .mem _ p => (p.kind = .own ∧ locDie p.loc = coreDie e.blk.coreNum → val = loadVal mc.size sx (homeBytes s p n)))

/-- R206, R207, R209, R26: a store whose lanes meet no cause of R205, and that waits for no release, changes no register but the index
registers it names. A byte that lanes store to holds what the highest of them stored: in memory (of a station's store, where the line is
in no slice of a core's die), and in a scratchpad where no barrier object lies. A byte that no lane stores to reads as before, in memory
and, barrier objects that a store touches aside, in every scratchpad. -/
def Obligations.StoresWriteBytes : Prop :=
  ∀ (h : Hdr) (mc : MemCtl) (gen : Bool) (a b x : Opnd) (i : Instr) (iss : Iss) (s : State) (e : Env) (c : Ctx) (key : Nat),
    let n := sizeBytes mc.size
    let k := sizeRegs mc.size
    let f := storeForm gen true k a b x
    let rs := c.resolveLanes c.lanes (c.ea gen a b) n 1 noExtra
    let stored : Nat → Nat → Bool := fun bid off => (goodAccs rs).any fun q =>
      match q.2.2 with
      | .scr bd o => bd == bid && decide (o ≤ off) && decide (off < o + n)
      | .mem _ _ => false
    let near : Nat → Nat → Bool := fun bid off => match s.block? bid with
      | some B => B.objs.any fun o => decide (o ≤ off) && decide (off < o + 16)
      | none => false
    Issues i (if gen then .st h mc a b x else .sts h mc a b x) h iss →
    Runs f iss s e c → c.relHold (orderRel mc.order) mc.scope = none → firstBad rs [] = none → OneKey (goodAccs rs) key →
      ∃ t u, exec i s = .next t ∧ t.team? e.who.bid e.who.team = some u ∧ SameTeamAcc e u ∧
        u.v = e.team.v ∧ u.s = e.team.s ∧ (∀ q l, l < 1024 → u.getX q l = c.xAfter f.indexes q l) ∧
        (∀ ilv pa, let p := placeOf s ilv key pa
          (∀ q ∈ goodAccs rs, ∀ tr g, q.2.2 = .mem tr g → ¬ (g.loc ≤ p.loc ∧ p.loc < g.loc + n)) → memByte t p = memByte s p) ∧
        (∀ bid off, stored bid off = false → near bid off = false → scrByte t bid off = scrByte s bid off) ∧
        (∀ q ∈ goodAccs rs, ∀ bid off j, q.2.2 = .scr bid off → j < n → (s.block? bid).isSome → near bid (off + j) = false →
          (∀ q' ∈ goodAccs rs, q.1 < q'.1 → ∀ o', q'.2.2 = .scr bid o' → ¬ (o' ≤ off + j ∧ off + j < o' + n)) →
          scrByte t bid (off + j) = (leBytes n (c.rdN 2 x k q.1)).getD j 0) ∧
        (∀ q ∈ goodAccs rs, ∀ tr p j, q.2.2 = .mem tr p → j < n → p.loc % 128 + n ≤ 128 →
          (e.station = true → homeCopy? s p.line = none) →
          (∀ q' ∈ goodAccs rs, q.1 < q'.1 → ∀ tr' g, q'.2.2 = .mem tr' g → ¬ (g.loc ≤ p.loc + j ∧ p.loc + j < g.loc + n)) →
          memByte t { p with loc := p.loc + j } = (leBytes n (c.rdN 2 x k q.1)).getD j 0)

/-- R205, R251: a lane that meets a cause keeps a load or a store from having any effect: the cause of R205's order at its lowest lane is
taken as a trap, or, a translation that is missing, starts run-ahead. -/
def Obligations.AccessCausesAreTaken : Prop :=
  ∀ (h : Hdr) (mc : MemCtl) (sx gen : Bool) (d a b x : Opnd) (s : State) (e : Env) (c : Ctx) (cause ea l : Nat),
    let n := sizeBytes mc.size
    let k := sizeRegs mc.size
    let iss := issOf h
    let got : State := if cause = cXLATE then takeMiss e (w64 ea) l iss.ilen else takeTrap e cause (w64 ea) l iss.ilen
    (Runs (loadForm gen true .vec k d a b) iss s e c →
      firstBad (c.resolveLanes c.lanes (c.ea gen a b) n 0 (c.poisonAt n)) [] = some (cause, ea, l) →
      exec (if gen then .ld h mc sx d a b else .lds h mc sx d a b) s = .next got) ∧
    (Runs (storeForm gen true k a b x) iss s e c → c.relHold (orderRel mc.order) mc.scope = none →
      firstBad (c.resolveLanes c.lanes (c.ea gen a b) n 1 noExtra) [] = some (cause, ea, l) →
      exec (if gen then .st h mc a b x else .sts h mc a b x) s = .next got)

/-- R206, R211 to R215: an atomic of one lane on a scratchpad where no barrier object lies writes the operation's value there and, `RED`
aside, gives the register the value that was there; every other byte of every scratchpad and every byte of memory is as before. -/
def Obligations.ScratchpadAtomics : Prop :=
  ∀ (h : Hdr) (mc : MemCtl) (op : AtomOp) (d a b x : Opnd) (s : State) (e : Env) (c : Ctx) (l ea bid off : Nat) (B : Block),
    let n := sizeBytes mc.size
    let k := sizeRegs mc.size
    let old := numAt B.scratch off n
    let new := atomNew op (8 * n) old (c.rdN 2 x k l) (c.rdN 3 d k l)
    let one : Bool → Nat → Prop := fun gen need =>
      c.lanes = [l] ∧ c.ea gen a b l = ea ∧ c.relHold (orderRel mc.order) mc.scope = none ∧
      resolve s e.la.hdr e.blk e.la.ctx ea n need = .ok (.scr bid off) ∧ c.homePoison n (.scr bid off) = false ∧
      s.block? bid = some B ∧ (∀ o ∈ B.objs, ¬ (o < off + n ∧ off < o + 16))
    let stored : State → Prop := fun t => (∀ j, j < n → scrByte t bid (off + j) = (leBytes n new).getD j 0) ∧
      (∀ bd o, (bd ≠ bid ∨ o < off ∨ off + n ≤ o) → scrByte t bd o = scrByte s bd o) ∧ t.mem = s.mem ∧ t.lines = s.lines
    let loaded : State → Form → Prop := fun t f => ∃ u, t.team? e.who.bid e.who.team = some u ∧ SameTeamAcc e u ∧
      (∀ r j, j < 1024 → u.getV r j = c.vAfter d k (fun _ => old) r j) ∧ (∀ r, u.getS r = c.sAfter d k (fun _ => old) r) ∧
      (∀ q j, j < 1024 → u.getX q j = c.xAfter f.indexes q j)
    (Runs (atomForm op true true k d a b x) (issOf h) s e c → one true 2 →
      ∃ t, exec (.atom h mc op d a b x) s = .next t ∧ stored t ∧ loaded t (atomForm op true true k d a b x)) ∧
    (Runs (atomForm op false false k d a b x) (issOf h) s e c → one false 2 →
      ∃ t, exec (.atoms h mc op d a b x) s = .next t ∧ stored t ∧ loaded t (atomForm op false false k d a b x)) ∧
    (Runs (storeForm true true k a b x) (issOf h) s e c → one true 1 → op ≠ .cas →
      ∃ t u, exec (.red h mc op a b x) s = .next t ∧ stored t ∧ t.team? e.who.bid e.who.team = some u ∧
        u.v = e.team.v ∧ u.s = e.team.s ∧ u.k = e.team.k)

/-- R216, R219, R220, R231, R235: a fence that need not wait changes no register, and the ordered clock reads the meridian; where they
acquire, what the teams of a narrow scope wait for becomes the team's own; `WAITC` goes on where its counter is at or below the operand or
the operand is 255 or more; a release whose writes have not completed, and a `WAITC` whose counter is above, wait where they stand. R217, R218: prefetches and cache control move lines and levels and change no value: no register but the
index registers named, no byte of a scratchpad, and no byte of memory as its home holds it. -/
def Obligations.FencesCountersAndCacheHints : Prop :=
  (
    ∀ (h : Hdr) (ord : Order) (sc : Scope) (cls : Fin 8) (d a : Opnd) (i : Instr) (iss : Iss) (s : State) (e : Env) (c : Ctx),
      let ff : Form := ⟨[], [], .vec, none, .run, true, false⟩
      let fr : Form := ⟨[], [fD d 2], if opIsS d then .scalar else .vec, none, .run, false, false⟩
      let fw := teamForm [fA a 1] [] .ends true false
      let n := (c.uni 0 a).toNat
      let acquires : Instr → Form → Opnd → Nat → (Nat → Nat) → Prop := fun i f d n val =>
        ∃ t u, exec i s = .next t ∧ OnlyTeam e s t u ∧ Noted f e c d n val u ∧ Acquired s e sc u
      (Runs ff (issOf h) s e c →
        (c.relHold (orderRel ord) sc = none →
          (orderAcq ord = false → Writes (.fence h ord sc) ff s e c .zero 0 (fun _ => 0)) ∧
          (orderAcq ord = true → acquires (.fence h ord sc) ff .zero 0 (fun _ => 0))) ∧
        (∀ w, c.relHold (orderRel ord) sc = some w → exec (.fence h ord sc) s = .next (holdAs w e.who s))) ∧
      (Runs fr (issOf h) s e c → c.relHold (orderRel ord) sc = none →
        (orderAcq ord = false → Writes (.rdc h ord sc d) fr s e c d 2 (fun _ => s.time)) ∧
        (orderAcq ord = true → acquires (.rdc h ord sc d) fr d 2 (fun _ => s.time))) ∧
      (Issues i (.waitc h cls a) h iss → Runs fw iss s e c →
        (e.team.count cls.val ≤ n ∨ 255 ≤ n → Writes i fw s e c .zero 0 (fun _ => 0)) ∧
        (n < e.team.count cls.val → n < 255 → exec i s = .next (holdAs (.waitc cls.val n) e.who s)))) ∧
  (
    ∀ (h : Hdr) (l2 : Bool) (ca : Cache) (op : CctlOp) (a b : Opnd) (s : State) (e : Env) (c : Ctx) (key : Nat) (i : Instr),
      let f : Form := ⟨[fA a 2, fB b 1], [], .vec, none, .run, false, false⟩
      i = .pref h l2 ca a b ∨ i = .cctl h op a b → Runs f (issOf h) s e c → (∀ q ∈ c.reachable a b, q.2.2.key = key) →
        ∃ t u, exec i s = .next t ∧ t.team? e.who.bid e.who.team = some u ∧ u.v = e.team.v ∧ u.s = e.team.s ∧ u.k = e.team.k ∧
          (∀ q l, l < 1024 → u.getX q l = c.xAfter f.indexes q l) ∧ SameScratch s t ∧ SameMemory s t key)

/-- R221, R222, R24 to R26: INIT writes an object of a count, a mark and epoch 0; an arrival and an expectation update it and test it at once,
ARRIVE giving the epoch before; no other register changes, and the other bytes of the scratchpads are as before. R25, R221, R222: WAIT
goes on after itself where the epoch operand has been passed and waits at its instruction where not, to go on after it; TEST writes
whether it has been passed; neither changes an object, and where it has been passed both acquire at the object's scope. -/
def Obligations.BarrierObjects : Prop :=
  (
    ∀ (h : Hdr) (g : Bool) (d a b x : Opnd) (s : State) (e : Env) (c : Ctx) (bid off : Nat) (B : Block),
      let form : List Field → List Field → Form := fun srcs dsts => abarForm g a srcs dsts .own
      let at_ : Prop := e.objAt (c.objAddr g a) = .ok (bid, off) ∧ s.block? bid = some B
      let becomes : State → BarObj → Prop := fun t o =>
        (∃ B', t.block? bid = some B' ∧ getObj B' off = o) ∧
        (∀ bd i, (bd ≠ bid ∨ i < off ∨ off + 16 ≤ i) → scrByte t bd i = scrByte s bd i) ∧ t.mem = s.mem ∧ t.lines = s.lines
      let regs : State → List Field → List Field → Opnd → Nat → Nat → Prop := fun t srcs dsts d n v => ∃ u,
        t.team? e.who.bid e.who.team = some u ∧ Wrote (form srcs dsts) e c d n (fun _ => v) u
      (Runs (form [fB b 1, fC x 1] []) (issOf h) s e c → at_ →
        0 < (c.uni 1 b).toNat → (c.uni 1 b).toNat < 2 ^ 23 → (c.uni 2 x).toNat < 2 ^ 9 →
        ∃ t, exec (.abarInit h g a b x) s = .next t ∧ regs t [fB b 1, fC x 1] [] .zero 0 0 ∧
          becomes t ⟨0, 0, (c.uni 2 x).toNat, (c.uni 1 b).toNat, 0, (c.uni 1 b).toNat⟩) ∧
      (Runs (form [] [fD d 1]) (issOf h) s e c → at_ →
        ∃ t, exec (.abarArrive h g d a) s = .next t ∧ regs t [] [fD d 1] d 1 (getObj B off).epoch ∧
          becomes t (tested { getObj B off with opn := ((getObj B off).opn + 2 ^ 23 - 1) % 2 ^ 23 })) ∧
      (Runs (form [fB b 1] []) (issOf h) s e c → at_ →
        ∃ t, exec (.abarExpect h g a b) s = .next t ∧ regs t [fB b 1] [] .zero 0 0 ∧
          becomes t (tested { getObj B off with owed := ((getObj B off).owed + (c.uni 1 b).toNat) % 2 ^ 32 }))) ∧
  (
    ∀ (h : Hdr) (g : Bool) (d a b : Opnd) (i : Instr) (iss : Iss) (s : State) (e : Env) (c : Ctx) (bid off : Nat) (B : Block),
      let fw := abarForm g a [fB b 1] [] .ends
      let ft := abarForm g a [fB b 1] [fD d 1] .own
      let ep := (getObj B off).epoch
      let want := c.uni 1 b
      let passed : Bool := decide (1 ≤ (ep + 2 ^ 32 - want.toNat) % 2 ^ 32 ∧ (ep + 2 ^ 32 - want.toNat) % 2 ^ 32 < 2 ^ 31)
      e.objAt (c.objAddr g a) = .ok (bid, off) → s.block? bid = some B →
      (Issues i (.abarWait h g a b) h iss → Runs fw iss s e c → passed = true →
        ∃ t u, exec i s = .next t ∧ OnlyTeam e s t u ∧ Noted fw e c .zero 0 (fun _ => 0) u ∧ Acquired s e (objScope g) u ∧
          (Lone e → ∃ r, u.records = [r] ∧ r.k0 = e.rcd.k0 ∧ r.pc = e.rcd.pc + w64 c.iss.len ∧ r.wait = .ready)) ∧
      (Issues i (.abarWait h g a b) h iss → Runs fw iss s e c → passed = false → Lone e → ∃ t u r, exec i s = .next t ∧ OnlyTeam e s t u ∧
        OnlyRecord fw e c u r ∧ r.k0 = e.rcd.k0 ∧ r.pc = e.rcd.pc ∧
        r.wait = .abar (w64 (c.objAddr g a)) want (e.rcd.pc + w64 c.iss.len)) ∧
      (Runs ft (issOf h) s e c →
        (passed = false → Writes (.abarTest h g d a b) ft s e c d 1 (fun _ => 0)) ∧
        (passed = true → ∃ t u, exec (.abarTest h g d a b) s = .next t ∧ OnlyTeam e s t u ∧
          Noted ft e c d 1 (fun _ => 1) u ∧ Acquired s e (objScope g) u)))

/-- R223, R224: a team arrives at `BAR` when its one sub-team issues it; while the phase's count is not met, a team that waits stands at the
barrier and one that only arrives goes on; the arrival that meets the count completes the phase and sends every sub-team that waits there
on. R226: at `GBAR`, a release at device scope, a team's arrival is noted and its sub-team waits while another team of the launch is to
come; the last arrival completes the phase and sends it on. -/
def Obligations.BlockAndLaunchBarriers : Prop :=
  (
    ∀ (h : Hdr) (wait : Bool) (a b : Opnd) (i : Instr) (iss : Iss) (s : State) (e : Env) (c : Ctx),
      let f := teamForm [fA a 1, fB b 1] [] .ends true false
      let id := (c.uni 0 a).toNat
      let n := (c.uni 1 b).toNat
      let st := barOf e.blk id
      let most := if e.station then e.blk.teams.length else e.la.hdr.ext 1
      let cnt : Option Nat := if st.arrived = [] then (if opIsZero b then none else some n) else st.expect
      let need := cnt.getD e.blk.unexited
      Issues i (if wait then .bar h a b else .barArrive h a b) h iss →
      Runs f iss s e c → Lone e → id ≤ 15 → (opIsZero b = true ∨ 0 < n ∧ n ≤ most) → st.arrived.contains e.who.team = false →
        (∀ t ∈ e.blk.teams, ∀ p ∈ t.barIssued, p.1 ≠ id) →
        ∃ t B, exec i s = .next t ∧ t.block? e.who.bid = some B ∧ B.scratch = e.blk.scratch ∧ SameOutside s t ∧
          (st.arrived.length + 1 < need → (barOf B id).arrived = st.arrived ++ [e.who.team] ∧ (barOf B id).phase = st.phase ∧
            ∃ u r, B.team? e.who.team = some u ∧ u.records = [r] ∧ r.k0 = e.rcd.k0 ∧
              (wait = true → r.pc = e.rcd.pc ∧ r.wait = .bar id (e.rcd.pc + w64 c.iss.len)) ∧
              (wait = false → r.pc = e.rcd.pc + w64 c.iss.len ∧ r.wait = .ready)) ∧
          (need ≤ st.arrived.length + 1 → (barOf B id).arrived = [] ∧ (barOf B id).phase = !st.phase ∧
            (∀ u ∈ B.teams, ∀ r ∈ u.records, ∀ nx, r.wait ≠ .bar id nx) ∧
            ∃ u r, B.team? e.who.team = some u ∧ u.records = [r] ∧ r.k0 = e.rcd.k0 ∧
              r.pc = e.rcd.pc + w64 c.iss.len ∧ r.wait = .ready)) ∧
  (
    ∀ (h : Hdr) (a : Opnd) (s : State) (e : Env) (c : Ctx),
      let f := teamForm [fA a 1] [] .ends false false
      let id := (c.uni 0 a).toNat
      let me := (e.blk.idx, e.who.team)
      let st := gbarOf e.la id
      let here : Nat × Nat → Prop := fun p => p = me ∨ p ∈ st.arrived
      let all : Prop := ∀ b ∈ s.blocksOf e.la.q e.la.lseq, ∀ t ∈ b.teams, t.live ≠ 0 → here (b.idx, t.idx)
      Runs f (issOf h) s e c → Lone e → id ≤ 3 → e.la.hdr.cores = true → me ∉ st.arrived →
        c.relHold true .dev = none → e.station = false → (∀ b ∈ s.blocks, b.bid = e.who.bid → b = e.blk) → (∀ b ∈ s.blocks, ∀ t ∈ b.teams, ∀ p ∈ t.gbarIssued, p.1 ≠ id) →
        ∃ t la u r, exec (.gbar h a) s = .next t ∧ t.launch? e.la.q e.la.lseq = some la ∧
          t.team? e.who.bid e.who.team = some u ∧ u.records = [r] ∧ r.k0 = e.rcd.k0 ∧
          t.mem = s.mem ∧ SameScratch s t ∧
          (¬ all → me ∈ (gbarOf la id).arrived ∧ (gbarOf la id).phase = st.phase ∧ r.pc = e.rcd.pc ∧
            r.wait = .gbar id (e.rcd.pc + w64 c.iss.len)) ∧
          (all → (gbarOf la id).arrived = [] ∧ (gbarOf la id).phase = !st.phase ∧ r.pc = e.rcd.pc + w64 c.iss.len ∧
            r.wait = .ready))

/-- R119, R120, R150: a branch that every lane takes moves its sub-team to the target; one that some lanes take splits it, the lanes that take
part keeping the record at the target and the others going on after the branch in a record of their own, both under one new split entry. -/
def Obligations.BranchesMoveAndSplit : Prop :=
  ∀ (h : Hdr) (off : BitVec 16) (i : Instr) (iss : Iss) (s : State) (e : Env) (c : Ctx),
    let tgt := c.target off
    let next := e.rcd.pc + w64 c.iss.len
    Issues i (.bra h off) h iss → Runs (branchForm [] []) iss s e c → Lone e → isStart s e.blk e.la tgt.toNat = true →
      ∃ t u, exec i s = .next t ∧ OnlyTeam e s t u ∧ u.v = e.team.v ∧ u.s = e.team.s ∧ u.k = e.team.k ∧
        (c.m = e.rcd.k0 → u.splits = e.team.splits ∧ ∃ r, u.records = [r] ∧ r.num = e.rcd.num ∧ r.pc = tgt ∧ r.k0 = e.rcd.k0 ∧
          r.parent = e.rcd.parent ∧ r.yielded = decide (tgt.toNat ≤ e.rcd.pc.toNat)) ∧
        (c.m ≠ e.rcd.k0 → e.rcd.k0 &&& ~~~c.m ≠ 0 → tgt ≠ next → ∃ sp a b,
          u.splits = e.team.splits ++ [⟨sp, e.rcd.parent, 2⟩] ∧ (u.records = [a, b] ∨ u.records = [b, a]) ∧
          a.num = e.rcd.num ∧ a.pc = tgt ∧ a.k0 = c.m ∧ a.parent = sp ∧
          b.num ≠ e.rcd.num ∧ b.pc = next ∧ b.k0 = e.rcd.k0 &&& ~~~c.m ∧ b.parent = sp)

/-- R119, R140 to R142, R150: an indirect branch, a call and a return whose lanes agree move the sub-team whole: to the address read, a call
writing the address after it as its link, a return giving back the registers that its link word counts, on a station none (R164). -/
def Obligations.CallsAndReturns : Prop :=
  ∀ (h : Hdr) (off : BitVec 16) (d a : Opnd) (v : W64) (i : Instr) (iss : Iss) (s : State) (e : Env) (c : Ctx),
    let next := e.rcd.pc + w64 c.iss.len
    let fits : W64 → Prop := fun t => entryBudget s e.blk e.la t.toNat = none ∨
      ∃ b, entryBudget s e.blk e.la t.toNat = some b ∧ b % 8 = 0 ∧ b ≤ (if e.station then 64 else e.la.hdr.ceiling) ∧ b ≤ e.rcd.alloc
    let moved : Instr → W64 → Nat → Prop := fun i pc alloc => ∃ t u r, exec i s = .next t ∧ OnlyTeam e s t u ∧
      u.records = [r] ∧ r.pc = pc ∧ r.alloc = alloc ∧ u.s = e.team.s ∧ u.k = e.team.k ∧ u.splits = e.team.splits
    let linked : Instr → W64 → Prop := fun i pc => ∃ t u r, exec i s = .next t ∧ OnlyTeam e s t u ∧
      u.records = [r] ∧ r.pc = pc ∧ r.alloc = e.rcd.alloc ∧ u.k = e.team.k ∧
      ∀ q l, l < 1024 → u.getV q l = c.vAfter d 2 (fun _ => next.toNat % 2 ^ 56) q l
    let agree : Prop := ∀ l ∈ c.lanes, c.rd64 0 a false l = v
    let rel := if e.station then 0 else 8 * (v.toNat / 2 ^ 56)
    Lone e → c.m = e.rcd.k0 → c.lanes ≠ [] →
    (Runs (branchForm [fA a 2] []) (issOf h) s e c → agree → v.toNat < 2 ^ 56 → isStart s e.blk e.la v.toNat = true →
      e.rcd.k0 = maskOf c.lanes → moved (.brx h a) v e.rcd.alloc) ∧
    (Runs (branchForm [] [fD d 2]) (issOf h) s e c → opIsS d = false → isStart s e.blk e.la (c.target off).toNat = true →
      fits (c.target off) → linked (.call h d off) (c.target off)) ∧
    (Runs (branchForm [fA a 2] [fD d 2]) (issOf h) s e c → opIsS d = false → agree → v.toNat < 2 ^ 56 →
      isStart s e.blk e.la v.toNat = true → fits v → e.rcd.k0 = maskOf c.lanes → linked (.calli h d a) v) ∧
    (Issues i (.ret h a) h iss → Runs (branchForm [fA a 2] []) iss s e c → agree → v.toNat < 2 ^ 61 →
      isStart s e.blk e.la (v.toNat % 2 ^ 56) = true → v.toNat / 2 ^ 56 ≤ 22 → rel ≤ e.rcd.alloc →
      releaseBusy e.team e.rcd.k0 (e.rcd.alloc - rel) e.rcd.alloc = false → e.rcd.k0 = maskOf c.lanes →
      moved i (w64 (v.toNat % 2 ^ 56)) (e.rcd.alloc - rel))

/-- R129, R152: `YIELD` and `PAUSE` of no time mark the sub-team and let the other ready ones issue, for at most 64 cycles; `PAUSE` waits its
nanoseconds, at most 1,048,575. R122, R151: `EXIT` ends the lanes that take part: what is left of the team holds only the other lanes.
R124, R122, R123: the last child of a split entry to issue `JOIN` ends the wait of the others: both fuse into one sub-team after the
`JOIN`, under the entry's own parent, and the entry goes; at the root a `JOIN` does nothing; a first child waits there. -/
def Obligations.YieldExitAndJoin : Prop :=
  (
    ∀ (h : Hdr) (a : Opnd) (j : Instr) (iss : Iss) (s : State) (e : Env) (c : Ctx),
      let fp := ctlForm [fA a 1] [] .ends true
      let yields : Instr → Form → Prop := fun i f => ∃ t u r, exec i s = .next t ∧ OnlyTeam e s t u ∧ OnlyRecord f e c u r ∧
        r.pc = e.rcd.pc + w64 c.iss.len ∧ r.k0 = e.rcd.k0 ∧ r.yielded = true ∧
        r.wait = .yield (s.time + cyclesNs s e.blk 64) (yieldOthers e)
      let n := (c.uni 0 a).toNat
      Lone e →
      (Issues j (.yield h) h iss → Runs (ctlForm [] [] .ends true) iss s e c → yields j (ctlForm [] [] .ends true)) ∧
      (Runs fp (issOf h) s e c →
        (n = 0 → yields (.pause h a) fp) ∧
        (n ≠ 0 → ∃ t u r, exec (.pause h a) s = .next t ∧ OnlyTeam e s t u ∧ OnlyRecord fp e c u r ∧
          r.pc = e.rcd.pc + w64 c.iss.len ∧ r.k0 = e.rcd.k0 ∧ r.wait = .pause (s.time + min n 1048575)))) ∧
  (
    ∀ (h : Hdr) (i : Instr) (iss : Iss) (s : State) (e : Env) (c : Ctx),
      Issues i (.exit h) h iss → Runs (ctlForm [] [] .ends true) iss s e c → Lone e →
      ∃ t, exec i s = .next t ∧ ∀ u, t.team? e.who.bid e.who.team = some u →
        u.v = e.team.v ∧ ∀ r ∈ u.records, r.k0 = e.rcd.k0 &&& ~~~c.m ∧ r.k0 ≠ 0) ∧
  (
    ∀ (h : Hdr) (s : State) (e : Env) (c : Ctx) (b : Record) (sp : Split),
      Runs (ctlForm [] [] .ends true) (issOf h) s e c → h.lit = none →
      (Lone e → e.rcd.parent = Config.root → Writes (.join h) (ctlForm [] [] .ends true) s e c .zero 0 (fun _ => 0)) ∧
      (e.team.records = [e.rcd, b] ∨ e.team.records = [b, e.rcd] → e.team.splits = [sp] → e.rcd.held = none → b.held = none →
        e.rcd.parent = sp.entry → b.parent = sp.entry → sp.arms = 2 → sp.parent ≠ sp.entry → sp.entry ≠ Config.root →
        b.num ≠ e.rcd.num → b.alloc = e.rcd.alloc →
        (b.wait = .join sp.entry → b.pc = e.rcd.pc →
          ∃ t u r, exec (.join h) s = .next t ∧ OnlyTeam e s t u ∧ u.splits = [] ∧ u.records = [r] ∧
            r.k0 = e.rcd.k0 ||| b.k0 ∧ r.pc = e.rcd.pc + 8 ∧ r.wait = .ready ∧ r.parent = sp.parent) ∧
        (b.wait = .ready → b.pc ≠ e.rcd.pc →
          ∃ t u r, exec (.join h) s = .next t ∧ OnlyTeam e s t u ∧ u.splits = [sp] ∧ u.rec? e.rcd.num = some r ∧
            r.k0 = e.rcd.k0 ∧ r.pc = e.rcd.pc ∧ r.wait = .join sp.entry)))

/-- R136, R137, R154 to R156: a `CLAIM` that the pool can meet behind no other raises the allocation, the new registers 0 in the live lanes;
one that it cannot waits in the core's queue; a `RELEASE` of registers that are ready lowers the allocation, and the registers return to
the pool. -/
def Obligations.ClaimsAndReleases : Prop :=
  ∀ (h : Hdr) (a : Opnd) (cnt : BitVec 6) (s : State) (e : Env) (c : Ctx),
    let f := teamForm [fA a 1] [] .ends false false
    let n := if a = .zero then 8 * cnt.toNat else (c.uni 0 a).toNat
    let lanes := countLanes e.rcd.k0 e.team.lanes
    let core := e.blk.coreNum
    Runs f (issOf h) s e c → Lone e → e.station = false → n % 8 = 0 → 0 < n →
    (e.rcd.alloc + n ≤ e.la.hdr.ceiling → (∀ k ∈ s.claims, k.core ≠ core) → n * lanes ≤ poolFree s core →
      ∃ t u r, exec (.claim h a cnt) s = .next t ∧ OnlyTeam e s t u ∧ u.records = [r] ∧ r.alloc = e.rcd.alloc + n ∧
        r.pc = e.rcd.pc + w64 c.iss.len ∧ r.k0 = e.rcd.k0 ∧ u.drawn = e.team.drawn + n * lanes ∧ u.s = e.team.s ∧
        (∀ q l, l < 1024 → u.getV q l =
          if e.rcd.alloc ≤ q ∧ q < e.rcd.alloc + n ∧ l ∈ maskLanes e.rcd.k0 e.team.lanes then 0 else e.team.getV q l)) ∧
    (e.rcd.alloc + n ≤ e.la.hdr.ceiling → poolFree s core < n * lanes →
      ∃ t u r, exec (.claim h a cnt) s = .next t ∧ t.team? e.who.bid e.who.team = some u ∧ u.records = [r] ∧
        r.pc = e.rcd.pc ∧ r.wait = .claim n false (e.rcd.pc + w64 c.iss.len) ∧
        t.claims = s.claims ++ [⟨core, e.who, n, n * lanes, e.rcd.pc + w64 c.iss.len, s.time⟩]) ∧
    (n ≤ e.rcd.alloc → releaseBusy e.team e.rcd.k0 (e.rcd.alloc - n) e.rcd.alloc = false →
      ∃ t u r, exec (.release h a cnt) s = .next t ∧ OnlyTeam e s t u ∧ u.records = [r] ∧ r.alloc = e.rcd.alloc - n ∧
        r.pc = e.rcd.pc + w64 c.iss.len ∧ r.k0 = e.rcd.k0 ∧ u.drawn = e.team.drawn - n * lanes ∧ u.s = e.team.s ∧
        (∀ q l, q < e.rcd.alloc - n → l < 1024 → u.getV q l = e.team.getV q l))

/-- R133, R157: `XSET` writes the whole register, its index, or its index plus a value mod 256; `XGET` reads it. -/
def Obligations.IndexRegisters : Prop :=
  ∀ (h : Hdr) (md : XsetMode) (xn : Fin 8) (d a : Opnd) (s : State) (e : Env) (c : Ctx),
    let fs : Form := ⟨fA a 1 :: (if md = .all then [] else [.idx 3 xn.val]), [.idx 3 xn.val], .vec, some 4, .run, false, false⟩
    let fg : Form := ⟨[.idx 0 xn.val], [fD d 1], .vec, some 4, .run, false, false⟩
    (Runs fs (issOf h) s e c → ∃ t u, exec (.xset h md xn a) s = .next t ∧ OnlyTeam e s t u ∧
      u.v = e.team.v ∧ u.s = e.team.s ∧ u.k = e.team.k ∧
      ∀ q l, l < 1024 →
        let y : W32 := if q = xn.val ∧ l ∈ c.lanes then
          (let x := c.xval q l
           let v := c.rd 0 a l
           match md with
           | .all => v
           | .idx => (x &&& 0xFF00FFFF) ||| ((v &&& 0xFF) <<< 16)
           | .add => (x &&& 0xFF00FFFF) ||| ((((x >>> 16) + v) &&& 0xFF) <<< 16))
        else e.team.getX q l
        u.getX q l = if q ∈ fs.indexes ∧ l ∈ c.lanes then xWithIndex y ((xIndex y + xStep y) % 256) else y) ∧
    (Runs fg (issOf h) s e c → Writes (.xget h d xn) fg s e c d 1 (fun l => (c.xval xn.val l).toNat))

/-- R145, R148, R160: `SRD` writes a special register in full, or the half named; its lanes' own, its sub-team's, team's, launch's, context's,
core's or the module's. R145, R146, R160, R161: `SWR` writes the team's register, reserved bits 0; `SWRP` the launch's lease of 50 to
10,000 ns; `OVLD` the context's overflow table, where it is legal; another value traps with ILLOP. -/
def Obligations.SpecialRegisters : Prop :=
  (
    ∀ (h : Hdr) (half : Half) (d : Opnd) (num : BitVec 8) (g : SReg) (s : State) (e : Env) (c : Ctx),
      let n := num.toNat
      let k := if g.wide ∧ half = .full then 2 else 1
      let f : Form := ⟨[], [fD d k], if opIsS d then .scalar else .vec, none, .run,
        decide (n ≤ 9 ∨ n = 0x0C ∨ n = 0x0E), decide (n = 0x0D ∨ n = 0x40)⟩
      let t := e.team
      let wid : Nat → Nat := fun l => (t.wid0 + w64 l).toNat
      let val : Nat → Nat := fun l =>
        if n = 0x00 then l
        else if n = 0x01 then wid l
        else if n ≤ 0x07 then wid l / 2 ^ (e.widths.take (n - 2)).sum % 2 ^ e.widths.getD (n - 2) 0
        else if n = 0x08 then s.time
        else if n = 0x09 then e.rcd.alloc
        else if n = 0x0A then e.la.hdr.ceiling
        else if n = 0x0B then 196608 - ((coreTeams s e.blk.coreNum).map Team.drawn).sum
        else if n = 0x0C then t.mode.toNat
        else if n = 0x0D then t.prio.toNat
        else if n = 0x0E then 64 * e.rcd.parent + t.records.length
        else if n = 0x0F then coreId e.blk.coreNum
        else if n = 0x10 then t.trapc.toNat
        else if n = 0x11 then t.trapa.toNat
        else if n = 0x12 then t.trappc.toNat
        else if n = 0x13 then t.trapst.toNat
        else if n = 0x14 then ((List.range 6).map fun i => 256 ^ i * t.count i).sum
        else if n = 0x18 then t.vs.toNat
        else if n = 0x19 then t.bstat.toNat
        else if n = 0x1A then t.gmiss.toNat
        else if n = 0x40 then e.la.lease
        else if n = 0x41 then (ovtab s e.la.ctx).toNat
        else e.la.ctx
      sreg n = some g → Runs f (issOf h) s e c →
        Writes (.srd h half d num) f s e c d k (fun l =>
          match half with
          | .full => val l
          | .lo => val l % 2 ^ 32
          | .hi => val l / 2 ^ 32)) ∧
  (
    ∀ (h : Hdr) (a : Opnd) (s : State) (e : Env) (c : Ctx),
      let v := c.uni 0 a
      let x := c.uni64 0 a
      let f : Nat → Bool → Bool → Form := fun k sta prv => teamForm [fA a k] [] .ends sta prv
      let low := e.low c.m
      let becomes : Instr → Team → Prop := fun i u' => ∃ t u, exec i s = .next t ∧ OnlyTeam e s t u ∧
        u = { u' with records := u.records, splits := u.splits }
      let b := e.team.bstat
      (∀ q, a ≠ .x q) →
      (Runs (f 1 true false) (issOf h) s e c → becomes (.swr h .full 0x0C a) { e.team with mode := v &&& 1 }) ∧
      (Runs (f 1 false true) (issOf h) s e c → becomes (.swr h .full 0x0D a) { e.team with prio := v &&& 0x3F }) ∧
      (Runs (f 1 false false) (issOf h) s e c → becomes (.swr h .full 0x1A a) { e.team with gmiss := v }) ∧
      (Runs (f 2 false false) (issOf h) s e c → becomes (.swr h .full 0x19 a) { e.team with bstat := x &&& ~~~(w64 (2 ^ 51)) }) ∧
      (Runs (f 1 false false) (issOf h) s e c →
        becomes (.swr h .lo 0x19 a) { e.team with bstat := ((b.toNat / 2 ^ 32 * 2 ^ 32 + v.toNat : Nat) : W64) &&& ~~~(w64 (2 ^ 51)) } ∧
        becomes (.swr h .hi 0x19 a)
          { e.team with bstat := ((v.toNat * 2 ^ 32 + b.toNat % 2 ^ 32 : Nat) : W64) &&& ~~~(w64 (2 ^ 51)) }) ∧
      (Runs (f 1 false true) (issOf h) s e c →
        (50 ≤ v.toNat ∧ v.toNat ≤ 10000 → ∃ t la, exec (.swrp h 0x40 a) s = .next t ∧ t.launch? e.la.q e.la.lseq = some la ∧
          la = { e.la with lease := v.toNat } ∧ t.mem = s.mem ∧ t.ovtab = s.ovtab ∧
          ∀ l ∈ t.launches, ¬ (l.q = e.la.q ∧ l.lseq = e.la.lseq) → l ∈ s.launches) ∧
        (¬ (50 ≤ v.toNat ∧ v.toNat ≤ 10000) → exec (.swrp h 0x40 a) s = .next (takeTrap e cILLOP 0 low (issOf h).ilen)) ∧
        (v.toNat < 2 ^ 14 → (∀ i, i < 7 → v.toNat / 4 ^ i % 4 ≠ 3) → ∃ t, exec (.ovld h a) s = .next t ∧
          (∀ q, ovtab t q = if q = e.la.ctx then v else ovtab s q) ∧ t.launches = s.launches ∧ t.mem = s.mem) ∧
        (2 ^ 14 ≤ v.toNat ∨ (∃ i, i < 7 ∧ v.toNat / 4 ^ i % 4 = 3) →
          exec (.ovld h a) s = .next (takeTrap e cILLOP 0 low (issOf h).ilen))))

/-- R143, R144, R153, R258, R381: `TRAP` and `BRK` raise SWTRAP and BRKPT. In a launch with a handler the sub-team saves cause, data, address
and length, sets inh and goes to the handler; while another sub-team of its team is in it, it waits. Without a handler the launch stops
and every team of it halts; on a station the call ends. R162, R144, R163: `TRET` in the handler clears inh and goes on at `%trappc` or
after the instruction there, and sub-teams that waited for the handler become ready; outside it, ILLOP. `HALT` stops the launch with a
hold, reason 0x3F, its own address. -/
def Obligations.TrapsReturnAndHalt : Prop :=
  (
    ∀ (h : Hdr) (a : Opnd) (i : Instr) (f : Form) (cause : Nat) (data : W64) (s : State) (e : Env) (c : Ctx),
      (i = .trap h a ∧ f = ctlForm [fA a 1] [] .run true ∧ cause = 0x30 ∧ data = (c.uni 0 a).zeroExtend 64) ∨
        (i = .brk h ∧ f = ctlForm [] [] .run true ∧ cause = 0x31 ∧ data = 0) →
      Runs f (issOf h) s e c →
      (e.station = false → e.la.hdr.trap = true → e.team.inh = false →
        (∀ q ∈ e.team.records, q.num ≠ e.who.sub → q.pc ≠ e.la.hdr.handler) → ∃ t u, exec i s = .next t ∧ OnlyTeam e s t u ∧
        u.v = e.team.v ∧ u.s = e.team.s ∧ u.k = e.team.k ∧ u.x = e.team.x ∧ u.mode = e.team.mode ∧
        u.trapc = w32 cause ∧ u.trapa = data ∧ u.trappc = e.rcd.pc ∧ u.trapst = w32 (256 + (if h.lit.isSome then 2 else 1)) ∧
        ∃ r, u.rec? e.who.sub = some r ∧ r.pc = e.la.hdr.handler ∧ r.wait = .ready ∧ r.k0 = e.rcd.k0 ∧ r.alloc = e.rcd.alloc) ∧
      (e.station = false → e.la.hdr.trap = true → e.team.inh = true → e.rcd.k0 &&& e.team.hlanes = 0 →
        ∃ t u r, exec i s = .next t ∧ OnlyTeam e s t u ∧ u = { e.team with records := u.records } ∧
          u.rec? e.who.sub = some r ∧ r = { e.rcd with wait := .handler }) ∧
      (e.station = false → e.la.hdr.trap = false → e.la.stop = none → ∃ t la st, exec i s = .next t ∧
        t.launch? e.la.q e.la.lseq = some la ∧ la.state = .stopping ∧ la.stop = some st ∧
        st.cause = cause ∧ st.pc = e.rcd.pc ∧ st.trapa = data ∧ st.wid = e.team.wid0 + w64 (e.low c.m) ∧ st.reason = 0 ∧
        t.mem = s.mem ∧ ∀ B ∈ t.blocks, B.q = e.la.q → B.lseq = e.la.lseq → B.site.isStation = false → ∀ u ∈ B.teams, u.halted = true) ∧
      (e.station = true → ∃ t, exec i s = .next t ∧ t.block? e.blk.bid = none ∧ t.mem = s.mem ∧
        ∀ k ∈ s.calls, k.id = e.blk.idx → ∃ k' ∈ t.calls, k'.id = k.id ∧ k'.phase = .ended ∧ k'.rstat = 0x25 ∧ k'.cause = cause ∧
          k'.fpc = e.rcd.pc ∧ k'.trapa = data ∧ k'.flane = e.low c.m)) ∧
  (
    ∀ (h : Hdr) (skip : Bool) (s : State) (e : Env) (c : Ctx),
      (Runs (teamForm [] [] .ends false false) (issOf h) s e c →
        (e.team.trapst.getLsbD 8 = false → exec (.tret h skip) s = .next (takeTrap e cILLOP 0 (e.low c.m) (issOf h).ilen)) ∧
        (e.team.trapst.getLsbD 8 = true → ∃ t u, exec (.tret h skip) s = .next t ∧ OnlyTeam e s t u ∧
          u.v = e.team.v ∧ u.s = e.team.s ∧ u.k = e.team.k ∧ u.trapst = w32 (e.team.trapst.toNat % 4) ∧
          u.trappc = e.team.trappc ∧ u.trapc = e.team.trapc ∧ (∀ r ∈ u.records, r.wait ≠ .handler) ∧
          (e.team.records = [e.rcd] → ∃ r, u.records = [r] ∧ r.k0 = e.rcd.k0 ∧
            r.pc = if skip then e.team.trappc + (match e.team.trapst.toNat % 4 with | 0 => 4 | 2 => 12 | _ => 8)
              else e.team.trappc))) ∧
      (Runs (teamForm [] [] .ends false true) (issOf h) s e c → e.la.stop = none →
        ∃ t la st, exec (.halt h) s = .next t ∧ t.launch? e.la.q e.la.lseq = some la ∧ la.state = .stopping ∧
          la.stop = some st ∧ st.reason = 0x3F ∧ st.hold = true ∧ st.cause = 0 ∧ st.pc = e.rcd.pc ∧ t.mem = s.mem ∧
          ∀ B ∈ t.blocks, B.q = e.la.q → B.lseq = e.la.lseq → B.site.isStation = false → ∀ u ∈ B.teams, u.halted = true))

/-- R80, R81, R79, R90, R132, R133: the checks before an instruction's effect, in their order, on `IADD.s32`: a station's register limit, a
ready bit that is clear, the budget, an undersized source under `%mode.sbchk`, an index register out of bounds; and PRIV for a privileged
instruction of an unprivileged launch. Each takes its trap, or waits, with no effect. -/
def Obligations.ChecksBeforeEffect : Prop :=
  ∀ (h : Hdr) (m : Mods) (d r : Fin 176) (q : Fin 8) (b : Opnd) (i : Instr) (s : State) (e : Env) (l : Nat),
    let iss := issOf h
    let add : Instr := .iadd h .s32 false m (.v d) (.v r) .zero
    let addx : Instr := .iadd h .s32 false m (.v d) (.x q) .zero
    let f := arithForm [fA (.v r) 1, fB .zero 1] (.v d) 1 4
    let low := e.low (passMask e f iss)
    let late := liveWords (passMask e f iss) e.pw e.team.lanes
    getEnv s = some e → e.probing = false →
    let trap : Nat → W64 → Nat → State := fun cause v l => takeTrap e cause v l iss.ilen
    (e.station = true → 64 ≤ d.val ∨ 64 ≤ r.val → exec add s = .next (trap cILLOP 0 low)) ∧
    (e.station = false → RegKey.v d.val ∈ e.team.unready ∨ RegKey.v r.val ∈ e.team.unready →
      exec add s = .next (holdAs .register e.who s)) ∧
    (e.station = false → e.team.unready = [] → e.team.locks = [] →
      (e.rcd.alloc ≤ r.val → exec add s = .next (trap cBUDGET (w64 r.val) low)) ∧
      (r.val < e.rcd.alloc → e.rcd.alloc ≤ d.val → exec add s = .next (trap cBUDGET (w64 d.val) low)) ∧
      (r.val < e.rcd.alloc → d.val < e.rcd.alloc → e.team.mode.getLsbD 0 = true →
        (∃ k w, late[k]? = some w ∧ lateAt e.rcd (.v r.val) w (e.rcd.etime + k) = true) → exec add s = .next (trap cSTALLX (w64 r.val) low)) ∧
      (d.val < e.rcd.alloc → e.rcd.pend = [] → l ∈ maskLanes (execMask e iss) e.team.lanes →
        (∀ j ∈ maskLanes (execMask e iss) e.team.lanes, j < l → idxBad e.rcd.alloc 1 (e.team.getX q.val j) = false) →
        (let x := e.team.getX q.val l
         let base := x.toNat % 2 ^ 8
         let bound := x.toNat / 2 ^ 8 % 2 ^ 8
         bound ≤ x.toNat / 2 ^ 16 % 2 ^ 8 ∨ e.rcd.alloc < base + bound) →
        exec addx s = .next (trap cIDXB (w64 q.val) l)) ∧
      (e.la.priv = false → i = .swrp h 0x40 b ∨ i = .ovld h b ∨ i = .halt h ∨ i = .swr h .full 0x0D b →
        exec i s = .next (trap cPRIV 0 (e.low (execMask e iss)))))

/-- R77, R76: an instruction of w passes moves the encoded time on by w − 1 and its stall count, at least 1; its result is available, word by
word, from the encoded time of the word's pass plus L on. -/
def Obligations.EncodedSchedule : Prop :=
  ∀ (h : Hdr) (m : Mods) (op : TreeOp) (d : Fin 176) (a b : Opnd) (i : Instr) (f : Form) (L : Nat) (s : State) (e : Env) (c : Ctx),
    (i = .iadd h .s32 false m (.v d) a b ∧ L = 4 ∧ f = arithForm [fA a 1, fB b 1] (.v d) 1 L) ∨
      (i = .imul h .s32 false m (.v d) a b ∧ L = 6 ∧ f = arithForm [fA a 1, fB b 1] (.v d) 1 L) ∨
      (i = .frcp h .rne m (.v d) a ∧ L = 12 ∧ f = arithForm [fA a 1] (.v d) 1 L) ∨
      (i = .tred h op (.v d) a ∧ op ≠ .iadd64 ∧ L = 8 ∧ f = crossForm [fA a 1] (.v d) 1) →
    Runs f (issOf h) s e c → Lone e →
    let ws := liveWords c.m e.pw e.team.lanes
    ∃ t u r pend, exec i s = .next t ∧ OnlyTeam e s t u ∧ u.records = [r] ∧ Issued e c ws.length pend r ∧
      ∀ k w τ, ws[k]? = some w → r.etime ≤ τ → lateAt r (.v d.val) w τ = decide (τ < e.rcd.etime + k + L)

/-- R273, R17, R278 to R289: a copy whose checks pass, with fewer than 16 of its block in the engine and its counter below 255, enters the
engine with its descriptor as it stands, and nothing else of the block changes, a buffer that it reserves in aside. -/
def Obligations.CopiesEnterTheEngine : Prop :=
  ∀ (h : Hdr) (g : Bool) (a b x : Opnd) (i : Instr) (f : Form) (kind : CopyKind) (desc : Memory) (ranks : W64)
    (bad : Option (Nat × W64)) (bar : Option Nat) (s : State) (e : Env) (c : Ctx),
    let off := (c.uni 0 a).toNat
    let n := (c.uni 1 b).toNat
    let opBar := if x = .zero then none else some (if g then (c.uni64 2 x).toNat else (localAddr (c.uni 2 x).toNat).toNat)
    let ownBar := if x = .zero then none else some (c.uni 2 x).toNat
    (i = .tcopy h g a x ∧ kind = .tcopy ∧ f = copyForm g a x ∧ desc = e.blk.copyOut off 128 ∧ ranks = 0 ∧ bar = opBar ∧
        bad = tcopyCheck e off bar) ∨
      (i = .tgath h g a x ∧ kind = .tgath ∧ f = copyForm g a x ∧ desc = e.blk.copyOut off 64 ∧ ranks = 0 ∧ bar = opBar ∧
        bad = gatherCheck e off false bar) ∨
      (i = .tscat h g a x ∧ kind = .tscat ∧ f = copyForm g a x ∧ desc = e.blk.copyOut off 64 ∧ ranks = 0 ∧ bar = opBar ∧
        bad = gatherCheck e off true bar) ∨
      (i = .tmcst h a b x ∧ kind = .tmcst ∧ f = ctlForm [fA a 1, fB b 2, fC x 1] [] .zero false ∧
        desc = e.blk.copyOut off 128 ∧ ranks = c.uni64 1 b ∧ bar = ownBar ∧ bad = tmcstCheck e off (c.uni64 1 b) bar) ∨
      (i = .tfill h a b x ∧ kind = .tfill ∧ f = ctlForm [fA a 1, fB b 1, fC x 1] [] .zero false ∧
        desc = setBytes [] 0 (leBytes 4 off ++ leBytes 4 n ++ leBytes 4 (c.uni 2 x).toNat) ∧ ranks = 0 ∧ bar = none ∧
        bad = tfillCheck e.blk off n) →
    Runs f (issOf h) s e c →
    (∀ k tr, bad = some (k, tr) → exec i s = .next (takeTrap e k tr (e.low c.m) (issOf h).ilen)) ∧
    (bad = none → 16 ≤ e.blk.copies.length ∨ 255 ≤ e.team.count 0 → exec i s = .next (holdAs .limit e.who s)) ∧
    (bad = none → e.blk.copies.length < 16 → e.team.count 0 < 255 → ∃ t u B o, exec i s = .next t ∧
      t.block? e.who.bid = some B ∧ B.team? e.who.team = some u ∧ o ∈ B.copies ∧ o.id = s.nextId ∧ o.team = e.who.team ∧
      o.kind = kind ∧ o.desc = desc ∧ o.ranks = ranks ∧ o.bar = bar.map w64 ∧ o.pc = e.rcd.pc ∧ o.done = 0 ∧
      u.count 0 = e.team.count 0 + 1 ∧ u.ops = e.team.ops ++ [⟨s.nextId, 0, false, none⟩] ∧
      u.v = e.team.v ∧ u.k = e.team.k ∧ t.mem = s.mem ∧
      ((∀ K ∈ s.blocks, ∀ w ∈ K.cbq, w.who.bid = e.who.bid → w.who.team = e.who.team → w.op.isSome) → u.s = e.team.s) ∧
      (o.buf = none → (∀ k ∈ e.blk.copies, k.buf = none) → Entered f e c 0 s t u B ∧
        B = { e.blk with teams := B.teams, copies := B.copies } ∧ SameScratch s t))

/-- R290 to R300, R307: the circular-buffer instructions on a well-formed descriptor at which nothing waits: CBINI writes it, CBRES takes the
slot at the tail, CBPUT marks a reserved slot written, CBACQ takes the slot at the head, with its tag, CBREL frees the oldest acquired
slot, CBST counts; an acquire or a reservation that finds none waits there. Every other byte of the scratchpads is as it was. -/
def Obligations.CircularBuffers : Prop :=
  ∀ (h : Hdr) (g tags tag : Bool) (n1 : BitVec 6) (d a b x : Opnd) (i : Instr) (iss : Iss) (s : State) (e : Env) (c : Ctx)
    (bid off : Nat) (B : Block) (j : Nat),
    let form : List Field → List Field → ProbeK → Form := fun srcs dsts pr =>
      ⟨fA a (if g then 2 else 1) :: srcs, dsts, .ctl, none, pr, false, false⟩
    let addr := c.objAddr g a
    let cb := cbufOf (B.num off 32)
    let next : Nat → Nat := fun k => (k + 1) % cb.count
    let slot : Nat → Nat := fun k => cb.base + k * cb.ssize
    let acq := cb.count - cb.free - cb.rsv - cb.filled
    let word := cb.tags + 4 * j
    let tagged : Bool := cb.tags != 2 ^ 32 - 1
    let well : Prop := cb.broken B.scratchLen = false
    let outside : State → (Nat → Prop) → Prop := fun t own => t.mem = s.mem ∧ t.launches = s.launches ∧
      ∀ bd k, (bd ≠ bid ∨ ¬ own k) → scrByte t bd k = scrByte s bd k
    let own : Nat → Prop := fun k => off ≤ k ∧ k < off + 32
    let becomes : State → CBuf → Prop := fun t k => ∃ B', t.block? bid = some B' ∧ cbufOf (B'.num off 32) = k
    let base := (c.uni 1 b).toNat
    let size := (c.uni 2 x).toNat
    let n := n1.toNat + 1
    let top := base + n * size
    let clear : Nat → Nat → Prop := fun at_ len => ∀ o ∈ B.objs, ¬ (o < at_ + len ∧ at_ < o + 16)
    let after : W64 := e.rcd.pc + w64 c.iss.len
    let kept : State → List Field → Prop := fun t srcs => ∃ u, t.team? e.who.bid e.who.team = some u ∧
      Wrote (form srcs [] .zero) e c .zero 0 (fun _ => 0) u
    let got : State → Form → Nat → Nat → Prop := fun t f k v => ∃ u, t.team? e.who.bid e.who.team = some u ∧
      Noted f e c d k (fun _ => v) u ∧ Acquired s e (objScope g) u
    let waits : State → Bool → Wait → Prop := fun t q w => ∃ B' u r, t.block? bid = some B' ∧ B'.cbq = [⟨off, q, e.who, none⟩] ∧
      t.team? e.who.bid e.who.team = some u ∧ u.rec? e.who.sub = some r ∧ r.wait = w ∧ r.pc = e.rcd.pc ∧
      outside t (fun _ => False)
    e.bufAt addr = .ok (bid, off) → s.block? bid = some B → B.cbq = [] → clear off 32 →
    (Runs (form [fB b 1, fC x 1] [] .zero) (issOf h) s e c → base % 128 = 0 → size % 128 = 0 → 0 < size → top < 2 ^ 32 →
      top + (if tags then 4 * n else 0) ≤ B.scratchLen →
      ∃ t, exec (.cbini h g tags n1 a b x) s = .next t ∧ kept t [fB b 1, fC x 1] ∧ outside t own ∧
        becomes t ⟨base, size, n, n, 0, 0, 0, 0, 0, if tags then top else 2 ^ 32 - 1, 0⟩) ∧
    (Runs (form [] [fD d 1] .zero) (issOf h) s e c → well →
      (0 < cb.free → ∃ t, exec (.cbres h g d a) s = .next t ∧ got t (form [] [fD d 1] .zero) 1 (slot cb.tail) ∧ outside t own ∧
        becomes t { cb with tail := next cb.tail, free := cb.free - 1, rsv := cb.rsv + 1 }) ∧
      (cb.free = 0 → ∃ t, exec (.cbres h g d a) s = .next t ∧ waits t false (.cbres (w64 addr) (sNum d) after)) ∧
      Writes (.cbst h g d a) (form [] [fD d 1] .zero) s e c d 1
        (fun _ => 2 ^ 24 * acq + 2 ^ 16 * cb.rsv + 2 ^ 8 * cb.filled + cb.free)) ∧
    (Runs (form [fB b 1, fC x 1] [] .zero) (issOf h) s e c → well → cb.rsv ≠ 0 → base = slot j →
      (∃ k, k < cb.rsv ∧ j = (cb.head + cb.filled + k) % cb.count) → cb.done.testBit j = false → (tagged = true → clear word 4) →
      ∃ t, exec (.cbput h g a b x) s = .next t ∧ kept t [fB b 1, fC x 1] ∧
        outside t (fun k => own k ∨ tagged = true ∧ word ≤ k ∧ k < word + 4) ∧
        (tagged = true → word + 4 ≤ off ∨ off + 32 ≤ word → ∃ B', t.block? bid = some B' ∧ B'.num word 4 = size) ∧
        (j ≠ (cb.head + cb.filled) % cb.count → cb.done.testBit ((cb.head + cb.filled) % cb.count) = false →
          becomes t { cb with done := cb.done ||| 2 ^ j }) ∧
        (j = (cb.head + cb.filled) % cb.count → (cb.rsv = 1 ∨ cb.done.testBit (next j) = false) →
          becomes t { cb with filled := cb.filled + 1, rsv := cb.rsv - 1 })) ∧
    (Issues i (.cbacq h g tag d a) h iss → Runs (form [] [fD d (if tag then 2 else 1)] .ends) iss s e c → well →
      (0 < cb.filled → ∃ t, exec i s = .next t ∧ outside t own ∧
        got t (form [] [fD d (if tag then 2 else 1)] .ends) (if tag then 2 else 1)
          (slot cb.head + 2 ^ 32 * (if tagged then B.num (cb.tags + 4 * cb.head) 4 else 0)) ∧
        becomes t { cb with head := next cb.head, filled := cb.filled - 1 }) ∧
      (cb.filled = 0 → ∃ t, exec i s = .next t ∧ waits t true (.cbacq (w64 addr) (sNum d) tag after))) ∧
    (Issues i (.cbrel h g a) h iss → Runs (form [] [] .zero) iss s e c → well → 0 < acq →
      ∃ t, exec i s = .next t ∧ kept t [] ∧ outside t own ∧ becomes t { cb with free := cb.free + 1 })

/-- R310, R312 to R331: a matrix instruction of scalar operands waits while another block holds the engine, traps on the first check that
fails, waits while the engine has 32 or the counter stands at 255, and else enters the engine last in order with its operand values, its
tile's and planes' issue-side state updated at once; nothing else of the block changes. -/
def Obligations.MatrixInstructionsEnter : Prop :=
  ∀ (h : Hdr) (pf : PFmt) (q : QFmt) (tf : TFmt) (trk : Bool) (t ts p : Fin 8) (a b x : Opnd) (i : Instr) (f : Form)
    (bad : Option (Nat × W64)) (va vb vc : W64) (upd : TileStat → TileStat) (s : State) (e : Env) (c : Ctx),
    let pitch := if b = .zero then 32 * tfmtBytes tf else (c.uni 1 b).toNat
    let addr := (c.uni64 0 a).toNat
    let off := (c.uni 1 b).toNat
    let xo := (c.uni 2 x).toNat
    let code := Machine.pfmtCode pf
    let written : TileStat → TileStat := fun st => { st with valid := true, dirty := true }
    let soiled : TileStat → TileStat := fun st => { st with dirty := true }
    let stored : TileStat → TileStat := fun st =>
      if trk then
        { st with dirty := false, track := if Config.localWindow ≤ addr then 3 else 2,
                  addr := if Config.localWindow ≤ addr then w64 (addr % 2 ^ 44) else w64 addr, pitch := pitch }
      else st
    (i = .ldw h pf p a ∧ f = matForm [fA a 1] ∧ upd = id ∧ va = w64 (c.uni 0 a).toNat ∧ vb = 0 ∧ vc = 0 ∧
        bad = firstFail [spwinIf e.blk [((c.uni 0 a).toNat, 256 * rowBytes code)], alignIf [((c.uni 0 a).toNat, 128)]]) ∨
      (i = .wswap h ∧ f = matForm [] ∧ upd = id ∧ va = 0 ∧ vb = 0 ∧ vc = 0 ∧ bad = none) ∨
      (i = .mmq h q t p b ∧ opIsS b = true ∧ f = matForm [fB b 1] ∧ upd = written ∧ va = 0 ∧ vb = w64 off ∧ vc = 0 ∧
        bad = firstFail [spwinIf e.blk [(off, 128 * qBits q)], alignIf [(off, 4)], planeBad e.blk p.val tagIsQ]) ∨
      (i = .msa h t ts b x ∧ f = matForm [fB b 1, fC x 1] ∧ upd = soiled ∧ va = 0 ∧ vb = w64 off ∧ vc = w64 xo ∧
        bad = firstFail [spwinIf e.blk [(off, 256), (xo, 32)], tileBad e.blk t.val, tileBad e.blk ts.val]) ∨
      (i = .mmqa h q t p b x ∧ opIsS b = true ∧ f = matForm [fB b 1, fC x 2] ∧ upd = soiled ∧ va = 0 ∧ vb = w64 off ∧
        vc = c.uni64 2 x ∧
        bad = firstFail [spwinIf e.blk [(off, 128 * qBits q), ((loHalf vc).toNat, 256), ((hiHalf vc).toNat, 32)],
          alignIf [(off, 4)], tileBad e.blk t.val, planeBad e.blk p.val tagIsQ]) ∨
      (i = .mmqaCb h q t b x ∧ f = matForm [fB b 1, fC x 1] ∧
        upd = (fun st => { st with dirty := true, nb := (st.nb + 1) % 65536 }) ∧ va = 0 ∧ vb = w64 off ∧
        vc = (c.uni 2 x).zeroExtend 64 ∧
        bad = firstFail [spwinIf e.blk [(off, 32)], alignIf [(off, 32)], tileBad e.blk t.val]) ∨
      (i = .mmf h pf t p b ∧ opIsS b = true ∧ f = matForm [fB b 1] ∧ upd = soiled ∧ va = 0 ∧ vb = w64 off ∧ vc = 0 ∧
        bad = firstFail [spwinIf e.blk [(off, 1024 * tagBytes code)], alignIf [(off, 4)], tileBad e.blk t.val,
          planeBad e.blk p.val fun g => g == code]) ∨
      (i = .tld h tf t a b ∧ f = matForm [fA a 2, fB b 1] ∧ upd = written ∧ va = w64 addr ∧ vb = w64 pitch ∧ vc = 0 ∧
        bad = imageBad e tf addr pitch) ∨
      (i = .tst h tf trk a b t ∧ f = matForm [fA a 2, fB b 1] ∧ upd = stored ∧ va = w64 addr ∧ vb = w64 pitch ∧ vc = 0 ∧
        bad = firstFail [imageBad e tf addr pitch, tileBad e.blk t.val]) ∨
      (i = .tzero h t b ∧ f = matForm [fB b 1] ∧
        upd = (fun st => { st with valid := true, dirty := true, nb := off % 65536 }) ∧ va = 0 ∧ vb = w64 off ∧ vc = 0 ∧ bad = none) ∨
      (i = .tacc h t ts ∧ f = matForm [] ∧ upd = soiled ∧ va = 0 ∧ vb = 0 ∧ vc = 0 ∧
        bad = firstFail [tileBad e.blk t.val, tileBad e.blk ts.val]) →
    Runs f (issOf h) s e c →
    let heldBy : Prop := e.blk.mat.owned = false ∧
      ∃ B ∈ s.blocks, B.site = e.blk.site ∧ B.bid ≠ e.blk.bid ∧ B.mat.owned = true
    let room := (e.blk.mat.queue.filter fun o => !o.fin && !isColl o.ins).length < 32 ∧ e.team.count 1 < 255
    (heldBy → exec i s = .next (holdAs .limit e.who s)) ∧
    (¬ heldBy → (∀ k tr, bad = some (k, tr) → exec i s = .next (takeTrap e k tr (e.low c.m) (issOf h).ilen)) ∧
      (bad = none → ¬ room → exec i s = .next (holdAs .limit e.who s)) ∧
      (bad = none → room → ∃ t' u B op, exec i s = .next t' ∧ Entered f e c 1 s t' u B ∧ u.locks = e.team.locks ∧
        u.unready = e.team.unready ∧ B = { e.blk with teams := B.teams, mat := B.mat } ∧
        B.mat = { e.blk.mat with owned := true, queue := e.blk.mat.queue ++ [op], istat := B.mat.istat,
                                 iactive := B.mat.iactive, ishadow := B.mat.ishadow } ∧
        op.id = s.nextId ∧ op.team = e.who.team ∧ op.ins = i ∧ op.pc = e.rcd.pc ∧ op.va = va ∧ op.vb = vb ∧ op.vc = vc ∧
        op.vec = [] ∧ op.started = false ∧ op.fin = false ∧ op.ov = ovtab s e.la.ctx ∧
        (∀ k, tileStat B.mat.istat k = if k = t.val then upd (tileStat e.blk.mat.istat k) else tileStat e.blk.mat.istat k) ∧
        (∀ k, smGet 0 B.mat.iactive k = if i = .wswap h then smGet 0 e.blk.mat.ishadow k else smGet 0 e.blk.mat.iactive k) ∧
        (∀ k, smGet 0 B.mat.ishadow k =
          if i = .wswap h then smGet 0 e.blk.mat.iactive k
          else if i = .ldw h pf p a ∧ (k = p.val ∨ tagFloat code = true ∧ k = p.val + 1) then code
          else smGet 0 e.blk.mat.ishadow k)))

/-- R311, R316, R320, R329, R331: a product or a move whose operand is a run of ready registers enters with the run's words of the lanes it
reads and locks the run; `TMV` of a tile to registers clears their ready bits; `TSTAT` reads the issue-side state. -/
def Obligations.MatrixRegisterOperands : Prop :=
  ∀ (h : Hdr) (q : QFmt) (pf : PFmt) (t p : Fin 8) (d a b x : Opnd) (i : Instr) (f : Form) (n : Nat) (bad : Option (Nat × W64))
    (vc : W64) (s : State) (e : Env) (c : Ctx),
    let code := Machine.pfmtCode pf
    let sel := c.uni 1 b
    let row0 := sel.toNat % 2 ^ 8
    let col0 := sel.toNat / 2 ^ 8 % 2 ^ 5
    let ncol := sel.toNat / 2 ^ 13 % 2 ^ 5 + 1
    let cols : List Nat := (List.range 32).filter fun l => e.rcd.k0.getLsbD l
    let rows : List Nat := c.lanes.filter fun l => decide (row0 + l ≤ 255)
    let free : Prop := e.blk.mat.owned = true ∨
      ∀ B ∈ s.blocks, B.site = e.blk.site → B.bid ≠ e.blk.bid → B.mat.owned = false
    let room := (e.blk.mat.queue.filter fun o => !o.fin && !isColl o.ins).length < 32 ∧ e.team.count 1 < 255
    let enters : Instr → Form → List Nat → State → Team → MatOp → Prop := fun i f regs t' u op => ∃ B, exec i s = .next t' ∧
      Entered f e c 1 s t' u B ∧ u.locks = e.team.locks ++ regs.map (fun r => (r, s.nextId)) ∧
      B.mat.queue = e.blk.mat.queue ++ [op] ∧ B.mat.owned = true ∧ B.mat.tiles = e.blk.mat.tiles ∧ B.scratch = e.blk.scratch ∧
      op.id = s.nextId ∧ op.ins = i ∧ op.team = e.who.team ∧ op.fin = false ∧ op.ov = ovtab s e.la.ctx
    let words : MatOp → Nat → Opnd → Nat → List Nat → Prop := fun op k o n ls =>
      op.vec = ls.flatMap fun l => ((List.range n).map fun j => (64 * l + j, c.rdReg k o j l)).filter fun w => w.2 != 0
    free →
    ((i = .mmq h q t p b ∧ n = qBits q ∧ f = matForm [colField b n] ∧ vc = 0 ∧ bad = planeBad e.blk p.val tagIsQ) ∨
        (i = .mmqa h q t p b x ∧ n = qBits q ∧ f = matForm [colField b n, fC x 2] ∧ vc = c.uni64 2 x ∧
          bad = firstFail [spwinIf e.blk [((loHalf vc).toNat, 256), ((hiHalf vc).toNat, 32)], tileBad e.blk t.val,
            planeBad e.blk p.val tagIsQ]) ∨
        (i = .mmf h pf t p b ∧ n = 8 * tagBytes code ∧ f = matForm [colField b n] ∧ vc = 0 ∧
          bad = firstFail [tileBad e.blk t.val, planeBad e.blk p.val fun g => g == code]) →
      room → opV b = true → Runs f (issOf h) s e c → c.runCheck b n cols false = none → bad = none →
      ∃ t' u op, enters i f (c.runRegs b n cols) t' u op ∧ words op 1 b n cols ∧ op.vc = vc ∧ u.unready = e.team.unready) ∧
    (room → opV a = true → Runs (matForm [fA a 1, fB b 1]) (issOf h) s e c → sel.toNat < 2 ^ 18 → col0 + ncol ≤ 32 →
      c.runCheck a ncol rows false = none →
      ∃ t' u op, enters (.tmvV2t h t a b) (matForm [fA a 1, fB b 1]) (c.runRegs a ncol c.lanes) t' u op ∧
        words op 0 a ncol rows ∧ op.mask = c.m ∧ op.vb = sel.zeroExtend 64 ∧ u.unready = e.team.unready) ∧
    (let g := ctlForm [fB b 1] [fD d 1] .own false
     room → Runs g (issOf h) s e c → sel.toNat < 2 ^ 18 → col0 + ncol ≤ 32 → c.runCheck d ncol c.lanes true = none →
      tileBad e.blk t.val = none →
      ∃ t' u op, enters (.tmvT2v h d t b) g [] t' u op ∧ op.mask = c.m ∧ op.vb = sel.zeroExtend 64 ∧
        (∀ r ∈ c.runRegs d ncol c.lanes, RegKey.v r ∈ u.unready)) ∧
    (let g : Form := ⟨[], [fD d 1], .ctl, some 4, .zero, false, false⟩
     let st := tileStat e.blk.mat.istat t.val
     Runs g (issOf h) s e c → ∃ t' u, exec (.tstat h d t) s = .next t' ∧ t'.team? e.who.bid e.who.team = some u ∧
      u.k = e.team.k ∧ (∀ r, u.getS r = c.sAfter d 1 (fun _ => 2 ^ 16 * st.nb + 8 * st.track
        + (if tileInFlight e.blk t.val then 4 else 0) + (if st.dirty then 2 else 0) + (if st.valid then 1 else 0)) r) ∧
      t'.mem = s.mem ∧ SameScratch s t')

/-- R280, R283, R289, R293, R303, R18: a unit of a copy whose moves do not fail takes its operation on; of a fill, it writes the pattern's
words of one 128-byte block and nothing else; the first reservation that waits at a buffer with a free slot is granted the slot at its
tail; a copy that has finished and is its team's oldest retires, its gather's misses counted. -/
def Obligations.CopyEngineSteps : Prop :=
  ∀ (s : State) (bid id off : Nat) (b : Block) (o : CopyOp) (la : Launch) (w : CbWaiter),
    s.block? bid = some b →
    (b.copy? id = some o → s.launch? b.q b.lseq = some la → o.phase = .running → o.done < o.total → engineRuns la b = true →
      (o.step b).moves.findSome? (moveFail s b la) = none → ∃ t B o', exec (.copyUnit bid id) s = .next t ∧
        t.block? bid = some B ∧ B.copy? id = some o' ∧ o'.done = (o.step b).done ∧ o'.part = (o.step b).part ∧
        o'.misses = o.misses + (o.step b).misses ∧ o'.desc = o.desc ∧
        (o.kind = .tfill → o.bar = none → (∀ x ∈ b.objs, x + 16 ≤ numAt o.desc 0 4 ∨ numAt o.desc 0 4 + numAt o.desc 4 4 ≤ x) →
          let first := numAt o.desc 0 4 + 4 * o.done
          let n := min (numAt o.desc 4 4 / 4 - o.done) ((128 - first % 128) / 4)
          first % 4 = 0 → numAt o.desc 0 4 + numAt o.desc 4 4 ≤ b.scratchLen →
            o'.done = o.done + n ∧ t.mem = s.mem ∧ ∀ bd i, scrByte t bd i =
              if bd = bid ∧ first ≤ i ∧ i < first + 4 * n then
                BitVec.ofNat 8 (numAt o.desc 8 4 / 2 ^ (8 * ((i - first) % 4)))
              else scrByte s bd i)) ∧
    (let cb := cbufOf (b.num off 32)
     b.cbq = [w] → w.off = off → w.acq = false → w.op = some id → cb.broken b.scratchLen = false → 0 < cb.free →
      (∀ x ∈ b.objs, ¬ (x < off + 32 ∧ off < x + 16)) →
      ∃ t B, exec (.cbReservation bid off) s = .next t ∧ t.block? bid = some B ∧ B.cbq = [] ∧
        cbufOf (B.num off 32) = { cb with tail := (cb.tail + 1) % cb.count, free := cb.free - 1, rsv := cb.rsv + 1 } ∧
        ∀ b2, s.block? w.who.bid = some b2 → ∀ k ∈ b2.copies, k.id = id → ∃ B2, t.block? w.who.bid = some B2 ∧
          ({ k with phase := .running, slot := some (cb.base + cb.tail * cb.ssize) } : CopyOp) ∈ B2.copies) ∧
    (b.copy? id = some o → o.phase = .finished → oldestOp b o.team 0 = some id → o.unacked = [] →
      ∃ t, exec (.copyRetire bid id) s = .next t ∧ Retired s t bid o.team id 0 (if o.poisoned then some 0x20 else none) ∧
        (∀ u, s.team? bid o.team = some u → u.live ≠ 0 → ∃ u' B, t.block? bid = some B ∧ B.team? o.team = some u' ∧
          u'.gmiss = u.gmiss + w32 o.misses ∧ ∀ k ∈ B.copies, k.id ≠ id))

/-- R308, R312, R317 to R322, R325 to R330: the instruction at the head of the matrix engine executes: products of the active plane's rows and
the 32 columns, exact in integers and rounded once in FP32, the accumulate stage, tiles loaded, stored, zeroed, moved and added, planes
loaded and exchanged. -/
def Obligations.MatrixExecution : Prop :=
  ∀ (s : State) (bid : Nat) (b : Block) (o : MatOp) (la : Launch) (h : Hdr) (pf : PFmt) (q : QFmt) (tf : TFmt) (trk : Bool)
    (t ts p : Fin 8) (x y z : Opnd),
    s.block? bid = some b → matHead b = some o → s.launch? b.q b.lseq = some la → engineRuns la b = true → collHolds b o = false →
    engineFirst s b = none → matPoison s la b o = none →
    let run : (State → Block → Prop) → Prop := fun post => ∃ s' B, exec (.matrixExecute bid) s = .next s' ∧ s'.block? bid = some B ∧
      (∀ k ∈ B.mat.queue, k.id = o.id → k.fin = true) ∧ post s' B
    let tileIs : (Nat → Nat → W32) → Prop := fun F => run fun s' B => s'.mem = s.mem ∧
      ∀ k m n, m < 256 → n < 32 → B.tile k m n = if k = t.val then F m n else b.tile k m n
    let A := qBits q
    let pl : Plane := smGet ⟨0, 0, []⟩ b.mat.active p.val
    let lo := (loHalf o.vb).toNat
    let word : Nat → Nat → Nat := fun n k => (smGet 0 o.vec (64 * n + k)).toNat
    let colNum : Nat → Nat → Opnd → Nat := fun len n y =>
      if opIsS y then numAt b.scratch (lo + n * len) len
      else ((List.range (len / 4)).map fun k => word n k * 2 ^ (32 * k)).sum
    let wi : Nat → Nat → Int := fun m k => readInt true pl.tag (numAt pl.img (m * (4 * pl.tag)) (4 * pl.tag) / 2 ^ (pl.tag * k))
    let xi : Nat → Nat → Int := fun n k => readInt true A (colNum (4 * A) n y / 2 ^ (A * k))
    let P : Nat → Nat → Int := fun m n => ((List.range 32).map fun k => wi m k * xi n k).sum
    let pol := polFp32 o.ov
    let code := Machine.pfmtCode pf
    let w := 8 * tagBytes code
    let wf : Nat → Nat → FVal := fun m k => (tagFmt code).decode (numAt pl.img (m * (4 * w) + w / 8 * k) (w / 8))
    let xf : Nat → Nat → FVal := fun n k => (tagFmt code).decode (colNum (4 * w) n y / 2 ^ (w * k) % 2 ^ w)
    let acc : Nat → Nat → FVal := fun m n => fp32.decode (b.tile t.val m n).toNat
    (o.ins = .mmq h q t p y → 2 ≤ pl.tag → pl.tag ≤ 8 → tileIs fun m n => BitVec.ofInt 32 (P m n)) ∧
    (o.ins = .msa h t ts y z → tileIs fun m n => w32 (msaElem pol (b.tile t.val m n).toNat (b.tile ts.val m n).toInt
      (byteAt b.scratch (lo + m)).toNat (byteAt b.scratch ((loHalf o.vc).toNat + n)).toNat)) ∧
    (o.ins = .mmqa h q t p y z → 2 ≤ pl.tag → pl.tag ≤ 8 → tileIs fun m n => w32 (msaElem pol (b.tile t.val m n).toNat (P m n)
      (byteAt b.scratch ((loHalf o.vc).toNat + m)).toNat (byteAt b.scratch ((hiHalf o.vc).toNat + n)).toNat)) ∧
    (o.ins = .mmf h pf t p y → tagFloat code = true → pl.tag = code → tileIs fun m n =>
      w32 (fp32.encode .rne (FVal.sum .rne (acc m n :: (List.range 32).map fun k => (wf m k).mul (xf n k))))) ∧
    (o.ins = .tacc h t ts → tileIs fun m n =>
      w32 (fp32.encode .rne (FVal.sum .rne [acc m n, fp32.decode (b.tile ts.val m n).toNat]))) ∧
    (o.ins = .tzero h t y → heldFor b t.val = [] → (tileIs fun _ _ => 0) ∧
      run fun _ B => tileStat B.mat.stat t.val =
        { tileStat b.mat.stat t.val with valid := true, dirty := true, nb := o.vb.toNat % 65536 }) ∧
    (o.ins = .tld h tf t x y → ∀ c off, winAt s la b o.va.toNat = some (c, off) → tileIs fun m n =>
      w32 (tldElem tf (numAt c.scratch (off + m * lo + n * tfmtBytes tf) (tfmtBytes tf)))) ∧
    (o.ins = .tst h tf trk x y t → ∀ c off, winAt s la b o.va.toNat = some (c, off) → c.objs = [] → 32 * tfmtBytes tf ≤ lo →
      run fun s' B => s'.mem = s.mem ∧ (∀ k m n, B.tile k m n = b.tile k m n) ∧
        (∀ m n, m < 256 → n < 32 → ∃ C, s'.block? c.bid = some C ∧
          numAt C.scratch (off + m * lo + n * tfmtBytes tf) (tfmtBytes tf)
            = tstElem tf o.ov (b.tile t.val m n).toNat % 2 ^ (8 * tfmtBytes tf)) ∧
        ∀ bd i, (bd = c.bid → ∀ m, m < 256 → ¬ (off + m * lo ≤ i ∧ i < off + m * lo + 32 * tfmtBytes tf)) →
          scrByte s' bd i = scrByte s bd i) ∧
    (o.ins = .ldw h pf p x → run fun s' B => s'.mem = s.mem ∧ B.mat.active = b.mat.active ∧
      ∀ k, smGet ⟨0, 0, []⟩ B.mat.shadow k =
        if k = p.val ∨ tagFloat code = true ∧ k = p.val + 1 then ⟨code, (loHalf o.va).toNat, b.copyOut (loHalf o.va).toNat (256 * rowBytes code)⟩
        else smGet ⟨0, 0, []⟩ b.mat.shadow k) ∧
    (o.ins = .wswap h → run fun s' B => s'.mem = s.mem ∧ B.mat.active = b.mat.shadow ∧ B.mat.shadow = b.mat.active)

/-- R345, R349 to R351, R355, R371, R375, R434: an attention instruction, an eviction request, a near-memory call and a bundle fetch whose
checks pass and whose limits leave room enter their engine with their operands as they stand, counted in their class. R359: `PLATR` reads,
in each lane, or for a scalar once, the plat entry that the index names, and 0 from platlen on. -/
def Obligations.FarOperationsAndPlat : Prop :=
  (
    ∀ (h : Hdr) (a b x : Opnd) (i : Instr) (byAddr : Bool) (stack : Nat) (s : State) (e : Env) (c : Ctx),
      let off := (c.uni 0 a).toNat
      let cnt := (c.uni 2 x).toNat
      let blk := e.blk
      let fa := ctlForm [fA a 1, fB b 1, fC x 1] [] .zero true
      let fe := ctlForm [fA a 1] [] .zero false
      let ff := ctlForm [fA a 1, fB b 2, fC x 1] [] .zero false
      let fn := ctlForm [fA a 1, fB b (if byAddr then 2 else 1), fC x 1] [] .zero false
      let bar := if x = .zero then none else some cnt
      let counted : State → Nat → Prop := fun t cls => ∃ u, t.team? e.who.bid e.who.team = some u ∧
        u.count cls = e.team.count cls + 1 ∧ u.ops = e.team.ops ++ [⟨s.nextId, cls, false, none⟩] ∧
        u.v = e.team.v ∧ u.s = e.team.s ∧ u.k = e.team.k
      (i = .atts h a b x ∨ i = .attv h a b x ∨ i = .attm h a b x → Runs fa (issOf h) s e c →
        (∀ k tr, attCheck blk (attKind i) off cnt = some (k, tr) → exec i s = .next (takeTrap e k tr (e.low c.m) (issOf h).ilen)) ∧
        (attCheck blk (attKind i) off cnt = none → (if e.station then 1 else 2) ≤ blk.atts.length ∨ 255 ≤ e.team.count 4 →
          exec i s = .next (holdAs .limit e.who s)) ∧
        (attCheck blk (attKind i) off cnt = none → blk.atts.length < (if e.station then 1 else 2) → e.team.count 4 < 255 →
          ∃ t u B op, exec i s = .next t ∧ Entered fa e c 4 s t u B ∧ u.locks = e.team.locks ∧ u.unready = e.team.unready ∧
            B = { blk with teams := B.teams, atts := blk.atts ++ [op] } ∧
            op = ⟨s.nextId, e.who.team, i, e.rcd.pc, off, (c.uni 1 b).toNat, cnt, blk.copyOut off 64, false, 0, [], 0, []⟩)) ∧
      (Runs fe (issOf h) s e c → evictCheck blk off = none → e.team.count 4 < 255 → ∃ t ev, exec (.evict h a) s = .next t ∧
        counted t 4 ∧ t.evicts = s.evicts ++ [ev] ∧ t.mem = s.mem ∧ SameScratch s t ∧
        ev = ⟨s.nextId, blk.q, blk.lseq, blk.idx, e.who.team, s.nextId, e.la.ctx, e.rcd.pc, BitVec.ofNat 128 (blk.num off 16), .waiting, []⟩) ∧
      (Runs ff (issOf h) s e c → 0 < cnt → cnt ≤ 256 → off + 32 + 144 * cnt ≤ blk.scratchLen → off % 16 = 0 → e.team.count 5 < 255 →
        ∃ t u B, exec (.bfetch h a b x) s = .next t ∧ Entered ff e c 5 s t u B ∧
          B = { blk with teams := B.teams,
                         fetches := blk.fetches ++ [⟨s.nextId, e.who.team, off, c.uni64 1 b, cnt, e.team.vs, e.rcd.pc⟩] }) ∧
      (i = (if byAddr then .nmcallA h a b x else .nmcall h a b x) → Runs fn (issOf h) s e c → c.relHold true .dev = none →
        nmCheck blk off (if byAddr then none else some (c.uni 1 b).toNat) bar = none →
        (if byAddr then nmStack e (c.uni64 1 b).toNat = .ok stack else stack = (c.uni 1 b).toNat) →
        (8 ≤ (blockCalls s blk).length ∨ 255 ≤ e.team.count 3 → exec i s = .next (holdAs .limit e.who s)) ∧
        ((blockCalls s blk).length < 8 → e.team.count 3 < 255 → ∃ t k, exec i s = .next t ∧ counted t 3 ∧
          t.calls = s.calls ++ [k] ∧ t.mem = s.mem ∧ SameScratch s t ∧ k.id = s.nextId ∧ k.op = s.nextId ∧ k.q = blk.q ∧
          k.lseq = blk.lseq ∧ k.idx = blk.idx ∧ k.team = e.who.team ∧ k.ctx = e.la.ctx ∧ k.pc = e.rcd.pc ∧ k.stack = stack ∧
          k.prio = e.team.prio.toNat ∧ k.bar = bar ∧ k.phase = .issued ∧
          k.msg = blk.copyOut off (16 * numAt (blk.copyOut off 32) 12 1)))) ∧
  (
    ∀ (h : Hdr) (d a b : Opnd) (s : State) (e : Env) (c : Ctx) (plat len key : Nat),
      let f : Form := ⟨[fA a 2, fB b 1], [fD d 1], if opIsS d then .scalar else .vec, none, .own, false, false⟩
      let ls := if opIsS d then [e.low c.m] else c.lanes
      let sd := (c.uni64 0 a).toNat
      let x : Nat → Nat := fun l => (c.rd 1 b l).toNat
      let rs := c.resolveLanes (ls.filter fun l => decide (x l < len)) (fun l => (plat + 4 * x l) % 2 ^ 64) 4 0 (c.poisonAt 4)
      Runs f (issOf h) s e c → c.platHead sd = .ok (plat, len) → firstBad rs [] = none → OneKey (goodAccs rs) key →
        ∃ t u val, exec (.platr h d a b) s = .next t ∧ t.team? e.who.bid e.who.team = some u ∧ u.k = e.team.k ∧
          (∀ r l, l < 1024 → u.getV r l = c.vAfter d 1 val r l) ∧ (∀ r, u.getS r = c.sAfter d 1 (fun _ => val (e.low c.m)) r) ∧
          (∀ l ∈ ls, len ≤ x l → val l = 0) ∧
          (∀ q ∈ goodAccs rs, match q.2.2 with
            | .scr bid off => ∀ B, s.block? bid = some B → val q.1 = leNat (bytesAt B.scratch off 4)
            | .mem _ p => (p.kind = .own ∧ locDie p.loc = coreDie e.blk.coreNum → val q.1 = leNat (homeBytes s p 4))) ∧
          SameScratch s t ∧ SameMemory s t key)

/-- R380, R382, R386, R371: on a station `NMRET` keeps its return data and ends its lanes; `RGATH` copies a row into the local scratch and
counts those whose index was no row; `REDRX` applies a queued packet that its checks pass, drops one that they fail, and counts both; on a
core each traps with ILLOP. -/
def Obligations.StationInstructions : Prop :=
  ∀ (h : Hdr) (d a b : Opnd) (i : Instr) (s : State) (e : Env) (c : Ctx) (l : List Byte) (s3 : State) (b1 : Block) (k : RedPkt)
    (stack st : Nat),
    let iss := issOf h
    let off := (c.uni 0 a).toNat
    let n := (c.uni 1 b).toNat
    let blk := e.blk
    let g := gatherOf (blk.copyOut off 64)
    let ix := blk.num g.idx 4
    let row := if ix < g.rows ∧ ix ≠ 2 ^ 32 - 1 then ix else g.defrow
    let at_ := g.packed % 2 ^ 44
    let fr := ctlForm [fA a 1] [fD d 1] .run true
    let begun := beginIssue [(fr, c)] e iss
    let dr := drainOf blk.scratch off
    let hd := chdrOf k.hdr
    let ty := hd.fmt % 16
    let width := k.count * elemSize ty
    let red := reduceCheck ty (hd.fmt / 16 % 4) (elems ty (bytesAt s.mem k.dst width)) false (elems ty k.data) hd.closure
    let got : State → Nat → Prop := fun t v => ∃ u, t.team? e.who.bid e.who.team = some u ∧ u.k = e.team.k ∧
      (∀ r, u.getS r = c.sAfter d 1 (fun _ => v) r) ∧ (∀ r l, l < 1024 → u.getV r l = c.vAfter d 1 (fun _ => v) r l)
    ((i = .nmret h a b ∨ i = .rgath h d a ∨ i = .redrx h d a) → e.station = false → Runs (ctlForm [] [] .run true) iss s e c →
      exec i s = .next (takeTrap e cILLOP 0 (e.low c.m) iss.ilen)) ∧
    (Runs (ctlForm [fA a 1, fB b 1] [] .run true) iss s e c → e.station = true → Lone e → blk.ret = none → n ≤ 64 → off + n ≤ 65536 →
      ∃ t B, exec (.nmret h a b) s = .next t ∧ t.block? e.who.bid = some B ∧ B.ret = some (blk.bytes off n) ∧ t.mem = s.mem ∧
        ∀ u, B.team? e.who.team = some u → ∀ r ∈ u.records, r.k0 = e.rcd.k0 &&& ~~~c.m ∧ r.k0 ≠ 0) ∧
    (Runs fr iss s e c → e.station = true → rgathCheck blk off = none → blk.objs = [] →
      (g.n = 0 → ∃ t, exec (.rgath h d a) s = .next t ∧ got t 0 ∧ SameScratch s t ∧ t.mem = s.mem) ∧
      (g.n = 1 → begun.block? e.who.bid = some b1 →
        cleanRead b1 e.la (g.table + row * g.rowb) g.rowb (rowTouch begun b1 e.la g.table g.rowb row (g.table + row * g.rowb))
          = .ok (l, s3) → l.length = g.rowb →
        ∃ t B, exec (.rgath h d a) s = .next t ∧ got t (if ix < g.rows ∧ ix ≠ 2 ^ 32 - 1 then 0 else 1) ∧ t.block? e.who.bid = some B ∧
          bytesAt B.scratch at_ g.rowb = l)) ∧
    (Runs fr iss s e c → e.station = true → blk.site = .station stack st → drainCheck blk off = none →
      (s.redq.filter (fun p => p.stack == stack) = [] → ∃ t, exec (.redrx h d a) s = .next t ∧ got t 0 ∧ t.mem = s.mem ∧
        t.redq = s.redq ∧ SameScratch s t) ∧
      (s.redq.filter (fun p => p.stack == stack) = [k] → hd.id = dr.id → hd.gen = dr.gen → k.poisoned = false →
        poisonLine s k.dst width = none →
        (red.2.1 = true → red.2.2 = true → ∃ t, exec (.redrx h d a) s = .next t ∧ got t 1 ∧ k ∉ t.redq.filter (fun p => p.stack == stack) ∧
          t.mem = setBytes s.mem k.dst (red.1.flatMap (leBytes (elemSize ty))) ∧ SameScratch s t) ∧
        (red.2.1 = false ∨ red.2.2 = false → ∃ t, exec (.redrx h d a) s = .next t ∧ got t 65536 ∧ t.mem = s.mem ∧
          k ∉ t.redq.filter (fun p => p.stack == stack))))

/-- R390, R394, R397 to R400, R407, R413: a remote send or reduction by the chain team registers its group and is in flight, counted in class
2; `CLARM` arms its slot with the descriptor as it stands, `CLARM.off` disarms it; the scoreboard instructions set, clear and read;
`CLOSE` gives the closure word of its elements; a team's part of a `COLL` joins the block's operation or begins one. -/
def Obligations.CollectiveInstructions : Prop :=
  ∀ (h : Hdr) (red clr arr : Bool) (op : CollOp) (sb : Fin 4) (t8 : Fin 8) (d a b x : Opnd) (s : State) (e : Env) (c : Ctx)
    (places : List Piece),
    let off := (c.uni 0 a).toNat
    let n := (c.uni 1 b).toNat
    let v := c.uni64 0 a
    let ty := (c.uni 2 x).toNat % 16
    let blk := e.blk
    let bar := if x = .zero then none else some (c.uni 2 x).toNat
    let fr := ctlForm [fA a 1, fC x 1] [] .zero false
    let sf : List Field → List Field → ProbeK → Form := fun srcs dsts pr => ⟨srcs, dsts, .ctl, some 4, pr, false, false⟩
    let fc : Form := ⟨[fA a 1, fB b 1, fC x 1], [fD d 2], .ctl, none, .run, true, false⟩
    let desc := blk.copyOut off 64
    let rd := rdescOf desc
    let g := gdescOf blk.scratch rd.grp
    let cg := gdescOf blk.scratch off
    let board : Nat → W64 := fun k => smGet 0 blk.sb k
    let regs : State → Prop := fun t => ∃ u, t.team? e.who.bid e.who.team = some u ∧ u.v = e.team.v ∧ u.s = e.team.s ∧ u.k = e.team.k
    let counted : State → Nat → Prop := fun t id => ∃ u, t.team? e.who.bid e.who.team = some u ∧
      u.count 2 = e.team.count 2 + 1 ∧ u.ops = e.team.ops ++ [⟨id, 2, false, none⟩]
    let member : State → GDesc → Prop := fun t g => ∃ r ∈ t.groups, r.ctx = e.la.ctx ∧ r.id = g.id ∧ r.q = blk.q ∧
      r.lseq = blk.lseq ∧ r.idx = blk.idx
    let boards : State → (Nat → W64) → Prop := fun t f => ∃ B, t.block? e.who.bid = some B ∧ (∀ k, smGet 0 B.sb k = f k) ∧
      B.scratch = blk.scratch ∧ B.arms = blk.arms
    let same : State → Prop := fun t => t.mem = s.mem ∧ SameScratch s t ∧ regs t
    (Runs fr (issOf h) s e c →
      let i : Instr := if red then .clred h a x else .clsend h a x
      (e.who.team ≠ e.la.hdr.chain → exec i s = .next (takeTrap e cILLOP 0 (e.low c.m) (issOf h).ilen)) ∧
      (e.who.team = e.la.hdr.chain → sendCheck blk off desc red false bar = none → regCheck s e.la blk g = .ok →
        (16 ≤ blk.sends.length ∨ 255 ≤ e.team.count 2 → exec i s = .next (holdAs .limit e.who s)) ∧
        (blk.sends.length < 16 → e.team.count 2 < 255 →
          (if rd.dstK = 1 then sendPlaces s blk e.la rd red = .ok places else places = []) →
          ∃ t B o, exec i s = .next t ∧ same t ∧ counted t s.nextId ∧ member t g ∧ t.block? e.who.bid = some B ∧
            o ∈ B.sends ∧ o.id = s.nextId ∧ o.team = e.who.team ∧ o.red = red ∧ o.desc = desc ∧ o.bar = bar ∧ o.fired = false))) ∧
    (Runs (sf [fA a 1, fB b 1] [] .zero) (issOf h) s e c → n ≤ 15 → sendCheck blk off desc (rd.top == 1) true none = none →
      regCheck s e.la blk g = .ok →
      ∃ t B, exec (.clarm h clr a b) s = .next t ∧ same t ∧ member t g ∧ t.block? e.who.bid = some B ∧ B.sb = blk.sb ∧
        B.arms = blk.arms.filter (fun k => k.n != n) ++ [⟨n, desc, e.rcd.pc, clr, true⟩]) ∧
    (Runs (sf [fB b 1] [] .zero) (issOf h) s e c →
      (15 < n → exec (.clarmOff h b) s = .next (takeTrap e cILLOP 0 (e.low c.m) (issOf h).ilen)) ∧
      (n ≤ 15 → ∃ t B, exec (.clarmOff h b) s = .next t ∧ same t ∧ t.block? e.who.bid = some B ∧ B.sb = blk.sb ∧
        B.arms = blk.arms.map fun k => if k.n = n then { k with armed := false } else k)) ∧
    (Runs (sf [fA a 2] [] .zero) (issOf h) s e c →
      (∃ t, exec (.sbset h sb a) s = .next t ∧ same t ∧ boards t fun k => if k = sb.val then board k ||| v else board k) ∧
      (∃ t, exec (.sbsetClr h sb a) s = .next t ∧ same t ∧ boards t fun k => if k = sb.val then board k &&& ~~~v else board k)) ∧
    (Runs (sf [] [fD d 2] .run) (issOf h) s e c →
      Writes (.sbsetRd h d sb) (sf [] [fD d 2] .run) s e c d 2 (fun _ => (board sb.val).toNat)) ∧
    (Runs fc (issOf h) s e c → ty ≤ 4 → n * elemSize ty ≤ 65536 → off % elemSize ty = 0 →
      (n = 0 ∨ off + n * elemSize ty ≤ blk.scratchLen ∧ poisonUnit blk (off, n * elemSize ty) = none) →
      Writes (.close h d a b x) fc s e c d 2 (fun _ =>
        let r := residue61 ty (elems ty (blk.bytes off (n * elemSize ty)))
        (closureWord ty (elems ty (blk.bytes off (n * elemSize ty))) r.2).toNat)) ∧
    (Runs fr (issOf h) s e c → collCheck blk off bar arr = none → regCheck s e.la blk cg = .ok → (blk.itile t8.val).valid = true →
      e.team.count 2 < 255 →
      (∀ k, blk.colls.find? (fun k => joinColl k e.who.team) = some k → ∃ t B, exec (.coll h op arr t8 a x) s = .next t ∧ same t ∧
        counted t k.id ∧ t.block? e.who.bid = some B ∧ ∃ k' ∈ B.colls, k'.id = k.id ∧ (e.who.team, k.id) ∈ k'.issues ∧
          k'.differs = (k.differs || decide (k.op ≠ op ∨ k.arrival ≠ arr ∨ k.tile ≠ t8.val ∨ k.goff ≠ off ∨ k.bar ≠ bar))) ∧
      (blk.colls.find? (fun k => joinColl k e.who.team) = none →
        blk.collGroups.length < 4 → (e.la.ctx, cg.id) ∉ blk.collGroups → ∃ t B k, exec (.coll h op arr t8 a x) s = .next t ∧
          same t ∧ counted t s.nextId ∧ t.block? e.who.bid = some B ∧ B.colls = blk.colls ++ [k] ∧ k.id = s.nextId ∧ k.op = op ∧
          k.arrival = arr ∧ k.tile = t8.val ∧ k.goff = off ∧ k.bar = bar ∧ k.issues = [(e.who.team, s.nextId)] ∧
          k.started = false ∧ k.group = (e.la.ctx, cg.id)))

/-- R416, R420 to R424, R427 to R430: `BOPEN` opens a bundle in a slot; `STB` lays its bytes in the line's pending version, memory unchanged;
`BCOMMIT` and `BABORT` close the slot and count in class 5; `VSNAP` takes the meridian; `LDV` gives each lane whose line has a version at
or before the snapshot that version's bytes, and clears the bit of the others. -/
def Obligations.BundleInstructions : Prop :=
  ∀ (h : Hdr) (n : Fin 4) (mc : MemCtl) (sx : Bool) (d a b x : Opnd) (kc : Fin 8) (s : State) (e : Env) (c : Ctx) (bun : Bundle)
    (l va line : Nat) (tr : Tr) (p : Phys),
    let v := (c.uni 0 a).toNat
    let sl := e.team.slot n.val
    let bf : List Field → List Field → ProbeK → Form := fun srcs dsts pr => ⟨srcs, dsts, .ctl, some 4, pr, false, false⟩
    let sz := sizeBytes mc.size
    let k := sizeRegs mc.size
    let fs : Form := ⟨[fA a 2, fB b 1, fC x k], [], .vec, none, .own, false, false⟩
    let fl : Form := ⟨[fA a 2, fB b 1], [fD d k, .mask 2 kc.val], .vec, none, .zero, false, false⟩
    let stores := c.resolveLanes c.lanes (c.ea true a b) sz 1 noExtra
    let loads := c.resolveLanes c.lanes (c.ea true a b) sz 0 noExtra
    let mine : List PendLine := s.pendLines.filter fun q => q.bun == bun.id
    let o := p.loc % 128
    let bytes := leBytes sz (c.rdN 2 x k l)
    let slot : State → Slot → Prop := fun t k => ∃ u, t.team? e.who.bid e.who.team = some u ∧ u.slots = e.team.slots.set n.val k ∧
      u.v = e.team.v ∧ u.s = e.team.s ∧ u.k = e.team.k
    let same : State → Prop := fun t => t.mem = s.mem ∧ t.versions = s.versions ∧ SameScratch s t
    (Runs (bf [fA a 1] [] .zero) (issOf h) s e c → v < 2 ^ 24 → sl.open_ = false → sl.cmt = false →
      (∀ k ∈ s.bundles, ¬ (k.dev = devId s ∧ k.ctx = e.la.ctx ∧ k.tag = v % 65536)) →
      (∀ k ∈ s.quars, ¬ (k.bundle = true ∧ k.ctx = e.la.ctx ∧ k.id = v % 65536)) →
      ∃ t k, exec (.bopen h n a) s = .next t ∧ same t ∧ slot t ⟨true, false, 0, 0, v / 65536, v % 65536⟩ ∧
        t.bundles = s.bundles ++ [k] ∧ k.id = s.nextId ∧ k.dev = devId s ∧ k.ctx = e.la.ctx ∧ k.tag = v % 65536 ∧
        k.gen = v / 65536 ∧ k.phase = .open_ ∧ k.homes = [] ∧ k.team = e.who.team ∧ k.slot = n.val ∧ t.pendLines = s.pendLines) ∧
    (sl.open_ = true → teamBundle? s e.blk e.who.team n.val = some bun →
      (Runs fs (issOf h) s e c → c.lanes = [l] → firstBad stores [] = none → goodAccs stores = [(l, va, .mem tr p)] →
        p.kind = .own → line = p.line → homeRemote s (homeOfLine s line) = false → mine.length < 256 →
        (bun.homes ++ [homeOfLine s line]).dedup.length ≤ 16 →
        (s.pendLines.filter fun q => homeOfLine s q.line == homeOfLine s line).length < 65536 →
        ∃ t q, exec (.stb h n mc a b x) s = .next t ∧ same t ∧ q ∈ t.pendLines ∧ q.bun = bun.id ∧ q.line = line ∧
          (∀ j, j < 128 → q.mask.getLsbD j =
            (decide (o ≤ j ∧ j < o + sz) || (mine.find? fun r => r.line == line).any fun r => r.mask.getLsbD j)) ∧
          lineBytes q.data o sz = bytes ∧
          (∀ r ∈ s.pendLines, ¬ (r.bun = bun.id ∧ r.line = line) → r ∈ t.pendLines)) ∧
      (Runs (bf [] [] .zero) (issOf h) s e c → e.team.count 5 < 255 →
        (∃ t, exec (.bcommit h n) s = .next t ∧ same t ∧ slot t { sl with open_ := false, cmt := true } ∧ t.pendLines = s.pendLines ∧
          ∃ k ∈ t.bundles, k = { bun with op := s.nextId, since := s.time, phase := .preparing }) ∧
        (∃ t, exec (.babort h n) s = .next t ∧ same t ∧ slot t { sl with open_ := false, cmt := true } ∧ t.pendLines = s.pendLines ∧
          ∃ k ∈ t.bundles, k = { bun with op := s.nextId, since := s.time, phase := .aborting false }))) ∧
    (sl.open_ = false → Runs (bf [] [] .zero) (issOf h) s e c →
      exec (.bcommit h n) s = .next (takeTrap e cBUNDLE (w64 sl.tag) (e.low c.m) (issOf h).ilen) ∧
      exec (.babort h n) s = .next (takeTrap e cBUNDLE (w64 sl.tag) (e.low c.m) (issOf h).ilen)) ∧
    (Runs (bf [] [fD d 2] .run) (issOf h) s e c → ∃ t u, exec (.vsnap h d) s = .next t ∧ OnlyTeam e s t u ∧
      u.vs = w64 s.time ∧ u.k = e.team.k ∧ (∀ r, u.getS r = c.sAfter d 2 (fun _ => s.time) r) ∧
      (∀ r l, l < 1024 → u.getV r l = c.vAfter d 2 (fun _ => s.time) r l)) ∧
    (Runs fl (issOf h) s e c → opIsS d = false → kc ≠ 0 → firstBad loads [] = none →
      (∀ q ∈ goodAccs loads, offDevice mc.scope q = false ∧ c.ldvLane sz q ≠ .wait ∧ ∀ dt tc m, c.ldvLane sz q ≠ .at_ dt true tc m) →
      ∃ t u, exec (.ldv h mc sx d a b kc) s = .next t ∧ t.team? e.who.bid e.who.team = some u ∧ same t ∧ u.s = e.team.s ∧
        ∀ q ∈ goodAccs loads,
          (∀ dt tc m, c.ldvLane sz q = .at_ dt false tc m → (smGet 0 u.k kc.val).getLsbD q.1 = true ∧
            ∀ r, (∀ r0, c.firstReg d q.1 = some r0 → r0 ≤ r → r < r0 + k →
              u.getV r q.1 = regOf (loadVal mc.size sx (lineBytes dt (accOff q) sz)) (r - r0))) ∧
          (∀ kind, c.ldvLane sz q = .frac kind → (smGet 0 u.k kc.val).getLsbD q.1 = false ∧
            (∀ r, u.getV r q.1 = e.team.getV r q.1) ∧ u.bstat.getLsbD 50 = true))

/-- R70 to R72: each compact arithmetic word executes as its full form does, d both first source and destination of the two-source ones, b a
register or an immediate of 8 bits; the compares write k7. -/
def Obligations.CompactArithmetic : Prop :=
  ∀ (w : CRaw) (d b : Opnd) (s : State) (e : Env) (c : Ctx),
    let iss := cissOf (cHdr w)
    let two : Nat → Form := fun L => arithForm [fA d 1, fB b 1] d 1 L
    let one : Nat → Form := fun L => arithForm [fA b 1] d 1 L
    let three := arithForm [fA b 1, fB .zero 1, fC .zero 1] d 1 6
    let wide := arithForm [fA d 2, fB b 2] d 2 4
    let x : Nat → W32 := c.rd 0 d
    let y : Nat → W32 := c.rd 1 b
    let a : Nat → W32 := c.rd 0 b
    let n : Nat → Nat := fun l => (y l).toNat % 32
    let fx : Nat → FVal := fun l => fp32.decode (x l).toNat
    let fy : Nat → FVal := fun l => fp32.decode (y l).toNat
    let fa : Nat → FVal := fun l => fp32.decode (a l).toNat
    let pk : (FVal → FVal → FVal) → Nat → Nat := fun op l => sideBySide 16 2 fun k =>
      bf16.encode .rne (op (bf16.decode ((x l).toNat / 2 ^ (16 * k) % 2 ^ 16)) (bf16.decode ((y l).toNat / 2 ^ (16 * k) % 2 ^ 16)))
    let ov := ovtab s e.la.ctx
    let cmp : Form → Instr → (Nat → Bool) → Prop := fun f i p => ∃ k : LaneMask, SetsMask i f s e c 7 k ∧
      ∀ l ∈ c.lanes, k.getLsbD l = p l
    cB w = some b → cD w = some d →
    (Runs (two 4) iss s e c →
      Writes (.compactIaddS32 w) (two 4) s e c d 1 (fun l => (x l + y l).toNat) ∧
      Writes (.compactIsubS32 w) (two 4) s e c d 1 (fun l => (x l - y l).toNat) ∧
      Writes (.compactIminS32 w) (two 4) s e c d 1 (fun l => if (y l).slt (x l) then (y l).toNat else (x l).toNat) ∧
      Writes (.compactImaxS32 w) (two 4) s e c d 1 (fun l => if (x l).slt (y l) then (y l).toNat else (x l).toNat) ∧
      Writes (.compactAnd w) (two 4) s e c d 1 (fun l => (x l &&& y l).toNat) ∧
      Writes (.compactOr w) (two 4) s e c d 1 (fun l => (x l ||| y l).toNat) ∧
      Writes (.compactXor w) (two 4) s e c d 1 (fun l => (x l ^^^ y l).toNat) ∧
      Writes (.compactShl w) (two 4) s e c d 1 (fun l => (x l <<< n l).toNat) ∧
      Writes (.compactShr w) (two 4) s e c d 1 (fun l => (x l >>> n l).toNat) ∧
      Writes (.compactSar w) (two 4) s e c d 1 (fun l => ((x l).sshiftRight (n l)).toNat)) ∧
    (Runs wide iss s e c → Writes (.compactIaddS64 w) wide s e c d 2 (fun l => (c.rd64 0 d true l + c.rd64 1 b true l).toNat)) ∧
    (Runs (two 6) iss s e c →
      Writes (.compactImulS32 w) (two 6) s e c d 1 (fun l => (x l * y l).toNat) ∧
      Writes (.compactFaddF32 w) (two 6) s e c d 1 (fun l => fp32.encode .rne (FVal.sum .rne [fx l, fy l])) ∧
      Writes (.compactFsubF32 w) (two 6) s e c d 1 (fun l => fp32.encode .rne (FVal.sum .rne [fx l, (fy l).neg])) ∧
      Writes (.compactFmulF32 w) (two 6) s e c d 1 (fun l => fp32.encode .rne ((fx l).mul (fy l))) ∧
      Writes (.compactFminF32 w) (two 6) s e c d 1 (fun l => fMinMax fp32 false (x l).toNat (y l).toNat) ∧
      Writes (.compactFmaxF32 w) (two 6) s e c d 1 (fun l => fMinMax fp32 true (x l).toNat (y l).toNat) ∧
      Writes (.compactFaddBf16x2 w) (two 6) s e c d 1 (pk fun u v => FVal.sum .rne [u, v]) ∧
      Writes (.compactFmulBf16x2 w) (two 6) s e c d 1 (pk fun u v => u.mul v)) ∧
    (Runs (one 4) iss s e c →
      Writes (.compactMov w) (one 4) s e c d 1 (fun l => (a l).toNat) ∧
      Writes (.compactPopc w) (one 4) s e c d 1 (fun l => ((List.range 32).filter fun j => (a l).getLsbD j).length) ∧
      ∃ val : Nat → Nat, Writes (.compactClz w) (one 4) s e c d 1 val ∧ ∀ l, val l ≤ 32 ∧
        (∀ j, 32 - val l ≤ j → (a l).getLsbD j = false) ∧ (val l < 32 → (a l).getLsbD (31 - val l) = true)) ∧
    (Runs (one 12) iss s e c →
      Writes (.compactFrcp w) (one 12) s e c d 1 (fun l => fp32.encode .rne (FVal.div (.fin false 1 0) (fa l))) ∧
      Writes (.compactFrsq w) (one 12) s e c d 1 (fun l => fp32.encode .rne (fa l).rsqrt) ∧
      Writes (.compactFexp2 w) (one 12) s e c d 1 (fun l => fp32.encode .rne (fa l).exp2)) ∧
    (Runs three iss s e c →
      Writes (.compactCvtF32Bf16lo w) three s e c d 1 (fun l => fp32.encode .rne (bf16.decode ((a l).toNat % 2 ^ 16))) ∧
      Writes (.compactCvtBf16F32 w) three s e c d 1 (fun l =>
        narrowTo bf16 (polBf16 ov) .rne (a l).toNat + 2 ^ 16 * narrowTo bf16 (polBf16 ov) .rne 0)) ∧
    (Runs (one 6) iss s e c →
      Writes (.compactItofS32 w) (one 6) s e c d 1 (fun l =>
        fp32.encode .rne (.fin ((a l).slt 0) (a l).toInt.natAbs 0)) ∧
      Writes (.compactFtoiS32 w) (one 6) s e c d 1 (fun l => ftoiNarrow (polQ8 ov) true 32 .rne (fa l))) ∧
    (let f := maskForm [fA d 1, fB b 1] 7 4
     Runs f iss s e c →
      cmp f (.compactIcmpEq w) (fun l => x l == y l) ∧ cmp f (.compactIcmpLtS32 w) (fun l => (x l).slt (y l))) ∧
    (let f := maskForm [fA d 1, fB b 1] 7 6
     Runs f iss s e c → cmp f (.compactFcmpLt w) (fun l => fcmpHolds .lt (fx l) (fy l))) ∧
    (let f : Form := { arithForm [fA d 1, fB b 1, .mask 2 7] d 1 4 with pass := .vec }
     Runs f iss s e c → Writes (.compactSel w) f s e c d 1 (fun l =>
      if (c.rdMask 2 7).getLsbD l then (x l).toNat else (y l).toNat)) ∧
    (let f := crossForm [fA d 1, fB b 1, fC .zero 1] d 1
     w.imm = true → Runs f iss s e c → Writes (.compactTshflXor w) f s e c d 1 (fun l =>
      let j := l ^^^ (y l).toNat % 1024
      if j < 1024 ∧ e.rcd.k0.getLsbD j then (x j).toNat else 0))

/-- R73 to R75: a pair of two arithmetic bodies of `iadd`, `isub`, `and`, `or`, `xor` and `mov` reads both bodies' sources before either
writes, and issues once. -/
def Obligations.PairReadsBeforeWriting : Prop :=
  ∀ (p q : PBody) (da ba db bb : Opnd) (fa fb : Form) (va vb : Nat → Nat) (s : State) (e : Env) (ca cb : Ctx),
    let body : PBody → Opnd → Opnd → Form → Ctx → (Nat → Nat) → Prop := fun p d b f c val =>
      let x := c.rd 0 d
      let y := c.rd 1 b
      let two := arithForm [fA d 1, fB b 1] d 1 4
      (p.cop = 1 ∧ f = arithForm [fA b 1] d 1 4 ∧ val = fun l => (c.rd 0 b l).toNat) ∨
        (p.cop = 2 ∧ f = two ∧ val = fun l => (x l + y l).toNat) ∨ (p.cop = 3 ∧ f = two ∧ val = fun l => (x l - y l).toNat) ∨
        (p.cop = 7 ∧ f = two ∧ val = fun l => (x l &&& y l).toNat) ∨ (p.cop = 8 ∧ f = two ∧ val = fun l => (x l ||| y l).toNat) ∨
        (p.cop = 9 ∧ f = two ∧ val = fun l => (x l ^^^ y l).toNat)
    p.sub = 0 → q.sub = 0 → pairOk p q = true → cD p.w = some da → cB p.w = some ba → cD q.w = some db → cB q.w = some bb →
    body p da ba fa ca va → body q db bb fb cb vb →
    Runs fa (cissOf (cHdr p.w)) s e ca → Runs fb (cissOf (cHdr q.w)) s e cb →
    ∃ t u, exec (.pair p q) s = .next t ∧ OnlyTeam e s t u ∧
      u = { e.team with v := u.v, s := u.s, x := u.x, records := u.records, splits := u.splits } ∧
      (∀ r l, l < 1024 → u.getV r l = if da = .v ⟨r % 176, Nat.mod_lt r (by decide)⟩ ∧ r < 176 then ca.vAfter da 1 va r l
        else cb.vAfter db 1 vb r l) ∧
      (∀ r, u.getS r = if da = .s ⟨r % 64, Nat.mod_lt r (by decide)⟩ ∧ r < 64 then ca.sAfter da 1 va r else cb.sAfter db 1 vb r) ∧
      (∀ q l, l < 1024 → u.getX q l = e.team.getX q l) ∧
      (Lone e → ∃ r, u.records = [r] ∧ r.pc = e.rcd.pc + 8 ∧ r.k0 = e.rcd.k0)

/-- R5, R465, R478, R490, R496 to R500: reset, bring-up, firmware words, keys, attestation, monitors, row-cache ways, the device and reference
ids, and registers with no behaviour of their own. -/
def Obligations.HostRegisterEvents : Prop :=
  ∀ (s : State) (slot mon stack q off : Nat) (v : W32),
    let image : State → Nat → Nat := fun t i => smGet 0 t.images i
    let keys : State → Nat → Nat → State → Prop := fun s op st t =>
      bar t 0x200000 = w32 (slot % 128 + 2 ^ 8 * op + 2 ^ 24 * st) ∧ t.keyData = 0 ∧
        { t with keys := s.keys, keyData := s.keyData, bar0 := s.bar0 } = s ∧ ∀ o, o / 4 ≠ 0x200000 / 4 → bar t o = bar s o
    let restarted : State → Prop := fun t => { t with bar0 := s.bar0, mons := s.mons } = s ∧
      (monOf t mon).start = s.time
    let src := v.toNat / 2 ^ 16 % 256
    let ways := 64 * stack + (bar s (mscBase stack + 0x20)).toNat % 64
    (Answers .moduleReset s fun t =>
      { t with agenda := [], freeCtr := 0, out := [], images := [], mem := [], mpoison := [], lineKey := [] } = State.reset ∧
      t.images = s.images ∧ ∀ a, byteAt t.mem a = if a < 2 ^ 50 then 0 else byteAt s.mem a) ∧
    (ready s = false → Answers .bringUpReady s fun t => OnlyRegs s t [0x1E0000] ∧
      bar t 0x1E0000 = bar s 0x1E0000 &&& 0x80000000 ||| (if Config.imageVerifies (image s 0) then 0x40000000 else 0x10000000)) ∧
    (bitsOf (bar s 0x1E0000).toNat 29 28 = 1 → off < 4096 → off % 4 = 0 → Answers (.fwload off v) s fun t =>
      { t with images := s.images } = s ∧ ∀ i, image t i =
        if i = 0 then image s 0 * 2 ^ 44 + 2 ^ 32 * (off + 1) + v.toNat else image s i) ∧
    (0 < slot → slot < 128 → keyInUse s slot = false →
      (Answers (.keyLoad slot) s fun t => keys s 1 1 t ∧ t.keys = s.keys.filter (fun k => k.slot != slot) ++ [⟨slot, s.keyData⟩]) ∧
      Answers (.keyClear slot) s fun t => keys s 2 1 t ∧ t.keys = s.keys.filter fun k => k.slot != slot) ∧
    (0 < slot → slot < 128 → keyInUse s slot = true → (Answers (.keyLoad slot) s fun t => keys s 1 2 t ∧ t.keys = s.keys) ∧
      Answers (.keyClear slot) s fun t => keys s 2 2 t ∧ t.keys = s.keys) ∧
    (Answers .attestation s fun t => { t with report := s.report, bar0 := s.bar0 } = s ∧ bar t 0x2000E0 = 3 ∧
      (∀ i, i < 8 → numAt t.report (4 * i) 4 = (bar s (0x2000C0 + 4 * i)).toNat) ∧ numAt t.report 32 8 = s.time % 2 ^ 64 ∧
      ∀ i j, i < 4 → j < 32 → byteAt t.report (48 + 32 * i + j) = Config.imageDigest i j) ∧
    (ready s = true → mon < 64 → Answers (.svctl mon v) s fun t => restarted t ∧
      bar t (svBase mon) = if sourceOk src (v.toNat % 512) then v &&& 0x80FF01FF else v &&& 0x00FF01FF) ∧
    (ready s = true → mon < 64 → 1 ≤ v.toNat → v.toNat ≤ 1000000 → Answers (.svival mon v) s fun t => restarted t ∧
      bar t (svBase mon + 4) = v) ∧
    (ready s = true → stack < 8 → v.toNat % 16 ≤ 8 → ctxResident s (ways % 64) = false →
      rowWaysTotal s stack - smGet 0 s.rowWays ways + v.toNat % 16 ≤ 12 → Answers (.mscways stack v) s fun t =>
        { t with rowWays := s.rowWays, rowCache := s.rowCache } = s ∧
        ∀ k, smGet 0 t.rowWays k = if k = ways then v.toNat % 16 else smGet 0 s.rowWays k) ∧
    (ready s = true → portsUp s = 0 → Answers (.lkdevid v) s fun t =>
      { t with lockSince := s.lockSince, bar0 := s.bar0 } = s ∧ devId t = v.toNat % 1024) ∧
    (ready s = true → portsUp s ≠ 0 → exec (.lkdevid v) s = .next s) ∧
    (ready s = true → Answers (.lkmctl v) s fun t =>
      { t with lockSince := s.lockSince, bar0 := s.bar0 } = s ∧ lkRef t = v.toNat % 1024 ∧ t.lockSince = lockPend) ∧
    (Answers (.registerWrite 0x1E0008 v) s fun t => OnlyRegs s t [0x1E0008] ∧ bar t 0x1E0008 = v) ∧
    (ready s = true → stack < 8 → Answers (.registerWrite (mscBase stack) v) s fun t =>
      OnlyRegs s t [mscBase stack] ∧ bar t (mscBase stack) = v &&& 0xFFFFF000) ∧
    (ready s = true → q < 64 → Answers (.registerWrite (qBase q + 0x30) v) s fun t =>
      OnlyRegs s t [qBase q + 0x30] ∧ bar t (qBase q + 0x30) = v) ∧
    (off % 4 ≠ 0 → exec (.registerWrite off v) s = .next s)

/-- R92, R93, R94, R102, R114, R115: a context enabled or killed, a queue enabled, published to and restarted. -/
def Obligations.ContextAndQueueEvents : Prop :=
  ∀ (s : State) (c q : Nat) (v : W32),
    let legal : Bool := 12 ≤ v.toNat % 32 && v.toNat % 32 ≤ 26 && 4 ≤ (bar s (qBase q + 0x28)).toNat % 16 &&
      (bar s (qBase q + 0x28)).toNat % 16 ≤ 14
    let ctl := bar s (qBase q + 8)
    let stat := bar s (qBase q + 0xC)
    ready s = true →
    (c < 64 → ctxEn s c = false → Answers (.contextEnable c v) s fun t =>
      bar t (ctxBase c) = v &&& 0x47FFFFFF ||| 0x80000000 ∧ ovtab t c = 0x15 ∧ (∀ k, k < 8 → smGet 511 t.psel (64 * k + c) = 511) ∧
      (∀ e ∈ t.tlb, e.ctx ≠ c) ∧ t.launches = s.launches ∧ t.blocks = s.blocks) ∧
    (c < 64 → ctxEn s c = true → Answers (.contextKill c) s fun t => ctxEn t c = false ∧ (∀ e ∈ t.tlb, e.ctx ≠ c) ∧
      (∀ l ∈ t.launches, l.ctx = c → l.state = .complete) ∧
      (∀ l ∈ s.launches, l.ctx = c → l.pid ≠ 0 → ∀ b ∈ t.blocks, ¬ (b.q = l.q ∧ b.lseq = l.lseq)) ∧
      ∀ k, k < 64 → queueCtx s k = c → (bar s (qBase k + 8)).getLsbD 31 = true → 0xC0000000 &&& bar t (qBase k + 0xC) = 0xC0000000) ∧
    (q < 64 → ctl.getLsbD 31 = false → v.getLsbD 31 = true → Answers (.queueEnable q v) s fun t =>
      bar t (qBase q + 8) = v &&& 0x003F3F1F ||| (if legal then 0x80000000 else 0) ∧
      (occupancy s q = 0 → OnlyRegs s t [qBase q + 8, qBase q + 0xC])) ∧
    (q < 64 → ctl.getLsbD 31 = true → exec (.queueEnable q v) s =
      .next (setBar s (qBase q + 8) (ctl &&& 0x003F001F ||| v &&& 0x80003F00))) ∧
    (q < 64 → Answers (.qwptr q v) s fun t => bar t (qBase q + 0x10) = v ∧
      (v = bar s (qBase q + 0x14) → OnlyRegs s t [qBase q + 0x10]) ∧
      (queueRuns s q = true → ringSize s q / 16 < (v - bar s (qBase q + 0x14)).toNat → bar t (qBase q + 0xC) = 0x80100000)) ∧
    (q < 64 → stat.getLsbD 31 = true → occupancy s q = 0 → Answers (.queueRestart q) s fun t =>
      bar t (qBase q + 0xC) = stat &&& 0x7FFFFFFF ∧ ∀ l ∈ t.launches, l.q = q → l.pid ≠ 0)

/-- R46, R94, R95, R97 to R101, R103, R105, R112 to R114: a packet that starts advances QRPTR by its length; a packet that acts at once
completes with its record written at QCWIDX where the ring has room and its queue's writes are complete, and otherwise while the record is
held back memory shows the packet's own write; `PIN`, `STAGE`, `WAIT` and `LAUNCH` stay outstanding until their work is done. -/
def Obligations.QueuePackets : Prop :=
  ∀ (s : State) (q : Nat) (p : Pkt) (la : Launch) (va : Nat),
    let ctx := queueCtx s q
    let u := p.unit
    let pages := rangePages p.body
    let fresh := ∀ k ∈ s.packets, k.id ≠ s.nextId
    let clear := fresh ∧ occupancy s q = p.len ∧ mayPost s q = true ∧ ∀ o ∈ s.posts, o.q ≠ q
    let taken : State → Prop := fun t => bar t (qBase q + 0x14) = w32 (qRptr s q + p.len)
    let recorded : State → Prop := fun t => bar t (qBase q + 0x2C) = bar s (qBase q + 0x2C) + 1
    let done : State → Prop := fun t => taken t ∧ recorded t ∧ t.packets = s.packets
    let stands : Nat → State → Prop := fun op t => taken t ∧ ∃ k ∈ t.packets, k.id = s.nextId ∧ k.q = q ∧ k.op = op ∧ k.done = false
    let wrote : List Byte → Nat → State → Prop := fun l at_ t => taken t ∧ (mayPost s q = false →
      t.mem = (vaWrite s ctx at_ l).mem ∧ t.lines = (vaWrite s ctx at_ l).lines)
    let starts : Nat → Prop := fun op => startOf s q op = some p
    let staged := (p.body.map wsOf).flatMap fun w => (wsPages [w]).map fun va => (va, w.hint)
    q < 64 →
    (starts 0 → clear → Answers (.nopPacket q) s done) ∧
    (starts 8 → clear → Answers (.barrier q) s done) ∧
    (starts 13 → clear → Answers (.fencePacket q) s done) ∧
    (starts 14 → clear → ovtabLegal (bytesOf u 4 4) = true → Answers (.ovload q) s fun t => done t ∧
      ovtab t (byteOf u 0) = w32 (bytesOf u 4 4)) ∧
    (starts 6 → Answers (.signal q) s (wrote
      (leBytes 8 (if unitAddr u % 8 = 1 then vaNum s ctx (unitAddr u / 8 * 8) 8 + unitVal u else unitVal u)) (unitAddr u / 8 * 8))) ∧
    (starts 12 → Answers (.timestamp q) s (wrote (leBytes 8 s.time) (unitAddr u))) ∧
    (starts 9 → bytesOf u 8 4 = 0 → mayPost s q = false → Answers (.drain q) s fun t => taken t ∧
      ∀ l ∈ t.msc, ctxLine s ctx l.line = true → l.dirty = false) ∧
    (starts 4 → (mappedPages s ctx pages).2 = false → (pages.map (pageKey ctx)).Nodup →
      (∀ e ∈ s.evicts, e.ctx = ctx → ∀ g ∈ pages, g / 65536 ∉ e.pages) →
      Answers (.unpin q) s fun t => taken t ∧
        ∀ g ∈ pages, smGet 0 t.pinHolds (pageKey ctx g) = smGet 0 s.pinHolds (pageKey ctx g) - 1) ∧
    (starts 5 → unitPages u = [va] → ∀ tr m, findLeaf s ctx va = some tr → (tr.phys s va).kind = .own →
      movePage s ctx tr.vbase (byteOf u 12) (byteOf u 13) (byteOf u 14) = some m →
      Answers (.movehome q) s fun t => bar t (qBase q + 0x14) = w32 (qRptr m q + p.len) ∧
        (mayPost m q = false → t.mem = m.mem ∧ t.lines = m.lines)) ∧
    (starts 2 → (stagePlaced s ctx staged = none → fresh → Answers (.stage q) s (stands 2)) ∧
      ((stagePlaced s ctx staged).isSome = true → clear → Answers (.stage q) s done)) ∧
    (starts 3 → pages = [va] → ∀ tr, findLeaf s ctx va = some tr → pageHolds s (pageKey ctx va) < 65535 →
      (tr.host = true → tr.pin = true) → clear → Answers (.pin q) s fun t => done t ∧
        smGet 0 t.pinHolds (pageKey ctx va) = smGet 0 s.pinHolds (pageKey ctx va) + 1) ∧
    (starts 7 → (depMet s q (unitAddr u, unitVal u) = false → fresh → Answers (.waitPacket q) s (stands 7)) ∧
      (depMet s q (unitAddr u, unitVal u) = true → clear → Answers (.waitPacket q) s done)) ∧
    (∀ k : Packet, s.packets = [k] → k.q = q → k.op = 7 → k.done = false →
      depMet s q (unitAddr (k.body.getD 0 0), unitVal (k.body.getD 0 0)) = true → mayPost s q = true → (∀ o ∈ s.posts, o.q ≠ q) →
      Answers (.dependencyMet q) s fun t => recorded t ∧ t.packets = []) ∧
    (starts 1 → unstarted? s q p = none → Answers (.launch q) s fun t => stands 1 t ∧
      bar t (qBase q + 0x34) = w32 (qLseq s q + 1) ∧ ∃ l ∈ t.launches, l.q = q ∧ l.lseq = qLseq s q ∧ l.pid = s.nextId ∧
        l.ctx = ctx ∧ l.hdr = hdrOf p.body ∧ l.state = .staging) ∧
    (starts 10 → byteOf u 9 = 0 → namedLaunch s u = some la → resumable s la = true →
      (∃ v ∈ s.saved, v.blk.q = la.q ∧ v.blk.lseq = la.lseq) → Answers (.resume q) s fun t => taken t ∧
        (∃ l ∈ t.launches, l.q = la.q ∧ l.lseq = la.lseq ∧ l.state = .running ∧ l.stop = none) ∧
        ∀ v ∈ t.saved, v.blk.q = la.q → v.blk.lseq = la.lseq → v.hold = false) ∧
    (starts 10 → byteOf u 9 = 1 → namedLaunch s u = some la → resumable s la = true → Answers (.resumeAbandon q) s fun t =>
      taken t ∧ (∀ l ∈ t.launches, l.q = la.q → l.lseq = la.lseq → l.state = .complete ∧ l.status = 7) ∧
      ∀ b ∈ t.blocks, ¬ (b.q = la.q ∧ b.lseq = la.lseq)) ∧
    (let halts := preemptBlocks s la (byteOf u 9) (byteOf u 10)
     starts 11 → namedLaunch s u = some la → la.hdr.pre = true → la.state = .running → la.stop = none → halts ≠ [] →
      Answers (.preempt q) s fun t => taken t ∧
        (∃ l ∈ t.launches, l.q = la.q ∧ l.lseq = la.lseq ∧ ∃ st, l.stop = some st ∧ st.reason = 0x3F ∧
          st.hold = decide (2 ≤ byteOf u 9)) ∧
        ∀ b ∈ t.blocks, b.bid ∈ halts → ∀ tm ∈ b.teams, tm.halted = true) ∧
    (∀ o : Post, s.posts.find? (fun k => k.q == q) = some o → mayPost s q = true → occupancy s q = 0 →
      Answers (.completionRecordPost q) s fun t => recorded t ∧ t.posts = s.posts.filter fun k => !(k == o))

/-- R105 to R111, R246, R9: working-set lists held, pages moved, host translations asked for, answered and invalidated, operating points
raised, blocks placed with every lane at the entry in record 0, and placement priorities aged. -/
def Obligations.PageAndPlacementEvents : Prop :=
  ∀ (s : State) (q n ctx vpage tier ilv stack slot code pasid frame core die va : Nat) (la : Launch) (tr : Tr) (r : PageReq),
    let now := s.time
    let becomes : State → (Launch → Prop) → Prop := fun t P => ∃ l ∈ t.launches, l.q = q ∧ l.lseq = n ∧ P l
    let calm := ∀ k ∈ s.preqs, k.phase ≠ .waiting
    let i := if tier = 0 then ilv else 0
    let same : PageReq → Prop := fun k =>
      k.ctx = r.ctx ∧ k.page = r.page ∧ k.launch = r.launch ∧ k.q = r.q ∧ k.key = r.key ∧ k.killed = false
    let asks := r.launch = true ∧ s.launch? r.q r.key = some la ∧ la.state = .staging ∧ la.pid = 0
    let fails : Nat → State → Prop := fun st t => ∃ l ∈ t.launches, l.q = r.q ∧ l.lseq = r.key ∧ l.status = st
    let inSlot := s.preqs.find? (fun k => k.slot == slot && k.phase == .pri) = some r
    let late := r.since + (bar s 0x2000000).toNat % 65536 * 1000000 < now
    let byAts := s.preqs.find? (fun k => k.slot == slot && k.phase == .ats) = some r
    let stagingOf := s.launch? q n = some la ∧ la.state = .staging ∧ la.staged = false ∧ la.status = 0 ∧ la.held = 0 ∧ la.pid ≠ 0 ∧
      wsGranted s la.ctx la.ws = true ∧ fastNeed s la.ctx la.ws ≤ 2 ^ 23 ∧ wsPlaced s la.ctx la.ws = true ∧ everPlaced s la = true
    (stagingOf → wsPages la.ws = [] → Answers (.workingSetStaging q n) s fun t => becomes t fun l =>
      l.state = .eligible ∧ l.eligAt = now ∧ l.code = imageOf s) ∧
    (stagingOf → wsPages la.ws = [va] → findLeaf s la.ctx va = some tr → pageHolds s (pageKey la.ctx va) < 65535 →
      (tr.host = true → tr.pin = true) → Answers (.workingSetStaging q n) s fun t =>
        smGet 0 t.wsHolds (pageKey la.ctx va) = smGet 0 s.wsHolds (pageKey la.ctx va) + 1) ∧
    (s.packets = [] → findLeaf s ctx (vpage * 65536) = some tr → (tr.phys s (vpage * 65536)).kind = .own → tier ≤ 1 → i ≤ 2 →
      stack ≤ 7 → pageBusy s ctx tr = false → (tier = 1 → mayGoOut s ctx tr = true) →
      ∀ pa, freeFrame s tr.size tier i stack = some pa →
        exec (.pageMove ctx vpage tier ilv stack) s = .next (moveTo s ctx tr pa tier i)) ∧
    (findLeaf s ctx (vpage * 65536) = some tr → pageBusy s ctx tr = true → exec (.pageMove ctx vpage tier ilv stack) s = .next s) ∧
    (inSlot → calm → r.killed = false → code = 0 → Answers (.pageRequestAnswer slot code) s fun t => r ∉ t.preqs ∧
      ∃ k ∈ t.preqs, same k) ∧
    (inSlot → calm → r.killed = true → Answers (.pageRequestAnswer slot code) s fun t =>
      bar64 t (ctxBase r.ctx + 0x18) = (bar64 s (ctxBase r.ctx + 0x18) + 1) % 2 ^ 64) ∧
    (inSlot → asks → r.killed = false → code ≠ 0 → Answers (.pageRequestAnswer slot code) s (fails (2 + 2 ^ 12 * (code % 16)))) ∧
    (inSlot → asks → r.killed = false → late → Answers (.pageRequestTimeout slot) s (fails 0xF002)) ∧
    (inSlot → ¬ late → exec (.pageRequestTimeout slot) s = .next s) ∧
    (byAts → r.killed = false → r.launch = false → (∀ k ∈ s.packets, k.id ≠ r.key) → frame < 2 ^ 34 →
      exec (.atsTranslationCompletion slot frame) s = .next (editLeaf (dropReq s r) r.ctx (r.page * 65536)
        fun v => putField (putField v 49 16 frame) 12 12 1)) ∧
    (byAts → r.killed = false → calm → (slotsUsed s).length < 256 → 2 ^ 34 ≤ frame →
      Answers (.atsTranslationCompletion slot frame) s fun t => t.out = s.out ++ [.pri (ctxPasid s r.ctx) r.page] ∧
        ∃ k ∈ t.preqs, same k ∧ k.phase = .pri ∧ k.slot < 256 ∧ k.since = now) ∧
    ((List.range 64).filter (fun c => ctxEn s c && ctxPasid s c == pasid) = [ctx] → findLeaf s ctx va = some tr →
      tr.host = true → tr.pin = true → Answers (.atsInvalidation pasid va 1) s fun t => t.out = s.out ++ [.atsDone pasid va 1] ∧
        ∀ e ∈ t.tlb, e.ctx = ctx → ¬ (e.vbase / 65536 ≤ tr.vbase / 65536 ∧ tr.vbase / 65536 < e.vbase / 65536 + e.pages)) ∧
    (die ≤ 1 → Answers (.oppointStable die) s fun t => { t with die0 := s.die0, die1 := s.die1 } = s ∧
      (∀ l ∈ s.launches, awaitsPlace s l = true → min l.hdr.oppt (dieAt s die).limit ≤ (dieAt t die).point) ∧
      (dieAt t die).point ≤ max (dieAt s die).point (dieAt s die).limit ∧ dieAt t (1 - die) = dieAt s (1 - die)) ∧
    (s.launch? q n = some la → neverPlaced s la = false → unitLen la.hdr = 1 → goesFirst s la [core] = false →
      wantsPlace la = true → coreFits s core (Reserve.mine core q n) (needOf la.hdr) = true → pointReady s la core = true →
      (reserveRecord s la (la.hdr.linear la.nextIdx)).isSome = true → Answers (.blockPlacement q n [core]) s fun t =>
        (becomes t fun l => l.nextIdx = la.nextIdx + 1 ∧ l.state = .running) ∧
        ∃ b ∈ t.blocks, b.bid = s.nextId ∧ b.q = q ∧ b.lseq = n ∧ b.idx = la.hdr.linear la.nextIdx ∧ b.site = .core core ∧
          b.scratch = [] ∧ (s.reserves = [] → b.teams.length = la.hdr.ext 1) ∧ ∀ m ∈ b.teams, m.lanes = la.hdr.ext 0 ∧
            m.wid0 = la.hdr.wid b.idx m.idx ∧ m.drawn = la.hdr.budget * la.hdr.ext 0 ∧ m.v = [] ∧ m.k = [] ∧ m.x = [] ∧
            ∃ x, m.records = [x] ∧ x.num = 0 ∧ x.pc = la.hdr.entry ∧ x.k0 = firstLanes (la.hdr.ext 0) ∧ x.alloc = la.hdr.budget) ∧
    (s.launch? q n = some la → awaitsPlace s la = true → la.waitSince + 1000000 * (la.waited + 1) ≤ now → la.prio + la.waited < 63 →
      Answers (.placementAging q n) s fun t => becomes t fun l => l.waited = la.waited + 1)

/-- R76, R128, R137, R138, R152, R235, R236, R253, R258, R260, R269, R469: values and acknowledgements arrive, those of host
memory by a flushing read, waits end, claims are granted or
deadlocked, run-ahead ends, and halted blocks are captured and restored. -/
def Obligations.WaitAndCaptureEvents : Prop :=
  ∀ (s : State) (bid team sub core q lseq idx : Nat) (key : RegKey) (b : Block) (u : Team) (r : Record) (c : ClaimReq) (la : Launch)
    (v : Saved),
    let now := s.time
    let here := s.block? bid = some b ∧ b.team? team = some u
    let after : State → (Team → Prop) → Prop := fun t P => ∃ u', t.team? bid team = some u' ∧ P u'
    let woken : State → Prop := fun t => after t fun u' => u'.rec? sub = some { r with wait := .ready, readySince := now, aged := false }
    let released := ∃ x ∈ u.records, ∃ sc, x.wait = .release sc
    let cold : Option Launch := s.launch? q lseq
    (here → key ∉ tmvKeys b team → Answers (.readyBitSet bid team key) s fun t => after t fun u' => key ∉ u'.unready ∧
      u'.v = u.v ∧ u'.s = u.s ∧ u'.k = u.k ∧ u'.x = u.x ∧ ∀ x ∈ u'.records, x.wait ≠ .register) ∧
    (here → Answers (.homeAcknowledgement bid team) s fun t => after t fun u' =>
      u.gwct ≤ u'.gwct ∧ u'.v = u.v ∧ u'.s = u.s ∧ u'.k = u.k ∧
      (released → u'.unacked = [] ∧ u'.lastHost = 0 ∧
        (u.lastHost ≠ 0 → t.out = s.out ++ [.flush (ctxPasid s (queueCtx s b.q)) u.lastHost])) ∧
      (¬ released → u'.unacked = u.unacked.filter hostLine ∧ u'.lastHost = u.lastHost ∧ t.out = s.out)) ∧
    (here → u.rec? sub = some r → (∀ sc, r.wait = .release sc → releaseDone u now sc = true → Answers (.gwctPassed bid team sub) s woken) ∧
      (∀ x, r.wait = .pause x → x ≤ now → Answers (.pauseEnd bid team sub) s woken) ∧
      (∀ x, r.wait = .pause x → now < x → Answers (.pauseEnd bid team sub) s fun t => after t fun u' => u'.rec? sub = some r) ∧
      (∀ x others, r.wait = .yield x others → (x ≤ now ∨ others.all (hasIssued s r.issuedAt) = true) →
        Answers (.yieldEnd bid team sub) s woken) ∧
      (mayIssue u r = true → r.readySince + cyclesNs s b 1024 ≤ now → Answers (.schedulerAging bid team sub) s fun t =>
        after t fun u' => u'.rec? sub = some { r with aged := true })) ∧
    (here → u.halted = true → u.hostWait ≠ [] → Answers (.pcieCompletionTimeout bid team) s fun t =>
      t.freeCtr = s.freeCtr + u.hostWait.length ∧ after t fun u' => u'.hostWait = [] ∧
        (∀ k ∈ u'.unready, k ∈ u.unready ∧ ∀ p ∈ u.hostWait, p.1 ≠ k) ∧
        ∀ n l m, u.hostWait = [(.v n, m)] → l < u.lanes → l < 1024 → m.getLsbD l = true → u'.getV n l = Config.lostRead s.freeCtr l) ∧
    (s.claims.find? (fun k => k.core == core) = some c → c.need ≤ poolFree s core → c.who = ⟨bid, team, sub⟩ → here →
      u.rec? sub = some r → (∀ q ∈ u.records, q.num ≠ sub → q.pc ≠ c.next) → Answers (.claimGrant core) s fun t => c ∉ t.claims ∧ after t fun u' =>
        u'.drawn = u.drawn + c.n * countLanes r.k0 u.lanes ∧
        u'.rec? sub = some { r with alloc := r.alloc + c.n, wait := .ready, pc := c.next, readySince := now, aged := false }) ∧
    (s.claims.find? (fun k => k.core == core) = some c → poolFree s core < c.need →
      (∀ p ∈ coreRecords s core, p.2.2.wait.isClaim = true ∧ p.2.1.halted = false) → Answers (.deadlk core) s fun t =>
        ∀ l ∈ s.launches, l.stop = none → (∃ p ∈ coreRecords s core, p.1.q = l.q ∧ p.1.lseq = l.lseq) →
          ∃ l' ∈ t.launches, l'.q = l.q ∧ l'.lseq = l.lseq ∧ l'.state = .stopping ∧ ∃ st, l'.stop = some st ∧ st.cause = 0x07) ∧
    (∀ p, here → u.probe = some p → probeOver s b p = true → Answers (.probeEnd bid team) s fun t => after t fun u' =>
      u' = { u with records := p.ckpt.records, splits := p.ckpt.splits, k := p.ckpt.k, s := p.ckpt.s, v := p.ckpt.v, x := p.ckpt.x,
                    vs := p.ckpt.vs, probe := none, halted := true }) ∧
    (∀ st, cold = some la → la.stop = some st → st.reason = 0 →
      (∀ k ∈ s.blocks, k.bid ∈ la.halting → captureReady s la k = true) → Answers (.capture q lseq) s fun t =>
        (∃ l ∈ t.launches, l.q = q ∧ l.lseq = lseq ∧ l.state = .stopped ∧ l.stop = none ∧ l.halting = []) ∧
        (∀ k ∈ t.blocks, k.bid ∉ la.halting) ∧
        (s.block? bid = some b → bid ∈ la.halting → b.q = q → b.lseq = lseq → ∃ w ∈ t.saved, w.blk.bid = bid ∧ w.hold = true ∧
          w.reason = st.cause ∧ w.blk.scratch = b.scratch)) ∧
    (cold = some la → neverPlaced s la = false → la.state = .running → savedUnit s la idx = [v] → v.hold = false →
      goesFirst s la [core] = false → coreFits s core (Reserve.mine core la.q la.lseq) (savedNeed v.blk) = true →
      pointReady s la core = true → readRecord s la v = .ok v →
      (∀ k ∈ s.blocks, k.site = .core core → k.mat.owned = false) → v.blk.copies = [] → (∀ k ∈ s.blocks, k.bid ≠ v.blk.bid) →
      (v.blk.teams.map Team.idx).Nodup →
      (∃ m ∈ v.blk.teams, m.left = false ∧ ∃ x, m.records = [x] ∧ x.k0 ≠ 0) → Answers (.restore q lseq idx [core]) s fun t =>
        (∀ w ∈ t.saved, w.blk.bid ≠ v.blk.bid) ∧ ∃ k ∈ t.blocks, k.bid = v.blk.bid ∧ k.site = .core core ∧ k.idx = v.blk.idx ∧
          k.scratch = v.blk.scratch)

/-- R18, R324, R346 to R357: matrix instructions retire, products fed by a buffer acquire its slots in the order of their tags, attention
instructions enter a sequence, take groups and leave it, and evictions claim a sequence, decide and end. -/
def Obligations.MatrixAndAttentionEvents : Prop :=
  ∀ (s m : State) (bid id ev : Nat) (b : Block) (la : Launch) (o : MatOp) (a : AttOp) (e : Evict) (h : Hdr) (q : QFmt) (t : Fin 8)
    (x y : Opnd) (c : CBuf) (k : AcqSlot),
    let here := s.block? bid = some b ∧ s.launch? b.q b.lseq = some la ∧ engineRuns la b = true
    let blockIs : State → (Block → Prop) → Prop := fun s' P => ∃ B, s'.block? bid = some B ∧ P B
    let holds : Nat → Prop := fun team => ∃ u, s.team? bid team = some u ∧ u.live ≠ 0
    let d := adescOf a.desc
    let i := a.first + a.groups / 2
    let r := a.groups % 2
    let grouped : State → Prop := fun s' => blockIs s' fun B => ∃ a', B.att? id = some a' ∧ a'.groups = a.groups + 1
    let buf := offOf o.vb
    let slot : AcqSlot :=
      ⟨o.id, o.team, o.pc, o.ov, tagAt b c c.head, t.val, q, true, false, offOf o.vc, c.slot c.head, buf⟩
    let comes := here ∧ engineFirst s b = none ∧ matHead b = some o ∧ collHolds b o = false ∧ o.ins = .mmqaCb h q t x y
    let feeds := comes ∧ slotOf b o = none ∧ getCb b buf = some c ∧ c.tags ≠ noTags ∧ 32 * recLen q ≤ c.ssize ∧ 0 < c.filled ∧
      b.cbq = [] ∧ poisonUnit b (buf, 32) = none ∧ poisonUnit b (c.tags + 4 * c.head, 4) = none
    let goes := comes ∧ slotOf b o = some k
    let entered : List AcqSlot := b.mat.acq.map fun j => if j = k then { j with stalled := false } else j
    let done : Block → Prop := fun B => ∀ k ∈ B.mat.queue, k.id = o.id → k.fin = true
    let tiles : Block → Prop := fun B => ∀ k m n, B.tile k m n = b.tile k m n
    let first : Prop := here ∧ (b.mat.acq.head?.any AcqSlot.applied) = false
    let both : (Block → Prop) → Prop := fun P => (Answers (.slotAcquire bid) s fun s' => blockIs s' P) ∧
      Answers (.matrixExecute bid) s fun s' => blockIs s' P
    let pl := b.plane k.plane
    let A := qBits k.q
    let wi : Nat → Nat → Int := fun m j => readInt true pl.tag (numAt pl.img (m * (4 * pl.tag)) (4 * pl.tag) / 2 ^ (pl.tag * j))
    let xi : Nat → Nat → Int := fun n j => readInt true A (numAt b.scratch (k.slotOff + n * recLen k.q) (4 * A) / 2 ^ (A * j))
    let P : Nat → Nat → Int := fun m n => ((List.range 32).map fun j => wi m j * xi n j).sum
    (s.block? bid = some b → b.mat.queue.find? (fun k => k.fin && oldestOp b k.team 1 == some k.id) = some o →
      Answers (.matrixRetire bid) s fun s' => Retired s s' bid o.team o.id 1 none ∧
        (holds o.team → blockIs s' fun B => B.mat.queue = b.mat.queue.filter (fun k => k.id != o.id))) ∧
    (feeds → Answers (.slotAcquire bid) s fun s' => blockIs s' fun B => B.mat.acq = b.mat.acq ++ [slot] ∧
      B.mat.queue = b.mat.queue ∧ tiles B) ∧
    (goes → blockFate b k.tile k.tag = .hold → Answers (.slotAcquire bid) s fun s' => blockIs s' fun B => done B ∧
      B.mat.acq = entered ∧ tiles B) ∧
    (goes → blockFate b k.tile k.tag = .apply → Answers (.slotAcquire bid) s fun s' => blockIs s' fun B => B.mat.acq = entered ∧
      tiles B ∧ B.mat.queue = b.mat.queue.map fun j => if j.id = o.id then { j with started := true } else j) ∧
    (goes → blockFate b k.tile k.tag = .stall → exec (.slotAcquire bid) s = .next s) ∧
    (goes → b.teams ≠ [] → la.stop = none → ∀ cause w, blockFate b k.tile k.tag = .stop cause w → Answers (.slotAcquire bid) s fun s' =>
      ∃ l ∈ s'.launches, l.q = b.q ∧ l.lseq = b.lseq ∧ l.state = .stopping ∧ ∃ st, l.stop = some st ∧ st.cause = cause ∧
        st.pc = o.pc ∧ st.trapa = w64 w) ∧
    (first → nextBlock b = some k → applyBad b k = none → both fun B =>
      B.mat.acq = (b.mat.acq.map fun j => if j = k then { j with applied := true } else j) ∧
      (tileStat B.mat.stat k.tile).nb = ((tileStat b.mat.stat k.tile).nb + 1) % 65536 ∧ (tileStat B.mat.stat k.tile).dirty = true ∧
      (2 ≤ pl.tag → pl.tag ≤ 8 → ∀ i m n, m < 256 → n < 32 → B.tile i m n = if i = k.tile then
        w32 (msaElem (polFp32 k.ov) (b.tile i m n).toNat (P m n) (byteAt b.scratch (k.sw + 256 * k.plane + m)).toNat
          (byteAt b.scratch (k.slotOff + n * recLen k.q + 4 * A)).toNat)
        else b.tile i m n)) ∧
    (here → b.mat.acq.head? = some k → k.applied = true → getCb b k.bufOff = some c → c.acq ≠ 0 → b.cbq = [] → both fun B =>
      B.mat.acq = b.mat.acq.tail ∧ B.mat.queue = b.mat.queue ∧ tiles B) ∧
    (first → nextBlock b = none → matHead b = some o → o.started = true → both fun B => done B ∧ B.mat.acq = b.mat.acq ∧ tiles B) ∧
    (here → b.att? id = some a → a.entered = false → seqEnter s b la a = .ok (some m) →
      Answers (.sequenceEntry bid id) s fun s' => s' = m ∧ blockIs s' fun B => ∃ a', B.att? id = some a' ∧ a'.entered = true ∧
        a'.groups = a.groups ∧ ∀ l, resolveRange s b la d.seq 128 0 = .ok l →
          let sq := seqDescOf (homePieces s b l)
          a'.npages = sq.npages ∧ a'.pages.length = min (a.first + a.count) sq.npages - a.first) ∧
    (here → b.att? id = some a → a.entered = true → a.groups < a.total →
      ((if attKind a.ins = .scores then attScores s b la a i r else attValues s b la a i r) = .ok m →
        Answers (.attentionGroup bid id) s fun s' => s' = m.modAtt bid id fun k => { k with groups := k.groups + 1 }) ∧
      (attKind a.ins = .scores → a.npages ≤ i → b.objs = [] → d.pitch % 4 = 0 → Answers (.attentionGroup bid id) s fun s' =>
        grouped s' ∧ s'.mem = s.mem ∧ blockIs s' fun B => ∀ row j, row < d.rows → j < 32 →
          numAt B.scratch (d.soff + row * d.pitch + 4 * ((i - a.first) * 64 + 32 * r) + 4 * j) 4 = 0xFF800000)) ∧
    (here → b.att? id = some a → a.entered = true → a.total ≤ a.groups → lowerBusy (dropLeased s a.lines) b la d.seq = .ok m →
      Answers (.attentionExit bid id) s fun s' => Retired s s' bid a.team id 4 none ∧
        (holds a.team → blockIs s' fun B => ∀ k ∈ B.atts, k.id ≠ id)) ∧
    (s.evicts.find? (fun k => k.id == ev) = some e →
      let sq := seqDescOf (vaRead s la.ctx e.seq 128)
      let place := (seqPlace s b la.ctx e.seq).getD 0
      let held := seqRanges sq e.seq (if (siteTranslate s b la.ctx e.seq).isSome then pageList s la.ctx sq else [])
      evictAt s e = some (b, la) → e.phase = .waiting →
      (sq.state.testBit 0 = true → exec (.evictionStart ev) s = .next s) ∧
      (sq.state.testBit 0 = false → evictBefore s place e.op = false → entryBefore s place e.op = false →
        evictStartBad s b la.ctx held = none → Answers (.evictionStart ev) s fun s' => ∃ k ∈ s'.evicts, k.id = ev ∧
          k.phase = .claimed ∧ k.req = e.req ∧ k.team = e.team)) ∧
    (s.evicts.find? (fun k => k.id == ev) = some e → e.phase = .claimed →
      ((seqDescOf (vaRead s e.ctx e.seq 128)).busy ≠ 0 → exec (.evictionRun ev) s = .next s) ∧
      ((seqDescOf (vaRead s e.ctx e.seq 128)).busy = 0 → s.blockAt? e.q e.lseq e.idx = some b → s.block? b.bid = some b →
        let plan := evPlan s e.ctx (evReqOf e.req)
        Answers (.evictionRun ev) s fun s' => (∀ k ∈ s'.evicts, k.id ≠ ev) ∧
          Retired s s' b.bid e.team e.op 4 (if plan.status = 0 then none else some plan.status)))

/-- R366, R376 to R378, R384, R385: a call's pages are checked and written back, its stack's dispatcher starts it on a station or ends it, its
return area is written, its arrival is made; reduction packets are queued, dropped or held. -/
def Obligations.CallEvents : Prop :=
  ∀ (s : State) (id stack st idx : Nat) (c : Call) (b B0 : Block) (p : Nat × Nat) (n : NetIn) (pre : BitVec 512) (data : List Byte)
    (dev : Nat) (src : List Nat),
    let m := nmMsgOf c.msg
    let pages := callPages c.msg
    let caller := s.blockAt? c.q c.lseq c.idx = some b ∧ s.block? b.bid = some b
    let fresh := c.phase = .issued ∧ heldCalls s c.stack < 256 ∧ ∀ k ∈ pages, windowOf k.1 = false → (translate s c.ctx k.1).isSome = true
    let bad : Call := { c with phase := .returned, rstat := 0x25, cause := cPERM, trapa := w64 p.1 }
    let told : Bool → State → Prop := fun ok t => dev ≠ devId s → devPorts s dev ≠ [] →
      t.out = s.out ++ [.net dev (pickPort (devPorts s dev) 0) (.ack src ok 0)]
    let area : Call → State → Prop := fun k t => k.data.length ≤ 64 → b.objs = [] → ∃ B, t.block? b.bid = some B ∧
      (∀ i, i < k.data.length → byteAt B.scratch (m.roff + i) = k.data.getD i 0) ∧
      numAt B.scratch (m.roff + 64) 1 = k.rstat % 256 ∧ numAt B.scratch (m.roff + 65) 1 = k.cause % 256 ∧
      numAt B.scratch (m.roff + 66) 2 = k.data.length ∧ numAt B.scratch (m.roff + 68) 1 = (k.stack + 8 * k.station) % 256 ∧
      numAt B.scratch (m.roff + 72) 8 = k.fpc.toNat ∧ numAt B.scratch (m.roff + 80) 8 = k.trapa.toNat ∧
      numAt B.scratch (m.roff + 88) 8 = s.time % 2 ^ 64
    (s.call? id = some c → fresh → pages.find? (pageRefused s c.ctx c.stack) = none → Answers (.nmcallWriteBack id) s fun t =>
      t.calls = s.calls.filter (fun k => k.id != id) ++ [{ c with phase := .queued, counted := true }]) ∧
    (s.call? id = some c → fresh → pages.find? (pageRefused s c.ctx c.stack) = some p → caller →
      Answers (.nmcallWriteBack id) s fun t => bad ∈ t.calls ∧ area bad t) ∧
    (nextCall s stack = some c → (∀ i, i < 16 → stationFenced s stack i = true) → Answers (.stationDispatch stack) s fun t =>
      ({ c with phase := .ended, rstat := 0x25, cause := 0, counted := false } : Call) ∈ t.calls) ∧
    (nextCall s stack = some c → st < 16 → stationFenced s stack st = false → stationBusy s stack st = false →
      (∀ i, i < st → stationFenced s stack i = true ∨ stationBusy s stack i = true) →
      Answers (.stationDispatch stack) s fun t => ({ c with phase := .running, station := st } : Call) ∈ t.calls ∧
        ∃ B ∈ t.blocks, B.bid = s.nextId ∧ B.site = .station stack st ∧ B.idx = c.id ∧ B.scratch = c.msg ∧
          B.teams.length = m.teams ∧ ∀ u ∈ B.teams, u.lanes = m.lanes ∧ u.v = [] ∧ u.k = [] ∧ u.x = [] ∧
            u.getS 0 = w32 (16 * m.len) ∧ u.getS 1 = w32 stack ∧ u.getS 2 = w32 st ∧ ∃ x, u.records = [x] ∧ x.num = 0 ∧
            x.pc = w64 m.entry ∧ x.k0 = firstLanes m.lanes) ∧
    (s.call? id = some c → c.phase = .running → stationBlock? s id = some B0 → stationDone B0 = true → caller →
      Answers (.nmcallReturn id) s fun t => (∀ k ∈ t.blocks, ¬ (k.site.isStation = true ∧ k.idx = id)) ∧
        (∃ k ∈ t.calls, k.id = id ∧ k.phase = .returned ∧ k.data = B0.ret.getD [] ∧ k.counted = false) ∧
        area { c with data := B0.ret.getD [] } t) ∧
    (s.call? id = some c → c.phase = .ended → caller → Answers (.nmcallReturn id) s fun t =>
      (∃ k ∈ t.calls, k.id = id ∧ k.phase = .returned) ∧ area c t) ∧
    (s.call? id = some c → c.phase = .returned → (c.expiry ≠ 0 ∧ s.time ≤ c.expiry → exec (.nmcallArrive id) s = .next s) ∧
      ((c.expiry = 0 ∨ c.expiry < s.time) → caller → Answers (.nmcallArrive id) s fun t =>
        (∀ k ∈ t.calls, k.id ≠ id) ∧ Retired s t b.bid c.team c.op 3 none)) ∧
    (s.inNet[idx]? = some n → n.msg = .red pre data dev src →
      let r := redPacket n.port pre data
      let q := s.redq.filter fun k => k.stack == r.1.stack
      let turn := ∀ k ∈ s.inNet.take idx, k.redFor r.1.stack = false
      (¬ turn → exec (.reductionPacket idx) s = .next s) ∧
      (turn → r.2 = true → Answers (.reductionPacket idx) s fun t => t.redq = s.redq ∧ t.inNet = s.inNet.eraseIdx idx ∧ told false t ∧
        ((bar s (dropReg r.1.stack)).toNat < 2 ^ 32 - 1 → bar t (dropReg r.1.stack) = bar s (dropReg r.1.stack) + 1)) ∧
      (turn → r.2 = false → 4096 ≤ q.length → exec (.reductionPacket idx) s = .next s) ∧
      (turn → r.2 = false → q.length < 4096 → Answers (.reductionPacket idx) s fun t => t.redq = s.redq ++ [r.1] ∧
        t.inNet = s.inNet.eraseIdx idx ∧ t.mem = s.mem ∧ told true t))

/-- R391, R397, R403, R405 to R412, R417, R434: chunks and start messages reach their ranks, remote operations and collectives end, tags leave
quarantine, and `BFETCH` writes what it found. -/
def Obligations.CollectiveEvents : Prop :=
  ∀ (s : State) (bid id ctx i : Nat) (b : Block) (n : NetIn) (ck : Chunk) (g : GroupReg) (o : SendOp) (ok : Bool) (k : CollOpS)
    (f : FetchOp) (la : Launch) (m : Manifest),
    let holds : Nat → Prop := fun team => ∃ u, s.team? bid team = some u ∧ u.live ≠ 0
    let blockIs : State → (Block → Prop) → Prop := fun t P => ∃ B, t.block? bid = some B ∧ P B
    let rest := s.inNet.eraseIdx i
    let counted : State → Nat → Prop := fun t off => (bar s off).toNat < 2 ^ 32 - 1 → bar t off = bar s off + 1
    let h := chdrOf ck.hdr
    let rank : GroupReg → Prop := fun g => s.blockAt? g.q g.lseq g.idx = some b ∧ s.block? bid = some b
    let chunk := s.inNet[i]? = some n ∧ n.msg = .chunk ck ∧ ck.mem = false ∧ ck.dev = devId s ∧ ck.src = []
    let used := ((s.landing.filter fun x => landCtx x == landCtx n).map landSize).sum
    (chunk → recvAt s ck.ctx h.id (some h.gen) h.rank = .drop → Answers (.chunkReceive i) s fun t => t.inNet = rest ∧ counted t 0x190000 ∧
      t.blocks = s.blocks) ∧
    (chunk → recvAt s ck.ctx h.id (some h.gen) h.rank = .hold → used + 32 + ck.data.length ≤ 2 ^ 20 →
      exec (.chunkReceive i) s = .next { s with inNet := rest, landing := s.landing ++ [n] }) ∧
    (chunk → recvAt s ck.ctx h.id (some h.gen) h.rank = .rank g → ck.coll = none → ck.red = false → ck.pbar = none → rank g → b.objs = [] →
      portFails n.port ck = false → ck.dst + ck.data.length ≤ b.scratchLen → Answers (.chunkReceive i) s fun t => t.inNet = rest ∧
        t.mem = s.mem ∧ (∀ bd a, scrByte t bd a =
          if bd = bid ∧ ck.dst ≤ a ∧ a < ck.dst + ck.data.length then ck.data.getD (a - ck.dst) 0 else scrByte s bd a) ∧
        ∀ r, ck.rbit = some r → blockIs t fun B => (smGet 0 B.sb (r / 64 % 4)).getLsbD (r % 64) = true) ∧
    (chunk → recvAt s ck.ctx h.id (some h.gen) h.rank = .rank g → ck.coll = none → rank g → portFails n.port ck = true → ck.rbit = none →
      ck.pbar = none → g.mlog = 0 → Answers (.chunkReceive i) s fun t => t.inNet = rest ∧ SameScratch s t ∧ counted t 0x190004) ∧
    (∀ gid gen dst rk vals, s.inNet[i]? = some n → n.msg = .start ctx gid gen dst rk vals →
      (recvAt s ctx gid none dst = .drop → Answers (.startMessage i) s fun t => t.inNet = rest ∧ counted t 0x190000) ∧
      (recvAt s ctx gid none dst = .hold → used + 32 ≤ 2 ^ 20 →
        exec (.startMessage i) s = .next { s with inNet := rest, landing := s.landing ++ [n] }) ∧
      (recvAt s ctx gid none dst = .rank g → rank g → (g.ctx, g.id, rk) ∈ b.startsLate → Answers (.startMessage i) s fun t =>
        t.inNet = rest ∧ blockIs t fun B => B.colls = b.colls ∧ B.startsLate = b.startsLate.erase (g.ctx, g.id, rk)) ∧
      (recvAt s ctx gid none dst = .rank g → rank g → (g.ctx, g.id, rk) ∉ b.startsLate →
        b.colls.find? (fun k => k.started && k.group == (g.ctx, g.id) && !(k.starts.any fun p => p.1 == rk)) = some k →
        Answers (.startMessage i) s fun t => t.inNet = rest ∧ blockIs t fun B => ∃ j ∈ B.colls, j.id = k.id ∧
          j.starts = k.starts ++ [(rk, vals)])) ∧
    (s.block? bid = some b → b.sends.find? (fun x => x.id == id) = some o → o.done = some ok →
      let d := rdescOf o.desc
      (o.fired = false → oldestOp b o.team 2 ≠ some id → exec (.collectiveRetire bid id) s = .next s) ∧
      (o.fired = false → oldestOp b o.team 2 = some id → Answers (.collectiveRetire bid id) s fun t =>
        Retired s t bid o.team id 2 (if !ok then some 0x23 else if o.poisoned then some 0x21 else none) ∧
        (holds o.team → blockIs t fun B => (∀ x ∈ B.sends, x.id ≠ id) ∧ (d.flags.testBit 1 = true →
          (smGet 0 B.sb (d.sbit / 64 % 4)).getLsbD (d.sbit % 64) = true)))) ∧
    (s.block? bid = some b → b.colls.find? (fun x => x.id == id) = some k →
      let d := gdescOf k.desc 0
      (collGoes b k d = true ∨ k.mismatch = true) → (∀ c, c < d.chunks → ∃ x ∈ k.final, x.1 = c) →
      ∀ team op, k.issues = [(team, op)] → Answers (.collComplete bid id) s fun t =>
        Retired s t bid team op 2 (if k.failed = [] ∧ k.mismatch = false then none else some 0x23) ∧
        (holds team → k.bar = none → b.objs = [] → blockIs t fun B => (∀ x ∈ B.colls, x.id ≠ id) ∧
          numAt B.scratch (k.goff + 48) 8 = collStatus k ∧ ∀ c els, k.final = [(c, some els)] → ∀ j, j < els.length →
            smGet 0 B.mat.tiles (tileKey k.tile (d.rowsOf c).1 0 + j) = w32 (els.getD j 0))) ∧
    ((∃ x ∈ s.quars, x.ctx = ctx ∧ x.id = id ∧ x.until_ ≤ s.time) → Answers (.tagQuarantineEnd ctx id) s fun t =>
      (∀ x, x ∈ t.quars ↔ x ∈ s.quars ∧ ¬ (x.ctx = ctx ∧ x.id = id ∧ x.until_ ≤ s.time)) ∧
        ∀ k ∈ t.blocks, ∀ u ∈ k.teams, ∀ r ∈ u.records, r.wait ≠ .quarantine id) ∧
    (s.block? bid = some b → b.fetches.find? (fun x => x.id == id) = some f → s.launch? b.q b.lseq = some la →
      engineRuns la b = true → b.objs = [] → holds f.team →
      let ea := f.addr.toNat
      let wrote : State → (Nat → Nat) → Prop := fun t v => blockIs t fun B => (∀ x ∈ B.fetches, x.id ≠ id) ∧
        numAt B.scratch f.out 4 = v 0 % 2 ^ 32 ∧ numAt B.scratch (f.out + 4) 2 = v 1 % 2 ^ 16 ∧
        numAt B.scratch (f.out + 8) 8 = v 2 % 2 ^ 64 ∧ numAt B.scratch (f.out + 16) 16 = 0
      (windowOf ea = true → Answers (.bfetchComplete bid id) s fun t => Retired s t bid f.team id 5 none ∧ wrote t fun _ => 0) ∧
      (∀ tr p data po tc man ps, windowOf ea = false → resolveMem s b la.ctx ea 0 = .ok (tr, p) → p.kind ≠ .host →
        snapLine s p f.vs.toNat = .at_ data po tc man → tc ≠ 0 → s.manifests.find? (fun x => x.bun == man) = some m →
        manifestPlaces s b la m = .ok ps → Answers (.bfetchComplete bid id) s fun t =>
          ((∀ l ∈ ps, ∀ v, versionAt s l.2 m.tc = some v → v.2 = false) → Retired s t bid f.team id 5 none) ∧
          wrote t fun j => if j = 0 then m.id + 2 ^ 16 * m.gen else if j = 1 then m.lines.length else m.tc % 2 ^ 48))

/-- R417, R420, R424 to R427, R431, R435: homes prepare a bundle in order, its commit time is chosen above every version and the present,
homes commit or abort it, a committed version whose time has come is installed with the one before it kept, and the bundle ends with its
status in `%bstat` and its tag in quarantine. -/
def Obligations.BundleEvents : Prop :=
  ∀ (s : State) (bun home line tc i kind time expiry : Nat) (k : Bundle) (p : PendLine) (b : Block) (v : Version) (full : Bool) (n : NetIn)
    (man : List (W64 × Nat)),
    let now := s.time
    let mine := s.bundle? bun = some k ∧ k.dev = devId s
    let at_ : PendLine → Prop := fun q => q.bun = bun ∧ homeOfLine s q.line = home
    let becomes : State → (Bundle → Prop) → Prop := fun t P => ∃ j, t.bundle? bun = some j ∧ P j
    let pays : State → (PendLine → Prop) → Prop := fun t P => ∀ q ∈ t.pendLines, q.bun = bun → homeOfLine s q.line = home → P q
    let fresh := (bunLines s bun home).filter fun q => (version? s q.line).isNone
    let used := (s.versions.filter fun v => homeOfLine s v.line == home).length
    let near := homeRemote s home = false
    let due := mine ∧ k.phase = .preparing ∧ k.nextHome = some home ∧ k.stbs = [] ∧ k.waitsFor home = false
    let turn := due ∧ k.lost = false ∧ near
    let far := homeRemote s home = true ∧ devPorts s (home / 8) ≠ []
    let port := pickPort (devPorts s (home / 8)) k.tag
    let asks : State → Nat → Nat → List (W64 × Nat) → Prop := fun t kind time man =>
      t.out = s.out ++ [.net (home / 8) port (.bundle k.dev k.ctx k.tag k.gen home kind (time % 2 ^ 48) 0 man)] ∧
        ∃ j, t.bundle? bun = some j ∧ j.asked = k.asked ++ [(home, port)] ∧ j.prepared = k.prepared ∧ j.acked = k.acked
    let waits := home ∈ k.homes ∧ home ∉ k.acked ∧ k.waitsFor home = false
    let others := ∃ q ∈ s.pendLines, at_ q ∧ ∃ o ∈ s.pendLines, o.line = q.line ∧ o.bun ≠ bun ∧ o.state ≠ .pending
    let leaves : State → Nat → Option Nat → Prop := fun t st err => (∀ j ∈ t.bundles, j.id ≠ bun) ∧
      (∃ x ∈ t.quars, x.ctx = k.ctx ∧ x.id = k.tag ∧ x.bundle = true ∧ x.until_ = now + Config.drainHorizon) ∧
      Retired s t b.bid k.team k.op 5 err ∧ ∀ u, s.team? b.bid k.team = some u → u.live ≠ 0 → k.slot < 4 →
        ∃ u', t.team? b.bid k.team = some u' ∧ u'.slot k.slot = noSlot ∧
          bitsOf u'.bstat.toNat (54 + 3 * k.slot) (52 + 3 * k.slot) = st
    let block := s.blockAt? k.q k.lseq k.idx = some b ∧ s.block? b.bid = some b
    (turn → others → exec (.bundlePrepare bun home) s = .next s) ∧
    (turn → ¬ others → used + fresh.length ≤ 2 ^ 21 → Answers (.bundlePrepare bun home) s fun t =>
      becomes t (fun j => j.phase = .preparing ∧ j.prepared = k.prepared ++ [home] ∧ k.newest ≤ j.newest ∧
        ∀ q ∈ s.pendLines, at_ q → ∀ w, version? s q.line = some w → w.curTc ≤ j.newest) ∧
        pays t fun q => q.state = .prepared now ∧ (version? t q.line).isSome = true) ∧
    (turn → ¬ others → 2 ^ 21 < used + fresh.length → Answers (.bundlePrepare bun home) s fun t =>
      becomes t fun j => j.phase = .aborting true ∧ j.acked = []) ∧
    (due → k.lost = true → Answers (.bundlePrepare bun home) s fun t => becomes t fun j => j.phase = .aborting true ∧ j.acked = []) ∧
    (due → k.lost = false → far → Answers (.bundlePrepare bun home) s fun t => t.pendLines = s.pendLines ∧
      asks t 0 0 ((s.pendLines.filter fun q => q.bun == k.id).map fun q => (q.va, q.line))) ∧
    (mine → k.phase = .preparing → k.homes ≠ [] → k.nextHome = none → Answers (.bundleChoose bun) s fun t =>
      becomes t (fun j => j.phase = .chosen ∧ j.tc = max (now + Config.dmax) (k.newest + 1)) ∧
        ∃ m ∈ t.manifests, m.bun = bun ∧ m.tc = max (now + Config.dmax) (k.newest + 1) ∧ m.id = k.tag ∧ m.gen = k.gen ∧
          m.lines = (s.pendLines.filter fun q => q.bun == bun).map fun q => (q.va, q.line)) ∧
    (mine → k.phase = .chosen → waits → Answers (.bundleCommitMessage bun home) s fun t =>
      (near → becomes t fun j => j.acked = k.acked ++ [home]) ∧ (far → asks t 3 k.tc []) ∧ pays t fun q => q.state = .committed k.tc) ∧
    (mine → k.phase = .aborting full → waits → k.stbs = [] → Answers (.bundleAbortMessage bun home) s fun t =>
      (near → becomes t fun j => j.acked = k.acked ++ [home]) ∧ (far → asks t 4 0 []) ∧
        ∀ q, q ∈ t.pendLines ↔ q ∈ s.pendLines ∧ ¬ at_ q) ∧
    (s.inNet[i]? = some n → n.msg = .bundle (devId s) k.ctx k.tag k.gen home kind time expiry man →
      foreignBundle? s (devId s) k.ctx k.tag = some k → mine → k.waitsFor home = true → Answers (.podRequest i) s fun t =>
        t.inNet = s.inNet.eraseIdx i ∧
        (kind = 1 → pays t (fun q => q.state = .prepared now) ∧ becomes t fun j => j.prepared = k.prepared ++ [home] ∧
          j.newest = max k.newest (if time = 0 then 0 else widenTime now time) ∧ j.expiry = max k.expiry expiry) ∧
        (kind = 2 → becomes t fun j => j.phase = .aborting true ∧ j.acked = []) ∧
        (kind = 5 → becomes t fun j => j.acked = k.acked ++ [home])) ∧
    ((∀ q ∈ s.pendLines, q.line = line → ∀ x, q.state = .committed x → now < x) → exec (.bundleInstall line) s = .next s) ∧
    (p ∈ s.pendLines → p.line = line → p.state = .committed tc → tc ≤ now →
      (∀ q ∈ s.pendLines, q.line = line → q ≠ p → ∀ x, q.state ≠ .committed x) →
      let place := linePhys line p.key
      let old := homeLine s place
      Answers (.bundleInstall line) s fun t => t.pendLines = s.pendLines.erase p ∧
        (∃ w, version? t line = some w ∧ w.curTc = tc ∧ w.man = p.bun ∧ w.prev = some (old.1, old.2,
          ((version? s line).map Version.curTc).getD 0, ((version? s line).map Version.man).getD 0)) ∧
        (bitsOf (128 * line) 51 51 = 0 → (∀ c ∈ s.lines, c.stamp = none → c.die = locDie (128 * c.line)) → ∀ i, i < 128 →
          lineByte (homeLine t place).1 i = if p.mask.getLsbD i then lineByte p.data i else lineByte old.1 i)) ∧
    (mine → k.phase = .chosen → (∀ h ∈ k.homes, h ∈ k.acked) → (∀ q ∈ s.pendLines, q.bun ≠ bun) →
      max k.tc k.expiry + (if k.remote then Config.skew else 0) < now → block →
        Answers (.bundleRetire bun) s fun t => leaves t 1 (if k.lost then some 0x40 else none)) ∧
    (mine → k.phase = .aborting full → (∀ h ∈ k.homes, h ∈ k.acked) → block →
      Answers (.bundleRetire bun) s fun t => leaves t (if full then 2 else 3) (if full then some 0x40 else none)) ∧
    (mine → k.phase = .chosen → now ≤ max k.tc k.expiry → exec (.bundleRetire bun) s = .next s) ∧
    (version? s line = some v → (hasPrepared s line = true ∨ now ≤ v.curTc + reclaimAge s (homeOfLine s line) →
        exec (.versionReclaim line) s = .next s) ∧
      (hasPrepared s line = false → v.curTc + reclaimAge s (homeOfLine s line) < now →
        Answers (.versionReclaim line) s fun t => version? t line = none ∧ ∀ l, l ≠ line → version? t l = version? s l))

/-- R443, R447, R448, R450, R456, R457, R462: sibling entries of the directory merge, leases expire and are swept, slices sleep and wake, hot
lists end their interval, and the scrubber corrects or poisons. -/
def Obligations.CacheEvents : Prop :=
  ∀ (s : State) (die slice region size line stack : Nat) (a b : DirEnt),
    let at_ : Nat → Option DirEnt := fun base =>
      s.dir.find? fun d => d.die == die && d.slice == slice && d.base == base && d.size == size
    let siblings := at_ region = some a ∧ at_ (region + size) = some b ∧ 0 < size ∧ 2 * size ≤ 512 ∧ region % (2 * size) = 0
    let old : DirEnt → Prop := fun d => d.changed + 100000 ≤ s.time
    let alike := a.state = b.state ∧ a.sharers = b.sharers ∧ a.owner = b.owner
    let merged : State → DirEnt → Prop := fun t d => (∃ e ∈ t.dir, e = { d with base := region, size := 2 * size, changed := s.time }) ∧
      a ∉ t.dir ∧ b ∉ t.dir
    let leased : CLine → Prop := fun c => c.die = die ∧ l2Slice c.line = slice ∧ c.stamp.isSome = true
    let dead : CLine → Prop := fun c => leased c ∧ ∃ x, c.stamp = some x ∧ stampValid x s.time = false
    let base := mscBase stack
    let home := stackOf (128 * line)
    let may := die < 2 ∧ slice < 64 ∧ (bar s (0x1C0000 + 0x100 * die)).getLsbD 0 = true
    let counted : State → Nat → Prop := fun t off => (bar s off).toNat < 2 ^ 32 - 1 → bar t off = bar s off + 1
    let held := ∃ l ∈ s.msc, l.line = line
    let tested : State → Nat → Prop := fun t sev => (∀ x ∈ s.tests, ¬ (x.rep.cls = 2 ∧ x.rep.unit = w64 home)) →
      ∃ x ∈ t.tests, x.rep.cls = 2 ∧ x.rep.sev = sev ∧ x.rep.unit = w64 home ∧ x.rep.pa = w64 (128 * line) ∧ x.tdet = s.time
    (siblings → old a → old b → alike → Answers (.directoryMerge die slice region size) s fun t => merged t a) ∧
    (siblings → ¬ alike → entryHeld s a = false → Answers (.directoryMerge die slice region size) s fun t => merged t b) ∧
    (siblings → ¬ alike → entryHeld s a = true → entryHeld s b = true → exec (.directoryMerge die slice region size) s = .next s) ∧
    (Answers (.grantExpiry line) s fun t => ∀ g, g ∈ t.grants ↔ g ∈ s.grants ∧ ¬ (g.line = line ∧ g.expiry < s.time)) ∧
    (sleeping s die slice = false → Answers (.leaseSweep die slice) s fun t => ∀ c, c ∈ t.lines ↔ c ∈ s.lines ∧ ¬ dead c) ∧
    (sleeping s die slice = false → may → Answers (.sliceSleep die slice) s fun t => sleeping t die slice = true ∧
      ∀ c, c ∈ t.lines ↔ c ∈ s.lines ∧ ¬ dead c) ∧
    (¬ may → exec (.sliceSleep die slice) s = .next s) ∧
    (sleeping s die slice = true → let slept := s.time + 1 - smGet 0 s.asleep (sliceKey die slice)
      (slept < 33554432 → Answers (.sliceWake die slice) s fun t => t.lines = s.lines) ∧
      (33554432 ≤ slept → Answers (.sliceWake die slice) s fun t => ∀ c, c ∈ t.lines ↔ c ∈ s.lines ∧ ¬ leased c)) ∧
    (8 ≤ stack ∨ s.time < hotListEnd s stack → exec (.hotListPublish stack) s = .next s) ∧
    (stack < 8 → hotListEnd s stack ≤ s.time → Answers (.hotListPublish stack) s fun t => (∀ c ∈ t.cands, c.stack ≠ stack) ∧
      smGet 0 t.hlSince stack = s.time ∧
      (∀ k, 16384 * stack ≤ k → k < 16384 * (stack + 1) → smGet 0 t.sketch k = 0) ∧
      bar t (base + 0xC) = if bar64 s base = 0 then bar s (base + 0xC) else bar s (base + 0xC) + 1) ∧
    (128 * line < Config.moduleBytes → exec (.scrub line .clean) s = .next s ∧
      (Answers (.scrub line .corrected) s fun t => counted t (mscBase home + 0x18) ∧ t.mpoison = s.mpoison ∧ tested t 0) ∧
      Answers (.scrub line .uncorrectable) s fun t => counted t (mscBase home + 0x14) ∧ tested t 1 ∧
        (held → ∃ l ∈ t.msc, l.line = line ∧ l.under = true) ∧ (¬ held → line ∈ t.mpoison))

/-- R470, R471, R472, R475 to R478: requests of peers read, write and update memory, are answered as unsupported or are dropped and
counted, messages cut short are given up, ports go down and up, and the pod's meridian is exchanged, lost and found. -/
def Obligations.LinkEvents : Prop :=
  ∀ (s : State) (i port lanes kind ctx key bid : Nat) (n : NetIn) (addr : W64) (op : AtomOp) (data : List Byte) (r : Reasm) (b : Block)
    (u : Team) (la : Launch) (o : SendOp) (far : Nat) (agree : Bool),
    let rest := s.inNet.eraseIdx i
    let dropped : State → Prop := fun t => (bar s 0x1D000C).toNat < 2 ^ 32 - 1 → bar t 0x1D000C = bar s 0x1D000C + 1
    let a := addr.toNat
    let p : Nat → Phys := fun j => ⟨.own, a + j, key, false, 2⟩
    let homes := ∀ c ∈ s.lines, c.stamp = none → c.die = locDie (128 * c.line)
    let asked := s.inNet[i]? = some n ∧ n.msg = .pod addr kind op ctx key data
    let answers : State → Nat → List Byte → Bool → Prop := fun t kind l pois =>
      ∃ x, t.out = s.out ++ [.answer n.port addr kind l pois x]
    let len := if op = .cas then data.length / 2 else data.length
    let was := homeBytes s (p 0) len
    let pois := (homeLine s (p 0)).2
    let stat : State → Nat → Bool := fun t k => (bar t 0x1D0008).getLsbD k
    let farLease : CLine → Prop := fun c => c.stamp.isSome = true ∧ bitsOf (128 * c.line) 51 51 = 1
    let noFar : State → Prop := fun t => ∀ c, c ∈ t.lines ↔ c ∈ s.lines ∧ ¬ farLease c
    let others : State → Prop := fun t => ∀ k, k < 30 → stat t k = stat s k
    (asked → 2 ^ 41 ≤ a ∨ 2 < kind → Answers (.podRequest i) s fun t => t.inNet = rest ∧ t.mem = s.mem ∧ t.lines = s.lines ∧ dropped t ∧
      t.out = if a < 2 ^ 41 then s.out ++ [.answer n.port addr kind [] false 0] else s.out) ∧
    (asked → a < 2 ^ 41 → kind = 0 → Answers (.podRequest i) s fun t => t.inNet = rest ∧ SameMemory s t key ∧
      answers t 0 (lineBytes (homeLine s (p 0)).1 0 128) pois ∧ (grants? s (p 0) = true → unlocked s = false →
        ∃ g ∈ t.grants, g.line = a / 128 ∧ s.time + (if data = [] then 400 else leNat data) ≤ g.expiry ∧ g.remote = true)) ∧
    (asked → a + data.length ≤ 2 ^ 41 → a < 2 ^ 41 → kind = 1 → a % 128 + data.length ≤ 128 → homes →
      Answers (.podRequest i) s fun t => t.inNet = rest ∧ answers t 1 [] false ∧ (∀ j, j < data.length → memByte t (p j) = data.getD j 0) ∧
        ∀ x, x / 128 = a / 128 → ¬ (a ≤ x ∧ x < a + data.length) → memByte t ⟨.own, x, key, false, 2⟩ = memByte s ⟨.own, x, key, false, 2⟩) ∧
    (asked → a < 2 ^ 41 → kind = 2 → a % 128 + len ≤ 128 → homes → Answers (.podRequest i) s fun t =>
      t.inNet = rest ∧ answers t 2 was pois ∧ homeBytes t (p 0) len = if pois then was else
        leBytes len (atomNew op (8 * len) (leNat was) (leNat (data.take len)) (leNat (data.drop len)))) ∧
    (s.reasm[i]? = some r → (s.time < r.since + 10000 → exec (.reassemblyTimeout i) s = .next s) ∧
      (r.since + 10000 ≤ s.time → Answers (.reassemblyTimeout i) s fun t => t.reasm = s.reasm.eraseIdx i ∧ dropped t)) ∧
    (port < 18 → stat s port = true → Answers (.portDown port) s fun t => stat t port = false ∧ bar t (0x1D0040 + 4 * port) = 0 ∧
      (∀ k, k ≠ port → stat t k = stat s k) ∧
      (s.block? bid = some b → (∀ c ∈ s.blocks, portStops s port c = none) → o ∈ b.sends → (∃ x ∈ o.parts, x.2 = port) →
        ∃ B, t.block? bid = some B ∧ ({ o with parts := o.parts.filter (fun x => x.2 != port), ok := false } : SendOp) ∈ B.sends) ∧
      (∀ v ∈ s.saved, o ∈ v.blk.sends → (∃ x ∈ o.parts, x.2 = port) → ∃ w ∈ t.saved, w.blk.bid = v.blk.bid ∧
        ({ o with parts := o.parts.filter (fun x => x.2 != port), ok := false } : SendOp) ∈ w.blk.sends) ∧
      (∀ k ∈ s.bundles, k.losePort port ∈ t.bundles) ∧
      (s.blocks = [b] → s.launch? b.q b.lseq = some la → la.stop = none → portStops s port b = some (u, far) →
        ∃ l ∈ t.launches, l.q = b.q ∧ l.lseq = b.lseq ∧ ∃ st, l.stop = some st ∧ st.cause = cPOISON)) ∧
    (port < 18 → lanes = 1 ∨ lanes = 2 ∨ lanes = 4 → Answers (.portUp port lanes) s fun t => stat t port = true ∧
      (∀ k, k ≠ port → stat t k = stat s k) ∧ bar t (0x1D0040 + 4 * port) = w32 lanes) ∧
    (isReference s = true → Answers (.meridianExchange agree) s fun t => stat t 31 = false ∧ stat t 30 = false ∧ others t ∧
      t.lines = s.lines) ∧
    (isReference s = false → agree = false ∨ portsUp s = 0 → Answers (.meridianExchange agree) s fun t => stat t 31 = true ∧
      stat t 30 = true ∧ others t ∧ t.lockSince = s.time ∧ noFar t) ∧
    (isReference s = false → agree = true → portsUp s ≠ 0 → s.lockSince ≠ lockPend → Answers (.meridianExchange agree) s fun t =>
      stat t 31 = stat s 31 ∧ stat t 30 = false ∧ others t ∧ (stat s 30 = true → t.lockSince = s.time) ∧ t.lines = s.lines) ∧
    (isReference s = true → exec .lossOfLock s = .next s) ∧
    (isReference s = false → Answers .lossOfLock s fun t => stat t 31 = true ∧ t.lockSince = s.time ∧ noFar t) ∧
    (stat s 31 = true → stat s 30 = false → (s.time < s.lockSince + 1000000 → exec .relock s = .next s) ∧
      (s.lockSince + 1000000 ≤ s.time → Answers .relock s fun t => stat t 31 = false ∧ others t ∧ stat t 30 = false))

/-- R462, R480 to R485, R489 to R493: errors join the test of their unit or start one, poison what they reach and fence a station; a test ends
with an entry in the log, a lasting error spared while the budget lasts; monitors latch what an interval's samples came to; the power loop and a die's
temperature lower and raise the operating points. -/
def Obligations.MaintenanceEvents : Prop :=
  ∀ (s : State) (r : ErrorReport) (n mon watts celsius t0 : Nat) (x : Test) (passed : Bool),
    let same : Test → Prop := fun x => x.rep.cls = r.cls ∧ x.rep.unit = r.unit
    let unit : Nat → Nat → Nat := fun hi lo => bitsOf x.rep.unit.toNat hi lo
    let w := bar s 0x1E0004
    let free := (w - bar s 0x1E0008).toNat ≠ 256
    let logged : State → Nat → Prop := fun t outcome => free → bar t 0x1E0004 = w + 1 ∧
      smGet 0 t.mlog (w.toNat % 256) = testLogEntry x s.time outcome
    let ends := s.tests[n]? = some x ∧ testable s x.rep = true
    let ctl := (bar s (svBase mon)).toNat
    let ival := (bar s (svBase mon + 4)).toNat
    let m := monOf s mon
    let own := ownSource (bitsOf ctl 23 16) = true
    let l := intervalSamples (bitsOf ctl 23 16) (bitsOf ctl 8 0) ival m.samples
    let clip : Nat → Nat := fun k => min k (2 ^ 32 - 1)
    let bin : Nat → Nat := fun v => if v = 0 then 0 else min 31 (Nat.log2 v + 1)
    let reg : State → Nat → Nat := fun t off => (bar t (svBase mon + off)).toNat
    let limit := (bar s 0x1E0024).toNat
    (Answers (.errorDetected r) s fun t =>
      ((∀ x ∈ s.tests, ¬ same x) → t.tests = s.tests ++ [⟨r, s.time, 1⟩]) ∧
      ((∃ x ∈ s.tests, same x) → t.tests.length = s.tests.length ∧ ∀ x ∈ s.tests, same x →
        ({ x with count := min (x.count + 1) (2 ^ 32 - 1) } : Test) ∈ t.tests) ∧
      (r.cls = 2 → r.sev = 1 → r.pa ≠ 0 → (∀ l ∈ s.msc, l.line ≠ r.pa.toNat / 128) → r.pa.toNat / 128 ∈ t.mpoison) ∧
      (r.cls = 1 → bitsOf r.unit.toNat 15 8 = 6 → r.sev = 1 → r.pa ≠ 0 → ∀ c ∈ t.lines, c.line = r.pa.toNat / 128 →
        c.die = bitsOf r.unit.toNat 7 0 → c.poison = true) ∧
      (r.cls = 5 → bitsOf r.unit.toNat 7 0 < 8 → bitsOf r.unit.toNat 15 8 < 16 →
        stationFenced t (bitsOf r.unit.toNat 7 0) (bitsOf r.unit.toNat 15 8) = true)) ∧
    (s.tests[n]? = some x → testable s x.rep = false → exec (.targetedTestEnd n passed) s = .next s) ∧
    (ends → Answers (.targetedTestEnd n true) s fun t => t.tests = s.tests.eraseIdx n ∧ logged t 1 ∧
      (x.rep.cls = 5 → unit 7 0 < 8 → unit 15 8 < 16 → stationFenced t (unit 7 0) (unit 15 8) = false)) ∧
    (ends → x.rep.cls = 2 → unit 7 0 < 8 →
      let off := 0x1E0018 + 4 * (unit 7 0 / 4)
      let lo := 8 * (unit 7 0 % 4)
      bitsOf (bar s off).toNat (lo + 7) lo ≠ 0 → Answers (.targetedTestEnd n false) s fun t => t.tests = s.tests.eraseIdx n ∧
        logged t 2 ∧ (bar t off).toNat = (bar s off).toNat - 2 ^ lo) ∧
    (ends → x.rep.cls = 4 → Answers (.targetedTestEnd n false) s fun t =>
      let id := unit 31 0
      id < 512 → (bar t (0x1E0040 + 4 * (id / 32))).getLsbD (id % 32) = true) ∧
    (64 ≤ mon ∨ ctl.testBit 31 = false ∨ s.time < m.start + 1000 * ival → exec (.monitorLatch mon) s = .next s) ∧
    (mon < 64 → ctl.testBit 31 = true → m.start + 1000 * ival ≤ s.time → own → Answers (.monitorLatch mon) s fun t =>
      bar t (svBase mon + 0xC) = w32 m.count ∧ bar t (svBase mon + 0x10) = w32 m.least ∧ bar t (svBase mon + 0x14) = w32 m.most ∧
      (∀ k, k < 32 → bar t (svBase mon + 0x40 + 4 * k) = w32 (smGet 0 m.bins k)) ∧
      bar t (svBase mon + 8) = bar s (svBase mon + 8) + 2 ∧ (monOf t mon).start = s.time ∧ (monOf t mon).count = 0) ∧
    (mon < 64 → ctl.testBit 31 = true → m.start + 1000 * ival ≤ s.time → ¬ own → Answers (.monitorLatch mon) s fun t =>
      reg t 0xC = clip l.length ∧ (∀ v ∈ l, reg t 0x10 ≤ v ∧ v ≤ reg t 0x14) ∧
      (l ≠ [] → reg t 0x10 ∈ l ∧ reg t 0x14 ∈ l) ∧
      (∀ k, k < 32 → reg t (0x40 + 4 * k) = clip (l.filter fun v => bin v == k).length) ∧
      bar t (svBase mon + 8) = bar s (svBase mon + 8) + 2 ∧
      (monOf t mon).start = s.time) ∧
    (s.time < s.powerAt + 1000000 → exec (.powerLoop watts) s = .next s) ∧
    (s.powerAt + 1000000 ≤ s.time → Answers (.powerLoop watts) s fun t => t.powerAt = s.time ∧
      (limit < watts → t.die0.cap = s.die0.cap - 1 ∧ t.die1.cap = s.die1.cap - 1 ∧ t.coolSince = none) ∧
      (watts ≤ limit → 95 * limit ≤ 100 * watts → t.die0.cap = s.die0.cap ∧ t.die1.cap = s.die1.cap ∧ t.coolSince = none) ∧
      (100 * watts < 95 * limit → s.coolSince = none → t.die0.cap = s.die0.cap ∧ t.coolSince = some s.time) ∧
      (100 * watts < 95 * limit → s.coolSince = some t0 → t0 + 10000000 ≤ s.time →
        t.die0.cap = min 15 (s.die0.cap + 1) ∧ t.die1.cap = min 15 (s.die1.cap + 1))) ∧
    (Answers (.dieTemperatureCap 0 celsius) s fun t => t.die0.cap = s.die0.cap ∧ t.die0.point ≤ s.die0.point ∧
      t.die0.hot = (if 105 < celsius then true else if celsius < 95 then false else s.die0.hot) ∧
      (105 < celsius → t.die0.point ≤ 7))

/-- R58 to R75: words written out field by field from the encodings, and the instructions they stand for. -/
def Obligations.DecodeWords : Prop :=
  let F : Nat → Nat → Nat → Nat → Nat → Nat → Nat → Nat := fun major sub m10 d a b c =>
    1 + 2 ^ 2 * major + 2 ^ 18 * d + 2 ^ 26 * a + 2 ^ 34 * b + 2 ^ 42 * c + 2 ^ 50 * m10 + 2 ^ 60 * sub
  let h : Hdr := ⟨0, 0, false, none⟩
  let v : Fin 176 → Opnd := .v
  let s : Fin 64 → Opnd := .s
  let m : Mods := ⟨false, true, false, false, false, false, false, 0⟩
  decodeTableWord 64 (F 0x01 8 2 1 2 3 0xF8) = some (.iadd h .s32 true m (v 1) (v 2) (v 3)) ∧
  decodeTableWord 96 (F 0x14 0 0 4 5 0xFA 0xF8 + 1 + 2 ^ 64 * 7) = some (.shl ⟨0, 0, false, some 7⟩ 0 (v 4) (v 5) .lit) ∧
  decodeTableWord 64 (F 0x43 9 64 1 2 3 4) = some (.ffma h .f16x2 .rtz ⟨false, false, false, false, false, false, true, 0⟩ (v 1) (v 2) (v 3) (v 4)) ∧
  decodeTableWord 64 (F 0x76 1 0 2 3 4 0xF8) = some (.kop h 2 (.bin .or 3 4)) ∧
  decodeTableWord 64 (F 0x80 0 (2 * 128 + 1 * 8 + 4) 8 6 0xB0 0xF8) =
    some (.ld h ⟨.b32, .normal, .acq, .dev⟩ false (v 8) (v 6) (s 0)) ∧
  decodeTableWord 64 (F 0xA0 0 0 0xF8 0xF8 0xFE 0xFF + 2 ^ 14 * 3 + 2 ^ 17) = some (.bra ⟨0, 3, true, none⟩ 0xFFFE) ∧
  decodeTableWord 64 (F 0xB2 1 0 5 9 0xF8 0xF8 + 2 ^ 10 * 6) = some (.xset ⟨6, 0, false, none⟩ .idx 5 (v 9)) ∧
  decodeTableWord 64 (F 0xC4 8 (3 + 64) 0xF8 0xB2 0xB3 0xB4) = some (.cbini h true true 3 (s 2) (s 3) (s 4)) ∧
  decodeTableWord 64 (F 0xD3 0 0 1 2 0xB5 0xB6) = some (.msa h 1 2 (s 5) (s 6)) ∧
  decodeTableWord 64 (F 0xE3 0 0 0xF8 0xB7 0xF8 0xF8) = some (.evict h (s 7)) ∧
  decodeTableWord 64 (F 0xF8 0 0 3 0xF8 0xF8 0x09) = some (.srd h .full (v 3) 9) ∧
  decodeTableWord 32 (4 * 2 + 2 ^ 8 * 2 + 2 ^ 10 * 1 + 2 ^ 18 * 200 + 2 ^ 26 + 2 ^ 27 * 4) =
    some (.compactIaddS32 ⟨4, true, 200, 1, 2⟩) ∧
  decodeTableWord 32 (4 * 36 + 2 ^ 10 * 3 + 2 ^ 18 * 6 + 2 ^ 30 * 1) = some (.compactLd32 1 ⟨0, false, 6, 3, 0⟩) ∧
  decodeTableWord 64 0x002818480024150B = some (.pair ⟨2, 0, ⟨0, false, 9, 5, 1⟩⟩ ⟨18, 0, ⟨0, false, 10, 6, 0⟩⟩) ∧
  decodeTableWord 32 0x00241508 = some (.compactIaddS32 ⟨0, false, 9, 5, 1⟩) ∧
  decodeTableWord 64 0x0206DCA00C32990D =
    some (.ffma ⟨6, 2, true, none⟩ .f32 .rne ⟨true, false, false, false, false, false, false, 1⟩ (v 12) (v 3) (v 40) (s 7)) ∧
  decodeTableWord 96 0x3FC000000003E3E81C081902 =
    some (.fadd ⟨6, 0, false, some 0x3FC00000⟩ .f32 .rne ⟨false, false, false, false, false, false, false, 0⟩ (v 2) (v 7) .lit) ∧
  decodeTableWord 64 (0x002418480024150B) = none ∧ 
  decodeTableWord 64 (F 0x01 8 2 1 2 3 0xF7) = none ∧ decodeTableWord 64 (F 0x3F 0 0 1 2 3 0xF8) = none ∧
  decodeTableWord 32 (4 * 48) = none

/-- R58 to R75: the decoder reads back the words of every well-formed instruction, with every operand, suffix and header that the encoding
admits, whatever bytes follow them. -/
def Obligations.DecodeReadsEncoding : Prop :=
  ∀ (i : Instr) (rest : List Byte), i.wf = true → encode i ≠ [] → decode ((encode i).flatMap wordBytes ++ rest) = .ok (i, rest)

/-- R12, R59, R80, R250: a step that lets a sub-team issue runs the well-formed instruction that the bytes at its program counter decode to,
and then what follows every move; where no instruction can be fetched there, the cause is taken. A step of the agenda that names an event
runs that event, and one that names time passes it (R27): of the rest, only leased copies and monitors may follow it (R450, R489). -/
def Obligations.StepRunsDecoded : Prop :=
  ∀ (s : State) (w : Issuer) (rest : List Choice) (e : Env) (i : Instr) (t : Tr) (after : List Byte) (ns : Nat),
    let now : State := { s with agenda := rest }
    let s' : State := { s with agenda := rest, cur := w }
    let pc := e.rcd.pc.toNat
    let bytes := codeBytes s' e.la t pc (min 12 (64 - pc % 64))
    let mapped := siteTranslate s' e.blk e.la.ctx pc = some t
    let readable := t.x = true ∧ ((t.phys s' pc).kind = .host ∨ (keyGenOf s' t.key).isSome = true) ∧
      siteReach e.blk.site t (t.phys s' pc) = true ∧ codePoison s' e.blk (t.phys s' pc) = false
    let goes : Host.Outcome State Fault Refusal → State → Prop := fun r t => r = .next t → step s = .next (follow t)
    (s.agenda = .issue w :: rest → getEnv s' = some e → mayIssue e.team e.rcd = true → isChosen s' w = true →
      (mapped → readable → pc % 64 + headLen bytes ≤ 64 → decode bytes = .ok (i, after) →
        i.wf = true ∧ ∀ t, goes (exec i s') t) ∧
      (mapped → readable → 64 < pc % 64 + headLen bytes → step s = .next (follow (fetchFail e (.trap cILLOP)))) ∧
      (mapped → t.x = false ∨ siteReach e.blk.site t (t.phys s' pc) = false → step s = .next (follow (fetchFail e (.trap cPERM)))) ∧
      (siteTranslate s' e.blk e.la.ctx pc = none → step s = .next (follow (fetchFail e .missing)))) ∧
    (s.agenda = .issue w :: rest → getEnv s' = some e → mayIssue e.team e.rcd = false ∨ isChosen s' w = false →
      step s = .next (follow s')) ∧
    (s.agenda = .event i :: rest → encode i = [] → ∀ t, goes (exec i now) t) ∧
    (s.agenda = .tick ns :: rest → step s = .next (follow (tick now ns)) ∧ (tick now ns).time = s.time + ns ∧
      { tick now ns with time := s.time, lines := s.lines, l1 := s.l1, dir := s.dir, mons := s.mons } = now ∧
      ((s.time + ns) / 1000 = s.time / 1000 → tick now ns = { now with time := s.time + ns }))

/-- R27, R46, R92, R107, R436, R453, R465, R466, R491, R492, R499: what module reset leaves, where the spec gives a value; the free choices of
log entries 1 and 9 are not stated. -/
def Obligations.ResetValues : Prop :=
  let s := State.reset
  s.time = 0 ∧ s.launches = [] ∧ s.blocks = [] ∧ s.lines = [] ∧ s.keys = [] ∧ s.keyData = 0 ∧
  (∀ c, ovtab s c = 0x15) ∧
  (∀ c, c < 64 → bar s (ctxBase c) = 0 ∧ bar64 s (ctxBase c + 8) = 0 ∧ bar64 s (ctxBase c + 0x10) = 0 ∧ bar64 s (ctxBase c + 0x18) = 0) ∧
  (∀ q, q < 64 → ∀ off, off < 0x40 → bar s (qBase q + off) = 0) ∧
  (∀ h, h < 8 → bar s (bunReg h 8) = 1000 ∧ bar s (mscBase h + 8) = 1000 ∧ bar s (mscBase h + 0x10) = 0x80000018 ∧ bar64 s (mscBase h) = 0) ∧
  (∀ d, d < 2 → bar s (0x1C0000 + 0x100 * d) = 1) ∧
  (∀ k, smGet 511 s.psel k = 511) ∧
  bar s 0x1D0000 = 0 ∧ bar s 0x1D0008 = 0 ∧ bar s 0x1E0000 = 0 ∧ bar s 0x1E0014 = 0x02000200 ∧ bar s 0x1E0020 = 0x400 ∧
  bar s 0x1E0024 = 2800 ∧
  (∀ m, m < 64 → bar s (svBase m) = 0 ∧ bar s (svBase m + 4) = 1000 ∧ bar s (svBase m + 0x10) = 0xFFFFFFFF ∧ bar s (svBase m + 0x14) = 0) ∧
  s.die0.point = 0 ∧ s.die1.point = 0 ∧ bar s 0x2000000 = 100

/-- Every step keeps it. -/
def Obligations.StepKeepsSettled : Prop := ∀ s t : State, s.Settled → step s = .next t → t.Settled

/-- It holds at reset. -/
def Obligations.ResetIsSettled : Prop := State.reset.Settled

/-- R448: the stamp of a leased copy is its expiry over 64, modulo 2^20; at t the copy is valid exactly where the distance is from 1 up to
2^19 − 1; one that is not valid is treated as absent, so that a read takes the home's line, and a copy taken under a new lease keeps its
stamp; within the reach of the counter, a copy is never used after its expiry, nor is any after a sleep of its slice of 2^25 ns or more
(R450). -/
def Obligations.LeaseStamps : Prop :=
  (∀ expiry t : Nat,
    let d := ((expiry / 64 : Nat) - (t / 64 : Nat) : Int) % 2 ^ 20
    (stampOf expiry = expiry / 64 % 2 ^ 20) ∧
    (stampValid (stampOf expiry) t = true ↔ 1 ≤ d ∧ d < 2 ^ 19) ∧
    (expiry ≤ t → t < expiry + 2 ^ 25 → stampValid (stampOf expiry) t = false)) ∧
  ∀ (s : State) (r : Req) (p : Phys) (c : CLine) (x : Nat),
    let far := (p.kind = .own ∧ locDie p.loc ≠ coreDie r.core) ∨ (∃ dev, p.kind = .pod dev) ∨ (p.kind = .host ∧ p.rol = true)
    let asleep := sleeping s (coreDie r.core) (l2Slice p.line) = true
    let slept := s.time + 1 - smGet 0 s.asleep (sliceKey (coreDie r.core) (l2Slice p.line))
    far → leasedCopy? s (coreDie r.core) p.line = some c → c.stamp = some x →
    (asleep → 33554432 ≤ slept → (coreReadLine s r p).1 = homeLine s p) ∧
    ((asleep → slept < 33554432) →
    (stampValid x s.time = true → (coreReadLine s r p).1 = (c.data, c.poison)) ∧
    (stampValid x s.time = false → (coreReadLine s r p).1 = homeLine s p ∧
      (grants? s p = true → ∃ k ∈ (coreReadLine s r p).2.lines, k.die = coreDie r.core ∧ k.line = p.line ∧
        k.stamp = some (stampOf (s.time + r.lease)) ∧ k.data = (homeLine s p).1)))
end

