-- ==== Sys2Proof/Laws/Codes.lean ====
section
/-! SUPPORT. The codes of the encodings: their bounds, and that each names again what it stands for: suffixes, modifiers, memory
control, operands, headers, fields. -/

namespace Sys2Proof

open Machine

theorem boolBit_lt (x : Bool) : boolBit x < 2 := by cases x <;> decide
theorem rmCode_lt (x : Rm) : rmCode x < 4 := by cases x <;> decide
theorem ityCode_lt (x : ITy) : ityCode x < 8 := by cases x <;> decide
theorem ftyCode_lt (x : FTy) : ftyCode x < 3 := by cases x <;> decide
theorem cmpTyCode_lt (x : CmpTy) : cmpTyCode x < 4 := by cases x <;> decide
theorem icmpCode_lt (x : ICmp) : icmpCode x < 4 := by cases x <;> decide
theorem fcmpCode_lt (x : FCmp) : fcmpCode x < 8 := by cases x <;> decide
theorem leaCode_lt (x : LeaTy) : leaCode x < 4 := by cases x <;> decide
theorem classCode_lt (x : ClassFmt) : classCode x < 3 := by cases x <;> decide
theorem qCode_lt (x : QFmt) : qCode x < 9 := by cases x <;> decide
theorem treeCode_lt (x : TreeOp) : treeCode x < 14 := by cases x <;> decide
theorem shflCode_lt (x : Shfl) : shflCode x < 4 := by cases x <;> decide
theorem voteCode_lt (x : VoteOp) : voteCode x < 4 := by cases x <;> decide
theorem kbinCode_lt (x : KBin) : kbinCode x < 5 := by cases x <;> decide
theorem sizeCode_lt (x : Size) : sizeCode x < 5 := by cases x <;> decide
theorem cacheCode_lt (x : Cache) : cacheCode x < 4 := by cases x <;> decide
theorem orderCode_lt (x : Order) : orderCode x < 4 := by cases x <;> decide
theorem scopeCode_lt (x : Scope) : scopeCode x < 7 := by cases x <;> decide
theorem atomCode_lt (x : AtomOp) : atomCode x < 16 := by cases x <;> decide
theorem cctlCode_lt (x : CctlOp) : cctlCode x < 3 := by cases x <;> decide
theorem xsetCode_lt (x : XsetMode) : xsetCode x < 3 := by cases x <;> decide
theorem tfmtCode_lt (x : TFmt) : tfmtCode x < 4 := by cases x <;> decide
theorem collCode_lt (x : CollOp) : collCode x < 4 := by cases x <;> decide
theorem halfCode_lt (x : Half) : halfCode x < 3 := by cases x <;> decide
theorem pfmtCode_lt (x : PFmt) : pfmtCode x < 12 := by
  cases x with
  | q q => exact Nat.lt_trans (qCode_lt q) (by decide)
  | _ => decide
theorem cvtCode_lt (x : CvtKind) : cvtCode x < 16 := by
  cases x with
  | bf16 r | f16 r | nf8 r => have := rmCode_lt r; simp only [cvtCode]; omega
  | _ => decide
theorem modsCode_lt (m : Mods) : modsCode m < 1024 := by
  have h := m.scale.isLt
  have b := boolBit_lt
  have h0 := b m.nega; have h1 := b m.negb; have h2 := b m.negc; have h3 := b m.absa; have h4 := b m.absb
  have h5 := b m.absc; have h6 := b m.clamp
  simp only [modsCode]
  omega
theorem mcCode_lt (m : MemCtl) : mcCode m < 1024 := by
  have h0 := sizeCode_lt m.size; have h1 := cacheCode_lt m.cache; have h2 := orderCode_lt m.order; have h3 := scopeCode_lt m.scope
  simp only [mcCode]
  omega
theorem opndCode_lt (o : Opnd) : opndCode o < 256 := by
  cases o with
  | v n | s n | x n => have := n.isLt; simp only [opndCode]; omega
  | _ => decide
theorem iSub_lt (ty : ITy) (sat : Bool) : iSub ty sat < 16 := by
  have h := ityCode_lt ty; have b := boolBit_lt sat
  simp only [iSub]
  omega
theorem fSub_lt (ty : FTy) (rm : Rm) : fSub ty rm < 16 := by
  have h := ftyCode_lt ty; have b := rmCode_lt rm
  simp only [fSub]
  omega
theorem fin_lt {n : Nat} (x : Fin n) (m : Nat) (h : n ≤ m) : x.val < m := Nat.lt_of_lt_of_le x.isLt h

/-- The fields fit their places (R61): eight bits for the major and each operand field, four for sub and stall, ten for the modifiers,
three for kmask. -/
structure Raw.Fits (r : Raw) : Prop where
  major : r.major < 256
  sub : r.sub < 16
  m10 : r.m10 < 1024
  c : r.c < 256
  b : r.b < 256
  a : r.a < 256
  d : r.d < 256
  kmask : r.kmask < 8
  stall : r.stall < 16

theorem rawN_fits {h : Hdr} {major sub m10 d a b c : Nat} (h0 : major < 256) (h1 : sub < 16) (h2 : m10 < 1024) (h3 : d < 256)
    (h4 : a < 256) (h5 : b < 256) (h6 : c < 256) : (rawN h major sub m10 d a b c).Fits :=
  ⟨h0, h1, h2, h6, h5, h4, h3, h.kmask.isLt, h.stall.isLt⟩

theorem rawO_fits {h : Hdr} {major sub m10 : Nat} {d a b c : Opnd} (h0 : major < 256) (h1 : sub < 16) (h2 : m10 < 1024) :
    (rawO h major sub m10 d a b c).Fits :=
  rawN_fits h0 h1 h2 (opndCode_lt d) (opndCode_lt a) (opndCode_lt b) (opndCode_lt c)

/-- Fields that fit their places are read back from the words that hold them (R61). -/
theorem rawOf_rawWords (r : Raw) (h : r.Fits) : ∃ w0 w1 t, rawWords r = w0 :: w1 :: t ∧ rawOf w0 w1 r.lit = r := by
  obtain ⟨major, sub, m10, c, b, a, d, kinv, kmask, stall, lit⟩ := r
  obtain ⟨h0, h1, h2, h3, h4, h5, h6, h7, h8⟩ := h
  refine ⟨_, _, _, rfl, ?_⟩
  have hk := boolBit_lt kinv
  have hl : (if lit.isSome then 2 else 1) < 4 := by split <;> decide
  simp only at h0 h1 h2 h3 h4 h5 h6 h7 h8
  have hn : ∀ n : Nat, n < 2 ^ 64 → n % 2 ^ 32 + 2 ^ 32 * (n / 2 ^ 32 % 2 ^ 32) = n := by omega
  simp only [rawOf, BitVec.toNat_ofNat]
  generalize (if lit.isSome then 2 else 1) = k at *
  rw [hn _ (by omega)]
  simp only [Raw.mk.injEq, and_true]
  refine ⟨by omega, by omega, by omega, by omega, by omega, by omega, by omega, ?_, by omega, by omega⟩
  cases kinv <;> simp only [boolBit] <;> simp <;> omega

theorem rmOf_code (x : Rm) : rmOf (rmCode x) = x := by cases x <;> rfl
theorem ityOf_code (x : ITy) : ityOf (ityCode x) = x := by cases x <;> rfl
theorem ftyOf_code (x : FTy) : ftyOf (ftyCode x) = x := by cases x <;> rfl
theorem cmpTyOf_code (x : CmpTy) : cmpTyOf (cmpTyCode x) = x := by cases x <;> rfl
theorem icmpOf_code (x : ICmp) : icmpOf (icmpCode x) = x := by cases x <;> rfl
theorem fcmpOf_code (x : FCmp) : fcmpOf (fcmpCode x) = x := by cases x <;> rfl
theorem leaOf_code (x : LeaTy) : leaOf (leaCode x) = x := by cases x <;> rfl
theorem classOf_code (x : ClassFmt) : classOf (classCode x) = x := by cases x <;> rfl
theorem qOf_code (x : QFmt) : qOf (qCode x) = x := by cases x <;> rfl
theorem treeOf_code (x : TreeOp) : treeOf (treeCode x) = x := by cases x <;> rfl
theorem shflOf_code (x : Shfl) : shflOf (shflCode x) = x := by cases x <;> rfl
theorem voteOf_code (x : VoteOp) : voteOf (voteCode x) = x := by cases x <;> rfl
theorem kbinOf_code (x : KBin) : kbinOf (kbinCode x) = x := by cases x <;> rfl
theorem sizeOf_code (x : Size) : sizeOf (sizeCode x) = x := by cases x <;> rfl
theorem cacheOf_code (x : Cache) : cacheOf (cacheCode x) = x := by cases x <;> rfl
theorem scopeOf_code (x : Scope) : scopeOf (scopeCode x) = x := by cases x <;> rfl
theorem atomOf_code (x : AtomOp) : atomOf (atomCode x) = x := by cases x <;> rfl
theorem cctlOf_code (x : CctlOp) : cctlOf (cctlCode x) = x := by cases x <;> rfl
theorem xsetOf_code (x : XsetMode) : xsetOf (xsetCode x) = x := by cases x <;> rfl
theorem tfmtOf_code (x : TFmt) : tfmtOf (tfmtCode x) = x := by cases x <;> rfl
theorem collOf_code (x : CollOp) : collOf (collCode x) = x := by cases x <;> rfl
theorem halfOf_code (x : Half) : halfOf (halfCode x) = x := by cases x <;> rfl
theorem orderOfNat_code (x : Order) : orderOfNat (orderCode x) = x := by cases x <;> rfl
theorem pfmtOf_code (x : PFmt) : pfmtOf (pfmtCode x) = x := by
  cases x with
  | q q => cases q <;> rfl
  | _ => rfl
theorem cvtOf_code (x : CvtKind) : cvtOf (cvtCode x) = x := by
  cases x with
  | bf16 r | f16 r | nf8 r => cases r <;> rfl
  | _ => rfl
theorem opndOf_code (o : Opnd) : opndOf (opndCode o) = some o := by
  cases o with
  | v n => have h := n.isLt; simp [opndOf, opndCode]
  | s n =>
    have h := n.isLt
    have h1 : ¬ (176 + n.val < 176) := by omega
    simp [opndOf, opndCode, h1]
  | x n =>
    have h := n.isLt
    have h1 : ¬ (240 + n.val < 176) := by omega
    have h2 : ¬ (240 + n.val - 176 < 64) := by omega
    simp [opndOf, opndCode, h1, h2]
  | _ => rfl
theorem bit_one (b : Bool) : (boolBit b == 1) = b := by cases b <;> rfl
theorem modsOf_code (m : Mods) : modsOf (modsCode m) = m := by
  obtain ⟨a, b, c, d, e, f, g, n⟩ := m
  revert a b c d e f g n
  decide
theorem mcOf_code (m : MemCtl) : mcOf (mcCode m) = m := by
  obtain ⟨a, b, c, d⟩ := m
  cases a <;> cases b <;> cases c <;> cases d <;> rfl
theorem ityOf_iSub (ty : ITy) (sat : Bool) : ityOf (iSub ty sat % 8) = ty := by cases ty <;> cases sat <;> rfl
theorem sat_iSub (ty : ITy) (sat : Bool) : (iSub ty sat / 8 == 1) = sat := by cases ty <;> cases sat <;> rfl
theorem ftyOf_fSub (ty : FTy) (rm : Rm) : ftyOf (fSub ty rm / 4) = ty := by cases ty <;> cases rm <;> rfl
theorem rmOf_fSub (ty : FTy) (rm : Rm) : rmOf (fSub ty rm % 4) = rm := by cases ty <;> cases rm <;> rfl
theorem f8_val (x : Fin 8) : f8 x.val = x := by simp [f8]
theorem f4_val (x : Fin 4) : f4 x.val = x := by simp [f4]
theorem rawHdr_rawN (h : Hdr) (major sub m10 d a b c : Nat) : rawHdr (rawN h major sub m10 d a b c) = h := by
  simp [rawHdr, rawN]

theorem rawHdr_mk (h : Hdr) (major sub m10 c b a d : Nat) :
    rawHdr ⟨major, sub, m10, c, b, a, d, h.kinv, h.kmask.val, h.stall.toNat, h.lit⟩ = h :=
  rawHdr_rawN h major sub m10 d a b c
theorem off_back (x : BitVec 16) : BitVec.ofNat 16 (x.toNat % 256 + 256 * (x.toNat / 256)) = x := by
  have : x.toNat % 256 + 256 * (x.toNat / 256) = x.toNat := by omega
  simp [this]
theorem slot_back (x : Fin 4) : f4 (4 * x.val / 4) = x := by
  have h : 4 * x.val / 4 = x.val := by omega
  rw [h, f4_val]
theorem tags_back (n : BitVec 6) (b : Bool) : ((n.toNat + 64 * boolBit b) / 64 == 1) = b := by
  have h := n.isLt
  cases b <;> simp [boolBit] <;> omega
theorem count_back (n : BitVec 6) (b : Bool) : BitVec.ofNat 6 ((n.toNat + 64 * boolBit b) % 64) = n := by
  have h := n.isLt
  have e : (n.toNat + 64 * boolBit b) % 64 = n.toNat := by omega
  simp [e]

end Sys2Proof
end

