-- ==== Sys2Proof/Laws/Maps.lean ====
section
/-! SUPPORT. Sparse maps: reading after writing, and the canonical form, which every write keeps. -/

namespace Sys2Proof.Machine

variable {α : Type}

theorem smGet_erase_ne (d : α) (m : SMap α) {n k : Nat} (h : k ≠ n) : smGet d (smErase m n) k = smGet d m k := by
  induction m with
  | nil => rfl
  | cons p m ih =>
    obtain ⟨j, v⟩ := p
    by_cases hj : j = n
    · subst hj; simpa [smErase, smGet, h] using ih
    · simp only [smErase] at ih
      simp [smErase, smGet, hj, ih]

theorem smGet_erase_self (d : α) (m : SMap α) (n : Nat) : smGet d (smErase m n) n = d := by
  induction m with
  | nil => rfl
  | cons p m ih =>
    obtain ⟨j, v⟩ := p
    simp only [smErase] at ih
    by_cases hj : j = n
    · simpa [smErase, hj] using ih
    · simp [smErase, smGet, hj, Ne.symm hj, ih]

theorem smGet_entry_append [DecidableEq α] (d : α) (n : Nat) (v : α) (m : SMap α) (k : Nat) :
    smGet d (smEntry d n v ++ smErase m n) k = if k = n then v else smGet d m k := by
  unfold smEntry
  by_cases hv : v = d
  · subst hv
    by_cases hk : k = n
    · subst hk; simp [smGet_erase_self]
    · simp [hk, smGet_erase_ne _ _ hk]
  · by_cases hk : k = n
    · simp [hv, smGet, hk]
    · simp [hv, smGet, hk, smGet_erase_ne _ _ hk]

/-- Reading a key after a write: the value written, or what was there. -/
theorem smGet_smSet [DecidableEq α] (d : α) (m : SMap α) (n : Nat) (v : α) (k : Nat) :
    smGet d (smSet d m n v) k = if k = n then v else smGet d m k := by
  induction m with
  | nil =>
    have := smGet_entry_append d n v [] k
    simpa [smErase, smSet] using this
  | cons p m ih =>
    obtain ⟨j, w⟩ := p
    by_cases hj : n ≤ j
    · simp only [smSet, hj, if_true]
      exact smGet_entry_append d n v _ k
    · simp only [smSet, hj, if_false, smGet]
      by_cases hk : k = j
      · subst hk
        have : k ≠ n := by omega
        simp [this]
      · simp [hk, ih]

@[simp] theorem smGet_smSet_self [DecidableEq α] (d : α) (m : SMap α) (n : Nat) (v : α) : smGet d (smSet d m n v) n = v := by
  simp [smGet_smSet]

theorem smGet_smSet_ne [DecidableEq α] (d : α) (m : SMap α) {n k : Nat} (v : α) (h : k ≠ n) :
    smGet d (smSet d m n v) k = smGet d m k := by
  simp [smGet_smSet, h]

@[simp] theorem smGet_nil (d : α) (n : Nat) : smGet d ([] : SMap α) n = d := rfl

/-- Reading after a run of writes. -/
theorem smGet_smSetList [DecidableEq α] (d : α) (l : List α) : ∀ (m : SMap α) (n k : Nat),
    smGet d (smSetList d m n l) k = if n ≤ k ∧ k < n + l.length then l.getD (k - n) d else smGet d m k := by
  induction l with
  | nil => intro m n k; simp [smSetList]
  | cons v l ih =>
    intro m n k
    simp only [smSetList, ih, smGet_smSet, List.length_cons]
    by_cases h1 : k = n
    · subst h1
      simp
    · by_cases h2 : n + 1 ≤ k ∧ k < n + 1 + l.length
      · have h3 : n ≤ k ∧ k < n + (l.length + 1) := by omega
        have h4 : k - n = (k - (n + 1)) + 1 := by omega
        simp [h2, h3, h4]
      · have h3 : ¬ (n ≤ k ∧ k < n + (l.length + 1)) := by omega
        simp only [h2, h3, h1, if_false]

/-! The canonical form. -/

theorem smErase_mem {m : SMap α} {n : Nat} {p : Nat × α} (h : p ∈ smErase m n) : p ∈ m ∧ p.1 ≠ n := by
  simpa [smErase] using h

theorem smErase_wf (d : α) {m : SMap α} (h : SMap.wf d m) (n : Nat) : SMap.wf d (smErase m n) := by
  refine ⟨h.1.filter _, fun p hp => h.2 p (smErase_mem hp).1⟩

theorem smSet_keys [DecidableEq α] (d : α) {m : SMap α} {n : Nat} {v : α} {p : Nat × α} (h : p ∈ smSet d m n v) :
    p.1 = n ∨ p ∈ m := by
  induction m with
  | nil =>
    unfold smSet smEntry at h
    split at h
    · cases h
    · simp at h; simp [h]
  | cons q m ih =>
    obtain ⟨j, w⟩ := q
    unfold smSet at h
    split at h
    · rcases List.mem_append.mp h with h | h
      · unfold smEntry at h
        split at h
        · cases h
        · simp at h; simp [h]
      · exact .inr (smErase_mem h).1
    · rcases List.mem_cons.mp h with h | h
      · exact .inr (by simp [h])
      · exact (ih h).imp id (List.mem_cons_of_mem _)

/-- A write keeps the canonical form. -/
theorem smSet_wf [DecidableEq α] (d : α) {m : SMap α} (h : SMap.wf d m) (n : Nat) (v : α) : SMap.wf d (smSet d m n v) := by
  induction m with
  | nil =>
    unfold smSet smEntry
    split
    · exact h
    · rename_i hv; exact ⟨by simp, by simpa using hv⟩
  | cons q m ih =>
    obtain ⟨j, w⟩ := q
    have hm : SMap.wf d m := ⟨(List.pairwise_cons.mp h.1).2, fun p hp => h.2 p (List.mem_cons_of_mem _ hp)⟩
    have hlt := (List.pairwise_cons.mp h.1).1
    unfold smSet
    split
    · rename_i hn
      have he := smErase_wf d h n
      unfold smEntry
      split
      · simpa using he
      · rename_i hv
        refine ⟨?_, ?_⟩
        · refine List.pairwise_cons.mpr ⟨?_, he.1⟩
          intro p hp
          obtain ⟨hp1, hp2⟩ := smErase_mem hp
          rcases List.mem_cons.mp hp1 with rfl | hp1
          · simp at hp2 hn ⊢; omega
          · have := hlt p hp1; simp at this hn hp2 ⊢; omega
        · intro p hp
          rcases List.mem_cons.mp hp with rfl | hp
          · exact hv
          · exact he.2 p hp
    · rename_i hn
      have hs := ih hm
      refine ⟨List.pairwise_cons.mpr ⟨?_, hs.1⟩, ?_⟩
      · intro p hp
        rcases smSet_keys d hp with h1 | h1
        · simp [h1]; omega
        · exact hlt p h1
      · intro p hp
        rcases List.mem_cons.mp hp with rfl | hp
        · exact h.2 _ (by simp)
        · exact hs.2 p hp

theorem smSetList_wf [DecidableEq α] (d : α) (l : List α) : ∀ {m : SMap α}, SMap.wf d m → ∀ n, SMap.wf d (smSetList d m n l) := by
  induction l with
  | nil => intro m h n; exact h
  | cons v l ih => intro m h n; exact ih (smSet_wf d h n v) (n + 1)

theorem smDrop_wf (d : α) {m : SMap α} (h : SMap.wf d m) (lo hi : Nat) : SMap.wf d (smDrop m lo hi) :=
  ⟨h.1.filter _, fun p hp => h.2 p (List.mem_filter.mp hp).1⟩

/-! Memory. -/

/-- A write of bytes keeps memory's canonical form. -/
theorem setBytes_wf {m : Memory} (h : Memory.wf m) (a : Nat) (l : List Byte) : Memory.wf (setBytes m a l) :=
  smSetList_wf 0 l h a

/-- A byte read after a write of bytes. -/
theorem byteAt_setBytes (m : Memory) (a : Nat) (l : List Byte) (k : Nat) :
    byteAt (setBytes m a l) k = if a ≤ k ∧ k < a + l.length then l.getD (k - a) 0 else byteAt m k :=
  smGet_smSetList 0 l m a k

theorem byteAt_setBytes_out {m : Memory} {a : Nat} {l : List Byte} {k : Nat} (h : k < a ∨ a + l.length ≤ k) :
    byteAt (setBytes m a l) k = byteAt m k := by
  rw [byteAt_setBytes]
  split
  · omega
  · rfl

theorem bytesAt_length (m : Memory) (n : Nat) : ∀ a, (bytesAt m a n).length = n := by
  induction n with
  | zero => intro a; rfl
  | succ n ih => intro a; simp [bytesAt, ih]

theorem leBytes_length (n : Nat) : ∀ v, (leBytes n v).length = n := by
  induction n with
  | zero => intro v; rfl
  | succ n ih => intro v; simp [leBytes, ih]

/-- The little-endian bytes of a number spell it (R4). -/
theorem leNat_leBytes (n : Nat) : ∀ v, leNat (leBytes n v) = v % 256 ^ n := by
  induction n with
  | zero => intro v; simp [leBytes, leNat, Nat.mod_one]
  | succ n ih =>
    intro v
    simp only [leBytes, leNat, ih, BitVec.toNat_ofNat]
    have h := Nat.mod_mul (x := v) (a := 256) (b := 256 ^ n)
    rw [show 256 ^ (n + 1) = 256 * 256 ^ n from Nat.pow_succ', h]

end Sys2Proof.Machine
end

