-- ==== Sys2Proof/Laws/Lookup.lean ====
section
/-! SUPPORT. What the lookups of blocks, teams, records and launches give after each update. -/

namespace Sys2Proof.Machine

/-- Finding by key in a list in which the entries of one key are changed, their keys kept. -/
theorem find?_map_key {α : Type} (key : α → Nat) (k n : Nat) (f : α → α) (hf : ∀ x, key (f x) = key x) (l : List α) :
    (l.map fun x => if key x = k then f x else x).find? (fun x => key x == n)
      = (l.find? fun x => key x == n).map fun x => if n = k then f x else x := by
  induction l with
  | nil => rfl
  | cons a l ih =>
    by_cases hk : key a = k
    · by_cases hn : key a = n
      · subst hn; simp [hk, hf]
      · have h1 : ¬ n = k := fun h => hn (hk.trans h.symm)
        simp only [List.map_cons, hk, if_true, List.find?_cons, hf]
        have : (k == n) = false := by simpa using fun h => h1 h.symm
        simp [this, ih]
    · by_cases hn : key a = n
      · have h1 : ¬ n = k := fun h => hk (hn.trans h)
        simp [hn, h1]
      · have : (key a == n) = false := by simpa using hn
        simp [hk, this, ih]

theorem State.block?_modBlock (s : State) (k n : Nat) (f : Block → Block) (hf : ∀ b, (f b).bid = b.bid) :
    (s.modBlock k f).block? n = (s.block? n).map fun b => if n = k then f b else b :=
  find?_map_key Block.bid k n f hf s.blocks

theorem Block.team?_modTeam (b : Block) (k n : Nat) (f : Team → Team) (hf : ∀ t, (f t).idx = t.idx) :
    (b.modTeam k f).team? n = (b.team? n).map fun t => if n = k then f t else t :=
  find?_map_key Team.idx k n f hf b.teams

theorem Team.rec?_modRec (t : Team) (k n : Nat) (f : Record → Record) (hf : ∀ r, (f r).num = r.num) :
    (t.modRec k f).rec? n = (t.rec? n).map fun r => if n = k then f r else r :=
  find?_map_key Record.num k n f hf t.records

@[simp] theorem Block.modTeam_bid (b : Block) (k : Nat) (f : Team → Team) : (b.modTeam k f).bid = b.bid := rfl

theorem State.block?_modTeam (s : State) (k i n : Nat) (f : Team → Team) :
    (s.modTeam k i f).block? n = (s.block? n).map fun b => if n = k then b.modTeam i f else b :=
  State.block?_modBlock s k n _ fun b => Block.modTeam_bid b i f

/-- A team after an update of a team. -/
theorem State.team?_modTeam (s : State) (k i n j : Nat) (f : Team → Team) (hf : ∀ t, (f t).idx = t.idx) :
    (s.modTeam k i f).team? n j = (s.team? n j).map fun t => if n = k ∧ j = i then f t else t := by
  unfold State.team?
  rw [State.block?_modTeam]
  cases s.block? n with
  | none => rfl
  | some b =>
    by_cases h : n = k
    · simp [h, Block.team?_modTeam _ _ _ _ hf]
    · simp [h]

/-- Two updates of one team are one. -/
theorem State.modTeam_modTeam (s : State) (k i : Nat) (f g : Team → Team) (hf : ∀ t, (f t).idx = t.idx) :
    (s.modTeam k i f).modTeam k i g = s.modTeam k i fun t => g (f t) := by
  unfold State.modTeam State.modBlock Block.modTeam
  simp only [List.map_map]
  congr 1
  apply List.map_congr_left
  intro b _
  by_cases h : b.bid = k
  · simp only [Function.comp, h, if_true, List.map_map]
    congr 1
    apply List.map_congr_left
    intro t _
    by_cases h2 : t.idx = i
    · simp [h2, hf]
    · simp [h2]
  · simp [Function.comp, h]

/-- What `getEnv` says of the state. -/
theorem getEnv_spec {s : State} {e : Env} (h : getEnv s = some e) :
    e.s = s ∧ e.who = s.cur ∧ s.block? s.cur.bid = some e.blk ∧ e.blk.team? s.cur.team = some e.team
      ∧ e.team.rec? s.cur.sub = some e.rcd ∧ s.launch? e.blk.q e.blk.lseq = some e.la ∧ e.rcd.k0 ≠ 0 := by
  unfold getEnv at h
  cases hb : s.block? s.cur.bid with
  | none => simp [hb] at h
  | some b =>
    cases ht : b.team? s.cur.team with
    | none => simp [hb, ht] at h
    | some t =>
      cases hr : t.rec? s.cur.sub with
      | none => simp [hb, ht, hr] at h
      | some r =>
        cases hl : s.launch? b.q b.lseq with
        | none => simp [hb, ht, hr, hl] at h
        | some l =>
          simp only [hb, ht, hr, hl] at h
          by_cases hk : r.k0 = 0
          · simp [hk] at h
          · simp only [hk, if_false, Option.some.injEq] at h
            subst h
            exact ⟨rfl, rfl, rfl, ht, hr, hl, hk⟩

theorem getEnv_team {s : State} {e : Env} (h : getEnv s = some e) :
    s.team? e.who.bid e.who.team = some e.team := by
  obtain ⟨-, hw, hb, ht, -⟩ := getEnv_spec h
  simp [State.team?, hw, hb, ht]

end Sys2Proof.Machine
end

