-- ==== Sys2Proof/Laws/Fuse.lean ====
section
/-! SUPPORT. Fusing, splitting and draining change a team's records and split entries and nothing else of it. -/

namespace Sys2Proof.Machine

/-- `u` is `t` but for its records and its split entries. -/
def OnlyRecs (t u : Team) : Prop := u = { t with records := u.records, splits := u.splits }

theorem OnlyRecs.rfl' (t : Team) : OnlyRecs t t := rfl

theorem OnlyRecs.trans {t u v : Team} (h : OnlyRecs t u) (g : OnlyRecs u v) : OnlyRecs t v := by
  unfold OnlyRecs at *
  rw [g, h]

theorem onlyRecs_records (t : Team) (l : List Record) : OnlyRecs t { t with records := l } := rfl

theorem onlyRecs_wake (p : Wait → Bool) (now : Nat) (t : Team) : OnlyRecs t (t.wake p now) := rfl

theorem onlyRecs_drain (t : Team) : OnlyRecs t t.drain := rfl

theorem onlyRecs_modRec (t : Team) (n : Nat) (f : Record → Record) : OnlyRecs t (t.modRec n f) := rfl

theorem onlyRecs_dropArm (fuel : Nat) : ∀ (t : Team) (e : Nat), OnlyRecs t (dropArm t e fuel) := by
  induction fuel with
  | zero => intro t e; exact OnlyRecs.rfl' t
  | succ n ih =>
    intro t e
    simp only [dropArm]
    split
    · exact OnlyRecs.rfl' t
    · split
      · exact OnlyRecs.trans (show OnlyRecs t { t with splits := _ } from rfl) (ih _ _)
      · split <;> rfl

theorem onlyRecs_mergeRec (now : Nat) (a b : Record) (pc : W64) (w : Wait) (t : Team) :
    OnlyRecs t (mergeRec now a b pc w t) := by
  unfold mergeRec
  exact ((onlyRecs_records t _).trans ((onlyRecs_drain _).trans (onlyRecs_dropArm _ _ _))).trans (onlyRecs_wake _ _ _)

theorem onlyRecs_fuseAll (now fuel : Nat) : ∀ t, OnlyRecs t (fuseAll now fuel t) := by
  induction fuel with
  | zero => intro t; exact OnlyRecs.rfl' t
  | succ n ih =>
    intro t
    simp only [fuseAll]
    split
    · exact OnlyRecs.rfl' t
    · exact (onlyRecs_mergeRec _ _ _ _ _ _).trans (ih _)

theorem onlyRecs_foldl {α : Type} (f : Team → α → Team) (hf : ∀ t a, OnlyRecs t (f t a)) (l : List α) :
    ∀ t, OnlyRecs t (l.foldl f t) := by
  induction l with
  | nil => intro t; exact OnlyRecs.rfl' t
  | cons a l ih => intro t; exact (hf t a).trans (ih _)

theorem onlyRecs_settleJoins (now fuel : Nat) : ∀ t, OnlyRecs t (settleJoins now fuel t) := by
  induction fuel with
  | zero => intro t; exact OnlyRecs.rfl' t
  | succ n ih =>
    intro t
    simp only [settleJoins]
    split
    · exact OnlyRecs.rfl' t
    · split
      · exact OnlyRecs.rfl' t
      · refine OnlyRecs.trans ?_ (ih _)
        split
        · exact (onlyRecs_foldl _ (fun t k => onlyRecs_mergeRec _ _ _ _ _ _) _ _).trans (onlyRecs_modRec _ _ _)
        · exact onlyRecs_modRec _ _ _

theorem onlyRecs_fuseMany (now : Nat) (t : Team) :
    OnlyRecs t (if t.records.length ≤ 1 then t else fuseAll now 32 t) := by
  split
  · exact OnlyRecs.rfl' t
  · exact onlyRecs_fuseAll _ _ _

theorem onlyRecs_joins (now : Nat) (t : Team) :
    OnlyRecs t (if t.records.any fun r => r.wait.isJoin then
      (fun t => if t.records.length ≤ 1 then t else fuseAll now 32 t) (settleJoins now 32 t) else t) := by
  split
  · exact (onlyRecs_settleJoins now 32 t).trans (onlyRecs_fuseMany now _)
  · exact OnlyRecs.rfl' t

/-- Fusing changes records and split entries only. -/
theorem onlyRecs_fuse (now : Nat) (t : Team) : OnlyRecs t (t.fuse now) :=
  (onlyRecs_fuseMany now t).trans (onlyRecs_joins now _)

theorem OnlyRecs.idx {t u : Team} (h : OnlyRecs t u) : u.idx = t.idx := by rw [h]
theorem OnlyRecs.v {t u : Team} (h : OnlyRecs t u) : u.v = t.v := by rw [h]
theorem OnlyRecs.s {t u : Team} (h : OnlyRecs t u) : u.s = t.s := by rw [h]
theorem OnlyRecs.x {t u : Team} (h : OnlyRecs t u) : u.x = t.x := by rw [h]
theorem OnlyRecs.k {t u : Team} (h : OnlyRecs t u) : u.k = t.k := by rw [h]
theorem OnlyRecs.probe {t u : Team} (h : OnlyRecs t u) : u.probe = t.probe := by rw [h]

/-- A lone record that waits at no `JOIN` does not change. -/
theorem fuse_one (now : Nat) (t : Team) (h : t.records.length ≤ 1) (hj : (t.records.any fun r => r.wait.isJoin) = false) :
    t.fuse now = t := by
  unfold Team.fuse
  simp [h, hj]

end Sys2Proof.Machine
end

