-- ==== Sys2Proof/Laws/Issue.lean ====
section
/-! SUPPORT. What an issue does: the checks, recording the issue, the registers a destination takes, the post-step of index
registers, and the whole of an instruction whose effect is one destination. -/

namespace Sys2Proof.Machine

/-! A meaning's outcome. -/

/-- Every form answers a next state where a sub-team issues. -/
theorem issueForm_some {f : Form} {i : Iss} {eff : Ctx → Res} {s : State} {e : Env} (h : getEnv s = some e) :
    issueForm f i eff s = .next (runForm f i eff e) := by
  simp [issueForm, h]

/-- The state with the issue recorded, in which the effect starts. -/
def Ctx.begun (c : Ctx) (f : Form) (e : Env) (i : Iss) : Ctx := { c with s := beginIssue [(f, c)] e i }

theorem gate_go {f : Form} {i : Iss} {e : Env} {c : Ctx} (h : gate f i e = .go c) :
    c.e = e ∧ c.s = e.s ∧ c.iss = i := by
  have key : ∀ (c0 : Ctx), c0.e = e ∧ c0.s = e.s ∧ c0.iss = i →
      (match c0.idxFault f with
        | some (l, q) => Gate.trap cIDXB (w64 q) l
        | none => if busyKeys e.team (c0.named f.srcs) (c0.named f.dsts) then Gate.wait else Gate.go c0) = Gate.go c →
      c.e = e ∧ c.s = e.s ∧ c.iss = i := by
    intro c0 h0 hg
    split at hg
    · cases hg
    · split at hg
      · cases hg
      · cases hg; exact h0
  unfold gate at h
  simp only at h
  split at h
  · cases h
  · split at h
    · cases h
    · split at h
      · cases h
      · split at h
        · cases h
        · split at h
          · split at h
            · cases h
            · exact key _ ⟨rfl, rfl, rfl⟩ h
          · exact key _ ⟨rfl, rfl, rfl⟩ h

theorem Runs.ctx {f : Form} {i : Iss} {s : State} {e : Env} {c : Ctx} (h : Runs f i s e c) :
    c.e = e ∧ c.s = s ∧ c.iss = i := by
  obtain ⟨h1, h2, h3⟩ := gate_go h.go
  exact ⟨h1, h2.trans (getEnv_spec h.env).1, h3⟩

/-- A form that executes comes to what its effect comes to. -/
theorem Runs.next {f : Form} {i : Iss} {s : State} {e : Env} {c : Ctx} (h : Runs f i s e c) (eff : Ctx → Res) :
    issueForm f i eff s = .next (conclude [(f, c.begun f e i)] e i (eff (c.begun f e i))) := by
  rw [issueForm_some h.env]
  have hc := h.calm
  have hce : (c.begun f e i).e.probing = false := by
    have := h.ctx.1
    simp [Ctx.begun, this, hc]
  have hm : (c.begun f e i).m ≠ 0 := h.lane
  have hb : bodyEffect f (c.begun f e i) eff = eff (c.begun f e i) := by
    simp only [bodyEffect, hm, if_false, hce]
    rfl
  unfold runForm
  simp only [hc, Bool.false_and, h.go]
  rw [if_neg (by simp)]
  show Host.Outcome.next (conclude [(f, c.begun f e i)] e i (bodyEffect f (c.begun f e i) eff)) = _
  rw [hb]

theorem Runs.done {f : Form} {i : Iss} {s : State} {e : Env} {c : Ctx} (h : Runs f i s e c) {eff : Ctx → Res} {s' : State}
    (he : eff (c.begun f e i) = .done s') : issueForm f i eff s = .next (finish [(f, c.begun f e i)] e s') := by
  rw [h.next eff, he]; rfl

/-! One team's update. -/

/-- What follows from a state that differs by the counters and one update of the issuing team. -/
theorem onlyTeam_of {s : State} {e : Env} (h : getEnv s = some e) (F : Team → Team) (hF : ∀ t, (F t).idx = t.idx)
    (a b : Nat) :
    OnlyTeam e s (State.modTeam { s with issueCtr := a, freeCtr := b } e.who.bid e.who.team F) (F e.team) := by
  obtain ⟨-, hw, hb, ht, -⟩ := getEnv_spec h
  have hblk : ({ s with issueCtr := a, freeCtr := b } : State).block? = s.block? := rfl
  refine ⟨rfl, ?_, ?_, ?_, ?_⟩
  · intro k hk
    rw [State.block?_modTeam, hblk]
    cases s.block? k <;> simp [hk]
  · refine ⟨(e.blk.modTeam e.who.team F).teams, ?_⟩
    rw [State.block?_modTeam, hblk, hw, hb]
    simp [Block.modTeam]
  · intro i hi
    rw [State.team?_modTeam _ _ _ _ _ _ hF]
    show (s.team? _ _).map _ = _
    cases s.team? e.who.bid i <;> simp [hi]
  · rw [State.team?_modTeam _ _ _ _ _ _ hF]
    show (s.team? _ _).map _ = _
    rw [getEnv_team h]; simp

/-- The team after the issue is recorded. -/
def Team.begun (t : Team) (fs : List (Form × Ctx)) (e : Env) (i : Iss) : Team :=
  let w := fs.foldl (fun n p => max n (passCount e p.1 p.2.m)) 1
  let t' := e.rcd.etime + (w - 1) + max i.stall 1
  let live := fs.filter fun p => !(p.2.m == 0)
  let new := live.flatMap fun p => newPends p.2 p.1
  let unr := live.flatMap fun p => if p.1.lat.isSome then [] else (p.2.named p.1.dsts).map fun k => (k, p.2.m)
  let u : Team := { t with waits := t.waits ++ unr, probe := t.probe.map fun p => { p with issued := p.issued + 1 } }
  u.modRec e.who.sub fun r =>
    { r with pc := r.pc + w64 i.len, etime := t', pend := mergePends t' r.pend new, yielded := false, aged := false,
             wait := .ready, readySince := e.s.time, issuedAt := e.s.issueCtr }

theorem beginIssue_eq (fs : List (Form × Ctx)) (e : Env) (i : Iss) :
    beginIssue fs e i = State.modTeam { e.s with issueCtr := e.s.issueCtr + 1, freeCtr := e.s.freeCtr + 1 }
      e.who.bid e.who.team fun t => t.begun fs e i := rfl

/-- The team after the effect. -/
def Team.ended (t : Team) (fs : List (Form × Ctx)) (now : Nat) : Team :=
  let t := fs.foldl (fun t p => postStep p.2.m p.1.indexes t) t
  let t := t.fuse now
  match t.probe with
  | some p => if 4096 ≤ p.issued ∨ 64 ≤ p.pages.length then t.endProbe else t
  | none => t

theorem finish_eq (fs : List (Form × Ctx)) (e : Env) (s : State) (h : e.probing = false) :
    finish fs e s = s.modTeam e.who.bid e.who.team fun t => t.ended fs s.time := by
  simp only [finish, h, Bool.false_and, Bool.false_eq_true, if_false]
  rfl

/-! Index registers. -/

theorem vKey_inj {r l r' l' : Nat} (h : l < 1024) (h' : l' < 1024) : vKey r l = vKey r' l' ↔ r = r' ∧ l = l' := by
  unfold vKey; omega

theorem maskLanes_nodup (m : LaneMask) (n : Nat) : (maskLanes m n).Nodup := List.nodup_range.filter _

theorem maskLanes_lt {m : LaneMask} {n l : Nat} (h : l ∈ maskLanes m n) : l < 1024 := by
  have := (List.mem_filter.mp h).2
  exact BitVec.lt_of_getLsbD this

/-- The new value of an index register. -/
def xStepped (x : W32) : W32 := xWithIndex x ((xIndex x + xStep x) % 256)

theorem Team.getX_setX (t : Team) (q l : Nat) (v : W32) {q' l' : Nat} (h : l < 1024) (h' : l' < 1024) :
    (t.setX q l v).getX q' l' = if q' = q ∧ l' = l then v else t.getX q' l' := by
  simp only [Team.getX, Team.setX, smGet_smSet, vKey_inj h' h]

theorem Team.getV_setV (t : Team) (r l : Nat) (v : W32) {r' l' : Nat} (h : l < 1024) (h' : l' < 1024) :
    (t.setV r l v).getV r' l' = if r' = r ∧ l' = l then v else t.getV r' l' := by
  simp only [Team.getV, Team.setV, smGet_smSet, vKey_inj h' h]

theorem Team.getS_setS (t : Team) (n : Nat) (v : W32) (n' : Nat) :
    (t.setS n v).getS n' = if n' = n then v else t.getS n' := by
  simp only [Team.getS, Team.setS, smGet_smSet]

/-- `u` is `t` but for its index registers. -/
def OnlyX (t u : Team) : Prop := u = { t with x := u.x }

theorem OnlyX.trans {t u v : Team} (h : OnlyX t u) (g : OnlyX u v) : OnlyX t v := by
  unfold OnlyX at *
  rw [g, h]

/-- The post-step of one index register. -/
def stepLanes (q : Nat) (ls : List Nat) (t : Team) : Team :=
  ls.foldl (fun t l => let x := t.getX q l; t.setX q l (xWithIndex x ((xIndex x + xStep x) % 256))) t

theorem stepLanes_spec (q : Nat) (ls : List Nat) : ∀ (t : Team), ls.Nodup → (∀ l ∈ ls, l < 1024) →
    OnlyX t (stepLanes q ls t) ∧ ∀ q' l', l' < 1024 →
      (stepLanes q ls t).getX q' l' = if q' = q ∧ l' ∈ ls then xStepped (t.getX q' l') else t.getX q' l' := by
  induction ls with
  | nil => intro t _ _; exact ⟨rfl, by simp [stepLanes]⟩
  | cons a ls ih =>
    intro t hn hl
    have ha : a < 1024 := hl a (by simp)
    obtain ⟨hna, hn'⟩ := List.nodup_cons.mp hn
    obtain ⟨h1, h2⟩ := ih (t.setX q a (xStepped (t.getX q a))) hn' fun l h => hl l (List.mem_cons_of_mem _ h)
    refine ⟨OnlyX.trans (show OnlyX t (t.setX q a (xStepped (t.getX q a))) from rfl) h1, ?_⟩
    intro q' l' hl'
    show (stepLanes q ls (t.setX q a (xStepped (t.getX q a)))).getX q' l' = _
    rw [h2 q' l' hl', Team.getX_setX _ _ _ _ ha hl']
    by_cases hq : q' = q
    · subst hq
      by_cases hla : l' = a
      · subst hla; simp [hna]
      · simp [hla]
    · simp [hq]

theorem postStep_spec (m : LaneMask) (qs : List Nat) : ∀ (t : Team), qs.Nodup →
    OnlyX t (postStep m qs t) ∧ ∀ q l, l < 1024 →
      (postStep m qs t).getX q l = if q ∈ qs ∧ l ∈ maskLanes m t.lanes then xStepped (t.getX q l) else t.getX q l := by
  induction qs with
  | nil => intro t _; exact ⟨rfl, by simp [postStep]⟩
  | cons a qs ih =>
    intro t hn
    obtain ⟨hna, hn'⟩ := List.nodup_cons.mp hn
    obtain ⟨g1, g2⟩ := stepLanes_spec a (maskLanes m t.lanes) t (maskLanes_nodup _ _) fun l h => maskLanes_lt h
    obtain ⟨h1, h2⟩ := ih (stepLanes a (maskLanes m t.lanes) t) hn'
    have hlanes : (stepLanes a (maskLanes m t.lanes) t).lanes = t.lanes := by rw [g1]
    refine ⟨g1.trans h1, ?_⟩
    intro q l hl
    show (postStep m qs (stepLanes a (maskLanes m t.lanes) t)).getX q l = _
    rw [h2 q l hl, hlanes, g2 q l hl]
    by_cases hq : q = a
    · subst hq; simp [hna]
    · simp [hq]

/-! Destinations. -/

/-- `u` is `t` but for its vector registers. -/
def OnlyV (t u : Team) : Prop := u = { t with v := u.v }

theorem OnlyV.trans {t u v : Team} (h : OnlyV t u) (g : OnlyV u v) : OnlyV t v := by
  unfold OnlyV at *
  rw [g, h]

/-- n registers from r0 of one lane. -/
theorem setV_run (r0 l v : Nat) (hl : l < 1024) (n : Nat) : ∀ t : Team,
    let u := (List.range n).foldl (fun t k => t.setV (r0 + k) l (w32 (v / 2 ^ (32 * k)))) t
    OnlyV t u ∧ ∀ r l', l' < 1024 →
      u.getV r l' = if l' = l ∧ r0 ≤ r ∧ r < r0 + n then regOf v (r - r0) else t.getV r l' := by
  induction n with
  | zero => intro t; exact ⟨rfl, fun r l' _ => by simp⟩
  | succ n ih =>
    intro t
    obtain ⟨h1, h2⟩ := ih t
    simp only [List.range_succ, List.foldl_append, List.foldl_cons, List.foldl_nil]
    refine ⟨h1.trans rfl, ?_⟩
    intro r l' hl'
    rw [Team.getV_setV _ _ _ _ hl hl', h2 r l' hl']
    by_cases hll : l' = l
    · subst hll
      by_cases hr : r = r0 + n
      · subst hr; simp [regOf]
      · have : (r0 ≤ r ∧ r < r0 + n) ↔ (r0 ≤ r ∧ r < r0 + (n + 1)) := by omega
        simp [hr, this]
    · simp [hll]

/-- n scalar registers from r0. -/
theorem setS_run (r0 v : Nat) (n : Nat) : ∀ t : Team,
    let u := (List.range n).foldl (fun t k => t.setS (r0 + k) (w32 (v / 2 ^ (32 * k)))) t
    u = { t with s := u.s } ∧ ∀ r, u.getS r = if r0 ≤ r ∧ r < r0 + n then regOf v (r - r0) else t.getS r := by
  induction n with
  | zero => intro t; exact ⟨rfl, fun r => by simp⟩
  | succ n ih =>
    intro t
    obtain ⟨h1, h2⟩ := ih t
    simp only [List.range_succ, List.foldl_append, List.foldl_cons, List.foldl_nil]
    refine ⟨?_, ?_⟩
    · rw [h1]; rfl
    · intro r
      rw [Team.getS_setS, h2 r]
      by_cases hr : r = r0 + n
      · subst hr; simp [regOf]
      · have : (r0 ≤ r ∧ r < r0 + n) ↔ (r0 ≤ r ∧ r < r0 + (n + 1)) := by omega
        simp [hr, this]

/-- The team-level effect of a destination that is no scalar. -/
theorem putLanes_spec (c : Ctx) (d : Opnd) (n : Nat) (val : Nat → Nat) (hd : opIsS d = false) (ls : List Nat) :
    ∀ t : Team, ls.Nodup → (∀ l ∈ ls, l < 1024) →
    let u := ls.foldl (fun t l => c.putLane d n l (val l) t) t
    OnlyV t u ∧ ∀ r l, l < 1024 → u.getV r l = match c.firstReg d l with
      | some r0 => if l ∈ ls ∧ r0 ≤ r ∧ r < r0 + n then regOf (val l) (r - r0) else t.getV r l
      | none => t.getV r l := by
  induction ls with
  | nil =>
    intro t _ _
    refine ⟨rfl, ?_⟩
    intro r l _
    cases c.firstReg d l <;> simp
  | cons a ls ih =>
    intro t hn hl
    obtain ⟨hna, hn'⟩ := List.nodup_cons.mp hn
    have ha : a < 1024 := hl a (by simp)
    have hlane : OnlyV t (c.putLane d n a (val a) t) ∧ ∀ r l, l < 1024 →
        (c.putLane d n a (val a) t).getV r l = match c.firstReg d a with
          | some r0 => if l = a ∧ r0 ≤ r ∧ r < r0 + n then regOf (val a) (r - r0) else t.getV r l
          | none => t.getV r l := by
      have hid : (List.range n).foldl (fun (t : Team) (_ : Nat) => t) t = t := by
        induction n with
        | zero => rfl
        | succ n ih => simp [List.range_succ]
      cases d with
      | v r0 => exact setV_run r0.val a (val a) ha n t
      | x q => exact setV_run (xReg (c.xval q.val a)) a (val a) ha n t
      | s r0 => cases hd
      | zero => exact ⟨by simpa [Ctx.putLane, Ctx.putReg, hid] using show OnlyV t t from rfl,
          fun r l _ => by simp [Ctx.putLane, Ctx.putReg, hid, Ctx.firstReg]⟩
      | lane => exact ⟨by simpa [Ctx.putLane, Ctx.putReg, hid] using show OnlyV t t from rfl,
          fun r l _ => by simp [Ctx.putLane, Ctx.putReg, hid, Ctx.firstReg]⟩
      | lit => exact ⟨by simpa [Ctx.putLane, Ctx.putReg, hid] using show OnlyV t t from rfl,
          fun r l _ => by simp [Ctx.putLane, Ctx.putReg, hid, Ctx.firstReg]⟩
      | ones => exact ⟨by simpa [Ctx.putLane, Ctx.putReg, hid] using show OnlyV t t from rfl,
          fun r l _ => by simp [Ctx.putLane, Ctx.putReg, hid, Ctx.firstReg]⟩
    obtain ⟨h1, h2⟩ := ih (c.putLane d n a (val a) t) hn' fun l h => hl l (List.mem_cons_of_mem _ h)
    refine ⟨hlane.1.trans h1, ?_⟩
    intro r l hlt
    have e1 := h2 r l hlt
    have e2 := hlane.2 r l hlt
    simp only [List.foldl_cons]
    rw [e1]
    by_cases hla : l = a
    · subst hla
      rw [e2]
      cases c.firstReg d l with
      | none => rfl
      | some r0 => simp [hna]
    · have e3 : (c.putLane d n a (val a) t).getV r l = t.getV r l := by
        rw [e2]
        cases c.firstReg d a <;> simp [hla]
      rw [e3]
      cases c.firstReg d l <;> simp [hla]

/-- What a destination makes of a team. -/
def Ctx.putTeam (c : Ctx) (d : Opnd) (n : Nat) (val : Nat → Nat) (t : Team) : Team :=
  match d with
  | .s _ => c.putLane d n 0 (val 0) t
  | .zero => t
  | _ => c.lanes.foldl (fun t l => c.putLane d n l (val l) t) t

theorem putTeam_spec (c : Ctx) (d : Opnd) (n : Nat) (val : Nat → Nat) (t : Team) (hv : t.v = c.e.team.v)
    (hs : t.s = c.e.team.s) :
    c.putTeam d n val t = { t with v := (c.putTeam d n val t).v, s := (c.putTeam d n val t).s }
      ∧ (∀ r l, l < 1024 → (c.putTeam d n val t).getV r l = c.vAfter d n val r l)
      ∧ ∀ r, (c.putTeam d n val t).getS r = c.sAfter d n val r := by
  have hgv : ∀ r l, t.getV r l = c.e.team.getV r l := fun r l => by simp [Team.getV, hv]
  have hgs : ∀ r, t.getS r = c.e.team.getS r := fun r => by simp [Team.getS, hs]
  by_cases hd : opIsS d = true
  · cases d with
    | s r0 =>
      obtain ⟨h1, h2⟩ := setS_run r0.val (val 0) n t
      change c.putTeam (.s r0) n val t = { t with s := (c.putTeam (.s r0) n val t).s } at h1
      refine ⟨?_, ?_, ?_⟩
      · rw [h1]
      · intro r l _
        rw [h1]
        simpa [Ctx.vAfter, Ctx.firstReg, Ctx.vAfter.e0, Team.getV] using congrArg (fun m => smGet 0 m (vKey r l)) hv
      · intro r
        have := h2 r
        simp only [Ctx.sAfter, ← hgs]
        exact this
    | _ => simp [opIsS] at hd
  · have hd : opIsS d = false := by simpa using hd
    obtain ⟨h1, h2⟩ := putLanes_spec c d n val hd c.lanes t (maskLanes_nodup _ _) fun l h => maskLanes_lt h
    have hz : c.putTeam d n val t = c.lanes.foldl (fun t l => c.putLane d n l (val l) t) t ∨
        (d = .zero ∧ c.putTeam d n val t = t) := by
      cases d with
      | s r => exact absurd hd (by simp [opIsS])
      | _ => simp [Ctx.putTeam]
    rcases hz with hz | ⟨rfl, hz⟩
    · rw [hz]
      have h1 : _ = _ := h1
      refine ⟨?_, ?_, ?_⟩
      · rw [h1]
      · intro r l hl
        rw [h2 r l hl]
        unfold Ctx.vAfter Ctx.vAfter.e0
        rw [hgv] <;> (cases c.firstReg d l <;> rfl)
      · intro r
        rw [h1]
        cases d <;> simp [Ctx.sAfter, Team.getS, hs] <;> simp [opIsS] at hd
    · rw [hz]
      exact ⟨rfl, fun r l _ => by simp [Ctx.vAfter, Ctx.firstReg, Ctx.vAfter.e0, hgv], fun r => by simp [Ctx.sAfter, hgs]⟩

theorem putTeam_idx (c : Ctx) (d : Opnd) (n : Nat) (val : Nat → Nat) (t : Team) : (c.putTeam d n val t).idx = t.idx := by
  by_cases hd : opIsS d = true
  · cases d with
    | s r0 =>
      have h : c.putTeam (.s r0) n val t = { t with s := (c.putTeam (.s r0) n val t).s } := (setS_run r0.val (val 0) n t).1
      rw [h]
    | _ => simp [opIsS] at hd
  · have hd : opIsS d = false := by simpa using hd
    have h1 := (putLanes_spec c d n val hd c.lanes t (maskLanes_nodup _ _) fun l h => maskLanes_lt h).1
    have h2 : c.putTeam d n val t = c.lanes.foldl (fun t l => c.putLane d n l (val l) t) t ∨ c.putTeam d n val t = t := by
      cases d with
      | s r => exact absurd hd (by simp [opIsS])
      | _ => simp [Ctx.putTeam]
    rcases h2 with h2 | h2
    · rw [h2]
      have h1 : _ = _ := h1
      rw [h1]
    · rw [h2]

theorem modTeam_id (s : State) (k i : Nat) : s.modTeam k i (fun t => t) = s := by
  simp [State.modTeam, State.modBlock, Block.modTeam]

theorem putOn_eq (c : Ctx) (d : Opnd) (n : Nat) (val : Nat → Nat) (s : State) :
    c.putOn c.lanes d n val s = c.modTeam s (c.putTeam d n val) := by
  cases d <;> (simp [Ctx.putOn, Ctx.modTeam]; first | rfl | exact (modTeam_id s _ _).symm)

/-! An instruction with one destination. -/

theorem onlyX_steps (fs : List (Form × Ctx)) : ∀ t : Team, OnlyX t (fs.foldl (fun t p => postStep p.2.m p.1.indexes t) t) := by
  induction fs with
  | nil => intro t; rfl
  | cons p fs ih =>
    intro t
    have h1 : OnlyX t (postStep p.2.m p.1.indexes t) := (postStep_spec p.2.m p.1.indexes t (List.nodup_dedup _)).1
    exact h1.trans (ih _)

theorem endProbe_idx (t : Team) : t.endProbe.idx = t.idx := by
  unfold Team.endProbe
  split <;> rfl

theorem ended_calm (t : Team) (fs : List (Form × Ctx)) (now : Nat) (h : t.probe = none) :
    t.ended fs now = (fs.foldl (fun t p => postStep p.2.m p.1.indexes t) t).fuse now := by
  have h2 := onlyRecs_fuse now (fs.foldl (fun t p => postStep p.2.m p.1.indexes t) t)
  have hpr : ((fs.foldl (fun t p => postStep p.2.m p.1.indexes t) t).fuse now).probe = none := by
    rw [h2.probe, onlyX_steps fs t]; exact h
  unfold Team.ended
  simp only [hpr]

theorem ended_idx (t : Team) (fs : List (Form × Ctx)) (now : Nat) : (t.ended fs now).idx = t.idx := by
  have h2 := onlyRecs_fuse now (fs.foldl (fun t p => postStep p.2.m p.1.indexes t) t)
  have h3 : ((fs.foldl (fun t p => postStep p.2.m p.1.indexes t) t).fuse now).idx = t.idx := by
    rw [h2.idx, onlyX_steps fs t]
  unfold Team.ended
  simp only
  split
  · split
    · rw [endProbe_idx, h3]
    · exact h3
  · exact h3

/-- What an executed form leaves of a team beside its registers, records, split entries and ready bits. -/
theorem begun_rest (t : Team) (fs : List (Form × Ctx)) (e : Env) (i : Iss) (h : t.probe = none) :
    t.begun fs e i = { t with records := (t.begun fs e i).records, waits := (t.begun fs e i).waits } := by
  simp only [Team.begun, Team.modRec, h, Option.map_none]

theorem begun_waits (t : Team) (f : Form) (e : Env) (i : Iss) (c : Ctx) (hm : c.m ≠ 0) :
    (t.begun [(f, c)] e i).waits = t.waits ++ (if f.lat.isSome then [] else (c.named f.dsts).map fun k => (k, c.m)) := by
  have hb : ((c.m == 0#1024) : Bool) = false := by simpa using hm
  simp [Team.begun, Team.modRec, hb]

/-- The team after a form with one destination has executed, from the team that issued it. -/
theorem wrote_team (f : Form) (e : Env) (i : Iss) (c : Ctx) (d : Opnd) (n : Nat) (val : Nat → Nat) (now : Nat)
    (hc : c.e = e) (hp : e.team.probe = none) (hm : c.m ≠ 0) :
    Wrote f e c d n val ((c.putTeam d n val (e.team.begun [(f, c)] e i)).ended [(f, c.begun f e i)] now) := by
  obtain ⟨b, hb⟩ : ∃ b, b = e.team.begun [(f, c)] e i := ⟨_, rfl⟩
  have hb1 := begun_rest e.team [(f, c)] e i hp
  have hb2 := begun_waits e.team f e i c hm
  rw [← hb] at hb1 hb2 ⊢
  have hbv : b.v = c.e.team.v := by rw [hb1, hc]
  have hbs : b.s = c.e.team.s := by rw [hb1, hc]
  obtain ⟨p1, p2, p3⟩ := putTeam_spec c d n val b hbv hbs
  obtain ⟨u, hu⟩ : ∃ u, u = c.putTeam d n val b := ⟨_, rfl⟩
  rw [← hu] at p1 p2 p3 ⊢
  have hup : u.probe = none := by rw [p1, hb1]; exact hp
  rw [ended_calm u _ now hup]
  have q := postStep_spec c.m f.indexes u (List.nodup_dedup _)
  obtain ⟨w, hw⟩ : ∃ w, w = postStep c.m f.indexes u := ⟨_, rfl⟩
  rw [← hw] at q
  obtain ⟨q1, q2⟩ := q
  have hlist : ([(f, c.begun f e i)] : List (Form × Ctx)).foldl (fun t p => postStep p.2.m p.1.indexes t) u = w := by
    rw [hw]; rfl
  rw [hlist]
  have r1 := onlyRecs_fuse now w
  obtain ⟨z, hz⟩ : ∃ z, z = w.fuse now := ⟨_, rfl⟩
  rw [← hz] at r1 ⊢
  have hux : ∀ q l, u.getX q l = c.e.team.getX q l := by
    intro q l
    have : u.x = c.e.team.x := by rw [p1, hb1, hc]
    simp [Team.getX, this]
  have hul : u.lanes = c.e.team.lanes := by rw [p1, hb1, hc]
  refine ⟨?_, ?_, ?_, ?_⟩
  · intro r l hl
    have : z.v = u.v := by rw [r1.v, q1]
    rw [← p2 r l hl]
    simp [Team.getV, this]
  · intro r
    have : z.s = u.s := by rw [r1.s, q1]
    rw [← p3 r]
    simp [Team.getS, this]
  · intro q l hl
    have : z.getX q l = w.getX q l := by simp [Team.getX, r1.x]
    rw [this, q2 q l hl, hux, hul]
    rfl
  · have e1 : z = { w with records := z.records, splits := z.splits } := r1
    have e2 : w = { u with x := w.x } := q1
    have e3 : u = { b with v := u.v, s := u.s } := p1
    unfold SameTeam
    rw [← hb2]
    conv_lhs => rw [e1, e2, e3, hb1]
    have hzx : z.x = w.x := r1.x
    have hzv : z.v = u.v := by rw [r1.v, q1]
    have hzs : z.s = u.s := by rw [r1.s, q1]
    rw [hzx, hzv, hzs]

theorem modTeam_three (s : State) (k i : Nat) (f g h : Team → Team) (hf : ∀ t, (f t).idx = t.idx)
    (hg : ∀ t, (g t).idx = t.idx) :
    ((s.modTeam k i f).modTeam k i g).modTeam k i h = s.modTeam k i fun t => h (g (f t)) := by
  rw [State.modTeam_modTeam s k i f g hf,
    State.modTeam_modTeam s k i (fun t => g (f t)) h fun t => (hg (f t)).trans (hf t)]

/-- AN INSTRUCTION WHOSE EFFECT IS ON ITS TEAM: where it executes, the team takes the effect between the issue and what follows it. -/
theorem team_effect {ins : Instr} {f : Form} {i : Iss} {s : State} {e : Env} {c : Ctx} {eff : Ctx → Res} (G : Team → Team)
    (hG : ∀ t, (G t).idx = t.idx) (h : Runs f i s e c) (hx : exec ins s = issueForm f i eff s)
    (he : eff (c.begun f e i) = .done (c.modTeam (beginIssue [(f, c)] e i) G)) :
    ∃ t, exec ins s = .next t ∧
      OnlyTeam e s t ((G (e.team.begun [(f, c)] e i)).ended [(f, c.begun f e i)] s.time) := by
  have hce := h.ctx.1
  have hes := (getEnv_spec h.env).1
  let F : Team → Team := fun t => (G (t.begun [(f, c)] e i)).ended [(f, c.begun f e i)] s.time
  have hF : ∀ t, (F t).idx = t.idx := by
    intro t
    show ((G (t.begun [(f, c)] e i)).ended _ _).idx = _
    rw [ended_idx, hG]
    rfl
  refine ⟨_, ?_, onlyTeam_of h.env F hF (s.issueCtr + 1) (s.freeCtr + 1)⟩
  have h1 : c.modTeam (beginIssue [(f, c)] e i) G = (beginIssue [(f, c)] e i).modTeam e.who.bid e.who.team G := by
    show (beginIssue [(f, c)] e i).modTeam c.e.who.bid c.e.who.team G = _
    rw [hce]
  have h2 := modTeam_three { s with issueCtr := s.issueCtr + 1, freeCtr := s.freeCtr + 1 } e.who.bid e.who.team
    (fun t => t.begun [(f, c)] e i) G (fun t => t.ended [(f, c.begun f e i)] s.time) (fun t => rfl) hG
  rw [hx, h.done he, finish_eq _ _ _ h.calm, h1, beginIssue_eq, hes]
  exact congrArg Host.Outcome.next h2

theorem Runs.noProbe {f : Form} {i : Iss} {s : State} {e : Env} {c : Ctx} (h : Runs f i s e c) : e.team.probe = none := by
  have := h.calm
  simpa [Env.probing] using this

/-- AN INSTRUCTION WHOSE EFFECT IS ONE DESTINATION: where it executes, it writes its value and nothing else. -/
theorem writes_of {ins : Instr} {f : Form} {i : Iss} {s : State} {e : Env} {c : Ctx} {eff : Ctx → Res} {d : Opnd} {n : Nat}
    {val : Nat → Nat} (h : Runs f i s e c) (hx : exec ins s = issueForm f i eff s)
    (he : eff (c.begun f e i) = .done ((c.begun f e i).putOn c.lanes d n val (c.begun f e i).s)) :
    Writes ins f s e c d n val := by
  have h1 : (c.begun f e i).putOn c.lanes d n val (c.begun f e i).s
      = c.modTeam (beginIssue [(f, c)] e i) (c.putTeam d n val) := putOn_eq (c.begun f e i) d n val (c.begun f e i).s
  obtain ⟨t, ht, ho⟩ := team_effect (c.putTeam d n val) (putTeam_idx c d n val) h hx (he.trans (congrArg Res.done h1))
  exact ⟨t, _, ht, ho, wrote_team f e i c d n val s.time h.ctx.1 h.noProbe h.lane⟩

/-- Only the registers that a value fills count. -/
theorem Writes.congr {ins : Instr} {f : Form} {s : State} {e : Env} {c : Ctx} {d : Opnd} {n : Nat} {val val' : Nat → Nat}
    (hv : ∀ l k, k < n → regOf (val l) k = regOf (val' l) k) (h : Writes ins f s e c d n val) :
    Writes ins f s e c d n val' := by
  obtain ⟨t, u, ht, ho, hw⟩ := h
  refine ⟨t, u, ht, ho, ?_, ?_, hw.idx, hw.rest⟩
  · intro r l hl
    rw [hw.vec r l hl]
    unfold Ctx.vAfter
    cases c.firstReg d l with
    | none => rfl
    | some r0 =>
      simp only
      split
      · rename_i hr
        exact hv l _ (by omega)
      · rfl
  · intro r
    rw [hw.sca r]
    unfold Ctx.sAfter
    cases d with
    | s r0 =>
      simp only
      split
      · rename_i hr
        exact hv 0 _ (by omega)
      · rfl
    | _ => rfl

/-- One register of a number is the number mod 2^32. -/
theorem regOf_zero (v : Nat) : regOf v 0 = w32 v := by simp [regOf]

theorem regOf_mod (v n k : Nat) (h : k < n) : regOf (v % 2 ^ (32 * n)) k = regOf v k := by
  apply BitVec.eq_of_toNat_eq
  simp only [regOf, w32, BitVec.toNat_ofNat]
  have h1 : 32 * n = 32 * k + (32 + 32 * (n - k - 1)) := by omega
  rw [h1, Nat.pow_add, Nat.mod_mul_right_div_self, Nat.pow_add, Nat.mod_mul_right_mod]

/-- An instruction's value may be taken modulo the destination's width. -/
theorem writes_of_mod {ins : Instr} {f : Form} {i : Iss} {s : State} {e : Env} {c : Ctx} {eff : Ctx → Res} {d : Opnd}
    {n : Nat} {val val' : Nat → Nat} (h : Runs f i s e c) (hx : exec ins s = issueForm f i eff s)
    (he : eff (c.begun f e i) = .done ((c.begun f e i).putOn c.lanes d n val (c.begun f e i).s))
    (hv : ∀ l, val l % 2 ^ (32 * n) = val' l % 2 ^ (32 * n)) : Writes ins f s e c d n val' :=
  (writes_of h hx he).congr fun l k hk => by rw [← regOf_mod (val l) n k hk, hv l, regOf_mod _ n k hk]

/-- The team after an effect on its masks. -/
theorem masked_team (f : Form) (e : Env) (i : Iss) (c : Ctx) (kd : Nat) (m : LaneMask) (now : Nat) (hc : c.e = e)
    (hp : e.team.probe = none) (hm : c.m ≠ 0) (hl : f.lat.isSome = true) :
    Masked f e c kd m
      (((e.team.begun [(f, c)] e i).setK kd (maskMerge ((e.team.begun [(f, c)] e i).getK c.e.rcd kd) m c.m)).ended
        [(f, c.begun f e i)] now) := by
  obtain ⟨b, hb⟩ : ∃ b, b = e.team.begun [(f, c)] e i := ⟨_, rfl⟩
  have hb1 := begun_rest e.team [(f, c)] e i hp
  have hb2 := begun_waits e.team f e i c hm
  rw [← hb] at hb1 hb2 ⊢
  rw [if_pos hl, List.append_nil] at hb2
  obtain ⟨u, hu⟩ : ∃ u, u = b.setK kd (maskMerge (b.getK c.e.rcd kd) m c.m) := ⟨_, rfl⟩
  have p1 : u = { b with k := u.k } := by rw [hu]; rfl
  have hbk : b.k = e.team.k := by rw [hb1]
  have hk : ∀ k, k ≠ 0 → smGet 0 u.k k = if k = kd then maskMerge (smGet 0 e.team.k k) m c.m else smGet 0 e.team.k k := by
    intro k h0
    rw [hu]
    simp only [Team.setK, smGet_smSet, hbk]
    by_cases hkd : k = kd
    · subst hkd; simp [Team.getK, h0, hbk]
    · simp [hkd]
  rw [← hu]
  have hup : u.probe = none := by rw [p1, hb1]; exact hp
  rw [ended_calm u _ now hup]
  have q := postStep_spec c.m f.indexes u (List.nodup_dedup _)
  obtain ⟨w, hw⟩ : ∃ w, w = postStep c.m f.indexes u := ⟨_, rfl⟩
  rw [← hw] at q
  obtain ⟨q1, q2⟩ := q
  have hlist : ([(f, c.begun f e i)] : List (Form × Ctx)).foldl (fun t p => postStep p.2.m p.1.indexes t) u = w := by
    rw [hw]; rfl
  rw [hlist]
  have r1 := onlyRecs_fuse now w
  obtain ⟨z, hz⟩ : ∃ z, z = w.fuse now := ⟨_, rfl⟩
  rw [← hz] at r1 ⊢
  have hux : ∀ q l, u.getX q l = c.e.team.getX q l := by
    intro q l
    have : u.x = c.e.team.x := by rw [p1, hb1, hc]
    simp [Team.getX, this]
  have hul : u.lanes = c.e.team.lanes := by rw [p1, hb1, hc]
  refine ⟨?_, ?_, ?_⟩
  · intro k h0
    have : z.k = u.k := by rw [r1.k, q1]
    rw [this]; exact hk k h0
  · intro q l hl
    have : z.getX q l = w.getX q l := by simp [Team.getX, r1.x]
    rw [this, q2 q l hl, hux, hul]
    rfl
  · have e1 : z = { w with records := z.records, splits := z.splits } := r1
    have e2 : w = { u with x := w.x } := q1
    have hzx : z.x = w.x := r1.x
    have hzk : z.k = u.k := by rw [r1.k, q1]
    conv_lhs => rw [e1, e2, p1, hb1]
    rw [hzx, hzk, hb2]

/-- AN INSTRUCTION WHOSE EFFECT IS ONE MASK. -/
theorem sets_mask_of {ins : Instr} {f : Form} {i : Iss} {s : State} {e : Env} {c : Ctx} {eff : Ctx → Res} {kd : Nat}
    {m : LaneMask} (h : Runs f i s e c) (hl : f.lat.isSome = true) (hx : exec ins s = issueForm f i eff s)
    (he : eff (c.begun f e i) = .done ((c.begun f e i).putMask kd m (c.begun f e i).s)) :
    SetsMask ins f s e c kd m := by
  obtain ⟨t, ht, ho⟩ := team_effect (fun t => t.setK kd (maskMerge (t.getK c.e.rcd kd) m c.m)) (fun t => rfl) h hx he
  exact ⟨t, _, ht, ho, masked_team f e i c kd m s.time h.ctx.1 h.noProbe h.lane hl⟩

end Sys2Proof.Machine
end

