-- ==== Sys2Proof/Laws/Memory.lean ====
section
/-! SUPPORT. Every operation that writes memory keeps its canonical form, and the moves of lines, tags and tables leave it alone. -/

namespace Sys2Proof.Machine

/-! What writes no byte of memory. -/

theorem countSketch_mem (s : State) (stack p : Nat) : (countSketch s stack p).1.mem = s.mem := by
  simp [countSketch, List.range_succ]

@[simp] theorem czCount_mem (s : State) (stack ctx : Nat) : (czCount s stack ctx).mem = s.mem := rfl

@[simp] theorem setMPoison_mem (s : State) (line : Nat) (b : Bool) : (setMPoison s line b).mem = s.mem := rfl

@[simp] theorem mscLeave_mem (s : State) (v : MscLine) : (mscLeave s v).mem = s.mem := by
  simp only [mscLeave]
  repeat' split
  all_goals rfl

theorem foldl_mscLeave_mem (l : List MscLine) : ∀ s : State, (l.foldl mscLeave s).mem = s.mem := by
  induction l with
  | nil => exact fun _ => rfl
  | cons v l ih => exact fun s => (ih _).trans (mscLeave_mem s v)

@[simp] theorem mscFill_mem (s : State) (stack line ctx : Nat) (dirty : Bool) : (mscFill s stack line ctx dirty).mem = s.mem := by
  unfold mscFill
  exact foldl_mscLeave_mem _ _

@[simp] theorem mscTouch_mem (s : State) (line ilv ctx : Nat) (write : Bool) : (mscTouch s line ilv ctx write).mem = s.mem := by
  simp only [mscTouch]
  split <;> simp [countSketch_mem]

@[simp] theorem modLine_mem (s : State) (die line : Nat) (f : CLine → CLine) : (s.modLine die line f).mem = s.mem := rfl

@[simp] theorem l2Put_mem (s : State) (c : CLine) (cache : Cache) : (l2Put s c cache).mem = s.mem := rfl

@[simp] theorem l2Use_mem (s : State) (die line : Nat) : (l2Use s die line).mem = s.mem := rfl

@[simp] theorem fillHome_mem (s : State) (p : Phys) (ctx : Nat) (cache : Cache) : (fillHome s p ctx cache).mem = s.mem := by
  simp only [fillHome]
  split <;> simp

@[simp] theorem wakeAll_mem (s : State) (p : Wait → Bool) : (s.wakeAll p).mem = s.mem := rfl

@[simp] theorem setLineKey_mem (s : State) (p : Phys) : (setLineKey s p).mem = s.mem := by
  simp only [setLineKey]
  split
  · rfl
  · split <;> rfl

@[simp] theorem putDir_mem (s : State) (old new : DirEnt) : (putDir s old new).mem = s.mem := rfl

@[simp] theorem dirSettle_mem (s : State) (die : Nat) (lines : List Nat) : (dirSettle s die lines).mem = s.mem := rfl

@[simp] theorem l1Drop_mem (s : State) (gone : L1Copy → Bool) : (l1Drop s gone).mem = s.mem := by
  simp only [l1Drop]
  split <;> rfl

@[simp] theorem l1DropLine_mem (s : State) (die line : Nat) : (l1DropLine s die line).mem = s.mem := l1Drop_mem s _

@[simp] theorem dropLines_mem (s : State) (gone : CLine → Bool) : (dropLines s gone).mem = s.mem := by
  simp only [dropLines]
  split
  · rfl
  · exact l1Drop_mem _ _

@[simp] theorem dirRoom_mem (s : State) (die slice : Nat) : (dirRoom s die slice).mem = s.mem := by
  simp only [dirRoom]
  split
  · rfl
  · split
    · rfl
    · exact l1Drop_mem s _

@[simp] theorem dirRead_mem (s : State) (die line core : Nat) : (dirRead s die line core).mem = s.mem := by
  simp only [dirRead]
  split
  · exact dirRoom_mem s _ _
  · split <;> first | rfl | split <;> rfl

@[simp] theorem dirSplit_mem (die line core : Nat) : ∀ (fuel : Nat) (s : State), (dirSplit s die line core fuel).mem = s.mem
  | 0, _ => rfl
  | fuel + 1, s => by
    simp only [dirSplit]
    split
    · rfl
    · split
      · rfl
      · exact (dirSplit_mem die line core fuel _).trans (dirRoom_mem _ _ _)

@[simp] theorem dirWrite_mem (s : State) (die line core : Nat) : (dirWrite s die line core).mem = s.mem := by
  simp only [dirWrite]
  split <;> split <;> simp

@[simp] theorem l1Put_mem (s : State) (k : L1Copy) : (l1Put s k).mem = s.mem := by
  simp only [l1Put]
  split
  · exact l1Drop_mem s _
  · rfl

@[simp] theorem l1Take_mem (s : State) (k : L1Copy) : (l1Take s k).mem = s.mem := by
  simp only [l1Take]
  split
  · simp
  · split <;> simp

@[simp] theorem readCaches_mem (s : State) (r : Req) (p : Phys) (toL1 : Bool) : (readCaches s r p toL1).mem = s.mem := by
  simp only [readCaches]
  repeat' split
  all_goals simp

@[simp] theorem patchLeased_mem (s : State) (die : Nat) (p : Phys) (l : List Byte) : (patchLeased s die p l).mem = s.mem := rfl

@[simp] theorem clearPoison_mem (s : State) (p : Phys) : (clearPoison s p).mem = s.mem := by
  simp only [clearPoison]
  split <;> rfl

@[simp] theorem putGrant_mem (s : State) (line expiry : Nat) (remote : Bool) : (putGrant s line expiry remote).mem = s.mem := by
  simp only [putGrant]
  split <;> rfl

@[simp] theorem barCount_mem (s : State) (off : Nat) : (barCount s off).mem = s.mem := by
  simp only [barCount]
  split <;> rfl

@[simp] theorem wakeSlice_mem (s : State) (die slice : Nat) : (wakeSlice s die slice).mem = s.mem := by
  have count : ∀ (l : List Nat) (off : Nat) (s : State), (l.foldl (fun s _ => barCount s off) s).mem = s.mem := by
    intro l off
    induction l with
    | nil => exact fun _ => rfl
    | cons _ l ih => exact fun s => (ih _).trans (barCount_mem s off)
  simp only [wakeSlice]
  split
  · split
    · rfl
    · exact (count _ _ _).trans (dropLines_mem _ _)
  · rfl

@[simp] theorem wakeFor_mem (s : State) (core : Nat) (p : Phys) : (wakeFor s core p).mem = s.mem := by
  simp only [wakeFor]
  split <;> simp

@[simp] theorem leaseRead_mem (s : State) (r : Req) (p : Phys) (toL1 : Bool) : (leaseRead s r p toL1).2.mem = s.mem := by
  simp only [leaseRead]
  repeat' split
  all_goals simp

/-- A core's read moves lines and writes no byte. -/
theorem coreReadLine_mem (s : State) (r : Req) (p : Phys) (toL1 : Bool) : (coreReadLine s r p toL1).2.mem = s.mem := by
  simp only [coreReadLine]
  repeat' split
  all_goals simp

/-! What writes memory keeps its form. -/

theorem putLine_wf {m : Memory} (h : m.wf) (line : Nat) (d : LineData) : (putLine m line d).wf := setBytes_wf h _ _

theorem foreignMem_wf {m : Memory} (h : m.wf) : (foreignMem m).wf := by
  refine ⟨h.1.filter _, fun p hp => h.2 p ?_⟩
  exact (List.mem_filter.1 hp).1

theorem progMem_wf {m : Memory} (h : m.wf) (code : Nat) : (progMem m code).wf := by
  simp only [progMem]
  generalize progCells code = l
  induction l generalizing m with
  | nil => exact h
  | cons c l ih => exact ih (setBytes_wf h _ _)

theorem writeBack_wf {s : State} (h : s.mem.wf) (line : Nat) : (writeBack s line).mem.wf := by
  simp only [writeBack]
  split
  · split
    · simpa using putLine_wf h _ _
    · exact h
  · exact h

theorem homeWrite_wf {s : State} (h : s.mem.wf) (p : Phys) (ctx : Nat) (l : List Byte) (poison : Bool)
    (cache : Cache) : (homeWrite s p ctx l poison cache).mem.wf := by
  simp only [homeWrite]
  split
  · simpa using h
  · split <;> simpa using putLine_wf h _ _

theorem coreWrite_wf {s : State} (h : s.mem.wf) (r : Req) (p : Phys) (l : List Byte) (poison : Bool) :
    (coreWrite s r p l poison).mem.wf := by
  have h : (wakeFor s r.core p).mem.wf := by simpa using h
  simp only [coreWrite]
  repeat' split
  all_goals simpa using homeWrite_wf h _ _ _ _ _

theorem atomicWrite_wf {s : State} (h : s.mem.wf) (r : Req) (p : Phys) (l : List Byte) : (atomicWrite s r p l).mem.wf := by
  have h : (wakeFor s r.core p).mem.wf := by simpa using h
  simpa [atomicWrite] using homeWrite_wf h _ _ _ _ _

theorem devWrite_wf {s : State} (h : s.mem.wf) (p : Phys) (ctx : Nat) (l : List Byte) : (devWrite s p ctx l).mem.wf := by
  simp only [devWrite]
  split
  · exact writeBack_wf (by simpa using homeWrite_wf h _ _ _ _ _) _
  · exact homeWrite_wf h _ _ _ _ _

theorem paWrite_wf {s : State} (h : s.mem.wf) (key ctx pa : Nat) (l : List Byte) : (paWrite s key ctx pa l).mem.wf := by
  simp only [paWrite]
  generalize linePieces pa _ _ = q
  induction q generalizing s with
  | nil => exact h
  | cons c q ih => exact ih (devWrite_wf h _ _ _)

theorem vaWrite_wf {s : State} (h : s.mem.wf) (ctx va : Nat) (l : List Byte) : (vaWrite s ctx va l).mem.wf := by
  simp only [vaWrite]
  generalize linePieces va _ _ = q
  induction q generalizing s with
  | nil => exact h
  | cons c q ih =>
    refine ih (s := match vaPhys s ctx c.1 with
      | some p => devWrite s p ctx ((l.drop (c.1 - va)).take c.2)
      | none => s) ?_
    split
    · exact devWrite_wf h _ _ _
    · exact h

theorem stationWrite_wf {s : State} (h : s.mem.wf) (p : Phys) (ctx : Nat) (l : List Byte) (poison : Bool) :
    (stationWrite s p ctx l poison).mem.wf := by
  simp only [stationWrite]
  split <;> simpa using putLine_wf h _ _

theorem evictLine_wf {s : State} (h : s.mem.wf) (die line : Nat) : (evictLine s die line).mem.wf := by
  simp only [evictLine, dropLines_mem]
  split
  · exact writeBack_wf h _
  · exact h

theorem fitL2_wf {s : State} (h : s.mem.wf) : (fitL2 s).mem.wf := by
  simp only [fitL2]
  split
  · exact h
  · generalize (List.foldl _ _ _ : List CLine × List CLine).2 = l
    clear * - h
    induction l generalizing s with
    | nil => exact h
    | cons c l ih => exact ih (evictLine_wf h _ _)

theorem peerLine_wf {s : State} (h : s.mem.wf) (line : Nat) (data : LineData) (poison : Bool) (ver : Option Version)
    (pend : Option PendState) : (peerLine s line data poison ver pend).mem.wf := by
  simp only [peerLine]
  split
  · simp only [wakeAll_mem, setMPoison_mem]
    exact putLine_wf h line data
  · exact h

theorem moveLine_wf {s : State} (h : s.mem.wf) (ctx : Nat) (a b : Phys) : (moveLine s ctx a b).mem.wf := by
  simpa [moveLine] using putLine_wf (writeBack_wf h a.line) _ _

theorem hostStore_wf {s : State} (h : s.mem.wf) (pa : Nat) (l : List Byte) : (hostStore s pa l).mem.wf := by
  simp only [hostStore]
  split
  · exact setBytes_wf h _ _
  · exact h

theorem moduleReset_wf {s : State} (h : s.mem.wf) : (moduleReset s).mem.wf := foreignMem_wf h

theorem reset_wf : State.reset.mem.wf := ⟨List.Pairwise.nil, nofun⟩

end Sys2Proof.Machine
end

