-- ==== Sys2Proof/Laws/Numbers.lean ====
section
/-! SUPPORT. The numbers of the statements and those of the model are the same. -/

namespace Sys2Proof.Machine

theorem sideBySide_succ (w n : Nat) (g : Nat → Nat) :
    sideBySide w (n + 1) g = g 0 % 2 ^ w + 2 ^ w * sideBySide w n fun k => g (k + 1) := by
  unfold sideBySide
  rw [List.range_succ_eq_map]
  simp only [List.map_cons, List.sum_cons, Nat.mul_zero, Nat.pow_zero, Nat.mul_one, List.map_map]
  congr 1
  rw [← List.sum_map_mul_left]
  congr 1
  apply List.map_congr_left
  intro k _
  simp only [Function.comp]
  rw [show w * Nat.succ k = w + w * k by rw [Nat.mul_succ, Nat.add_comm], Nat.pow_add]
  ring

theorem packElems_eq (w n : Nat) : ∀ g : Nat → Nat, packElems w n g = sideBySide w n g := by
  induction n with
  | zero => intro g; rfl
  | succ n ih =>
    intro g
    rw [sideBySide_succ, ← ih]
    unfold packElems
    rw [List.range_succ_eq_map]
    simp only [List.foldr_cons, List.foldr_map]

theorem narrowInt_eq (sat sg : Bool) (w : Nat) (v : Int) : narrowInt sat sg w v = inType sat sg w v := by
  unfold narrowInt inType wrapInt clampInt intMin intMax
  push_cast
  rfl

theorem wrapInt_eq (sg : Bool) (w : Nat) (v : Int) : wrapInt w v = inType false sg w v := by
  unfold inType wrapInt
  push_cast
  rfl

/-- An integer result as the statements write it. -/
theorem intEval_eq (ty : ITy) (sat : Bool) (m : Mods) (g : Int → Int → Int → Int) (x y z : Nat) :
    intEval ty sat m g x y z = intResult ty sat fun k =>
      g (intElem ty m.nega m.absa x k) (intElem ty m.negb m.absb y k) (intElem ty m.negc m.absc z k) := by
  unfold intEval intResult
  rw [packElems_eq]
  simp only [narrowInt_eq]

end Sys2Proof.Machine
end

