-- ==== Sys2Proof/Laws/PerInstr.lean ====
section
/-! SUPPORT. The families of statements made of each instruction: that its fields fit their places in the words (R61), and that they
name it again. -/

namespace Sys2Proof

set_option linter.unusedSimpArgs false

open Machine

namespace Laws.Fields

/-- The fields of the instruction, where it has a full form, fit their places (R61). -/
def Statement (i : Instr) : Prop := ∀ r, toRaw i = some r → r.Fits

theorem nop (x0 : Hdr) : Statement (.nop x0) :=
  fun _ h => Option.some.inj h ▸ rawO_fits (by decide) (by decide) (by decide)
theorem iadd (x0 : Hdr) (x1 : ITy) (x2 : Bool) (x3 : Mods) (x4 : Opnd) (x5 : Opnd) (x6 : Opnd) : Statement (.iadd x0 x1 x2 x3 x4 x5 x6) :=
  fun _ h => Option.some.inj h ▸ rawO_fits (by decide) (iSub_lt _ _) (modsCode_lt _)
theorem isub (x0 : Hdr) (x1 : ITy) (x2 : Bool) (x3 : Mods) (x4 : Opnd) (x5 : Opnd) (x6 : Opnd) : Statement (.isub x0 x1 x2 x3 x4 x5 x6) :=
  fun _ h => Option.some.inj h ▸ rawO_fits (by decide) (iSub_lt _ _) (modsCode_lt _)
theorem iadd3 (x0 : Hdr) (x1 : ITy) (x2 : Bool) (x3 : Mods) (x4 : Opnd) (x5 : Opnd) (x6 : Opnd) (x7 : Opnd) : Statement (.iadd3 x0 x1 x2 x3 x4 x5 x6 x7) :=
  fun _ h => Option.some.inj h ▸ rawO_fits (by decide) (iSub_lt _ _) (modsCode_lt _)
theorem imul (x0 : Hdr) (x1 : ITy) (x2 : Bool) (x3 : Mods) (x4 : Opnd) (x5 : Opnd) (x6 : Opnd) : Statement (.imul x0 x1 x2 x3 x4 x5 x6) :=
  fun _ h => Option.some.inj h ▸ rawO_fits (by decide) (iSub_lt _ _) (modsCode_lt _)
theorem imulh (x0 : Hdr) (x1 : ITy) (x2 : Opnd) (x3 : Opnd) (x4 : Opnd) : Statement (.imulh x0 x1 x2 x3 x4) :=
  fun _ h => Option.some.inj h ▸ rawO_fits (by decide) (iSub_lt _ _) (by decide)
theorem imad (x0 : Hdr) (x1 : ITy) (x2 : Bool) (x3 : Mods) (x4 : Opnd) (x5 : Opnd) (x6 : Opnd) (x7 : Opnd) : Statement (.imad x0 x1 x2 x3 x4 x5 x6 x7) :=
  fun _ h => Option.some.inj h ▸ rawO_fits (by decide) (iSub_lt _ _) (modsCode_lt _)
theorem imadw (x0 : Hdr) (x1 : Bool) (x2 : Bool) (x3 : Opnd) (x4 : Opnd) (x5 : Opnd) (x6 : Opnd) : Statement (.imadw x0 x1 x2 x3 x4 x5 x6) :=
  fun _ h => Option.some.inj h ▸ rawO_fits (by decide) (iSub_lt _ _) (by decide)
theorem idiv (x0 : Hdr) (x1 : ITy) (x2 : Bool) (x3 : Opnd) (x4 : Opnd) (x5 : Opnd) : Statement (.idiv x0 x1 x2 x3 x4 x5) :=
  fun _ h => Option.some.inj h ▸ rawO_fits (by decide) (iSub_lt _ _) (by decide)
theorem irem (x0 : Hdr) (x1 : ITy) (x2 : Opnd) (x3 : Opnd) (x4 : Opnd) : Statement (.irem x0 x1 x2 x3 x4) :=
  fun _ h => Option.some.inj h ▸ rawO_fits (by decide) (iSub_lt _ _) (by decide)
theorem imin (x0 : Hdr) (x1 : ITy) (x2 : Mods) (x3 : Opnd) (x4 : Opnd) (x5 : Opnd) : Statement (.imin x0 x1 x2 x3 x4 x5) :=
  fun _ h => Option.some.inj h ▸ rawO_fits (by decide) (iSub_lt _ _) (modsCode_lt _)
theorem imax (x0 : Hdr) (x1 : ITy) (x2 : Mods) (x3 : Opnd) (x4 : Opnd) (x5 : Opnd) : Statement (.imax x0 x1 x2 x3 x4 x5) :=
  fun _ h => Option.some.inj h ▸ rawO_fits (by decide) (iSub_lt _ _) (modsCode_lt _)
theorem isad (x0 : Hdr) (x1 : ITy) (x2 : Bool) (x3 : Opnd) (x4 : Opnd) (x5 : Opnd) (x6 : Opnd) : Statement (.isad x0 x1 x2 x3 x4 x5 x6) :=
  fun _ h => Option.some.inj h ▸ rawO_fits (by decide) (iSub_lt _ _) (by decide)
theorem icmp (x0 : Hdr) (x1 : CmpTy) (x2 : ICmp) (x3 : Fin 8) (x4 : Opnd) (x5 : Opnd) : Statement (.icmp x0 x1 x2 x3 x4 x5) :=
  fun _ h => Option.some.inj h ▸ rawN_fits (by decide) (by have := cmpTyCode_lt x1; have := icmpCode_lt x2; omega) (by decide) (fin_lt x3 _ (by decide)) (opndCode_lt _) (opndCode_lt _) (by decide)
theorem sel (x0 : Hdr) (x1 : Fin 4) (x2 : Opnd) (x3 : Opnd) (x4 : Opnd) (x5 : Fin 8) : Statement (.sel x0 x1 x2 x3 x4 x5) :=
  fun _ h => Option.some.inj h ▸ rawN_fits (by decide) (fin_lt x1 _ (by decide)) (by decide) (opndCode_lt _) (opndCode_lt _) (opndCode_lt _) (fin_lt x5 _ (by decide))
theorem lea (x0 : Hdr) (x1 : LeaTy) (x2 : Opnd) (x3 : Opnd) (x4 : Opnd) (x5 : Opnd) : Statement (.lea x0 x1 x2 x3 x4 x5) :=
  fun _ h => Option.some.inj h ▸ rawO_fits (by decide) (by have := leaCode_lt x1; omega) (by decide)
theorem andL (x0 : Hdr) (x1 : Fin 4) (x2 : Opnd) (x3 : Opnd) (x4 : Opnd) : Statement (.andL x0 x1 x2 x3 x4) :=
  fun _ h => Option.some.inj h ▸ rawO_fits (by decide) (fin_lt x1 _ (by decide)) (by decide)
theorem orL (x0 : Hdr) (x1 : Fin 4) (x2 : Opnd) (x3 : Opnd) (x4 : Opnd) : Statement (.orL x0 x1 x2 x3 x4) :=
  fun _ h => Option.some.inj h ▸ rawO_fits (by decide) (fin_lt x1 _ (by decide)) (by decide)
theorem xorL (x0 : Hdr) (x1 : Fin 4) (x2 : Opnd) (x3 : Opnd) (x4 : Opnd) : Statement (.xorL x0 x1 x2 x3 x4) :=
  fun _ h => Option.some.inj h ▸ rawO_fits (by decide) (fin_lt x1 _ (by decide)) (by decide)
theorem andn (x0 : Hdr) (x1 : Fin 4) (x2 : Opnd) (x3 : Opnd) (x4 : Opnd) : Statement (.andn x0 x1 x2 x3 x4) :=
  fun _ h => Option.some.inj h ▸ rawO_fits (by decide) (fin_lt x1 _ (by decide)) (by decide)
theorem shl (x0 : Hdr) (x1 : Fin 4) (x2 : Opnd) (x3 : Opnd) (x4 : Opnd) : Statement (.shl x0 x1 x2 x3 x4) :=
  fun _ h => Option.some.inj h ▸ rawO_fits (by decide) (fin_lt x1 _ (by decide)) (by decide)
theorem shr (x0 : Hdr) (x1 : Fin 4) (x2 : Opnd) (x3 : Opnd) (x4 : Opnd) : Statement (.shr x0 x1 x2 x3 x4) :=
  fun _ h => Option.some.inj h ▸ rawO_fits (by decide) (fin_lt x1 _ (by decide)) (by decide)
theorem sar (x0 : Hdr) (x1 : Fin 4) (x2 : Opnd) (x3 : Opnd) (x4 : Opnd) : Statement (.sar x0 x1 x2 x3 x4) :=
  fun _ h => Option.some.inj h ▸ rawO_fits (by decide) (fin_lt x1 _ (by decide)) (by decide)
theorem rol (x0 : Hdr) (x1 : Fin 4) (x2 : Opnd) (x3 : Opnd) (x4 : Opnd) : Statement (.rol x0 x1 x2 x3 x4) :=
  fun _ h => Option.some.inj h ▸ rawO_fits (by decide) (fin_lt x1 _ (by decide)) (by decide)
theorem fshr (x0 : Hdr) (x1 : Opnd) (x2 : Opnd) (x3 : Opnd) (x4 : Opnd) : Statement (.fshr x0 x1 x2 x3 x4) :=
  fun _ h => Option.some.inj h ▸ rawO_fits (by decide) (by decide) (by decide)
theorem bfe (x0 : Hdr) (x1 : Bool) (x2 : Opnd) (x3 : Opnd) (x4 : Opnd) : Statement (.bfe x0 x1 x2 x3 x4) :=
  fun _ h => Option.some.inj h ▸ rawO_fits (by decide) (by have := boolBit_lt (!x1); omega) (by decide)
theorem bfi (x0 : Hdr) (x1 : Opnd) (x2 : Opnd) (x3 : Opnd) (x4 : Opnd) : Statement (.bfi x0 x1 x2 x3 x4) :=
  fun _ h => Option.some.inj h ▸ rawO_fits (by decide) (by decide) (by decide)
theorem popc (x0 : Hdr) (x1 : Fin 4) (x2 : Opnd) (x3 : Opnd) : Statement (.popc x0 x1 x2 x3) :=
  fun _ h => Option.some.inj h ▸ rawO_fits (by decide) (fin_lt x1 _ (by decide)) (by decide)
theorem clz (x0 : Hdr) (x1 : Fin 4) (x2 : Opnd) (x3 : Opnd) : Statement (.clz x0 x1 x2 x3) :=
  fun _ h => Option.some.inj h ▸ rawO_fits (by decide) (fin_lt x1 _ (by decide)) (by decide)
theorem ctz (x0 : Hdr) (x1 : Fin 4) (x2 : Opnd) (x3 : Opnd) : Statement (.ctz x0 x1 x2 x3) :=
  fun _ h => Option.some.inj h ▸ rawO_fits (by decide) (fin_lt x1 _ (by decide)) (by decide)
theorem brev (x0 : Hdr) (x1 : Fin 4) (x2 : Opnd) (x3 : Opnd) : Statement (.brev x0 x1 x2 x3) :=
  fun _ h => Option.some.inj h ▸ rawO_fits (by decide) (fin_lt x1 _ (by decide)) (by decide)
theorem prmb (x0 : Hdr) (x1 : Opnd) (x2 : Opnd) (x3 : Opnd) (x4 : Opnd) : Statement (.prmb x0 x1 x2 x3 x4) :=
  fun _ h => Option.some.inj h ▸ rawO_fits (by decide) (by decide) (by decide)
theorem idot4 (x0 : Hdr) (x1 : Bool) (x2 : Bool) (x3 : Bool) (x4 : Opnd) (x5 : Opnd) (x6 : Opnd) (x7 : Opnd) : Statement (.idot4 x0 x1 x2 x3 x4 x5 x6 x7) :=
  fun _ h => Option.some.inj h ▸ rawO_fits (by decide) (by have := boolBit_lt x1; have := boolBit_lt x2; have := boolBit_lt x3; omega) (by decide)
theorem idot2 (x0 : Hdr) (x1 : Bool) (x2 : Bool) (x3 : Bool) (x4 : Opnd) (x5 : Opnd) (x6 : Opnd) (x7 : Opnd) : Statement (.idot2 x0 x1 x2 x3 x4 x5 x6 x7) :=
  fun _ h => Option.some.inj h ▸ rawO_fits (by decide) (by have := boolBit_lt x1; have := boolBit_lt x2; have := boolBit_lt x3; omega) (by decide)
theorem mov (x0 : Hdr) (x1 : Fin 4) (x2 : Opnd) (x3 : Opnd) : Statement (.mov x0 x1 x2 x3) :=
  fun _ h => Option.some.inj h ▸ rawO_fits (by decide) (fin_lt x1 _ (by decide)) (by decide)
theorem fadd (x0 : Hdr) (x1 : FTy) (x2 : Rm) (x3 : Mods) (x4 : Opnd) (x5 : Opnd) (x6 : Opnd) : Statement (.fadd x0 x1 x2 x3 x4 x5 x6) :=
  fun _ h => Option.some.inj h ▸ rawO_fits (by decide) (fSub_lt _ _) (modsCode_lt _)
theorem fsub (x0 : Hdr) (x1 : FTy) (x2 : Rm) (x3 : Mods) (x4 : Opnd) (x5 : Opnd) (x6 : Opnd) : Statement (.fsub x0 x1 x2 x3 x4 x5 x6) :=
  fun _ h => Option.some.inj h ▸ rawO_fits (by decide) (fSub_lt _ _) (modsCode_lt _)
theorem fmul (x0 : Hdr) (x1 : FTy) (x2 : Rm) (x3 : Mods) (x4 : Opnd) (x5 : Opnd) (x6 : Opnd) : Statement (.fmul x0 x1 x2 x3 x4 x5 x6) :=
  fun _ h => Option.some.inj h ▸ rawO_fits (by decide) (fSub_lt _ _) (modsCode_lt _)
theorem ffma (x0 : Hdr) (x1 : FTy) (x2 : Rm) (x3 : Mods) (x4 : Opnd) (x5 : Opnd) (x6 : Opnd) (x7 : Opnd) : Statement (.ffma x0 x1 x2 x3 x4 x5 x6 x7) :=
  fun _ h => Option.some.inj h ▸ rawO_fits (by decide) (fSub_lt _ _) (modsCode_lt _)
theorem fmin (x0 : Hdr) (x1 : FTy) (x2 : Mods) (x3 : Opnd) (x4 : Opnd) (x5 : Opnd) : Statement (.fmin x0 x1 x2 x3 x4 x5) :=
  fun _ h => Option.some.inj h ▸ rawO_fits (by decide) (fSub_lt _ _) (modsCode_lt _)
theorem fmax (x0 : Hdr) (x1 : FTy) (x2 : Mods) (x3 : Opnd) (x4 : Opnd) (x5 : Opnd) : Statement (.fmax x0 x1 x2 x3 x4 x5) :=
  fun _ h => Option.some.inj h ▸ rawO_fits (by decide) (fSub_lt _ _) (modsCode_lt _)
theorem fcmp (x0 : Hdr) (x1 : FCmp) (x2 : Mods) (x3 : Fin 8) (x4 : Opnd) (x5 : Opnd) : Statement (.fcmp x0 x1 x2 x3 x4 x5) :=
  fun _ h => Option.some.inj h ▸ rawN_fits (by decide) (by have := fcmpCode_lt x1; omega) (modsCode_lt _) (fin_lt x3 _ (by decide)) (opndCode_lt _) (opndCode_lt _) (by decide)
theorem fclass (x0 : Hdr) (x1 : ClassFmt) (x2 : Mods) (x3 : Fin 8) (x4 : Opnd) (x5 : Opnd) : Statement (.fclass x0 x1 x2 x3 x4 x5) :=
  fun _ h => Option.some.inj h ▸ rawN_fits (by decide) (by have := classCode_lt x1; omega) (modsCode_lt _) (fin_lt x3 _ (by decide)) (opndCode_lt _) (opndCode_lt _) (by decide)
theorem frnd (x0 : Hdr) (x1 : FTy) (x2 : Rm) (x3 : Mods) (x4 : Opnd) (x5 : Opnd) : Statement (.frnd x0 x1 x2 x3 x4 x5) :=
  fun _ h => Option.some.inj h ▸ rawO_fits (by decide) (fSub_lt _ _) (modsCode_lt _)
theorem fscale (x0 : Hdr) (x1 : FTy) (x2 : Rm) (x3 : Mods) (x4 : Opnd) (x5 : Opnd) (x6 : Opnd) : Statement (.fscale x0 x1 x2 x3 x4 x5 x6) :=
  fun _ h => Option.some.inj h ▸ rawO_fits (by decide) (fSub_lt _ _) (modsCode_lt _)
theorem fexpo (x0 : Hdr) (x1 : ClassFmt) (x2 : Opnd) (x3 : Opnd) : Statement (.fexpo x0 x1 x2 x3) :=
  fun _ h => Option.some.inj h ▸ rawO_fits (by decide) (by have := classCode_lt x1; omega) (by decide)
theorem fdot2 (x0 : Hdr) (x1 : Bool) (x2 : Rm) (x3 : Mods) (x4 : Opnd) (x5 : Opnd) (x6 : Opnd) (x7 : Opnd) : Statement (.fdot2 x0 x1 x2 x3 x4 x5 x6 x7) :=
  fun _ h => Option.some.inj h ▸ rawO_fits (by decide) (fSub_lt _ _) (modsCode_lt _)
theorem frcp (x0 : Hdr) (x1 : Rm) (x2 : Mods) (x3 : Opnd) (x4 : Opnd) : Statement (.frcp x0 x1 x2 x3 x4) :=
  fun _ h => Option.some.inj h ▸ rawO_fits (by decide) (by have := rmCode_lt x1; omega) (modsCode_lt _)
theorem frsq (x0 : Hdr) (x1 : Rm) (x2 : Mods) (x3 : Opnd) (x4 : Opnd) : Statement (.frsq x0 x1 x2 x3 x4) :=
  fun _ h => Option.some.inj h ▸ rawO_fits (by decide) (by have := rmCode_lt x1; omega) (modsCode_lt _)
theorem fsqrt (x0 : Hdr) (x1 : Rm) (x2 : Mods) (x3 : Opnd) (x4 : Opnd) : Statement (.fsqrt x0 x1 x2 x3 x4) :=
  fun _ h => Option.some.inj h ▸ rawO_fits (by decide) (by have := rmCode_lt x1; omega) (modsCode_lt _)
theorem fexp2 (x0 : Hdr) (x1 : Mods) (x2 : Opnd) (x3 : Opnd) : Statement (.fexp2 x0 x1 x2 x3) :=
  fun _ h => Option.some.inj h ▸ rawO_fits (by decide) (by decide) (modsCode_lt _)
theorem flog2 (x0 : Hdr) (x1 : Mods) (x2 : Opnd) (x3 : Opnd) : Statement (.flog2 x0 x1 x2 x3) :=
  fun _ h => Option.some.inj h ▸ rawO_fits (by decide) (by decide) (modsCode_lt _)
theorem fsin (x0 : Hdr) (x1 : Mods) (x2 : Opnd) (x3 : Opnd) : Statement (.fsin x0 x1 x2 x3) :=
  fun _ h => Option.some.inj h ▸ rawO_fits (by decide) (by decide) (modsCode_lt _)
theorem fcos (x0 : Hdr) (x1 : Mods) (x2 : Opnd) (x3 : Opnd) : Statement (.fcos x0 x1 x2 x3) :=
  fun _ h => Option.some.inj h ▸ rawO_fits (by decide) (by decide) (modsCode_lt _)
theorem ftanh (x0 : Hdr) (x1 : Mods) (x2 : Opnd) (x3 : Opnd) : Statement (.ftanh x0 x1 x2 x3) :=
  fun _ h => Option.some.inj h ▸ rawO_fits (by decide) (by decide) (modsCode_lt _)
theorem fsigm (x0 : Hdr) (x1 : Mods) (x2 : Opnd) (x3 : Opnd) : Statement (.fsigm x0 x1 x2 x3) :=
  fun _ h => Option.some.inj h ▸ rawO_fits (by decide) (by decide) (modsCode_lt _)
theorem fdiv (x0 : Hdr) (x1 : Rm) (x2 : Mods) (x3 : Opnd) (x4 : Opnd) (x5 : Opnd) : Statement (.fdiv x0 x1 x2 x3 x4 x5) :=
  fun _ h => Option.some.inj h ▸ rawO_fits (by decide) (by have := rmCode_lt x1; omega) (modsCode_lt _)
theorem cvt (x0 : Hdr) (x1 : CvtKind) (x2 : Mods) (x3 : Opnd) (x4 : Opnd) (x5 : Opnd) (x6 : Opnd) : Statement (.cvt x0 x1 x2 x3 x4 x5 x6) :=
  fun _ h => Option.some.inj h ▸ rawO_fits (by decide) (by have := cvtCode_lt x1; omega) (modsCode_lt _)
theorem ftoi (x0 : Hdr) (x1 : CmpTy) (x2 : Rm) (x3 : Mods) (x4 : Opnd) (x5 : Opnd) : Statement (.ftoi x0 x1 x2 x3 x4 x5) :=
  fun _ h => Option.some.inj h ▸ rawO_fits (by decide) (by have := cmpTyCode_lt x1; have := rmCode_lt x2; omega) (modsCode_lt _)
theorem itof (x0 : Hdr) (x1 : CmpTy) (x2 : Rm) (x3 : Mods) (x4 : Opnd) (x5 : Opnd) : Statement (.itof x0 x1 x2 x3 x4 x5) :=
  fun _ h => Option.some.inj h ▸ rawO_fits (by decide) (by have := cmpTyCode_lt x1; have := rmCode_lt x2; omega) (modsCode_lt _)
theorem qpack (x0 : Hdr) (x1 : QFmt) (x2 : Mods) (x3 : Opnd) (x4 : Opnd) : Statement (.qpack x0 x1 x2 x3 x4) :=
  fun _ h => Option.some.inj h ▸ rawO_fits (by decide) (by have := qCode_lt x1; omega) (modsCode_lt _)
theorem qunpk (x0 : Hdr) (x1 : QFmt) (x2 : Opnd) (x3 : Opnd) (x4 : Opnd) (x5 : Opnd) : Statement (.qunpk x0 x1 x2 x3 x4 x5) :=
  fun _ h => Option.some.inj h ▸ rawO_fits (by decide) (by have := qCode_lt x1; omega) (by decide)
theorem tred (x0 : Hdr) (x1 : TreeOp) (x2 : Opnd) (x3 : Opnd) : Statement (.tred x0 x1 x2 x3) :=
  fun _ h => Option.some.inj h ▸ rawO_fits (by decide) (by have := treeCode_lt x1; omega) (by decide)
theorem tscan (x0 : Hdr) (x1 : TreeOp) (x2 : Bool) (x3 : Opnd) (x4 : Opnd) : Statement (.tscan x0 x1 x2 x3 x4) :=
  fun _ h => Option.some.inj h ▸ rawO_fits (by decide) (by have := treeCode_lt x1; omega) (by decide)
theorem tshfl (x0 : Hdr) (x1 : Shfl) (x2 : Bool) (x3 : Opnd) (x4 : Opnd) (x5 : Opnd) (x6 : Opnd) : Statement (.tshfl x0 x1 x2 x3 x4 x5 x6) :=
  fun _ h => Option.some.inj h ▸ rawO_fits (by decide) (by have := shflCode_lt x1; have := boolBit_lt x2; omega) (by decide)
theorem tbcst (x0 : Hdr) (x1 : Bool) (x2 : Bool) (x3 : Opnd) (x4 : Opnd) (x5 : Opnd) (x6 : Opnd) : Statement (.tbcst x0 x1 x2 x3 x4 x5 x6) :=
  fun _ h => Option.some.inj h ▸ rawO_fits (by decide) (by have := boolBit_lt x1; have := boolBit_lt x2; omega) (by decide)
theorem vote (x0 : Hdr) (x1 : VoteOp) (x2 : Opnd) (x3 : Opnd) : Statement (.vote x0 x1 x2 x3) :=
  fun _ h => Option.some.inj h ▸ rawO_fits (by decide) (by have := voteCode_lt x1; omega) (by decide)
theorem matchL (x0 : Hdr) (x1 : Bool) (x2 : Bool) (x3 : Fin 8) (x4 : Opnd) : Statement (.matchL x0 x1 x2 x3 x4) :=
  fun _ h => Option.some.inj h ▸ rawN_fits (by decide) (by have := boolBit_lt x1; have := boolBit_lt x2; omega) (by decide) (fin_lt x3 _ (by decide)) (opndCode_lt _) (by decide) (by decide)
theorem kop (x0 : Hdr) (x1 : Fin 8) (x2 : KopForm) : Statement (.kop x0 x1 x2) := by
  cases x2 with
  | bin op ka kb =>
    exact fun _ h => Option.some.inj h ▸ rawN_fits (by decide) (by have := kbinCode_lt op; omega) (by decide)
      (fin_lt x1 _ (by decide)) (fin_lt ka _ (by decide)) (fin_lt kb _ (by decide)) (by decide)
  | not ka =>
    exact fun _ h => Option.some.inj h ▸ rawN_fits (by decide) (by decide) (by decide) (fin_lt x1 _ (by decide))
      (fin_lt ka _ (by decide)) (by decide) (by decide)
  | clr =>
    exact fun _ h => Option.some.inj h ▸ rawN_fits (by decide) (by decide) (by decide) (fin_lt x1 _ (by decide))
      (by decide) (by decide) (by decide)
  | set =>
    exact fun _ h => Option.some.inj h ▸ rawN_fits (by decide) (by decide) (by decide) (fin_lt x1 _ (by decide))
      (by decide) (by decide) (by decide)
theorem kcnt (x0 : Hdr) (x1 : Opnd) (x2 : Fin 8) : Statement (.kcnt x0 x1 x2) :=
  fun _ h => Option.some.inj h ▸ rawN_fits (by decide) (by decide) (by decide) (opndCode_lt _) (fin_lt x2 _ (by decide)) (by decide) (by decide)
theorem kfnd (x0 : Hdr) (x1 : Bool) (x2 : Opnd) (x3 : Fin 8) : Statement (.kfnd x0 x1 x2 x3) :=
  fun _ h => Option.some.inj h ▸ rawN_fits (by decide) (by have := boolBit_lt x1; omega) (by decide) (opndCode_lt _) (fin_lt x3 _ (by decide)) (by decide) (by decide)
theorem kmov (x0 : Hdr) (x1 : KmovForm) : Statement (.kmov x0 x1) := by
  cases x1 with
  | v2k kd a =>
    exact fun _ h => Option.some.inj h ▸ rawN_fits (by decide) (by decide) (by decide) (fin_lt kd _ (by decide)) (opndCode_lt _) (by decide) (by decide)
  | k2v d ka =>
    exact fun _ h => Option.some.inj h ▸ rawN_fits (by decide) (by decide) (by decide) (opndCode_lt _) (fin_lt ka _ (by decide)) (by decide) (by decide)
  | s2k kd a b =>
    exact fun _ h => Option.some.inj h ▸ rawN_fits (by decide) (by decide) (by decide) (fin_lt kd _ (by decide)) (opndCode_lt _) (opndCode_lt _) (by decide)
  | k2s d ka b =>
    exact fun _ h => Option.some.inj h ▸ rawN_fits (by decide) (by decide) (by decide) (opndCode_lt _) (fin_lt ka _ (by decide)) (opndCode_lt _) (by decide)
theorem ld (x0 : Hdr) (x1 : MemCtl) (x2 : Bool) (x3 : Opnd) (x4 : Opnd) (x5 : Opnd) : Statement (.ld x0 x1 x2 x3 x4 x5) :=
  fun _ h => Option.some.inj h ▸ rawO_fits (by decide) (by have := boolBit_lt x2; omega) (mcCode_lt _)
theorem st (x0 : Hdr) (x1 : MemCtl) (x2 : Opnd) (x3 : Opnd) (x4 : Opnd) : Statement (.st x0 x1 x2 x3 x4) :=
  fun _ h => Option.some.inj h ▸ rawO_fits (by decide) (by decide) (mcCode_lt _)
theorem lds (x0 : Hdr) (x1 : MemCtl) (x2 : Bool) (x3 : Opnd) (x4 : Opnd) (x5 : Opnd) : Statement (.lds x0 x1 x2 x3 x4 x5) :=
  fun _ h => Option.some.inj h ▸ rawO_fits (by decide) (by have := boolBit_lt x2; omega) (mcCode_lt _)
theorem sts (x0 : Hdr) (x1 : MemCtl) (x2 : Opnd) (x3 : Opnd) (x4 : Opnd) : Statement (.sts x0 x1 x2 x3 x4) :=
  fun _ h => Option.some.inj h ▸ rawO_fits (by decide) (by decide) (mcCode_lt _)
theorem ldu (x0 : Hdr) (x1 : MemCtl) (x2 : Bool) (x3 : Opnd) (x4 : Opnd) (x5 : Opnd) : Statement (.ldu x0 x1 x2 x3 x4 x5) :=
  fun _ h => Option.some.inj h ▸ rawO_fits (by decide) (by have := boolBit_lt x2; omega) (mcCode_lt _)
theorem atom (x0 : Hdr) (x1 : MemCtl) (x2 : AtomOp) (x3 : Opnd) (x4 : Opnd) (x5 : Opnd) (x6 : Opnd) : Statement (.atom x0 x1 x2 x3 x4 x5 x6) :=
  fun _ h => Option.some.inj h ▸ rawO_fits (by decide) (by have := atomCode_lt x2; omega) (mcCode_lt _)
theorem atoms (x0 : Hdr) (x1 : MemCtl) (x2 : AtomOp) (x3 : Opnd) (x4 : Opnd) (x5 : Opnd) (x6 : Opnd) : Statement (.atoms x0 x1 x2 x3 x4 x5 x6) :=
  fun _ h => Option.some.inj h ▸ rawO_fits (by decide) (by have := atomCode_lt x2; omega) (mcCode_lt _)
theorem red (x0 : Hdr) (x1 : MemCtl) (x2 : AtomOp) (x3 : Opnd) (x4 : Opnd) (x5 : Opnd) : Statement (.red x0 x1 x2 x3 x4 x5) :=
  fun _ h => Option.some.inj h ▸ rawO_fits (by decide) (by have := atomCode_lt x2; omega) (mcCode_lt _)
theorem fence (x0 : Hdr) (x1 : Order) (x2 : Scope) : Statement (.fence x0 x1 x2) :=
  fun _ h => Option.some.inj h ▸ rawO_fits (by decide) (by decide) (by have := orderCode_lt x1; have := scopeCode_lt x2; omega)
theorem pref (x0 : Hdr) (x1 : Bool) (x2 : Cache) (x3 : Opnd) (x4 : Opnd) : Statement (.pref x0 x1 x2 x3 x4) :=
  fun _ h => Option.some.inj h ▸ rawO_fits (by decide) (by have := boolBit_lt x1; omega) (by have := cacheCode_lt x2; omega)
theorem cctl (x0 : Hdr) (x1 : CctlOp) (x2 : Opnd) (x3 : Opnd) : Statement (.cctl x0 x1 x2 x3) :=
  fun _ h => Option.some.inj h ▸ rawO_fits (by decide) (by have := cctlCode_lt x1; omega) (by decide)
theorem waitc (x0 : Hdr) (x1 : Fin 8) (x2 : Opnd) : Statement (.waitc x0 x1 x2) :=
  fun _ h => Option.some.inj h ▸ rawO_fits (by decide) (fin_lt x1 _ (by decide)) (by decide)
theorem rdc (x0 : Hdr) (x1 : Order) (x2 : Scope) (x3 : Opnd) : Statement (.rdc x0 x1 x2 x3) :=
  fun _ h => Option.some.inj h ▸ rawO_fits (by decide) (by decide) (by have := orderCode_lt x1; have := scopeCode_lt x2; omega)
theorem abarInit (x0 : Hdr) (x1 : Bool) (x2 : Opnd) (x3 : Opnd) (x4 : Opnd) : Statement (.abarInit x0 x1 x2 x3 x4) :=
  fun _ h => Option.some.inj h ▸ rawO_fits (by decide) (by have := boolBit_lt x1; omega) (by decide)
theorem abarArrive (x0 : Hdr) (x1 : Bool) (x2 : Opnd) (x3 : Opnd) : Statement (.abarArrive x0 x1 x2 x3) :=
  fun _ h => Option.some.inj h ▸ rawO_fits (by decide) (by have := boolBit_lt x1; omega) (by decide)
theorem abarExpect (x0 : Hdr) (x1 : Bool) (x2 : Opnd) (x3 : Opnd) : Statement (.abarExpect x0 x1 x2 x3) :=
  fun _ h => Option.some.inj h ▸ rawO_fits (by decide) (by have := boolBit_lt x1; omega) (by decide)
theorem abarWait (x0 : Hdr) (x1 : Bool) (x2 : Opnd) (x3 : Opnd) : Statement (.abarWait x0 x1 x2 x3) :=
  fun _ h => Option.some.inj h ▸ rawO_fits (by decide) (by have := boolBit_lt x1; omega) (by decide)
theorem abarTest (x0 : Hdr) (x1 : Bool) (x2 : Opnd) (x3 : Opnd) (x4 : Opnd) : Statement (.abarTest x0 x1 x2 x3 x4) :=
  fun _ h => Option.some.inj h ▸ rawO_fits (by decide) (by have := boolBit_lt x1; omega) (by decide)
theorem bar (x0 : Hdr) (x1 : Opnd) (x2 : Opnd) : Statement (.bar x0 x1 x2) :=
  fun _ h => Option.some.inj h ▸ rawO_fits (by decide) (by decide) (by decide)
theorem barArrive (x0 : Hdr) (x1 : Opnd) (x2 : Opnd) : Statement (.barArrive x0 x1 x2) :=
  fun _ h => Option.some.inj h ▸ rawO_fits (by decide) (by decide) (by decide)
theorem gbar (x0 : Hdr) (x1 : Opnd) : Statement (.gbar x0 x1) :=
  fun _ h => Option.some.inj h ▸ rawO_fits (by decide) (by decide) (by decide)
theorem bra (x0 : Hdr) (x1 : BitVec 16) : Statement (.bra x0 x1) :=
  fun _ h => Option.some.inj h ▸ rawN_fits (by decide) (by decide) (by decide) (by decide) (by decide) (by have := x1.isLt; omega) (by have := x1.isLt; omega)
theorem brx (x0 : Hdr) (x1 : Opnd) : Statement (.brx x0 x1) :=
  fun _ h => Option.some.inj h ▸ rawN_fits (by decide) (by decide) (by decide) (by decide) (opndCode_lt _) (by decide) (by decide)
theorem call (x0 : Hdr) (x1 : Opnd) (x2 : BitVec 16) : Statement (.call x0 x1 x2) :=
  fun _ h => Option.some.inj h ▸ rawN_fits (by decide) (by decide) (by decide) (opndCode_lt _) (by decide) (by have := x2.isLt; omega) (by have := x2.isLt; omega)
theorem calli (x0 : Hdr) (x1 : Opnd) (x2 : Opnd) : Statement (.calli x0 x1 x2) :=
  fun _ h => Option.some.inj h ▸ rawN_fits (by decide) (by decide) (by decide) (opndCode_lt _) (opndCode_lt _) (by decide) (by decide)
theorem ret (x0 : Hdr) (x1 : Opnd) : Statement (.ret x0 x1) :=
  fun _ h => Option.some.inj h ▸ rawN_fits (by decide) (by decide) (by decide) (by decide) (opndCode_lt _) (by decide) (by decide)
theorem exit (x0 : Hdr) : Statement (.exit x0) :=
  fun _ h => Option.some.inj h ▸ rawN_fits (by decide) (by decide) (by decide) (by decide) (by decide) (by decide) (by decide)
theorem yield (x0 : Hdr) : Statement (.yield x0) :=
  fun _ h => Option.some.inj h ▸ rawN_fits (by decide) (by decide) (by decide) (by decide) (by decide) (by decide) (by decide)
theorem pause (x0 : Hdr) (x1 : Opnd) : Statement (.pause x0 x1) :=
  fun _ h => Option.some.inj h ▸ rawN_fits (by decide) (by decide) (by decide) (by decide) (opndCode_lt _) (by decide) (by decide)
theorem trap (x0 : Hdr) (x1 : Opnd) : Statement (.trap x0 x1) :=
  fun _ h => Option.some.inj h ▸ rawN_fits (by decide) (by decide) (by decide) (by decide) (opndCode_lt _) (by decide) (by decide)
theorem brk (x0 : Hdr) : Statement (.brk x0) :=
  fun _ h => Option.some.inj h ▸ rawN_fits (by decide) (by decide) (by decide) (by decide) (by decide) (by decide) (by decide)
theorem join (x0 : Hdr) : Statement (.join x0) :=
  fun _ h => Option.some.inj h ▸ rawN_fits (by decide) (by decide) (by decide) (by decide) (by decide) (by decide) (by decide)
theorem claim (x0 : Hdr) (x1 : Opnd) (x2 : BitVec 6) : Statement (.claim x0 x1 x2) :=
  fun _ h => Option.some.inj h ▸ rawO_fits (by decide) (by decide) (by have := x2.isLt; omega)
theorem release (x0 : Hdr) (x1 : Opnd) (x2 : BitVec 6) : Statement (.release x0 x1 x2) :=
  fun _ h => Option.some.inj h ▸ rawO_fits (by decide) (by decide) (by have := x2.isLt; omega)
theorem xset (x0 : Hdr) (x1 : XsetMode) (x2 : Fin 8) (x3 : Opnd) : Statement (.xset x0 x1 x2 x3) :=
  fun _ h => Option.some.inj h ▸ rawN_fits (by decide) (by have := xsetCode_lt x1; omega) (by decide) (fin_lt x2 _ (by decide)) (opndCode_lt _) (by decide) (by decide)
theorem xget (x0 : Hdr) (x1 : Opnd) (x2 : Fin 8) : Statement (.xget x0 x1 x2) :=
  fun _ h => Option.some.inj h ▸ rawN_fits (by decide) (by decide) (by decide) (opndCode_lt _) (fin_lt x2 _ (by decide)) (by decide) (by decide)
theorem tcopy (x0 : Hdr) (x1 : Bool) (x2 : Opnd) (x3 : Opnd) : Statement (.tcopy x0 x1 x2 x3) :=
  fun _ h => Option.some.inj h ▸ rawO_fits (by decide) (by have := boolBit_lt x1; omega) (by decide)
theorem tgath (x0 : Hdr) (x1 : Bool) (x2 : Opnd) (x3 : Opnd) : Statement (.tgath x0 x1 x2 x3) :=
  fun _ h => Option.some.inj h ▸ rawO_fits (by decide) (by have := boolBit_lt x1; omega) (by decide)
theorem tscat (x0 : Hdr) (x1 : Bool) (x2 : Opnd) (x3 : Opnd) : Statement (.tscat x0 x1 x2 x3) :=
  fun _ h => Option.some.inj h ▸ rawO_fits (by decide) (by have := boolBit_lt x1; omega) (by decide)
theorem tmcst (x0 : Hdr) (x1 : Opnd) (x2 : Opnd) (x3 : Opnd) : Statement (.tmcst x0 x1 x2 x3) :=
  fun _ h => Option.some.inj h ▸ rawO_fits (by decide) (by decide) (by decide)
theorem cbini (x0 : Hdr) (x1 : Bool) (x2 : Bool) (x3 : BitVec 6) (x4 : Opnd) (x5 : Opnd) (x6 : Opnd) : Statement (.cbini x0 x1 x2 x3 x4 x5 x6) :=
  fun _ h => Option.some.inj h ▸ rawO_fits (by decide) (by have := boolBit_lt x1; omega) (by have := boolBit_lt x2; have := x3.isLt; omega)
theorem cbacq (x0 : Hdr) (x1 : Bool) (x2 : Bool) (x3 : Opnd) (x4 : Opnd) : Statement (.cbacq x0 x1 x2 x3 x4) :=
  fun _ h => Option.some.inj h ▸ rawO_fits (by decide) (by have := boolBit_lt x1; have := boolBit_lt x2; omega) (by decide)
theorem cbrel (x0 : Hdr) (x1 : Bool) (x2 : Opnd) : Statement (.cbrel x0 x1 x2) :=
  fun _ h => Option.some.inj h ▸ rawO_fits (by decide) (by have := boolBit_lt x1; omega) (by decide)
theorem cbput (x0 : Hdr) (x1 : Bool) (x2 : Opnd) (x3 : Opnd) (x4 : Opnd) : Statement (.cbput x0 x1 x2 x3 x4) :=
  fun _ h => Option.some.inj h ▸ rawO_fits (by decide) (by have := boolBit_lt x1; omega) (by decide)
theorem cbres (x0 : Hdr) (x1 : Bool) (x2 : Opnd) (x3 : Opnd) : Statement (.cbres x0 x1 x2 x3) :=
  fun _ h => Option.some.inj h ▸ rawO_fits (by decide) (by have := boolBit_lt x1; omega) (by decide)
theorem cbst (x0 : Hdr) (x1 : Bool) (x2 : Opnd) (x3 : Opnd) : Statement (.cbst x0 x1 x2 x3) :=
  fun _ h => Option.some.inj h ▸ rawO_fits (by decide) (by have := boolBit_lt x1; omega) (by decide)
theorem tfill (x0 : Hdr) (x1 : Opnd) (x2 : Opnd) (x3 : Opnd) : Statement (.tfill x0 x1 x2 x3) :=
  fun _ h => Option.some.inj h ▸ rawO_fits (by decide) (by decide) (by decide)
theorem ldw (x0 : Hdr) (x1 : PFmt) (x2 : Fin 8) (x3 : Opnd) : Statement (.ldw x0 x1 x2 x3) :=
  fun _ h => Option.some.inj h ▸ rawN_fits (by decide) (by have := pfmtCode_lt x1; omega) (by decide) (fin_lt x2 _ (by decide)) (opndCode_lt _) (by decide) (by decide)
theorem wswap (x0 : Hdr) : Statement (.wswap x0) :=
  fun _ h => Option.some.inj h ▸ rawO_fits (by decide) (by decide) (by decide)
theorem mmq (x0 : Hdr) (x1 : QFmt) (x2 : Fin 8) (x3 : Fin 8) (x4 : Opnd) : Statement (.mmq x0 x1 x2 x3 x4) :=
  fun _ h => Option.some.inj h ▸ rawN_fits (by decide) (by have := qCode_lt x1; omega) (by decide) (fin_lt x2 _ (by decide)) (fin_lt x3 _ (by decide)) (opndCode_lt _) (by decide)
theorem msa (x0 : Hdr) (x1 : Fin 8) (x2 : Fin 8) (x3 : Opnd) (x4 : Opnd) : Statement (.msa x0 x1 x2 x3 x4) :=
  fun _ h => Option.some.inj h ▸ rawN_fits (by decide) (by decide) (by decide) (fin_lt x1 _ (by decide)) (fin_lt x2 _ (by decide)) (opndCode_lt _) (opndCode_lt _)
theorem mmqa (x0 : Hdr) (x1 : QFmt) (x2 : Fin 8) (x3 : Fin 8) (x4 : Opnd) (x5 : Opnd) : Statement (.mmqa x0 x1 x2 x3 x4 x5) :=
  fun _ h => Option.some.inj h ▸ rawN_fits (by decide) (by have := qCode_lt x1; omega) (by decide) (fin_lt x2 _ (by decide)) (fin_lt x3 _ (by decide)) (opndCode_lt _) (opndCode_lt _)
theorem mmqaCb (x0 : Hdr) (x1 : QFmt) (x2 : Fin 8) (x3 : Opnd) (x4 : Opnd) : Statement (.mmqaCb x0 x1 x2 x3 x4) :=
  fun _ h => Option.some.inj h ▸ rawN_fits (by decide) (by have := qCode_lt x1; omega) (by decide) (fin_lt x2 _ (by decide)) (by decide) (opndCode_lt _) (opndCode_lt _)
theorem mmf (x0 : Hdr) (x1 : PFmt) (x2 : Fin 8) (x3 : Fin 8) (x4 : Opnd) : Statement (.mmf x0 x1 x2 x3 x4) :=
  fun _ h => Option.some.inj h ▸ rawN_fits (by decide) (by have := pfmtCode_lt x1; omega) (by decide) (fin_lt x2 _ (by decide)) (fin_lt x3 _ (by decide)) (opndCode_lt _) (by decide)
theorem tld (x0 : Hdr) (x1 : TFmt) (x2 : Fin 8) (x3 : Opnd) (x4 : Opnd) : Statement (.tld x0 x1 x2 x3 x4) :=
  fun _ h => Option.some.inj h ▸ rawN_fits (by decide) (by have := tfmtCode_lt x1; omega) (by decide) (fin_lt x2 _ (by decide)) (opndCode_lt _) (opndCode_lt _) (by decide)
theorem tst (x0 : Hdr) (x1 : TFmt) (x2 : Bool) (x3 : Opnd) (x4 : Opnd) (x5 : Fin 8) : Statement (.tst x0 x1 x2 x3 x4 x5) :=
  fun _ h => Option.some.inj h ▸ rawN_fits (by decide) (by have := tfmtCode_lt x1; have := boolBit_lt x2; omega) (by decide) (by decide) (opndCode_lt _) (opndCode_lt _) (fin_lt x5 _ (by decide))
theorem tzero (x0 : Hdr) (x1 : Fin 8) (x2 : Opnd) : Statement (.tzero x0 x1 x2) :=
  fun _ h => Option.some.inj h ▸ rawN_fits (by decide) (by decide) (by decide) (fin_lt x1 _ (by decide)) (by decide) (opndCode_lt _) (by decide)
theorem tmvT2v (x0 : Hdr) (x1 : Opnd) (x2 : Fin 8) (x3 : Opnd) : Statement (.tmvT2v x0 x1 x2 x3) :=
  fun _ h => Option.some.inj h ▸ rawN_fits (by decide) (by decide) (by decide) (opndCode_lt _) (fin_lt x2 _ (by decide)) (opndCode_lt _) (by decide)
theorem tmvV2t (x0 : Hdr) (x1 : Fin 8) (x2 : Opnd) (x3 : Opnd) : Statement (.tmvV2t x0 x1 x2 x3) :=
  fun _ h => Option.some.inj h ▸ rawN_fits (by decide) (by decide) (by decide) (fin_lt x1 _ (by decide)) (opndCode_lt _) (opndCode_lt _) (by decide)
theorem tstat (x0 : Hdr) (x1 : Opnd) (x2 : Fin 8) : Statement (.tstat x0 x1 x2) :=
  fun _ h => Option.some.inj h ▸ rawN_fits (by decide) (by decide) (by decide) (opndCode_lt _) (fin_lt x2 _ (by decide)) (by decide) (by decide)
theorem tacc (x0 : Hdr) (x1 : Fin 8) (x2 : Fin 8) : Statement (.tacc x0 x1 x2) :=
  fun _ h => Option.some.inj h ▸ rawN_fits (by decide) (by decide) (by decide) (fin_lt x1 _ (by decide)) (fin_lt x2 _ (by decide)) (by decide) (by decide)
theorem atts (x0 : Hdr) (x1 : Opnd) (x2 : Opnd) (x3 : Opnd) : Statement (.atts x0 x1 x2 x3) :=
  fun _ h => Option.some.inj h ▸ rawO_fits (by decide) (by decide) (by decide)
theorem attv (x0 : Hdr) (x1 : Opnd) (x2 : Opnd) (x3 : Opnd) : Statement (.attv x0 x1 x2 x3) :=
  fun _ h => Option.some.inj h ▸ rawO_fits (by decide) (by decide) (by decide)
theorem attm (x0 : Hdr) (x1 : Opnd) (x2 : Opnd) (x3 : Opnd) : Statement (.attm x0 x1 x2 x3) :=
  fun _ h => Option.some.inj h ▸ rawO_fits (by decide) (by decide) (by decide)
theorem evict (x0 : Hdr) (x1 : Opnd) : Statement (.evict x0 x1) :=
  fun _ h => Option.some.inj h ▸ rawO_fits (by decide) (by decide) (by decide)
theorem platr (x0 : Hdr) (x1 : Opnd) (x2 : Opnd) (x3 : Opnd) : Statement (.platr x0 x1 x2 x3) :=
  fun _ h => Option.some.inj h ▸ rawO_fits (by decide) (by decide) (by decide)
theorem rgath (x0 : Hdr) (x1 : Opnd) (x2 : Opnd) : Statement (.rgath x0 x1 x2) :=
  fun _ h => Option.some.inj h ▸ rawO_fits (by decide) (by decide) (by decide)
theorem redrx (x0 : Hdr) (x1 : Opnd) (x2 : Opnd) : Statement (.redrx x0 x1 x2) :=
  fun _ h => Option.some.inj h ▸ rawO_fits (by decide) (by decide) (by decide)
theorem nmcall (x0 : Hdr) (x1 : Opnd) (x2 : Opnd) (x3 : Opnd) : Statement (.nmcall x0 x1 x2 x3) :=
  fun _ h => Option.some.inj h ▸ rawO_fits (by decide) (by decide) (by decide)
theorem nmcallA (x0 : Hdr) (x1 : Opnd) (x2 : Opnd) (x3 : Opnd) : Statement (.nmcallA x0 x1 x2 x3) :=
  fun _ h => Option.some.inj h ▸ rawO_fits (by decide) (by decide) (by decide)
theorem nmret (x0 : Hdr) (x1 : Opnd) (x2 : Opnd) : Statement (.nmret x0 x1 x2) :=
  fun _ h => Option.some.inj h ▸ rawO_fits (by decide) (by decide) (by decide)
theorem clsend (x0 : Hdr) (x1 : Opnd) (x2 : Opnd) : Statement (.clsend x0 x1 x2) :=
  fun _ h => Option.some.inj h ▸ rawO_fits (by decide) (by decide) (by decide)
theorem clred (x0 : Hdr) (x1 : Opnd) (x2 : Opnd) : Statement (.clred x0 x1 x2) :=
  fun _ h => Option.some.inj h ▸ rawO_fits (by decide) (by decide) (by decide)
theorem clarm (x0 : Hdr) (x1 : Bool) (x2 : Opnd) (x3 : Opnd) : Statement (.clarm x0 x1 x2 x3) :=
  fun _ h => Option.some.inj h ▸ rawO_fits (by decide) (by have := boolBit_lt x1; omega) (by decide)
theorem clarmOff (x0 : Hdr) (x1 : Opnd) : Statement (.clarmOff x0 x1) :=
  fun _ h => Option.some.inj h ▸ rawO_fits (by decide) (by decide) (by decide)
theorem sbset (x0 : Hdr) (x1 : Fin 4) (x2 : Opnd) : Statement (.sbset x0 x1 x2) :=
  fun _ h => Option.some.inj h ▸ rawN_fits (by decide) (by decide) (by decide) (fin_lt x1 _ (by decide)) (opndCode_lt _) (by decide) (by decide)
theorem sbsetClr (x0 : Hdr) (x1 : Fin 4) (x2 : Opnd) : Statement (.sbsetClr x0 x1 x2) :=
  fun _ h => Option.some.inj h ▸ rawN_fits (by decide) (by decide) (by decide) (fin_lt x1 _ (by decide)) (opndCode_lt _) (by decide) (by decide)
theorem sbsetRd (x0 : Hdr) (x1 : Opnd) (x2 : Fin 4) : Statement (.sbsetRd x0 x1 x2) :=
  fun _ h => Option.some.inj h ▸ rawN_fits (by decide) (by decide) (by decide) (opndCode_lt _) (fin_lt x2 _ (by decide)) (by decide) (by decide)
theorem coll (x0 : Hdr) (x1 : CollOp) (x2 : Bool) (x3 : Fin 8) (x4 : Opnd) (x5 : Opnd) : Statement (.coll x0 x1 x2 x3 x4 x5) :=
  fun _ h => Option.some.inj h ▸ rawN_fits (by decide) (by have := collCode_lt x1; have := boolBit_lt x2; omega) (by decide) (fin_lt x3 _ (by decide)) (opndCode_lt _) (by decide) (opndCode_lt _)
theorem close (x0 : Hdr) (x1 : Opnd) (x2 : Opnd) (x3 : Opnd) (x4 : Opnd) : Statement (.close x0 x1 x2 x3 x4) :=
  fun _ h => Option.some.inj h ▸ rawO_fits (by decide) (by decide) (by decide)
theorem bopen (x0 : Hdr) (x1 : Fin 4) (x2 : Opnd) : Statement (.bopen x0 x1 x2) :=
  fun _ h => Option.some.inj h ▸ rawO_fits (by decide) (by have := x1.isLt; omega) (by decide)
theorem stb (x0 : Hdr) (x1 : Fin 4) (x2 : MemCtl) (x3 : Opnd) (x4 : Opnd) (x5 : Opnd) : Statement (.stb x0 x1 x2 x3 x4 x5) :=
  fun _ h => Option.some.inj h ▸ rawO_fits (by decide) (by have := x1.isLt; omega) (mcCode_lt _)
theorem bcommit (x0 : Hdr) (x1 : Fin 4) : Statement (.bcommit x0 x1) :=
  fun _ h => Option.some.inj h ▸ rawO_fits (by decide) (by have := x1.isLt; omega) (by decide)
theorem babort (x0 : Hdr) (x1 : Fin 4) : Statement (.babort x0 x1) :=
  fun _ h => Option.some.inj h ▸ rawO_fits (by decide) (by have := x1.isLt; omega) (by decide)
theorem vsnap (x0 : Hdr) (x1 : Opnd) : Statement (.vsnap x0 x1) :=
  fun _ h => Option.some.inj h ▸ rawO_fits (by decide) (by decide) (by decide)
theorem ldv (x0 : Hdr) (x1 : MemCtl) (x2 : Bool) (x3 : Opnd) (x4 : Opnd) (x5 : Opnd) (x6 : Fin 8) : Statement (.ldv x0 x1 x2 x3 x4 x5 x6) :=
  fun _ h => Option.some.inj h ▸ rawN_fits (by decide) (by have := boolBit_lt x2; omega) (mcCode_lt _) (opndCode_lt _) (opndCode_lt _) (opndCode_lt _) (fin_lt x6 _ (by decide))
theorem bfetch (x0 : Hdr) (x1 : Opnd) (x2 : Opnd) (x3 : Opnd) : Statement (.bfetch x0 x1 x2 x3) :=
  fun _ h => Option.some.inj h ▸ rawO_fits (by decide) (by decide) (by decide)
theorem srd (x0 : Hdr) (x1 : Half) (x2 : Opnd) (x3 : BitVec 8) : Statement (.srd x0 x1 x2 x3) :=
  fun _ h => Option.some.inj h ▸ rawN_fits (by decide) (by have := halfCode_lt x1; omega) (by decide) (opndCode_lt _) (by decide) (by decide) (by have := x3.isLt; omega)
theorem swr (x0 : Hdr) (x1 : Half) (x2 : BitVec 8) (x3 : Opnd) : Statement (.swr x0 x1 x2 x3) :=
  fun _ h => Option.some.inj h ▸ rawN_fits (by decide) (by have := halfCode_lt x1; omega) (by decide) (by decide) (opndCode_lt _) (by decide) (by have := x2.isLt; omega)
theorem swrp (x0 : Hdr) (x1 : BitVec 8) (x2 : Opnd) : Statement (.swrp x0 x1 x2) :=
  fun _ h => Option.some.inj h ▸ rawN_fits (by decide) (by decide) (by decide) (by decide) (opndCode_lt _) (by decide) (by have := x1.isLt; omega)
theorem ovld (x0 : Hdr) (x1 : Opnd) : Statement (.ovld x0 x1) :=
  fun _ h => Option.some.inj h ▸ rawO_fits (by decide) (by decide) (by decide)
theorem tret (x0 : Hdr) (x1 : Bool) : Statement (.tret x0 x1) :=
  fun _ h => Option.some.inj h ▸ rawO_fits (by decide) (by have := boolBit_lt x1; omega) (by decide)
theorem halt (x0 : Hdr) : Statement (.halt x0) :=
  fun _ h => Option.some.inj h ▸ rawO_fits (by decide) (by decide) (by decide)
theorem pair (x0 : PBody) (x1 : PBody) : Statement (.pair x0 x1) := nofun
theorem entryWord (x0 : CRaw) : Statement (.entryWord x0) := nofun
theorem compactNop (x0 : BitVec 2) (x1 : CRaw) : Statement (.compactNop x0 x1) := nofun
theorem compactMov (x0 : CRaw) : Statement (.compactMov x0) := nofun
theorem compactIaddS32 (x0 : CRaw) : Statement (.compactIaddS32 x0) := nofun
theorem compactIsubS32 (x0 : CRaw) : Statement (.compactIsubS32 x0) := nofun
theorem compactImulS32 (x0 : CRaw) : Statement (.compactImulS32 x0) := nofun
theorem compactIminS32 (x0 : CRaw) : Statement (.compactIminS32 x0) := nofun
theorem compactImaxS32 (x0 : CRaw) : Statement (.compactImaxS32 x0) := nofun
theorem compactAnd (x0 : CRaw) : Statement (.compactAnd x0) := nofun
theorem compactOr (x0 : CRaw) : Statement (.compactOr x0) := nofun
theorem compactXor (x0 : CRaw) : Statement (.compactXor x0) := nofun
theorem compactShl (x0 : CRaw) : Statement (.compactShl x0) := nofun
theorem compactShr (x0 : CRaw) : Statement (.compactShr x0) := nofun
theorem compactSar (x0 : CRaw) : Statement (.compactSar x0) := nofun
theorem compactIaddS64 (x0 : CRaw) : Statement (.compactIaddS64 x0) := nofun
theorem compactPopc (x0 : CRaw) : Statement (.compactPopc x0) := nofun
theorem compactClz (x0 : CRaw) : Statement (.compactClz x0) := nofun
theorem compactFaddF32 (x0 : CRaw) : Statement (.compactFaddF32 x0) := nofun
theorem compactFsubF32 (x0 : CRaw) : Statement (.compactFsubF32 x0) := nofun
theorem compactFmulF32 (x0 : CRaw) : Statement (.compactFmulF32 x0) := nofun
theorem compactFminF32 (x0 : CRaw) : Statement (.compactFminF32 x0) := nofun
theorem compactFmaxF32 (x0 : CRaw) : Statement (.compactFmaxF32 x0) := nofun
theorem compactFaddBf16x2 (x0 : CRaw) : Statement (.compactFaddBf16x2 x0) := nofun
theorem compactFmulBf16x2 (x0 : CRaw) : Statement (.compactFmulBf16x2 x0) := nofun
theorem compactFrcp (x0 : CRaw) : Statement (.compactFrcp x0) := nofun
theorem compactFrsq (x0 : CRaw) : Statement (.compactFrsq x0) := nofun
theorem compactFexp2 (x0 : CRaw) : Statement (.compactFexp2 x0) := nofun
theorem compactCvtF32Bf16lo (x0 : CRaw) : Statement (.compactCvtF32Bf16lo x0) := nofun
theorem compactCvtBf16F32 (x0 : CRaw) : Statement (.compactCvtBf16F32 x0) := nofun
theorem compactItofS32 (x0 : CRaw) : Statement (.compactItofS32 x0) := nofun
theorem compactFtoiS32 (x0 : CRaw) : Statement (.compactFtoiS32 x0) := nofun
theorem compactIcmpEq (x0 : CRaw) : Statement (.compactIcmpEq x0) := nofun
theorem compactIcmpLtS32 (x0 : CRaw) : Statement (.compactIcmpLtS32 x0) := nofun
theorem compactFcmpLt (x0 : CRaw) : Statement (.compactFcmpLt x0) := nofun
theorem compactSel (x0 : CRaw) : Statement (.compactSel x0) := nofun
theorem compactLds32 (x0 : BitVec 2) (x1 : CRaw) : Statement (.compactLds32 x0 x1) := nofun
theorem compactSts32 (x0 : BitVec 2) (x1 : CRaw) : Statement (.compactSts32 x0 x1) := nofun
theorem compactLd32 (x0 : BitVec 2) (x1 : CRaw) : Statement (.compactLd32 x0 x1) := nofun
theorem compactSt32 (x0 : BitVec 2) (x1 : CRaw) : Statement (.compactSt32 x0 x1) := nofun
theorem compactTshflXor (x0 : CRaw) : Statement (.compactTshflXor x0) := nofun
theorem compactBar (x0 : CRaw) : Statement (.compactBar x0) := nofun
theorem compactWaitc (x0 : CRaw) : Statement (.compactWaitc x0) := nofun
theorem compactYield (x0 : CRaw) : Statement (.compactYield x0) := nofun
theorem compactBra (x0 : CRaw) : Statement (.compactBra x0) := nofun
theorem compactExit (x0 : CRaw) : Statement (.compactExit x0) := nofun
theorem compactRet (x0 : CRaw) : Statement (.compactRet x0) := nofun
theorem compactAbarWait (x0 : CRaw) : Statement (.compactAbarWait x0) := nofun
theorem compactCbacq (x0 : CRaw) : Statement (.compactCbacq x0) := nofun
theorem compactCbrel (x0 : CRaw) : Statement (.compactCbrel x0) := nofun
theorem moduleReset : Statement (.moduleReset ) := nofun
theorem bringUpReady : Statement (.bringUpReady ) := nofun
theorem contextEnable (x0 : Nat) (x1 : W32) : Statement (.contextEnable x0 x1) := nofun
theorem contextKill (x0 : Nat) : Statement (.contextKill x0) := nofun
theorem queueEnable (x0 : Nat) (x1 : W32) : Statement (.queueEnable x0 x1) := nofun
theorem qwptr (x0 : Nat) (x1 : W32) : Statement (.qwptr x0 x1) := nofun
theorem queueRestart (x0 : Nat) : Statement (.queueRestart x0) := nofun
theorem registerWrite (x0 : Nat) (x1 : W32) : Statement (.registerWrite x0 x1) := nofun
theorem keyLoad (x0 : Nat) : Statement (.keyLoad x0) := nofun
theorem keyClear (x0 : Nat) : Statement (.keyClear x0) := nofun
theorem attestation : Statement (.attestation ) := nofun
theorem fwload (x0 : Nat) (x1 : W32) : Statement (.fwload x0 x1) := nofun
theorem svctl (x0 : Nat) (x1 : W32) : Statement (.svctl x0 x1) := nofun
theorem svival (x0 : Nat) (x1 : W32) : Statement (.svival x0 x1) := nofun
theorem mscways (x0 : Nat) (x1 : W32) : Statement (.mscways x0 x1) := nofun
theorem lkdevid (x0 : W32) : Statement (.lkdevid x0) := nofun
theorem lkmctl (x0 : W32) : Statement (.lkmctl x0) := nofun
theorem nopPacket (x0 : Nat) : Statement (.nopPacket x0) := nofun
theorem launch (x0 : Nat) : Statement (.launch x0) := nofun
theorem stage (x0 : Nat) : Statement (.stage x0) := nofun
theorem pin (x0 : Nat) : Statement (.pin x0) := nofun
theorem unpin (x0 : Nat) : Statement (.unpin x0) := nofun
theorem movehome (x0 : Nat) : Statement (.movehome x0) := nofun
theorem signal (x0 : Nat) : Statement (.signal x0) := nofun
theorem waitPacket (x0 : Nat) : Statement (.waitPacket x0) := nofun
theorem barrier (x0 : Nat) : Statement (.barrier x0) := nofun
theorem drain (x0 : Nat) : Statement (.drain x0) := nofun
theorem resume (x0 : Nat) : Statement (.resume x0) := nofun
theorem resumeAbandon (x0 : Nat) : Statement (.resumeAbandon x0) := nofun
theorem preempt (x0 : Nat) : Statement (.preempt x0) := nofun
theorem timestamp (x0 : Nat) : Statement (.timestamp x0) := nofun
theorem fencePacket (x0 : Nat) : Statement (.fencePacket x0) := nofun
theorem ovload (x0 : Nat) : Statement (.ovload x0) := nofun
theorem workingSetStaging (x0 : Nat) (x1 : Nat) : Statement (.workingSetStaging x0 x1) := nofun
theorem pageMove (x0 : Nat) (x1 : Nat) (x2 : Nat) (x3 : Nat) (x4 : Nat) : Statement (.pageMove x0 x1 x2 x3 x4) := nofun
theorem pageRequestAnswer (x0 : Nat) (x1 : Nat) : Statement (.pageRequestAnswer x0 x1) := nofun
theorem pageRequestTimeout (x0 : Nat) : Statement (.pageRequestTimeout x0) := nofun
theorem atsInvalidation (x0 : Nat) (x1 : Nat) (x2 : Nat) : Statement (.atsInvalidation x0 x1 x2) := nofun
theorem oppointStable (x0 : Nat) : Statement (.oppointStable x0) := nofun
theorem blockPlacement (x0 : Nat) (x1 : Nat) (x2 : List Nat) : Statement (.blockPlacement x0 x1 x2) := nofun
theorem placementAging (x0 : Nat) (x1 : Nat) : Statement (.placementAging x0 x1) := nofun
theorem completionRecordPost (x0 : Nat) : Statement (.completionRecordPost x0) := nofun
theorem schedulerAging (x0 : Nat) (x1 : Nat) (x2 : Nat) : Statement (.schedulerAging x0 x1 x2) := nofun
theorem claimGrant (x0 : Nat) : Statement (.claimGrant x0) := nofun
theorem deadlk (x0 : Nat) : Statement (.deadlk x0) := nofun
theorem pauseEnd (x0 : Nat) (x1 : Nat) (x2 : Nat) : Statement (.pauseEnd x0 x1 x2) := nofun
theorem yieldEnd (x0 : Nat) (x1 : Nat) (x2 : Nat) : Statement (.yieldEnd x0 x1 x2) := nofun
theorem probeEnd (x0 : Nat) (x1 : Nat) : Statement (.probeEnd x0 x1) := nofun
theorem capture (x0 : Nat) (x1 : Nat) : Statement (.capture x0 x1) := nofun
theorem restore (x0 : Nat) (x1 : Nat) (x2 : Nat) (x3 : List Nat) : Statement (.restore x0 x1 x2 x3) := nofun
theorem copyUnit (x0 : Nat) (x1 : Nat) : Statement (.copyUnit x0 x1) := nofun
theorem cbReservation (x0 : Nat) (x1 : Nat) : Statement (.cbReservation x0 x1) := nofun
theorem copyRetire (x0 : Nat) (x1 : Nat) : Statement (.copyRetire x0 x1) := nofun
theorem matrixExecute (x0 : Nat) : Statement (.matrixExecute x0) := nofun
theorem matrixRetire (x0 : Nat) : Statement (.matrixRetire x0) := nofun
theorem slotAcquire (x0 : Nat) : Statement (.slotAcquire x0) := nofun
theorem sequenceEntry (x0 : Nat) (x1 : Nat) : Statement (.sequenceEntry x0 x1) := nofun
theorem attentionGroup (x0 : Nat) (x1 : Nat) : Statement (.attentionGroup x0 x1) := nofun
theorem attentionExit (x0 : Nat) (x1 : Nat) : Statement (.attentionExit x0 x1) := nofun
theorem evictionStart (x0 : Nat) : Statement (.evictionStart x0) := nofun
theorem evictionRun (x0 : Nat) : Statement (.evictionRun x0) := nofun
theorem nmcallWriteBack (x0 : Nat) : Statement (.nmcallWriteBack x0) := nofun
theorem stationDispatch (x0 : Nat) : Statement (.stationDispatch x0) := nofun
theorem nmcallReturn (x0 : Nat) : Statement (.nmcallReturn x0) := nofun
theorem nmcallArrive (x0 : Nat) : Statement (.nmcallArrive x0) := nofun
theorem reductionPacket (x0 : Nat) : Statement (.reductionPacket x0) := nofun
theorem chunkReceive (x0 : Nat) : Statement (.chunkReceive x0) := nofun
theorem collectiveRetire (x0 : Nat) (x1 : Nat) : Statement (.collectiveRetire x0 x1) := nofun
theorem startMessage (x0 : Nat) : Statement (.startMessage x0) := nofun
theorem collComplete (x0 : Nat) (x1 : Nat) : Statement (.collComplete x0 x1) := nofun
theorem tagQuarantineEnd (x0 : Nat) (x1 : Nat) : Statement (.tagQuarantineEnd x0 x1) := nofun
theorem bundlePrepare (x0 : Nat) (x1 : Nat) : Statement (.bundlePrepare x0 x1) := nofun
theorem bundleChoose (x0 : Nat) : Statement (.bundleChoose x0) := nofun
theorem bundleCommitMessage (x0 : Nat) (x1 : Nat) : Statement (.bundleCommitMessage x0 x1) := nofun
theorem bundleAbortMessage (x0 : Nat) (x1 : Nat) : Statement (.bundleAbortMessage x0 x1) := nofun
theorem bundleInstall (x0 : Nat) : Statement (.bundleInstall x0) := nofun
theorem bundleRetire (x0 : Nat) : Statement (.bundleRetire x0) := nofun
theorem versionReclaim (x0 : Nat) : Statement (.versionReclaim x0) := nofun
theorem directoryMerge (x0 : Nat) (x1 : Nat) (x2 : Nat) (x3 : Nat) : Statement (.directoryMerge x0 x1 x2 x3) := nofun
theorem grantExpiry (x0 : Nat) : Statement (.grantExpiry x0) := nofun
theorem leaseSweep (x0 : Nat) (x1 : Nat) : Statement (.leaseSweep x0 x1) := nofun
theorem sliceSleep (x0 : Nat) (x1 : Nat) : Statement (.sliceSleep x0 x1) := nofun
theorem sliceWake (x0 : Nat) (x1 : Nat) : Statement (.sliceWake x0 x1) := nofun
theorem hotListPublish (x0 : Nat) : Statement (.hotListPublish x0) := nofun
theorem scrub (x0 : Nat) (x1 : ScrubFound) : Statement (.scrub x0 x1) := nofun
theorem podRequest (x0 : Nat) : Statement (.podRequest x0) := nofun
theorem reassemblyTimeout (x0 : Nat) : Statement (.reassemblyTimeout x0) := nofun
theorem portDown (x0 : Nat) : Statement (.portDown x0) := nofun
theorem meridianExchange (x0 : Bool) : Statement (.meridianExchange x0) := nofun
theorem lossOfLock : Statement (.lossOfLock ) := nofun
theorem relock : Statement (.relock ) := nofun
theorem errorDetected (x0 : ErrorReport) : Statement (.errorDetected x0) := nofun
theorem targetedTestEnd (x0 : Nat) (x1 : Bool) : Statement (.targetedTestEnd x0 x1) := nofun
theorem monitorLatch (x0 : Nat) : Statement (.monitorLatch x0) := nofun
theorem powerLoop (x0 : Nat) : Statement (.powerLoop x0) := nofun
theorem readyBitSet (x0 : Nat) (x1 : Nat) (x2 : RegKey) : Statement (.readyBitSet x0 x1 x2) := nofun
theorem homeAcknowledgement (x0 : Nat) (x1 : Nat) : Statement (.homeAcknowledgement x0 x1) := nofun
theorem gwctPassed (x0 : Nat) (x1 : Nat) (x2 : Nat) : Statement (.gwctPassed x0 x1 x2) := nofun
theorem dependencyMet (x0 : Nat) : Statement (.dependencyMet x0) := nofun
theorem atsTranslationCompletion (x0 : Nat) (x1 : Nat) : Statement (.atsTranslationCompletion x0 x1) := nofun
theorem pcieCompletionTimeout (x0 : Nat) (x1 : Nat) : Statement (.pcieCompletionTimeout x0 x1) := nofun
theorem portUp (x0 : Nat) (x1 : Nat) : Statement (.portUp x0 x1) := nofun
theorem dieTemperatureCap (x0 : Nat) (x1 : Nat) : Statement (.dieTemperatureCap x0 x1) := nofun
theorem bfetchComplete (x0 : Nat) (x1 : Nat) : Statement (.bfetchComplete x0 x1) := nofun

end Laws.Fields

namespace Laws.ReadsBack

/-- The fields of the instruction, where it has a full form, name it again. -/
def Statement (i : Instr) : Prop := ∀ r, toRaw i = some r → ofRaw r = some i

theorem nop (x0 : Hdr) : Statement (.nop x0) := by
  intro r e
  obtain rfl := Option.some.inj e
  change some _ = _
  simp only [rawO, rawN, rawHdr_mk, opndOf_code]
theorem iadd (x0 : Hdr) (x1 : ITy) (x2 : Bool) (x3 : Mods) (x4 : Opnd) (x5 : Opnd) (x6 : Opnd) : Statement (.iadd x0 x1 x2 x3 x4 x5 x6) := by
  intro r e
  obtain rfl := Option.some.inj e
  change withDAB _ _ = _
  simp only [withDAB, rawO, rawN, rawHdr_mk, opndOf_code, ityOf_iSub, sat_iSub, bit_one, rMods, modsOf_code]
theorem isub (x0 : Hdr) (x1 : ITy) (x2 : Bool) (x3 : Mods) (x4 : Opnd) (x5 : Opnd) (x6 : Opnd) : Statement (.isub x0 x1 x2 x3 x4 x5 x6) := by
  intro r e
  obtain rfl := Option.some.inj e
  change withDAB _ _ = _
  simp only [withDAB, rawO, rawN, rawHdr_mk, opndOf_code, ityOf_iSub, sat_iSub, bit_one, rMods, modsOf_code]
theorem iadd3 (x0 : Hdr) (x1 : ITy) (x2 : Bool) (x3 : Mods) (x4 : Opnd) (x5 : Opnd) (x6 : Opnd) (x7 : Opnd) : Statement (.iadd3 x0 x1 x2 x3 x4 x5 x6 x7) := by
  intro r e
  obtain rfl := Option.some.inj e
  change withDABC _ _ = _
  simp only [withDABC, rawO, rawN, rawHdr_mk, opndOf_code, ityOf_iSub, sat_iSub, bit_one, rMods, modsOf_code]
theorem imul (x0 : Hdr) (x1 : ITy) (x2 : Bool) (x3 : Mods) (x4 : Opnd) (x5 : Opnd) (x6 : Opnd) : Statement (.imul x0 x1 x2 x3 x4 x5 x6) := by
  intro r e
  obtain rfl := Option.some.inj e
  change withDAB _ _ = _
  simp only [withDAB, rawO, rawN, rawHdr_mk, opndOf_code, ityOf_iSub, sat_iSub, bit_one, rMods, modsOf_code]
theorem imulh (x0 : Hdr) (x1 : ITy) (x2 : Opnd) (x3 : Opnd) (x4 : Opnd) : Statement (.imulh x0 x1 x2 x3 x4) := by
  intro r e
  obtain rfl := Option.some.inj e
  change withDAB _ _ = _
  simp only [withDAB, rawO, rawN, rawHdr_mk, opndOf_code, ityOf_iSub, sat_iSub]
theorem imad (x0 : Hdr) (x1 : ITy) (x2 : Bool) (x3 : Mods) (x4 : Opnd) (x5 : Opnd) (x6 : Opnd) (x7 : Opnd) : Statement (.imad x0 x1 x2 x3 x4 x5 x6 x7) := by
  intro r e
  obtain rfl := Option.some.inj e
  change withDABC _ _ = _
  simp only [withDABC, rawO, rawN, rawHdr_mk, opndOf_code, ityOf_iSub, sat_iSub, bit_one, rMods, modsOf_code]
theorem imadw (x0 : Hdr) (x1 : Bool) (x2 : Bool) (x3 : Opnd) (x4 : Opnd) (x5 : Opnd) (x6 : Opnd) : Statement (.imadw x0 x1 x2 x3 x4 x5 x6) := by
  intro r e
  obtain rfl := Option.some.inj e
  change withDABC _ _ = _
  simp only [withDABC, rawO, rawN, rawHdr_mk, opndOf_code, bit_one, sat_iSub]
  cases x1 <;> cases x2 <;> rfl
theorem idiv (x0 : Hdr) (x1 : ITy) (x2 : Bool) (x3 : Opnd) (x4 : Opnd) (x5 : Opnd) : Statement (.idiv x0 x1 x2 x3 x4 x5) := by
  intro r e
  obtain rfl := Option.some.inj e
  change withDAB _ _ = _
  simp only [withDAB, rawO, rawN, rawHdr_mk, opndOf_code, ityOf_iSub, sat_iSub, bit_one]
theorem irem (x0 : Hdr) (x1 : ITy) (x2 : Opnd) (x3 : Opnd) (x4 : Opnd) : Statement (.irem x0 x1 x2 x3 x4) := by
  intro r e
  obtain rfl := Option.some.inj e
  change withDAB _ _ = _
  simp only [withDAB, rawO, rawN, rawHdr_mk, opndOf_code, ityOf_iSub, sat_iSub]
theorem imin (x0 : Hdr) (x1 : ITy) (x2 : Mods) (x3 : Opnd) (x4 : Opnd) (x5 : Opnd) : Statement (.imin x0 x1 x2 x3 x4 x5) := by
  intro r e
  obtain rfl := Option.some.inj e
  change withDAB _ _ = _
  simp only [withDAB, rawO, rawN, rawHdr_mk, opndOf_code, ityOf_iSub, sat_iSub, rMods, modsOf_code]
theorem imax (x0 : Hdr) (x1 : ITy) (x2 : Mods) (x3 : Opnd) (x4 : Opnd) (x5 : Opnd) : Statement (.imax x0 x1 x2 x3 x4 x5) := by
  intro r e
  obtain rfl := Option.some.inj e
  change withDAB _ _ = _
  simp only [withDAB, rawO, rawN, rawHdr_mk, opndOf_code, ityOf_iSub, sat_iSub, rMods, modsOf_code]
theorem isad (x0 : Hdr) (x1 : ITy) (x2 : Bool) (x3 : Opnd) (x4 : Opnd) (x5 : Opnd) (x6 : Opnd) : Statement (.isad x0 x1 x2 x3 x4 x5 x6) := by
  intro r e
  obtain rfl := Option.some.inj e
  change withDABC _ _ = _
  simp only [withDABC, rawO, rawN, rawHdr_mk, opndOf_code, ityOf_iSub, sat_iSub, bit_one]
theorem icmp (x0 : Hdr) (x1 : CmpTy) (x2 : ICmp) (x3 : Fin 8) (x4 : Opnd) (x5 : Opnd) : Statement (.icmp x0 x1 x2 x3 x4 x5) := by
  intro r e
  obtain rfl := Option.some.inj e
  change withAB _ _ = _
  simp only [withAB, rawO, rawN, rawHdr_mk, opndOf_code, cmpTyOf_code, icmpOf_code, f8_val]
  cases x1 <;> cases x2 <;> rfl
theorem sel (x0 : Hdr) (x1 : Fin 4) (x2 : Opnd) (x3 : Opnd) (x4 : Opnd) (x5 : Fin 8) : Statement (.sel x0 x1 x2 x3 x4 x5) := by
  intro r e
  obtain rfl := Option.some.inj e
  change withDAB _ _ = _
  simp only [withDAB, rawO, rawN, rawHdr_mk, opndOf_code, f4_val, f8_val]
theorem lea (x0 : Hdr) (x1 : LeaTy) (x2 : Opnd) (x3 : Opnd) (x4 : Opnd) (x5 : Opnd) : Statement (.lea x0 x1 x2 x3 x4 x5) := by
  intro r e
  obtain rfl := Option.some.inj e
  change withDABC _ _ = _
  simp only [withDABC, rawO, rawN, rawHdr_mk, opndOf_code, leaOf_code]
theorem andL (x0 : Hdr) (x1 : Fin 4) (x2 : Opnd) (x3 : Opnd) (x4 : Opnd) : Statement (.andL x0 x1 x2 x3 x4) := by
  intro r e
  obtain rfl := Option.some.inj e
  change withDAB _ _ = _
  simp only [withDAB, rawO, rawN, rawHdr_mk, opndOf_code, f4_val]
theorem orL (x0 : Hdr) (x1 : Fin 4) (x2 : Opnd) (x3 : Opnd) (x4 : Opnd) : Statement (.orL x0 x1 x2 x3 x4) := by
  intro r e
  obtain rfl := Option.some.inj e
  change withDAB _ _ = _
  simp only [withDAB, rawO, rawN, rawHdr_mk, opndOf_code, f4_val]
theorem xorL (x0 : Hdr) (x1 : Fin 4) (x2 : Opnd) (x3 : Opnd) (x4 : Opnd) : Statement (.xorL x0 x1 x2 x3 x4) := by
  intro r e
  obtain rfl := Option.some.inj e
  change withDAB _ _ = _
  simp only [withDAB, rawO, rawN, rawHdr_mk, opndOf_code, f4_val]
theorem andn (x0 : Hdr) (x1 : Fin 4) (x2 : Opnd) (x3 : Opnd) (x4 : Opnd) : Statement (.andn x0 x1 x2 x3 x4) := by
  intro r e
  obtain rfl := Option.some.inj e
  change withDAB _ _ = _
  simp only [withDAB, rawO, rawN, rawHdr_mk, opndOf_code, f4_val]
theorem shl (x0 : Hdr) (x1 : Fin 4) (x2 : Opnd) (x3 : Opnd) (x4 : Opnd) : Statement (.shl x0 x1 x2 x3 x4) := by
  intro r e
  obtain rfl := Option.some.inj e
  change withDAB _ _ = _
  simp only [withDAB, rawO, rawN, rawHdr_mk, opndOf_code, f4_val]
theorem shr (x0 : Hdr) (x1 : Fin 4) (x2 : Opnd) (x3 : Opnd) (x4 : Opnd) : Statement (.shr x0 x1 x2 x3 x4) := by
  intro r e
  obtain rfl := Option.some.inj e
  change withDAB _ _ = _
  simp only [withDAB, rawO, rawN, rawHdr_mk, opndOf_code, f4_val]
theorem sar (x0 : Hdr) (x1 : Fin 4) (x2 : Opnd) (x3 : Opnd) (x4 : Opnd) : Statement (.sar x0 x1 x2 x3 x4) := by
  intro r e
  obtain rfl := Option.some.inj e
  change withDAB _ _ = _
  simp only [withDAB, rawO, rawN, rawHdr_mk, opndOf_code, f4_val]
theorem rol (x0 : Hdr) (x1 : Fin 4) (x2 : Opnd) (x3 : Opnd) (x4 : Opnd) : Statement (.rol x0 x1 x2 x3 x4) := by
  intro r e
  obtain rfl := Option.some.inj e
  change withDAB _ _ = _
  simp only [withDAB, rawO, rawN, rawHdr_mk, opndOf_code, f4_val]
theorem fshr (x0 : Hdr) (x1 : Opnd) (x2 : Opnd) (x3 : Opnd) (x4 : Opnd) : Statement (.fshr x0 x1 x2 x3 x4) := by
  intro r e
  obtain rfl := Option.some.inj e
  change withDABC _ _ = _
  simp only [withDABC, rawO, rawN, rawHdr_mk, opndOf_code]
theorem bfe (x0 : Hdr) (x1 : Bool) (x2 : Opnd) (x3 : Opnd) (x4 : Opnd) : Statement (.bfe x0 x1 x2 x3 x4) := by
  intro r e
  obtain rfl := Option.some.inj e
  change withDAB _ _ = _
  simp only [withDAB, rawO, rawN, rawHdr_mk, opndOf_code, bit_one]
  cases x1 <;> rfl
theorem bfi (x0 : Hdr) (x1 : Opnd) (x2 : Opnd) (x3 : Opnd) (x4 : Opnd) : Statement (.bfi x0 x1 x2 x3 x4) := by
  intro r e
  obtain rfl := Option.some.inj e
  change withDABC _ _ = _
  simp only [withDABC, rawO, rawN, rawHdr_mk, opndOf_code]
theorem popc (x0 : Hdr) (x1 : Fin 4) (x2 : Opnd) (x3 : Opnd) : Statement (.popc x0 x1 x2 x3) := by
  intro r e
  obtain rfl := Option.some.inj e
  change withDA _ _ = _
  simp only [withDA, rawO, rawN, rawHdr_mk, opndOf_code, f4_val]
theorem clz (x0 : Hdr) (x1 : Fin 4) (x2 : Opnd) (x3 : Opnd) : Statement (.clz x0 x1 x2 x3) := by
  intro r e
  obtain rfl := Option.some.inj e
  change withDA _ _ = _
  simp only [withDA, rawO, rawN, rawHdr_mk, opndOf_code, f4_val]
theorem ctz (x0 : Hdr) (x1 : Fin 4) (x2 : Opnd) (x3 : Opnd) : Statement (.ctz x0 x1 x2 x3) := by
  intro r e
  obtain rfl := Option.some.inj e
  change withDA _ _ = _
  simp only [withDA, rawO, rawN, rawHdr_mk, opndOf_code, f4_val]
theorem brev (x0 : Hdr) (x1 : Fin 4) (x2 : Opnd) (x3 : Opnd) : Statement (.brev x0 x1 x2 x3) := by
  intro r e
  obtain rfl := Option.some.inj e
  change withDA _ _ = _
  simp only [withDA, rawO, rawN, rawHdr_mk, opndOf_code, f4_val]
theorem prmb (x0 : Hdr) (x1 : Opnd) (x2 : Opnd) (x3 : Opnd) (x4 : Opnd) : Statement (.prmb x0 x1 x2 x3 x4) := by
  intro r e
  obtain rfl := Option.some.inj e
  change withDABC _ _ = _
  simp only [withDABC, rawO, rawN, rawHdr_mk, opndOf_code]
theorem idot4 (x0 : Hdr) (x1 : Bool) (x2 : Bool) (x3 : Bool) (x4 : Opnd) (x5 : Opnd) (x6 : Opnd) (x7 : Opnd) : Statement (.idot4 x0 x1 x2 x3 x4 x5 x6 x7) := by
  intro r e
  obtain rfl := Option.some.inj e
  change withDABC _ _ = _
  simp only [withDABC, rawO, rawN, rawHdr_mk, opndOf_code, bit_one]
  cases x1 <;> cases x2 <;> cases x3 <;> rfl
theorem idot2 (x0 : Hdr) (x1 : Bool) (x2 : Bool) (x3 : Bool) (x4 : Opnd) (x5 : Opnd) (x6 : Opnd) (x7 : Opnd) : Statement (.idot2 x0 x1 x2 x3 x4 x5 x6 x7) := by
  intro r e
  obtain rfl := Option.some.inj e
  change withDABC _ _ = _
  simp only [withDABC, rawO, rawN, rawHdr_mk, opndOf_code, bit_one]
  cases x1 <;> cases x2 <;> cases x3 <;> rfl
theorem mov (x0 : Hdr) (x1 : Fin 4) (x2 : Opnd) (x3 : Opnd) : Statement (.mov x0 x1 x2 x3) := by
  intro r e
  obtain rfl := Option.some.inj e
  change withDA _ _ = _
  simp only [withDA, rawO, rawN, rawHdr_mk, opndOf_code, f4_val]
theorem fadd (x0 : Hdr) (x1 : FTy) (x2 : Rm) (x3 : Mods) (x4 : Opnd) (x5 : Opnd) (x6 : Opnd) : Statement (.fadd x0 x1 x2 x3 x4 x5 x6) := by
  intro r e
  obtain rfl := Option.some.inj e
  change withDAB _ _ = _
  simp only [withDAB, rawO, rawN, rawHdr_mk, opndOf_code, ftyOf_fSub, rmOf_fSub, rmOf_code, rMods, modsOf_code]
theorem fsub (x0 : Hdr) (x1 : FTy) (x2 : Rm) (x3 : Mods) (x4 : Opnd) (x5 : Opnd) (x6 : Opnd) : Statement (.fsub x0 x1 x2 x3 x4 x5 x6) := by
  intro r e
  obtain rfl := Option.some.inj e
  change withDAB _ _ = _
  simp only [withDAB, rawO, rawN, rawHdr_mk, opndOf_code, ftyOf_fSub, rmOf_fSub, rmOf_code, rMods, modsOf_code]
theorem fmul (x0 : Hdr) (x1 : FTy) (x2 : Rm) (x3 : Mods) (x4 : Opnd) (x5 : Opnd) (x6 : Opnd) : Statement (.fmul x0 x1 x2 x3 x4 x5 x6) := by
  intro r e
  obtain rfl := Option.some.inj e
  change withDAB _ _ = _
  simp only [withDAB, rawO, rawN, rawHdr_mk, opndOf_code, ftyOf_fSub, rmOf_fSub, rmOf_code, rMods, modsOf_code]
theorem ffma (x0 : Hdr) (x1 : FTy) (x2 : Rm) (x3 : Mods) (x4 : Opnd) (x5 : Opnd) (x6 : Opnd) (x7 : Opnd) : Statement (.ffma x0 x1 x2 x3 x4 x5 x6 x7) := by
  intro r e
  obtain rfl := Option.some.inj e
  change withDABC _ _ = _
  simp only [withDABC, rawO, rawN, rawHdr_mk, opndOf_code, ftyOf_fSub, rmOf_fSub, rmOf_code, rMods, modsOf_code]
theorem fmin (x0 : Hdr) (x1 : FTy) (x2 : Mods) (x3 : Opnd) (x4 : Opnd) (x5 : Opnd) : Statement (.fmin x0 x1 x2 x3 x4 x5) := by
  intro r e
  obtain rfl := Option.some.inj e
  change withDAB _ _ = _
  simp only [withDAB, rawO, rawN, rawHdr_mk, opndOf_code, ftyOf_fSub, rmOf_fSub, rMods, modsOf_code]
theorem fmax (x0 : Hdr) (x1 : FTy) (x2 : Mods) (x3 : Opnd) (x4 : Opnd) (x5 : Opnd) : Statement (.fmax x0 x1 x2 x3 x4 x5) := by
  intro r e
  obtain rfl := Option.some.inj e
  change withDAB _ _ = _
  simp only [withDAB, rawO, rawN, rawHdr_mk, opndOf_code, ftyOf_fSub, rmOf_fSub, rMods, modsOf_code]
theorem fcmp (x0 : Hdr) (x1 : FCmp) (x2 : Mods) (x3 : Fin 8) (x4 : Opnd) (x5 : Opnd) : Statement (.fcmp x0 x1 x2 x3 x4 x5) := by
  intro r e
  obtain rfl := Option.some.inj e
  change withAB _ _ = _
  simp only [withAB, rawO, rawN, rawHdr_mk, opndOf_code, fcmpOf_code, rMods, modsOf_code, f8_val]
theorem fclass (x0 : Hdr) (x1 : ClassFmt) (x2 : Mods) (x3 : Fin 8) (x4 : Opnd) (x5 : Opnd) : Statement (.fclass x0 x1 x2 x3 x4 x5) := by
  intro r e
  obtain rfl := Option.some.inj e
  change withAB _ _ = _
  simp only [withAB, rawO, rawN, rawHdr_mk, opndOf_code, classOf_code, rMods, modsOf_code, f8_val]
theorem frnd (x0 : Hdr) (x1 : FTy) (x2 : Rm) (x3 : Mods) (x4 : Opnd) (x5 : Opnd) : Statement (.frnd x0 x1 x2 x3 x4 x5) := by
  intro r e
  obtain rfl := Option.some.inj e
  change withDA _ _ = _
  simp only [withDA, rawO, rawN, rawHdr_mk, opndOf_code, ftyOf_fSub, rmOf_fSub, rmOf_code, rMods, modsOf_code]
theorem fscale (x0 : Hdr) (x1 : FTy) (x2 : Rm) (x3 : Mods) (x4 : Opnd) (x5 : Opnd) (x6 : Opnd) : Statement (.fscale x0 x1 x2 x3 x4 x5 x6) := by
  intro r e
  obtain rfl := Option.some.inj e
  change withDAB _ _ = _
  simp only [withDAB, rawO, rawN, rawHdr_mk, opndOf_code, ftyOf_fSub, rmOf_fSub, rmOf_code, rMods, modsOf_code]
theorem fexpo (x0 : Hdr) (x1 : ClassFmt) (x2 : Opnd) (x3 : Opnd) : Statement (.fexpo x0 x1 x2 x3) := by
  intro r e
  obtain rfl := Option.some.inj e
  change withDA _ _ = _
  simp only [withDA, rawO, rawN, rawHdr_mk, opndOf_code, classOf_code]
theorem fdot2 (x0 : Hdr) (x1 : Bool) (x2 : Rm) (x3 : Mods) (x4 : Opnd) (x5 : Opnd) (x6 : Opnd) (x7 : Opnd) : Statement (.fdot2 x0 x1 x2 x3 x4 x5 x6 x7) := by
  intro r e
  obtain rfl := Option.some.inj e
  change withDABC _ _ = _
  simp only [withDABC, rawO, rawN, rawHdr_mk, opndOf_code, bit_one, rmOf_code, rMods, modsOf_code, rmOf_fSub]
  cases x1 <;> cases x2 <;> rfl
theorem frcp (x0 : Hdr) (x1 : Rm) (x2 : Mods) (x3 : Opnd) (x4 : Opnd) : Statement (.frcp x0 x1 x2 x3 x4) := by
  intro r e
  obtain rfl := Option.some.inj e
  change withDA _ _ = _
  simp only [withDA, rawO, rawN, rawHdr_mk, opndOf_code, rmOf_code, rMods, modsOf_code]
  cases x1 <;> rfl
theorem frsq (x0 : Hdr) (x1 : Rm) (x2 : Mods) (x3 : Opnd) (x4 : Opnd) : Statement (.frsq x0 x1 x2 x3 x4) := by
  intro r e
  obtain rfl := Option.some.inj e
  change withDA _ _ = _
  simp only [withDA, rawO, rawN, rawHdr_mk, opndOf_code, rmOf_code, rMods, modsOf_code]
  cases x1 <;> rfl
theorem fsqrt (x0 : Hdr) (x1 : Rm) (x2 : Mods) (x3 : Opnd) (x4 : Opnd) : Statement (.fsqrt x0 x1 x2 x3 x4) := by
  intro r e
  obtain rfl := Option.some.inj e
  change withDA _ _ = _
  simp only [withDA, rawO, rawN, rawHdr_mk, opndOf_code, rmOf_code, rMods, modsOf_code]
  cases x1 <;> rfl
theorem fexp2 (x0 : Hdr) (x1 : Mods) (x2 : Opnd) (x3 : Opnd) : Statement (.fexp2 x0 x1 x2 x3) := by
  intro r e
  obtain rfl := Option.some.inj e
  change withDA _ _ = _
  simp only [withDA, rawO, rawN, rawHdr_mk, opndOf_code, rMods, modsOf_code]
theorem flog2 (x0 : Hdr) (x1 : Mods) (x2 : Opnd) (x3 : Opnd) : Statement (.flog2 x0 x1 x2 x3) := by
  intro r e
  obtain rfl := Option.some.inj e
  change withDA _ _ = _
  simp only [withDA, rawO, rawN, rawHdr_mk, opndOf_code, rMods, modsOf_code]
theorem fsin (x0 : Hdr) (x1 : Mods) (x2 : Opnd) (x3 : Opnd) : Statement (.fsin x0 x1 x2 x3) := by
  intro r e
  obtain rfl := Option.some.inj e
  change withDA _ _ = _
  simp only [withDA, rawO, rawN, rawHdr_mk, opndOf_code, rMods, modsOf_code]
theorem fcos (x0 : Hdr) (x1 : Mods) (x2 : Opnd) (x3 : Opnd) : Statement (.fcos x0 x1 x2 x3) := by
  intro r e
  obtain rfl := Option.some.inj e
  change withDA _ _ = _
  simp only [withDA, rawO, rawN, rawHdr_mk, opndOf_code, rMods, modsOf_code]
theorem ftanh (x0 : Hdr) (x1 : Mods) (x2 : Opnd) (x3 : Opnd) : Statement (.ftanh x0 x1 x2 x3) := by
  intro r e
  obtain rfl := Option.some.inj e
  change withDA _ _ = _
  simp only [withDA, rawO, rawN, rawHdr_mk, opndOf_code, rMods, modsOf_code]
theorem fsigm (x0 : Hdr) (x1 : Mods) (x2 : Opnd) (x3 : Opnd) : Statement (.fsigm x0 x1 x2 x3) := by
  intro r e
  obtain rfl := Option.some.inj e
  change withDA _ _ = _
  simp only [withDA, rawO, rawN, rawHdr_mk, opndOf_code, rMods, modsOf_code]
theorem fdiv (x0 : Hdr) (x1 : Rm) (x2 : Mods) (x3 : Opnd) (x4 : Opnd) (x5 : Opnd) : Statement (.fdiv x0 x1 x2 x3 x4 x5) := by
  intro r e
  obtain rfl := Option.some.inj e
  change withDAB _ _ = _
  simp only [withDAB, rawO, rawN, rawHdr_mk, opndOf_code, rmOf_code, rMods, modsOf_code]
  cases x1 <;> rfl
theorem cvt (x0 : Hdr) (x1 : CvtKind) (x2 : Mods) (x3 : Opnd) (x4 : Opnd) (x5 : Opnd) (x6 : Opnd) : Statement (.cvt x0 x1 x2 x3 x4 x5 x6) := by
  intro r e
  obtain rfl := Option.some.inj e
  change withDABC _ _ = _
  simp only [withDABC, rawO, rawN, rawHdr_mk, opndOf_code, cvtOf_code, rMods, modsOf_code]
theorem ftoi (x0 : Hdr) (x1 : CmpTy) (x2 : Rm) (x3 : Mods) (x4 : Opnd) (x5 : Opnd) : Statement (.ftoi x0 x1 x2 x3 x4 x5) := by
  intro r e
  obtain rfl := Option.some.inj e
  change withDA _ _ = _
  simp only [withDA, rawO, rawN, rawHdr_mk, opndOf_code, cmpTyOf_code, rmOf_code, rMods, modsOf_code]
  cases x1 <;> cases x2 <;> rfl
theorem itof (x0 : Hdr) (x1 : CmpTy) (x2 : Rm) (x3 : Mods) (x4 : Opnd) (x5 : Opnd) : Statement (.itof x0 x1 x2 x3 x4 x5) := by
  intro r e
  obtain rfl := Option.some.inj e
  change withDA _ _ = _
  simp only [withDA, rawO, rawN, rawHdr_mk, opndOf_code, cmpTyOf_code, rmOf_code, rMods, modsOf_code]
  cases x1 <;> cases x2 <;> rfl
theorem qpack (x0 : Hdr) (x1 : QFmt) (x2 : Mods) (x3 : Opnd) (x4 : Opnd) : Statement (.qpack x0 x1 x2 x3 x4) := by
  intro r e
  obtain rfl := Option.some.inj e
  change withDA _ _ = _
  simp only [withDA, rawO, rawN, rawHdr_mk, opndOf_code, qOf_code, rMods, modsOf_code]
theorem qunpk (x0 : Hdr) (x1 : QFmt) (x2 : Opnd) (x3 : Opnd) (x4 : Opnd) (x5 : Opnd) : Statement (.qunpk x0 x1 x2 x3 x4 x5) := by
  intro r e
  obtain rfl := Option.some.inj e
  change withDABC _ _ = _
  simp only [withDABC, rawO, rawN, rawHdr_mk, opndOf_code, qOf_code]
theorem tred (x0 : Hdr) (x1 : TreeOp) (x2 : Opnd) (x3 : Opnd) : Statement (.tred x0 x1 x2 x3) := by
  intro r e
  obtain rfl := Option.some.inj e
  change withDA _ _ = _
  simp only [withDA, rawO, rawN, rawHdr_mk, opndOf_code, treeOf_code]
theorem tscan (x0 : Hdr) (x1 : TreeOp) (x2 : Bool) (x3 : Opnd) (x4 : Opnd) : Statement (.tscan x0 x1 x2 x3 x4) := by
  intro r e
  obtain rfl := Option.some.inj e
  change withDA _ _ = _
  simp only [withDA, rawO, rawN, rawHdr_mk, opndOf_code, treeOf_code, bit_one]
  cases x1 <;> cases x2 <;> rfl
theorem tshfl (x0 : Hdr) (x1 : Shfl) (x2 : Bool) (x3 : Opnd) (x4 : Opnd) (x5 : Opnd) (x6 : Opnd) : Statement (.tshfl x0 x1 x2 x3 x4 x5 x6) := by
  intro r e
  obtain rfl := Option.some.inj e
  change withDABC _ _ = _
  simp only [withDABC, rawO, rawN, rawHdr_mk, opndOf_code, shflOf_code, bit_one]
  cases x1 <;> cases x2 <;> rfl
theorem tbcst (x0 : Hdr) (x1 : Bool) (x2 : Bool) (x3 : Opnd) (x4 : Opnd) (x5 : Opnd) (x6 : Opnd) : Statement (.tbcst x0 x1 x2 x3 x4 x5 x6) := by
  intro r e
  obtain rfl := Option.some.inj e
  change withDABC _ _ = _
  simp only [withDABC, rawO, rawN, rawHdr_mk, opndOf_code, bit_one]
  cases x1 <;> cases x2 <;> rfl
theorem vote (x0 : Hdr) (x1 : VoteOp) (x2 : Opnd) (x3 : Opnd) : Statement (.vote x0 x1 x2 x3) := by
  intro r e
  obtain rfl := Option.some.inj e
  change withDA _ _ = _
  simp only [withDA, rawO, rawN, rawHdr_mk, opndOf_code, voteOf_code]
theorem matchL (x0 : Hdr) (x1 : Bool) (x2 : Bool) (x3 : Fin 8) (x4 : Opnd) : Statement (.matchL x0 x1 x2 x3 x4) := by
  intro r e
  obtain rfl := Option.some.inj e
  change withA _ _ = _
  simp only [withA, rawO, rawN, rawHdr_mk, opndOf_code, bit_one, f8_val, Option.map_some]
  cases x1 <;> cases x2 <;> rfl
theorem kop (x0 : Hdr) (x1 : Fin 8) (x2 : KopForm) : Statement (.kop x0 x1 x2) := by
  intro r e
  cases x2 with
  | bin op ka kb =>
    obtain rfl := Option.some.inj e
    change some _ = _
    simp only [rawN, rawHdr_mk, opndOf_code, f8_val, f8_val]
    cases op <;> rfl
  | not ka =>
    obtain rfl := Option.some.inj e
    change some _ = _
    simp only [rawN, rawHdr_mk, opndOf_code, f8_val, f8_val]
    rfl
  | clr =>
    obtain rfl := Option.some.inj e
    change some _ = _
    simp only [rawN, rawHdr_mk, opndOf_code, f8_val, f8_val]
    rfl
  | set =>
    obtain rfl := Option.some.inj e
    change some _ = _
    simp only [rawN, rawHdr_mk, opndOf_code, f8_val, f8_val]
    rfl
theorem kcnt (x0 : Hdr) (x1 : Opnd) (x2 : Fin 8) : Statement (.kcnt x0 x1 x2) := by
  intro r e
  obtain rfl := Option.some.inj e
  change withD _ _ = _
  simp only [withD, rawO, rawN, rawHdr_mk, opndOf_code, f8_val, Option.map_some]
theorem kfnd (x0 : Hdr) (x1 : Bool) (x2 : Opnd) (x3 : Fin 8) : Statement (.kfnd x0 x1 x2 x3) := by
  intro r e
  obtain rfl := Option.some.inj e
  change withD _ _ = _
  simp only [withD, rawO, rawN, rawHdr_mk, opndOf_code, bit_one, f8_val, Option.map_some]
theorem kmov (x0 : Hdr) (x1 : KmovForm) : Statement (.kmov x0 x1) := by
  intro r e
  cases x1 with
  | v2k kd a =>
    obtain rfl := Option.some.inj e
    change withA _ _ = _
    simp only [withA, rawN, rawHdr_mk, opndOf_code, f8_val, Option.map_some]
  | k2v d ka =>
    obtain rfl := Option.some.inj e
    change withD _ _ = _
    simp only [withD, rawN, rawHdr_mk, opndOf_code, f8_val, Option.map_some]
  | s2k kd a b =>
    obtain rfl := Option.some.inj e
    change withAB _ _ = _
    simp only [withAB, rawN, rawHdr_mk, opndOf_code, f8_val, Option.map_some]
  | k2s d ka b =>
    obtain rfl := Option.some.inj e
    change withDB _ _ = _
    simp only [withDB, rawN, rawHdr_mk, opndOf_code, f8_val, Option.map_some]
theorem ld (x0 : Hdr) (x1 : MemCtl) (x2 : Bool) (x3 : Opnd) (x4 : Opnd) (x5 : Opnd) : Statement (.ld x0 x1 x2 x3 x4 x5) := by
  intro r e
  obtain rfl := Option.some.inj e
  change withDAB _ _ = _
  simp only [withDAB, rawO, rawN, rawHdr_mk, opndOf_code, rMc, mcOf_code, bit_one]
theorem st (x0 : Hdr) (x1 : MemCtl) (x2 : Opnd) (x3 : Opnd) (x4 : Opnd) : Statement (.st x0 x1 x2 x3 x4) := by
  intro r e
  obtain rfl := Option.some.inj e
  change withABC _ _ = _
  simp only [withABC, rawO, rawN, rawHdr_mk, opndOf_code, rMc, mcOf_code]
theorem lds (x0 : Hdr) (x1 : MemCtl) (x2 : Bool) (x3 : Opnd) (x4 : Opnd) (x5 : Opnd) : Statement (.lds x0 x1 x2 x3 x4 x5) := by
  intro r e
  obtain rfl := Option.some.inj e
  change withDAB _ _ = _
  simp only [withDAB, rawO, rawN, rawHdr_mk, opndOf_code, rMc, mcOf_code, bit_one]
theorem sts (x0 : Hdr) (x1 : MemCtl) (x2 : Opnd) (x3 : Opnd) (x4 : Opnd) : Statement (.sts x0 x1 x2 x3 x4) := by
  intro r e
  obtain rfl := Option.some.inj e
  change withABC _ _ = _
  simp only [withABC, rawO, rawN, rawHdr_mk, opndOf_code, rMc, mcOf_code]
theorem ldu (x0 : Hdr) (x1 : MemCtl) (x2 : Bool) (x3 : Opnd) (x4 : Opnd) (x5 : Opnd) : Statement (.ldu x0 x1 x2 x3 x4 x5) := by
  intro r e
  obtain rfl := Option.some.inj e
  change withDAB _ _ = _
  simp only [withDAB, rawO, rawN, rawHdr_mk, opndOf_code, rMc, mcOf_code, bit_one]
theorem atom (x0 : Hdr) (x1 : MemCtl) (x2 : AtomOp) (x3 : Opnd) (x4 : Opnd) (x5 : Opnd) (x6 : Opnd) : Statement (.atom x0 x1 x2 x3 x4 x5 x6) := by
  intro r e
  obtain rfl := Option.some.inj e
  change withDABC _ _ = _
  simp only [withDABC, rawO, rawN, rawHdr_mk, opndOf_code, rMc, mcOf_code, atomOf_code]
theorem atoms (x0 : Hdr) (x1 : MemCtl) (x2 : AtomOp) (x3 : Opnd) (x4 : Opnd) (x5 : Opnd) (x6 : Opnd) : Statement (.atoms x0 x1 x2 x3 x4 x5 x6) := by
  intro r e
  obtain rfl := Option.some.inj e
  change withDABC _ _ = _
  simp only [withDABC, rawO, rawN, rawHdr_mk, opndOf_code, rMc, mcOf_code, atomOf_code]
theorem red (x0 : Hdr) (x1 : MemCtl) (x2 : AtomOp) (x3 : Opnd) (x4 : Opnd) (x5 : Opnd) : Statement (.red x0 x1 x2 x3 x4 x5) := by
  intro r e
  obtain rfl := Option.some.inj e
  change withABC _ _ = _
  simp only [withABC, rawO, rawN, rawHdr_mk, opndOf_code, rMc, mcOf_code, atomOf_code]
theorem fence (x0 : Hdr) (x1 : Order) (x2 : Scope) : Statement (.fence x0 x1 x2) := by
  intro r e
  obtain rfl := Option.some.inj e
  change some _ = _
  simp only [rawO, rawN, rawHdr_mk, opndOf_code, orderOfNat_code, scopeOf_code]
  cases x1 <;> cases x2 <;> rfl
theorem pref (x0 : Hdr) (x1 : Bool) (x2 : Cache) (x3 : Opnd) (x4 : Opnd) : Statement (.pref x0 x1 x2 x3 x4) := by
  intro r e
  obtain rfl := Option.some.inj e
  change withAB _ _ = _
  simp only [withAB, rawO, rawN, rawHdr_mk, opndOf_code, bit_one, cacheOf_code]
  cases x1 <;> cases x2 <;> rfl
theorem cctl (x0 : Hdr) (x1 : CctlOp) (x2 : Opnd) (x3 : Opnd) : Statement (.cctl x0 x1 x2 x3) := by
  intro r e
  obtain rfl := Option.some.inj e
  change withAB _ _ = _
  simp only [withAB, rawO, rawN, rawHdr_mk, opndOf_code, cctlOf_code]
theorem waitc (x0 : Hdr) (x1 : Fin 8) (x2 : Opnd) : Statement (.waitc x0 x1 x2) := by
  intro r e
  obtain rfl := Option.some.inj e
  change withA _ _ = _
  simp only [withA, rawO, rawN, rawHdr_mk, opndOf_code, f8_val, Option.map_some]
theorem rdc (x0 : Hdr) (x1 : Order) (x2 : Scope) (x3 : Opnd) : Statement (.rdc x0 x1 x2 x3) := by
  intro r e
  obtain rfl := Option.some.inj e
  change withD _ _ = _
  simp only [withD, rawO, rawN, rawHdr_mk, opndOf_code, orderOfNat_code, scopeOf_code, Option.map_some]
  cases x1 <;> cases x2 <;> rfl
theorem abarInit (x0 : Hdr) (x1 : Bool) (x2 : Opnd) (x3 : Opnd) (x4 : Opnd) : Statement (.abarInit x0 x1 x2 x3 x4) := by
  intro r e
  obtain rfl := Option.some.inj e
  have e : ∀ r : Raw, r.major = 142 → r.sub % 8 = 0 → ofRaw r = withABC r (.abarInit (rawHdr r) (r.sub / 8 == 1)) := by
    intro r h1 h2
    simp [ofRaw, ofRawMem, h1, h2]
  rw [e _ rfl (by have h := boolBit_lt x1; simp only [rawO, rawN]; omega)]
  simp only [withABC, rawO, rawN, rawHdr_mk, opndOf_code, bit_one]
  cases x1 <;> rfl
theorem abarArrive (x0 : Hdr) (x1 : Bool) (x2 : Opnd) (x3 : Opnd) : Statement (.abarArrive x0 x1 x2 x3) := by
  intro r e
  obtain rfl := Option.some.inj e
  have e : ∀ r : Raw, r.major = 142 → r.sub % 8 = 1 → ofRaw r = withDA r (.abarArrive (rawHdr r) (r.sub / 8 == 1)) := by
    intro r h1 h2
    simp [ofRaw, ofRawMem, h1, h2]
  rw [e _ rfl (by have h := boolBit_lt x1; simp only [rawO, rawN]; omega)]
  simp only [withDA, rawO, rawN, rawHdr_mk, opndOf_code, bit_one]
  cases x1 <;> rfl
theorem abarExpect (x0 : Hdr) (x1 : Bool) (x2 : Opnd) (x3 : Opnd) : Statement (.abarExpect x0 x1 x2 x3) := by
  intro r e
  obtain rfl := Option.some.inj e
  have e : ∀ r : Raw, r.major = 142 → r.sub % 8 = 2 → ofRaw r = withAB r (.abarExpect (rawHdr r) (r.sub / 8 == 1)) := by
    intro r h1 h2
    simp [ofRaw, ofRawMem, h1, h2]
  rw [e _ rfl (by have h := boolBit_lt x1; simp only [rawO, rawN]; omega)]
  simp only [withAB, rawO, rawN, rawHdr_mk, opndOf_code, bit_one]
  cases x1 <;> rfl
theorem abarWait (x0 : Hdr) (x1 : Bool) (x2 : Opnd) (x3 : Opnd) : Statement (.abarWait x0 x1 x2 x3) := by
  intro r e
  obtain rfl := Option.some.inj e
  have e : ∀ r : Raw, r.major = 142 → r.sub % 8 = 3 → ofRaw r = withAB r (.abarWait (rawHdr r) (r.sub / 8 == 1)) := by
    intro r h1 h2
    simp [ofRaw, ofRawMem, h1, h2]
  rw [e _ rfl (by have h := boolBit_lt x1; simp only [rawO, rawN]; omega)]
  simp only [withAB, rawO, rawN, rawHdr_mk, opndOf_code, bit_one]
  cases x1 <;> rfl
theorem abarTest (x0 : Hdr) (x1 : Bool) (x2 : Opnd) (x3 : Opnd) (x4 : Opnd) : Statement (.abarTest x0 x1 x2 x3 x4) := by
  intro r e
  obtain rfl := Option.some.inj e
  have e : ∀ r : Raw, r.major = 142 → r.sub % 8 = 4 → ofRaw r = withDAB r (.abarTest (rawHdr r) (r.sub / 8 == 1)) := by
    intro r h1 h2
    simp [ofRaw, ofRawMem, h1, h2]
  rw [e _ rfl (by have h := boolBit_lt x1; simp only [rawO, rawN]; omega)]
  simp only [withDAB, rawO, rawN, rawHdr_mk, opndOf_code, bit_one]
  cases x1 <;> rfl
theorem bar (x0 : Hdr) (x1 : Opnd) (x2 : Opnd) : Statement (.bar x0 x1 x2) := by
  intro r e
  obtain rfl := Option.some.inj e
  change withAB _ _ = _
  simp only [withAB, rawO, rawN, rawHdr_mk, opndOf_code]
theorem barArrive (x0 : Hdr) (x1 : Opnd) (x2 : Opnd) : Statement (.barArrive x0 x1 x2) := by
  intro r e
  obtain rfl := Option.some.inj e
  change withAB _ _ = _
  simp only [withAB, rawO, rawN, rawHdr_mk, opndOf_code]
theorem gbar (x0 : Hdr) (x1 : Opnd) : Statement (.gbar x0 x1) := by
  intro r e
  obtain rfl := Option.some.inj e
  change withA _ _ = _
  simp only [withA, rawO, rawN, rawHdr_mk, opndOf_code, Option.map_some]
theorem bra (x0 : Hdr) (x1 : BitVec 16) : Statement (.bra x0 x1) := by
  intro r e
  obtain rfl := Option.some.inj e
  change some _ = _
  simp only [rawO, rawN, rawHdr_mk, opndOf_code, off_back, BitVec.ofNat_toNat, BitVec.setWidth_eq]
theorem brx (x0 : Hdr) (x1 : Opnd) : Statement (.brx x0 x1) := by
  intro r e
  obtain rfl := Option.some.inj e
  change withA _ _ = _
  simp only [withA, rawO, rawN, rawHdr_mk, opndOf_code, Option.map_some]
theorem call (x0 : Hdr) (x1 : Opnd) (x2 : BitVec 16) : Statement (.call x0 x1 x2) := by
  intro r e
  obtain rfl := Option.some.inj e
  change withD _ _ = _
  simp only [withD, rawO, rawN, rawHdr_mk, opndOf_code, off_back, BitVec.ofNat_toNat, BitVec.setWidth_eq, Option.map_some]
theorem calli (x0 : Hdr) (x1 : Opnd) (x2 : Opnd) : Statement (.calli x0 x1 x2) := by
  intro r e
  obtain rfl := Option.some.inj e
  change withDA _ _ = _
  simp only [withDA, rawO, rawN, rawHdr_mk, opndOf_code]
theorem ret (x0 : Hdr) (x1 : Opnd) : Statement (.ret x0 x1) := by
  intro r e
  obtain rfl := Option.some.inj e
  change withA _ _ = _
  simp only [withA, rawO, rawN, rawHdr_mk, opndOf_code, Option.map_some]
theorem exit (x0 : Hdr) : Statement (.exit x0) := by
  intro r e
  obtain rfl := Option.some.inj e
  change some _ = _
  simp only [rawO, rawN, rawHdr_mk, opndOf_code]
theorem yield (x0 : Hdr) : Statement (.yield x0) := by
  intro r e
  obtain rfl := Option.some.inj e
  change some _ = _
  simp only [rawO, rawN, rawHdr_mk, opndOf_code]
theorem pause (x0 : Hdr) (x1 : Opnd) : Statement (.pause x0 x1) := by
  intro r e
  obtain rfl := Option.some.inj e
  change withA _ _ = _
  simp only [withA, rawO, rawN, rawHdr_mk, opndOf_code, Option.map_some]
theorem trap (x0 : Hdr) (x1 : Opnd) : Statement (.trap x0 x1) := by
  intro r e
  obtain rfl := Option.some.inj e
  change withA _ _ = _
  simp only [withA, rawO, rawN, rawHdr_mk, opndOf_code, Option.map_some]
theorem brk (x0 : Hdr) : Statement (.brk x0) := by
  intro r e
  obtain rfl := Option.some.inj e
  change some _ = _
  simp only [rawO, rawN, rawHdr_mk, opndOf_code]
theorem join (x0 : Hdr) : Statement (.join x0) := by
  intro r e
  obtain rfl := Option.some.inj e
  change some _ = _
  simp only [rawO, rawN, rawHdr_mk, opndOf_code]
theorem claim (x0 : Hdr) (x1 : Opnd) (x2 : BitVec 6) : Statement (.claim x0 x1 x2) := by
  intro r e
  obtain rfl := Option.some.inj e
  change withA _ _ = _
  simp only [withA, rawO, rawN, rawHdr_mk, opndOf_code, off_back, BitVec.ofNat_toNat, BitVec.setWidth_eq, Option.map_some]
theorem release (x0 : Hdr) (x1 : Opnd) (x2 : BitVec 6) : Statement (.release x0 x1 x2) := by
  intro r e
  obtain rfl := Option.some.inj e
  change withA _ _ = _
  simp only [withA, rawO, rawN, rawHdr_mk, opndOf_code, off_back, BitVec.ofNat_toNat, BitVec.setWidth_eq, Option.map_some]
theorem xset (x0 : Hdr) (x1 : XsetMode) (x2 : Fin 8) (x3 : Opnd) : Statement (.xset x0 x1 x2 x3) := by
  intro r e
  obtain rfl := Option.some.inj e
  change withA _ _ = _
  simp only [withA, rawO, rawN, rawHdr_mk, opndOf_code, xsetOf_code, f8_val, Option.map_some]
theorem xget (x0 : Hdr) (x1 : Opnd) (x2 : Fin 8) : Statement (.xget x0 x1 x2) := by
  intro r e
  obtain rfl := Option.some.inj e
  change withD _ _ = _
  simp only [withD, rawO, rawN, rawHdr_mk, opndOf_code, f8_val, Option.map_some]
theorem tcopy (x0 : Hdr) (x1 : Bool) (x2 : Opnd) (x3 : Opnd) : Statement (.tcopy x0 x1 x2 x3) := by
  intro r e
  obtain rfl := Option.some.inj e
  change withAC _ _ = _
  simp only [withAC, rawO, rawN, rawHdr_mk, opndOf_code, bit_one]
  cases x1 <;> rfl
theorem tgath (x0 : Hdr) (x1 : Bool) (x2 : Opnd) (x3 : Opnd) : Statement (.tgath x0 x1 x2 x3) := by
  intro r e
  obtain rfl := Option.some.inj e
  change withAC _ _ = _
  simp only [withAC, rawO, rawN, rawHdr_mk, opndOf_code, bit_one]
  cases x1 <;> rfl
theorem tscat (x0 : Hdr) (x1 : Bool) (x2 : Opnd) (x3 : Opnd) : Statement (.tscat x0 x1 x2 x3) := by
  intro r e
  obtain rfl := Option.some.inj e
  change withAC _ _ = _
  simp only [withAC, rawO, rawN, rawHdr_mk, opndOf_code, bit_one]
  cases x1 <;> rfl
theorem tmcst (x0 : Hdr) (x1 : Opnd) (x2 : Opnd) (x3 : Opnd) : Statement (.tmcst x0 x1 x2 x3) := by
  intro r e
  obtain rfl := Option.some.inj e
  change withABC _ _ = _
  simp only [withABC, rawO, rawN, rawHdr_mk, opndOf_code]
theorem cbini (x0 : Hdr) (x1 : Bool) (x2 : Bool) (x3 : BitVec 6) (x4 : Opnd) (x5 : Opnd) (x6 : Opnd) : Statement (.cbini x0 x1 x2 x3 x4 x5 x6) := by
  intro r e
  obtain rfl := Option.some.inj e
  change withABC _ _ = _
  simp only [withABC, rawO, tags_back, count_back, rawN, rawHdr_mk, opndOf_code, bit_one, off_back, BitVec.ofNat_toNat, BitVec.setWidth_eq]
  cases x1 <;> rfl
theorem cbacq (x0 : Hdr) (x1 : Bool) (x2 : Bool) (x3 : Opnd) (x4 : Opnd) : Statement (.cbacq x0 x1 x2 x3 x4) := by
  intro r e
  obtain rfl := Option.some.inj e
  change withDA _ _ = _
  simp only [withDA, rawO, rawN, rawHdr_mk, opndOf_code, bit_one]
  cases x1 <;> cases x2 <;> rfl
theorem cbrel (x0 : Hdr) (x1 : Bool) (x2 : Opnd) : Statement (.cbrel x0 x1 x2) := by
  intro r e
  obtain rfl := Option.some.inj e
  change withA _ _ = _
  simp only [withA, rawO, rawN, rawHdr_mk, opndOf_code, bit_one, Option.map_some]
  cases x1 <;> rfl
theorem cbput (x0 : Hdr) (x1 : Bool) (x2 : Opnd) (x3 : Opnd) (x4 : Opnd) : Statement (.cbput x0 x1 x2 x3 x4) := by
  intro r e
  obtain rfl := Option.some.inj e
  change withABC _ _ = _
  simp only [withABC, rawO, rawN, rawHdr_mk, opndOf_code, bit_one]
  cases x1 <;> rfl
theorem cbres (x0 : Hdr) (x1 : Bool) (x2 : Opnd) (x3 : Opnd) : Statement (.cbres x0 x1 x2 x3) := by
  intro r e
  obtain rfl := Option.some.inj e
  change withDA _ _ = _
  simp only [withDA, rawO, rawN, rawHdr_mk, opndOf_code, bit_one]
  cases x1 <;> rfl
theorem cbst (x0 : Hdr) (x1 : Bool) (x2 : Opnd) (x3 : Opnd) : Statement (.cbst x0 x1 x2 x3) := by
  intro r e
  obtain rfl := Option.some.inj e
  change withDA _ _ = _
  simp only [withDA, rawO, rawN, rawHdr_mk, opndOf_code, bit_one]
  cases x1 <;> rfl
theorem tfill (x0 : Hdr) (x1 : Opnd) (x2 : Opnd) (x3 : Opnd) : Statement (.tfill x0 x1 x2 x3) := by
  intro r e
  obtain rfl := Option.some.inj e
  change withABC _ _ = _
  simp only [withABC, rawO, rawN, rawHdr_mk, opndOf_code]
theorem ldw (x0 : Hdr) (x1 : PFmt) (x2 : Fin 8) (x3 : Opnd) : Statement (.ldw x0 x1 x2 x3) := by
  intro r e
  obtain rfl := Option.some.inj e
  change withA _ _ = _
  simp only [withA, rawO, rawN, rawHdr_mk, opndOf_code, pfmtOf_code, f8_val, Option.map_some]
theorem wswap (x0 : Hdr) : Statement (.wswap x0) := by
  intro r e
  obtain rfl := Option.some.inj e
  change some _ = _
  simp only [rawO, rawN, rawHdr_mk, opndOf_code]
theorem mmq (x0 : Hdr) (x1 : QFmt) (x2 : Fin 8) (x3 : Fin 8) (x4 : Opnd) : Statement (.mmq x0 x1 x2 x3 x4) := by
  intro r e
  obtain rfl := Option.some.inj e
  change withB _ _ = _
  simp only [withB, rawO, rawN, rawHdr_mk, opndOf_code, qOf_code, f8_val, Option.map_some]
theorem msa (x0 : Hdr) (x1 : Fin 8) (x2 : Fin 8) (x3 : Opnd) (x4 : Opnd) : Statement (.msa x0 x1 x2 x3 x4) := by
  intro r e
  obtain rfl := Option.some.inj e
  change withBC _ _ = _
  simp only [withBC, rawO, rawN, rawHdr_mk, opndOf_code, f8_val]
theorem mmqa (x0 : Hdr) (x1 : QFmt) (x2 : Fin 8) (x3 : Fin 8) (x4 : Opnd) (x5 : Opnd) : Statement (.mmqa x0 x1 x2 x3 x4 x5) := by
  intro r e
  obtain rfl := Option.some.inj e
  change withBC _ _ = _
  simp only [withBC, rawO, rawN, rawHdr_mk, opndOf_code, qOf_code, f8_val]
theorem mmqaCb (x0 : Hdr) (x1 : QFmt) (x2 : Fin 8) (x3 : Opnd) (x4 : Opnd) : Statement (.mmqaCb x0 x1 x2 x3 x4) := by
  intro r e
  obtain rfl := Option.some.inj e
  change withBC _ _ = _
  simp only [withBC, rawO, rawN, rawHdr_mk, opndOf_code, qOf_code, f8_val]
theorem mmf (x0 : Hdr) (x1 : PFmt) (x2 : Fin 8) (x3 : Fin 8) (x4 : Opnd) : Statement (.mmf x0 x1 x2 x3 x4) := by
  intro r e
  obtain rfl := Option.some.inj e
  change withB _ _ = _
  simp only [withB, rawO, rawN, rawHdr_mk, opndOf_code, pfmtOf_code, f8_val, Option.map_some]
theorem tld (x0 : Hdr) (x1 : TFmt) (x2 : Fin 8) (x3 : Opnd) (x4 : Opnd) : Statement (.tld x0 x1 x2 x3 x4) := by
  intro r e
  obtain rfl := Option.some.inj e
  change withAB _ _ = _
  simp only [withAB, rawO, rawN, rawHdr_mk, opndOf_code, tfmtOf_code, f8_val]
theorem tst (x0 : Hdr) (x1 : TFmt) (x2 : Bool) (x3 : Opnd) (x4 : Opnd) (x5 : Fin 8) : Statement (.tst x0 x1 x2 x3 x4 x5) := by
  intro r e
  obtain rfl := Option.some.inj e
  change withAB _ _ = _
  simp only [withAB, rawO, rawN, rawHdr_mk, opndOf_code, tfmtOf_code, bit_one, f8_val]
  cases x1 <;> cases x2 <;> rfl
theorem tzero (x0 : Hdr) (x1 : Fin 8) (x2 : Opnd) : Statement (.tzero x0 x1 x2) := by
  intro r e
  obtain rfl := Option.some.inj e
  change withB _ _ = _
  simp only [withB, rawO, rawN, rawHdr_mk, opndOf_code, f8_val, Option.map_some]
theorem tmvT2v (x0 : Hdr) (x1 : Opnd) (x2 : Fin 8) (x3 : Opnd) : Statement (.tmvT2v x0 x1 x2 x3) := by
  intro r e
  obtain rfl := Option.some.inj e
  change withDB _ _ = _
  simp only [withDB, rawO, rawN, rawHdr_mk, opndOf_code, f8_val]
theorem tmvV2t (x0 : Hdr) (x1 : Fin 8) (x2 : Opnd) (x3 : Opnd) : Statement (.tmvV2t x0 x1 x2 x3) := by
  intro r e
  obtain rfl := Option.some.inj e
  change withAB _ _ = _
  simp only [withAB, rawO, rawN, rawHdr_mk, opndOf_code, f8_val]
theorem tstat (x0 : Hdr) (x1 : Opnd) (x2 : Fin 8) : Statement (.tstat x0 x1 x2) := by
  intro r e
  obtain rfl := Option.some.inj e
  change withD _ _ = _
  simp only [withD, rawO, rawN, rawHdr_mk, opndOf_code, f8_val, Option.map_some]
theorem tacc (x0 : Hdr) (x1 : Fin 8) (x2 : Fin 8) : Statement (.tacc x0 x1 x2) := by
  intro r e
  obtain rfl := Option.some.inj e
  change some _ = _
  simp only [rawO, rawN, rawHdr_mk, opndOf_code, f8_val]
theorem atts (x0 : Hdr) (x1 : Opnd) (x2 : Opnd) (x3 : Opnd) : Statement (.atts x0 x1 x2 x3) := by
  intro r e
  obtain rfl := Option.some.inj e
  change withABC _ _ = _
  simp only [withABC, rawO, rawN, rawHdr_mk, opndOf_code]
theorem attv (x0 : Hdr) (x1 : Opnd) (x2 : Opnd) (x3 : Opnd) : Statement (.attv x0 x1 x2 x3) := by
  intro r e
  obtain rfl := Option.some.inj e
  change withABC _ _ = _
  simp only [withABC, rawO, rawN, rawHdr_mk, opndOf_code]
theorem attm (x0 : Hdr) (x1 : Opnd) (x2 : Opnd) (x3 : Opnd) : Statement (.attm x0 x1 x2 x3) := by
  intro r e
  obtain rfl := Option.some.inj e
  change withABC _ _ = _
  simp only [withABC, rawO, rawN, rawHdr_mk, opndOf_code]
theorem evict (x0 : Hdr) (x1 : Opnd) : Statement (.evict x0 x1) := by
  intro r e
  obtain rfl := Option.some.inj e
  change withA _ _ = _
  simp only [withA, rawO, rawN, rawHdr_mk, opndOf_code, Option.map_some]
theorem platr (x0 : Hdr) (x1 : Opnd) (x2 : Opnd) (x3 : Opnd) : Statement (.platr x0 x1 x2 x3) := by
  intro r e
  obtain rfl := Option.some.inj e
  change withDAB _ _ = _
  simp only [withDAB, rawO, rawN, rawHdr_mk, opndOf_code]
theorem rgath (x0 : Hdr) (x1 : Opnd) (x2 : Opnd) : Statement (.rgath x0 x1 x2) := by
  intro r e
  obtain rfl := Option.some.inj e
  change withDA _ _ = _
  simp only [withDA, rawO, rawN, rawHdr_mk, opndOf_code]
theorem redrx (x0 : Hdr) (x1 : Opnd) (x2 : Opnd) : Statement (.redrx x0 x1 x2) := by
  intro r e
  obtain rfl := Option.some.inj e
  change withDA _ _ = _
  simp only [withDA, rawO, rawN, rawHdr_mk, opndOf_code]
theorem nmcall (x0 : Hdr) (x1 : Opnd) (x2 : Opnd) (x3 : Opnd) : Statement (.nmcall x0 x1 x2 x3) := by
  intro r e
  obtain rfl := Option.some.inj e
  change withABC _ _ = _
  simp only [withABC, rawO, rawN, rawHdr_mk, opndOf_code]
theorem nmcallA (x0 : Hdr) (x1 : Opnd) (x2 : Opnd) (x3 : Opnd) : Statement (.nmcallA x0 x1 x2 x3) := by
  intro r e
  obtain rfl := Option.some.inj e
  change withABC _ _ = _
  simp only [withABC, rawO, rawN, rawHdr_mk, opndOf_code]
theorem nmret (x0 : Hdr) (x1 : Opnd) (x2 : Opnd) : Statement (.nmret x0 x1 x2) := by
  intro r e
  obtain rfl := Option.some.inj e
  change withAB _ _ = _
  simp only [withAB, rawO, rawN, rawHdr_mk, opndOf_code]
theorem clsend (x0 : Hdr) (x1 : Opnd) (x2 : Opnd) : Statement (.clsend x0 x1 x2) := by
  intro r e
  obtain rfl := Option.some.inj e
  change withAC _ _ = _
  simp only [withAC, rawO, rawN, rawHdr_mk, opndOf_code]
theorem clred (x0 : Hdr) (x1 : Opnd) (x2 : Opnd) : Statement (.clred x0 x1 x2) := by
  intro r e
  obtain rfl := Option.some.inj e
  change withAC _ _ = _
  simp only [withAC, rawO, rawN, rawHdr_mk, opndOf_code]
theorem clarm (x0 : Hdr) (x1 : Bool) (x2 : Opnd) (x3 : Opnd) : Statement (.clarm x0 x1 x2 x3) := by
  intro r e
  obtain rfl := Option.some.inj e
  cases x1 <;>
  · change withAB _ _ = _
    simp only [withAB, rawO, rawN, rawHdr_mk, opndOf_code, bit_one]
theorem clarmOff (x0 : Hdr) (x1 : Opnd) : Statement (.clarmOff x0 x1) := by
  intro r e
  obtain rfl := Option.some.inj e
  change withB _ _ = _
  simp only [withB, rawO, rawN, rawHdr_mk, opndOf_code, Option.map_some]
theorem sbset (x0 : Hdr) (x1 : Fin 4) (x2 : Opnd) : Statement (.sbset x0 x1 x2) := by
  intro r e
  obtain rfl := Option.some.inj e
  change withA _ _ = _
  simp only [withA, rawO, rawN, rawHdr_mk, opndOf_code, f4_val, Option.map_some]
theorem sbsetClr (x0 : Hdr) (x1 : Fin 4) (x2 : Opnd) : Statement (.sbsetClr x0 x1 x2) := by
  intro r e
  obtain rfl := Option.some.inj e
  change withA _ _ = _
  simp only [withA, rawO, rawN, rawHdr_mk, opndOf_code, f4_val, Option.map_some]
theorem sbsetRd (x0 : Hdr) (x1 : Opnd) (x2 : Fin 4) : Statement (.sbsetRd x0 x1 x2) := by
  intro r e
  obtain rfl := Option.some.inj e
  change withD _ _ = _
  simp only [withD, rawO, rawN, rawHdr_mk, opndOf_code, f4_val, Option.map_some]
theorem coll (x0 : Hdr) (x1 : CollOp) (x2 : Bool) (x3 : Fin 8) (x4 : Opnd) (x5 : Opnd) : Statement (.coll x0 x1 x2 x3 x4 x5) := by
  intro r e
  obtain rfl := Option.some.inj e
  change withAC _ _ = _
  simp only [withAC, rawO, rawN, rawHdr_mk, opndOf_code, collOf_code, bit_one, f8_val]
  cases x1 <;> cases x2 <;> rfl
theorem close (x0 : Hdr) (x1 : Opnd) (x2 : Opnd) (x3 : Opnd) (x4 : Opnd) : Statement (.close x0 x1 x2 x3 x4) := by
  intro r e
  obtain rfl := Option.some.inj e
  change withDABC _ _ = _
  simp only [withDABC, rawO, rawN, rawHdr_mk, opndOf_code]
theorem bopen (x0 : Hdr) (x1 : Fin 4) (x2 : Opnd) : Statement (.bopen x0 x1 x2) := by
  intro r e
  obtain rfl := Option.some.inj e
  change withA _ _ = _
  simp only [withA, rawO, slot_back, rawN, rawHdr_mk, opndOf_code, f4_val, Option.map_some]
theorem stb (x0 : Hdr) (x1 : Fin 4) (x2 : MemCtl) (x3 : Opnd) (x4 : Opnd) (x5 : Opnd) : Statement (.stb x0 x1 x2 x3 x4 x5) := by
  intro r e
  obtain rfl := Option.some.inj e
  change withABC _ _ = _
  simp only [withABC, rawO, slot_back, rawN, rawHdr_mk, opndOf_code, f4_val, rMc, mcOf_code]
theorem bcommit (x0 : Hdr) (x1 : Fin 4) : Statement (.bcommit x0 x1) := by
  intro r e
  obtain rfl := Option.some.inj e
  change some _ = _
  simp only [rawO, slot_back, rawN, rawHdr_mk, opndOf_code, f4_val]
theorem babort (x0 : Hdr) (x1 : Fin 4) : Statement (.babort x0 x1) := by
  intro r e
  obtain rfl := Option.some.inj e
  change some _ = _
  simp only [rawO, slot_back, rawN, rawHdr_mk, opndOf_code, f4_val]
theorem vsnap (x0 : Hdr) (x1 : Opnd) : Statement (.vsnap x0 x1) := by
  intro r e
  obtain rfl := Option.some.inj e
  change withD _ _ = _
  simp only [withD, rawO, rawN, rawHdr_mk, opndOf_code, Option.map_some]
theorem ldv (x0 : Hdr) (x1 : MemCtl) (x2 : Bool) (x3 : Opnd) (x4 : Opnd) (x5 : Opnd) (x6 : Fin 8) : Statement (.ldv x0 x1 x2 x3 x4 x5 x6) := by
  intro r e
  obtain rfl := Option.some.inj e
  change withDAB _ _ = _
  simp only [withDAB, rawO, rawN, rawHdr_mk, opndOf_code, rMc, mcOf_code, bit_one, f8_val]
theorem bfetch (x0 : Hdr) (x1 : Opnd) (x2 : Opnd) (x3 : Opnd) : Statement (.bfetch x0 x1 x2 x3) := by
  intro r e
  obtain rfl := Option.some.inj e
  change withABC _ _ = _
  simp only [withABC, rawO, rawN, rawHdr_mk, opndOf_code]
theorem srd (x0 : Hdr) (x1 : Half) (x2 : Opnd) (x3 : BitVec 8) : Statement (.srd x0 x1 x2 x3) := by
  intro r e
  obtain rfl := Option.some.inj e
  change withD _ _ = _
  simp only [withD, rawO, rawN, rawHdr_mk, opndOf_code, halfOf_code, off_back, BitVec.ofNat_toNat, BitVec.setWidth_eq, Option.map_some]
theorem swr (x0 : Hdr) (x1 : Half) (x2 : BitVec 8) (x3 : Opnd) : Statement (.swr x0 x1 x2 x3) := by
  intro r e
  obtain rfl := Option.some.inj e
  change withA _ _ = _
  simp only [withA, rawO, rawN, rawHdr_mk, opndOf_code, halfOf_code, off_back, BitVec.ofNat_toNat, BitVec.setWidth_eq, Option.map_some]
theorem swrp (x0 : Hdr) (x1 : BitVec 8) (x2 : Opnd) : Statement (.swrp x0 x1 x2) := by
  intro r e
  obtain rfl := Option.some.inj e
  change withA _ _ = _
  simp only [withA, rawO, rawN, rawHdr_mk, opndOf_code, off_back, BitVec.ofNat_toNat, BitVec.setWidth_eq, Option.map_some]
theorem ovld (x0 : Hdr) (x1 : Opnd) : Statement (.ovld x0 x1) := by
  intro r e
  obtain rfl := Option.some.inj e
  change withA _ _ = _
  simp only [withA, rawO, rawN, rawHdr_mk, opndOf_code, Option.map_some]
theorem tret (x0 : Hdr) (x1 : Bool) : Statement (.tret x0 x1) := by
  intro r e
  obtain rfl := Option.some.inj e
  change some _ = _
  simp only [rawO, rawN, rawHdr_mk, opndOf_code, bit_one]
theorem halt (x0 : Hdr) : Statement (.halt x0) := by
  intro r e
  obtain rfl := Option.some.inj e
  change some _ = _
  simp only [rawO, rawN, rawHdr_mk, opndOf_code]
theorem pair (x0 : PBody) (x1 : PBody) : Statement (.pair x0 x1) := nofun
theorem entryWord (x0 : CRaw) : Statement (.entryWord x0) := nofun
theorem compactNop (x0 : BitVec 2) (x1 : CRaw) : Statement (.compactNop x0 x1) := nofun
theorem compactMov (x0 : CRaw) : Statement (.compactMov x0) := nofun
theorem compactIaddS32 (x0 : CRaw) : Statement (.compactIaddS32 x0) := nofun
theorem compactIsubS32 (x0 : CRaw) : Statement (.compactIsubS32 x0) := nofun
theorem compactImulS32 (x0 : CRaw) : Statement (.compactImulS32 x0) := nofun
theorem compactIminS32 (x0 : CRaw) : Statement (.compactIminS32 x0) := nofun
theorem compactImaxS32 (x0 : CRaw) : Statement (.compactImaxS32 x0) := nofun
theorem compactAnd (x0 : CRaw) : Statement (.compactAnd x0) := nofun
theorem compactOr (x0 : CRaw) : Statement (.compactOr x0) := nofun
theorem compactXor (x0 : CRaw) : Statement (.compactXor x0) := nofun
theorem compactShl (x0 : CRaw) : Statement (.compactShl x0) := nofun
theorem compactShr (x0 : CRaw) : Statement (.compactShr x0) := nofun
theorem compactSar (x0 : CRaw) : Statement (.compactSar x0) := nofun
theorem compactIaddS64 (x0 : CRaw) : Statement (.compactIaddS64 x0) := nofun
theorem compactPopc (x0 : CRaw) : Statement (.compactPopc x0) := nofun
theorem compactClz (x0 : CRaw) : Statement (.compactClz x0) := nofun
theorem compactFaddF32 (x0 : CRaw) : Statement (.compactFaddF32 x0) := nofun
theorem compactFsubF32 (x0 : CRaw) : Statement (.compactFsubF32 x0) := nofun
theorem compactFmulF32 (x0 : CRaw) : Statement (.compactFmulF32 x0) := nofun
theorem compactFminF32 (x0 : CRaw) : Statement (.compactFminF32 x0) := nofun
theorem compactFmaxF32 (x0 : CRaw) : Statement (.compactFmaxF32 x0) := nofun
theorem compactFaddBf16x2 (x0 : CRaw) : Statement (.compactFaddBf16x2 x0) := nofun
theorem compactFmulBf16x2 (x0 : CRaw) : Statement (.compactFmulBf16x2 x0) := nofun
theorem compactFrcp (x0 : CRaw) : Statement (.compactFrcp x0) := nofun
theorem compactFrsq (x0 : CRaw) : Statement (.compactFrsq x0) := nofun
theorem compactFexp2 (x0 : CRaw) : Statement (.compactFexp2 x0) := nofun
theorem compactCvtF32Bf16lo (x0 : CRaw) : Statement (.compactCvtF32Bf16lo x0) := nofun
theorem compactCvtBf16F32 (x0 : CRaw) : Statement (.compactCvtBf16F32 x0) := nofun
theorem compactItofS32 (x0 : CRaw) : Statement (.compactItofS32 x0) := nofun
theorem compactFtoiS32 (x0 : CRaw) : Statement (.compactFtoiS32 x0) := nofun
theorem compactIcmpEq (x0 : CRaw) : Statement (.compactIcmpEq x0) := nofun
theorem compactIcmpLtS32 (x0 : CRaw) : Statement (.compactIcmpLtS32 x0) := nofun
theorem compactFcmpLt (x0 : CRaw) : Statement (.compactFcmpLt x0) := nofun
theorem compactSel (x0 : CRaw) : Statement (.compactSel x0) := nofun
theorem compactLds32 (x0 : BitVec 2) (x1 : CRaw) : Statement (.compactLds32 x0 x1) := nofun
theorem compactSts32 (x0 : BitVec 2) (x1 : CRaw) : Statement (.compactSts32 x0 x1) := nofun
theorem compactLd32 (x0 : BitVec 2) (x1 : CRaw) : Statement (.compactLd32 x0 x1) := nofun
theorem compactSt32 (x0 : BitVec 2) (x1 : CRaw) : Statement (.compactSt32 x0 x1) := nofun
theorem compactTshflXor (x0 : CRaw) : Statement (.compactTshflXor x0) := nofun
theorem compactBar (x0 : CRaw) : Statement (.compactBar x0) := nofun
theorem compactWaitc (x0 : CRaw) : Statement (.compactWaitc x0) := nofun
theorem compactYield (x0 : CRaw) : Statement (.compactYield x0) := nofun
theorem compactBra (x0 : CRaw) : Statement (.compactBra x0) := nofun
theorem compactExit (x0 : CRaw) : Statement (.compactExit x0) := nofun
theorem compactRet (x0 : CRaw) : Statement (.compactRet x0) := nofun
theorem compactAbarWait (x0 : CRaw) : Statement (.compactAbarWait x0) := nofun
theorem compactCbacq (x0 : CRaw) : Statement (.compactCbacq x0) := nofun
theorem compactCbrel (x0 : CRaw) : Statement (.compactCbrel x0) := nofun
theorem moduleReset  : Statement (.moduleReset ) := nofun
theorem bringUpReady  : Statement (.bringUpReady ) := nofun
theorem contextEnable (x0 : Nat) (x1 : W32) : Statement (.contextEnable x0 x1) := nofun
theorem contextKill (x0 : Nat) : Statement (.contextKill x0) := nofun
theorem queueEnable (x0 : Nat) (x1 : W32) : Statement (.queueEnable x0 x1) := nofun
theorem qwptr (x0 : Nat) (x1 : W32) : Statement (.qwptr x0 x1) := nofun
theorem queueRestart (x0 : Nat) : Statement (.queueRestart x0) := nofun
theorem registerWrite (x0 : Nat) (x1 : W32) : Statement (.registerWrite x0 x1) := nofun
theorem keyLoad (x0 : Nat) : Statement (.keyLoad x0) := nofun
theorem keyClear (x0 : Nat) : Statement (.keyClear x0) := nofun
theorem attestation  : Statement (.attestation ) := nofun
theorem fwload (x0 : Nat) (x1 : W32) : Statement (.fwload x0 x1) := nofun
theorem svctl (x0 : Nat) (x1 : W32) : Statement (.svctl x0 x1) := nofun
theorem svival (x0 : Nat) (x1 : W32) : Statement (.svival x0 x1) := nofun
theorem mscways (x0 : Nat) (x1 : W32) : Statement (.mscways x0 x1) := nofun
theorem lkdevid (x0 : W32) : Statement (.lkdevid x0) := nofun
theorem lkmctl (x0 : W32) : Statement (.lkmctl x0) := nofun
theorem nopPacket (x0 : Nat) : Statement (.nopPacket x0) := nofun
theorem launch (x0 : Nat) : Statement (.launch x0) := nofun
theorem stage (x0 : Nat) : Statement (.stage x0) := nofun
theorem pin (x0 : Nat) : Statement (.pin x0) := nofun
theorem unpin (x0 : Nat) : Statement (.unpin x0) := nofun
theorem movehome (x0 : Nat) : Statement (.movehome x0) := nofun
theorem signal (x0 : Nat) : Statement (.signal x0) := nofun
theorem waitPacket (x0 : Nat) : Statement (.waitPacket x0) := nofun
theorem barrier (x0 : Nat) : Statement (.barrier x0) := nofun
theorem drain (x0 : Nat) : Statement (.drain x0) := nofun
theorem resume (x0 : Nat) : Statement (.resume x0) := nofun
theorem resumeAbandon (x0 : Nat) : Statement (.resumeAbandon x0) := nofun
theorem preempt (x0 : Nat) : Statement (.preempt x0) := nofun
theorem timestamp (x0 : Nat) : Statement (.timestamp x0) := nofun
theorem fencePacket (x0 : Nat) : Statement (.fencePacket x0) := nofun
theorem ovload (x0 : Nat) : Statement (.ovload x0) := nofun
theorem workingSetStaging (x0 : Nat) (x1 : Nat) : Statement (.workingSetStaging x0 x1) := nofun
theorem pageMove (x0 : Nat) (x1 : Nat) (x2 : Nat) (x3 : Nat) (x4 : Nat) : Statement (.pageMove x0 x1 x2 x3 x4) := nofun
theorem pageRequestAnswer (x0 : Nat) (x1 : Nat) : Statement (.pageRequestAnswer x0 x1) := nofun
theorem pageRequestTimeout (x0 : Nat) : Statement (.pageRequestTimeout x0) := nofun
theorem atsInvalidation (x0 : Nat) (x1 : Nat) (x2 : Nat) : Statement (.atsInvalidation x0 x1 x2) := nofun
theorem oppointStable (x0 : Nat) : Statement (.oppointStable x0) := nofun
theorem blockPlacement (x0 : Nat) (x1 : Nat) (x2 : List Nat) : Statement (.blockPlacement x0 x1 x2) := nofun
theorem placementAging (x0 : Nat) (x1 : Nat) : Statement (.placementAging x0 x1) := nofun
theorem completionRecordPost (x0 : Nat) : Statement (.completionRecordPost x0) := nofun
theorem schedulerAging (x0 : Nat) (x1 : Nat) (x2 : Nat) : Statement (.schedulerAging x0 x1 x2) := nofun
theorem claimGrant (x0 : Nat) : Statement (.claimGrant x0) := nofun
theorem deadlk (x0 : Nat) : Statement (.deadlk x0) := nofun
theorem pauseEnd (x0 : Nat) (x1 : Nat) (x2 : Nat) : Statement (.pauseEnd x0 x1 x2) := nofun
theorem yieldEnd (x0 : Nat) (x1 : Nat) (x2 : Nat) : Statement (.yieldEnd x0 x1 x2) := nofun
theorem probeEnd (x0 : Nat) (x1 : Nat) : Statement (.probeEnd x0 x1) := nofun
theorem capture (x0 : Nat) (x1 : Nat) : Statement (.capture x0 x1) := nofun
theorem restore (x0 : Nat) (x1 : Nat) (x2 : Nat) (x3 : List Nat) : Statement (.restore x0 x1 x2 x3) := nofun
theorem copyUnit (x0 : Nat) (x1 : Nat) : Statement (.copyUnit x0 x1) := nofun
theorem cbReservation (x0 : Nat) (x1 : Nat) : Statement (.cbReservation x0 x1) := nofun
theorem copyRetire (x0 : Nat) (x1 : Nat) : Statement (.copyRetire x0 x1) := nofun
theorem matrixExecute (x0 : Nat) : Statement (.matrixExecute x0) := nofun
theorem matrixRetire (x0 : Nat) : Statement (.matrixRetire x0) := nofun
theorem slotAcquire (x0 : Nat) : Statement (.slotAcquire x0) := nofun
theorem sequenceEntry (x0 : Nat) (x1 : Nat) : Statement (.sequenceEntry x0 x1) := nofun
theorem attentionGroup (x0 : Nat) (x1 : Nat) : Statement (.attentionGroup x0 x1) := nofun
theorem attentionExit (x0 : Nat) (x1 : Nat) : Statement (.attentionExit x0 x1) := nofun
theorem evictionStart (x0 : Nat) : Statement (.evictionStart x0) := nofun
theorem evictionRun (x0 : Nat) : Statement (.evictionRun x0) := nofun
theorem nmcallWriteBack (x0 : Nat) : Statement (.nmcallWriteBack x0) := nofun
theorem stationDispatch (x0 : Nat) : Statement (.stationDispatch x0) := nofun
theorem nmcallReturn (x0 : Nat) : Statement (.nmcallReturn x0) := nofun
theorem nmcallArrive (x0 : Nat) : Statement (.nmcallArrive x0) := nofun
theorem reductionPacket (x0 : Nat) : Statement (.reductionPacket x0) := nofun
theorem chunkReceive (x0 : Nat) : Statement (.chunkReceive x0) := nofun
theorem collectiveRetire (x0 : Nat) (x1 : Nat) : Statement (.collectiveRetire x0 x1) := nofun
theorem startMessage (x0 : Nat) : Statement (.startMessage x0) := nofun
theorem collComplete (x0 : Nat) (x1 : Nat) : Statement (.collComplete x0 x1) := nofun
theorem tagQuarantineEnd (x0 : Nat) (x1 : Nat) : Statement (.tagQuarantineEnd x0 x1) := nofun
theorem bundlePrepare (x0 : Nat) (x1 : Nat) : Statement (.bundlePrepare x0 x1) := nofun
theorem bundleChoose (x0 : Nat) : Statement (.bundleChoose x0) := nofun
theorem bundleCommitMessage (x0 : Nat) (x1 : Nat) : Statement (.bundleCommitMessage x0 x1) := nofun
theorem bundleAbortMessage (x0 : Nat) (x1 : Nat) : Statement (.bundleAbortMessage x0 x1) := nofun
theorem bundleInstall (x0 : Nat) : Statement (.bundleInstall x0) := nofun
theorem bundleRetire (x0 : Nat) : Statement (.bundleRetire x0) := nofun
theorem versionReclaim (x0 : Nat) : Statement (.versionReclaim x0) := nofun
theorem directoryMerge (x0 : Nat) (x1 : Nat) (x2 : Nat) (x3 : Nat) : Statement (.directoryMerge x0 x1 x2 x3) := nofun
theorem grantExpiry (x0 : Nat) : Statement (.grantExpiry x0) := nofun
theorem leaseSweep (x0 : Nat) (x1 : Nat) : Statement (.leaseSweep x0 x1) := nofun
theorem sliceSleep (x0 : Nat) (x1 : Nat) : Statement (.sliceSleep x0 x1) := nofun
theorem sliceWake (x0 : Nat) (x1 : Nat) : Statement (.sliceWake x0 x1) := nofun
theorem hotListPublish (x0 : Nat) : Statement (.hotListPublish x0) := nofun
theorem scrub (x0 : Nat) (x1 : ScrubFound) : Statement (.scrub x0 x1) := nofun
theorem podRequest (x0 : Nat) : Statement (.podRequest x0) := nofun
theorem reassemblyTimeout (x0 : Nat) : Statement (.reassemblyTimeout x0) := nofun
theorem portDown (x0 : Nat) : Statement (.portDown x0) := nofun
theorem meridianExchange (x0 : Bool) : Statement (.meridianExchange x0) := nofun
theorem lossOfLock  : Statement (.lossOfLock ) := nofun
theorem relock  : Statement (.relock ) := nofun
theorem errorDetected (x0 : ErrorReport) : Statement (.errorDetected x0) := nofun
theorem targetedTestEnd (x0 : Nat) (x1 : Bool) : Statement (.targetedTestEnd x0 x1) := nofun
theorem monitorLatch (x0 : Nat) : Statement (.monitorLatch x0) := nofun
theorem powerLoop (x0 : Nat) : Statement (.powerLoop x0) := nofun
theorem readyBitSet (x0 : Nat) (x1 : Nat) (x2 : RegKey) : Statement (.readyBitSet x0 x1 x2) := nofun
theorem homeAcknowledgement (x0 : Nat) (x1 : Nat) : Statement (.homeAcknowledgement x0 x1) := nofun
theorem gwctPassed (x0 : Nat) (x1 : Nat) (x2 : Nat) : Statement (.gwctPassed x0 x1 x2) := nofun
theorem dependencyMet (x0 : Nat) : Statement (.dependencyMet x0) := nofun
theorem atsTranslationCompletion (x0 : Nat) (x1 : Nat) : Statement (.atsTranslationCompletion x0 x1) := nofun
theorem pcieCompletionTimeout (x0 : Nat) (x1 : Nat) : Statement (.pcieCompletionTimeout x0 x1) := nofun
theorem portUp (x0 : Nat) (x1 : Nat) : Statement (.portUp x0 x1) := nofun
theorem dieTemperatureCap (x0 : Nat) (x1 : Nat) : Statement (.dieTemperatureCap x0 x1) := nofun
theorem bfetchComplete (x0 : Nat) (x1 : Nat) : Statement (.bfetchComplete x0 x1) := nofun

end Laws.ReadsBack

end Sys2Proof
end

