-- ==== Sys2Proof/Laws/State.lean ====
section
/-! SUPPORT. One lemma per field of the state and per update of it: what each update leaves as it was. -/

namespace Sys2Proof.Machine

/-! `State.modBlock`. -/

@[simp] theorem State.modBlock_agenda (s : State) (bid : Nat) (f : Block → Block) : (State.modBlock s bid f).agenda = s.agenda := rfl
@[simp] theorem State.modBlock_cur (s : State) (bid : Nat) (f : Block → Block) : (State.modBlock s bid f).cur = s.cur := rfl
@[simp] theorem State.modBlock_freeCtr (s : State) (bid : Nat) (f : Block → Block) : (State.modBlock s bid f).freeCtr = s.freeCtr := rfl
@[simp] theorem State.modBlock_nextId (s : State) (bid : Nat) (f : Block → Block) : (State.modBlock s bid f).nextId = s.nextId := rfl
@[simp] theorem State.modBlock_issueCtr (s : State) (bid : Nat) (f : Block → Block) : (State.modBlock s bid f).issueCtr = s.issueCtr := rfl
@[simp] theorem State.modBlock_time (s : State) (bid : Nat) (f : Block → Block) : (State.modBlock s bid f).time = s.time := rfl
@[simp] theorem State.modBlock_bar0 (s : State) (bid : Nat) (f : Block → Block) : (State.modBlock s bid f).bar0 = s.bar0 := rfl
@[simp] theorem State.modBlock_mem (s : State) (bid : Nat) (f : Block → Block) : (State.modBlock s bid f).mem = s.mem := rfl
@[simp] theorem State.modBlock_mpoison (s : State) (bid : Nat) (f : Block → Block) : (State.modBlock s bid f).mpoison = s.mpoison := rfl
@[simp] theorem State.modBlock_lineKey (s : State) (bid : Nat) (f : Block → Block) : (State.modBlock s bid f).lineKey = s.lineKey := rfl
@[simp] theorem State.modBlock_lines (s : State) (bid : Nat) (f : Block → Block) : (State.modBlock s bid f).lines = s.lines := rfl
@[simp] theorem State.modBlock_l1 (s : State) (bid : Nat) (f : Block → Block) : (State.modBlock s bid f).l1 = s.l1 := rfl
@[simp] theorem State.modBlock_dir (s : State) (bid : Nat) (f : Block → Block) : (State.modBlock s bid f).dir = s.dir := rfl
@[simp] theorem State.modBlock_grants (s : State) (bid : Nat) (f : Block → Block) : (State.modBlock s bid f).grants = s.grants := rfl
@[simp] theorem State.modBlock_asleep (s : State) (bid : Nat) (f : Block → Block) : (State.modBlock s bid f).asleep = s.asleep := rfl
@[simp] theorem State.modBlock_msc (s : State) (bid : Nat) (f : Block → Block) : (State.modBlock s bid f).msc = s.msc := rfl
@[simp] theorem State.modBlock_psel (s : State) (bid : Nat) (f : Block → Block) : (State.modBlock s bid f).psel = s.psel := rfl
@[simp] theorem State.modBlock_lruIns (s : State) (bid : Nat) (f : Block → Block) : (State.modBlock s bid f).lruIns = s.lruIns := rfl
@[simp] theorem State.modBlock_rowWays (s : State) (bid : Nat) (f : Block → Block) : (State.modBlock s bid f).rowWays = s.rowWays := rfl
@[simp] theorem State.modBlock_rowCache (s : State) (bid : Nat) (f : Block → Block) : (State.modBlock s bid f).rowCache = s.rowCache := rfl
@[simp] theorem State.modBlock_rowAcc (s : State) (bid : Nat) (f : Block → Block) : (State.modBlock s bid f).rowAcc = s.rowAcc := rfl
@[simp] theorem State.modBlock_sketch (s : State) (bid : Nat) (f : Block → Block) : (State.modBlock s bid f).sketch = s.sketch := rfl
@[simp] theorem State.modBlock_cands (s : State) (bid : Nat) (f : Block → Block) : (State.modBlock s bid f).cands = s.cands := rfl
@[simp] theorem State.modBlock_hlSince (s : State) (bid : Nat) (f : Block → Block) : (State.modBlock s bid f).hlSince = s.hlSince := rfl
@[simp] theorem State.modBlock_czUnits (s : State) (bid : Nat) (f : Block → Block) : (State.modBlock s bid f).czUnits = s.czUnits := rfl
@[simp] theorem State.modBlock_czSect (s : State) (bid : Nat) (f : Block → Block) : (State.modBlock s bid f).czSect = s.czSect := rfl
@[simp] theorem State.modBlock_tlb (s : State) (bid : Nat) (f : Block → Block) : (State.modBlock s bid f).tlb = s.tlb := rfl
@[simp] theorem State.modBlock_ovtab (s : State) (bid : Nat) (f : Block → Block) : (State.modBlock s bid f).ovtab = s.ovtab := rfl
@[simp] theorem State.modBlock_keys (s : State) (bid : Nat) (f : Block → Block) : (State.modBlock s bid f).keys = s.keys := rfl
@[simp] theorem State.modBlock_keyData (s : State) (bid : Nat) (f : Block → Block) : (State.modBlock s bid f).keyData = s.keyData := rfl
@[simp] theorem State.modBlock_wsHolds (s : State) (bid : Nat) (f : Block → Block) : (State.modBlock s bid f).wsHolds = s.wsHolds := rfl
@[simp] theorem State.modBlock_pinHolds (s : State) (bid : Nat) (f : Block → Block) : (State.modBlock s bid f).pinHolds = s.pinHolds := rfl
@[simp] theorem State.modBlock_packets (s : State) (bid : Nat) (f : Block → Block) : (State.modBlock s bid f).packets = s.packets := rfl
@[simp] theorem State.modBlock_qgwct (s : State) (bid : Nat) (f : Block → Block) : (State.modBlock s bid f).qgwct = s.qgwct := rfl
@[simp] theorem State.modBlock_posts (s : State) (bid : Nat) (f : Block → Block) : (State.modBlock s bid f).posts = s.posts := rfl
@[simp] theorem State.modBlock_preqs (s : State) (bid : Nat) (f : Block → Block) : (State.modBlock s bid f).preqs = s.preqs := rfl
@[simp] theorem State.modBlock_launches (s : State) (bid : Nat) (f : Block → Block) : (State.modBlock s bid f).launches = s.launches := rfl
@[simp] theorem State.modBlock_saved (s : State) (bid : Nat) (f : Block → Block) : (State.modBlock s bid f).saved = s.saved := rfl
@[simp] theorem State.modBlock_reserves (s : State) (bid : Nat) (f : Block → Block) : (State.modBlock s bid f).reserves = s.reserves := rfl
@[simp] theorem State.modBlock_claims (s : State) (bid : Nat) (f : Block → Block) : (State.modBlock s bid f).claims = s.claims := rfl
@[simp] theorem State.modBlock_die0 (s : State) (bid : Nat) (f : Block → Block) : (State.modBlock s bid f).die0 = s.die0 := rfl
@[simp] theorem State.modBlock_die1 (s : State) (bid : Nat) (f : Block → Block) : (State.modBlock s bid f).die1 = s.die1 := rfl
@[simp] theorem State.modBlock_calls (s : State) (bid : Nat) (f : Block → Block) : (State.modBlock s bid f).calls = s.calls := rfl
@[simp] theorem State.modBlock_redq (s : State) (bid : Nat) (f : Block → Block) : (State.modBlock s bid f).redq = s.redq := rfl
@[simp] theorem State.modBlock_evicts (s : State) (bid : Nat) (f : Block → Block) : (State.modBlock s bid f).evicts = s.evicts := rfl
@[simp] theorem State.modBlock_groups (s : State) (bid : Nat) (f : Block → Block) : (State.modBlock s bid f).groups = s.groups := rfl
@[simp] theorem State.modBlock_quars (s : State) (bid : Nat) (f : Block → Block) : (State.modBlock s bid f).quars = s.quars := rfl
@[simp] theorem State.modBlock_inNet (s : State) (bid : Nat) (f : Block → Block) : (State.modBlock s bid f).inNet = s.inNet := rfl
@[simp] theorem State.modBlock_landing (s : State) (bid : Nat) (f : Block → Block) : (State.modBlock s bid f).landing = s.landing := rfl
@[simp] theorem State.modBlock_out (s : State) (bid : Nat) (f : Block → Block) : (State.modBlock s bid f).out = s.out := rfl
@[simp] theorem State.modBlock_bundles (s : State) (bid : Nat) (f : Block → Block) : (State.modBlock s bid f).bundles = s.bundles := rfl
@[simp] theorem State.modBlock_pendLines (s : State) (bid : Nat) (f : Block → Block) : (State.modBlock s bid f).pendLines = s.pendLines := rfl
@[simp] theorem State.modBlock_versions (s : State) (bid : Nat) (f : Block → Block) : (State.modBlock s bid f).versions = s.versions := rfl
@[simp] theorem State.modBlock_manifests (s : State) (bid : Nat) (f : Block → Block) : (State.modBlock s bid f).manifests = s.manifests := rfl
@[simp] theorem State.modBlock_reasm (s : State) (bid : Nat) (f : Block → Block) : (State.modBlock s bid f).reasm = s.reasm := rfl
@[simp] theorem State.modBlock_lockSince (s : State) (bid : Nat) (f : Block → Block) : (State.modBlock s bid f).lockSince = s.lockSince := rfl
@[simp] theorem State.modBlock_retired (s : State) (bid : Nat) (f : Block → Block) : (State.modBlock s bid f).retired = s.retired := rfl
@[simp] theorem State.modBlock_staSpares (s : State) (bid : Nat) (f : Block → Block) : (State.modBlock s bid f).staSpares = s.staSpares := rfl
@[simp] theorem State.modBlock_tests (s : State) (bid : Nat) (f : Block → Block) : (State.modBlock s bid f).tests = s.tests := rfl
@[simp] theorem State.modBlock_mlog (s : State) (bid : Nat) (f : Block → Block) : (State.modBlock s bid f).mlog = s.mlog := rfl
@[simp] theorem State.modBlock_mons (s : State) (bid : Nat) (f : Block → Block) : (State.modBlock s bid f).mons = s.mons := rfl
@[simp] theorem State.modBlock_coolSince (s : State) (bid : Nat) (f : Block → Block) : (State.modBlock s bid f).coolSince = s.coolSince := rfl
@[simp] theorem State.modBlock_powerAt (s : State) (bid : Nat) (f : Block → Block) : (State.modBlock s bid f).powerAt = s.powerAt := rfl
@[simp] theorem State.modBlock_images (s : State) (bid : Nat) (f : Block → Block) : (State.modBlock s bid f).images = s.images := rfl
@[simp] theorem State.modBlock_report (s : State) (bid : Nat) (f : Block → Block) : (State.modBlock s bid f).report = s.report := rfl

/-! `State.modTeam`. -/

@[simp] theorem State.modTeam_agenda (s : State) (bid : Nat) (i : Nat) (f : Team → Team) : (State.modTeam s bid i f).agenda = s.agenda := rfl
@[simp] theorem State.modTeam_cur (s : State) (bid : Nat) (i : Nat) (f : Team → Team) : (State.modTeam s bid i f).cur = s.cur := rfl
@[simp] theorem State.modTeam_freeCtr (s : State) (bid : Nat) (i : Nat) (f : Team → Team) : (State.modTeam s bid i f).freeCtr = s.freeCtr := rfl
@[simp] theorem State.modTeam_nextId (s : State) (bid : Nat) (i : Nat) (f : Team → Team) : (State.modTeam s bid i f).nextId = s.nextId := rfl
@[simp] theorem State.modTeam_issueCtr (s : State) (bid : Nat) (i : Nat) (f : Team → Team) : (State.modTeam s bid i f).issueCtr = s.issueCtr := rfl
@[simp] theorem State.modTeam_time (s : State) (bid : Nat) (i : Nat) (f : Team → Team) : (State.modTeam s bid i f).time = s.time := rfl
@[simp] theorem State.modTeam_bar0 (s : State) (bid : Nat) (i : Nat) (f : Team → Team) : (State.modTeam s bid i f).bar0 = s.bar0 := rfl
@[simp] theorem State.modTeam_mem (s : State) (bid : Nat) (i : Nat) (f : Team → Team) : (State.modTeam s bid i f).mem = s.mem := rfl
@[simp] theorem State.modTeam_mpoison (s : State) (bid : Nat) (i : Nat) (f : Team → Team) : (State.modTeam s bid i f).mpoison = s.mpoison := rfl
@[simp] theorem State.modTeam_lineKey (s : State) (bid : Nat) (i : Nat) (f : Team → Team) : (State.modTeam s bid i f).lineKey = s.lineKey := rfl
@[simp] theorem State.modTeam_lines (s : State) (bid : Nat) (i : Nat) (f : Team → Team) : (State.modTeam s bid i f).lines = s.lines := rfl
@[simp] theorem State.modTeam_l1 (s : State) (bid : Nat) (i : Nat) (f : Team → Team) : (State.modTeam s bid i f).l1 = s.l1 := rfl
@[simp] theorem State.modTeam_dir (s : State) (bid : Nat) (i : Nat) (f : Team → Team) : (State.modTeam s bid i f).dir = s.dir := rfl
@[simp] theorem State.modTeam_grants (s : State) (bid : Nat) (i : Nat) (f : Team → Team) : (State.modTeam s bid i f).grants = s.grants := rfl
@[simp] theorem State.modTeam_asleep (s : State) (bid : Nat) (i : Nat) (f : Team → Team) : (State.modTeam s bid i f).asleep = s.asleep := rfl
@[simp] theorem State.modTeam_msc (s : State) (bid : Nat) (i : Nat) (f : Team → Team) : (State.modTeam s bid i f).msc = s.msc := rfl
@[simp] theorem State.modTeam_psel (s : State) (bid : Nat) (i : Nat) (f : Team → Team) : (State.modTeam s bid i f).psel = s.psel := rfl
@[simp] theorem State.modTeam_lruIns (s : State) (bid : Nat) (i : Nat) (f : Team → Team) : (State.modTeam s bid i f).lruIns = s.lruIns := rfl
@[simp] theorem State.modTeam_rowWays (s : State) (bid : Nat) (i : Nat) (f : Team → Team) : (State.modTeam s bid i f).rowWays = s.rowWays := rfl
@[simp] theorem State.modTeam_rowCache (s : State) (bid : Nat) (i : Nat) (f : Team → Team) : (State.modTeam s bid i f).rowCache = s.rowCache := rfl
@[simp] theorem State.modTeam_rowAcc (s : State) (bid : Nat) (i : Nat) (f : Team → Team) : (State.modTeam s bid i f).rowAcc = s.rowAcc := rfl
@[simp] theorem State.modTeam_sketch (s : State) (bid : Nat) (i : Nat) (f : Team → Team) : (State.modTeam s bid i f).sketch = s.sketch := rfl
@[simp] theorem State.modTeam_cands (s : State) (bid : Nat) (i : Nat) (f : Team → Team) : (State.modTeam s bid i f).cands = s.cands := rfl
@[simp] theorem State.modTeam_hlSince (s : State) (bid : Nat) (i : Nat) (f : Team → Team) : (State.modTeam s bid i f).hlSince = s.hlSince := rfl
@[simp] theorem State.modTeam_czUnits (s : State) (bid : Nat) (i : Nat) (f : Team → Team) : (State.modTeam s bid i f).czUnits = s.czUnits := rfl
@[simp] theorem State.modTeam_czSect (s : State) (bid : Nat) (i : Nat) (f : Team → Team) : (State.modTeam s bid i f).czSect = s.czSect := rfl
@[simp] theorem State.modTeam_tlb (s : State) (bid : Nat) (i : Nat) (f : Team → Team) : (State.modTeam s bid i f).tlb = s.tlb := rfl
@[simp] theorem State.modTeam_ovtab (s : State) (bid : Nat) (i : Nat) (f : Team → Team) : (State.modTeam s bid i f).ovtab = s.ovtab := rfl
@[simp] theorem State.modTeam_keys (s : State) (bid : Nat) (i : Nat) (f : Team → Team) : (State.modTeam s bid i f).keys = s.keys := rfl
@[simp] theorem State.modTeam_keyData (s : State) (bid : Nat) (i : Nat) (f : Team → Team) : (State.modTeam s bid i f).keyData = s.keyData := rfl
@[simp] theorem State.modTeam_wsHolds (s : State) (bid : Nat) (i : Nat) (f : Team → Team) : (State.modTeam s bid i f).wsHolds = s.wsHolds := rfl
@[simp] theorem State.modTeam_pinHolds (s : State) (bid : Nat) (i : Nat) (f : Team → Team) : (State.modTeam s bid i f).pinHolds = s.pinHolds := rfl
@[simp] theorem State.modTeam_packets (s : State) (bid : Nat) (i : Nat) (f : Team → Team) : (State.modTeam s bid i f).packets = s.packets := rfl
@[simp] theorem State.modTeam_qgwct (s : State) (bid : Nat) (i : Nat) (f : Team → Team) : (State.modTeam s bid i f).qgwct = s.qgwct := rfl
@[simp] theorem State.modTeam_posts (s : State) (bid : Nat) (i : Nat) (f : Team → Team) : (State.modTeam s bid i f).posts = s.posts := rfl
@[simp] theorem State.modTeam_preqs (s : State) (bid : Nat) (i : Nat) (f : Team → Team) : (State.modTeam s bid i f).preqs = s.preqs := rfl
@[simp] theorem State.modTeam_launches (s : State) (bid : Nat) (i : Nat) (f : Team → Team) : (State.modTeam s bid i f).launches = s.launches := rfl
@[simp] theorem State.modTeam_saved (s : State) (bid : Nat) (i : Nat) (f : Team → Team) : (State.modTeam s bid i f).saved = s.saved := rfl
@[simp] theorem State.modTeam_reserves (s : State) (bid : Nat) (i : Nat) (f : Team → Team) : (State.modTeam s bid i f).reserves = s.reserves := rfl
@[simp] theorem State.modTeam_claims (s : State) (bid : Nat) (i : Nat) (f : Team → Team) : (State.modTeam s bid i f).claims = s.claims := rfl
@[simp] theorem State.modTeam_die0 (s : State) (bid : Nat) (i : Nat) (f : Team → Team) : (State.modTeam s bid i f).die0 = s.die0 := rfl
@[simp] theorem State.modTeam_die1 (s : State) (bid : Nat) (i : Nat) (f : Team → Team) : (State.modTeam s bid i f).die1 = s.die1 := rfl
@[simp] theorem State.modTeam_calls (s : State) (bid : Nat) (i : Nat) (f : Team → Team) : (State.modTeam s bid i f).calls = s.calls := rfl
@[simp] theorem State.modTeam_redq (s : State) (bid : Nat) (i : Nat) (f : Team → Team) : (State.modTeam s bid i f).redq = s.redq := rfl
@[simp] theorem State.modTeam_evicts (s : State) (bid : Nat) (i : Nat) (f : Team → Team) : (State.modTeam s bid i f).evicts = s.evicts := rfl
@[simp] theorem State.modTeam_groups (s : State) (bid : Nat) (i : Nat) (f : Team → Team) : (State.modTeam s bid i f).groups = s.groups := rfl
@[simp] theorem State.modTeam_quars (s : State) (bid : Nat) (i : Nat) (f : Team → Team) : (State.modTeam s bid i f).quars = s.quars := rfl
@[simp] theorem State.modTeam_inNet (s : State) (bid : Nat) (i : Nat) (f : Team → Team) : (State.modTeam s bid i f).inNet = s.inNet := rfl
@[simp] theorem State.modTeam_landing (s : State) (bid : Nat) (i : Nat) (f : Team → Team) : (State.modTeam s bid i f).landing = s.landing := rfl
@[simp] theorem State.modTeam_out (s : State) (bid : Nat) (i : Nat) (f : Team → Team) : (State.modTeam s bid i f).out = s.out := rfl
@[simp] theorem State.modTeam_bundles (s : State) (bid : Nat) (i : Nat) (f : Team → Team) : (State.modTeam s bid i f).bundles = s.bundles := rfl
@[simp] theorem State.modTeam_pendLines (s : State) (bid : Nat) (i : Nat) (f : Team → Team) : (State.modTeam s bid i f).pendLines = s.pendLines := rfl
@[simp] theorem State.modTeam_versions (s : State) (bid : Nat) (i : Nat) (f : Team → Team) : (State.modTeam s bid i f).versions = s.versions := rfl
@[simp] theorem State.modTeam_manifests (s : State) (bid : Nat) (i : Nat) (f : Team → Team) : (State.modTeam s bid i f).manifests = s.manifests := rfl
@[simp] theorem State.modTeam_reasm (s : State) (bid : Nat) (i : Nat) (f : Team → Team) : (State.modTeam s bid i f).reasm = s.reasm := rfl
@[simp] theorem State.modTeam_lockSince (s : State) (bid : Nat) (i : Nat) (f : Team → Team) : (State.modTeam s bid i f).lockSince = s.lockSince := rfl
@[simp] theorem State.modTeam_retired (s : State) (bid : Nat) (i : Nat) (f : Team → Team) : (State.modTeam s bid i f).retired = s.retired := rfl
@[simp] theorem State.modTeam_staSpares (s : State) (bid : Nat) (i : Nat) (f : Team → Team) : (State.modTeam s bid i f).staSpares = s.staSpares := rfl
@[simp] theorem State.modTeam_tests (s : State) (bid : Nat) (i : Nat) (f : Team → Team) : (State.modTeam s bid i f).tests = s.tests := rfl
@[simp] theorem State.modTeam_mlog (s : State) (bid : Nat) (i : Nat) (f : Team → Team) : (State.modTeam s bid i f).mlog = s.mlog := rfl
@[simp] theorem State.modTeam_mons (s : State) (bid : Nat) (i : Nat) (f : Team → Team) : (State.modTeam s bid i f).mons = s.mons := rfl
@[simp] theorem State.modTeam_coolSince (s : State) (bid : Nat) (i : Nat) (f : Team → Team) : (State.modTeam s bid i f).coolSince = s.coolSince := rfl
@[simp] theorem State.modTeam_powerAt (s : State) (bid : Nat) (i : Nat) (f : Team → Team) : (State.modTeam s bid i f).powerAt = s.powerAt := rfl
@[simp] theorem State.modTeam_images (s : State) (bid : Nat) (i : Nat) (f : Team → Team) : (State.modTeam s bid i f).images = s.images := rfl
@[simp] theorem State.modTeam_report (s : State) (bid : Nat) (i : Nat) (f : Team → Team) : (State.modTeam s bid i f).report = s.report := rfl

/-! `State.modLaunch`. -/

@[simp] theorem State.modLaunch_agenda (s : State) (q : Nat) (n : Nat) (f : Launch → Launch) : (State.modLaunch s q n f).agenda = s.agenda := rfl
@[simp] theorem State.modLaunch_cur (s : State) (q : Nat) (n : Nat) (f : Launch → Launch) : (State.modLaunch s q n f).cur = s.cur := rfl
@[simp] theorem State.modLaunch_freeCtr (s : State) (q : Nat) (n : Nat) (f : Launch → Launch) : (State.modLaunch s q n f).freeCtr = s.freeCtr := rfl
@[simp] theorem State.modLaunch_nextId (s : State) (q : Nat) (n : Nat) (f : Launch → Launch) : (State.modLaunch s q n f).nextId = s.nextId := rfl
@[simp] theorem State.modLaunch_issueCtr (s : State) (q : Nat) (n : Nat) (f : Launch → Launch) : (State.modLaunch s q n f).issueCtr = s.issueCtr := rfl
@[simp] theorem State.modLaunch_time (s : State) (q : Nat) (n : Nat) (f : Launch → Launch) : (State.modLaunch s q n f).time = s.time := rfl
@[simp] theorem State.modLaunch_bar0 (s : State) (q : Nat) (n : Nat) (f : Launch → Launch) : (State.modLaunch s q n f).bar0 = s.bar0 := rfl
@[simp] theorem State.modLaunch_mem (s : State) (q : Nat) (n : Nat) (f : Launch → Launch) : (State.modLaunch s q n f).mem = s.mem := rfl
@[simp] theorem State.modLaunch_mpoison (s : State) (q : Nat) (n : Nat) (f : Launch → Launch) : (State.modLaunch s q n f).mpoison = s.mpoison := rfl
@[simp] theorem State.modLaunch_lineKey (s : State) (q : Nat) (n : Nat) (f : Launch → Launch) : (State.modLaunch s q n f).lineKey = s.lineKey := rfl
@[simp] theorem State.modLaunch_lines (s : State) (q : Nat) (n : Nat) (f : Launch → Launch) : (State.modLaunch s q n f).lines = s.lines := rfl
@[simp] theorem State.modLaunch_l1 (s : State) (q : Nat) (n : Nat) (f : Launch → Launch) : (State.modLaunch s q n f).l1 = s.l1 := rfl
@[simp] theorem State.modLaunch_dir (s : State) (q : Nat) (n : Nat) (f : Launch → Launch) : (State.modLaunch s q n f).dir = s.dir := rfl
@[simp] theorem State.modLaunch_grants (s : State) (q : Nat) (n : Nat) (f : Launch → Launch) : (State.modLaunch s q n f).grants = s.grants := rfl
@[simp] theorem State.modLaunch_asleep (s : State) (q : Nat) (n : Nat) (f : Launch → Launch) : (State.modLaunch s q n f).asleep = s.asleep := rfl
@[simp] theorem State.modLaunch_msc (s : State) (q : Nat) (n : Nat) (f : Launch → Launch) : (State.modLaunch s q n f).msc = s.msc := rfl
@[simp] theorem State.modLaunch_psel (s : State) (q : Nat) (n : Nat) (f : Launch → Launch) : (State.modLaunch s q n f).psel = s.psel := rfl
@[simp] theorem State.modLaunch_lruIns (s : State) (q : Nat) (n : Nat) (f : Launch → Launch) : (State.modLaunch s q n f).lruIns = s.lruIns := rfl
@[simp] theorem State.modLaunch_rowWays (s : State) (q : Nat) (n : Nat) (f : Launch → Launch) : (State.modLaunch s q n f).rowWays = s.rowWays := rfl
@[simp] theorem State.modLaunch_rowCache (s : State) (q : Nat) (n : Nat) (f : Launch → Launch) : (State.modLaunch s q n f).rowCache = s.rowCache := rfl
@[simp] theorem State.modLaunch_rowAcc (s : State) (q : Nat) (n : Nat) (f : Launch → Launch) : (State.modLaunch s q n f).rowAcc = s.rowAcc := rfl
@[simp] theorem State.modLaunch_sketch (s : State) (q : Nat) (n : Nat) (f : Launch → Launch) : (State.modLaunch s q n f).sketch = s.sketch := rfl
@[simp] theorem State.modLaunch_cands (s : State) (q : Nat) (n : Nat) (f : Launch → Launch) : (State.modLaunch s q n f).cands = s.cands := rfl
@[simp] theorem State.modLaunch_hlSince (s : State) (q : Nat) (n : Nat) (f : Launch → Launch) : (State.modLaunch s q n f).hlSince = s.hlSince := rfl
@[simp] theorem State.modLaunch_czUnits (s : State) (q : Nat) (n : Nat) (f : Launch → Launch) : (State.modLaunch s q n f).czUnits = s.czUnits := rfl
@[simp] theorem State.modLaunch_czSect (s : State) (q : Nat) (n : Nat) (f : Launch → Launch) : (State.modLaunch s q n f).czSect = s.czSect := rfl
@[simp] theorem State.modLaunch_tlb (s : State) (q : Nat) (n : Nat) (f : Launch → Launch) : (State.modLaunch s q n f).tlb = s.tlb := rfl
@[simp] theorem State.modLaunch_ovtab (s : State) (q : Nat) (n : Nat) (f : Launch → Launch) : (State.modLaunch s q n f).ovtab = s.ovtab := rfl
@[simp] theorem State.modLaunch_keys (s : State) (q : Nat) (n : Nat) (f : Launch → Launch) : (State.modLaunch s q n f).keys = s.keys := rfl
@[simp] theorem State.modLaunch_keyData (s : State) (q : Nat) (n : Nat) (f : Launch → Launch) : (State.modLaunch s q n f).keyData = s.keyData := rfl
@[simp] theorem State.modLaunch_wsHolds (s : State) (q : Nat) (n : Nat) (f : Launch → Launch) : (State.modLaunch s q n f).wsHolds = s.wsHolds := rfl
@[simp] theorem State.modLaunch_pinHolds (s : State) (q : Nat) (n : Nat) (f : Launch → Launch) : (State.modLaunch s q n f).pinHolds = s.pinHolds := rfl
@[simp] theorem State.modLaunch_packets (s : State) (q : Nat) (n : Nat) (f : Launch → Launch) : (State.modLaunch s q n f).packets = s.packets := rfl
@[simp] theorem State.modLaunch_qgwct (s : State) (q : Nat) (n : Nat) (f : Launch → Launch) : (State.modLaunch s q n f).qgwct = s.qgwct := rfl
@[simp] theorem State.modLaunch_posts (s : State) (q : Nat) (n : Nat) (f : Launch → Launch) : (State.modLaunch s q n f).posts = s.posts := rfl
@[simp] theorem State.modLaunch_preqs (s : State) (q : Nat) (n : Nat) (f : Launch → Launch) : (State.modLaunch s q n f).preqs = s.preqs := rfl
@[simp] theorem State.modLaunch_blocks (s : State) (q : Nat) (n : Nat) (f : Launch → Launch) : (State.modLaunch s q n f).blocks = s.blocks := rfl
@[simp] theorem State.modLaunch_saved (s : State) (q : Nat) (n : Nat) (f : Launch → Launch) : (State.modLaunch s q n f).saved = s.saved := rfl
@[simp] theorem State.modLaunch_reserves (s : State) (q : Nat) (n : Nat) (f : Launch → Launch) : (State.modLaunch s q n f).reserves = s.reserves := rfl
@[simp] theorem State.modLaunch_claims (s : State) (q : Nat) (n : Nat) (f : Launch → Launch) : (State.modLaunch s q n f).claims = s.claims := rfl
@[simp] theorem State.modLaunch_die0 (s : State) (q : Nat) (n : Nat) (f : Launch → Launch) : (State.modLaunch s q n f).die0 = s.die0 := rfl
@[simp] theorem State.modLaunch_die1 (s : State) (q : Nat) (n : Nat) (f : Launch → Launch) : (State.modLaunch s q n f).die1 = s.die1 := rfl
@[simp] theorem State.modLaunch_calls (s : State) (q : Nat) (n : Nat) (f : Launch → Launch) : (State.modLaunch s q n f).calls = s.calls := rfl
@[simp] theorem State.modLaunch_redq (s : State) (q : Nat) (n : Nat) (f : Launch → Launch) : (State.modLaunch s q n f).redq = s.redq := rfl
@[simp] theorem State.modLaunch_evicts (s : State) (q : Nat) (n : Nat) (f : Launch → Launch) : (State.modLaunch s q n f).evicts = s.evicts := rfl
@[simp] theorem State.modLaunch_groups (s : State) (q : Nat) (n : Nat) (f : Launch → Launch) : (State.modLaunch s q n f).groups = s.groups := rfl
@[simp] theorem State.modLaunch_quars (s : State) (q : Nat) (n : Nat) (f : Launch → Launch) : (State.modLaunch s q n f).quars = s.quars := rfl
@[simp] theorem State.modLaunch_inNet (s : State) (q : Nat) (n : Nat) (f : Launch → Launch) : (State.modLaunch s q n f).inNet = s.inNet := rfl
@[simp] theorem State.modLaunch_landing (s : State) (q : Nat) (n : Nat) (f : Launch → Launch) : (State.modLaunch s q n f).landing = s.landing := rfl
@[simp] theorem State.modLaunch_out (s : State) (q : Nat) (n : Nat) (f : Launch → Launch) : (State.modLaunch s q n f).out = s.out := rfl
@[simp] theorem State.modLaunch_bundles (s : State) (q : Nat) (n : Nat) (f : Launch → Launch) : (State.modLaunch s q n f).bundles = s.bundles := rfl
@[simp] theorem State.modLaunch_pendLines (s : State) (q : Nat) (n : Nat) (f : Launch → Launch) : (State.modLaunch s q n f).pendLines = s.pendLines := rfl
@[simp] theorem State.modLaunch_versions (s : State) (q : Nat) (n : Nat) (f : Launch → Launch) : (State.modLaunch s q n f).versions = s.versions := rfl
@[simp] theorem State.modLaunch_manifests (s : State) (q : Nat) (n : Nat) (f : Launch → Launch) : (State.modLaunch s q n f).manifests = s.manifests := rfl
@[simp] theorem State.modLaunch_reasm (s : State) (q : Nat) (n : Nat) (f : Launch → Launch) : (State.modLaunch s q n f).reasm = s.reasm := rfl
@[simp] theorem State.modLaunch_lockSince (s : State) (q : Nat) (n : Nat) (f : Launch → Launch) : (State.modLaunch s q n f).lockSince = s.lockSince := rfl
@[simp] theorem State.modLaunch_retired (s : State) (q : Nat) (n : Nat) (f : Launch → Launch) : (State.modLaunch s q n f).retired = s.retired := rfl
@[simp] theorem State.modLaunch_staSpares (s : State) (q : Nat) (n : Nat) (f : Launch → Launch) : (State.modLaunch s q n f).staSpares = s.staSpares := rfl
@[simp] theorem State.modLaunch_tests (s : State) (q : Nat) (n : Nat) (f : Launch → Launch) : (State.modLaunch s q n f).tests = s.tests := rfl
@[simp] theorem State.modLaunch_mlog (s : State) (q : Nat) (n : Nat) (f : Launch → Launch) : (State.modLaunch s q n f).mlog = s.mlog := rfl
@[simp] theorem State.modLaunch_mons (s : State) (q : Nat) (n : Nat) (f : Launch → Launch) : (State.modLaunch s q n f).mons = s.mons := rfl
@[simp] theorem State.modLaunch_coolSince (s : State) (q : Nat) (n : Nat) (f : Launch → Launch) : (State.modLaunch s q n f).coolSince = s.coolSince := rfl
@[simp] theorem State.modLaunch_powerAt (s : State) (q : Nat) (n : Nat) (f : Launch → Launch) : (State.modLaunch s q n f).powerAt = s.powerAt := rfl
@[simp] theorem State.modLaunch_images (s : State) (q : Nat) (n : Nat) (f : Launch → Launch) : (State.modLaunch s q n f).images = s.images := rfl
@[simp] theorem State.modLaunch_report (s : State) (q : Nat) (n : Nat) (f : Launch → Launch) : (State.modLaunch s q n f).report = s.report := rfl

/-! `setBar`. -/

@[simp] theorem setBar_agenda (s : State) (off : Nat) (v : W32) : (setBar s off v).agenda = s.agenda := rfl
@[simp] theorem setBar_cur (s : State) (off : Nat) (v : W32) : (setBar s off v).cur = s.cur := rfl
@[simp] theorem setBar_freeCtr (s : State) (off : Nat) (v : W32) : (setBar s off v).freeCtr = s.freeCtr := rfl
@[simp] theorem setBar_nextId (s : State) (off : Nat) (v : W32) : (setBar s off v).nextId = s.nextId := rfl
@[simp] theorem setBar_issueCtr (s : State) (off : Nat) (v : W32) : (setBar s off v).issueCtr = s.issueCtr := rfl
@[simp] theorem setBar_time (s : State) (off : Nat) (v : W32) : (setBar s off v).time = s.time := rfl
@[simp] theorem setBar_mem (s : State) (off : Nat) (v : W32) : (setBar s off v).mem = s.mem := rfl
@[simp] theorem setBar_mpoison (s : State) (off : Nat) (v : W32) : (setBar s off v).mpoison = s.mpoison := rfl
@[simp] theorem setBar_lineKey (s : State) (off : Nat) (v : W32) : (setBar s off v).lineKey = s.lineKey := rfl
@[simp] theorem setBar_lines (s : State) (off : Nat) (v : W32) : (setBar s off v).lines = s.lines := rfl
@[simp] theorem setBar_l1 (s : State) (off : Nat) (v : W32) : (setBar s off v).l1 = s.l1 := rfl
@[simp] theorem setBar_dir (s : State) (off : Nat) (v : W32) : (setBar s off v).dir = s.dir := rfl
@[simp] theorem setBar_grants (s : State) (off : Nat) (v : W32) : (setBar s off v).grants = s.grants := rfl
@[simp] theorem setBar_asleep (s : State) (off : Nat) (v : W32) : (setBar s off v).asleep = s.asleep := rfl
@[simp] theorem setBar_msc (s : State) (off : Nat) (v : W32) : (setBar s off v).msc = s.msc := rfl
@[simp] theorem setBar_psel (s : State) (off : Nat) (v : W32) : (setBar s off v).psel = s.psel := rfl
@[simp] theorem setBar_lruIns (s : State) (off : Nat) (v : W32) : (setBar s off v).lruIns = s.lruIns := rfl
@[simp] theorem setBar_rowWays (s : State) (off : Nat) (v : W32) : (setBar s off v).rowWays = s.rowWays := rfl
@[simp] theorem setBar_rowCache (s : State) (off : Nat) (v : W32) : (setBar s off v).rowCache = s.rowCache := rfl
@[simp] theorem setBar_rowAcc (s : State) (off : Nat) (v : W32) : (setBar s off v).rowAcc = s.rowAcc := rfl
@[simp] theorem setBar_sketch (s : State) (off : Nat) (v : W32) : (setBar s off v).sketch = s.sketch := rfl
@[simp] theorem setBar_cands (s : State) (off : Nat) (v : W32) : (setBar s off v).cands = s.cands := rfl
@[simp] theorem setBar_hlSince (s : State) (off : Nat) (v : W32) : (setBar s off v).hlSince = s.hlSince := rfl
@[simp] theorem setBar_czUnits (s : State) (off : Nat) (v : W32) : (setBar s off v).czUnits = s.czUnits := rfl
@[simp] theorem setBar_czSect (s : State) (off : Nat) (v : W32) : (setBar s off v).czSect = s.czSect := rfl
@[simp] theorem setBar_tlb (s : State) (off : Nat) (v : W32) : (setBar s off v).tlb = s.tlb := rfl
@[simp] theorem setBar_ovtab (s : State) (off : Nat) (v : W32) : (setBar s off v).ovtab = s.ovtab := rfl
@[simp] theorem setBar_keys (s : State) (off : Nat) (v : W32) : (setBar s off v).keys = s.keys := rfl
@[simp] theorem setBar_keyData (s : State) (off : Nat) (v : W32) : (setBar s off v).keyData = s.keyData := rfl
@[simp] theorem setBar_wsHolds (s : State) (off : Nat) (v : W32) : (setBar s off v).wsHolds = s.wsHolds := rfl
@[simp] theorem setBar_pinHolds (s : State) (off : Nat) (v : W32) : (setBar s off v).pinHolds = s.pinHolds := rfl
@[simp] theorem setBar_packets (s : State) (off : Nat) (v : W32) : (setBar s off v).packets = s.packets := rfl
@[simp] theorem setBar_qgwct (s : State) (off : Nat) (v : W32) : (setBar s off v).qgwct = s.qgwct := rfl
@[simp] theorem setBar_posts (s : State) (off : Nat) (v : W32) : (setBar s off v).posts = s.posts := rfl
@[simp] theorem setBar_preqs (s : State) (off : Nat) (v : W32) : (setBar s off v).preqs = s.preqs := rfl
@[simp] theorem setBar_launches (s : State) (off : Nat) (v : W32) : (setBar s off v).launches = s.launches := rfl
@[simp] theorem setBar_blocks (s : State) (off : Nat) (v : W32) : (setBar s off v).blocks = s.blocks := rfl
@[simp] theorem setBar_saved (s : State) (off : Nat) (v : W32) : (setBar s off v).saved = s.saved := rfl
@[simp] theorem setBar_reserves (s : State) (off : Nat) (v : W32) : (setBar s off v).reserves = s.reserves := rfl
@[simp] theorem setBar_claims (s : State) (off : Nat) (v : W32) : (setBar s off v).claims = s.claims := rfl
@[simp] theorem setBar_die0 (s : State) (off : Nat) (v : W32) : (setBar s off v).die0 = s.die0 := rfl
@[simp] theorem setBar_die1 (s : State) (off : Nat) (v : W32) : (setBar s off v).die1 = s.die1 := rfl
@[simp] theorem setBar_calls (s : State) (off : Nat) (v : W32) : (setBar s off v).calls = s.calls := rfl
@[simp] theorem setBar_redq (s : State) (off : Nat) (v : W32) : (setBar s off v).redq = s.redq := rfl
@[simp] theorem setBar_evicts (s : State) (off : Nat) (v : W32) : (setBar s off v).evicts = s.evicts := rfl
@[simp] theorem setBar_groups (s : State) (off : Nat) (v : W32) : (setBar s off v).groups = s.groups := rfl
@[simp] theorem setBar_quars (s : State) (off : Nat) (v : W32) : (setBar s off v).quars = s.quars := rfl
@[simp] theorem setBar_inNet (s : State) (off : Nat) (v : W32) : (setBar s off v).inNet = s.inNet := rfl
@[simp] theorem setBar_landing (s : State) (off : Nat) (v : W32) : (setBar s off v).landing = s.landing := rfl
@[simp] theorem setBar_out (s : State) (off : Nat) (v : W32) : (setBar s off v).out = s.out := rfl
@[simp] theorem setBar_bundles (s : State) (off : Nat) (v : W32) : (setBar s off v).bundles = s.bundles := rfl
@[simp] theorem setBar_pendLines (s : State) (off : Nat) (v : W32) : (setBar s off v).pendLines = s.pendLines := rfl
@[simp] theorem setBar_versions (s : State) (off : Nat) (v : W32) : (setBar s off v).versions = s.versions := rfl
@[simp] theorem setBar_manifests (s : State) (off : Nat) (v : W32) : (setBar s off v).manifests = s.manifests := rfl
@[simp] theorem setBar_reasm (s : State) (off : Nat) (v : W32) : (setBar s off v).reasm = s.reasm := rfl
@[simp] theorem setBar_lockSince (s : State) (off : Nat) (v : W32) : (setBar s off v).lockSince = s.lockSince := rfl
@[simp] theorem setBar_retired (s : State) (off : Nat) (v : W32) : (setBar s off v).retired = s.retired := rfl
@[simp] theorem setBar_staSpares (s : State) (off : Nat) (v : W32) : (setBar s off v).staSpares = s.staSpares := rfl
@[simp] theorem setBar_tests (s : State) (off : Nat) (v : W32) : (setBar s off v).tests = s.tests := rfl
@[simp] theorem setBar_mlog (s : State) (off : Nat) (v : W32) : (setBar s off v).mlog = s.mlog := rfl
@[simp] theorem setBar_mons (s : State) (off : Nat) (v : W32) : (setBar s off v).mons = s.mons := rfl
@[simp] theorem setBar_coolSince (s : State) (off : Nat) (v : W32) : (setBar s off v).coolSince = s.coolSince := rfl
@[simp] theorem setBar_powerAt (s : State) (off : Nat) (v : W32) : (setBar s off v).powerAt = s.powerAt := rfl
@[simp] theorem setBar_images (s : State) (off : Nat) (v : W32) : (setBar s off v).images = s.images := rfl
@[simp] theorem setBar_report (s : State) (off : Nat) (v : W32) : (setBar s off v).report = s.report := rfl

/-! `Block.modTeam`. -/

@[simp] theorem Block.modTeam_q (b : Block) (i : Nat) (f : Team → Team) : (Block.modTeam b i f).q = b.q := rfl
@[simp] theorem Block.modTeam_lseq (b : Block) (i : Nat) (f : Team → Team) : (Block.modTeam b i f).lseq = b.lseq := rfl
@[simp] theorem Block.modTeam_idx (b : Block) (i : Nat) (f : Team → Team) : (Block.modTeam b i f).idx = b.idx := rfl
@[simp] theorem Block.modTeam_site (b : Block) (i : Nat) (f : Team → Team) : (Block.modTeam b i f).site = b.site := rfl
@[simp] theorem Block.modTeam_scratch (b : Block) (i : Nat) (f : Team → Team) : (Block.modTeam b i f).scratch = b.scratch := rfl
@[simp] theorem Block.modTeam_scratchLen (b : Block) (i : Nat) (f : Team → Team) : (Block.modTeam b i f).scratchLen = b.scratchLen := rfl
@[simp] theorem Block.modTeam_spoison (b : Block) (i : Nat) (f : Team → Team) : (Block.modTeam b i f).spoison = b.spoison := rfl
@[simp] theorem Block.modTeam_objs (b : Block) (i : Nat) (f : Team → Team) : (Block.modTeam b i f).objs = b.objs := rfl
@[simp] theorem Block.modTeam_bars (b : Block) (i : Nat) (f : Team → Team) : (Block.modTeam b i f).bars = b.bars := rfl
@[simp] theorem Block.modTeam_sb (b : Block) (i : Nat) (f : Team → Team) : (Block.modTeam b i f).sb = b.sb := rfl
@[simp] theorem Block.modTeam_sbTest (b : Block) (i : Nat) (f : Team → Team) : (Block.modTeam b i f).sbTest = b.sbTest := rfl
@[simp] theorem Block.modTeam_arms (b : Block) (i : Nat) (f : Team → Team) : (Block.modTeam b i f).arms = b.arms := rfl
@[simp] theorem Block.modTeam_copies (b : Block) (i : Nat) (f : Team → Team) : (Block.modTeam b i f).copies = b.copies := rfl
@[simp] theorem Block.modTeam_cbq (b : Block) (i : Nat) (f : Team → Team) : (Block.modTeam b i f).cbq = b.cbq := rfl
@[simp] theorem Block.modTeam_mat (b : Block) (i : Nat) (f : Team → Team) : (Block.modTeam b i f).mat = b.mat := rfl
@[simp] theorem Block.modTeam_atts (b : Block) (i : Nat) (f : Team → Team) : (Block.modTeam b i f).atts = b.atts := rfl
@[simp] theorem Block.modTeam_sends (b : Block) (i : Nat) (f : Team → Team) : (Block.modTeam b i f).sends = b.sends := rfl
@[simp] theorem Block.modTeam_colls (b : Block) (i : Nat) (f : Team → Team) : (Block.modTeam b i f).colls = b.colls := rfl
@[simp] theorem Block.modTeam_collsDone (b : Block) (i : Nat) (f : Team → Team) : (Block.modTeam b i f).collsDone = b.collsDone := rfl
@[simp] theorem Block.modTeam_startsLate (b : Block) (i : Nat) (f : Team → Team) : (Block.modTeam b i f).startsLate = b.startsLate := rfl
@[simp] theorem Block.modTeam_fetches (b : Block) (i : Nat) (f : Team → Team) : (Block.modTeam b i f).fetches = b.fetches := rfl
@[simp] theorem Block.modTeam_ret (b : Block) (i : Nat) (f : Team → Team) : (Block.modTeam b i f).ret = b.ret := rfl
@[simp] theorem Block.modTeam_gone (b : Block) (i : Nat) (f : Team → Team) : (Block.modTeam b i f).gone = b.gone := rfl

/-! `Team.modRec`. -/

@[simp] theorem Team.modRec_idx (t : Team) (n : Nat) (f : Record → Record) : (Team.modRec t n f).idx = t.idx := rfl
@[simp] theorem Team.modRec_row (t : Team) (n : Nat) (f : Record → Record) : (Team.modRec t n f).row = t.row := rfl
@[simp] theorem Team.modRec_lanes (t : Team) (n : Nat) (f : Record → Record) : (Team.modRec t n f).lanes = t.lanes := rfl
@[simp] theorem Team.modRec_wid0 (t : Team) (n : Nat) (f : Record → Record) : (Team.modRec t n f).wid0 = t.wid0 := rfl
@[simp] theorem Team.modRec_splits (t : Team) (n : Nat) (f : Record → Record) : (Team.modRec t n f).splits = t.splits := rfl
@[simp] theorem Team.modRec_k (t : Team) (n : Nat) (f : Record → Record) : (Team.modRec t n f).k = t.k := rfl
@[simp] theorem Team.modRec_s (t : Team) (n : Nat) (f : Record → Record) : (Team.modRec t n f).s = t.s := rfl
@[simp] theorem Team.modRec_v (t : Team) (n : Nat) (f : Record → Record) : (Team.modRec t n f).v = t.v := rfl
@[simp] theorem Team.modRec_x (t : Team) (n : Nat) (f : Record → Record) : (Team.modRec t n f).x = t.x := rfl
@[simp] theorem Team.modRec_cnt (t : Team) (n : Nat) (f : Record → Record) : (Team.modRec t n f).cnt = t.cnt := rfl
@[simp] theorem Team.modRec_ops (t : Team) (n : Nat) (f : Record → Record) : (Team.modRec t n f).ops = t.ops := rfl
@[simp] theorem Team.modRec_mode (t : Team) (n : Nat) (f : Record → Record) : (Team.modRec t n f).mode = t.mode := rfl
@[simp] theorem Team.modRec_prio (t : Team) (n : Nat) (f : Record → Record) : (Team.modRec t n f).prio = t.prio := rfl
@[simp] theorem Team.modRec_trapc (t : Team) (n : Nat) (f : Record → Record) : (Team.modRec t n f).trapc = t.trapc := rfl
@[simp] theorem Team.modRec_trapa (t : Team) (n : Nat) (f : Record → Record) : (Team.modRec t n f).trapa = t.trapa := rfl
@[simp] theorem Team.modRec_trappc (t : Team) (n : Nat) (f : Record → Record) : (Team.modRec t n f).trappc = t.trappc := rfl
@[simp] theorem Team.modRec_trapst (t : Team) (n : Nat) (f : Record → Record) : (Team.modRec t n f).trapst = t.trapst := rfl
@[simp] theorem Team.modRec_vs (t : Team) (n : Nat) (f : Record → Record) : (Team.modRec t n f).vs = t.vs := rfl
@[simp] theorem Team.modRec_bstat (t : Team) (n : Nat) (f : Record → Record) : (Team.modRec t n f).bstat = t.bstat := rfl
@[simp] theorem Team.modRec_gmiss (t : Team) (n : Nat) (f : Record → Record) : (Team.modRec t n f).gmiss = t.gmiss := rfl
@[simp] theorem Team.modRec_drawn (t : Team) (n : Nat) (f : Record → Record) : (Team.modRec t n f).drawn = t.drawn := rfl
@[simp] theorem Team.modRec_waits (t : Team) (n : Nat) (f : Record → Record) : (Team.modRec t n f).waits = t.waits := rfl
@[simp] theorem Team.modRec_hostWait (t : Team) (n : Nat) (f : Record → Record) : (Team.modRec t n f).hostWait = t.hostWait := rfl
@[simp] theorem Team.modRec_lockBits (t : Team) (n : Nat) (f : Record → Record) : (Team.modRec t n f).lockBits = t.lockBits := rfl
@[simp] theorem Team.modRec_slots (t : Team) (n : Nat) (f : Record → Record) : (Team.modRec t n f).slots = t.slots := rfl
@[simp] theorem Team.modRec_unacked (t : Team) (n : Nat) (f : Record → Record) : (Team.modRec t n f).unacked = t.unacked := rfl
@[simp] theorem Team.modRec_gwct (t : Team) (n : Nat) (f : Record → Record) : (Team.modRec t n f).gwct = t.gwct := rfl
@[simp] theorem Team.modRec_lastHost (t : Team) (n : Nat) (f : Record → Record) : (Team.modRec t n f).lastHost = t.lastHost := rfl
@[simp] theorem Team.modRec_barIssued (t : Team) (n : Nat) (f : Record → Record) : (Team.modRec t n f).barIssued = t.barIssued := rfl
@[simp] theorem Team.modRec_gbarIssued (t : Team) (n : Nat) (f : Record → Record) : (Team.modRec t n f).gbarIssued = t.gbarIssued := rfl
@[simp] theorem Team.modRec_hlanes (t : Team) (n : Nat) (f : Record → Record) : (Team.modRec t n f).hlanes = t.hlanes := rfl
@[simp] theorem Team.modRec_probe (t : Team) (n : Nat) (f : Record → Record) : (Team.modRec t n f).probe = t.probe := rfl
@[simp] theorem Team.modRec_halted (t : Team) (n : Nat) (f : Record → Record) : (Team.modRec t n f).halted = t.halted := rfl
@[simp] theorem Team.modRec_left (t : Team) (n : Nat) (f : Record → Record) : (Team.modRec t n f).left = t.left := rfl

/-! `Team.setV`. -/

@[simp] theorem Team.setV_idx (t : Team) (r : Nat) (l : Nat) (v : W32) : (Team.setV t r l v).idx = t.idx := rfl
@[simp] theorem Team.setV_row (t : Team) (r : Nat) (l : Nat) (v : W32) : (Team.setV t r l v).row = t.row := rfl
@[simp] theorem Team.setV_lanes (t : Team) (r : Nat) (l : Nat) (v : W32) : (Team.setV t r l v).lanes = t.lanes := rfl
@[simp] theorem Team.setV_wid0 (t : Team) (r : Nat) (l : Nat) (v : W32) : (Team.setV t r l v).wid0 = t.wid0 := rfl
@[simp] theorem Team.setV_records (t : Team) (r : Nat) (l : Nat) (v : W32) : (Team.setV t r l v).records = t.records := rfl
@[simp] theorem Team.setV_splits (t : Team) (r : Nat) (l : Nat) (v : W32) : (Team.setV t r l v).splits = t.splits := rfl
@[simp] theorem Team.setV_k (t : Team) (r : Nat) (l : Nat) (v : W32) : (Team.setV t r l v).k = t.k := rfl
@[simp] theorem Team.setV_s (t : Team) (r : Nat) (l : Nat) (v : W32) : (Team.setV t r l v).s = t.s := rfl
@[simp] theorem Team.setV_x (t : Team) (r : Nat) (l : Nat) (v : W32) : (Team.setV t r l v).x = t.x := rfl
@[simp] theorem Team.setV_cnt (t : Team) (r : Nat) (l : Nat) (v : W32) : (Team.setV t r l v).cnt = t.cnt := rfl
@[simp] theorem Team.setV_ops (t : Team) (r : Nat) (l : Nat) (v : W32) : (Team.setV t r l v).ops = t.ops := rfl
@[simp] theorem Team.setV_mode (t : Team) (r : Nat) (l : Nat) (v : W32) : (Team.setV t r l v).mode = t.mode := rfl
@[simp] theorem Team.setV_prio (t : Team) (r : Nat) (l : Nat) (v : W32) : (Team.setV t r l v).prio = t.prio := rfl
@[simp] theorem Team.setV_trapc (t : Team) (r : Nat) (l : Nat) (v : W32) : (Team.setV t r l v).trapc = t.trapc := rfl
@[simp] theorem Team.setV_trapa (t : Team) (r : Nat) (l : Nat) (v : W32) : (Team.setV t r l v).trapa = t.trapa := rfl
@[simp] theorem Team.setV_trappc (t : Team) (r : Nat) (l : Nat) (v : W32) : (Team.setV t r l v).trappc = t.trappc := rfl
@[simp] theorem Team.setV_trapst (t : Team) (r : Nat) (l : Nat) (v : W32) : (Team.setV t r l v).trapst = t.trapst := rfl
@[simp] theorem Team.setV_vs (t : Team) (r : Nat) (l : Nat) (v : W32) : (Team.setV t r l v).vs = t.vs := rfl
@[simp] theorem Team.setV_bstat (t : Team) (r : Nat) (l : Nat) (v : W32) : (Team.setV t r l v).bstat = t.bstat := rfl
@[simp] theorem Team.setV_gmiss (t : Team) (r : Nat) (l : Nat) (v : W32) : (Team.setV t r l v).gmiss = t.gmiss := rfl
@[simp] theorem Team.setV_drawn (t : Team) (r : Nat) (l : Nat) (v : W32) : (Team.setV t r l v).drawn = t.drawn := rfl
@[simp] theorem Team.setV_waits (t : Team) (r : Nat) (l : Nat) (v : W32) : (Team.setV t r l v).waits = t.waits := rfl
@[simp] theorem Team.setV_hostWait (t : Team) (r : Nat) (l : Nat) (v : W32) : (Team.setV t r l v).hostWait = t.hostWait := rfl
@[simp] theorem Team.setV_lockBits (t : Team) (r : Nat) (l : Nat) (v : W32) : (Team.setV t r l v).lockBits = t.lockBits := rfl
@[simp] theorem Team.setV_slots (t : Team) (r : Nat) (l : Nat) (v : W32) : (Team.setV t r l v).slots = t.slots := rfl
@[simp] theorem Team.setV_unacked (t : Team) (r : Nat) (l : Nat) (v : W32) : (Team.setV t r l v).unacked = t.unacked := rfl
@[simp] theorem Team.setV_gwct (t : Team) (r : Nat) (l : Nat) (v : W32) : (Team.setV t r l v).gwct = t.gwct := rfl
@[simp] theorem Team.setV_lastHost (t : Team) (r : Nat) (l : Nat) (v : W32) : (Team.setV t r l v).lastHost = t.lastHost := rfl
@[simp] theorem Team.setV_barIssued (t : Team) (r : Nat) (l : Nat) (v : W32) : (Team.setV t r l v).barIssued = t.barIssued := rfl
@[simp] theorem Team.setV_gbarIssued (t : Team) (r : Nat) (l : Nat) (v : W32) : (Team.setV t r l v).gbarIssued = t.gbarIssued := rfl
@[simp] theorem Team.setV_hlanes (t : Team) (r : Nat) (l : Nat) (v : W32) : (Team.setV t r l v).hlanes = t.hlanes := rfl
@[simp] theorem Team.setV_probe (t : Team) (r : Nat) (l : Nat) (v : W32) : (Team.setV t r l v).probe = t.probe := rfl
@[simp] theorem Team.setV_halted (t : Team) (r : Nat) (l : Nat) (v : W32) : (Team.setV t r l v).halted = t.halted := rfl
@[simp] theorem Team.setV_left (t : Team) (r : Nat) (l : Nat) (v : W32) : (Team.setV t r l v).left = t.left := rfl

/-! `Team.setS`. -/

@[simp] theorem Team.setS_idx (t : Team) (n : Nat) (v : W32) : (Team.setS t n v).idx = t.idx := rfl
@[simp] theorem Team.setS_row (t : Team) (n : Nat) (v : W32) : (Team.setS t n v).row = t.row := rfl
@[simp] theorem Team.setS_lanes (t : Team) (n : Nat) (v : W32) : (Team.setS t n v).lanes = t.lanes := rfl
@[simp] theorem Team.setS_wid0 (t : Team) (n : Nat) (v : W32) : (Team.setS t n v).wid0 = t.wid0 := rfl
@[simp] theorem Team.setS_records (t : Team) (n : Nat) (v : W32) : (Team.setS t n v).records = t.records := rfl
@[simp] theorem Team.setS_splits (t : Team) (n : Nat) (v : W32) : (Team.setS t n v).splits = t.splits := rfl
@[simp] theorem Team.setS_k (t : Team) (n : Nat) (v : W32) : (Team.setS t n v).k = t.k := rfl
@[simp] theorem Team.setS_v (t : Team) (n : Nat) (v : W32) : (Team.setS t n v).v = t.v := rfl
@[simp] theorem Team.setS_x (t : Team) (n : Nat) (v : W32) : (Team.setS t n v).x = t.x := rfl
@[simp] theorem Team.setS_cnt (t : Team) (n : Nat) (v : W32) : (Team.setS t n v).cnt = t.cnt := rfl
@[simp] theorem Team.setS_ops (t : Team) (n : Nat) (v : W32) : (Team.setS t n v).ops = t.ops := rfl
@[simp] theorem Team.setS_mode (t : Team) (n : Nat) (v : W32) : (Team.setS t n v).mode = t.mode := rfl
@[simp] theorem Team.setS_prio (t : Team) (n : Nat) (v : W32) : (Team.setS t n v).prio = t.prio := rfl
@[simp] theorem Team.setS_trapc (t : Team) (n : Nat) (v : W32) : (Team.setS t n v).trapc = t.trapc := rfl
@[simp] theorem Team.setS_trapa (t : Team) (n : Nat) (v : W32) : (Team.setS t n v).trapa = t.trapa := rfl
@[simp] theorem Team.setS_trappc (t : Team) (n : Nat) (v : W32) : (Team.setS t n v).trappc = t.trappc := rfl
@[simp] theorem Team.setS_trapst (t : Team) (n : Nat) (v : W32) : (Team.setS t n v).trapst = t.trapst := rfl
@[simp] theorem Team.setS_vs (t : Team) (n : Nat) (v : W32) : (Team.setS t n v).vs = t.vs := rfl
@[simp] theorem Team.setS_bstat (t : Team) (n : Nat) (v : W32) : (Team.setS t n v).bstat = t.bstat := rfl
@[simp] theorem Team.setS_gmiss (t : Team) (n : Nat) (v : W32) : (Team.setS t n v).gmiss = t.gmiss := rfl
@[simp] theorem Team.setS_drawn (t : Team) (n : Nat) (v : W32) : (Team.setS t n v).drawn = t.drawn := rfl
@[simp] theorem Team.setS_waits (t : Team) (n : Nat) (v : W32) : (Team.setS t n v).waits = t.waits := rfl
@[simp] theorem Team.setS_hostWait (t : Team) (n : Nat) (v : W32) : (Team.setS t n v).hostWait = t.hostWait := rfl
@[simp] theorem Team.setS_lockBits (t : Team) (n : Nat) (v : W32) : (Team.setS t n v).lockBits = t.lockBits := rfl
@[simp] theorem Team.setS_slots (t : Team) (n : Nat) (v : W32) : (Team.setS t n v).slots = t.slots := rfl
@[simp] theorem Team.setS_unacked (t : Team) (n : Nat) (v : W32) : (Team.setS t n v).unacked = t.unacked := rfl
@[simp] theorem Team.setS_gwct (t : Team) (n : Nat) (v : W32) : (Team.setS t n v).gwct = t.gwct := rfl
@[simp] theorem Team.setS_lastHost (t : Team) (n : Nat) (v : W32) : (Team.setS t n v).lastHost = t.lastHost := rfl
@[simp] theorem Team.setS_barIssued (t : Team) (n : Nat) (v : W32) : (Team.setS t n v).barIssued = t.barIssued := rfl
@[simp] theorem Team.setS_gbarIssued (t : Team) (n : Nat) (v : W32) : (Team.setS t n v).gbarIssued = t.gbarIssued := rfl
@[simp] theorem Team.setS_hlanes (t : Team) (n : Nat) (v : W32) : (Team.setS t n v).hlanes = t.hlanes := rfl
@[simp] theorem Team.setS_probe (t : Team) (n : Nat) (v : W32) : (Team.setS t n v).probe = t.probe := rfl
@[simp] theorem Team.setS_halted (t : Team) (n : Nat) (v : W32) : (Team.setS t n v).halted = t.halted := rfl
@[simp] theorem Team.setS_left (t : Team) (n : Nat) (v : W32) : (Team.setS t n v).left = t.left := rfl

/-! `Team.setX`. -/

@[simp] theorem Team.setX_idx (t : Team) (n : Nat) (l : Nat) (v : W32) : (Team.setX t n l v).idx = t.idx := rfl
@[simp] theorem Team.setX_row (t : Team) (n : Nat) (l : Nat) (v : W32) : (Team.setX t n l v).row = t.row := rfl
@[simp] theorem Team.setX_lanes (t : Team) (n : Nat) (l : Nat) (v : W32) : (Team.setX t n l v).lanes = t.lanes := rfl
@[simp] theorem Team.setX_wid0 (t : Team) (n : Nat) (l : Nat) (v : W32) : (Team.setX t n l v).wid0 = t.wid0 := rfl
@[simp] theorem Team.setX_records (t : Team) (n : Nat) (l : Nat) (v : W32) : (Team.setX t n l v).records = t.records := rfl
@[simp] theorem Team.setX_splits (t : Team) (n : Nat) (l : Nat) (v : W32) : (Team.setX t n l v).splits = t.splits := rfl
@[simp] theorem Team.setX_k (t : Team) (n : Nat) (l : Nat) (v : W32) : (Team.setX t n l v).k = t.k := rfl
@[simp] theorem Team.setX_s (t : Team) (n : Nat) (l : Nat) (v : W32) : (Team.setX t n l v).s = t.s := rfl
@[simp] theorem Team.setX_v (t : Team) (n : Nat) (l : Nat) (v : W32) : (Team.setX t n l v).v = t.v := rfl
@[simp] theorem Team.setX_cnt (t : Team) (n : Nat) (l : Nat) (v : W32) : (Team.setX t n l v).cnt = t.cnt := rfl
@[simp] theorem Team.setX_ops (t : Team) (n : Nat) (l : Nat) (v : W32) : (Team.setX t n l v).ops = t.ops := rfl
@[simp] theorem Team.setX_mode (t : Team) (n : Nat) (l : Nat) (v : W32) : (Team.setX t n l v).mode = t.mode := rfl
@[simp] theorem Team.setX_prio (t : Team) (n : Nat) (l : Nat) (v : W32) : (Team.setX t n l v).prio = t.prio := rfl
@[simp] theorem Team.setX_trapc (t : Team) (n : Nat) (l : Nat) (v : W32) : (Team.setX t n l v).trapc = t.trapc := rfl
@[simp] theorem Team.setX_trapa (t : Team) (n : Nat) (l : Nat) (v : W32) : (Team.setX t n l v).trapa = t.trapa := rfl
@[simp] theorem Team.setX_trappc (t : Team) (n : Nat) (l : Nat) (v : W32) : (Team.setX t n l v).trappc = t.trappc := rfl
@[simp] theorem Team.setX_trapst (t : Team) (n : Nat) (l : Nat) (v : W32) : (Team.setX t n l v).trapst = t.trapst := rfl
@[simp] theorem Team.setX_vs (t : Team) (n : Nat) (l : Nat) (v : W32) : (Team.setX t n l v).vs = t.vs := rfl
@[simp] theorem Team.setX_bstat (t : Team) (n : Nat) (l : Nat) (v : W32) : (Team.setX t n l v).bstat = t.bstat := rfl
@[simp] theorem Team.setX_gmiss (t : Team) (n : Nat) (l : Nat) (v : W32) : (Team.setX t n l v).gmiss = t.gmiss := rfl
@[simp] theorem Team.setX_drawn (t : Team) (n : Nat) (l : Nat) (v : W32) : (Team.setX t n l v).drawn = t.drawn := rfl
@[simp] theorem Team.setX_waits (t : Team) (n : Nat) (l : Nat) (v : W32) : (Team.setX t n l v).waits = t.waits := rfl
@[simp] theorem Team.setX_hostWait (t : Team) (n : Nat) (l : Nat) (v : W32) : (Team.setX t n l v).hostWait = t.hostWait := rfl
@[simp] theorem Team.setX_lockBits (t : Team) (n : Nat) (l : Nat) (v : W32) : (Team.setX t n l v).lockBits = t.lockBits := rfl
@[simp] theorem Team.setX_slots (t : Team) (n : Nat) (l : Nat) (v : W32) : (Team.setX t n l v).slots = t.slots := rfl
@[simp] theorem Team.setX_unacked (t : Team) (n : Nat) (l : Nat) (v : W32) : (Team.setX t n l v).unacked = t.unacked := rfl
@[simp] theorem Team.setX_gwct (t : Team) (n : Nat) (l : Nat) (v : W32) : (Team.setX t n l v).gwct = t.gwct := rfl
@[simp] theorem Team.setX_lastHost (t : Team) (n : Nat) (l : Nat) (v : W32) : (Team.setX t n l v).lastHost = t.lastHost := rfl
@[simp] theorem Team.setX_barIssued (t : Team) (n : Nat) (l : Nat) (v : W32) : (Team.setX t n l v).barIssued = t.barIssued := rfl
@[simp] theorem Team.setX_gbarIssued (t : Team) (n : Nat) (l : Nat) (v : W32) : (Team.setX t n l v).gbarIssued = t.gbarIssued := rfl
@[simp] theorem Team.setX_hlanes (t : Team) (n : Nat) (l : Nat) (v : W32) : (Team.setX t n l v).hlanes = t.hlanes := rfl
@[simp] theorem Team.setX_probe (t : Team) (n : Nat) (l : Nat) (v : W32) : (Team.setX t n l v).probe = t.probe := rfl
@[simp] theorem Team.setX_halted (t : Team) (n : Nat) (l : Nat) (v : W32) : (Team.setX t n l v).halted = t.halted := rfl
@[simp] theorem Team.setX_left (t : Team) (n : Nat) (l : Nat) (v : W32) : (Team.setX t n l v).left = t.left := rfl

/-! `Team.setK`. -/

@[simp] theorem Team.setK_idx (t : Team) (n : Nat) (m : LaneMask) : (Team.setK t n m).idx = t.idx := rfl
@[simp] theorem Team.setK_row (t : Team) (n : Nat) (m : LaneMask) : (Team.setK t n m).row = t.row := rfl
@[simp] theorem Team.setK_lanes (t : Team) (n : Nat) (m : LaneMask) : (Team.setK t n m).lanes = t.lanes := rfl
@[simp] theorem Team.setK_wid0 (t : Team) (n : Nat) (m : LaneMask) : (Team.setK t n m).wid0 = t.wid0 := rfl
@[simp] theorem Team.setK_records (t : Team) (n : Nat) (m : LaneMask) : (Team.setK t n m).records = t.records := rfl
@[simp] theorem Team.setK_splits (t : Team) (n : Nat) (m : LaneMask) : (Team.setK t n m).splits = t.splits := rfl
@[simp] theorem Team.setK_s (t : Team) (n : Nat) (m : LaneMask) : (Team.setK t n m).s = t.s := rfl
@[simp] theorem Team.setK_v (t : Team) (n : Nat) (m : LaneMask) : (Team.setK t n m).v = t.v := rfl
@[simp] theorem Team.setK_x (t : Team) (n : Nat) (m : LaneMask) : (Team.setK t n m).x = t.x := rfl
@[simp] theorem Team.setK_cnt (t : Team) (n : Nat) (m : LaneMask) : (Team.setK t n m).cnt = t.cnt := rfl
@[simp] theorem Team.setK_ops (t : Team) (n : Nat) (m : LaneMask) : (Team.setK t n m).ops = t.ops := rfl
@[simp] theorem Team.setK_mode (t : Team) (n : Nat) (m : LaneMask) : (Team.setK t n m).mode = t.mode := rfl
@[simp] theorem Team.setK_prio (t : Team) (n : Nat) (m : LaneMask) : (Team.setK t n m).prio = t.prio := rfl
@[simp] theorem Team.setK_trapc (t : Team) (n : Nat) (m : LaneMask) : (Team.setK t n m).trapc = t.trapc := rfl
@[simp] theorem Team.setK_trapa (t : Team) (n : Nat) (m : LaneMask) : (Team.setK t n m).trapa = t.trapa := rfl
@[simp] theorem Team.setK_trappc (t : Team) (n : Nat) (m : LaneMask) : (Team.setK t n m).trappc = t.trappc := rfl
@[simp] theorem Team.setK_trapst (t : Team) (n : Nat) (m : LaneMask) : (Team.setK t n m).trapst = t.trapst := rfl
@[simp] theorem Team.setK_vs (t : Team) (n : Nat) (m : LaneMask) : (Team.setK t n m).vs = t.vs := rfl
@[simp] theorem Team.setK_bstat (t : Team) (n : Nat) (m : LaneMask) : (Team.setK t n m).bstat = t.bstat := rfl
@[simp] theorem Team.setK_gmiss (t : Team) (n : Nat) (m : LaneMask) : (Team.setK t n m).gmiss = t.gmiss := rfl
@[simp] theorem Team.setK_drawn (t : Team) (n : Nat) (m : LaneMask) : (Team.setK t n m).drawn = t.drawn := rfl
@[simp] theorem Team.setK_waits (t : Team) (n : Nat) (m : LaneMask) : (Team.setK t n m).waits = t.waits := rfl
@[simp] theorem Team.setK_hostWait (t : Team) (n : Nat) (m : LaneMask) : (Team.setK t n m).hostWait = t.hostWait := rfl
@[simp] theorem Team.setK_lockBits (t : Team) (n : Nat) (m : LaneMask) : (Team.setK t n m).lockBits = t.lockBits := rfl
@[simp] theorem Team.setK_slots (t : Team) (n : Nat) (m : LaneMask) : (Team.setK t n m).slots = t.slots := rfl
@[simp] theorem Team.setK_unacked (t : Team) (n : Nat) (m : LaneMask) : (Team.setK t n m).unacked = t.unacked := rfl
@[simp] theorem Team.setK_gwct (t : Team) (n : Nat) (m : LaneMask) : (Team.setK t n m).gwct = t.gwct := rfl
@[simp] theorem Team.setK_lastHost (t : Team) (n : Nat) (m : LaneMask) : (Team.setK t n m).lastHost = t.lastHost := rfl
@[simp] theorem Team.setK_barIssued (t : Team) (n : Nat) (m : LaneMask) : (Team.setK t n m).barIssued = t.barIssued := rfl
@[simp] theorem Team.setK_gbarIssued (t : Team) (n : Nat) (m : LaneMask) : (Team.setK t n m).gbarIssued = t.gbarIssued := rfl
@[simp] theorem Team.setK_hlanes (t : Team) (n : Nat) (m : LaneMask) : (Team.setK t n m).hlanes = t.hlanes := rfl
@[simp] theorem Team.setK_probe (t : Team) (n : Nat) (m : LaneMask) : (Team.setK t n m).probe = t.probe := rfl
@[simp] theorem Team.setK_halted (t : Team) (n : Nat) (m : LaneMask) : (Team.setK t n m).halted = t.halted := rfl
@[simp] theorem Team.setK_left (t : Team) (n : Nat) (m : LaneMask) : (Team.setK t n m).left = t.left := rfl

end Sys2Proof.Machine
end

