-- ==== Sys2Proof/Tests/Slice0.lean ====
section
/-! SUPPORT. Tests of the model. Words written out field by field from the spec's encodings, and what they decode to; terms
that each check of well-formedness refuses; single steps whose values the spec gives; and, for every statement with
hypotheses, states and operands that meet them. -/

namespace Sys2Proof.Tests

set_option Elab.async false

open Sys2Proof.Machine

/-! Witnesses: states and operands that meet the hypotheses of the statements. -/

/-- What `Runs` asks of a state, and `p` beside it, as a Bool. -/
def runsB (f : Form) (i : Iss) (s : State) (p : Env → Ctx → Bool) : Bool :=
  match getEnv s with
  | none => false
  | some e => !e.probing && (match gate f i e with
    | .go c => decide (c.m ≠ 0) && p e c
    | _ => false)

/-- An instruction of form f runs, under what `p` says. -/
def Met (f : Form) (i : Iss) (s : State) (p : Env → Ctx → Bool) : Prop := ∃ e c, Runs f i s e c ∧ p e c = true

theorem met_of {f : Form} {i : Iss} {s : State} {p : Env → Ctx → Bool} (h : runsB f i s p = true) : Met f i s p := by
  unfold runsB at h
  split at h
  · cases h
  · rename_i e he
    simp only [Bool.and_eq_true, Bool.not_eq_true'] at h
    obtain ⟨h1, h2⟩ := h
    split at h2
    · rename_i c hc
      simp only [Bool.and_eq_true, decide_eq_true_eq] at h2
      exact ⟨e, c, ⟨he, h1, hc, h2.1⟩, h2.2⟩
    · cases h2

theorem all_met {l : List Form} {i : Iss} {s : State} {p : Env → Ctx → Bool} (h : (l.all fun f => runsB f i s p) = true) :
    ∀ f ∈ l, Met f i s p := fun f hf => met_of (List.all_eq_true.mp h f hf)

theorem all_of {α : Type} {l : List α} (p : α → Bool) {Q : α → Prop} (h : l.all p = true) (f : ∀ x, p x = true → Q x) :
    ∀ x ∈ l, Q x := fun x hx => f x (List.all_eq_true.mp h x hx)

def yes : Env → Ctx → Bool := fun _ _ => true

/-- `Lone`, and no station. -/
def loneB (e : Env) : Bool := decide (Lone' e) && !e.station
where Lone' (e : Env) : Bool := e.team.records == [e.rcd] && e.rcd.held.isNone

theorem lone_of {e : Env} (h : loneB e = true) : Lone e ∧ e.station = false := by
  simp [loneB, loneB.Lone', Lone] at h ⊢
  exact ⟨⟨h.1.1, h.1.2⟩, h.2⟩

/-- One sub-team of two lanes on core 0, with every register of its budget. -/
def team2 : Team := newTeam 0 0 2 0 (w64 progVa) 176 [] 0 0 352
def launch0 : Launch := newLaunch 0 0 0 0 0 0 { progHdr with e := [2, 1, 1, 1, 1, 1], w := [1, 0, 0, 0, 0, 0] } []
def block0 : Block := newBlock 1 0 0 0 (.core 0) [team2] 4096

/-- A state whose current sub-team is that of a launch, a block and a team made from those above. -/
def stateOf (l : Launch → Launch) (b : Block → Block) (t : Team → Team) : State :=
  { State.reset with nextId := 2, launches := [l launch0], blocks := [b { block0 with teams := [t team2] }], cur := ⟨1, 0, 0⟩ }

def one : State := stateOf id id id

/-- A block of one lane whose launch has a page table (`loadProgram`), with a team made from its own. -/
def mapped (t : Team → Team) : State :=
  let s := loadProgram State.reset 0
  { s with agenda := [], cur := ⟨1, 0, 0⟩, blocks := s.blocks.map fun b => { b with teams := b.teams.map t } }

def hd : Hdr := ⟨0, 0, false, none⟩
def nomods : Mods := ⟨false, false, false, false, false, false, false, 0⟩

section
def v0 : Opnd := .v 0
def v1 : Opnd := .v 2
def v2 : Opnd := .v 4
def vd : Opnd := .v 6

theorem witness_IntegerArithmetic : ∀ f ∈ [arithForm [fA v0 1, fB v1 1] vd 1 4, arithForm [fA v0 1, fB v1 1] vd 1 6,
    arithForm [fA v0 1, fB v1 1, fC v2 1] vd 1 4, arithForm [fA v0 1, fB v1 1, fC v2 1] vd 1 6], Met f (issOf hd) one yes :=
  all_met (by decide +kernel)

theorem witness_WideArithmeticAndDots : ∀ f ∈ [arithForm [fA v0 1, fB v1 1] vd 1 6, arithForm [fA v0 1, fB v1 1, fC v2 2] vd 2 6,
    arithForm [fA v0 1, fB v1 1, fC v2 1] vd 1 4, arithForm [fA v0 2, fB v1 1, fC v2 1] vd 2 4,
    arithForm [fA v0 1, fB v1 1, fC v2 1] vd 1 6], Met f (issOf hd) one yes := all_met (by decide +kernel)

theorem witness_DivisionResults : ∀ f ∈ [({ arithForm [fA v0 1, fB v1 1] vd 1 0 with lat := none } : Form)],
    Met f (issOf hd) one yes := all_met (by decide +kernel)

theorem witness_LogicShiftsAndMoves : ∀ f ∈ [arithForm [fA v0 1, fB v1 1] vd 1 4, arithForm [fA v0 1, fB v1 1, fC v2 1] vd 1 4,
    arithForm [fA v0 1] vd 1 4, { arithForm [fA v0 1, fB v1 1, .mask 2 3] vd 1 4 with pass := .vec }],
    Met f (issOf hd) one yes := all_met (by decide +kernel)

theorem witness_BitFieldsAndCounts : ∀ f ∈ [arithForm [fA v0 1, fB v1 1] vd 1 4, arithForm [fA v0 1, fB v1 1, fC v2 1] vd 1 4,
    arithForm [fA v0 1] vd 1 4], Met f (issOf hd) one yes := all_met (by decide +kernel)

/-- Under mask k1, which holds no lane. -/
def idleB (f : Form) : Bool :=
  match getEnv one with
  | none => false
  | some e => !e.probing && (match gate f (issOf { hd with kmask := 1 }) e with
    | .go c => decide (c.m = 0)
    | _ => false)

theorem idle_of {f : Form} (h : idleB f = true) :
    ∃ e c, getEnv one = some e ∧ e.probing = false ∧ gate f (issOf { hd with kmask := 1 }) e = .go c ∧ c.m = 0 := by
  unfold idleB at h
  split at h
  · cases h
  · rename_i e he
    simp only [Bool.and_eq_true, Bool.not_eq_true'] at h
    obtain ⟨h1, h2⟩ := h
    split at h2
    · rename_i c hc
      exact ⟨e, c, he, h1, hc, of_decide_eq_true h2⟩
    · cases h2

theorem witness_NopsAndEmptyMasksMoveOn :
    (Met ⟨[], [], .vec, some 4, .run, true, false⟩ { issOf { hd with kmask := 1 } with kmask := 0, kinv := false } one yes) ∧
    ∀ f ∈ [arithForm [fA v0 1, fB v1 1] vd 1 4, loadForm true true .vec 1 vd v0 .zero, storeForm true true 1 v0 .zero v1,
      ctlForm [fA (.s 0) 1] [] .run true, ctlForm [] [] .ends true, branchForm [] []],
      ∃ e c, getEnv one = some e ∧ e.probing = false ∧ gate f (issOf { hd with kmask := 1 }) e = .go c ∧ c.m = 0 :=
  ⟨met_of (by decide +kernel), all_of idleB (by decide +kernel) fun _ h => idle_of h⟩

theorem witness_FloatArithmetic : ∀ f ∈ [arithForm [fA v0 1, fB v1 1] vd 1 6, arithForm [fA v0 1, fB v1 1, fC v2 1] vd 1 6,
    arithForm [fA v0 1] vd 1 6], Met f (issOf hd) one yes := all_met (by decide +kernel)

theorem witness_FloatFunctions : ∀ f ∈ [{ arithForm [fA v0 1, fB v1 1] vd 1 0 with lat := none }, arithForm [fA v0 1] vd 1 6,
    arithForm [fA v0 1] vd 1 12], Met f (issOf hd) one yes := all_met (by decide +kernel)

theorem witness_Conversions : ∀ f ∈ [arithForm [fA v0 1, fB v1 1, fC v2 1] vd 1 6, arithForm [fA v0 1] vd 1 6, arithForm [fA v0 1] vd 2 6,
    arithForm [fA v0 2] vd 1 6, arithForm [fA v0 2, fB v1 1, fC v2 1] vd 1 6], Met f (issOf hd) one yes := all_met (by decide +kernel)

theorem witness_ComparesAndMatchesWriteMasks : ∀ f ∈ [maskForm [fA v0 1, fB v1 1] 3 4, maskForm [fA v0 1, fB v1 1] 3 6,
    ⟨[fA v0 1], [.mask 3 5], .cross, some 8, .run, true, false⟩], Met f (issOf hd) one yes := all_met (by decide +kernel)

theorem witness_PackingWritesWords : Met { arithForm [fA v0 1] (.v 6) 1 8 with pass := .vec } (issOf hd) one yes :=
  met_of (by decide +kernel)

theorem witness_CrossLaneValues : (∀ f ∈ [crossForm [fA v0 1] vd 1, laneForm [fA v0 1] vd 1, laneForm [fA v0 1, fB v1 1, fC v2 1] vd 1],
    Met f (issOf hd) one yes) ∧ opIsS vd = false ∧
    Met (laneForm [fA v0 1, fB v1 1, fC v2 1] (.s 6) 1) (issOf hd) one yes ∧ opIsS (.s 6) = true :=
  ⟨all_met (by decide +kernel), rfl, met_of (by decide +kernel), rfl⟩

theorem witness_MaskOperations : (∀ f ∈ [maskForm [.mask 0 2, .mask 1 3] 4 4, maskForm [.mask 0 2] 4 4, maskForm [] 4 4,
    ⟨[.mask 0 2], [.opnd 3 (.s 3) 1], .cross, some 4, .run, true, false⟩, maskForm [fA v0 1] 4 4,
    ⟨[.mask 0 2], [.opnd 3 vd 1], .vec, some 4, .run, true, false⟩,
    ⟨[.mword 0 2 (.s 1), fB (.s 1) 1], [.opnd 3 (.s 3) 1], .scalar, some 4, .run, true, false⟩, { maskForm [fA (.s 0) 1, fB (.s 1) 1] 4 4 with dsts := [.mword 3 4 (.s 1)] }],
    Met f (issOf hd) one yes) := all_met (by decide +kernel)

theorem witness_IndexRegisters : ∀ f ∈ [⟨[fA v0 1], [.idx 3 2], .vec, some 4, .run, false, false⟩,
    ⟨[fA v0 1, .idx 3 2], [.idx 3 2], .vec, some 4, .run, false, false⟩,
    ⟨[.idx 0 2], [fD vd 1], .vec, some 4, .run, false, false⟩], Met f (issOf hd) one yes := all_met (by decide +kernel)

/-- A launch whose context is privileged. -/
def privileged : State := stateOf (fun l => { l with priv := true }) id id

def srdForm (g : SReg) (n : Nat) : Form := ⟨[], [fD vd (if g.wide then 2 else 1)], .vec, none, .run,
  decide (n ≤ 9 ∨ n = 0x0C ∨ n = 0x0E), decide (n = 0x0D ∨ n = 0x40)⟩

def srdB (s : State) (n : Nat) : Bool :=
  match sreg n with
  | none => false
  | some g => runsB (srdForm g n) (issOf hd) s yes

theorem srd_of {s : State} {n : Nat} (h : srdB s n = true) : ∃ g, sreg n = some g ∧ Met (srdForm g n) (issOf hd) s yes := by
  unfold srdB at h
  split at h
  · cases h
  · exact ⟨_, ‹_›, met_of h⟩

theorem witness_SpecialRegisters :
    (∀ n ∈ [0x00, 0x01, 0x05, 0x08, 0x09, 0x0D, 0x13, 0x14, 0x1A, 0x40, 0x41, 0x42], ∃ g, sreg n = some g ∧
      Met (srdForm g n) (issOf hd) privileged yes) ∧
    (∀ q : Fin 8, Opnd.s 0 ≠ .x q) ∧
    (∀ f ∈ [teamForm [fA (.s 0) 1] [] .ends true false, teamForm [fA (.s 0) 1] [] .ends false false,
      teamForm [fA (.s 0) 2] [] .ends false false, teamForm [fA (.s 0) 1] [] .ends false true], Met f (issOf hd) privileged yes) ∧
    (∀ v ∈ [0, 49, 50, 10000, 10001, 0x15, 0x3FFF, 0x4000], Met (teamForm [fA (.s 0) 1] [] .ends false true) (issOf hd)
      (stateOf (fun l => { l with priv := true }) id fun t => { t with s := if v = 0 then [] else [(0, w32 v)] })
      fun _ c => decide ((c.uni 0 (.s 0)).toNat = v)) := by
  exact ⟨all_of (srdB privileged) (by decide +kernel) fun _ h => srd_of h, by decide,
    all_met (by decide +kernel), all_of (fun v => runsB (teamForm [fA (.s 0) 1] [] .ends false true) (issOf hd)
      (stateOf (fun l => { l with priv := true }) id fun t => { t with s := if v = 0 then [] else [(0, w32 v)] })
      fun _ c => decide ((c.uni 0 (.s 0)).toNat = v)) (by decide +kernel) fun _ h => met_of h⟩
theorem witness_EncodedSchedule : ∀ f ∈ [arithForm [fA v0 1, fB v1 1] (.v 6) 1 4, arithForm [fA v0 1, fB v1 1] (.v 6) 1 6,
    arithForm [fA v0 1] (.v 6) 1 12, crossForm [fA v0 1] (.v 6) 1], Met f (issOf hd) one fun e _ => loneB e :=
  all_met (by decide +kernel)

def cw : CRaw := ⟨0, false, 4, 2, 0⟩
theorem witness_CompactArithmetic : cB cw = some (.v 4) ∧ cD cw = some (.v 2) ∧
    (∀ f ∈ [arithForm [fA (.v 2) 1, fB (.v 4) 1] (.v 2) 1 4, arithForm [fA (.v 2) 1, fB (.v 4) 1] (.v 2) 1 6,
      arithForm [fA (.v 4) 1] (.v 2) 1 4, arithForm [fA (.v 4) 1] (.v 2) 1 6, arithForm [fA (.v 4) 1] (.v 2) 1 12,
      arithForm [fA (.v 4) 1, fB .zero 1, fC .zero 1] (.v 2) 1 6, arithForm [fA (.v 2) 2, fB (.v 4) 2] (.v 2) 2 4,
      maskForm [fA (.v 2) 1, fB (.v 4) 1] 7 4, maskForm [fA (.v 2) 1, fB (.v 4) 1] 7 6,
      { arithForm [fA (.v 2) 1, fB (.v 4) 1, .mask 2 7] (.v 2) 1 4 with pass := .vec }], Met f (cissOf (cHdr cw)) one yes) ∧
    (let w : CRaw := { cw with imm := true }
     w.imm = true ∧ cB w = some .lit ∧ Met (crossForm [fA (.v 2) 1, fB .lit 1, fC .zero 1] (.v 2) 1) (cissOf (cHdr w)) one yes) :=
  ⟨by decide +kernel, by decide +kernel, all_met (by decide +kernel), rfl, by decide +kernel, met_of (by decide +kernel)⟩

theorem witness_PairReadsBeforeWriting :
    (let p : PBody := ⟨2, 0, ⟨0, false, 9, 5, 1⟩⟩
     let q : PBody := ⟨8, 0, ⟨0, false, 10, 6, 0⟩⟩
     pairOk p q = true ∧ ∃ da ba db bb, cD p.w = some da ∧ cB p.w = some ba ∧ cD q.w = some db ∧ cB q.w = some bb ∧
      ∃ e ca cb, Runs (arithForm [fA da 1, fB ba 1] da 1 4) (cissOf (cHdr p.w)) one e ca ∧
        Runs (arithForm [fA db 1, fB bb 1] db 1 4) (cissOf (cHdr q.w)) one e cb ∧ Lone e) := by
  refine ⟨by decide +kernel, .v 5, .v 9, .v 6, .v 10, by decide +kernel, by decide +kernel, by decide +kernel, by decide +kernel, ?_⟩
  obtain ⟨e, ca, ha, hl⟩ := met_of (f := arithForm [fA (.v 5) 1, fB (.v 9) 1] (.v 5) 1 4) (i := cissOf (cHdr ⟨0, false, 9, 5, 1⟩))
    (s := one) (p := fun e _ => loneB e) (by decide +kernel)
  obtain ⟨e', cb, hb, -⟩ := met_of (f := arithForm [fA (.v 6) 1, fB (.v 10) 1] (.v 6) 1 4) (i := cissOf (cHdr ⟨0, false, 10, 6, 0⟩))
    (s := one) (p := yes) (by decide +kernel)
  obtain rfl : e = e' := Option.some.inj (ha.env.symm.trans hb.env)
  exact ⟨e, ca, cb, ha, hb, (lone_of hl).1⟩
end
section
def oneKeyB (l : List Acc) (k : Nat) : Bool := l.all fun q => match q.2.2 with
  | .mem _ p => p.key == k
  | .scr _ _ => true

theorem oneKey_of {l : List Acc} {k : Nat} (h : oneKeyB l k = true) : OneKey l k := by
  intro q hq t p hm
  have := List.all_eq_true.mp h q hq
  simpa [hm] using this

/-- A lane whose register pair v0 holds the address of the mapped page. -/
def atPage : State := mapped fun t => { t with v := [(0, 0x10000)] }

def inMem : List Acc → Bool := fun l => l.any fun q => match q.2.2 with
  | .mem _ p => p.kind == .own
  | _ => false

/-- A load of four bytes at a scratchpad offset, and at an address of memory on the core's own die. -/
theorem witness_LoadsReadBytes :
    opIsS vd = false ∧
    Met (loadForm false true .vec 1 vd v0 .zero) (issOf hd) one (fun _ c =>
      let rs := c.resolveLanes c.lanes (c.ea false v0 .zero) 4 0 (c.poisonAt 4)
      firstBad rs [] == none && oneKeyB (goodAccs rs) 0 && !(goodAccs rs).isEmpty) ∧
    Met (loadForm true true .vec 1 vd v0 .zero) (issOf hd) atPage (fun e c =>
      let rs := c.resolveLanes c.lanes (c.ea true v0 .zero) 4 0 (c.poisonAt 4)
      firstBad rs [] == none && oneKeyB (goodAccs rs) 0 && inMem (goodAccs rs) && !e.blk.site.isStation) ∧
    Met (loadForm true false .scalar 1 (.s 4) v0 .zero) (issOf hd) atPage (fun e c =>
      let rs := c.resolveLanes [e.low c.m] (c.ea true v0 .zero) 4 0 (c.poisonAt 4)
      firstBad rs [] == none && inMem (goodAccs rs)) :=
  ⟨rfl, met_of (by decide +kernel), met_of (by decide +kernel), met_of (by decide +kernel)⟩

theorem witness_StoresWriteBytes :
    Met (storeForm false true 1 v0 .zero v1) (issOf hd) one (fun _ c =>
      let rs := c.resolveLanes c.lanes (c.ea false v0 .zero) 4 1 noExtra
      c.relHold (orderRel .rel) .dev == none && firstBad rs [] == none && oneKeyB (goodAccs rs) 0 && !(goodAccs rs).isEmpty) ∧
    Met (storeForm true true 1 v0 .zero v1) (issOf hd) atPage (fun _ c =>
      let rs := c.resolveLanes c.lanes (c.ea true v0 .zero) 4 1 noExtra
      c.relHold (orderRel .rel) .dev == none && firstBad rs [] == none && oneKeyB (goodAccs rs) 0 && inMem (goodAccs rs) &&
        (goodAccs rs).all fun q => match q.2.2 with
          | .mem _ p => decide (p.loc % 128 + 4 ≤ 128)
          | .scr _ _ => false) :=
  ⟨met_of (by decide +kernel), met_of (by decide +kernel)⟩

/-- A misaligned address in the scratchpad, and one that no page maps. -/
theorem witness_AccessCausesAreTaken :
    (∀ t ∈ [(one, false, 2, cALIGN), (mapped id, true, 0, cXLATE)],
      Met (loadForm t.2.1 true .vec 1 vd v0 .lit) (issOf { hd with lit := some (w32 t.2.2.1) }) t.1 (fun _ c =>
        ((firstBad (c.resolveLanes c.lanes (c.ea t.2.1 v0 .lit) 4 0 (c.poisonAt 4)) []).map (·.1)) == some t.2.2.2)) ∧
    (∀ t ∈ [(one, false, 2, cALIGN), (mapped id, true, 0, cXLATE)],
      Met (storeForm t.2.1 true 1 v0 .lit v1) (issOf { hd with lit := some (w32 t.2.2.1) }) t.1 (fun _ c =>
        c.relHold (orderRel .rlx) .dev == none &&
        ((firstBad (c.resolveLanes c.lanes (c.ea t.2.1 v0 .lit) 4 1 noExtra) []).map (·.1)) == some t.2.2.2)) :=
  ⟨all_of _ (by decide +kernel) fun _ h => met_of h, all_of _ (by decide +kernel) fun _ h => met_of h⟩

/-- One lane at offset 0 of its block's scratchpad. -/
def atomAt (gen : Bool) (need : Nat) : Env → Ctx → Bool := fun e c =>
  c.lanes == [0] && c.relHold (orderRel .rlx) .dev == none &&
    (match resolve e.s e.la.hdr e.blk e.la.ctx (c.ea gen v0 .zero 0) 4 need with
      | .ok (.scr b o) => b == e.blk.bid && o == 0 && !c.homePoison 4 (.scr b o)
      | _ => false) && e.blk.objs.isEmpty

def atLocal : State := mapped fun t => { t with v := [(0, w32 (localAddr 0).toNat), (1024, w32 ((localAddr 0).toNat / 2 ^ 32))] }

theorem witness_ScratchpadAtomics :
    Met (atomForm .add true true 1 vd v0 .zero v1) (issOf hd) atLocal (atomAt true 2) ∧
    Met (atomForm .add false false 1 vd v0 .zero v1) (issOf hd) (mapped id) (atomAt false 2) ∧
    Met (storeForm true true 1 v0 .zero v1) (issOf hd) atLocal (atomAt true 1) :=
  ⟨met_of (by decide +kernel), met_of (by decide +kernel), met_of (by decide +kernel)⟩

theorem witness_FencesCountersAndCacheHints :
    Met ⟨[], [], .vec, none, .run, true, false⟩ (issOf hd) one (fun _ c => c.relHold (orderRel .rel) .sys == none) ∧
    Met ⟨[], [], .vec, none, .run, true, false⟩ (issOf hd) (stateOf id id fun t => { t with unacked := [5] })
      (fun _ c => (c.relHold (orderRel .rel) .sys).isSome) ∧
    Met ⟨[], [fD vd 2], .vec, none, .run, false, false⟩ (issOf hd) one (fun _ c => c.relHold (orderRel .acq) .sys == none) ∧
    (∀ t ∈ [(0, 0), (3, 3), (255, 255)], Met (teamForm [fA .lit 1] [] .ends true false) (issOf { hd with lit := some (w32 t.2) })
      (stateOf id id fun u => { u with cnt := [(2, t.1)] }) (fun e c => decide (e.team.count 2 ≤ (c.uni 0 .lit).toNat))) ∧
    Met (teamForm [fA .lit 1] [] .ends true false) (issOf { hd with lit := some 254 }) (stateOf id id fun u => { u with cnt := [(2, 255)] })
      (fun e c => decide ((c.uni 0 .lit).toNat < e.team.count 2) && decide ((c.uni 0 .lit).toNat < 255)) ∧
    Met ⟨[fA v0 2, fB .zero 1], [], .vec, none, .run, false, false⟩ (issOf hd) atPage (fun _ c =>
      !(c.reachable v0 .zero).isEmpty && (c.reachable v0 .zero).all fun q => q.2.2.key == 0) :=
  ⟨met_of (by decide +kernel), met_of (by decide +kernel), met_of (by decide +kernel),
    all_of _ (by decide +kernel) fun _ h => met_of h, met_of (by decide +kernel), met_of (by decide +kernel)⟩

/-- A barrier object at offset 64 with these leg counts and epoch. -/
def objState (opn owed legs epoch : Nat) : State :=
  stateOf id (fun b => { b with objs := [64], scratch := setBytes [] 64 (leBytes 16 (BarObj.num ⟨epoch, owed, 0, legs, 0, opn⟩)) }) id

theorem witness_BarrierObjects :
    (let at_ : Env → Ctx → Bool := fun e c => match e.objAt (c.objAddr false .lit) with
      | .ok q => q == (1, 64) && (e.s.block? 1).isSome
      | .error _ => false
     let i := issOf { hd with lit := some 64 }
     let form : List Field → List Field → Form := fun srcs dsts => abarForm false .lit srcs dsts .own
     Met (form [fB (.s 1) 1, fC (.s 2) 1] []) i (stateOf id id fun t => { t with s := [(1, 1), (2, 511)] }) (fun e c => at_ e c &&
       decide (0 < (c.uni 1 (.s 1)).toNat) && decide ((c.uni 1 (.s 1)).toNat < 2 ^ 23) && decide ((c.uni 2 (.s 2)).toNat < 2 ^ 9)) ∧
     Met (form [] [fD vd 1]) i (objState 2 0 2 0) at_ ∧ Met (form [fB (.s 1) 1] []) i (objState 2 0 2 0) at_ ∧
     (∀ t ∈ [(1, true), (2 ^ 31 - 1, true), (0, false), (2 ^ 31, false)],
       Met (abarForm false .lit [fB .zero 1] [] .ends) i (objState 2 0 2 t.1) (fun e c => at_ e c && loneB e &&
         (let ep := (getObj e.blk 64).epoch
          decide (1 ≤ (ep + 2 ^ 32 - (c.uni 1 .zero).toNat) % 2 ^ 32 ∧ (ep + 2 ^ 32 - (c.uni 1 .zero).toNat) % 2 ^ 32 < 2 ^ 31) == t.2))) ∧
     (∀ ep ∈ [0, 1], Met (abarForm false .lit [fB .zero 1] [fD vd 1] .own) i (objState 2 0 2 ep) fun e c =>
       at_ e c && (getObj e.blk 64).epoch == ep)) :=
  ⟨met_of (by decide +kernel), met_of (by decide +kernel), met_of (by decide +kernel), all_of _ (by decide +kernel) fun _ h => met_of h,
    all_of _ (by decide +kernel) fun _ h => met_of h⟩
end
section
/-- What is asked of the issuing sub-team alone. -/
def envB (s : State) (p : Env → Bool) : Bool :=
  match getEnv s with
  | none => false
  | some e => !e.probing && p e

theorem env_of {s : State} {p : Env → Bool} (h : envB s p = true) : ∃ e, getEnv s = some e ∧ e.probing = false ∧ p e = true := by
  unfold envB at h
  split at h
  · cases h
  · rename_i e he
    simp only [Bool.and_eq_true, Bool.not_eq_true'] at h
    exact ⟨e, he, h.1, h.2⟩

/-- A second team of the block, and the registers of the first. -/
def twoTeams (s : SMap W32) : State :=
  stateOf (fun l => { l with hdr := { l.hdr with cores := true, e := [2, 2, 1, 1, 1, 1] } })
    (fun b => { b with teams := b.teams ++ [newTeam 1 1 2 2 (w64 progVa) 176 [] 0 0 352] }) fun t => { t with s := s }

def barPre (a b : Opnd) (meets : Bool) : Env → Ctx → Bool := fun e c =>
  let id := (c.uni 0 a).toNat
  let n := (c.uni 1 b).toNat
  let st := barOf e.blk id
  let most := if e.station then e.blk.teams.length else e.la.hdr.ext 1
  let cnt : Option Nat := if st.arrived = [] then (if opIsZero b then none else some n) else st.expect
  loneB e && decide (id ≤ 15) && (opIsZero b || decide (0 < n ∧ n ≤ most)) && !st.arrived.contains e.who.team &&
    decide (∀ t ∈ e.blk.teams, ∀ p ∈ t.barIssued, p.1 ≠ id) &&
    decide (cnt.getD e.blk.unexited ≤ st.arrived.length + 1) == meets

def gbarPre (a : Opnd) (all : Bool) : Env → Ctx → Bool := fun e c =>
  let id := (c.uni 0 a).toNat
  let me := (e.blk.idx, e.who.team)
  let st := gbarOf e.la id
  loneB e && decide (id ≤ 3) && e.la.hdr.cores && decide (∀ b ∈ e.s.blocks, b.bid = e.who.bid → b = e.blk) && !st.arrived.contains me && c.relHold true .dev == none &&
    decide (∀ b ∈ e.s.blocks, ∀ t ∈ b.teams, ∀ p ∈ t.gbarIssued, p.1 ≠ id) &&
    decide (∀ b ∈ e.s.blocksOf e.la.q e.la.lseq, ∀ t ∈ b.teams, t.live ≠ 0 → (b.idx, t.idx) = me ∨ (b.idx, t.idx) ∈ st.arrived) == all

theorem witness_BlockAndLaunchBarriers :
    (∀ t ∈ [(one, Opnd.zero, true), (twoTeams [], .zero, false), (twoTeams [(1, 1)], .s 1, true), (twoTeams [(1, 2)], .s 1, false)],
      Met (teamForm [fA .lit 1, fB t.2.1 1] [] .ends true false) (issOf { hd with lit := some 15 }) t.1 (barPre .lit t.2.1 t.2.2)) ∧
    (∀ t ∈ [(twoTeams [], false), (stateOf (fun l => { l with hdr := { l.hdr with cores := true } }) id id, true)],
      Met (teamForm [fA .lit 1] [] .ends false false) (issOf { hd with lit := some 3 }) t.1 (gbarPre .lit t.2)) :=
  ⟨all_of _ (by decide +kernel) fun _ h => met_of h, all_of _ (by decide +kernel) fun _ h => met_of h⟩

/-- Mask k1 holds lane 0 alone. -/
def lane0 : State := stateOf id id fun t => { t with k := [(1, 1)] }

theorem witness_BranchesMoveAndSplit :
    Met (branchForm [] []) (issOf hd) one (fun e c => loneB e && isStart e.s e.blk e.la (c.target 4).toNat && c.m == e.rcd.k0) ∧
    Met (branchForm [] []) (issOf { hd with kmask := 1 }) lane0 (fun e c => loneB e && isStart e.s e.blk e.la (c.target 4).toNat &&
      c.m != e.rcd.k0 && (e.rcd.k0 &&& ~~~c.m) != 0 && c.target 4 != e.rcd.pc + w64 c.iss.len) :=
  ⟨met_of (by decide +kernel), met_of (by decide +kernel)⟩

/-- A pair that holds one value in both lanes. -/
def pairIs (v : Nat) : State := stateOf id id fun t =>
  { t with v := (([(0, w32 v), (1, w32 v), (1024, w32 (v / 2 ^ 32)), (1025, w32 (v / 2 ^ 32))] : SMap W32).filter fun p => p.2 != 0) }

def callPre (v : Nat) : Env → Ctx → Bool := fun e c =>
  loneB e && c.m == e.rcd.k0 && !c.lanes.isEmpty && e.rcd.k0 == maskOf c.lanes && (c.lanes.all fun l => c.rd64 0 v0 false l == w64 v) &&
    isStart e.s e.blk e.la (v % 2 ^ 56)

theorem witness_CallsAndReturns :
    Met (branchForm [fA v0 2] []) (issOf hd) (pairIs 0x20000) (callPre 0x20000) ∧ opIsS vd = false ∧
    Met (branchForm [] [fD vd 2]) (issOf hd) one (fun e c => loneB e && c.m == e.rcd.k0 && !c.lanes.isEmpty &&
      isStart e.s e.blk e.la (c.target 4).toNat && entryBudget e.s e.blk e.la (c.target 4).toNat == none) ∧
    Met (branchForm [fA v0 2] [fD vd 2]) (issOf hd) (pairIs 0x20000) (fun e c => callPre 0x20000 e c &&
      entryBudget e.s e.blk e.la 0x20000 == none) ∧
    (∀ n ∈ [0, 1, 22], Met (branchForm [fA v0 2] []) (issOf hd) (pairIs (0x20000 + 2 ^ 56 * n)) (fun e c =>
      callPre (0x20000 + 2 ^ 56 * n) e c && decide (8 * n ≤ e.rcd.alloc) && !releaseBusy e.team e.rcd.k0 (e.rcd.alloc - 8 * n) e.rcd.alloc)) :=
  ⟨met_of (by decide +kernel), rfl, met_of (by decide +kernel), met_of (by decide +kernel), all_of _ (by decide +kernel) fun _ h => met_of h⟩

/-- Two sub-teams under one split entry: lane 0 issues, lane 1 is at `pc` and waits as given. -/
def split2 (w : Wait) (pc : Nat) : State := stateOf id id fun t =>
  { t with records := t.records.flatMap fun r => [{ r with k0 := 1, parent := 7 }, { r with num := 1, k0 := 2, parent := 7, wait := w, pc := w64 pc }],
           splits := [⟨7, Config.root, 2⟩] }

def joinPre : Env → Ctx → Bool := fun e _ => match e.team.records, e.team.splits with
  | [a, b], [sp] => a == e.rcd && a.held.isNone && b.held.isNone && a.parent == sp.entry && b.parent == sp.entry && sp.arms == 2 &&
      sp.parent != sp.entry && sp.entry != Config.root && b.num != a.num && b.alloc == a.alloc &&
      (b.wait == .join sp.entry && b.pc == a.pc || b.wait == .ready && b.pc != a.pc)
  | _, _ => false

theorem witness_YieldExitAndJoin :
    Met (ctlForm [] [] .ends true) (issOf hd) one (fun e _ => loneB e && e.rcd.parent == Config.root) ∧
    (∀ n ∈ [0, 5, 1048576], Met (ctlForm [fA .lit 1] [] .ends true) (issOf { hd with lit := some (w32 n) }) one
      (fun e c => loneB e && (c.uni 0 .lit).toNat == n)) ∧
    Met (ctlForm [] [] .ends true) (issOf hd) (split2 (.join 7) progVa) joinPre ∧
    Met (ctlForm [] [] .ends true) (issOf hd) (split2 .ready 0x20000) joinPre ∧ hd.lit = none :=
  ⟨met_of (by decide +kernel), all_of _ (by decide +kernel) fun _ h => met_of h, met_of (by decide +kernel), met_of (by decide +kernel), rfl⟩

/-- A sub-team of allocation 80, its team's draw from the pool as given. -/
def drawn80 (drawn : Nat) : State := stateOf id id fun t =>
  { t with records := t.records.map fun r => { r with alloc := 80 }, drawn := drawn }

theorem witness_ClaimsAndReleases :
    Met (teamForm [fA .zero 1] [] .ends false false) (issOf hd) (drawn80 160) (fun e _ => loneB e &&
      decide (e.rcd.alloc + 8 ≤ e.la.hdr.ceiling) && e.s.claims.isEmpty && decide (8 * countLanes e.rcd.k0 e.team.lanes ≤ poolFree e.s 0)) ∧
    Met (teamForm [fA .zero 1] [] .ends false false) (issOf hd) (drawn80 196600) (fun e _ => loneB e &&
      decide (e.rcd.alloc + 8 ≤ e.la.hdr.ceiling) && decide (poolFree e.s 0 < 8 * countLanes e.rcd.k0 e.team.lanes)) ∧
    Met (teamForm [fA .zero 1] [] .ends false false) (issOf hd) (drawn80 160) (fun e _ => loneB e && decide (8 ≤ e.rcd.alloc) &&
      !releaseBusy e.team e.rcd.k0 (e.rcd.alloc - 8) e.rcd.alloc) ∧
    Met (teamForm [fA .lit 1] [] .ends false false) (issOf { hd with lit := some 80 }) (drawn80 160) (fun e c => loneB e &&
      (c.uni 0 .lit).toNat == e.rcd.alloc && !releaseBusy e.team e.rcd.k0 0 e.rcd.alloc) :=
  ⟨met_of (by decide +kernel), met_of (by decide +kernel), met_of (by decide +kernel), met_of (by decide +kernel)⟩

/-- A call that runs on station 0 of stack 0. -/
def aCall : Call := ⟨5, 0, 0, 0, 0, 9, 0, 0, 0, 0, [], none, .running, 0, 0, 0, 0, [], 0, 0, 0, 0, true, 0⟩

def atStation (b : Block → Block) (t : Team → Team) : State :=
  let s := stateOf id (fun k => b { k with site := .station 0 0, idx := 5 }) fun u => t { u with records := u.records.map fun r => { r with alloc := 64 } }
  { s with calls := [aCall] }

theorem witness_TrapsReturnAndHalt :
    (let p : Bool → Bool → Env → Ctx → Bool := fun trap inh e _ => loneB e && e.la.hdr.trap == trap && e.team.inh == inh &&
       (e.rcd.k0 &&& e.team.hlanes) == 0 && e.la.stop.isNone &&
       (e.team.records.all fun q => q.num == e.who.sub || q.pc != e.la.hdr.handler)
     ∀ f ∈ [ctlForm [fA (.s 0) 1] [] .run true, ctlForm [] [] .run true],
       Met f (issOf hd) (stateOf (fun l => { l with hdr := { l.hdr with trap := true, handler := 0x20000 } }) id id) (p true false) ∧
       Met f (issOf hd) (stateOf (fun l => { l with hdr := { l.hdr with trap := true } }) id fun t => { t with trapst := 0x100 }) (p true true) ∧
       Met f (issOf hd) one (p false false) ∧
       Met f (issOf hd) (atStation id id) (fun e _ => e.station && e.s.calls.any fun k => k.id == e.blk.idx)) ∧
    Met (teamForm [] [] .ends false false) (issOf hd) one (fun e _ => !e.team.trapst.getLsbD 8) ∧
    Met (teamForm [] [] .ends false false) (issOf hd) (stateOf id id fun t => { t with trapst := 0x102, trappc := 0x20000 })
      (fun e _ => e.team.trapst.getLsbD 8 && e.team.records == [e.rcd]) ∧
    Met (teamForm [] [] .ends false true) (issOf hd) privileged (fun e _ => e.la.stop.isNone) :=
  ⟨all_of (fun f =>
      runsB f (issOf hd) (stateOf (fun l => { l with hdr := { l.hdr with trap := true, handler := 0x20000 } }) id id) (fun e _ =>
        loneB e && e.la.hdr.trap == true && e.team.inh == false && (e.rcd.k0 &&& e.team.hlanes) == 0 && e.la.stop.isNone &&
        e.team.records.all fun q => q.num == e.who.sub || q.pc != e.la.hdr.handler) &&
      (runsB f (issOf hd) (stateOf (fun l => { l with hdr := { l.hdr with trap := true } }) id fun t => { t with trapst := 0x100 }) (fun e _ =>
        loneB e && e.la.hdr.trap == true && e.team.inh == true && (e.rcd.k0 &&& e.team.hlanes) == 0 && e.la.stop.isNone &&
        e.team.records.all fun q => q.num == e.who.sub || q.pc != e.la.hdr.handler) &&
      (runsB f (issOf hd) one (fun e _ =>
        loneB e && e.la.hdr.trap == false && e.team.inh == false && (e.rcd.k0 &&& e.team.hlanes) == 0 && e.la.stop.isNone &&
        e.team.records.all fun q => q.num == e.who.sub || q.pc != e.la.hdr.handler) &&
      runsB f (issOf hd) (atStation id id) (fun e _ => e.station && e.s.calls.any fun k => k.id == e.blk.idx)))) (by decide +kernel)
      fun f h => by
        simp only [Bool.and_eq_true] at h
        exact ⟨met_of h.1, met_of h.2.1, met_of h.2.2.1, met_of h.2.2.2⟩,
    met_of (by decide +kernel), met_of (by decide +kernel), met_of (by decide +kernel)⟩

/-- An allocation of 8, and otherwise as given. -/
def alloc8 (t : Team → Team) (pend : List Pend) : State :=
  stateOf id id fun u => t { u with records := u.records.map fun r => { r with alloc := 8, pend := pend } }

theorem witness_ChecksBeforeEffect :
    (∃ e, getEnv (atStation id id) = some e ∧ e.probing = false ∧ e.station = true) ∧
    (∃ e, getEnv (alloc8 (fun t => { t with waits := [(.v 3, 3)] }) []) = some e ∧ e.probing = false ∧
      (!e.station && decide (RegKey.v 3 ∈ e.team.unready)) = true) ∧
    (∃ e, getEnv (alloc8 id []) = some e ∧ e.probing = false ∧
      (!e.station && e.team.unready.isEmpty && e.team.locks.isEmpty && e.rcd.alloc == 8 && e.rcd.pend.isEmpty && !e.la.priv &&
        (maskLanes (execMask e (issOf hd)) e.team.lanes).contains 0 && e.team.getX 0 0 == 0) = true) ∧
    (∃ e, getEnv (alloc8 (fun t => { t with mode := 1 }) [⟨.v 2, 0, 6⟩]) = some e ∧ e.probing = false ∧
      (!e.station && e.team.unready.isEmpty && e.team.locks.isEmpty && e.team.mode.getLsbD 0 &&
        (let f := arithForm [fA (.v 2) 1, fB .zero 1] (.v 3) 1 4
         (liveWords (passMask e f (issOf hd)) e.pw e.team.lanes)[0]? == some 0 && lateAt e.rcd (.v 2) 0 (e.rcd.etime + 0))) = true) :=
  ⟨env_of (by decide +kernel), env_of (by decide +kernel), env_of (by decide +kernel), env_of (by decide +kernel)⟩
end
section
/-- Little-endian fields laid into zero bytes: offset, bytes, value. -/
def bytesAre (l : List (Nat × Nat × Nat)) : Memory := l.foldl (fun m f => setBytes m f.1 (leBytes f.2.1 f.2.2)) []

def locA (n : Nat) : Nat := (localAddr n).toNat

/-- A scratchpad with these fields, and the registers of the team. -/
def scratched (l : List (Nat × Nat × Nat)) (s : SMap W32) : State := stateOf id (fun b => { b with scratch := bytesAre l }) fun t => { t with s := s }

/-- Eight words from offset 1024 to offset 2048. -/
def tensorFields : List (Nat × Nat × Nat) := [(0, 8, locA 1024), (8, 8, locA 2048), (16, 1, 2), (17, 1, 1), (32, 4, 8), (36, 5, 4), (41, 5, 4)]

/-- Two rows of 16 bytes of a table of four at offset 1024, packed at offset 2048, indices at 512. -/
def gatherFields : List (Nat × Nat × Nat) := [(0, 8, locA 1024), (8, 8, locA 2048), (20, 4, 4), (24, 4, 16), (32, 4, 512), (36, 4, 2), (512, 4, 3), (516, 4, 9)]

def copyRoom : Env → Bool := fun e => decide (e.blk.copies.length < 16) && decide (e.team.count 0 < 255) && e.blk.copies.all fun k => k.buf.isNone

def aCopy : CopyOp := ⟨9, 0, .tfill, .running, 0, 0, 0, none, 0, none, bytesAre [(0, 4, 512), (4, 4, 64), (8, 4, 7)], false, 0, []⟩

theorem witness_CopiesEnterTheEngine :
    Met (copyForm false .zero .zero) (issOf hd) (scratched tensorFields []) (fun e _ => tcopyCheck e 0 none == none && copyRoom e) ∧
    Met (copyForm false .zero .zero) (issOf hd) (scratched gatherFields []) (fun e _ =>
      gatherCheck e 0 false none == none && gatherCheck e 0 true none == none && copyRoom e) ∧
    Met (ctlForm [fA .zero 1, fB (.s 2) 2, fC .zero 1] [] .zero false) (issOf hd)
      (stateOf (fun l => { l with hdr := { l.hdr with e := [2, 1, 2, 1, 1, 1], w := [1, 0, 1, 0, 0, 0] } })
        (fun b => { b with scratch := bytesAre tensorFields }) fun t => { t with s := [(2, 1)] })
      (fun e c => tmcstCheck e 0 (c.uni64 1 (.s 2)) none == none && copyRoom e) ∧
    Met (ctlForm [fA .zero 1, fB (.s 2) 1, fC (.s 3) 1] [] .zero false) (issOf hd) (scratched [] [(2, 64), (3, 7)])
      (fun e c => tfillCheck e.blk 0 (c.uni 1 (.s 2)).toNat == none && copyRoom e) ∧
    Met (ctlForm [fA .zero 1, fB (.s 2) 1, fC (.s 3) 1] [] .zero false) (issOf hd) (scratched [] [(2, 62), (3, 7)])
      (fun e c => (tfillCheck e.blk 0 (c.uni 1 (.s 2)).toNat).isSome) ∧
    Met (ctlForm [fA .zero 1, fB (.s 2) 1, fC (.s 3) 1] [] .zero false) (issOf hd)
      (stateOf id (fun b => { b with copies := List.replicate 16 aCopy }) fun t => { t with s := [(2, 64)] })
      (fun e c => tfillCheck e.blk 0 (c.uni 1 (.s 2)).toNat == none && decide (16 ≤ e.blk.copies.length)) ∧
    Met (copyForm false .zero .zero) (issOf hd) (scratched [] []) (fun e _ =>
      (tcopyCheck e 0 none).isSome && (gatherCheck e 0 false none).isSome && (gatherCheck e 0 true none).isSome) :=
  ⟨met_of (by decide +kernel), met_of (by decide +kernel), met_of (by decide +kernel), met_of (by decide +kernel), met_of (by decide +kernel),
    met_of (by decide +kernel), met_of (by decide +kernel)⟩

/-- A buffer descriptor at offset 0 over two slots of 128 bytes at 512: free, filled, head, tail, reserved, done and tags. -/
def cbufNum (free filled head tail rsv done tags : Nat) : Nat :=
  512 + 2 ^ 32 * 128 + 2 ^ 64 * 2 + 2 ^ 80 * free + 2 ^ 88 * filled + 2 ^ 96 * head + 2 ^ 104 * tail + 2 ^ 112 * rsv
    + 2 ^ 128 * done + 2 ^ 224 * tags

def buffered (n : Nat) (s : SMap W32) : State := scratched [(0, 32, n)] s

def cbPre (ok : CBuf → Bool) : Env → Ctx → Bool := fun e c =>
  let cb := cbufOf (e.blk.num 0 32)
  (match e.bufAt (c.objAddr false .zero) with
    | .ok q => q == (1, 0)
    | .error _ => false) && e.blk.cbq.isEmpty && e.blk.objs.isEmpty && !cb.broken e.blk.scratchLen && ok cb

theorem witness_CircularBuffers :
    (let F : List Field → List Field → ProbeK → Form := fun srcs dsts pr => ⟨fA .zero 1 :: srcs, dsts, .ctl, none, pr, false, false⟩
     Met (F [fB (.s 1) 1, fC (.s 2) 1] [] .zero) (issOf hd) (scratched [] [(1, 512), (2, 128)]) (fun e c =>
       (match e.bufAt (c.objAddr false .zero) with
         | .ok q => q == (1, 0)
         | .error _ => false) && e.blk.cbq.isEmpty && e.blk.objs.isEmpty && c.uni 1 (.s 1) == 512 && c.uni 2 (.s 2) == 128) ∧
     (∀ t ∈ [(cbufNum 2 0 0 0 0 0 (2 ^ 32 - 1), true), (cbufNum 0 1 0 0 1 0 1024, false)],
       Met (F [] [fD vd 1] .zero) (issOf hd) (buffered t.1 []) (cbPre fun cb => decide (0 < cb.free) == t.2)) ∧
     (∀ t ∈ [(cbufNum 1 0 0 1 1 0 1024, 512), (cbufNum 0 0 0 0 2 0 (2 ^ 32 - 1), 512), (cbufNum 0 0 0 0 2 0 1024, 640)],
       Met (F [fB (.s 1) 1, fC (.s 2) 1] [] .zero) (issOf hd) (buffered t.1 [(1, w32 t.2), (2, 77)]) (fun e c => cbPre (fun cb =>
         let j := (t.2 - 512) / 128
         cb.rsv != 0 && (c.uni 1 (.s 1)).toNat == cb.base + j * cb.ssize &&
           (List.range cb.rsv).any (fun k => j == (cb.head + cb.filled + k) % cb.count) && !cb.done.testBit j &&
           (j != (cb.head + cb.filled) % cb.count && !cb.done.testBit ((cb.head + cb.filled) % cb.count) ||
             j == (cb.head + cb.filled) % cb.count && (cb.rsv == 1 || !cb.done.testBit ((j + 1) % cb.count)))) e c)) ∧
     (∀ t ∈ [(cbufNum 1 1 0 1 0 0 1024, true), (cbufNum 2 0 0 0 0 0 1024, false)],
       Met (F [] [fD vd 1] .ends) (issOf hd) (buffered t.1 []) (cbPre fun cb => decide (0 < cb.filled) == t.2) ∧
       Met (F [] [fD vd 2] .ends) (issOf hd) (buffered t.1 []) (cbPre fun cb => decide (0 < cb.filled) == t.2)) ∧
     Met (F [] [] .zero) (issOf hd) (buffered (cbufNum 1 0 1 1 0 0 1024) [])
       (cbPre fun cb => decide (0 < cb.count - cb.free - cb.rsv - cb.filled))) :=
  ⟨met_of (by decide +kernel), all_of _ (by decide +kernel) fun _ h => met_of h, all_of _ (by decide +kernel) fun _ h => met_of h,
    all_of (fun t =>
      runsB ⟨[fA .zero 1], [fD vd 1], .ctl, none, .ends, false, false⟩ (issOf hd) (buffered t.1 []) (cbPre fun cb => decide (0 < cb.filled) == t.2) &&
      runsB ⟨[fA .zero 1], [fD vd 2], .ctl, none, .ends, false, false⟩ (issOf hd) (buffered t.1 []) (cbPre fun cb => decide (0 < cb.filled) == t.2))
      (by decide +kernel) fun _ h => by
        simp only [Bool.and_eq_true] at h
        exact ⟨met_of h.1, met_of h.2⟩,
    met_of (by decide +kernel)⟩

/-- A block whose tile 0 and 1 are valid and whose plane 0 is active with the tag given. -/
def tiled (tag : Nat) (s : SMap W32) (t : Team → Team) : State := stateOf id
  (fun b => { b with scratchLen := 65536, mat := { newMatrix with iactive := [(0, tag)], istat := [(0, ⟨true, false, 0, 0, 0, 0⟩), (1, ⟨true, false, 0, 0, 0, 0⟩)] } })
  fun u => t { u with s := s }

def matRoom (e : Env) : Bool := decide ((e.blk.mat.queue.filter fun o => !o.fin && !isColl o.ins).length < 32) && decide (e.team.count 1 < 255) &&
  !(e.s.blocks.any fun B => B.site == e.blk.site && B.bid != e.blk.bid && B.mat.owned)

def free (bad : Env → Ctx → Option (Nat × W64)) : Env → Ctx → Bool := fun e c => matRoom e && bad e c == none

def s2 : Opnd := .s 2
def s4 : Opnd := .s 4

theorem witness_MatrixInstructionsEnter :
    Met (matForm [fA s2 1]) (issOf hd) (tiled 4 [(2, 128)] id) (free fun e c =>
      firstFail [spwinIf e.blk [((c.uni 0 s2).toNat, 256 * rowBytes 4)], alignIf [((c.uni 0 s2).toNat, 128)]]) ∧
    Met (matForm []) (issOf hd) (tiled 4 [] id) (free fun e _ => firstFail [tileBad e.blk 0, tileBad e.blk 1]) ∧
    Met (matForm [fB s2 1]) (issOf hd) (tiled 4 [(2, 128)] id) (free fun e c =>
      firstFail [spwinIf e.blk [((c.uni 1 s2).toNat, 128 * qBits .q4)], alignIf [((c.uni 1 s2).toNat, 4)], planeBad e.blk 0 tagIsQ]) ∧
    Met (matForm [fB s2 1, fC s4 1]) (issOf hd) (tiled 4 [(2, 128), (4, 512)] id) (free fun e c => firstFail
      [spwinIf e.blk [((c.uni 1 s2).toNat, 256), ((c.uni 2 s4).toNat, 32)], tileBad e.blk 0, tileBad e.blk 1]) ∧
    Met (matForm [fB s2 1, fC s4 2]) (issOf hd) (tiled 4 [(2, 128), (4, 1024), (5, 2048)] id) (free fun e c => firstFail
      [spwinIf e.blk [((c.uni 1 s2).toNat, 128 * qBits .q4), ((loHalf (c.uni64 2 s4)).toNat, 256), ((hiHalf (c.uni64 2 s4)).toNat, 32)],
       alignIf [((c.uni 1 s2).toNat, 4)], tileBad e.blk 0, planeBad e.blk 0 tagIsQ]) ∧
    Met (matForm [fB s2 1, fC s4 1]) (issOf hd) (tiled 4 [(2, 128), (4, 512)] id) (free fun e c =>
      firstFail [spwinIf e.blk [((c.uni 1 s2).toNat, 32)], alignIf [((c.uni 1 s2).toNat, 32)], tileBad e.blk 0]) ∧
    Met (matForm [fB s2 1]) (issOf hd) (tiled 9 [(2, 128)] id) (free fun e c => firstFail
      [spwinIf e.blk [((c.uni 1 s2).toNat, 1024 * tagBytes 9)], alignIf [((c.uni 1 s2).toNat, 4)], tileBad e.blk 0,
        planeBad e.blk 0 fun g => g == 9]) ∧
    Met (matForm [fA s2 2, fB .zero 1]) (issOf hd) (tiled 4 [(2, w32 (locA 1024)), (3, w32 (locA 1024 / 2 ^ 32))] id) (free fun e c =>
      firstFail [imageBad e .b32 (c.uni64 0 s2).toNat 128, tileBad e.blk 0]) ∧
    Met (matForm [fB s2 1]) (issOf hd) (tiled 4 [] id) (free fun _ _ => none) ∧
    Met (matForm [fB s2 1]) (issOf hd) (tiled 4 [] fun t => { t with cnt := [(1, 255)] }) (fun e _ => decide (255 ≤ e.team.count 1)) ∧
    Met (matForm [fB s2 1]) (issOf hd) (tiled 0 [(2, 130)] id) (fun e c =>
      matRoom e && (firstFail [spwinIf e.blk [((c.uni 1 s2).toNat, 128 * qBits .q4)], alignIf [((c.uni 1 s2).toNat, 4)], planeBad e.blk 0 tagIsQ]).isSome) ∧
    (let s := tiled 4 [] id
     Met (matForm []) (issOf hd) { s with blocks := s.blocks ++ [{ block0 with bid := 3, mat := { newMatrix with owned := true } }] }
       (fun e _ => !e.blk.mat.owned && e.s.blocks.any fun B => B.site == e.blk.site && B.bid != e.blk.bid && B.mat.owned)) :=
  ⟨met_of (by decide +kernel), met_of (by decide +kernel), met_of (by decide +kernel), met_of (by decide +kernel), met_of (by decide +kernel),
    met_of (by decide +kernel), met_of (by decide +kernel), met_of (by decide +kernel), met_of (by decide +kernel), met_of (by decide +kernel),
    met_of (by decide +kernel), met_of (by decide +kernel)⟩

def cols (e : Env) : List Nat := (List.range 32).filter fun l => e.rcd.k0.getLsbD l

theorem witness_MatrixRegisterOperands :
    opV v0 = true ∧
    Met (matForm [colField v0 4]) (issOf hd) (tiled 4 [] id) (fun e c => matRoom e && (c.runCheck v0 4 (cols e) false).isNone &&
      planeBad e.blk 0 tagIsQ == none) ∧
    Met (matForm [colField v0 4, fC s4 2]) (issOf hd) (tiled 4 [(4, 1024), (5, 2048)] id) (fun e c => matRoom e &&
      (c.runCheck v0 4 (cols e) false).isNone && firstFail [spwinIf e.blk [((loHalf (c.uni64 2 s4)).toNat, 256), ((hiHalf (c.uni64 2 s4)).toNat, 32)],
        tileBad e.blk 0, planeBad e.blk 0 tagIsQ] == none) ∧
    Met (matForm [colField v0 16]) (issOf hd) (tiled 9 [] id) (fun e c => matRoom e && (c.runCheck v0 16 (cols e) false).isNone &&
      firstFail [tileBad e.blk 0, planeBad e.blk 0 fun g => g == 9] == none) ∧
    Met (matForm [fA v0 1, fB s2 1]) (issOf hd) (tiled 4 [(2, 2 ^ 13 * 3)] id) (fun e c => matRoom e &&
      (c.runCheck v0 4 (c.lanes.filter fun l => decide (l ≤ 255)) false).isNone) ∧
    Met (ctlForm [fB s2 1] [fD vd 1] .own false) (issOf hd) (tiled 4 [(2, 2 ^ 13 * 3)] id) (fun e c => matRoom e &&
      (c.runCheck vd 4 c.lanes true).isNone && tileBad e.blk 0 == none) ∧
    Met ⟨[], [fD vd 1], .ctl, some 4, .zero, false, false⟩ (issOf hd) (tiled 4 [] id) yes :=
  ⟨rfl, met_of (by decide +kernel), met_of (by decide +kernel), met_of (by decide +kernel), met_of (by decide +kernel), met_of (by decide +kernel),
    met_of (by decide +kernel)⟩

/-- An attention descriptor: one row, a sequence at address 0x10000, queries at 128, positions at 64, scores at 1024, P at 2048, O at 4096. -/
def attFields : List (Nat × Nat × Nat) := [(0, 8, 0x10000), (8, 4, 128), (12, 4, 64), (16, 4, 1024), (20, 4, 2048), (24, 4, 4096), (32, 2, 256), (34, 1, 1)]

/-- A call's message of two 16-byte units: entry 0x10000, one team of one lane, results at 1024. -/
def msgFields : List (Nat × Nat × Nat) := [(0, 8, 0x10000), (8, 1, 1), (9, 1, 1), (12, 1, 2), (16, 4, 1024)]

/-- `atPage` with a sequence descriptor in the page: its page list's attributes at 0x10100, two of them. -/
def platState : State :=
  let s := atPage
  let p : Nat → Nat → Nat → Memory → Memory := fun off n v m => setBytes m (physOf State.reset 0 0 false (0x130000 + off)).loc (leBytes n v)
  let m := p 0x28 8 0x10100 (p 0x30 4 2 (p 0x100 4 7 s.mem))
  { s with mem := m, blocks := s.blocks.map fun b => { b with teams := b.teams.map fun t => { t with s := [(0, 0x10000)] } } }

theorem witness_FarOperationsAndPlat :
    (let big : List (Nat × Nat × Nat) → SMap W32 → State := fun l s =>
       stateOf id (fun b => { b with scratchLen := 65536, scratch := bytesAre l }) fun t => { t with s := s }
     let F : List Field → Bool → Form := fun l sta => ctlForm l [] .zero sta
     (∀ k ∈ [AttKind.scores, .values, .masses], Met (F [fA .zero 1, fB .zero 1, fC s2 1] true) (issOf hd) (big attFields [(2, 1)])
       (fun e c => attCheck e.blk k 0 (c.uni 2 s2).toNat == none && decide (e.blk.atts.length < 2) && decide (e.team.count 4 < 255))) ∧
     Met (F [fA .zero 1, fB .zero 1, fC s2 1] true) (issOf hd) (big [] []) (fun e _ => (attCheck e.blk .scores 0 0).isSome) ∧
     Met (F [fA .zero 1] false) (issOf hd) (big [(0, 8, 0x10000)] []) (fun e _ => evictCheck e.blk 0 == none && decide (e.team.count 4 < 255)) ∧
     Met (F [fA .zero 1, fB .zero 2, fC s2 1] false) (issOf hd) (big [] [(2, 256)]) (fun e c =>
       decide (0 < (c.uni 2 s2).toNat ∧ (c.uni 2 s2).toNat ≤ 256 ∧ 32 + 144 * (c.uni 2 s2).toNat ≤ e.blk.scratchLen ∧ e.team.count 5 < 255)) ∧
     Met (F [fA .zero 1, fB .zero 1, fC .zero 1] false) (issOf hd) (big msgFields []) (fun e c => c.relHold true .dev == none &&
       nmCheck e.blk 0 (some 0) none == none && decide ((blockCalls e.s e.blk).length < 8) && decide (e.team.count 3 < 255)) ∧
     Met (F [fA .zero 1, fB .zero 1, fC .zero 1] false) (issOf hd)
       (stateOf id (fun b => { b with scratch := bytesAre msgFields }) fun t => { t with cnt := [(3, 255)] }) (fun e c => c.relHold true .dev == none &&
       nmCheck e.blk 0 (some 0) none == none && decide (255 ≤ e.team.count 3))) ∧
    (∀ t ∈ [(vd, false), (Opnd.s 4, true)],
      Met ⟨[fA (.s 0) 2, fB .lit 1], [fD t.1 1], if t.2 then .scalar else .vec, none, .own, false, false⟩ (issOf { hd with lit := some 1 }) platState
        (fun e c =>
          let ls := if t.2 then [e.low c.m] else c.lanes
          let rs := c.resolveLanes (ls.filter fun l => decide ((c.rd 1 .lit l).toNat < 2)) (fun l => (0x10100 + 4 * (c.rd 1 .lit l).toNat) % 2 ^ 64) 4 0 (c.poisonAt 4)
          (match c.platHead (c.uni64 0 (.s 0)).toNat with
            | .ok q => q == (0x10100, 2)
            | .error _ => false) && firstBad rs [] == none && oneKeyB (goodAccs rs) 0 && inMem (goodAccs rs))) :=
  ⟨⟨all_of _ (by decide +kernel) fun _ h => met_of h, met_of (by decide +kernel), met_of (by decide +kernel), met_of (by decide +kernel),
    met_of (by decide +kernel), met_of (by decide +kernel)⟩, all_of _ (by decide +kernel) fun _ h => met_of h⟩
end
section
/-- `mapped` with these fields of memory, by physical address under interleaving 0: address, bytes, value. -/
def withMem (l : List (Nat × Nat × Nat)) (s : State) : State :=
  { s with mem := l.foldl (fun m f => setBytes m (physOf State.reset 0 0 false f.1).loc (leBytes f.2.1 f.2.2)) s.mem }

/-- The call by address: a page at 0x20000 that lies in one stack (interleaving code 2). -/
theorem witness_FarOperationsAndPlat_byAddress :
    Met (ctlForm [fA .zero 1, fB s2 2, fC .zero 1] [] .zero false) (issOf hd)
      (let s := withMem [(0x128010, 8, 0x140000 + 2 ^ 12 + 0x3F + 0x80)] (mapped fun t => { t with s := [(2, 0x20000)] })
       { s with blocks := s.blocks.map fun b => { b with scratch := bytesAre msgFields } })
      (fun e c => c.relHold true .dev == none && nmCheck e.blk 0 none none == none &&
        (match nmStack e (c.uni64 1 s2).toNat with
          | .ok n => decide (n < 8)
          | .error _ => false) && decide ((blockCalls e.s e.blk).length < 8) && decide (e.team.count 3 < 255)) :=
  met_of (by decide +kernel)

def stLone (e : Env) : Bool := e.station && e.team.records == [e.rcd] && e.rcd.held.isNone

/-- A gather of one row of 16 bytes, from a table of four rows at offset 1024 of the station's own scratchpad. -/
def rgFields (n ix : Nat) : List (Nat × Nat × Nat) := [(0, 8, locA 1024), (8, 8, locA 2048), (20, 4, 4), (24, 4, 16), (32, 4, 512), (36, 4, n), (512, 4, ix)]

def stScratch (l : List (Nat × Nat × Nat)) : State := atStation (fun b => { b with scratchLen := 65536, scratch := bytesAre l }) id

/-- A drain of at most one packet of collective 0, without a report. -/
def drainFields : List (Nat × Nat × Nat) := [(4, 2, 1), (8, 4, 2 ^ 32 - 1)]

/-- A packet of one 32-bit 0 for address 0x800, with the closure word given. -/
def redPkt (clos : W64) : RedPkt := ⟨0, 0, BitVec.ofNat 256 (2 ^ 128 * clos.toNat), 0x800, 1, [0, 0, 0, 0], false⟩

def redPre (ok : Bool) : Env → Ctx → Bool := fun e _ =>
  drainCheck e.blk 0 == none && match e.s.redq.filter (fun p => p.stack == 0) with
  | [] => ok
  | [k] =>
    let hd := chdrOf k.hdr
    let dr := drainOf e.blk.scratch 0
    let r := reduceCheck (hd.fmt % 16) (hd.fmt / 16 % 4) (elems 0 (bytesAt e.s.mem k.dst 4)) false (elems 0 k.data) hd.closure
    hd.id == dr.id && hd.gen == dr.gen && !k.poisoned && (poisonLine e.s k.dst 4).isNone && (r.2.1 && r.2.2) == ok
  | _ => false

theorem witness_StationInstructions :
    Met (ctlForm [] [] .run true) (issOf hd) one (fun e _ => !e.station) ∧
    (∀ n ∈ [0, 64], Met (ctlForm [fA .zero 1, fB .lit 1] [] .run true) (issOf { hd with lit := some (w32 n) }) (stScratch [])
      (fun e c => stLone e && e.blk.ret.isNone && (c.uni 1 .lit).toNat == n)) ∧
    Met (ctlForm [fA .zero 1] [fD vd 1] .run true) (issOf hd) (stScratch (rgFields 0 0)) (fun e _ => e.station && rgathCheck e.blk 0 == none &&
      e.blk.objs.isEmpty && (gatherOf (e.blk.copyOut 0 64)).n == 0) ∧
    (∀ ix ∈ [3, 4], Met (ctlForm [fA .zero 1] [fD vd 1] .run true) (issOf hd) (stScratch (rgFields 1 ix)) (fun e c =>
      let g := gatherOf (e.blk.copyOut 0 64)
      let row := if ix < g.rows then ix else g.defrow
      let begun := beginIssue [(ctlForm [fA .zero 1] [fD vd 1] .run true, c)] e (issOf hd)
      e.station && rgathCheck e.blk 0 == none && e.blk.objs.isEmpty && g.n == 1 && e.blk.num g.idx 4 == ix &&
        match begun.block? e.who.bid with
        | none => false
        | some b1 => match cleanRead b1 e.la (g.table + row * g.rowb) g.rowb (rowTouch begun b1 e.la g.table g.rowb row (g.table + row * g.rowb)) with
          | .ok q => q.1.length == g.rowb
          | .error _ => false)) ∧
    (∀ t ∈ [([], true), ([redPkt (closureWord 0 [0] false)], true), ([redPkt 1], false)],
      Met (ctlForm [fA .zero 1] [fD vd 1] .run true) (issOf hd) { stScratch drainFields with redq := t.1 } (redPre t.2)) :=
  ⟨met_of (by decide +kernel), all_of _ (by decide +kernel) fun _ h => met_of h, met_of (by decide +kernel), all_of _ (by decide +kernel) fun _ h => met_of h,
    all_of _ (by decide +kernel) fun _ h => met_of h⟩

/-- A remote descriptor at offset 0: eight elements of 32 bits at 1024, its group at 64 (one rank, rank table at 128), for rank 0's
offset 2048, armed by bit 0 of scoreboard 0. -/
def rdescFields : List (Nat × Nat × Nat) := [(8, 4, 1024), (12, 4, 8), (16, 8, 2048), (24, 4, 2 ^ 32 - 1), (28, 4, 64), (36, 8, 1)]
def gdescFields : List (Nat × Nat × Nat) := [(68, 2, 1), (72, 4, 128), (88, 4, 1)]

/-- The same for an address of memory. -/
def memDesc : List (Nat × Nat × Nat) := [(0, 1, 4), (8, 4, 1024), (12, 4, 8), (16, 8, 0x10000), (24, 4, 2 ^ 32 - 1), (28, 4, 64)]

/-- A collective of the block that team 1 has issued and that has not started. -/
def aColl : CollOpS := ⟨9, .allred, false, 0, 64, none, [(1, 9)], false, 0, (0, 0), false, [], [], [], [], [], [], [], [], [], false, false⟩

def withTile : Matrix := { newMatrix with istat := [(0, ⟨true, false, 0, 0, 0, 0⟩)] }

theorem witness_CollectiveInstructions :
    (let fr := ctlForm [fA .zero 1, fC .zero 1] [] .zero false
     let sf : List Field → List Field → ProbeK → Form := fun srcs dsts pr => ⟨srcs, dsts, .ctl, some 4, pr, false, false⟩
     let S : State := scratched (rdescFields ++ gdescFields) []
     let reg : Env → Nat → Bool := fun e o => regCheck e.s e.la e.blk (gdescOf e.blk.scratch o) == .ok
     Met fr (issOf hd) S (fun e _ => e.who.team == e.la.hdr.chain && sendCheck e.blk 0 (e.blk.copyOut 0 64) false false none == none &&
       sendCheck e.blk 0 (e.blk.copyOut 0 64) true false none == none && reg e 64 && (rdescOf (e.blk.copyOut 0 64)).grp == 64 &&
       decide (e.blk.sends.length < 16) && decide (e.team.count 2 < 255) && (rdescOf (e.blk.copyOut 0 64)).dstK != 1) ∧
     Met fr (issOf hd) (let s := mapped id; { s with blocks := s.blocks.map fun b => { b with scratch := bytesAre (memDesc ++ gdescFields) } })
       (fun e _ => e.who.team == e.la.hdr.chain && sendCheck e.blk 0 (e.blk.copyOut 0 64) false false none == none && reg e 64 &&
         (rdescOf (e.blk.copyOut 0 64)).dstK == 1 && match sendPlaces e.s e.blk e.la (rdescOf (e.blk.copyOut 0 64)) false with
           | .ok l => !l.isEmpty
           | .error _ => false) ∧
     Met fr (issOf hd) (stateOf (fun l => { l with hdr := { l.hdr with chain := 1 } }) id id) (fun e _ => e.who.team != e.la.hdr.chain) ∧
     Met fr (issOf hd) (stateOf id (fun b => { b with scratch := bytesAre (rdescFields ++ gdescFields) }) fun t => { t with cnt := [(2, 255)] })
       (fun e _ => e.who.team == e.la.hdr.chain && sendCheck e.blk 0 (e.blk.copyOut 0 64) false false none == none && reg e 64 && decide (255 ≤ e.team.count 2)) ∧
     Met (sf [fA .zero 1, fB .lit 1] [] .zero) (issOf { hd with lit := some 15 }) S (fun e c => (c.uni 1 .lit).toNat == 15 &&
       sendCheck e.blk 0 (e.blk.copyOut 0 64) ((rdescOf (e.blk.copyOut 0 64)).top == 1) true none == none && reg e 64) ∧
     (∀ n ∈ [15, 16], Met (sf [fB .lit 1] [] .zero) (issOf { hd with lit := some (w32 n) }) one (fun _ c => (c.uni 1 .lit).toNat == n)) ∧
     Met (sf [fA (.s 0) 2] [] .zero) (issOf hd) one yes ∧ Met (sf [] [fD vd 2] .run) (issOf hd) one yes ∧
     (∀ n ∈ [0, 8], Met ⟨[fA .zero 1, fB .lit 1, fC .zero 1], [fD vd 2], .ctl, none, .run, true, false⟩ (issOf { hd with lit := some (w32 n) }) one
       (fun e c => (c.uni 1 .lit).toNat == n && (c.uni 2 .zero).toNat == 0 && decide (n * 4 ≤ e.blk.scratchLen) && poisonUnit e.blk (0, n * 4) == none)) ∧
     (∀ t ∈ [([], true), ([aColl], false)],
       Met (ctlForm [fA .lit 1, fC .zero 1] [] .zero false) (issOf { hd with lit := some 64 })
         (stateOf id (fun b => { b with scratch := bytesAre gdescFields, mat := withTile, colls := t.1 }) id)
         (fun e _ => collCheck e.blk 64 none false == none && reg e 64 && (e.blk.itile 0).valid && decide (e.team.count 2 < 255) &&
           (e.blk.colls.find? fun k => joinColl k e.who.team).isNone == t.2 && (!t.2 || decide (e.blk.collGroups.length < 4) &&
             decide ((e.la.ctx, (gdescOf e.blk.scratch 64).id) ∉ e.blk.collGroups))))) :=
  ⟨met_of (by decide +kernel), met_of (by decide +kernel), met_of (by decide +kernel), met_of (by decide +kernel), met_of (by decide +kernel),
    all_of _ (by decide +kernel) fun _ h => met_of h, met_of (by decide +kernel), met_of (by decide +kernel), all_of _ (by decide +kernel) fun _ h => met_of h,
    all_of _ (by decide +kernel) fun _ h => met_of h⟩

/-- A bundle open in slot 0 of team 0. -/
def aBundle : Bundle := ⟨9, 0, 0, 0, 0, 0, 0, 0, 7, 5, 0, 0, .open_, [], [], [], [], [], false, 0, 0, false, 0, []⟩

def bundled : State :=
  let s := mapped fun t => { t with v := [(0, 0x10000)], slots := (⟨true, false, 0, 0, 5, 7⟩ : Slot) :: t.slots.drop 1 }
  { s with bundles := [aBundle] }

def ldvPre (want : Snap → Bool) : Env → Ctx → Bool := fun _ c =>
  let rs := c.resolveLanes c.lanes (c.ea true v0 .zero) 4 0 noExtra
  firstBad rs [] == none && !(goodAccs rs).isEmpty && (goodAccs rs).all fun q => !offDevice .dev q && want (c.ldvLane 4 q)

theorem witness_BundleInstructions :
    (let bf : List Field → List Field → ProbeK → Form := fun srcs dsts pr => ⟨srcs, dsts, .ctl, some 4, pr, false, false⟩
     Met (bf [fA .lit 1] [] .zero) (issOf { hd with lit := some (2 ^ 24 - 1) }) one (fun e c => decide ((c.uni 0 .lit).toNat < 2 ^ 24) &&
       !(e.team.slot 0).open_ && !(e.team.slot 0).cmt && e.s.bundles.isEmpty && e.s.quars.isEmpty) ∧
     Met ⟨[fA v0 2, fB .zero 1, fC v1 1], [], .vec, none, .own, false, false⟩ (issOf hd) bundled (fun e c =>
       let stores := c.resolveLanes c.lanes (c.ea true v0 .zero) 4 1 noExtra
       (e.team.slot 0).open_ && teamBundle? e.s e.blk e.who.team 0 == some aBundle && c.lanes == [0] && firstBad stores [] == none &&
         e.s.pendLines.isEmpty && match goodAccs stores with
         | [(0, _, .mem _ p)] => p.kind == .own && !homeRemote e.s (homeOfLine e.s p.line)
         | _ => false) ∧
     Met (bf [] [] .zero) (issOf hd) bundled (fun e _ => (e.team.slot 0).open_ && teamBundle? e.s e.blk e.who.team 0 == some aBundle &&
       decide (e.team.count 5 < 255)) ∧
     Met (bf [] [] .zero) (issOf hd) one (fun e _ => !(e.team.slot 0).open_) ∧
     Met (bf [] [fD vd 2] .run) (issOf hd) one yes ∧ opIsS vd = false ∧
     Met ⟨[fA v0 2, fB .zero 1], [fD vd 1, .mask 2 1], .vec, none, .zero, false, false⟩ (issOf hd) atPage (ldvPre fun x => match x with
       | .at_ _ p _ _ => !p
       | _ => false) ∧
     Met ⟨[fA v0 2, fB .zero 1], [fD vd 1, .mask 2 1], .vec, none, .zero, false, false⟩ (issOf hd) { atPage with time := 2 ^ 40 } (ldvPre fun x => match x with
       | .frac _ => true
       | _ => false)) :=
  ⟨met_of (by decide +kernel), met_of (by decide +kernel), met_of (by decide +kernel), met_of (by decide +kernel), met_of (by decide +kernel), rfl,
    met_of (by decide +kernel), met_of (by decide +kernel)⟩
end
section
/-! Events. -/

def upState : State := setBar State.reset 0x1E0000 0x40000000

theorem witness_HostRegisterEvents :
    ready State.reset = false ∧ ready upState = true ∧
    (let s := setBar State.reset 0x1E0000 0x10000000
     bitsOf (bar s 0x1E0000).toNat 29 28 = 1 ∧ 4092 < 4096 ∧ 4092 % 4 = 0) ∧
    keyInUse State.reset 1 = false ∧ keyInUse State.reset 127 = false ∧
    keyInUse (setBar upState (ctxBase 0) 0x87F00000) 127 = true ∧
    (ctxResident upState 0 = false ∧ rowWaysTotal upState 7 - smGet 0 upState.rowWays (64 * 7) + 8 ≤ 12) ∧
    portsUp upState = 0 ∧ portsUp (setBar upState 0x1D0008 1) ≠ 0 ∧ 6 % 4 ≠ 0 := by decide +kernel

/-- Context 0 enabled beside the register file being up, and queue 0 over a ring of 4 KiB at 0x10000. -/
def queueRegs (s : State) : State :=
  [(0x1E0000, (0x40000000 : W32)), (ctxBase 0, 0xC0000000), (qBase 0, 0x10000), (qBase 0 + 8, 0x8000000C), (qBase 0 + 0x20, 0x11000), (qBase 0 + 0x28, 4)].foldl
    (fun s p => setBar s p.1 p.2) s

theorem witness_ContextAndQueueEvents :
    (ready upState = true ∧ ctxEn upState 63 = false) ∧
    (let s := queueRegs one
     ready s = true ∧ ctxEn s 0 = true ∧ queueCtx s 0 = 0 ∧ (bar s (qBase 0 + 8)).getLsbD 31 = true ∧ queueRuns s 0 = true) ∧
    ((bar upState (qBase 63 + 8)).getLsbD 31 = false ∧ (0x8000000C : W32).getLsbD 31 = true ∧ occupancy upState 63 = 0) ∧
    (let s := queueRegs one
     ringSize s 0 / 16 < ((257 : W32) - bar s (qBase 0 + 0x14)).toNat ∧ (0 : W32) = bar s (qBase 0 + 0x14)) ∧
    (let s := setBar (queueRegs State.reset) (qBase 0 + 0xC) 0x80110000
     (bar s (qBase 0 + 0xC)).getLsbD 31 = true ∧ (bar s (qBase 0 + 0xC)).getLsbD 30 = false ∧ occupancy s 0 = 0) := by decide +kernel

/-- A queue whose ring holds one packet of an opcode, with the units of its body. -/
def queued (op : Nat) (body : List Nat) : State :=
  let s := withMem ((0x130000, 16, op + 256 * (1 + body.length)) :: body.zipIdx.map fun p => (0x130010 + 16 * p.2, 16, p.1)) (mapped id)
  setBar (queueRegs { s with blocks := [], launches := [] }) (qBase 0 + 0x10) (w32 (1 + body.length))

def clearB (s : State) (p : Pkt) : Bool := s.packets.isEmpty && occupancy s 0 == p.len && mayPost s 0 && s.posts.isEmpty

/-- The packet starts, and `p` says what else of it. -/
def startsB (op : Nat) (s : State) (p : Pkt → Bool) : Bool := match startOf s 0 op with
  | some k => p k
  | none => false

/-- Writes of the queue's packets that are not yet complete. -/
def unreleased (s : State) : State := { s with qgwct := [(0, 1)] }

/-- A range unit: one page at 0x10000, with a hint. -/
def rangeU (hint : Nat) : Nat := 0x10000 + 2 ^ 64 + 2 ^ 96 * 1 + 2 ^ 104 * hint

/-- The body of a `LAUNCH` of one lane at 0x10000. -/
def launchBody : List Nat := [0x10000, 1 + 2 ^ 32 + 2 ^ 64 + 2 ^ 96, 1 + 2 ^ 32, 0, 0, 0, 0, 0]

def la9 : Launch := { launch0 with pid := 9, hdr := { launch0.hdr with pre := true } }

theorem witness_QueuePackets :
    ([(0, []), (8, []), (13, [4]), (14, [5 + 2 ^ 32 * 0x15])].all fun t => startsB t.1 (queued t.1 t.2) fun p =>
      clearB (queued t.1 t.2) p && (t.1 != 14 || ovtabLegal (bytesOf p.unit 4 4))) = true ∧
    (startsB 6 (queued 6 [0x10801]) fun p => unitAddr p.unit % 8 == 1 && mayPost (queued 6 [0x10801]) 0) = true ∧
    (startsB 6 (unreleased (queued 6 [0x10800 + 2 ^ 64 * 5])) fun _ => !mayPost (unreleased (queued 6 [])) 0) = true ∧
    (startsB 12 (unreleased (queued 12 [0x10800])) fun _ => true) = true ∧
    (startsB 9 (unreleased (queued 9 [0])) fun p => bytesOf p.unit 8 4 == 0) = true ∧
    (let s := queued 4 [rangeU 0]
     startsB 4 s fun p => !(mappedPages s 0 (rangePages p.body)).2 && rangePages p.body == [0x10000] && s.evicts.isEmpty) = true ∧
    ([rangeU 0, rangeU 1].any fun u => startsB 2 (queued 2 [u]) fun p =>
      (stagePlaced (queued 2 [u]) 0 ((p.body.map wsOf).flatMap fun w => (wsPages [w]).map fun va => (va, w.hint))).isSome) = true ∧
    ([rangeU 0, rangeU 1].any fun u => startsB 2 (queued 2 [u]) fun p =>
      (stagePlaced (queued 2 [u]) 0 ((p.body.map wsOf).flatMap fun w => (wsPages [w]).map fun va => (va, w.hint))).isNone) = true ∧
    (let s := queued 3 [rangeU 0]
     startsB 3 s fun p => rangePages p.body == [0x10000] && clearB s p && decide (pageHolds s (pageKey 0 0x10000) < 65535) &&
       match findLeaf s 0 0x10000 with
       | some tr => !tr.host
       | none => false) = true ∧
    ([(0x10800, false), (0x10800 + 2 ^ 64, true)].all fun t => startsB 7 (queued 7 [t.1]) fun p =>
      !depMet (queued 7 [t.1]) 0 (unitAddr p.unit, unitVal p.unit) == t.2 && clearB (queued 7 [t.1]) p) = true ∧
    (startsB 1 (queued 1 launchBody) fun p => (unstarted? (queued 1 launchBody) 0 p).isNone) = true ∧
    (let s := { queued 10 [2 ^ 72] with launches := [{ la9 with state := .stopped }] }
     startsB 10 s fun p => byteOf p.unit 9 == 1 && (namedLaunch s p.unit).any fun l => resumable s l) = true ∧
    (let s := { queued 10 [0] with launches := [{ la9 with state := .stopped }], saved := [⟨block0, 0x3F, true⟩] }
     startsB 10 s fun p => byteOf p.unit 9 == 0 && (namedLaunch s p.unit).any fun l => resumable s l &&
       s.saved.any fun v => v.blk.q == l.q && v.blk.lseq == l.lseq) = true ∧
    (let s := { queued 11 [0] with launches := [la9], blocks := [block0] }
     startsB 11 s fun p => (namedLaunch s p.unit).any fun l => l.hdr.pre && l.state == .running && l.stop.isNone &&
       !(preemptBlocks s l (byteOf p.unit 9) (byteOf p.unit 10)).isEmpty) = true ∧
    (let k : Packet := ⟨9, 0, 0, 7, 0, false, none, 0, [0x10800], 0, false, 0⟩
     let s := { queued 0 [] with packets := [k] }
     depMet s 0 (unitAddr (k.body.getD 0 0), unitVal (k.body.getD 0 0)) = true ∧ mayPost s 0 = true ∧ s.posts = []) ∧
    (let o : Post := ⟨0, 0, none⟩
     let s := { queueRegs State.reset with posts := [o] }
     s.posts.find? (fun k => k.q == 0) = some o ∧ mayPost s 0 = true ∧ occupancy s 0 = 0) := by decide +kernel

end
section
/-- Context 0 of `mapped` with room for records, one launch and no blocks. -/
def staged (f : Launch → Launch) (l : List (Nat × Nat × Nat)) : State :=
  let s := withMem l (mapped id)
  setBar (setBar { s with blocks := [], launches := [f { launch0 with pid := 9, recBase := none }] } (ctxBase 0 + 0x20) 256) (ctxBase 0 + 0x10) 0x10000000

def toStage (ws : List WsEntry) : State := staged (fun l => { l with state := .staging, ws := ws }) []

def stagingB (s : State) (ws : List WsEntry) : Bool := (s.launch? 0 0).any fun la =>
  la.state == .staging && !la.staged && la.status == 0 && la.held == 0 && la.pid != 0 && la.ws == ws && wsGranted s la.ctx la.ws &&
    decide (fastNeed s la.ctx la.ws ≤ 2 ^ 23) && wsPlaced s la.ctx la.ws && everPlaced s la

def onePage : WsEntry := ⟨0x10000, 1, 1, 0⟩
def aReq : PageReq := ⟨3, 0, 1, true, 0, 0, 0, .pri, false⟩

/-- A leaf at 0x20000 that names host memory, pinned. -/
def hostLeaf : List (Nat × Nat × Nat) := [(0x128010, 8, 2 ^ 50 + 0x140000 + 2 ^ 12 + 0x3F)]

theorem witness_PageAndPlacementEvents :
    stagingB (toStage []) [] = true ∧
    (stagingB (toStage [onePage]) [onePage] && wsPages [onePage] == [0x10000] && decide (pageHolds (toStage [onePage]) (pageKey 0 0x10000) < 65535) &&
      (findLeaf (toStage [onePage]) 0 0x10000).any fun t => !t.host || t.pin) = true ∧
    (let s := staged (fun l => { l with ws := [onePage] }) []
     let s := { s with blocks := [block0] }
     (findLeaf s 0 0x10000).any fun t => pageBusy s 0 t) = true ∧
    (let s := { toStage [] with preqs := [aReq] }
     s.preqs.find? (fun k => k.slot == 3 && k.phase == .pri) = some aReq ∧ (∀ k ∈ s.preqs, k.phase ≠ .waiting) ∧ aReq.killed = false ∧
       (s.launch? aReq.q aReq.key).any (fun l => l.state == .staging) = true) ∧
    (let r := { aReq with killed := true }
     let s := { State.reset with preqs := [r] }
     s.preqs.find? (fun k => k.slot == 3 && k.phase == .pri) = some r ∧ ∀ k ∈ s.preqs, k.phase ≠ .waiting) ∧
    (let s := staged (fun l => { l with state := .staging, pid := 0 }) []
     let s := { s with preqs := [aReq], time := 100000001 }
     (s.launch? 0 0).any (fun l => l.state == .staging && l.pid == 0) = true ∧
       aReq.since + (bar s 0x2000000).toNat % 65536 * 1000000 < s.time ∧
       ¬ aReq.since + (bar s 0x2000000).toNat % 65536 * 1000000 < 100000000) ∧
    (let r := { aReq with phase := .ats, launch := false, key := 9 }
     let s := { State.reset with preqs := [r] }
     s.preqs.find? (fun k => k.slot == 3 && k.phase == .ats) = some r ∧ s.packets = [] ∧ (slotsUsed s).length < 256 ∧ ∀ k ∈ s.preqs, k.phase ≠ .waiting) ∧
    (let s := withMem hostLeaf (mapped id)
     (List.range 64).filter (fun c => ctxEn s c && ctxPasid s c == 0) = [0] ∧ ((findLeaf s 0 0x20000).any fun t => t.host && t.pin) = true) ∧
    (let s := staged (fun l => { l with state := .eligible }) []
     (s.launch? 0 0).any (fun la => !neverPlaced s la && unitLen la.hdr == 1 && !goesFirst s la [0] && wantsPlace la &&
       coreFits s 0 (Reserve.mine 0 0 0) (needOf la.hdr) && pointReady s la 0 && (reserveRecord s la (la.hdr.linear la.nextIdx)).isSome) = true) ∧
    (let s := { staged (fun l => { l with state := .eligible }) [] with time := 1000000 }
     (s.launch? 0 0).any (fun la => awaitsPlace s la && decide (la.waitSince + 1000000 * (la.waited + 1) ≤ s.time) && decide (la.prio + la.waited < 63)) = true) := by
  decide +kernel

/-- A context with one page mapped, and nothing that holds it. -/
def roomy : State :=
  setBar { staged (fun l => { l with ws := [onePage] }) [] with blocks := [], launches := [], packets := [] } (ctxBase 0) 0

theorem firstFrom_second {p : Nat → Bool} {k : Nat} (hk : 2 ≤ k) (h0 : p 0 = false) (h1 : p 1 = true) : firstFrom p 0 k = some 1 := by
  obtain ⟨n, rfl⟩ : ∃ n, k = n + 2 := ⟨k - 2, by omega⟩
  simp [firstFrom, h0, h1]

theorem freeFrame_second {s : State} {size : Nat} (hk : 2 ≤ Config.fastBytes / size)
    (h0 : frameFree (usedRegions s) 1 0 size = false) (h1 : frameFree (usedRegions s) 1 size size = true) :
    freeFrame s size 0 1 0 = some size := by
  have h := firstFrom_second (p := fun i => frameFree (usedRegions s) 1 (size * i) size) hk (by simpa using h0) (by simpa using h1)
  simp [freeFrame, h]

/-- The second page of the fast tier is free, and the first is not. -/
theorem witness_freeFrame : freeFrame roomy 65536 0 1 0 = some 65536 :=
  freeFrame_second (by decide) (by decide +kernel) (by decide +kernel)

theorem witness_PageMove : ((findLeaf roomy 0 0x10000).any fun t => t.size == 65536 && (t.phys roomy 0x10000).kind == .own &&
    !pageBusy roomy 0 t && mayGoOut roomy 0 t) = true ∧ roomy.packets = [] := by
  decide +kernel

/-- A `MOVEHOME` of the mapped page to the fast tier; its frame is free as in `witness_freeFrame`. -/
def toFast : State := { queued 5 [0x10000 + 2 ^ 64 + 2 ^ 104] with blocks := [], launches := [] }

theorem witness_Movehome : (startsB 5 toFast fun p => unitPages p.unit == [0x10000] && byteOf p.unit 12 == 0 && byteOf p.unit 13 == 1 &&
    byteOf p.unit 14 == 0 && (findLeaf toFast 0 0x10000).any fun t => t.vbase == 0x10000 && t.size == 65536 &&
      (t.phys toFast t.vbase).kind == .own && !pageBusy toFast 0 t) = true := by
  decide +kernel

/-- A team's one record as given. -/
def recIs (f : Record → Record) (t : Team → Team) : State := stateOf id id fun u => t { u with records := u.records.map f }

def aClaim (need : Nat) : ClaimReq := ⟨0, ⟨1, 0, 0⟩, 8, need, w64 0x20000, 0⟩

def aStop : Stop := ⟨5, w64 progVa, 0, 0, 0, 0, 0, 0, true, false, []⟩

def aProbe : Probe := ⟨⟨team2.records, [], [], [], [], [], 0⟩, 0, w64 progVa, 0, 0, 0, 0, [], [], [], [], []⟩

theorem witness_WaitAndCaptureEvents :
    ((one.block? 1).isSome && ((one.block? 1).bind fun b => b.team? 0).isSome && !(tmvKeys block0 0).contains (.v 3)) = true ∧
    (let s := recIs (fun r => { r with wait := .release .sys }) fun t => { t with gwct := 0 }
     ((s.team? 1 0).any fun u => releaseDone u s.time .sys) = true) ∧
    (let s := recIs (fun r => { r with wait := .release .sys }) fun t => { t with unacked := [2 ^ 43], lastHost := 2 ^ 50 }
     ((s.team? 1 0).any fun u => (u.records.any fun r => r.wait == .release .sys) && u.lastHost != 0 && u.unacked.all hostLine) = true) ∧
    (∀ p ∈ [(5, 5, true), (6, 5, false)], (decide (p.1 ≤ p.2.1) : Bool) = p.2.2 ∧
      ((recIs (fun r => { r with wait := .pause p.1 }) id).team? 1 0).any (fun u => (u.rec? 0).any fun r => r.wait == .pause p.1) = true) ∧
    (let s := recIs (fun r => { r with wait := .yield 0 [] }) id
     ((s.team? 1 0).any fun u => (u.rec? 0).any fun r => r.wait == .yield 0 [] && decide (0 ≤ s.time))) = true ∧
    (let s := { one with time := 100000 }
     ((s.team? 1 0).any fun u => (u.rec? 0).any fun r => mayIssue u r && decide (r.readySince + cyclesNs s block0 1024 ≤ s.time))) = true ∧
    (let s := stateOf id id fun t => { t with halted := true, hostWait := [(.v 3, 3)], waits := [(.v 3, 3)] }
     ((s.team? 1 0).any fun u => u.halted && u.hostWait == [(.v 3, 3)] && decide (0 < u.lanes) && (3 : LaneMask).getLsbD 0)) = true ∧
    (let s := { recIs (fun r => { r with alloc := 80, wait := .claim 8 false (w64 0x20000) }) (fun t => { t with drawn := 160 }) with claims := [aClaim 16] }
     s.claims.find? (fun k => k.core == 0) = some (aClaim 16) ∧ (aClaim 16).need ≤ poolFree s 0 ∧ (aClaim 16).who = ⟨1, 0, 0⟩ ∧
       (s.team? 1 0).any (fun u => (u.rec? 0).isSome && u.records.all fun q => q.num == 0 || q.pc != w64 0x20000) = true) ∧
    (let s := { recIs (fun r => { r with alloc := 80, wait := .claim 8 false (w64 0x20000) }) (fun t => { t with drawn := 196600 }) with claims := [aClaim 16] }
     poolFree s 0 < (aClaim 16).need ∧ ((coreRecords s 0).all fun p => p.2.2.wait.isClaim && !p.2.1.halted) = true ∧
       (s.launches.all fun l => l.stop.isNone && (coreRecords s 0).any fun p => p.1.q == l.q && p.1.lseq == l.lseq) = true) ∧
    (let s := { (stateOf id id fun t => { t with probe := some aProbe }) with time := 100000 }
     ((s.block? 1).any fun b => probeOver s b aProbe)) = true ∧
    (let s := stateOf (fun l => { l with state := .stopping, stop := some aStop, halting := [1] }) id fun t => { t with halted := true }
     (s.launch? 0 0).any (fun l => l.stop == some aStop && l.halting == [1]) = true ∧ aStop.reason = 0 ∧
       ((s.launch? 0 0).any fun la => s.blocks.all fun k => captureReady s la k) = true) ∧
    (let s := { staged id [] with saved := [⟨block0, 5, false⟩] }
     (s.launch? 0 0).any (fun la => !neverPlaced s la && la.state == .running && savedUnit s la 0 == [⟨block0, 5, false⟩] && !goesFirst s la [0] &&
       coreFits s 0 (Reserve.mine 0 0 0) (savedNeed block0) && pointReady s la 0 &&
       (match readRecord s la ⟨block0, 5, false⟩ with
         | .ok v => v == ⟨block0, 5, false⟩
         | .error _ => false)) = true ∧ (block0.teams.map Team.idx).Nodup ∧ block0.copies = [] ∧
       (block0.teams.any fun m => !m.left && m.records.any fun x => x.k0 != 0) = true) := by decide +kernel
end
section
theorem witness_CopyEngineSteps :
    (let s := stateOf id (fun b => { b with copies := [aCopy] }) id
     ((s.block? 1).any fun b => (b.copy? 9).any fun o => o.phase == .running && decide (o.done < o.total) && engineRuns launch0 b &&
       ((o.step b).moves.findSome? (moveFail s b launch0)).isNone && o.kind == .tfill && o.bar.isNone && b.objs.isEmpty &&
       (numAt o.desc 0 4 + 4 * o.done) % 4 == 0 && decide (numAt o.desc 0 4 + numAt o.desc 4 4 ≤ b.scratchLen)) = true) ∧
    (let w : CbWaiter := ⟨0, false, ⟨1, 0, 0⟩, some 9⟩
     let s := stateOf id (fun b => { b with copies := [{ aCopy with phase := .waitSlot }], cbq := [w], scratch := bytesAre [(0, 32, cbufNum 1 1 0 1 0 0 1024)] }) id
     ((s.block? 1).any fun b => b.cbq == [w] && !(cbufOf (b.num 0 32)).broken b.scratchLen && decide (0 < (cbufOf (b.num 0 32)).free) && b.objs.isEmpty) = true) ∧
    (let o := { aCopy with phase := .finished }
     let s := stateOf id (fun b => { b with copies := [o] }) fun t => { t with ops := [⟨9, 0, false, none⟩], cnt := [(0, 1)] }
     ((s.block? 1).any fun b => b.copy? 9 == some o && oldestOp b o.team 0 == some 9 && o.unacked.isEmpty && (b.team? 0).any fun u => u.live != 0) = true) := by
  decide +kernel

/-- A matrix instruction alone in its block's engine, whose active plane 0 has a tag. -/
def atHead (tag : Nat) (ins : Instr) (va vb vc : W64) : State := stateOf id (fun b =>
  { b with scratchLen := 65536, mat := { newMatrix with owned := true, active := [(0, ⟨tag, 0, []⟩)], queue := [⟨9, 0, ins, w64 progVa, va, vb, vc, [], 3, false, false, 0x15⟩] } }) id

def headB (s : State) (p : Block → MatOp → Bool) : Bool := (s.block? 1).any fun b => (matHead b).any fun o =>
  (s.launch? b.q b.lseq).any (fun la => engineRuns la b && (matPoison s la b o).isNone) && (engineFirst s b).isNone && !collHolds b o && p b o

def planeTag (b : Block) : Nat := (smGet ⟨0, 0, []⟩ b.mat.active 0).tag

theorem witness_MatrixExecution :
    ([2, 4, 8].all fun t => headB (atHead t (.mmq hd .q4 0 0 v0) 0 0 0) (fun b _ => decide (2 ≤ planeTag b ∧ planeTag b ≤ 8)) &&
      headB (atHead t (.mmqa hd .q4 0 0 s2 s4) 0 128 (2 ^ 32 * 512)) (fun b _ => decide (2 ≤ planeTag b ∧ planeTag b ≤ 8))) = true ∧
    headB (atHead 4 (.msa hd 0 1 s2 s4) 0 128 512) (fun _ _ => true) = true ∧
    ([(PFmt.bf16, 9), (.fp16, 10), (.nf8, 11)].all fun t => headB (atHead t.2 (.mmf hd t.1 0 0 s2) 0 128 0)
      (fun b _ => tagFloat (Machine.pfmtCode t.1) && planeTag b == Machine.pfmtCode t.1)) = true ∧
    headB (atHead 4 (.tacc hd 0 1) 0 0 0) (fun _ _ => true) = true ∧
    headB (atHead 4 (.tzero hd 0 s2) 0 7 0) (fun b _ => (heldFor b 0).isEmpty) = true ∧
    headB (atHead 4 (.tld hd .b32 0 s2 s4) (localAddr 1024) 128 0)
      (fun b o => (winAt (atHead 4 (.tld hd .b32 0 s2 s4) (localAddr 1024) 128 0) launch0 b o.va.toNat).isSome) = true ∧
    headB (atHead 4 (.tst hd .b32 true s2 s4 0) (localAddr 1024) 128 0)
      (fun b o => ((winAt (atHead 4 (.tst hd .b32 true s2 s4 0) (localAddr 1024) 128 0) launch0 b o.va.toNat).any fun r => r.1.objs.isEmpty) &&
        decide (32 * tfmtBytes .b32 ≤ (loHalf o.vb).toNat)) = true ∧
    headB (atHead 4 (.ldw hd (.q .q4) 0 s2) 128 0 0) (fun _ _ => true) = true ∧ headB (atHead 4 (.wswap hd) 0 0 0) (fun _ _ => true) = true := by
  decide +kernel

/-- A product fed by a buffer at offset 2048, one filled and one acquired slot of tags at 1024, its plane 0 of tag 4; the slots that it
holds, and whether its block is in the array. -/
def cbFed (tag : Nat) (acq : List AcqSlot) (started : Bool) : State := stateOf id (fun b =>
  { b with scratchLen := 65536, scratch := bytesAre [(2048, 32, cbufNum 0 1 0 1 0 0 1024 - 512 + 4096 + 2 ^ 32 * (1024 - 128)), (1024, 4, tag)],
           mat := { newMatrix with owned := true, active := [(0, ⟨4, 0, []⟩)], stat := [(0, ⟨true, false, 0, 0, 0, 3⟩)], acq := acq
                                   queue := [⟨9, 0, .mmqaCb hd .q4 0 s2 s4, w64 progVa, 0, 2048, 8192, [], 3, started, false, 0x15⟩] } }) id

def fedSlot (tag : Nat) (stalled applied : Bool) : AcqSlot := ⟨9, 0, w64 progVa, 0x15, tag, 0, .q4, stalled, applied, 8192, 4096, 2048⟩

def feedsB (tag : Nat) : Bool := headB (cbFed tag [] false) fun b o => (slotOf b o).isNone && b.cbq.isEmpty && (poisonUnit b (2048, 32)).isNone &&
  (getCb b 2048).any fun c => c.tags != noTags && decide (32 * recLen .q4 ≤ c.ssize) && decide (0 < c.filled) && tagAt b c c.head == tag &&
    (poisonUnit b (c.tags + 4 * c.head, 4)).isNone && c.slot c.head == 4096

def goesB (tag : Nat) (fate : BlockFate) : Bool := headB (cbFed tag [fedSlot tag true false] false) fun b o =>
  slotOf b o == some (fedSlot tag true false) && blockFate b 0 tag == fate && !b.teams.isEmpty && launch0.stop.isNone

/-- What the engine does before its head. -/
def firstB (acq : List AcqSlot) (p : Block → Bool) : Bool := ((cbFed 3 acq true).block? 1).any fun b =>
  ((cbFed 3 acq true).launch? b.q b.lseq).any (fun la => engineRuns la b) && p b

/-- A page at 0x20000 that lies in one stack, whose zero bytes are an empty sequence of configuration 0. -/
def seqPage : List (Nat × Nat × Nat) := [(0x128010, 8, 0x140000 + 2 ^ 12 + 0x3F + 0x80)]

def attOp (ins : Instr) (entered : Bool) (groups : Nat) : AttOp :=
  ⟨9, 0, ins, w64 progVa, 0, 0, 1, bytesAre ((attFields.drop 1).cons (0, 8, 0x20000)), entered, 0, [], groups, []⟩

def attState (o : AttOp) : State :=
  let s := withMem seqPage (mapped id)
  { s with blocks := s.blocks.map fun b => { b with atts := [o], scratchLen := 65536 } }

def attB (o : AttOp) (p : State → Block → Launch → Bool) : Bool := ((attState o).block? 1).any fun b => ((attState o).launch? b.q b.lseq).any fun la =>
  engineRuns la b && b.att? 9 == some o && p (attState o) b la

def anEvict (ph : EvPhase) : Evict := ⟨9, 0, 0, 0, 0, 9, 0, w64 progVa, BitVec.ofNat 128 0x20000, ph, []⟩

theorem witness_MatrixAndAttentionEvents :
    (let o : MatOp := ⟨9, 0, .wswap hd, w64 progVa, 0, 0, 0, [], 3, true, true, 0x15⟩
     let s := stateOf id (fun b => { b with mat := { newMatrix with owned := true, queue := [o] } }) fun t => { t with ops := [⟨9, 1, false, none⟩], cnt := [(1, 1)] }
     (s.block? 1).any (fun b => b.mat.queue.find? (fun k => k.fin && oldestOp b k.team 1 == some k.id) == some o) = true) ∧
    ([0, 3, 2 ^ 19 - 1].all feedsB) = true ∧
    ([(3, BlockFate.apply), (4, .hold), (11, .hold), (12, .stall), (2, .stop cTILE 0), (3 + 2 ^ 16, .stop cTILE 17), (2 ^ 19, .stop cTILE 0)].all
      fun t => goesB t.1 t.2) = true ∧
    (firstB [fedSlot 3 false false] fun b => !(b.mat.acq.head?.any AcqSlot.applied) && nextBlock b == some (fedSlot 3 false false) &&
      (applyBad b (fedSlot 3 false false)).isNone && decide (2 ≤ (b.plane 0).tag ∧ (b.plane 0).tag ≤ 8)) = true ∧
    (firstB [fedSlot 2 false true] fun b => b.cbq.isEmpty && (getCb b 2048).any fun c => c.acq != 0) = true ∧
    (firstB [] fun b => (nextBlock b).isNone && (matHead b).any MatOp.started) = true ∧
    attB (attOp (.atts hd .zero .zero .zero) false 0) (fun s b la => match seqEnter s b la (attOp (.atts hd .zero .zero .zero) false 0) with
      | .ok (some _) => true
      | _ => false) = true ∧
    (let o := attOp (.atts hd .zero .zero .zero) true 0
     attB o fun s b la => decide (o.groups < o.total) && b.objs.isEmpty && decide (o.npages ≤ o.first) && (adescOf o.desc).pitch % 4 == 0 &&
       match attScores s b la o 0 0 with
       | .ok _ => true
       | .error _ => false) = true ∧
    (let o := attOp (.atts hd .zero .zero .zero) true 2
     attB o fun s b la => decide (o.total ≤ o.groups) && match lowerBusy (dropLeased s o.lines) b la 0x20000 with
       | .ok _ => true
       | .error _ => false) = true ∧
    (let s0 := attState (attOp (.atts hd .zero .zero .zero) true 0)
     let s := { s0 with evicts := [anEvict .waiting] }
     (match evictAt s (anEvict .waiting) with
      | some (b, la) =>
        let sq := seqDescOf (vaRead s la.ctx 0x20000 128)
        let place := (seqPlace s b la.ctx 0x20000).getD 0
        !sq.state.testBit 0 && !evictBefore s place 9 && !entryBefore s place 9 &&
          (evictStartBad s b la.ctx (seqRanges sq 0x20000 (if (siteTranslate s b la.ctx 0x20000).isSome then pageList s la.ctx sq else []))).isNone
      | none => false) = true) ∧
    (let s := { attState (attOp (.atts hd .zero .zero .zero) true 0) with evicts := [anEvict .claimed] }
     (seqDescOf (vaRead s 0 0x20000 128)).busy = 0 ∧ (s.blockAt? 0 0 0).any (fun b => s.block? b.bid == some b) = true) := by
  decide +kernel

def msgCall (ph : CallPhase) : Call := { aCall with phase := ph, counted := false, msg := bytesAre msgFields }

/-- A route to device 1 over port 0, which is up. -/
def linked (s : State) : State := setBar (setBar s 0x1D1004 0x80100004) 0x1D0008 1

/-- The prefix of a reduction packet for address 0x800 of n elements, and the packet from device 1. -/
def redPrefix (n : Nat) : BitVec 512 := BitVec.ofNat 512 (2 ^ 256 * 0x800 + 2 ^ 320 * n)
def redIn (pre : BitVec 512) : NetIn := ⟨0, .red pre [0, 0, 0, 0] 1 [0, 0, 0, 9, 0]⟩

theorem witness_CallEvents :
    ([0x20000, 0x10000].all fun entry =>
      let s0 := withMem seqPage (mapped id)
      (List.range 8).any fun stack =>
        let c := { msgCall .issued with stack := stack, msg := bytesAre ((msgFields.drop 1).cons (0, 8, entry)) }
        let s := { s0 with calls := [c] }
        s.call? 5 == some c && decide (heldCalls s stack < 256) && (callPages c.msg).all (fun k => windowOf k.1 || (translate s 0 k.1).isSome) &&
          ((callPages c.msg).find? (pageRefused s 0 stack)).isNone == (entry == 0x20000) && (s.blockAt? 0 0 0).any (fun b => s.block? b.bid == some b)) = true ∧
    (let s := { one with calls := [msgCall .queued] }
     nextCall s 0 = some (msgCall .queued) ∧ stationFenced s 0 0 = false ∧ stationBusy s 0 0 = false) ∧
    (let s := setBar { one with calls := [msgCall .queued] } 0x180000 0xFFFF
     nextCall s 0 = some (msgCall .queued) ∧ ((List.range 16).all (stationFenced s 0)) = true) ∧
    (let b0 := { block0 with bid := 3, idx := 5, site := .station 0 0, teams := [] }
     let s := { one with calls := [msgCall .running], blocks := one.blocks ++ [b0] }
     stationBlock? s 5 = some b0 ∧ stationDone b0 = true ∧ (s.blockAt? 0 0 0).any (fun b => s.block? b.bid == some b) = true) ∧
    (let s := { one with calls := [msgCall .ended] }
     s.call? 5 = some (msgCall .ended) ∧ (s.blockAt? 0 0 0).any (fun b => s.block? b.bid == some b) = true) ∧
    (let s := { one with calls := [{ msgCall .returned with expiry := 400 }], time := 401 }
     (s.call? 5).any (fun c => c.phase == .returned && decide (c.expiry < s.time)) = true) ∧
    (redPacket 0 (redPrefix 1) [0, 0, 0, 0]).2 = false ∧ (redPacket 0 (redPrefix 0) [0, 0, 0, 0]).2 = true ∧
    (let s : BitVec 512 → State := fun pre => { linked State.reset with inNet := [redIn pre] }
     (s (redPrefix 1)).inNet[0]? = some (redIn (redPrefix 1)) ∧ (s (redPrefix 0)).inNet[0]? = some (redIn (redPrefix 0)) ∧
       devPorts (s (redPrefix 1)) 1 ≠ [] ∧ 1 ≠ devId (s (redPrefix 1))) ∧
    (let s := { State.reset with inNet := [redIn (redPrefix 1), redIn (redPrefix 1)] }
     s.inNet[1]? = some (redIn (redPrefix 1)) ∧ ∃ k ∈ s.inNet.take 1, k.redFor (redPacket 0 (redPrefix 1) [0, 0, 0, 0]).1.stack = true) := by decide +kernel

/-- A stack's queue that is full. -/
theorem witness_CallEvents_full :
    let s := { State.reset with inNet := [redIn (redPrefix 1)], redq := List.replicate 4096 (redPkt 1) }
    s.inNet[0]? = some (redIn (redPrefix 1)) ∧
      4096 ≤ (s.redq.filter fun k => k.stack == (redPacket 0 (redPrefix 1) [0, 0, 0, 0]).1.stack).length := by
  have h : ((redPkt 1).stack == (redPacket 0 (redPrefix 1) [0, 0, 0, 0]).1.stack) = true := by decide +kernel
  refine ⟨rfl, ?_⟩
  simp only [List.filter_replicate, h, if_true, List.length_replicate, le_refl]
end
section
def aChunk (clos : Nat) (data : List Byte) : Chunk := ⟨0, 0, BitVec.ofNat 256 (2 ^ 128 * clos), 2048, [], false, false, none, none, none, data, []⟩
def aGroup : GroupReg := ⟨0, 0, 0, 0, 0, 0, 0, 0, 0⟩
/-- A remote send with these parts still without an outcome. -/
def aSend (parts : List (Nat × Nat)) : SendOp := ⟨9, 0, false, bytesAre [(3, 1, 2), (28, 4, 64)], false, false, parts, true, w64 progVa, none, [], 0⟩
def aFetch (addr : Nat) : FetchOp := ⟨9, 0, 128, w64 addr, 4, 0, w64 progVa⟩

/-- A group of one rank whose collective has one chunk, its rows those of tile 0. -/
def doneColl : CollOpS := { aColl with issues := [(0, 9)], started := true, desc := bytesAre [(4, 2, 1), (8, 4, 128), (24, 4, 1)], starts := [(0, [])], final := [(0, some [])] }

def reach (s : State) (p : Recv) : Bool := recvAt s 0 0 (some 0) 0 == p

theorem witness_CollectiveEvents :
    (∀ ck ∈ [aChunk 0 [1, 0, 0, 0], aChunk (closureWord 0 [1] false).toNat [1, 0, 0, 0]],
      let n : NetIn := ⟨2, .chunk ck⟩
      let s := { one with inNet := [n], groups := [aGroup] }
      s.inNet[0]? = some n ∧ ck.mem = false ∧ ck.dev = devId s ∧ ck.src = [] ∧ (chdrOf ck.hdr).id = 0 ∧ reach s (.rank aGroup) = true ∧
        (s.blockAt? 0 0 0).any (fun b => s.block? 1 == some b && b.objs.isEmpty && decide (ck.dst + ck.data.length ≤ b.scratchLen)) = true ∧
        portFails n.port ck = (chdrOf ck.hdr).closure.toNat.beq 0) ∧
    reach { one with quars := [⟨0, 0, false, 5⟩] } .drop = true ∧ reach one .hold = true ∧
    (let n : NetIn := ⟨2, .start 0 0 0 0 3 []⟩
     let s : Nat → State := fun gen => { (stateOf id (fun b => { b with startsLate := [(0, 0, 3)] }) id) with inNet := [n], groups := [{ aGroup with gen := gen }] }
     recvAt { one with quars := [⟨0, 0, false, 5⟩] } 0 0 none 0 = .drop ∧ recvAt one 0 0 none 0 = .hold ∧
       recvAt (s 5) 0 0 none 0 = .rank { aGroup with gen := 5 } ∧ ((s 5).block? 1).any (fun b => b.startsLate.contains (0, 0, 3)) = true) ∧
    (let k := { aColl with started := true, group := (0, 0) }
     let n : NetIn := ⟨2, .start 0 0 0 0 3 []⟩
     let s := stateOf id (fun b => { b with colls := [k] }) id
     let s := { s with inNet := [n], groups := [aGroup] }
     s.inNet[0]? = some n ∧ recvAt s 0 0 none 0 = .rank aGroup ∧ (s.block? 1).any (fun b => b.startsLate.isEmpty) = true ∧
       (s.block? 1).any (fun b => b.colls.find? (fun k => k.started && k.group == (aGroup.ctx, aGroup.id) && !(k.starts.any fun p => p.1 == 3)) == some k) = true) ∧
    (let s : Nat → State := fun id0 => stateOf id (fun b => { b with sends := [aSend []] }) fun t => { t with ops := [⟨id0, 2, false, none⟩, ⟨9, 2, false, none⟩], cnt := [(2, 2)] }
     ((s 8).block? 1).any (fun b => b.sends.find? (fun x => x.id == 9) == some (aSend []) && (aSend []).done == some true && oldestOp b 0 2 != some 9) = true ∧
       ((s 9).block? 1).any (fun b => oldestOp b 0 2 == some 9) = true) ∧
    (let s := stateOf id (fun b => { b with colls := [doneColl] }) fun t => { t with ops := [⟨9, 2, false, none⟩], cnt := [(2, 1)] }
     let d := gdescOf doneColl.desc 0
     (s.block? 1).any (fun b => b.colls.find? (fun x => x.id == 9) == some doneColl && collGoes b doneColl d && b.objs.isEmpty) = true ∧
       ((List.range d.chunks).all fun c => doneColl.final.any fun x => x.1 == c) = true ∧ doneColl.bar = none ∧ doneColl.issues = [(0, 9)]) ∧
    (let s := { one with quars := [⟨0, 7, false, 100⟩], time := 100 }
     ∃ x ∈ s.quars, x.ctx = 0 ∧ x.id = 7 ∧ x.until_ ≤ s.time) ∧
    (let s := stateOf id (fun b => { b with fetches := [aFetch (locA 1024)] }) id
     (s.block? 1).any (fun b => b.fetches.find? (fun x => x.id == 9) == some (aFetch (locA 1024)) && engineRuns launch0 b && b.objs.isEmpty &&
       windowOf (aFetch (locA 1024)).addr.toNat) = true) ∧
    (let s0 := mapped id
     let s1 : State := { s0 with blocks := s0.blocks.map (fun b => { b with fetches := [aFetch 0x10000] }), manifests := [⟨4, 7, 5, 50, []⟩], time := 100 }
     (s1.block? 1).any (fun b => (s1.launch? 0 0).any fun la => match resolveMem s1 b la.ctx 0x10000 0 with
       | .ok (_, p) =>
         let s := { s1 with versions := [⟨p.line, 0, 0, some (0, false, 50, 4)⟩, ⟨p.line, 50, 4, none⟩].drop 1 }
         p.kind != .host && (match snapLine s p 100 with
           | .at_ _ _ tc man => tc == 50 && man == 4
           | _ => false) && match manifestPlaces s b la ⟨4, 7, 5, 50, []⟩ with
             | .ok _ => true
             | .error _ => false
       | .error _ => false) = true) := by decide +kernel

def pendAt (bun line : Nat) (st : PendState) : PendLine := ⟨bun, line, 0, 0, w64 0x10000, 1, 5, st⟩
def bunIn (ph : BunPhase) (homes prepared acked : List Nat) : Bundle := { aBundle with phase := ph, homes := homes, prepared := prepared, acked := acked, tc := 60, expiry := 40 }
def bunState (k : Bundle) (l : List PendLine) (now : Nat) : State := { one with bundles := [k], pendLines := l, time := now }

theorem witness_BundleEvents :
    (let k := bunIn .preparing [0, 1] [] []
     let s := bunState k [pendAt 9 16 .pending] 10
     s.bundle? 9 = some k ∧ k.dev = devId s ∧ k.nextHome = some 0 ∧ homeOfLine s 16 = 0 ∧
       (∀ o ∈ s.pendLines, o.bun = 9) ∧ k.stbs = [] ∧ k.waitsFor 0 = false ∧ k.lost = false ∧ homeRemote s 0 = false ∧
       (s.versions.filter fun v => homeOfLine s v.line == 0).length + ((bunLines s 9 0).filter fun q => (version? s q.line).isNone).length ≤ 2 ^ 21) ∧
    (let k := bunIn .preparing [0] [] []
     let s := bunState k [pendAt 9 16 .pending, pendAt 8 16 (.prepared 3)] 10
     s.bundle? 9 = some k ∧ k.nextHome = some 0 ∧ k.waitsFor 0 = false ∧ ∃ q ∈ s.pendLines, (q.bun = 9 ∧ homeOfLine s q.line = 0) ∧
       ∃ o ∈ s.pendLines, o.line = q.line ∧ o.bun ≠ 9 ∧ o.state ≠ .pending) ∧
    (let k := { bunIn .preparing [0] [] [] with lost := true }
     (bunState k [] 10).bundle? 9 = some k ∧ k.nextHome = some 0 ∧ k.stbs = [] ∧ k.waitsFor 0 = false) ∧
    (let k := bunIn .preparing [8] [] []
     let s := linked (bunState k [pendAt 9 (2 ^ 44 + 2 ^ 34) .pending] 10)
     s.bundle? 9 = some k ∧ k.nextHome = some 8 ∧ homeOfLine s (2 ^ 44 + 2 ^ 34) = 8 ∧ homeRemote s 8 = true ∧ devPorts s 1 ≠ []) := by
  decide +kernel

theorem witness_BundleEvents_messages :
    (let k := bunIn .preparing [0] [0] []
     (bunState k [] 10).bundle? 9 = some k ∧ k.homes ≠ [] ∧ k.nextHome = none) ∧
    (∀ h ∈ [0, 8], let k := bunIn .chosen [h] [h] []
     let s := linked (bunState k [pendAt 9 16 (.prepared 3)] 10)
     s.bundle? 9 = some k ∧ h ∈ k.homes ∧ h ∉ k.acked ∧ k.waitsFor h = false ∧ homeRemote s h = (h == 8)) ∧
    (∀ h ∈ [0, 8], let k := bunIn (.aborting true) [h] [] []
     let s := linked (bunState k [pendAt 9 16 .pending] 10)
     s.bundle? 9 = some k ∧ h ∈ k.homes ∧ h ∉ k.acked ∧ k.waitsFor h = false ∧ k.stbs = [] ∧ homeRemote s h = (h == 8)) ∧
    (∀ kind ∈ [1, 2, 5], let k := { bunIn .preparing [8] [] [] with asked := [(8, 0)] }
     let n : NetIn := ⟨0, .bundle 0 0 7 5 8 kind 20 30 []⟩
     let s := { linked (bunState k [] 10) with inNet := [n] }
     s.inNet[0]? = some n ∧ s.bundle? 9 = some k ∧ foreignBundle? s (devId s) 0 7 = some k ∧ k.waitsFor 8 = true ∧ k.gen = 5) := by
  decide +kernel

theorem witness_BundleEvents_ends :
    (let p := pendAt 9 16 (.committed 60)
     let s : Nat → State := fun now => bunState (bunIn .chosen [0] [0] [0]) [p] now
     p ∈ (s 60).pendLines ∧ 60 ≤ (s 60).time ∧ (s 59).time < 60 ∧ bitsOf (128 * 16) 51 51 = 0 ∧ (s 60).lines = []) ∧
    (let k := bunIn .chosen [0] [0] [0]
     let s : Nat → State := fun now => bunState k [] now
     (s 61).bundle? 9 = some k ∧ (∀ h ∈ k.homes, h ∈ k.acked) ∧ (∀ q ∈ (s 61).pendLines, q.bun ≠ 9) ∧ max k.tc k.expiry < (s 61).time ∧ k.remote = false ∧
       (s 60).time ≤ max k.tc k.expiry ∧ ((s 61).blockAt? 0 0 0).any (fun b => (s 61).block? b.bid == some b) = true) ∧
    (let k := bunIn (.aborting false) [0] [] [0]
     (bunState k [] 10).bundle? 9 = some k ∧ ∀ h ∈ k.homes, h ∈ k.acked) ∧
    (let v : Version := ⟨16, 50, 4, none⟩
     let s : Nat → State := fun now => { one with versions := [v], time := now }
     version? (s 0) 16 = some v ∧ hasPrepared (s 0) 16 = false ∧ (1000000 : Nat) = reclaimAge (s 0) (homeOfLine (s 0) 16) ∧
       (s 1000050).time ≤ v.curTc + 1000000 ∧ v.curTc + 1000000 < (s 1000051).time) := by decide +kernel

/-- A home whose version table is full. -/
theorem witness_BundleEvents_full :
    let k := bunIn .preparing [0] [] []
    let s := { bunState k [pendAt 9 16 .pending] 10 with versions := List.replicate (2 ^ 21) (⟨32, 5, 0, none⟩ : Version) }
    s.bundle? 9 = some k ∧ k.nextHome = some 0 ∧
      2 ^ 21 < (s.versions.filter fun v => homeOfLine s v.line == 0).length + ((bunLines s 9 0).filter fun q => (version? s q.line).isNone).length := by
  intro k s
  have h0 : (homeOfLine s 32 == 0) = true := rfl
  have hb : bunLines s 9 0 = [pendAt 9 16 .pending] := by decide +kernel
  have hv : s.versions = List.replicate (2 ^ 21) (⟨32, 5, 0, none⟩ : Version) := rfl
  have h1 : ((⟨32, 5, 0, none⟩ : Version).line == 16) = false := rfl
  have hn : version? s (pendAt 9 16 .pending).line = none := by
    rw [version?, hv, List.find?_eq_none]
    intro v h
    rw [List.eq_of_mem_replicate h]
    exact Bool.false_ne_true
  refine ⟨rfl, rfl, ?_⟩
  rw [hb, hv, List.filter_replicate]
  simp only [h0, hn, if_true, List.length_replicate, List.filter_cons, Option.isNone_none, List.filter_nil, List.length_singleton]
  exact Nat.lt_succ_self _

def dirEnt (base : Nat) (st : DirState) : DirEnt := ⟨0, 0, base, 8, st, [], none, 0⟩
def dirState (a b : DirState) (l1 : List L1Copy) : State := { State.reset with dir := [dirEnt 0 a, dirEnt 8 b], l1 := l1, time := 100000 }
def heldLine (line : Nat) : L1Copy := ⟨0, line, line, 0, ⟨0, 0, 65536⟩, false, .normal⟩

theorem witness_CacheEvents :
    (∀ s ∈ [dirState .s .s [], dirState .s .e [], dirState .s .e [heldLine 0, heldLine 9]],
      (s.dir.find? fun d => d.die == 0 && d.slice == 0 && d.base == 0 && d.size == 8).isSome = true ∧
      (s.dir.find? fun d => d.die == 0 && d.slice == 0 && d.base == 8 && d.size == 8).isSome = true ∧ ∀ d ∈ s.dir, d.changed + 100000 ≤ s.time) ∧
    (entryHeld (dirState .s .e []) (dirEnt 0 .s) = false) ∧
    (let s := dirState .s .e [heldLine 0, heldLine 9]
     (l2Slice 0 = 0 ∧ entryHeld s (dirEnt 0 .s) = true) ∧ l2Slice 9 = 9) ∧
    sleeping State.reset 0 0 = false ∧ (bar State.reset (0x1C0000 + 0x100 * 1)).getLsbD 0 = true ∧
    (bar (setBar State.reset 0x1C0000 0) 0x1C0000).getLsbD 0 = false ∧
    (let s : State := { State.reset with asleep := [(sliceKey 0 3, 1)], time := 33554432 }
     sleeping s 0 3 = true ∧ s.time + 1 - smGet 0 s.asleep (sliceKey 0 3) = 33554432) ∧
    bar64 State.reset (mscBase 7) = 0 ∧ hotListEnd State.reset 7 = 1000000 ∧
    (let s : State := { State.reset with msc := [⟨0, 16, false, 0, false⟩] }
     ∃ l ∈ s.msc, l.line = 16) ∧ 128 * 16 < Config.moduleBytes := by decide +kernel

def podIn (addr kind : Nat) (data : List Byte) : State := { State.reset with inNet := [⟨0, .pod (w64 addr) kind .add 0 0 data⟩] }

theorem witness_LinkEvents :
    (∀ t ∈ [(2 ^ 41, 0), (0x800, 3), (0x800, 0), (0x800, 1), (0x87C, 2)], (podIn t.1 t.2 [1, 0, 0, 0]).inNet[0]? =
      some ⟨0, .pod (w64 t.1) t.2 .add 0 0 [1, 0, 0, 0]⟩ ∧ (podIn t.1 t.2 [1, 0, 0, 0]).lines = []) ∧
    (2 ^ 41 ≤ (w64 (2 ^ 41)).toNat ∧ (0x87C % 128) + 4 ≤ 128) ∧
    (grants? (podIn 0x800 0 []) ⟨.own, 0x800, 0, false, 2⟩ = true ∧ unlocked (podIn 0x800 0 []) = false) ∧
    (let r : Reasm := ⟨0, 0, 5⟩
     ({ State.reset with reasm := [r], time := 10005 } : State).reasm[0]? = some r ∧ r.since + 10000 ≤ 10005 ∧ 10004 < r.since + 10000) ∧
    (let b : Block := { block0 with sends := [aSend [(0, 0)]] }
     let s := { linked one with blocks := [b], saved := [⟨b, 5, false⟩], bundles := [{ aBundle with asked := [(8, 0)] }] }
     (bar s 0x1D0008).getLsbD 0 = true ∧ (∀ c ∈ s.blocks, portStops s 0 c = none) ∧ aSend [(0, 0)] ∈ b.sends ∧ ∃ x ∈ (aSend [(0, 0)]).parts, x.2 = 0) ∧
    (let b : Block := { block0 with teams := [{ team2 with unacked := [2 ^ 44 + 2 ^ 34] }] }
     let s := { linked one with blocks := [b] }
     (bar s 0x1D0008).getLsbD 0 = true ∧ (portStops s 0 b).isSome = true ∧ (s.launch? 0 0).any (fun la => la.stop.isNone) = true) ∧
    (isReference State.reset = true) ∧ (let s := setBar (setBar State.reset 0x1D0004 5) 0x1D0008 1
     isReference s = false ∧ portsUp s ≠ 0 ∧ s.lockSince ≠ lockPend) ∧
    (let s := setBar { State.reset with lockSince := 5, time := 1000005 } 0x1D0008 0x80000000
     (bar s 0x1D0008).getLsbD 31 = true ∧ (bar s 0x1D0008).getLsbD 30 = false ∧ s.lockSince + 1000000 ≤ s.time) := by decide +kernel

def aRep (cls unit : Nat) : ErrorReport := ⟨cls, 1, 0, w64 unit, 0x800, none⟩
def tests (cls unit : Nat) : State := { State.reset with tests := [⟨aRep cls unit, 0, 1⟩] }

theorem witness_MaintenanceEvents :
    (∀ x ∈ State.reset.tests, ¬ (x.rep.cls = 2 ∧ x.rep.unit = 7)) ∧ (∃ x ∈ (tests 2 7).tests, x.rep.cls = 2 ∧ x.rep.unit = 7) ∧
    (let s := { atStation id id with tests := [⟨aRep 5 0, 0, 1⟩] }
     testable s (aRep 5 0) = false) ∧
    (testable (tests 5 0) (aRep 5 0) = true ∧ testable (tests 2 7) (aRep 2 7) = true ∧ testable (tests 4 511) (aRep 4 511) = true ∧
      bitsOf (bar (tests 2 7) (0x1E0018 + 4 * (7 / 4))).toNat (8 * (7 % 4) + 7) (8 * (7 % 4)) ≠ 0) ∧
    (let s := { setBar State.reset (svBase 63) 0x80000000 with time := 1000000 }
     (bar s (svBase 63)).toNat.testBit 31 = true ∧ (monOf s 63).start + 1000 * (bar s (svBase 63 + 4)).toNat ≤ s.time ∧
       ¬ (monOf s 63).start + 1000 * (bar s (svBase 63 + 4)).toNat ≤ 999999) ∧
    ownSource (bitsOf (bar (setBar State.reset (svBase 63) 0x80100000) (svBase 63)).toNat 23 16) = true ∧
    ownSource (bitsOf (bar (setBar State.reset (svBase 63) 0x80000000) (svBase 63)).toNat 23 16) = false ∧
    (let s := { State.reset with time := 10000000, coolSince := some 0 }
     s.powerAt + 1000000 ≤ s.time ∧ (bar s 0x1E0024).toNat = 2800 ∧ 2800 < 2801 ∧ 95 * 2800 ≤ 100 * 2660 ∧ 100 * 2659 < 95 * 2800 ∧
       0 + 10000000 ≤ s.time) := by decide +kernel

/-- The placed word runs: `IADD.s32 v1, v2, v3`. -/
def atWord (w : Nat) : State := State.withFetchWord State.reset 64 w

theorem witness_StepRunsDecoded :
    (let w := 1 + 2 ^ 2 * 0x01 + 2 ^ 18 * 1 + 2 ^ 26 * 2 + 2 ^ 34 * 3 + 2 ^ 42 * 0xF8
     let s := atWord w
     let s' : State := { s with agenda := [], cur := ⟨1, 0, 0⟩ }
     s.agenda = [.issue ⟨1, 0, 0⟩] ∧ (getEnv s').any (fun e => mayIssue e.team e.rcd && (siteTranslate s' e.blk e.la.ctx e.rcd.pc.toNat).any fun t =>
       let bytes := codeBytes s' e.la t e.rcd.pc.toNat 12
       t.x && (t.phys s' e.rcd.pc.toNat).kind != .host && (keyGenOf s' t.key).isSome && !codePoison s' e.blk (t.phys s' e.rcd.pc.toNat) &&
         decide (e.rcd.pc.toNat % 64 + headLen bytes ≤ 64) && siteReach e.blk.site t (t.phys s' e.rcd.pc.toNat) && isChosen s' ⟨1, 0, 0⟩ && match decode bytes with
         | .ok (i, _) => i == .iadd hd .s32 false nomods (.v 1) (.v 2) (.v 3)
         | .error _ => false) = true) ∧
    (let s : State := { one with agenda := [.issue ⟨1, 0, 0⟩] }
     (getEnv s).any (fun e => mayIssue e.team e.rcd && (siteTranslate s e.blk e.la.ctx e.rcd.pc.toNat).isNone && isChosen s ⟨1, 0, 0⟩) = true) ∧
    (let s := stateOf id id fun t => { t with halted := true }
     (getEnv s).any (fun e => !mayIssue e.team e.rcd) = true) ∧ encode (.lossOfLock) = [] := by decide +kernel

theorem witness_DecodeReadsEncoding :
    (Instr.iadd hd .s32 false nomods (.v 1) (.v 2) (.v 3)).wf = true ∧ encode (.iadd hd .s32 false nomods (.v 1) (.v 2) (.v 3)) ≠ [] := by decide +kernel

theorem witness_LeaseStamps :
    (let c : CLine := ⟨0, 2 ^ 30, 5, false, false, some (stampOf 640), 0⟩
     let p : Phys := ⟨.host, 2 ^ 37, 0, true, 0⟩
     let r : Req := ⟨0, 0, 0, ⟨0, 0, 65536⟩, .normal, 400⟩
     let s : Nat → State := fun now => { State.reset with lines := [c], time := now }
     (p.kind = .host ∧ p.rol = true) ∧ leasedCopy? (s 0) (coreDie r.core) p.line = some c ∧ sleeping (s 0) 0 (l2Slice p.line) = false ∧
       (let s1 := { s 0 with asleep := [(sliceKey 0 (l2Slice p.line), 1)], time := 33554432 }
        sleeping s1 0 (l2Slice p.line) = true ∧ 33554432 ≤ s1.time + 1 - smGet 0 s1.asleep (sliceKey 0 (l2Slice p.line))) ∧
       stampValid (stampOf 640) 576 = true ∧ stampValid (stampOf 639) 576 = false ∧ grants? (s 640) p = true ∧ 640 < 639 + 2 ^ 25) := by decide +kernel

theorem witness_StepKeepsSettled :
    (let s : State := { State.reset with agenda := [.tick 5] }
     s.Settled ∧ ∃ t, step s = .next t) := by
  refine ⟨by simp [State.Settled, State.reset], ?_⟩
  have h : (match step { State.reset with agenda := [.tick 5] } with
    | .next _ => true
    | _ => false) = true := by decide +kernel
  split at h
  · exact ⟨_, ‹_›⟩
  · cases h
end

/-! Decoding: for every row of the table that is a word, one word written out field by field from the spec's encoding of it. -/

/-- The fields of R61, the kind 0b01 with them: major, sub, bits [59:50], d, a, b, c. -/
def F (major sub m10 d a b c : Nat) : Nat :=
  1 + 2 ^ 2 * major + 2 ^ 18 * d + 2 ^ 26 * a + 2 ^ 34 * b + 2 ^ 42 * c + 2 ^ 50 * m10 + 2 ^ 60 * sub

/-- The same as an L96 with its literal. -/
def L (f literal : Nat) : Nat := f + 1 + 2 ^ 64 * literal

/-- The fields of R70: cop, d, b, imm. -/
def C (cop d b imm : Nat) : Nat := 2 ^ 2 * cop + 2 ^ 10 * d + 2 ^ 18 * b + 2 ^ 26 * imm

/-- Each word of 64 bits decodes to what stands beside it. -/
def reads (l : List (Nat × Instr)) : Bool := l.all fun p => decodeTableWord 64 p.1 == some p.2
def reads32 (l : List (Nat × Instr)) : Bool := l.all fun p => decodeTableWord 32 p.1 == some p.2
def reads96 (l : List (Nat × Instr)) : Bool := l.all fun p => decodeTableWord 96 p.1 == some p.2

def m0 : Mods := ⟨false, false, false, false, false, false, false, 0⟩

theorem test_decode_integers : reads [
    (F 0x00 0 0 0xF8 0xF8 0xF8 0xF8, .nop hd),
    (F 0x01 8 2 1 2 3 0xF8, .iadd hd .s32 true { m0 with negb := true } (.v 1) (.v 2) (.v 3)),
    (F 0x02 1 8 1 2 3 0xF8, .isub hd .z32 false { m0 with absa := true } (.v 1) (.v 2) (.v 3)),
    (F 0x03 0xA 4 2 4 6 8, .iadd3 hd .s64 true { m0 with negc := true } (.v 2) (.v 4) (.v 6) (.v 8)),
    (F 0x04 6 1 1 0xB2 3 0xF8, .imul hd .s8x4 false { m0 with nega := true } (.v 1) (.s 2) (.v 3)),
    (F 0x05 3 0 2 4 6 0xF8, .imulh hd .z64 (.v 2) (.v 4) (.v 6)),
    (F 0x06 4 32 1 2 3 4, .imad hd .s16x2 false { m0 with absc := true } (.v 1) (.v 2) (.v 3) (.v 4)),
    (F 0x07 9 0 2 3 5 6, .imadw hd false true (.v 2) (.v 3) (.v 5) (.v 6)),
    (F 0x08 8 0 1 2 3 0xF8, .idiv hd .s32 true (.v 1) (.v 2) (.v 3)),
    (F 0x09 1 0 1 2 3 0xF8, .irem hd .z32 (.v 1) (.v 2) (.v 3)),
    (F 0x0A 5 16 1 2 3 0xF8, .imin hd .z16x2 { m0 with absb := true } (.v 1) (.v 2) (.v 3)),
    (F 0x0B 7 0 0xF3 2 0xFB 0xF8, .imax hd .z8x4 m0 (.x 3) (.v 2) .ones),
    (F 0x0C 8 0 1 2 3 0xF9, .isad hd .s32 true (.v 1) (.v 2) (.v 3) .lane),
    (F 0x0D 0xE 0 3 2 4 0xF8, .icmp hd .z64 .lt 3 (.v 2) (.v 4)),
    (F 0x0E 2 0 2 4 6 5, .sel hd 2 (.v 2) (.v 4) (.v 6) 5),
    (F 0x0F 2 0 2 4 7 0xB1, .lea hd .s64 (.v 2) (.v 4) (.v 7) (.s 1)),
    (F 0x10 0 0 1 2 3 0xF8, .andL hd 0 (.v 1) (.v 2) (.v 3)), (F 0x11 3 0 2 4 6 0xF8, .orL hd 3 (.v 2) (.v 4) (.v 6)),
    (F 0x12 1 0 1 2 3 0xF8, .xorL hd 1 (.v 1) (.v 2) (.v 3)), (F 0x13 2 0 2 4 6 0xF8, .andn hd 2 (.v 2) (.v 4) (.v 6)),
    (F 0x14 2 0 2 4 7 0xF8, .shl hd 2 (.v 2) (.v 4) (.v 7)), (F 0x15 0 0 1 2 3 0xF8, .shr hd 0 (.v 1) (.v 2) (.v 3)),
    (F 0x16 0 0 1 2 3 0xF8, .sar hd 0 (.v 1) (.v 2) (.v 3)), (F 0x17 0 0 1 2 3 0xF8, .rol hd 0 (.v 1) (.v 2) (.v 3)),
    (F 0x18 0 0 1 2 3 4, .fshr hd (.v 1) (.v 2) (.v 3) (.v 4)), (F 0x19 1 0 1 2 3 0xF8, .bfe hd false (.v 1) (.v 2) (.v 3)),
    (F 0x1A 0 0 1 2 3 4, .bfi hd (.v 1) (.v 2) (.v 3) (.v 4)), (F 0x1B 2 0 1 2 0xF8 0xF8, .popc hd 2 (.v 1) (.v 2)),
    (F 0x1C 0 0 1 2 0xF8 0xF8, .clz hd 0 (.v 1) (.v 2)), (F 0x1D 0 0 1 2 0xF8 0xF8, .ctz hd 0 (.v 1) (.v 2)),
    (F 0x1E 3 0 2 4 0xF8 0xF8, .brev hd 3 (.v 2) (.v 4)), (F 0x1F 0 0 1 2 3 4, .prmb hd (.v 1) (.v 2) (.v 3) (.v 4)),
    (F 0x20 10 0 1 2 3 4, .idot4 hd true true false (.v 1) (.v 2) (.v 3) (.v 4)),
    (F 0x21 1 0 1 2 3 4, .idot2 hd false false true (.v 1) (.v 2) (.v 3) (.v 4)),
    (F 0x22 0 0 0xB3 0xF8 0xF8 0xF8, .mov hd 0 (.s 3) .zero)] = true := by decide +kernel

theorem test_decode_floats : reads [
    (F 0x40 3 (2 ^ 7) 1 2 3 0xF8, .fadd hd .f32 .rdn { m0 with scale := 1 } (.v 1) (.v 2) (.v 3)),
    (F 0x41 4 0 1 2 3 0xF8, .fsub hd .bf16x2 .rne m0 (.v 1) (.v 2) (.v 3)),
    (F 0x42 8 64 1 2 3 0xF8, .fmul hd .f16x2 .rne { m0 with clamp := true } (.v 1) (.v 2) (.v 3)),
    (F 0x43 9 (5 * 2 ^ 7) 1 2 3 4, .ffma hd .f16x2 .rtz { m0 with scale := 5 } (.v 1) (.v 2) (.v 3) (.v 4)),
    (F 0x44 4 0 1 2 3 0xF8, .fmin hd .bf16x2 m0 (.v 1) (.v 2) (.v 3)), (F 0x45 0 0 1 2 3 0xF8, .fmax hd .f32 m0 (.v 1) (.v 2) (.v 3)),
    (F 0x46 5 0 2 3 4 0xF8, .fcmp hd .ge m0 2 (.v 3) (.v 4)), (F 0x47 2 8 1 3 0xB4 0xF8, .fclass hd .f16 { m0 with absa := true } 1 (.v 3) (.s 4)),
    (F 0x48 2 0 1 2 0xF8 0xF8, .frnd hd .f32 .rup m0 (.v 1) (.v 2)), (F 0x49 8 0 1 2 3 0xF8, .fscale hd .f16x2 .rne m0 (.v 1) (.v 2) (.v 3)),
    (F 0x4A 1 0 1 2 0xF8 0xF8, .fexpo hd .bf16 (.v 1) (.v 2)), (F 0x4B 5 0 1 2 3 4, .fdot2 hd true .rtz m0 (.v 1) (.v 2) (.v 3) (.v 4)),
    (F 0x50 1 0 1 2 0xF8 0xF8, .frcp hd .rtz m0 (.v 1) (.v 2)), (F 0x51 2 0 1 2 0xF8 0xF8, .frsq hd .rup m0 (.v 1) (.v 2)),
    (F 0x52 3 0 1 2 0xF8 0xF8, .fsqrt hd .rdn m0 (.v 1) (.v 2)), (F 0x53 0 0 1 2 0xF8 0xF8, .fexp2 hd m0 (.v 1) (.v 2)),
    (F 0x54 0 0 1 2 0xF8 0xF8, .flog2 hd m0 (.v 1) (.v 2)), (F 0x55 0 0 1 2 0xF8 0xF8, .fsin hd m0 (.v 1) (.v 2)),
    (F 0x56 0 0 1 2 0xF8 0xF8, .fcos hd m0 (.v 1) (.v 2)), (F 0x57 0 0 1 2 0xF8 0xF8, .ftanh hd m0 (.v 1) (.v 2)),
    (F 0x58 0 0 1 2 0xF8 0xF8, .fsigm hd m0 (.v 1) (.v 2)), (F 0x59 1 2 1 2 3 0xF8, .fdiv hd .rtz { m0 with negb := true } (.v 1) (.v 2) (.v 3)),
    (F 0x60 1 0 1 2 3 0xF8, .cvt hd .f32f16 m0 (.v 1) (.v 2) (.v 3) .zero), (F 0x60 0xD 0 1 2 3 4, .cvt hd (.nf8 .rtz) m0 (.v 1) (.v 2) (.v 3) (.v 4)),
    (F 0x61 9 0 2 3 0xF8 0xF8, .ftoi hd .s64 .rtz m0 (.v 2) (.v 3)), (F 0x62 6 0 1 2 0xF8 0xF8, .itof hd .z32 .rup m0 (.v 1) (.v 2)),
    (F 0x63 4 1 1 2 0xF8 0xF8, .qpack hd .q4 { m0 with nega := true } (.v 1) (.v 2)), (F 0x64 8 0 1 2 3 4, .qunpk hd .q8 (.v 1) (.v 2) (.v 3) (.v 4))] = true := by
  decide +kernel

theorem test_decode_lanes_and_masks : reads [
    (F 0x70 11 0 0xB1 2 0xF8 0xF8, .tred hd .fadd (.s 1) (.v 2)), (F 0x71 7 0 1 2 0xF8 0xFB, .tscan hd .imaxZ32 true (.v 1) (.v 2)),
    (F 0x72 10 0 2 4 0xB6 0xF8, .tshfl hd .down true (.v 2) (.v 4) (.s 6) .zero), (F 0x73 1 0 1 2 0xF8 0xF8, .tbcst hd true false (.v 1) (.v 2) .zero .zero),
    (F 0x74 3 0 1 2 0xF8 0xF8, .vote hd .uni (.v 1) (.v 2)), (F 0x75 3 0 1 2 0xF8 0xF8, .matchL hd true true 1 (.v 2)),
    (F 0x76 3 0 2 3 4 0xF8, .kop hd 2 (.bin .andn 3 4)), (F 0x76 5 0 2 3 0xF8 0xF8, .kop hd 2 (.not 3)), (F 0x76 7 0 2 0xF8 0xF8 0xF8, .kop hd 2 .set),
    (F 0x77 0 0 1 2 0xF8 0xF8, .kcnt hd (.v 1) 2), (F 0x78 1 0 1 2 0xF8 0xF8, .kfnd hd true (.v 1) 2),
    (F 0x79 0 0 1 2 0xF8 0xF8, .kmov hd (.v2k 1 (.v 2))), (F 0x79 3 0 0xB1 2 0xF8 0xF8, .kmov hd (.k2s (.s 1) 2 .zero))] = true := by decide +kernel

theorem test_decode_memory : reads [
    (F 0x80 0 (2 * 128 + 1 * 8 + 4) 8 6 0xB0 0xF8, .ld hd ⟨.b32, .normal, .acq, .dev⟩ false (.v 8) (.v 6) (.s 0)),
    (F 0x81 0 (3 * 128 + 2 * 32 + 2 * 8 + 6) 0xF8 6 0xF8 8, .st hd ⟨.b64, .stream, .rel, .sys⟩ (.v 6) .zero (.v 8)),
    (F 0x82 1 (1 * 128 + 1) 8 7 0xF8 0xF8, .lds hd ⟨.b16, .normal, .rlx, .blk⟩ true (.v 8) (.v 7) .zero),
    (F 0x83 0 (4 * 128) 0xF8 7 0xF8 8, .sts hd ⟨.b128, .normal, .rlx, .team⟩ (.v 7) .zero (.v 8)),
    (F 0x84 0 (3 * 128 + 5) 0xB2 0xB4 0xF8 0xF8, .ldu hd ⟨.b64, .normal, .rlx, .pod⟩ false (.s 2) (.s 4) .zero),
    (F 0x85 9 (2 * 128 + 3 * 8 + 4) 1 2 0xF8 3, .atom hd ⟨.b32, .normal, .ar, .dev⟩ .cas (.v 1) (.v 2) .zero (.v 3)),
    (F 0x86 15 (2 * 128 + 1) 1 2 0xF8 3, .atoms hd ⟨.b32, .normal, .rlx, .blk⟩ .fmaxF32 (.v 1) (.v 2) .zero (.v 3)),
    (F 0x87 2 (3 * 128 + 2 * 8 + 3) 0xF8 2 0xF8 4, .red hd ⟨.b64, .normal, .rel, .die⟩ .minZ (.v 2) .zero (.v 4)),
    (F 0x88 0 (3 * 8 + 2) 0xF8 0xF8 0xF8 0xF8, .fence hd .ar .cg), (F 0x89 1 (3 * 32) 0xF8 2 3 0xF8, .pref hd true .bypass (.v 2) (.v 3)),
    (F 0x8A 2 0 0xF8 2 0xF8 0xF8, .cctl hd .drop (.v 2) .zero), (F 0x8C 5 0 0xF8 0xB1 0xF8 0xF8, .waitc hd 5 (.s 1)),
    (F 0x8D 0 (2 * 8 + 4) 2 0xF8 0xF8 0xF8, .rdc hd .rel .dev (.v 2)), (F 0x8E 8 0 0xF8 0xB2 0xB5 0xF8, .abarInit hd true (.s 2) (.s 5) .zero),
    (F 0x8E 1 0 0xB1 0xB2 0xF8 0xF8, .abarArrive hd false (.s 1) (.s 2)), (F 0x8E 2 0 0xF8 0xB2 0xB3 0xF8, .abarExpect hd false (.s 2) (.s 3)),
    (F 0x8E 3 0 0xF8 0xB2 0xB3 0xF8, .abarWait hd false (.s 2) (.s 3)), (F 0x8E 12 0 9 0xB2 0xB3 0xF8, .abarTest hd true (.v 9) (.s 2) (.s 3)),
    (F 0x8F 0 0 0xF8 0xB1 0xB2 0xF8, .bar hd (.s 1) (.s 2)), (F 0x8F 1 0 0xF8 0xF8 0xF8 0xF8, .barArrive hd .zero .zero),
    (F 0x90 0 4 0xF8 0xB1 0xF8 0xF8, .gbar hd (.s 1))] = true := by decide +kernel

theorem test_decode_control : reads [
    (F 0xA0 0 0 0xF8 0xF8 0xFE 0xFF + 2 ^ 14 * 3 + 2 ^ 17, .bra ⟨0, 3, true, none⟩ 0xFFFE), (F 0xA1 0 0 0xF8 0xB4 0 0, .brx hd (.s 4)),
    (F 0xA2 0 0 6 0xF8 0x34 0x12, .call hd (.v 6) 0x1234), (F 0xA3 0 0 6 8 0 0, .calli hd (.v 6) (.v 8)),
    (F 0xA4 0 0 0xF8 6 0 0, .ret hd (.v 6)), (F 0xA5 0 0 0xF8 0xF8 0 0, .exit hd), (F 0xA6 0 0 0xF8 0xF8 0 0, .yield hd),
    (F 0xA7 0 0 0xF8 0xB3 0 0, .pause hd (.s 3)), (F 0xA8 0 0 0xF8 0xF8 0 0, .trap hd .zero), (F 0xA9 0 0 0xF8 0xF8 0 0, .brk hd),
    (F 0xAA 0 0 0xF8 0xF8 0 0, .join hd),
    (0x001FE3E3E3E002C1, .claim hd .zero 7), (F 0xB1 0 0 0xF8 0xB1 0xF8 0xF8, .release hd (.s 1) 0),
    (F 0xB2 1 0 5 9 0xF8 0xF8 + 2 ^ 10 * 6, .xset ⟨6, 0, false, none⟩ .idx 5 (.v 9)), (F 0xB3 0 0 9 5 0xF8 0xF8, .xget hd (.v 9) 5)] = true := by
  decide +kernel

theorem test_decode_engines : reads [
    (F 0xC0 8 0 0xF8 0xB1 0xF8 0xB2, .tcopy hd true (.s 1) (.s 2)), (F 0xC1 0 0 0xF8 0xB1 0xF8 0xF8, .tgath hd false (.s 1) .zero),
    (F 0xC2 0 0 0xF8 0xB1 0xF8 0xB3, .tscat hd false (.s 1) (.s 3)), (F 0xC3 0 0 0xF8 0xB1 0xB2 0xF8, .tmcst hd (.s 1) (.s 2) .zero),
    (F 0xC4 8 (3 + 64) 0xF8 0xB2 0xB3 0xB4, .cbini hd true true 3 (.s 2) (.s 3) (.s 4)), (F 0xC5 1 0 0xB2 0xB1 0xF8 0xF8, .cbacq hd false true (.s 2) (.s 1)),
    (F 0xC6 8 0 0xF8 0xB2 0xF8 0xF8, .cbrel hd true (.s 2)), (F 0xC7 0 0 0xF8 0xB1 0xB2 0xB3, .cbput hd false (.s 1) (.s 2) (.s 3)),
    (F 0xC8 0 0 0xB3 0xB1 0xF8 0xF8, .cbres hd false (.s 3) (.s 1)), (F 0xC9 8 0 0xB3 0xB2 0xF8 0xF8, .cbst hd true (.s 3) (.s 2)),
    (F 0xCA 0 0 0xF8 0xB1 0xB2 0xB3, .tfill hd (.s 1) (.s 2) (.s 3)),
    (F 0xD0 9 0 2 0xB1 0xF8 0xF8, .ldw hd .bf16 2 (.s 1)), (F 0xD1 0 0 0xF8 0xF8 0xF8 0xF8, .wswap hd), (F 0xD2 4 0 1 2 0xB3 0xF8, .mmq hd .q4 1 2 (.s 3)),
    (F 0xD3 0 0 1 2 0xB5 0xB6, .msa hd 1 2 (.s 5) (.s 6)), (F 0xD4 8 0 1 2 3 0xB4, .mmqa hd .q8 1 2 (.v 3) (.s 4)),
    (F 0xD4 8 1 1 0xF8 0xB3 0xB4, .mmqaCb hd .q8 1 (.s 3) (.s 4)), (F 0xD5 11 0 1 2 0xB3 0xF8, .mmf hd .nf8 1 2 (.s 3)),
    (F 0xD6 2 0 1 0xB2 0xB5 0xF8, .tld hd .f16 1 (.s 2) (.s 5)), (F 0xD7 8 0 0xF8 0xB2 0xF8 3, .tst hd .b32 true (.s 2) .zero 3),
    (F 0xD8 0 0 1 0xF8 0xB2 0xF8, .tzero hd 1 (.s 2)), (F 0xD9 0 0 4 3 0xB2 0xF8, .tmvT2v hd (.v 4) 3 (.s 2)),
    (F 0xD9 1 0 3 4 0xB2 0xF8, .tmvV2t hd 3 (.v 4) (.s 2)), (F 0xDA 0 0 0xB1 3 0xF8 0xF8, .tstat hd (.s 1) 3), (F 0xDB 0 0 1 2 0xF8 0xF8, .tacc hd 1 2),
    (0x0002D6D2EBE00381, .atts hd (.s 10) (.s 4) (.s 5)), (F 0xE1 0 0 0xF8 0xB1 0xB2 0xB3, .attv hd (.s 1) (.s 2) (.s 3)),
    (F 0xE2 0 0 0xF8 0xB1 0xB2 0xB3, .attm hd (.s 1) (.s 2) (.s 3)), (0x0003E3E2F3E0038D, .evict hd (.s 12)),
    (F 0xE4 0 0 1 0xB2 3 0xF8, .platr hd (.v 1) (.s 2) (.v 3)), (F 0xE6 0 0 0xB1 0xB2 0xF8 0xF8, .rgath hd (.s 1) (.s 2)),
    (F 0xE7 0 0 0xF8 0xB2 0xF8 0xF8, .redrx hd .zero (.s 2)), (F 0xE8 0 0 0xF8 0xB1 0xB2 0xB3, .nmcall hd (.s 1) (.s 2) (.s 3)),
    (F 0xE8 1 0 0xF8 0xB1 0xB2 0xF8, .nmcallA hd (.s 1) (.s 2) .zero), (F 0xE9 0 0 0xF8 0xB1 0xB2 0xF8, .nmret hd (.s 1) (.s 2))] = true := by decide +kernel

theorem test_decode_collectives_bundles_system : reads [
    (F 0xEA 0 0 0xF8 0xB1 0xF8 0xB2, .clsend hd (.s 1) (.s 2)), (F 0xEB 0 0 0xF8 0xB1 0xF8 0xF8, .clred hd (.s 1) .zero),
    (F 0xEC 1 0 0xF8 0xB1 0xB2 0xF8, .clarm hd true (.s 1) (.s 2)), (F 0xEC 2 0 0xF8 0xF8 0xB2 0xF8, .clarmOff hd (.s 2)),
    (F 0xED 0 0 3 0xB2 0xF8 0xF8, .sbset hd 3 (.s 2)), (F 0xED 1 0 3 0xB2 0xF8 0xF8, .sbsetClr hd 3 (.s 2)),
    (F 0xED 2 0 0xB2 3 0xF8 0xF8, .sbsetRd hd (.s 2) 3), (F 0xEE 9 0 5 0xB1 0xF8 0xB2, .coll hd .redsc true 5 (.s 1) (.s 2)),
    (F 0xEF 0 0 0xB2 0xB1 0xB4 0xB5, .close hd (.s 2) (.s 1) (.s 4) (.s 5)), (F 0xF0 8 0 0xF8 0xB1 0xF8 0xF8, .bopen hd 2 (.s 1)),
    (0x44103BE00BE003C5, .stb hd 1 ⟨.b32, .normal, .rlx, .dev⟩ (.v 2) .zero (.v 14)),
    (0x4003E3E3E3E003C9, .bcommit hd 1), (F 0xF3 0xC 0 0xF8 0xF8 0xF8 0xF8, .babort hd 3), (F 0xF4 0 0 0xB2 0xF8 0xF8 0xF8, .vsnap hd (.s 2)),
    (0x04100FE0085003D5, .ldv hd ⟨.b32, .normal, .rlx, .dev⟩ false (.v 20) (.v 2) .zero 3),
    (F 0xF6 0 0 0xF8 0xB1 0xB2 0xB4, .bfetch hd (.s 1) (.s 2) (.s 4)), (F 0xF8 2 0 3 0xF8 0xF8 0x08, .srd hd .hi (.v 3) 8),
    (F 0xF9 0 0 0xF8 0xB1 0xF8 0x0C, .swr hd .full 0x0C (.s 1)), (F 0xFA 0 0 0xF8 0xB1 0xF8 0x40, .swrp hd 0x40 (.s 1)),
    (F 0xFB 0 0 0xF8 0xB1 0xF8 0xF8, .ovld hd (.s 1)), (F 0xFC 1 0 0xF8 0xF8 0xF8 0xF8, .tret hd true), (F 0xFD 0 0 0xF8 0xF8 0xF8 0xF8, .halt hd),
    (0x002818480024150B, .pair ⟨2, 0, ⟨0, false, 9, 5, 1⟩⟩ ⟨18, 0, ⟨0, false, 10, 6, 0⟩⟩)] = true := by decide +kernel

/-- Literals (R61): the third word of an L96, the offset of R68, and the zero-extended third word of a 64-bit move (R180). -/
theorem test_decode_literals : reads96 [
    (L (F 0x14 0 0 4 5 0xFA 0xF8) 7, .shl ⟨0, 0, false, some 7⟩ 0 (.v 4) (.v 5) .lit),
    (L (F 0xA0 0 0 0xF8 0xF8 0 0) 0xFFFFFFFF, .bra ⟨0, 0, false, some 0xFFFFFFFF⟩ 0),
    (L (F 0xA7 0 0 0xF8 0xFA 0 0) 100, .pause ⟨0, 0, false, some 100⟩ .lit),
    (L (F 0xED 0 0 3 0xFA 0xF8 0xF8) 1, .sbset ⟨0, 0, false, some 1⟩ 3 .lit)] = true := by decide +kernel

theorem test_decode_compact : reads32 [
    (C 0 56 0 0 + 2 ^ 30, .entryWord ⟨0, false, 0, 56, 0⟩), (0, .compactNop 0 ⟨0, false, 0, 0, 0⟩), (C 1 1 0xF9 0 + 2 ^ 8, .compactMov ⟨0, false, 0xF9, 1, 1⟩),
    (C 2 2 200 1 + 2 ^ 27 * 4 + 2 ^ 9, .compactIaddS32 ⟨4, true, 200, 2, 2⟩), (C 3 1 2 0, .compactIsubS32 ⟨0, false, 2, 1, 0⟩),
    (C 4 1 2 0, .compactImulS32 ⟨0, false, 2, 1, 0⟩), (C 5 1 2 0, .compactIminS32 ⟨0, false, 2, 1, 0⟩), (C 6 1 2 0, .compactImaxS32 ⟨0, false, 2, 1, 0⟩),
    (C 7 1 2 0, .compactAnd ⟨0, false, 2, 1, 0⟩), (C 8 1 2 0, .compactOr ⟨0, false, 2, 1, 0⟩), (C 9 1 2 0, .compactXor ⟨0, false, 2, 1, 0⟩),
    (C 10 1 2 0, .compactShl ⟨0, false, 2, 1, 0⟩), (C 11 1 2 0, .compactShr ⟨0, false, 2, 1, 0⟩), (C 12 1 2 0, .compactSar ⟨0, false, 2, 1, 0⟩),
    (C 13 4 2 0, .compactIaddS64 ⟨0, false, 2, 4, 0⟩), (C 14 1 2 0, .compactPopc ⟨0, false, 2, 1, 0⟩), (C 15 1 2 0, .compactClz ⟨0, false, 2, 1, 0⟩),
    (C 16 1 2 0, .compactFaddF32 ⟨0, false, 2, 1, 0⟩), (C 17 1 2 0, .compactFsubF32 ⟨0, false, 2, 1, 0⟩), (C 18 1 2 0, .compactFmulF32 ⟨0, false, 2, 1, 0⟩),
    (C 19 1 2 0, .compactFminF32 ⟨0, false, 2, 1, 0⟩), (C 20 1 2 0, .compactFmaxF32 ⟨0, false, 2, 1, 0⟩), (C 21 1 2 0, .compactFaddBf16x2 ⟨0, false, 2, 1, 0⟩),
    (C 22 1 2 0, .compactFmulBf16x2 ⟨0, false, 2, 1, 0⟩), (C 23 1 2 0, .compactFrcp ⟨0, false, 2, 1, 0⟩), (C 24 1 2 0, .compactFrsq ⟨0, false, 2, 1, 0⟩),
    (C 25 1 2 0, .compactFexp2 ⟨0, false, 2, 1, 0⟩), (C 26 1 2 0, .compactCvtF32Bf16lo ⟨0, false, 2, 1, 0⟩), (C 27 1 2 0, .compactCvtBf16F32 ⟨0, false, 2, 1, 0⟩),
    (C 28 1 2 0, .compactItofS32 ⟨0, false, 2, 1, 0⟩), (C 29 1 2 0, .compactFtoiS32 ⟨0, false, 2, 1, 0⟩), (C 30 1 2 0, .compactIcmpEq ⟨0, false, 2, 1, 0⟩),
    (C 31 1 2 0, .compactIcmpLtS32 ⟨0, false, 2, 1, 0⟩), (C 32 1 2 0, .compactFcmpLt ⟨0, false, 2, 1, 0⟩), (C 33 1 2 0, .compactSel ⟨0, false, 2, 1, 0⟩),
    (C 34 1 2 0 + 2 ^ 30, .compactLds32 1 ⟨0, false, 2, 1, 0⟩), (C 35 1 2 0 + 2 ^ 31, .compactSts32 2 ⟨0, false, 2, 1, 0⟩),
    (C 36 1 2 0, .compactLd32 0 ⟨0, false, 2, 1, 0⟩), (C 37 1 2 0 + 2 ^ 31, .compactSt32 2 ⟨0, false, 2, 1, 0⟩), (C 38 1 3 1, .compactTshflXor ⟨0, true, 3, 1, 0⟩),
    (C 39 0 15 1, .compactBar ⟨0, true, 15, 0, 0⟩), (C 40 0 0xA7 1, .compactWaitc ⟨0, true, 0xA7, 0, 0⟩), (C 41 0 0 0, .compactYield ⟨0, false, 0, 0, 0⟩),
    (C 42 0xFE 0xFF 1 + 2 ^ 27 * 7, .compactBra ⟨7, true, 0xFF, 0xFE, 0⟩), (C 43 0 0 0, .compactExit ⟨0, false, 0, 0, 0⟩), (C 44 0 0 0, .compactRet ⟨0, false, 0, 0, 0⟩),
    (C 45 0xB1 9 1, .compactAbarWait ⟨0, true, 9, 0xB1, 0⟩), (C 46 0xB1 0xB2 0, .compactCbacq ⟨0, false, 0xB2, 0xB1, 0⟩),
    (C 47 0 0xB2 0, .compactCbrel ⟨0, false, 0xB2, 0, 0⟩)] = true := by decide +kernel

/-- Words that R63 to R75 and R90 refuse. -/
theorem test_decode_refuses :
    (([F 0x23 0 0 1 2 3 0xF8, F 0x8B 0 0 1 2 3 0xF8, F 0xE5 0 0 1 2 3 0xF8, F 0xFE 0 0 0xF8 0xF8 0xF8 0xF8, F 0x01 0 0 1 2 3 0xF7, F 0x01 0 0 1 2 0xFC 0xF8,
      F 0x01 0 0 1 2 0xFA 0xF8, F 0x01 0 0 0xF9 2 3 0xF8, F 0x01 2 0 1 2 4 0xF8, F 0x05 8 0 1 2 3 0xF8, F 0x40 12 0 1 2 3 0xF8, F 0x0D 0 0 0 2 3 0xF8,
      F 0x01 0 64 1 2 3 0xF8, F 0x80 0 (5 * 128) 8 6 0xF8 0xF8, F 0x80 0 (2 * 128 + 7) 8 6 0xF8 0xF8, F 0x8C 6 0 0xF8 0xB1 0xF8 0xF8,
      F 0x88 0 4 0xF8 0xF8 0xF8 0xF8, F 0xA1 0 0 0xF8 7 0 0, F 0xB0 0 23 0xF8 0xF8 0xF8 0xF8, F 0xD5 9 0 1 3 0xB3 0xF8, F 0xFA 0 0 0xF8 0xB1 0xF8 0x41,
      0x002418480024150B].all fun w => (decodeTableWord 64 w).isNone) &&
    ([C 48 1 2 0, C 1 1 0xFA 0, C 2 1 2 0 + 2 ^ 30, C 39 0 16 1, C 40 0 0xC0 1, C 34 1 2 1].all fun w => (decodeTableWord 32 w).isNone)) = true := by decide +kernel

/-! Well-formedness: a term that each check of Machine/Forms.lean refuses, beside a term it lets pass. -/

theorem test_wf_accepts :
    (([.nop hd, .iadd hd .s32 true m0 (.v 1) (.v 2) (.v 3), .iadd hd .s64 false m0 (.s 2) (.s 4) .ones, .ffma hd .f32 .rne m0 (.x 1) .lane (.s 3) (.v 2),
      .ld hd ⟨.b128, .keep, .acq, .sys⟩ false (.v 8) (.v 6) .zero, .claim hd .zero 22, .entryWord ⟨0, true, 1, 3, 0⟩,
      .pair ⟨2, 0, ⟨0, false, 9, 5, 1⟩⟩ ⟨18, 0, ⟨0, false, 10, 6, 0⟩⟩] : List Instr).all Instr.wf) = true := by decide +kernel

theorem test_wf_refuses :
    (([ -- no literal stands with it (R63), or one stands where none may (R180)
      .iadd hd .s32 false m0 (.v 1) (.v 2) .lit, .nop ⟨0, 0, false, some 1⟩, .kop ⟨0, 0, false, some 1⟩ 1 .clr,
      -- destinations (R63), pairs, scalar destinations (R64, R167)
      .iadd hd .s32 false m0 .lane (.v 2) (.v 3), .iadd hd .s32 false m0 .lit (.v 2) (.v 3), .iadd hd .s64 false m0 (.v 1) (.v 2) (.v 4),
      .iadd hd .s64 false m0 (.v 2) (.v 3) (.v 4), .iadd hd .s64 false m0 (.s 3) (.s 2) (.s 4), .iadd hd .s32 false m0 (.s 1) (.v 2) (.s 3),
      .mov hd 0 (.s 1) .lane, .sel hd 0 (.s 1) (.s 2) (.s 3) 1, .qpack hd .q4 m0 (.s 1) (.v 2), .tscan hd .iadd false (.s 1) (.v 2),
      -- modifiers (R66) and types (R69)
      .iadd hd .s32 false { m0 with negc := true } (.v 1) (.v 2) (.v 3), .iadd hd .s32 false { m0 with clamp := true } (.v 1) (.v 2) (.v 3),
      .iadd hd .s32 false { m0 with scale := 1 } (.v 1) (.v 2) (.v 3), .fmin hd .f32 { m0 with scale := 1 } (.v 1) (.v 2) (.v 3),
      .ftoi hd .s32 .rne { m0 with negb := true } (.v 1) (.v 2), .itof hd .s32 .rne { m0 with nega := true } (.v 1) (.v 2),
      .iadd3 hd .s16x2 false m0 (.v 1) (.v 2) (.v 3) (.v 4), .imulh hd .s8x4 (.v 1) (.v 2) (.v 3),
      .cvt hd .f32bf16 { m0 with nega := true } (.v 1) (.v 2) .zero .zero, .cvt hd (.bf16 .rne) m0 (.v 1) (.v 2) (.v 3) (.v 4),
      -- masks (R63, R158), uniform operands (R185, R196)
      .icmp hd .s32 .eq 0 (.v 1) (.v 2), .fcmp hd .lt m0 0 (.v 1) (.v 2), .matchL hd false false 0 (.v 2), .kmov hd (.v2k 0 (.v 1)),
      .fclass hd .f32 m0 1 (.v 2) (.v 3), .tshfl hd .up false (.v 1) (.v 2) (.v 3) .zero, .tbcst hd true false (.v 1) (.v 2) (.s 1) .zero,
      .kmov ⟨0, 1, false, none⟩ (.k2s (.s 1) 2 .zero), .kmov hd (.k2s (.v 1) 2 .zero)] : List Instr).any Instr.wf) = false ∧
    (([ -- memory (R203, R207, R208, R211, R214, R216, R220, R221, R226)
      .ld hd ⟨.b32, .normal, .rel, .dev⟩ false (.v 8) (.v 6) .zero, .ld hd ⟨.b32, .normal, .rlx, .dev⟩ true (.v 8) (.v 6) .zero,
      .ld hd ⟨.b128, .normal, .rlx, .dev⟩ false (.v 6) (.v 6) .zero, .ld hd ⟨.b32, .normal, .rlx, .dev⟩ false (.s 8) (.v 6) .zero,
      .ld hd ⟨.b32, .normal, .rlx, .dev⟩ false (.v 8) (.v 7) .zero, .ld hd ⟨.b32, .normal, .rlx, .dev⟩ false (.v 8) (.v 6) .lane,
      .lds hd ⟨.b32, .keep, .rlx, .blk⟩ false (.v 8) (.v 7) .zero, .st hd ⟨.b32, .normal, .acq, .dev⟩ (.v 6) .zero (.v 8),
      .st ⟨0, 0, false, some 1⟩ ⟨.b128, .normal, .rlx, .dev⟩ (.v 6) .zero .lit, .ldu hd ⟨.b64, .normal, .rlx, .dev⟩ false (.s 3) (.s 4) .zero,
      .ldu ⟨0, 1, false, none⟩ ⟨.b32, .normal, .rlx, .dev⟩ false (.s 3) (.s 4) .zero, .atom hd ⟨.b16, .normal, .rlx, .dev⟩ .add (.v 1) (.v 2) .zero (.v 3),
      .atom hd ⟨.b64, .normal, .rlx, .dev⟩ .faddF32 (.v 2) (.v 4) .zero (.v 6), .atom hd ⟨.b32, .normal, .rlx, .dev⟩ .cas .zero (.v 2) .zero (.v 3),
      .red hd ⟨.b32, .normal, .rlx, .dev⟩ .exch (.v 2) .zero (.v 3), .red hd ⟨.b32, .normal, .acq, .dev⟩ .add (.v 2) .zero (.v 3), .fence hd .rlx .dev,
      .waitc hd 6 .zero, .waitc hd 0 (.v 1), .abarWait hd true (.s 3) .zero, .bar ⟨0, 1, false, none⟩ .zero .zero, .gbar hd (.v 1),
      -- control and registers (R149, R154)
      .brx hd (.v 3), .brx hd (.x 1), .call hd (.s 2) 0, .ret hd (.s 2), .yield ⟨0, 1, false, none⟩, .claim hd .zero 23, .claim hd (.s 1) 1,
      .xget hd (.s 1) 1,
      -- engines (R278, R317, R343, R371, R395, R421)
      .tcopy hd true (.s 1) .zero, .tmcst hd (.s 1) (.s 3) .zero, .cbacq hd false true (.s 3) (.s 1), .ldw hd .bf16 1 (.s 1), .mmf hd (.q .q4) 1 2 (.s 3),
      .mmqa hd .q4 1 2 (.s 1) (.s 3), .tld hd .nf8 1 (.s 2) .zero, .tst hd .f16 true (.s 2) .zero 1, .tmvT2v hd (.s 1) 1 .zero,
      .atts hd (.s 1) (.v 1) (.s 2), .platr hd (.s 1) (.s 2) (.v 3), .nmcallA hd (.s 1) (.s 3) .zero, .coll hd .bcast true 1 (.s 1) .zero,
      .sbsetRd hd (.s 1) 0, .close hd (.s 1) (.s 2) (.s 3) (.s 4), .stb hd 0 ⟨.b32, .normal, .rlx, .die⟩ (.v 2) .zero (.v 4),
      .ldv hd ⟨.b32, .normal, .rlx, .dev⟩ false (.v 2) (.v 4) .zero 0, .bfetch hd (.s 1) (.s 3) (.s 4),
      -- system registers (R145, R160)
      .srd hd .full (.v 1) 0x15, .srd hd .full (.v 1) 8, .srd hd .lo (.v 1) 0x0C, .srd hd .full (.s 1) 0, .swr hd .full 8 (.s 2), .swrp hd 0x41 (.s 1),
      -- the compact form and the pair (R71 to R74)
      .compactNop 1 ⟨0, false, 0, 0, 0⟩, .compactMov ⟨0, false, 0xFA, 1, 0⟩, .compactIaddS64 ⟨0, false, 2, 3, 0⟩, .compactBar ⟨0, true, 16, 0, 0⟩,
      .compactExit ⟨0, false, 0, 1, 0⟩, .compactTshflXor ⟨0, false, 1, 1, 0⟩,
      .pair ⟨2, 0, ⟨1, false, 9, 5, 1⟩⟩ ⟨18, 0, ⟨0, false, 10, 6, 0⟩⟩, .pair ⟨2, 0, ⟨0, false, 9, 5, 1⟩⟩ ⟨18, 0, ⟨0, false, 5, 6, 0⟩⟩,
      .pair ⟨2, 0, ⟨0, false, 9, 5, 1⟩⟩ ⟨18, 0, ⟨0, false, 13, 17, 0⟩⟩, .pair ⟨30, 0, ⟨0, false, 9, 5, 1⟩⟩ ⟨33, 0, ⟨0, false, 10, 6, 0⟩⟩,
      .pair ⟨2, 0, ⟨0, false, 9, 5, 1⟩⟩ ⟨34, 0, ⟨0, false, 10, 6, 0⟩⟩, .pair ⟨2, 0, ⟨0, false, 0xF0, 5, 1⟩⟩ ⟨18, 0, ⟨0, false, 10, 6, 0⟩⟩,
      .pair ⟨43, 0, ⟨0, false, 0, 0, 0⟩⟩ ⟨18, 0, ⟨0, false, 10, 6, 0⟩⟩] : List Instr).any Instr.wf) = false := by decide +kernel

/-! One step each, with the value that the spec gives for it. -/

/-- A team of n lanes on core 0. -/
def teamOf (n : Nat) : Team := newTeam 0 0 n 0 (w64 progVa) 176 [] 0 0 (176 * n)

/-- The state after an instruction of a team of n lanes whose vector and scalar registers hold what is given. -/
def after (i : Instr) (n : Nat) (v s : SMap W32) : Option Env :=
  match exec i (stateOf (fun l => { l with hdr := { l.hdr with e := [n, 1, 1, 1, 1, 1] } }) (fun b => { b with teams := [{ teamOf n with v := v, s := s }] }) id) with
  | .next t => getEnv t
  | _ => none

/-- Register v r of lane l after it. -/
def vAt (e : Option Env) (r l : Nat) : Option Nat := e.map fun e => (smGet 0 e.team.v (1024 * r + l)).toNat
def sAt (e : Option Env) (r : Nat) : Option Nat := e.map fun e => (smGet 0 e.team.s r).toNat

/-- Two sources in v1 and v2 of one lane, the result in v3. -/
def op2 (i : Instr) (a b : W32) : Option Nat := vAt (after i 1 [(1024, a), (2048, b)] []) 3 0

theorem test_iadd_wraps_and_saturates :
    op2 (.iadd hd .s32 false m0 (.v 3) (.v 1) (.v 2)) 0xFFFFFFFF 2 = some 1 ∧
    op2 (.iadd hd .s32 true m0 (.v 3) (.v 1) (.v 2)) 0x7FFFFFFF 2 = some 0x7FFFFFFF ∧
    op2 (.isub hd .z8x4 true m0 (.v 3) (.v 1) (.v 2)) 0x05050505 0x04060406 = some 0x01000100 := by decide +kernel

/-- The quotients of R39's examples: 7 by −2, and 0x80000000 by 0xFFFFFFFF without and with `.sat`; a zero divisor gives 0 and a. -/
theorem test_division :
    op2 (.idiv hd .s32 false (.v 3) (.v 1) (.v 2)) 7 0xFFFFFFFE = some 0xFFFFFFFD ∧
    op2 (.irem hd .s32 (.v 3) (.v 1) (.v 2)) 0xFFFFFFF9 2 = some 0xFFFFFFFF ∧
    op2 (.idiv hd .s32 false (.v 3) (.v 1) (.v 2)) 0x80000000 0xFFFFFFFF = some 0x80000000 ∧
    op2 (.idiv hd .s32 true (.v 3) (.v 1) (.v 2)) 0x80000000 0xFFFFFFFF = some 0x7FFFFFFF ∧
    op2 (.idiv hd .z32 false (.v 3) (.v 1) (.v 2)) 5 0 = some 0 ∧ op2 (.irem hd .z32 (.v 3) (.v 1) (.v 2)) 5 0 = some 5 := by decide +kernel

theorem test_shifts_and_fields :
    op2 (.shl hd 0 (.v 3) (.v 1) (.v 2)) 1 33 = some 2 ∧ op2 (.sar hd 0 (.v 3) (.v 1) (.v 2)) 0x80000000 31 = some 0xFFFFFFFF ∧
    op2 (.bfe hd true (.v 3) (.v 1) (.v 2)) 0xF0 0x404 = some 0xFFFFFFFF ∧ op2 (.bfe hd false (.v 3) (.v 1) (.v 2)) 0x80000000 0x081F = some 1 := by decide +kernel

/-- Ties to even, R33's subnormals, and the signs of zero (R31, R66, R183). -/
theorem test_floats :
    op2 (.fadd hd .f32 .rne m0 (.v 3) (.v 1) (.v 2)) 0x3F800000 0x33800000 = some 0x3F800000 ∧
    op2 (.fadd hd .f32 .rup m0 (.v 3) (.v 1) (.v 2)) 0x3F800000 0x33800000 = some 0x3F800001 ∧
    op2 (.fmul hd .f32 .rne m0 (.v 3) (.v 1) (.v 2)) 0x00800000 0x3F000000 = some 0x00400000 ∧
    op2 (.fsub hd .f32 .rne { m0 with clamp := true } (.v 3) (.v 1) (.v 2)) 0x3F800000 0x40000000 = some 0 ∧
    op2 (.fmin hd .f32 m0 (.v 3) (.v 1) (.v 2)) 0 0x80000000 = some 0x80000000 ∧
    op2 (.fmax hd .f32 m0 (.v 3) (.v 1) (.v 2)) 0x7FC00000 0xBF800000 = some 0xBF800000 ∧
    op2 (.fadd hd .f32 .rne m0 (.v 3) (.v 1) (.v 2)) 0x7F800000 0xFF800000 = some 0x7FC00000 ∧
    op2 (.frcp hd .rne m0 (.v 3) (.v 1)) 0x80000000 0 = some 0xFF800000 ∧ op2 (.fexpo hd .f32 (.v 3) (.v 1)) 1 0 = some 0xFFFFFF6B := by decide +kernel

/-- A source of 300.0 gives NF8 0x7E under the reset overflow table (R47); 2^31 gives the nearer end of s32, and a NaN 0 (R49). -/
theorem test_conversions :
    op2 (.cvt hd (.nf8 .rne) m0 (.v 3) (.v 1) .zero .zero) 0x43960000 0 = some 0x7E ∧
    op2 (.ftoi hd .s32 .rne m0 (.v 3) (.v 1)) 0x4F000000 0 = some 0x7FFFFFFF ∧ op2 (.ftoi hd .s32 .rne m0 (.v 3) (.v 1)) 0x7FC00000 0 = some 0 ∧
    op2 (.itof hd .s32 .rne m0 (.v 3) (.v 1)) 0x01000001 0 = some 0x4B800000 := by decide +kernel

/-- R44's block of 7.9, −2.5, 0.75 and 3.5: mantissa bytes E7 41, then zeros, and the exponent byte 0x7F. -/
theorem test_qpack_block :
    (let e := after (.qpack hd .q4 m0 (.v 3) (.v 1)) 32 [(1024, 0x40FCCCCD), (1025, 0xC0200000), (1026, 0x3F400000), (1027, 0x40600000)] []
    [vAt e 3 0, vAt e 3 1, vAt e 3 3, vAt e 3 4, vAt e 3 31]) = [some 0x41E7, some 0, some 0, some 0x7F, some 0x7F] := by decide +kernel

/-- The example of R52: the sum of a team of four lanes is 16,777,218, and its exclusive prefix starts at −0. -/
theorem test_lane_tree :
    (let v : SMap W32 := [(10240, 0x4B800000), (10241, 0x3F800000), (10242, 0x3F800000), (10243, 0x3F800000)]
    let x := after (.tscan hd .fadd true (.v 12) (.v 10)) 4 v []
    [sAt (after (.tred hd .fadd (.s 4) (.v 10)) 4 v []) 4, vAt (after (.tscan hd .fadd false (.v 11) (.v 10)) 4 v []) 11 2, vAt x 12 0, vAt x 12 3]) =
      [some 0x4B800001, some 0x4B800000, some 0x80000000, some 0x4B800000] := by decide +kernel

/-- A shuffle from the next lane, whose last lane takes c; a vote; the lanes a match leads. -/
theorem test_cross_lane :
    (let e := after (.tshfl ⟨0, 0, false, some 1⟩ .down false (.v 3) (.v 1) .lit .ones) 2 [(1024, 5), (1025, 6)] []
    [vAt e 3 0, vAt e 3 1, vAt (after (.vote hd .uni (.v 3) (.v 1)) 2 [(1024, 5), (1025, 6)] []) 3 0]) = [some 6, some 0xFFFFFFFF, some 0] ∧
    (after (.matchL hd false false 2 (.v 1)) 2 [(1024, 5), (1025, 5)] []).map (fun e => e.team.getK e.rcd 2) = some 1 := by decide +kernel

/-- Scratchpad: a byte store of the low bits, and an atomic that wraps at its operand (R203, R211). -/
theorem test_scratchpad :
    op2 (.atoms hd ⟨.b32, .normal, .rlx, .blk⟩ .dec (.v 3) (.v 1) .zero (.v 2)) 8 7 = some 0 ∧
    (after (.sts hd ⟨.b8, .normal, .rlx, .blk⟩ (.v 1) .zero (.v 2)) 1 [(1024, 8), (2048, 0x1234)] []).map (fun e => leNat (e.blk.bytes 8 4)) = some 0x34 ∧
    (after (.atoms hd ⟨.b32, .normal, .rlx, .blk⟩ .dec (.v 3) (.v 1) .zero (.v 2)) 1 [(1024, 8), (2048, 7)] []).map (fun e => leNat (e.blk.bytes 8 4)) = some 7 := by
  decide +kernel

/-- R56 and R57: the residues of the worked elements, and the closure word of 1.0, −1.0, 3.0 and 2^−24 (R413). -/
theorem test_residues :
    [0x3F800000, 0xBF800000, 0x40400000, 0x33800000, 0x3DCCCCCD, 1].map (fun x => (elemWeight 0 x).1) =
      [0x8000000, 0x1FFFFFFFF7FFFFFF, 0x18000000, 8, 0xCCCCCD, 1] ∧
    closureWord 0 [0x3F800000, 0xBF800000, 0x40400000, 0x33800000] false = 0x4000000018000008 := by decide +kernel

/-- R448: the grant at 5,000,000 of 400 ns; and why a slice drops leases that slept 40 ms (R450). -/
theorem test_lease_stamps :
    stampOf 5000400 = 78131 ∧ stampValid 78131 5000383 = true ∧ stampValid 78131 5000384 = false ∧ stampOf 6000400 = 93756 ∧
    stampValid 93756 26000100 = false ∧ stampValid 93756 46000100 = true := by decide +kernel

/-- A trap that no handler takes stops its launch; a jump to an address that starts no instruction is PCALIGN, with the address in `%trapa` (R60, R91). -/
theorem test_traps_stop :
    (match exec (.brk hd) one with | .next t => t.launches.map (fun l => l.state) | _ => []) = [LState.stopping] ∧
    (match exec (.brx hd (.v 4)) (mapped fun t => { t with v := [(4096, 0x10002)] }) with
      | .next t => t.launches.filterMap fun l => l.stop.map fun p => (p.cause, p.trapa.toNat) | _ => []) = [(3, 0x10002)] := by decide +kernel

end Sys2Proof.Tests
end

section
/-! Division (R39, R171): the quotient and the remainder as the statements write them, and what a division writes. -/

namespace Sys2Proof.Machine

/-- R39's quotient: 0 for a zero divisor, else truncated toward zero and brought into the type. -/
theorem divInt_eq_inType (sg : Bool) (w : Nat) (sat : Bool) (x y : Int) :
    divInt sg w sat x y = if y = 0 then 0 else inType sat sg w (x.tdiv y) := by
  rw [divInt, narrowInt_eq]

/-- R39's remainder: the dividend for a zero divisor, else what the truncated quotient leaves of the dividend. -/
theorem remInt_eq_inType (sg : Bool) (w : Nat) (x y : Int) :
    remInt w x y = if y = 0 then inType false sg w x else inType false sg w (x - y * x.tdiv y) := by
  rw [remInt, wrapInt_eq sg, wrapInt_eq sg, Int.tmod_def]

/-- An instruction that means a division writes what `g` gives for the dividend and the divisor of each lane. -/
theorem writes_of_divOp {ins : Instr} {ty : ITy} {d a b : Opnd} {g : Int → Int → Nat} {i : Iss} {s : State} {e : Env} {c : Ctx}
    (hr : Runs (divOp ty d a b g).form i s e c) (hx : exec ins s = (divOp ty d a b g).run i s) :
    Writes ins (divOp ty d a b g).form s e c d (ityRegs ty) fun l =>
      g (readInt (itySigned ty) (ityWidth ty) (c.rdTy 0 a ty l)) (readInt (itySigned ty) (ityWidth ty) (c.rdTy 1 b ty l)) :=
  writes_of hr hx rfl

end Sys2Proof.Machine

open Sys2Proof Sys2Proof.Machine

/-- Settles O3: both instructions are divisions, so each writes its formula, and the formulas are R39's. -/
theorem divisionResults : Obligations.DivisionResults := by
  unfold Obligations.DivisionResults
  intro h ty sat d a b s e c n f w x y hr
  constructor
  · have hq : Writes (.idiv h ty sat d a b) f s e c d n fun l => divInt (itySigned ty) w sat (x l) (y l) :=
      writes_of_divOp hr rfl
    simpa only [divInt_eq_inType] using hq
  · have hm : Writes (.irem h ty d a b) f s e c d n fun l => remInt w (x l) (y l) :=
      writes_of_divOp hr rfl
    simpa only [remInt_eq_inType (itySigned ty)] using hm

end

section
/-! Index registers (R133, R157): what `XSET` makes of one lane's register, what its effect and the post-step leave of a team. -/

namespace Sys2Proof.Machine

/-! The value in one lane: the field [23:16] replaced, as R157 writes it. -/

/-- The bits of a register with a new index: 31 to 24 and 15 to 0 stay, 23 to 16 are the value's low eight. -/
theorem getLsbD_xWithIndex (x v : W32) (j : Nat) (hj : j < 32) :
    (xWithIndex x (v.toNat % 256)).getLsbD j = if j < 16 ∨ 24 ≤ j then x.getLsbD j else v.getLsbD (j - 16) := by
  have hfields : 2 ^ 24 * xStep x + 2 ^ 16 * (v.toNat % 256 % 256) + x.toNat % 2 ^ 16
      = 2 ^ 16 * (2 ^ 8 * (x.toNat / 2 ^ 24 % 2 ^ 8) + v.toNat % 2 ^ 8) + x.toNat % 2 ^ 16 := by
    simp only [xStep, bitsOf]; omega
  rw [xWithIndex, hfields, w32, BitVec.getLsbD_ofNat,
    Nat.testBit_two_pow_mul_add _ (Nat.mod_lt _ (by decide)), Nat.testBit_two_pow_mul_add _ (Nat.mod_lt _ (by decide))]
  simp only [Nat.testBit_mod_two_pow, Nat.testBit_div_two_pow, BitVec.testBit_toNat]
  rcases Nat.lt_or_ge j 16 with hlow | hlow
  · simp [hlow, hj]
  · rcases Nat.lt_or_ge j 24 with hmid | hmid
    · have hin : j - 16 < 8 := by omega
      simp [hin, hj, Nat.not_lt.mpr hlow, Nat.not_le.mpr hmid]
    · have hout : ¬ j - 16 < 8 := by omega
      have htop : j - 16 - 8 < 8 := by omega
      have hback : j - 16 - 8 + 24 = j := by omega
      simp [hmid, hout, htop, hback, hj, Nat.not_lt.mpr hlow]

/-- The bits of the two masks with which R157's field is written. -/
theorem indexMask_getLsbD : ∀ j, j < 32 → ((0xFF00FFFF : Nat) : W32).getLsbD j = decide (j < 16 ∨ 24 ≤ j) := by decide
theorem byteMask_getLsbD : ∀ j, j < 32 → (0xFF : W32).getLsbD j = decide (j < 8) := by decide

/-- The index field replaced by arithmetic is the field replaced by masks. -/
theorem xWithIndex_eq_mask (x v : W32) :
    xWithIndex x (v.toNat % 256) = (x &&& 0xFF00FFFF) ||| ((v &&& 0xFF) <<< 16) := by
  refine BitVec.eq_of_getLsbD_eq fun j hj => ?_
  have hsub : j - 16 < 32 := by omega
  rw [getLsbD_xWithIndex x v j hj, BitVec.getLsbD_or, BitVec.getLsbD_and, BitVec.getLsbD_shiftLeft, BitVec.getLsbD_and,
    indexMask_getLsbD j hj, byteMask_getLsbD _ hsub]
  by_cases hkept : j < 16 ∨ 24 ≤ j
  · have hout : j < 16 ∨ ¬ j - 16 < 8 := by omega
    rcases hout with hlow | hout
    · simp [hlow]
    · simp [hkept, hout]
  · obtain ⟨hlow, hhigh⟩ := not_or.mp hkept
    have hfield : j - 16 < 8 := by omega
    simp [hlow, hhigh, hfield, hj]

/-- R157's sum of the index and a value needs only the value's low bits. -/
theorem xIndex_add_mod (x v : W32) : (xIndex x + v.toNat) % 256 = ((x >>> 16) + v).toNat % 256 := by
  simp only [xIndex, bitsOf, BitVec.toNat_add, BitVec.toNat_ushiftRight, Nat.shiftRight_eq_div_pow]
  omega

/-- Sub 1: the index becomes a[7:0]. -/
theorem xsetVal_idx (x v : W32) : xsetVal .idx x v = (x &&& 0xFF00FFFF) ||| ((v &&& 0xFF) <<< 16) :=
  xWithIndex_eq_mask x v

/-- Sub 2: the index becomes its sum with a, mod 256. -/
theorem xsetVal_add (x v : W32) :
    xsetVal .add x v = (x &&& 0xFF00FFFF) ||| ((((x >>> 16) + v) &&& 0xFF) <<< 16) :=
  (congrArg (xWithIndex x) (xIndex_add_mod x v)).trans (xWithIndex_eq_mask x _)

/-! One register in several lanes. -/

/-- Index register q takes `val` in the lanes of a list. -/
def setXLanes (q : Nat) (val : Nat → Nat → W32) (ls : List Nat) (t : Team) : Team :=
  ls.foldl (fun t l => t.setX q l (val q l)) t

theorem setXLanes_onlyX (q : Nat) (val : Nat → Nat → W32) (ls : List Nat) : ∀ t, OnlyX t (setXLanes q val ls t) := by
  induction ls with
  | nil => intro t; rfl
  | cons a ls ih => intro t; exact OnlyX.trans (show OnlyX t (t.setX q a (val q a)) from rfl) (ih _)

theorem setXLanes_getX (q : Nat) (val : Nat → Nat → W32) (ls : List Nat) (hls : ∀ l ∈ ls, l < 1024) {q' l' : Nat}
    (hl' : l' < 1024) : ∀ t, (setXLanes q val ls t).getX q' l' = if q' = q ∧ l' ∈ ls then val q' l' else t.getX q' l' := by
  induction ls with
  | nil => intro t; simp [setXLanes]
  | cons a ls ih =>
    intro t
    have ha : a < 1024 := hls a List.mem_cons_self
    have htl := ih (fun l h => hls l (List.mem_cons_of_mem _ h)) (t.setX q a (val q a))
    calc (setXLanes q val (a :: ls) t).getX q' l'
        = if q' = q ∧ l' ∈ ls then val q' l' else (t.setX q a (val q a)).getX q' l' := htl
      _ = if q' = q ∧ l' ∈ a :: ls then val q' l' else t.getX q' l' := by
        rw [Team.getX_setX _ _ _ _ ha hl']
        by_cases hat : q' = q ∧ l' = a
        · obtain ⟨rfl, rfl⟩ := hat; simp
        · rw [if_neg hat]
          have hin : (q' = q ∧ l' ∈ a :: ls) ↔ (q' = q ∧ l' ∈ ls) := by
            rw [List.mem_cons]; tauto
          simp only [hin]

/-! A team whose index registers an instruction has set. -/

/-- Where a team does not probe, what follows one form's effect is the post-step of its index registers: v, s and k stay. -/
theorem ended_one_spec (t : Team) (f : Form) (c : Ctx) (now : Nat) (hp : t.probe = none) :
    let u := t.ended [(f, c)] now
    (u.v = t.v ∧ u.s = t.s ∧ u.k = t.k) ∧ ∀ q l, l < 1024 →
      u.getX q l = if q ∈ f.indexes ∧ l ∈ maskLanes c.m t.lanes then xStepped (t.getX q l) else t.getX q l := by
  have hended : t.ended [(f, c)] now = (postStep c.m f.indexes t).fuse now := ended_calm t [(f, c)] now hp
  obtain ⟨hx, hget⟩ := postStep_spec c.m f.indexes t (List.nodup_dedup _)
  have hrecs := onlyRecs_fuse now (postStep c.m f.indexes t)
  simp only [hended]
  refine ⟨⟨hrecs.v.trans (by rw [hx]), hrecs.s.trans (by rw [hx]), hrecs.k.trans (by rw [hx])⟩, fun q l hl => ?_⟩
  rw [← hget q l hl, Team.getX, hrecs.x]
  rfl

/-- AN INSTRUCTION WHOSE EFFECT IS ONE INDEX REGISTER: the lanes that take part take its value, and the post-step acts on that. -/
theorem sets_index_of {ins : Instr} {f : Form} {i : Iss} {s : State} {e : Env} {c : Ctx} {eff : Ctx → Res} {xn : Nat}
    {val : Nat → Nat → W32} (h : Runs f i s e c) (hx : exec ins s = issueForm f i eff s)
    (he : eff (c.begun f e i) = .done (c.modTeam (beginIssue [(f, c)] e i) (setXLanes xn val c.lanes))) :
    ∃ t u, exec ins s = .next t ∧ OnlyTeam e s t u ∧ u.v = e.team.v ∧ u.s = e.team.s ∧ u.k = e.team.k ∧
      ∀ q l, l < 1024 →
        let y := if q = xn ∧ l ∈ c.lanes then val q l else e.team.getX q l
        u.getX q l = if q ∈ f.indexes ∧ l ∈ c.lanes then xStepped y else y := by
  have hidx : ∀ t, (setXLanes xn val c.lanes t).idx = t.idx := fun t => by rw [setXLanes_onlyX xn val c.lanes t]
  obtain ⟨t, ht, hteam⟩ := team_effect (setXLanes xn val c.lanes) hidx h hx he
  have hbegun := begun_rest e.team [(f, c)] e i h.noProbe
  have hset := setXLanes_onlyX xn val c.lanes (e.team.begun [(f, c)] e i)
  have hprobe : (setXLanes xn val c.lanes (e.team.begun [(f, c)] e i)).probe = none := by
    rw [hset, hbegun]; exact h.noProbe
  have hlanes : (setXLanes xn val c.lanes (e.team.begun [(f, c)] e i)).lanes = c.e.team.lanes := by
    rw [hset, hbegun, h.ctx.1]
  obtain ⟨⟨hv, hs, hk⟩, hget⟩ := ended_one_spec _ f (c.begun f e i) s.time hprobe
  refine ⟨t, _, ht, hteam, hv.trans (by rw [hset, hbegun]), hs.trans (by rw [hset, hbegun]), hk.trans (by rw [hset, hbegun]), ?_⟩
  intro q l hl
  have hy : (setXLanes xn val c.lanes (e.team.begun [(f, c)] e i)).getX q l
      = if q = xn ∧ l ∈ c.lanes then val q l else e.team.getX q l := by
    rw [setXLanes_getX xn val c.lanes (fun _ h => maskLanes_lt h) hl, hbegun]
    rfl
  rw [hget q l hl, hlanes, hy]
  rfl

end Sys2Proof.Machine

open Sys2Proof Sys2Proof.Machine

/-- Settles O25: `XSET` sets one index register in each lane that takes part, by R157's formula, and `XGET` writes one destination. -/
theorem indexRegisters : Obligations.IndexRegisters := by
  unfold Obligations.IndexRegisters
  intro h md xn d a s e c fs fg
  constructor
  · intro hr
    have hset := sets_index_of (ins := .xset h md xn a) (val := fun q l => xsetVal md (c.xval q l) (c.rd 0 a l)) hr rfl rfl
    cases md with
    | all => exact hset
    | idx => simpa only [xStepped, xsetVal_idx] using hset
    | add => simpa only [xStepped, xsetVal_add] using hset
  · intro hr
    exact writes_of hr rfl rfl

end

section
/-! Leases (R446 to R451): when a stamp is valid, what a slice's waking and dropping leave of a line's home, and what a far read takes. -/

namespace Sys2Proof.Machine

/-! Stamps (R448): both terms of the distance are taken modulo 2^20, and so is their difference. -/

theorem stampValid_stampOf_iff (expiry t : Nat) :
    stampValid (stampOf expiry) t = true ↔
      1 ≤ ((expiry / 64 : Nat) - (t / 64 : Nat) : Int) % 2 ^ 20 ∧ ((expiry / 64 : Nat) - (t / 64 : Nat) : Int) % 2 ^ 20 < 2 ^ 19 := by
  have hdist : (((stampOf expiry + 2 ^ 20 - t / 64 % 2 ^ 20) % 2 ^ 20 : Nat) : Int)
      = ((expiry / 64 : Nat) - (t / 64 : Nat) : Int) % 2 ^ 20 := by
    simp only [stampOf]; omega
  simp only [stampValid, Bool.and_eq_true, decide_eq_true_eq]
  omega

/-- From its expiry on, and for 2^25 ns after it, a stamp's distance is 0 or from 2^19 up. -/
theorem stampValid_of_expired {expiry t : Nat} (hpast : expiry ≤ t) (hreach : t < expiry + 2 ^ 25) :
    stampValid (stampOf expiry) t = false := by
  rw [Bool.eq_false_iff, Ne, stampValid_stampOf_iff]
  omega

/-! Frames: what the moves of copies, and what the memory-side cache, change of the state. -/

/-- Only what the slices and the level-one caches hold has changed, with who sleeps and the counters of the host's registers. -/
def OnlyCopies (s t : State) : Prop :=
  t = { s with lines := t.lines, l1 := t.l1, dir := t.dir, asleep := t.asleep, bar0 := t.bar0 }

theorem OnlyCopies.trans {s t u : State} (h : OnlyCopies s t) (g : OnlyCopies t u) : OnlyCopies s u := by
  unfold OnlyCopies at *
  rw [g, h]

/-- Only the memory-side cache, its counters and the poison of lines that left it have changed. -/
def OnlyMsc (s t : State) : Prop :=
  t = { s with mpoison := t.mpoison, sketch := t.sketch, cands := t.cands, msc := t.msc, psel := t.psel, lruIns := t.lruIns,
               czUnits := t.czUnits, czSect := t.czSect }

theorem OnlyMsc.trans {s t u : State} (h : OnlyMsc s t) (g : OnlyMsc t u) : OnlyMsc s u := by
  unfold OnlyMsc at *
  rw [g, h]

/-- A fold of moves that each change only the memory-side cache changes only that. -/
theorem OnlyMsc.foldl {α : Type} {f : State → α → State} (hf : ∀ s a, OnlyMsc s (f s a)) (l : List α) :
    ∀ s, OnlyMsc s (l.foldl f s) := by
  induction l with
  | nil => exact fun s => rfl
  | cons a l ih => exact fun s => (hf s a).trans (ih _)

theorem mscLeave_onlyMsc (s : State) (v : MscLine) : OnlyMsc s (mscLeave s v) := by
  simp only [mscLeave]
  repeat' split
  all_goals rfl

theorem mscFill_onlyMsc (s : State) (stack line ctx : Nat) (dirty : Bool) : OnlyMsc s (mscFill s stack line ctx dirty) := by
  unfold mscFill
  extract_lets loc i key sel ded lru sel' low ck n atMru s₁ inSet mine ways gone s₂ msc e
  have hsel : OnlyMsc s s₁ := rfl
  have hgone : OnlyMsc s₁ s₂ := OnlyMsc.foldl mscLeave_onlyMsc gone s₁
  exact (hsel.trans hgone).trans rfl

theorem countSketch_onlyMsc (s : State) (stack page : Nat) : OnlyMsc s (countSketch s stack page).1 := by
  simp [OnlyMsc, countSketch, List.range_succ]

theorem mscTouch_onlyMsc (s : State) (line ilv ctx : Nat) (write : Bool) : OnlyMsc s (mscTouch s line ilv ctx write) := by
  unfold mscTouch
  extract_lets loc stack page
  have hcount := countSketch_onlyMsc s stack page
  generalize countSketch s stack page = counted at hcount ⊢
  obtain ⟨s₁, est⟩ := counted
  have hcands : OnlyMsc s₁ { s₁ with cands := updateCands s₁.cands stack page est } := rfl
  refine (hcount.trans hcands).trans ?_
  dsimp only
  split
  · rfl
  · exact mscFill_onlyMsc _ _ _ _ _

theorem dropLines_onlyCopies (s : State) (gone : CLine → Bool) : OnlyCopies s (dropLines s gone) := by
  simp only [dropLines, l1Drop]
  repeat' split
  all_goals rfl

theorem dropLines_bar0 (s : State) (gone : CLine → Bool) : (dropLines s gone).bar0 = s.bar0 := by
  simp only [dropLines, l1Drop]
  repeat' split
  all_goals rfl

theorem barCount_onlyCopies (s : State) (off : Nat) : OnlyCopies s (barCount s off) := by
  simp only [barCount]
  split <;> rfl

/-! The lines of a state after each move. -/

@[simp] theorem l1Drop_lines (s : State) (gone : L1Copy → Bool) : (l1Drop s gone).lines = s.lines := by
  simp only [l1Drop]
  split <;> rfl

theorem dropLines_lines (s : State) (gone : CLine → Bool) : (dropLines s gone).lines = s.lines.filter fun c => !gone c := by
  simp only [dropLines]
  split
  · next hnone =>
    have hkept : ∀ c ∈ s.lines, gone c = false := by simpa [List.filter_eq_nil_iff] using hnone
    exact (List.filter_eq_self.2 fun c hc => by simp [hkept c hc]).symm
  · exact l1Drop_lines _ _

@[simp] theorem barCount_lines (s : State) (off : Nat) : (barCount s off).lines = s.lines := by
  simp only [barCount]
  split <;> rfl

@[simp] theorem l1Put_lines (s : State) (k : L1Copy) : (l1Put s k).lines = s.lines := by
  simp only [l1Put]
  split
  · exact l1Drop_lines s _
  · rfl

@[simp] theorem l1Take_lines (s : State) (k : L1Copy) : (l1Take s k).lines = s.lines := by
  simp only [l1Take]
  split
  · exact l1Put_lines s k
  · split
    · rfl
    · exact l1Put_lines _ _

@[simp] theorem dirRoom_lines (s : State) (die slice : Nat) : (dirRoom s die slice).lines = s.lines := by
  simp only [dirRoom]
  split
  · rfl
  · split
    · rfl
    · exact l1Drop_lines s _

@[simp] theorem dirRead_lines (s : State) (die line core : Nat) : (dirRead s die line core).lines = s.lines := by
  simp only [dirRead]
  split
  · exact dirRoom_lines s _ _
  · repeat' split
    all_goals rfl

theorem mem_l2Use_lines {s : State} {die line : Nat} {c : CLine} : c ∈ (l2Use s die line).lines ↔ c ∈ s.lines := by
  simp only [l2Use, List.mem_append, List.mem_filter]
  cases c.die == die && c.line == line <;> simp

/-- The effect of a read on the caches moves the lines of its die and keeps each. -/
theorem mem_readCaches_lines {s : State} {r : Req} {p : Phys} {toL1 : Bool} {c : CLine} :
    c ∈ (readCaches s r p toL1).lines ↔ c ∈ s.lines := by
  simp only [readCaches]
  split
  · rw [l1Take_lines]
  · split
    · exact mem_l2Use_lines
    · rw [l1Take_lines, dirRead_lines, mem_l2Use_lines]

theorem mem_insertBehind {α : Type} (same : α → Bool) (x y : α) : ∀ (n : Nat) (l : List α),
    y ∈ insertBehind same x n l ↔ y = x ∨ y ∈ l
  | _, [] => by simp [insertBehind]
  | 0, z :: l => by simp [insertBehind]
  | n + 1, z :: l => by
    rw [insertBehind, List.mem_cons, mem_insertBehind same x y _ l, List.mem_cons]
    exact or_left_comm

theorem mem_placeIn {α : Type} (same : α → Bool) (x y : α) (cache : Cache) (l : List α) :
    y ∈ placeIn same x cache l ↔ y = x ∨ y ∈ l := by
  simp only [placeIn]
  split
  · exact mem_insertBehind same x y 15 l
  · exact List.mem_cons

/-- What is placed among elements that a search does not find is what it finds. -/
theorem find?_placeIn_of_none {α : Type} {q : α → Bool} {x : α} {l : List α} (hnone : l.find? q = none) (same : α → Bool) (cache : Cache)
    (hx : q x = true) : (placeIn same x cache l).find? q = some x := by
  cases hf : (placeIn same x cache l).find? q with
  | none => exact absurd hx (List.find?_eq_none.1 hf x ((mem_placeIn ..).2 (.inl rfl)))
  | some y =>
    obtain rfl | hy := (mem_placeIn ..).1 (List.mem_of_find?_eq_some hf)
    · rfl
    · exact absurd (List.find?_some hf) (List.find?_eq_none.1 hnone y hy)

theorem find?_filter_of_imp {α : Type} {q g : α → Bool} (l : List α) (h : ∀ x, q x = true → g x = true) :
    (l.filter g).find? q = l.find? q := by
  rw [List.find?_filter]
  congr 1
  funext x
  by_cases hq : q x = true
  · simp [hq, h x hq]
  · simp [hq]

/-! Leased copies dropped: the home's line stays what it was. -/

/-- From s to t nothing but copies has changed, and of the lines exactly those that `gone` names went, all leased. -/
structure DropsLeases (s t : State) (gone : CLine → Bool) : Prop where
  frame : OnlyCopies s t
  lines : t.lines = s.lines.filter fun c => !gone c
  leased : ∀ c, gone c = true → c.stamp.isSome = true

section
variable {s t u : State} {gone also : CLine → Bool}

theorem DropsLeases.of_lines_eq (hframe : OnlyCopies s t) (hlines : t.lines = s.lines) : DropsLeases s t fun _ => false :=
  ⟨hframe, by simp [hlines], fun _ h => absurd h Bool.false_ne_true⟩

theorem DropsLeases.trans (h : DropsLeases s t gone) (g : DropsLeases t u also) : DropsLeases s u fun c => gone c || also c where
  frame := h.frame.trans g.frame
  lines := by
    rw [g.lines, h.lines, List.filter_filter]
    congr 1
    funext c
    rw [Bool.not_or, Bool.and_comm]
  leased c hc := (Bool.or_eq_true _ _ ▸ hc).elim (h.leased c) (g.leased c)

theorem DropsLeases.homeCopy? (h : DropsLeases s t gone) (line : Nat) : homeCopy? t line = Machine.homeCopy? s line := by
  unfold Machine.homeCopy?
  rw [h.lines]
  refine find?_filter_of_imp _ fun c hc => ?_
  simp only [Bool.and_eq_true, Option.isNone_iff_eq_none] at hc
  obtain ⟨⟨-, hhome⟩, -⟩ := hc
  rw [Bool.not_eq_true', Bool.eq_false_iff]
  exact fun hgone => by simpa [hhome] using h.leased c hgone

/-- Dropping leased copies leaves the home's line. -/
theorem DropsLeases.homeLine (h : DropsLeases s t gone) (p : Phys) : homeLine t p = Machine.homeLine s p := by
  have hmem : memLine t p = memLine s p := by rw [h.frame]; rfl
  have hpoison : t.mpoison = s.mpoison := by rw [h.frame]
  simp only [Machine.homeLine, h.homeCopy?, hmem, hpoison]

theorem DropsLeases.leasedCopy?_kept (h : DropsLeases s t gone) {die line : Nat} (hkept : ∀ c, c.die = die → c.line = line → gone c = false) :
    leasedCopy? t die line = leasedCopy? s die line := by
  unfold leasedCopy?
  rw [h.lines]
  refine find?_filter_of_imp _ fun c hc => ?_
  simp only [Bool.and_eq_true, beq_iff_eq] at hc
  obtain ⟨⟨hdie, hline⟩, -⟩ := hc
  rw [hkept c hdie hline]
  rfl

theorem DropsLeases.leasedCopy?_gone (h : DropsLeases s t gone) {die line : Nat}
    (hgone : ∀ c, c.die = die → c.line = line → c.stamp.isSome = true → gone c = true) : leasedCopy? t die line = none := by
  rw [leasedCopy?, List.find?_eq_none, h.lines]
  intro c hc hit
  simp only [Bool.and_eq_true, beq_iff_eq] at hit
  obtain ⟨⟨hdie, hline⟩, hst⟩ := hit
  simp [hgone c hdie hline hst] at hc

end

theorem dropLines_dropsLeases (s : State) {gone : CLine → Bool} (h : ∀ c, gone c = true → c.stamp.isSome = true) :
    DropsLeases s (dropLines s gone) gone :=
  ⟨dropLines_onlyCopies s gone, dropLines_lines s gone, h⟩

/-! Waking (R450). That a core's request wakes the slices that serve it is the model's choice (log entry 151). -/

/-- A slice sleeps, and has for 2^25 ns or more. -/
def overslept (s : State) (die slice : Nat) : Bool :=
  sleeping s die slice && decide (33554432 ≤ s.time + 1 - smGet 0 s.asleep (sliceKey die slice))

theorem foldl_barCount_dropsLeases (off : Nat) (l : List Nat) :
    ∀ s : State, DropsLeases s (l.foldl (fun s _ => barCount s off) s) fun _ => false := by
  induction l with
  | nil => exact fun s => .of_lines_eq rfl rfl
  | cons _ l ih =>
    intro s
    exact (DropsLeases.of_lines_eq (barCount_onlyCopies s off) (barCount_lines s off)).trans (ih _)

theorem overslept_iff (s : State) (die slice : Nat) :
    overslept s die slice = true ↔
      sleeping s die slice = true ∧ 33554432 ≤ s.time + 1 - smGet 0 s.asleep (sliceKey die slice) := by
  rw [overslept, Bool.and_eq_true, decide_eq_true_iff]

theorem wakeSlice_of_awake {s : State} {die slice : Nat} (h : sleeping s die slice = false) : wakeSlice s die slice = s := by
  rw [wakeSlice, if_neg (Bool.eq_false_iff.1 h)]

/-- After less than 2^25 ns the slice keeps what it holds. -/
theorem wakeSlice_of_short {s : State} {die slice : Nat} (hasleep : sleeping s die slice = true) (h : overslept s die slice = false) :
    wakeSlice s die slice = { s with asleep := smSet 0 s.asleep (sliceKey die slice) 0 } := by
  rw [Bool.eq_false_iff, Ne, overslept_iff, not_and, Nat.not_le] at h
  rw [wakeSlice, if_pos hasleep]
  exact if_pos (h hasleep)

/-- After 2^25 ns or more it drops its leased copies and counts them. -/
theorem wakeSlice_of_overslept {s : State} {die slice : Nat} (h : overslept s die slice = true) :
    wakeSlice s die slice = (List.range (s.lines.filter (leasedIn die slice)).length).foldl
      (fun s _ => barCount s (0x1C0000 + 0x100 * die + 4))
      (dropLines { s with asleep := smSet 0 s.asleep (sliceKey die slice) 0 } (leasedIn die slice)) := by
  rw [overslept_iff] at h
  rw [wakeSlice, if_pos h.1]
  exact if_neg (Nat.not_lt.2 h.2)

/-- A slice that wakes drops its leased copies exactly where it overslept. -/
theorem wakeSlice_dropsLeases (s : State) (die slice : Nat) :
    DropsLeases s (wakeSlice s die slice) fun c => overslept s die slice && leasedIn die slice c := by
  have hup : DropsLeases s { s with asleep := smSet 0 s.asleep (sliceKey die slice) 0 } fun _ => false := .of_lines_eq rfl rfl
  cases hlong : overslept s die slice with
  | true =>
    rw [wakeSlice_of_overslept hlong]
    have hdrop := hup.trans (dropLines_dropsLeases _ fun c (hc : leasedIn die slice c = true) => (Bool.and_eq_true _ _ ▸ hc).2)
    simpa using hdrop.trans (foldl_barCount_dropsLeases _ _ _)
  | false =>
    cases hasleep : sleeping s die slice with
    | true => rw [wakeSlice_of_short hasleep hlong]; exact hup
    | false => rw [wakeSlice_of_awake hasleep]; exact .of_lines_eq rfl rfl

theorem wakeSlice_bar0 {s : State} {die slice : Nat} (h : overslept s die slice = false) : (wakeSlice s die slice).bar0 = s.bar0 := by
  cases hasleep : sleeping s die slice with
  | true => rw [wakeSlice_of_short hasleep h]
  | false => rw [wakeSlice_of_awake hasleep]

/-- Of the copies on a core's die, the slices woken for its request to a place that is not at home there drop those of the line's slice,
where that overslept. -/
theorem wakeFor_dropsLeases (s : State) (core : Nat) {p : Phys} (hfar : p.kind = .own → locDie p.loc ≠ coreDie core) :
    ∃ gone, DropsLeases s (wakeFor s core p) gone ∧
      ∀ c, c.die = coreDie core → gone c = (overslept s (coreDie core) (l2Slice p.line) && leasedIn (coreDie core) (l2Slice p.line) c) := by
  have hown := wakeSlice_dropsLeases s (coreDie core) (l2Slice p.line)
  simp only [wakeFor]
  split
  · next hkind =>
    refine ⟨_, hown.trans (wakeSlice_dropsLeases _ (locDie p.loc) (l2Slice p.line)), fun c hdie => ?_⟩
    have hother : leasedIn (locDie p.loc) (l2Slice p.line) c = false := by
      simp [leasedIn, hdie, (hfar hkind).symm]
    rw [hother, Bool.and_false, Bool.or_false]
  · exact ⟨_, hown, fun _ _ => rfl⟩

theorem wakeFor_bar0 {s : State} {core : Nat} {p : Phys} (hkind : p.kind ≠ .own)
    (h : overslept s (coreDie core) (l2Slice p.line) = false) : (wakeFor s core p).bar0 = s.bar0 := by
  simp only [wakeFor, if_neg hkind]
  exact wakeSlice_bar0 h

/-! A home's fill and grants. -/

theorem fillHome_of_none {s : State} {p : Phys} (h : homeCopy? s p.line = none) (ctx : Nat) (cache : Cache) :
    fillHome s p ctx cache = mscTouch (l2Put s ⟨locDie p.loc, p.line, memLine s p, false, s.mpoison.contains p.line, none, p.ilv⟩ cache)
      p.line p.ilv ctx false := by
  rw [fillHome, h]

theorem fillHome_of_some {s : State} {p : Phys} {c : CLine} (h : homeCopy? s p.line = some c) (ctx : Nat) (cache : Cache) :
    fillHome s p ctx cache = s := by
  rw [fillHome, h]

/-- A line and its first byte have one home die. -/
theorem locDie_line (p : Phys) : locDie (128 * p.line) = locDie p.loc := by
  have hfield : ∀ hi lo, 7 ≤ lo → bitsOf (128 * (p.loc / 128)) hi lo = bitsOf p.loc hi lo := by
    intro hi lo hlo
    obtain ⟨k, rfl⟩ := Nat.exists_eq_add_of_le hlo
    simp only [bitsOf, Nat.pow_add]
    rw [← Nat.div_div_eq_div_mul, ← Nat.div_div_eq_div_mul, show (2 : Nat) ^ 7 = 128 from rfl, Nat.mul_div_cancel_left _ (by decide)]
  have hfast : 128 * (p.loc / 128) < Config.fastBytes ↔ p.loc < Config.fastBytes := by
    simp only [Config.fastBytes]; omega
  simp only [locDie, stackOf, Phys.line, hfast, hfield 38 36 (by decide), hfield 14 12 (by decide)]

/-- A fill brings the home's line in as it stands. -/
theorem fillHome_homeLine (s : State) (p : Phys) (ctx : Nat) (cache : Cache) (hkind : p.kind = .own) :
    homeLine (fillHome s p ctx cache) p = homeLine s p := by
  cases h : homeCopy? s p.line with
  | some c => rw [fillHome_of_some h]
  | none =>
    let c : CLine := ⟨locDie p.loc, p.line, memLine s p, false, s.mpoison.contains p.line, none, p.ilv⟩
    have hput : homeCopy? (fillHome s p ctx cache) p.line = some c := by
      have hat : (mscTouch (l2Put s c cache) p.line p.ilv ctx false).lines = placeIn (sameL2 c) c cache s.lines := by
        rw [mscTouch_onlyMsc]; rfl
      rw [fillHome_of_none h, homeCopy?, hat]
      exact find?_placeIn_of_none h _ _ (by simp [c, locDie_line])
    simp only [homeLine, hkind, hput, h, c]

theorem fillHome_grants? (s : State) (p : Phys) (ctx : Nat) (cache : Cache) : grants? (fillHome s p ctx cache) p = grants? s p := by
  cases h : homeCopy? s p.line with
  | some c => rw [fillHome_of_some h]
  | none =>
    rw [fillHome_of_none h, mscTouch_onlyMsc]
    rfl

theorem fillHome_time (s : State) (p : Phys) (ctx : Nat) (cache : Cache) : (fillHome s p ctx cache).time = s.time := by
  cases h : homeCopy? s p.line with
  | some c => rw [fillHome_of_some h]
  | none =>
    rw [fillHome_of_none h, mscTouch_onlyMsc]
    rfl

/-- Whether a home grants reads the grants and the bundles' versions, and for another device's line whether the module is locked. -/
theorem DropsLeases.grants? {s t : State} {gone : CLine → Bool} (h : DropsLeases s t gone) {p : Phys}
    (hbar : p.kind ≠ .own → t.bar0 = s.bar0) : grants? t p = Machine.grants? s p := by
  have hpend : t.pendLines = s.pendLines := by rw [h.frame]
  have hgrants : t.grants = s.grants := by rw [h.frame]
  have hlocked : p.kind ≠ .own → unlocked t = unlocked s := fun hk => by simp only [unlocked, bar, hbar hk]
  simp only [Machine.grants?, hasPrepared, tableFull, grantOf, hpend, hgrants]
  cases hkind : p.kind with
  | own => rfl
  | host => rfl
  | pod dev => rw [hlocked (by simp [hkind])]

/-! A far read (R446 to R449). -/

/-- A place that a die reaches through a lease: the other die's, another device's, or the host's under rol (R446). -/
def Far (p : Phys) (die : Nat) : Prop := (p.kind = .own ∧ locDie p.loc ≠ die) ∨ (∃ dev, p.kind = .pod dev) ∨ (p.kind = .host ∧ p.rol = true)

/-- What a core's read of a far line comes to once the slices that serve it are awake. -/
def farRead (s : State) (r : Req) (p : Phys) (toL1 : Bool) : (LineData × Bool) × State :=
  match leasedCopy? s (coreDie r.core) p.line with
  | some c =>
    if (c.stamp.map fun t => stampValid t s.time).getD false then ((c.data, c.poison), readCaches s r p toL1)
    else leaseRead (dropLines s fun k => k.die == coreDie r.core && k.line == p.line && k.stamp.isSome) r p toL1
  | none => leaseRead s r p toL1

theorem coreReadLine_far {p : Phys} {r : Req} (h : Far p (coreDie r.core)) (s : State) (toL1 : Bool) :
    coreReadLine s r p toL1 = farRead (wakeFor s r.core p) r p toL1 := by
  obtain ⟨hkind, hdie⟩ | ⟨dev, hkind⟩ | ⟨hkind, hrol⟩ := h
  · simp only [coreReadLine, hkind, if_neg hdie]; rfl
  · simp only [coreReadLine, hkind]; rfl
  · simp only [coreReadLine, hkind, hrol, if_true]; rfl

section
variable {s : State} {r : Req} {p : Phys} {toL1 : Bool} {c : CLine} {x : Nat}

theorem farRead_of_none (h : leasedCopy? s (coreDie r.core) p.line = none) : farRead s r p toL1 = leaseRead s r p toL1 := by
  rw [farRead, h]

theorem farRead_of_valid (h : leasedCopy? s (coreDie r.core) p.line = some c) (hx : c.stamp = some x) (hv : stampValid x s.time = true) :
    farRead s r p toL1 = ((c.data, c.poison), readCaches s r p toL1) := by
  rw [farRead, h]
  simp [hx, hv]

/-- A copy that is not valid is treated as absent. -/
theorem farRead_of_stale (h : leasedCopy? s (coreDie r.core) p.line = some c) (hx : c.stamp = some x) (hv : stampValid x s.time = false) :
    farRead s r p toL1 =
      leaseRead (dropLines s fun k => k.die == coreDie r.core && k.line == p.line && k.stamp.isSome) r p toL1 := by
  rw [farRead, h]
  simp [hx, hv]

end

/-- The state in which a home answers a read: a line of this module stands in its die's slice. -/
def atHome (s : State) (r : Req) (p : Phys) : State := if p.kind = .own then fillHome s p r.ctx r.cache else s

theorem atHome_homeLine (s : State) (r : Req) (p : Phys) : homeLine (atHome s r p) p = homeLine s p := by
  simp only [atHome]
  split
  · next hkind => exact fillHome_homeLine s p _ _ hkind
  · rfl

theorem atHome_grants? (s : State) (r : Req) (p : Phys) : grants? (atHome s r p) p = grants? s p := by
  simp only [atHome]
  split
  · exact fillHome_grants? s p _ _
  · rfl

theorem atHome_time (s : State) (r : Req) (p : Phys) : (atHome s r p).time = s.time := by
  simp only [atHome]
  split
  · exact fillHome_time s p _ _
  · rfl

/-- A read that goes to the home takes the home's line, whether or not a lease is granted. -/
theorem leaseRead_fst (s : State) (r : Req) (p : Phys) (toL1 : Bool) : (leaseRead s r p toL1).1 = homeLine s p := by
  rw [← atHome_homeLine s r p]
  change (if grants? (atHome s r p) p then _ else _ : (LineData × Bool) × State).1 = _
  split <;> rfl

/-- Where the home grants, the reader's die keeps the line with the stamp of the new expiry. -/
theorem leaseRead_keeps_copy {s : State} {r : Req} {p : Phys} (toL1 : Bool) (h : grants? s p = true) :
    ⟨coreDie r.core, p.line, (homeLine s p).1, false, (homeLine s p).2, some (stampOf (s.time + r.lease)), p.ilv⟩
      ∈ (leaseRead s r p toL1).2.lines := by
  rw [← atHome_grants? s r p] at h
  rw [← atHome_homeLine s r p, ← atHome_time s r p]
  simp only [atHome] at h ⊢
  simp only [leaseRead, if_pos h, mem_readCaches_lines, l2Put, mem_placeIn, true_or]

/-! A read of a far line that its die holds a leased copy of. -/

section
variable {s : State} {r : Req} {p : Phys} {c : CLine} {x : Nat}

theorem Far.not_home {die : Nat} (h : Far p die) (hkind : p.kind = .own) : locDie p.loc ≠ die := by
  simpa [Far, hkind] using h

/-- R450: after a sleep of 2^25 ns or more no copy is used. -/
theorem coreReadLine_overslept (hfar : Far p (coreDie r.core)) (hlong : overslept s (coreDie r.core) (l2Slice p.line) = true) :
    (coreReadLine s r p).1 = homeLine s p := by
  obtain ⟨gone, hwake, hgone⟩ := wakeFor_dropsLeases s r.core hfar.not_home
  have hnone : leasedCopy? (wakeFor s r.core p) (coreDie r.core) p.line = none :=
    hwake.leasedCopy?_gone fun c hdie hline hst => by simp [hgone c hdie, hlong, leasedIn, hdie, hline, hst]
  rw [coreReadLine_far hfar, farRead_of_none hnone, leaseRead_fst, hwake.homeLine]

/-- Without such a sleep the slices that wake keep the die's copy. -/
theorem wakeFor_keeps_copy (hfar : Far p (coreDie r.core)) (hshort : overslept s (coreDie r.core) (l2Slice p.line) = false)
    (hc : leasedCopy? s (coreDie r.core) p.line = some c) : leasedCopy? (wakeFor s r.core p) (coreDie r.core) p.line = some c := by
  obtain ⟨gone, hwake, hgone⟩ := wakeFor_dropsLeases s r.core hfar.not_home
  rw [hwake.leasedCopy?_kept fun k hdie _ => by rw [hgone k hdie, hshort, Bool.false_and], hc]

theorem wakeFor_time (hfar : Far p (coreDie r.core)) : (wakeFor s r.core p).time = s.time := by
  obtain ⟨gone, hwake, -⟩ := wakeFor_dropsLeases s r.core hfar.not_home
  rw [hwake.frame]

theorem coreReadLine_valid (hfar : Far p (coreDie r.core)) (hshort : overslept s (coreDie r.core) (l2Slice p.line) = false)
    (hc : leasedCopy? s (coreDie r.core) p.line = some c) (hx : c.stamp = some x) (hv : stampValid x s.time = true) :
    (coreReadLine s r p).1 = (c.data, c.poison) := by
  rw [coreReadLine_far hfar, farRead_of_valid (wakeFor_keeps_copy hfar hshort hc) hx (by rwa [wakeFor_time hfar])]

/-- A read of a line whose copy is not valid is the home's read in a state that has lost leased copies alone. -/
theorem coreReadLine_stale (hfar : Far p (coreDie r.core)) (hshort : overslept s (coreDie r.core) (l2Slice p.line) = false)
    (hc : leasedCopy? s (coreDie r.core) p.line = some c) (hx : c.stamp = some x) (hv : stampValid x s.time = false) :
    ∃ t gone, DropsLeases s t gone ∧ (p.kind ≠ .own → t.bar0 = s.bar0) ∧ coreReadLine s r p = leaseRead t r p true := by
  obtain ⟨gone, hwake, -⟩ := wakeFor_dropsLeases s r.core hfar.not_home
  have hdrop := dropLines_dropsLeases (wakeFor s r.core p) (gone := fun k => k.die == coreDie r.core && k.line == p.line && k.stamp.isSome)
    fun k hk => (Bool.and_eq_true _ _ ▸ hk).2
  refine ⟨_, _, hwake.trans hdrop, fun hkind => ?_, ?_⟩
  · exact (dropLines_bar0 _ _).trans (wakeFor_bar0 hkind hshort)
  · rw [coreReadLine_far hfar, farRead_of_stale (wakeFor_keeps_copy hfar hshort hc) hx (by rwa [wakeFor_time hfar])]

end

end Sys2Proof.Machine

open Sys2Proof Sys2Proof.Machine

/-- Settles O60: the distance of the stamps modulo 2^20, and the three answers of a far read by what its slice's waking left. -/
theorem leaseStamps : Obligations.LeaseStamps := by
  unfold Obligations.LeaseStamps
  refine ⟨fun expiry t => ⟨rfl, stampValid_stampOf_iff expiry t, stampValid_of_expired⟩, ?_⟩
  intro s r p c x far asleep slept hfar hc hx
  refine ⟨fun hasleep hlong => coreReadLine_overslept hfar ((overslept_iff ..).2 ⟨hasleep, hlong⟩), fun hnap => ?_⟩
  have hshort : overslept s (coreDie r.core) (l2Slice p.line) = false := by
    rw [Bool.eq_false_iff, Ne, overslept_iff, not_and, Nat.not_le]
    exact hnap
  refine ⟨coreReadLine_valid hfar hshort hc hx, fun hv => ?_⟩
  obtain ⟨t, gone, hdrops, hbar, hread⟩ := coreReadLine_stale hfar hshort hc hx hv
  have htime : t.time = s.time := by rw [hdrops.frame]
  rw [hread]
  refine ⟨by rw [leaseRead_fst, hdrops.homeLine], fun hgrant => ?_⟩
  have hcopy := leaseRead_keeps_copy (r := r) true ((hdrops.grants? hbar).trans hgrant)
  exact ⟨_, hcopy, rfl, rfl, by rw [htime], by rw [hdrops.homeLine]⟩

end

section
/-! Decoding reads back what encoding writes (R58 to R75): full forms, compact words, pairs. -/

namespace Sys2Proof
open Machine

open Laws.Fields in
/-- The fields of every instruction with a full form fit their places (R61). -/
theorem toRaw_fits (i : Instr) : Laws.Fields.Statement i :=
  i.casesOn
    nop iadd isub iadd3 imul imulh imad imadw idiv irem imin imax isad icmp sel lea andL orL xorL andn shl shr sar rol fshr bfe
    bfi popc clz ctz brev prmb idot4 idot2 mov fadd fsub fmul ffma fmin fmax fcmp fclass frnd fscale fexpo fdot2 frcp frsq fsqrt
    fexp2 flog2 fsin fcos ftanh fsigm fdiv cvt ftoi itof qpack qunpk tred tscan tshfl tbcst vote matchL kop kcnt kfnd kmov ld st
    lds sts ldu atom atoms red fence pref cctl waitc rdc abarInit abarArrive abarExpect abarWait abarTest bar barArrive gbar bra
    brx call calli ret exit yield pause trap brk join claim release xset xget tcopy tgath tscat tmcst cbini cbacq cbrel cbput
    cbres cbst tfill ldw wswap mmq msa mmqa mmqaCb mmf tld tst tzero tmvT2v tmvV2t tstat tacc atts attv attm evict platr rgath
    redrx nmcall nmcallA nmret clsend clred clarm clarmOff sbset sbsetClr sbsetRd coll close bopen stb bcommit babort vsnap ldv
    bfetch srd swr swrp ovld tret halt pair entryWord compactNop compactMov compactIaddS32 compactIsubS32 compactImulS32
    compactIminS32 compactImaxS32 compactAnd compactOr compactXor compactShl compactShr compactSar compactIaddS64 compactPopc
    compactClz compactFaddF32 compactFsubF32 compactFmulF32 compactFminF32 compactFmaxF32 compactFaddBf16x2 compactFmulBf16x2
    compactFrcp compactFrsq compactFexp2 compactCvtF32Bf16lo compactCvtBf16F32 compactItofS32 compactFtoiS32 compactIcmpEq
    compactIcmpLtS32 compactFcmpLt compactSel compactLds32 compactSts32 compactLd32 compactSt32 compactTshflXor compactBar
    compactWaitc compactYield compactBra compactExit compactRet compactAbarWait compactCbacq compactCbrel moduleReset
    bringUpReady contextEnable contextKill queueEnable qwptr queueRestart registerWrite keyLoad keyClear attestation fwload
    svctl svival mscways lkdevid lkmctl nopPacket launch stage pin unpin movehome signal waitPacket barrier drain resume
    resumeAbandon preempt timestamp fencePacket ovload workingSetStaging pageMove pageRequestAnswer pageRequestTimeout
    atsInvalidation oppointStable blockPlacement placementAging completionRecordPost schedulerAging claimGrant deadlk pauseEnd
    yieldEnd probeEnd capture restore copyUnit cbReservation copyRetire matrixExecute matrixRetire slotAcquire sequenceEntry
    attentionGroup attentionExit evictionStart evictionRun nmcallWriteBack stationDispatch nmcallReturn nmcallArrive
    reductionPacket chunkReceive collectiveRetire startMessage collComplete tagQuarantineEnd bundlePrepare bundleChoose
    bundleCommitMessage bundleAbortMessage bundleInstall bundleRetire versionReclaim directoryMerge grantExpiry leaseSweep
    sliceSleep sliceWake hotListPublish scrub podRequest reassemblyTimeout portDown meridianExchange lossOfLock relock
    errorDetected targetedTestEnd monitorLatch powerLoop readyBitSet homeAcknowledgement gwctPassed dependencyMet
    atsTranslationCompletion pcieCompletionTimeout portUp dieTemperatureCap bfetchComplete

open Laws.ReadsBack in
/-- The fields of every instruction with a full form name it again. -/
theorem ofRaw_toRaw (i : Instr) : Laws.ReadsBack.Statement i :=
  i.casesOn
    nop iadd isub iadd3 imul imulh imad imadw idiv irem imin imax isad icmp sel lea andL orL xorL andn shl shr sar rol fshr bfe
    bfi popc clz ctz brev prmb idot4 idot2 mov fadd fsub fmul ffma fmin fmax fcmp fclass frnd fscale fexpo fdot2 frcp frsq fsqrt
    fexp2 flog2 fsin fcos ftanh fsigm fdiv cvt ftoi itof qpack qunpk tred tscan tshfl tbcst vote matchL kop kcnt kfnd kmov ld st
    lds sts ldu atom atoms red fence pref cctl waitc rdc abarInit abarArrive abarExpect abarWait abarTest bar barArrive gbar bra
    brx call calli ret exit yield pause trap brk join claim release xset xget tcopy tgath tscat tmcst cbini cbacq cbrel cbput
    cbres cbst tfill ldw wswap mmq msa mmqa mmqaCb mmf tld tst tzero tmvT2v tmvV2t tstat tacc atts attv attm evict platr rgath
    redrx nmcall nmcallA nmret clsend clred clarm clarmOff sbset sbsetClr sbsetRd coll close bopen stb bcommit babort vsnap ldv
    bfetch srd swr swrp ovld tret halt pair entryWord compactNop compactMov compactIaddS32 compactIsubS32 compactImulS32
    compactIminS32 compactImaxS32 compactAnd compactOr compactXor compactShl compactShr compactSar compactIaddS64 compactPopc
    compactClz compactFaddF32 compactFsubF32 compactFmulF32 compactFminF32 compactFmaxF32 compactFaddBf16x2 compactFmulBf16x2
    compactFrcp compactFrsq compactFexp2 compactCvtF32Bf16lo compactCvtBf16F32 compactItofS32 compactFtoiS32 compactIcmpEq
    compactIcmpLtS32 compactFcmpLt compactSel compactLds32 compactSts32 compactLd32 compactSt32 compactTshflXor compactBar
    compactWaitc compactYield compactBra compactExit compactRet compactAbarWait compactCbacq compactCbrel moduleReset
    bringUpReady contextEnable contextKill queueEnable qwptr queueRestart registerWrite keyLoad keyClear attestation fwload
    svctl svival mscways lkdevid lkmctl nopPacket launch stage pin unpin movehome signal waitPacket barrier drain resume
    resumeAbandon preempt timestamp fencePacket ovload workingSetStaging pageMove pageRequestAnswer pageRequestTimeout
    atsInvalidation oppointStable blockPlacement placementAging completionRecordPost schedulerAging claimGrant deadlk pauseEnd
    yieldEnd probeEnd capture restore copyUnit cbReservation copyRetire matrixExecute matrixRetire slotAcquire sequenceEntry
    attentionGroup attentionExit evictionStart evictionRun nmcallWriteBack stationDispatch nmcallReturn nmcallArrive
    reductionPacket chunkReceive collectiveRetire startMessage collComplete tagQuarantineEnd bundlePrepare bundleChoose
    bundleCommitMessage bundleAbortMessage bundleInstall bundleRetire versionReclaim directoryMerge grantExpiry leaseSweep
    sliceSleep sliceWake hotListPublish scrub podRequest reassemblyTimeout portDown meridianExchange lossOfLock relock
    errorDetected targetedTestEnd monitorLatch powerLoop readyBitSet homeAcknowledgement gwctPassed dependencyMet
    atsTranslationCompletion pcieCompletionTimeout portUp dieTemperatureCap bfetchComplete

/-! Words and bytes (R4, R58). -/

theorem leWord_wordBytes (w : W32) :
    leWord (w.extractLsb' 0 8) (w.extractLsb' 8 8) (w.extractLsb' 16 8) (w.extractLsb' 24 8) = w := by
  apply BitVec.eq_of_toNat_eq
  have h := w.isLt
  simp only [leWord, BitVec.toNat_ofNat, BitVec.extractLsb'_toNat, Nat.shiftRight_eq_div_pow]
  omega

theorem wordsOf_wordBytes_append (w : W32) (l : List Byte) : wordsOf (wordBytes w ++ l) = w :: wordsOf l :=
  congrArg (· :: wordsOf l) (leWord_wordBytes w)

/-- The first words of at least as many bytes as a list of words has are that list. -/
theorem wordsOf_take (rest : List Byte) : ∀ (ws : List W32) (k : Nat), ws.length ≤ k →
    ∃ t, wordsOf ((ws.flatMap wordBytes ++ rest).take (4 * k)) = ws ++ t
  | [], _, _ => ⟨_, rfl⟩
  | w :: ws, 0, h => absurd h (by simp)
  | w :: ws, k + 1, h => by
    obtain ⟨t, ht⟩ := wordsOf_take rest ws k (Nat.le_of_succ_le_succ h)
    refine ⟨t, ?_⟩
    have hsplit : ((w :: ws).flatMap wordBytes ++ rest).take (4 * (k + 1))
        = wordBytes w ++ (ws.flatMap wordBytes ++ rest).take (4 * k) := rfl
    rw [hsplit, wordsOf_wordBytes_append, ht, List.cons_append]

theorem length_flatMap_wordBytes (ws : List W32) : (ws.flatMap wordBytes).length = 4 * ws.length := by
  induction ws with
  | nil => rfl
  | cons w ws ih => simp only [List.flatMap_cons, List.length_append, List.length_cons, ih, wordBytes, List.length_nil]; omega

/-- Bytes decode to an instruction where its own words do, whatever words follow them. -/
theorem decode_of_decodeWords {i : Instr} {rest : List Byte} (hlen : (encode i).length ≤ 3)
    (h : ∀ t, decodeWords (encode i ++ t) = .ok i) : decode ((encode i).flatMap wordBytes ++ rest) = .ok (i, rest) := by
  obtain ⟨t, ht⟩ := wordsOf_take rest (encode i) 3 hlen
  have hdrop : ((encode i).flatMap wordBytes ++ rest).drop (4 * (encode i).length) = rest := by
    rw [← length_flatMap_wordBytes, List.drop_left]
  rw [decode, ht, h t]
  simp only [hdrop]

/-! Full forms (R61). -/

theorem encode_of_toRaw {i : Instr} {r : Raw} (hc : copOf i = none) (h : toRaw i = some r) : encode i = rawWords r := by
  unfold encode
  split
  · exact nomatch h
  · rw [hc, h]

theorem rawWords_length (r : Raw) : (rawWords r).length ≤ 3 := by
  cases h : r.lit <;> simp [rawWords, h]

/-- The words of fields that fit their places, with what follows them, are read by their kind (R58). -/
theorem decodeWords_rawWords {r : Raw} (h : r.Fits) (t : List W32) : decodeWords (rawWords r ++ t) = decodeRaw r := by
  obtain ⟨w0, w1, l, hw, hr⟩ := rawOf_rawWords r h
  have hlit : l = r.lit.toList := by
    simp only [rawWords, List.cons.injEq] at hw
    exact hw.2.2.symm
  have hkind : w0.toNat % 4 = if r.lit.isSome then 2 else 1 := by
    simp only [rawWords, List.cons.injEq] at hw
    rw [← hw.1, BitVec.toNat_ofNat]
    split <;> omega
  rw [hw, hlit]
  cases hl : r.lit with
  | none =>
    have h1 : w0.toNat % 4 = 1 := by simpa [hl] using hkind
    rw [hl] at hr
    simp [decodeWords, h1, hr]
  | some w2 =>
    have h2 : w0.toNat % 4 = 2 := by simpa [hl] using hkind
    rw [hl] at hr
    simp [decodeWords, h2, hr]

theorem decodeRaw_toRaw {i : Instr} {r : Raw} (hi : i.wf = true) (h : toRaw i = some r) : decodeRaw r = .ok i := by
  simp [decodeRaw, ofRaw_toRaw i r h, hi, h]

/-! Compact words (R70). -/

theorem encode_of_copOf {i : Instr} {cop : Nat} {sub : BitVec 2} {w : CRaw} (h : copOf i = some (cop, sub, w)) :
    encode i = [cWord cop sub w] := by
  unfold encode
  split
  · exact nomatch h
  · rw [h]

theorem compactOf_copOf {i : Instr} {cop : Nat} {sub : BitVec 2} {w : CRaw} (hi : i.wf = true) (h : copOf i = some (cop, sub, w)) :
    compactOf cop sub w = some i := by
  unfold copOf at h
  split at h
  case h_2 sub w =>
    cases h
    have hsub : sub ≠ 1 := bne_iff_ne.mp hi
    exact if_neg hsub
  all_goals cases h <;> rfl

theorem copOf_lt {i : Instr} {cop : Nat} {sub : BitVec 2} {w : CRaw} (h : copOf i = some (cop, sub, w)) : cop < 64 := by
  unfold copOf at h
  split at h
  all_goals cases h <;> decide

theorem cWord_toNat {cop : Nat} (hcop : cop < 64) (sub : BitVec 2) (w : CRaw) :
    (cWord cop sub w).toNat = 4 * cop + 2 ^ 8 * w.stall.toNat + 2 ^ 10 * w.d.toNat + 2 ^ 18 * w.b.toNat + 2 ^ 26 * boolBit w.imm
      + 2 ^ 27 * w.kmask.val + 2 ^ 30 * sub.toNat := by
  have hs := w.stall.isLt
  have hd := w.d.isLt
  have hb := w.b.isLt
  have hi := boolBit_lt w.imm
  have hk := w.kmask.isLt
  have hsub := sub.isLt
  rw [cWord, BitVec.toNat_ofNat]
  omega

/-- The fields of a compact word are read back from any word that holds them, whatever its two low bits. -/
theorem fields_cWord {cop : Nat} (hcop : cop < 64) (sub : BitVec 2) (w : CRaw) {x : W32} {low : Nat} (hlow : low < 4)
    (hx : x.toNat = (cWord cop sub w).toNat + low) : copBits x = cop ∧ subBits x = sub ∧ cRawOf x = w := by
  rw [cWord_toNat hcop] at hx
  obtain ⟨k, i, b, d, st⟩ := w
  simp only at hx
  have hs := st.isLt
  have hd := d.isLt
  have hb := b.isLt
  have hi := boolBit_lt i
  have hk := k.isLt
  have hsub := sub.isLt
  refine ⟨by rw [copBits]; omega, ?_, ?_⟩
  · apply BitVec.eq_of_toNat_eq
    rw [subBits, BitVec.toNat_ofNat]
    omega
  · simp only [cRawOf, CRaw.mk.injEq]
    refine ⟨Fin.ext ?_, ?_, ?_, ?_, ?_⟩
    · rw [Fin.val_ofNat]; omega
    · rw [show x.toNat / 2 ^ 26 % 2 = boolBit i by omega, bit_one]
    all_goals
      apply BitVec.eq_of_toNat_eq
      rw [BitVec.toNat_ofNat]
      omega

theorem decodeC_cWord {i : Instr} {cop : Nat} {sub : BitVec 2} {w : CRaw} (hi : i.wf = true) (h : copOf i = some (cop, sub, w)) :
    decodeC (cWord cop sub w) = .ok i := by
  obtain ⟨hc, hs, hw⟩ := fields_cWord (copOf_lt h) sub w (low := 0) (by decide) rfl
  simp [decodeC, hc, hs, hw, compactOf_copOf hi h, hi]

theorem cWord_low {cop : Nat} (hcop : cop < 64) (sub : BitVec 2) (w : CRaw) : (cWord cop sub w).toNat % 4 = 0 := by
  rw [cWord_toNat hcop]; omega

/-! Pairs (R73). -/

/-- A word whose two low bits are 0, with both of them set. -/
theorem toNat_or_three {x : W32} (h : x.toNat % 4 = 0) : (x ||| 3).toNat = x.toNat + 3 := by
  obtain ⟨k, hk⟩ : ∃ k, x.toNat = 2 ^ 2 * k := ⟨x.toNat / 4, by omega⟩
  rw [BitVec.toNat_or, hk]
  exact (Nat.two_pow_add_eq_or_of_lt (by decide : (3 : Nat) < 2 ^ 2) k).symm

theorem bodyOf_cWord (p : PBody) {x : W32} {low : Nat} (hlow : low < 4) (hx : x.toNat = (cWord p.cop.val p.sub p.w).toNat + low) :
    bodyOf x = p := by
  obtain ⟨hc, hs, hw⟩ := fields_cWord p.cop.isLt p.sub p.w hlow hx
  have hcop : Fin.ofNat 64 p.cop.val = p.cop := by simp
  rw [bodyOf, hc, hs, hw, hcop]

theorem decodeWords_pair {a b : PBody} (h : (Instr.pair a b).wf = true) (t : List W32) :
    decodeWords (encode (.pair a b) ++ t) = .ok (.pair a b) := by
  have hla := cWord_low a.cop.isLt a.sub a.w
  have hlb := cWord_low b.cop.isLt b.sub b.w
  have hor := toNat_or_three hla
  have hba := bodyOf_cWord a (low := 3) (by decide) hor
  have hbb := bodyOf_cWord b (low := 0) (by decide) (x := cWord b.cop.val b.sub b.w) rfl
  have hkind : (cWord a.cop.val a.sub a.w ||| 3).toNat % 4 = 3 := by omega
  have hpair : decodePair (cWord a.cop.val a.sub a.w ||| 3) (cWord b.cop.val b.sub b.w) = .ok (.pair a b) := by
    simp only [Instr.wf, legal, Bool.and_eq_true] at h
    obtain ⟨⟨hwa, hwb⟩, hok⟩ := h
    simp only [decodePair, hba, hbb, hwa, hwb, hok, hlb]
    rfl
  rw [← hpair]
  simp only [encode, List.cons_append, decodeWords, hkind]
  rfl

end Sys2Proof

open Sys2Proof Sys2Proof.Machine

/-- Settles O55: a pair, a compact word and a full form are read back from their own words, and a list of bytes gives those words. -/
theorem decodeReadsEncoding : Obligations.DecodeReadsEncoding := by
  unfold Obligations.DecodeReadsEncoding
  intro i rest hi henc
  cases hcop : copOf i with
  | some p =>
    obtain ⟨cop, sub, w⟩ := p
    have he := encode_of_copOf hcop
    refine decode_of_decodeWords (by simp [he]) fun t => ?_
    simp [he, decodeWords, cWord_low (copOf_lt hcop), decodeC_cWord hi hcop]
  | none =>
    cases hraw : toRaw i with
    | some r =>
      have he := encode_of_toRaw hcop hraw
      refine decode_of_decodeWords (he ▸ rawWords_length r) fun t => ?_
      rw [he, decodeWords_rawWords (toRaw_fits i r hraw), decodeRaw_toRaw hi hraw]
    | none =>
      unfold encode at henc
      split at henc
      · exact decode_of_decodeWords (by simp [encode]) (decodeWords_pair hi)
      · exact absurd (by rw [hcop, hraw]) henc
end

section
/-! Host registers (R5): reading one after a write. -/

namespace Sys2Proof.Machine

/-- Another key reads as before, whatever unlisted keys read as. -/
theorem smGet_smSet_other {α : Type} [DecidableEq α] (d d' : α) (m : SMap α) {n k : Nat} (v : α) (h : k ≠ n) :
    smGet d (smSet d' m n v) k = smGet d m k := by
  have hentry : ∀ m : SMap α, smGet d (smEntry d' n v ++ m) k = smGet d m k := by
    intro m
    unfold smEntry
    split
    · rfl
    · exact if_neg h
  induction m with
  | nil => simpa [smSet] using hentry []
  | cons p m ih =>
    obtain ⟨j, w⟩ := p
    simp only [smSet]
    split
    · rw [hentry, smGet_erase_ne _ _ h]
    · simp only [smGet, ih]

theorem bar_setBar (s : State) (off : Nat) (v : W32) (o : Nat) :
    bar (setBar s off v) o = if o / 4 = off / 4 then v else bar s o := by
  change smGet (barReset (o / 4)) (smSet (barReset (off / 4)) s.bar0 (off / 4) v) (o / 4) = _
  split
  · next h => rw [h, smGet_smSet_self]
  · next h => exact smGet_smSet_other _ _ _ _ h

end Sys2Proof.Machine
end

section
/-! Frames of the memory hierarchy: what the moves of lines, the writes at homes and the holds on pages leave of the state. -/

namespace Sys2Proof.Machine

/-- Only what the memory holds, with its caches, tags and holds on pages, has changed; no host register, no lease, no block. -/
structure OnlyMem (s t : State) : Prop where
  frame : t = { s with mem := t.mem, mpoison := t.mpoison, lineKey := t.lineKey, lines := t.lines, l1 := t.l1, dir := t.dir,
                       msc := t.msc, psel := t.psel, lruIns := t.lruIns, sketch := t.sketch, cands := t.cands,
                       czUnits := t.czUnits, czSect := t.czSect, tlb := t.tlb, wsHolds := t.wsHolds, pinHolds := t.pinHolds }

theorem OnlyMem.refl (s : State) : OnlyMem s s := ⟨rfl⟩

theorem OnlyMem.trans {s t u : State} (h : OnlyMem s t) (g : OnlyMem t u) : OnlyMem s u :=
  ⟨by rw [g.frame, h.frame]⟩

theorem OnlyMem.ite {c : Prop} [Decidable c] {s a b : State} (ha : OnlyMem s a) (hb : OnlyMem s b) : OnlyMem s (if c then a else b) := by
  split
  · exact ha
  · exact hb

theorem OnlyMem.set_mem (s : State) (m : Memory) : OnlyMem s { s with mem := m } := ⟨rfl⟩

theorem OnlyMem.set_l1 (s : State) (l : List L1Copy) : OnlyMem s { s with l1 := l } := ⟨rfl⟩

theorem OnlyMem.set_lines (s : State) (l : List CLine) : OnlyMem s { s with lines := l } := ⟨rfl⟩

theorem OnlyMsc.onlyMem {s t : State} (h : OnlyMsc s t) : OnlyMem s t := by
  unfold OnlyMsc at h
  exact ⟨by rw [h]⟩

/-- A fold of moves of the memory hierarchy is one. -/
theorem OnlyMem.foldl {α : Type} {f : State → α → State} (hf : ∀ s a, OnlyMem s (f s a)) (l : List α) :
    ∀ s, OnlyMem s (l.foldl f s) := by
  induction l with
  | nil => exact fun s => .refl s
  | cons a l ih => exact fun s => (hf s a).trans (ih _)

theorem mscTouch_onlyMem (s : State) (line ilv ctx : Nat) (write : Bool) : OnlyMem s (mscTouch s line ilv ctx write) :=
  (mscTouch_onlyMsc s line ilv ctx write).onlyMem

theorem fillHome_onlyMem (s : State) (p : Phys) (ctx : Nat) (cache : Cache) : OnlyMem s (fillHome s p ctx cache) := by
  cases h : homeCopy? s p.line with
  | some c => rw [fillHome_of_some h]; exact .refl s
  | none =>
    rw [fillHome_of_none h]
    exact OnlyMem.trans (OnlyMem.set_lines s _) (mscTouch_onlyMem _ _ _ _ _)

theorem setLineKey_onlyMem (s : State) (p : Phys) : OnlyMem s (setLineKey s p) := by
  simp only [setLineKey]
  repeat' split
  all_goals exact ⟨rfl⟩

theorem l1Drop_onlyMem (s : State) (gone : L1Copy → Bool) : OnlyMem s (l1Drop s gone) := by
  simp only [l1Drop]
  split <;> exact ⟨rfl⟩

theorem dropLines_onlyMem (s : State) (gone : CLine → Bool) : OnlyMem s (dropLines s gone) :=
  .ite (.refl s) ((OnlyMem.set_lines _ _).trans (l1Drop_onlyMem _ _))

theorem setMPoison_onlyMem (s : State) (line : Nat) (b : Bool) : OnlyMem s (setMPoison s line b) := ⟨rfl⟩

theorem modLine_onlyMem (s : State) (die line : Nat) (f : CLine → CLine) : OnlyMem s (s.modLine die line f) := ⟨rfl⟩

theorem writeBack_onlyMem (s : State) (line : Nat) : OnlyMem s (writeBack s line) := by
  unfold writeBack
  split
  · next c _ =>
    extract_lets s₁ s₂ clean s₃ s₄
    have hmem : OnlyMem s s₁ := .set_mem _ _
    have hpoison : OnlyMem s₁ s₂ := setMPoison_onlyMem _ _ _
    have hline : OnlyMem s₂ s₃ := modLine_onlyMem _ _ _ _
    have hl1 : OnlyMem s₃ s₄ := .set_l1 _ _
    exact .ite ((hmem.trans (hpoison.trans (hline.trans hl1))).trans (mscTouch_onlyMem _ _ _ _ _)) (.refl s)
  · exact .refl s

theorem homeWrite_onlyMem (s : State) (p : Phys) (ctx : Nat) (l : List Byte) (poison : Bool) (cache : Cache) :
    OnlyMem s (homeWrite s p ctx l poison cache) := by
  unfold homeWrite
  split
  · exact ((fillHome_onlyMem s p ctx cache).trans (setLineKey_onlyMem _ p)).trans (modLine_onlyMem _ _ _ _)
  · extract_lets d s₁ s₂
    have hput : OnlyMem s s₂ := (setLineKey_onlyMem s p).trans (.set_mem _ _)
    exact .ite (hput.trans (setMPoison_onlyMem _ _ _)) hput

theorem devWrite_onlyMem (s : State) (p : Phys) (ctx : Nat) (l : List Byte) : OnlyMem s (devWrite s p ctx l) := by
  have hw := homeWrite_onlyMem s p ctx l false .normal
  unfold devWrite
  split
  · exact (hw.trans (l1Drop_onlyMem _ _)).trans (writeBack_onlyMem _ _)
  · exact hw

theorem paWrite_onlyMem (s : State) (key ctx pa : Nat) (l : List Byte) : OnlyMem s (paWrite s key ctx pa l) :=
  OnlyMem.foldl (fun _ _ => devWrite_onlyMem _ _ _ _) _ s

theorem vaWrite_onlyMem (s : State) (ctx va : Nat) (l : List Byte) : OnlyMem s (vaWrite s ctx va l) := by
  refine OnlyMem.foldl (fun s q => ?_) _ s
  split
  · exact devWrite_onlyMem _ _ _ _
  · exact .refl s

theorem signalDo_onlyMem (s : State) (ctx : Nat) (sig : W64 × W64) : OnlyMem s (signalDo s ctx sig) := vaWrite_onlyMem _ _ _ _

theorem dropPage_onlyMem (s : State) (ctx va : Nat) : OnlyMem s (dropPage s ctx va) :=
  ((OnlyMem.foldl writeBack_onlyMem _ s).trans (l1Drop_onlyMem _ _)).trans ⟨rfl⟩

theorem setPin_onlyMem (s : State) (ctx va : Nat) (b : Bool) : OnlyMem s (setPin s ctx va b) := by
  simp only [setPin]
  split
  · exact .refl s
  · exact paWrite_onlyMem _ _ _ _ _

theorem dropHold_onlyMem (s : State) (ws : Bool) (ctx va : Nat) : OnlyMem s (dropHold s ws ctx va) := by
  unfold dropHold
  extract_lets k n s₁ s₂
  have hcount : OnlyMem s s₁ := .ite ⟨rfl⟩ ⟨rfl⟩
  have hpage : OnlyMem s s₂ := hcount.trans (dropPage_onlyMem _ _ _)
  exact .ite (.refl s) (.ite (.ite hpage (hpage.trans (setPin_onlyMem _ _ _ _))) hcount)

theorem takeHold_onlyMem (s : State) (ws : Bool) (ctx va : Nat) : OnlyMem s (takeHold s ws ctx va) := by
  unfold takeHold
  extract_lets k s₁
  have hpin : OnlyMem s s₁ := .ite (.refl s) (setPin_onlyMem _ _ _ _)
  exact .ite (hpin.trans ⟨rfl⟩) (hpin.trans ⟨rfl⟩)

theorem dropWs_onlyMem (s : State) (la : Launch) : OnlyMem s (dropWs s la) :=
  OnlyMem.foldl (fun _ _ => dropHold_onlyMem _ _ _ _) _ s

theorem evictLine_onlyMem (s : State) (die line : Nat) : OnlyMem s (evictLine s die line) :=
  OnlyMem.trans (.ite (writeBack_onlyMem _ _) (.refl s)) (dropLines_onlyMem _ _)

theorem fitL2_onlyMem (s : State) : OnlyMem s (fitL2 s) :=
  .ite (.refl s) (OnlyMem.foldl (fun _ _ => evictLine_onlyMem _ _ _) _ s)

end Sys2Proof.Machine
end

section
/-! What follows every move settles the machine: updated scoreboards are tested (R400), sub-teams whose epoch has passed go on (R25), and
launches given up end with their last commit (R437). -/

namespace Sys2Proof.Machine

/-! Waits of a team's records: when they fuse, none comes about but at a `JOIN`. -/

/-- Every wait in the second list stands in the first, or is at a `JOIN`; or the record is ready. -/
def WaitsFrom (rs qs : List Record) : Prop :=
  ∀ q ∈ qs, q.wait = .ready ∨ q.wait.isJoin = true ∨ ∃ r ∈ rs, r.wait = q.wait

theorem WaitsFrom.refl (rs : List Record) : WaitsFrom rs rs := fun q hq => .inr (.inr ⟨q, hq, rfl⟩)

theorem WaitsFrom.trans {rs qs ps : List Record} (h : WaitsFrom rs qs) (g : WaitsFrom qs ps) : WaitsFrom rs ps := by
  intro p hp
  obtain hready | hjoin | ⟨q, hq, hw⟩ := g p hp
  · exact .inl hready
  · exact .inr (.inl hjoin)
  · exact hw ▸ h q hq

theorem WaitsFrom.filter (rs : List Record) (p : Record → Bool) : WaitsFrom rs (rs.filter p) :=
  fun q hq => .inr (.inr ⟨q, List.mem_of_mem_filter hq, rfl⟩)

/-- A change of single records that leaves each ready, at a `JOIN`, or waiting as it did. -/
theorem WaitsFrom.map (rs : List Record) {f : Record → Record}
    (hf : ∀ r, (f r).wait = .ready ∨ (f r).wait.isJoin = true ∨ (f r).wait = r.wait) : WaitsFrom rs (rs.map f) := by
  intro q hq
  obtain ⟨r, hr, rfl⟩ := List.mem_map.1 hq
  exact (hf r).imp_right (.imp_right fun hw => ⟨r, hr, hw.symm⟩)

theorem WaitsFrom.ite {c : Prop} [Decidable c] {rs : List Record} {t u : Team} (ht : WaitsFrom rs t.records)
    (hu : WaitsFrom rs u.records) : WaitsFrom rs (if c then t else u).records := by
  split
  · exact ht
  · exact hu

theorem waitsFrom_wake (p : Wait → Bool) (now : Nat) (t : Team) : WaitsFrom t.records (t.wake p now).records := by
  refine .map _ fun r => ?_
  unfold wakeRec
  split
  · exact .inl rfl
  · exact .inr (.inr rfl)

theorem waitsFrom_drain (t : Team) : WaitsFrom t.records t.drain.records := .map _ fun _ => .inr (.inr rfl)

/-- A record's change that leaves it ready, at a `JOIN`, or waiting as it did. -/
theorem waitsFrom_modRec (t : Team) (n : Nat) {f : Record → Record}
    (hf : ∀ r, (f r).wait = .ready ∨ (f r).wait.isJoin = true ∨ (f r).wait = r.wait) : WaitsFrom t.records (t.modRec n f).records := by
  refine .map _ fun r => ?_
  split
  · exact hf r
  · exact .inr (.inr rfl)

theorem waitsFrom_dropArm (fuel : Nat) : ∀ (t : Team) (e : Nat), WaitsFrom t.records (dropArm t e fuel).records := by
  induction fuel with
  | zero => exact fun t _ => .refl _
  | succ fuel ih =>
    intro t e
    simp only [dropArm]
    split
    · exact .refl _
    · split
      · exact ih _ _
      · split
        · refine .map _ fun r => .inr (.inr ?_)
          split <;> rfl
        · exact .refl _

theorem waitsFrom_mergeRec (now : Nat) (keep gone : Record) (pc : W64) {w : Wait} (hw : w = .ready ∨ w.isJoin = true) (t : Team) :
    WaitsFrom t.records (mergeRec now keep gone pc w t).records := by
  unfold mergeRec
  extract_lets join t₁
  have hjoin : WaitsFrom t.records t₁.records := by
    refine (WaitsFrom.filter _ _).trans (.map _ fun r => ?_)
    simp only [join]
    split
    · exact hw.imp_right .inl
    · exact .inr (.inr rfl)
  exact ((hjoin.trans (waitsFrom_drain _)).trans (waitsFrom_dropArm _ _ _)).trans (waitsFrom_wake _ _ _)

theorem canFuse_of_fusePair {l : List Record} {a b : Record} (h : fusePair l = some (a, b)) : canFuse a b = true := by
  induction l with
  | nil => exact nomatch h
  | cons r l ih =>
    simp only [fusePair] at h
    split at h
    · next b' hb =>
      obtain ⟨rfl, rfl⟩ : r = a ∧ b' = b := by simpa using h
      exact List.find?_some hb
    · exact ih h

theorem waitsFrom_fuseAll (now fuel : Nat) : ∀ t : Team, WaitsFrom t.records (fuseAll now fuel t).records := by
  induction fuel with
  | zero => exact fun t => .refl _
  | succ fuel ih =>
    intro t
    simp only [fuseAll]
    split
    · exact .refl _
    · next a b hpair =>
      have hfuse := canFuse_of_fusePair hpair
      refine (waitsFrom_mergeRec now _ _ _ ?_ t).trans (ih _)
      simp only [canFuse, Bool.and_eq_true, Bool.or_eq_true, beq_iff_eq] at hfuse
      split
      · next hja => exact .inr hja
      · exact hfuse.2

theorem waitsFrom_settleJoins (now fuel : Nat) : ∀ t : Team, WaitsFrom t.records (settleJoins now fuel t).records := by
  induction fuel with
  | zero => exact fun t => .refl _
  | succ fuel ih =>
    intro t
    simp only [settleJoins]
    split
    · exact .refl _
    · split
      · exact .refl _
      · next keep rest _ =>
        have hmerge : ∀ (l : List Record) (u : Team),
            WaitsFrom u.records (l.foldl (fun u k => mergeRec now keep k keep.pc .ready u) u).records := by
          intro l
          induction l with
          | nil => exact fun u => .refl _
          | cons k l ihl => exact fun u => (waitsFrom_mergeRec now keep k keep.pc (w := .ready) (.inl rfl) u).trans (ihl _)
        refine WaitsFrom.trans (.ite ?_ ?_) (ih _)
        · exact (hmerge rest t).trans (waitsFrom_modRec _ _ fun _ => .inl rfl)
        · exact waitsFrom_modRec _ _ fun _ => .inl rfl

theorem waitsFrom_fuse (now : Nat) (t : Team) : WaitsFrom t.records (t.fuse now).records := by
  have hmany : ∀ u : Team, WaitsFrom u.records (if u.records.length ≤ 1 then u else fuseAll now 32 u).records :=
    fun u => .ite (.refl _) (waitsFrom_fuseAll now 32 u)
  exact (hmany t).trans (.ite ((waitsFrom_settleJoins now 32 _).trans (hmany _)) (.refl _))

/-- Every wait at a barrier object in the second list stands in the first. -/
def AbarsFrom (rs qs : List Record) : Prop :=
  ∀ q ∈ qs, ∀ a e n, q.wait = .abar a e n → ∃ r ∈ rs, r.wait = .abar a e n

theorem WaitsFrom.abars {rs qs : List Record} (h : WaitsFrom rs qs) : AbarsFrom rs qs := by
  intro q hq a e n hw
  obtain hready | hjoin | ⟨r, hr, hrw⟩ := h q hq
  · rw [hready] at hw; exact nomatch hw
  · rw [hw] at hjoin; exact nomatch hjoin
  · exact ⟨r, hr, hrw.trans hw⟩

theorem AbarsFrom.refl (rs : List Record) : AbarsFrom rs rs := (WaitsFrom.refl rs).abars

theorem AbarsFrom.trans {rs qs ps : List Record} (h : AbarsFrom rs qs) (g : AbarsFrom qs ps) : AbarsFrom rs ps :=
  fun p hp a e n hw =>
    have ⟨q, hq, hqw⟩ := g p hp a e n hw
    h q hq a e n hqw

theorem AbarsFrom.filter (rs : List Record) (p : Record → Bool) : AbarsFrom rs (rs.filter p) := (WaitsFrom.filter rs p).abars

/-! Waits that are over, seen from a block: nothing of it counts but what its teams are not part of. -/

/-- Each block's teams have been replaced, and nothing else. -/
def withTeams (F : Block → List Team) (s : State) : State := { s with blocks := s.blocks.map fun b => { b with teams := F b } }

theorem block?_withTeams (F : Block → List Team) (s : State) (bid : Nat) :
    (withTeams F s).block? bid = (s.block? bid).map fun b => { b with teams := F b } :=
  List.find?_map ..

theorem groupBlock?_withTeams (F : Block → List Team) (s : State) (h : LaunchHdr) (b : Block) (ts : List Team) (rank : Nat) :
    groupBlock? (withTeams F s) h { b with teams := ts } rank = (groupBlock? s h b rank).map fun b => { b with teams := F b } :=
  List.find?_map ..

theorem resolveWindow_withTeams (F : Block → List Team) (s : State) (h : LaunchHdr) (b : Block) (ts : List Team) (ea n : Nat) :
    resolveWindow (withTeams F s) h { b with teams := ts } ea n = resolveWindow s h b ea n := by
  simp only [resolveWindow, groupBlock?_withTeams]
  cases groupBlock? s h b (bitsOf ea 25 20) <;> rfl

theorem abarOver_withTeams (F : Block → List Team) (s : State) (la : Launch) (b : Block) (ts : List Team) {r q : Record}
    (hw : q.wait = r.wait) : abarOver (withTeams F s) la { b with teams := ts } q = abarOver s la b r := by
  simp only [abarOver, hw, resolveWindow_withTeams, block?_withTeams]
  split
  · split
    · rfl
    · next bid off _ => cases s.block? bid <;> rfl
  · rfl

theorem abarOver_of_not_abar {s : State} {la : Launch} {b : Block} {r : Record} (h : ∀ a e n, r.wait ≠ .abar a e n) :
    abarOver s la b r = false := by
  unfold abarOver
  split
  · next a e n hw => exact absurd hw (h a e n)
  · rfl

theorem exists_abar_of_abarOver {s : State} {la : Launch} {b : Block} {r : Record} (h : abarOver s la b r = true) :
    ∃ a e n, r.wait = .abar a e n := by
  by_contra hno
  rw [abarOver_of_not_abar fun a e n hw => hno ⟨a, e, n, hw⟩] at h
  exact nomatch h

/-- No sub-team of a block waits at a barrier object whose epoch has passed (R25). -/
def NoneOver (s : State) (b : Block) : Prop :=
  ∀ la, s.launch? b.q b.lseq = some la → ∀ t ∈ b.teams, ∀ r ∈ t.records, abarOver s la b r = false

/-- The records of a list of teams. -/
def recordsOf (ts : List Team) : List Record := ts.flatMap Team.records

theorem NoneOver.withTeams {F : Block → List Team} {s : State} {b : Block} (h : NoneOver s b)
    (hF : AbarsFrom (recordsOf b.teams) (recordsOf (F b))) : NoneOver (withTeams F s) { b with teams := F b } := by
  intro la hla t ht r hr
  by_contra hover
  rw [Bool.not_eq_false] at hover
  obtain ⟨a, e, n, hw⟩ := exists_abar_of_abarOver hover
  obtain ⟨q, hq, hqw⟩ := hF r (List.mem_flatMap.2 ⟨t, ht, hr⟩) a e n hw
  obtain ⟨u, hu, hqu⟩ := List.mem_flatMap.1 hq
  have hsame := abarOver_withTeams F s la b (F b) (hw.trans hqw.symm)
  rw [hover] at hsame
  exact nomatch hsame.trans (h la hla u hu q hqu)

/-! The sub-teams of one block go on. -/

/-- A team whose sub-teams at passed epochs go on. -/
def wokenTeam (s : State) (la : Launch) (b : Block) (t : Team) : Team :=
  if t.records.any (abarOver s la b) then
    ((scopeTeams s b .cg).foldl Team.inherit
      { t with records := t.records.map fun r => if abarOver s la b r then releaseAbar s.time r else r }).fuse s.time
  else t

theorem foldl_inherit_records (us : List Team) : ∀ t : Team, (us.foldl Team.inherit t).records = t.records := by
  induction us with
  | nil => exact fun _ => rfl
  | cons u us ih => exact fun t => ih _

theorem releaseAbar_wait_ne (now : Nat) (r : Record) (a : W64) (e : W32) (n : W64) : (releaseAbar now r).wait ≠ .abar a e n := by
  unfold releaseAbar
  split
  · exact nofun
  · next h => exact h a e n

/-- The waits at objects of a woken team are those of its records that are not over. -/
theorem abarsFrom_wokenTeam (s : State) (la : Launch) (b : Block) (t : Team) :
    AbarsFrom (t.records.filter fun r => !abarOver s la b r) (wokenTeam s la b t).records := by
  unfold wokenTeam
  split
  · refine AbarsFrom.trans ?_ (waitsFrom_fuse _ _).abars
    rw [foldl_inherit_records]
    intro q hq a e n hw
    obtain ⟨r, hr, rfl⟩ := List.mem_map.1 hq
    split at hw
    · exact absurd hw (releaseAbar_wait_ne _ _ _ _ _)
    · next hno => exact ⟨r, List.mem_filter.2 ⟨hr, by simpa using hno⟩, hw⟩
  · next hno =>
    intro q hq a e n hw
    refine ⟨q, List.mem_filter.2 ⟨hq, ?_⟩, hw⟩
    simpa using fun hover => hno (List.any_eq_true.2 ⟨q, hq, hover⟩)

theorem abarsFrom_map_wokenTeam (s : State) (la : Launch) (b : Block) (ts : List Team) :
    AbarsFrom ((recordsOf ts).filter fun r => !abarOver s la b r) (recordsOf (ts.map (wokenTeam s la b))) := by
  intro q hq a e n hw
  obtain ⟨u, hu, hqu⟩ := List.mem_flatMap.1 hq
  obtain ⟨t, ht, rfl⟩ := List.mem_map.1 hu
  obtain ⟨r, hr, hrw⟩ := abarsFrom_wokenTeam s la b t q hqu a e n hw
  obtain ⟨hrt, hnot⟩ := List.mem_filter.1 hr
  exact ⟨r, List.mem_filter.2 ⟨List.mem_flatMap.2 ⟨t, ht, hrt⟩, hnot⟩, hrw⟩

theorem withTeams_teams (s : State) : withTeams Block.teams s = s := by
  simp [withTeams]

/-- A block is another one whose waits at objects only may have gone. -/
structure Woken (a b : Block) : Prop where
  frame : b = { a with teams := b.teams }
  abars : AbarsFrom (recordsOf a.teams) (recordsOf b.teams)

/-- WAKING A BLOCK replaces teams alone and brings no wait at an object; in the block, as it stood when it was listed, none is over. -/
theorem wakeAbar_spec (s : State) (a : Block) : ∃ F, wakeAbar s a = withTeams F s ∧
    (∀ b, AbarsFrom (recordsOf b.teams) (recordsOf (F b))) ∧
    ∀ la, s.launch? a.q a.lseq = some la → ∀ b, Woken a b → ∀ r ∈ recordsOf (F b), abarOver s la a r = false := by
  have hover : ∀ {la : Launch} {rs qs : List Record}, AbarsFrom (rs.filter fun r => !abarOver s la a r) qs →
      ∀ q ∈ qs, abarOver s la a q = false := by
    intro la rs qs hfrom q hq
    by_contra hov
    rw [Bool.not_eq_false] at hov
    obtain ⟨x, e, n, hw⟩ := exists_abar_of_abarOver hov
    obtain ⟨r, hr, hrw⟩ := hfrom q hq x e n hw
    have hnot := (List.mem_filter.1 hr).2
    have hsame : abarOver s la a q = abarOver s la a r := by simp only [abarOver, hw, hrw]
    rw [← hsame, hov] at hnot
    exact nomatch hnot
  have hstay : (∀ la, s.launch? a.q a.lseq = some la → ∀ b, Woken a b → ∀ r ∈ recordsOf b.teams, abarOver s la a r = false) →
      ∃ F, s = withTeams F s ∧ (∀ b, AbarsFrom (recordsOf b.teams) (recordsOf (F b))) ∧
        ∀ la, s.launch? a.q a.lseq = some la → ∀ b, Woken a b → ∀ r ∈ recordsOf (F b), abarOver s la a r = false :=
    fun h => ⟨Block.teams, (withTeams_teams s).symm, fun _ => .refl _, h⟩
  unfold wakeAbar
  split
  · split
    · next hnone => exact hstay fun la hla => by rw [hnone] at hla; exact nomatch hla
    · next la hla =>
      refine ⟨fun b => if b.bid = a.bid then b.teams.map (wokenTeam s la a) else b.teams, ?_, fun b => ?_, ?_⟩
      · simp only [withTeams, State.modBlock]
        congr 2
        funext b
        split <;> rfl
      · dsimp only
        split
        · exact (AbarsFrom.filter _ _).trans (abarsFrom_map_wokenTeam s la a b.teams)
        · exact .refl _
      · intro la' hla' b hb r hr
        obtain rfl : la = la' := Option.some.inj (hla.symm.trans hla')
        have hbid : b.bid = a.bid := by rw [hb.frame]
        simp only [hbid, if_true] at hr
        exact hover (abarsFrom_map_wokenTeam s la a b.teams) r hr
  · next hnone =>
    refine hstay fun la _ b hb r hr => abarOver_of_not_abar fun x e n hw => hnone ?_
    obtain ⟨q, hq, hqw⟩ := hb.abars r hr x e n hw
    obtain ⟨t, ht, hqt⟩ := List.mem_flatMap.1 hq
    exact List.any_eq_true.2 ⟨t, ht, List.any_eq_true.2 ⟨q, hqt, by rw [hqw]⟩⟩

/-- Blocks whose waits are not over, and those still to be woken. -/
def AllWaitOn (s : State) (todo : List Block) : Prop := ∀ b ∈ s.blocks, NoneOver s b ∨ ∃ a ∈ todo, Woken a b

theorem allWaitOn_wakeAbar {s : State} {a : Block} {todo : List Block} (h : AllWaitOn s (a :: todo)) :
    AllWaitOn (wakeAbar s a) todo := by
  obtain ⟨F, hF, hfrom, hover⟩ := wakeAbar_spec s a
  rw [hF]
  intro b' hb'
  obtain ⟨b, hb, rfl⟩ := List.mem_map.1 hb'
  rcases h b hb with hnone | ⟨c, hc, hcb⟩
  · exact .inl (hnone.withTeams (hfrom b))
  · rcases List.mem_cons.1 hc with rfl | hc
    · left
      intro la hla t ht r hr
      have hq : b.q = c.q := by rw [hcb.frame]
      have hlseq : b.lseq = c.lseq := by rw [hcb.frame]
      change s.launch? b.q b.lseq = some la at hla
      rw [hq, hlseq] at hla
      have hblock : ({ b with teams := F b } : Block) = { c with teams := F b } := by rw [hcb.frame]
      rw [hblock, abarOver_withTeams F s la c (F b) (rfl : r.wait = r.wait)]
      exact hover la hla b hcb r (List.mem_flatMap.2 ⟨t, ht, hr⟩)
    · exact .inr ⟨c, hc, ⟨congrArg (fun c : Block => { c with teams := F b }) hcb.frame, hcb.abars.trans (hfrom b)⟩⟩

theorem noneOver_foldl_wakeAbar (todo : List Block) : ∀ s, AllWaitOn s todo → ∀ b ∈ (todo.foldl wakeAbar s).blocks,
    NoneOver (todo.foldl wakeAbar s) b := by
  induction todo with
  | nil => exact fun s h b hb => (h b hb).elim id fun ⟨_, ha, _⟩ => absurd ha List.not_mem_nil
  | cons a todo ih => exact fun s h => ih _ (allWaitOn_wakeAbar h)

theorem foldl_wakeAbar_sbTest (todo : List Block) : ∀ s : State, (∀ b ∈ s.blocks, b.sbTest = []) →
    ∀ b ∈ (todo.foldl wakeAbar s).blocks, b.sbTest = [] := by
  induction todo with
  | nil => exact fun s h => h
  | cons a todo ih =>
    refine fun s h => ih _ ?_
    obtain ⟨F, hF, -⟩ := wakeAbar_spec s a
    rw [hF]
    intro b' hb'
    obtain ⟨b, hb, rfl⟩ := List.mem_map.1 hb'
    exact h b hb

end Sys2Proof.Machine
end

section
/-! Tests of scoreboards (R400): every update is tested, and firing brings no new one. -/

namespace Sys2Proof.Machine

/-- The same blocks, in which no scoreboard has been updated that was not before. -/
structure NoNewTest (s t : State) : Prop where
  blocks : List.Forall₂ (fun b c : Block => c.bid = b.bid ∧ (b.sbTest = [] → c.sbTest = [])) s.blocks t.blocks

theorem NoNewTest.of_blocks_eq {s t : State} (h : t.blocks = s.blocks) : NoNewTest s t :=
  ⟨by rw [h]; exact List.forall₂_same.2 fun _ _ => ⟨rfl, id⟩⟩

theorem NoNewTest.refl (s : State) : NoNewTest s s := .of_blocks_eq rfl

theorem NoNewTest.trans {s t u : State} (h : NoNewTest s t) (g : NoNewTest t u) : NoNewTest s u := by
  refine ⟨?_⟩
  have hcomp := h.blocks
  have gcomp := g.blocks
  generalize s.blocks = as, t.blocks = bs, u.blocks = cs at hcomp gcomp
  induction hcomp generalizing cs with
  | nil => cases gcomp; exact .nil
  | cons hab _ ih =>
    cases gcomp with
    | cons hbc hrest => exact .cons ⟨hbc.1.trans hab.1, fun hnil => hbc.2 (hab.2 hnil)⟩ (ih _ hrest)

theorem NoNewTest.map {s t : State} {f : Block → Block} (h : t.blocks = s.blocks.map f)
    (hf : ∀ b, (f b).bid = b.bid ∧ (b.sbTest = [] → (f b).sbTest = [])) : NoNewTest s t := by
  refine ⟨?_⟩
  rw [h]
  generalize s.blocks = bs
  induction bs with
  | nil => exact .nil
  | cons b bs ih => exact .cons (hf b) ih

theorem NoNewTest.modBlock (s : State) (k : Nat) {f : Block → Block}
    (hf : ∀ b, (f b).bid = b.bid ∧ (b.sbTest = [] → (f b).sbTest = [])) : NoNewTest s (s.modBlock k f) := by
  refine .map rfl fun b => ?_
  split
  · exact hf b
  · exact ⟨rfl, id⟩

theorem NoNewTest.foldl {α : Type} {f : State → α → State} (hf : ∀ s a, NoNewTest s (f s a)) (l : List α) :
    ∀ s, NoNewTest s (l.foldl f s) := by
  induction l with
  | nil => exact fun s => .refl s
  | cons a l ih => exact fun s => (hf s a).trans (ih _)

theorem stopLaunch_noNewTest (s : State) (q lseq : Nat) (st : Stop) (all : Bool) : NoNewTest s (stopLaunch s q lseq st all) := by
  refine .map rfl fun b => ?_
  split <;> exact ⟨rfl, id⟩

theorem engineStop_noNewTest (s : State) (b : Block) (team cause : Nat) (pc trapa : W64) (pages : List W64) :
    NoNewTest s (engineStop s b team cause pc trapa pages) := by
  unfold engineStop
  split
  · exact .refl s
  · exact stopLaunch_noNewTest _ _ _ _ _

theorem barCount_blocks (s : State) (off : Nat) : (barCount s off).blocks = s.blocks := by
  rw [barCount_onlyCopies s off]

theorem register_blocks (s : State) (la : Launch) (b : Block) (g : GDesc) : (register s la b g).blocks = s.blocks := by
  have hcount : ∀ (l : List NetIn) (s : State), (l.foldl (fun s _ => barCount s 0x190000) s).blocks = s.blocks := by
    intro l
    induction l with
    | nil => exact fun _ => rfl
    | cons n l ih => exact fun s => (ih _).trans (barCount_blocks s _)
  unfold register
  split
  · rfl
  · exact hcount _ _

theorem deliver_blocks {s t : State} {dev h : Nat} {mk : Nat → Msg} (ht : deliver s dev h mk = some t) : t.blocks = s.blocks := by
  obtain ⟨p, -, rfl⟩ := Option.map_eq_some_iff.1 ht
  split <;> rfl

theorem sendPart_blocks (s : State) (op : SendOp) (part dev hash : Nat) (mk : Nat → Msg) :
    (sendPart s op part dev hash mk).1.blocks = s.blocks := by
  unfold sendPart
  split
  · next hd => exact deliver_blocks hd
  · rfl

theorem sendChunk_noNewTest (s : State) (b : Block) (la : Launch) (desc : Memory) (op : SendOp) (places : List Piece) :
    NoNewTest s (sendChunk s b la desc op places) := by
  have hparts : ∀ {β : Type} (f : State × SendOp → β → State × SendOp) (_ : ∀ a x, (f a x).1.blocks = a.1.blocks) (l : List β) a,
      (l.foldl f a).1.blocks = a.1.blocks := by
    intro β f hf l
    induction l with
    | nil => exact fun _ => rfl
    | cons x l ih => exact fun a => (ih _).trans (hf a x)
  unfold sendChunk
  extract_lets d g data pois peer toMem hdr src chunk op'
  have hsent : ∀ a : State × SendOp, a.1.blocks = s.blocks →
      NoNewTest s (a.1.modBlock b.bid fun b => { b with sends := b.sends ++ [a.2] }) :=
    fun a ha => .trans (.of_blocks_eq ha) (.modBlock _ _ fun _ => ⟨rfl, id⟩)
  by_cases hred : (op'.red && toMem) = true
  · simp only [hred, if_true]
    exact hsent _ (sendPart_blocks _ _ _ _ _ _)
  · simp only [hred]
    exact hsent _ (hparts _ (fun a x => sendPart_blocks _ _ _ _ _ _) _ _)

theorem fireSlot_noNewTest (s : State) (bid : Nat) (a : Arm) : NoNewTest s (fireSlot s bid a) := by
  have hdisarm : ∀ s : State, NoNewTest s (s.modBlock bid (disarm a.n)) := fun s => .modBlock _ _ fun _ => ⟨rfl, id⟩
  unfold fireSlot
  split
  · exact .refl s
  · split
    · exact .refl s
    · extract_lets d red g s' op s''
      have hid : NoNewTest s' s'' := .of_blocks_eq rfl
      refine (hdisarm s).trans (t := s') ?_
      split
      · exact engineStop_noNewTest _ _ _ _ _ _ _
      · split
        · exact engineStop_noNewTest _ _ _ _ _ _ _
        · split
          · exact engineStop_noNewTest _ _ _ _ _ _ _
          · clear_value s''
            exact hid.trans (NoNewTest.trans (.of_blocks_eq (register_blocks _ _ _ _)) (sendChunk_noNewTest _ _ _ _ _ _))

theorem testSb_noNewTest (s : State) (bid sb : Nat) : NoNewTest s (testSb s bid sb) := by
  unfold testSb
  split
  · exact .refl s
  · extract_lets met go s' clear
    have hfire : NoNewTest s s' := .foldl (fun _ _ => fireSlot_noNewTest _ _ _) _ s
    split
    · exact hfire
    · exact hfire.trans (.modBlock _ _ fun _ => ⟨rfl, id⟩)

/-- Each block afterwards comes from one before. -/
theorem NoNewTest.exists_of_mem {s t : State} (h : NoNewTest s t) {c : Block} (hc : c ∈ t.blocks) :
    ∃ b ∈ s.blocks, c.bid = b.bid ∧ (b.sbTest = [] → c.sbTest = []) := by
  have hcomp := h.blocks
  generalize s.blocks = as, t.blocks = bs at hcomp hc
  induction hcomp with
  | nil => exact nomatch hc
  | cons hab _ ih =>
    rcases List.mem_cons.1 hc with rfl | hc
    · exact ⟨_, List.mem_cons_self, hab⟩
    · obtain ⟨b, hb, hbc⟩ := ih hc
      exact ⟨b, List.mem_cons_of_mem _ hb, hbc⟩

theorem NoNewTest.sbTest_nil {s t : State} (h : NoNewTest s t) {k : Nat} (hs : ∀ b ∈ s.blocks, b.bid = k → b.sbTest = []) :
    ∀ c ∈ t.blocks, c.bid = k → c.sbTest = [] := by
  intro c hc hk
  obtain ⟨b, hb, hbid, hnil⟩ := h.exists_of_mem hc
  exact hnil (hs b hb (hbid ▸ hk))

/-- The blocks of a number once its scoreboards have been tested. -/
theorem testArms_spec (s : State) (bid : Nat) :
    NoNewTest s (testArms s bid) ∧ ∀ c ∈ (testArms s bid).blocks, c.bid = bid → c.sbTest = [] := by
  unfold testArms
  split
  · next hnone =>
    refine ⟨.refl s, fun c hc hk => ?_⟩
    simpa [hk] using List.find?_eq_none.1 hnone c hc
  · next b hb =>
    have hclear : NoNewTest s (s.modBlock bid fun b => { b with sbTest := [] }) := .modBlock _ _ fun _ => ⟨rfl, fun _ => rfl⟩
    have htest := NoNewTest.foldl (fun s n => testSb_noNewTest s bid n) b.sbTest (s.modBlock bid fun b => { b with sbTest := [] })
    refine ⟨hclear.trans htest, htest.sbTest_nil fun c hc hk => ?_⟩
    obtain ⟨b, -, rfl⟩ := List.mem_map.1 hc
    split at hk
    · next hb => rw [if_pos hb]
    · next hb => exact absurd hk hb

/-- Every block with an updated scoreboard is one of a list by its number. -/
def Listed (todo : List Block) (s : State) : Prop := ∀ b ∈ s.blocks, b.sbTest = [] ∨ ∃ a ∈ todo, b.bid = a.bid

theorem foldl_testArms_sbTest (todo : List Block) : ∀ s : State, Listed todo s →
    ∀ b ∈ (todo.foldl (fun s b => testArms s b.bid) s).blocks, b.sbTest = [] := by
  induction todo with
  | nil => exact fun s h b hb => (h b hb).elim id fun ⟨_, ha, _⟩ => absurd ha List.not_mem_nil
  | cons a todo ih =>
    refine fun s h => ih _ fun c hc => ?_
    obtain ⟨htest, hdone⟩ := testArms_spec s a.bid
    obtain ⟨b, hb, hbid, hnil⟩ := htest.exists_of_mem hc
    rcases h b hb with hb0 | ⟨a', ha', hba⟩
    · exact .inl (hnil hb0)
    · rcases List.mem_cons.1 ha' with rfl | ha'
      · exact .inl (hdone c hc (hbid.trans hba))
      · exact .inr ⟨a', ha', hbid.trans hba⟩

/-! What `settle` leaves. -/

theorem settle_spec (s : State) : (∀ b ∈ (settle s).blocks, b.sbTest = []) ∧ ∀ b ∈ (settle s).blocks, NoneOver (settle s) b := by
  unfold settle
  extract_lets t
  have htested : ∀ b ∈ t.blocks, b.sbTest = [] := by
    refine foldl_testArms_sbTest _ s fun b hb => ?_
    by_cases hnil : b.sbTest = []
    · exact .inl hnil
    · exact .inr ⟨b, List.mem_filter.2 ⟨hb, by simp [hnil]⟩, rfl⟩
  exact ⟨foldl_wakeAbar_sbTest _ t htested,
    noneOver_foldl_wakeAbar _ t fun b hb => .inr ⟨b, hb, rfl, .refl _⟩⟩

/-! Launches given up end (R437). -/

/-- The blocks, the bundles and the module's own number are as they were, and the launches are those of a predicate. -/
structure EndsLaunches (s t : State) (keep : Launch → Bool) : Prop where
  blocks : t.blocks = s.blocks
  bundles : t.bundles = s.bundles
  devId : devId t = devId s
  launches : t.launches = s.launches.filter keep

theorem EndsLaunches.trans {s t u : State} {keep keep' : Launch → Bool} (h : EndsLaunches s t keep) (g : EndsLaunches t u keep') :
    EndsLaunches s u fun l => keep l && keep' l :=
  ⟨g.blocks.trans h.blocks, g.bundles.trans h.bundles, g.devId.trans h.devId, by rw [g.launches, h.launches, List.filter_filter]; simp [Bool.and_comm]⟩

theorem EndsLaunches.of_keeps {s t u : State} {keep : Launch → Bool} (h : EndsLaunches s t fun _ => true) (g : EndsLaunches t u keep) :
    EndsLaunches s u keep := by
  simpa using h.trans g

theorem EndsLaunches.then_keeps {s t u : State} {keep : Launch → Bool} (h : EndsLaunches s t keep) (g : EndsLaunches t u fun _ => true) :
    EndsLaunches s u keep := by
  simpa using h.trans g

/-- Nothing of these has changed. -/
abbrev KeepsLaunches (s t : State) : Prop := EndsLaunches s t fun _ => true

theorem KeepsLaunches.refl (s : State) : KeepsLaunches s s := ⟨rfl, rfl, rfl, by simp⟩

theorem KeepsLaunches.trans {s t u : State} (h : KeepsLaunches s t) (g : KeepsLaunches t u) : KeepsLaunches s u := by
  exact EndsLaunches.of_keeps h g

theorem OnlyMem.keepsLaunches {s t : State} (h : OnlyMem s t) : KeepsLaunches s t := by
  rw [h.frame]
  exact ⟨rfl, rfl, rfl, by simp⟩

theorem devId_setBar (s : State) {off : Nat} (v : W32) (h : off / 4 ≠ 0x1D0000 / 4) : devId (setBar s off v) = devId s := by
  rw [devId, bar_setBar, if_neg (Ne.symm h), devId]

/-- No register of a queue at this offset is the one that holds the module's number. -/
theorem qBase_ne_devId (q : Nat) : (qBase q + 0x2C) / 4 ≠ 0x1D0000 / 4 := by
  rw [qBase]; omega

theorem packetDone_keepsLaunches (s : State) (pid : Nat) : KeepsLaunches s (packetDone s pid) := by
  unfold packetDone
  split
  · exact .refl s
  · next p _ =>
    extract_lets s₁ s₂
    have hgone : KeepsLaunches s s₁ := ⟨rfl, rfl, rfl, by simp [s₁]⟩
    have hsig : KeepsLaunches s₁ s₂ := by
      simp only [s₂]
      split
      · exact (signalDo_onlyMem _ _ _).keepsLaunches
      · exact .refl s₁
    have hboth := hgone.trans hsig
    clear_value s₂
    split
    · exact hboth.trans ⟨rfl, rfl, rfl, by simp⟩
    · exact hboth

theorem postNow_keepsLaunches (s : State) (p : Post) : KeepsLaunches s (postNow s p) := by
  unfold postNow
  extract_lets b n idx at_ l s₁ s₂
  have hwrite : KeepsLaunches s s₁ := (vaWrite_onlyMem _ _ _ _).keepsLaunches
  have hidx : KeepsLaunches s₁ s₂ := ⟨rfl, rfl, devId_setBar _ _ (qBase_ne_devId p.q), by simp [s₂, setBar]⟩
  have hboth := hwrite.trans hidx
  clear_value s₂
  split
  · exact hboth.trans (packetDone_keepsLaunches _ _)
  · exact hboth

theorem postRec_keepsLaunches (s : State) (q : Nat) (r : Rec) (pid : Option Nat) : KeepsLaunches s (postRec s q r pid) := by
  unfold postRec
  extract_lets p
  split
  · exact postNow_keepsLaunches s p
  · exact ⟨rfl, rfl, rfl, by simp⟩

theorem packetComplete_keepsLaunches (s : State) (pid kind status : Nat) : KeepsLaunches s (packetComplete s pid kind status) := by
  unfold packetComplete
  split
  · exact .refl s
  · extract_lets fin
    exact KeepsLaunches.trans (t := { s with packets := s.packets.map fin }) ⟨rfl, rfl, rfl, by simp⟩ (postRec_keepsLaunches _ _ _ _)

/-- The launches but those of one launch's queue and number. -/
def isOther (la l : Launch) : Bool := !(l.q == la.q && l.lseq == la.lseq)

theorem endLaunch_endsLaunches (s : State) (la : Launch) (kind status : Nat) :
    EndsLaunches s (endLaunch s la kind status) (isOther la) := by
  unfold endLaunch
  extract_lets s₁ s₂
  have hws : KeepsLaunches s s₁ := (dropWs_onlyMem s la).keepsLaunches
  have hend : EndsLaunches s₁ s₂ (isOther la) := ⟨rfl, rfl, rfl, rfl⟩
  exact (hws.of_keeps hend).then_keeps (packetComplete_keepsLaunches s₂ la.pid kind status)

/-- One launch that has been given up ends. -/
def endOne (s : State) (l : Launch) : State :=
  if l.status = killedStatus then
    { dropWs s l with launches := (dropWs s l).launches.filter fun m => !(m.q == l.q && m.lseq == l.lseq) }
  else endLaunch s l 1 l.status

theorem endOne_endsLaunches (s : State) (l : Launch) : EndsLaunches s (endOne s l) (isOther l) := by
  unfold endOne
  split
  · have hws : KeepsLaunches s (dropWs s l) := (dropWs_onlyMem s l).keepsLaunches
    have hend : EndsLaunches (dropWs s l) { dropWs s l with launches := (dropWs s l).launches.filter (isOther l) } (isOther l) :=
      ⟨rfl, rfl, rfl, rfl⟩
    exact hws.of_keeps hend
  · exact endLaunch_endsLaunches s l 1 l.status

theorem foldl_endOne_endsLaunches (ls : List Launch) : ∀ s, EndsLaunches s (ls.foldl endOne s) fun m => ls.all fun l => isOther l m := by
  induction ls with
  | nil => exact fun s => KeepsLaunches.refl s
  | cons l ls ih => exact fun s => (endOne_endsLaunches s l).trans (ih _)

theorem finishEnds_endsLaunches (s : State) : EndsLaunches s (finishEnds s) fun m =>
    (s.launches.filter fun l => l.state == .complete && !commitsLeft s l).all fun l => isOther l m := by
  have hposts : ∀ (ks : List Packet) (s : State), KeepsLaunches s (ks.foldl (fun s k =>
      postRec (s.modPacket k.id fun k => { k with done := true }) k.q (Rec.plain 7 0 0 0 0 0) (some k.id)) s) := by
    intro ks
    induction ks with
    | nil => exact fun s => .refl s
    | cons k ks ih =>
      intro s
      have hdone : KeepsLaunches s (s.modPacket k.id fun k => { k with done := true }) := ⟨rfl, rfl, rfl, by simp [State.modPacket]⟩
      exact (hdone.trans (postRec_keepsLaunches _ _ _ _)).trans (ih _)
  exact (foldl_endOne_endsLaunches (s.launches.filter fun l => l.state == .complete && !commitsLeft s l) s).then_keeps (hposts _ _)

/-- A launch that is found where some launches have gone was found before, where only launches of other numbers have. -/
theorem launch?_of_endsLaunches {s t : State} {ls : List Launch} (h : EndsLaunches s t fun m => ls.all fun l => isOther l m)
    {q lseq : Nat} {la : Launch} (hla : t.launch? q lseq = some la) : s.launch? q lseq = some la := by
  have hkey : ∀ m : Launch, m.q == q && m.lseq == lseq → ∀ l : Launch, isOther l m = isOther l la := by
    have hla' := List.find?_some hla
    simp only [Bool.and_eq_true, beq_iff_eq] at hla'
    intro m hm l
    simp only [Bool.and_eq_true, beq_iff_eq] at hm
    simp only [isOther, hm, hla']
  have hmem := List.mem_of_find?_eq_some hla
  rw [State.launch?, h.launches, List.find?_filter] at hla
  rw [h.launches] at hmem
  have hkeep := (List.mem_filter.1 hmem).2
  rw [State.launch?, ← hla]
  congr 1
  funext m
  by_cases hm : (m.q == q && m.lseq == lseq) = true
  · have hall : (ls.all fun l => isOther l m) = true := by simpa only [hkey m hm] using hkeep
    simp [hm, hall]
  · simp [Bool.not_eq_true _ ▸ hm]

/-! What every step keeps. -/

/-- The blocks decide whether waits are over. -/
theorem abarOver_congr {s t : State} (h : t.blocks = s.blocks) (la : Launch) (b : Block) (r : Record) :
    abarOver t la b r = abarOver s la b r := by
  simp only [abarOver, resolveWindow, groupBlock?, State.block?, h]

/-- What follows a move settles any state (R25, R400, R437). -/
theorem follow_settled (s : State) : (follow s).Settled := by
  obtain ⟨hsb, hover⟩ := settle_spec (collPass (settle s))
  have hends := finishEnds_endsLaunches (settle (collPass (settle s)))
  unfold follow
  generalize settle (collPass (settle s)) = x at hsb hover hends ⊢
  generalize finishEnds x = y at hends ⊢
  have hfit : KeepsLaunches y (fitReserves (fitL2 y)) := by
    refine (fitL2_onlyMem y).keepsLaunches.trans ?_
    have hcores : ∀ (cs : List Nat) (s : State), KeepsLaunches s (cs.foldl fitCore s) := by
      intro cs
      induction cs with
      | nil => exact fun s => .refl s
      | cons c cs ih =>
        intro s
        have hone : KeepsLaunches s (fitCore s c) := ⟨rfl, rfl, rfl, by simp [fitCore]⟩
        exact hone.trans (ih _)
    exact hcores _ _
  have hall : EndsLaunches x (fitReserves (fitL2 y)) fun m =>
      (x.launches.filter fun l => l.state == .complete && !commitsLeft x l).all fun l => isOther l m := hends.then_keeps hfit
  generalize fitReserves (fitL2 y) = z at hall ⊢
  refine ⟨fun l hl hcomp => ?_, fun b hb => ?_, fun b hb la hla t ht r hr => ?_⟩
  · rw [hall.launches] at hl
    obtain ⟨hin, hkeep⟩ := List.mem_filter.1 hl
    have hleft : commitsLeft x l = true := by
      by_contra hno
      have hself := List.all_eq_true.1 hkeep l (List.mem_filter.2 ⟨hin, by simp [hcomp, hno]⟩)
      simp [isOther] at hself
    obtain ⟨k, hk, hkey⟩ := List.any_eq_true.1 hleft
    simp only [Bool.and_eq_true, beq_iff_eq] at hkey
    exact ⟨k, hall.bundles ▸ hk, by rw [hall.devId]; exact hkey.1.1, hkey.1.2, hkey.2⟩
  · exact hsb b (hall.blocks ▸ hb)
  · rw [abarOver_congr hall.blocks]
    exact hover b (hall.blocks ▸ hb) la (launch?_of_endsLaunches hall hla) t ht r hr

end Sys2Proof.Machine

open Sys2Proof Sys2Proof.Machine

/-- Settles O58: a step ends with what follows every move, and that settles any state. -/
theorem stepKeepsSettled : Obligations.StepKeepsSettled := by
  unfold Obligations.StepKeepsSettled
  intro s t _ hstep
  have hmove : ∀ r, moveOn r = .next t → t.Settled := by
    intro r hr
    cases r with
    | next u => exact Host.Outcome.next.inj hr ▸ follow_settled u
    | fault _ => exact nomatch hr
    | refused _ => exact nomatch hr
  unfold step at hstep
  split at hstep <;> exact hmove _ hstep

/-- Settles O59: after reset there is no launch and no block. -/
theorem resetIsSettled : Obligations.ResetIsSettled := by
  unfold Obligations.ResetIsSettled
  have hlaunches : State.reset.launches = [] := rfl
  have hblocks : State.reset.blocks = [] := rfl
  simp [State.Settled, hlaunches, hblocks]

end

section
/-! The arithmetic integer majors (R169): an instruction of two or three typed sources writes each element's formula. -/

namespace Sys2Proof.Machine

variable {ins : Instr} {ty : ITy} {sat : Bool} {m : Mods} {lat : Nat} {d a b x : Opnd} {i : Iss} {s : State} {e : Env} {c : Ctx}

/-- An instruction that means R169's operation of two sources writes its formula, element by element. -/
theorem writes_of_intOp2 {g : Int → Int → Int} (hr : Runs (intOp2 ty sat m lat d a b g).form i s e c)
    (hx : exec ins s = (intOp2 ty sat m lat d a b g).run i s) :
    Writes ins (intOp2 ty sat m lat d a b g).form s e c d (ityRegs ty) fun l => intResult ty sat fun k =>
      g (c.intSrc ty 0 a m.nega m.absa l k) (c.intSrc ty 1 b m.negb m.absb l k) := by
  have hw : Writes ins (intOp2 ty sat m lat d a b g).form s e c d (ityRegs ty) fun l =>
      intEval ty sat m (fun x y _ => g x y) (c.rdTy 0 a ty l) (c.rdTy 1 b ty l) 0 := writes_of hr hx rfl
  simpa only [intEval_eq, Ctx.intSrc] using hw

/-- An instruction that means R169's operation of three sources writes its formula, element by element. -/
theorem writes_of_intOp3 {g : Int → Int → Int → Int} (hr : Runs (intOp3 ty sat m lat d a b x g).form i s e c)
    (hx : exec ins s = (intOp3 ty sat m lat d a b x g).run i s) :
    Writes ins (intOp3 ty sat m lat d a b x g).form s e c d (ityRegs ty) fun l => intResult ty sat fun k =>
      g (c.intSrc ty 0 a m.nega m.absa l k) (c.intSrc ty 1 b m.negb m.absb l k) (c.intSrc ty 2 x m.negc m.absc l k) := by
  have hw : Writes ins (intOp3 ty sat m lat d a b x g).form s e c d (ityRegs ty) fun l =>
      intEval ty sat m g (c.rdTy 0 a ty l) (c.rdTy 1 b ty l) (c.rdTy 2 x ty l) := writes_of hr hx rfl
  simpa only [intEval_eq, Ctx.intSrc] using hw

end Sys2Proof.Machine

open Sys2Proof Sys2Proof.Machine

/-- Settles O1: each major is R169's operation of two or three sources; of `isad`, the absolute value is the number of its magnitude. -/
theorem integerArithmetic : Obligations.IntegerArithmetic := by
  unfold Obligations.IntegerArithmetic
  intro h ty sat m d a b x s e c n two three va vb vx
  refine ⟨fun hr => ⟨writes_of_intOp2 (g := fun x y => x + y) hr rfl, writes_of_intOp2 (g := fun x y => x - y) hr rfl,
      writes_of_intOp2 (g := min) hr rfl, writes_of_intOp2 (g := max) hr rfl⟩,
    fun hr => writes_of_intOp2 (g := fun x y => x * y) hr rfl,
    fun hr => ⟨writes_of_intOp3 (g := fun x y z => x + y + z) hr rfl, ?_⟩,
    fun hr => writes_of_intOp3 (g := fun x y z => x * y + z) hr rfl⟩
  have hs := writes_of_intOp3 (ins := .isad h ty sat d a b x) (m := noMods) (sat := sat)
    (g := fun x y z => ((x - y).natAbs : Int) + z) hr rfl
  simp only [Int.natCast_natAbs] at hs
  exact hs

end

section
/-! Integers as bit vectors: reading a number of w bits as signed or unsigned, and wrapping one, is what `BitVec` calls `toInt`,
`toNat` and `ofInt`. -/

namespace Sys2Proof.Machine

/-- A number wrapped to w bits is the bit vector of it. -/
theorem wrapInt_eq_ofInt (w : Nat) (v : Int) : wrapInt w v = (BitVec.ofInt w v).toNat := by
  rw [BitVec.toNat_ofInt, wrapInt]

/-- A signed number of w bits is the signed value of the bit vector. -/
theorem readInt_signed_eq_toInt {w : Nat} (hw : 0 < w) (x : Nat) : readInt true w x = (BitVec.ofNat w x).toInt := by
  have hhalf : 2 ^ w = 2 * 2 ^ (w - 1) := by rw [← Nat.pow_succ', Nat.succ_eq_add_one, Nat.sub_add_cancel hw]
  rw [readInt, BitVec.toInt_eq_toNat_cond, BitVec.toNat_ofNat]
  by_cases hneg : 2 ^ (w - 1) ≤ x % 2 ^ w
  · rw [if_pos ⟨rfl, hneg⟩, if_neg (by omega)]
  · rw [if_neg (by tauto), if_pos (by omega)]

theorem readInt_signed_word (x : W32) : readInt true 32 x.toNat = x.toInt := by
  rw [readInt_signed_eq_toInt (by decide), BitVec.ofNat_toNat, BitVec.setWidth_eq]

/-- A bitwise shift left is a product with a power of two. -/
theorem ofInt_mul_two_pow {w : Nat} (v : Int) (k : Nat) : BitVec.ofInt w (v * (2 ^ k : Nat)) = BitVec.ofInt w v <<< k := by
  rw [BitVec.shiftLeft_eq_mul_twoPow, BitVec.ofInt_mul, BitVec.ofInt_natCast]
  congr 1
  exact BitVec.eq_of_toNat_eq (by rw [BitVec.toNat_twoPow, BitVec.toNat_ofNat])

/-- A pair of registers as a number. -/
theorem pairVal_toNat (lo hi : W32) : (pairVal lo hi).toNat = lo.toNat + 2 ^ 32 * hi.toNat := by
  rw [pairVal, BitVec.toNat_append, ← Nat.shiftLeft_add_eq_or_of_lt lo.isLt, Nat.shiftLeft_eq]
  omega

end Sys2Proof.Machine
end

section
/-! The wide integer majors (R170, R174) and the dot products (R179). -/

namespace Sys2Proof.Machine

variable {d a b x : Opnd} {h : Hdr} {s : State} {e : Env} {c : Ctx}

/-- R174's address in 32 bits. -/
theorem writes_lea_z32 (hr : Runs (arithForm [fA a 1, fB b 1, fC x 1] d 1 4) (issOf h) s e c) :
    Writes (.lea h .z32 d a b x) (arithForm [fA a 1, fB b 1, fC x 1] d 1 4) s e c d 1
      fun l => (c.rd 0 a l + (c.rd 1 b l) <<< ((c.rd 2 x l).toNat % 32)).toNat := by
  refine writes_of_mod (val := fun l => (c.rd 0 a l).toNat + (c.rd 1 b l).toNat * 2 ^ ((c.rd 2 x l).toNat % 32)) hr rfl rfl
    fun l => ?_
  rw [BitVec.toNat_add, BitVec.toNat_shiftLeft, Nat.shiftLeft_eq]
  simp only [Nat.add_mod_mod, Nat.mod_mod, Nat.mul_one]

/-- R174's address in 64 bits, its index unsigned. -/
theorem writes_lea_z64 (hr : Runs (arithForm [fA a 2, fB b 1, fC x 1] d 2 4) (issOf h) s e c) :
    Writes (.lea h .z64 d a b x) (arithForm [fA a 2, fB b 1, fC x 1] d 2 4) s e c d 2
      fun l => (c.rd64 0 a false l + ((c.rd 1 b l).zeroExtend 64) <<< ((c.rd 2 x l).toNat % 64)).toNat := by
  refine writes_of_mod (val := fun l => (c.rd64 0 a false l).toNat + (c.rd 1 b l).toNat * 2 ^ ((c.rd 2 x l).toNat % 64)) hr rfl rfl
    fun l => ?_
  have hb : ((c.rd 1 b l).zeroExtend 64).toNat = (c.rd 1 b l).toNat := BitVec.toNat_setWidth_of_le (by decide)
  rw [BitVec.toNat_add, BitVec.toNat_shiftLeft, Nat.shiftLeft_eq, hb]
  simp only [Nat.add_mod_mod, Nat.mod_mod]

/-- R174's address in 64 bits, its index signed. -/
theorem writes_lea_s64 (hr : Runs (arithForm [fA a 2, fB b 1, fC x 1] d 2 4) (issOf h) s e c) :
    Writes (.lea h .s64 d a b x) (arithForm [fA a 2, fB b 1, fC x 1] d 2 4) s e c d 2
      fun l => (c.rd64 0 a true l + ((c.rd 1 b l).signExtend 64) <<< ((c.rd 2 x l).toNat % 64)).toNat := by
  have hw : Writes (.lea h .s64 d a b x) (arithForm [fA a 2, fB b 1, fC x 1] d 2 4) s e c d 2
      fun l => wrapInt 64 (((c.rd64 0 a true l).toNat : Int) +
        readInt true 32 (c.rd 1 b l).toNat * ((2 ^ ((c.rd 2 x l).toNat % 64) : Nat) : Int)) := writes_of hr rfl rfl
  simp only [wrapInt_eq_ofInt, readInt_signed_word, BitVec.ofInt_add, BitVec.ofInt_natCast, BitVec.ofNat_toNat,
    BitVec.setWidth_eq, ofInt_mul_two_pow] at hw
  exact hw

end Sys2Proof.Machine

open Sys2Proof Sys2Proof.Machine

/-- Settles O2: the high product is R169's operation of two sources; the others are the formulas, the sums of the dot products with
c first. -/
theorem wideArithmeticAndDots : Obligations.WideArithmeticAndDots := by
  unfold Obligations.WideArithmeticAndDots
  constructor
  · intro h ty sg sat d a b x s e c n
    refine ⟨fun hr => ?_, fun hr => ?_, writes_lea_z32, fun hr => ⟨writes_lea_s64 hr, writes_lea_z64 hr⟩⟩
    · have hw := writes_of_intOp2 (ins := .imulh h ty d a b) (m := noMods) (sat := false)
        (g := fun x y => (x * y).fdiv ((2 ^ (ityWidth ty) : Nat) : Int)) hr rfl
      have hpos : (0 : Int) ≤ 2 ^ ityWidth ty := by positivity
      simp only [Nat.cast_pow, Nat.cast_ofNat, Int.fdiv_eq_ediv_of_nonneg _ hpos] at hw
      exact hw
    · have hw : Writes (.imadw h sg sat d a b x) (arithForm [fA a 1, fB b 1, fC x 2] d 2 6) s e c d 2 fun l =>
          narrowInt sat sg 64 (readInt sg 32 (c.rd 0 a l).toNat * readInt sg 32 (c.rd 1 b l).toNat
            + readInt sg 64 (c.rd64 2 x sg l).toNat) := writes_of hr rfl rfl
      simpa only [narrowInt_eq] using hw
  · intro h sat sa sb d a b x s e c f el term sg acc hr
    constructor
    · have hw : Writes (.idot4 h sat sa sb d a b x) f s e c d 1 fun l =>
          narrowInt sat sg 32 (acc l + (0 + term 8 l 0 + term 8 l 1 + term 8 l 2 + term 8 l 3)) := writes_of hr rfl rfl
      simpa only [narrowInt_eq, zero_add, ← add_assoc] using hw
    · have hw : Writes (.idot2 h sat sa sb d a b x) f s e c d 1 fun l =>
          narrowInt sat sg 32 (acc l + (0 + term 16 l 0 + term 16 l 1)) := writes_of hr rfl rfl
      simpa only [narrowInt_eq, zero_add, ← add_assoc] using hw
  
end

section
/-! Sources of a width code as bit vectors, and what the bitwise majors, the shifts and the moves write (R173, R175, R176, R180). -/

namespace Sys2Proof.Machine

theorem wRegs_eq (w : Fin 4) : (if w.val < 2 then 1 else 2) = wRegs w := by
  by_cases hw : w.val < 2
  · simp [wRegs, wWide, hw, Nat.not_le.mpr hw]
  · simp [wRegs, wWide, hw, Nat.not_lt.mp hw]

theorem wRegs_pos (w : Fin 4) : 0 < wRegs w := by
  unfold wRegs
  split <;> decide

/-- A source of n registers is a number of 32·n bits. -/
theorem rdN_lt (c : Ctx) (i : Nat) (o : Opnd) (n l : Nat) : c.rdN i o n l < 2 ^ (32 * n) := by
  have key : ∀ (n : Nat) (g : Nat → W32),
      (List.range n).foldr (fun k acc => (g k).toNat + 2 ^ 32 * acc) 0 < 2 ^ (32 * n) := by
    intro n
    induction n with
    | zero => intro g; exact Nat.one_pos
    | succ n ih =>
      intro g
      rw [List.range_succ_eq_map, List.foldr_cons, List.foldr_map, Nat.mul_succ, Nat.add_comm, Nat.pow_add]
      have htail := ih fun k => g (k + 1)
      have hhead := (g 0).isLt
      simp only [Nat.succ_eq_add_one]
      nlinarith
  exact key n fun k => c.rdReg i o k l

/-- One register is what it holds. -/
theorem rdN_one (c : Ctx) (i : Nat) (o : Opnd) (l : Nat) : c.rdN i o 1 l = (c.rd i o l).toNat := rfl

/-- A source of n registers as a bit vector is the number read. -/
theorem ofNat_rdN_toNat (c : Ctx) (i : Nat) (o : Opnd) (n l : Nat) :
    (BitVec.ofNat (32 * n) (c.rdN i o n l)).toNat = c.rdN i o n l := by
  rw [BitVec.toNat_ofNat, Nat.mod_eq_of_lt (rdN_lt c i o n l)]

/-- Exclusive or with all ones complements. -/
theorem xor_ones_toNat {w : Nat} (y : BitVec w) : y.toNat ^^^ (2 ^ w - 1) = (~~~y).toNat := by
  rw [← BitVec.xor_allOnes, BitVec.toNat_xor, BitVec.toNat_allOnes]

/-- A rotation is the sum of the two shifts, within its width. -/
theorem rotateLeft_toNat {w : Nat} (x : BitVec w) {k : Nat} (hk : k < w) :
    (x.rotateLeft k).toNat = (x.toNat * 2 ^ k + x.toNat / 2 ^ (w - k)) % 2 ^ w := by
  have hw : 2 ^ w = 2 ^ k * 2 ^ (w - k) := by rw [← Nat.pow_add, Nat.add_sub_cancel' hk.le]
  have hlow : x.toNat / 2 ^ (w - k) < 2 ^ k := by
    rw [Nat.div_lt_iff_lt_mul (by positivity), ← hw]; exact x.isLt
  have htop : x.toNat * 2 ^ k % 2 ^ w = (x.toNat % 2 ^ (w - k)) <<< k := by
    rw [hw, Nat.mul_comm x.toNat, Nat.mul_mod_mul_left, Nat.shiftLeft_eq, Nat.mul_comm]
  have hfit : x.toNat % 2 ^ (w - k) * 2 ^ k + x.toNat / 2 ^ (w - k) < 2 ^ w := by
    have hrest : x.toNat % 2 ^ (w - k) < 2 ^ (w - k) := Nat.mod_lt _ (by positivity)
    calc _ < x.toNat % 2 ^ (w - k) * 2 ^ k + 2 ^ k := Nat.add_lt_add_left hlow _
      _ = (x.toNat % 2 ^ (w - k) + 1) * 2 ^ k := (Nat.succ_mul _ _).symm
      _ ≤ 2 ^ (w - k) * 2 ^ k := Nat.mul_le_mul_right _ hrest
      _ = 2 ^ w := by rw [hw, Nat.mul_comm]
  rw [BitVec.toNat_rotateLeft, Nat.mod_eq_of_lt hk, Nat.shiftLeft_eq, Nat.shiftRight_eq_div_pow, htop,
    ← Nat.shiftLeft_add_eq_or_of_lt hlow, Nat.add_mod, htop, Nat.mod_eq_of_lt (hlow.trans_le (Nat.pow_le_pow_right (by decide) hk.le)),
    Nat.shiftLeft_eq, Nat.mod_eq_of_lt hfit]

/-- An arithmetic shift divides the signed value and wraps. -/
theorem sshiftRight_toNat {w : Nat} (hw : 0 < w) (x k : Nat) :
    wrapInt w ((readInt true w x).fdiv ((2 ^ k : Nat) : Int)) = ((BitVec.ofNat w x).sshiftRight k).toNat := by
  rw [wrapInt_eq_ofInt, readInt_signed_eq_toInt hw, BitVec.sshiftRight_eq, Int.shiftRight_eq_div_pow,
    Int.fdiv_eq_ediv_of_nonneg _ (Int.natCast_nonneg _)]

variable {w : Fin 4} {d a b x : Opnd} {h : Hdr} {i : Iss} {s : State} {e : Env} {c : Ctx} {ins : Instr}

/-- A bitwise major writes its value of the two sources. -/
theorem writes_of_logicOp {g : Nat → Nat → Nat} {g' : BitVec (32 * wRegs w) → BitVec (32 * wRegs w) → BitVec (32 * wRegs w)}
    (hg : ∀ x y, g x.toNat y.toNat = (g' x y).toNat) (hr : Runs (logicOp w d a b g).form i s e c)
    (hx : exec ins s = (logicOp w d a b g).run i s) :
    Writes ins (logicOp w d a b g).form s e c d (wRegs w) fun l =>
      (g' (BitVec.ofNat _ (c.rdN 0 a (wRegs w) l)) (BitVec.ofNat _ (c.rdN 1 b (wRegs w) l))).toNat := by
  have hw : Writes ins (logicOp w d a b g).form s e c d (wRegs w) fun l =>
      g (c.rdN 0 a (wRegs w) l) (c.rdN 1 b (wRegs w) l) := writes_of hr hx rfl
  simpa only [← hg, ofNat_rdN_toNat] using hw

/-- A shift writes its value of the source and the amount, modulo the width. -/
theorem writes_of_shiftOp {g : Nat → Nat → Nat} {g' : BitVec (32 * wRegs w) → Nat → BitVec (32 * wRegs w)}
    (hg : ∀ x, ∀ k < 32 * wRegs w, g x.toNat k % 2 ^ (32 * wRegs w) = (g' x k).toNat)
    (hr : Runs (shiftOp w d a b g).form i s e c) (hx : exec ins s = (shiftOp w d a b g).run i s) :
    Writes ins (shiftOp w d a b g).form s e c d (wRegs w) fun l =>
      (g' (BitVec.ofNat _ (c.rdN 0 a (wRegs w) l)) ((c.rd 1 b l).toNat % (32 * wRegs w))).toNat := by
  refine writes_of_mod (val := fun l => g (c.rdN 0 a (wRegs w) l) ((c.rd 1 b l).toNat % (32 * wRegs w))) hr hx rfl fun l => ?_
  have hk : (c.rd 1 b l).toNat % (32 * wRegs w) < 32 * wRegs w := Nat.mod_lt _ (Nat.mul_pos (by decide) (wRegs_pos w))
  rw [← hg _ _ hk, ofNat_rdN_toNat, Nat.mod_mod]

/-- R176's funnel shift. -/
theorem writes_fshr (hr : Runs (arithForm [fA a 1, fB b 1, fC x 1] d 1 4) (issOf h) s e c) :
    Writes (.fshr h d a b x) (arithForm [fA a 1, fB b 1, fC x 1] d 1 4) s e c d 1 fun l =>
      ((c.rd 0 a l ++ c.rd 1 b l) >>> ((c.rd 2 x l).toNat % 32)).toNat % 2 ^ 32 := by
  refine writes_of_mod
    (val := fun l => (pairVal (c.rd 1 b l) (c.rd 0 a l)).toNat / 2 ^ ((c.rd 2 x l).toNat % 32)) hr rfl rfl fun l => ?_
  rw [BitVec.toNat_ushiftRight, Nat.shiftRight_eq_div_pow, Nat.mul_one, Nat.mod_mod, pairVal]

end Sys2Proof.Machine

open Sys2Proof Sys2Proof.Machine

/-- Settles O4: each major's number is the bit vector's operation on the sources read as bit vectors. -/
theorem logicShiftsAndMoves : Obligations.LogicShiftsAndMoves := by
  unfold Obligations.LogicShiftsAndMoves
  intro h w d a b x kc s e c
  rw [wRegs_eq]
  intro n W va vb by_ two sh pick
  have hpos : 0 < W := Nat.mul_pos (by decide) (wRegs_pos w)
  refine ⟨fun hr => ⟨?_, ?_, ?_, ?_⟩, fun hr => ⟨?_, ?_, ?_, ?_⟩, writes_fshr, fun hr => ?_, fun hr => ?_⟩
  · exact writes_of_logicOp (g := fun x y => x &&& y) (g' := fun x y => x &&& y) (fun _ _ => rfl) hr rfl
  · exact writes_of_logicOp (g := fun x y => x ||| y) (g' := fun x y => x ||| y) (fun _ _ => rfl) hr rfl
  · exact writes_of_logicOp (g := fun x y => x ^^^ y) (g' := fun x y => x ^^^ y) (fun _ _ => rfl) hr rfl
  · exact writes_of_logicOp (g := fun x y => x &&& (y ^^^ (2 ^ wBits w - 1))) (g' := fun x y => x &&& ~~~y)
      (fun x y => by rw [wBits, xor_ones_toNat, BitVec.toNat_and]) hr rfl
  · exact writes_of_shiftOp (g := fun x n => x * 2 ^ n) (g' := fun x n => x <<< n)
      (fun x k _ => by rw [BitVec.toNat_shiftLeft, Nat.shiftLeft_eq]) hr rfl
  · exact writes_of_shiftOp (g := fun x n => x / 2 ^ n) (g' := fun x n => x >>> n)
      (fun x k _ => by
        rw [BitVec.toNat_ushiftRight, Nat.shiftRight_eq_div_pow, Nat.mod_eq_of_lt ((Nat.div_le_self _ _).trans_lt x.isLt)]) hr rfl
  · exact writes_of_shiftOp
      (g := fun x n => wrapInt (wBits w) ((readInt true (wBits w) x).fdiv ((2 ^ n : Nat) : Int))) (g' := fun x n => x.sshiftRight n)
      (fun x k _ => by
        rw [wBits, sshiftRight_toNat hpos, BitVec.ofNat_toNat, BitVec.setWidth_eq, Nat.mod_eq_of_lt (BitVec.isLt _)]) hr rfl
  · exact writes_of_shiftOp (g := fun x n => x * 2 ^ n + x / 2 ^ (wBits w - n)) (g' := fun x n => x.rotateLeft n)
      (fun x k hk => by rw [wBits, rotateLeft_toNat x hk]) hr rfl
  · exact writes_of hr rfl rfl
  · exact writes_of hr rfl rfl

end

section
/-! Bit fields, counts and reversals as bits, and elements side by side read back (R176 to R178). -/

namespace Sys2Proof.Machine

/-- The bits of a number of n bits read as signed or not and wrapped to 32: its own, then copies of its sign or zeros. -/
theorem wrapInt_readInt_testBit (sg : Bool) {n : Nat} (hn : 0 < n) (x : Nat) {j : Nat} (hj : j < 32) :
    (wrapInt 32 (readInt sg n x)).testBit j = if j < n then x.testBit j else sg && x.testBit (n - 1) := by
  cases sg with
  | true =>
    rw [wrapInt_eq_ofInt, readInt_signed_eq_toInt hn]
    change ((BitVec.ofNat n x).signExtend 32).getLsbD j = _
    have hlast : n - 1 < n := Nat.sub_lt hn Nat.one_pos
    rw [BitVec.getLsbD_signExtend, BitVec.msb_eq_getLsbD_last, BitVec.getLsbD_ofNat, BitVec.getLsbD_ofNat]
    by_cases hlt : j < n <;> simp [hj, hlast, hlt]
  | false =>
    have hread : readInt false n x = ((x % 2 ^ n : Nat) : Int) := by simp [readInt]
    rw [hread, wrapInt_eq_ofInt, BitVec.ofInt_natCast, BitVec.toNat_ofNat, Nat.testBit_mod_two_pow, Nat.testBit_mod_two_pow]
    by_cases hlt : j < n <;> simp [hj, hlt]

/-- The bits of a field laid over a number. -/
theorem inserted_testBit (x y p n j : Nat) :
    (y / 2 ^ (p + n) * 2 ^ (p + n) + x % 2 ^ n * 2 ^ p + y % 2 ^ p).testBit j =
      if p ≤ j ∧ j < p + n then x.testBit (j - p) else y.testBit j := by
  have hsum : y / 2 ^ (p + n) * 2 ^ (p + n) + x % 2 ^ n * 2 ^ p + y % 2 ^ p
      = 2 ^ p * (2 ^ n * (y / 2 ^ (p + n)) + x % 2 ^ n) + y % 2 ^ p := by rw [Nat.pow_add]; ring
  rw [hsum, Nat.testBit_two_pow_mul_add _ (Nat.mod_lt _ (by positivity)),
    Nat.testBit_two_pow_mul_add _ (Nat.mod_lt _ (by positivity)), Nat.testBit_mod_two_pow, Nat.testBit_mod_two_pow,
    Nat.testBit_div_two_pow]
  rcases Nat.lt_or_ge j p with hlow | hlow
  · simp [hlow, Nat.not_le.mpr hlow]
  · rcases Nat.lt_or_ge j (p + n) with hin | hin
    · have hfield : j - p < n := by omega
      simp [hlow, hin, hfield, Nat.not_lt.mpr hlow]
    · have hout : ¬ j - p < n := by omega
      have hback : j - p - n + (p + n) = j := by omega
      simp [Nat.not_lt.mpr hlow, Nat.not_lt.mpr hin, hout, hback]

/-- Element i of elements side by side. -/
theorem sideBySide_elem (w : Nat) {n : Nat} : ∀ (g : Nat → Nat) {i : Nat}, i < n →
    sideBySide w n g / 2 ^ (w * i) % 2 ^ w = g i % 2 ^ w := by
  induction n with
  | zero => intro g i hi; exact absurd hi (Nat.not_lt_zero _)
  | succ n ih =>
    intro g i hi
    have hlow : g 0 % 2 ^ w < 2 ^ w := Nat.mod_lt _ (by positivity)
    rw [sideBySide_succ]
    cases i with
    | zero => simp
    | succ i =>
      rw [Nat.mul_succ, Nat.add_comm (w * i), Nat.pow_add, ← Nat.div_div_eq_div_mul,
        Nat.add_mul_div_left _ _ (by positivity), Nat.div_eq_of_lt hlow, Nat.zero_add]
      exact ih (fun k => g (k + 1)) (Nat.lt_of_succ_lt_succ hi)

/-- The run of places at the head of a list where a predicate holds: it holds in them, and not at the next. -/
theorem takeWhile_length_spec {α : Type} (p : α → Bool) (l : List α) :
    (l.takeWhile p).length ≤ l.length ∧ (∀ i, i < (l.takeWhile p).length → ∀ x, l[i]? = some x → p x = true) ∧
      ∀ x, l[(l.takeWhile p).length]? = some x → p x = false := by
  induction l with
  | nil => simp
  | cons a l ih =>
    obtain ⟨hle, hrun, hstop⟩ := ih
    by_cases ha : p a = true
    · rw [List.takeWhile_cons_of_pos ha, List.length_cons, List.length_cons]
      refine ⟨Nat.succ_le_succ hle, fun i hi x hx => ?_, hstop⟩
      cases i with
      | zero => cases hx; exact ha
      | succ i => exact hrun i (Nat.lt_of_succ_lt_succ hi) x hx
    · rw [List.takeWhile_cons_of_neg ha]
      refine ⟨Nat.zero_le _, fun i hi => absurd hi (Nat.not_lt_zero _), fun x hx => ?_⟩
      cases hx
      simpa using ha

/-- R177's count of leading zeros: the bits above the highest set bit. -/
theorem clzNat_spec (n v : Nat) : clzNat n v ≤ n ∧ (∀ j, n - clzNat n v ≤ j → j < n → v.testBit j = false) ∧
    (clzNat n v < n → v.testBit (n - 1 - clzNat n v) = true) := by
  obtain ⟨hle, hrun, hstop⟩ := takeWhile_length_spec (fun i => !v.testBit i) (List.range n).reverse
  have hget : ∀ i, i < n → (List.range n).reverse[i]? = some (n - 1 - i) := fun i hi => by
    rw [List.getElem?_reverse (by simpa using hi), List.length_range, List.getElem?_range (by omega)]
  rw [List.length_reverse, List.length_range] at hle
  refine ⟨hle, fun j hlo hhi => ?_, fun hlt => ?_⟩
  · have hz := hrun (n - 1 - j) (by unfold clzNat at hlo; omega) _ (hget _ (by omega))
    rw [show n - 1 - (n - 1 - j) = j by omega] at hz
    simpa using hz
  · simpa [clzNat] using hstop _ (hget _ hlt)

/-- R177's count of trailing zeros: the bits below the lowest set bit. -/
theorem ctzNat_spec (n v : Nat) : ctzNat n v ≤ n ∧ (∀ j, j < ctzNat n v → v.testBit j = false) ∧
    (ctzNat n v < n → v.testBit (ctzNat n v) = true) := by
  obtain ⟨hle, hrun, hstop⟩ := takeWhile_length_spec (fun i => !v.testBit i) (List.range n)
  rw [List.length_range] at hle
  refine ⟨hle, fun j hj => ?_, fun hlt => ?_⟩
  · simpa using hrun j hj j (List.getElem?_range (hj.trans_le hle))
  · simpa [ctzNat] using hstop _ (List.getElem?_range hlt)

/-- R177's reversal, bit by bit. -/
theorem revNat_testBit (v : Nat) : ∀ (n j : Nat), j < n → (revNat n v).testBit j = v.testBit (n - 1 - j) := by
  intro n
  induction n with
  | zero => intro j hj; exact absurd hj (Nat.not_lt_zero _)
  | succ n ih =>
    intro j hj
    have hstep : revNat (n + 1) v = 2 ^ 1 * revNat n v + (v.testBit n).toNat := by
      simp only [revNat, List.range_succ, List.foldl_append, List.foldl_cons, List.foldl_nil, Nat.pow_one]
    rw [hstep, Nat.testBit_two_pow_mul_add _ (by cases v.testBit n <;> decide)]
    cases j with
    | zero => cases h : v.testBit n <;> simp [h]
    | succ j => rw [if_neg (by omega), Nat.add_sub_cancel, ih j (by omega), Nat.add_sub_cancel, Nat.sub_sub, Nat.add_comm 1 j]

variable {w : Fin 4} {d a : Opnd} {i : Iss} {s : State} {e : Env} {c : Ctx} {ins : Instr}

/-- A bit-count major writes its count of the source. -/
theorem writes_of_countOp {rd : Nat} {g : Nat → Nat → Nat} (hr : Runs (countOp w rd d a g).form i s e c)
    (hx : exec ins s = (countOp w rd d a g).run i s) :
    Writes ins (countOp w rd d a g).form s e c d rd fun l => g (32 * wRegs w) (c.rdN 0 a (wRegs w) l) :=
  writes_of hr hx rfl

/-- R176's extraction, as `BFE` writes it. -/
def bfeVal (sg : Bool) (x b : W32) : Nat :=
  if fieldLen b = 0 then 0 else wrapInt 32 (readInt sg (fieldLen b) (x.toNat / 2 ^ fieldPos b))

theorem bfeVal_testBit (sg : Bool) (x b : W32) {j : Nat} (hj : j < 32) :
    (bfeVal sg x b).testBit j = if fieldLen b = 0 then false
      else if j < fieldLen b then x.getLsbD (fieldPos b + j) else sg && x.getLsbD (fieldPos b + fieldLen b - 1) := by
  unfold bfeVal
  by_cases hlen : fieldLen b = 0
  · simp [hlen]
  · have hpos : 0 < fieldLen b := Nat.pos_of_ne_zero hlen
    have hlast : fieldLen b - 1 + fieldPos b = fieldPos b + fieldLen b - 1 := by omega
    rw [if_neg hlen, if_neg hlen, wrapInt_readInt_testBit sg hpos _ hj, Nat.testBit_div_two_pow, Nat.testBit_div_two_pow, hlast,
      Nat.add_comm j]
    rfl

/-- R176's insertion, as `BFI` writes it. -/
def bfiVal (x b y : W32) : Nat :=
  y.toNat / 2 ^ (fieldPos b + fieldLen b) * 2 ^ (fieldPos b + fieldLen b) + x.toNat % 2 ^ fieldLen b * 2 ^ fieldPos b
    + y.toNat % 2 ^ fieldPos b

/-- R178's byte, its sign byte told by its size. -/
theorem prmbByte_eq (src sel i : Nat) :
    prmbByte src sel i = (let nib := sel / 2 ^ (4 * i) % 16
      let y := src / 2 ^ (8 * (nib % 8)) % 256
      if nib < 8 then y else if 128 ≤ y then 0xFF else 0) := by
  have hsign : ∀ y, y < 256 → (y / 128 = 1 ↔ 128 ≤ y) := by omega
  have hy := Nat.mod_lt (src / 2 ^ (8 * (sel / 2 ^ (4 * i) % 16 % 8))) (y := 256) (by decide)
  simp only [prmbByte, hsign _ hy]

theorem prmbByte_lt (src sel i : Nat) : prmbByte src sel i < 256 := by
  unfold prmbByte
  dsimp only
  split
  · exact Nat.mod_lt _ (by decide)
  · split <;> decide

/-- Each byte of `PRMB`'s word. -/
theorem packed_prmbByte (src sel : Nat) {i : Nat} (hi : i < 4) :
    packElems 8 4 (prmbByte src sel) / 2 ^ (8 * i) % 2 ^ 8 = prmbByte src sel i := by
  rw [packElems_eq, sideBySide_elem 8 _ hi]
  exact Nat.mod_eq_of_lt (prmbByte_lt _ _ _)

end Sys2Proof.Machine

open Sys2Proof Sys2Proof.Machine

/-- Settles O5: the values the majors write are characterised bit by bit, by the lemmas above. -/
theorem bitFieldsAndCounts : Obligations.BitFieldsAndCounts := by
  unfold Obligations.BitFieldsAndCounts
  intro h w sg d a b x s e c
  rw [wRegs_eq]
  intro n W p k bit one fb f3
  refine ⟨fun hr => ?_, fun hr => ⟨?_, ?_⟩, fun hr => ⟨?_, ?_, ?_⟩, fun hr => ?_⟩
  · exact ⟨fun l => bfeVal sg (c.rd 0 a l) (c.rd 1 b l), writes_of hr rfl rfl, fun l j hj => bfeVal_testBit sg _ _ hj⟩
  · exact ⟨fun l => bfiVal (c.rd 0 a l) (c.rd 1 b l) (c.rd 2 x l), writes_of hr rfl rfl,
      fun l j _ => inserted_testBit _ _ _ _ j⟩
  · refine ⟨fun l => packElems 8 4 (prmbByte ((c.rd 0 a l).toNat + 2 ^ 32 * (c.rd 1 b l).toNat) (c.rd 2 x l).toNat),
      writes_of hr rfl rfl, fun l i hi => ?_⟩
    exact (packed_prmbByte _ _ hi).trans (by rw [prmbByte_eq, ← pairVal_toNat]; rfl)
  · exact ⟨_, writes_of_countOp (g := clzNat) hr rfl, fun l => clzNat_spec _ _⟩
  · exact ⟨_, writes_of_countOp (g := ctzNat) hr rfl, fun l => ctzNat_spec _ _⟩
  · exact writes_of_countOp (g := popNat) hr rfl
  · exact ⟨_, writes_of_countOp (g := revNat) hr rfl, fun l j hj => revNat_testBit _ _ j hj⟩

end

section
/-! The float majors (R181 to R188) and the conversions (R189 to R193). -/

namespace Sys2Proof.Machine

variable {ins : Instr} {ty : FTy} {m : Mods} {rm : Rm} {srcs : List Opnd} {d a b x : Opnd} {lat : Nat} {h : Hdr} {s : State}
  {e : Env} {c : Ctx} {i : Iss}

/-- A float major writes its value of each element. -/
theorem writes_of_floatOp {g : FFmt → Nat → Nat → Nat → Nat} (hr : Runs (floatOp ty m srcs d lat g).form i s e c)
    (hx : exec ins s = (floatOp ty m srcs d lat g).run i s) :
    Writes ins (floatOp ty m srcs d lat g).form s e c d 1 fun l =>
      sideBySide (ftyFmt ty).width (ftyCount ty) fun k => g (ftyFmt ty)
        (fSrc (ftyFmt ty) m.nega m.absa (c.rd 0 (srcs.getD 0 .zero) l) k)
        (fSrc (ftyFmt ty) m.negb m.absb (c.rd 1 (srcs.getD 1 .zero) l) k)
        (fSrc (ftyFmt ty) m.negc m.absc (c.rd 2 (srcs.getD 2 .zero) l) k) := by
  have hw : Writes ins (floatOp ty m srcs d lat g).form s e c d 1 fun l =>
      packElems (ftyFmt ty).width (ftyCount ty) fun k => g (ftyFmt ty)
        (fSrc (ftyFmt ty) m.nega m.absa (c.rd 0 (srcs.getD 0 .zero) l) k)
        (fSrc (ftyFmt ty) m.negb m.absb (c.rd 1 (srcs.getD 1 .zero) l) k)
        (fSrc (ftyFmt ty) m.negc m.absc (c.rd 2 (srcs.getD 2 .zero) l) k) := writes_of hr hx rfl
  simpa only [packElems_eq] using hw

/-- R186's power: the word of FP32, the half of the packed formats. -/
theorem fscaleK_eq (ty : FTy) (b : W32) (k : Nat) :
    fscaleK ty b k = if ty = .f32 then b.toInt else readInt true 16 (b.toNat / 2 ^ (16 * k)) := by
  cases ty with
  | f32 => rw [if_pos rfl]; exact readInt_signed_word b
  | bf16x2 => rw [if_neg nofun]; rfl
  | f16x2 => rw [if_neg nofun]; rfl

theorem writes_fscale (hr : Runs (arithForm [fA a 1, fB b 1] d 1 6) (issOf h) s e c) :
    Writes (.fscale h ty rm m d a b) (arithForm [fA a 1, fB b 1] d 1 6) s e c d 1 fun l => fltResult ty rm m fun k =>
      (c.fltSrc (ftyFmt ty) 0 a m.nega m.absa l k).scale
        (if ty = .f32 then (c.rd 1 b l).toInt else readInt true 16 ((c.rd 1 b l).toNat / 2 ^ (16 * k))) := by
  have hw : Writes (.fscale h ty rm m d a b) (arithForm [fA a 1, fB b 1] d 1 6) s e c d 1 fun l =>
      packElems (ftyFmt ty).width (ftyCount ty) fun k => fFinish (ftyFmt ty) rm m
        ((c.fltSrc (ftyFmt ty) 0 a m.nega m.absa l k).scale (fscaleK ty (c.rd 1 b l) k)) := writes_of hr rfl rfl
  simp only [packElems_eq, fscaleK_eq] at hw
  exact hw

/-- One element of 32 bits is the value itself, within the register. -/
theorem packElems_word (g : Nat → Nat) : packElems 32 1 g % 2 ^ (32 * 1) = g 0 % 2 ^ (32 * 1) := by
  simp [packElems]

/-- A function of one FP32 source writes its value scaled, rounded once and clamped. -/
theorem writes_of_fnOp {g : FVal → FVal} (hr : Runs (fnOp rm m d a g).form i s e c)
    (hx : exec ins s = (fnOp rm m d a g).run i s) :
    Writes ins (fnOp rm m d a g).form s e c d 1 fun l => fFinish fp32 rm m (g (c.fltSrc fp32 0 a m.nega m.absa l 0)) :=
  writes_of_mod hr hx rfl fun _ => packElems_word _

/-- R186's exponent bits, the logarithm written out. -/
theorem fexpoBits_eq (F : FFmt) (w bits : Nat) : fexpoBits F w bits = match F.decode bits with
    | .nan => 2 ^ (w - 1) - 2
    | .inf _ => 2 ^ (w - 1) - 1
    | .fin _ v g => if v = 0 then 2 ^ (w - 1) else inType false true w (Nat.log2 v + g) := by
  unfold fexpoBits
  cases F.decode bits with
  | nan => rfl
  | inf s => rfl
  | fin s v g => simp only [wrapInt_eq true, floorLog2]

/-- The issue leaves the overflow table as it is. -/
theorem begun_ov {f : Form} (hr : Runs f i s e c) : (c.begun f e i).ov = ovtab s e.la.ctx := by
  obtain ⟨hce, -, -⟩ := hr.ctx
  have hes := (getEnv_spec hr.env).1
  change ovtab (beginIssue [(f, c)] e i) c.e.la.ctx = _
  rw [beginIssue_eq, hce, hes]
  rfl

end Sys2Proof.Machine

open Sys2Proof Sys2Proof.Machine

/-- Settles O7: each major is a float operation of its sources, element by element; `fscale` reads its power from the second source
and `fdot2` mixes formats. -/
theorem floatArithmetic : Obligations.FloatArithmetic := by
  unfold Obligations.FloatArithmetic
  intro h ty rm m bf d a b x s e c F two three va vb vx h2
  refine ⟨fun hr => ⟨?_, ?_, ?_, writes_fscale hr, ?_, ?_⟩, fun hr => ⟨?_, writes_of hr rfl rfl⟩, fun hr => ?_⟩
  · exact writes_of_floatOp (srcs := [a, b]) (g := fun f x y _ => fFinish f rm m (FVal.sum rm [f.decode x, f.decode y])) hr rfl
  · exact writes_of_floatOp (srcs := [a, b]) (g := fun f x y _ => fFinish f rm m (FVal.sum rm [f.decode x, (f.decode y).neg])) hr rfl
  · exact writes_of_floatOp (srcs := [a, b]) (g := fun f x y _ => fFinish f rm m ((f.decode x).mul (f.decode y))) hr rfl
  · exact writes_of_floatOp (srcs := [a, b]) (g := fun f x y _ => clampIf f m (fMinMax f false x y)) hr rfl
  · exact writes_of_floatOp (srcs := [a, b]) (g := fun f x y _ => clampIf f m (fMinMax f true x y)) hr rfl
  · exact writes_of_floatOp (srcs := [a, b, x])
      (g := fun f x y z => fFinish f rm m (FVal.sum rm [(f.decode x).mul (f.decode y), f.decode z])) hr rfl
  · exact writes_of_floatOp (srcs := [a]) (g := fun f x _ _ => clampIf f m (frndBits f rm x)) hr rfl

/-- Settles O8: division and the functions write their one FP32 element, the exponent each of its format. -/
theorem floatFunctions : Obligations.FloatFunctions := by
  unfold Obligations.FloatFunctions
  intro h cf rm m d a b s e c fn dv va out
  refine ⟨fun hr => writes_of_mod hr rfl rfl fun _ => packElems_word _, fun hr => ?_, fun hr => ⟨?_, ?_, ?_, ?_, ?_, ?_, ?_, ?_, ?_⟩⟩
  · have hw : Writes (.fexpo h cf d a) (arithForm [fA a 1] d 1 6) s e c d 1 fun l =>
        packElems (classFmt cf).width (32 / (classFmt cf).width) fun k =>
          fexpoBits (classFmt cf) (classFmt cf).width (fElem (classFmt cf) (c.rd 0 a l).toNat k) := writes_of hr rfl rfl
    simp only [packElems_eq, fexpoBits_eq] at hw
    exact hw
  · exact writes_of_fnOp (g := FVal.rcp) hr rfl
  · exact writes_of_fnOp (g := FVal.rsqrt) hr rfl
  · exact writes_of_fnOp (g := FVal.sqrt) hr rfl
  · exact writes_of_fnOp (g := FVal.exp2) hr rfl
  · exact writes_of_fnOp (g := FVal.log2) hr rfl
  · exact writes_of_fnOp (g := FVal.sinPi) hr rfl
  · exact writes_of_fnOp (g := FVal.cosPi) hr rfl
  · exact writes_of_fnOp (g := FVal.tanh) hr rfl
  · exact writes_of_fnOp (g := FVal.sigm) hr rfl

/-- Settles O9: each conversion writes its narrowing under the overflow table of the context, which the issue leaves as it is. -/
theorem conversions : Obligations.Conversions := by
  unfold Obligations.Conversions
  intro h k ty rm q m d a b x s e c n f3 ov
  refine ⟨fun hr => ?_, fun hr => ?_, fun hr => writes_of hr rfl rfl, fun hr => ?_⟩
  · have hw : Writes (.cvt h k m d a b x) f3 s e c d 1 fun l =>
        cvtBits k m (c.begun f3 e (issOf h)).ov (c.rd 0 a l) (c.rd 1 b l) (c.rd 2 x l) := writes_of hr rfl rfl
    rw [begun_ov hr] at hw
    cases k <;> exact hw
  · have hw : Writes (.ftoi h ty rm m d a) (arithForm [fA a 1] d n 6) s e c d n fun l =>
        ftoiNarrow (polQ8 (c.begun (arithForm [fA a 1] d n 6) e (issOf h)).ov) (itySigned (cmpIty ty)) (ityWidth (cmpIty ty)) rm
          ((c.fltSrc fp32 0 a m.nega m.absa l 0).scale m.scale.toInt) := writes_of hr rfl rfl
    rwa [begun_ov hr] at hw
  · have hw : Writes (.qunpk h q d a b x) (arithForm [fA a 2, fB b 1, fC x 1] d 1 6) s e c d 1 fun l =>
        qunpkElem (polFp32 (c.begun (arithForm [fA a 2, fB b 1, fC x 1] d 1 6) e (issOf h)).ov) ((c.rd 2 x l).toNat % 256)
          (readInt true (qBits q) ((c.rd64 0 a false l).toNat / 2 ^ ((c.rd 1 b l).toNat % 64))) := writes_of hr rfl rfl
    rwa [begun_ov hr] at hw

end

section
/-! Masks built from lanes: their bits, and the majors that write a mask (R118, R158, R172, R184, R185, R199). -/

namespace Sys2Proof.Machine

theorem laneBit_getLsbD (i l : Nat) : (laneBit i).getLsbD l = (decide (l < 1024) && decide (l = i)) := by
  rw [laneBit, BitVec.getLsbD_ofNat, Nat.testBit_two_pow]
  simp only [eq_comm]

/-- The bits of a mask of lanes. -/
theorem maskOf_getLsbD (ls : List Nat) {l : Nat} (hl : l < 1024) : (maskOf ls).getLsbD l = decide (l ∈ ls) := by
  have key : ∀ (ls : List Nat) (m : LaneMask),
      (ls.foldl (fun m i => m ||| laneBit i) m).getLsbD l = (m.getLsbD l || decide (l ∈ ls)) := by
    intro ls
    induction ls with
    | nil => intro m; simp
    | cons a ls ih =>
      intro m
      rw [List.foldl_cons, ih, BitVec.getLsbD_or, laneBit_getLsbD]
      by_cases hla : l = a
      · subst hla; simp [hl]
      · simp [hla]
  simpa [maskOf] using key ls 0

/-- The bits of a mask of the lanes that a predicate picks. -/
theorem maskFrom_getLsbD {ls : List Nat} {p : Nat → Bool} {l : Nat} (hl : l < 1024) (hmem : l ∈ ls) :
    (maskFrom ls p).getLsbD l = p l := by
  rw [maskFrom, maskOf_getLsbD _ hl]
  simp [hmem]

theorem Ctx.lanes_lt {c : Ctx} {l : Nat} (h : l ∈ c.lanes) : l < 1024 := maskLanes_lt h

variable {ins : Instr} {f : Form} {i : Iss} {s : State} {e : Env} {c : Ctx} {eff : Ctx → Res} {kd : Nat} {p : Nat → Bool}

/-- An instruction that writes a predicate of each lane to a mask: its bits in the lanes that take part. -/
theorem sets_pred_of (hr : Runs f i s e c) (hl : f.lat.isSome = true) (hx : exec ins s = issueForm f i eff s)
    (he : eff (c.begun f e i) = .done ((c.begun f e i).putPred kd p (c.begun f e i).s)) :
    ∃ k : LaneMask, SetsMask ins f s e c kd k ∧ ∀ l ∈ c.lanes, k.getLsbD l = p l :=
  ⟨maskFrom c.lanes p, sets_mask_of hr hl hx he, fun _ hmem => maskFrom_getLsbD (Ctx.lanes_lt hmem) hmem⟩

/-! Values all the same, and the first of a value. -/

theorem allSame_iff (l : List Nat) : allSame l = true ↔ ∀ x ∈ l, ∀ y ∈ l, x = y := by
  cases l with
  | nil => simp [allSame]
  | cons a l =>
    simp only [allSame, List.all_eq_true, beq_iff_eq, List.mem_cons, forall_eq_or_imp, true_and]
    exact ⟨fun h => ⟨fun y hy => (h y hy).symm, fun x hx => ⟨h x hx, fun y hy => (h x hx).trans (h y hy).symm⟩⟩,
      fun h x hx => (h.2 x hx).1⟩

/-- In an ascending list the first place that meets a predicate is the one below which none does. -/
theorem find?_eq_some_iff_of_ascending {p : Nat → Bool} {l : Nat} (hp : p l = true) : ∀ {ls : List Nat}, ls.Pairwise (· < ·) →
    l ∈ ls → (ls.find? p = some l ↔ ∀ j ∈ ls, j < l → p j = false) := by
  intro ls
  induction ls with
  | nil => intro _ hmem; cases hmem
  | cons a ls ih =>
    intro hasc hmem
    obtain ⟨hlow, hrest⟩ := List.pairwise_cons.mp hasc
    rcases List.mem_cons.mp hmem with rfl | hin
    · rw [List.find?_cons_of_pos hp]
      refine ⟨fun _ j hj hlt => ?_, fun _ => rfl⟩
      rcases List.mem_cons.mp hj with rfl | hj
      · exact absurd hlt (Nat.lt_irrefl _)
      · exact absurd hlt (Nat.lt_asymm (hlow j hj))
    · by_cases ha : p a = true
      · rw [List.find?_cons_of_pos ha]
        refine ⟨fun h => absurd (Option.some.inj h) (hlow l hin).ne, fun h => ?_⟩
        exact absurd ha (by rw [h a List.mem_cons_self (hlow l hin)]; decide)
      · have hfalse : p a = false := by simpa using ha
        rw [List.find?_cons_of_neg ha, ih hrest hin]
        exact ⟨fun h j hj hlt => (List.mem_cons.mp hj).elim (fun he => he ▸ hfalse) fun hj => h j hj hlt,
          fun h j hj => h j (List.mem_cons_of_mem _ hj)⟩

theorem lanes_ascending (c : Ctx) : c.lanes.Pairwise (· < ·) := List.pairwise_lt_range.filter _

/-! One word of a mask. -/

/-- The lanes of word w. -/
theorem wordMask_getLsbD (w l : Nat) (hw : w < 32) : (wordMask w).getLsbD l = decide (l / 32 = w) := by
  rw [wordMask, BitVec.getLsbD_ofNat, Nat.mul_comm, Nat.testBit_two_pow_mul]
  have hones : (0xFFFFFFFF : Nat).testBit (l - 32 * w) = decide (l - 32 * w < 32) := Nat.testBit_two_pow_sub_one 32 _
  rw [hones, ← Bool.decide_and, ← Bool.decide_and]
  exact decide_eq_decide.mpr (by omega)

/-- A word laid at its place in a mask. -/
theorem wordAt_getLsbD (v : W32) {w l : Nat} (hlw : l / 32 = w) (hl : l < 1024) :
    (BitVec.ofNat 1024 (v.toNat * 2 ^ (32 * w))).getLsbD l = v.getLsbD (l % 32) := by
  rw [BitVec.getLsbD_ofNat, Nat.mul_comm, Nat.testBit_two_pow_mul, BitVec.testBit_toNat]
  have hin : 32 * w ≤ l := by omega
  have hback : l - 32 * w = l % 32 := by omega
  simp [hl, hin, hback]

theorem maskMerge_getLsbD (old new who : LaneMask) (l : Nat) (hl : l < 1024) :
    (maskMerge old new who).getLsbD l = if who.getLsbD l then new.getLsbD l else old.getLsbD l := by
  rw [maskMerge, BitVec.getLsbD_or, BitVec.getLsbD_and, BitVec.getLsbD_and, BitVec.getLsbD_not]
  cases who.getLsbD l <;> simp [hl]

/-! What follows an effect keeps of a team. -/

theorem onlyX_onlyRecs {t w z : Team} (hx : OnlyX t w) (hr : OnlyRecs w z) :
    z = { t with x := z.x, records := z.records, splits := z.splits } :=
  calc z = { w with records := z.records, splits := z.splits } := hr
    _ = { t with x := w.x, records := z.records, splits := z.splits } :=
      congrArg (fun u : Team => { u with records := z.records, splits := z.splits }) hx
    _ = { t with x := z.x, records := z.records, splits := z.splits } := by rw [hr.x]

/-- What follows an effect changes of a team its index registers, records and split entries alone. -/
theorem ended_rest (t : Team) (fs : List (Form × Ctx)) (now : Nat) (hp : t.probe = none) :
    t.ended fs now = { t with x := (t.ended fs now).x, records := (t.ended fs now).records, splits := (t.ended fs now).splits } := by
  rw [ended_calm t fs now hp]
  exact onlyX_onlyRecs (onlyX_steps fs t) (onlyRecs_fuse now _)

/-- Each mask after an effect on one mask, bit by bit. -/
theorem wroteWord_team (f : Form) (e : Env) (i : Iss) (c : Ctx) (kd : Nat) (m who : LaneMask) (now : Nat)
    (hp : e.team.probe = none) :
    let b := e.team.begun [(f, c)] e i
    let u := (b.setK kd (maskMerge (b.getK c.e.rcd kd) m who)).ended [(f, c.begun f e i)] now
    u.v = e.team.v ∧ u.s = e.team.s ∧ ∀ k l, k ≠ 0 → l < 1024 → (smGet 0 u.k k).getLsbD l =
      if k = kd ∧ who.getLsbD l then m.getLsbD l else (smGet 0 e.team.k k).getLsbD l := by
  intro b u
  have hb : b = { e.team with records := b.records, waits := b.waits } := begun_rest e.team [(f, c)] e i hp
  have hbp : b.probe = none := by rw [hb]; exact hp
  have hu := ended_rest (b.setK kd (maskMerge (b.getK c.e.rcd kd) m who)) [(f, c.begun f e i)] now hbp
  have huv : u.v = b.v := (congrArg Team.v hu).trans rfl
  have hus : u.s = b.s := (congrArg Team.s hu).trans rfl
  have huk : u.k = smSet 0 b.k kd (maskMerge (b.getK c.e.rcd kd) m who) := (congrArg Team.k hu).trans rfl
  have hbk : b.k = e.team.k := (congrArg Team.k hb).trans rfl
  refine ⟨huv.trans ((congrArg Team.v hb).trans rfl), hus.trans ((congrArg Team.s hb).trans rfl), fun k l hk hl => ?_⟩
  rw [huk, smGet_smSet]
  by_cases hkd : k = kd
  · subst hkd
    have hget : b.getK c.e.rcd k = smGet 0 e.team.k k := by rw [Team.getK, if_neg hk, hbk]
    rw [if_pos rfl, maskMerge_getLsbD _ _ _ _ hl, hget]
    simp only [true_and]
  · rw [if_neg hkd, if_neg (fun h => hkd h.1), hbk]

end Sys2Proof.Machine

open Sys2Proof Sys2Proof.Machine

/-- Settles O10: a comparison and a class test write a predicate of each lane; `MATCH` writes whether all values are the same, or
whether the first lane of the value is the lane itself. -/
theorem comparesAndMatchesWriteMasks : Obligations.ComparesAndMatchesWriteMasks := by
  unfold Obligations.ComparesAndMatchesWriteMasks
  constructor
  · intro h ty ic fc cf m kd a b s e c t n fi ff x y
    refine ⟨fun hr => ?_, fun hr => ⟨sets_pred_of hr rfl rfl rfl, sets_pred_of hr rfl rfl rfl⟩⟩
    have hw : ∃ k : LaneMask, SetsMask (.icmp h ty ic kd a b) fi s e c kd.val k ∧
        ∀ l ∈ c.lanes, k.getLsbD l = icmpHolds ic (x l) (y l) := sets_pred_of hr rfl rfl rfl
    cases ic <;> exact hw
  · intro h all wide kd a s e c n f hr
    have hw : ∃ k : LaneMask, SetsMask (.matchL h all wide kd a) f s e c kd.val k ∧ ∀ l ∈ c.lanes, k.getLsbD l =
        if all then allSame (c.lanes.map fun l => c.rdN 0 a n l)
        else (c.lanes.find? fun j => c.rdN 0 a n j == c.rdN 0 a n l) == some l := sets_pred_of hr rfl rfl rfl
    obtain ⟨k, hk, hbits⟩ := hw
    refine ⟨k, hk, fun l hl => (hbits l hl).trans ?_⟩
    cases all with
    | true =>
      rw [if_pos rfl, if_pos rfl, Bool.eq_iff_iff, allSame_iff, decide_eq_true_iff]
      simp only [List.forall_mem_map]
    | false =>
      rw [if_neg nofun, if_neg nofun, Bool.eq_iff_iff, beq_iff_eq, decide_eq_true_iff,
        find?_eq_some_iff_of_ascending (p := fun j => c.rdN 0 a n j == c.rdN 0 a n l) (beq_self_eq_true _) (lanes_ascending c) hl]
      simp only [beq_eq_false_iff_ne]

/-- Settles O13: the mask operations write their mask, the reads of a mask one number; the word moved into a mask takes its lanes
alone. -/
theorem maskOperations : Obligations.MaskOperations := by
  unfold Obligations.MaskOperations
  intro h kd ka kb op hi d a b s e c K fk fr w ks
  refine ⟨fun hr => ?_, fun hr => sets_mask_of hr rfl rfl rfl, fun hr => ⟨sets_mask_of hr rfl rfl rfl, sets_mask_of hr rfl rfl rfl⟩,
    fun hr => ?_, fun hr => sets_pred_of hr rfl rfl rfl, fun hr => ?_,
    fun hr => writes_of hr rfl rfl, fun hr => ?_⟩
  · have hw : SetsMask (.kop h kd (.bin op ka kb)) (fk [.mask 0 ka.val, .mask 1 kb.val]) s e c kd.val
        (kbin op (K 0 ka) (K 1 kb)) := sets_mask_of hr rfl rfl rfl
    cases op <;> exact hw
  · obtain ⟨rfl, -, -⟩ := hr.ctx
    exact ⟨writes_of hr rfl rfl, writes_of hr rfl rfl⟩
  · have hw : Writes (.kmov h (.k2v d ka)) ⟨[.mask 0 ka.val], [.opnd 3 d 1], .vec, some 4, .run, true, false⟩ s e c d 1
        fun l => (if (K 0 ka).getLsbD l then (1 : W32) else 0).toNat := writes_of hr rfl rfl
    simp only [apply_ite BitVec.toNat] at hw
    exact hw
  · obtain ⟨t, ht, ho⟩ := team_effect (ins := .kmov h (.s2k kd a b)) (fun t => t.setK kd.val (maskMerge (t.getK c.e.rcd kd.val)
      (BitVec.ofNat 1024 ((c.rd 0 a 0).toNat * 2 ^ (32 * w))) (c.m &&& wordMask w))) (fun _ => rfl) hr rfl rfl
    obtain ⟨hv, hs, hk⟩ := wroteWord_team { fk [fA a 1, fB b 1] with dsts := [.mword 3 kd.val b] } e (issOf h) c kd.val
      (BitVec.ofNat 1024 ((c.rd 0 a 0).toNat * 2 ^ (32 * w))) (c.m &&& wordMask w) s.time hr.noProbe
    refine ⟨t, _, ht, ho, hv, hs, fun k l hk0 hl => (hk k l hk0 hl).trans ?_⟩
    simp only [BitVec.getLsbD_and, wordMask_getLsbD w _ (Nat.mod_lt _ (by decide)), Bool.and_eq_true, decide_eq_true_iff]
    split
    · next hin => exact wordAt_getLsbD _ hin.2.2 hl
    · rfl

end

section
/-! The cross-lane majors (R194 to R198) and `QPACK` (R192). -/

namespace Sys2Proof.Machine

variable {ins : Instr} {f : Form} {i : Iss} {s : State} {e : Env} {c : Ctx} {eff : Ctx → Res} {d : Opnd} {n : Nat} {val : Nat → Nat}

/-- Outside probe mode nothing is marked. -/
theorem markLanes_calm (fd : Field) (mk : Nat → Bool) (t : State) (h : c.e.probing = false) : c.markLanes fd mk t = t := by
  simp [Ctx.markLanes, h]

/-- An instruction whose effect is one destination, marked in probe mode by what each lane read. -/
theorem writes_of_marked {fd : Field} {mk : Nat → Bool} (hr : Runs f i s e c) (hx : exec ins s = issueForm f i eff s)
    (he : eff (c.begun f e i) =
      .done ((c.begun f e i).markLanes fd mk ((c.begun f e i).putOn c.lanes d n val (c.begun f e i).s))) :
    Writes ins f s e c d n val := by
  refine writes_of hr hx (he.trans (congrArg Res.done (markLanes_calm _ _ _ ?_)))
  exact (congrArg Env.probing hr.ctx.1).trans hr.calm

/-- R196's choice of a source lane, for a place that may lie below 0. -/
theorem shflSrc_value {α : Type} (k0 : LaneMask) (md : Shfl) (l : Nat) (b : W32) (read : Nat → α) (other : α) :
    (match shflSrc k0 md l b with | some src => read src | none => other) =
      if 0 ≤ shflLane md l b then
        if decide ((shflLane md l b).toNat < 1024) && k0.getLsbD (shflLane md l b).toNat then read (shflLane md l b).toNat else other
      else other := by
  unfold shflSrc
  by_cases h0 : 0 ≤ shflLane md l b
  · have hlt : (shflLane md l b).toNat < 1024 ↔ shflLane md l b < 1024 := Int.toNat_lt h0
    by_cases hin : shflLane md l b < 1024 ∧ k0.getLsbD (shflLane md l b).toNat = true
    · simp [h0, hlt, hin]
    · simp [h0, hlt, hin]
  · simp [h0]

/-- A shuffle writes what the source lane holds, or the default. -/
theorem writes_of_tshfl {md : Shfl} {wide : Bool} {a b x : Opnd} (hr : Runs (opTshfl md wide d a b x).form i s e c)
    (hx : exec ins s = (opTshfl md wide d a b x).run i s) :
    Writes ins (opTshfl md wide d a b x).form s e c d (if wide then 2 else 1) fun l =>
      if 0 ≤ shflLane md l (c.rd 1 b l) then
        if decide ((shflLane md l (c.rd 1 b l)).toNat < 1024) && e.rcd.k0.getLsbD (shflLane md l (c.rd 1 b l)).toNat then
          c.rdN 0 a (if wide then 2 else 1) (shflLane md l (c.rd 1 b l)).toNat
        else c.rdN 2 x (if wide then 2 else 1) l
      else c.rdN 2 x (if wide then 2 else 1) l := by
  obtain ⟨rfl, -, -⟩ := hr.ctx
  have hw : Writes ins (opTshfl md wide d a b x).form s c.e c d (if wide then 2 else 1) fun l =>
      match shflSrc c.e.rcd.k0 md l (c.rd 1 b l) with
      | some src => c.rdN 0 a (if wide then 2 else 1) src
      | none => c.rdN 2 x (if wide then 2 else 1) l := writes_of_marked hr hx rfl
  simpa only [shflSrc_value] using hw

/-- R198's verdict on the values of the lanes. -/
theorem voteHolds_eq (md : VoteOp) (ls : List Nat) (v : Nat → W32) :
    voteHolds md (ls.map fun l => (v l).toNat) = match md with
      | .any => decide (∃ l ∈ ls, v l ≠ 0)
      | .all => decide (∀ l ∈ ls, v l ≠ 0)
      | .none => decide (∀ l ∈ ls, v l = 0)
      | .uni => decide (∀ l ∈ ls, ∀ j ∈ ls, v l = v j) := by
  have hzero : ∀ w : W32, w.toNat = 0 ↔ w = 0 := fun w => (BitVec.toNat_eq (y := 0)).symm
  have hsame : ∀ x y : W32, x.toNat = y.toNat ↔ x = y := fun x y => BitVec.toNat_eq.symm
  cases md with
  | any => rw [Bool.eq_iff_iff]; simp [voteHolds, hzero]
  | all => rw [Bool.eq_iff_iff]; simp [voteHolds, hzero]
  | none => rw [Bool.eq_iff_iff]; simp [voteHolds, hzero]
  | uni => rw [Bool.eq_iff_iff]; simp [voteHolds, allSame_iff, hsame]

end Sys2Proof.Machine

open Sys2Proof Sys2Proof.Machine

/-- Settles O12: each of them writes one destination, and what the lanes mark in probe mode is nothing outside it. -/
theorem crossLaneValues : Obligations.CrossLaneValues := by
  unfold Obligations.CrossLaneValues
  intro h op excl wide first md vo d a b x s e c n k f1 fs f3 v live pick
  refine ⟨fun hr => ?_, fun hr => writes_of_marked hr rfl rfl, fun hr => ⟨?_, fun hd => ?_, fun hd => ?_⟩, fun hr => ?_⟩
  · obtain ⟨rfl, -, -⟩ := hr.ctx
    exact writes_of hr rfl rfl
  · have hw := writes_of_tshfl (ins := .tshfl h md wide d a b x) hr rfl
    cases md <;> exact hw
  · obtain ⟨rfl, -, -⟩ := hr.ctx
    cases d with
    | s r => exact absurd hd nofun
    | _ => exact writes_of_marked hr rfl rfl
  · obtain ⟨rfl, -, -⟩ := hr.ctx
    cases d with
    | s r => exact writes_of_marked hr rfl rfl
    | _ => exact absurd hd nofun
  · have hw : Writes (.vote h vo d a) (crossForm [fA a 1] d 1) s e c d 1 fun _ =>
        (voteHolds vo (c.lanes.map fun l => (c.rd 0 a l).toNat)).toNat := writes_of hr rfl rfl
    have hbit : ∀ p : Bool, p.toNat = if p then 1 else 0 := fun p => by cases p <;> rfl
    simp only [voteHolds_eq, hbit] at hw
    exact hw

end

section
/-! `QPACK` (R192): the words it lays in each mask word it passes over. -/

namespace Sys2Proof.Machine

/-- The block that `QPACK` makes of the lanes of a mask word, under an overflow table. -/
def qpackBlk (c : Ctx) (ov : W32) (q : QFmt) (m : Mods) (a : Opnd) (w : Nat) : Nat × List Int :=
  qpackBlock (qBits q) (polQ ov q) ((List.range 32).map fun j =>
    if c.m.getLsbD (32 * w + j) then c.fltSrc fp32 0 a m.nega m.absa (32 * w + j) 0 else .fin false 0 0)

/-- The value that a lane of a mask word takes. -/
def qpackLane (q : QFmt) (blk : Nat × List Int) (l : Nat) : Nat :=
  if l % 32 < qBits q then qStream (qBits q) blk.2 / 2 ^ (32 * (l % 32)) % 2 ^ 32 else blk.1

/-- The live lanes of a mask word. -/
def qpackLanes (c : Ctx) (w : Nat) : List Nat :=
  ((List.range 32).filter fun j => c.e.rcd.k0.getLsbD (32 * w + j)).map fun j => 32 * w + j

theorem w32_mod (v : Nat) : w32 (v % 2 ^ 32) = w32 v := by
  apply BitVec.eq_of_toNat_eq
  simp [w32]

/-- What `QPACK` makes of a team over a list of mask words. -/
def qpackTeam (c : Ctx) (ov : W32) (q : QFmt) (m : Mods) (r : Fin 176) (a : Opnd) (ws : List Nat) (t : Team) : Team :=
  ws.foldl (fun t w => (qpackLanes c w).foldl (fun t l => c.putLane (.v r) 1 l (qpackLane q (qpackBlk c ov q m a w) l) t) t) t

theorem mem_qpackLanes (c : Ctx) (w l : Nat) : l ∈ qpackLanes c w ↔ l / 32 = w ∧ c.e.rcd.k0.getLsbD l = true := by
  simp only [qpackLanes, List.mem_map, List.mem_filter, List.mem_range]
  constructor
  · rintro ⟨j, ⟨hj, hk⟩, rfl⟩
    exact ⟨by omega, hk⟩
  · rintro ⟨rfl, hk⟩
    have hback : 32 * (l / 32) + l % 32 = l := by omega
    exact ⟨l % 32, ⟨Nat.mod_lt _ (by decide), by rw [hback]; exact hk⟩, hback⟩

theorem qpackLanes_nodup (c : Ctx) (w : Nat) : (qpackLanes c w).Nodup :=
  (List.nodup_range.filter _).map fun _ _ hxy => Nat.add_left_cancel hxy

/-- One mask word of `QPACK` in a vector register. -/
theorem qpackWord_v (c : Ctx) (q : QFmt) (m : Mods) (r : Fin 176) (a : Opnd) (s : State) (w : Nat) :
    qpackWord c q m (.v r) a s w = c.modTeam s (qpackTeam c c.ov q m r a [w]) := by
  simp only [qpackWord, Bool.or_true, Bool.and_true]
  rfl

theorem qpackTeam_spec (c : Ctx) (ov : W32) (q : QFmt) (m : Mods) (r : Fin 176) (a : Opnd) (ws : List Nat) : ∀ t : Team,
    OnlyV t (qpackTeam c ov q m r a ws t) ∧ ∀ g l, l < 1024 → (qpackTeam c ov q m r a ws t).getV g l =
      if g = r.val ∧ l / 32 ∈ ws ∧ c.e.rcd.k0.getLsbD l then w32 (qpackLane q (qpackBlk c ov q m a (l / 32)) l) else t.getV g l := by
  induction ws with
  | nil => intro t; exact ⟨rfl, fun g l _ => by simp [qpackTeam]⟩
  | cons w ws ih =>
    intro t
    obtain ⟨hv, hget⟩ := putLanes_spec c (.v r) 1 (qpackLane q (qpackBlk c ov q m a w)) rfl (qpackLanes c w) t
      (qpackLanes_nodup c w) fun l hl => BitVec.lt_of_getLsbD ((mem_qpackLanes c w l).mp hl).2
    obtain ⟨hv', hget'⟩ := ih (qpackTeam c ov q m r a [w] t)
    refine ⟨hv.trans hv', fun g l hl => (hget' g l hl).trans ?_⟩
    have hone : (qpackTeam c ov q m r a [w] t).getV g l = if g = r.val ∧ l / 32 = w ∧ c.e.rcd.k0.getLsbD l = true
        then w32 (qpackLane q (qpackBlk c ov q m a w) l) else t.getV g l := by
      refine (hget g l hl).trans ?_
      simp only [Ctx.firstReg, mem_qpackLanes]
      by_cases hg : g = r.val
      · subst hg; simp [regOf_zero]
      · have hout : ¬ (r.val ≤ g ∧ g < r.val + 1) := by omega
        rw [if_neg (fun h => hout h.2), if_neg (fun h => hg h.1)]
    rw [hone]
    by_cases hlw : l / 32 = w
    · subst hlw
      by_cases hin : g = r.val ∧ c.e.rcd.k0.getLsbD l = true
      · simp [hin]
      · have hout : ¬ (g = r.val ∧ l / 32 ∈ ws ∧ c.e.rcd.k0.getLsbD l = true) := fun h => hin ⟨h.1, h.2.2⟩
        have hout' : ¬ (g = r.val ∧ l / 32 ∈ l / 32 :: ws ∧ c.e.rcd.k0.getLsbD l = true) := fun h => hin ⟨h.1, h.2.2⟩
        have hout'' : ¬ (g = r.val ∧ l / 32 = l / 32 ∧ c.e.rcd.k0.getLsbD l = true) := fun h => hin ⟨h.1, h.2.2⟩
        rw [if_neg hout, if_neg hout', if_neg hout'']
    · simp [hlw]

theorem qpackTeam_idx (c : Ctx) (ov : W32) (q : QFmt) (m : Mods) (r : Fin 176) (a : Opnd) (ws : List Nat) (t : Team) :
    (qpackTeam c ov q m r a ws t).idx = t.idx := by
  have h : qpackTeam c ov q m r a ws t = _ := (qpackTeam_spec c ov q m r a ws t).1
  rw [h]

/-- All the mask words of `QPACK`. -/
theorem qpackWords_v (c : Ctx) (q : QFmt) (m : Mods) (r : Fin 176) (a : Opnd) (ws : List Nat) : ∀ s,
    ws.foldl (qpackWord c q m (.v r) a) s = c.modTeam s (qpackTeam c c.ov q m r a ws) := by
  induction ws with
  | nil => intro s; exact (modTeam_id s _ _).symm
  | cons w ws ih =>
    intro s
    rw [List.foldl_cons, ih, qpackWord_v]
    exact State.modTeam_modTeam s _ _ _ _ (qpackTeam_idx c c.ov q m r a [w])

end Sys2Proof.Machine

open Sys2Proof Sys2Proof.Machine

/-- Settles O11: `QPACK` is an effect on its team alone, one mask word after another. -/
theorem packingWritesWords : Obligations.PackingWritesWords := by
  unfold Obligations.PackingWritesWords
  intro h q m r a s e c f hr
  obtain ⟨ws, hws⟩ : ∃ ws, ws = liveWords c.m 32 c.e.team.lanes := ⟨_, rfl⟩
  have hov := begun_ov hr
  obtain ⟨t, ht, ho⟩ := team_effect (ins := .qpack h q m (.v r) a) (qpackTeam c (ovtab s e.la.ctx) q m r a ws)
    (qpackTeam_idx c _ q m r a ws) hr rfl (by
      rw [← hov, hws]
      exact congrArg Res.done (qpackWords_v (c.begun f e (issOf h)) q m r a _ _))
  refine ⟨t, _, ht, ho, fun g l hl => ?_⟩
  obtain ⟨rfl, -, -⟩ := hr.ctx
  obtain ⟨b, hb⟩ : ∃ b, b = c.e.team.begun [(f, c)] c.e (issOf h) := ⟨_, rfl⟩
  have hbegun : b = { c.e.team with records := b.records, waits := b.waits } := hb ▸ begun_rest c.e.team [(f, c)] c.e _ hr.noProbe
  rw [← hb]
  obtain ⟨hv, hget⟩ := qpackTeam_spec c (ovtab s c.e.la.ctx) q m r a ws b
  have hprobe : (qpackTeam c (ovtab s c.e.la.ctx) q m r a ws b).probe = none :=
    (congrArg Team.probe hv).trans ((congrArg Team.probe hbegun).trans hr.noProbe)
  have hended := congrArg Team.v (ended_rest _ [(f, c.begun f c.e (issOf h))] s.time hprobe)
  have hold : b.getV g l = c.e.team.getV g l := congrArg (fun v => smGet 0 v (vKey g l)) ((congrArg Team.v hbegun).trans rfl)
  refine (congrArg (fun v => smGet 0 v (vKey g l)) (hended.trans rfl)).trans ((hget g l hl).trans ?_)
  rw [hold, hws, qpackLane]
  simp only [apply_ite w32, w32_mod]
  rfl

end

section
/-! Compact arithmetic words (R70 to R72): each runs the meaning of the full form it expands to, on plain words. -/

namespace Sys2Proof.Machine

variable {ins j : Instr} {w : CRaw} {d a b x : Opnd} {h : Hdr} {o : Op} {i : Iss} {s : State} {e : Env} {c : Ctx} {f : Form} {n lat : Nat}

/-- A compact word that expands to a two-operand form runs that form's meaning. -/
theorem compactRun_bin {g : Opnd → Opnd → Instr} (hx : expand ins = cBin w g) (hb : cB w = some b) (hd : cD w = some d)
    (ho : compactOp (g d b) = some (h, o)) : compactRun ins s = o.run (cissOf h) s := by
  have hj : expand ins = some (g d b) := by rw [hx, cBin, hd, hb]
  simp only [compactRun, compactBody, hj, Option.bind_some, ho]

/-! Plain sources: no modifier, no scale, no clamp. -/

theorem intSrc_s32 (c : Ctx) (k : Nat) (o : Opnd) (l : Nat) : c.intSrc .s32 k o false false l 0 = (c.rd k o l).toInt := by
  change readInt true 32 ((c.rd k o l).toNat / 2 ^ (32 * 0)) = _
  rw [Nat.mul_zero, Nat.pow_zero, Nat.div_one, readInt_signed_word]

theorem intSrc_s64 (c : Ctx) (k : Nat) (o : Opnd) (l : Nat) : c.intSrc .s64 k o false false l 0 = (c.rd64 k o true l).toInt := by
  change readInt true 64 ((c.rd64 k o true l).toNat / 2 ^ (64 * 0)) = _
  rw [Nat.mul_zero, Nat.pow_zero, Nat.div_one, readInt_signed_eq_toInt (by decide), BitVec.ofNat_toNat, BitVec.setWidth_eq]

theorem intResult_s32 (v : Nat → Int) : intResult .s32 false v = (BitVec.ofInt 32 (v 0)).toNat := by
  change sideBySide 32 1 (fun k => inType false true 32 (v k)) = _
  rw [sideBySide_succ, ← wrapInt_eq, wrapInt_eq_ofInt, Nat.mod_eq_of_lt (BitVec.isLt _)]
  simp [sideBySide]

theorem intResult_s64 (v : Nat → Int) : intResult .s64 false v = (BitVec.ofInt 64 (v 0)).toNat := by
  change sideBySide 64 1 (fun k => inType false true 64 (v k)) = _
  rw [sideBySide_succ, ← wrapInt_eq, wrapInt_eq_ofInt, Nat.mod_eq_of_lt (BitVec.isLt _)]
  simp [sideBySide]

/-- A plain operation of two signed words writes its value as a word. -/
theorem writes_of_word {g : Int → Int → Int} {g' : W32 → W32 → W32} (hg : ∀ x y : W32, BitVec.ofInt 32 (g x.toInt y.toInt) = g' x y)
    (hr : Runs (intOp2 .s32 false noMods lat d a b g).form i s e c)
    (hx : exec ins s = (intOp2 .s32 false noMods lat d a b g).run i s) :
    Writes ins (intOp2 .s32 false noMods lat d a b g).form s e c d 1 fun l => (g' (c.rd 0 a l) (c.rd 1 b l)).toNat := by
  have hw := writes_of_intOp2 hr hx
  simp only [noMods, intResult_s32, intSrc_s32, hg] at hw
  exact hw

/-- A plain bitwise operation of two words. -/
theorem writes_of_logicWord {g : Nat → Nat → Nat} {g' : W32 → W32 → W32} (hg : ∀ x y : W32, g x.toNat y.toNat = (g' x y).toNat)
    (hr : Runs (logicOp 0 d a b g).form i s e c) (hx : exec ins s = (logicOp 0 d a b g).run i s) :
    Writes ins (logicOp 0 d a b g).form s e c d 1 fun l => (g' (c.rd 0 a l) (c.rd 1 b l)).toNat := by
  have hw : Writes ins (logicOp 0 d a b g).form s e c d 1 fun l => g (c.rd 0 a l).toNat (c.rd 1 b l).toNat := writes_of hr hx rfl
  simpa only [hg] using hw

/-- A plain shift of a word. -/
theorem writes_of_shiftWord {g : Nat → Nat → Nat} {g' : W32 → Nat → W32}
    (hg : ∀ (x : W32), ∀ k < 32, g x.toNat k % 2 ^ 32 = (g' x k).toNat)
    (hr : Runs (shiftOp 0 d a b g).form i s e c) (hx : exec ins s = (shiftOp 0 d a b g).run i s) :
    Writes ins (shiftOp 0 d a b g).form s e c d 1 fun l => (g' (c.rd 0 a l) ((c.rd 1 b l).toNat % 32)).toNat := by
  refine writes_of_mod (val := fun l => g (c.rd 0 a l).toNat ((c.rd 1 b l).toNat % 32)) hr hx rfl fun l => ?_
  rw [← hg _ _ (Nat.mod_lt _ (by decide)), Nat.mul_one, Nat.mod_mod]

/-- A source without modifiers is the element itself. -/
theorem fSrc_plain (F : FFmt) (v : W32) (k : Nat) : fSrc F false false v k = fElem F v.toNat k := by
  have hw : 2 ^ F.width = 2 ^ (F.expo + F.frac) * 2 := by rw [FFmt.width, Nat.add_assoc, Nat.add_comm, Nat.pow_succ]
  obtain ⟨n, hn⟩ : ∃ n, n = fElem F v.toNat k := ⟨_, rfl⟩
  have hlt : n < 2 ^ (F.expo + F.frac) * 2 := by rw [hn, ← hw]; exact Nat.mod_lt _ (by positivity)
  have htop : n / 2 ^ (F.expo + F.frac) < 2 := by rwa [Nat.div_lt_iff_lt_mul (by positivity), Nat.mul_comm]
  have hsplit := Nat.div_add_mod n (2 ^ (F.expo + F.frac))
  rw [fSrc, ← hn]
  have hxor : ∀ p : Bool, (p != false) = p := fun p => by cases p <;> rfl
  simp only [signMod, FFmt.withSign, Bool.not_false, Bool.and_true, hxor]
  rcases Nat.le_one_iff_eq_zero_or_eq_one.mp (Nat.le_of_lt_succ htop) with hz | hz
  · rw [hz, Nat.mul_zero, Nat.zero_add] at hsplit
    simp [hz, hsplit]
  · rw [hz, Nat.mul_one] at hsplit
    simp [hz, hsplit]

theorem fElem_word (v : W32) : fElem fp32 v.toNat 0 = v.toNat := by
  change v.toNat / 2 ^ (32 * 0) % 2 ^ 32 = _
  rw [Nat.mul_zero, Nat.pow_zero, Nat.div_one, Nat.mod_eq_of_lt v.isLt]

theorem scale_zero (v : FVal) : v.scale 0 = v := by
  cases v with
  | fin s m e => rw [FVal.scale, Int.add_zero]
  | _ => rfl

/-- An unscaled, unclamped result is rounded once. -/
theorem fFinish_plain (F : FFmt) (rm : Rm) (v : FVal) : fFinish F rm noMods v = F.encode rm v := by
  change F.encode rm (v.scale 0) = _
  rw [scale_zero]

/-- A plain float operation of words. -/
theorem writes_of_floatWord {srcs : List Opnd} {g : FFmt → Nat → Nat → Nat → Nat}
    (hr : Runs (floatOp .f32 noMods srcs d lat g).form i s e c)
    (hx : exec ins s = (floatOp .f32 noMods srcs d lat g).run i s) :
    Writes ins (floatOp .f32 noMods srcs d lat g).form s e c d 1 fun l =>
      g fp32 (c.rd 0 (srcs.getD 0 .zero) l).toNat (c.rd 1 (srcs.getD 1 .zero) l).toNat (c.rd 2 (srcs.getD 2 .zero) l).toNat := by
  have hw := writes_of_floatOp hr hx
  simp only [noMods, ftyFmt, fSrc_plain] at hw
  refine hw.congr fun l k hk => ?_
  rw [← regOf_mod _ 1 k hk, ← regOf_mod (g _ _ _ _) 1 k hk]
  congr 1
  change sideBySide 32 1 _ % _ = _
  rw [← packElems_eq, packElems_word]
  simp only [fElem_word]

/-- A plain operation on two FP32 words, rounded once. -/
theorem writes_of_fp32Word {g : FVal → FVal → FVal}
    (hr : Runs (floatOp .f32 noMods [a, b] d lat fun F x y _ => fFinish F .rne noMods (g (F.decode x) (F.decode y))).form i s e c)
    (hx : exec ins s = (floatOp .f32 noMods [a, b] d lat fun F x y _ =>
      fFinish F .rne noMods (g (F.decode x) (F.decode y))).run i s) :
    Writes ins (floatOp .f32 noMods [a, b] d lat fun F x y _ => fFinish F .rne noMods (g (F.decode x) (F.decode y))).form s e c d 1
      fun l => fp32.encode .rne (g (fp32.decode (c.rd 0 a l).toNat) (fp32.decode (c.rd 1 b l).toNat)) := by
  have hw := writes_of_floatWord hr hx
  simp only [fFinish_plain] at hw
  exact hw

/-- A plain operation on the two BF16 halves of two words. -/
theorem writes_of_bf16Pair {g : FVal → FVal → FVal}
    (hr : Runs (floatOp .bf16x2 noMods [a, b] d lat fun F x y _ => fFinish F .rne noMods (g (F.decode x) (F.decode y))).form i s e c)
    (hx : exec ins s = (floatOp .bf16x2 noMods [a, b] d lat fun F x y _ =>
      fFinish F .rne noMods (g (F.decode x) (F.decode y))).run i s) :
    Writes ins (floatOp .bf16x2 noMods [a, b] d lat fun F x y _ => fFinish F .rne noMods (g (F.decode x) (F.decode y))).form s e c d 1
      fun l => sideBySide 16 2 fun k => bf16.encode .rne (g (bf16.decode ((c.rd 0 a l).toNat / 2 ^ (16 * k) % 2 ^ 16))
        (bf16.decode ((c.rd 1 b l).toNat / 2 ^ (16 * k) % 2 ^ 16))) := by
  have hw := writes_of_floatOp hr hx
  simp only [fFinish_plain] at hw
  simp only [noMods, fSrc_plain] at hw
  exact hw

/-- A plain function of one word. -/
theorem writes_of_fnWord {g : FVal → FVal} (hr : Runs (fnOp .rne noMods d a g).form i s e c)
    (hx : exec ins s = (fnOp .rne noMods d a g).run i s) :
    Writes ins (fnOp .rne noMods d a g).form s e c d 1 fun l => fp32.encode .rne (g (fp32.decode (c.rd 0 a l).toNat)) := by
  have hw := writes_of_fnOp hr hx
  simp only [fFinish_plain] at hw
  simp only [Ctx.fltSrc, noMods, fSrc_plain, fElem_word] at hw
  exact hw

end Sys2Proof.Machine
end

section
/-! The compact words one by one (R72). -/

namespace Sys2Proof.Machine

/-- The smaller and the larger of two signed words. -/
theorem ofInt_min (x y : W32) : BitVec.ofInt 32 (min x.toInt y.toInt) = if y.slt x then y else x := by
  simp only [BitVec.slt, decide_eq_true_eq]
  rcases Int.lt_or_le y.toInt x.toInt with h | h
  · rw [if_pos h, Int.min_eq_right h.le, BitVec.ofInt_toInt]
  · rw [if_neg (Int.not_lt.mpr h), Int.min_eq_left h, BitVec.ofInt_toInt]

theorem ofInt_max (x y : W32) : BitVec.ofInt 32 (max x.toInt y.toInt) = if x.slt y then y else x := by
  simp only [BitVec.slt, decide_eq_true_eq]
  rcases Int.lt_or_le x.toInt y.toInt with h | h
  · rw [if_pos h, Int.max_eq_right h.le, BitVec.ofInt_toInt]
  · rw [if_neg (Int.not_lt.mpr h), Int.max_eq_left h, BitVec.ofInt_toInt]

theorem ofInt_sub_toInt {n : Nat} (x y : BitVec n) : BitVec.ofInt n (x.toInt - y.toInt) = x - y := by
  rw [Int.sub_eq_add_neg, BitVec.ofInt_add, BitVec.ofInt_neg, BitVec.ofInt_toInt, BitVec.ofInt_toInt, BitVec.sub_eq_add_neg]

theorem ofInt_add_toInt {n : Nat} (x y : BitVec n) : BitVec.ofInt n (x.toInt + y.toInt) = x + y := by
  rw [BitVec.ofInt_add, BitVec.ofInt_toInt, BitVec.ofInt_toInt]

theorem ofInt_mul_toInt {n : Nat} (x y : BitVec n) : BitVec.ofInt n (x.toInt * y.toInt) = x * y := by
  rw [BitVec.ofInt_mul, BitVec.ofInt_toInt, BitVec.ofInt_toInt]

/-- How probe mode marks a cross-lane form says nothing of when it runs and what it writes outside that mode. -/
theorem laneForm_runs {srcs : List Field} {d : Opnd} {n : Nat} {i : Iss} {s : State} {e : Env} {c : Ctx}
    (hr : Runs (crossForm srcs d n) i s e c) : Runs (laneForm srcs d n) i s e c := ⟨hr.env, hr.calm, hr.go, hr.lane⟩

theorem laneForm_writes {ins : Instr} {srcs : List Field} {d d' : Opnd} {n n' : Nat} {s : State} {e : Env} {c : Ctx}
    {val : Nat → Nat} (hw : Writes ins (laneForm srcs d n) s e c d' n' val) : Writes ins (crossForm srcs d n) s e c d' n' val := by
  obtain ⟨t, u, ht, ho, hu⟩ := hw
  exact ⟨t, u, ht, ho, hu.vec, hu.sca, hu.idx, hu.rest⟩

end Sys2Proof.Machine

open Sys2Proof Sys2Proof.Machine

/-- Settles O40: each word runs the meaning of its full form, whose value on plain sources is the word's. -/
theorem compactArithmetic : Obligations.CompactArithmetic := by
  unfold Obligations.CompactArithmetic
  intro w d b s e c iss two one three wide x y a n fx fy fa pk ov cmp hb hd
  refine ⟨fun hr => ⟨?_, ?_, ?_, ?_, ?_, ?_, ?_, ?_, ?_, ?_⟩, fun hr => ?_, fun hr => ⟨?_, ?_, ?_, ?_, ?_, ?_, ?_, ?_⟩,
    fun hr => ⟨?_, ?_, ?_⟩, fun hr => ⟨?_, ?_, ?_⟩, fun hr => ⟨?_, ?_⟩, fun hr => ⟨?_, ?_⟩, fun hr => ⟨?_, ?_⟩, fun hr => ?_,
    fun hr => ?_, fun himm hr => ?_⟩
  · exact writes_of_word (g := fun x y => x + y) ofInt_add_toInt hr (compactRun_bin rfl hb hd rfl)
  · exact writes_of_word (g := fun x y => x - y) ofInt_sub_toInt hr (compactRun_bin rfl hb hd rfl)
  · have hw := writes_of_word (ins := .compactIminS32 w) (g := min) ofInt_min hr (compactRun_bin rfl hb hd rfl)
    simp only [apply_ite BitVec.toNat] at hw
    exact hw
  · have hw := writes_of_word (ins := .compactImaxS32 w) (g := max) ofInt_max hr (compactRun_bin rfl hb hd rfl)
    simp only [apply_ite BitVec.toNat] at hw
    exact hw
  · exact writes_of_logicWord (g := fun x y => x &&& y) (fun _ _ => rfl) hr (compactRun_bin rfl hb hd rfl)
  · exact writes_of_logicWord (g := fun x y => x ||| y) (fun _ _ => rfl) hr (compactRun_bin rfl hb hd rfl)
  · exact writes_of_logicWord (g := fun x y => x ^^^ y) (fun _ _ => rfl) hr (compactRun_bin rfl hb hd rfl)
  · exact writes_of_shiftWord (g := fun x n => x * 2 ^ n) (g' := fun x n => x <<< n)
      (fun x k _ => by rw [BitVec.toNat_shiftLeft, Nat.shiftLeft_eq]) hr (compactRun_bin rfl hb hd rfl)
  · exact writes_of_shiftWord (g := fun x n => x / 2 ^ n) (g' := fun x n => x >>> n)
      (fun x k _ => by
        rw [BitVec.toNat_ushiftRight, Nat.shiftRight_eq_div_pow, Nat.mod_eq_of_lt ((Nat.div_le_self _ _).trans_lt x.isLt)])
      hr (compactRun_bin rfl hb hd rfl)
  · exact writes_of_shiftWord (g := fun x n => wrapInt (wBits 0) ((readInt true (wBits 0) x).fdiv ((2 ^ n : Nat) : Int)))
      (g' := fun x n => x.sshiftRight n)
      (fun x k _ => by
        change wrapInt 32 ((readInt true 32 x.toNat).fdiv _) % _ = _
        rw [sshiftRight_toNat (by decide), BitVec.ofNat_toNat, BitVec.setWidth_eq, Nat.mod_eq_of_lt (BitVec.isLt _)])
      hr (compactRun_bin rfl hb hd rfl)
  · have hw := writes_of_intOp2 (ins := .compactIaddS64 w) (ty := .s64) (sat := false) (m := noMods) (g := fun x y => x + y) hr
      (compactRun_bin rfl hb hd rfl)
    simp only [noMods, intResult_s64, intSrc_s64, ofInt_add_toInt] at hw
    exact hw
  · exact writes_of_word (g := fun x y => x * y) ofInt_mul_toInt hr (compactRun_bin rfl hb hd rfl)
  · exact writes_of_fp32Word (g := fun u v => FVal.sum .rne [u, v]) hr (compactRun_bin rfl hb hd rfl)
  · exact writes_of_fp32Word (g := fun u v => FVal.sum .rne [u, v.neg]) hr (compactRun_bin rfl hb hd rfl)
  · exact writes_of_fp32Word (g := fun u v => u.mul v) hr (compactRun_bin rfl hb hd rfl)
  · exact writes_of_floatWord (srcs := [d, b]) (g := fun f x y _ => clampIf f noMods (fMinMax f false x y)) hr
      (compactRun_bin rfl hb hd rfl)
  · exact writes_of_floatWord (srcs := [d, b]) (g := fun f x y _ => clampIf f noMods (fMinMax f true x y)) hr
      (compactRun_bin rfl hb hd rfl)
  · exact writes_of_bf16Pair (g := fun u v => FVal.sum .rne [u, v]) hr (compactRun_bin rfl hb hd rfl)
  · exact writes_of_bf16Pair (g := fun u v => u.mul v) hr (compactRun_bin rfl hb hd rfl)
  · exact writes_of hr (compactRun_bin (ins := .compactMov w) rfl hb hd rfl) rfl
  · exact writes_of_countOp (w := 0) (g := popNat) hr (compactRun_bin rfl hb hd rfl)
  · refine ⟨_, writes_of_countOp (w := 0) (g := clzNat) hr (compactRun_bin rfl hb hd rfl), fun l => ?_⟩
    obtain ⟨hle, hzero, hone⟩ := clzNat_spec 32 (a l).toNat
    refine ⟨hle, fun j hj => ?_, hone⟩
    rcases Nat.lt_or_ge j 32 with hlt | hge
    · exact hzero j hj hlt
    · exact BitVec.getLsbD_of_ge _ _ hge
  · exact writes_of_fnWord (g := FVal.rcp) hr (compactRun_bin rfl hb hd rfl)
  · exact writes_of_fnWord (g := FVal.rsqrt) hr (compactRun_bin rfl hb hd rfl)
  · exact writes_of_fnWord (g := FVal.exp2) hr (compactRun_bin rfl hb hd rfl)
  · have hw : Writes (.compactCvtF32Bf16lo w) three s e c d 1 fun l =>
        fp32.encode .rne (bf16.decode (fElem bf16 (a l).toNat 0)) := writes_of hr (compactRun_bin (ins := .compactCvtF32Bf16lo w) rfl hb hd rfl) rfl
    simp only [fElem, Nat.mul_zero, Nat.pow_zero, Nat.div_one] at hw
    exact hw
  · have hw : Writes (.compactCvtBf16F32 w) three s e c d 1 fun l =>
        narrowTo bf16 (polBf16 (c.begun three e iss).ov) .rne (fSrc fp32 false false (a l) 0) +
          2 ^ 16 * narrowTo bf16 (polBf16 (c.begun three e iss).ov) .rne (fSrc fp32 false false 0 0) :=
      writes_of hr (compactRun_bin (ins := .compactCvtBf16F32 w) rfl hb hd rfl) rfl
    simp only [begun_ov hr, fSrc_plain, fElem_word] at hw
    exact hw
  · have hw : Writes (.compactItofS32 w) (one 6) s e c d 1 fun l =>
        fp32.encode .rne ((FVal.fin (decide (readInt true 32 (a l).toNat < 0)) (readInt true 32 (a l).toNat).natAbs 0).scale 0) :=
      writes_of hr (compactRun_bin (ins := .compactItofS32 w) rfl hb hd rfl) rfl
    simp only [readInt_signed_word, scale_zero] at hw
    exact hw
  · have hw : Writes (.compactFtoiS32 w) (one 6) s e c d 1 fun l =>
        ftoiNarrow (polQ8 (c.begun (one 6) e iss).ov) true 32 .rne ((fp32.decode (fSrc fp32 false false (a l) 0)).scale 0) :=
      writes_of hr (compactRun_bin (ins := .compactFtoiS32 w) rfl hb hd rfl) rfl
    simp only [begun_ov hr, fSrc_plain, fElem_word, scale_zero] at hw
    exact hw
  · have hw : cmp (maskForm [fA d 1, fB b 1] 7 4) (.compactIcmpEq w) fun l =>
        decide (readInt true 32 (x l).toNat = readInt true 32 (y l).toNat) :=
      sets_pred_of hr rfl (compactRun_bin (ins := .compactIcmpEq w) rfl hb hd rfl) rfl
    simp only [readInt_signed_word, BitVec.toInt_inj] at hw
    exact hw
  · have hw : cmp (maskForm [fA d 1, fB b 1] 7 4) (.compactIcmpLtS32 w) fun l =>
        decide (readInt true 32 (x l).toNat < readInt true 32 (y l).toNat) :=
      sets_pred_of hr rfl (compactRun_bin (ins := .compactIcmpLtS32 w) rfl hb hd rfl) rfl
    simp only [readInt_signed_word] at hw
    exact hw
  · have hw : cmp (maskForm [fA d 1, fB b 1] 7 6) (.compactFcmpLt w) fun l =>
        fcmpHolds .lt (fp32.decode (fSrc fp32 false false (x l) 0)) (fp32.decode (fSrc fp32 false false (y l) 0)) :=
      sets_pred_of hr rfl (compactRun_bin (ins := .compactFcmpLt w) rfl hb hd rfl) rfl
    simp only [fSrc_plain, fElem_word] at hw
    exact hw
  · exact writes_of hr (compactRun_bin (ins := .compactSel w) rfl hb hd rfl) rfl
  · have hw := writes_of_tshfl (ins := .compactTshflXor w) (laneForm_runs hr) (compactRun_bin (if_pos himm) hb hd rfl)
    simp only [Bool.and_eq_true, decide_eq_true_eq] at hw
    simp only [shflLane, Int.natCast_nonneg, if_true, Int.toNat_natCast] at hw
    exact laneForm_writes hw

end

section
/-! The issuing record (R77, R128, R129): what an issue makes of it, and that a lone record survives what follows. -/

namespace Sys2Proof.Machine

/-- A record after the issue of forms has been recorded. -/
def issuedRec (fs : List (Form × Ctx)) (e : Env) (i : Iss) (r : Record) : Record :=
  let w := fs.foldl (fun n p => max n (passCount e p.1 p.2.m)) 1
  let t' := e.rcd.etime + (w - 1) + max i.stall 1
  let new := (fs.filter fun p => !(p.2.m == 0)).flatMap fun p => newPends p.2 p.1
  { r with pc := r.pc + w64 i.len, etime := t', pend := mergePends t' r.pend new, yielded := false, aged := false,
           wait := .ready, readySince := e.s.time, issuedAt := e.s.issueCtr }

theorem begun_records (t : Team) (fs : List (Form × Ctx)) (e : Env) (i : Iss) :
    (t.begun fs e i).records = t.records.map fun r => if r.num = e.who.sub then issuedRec fs e i r else r := rfl

theorem getEnv_num {s : State} {e : Env} (h : getEnv s = some e) : e.rcd.num = e.who.sub := by
  obtain ⟨-, hwho, -, -, hrec, -⟩ := getEnv_spec h
  rw [hwho]
  simpa using List.find?_some hrec

/-- A team of one record, when its issue is recorded. -/
theorem begun_lone {s : State} {e : Env} (h : getEnv s = some e) (hl : e.team.records = [e.rcd]) (fs : List (Form × Ctx)) (i : Iss) :
    (e.team.begun fs e i).records = [issuedRec fs e i e.rcd] := by
  rw [begun_records, hl, List.map_singleton, if_pos (getEnv_num h)]

/-- A lone record that waits at no `JOIN` outlasts what follows an effect: only index registers change. -/
theorem ended_lone {t : Team} {r : Record} (hp : t.probe = none) (hr : t.records = [r]) (hj : r.wait.isJoin = false)
    (fs : List (Form × Ctx)) (now : Nat) : t.ended fs now = fs.foldl (fun t p => postStep p.2.m p.1.indexes t) t := by
  have hrec : (fs.foldl (fun t p => postStep p.2.m p.1.indexes t) t).records = [r] :=
    (congrArg Team.records (onlyX_steps fs t)).trans hr
  rw [ended_calm t fs now hp, fuse_one now _ (by rw [hrec]; exact Nat.le_refl 1) (by rw [hrec]; simp [hj])]

/-- A form that names no index register steps none. -/
theorem postStep_nil (m : LaneMask) (t : Team) : postStep m [] t = t := rfl

/-! A destination in any team, and two bodies' effects one after the other. -/

/-- What a destination makes of any team: its registers in the lanes, every other as it stood. -/
theorem putTeam_any (c : Ctx) (d : Opnd) (n : Nat) (val : Nat → Nat) (t : Team) :
    c.putTeam d n val t = { t with v := (c.putTeam d n val t).v, s := (c.putTeam d n val t).s } ∧
      (∀ r l, l < 1024 → (c.putTeam d n val t).getV r l = match c.firstReg d l with
        | some r0 => if l ∈ c.lanes ∧ r0 ≤ r ∧ r < r0 + n then regOf (val l) (r - r0) else t.getV r l
        | none => t.getV r l) ∧
      ∀ r, (c.putTeam d n val t).getS r = match d with
        | .s r0 => if r0.val ≤ r ∧ r < r0.val + n then regOf (val 0) (r - r0.val) else t.getS r
        | _ => t.getS r :=
  putTeam_spec { c with e := { c.e with team := { c.e.team with v := t.v, s := t.s } } } d n val t rfl rfl

/-- TWO BODIES THAT EXECUTE: the team takes the one's effect and then the other's, between the issue and what follows it. -/
theorem pair_effect {fa fb : Form} {ia ib : Iss} {s : State} {e : Env} {ca cb : Ctx} {effa effb : Ctx → Res} {Ga Gb : Team → Team}
    (hGa : ∀ t, (Ga t).idx = t.idx) (hGb : ∀ t, (Gb t).idx = t.idx) (hra : Runs fa ia s e ca) (hrb : Runs fb ib s e cb)
    (hea : ∀ t, effa { ca with s := t } = .done (ca.modTeam t Ga)) (heb : ∀ t, effb { cb with s := t } = .done (cb.modTeam t Gb)) :
    let i : Iss := { ia with len := 8, ilen := 3 }
    let fs := [(fa, ca), (fb, cb)]
    ∃ t fs', issuePair fa fb ia ib effa effb s = .next t ∧ (fs'.map fun p => (p.1.indexes, p.2.m)) = fs.map (fun p => (p.1.indexes, p.2.m)) ∧
      OnlyTeam e s t ((Gb (Ga (e.team.begun fs e { i with stall := max ia.stall ib.stall }))).ended fs' s.time) := by
  intro i fs
  have hes := (getEnv_spec hra.env).1
  have hcae := hra.ctx.1
  have hcbe := hrb.ctx.1
  obtain ⟨s1, hs1⟩ : ∃ s1, s1 = beginIssue fs e { i with stall := max ia.stall ib.stall } := ⟨_, rfl⟩
  obtain ⟨fs', hfs'⟩ : ∃ fs' : List (Form × Ctx), fs' = [(fa, { ca with s := s1 }), (fb, { cb with s := s1 })] := ⟨_, rfl⟩
  have hba : bodyEffect fa { ca with s := s1 } effa = .done (s1.modTeam e.who.bid e.who.team Ga) := by
    have hm : ({ ca with s := s1 } : Ctx).m ≠ 0 := hra.lane
    have hpr : ({ ca with s := s1 } : Ctx).e.probing = false := (congrArg Env.probing hcae).trans hra.calm
    rw [bodyEffect, if_neg hm, hpr, if_neg nofun, hea, Ctx.modTeam, hcae]
  have hbb : ∀ t, bodyEffect fb { cb with s := t } effb = .done (t.modTeam e.who.bid e.who.team Gb) := by
    intro t
    have hm : ({ cb with s := t } : Ctx).m ≠ 0 := hrb.lane
    have hpr : ({ cb with s := t } : Ctx).e.probing = false := (congrArg Env.probing hcbe).trans hrb.calm
    rw [bodyEffect, if_neg hm, hpr, if_neg nofun, heb, Ctx.modTeam, hcbe]
  have hrun : issuePair fa fb ia ib effa effb s =
      .next (finish fs' e ((s1.modTeam e.who.bid e.who.team Ga).modTeam e.who.bid e.who.team Gb)) := by
    rw [issuePair, hra.env]
    simp only [runPair, hra.calm, Bool.false_and, Bool.false_eq_true, if_false, hra.go, hrb.go]
    rw [← hs1, hba]
    simp only [hbb, conclude, hfs']
  let F : Team → Team := fun t =>
    (Gb (Ga (t.begun fs e { i with stall := max ia.stall ib.stall }))).ended fs' s.time
  have hF : ∀ t, (F t).idx = t.idx := fun t => (ended_idx _ _ _).trans ((hGb _).trans (hGa _))
  refine ⟨_, fs', hrun, by rw [hfs']; rfl, ?_⟩
  have honly := onlyTeam_of hra.env F hF (s.issueCtr + 1) (s.freeCtr + 1)
  have hfin : finish fs' e ((s1.modTeam e.who.bid e.who.team Ga).modTeam e.who.bid e.who.team Gb) =
      State.modTeam { s with issueCtr := s.issueCtr + 1, freeCtr := s.freeCtr + 1 } e.who.bid e.who.team F := by
    rw [finish_eq _ _ _ hra.calm, hs1, beginIssue_eq, hes]
    rw [modTeam_three _ _ _ (fun t => t.begun fs e { i with stall := max ia.stall ib.stall }) Ga Gb (fun t => rfl) hGa]
    exact State.modTeam_modTeam _ _ _ _ _ fun t => (hGb _).trans (hGa _)
  rw [hfin]
  exact honly

end Sys2Proof.Machine
end

section
/-! Pairs (R73 to R75): the bodies of a pair, their operands, and what both leave of the team. -/

namespace Sys2Proof.Machine

/-! Operand codes and R74's rules. -/

/-- The code that names an operand is the operand's own. -/
theorem opndCode_of_opndOf {n : Nat} {o : Opnd} (h : opndOf n = some o) : opndCode o = n := by
  unfold opndOf at h
  split at h
  · cases h; rfl
  · split at h
    · cases h; simp only [opndCode]; omega
    · split at h
      · cases h; simp only [opndCode]; omega
      · repeat' split at h
        all_goals first | (cases h; simp only [opndCode]; omega) | cases h

theorem cD_code {w : CRaw} {d : Opnd} (h : cD w = some d) : opndCode d = w.d.toNat := by
  rw [cD] at h
  split at h
  · cases h
  · exact opndCode_of_opndOf h

theorem not_x_of_code {o : Opnd} {n : Nat} (hc : opndCode o = n) (hn : isIndexed n = false) (q : Fin 8) : o ≠ .x q := by
  rintro rfl
  have hlt := q.isLt
  simp only [opndCode] at hc
  simp only [isIndexed, decide_eq_false_iff_not] at hn
  omega

/-- A body that R74 admits names no index register as its destination, and as its source. -/
theorem not_x_of_bodyIndexed {p : PBody} {d b : Opnd} (hc : p.cop ≠ 0) (h : bodyIndexed p = false) (hd : cD p.w = some d)
    (hb : cB p.w = some b) (q : Fin 8) : d ≠ .x q ∧ b ≠ .x q := by
  have hcop : (p.cop != 0) = true := by simpa using hc
  rw [bodyIndexed, hcop, Bool.true_and, Bool.or_eq_false_iff] at h
  obtain ⟨hdi, hbi⟩ := h
  refine ⟨not_x_of_code (cD_code hd) hdi q, ?_⟩
  rw [cB] at hb
  split at hb
  · cases hb; exact nofun
  · next himm =>
    have hn : isIndexed p.w.b.toNat = false := by simpa [himm] using hbi
    exact not_x_of_code (opndCode_of_opndOf hb) hn q

/-- The destinations of the bodies of an admitted pair differ where they are registers. -/
theorem dst_ne_of_pairOk {p q : PBody} {da db : Opnd} (hok : pairOk p q = true) (hp : p.cop.val ∈ [1, 2, 3, 7, 8, 9])
    (hq : q.cop.val ∈ [1, 2, 3, 7, 8, 9]) (hda : cD p.w = some da) (hdb : cD q.w = some db) (hreg : opndCode da < 0xF0) : da ≠ db := by
  have dst : ∀ {r : PBody} {d : Opnd}, r.cop.val ∈ [1, 2, 3, 7, 8, 9] → cD r.w = some d → opndCode d < 0xF0 →
      bodyDst r = [opndCode d] := by
    intro r d hr hd hlt
    have h0 : ¬ r.cop = 0 := fun h => by rw [h] at hr; revert hr; decide
    have hcmp : ¬ (bodyCmp r = true ∨ r.cop.val = 35 ∨ r.cop.val = 37) := by
      simp only [List.mem_cons, List.not_mem_nil, or_false] at hr
      simp only [bodyCmp, Bool.or_eq_true, beq_iff_eq]
      omega
    have hwide : (r.cop.val == 13) = false := by
      simp only [List.mem_cons, List.not_mem_nil, or_false] at hr
      simp only [beq_eq_false_iff_ne]
      omega
    rw [bodyDst, if_neg hcmp, bodyD, if_neg h0, hwide, ← cD_code hd, codeRegs, if_neg (Nat.not_le.mpr hlt), if_neg nofun]
  rintro rfl
  have hdst : (bodyDst p).any (fun r => (bodyDst q).contains r) = true := by
    rw [dst hp hda hreg, dst hq hdb hreg]; simp
  simp only [pairOk, hdst, Bool.not_true, Bool.and_false, Bool.false_and] at hok
  exact absurd hok nofun

theorem pairOk_indexed {p q : PBody} (hok : pairOk p q = true) : bodyIndexed p = false ∧ bodyIndexed q = false := by
  simp only [pairOk, Bool.and_eq_true, Bool.not_eq_true'] at hok
  exact ⟨hok.1.1.1.1.2, hok.1.1.1.2⟩

/-! A body's meaning. -/

/-- What a body of a pair runs: a form whose effect gives a destination of one register a value, whatever state it starts in. -/
def BodyRuns (p other : PBody) (f : Form) (c : Ctx) (d : Opnd) (val : Nat → Nat) : Prop :=
  ∃ (eff : Ctx → Res) (out : Nat → Nat), pairBody p other = (cissOf (cHdr p.w), ⟨f, eff⟩) ∧ (∀ l, w32 (out l) = w32 (val l)) ∧
    ∀ t, eff { c with s := t } = .done (c.modTeam t (c.putTeam d 1 out))

variable {p q other : PBody} {d b : Opnd} {f : Form} {c : Ctx} {s : State} {e : Env}

/-- A body that is no `nop` and whose compact word expands runs that form's meaning. -/
theorem pairBody_bin {i : Instr} {g : Opnd → Opnd → Instr} {h : Hdr} {o : Op} (hc : p.cop ≠ 0) (hi : bodyInstr p = some i)
    (hx : expand i = cBin p.w g) (hd : cD p.w = some d) (hb : cB p.w = some b) (ho : compactOp (g d b) = some (h, o)) :
    pairBody p other = (cissOf h, o) := by
  have hj : expand i = some (g d b) := by rw [hx, cBin, hd, hb]
  rw [pairBody, if_neg hc, hi]
  simp only [compactBody, hj, Option.bind_some, ho]

theorem w32_toNat (x : W32) : w32 x.toNat = x := BitVec.eq_of_toNat_eq (by rw [w32, BitVec.toNat_ofNat, Nat.mod_eq_of_lt x.isLt])

/-- A plain operation of two signed words, as a word. -/
theorem w32_intEval {g : Int → Int → Int} {g' : W32 → W32 → W32} (hg : ∀ x y : W32, BitVec.ofInt 32 (g x.toInt y.toInt) = g' x y)
    (x y : W32) : w32 (intEval .s32 false noMods (fun x y _ => g x y) x.toNat y.toNat 0) = w32 (g' x y).toNat := by
  have helem : ∀ z : W32, intElem .s32 false false z.toNat 0 = z.toInt := by
    intro z
    change readInt true 32 (z.toNat / 2 ^ (32 * 0)) = _
    rw [Nat.mul_zero, Nat.pow_zero, Nat.div_one, readInt_signed_word]
  rw [intEval_eq, intResult_s32]
  change w32 (BitVec.ofInt 32 (g (intElem .s32 false false x.toNat 0) (intElem .s32 false false y.toNat 0))).toNat = _
  rw [helem, helem, hg]

/-- What an operation of two typed sources makes of its team, whatever state it starts in. -/
theorem intOp2_puts {ty : ITy} {sat : Bool} {m : Mods} {lat : Nat} {g : Int → Int → Int} (c : Ctx) (d a b : Opnd) (t : State) :
    (intOp2 ty sat m lat d a b g).eff { c with s := t } = .done (c.modTeam t (c.putTeam d (ityRegs ty)
      fun l => intEval ty sat m (fun x y _ => g x y) (c.rdTy 0 a ty l) (c.rdTy 1 b ty l) 0)) :=
  congrArg Res.done (putOn_eq { c with s := t } d (ityRegs ty) _ t)

/-- What a bitwise major of words makes of its team, whatever state it starts in. -/
theorem logicOp_puts {w : Fin 4} {g : Nat → Nat → Nat} (c : Ctx) (d a b : Opnd) (t : State) :
    (logicOp w d a b g).eff { c with s := t } = .done (c.modTeam t (c.putTeam d (wRegs w)
      fun l => g (c.rdN 0 a (wRegs w) l) (c.rdN 1 b (wRegs w) l))) :=
  congrArg Res.done (putOn_eq { c with s := t } d (wRegs w) _ t)

/-- What a move makes of its team. -/
theorem opMov_puts {w : Fin 4} (c : Ctx) (d a : Opnd) (t : State) :
    (opMov w d a).eff { c with s := t } = .done (c.modTeam t (c.putTeam d (wRegs w) fun l => c.rdN 0 a (wRegs w) l)) :=
  congrArg Res.done (putOn_eq { c with s := t } d (wRegs w) _ t)

/-- The bodies of the statement, by their codes (R72). -/
def PairBody (p : PBody) (d b : Opnd) (f : Form) (c : Ctx) (val : Nat → Nat) : Prop :=
  let x := c.rd 0 d
  let y := c.rd 1 b
  let two := arithForm [fA d 1, fB b 1] d 1 4
  (p.cop = 1 ∧ f = arithForm [fA b 1] d 1 4 ∧ val = fun l => (c.rd 0 b l).toNat) ∨
    (p.cop = 2 ∧ f = two ∧ val = fun l => (x l + y l).toNat) ∨ (p.cop = 3 ∧ f = two ∧ val = fun l => (x l - y l).toNat) ∨
    (p.cop = 7 ∧ f = two ∧ val = fun l => (x l &&& y l).toNat) ∨ (p.cop = 8 ∧ f = two ∧ val = fun l => (x l ||| y l).toNat) ∨
    (p.cop = 9 ∧ f = two ∧ val = fun l => (x l ^^^ y l).toNat)

theorem PairBody.runs {val : Nat → Nat} (h : PairBody p d b f c val) (hs : p.sub = 0) (hd : cD p.w = some d) (hb : cB p.w = some b) :
    BodyRuns p other f c d val := by
  let intWord : (Int → Int → Int) → Nat → Nat := fun g l =>
    intEval .s32 false noMods (fun x y _ => g x y) (c.rdTy 0 d .s32 l) (c.rdTy 1 b .s32 l) 0
  have hread : ∀ k o l, c.rdTy k o .s32 l = (c.rd k o l).toNat := fun _ _ _ => rfl
  have hadd : ∀ l, w32 (intWord (fun x y => x + y) l) = w32 (c.rd 0 d l + c.rd 1 b l).toNat := fun l => by
    simp only [intWord, hread]
    exact w32_intEval ofInt_add_toInt _ _
  have hsub : ∀ l, w32 (intWord (fun x y => x - y) l) = w32 (c.rd 0 d l - c.rd 1 b l).toNat := fun l => by
    simp only [intWord, hread]
    exact w32_intEval ofInt_sub_toInt _ _
  have hi : ∀ n (i : CRaw → Instr), p.cop = n → compactOf n.val 0 p.w = some (i p.w) → bodyInstr p = some (i p.w) := by
    intro n i hn hi
    rw [bodyInstr, hn, hs, hi]
  obtain ⟨hc, rfl, rfl⟩ | ⟨hc, rfl, rfl⟩ | ⟨hc, rfl, rfl⟩ | ⟨hc, rfl, rfl⟩ | ⟨hc, rfl, rfl⟩ | ⟨hc, rfl, rfl⟩ := h
  · exact ⟨(opMov 0 d b).eff, fun l => c.rdN 0 b 1 l, pairBody_bin (hc ▸ nofun) (hi 1 .compactMov hc rfl) rfl hd hb rfl,
      fun l => rfl, opMov_puts c d b⟩
  · exact ⟨(opIadd .s32 false noMods d d b).eff, intWord fun x y => x + y,
      pairBody_bin (hc ▸ nofun) (hi 2 .compactIaddS32 hc rfl) rfl hd hb rfl, hadd, intOp2_puts c d d b⟩
  · exact ⟨(opIsub .s32 false noMods d d b).eff, intWord fun x y => x - y,
      pairBody_bin (hc ▸ nofun) (hi 3 .compactIsubS32 hc rfl) rfl hd hb rfl, hsub, intOp2_puts c d d b⟩
  · exact ⟨(opAnd 0 d d b).eff, fun l => c.rdN 0 d 1 l &&& c.rdN 1 b 1 l,
      pairBody_bin (hc ▸ nofun) (hi 7 .compactAnd hc rfl) rfl hd hb rfl, fun l => rfl, logicOp_puts c d d b⟩
  · exact ⟨(opOr 0 d d b).eff, fun l => c.rdN 0 d 1 l ||| c.rdN 1 b 1 l,
      pairBody_bin (hc ▸ nofun) (hi 8 .compactOr hc rfl) rfl hd hb rfl, fun l => rfl, logicOp_puts c d d b⟩
  · exact ⟨(opXor 0 d d b).eff, fun l => c.rdN 0 d 1 l ^^^ c.rdN 1 b 1 l,
      pairBody_bin (hc ▸ nofun) (hi 9 .compactXor hc rfl) rfl hd hb rfl, fun l => rfl, logicOp_puts c d d b⟩

theorem PairBody.cop_mem {val : Nat → Nat} (h : PairBody p d b f c val) : p.cop.val ∈ [1, 2, 3, 7, 8, 9] := by
  obtain ⟨hc, -⟩ | ⟨hc, -⟩ | ⟨hc, -⟩ | ⟨hc, -⟩ | ⟨hc, -⟩ | ⟨hc, -⟩ := h <;> rw [hc] <;> decide

theorem PairBody.lat {val : Nat → Nat} (h : PairBody p d b f c val) : f.lat = some 4 := by
  obtain ⟨-, rfl, -⟩ | ⟨-, rfl, -⟩ | ⟨-, rfl, -⟩ | ⟨-, rfl, -⟩ | ⟨-, rfl, -⟩ | ⟨-, rfl, -⟩ := h <;> rfl

/-- A body of direct operands names no index register. -/
theorem PairBody.indexes {val : Nat → Nat} (h : PairBody p d b f c val) (hx : ∀ q, d ≠ .x q ∧ b ≠ .x q) : f.indexes = [] := by
  have hvia : ∀ (k : Nat) {o : Opnd}, (∀ q, o ≠ .x q) → (Field.opnd k o 1).via = none := by
    intro k o ho
    cases o with
    | x q => exact absurd rfl (ho q)
    | _ => rfl
  have hd := hvia 3 fun q => (hx q).1
  have hd0 := hvia 0 fun q => (hx q).1
  have hb := hvia 1 fun q => (hx q).2
  have hb0 := hvia 0 fun q => (hx q).2
  obtain ⟨-, rfl, -⟩ | ⟨-, rfl, -⟩ | ⟨-, rfl, -⟩ | ⟨-, rfl, -⟩ | ⟨-, rfl, -⟩ | ⟨-, rfl, -⟩ := h <;>
    simp [Form.indexes, arithForm, fA, fB, hd, hd0, hb, hb0]

end Sys2Proof.Machine
end

section
/-! What both bodies leave of the team. -/

namespace Sys2Proof.Machine

/-- Fixed-latency forms clear no ready bit. -/
theorem begun_waits_nil {fs : List (Form × Ctx)} (h : ∀ p ∈ fs, p.1.lat.isSome = true) (t : Team) (e : Env) (i : Iss) :
    (t.begun fs e i).waits = t.waits := by
  have hnil : (fs.filter fun p => !(p.2.m == 0)).flatMap
      (fun p => if p.1.lat.isSome then [] else (p.2.named p.1.dsts).map fun k => (k, p.2.m)) = [] :=
    List.flatMap_eq_nil_iff.mpr fun p hp => if_pos (h p (List.mem_of_mem_filter hp))
  change t.waits ++ _ = _
  rw [hnil, List.append_nil]

/-- Forms that name no index register leave fusion alone after the effect. -/
theorem ended_noIndex {t : Team} {fs : List (Form × Ctx)} (hp : t.probe = none) (h : ∀ p ∈ fs, p.1.indexes = []) (now : Nat) :
    t.ended fs now = t.fuse now := by
  rw [ended_calm t fs now hp]
  have hid : ∀ (fs : List (Form × Ctx)) (t : Team), (∀ p ∈ fs, p.1.indexes = []) →
      fs.foldl (fun t p => postStep p.2.m p.1.indexes t) t = t := by
    intro fs
    induction fs with
    | nil => intro t _; rfl
    | cons p fs ih =>
      intro t h
      rw [List.foldl_cons, h p List.mem_cons_self, postStep_nil]
      exact ih t fun q hq => h q (List.mem_cons_of_mem _ hq)
  rw [hid fs t h]

variable {ca cb : Ctx} {da db : Opnd} {va vb : Nat → Nat} {e : Env} {t : Team}

/-- The vector registers after two destinations of one register, of which the first is no other's. -/
theorem two_getV (hca : ca.e = e) (hcb : cb.e = e) (ha : ∀ q, da ≠ .x q) (hb : ∀ q, db ≠ .x q)
    (hne : opndCode da < 0xF0 → da ≠ db) (ht : t.v = e.team.v) {r l : Nat} (hl : l < 1024) :
    (cb.putTeam db 1 vb (ca.putTeam da 1 va t)).getV r l =
      if da = .v ⟨r % 176, Nat.mod_lt r (by decide)⟩ ∧ r < 176 then ca.vAfter da 1 va r l else cb.vAfter db 1 vb r l := by
  have hold : t.getV r l = e.team.getV r l := congrArg (fun v => smGet 0 v (vKey r l)) ht
  by_cases hda : da = .v ⟨r % 176, Nat.mod_lt r (by decide)⟩ ∧ r < 176
  · rw [if_pos hda]
    have hmiss : (cb.putTeam db 1 vb (ca.putTeam da 1 va t)).getV r l = (ca.putTeam da 1 va t).getV r l := by
      obtain ⟨rfl, hr⟩ := hda
      rw [(putTeam_any cb db 1 vb _).2.1 r l hl]
      cases db with
      | v r1 =>
        have hne' : r % 176 ≠ r1.val := fun h => hne (by simp only [opndCode]; omega) (by rw [Opnd.v.injEq]; exact Fin.ext h)
        exact if_neg fun h => by omega
      | x q => exact absurd rfl (hb q)
      | _ => rfl
    rw [hmiss, (putTeam_any ca da 1 va t).2.1 r l hl, hold, ← hca]
    rfl
  · rw [if_neg hda]
    have hmiss : (ca.putTeam da 1 va t).getV r l = e.team.getV r l := by
      rw [(putTeam_any ca da 1 va t).2.1 r l hl, hold]
      cases da with
      | v r0 =>
        have hlt := r0.isLt
        refine if_neg fun h => hda ⟨?_, by omega⟩
        rw [Opnd.v.injEq]
        exact Fin.ext (show r0.val = r % 176 by omega)
      | x q => exact absurd rfl (ha q)
      | _ => rfl
    rw [(putTeam_any cb db 1 vb _).2.1 r l hl, hmiss, ← hcb]
    rfl

/-- The scalar registers after them. -/
theorem two_getS (hca : ca.e = e) (hcb : cb.e = e) (hne : opndCode da < 0xF0 → da ≠ db) (ht : t.s = e.team.s) (r : Nat) :
    (cb.putTeam db 1 vb (ca.putTeam da 1 va t)).getS r =
      if da = .s ⟨r % 64, Nat.mod_lt r (by decide)⟩ ∧ r < 64 then ca.sAfter da 1 va r else cb.sAfter db 1 vb r := by
  have hold : t.getS r = e.team.getS r := congrArg (fun s => smGet 0 s r) ht
  by_cases hda : da = .s ⟨r % 64, Nat.mod_lt r (by decide)⟩ ∧ r < 64
  · rw [if_pos hda]
    have hmiss : (cb.putTeam db 1 vb (ca.putTeam da 1 va t)).getS r = (ca.putTeam da 1 va t).getS r := by
      obtain ⟨rfl, hr⟩ := hda
      rw [(putTeam_any cb db 1 vb _).2.2 r]
      cases db with
      | s r1 =>
        have hne' : r % 64 ≠ r1.val := fun h => hne (by simp only [opndCode]; omega) (by rw [Opnd.s.injEq]; exact Fin.ext h)
        exact if_neg fun h => by omega
      | _ => rfl
    rw [hmiss, (putTeam_any ca da 1 va t).2.2 r, hold, ← hca]
    rfl
  · rw [if_neg hda]
    have hmiss : (ca.putTeam da 1 va t).getS r = e.team.getS r := by
      rw [(putTeam_any ca da 1 va t).2.2 r, hold]
      cases da with
      | s r0 =>
        have hlt := r0.isLt
        refine if_neg fun h => hda ⟨?_, by omega⟩
        rw [Opnd.s.injEq]
        exact Fin.ext (show r0.val = r % 64 by omega)
      | _ => rfl
    rw [(putTeam_any cb db 1 vb _).2.2 r, hmiss, ← hcb]
    rfl

/-- One register takes only its word of a value. -/
theorem vAfter_congr {c : Ctx} {d : Opnd} {val val' : Nat → Nat} (h : ∀ l, w32 (val l) = w32 (val' l)) (r l : Nat) :
    c.vAfter d 1 val r l = c.vAfter d 1 val' r l := by
  unfold Ctx.vAfter
  cases c.firstReg d l with
  | none => rfl
  | some r0 =>
    simp only
    split
    · have h0 : r - r0 = 0 := by omega
      rw [h0, regOf_zero, regOf_zero, h]
    · rfl

theorem sAfter_congr {c : Ctx} {d : Opnd} {val val' : Nat → Nat} (h : ∀ l, w32 (val l) = w32 (val' l)) (r : Nat) :
    c.sAfter d 1 val r = c.sAfter d 1 val' r := by
  unfold Ctx.sAfter
  cases d with
  | s r0 =>
    simp only
    split
    · have h0 : r - r0.val = 0 := by omega
      rw [h0, regOf_zero, regOf_zero, h]
    · rfl
  | _ => rfl

end Sys2Proof.Machine

open Sys2Proof Sys2Proof.Machine

/-- Settles O41: both bodies' effects are on the team, each from the registers as they stood, and the destinations differ. -/
theorem pairReadsBeforeWriting : Obligations.PairReadsBeforeWriting := by
  unfold Obligations.PairReadsBeforeWriting
  intro p q da ba db bb fa fb va vb s e ca cb body hps hqs hok hda hba hdb hbb hA hB hra hrb
  have hA : PairBody p da ba fa ca va := hA
  have hB : PairBody q db bb fb cb vb := hB
  obtain ⟨effa, outa, hbodya, hsamea, hputa⟩ := hA.runs (other := q) hps hda hba
  obtain ⟨effb, outb, hbodyb, hsameb, hputb⟩ := hB.runs (other := p) hqs hdb hbb
  have hexec : exec (.pair p q) s = issuePair fa fb (cissOf (cHdr p.w)) (cissOf (cHdr q.w)) effa effb s := by
    change execPair p q s = _
    simp only [execPair, hbodya, hbodyb]
  obtain ⟨t, fs', ht, hfs, ho⟩ := pair_effect (putTeam_idx ca da 1 outa) (putTeam_idx cb db 1 outb) hra hrb hputa hputb
  have hpcop : p.cop ≠ 0 := fun h => absurd hA.cop_mem (by rw [h]; decide)
  have hqcop : q.cop ≠ 0 := fun h => absurd hB.cop_mem (by rw [h]; decide)
  have hxa := not_x_of_bodyIndexed hpcop (pairOk_indexed hok).1 hda hba
  have hxb := not_x_of_bodyIndexed hqcop (pairOk_indexed hok).2 hdb hbb
  have hne : opndCode da < 0xF0 → da ≠ db := dst_ne_of_pairOk hok hA.cop_mem hB.cop_mem hda hdb
  obtain ⟨b0, hb0⟩ : ∃ b0, b0 = e.team.begun [(fa, ca), (fb, cb)] e
      { cissOf (cHdr p.w) with len := 8, ilen := 3, stall := max (cissOf (cHdr p.w)).stall (cissOf (cHdr q.w)).stall } := ⟨_, rfl⟩
  have hrest : b0 = { e.team with records := b0.records, waits := b0.waits } := hb0 ▸ begun_rest e.team _ e _ hra.noProbe
  have hwaits : b0.waits = e.team.waits := hb0 ▸ begun_waits_nil (by simp [hA.lat, hB.lat]) e.team e _
  have hputsa := putTeam_any ca da 1 outa b0
  have hputsb := putTeam_any cb db 1 outb (ca.putTeam da 1 outa b0)
  obtain ⟨T, hT⟩ : ∃ T, T = cb.putTeam db 1 outb (ca.putTeam da 1 outa b0) := ⟨_, rfl⟩
  have hTrest : T = { b0 with v := T.v, s := T.s } := by
    rw [hT]
    exact hputsb.1.trans (congrArg (fun u : Team => { u with
      v := (cb.putTeam db 1 outb (ca.putTeam da 1 outa b0)).v, s := (cb.putTeam db 1 outb (ca.putTeam da 1 outa b0)).s }) hputsa.1)
  have hTprobe : T.probe = none := (congrArg Team.probe hTrest).trans ((congrArg Team.probe hrest).trans hra.noProbe)
  have hidx : ∀ x ∈ fs', x.1.indexes = [] := by
    intro x hx
    have hmem := List.mem_map_of_mem (f := fun p : Form × Ctx => (p.1.indexes, p.2.m)) hx
    rw [hfs] at hmem
    simp only [List.map_cons, List.map_nil, hA.indexes hxa, hB.indexes hxb, List.mem_cons, List.not_mem_nil, or_false, Prod.mk.injEq] at hmem
    exact hmem.elim And.left And.left
  have hu := ended_noIndex hTprobe hidx s.time
  have hfuse : T.fuse s.time = { T with records := (T.fuse s.time).records, splits := (T.fuse s.time).splits } := onlyRecs_fuse s.time T
  rw [← hb0, ← hT, hu] at ho
  have hx : T.x = e.team.x := (congrArg Team.x hTrest).trans ((congrArg Team.x hrest).trans rfl)
  have hv0 : b0.v = e.team.v := (congrArg Team.v hrest).trans rfl
  have hs0 : b0.s = e.team.s := (congrArg Team.s hrest).trans rfl
  refine ⟨t, T.fuse s.time, hexec.trans ht, ho, ?_, fun r l hl => ?_, fun r => ?_, fun q l _ => ?_, fun hl => ?_⟩
  · calc T.fuse s.time = { T with records := (T.fuse s.time).records, splits := (T.fuse s.time).splits } := hfuse
      _ = { b0 with v := T.v, s := T.s, records := (T.fuse s.time).records, splits := (T.fuse s.time).splits } :=
        congrArg (fun u : Team => { u with records := (T.fuse s.time).records, splits := (T.fuse s.time).splits }) hTrest
      _ = { e.team with v := T.v, s := T.s, records := (T.fuse s.time).records, splits := (T.fuse s.time).splits, waits := b0.waits } :=
        congrArg (fun u : Team => { u with
          v := T.v, s := T.s, records := (T.fuse s.time).records, splits := (T.fuse s.time).splits }) hrest
      _ = _ := by
        rw [hwaits, (onlyRecs_fuse s.time T).v, (onlyRecs_fuse s.time T).s, (onlyRecs_fuse s.time T).x, hx]
  · have hget : (T.fuse s.time).getV r l = T.getV r l := congrArg (fun v => smGet 0 v (vKey r l)) (onlyRecs_fuse s.time T).v
    rw [hget, hT, two_getV hra.ctx.1 hrb.ctx.1 (fun q => (hxa q).1) (fun q => (hxb q).1) hne hv0 hl, vAfter_congr hsamea,
      vAfter_congr hsameb]
  · have hget : (T.fuse s.time).getS r = T.getS r := congrArg (fun s => smGet 0 s r) (onlyRecs_fuse s.time T).s
    rw [hget, hT, two_getS hra.ctx.1 hrb.ctx.1 hne hs0, sAfter_congr hsamea, sAfter_congr hsameb]
  · exact congrArg (fun x => smGet 0 x (vKey q l)) ((onlyRecs_fuse s.time T).x.trans hx)
  · have hrec : T.records = b0.records := (congrArg Team.records hTrest).trans rfl
    have hone : b0.records = _ := hb0 ▸ begun_lone hra.env hl.1 _ _
    have hT1 : T.fuse s.time = T := fuse_one _ _ (by rw [hrec, hone]; exact Nat.le_refl 1) (by rw [hrec, hone]; rfl)
    exact ⟨_, (congrArg Team.records hT1).trans (hrec.trans hone), rfl, rfl⟩

end

section
/-! The tables and the reset state (R27, R58 to R75, R92, R465). -/

namespace Sys2Proof.Machine

theorem bar_reset (off : Nat) : bar State.reset off = barReset (off / 4) := rfl

/-- Below the bundles' registers every register is 0 at reset. -/
theorem bar_reset_low {off : Nat} (h : off < 0x1A0000) : bar State.reset off = 0 := by
  rw [bar_reset]
  unfold barReset
  dsimp only
  repeat' rw [if_neg (by omega)]

theorem bar64_reset_low {off : Nat} (h : off + 4 < 0x1A0000) : bar64 State.reset off = 0 := by
  rw [bar64, bar_reset_low h, bar_reset_low (by omega)]
  rfl

end Sys2Proof.Machine

open Sys2Proof Sys2Proof.Machine

/-- Settles O54: the decoder, run on each word. -/
theorem decodeWords : Obligations.DecodeWords := by
  unfold Obligations.DecodeWords
  refine ⟨?_, ?_, ?_, ?_, ?_, ?_, ?_, ?_, ?_, ?_, ?_, ?_, ?_, ?_, ?_, ?_, ?_, ?_, ?_, ?_, ?_⟩ <;> decide

/-- Settles O57: the reset state's registers are those of the reset table. -/
theorem resetValues : Obligations.ResetValues := by
  unfold Obligations.ResetValues
  intro s
  refine ⟨rfl, rfl, rfl, rfl, rfl, rfl, fun c => rfl, ?_, ?_, by decide, by decide, fun k => rfl, by decide, by decide, by decide, by decide,
    by decide, by decide, by decide, rfl, rfl, by decide⟩
  · intro c hc
    have hbase : ctxBase c + 0x20 < 0x1A0000 := by unfold ctxBase; omega
    exact ⟨bar_reset_low (by omega), bar64_reset_low (by omega), bar64_reset_low (by omega), bar64_reset_low (by omega)⟩
  · intro q hq off hoff
    exact bar_reset_low (by unfold qBase; omega)

end

section
/-! A step (R12, R59, R80): a decoded instruction is well formed, what a fetch gives, and what passing time changes (R27, R450, R489). -/

namespace Sys2Proof

open Machine

theorem decodeRaw_wf {r : Raw} {i : Instr} (h : decodeRaw r = .ok i) : i.wf = true := by
  unfold decodeRaw at h
  split at h
  · cases h
  · split at h
    · next hwf => cases h; exact (Bool.and_eq_true _ _ ▸ hwf).1
    · cases h

theorem decodeC_wf {w : W32} {i : Instr} (h : decodeC w = .ok i) : i.wf = true := by
  unfold decodeC at h
  split at h
  · cases h
  · split at h
    · next hwf => cases h; exact hwf
    · cases h

theorem decodePair_wf {w0 w1 : W32} {i : Instr} (h : decodePair w0 w1 = .ok i) : i.wf = true := by
  unfold decodePair at h
  dsimp only at h
  split at h
  · cases h
  · next hlegal =>
    split at h
    · cases h
    · next hpair =>
      cases h
      simp only [Bool.not_eq_true', Bool.not_eq_false] at hlegal
      simp only [not_or, Bool.not_eq_true', Bool.not_eq_false] at hpair
      simp only [Instr.wf, legal, hlegal, hpair.2, Bool.and_self]

/-- A word that decodes is a well-formed instruction (R80). -/
theorem decodeWords_wf {l : List W32} {i : Instr} (h : decodeWords l = .ok i) : i.wf = true := by
  unfold decodeWords at h
  split at h
  · cases h
  · split at h
    · exact decodeC_wf h
    · split at h
      · cases h
      · split at h
        · exact decodeRaw_wf h
        · split at h
          · exact decodePair_wf h
          · split at h
            · cases h
            · exact decodeRaw_wf h

theorem decode_wf {l after : List Byte} {i : Instr} (h : decode l = .ok (i, after)) : i.wf = true := by
  unfold decode at h
  split at h
  · cases h
  · next hw => cases h; exact decodeWords_wf hw

end Sys2Proof

namespace Sys2Proof.Machine

/-! What a fetch gives (R59, R80, R250). -/

variable {s : State} {b : Block} {la : Launch} {va : Nat} {tr : Tr} {i : Instr} {after : List Byte}

theorem fetchAt_missing (h : siteTranslate s b la.ctx va = none) : fetchAt s b la va = .missing := by
  rw [fetchAt, h]

theorem fetchAt_perm (h : siteTranslate s b la.ctx va = some tr) (hno : tr.x = false ∨ siteReach b.site tr (tr.phys s va) = false) :
    fetchAt s b la va = .trap cPERM := by
  rw [fetchAt, h]
  refine if_pos ?_
  obtain h | h := hno <;> simp [h]

/-- A page that can be executed is read: nothing stops the fetch before its bytes. -/
theorem fetchAt_readable (h : siteTranslate s b la.ctx va = some tr) (hx : tr.x = true)
    (hkey : (tr.phys s va).kind = .host ∨ (keyGenOf s tr.key).isSome = true) (hreach : siteReach b.site tr (tr.phys s va) = true)
    (hpoison : codePoison s b (tr.phys s va) = false) :
    fetchAt s b la va =
      let bytes := codeBytes s la tr va (min 12 (64 - va % 64))
      if 64 < va % 64 + headLen bytes then .trap cILLOP
      else match decode bytes with
        | .ok (i, _) => .ok i
        | .error .pairv => .trap 0x02
        | .error _ => .trap cILLOP := by
  have hopen : (!tr.x || ((tr.phys s va).kind != .host && (keyGenOf s tr.key).isNone) || !siteReach b.site tr (tr.phys s va)) = false := by
    obtain hk | hk := hkey
    · simp [hx, hreach, hk]
    · simp [hx, hreach, hk]
  rw [fetchAt, h]
  simp only [hopen, hpoison, Bool.false_eq_true, if_false] <;> rfl

theorem fetchAt_ok (h : siteTranslate s b la.ctx va = some tr) (hx : tr.x = true)
    (hkey : (tr.phys s va).kind = .host ∨ (keyGenOf s tr.key).isSome = true) (hreach : siteReach b.site tr (tr.phys s va) = true)
    (hpoison : codePoison s b (tr.phys s va) = false)
    (hlen : va % 64 + headLen (codeBytes s la tr va (min 12 (64 - va % 64))) ≤ 64)
    (hdec : decode (codeBytes s la tr va (min 12 (64 - va % 64))) = .ok (i, after)) : fetchAt s b la va = .ok i := by
  rw [fetchAt_readable h hx hkey hreach hpoison]
  dsimp only
  rw [if_neg (Nat.not_lt.mpr hlen), hdec]

theorem fetchAt_crossing (h : siteTranslate s b la.ctx va = some tr) (hx : tr.x = true)
    (hkey : (tr.phys s va).kind = .host ∨ (keyGenOf s tr.key).isSome = true) (hreach : siteReach b.site tr (tr.phys s va) = true)
    (hpoison : codePoison s b (tr.phys s va) = false)
    (hlen : 64 < va % 64 + headLen (codeBytes s la tr va (min 12 (64 - va % 64)))) : fetchAt s b la va = .trap cILLOP := by
  rw [fetchAt_readable h hx hkey hreach hpoison]
  exact if_pos hlen

/-- Only copies in slices and level-one caches, and the monitors' counts, have changed. -/
structure OnlySwept (s t : State) : Prop where
  frame : t = { s with lines := t.lines, l1 := t.l1, dir := t.dir, mons := t.mons }

theorem OnlySwept.refl (s : State) : OnlySwept s s := ⟨rfl⟩

theorem OnlySwept.trans {s t u : State} (h : OnlySwept s t) (g : OnlySwept t u) : OnlySwept s u :=
  ⟨calc u = { t with lines := u.lines, l1 := u.l1, dir := u.dir, mons := u.mons } := g.frame
      _ = _ := congrArg (fun x : State => { x with lines := u.lines, l1 := u.l1, dir := u.dir, mons := u.mons }) h.frame⟩

theorem OnlySwept.foldl {α : Type} {f : State → α → State} (hf : ∀ s a, OnlySwept s (f s a)) (l : List α) :
    ∀ s, OnlySwept s (l.foldl f s) := by
  induction l with
  | nil => exact OnlySwept.refl
  | cons a l ih => exact fun s => (hf s a).trans (ih _)

theorem dropLines_onlySwept (s : State) (gone : CLine → Bool) : OnlySwept s (dropLines s gone) := by
  constructor
  simp only [dropLines, l1Drop]
  repeat' split
  all_goals rfl

theorem sampleLevels_onlySwept (s : State) (n : Nat) : OnlySwept s (sampleLevels s n) := by
  rw [sampleLevels]
  split
  · exact .refl s
  · refine OnlySwept.foldl (fun s m => ?_) _ s
    dsimp only
    split
    · exact ⟨rfl⟩
    · exact .refl s

/-- What the sweep changes, put back. -/
theorem OnlySwept.restored {s t : State} (h : OnlySwept s t) (n : Nat) :
    { ({ t with time := n } : State) with time := s.time, lines := s.lines, l1 := s.l1, dir := s.dir, mons := s.mons } = s :=
  congrArg (fun x : State => { x with lines := s.lines, l1 := s.l1, dir := s.dir, mons := s.mons, time := s.time }) h.frame

theorem sampleLevels_zero (s : State) : sampleLevels s 0 = s := by
  rw [sampleLevels, if_pos (Or.inl rfl)]

/-- Passing time sweeps leases and samples levels, and moves the meridian. -/
theorem tick_onlySwept (s : State) (ns : Nat) : ∃ u, OnlySwept s u ∧ tick s ns = { u with time := s.time + ns } :=
  ⟨_, (sampleLevels_onlySwept s _).trans (OnlySwept.foldl (fun _ _ => dropLines_onlySwept _ _) _ _), rfl⟩

/-- Within a microsecond nothing but the meridian changes. -/
theorem tick_within {s : State} {ns : Nat} (h : (s.time + ns) / 1000 = s.time / 1000) : tick s ns = { s with time := s.time + ns } := by
  have hsweep : (s.time + ns) / 16000000 = s.time / 16000000 := by omega
  simp only [tick, h, hsweep, Nat.sub_self, sampleLevels_zero, List.range_zero, List.foldl_nil]

end Sys2Proof.Machine

open Sys2Proof Sys2Proof.Machine

/-- Settles O56: an issue fetches and executes where its quadrant chooses the sub-team; an event is executed; time passes by `tick`. -/
theorem stepRunsDecoded : Obligations.StepRunsDecoded := by
  unfold Obligations.StepRunsDecoded
  intro s w rest e i t after ns now s' pc bytes mapped readable goes
  have hes : getEnv s' = some e → e.s = s' := fun h => (getEnv_spec h).1
  refine ⟨fun ha he hm hc => ?_, fun ha he hno => ?_, fun ha hev t ht => ?_, fun ha => ?_⟩
  · have hstep : ∀ f, fetchAt s' e.blk e.la pc = f → step s = moveOn (match f with
        | .ok i => exec i s'
        | f => .next (fetchFail e f)) := by
      intro f hf
      have hand : (mayIssue e.team e.rcd && isChosen s' s'.cur) = true := by rw [hm]; exact hc
      rw [step, ha]
      change moveOn (issueNext s') = _
      rw [issueNext, he]
      simp only [hand, if_true]
      rw [show fetchAt s' e.blk e.la e.rcd.pc.toNat = f from hf] <;> cases f <;> rfl
    refine ⟨fun hmap hread hlen hdec => ⟨decode_wf hdec, fun t ht => ?_⟩, fun hmap hread hlen => ?_, fun hmap hno => ?_, fun hmap => ?_⟩
    · obtain ⟨hx, hkey, hreach, hpoison⟩ := hread
      rw [hstep (.ok i) (fetchAt_ok hmap hx hkey hreach hpoison hlen hdec)]
      exact congrArg moveOn ht
    · obtain ⟨hx, hkey, hreach, hpoison⟩ := hread
      rw [hstep (.trap cILLOP) (fetchAt_crossing hmap hx hkey hreach hpoison hlen)]
      rfl
    · rw [hstep (.trap cPERM) (fetchAt_perm hmap hno)]
      rfl
    · rw [hstep .missing (fetchAt_missing hmap)]
      rfl
  · have hand : (mayIssue e.team e.rcd && isChosen s' s'.cur) = false := by
      obtain h | h := hno
      · rw [h, Bool.false_and]
      · rw [show isChosen s' s'.cur = false from h, Bool.and_false]
    rw [step, ha]
    change moveOn (issueNext s') = _
    rw [issueNext, he]
    simp only [hand, Bool.false_eq_true, if_false]
    rfl
  · rw [step, ha]
    change moveOn (if encode i = [] then exec i now else .next now) = _
    rw [if_pos hev, ht]
    rfl
  · obtain ⟨u, hu, htick⟩ := tick_onlySwept now ns
    refine ⟨by rw [step, ha]; rfl, by rw [htick], ?_, fun h => tick_within (s := now) h⟩
    rw [htick]
    exact hu.restored _

end

section
/-! What an instruction's issue runs, compact words included (R71), and an instruction whose mask holds no lane (R12). -/

namespace Sys2Proof.Machine

variable {i j : Instr} {h : Hdr} {iss : Iss} {s : State} {e : Env} {c : Ctx} {f : Form} {o : Op}

theorem cBin_ne {w : CRaw} {g : Opnd → Opnd → Instr} (hg : ∀ d b, g d b ≠ j) : cBin w g ≠ some j := by
  unfold cBin
  split
  · exact fun hx => hg _ _ (Option.some.inj hx)
  · exact nofun

/-- A compact word that stands for no `NOP` runs what it expands to. -/
theorem exec_of_expand (hx : expand i = some j) (hn : ∀ h, j ≠ .nop h) (s : State) : exec i s = compactRun i s := by
  unfold expand at hx
  split at hx
  case h_1 => cases hx; exact absurd rfl (hn _)
  case h_2 => cases hx; exact absurd rfl (hn _)
  all_goals first | rfl | cases hx

/-- What executes as a form, itself or a compact word of it, runs that form's meaning. -/
theorem Issues.run (hi : Issues i j h iss) (hj : exec j s = o.run (issOf h) s) (ho : compactOp j = some (h, o))
    (hn : ∀ h, j ≠ .nop h) : exec i s = o.run iss s := by
  obtain ⟨rfl, rfl⟩ | ⟨hx, rfl⟩ := hi
  · exact hj
  · rw [exec_of_expand hx hn]
    simp only [compactRun, compactBody, hx, Option.bind_some, ho]

/-- What executes as a `NOP` runs it, its mask ignored (R72, R85, R180). -/
theorem Issues.run_nop (hi : Issues i (.nop h) h iss) : exec i s = opNop.run (nopIss iss) s := by
  obtain ⟨rfl, rfl⟩ | ⟨hx, rfl⟩ := hi
  · rfl
  · unfold expand at hx
    split at hx
    case h_1 => cases hx; rfl
    case h_2 => cases hx; rfl
    all_goals (repeat' split at hx) <;> first
      | cases hx
      | exact absurd hx (cBin_ne fun _ _ => nofun)
      | simp at hx

/-! An empty mask (R12). -/

theorem maskLanes_zero (n : Nat) : maskLanes 0 n = [] := by
  simp [maskLanes]

/-- No lane takes part, so no index register steps. -/
theorem getX_fuse_postStep_zero (qs : List Nat) (hn : qs.Nodup) (now : Nat) (t : Team) (q l : Nat) (hl : l < 1024) :
    ((postStep 0 qs t).fuse now).getX q l = t.getX q l := by
  have hx : ((postStep 0 qs t).fuse now).getX q l = (postStep 0 qs t).getX q l := by
    simp only [Team.getX, (onlyRecs_fuse now (postStep 0 qs t)).x]
  rw [hx, (postStep_spec 0 qs t hn).2 q l hl, maskLanes_zero, if_neg (fun h => nomatch h.2)]

/-- AN INSTRUCTION WHOSE MASK HOLDS NO LANE only moves on: its effect is not run, and its issue clears no ready bit. -/
theorem emptyMask_moves {ins : Instr} {eff : Ctx → Res} (he : getEnv s = some e) (hp : e.probing = false)
    (hg : gate f iss e = .go c) (hm : c.m = 0) (hx : exec ins s = issueForm f iss eff s) :
    ∃ t u, exec ins s = .next t ∧ OnlyTeam e s t u ∧ u = { e.team with x := u.x, records := u.records, splits := u.splits } ∧
      (∀ q l, l < 1024 → u.getX q l = e.team.getX q l) ∧
      (e.team.records = [e.rcd] → ∃ r, u.records = [r] ∧ r.pc = e.rcd.pc + w64 iss.len ∧ r.k0 = e.rcd.k0) := by
  have hes := (getEnv_spec he).1
  have hnp : e.team.probe = none := by simpa [Env.probing] using hp
  let F : Team → Team := fun t => (t.begun [(f, c)] e iss).ended [(f, c.begun f e iss)] s.time
  have hrun : exec ins s = .next (State.modTeam { s with issueCtr := s.issueCtr + 1, freeCtr := s.freeCtr + 1 } e.who.bid e.who.team F) := by
    have hb : bodyEffect f (c.begun f e iss) eff = .done (c.begun f e iss).s := by
      rw [bodyEffect, if_pos (show (c.begun f e iss).m = 0 from hm)]
    rw [hx, issueForm_some he, runForm, hp, Bool.false_and, if_neg nofun, hg]
    show Host.Outcome.next (conclude [(f, c.begun f e iss)] e iss (bodyEffect f (c.begun f e iss) eff)) = _
    rw [hb]
    show Host.Outcome.next (finish _ e (beginIssue [(f, c)] e iss)) = _
    rw [finish_eq _ _ _ hp, beginIssue_eq, hes, State.modTeam_modTeam]
    · rfl
    · exact fun _ => rfl
  obtain ⟨b, hb⟩ : ∃ b, b = e.team.begun [(f, c)] e iss := ⟨_, rfl⟩
  have hbw : b.waits = e.team.waits := by
    simp [hb, Team.begun, Team.modRec, hm]
  have hbr : b = { e.team with records := b.records } := by
    have h := begun_rest e.team [(f, c)] e iss hnp
    rw [← hb, hbw] at h
    exact h
  have hbp : b.probe = none := by rw [hbr]; exact hnp
  have hF : F e.team = b.ended [(f, c.begun f e iss)] s.time := congrArg (fun b => Team.ended b _ _) hb.symm
  refine ⟨_, F e.team, hrun, onlyTeam_of he F (fun _ => ended_idx _ _ _) _ _, ?_, fun q l hl => ?_, fun hl => ?_⟩
  · rw [hF]
    obtain ⟨z, hz⟩ : ∃ z, z = b.ended [(f, c.begun f e iss)] s.time := ⟨_, rfl⟩
    have hzr := ended_rest b [(f, c.begun f e iss)] s.time hbp
    rw [← hz] at hzr ⊢
    exact hzr.trans (congrArg (fun u : Team => { u with x := z.x, records := z.records, splits := z.splits }) hbr)
  · rw [hF, ended_calm b _ s.time hbp]
    have hpost := getX_fuse_postStep_zero f.indexes (List.nodup_dedup _) s.time b q l hl
    rw [← hm] at hpost
    exact hpost.trans (congrArg (fun x => smGet (0 : W32) x (vKey q l)) ((congrArg Team.x hbr).trans rfl))
  · have hone : b.records = [issuedRec [(f, c)] e iss e.rcd] := hb ▸ begun_lone he hl _ _
    have hend := ended_lone hbp hone rfl [(f, c.begun f e iss)] s.time
    refine ⟨issuedRec [(f, c)] e iss e.rcd, ?_, rfl, rfl⟩
    rw [hF, hend]
    exact (congrArg Team.records (onlyX_steps _ b)).trans hone

end Sys2Proof.Machine

open Sys2Proof Sys2Proof.Machine

/-- Settles O6: a `NOP` writes to no destination, and where the mask is empty no effect is run. -/
theorem nopsAndEmptyMasksMoveOn : Obligations.NopsAndEmptyMasksMoveOn := by
  unfold Obligations.NopsAndEmptyMasksMoveOn
  constructor
  · intro h i iss s e c f hi hr
    exact writes_of hr hi.run_nop rfl
  · intro h ty sat sx m mc off d a b x f i s e c hif he hp hg hm
    obtain ⟨rfl, rfl⟩ | ⟨rfl, rfl⟩ | ⟨rfl, rfl⟩ | ⟨rfl, rfl⟩ | ⟨rfl, rfl⟩ | ⟨rfl, rfl⟩ := hif
    · exact emptyMask_moves (eff := (opIadd ty sat m d a b).eff) he hp hg hm rfl
    · exact emptyMask_moves (eff := (opLd mc sx d a b).eff) he hp hg hm rfl
    · exact emptyMask_moves (eff := (opSt mc a b x).eff) he hp hg hm rfl
    · exact emptyMask_moves (eff := (opTrap a).eff) he hp hg hm rfl
    · exact emptyMask_moves (eff := opExit.eff) he hp hg hm rfl
    · exact emptyMask_moves (eff := (opBra off).eff) he hp hg hm rfl

end

section
/-! A lone sub-team (R77, R128): what an effect on its record, and the post-step, leave of its team. -/

namespace Sys2Proof.Machine

variable {i j ins : Instr} {h : Hdr} {iss : Iss} {s : State} {e : Env} {c : Ctx} {f : Form} {eff : Ctx → Res} {t : Team} {r : Record}

/-- A team of one record after the issue of a form. -/
theorem begun_of_lone (hr : Runs f iss s e c) (hl : e.team.records = [e.rcd]) :
    e.team.begun [(f, c)] e iss = { e.team with
      records := [issuedRec [(f, c)] e iss e.rcd]
      waits := e.team.waits ++ (if f.lat.isSome then [] else (c.named f.dsts).map fun k => (k, c.m)) } := by
  have hrest := begun_rest e.team [(f, c)] e iss hr.noProbe
  rwa [begun_lone hr.env hl, begun_waits e.team f e iss c hr.lane] at hrest

/-- A form of known latency, or of no destination, clears no ready bit. -/
theorem begun_of_lone_calm (hr : Runs f iss s e c) (hl : e.team.records = [e.rcd]) (hf : f.lat.isSome = true ∨ f.dsts = []) :
    e.team.begun [(f, c)] e iss = { e.team with records := [issuedRec [(f, c)] e iss e.rcd] } := by
  rw [begun_of_lone hr hl]
  obtain hf | hf := hf
  · rw [if_pos hf, List.append_nil]
  · rw [hf]
    simp [Ctx.named]

theorem modRec_lone (ht : t.records = [r]) (g : Record → Record) : t.modRec r.num g = { t with records := [g r] } := by
  rw [Team.modRec, ht, List.map_singleton, if_pos rfl]

/-- A lone sub-team that waits where it stands; before some waits its outstanding results complete (R78). -/
theorem waitAt_lone (ht : t.records = [r]) (w : Wait) :
    t.waitAt r.num w = { t with records := [{ r with pend := if w.drains then [] else r.pend, wait := w }] } := by
  rw [Team.waitAt]
  split
  · next hd =>
    rw [modRec_lone (t := t.drain) (r := { r with pend := [] }) (by rw [Team.drain, ht]; rfl)]
    rfl
  · exact modRec_lone ht _

/-- AN INSTRUCTION OF A LONE SUB-TEAM whose effect is `G` on its team, which leaves it one record: beside what `G` makes of the team
that issued, only the index registers named step. -/
theorem lone_effect (G : Team → Team) (hG : ∀ t, (G t).idx = t.idx) (hr : Runs f iss s e c) (hx : exec ins s = issueForm f iss eff s)
    (he : eff (c.begun f e iss) = .done (c.modTeam (beginIssue [(f, c)] e iss) G)) {b : Team} (hb : G (e.team.begun [(f, c)] e iss) = b)
    (hp : b.probe = none) (hrec : b.records = [r]) (hj : r.wait.isJoin = false) :
    ∃ t u, exec ins s = .next t ∧ OnlyTeam e s t u ∧ u = { b with x := u.x } ∧ ∀ q l, l < 1024 →
      u.getX q l = if q ∈ f.indexes ∧ l ∈ maskLanes c.m b.lanes then xStepped (b.getX q l) else b.getX q l := by
  obtain ⟨t, ht, ho⟩ := team_effect G hG hr hx he
  rw [hb, ended_lone hp hrec hj] at ho
  obtain ⟨hrest, hidx⟩ := postStep_spec c.m f.indexes b (List.nodup_dedup _)
  exact ⟨t, _, ht, ho, hrest, hidx⟩

/-- AN INSTRUCTION OF A LONE SUB-TEAM that makes the record `r` of the issuing one and nothing else. -/
theorem onlyRecord_of (G : Team → Team) (hG : ∀ t, (G t).idx = t.idx) (hr : Runs f iss s e c) (hl : e.team.records = [e.rcd])
    (hf : f.lat.isSome = true ∨ f.dsts = []) (hx : exec ins s = issueForm f iss eff s)
    (he : eff (c.begun f e iss) = .done (c.modTeam (beginIssue [(f, c)] e iss) G))
    (hb : G { e.team with records := [issuedRec [(f, c)] e iss e.rcd] } = { e.team with records := [r] }) (hj : r.wait.isJoin = false) :
    ∃ t u, exec ins s = .next t ∧ OnlyTeam e s t u ∧ OnlyRecord f e c u r := by
  obtain ⟨t, u, ht, ho, hrest, hidx⟩ :=
    lone_effect (b := { e.team with records := [r] }) G hG hr hx he (by rw [begun_of_lone_calm hr hl hf]; exact hb) hr.noProbe rfl hj
  obtain ⟨rfl, -, -⟩ := hr.ctx
  exact ⟨t, u, ht, ho, hidx, hrest⟩

/-- AN INSTRUCTION WHOSE EFFECT ON THE BLOCKS is `G` on the issuing team, whatever else of the state it changes. -/
theorem blocks_effect {s' : State} (G : Team → Team) (hG : ∀ t, (G t).idx = t.idx) (hr : Runs f iss s e c)
    (hx : exec ins s = issueForm f iss eff s) (he : eff (c.begun f e iss) = .done s')
    (hb : s'.blocks = (c.modTeam (beginIssue [(f, c)] e iss) G).blocks) (htime : s'.time = s.time) :
    ∃ t, exec ins s = .next t ∧ t = s'.modTeam e.who.bid e.who.team (fun u => u.ended [(f, c.begun f e iss)] s.time) ∧
      t.team? e.who.bid e.who.team = some ((G (e.team.begun [(f, c)] e iss)).ended [(f, c.begun f e iss)] s.time) := by
  obtain ⟨rfl, -, -⟩ := hr.ctx
  have hes := (getEnv_spec hr.env).1
  refine ⟨_, hx.trans (hr.done he), by rw [finish_eq _ _ _ hr.calm, htime], ?_⟩
  rw [finish_eq _ _ _ hr.calm, htime, State.team?_modTeam _ _ _ _ _ _ fun _ => ended_idx _ _ _]
  have hteam : s'.team? c.e.who.bid c.e.who.team = some (G (c.e.team.begun [(f, c)] c.e iss)) := by
    have hsame : s'.team? c.e.who.bid c.e.who.team =
        (c.modTeam (beginIssue [(f, c)] c.e iss) G).team? c.e.who.bid c.e.who.team := by
      simp only [State.team?, State.block?, hb]
    have hbegun : c.modTeam (beginIssue [(f, c)] c.e iss) G =
        State.modTeam { s with issueCtr := s.issueCtr + 1, freeCtr := s.freeCtr + 1 } c.e.who.bid c.e.who.team
          fun t => G (t.begun [(f, c)] c.e iss) := by
      rw [Ctx.modTeam, beginIssue_eq, hes]
      exact State.modTeam_modTeam _ _ _ _ _ fun _ => rfl
    rw [hsame, hbegun]
    exact (onlyTeam_of hr.env (fun t => G (t.begun [(f, c)] c.e iss)) (fun _ => (hG _).trans rfl) _ _).team
  rw [hteam]
  simp

/-! Zeroed registers, and the pool (R136). -/

/-- Registers set to 0 in some lanes. -/
def zeroRegs (v : SMap W32) (ks ls : List Nat) : SMap W32 :=
  ks.foldl (fun v k => ls.foldl (fun v l => smSet 0 v (vKey k l) 0) v) v

theorem smGet_zeroLanes (k : Nat) (ls : List Nat) (hls : ∀ l ∈ ls, l < 1024) {q l : Nat} (hl : l < 1024) : ∀ v : SMap W32,
    smGet 0 (ls.foldl (fun v l => smSet 0 v (vKey k l) 0) v) (vKey q l) = if q = k ∧ l ∈ ls then 0 else smGet 0 v (vKey q l) := by
  induction ls with
  | nil => simp
  | cons a ls ih =>
    intro v
    rw [List.foldl_cons, ih (fun l h => hls l (List.mem_cons_of_mem _ h)), smGet_smSet]
    simp only [vKey_inj hl (hls a List.mem_cons_self), List.mem_cons]
    by_cases hin : q = k ∧ l ∈ ls <;> by_cases ha : q = k ∧ l = a <;> grind

theorem smGet_zeroRegs (ks ls : List Nat) (hls : ∀ l ∈ ls, l < 1024) {q l : Nat} (hl : l < 1024) : ∀ v : SMap W32,
    smGet 0 (zeroRegs v ks ls) (vKey q l) = if q ∈ ks ∧ l ∈ ls then 0 else smGet 0 v (vKey q l) := by
  induction ks with
  | nil => simp [zeroRegs]
  | cons k ks ih =>
    intro v
    rw [zeroRegs, List.foldl_cons, ← zeroRegs, ih, smGet_zeroLanes k ls hls hl]
    simp only [List.mem_cons]
    by_cases hin : q ∈ ks ∧ l ∈ ls <;> by_cases ha : q = k ∧ l ∈ ls <;> grind

theorem mem_regRun (a n q : Nat) : q ∈ ((List.range n).map fun k => a + k) ↔ a ≤ q ∧ q < a + n := by
  simp only [List.mem_map, List.mem_range]
  exact ⟨fun ⟨k, hk, h⟩ => by omega, fun h => ⟨q - a, by omega, by omega⟩⟩

/-- The pool depends on the sites, and on what the teams that have not left have drawn. -/
theorem poolFree_modTeam (s : State) (k i : Nat) (F : Team → Team) (hd : ∀ t, (F t).drawn = t.drawn) (hl : ∀ t, (F t).left = t.left)
    (core : Nat) : poolFree (s.modTeam k i F) core = poolFree s core := by
  have hteams : ∀ b : Block, ((b.modTeam i F).teams.filter fun t => !t.left).map Team.drawn =
      (b.teams.filter fun t => !t.left).map Team.drawn := by
    intro b
    simp only [Block.modTeam]
    induction b.teams with
    | nil => rfl
    | cons t ts ih =>
      have hleft : (if t.idx = i then F t else t).left = t.left := by split <;> simp [hl]
      have hdrawn : (if t.idx = i then F t else t).drawn = t.drawn := by split <;> simp [hd]
      simp only [List.map_cons, List.filter_cons, hleft]
      split
      · simp only [List.map_cons, hdrawn, ih]
      · exact ih
  have hcore : (coreTeams (s.modTeam k i F) core).map Team.drawn = (coreTeams s core).map Team.drawn := by
    simp only [coreTeams, State.modTeam, State.modBlock]
    induction s.blocks with
    | nil => rfl
    | cons b bs ih =>
      have hsite : (if b.bid = k then b.modTeam i F else b).site = b.site := by split <;> rfl
      have hb : ((if b.bid = k then b.modTeam i F else b).teams.filter fun t => !t.left).map Team.drawn =
          (b.teams.filter fun t => !t.left).map Team.drawn := by
        split
        · exact hteams b
        · rfl
      simp only [List.map_cons, List.filter_cons, hsite]
      split
      · simp only [List.flatMap_cons, List.map_append, hb, ih]
      · exact ih
  have hfold : ∀ (ts : List Team) (n : Nat), ts.foldl (fun n t => n + t.drawn) n = n + (ts.map Team.drawn).sum := by
    intro ts
    induction ts with
    | nil => simp
    | cons t ts ih => intro n; simp [ih]; omega
  simp only [poolFree, hfold, hcore]

/-! A claim and a release of a lone sub-team. -/

/-- What a claim that is granted makes of its team. -/
def claimTeam (sub n : Nat) (t : Team) : Team :=
  match t.rec? sub with
  | none => t
  | some r =>
    let ls := maskLanes r.k0 t.lanes
    { t with v := zeroRegs t.v ((List.range n).map fun k => r.alloc + k) ls, drawn := t.drawn + n * ls.length }.modRec sub
      fun r => { r with alloc := r.alloc + n }

/-- What a release makes of its team. -/
def releaseTeam (sub n : Nat) (t : Team) : Team :=
  match t.rec? sub with
  | none => t
  | some r =>
    let ls := maskLanes r.k0 t.lanes
    { t with v := zeroRegs t.v ((List.range n).map fun k => r.alloc - n + k) ls, drawn := t.drawn - n * ls.length }.modRec sub
      fun r => { r with alloc := r.alloc - n }

theorem applyClaim_eq (s : State) (w : Issuer) (n : Nat) : applyClaim s w n = s.modTeam w.bid w.team (claimTeam w.sub n) := rfl
theorem applyRelease_eq (s : State) (w : Issuer) (n : Nat) : applyRelease s w n = s.modTeam w.bid w.team (releaseTeam w.sub n) := rfl

theorem claimTeam_idx (sub n : Nat) (t : Team) : (claimTeam sub n t).idx = t.idx := by unfold claimTeam; split <;> rfl
theorem releaseTeam_idx (sub n : Nat) (t : Team) : (releaseTeam sub n t).idx = t.idx := by unfold releaseTeam; split <;> rfl

theorem rec?_lone (ht : t.records = [r]) : t.rec? r.num = some r := by rw [Team.rec?, ht]; simp

theorem claimTeam_lone (ht : t.records = [r]) (n : Nat) : claimTeam r.num n t = { t with
    records := [{ r with alloc := r.alloc + n }]
    v := zeroRegs t.v ((List.range n).map fun k => r.alloc + k) (maskLanes r.k0 t.lanes)
    drawn := t.drawn + n * countLanes r.k0 t.lanes } := by
  simp only [claimTeam, rec?_lone ht]
  exact modRec_lone (by exact ht) _

theorem releaseTeam_lone (ht : t.records = [r]) (n : Nat) : releaseTeam r.num n t = { t with
    records := [{ r with alloc := r.alloc - n }]
    v := zeroRegs t.v ((List.range n).map fun k => r.alloc - n + k) (maskLanes r.k0 t.lanes)
    drawn := t.drawn - n * countLanes r.k0 t.lanes } := by
  simp only [releaseTeam, rec?_lone ht]
  exact modRec_lone (by exact ht) _

end Sys2Proof.Machine
end

section
/-! Claims and releases (R136, R137, R155, R156). -/

namespace Sys2Proof.Machine

variable {s : State} {e : Env} {c : Ctx} {f : Form} {iss : Iss} {t : Team} {r : Record}

/-- The team after the issue of a form without a destination by a lone sub-team: its one record is still that of `sub`. -/
theorem issued_lone {fs : List (Form × Ctx)} (he : getEnv s = some e) : (issuedRec fs e iss e.rcd).num = e.who.sub := getEnv_num he

theorem regCount_eq (c : Ctx) (a : Opnd) (cnt : BitVec 6) :
    c.regCount a cnt = if a = .zero then 8 * cnt.toNat else (c.uni 0 a).toNat := by
  cases a <;> rfl

/-- A claim that neither the count nor the ceiling forbids. -/
theorem opClaim_eff {a : Opnd} {cnt : BitVec 6} (h8 : c.regCount a cnt % 8 = 0) (h0 : 0 < c.regCount a cnt)
    (hceil : c.e.rcd.alloc + c.regCount a cnt ≤ c.e.la.hdr.ceiling) :
    (opClaim a cnt).eff c = .done (claimFor (c.modTeam c.s fun t => t.modRec c.e.who.sub fun r => { r with pc := c.e.rcd.pc })
      c.e.blk.coreNum c.e.who (c.regCount a cnt) (c.regCount a cnt * countLanes c.e.rcd.k0 c.e.team.lanes)
      (c.e.rcd.pc + w64 c.iss.len) false) := by
  have hbad : ¬ (c.regCount a cnt % 8 ≠ 0 ∨ c.e.la.hdr.ceiling < c.e.rcd.alloc + c.regCount a cnt) := by omega
  simp only [opClaim, if_neg hbad, if_neg (Nat.pos_iff_ne_zero.1 h0)]

/-- A release of registers that are ready. -/
theorem opRelease_eff {a : Opnd} {cnt : BitVec 6} (h8 : c.regCount a cnt % 8 = 0) (h0 : 0 < c.regCount a cnt)
    (hle : c.regCount a cnt ≤ c.e.rcd.alloc)
    (hb : releaseBusy c.e.team c.e.rcd.k0 (c.e.rcd.alloc - c.regCount a cnt) c.e.rcd.alloc = false) :
    (opRelease a cnt).eff c = .done (applyRelease c.s c.e.who (c.regCount a cnt)) := by
  have hbad : ¬ (c.regCount a cnt % 8 ≠ 0 ∨ c.e.rcd.alloc < c.regCount a cnt) := by omega
  simp only [opRelease, if_neg hbad, if_neg (Nat.pos_iff_ne_zero.1 h0), hb, Bool.false_eq_true, if_false]

/-- The pool, as the issue leaves it. -/
theorem poolFree_begun {fs : List (Form × Ctx)} (core : Nat) (pc : W64) :
    poolFree ((beginIssue fs e iss).modTeam e.who.bid e.who.team fun t => t.modRec e.who.sub fun r => { r with pc := pc }) core =
      poolFree e.s core := by
  rw [poolFree_modTeam, beginIssue_eq, poolFree_modTeam]
  · rfl
  all_goals exact fun _ => rfl

end Sys2Proof.Machine

open Sys2Proof Sys2Proof.Machine

/-- Settles O24: a claim draws from the pool or queues, and a release returns what it covers. -/
theorem claimsAndReleases : Obligations.ClaimsAndReleases := by
  unfold Obligations.ClaimsAndReleases
  intro h a cnt s e c f n lanes core hr hl hsta h8 h0
  obtain ⟨rfl, hcs, hci⟩ := hr.ctx
  obtain ⟨hrecs, hheld⟩ := hl
  have hes := (getEnv_spec hr.env).1
  let b := c.begun f c.e (issOf h)
  have hn : b.regCount a cnt = n := regCount_eq b a cnt
  let r0 := issuedRec [(f, c)] c.e (issOf h) c.e.rcd
  have hnum : r0.num = c.e.who.sub := issued_lone hr.env
  have hbegun := begun_of_lone_calm hr hrecs (.inr rfl)
  have hgetV : ∀ (u : Team) (v : SMap W32), u.v = v → ∀ q l, u.getV q l = smGet 0 v (vKey q l) := fun u v hv q l => by rw [Team.getV, hv]
  refine ⟨fun hceil hq hpool => ?_, fun hceil hpool => ?_, fun hle hbusy => ?_⟩
  · let G : Team → Team := fun t =>
      (claimTeam c.e.who.sub n (t.modRec c.e.who.sub fun r => { r with pc := c.e.rcd.pc })).modRec c.e.who.sub
        fun r => { r with pc := c.e.rcd.pc + w64 c.iss.len }
    have hG : ∀ t, (G t).idx = t.idx := fun t => claimTeam_idx c.e.who.sub n _
    have heff : (opClaim a cnt).eff b = .done (c.modTeam (beginIssue [(f, c)] c.e (issOf h)) G) := by
      have hgrant : (((c.modTeam (beginIssue [(f, c)] c.e (issOf h)) fun t => t.modRec c.e.who.sub fun r => { r with pc := c.e.rcd.pc }).claims.any
          fun k => k.core == core) = false) ∧ n * lanes ≤ poolFree (c.modTeam (beginIssue [(f, c)] c.e (issOf h))
            fun t => t.modRec c.e.who.sub fun r => { r with pc := c.e.rcd.pc }) core := by
        refine ⟨?_, ?_⟩
        · rw [List.any_eq_false]
          intro k hk
          have hks : k ∈ s.claims := hes ▸ hk
          simpa using hq k hks
        · rw [Ctx.modTeam, poolFree_begun, hes]; exact hpool
      rw [opClaim_eff (c := b) (by rw [hn]; exact h8) (by rw [hn]; exact h0) (by rw [hn]; exact hceil), hn, claimFor]
      refine (congrArg Res.done (if_pos hgrant)).trans ?_
      rw [applyClaim_eq, State.modRec]
      exact congrArg Res.done (modTeam_three _ _ _ _ _ _ (fun _ => rfl) (claimTeam_idx _ _))
    have hGb : G (c.e.team.begun [(f, c)] c.e (issOf h)) = { c.e.team with
        records := [{ r0 with pc := c.e.rcd.pc + w64 c.iss.len, alloc := c.e.rcd.alloc + n }]
        v := zeroRegs c.e.team.v ((List.range n).map fun k => c.e.rcd.alloc + k) (maskLanes c.e.rcd.k0 c.e.team.lanes)
        drawn := c.e.team.drawn + n * lanes } := by
      rw [hbegun]
      simp only [G, ← hnum]
      rw [modRec_lone (t := { c.e.team with records := [r0] }) rfl, claimTeam_lone (r := { r0 with pc := c.e.rcd.pc }) rfl]
      exact modRec_lone (r := { r0 with pc := c.e.rcd.pc, alloc := c.e.rcd.alloc + n }) rfl _
    obtain ⟨t, u, ht, ho, hu, hx⟩ := lone_effect (ins := .claim h a cnt) G hG hr rfl heff hGb hr.noProbe rfl rfl
    refine ⟨t, u, _, ht, ho, (congrArg Team.records hu).trans rfl, rfl, rfl, rfl, (congrArg Team.drawn hu).trans rfl,
      (congrArg Team.s hu).trans rfl, fun q l hlt => ?_⟩
    rw [hgetV u _ ((congrArg Team.v hu).trans rfl), smGet_zeroRegs _ _ (fun _ => maskLanes_lt) hlt]
    simp only [mem_regRun, and_assoc, Team.getV]
  · let back := c.modTeam (beginIssue [(f, c)] c.e (issOf h)) fun t => t.modRec c.e.who.sub fun r => { r with pc := c.e.rcd.pc }
    let w : Wait := .claim n false (c.e.rcd.pc + w64 c.iss.len)
    have heff : (opClaim a cnt).eff b = .done { (back.modTeam c.e.who.bid c.e.who.team fun t => t.waitAt c.e.who.sub w) with
        claims := back.claims ++ [⟨core, c.e.who, n, n * lanes, c.e.rcd.pc + w64 c.iss.len, back.time⟩] } := by
      have hwait : ¬ ((back.claims.any fun k => k.core == core) = false ∧ n * lanes ≤ poolFree back core) := by
        rintro ⟨-, hle⟩
        have hfree : poolFree back core = poolFree s core := (poolFree_begun core _).trans (by rw [hes])
        omega
      rw [opClaim_eff (c := b) (by rw [hn]; exact h8) (by rw [hn]; exact h0) (by rw [hn]; exact hceil), hn, claimFor]
      exact congrArg Res.done (if_neg hwait)
    let G : Team → Team := fun t => (t.modRec c.e.who.sub fun r => { r with pc := c.e.rcd.pc }).waitAt c.e.who.sub w
    have hG : ∀ t, (G t).idx = t.idx := fun t => by simp only [G, Team.waitAt]; split <;> rfl
    have hblocks : (back.modTeam c.e.who.bid c.e.who.team fun t => t.waitAt c.e.who.sub w).blocks =
        (c.modTeam (beginIssue [(f, c)] c.e (issOf h)) G).blocks := congrArg State.blocks
      (State.modTeam_modTeam _ _ _ (fun t => t.modRec c.e.who.sub fun r => { r with pc := c.e.rcd.pc }) _ fun _ => rfl)
    have htime : c.e.s.time = s.time := congrArg State.time hes
    obtain ⟨t, ht, hts, hteam⟩ := blocks_effect (ins := .claim h a cnt) G hG hr rfl heff hblocks htime
    let r1 : Record := { r0 with pc := c.e.rcd.pc, pend := [], wait := w }
    have hGb : G (c.e.team.begun [(f, c)] c.e (issOf h)) = { c.e.team with records := [r1] } := by
      rw [hbegun]
      simp only [G, ← hnum]
      rw [modRec_lone (t := { c.e.team with records := [r0] }) rfl, waitAt_lone (r := { r0 with pc := c.e.rcd.pc }) rfl]
      rfl
    have hp : ({ c.e.team with records := [r1] } : Team).probe = none := hr.noProbe
    rw [hGb, ended_lone (t := { c.e.team with records := [r1] }) (r := r1) hp rfl rfl] at hteam
    refine ⟨t, _, r1, ht, hteam, ?_, rfl, rfl, ?_⟩
    · rw [onlyX_steps]
    · rw [hts]
      simp only [back, Ctx.modTeam, beginIssue_eq, State.modTeam_claims, State.modTeam_time, hes]
  · have heff : (opRelease a cnt).eff b = .done (c.modTeam (beginIssue [(f, c)] c.e (issOf h)) (releaseTeam c.e.who.sub n)) := by
      rw [opRelease_eff (c := b) (by rw [hn]; exact h8) (by rw [hn]; exact h0) (by rw [hn]; exact hle) (by rw [hn]; exact hbusy), hn]
      rfl
    have hGb : releaseTeam c.e.who.sub n (c.e.team.begun [(f, c)] c.e (issOf h)) = { c.e.team with
        records := [{ r0 with alloc := c.e.rcd.alloc - n }]
        v := zeroRegs c.e.team.v ((List.range n).map fun k => c.e.rcd.alloc - n + k) (maskLanes c.e.rcd.k0 c.e.team.lanes)
        drawn := c.e.team.drawn - n * lanes } := by
      rw [hbegun, ← hnum, releaseTeam_lone (r := r0) rfl]
      rfl
    obtain ⟨t, u, ht, ho, hu, hx⟩ := lone_effect (ins := .release h a cnt) _ (releaseTeam_idx _ _) hr rfl heff hGb hr.noProbe rfl rfl
    refine ⟨t, u, _, ht, ho, (congrArg Team.records hu).trans rfl, rfl, ?_, rfl, (congrArg Team.drawn hu).trans rfl,
      (congrArg Team.s hu).trans rfl, fun q l hq hlt => ?_⟩
    · rw [hci]; rfl
    rw [hgetV u _ ((congrArg Team.v hu).trans rfl), smGet_zeroRegs _ _ (fun _ => maskLanes_lt) hlt,
      if_neg (fun hin => by have hrun := (mem_regRun _ _ _).1 hin.1; omega)]
    rfl

end

section
/-! Control instructions (R119, R120, R140 to R142, R150): the groups that one instruction resolves, and what it makes of its team. -/

namespace Sys2Proof.Machine

variable {s : State} {e : Env} {c : Ctx} {f : Form} {iss : Iss} {t : Team} {r : Record} {g q : Grp} {d : Opnd} {mark : Bool}

/-! Resolving. -/

/-- Where no release has to wait, a control instruction resolves its groups and the lanes that do not take part. -/
theorem branch_resolves {gs : List Grp} (hp : c.e.probing = false) (hrel : ∀ g ∈ gs ++ c.rest, g.rel = 0 ∨
    releaseBusy c.e.team g.lanes (c.e.rcd.alloc - g.rel) c.e.rcd.alloc = false) :
    c.branch d mark (.ok gs) = c.resolve d mark (gs ++ c.rest) := by
  have hplaced : ∀ g ∈ c.placed (gs ++ c.rest), g ∈ gs ++ c.rest := by
    intro g hg
    rw [Ctx.placed] at hg
    split at hg
    · exact hg
    · exact List.mem_of_mem_take hg
  have hnone : ((c.placed (gs ++ c.rest)).find? fun g => g.rel != 0 && releaseBusy c.e.team g.lanes (c.e.rcd.alloc - g.rel) c.e.rcd.alloc) = none := by
    rw [List.find?_eq_none]
    intro g hg
    obtain h | h := hrel g (hplaced g hg)
    · simp [h]
    · simp [h]
  simp only [Ctx.branch, hp, Bool.false_and, Bool.false_eq_true, if_false, hnone]

/-- The record that a sub-team has when it takes a group. -/
def Ctx.takeRec (c : Ctx) (mark : Bool) (g : Grp) (r : Record) : Record :=
  { r with k0 := g.lanes, pc := g.pc, yielded := r.yielded || c.backward mark g }

/-- What taking a group makes of a team. -/
def Ctx.takeTeam (c : Ctx) (mark : Bool) (g : Grp) (t : Team) : Team := t.modRec c.e.who.sub (c.takeRec mark g)

/-- A group that neither links, claims nor releases. -/
def Grp.Plain (g : Grp) : Prop := g.link = none ∧ g.claim = 0 ∧ g.rel = 0

theorem groupWork_plain (hg : g.Plain) (s : State) (n : Nat) : c.groupWork d s n g = s := by
  obtain ⟨hlink, hclaim, hrel⟩ := hg
  simp only [Ctx.groupWork, hlink, hclaim, hrel, if_true]

/-- One plain group moves the sub-team. -/
theorem resolve_one_plain (hg : g.Plain) : c.resolve d mark [g] = .done (c.modTeam c.s (c.takeTeam mark g)) := by
  rw [Ctx.resolve, groupWork_plain hg]
  rfl

/-- A call's one group moves the sub-team and writes its link. -/
theorem resolve_one_link {v : W64} (hl : g.link = some v) (hc : g.claim = 0) (hr : g.rel = 0) (hm : g.lanes = c.m) :
    c.resolve d mark [g] = .done (c.modTeam c.s fun t => c.putTeam d 2 (fun _ => v.toNat) (c.takeTeam mark g t)) := by
  have hput : c.putOn (maskLanes c.m c.e.team.lanes) d 2 (fun _ => v.toNat) (c.takeGroup mark g c.s) =
      c.modTeam (c.takeGroup mark g c.s) (c.putTeam d 2 fun _ => v.toNat) := putOn_eq c d 2 (fun _ => v.toNat) _
  rw [Ctx.resolve]
  simp only [Ctx.groupWork, hl, hc, hr, if_true, hm, hput]
  exact congrArg Res.done (State.modTeam_modTeam _ _ _ (c.takeTeam mark g) _ fun _ => rfl)

/-- A return's one group moves the sub-team and releases its registers. -/
theorem resolve_one_release (hl : g.link = none) (hc : g.claim = 0) (hr : g.rel ≠ 0) :
    c.resolve d mark [g] = .done (c.modTeam c.s fun t => releaseTeam c.e.who.sub g.rel (c.takeTeam mark g t)) := by
  rw [Ctx.resolve]
  simp only [Ctx.groupWork, hl, hc, if_true, if_neg hr, applyRelease_eq]
  exact congrArg Res.done (State.modTeam_modTeam _ _ _ (c.takeTeam mark g) _ fun _ => rfl)

/-- What a record that a split makes is. -/
def Ctx.splitRec (c : Ctx) (mark : Bool) (en n : Nat) (g : Grp) (r : Record) : Record :=
  { r with num := n, k0 := g.lanes, pc := g.pc, parent := en, yielded := c.backward mark g, held := none, wait := .ready, aged := false, pend := [] }

/-- What a new record makes of a team. -/
def Ctx.addTeam (c : Ctx) (mark : Bool) (en n : Nat) (g : Grp) (t : Team) : Team :=
  match t.rec? c.e.who.sub with
  | none => t
  | some r => { t with records := insertRec (c.splitRec mark en n g r) t.records }

/-- What a new split entry makes of a team. -/
def Ctx.entryTeam (c : Ctx) (en : Nat) (t : Team) : Team :=
  { t.modRec c.e.who.sub (fun r => { r with parent := en }) with splits := t.splits ++ [⟨en, c.e.rcd.parent, 2⟩] }

/-- What a split in two makes of a team. -/
def Ctx.splitTeam (c : Ctx) (mark : Bool) (en n : Nat) (g q : Grp) (t : Team) : Team :=
  c.entryTeam en (c.takeTeam mark g (c.addTeam mark en n q t.drain))

/-- The entry that a split takes. -/
def Ctx.newEntry (c : Ctx) : Nat :=
  freeEntry (if c.e.station then Config.stationSplitEntries else Config.splitEntries) (usedEntries c.e.s c.e.blk c.e.team)

/-- Two plain groups split a sub-team that holds no group, where a record is free. -/
theorem resolve_two_plain (hg : g.Plain) (hq : q.Plain) (hheld : c.e.rcd.held = none) {n : Nat} {ns : List Nat}
    (hfree : freeRecs c.e.team = n :: ns) :
    c.resolve d mark [g, q] = .done (c.modTeam c.s (c.splitTeam mark c.newEntry n g q)) := by
  have hroom : [q].length ≤ (n :: ns).length := Nat.succ_le_succ (Nat.zero_le _)
  simp only [Ctx.resolve, hheld, Option.isSome_none, Bool.false_eq_true, if_false, hfree, if_pos hroom, List.zip_cons_cons,
    List.zip_nil_left, List.foldl_cons, List.foldl_nil, groupWork_plain hg, groupWork_plain hq]
  refine congrArg Res.done ?_
  change c.modTeam (c.modTeam (c.modTeam (c.modTeam c.s Team.drain) (c.addTeam mark c.newEntry n q)) (c.takeTeam mark g))
    (c.entryTeam c.newEntry) = _
  have hadd : ∀ t, (c.addTeam mark c.newEntry n q t).idx = t.idx := fun t => by unfold Ctx.addTeam; split <;> rfl
  rw [Ctx.modTeam, Ctx.modTeam, Ctx.modTeam, modTeam_three _ _ _ (c.addTeam mark c.newEntry n q) (c.takeTeam mark g) _ hadd fun _ => rfl]
  exact State.modTeam_modTeam _ _ _ Team.drain _ fun _ => rfl

/-! What these make of a lone sub-team, and that they change records and entries only. -/

theorem takeTeam_lone (ht : t.records = [r]) (hn : r.num = c.e.who.sub) :
    c.takeTeam mark g t = { t with records := [c.takeRec mark g r] } := by
  rw [Ctx.takeTeam, ← hn, modRec_lone ht]

theorem onlyRecs_splitTeam (en n : Nat) (t : Team) : OnlyRecs t (c.splitTeam mark en n g q t) := by
  have hadd : ∀ t, OnlyRecs t (c.addTeam mark en n q t) := fun t => by unfold Ctx.addTeam; split <;> rfl
  exact ((onlyRecs_drain t).trans (hadd _)).trans rfl

/-- A split of a lone sub-team: its record and the new one, in the order of their numbers. -/
theorem splitTeam_lone {en n : Nat} (ht : t.records = [r]) (hn : r.num = c.e.who.sub) (hne : n ≠ r.num) :
    (c.splitTeam mark en n g q t).splits = t.splits ++ [⟨en, c.e.rcd.parent, 2⟩] ∧
    let a : Record := { c.takeRec mark g { r with pend := [] } with parent := en }
    let b := c.splitRec mark en n q { r with pend := [] }
    ((c.splitTeam mark en n g q t).records = [a, b] ∨ (c.splitTeam mark en n g q t).records = [b, a]) := by
  have hdrain : t.drain.records = [{ r with pend := [] }] := by rw [Team.drain, ht]; rfl
  have hadd : c.addTeam mark en n q t.drain =
      { t.drain with records := insertRec (c.splitRec mark en n q { r with pend := [] }) t.drain.records } := by
    have hrec : t.drain.rec? c.e.who.sub = some { r with pend := [] } := by
      rw [← hn]; exact rec?_lone hdrain
    simp only [Ctx.addTeam, hrec]
  refine ⟨by rw [Ctx.splitTeam, hadd]; rfl, ?_⟩
  intro a b
  rw [Ctx.splitTeam, hadd, hdrain]
  simp only [Ctx.entryTeam, Ctx.takeTeam, Team.modRec, insertRec]
  have hb : (c.splitRec mark en n q { r with pend := [] }).num ≠ c.e.who.sub := fun h => hne (h.trans hn.symm)
  have ha : (c.takeRec mark g { r with pend := [] }).num = c.e.who.sub := hn
  split
  · right
    simp only [List.map_cons, List.map_nil, if_neg hb, if_pos hn, if_pos ha]
    rfl
  · left
    simp only [List.map_cons, List.map_nil, if_neg hb, if_pos hn, if_pos ha]
    rfl

/-- A record number is free beside a lone record. -/
theorem freeRecs_lone (ht : t.records = [r]) : ∃ n ns, freeRecs t = n :: ns ∧ n ≠ r.num := by
  obtain ⟨k, hk, hne⟩ : ∃ k, k < Config.maxRecords ∧ k ≠ r.num := by
    by_cases h0 : r.num = 0
    · exact ⟨1, by decide, by omega⟩
    · exact ⟨0, by decide, by omega⟩
  have hmem : k ∈ freeRecs t := by
    rw [freeRecs, ht, List.mem_filter, List.mem_range]
    exact ⟨hk, by simpa using fun h => hne h.symm⟩
  cases hf : freeRecs t with
  | nil => rw [hf] at hmem; cases hmem
  | cons n ns =>
    refine ⟨n, ns, rfl, ?_⟩
    have hn : n ∈ freeRecs t := hf ▸ List.mem_cons_self
    rw [freeRecs, ht, List.mem_filter] at hn
    exact fun h => by simp [h] at hn

/-- Two sub-teams at different addresses, neither at a `JOIN`, stay two. -/
theorem fuse_apart {now : Nat} {a b : Record} (ht : t.records = [a, b] ∨ t.records = [b, a]) (hpc : a.pc ≠ b.pc)
    (ha : a.wait.isJoin = false) (hb : b.wait.isJoin = false) : t.fuse now = t := by
  have hab : canFuse a b = false := by
    have : (a.pc == b.pc) = false := by simpa using hpc
    simp [canFuse, this]
  have hba : canFuse b a = false := by
    have : (b.pc == a.pc) = false := by simpa using fun h => hpc h.symm
    simp [canFuse, this]
  have hpair : fusePair t.records = none := by
    obtain ht | ht := ht <;> rw [ht] <;> simp [fusePair, hab, hba]
  have hall : fuseAll now 32 t = t := by simp only [fuseAll, hpair]
  have hjoin : (t.records.any fun r => r.wait.isJoin) = false := by
    obtain ht | ht := ht <;> rw [ht] <;> simp [ha, hb]
  rw [Team.fuse, hall, ite_self, hjoin, if_neg nofun]

/-! Branches. -/

theorem rest_full (h : c.m = c.e.rcd.k0) : c.rest = [] := by
  have hz : c.e.rcd.k0 &&& ~~~c.m = 0 := by rw [h]; exact BitVec.and_not_self _
  simp only [Ctx.rest, if_pos hz]

theorem rest_some (h : c.e.rcd.k0 &&& ~~~c.m ≠ 0) : c.rest = [⟨c.e.rcd.k0 &&& ~~~c.m, c.next, none, 0, 0⟩] := by
  simp only [Ctx.rest, if_neg h]

theorem startBad_none {pc : W64} {m : LaneMask} (h : isStart c.e.s c.e.blk c.e.la pc.toNat = true) : c.startBad pc m = none := by
  rw [Ctx.startBad, if_pos h]

/-- A branch to an address at which an instruction starts, of a sub-team that holds no group: it moves, or it splits. -/
theorem opBra_eff {off : BitVec 16} (hp : c.e.probing = false) (hheld : c.e.rcd.held = none) (hrec : c.e.team.records = [c.e.rcd])
    (hs : isStart c.e.s c.e.blk c.e.la (c.target off).toNat = true) :
    let g : Grp := ⟨c.m, c.target off, none, 0, 0⟩
    (c.e.rcd.k0 &&& ~~~c.m = 0 → (opBra off).eff c = .done (c.modTeam c.s (c.takeTeam true g))) ∧
    (c.e.rcd.k0 &&& ~~~c.m ≠ 0 → ∃ n, n ≠ c.e.rcd.num ∧ (opBra off).eff c =
      .done (c.modTeam c.s (c.splitTeam true c.newEntry n g ⟨c.e.rcd.k0 &&& ~~~c.m, c.next, none, 0, 0⟩))) := by
  intro g
  have hplain : g.Plain := ⟨rfl, rfl, rfl⟩
  have hgs : (match c.startBad (c.target off) c.m with
      | some b => Except.error b
      | none => Except.ok [g]) = .ok [g] := by rw [startBad_none hs]
  have heff : (opBra off).eff c = c.resolve .zero true ([g] ++ c.rest) := by
    refine (congrArg (c.branch .zero true) hgs).trans (branch_resolves hp fun q hq => .inl ?_)
    rw [List.mem_append, List.mem_singleton] at hq
    obtain rfl | hq := hq
    · rfl
    · rw [Ctx.rest] at hq
      split at hq
      · cases hq
      · rw [List.mem_singleton.1 hq]
  rw [heff]
  refine ⟨fun hz => ?_, fun hz => ?_⟩
  · rw [show c.rest = [] by simp only [Ctx.rest, if_pos hz]]
    exact resolve_one_plain hplain
  · obtain ⟨n, ns, hfree, hne⟩ := freeRecs_lone hrec
    refine ⟨n, hne, ?_⟩
    rw [rest_some hz]
    exact resolve_two_plain hplain ⟨rfl, rfl, rfl⟩ hheld hfree

/-- An effect on records and entries leaves the registers and masks as they were. -/
theorem onlyRecs_effect {ins : Instr} {eff : Ctx → Res} (G : Team → Team) (hG : ∀ t, OnlyRecs t (G t)) (hr : Runs f iss s e c)
    (hx : exec ins s = issueForm f iss eff s) (he : eff (c.begun f e iss) = .done (c.modTeam (beginIssue [(f, c)] e iss) G)) :
    ∃ t u, exec ins s = .next t ∧ OnlyTeam e s t u ∧ u = (G (e.team.begun [(f, c)] e iss)).ended [(f, c.begun f e iss)] s.time ∧
      u.v = e.team.v ∧ u.s = e.team.s ∧ u.k = e.team.k := by
  obtain ⟨t, ht, ho⟩ := team_effect G (fun t => (hG t).idx) hr hx he
  have hb := begun_rest e.team [(f, c)] e iss hr.noProbe
  obtain ⟨b, hbd⟩ : ∃ b, b = G (e.team.begun [(f, c)] e iss) := ⟨_, rfl⟩
  have hGb := hG (e.team.begun [(f, c)] e iss)
  rw [← hbd] at hGb
  have hbp : b.probe = none := hGb.probe.trans ((congrArg Team.probe hb).trans hr.noProbe)
  have hend := ended_rest b [(f, c.begun f e iss)] s.time hbp
  refine ⟨t, _, ht, ho, rfl, ?_, ?_, ?_⟩
  · rw [← hbd, hend]; exact hGb.v.trans ((congrArg Team.v hb).trans rfl)
  · rw [← hbd, hend]; exact hGb.s.trans ((congrArg Team.s hb).trans rfl)
  · rw [← hbd, hend]; exact hGb.k.trans ((congrArg Team.k hb).trans rfl)

end Sys2Proof.Machine

open Sys2Proof Sys2Proof.Machine

/-- Settles O21: a branch resolves one group or two, and two sub-teams at different addresses do not fuse. -/
theorem branchesMoveAndSplit : Obligations.BranchesMoveAndSplit := by
  unfold Obligations.BranchesMoveAndSplit
  intro h off i iss s e c tgt next hi hr hl hs
  obtain ⟨hce, hcs, hci⟩ := hr.ctx
  subst hce
  obtain ⟨hrecs, hheld⟩ := hl
  have hes := (getEnv_spec hr.env).1
  have hx : exec i s = (opBra off).run iss s := hi.run rfl rfl nofun
  have hbegun := begun_of_lone_calm hr hrecs (.inl rfl)
  let b := c.begun (branchForm [] []) c.e iss
  let r0 := issuedRec [(branchForm [] [], c)] c.e iss c.e.rcd
  have hnum : r0.num = c.e.who.sub := getEnv_num hr.env
  obtain ⟨hmove, hsplit⟩ := opBra_eff (c := b) (off := off) hr.calm hheld hrecs (show isStart c.e.s c.e.blk c.e.la tgt.toNat = true by rw [hes]; exact hs)
  by_cases hz : c.e.rcd.k0 &&& ~~~c.m = 0
  · have heff := hmove hz
    obtain ⟨t, u, ht, ho, hu⟩ := onlyRecord_of (r := c.takeRec true ⟨c.m, tgt, none, 0, 0⟩ r0) (c.takeTeam true ⟨c.m, tgt, none, 0, 0⟩)
      (fun _ => rfl) hr hrecs (.inl rfl) hx heff (takeTeam_lone (t := { c.e.team with records := [r0] }) rfl hnum) rfl
    have hrest := hu.rest
    exact ⟨t, u, ht, ho, (congrArg Team.v hrest).trans rfl, (congrArg Team.s hrest).trans rfl, (congrArg Team.k hrest).trans rfl,
      fun hm => ⟨(congrArg Team.splits hrest).trans rfl, _, (congrArg Team.records hrest).trans rfl, rfl, rfl, hm, rfl, Bool.false_or _⟩,
      fun _ hz' => absurd hz hz'⟩
  · obtain ⟨n, hne, heff⟩ := hsplit hz
    obtain ⟨t, u, ht, ho, hu, hv, hsr, hk⟩ := onlyRecs_effect (c.splitTeam true c.newEntry n ⟨c.m, tgt, none, 0, 0⟩ ⟨c.e.rcd.k0 &&& ~~~c.m, c.next, none, 0, 0⟩)
      (onlyRecs_splitTeam _ _) hr hx heff
    refine ⟨t, u, ht, ho, hv, hsr, hk, fun hm => absurd (by rw [hm]; exact BitVec.and_not_self _) hz, fun _ _ hpc => ?_⟩
    rw [hbegun] at hu
    obtain ⟨w, hw⟩ : ∃ w, w = c.splitTeam true c.newEntry n ⟨c.m, tgt, none, 0, 0⟩ ⟨c.e.rcd.k0 &&& ~~~c.m, c.next, none, 0, 0⟩
      { c.e.team with records := [r0] } := ⟨_, rfl⟩
    obtain ⟨hsp, hrs⟩ := splitTeam_lone (t := { c.e.team with records := [r0] }) (r := r0) (c := c) (mark := true) (en := c.newEntry)
      (g := ⟨c.m, tgt, none, 0, 0⟩) (q := ⟨c.e.rcd.k0 &&& ~~~c.m, c.next, none, 0, 0⟩) rfl hnum hne
    have hwp : w.probe = none := by
      rw [hw, (onlyRecs_splitTeam (c := c) (mark := true) (g := ⟨c.m, tgt, none, 0, 0⟩)
        (q := ⟨c.e.rcd.k0 &&& ~~~c.m, c.next, none, 0, 0⟩) c.newEntry n { c.e.team with records := [r0] }).probe]
      exact hr.noProbe
    rw [← hw] at hu hsp hrs
    have hox := onlyX_steps [(branchForm [] [], b)] w
    rw [ended_calm _ _ _ hwp, fuse_apart (a := { c.takeRec true ⟨c.m, tgt, none, 0, 0⟩ { r0 with pend := [] } with parent := c.newEntry })
      (b := c.splitRec true c.newEntry n ⟨c.e.rcd.k0 &&& ~~~c.m, c.next, none, 0, 0⟩ { r0 with pend := [] })
      (by rw [hox]; exact hrs) (fun h => hpc (by rw [show next = c.next from rfl]; exact h)) rfl rfl] at hu
    have hux := hu.trans hox
    have hur : u.records = w.records := (congrArg Team.records hux).trans rfl
    rw [← hur] at hrs
    exact ⟨c.newEntry, _, _, ((congrArg Team.splits hux).trans rfl).trans hsp, hrs, rfl, rfl, rfl, rfl, hne, rfl, rfl, rfl⟩

end

section
/-! Calls and returns whose lanes agree (R119, R140 to R142, R150, R164): one group, of all the lanes. -/

namespace Sys2Proof.Machine

variable {s : State} {e : Env} {c : Ctx} {f : Form} {iss : Iss} {t : Team} {r : Record} {g : Grp} {d a : Opnd} {mark call : Bool} {v : W64}
  {key : Nat → Nat} {k : Nat}

/-! The groups of lanes that agree. -/

theorem sortNats_replicate (n : Nat) : sortNats (List.replicate (n + 1) k) = [k] := by
  have hfold : ∀ n, (List.replicate n k).foldl (fun acc n => insertNat n acc) [k] = [k] := by
    intro n
    induction n with
    | zero => rfl
    | succ n ih => simpa [List.replicate_succ, insertNat] using ih
  exact hfold n

/-- Lanes of one key are one group, of all of them. -/
theorem byKey_agree (hne : c.lanes ≠ []) (hk : ∀ l ∈ c.lanes, key l = k) (hm : c.m = maskOf c.lanes) : c.byKey key = [(k, c.m)] := by
  have hmap : c.lanes.map key = List.replicate (c.lanes.length - 1 + 1) k := by
    rw [Nat.sub_add_cancel (List.length_pos_iff.2 hne)]
    exact List.eq_replicate_iff.2 ⟨List.length_map _, fun x hx => by
      obtain ⟨l, hl, rfl⟩ := List.mem_map.1 hx; exact hk l hl⟩
  have hmask : maskFrom c.lanes (fun l => key l == k) = c.m := by
    rw [maskFrom, List.filter_eq_self.2 (fun l hl => by simpa using hk l hl), hm]
  rw [Ctx.byKey, hmap, sortNats_replicate, List.map_singleton, hmask]

/-- No lane of a group reads what the group forbids, where all read v. -/
theorem find_lane_none {p : W64 → Bool} (hag : ∀ l ∈ c.lanes, c.rd64 0 a false l = v) (hv : p v = false) :
    ((maskLanes c.m c.e.team.lanes).find? fun l => p (c.rd64 0 a false l)) = none := by
  rw [List.find?_eq_none]
  intro l hl
  rw [hag l hl, hv]
  exact nofun

/-- A call's group at an address at which an instruction starts and whose entry the allocation covers. -/
theorem callGroup_ok {pc : W64} {m : LaneMask} (hs : isStart c.e.s c.e.blk c.e.la pc.toNat = true)
    (hfit : entryBudget c.e.s c.e.blk c.e.la pc.toNat = none ∨ ∃ b, entryBudget c.e.s c.e.blk c.e.la pc.toNat = some b ∧ b % 8 = 0 ∧
      b ≤ (if c.e.station then 64 else c.e.la.hdr.ceiling) ∧ b ≤ c.e.rcd.alloc) :
    c.callGroup m pc = .ok ⟨m, pc, some (w64 (2 ^ 56 * (0 / 8)) ||| (c.next &&& w64 (2 ^ 56 - 1))), 0, 0⟩ := by
  rw [Ctx.callGroup, startBad_none hs]
  obtain hb | ⟨b, hb, h8, hceil, halloc⟩ := hfit
  · simp only [hb]
  · have hok : ¬ (b % 8 ≠ 0 ∨ (if c.e.station = true then 64 else c.e.la.hdr.ceiling) < b) := by
      rintro (h | h)
      · exact h h8
      · exact absurd hceil (Nat.not_le.2 h)
    simp only [hb, if_neg hok, Nat.sub_eq_zero_of_le halloc]

/-- The link of a call that claims nothing is the address after it. -/
theorem link_toNat (x : W64) : (w64 (2 ^ 56 * (0 / 8)) ||| (x &&& w64 (2 ^ 56 - 1))).toNat = x.toNat % 2 ^ 56 := by
  have hmask : (w64 (2 ^ 56 - 1)).toNat = 2 ^ 56 - 1 := by decide
  rw [BitVec.toNat_or, BitVec.toNat_and, hmask, Nat.and_two_pow_sub_one_eq_mod]
  simp [w64]

/-- The one group of an indirect call. -/
theorem indirect_call (hne : c.lanes ≠ []) (hm : c.m = maskOf c.lanes) (hag : ∀ l ∈ c.lanes, c.rd64 0 a false l = v)
    (hv : v.toNat < 2 ^ 56) : c.indirect a true = collect [c.callGroup c.m v] := by
  have hkey : c.byKey (fun l => (c.rd64 0 a false l).toNat % 2 ^ 56) = [(v.toNat, c.m)] :=
    byKey_agree hne (fun l hl => by rw [hag l hl, Nat.mod_eq_of_lt hv]) hm
  have hfind := find_lane_none (p := fun v => decide (2 ^ 56 ≤ v.toNat)) hag (by simpa using hv)
  have hw : w64 v.toNat = v := BitVec.ofNat_toNat .. |>.trans (by simp)
  simp only [Ctx.indirect, hkey, List.map_singleton, hfind, hw, if_true]

/-- The one group of an indirect branch to an address at which an instruction starts. -/
theorem indirect_branch (hne : c.lanes ≠ []) (hm : c.m = maskOf c.lanes) (hag : ∀ l ∈ c.lanes, c.rd64 0 a false l = v)
    (hv : v.toNat < 2 ^ 56) (hs : isStart c.e.s c.e.blk c.e.la v.toNat = true) : c.indirect a false = .ok [⟨c.m, v, none, 0, 0⟩] := by
  have hkey : c.byKey (fun l => (c.rd64 0 a false l).toNat % 2 ^ 56) = [(v.toNat, c.m)] :=
    byKey_agree hne (fun l hl => by rw [hag l hl, Nat.mod_eq_of_lt hv]) hm
  have hfind := find_lane_none (p := fun v => decide (2 ^ 56 ≤ v.toNat)) hag (by simpa using hv)
  have hw : w64 v.toNat = v := BitVec.ofNat_toNat .. |>.trans (by simp)
  simp only [Ctx.indirect, hkey, List.map_singleton, hfind, hw, Bool.false_eq_true, if_false, startBad_none hs, collect, List.foldr_cons,
    List.foldr_nil]

/-- The one group of a return: on a station no register goes back (R164). -/
theorem returns_agree (hne : c.lanes ≠ []) (hm : c.m = maskOf c.lanes) (hag : ∀ l ∈ c.lanes, c.rd64 0 a false l = v)
    (hv : v.toNat < 2 ^ 61) (hcnt : v.toNat / 2 ^ 56 ≤ 22) (hs : isStart c.e.s c.e.blk c.e.la (v.toNat % 2 ^ 56) = true)
    (hrel : (if c.e.station then 0 else 8 * (v.toNat / 2 ^ 56)) ≤ c.e.rcd.alloc) :
    c.returns a = .ok [⟨c.m, w64 (v.toNat % 2 ^ 56), none, 0, if c.e.station then 0 else 8 * (v.toNat / 2 ^ 56)⟩] := by
  have hbits : bitsOf v.toNat 60 56 = v.toNat / 2 ^ 56 := by
    rw [bitsOf]; exact Nat.mod_eq_of_lt (by omega)
  have hkey : c.byKey (fun l => (c.rd64 0 a false l).toNat % 2 ^ 56 * 32 + bitsOf (c.rd64 0 a false l).toNat 60 56) =
      [(v.toNat % 2 ^ 56 * 32 + v.toNat / 2 ^ 56, c.m)] :=
    byKey_agree hne (fun l hl => by rw [hag l hl, hbits]) hm
  have hmod : (v.toNat % 2 ^ 56 * 32 + v.toNat / 2 ^ 56) % 32 = v.toNat / 2 ^ 56 := by omega
  have hdiv : (v.toNat % 2 ^ 56 * 32 + v.toNat / 2 ^ 56) / 32 = v.toNat % 2 ^ 56 := by omega
  have hfind := find_lane_none (p := fun w => decide (2 ^ 61 ≤ w.toNat ∨ 22 < v.toNat / 2 ^ 56)) hag (by simp; omega)
  have hpc : (w64 (v.toNat % 2 ^ 56)).toNat = v.toNat % 2 ^ 56 := by
    rw [w64, BitVec.toNat_ofNat]; exact Nat.mod_eq_of_lt (by omega)
  simp only [Ctx.returns, hkey, List.map_singleton, hmod, hdiv, hfind, startBad_none (show isStart c.e.s c.e.blk c.e.la
    (w64 (v.toNat % 2 ^ 56)).toNat = true by rw [hpc]; exact hs)]
  cases hst : c.e.station
  · rw [hst, if_neg nofun] at hrel
    simp only [Bool.false_eq_true, if_false, if_neg (Nat.not_lt.2 hrel), collect, List.foldr_cons, List.foldr_nil]
  · simp only [if_true, collect, List.foldr_cons, List.foldr_nil]

/-! What the groups of all the lanes make of a lone sub-team. -/

/-- Every lane takes part: no lane is left behind, and a group that releases nothing resolves. -/
theorem branch_all (hp : c.e.probing = false) (hm : c.m = c.e.rcd.k0) (hrel : g.rel = 0 ∨
    releaseBusy c.e.team g.lanes (c.e.rcd.alloc - g.rel) c.e.rcd.alloc = false) :
    c.branch d mark (.ok [g]) = c.resolve d mark [g] := by
  have hrest := rest_full hm
  have h := branch_resolves (c := c) (d := d) (mark := mark) (gs := [g]) hp (by
    rw [hrest, List.append_nil]
    intro q hq
    rw [List.mem_singleton.1 hq]; exact hrel)
  rw [hrest, List.append_nil] at h
  exact h

/-- A lone sub-team that goes where its one plain group says. -/
theorem moved_plain {ins : Instr} {eff : Ctx → Res} {pc : W64} (hr : Runs f iss s e c) (hl : Lone e) (hf : f.lat.isSome = true ∨ f.dsts = [])
    (hx : exec ins s = issueForm f iss eff s)
    (he : eff (c.begun f e iss) = .done (c.modTeam (beginIssue [(f, c)] e iss) (c.takeTeam mark ⟨c.m, pc, none, 0, 0⟩))) :
    ∃ t u r, exec ins s = .next t ∧ OnlyTeam e s t u ∧ u.records = [r] ∧ r.pc = pc ∧ r.alloc = e.rcd.alloc ∧ u.s = e.team.s ∧
      u.k = e.team.k ∧ u.splits = e.team.splits := by
  obtain ⟨rfl, -, -⟩ := hr.ctx
  obtain ⟨t, u, ht, ho, hu⟩ := onlyRecord_of (r := c.takeRec mark ⟨c.m, pc, none, 0, 0⟩ (issuedRec [(f, c)] c.e iss c.e.rcd))
    (c.takeTeam mark ⟨c.m, pc, none, 0, 0⟩) (fun _ => rfl) hr hl.1 hf hx he
    (takeTeam_lone (t := { c.e.team with records := [issuedRec [(f, c)] c.e iss c.e.rcd] }) rfl (getEnv_num hr.env)) rfl
  have hrest := hu.rest
  exact ⟨t, u, _, ht, ho, (congrArg Team.records hrest).trans rfl, rfl, rfl, (congrArg Team.s hrest).trans rfl,
    (congrArg Team.k hrest).trans rfl, (congrArg Team.splits hrest).trans rfl⟩

/-- A lone sub-team whose one group writes a link. -/
theorem moved_link {ins : Instr} {eff : Ctx → Res} {pc : W64} {n : Nat} (hr : Runs f iss s e c) (hl : Lone e)
    (hf : f.lat.isSome = true ∨ f.dsts = []) (hx : exec ins s = issueForm f iss eff s)
    (he : eff (c.begun f e iss) = .done (c.modTeam (beginIssue [(f, c)] e iss)
      fun t => c.putTeam d 2 (fun _ => n) (c.takeTeam mark ⟨c.m, pc, some v, 0, 0⟩ t))) :
    ∃ t u r, exec ins s = .next t ∧ OnlyTeam e s t u ∧ u.records = [r] ∧ r.pc = pc ∧ r.alloc = e.rcd.alloc ∧ u.k = e.team.k ∧
      ∀ q l, l < 1024 → u.getV q l = c.vAfter d 2 (fun _ => n) q l := by
  obtain ⟨rfl, -, -⟩ := hr.ctx
  obtain ⟨r0, hr0⟩ : ∃ r0, r0 = issuedRec [(f, c)] c.e iss c.e.rcd := ⟨_, rfl⟩
  have hbegun := begun_of_lone_calm hr hl.1 hf
  rw [← hr0] at hbegun
  have htake := takeTeam_lone (t := { c.e.team with records := [r0] }) (c := c) (mark := mark) (g := ⟨c.m, pc, some v, 0, 0⟩)
    rfl (by rw [hr0]; exact getEnv_num hr.env)
  obtain ⟨t1, ht1⟩ : ∃ t1 : Team, t1 = { c.e.team with records := [c.takeRec mark ⟨c.m, pc, some v, 0, 0⟩ r0] } := ⟨_, rfl⟩
  obtain ⟨hput, hvec, -⟩ := putTeam_spec c d 2 (fun _ => n) t1 (by rw [ht1]) (by rw [ht1])
  have hG : c.putTeam d 2 (fun _ => n) (c.takeTeam mark ⟨c.m, pc, some v, 0, 0⟩ (c.e.team.begun [(f, c)] c.e iss)) =
      c.putTeam d 2 (fun _ => n) t1 := by rw [hbegun, htake, ht1]
  obtain ⟨t, u, ht, ho, hu, -⟩ := lone_effect (r := c.takeRec mark ⟨c.m, pc, some v, 0, 0⟩ r0)
    (fun t => c.putTeam d 2 (fun _ => n) (c.takeTeam mark ⟨c.m, pc, some v, 0, 0⟩ t))
    (fun t => (putTeam_idx _ _ _ _ _).trans rfl) hr hx he hG (by rw [hput, ht1]; exact hr.noProbe) (by rw [hput, ht1]) (by rw [hr0]; rfl)
  refine ⟨t, u, _, ht, ho, ((congrArg Team.records hu).trans (by rw [hput, ht1])), rfl, by rw [hr0]; rfl,
    ((congrArg Team.k hu).trans (by rw [hput, ht1])), fun q l hlt => ?_⟩
  rw [← hvec q l hlt, Team.getV, (congrArg Team.v hu).trans rfl]
  rfl

/-- A lone sub-team whose one group gives registers back. -/
theorem moved_release {ins : Instr} {eff : Ctx → Res} {pc : W64} {n : Nat} (hr : Runs f iss s e c) (hl : Lone e)
    (hf : f.lat.isSome = true ∨ f.dsts = []) (hx : exec ins s = issueForm f iss eff s)
    (he : eff (c.begun f e iss) = .done (c.modTeam (beginIssue [(f, c)] e iss)
      fun t => releaseTeam c.e.who.sub n (c.takeTeam mark ⟨c.m, pc, none, 0, n⟩ t))) :
    ∃ t u r, exec ins s = .next t ∧ OnlyTeam e s t u ∧ u.records = [r] ∧ r.pc = pc ∧ r.alloc = e.rcd.alloc - n ∧ u.s = e.team.s ∧
      u.k = e.team.k ∧ u.splits = e.team.splits := by
  obtain ⟨rfl, -, -⟩ := hr.ctx
  obtain ⟨r0, hr0⟩ : ∃ r0, r0 = issuedRec [(f, c)] c.e iss c.e.rcd := ⟨_, rfl⟩
  have hnum : r0.num = c.e.who.sub := by rw [hr0]; exact getEnv_num hr.env
  have hbegun := begun_of_lone_calm hr hl.1 hf
  rw [← hr0] at hbegun
  obtain ⟨r1, hr1⟩ : ∃ r1, r1 = c.takeRec mark ⟨c.m, pc, none, 0, n⟩ r0 := ⟨_, rfl⟩
  have htake := takeTeam_lone (t := { c.e.team with records := [r0] }) (c := c) (mark := mark) (g := ⟨c.m, pc, none, 0, n⟩) rfl hnum
  have hrel := releaseTeam_lone (t := { c.e.team with records := [r1] }) (r := r1) rfl n
  have hG : releaseTeam c.e.who.sub n (c.takeTeam mark ⟨c.m, pc, none, 0, n⟩ (c.e.team.begun [(f, c)] c.e iss)) =
      releaseTeam r1.num n { c.e.team with records := [r1] } := by
    rw [hbegun, htake, hr1, ← hnum]; rfl
  obtain ⟨t, u, ht, ho, hu, -⟩ := lone_effect (r := { r1 with alloc := r1.alloc - n })
    (fun t => releaseTeam c.e.who.sub n (c.takeTeam mark ⟨c.m, pc, none, 0, n⟩ t)) (fun t => releaseTeam_idx _ _ _) hr hx he hG
    (by rw [hrel]; exact hr.noProbe) (by rw [hrel]) (by rw [hr1, hr0]; rfl)
  rw [hrel] at hu
  exact ⟨t, u, _, ht, ho, (congrArg Team.records hu).trans rfl, by rw [hr1]; rfl, by rw [hr1, hr0]; rfl,
    (congrArg Team.s hu).trans rfl, (congrArg Team.k hu).trans rfl, (congrArg Team.splits hu).trans rfl⟩

end Sys2Proof.Machine

open Sys2Proof Sys2Proof.Machine

/-- Settles O22: lanes that agree are one group of all the lanes, which resolves without a split. -/
theorem callsAndReturns : Obligations.CallsAndReturns := by
  unfold Obligations.CallsAndReturns
  intro h off d a v i iss s e c next fits moved linked agree rel hl hm hne
  refine ⟨fun hr hag hv hs hk => ?_, fun hr hd hs hfit => ?_, fun hr hd hag hv hs hfit hk => ?_, fun hi hr hag hv hs hcnt hrel hbusy hk => ?_⟩
  all_goals
    obtain ⟨rfl, hcs, hci⟩ := hr.ctx
    obtain rfl := (getEnv_spec hr.env).1
  · let b := c.begun (branchForm [fA a 2] []) c.e (issOf h)
    have hbr : b.branch .zero true (b.indirect a false) = b.resolve .zero true [⟨c.m, v, none, 0, 0⟩] := by
      rw [indirect_branch (c := b) hne (hm.trans hk) hag hv hs]
      exact branch_all hr.calm hm (.inl rfl)
    exact moved_plain hr hl (.inl rfl) rfl (eff := (opBrx a).eff) (hbr.trans (resolve_one_plain ⟨rfl, rfl, rfl⟩))
  · let b := c.begun (branchForm [] [fD d 2]) c.e (issOf h)
    have hgrp := callGroup_ok (c := b) (m := c.m) (pc := c.target off) hs hfit
    have hbr : (opCall d off).eff b = b.resolve d false [⟨c.m, c.target off, some (w64 (2 ^ 56 * (0 / 8)) ||| (b.next &&& w64 (2 ^ 56 - 1))), 0, 0⟩] := by
      have hgs : (match b.callGroup b.m (b.target off) with
          | .error b => Except.error b
          | .ok g => Except.ok [g]) = .ok [⟨c.m, c.target off, some (w64 (2 ^ 56 * (0 / 8)) ||| (b.next &&& w64 (2 ^ 56 - 1))), 0, 0⟩] := by
        rw [show b.callGroup b.m (b.target off) = _ from hgrp]
      exact (congrArg (b.branch d false) hgs).trans (branch_all hr.calm hm (.inl rfl))
    exact moved_link hr hl (.inl rfl) rfl (eff := (opCall d off).eff)
      ((hbr.trans (resolve_one_link rfl rfl rfl rfl)).trans (by rw [link_toNat]; rfl))
  · let b := c.begun (branchForm [fA a 2] [fD d 2]) c.e (issOf h)
    have hgrp := callGroup_ok (c := b) (m := c.m) (pc := v) hs hfit
    have hbr : (opCalli d a).eff b = b.resolve d true [⟨c.m, v, some (w64 (2 ^ 56 * (0 / 8)) ||| (b.next &&& w64 (2 ^ 56 - 1))), 0, 0⟩] := by
      have hgs : b.indirect a true = .ok [⟨c.m, v, some (w64 (2 ^ 56 * (0 / 8)) ||| (b.next &&& w64 (2 ^ 56 - 1))), 0, 0⟩] := by
        rw [indirect_call (c := b) hne (hm.trans hk) hag hv, show b.callGroup b.m v = _ from hgrp]
        rfl
      exact (congrArg (b.branch d true) hgs).trans (branch_all hr.calm hm (.inl rfl))
    exact moved_link hr hl (.inl rfl) rfl (eff := (opCalli d a).eff)
      ((hbr.trans (resolve_one_link rfl rfl rfl rfl)).trans (by rw [link_toNat]; rfl))
  · let b := c.begun (branchForm [fA a 2] []) c.e iss
    have hgs : b.returns a = .ok [⟨c.m, w64 (v.toNat % 2 ^ 56), none, 0, rel⟩] :=
      returns_agree (c := b) hne (hm.trans hk) hag hv hcnt hs hrel
    have hbr : (opRet a).eff b = b.resolve .zero true [⟨c.m, w64 (v.toNat % 2 ^ 56), none, 0, rel⟩] :=
      (congrArg (b.branch .zero true) hgs).trans (branch_all hr.calm hm (.inr (by rw [show (⟨c.m, w64 (v.toNat % 2 ^ 56), none, 0, rel⟩ : Grp).lanes = c.e.rcd.k0 from hm]; exact hbusy)))
    have hx : exec i c.e.s = (opRet a).run iss c.e.s := hi.run rfl rfl nofun
    obtain h0 | h0 := Nat.eq_zero_or_pos rel
    · rw [h0] at hbr
      rw [h0]
      exact moved_plain hr hl (.inl rfl) hx (hbr.trans (resolve_one_plain ⟨rfl, rfl, rfl⟩))
    · exact moved_release hr hl (.inl rfl) hx (hbr.trans (resolve_one_release rfl rfl (Nat.pos_iff_ne_zero.1 h0)))

end

section
/-! Waiting, ending lanes and joining (R122 to R124, R151, R152): what becomes of one team while others of its block and launch move. -/

namespace Sys2Proof.Machine

/-! One team followed through a change of the state. -/

/-- A team of the block afterwards was there before, and has the property where it had it. -/
structure BlockKeeps (P : Team → Prop) (ti : Nat) (b b' : Block) : Prop where
  bid : b'.bid = b.bid
  team : ∀ u', b'.team? ti = some u' → ∃ u, b.team? ti = some u ∧ (P u → P u')

/-- The team that a block's number and an index name was there before, and has the property where it had it. -/
def KeepsTeam (P : Team → Prop) (bid ti : Nat) (s t : State) : Prop :=
  ∀ u', t.team? bid ti = some u' → ∃ u, s.team? bid ti = some u ∧ (P u → P u')

variable {P : Team → Prop} {ti bid : Nat} {b b' b'' : Block} {s t u : State}

theorem BlockKeeps.refl (P : Team → Prop) (ti : Nat) (b : Block) : BlockKeeps P ti b b := ⟨rfl, fun u' h => ⟨u', h, id⟩⟩

theorem BlockKeeps.trans (h : BlockKeeps P ti b b') (g : BlockKeeps P ti b' b'') : BlockKeeps P ti b b'' :=
  ⟨g.bid.trans h.bid, fun u'' hu => by
    obtain ⟨u', hu', hp'⟩ := g.team u'' hu
    obtain ⟨u, hu, hp⟩ := h.team u' hu'
    exact ⟨u, hu, hp' ∘ hp⟩⟩

theorem BlockKeeps.foldl {α : Type} {f : Block → α → Block} (hf : ∀ b x, BlockKeeps P ti b (f b x)) (l : List α) :
    ∀ b, BlockKeeps P ti b (l.foldl f b) := by
  induction l with
  | nil => exact .refl P ti
  | cons x l ih => exact fun b => (hf b x).trans (ih _)

theorem BlockKeeps.ite {c : Prop} [Decidable c] (ha : BlockKeeps P ti b b') (hb : BlockKeeps P ti b b'') :
    BlockKeeps P ti b (if c then b' else b'') := by
  split
  · exact ha
  · exact hb

/-- Each team changed alike. -/
theorem BlockKeeps.mapTeams {g : Team → Team} (hbid : b'.bid = b.bid) (hts : b'.teams = b.teams.map g) (hidx : ∀ t, (g t).idx = t.idx)
    (hg : ∀ t, P t → P (g t)) : BlockKeeps P ti b b' := by
  refine ⟨hbid, fun u' hu => ?_⟩
  have hp : (fun t : Team => t.idx == ti) ∘ g = fun t => t.idx == ti := funext fun t => by rw [Function.comp, hidx]
  rw [Block.team?, hts, List.find?_map, hp, Option.map_eq_some_iff] at hu
  obtain ⟨u, hu, rfl⟩ := hu
  exact ⟨u, hu, hg u⟩

theorem KeepsTeam.of_blocks (h : t.blocks = s.blocks) : KeepsTeam P bid ti s t := fun u' hu => ⟨u', by
  rw [State.team?, State.block?, h] at hu; exact hu, id⟩

theorem KeepsTeam.refl (s : State) : KeepsTeam P bid ti s s := .of_blocks rfl

theorem KeepsTeam.trans (h : KeepsTeam P bid ti s t) (g : KeepsTeam P bid ti t u) : KeepsTeam P bid ti s u := fun u'' hu => by
  obtain ⟨u', hu', hp'⟩ := g u'' hu
  obtain ⟨u, hu, hp⟩ := h u' hu'
  exact ⟨u, hu, hp' ∘ hp⟩

theorem KeepsTeam.foldl {α : Type} {f : State → α → State} (hf : ∀ s x, KeepsTeam P bid ti s (f s x)) (l : List α) :
    ∀ s, KeepsTeam P bid ti s (l.foldl f s) := by
  induction l with
  | nil => exact .refl
  | cons x l ih => exact fun s => (hf s x).trans (ih _)

/-- Each block changed alike. -/
theorem KeepsTeam.mapBlocks {f : Block → Block} (hbs : t.blocks = s.blocks.map f) (hf : ∀ b, BlockKeeps P ti b (f b)) :
    KeepsTeam P bid ti s t := by
  intro u' hu
  have hb : t.block? bid = (s.block? bid).map f := by
    have hp : (fun b : Block => b.bid == bid) ∘ f = fun b => b.bid == bid := funext fun b => by rw [Function.comp, (hf b).bid]
    rw [State.block?, hbs, List.find?_map, hp]
    rfl
  rw [State.team?, hb] at hu
  cases hs : s.block? bid with
  | none => rw [hs] at hu; cases hu
  | some b =>
    rw [hs] at hu
    obtain ⟨u, hu, hp⟩ := (hf b).team u' hu
    exact ⟨u, by rw [State.team?, hs]; exact hu, hp⟩

/-- Blocks of some numbers gone. -/
theorem KeepsTeam.filterBlocks {p : Nat → Bool} (hbs : t.blocks = s.blocks.filter fun b => p b.bid) : KeepsTeam P bid ti s t := by
  intro u' hu
  have hb : t.block? bid = if p bid then s.block? bid else none := by
    rw [State.block?, hbs, State.block?]
    induction s.blocks with
    | nil => simp
    | cons c l ih =>
      rw [List.filter_cons]
      by_cases hc : c.bid = bid
      · subst hc
        cases hp : p c.bid
        · rw [hp] at ih
          simpa using ih
        · simp
      · have hne : (c.bid == bid) = false := by simpa using hc
        split
        · simpa [List.find?_cons, hne] using ih
        · simpa [List.find?_cons, hne] using ih
  rw [State.team?, hb] at hu
  cases hp : p bid
  · rw [hp] at hu
    cases hu
  · rw [hp] at hu
    exact ⟨u', hu, id⟩

/-! A team whose one record is ready, or that has none: what barriers of others, retirements and departures leave of it. -/

/-- The vector registers are `v`, no probe runs, and the one record that may be left is ready and holds the lanes k, which are some. -/
structure ReadyOrGone (v : SMap W32) (k : LaneMask) (u : Team) : Prop where
  vec : u.v = v
  calm : u.probe = none
  recs : u.records = [] ∨ ∃ r, u.records = [r] ∧ r.wait = .ready ∧ r.k0 = k ∧ k ≠ 0

variable {v : SMap W32} {k : LaneMask} {now id : Nat} {w : Team}

/-- A change of records that leaves a ready one as it is, and fusion. -/
theorem ReadyOrGone.mapRecs (h : ReadyOrGone v k w) {g : Record → Record} (hg : ∀ r, r.wait = .ready → g r = r) :
    ReadyOrGone v k { w with records := w.records.map g } := by
  refine ⟨h.vec, h.calm, ?_⟩
  obtain h0 | ⟨r, hr, hw, hk⟩ := h.recs
  · exact .inl (by simp [h0])
  · exact .inr ⟨r, by simp [hr, hg r hw], hw, hk⟩

theorem ReadyOrGone.fuse (h : ReadyOrGone v k w) : ReadyOrGone v k (w.fuse now) := by
  have hsame : w.fuse now = w := by
    obtain h0 | ⟨r, hr, hw, -⟩ := h.recs
    · exact fuse_one now w (by simp [h0]) (by simp [h0])
    · exact fuse_one now w (by simp [hr]) (by simp [hr, hw, Wait.isJoin])
  rw [hsame]
  exact h

theorem ReadyOrGone.congr (h : ReadyOrGone v k w) {u : Team} (hv : u.v = w.v) (hp : u.probe = w.probe) (hr : u.records = w.records) :
    ReadyOrGone v k u := ⟨hv.trans h.vec, hp.trans h.calm, hr ▸ h.recs⟩

theorem inherit_foldl_rest (ts : List Team) : ∀ t : Team, (ts.foldl Team.inherit t).v = t.v ∧ (ts.foldl Team.inherit t).probe = t.probe ∧
    (ts.foldl Team.inherit t).records = t.records ∧ (ts.foldl Team.inherit t).idx = t.idx := by
  induction ts with
  | nil => exact fun t => ⟨rfl, rfl, rfl, rfl⟩
  | cons u ts ih => exact fun t => ih (t.inherit u)

theorem releaseBar_ready {r : Record} (h : r.wait = .ready) : releaseBar id now r = r := by rw [releaseBar, h]
theorem releaseGbar_ready {r : Record} (h : r.wait = .ready) : releaseGbar id now r = r := by rw [releaseGbar, h]

theorem arriveBar_keeps (b : Block) (t : Team) : BlockKeeps (ReadyOrGone v k) ti b (arriveBar id b t) := by
  unfold arriveBar
  extract_lets st mine
  split
  · exact .mapTeams rfl rfl (fun u => by split <;> rfl) fun u hu => by
      split
      · exact hu.congr rfl rfl rfl
      · exact hu
  · exact .refl _ _ _

theorem barTest_keeps (b : Block) : BlockKeeps (ReadyOrGone v k) ti b (barTest now id b) := by
  have harrive : BlockKeeps (ReadyOrGone v k) ti b (b.teams.foldl (arriveBar id) b) := .foldl (fun b t => arriveBar_keeps b t) _ _
  unfold barTest
  extract_lets b₁ st go
  refine harrive.trans (.ite (.mapTeams (g := go) rfl rfl (fun u => ?_) fun u hu => ?_) (.refl _ _ _))
  · exact (onlyRecs_fuse now _).idx.trans (inherit_foldl_rest b₁.teams _).2.2.2
  · obtain ⟨hv, hp, hr, -⟩ := inherit_foldl_rest b₁.teams { u with records := u.records.map (releaseBar id now) }
    exact ((hu.mapRecs fun r => releaseBar_ready).congr hv hp hr).fuse

theorem barTestAll_keeps (b : Block) : BlockKeeps (ReadyOrGone v k) ti b (barTestAll now b) :=
  .foldl (fun b _ => barTest_keeps b) _ b

theorem gbarTest_keeps (s : State) (q lseq : Nat) (id : Nat) : KeepsTeam (ReadyOrGone v k) bid ti s (gbarTest s q lseq id) := by
  unfold gbarTest
  split
  · exact .refl s
  · extract_lets st new arrived drop mine upd s₁ all now go upd₂ s₂
    have hdrop : KeepsTeam (ReadyOrGone v k) bid ti s s₁ := by
      refine .mapBlocks rfl fun b => .ite (.mapTeams (g := drop b) rfl rfl (fun u => ?_) fun u hu => ?_) (.refl _ _ _)
      · simp only [drop]; split <;> rfl
      · simp only [drop]
        split
        · exact hu.congr rfl rfl rfl
        · exact hu
    have hgo : KeepsTeam (ReadyOrGone v k) bid ti s₁ s₂ := by
      refine .mapBlocks rfl fun b => .ite (.mapTeams (g := go) rfl rfl (fun u => ?_) fun u hu => ?_) (.refl _ _ _)
      · exact (onlyRecs_fuse now _).idx
      · exact (hu.mapRecs fun r => releaseGbar_ready).fuse
    split
    · exact (hdrop.trans hgo).trans (.of_blocks rfl)
    · exact hdrop.trans (.of_blocks rfl)

theorem gbarTestAll_keeps (s : State) (q lseq : Nat) : KeepsTeam (ReadyOrGone v k) bid ti s (gbarTestAll s q lseq) :=
  .foldl (fun s n => gbarTest_keeps s q lseq n) _ s

theorem wakeAll_limit_keeps (s : State) : KeepsTeam (ReadyOrGone v k) bid ti s (s.wakeAll Wait.isLimit) :=
  .mapBlocks rfl fun b => .mapTeams (g := Team.wake Wait.isLimit s.time) rfl rfl (fun u => rfl) fun u hu =>
    hu.mapRecs fun r hr => by rw [wakeRec, hr]; rfl

/-! A team that leaves its row. -/

theorem answered_blocks (s : State) (lines : List Nat) (g : Nat) : (answered s lines g).2.blocks = s.blocks :=
  congrArg State.blocks (OnlyMem.foldl writeBack_onlyMem lines s).frame |>.trans rfl

theorem teamAcks_blocks (s : State) (q : Nat) (t : Team) : (teamAcks s q t).2.blocks = s.blocks := by
  have hflush : (flushRead s (queueCtx s q) t).blocks = s.blocks := by unfold flushRead; split <;> rfl
  exact (answered_blocks _ _ t.gwct).trans hflush

theorem leaseRow_blocks (s : State) (core row q lseq : Nat) : (leaseRow s core row q lseq).blocks = s.blocks := by
  unfold leaseRow
  split
  · rfl
  · split
    · rfl
    · extract_lets mine add
      split <;> rfl

theorem launchTest_blocks (s : State) (q lseq : Nat) : (launchTest s q lseq).blocks = s.blocks := by
  unfold launchTest
  split
  · rfl
  · split
    · exact (endLaunch_endsLaunches _ _ _ _).blocks
    · rfl

theorem endRegs_keeps (s : State) (q lseq idx : Nat) : KeepsTeam (ReadyOrGone v k) bid ti s (endRegs s q lseq idx) := by
  unfold endRegs
  extract_lets mine gone rest s₁
  split
  · exact .refl s
  · refine KeepsTeam.trans (t := s₁) (.mapBlocks rfl fun b => ?_) (wakeAll_limit_keeps s₁)
    unfold Block.retest
    split
    · exact ⟨rfl, fun u h => ⟨u, h, fun h => h⟩⟩
    · exact .refl _ _ _

theorem freeGroup_keeps (s : State) (la : Launch) (b : Block) : KeepsTeam (ReadyOrGone v k) bid ti s (freeGroup s la b) := by
  unfold freeGroup
  extract_lets grp savedMate s₁ s₂
  split
  · have hfree : KeepsTeam (ReadyOrGone v k) bid ti s s₁ := .filterBlocks (p := fun n => !(grp.any fun g => g.bid == n)) rfl
    exact (hfree.trans (wakeAll_limit_keeps s₁)).trans (.of_blocks (launchTest_blocks s₂ la.q la.lseq))
  · exact .refl s

theorem leaveTest_keeps (s : State) (bid' ti' : Nat) : KeepsTeam (ReadyOrGone v k) bid ti s (leaveTest s bid' ti') := by
  unfold leaveTest
  cases s.block? bid' with
  | none => exact .refl s
  | some b =>
    simp only
    cases b.team? ti' with
    | none => exact .refl s
    | some t =>
      simp only
      split
      · exact .refl s
      · cases s.launch? b.q b.lseq with
        | none => exact .refl s
        | some la =>
          simp only
          have hacks := teamAcks_blocks s b.q t
          obtain ⟨⟨g, s₁⟩, hs₁⟩ : ∃ r, r = teamAcks s b.q t := ⟨_, rfl⟩
          rw [← hs₁] at hacks ⊢
          simp only
          have hleft : KeepsTeam (ReadyOrGone v k) bid ti s₁
              (s₁.modTeam bid' ti' fun t => { t with left := true, drawn := 0, unacked := [], gwct := g }) := by
            refine .mapBlocks rfl fun b => .ite (.mapTeams rfl rfl (fun u => ?_) fun u hu => ?_) (.refl _ _ _)
            · split <;> rfl
            · split
              · exact hu.congr rfl rfl rfl
              · exact hu
          have hrow := (KeepsTeam.of_blocks (P := ReadyOrGone v k) (bid := bid) (ti := ti) hacks).trans
            (hleft.trans (.of_blocks (leaseRow_blocks _ b.coreNum t.row b.q b.lseq)))
          split
          · exact hrow
          · split
            · refine hrow.trans (KeepsTeam.trans ?_ ((endRegs_keeps _ _ _ _).trans (freeGroup_keeps _ _ _)))
              exact .mapBlocks rfl fun b => .ite ⟨rfl, fun u h => ⟨u, h, fun h => h⟩⟩ (.refl _ _ _)
            · exact hrow

theorem afterExit_keeps (s : State) (bid' ti' : Nat) : KeepsTeam (ReadyOrGone v k) bid ti s (afterExit s bid' ti') := by
  unfold afterExit
  extract_lets now s₁ s₂
  have hbars : KeepsTeam (ReadyOrGone v k) bid ti s s₁ := .mapBlocks rfl fun b => .ite (barTestAll_keeps b) (.refl _ _ _)
  have hgbars : KeepsTeam (ReadyOrGone v k) bid ti s₁ s₂ := by
    simp only [s₂]
    split
    · exact gbarTestAll_keeps _ _ _
    · exact .refl _
  exact (hbars.trans hgbars).trans (leaveTest_keeps _ _ _)

end Sys2Proof.Machine
end

section
/-! Joining (R122 to R124): two children of one split entry. -/

namespace Sys2Proof.Machine

variable {t : Team} {a b keep gone : Record} {sp : Split} {now : Nat} {pc : W64} {w : Wait}

/-- One of the two children of a split entry joins the other: the entry goes, and what is left is under the entry's own parent. -/
theorem mergeRec_two (ht : t.records = [keep, gone] ∨ t.records = [gone, keep]) (hne : gone.num ≠ keep.num) (hk : keep.parent = sp.entry)
    (hg : gone.parent = sp.entry) (hs : t.splits = [sp]) (harms : sp.arms = 2) (hw : (w.isSplit || w.isHeldJoin) = false) :
    (mergeRec now keep gone pc w t).splits = [] ∧ (mergeRec now keep gone pc w t).records = [{ keep with
      k0 := keep.k0 ||| gone.k0, etime := max keep.etime gone.etime, pc := pc, wait := w, pend := [], parent := sp.parent }] := by
  have hfilter : t.records.filter (fun r => r.num != gone.num) = [keep] := by
    have hkeep : (keep.num != gone.num) = true := by simpa using fun h => hne h.symm
    obtain ht | ht := ht <;> simp [ht, hkeep]
  unfold mergeRec
  extract_lets join t₁
  have hrec : t₁.drain.records = [{ keep with k0 := keep.k0 ||| gone.k0, etime := max keep.etime gone.etime, pc := pc, wait := w, pend := [] }] := by
    simp [t₁, Team.drain, hfilter, join]
  have hsp : t₁.drain.splits = [sp] := hs
  have hdrop : dropArm t₁.drain gone.parent 64 = { t₁.drain with
      splits := []
      records := [{ keep with k0 := keep.k0 ||| gone.k0, etime := max keep.etime gone.etime, pc := pc, wait := w, pend := [], parent := sp.parent }] } := by
    simp [dropArm, hsp, hg, harms, hrec, hk]
  rw [hdrop]
  refine ⟨rfl, ?_⟩
  simp [Team.wake, wakeRec, hw]

/-- A lone sub-team that waits at the `JOIN` of an entry that has gone goes on after it. -/
theorem settleJoins_gone {r : Record} {e n : Nat} (hr : t.records = [r]) (hw : r.wait = .join e) (hs : t.splits = []) :
    settleJoins now (n + 2) t = { t with records := [{ r with pc := r.pc + 8, wait := .ready, readySince := now, aged := false }] } := by
  have hover : t.records.find? (joinOver t) = some r := by simp [hr, joinOver, hw, hs]
  have hkids : joinKids t r = [r] := by simp [joinKids, hw, hs]
  obtain ⟨r', hr'⟩ : ∃ r' : Record, r' = { r with pc := r.pc + 8, wait := .ready, readySince := now, aged := false } := ⟨_, rfl⟩
  have hstep : settleJoins now (n + 2) t = settleJoins now (n + 1) { t with records := [r'] } := by
    rw [settleJoins, hover]
    simp only [hkids, List.all_cons, List.all_nil, beq_self_eq_true, Bool.and_true, if_true, List.foldl_nil, modRec_lone hr, hr']
  have hdone : settleJoins now (n + 1) { t with records := [r'] } = { t with records := [r'] } := by
    rw [settleJoins]
    have hnone : ([r'].find? (joinOver { t with records := [r'] })) = none := by simp [joinOver, hr']
    simp only [hnone]
  rw [hstep, hdone, hr']

/-- Both children wait at one `JOIN`: they fuse, the entry goes, and what they become goes on after it. -/
theorem fuse_joined (ht : t.records = [a, b]) (hne : a.num ≠ b.num) (ha : a.parent = sp.entry) (hb : b.parent = sp.entry)
    (hwa : a.wait = .join sp.entry) (hwb : b.wait = .join sp.entry) (hpc : b.pc = a.pc) (halloc : b.alloc = a.alloc)
    (hha : a.held = none) (hhb : b.held = none) (hs : t.splits = [sp]) (harms : sp.arms = 2) :
    (t.fuse now).splits = [] ∧ ∃ r, (t.fuse now).records = [r] ∧ r.k0 = a.k0 ||| b.k0 ∧ r.pc = a.pc + 8 ∧ r.wait = .ready ∧
      r.parent = sp.parent := by
  have hcan : canFuse a b = true := by simp [canFuse, hne, ha, hb, hpc, halloc, hha, hhb, hwa, hwb, Wait.isJoin]
  have hpair : fusePair t.records = some (a, b) := by simp [ht, fusePair, hcan]
  obtain ⟨keep, gone, hkg, hord, hfuse⟩ : ∃ keep gone, (keep = a ∧ gone = b ∨ keep = b ∧ gone = a) ∧
      (t.records = [keep, gone] ∨ t.records = [gone, keep]) ∧
      fuseAll now 32 t = fuseAll now 31 (mergeRec now keep gone a.pc (.join sp.entry) t) := by
    have hstep : ∀ keep gone, keep = (if a.num < b.num then a else b) → gone = (if a.num < b.num then b else a) →
        fuseAll now 32 t = fuseAll now 31 (mergeRec now keep gone a.pc (.join sp.entry) t) := by
      rintro _ _ rfl rfl
      rw [fuseAll, hpair]
      simp only [hwa, Wait.isJoin, if_true]
    by_cases hlt : a.num < b.num
    · exact ⟨a, b, .inl ⟨rfl, rfl⟩, .inl ht, hstep a b (by rw [if_pos hlt]) (by rw [if_pos hlt])⟩
    · exact ⟨b, a, .inr ⟨rfl, rfl⟩, .inr ht, hstep b a (by rw [if_neg hlt]) (by rw [if_neg hlt])⟩
  have hor : keep.k0 ||| gone.k0 = a.k0 ||| b.k0 := by
    obtain ⟨rfl, rfl⟩ | ⟨rfl, rfl⟩ := hkg
    · rfl
    · exact BitVec.or_comm _ _
  have hnum : gone.num ≠ keep.num := by
    obtain ⟨rfl, rfl⟩ | ⟨rfl, rfl⟩ := hkg
    · exact hne.symm
    · exact hne
  obtain ⟨hms, hmr⟩ := mergeRec_two (t := t) (now := now) (pc := a.pc) (w := .join sp.entry) (sp := sp) hord hnum
    (by obtain ⟨rfl, rfl⟩ | ⟨rfl, rfl⟩ := hkg <;> assumption) (by obtain ⟨rfl, rfl⟩ | ⟨rfl, rfl⟩ := hkg <;> assumption) hs harms rfl
  obtain ⟨m, hm⟩ : ∃ m, m = mergeRec now keep gone a.pc (.join sp.entry) t := ⟨_, rfl⟩
  rw [← hm] at hms hmr hfuse
  have hall : fuseAll now 31 m = m := by
    rw [fuseAll, hmr]
    rfl
  have htwo : ¬ t.records.length ≤ 1 := by simp [ht]
  have hset := settleJoins_gone (now := now) (n := 30) hmr rfl hms
  have hres : t.fuse now = settleJoins now 32 m := by
    have hone : (settleJoins now 32 m).records.length ≤ 1 := by rw [hset]; exact Nat.le_refl 1
    have hjoin : (m.records.any fun r => r.wait.isJoin) = true := by rw [hmr]; rfl
    simp only [Team.fuse, if_neg htwo, hfuse, hall, hjoin, if_true, if_pos hone]
  rw [hres, hset]
  exact ⟨hms, _, rfl, hor, rfl, rfl, rfl⟩

/-- One child waits at the `JOIN`, the other stands ready elsewhere: nothing fuses. -/
theorem fuse_first (ht : t.records = [a, b] ∨ t.records = [b, a]) (hb : b.parent = sp.entry)
    (hwa : a.wait = .join sp.entry) (hwb : b.wait = .ready) (hpc : b.pc ≠ a.pc) (hs : t.splits = [sp]) : t.fuse now = t := by
  have hab : canFuse a b = false := by
    have : (a.pc == b.pc) = false := by simpa using fun h => hpc h.symm
    simp [canFuse, this]
  have hba : canFuse b a = false := by
    have : (b.pc == a.pc) = false := by simpa using hpc
    simp [canFuse, this]
  have hpair : fusePair t.records = none := by obtain ht | ht := ht <;> simp [ht, fusePair, hab, hba]
  have hall : fuseAll now 32 t = t := by simp only [fuseAll, hpair]
  have hkid : b ∈ t.kids sp.entry := by
    rw [Team.kids, List.mem_filter]
    exact ⟨by obtain ht | ht := ht <;> simp [ht], by simp [hb]⟩
  have hkids : ((t.kids sp.entry).all fun k => k.held.isNone && k.wait == .join sp.entry && k.pc == a.pc) = false := by
    rw [List.all_eq_false]
    exact ⟨b, hkid, by simp [hwb]⟩
  have hovera : joinOver t a = false := by simp [joinOver, hwa, hs, hkids]
  have hoverb : joinOver t b = false := by simp [joinOver, hwb]
  have hset : settleJoins now 32 t = t := by
    have hnone : t.records.find? (joinOver t) = none := by obtain ht | ht := ht <;> simp [ht, hovera, hoverb]
    simp only [settleJoins, hnone]
  rw [Team.fuse, hall, ite_self]
  simp only [hset, hall, ite_self]

/-! The effects of the instructions. -/

variable {s : State} {e : Env} {c : Ctx} {f : Form} {iss : Iss} {ins : Instr} {eff : Ctx → Res}

/-- A lone sub-team that marks itself and waits (`YIELD`, `PAUSE`, R152). -/
theorem onlyRecord_waits {g : Record → Record} (hg : ∀ r, (g r).num = r.num) (hr : Runs f iss s e c) (hl : Lone e) (hf : f.dsts = [])
    (hx : exec ins s = issueForm f iss eff s) (hw : w.drains = false) (hj : w.isJoin = false)
    (he : eff (c.begun f e iss) = .done (c.modTeam (beginIssue [(f, c)] e iss) fun t => (t.modRec c.e.who.sub g).waitAt c.e.who.sub w)) :
    ∃ t u, exec ins s = .next t ∧ OnlyTeam e s t u ∧ OnlyRecord f e c u { g (issuedRec [(f, c)] e iss e.rcd) with wait := w } := by
  obtain ⟨rfl, -, -⟩ := hr.ctx
  refine onlyRecord_of _ (fun t => ?_) hr hl.1 (.inr hf) hx he ?_ hj
  · simp only [Team.waitAt, hw, Bool.false_eq_true, if_false]; rfl
  · obtain ⟨r0, hr0⟩ : ∃ r0, r0 = issuedRec [(f, c)] c.e iss c.e.rcd := ⟨_, rfl⟩
    have hnum : r0.num = c.e.who.sub := by rw [hr0]; exact getEnv_num hr.env
    have hmod : ({ c.e.team with records := [r0] } : Team).modRec c.e.who.sub g = { c.e.team with records := [g r0] } := by
      rw [← hnum, modRec_lone (t := { c.e.team with records := [r0] }) rfl]
    have hwait : ({ c.e.team with records := [g r0] } : Team).waitAt c.e.who.sub w = { c.e.team with records := [{ g r0 with wait := w }] } := by
      rw [← hnum, ← hg r0, waitAt_lone (t := { c.e.team with records := [g r0] }) rfl w, hw]
      rfl
    rw [← hr0, hmod, hwait]

/-- A wait alone, as the wait of an unmarked record. -/
theorem pauseTeam_eq (s : State) (c : Ctx) (w : Wait) : (c.modTeam s fun t => t.waitAt c.e.who.sub w) =
    c.modTeam s fun t => (t.modRec c.e.who.sub fun r => r).waitAt c.e.who.sub w := by
  have hid : ∀ t : Team, (t.modRec c.e.who.sub fun r => r) = t := fun t => by simp [Team.modRec]
  simp only [hid]

/-- What `EXIT` makes of its team before barriers and departures are looked at. -/
def Ctx.exitTeam (c : Ctx) (now : Nat) (t : Team) : Team :=
  ((t.modRec c.e.who.sub fun r => { r with k0 := r.k0 &&& ~~~c.m }).recEmpty now c.e.who.sub).fuse now

theorem recEmpty_idx (now n : Nat) (t : Team) : (t.recEmpty now n).idx = t.idx := by
  unfold Team.recEmpty
  split
  · rfl
  · split
    · rfl
    · split
      · rfl
      · exact (onlyRecs_dropArm 64 _ _).idx

/-- A lone sub-team whose lanes end: its record stays with the lanes left, or goes. -/
theorem exitTeam_ready {r : Record} (ht : t.records = [r]) (hn : r.num = c.e.who.sub) (hh : r.held = none) (hw : r.wait = .ready)
    (hp : t.probe = none) : ReadyOrGone t.v (r.k0 &&& ~~~c.m) (c.exitTeam now t) := by
  obtain ⟨r', hr'⟩ : ∃ r' : Record, r' = { r with k0 := r.k0 &&& ~~~c.m } := ⟨_, rfl⟩
  obtain ⟨t₁, ht₁⟩ : ∃ t₁ : Team, t₁ = t.modRec c.e.who.sub fun r => { r with k0 := r.k0 &&& ~~~c.m } := ⟨_, rfl⟩
  have hone : t₁ = { t with records := [r'] } := by rw [ht₁, ← hn, modRec_lone ht, hr']
  have hrec : t₁.rec? c.e.who.sub = some r' := by
    rw [← hn, show r.num = r'.num by rw [hr']]
    exact rec?_lone (by rw [hone])
  have hempty : ReadyOrGone t.v (r.k0 &&& ~~~c.m) (t₁.recEmpty now c.e.who.sub) := by
    rw [Team.recEmpty, hrec]
    by_cases hk : r.k0 &&& ~~~c.m = 0
    · have hheld : r'.held = none := by rw [hr']; exact hh
      have hgone : t₁.records.filter (fun q => q.num != c.e.who.sub) = [] := by
        rw [hone]
        simp [hr', hn]
      have hdrop := onlyRecs_dropArm 64 { t₁ with records := [] } r'.parent
      have hnone : ∀ fuel (t : Team) e, t.records = [] → (dropArm t e fuel).records = [] := by
        intro fuel
        induction fuel with
        | zero => exact fun t e h => h
        | succ n ih =>
          intro t e h
          simp only [dropArm]
          split
          · exact h
          · split
            · exact ih _ _ h
            · split
              · simp [h]
              · exact h
      have hk' : ¬ r'.k0 ≠ 0 := by rw [hr']; simpa using hk
      simp only [if_neg hk', hheld, hgone]
      refine ⟨?_, ?_, .inl ?_⟩
      · exact hdrop.v.trans (by rw [hone])
      · exact hdrop.probe.trans (by rw [hone]; exact hp)
      · simp only [Team.wake, hnone 64 { t₁ with records := [] } r'.parent rfl, List.map_nil]
    · have hk' : r'.k0 ≠ 0 := by rw [hr']; exact hk
      simp only [if_pos hk']
      rw [hone]
      exact ⟨rfl, hp, .inr ⟨r', rfl, by rw [hr']; exact hw, by rw [hr'], hk⟩⟩
  rw [Ctx.exitTeam, ← ht₁]
  exact hempty.fuse

/-- `JOIN` by lanes under a split entry whose children's allocations are alike. -/
theorem joinNow_eff {k : LaneMask} (h : ∀ r ∈ c.e.team.kids c.e.rcd.parent, r.alloc = c.e.rcd.alloc) :
    c.joinNow k = .done (c.modTeam c.s fun t => (t.modRec c.e.who.sub fun r => { r with k0 := k, held := none, pc := c.e.rcd.pc }).waitAt
      c.e.who.sub (.join c.e.rcd.parent)) := by
  have hany : (((c.e.team.kids c.e.rcd.parent).map Record.alloc).any fun a => a != c.e.rcd.alloc) = false := by
    rw [List.any_eq_false]
    intro x hx
    obtain ⟨r, hr, rfl⟩ := List.mem_map.1 hx
    simp [h r hr]
  simp only [Ctx.joinNow, hany, Bool.and_false, Bool.false_eq_true, if_false]

/-- `JOIN` under a split entry, none held. -/
theorem opJoin_under (hroot : ¬ c.e.rcd.parent = Config.root) (hheld : c.e.rcd.held = none) : opJoin.eff c = c.joinNow c.e.rcd.k0 := by
  simp only [opJoin, if_neg hroot, hheld]

/-- What `JOIN` makes of a team whose issuing sub-team's parent is the root. -/
def Ctx.rejoin (c : Ctx) (t : Team) : Team := t.modRec c.e.who.sub fun r =>
  match r.held with
  | some h => if c.heldHere then { r with k0 := r.k0 ||| h.lanes, held := none } else r
  | none => r

theorem rejoin_lone {r : Record} (ht : t.records = [r]) (hn : r.num = c.e.who.sub) (hh : r.held = none) : c.rejoin t = t := by
  rw [Ctx.rejoin, ← hn, modRec_lone ht]
  simp only [hh, ← ht]

/-- Where the effect leaves a lone team ready or without records, so does what follows. -/
theorem ReadyOrGone.ended {v : SMap W32} {k : LaneMask} {u : Team} (h : ReadyOrGone v k u) (fs : List (Form × Ctx)) (now : Nat) :
    ReadyOrGone v k (u.ended fs now) := by
  rw [ended_calm u fs now h.calm]
  have hx := onlyX_steps fs u
  exact (h.congr ((congrArg Team.v hx).trans rfl) ((congrArg Team.probe hx).trans rfl) ((congrArg Team.records hx).trans rfl)).fuse

/-- A lone sub-team whose lanes end (`EXIT`, and `NMRET` on a station): what is left of its team has its registers, and a record of the
lanes left or none. -/
theorem exitLanes_ready {s1 : State} (hr : Runs f iss s e c) (hl : Lone e) (hf : f.dsts = []) (hx : exec ins s = issueForm f iss eff s)
    (he : eff (c.begun f e iss) = .done ((c.begun f e iss).exitLanes s1))
    (hteam : s1.team? e.who.bid e.who.team = some (e.team.begun [(f, c)] e iss)) :
    ∃ t now, exec ins s = .next t ∧ t = (afterExit (c.modTeam s1 (c.exitTeam s1.time)) e.who.bid e.who.team).modTeam e.who.bid e.who.team
        (fun u => u.ended [(f, c.begun f e iss)] now) ∧
      ∀ u, t.team? e.who.bid e.who.team = some u → ReadyOrGone e.team.v (e.rcd.k0 &&& ~~~c.m) u := by
  obtain ⟨rfl, -, -⟩ := hr.ctx
  generalize hnow : s1.time = now
  obtain ⟨x, hxs⟩ : ∃ x, x = c.modTeam s1 (c.exitTeam now) := ⟨_, rfl⟩
  have heff : eff (c.begun f c.e iss) = .done (afterExit x c.e.who.bid c.e.who.team) := by rw [he, hxs, ← hnow]; rfl
  refine ⟨_, _, (hx.trans (hr.done heff)).trans (congrArg Host.Outcome.next (finish_eq _ _ _ hr.calm)), by rw [← hxs], fun u hu => ?_⟩
  rw [State.team?_modTeam _ _ _ _ _ _ (fun _ => ended_idx _ _ _), Option.map_eq_some_iff] at hu
  obtain ⟨u₁, hu₁, rfl⟩ := hu
  obtain ⟨u₀, hu₀, hkeep⟩ := afterExit_keeps (v := c.e.team.v) (k := c.e.rcd.k0 &&& ~~~c.m) x c.e.who.bid c.e.who.team u₁ hu₁
  have hidx : ∀ t, (c.exitTeam now t).idx = t.idx := fun t => (onlyRecs_fuse now _).idx.trans (recEmpty_idx now c.e.who.sub _)
  have hexited : x.team? c.e.who.bid c.e.who.team = some (c.exitTeam now (c.e.team.begun [(f, c)] c.e iss)) := by
    rw [hxs, Ctx.modTeam, State.team?_modTeam _ _ _ _ _ _ hidx, hteam, Option.map_some, if_pos ⟨rfl, rfl⟩]
  rw [hexited, Option.some_inj] at hu₀
  have hready : ReadyOrGone c.e.team.v (c.e.rcd.k0 &&& ~~~c.m) u₀ := by
    have hexit := exitTeam_ready (t := { c.e.team with records := [issuedRec [(f, c)] c.e iss c.e.rcd] }) (c := c) (now := now)
      rfl (getEnv_num hr.env) hl.2 rfl hr.noProbe
    rw [← hu₀, begun_of_lone_calm hr hl.1 (.inr hf)]
    exact hexit
  rw [if_pos ⟨rfl, rfl⟩]
  exact (hkeep hready).ended _ _

theorem exit_ready (hr : Runs f iss s e c) (hl : Lone e) (hf : f.dsts = []) (hx : exec ins s = issueForm f iss opExit.eff s) :
    ∃ t, exec ins s = .next t ∧ ∀ u, t.team? e.who.bid e.who.team = some u → ReadyOrGone e.team.v (e.rcd.k0 &&& ~~~c.m) u := by
  have hteam : (beginIssue [(f, c)] e iss).team? e.who.bid e.who.team = some (e.team.begun [(f, c)] e iss) := by
    rw [beginIssue_eq, (getEnv_spec hr.env).1]
    exact (onlyTeam_of hr.env (fun t => t.begun [(f, c)] e iss) (fun _ => rfl) _ _).team
  obtain ⟨t, -, ht, -, hready⟩ := exitLanes_ready (s1 := beginIssue [(f, c)] e iss) hr hl hf hx rfl hteam
  exact ⟨t, ht, hready⟩

/-- What a record becomes when the issuing one comes to stand at its `JOIN`: outstanding results of the team complete (R78). -/
def Ctx.joinRec (c : Ctx) (en : Nat) (r : Record) : Record :=
  if r.num = c.e.who.sub then { r with k0 := c.e.rcd.k0, held := none, pc := c.e.rcd.pc, pend := [], wait := .join en } else { r with pend := [] }

theorem joinRec_self {r : Record} {en : Nat} (h : r.num = c.e.who.sub) : c.joinRec en r =
    { r with k0 := c.e.rcd.k0, held := none, pc := c.e.rcd.pc, pend := [], wait := .join en } := if_pos h

theorem joinRec_other {r : Record} {en : Nat} (h : r.num ≠ c.e.who.sub) : c.joinRec en r = { r with pend := [] } := if_neg h

theorem joinTeam_records (t : Team) (en : Nat) :
    ((t.modRec c.e.who.sub fun r => { r with k0 := c.e.rcd.k0, held := none, pc := c.e.rcd.pc }).waitAt c.e.who.sub (.join en)).records =
      t.records.map (c.joinRec en) := by
  change (((t.records.map fun r => if r.num = c.e.who.sub then { r with k0 := c.e.rcd.k0, held := none, pc := c.e.rcd.pc } else r).map
    fun r => { r with pend := [] }).map fun r => if r.num = c.e.who.sub then { r with wait := .join en } else r) = _
  rw [List.map_map, List.map_map]
  refine List.map_congr_left fun r _ => ?_
  by_cases h : r.num = c.e.who.sub
  · rw [joinRec_self h, Function.comp_apply, Function.comp_apply, if_pos h, if_pos h]
  · rw [joinRec_other h, Function.comp_apply, Function.comp_apply, if_neg h, if_neg h]

/-- `JOIN` of a child whose sibling is the only other sub-team: the issuing record stands at the `JOIN`, and then sub-teams fuse. -/
theorem join_effect {b : Record} {sp : Split} (hr : Runs (ctlForm [] [] .ends true) iss s e c) (hx : exec ins s = issueForm (ctlForm [] [] .ends true) iss opJoin.eff s)
    (hrecs : e.team.records = [e.rcd, b] ∨ e.team.records = [b, e.rcd]) (hheld : e.rcd.held = none) (hpar : e.rcd.parent = sp.entry)
    (hspr : sp.entry ≠ Config.root) (hnum : b.num ≠ e.rcd.num) (halloc : b.alloc = e.rcd.alloc) :
    ∃ (t : State) (a : Record) (w : Team), exec ins s = .next t ∧ OnlyTeam e s t (w.fuse s.time) ∧ w.splits = e.team.splits ∧
      (w.records = [a, { b with pend := [] }] ∨ w.records = [{ b with pend := [] }, a]) ∧ a.num = e.rcd.num ∧ a.pc = e.rcd.pc ∧
      a.k0 = e.rcd.k0 ∧ a.parent = sp.entry ∧ a.alloc = e.rcd.alloc ∧ a.held = none ∧ a.wait = .join sp.entry := by
  obtain ⟨rfl, -, -⟩ := hr.ctx
  let f := ctlForm [] [] .ends true
  let en := c.e.rcd.parent
  let G : Team → Team := fun t => (t.modRec c.e.who.sub fun r => { r with k0 := c.e.rcd.k0, held := none, pc := c.e.rcd.pc }).waitAt
    c.e.who.sub (.join en)
  have hkids : ∀ r ∈ c.e.team.kids en, r.alloc = c.e.rcd.alloc := by
    intro r hr
    have hmem : r ∈ c.e.team.records := (List.mem_filter.1 hr).1
    obtain h | h := hrecs <;> rw [h] at hmem <;> simp only [List.mem_cons, List.not_mem_nil, or_false] at hmem <;>
      obtain rfl | rfl := hmem <;> first | rfl | exact halloc
  have heff : opJoin.eff (c.begun f c.e iss) = .done (c.modTeam (beginIssue [(f, c)] c.e iss) G) := by
    have hroot : ¬ c.e.rcd.parent = Config.root := by rw [hpar]; exact hspr
    exact (opJoin_under (c := c.begun f c.e iss) hroot hheld).trans (joinNow_eff (c := c.begun f c.e iss) hkids)
  obtain ⟨t, ht, ho⟩ := team_effect G (fun t => rfl) hr hx heff
  obtain ⟨r0, hr0⟩ : ∃ r0, r0 = issuedRec [(f, c)] c.e iss c.e.rcd := ⟨_, rfl⟩
  have hsub : c.e.rcd.num = c.e.who.sub := getEnv_num hr.env
  have hbsub : b.num ≠ c.e.who.sub := hsub ▸ hnum
  obtain ⟨g, hg⟩ : ∃ g, g = c.e.team.begun [(f, c)] c.e iss := ⟨_, rfl⟩
  have hgrecs : g.records = [r0, b] ∨ g.records = [b, r0] := by
    have hmap := begun_records c.e.team [(f, c)] c.e iss
    rw [← hg] at hmap
    obtain h | h := hrecs <;> rw [hmap, h] <;> simp [hsub, hbsub, hr0]
  have hgs : g.splits = c.e.team.splits := by rw [hg, begun_rest c.e.team [(f, c)] c.e iss hr.noProbe]
  have hgp : g.probe = none := by rw [hg, begun_rest c.e.team [(f, c)] c.e iss hr.noProbe]; exact hr.noProbe
  rw [← hg, ended_calm (G g) _ _ hgp] at ho
  have hr0sub : r0.num = c.e.who.sub := by rw [hr0]; exact hsub
  refine ⟨t, { r0 with k0 := c.e.rcd.k0, held := none, pc := c.e.rcd.pc, pend := [], wait := .join en }, G g, ht, ho, hgs, ?_,
    by rw [hr0]; rfl, rfl, rfl, by rw [hr0]; exact hpar, by rw [hr0]; rfl, rfl, by rw [← hpar]⟩
  rw [show (G g).records = g.records.map (c.joinRec en) from joinTeam_records g en]
  obtain h | h := hgrecs
  · left
    rw [h, List.map_cons, List.map_singleton, joinRec_self hr0sub, joinRec_other hbsub]
  · right
    rw [h, List.map_cons, List.map_singleton, joinRec_self hr0sub, joinRec_other hbsub]

end Sys2Proof.Machine

open Sys2Proof Sys2Proof.Machine

/-- Settles O23: a lone record yields, pauses or loses its lanes, and two children of a split meet at their `JOIN`. -/
theorem yieldExitAndJoin : Obligations.YieldExitAndJoin := by
  unfold Obligations.YieldExitAndJoin
  refine ⟨?_, ?_, ?_⟩
  · intro h a j iss s e c fp yields n hl
    have hyield : ∀ {ins : Instr} {f : Form} {iss : Iss} {eff : Ctx → Res}, Runs f iss s e c → f.dsts = [] → exec ins s = issueForm f iss eff s →
        eff (c.begun f e iss) = .done (c.begun f e iss).yield → yields ins f := by
      intro ins f iss eff hr hf hx he
      obtain ⟨rfl, -, rfl⟩ := hr.ctx
      obtain rfl := (getEnv_spec hr.env).1
      obtain ⟨t, u, ht, ho, hu⟩ := onlyRecord_waits (g := fun r => { r with yielded := true })
        (w := .yield (c.e.s.time + cyclesNs c.e.s c.e.blk 64) (yieldOthers c.e)) (fun _ => rfl) hr hl hf hx rfl rfl he
      exact ⟨t, u, _, ht, ho, hu, rfl, rfl, rfl, rfl⟩
    refine ⟨fun hi hr => hyield hr rfl (hi.run (o := opYield) rfl rfl nofun) rfl, fun hr => ⟨fun h0 => ?_, fun h0 => ?_⟩⟩
    · exact hyield hr rfl (eff := (opPause a).eff) rfl (congrArg Res.done (if_pos h0))
    · obtain ⟨rfl, -, hci⟩ := hr.ctx
      obtain rfl := (getEnv_spec hr.env).1
      obtain ⟨t, u, ht, ho, hu⟩ := onlyRecord_waits (ins := .pause h a) (eff := (opPause a).eff) (g := fun r => r)
        (w := .pause (c.e.s.time + min n 1048575)) (fun _ => rfl) hr hl rfl rfl rfl rfl
        ((congrArg Res.done (if_neg h0)).trans (congrArg Res.done (pauseTeam_eq _ _ _)))
      exact ⟨t, u, _, ht, ho, hu, by rw [hci]; rfl, rfl, rfl⟩
  · intro h i iss s e c hi hr hl
    obtain ⟨t, ht, hready⟩ := exit_ready hr hl rfl (hi.run (o := opExit) rfl rfl nofun)
    refine ⟨t, ht, fun u hu => ⟨(hready u hu).vec, fun r hrec => ?_⟩⟩
    obtain h0 | ⟨r', hr', -, hk, hne⟩ := (hready u hu).recs
    · rw [h0] at hrec; cases hrec
    · rw [hr', List.mem_singleton] at hrec
      subst hrec
      exact ⟨hk, hk ▸ hne⟩
  · intro h s e c b sp hr hlit
    refine ⟨fun hl hroot => ?_, fun hrecs hsp hheld hbheld hpar hbpar harms hspne hspr hbnum halloc => ⟨fun hw hpc => ?_, fun hw hpc => ?_⟩⟩
    · obtain ⟨hce, -, -⟩ := hr.ctx
      have heff : opJoin.eff (c.begun (ctlForm [] [] .ends true) e (issOf h)) = .done (c.modTeam (beginIssue [(ctlForm [] [] .ends true, c)] e (issOf h)) c.rejoin) := by
        subst hce
        exact if_pos hroot
      obtain ⟨t, ht, ho⟩ := team_effect (ins := .join h) c.rejoin (fun _ => rfl) hr rfl heff
      refine ⟨t, _, ht, ho, ?_⟩
      have hsame : c.rejoin (e.team.begun [(ctlForm [] [] .ends true, c)] e (issOf h)) = e.team.begun [(ctlForm [] [] .ends true, c)] e (issOf h) := by
        rw [begun_of_lone hr hl.1]
        exact rejoin_lone rfl (by rw [hce]; exact getEnv_num hr.env) hl.2
      rw [hsame]
      exact wrote_team _ e (issOf h) c .zero 0 _ s.time hce hr.noProbe hr.lane
    · obtain ⟨t, a, w, ht, ho, hws, hwr, hn, hpca, hk, hp, hal, hh, hwa⟩ := join_effect (ins := .join h) hr rfl hrecs hheld hpar hspr hbnum halloc
      have hjoin : (w.fuse s.time).splits = [] ∧ ∃ r, (w.fuse s.time).records = [r] ∧ r.k0 = e.rcd.k0 ||| b.k0 ∧ r.pc = e.rcd.pc + 8 ∧
          r.wait = .ready ∧ r.parent = sp.parent := by
        obtain hwr | hwr := hwr
        · obtain ⟨hs, r, hr', hk', hp', hw', hpar'⟩ := fuse_joined (now := s.time) hwr (by rw [hn]; exact hbnum.symm) hp hbpar hwa hw (hpc.trans hpca.symm)
            (halloc.trans hal.symm) hh hbheld (hws.trans hsp) harms
          exact ⟨hs, r, hr', by rw [hk', hk], by rw [hp', hpca], hw', hpar'⟩
        · obtain ⟨hs, r, hr', hk', hp', hw', hpar'⟩ := fuse_joined (now := s.time) hwr (by rw [hn]; exact hbnum) hbpar hp hw hwa (hpca.trans hpc.symm)
            (hal.trans halloc.symm) hbheld hh (hws.trans hsp) harms
          exact ⟨hs, r, hr', by rw [hk', hk]; exact BitVec.or_comm _ _, by rw [hp']; exact congrArg (· + 8) hpc, hw', hpar'⟩
      obtain ⟨hs, r, hr', hk', hp', hw', hpar'⟩ := hjoin
      exact ⟨t, _, r, ht, ho, hs, hr', hk', hp', hw', hpar'⟩
    · obtain ⟨t, a, w, ht, ho, hws, hwr, hn, hpca, hk, hp, hal, hh, hwa⟩ := join_effect (ins := .join h) hr rfl hrecs hheld hpar hspr hbnum halloc
      rw [fuse_first hwr (sp := sp) hbpar hwa hw (by rw [hpca]; exact hpc) (hws.trans hsp)] at ho
      refine ⟨t, w, a, ht, ho, hws.trans hsp, ?_, hk, hpca, hwa⟩
      have hne : (b.num == e.rcd.num) = false := by simpa using hbnum
      obtain h | h := hwr <;> simp [Team.rec?, h, hn, hne]

end

section
/-! The encoded schedule (R76, R77): what an issue notes of its result's words, and when they are available. -/

namespace Sys2Proof.Machine

variable {s : State} {e : Env} {c : Ctx} {f : Form} {iss : Iss} {ins : Instr} {eff : Ctx → Res} {d : Fin 176} {L : Nat}

theorem liveWords_nodup (m : LaneMask) (pw n : Nat) : (liveWords m pw n).Nodup := List.nodup_range.filter _

/-- The word of a pass has the pass's rank. -/
theorem findIdx_of_getElem? {ws : List Nat} (hn : ws.Nodup) {k w : Nat} (hk : ws[k]? = some w) : (ws.findIdx fun j => j == w) = k := by
  obtain ⟨hlt, rfl⟩ := List.getElem?_eq_some_iff.1 hk
  rw [List.findIdx_eq hlt]
  refine ⟨by simp, fun j hj => ?_⟩
  have hne : ws[j] ≠ ws[k] := fun h => Nat.ne_of_lt hj ((List.Nodup.getElem_inj_iff hn).1 h)
  simpa using hne

/-- The results that a form of one vector register leaves on their way, one for each word of its passes. -/
theorem newPends_word (hpass : f.pass = .vec ∨ f.pass = .cross) (hd : f.dsts = [.opnd 3 (.v d) 1]) (hlat : f.lat = some L) :
    newPends c f = (passWords c.e c.m).map fun w =>
      ⟨.v d.val, w, c.e.rcd.etime + ((passWords c.e c.m).findIdx fun j => j == w) + L⟩ := by
  have hwords : c.dstWords (passWords c.e c.m) (.opnd 3 (.v d) 1) = (passWords c.e c.m).map fun w => (RegKey.v d.val, w) := by
    simp [Ctx.dstWords, Field.keys]
  obtain hp | hp := hpass
  · simp only [newPends, hlat, hd, List.flatMap_cons, List.flatMap_nil, List.append_nil, hwords, List.map_map, hp, rankOf]
    rfl
  · simp only [newPends, hlat, hd, List.flatMap_cons, List.flatMap_nil, List.append_nil, hwords, List.map_map, hp, rankOf]
    rfl

/-- A word of the new result is late until the encoded time of its pass plus L, whatever was on its way before. -/
theorem lateAt_merged {r : Record} {ws : List Nat} (hn : ws.Nodup) {now t k w τ : Nat} {old : List Pend} {key : RegKey} (hk : ws[k]? = some w)
    (hτ : now ≤ τ) (hp : r.pend = mergePends now old (ws.map fun w => ⟨key, w, t + (ws.findIdx fun j => j == w) + L⟩)) :
    lateAt r key w τ = decide (τ < t + k + L) := by
  have hmem : w ∈ ws := List.mem_of_getElem? hk
  rw [lateAt, hp, Bool.eq_iff_iff, decide_eq_true_eq, List.any_eq_true]
  constructor
  · rintro ⟨p, hpm, hpw⟩
    simp only [Bool.and_eq_true, beq_iff_eq, decide_eq_true_eq] at hpw
    obtain ⟨⟨hkey, hword⟩, hlate⟩ := hpw
    rw [mergePends, List.mem_append, List.mem_filter, List.mem_filter] at hpm
    obtain ⟨-, hold⟩ | ⟨hnew, -⟩ := hpm
    · have hsame : ((ws.map fun w => (⟨key, w, t + (ws.findIdx fun j => j == w) + L⟩ : Pend)).any fun q => q.key == p.key && q.word == p.word) = true := by
        rw [List.any_eq_true]
        exact ⟨_, List.mem_map_of_mem hmem, by simp [hkey, hword]⟩
      simp [hsame] at hold
    · obtain ⟨w', hw', rfl⟩ := List.mem_map.1 hnew
      simp only at hword hlate
      rw [hword, findIdx_of_getElem? hn hk] at hlate
      exact hlate
  · intro hlt
    refine ⟨⟨key, w, t + k + L⟩, ?_, by simpa using hlt⟩
    rw [mergePends, List.mem_append]
    refine .inr (List.mem_filter.2 ⟨?_, by simpa using Nat.lt_of_le_of_lt hτ hlt⟩)
    refine List.mem_map.2 ⟨w, hmem, ?_⟩
    rw [findIdx_of_getElem? hn hk]

/-- THE SCHEDULE of an instruction of a lone sub-team that writes one vector register. -/
theorem issued_schedule {n : Nat} {val : Nat → Nat} (hr : Runs f iss s e c) (hl : Lone e) (hpass : f.pass = .vec ∨ f.pass = .cross)
    (hd : f.dsts = [.opnd 3 (.v d) 1]) (hlat : f.lat = some L) (hx : exec ins s = issueForm f iss eff s)
    (he : eff (c.begun f e iss) = .done ((c.begun f e iss).putOn c.lanes (.v d) n val (c.begun f e iss).s)) :
    let ws := liveWords c.m e.pw e.team.lanes
    ∃ t u r pend, exec ins s = .next t ∧ OnlyTeam e s t u ∧ u.records = [r] ∧ Issued e c ws.length pend r ∧
      ∀ k w τ, ws[k]? = some w → r.etime ≤ τ → lateAt r (.v d.val) w τ = decide (τ < e.rcd.etime + k + L) := by
  obtain ⟨rfl, -, hci⟩ := hr.ctx
  intro ws
  have hput : (c.begun f c.e iss).putOn c.lanes (.v d) n val (c.begun f c.e iss).s =
      c.modTeam (beginIssue [(f, c)] c.e iss) (c.putTeam (.v d) n val) := putOn_eq (c.begun f c.e iss) (.v d) n val (c.begun f c.e iss).s
  have hbegun := begun_of_lone_calm hr hl.1 (.inl (by rw [hlat]; rfl))
  obtain ⟨hrest, -, -⟩ := putTeam_any c (.v d) n val { c.e.team with records := [issuedRec [(f, c)] c.e iss c.e.rcd] }
  obtain ⟨t, u, ht, ho, hu, -⟩ := lone_effect (r := issuedRec [(f, c)] c.e iss c.e.rcd) (c.putTeam (.v d) n val) (putTeam_idx c (.v d) n val) hr hx
    (he.trans (congrArg Res.done hput)) (congrArg _ hbegun) (by rw [hrest]; exact hr.noProbe) (by rw [hrest]) rfl
  rw [hrest] at hu
  have hcount : passCount c.e f c.m = max ws.length 1 := by
    obtain h | h := hpass <;> rw [passCount, h] <;> rfl
  have hnew : ([(f, c)].filter fun p => !(p.2.m == 0)).flatMap (fun p => newPends p.2 p.1) =
      ws.map fun w => ⟨.v d.val, w, c.e.rcd.etime + (ws.findIdx fun j => j == w) + L⟩ := by
    have hm : (c.m == 0) = false := by simpa using hr.lane
    rw [List.filter_cons_of_pos (by simpa using hm), List.filter_nil, List.flatMap_cons, List.flatMap_nil, List.append_nil,
      newPends_word hpass hd hlat]
    rfl
  have htime : c.e.rcd.etime + (max 1 (passCount c.e f c.m) - 1) + max iss.stall 1 = c.e.rcd.etime + (ws.length - 1) + max iss.stall 1 := by
    rw [hcount]; omega
  refine ⟨t, u, _, (issuedRec [(f, c)] c.e iss c.e.rcd).pend, ht, ho, (congrArg Team.records hu).trans rfl, ?_, fun k w τ hk hτ => ?_⟩
  · simp only [Issued, issuedRec, List.foldl_cons, List.foldl_nil, htime, hci]
  · exact lateAt_merged (liveWords_nodup _ _ _) hk hτ (congrArg (mergePends _ _) hnew)

end Sys2Proof.Machine

open Sys2Proof Sys2Proof.Machine

/-- Settles O29: the four instructions write one vector register through a form of known latency. -/
theorem encodedSchedule : Obligations.EncodedSchedule := by
  unfold Obligations.EncodedSchedule
  intro h m op d a b i f L s e c hi hr hl
  obtain ⟨rfl, rfl, rfl⟩ | ⟨rfl, rfl, rfl⟩ | ⟨rfl, rfl, rfl⟩ | ⟨rfl, hop, rfl, rfl⟩ := hi
  · exact issued_schedule hr hl (.inl rfl) rfl rfl (eff := (opIadd .s32 false m (.v d) a b).eff) rfl rfl
  · exact issued_schedule hr hl (.inl rfl) rfl rfl (eff := (opImul .s32 false m (.v d) a b).eff) rfl rfl
  · exact issued_schedule hr hl (.inl rfl) rfl rfl (eff := (opFrcp .rne m (.v d) a).eff) rfl rfl
  · have h1 : treeRegs op = 1 := by cases op <;> first | rfl | exact absurd rfl hop
    refine issued_schedule hr hl (.inr rfl) rfl rfl (eff := (opTred op (.v d) a).eff) ?_ rfl
    change issueForm (crossForm [fA a (treeRegs op)] (.v d) (treeRegs op)) _ _ s = _
    rw [h1]

end

section
/-! The checks before an effect (R79, R80, R132, R133, R135), one after the other. -/

namespace Sys2Proof.Machine

variable {s : State} {e : Env} {c : Ctx} {f : Form} {iss : Iss} {eff : Ctx → Res}

/-- A stop of the checks with a cause is taken as that trap. -/
theorem issueForm_trap {cause lane : Nat} {v : W64} (he : getEnv s = some e) (hp : e.probing = false)
    (hg : gate f iss e = .trap cause v lane) : issueForm f iss eff s = .next (takeTrap e cause v lane iss.ilen) := by
  rw [issueForm_some he, runForm, hp, Bool.false_and, if_neg nofun, hg]

/-- A register that is not ready keeps the instruction where it stands. -/
theorem issueForm_wait (he : getEnv s = some e) (hp : e.probing = false) (hg : gate f iss e = .wait) :
    issueForm f iss eff s = .next (holdAs .register e.who s) := by
  rw [issueForm_some he, runForm, hp, Bool.false_and, if_neg nofun, hg, (getEnv_spec he).1]

/-- The registers that a form's own codes name, and that it writes, are not all ready. -/
def Form.busy (f : Form) (i : Iss) (t : Team) : Bool :=
  busyKeys t ((f.srcs ++ [Field.mask 4 i.kmask]).flatMap Field.keys) (f.dsts.flatMap Field.keys)

theorem gate_station (hsta : e.station = true) (h : f.sta = false ∨ stationReg f = true) :
    gate f iss e = .trap cILLOP 0 (e.low (passMask e f iss)) := by
  have hc : (e.station && (!f.sta || stationReg f)) = true := by obtain h | h := h <;> simp [hsta, h]
  unfold gate
  simp only [hc, if_true]

theorem gate_busy (hsta : e.station = false) (h : f.busy iss e.team = true) : gate f iss e = .wait := by
  rw [Form.busy] at h
  unfold gate
  simp only [hsta, Bool.false_and, Bool.false_eq_true, if_false, h, if_true]

theorem gate_priv (hsta : e.station = false) (h : f.busy iss e.team = false) (hp : f.prv = true) (hla : e.la.priv = false) :
    gate f iss e = .trap cPRIV 0 (e.low (passMask e f iss)) := by
  rw [Form.busy] at h
  unfold gate
  simp only [hsta, Bool.false_and, Bool.false_eq_true, if_false, h, hp, hla, Bool.not_false, Bool.and_true, if_true]

theorem gate_budget {r : Nat} (hsta : e.station = false) (h : f.busy iss e.team = false) (hp : f.prv = false)
    (hb : budgetFault e f = some r) : gate f iss e = .trap cBUDGET (w64 r) (e.low (passMask e f iss)) := by
  rw [Form.busy] at h
  unfold gate
  simp only [hsta, Bool.false_and, Bool.false_eq_true, if_false, h, hp, hb]

theorem gate_stallx {fd : Field} {l : List (Nat × RegKey × Nat)} {rest : List (Field × List (Nat × RegKey × Nat))} (hsta : e.station = false)
    (h : f.busy iss e.team = false) (hp : f.prv = false) (hb : budgetFault e f = none)
    (hl : lateReads e f iss (passMask e f iss) = (fd, l) :: rest) (hm : e.team.sbchk = true) :
    gate f iss e = .trap cSTALLX (w64 fd.code) (e.low (passMask e f iss)) := by
  rw [Form.busy] at h
  unfold gate
  simp only [hsta, Bool.false_and, Bool.false_eq_true, if_false, h, hp, hb, hl, hm, if_true]

theorem gate_index {l q : Nat} (hsta : e.station = false) (h : f.busy iss e.team = false) (hp : f.prv = false) (hb : budgetFault e f = none)
    (hl : lateReads e f iss (passMask e f iss) = [])
    (hi : Ctx.idxFault ⟨e, e.s, iss, passMask e f iss, []⟩ f = some (l, q)) : gate f iss e = .trap cIDXB (w64 q) l := by
  rw [Form.busy] at h
  unfold gate
  simp only [hsta, Bool.false_and, Bool.false_eq_true, if_false, h, hp, hb, hl, hi]

/-- Where nothing is awaited and nothing locked, no register is busy. -/
theorem busy_none (hw : e.team.unready = []) (hl : e.team.locks = []) (f : Form) (i : Iss) : f.busy i e.team = false := by
  rw [Form.busy, busyKeys, hw, hl]
  simp only [List.contains_nil, List.any_nil]
  rw [Bool.or_eq_false_iff, List.any_eq_false, List.any_eq_false]
  refine ⟨fun _ _ => nofun, fun k _ => ?_⟩
  cases k <;> exact nofun

theorem busyKeys_of_mem {t : Team} {reads writes : List RegKey} {k : RegKey} (hk : k ∈ reads ++ writes) (hu : k ∈ t.unready) :
    busyKeys t reads writes = true := by
  rw [busyKeys, Bool.or_eq_true]
  exact .inl (List.any_eq_true.2 ⟨k, hk, List.contains_iff_mem.2 hu⟩)

/-- The first of an ascending list at which a function has a value. -/
theorem findSome?_of_ascending {α : Type} {g : Nat → Option α} {x : α} {l : Nat} (hx : g l = some x) : ∀ {ls : List Nat}, ls.Pairwise (· < ·) →
    l ∈ ls → (∀ j ∈ ls, j < l → g j = none) → ls.findSome? g = some x := by
  intro ls
  induction ls with
  | nil => intro _ hmem; cases hmem
  | cons a ls ih =>
    intro hasc hmem hlow
    obtain ⟨ha, hrest⟩ := List.pairwise_cons.mp hasc
    obtain rfl | hin := List.mem_cons.mp hmem
    · rw [List.findSome?_cons, hx]
    · rw [List.findSome?_cons, hlow a List.mem_cons_self (ha l hin)]
      exact ih hrest hin fun j hj => hlow j (List.mem_cons_of_mem _ hj)

/-- A word of a source register that is late is the first undersized read of a form whose first source it is. -/
theorem lateReads_first {r : Fin 176} {srcs : List Field} {k w : Nat} (hsrc : f.srcs = .opnd 0 (.v r) 1 :: srcs) (hpass : f.pass = .vec) (m : LaneMask)
    (hk : (passWords e m)[k]? = some w) (hlate : lateAt e.rcd (.v r.val) w (e.rcd.etime + k) = true) :
    ∃ l rest, lateReads e f iss m = (.opnd 0 (.v r) 1, l) :: rest := by
  have hpend : e.rcd.pend.isEmpty = false := by
    cases hp : e.rcd.pend with
    | nil => rw [lateAt, hp] at hlate; exact absurd hlate nofun
    | cons _ _ => rfl
  have hw : w ∈ (passWords e m).filter fun w => lateAt e.rcd (.v r.val) w (e.rcd.etime + rankOf f (passWords e m) w) := by
    refine List.mem_filter.2 ⟨List.mem_of_getElem? hk, ?_⟩
    have hrank : rankOf f (passWords e m) w = k := by
      rw [rankOf, hpass]
      exact findIdx_of_getElem? (liveWords_nodup _ _ _) hk
    rw [hrank]
    exact hlate
  have hfield : (lateField e f iss.lit m (srcWords e f m) (.opnd 0 (.v r) 1)).isEmpty = false := by
    rw [Bool.eq_false_iff, ne_eq, List.isEmpty_iff]
    intro hnil
    have hmem : (0, RegKey.v r.val, w) ∈ lateField e f iss.lit m (srcWords e f m) (.opnd 0 (.v r) 1) := by
      simp only [lateField, Field.keys, srcWords, hpass]
      exact List.mem_flatMap.2 ⟨.v r.val, by simp, List.mem_map.2 ⟨w, hw, rfl⟩⟩
    rw [hnil] at hmem
    cases hmem
  rw [lateReads, hpend, if_neg nofun, hsrc]
  simp only [List.map_cons, List.cons_append]
  rw [List.filter_cons_of_pos (by simpa using hfield)]
  exact ⟨_, _, rfl⟩

end Sys2Proof.Machine

open Sys2Proof Sys2Proof.Machine

/-- Settles O28: the checks in R80's order, each the first that does not pass. -/
theorem checksBeforeEffect : Obligations.ChecksBeforeEffect := by
  unfold Obligations.ChecksBeforeEffect
  intro h m d r q b i s e l iss add addx f low late he hp trap
  let eff := (opIadd .s32 false m (.v d) (.v r) .zero).eff
  have hadd : exec add s = issueForm f iss eff s := rfl
  refine ⟨fun hsta hreg => ?_, fun hsta hbusy => ?_, fun hsta hun hlk => ⟨fun hr => ?_, fun hr hd => ?_, fun hr hd hmode hlate => ?_, fun hd hpend hl hlow hx => ?_, fun hla hi => ?_⟩⟩
  · refine hadd.trans (issueForm_trap he hp (gate_station hsta (.inr ?_)))
    simp only [stationReg, f, arithForm, fA, fB, List.cons_append, List.nil_append, List.any_cons, List.any_nil, Bool.or_false, Bool.or_eq_true,
      decide_eq_true_eq]
    omega
  · refine hadd.trans (issueForm_wait he hp (gate_busy hsta ?_))
    obtain hd | hr := hbusy
    · exact busyKeys_of_mem (k := .v d.val) (by simp [f, arithForm, Field.keys]) hd
    · exact busyKeys_of_mem (k := .v r.val) (by simp [f, arithForm, fA, Field.keys]) hr
  · refine hadd.trans (issueForm_trap he hp (gate_budget hsta (busy_none hun hlk f iss) rfl ?_))
    simp only [budgetFault, f, arithForm, fA, List.cons_append, List.findSome?_cons, if_pos (Nat.lt_succ_of_le hr), Nat.max_eq_left hr]
  · refine hadd.trans (issueForm_trap he hp (gate_budget hsta (busy_none hun hlk f iss) rfl ?_))
    simp only [budgetFault, f, arithForm, fA, fB, List.cons_append, List.nil_append, List.findSome?_cons, if_neg (Nat.not_lt.2 (Nat.succ_le_of_lt hr)),
      if_pos (Nat.lt_succ_of_le hd), Nat.max_eq_left hd]
  · have hbud : budgetFault e f = none := by
      simp only [budgetFault, f, arithForm, fA, fB, List.cons_append, List.nil_append, List.findSome?_cons, if_neg (Nat.not_lt.2 (Nat.succ_le_of_lt hr)),
        if_neg (Nat.not_lt.2 (Nat.succ_le_of_lt hd)), List.findSome?_nil]
    obtain ⟨k, w, hk, hlw⟩ := hlate
    obtain ⟨ls, rest, hreads⟩ := lateReads_first (f := f) (iss := iss) (r := r) rfl rfl (passMask e f iss) hk hlw
    exact hadd.trans (issueForm_trap he hp (gate_stallx hsta (busy_none hun hlk f iss) rfl hbud hreads hmode))
  · let fx := arithForm [fA (.x q) 1, fB .zero 1] (.v d) 1 4
    have hbud : budgetFault e fx = none := by
      simp only [budgetFault, fx, arithForm, fA, fB, List.cons_append, List.nil_append, List.findSome?_cons, if_neg (Nat.not_lt.2 (Nat.succ_le_of_lt hd)),
        List.findSome?_nil]
    have hreads : lateReads e fx iss (passMask e fx iss) = [] := by rw [lateReads, hpend]; rfl
    have hbad : idxBad e.rcd.alloc 1 (e.team.getX q.val l) = true := by
      have hxs : xBound (e.team.getX q.val l) ≤ xIndex (e.team.getX q.val l) ∨
          e.rcd.alloc < xBase (e.team.getX q.val l) + xBound (e.team.getX q.val l) := by
        simp only [xBound, xIndex, xBase, bitsOf]
        simpa using hx
      rw [idxBad]
      obtain hx | hx := hxs <;> simp [hx]
    have hidx : Ctx.idxFault ⟨e, e.s, iss, passMask e fx iss, []⟩ fx = some (l, q.val) := by
      change (maskLanes (execMask e iss) e.team.lanes).findSome? (fun j =>
        ([(q.val, 1)].find? fun p => idxBad e.rcd.alloc p.2 (e.team.getX p.1 j)).map fun p => (j, p.1)) = _
      refine findSome?_of_ascending ?_ (List.pairwise_lt_range.filter _) hl fun j hj hjl => ?_
      · simp only [List.find?_cons, hbad, Option.map_some]
      · simp only [List.find?_cons, List.find?_nil, hlow j hj hjl, Option.map_none]
    exact issueForm_trap (f := fx) (eff := (opIadd .s32 false m (.v d) (.x q) .zero).eff) he hp (gate_index hsta (busy_none hun hlk fx iss) rfl hbud hreads hidx)
  · have hpriv : ∀ {f : Form} {eff : Ctx → Res}, f.prv = true → f.pass = .vec → exec i s = issueForm f iss eff s →
        exec i s = .next (trap cPRIV 0 (e.low (execMask e iss))) := by
      intro f eff hf hv hx
      have hmask : passMask e f iss = execMask e iss := by rw [passMask, hv]
      rw [hx, issueForm_trap he hp (gate_priv hsta (busy_none hun hlk f iss) hf hla), hmask]
    obtain rfl | rfl | rfl | rfl := hi
    · exact hpriv (f := (opSwrp b).form) (eff := (opSwrp b).eff) rfl rfl rfl
    · exact hpriv (f := (opOvld b).form) (eff := (opOvld b).eff) rfl rfl rfl
    · exact hpriv (f := opHalt.form) (eff := opHalt.eff) rfl rfl rfl
    · exact hpriv (f := (opSwr .full 0x0D b).form) (eff := (opSwr .full 0x0D b).eff) rfl rfl rfl

end

section
/-! Special registers (R145, R146, R148, R160, R161): their values, and what writing one makes of the team, the launch or the context. -/

namespace Sys2Proof.Machine

variable {s : State} {e : Env} {c : Ctx} {f : Form} {iss : Iss} {ins : Instr} {eff : Ctx → Res}

/-! Values. -/

theorem foldl_add_eq_sum (g : Nat → Nat) (l : List Nat) : ∀ n, l.foldl (fun n i => n + g i) n = n + (l.map g).sum := by
  induction l with
  | nil => simp
  | cons a l ih => intro n; rw [List.foldl_cons, ih, List.map_cons, List.sum_cons]; omega

theorem poolFree_eq_sum (s : State) (core : Nat) : poolFree s core = 196608 - ((coreTeams s core).map Team.drawn).sum := by
  have hfold : ∀ (ts : List Team) (n : Nat), ts.foldl (fun n t => n + t.drawn) n = n + (ts.map Team.drawn).sum := by
    intro ts
    induction ts with
    | nil => simp
    | cons t ts ih => intro n; rw [List.foldl_cons, ih, List.map_cons, List.sum_cons]; omega
  rw [poolFree, hfold, Nat.zero_add]
  rfl

theorem wfld_eq (e : Env) (i l : Nat) :
    e.wfld i l = (e.team.wid0 + w64 l).toNat / 2 ^ ((e.widths.take i).sum) % 2 ^ e.widths.getD i 0 := by
  rw [Env.wfld, Env.wid, foldl_add_eq_sum (fun i => i), Nat.zero_add, List.map_id']

theorem async_eq (t : Team) : t.async = ((List.range 6).map fun i => 256 ^ i * t.count i).sum := by
  rw [Team.async, foldl_add_eq_sum (fun i => 256 ^ i * t.count i), Nat.zero_add]

theorem specialRegs_eq {n : Nat} {g : SReg} (h : sreg n = some g) (half : Half) :
    specialRegs n half = if g.wide = true ∧ half = .full then 2 else 1 := by
  rw [specialRegs, h]
  cases half <;> simp

theorem stationSpecial_eq (n : Nat) : stationSpecial n = decide (n ≤ 9 ∨ n = 0x0C ∨ n = 0x0E) := by
  rw [Bool.eq_iff_iff]; simp [stationSpecial, or_assoc]

theorem privSpecial_eq (n : Nat) : privSpecial n = decide (n = 0x0D ∨ n = 0x40) := by
  rw [Bool.eq_iff_iff]; simp [privSpecial]

/-! What a register's write makes of a team, a form whose source selects through no index register. -/

theorem indexes_one {a : Opnd} {k : Nat} {pr : ProbeK} {sta prv : Bool} (ha : ∀ q, a ≠ .x q) : (teamForm [fA a k] [] pr sta prv).indexes = [] := by
  cases a with
  | x q => exact absurd rfl (ha q)
  | _ => rfl

/-- A change of the team beside its records, where no index register steps. -/
theorem team_becomes (G : Team → Team) (hidx : ∀ t, (G t).idx = t.idx) (hr : Runs f iss s e c) (hd : f.dsts = []) (hi : f.indexes = [])
    (hx : exec ins s = issueForm f iss eff s) (he : eff (c.begun f e iss) = .done (c.modTeam (beginIssue [(f, c)] e iss) G))
    (hp : ∀ t, (G t).probe = t.probe) :
    ∃ t u, exec ins s = .next t ∧ OnlyTeam e s t u ∧ OnlyRecs (G (e.team.begun [(f, c)] e iss)) u ∧
      ∃ rs, e.team.begun [(f, c)] e iss = { e.team with records := rs } := by
  obtain ⟨t, ht, ho⟩ := team_effect G hidx hr hx he
  have hb : e.team.begun [(f, c)] e iss = { e.team with records := (e.team.begun [(f, c)] e iss).records } := by
    have hw : (e.team.begun [(f, c)] e iss).waits = e.team.waits := by
      rw [begun_waits e.team f e iss c hr.lane, hd]
      simp [Ctx.named]
    have hrest := begun_rest e.team [(f, c)] e iss hr.noProbe
    rwa [hw] at hrest
  refine ⟨t, _, ht, ho, ?_, _, hb⟩
  rw [ended_calm _ _ _ ((hp _).trans ((congrArg Team.probe hb).trans hr.noProbe))]
  simp only [List.foldl_cons, List.foldl_nil, hi, postStep_nil]
  exact onlyRecs_fuse _ _

theorem loHalf_zeroExtend (v : W32) : loHalf (v.zeroExtend 64) = v := by
  apply BitVec.eq_of_toNat_eq
  simp only [loHalf, BitVec.zeroExtend, BitVec.extractLsb'_toNat, BitVec.toNat_setWidth, Nat.shiftRight_zero]
  have := v.isLt
  omega

theorem mergeHalf_lo (b : W64) (v : W32) :
    mergeHalf .lo b (v.zeroExtend 64) = ((b.toNat / 2 ^ 32 * 2 ^ 32 + v.toNat : Nat) : W64) := by
  apply BitVec.eq_of_toNat_eq
  have hv := v.isLt
  have hb := b.isLt
  rw [mergeHalf, loHalf_zeroExtend, pairVal_toNat, hiHalf, BitVec.extractLsb'_toNat, BitVec.natCast_eq_ofNat, BitVec.toNat_ofNat, Nat.shiftRight_eq_div_pow]
  omega

theorem mergeHalf_hi (b : W64) (v : W32) :
    mergeHalf .hi b (v.zeroExtend 64) = ((v.toNat * 2 ^ 32 + b.toNat % 2 ^ 32 : Nat) : W64) := by
  apply BitVec.eq_of_toNat_eq
  have hv := v.isLt
  rw [mergeHalf, loHalf_zeroExtend, pairVal_toNat, loHalf, BitVec.extractLsb'_toNat, BitVec.natCast_eq_ofNat, BitVec.toNat_ofNat, Nat.shiftRight_zero]
  omega

theorem swrTeam_frame (half : Half) (n : Nat) (v : W64) (t : Team) (rs : List Record) :
    (swrTeam half n v t).idx = t.idx ∧ (swrTeam half n v t).probe = t.probe ∧
      swrTeam half n v { t with records := rs } = { swrTeam half n v t with records := rs } := by
  simp only [swrTeam]
  split_ifs <;> exact ⟨rfl, rfl, rfl⟩

/-- A change of the launches. -/
theorem launch_effect {s' : State} (hr : Runs f iss s e c) (hx : exec ins s = issueForm f iss eff s)
    (he : eff (c.begun f e iss) = .done s') : ∃ t, exec ins s = .next t ∧ t.launches = s'.launches ∧ t.ovtab = s'.ovtab ∧ t.mem = s'.mem := by
  refine ⟨_, hx.trans (hr.done he), ?_⟩
  rw [finish_eq _ _ _ hr.calm]
  exact ⟨rfl, rfl, rfl⟩

/-- What a stop of the effect does. -/
theorem trap_effect {cause lane : Nat} {v : W64} (hr : Runs f iss s e c) (hx : exec ins s = issueForm f iss eff s)
    (he : eff (c.begun f e iss) = .trap cause v lane) : exec ins s = .next (takeTrap e cause v lane iss.ilen) := by
  rw [hx, hr.next eff, he]
  rfl

theorem launch?_modLaunch (s : State) (q lseq : Nat) (g : Launch → Launch) (hg : ∀ l, (g l).q = l.q ∧ (g l).lseq = l.lseq) :
    (s.modLaunch q lseq g).launch? q lseq = (s.launch? q lseq).map g := by
  simp only [State.launch?, State.modLaunch]
  induction s.launches with
  | nil => rfl
  | cons l ls ih =>
    by_cases h : l.q = q ∧ l.lseq = lseq
    · have hg' : (g l).q = q ∧ (g l).lseq = lseq := by rw [(hg l).1, (hg l).2]; exact h
      simp [h, hg']
    · have h' : (l.q == q && l.lseq == lseq) = false := by simpa using h
      simp only [List.map_cons, if_neg h, List.find?_cons, h']
      exact ih

/-- A launch is found by its own queue and number. -/
theorem launch?_own {q lseq : Nat} {la : Launch} (h : s.launch? q lseq = some la) : s.launch? la.q la.lseq = some la := by
  have hk := List.find?_some h
  simp only [Bool.and_eq_true, beq_iff_eq] at hk
  rw [hk.1, hk.2]
  exact h

theorem ovtabLegal_iff (v : Nat) : ovtabLegal v = true ↔ v < 2 ^ 14 ∧ ∀ i, i < 7 → v / 4 ^ i % 4 ≠ 3 := by
  simp [ovtabLegal]

theorem ovtab_setOvtab (s : State) (ctx : Nat) (v : W32) (q : Nat) : ovtab (setOvtab s ctx v) q = if q = ctx then v else ovtab s q := by
  rw [ovtab, setOvtab, smGet_smSet]
  rfl

end Sys2Proof.Machine

open Sys2Proof Sys2Proof.Machine

/-- Settles O26: a register's value is the one of R145's table, and a write changes that register alone. -/
theorem specialRegisters : Obligations.SpecialRegisters := by
  unfold Obligations.SpecialRegisters
  constructor
  · intro h half d num g s e c n k f t wid val hg hr
    have hk : specialRegs n half = k := specialRegs_eq hg half
    have hform : (opSrd half d n).form = f := by
      change Form.mk [] [fD d (specialRegs n half)] _ none .run (stationSpecial n) (privSpecial n) = f
      rw [hk, stationSpecial_eq, privSpecial_eq]
    have hval : ∀ l, specialVal e n l = val l := by
      intro l
      have hpool := poolFree_eq_sum s e.blk.coreNum
      have hes := (getEnv_spec hr.env).1
      have hn : n = 0x42 ∨ n ≤ 0x14 ∨ n = 0x18 ∨ n = 0x19 ∨ n = 0x1A ∨ n = 0x40 ∨ n = 0x41 := by
        simp only [sreg] at hg
        repeat' split at hg
        all_goals first | cases hg; omega | cases hg
      refine ite_congr rfl (fun _ => rfl) fun h0 => ite_congr rfl (fun _ => rfl) fun h1 => ite_congr rfl (fun _ => wfld_eq e _ l) fun h7 => ?_
      refine ite_congr rfl (fun _ => congrArg State.time hes) fun h8 => ite_congr rfl (fun _ => rfl) fun h9 => ite_congr rfl (fun _ => rfl) fun hA => ?_
      refine ite_congr rfl (fun _ => (congrArg (poolFree · e.blk.coreNum) hes).trans hpool) fun hB => ite_congr rfl (fun _ => rfl) fun hC => ?_
      refine ite_congr rfl (fun _ => rfl) fun hD => ite_congr rfl (fun _ => rfl) fun hE => ite_congr rfl (fun _ => rfl) fun hF => ?_
      refine ite_congr rfl (fun _ => rfl) fun h10 => ite_congr rfl (fun _ => rfl) fun h11 => ite_congr rfl (fun _ => rfl) fun h12 => ?_
      refine ite_congr rfl (fun _ => rfl) fun h13 => ite_congr rfl (fun _ => async_eq t) fun h14 => ite_congr rfl (fun _ => rfl) fun h18 => ?_
      refine ite_congr rfl (fun _ => rfl) fun h19 => ite_congr rfl (fun _ => rfl) fun h1A => ite_congr rfl (fun _ => rfl) fun h40 => ?_
      exact ite_congr rfl (fun _ => congrArg (fun s => (ovtab s e.la.ctx).toNat) hes) fun h41 => if_pos (by omega)
    have hw : Writes (.srd h half d num) f s e c d k fun l => halfVal half (specialVal e n l) := by
      obtain ⟨rfl, -, -⟩ := hr.ctx
      have hx : exec (.srd h half d num) s = issueForm f (issOf h) (opSrd half d n).eff s := by rw [← hform]; rfl
      exact writes_of hr hx (by rw [← hk]; rfl)
    simp only [hval] at hw
    exact hw
  · intro h a s e c v x f low becomes b ha
    have swr : ∀ {half : Half} {num : BitVec 8} {k : Nat} {sta prv : Bool} {u' : Team},
        Runs (f k sta prv) (issOf h) s e c → (opSwr half num.toNat a).form = f k sta prv →
        swrTeam half num.toNat (if specialRegs num.toNat half = 2 then c.uni64 0 a else (c.uni 0 a).zeroExtend 64) e.team = u' →
        becomes (.swr h half num a) u' := by
      intro half num k sta prv u' hr hform hu'
      obtain ⟨v', hv'⟩ : ∃ v', v' = if specialRegs num.toNat half = 2 then c.uni64 0 a else (c.uni 0 a).zeroExtend 64 := ⟨_, rfl⟩
      rw [← hv'] at hu'
      have heff : (opSwr half num.toNat a).eff (c.begun (f k sta prv) e (issOf h)) =
          .done (c.modTeam (beginIssue [(f k sta prv, c)] e (issOf h)) (swrTeam half num.toNat v')) := by rw [hv']; rfl
      have hx : exec (.swr h half num a) s = issueForm (f k sta prv) (issOf h) (opSwr half num.toNat a).eff s := by rw [← hform]; rfl
      obtain ⟨t, u, ht, ho, hu, rs, hrs⟩ := team_becomes _ (fun t => (swrTeam_frame half num.toNat v' t t.records).1) hr rfl (indexes_one ha) hx heff
        fun t => (swrTeam_frame half num.toNat v' t t.records).2.1
      refine ⟨t, u, ht, ho, ?_⟩
      rw [hrs, (swrTeam_frame half num.toNat v' e.team rs).2.2, hu'] at hu
      exact hu
    have swrp : (opSwrp a).form = f 1 false true ∧ (opOvld a).form = f 1 false true := ⟨rfl, rfl⟩
    refine ⟨fun hr => ?_, fun hr => ?_, fun hr => ?_, fun hr => ?_, fun hr => ⟨?_, ?_⟩, fun hr => ⟨fun hv => ?_, fun hv => ?_, fun hv hd => ?_, fun hv => ?_⟩⟩
    · exact swr hr rfl (congrArg (fun y => { e.team with mode := y &&& 1 }) (loHalf_zeroExtend v))
    · exact swr hr rfl (congrArg (fun y => { e.team with prio := y &&& 0x3F }) (loHalf_zeroExtend v))
    · exact swr hr rfl (congrArg (fun y => { e.team with gmiss := y }) (loHalf_zeroExtend v))
    · exact swr hr rfl rfl
    · exact swr hr rfl (congrArg (fun y => { e.team with bstat := y &&& ~~~(w64 (2 ^ 51)) }) (mergeHalf_lo b v))
    · exact swr hr rfl (congrArg (fun y => { e.team with bstat := y &&& ~~~(w64 (2 ^ 51)) }) (mergeHalf_hi b v))
    all_goals
      obtain ⟨rfl, -, -⟩ := hr.ctx
      obtain ⟨hes, -, -, -, -, hla, -⟩ := getEnv_spec hr.env
    · obtain ⟨t, ht, hl, ho, hm⟩ := launch_effect (ins := .swrp h 0x40 a) (eff := (opSwrp a).eff) hr rfl (if_pos hv)
      let g : Launch → Launch := fun l => { l with lease := v.toNat }
      have hls : t.launches = (s.modLaunch c.e.la.q c.e.la.lseq g).launches := hes ▸ hl
      refine ⟨t, _, ht, ?_, rfl, hes ▸ hm, hes ▸ ho, fun l hl hne => ?_⟩
      · rw [State.launch?, hls]
        refine (launch?_modLaunch s c.e.la.q c.e.la.lseq g fun _ => ⟨rfl, rfl⟩).trans ?_
        rw [launch?_own hla]
        rfl
      · rw [hls] at hl
        obtain ⟨l', hl', rfl⟩ := List.mem_map.1 hl
        by_cases hsame : l'.q = c.e.la.q ∧ l'.lseq = c.e.la.lseq
        · rw [if_pos hsame] at hne
          exact absurd hsame hne
        · rw [if_neg hsame]
          exact hl'
    · exact trap_effect hr rfl (eff := (opSwrp a).eff) (if_neg hv)
    · have hleg : ovtabLegal v.toNat = true := (ovtabLegal_iff _).2 ⟨hv, hd⟩
      obtain ⟨t, ht, hl, ho, hm⟩ := launch_effect (ins := .ovld h a) (eff := (opOvld a).eff) hr rfl (if_pos hleg)
      refine ⟨t, ht, fun q => ?_, hes ▸ hl, hes ▸ hm⟩
      rw [ovtab, ho]
      exact (ovtab_setOvtab _ c.e.la.ctx v q).trans (by rw [show ovtab (c.begun (f 1 false true) c.e (issOf h)).s q = ovtab c.e.s q from rfl, hes])
    · have hleg : ¬ ovtabLegal v.toNat = true := by
        rw [ovtabLegal_iff]
        rintro ⟨hlt, hall⟩
        obtain h1 | ⟨i, hi, h3⟩ := hv
        · omega
        · exact hall i hi h3
      exact trap_effect hr rfl (eff := (opOvld a).eff) (if_neg hleg)

end

section
/-! Traps (R143, R144, R162, R163, R257, R258, R381): the handler entered, waited for and left, and a launch stopped. -/

namespace Sys2Proof.Machine

variable {s : State} {e : Env} {c : Ctx} {f : Form} {iss : Iss} {ins : Instr} {eff : Ctx → Res} {t : Team} {cause lane ilen : Nat} {data : W64}

/-! What a trap is taken as. -/

theorem takeTrap_handler (hsta : e.station = false) (hp : e.probing = false) (hc : recoverable cause = true) (ht : e.la.hdr.trap = true)
    (hi : e.team.inh = false) : takeTrap e cause data lane ilen = enterHandler e cause data ilen := by
  simp only [takeTrap, hsta, hp, hc, ht, hi, Bool.and_self, Bool.false_eq_true, if_false, if_true]

theorem takeTrap_wait (hsta : e.station = false) (hp : e.probing = false) (hc : recoverable cause = true) (ht : e.la.hdr.trap = true)
    (hi : e.team.inh = true) (hl : e.rcd.k0 &&& e.team.hlanes = 0) : takeTrap e cause data lane ilen = holdAs .handler e.who e.s := by
  simp only [takeTrap, hsta, hp, hc, ht, hi, hl, Bool.and_self, Bool.false_eq_true, if_false, if_true, ne_eq, not_true_eq_false]

theorem takeTrap_stop (hsta : e.station = false) (hp : e.probing = false) (ht : e.la.hdr.trap = false) :
    takeTrap e cause data lane ilen = stopLaunch e.s e.la.q e.la.lseq (e.stopInfo cause data lane) true := by
  simp only [takeTrap, hsta, hp, ht, Bool.and_false, Bool.false_eq_true, if_false]

theorem takeTrap_call (hsta : e.station = true) :
    takeTrap e cause data lane ilen = endCall e.s e.blk cause e.who.team lane e.rcd.pc data := by
  simp only [takeTrap, hsta, if_true]

/-! The handler. -/

/-- The team that has entered the handler, before its sub-teams fuse. -/
def handlerTeam (e : Env) (cause : Nat) (data : W64) (ilen : Nat) (t : Team) : Team :=
  { t.drain with trapc := w32 cause, trapa := data, trappc := e.rcd.pc, trapst := w32 (256 + ilen), hlanes := e.rcd.k0 }.modRec e.who.sub
    fun r => { r with pc := e.la.hdr.handler, wait := .ready }

theorem enterHandler_eq (e : Env) (cause : Nat) (data : W64) (ilen : Nat) : enterHandler e cause data ilen =
    e.s.modTeam e.who.bid e.who.team fun t => Team.fuseAt e.s.time e.who.sub (handlerTeam e cause data ilen t) := rfl

theorem onlyRecs_fuseAt (now n : Nat) (t : Team) : OnlyRecs t (t.fuseAt now n) := by
  unfold Team.fuseAt
  split
  · split
    · exact onlyRecs_fuse now t
    · exact .rfl' t
  · exact .rfl' t

/-- A record that comes where no other stands fuses with none. -/
theorem fuseAt_alone {now n : Nat} {r : Record} (hr : t.rec? n = some r) (h : ∀ q ∈ t.records, q.num ≠ n → q.pc ≠ r.pc) : t.fuseAt now n = t := by
  have hnum : r.num = n := by simpa using List.find?_some hr
  have hany : (t.records.any (canFuse r)) = false := by
    rw [List.any_eq_false]
    intro q hq
    by_cases hn : q.num = n
    · have hsame : (r.num != q.num) = false := by simp [hnum, hn]
      simp [canFuse, hsame]
    · have hpc : (r.pc == q.pc) = false := by simpa using fun h' => h q hq hn h'.symm
      simp [canFuse, hpc]
  simp only [Team.fuseAt, hr, hany, Bool.false_eq_true, if_false]

theorem getEnv_rec {s : State} {e : Env} (h : getEnv s = some e) : e.team.rec? e.who.sub = some e.rcd := by
  obtain ⟨-, hwho, -, -, hrec, -⟩ := getEnv_spec h
  rw [hwho]; exact hrec

theorem handlerTeam_rec (h : e.team.rec? e.who.sub = some e.rcd) (cause : Nat) (data : W64) (ilen : Nat) :
    (handlerTeam e cause data ilen e.team).rec? e.who.sub = some { e.rcd with pend := [], pc := e.la.hdr.handler, wait := .ready } := by
  have hdrain : e.team.drain.rec? e.who.sub = some { e.rcd with pend := [] } := by
    have hp : (fun r : Record => r.num == e.who.sub) ∘ (fun r : Record => { r with pend := [] }) = fun r => r.num == e.who.sub := rfl
    rw [Team.rec?, Team.drain, List.find?_map, hp]
    exact congrArg (Option.map _) h
  rw [handlerTeam, Team.rec?_modRec]
  · exact (congrArg (Option.map _) hdrain).trans (by rw [Option.map_some, if_pos rfl])
  · exact fun _ => rfl

/-- Nothing but one team differs where nothing was issued. -/
theorem onlyTeam_unissued (h : getEnv s = some e) (F : Team → Team) (hF : ∀ t, (F t).idx = t.idx) :
    OnlyTeam e s (s.modTeam e.who.bid e.who.team F) (F e.team) := onlyTeam_of h F hF s.issueCtr s.freeCtr

/-! A launch that stops. -/

/-- Every team of a launch's blocks on cores is halted. -/
def AllHalted (q lseq : Nat) (s : State) : Prop :=
  ∀ B ∈ s.blocks, B.q = q → B.lseq = lseq → B.site.isStation = false → ∀ u ∈ B.teams, u.halted = true

/-- A launch that has not stopped stops: it is stopping for the cause given, memory stands, and its teams are halted. -/
theorem stopLaunch_spec {q lseq : Nat} {la : Launch} (h : s.launch? q lseq = some la) (hs : la.stop = none) (st : Stop) :
    (∃ la', (stopLaunch s q lseq st true).launch? q lseq = some la' ∧ la'.state = .stopping ∧ la'.stop = some st) ∧
      (stopLaunch s q lseq st true).mem = s.mem ∧ AllHalted q lseq (stopLaunch s q lseq st true) := by
  obtain ⟨g, hg⟩ : ∃ g : Launch → Launch, g = fun l =>
      let keep := match l.stop with
        | none => st
        | some o =>
          let w := if o.reason ≠ 0 ∨ (st.reason = 0 ∧ stopBefore o st = false) then st else o
          { w with pages := addPages o.pages st.pages }
      { l with stop := some keep, state := .stopping } := ⟨_, rfl⟩
  have hstop : stopLaunch s q lseq st true =
      haltBlocks (s.modLaunch q lseq g) q lseq (((s.modLaunch q lseq g).blocksOf q lseq).map Block.bid) true := by rw [hg]; rfl
  have hgkey : ∀ l, (g l).q = l.q ∧ (g l).lseq = l.lseq := fun l => by rw [hg]; exact ⟨rfl, rfl⟩
  have hgla : (g la).state = .stopping ∧ (g la).stop = some st := by
    rw [hg]
    simp only [hs, and_self]
  rw [hstop]
  unfold haltBlocks
  extract_lets stop stopB s₁
  refine ⟨?_, rfl, ?_⟩
  · have hla : s₁.launch? q lseq = some (g la) := (launch?_modLaunch s q lseq g hgkey).trans (congrArg (Option.map g) h)
    have hhalt := launch?_modLaunch s₁ q lseq (fun l => { l with halting := l.halting ++
      (((s.modLaunch q lseq g).blocksOf q lseq).map Block.bid).filter fun i => !l.halting.contains i }) fun _ => ⟨rfl, rfl⟩
    rw [hla] at hhalt
    exact ⟨_, hhalt, hgla.1, hgla.2⟩
  · intro B hB hq hlseq hsta u hu
    obtain ⟨b, hb, rfl⟩ := List.mem_map.1 hB
    have hbq : b.q = q := by
      refine Eq.trans ?_ hq
      simp only [stopB]; split <;> rfl
    have hbl : b.lseq = lseq := by
      refine Eq.trans ?_ hlseq
      simp only [stopB]; split <;> rfl
    have hbs : b.site.isStation = false := by
      refine Eq.trans ?_ hsta
      simp only [stopB]; split <;> rfl
    have hin : ((((s.modLaunch q lseq g).blocksOf q lseq).map Block.bid).contains b.bid) = true := by
      rw [List.contains_iff_mem]
      refine List.mem_map_of_mem (List.mem_filter.2 ⟨hb, ?_⟩)
      simp [hbq, hbl, hbs]
    have hstopB : stopB b = { b with teams := b.teams.map stop } := if_pos hin
    rw [hstopB] at hu
    obtain ⟨w, -, rfl⟩ := List.mem_map.1 hu
    rfl

/-- What follows an effect leaves a halted team halted. -/
theorem ended_halted {fs : List (Form × Ctx)} {now : Nat} (h : t.halted = true) : (t.ended fs now).halted = true := by
  have hx : ((fs.foldl (fun t p => postStep p.2.m p.1.indexes t) t).fuse now).halted = true := by
    have h1 := onlyX_steps fs t
    have h2 := onlyRecs_fuse now (fs.foldl (fun t p => postStep p.2.m p.1.indexes t) t)
    rw [(congrArg Team.halted h2).trans rfl, (congrArg Team.halted h1).trans rfl]
    exact h
  unfold Team.ended
  simp only
  split
  · split
    · unfold Team.endProbe
      split
      · exact hx
      · rfl
    · exact hx
  · exact hx

theorem AllHalted.modTeam {q lseq : Nat} (h : AllHalted q lseq s) (bid i : Nat) {F : Team → Team} (hF : ∀ t, t.halted = true → (F t).halted = true) :
    AllHalted q lseq (s.modTeam bid i F) := by
  intro B hB hq hlseq hsta u hu
  obtain ⟨b, hb, rfl⟩ := List.mem_map.1 hB
  split at hq
  · next hbid =>
    rw [if_pos hbid] at hlseq hsta hu
    obtain ⟨w, hw, rfl⟩ := List.mem_map.1 hu
    have hwh := h b hb hq hlseq hsta w hw
    split
    · exact hF w hwh
    · exact hwh
  · next hbid =>
    rw [if_neg hbid] at hlseq hsta hu
    exact h b hb hq hlseq hsta u hu

/-! The return from the handler. -/

/-- The issuing team after `TRET`. -/
def returnTeam (n : Nat) (skip : Bool) (now : Nat) (t : Team) : Team :=
  let k := t.trapst.toNat % 4
  let dest := if skip then t.trappc + w64 (ilenBytes k) else t.trappc
  Team.wake Wait.isHandler now (Team.modRec { t with trapst := w32 k, hlanes := 0 } n fun r => { r with pc := dest })

theorem returnTrap_eq (e : Env) (skip : Bool) :
    returnTrap e skip = e.s.modTeam e.who.bid e.who.team (returnTeam e.who.sub skip e.s.time) := rfl

/-- No sub-team waits for the handler after it. -/
theorem returnTeam_noHandler (n : Nat) (skip : Bool) (now : Nat) (t : Team) :
    ∀ r ∈ (returnTeam n skip now t).records, r.wait ≠ .handler := by
  intro r hr
  obtain ⟨q, -, rfl⟩ := List.mem_map.1 hr
  unfold wakeRec
  split
  · exact nofun
  · next hq => exact fun hw => hq (by rw [hw]; rfl)

theorem returnTeam_lone (ht : t.records = [r]) (hw : r.wait = .ready) (skip : Bool) (now : Nat) :
    returnTeam r.num skip now t = { t with
      trapst := w32 (t.trapst.toNat % 4), hlanes := 0,
      records := [{ r with pc := if skip then t.trappc + w64 (ilenBytes (t.trapst.toNat % 4)) else t.trappc }] } := by
  rw [returnTeam, modRec_lone (t := { t with trapst := w32 (t.trapst.toNat % 4), hlanes := 0 }) ht]
  simp only [Team.wake, List.map_singleton, wakeRec, hw, Wait.isHandler, Bool.false_eq_true, if_false]

/-- A fusion brings no wait for the handler about. -/
theorem WaitsFrom.noHandler {rs qs : List Record} (h : WaitsFrom rs qs) (hrs : ∀ r ∈ rs, r.wait ≠ .handler) : ∀ q ∈ qs, q.wait ≠ .handler := by
  intro q hq hw
  obtain hready | hjoin | ⟨r, hr, hrw⟩ := h q hq
  · exact nomatch hready.symm.trans hw
  · rw [hw] at hjoin; exact nomatch hjoin
  · exact hrs r hr (hrw.trans hw)

theorem ilenBytes_eq (n : Nat) : w64 (ilenBytes n) = match n with | 0 => 4 | 2 => 12 | _ => 8 := by
  obtain rfl | h0 := eq_or_ne n 0
  · rfl
  · obtain rfl | h2 := eq_or_ne n 2
    · rfl
    · have h8 : ilenBytes n = 8 := by rw [ilenBytes, if_neg h0, if_neg h2]
      rw [h8]
      split
      · exact absurd rfl h0
      · exact absurd rfl h2
      · rfl

theorem issOf_ilen (h : Hdr) : (issOf h).ilen = if h.lit.isSome then 2 else 1 := by
  cases hl : h.lit <;> simp [issOf, hl]

/-- Where the trap's cause is a recoverable one, what it is taken as. -/
theorem recoverable_taken (hrun : Runs f iss s e c) (hc : recoverable cause = true) :
    (e.station = false → e.la.hdr.trap = true → e.team.inh = false →
      (∀ q ∈ e.team.records, q.num ≠ e.who.sub → q.pc ≠ e.la.hdr.handler) →
      OnlyTeam e s (takeTrap e cause data lane ilen) (handlerTeam e cause data ilen e.team)) ∧
    (e.station = false → e.la.hdr.trap = true → e.team.inh = true → e.rcd.k0 &&& e.team.hlanes = 0 →
      OnlyTeam e s (takeTrap e cause data lane ilen) (e.team.waitAt e.who.sub .handler)) := by
  have hes := (getEnv_spec hrun.env).1
  have hrec := getEnv_rec hrun.env
  refine ⟨fun hsta ht hi halone => ?_, fun hsta ht hi hl => ?_⟩
  · rw [takeTrap_handler hsta hrun.calm hc ht hi, enterHandler_eq, hes]
    have honly := onlyTeam_unissued hrun.env (fun t => Team.fuseAt s.time e.who.sub (handlerTeam e cause data ilen t)) fun t =>
      (congrArg Team.idx (onlyRecs_fuseAt s.time e.who.sub (handlerTeam e cause data ilen t))).trans rfl
    have hfuse : Team.fuseAt s.time e.who.sub (handlerTeam e cause data ilen e.team) = handlerTeam e cause data ilen e.team := by
      refine fuseAt_alone (handlerTeam_rec hrec cause data ilen) fun q hq hn => ?_
      obtain ⟨q1, hq1, rfl⟩ := List.mem_map.1 hq
      obtain ⟨q2, hq2, rfl⟩ := List.mem_map.1 hq1
      by_cases hnum : q2.num = e.who.sub
      · rw [if_pos hnum] at hn
        exact absurd hnum hn
      · rw [if_neg hnum]
        exact halone q2 hq2 hnum
    rw [← hfuse]
    exact honly
  · rw [takeTrap_wait hsta hrun.calm hc ht hi hl, hes]
    exact onlyTeam_unissued hrun.env (fun t => t.waitAt e.who.sub .handler) fun t => rfl

theorem waitAt_handler_rec {n : Nat} (h : t.rec? n = some r) : (t.waitAt n .handler).rec? n = some { r with wait := .handler } := by
  have hw := Team.rec?_modRec t n n (fun r => { r with wait := .handler }) fun _ => rfl
  rw [h, Option.map_some, if_pos rfl] at hw
  exact hw

/-- A call that ends in a fault: its block is gone, and the call holds what the trap reported (R381). -/
theorem endCall_spec (s : State) (b : Block) (pc : W64) (team : Nat) :
    (endCall s b cause team lane pc data).block? b.bid = none ∧ (endCall s b cause team lane pc data).mem = s.mem ∧
      ∀ k ∈ s.calls, k.id = b.idx → ∃ k' ∈ (endCall s b cause team lane pc data).calls, k'.id = k.id ∧ k'.phase = .ended ∧ k'.rstat = 0x25 ∧
        k'.cause = cause ∧ k'.fpc = pc ∧ k'.trapa = data ∧ k'.flane = lane := by
  refine ⟨?_, rfl, fun k hk hid => ?_⟩
  · refine List.find?_eq_none.2 fun B hB => ?_
    simpa using (List.mem_filter.1 hB).2
  · refine ⟨_, List.mem_map.2 ⟨k, hk, rfl⟩, ?_⟩
    rw [if_pos hid]
    exact ⟨rfl, rfl, rfl, rfl, rfl, rfl, rfl⟩

end Sys2Proof.Machine

open Sys2Proof Sys2Proof.Machine

/-- Settles O27: a trap's effect is the one of its team's launch and handler, `TRET` ends it, and a launch stops for `HALT`. -/
theorem trapsReturnAndHalt : Obligations.TrapsReturnAndHalt := by
  unfold Obligations.TrapsReturnAndHalt
  constructor
  · intro h a i f cause data s e c hi hr
    obtain ⟨eff, hx, he, hc⟩ : ∃ eff, exec i s = issueForm f (issOf h) eff s ∧
        eff (c.begun f e (issOf h)) = .trap cause data (c.e.low c.m) ∧ recoverable cause = true := by
      obtain ⟨rfl, rfl, rfl, rfl⟩ | ⟨rfl, rfl, rfl, rfl⟩ := hi
      · exact ⟨(opTrap a).eff, rfl, rfl, rfl⟩
      · exact ⟨opBrk.eff, rfl, rfl, rfl⟩
    have hgo := trap_effect hr hx he
    obtain ⟨hes, -, -, -, -, hla, -⟩ := getEnv_spec hr.env
    obtain ⟨hce, -, -⟩ := hr.ctx
    rw [hce] at hgo
    have hrec := getEnv_rec hr.env
    refine ⟨fun hsta ht hinh halone => ?_, fun hsta ht hinh hl => ?_, fun hsta ht hs => ?_, fun hsta => ?_⟩
    · refine ⟨_, _, hgo, (recoverable_taken hr hc).1 hsta ht hinh halone, rfl, rfl, rfl, rfl, rfl, rfl, rfl, rfl,
        congrArg (fun n => w32 (256 + n)) (issOf_ilen h), _, handlerTeam_rec hrec cause data _, rfl, rfl, rfl, rfl⟩
    · exact ⟨_, _, _, hgo, (recoverable_taken hr hc).2 hsta ht hinh hl, rfl, waitAt_handler_rec hrec, rfl⟩
    · rw [takeTrap_stop hsta hr.calm ht, hes] at hgo
      obtain ⟨⟨la, hla', hst, hstop⟩, hmem, hhalt⟩ := stopLaunch_spec (launch?_own hla) hs (e.stopInfo cause data (e.low c.m))
      exact ⟨_, la, _, hgo, hla', hst, hstop, rfl, rfl, rfl, rfl, rfl, hmem, hhalt⟩
    · rw [takeTrap_call hsta, hes] at hgo
      obtain ⟨hblk, hmem, hcall⟩ := endCall_spec (cause := cause) (lane := e.low c.m) (data := data) s e.blk e.rcd.pc e.who.team
      exact ⟨_, hgo, hblk, hmem, hcall⟩
  · intro h skip s e c
    refine ⟨fun hr => ⟨fun hinh => ?_, fun hinh => ?_⟩, fun hr hs => ?_⟩
    all_goals
      obtain ⟨rfl, -, -⟩ := hr.ctx
      obtain ⟨hes, -, -, -, -, hla, -⟩ := getEnv_spec hr.env
    · refine trap_effect hr rfl (eff := (opTret skip).eff) (if_neg ?_)
      rw [Team.inh]
      exact fun hb => nomatch hinh.symm.trans hb
    · obtain ⟨f, hf⟩ : ∃ f, f = teamForm [] [] .ends false false := ⟨_, rfl⟩
      rw [← hf] at hr
      have hd : f.dsts = [] ∧ f.indexes = [] := by rw [hf]; exact ⟨rfl, rfl⟩
      have heff : (opTret skip).eff (c.begun f c.e (issOf h)) =
          .done (c.modTeam (beginIssue [(f, c)] c.e (issOf h)) (returnTeam c.e.who.sub skip c.e.s.time)) := if_pos hinh
      obtain ⟨t, ht, ho⟩ := team_effect (ins := .tret h skip) (returnTeam c.e.who.sub skip c.e.s.time) (fun t => rfl) hr (by rw [hf]; rfl) heff
      have hb : c.e.team.begun [(f, c)] c.e (issOf h) = { c.e.team with records := (c.e.team.begun [(f, c)] c.e (issOf h)).records } := by
        have hrest := begun_rest c.e.team [(f, c)] c.e (issOf h) hr.noProbe
        rw [begun_waits c.e.team f c.e (issOf h) c hr.lane, hd.1] at hrest
        simpa [Ctx.named] using hrest
      obtain ⟨w, hw⟩ : ∃ w, w = returnTeam c.e.who.sub skip c.e.s.time (c.e.team.begun [(f, c)] c.e (issOf h)) := ⟨_, rfl⟩
      have hwrest : w.v = c.e.team.v ∧ w.s = c.e.team.s ∧ w.k = c.e.team.k ∧ w.trapst = w32 (c.e.team.trapst.toNat % 4) ∧
          w.trappc = c.e.team.trappc ∧ w.trapc = c.e.team.trapc ∧ w.probe = none := by
        rw [hw, hb]
        exact ⟨rfl, rfl, rfl, rfl, rfl, rfl, hr.noProbe⟩
      obtain ⟨hv, hsr, hk, hst, hpc, htc, hp⟩ := hwrest
      rw [← hw] at ho
      have hend : w.ended [(f, c.begun f c.e (issOf h))] s.time = w.fuse s.time := by
        rw [ended_calm _ _ _ hp]
        simp only [List.foldl_cons, List.foldl_nil, hd.2, postStep_nil]
      rw [hend] at ho
      have hofu : OnlyRecs w (w.fuse s.time) := onlyRecs_fuse _ _
      refine ⟨t, _, ht, ho, (congrArg Team.v hofu).trans hv, (congrArg Team.s hofu).trans hsr, (congrArg Team.k hofu).trans hk,
        (congrArg Team.trapst hofu).trans hst, (congrArg Team.trappc hofu).trans hpc, (congrArg Team.trapc hofu).trans htc,
        (waitsFrom_fuse s.time w).noHandler ?_, fun hl => ?_⟩
      · rw [hw]
        exact returnTeam_noHandler _ _ _ _
      · have hlone := begun_lone hr.env hl [(f, c)] (issOf h)
        obtain ⟨r, hrr⟩ : ∃ r, r = issuedRec [(f, c)] c.e (issOf h) c.e.rcd := ⟨_, rfl⟩
        have hnum : r.num = c.e.who.sub := by rw [hrr]; exact getEnv_num hr.env
        rw [← hrr] at hlone
        have hwl := returnTeam_lone hlone (by rw [hrr]; rfl) skip c.e.s.time
        rw [hnum, ← hw] at hwl
        obtain ⟨r', hr'⟩ : ∃ r', w.records = [r'] ∧ r'.wait.isJoin = false ∧ r'.k0 = c.e.rcd.k0 ∧
            r'.pc = if skip then c.e.team.trappc + w64 (ilenBytes (c.e.team.trapst.toNat % 4)) else c.e.team.trappc := by
          rw [hwl]
          refine ⟨_, rfl, ?_, ?_, ?_⟩
          · rw [hrr]; rfl
          · rw [hrr]; rfl
          · rw [hb]
        obtain ⟨hr1, hj, hk0, hpc'⟩ := hr'
        rw [fuse_one s.time w (by rw [hr1]; exact Nat.le_refl 1) (by rw [hr1]; simp [hj])]
        refine ⟨r', hr1, hk0, hpc'.trans ?_⟩
        rw [ilenBytes_eq] <;> rfl
    · obtain ⟨s', hs'⟩ : ∃ s', s' = beginIssue [(teamForm [] [] .ends false true, c)] c.e (issOf h) := ⟨_, rfl⟩
      have hkeep : s'.launches = s.launches ∧ s'.mem = s.mem := by rw [hs', beginIssue_eq, hes]; exact ⟨rfl, rfl⟩
      have hla' : s'.launch? c.e.la.q c.e.la.lseq = some c.e.la := by
        rw [State.launch?, hkeep.1]
        exact launch?_own hla
      obtain ⟨st, hst⟩ : ∃ st, st = saveInfo s' c.e.rcd.pc c.e.blk.coreNum c.e.team.row true false := ⟨_, rfl⟩
      have hdone := hr.done (eff := opHalt.eff) (s' := stopLaunch s' c.e.la.q c.e.la.lseq st true) (by rw [hst, hs']; rfl)
      rw [finish_eq _ _ _ hr.calm] at hdone
      obtain ⟨⟨la, hlas, hstate, hstop⟩, hmem, hhalt⟩ := stopLaunch_spec hla' hs st
      refine ⟨_, la, st, hdone, hlas, hstate, hstop, ?_, ?_, ?_, ?_, hmem.trans hkeep.2, hhalt.modTeam _ _ fun _ => ended_halted⟩
      all_goals rw [hst]; rfl

end

section
/-! `BAR` in a block that holds two teams of one index (R223, R253): the second one's probe mode ends with the instruction, and the
checkpoint that it restores may wait at the very barrier whose phase has just completed. -/

namespace Sys2Proof.Machine

/-! States in which an instruction runs, found by evaluation. -/

/-- An instruction of form f executes in s, under what p says. -/
def runsIn (f : Form) (i : Iss) (s : State) (p : Env → Ctx → Bool) : Bool :=
  match getEnv s with
  | some e => match gate f i e with
    | .go c => !e.probing && decide (c.m ≠ 0) && p e c
    | _ => false
  | none => false

theorem runs_of_runsIn {f : Form} {i : Iss} {s : State} {p : Env → Ctx → Bool} (h : runsIn f i s p = true) :
    ∃ e c, Runs f i s e c ∧ p e c = true := by
  unfold runsIn at h
  split at h
  · next e he =>
    split at h
    · next c hc =>
      simp only [Bool.and_eq_true, Bool.not_eq_true', decide_eq_true_eq] at h
      exact ⟨e, c, ⟨he, h.1.1, hc, h.1.2⟩, h.2⟩
    · exact nomatch h
  · exact nomatch h

/-- One team of two lanes, whose one sub-team is at the address that a launch's header names. -/
def pairTeam : Team := newTeam 0 0 2 0 0 176 [] 0 0 352

/-- That team and others in the first block of a launch, on core 0. -/
def pairState (hdr : LaunchHdr) (others : List Team) : State :=
  { State.reset with
    nextId := 2
    launches := [newLaunch 0 0 0 0 0 0 { hdr with e := [2, 1, 1, 1, 1, 1], w := [1, 0, 0, 0, 0, 0] } []]
    blocks := [newBlock 1 0 0 0 (.core 0) (pairTeam :: others) 4096]
    cur := ⟨1, 0, 0⟩ }

/-! The second team of an index. -/

/-- A probe that has issued its 4,096 instructions, whose checkpoint waits at barrier 15. -/
def spentProbe : Probe :=
  { ckpt := { records := pairTeam.records.map fun r => { r with wait := .bar 15 0 }
              splits := [], k := [], s := [], v := [], x := [], vs := 0 }
    sub := 0, missPc := 0, missVa := 0, missWid := 0, since := 0, issued := 4096, pv := [], px := [], ps := [], pk := [], pages := [] }

/-- A block whose issuing team shares its index with a second one, of no record, that probes. -/
def twinned : State := pairState progHdr [{ pairTeam with records := [], probe := some spentProbe }]

def barHdr : Hdr := ⟨0, 0, false, some 15⟩

/-- A block of a state holds a sub-team that waits at a barrier. -/
def waitsAtBar (bid id : Nat) (s : State) : Bool :=
  match s.block? bid with
  | some B => B.teams.any fun u => u.records.any fun r => match r.wait with
    | .bar i _ => i == id
    | _ => false
  | none => false

theorem waitsAtBar_spec {bid id : Nat} {s : State} {B : Block} (h : waitsAtBar bid id s = true) (hB : s.block? bid = some B) :
    ∃ u ∈ B.teams, ∃ r ∈ u.records, ∃ nx, r.wait = .bar id nx := by
  simp only [waitsAtBar, hB, List.any_eq_true] at h
  obtain ⟨u, hu, r, hr, hw⟩ := h
  refine ⟨u, hu, r, hr, ?_⟩
  split at hw
  · next i nx hwait =>
    obtain rfl : i = id := by simpa using hw
    exact ⟨nx, hwait⟩
  · exact nomatch hw

/-- What the statement asks of the last arrival, as a Bool. -/
def lastArrival (e : Env) (c : Ctx) : Bool :=
  e.team.records == [e.rcd] && e.rcd.held.isNone && (c.uni 0 .lit).toNat == 15 && (barOf e.blk 15).arrived == [] &&
    decide (∀ t ∈ e.blk.teams, ∀ p ∈ t.barIssued, p.1 ≠ 15) && decide (e.blk.unexited ≤ 1) && e.who.bid == 1

theorem twinned_runs : runsIn (teamForm [fA .lit 1, fB .zero 1] [] .ends true false) (issOf barHdr) twinned lastArrival = true := by
  decide +kernel

/-- After it a sub-team of the block waits at the barrier all the same. -/
theorem twinned_waits : (match exec (.bar barHdr .lit .zero) twinned with
    | .next t => waitsAtBar 1 15 t
    | _ => false) = true := by decide +kernel

end Sys2Proof.Machine

open Sys2Proof Sys2Proof.Machine

/-- Refutes O20: where two teams of a block share an index, the `BAR` that completes a phase ends the second one's probe mode too, and the
checkpoint restored waits at that barrier. -/
theorem not_blockAndLaunchBarriers : ¬ Obligations.BlockAndLaunchBarriers := by
  unfold Obligations.BlockAndLaunchBarriers
  rintro ⟨hbar, -⟩
  obtain ⟨e, c, hr, hlast⟩ := runs_of_runsIn twinned_runs
  simp only [lastArrival, Bool.and_eq_true, beq_iff_eq, decide_eq_true_eq, Option.isNone_iff_eq_none] at hlast
  obtain ⟨⟨⟨⟨⟨⟨hrec, hheld⟩, hid⟩, harr⟩, hnone⟩, hall⟩, hbid⟩ := hlast
  have hb := hbar barHdr true .lit .zero _ (issOf barHdr) twinned e c (.inl ⟨rfl, rfl⟩) hr ⟨hrec, hheld⟩
  simp only [hid, harr] at hb
  obtain ⟨t, B, ht, hB, -, -, -, hdone⟩ := hb (by decide) (.inl rfl) rfl hnone
  have hwaits := twinned_waits
  rw [if_pos trivial] at ht
  rw [ht] at hwaits
  rw [hbid] at hB
  obtain ⟨u, hu, r, hr, nx, hw⟩ := waitsAtBar_spec hwaits hB
  exact (hdone hall).2.2.1 u hu r hr nx hw

end

section
/-! The host's registers (R5, R465, R478, R490, R496 to R500): which block an offset names, and what a write of its register leaves. -/

namespace Sys2Proof.Machine

variable {s : State} {off : Nat} {v : W32}

/-! Offsets. -/

theorem within_self {base size n k r : Nat} (hk : k < n) (hr : r < size) : within (base + size * k + r) base size n = some (k, r) := by
  have hlt : size * k + r < size * n := by
    calc size * k + r < size * k + size := by omega
      _ = size * (k + 1) := by ring
      _ ≤ size * n := Nat.mul_le_mul_left _ hk
  rw [within, if_pos ⟨by omega, by omega⟩]
  have hsub : base + size * k + r - base = r + size * k := by omega
  rw [hsub, Nat.add_mul_div_left _ _ (by omega), Nat.add_mul_mod_self_left, Nat.div_eq_of_lt hr, Nat.mod_eq_of_lt hr, Nat.zero_add]

theorem within_none {base size n : Nat} (h : off < base ∨ base + size * n ≤ off) : within off base size n = none := by
  rw [within, if_neg (by omega)]

/-- A write of a register of one bit field leaves every other register. -/
theorem onlyRegs_setBar (s : State) (off : Nat) (v : W32) (offs : List Nat) (h : off ∈ offs) : OnlyRegs s (setBar s off v) offs := by
  refine ⟨rfl, fun o ho => ?_⟩
  rw [bar_setBar, if_neg (ho off h)]

theorem bar_setBar_same (s : State) (off : Nat) (v : W32) : bar (setBar s off v) off = v := by rw [bar_setBar, if_pos rfl]

theorem hostWrite_maint (h4 : off % 4 = 0) (hlo : 0x1E0000 ≤ off) (hhi : off < 0x1F0000) : hostWrite s off v = writeMaint s off v := by
  rw [hostWrite, if_neg (by omega), if_pos (.inl ⟨hlo, hhi⟩)]

theorem hostWrite_block (hr : ready s = true) (h4 : off % 4 = 0) (h : off < 0x1E0000) : hostWrite s off v = writeBlock s off v := by
  rw [hostWrite, if_neg (by omega), if_neg (by omega), whenReady, if_pos hr]

theorem writeBlock_queue {q r : Nat} (hq : q < 64) (hr : r < 0x40) : writeBlock s (qBase q + r) v = writeQueue s q r v := by
  have hctx : within (qBase q + r) 0x80000 0x40 64 = none := within_none (by unfold qBase; omega)
  have hself : within (qBase q + r) 0x100000 0x40 64 = some (q, r) := within_self hq hr
  simp only [writeBlock, hctx, hself]

theorem writeBlock_msc {k r : Nat} (hk : k < 8) (hr : r < 0x100) : writeBlock s (mscBase k + r) v = writeMsc s k r v := by
  have hself : within (mscBase k + r) 0x1B0000 0x100 8 = some (k, r) := within_self hk hr
  have hrest : within (mscBase k + r) 0x80000 0x40 64 = none ∧ within (mscBase k + r) 0x100000 0x40 64 = none ∧
      within (mscBase k + r) 0x180000 0x40 8 = none ∧ within (mscBase k + r) 0x1A0000 0x40 8 = none := by
    unfold mscBase
    exact ⟨within_none (by omega), within_none (by omega), within_none (by omega), within_none (by omega)⟩
  obtain ⟨hctx, hq, hsta, hbun⟩ := hrest
  simp only [writeBlock, hctx, hq, hsta, hbun, hself]

/-! The report (R498). -/

theorem smGet_denseMem_zipIdx (l : List Byte) : ∀ n k : Nat, n ≤ k →
    smGet 0 (((l.zipIdx n).filter fun p => p.1 != 0).map fun p => (p.2, p.1)) k = l.getD (k - n) 0 := by
  induction l with
  | nil => intro n k _; rfl
  | cons b l ih =>
    intro n k hk
    rw [List.zipIdx_cons, List.filter_cons]
    obtain rfl | hlt := hk.eq_or_lt
    · have hrest : ∀ m, n < m → smGet 0 (((l.zipIdx m).filter fun p => p.1 != 0).map fun p => (p.2, p.1)) n = (0 : Byte) := by
        clear ih hk
        induction l with
        | nil => intro m _; rfl
        | cons c l ih =>
          intro m hm
          rw [List.zipIdx_cons, List.filter_cons]
          split
          · rw [List.map_cons, smGet, if_neg (by dsimp only; omega)]
            exact ih (m + 1) (by omega)
          · exact ih (m + 1) (by omega)
      split
      · simp [smGet]
      · next hb =>
        have hb0 : b = 0 := by simpa using hb
        rw [hrest (n + 1) (by omega)]
        simp [hb0]
    · have hget : (b :: l).getD (k - n) 0 = l.getD (k - (n + 1)) 0 := by
        rw [show k - n = (k - (n + 1)) + 1 by omega]
        rfl
      rw [hget, ← ih (n + 1) k (by omega)]
      split
      · rw [List.map_cons, smGet, if_neg (by dsimp only; omega)]
      · rfl

theorem byteAt_denseMem (l : List Byte) (k : Nat) : byteAt (denseMem l) k = l.getD k 0 := by
  rw [byteAt, denseMem, smGet_denseMem_zipIdx l 0 k (Nat.zero_le k), Nat.sub_zero]

theorem bytesAt_denseMem (l : List Byte) (n : Nat) : ∀ a, a + n ≤ l.length → bytesAt (denseMem l) a n = (l.drop a).take n := by
  induction n with
  | zero => simp [bytesAt]
  | succ n ih =>
    intro a ha
    have hlt : a < l.length := by omega
    rw [bytesAt, ih (a + 1) (by omega), byteAt_denseMem, List.drop_eq_getElem_cons hlt, List.take_succ_cons, List.getD_eq_getElem _ _ hlt]

/-- Pieces of one length written out one after another, and the one at an index. -/
theorem take_drop_flatMap {α : Type} (n : Nat) (g : Nat → List α) (hg : ∀ i, (g i).length = n) (rest : List α) (m : Nat) : ∀ i, i < m →
    ((((List.range m).flatMap g) ++ rest).drop (n * i)).take n = g i := by
  induction m generalizing rest with
  | zero => omega
  | succ m ih =>
    intro i hi
    rw [List.range_succ, List.flatMap_append, List.append_assoc]
    obtain rfl | hlt := (Nat.lt_succ_iff.1 hi).eq_or_lt
    · have hlen : ((List.range i).flatMap g).length = n * i := by
        simp [List.length_flatMap, hg, Nat.mul_comm]
      rw [← hlen, List.drop_left, List.flatMap_cons, List.flatMap_nil, List.append_nil,
        List.take_append_of_le_length (by rw [hg]), List.take_of_length_le (by rw [hg])]
    · exact ih _ i hlt

theorem length_flatMap_range {α : Type} (n m : Nat) (g : Nat → List α) (hg : ∀ i, (g i).length = n) : ((List.range m).flatMap g).length = n * m := by
  simp [List.length_flatMap, hg, Nat.mul_comm]

/-- A report's words: what the host asked to be attested, the time, the device, the digests of the images, and the rest. -/
theorem reportHead_append (s : State) (sig : List Byte) : reportHead s ++ sig =
    ((List.range 8).flatMap fun i => leBytes 4 (bar s (0x2000C0 + 4 * i)).toNat) ++ (leBytes 8 s.time ++
      ((leBytes 2 (bar s 0x1D0000).toNat ++ List.replicate 6 0) ++
        (((List.range 4).flatMap fun i => (List.range 32).map fun j => Config.imageDigest i j) ++
          (leBytes 8 Config.fusedVersion.toNat ++ (List.replicate 72 0 ++ sig))))) := by
  simp only [reportHead, List.append_assoc]

/-- What an attestation reports (R498). -/
theorem attestation_report (s : State) : (∀ i, i < 8 → numAt (attestation s).report (4 * i) 4 = (bar s (0x2000C0 + 4 * i)).toNat) ∧
    numAt (attestation s).report 32 8 = s.time % 2 ^ 64 ∧
    ∀ i j, i < 4 → j < 32 → byteAt (attestation s).report (48 + 32 * i + j) = Config.imageDigest i j := by
  obtain ⟨sig, hsig⟩ : ∃ sig, (attestation s).report = denseMem (reportHead s ++ sig) := ⟨_, rfl⟩
  obtain ⟨words, hwords⟩ : ∃ words, words = (List.range 8).flatMap fun i => leBytes 4 (bar s (0x2000C0 + 4 * i)).toNat := ⟨_, rfl⟩
  obtain ⟨digests, hdig⟩ : ∃ digests, digests = (List.range 4).flatMap fun i => (List.range 32).map fun j => Config.imageDigest i j := ⟨_, rfl⟩
  have hwlen : words.length = 32 := by rw [hwords, length_flatMap_range 4 8 _ fun i => leBytes_length 4 _]
  have hdlen : digests.length = 128 := by rw [hdig, length_flatMap_range 32 4 _ fun i => by simp]
  rw [hsig, reportHead_append, ← hwords, ← hdig]
  refine ⟨fun i hi => ?_, ?_, fun i j hi hj => ?_⟩
  · rw [numAt, bytesAt_denseMem _ _ _ (by rw [List.length_append, hwlen]; omega), hwords,
      take_drop_flatMap 4 _ (fun i => leBytes_length 4 _) _ 8 i hi, leNat_leBytes]
    exact Nat.mod_eq_of_lt (bar s (0x2000C0 + 4 * i)).isLt
  · rw [numAt, bytesAt_denseMem _ _ _ (by rw [List.length_append, List.length_append, hwlen, leBytes_length]; omega), List.drop_left' hwlen,
      List.take_append_of_le_length (by rw [leBytes_length]), List.take_of_length_le (by rw [leBytes_length]), leNat_leBytes, show (256 : Nat) ^ 8 = 2 ^ 64 from rfl]
  · have htwo : 32 * i + j < 128 := by omega
    obtain ⟨front, hfront⟩ : ∃ front, front = words ++ (leBytes 8 s.time ++ (leBytes 2 (bar s 0x1D0000).toNat ++ List.replicate 6 (0 : Byte))) :=
      ⟨_, rfl⟩
    have hflen : front.length = 48 := by simp [hfront, hwlen, leBytes_length]
    have hassoc : ∀ l, words ++ (leBytes 8 s.time ++ ((leBytes 2 (bar s 0x1D0000).toNat ++ List.replicate 6 0) ++ l)) = front ++ l := by
      simp only [hfront, List.append_assoc, implies_true]
    rw [byteAt_denseMem, hassoc, List.getD_append_right _ _ _ _ (by omega), List.getD_append _ _ _ _ (by omega)]
    have hidx : 48 + 32 * i + j - front.length = 32 * i + j := by omega
    have hpiece := take_drop_flatMap 32 (fun i => (List.range 32).map fun j => Config.imageDigest i j) (fun i => by simp) [] 4 i hi
    rw [List.append_nil, ← hdig] at hpiece
    have hget := congrArg (fun l => l[j]?) hpiece
    simp only [List.getElem?_take, hj, if_true, List.getElem?_drop, List.getElem?_map, List.getElem?_range hj, Option.map_some] at hget
    rw [hidx, List.getD_eq_getElem?_getD, hget, Option.getD_some]

/-! The rest of the memory, and MNSTAT. -/

theorem byteAt_foreignMem (m : Memory) (a : Nat) : byteAt (foreignMem m) a = if a < 2 ^ 50 then 0 else byteAt m a := by
  rw [byteAt, byteAt, foreignMem]
  induction m with
  | nil => simp [smGet]
  | cons c m ih =>
    rw [List.filter_cons]
    obtain ⟨k, b⟩ := c
    by_cases hk : 2 ^ 50 ≤ k
    · rw [if_pos (by simpa using hk), smGet, smGet, ih]
      split
      · next h => rw [if_neg (by omega)]
      · rfl
    · rw [if_neg (by simpa using hk), ih, smGet]
      split
      · rfl
      · next h => rw [if_neg (by omega)]

theorem bitsOf_and (a m hi lo : Nat) : bitsOf (a &&& m) hi lo = bitsOf a hi lo &&& bitsOf m hi lo := by
  simp only [bitsOf, Nat.and_div_two_pow, Nat.and_mod_two_pow]

/-- The fields of SVCTL that the monitor takes: source and instance. -/
theorem svctl_fields (v : W32) : bitsOf (v &&& 0x80FF01FF).toNat 23 16 = v.toNat / 2 ^ 16 % 256 ∧
    bitsOf (v &&& 0x80FF01FF).toNat 8 0 = v.toNat % 512 := by
  rw [BitVec.toNat_and, bitsOf_and, bitsOf_and]
  refine ⟨?_, ?_⟩
  · exact (Nat.and_two_pow_sub_one_eq_mod _ 8).trans (Nat.mod_mod _ _)
  · exact (Nat.and_two_pow_sub_one_eq_mod _ 9).trans (by rw [bitsOf, pow_zero, Nat.div_one]; exact Nat.mod_mod _ _)

theorem and_topBit (v : W32) : v &&& 0x80000000 = if v.getLsbD 31 then 0x80000000 else 0 := BitVec.and_twoPow v 31

theorem toNat_and_1023 (v : W32) : (v &&& 0x3FF).toNat % 1024 = v.toNat % 1024 := by
  rw [BitVec.toNat_and, show (0x3FF : W32).toNat = 2 ^ 10 - 1 from rfl, Nat.and_two_pow_sub_one_eq_mod, Nat.mod_mod]

end Sys2Proof.Machine

open Sys2Proof Sys2Proof.Machine

/-- Settles O42: each register's write changes the fields that it names. -/
theorem hostRegisterEvents : Obligations.HostRegisterEvents := by
  unfold Obligations.HostRegisterEvents
  intro s slot mon stack q off v image keys restarted src ways
  have hkeys : ∀ (s' : State) (op st : Nat), { s' with keys := s.keys, keyData := s.keyData, bar0 := s.bar0 } = s → s'.bar0 = s.bar0 →
      keys s op st (keyDone s' op slot st) := by
    intro s' op st hs hb
    refine ⟨bar_setBar_same _ _ _, rfl, hs, fun o ho => ?_⟩
    refine (bar_setBar s' 0x200000 _ o).trans ?_
    rw [if_neg ho, bar, bar, hb]
  have hslot : 0 < slot → slot < 128 → ¬ (slot = 0 ∨ 127 < slot) := fun h0 h1 => by omega
  have hnew : ∀ s' : State, (monOf (newInterval s' mon) mon).start = s'.time := fun s' => by
    rw [monOf, newInterval, setMon, smGet_smSet_self]; rfl
  refine ⟨?_, fun hr => ?_, fun hb hlt h4 => ?_, fun h0 h1 hu => ⟨?_, ?_⟩, fun h0 h1 hu => ⟨?_, ?_⟩, ?_, fun hr hm => ?_, fun hr hm h1 h2 => ?_,
    fun hr hs hv hc hw => ?_, fun hr hp => ?_, fun hr hp => ?_, fun hr => ?_, ?_, fun hr hs => ?_, fun hr hq => ?_, fun h4 => ?_⟩
  · exact ⟨_, rfl, rfl, rfl, byteAt_foreignMem s.mem⟩
  · refine ⟨bringUpReady s, rfl, ?_⟩
    rw [bringUpReady, if_neg (c := ready s = true) (by rw [hr]; exact nofun)]
    refine ⟨onlyRegs_setBar _ _ _ _ (List.mem_singleton_self _), ?_⟩
    rw [setMnStat, bar_setBar_same, and_topBit, mnStat]
    change w32 (_ + _ + (if (bar s 0x1E0000).getLsbD 31 = true then 2 ^ 31 else 0)) = _
    cases (bar s 0x1E0000).getLsbD 31 <;> cases Config.imageVerifies (smGet 0 s.images 0) <;> rfl
  · refine ⟨fwload s off v, rfl, ?_⟩
    rw [fwload, if_pos ⟨hb, hlt, h4⟩]
    exact ⟨rfl, fun i => smGet_smSet 0 s.images 0 _ i⟩
  · refine ⟨keyLoad s slot, rfl, ?_⟩
    rw [keyLoad, keyOp, if_neg (hslot h0 h1), if_neg (by rw [hu]; exact nofun)]
    exact ⟨hkeys _ 1 1 rfl rfl, rfl⟩
  · refine ⟨keyClear s slot, rfl, ?_⟩
    rw [keyClear, keyOp, if_neg (hslot h0 h1), if_neg (by rw [hu]; exact nofun)]
    exact ⟨hkeys _ 2 1 rfl rfl, rfl⟩
  · refine ⟨keyLoad s slot, rfl, ?_⟩
    rw [keyLoad, keyOp, if_neg (hslot h0 h1), if_pos hu]
    exact ⟨hkeys s 1 2 rfl rfl, rfl⟩
  · refine ⟨keyClear s slot, rfl, ?_⟩
    rw [keyClear, keyOp, if_neg (hslot h0 h1), if_pos hu]
    exact ⟨hkeys s 2 2 rfl rfl, rfl⟩
  · obtain ⟨hwords, htime, hdig⟩ := attestation_report s
    exact ⟨_, rfl, rfl, bar_setBar_same _ _ _, hwords, htime, hdig⟩
  · have hgo : svctl s mon v = newInterval (setBar s (svBase mon) (if sourceOk src (v.toNat % 512) then v &&& 0x80FF01FF
        else v &&& 0x80FF01FF &&& 0x7FFFFFFF)) mon := by
      rw [svctl, if_neg (c := 64 ≤ mon) (by omega)]
      simp only [(svctl_fields v).1, (svctl_fields v).2, src]
    refine ⟨_, congrArg Host.Outcome.next ((if_pos hr).trans hgo), ⟨rfl, hnew _⟩, (bar_setBar_same _ _ _).trans ?_⟩
    rw [BitVec.and_assoc]
    rfl
  · have hgo : svival s mon v = newInterval (setBar s (svBase mon + 4) v) mon := if_neg (by omega)
    exact ⟨_, congrArg Host.Outcome.next ((if_pos hr).trans hgo), ⟨rfl, hnew _⟩, bar_setBar_same _ _ _⟩
  · have hbusy : ctxResident s ((bar s (mscBase stack + 0x20)).toNat % 64) = false := by
      rw [← hc]
      congr 1
      omega
    have hgo : mscways s stack v = { s with
        rowWays := smSet 0 s.rowWays ways (v.toNat % 16)
        rowCache := s.rowCache.filter fun r => !(r.stack == stack && r.ctx == (bar s (mscBase stack + 0x20)).toNat % 64) } :=
      if_neg (by
        rw [hbusy, not_or, not_or, not_or]
        exact ⟨by omega, by omega, nofun, Nat.not_lt.2 hw⟩)
    exact ⟨_, congrArg Host.Outcome.next ((if_pos hr).trans hgo), rfl, fun k => smGet_smSet 0 s.rowWays ways _ k⟩
  · have hgo : writeLkdevid s v = { setBar s 0x1D0000 (v &&& 0x3FF) with lockSince := lockPend } := if_pos hp
    exact ⟨_, congrArg Host.Outcome.next ((if_pos hr).trans hgo), rfl,
      (congrArg (fun w : W32 => w.toNat % 1024) (bar_setBar_same s 0x1D0000 _)).trans (toNat_and_1023 v)⟩
  · exact congrArg Host.Outcome.next ((if_pos hr).trans (if_neg hp))
  · exact ⟨writeLkmctl s v, congrArg Host.Outcome.next (if_pos hr), rfl,
      (congrArg (fun w : W32 => w.toNat % 1024) (bar_setBar_same s 0x1D0004 _)).trans (toNat_and_1023 v), rfl⟩
  · refine ⟨hostWrite s 0x1E0008 v, rfl, ?_⟩
    rw [hostWrite_maint (by decide) (by decide) (by decide)]
    exact ⟨onlyRegs_setBar _ _ _ _ (List.mem_singleton_self _), bar_setBar_same _ _ _⟩
  · refine ⟨hostWrite s (mscBase stack) v, rfl, ?_⟩
    rw [hostWrite_block hr (by unfold mscBase; omega) (by unfold mscBase; omega), ← Nat.add_zero (mscBase stack), writeBlock_msc hs (by omega)]
    exact ⟨onlyRegs_setBar _ _ _ _ (List.mem_singleton_self _), bar_setBar_same _ _ _⟩
  · refine ⟨hostWrite s (qBase q + 0x30) v, rfl, ?_⟩
    rw [hostWrite_block hr (by unfold qBase; omega) (by unfold qBase; omega), writeBlock_queue hq (by omega)]
    exact ⟨onlyRegs_setBar _ _ _ _ (List.mem_singleton_self _), bar_setBar_same _ _ _⟩
  · exact congrArg Host.Outcome.next (if_pos h4)

end

section
/-! A context enabled over a level-one copy that has outlived its last use (R92, R453): the copy's line is written back, and the fill of
the memory-side cache that this makes moves context 0's selector from the value that the enabling has just given it. -/

namespace Sys2Proof.Machine

/-- A ready module whose context 0 is disabled; core 0 still holds a copy of a line of it, dirty in the slice of its home. -/
def staleCopy : State :=
  { setBar State.reset 0x1E0000 0x40000000 with
    lines := [{ die := 0, line := 0, data := 0, dirty := true, poison := false, stamp := none, ilv := 0 }]
    l1 := [{ core := 0, line := 0, vline := 0, ctx := 0, tr := ⟨0, 0, 65536⟩, dirty := true, cache := .normal }] }

/-- Enabling context 0 writes the line back, and its selector of stack 0 counts the fill. -/
theorem staleCopy_selector : smGet 511 (contextEnable staleCopy 0 0).psel 0 = 512 := by decide +kernel

end Sys2Proof.Machine

open Sys2Proof Sys2Proof.Machine

/-- Refutes O43: a context enabled while a core still holds a dirty line of it has its selector moved by that line's write-back. -/
theorem not_contextAndQueueEvents : ¬ Obligations.ContextAndQueueEvents := by
  unfold Obligations.ContextAndQueueEvents
  intro h
  obtain ⟨henable, -⟩ := h staleCopy 0 0 0 (by decide)
  obtain ⟨t, ht, -, -, hpsel, -⟩ := henable (by decide) (by decide)
  have hrun : exec (.contextEnable 0 0) staleCopy = .next (contextEnable staleCopy 0 0) := congrArg Host.Outcome.next (if_pos (by decide))
  rw [hrun, Host.Outcome.next.injEq] at ht
  have h0 := hpsel 0 (by decide)
  rw [← ht, Nat.mul_zero, Nat.zero_add, staleCopy_selector] at h0
  exact absurd h0 (by decide)

end

section
/-! A `TIMESTAMP` into host memory (R101, R239) where a slice holds a dirty line under the host line's number: the packet's answer writes
that line back, which the write of the host line alone does not. -/

namespace Sys2Proof.Machine

/-- The host page that virtual page 2 of context 0 maps, as a line number of its first event object. -/
def hostTarget : Nat := (2 ^ 50 + 0x800) / 128

/-- The placed program's page table with a host page at 0x20000, and a ring whose first packet is a `TIMESTAMP` of 0x20800. -/
def stampCells : List (Nat × Nat × Nat) :=
  [(0x128010, 8, 2 ^ 50 + 2 ^ 12 + 0x3F), (0x130000, 16, 12 + 2 ^ 8 * 2), (0x130010, 16, 0x20800)]

/-- Context 0 and queue 0 enabled, and one packet published. -/
def stampRegs : List (Nat × W32) :=
  [(0x1E0000, 0x40000000), (ctxBase 0, 0xC0000000), (ctxBase 0 + 8, 0x100000), (qBase 0, 0x10000), (qBase 0 + 8, 0x8000000C),
   (qBase 0 + 0x10, 2), (qBase 0 + 0x20, 0x11000), (qBase 0 + 0x28, 4)]

/-- The queue's writes are not complete, so that its records are held back. -/
def staleHost : State :=
  { stampRegs.foldl (fun s p => setBar s p.1 p.2) State.reset with
    mem := stampCells.foldl (fun m f => setBytes m (physOf State.reset 0 0 false f.1).loc (leBytes f.2.1 f.2.2)) (progMem [] 0)
    qgwct := [(0, 1)]
    lines := [{ die := locDie (128 * hostTarget), line := hostTarget, data := 0, dirty := true, poison := false, stamp := none, ilv := 0 }] }

/-- The packet that starts. -/
def stampPkt : Pkt := ⟨12, 0, 0, 2, false, false, [], none, [0x20800]⟩

theorem staleHost_starts : startOf staleHost 0 12 = some stampPkt := by decide +kernel

/-- The write of the host line leaves the stale line dirty; the packet's answer does not. -/
theorem staleHost_lines : ((vaWrite staleHost 0 0x20800 (leBytes 8 0)).lines.any CLine.dirty = true ∧
    (timestampPacket staleHost 0).lines.any CLine.dirty = false) ∧ mayPost staleHost 0 = false ∧
    queueCtx staleHost 0 = 0 ∧ unitAddr stampPkt.unit = 0x20800 ∧ staleHost.time = 0 := by decide +kernel

end Sys2Proof.Machine

open Sys2Proof Sys2Proof.Machine

/-- Refutes O44: a `TIMESTAMP` of a host line whose number a dirty line of a slice bears writes that line back too. -/
theorem not_queuePackets : ¬ Obligations.QueuePackets := by
  unfold Obligations.QueuePackets
  intro h
  obtain ⟨-, -, -, -, -, hstamp, -⟩ := h staleHost 0 stampPkt (newLaunch 0 0 0 0 0 0 progHdr []) 0 (by decide)
  obtain ⟨t, ht, -, hwrote⟩ := hstamp staleHost_starts
  obtain ⟨⟨hdirty, hclean⟩, hheld, hctx, haddr, htime⟩ := staleHost_lines
  obtain ⟨-, hlines⟩ := hwrote hheld
  have hrun : timestampPacket staleHost 0 = t := Host.Outcome.next.inj ht
  rw [hrun, hlines, hctx, haddr, htime, hdirty] at hclean
  exact absurd hclean (by decide)

end

section
/-! Errors, tests, monitors and the power loop (R462, R480 to R493): a bit of a register set or cleared, what a stopped core leaves
alone, a log entry, and the registers that an interval latches. -/

namespace Sys2Proof.Machine

variable {s t u : State} {r : ErrorReport}

/-! One bit of a register. -/

/-- A register with one bit replaced. -/
def putBit (v : W32) (k : Nat) (b : Bool) : W32 := w32 (if b then v.toNat ||| 2 ^ k else v.toNat &&& (2 ^ 32 - 1 - 2 ^ k))

theorem putBit_getLsbD (v : W32) {k : Nat} (hk : k < 32) (b : Bool) (j : Nat) :
    (putBit v k b).getLsbD j = if j = k then b else v.getLsbD j := by
  have hpow : 2 ^ k < 2 ^ 32 := Nat.pow_lt_pow_right (by decide) hk
  have hhigh : 32 ≤ j → v.toNat.testBit j = false := fun hj => v.getLsbD_of_ge j hj
  rw [putBit, w32, BitVec.getLsbD_ofNat]
  cases b with
  | true =>
    rw [if_pos rfl, Nat.testBit_or, Nat.testBit_two_pow]
    change (decide (j < 32) && (v.getLsbD j || decide (k = j))) = _
    by_cases hj : j = k
    · simp [hj, hk]
    · by_cases h32 : j < 32
      · simp [h32, hj, Ne.symm hj]
      · have hv : v.getLsbD j = false := hhigh (by omega)
        simp [h32, hj, hv]
  | false =>
    have hsub : 2 ^ 32 - 1 - 2 ^ k = 2 ^ 32 - (2 ^ k + 1) := by omega
    rw [if_neg (by decide), Nat.testBit_and, hsub, Nat.testBit_two_pow_sub_succ hpow, Nat.testBit_two_pow]
    change (decide (j < 32) && (v.getLsbD j && (decide (j < 32) && !decide (k = j)))) = _
    by_cases hj : j = k
    · simp [hj]
    · by_cases h32 : j < 32
      · simp [h32, hj, Ne.symm hj]
      · have hv : v.getLsbD j = false := hhigh (by omega)
        simp [h32, hj, hv]

theorem setFence_eq (s : State) (stack st : Nat) (b : Bool) :
    setFence s stack st b = setBar s (0x180000 + 0x40 * stack) (putBit (bar s (0x180000 + 0x40 * stack)) st b) := rfl

theorem stationFenced_setFence (s : State) (stack : Nat) {st : Nat} (h : st < 16) (b : Bool) :
    stationFenced (setFence s stack st b) stack st = b := by
  rw [stationFenced, setFence_eq, bar_setBar_same, putBit_getLsbD _ (by omega), if_pos rfl]

theorem bar_setFence (s : State) {stack off : Nat} (st : Nat) (b : Bool) (hs : stack < 256) (ho : 0x184000 ≤ off) :
    bar (setFence s stack st b) off = bar s off := by
  rw [setFence_eq, bar_setBar, if_neg (by omega)]

/-! What a launch's stop leaves. -/

/-- Only blocks, launches, calls and the free values' counter differ. -/
def OnlyHalts (s t : State) : Prop := t = { s with blocks := t.blocks, launches := t.launches, calls := t.calls, freeCtr := t.freeCtr }

theorem OnlyHalts.refl (s : State) : OnlyHalts s s := rfl

theorem OnlyHalts.trans (h : OnlyHalts s t) (k : OnlyHalts t u) : OnlyHalts s u := by
  unfold OnlyHalts at *
  rw [k, h]

theorem OnlyHalts.foldl {α : Type} {f : State → α → State} (h : ∀ s a, OnlyHalts s (f s a)) (l : List α) :
    ∀ s, OnlyHalts s (l.foldl f s) := by
  induction l with
  | nil => exact .refl
  | cons a l ih => exact fun s => (h s a).trans (ih _)

theorem OnlyHalts.tests (h : OnlyHalts s t) : t.tests = s.tests := by rw [h]
theorem OnlyHalts.mpoison (h : OnlyHalts s t) : t.mpoison = s.mpoison := by rw [h]
theorem OnlyHalts.lines (h : OnlyHalts s t) : t.lines = s.lines := by rw [h]

theorem stopLaunch_onlyHalts (s : State) (q n : Nat) (st : Stop) (all : Bool) : OnlyHalts s (stopLaunch s q n st all) := rfl

theorem engineStop_onlyHalts (s : State) (b : Block) (team cause : Nat) (pc trapa : W64) (pages : List W64) :
    OnlyHalts s (engineStop s b team cause pc trapa pages) := by
  unfold engineStop
  split
  · exact .refl s
  · exact stopLaunch_onlyHalts ..

theorem siteStop_onlyHalts (s : State) (b : Block) (la : Launch) (team : Nat) (pc : W64) (e : Nat × Nat) (ahead : List Nat) :
    OnlyHalts s (siteStop s b la team pc e ahead) := by
  unfold siteStop
  split
  · rfl
  · exact engineStop_onlyHalts ..

theorem coreStop_onlyHalts (s : State) (bid : Nat) : OnlyHalts s (coreStop s bid) := by
  unfold coreStop
  split
  · exact .refl s
  · next b _ =>
    split
    · exact .refl s
    · next la _ =>
      extract_lets n s1 st
      have h1 : OnlyHalts s s1 := rfl
      split
      · exact h1.trans (siteStop_onlyHalts ..)
      · exact h1.trans (stopLaunch_onlyHalts ..)

theorem saveOff_onlyHalts (s : State) (core : Nat) : OnlyHalts s (saveOff s core) := by
  unfold saveOff
  refine OnlyHalts.foldl (fun s b => ?_) _ s
  split
  · exact .refl s
  · rfl

/-! An error is detected. -/

theorem detectError_tests_new (h : ∀ x ∈ s.tests, ¬ (x.rep.cls = r.cls ∧ x.rep.unit = r.unit)) :
    (detectError s r).tests = s.tests ++ [⟨r, s.time, 1⟩] := by
  have hno : ¬ (s.tests.any fun x => x.rep.cls == r.cls && x.rep.unit == r.unit) = true := by
    simpa [List.any_eq_true] using h
  exact (congrArg State.tests (if_neg hno)).trans rfl

theorem detectError_tests_old (h : ∃ x ∈ s.tests, x.rep.cls = r.cls ∧ x.rep.unit = r.unit) :
    (detectError s r).tests = s.tests.map fun x =>
      if (x.rep.cls == r.cls && x.rep.unit == r.unit) = true then { x with count := min (x.count + 1) (2 ^ 32 - 1) } else x := by
  have hyes : (s.tests.any fun x => x.rep.cls == r.cls && x.rep.unit == r.unit) = true := by
    simpa [List.any_eq_true] using h
  exact (congrArg State.tests (if_pos hyes)).trans rfl

theorem detectError_rest (s : State) (r : ErrorReport) : detectError s r = { s with tests := (detectError s r).tests } := by
  unfold detectError
  extract_lets same
  split <;> rfl

theorem dramPoison_tests (s : State) (line : Nat) : (dramPoison s line).tests = s.tests := by
  unfold dramPoison
  extract_lets held
  split <;> rfl

theorem poisonInMsc_tests (s : State) (line : Nat) : (poisonInMsc s line).tests = s.tests := by
  unfold poisonInMsc
  extract_lets held
  split <;> rfl

theorem errorData_tests (s : State) (r : ErrorReport) : (errorData s r).tests = s.tests := by
  unfold errorData
  extract_lets struct line
  split
  · rfl
  split
  · split
    · rfl
    split
    · exact dramPoison_tests s line
    split
    · exact poisonInMsc_tests s line
    · rfl
  split
  · split <;> rfl
  split
  · split
    · rfl
    · exact (coreStop_onlyHalts ..).tests
  · rfl

theorem errorDetected_tests (s : State) (r : ErrorReport) : (errorDetected s r).tests = (detectError s r).tests := by
  unfold errorDetected
  extract_lets s1
  have h1 : s1.tests = (detectError s r).tests := errorData_tests ..
  split
  · exact (saveOff_onlyHalts ..).tests.trans h1
  split
  · exact h1
  · exact h1

theorem dramPoison_absent {line : Nat} (h : ∀ l ∈ s.msc, l.line ≠ line) : line ∈ (dramPoison s line).mpoison := by
  have hno : ¬ (s.msc.any fun l => l.line == line) = true := by simpa [List.any_eq_true] using h
  rw [show dramPoison s line = setMPoison s line true from if_neg hno]
  exact List.mem_cons_self

/-- An error that reaches neither a core nor a station does no more than it does to data. -/
theorem errorDetected_data (h4 : r.cls ≠ 4) (h5 : r.cls ≠ 5) : errorDetected s r = errorData (detectError s r) r := by
  unfold errorDetected
  extract_lets s1
  rw [if_neg h4, if_neg fun h => h5 h.1]

/-- An uncorrectable error of memory poisons the line in DRAM (R462). -/
theorem errorDetected_memory (hc : r.cls = 2) (hs : r.sev = 1) (hp : r.pa ≠ 0) :
    errorDetected s r = dramPoison (detectError s r) (r.pa.toNat / 128) := by
  rw [errorDetected_data (by omega) (by omega), errorData, if_neg (by omega), if_pos (.inl hc), if_neg hp, if_pos hc]

/-- One of a slice's data poisons the line that the die holds. -/
theorem errorDetected_slice (hc : r.cls = 1) (hu : bitsOf r.unit.toNat 15 8 = 6) (hs : r.sev = 1) (hp : r.pa ≠ 0) :
    errorDetected s r = poisonOnDie (detectError s r) (bitsOf r.unit.toNat 7 0) (r.pa.toNat / 128) := by
  have hu' : unitField r 15 8 = 6 := hu
  rw [errorDetected_data (by omega) (by omega), errorData, if_neg (by omega), if_pos (.inr ⟨hc, .inr (.inl hu')⟩), if_neg hp,
    if_neg (by omega), if_neg (by omega)]
  rfl

theorem errorDetected_station (hc : r.cls = 5) (hst : bitsOf r.unit.toNat 7 0 < 8) (hn : bitsOf r.unit.toNat 15 8 < 16) :
    errorDetected s r = setFence (errorData (detectError s r) r) (bitsOf r.unit.toNat 7 0) (bitsOf r.unit.toNat 15 8) true := by
  unfold errorDetected
  extract_lets s1
  rw [if_neg (by omega)]
  exact if_pos ⟨hc, hst, hn⟩

/-! A test ends. -/

/-- The error ring has room. -/
def LogRoom (s : State) : Prop := (bar s 0x1E0004 - bar s 0x1E0008).toNat ≠ 256

/-- An entry stands in the ring at the index that was next, and the index is one higher. -/
def Logged (s t : State) (e : BitVec 512) : Prop :=
  bar t 0x1E0004 = bar s 0x1E0004 + 1 ∧ smGet 0 t.mlog ((bar s 0x1E0004).toNat % 256) = e

theorem writeLog_logged (e : BitVec 512) (outcome : Nat) (h : LogRoom s) : Logged s (writeLog s e outcome) e := by
  unfold writeLog
  extract_lets w s1 s2
  have h1 : Logged s s1 e := by
    have hs1 : s1 = setBar { s with mlog := smSet 0 s.mlog (w.toNat % 256) e } 0x1E0004 (w + 1) := if_neg h
    rw [hs1]
    exact ⟨bar_setBar_same .., smGet_smSet_self ..⟩
  split
  · refine ⟨Eq.trans ?_ h1.1, h1.2⟩
    change bar (setBar _ 0x1E0000 _) 0x1E0004 = _
    rw [bar_setBar, if_neg (by decide)]
  · exact h1

/-- A test's end writes registers of the log and the status only. -/
theorem bar_writeLog (s : State) (e : BitVec 512) (outcome : Nat) {off : Nat} (h : 0x1E0010 ≤ off ∨ off < 0x1E0000) :
    bar (writeLog s e outcome) off = bar s off := by
  have hcount : bar (barCount s 0x1E000C) off = bar s off := by
    unfold barCount
    extract_lets v
    split
    · rfl
    · rw [bar_setBar, if_neg (by omega)]
  unfold writeLog
  extract_lets w s1
  have h1 : bar s1 off = bar s off := by
    change bar (if _ then _ else _) off = _
    split
    · exact hcount
    · rw [bar_setBar, if_neg (by omega)]
      rfl
  split
  · change bar (setBar _ 0x1E0000 _) off = _
    rw [bar_setBar, if_neg (by omega), h1]
  · exact h1

theorem barCount_tests (s : State) (off : Nat) : (barCount s off).tests = s.tests := by
  unfold barCount
  extract_lets v
  split <;> rfl

theorem writeLog_tests (s : State) (e : BitVec 512) (outcome : Nat) : (writeLog s e outcome).tests = s.tests := by
  unfold writeLog
  extract_lets w s1
  have h1 : s1.tests = s.tests := by
    change (if _ then _ else _ : State).tests = _
    split
    · exact barCount_tests ..
    · rfl
  split
  · exact h1
  · exact h1

/-- A state whose log registers stand as before takes the same entry. -/
theorem Logged.of_same {e : BitVec 512} (h : Logged s u e) (hw : bar s 0x1E0004 = bar t 0x1E0004) : Logged t u e := by
  unfold Logged at *
  rwa [← hw]

theorem LogRoom.of_same (h : LogRoom t) (hw : bar s 0x1E0004 = bar t 0x1E0004) (hr : bar s 0x1E0008 = bar t 0x1E0008) : LogRoom s := by
  unfold LogRoom at *
  rwa [hw, hr]

theorem targetedTestEnd_busy {n : Nat} {x : Test} {passed : Bool} (hn : s.tests[n]? = some x) (h : testable s x.rep = false) :
    targetedTestEnd s n passed = s := by
  simp only [targetedTestEnd, hn, h]
  rfl

theorem targetedTestEnd_passed {n : Nat} {x : Test} (hn : s.tests[n]? = some x) (h : testable s x.rep = true) :
    targetedTestEnd s n true = writeLog
      (if x.rep.cls = 5 then setFence { s with tests := s.tests.eraseIdx n } (unitField x.rep 7 0) (unitField x.rep 15 8) false
        else { s with tests := s.tests.eraseIdx n }) (testLogEntry x s.time 1) 1 := by
  simp only [targetedTestEnd, hn, h, Bool.not_true, Bool.false_eq_true, if_false, if_true]
  split <;> rfl

theorem targetedTestEnd_failed {n : Nat} {x : Test} (hn : s.tests[n]? = some x) (h : testable s x.rep = true) :
    targetedTestEnd s n false = writeLog (spare { s with tests := s.tests.eraseIdx n } x.rep).1
      (testLogEntry x s.time (spare { s with tests := s.tests.eraseIdx n } x.rep).2)
      (spare { s with tests := s.tests.eraseIdx n } x.rep).2 := by
  simp only [targetedTestEnd, hn, h, Bool.not_true, Bool.false_eq_true, if_false]


/-! A lasting error is spared. -/

theorem takeSpare_some {off lo width : Nat} (h : bitsOf (bar s off).toNat (lo + width - 1) lo ≠ 0) :
    takeSpare s off lo width = (setBar s off (w32 ((bar s off).toNat - 2 ^ lo)), true) := if_neg h

/-- A row of a stack's memory is spared while the stack's budget lasts (R485). -/
theorem spare_row (hc : r.cls = 2) (hu : unitField r 7 0 < 8)
    (h : bitsOf (bar s (0x1E0018 + 4 * (unitField r 7 0 / 4))).toNat (8 * (unitField r 7 0 % 4) + 7) (8 * (unitField r 7 0 % 4)) ≠ 0) :
    spare s r = (setBar s (0x1E0018 + 4 * (unitField r 7 0 / 4))
      (w32 ((bar s (0x1E0018 + 4 * (unitField r 7 0 / 4))).toNat - 2 ^ (8 * (unitField r 7 0 % 4)))), 2) := by
  unfold spare
  extract_lets a b n t1 t2 frame w id die m
  have ht2 : t2 = (setBar s (0x1E0018 + 4 * (a / 4)) (w32 ((bar s (0x1E0018 + 4 * (a / 4))).toNat - 2 ^ (8 * (a % 4)))), true) :=
    (if_pos hu).trans (takeSpare_some h)
  rw [if_neg (by omega), if_pos hc, ht2]
  rfl

/-- A core that fails is marked in the register of its sparing (R485). -/
theorem spare_core (hc : r.cls = 4) : ∃ v, spare s r =
    (let s1 := setBar s (0x1E0040 + 4 * (unitField r 31 0 / 32))
      (bar s (0x1E0040 + 4 * (unitField r 31 0 / 32)) ||| w32 (2 ^ (unitField r 31 0 % 32)))
     (if bitsOf (bar s 0x1E0010).toNat (4 * (unitField r 31 0 / 256 % 2) + 3) (4 * (unitField r 31 0 / 256 % 2)) = 15 then s1
      else setBar s1 0x1E0010 (bar s1 0x1E0010 + w32 (16 ^ (unitField r 31 0 / 256 % 2))), v)) := by
  unfold spare
  extract_lets a b n t1 t2 frame w id die m s1
  rw [if_neg (by omega), if_neg (by omega), if_neg (by omega), if_pos hc]
  exact ⟨_, rfl⟩

theorem spare_core_tests (hc : r.cls = 4) : (spare s r).1.tests = s.tests := by
  obtain ⟨v, hv⟩ := spare_core (s := s) hc
  rw [hv]
  change (if _ then _ else _ : State).tests = _
  split <;> rfl

theorem spare_core_marks (hc : r.cls = 4) :
    (bar (spare s r).1 (0x1E0040 + 4 * (unitField r 31 0 / 32))).getLsbD (unitField r 31 0 % 32) = true := by
  obtain ⟨v, hv⟩ := spare_core (s := s) hc
  have hmod : unitField r 31 0 % 32 < 32 := Nat.mod_lt _ (by decide)
  have hset : (bar s (0x1E0040 + 4 * (unitField r 31 0 / 32)) ||| w32 (2 ^ (unitField r 31 0 % 32))).getLsbD (unitField r 31 0 % 32) = true := by
    rw [BitVec.getLsbD_or, w32, BitVec.getLsbD_ofNat, Nat.testBit_two_pow]
    simp [hmod]
  rw [hv]
  change (bar (if _ then _ else _) _).getLsbD _ = true
  split
  · rw [bar_setBar_same, hset]
  · rw [bar_setBar, if_neg (by omega), bar_setBar_same, hset]

/-! An interval of a monitor (R490). -/

/-- Words written to consecutive registers. -/
theorem bar_foldl_setBar (o : Nat) (ho : o % 4 = 0) (l : List Nat) : ∀ (s : State) (n off : Nat), off % 4 = 0 →
    bar ((l.zipIdx n).foldl (fun s p => setBar s (o + 4 * p.2) (w32 p.1)) s) off =
      if o + 4 * n ≤ off ∧ off < o + 4 * (n + l.length) then w32 (l.getD ((off - o) / 4 - n) 0) else bar s off := by
  induction l with
  | nil =>
    intro s n off _
    rw [if_neg (by simp only [List.length_nil]; omega)]
    rfl
  | cons v l ih =>
    intro s n off hoff
    have h := ih (setBar s (o + 4 * n) (w32 v)) (n + 1) off hoff
    rw [List.zipIdx_cons, List.foldl_cons, h, List.length_cons, bar_setBar]
    by_cases heq : off = o + 4 * n
    · have hk : (off - o) / 4 - n = 0 := by omega
      rw [if_neg (by omega), if_pos (by omega), if_pos (by omega), hk]
      rfl
    · by_cases hin : o + 4 * (n + 1) ≤ off ∧ off < o + 4 * (n + 1 + l.length)
      · have hk : (off - o) / 4 - n = (off - o) / 4 - (n + 1) + 1 := by omega
        rw [if_pos hin, if_pos (by omega), hk]
        rfl
      · rw [if_neg hin, if_neg (by omega), if_neg (by omega)]

theorem time_foldl_setBar (o : Nat) (l : List (Nat × Nat)) : ∀ s : State,
    (l.foldl (fun s p => setBar s (o + 4 * p.2) (w32 p.1)) s).time = s.time := by
  induction l with
  | nil => exact fun _ => rfl
  | cons p l ih => exact fun s => (ih _).trans rfl

/-- What a monitor latches at the end of an interval. -/
def latchOf (s : State) (mon : Nat) : Nat × Nat × Nat × List Nat :=
  let src := bitsOf (bar s (svBase mon)).toNat 23 16
  let m := monOf s mon
  if ownSource src then (m.count, m.least, m.most, (List.range 32).map fun i => smGet 0 m.bins i)
  else latched (intervalSamples src (bitsOf (bar s (svBase mon)).toNat 8 0) (bar s (svBase mon + 4)).toNat m.samples)

theorem latchOf_length (s : State) (mon : Nat) : (latchOf s mon).2.2.2.length = 32 := by
  unfold latchOf
  extract_lets src m
  split
  · exact (List.length_map _).trans List.length_range
  · exact (List.length_map _).trans List.length_range

/-- The registers of a monitor after its interval's end, and the interval that starts. -/
theorem monitorLatch_regs {mon : Nat} (hm : mon < 64) (hon : (bar s (svBase mon)).toNat.testBit 31 = true)
    (ht : (monOf s mon).start + 1000 * (bar s (svBase mon + 4)).toNat ≤ s.time) :
    bar (monitorLatch s mon) (svBase mon + 0xC) = w32 (latchOf s mon).1 ∧
    bar (monitorLatch s mon) (svBase mon + 0x10) = w32 (latchOf s mon).2.1 ∧
    bar (monitorLatch s mon) (svBase mon + 0x14) = w32 (latchOf s mon).2.2.1 ∧
    (∀ k, k < 32 → bar (monitorLatch s mon) (svBase mon + 0x40 + 4 * k) = w32 ((latchOf s mon).2.2.2.getD k 0)) ∧
    bar (monitorLatch s mon) (svBase mon + 8) = bar s (svBase mon + 8) + 2 ∧
    (monOf (monitorLatch s mon) mon).start = s.time ∧ (monOf (monitorLatch s mon) mon).count = 0 := by
  have ho : svBase mon % 4 = 0 := by unfold svBase; omega
  have hlen := latchOf_length s mon
  unfold monitorLatch
  extract_lets ctl ival m src l r o s1 s2 s3
  have hr : r = latchOf s mon := by
    change (if _ then _ else _) = if _ then _ else _
    by_cases hsrc : ownSource src = true
    · rw [if_pos hsrc]
      exact (if_pos hsrc).symm
    · have hl : l = intervalSamples src (bitsOf ctl 8 0) ival m.samples := if_neg hsrc
      rw [if_neg hsrc, hl]
      exact (if_neg hsrc).symm
  have hgo : ¬ (64 ≤ mon ∨ (!ctl.testBit 31) = true ∨ s.time < m.start + 1000 * ival) := by
    rintro (h | h | h)
    · omega
    · rw [show ctl.testBit 31 = true from hon] at h
      exact absurd h (by decide)
    · exact absurd ht (Nat.not_le.mpr h)
  rw [if_neg hgo, ← hr]
  rw [← hr] at hlen
  have hbin : ∀ off, off % 4 = 0 → bar s2 off =
      if o + 0x40 + 4 * 0 ≤ off ∧ off < o + 0x40 + 4 * (0 + r.2.2.2.length) then w32 (r.2.2.2.getD ((off - (o + 0x40)) / 4 - 0) 0)
      else bar s1 off := fun off hoff => bar_foldl_setBar (o + 0x40) (by omega) r.2.2.2 s1 0 off hoff
  have hbar : ∀ off, off % 4 = 0 → bar (setMon s3 mon (Mon.fresh s.time (m.samples + l.length))) off =
      if off / 4 = (o + 8) / 4 then bar s2 (o + 8) + 2 else bar s2 off := fun off _ => bar_setBar s2 (o + 8) _ off
  have hmon : monOf (setMon s3 mon (Mon.fresh s3.time (m.samples + l.length))) mon = Mon.fresh s3.time (m.samples + l.length) :=
    smGet_smSet_self ..
  have htime : s3.time = s.time := time_foldl_setBar (o + 0x40) r.2.2.2.zipIdx s1
  have hs1 : ∀ off, bar s1 off = if off / 4 = (o + 0x14) / 4 then w32 r.2.2.1 else if off / 4 = (o + 0x10) / 4 then w32 r.2.1
      else if off / 4 = (o + 0xC) / 4 then w32 r.1 else bar s off := by
    intro off
    change bar (setBar (setBar (setBar s (o + 0xC) _) (o + 0x10) _) (o + 0x14) _) off = _
    rw [bar_setBar, bar_setBar, bar_setBar]
  have hlow : ∀ k, k % 4 = 0 → k < 0x40 → k ≠ 8 →
      bar (setMon s3 mon (Mon.fresh s.time (m.samples + l.length))) (o + k) = bar s1 (o + k) := by
    intro k h4 hk h8
    rw [hbar _ (by omega), if_neg (by omega), hbin _ (by omega), if_neg (by omega)]
  refine ⟨?_, ?_, ?_, fun k hk => ?_, ?_, ?_, ?_⟩
  · exact (hlow 0xC (by decide) (by decide) (by decide)).trans ((hs1 _).trans (by
      rw [if_neg (by omega), if_neg (by omega), if_pos rfl]))
  · exact (hlow 0x10 (by decide) (by decide) (by decide)).trans ((hs1 _).trans (by rw [if_neg (by omega), if_pos rfl]))
  · exact (hlow 0x14 (by decide) (by decide) (by decide)).trans ((hs1 _).trans (if_pos rfl))
  · have hidx : (o + 0x40 + 4 * k - (o + 0x40)) / 4 - 0 = k := by omega
    exact (hbar (o + 0x40 + 4 * k) (by omega)).trans (by
      rw [if_neg (by omega), hbin _ (by omega), if_pos (by omega), hidx])
  · have h8 : bar s2 (o + 8) = bar s (o + 8) := by
      rw [hbin _ (by omega), if_neg (by omega), hs1, if_neg (by omega), if_neg (by omega), if_neg (by omega)]
    exact (hbar (o + 8) (by omega)).trans (by rw [if_pos rfl, h8])
  · rw [hmon]; exact htime
  · rw [hmon]; rfl

/-- Samples are words. -/
theorem intervalSamples_lt {src inst ival start v : Nat} (h : v ∈ intervalSamples src inst ival start) : v < 2 ^ 32 := by
  unfold intervalSamples at h
  obtain ⟨i, -, rfl⟩ := List.mem_map.mp h
  exact BitVec.isLt _

theorem foldl_min_le {l : List Nat} : ∀ {a : Nat}, l.foldl min a ≤ a ∧ ∀ v ∈ l, l.foldl min a ≤ v := by
  induction l with
  | nil => intro a; exact ⟨Nat.le_refl a, by simp⟩
  | cons x l ih =>
    intro a
    obtain ⟨h, hl⟩ := ih (a := min a x)
    refine ⟨h.trans (Nat.min_le_left ..), fun v hv => ?_⟩
    rcases List.mem_cons.mp hv with rfl | hv
    · exact h.trans (Nat.min_le_right ..)
    · exact hl v hv

theorem foldl_max_ge {l : List Nat} : ∀ {a : Nat}, a ≤ l.foldl max a ∧ ∀ v ∈ l, v ≤ l.foldl max a := by
  induction l with
  | nil => intro a; exact ⟨Nat.le_refl a, by simp⟩
  | cons x l ih =>
    intro a
    obtain ⟨h, hl⟩ := ih (a := max a x)
    refine ⟨(Nat.le_max_left ..).trans h, fun v hv => ?_⟩
    rcases List.mem_cons.mp hv with rfl | hv
    · exact (Nat.le_max_right ..).trans h
    · exact hl v hv

theorem foldl_choice_mem {f : Nat → Nat → Nat} (hf : ∀ a b, f a b = a ∨ f a b = b) {l : List Nat} :
    ∀ {a : Nat}, l.foldl f a = a ∨ l.foldl f a ∈ l := by
  induction l with
  | nil => intro a; exact .inl rfl
  | cons x l ih =>
    intro a
    rcases ih (a := f a x) with h | h
    · rcases hf a x with hx | hx
      · exact .inl (h.trans hx)
      · exact .inr (List.mem_cons.mpr (.inl (h.trans hx)))
    · exact .inr (List.mem_cons_of_mem _ h)

theorem toNat_w32 {n : Nat} (h : n < 2 ^ 32) : (w32 n).toNat = n := (BitVec.toNat_ofNat ..).trans (Nat.mod_eq_of_lt h)

theorem sat32_lt (n : Nat) : sat32 n < 2 ^ 32 := by
  unfold sat32
  omega

theorem monitorLatch_idle {mon : Nat} (h : 64 ≤ mon ∨ (bar s (svBase mon)).toNat.testBit 31 = false ∨
    s.time < (monOf s mon).start + 1000 * (bar s (svBase mon + 4)).toNat) : monitorLatch s mon = s := by
  refine if_pos ?_
  rcases h with h | h | h
  · exact .inl h
  · exact .inr (.inl (by rw [h]; rfl))
  · exact .inr (.inr h)

/-! Power and temperature (R493). -/

theorem dieLower_caps (s : State) : (dieLower s).die0.cap = s.die0.cap ∧ (dieLower s).die1.cap = s.die1.cap ∧
    (dieLower s).coolSince = s.coolSince ∧ (dieLower s).powerAt = s.powerAt ∧ (dieLower s).die0.hot = s.die0.hot := ⟨rfl, rfl, rfl, rfl, rfl⟩

theorem dieLower_point (s : State) : (dieLower s).die0.point = min s.die0.point (dieWants s 0 s.die0) := rfl

theorem dieWants_hot {d : Die} (h : d.hot = true) (die : Nat) : dieWants s die d ≤ 7 := by
  unfold dieWants
  extract_lets cap on
  have hcap : cap = min d.cap 7 := if_pos h
  omega

theorem powerLoop_early {watts : Nat} (h : s.time < s.powerAt + 1000000) : powerLoop s watts = s := if_pos h

section
variable {watts : Nat} (hat : s.powerAt + 1000000 ≤ s.time)
include hat

theorem powerLoop_high (h : (bar s 0x1E0024).toNat < watts) :
    powerLoop s watts = setCaps { s with powerAt := s.time, coolSince := none } fun c => c - 1 :=
  (if_neg (Nat.not_lt.mpr hat)).trans (if_pos h)

theorem powerLoop_near (h : watts ≤ (bar s 0x1E0024).toNat) (h' : 95 * (bar s 0x1E0024).toNat ≤ 100 * watts) :
    powerLoop s watts = { s with powerAt := s.time, coolSince := none } :=
  (if_neg (Nat.not_lt.mpr hat)).trans ((if_neg (Nat.not_lt.mpr h)).trans (if_neg (Nat.not_lt.mpr h')))

theorem powerLoop_cool_first (h : 100 * watts < 95 * (bar s 0x1E0024).toNat) (hc : s.coolSince = none) :
    powerLoop s watts = { s with powerAt := s.time, coolSince := some s.time } := by
  unfold powerLoop
  extract_lets limit s1
  have hs1 : s1.coolSince = none := hc
  have hlt : 100 * watts < 95 * limit := h
  rw [if_neg (Nat.not_lt.mpr hat), if_neg (by omega), if_pos hlt]
  simp only [hs1]
  rfl

theorem powerLoop_cool_long {t0 : Nat} (h : 100 * watts < 95 * (bar s 0x1E0024).toNat) (hc : s.coolSince = some t0)
    (ht : t0 + 10000000 ≤ s.time) :
    powerLoop s watts = setCaps { s with powerAt := s.time, coolSince := some s.time } fun c => min 15 (c + 1) := by
  unfold powerLoop
  extract_lets limit s1
  have hs1 : s1.coolSince = some t0 := hc
  have hlt : 100 * watts < 95 * limit := h
  have ht1 : t0 + 10000000 ≤ s1.time := ht
  rw [if_neg (Nat.not_lt.mpr hat), if_neg (by omega), if_pos hlt]
  simp only [hs1]
  rw [if_pos ht1]

theorem powerLoop_powerAt (watts : Nat) : (powerLoop s watts).powerAt = s.time := by
  unfold powerLoop
  extract_lets limit s1
  rw [if_neg (Nat.not_lt.mpr hat)]
  split
  · rfl
  split
  · split
    · rfl
    · split <;> rfl
  · rfl

end

end Sys2Proof.Machine

open Sys2Proof Sys2Proof.Machine

/-- Settles O53: an error, a test's end, an interval's end and a measurement are followed through the registers they write. -/
theorem maintenanceEvents : Obligations.MaintenanceEvents := by
  unfold Obligations.MaintenanceEvents
  intro s r n mon watts celsius t0 x passed same unit w free logged ends ctl ival m own l clip bin reg limit
  refine ⟨⟨_, rfl, ?_, ?_, ?_, ?_, ?_⟩, ?_, ?_, ?_, ?_, ?_, ?_, ?_, ?_, ?_, ⟨_, rfl, ?_⟩⟩
  · exact fun h => (errorDetected_tests s r).trans (detectError_tests_new h)
  · intro h
    rw [errorDetected_tests, detectError_tests_old h]
    refine ⟨List.length_map _, fun y hy hsame => List.mem_map.mpr ⟨y, hy, if_pos ?_⟩⟩
    simpa using hsame
  · intro hc hs hp hmsc
    rw [errorDetected_memory hc hs hp]
    refine dramPoison_absent ?_
    rw [detectError_rest]
    exact hmsc
  · intro hc hu hs hp c hcmem hline hdie
    rw [errorDetected_slice hc hu hs hp] at hcmem
    obtain ⟨d, -, hd⟩ := List.mem_map.mp hcmem
    split at hd
    · rw [← hd]
    · next hnot =>
      subst hd
      exact absurd ⟨hdie, hline⟩ hnot
  · intro hc hst hn
    rw [errorDetected_station hc hst hn]
    exact stationFenced_setFence _ _ hn true
  · exact fun hn h => congrArg Host.Outcome.next (targetedTestEnd_busy hn h)
  · rintro ⟨hn, h⟩
    have hstack : unitField x.rep 7 0 < 256 := Nat.mod_lt _ (by decide)
    let s0 : State := { s with tests := s.tests.eraseIdx n }
    let s1 : State := if x.rep.cls = 5 then setFence s0 (unitField x.rep 7 0) (unitField x.rep 15 8) false else s0
    have hbar : ∀ off, 0x184000 ≤ off → bar s1 off = bar s off := by
      intro off hoff
      change bar (if _ then _ else _) off = _
      split
      · exact bar_setFence s0 _ _ hstack hoff
      · rfl
    have hrun : exec (.targetedTestEnd n true) s = .next (writeLog s1 (testLogEntry x s.time 1) 1) :=
      congrArg Host.Outcome.next (targetedTestEnd_passed hn h)
    refine ⟨_, hrun, ?_, fun hfree => ?_, fun hc hst hno => ?_⟩
    · rw [writeLog_tests]
      change (if _ then _ else _ : State).tests = _
      split <;> rfl
    · have hroom : LogRoom s1 := LogRoom.of_same (t := s) hfree (hbar _ (by decide)) (hbar _ (by decide))
      exact (writeLog_logged _ 1 hroom).of_same (hbar _ (by decide))
    · have hs1 : s1 = setFence s0 (unitField x.rep 7 0) (unitField x.rep 15 8) false := if_pos hc
      have hlow : unitField x.rep 7 0 < 8 := hst
      rw [stationFenced, bar_writeLog _ _ _ (.inr (by change 0x180000 + 0x40 * unitField x.rep 7 0 < 0x1E0000; omega)), hs1]
      exact stationFenced_setFence s0 _ hno false
  · rintro ⟨hn, h⟩ hc hu off lo hbits
    let s0 : State := { s with tests := s.tests.eraseIdx n }
    have hspare : spare s0 x.rep = (setBar s0 off (w32 ((bar s0 off).toNat - 2 ^ lo)), 2) := spare_row hc hu hbits
    have hrun : exec (.targetedTestEnd n false) s =
        .next (writeLog (setBar s0 off (w32 ((bar s0 off).toNat - 2 ^ lo))) (testLogEntry x s.time 2) 2) :=
      congrArg Host.Outcome.next ((targetedTestEnd_failed hn h).trans (by rw [hspare]))
    have hoff : 0x1E0018 ≤ off := Nat.le_add_right ..
    have hbar : ∀ o, o < 0x1E0018 → bar (setBar s0 off (w32 ((bar s0 off).toNat - 2 ^ lo))) o = bar s o := by
      intro o ho
      rw [bar_setBar, if_neg (by omega)]
      rfl
    refine ⟨_, hrun, (writeLog_tests ..).trans rfl, fun hfree => ?_, ?_⟩
    · have hroom : LogRoom (setBar s0 off (w32 ((bar s0 off).toNat - 2 ^ lo))) :=
        LogRoom.of_same (t := s) hfree (hbar _ (by decide)) (hbar _ (by decide))
      exact (writeLog_logged _ 2 hroom).of_same (hbar _ (by decide))
    · rw [bar_writeLog _ _ _ (.inl (by omega)), bar_setBar_same]
      exact toNat_w32 (Nat.lt_of_le_of_lt (Nat.sub_le ..) (BitVec.isLt _))
  · rintro ⟨hn, h⟩ hc
    refine ⟨_, congrArg Host.Outcome.next (targetedTestEnd_failed hn h), fun _ => ?_⟩
    rw [bar_writeLog _ _ _ (.inl (Nat.le_trans (by decide) (Nat.le_add_right 0x1E0040 _)))]
    exact spare_core_marks hc
  · exact fun h => congrArg Host.Outcome.next (monitorLatch_idle h)
  · intro hm hon ht hown
    obtain ⟨hcount, hleast, hmost, hbins, hseq, hstart, hzero⟩ := monitorLatch_regs hm hon ht
    have hl : latchOf s mon = (m.count, m.least, m.most, (List.range 32).map fun i => smGet 0 m.bins i) := if_pos hown
    rw [hl] at hcount hleast hmost hbins
    refine ⟨_, rfl, hcount, hleast, hmost, fun k hk => (hbins k hk).trans ?_, hseq, hstart, hzero⟩
    simp [hk]
  · intro hm hon ht hown
    obtain ⟨hcount, hleast, hmost, hbins, hseq, hstart, -⟩ := monitorLatch_regs hm hon ht
    have hl : latchOf s mon = latched l := if_neg hown
    rw [hl] at hcount hleast hmost hbins
    have hword : ∀ v ∈ l, v < 2 ^ 32 := fun v hv => intervalSamples_lt hv
    have hmin : l.foldl min (2 ^ 32 - 1) < 2 ^ 32 := Nat.lt_of_le_of_lt foldl_min_le.1 (by decide)
    have hmax : l.foldl max 0 < 2 ^ 32 := by
      rcases foldl_choice_mem (f := max) (fun a b => by omega) (l := l) (a := 0) with h | h
      · rw [h]; decide
      · exact hword _ h
    have hlo : reg (monitorLatch s mon) 0x10 = l.foldl min (2 ^ 32 - 1) := (congrArg BitVec.toNat hleast).trans (toNat_w32 hmin)
    have hhi : reg (monitorLatch s mon) 0x14 = l.foldl max 0 := (congrArg BitVec.toNat hmost).trans (toNat_w32 hmax)
    refine ⟨_, rfl, (congrArg BitVec.toNat hcount).trans (toNat_w32 (sat32_lt _)), fun v hv => ?_, fun hne => ?_, fun k hk => ?_, hseq, hstart⟩
    · rw [hlo, hhi]
      exact ⟨foldl_min_le.2 v hv, foldl_max_ge.2 v hv⟩
    · obtain ⟨v, hv⟩ := List.exists_mem_of_ne_nil l hne
      rw [hlo, hhi]
      constructor
      · rcases foldl_choice_mem (f := min) (fun a b => by omega) (l := l) (a := 2 ^ 32 - 1) with h | h
        · have hle := (foldl_min_le (a := 2 ^ 32 - 1)).2 v hv
          have hlt := hword v hv
          have hveq : v = l.foldl min (2 ^ 32 - 1) := by omega
          exact hveq ▸ hv
        · exact h
      · rcases foldl_choice_mem (f := max) (fun a b => by omega) (l := l) (a := 0) with h | h
        · have hle := (foldl_max_ge (a := 0)).2 v hv
          have hveq : v = l.foldl max 0 := by omega
          exact hveq ▸ hv
        · exact h
    · have hk' : (latched l).2.2.2.getD k 0 = sat32 (l.filter fun v => binOf v == k).length := by
        simp [latched, hk]
      have hreg := hbins k hk
      rw [hk', Nat.add_assoc] at hreg
      exact (congrArg BitVec.toNat hreg).trans (toNat_w32 (sat32_lt _))
  · exact fun h => congrArg Host.Outcome.next (powerLoop_early h)
  · intro hat
    refine ⟨_, rfl, powerLoop_powerAt hat watts, fun h => ?_, fun h h' => ?_, fun h hc => ?_, fun h hc ht => ?_⟩
    · rw [powerLoop_high hat h]
      exact ⟨rfl, rfl, rfl⟩
    · rw [powerLoop_near hat h h']
      exact ⟨rfl, rfl, rfl⟩
    · rw [powerLoop_cool_first hat h hc]
      exact ⟨rfl, rfl⟩
    · rw [powerLoop_cool_long hat h hc ht]
      exact ⟨rfl, rfl⟩
  · refine ⟨rfl, Nat.min_le_left .., rfl, fun h => ?_⟩
    refine Nat.le_trans (Nat.min_le_right ..) (dieWants_hot ?_ 0)
    exact if_pos h

end

section
/-! The caches' own events (R443 to R462): entries of the directory, leases, sleeping slices, hot lists and the scrubber. -/

namespace Sys2Proof.Machine

variable {s : State} {die slice region size line stack : Nat} {a b d : DirEnt}

/-! Sibling entries of the directory (R443). -/

/-- The entry of a region of a slice. -/
def dirAt (s : State) (die slice size base : Nat) : Option DirEnt :=
  s.dir.find? fun d => d.die == die && d.slice == slice && d.base == base && d.size == size

theorem dirAt_size (h : dirAt s die slice size region = some d) : d.size = size := by
  have hd := List.find?_some h
  simp only [Bool.and_eq_true, beq_iff_eq] at hd
  exact hd.2

/-- Two entries give way to one of twice the size, which keeps what `d` says. -/
def mergeDir (s : State) (region size : Nat) (a b d : DirEnt) : State :=
  { s with dir := { d with base := region, size := 2 * size, changed := s.time } :: s.dir.filter fun e => !(e == a) && !(e == b) }

section
variable (ha : dirAt s die slice size region = some a) (hb : dirAt s die slice size (region + size) = some b) (hpos : 0 < size)
include ha hb

theorem mergeDir_merged (hpos : 0 < size) (d : DirEnt) :
    (∃ e ∈ (mergeDir s region size a b d).dir, e = { d with base := region, size := 2 * size, changed := s.time }) ∧
      a ∉ (mergeDir s region size a b d).dir ∧ b ∉ (mergeDir s region size a b d).dir := by
  have hnew : ∀ e : DirEnt, e.size = size → e ≠ { d with base := region, size := 2 * size, changed := s.time } := by
    intro e he heq
    have hsz : e.size = 2 * size := congrArg DirEnt.size heq
    omega
  refine ⟨⟨_, List.mem_cons_self, rfl⟩, fun h => ?_, fun h => ?_⟩
  · rcases List.mem_cons.mp h with heq | hmem
    · exact hnew a (dirAt_size ha) heq
    · simpa using (List.mem_filter.mp hmem).2
  · rcases List.mem_cons.mp h with heq | hmem
    · exact hnew b (dirAt_size hb) heq
    · simpa using (List.mem_filter.mp hmem).2

theorem directoryMerge_eq (hpos : 0 < size) (hmax : 2 * size ≤ 512) (hal : region % (2 * size) = 0) :
    directoryMerge s die slice region size =
      if (decide (a.changed + 100000 ≤ s.time) && decide (b.changed + 100000 ≤ s.time) &&
          (a.state == b.state && a.sharers == b.sharers && a.owner == b.owner)) = true then mergeDir s region size a b a
      else if (!entryHeld s a) = true then mergeDir s region size a b b
      else if (!entryHeld s b) = true then mergeDir s region size a b a else s := by
  unfold dirAt at ha hb
  simp only [directoryMerge, ha, hb]
  exact if_neg (by simp [hpos, hmax, hal])

end

/-! Leases and sleeping slices. -/

theorem mem_dropLines {gone : CLine → Bool} {c : CLine} : c ∈ (dropLines s gone).lines ↔ c ∈ s.lines ∧ gone c = false := by
  rw [dropLines_lines, List.mem_filter]
  simp

theorem leasedIn_iff {c : CLine} : leasedIn die slice c = true ↔ c.die = die ∧ l2Slice c.line = slice ∧ c.stamp.isSome = true := by
  simp [leasedIn, and_assoc]

theorem stale_iff {c : CLine} {now : Nat} : c.stale now = true ↔ ∃ x, c.stamp = some x ∧ stampValid x now = false := by
  unfold CLine.stale
  cases c.stamp with
  | none => exact ⟨fun h => absurd h Bool.false_ne_true, fun ⟨_, hx, _⟩ => absurd hx (by simp)⟩
  | some x =>
    rw [Option.map_some, Option.getD_some, Bool.not_eq_true']
    exact ⟨fun h => ⟨x, rfl, h⟩, fun ⟨_, hy, h⟩ => Option.some.inj hy ▸ h⟩

theorem mem_dropInvalid {c : CLine} : c ∈ (dropInvalid s die slice).lines ↔ c ∈ s.lines ∧
    ¬ ((c.die = die ∧ l2Slice c.line = slice ∧ c.stamp.isSome = true) ∧ ∃ x, c.stamp = some x ∧ stampValid x s.time = false) := by
  unfold dropInvalid
  rw [mem_dropLines, ← leasedIn_iff, ← stale_iff, ← Bool.and_eq_true, Bool.not_eq_true]

/-- A key set to a value that an unlisted key does not read as is listed. -/
theorem smSet_listed {α : Type} [DecidableEq α] {d v : α} (h : v ≠ d) (n : Nat) : ∀ m : SMap α, ∃ p ∈ smSet d m n v, p.1 = n
  | [] => ⟨(n, v), by simp [smSet, smEntry, h], rfl⟩
  | (k, w) :: m => by
    rw [smSet]
    split
    · exact ⟨(n, v), by simp [smEntry, h], rfl⟩
    · obtain ⟨p, hp, hn⟩ := smSet_listed h n m
      exact ⟨p, List.mem_cons_of_mem _ hp, hn⟩

theorem foldl_barCount_lines (off : Nat) (l : List Nat) : ∀ s : State, (l.foldl (fun s _ => barCount s off) s).lines = s.lines := by
  induction l with
  | nil => exact fun _ => rfl
  | cons _ l ih => exact fun s => (ih _).trans (barCount_lines s off)

/-! Hot lists (R456). -/

theorem smGet_filter {α : Type} (d : α) (keep : Nat → Bool) (m : SMap α) (n : Nat) :
    smGet d (m.filter fun p => keep p.1) n = if keep n = true then smGet d m n else d := by
  induction m with
  | nil => simp
  | cons p m ih =>
    obtain ⟨k, v⟩ := p
    by_cases hk : keep k = true
    · rw [List.filter_cons_of_pos (by exact hk), smGet, ih, smGet]
      by_cases hn : n = k
      · rw [if_pos hn, if_pos hn, hn, if_pos hk]
      · rw [if_neg hn, if_neg hn]
    · rw [List.filter_cons_of_neg (by exact hk), ih, smGet]
      by_cases hn : n = k
      · rw [hn, if_neg hk, if_neg hk]
      · rw [if_neg hn]

theorem smGet_smDrop {α : Type} (d : α) (m : SMap α) {lo hi n : Nat} (h : lo ≤ n ∧ n < hi) : smGet d (smDrop m lo hi) n = d := by
  unfold smDrop
  rw [smGet_filter d (fun k => decide (k < lo) || decide (hi ≤ k)) m n, if_neg (by simp; omega)]

theorem OnlyMem.time {s t : State} (h : OnlyMem s t) : t.time = s.time := by rw [h.frame]

/-! The scrubber (R462). -/

/-- Only what DRAM and the memory-side cache hold as poisoned, and counters, have changed. -/
def OnlyScrubbed (s t : State) : Prop := t = { s with mpoison := t.mpoison, msc := t.msc, bar0 := t.bar0 }

theorem OnlyScrubbed.refl (s : State) : OnlyScrubbed s s := rfl

theorem OnlyScrubbed.trans {s t u : State} (h : OnlyScrubbed s t) (k : OnlyScrubbed t u) : OnlyScrubbed s u := by
  unfold OnlyScrubbed at *
  rw [k, h]

theorem dramPoison_rest (s : State) (line : Nat) : OnlyScrubbed s (dramPoison s line) ∧ (dramPoison s line).bar0 = s.bar0 := by
  unfold dramPoison
  extract_lets held
  split
  · exact ⟨rfl, rfl⟩
  · exact ⟨rfl, rfl⟩

theorem foldl_dramPoison_rest (l : List Nat) :
    ∀ s : State, OnlyScrubbed s (l.foldl dramPoison s) ∧ (l.foldl dramPoison s).bar0 = s.bar0 := by
  induction l with
  | nil => exact fun s => ⟨.refl s, rfl⟩
  | cons x l ih =>
    intro s
    obtain ⟨h, hb⟩ := dramPoison_rest s x
    obtain ⟨hl, hbl⟩ := ih (dramPoison s x)
    exact ⟨h.trans hl, hbl.trans hb⟩

theorem barCount_rest (s : State) (off : Nat) : OnlyScrubbed s (barCount s off) ∧ (barCount s off).mpoison = s.mpoison ∧
    (barCount s off).msc = s.msc := by
  unfold barCount
  extract_lets v
  split
  · exact ⟨rfl, rfl, rfl⟩
  · exact ⟨rfl, rfl, rfl⟩

/-- An error of a unit that no test has begun on begins one. -/
theorem OnlyScrubbed.detectError_new {s t : State} {r : ErrorReport} (h : OnlyScrubbed s t)
    (hnone : ∀ x ∈ s.tests, ¬ (x.rep.cls = r.cls ∧ x.rep.unit = r.unit)) : ⟨r, s.time, 1⟩ ∈ (detectError t r).tests := by
  have htests : t.tests = s.tests := by rw [h]
  have htime : t.time = s.time := by rw [h]
  rw [detectError_tests_new (by rw [htests]; exact hnone), htime]
  exact List.mem_append_right _ (List.mem_singleton_self _)

theorem bar_detectError (s : State) (r : ErrorReport) (off : Nat) : bar (detectError s r) off = bar s off := by
  rw [detectError_rest]
  rfl

/-- A line held is poisoned under its copy, one not held in DRAM. -/
def Poisoned (s : State) (line : Nat) : Prop :=
  (∃ l ∈ s.msc, l.line = line ∧ l.under = true) ∨ ((∀ l ∈ s.msc, l.line ≠ line) ∧ line ∈ s.mpoison)

theorem dramPoison_held {x : Nat} : (∃ l ∈ (dramPoison s x).msc, l.line = line) ↔ ∃ l ∈ s.msc, l.line = line := by
  unfold dramPoison
  extract_lets held
  split
  · constructor
    · rintro ⟨l, hl, heq⟩
      obtain ⟨l0, hl0, rfl⟩ := List.mem_map.mp hl
      refine ⟨l0, hl0, ?_⟩
      split at heq <;> exact heq
    · rintro ⟨l, hl, heq⟩
      exact ⟨_, List.mem_map_of_mem hl, by split <;> exact heq⟩
  · rfl

theorem dramPoison_poisons (s : State) (line : Nat) : Poisoned (dramPoison s line) line := by
  by_cases h : (s.msc.any fun l => l.line == line) = true
  · have hrun : dramPoison s line = { s with msc := s.msc.map fun l => if (l.line == line) = true then { l with under := true } else l } :=
      if_pos h
    obtain ⟨l, hl, heq⟩ := List.any_eq_true.mp h
    rw [hrun]
    refine .inl ⟨_, List.mem_map_of_mem hl, ?_⟩
    rw [if_pos heq]
    exact ⟨beq_iff_eq.mp heq, rfl⟩
  · have hno : ∀ l ∈ s.msc, l.line ≠ line := by simpa [List.any_eq_true] using h
    rw [show dramPoison s line = setMPoison s line true from if_neg h]
    exact .inr ⟨hno, List.mem_cons_self⟩

theorem dramPoison_keeps {x : Nat} (h : Poisoned s line) : Poisoned (dramPoison s x) line := by
  unfold dramPoison
  extract_lets held
  split
  · rcases h with ⟨l, hl, heq, hu⟩ | ⟨hno, hmem⟩
    · refine .inl ⟨_, List.mem_map_of_mem hl, ?_⟩
      split
      · exact ⟨heq, rfl⟩
      · exact ⟨heq, hu⟩
    · refine .inr ⟨fun l hl heq => ?_, hmem⟩
      obtain ⟨l0, hl0, rfl⟩ := List.mem_map.mp hl
      refine hno l0 hl0 ?_
      split at heq <;> exact heq
  · rcases h with h | ⟨hno, hmem⟩
    · exact .inl h
    · refine .inr ⟨hno, ?_⟩
      change line ∈ x :: _
      by_cases heq : line = x
      · rw [heq]; exact List.mem_cons_self
      · exact List.mem_cons_of_mem _ (List.mem_filter.mpr ⟨hmem, by simpa using heq⟩)

theorem foldl_dramPoison_keeps (l : List Nat) : ∀ {s : State}, Poisoned s line → Poisoned (l.foldl dramPoison s) line := by
  induction l with
  | nil => exact fun h => h
  | cons x l ih => exact fun h => ih (dramPoison_keeps h)

theorem foldl_dramPoison_poisons {l : List Nat} (h : line ∈ l) : ∀ s : State, Poisoned (l.foldl dramPoison s) line := by
  induction l with
  | nil => exact absurd h List.not_mem_nil
  | cons x l ih =>
    intro s
    rcases List.mem_cons.mp h with rfl | h
    · exact foldl_dramPoison_keeps l (dramPoison_poisons s line)
    · exact ih h _

theorem foldl_dramPoison_held (l : List Nat) : ∀ {s : State}, (∃ k ∈ (l.foldl dramPoison s).msc, k.line = line) ↔ ∃ k ∈ s.msc, k.line = line := by
  induction l with
  | nil => exact Iff.rfl
  | cons x l ih => exact ih.trans dramPoison_held

theorem mem_poisonUnitLines (s : State) (line : Nat) : line ∈ poisonUnitLines s line := by
  unfold poisonUnitLines
  split
  · exact List.mem_map.mpr ⟨line % 8, List.mem_range.mpr (Nat.mod_lt _ (by decide)), by omega⟩
  · exact List.mem_singleton_self line

theorem bar_barCount {off : Nat} (h : (bar s off).toNat < 2 ^ 32 - 1) : bar (barCount s off) off = bar s off + 1 := by
  have hgo : barCount s off = setBar s off (w32 ((bar s off).toNat + 1)) := if_neg (Nat.ne_of_lt h)
  rw [hgo, bar_setBar_same]
  apply BitVec.eq_of_toNat_eq
  rw [BitVec.toNat_add, w32, BitVec.toNat_ofNat]
  rfl

end Sys2Proof.Machine

open Sys2Proof Sys2Proof.Machine

/-- Settles O51: each event of the caches is read off the lines, entries and registers that it changes. -/
theorem cacheEvents : Obligations.CacheEvents := by
  unfold Obligations.CacheEvents
  intro s die slice region size line stack a b at_ siblings old alike merged leased dead base home may counted held tested
  refine ⟨?_, ?_, ?_, ⟨_, rfl, ?_⟩, ?_, ?_, ?_, ?_, ?_, ?_, ?_⟩
  · rintro ⟨ha, hb, hpos, hmax, hal⟩ hao hbo ⟨hst, hsh, how⟩
    have hrun : directoryMerge s die slice region size = mergeDir s region size a b a := by
      have hao' : a.changed + 100000 ≤ s.time := hao
      have hbo' : b.changed + 100000 ≤ s.time := hbo
      rw [directoryMerge_eq ha hb hpos hmax hal, if_pos (by simp [hao', hbo', hst, hsh, how])]
    exact ⟨_, congrArg Host.Outcome.next hrun, mergeDir_merged ha hb hpos a⟩
  · rintro ⟨ha, hb, hpos, hmax, hal⟩ hna hheld
    have hrun : directoryMerge s die slice region size = mergeDir s region size a b b := by
      rw [directoryMerge_eq ha hb hpos hmax hal, if_neg ?_, if_pos (by rw [hheld]; rfl)]
      intro h
      simp only [Bool.and_eq_true, beq_iff_eq] at h
      exact hna ⟨h.2.1.1, h.2.1.2, h.2.2⟩
    exact ⟨_, congrArg Host.Outcome.next hrun, mergeDir_merged ha hb hpos b⟩
  · rintro ⟨ha, hb, hpos, hmax, hal⟩ hna hha hhb
    refine congrArg Host.Outcome.next ?_
    rw [directoryMerge_eq ha hb hpos hmax hal, if_neg ?_, if_neg (by rw [hha]; decide), if_neg (by rw [hhb]; decide)]
    intro h
    simp only [Bool.and_eq_true, beq_iff_eq] at h
    exact hna ⟨h.2.1.1, h.2.1.2, h.2.2⟩
  · intro g
    change g ∈ List.filter _ _ ↔ _
    rw [List.mem_filter, Bool.not_eq_true', Bool.and_eq_false_iff, beq_eq_false_iff_ne, decide_eq_false_iff_not, not_and_or]
  · exact fun h => ⟨_, congrArg Host.Outcome.next (if_neg (by rw [h]; decide)), fun c => mem_dropInvalid⟩
  · rintro hawake ⟨hdie, hslice, hon⟩
    have hrun : sliceSleep s die slice =
        { dropInvalid s die slice with asleep := smSet 0 s.asleep (sliceKey die slice) (s.time + 1) } := by
      refine if_neg ?_
      have h1 : ¬ 2 ≤ die := by omega
      have h2 : ¬ 64 ≤ slice := by omega
      rw [hawake, hon]
      simp [h1, h2]
    refine ⟨_, congrArg Host.Outcome.next hrun, ?_, fun c => mem_dropInvalid⟩
    obtain ⟨p, hp, hkey⟩ := smSet_listed (d := 0) (Nat.succ_ne_zero s.time) (sliceKey die slice) s.asleep
    exact List.any_eq_true.mpr ⟨p, hp, by rw [hkey]; exact beq_self_eq_true _⟩
  · intro hmay
    refine congrArg Host.Outcome.next (if_pos ?_)
    by_contra hno
    simp only [Bool.or_eq_true, decide_eq_true_eq, not_or, Bool.not_eq_true', Bool.not_eq_false] at hno
    exact hmay ⟨by omega, by omega, hno.2⟩
  · intro hasleep slept
    have hlong : overslept s die slice = decide (33554432 ≤ slept) := by
      rw [overslept, hasleep]
      rfl
    refine ⟨fun h => ?_, fun h => ?_⟩
    · have hshort : overslept s die slice = false := hlong.trans (decide_eq_false (by omega))
      exact ⟨_, congrArg Host.Outcome.next (wakeSlice_of_short hasleep hshort), rfl⟩
    · have hover : overslept s die slice = true := hlong.trans (decide_eq_true h)
      refine ⟨_, congrArg Host.Outcome.next (wakeSlice_of_overslept hover), fun c => ?_⟩
      rw [foldl_barCount_lines, mem_dropLines, ← Bool.not_eq_true, leasedIn_iff]
  · exact fun h => congrArg Host.Outcome.next (if_pos h)
  · intro hs hend
    refine ⟨_, rfl, ?_⟩
    change (∀ c ∈ (hotListPublish s stack).cands, _) ∧ _
    have hgo : ¬ (8 ≤ stack ∨ s.time < hotListEnd s stack) := by omega
    unfold hotListPublish
    rw [if_neg hgo]
    extract_lets at_ mine seq s1 s2 s3
    have h12 : OnlyMem s s2 := (paWrite_onlyMem ..).trans (paWrite_onlyMem ..)
    have hwritten : s2.time = s.time := h12.time
    have htime : s3.time = s.time := by
      change (if _ then _ else _ : State).time = _
      split
      · rfl
      · exact hwritten
    have hbar : bar s3 (mscBase stack + 0xC) = if bar64 s (mscBase stack) = 0 then bar s (mscBase stack + 0xC)
        else bar s (mscBase stack + 0xC) + 1 := by
      change bar (if _ then _ else _) _ = _
      split
      · rfl
      · rw [bar_setBar_same]
        apply BitVec.eq_of_toNat_eq
        rw [BitVec.toNat_add, w32, BitVec.toNat_ofNat]
        rfl
    refine ⟨fun c hc => ?_, ?_, fun k hlo hhi => ?_, hbar⟩
    · simpa using (List.mem_filter.mp hc).2
    · exact (smGet_smSet_self ..).trans htime
    · exact smGet_smDrop 0 _ ⟨by omega, by omega⟩
  · intro hline
    have hin : ¬ Config.moduleBytes ≤ 128 * line := Nat.not_le.mpr hline
    have hrun : ∀ found, exec (.scrub line found) s = .next (scrub s line found) := fun _ => rfl
    have hclean : scrub s line .clean = s := if_neg hin
    have hcor : scrub s line .corrected =
        detectError (barCount s (mscBase home + 0x18)) ⟨2, 0, 0xFF, w64 home, w64 (128 * line), none⟩ := if_neg hin
    have hunc : scrub s line .uncorrectable =
        detectError (barCount ((poisonUnitLines s line).foldl dramPoison s) (mscBase home + 0x14))
          ⟨2, 1, 0xFF, w64 home, w64 (128 * line), none⟩ := if_neg hin
    obtain ⟨hlow, hbar0⟩ := foldl_dramPoison_rest (poisonUnitLines s line) s
    have hpoisoned := foldl_dramPoison_poisons (mem_poisonUnitLines s line) s
    have hheld := foldl_dramPoison_held (line := line) (poisonUnitLines s line) (s := s)
    generalize (poisonUnitLines s line).foldl dramPoison s = u at hunc hlow hbar0 hpoisoned hheld
    have hsame : ∀ off, bar u off = bar s off := fun off => by rw [bar, hbar0]; rfl
    obtain ⟨hrest, hmp, -⟩ := barCount_rest s (mscBase home + 0x18)
    obtain ⟨hrest', hmp', hmsc'⟩ := barCount_rest u (mscBase home + 0x14)
    refine ⟨(hrun _).trans (congrArg _ hclean), ⟨_, (hrun _).trans (congrArg _ hcor), fun h => ?_, ?_, fun hnone => ?_⟩,
      ⟨_, (hrun _).trans (congrArg _ hunc), fun h => ?_, fun hnone => ?_, ?_, ?_⟩⟩
    · exact (bar_detectError ..).trans (bar_barCount h)
    · rw [detectError_rest]
      exact hmp
    · exact ⟨_, hrest.detectError_new hnone, rfl, rfl, rfl, rfl, rfl⟩
    · refine (bar_detectError ..).trans ((bar_barCount (by rw [hsame]; exact h)).trans ?_)
      rw [hsame]
    · exact ⟨_, (hlow.trans hrest').detectError_new hnone, rfl, rfl, rfl, rfl, rfl⟩
    · intro h
      rw [detectError_rest]
      change ∃ l ∈ (barCount u _).msc, _
      rw [hmsc']
      rcases hpoisoned with hp | ⟨hno, -⟩
      · exact hp
      · obtain ⟨l, hl, heq⟩ := hheld.mpr h
        exact absurd heq (hno l hl)
    · intro h
      rw [detectError_rest]
      change line ∈ (barCount u _).mpoison
      rw [hmp']
      rcases hpoisoned with ⟨l, hl, heq, -⟩ | ⟨-, hp⟩
      · exact absurd (hheld.mp ⟨l, hl, heq⟩) h
      · exact hp

end

section
/-! What memory reads as: the bytes of a line, and of a line at its home, after each of the moves that write or shift lines (R229, R441,
R495). -/

namespace Sys2Proof.Machine

/-! The bytes of a line. -/

theorem lineByte_getLsbD (d : LineData) (i k : Nat) : (lineByte d i).getLsbD k = (decide (k < 8) && d.getLsbD (8 * i + k)) :=
  BitVec.getLsbD_extractLsb' ..

theorem lineByte_ext {d d' : LineData} (h : ∀ i, i < 128 → lineByte d i = lineByte d' i) : d = d' := by
  apply BitVec.eq_of_getLsbD_eq
  intro j hj
  have hb := congrArg (fun b : Byte => b.getLsbD (j % 8)) (h (j / 8) (by omega))
  simp only [lineByte_getLsbD] at hb
  have hlt : j % 8 < 8 := Nat.mod_lt _ (by decide)
  have hidx : 8 * (j / 8) + j % 8 = j := by omega
  simpa [hlt, hidx] using hb

theorem byteMask_bit (k : Nat) : (0xFF : LineData).getLsbD k = decide (k < 8) := by
  have h : (0xFF : LineData) = BitVec.ofNat 1024 (2 ^ 8 - 1) := rfl
  rw [h, BitVec.getLsbD_ofNat, Nat.testBit_two_pow_sub_one]
  by_cases hk : k < 8
  · have h1024 : k < 1024 := by omega
    simp [hk, h1024]
  · simp [hk]

theorem lineByte_setLineByte (d : LineData) {i j : Nat} (b : Byte) (hi : i < 128) (hj : j < 128) :
    lineByte (setLineByte d i b) j = if j = i then b else lineByte d j := by
  apply BitVec.eq_of_getLsbD_eq
  intro k hk
  have h1024 : 8 * j + k < 1024 := by omega
  rw [lineByte_getLsbD, setLineByte, BitVec.getLsbD_or, BitVec.getLsbD_and, BitVec.getLsbD_not, BitVec.getLsbD_shiftLeft,
    BitVec.getLsbD_shiftLeft, byteMask_bit, BitVec.zeroExtend, BitVec.getLsbD_setWidth]
  by_cases hij : j = i
  · subst hij
    have hsub : 8 * j + k - 8 * j = k := by omega
    have h10 : k < 1024 := by omega
    simp [hk, h1024, hsub, h10]
  · rw [if_neg hij, lineByte_getLsbD]
    by_cases hlt : j < i
    · have hlow : 8 * j + k < 8 * i := by omega
      simp [hk, h1024, hlow]
    · have hge : ¬ 8 * j + k < 8 * i := by omega
      have h8 : ¬ 8 * j + k - 8 * i < 8 := by omega
      have hb : b.getLsbD (8 * j + k - 8 * i) = false := b.getLsbD_of_ge _ (by omega)
      simp [hk, h1024, hge, h8, hb]

theorem leNat_testBit (l : List Byte) : ∀ k, (leNat l).testBit k = (l.getD (k / 8) 0).getLsbD (k % 8) := by
  induction l with
  | nil => intro k; simp [leNat]
  | cons b l ih =>
    intro k
    have hform : leNat (b :: l) = 2 ^ 8 * leNat l + b.toNat := by rw [leNat]; omega
    rw [hform, Nat.testBit_two_pow_mul_add _ b.isLt]
    by_cases hk : k < 8
    · have hdiv : k / 8 = 0 := by omega
      have hmod : k % 8 = k := by omega
      rw [if_pos hk, hdiv, hmod]
      rfl
    · have hdiv : k / 8 = (k - 8) / 8 + 1 := by omega
      have hmod : k % 8 = (k - 8) % 8 := by omega
      rw [if_neg hk, ih, hdiv, hmod]
      rfl

theorem lineByte_spliceLine (d : LineData) {o : Nat} {l : List Byte} {j : Nat} (hj : j < 128) :
    lineByte (spliceLine d o l) j = if o ≤ j ∧ j < o + l.length then l.getD (j - o) 0 else lineByte d j := by
  apply BitVec.eq_of_getLsbD_eq
  intro k hk
  have h1024 : 8 * j + k < 1024 := by omega
  have hbits : (lineByte (spliceLine d o l) j).getLsbD k =
      ((d.getLsbD (8 * j + k) && !(decide (8 * o ≤ 8 * j + k) && decide (8 * j + k - 8 * o < 8 * l.length))) ||
        (decide (8 * o ≤ 8 * j + k) && (l.getD ((8 * j + k - 8 * o) / 8) 0).getLsbD ((8 * j + k - 8 * o) % 8))) := by
    rw [lineByte_getLsbD]
    simp only [spliceLine]
    rw [BitVec.getLsbD_or, BitVec.getLsbD_and, BitVec.getLsbD_not, BitVec.getLsbD_ofNat, BitVec.getLsbD_ofNat,
      Nat.testBit_mul_two_pow, Nat.testBit_mul_two_pow, Nat.testBit_two_pow_sub_one, leNat_testBit]
    simp [hk, h1024]
  rw [hbits]
  by_cases hin : o ≤ j ∧ j < o + l.length
  · have hge : 8 * o ≤ 8 * j + k := by omega
    have hlt : 8 * j + k - 8 * o < 8 * l.length := by omega
    have hdiv : (8 * j + k - 8 * o) / 8 = j - o := by omega
    have hmod : (8 * j + k - 8 * o) % 8 = k := by omega
    rw [if_pos hin, hdiv, hmod]
    simp [hge, hlt]
  · rw [if_neg hin, lineByte_getLsbD]
    by_cases hge : 8 * o ≤ 8 * j + k
    · have hge' : ¬ 8 * j + k - 8 * o < 8 * l.length := by omega
      have hnone : l.getD ((8 * j + k - 8 * o) / 8) 0 = 0 := by
        rw [List.getD_eq_getElem?_getD, List.getElem?_eq_none (by omega)]
        rfl
      rw [hnone]
      simp [hk, hge']
    · simp [hk, hge]

theorem lineByte_rawLine (m : Memory) (line : Nat) {i : Nat} (hi : i < 128) : lineByte (rawLine m line) i = byteAt m (128 * line + i) := by
  unfold rawLine
  induction m with
  | nil =>
    apply BitVec.eq_of_getLsbD_eq
    intro k _
    rw [lineByte_getLsbD]
    simp [byteAt, smGet]
  | cons c m ih =>
    rw [List.foldr_cons, byteAt, smGet]
    by_cases hl : c.1 / 128 = line
    · rw [if_pos hl, lineByte_setLineByte _ _ (Nat.mod_lt _ (by decide)) hi, ih]
      by_cases hc : 128 * line + i = c.1
      · rw [if_pos (by omega), if_pos hc]
      · rw [if_neg (by omega), if_neg hc]
        rfl
    · rw [if_neg hl, ih, if_neg (by omega)]
      rfl

theorem lineBytes_length (d : LineData) (o n : Nat) : (lineBytes d o n).length = n := by simp [lineBytes]

theorem lineBytes_getD (d : LineData) (o : Nat) {n k : Nat} (hk : k < n) : (lineBytes d o n).getD k 0 = lineByte d (o + k) := by
  simp [lineBytes, hk]

theorem rawLine_putLine (m : Memory) (line line' : Nat) (d : LineData) :
    rawLine (putLine m line d) line' = if line' = line then d else rawLine m line' := by
  apply lineByte_ext
  intro i hi
  rw [lineByte_rawLine _ _ hi, putLine, byteAt_setBytes, lineBytes_length]
  by_cases h : line' = line
  · have hidx : 128 * line' + i - 128 * line = i := by omega
    rw [if_pos (by omega), if_pos h, hidx, lineBytes_getD _ _ hi, Nat.zero_add]
  · rw [if_neg (by omega), if_neg h, lineByte_rawLine _ _ hi]

theorem homeBytes_one (s : State) (p : Phys) : memByte s p = lineByte (homeLine s p).1 (p.loc % 128) := rfl

theorem homeBytes_eq {s t : State} {p q : Phys} {n : Nat} (h : ∀ i, i < n → lineByte (homeLine t q).1 (q.loc % 128 + i) =
    lineByte (homeLine s p).1 (p.loc % 128 + i)) : homeBytes t q n = homeBytes s p n :=
  List.map_congr_left fun i hi => h i (List.mem_range.mp hi)

/-! What a line reads as at its home. -/

variable {s t u : State} {p q : Phys} {line : Nat}

/-- Memory, its keys and the lines of the slices are as they were. -/
structure SameHomes (s t : State) : Prop where
  mem : t.mem = s.mem
  keys : t.keys = s.keys
  lineKey : t.lineKey = s.lineKey
  lines : t.lines = s.lines

theorem SameHomes.refl (s : State) : SameHomes s s := ⟨rfl, rfl, rfl, rfl⟩

theorem SameHomes.trans (h : SameHomes s t) (k : SameHomes t u) : SameHomes s u :=
  ⟨k.mem.trans h.mem, k.keys.trans h.keys, k.lineKey.trans h.lineKey, k.lines.trans h.lines⟩

theorem memLine_congr (hm : rawLine t.mem q.line = rawLine s.mem q.line) (hk : t.keys = s.keys)
    (hl : smGet 0 t.lineKey q.line = smGet 0 s.lineKey q.line) : memLine t q = memLine s q := by
  have hg : keyGenOf t q.key = keyGenOf s q.key := by unfold keyGenOf; rw [hk]
  simp only [memLine, hm, hg, hl]

theorem homeCopy?_congr (h : t.lines = s.lines) (line : Nat) : homeCopy? t line = homeCopy? s line := by
  unfold homeCopy?
  rw [h]

/-- The value at a place: of the home's copy where it is an own one that is held, else of memory. -/
theorem value_congr (hc : q.kind = .own → (homeCopy? t q.line).map CLine.data = (homeCopy? s q.line).map CLine.data)
    (hm : memLine t q = memLine s q) : (homeLine t q).1 = (homeLine s q).1 := by
  unfold homeLine
  cases hk : q.kind with
  | own =>
    have hcopy := hc hk
    cases ht : homeCopy? t q.line <;> cases hs : homeCopy? s q.line <;> simp [ht, hs, hm] at hcopy ⊢
    exact hcopy
  | host => exact hm
  | pod dev => exact hm

theorem SameHomes.value (h : SameHomes s t) (q : Phys) : (homeLine t q).1 = (homeLine s q).1 :=
  value_congr (fun _ => by rw [homeCopy?_congr h.lines]) (memLine_congr (by rw [h.mem]) h.keys (by rw [h.lineKey]))

theorem OnlyMsc.sameHomes (h : OnlyMsc s t) : SameHomes s t := by
  unfold OnlyMsc at h
  rw [h]
  exact ⟨rfl, rfl, rfl, rfl⟩

theorem mscTouch_sameHomes (s : State) (line ilv ctx : Nat) (write : Bool) : SameHomes s (mscTouch s line ilv ctx write) :=
  (mscTouch_onlyMsc s line ilv ctx write).sameHomes

theorem l1Drop_sameHomes (s : State) (gone : L1Copy → Bool) : SameHomes s (l1Drop s gone) := by
  simp only [l1Drop]
  split
  · exact .refl s
  · exact ⟨rfl, rfl, rfl, rfl⟩

theorem putGrant_sameHomes (s : State) (line expiry : Nat) (remote : Bool) : SameHomes s (putGrant s line expiry remote) := by
  simp only [putGrant]
  split <;> exact ⟨rfl, rfl, rfl, rfl⟩

/-! Fills. -/

theorem value_own_of_copy {c : CLine} (hk : q.kind = .own) (h : homeCopy? s q.line = some c) : homeLine s q = (c.data, c.poison) := by
  simp only [homeLine, hk, h]

theorem value_own_of_none (hk : q.kind = .own) (h : homeCopy? s q.line = none) : (homeLine s q).1 = memLine s q := by
  simp only [homeLine, hk, h]

/-- The copy that a home holds of a line once it has brought it in. -/
theorem fillHome_copy (s : State) (p : Phys) (ctx : Nat) (cache : Cache) (hk : p.kind = .own) :
    ∃ c, homeCopy? (fillHome s p ctx cache) p.line = some c ∧ (c.data, c.poison) = homeLine s p := by
  cases h : homeCopy? s p.line with
  | some c => exact ⟨c, by rw [fillHome_of_some h, h], (value_own_of_copy hk h).symm⟩
  | none =>
    let c : CLine := ⟨locDie p.loc, p.line, memLine s p, false, s.mpoison.contains p.line, none, p.ilv⟩
    have hat : (mscTouch (l2Put s c cache) p.line p.ilv ctx false).lines = placeIn (sameL2 c) c cache s.lines :=
      (mscTouch_sameHomes ..).lines
    refine ⟨c, ?_, by simp only [homeLine, hk, h, c]⟩
    rw [fillHome_of_none h, homeCopy?, hat]
    exact find?_placeIn_of_none h _ _ (by simp [c, locDie_line])

theorem find?_placeIn_of_not {α : Type} {f : α → Bool} {x : α} (same : α → Bool) (cache : Cache) (l : List α) (hx : f x = false) :
    (placeIn same x cache l).find? f = l.find? f := by
  have hbehind : ∀ (n : Nat) (l : List α), (insertBehind same x n l).find? f = l.find? f := by
    intro n l
    induction l generalizing n with
    | nil => simp [insertBehind, hx]
    | cons y l ih =>
      cases n with
      | zero => simp [insertBehind, hx]
      | succ n =>
        rw [insertBehind, List.find?_cons, List.find?_cons, ih]
  unfold placeIn
  split
  · exact hbehind 15 l
  · rw [List.find?_cons, hx]

theorem fillHome_copy_other (s : State) (p : Phys) (ctx : Nat) (cache : Cache) (h : line ≠ p.line) :
    homeCopy? (fillHome s p ctx cache) line = homeCopy? s line := by
  cases hc : homeCopy? s p.line with
  | some c => rw [fillHome_of_some hc]
  | none =>
    rw [fillHome_of_none hc, homeCopy?_congr (mscTouch_sameHomes ..).lines]
    exact find?_placeIn_of_not _ _ _ (by simp [Ne.symm h])

theorem fillHome_memLine (s : State) (p : Phys) (ctx : Nat) (cache : Cache) (q : Phys) :
    memLine (fillHome s p ctx cache) q = memLine s q := by
  cases h : homeCopy? s p.line with
  | some c => rw [fillHome_of_some h]
  | none =>
    rw [fillHome_of_none h]
    have hs := mscTouch_sameHomes (l2Put s ⟨locDie p.loc, p.line, memLine s p, false, s.mpoison.contains p.line, none, p.ilv⟩ cache)
      p.line p.ilv ctx false
    exact (memLine_congr (by rw [hs.mem]) hs.keys (by rw [hs.lineKey])).trans rfl

theorem memLine_same_place (hk : q.kind = p.kind) (hl : q.line = p.line) (hkey : q.key = p.key) : memLine s q = memLine s p := by
  simp only [memLine, hk, hl, hkey]

/-- A fill changes what no place reads as, the places of its line that are reached through another key aside. -/
theorem fillHome_value (s : State) (p : Phys) (ctx : Nat) (cache : Cache) (hk : p.kind = .own)
    (hkey : q.line = p.line → q.key = p.key) : (homeLine (fillHome s p ctx cache) q).1 = (homeLine s q).1 := by
  by_cases hq : q.kind = .own
  · by_cases hl : q.line = p.line
    · obtain ⟨c, hc, hv⟩ := fillHome_copy s p ctx cache hk
      rw [← hl] at hc
      rw [value_own_of_copy hq hc]
      change c.data = _
      have hdata : c.data = (homeLine s p).1 := congrArg Prod.fst hv
      have hsame : (homeLine s q).1 = (homeLine s p).1 := by
        have hm : memLine s q = memLine s p := memLine_same_place (hq.trans hk.symm) hl (hkey hl)
        simp only [homeLine, hq, hk, hl, hm]
      rw [hdata, hsame]
    · exact value_congr (fun _ => by rw [fillHome_copy_other s p ctx cache hl]) (fillHome_memLine ..)
  · exact value_congr (fun h => absurd h hq) (fillHome_memLine ..)

/-! Lines changed where they lie. -/

theorem find?_map_of_keeps {α : Type} {f : α → Bool} {g : α → α} (l : List α) (h : ∀ x ∈ l, f (g x) = f x) :
    (l.map g).find? f = (l.find? f).map g := by
  induction l with
  | nil => rfl
  | cons x l ih =>
    rw [List.map_cons, List.find?_cons, List.find?_cons, h x List.mem_cons_self, ih fun y hy => h y (List.mem_cons_of_mem _ hy)]
    cases f x <;> rfl

/-- The copy a home holds after a change of the copies of a line that keeps their place. -/
theorem homeCopy?_modLine (s : State) (die line : Nat) (f : CLine → CLine)
    (hf : ∀ c, (f c).die = c.die ∧ (f c).line = c.line ∧ (f c).stamp = c.stamp) (l : Nat) :
    homeCopy? (s.modLine die line f) l = (homeCopy? s l).map fun c => if c.die = die ∧ c.line = line then f c else c := by
  refine find?_map_of_keeps _ fun c _ => ?_
  obtain ⟨hdie, hline, hst⟩ := hf c
  split
  · rw [hdie, hline, hst]
  · rfl

/-- The home's own copy of a line. -/
theorem homeCopy?_spec {c : CLine} (h : homeCopy? s line = some c) : c.line = line ∧ c.stamp = none ∧ c.die = locDie (128 * line) := by
  have hc := List.find?_some h
  simp only [Bool.and_eq_true, beq_iff_eq, Option.isNone_iff_eq_none] at hc
  exact ⟨hc.1.1, hc.1.2, hc.2⟩

theorem setLineKey_rest (s : State) (p : Phys) : setLineKey s p = { s with lineKey := (setLineKey s p).lineKey } := by
  unfold setLineKey
  split
  · rfl
  · split <;> rfl

theorem setLineKey_other (s : State) (p : Phys) (h : line ≠ p.line) :
    smGet 0 (setLineKey s p).lineKey line = smGet 0 s.lineKey line := by
  unfold setLineKey
  split
  · rfl
  · split
    · exact smGet_smSet_ne _ _ _ h
    · rfl

/-- Bytes of an own line written at its home: that line, whatever its key, and no other, reads them (R229, R441). -/
theorem homeWrite_own_value (s : State) (p : Phys) (ctx : Nat) (l : List Byte) (poison : Bool) (cache : Cache) (hk : p.kind = .own)
    (hq : q.kind ≠ .own → q.line ≠ p.line) : (homeLine (homeWrite s p ctx l poison cache) q).1 =
      if q.line = p.line then spliceLine (homeLine s p).1 (p.loc % 128) l else (homeLine s q).1 := by
  let f : CLine → CLine := fun c => if c.stamp.isSome then c
    else { c with data := spliceLine c.data (p.loc % 128) l, dirty := true, poison := c.poison || poison }
  have hw : homeWrite s p ctx l poison cache = (setLineKey (fillHome s p ctx cache) p).modLine (locDie p.loc) p.line f := by
    unfold homeWrite
    rw [hk]
  have hf : ∀ c, (f c).die = c.die ∧ (f c).line = c.line ∧ (f c).stamp = c.stamp := by
    intro c
    simp only [f]
    split <;> exact ⟨rfl, rfl, rfl⟩
  have hcopy : ∀ x, homeCopy? (homeWrite s p ctx l poison cache) x =
      (homeCopy? (fillHome s p ctx cache) x).map fun c => if c.die = locDie p.loc ∧ c.line = p.line then f c else c := by
    intro x
    rw [hw, homeCopy?_modLine _ _ _ _ hf, homeCopy?_congr (s := fillHome s p ctx cache) (by rw [setLineKey_rest])]
  by_cases hl : q.line = p.line
  · have hqk : q.kind = .own := by
      by_contra hne
      exact hq hne hl
    obtain ⟨c, hc, hv⟩ := fillHome_copy s p ctx cache hk
    obtain ⟨hline, hst, hdie⟩ := homeCopy?_spec hc
    have hcq : homeCopy? (homeWrite s p ctx l poison cache) q.line = some (f c) := by
      rw [hcopy, hl, hc, Option.map_some, if_pos ⟨by rw [hdie, locDie_line], hline⟩]
    have hfc : (f c).data = spliceLine c.data (p.loc % 128) l := by simp [f, hst]
    rw [if_pos hl, value_own_of_copy hqk hcq, hfc, ← hv]
  · rw [if_neg hl]
    refine value_congr (fun _ => ?_) ?_
    · rw [hcopy, fillHome_copy_other s p ctx cache hl]
      cases hc : homeCopy? s q.line with
      | none => rfl
      | some c =>
        have hline : c.line ≠ p.line := fun h => hl ((homeCopy?_spec hc).1.symm.trans h)
        rw [Option.map_some, if_neg fun h => hline h.2]
    · rw [hw]
      have hkeys := setLineKey_rest (fillHome s p ctx cache) p
      refine (memLine_congr (s := fillHome s p ctx cache) ?_ ?_ ?_).trans (fillHome_memLine s p ctx cache q)
      · change rawLine (setLineKey (fillHome s p ctx cache) p).mem q.line = _
        rw [setLineKey_mem]
      · change (setLineKey (fillHome s p ctx cache) p).keys = _
        rw [hkeys]
      · exact setLineKey_other _ p hl

/-- A copy that its home has written back. -/
def cleaned (line : Nat) (c : CLine) (k : CLine) : CLine := if k.die = c.die ∧ k.line = line then { k with dirty := false } else k

theorem writeBack_none (h : homeCopy? s line = none) : writeBack s line = s := by
  unfold writeBack
  rw [h]

theorem writeBack_clean {c : CLine} (h : homeCopy? s line = some c) (hd : c.dirty = false) : writeBack s line = s := by
  unfold writeBack
  simp only [h]
  exact if_neg (by rw [hd]; decide)

/-- A dirty copy is written to memory and stays, clean. -/
theorem writeBack_dirty {c : CLine} (h : homeCopy? s line = some c) (hd : c.dirty = true) :
    (writeBack s line).mem = putLine s.mem line c.data ∧ (writeBack s line).keys = s.keys ∧ (writeBack s line).lineKey = s.lineKey ∧
      (writeBack s line).lines = s.lines.map (cleaned line c) := by
  unfold writeBack
  split
  · next c' hc' =>
    obtain rfl : c' = c := Option.some.inj (hc'.symm.trans h)
    rw [if_pos hd]
    generalize putLine s.mem line c'.data = m
    extract_lets s1 s2 clean s3 s4
    have hsame := mscTouch_sameHomes s4 line c'.ilv 0 true
    have hmem : s4.mem = m := rfl
    have hkeys : s4.keys = s.keys := rfl
    have hkey : s4.lineKey = s.lineKey := rfl
    have hlines : s4.lines = s.lines.map (cleaned line c') := rfl
    clear_value s4
    exact ⟨hsame.mem.trans hmem, hsame.keys.trans hkeys, hsame.lineKey.trans hkey, hsame.lines.trans hlines⟩
  · next hn => exact absurd (hn.symm.trans h) (by simp)

theorem writeBack_copy (s : State) (line l : Nat) : (homeCopy? (writeBack s line) l).map CLine.data = (homeCopy? s l).map CLine.data := by
  cases hc : homeCopy? s line with
  | none => rw [writeBack_none hc]
  | some c =>
    cases hd : c.dirty with
    | false => rw [writeBack_clean hc hd]
    | true =>
      obtain ⟨-, -, -, hlines⟩ := writeBack_dirty hc hd
      have hmap : homeCopy? (writeBack s line) l = (homeCopy? s l).map (cleaned line c) := by
        rw [homeCopy?, hlines]
        refine find?_map_of_keeps _ fun k _ => ?_
        unfold cleaned
        split <;> rfl
      rw [hmap, Option.map_map]
      refine Option.map_congr fun k _ => ?_
      simp only [Function.comp, cleaned]
      split <;> rfl

/-- A write-back changes what no place reads as. -/
theorem writeBack_value (s : State) (line : Nat) (hq : q.kind ≠ .own → q.line ≠ line) :
    (homeLine (writeBack s line) q).1 = (homeLine s q).1 := by
  cases hc : homeCopy? s line with
  | none => rw [writeBack_none hc]
  | some c =>
    cases hd : c.dirty with
    | false => rw [writeBack_clean hc hd]
    | true =>
      obtain ⟨hmem, hkeys, hkey, -⟩ := writeBack_dirty hc hd
      by_cases hl : q.line = line
      · have hk : q.kind = .own := by
          by_contra hne
          exact hq hne hl
        have hcopy := writeBack_copy s line line
        rw [hc] at hcopy
        obtain ⟨k, hk', hdata⟩ := Option.map_eq_some_iff.mp hcopy
        rw [← hl] at hk' hc
        rw [← hl, value_own_of_copy hk hk', value_own_of_copy hk hc]
        exact hdata
      · refine value_congr (fun _ => writeBack_copy s line q.line) (memLine_congr ?_ hkeys (by rw [hkey]))
        rw [hmem, rawLine_putLine, if_neg hl]

theorem foldl_writeBack_value (l : List Nat) : ∀ s : State, (q.kind ≠ .own → q.line ∉ l) →
    (homeLine (l.foldl writeBack s) q).1 = (homeLine s q).1 := by
  induction l with
  | nil => exact fun _ _ => rfl
  | cons x l ih =>
    intro s hq
    refine (ih _ fun hk h => hq hk (List.mem_cons_of_mem _ h)).trans (writeBack_value s x fun hk h => hq hk ?_)
    rw [h]
    exact List.mem_cons_self

/-- Homes that answer for written lines change what no place reads as. -/
theorem answered_value (s : State) (lines : List Nat) (g : Nat) (hq : q.kind ≠ .own → q.line ∉ lines) :
    (homeLine (answered s lines g).2 q).1 = (homeLine s q).1 :=
  ((SameHomes.value (s := lines.foldl writeBack s) ⟨rfl, rfl, rfl, rfl⟩ q)).trans (foldl_writeBack_value lines s hq)

end Sys2Proof.Machine
end

section
/-! The links (R470 to R478): requests of peers served at their homes, ports that go down and come up, and the pod's meridian. -/

namespace Sys2Proof.Machine

variable {s t : State} {i port a key ctx : Nat} {n : NetIn} {addr : W64} {op : AtomOp} {data : List Byte}

/-! Counters, and what the moves of memory leave. -/

theorem OnlyMem.bar0 (h : OnlyMem s t) : t.bar0 = s.bar0 := by rw [h.frame]
theorem OnlyMem.inNet (h : OnlyMem s t) : t.inNet = s.inNet := by rw [h.frame]
theorem OnlyMem.out (h : OnlyMem s t) : t.out = s.out := by rw [h.frame]
theorem OnlyMem.freeCtr (h : OnlyMem s t) : t.freeCtr = s.freeCtr := by rw [h.frame]

theorem lkDrop_rest (s : State) : (lkDrop s).inNet = s.inNet ∧ (lkDrop s).mem = s.mem ∧ (lkDrop s).lines = s.lines ∧
    (lkDrop s).out = s.out ∧ (lkDrop s).reasm = s.reasm := by
  unfold lkDrop barCount
  extract_lets v
  split
  · exact ⟨rfl, rfl, rfl, rfl, rfl⟩
  · exact ⟨rfl, rfl, rfl, rfl, rfl⟩

/-- A message has gone out. -/
def said (s : State) (o : Out) : State := { s with out := s.out ++ [o] }

/-! Requests of peers (R470, R471). -/

/-- The place in this module's memory that a peer's address names. -/
def peerPlace (addr : W64) (key : Nat) : Phys := ⟨.own, addr.toNat, key, false, 2⟩

theorem podPlace_in (h : addr.toNat < 2 ^ 41) : podPlace addr key = some (peerPlace addr key) := if_pos h

theorem podPlace_out (h : 2 ^ 41 ≤ addr.toNat) : podPlace addr key = none := if_neg (Nat.not_lt.mpr h)

section
variable {kind : Nat} (hi : s.inNet[i]? = some n) (hm : n.msg = .pod addr kind op ctx key data)
include hi hm

theorem podRequest_out (h : 2 ^ 41 ≤ addr.toNat) : podRequest s i = lkDrop { s with inNet := s.inNet.eraseIdx i } := by
  simp only [podRequest, hi, hm, podPlace_out h]

theorem podRequest_unsupported (h : addr.toNat < 2 ^ 41) (hk : 2 < kind) :
    podRequest s i = lkDrop { s with inNet := s.inNet.eraseIdx i, out := s.out ++ [.answer n.port addr kind [] false 0] } := by
  simp only [podRequest, hi, hm, podPlace_in h]
  exact if_pos hk

theorem podRequest_served (h : addr.toNat < 2 ^ 41) (hk : ¬ 2 < kind) :
    podRequest s i = servePod { s with inNet := s.inNet.eraseIdx i } n.port addr (peerPlace addr key) kind op ctx data := by
  simp only [podRequest, hi, hm, podPlace_in h]
  exact if_neg hk

end

/-! A peer's read. -/

/-- The state in which a peer's read is granted its lease. -/
def peerGranted (s : State) (p : Phys) (ctx : Nat) (data : List Byte) : State × Nat :=
  let s := fillHome s p ctx
  let lease := s.time + (if data.isEmpty then 400 else leNat data)
  if grants? s p && !unlocked s then (putGrant s p.line lease true, lease) else (s, 0)

theorem servePod_read (s : State) (port : Nat) (addr : W64) (p : Phys) (op : AtomOp) (ctx : Nat) (data : List Byte) :
    servePod s port addr p 0 op ctx data = said (peerGranted s p ctx data).1
      (.answer port addr 0 (lineBytes (homeLine (fillHome s p ctx) p).1 0 128) (homeLine (fillHome s p ctx) p).2
        (peerGranted s p ctx data).2) := by
  unfold servePod peerGranted
  extract_lets say s1 v lease
  rw [if_pos rfl]
  cases h : (grants? s1 p && !unlocked s1)
  · simp only [Bool.false_eq_true, if_false]
    rfl
  · simp only [if_true]
    rfl

theorem putGrant_rest (s : State) (line expiry : Nat) (remote : Bool) :
    putGrant s line expiry remote = { s with grants := (putGrant s line expiry remote).grants } := by
  unfold putGrant
  split <;> rfl

theorem putGrant_granted (s : State) (line expiry : Nat) :
    ∃ g ∈ (putGrant s line expiry true).grants, g.line = line ∧ expiry ≤ g.expiry ∧ g.remote = true := by
  unfold putGrant
  split
  · next g hg =>
    have hmem := List.mem_of_find?_eq_some hg
    have hline : g.line = line := by simpa using List.find?_some hg
    refine ⟨_, List.mem_map_of_mem hmem, ?_⟩
    rw [if_pos rfl]
    exact ⟨hline, Nat.le_max_right .., Bool.or_true _⟩
  · exact ⟨_, List.mem_append_right _ (List.mem_singleton_self _), rfl, Nat.le_refl _, rfl⟩

theorem peerGranted_frame (s : State) (p : Phys) (ctx : Nat) (data : List Byte) :
    (peerGranted s p ctx data).1.bar0 = s.bar0 ∧ (peerGranted s p ctx data).1.inNet = s.inNet ∧ (peerGranted s p ctx data).1.out = s.out ∧
      SameHomes (fillHome s p ctx) (peerGranted s p ctx data).1 := by
  have hfill := fillHome_onlyMem s p ctx .normal
  unfold peerGranted
  extract_lets s1 lease
  have h1 : s1.bar0 = s.bar0 ∧ s1.inNet = s.inNet ∧ s1.out = s.out := ⟨hfill.bar0, hfill.inNet, hfill.out⟩
  split
  · have hg := putGrant_rest s1 p.line lease true
    refine ⟨?_, ?_, ?_, putGrant_sameHomes ..⟩
    · exact (congrArg State.bar0 hg).trans h1.1
    · exact (congrArg State.inNet hg).trans h1.2.1
    · exact (congrArg State.out hg).trans h1.2.2
  · exact ⟨h1.1, h1.2.1, h1.2.2, .refl _⟩

theorem peerGranted_grant (p : Phys) (ctx : Nat) (data : List Byte) (hg : grants? s p = true) (hu : unlocked s = false) :
    ∃ g ∈ (peerGranted s p ctx data).1.grants, g.line = p.line ∧ s.time + (if data = [] then 400 else leNat data) ≤ g.expiry ∧
      g.remote = true := by
  unfold peerGranted
  extract_lets s1 lease
  have hg1 : grants? s1 p = true := (fillHome_grants? s p ctx .normal).trans hg
  have hu1 : unlocked s1 = false := by
    refine Eq.trans ?_ hu
    unfold unlocked bar
    rw [show s1.bar0 = s.bar0 from (fillHome_onlyMem s p ctx .normal).bar0]
  have hlease : lease = s.time + (if data = [] then 400 else leNat data) := by
    have htime : s1.time = s.time := fillHome_time ..
    change s1.time + _ = _
    rw [htime]
    simp only [List.isEmpty_iff]
  rw [if_pos (by rw [hg1, hu1]; rfl), hlease]
  exact putGrant_granted ..

theorem placeOf_congr (h : t.bar0 = s.bar0) (ilv key pa : Nat) : placeOf t ilv key pa = placeOf s ilv key pa := by
  have hdev : devId t = devId s := by unfold devId bar; rw [h]
  simp only [placeOf, physOf, hdev]

theorem peerGranted_sameMemory (s : State) {p : Phys} (ctx : Nat) (data : List Byte) (hk : p.kind = .own) :
    SameMemory s (peerGranted s p ctx data).1 p.key := by
  intro ilv pa
  obtain ⟨hbar, -, -, hsame⟩ := peerGranted_frame s p ctx data
  rw [placeOf_congr hbar, homeBytes_one, homeBytes_one, hsame.value, fillHome_value s p ctx .normal hk]
  intro _
  unfold placeOf physOf
  extract_lets top dev m
  split
  · rfl
  split
  · rfl
  split <;> rfl

/-! A peer's write and atomic. -/

/-- A peer's write of bytes of one line, answered. -/
def peerWritten (s : State) (p : Phys) (ctx : Nat) (data : List Byte) : Nat × State :=
  answered (l1DropLine (homeWrite s p ctx data false) (locDie p.loc) p.line) [p.line] 0

theorem answered_frame (s : State) (lines : List Nat) (g : Nat) :
    (answered s lines g).2.inNet = s.inNet ∧ (answered s lines g).2.out = s.out := by
  have hw := OnlyMem.foldl writeBack_onlyMem lines s
  exact ⟨hw.inNet, hw.out⟩

theorem peerWritten_frame (s : State) (p : Phys) (ctx : Nat) (data : List Byte) :
    (peerWritten s p ctx data).2.inNet = s.inNet ∧ (peerWritten s p ctx data).2.out = s.out := by
  have h : OnlyMem s (l1DropLine (homeWrite s p ctx data false) (locDie p.loc) p.line) :=
    (homeWrite_onlyMem s p ctx data false .normal).trans (l1Drop_onlyMem _ _)
  obtain ⟨hin, hout⟩ := answered_frame (l1DropLine (homeWrite s p ctx data false) (locDie p.loc) p.line) [p.line] 0
  exact ⟨hin.trans h.inNet, hout.trans h.out⟩

/-- What a place of the line reads as after a peer's write. -/
theorem peerWritten_value (s : State) {p q : Phys} (ctx : Nat) (data : List Byte) (hp : p.kind = .own) (hq : q.kind = .own)
    (hl : q.line = p.line) :
    (homeLine (peerWritten s p ctx data).2 q).1 = spliceLine (homeLine s p).1 (p.loc % 128) data := by
  unfold peerWritten
  have hdrop : SameHomes (homeWrite s p ctx data false) (l1DropLine (homeWrite s p ctx data false) (locDie p.loc) p.line) :=
    l1Drop_sameHomes ..
  rw [answered_value _ _ _ fun h => absurd hq h, hdrop.value, homeWrite_own_value s p ctx data false .normal hp fun h =>
    absurd hq h, if_pos hl]

theorem servePod_write (s : State) (port : Nat) (addr : W64) (p : Phys) (op : AtomOp) (ctx : Nat) (data : List Byte) :
    servePod s port addr p 1 op ctx data =
      said (peerWritten s p ctx data).2 (.answer port addr 1 [] false (peerWritten s p ctx data).1) := by
  unfold servePod peerWritten
  extract_lets say s1 v lease s2 r r2
  rw [if_neg (by decide), if_pos rfl]
  rfl

/-- The bytes that an atomic operates on. -/
def atomLen (op : AtomOp) (data : List Byte) : Nat := if op = .cas then data.length / 2 else data.length

/-- The bytes that a peer's atomic leaves. -/
def atomBytes (s : State) (p : Phys) (op : AtomOp) (data : List Byte) : List Byte :=
  leBytes (atomLen op data) (atomNew op (8 * atomLen op data) (leNat (homeBytes s p (atomLen op data))) (leNat (data.take (atomLen op data)))
    (leNat (data.drop (atomLen op data))))

/-- The state in which a peer's atomic is answered. -/
def peerUpdated (s : State) (p : Phys) (op : AtomOp) (ctx : Nat) (data : List Byte) : Nat × State :=
  if (homeLine s p).2 then answered s [p.line] 0 else peerWritten s p ctx (atomBytes s p op data)

theorem podAtomic_eq (s : State) (p : Phys) (op : AtomOp) (ctx : Nat) (data : List Byte) :
    podAtomic s p op ctx data = (homeBytes s p (atomLen op data), (homeLine s p).2,
      if (homeLine s p).2 then s else l1DropLine (homeWrite s p ctx (atomBytes s p op data) false) (locDie p.loc) p.line) := by
  unfold podAtomic
  extract_lets len old v s1
  cases h : (homeLine s p).2 <;> rfl

theorem servePod_atomic (s : State) (port : Nat) (addr : W64) (p : Phys) (op : AtomOp) (ctx : Nat) (data : List Byte) :
    servePod s port addr p 2 op ctx data = said (peerUpdated s p op ctx data).2
      (.answer port addr 2 (homeBytes s p (atomLen op data)) (homeLine s p).2 (peerUpdated s p op ctx data).1) := by
  unfold servePod
  rw [podAtomic_eq]
  extract_lets say s1 v lease s2 r2
  rw [if_neg (by decide), if_neg (by decide)]
  unfold peerUpdated
  cases h : (homeLine s p).2
  · simp only [Bool.false_eq_true, if_false]
    rfl
  · simp only [if_true]
    rfl

theorem peerUpdated_frame (s : State) (p : Phys) (op : AtomOp) (ctx : Nat) (data : List Byte) :
    (peerUpdated s p op ctx data).2.inNet = s.inNet ∧ (peerUpdated s p op ctx data).2.out = s.out := by
  unfold peerUpdated
  split
  · exact answered_frame ..
  · exact peerWritten_frame ..

theorem peerUpdated_bytes (s : State) {p : Phys} (op : AtomOp) (ctx : Nat) (data : List Byte) (hp : p.kind = .own)
    (hfit : p.loc % 128 + atomLen op data ≤ 128) :
    homeBytes (peerUpdated s p op ctx data).2 p (atomLen op data) =
      if (homeLine s p).2 then homeBytes s p (atomLen op data) else atomBytes s p op data := by
  unfold peerUpdated
  split
  · exact homeBytes_eq fun i _ => by rw [answered_value _ _ _ fun h => absurd hp h]
  · have hlen : (atomBytes s p op data).length = atomLen op data := leBytes_length ..
    apply List.ext_getElem
    · rw [hlen]
      exact lineBytes_length ..
    · intro i hi hi'
      have hlt : i < atomLen op data := hlen ▸ hi'
      simp only [homeBytes, lineBytes, List.getElem_map, List.getElem_range]
      rw [peerWritten_value s ctx _ hp hp rfl, lineByte_spliceLine _ (by omega), if_pos (by omega), Nat.add_sub_cancel_left,
        List.getD_eq_getElem _ _ hi']

/-! The bits of the link status. -/

theorem setLkStat_eq (s : State) (bit : Nat) (b : Bool) : setLkStat s bit b = setBar s 0x1D0008 (putBit (bar s 0x1D0008) bit b) := rfl

theorem setLkStat_bit (s : State) {bit : Nat} (h : bit < 32) (b : Bool) (k : Nat) :
    (bar (setLkStat s bit b) 0x1D0008).getLsbD k = if k = bit then b else (bar s 0x1D0008).getLsbD k := by
  rw [setLkStat_eq, bar_setBar_same, putBit_getLsbD _ h]

/-! Ports (R470, R475). -/

/-- Everything that a lost port takes with it, the launches it stops aside. -/
def portLost (s : State) (port : Nat) : State :=
  let lose : Block → Block := fun b => { b with sends := b.sends.map (SendOp.losePort port) }
  setBar (setLkStat { s with
    blocks := s.blocks.map lose
    saved := s.saved.map fun v => { v with blk := lose v.blk }
    bundles := s.bundles.map (Bundle.losePort port) } port false) (0x1D0040 + 4 * port) 0

theorem portLost_block {bid : Nat} {b : Block} (port : Nat) (hb : s.block? bid = some b) :
    (portLost s port).block? bid = some { b with sends := b.sends.map (SendOp.losePort port) } :=
  (find?_map_of_keeps (g := fun b : Block => { b with sends := b.sends.map (SendOp.losePort port) }) s.blocks fun _ _ => rfl).trans
    (congrArg (Option.map fun b : Block => { b with sends := b.sends.map (SendOp.losePort port) }) hb)

/-- The launches that an outstanding write over the port stops. -/
def portStop (port : Nat) (s : State) (r : Block × Team × Nat) : State :=
  match s.launch? r.1.q r.1.lseq with
  | none => s
  | some la =>
    let lines := r.2.1.unacked.filter fun l => placePort s la.ctx (128 * l) != some port
    let s := s.modTeam r.1.bid r.2.1.idx fun t => { t with unacked := lines }
    engineStop s r.1 r.2.1.idx cPOISON (((r.2.1.records.head?).map Record.pc).getD 0) (w64 (vaOfPlace s la.ctx r.2.2)) []

theorem portDown_up (h : port < 18) (hup : (bar s 0x1D0008).getLsbD port = true) :
    portDown s port = (s.blocks.filterMap fun b => (portStops s port b).map fun r => (b, r)).foldl (portStop port) (portLost s port) := by
  have hbit : (portsUp s).testBit port = true := by
    unfold portsUp lkStat
    rw [Nat.testBit_mod_two_pow]
    simp only [h, decide_true, Bool.true_and]
    exact hup
  unfold portDown
  rw [if_neg (by rw [hbit]; simp; omega)]
  rfl

theorem portStop_onlyHalts (port : Nat) (s : State) (r : Block × Team × Nat) : OnlyHalts s (portStop port s r) := by
  unfold portStop
  split
  · exact .refl s
  · next la _ =>
    extract_lets lines s1
    have h1 : OnlyHalts s s1 := rfl
    exact h1.trans (engineStop_onlyHalts ..)

theorem OnlyHalts.bar0 {s t : State} (h : OnlyHalts s t) : t.bar0 = s.bar0 := by rw [h]
theorem OnlyHalts.saved {s t : State} (h : OnlyHalts s t) : t.saved = s.saved := by rw [h]
theorem OnlyHalts.bundles {s t : State} (h : OnlyHalts s t) : t.bundles = s.bundles := by rw [h]

theorem losePort_hit {o : SendOp} (h : ∃ x ∈ o.parts, x.2 = port) :
    o.losePort port = { o with parts := o.parts.filter (fun x => x.2 != port), ok := false } :=
  if_pos (by simpa [List.any_eq_true] using h)

/-- The one block's team that has a write outstanding over the port stops its launch. -/
theorem portStop_stops {b : Block} {u : Team} {far : Nat} {la : Launch} (hla : s.launch? b.q b.lseq = some la) (hs : la.stop = none)
    (hu : u ∈ b.teams) : ∃ l, (portStop port s (b, u, far)).launch? b.q b.lseq = some l ∧ ∃ st, l.stop = some st ∧ st.cause = cPOISON := by
  unfold portStop
  simp only [hla]
  generalize hs1 : s.modTeam b.bid u.idx (fun t => { t with unacked := u.unacked.filter fun l => placePort s la.ctx (128 * l) != some port }) = s1
  have hla1 : s1.launch? b.q b.lseq = some la := by rw [← hs1]; exact hla
  unfold engineStop
  split
  · next hnone =>
    have hhead : b.teams.head? = none := (Option.or_eq_none_iff.mp hnone).2
    rw [List.head?_eq_none_iff] at hhead
    rw [hhead] at hu
    exact absurd hu List.not_mem_nil
  · next t _ =>
    extract_lets st
    obtain ⟨⟨l, hl, -, hstop⟩, -, -⟩ := stopLaunch_spec hla1 hs st
    exact ⟨l, hl, st, hstop, rfl⟩

theorem mem_of_portStops {b : Block} {u : Team} {far : Nat} (h : portStops s port b = some (u, far)) : u ∈ b.teams := by
  unfold portStops at h
  obtain ⟨t, ht, hf⟩ := List.exists_of_findSome?_eq_some h
  obtain ⟨l, -, hl⟩ := Option.map_eq_some_iff.mp hf
  cases hl
  exact ht

theorem launch?_spec {q lseq : Nat} {la : Launch} (h : s.launch? q lseq = some la) : la ∈ s.launches ∧ la.q = q ∧ la.lseq = lseq := by
  have hk := List.find?_some h
  simp only [Bool.and_eq_true, beq_iff_eq] at hk
  exact ⟨List.mem_of_find?_eq_some h, hk.1, hk.2⟩

theorem portUp_eq {lanes : Nat} (h : port < 18) (hl : lanes = 1 ∨ lanes = 2 ∨ lanes = 4) :
    portUp s port lanes = setBar (setLkStat s port true) (0x1D0040 + 4 * port) (w32 lanes) := by
  refine if_neg ?_
  rintro (h18 | hno)
  · omega
  · rcases hl with rfl | rfl | rfl <;> exact absurd hno (by decide)

/-! The pod meridian (R476 to R478). -/

/-- A leased copy of a line whose home lies on another device. -/
def farLeased (c : CLine) : Bool := c.stamp.isSome && bitsOf (128 * c.line) 51 51 == 1

theorem farLeased_iff {c : CLine} : farLeased c = true ↔ c.stamp.isSome = true ∧ bitsOf (128 * c.line) 51 51 = 1 := by
  simp [farLeased]

theorem unlock_eq (s : State) : unlock s = dropLines (setLkStat s 31 true) farLeased := rfl

theorem unlock_bit (s : State) (k : Nat) :
    (bar (unlock s) 0x1D0008).getLsbD k = if k = 31 then true else (bar s 0x1D0008).getLsbD k := by
  have hbar : bar (unlock s) 0x1D0008 = bar (setLkStat s 31 true) 0x1D0008 := by
    rw [unlock_eq, bar, dropLines_bar0]
    rfl
  rw [hbar, setLkStat_bit _ (by decide)]

theorem mem_unlock (s : State) (c : CLine) :
    c ∈ (unlock s).lines ↔ c ∈ s.lines ∧ ¬ (c.stamp.isSome = true ∧ bitsOf (128 * c.line) 51 51 = 1) := by
  rw [unlock_eq, mem_dropLines, ← farLeased_iff, Bool.not_eq_true]
  rfl

/-- The exchange's messages, before what it decides. -/
def exchanged (s : State) : State :=
  { s with
    inNet := s.inNet.filter fun n => !(match n.msg with
      | .timing _ _ _ => true
      | _ => false)
    out := s.out ++ (List.range 18).filterMap fun i =>
      if (portsUp s).testBit i then some (.net 0 i (.timing (devId s) (lkRef s) (!unlocked s))) else none }

theorem meridianExchange_reference (agree : Bool) (h : isReference s = true) :
    meridianExchange s agree = { setLkStat (setLkStat (exchanged s) 31 false) 30 false with
      lockSince := if s.lockSince = lockPend then s.time else s.lockSince } := if_pos h

theorem meridianExchange_lost {agree : Bool} (h : isReference s = false) (hno : agree = false ∨ portsUp s = 0) :
    meridianExchange s agree = { unlock (setLkStat (exchanged s) 30 true) with lockSince := s.time } := by
  have hcond : (!agree || portsUp s == 0) = true := by
    rcases hno with rfl | h0
    · rfl
    · rw [h0]; simp
  exact (if_neg (by change ¬ isReference s = true; rw [h]; decide)).trans (if_pos hcond)

theorem meridianExchange_held (h : isReference s = false) (hup : portsUp s ≠ 0) (hpend : s.lockSince ≠ lockPend) :
    meridianExchange s true = if (bar s 0x1D0008).getLsbD 30 = true then { setLkStat (exchanged s) 30 false with lockSince := s.time }
      else exchanged s := by
  have hcond : ¬ ((!true || portsUp s == 0) = true) := by simpa using hup
  exact (if_neg (by change ¬ isReference s = true; rw [h]; decide)).trans ((if_neg hcond).trans (if_neg hpend))

end Sys2Proof.Machine

open Sys2Proof Sys2Proof.Machine

/-- Settles O52: a peer's request is followed through its home's line, a port and the lock through the bits of the link status. -/
theorem linkEvents : Obligations.LinkEvents := by
  unfold Obligations.LinkEvents
  intro s i port lanes kind ctx key bid n addr op data r b u la o far agree rest dropped a p homes asked answers len was pois stat farLease
    noFar others
  have hdropped : ∀ s1 : State, bar s1 0x1D000C = bar s 0x1D000C → dropped (lkDrop s1) := by
    intro s1 h1 hlt
    rw [← h1] at hlt ⊢
    exact bar_barCount hlt
  refine ⟨?_, ?_, ?_, ?_, ?_, ?_, ?_, ?_, ?_, ?_, ?_, ?_, ?_⟩
  · rintro ⟨hi, hm⟩ hbad
    by_cases hin : addr.toNat < 2 ^ 41
    · have hk : 2 < kind := hbad.resolve_left (Nat.not_le.mpr hin)
      let s1 : State := { s with inNet := rest, out := s.out ++ [.answer n.port addr kind [] false 0] }
      have hrun : exec (.podRequest i) s = .next (lkDrop s1) := congrArg Host.Outcome.next (podRequest_unsupported hi hm hin hk)
      obtain ⟨hnet, hmem, hlines, hout, -⟩ := lkDrop_rest s1
      refine ⟨_, hrun, hnet, hmem, hlines, hdropped s1 rfl, ?_⟩
      exact hout.trans (if_pos hin).symm
    · let s1 : State := { s with inNet := rest }
      have hrun : exec (.podRequest i) s = .next (lkDrop s1) := congrArg Host.Outcome.next (podRequest_out hi hm (Nat.not_lt.mp hin))
      obtain ⟨hnet, hmem, hlines, hout, -⟩ := lkDrop_rest s1
      refine ⟨_, hrun, hnet, hmem, hlines, hdropped s1 rfl, ?_⟩
      exact hout.trans (if_neg hin).symm
  · rintro ⟨hi, hm⟩ hin rfl
    let s1 : State := { s with inNet := rest }
    have hrun := (podRequest_served hi hm hin (by decide)).trans (servePod_read s1 n.port addr (peerPlace addr key) op ctx data)
    obtain ⟨hbar, hnet, hout, -⟩ := peerGranted_frame s1 (peerPlace addr key) ctx data
    refine ⟨_, congrArg Host.Outcome.next hrun, hnet, peerGranted_sameMemory s1 ctx data rfl,
      ⟨(peerGranted s1 (peerPlace addr key) ctx data).2, ?_⟩, fun hg hu => peerGranted_grant (s := s1) (peerPlace addr key) ctx data hg hu⟩
    refine (congrArg (· ++ _) hout).trans ?_
    rw [fillHome_homeLine s1 (peerPlace addr key) ctx .normal rfl]
    rfl
  · rintro ⟨hi, hm⟩ - hin rfl hline -
    let s1 : State := { s with inNet := rest }
    have hrun := (podRequest_served hi hm hin (by decide)).trans (servePod_write s1 n.port addr (peerPlace addr key) op ctx data)
    obtain ⟨hnet, hout⟩ := peerWritten_frame s1 (peerPlace addr key) ctx data
    have hval : ∀ x, x / 128 = a / 128 → memByte (said (peerWritten s1 (peerPlace addr key) ctx data).2
        (.answer n.port addr 1 [] false (peerWritten s1 (peerPlace addr key) ctx data).1)) ⟨.own, x, key, false, 2⟩ =
        if a ≤ x ∧ x < a + data.length then data.getD (x - a) 0 else memByte s ⟨.own, x, key, false, 2⟩ := by
      intro x hx
      have hsame : SameHomes (peerWritten s1 (peerPlace addr key) ctx data).2 (said (peerWritten s1 (peerPlace addr key) ctx data).2
          (.answer n.port addr 1 [] false (peerWritten s1 (peerPlace addr key) ctx data).1)) := ⟨rfl, rfl, rfl, rfl⟩
      rw [homeBytes_one, hsame.value, peerWritten_value s1 (p := peerPlace addr key) (q := ⟨.own, x, key, false, 2⟩) ctx data rfl rfl hx,
        homeBytes_one]
      change lineByte (spliceLine _ (a % 128) data) (x % 128) = _
      rw [lineByte_spliceLine _ (Nat.mod_lt _ (by decide))]
      by_cases hin : a ≤ x ∧ x < a + data.length
      · have hidx : x % 128 - a % 128 = x - a := by omega
        rw [if_pos (by omega), if_pos hin, hidx]
      · rw [if_neg (by omega), if_neg hin]
        have hplace : homeLine s1 (peerPlace addr key) = homeLine s ⟨.own, x, key, false, 2⟩ := by
          have hl : (⟨.own, x, key, false, 2⟩ : Phys).line = (peerPlace addr key).line := hx
          simp only [homeLine, memLine, hl]
          rfl
        rw [hplace]
    refine ⟨_, congrArg Host.Outcome.next hrun, hnet, ⟨_, congrArg (· ++ _) hout⟩, fun j hj => ?_, fun x hx hno => ?_⟩
    · rw [hval (a + j) (by omega), if_pos (by omega), Nat.add_sub_cancel_left]
    · rw [hval x hx, if_neg hno]
  · rintro ⟨hi, hm⟩ hin rfl hfit -
    let s1 : State := { s with inNet := rest }
    have hrun := (podRequest_served hi hm hin (by decide)).trans (servePod_atomic s1 n.port addr (peerPlace addr key) op ctx data)
    obtain ⟨hnet, hout⟩ := peerUpdated_frame s1 (peerPlace addr key) op ctx data
    exact ⟨_, congrArg Host.Outcome.next hrun, hnet, ⟨_, congrArg (· ++ _) hout⟩,
      peerUpdated_bytes s1 (p := peerPlace addr key) op ctx data rfl hfit⟩
  · intro hr
    refine ⟨fun h => congrArg Host.Outcome.next ?_, fun h => ?_⟩
    · simp only [reassemblyTimeout, hr]
      exact if_pos h
    · have hrun : reassemblyTimeout s i = lkDrop { s with reasm := s.reasm.eraseIdx i } := by
        simp only [reassemblyTimeout, hr]
        exact if_neg (Nat.not_lt.mpr h)
      obtain ⟨-, -, -, -, hre⟩ := lkDrop_rest { s with reasm := s.reasm.eraseIdx i }
      exact ⟨_, congrArg Host.Outcome.next hrun, hre, hdropped _ rfl⟩
  · intro hport hup
    have hhalts := OnlyHalts.foldl (portStop_onlyHalts port) (s.blocks.filterMap fun b => (portStops s port b).map fun r => (b, r))
      (portLost s port)
    have hbars : ∀ off, bar (portDown s port) off = bar (portLost s port) off := by
      intro off
      unfold bar
      rw [portDown_up hport hup, hhalts.bar0]
    have hstat : ∀ k, stat (portDown s port) k = if k = port then false else stat s k := by
      intro k
      change (bar (portDown s port) 0x1D0008).getLsbD k = _
      rw [hbars, portLost, bar_setBar, if_neg (by omega), setLkStat_bit _ (by omega)]
      rfl
    refine ⟨_, rfl, (hstat port).trans (if_pos rfl), (hbars _).trans (bar_setBar_same ..), fun k hk => (hstat k).trans (if_neg hk), ?_, ?_, ?_, ?_⟩
    · intro hb hnone ho hx
      have hempty : (s.blocks.filterMap fun b => (portStops s port b).map fun r => (b, r)) = [] := by
        rw [List.filterMap_eq_nil_iff]
        intro c hc
        rw [hnone c hc]
        rfl
      have hrun : portDown s port = portLost s port := by rw [portDown_up hport hup, hempty]; rfl
      refine ⟨{ b with sends := b.sends.map (SendOp.losePort port) }, ?_, ?_⟩
      · rw [hrun]
        exact portLost_block port hb
      · rw [← losePort_hit hx]
        exact List.mem_map_of_mem ho
    · intro v hv ho hx
      rw [portDown_up hport hup, hhalts.saved]
      refine ⟨_, List.mem_map_of_mem hv, rfl, ?_⟩
      rw [← losePort_hit hx]
      exact List.mem_map_of_mem ho
    · intro k hk
      rw [portDown_up hport hup, hhalts.bundles]
      exact List.mem_map_of_mem hk
    · intro hone hla hstop hps
      have hlist : (s.blocks.filterMap fun b => (portStops s port b).map fun r => (b, r)) = [(b, u, far)] := by
        rw [hone, List.filterMap_cons, hps]
        rfl
      have hlost : (portLost s port).launch? b.q b.lseq = some la := hla
      obtain ⟨l, hl, st, hst, hcause⟩ := portStop_stops (port := port) (far := far) hlost hstop (mem_of_portStops hps)
      obtain ⟨hmem, hq, hseq⟩ := launch?_spec hl
      refine ⟨l, ?_, hq, hseq, st, hst, hcause⟩
      rw [portDown_up hport hup, hlist]
      exact hmem
  · intro hport hlanes
    refine ⟨_, congrArg Host.Outcome.next (portUp_eq hport hlanes), ?_, fun k hk => ?_, bar_setBar_same ..⟩
    · change (bar _ 0x1D0008).getLsbD port = true
      rw [bar_setBar, if_neg (by omega), setLkStat_bit _ (by omega), if_pos rfl]
    · change (bar _ 0x1D0008).getLsbD k = _
      rw [bar_setBar, if_neg (by omega), setLkStat_bit _ (by omega), if_neg hk]
  · intro href
    have hstat : ∀ k, stat (meridianExchange s agree) k = if k = 30 then false else if k = 31 then false else stat s k := by
      intro k
      rw [meridianExchange_reference agree href]
      change (bar (setLkStat (setLkStat (exchanged s) 31 false) 30 false) 0x1D0008).getLsbD k = _
      rw [setLkStat_bit _ (by decide), setLkStat_bit _ (by decide)]
      rfl
    refine ⟨_, rfl, hstat 31, hstat 30, fun k hk => ?_, ?_⟩
    · rw [hstat, if_neg (by omega), if_neg (by omega)]
    · rw [meridianExchange_reference agree href]
      rfl
  · intro href hno
    have hrun := meridianExchange_lost href hno
    have hstat : ∀ k, stat (meridianExchange s agree) k = if k = 31 then true else if k = 30 then true else stat s k := by
      intro k
      rw [hrun]
      change (bar (unlock (setLkStat (exchanged s) 30 true)) 0x1D0008).getLsbD k = _
      rw [unlock_bit, setLkStat_bit _ (by decide)]
      rfl
    refine ⟨_, rfl, hstat 31, hstat 30, fun k hk => ?_, ?_, fun c => ?_⟩
    · rw [hstat, if_neg (by omega), if_neg (by omega)]
    · rw [hrun]
    · rw [hrun]
      exact mem_unlock (setLkStat (exchanged s) 30 true) c
  · intro href hagree hup hpend
    subst hagree
    have hrun := meridianExchange_held href hup hpend
    refine ⟨_, congrArg Host.Outcome.next hrun, ?_⟩
    by_cases h30 : (bar s 0x1D0008).getLsbD 30 = true
    · rw [if_pos h30]
      have hstat : ∀ k, stat { setLkStat (exchanged s) 30 false with lockSince := s.time } k = if k = 30 then false else stat s k :=
        fun k => setLkStat_bit (exchanged s) (by decide) false k
      refine ⟨(hstat 31).trans (if_neg (by decide)), hstat 30, fun k hk => ?_, fun _ => rfl, rfl⟩
      rw [hstat, if_neg (by omega)]
    · rw [if_neg h30]
      exact ⟨rfl, Bool.eq_false_iff.mpr h30, fun k _ => rfl, fun h => absurd h h30, rfl⟩
  · exact fun href => congrArg Host.Outcome.next (if_pos href)
  · intro href
    have hrun : lossOfLock s = { unlock s with lockSince := s.time } := if_neg (by rw [href]; decide)
    refine ⟨_, congrArg Host.Outcome.next hrun, ?_, rfl, fun c => mem_unlock s c⟩
    exact (unlock_bit s 31).trans (if_pos rfl)
  · intro h31 h30
    have hcond : (!unlocked s || (lkStat s).testBit 30 || decide (s.time < s.lockSince + 1000000)) =
        decide (s.time < s.lockSince + 1000000) := by
      have hu : unlocked s = true := h31
      have h30' : (lkStat s).testBit 30 = false := h30
      rw [hu, h30', Bool.not_true, Bool.false_or, Bool.false_or]
    refine ⟨fun h => congrArg Host.Outcome.next (if_pos (by rw [hcond]; exact decide_eq_true h)), fun h => ?_⟩
    have hrun : relock s = setLkStat s 31 false := if_neg (by rw [hcond]; simp only [decide_eq_true_eq]; omega)
    have hstat : ∀ k, stat (setLkStat s 31 false) k = if k = 31 then false else stat s k := fun k => setLkStat_bit s (by decide) false k
    refine ⟨_, congrArg Host.Outcome.next hrun, hstat 31, fun k hk => ?_, ?_⟩
    · rw [hstat, if_neg (by omega)]
    · rw [hstat, if_neg (by decide)]
      exact h30

end

section
/-! Retirement (R17, R18, R21, R22): what a finished operation leaves of its team, and what else its retirement can touch, down to the
block and the launch that end with it. -/

namespace Sys2Proof.Machine

variable {s t u : State}

/-! Records posted. -/

/-- Only memory, the host's registers, packets, posts and messages have changed: what the posting of a record can change. -/
structure OnlyPosts (s t : State) : Prop where
  frame : t = { s with mem := t.mem, mpoison := t.mpoison, lineKey := t.lineKey, lines := t.lines, l1 := t.l1, dir := t.dir,
                       msc := t.msc, psel := t.psel, lruIns := t.lruIns, sketch := t.sketch, cands := t.cands,
                       czUnits := t.czUnits, czSect := t.czSect, tlb := t.tlb, wsHolds := t.wsHolds, pinHolds := t.pinHolds,
                       bar0 := t.bar0, packets := t.packets, posts := t.posts, out := t.out }

theorem OnlyPosts.refl (s : State) : OnlyPosts s s := ⟨rfl⟩

theorem OnlyPosts.trans (h : OnlyPosts s t) (g : OnlyPosts t u) : OnlyPosts s u := ⟨by rw [g.frame, h.frame]⟩

theorem OnlyMem.onlyPosts (h : OnlyMem s t) : OnlyPosts s t := ⟨by rw [h.frame]⟩

theorem OnlyPosts.blocks (h : OnlyPosts s t) : t.blocks = s.blocks := by rw [h.frame]
theorem OnlyPosts.time (h : OnlyPosts s t) : t.time = s.time := by rw [h.frame]

theorem packetDone_onlyPosts (s : State) (pid : Nat) : OnlyPosts s (packetDone s pid) := by
  unfold packetDone
  split
  · exact .refl s
  · next p _ =>
    extract_lets s1 s2
    have h1 : OnlyPosts s s1 := ⟨rfl⟩
    have h2 : OnlyPosts s1 s2 := by
      change OnlyPosts s1 (match p.sig with
        | some g => signalDo s1 (queueCtx s1 p.q) g
        | none => s1)
      split
      · exact (signalDo_onlyMem ..).onlyPosts
      · exact .refl s1
    split
    · have h3 : OnlyPosts s2 { s2 with out := s2.out ++ [.msix p.q] } := ⟨rfl⟩
      exact (h1.trans h2).trans h3
    · exact h1.trans h2

theorem postNow_onlyPosts (s : State) (p : Post) : OnlyPosts s (postNow s p) := by
  unfold postNow
  extract_lets b n idx at_ l s1 s2
  have h1 : OnlyPosts s s1 := (vaWrite_onlyMem ..).onlyPosts
  have h2 : OnlyPosts s1 s2 := ⟨rfl⟩
  split
  · exact (h1.trans h2).trans (packetDone_onlyPosts ..)
  · exact h1.trans h2

theorem postRec_onlyPosts (s : State) (q : Nat) (r : Rec) (pid : Option Nat) : OnlyPosts s (postRec s q r pid) := by
  unfold postRec
  extract_lets p
  split
  · exact postNow_onlyPosts ..
  · exact ⟨rfl⟩

theorem retireErrors_onlyPosts (s : State) (la : Launch) (l : List AsyncOp) : OnlyPosts s (retireErrors s la l) := by
  unfold retireErrors
  induction l generalizing s with
  | nil => exact .refl s
  | cons o l ih =>
    refine OnlyPosts.trans ?_ (ih _)
    dsimp only
    split
    · exact postRec_onlyPosts ..
    · exact .refl s

/-! A team that still holds lanes. -/

/-- A team whose finished operations of a class have retired, the sub-teams that waited for that ready again. -/
def retiredTeam (now cls : Nat) (t : Team) : Team :=
  Team.wake (fun w => w.isLimit || (t.retire cls).waitcMet w) now (t.retire cls)

theorem leaveTest_live {bid ti : Nat} {v : Team} (h : s.team? bid ti = some v) (hl : v.live ≠ 0) : leaveTest s bid ti = s := by
  obtain ⟨b, hb, ht⟩ : ∃ b, s.block? bid = some b ∧ b.team? ti = some v := by
    unfold State.team? at h
    cases hb : s.block? bid with
    | none => rw [hb] at h; exact absurd h (by simp)
    | some b => rw [hb] at h; exact ⟨b, rfl, h⟩
  simp only [leaveTest, hb, ht]
  have hlive : (v.live != 0) = true := bne_iff_ne.mpr hl
  exact if_pos (by rw [hlive]; simp)

theorem wake_live (p : Wait → Bool) (now : Nat) (t : Team) : (t.wake p now).live = t.live := by
  have hstep : ∀ (m : LaneMask) (r : Record), (m ||| (wakeRec p now r).k0 ||| match (wakeRec p now r).held with
      | some h => h.lanes
      | none => 0) = (m ||| r.k0 ||| match r.held with
      | some h => h.lanes
      | none => 0) := by
    intro m r
    unfold wakeRec
    split <;> rfl
  unfold Team.live Team.wake
  rw [List.foldl_map]
  exact congrArg (fun f => List.foldl f 0 t.records) (funext fun m => funext fun r => hstep m r)

theorem retiredTeam_live (now cls : Nat) (t : Team) : (retiredTeam now cls t).live = t.live := wake_live ..

theorem retiredTeam_idx (now cls : Nat) (t : Team) : (retiredTeam now cls t).idx = t.idx := rfl

theorem team?_of_blocks (h : t.blocks = s.blocks) (bid ti : Nat) : t.team? bid ti = s.team? bid ti := by
  unfold State.team? State.block?
  rw [h]

theorem team?_modTeam_same {bid ti : Nat} {v : Team} (h : s.team? bid ti = some v) {f : Team → Team} (hf : ∀ t, (f t).idx = t.idx) :
    (s.modTeam bid ti f).team? bid ti = some (f v) := by
  rw [State.team?_modTeam s bid ti bid ti f hf, h, Option.map_some, if_pos ⟨rfl, rfl⟩]

/-- Retirement in a class of a team that still holds lanes changes that team, posts its errors and does no more. -/
theorem retireClass_live {bid ti : Nat} {v : Team} (cls : Nat) (h : s.team? bid ti = some v) (hl : v.live ≠ 0) :
    ∃ s1, OnlyPosts s s1 ∧ retireClass s bid ti cls = s1.modTeam bid ti (retiredTeam s1.time cls) := by
  obtain ⟨b, hb, ht⟩ : ∃ b, s.block? bid = some b ∧ b.team? ti = some v := by
    unfold State.team? at h
    cases hb : s.block? bid with
    | none => rw [hb] at h; exact absurd h (by simp)
    | some b => rw [hb] at h; exact ⟨b, rfl, h⟩
  have hposted : ∀ x : State, OnlyPosts s x → leaveTest (x.modTeam bid ti (retiredTeam x.time cls)) bid ti =
      x.modTeam bid ti (retiredTeam x.time cls) := by
    intro x hx
    have hteam : x.team? bid ti = some v := (team?_of_blocks hx.blocks bid ti).trans h
    have hlive : (retiredTeam x.time cls v).live = v.live := retiredTeam_live x.time cls v
    exact leaveTest_live (team?_modTeam_same hteam (retiredTeam_idx x.time cls)) (by rw [hlive]; exact hl)
  simp only [retireClass, hb, ht]
  cases hla : s.launch? b.q b.lseq with
  | none => exact ⟨s, .refl s, hposted s (.refl s)⟩
  | some la => exact ⟨_, retireErrors_onlyPosts s la _, hposted _ (retireErrors_onlyPosts s la _)⟩

/-- An operation marked as finished. -/
def markFin (id : Nat) (err : Option Nat) (t : Team) : Team :=
  { t with ops := t.ops.map fun o => if o.id = id then { o with fin := true, err := err } else o }

/-- An operation of a team that still holds lanes finishes: its team retires what can retire, errors are posted, and nothing else
changes. -/
theorem finishOp_live {bid ti : Nat} {v : Team} (id cls : Nat) (err : Option Nat) (h : s.team? bid ti = some v) (hl : v.live ≠ 0) :
    ∃ s1, OnlyPosts (s.modTeam bid ti (markFin id err)) s1 ∧
      finishOp s bid ti id cls err = s1.modTeam bid ti (retiredTeam s1.time cls) :=
  retireClass_live cls (team?_modTeam_same h (f := markFin id err) fun _ => rfl) hl

theorem finishOp_team {bid ti : Nat} {v : Team} (id cls : Nat) (err : Option Nat) (h : s.team? bid ti = some v) (hl : v.live ≠ 0) :
    (finishOp s bid ti id cls err).team? bid ti = some (retiredTeam s.time cls (markFin id err v)) := by
  obtain ⟨s1, hs1, hrun⟩ := finishOp_live id cls err h hl
  have hteam : s1.team? bid ti = some (markFin id err v) :=
    (team?_of_blocks hs1.blocks bid ti).trans (team?_modTeam_same h fun _ => rfl)
  rw [hrun, team?_modTeam_same hteam (retiredTeam_idx _ cls), hs1.time]
  rfl

/-- What the retirement of an operation makes of its team, its records aside. -/
def RetiredTo (v w : Team) (id cls : Nat) (err : Option Nat) : Prop :=
  ∃ rs, w = { (markFin id err v).retire cls with records := rs }

theorem retiredTo_retiredTeam (v : Team) (now id cls : Nat) (err : Option Nat) :
    RetiredTo v (retiredTeam now cls (markFin id err v)) id cls err := ⟨_, rfl⟩

theorem RetiredTo.wake {v w : Team} {id cls : Nat} {err : Option Nat} (h : RetiredTo v w id cls err) (p : Wait → Bool) (now : Nat) :
    RetiredTo v (w.wake p now) id cls err := by
  obtain ⟨rs, rfl⟩ := h
  exact ⟨_, rfl⟩

/-- An operation has retired where its team has come to what retirement makes of it. -/
theorem Retired.of_retiredTo {bid ti id cls : Nat} {err : Option Nat}
    (h : ∀ v, s.team? bid ti = some v → v.live ≠ 0 → ∃ v0 w, t.team? bid ti = some w ∧ RetiredTo v0 w id cls err ∧ v0.ops = v.ops ∧
      v0.cnt = v.cnt ∧ v0.v = v.v ∧ v0.s = v.s ∧ v0.k = v.k) : Retired s t bid ti id cls err := by
  intro v hv hl
  obtain ⟨v0, w, hw, ⟨rs, rfl⟩, hops, hcnt, hvv, hvs, hvk⟩ := h v hv hl
  refine ⟨_, hw, ⟨?_, ?_⟩, hvv, hvs, hvk⟩
  · change smGet 0 (smSet 0 v0.cnt cls _) cls = _
    rw [smGet_smSet_self]
    unfold Team.count readyOps markFin
    rw [hops, hcnt]
  · change List.filter _ _ = _
    unfold readyOps markFin
    rw [hops]

/-! A team that leaves, with its block and its launch. -/

/-- What the end of a team can change: beside memory and records posted, the blocks, the leases of rows, the launches, the
registrations, the operating points and the acknowledgements kept; bundle tags stay in quarantine. -/
structure Leaves (s t : State) : Prop where
  frame : t = { s with mem := t.mem, mpoison := t.mpoison, lineKey := t.lineKey, lines := t.lines, l1 := t.l1, dir := t.dir,
                       msc := t.msc, psel := t.psel, lruIns := t.lruIns, sketch := t.sketch, cands := t.cands,
                       czUnits := t.czUnits, czSect := t.czSect, tlb := t.tlb, wsHolds := t.wsHolds, pinHolds := t.pinHolds,
                       bar0 := t.bar0, packets := t.packets, posts := t.posts, out := t.out, blocks := t.blocks,
                       reserves := t.reserves, groups := t.groups, quars := t.quars, launches := t.launches, die0 := t.die0,
                       die1 := t.die1, qgwct := t.qgwct, freeCtr := t.freeCtr }
  quars : ∃ l, t.quars = s.quars ++ l

theorem Leaves.refl (s : State) : Leaves s s := ⟨rfl, [], (List.append_nil _).symm⟩

theorem Leaves.trans (h : Leaves s t) (g : Leaves t u) : Leaves s u := by
  obtain ⟨hf, l, hl⟩ := h
  obtain ⟨gf, k, hk⟩ := g
  exact ⟨by rw [gf, hf], l ++ k, by rw [hk, hl, List.append_assoc]⟩

theorem OnlyPosts.leaves (h : OnlyPosts s t) : Leaves s t := ⟨by rw [h.frame], [], by rw [h.frame]; exact (List.append_nil _).symm⟩

theorem OnlyMem.leaves (h : OnlyMem s t) : Leaves s t := h.onlyPosts.leaves

theorem Leaves.of_blocks (s : State) (bs : List Block) : Leaves s { s with blocks := bs } := ⟨rfl, [], (List.append_nil _).symm⟩

theorem modTeam_leaves (s : State) (bid ti : Nat) (f : Team → Team) : Leaves s (s.modTeam bid ti f) := .of_blocks s _

theorem answered_leaves (s : State) (lines : List Nat) (g : Nat) : Leaves s (answered s lines g).2 := by
  have hw : Leaves s (lines.foldl writeBack s) := (OnlyMem.foldl writeBack_onlyMem lines s).leaves
  have hctr : Leaves (lines.foldl writeBack s) (answered s lines g).2 := ⟨rfl, [], (List.append_nil _).symm⟩
  exact hw.trans hctr

theorem teamAcks_leaves (s : State) (q : Nat) (v : Team) : Leaves s (teamAcks s q v).2 := by
  have hflush : Leaves s (flushRead s (queueCtx s q) v) := by
    unfold flushRead
    split
    · exact .refl s
    · exact ⟨rfl, [], (List.append_nil _).symm⟩
  have hnote : ∀ (x : State) (g : Nat), Leaves x (noteGwct x q g) := fun x g => ⟨rfl, [], (List.append_nil _).symm⟩
  exact (hflush.trans (answered_leaves ..)).trans (hnote _ _)

theorem leaseRow_leaves (s : State) (core row q lseq : Nat) : Leaves s (leaseRow s core row q lseq) := by
  have hres : ∀ rs : List Reserve, Leaves s { s with reserves := rs } := fun rs => ⟨rfl, [], (List.append_nil _).symm⟩
  unfold leaseRow
  split
  · exact .refl s
  split
  · exact .refl s
  · extract_lets mine add
    split
    · exact hres _
    · exact hres _

theorem endLaunch_leaves (s : State) (la : Launch) (kind status : Nat) : Leaves s (endLaunch s la kind status) := by
  unfold endLaunch
  extract_lets s1 s2
  have h1 : Leaves s s1 := (dropWs_onlyMem s la).leaves
  have h2 : Leaves s1 s2 := ⟨rfl, [], (List.append_nil _).symm⟩
  have h3 : Leaves s2 (packetComplete s2 la.pid kind status) := by
    unfold packetComplete
    split
    · exact .refl s2
    · next p _ =>
      extract_lets fin
      have hp : OnlyPosts s2 { s2 with packets := s2.packets.map fin } := ⟨rfl⟩
      exact (hp.trans (postRec_onlyPosts ..)).leaves
  exact (h1.trans h2).trans h3

theorem launchTest_leaves (s : State) (q lseq : Nat) : Leaves s (launchTest s q lseq) := by
  unfold launchTest
  split
  · exact .refl s
  split
  · exact endLaunch_leaves ..
  · exact .refl s

theorem endRegs_leaves (s : State) (q lseq idx : Nat) : Leaves s (endRegs s q lseq idx) := by
  unfold endRegs
  extract_lets mine gone rest s1
  split
  · exact .refl s
  · have h1 : Leaves s s1 := ⟨rfl, _, rfl⟩
    exact h1.trans (.of_blocks s1 _)

theorem freeGroup_leaves (s : State) (la : Launch) (b : Block) : Leaves s (freeGroup s la b) := by
  unfold freeGroup
  extract_lets grp savedMate s1 s2
  split
  · have h1 : Leaves s s1 := .of_blocks s _
    have h2 : Leaves s1 s2 := .of_blocks s1 _
    have h3 : Leaves (launchTest s2 la.q la.lseq) (dieLower (launchTest s2 la.q la.lseq)) := ⟨rfl, [], (List.append_nil _).symm⟩
    exact ((h1.trans h2).trans (launchTest_leaves ..)).trans h3
  · exact .refl s

theorem leaveTest_leaves (s : State) (bid ti : Nat) : Leaves s (leaveTest s bid ti) := by
  unfold leaveTest
  split
  · exact .refl s
  next b _ =>
  split
  · exact .refl s
  next v _ =>
  split
  · exact .refl s
  split
  · exact .refl s
  next la _ =>
  have hacks := teamAcks_leaves s b.q v
  generalize teamAcks s b.q v = acked at hacks ⊢
  obtain ⟨g, s1⟩ := acked
  change Leaves s (let s2 := s1.modTeam bid ti fun t => { t with left := true, drawn := 0, unacked := [], gwct := g }
    let s3 := leaseRow s2 b.coreNum v.row b.q b.lseq
    match s3.block? bid with
    | none => s3
    | some b => if (b.teams.all fun t => t.left) = true then
        freeGroup (endRegs (s3.modBlock bid fun b => { b with gone := true }) b.q b.lseq b.idx) la b else s3)
  extract_lets s2 s3
  have h3 : Leaves s s3 := (hacks.trans (modTeam_leaves ..)).trans (leaseRow_leaves ..)
  split
  · exact h3
  next b' _ =>
  split
  · have hgone : Leaves s3 (s3.modBlock bid fun b => { b with gone := true }) := .of_blocks s3 _
    exact (h3.trans hgone).trans ((endRegs_leaves ..).trans (freeGroup_leaves ..))
  · exact h3

theorem retireClass_leaves (s : State) (bid ti cls : Nat) : Leaves s (retireClass s bid ti cls) := by
  unfold retireClass
  split
  · exact .refl s
  next b _ =>
  split
  · exact .refl s
  next v _ =>
  extract_lets gone s1 now s2
  have h1 : Leaves s s1 := by
    change Leaves s (match s.launch? b.q b.lseq with
      | some la => retireErrors s la gone
      | none => s)
    split
    · exact (retireErrors_onlyPosts ..).leaves
    · exact .refl s
  exact (h1.trans (modTeam_leaves ..)).trans (leaveTest_leaves ..)

theorem finishOp_leaves (s : State) (bid ti id cls : Nat) (err : Option Nat) : Leaves s (finishOp s bid ti id cls err) :=
  (modTeam_leaves s bid ti _).trans (retireClass_leaves ..)

theorem Leaves.bundles (h : Leaves s t) : t.bundles = s.bundles := by rw [h.frame]
theorem Leaves.time (h : Leaves s t) : t.time = s.time := by rw [h.frame]

theorem Leaves.keeps_quar (h : Leaves s t) {x : Quar} (hx : x ∈ s.quars) : x ∈ t.quars := by
  obtain ⟨l, hl⟩ := h.quars
  rw [hl]
  exact List.mem_append_left _ hx

end Sys2Proof.Machine
end

section
/-! The course of a bundle (R417, R420 to R431): its homes prepare it, its time is chosen, its homes commit or abort it, its versions are
installed, and it ends with its status. -/

namespace Sys2Proof.Machine

variable {s t : State} {bun home line : Nat} {k : Bundle}

/-! Bundles found and changed. -/

theorem bundle?_id (h : s.bundle? bun = some k) : k.id = bun := by
  simpa using List.find?_some h

theorem bundle?_modBundle (h : s.bundle? bun = some k) {f : Bundle → Bundle} (hf : ∀ k, (f k).id = k.id) :
    (s.modBundle bun f).bundle? bun = some (f k) := by
  have hmap := find?_map_key Bundle.id bun bun f hf s.bundles
  rw [show s.bundles.find? (fun x => x.id == bun) = some k from h, Option.map_some, if_pos rfl] at hmap
  exact hmap

theorem bundle?_of_bundles (h : t.bundles = s.bundles) (bun : Nat) : t.bundle? bun = s.bundle? bun := by
  unfold State.bundle?
  rw [h]

/-! Homes prepare (R424). -/

section
variable (hk : s.bundle? bun = some k) (hdev : k.dev = devId s) (hph : k.phase = .preparing) (hnext : k.nextHome = some home)
  (hstbs : k.stbs = []) (hasked : k.waitsFor home = false)
include hk hdev hph hnext hstbs hasked

theorem bundlePrepare_due : bundlePrepare s bun home =
    if k.lost then s.modBundle bun Bundle.giveUp
    else if homeRemote s home then
      match (toHome s home k.tag (k.msg home 0 0 (manifestOf s k 0).lines)).2 with
      | some port => (toHome s home k.tag (k.msg home 0 0 (manifestOf s k 0).lines)).1.modBundle bun fun k =>
          { k with asked := k.asked ++ [(home, port)] }
      | none => (toHome s home k.tag (k.msg home 0 0 (manifestOf s k 0).lines)).1.modBundle bun Bundle.giveUp
    else match prepHome s bun home with
      | .wait => s
      | .full => s.modBundle bun Bundle.giveUp
      | .done s newest expiry remote => s.modBundle bun fun k => k.answered home newest expiry remote := by
  unfold bundlePrepare
  simp only [hk]
  exact if_neg (by simp [hdev, hph, hnext, hstbs, hasked])

end

theorem mem_bunLines {q : PendLine} : q ∈ bunLines s bun home ↔ q ∈ s.pendLines ∧ q.bun = bun ∧ homeOfLine s q.line = home := by
  simp [bunLines]

theorem fixed_iff {q : PendLine} : q.fixed = true ↔ q.state ≠ .pending := by
  unfold PendLine.fixed
  cases q.state <;> simp

/-- A line of the bundle at the home holds another bundle's prepared or committed version. -/
def HomeBusy (s : State) (bun home : Nat) : Prop :=
  ∃ q ∈ s.pendLines, (q.bun = bun ∧ homeOfLine s q.line = home) ∧ ∃ o ∈ s.pendLines, o.line = q.line ∧ o.bun ≠ bun ∧ o.state ≠ .pending

theorem homeBusy_iff : (bunLines s bun home).any (fun p => s.pendLines.any fun o => o.line == p.line && o.bun != bun && o.fixed) = true ↔
    HomeBusy s bun home := by
  simp only [List.any_eq_true, mem_bunLines, HomeBusy, Bool.and_eq_true, beq_iff_eq, bne_iff_ne, fixed_iff]
  constructor
  · rintro ⟨q, ⟨hq, hat⟩, o, ho, ⟨hl, hb⟩, hs⟩
    exact ⟨q, hq, hat, o, ho, hl, hb, hs⟩
  · rintro ⟨q, hq, hat, o, ho, hl, hb, hs⟩
    exact ⟨q, ⟨hq, hat⟩, o, ho, ⟨hl, hb⟩, hs⟩

/-- Lines of the bundle at the home that no bundle has written. -/
def freshLines (s : State) (bun home : Nat) : List PendLine := (bunLines s bun home).filter fun q => (version? s q.line).isNone

def usedVersions (s : State) (home : Nat) : Nat := (s.versions.filter fun v => homeOfLine s v.line == home).length

theorem prepHome_wait (h : HomeBusy s bun home) : prepHome s bun home = .wait := if_pos (homeBusy_iff.mpr h)

theorem prepHome_full (h : ¬ HomeBusy s bun home) (hf : 2 ^ 21 < usedVersions s home + (freshLines s bun home).length) :
    prepHome s bun home = .full := (if_neg (mt homeBusy_iff.mp h)).trans (if_pos hf)

/-- A pending line of the bundle at a home as its home has prepared it. -/
def prepLine (s : State) (bun home : Nat) (p : PendLine) : PendLine :=
  if p.bun = bun ∧ (bunLines s bun home).any (fun q => q.line == p.line) then { p with state := .prepared s.time } else p

/-- The state in which a home has prepared the bundle. -/
def prepState (s : State) (bun home : Nat) : State :=
  { s with pendLines := s.pendLines.map (prepLine s bun home)
           versions := s.versions ++ (freshLines s bun home).map fun p => ⟨p.line, 0, 0, none⟩ }

def newestOf (s : State) (l : List PendLine) : Nat :=
  l.foldl (fun n p => max n (((version? s p.line).map Version.curTc).getD 0)) 0

theorem prepHome_done (h : ¬ HomeBusy s bun home) (hf : usedVersions s home + (freshLines s bun home).length ≤ 2 ^ 21) :
    ∃ expiry remote, prepHome s bun home = .done (prepState s bun home) (newestOf s (bunLines s bun home)) expiry remote := by
  have hrun := (if_neg (mt homeBusy_iff.mp h)).trans (if_neg (Nat.not_lt.mpr hf)) (a := prepHome s bun home)
  exact ⟨_, _, hrun⟩

theorem foldl_max_le_of_mem {α : Type} (f : α → Nat) {l : List α} {x : α} (h : x ∈ l) : ∀ n, f x ≤ l.foldl (fun n p => max n (f p)) n := by
  have hmono : ∀ (l : List α) (n : Nat), n ≤ l.foldl (fun n p => max n (f p)) n := by
    intro l
    induction l with
    | nil => exact fun n => Nat.le_refl n
    | cons y l ih => exact fun n => (Nat.le_max_left ..).trans (ih _)
  induction l with
  | nil => exact absurd h List.not_mem_nil
  | cons y l ih =>
    intro n
    rcases List.mem_cons.mp h with rfl | h
    · exact (Nat.le_max_right ..).trans (hmono l _)
    · exact ih h _

theorem newestOf_ge {q : PendLine} {w : Version} (hq : q ∈ bunLines s bun home) (hw : version? s q.line = some w) :
    w.curTc ≤ newestOf s (bunLines s bun home) := by
  have h := foldl_max_le_of_mem (fun p : PendLine => ((version? s p.line).map Version.curTc).getD 0) hq 0
  rw [hw] at h
  exact h

theorem prepLine_key (p : PendLine) : (prepLine s bun home p).bun = p.bun ∧ (prepLine s bun home p).line = p.line := by
  unfold prepLine
  split <;> exact ⟨rfl, rfl⟩

/-- Every line of the bundle at the home is prepared, and has a version. -/
theorem prepState_lines {q : PendLine} (hq : q ∈ (prepState s bun home).pendLines) (hb : q.bun = bun)
    (hh : homeOfLine s q.line = home) : q.state = .prepared s.time ∧ (version? (prepState s bun home) q.line).isSome = true := by
  obtain ⟨p, hp, rfl⟩ := List.mem_map.mp hq
  obtain ⟨hkb, hkl⟩ := prepLine_key (s := s) (bun := bun) (home := home) p
  rw [hkb] at hb
  rw [hkl] at hh
  have hmine : p ∈ bunLines s bun home := mem_bunLines.mpr ⟨hp, hb, hh⟩
  refine ⟨?_, ?_⟩
  · have hany : (bunLines s bun home).any (fun q => q.line == p.line) = true := List.any_eq_true.mpr ⟨p, hmine, by simp⟩
    rw [prepLine, if_pos ⟨hb, hany⟩]
  · rw [hkl]
    unfold version? prepState
    rw [List.find?_append, Option.isSome_or]
    cases hv : s.versions.find? (fun v => v.line == p.line) with
    | some v => rfl
    | none =>
      have hfresh : p ∈ freshLines s bun home := List.mem_filter.mpr ⟨hmine, by rw [version?, hv]; rfl⟩
      rw [Option.isSome_none, Bool.false_or, List.find?_isSome]
      exact ⟨_, List.mem_map_of_mem hfresh, by simp⟩

/-! Messages to homes. -/

/-- A message to a home on another device that a port reaches. -/
theorem toHome_reached (tag : Nat) (m : Msg) (h : devPorts s (home / 8) ≠ []) :
    toHome s home tag m = ({ s with out := s.out ++ [.net (home / 8) (pickPort (devPorts s (home / 8)) tag) m] },
      some (pickPort (devPorts s (home / 8)) tag)) := by
  unfold toHome
  split
  · next he => exact absurd he h
  · rfl

theorem toHome_rest (s : State) (home tag : Nat) (m : Msg) : (toHome s home tag m).1.pendLines = s.pendLines ∧
    (toHome s home tag m).1.bundles = s.bundles := by
  unfold toHome
  split
  · exact ⟨rfl, rfl⟩
  · exact ⟨rfl, rfl⟩

theorem tell_pendLines (k : Bundle) (s : State) (home kind time : Nat) : (k.tell s home kind time).pendLines = s.pendLines := by
  unfold Bundle.tell
  split
  · extract_lets r
    split
    · exact (toHome_rest ..).1
    · exact (toHome_rest ..).1
  · rfl

theorem tell_near (h : homeRemote s home = false) (kind time : Nat) : k.tell s home kind time = s.modBundle k.id fun k => k.ack home :=
  if_neg (by rw [h]; decide)

theorem tell_far (h : homeRemote s home = true) (hp : devPorts s (home / 8) ≠ []) (kind time : Nat) :
    k.tell s home kind time = ({ s with out := s.out ++ [.net (home / 8) (pickPort (devPorts s (home / 8)) k.tag)
      (k.msg home kind time [])] } : State).modBundle k.id fun j =>
        { j with asked := j.asked ++ [(home, pickPort (devPorts s (home / 8)) k.tag)] } := by
  unfold Bundle.tell
  rw [if_pos h, toHome_reached _ _ hp]

/-! Homes commit and abort (R425, R427). -/

/-- A pending line as a commit at a home leaves it. -/
def commitLine (s : State) (bun home tc : Nat) (p : PendLine) : PendLine :=
  if p.bun = bun ∧ homeOfLine s p.line = home then { p with state := .committed tc } else p

/-- A commit after its time is counted at a home of this module. -/
def lateCount (s : State) (home tc : Nat) : State := if tc < s.time ∧ !homeRemote s home then barCount s (bunReg home 0x10) else s

theorem lateCount_spec (s : State) (home tc : Nat) : (lateCount s home tc).bundles = s.bundles ∧ (lateCount s home tc).out = s.out ∧
    (lateCount s home tc).pendLines = s.pendLines ∧ devId (lateCount s home tc) = devId s ∧
    (homeRemote s home = true → lateCount s home tc = s) := by
  unfold lateCount
  split
  · next h =>
    have hnear : ¬ homeRemote s home = true := by simpa using h.2
    unfold barCount
    extract_lets v
    split
    · exact ⟨rfl, rfl, rfl, rfl, fun hr => absurd hr hnear⟩
    · exact ⟨rfl, rfl, rfl, devId_setBar _ _ (by unfold bunReg; omega), fun hr => absurd hr hnear⟩
  · exact ⟨rfl, rfl, rfl, rfl, fun _ => rfl⟩

theorem homeOfLine_congr (h : devId t = devId s) (line : Nat) : homeOfLine t line = homeOfLine s line := by
  unfold homeOfLine
  rw [h]

theorem homeRemote_congr (h : devId t = devId s) (home : Nat) : homeRemote t home = homeRemote s home := by
  unfold homeRemote
  rw [h]

theorem commitHome_spec (s : State) (bun home tc : Nat) : (commitHome s bun home tc).bundles = s.bundles ∧
    (commitHome s bun home tc).out = s.out ∧ (commitHome s bun home tc).pendLines = s.pendLines.map (commitLine s bun home tc) ∧
    homeRemote (commitHome s bun home tc) home = homeRemote s home ∧
    (homeRemote s home = true → devPorts (commitHome s bun home tc) = devPorts s) := by
  obtain ⟨hb, ho, hp, hd, hfar⟩ := lateCount_spec s home tc
  have hline : commitLine (lateCount s home tc) bun home tc = commitLine s bun home tc := by
    funext p
    simp only [commitLine, homeOfLine_congr hd]
  have hrun : commitHome s bun home tc = ({ lateCount s home tc with
    pendLines := (lateCount s home tc).pendLines.map (commitLine (lateCount s home tc) bun home tc) } : State).wakeAll Wait.isVersion := rfl
  rw [hrun, hline, hp]
  refine ⟨hb, ho, rfl, homeRemote_congr hd home, fun hr => ?_⟩
  rw [hfar hr]
  rfl

theorem commitLine_spec {tc : Nat} {q : PendLine} (hq : q ∈ s.pendLines.map (commitLine s bun home tc)) (hb : q.bun = bun)
    (hh : homeOfLine s q.line = home) : q.state = .committed tc := by
  obtain ⟨p, -, rfl⟩ := List.mem_map.mp hq
  unfold commitLine at hb hh ⊢
  split
  · rfl
  · next h =>
    rw [if_neg h] at hb hh
    exact absurd ⟨hb, hh⟩ h

theorem bundleCommitMessage_due (hk : s.bundle? bun = some k) (hdev : k.dev = devId s) (hph : k.phase = .chosen) (hm : home ∈ k.homes)
    (hna : home ∉ k.acked) (hw : k.waitsFor home = false) :
    bundleCommitMessage s bun home = k.tell (commitHome s bun home k.tc) home 3 k.tc := by
  unfold bundleCommitMessage
  simp only [hk]
  exact if_neg (by simp [hdev, hph, hm, hna, hw])

theorem bundleAbortMessage_due {full : Bool} (hk : s.bundle? bun = some k) (hdev : k.dev = devId s) (hph : k.phase = .aborting full)
    (hm : home ∈ k.homes) (hna : home ∉ k.acked) (hw : k.waitsFor home = false) (hstbs : k.stbs = []) :
    bundleAbortMessage s bun home = k.tell (abortHome s bun home) home 4 0 := by
  unfold bundleAbortMessage
  simp only [hk, hph]
  exact if_neg (by simp [hdev, hm, hna, hw, hstbs])

theorem mem_abortHome (q : PendLine) : q ∈ (abortHome s bun home).pendLines ↔ q ∈ s.pendLines ∧ ¬ (q.bun = bun ∧ homeOfLine s q.line = home) := by
  change q ∈ s.pendLines.filter _ ↔ _
  rw [List.mem_filter, Bool.not_eq_true', Bool.and_eq_false_iff, beq_eq_false_iff_ne, beq_eq_false_iff_ne, not_and_or]

/-- What a home is asked by message, and what it does at once where it lies on this module. -/
theorem tell_spec {u : State} (hk : s.bundle? bun = some k) (hb : u.bundles = s.bundles) (ho : u.out = s.out)
    (hr : homeRemote u home = homeRemote s home) (hp : homeRemote s home = true → devPorts u = devPorts s) (kind time : Nat) :
    (homeRemote s home = false → ∃ j, (k.tell u home kind time).bundle? bun = some j ∧ j.acked = k.acked ++ [home]) ∧
    (homeRemote s home = true ∧ devPorts s (home / 8) ≠ [] →
      (k.tell u home kind time).out = s.out ++ [.net (home / 8) (pickPort (devPorts s (home / 8)) k.tag)
        (.bundle k.dev k.ctx k.tag k.gen home kind (time % 2 ^ 48) 0 [])] ∧
      ∃ j, (k.tell u home kind time).bundle? bun = some j ∧ j.asked = k.asked ++ [(home, pickPort (devPorts s (home / 8)) k.tag)] ∧
        j.prepared = k.prepared ∧ j.acked = k.acked) := by
  have hid := bundle?_id hk
  have hku : u.bundle? bun = some k := (bundle?_of_bundles hb bun).trans hk
  refine ⟨fun hnear => ?_, fun ⟨hfar, hports⟩ => ?_⟩
  · rw [tell_near (hr.trans hnear), hid]
    exact ⟨_, bundle?_modBundle hku (f := fun k => k.ack home) fun _ => rfl, rfl⟩
  · have hpu := hp hfar
    rw [← hpu] at hports ⊢
    rw [tell_far (hr.trans hfar) hports, hid]
    refine ⟨congrArg (· ++ _) ho, _, bundle?_modBundle (s := { u with out := _ }) hku (f := fun j =>
      { j with asked := j.asked ++ [(home, pickPort (devPorts u (home / 8)) k.tag)] }) fun _ => rfl, rfl, rfl, rfl⟩

/-! Answers of homes on other devices (R424, R426). -/

theorem podRequest_own {i kind time expiry : Nat} {n : NetIn} {man : List (W64 × Nat)} (hi : s.inNet[i]? = some n)
    (hm : n.msg = .bundle (devId s) k.ctx k.tag k.gen home kind time expiry man)
    (hf : foreignBundle? s (devId s) k.ctx k.tag = some k) :
    podRequest s i = ownAnswer { s with inNet := s.inNet.eraseIdx i } k home kind time expiry := by
  have hmsg : bundleMsg { s with inNet := s.inNet.eraseIdx i } (devId s) k.ctx k.tag k.gen home kind time expiry man =
      some (ownAnswer { s with inNet := s.inNet.eraseIdx i } k home kind time expiry) := by
    unfold bundleMsg
    have hf' : foreignBundle? { s with inNet := s.inNet.eraseIdx i } (devId s) k.ctx k.tag = some k := hf
    have hown : devId s = devId { s with inNet := s.inNet.eraseIdx i } := rfl
    rw [if_pos hown, hf']
    simp
  simp only [podRequest, hi, hm]
  rw [hmsg]
  rfl

theorem ownAnswer_inNet (s : State) (k : Bundle) (home kind time expiry : Nat) : (ownAnswer s k home kind time expiry).inNet = s.inNet := by
  unfold ownAnswer
  extract_lets now mark
  repeat' split
  all_goals rfl

/-- A pending line of the bundle at a home that has answered. -/
def answeredLine (s : State) (k : Bundle) (home : Nat) (p : PendLine) : PendLine :=
  if p.bun = k.id ∧ homeOfLine s p.line = home then { p with state := .prepared s.time } else p

section
variable (hw : k.waitsFor home = true)
include hw

theorem ownAnswer_prepared (time expiry : Nat) : ownAnswer s k home 1 time expiry =
    ({ s with pendLines := s.pendLines.map (answeredLine s k home) } : State).modBundle k.id fun k =>
      k.answered home (if time = 0 then 0 else widenTime s.time time) expiry true := by
  unfold ownAnswer
  rw [if_neg (by decide), if_neg (by rw [hw]; decide), if_pos rfl]
  rfl

theorem ownAnswer_full (time expiry : Nat) : ownAnswer s k home 2 time expiry = s.modBundle k.id Bundle.giveUp := by
  unfold ownAnswer
  rw [if_neg (by decide), if_neg (by rw [hw]; decide), if_neg (by decide), if_pos rfl]

theorem ownAnswer_done (time expiry : Nat) : ownAnswer s k home 5 time expiry = s.modBundle k.id fun k => k.ack home := by
  unfold ownAnswer
  rw [if_neg (by decide), if_neg (by rw [hw]; decide), if_neg (by decide), if_neg (by decide), if_pos rfl]

end

theorem answeredLine_spec {q : PendLine} (hq : q ∈ s.pendLines.map (answeredLine s k home)) (hb : q.bun = k.id)
    (hh : homeOfLine s q.line = home) : q.state = .prepared s.time := by
  obtain ⟨p, -, rfl⟩ := List.mem_map.mp hq
  unfold answeredLine at hb hh ⊢
  split
  · rfl
  · next h =>
    rw [if_neg h] at hb hh
    exact absurd ⟨hb, hh⟩ h

/-! A version is installed (R425). -/

/-- A committed version whose time has come, with its time. -/
def dueLine (s : State) (line : Nat) (p : PendLine) : Option (PendLine × Nat) :=
  match p.state with
  | .committed tc => if p.line = line ∧ tc ≤ s.time then some (p, tc) else none
  | _ => none

theorem dueLine_spec {p q : PendLine} {tc : Nat} (h : dueLine s line p = some (q, tc)) :
    q = p ∧ p.line = line ∧ p.state = .committed tc ∧ tc ≤ s.time := by
  unfold dueLine at h
  split at h
  · next x hx =>
    split at h
    · next hc =>
      cases h
      exact ⟨rfl, hc.1, hx, hc.2⟩
    · exact absurd h (by simp)
  · exact absurd h (by simp)

theorem dueLine_of {p : PendLine} {tc : Nat} (hl : p.line = line) (hs : p.state = .committed tc) (ht : tc ≤ s.time) :
    dueLine s line p = some (p, tc) := by
  unfold dueLine
  rw [hs]
  exact if_pos ⟨hl, ht⟩

theorem bundleInstall_none (h : ∀ q ∈ s.pendLines, q.line = line → ∀ x, q.state = .committed x → s.time < x) : bundleInstall s line = s := by
  have hnone : s.pendLines.findSome? (dueLine s line) = none := by
    rw [List.findSome?_eq_none_iff]
    intro q hq
    cases hd : dueLine s line q with
    | none => rfl
    | some r =>
      obtain ⟨-, hl, hs, ht⟩ := dueLine_spec (q := r.1) (tc := r.2) hd
      exact absurd ht (Nat.not_le.mpr (h q hq hl _ hs))
  unfold bundleInstall
  extract_lets due
  rw [show s.pendLines.findSome? due = none from hnone]

theorem bundleInstall_due {p : PendLine} {tc : Nat} (hp : p ∈ s.pendLines) (hl : p.line = line) (hs : p.state = .committed tc)
    (ht : tc ≤ s.time) (hone : ∀ q ∈ s.pendLines, q.line = line → q ≠ p → ∀ x, q.state ≠ .committed x) :
    bundleInstall s line = installLine s p tc := by
  have hsome : s.pendLines.findSome? (dueLine s line) = some (p, tc) := by
    cases hd : s.pendLines.findSome? (dueLine s line) with
    | none =>
      rw [List.findSome?_eq_none_iff] at hd
      exact absurd (hd p hp) (by rw [dueLine_of hl hs ht]; simp)
    | some r =>
      obtain ⟨q, hq, hqd⟩ := List.exists_of_findSome?_eq_some hd
      obtain ⟨hr, hql, hqs, -⟩ := dueLine_spec (q := r.1) (tc := r.2) hqd
      have hqp : q = p := by
        by_contra hne
        exact hone q hq hql hne _ hqs
      rw [hqp] at hr hqs
      rw [hs] at hqs
      have htc : tc = r.2 := PendState.committed.inj hqs
      exact congrArg some (Prod.ext hr htc.symm)
  unfold bundleInstall
  extract_lets due
  rw [show s.pendLines.findSome? due = some (p, tc) from hsome]

/-- The place through which a version is installed: its line's, under the interleave of its page. -/
def installPlace (s : State) (p : PendLine) : Phys := { linePhys p.line p.key with ilv := ((findLeaf s p.ctx p.va.toNat).map Tr.ilv).getD 2 }

/-- The home's line with the version's bytes laid over it. -/
def installed (s : State) (p : PendLine) : List Byte := lineBytes (overlay (homeLine s (installPlace s p)).1 p.data p.mask) 0 128

/-- The state in which the version's bytes stand at the home. -/
def installedState (s : State) (p : PendLine) : State :=
  let w := homeWrite s (installPlace s p) p.ctx (installed s p) false
  l1DropLine (if p.mask = BitVec.allOnes 128 then clearPoison w (installPlace s p) else w) (locDie (installPlace s p).loc) p.line

theorem clearPoison_rest (s : State) (p : Phys) : OnlyMem s (clearPoison s p) := by
  unfold clearPoison
  extract_lets s1
  have h1 : OnlyMem s s1 := .set_lines s _
  exact .ite h1 (h1.trans (setMPoison_onlyMem _ _ _))

theorem installedState_onlyMem (s : State) (p : PendLine) : OnlyMem s (installedState s p) := by
  have hw := homeWrite_onlyMem s (installPlace s p) p.ctx (installed s p) false .normal
  exact OnlyMem.trans (.ite (hw.trans (clearPoison_rest _ _)) hw) (l1Drop_onlyMem _ _)

theorem OnlyMem.versions {s t : State} (h : OnlyMem s t) : t.versions = s.versions := by rw [h.frame]
theorem OnlyMem.pendLines {s t : State} (h : OnlyMem s t) : t.pendLines = s.pendLines := by rw [h.frame]

/-- A write of poison alone changes no value. -/
theorem clearPoison_value (s : State) (p q : Phys) : (homeLine (clearPoison s p) q).1 = (homeLine s q).1 := by
  have hmap : ∀ l, homeCopy? { s with lines := s.lines.map fun c => if c.line = p.line ∧ c.stamp.isNone then { c with poison := false } else c } l =
      (homeCopy? s l).map fun c => if c.line = p.line ∧ c.stamp.isNone then { c with poison := false } else c := by
    intro l
    refine find?_map_of_keeps _ fun c _ => ?_
    split <;> rfl
  have hset : (homeLine { s with lines := s.lines.map fun c =>
      if c.line = p.line ∧ c.stamp.isNone then { c with poison := false } else c } q).1 = (homeLine s q).1 := by
    refine value_congr (fun _ => ?_) rfl
    rw [hmap, Option.map_map]
    refine Option.map_congr fun c _ => ?_
    simp only [Function.comp]
    split <;> rfl
  unfold clearPoison
  extract_lets s1
  split
  · exact hset
  · have hp : SameHomes s1 (setMPoison s1 p.line false) := ⟨rfl, rfl, rfl, rfl⟩
    exact (hp.value q).trans hset

theorem installLine_spec (s : State) (p : PendLine) (tc : Nat) :
    (installLine s p tc).pendLines = s.pendLines.erase p ∧
    (installLine s p tc).versions = s.versions.filter (fun v => v.line != p.line) ++
      [⟨p.line, tc, p.bun, some ((homeLine s (installPlace s p)).1, (homeLine s (installPlace s p)).2,
        (((version? s p.line).map fun v => (v.curTc, v.man)).getD (0, 0)).1, (((version? s p.line).map fun v => (v.curTc, v.man)).getD (0, 0)).2)⟩] ∧
    SameHomes (installedState s p) (installLine s p tc) := by
  have hmem := installedState_onlyMem s p
  refine ⟨?_, ?_, ⟨rfl, rfl, rfl, rfl⟩⟩
  · change (installedState s p).pendLines.erase p = _
    rw [hmem.pendLines]
  · change (installedState s p).versions.filter (fun v => v.line != p.line) ++ _ = _
    rw [hmem.versions]
    rfl

/-- What the installed version keeps of the one before it. -/
def installedVersion (s : State) (p : PendLine) (tc : Nat) (old : LineData × Bool) : Version :=
  ⟨p.line, tc, p.bun, some (old.1, old.2, ((version? s p.line).map Version.curTc).getD 0, ((version? s p.line).map Version.man).getD 0)⟩

theorem installLine_version (s : State) (p : PendLine) (tc : Nat) :
    version? (installLine s p tc) p.line = some (installedVersion s p tc (homeLine s (installPlace s p))) := by
  obtain ⟨-, hver, -⟩ := installLine_spec s p tc
  have hother : (s.versions.filter fun v => v.line != p.line).find? (fun v => v.line == p.line) = none := by
    rw [List.find?_eq_none]
    intro v hv
    simpa using (List.mem_filter.mp hv).2
  unfold version?
  rw [hver, List.find?_append, hother, Option.none_or, List.find?_cons, beq_self_eq_true]
  unfold installedVersion
  cases version? s p.line <;> rfl

theorem lineByte_packLine (l : List Byte) {i : Nat} (hi : i < 128) : lineByte (packLine l) i = l.getD i 0 := by
  apply BitVec.eq_of_getLsbD_eq
  intro k hk
  have h1024 : 8 * i + k < 1024 := by omega
  have hdiv : (8 * i + k) / 8 = i := by omega
  have hmod : (8 * i + k) % 8 = k := by omega
  rw [lineByte_getLsbD, packLine, BitVec.getLsbD_ofNat, leNat_testBit, hdiv, hmod]
  simp [hk, h1024]

theorem lineByte_overlay (a b : LineData) (mask : BitVec 128) {i : Nat} (hi : i < 128) :
    lineByte (overlay a b mask) i = if mask.getLsbD i then lineByte b i else lineByte a i := by
  rw [overlay, lineByte_packLine _ hi]
  simp [hi]

/-- A line of this module's memory reads the version's bytes, and its own where the version has none. -/
theorem installLine_bytes (s : State) (p : PendLine) (tc : Nat) (h : bitsOf (128 * p.line) 51 51 = 0) {i : Nat} (hi : i < 128) :
    lineByte (homeLine (installLine s p tc) (linePhys p.line p.key)).1 i =
      if p.mask.getLsbD i then lineByte p.data i else lineByte (homeLine s (linePhys p.line p.key)).1 i := by
  obtain ⟨-, -, hsame⟩ := installLine_spec s p tc
  have hph : linePhys p.line p.key = ⟨.own, 128 * p.line, p.key, false, 2⟩ := if_neg (by omega)
  have hkind : (installPlace s p).kind = .own := by unfold installPlace; rw [hph]
  have hloc : (installPlace s p).loc = 128 * p.line := by unfold installPlace; rw [hph]
  have hline : (linePhys p.line p.key).line = (installPlace s p).line := by unfold Phys.line installPlace; rw [hph]
  have hcur : homeLine s (linePhys p.line p.key) = homeLine s (installPlace s p) := by
    unfold installPlace
    rw [hph]
    rfl
  have hown : (linePhys p.line p.key).kind = .own := by rw [hph]
  have hw : (homeLine (installedState s p) (linePhys p.line p.key)).1 =
      spliceLine (homeLine s (installPlace s p)).1 ((installPlace s p).loc % 128) (installed s p) := by
    unfold installedState
    extract_lets w
    have hdrop : ∀ x : State, (homeLine (l1DropLine x (locDie (installPlace s p).loc) p.line) (linePhys p.line p.key)).1 =
        (homeLine x (linePhys p.line p.key)).1 := fun x => (l1Drop_sameHomes ..).value _
    have hvalue := homeWrite_own_value (q := linePhys p.line p.key) s (installPlace s p) p.ctx (installed s p) false .normal hkind
      fun hne => absurd hown hne
    rw [if_pos hline] at hvalue
    rw [hdrop]
    split
    · rw [clearPoison_value]
      exact hvalue
    · exact hvalue
  have hlen : (installed s p).length = 128 := lineBytes_length ..
  have hzero : (installPlace s p).loc % 128 = 0 := by rw [hloc]; omega
  rw [hsame.value, hw, hzero, lineByte_spliceLine _ hi, if_pos (by omega), Nat.sub_zero, installed, lineBytes_getD _ _ hi,
    Nat.zero_add, lineByte_overlay _ _ _ hi, hcur]

/-! A bundle ends (R417, R426, R435). -/

theorem all_acked (h : ∀ x ∈ k.homes, x ∈ k.acked) : (k.homes.all fun x => k.acked.contains x) = true := by
  simpa using h

theorem bundleOutcome_installed (hph : k.phase = .chosen) (hall : ∀ h ∈ k.homes, h ∈ k.acked)
    (hnone : ∀ q ∈ s.pendLines, q.bun ≠ k.id) (ht : max k.tc k.expiry + (if k.remote then Config.skew else 0) < s.time) :
    bundleOutcome s k = some (1, if k.lost then some 0x40 else none) := by
  have hno : (s.pendLines.any fun p => p.bun == k.id) = false := by simpa using hnone
  unfold bundleOutcome
  simp only [hph, all_acked hall, hno, decide_eq_true ht]
  rfl

theorem bundleOutcome_early (hph : k.phase = .chosen) (ht : s.time ≤ max k.tc k.expiry) : bundleOutcome s k = none := by
  have hnot : ¬ max k.tc k.expiry + (if k.remote then Config.skew else 0) < s.time := by omega
  unfold bundleOutcome
  simp only [hph, decide_eq_false hnot]
  simp

theorem bundleOutcome_aborted {full : Bool} (hph : k.phase = .aborting full) (hall : ∀ h ∈ k.homes, h ∈ k.acked) :
    bundleOutcome s k = some (if full then (2, some 0x40) else (3, none)) := by
  unfold bundleOutcome
  simp only [hph, all_acked hall]
  rfl

theorem bundleRetire_outcome {st : Nat} {err : Option Nat} {b : Block} (hk : s.bundle? bun = some k) (hdev : k.dev = devId s)
    (ho : bundleOutcome s k = some (st, err)) (hb : s.blockAt? k.q k.lseq k.idx = some b) (hr : s.block? b.bid = some b) :
    ∃ s1 lines, s1.blocks = s.blocks ∧ s1.bundles = (freeBundle s k).bundles ∧ s1.quars = (freeBundle s k).quars ∧
      bundleRetire s bun = wakeLimits (finishOp ((ackLines s1 b.bid k.team lines).modTeam b.bid k.team fun t =>
        (setBstat t k.slot st).setSlot k.slot noSlot) b.bid k.team k.op 5 err) b.bid := by
  have hnote : ∀ (x : State) (src inst n v : Nat), (noteSample x src inst n v).blocks = x.blocks ∧
      (noteSample x src inst n v).bundles = x.bundles ∧ (noteSample x src inst n v).quars = x.quars := by
    intro x src inst n v
    unfold noteSample
    generalize (List.range 64).filter (fun m => monOn x m src inst) = ms
    induction ms generalizing x with
    | nil => exact ⟨rfl, rfl, rfl⟩
    | cons m ms ih =>
      obtain ⟨h1, h2, h3⟩ := ih (setMon x m ((monOf x m).add n v))
      exact ⟨h1, h2, h3⟩
  have hat : ∀ f : State → State, atBlock (freeBundle s k) b.bid f = f (freeBundle s k) := by
    intro f
    have hfree : (freeBundle s k).block? b.bid = some b := hr
    unfold atBlock
    rw [hfree]
  simp only [bundleRetire, hk, ho, hb]
  rw [if_neg (by rw [hdev]; exact fun h => h rfl), hat]
  obtain ⟨h1, h2, h3⟩ := hnote (freeBundle s k) 0x07 0 1 ((freeBundle s k).time - k.since)
  by_cases h : st = 3
  · rw [if_pos h]
    exact ⟨freeBundle s k, _, rfl, rfl, rfl, rfl⟩
  · rw [if_neg h]
    exact ⟨_, _, h1, h2, h3, rfl⟩

theorem setBstat_bits (v : Team) {n st : Nat} (hn : n < 4) (hst : st < 8) :
    bitsOf (setBstat v n st).bstat.toNat (54 + 3 * n) (52 + 3 * n) = st := by
  have hbit : ∀ j, j < 3 → (setBstat v n st).bstat.getLsbD (52 + 3 * n + j) = st.testBit j := by
    intro j hj
    have h64 : 52 + 3 * n + j < 64 := by omega
    have hsub : 52 + 3 * n + j - (52 + 3 * n) = j := by omega
    have hseven : (7 : Nat).testBit j = true := by
      rw [show (7 : Nat) = 2 ^ 3 - 1 from rfl, Nat.testBit_two_pow_sub_one]
      exact decide_eq_true hj
    unfold setBstat
    extract_lets sh
    rw [BitVec.getLsbD_or, BitVec.getLsbD_and, BitVec.getLsbD_not, w64, w64, BitVec.getLsbD_ofNat, BitVec.getLsbD_ofNat,
      Nat.testBit_mul_two_pow, Nat.testBit_mul_two_pow]
    simp only [sh, hsub, hseven]
    simp [h64]
  have hwidth : 54 + 3 * n + 1 - (52 + 3 * n) = 3 := by omega
  apply Nat.eq_of_testBit_eq
  intro j
  rw [bitsOf, hwidth, Nat.testBit_mod_two_pow, Nat.testBit_div_two_pow]
  by_cases hj : j < 3
  · rw [decide_eq_true hj, Bool.true_and, Nat.add_comm j]
    exact hbit j hj
  · have hout : st.testBit j = false := Nat.testBit_lt_two_pow (Nat.lt_of_lt_of_le hst (Nat.pow_le_pow_right (Nat.zero_lt_two) (by omega : 3 ≤ j)))
    rw [hout, decide_eq_false hj, Bool.false_and]

/-- A bundle's end: it is gone, its tag in quarantine, its operation retired, its slot free and its status in `%bstat`. -/
structure BundleEnded (s t : State) (k : Bundle) (bid st : Nat) (err : Option Nat) : Prop where
  gone : ∀ j ∈ t.bundles, j.id ≠ k.id
  quar : ∃ x ∈ t.quars, x.ctx = k.ctx ∧ x.id = k.tag ∧ x.bundle = true ∧ x.until_ = s.time + Config.drainHorizon
  retired : Retired s t bid k.team k.op 5 err
  slot : ∀ u, s.team? bid k.team = some u → u.live ≠ 0 → k.slot < 4 → ∃ u', t.team? bid k.team = some u' ∧ u'.slot k.slot = noSlot ∧
    bitsOf u'.bstat.toNat (54 + 3 * k.slot) (52 + 3 * k.slot) = st

theorem setSlot_slot (v : Team) (n : Nat) : (v.setSlot n noSlot).slot n = noSlot := by
  unfold Team.slot Team.setSlot
  by_cases h : n < v.slots.length
  · rw [List.getD_eq_getElem _ _ (by simpa using h), List.getElem_set_self]
  · rw [List.getD_eq_getElem?_getD, List.getElem?_eq_none (by simpa using h)]
    rfl

theorem wakeLimits_team {bid ti : Nat} {v : Team} (h : s.team? bid ti = some v) :
    (wakeLimits s bid).team? bid ti = some (v.wake Wait.isLimit s.time) := by
  have hb := State.block?_modBlock s bid bid (Block.wake Wait.isLimit s.time) fun _ => rfl
  unfold State.team? at h ⊢
  unfold wakeLimits
  extract_lets now
  rw [hb]
  cases hblk : s.block? bid with
  | none => rw [hblk] at h; exact absurd h (by simp)
  | some b =>
    rw [hblk] at h
    rw [Option.map_some, if_pos rfl]
    exact (find?_map_of_keeps (g := Team.wake Wait.isLimit s.time) b.teams fun _ _ => rfl).trans
      (congrArg (Option.map (Team.wake Wait.isLimit s.time)) h)

theorem bundleEnded {st : Nat} {err : Option Nat} {b : Block} (hk : s.bundle? bun = some k) (hdev : k.dev = devId s)
    (ho : bundleOutcome s k = some (st, err)) (hst : st < 8) (hb : s.blockAt? k.q k.lseq k.idx = some b) (hr : s.block? b.bid = some b) :
    BundleEnded s (bundleRetire s bun) k b.bid st err := by
  obtain ⟨s1, lines, hblocks, hbundles, hquars, hrun⟩ := bundleRetire_outcome hk hdev ho hb hr
  rw [hrun]
  let s2 := (ackLines s1 b.bid k.team lines).modTeam b.bid k.team fun t => (setBstat t k.slot st).setSlot k.slot noSlot
  have h2 : Leaves s1 s2 := ((answered_leaves s1 lines 0).trans (modTeam_leaves ..)).trans (modTeam_leaves ..)
  have h3 : Leaves s1 (finishOp s2 b.bid k.team k.op 5 err) := h2.trans (finishOp_leaves ..)
  have h4 : Leaves s1 (wakeLimits (finishOp s2 b.bid k.team k.op 5 err) b.bid) := h3.trans (.of_blocks _ _)
  have hteam : ∀ u, s.team? b.bid k.team = some u → u.live ≠ 0 → ∃ g now,
      (wakeLimits (finishOp s2 b.bid k.team k.op 5 err) b.bid).team? b.bid k.team = some
        ((retiredTeam now 5 (markFin k.op err ((setBstat { u with gwct := g } k.slot st).setSlot k.slot noSlot))).wake Wait.isLimit
          (finishOp s2 b.bid k.team k.op 5 err).time) := by
    intro u hu hl
    have hu1 : (answered s1 lines 0).2.team? b.bid k.team = some u :=
      (team?_of_blocks ((answered_blocks s1 lines 0).trans hblocks) _ _).trans hu
    have hu2 : s2.team? b.bid k.team =
        some ((setBstat { u with gwct := max u.gwct (answered s1 lines 0).1 } k.slot st).setSlot k.slot noSlot) :=
      team?_modTeam_same (team?_modTeam_same hu1 (f := fun t => { t with gwct := max t.gwct (answered s1 lines 0).1 }) fun _ => rfl)
        (f := fun t => (setBstat t k.slot st).setSlot k.slot noSlot) fun _ => rfl
    exact ⟨_, _, wakeLimits_team (finishOp_team k.op 5 err hu2 hl)⟩
  refine ⟨fun j hj => ?_, ⟨⟨k.ctx, k.tag, true, s.time + Config.drainHorizon⟩, h4.keeps_quar ?_, rfl, rfl, rfl, rfl⟩, ?_, ?_⟩
  · rw [h4.bundles, hbundles] at hj
    simpa using (List.mem_filter.mp hj).2
  · rw [hquars]
    exact List.mem_append_right _ (List.mem_singleton_self _)
  · refine Retired.of_retiredTo fun u hu hl => ?_
    obtain ⟨g, now, ht⟩ := hteam u hu hl
    exact ⟨_, _, ht, (retiredTo_retiredTeam ..).wake _ _, rfl, rfl, rfl, rfl, rfl⟩
  · intro u hu hl hslot
    obtain ⟨g, now, ht⟩ := hteam u hu hl
    exact ⟨_, ht, setSlot_slot .., setBstat_bits _ hslot hst⟩

end Sys2Proof.Machine

open Sys2Proof Sys2Proof.Machine

/-- Settles O50: each move of a bundle is followed through its pending lines, its record and, at its end, its team. -/
theorem bundleEvents : Obligations.BundleEvents := by
  unfold Obligations.BundleEvents
  intro s bun home line tc i kind time expiry k p b v full n man now mine at_ becomes pays fresh used near due turn far port asks waits others
    leaves block
  refine ⟨?_, ?_, ?_, ?_, ?_, ?_, ?_, ?_, ?_, ?_, ?_, ?_, ?_, ?_, ?_⟩
  · rintro ⟨⟨⟨hk, hdev⟩, hph, hnext, hstbs, hasked⟩, hlost, hnear⟩ hbusy
    refine congrArg Host.Outcome.next ?_
    rw [bundlePrepare_due hk hdev hph hnext hstbs hasked, if_neg (by rw [hlost]; decide), if_neg (by rw [hnear]; decide),
      prepHome_wait hbusy]
  · rintro ⟨⟨⟨hk, hdev⟩, hph, hnext, hstbs, hasked⟩, hlost, hnear⟩ hfree hroom
    obtain ⟨ex, remote, hdone⟩ := prepHome_done hfree hroom
    have hrun : bundlePrepare s bun home = (prepState s bun home).modBundle bun fun k =>
        k.answered home (newestOf s (bunLines s bun home)) ex remote := by
      rw [bundlePrepare_due hk hdev hph hnext hstbs hasked, if_neg (by rw [hlost]; decide), if_neg (by rw [hnear]; decide), hdone]
    have hb := bundle?_modBundle (s := prepState s bun home) (k := k) hk
      (f := fun k => k.answered home (newestOf s (bunLines s bun home)) ex remote) fun _ => rfl
    refine ⟨_, congrArg Host.Outcome.next hrun, ⟨_, hb, hph, rfl, Nat.le_max_left .., fun q hq hat w hw => ?_⟩, fun q hq hqb hqh =>
      prepState_lines hq hqb hqh⟩
    exact (newestOf_ge (mem_bunLines.mpr ⟨hq, hat⟩) hw).trans (Nat.le_max_right ..)
  · rintro ⟨⟨⟨hk, hdev⟩, hph, hnext, hstbs, hasked⟩, hlost, hnear⟩ hfree hroom
    have hrun : bundlePrepare s bun home = s.modBundle bun Bundle.giveUp := by
      rw [bundlePrepare_due hk hdev hph hnext hstbs hasked, if_neg (by rw [hlost]; decide), if_neg (by rw [hnear]; decide),
        prepHome_full hfree hroom]
    exact ⟨_, congrArg Host.Outcome.next hrun, _, bundle?_modBundle hk fun _ => rfl, rfl, rfl⟩
  · rintro ⟨⟨hk, hdev⟩, hph, hnext, hstbs, hasked⟩ hlost
    have hrun : bundlePrepare s bun home = s.modBundle bun Bundle.giveUp := by
      rw [bundlePrepare_due hk hdev hph hnext hstbs hasked, if_pos hlost]
    exact ⟨_, congrArg Host.Outcome.next hrun, _, bundle?_modBundle hk fun _ => rfl, rfl, rfl⟩
  · rintro ⟨⟨hk, hdev⟩, hph, hnext, hstbs, hasked⟩ hlost ⟨hfar, hports⟩
    have hman : (manifestOf s k 0).lines = (s.pendLines.filter fun q => q.bun == k.id).map fun q => (q.va, q.line) := if_pos hdev
    have hrun : bundlePrepare s bun home = ({ s with out := s.out ++ [.net (home / 8) port
        (k.msg home 0 0 ((s.pendLines.filter fun q => q.bun == k.id).map fun q => (q.va, q.line)))] } : State).modBundle bun fun j =>
          { j with asked := j.asked ++ [(home, port)] } := by
      rw [bundlePrepare_due hk hdev hph hnext hstbs hasked, if_neg (by rw [hlost]; decide), if_pos hfar, toHome_reached _ _ hports, hman]
    exact ⟨_, congrArg Host.Outcome.next hrun, rfl, rfl, _, bundle?_modBundle (s := { s with out := _ }) hk
      (f := fun j => { j with asked := j.asked ++ [(home, port)] }) fun _ => rfl, rfl, rfl, rfl⟩
  · rintro ⟨hk, hdev⟩ hph hhomes hnext
    have hrun : bundleChoose s bun = ({ s with manifests := s.manifests ++
        [manifestOf s k (max (s.time + Config.dmax) (k.newest + 1))] } : State).modBundle bun fun j =>
          { j with phase := .chosen, tc := max (s.time + Config.dmax) (k.newest + 1) } := by
      unfold bundleChoose
      simp only [hk]
      rw [if_neg (by simp [hdev, hph, hhomes, hnext])]
    refine ⟨_, congrArg Host.Outcome.next hrun, ⟨_, bundle?_modBundle (s := { s with manifests := _ }) hk
      (f := fun j => { j with phase := .chosen, tc := max (s.time + Config.dmax) (k.newest + 1) }) fun _ => rfl, rfl, rfl⟩,
      _, List.mem_append_right _ (List.mem_singleton_self _), bundle?_id hk, rfl, rfl, rfl, ?_⟩
    rw [← bundle?_id hk]
    exact if_pos hdev
  · rintro ⟨hk, hdev⟩ hph ⟨hm, hna, hw⟩
    obtain ⟨hb, ho, hpend, hr, hp⟩ := commitHome_spec s bun home k.tc
    obtain ⟨hnear, hfar⟩ := tell_spec hk hb ho hr hp 3 k.tc
    refine ⟨_, congrArg Host.Outcome.next (bundleCommitMessage_due hk hdev hph hm hna hw), hnear, hfar, fun q hq hqb hqh => ?_⟩
    rw [tell_pendLines, hpend] at hq
    exact commitLine_spec hq hqb hqh
  · rintro ⟨hk, hdev⟩ hph ⟨hm, hna, hw⟩ hstbs
    obtain ⟨hnear, hfar⟩ := tell_spec (u := abortHome s bun home) (home := home) hk rfl rfl rfl (fun _ => rfl) 4 0
    refine ⟨_, congrArg Host.Outcome.next (bundleAbortMessage_due hk hdev hph hm hna hw hstbs), hnear, hfar, fun q => ?_⟩
    rw [tell_pendLines]
    exact mem_abortHome q
  · rintro hi hm hf ⟨hk, -⟩ hw
    let s1 : State := { s with inNet := s.inNet.eraseIdx i }
    have hrun := podRequest_own hi hm hf
    have hk1 : s1.bundle? bun = some k := hk
    have hid := bundle?_id hk
    refine ⟨_, congrArg Host.Outcome.next hrun, ownAnswer_inNet .., ?_, ?_, ?_⟩
    · rintro rfl
      rw [ownAnswer_prepared hw, hid]
      refine ⟨fun q hq hqb hqh => ?_, _, bundle?_modBundle (s := { s1 with pendLines := _ }) hk1
        (f := fun j => j.answered home (if time = 0 then 0 else widenTime s1.time time) expiry true) fun _ => rfl, rfl, rfl, rfl⟩
      exact answeredLine_spec (s := s1) hq (hqb.trans hid.symm) hqh
    · rintro rfl
      rw [ownAnswer_full hw, hid]
      exact ⟨_, bundle?_modBundle hk1 fun _ => rfl, rfl, rfl⟩
    · rintro rfl
      rw [ownAnswer_done hw, hid]
      exact ⟨_, bundle?_modBundle hk1 (f := fun j => j.ack home) fun _ => rfl, rfl⟩
  · exact fun h => congrArg Host.Outcome.next (bundleInstall_none h)
  · intro hp hl hs ht hone place old
    subst hl
    have hrun := bundleInstall_due hp rfl hs ht hone
    obtain ⟨hpend, -, -⟩ := installLine_spec s p tc
    have hold : homeLine s (installPlace s p) = homeLine s place := by
      simp only [homeLine, memLine, installPlace]
      rfl
    have hver := installLine_version s p tc
    rw [hold] at hver
    exact ⟨_, congrArg Host.Outcome.next hrun, hpend, ⟨_, hver, rfl, rfl, rfl⟩, fun h51 _ j hj => installLine_bytes s p tc h51 hj⟩
  · rintro ⟨hk, hdev⟩ hph hall hnone ht ⟨hb, hr⟩
    have hid := bundle?_id hk
    have hend := bundleEnded hk hdev (bundleOutcome_installed hph hall (by rw [hid]; exact hnone) ht) (by decide) hb hr
    exact ⟨_, rfl, fun j hj => by rw [← hid]; exact hend.gone j hj, hend.quar, hend.retired, hend.slot⟩
  · rintro ⟨hk, hdev⟩ hph hall ⟨hb, hr⟩
    have hid := bundle?_id hk
    have ho := bundleOutcome_aborted (s := s) hph hall
    cases full with
    | true =>
      have hend := bundleEnded hk hdev ho (by decide) hb hr
      exact ⟨_, rfl, fun j hj => by rw [← hid]; exact hend.gone j hj, hend.quar, hend.retired, hend.slot⟩
    | false =>
      have hend := bundleEnded hk hdev ho (by decide) hb hr
      exact ⟨_, rfl, fun j hj => by rw [← hid]; exact hend.gone j hj, hend.quar, hend.retired, hend.slot⟩
  · rintro ⟨hk, hdev⟩ hph hle
    refine congrArg Host.Outcome.next ?_
    simp only [bundleRetire, hk, bundleOutcome_early hph hle]
    split <;> rfl
  · intro hv
    refine ⟨fun h => congrArg Host.Outcome.next ?_, fun hp ht => ?_⟩
    · simp only [versionReclaim, hv]
      refine if_pos ?_
      rcases h with h | h
      · rw [h]; rfl
      · rw [decide_eq_true h, Bool.or_true]
    · have hrun : versionReclaim s line = { s with versions := s.versions.filter fun w => w.line != line } := by
        simp only [versionReclaim, hv]
        refine if_neg ?_
        rw [hp, decide_eq_false (Nat.not_le.mpr ht)]
        decide
      refine ⟨_, congrArg Host.Outcome.next hrun, ?_, fun l hl => ?_⟩
      · rw [version?, List.find?_eq_none]
        intro w hw
        simpa using (List.mem_filter.mp hw).2
      · refine find?_filter_of_imp _ fun w hw => ?_
        rw [beq_iff_eq.mp hw]
        exact bne_iff_ne.mpr hl

end

section
/-! What an access of memory comes to: its causes, before any effect (R205). -/

namespace Sys2Proof.Machine

section
variable {c : Ctx} {f : Form} {s : State} {e : Env} {iss : Iss}

theorem afterRel_none {rel : Bool} {sc : Scope} (h : c.relHold rel sc = none) (r : Res) : c.afterRel rel sc r = r := by
  simp only [Ctx.afterRel, h]

theorem afterRel_some {rel : Bool} {sc : Scope} {w : Wait} (h : c.relHold rel sc = some w) (r : Res) :
    c.afterRel rel sc r = .hold w := by
  simp only [Ctx.afterRel, h]

theorem access_bad {ls : List Nat} {ea : Nat → Nat} {n need : Nat} {extra : Nat → Target → Option Nat} {bad : AccFail}
    (h : firstBad (c.resolveLanes ls ea n need extra) [] = some bad) (act : List Acc → Res) :
    c.access ls ea n need extra act = failRes bad := by
  simp only [Ctx.access, h]

theorem access_good {ls : List Nat} {ea : Nat → Nat} {n need : Nat} {extra : Nat → Target → Option Nat}
    (h : firstBad (c.resolveLanes ls ea n need extra) [] = none) (act : List Acc → Res) :
    c.access ls ea n need extra act = act (goodAccs (c.resolveLanes ls ea n need extra)) := by
  simp only [Ctx.access, h]

/-- What a load comes to outside probe mode. -/
theorem load_calm (hp : c.e.probing = false) (mc : MemCtl) (sx gen : Bool) (d a b : Opnd) (ls : List Nat) :
    c.load mc sx gen d a b ls =
      c.access ls (c.ea gen a b) (sizeBytes mc.size) 0 (c.poisonAt (sizeBytes mc.size)) fun accs =>
        let r := c.readLanes c.s mc.cache (sizeBytes mc.size) (loadVal mc.size sx) accs
        .done (c.acquires mc.order mc.scope (c.noteHost d (sizeRegs mc.size) accs
          (c.putOn ls d (sizeRegs mc.size) (fun l => if opIsS d then laneVal r.1 (ls.headD 0) else laneVal r.1 l) r.2))) :=
  if_neg (by simp [hp])

/-- What a store that need not wait comes to outside probe mode. -/
theorem store_calm (hp : c.e.probing = false) {mc : MemCtl} (hrel : c.relHold (orderRel mc.order) mc.scope = none)
    (gen : Bool) (a b x : Opnd) :
    c.store mc gen a b x =
      c.access c.lanes (c.ea gen a b) (sizeBytes mc.size) 1 noExtra fun accs =>
        .done (c.storeLanes mc.cache (sizeBytes mc.size) (fun l => c.rdN 2 x (sizeRegs mc.size) l) accs c.s) :=
  (if_neg (by simp [hp])).trans (afterRel_none hrel _)

theorem Runs.begun_calm (hr : Runs f iss s e c) : (c.begun f e iss).e.probing = false := by
  show c.e.probing = false
  rw [hr.ctx.1]
  exact hr.calm

/-- An instruction whose first bad lane meets a cause takes it, as a trap or as a missing translation. -/
theorem fail_effect {ins : Instr} {eff : Ctx → Res} {cause ea l : Nat} (hr : Runs f iss s e c) (hx : exec ins s = issueForm f iss eff s)
    (he : eff (c.begun f e iss) = failRes (cause, ea, l)) :
    exec ins s = .next (if cause = cXLATE then takeMiss e (w64 ea) l iss.ilen else takeTrap e cause (w64 ea) l iss.ilen) := by
  rw [hx, hr.next eff, he, failRes]
  split <;> rfl

end

end Sys2Proof.Machine

open Sys2Proof Sys2Proof.Machine

/-- Settles O16: the checks over every lane stand before the effect of a load and of a store, and what they find is what the
instruction comes to. -/
theorem accessCausesAreTaken : Obligations.AccessCausesAreTaken := by
  unfold Obligations.AccessCausesAreTaken
  intro h mc sx gen d a b x s e c cause ea l
  refine ⟨fun hr hbad => ?_, fun hr hrel hbad => ?_⟩
  · have he := (load_calm hr.begun_calm mc sx gen d a b c.lanes).trans
      (access_bad (c := c.begun (loadForm gen true .vec (sizeRegs mc.size) d a b) e (issOf h)) hbad _)
    cases gen with
    | true => exact fail_effect (eff := (opLd mc sx d a b).eff) hr rfl he
    | false => exact fail_effect (eff := (opLds mc sx d a b).eff) hr rfl he
  · have he := (store_calm hr.begun_calm (mc := mc) hrel gen a b x).trans
      (access_bad (c := c.begun (storeForm gen true (sizeRegs mc.size) a b x) e (issOf h)) (ls := c.lanes)
        (ea := c.ea gen a b) (extra := noExtra) hbad _)
    cases gen with
    | true => exact fail_effect (eff := (opSt mc a b x).eff) hr rfl he
    | false => exact fail_effect (eff := (opSts mc a b x).eff) hr rfl he

end

section
/-! Entering an engine (R17): what an instruction that becomes an operation of an engine leaves of its team and its block. -/

namespace Sys2Proof.Machine

section
variable {ins : Instr} {iss : Iss} {s s' : State} {e : Env} {c : Ctx} {f : Form} {eff : Ctx → Res} {cls : Nat}

/-- An instruction that does not issue yet changes nothing but how its record waits. -/
theorem hold_effect {w : Wait} (hr : Runs f iss s e c) (hx : exec ins s = issueForm f iss eff s)
    (he : eff (c.begun f e iss) = .hold w) : exec ins s = .next (holdAs w e.who s) := by
  rw [hx, hr.next eff, he, ← (getEnv_spec hr.env).1]
  rfl

/-- AN INSTRUCTION ON ITS BLOCK AND TEAM: what follows the effect changes of the block the issuing team alone, and ends its issue. -/
theorem done_block {B : Block} {u : Team} (hr : Runs f iss s e c) (hx : exec ins s = issueForm f iss eff s)
    (he : eff (c.begun f e iss) = .done s') (htime : s'.time = s.time) (hB : s'.block? e.who.bid = some B)
    (hu : B.team? e.who.team = some u) :
    ∃ t ts, exec ins s = .next t ∧ t = { s' with blocks := t.blocks } ∧ t.block? e.who.bid = some { B with teams := ts } ∧
      ({ B with teams := ts } : Block).team? e.who.team = some (u.ended [(f, c.begun f e iss)] s.time) ∧
      ∀ b, b ≠ e.who.bid → t.block? b = s'.block? b := by
  let E : Team → Team := fun t => t.ended [(f, c.begun f e iss)] s.time
  refine ⟨s'.modTeam e.who.bid e.who.team E, (B.modTeam e.who.team E).teams, ?_, rfl, ?_, ?_, fun b hb => ?_⟩
  · rw [hx, hr.done he, finish_eq _ _ _ hr.calm, htime]
  · rw [State.block?_modTeam, hB, Option.map_some, if_pos rfl]
    rfl
  · change (B.modTeam e.who.team E).team? e.who.team = _
    rw [Block.team?_modTeam _ _ _ _ fun _ => ended_idx _ _ _, hu, Option.map_some, if_pos rfl]
  · rw [State.block?_modTeam]
    cases s'.block? b <;> simp [hb]

/-- The team as an operation of an engine leaves it: the operation counted, registers locked, ready bits cleared (R17, R76, R316). -/
def Team.enters (t : Team) (id cls : Nat) (locks : List (Nat × Nat × LaneMask)) (unr : List (RegKey × LaneMask)) : Team :=
  { t.addOp id cls with lockBits := t.lockBits ++ locks, waits := t.waits ++ unr }

theorem enters_idx (t : Team) (id cls : Nat) (locks : List (Nat × Nat × LaneMask)) (unr : List (RegKey × LaneMask)) :
    (t.enters id cls locks unr).idx = t.idx := rfl

theorem enters_plain (t : Team) (id cls : Nat) : t.enters id cls [] [] = t.addOp id cls := by
  rw [Team.enters, List.append_nil, List.append_nil]
  rfl

/-- The state in which an operation enters: the next handle taken, and the issuing team counting it. -/
def Ctx.enter (c : Ctx) (cls : Nat) (locks : List (Nat × Nat × LaneMask)) (unr : List (RegKey × LaneMask)) : State :=
  c.modTeam { c.s with nextId := c.s.nextId + 1 } fun t => t.enters c.s.nextId cls locks unr

/-- The issuing team once the operation has entered and the issue has ended. -/
structure Counted (f : Form) (e : Env) (c : Ctx) (id cls : Nat) (locks : List (Nat × Nat × LaneMask)) (unr : List (RegKey × LaneMask))
    (u : Team) : Prop where
  ops : u.ops = e.team.ops ++ [⟨id, cls, false, none⟩]
  count : ∀ k, u.count k = if k = cls then e.team.count k + 1 else e.team.count k
  idx : ∀ q l, l < 1024 → u.getX q l = c.xAfter f.indexes q l
  lockBits : u.lockBits = e.team.lockBits ++ locks
  waits : u.waits = e.team.waits ++ (if f.lat.isSome then [] else (c.named f.dsts).map fun k => (k, c.m)) ++ unr
  rest : u = { e.team with x := u.x, records := u.records, splits := u.splits, cnt := u.cnt, ops := u.ops, lockBits := u.lockBits,
                           waits := u.waits }

theorem getX_ended {b : Team} (hp : b.probe = none) (now q l : Nat) (hl : l < 1024) :
    (b.ended [(f, c.begun f e iss)] now).getX q l =
      if q ∈ f.indexes ∧ l ∈ maskLanes c.m b.lanes then xStepped (b.getX q l) else b.getX q l := by
  rw [ended_calm b _ now hp, ← (postStep_spec c.m f.indexes b (List.nodup_dedup _)).2 q l hl, Team.getX, (onlyRecs_fuse now _).x]
  rfl

theorem counted_team (hr : Runs f iss s e c) (id cls now : Nat) (locks : List (Nat × Nat × LaneMask)) (unr : List (RegKey × LaneMask)) :
    Counted f e c id cls locks unr
      (((e.team.begun [(f, c)] e iss).enters id cls locks unr).ended [(f, c.begun f e iss)] now) := by
  obtain ⟨rfl, -, -⟩ := hr.ctx
  generalize hb : c.e.team.begun [(f, c)] c.e iss = b
  have hrest := begun_rest c.e.team [(f, c)] c.e iss hr.noProbe
  have hwaits := begun_waits c.e.team f c.e iss c hr.lane
  rw [hb] at hrest hwaits
  have hbp : (b.enters id cls locks unr).probe = none := (congrArg Team.probe hrest).trans hr.noProbe
  have hbx : b.x = c.e.team.x := (congrArg Team.x hrest).trans rfl
  have hcnt : b.cnt = c.e.team.cnt := (congrArg Team.cnt hrest).trans rfl
  have hlanes : b.lanes = c.e.team.lanes := (congrArg Team.lanes hrest).trans rfl
  have hx := getX_ended (f := f) (c := c) (e := c.e) (iss := iss) hbp now
  have hu := ended_rest (b.enters id cls locks unr) [(f, c.begun f c.e iss)] now hbp
  generalize (b.enters id cls locks unr).ended [(f, c.begun f c.e iss)] now = u at hu hx ⊢
  have hops : u.ops = b.ops ++ [⟨id, cls, false, none⟩] := congrArg Team.ops hu
  have hucnt : u.cnt = smSet 0 b.cnt cls (b.count cls + 1) := congrArg Team.cnt hu
  have hlock : u.lockBits = b.lockBits ++ locks := congrArg Team.lockBits hu
  have huw : u.waits = b.waits ++ unr := congrArg Team.waits hu
  refine ⟨?_, fun k => ?_, fun q l hl => ?_, ?_, ?_, ?_⟩
  · rw [hops, show b.ops = c.e.team.ops from (congrArg Team.ops hrest).trans rfl]
  · rw [Team.count, hucnt, smGet_smSet, Team.count, hcnt]
    split
    · next hk => rw [hk, Team.count]
    · rfl
  · rw [hx q l hl]
    have hget : (b.enters id cls locks unr).getX q l = c.e.team.getX q l := by
      rw [Team.getX, show (b.enters id cls locks unr).x = b.x from rfl, hbx, Team.getX]
    rw [hget, show (b.enters id cls locks unr).lanes = b.lanes from rfl, hlanes]
    rfl
  · rw [hlock, show b.lockBits = c.e.team.lockBits from (congrArg Team.lockBits hrest).trans rfl]
  · rw [huw, hwaits]
  · rw [hucnt, hops, hlock, huw]
    exact hu.trans (congrArg (fun t : Team => { t with
      x := u.x, records := u.records, splits := u.splits, cnt := smSet 0 b.cnt cls (b.count cls + 1),
      ops := b.ops ++ [AsyncOp.mk id cls false none], lockBits := b.lockBits ++ locks, waits := b.waits ++ unr }) hrest)

/-- AN INSTRUCTION ON ITS OWN BLOCK: its team takes `G`, its block takes `F` of its own, handles are given out up to `n`. -/
theorem own_effect (n : Nat) {F : Block → Block} (hF : ∀ b ts, F { b with teams := ts } = { F b with teams := ts })
    (hFb : ∀ b, (F b).bid = b.bid) {G : Team → Team} (hG : ∀ t, (G t).idx = t.idx) (hr : Runs f iss s e c)
    (hx : exec ins s = issueForm f iss eff s)
    (he : eff (c.begun f e iss) =
      .done ((c.modTeam { (c.begun f e iss).s with nextId := n } G).modBlock e.who.bid F)) :
    ∃ t ts, exec ins s = .next t ∧ t = { s with issueCtr := t.issueCtr, freeCtr := t.freeCtr, nextId := n, blocks := t.blocks } ∧
      t.block? e.who.bid = some { F e.blk with teams := ts } ∧
      ({ F e.blk with teams := ts } : Block).team? e.who.team =
        some ((G (e.team.begun [(f, c)] e iss)).ended [(f, c.begun f e iss)] s.time) ∧
      ∀ b, b ≠ e.who.bid → t.block? b = s.block? b := by
  obtain ⟨rfl, -, -⟩ := hr.ctx
  obtain ⟨hes, hw, hb, hteam, -⟩ := getEnv_spec hr.env
  rw [← hw] at hb hteam
  let H : Team → Team := fun t => G (t.begun [(f, c)] c.e iss)
  have hH : ∀ t, (H t).idx = t.idx := fun _ => hG _
  let s0 : State := { s with issueCtr := s.issueCtr + 1, freeCtr := s.freeCtr + 1, nextId := n }
  have hs' : c.modTeam { (c.begun f c.e iss).s with nextId := n } G = s0.modTeam c.e.who.bid c.e.who.team H := by
    rw [Ctx.modTeam, show (c.begun f c.e iss).s = beginIssue [(f, c)] c.e iss from rfl, beginIssue_eq, hes]
    exact State.modTeam_modTeam s0 c.e.who.bid c.e.who.team (fun t => t.begun [(f, c)] c.e iss) G fun _ => rfl
  rw [hs'] at he
  have hbid : ∀ k, ((s0.modTeam c.e.who.bid c.e.who.team H).modBlock c.e.who.bid F).block? k =
      (s.block? k).map fun b => if k = c.e.who.bid then F (b.modTeam c.e.who.team H) else b := by
    intro k
    rw [State.block?_modBlock _ _ _ _ hFb, State.block?_modTeam]
    change Option.map _ (Option.map _ (s.block? k)) = _
    cases s.block? k with
    | none => rfl
    | some b => by_cases hk : k = c.e.who.bid <;> simp [hk]
  have hblk := hbid c.e.who.bid
  rw [hb, Option.map_some, if_pos rfl] at hblk
  have hFblk : F (c.e.blk.modTeam c.e.who.team H) = { F c.e.blk with teams := (c.e.blk.modTeam c.e.who.team H).teams } :=
    hF c.e.blk (c.e.blk.modTeam c.e.who.team H).teams
  have hu : (F (c.e.blk.modTeam c.e.who.team H)).team? c.e.who.team = some (H c.e.team) := by
    rw [hFblk]
    change (c.e.blk.modTeam c.e.who.team H).team? c.e.who.team = _
    rw [Block.team?_modTeam _ _ _ H hH, hteam, Option.map_some, if_pos rfl]
  obtain ⟨t, ts, ht, hrest, hB, hut, hoth⟩ := done_block hr hx he rfl hblk hu
  rw [hFblk] at hB hut
  refine ⟨t, ts, ht, ?_, hB, hut, fun b hne => ?_⟩
  · rw [hrest]
    rfl
  · rw [hoth b hne, hbid b]
    cases s.block? b <;> simp [hne]

/-- AN INSTRUCTION THAT ENTERS AN ENGINE as an operation of class `cls`: its block takes `F` of its own. -/
theorem enter_effect (F : Block → Block) (hF : ∀ b ts, F { b with teams := ts } = { F b with teams := ts })
    (hFb : ∀ b, (F b).bid = b.bid) {locks : List (Nat × Nat × LaneMask)} {unr : List (RegKey × LaneMask)}
    (hr : Runs f iss s e c) (hx : exec ins s = issueForm f iss eff s)
    (he : eff (c.begun f e iss) = .done (((c.begun f e iss).enter cls locks unr).modBlock e.who.bid F)) :
    ∃ t u B, exec ins s = .next t ∧ Entered f e c cls s t u B ∧ B = { F e.blk with teams := B.teams } ∧
      Counted f e c s.nextId cls locks unr u := by
  have hes := (getEnv_spec hr.env).1
  have hid : (c.begun f e iss).s.nextId = s.nextId := by rw [← hes]; rfl
  rw [Ctx.enter, hid] at he
  obtain ⟨t, ts, ht, hrest, hB, hut, hoth⟩ := own_effect (G := fun t => t.enters s.nextId cls locks unr)
    (s.nextId + 1) hF hFb (fun _ => rfl) hr hx he
  have hcount := counted_team hr s.nextId cls s.time locks unr
  refine ⟨t, _, _, ht, ⟨hB, hut, hoth, ?_, ?_, hcount.ops, hcount.count, hcount.idx, hcount.rest⟩, rfl, hcount⟩
  · rw [hrest]
  · rw [hrest]

end

/-! Scratchpads that a move leaves alone. -/

theorem sameScratch_of_map {s t : State} (h : ∀ b, (t.block? b).map Block.scratch = (s.block? b).map Block.scratch) : SameScratch s t := by
  intro b off
  have hb := h b
  unfold scrByte
  cases ht : t.block? b with
  | none =>
    rw [ht, Option.map_none] at hb
    rw [Option.map_eq_none_iff.1 hb.symm]
  | some B =>
    rw [ht, Option.map_some] at hb
    obtain ⟨B', hB', hscr⟩ := Option.map_eq_some_iff.1 hb.symm
    rw [hB']
    exact congrArg (byteAt · off) hscr.symm

theorem SameScratch.refl (s : State) : SameScratch s s := fun _ _ => rfl

theorem SameScratch.trans {s t u : State} (h : SameScratch s t) (g : SameScratch t u) : SameScratch s u :=
  fun b off => (g b off).trans (h b off)

theorem sameScratch_of_blocks {s t : State} (h : t.blocks = s.blocks) : SameScratch s t :=
  sameScratch_of_map fun b => by rw [State.block?, h, State.block?]

theorem sameScratch_modBlock (s : State) (k : Nat) (F : Block → Block) (hb : ∀ b, (F b).bid = b.bid)
    (hs : ∀ b, (F b).scratch = b.scratch) : SameScratch s (s.modBlock k F) := by
  refine sameScratch_of_map fun b => ?_
  rw [State.block?_modBlock _ _ _ _ hb]
  cases s.block? b with
  | none => rfl
  | some B => by_cases hk : b = k <;> simp [hk, hs]

theorem sameScratch_modTeam (s : State) (k i : Nat) (G : Team → Team) : SameScratch s (s.modTeam k i G) :=
  sameScratch_modBlock s k _ (fun _ => rfl) fun _ => rfl

theorem sameScratch_begun (fs : List (Form × Ctx)) (e : Env) (i : Iss) : SameScratch e.s (beginIssue fs e i) := by
  rw [beginIssue_eq]
  exact SameScratch.trans (sameScratch_of_blocks rfl) (sameScratch_modTeam _ _ _ _)

theorem sameScratch_of_block {s t : State} {k : Nat} {b B : Block} (hs : s.block? k = some b) (ht : t.block? k = some B)
    (hB : B.scratch = b.scratch) (ho : ∀ j, j ≠ k → t.block? j = s.block? j) : SameScratch s t := by
  refine sameScratch_of_map fun j => ?_
  by_cases hj : j = k
  · rw [hj, ht, hs, Option.map_some, Option.map_some, hB]
  · rw [ho j hj]

theorem sameScratch_of_entered {s t : State} {f : Form} {e : Env} {c : Ctx} {cls : Nat} {u : Team} {B : Block} (h : Entered f e c cls s t u B)
    (hs : s.block? e.who.bid = some e.blk) (hB : B.scratch = e.blk.scratch) : SameScratch s t :=
  sameScratch_of_block hs h.block hB h.others

theorem SameTeam.masks {e : Env} {u : Team} {unr : List (RegKey × LaneMask)} (h : SameTeam e u unr) : u.k = e.team.k :=
  (congrArg Team.k (show u = _ from h)).trans rfl

theorem getEnv_block {s : State} {e : Env} (h : getEnv s = some e) : s.block? e.who.bid = some e.blk := by
  obtain ⟨-, hw, hb, -⟩ := getEnv_spec h
  rw [hw, hb]

/-- An update of a block beside its teams, and one of a team, change places. -/
theorem block_modTeam_comm {F : Block → Block} (hF : ∀ b ts, F { b with teams := ts } = { F b with teams := ts }) (b : Block) (i : Nat)
    (G : Team → Team) : (F b).modTeam i G = F (b.modTeam i G) := by
  have hteams : (F b).teams = b.teams := (congrArg Block.teams (hF b b.teams) :)
  rw [Block.modTeam, hteams]
  exact (hF b _).symm

theorem modTeam_modBlock_comm (s : State) (k i : Nat) {F : Block → Block} (G : Team → Team)
    (hF : ∀ b ts, F { b with teams := ts } = { F b with teams := ts }) (hb : ∀ b, (F b).bid = b.bid) :
    (s.modBlock k F).modTeam k i G = (s.modTeam k i G).modBlock k F := by
  unfold State.modTeam State.modBlock
  simp only [List.map_map]
  congr 1
  apply List.map_congr_left
  intro b _
  by_cases hk : b.bid = k
  · simp only [Function.comp, hk, if_true, hb, Block.modTeam_bid, block_modTeam_comm hF]
  · simp only [Function.comp, hk, if_false]

end Sys2Proof.Machine

end

section
/-! A matrix instruction enters the matrix engine (R310 to R316). -/

namespace Sys2Proof.Machine

/-- The matrix engine's record of an instruction that has entered (R312). -/
def Ctx.matOp (c : Ctx) (ins : Instr) (x : MatIn) : MatOp :=
  { id := c.s.nextId, team := c.e.who.team, ins := ins, pc := c.e.rcd.pc, va := x.va, vb := x.vb, vc := x.vc, vec := x.vec,
    mask := c.m, started := false, fin := false, ov := ovtab c.e.s c.e.la.ctx }

/-- A block's engine once an instruction has entered: held, the instruction last in order, the issue-side state updated (R313). -/
def Matrix.takes (m : Matrix) (op : MatOp) : Matrix :=
  let tags := tagEffect op.ins m.iactive m.ishadow
  { m with owned := true, queue := m.queue ++ [op], istat := statEffect true op.ins op.va op.vb m.istat, iactive := tags.1,
           ishadow := tags.2 }

/-- The engine and the counter have room for one more matrix instruction (R312, R18). -/
def Env.matRoom (e : Env) : Prop :=
  (e.blk.mat.queue.filter fun o => !o.fin && !isColl o.ins).length < 32 ∧ e.team.count 1 < 255

section
variable {ins : Instr} {iss : Iss} {s : State} {e : Env} {c : Ctx} {f : Form} {eff : Ctx → Res}

theorem matHeld_iff (e : Env) : e.matHeld = true ↔
    e.blk.mat.owned = false ∧ ∃ B ∈ e.s.blocks, B.site = e.blk.site ∧ B.bid ≠ e.blk.bid ∧ B.mat.owned = true := by
  simp only [Env.matHeld, Bool.and_eq_true, Bool.not_eq_true', List.any_eq_true, beq_iff_eq, bne_iff_ne, ne_eq, and_assoc]

theorem matIssue_held (h : c.e.matHeld = true) (bad : Option (Nat × W64)) (x : MatIn) : c.matIssue ins bad x = .hold .limit :=
  if_pos h

theorem matIssue_bad (h : c.e.matHeld = false) (k : Nat) (tr : W64) (x : MatIn) :
    c.matIssue ins (some (k, tr)) x = .trap k tr (c.e.low c.m) :=
  if_neg (by simp [h])

theorem matIssue_full (h : c.e.matHeld = false) (hroom : ¬ c.e.matRoom) (x : MatIn) : c.matIssue ins none x = .hold .limit := by
  rw [Env.matRoom, not_and_or, Nat.not_lt, Nat.not_lt] at hroom
  refine (if_neg (by simp [h])).trans (if_pos ?_)
  simpa only [cntFull, decide_eq_true_iff] using hroom

theorem matIssue_room (h : c.e.matHeld = false) (hroom : c.e.matRoom) (x : MatIn) :
    c.matIssue ins none x = .done ((c.enter 1 (x.locks.map fun r => (r, c.s.nextId, c.m)) []).modBlock c.e.who.bid fun b =>
      { b with mat := b.mat.takes (c.matOp ins x) }) := by
  have hfull : ¬ (32 ≤ (c.e.blk.mat.queue.filter fun o => !o.fin && !isColl o.ins).length ∨ cntFull c.e.team 1 = true) := by
    rw [cntFull, decide_eq_true_iff, not_or, Nat.not_le, Nat.not_le]
    exact hroom
  have hteam : (fun t : Team => t.enters c.s.nextId 1 (x.locks.map fun r => (r, c.s.nextId, c.m)) []) =
      fun t => { t.addOp c.s.nextId 1 with lockBits := t.lockBits ++ x.locks.map fun r => (r, c.s.nextId, c.m) } := by
    funext t
    rw [Team.enters, List.append_nil]
    rfl
  rw [Ctx.enter, hteam]
  exact (if_neg (by simp [h])).trans (if_neg hfull)

/-- THE ISSUE OF A MATRIX INSTRUCTION: it waits for the engine, traps, waits for room, or enters. -/
theorem mat_effect {bad : Option (Nat × W64)} {x : MatIn} (hr : Runs f iss s e c) (hx : exec ins s = issueForm f iss eff s)
    (he : eff (c.begun f e iss) = (c.begun f e iss).matIssue ins bad x) :
    (e.matHeld = true → exec ins s = .next (holdAs .limit e.who s)) ∧
    (e.matHeld = false → (∀ k tr, bad = some (k, tr) → exec ins s = .next (takeTrap e k tr (e.low c.m) iss.ilen)) ∧
      (bad = none → ¬ e.matRoom → exec ins s = .next (holdAs .limit e.who s)) ∧
      (bad = none → e.matRoom → ∃ t u B op, exec ins s = .next t ∧ Entered f e c 1 s t u B ∧
        B = { e.blk with teams := B.teams, mat := e.blk.mat.takes op } ∧
        op = { id := s.nextId, team := e.who.team, ins := ins, pc := e.rcd.pc, va := x.va, vb := x.vb, vc := x.vc, vec := x.vec,
               mask := c.m, started := false, fin := false, ov := ovtab s e.la.ctx } ∧
        Counted f e c s.nextId 1 (x.locks.map fun r => (r, s.nextId, c.m)) [] u)) := by
  obtain ⟨rfl, -, -⟩ := hr.ctx
  have hes := (getEnv_spec hr.env).1
  refine ⟨fun hh => ?_, fun hh => ⟨fun k tr hb => ?_, fun hb hroom => ?_, fun hb hroom => ?_⟩⟩
  · exact hold_effect hr hx (he.trans (matIssue_held (c := c.begun f c.e iss) hh bad x))
  · subst hb
    exact trap_effect hr hx (he.trans (matIssue_bad (c := c.begun f c.e iss) hh k tr x))
  · subst hb
    exact hold_effect hr hx (he.trans (matIssue_full (c := c.begun f c.e iss) hh hroom x))
  · subst hb
    have hid : (c.begun f c.e iss).s.nextId = s.nextId := by rw [← hes]; rfl
    have hdone := he.trans (matIssue_room (c := c.begun f c.e iss) hh hroom x)
    rw [hid] at hdone
    obtain ⟨t, u, B, ht, hent, hB, hcount⟩ := enter_effect
      (fun b => { b with mat := b.mat.takes ((c.begun f c.e iss).matOp ins x) }) (fun _ _ => rfl) (fun _ => rfl) hr hx hdone
    refine ⟨t, u, B, (c.begun f c.e iss).matOp ins x, ht, hent, hB, ?_, hcount⟩
    rw [Ctx.matOp, hid, ← hes]
    rfl

theorem Counted.locks_eq {id cls : Nat} {locks : List (Nat × Nat × LaneMask)} {unr : List (RegKey × LaneMask)} {u : Team}
    (h : Counted f e c id cls locks unr u) : u.locks = e.team.locks ++ locks.map fun p => (p.1, p.2.1) := by
  rw [Team.locks, h.lockBits, List.map_append]
  rfl

/-- A form without a destination clears no ready bit of its own. -/
theorem Counted.unready_eq {id cls : Nat} {locks : List (Nat × Nat × LaneMask)} {unr : List (RegKey × LaneMask)} {u : Team}
    (h : Counted f e c id cls locks unr u) (hd : f.dsts = []) : u.unready = e.team.unready ++ unr.map Prod.fst := by
  have hnamed : (if f.lat.isSome then [] else (c.named f.dsts).map fun k => (k, c.m)) = [] := by
    rw [hd]
    split <;> rfl
  rw [Team.unready, h.waits, hnamed, List.append_nil, List.map_append]
  rfl

/-! The issue-side state an instruction leaves (R313). -/

theorem tileStat_setStat (m : SMap TileStat) (t : Nat) (g : TileStat → TileStat) (k : Nat) :
    tileStat (setStat m t g) k = if k = t then g (tileStat m k) else tileStat m k := by
  rw [tileStat, setStat, smGet_smSet]
  split
  · next hk => rw [hk]
  · rfl

theorem tileStat_id (m : SMap TileStat) (t k : Nat) : tileStat m k = if k = t then id (tileStat m k) else tileStat m k := by
  split <;> rfl

/-- An instruction that is neither `LDW` nor `WSWAP` leaves the plane tags. -/
theorem tagEffect_plain (hl : ∀ h pf p a, ins ≠ .ldw h pf p a) (hw : ∀ h, ins ≠ .wswap h) (act sh : SMap Nat) :
    tagEffect ins act sh = (act, sh) := by
  unfold tagEffect
  split
  · next h pf p a => exact absurd rfl (hl h pf p a)
  · next h => exact absurd rfl (hw h)
  · rfl

theorem plainTags (hl : ∀ h pf p a, ins ≠ .ldw h pf p a) (hw : ∀ h, ins ≠ .wswap h) (h : Hdr) (pf : PFmt) (p : Fin 8) (a : Opnd)
    (act sh : SMap Nat) (k : Nat) : smGet 0 (tagEffect ins act sh).1 k = (if ins = .wswap h then smGet 0 sh k else smGet 0 act k) ∧
      smGet 0 (tagEffect ins act sh).2 k = (if ins = .wswap h then smGet 0 act k
        else if ins = .ldw h pf p a ∧ (k = p.val ∨ tagFloat (pfmtCode pf) = true ∧ k = p.val + 1) then pfmtCode pf else smGet 0 sh k) := by
  rw [tagEffect_plain hl hw, if_neg (hw h), if_neg (hw h), if_neg fun hand => hl h pf p a hand.1]
  exact ⟨rfl, rfl⟩

/-- The state of a tile whose image is tracked (R327). -/
theorem tileStat_tracked (trk : Bool) {va vb : W64} {pitch : Nat} (hp : (loHalf vb).toNat = pitch)
    (h : Hdr) (tf : TFmt) (a b : Opnd) (t : Fin 8) (m : SMap TileStat) (k : Nat) :
    tileStat (statEffect true (.tst h tf trk a b t) va vb m) k = if k = t.val then
      (if trk then
        { tileStat m k with
          dirty := false, track := if Config.localWindow ≤ va.toNat then 3 else 2,
          addr := if Config.localWindow ≤ va.toNat then w64 (va.toNat % 2 ^ 44) else va, pitch := pitch }
      else tileStat m k) else tileStat m k := by
  cases trk with
  | false => exact tileStat_id m t k
  | true =>
    refine (tileStat_setStat m t (fun st => { st with
      dirty := false, track := if decide (Config.localWindow ≤ va.toNat) then 3 else 2,
      addr := if decide (Config.localWindow ≤ va.toNat) then w64 (va.toNat % 2 ^ 44) else va, pitch := offOf vb }) k).trans ?_
    simp only [decide_eq_true_iff, offOf, hp, if_true]

theorem smGet_ldw (h : Hdr) (pf : PFmt) (p : Fin 8) (a : Opnd) (act sh : SMap Nat) (k : Nat) :
    smGet 0 (tagEffect (.ldw h pf p a) act sh).2 k =
      if k = p.val ∨ tagFloat (pfmtCode pf) = true ∧ k = p.val + 1 then pfmtCode pf else smGet 0 sh k := by
  change smGet 0 (if tagFloat (pfmtCode pf) = true then smSet 0 (smSet 0 sh p.val (pfmtCode pf)) (p.val + 1) (pfmtCode pf)
    else smSet 0 sh p.val (pfmtCode pf)) k = _
  by_cases hf : tagFloat (pfmtCode pf) = true <;> by_cases h1 : k = p.val + 1 <;> by_cases h0 : k = p.val <;>
    simp [hf, h1, h0, smGet_smSet]

theorem opIsZero_iff (o : Opnd) : opIsZero o = true ↔ o = .zero := by
  cases o <;> simp [opIsZero]

theorem pitch_eq (c : Ctx) (f : TFmt) (b : Opnd) : c.pitch f b = if b = .zero then 32 * tfmtBytes f else (c.uni 1 b).toNat := by
  rw [Ctx.pitch]
  simp only [opIsZero_iff]

theorem pitch_lt (c : Ctx) (f : TFmt) (b : Opnd) : c.pitch f b < 2 ^ 32 := by
  rw [Ctx.pitch]
  split
  · cases f <;> decide
  · exact BitVec.isLt _

theorem loHalf_w64 {n : Nat} (h : n < 2 ^ 32) : (loHalf (w64 n)).toNat = n := by
  rw [loHalf, w64, BitVec.extractLsb'_toNat, BitVec.toNat_ofNat]
  omega

theorem w64_toNat (v : W64) : w64 v.toNat = v := by
  rw [w64, BitVec.ofNat_toNat, BitVec.setWidth_eq]

theorem w64_zeroExtend (v : W32) : w64 v.toNat = v.zeroExtend 64 := by
  apply BitVec.eq_of_toNat_eq
  rw [w64, BitVec.toNat_ofNat, BitVec.toNat_setWidth]

/-! Columns named by a scalar offset (R320). -/

theorem colField_scalar {b : Opnd} (hb : opIsS b = true) (n : Nat) : colField b n = fB b 1 := by
  cases b with
  | v r => exact absurd hb (by simp [opIsS])
  | _ => rfl

theorem colIssue_scalar {b : Opnd} (hb : opIsS b = true) (bytes regs : Nat) (vc : W64) (ranges : List (Nat × Nat))
    (tile : List (Option (Nat × W64))) : c.colIssue ins b bytes regs vc ranges tile =
      c.matIssue ins (firstFail (spwinIf c.e.blk (((c.uni 1 b).toNat, bytes) :: ranges) :: alignIf [((c.uni 1 b).toNat, 4)] :: tile))
        ⟨0, w64 (c.uni 1 b).toNat, vc, [], []⟩ :=
  if_pos hb

end

end Sys2Proof.Machine

open Sys2Proof Sys2Proof.Machine

/-- Settles O32: every one of these instructions is the one issue of a matrix instruction with its own operands and checks. -/
theorem matrixInstructionsEnter : Obligations.MatrixInstructionsEnter := by
  unfold Obligations.MatrixInstructionsEnter
  intro h pf q tf trk t ts p a b x i f bad va vb vc upd s e c
  extract_lets pitch addr off xo code written soiled stored heldBy room
  intro hcase hr
  obtain ⟨hce, -, -⟩ := hr.ctx
  have hes := (getEnv_spec hr.env).1
  have hcases : (∃ eff : Ctx → Res, exec i s = issueForm f (issOf h) eff s ∧
        eff (c.begun f e (issOf h)) = (c.begun f e (issOf h)).matIssue i bad ⟨va, vb, vc, [], []⟩) ∧ f.dsts = [] ∧
      (∀ m k, tileStat (statEffect true i va vb m) k = if k = t.val then upd (tileStat m k) else tileStat m k) ∧
      ∀ act sh k, smGet 0 (tagEffect i act sh).1 k = (if i = .wswap h then smGet 0 sh k else smGet 0 act k) ∧
        smGet 0 (tagEffect i act sh).2 k = (if i = .wswap h then smGet 0 act k
          else if i = .ldw h pf p a ∧ (k = p.val ∨ tagFloat code = true ∧ k = p.val + 1) then code else smGet 0 sh k) := by
    subst hce
    rcases hcase with ⟨rfl, rfl, rfl, rfl, rfl, rfl, rfl⟩ | ⟨rfl, rfl, rfl, rfl, rfl, rfl, rfl⟩ |
      ⟨rfl, hb, rfl, rfl, rfl, rfl, rfl, rfl⟩ | ⟨rfl, rfl, rfl, rfl, rfl, rfl, rfl⟩ | ⟨rfl, hb, rfl, rfl, rfl, rfl, rfl, rfl⟩ |
      ⟨rfl, rfl, rfl, rfl, rfl, rfl, rfl⟩ | ⟨rfl, hb, rfl, rfl, rfl, rfl, rfl, rfl⟩ | ⟨rfl, rfl, rfl, rfl, rfl, rfl, rfl⟩ |
      ⟨rfl, rfl, rfl, rfl, rfl, rfl, rfl⟩ | ⟨rfl, rfl, rfl, rfl, rfl, rfl, rfl⟩ | ⟨rfl, rfl, rfl, rfl, rfl, rfl, rfl⟩
    · refine ⟨⟨(opLdw h pf p a).eff, rfl, rfl⟩, rfl, fun m k => tileStat_id m t k, fun act sh k => ⟨?_, ?_⟩⟩
      · rw [if_neg (by simp)]
        rfl
      · rw [if_neg (by simp), smGet_ldw]
        simp only [true_and, code]
    · refine ⟨⟨(opWswap h).eff, rfl, rfl⟩, rfl, fun m k => tileStat_id m t k, fun act sh k => ?_⟩
      rw [if_pos rfl, if_pos rfl]
      exact ⟨rfl, rfl⟩
    · refine ⟨?_, rfl, fun m k => tileStat_setStat m t _ k, plainTags (by simp) (by simp) h pf p a⟩
      rw [← colField_scalar hb (qBits q)]
      exact ⟨(opMmq h q t p b).eff, rfl, colIssue_scalar hb _ _ _ _ _⟩
    · exact ⟨⟨(opMsa h t ts b x).eff, rfl, rfl⟩, rfl, fun m k => tileStat_setStat m t _ k, plainTags (by simp) (by simp) h pf p a⟩
    · refine ⟨?_, rfl, fun m k => tileStat_setStat m t _ k, plainTags (by simp) (by simp) h pf p a⟩
      rw [← colField_scalar hb (qBits q)]
      exact ⟨(opMmqa h q t p b x).eff, rfl, colIssue_scalar hb _ _ _ _ _⟩
    · refine ⟨⟨(opMmqaCb h q t b x).eff, rfl, rfl⟩, rfl, fun m k => ?_, plainTags (by simp) (by simp) h pf p a⟩
      exact tileStat_setStat m t (fun st => { st with dirty := true, nb := (st.nb + 1) % 65536 }) k
    · refine ⟨?_, rfl, fun m k => tileStat_setStat m t _ k, plainTags (by simp) (by simp) h pf p a⟩
      rw [← colField_scalar hb (8 * tagBytes (Machine.pfmtCode pf))]
      exact ⟨(opMmf h pf t p b).eff, rfl, colIssue_scalar hb _ _ _ _ _⟩
    · refine ⟨⟨(opTld h tf t a b).eff, rfl, ?_⟩, rfl, fun m k => tileStat_setStat m t _ k, plainTags (by simp) (by simp) h pf p a⟩
      change Ctx.matIssue _ _ (imageBad _ _ _ (c.pitch tf b)) ⟨_, w64 (c.pitch tf b), _, _, _⟩ = _
      rw [pitch_eq]
      rfl
    · refine ⟨⟨(opTst h tf trk a b t).eff, rfl, ?_⟩, rfl, fun m k => ?_, plainTags (by simp) (by simp) h pf p a⟩
      · change Ctx.matIssue _ _ (firstFail [imageBad _ _ _ (c.pitch tf b), _]) ⟨_, w64 (c.pitch tf b), _, _, _⟩ = _
        rw [pitch_eq]
        rfl
      · have hpitch : c.pitch tf b = pitch := pitch_eq c tf b
        have haddr : (w64 addr).toNat = addr := congrArg BitVec.toNat (w64_toNat _)
        refine (tileStat_tracked trk (loHalf_w64 (hpitch ▸ pitch_lt c tf b)) h tf a b t m k).trans ?_
        rw [haddr]
    · refine ⟨⟨(opTzero h t b).eff, rfl, ?_⟩, rfl, fun m k => ?_, plainTags (by simp) (by simp) h pf p a⟩
      · rw [w64_zeroExtend]
        rfl
      · refine (tileStat_setStat m t (fun st => { st with valid := true, dirty := true, nb := (w64 off).toNat % 65536 }) k).trans ?_
        rw [w64_zeroExtend, BitVec.toNat_setWidth_of_le (by decide)]
    · exact ⟨⟨(opTacc h t ts).eff, rfl, rfl⟩, rfl, fun m k => tileStat_setStat m t _ k, plainTags (by simp) (by simp) h pf p a⟩
  obtain ⟨⟨eff, hx, he⟩, hfs, hstat, htags⟩ := hcases
  obtain ⟨hheld, hfree⟩ := mat_effect hr hx he
  have hiff : e.matHeld = true ↔ heldBy := by
    rw [matHeld_iff, hes]
  refine ⟨fun hh => hheld (hiff.2 hh), fun hh => ?_⟩
  obtain ⟨htrap, hfull, hroom⟩ := hfree (Bool.eq_false_iff.2 fun hm => hh (hiff.1 hm))
  refine ⟨htrap, hfull, fun hb hrm => ?_⟩
  obtain ⟨t', u, B, op, ht, hent, hB, hop, hcount⟩ := hroom hb hrm
  have hmat : B.mat = e.blk.mat.takes op := congrArg Block.mat hB
  have hins : op.ins = i := congrArg MatOp.ins hop
  have hva : op.va = va := congrArg MatOp.va hop
  have hvb : op.vb = vb := congrArg MatOp.vb hop
  refine ⟨t', u, B, op, ht, hent, ?_, ?_, ?_, ?_, congrArg MatOp.id hop, congrArg MatOp.team hop, hins, congrArg MatOp.pc hop, hva, hvb,
    congrArg MatOp.vc hop, congrArg MatOp.vec hop, congrArg MatOp.started hop, congrArg MatOp.fin hop, congrArg MatOp.ov hop,
    fun k => ?_, fun k => ?_, fun k => ?_⟩
  · exact hcount.locks_eq.trans (List.append_nil _)
  · exact (hcount.unready_eq hfs).trans (List.append_nil _)
  · rw [hmat]
    exact hB
  · rw [hmat]
    rfl
  · rw [hmat]
    change tileStat (statEffect true op.ins op.va op.vb e.blk.mat.istat) k = _
    rw [hins, hva, hvb]
    exact hstat _ k
  · rw [hmat]
    change smGet 0 (tagEffect op.ins e.blk.mat.iactive e.blk.mat.ishadow).1 k = _
    rw [hins]
    exact (htags _ _ k).1
  · rw [hmat]
    change smGet 0 (tagEffect op.ins e.blk.mat.iactive e.blk.mat.ishadow).2 k = _
    rw [hins]
    exact (htags _ _ k).2

end

section
/-! Matrix instructions with register runs (R311, R316, R320, R329), and `TSTAT` (R331). -/

namespace Sys2Proof.Machine

section
variable {ins : Instr} {iss : Iss} {s : State} {e : Env} {c : Ctx} {f : Form} {eff : Ctx → Res}

theorem colIssue_run {b : Opnd} {bytes regs : Nat} {vc : W64} {ranges : List (Nat × Nat)} {tile : List (Option (Nat × W64))}
    (hb : opV b = true) (hheld : c.e.matHeld = false) (hrun : c.runCheck b regs c.colLanes false = none) :
    c.colIssue ins b bytes regs vc ranges tile = c.matIssue ins (firstFail (spwinIf c.e.blk ranges :: tile))
      ⟨0, 0, vc, c.readRun 1 b regs c.colLanes, c.runRegs b regs c.colLanes⟩ := by
  have hs : ¬ opIsS b = true := by
    cases b with
    | v r => simp [opIsS]
    | _ => simp [opV] at hb
  refine (if_neg hs).trans ((if_neg (by simp [hheld])).trans ?_)
  rw [hrun]
  rfl

/-- No range lies outside the scratchpad where none is named. -/
theorem firstFail_noRange (b : Block) (l : List (Option (Nat × W64))) : firstFail (spwinIf b [] :: l) = firstFail l := rfl

theorem firstFail_one (x : Option (Nat × W64)) : firstFail [x] = x := by
  cases x <;> rfl

/-- A lock list that an entered instruction leaves, as the statement names it. -/
theorem locks_entered {id : Nat} {regs : List Nat} {unr : List (RegKey × LaneMask)} {u : Team}
    (h : Counted f e c id 1 (regs.map fun r => (r, id, c.m)) unr u) : u.locks = e.team.locks ++ regs.map fun r => (r, id) := by
  rw [h.locks_eq, List.map_map]
  rfl

/-- What a block whose engine has taken an instruction keeps of the engine and of the scratchpad. -/
theorem taken {b B : Block} {op : MatOp} (h : B = { b with teams := B.teams, mat := b.mat.takes op }) :
    B.mat.queue = b.mat.queue ++ [op] ∧ B.mat.owned = true ∧ B.mat.tiles = b.mat.tiles ∧ B.scratch = b.scratch := by
  have hm : B.mat = b.mat.takes op := congrArg Block.mat h
  exact ⟨congrArg Matrix.queue hm, congrArg Matrix.owned hm, (congrArg Matrix.tiles hm).trans rfl, (congrArg Block.scratch h :)⟩

theorem tmvSel_eq (v : W32) : tmvSel v = (v.toNat % 2 ^ 8, v.toNat / 2 ^ 8 % 2 ^ 5, v.toNat / 2 ^ 13 % 2 ^ 5 + 1) := by
  simp [tmvSel, bitsOf]

/-- Ready bits that an effect clears after the operation has entered are those of its entry. -/
theorem enter_unready (c : Ctx) (cls : Nat) (locks : List (Nat × Nat × LaneMask)) (unr : List (RegKey × LaneMask)) {F : Block → Block}
    (hF : ∀ b ts, F { b with teams := ts } = { F b with teams := ts }) (hb : ∀ b, (F b).bid = b.bid) :
    c.modTeam ((c.enter cls locks []).modBlock c.e.who.bid F) (fun u => { u with waits := u.waits ++ unr }) =
      (c.enter cls locks unr).modBlock c.e.who.bid F := by
  rw [Ctx.modTeam, modTeam_modBlock_comm _ _ _ _ hF hb, Ctx.enter, Ctx.modTeam, 
    State.modTeam_modTeam _ _ _ (fun t => t.enters c.s.nextId cls locks []) _ fun _ => rfl, Ctx.enter, Ctx.modTeam]
  simp only [Team.enters, List.append_nil]

/-- A move of registers to a tile whose selector and run pass. -/
theorem opTmvV2t_eff (h : Hdr) (t : Fin 8) {a b : Opnd} {r0 c0 n : Nat} (hheld : c.e.matHeld = false)
    (hsel : tmvSel (c.uni 1 b) = (r0, c0, n)) (hbad : tmvBad (c.uni 1 b) t.val = none)
    (hrun : c.runCheck a n (c.tmvLanes r0) false = none) : (opTmvV2t h t a b).eff c = c.matIssue (.tmvV2t h t a b) none
      ⟨0, (c.uni 1 b).zeroExtend 64, 0, c.readRun 0 a n (c.tmvLanes r0), c.runRegs a n c.lanes⟩ := by
  simp only [opTmvV2t, hsel, hheld, hbad, hrun, Bool.false_eq_true, if_false]
  rfl

/-- The words that a move of a tile to registers brings: each lane's first register. -/
def Ctx.runBases (c : Ctx) (d : Opnd) : SMap W32 := (c.lanes.map fun l => (l, w32 (c.runBase d l))).filter fun p => p.2 != 0

/-- A move of a tile to registers whose selector and run pass clears the run's ready bits once it has entered. -/
theorem opTmvT2v_eff (h : Hdr) (t : Fin 8) {d b : Opnd} {r0 c0 n : Nat} (hp : c.e.probing = false) (hheld : c.e.matHeld = false)
    (hsel : tmvSel (c.uni 1 b) = (r0, c0, n)) (hbad : tmvBad (c.uni 1 b) t.val = none)
    (hrun : c.runCheck d n c.lanes true = none) (htile : tileBad c.e.blk t.val = none) (hroom : c.e.matRoom) :
    (opTmvT2v h d t b).eff c = .done ((c.enter 1 [] ((c.runRegs d n c.lanes).map fun r => (RegKey.v r, c.m))).modBlock c.e.who.bid
      fun B => { B with mat := B.mat.takes (c.matOp (.tmvT2v h d t b) ⟨0, (c.uni 1 b).zeroExtend 64, 0, c.runBases d, []⟩) }) := by
  have hissue := matIssue_room (ins := .tmvT2v h d t b) hheld hroom ⟨0, (c.uni 1 b).zeroExtend 64, 0, c.runBases d, []⟩
  have hcomm := enter_unready c 1 [] ((c.runRegs d n c.lanes).map fun r => (RegKey.v r, c.m))
    (F := fun B => { B with mat := B.mat.takes (c.matOp (.tmvT2v h d t b) ⟨0, (c.uni 1 b).zeroExtend 64, 0, c.runBases d, []⟩) })
    (fun _ _ => rfl) fun _ => rfl
  rw [← hcomm]
  simp only [opTmvT2v, hsel, hp, hheld, hbad, hrun, htile, Bool.false_eq_true, if_false]
  change (match c.matIssue (.tmvT2v h d t b) none ⟨0, (c.uni 1 b).zeroExtend 64, 0, c.runBases d, []⟩ with
    | .done s => Res.done (c.modTeam s fun u =>
        { u with waits := u.waits ++ (c.runRegs d n c.lanes).map fun r => (RegKey.v r, c.m) })
    | r => r) = _
  rw [hissue]
  rfl

theorem tmvBad_none {sel : W32} {t : Nat} (h : sel.toNat < 2 ^ 18) (hc : sel.toNat / 2 ^ 8 % 2 ^ 5 + (sel.toNat / 2 ^ 13 % 2 ^ 5 + 1) ≤ 32) :
    tmvBad sel t = none := by
  refine if_neg ?_
  rw [not_or]
  exact ⟨by omega, by
    simp only [tmvSel, bitsOf]
    omega⟩

end

end Sys2Proof.Machine

open Sys2Proof Sys2Proof.Machine

/-- Settles O33: the columns of a product and the lanes of a move are runs that the one issue of a matrix instruction takes with it. -/
theorem matrixRegisterOperands : Obligations.MatrixRegisterOperands := by
  unfold Obligations.MatrixRegisterOperands
  intro h q pf t p d a b x i f n bad vc s e c
  extract_lets code sel row0 col0 ncol cols rows free room enters words g gt st
  intro hfree
  have hheldOf : getEnv s = some e → e.matHeld = false := fun he => by
    rw [Bool.eq_false_iff, ne_eq, matHeld_iff, (getEnv_spec he).1]
    rintro ⟨ho, B, hB, hsite, hbid, hBo⟩
    rcases hfree with hown | hnone
    · exact absurd hown (by simp [ho])
    · exact absurd (hnone B hB hsite hbid) (by simp [hBo])
  refine ⟨fun hcase hroom hv hr hrun hbad => ?_, fun hroom hv hr hsel hcol hrun => ?_, fun hroom hr hsel hcol hrun htile => ?_, fun hr => ?_⟩
  · have hheld := hheldOf hr.env
    obtain ⟨rfl, -, -⟩ := hr.ctx
    have hissue : f.dsts = [] ∧ ∃ eff : Ctx → Res, exec i s = issueForm f (issOf h) eff s ∧ eff (c.begun f c.e (issOf h)) =
        (c.begun f c.e (issOf h)).matIssue i bad ⟨0, 0, vc, c.readRun 1 b n c.colLanes, c.runRegs b n c.colLanes⟩ := by
      rcases hcase with ⟨rfl, rfl, rfl, rfl, rfl⟩ | ⟨rfl, rfl, rfl, rfl, rfl⟩ | ⟨rfl, rfl, rfl, rfl, rfl⟩
      · refine ⟨rfl, (opMmq h q t p b).eff, rfl,
          (colIssue_run (c := c.begun (matForm [colField b (qBits q)]) c.e (issOf h)) hv hheld hrun).trans ?_⟩
        exact congrArg (fun bad => Ctx.matIssue _ _ bad _) ((firstFail_noRange _ _).trans (firstFail_one _))
      · exact ⟨rfl, (opMmqa h q t p b x).eff, rfl, colIssue_run (c := c.begun _ c.e (issOf h)) hv hheld hrun⟩
      · exact ⟨rfl, (opMmf h pf t p b).eff, rfl, colIssue_run (c := c.begun _ c.e (issOf h)) hv hheld hrun⟩
    obtain ⟨hfs, eff, hx, he⟩ := hissue
    obtain ⟨t', u, B, op, ht, hent, hB, hop, hcount⟩ := ((mat_effect hr hx he).2 hheld).2.2 hbad hroom
    obtain ⟨hq, ho, hti, hsc⟩ := taken hB
    exact ⟨t', u, op, ⟨B, ht, hent, locks_entered hcount, hq, ho, hti, hsc, congrArg MatOp.id hop, congrArg MatOp.ins hop,
        congrArg MatOp.team hop, congrArg MatOp.fin hop, congrArg MatOp.ov hop⟩, congrArg MatOp.vec hop, congrArg MatOp.vc hop,
      (hcount.unready_eq hfs).trans (List.append_nil _)⟩
  · obtain ⟨rfl, -, -⟩ := hr.ctx
    have hheld := hheldOf hr.env
    have he : (opTmvV2t h t a b).eff (c.begun (matForm [fA a 1, fB b 1]) c.e (issOf h)) =
        (c.begun (matForm [fA a 1, fB b 1]) c.e (issOf h)).matIssue (.tmvV2t h t a b) none
          ⟨0, sel.zeroExtend 64, 0, c.readRun 0 a ncol rows, c.runRegs a ncol c.lanes⟩ :=
      opTmvV2t_eff (c := c.begun _ c.e (issOf h)) h t hheld (tmvSel_eq _) (tmvBad_none hsel hcol) hrun
    obtain ⟨t', u, B, op, ht, hent, hB, hop, hcount⟩ := ((mat_effect hr rfl he).2 hheld).2.2 rfl hroom
    obtain ⟨hq, ho, hti, hsc⟩ := taken hB
    exact ⟨t', u, op, ⟨B, ht, hent, locks_entered hcount, hq, ho, hti, hsc, congrArg MatOp.id hop, congrArg MatOp.ins hop,
        congrArg MatOp.team hop, congrArg MatOp.fin hop, congrArg MatOp.ov hop⟩, congrArg MatOp.vec hop, congrArg MatOp.mask hop,
      congrArg MatOp.vb hop, (hcount.unready_eq rfl).trans (List.append_nil _)⟩
  · obtain ⟨rfl, -, -⟩ := hr.ctx
    have hheld := hheldOf hr.env
    have he := opTmvT2v_eff (c := c.begun g c.e (issOf h)) (d := d) h t hr.calm hheld (tmvSel_eq _) (tmvBad_none hsel hcol) hrun htile hroom
    let op := (c.begun g c.e (issOf h)).matOp (.tmvT2v h d t b) ⟨0, sel.zeroExtend 64, 0, c.runBases d, []⟩
    obtain ⟨t', u, B, ht, hent, hB, hcount⟩ :=
      enter_effect (fun B => { B with mat := B.mat.takes op }) (fun _ _ => rfl) (fun _ => rfl)
        (ins := .tmvT2v h d t b) hr rfl he
    obtain ⟨hq, ho, hti, hsc⟩ := taken (b := c.e.blk) (op := op) hB
    have hes := (getEnv_spec hr.env).1
    refine ⟨t', u, op, ⟨B, ht, hent, hcount.locks_eq, hq, ho, hti, hsc, (congrArg State.nextId hes :), rfl, rfl, rfl,
      congrArg (ovtab · c.e.la.ctx) hes⟩, rfl, rfl, fun r hmem => ?_⟩
    rw [Team.unready, hcount.waits, List.map_append, List.mem_append]
    refine .inr (List.mem_map.2 ⟨(.v r, c.m), List.mem_map.2 ⟨r, hmem, rfl⟩, rfl⟩)
  · obtain ⟨rfl, -, -⟩ := hr.ctx
    have hheld := hheldOf hr.env
    let F : Block → Block := fun B => { B with mat := { B.mat with owned := true } }
    have he : (opTstat d t.val).eff (c.begun gt c.e (issOf h)) =
        .done ((c.modTeam { (c.begun gt c.e (issOf h)).s with nextId := (c.begun gt c.e (issOf h)).s.nextId }
          (c.putTeam d 1 fun _ => tstatWord c.e.blk t.val)).modBlock c.e.who.bid F) := by
      refine (if_neg (Bool.eq_false_iff.1 hheld)).trans (congrArg Res.done ?_)
      refine (putOn_eq (c.begun gt c.e (issOf h)) d 1 _ _).trans ?_
      exact modTeam_modBlock_comm _ _ _ (F := F) _ (fun _ _ => rfl) fun _ => rfl
    obtain ⟨t', ts, ht, hrest, hB, hut, hoth⟩ := own_effect (ins := .tstat h d t) (F := F) _ (fun _ _ => rfl) (fun _ => rfl) (putTeam_idx c d 1 _)
      hr rfl he
    have hw := wrote_team gt c.e (issOf h) c d 1 (fun _ => tstatWord c.e.blk t.val) s.time rfl hr.noProbe hr.lane
    refine ⟨t', _, ht, ?_, hw.rest.masks, hw.sca, ?_, ?_⟩
    · rw [State.team?, hB]
      exact hut
    · rw [hrest]
    · exact sameScratch_of_block (getEnv_block hr.env) hB rfl hoth

end

section
/-! What a read of memory leaves (R209, R217, R218, R234, R441 to R450): it moves lines and levels, and no byte at its home. -/

namespace Sys2Proof.Machine

/-- Only caches, tags, leases and counters of host registers differ. -/
def OnlyCaches (s t : State) : Prop :=
  t = { s with lines := t.lines, l1 := t.l1, dir := t.dir, grants := t.grants, asleep := t.asleep, bar0 := t.bar0, mpoison := t.mpoison,
               sketch := t.sketch, cands := t.cands, msc := t.msc, psel := t.psel, lruIns := t.lruIns, czUnits := t.czUnits,
               czSect := t.czSect, tlb := t.tlb }

/-- A move that reads through one key slot: every place reached through that slot reads as before. -/
structure Reads (key : Nat) (s t : State) : Prop where
  frame : OnlyCaches s t
  devId : devId t = devId s
  value : ∀ q : Phys, q.key = key → (homeLine t q).1 = (homeLine s q).1

section
variable {s t u : State} {key : Nat} {p q : Phys}

theorem OnlyCaches.trans (h : OnlyCaches s t) (g : OnlyCaches t u) : OnlyCaches s u := by
  unfold OnlyCaches at *
  rw [g, h]

theorem Reads.refl (key : Nat) (s : State) : Reads key s s := ⟨rfl, rfl, fun _ _ => rfl⟩

theorem Reads.trans (h : Reads key s t) (g : Reads key t u) : Reads key s u :=
  ⟨h.frame.trans g.frame, g.devId.trans h.devId, fun q hq => (g.value q hq).trans (h.value q hq)⟩

theorem Reads.foldl {α : Type} {f : State → α → State} (l : List α) (hf : ∀ s, ∀ a ∈ l, Reads key s (f s a)) :
    ∀ s, Reads key s (l.foldl f s) := by
  induction l with
  | nil => exact Reads.refl key
  | cons a l ih =>
    exact fun s => (hf s a List.mem_cons_self).trans (ih (fun s b hb => hf s b (List.mem_cons_of_mem _ hb)) _)

theorem Reads.blocks (h : Reads key s t) : t.blocks = s.blocks := by rw [h.frame]
theorem Reads.time (h : Reads key s t) : t.time = s.time := by rw [h.frame]
theorem Reads.launches (h : Reads key s t) : t.launches = s.launches := by rw [h.frame]
theorem Reads.mem (h : Reads key s t) : t.mem = s.mem := by rw [h.frame]

theorem placeOf_of_devId (h : Machine.devId t = Machine.devId s) (ilv key pa : Nat) : placeOf t ilv key pa = placeOf s ilv key pa := by
  simp only [placeOf, physOf, h]

theorem placeOf_key (s : State) (ilv key pa : Nat) : (placeOf s ilv key pa).key = key := by
  simp only [placeOf, physOf]
  repeat' split
  all_goals rfl

theorem Reads.sameMemory (h : Reads key s t) : SameMemory s t key := by
  intro ilv pa
  rw [placeOf_of_devId h.devId, homeBytes_one, homeBytes_one, h.value _ (placeOf_key ..)]

theorem Reads.homeBytes (h : Reads key s t) (hq : q.key = key) (n : Nat) : homeBytes t q n = Machine.homeBytes s q n :=
  homeBytes_eq fun _ _ => by rw [h.value q hq]

theorem devId_congr (h : t.bar0 = s.bar0) : Machine.devId t = Machine.devId s := by
  unfold Machine.devId bar
  rw [h]

theorem devId_barCount {off : Nat} (h : off / 4 ≠ 0x1D0000 / 4) : Machine.devId (barCount s off) = Machine.devId s := by
  unfold barCount
  extract_lets v
  split
  · rfl
  · exact devId_setBar s _ h

theorem SameHomes.reads (h : SameHomes s t) (hf : OnlyCaches s t) (hd : Machine.devId t = Machine.devId s) : Reads key s t :=
  ⟨hf, hd, fun q _ => h.value q⟩

theorem DropsLeases.reads {gone : CLine → Bool} (h : DropsLeases s t gone) (hd : Machine.devId t = Machine.devId s) : Reads key s t := by
  refine ⟨?_, hd, fun q _ => by rw [h.homeLine q]⟩
  have hf := h.frame
  unfold OnlyCopies at hf
  unfold OnlyCaches
  rw [hf]

/-! The memory-side cache, the TLB and the level-one caches. -/

theorem mscTouch_reads (s : State) (line ilv ctx : Nat) (write : Bool) : Reads key s (mscTouch s line ilv ctx write) := by
  have h := mscTouch_onlyMsc s line ilv ctx write
  refine h.sameHomes.reads ?_ (devId_congr ?_)
  · unfold OnlyMsc at h
    unfold OnlyCaches
    rw [h]
  · unfold OnlyMsc at h
    rw [h]

theorem tlbFill_reads (s : State) (cluster ctx : Nat) (t : Tr) : Reads key s (tlbFill s cluster ctx t) := by
  unfold tlbFill
  split
  · exact .refl key s
  · exact ⟨rfl, rfl, fun q _ => (SameHomes.mk rfl rfl rfl rfl).value q⟩

theorem useTlb_reads (s : State) (b : Block) (la : Launch) (t : Tr) (ea : Nat) : Reads key s (useTlb s b la t ea) := by
  unfold useTlb
  split
  · split
    · exact .refl key s
    · exact tlbFill_reads s _ _ t
  · exact .refl key s

/-- Only the level-one caches and the directory differ. -/
def OnlyTags (s t : State) : Prop := t = { s with l1 := t.l1, dir := t.dir }

theorem OnlyTags.trans (h : OnlyTags s t) (g : OnlyTags t u) : OnlyTags s u := by
  unfold OnlyTags at *
  rw [g, h]

theorem OnlyTags.reads (h : OnlyTags s t) : Reads key s t := by
  unfold OnlyTags at h
  rw [h]
  exact ⟨rfl, rfl, fun q _ => (SameHomes.mk rfl rfl rfl rfl).value q⟩

theorem l1Drop_onlyTags (s : State) (gone : L1Copy → Bool) : OnlyTags s (l1Drop s gone) := by
  unfold l1Drop
  extract_lets out lines s1
  split <;> rfl

theorem l1Put_onlyTags (s : State) (k : L1Copy) : OnlyTags s (l1Put s k) := by
  unfold l1Put
  extract_lets set gone s1
  have h1 : OnlyTags s s1 := by
    clear_value gone
    cases gone with
    | none => rfl
    | some g => exact l1Drop_onlyTags s _
  exact h1.trans rfl

theorem l1Take_onlyTags (s : State) (k : L1Copy) : OnlyTags s (l1Take s k) := by
  unfold l1Take
  split
  · exact l1Put_onlyTags s k
  · split
    · rfl
    · refine OnlyTags.trans ?_ (l1Put_onlyTags _ _)
      rfl

theorem dirRoom_onlyTags (s : State) (die slice : Nat) : OnlyTags s (dirRoom s die slice) := by
  unfold dirRoom
  extract_lets mine
  split
  · rfl
  · split
    · rfl
    · exact (l1Drop_onlyTags s _).trans rfl

theorem dirRead_onlyTags (s : State) (die line core : Nat) : OnlyTags s (dirRead s die line core) := by
  unfold dirRead
  split
  · exact (dirRoom_onlyTags s _ _).trans rfl
  · repeat' split
    all_goals rfl

/-! Level-two lines. -/

theorem find?_filter_split {α : Type} (f g : α → Bool) (l : List α) (h : (∀ x, f x = true → g x = true) ∨ ∀ x, f x = true → g x = false) :
    (l.filter g ++ l.filter fun x => !g x).find? f = l.find? f := by
  rw [List.find?_append]
  rcases h with h | h
  · rw [find?_filter_of_imp l h]
    cases hf : l.find? f with
    | some x => rfl
    | none => exact List.find?_eq_none.2 fun x hx => List.find?_eq_none.1 hf x (List.mem_filter.1 hx).1
  · have hnone : (l.filter g).find? f = none :=
      List.find?_eq_none.2 fun x hx hfx => absurd (List.mem_filter.1 hx).2 (by simp [h x hfx])
    rw [hnone, Option.none_or]
    exact find?_filter_of_imp l fun x hx => by rw [h x hx]; rfl

theorem l2Use_reads (s : State) (die line : Nat) : Reads key s (l2Use s die line) := by
  refine ⟨rfl, rfl, fun q _ => value_congr (fun _ => congrArg _ ?_) rfl⟩
  refine find?_filter_split _ _ s.lines ?_
  by_cases hq : locDie (128 * q.line) = die ∧ q.line = line
  · refine .inl fun c hc => ?_
    simp only [Bool.and_eq_true, beq_iff_eq] at hc ⊢
    exact ⟨hc.2.trans hq.1, hc.1.1.trans hq.2⟩
  · refine .inr fun c hc => ?_
    simp only [Bool.and_eq_true, beq_iff_eq, Bool.and_eq_false_iff, beq_eq_false_iff_ne] at hc ⊢
    by_cases hd : c.die = die
    · exact .inr fun hl => hq ⟨hc.2.symm.trans hd, hc.1.1.symm.trans hl⟩
    · exact .inl hd

theorem l2Put_reads (s : State) (c : CLine) (cache : Cache) (h : c.stamp.isSome = true) : Reads key s (l2Put s c cache) := by
  refine ⟨rfl, rfl, fun q _ => value_congr (fun _ => congrArg _ ?_) rfl⟩
  refine find?_placeIn_of_not _ _ _ ?_
  rw [Bool.and_eq_false_iff, Bool.and_eq_false_iff]
  exact .inl (.inr (by simpa [Option.isNone_iff_eq_none, Option.isSome_iff_ne_none] using h))

theorem readCaches_reads (s : State) (r : Req) (p : Phys) (toL1 : Bool) : Reads key s (readCaches s r p toL1) := by
  unfold readCaches
  split
  · exact (l1Take_onlyTags s _).reads
  · extract_lets die s1
    have h1 : Reads key s s1 := l2Use_reads s die p.line
    split
    · exact h1
    · exact h1.trans ((dirRead_onlyTags s1 _ _ _).trans (l1Take_onlyTags _ _)).reads

theorem fillHome_reads (s : State) (ctx : Nat) (cache : Cache) (hk : p.kind = .own) (hkey : p.key = key) :
    Reads key s (fillHome s p ctx cache) := by
  have hframe : OnlyCaches s (fillHome s p ctx cache) ∧ Machine.devId (fillHome s p ctx cache) = Machine.devId s := by
    cases hc : homeCopy? s p.line with
    | some c =>
      rw [fillHome_of_some hc]
      exact ⟨rfl, rfl⟩
    | none =>
      rw [fillHome_of_none hc]
      let s1 := l2Put s ⟨locDie p.loc, p.line, memLine s p, false, s.mpoison.contains p.line, none, p.ilv⟩ cache
      have h := mscTouch_reads (key := key) s1 p.line p.ilv ctx false
      have h1 : OnlyCaches s s1 := rfl
      exact ⟨h1.trans h.frame, h.devId⟩
  exact ⟨hframe.1, hframe.2, fun q hq => fillHome_value s p ctx cache hk fun _ => hq.trans hkey.symm⟩

theorem dropLines_reads (s : State) {gone : CLine → Bool} (h : ∀ c, gone c = true → c.stamp.isSome = true) :
    Reads key s (dropLines s gone) :=
  (dropLines_dropsLeases s h).reads (devId_congr (dropLines_bar0 s gone))

theorem putGrant_reads (s : State) (line expiry : Nat) (remote : Bool) : Reads key s (putGrant s line expiry remote) := by
  refine (putGrant_sameHomes s line expiry remote).reads ?_ (devId_congr ?_)
  · rw [putGrant_rest]
    rfl
  · rw [putGrant_rest]

theorem barCount_reads (s : State) {off : Nat} (h : off / 4 ≠ 0x1D0000 / 4) : Reads key s (barCount s off) :=
  ((DropsLeases.of_lines_eq (barCount_onlyCopies s off) (barCount_lines s off))).reads (devId_barCount h)

theorem wakeSlice_reads (s : State) (die slice : Nat) : Reads key s (wakeSlice s die slice) := by
  unfold wakeSlice
  split
  · extract_lets slept s1 n s2
    have h1 : Reads key s s1 := ⟨rfl, rfl, fun q _ => (SameHomes.mk rfl rfl rfl rfl).value q⟩
    split
    · exact h1
    · have h2 : Reads key s1 s2 := dropLines_reads s1 fun c hc => by
        simp only [leasedIn, Bool.and_eq_true] at hc
        exact hc.2
      exact (h1.trans h2).trans (Reads.foldl _ (fun s _ _ => barCount_reads s (by omega)) s2)
  · exact .refl key s

theorem wakeFor_reads (s : State) (core : Nat) (p : Phys) : Reads key s (wakeFor s core p) := by
  unfold wakeFor
  extract_lets s1
  have h1 : Reads key s s1 := wakeSlice_reads s _ _
  split
  · exact h1.trans (wakeSlice_reads _ _ _)
  · exact h1

/-! A core's read of a line (R234, R441, R446 to R449). -/

theorem atHome_reads (s : State) (r : Req) (hkey : p.key = key) : Reads key s (atHome s r p) := by
  unfold atHome
  split
  · next hk => exact fillHome_reads s _ _ hk hkey
  · exact .refl key s

theorem leaseRead_reads (s : State) (r : Req) (toL1 : Bool) (hkey : p.key = key) : Reads key s (leaseRead s r p toL1).2 := by
  refine (atHome_reads s r hkey).trans ?_
  change Reads key (atHome s r p) (if grants? (atHome s r p) p then _ else _ : (LineData × Bool) × State).2
  split
  · exact ((putGrant_reads _ _ _ _).trans (l2Put_reads _ _ _ rfl)).trans (readCaches_reads _ _ _ _)
  · change Reads key _ (if tableFull (atHome s r p) p then _ else _)
    split
    · exact barCount_reads _ (by omega)
    · exact .refl key _

theorem farRead_reads (s : State) (r : Req) (toL1 : Bool) (hkey : p.key = key) : Reads key s (farRead s r p toL1).2 := by
  unfold farRead
  split
  · split
    · exact readCaches_reads s r p toL1
    · exact (dropLines_reads s fun c hc => by
        simp only [Bool.and_eq_true] at hc
        exact hc.2).trans (leaseRead_reads _ r toL1 hkey)
  · exact leaseRead_reads s r toL1 hkey

theorem coreReadLine_reads (s : State) (r : Req) (toL1 : Bool) (hkey : p.key = key) : Reads key s (coreReadLine s r p toL1).2 := by
  by_cases hfar : Far p (coreDie r.core)
  · rw [coreReadLine_far hfar]
    exact (wakeFor_reads s r.core p).trans (farRead_reads _ r toL1 hkey)
  · refine (wakeFor_reads s r.core p).trans ?_
    unfold Far at hfar
    rw [not_or, not_or] at hfar
    obtain ⟨hown, hpod, hhost⟩ := hfar
    cases hk : p.kind with
    | own =>
      have hdie : locDie p.loc = coreDie r.core := by
        by_contra hne
        exact hown ⟨hk, hne⟩
      simp only [coreReadLine, hk, if_pos hdie]
      exact (fillHome_reads _ _ _ hk hkey).trans (readCaches_reads _ _ _ _)
    | pod dev => exact absurd ⟨dev, hk⟩ hpod
    | host =>
      have hrol : p.rol = false := Bool.eq_false_iff.2 fun h => hhost ⟨hk, h⟩
      simp only [coreReadLine, hk, hrol]
      exact .refl key _

/-- A line of this module on the core's own die is read as its home holds it. -/
theorem coreReadLine_own (s : State) (r : Req) (toL1 : Bool) (hk : p.kind = .own) (hdie : locDie p.loc = coreDie r.core) :
    (coreReadLine s r p toL1).1.1 = (homeLine s p).1 := by
  have h : (coreReadLine s r p toL1).1 = homeLine (fillHome (wakeFor s r.core p) p r.ctx r.cache) p := by
    simp only [coreReadLine, hk, if_pos hdie]
  rw [h, fillHome_homeLine _ _ _ _ hk]
  exact (wakeFor_reads (key := p.key) s r.core p).value p rfl

/-! A place read (R203, R209). -/

/-- The memory place that a target names is reached through a key slot. -/
def Target.through (key : Nat) : Target → Prop
  | .scr _ _ => True
  | .mem _ p => p.key = key

theorem readPlace_reads (s : State) (b : Block) (la : Launch) (cache : Cache) (ea : Nat) {tg : Target} (n : Nat)
    (h : tg.through key) : Reads key s (readPlace s b la cache ea tg n).2 := by
  cases tg with
  | scr bid off =>
    unfold readPlace
    dsimp only
    split <;> exact .refl key s
  | mem t p =>
    unfold readPlace
    dsimp only
    split
    · exact mscTouch_reads s _ _ _ _
    · exact (useTlb_reads s b la t ea).trans (coreReadLine_reads _ _ _ h)

theorem readPlace_scr {B : Block} {bid : Nat} (h : s.block? bid = some B) (b : Block) (la : Launch) (cache : Cache) (ea off n : Nat) :
    (readPlace s b la cache ea (.scr bid off) n).1.1 = bytesAt B.scratch off n := by
  simp only [readPlace, h]

theorem readPlace_own (s : State) {b : Block} (la : Launch) (cache : Cache) (ea : Nat) (t : Tr) (n : Nat) (hsta : b.site.isStation = false)
    (hk : p.kind = .own) (hdie : locDie p.loc = coreDie b.coreNum) :
    (readPlace s b la cache ea (.mem t p) n).1.1 = Machine.homeBytes s p n := by
  have h : (readPlace s b la cache ea (.mem t p) n).1.1 =
      lineBytes (coreReadLine (useTlb s b la t ea) (blockReq b la t cache ea) p).1.1 (p.loc % 128) n := by
    simp only [readPlace, hsta, Bool.false_eq_true, if_false]
  rw [h, coreReadLine_own _ _ _ hk hdie, (useTlb_reads (key := p.key) s b la t ea).value p rfl]
  rfl

end

end Sys2Proof.Machine

end

section
/-! Instructions that access memory: the team's registers and notes afterwards (R207, R235, R260), and the values that loads read. -/

namespace Sys2Proof.Machine

/-- Only what a team notes of its accesses differs (R235, R260, R469). -/
def OnlyNotes (t u : Team) : Prop :=
  u = { t with hostWait := u.hostWait, unacked := u.unacked, gwct := u.gwct, lastHost := u.lastHost }

section
variable {ins : Instr} {iss : Iss} {s s1 : State} {e : Env} {c : Ctx} {f : Form} {eff : Ctx → Res} {t u v : Team} {d : Opnd} {n : Nat}
  {val : Nat → Nat}

theorem OnlyNotes.refl (t : Team) : OnlyNotes t t := rfl

theorem OnlyNotes.trans (h : OnlyNotes t u) (g : OnlyNotes u v) : OnlyNotes t v := by
  unfold OnlyNotes at *
  rw [g, h]

theorem OnlyNotes.idx (h : OnlyNotes t u) : u.idx = t.idx := by rw [h]
theorem OnlyNotes.probe (h : OnlyNotes t u) : u.probe = t.probe := by rw [h]

theorem inherit_onlyNotes (t u : Team) : OnlyNotes t (t.inherit u) := rfl

theorem foldl_inherit_onlyNotes (l : List Team) : ∀ t : Team, OnlyNotes t (l.foldl Team.inherit t) := by
  induction l with
  | nil => exact .refl
  | cons u l ih => exact fun t => (inherit_onlyNotes t u).trans (ih _)

/-- An effect on the notes of the issuing team alone. -/
def NotesOf (c : Ctx) (s s' : State) : Prop := ∃ H : Team → Team, (∀ t, OnlyNotes t (H t)) ∧ s' = c.modTeam s H

theorem NotesOf.refl (c : Ctx) (s : State) : NotesOf c s s := ⟨fun t => t, OnlyNotes.refl, (modTeam_id s _ _).symm⟩

theorem acquireAt_notesOf (c : Ctx) (sc : Scope) (s : State) : NotesOf c s (acquireAt s c.e.who sc) := by
  unfold acquireAt
  split
  · exact .refl c s
  · split
    · exact .refl c s
    · extract_lets us
      split
      · exact .refl c s
      · exact ⟨_, foldl_inherit_onlyNotes us, rfl⟩

theorem acquires_notesOf (c : Ctx) (ord : Order) (sc : Scope) (s : State) : NotesOf c s (c.acquires ord sc s) := by
  unfold Ctx.acquires
  split
  · exact acquireAt_notesOf c sc s
  · exact .refl c s

theorem noteHost_notesOf (c : Ctx) (d : Opnd) (k : Nat) (accs : List Acc) (s : State) : NotesOf c s (c.noteHost d k accs s) := by
  unfold Ctx.noteHost
  extract_lets host
  split
  · exact .refl c s
  · refine ⟨_, ?_, rfl⟩
    exact fun _ => rfl

theorem noteStores_notesOf (c : Ctx) (accs : List Acc) (s : State) : NotesOf c s (c.noteStores accs s) := by
  unfold Ctx.noteStores
  split
  · exact .refl c s
  · extract_lets ps lines host
    split
    · exact .refl c s
    · refine ⟨_, ?_, rfl⟩
      exact fun _ => rfl

/-- The registers and the rest of a team whose destination has been written and whose notes have changed, at the end of the issue. -/
theorem noted_team {H : Team → Team} (hH : ∀ t, OnlyNotes t (H t)) (hr : Runs f iss s e c) (d : Opnd) (n : Nat) (val : Nat → Nat) (now : Nat) :
    Noted f e c d n val ((H (c.putTeam d n val (e.team.begun [(f, c)] e iss))).ended [(f, c.begun f e iss)] now) := by
  obtain ⟨rfl, -, -⟩ := hr.ctx
  generalize hb : c.e.team.begun [(f, c)] c.e iss = b
  have hrest := begun_rest c.e.team [(f, c)] c.e iss hr.noProbe
  rw [hb] at hrest
  have hbx : b.x = c.e.team.x := (congrArg Team.x hrest).trans rfl
  have hbl : b.lanes = c.e.team.lanes := (congrArg Team.lanes hrest).trans rfl
  obtain ⟨hput, hvec, hsca⟩ := putTeam_spec c d n val b ((congrArg Team.v hrest).trans rfl) ((congrArg Team.s hrest).trans rfl)
  generalize hp : c.putTeam d n val b = p at hput hvec hsca ⊢
  have hnotes := hH p
  generalize H p = q at hnotes ⊢
  have hq : q = { b with v := p.v, s := p.s, hostWait := q.hostWait, unacked := q.unacked, gwct := q.gwct, lastHost := q.lastHost } := by
    unfold OnlyNotes at hnotes
    rw [hput] at hnotes
    exact hnotes
  have hqp : q.probe = none := (((congrArg Team.probe hq).trans rfl).trans ((congrArg Team.probe hrest).trans rfl)).trans hr.noProbe
  have hx := getX_ended (f := f) (c := c) (e := c.e) (iss := iss) hqp now
  have hu := ended_rest q [(f, c.begun f c.e iss)] now hqp
  generalize q.ended [(f, c.begun f c.e iss)] now = u at hu hx ⊢
  have huv : u.v = p.v := ((congrArg Team.v hu).trans rfl).trans ((congrArg Team.v hq).trans rfl)
  have hus : u.s = p.s := ((congrArg Team.s hu).trans rfl).trans ((congrArg Team.s hq).trans rfl)
  refine ⟨fun r l hl => ?_, fun r => ?_, fun x l hl => ?_, ?_⟩
  · rw [← hvec r l hl, Team.getV, huv, Team.getV]
  · rw [← hsca r, Team.getS, hus, Team.getS]
  · have hqx : q.x = c.e.team.x := ((congrArg Team.x hq).trans rfl).trans hbx
    have hql : q.lanes = c.e.team.lanes := ((congrArg Team.lanes hq).trans rfl).trans hbl
    rw [hx x l hl, Team.getX, hqx, hql]
    rfl
  · unfold SameTeamAcc
    have hqe : q = { c.e.team with v := p.v, s := p.s, records := b.records, waits := b.waits, hostWait := q.hostWait,
                                   unacked := q.unacked, gwct := q.gwct, lastHost := q.lastHost } := by
      refine hq.trans ?_
      exact congrArg (fun t : Team => { t with
        v := p.v, s := p.s, hostWait := q.hostWait, unacked := q.unacked, gwct := q.gwct, lastHost := q.lastHost }) hrest
    have hw : u.waits = b.waits := ((congrArg Team.waits hu).trans rfl).trans ((congrArg Team.waits hqe).trans rfl)
    have hh : u.hostWait = q.hostWait := (congrArg Team.hostWait hu).trans rfl
    have hn : u.unacked = q.unacked := (congrArg Team.unacked hu).trans rfl
    have hg : u.gwct = q.gwct := (congrArg Team.gwct hu).trans rfl
    have hl : u.lastHost = q.lastHost := (congrArg Team.lastHost hu).trans rfl
    rw [hw, hh, hn, hg, hl, huv, hus]
    refine hu.trans ?_
    exact congrArg (fun t : Team => { t with x := u.x, records := u.records, splits := u.splits }) hqe

theorem ended_regs (t : Team) (fs : List (Form × Ctx)) (now : Nat) (hp : t.probe = none) :
    (t.ended fs now).v = t.v ∧ (t.ended fs now).s = t.s ∧ (t.ended fs now).k = t.k := by
  have h := ended_rest t fs now hp
  exact ⟨(congrArg Team.v h).trans rfl, (congrArg Team.s h).trans rfl, (congrArg Team.k h).trans rfl⟩

/-- A scalar destination leaves the vector registers, and another the scalar ones. -/
theorem putTeam_other (c : Ctx) (d : Opnd) (n : Nat) (val : Nat → Nat) (t : Team) :
    (opIsS d = true → (c.putTeam d n val t).v = t.v) ∧ (opIsS d = false → (c.putTeam d n val t).s = t.s) ∧
      (c.putTeam d n val t).probe = t.probe := by
  by_cases hd : opIsS d = true
  · refine ⟨fun _ => ?_, fun h => absurd hd (by simp [h]), ?_⟩
    all_goals
      cases d with
      | s r0 =>
        have h : c.putTeam (.s r0) n val t = { t with s := (c.putTeam (.s r0) n val t).s } := (setS_run r0.val (val 0) n t).1
        rw [h]
      | _ => simp [opIsS] at hd
  · have hd : opIsS d = false := by simpa using hd
    have hv := (putLanes_spec c d n val hd c.lanes t (maskLanes_nodup _ _) fun l h => maskLanes_lt h).1
    have hcase : c.putTeam d n val t = c.lanes.foldl (fun t l => c.putLane d n l (val l) t) t ∨ c.putTeam d n val t = t := by
      cases d with
      | s r => exact absurd hd (by simp [opIsS])
      | _ => simp [Ctx.putTeam]
    rcases hcase with h | h
    · rw [h]
      exact ⟨fun h => absurd hd (by simp [h]), fun _ => (congrArg Team.s hv).trans rfl, (congrArg Team.probe hv).trans rfl⟩
    · rw [h]
      exact ⟨fun _ => rfl, fun _ => rfl, rfl⟩

/-- The registers of a team that takes a destination and notes, at the end of the issue. -/
theorem noted_regs {H : Team → Team} (hH : ∀ t, OnlyNotes t (H t)) (hr : Runs f iss s e c) (d : Opnd) (n : Nat) (val : Nat → Nat) (now : Nat) :
    let u := (H (c.putTeam d n val (e.team.begun [(f, c)] e iss))).ended [(f, c.begun f e iss)] now
    (opIsS d = true → u.v = e.team.v) ∧ (opIsS d = false → u.s = e.team.s) ∧ u.k = e.team.k := by
  intro u
  have hrest := begun_rest e.team [(f, c)] e iss hr.noProbe
  obtain ⟨hv, hs, hpr⟩ := putTeam_other c d n val (e.team.begun [(f, c)] e iss)
  have hput := (putTeam_spec c d n val (e.team.begun [(f, c)] e iss) ((congrArg Team.v hrest).trans (by rw [hr.ctx.1]))
    ((congrArg Team.s hrest).trans (by rw [hr.ctx.1]))).1
  have hnotes := hH (c.putTeam d n val (e.team.begun [(f, c)] e iss))
  obtain ⟨huv, hus, huk⟩ := ended_regs (H (c.putTeam d n val (e.team.begun [(f, c)] e iss))) [(f, c.begun f e iss)] now
    (hnotes.probe.trans (hpr.trans ((congrArg Team.probe hrest).trans hr.noProbe)))
  refine ⟨fun h => huv.trans ?_, fun h => hus.trans ?_, huk.trans ?_⟩
  · exact ((congrArg Team.v hnotes).trans rfl).trans ((hv h).trans ((congrArg Team.v hrest).trans rfl))
  · exact ((congrArg Team.s hnotes).trans rfl).trans ((hs h).trans ((congrArg Team.s hrest).trans rfl))
  · exact ((congrArg Team.k hnotes).trans rfl).trans (((congrArg Team.k hput).trans rfl).trans ((congrArg Team.k hrest).trans rfl))

theorem begun_team (hr : Runs f iss s e c) :
    (c.begun f e iss).s.team? e.who.bid e.who.team = some (e.team.begun [(f, c)] e iss) := by
  rw [show (c.begun f e iss).s = beginIssue [(f, c)] e iss from rfl, beginIssue_eq, (getEnv_spec hr.env).1]
  exact (onlyTeam_of hr.env (fun t => t.begun [(f, c)] e iss) (fun _ => rfl) _ _).team

/-- AN INSTRUCTION THAT ACCESSES MEMORY and then changes its team: `s1` is the state that its accesses leave. -/
theorem team_done {G : Team → Team} (hG : ∀ t, (G t).idx = t.idx) (hr : Runs f iss s e c) (hx : exec ins s = issueForm f iss eff s)
    (he : eff (c.begun f e iss) = .done (c.modTeam s1 G)) (htime : s1.time = s.time) {b : Team}
    (hteam : s1.team? e.who.bid e.who.team = some b) :
    ∃ t, exec ins s = .next t ∧ t = { s1 with blocks := t.blocks } ∧ SameScratch s1 t ∧
      t.team? e.who.bid e.who.team = some ((G b).ended [(f, c.begun f e iss)] s.time) := by
  obtain ⟨rfl, -, -⟩ := hr.ctx
  have hfin : finish [(f, c.begun f c.e iss)] c.e (c.modTeam s1 G) =
      s1.modTeam c.e.who.bid c.e.who.team fun t => (G t).ended [(f, c.begun f c.e iss)] s.time := by
    rw [finish_eq _ _ _ hr.calm, Ctx.modTeam, State.modTeam_modTeam _ _ _ _ _ hG]
    change s1.modTeam _ _ (fun t => (G t).ended _ s1.time) = _
    rw [htime]
  refine ⟨_, hx.trans ((hr.done he).trans (congrArg _ hfin)), rfl, sameScratch_modTeam _ _ _ _, ?_⟩
  rw [State.team?_modTeam _ _ _ _ _ _ fun t => (ended_idx _ _ _).trans (hG t), hteam, Option.map_some, if_pos ⟨rfl, rfl⟩]

/-- Notes taken in turn are notes. -/
theorem NotesOf.trans {s2 s3 : State} (h : NotesOf c s1 s2) (g : NotesOf c s2 s3) : NotesOf c s1 s3 := by
  obtain ⟨H, hH, rfl⟩ := h
  obtain ⟨K, hK, rfl⟩ := g
  exact ⟨fun t => K (H t), fun t => (hH t).trans (hK _), State.modTeam_modTeam _ _ _ _ _ fun t => (hH t).idx⟩

/-- AN INSTRUCTION THAT ACCESSES MEMORY, writes one destination and leaves notes. -/
theorem noted_effect {s2 : State} (hr : Runs f iss s e c) (hx : exec ins s = issueForm f iss eff s)
    (he : eff (c.begun f e iss) = .done s2) (hnotes : NotesOf c (c.modTeam s1 (c.putTeam d n val)) s2) (htime : s1.time = s.time)
    (hteam : s1.team? e.who.bid e.who.team = some (e.team.begun [(f, c)] e iss)) :
    ∃ t u, exec ins s = .next t ∧ t = { s1 with blocks := t.blocks } ∧ SameScratch s1 t ∧
      t.team? e.who.bid e.who.team = some u ∧ Noted f e c d n val u ∧ (opIsS d = true → u.v = e.team.v) ∧
      (opIsS d = false → u.s = e.team.s) ∧ u.k = e.team.k := by
  obtain ⟨H, hH, rfl⟩ := hnotes
  have hG : ∀ t, (H (c.putTeam d n val t)).idx = t.idx := fun t => ((hH _).idx).trans (putTeam_idx c d n val t)
  rw [Ctx.modTeam, Ctx.modTeam, State.modTeam_modTeam _ _ _ _ _ (putTeam_idx c d n val)] at he
  obtain ⟨t, ht, hframe, hscr, hteam'⟩ := team_done hG hr hx he htime hteam
  exact ⟨t, _, ht, hframe, hscr, hteam', noted_team hH hr d n val s.time, noted_regs hH hr d n val s.time⟩

/-! Values of lanes. -/

theorem laneVal_of_mem {l : List (Nat × Nat)} (hn : (l.map Prod.fst).Nodup) {k v : Nat} (h : (k, v) ∈ l) : laneVal l k = v := by
  unfold laneVal
  have hf : l.find? (fun p => p.1 == k) = some (k, v) := by
    induction l with
    | nil => simp at h
    | cons a l ih =>
      rw [List.map_cons, List.nodup_cons] at hn
      rcases List.mem_cons.1 h with rfl | hmem
      · exact List.find?_cons_of_pos (by simp)
      · have hne : a.1 ≠ k := fun hak => hn.1 (hak ▸ List.mem_map_of_mem hmem)
        rw [List.find?_cons_of_neg (by simpa using hne)]
        exact ih hn.2 hmem
  rw [hf]

/-- What a read of the lanes' places comes to: each lane's value, read in a state that reads as the first; and the state after. -/
theorem readLanes_spec {key : Nat} (c : Ctx) (cache : Cache) (n : Nat) (val : List Byte → Nat) (accs : List Acc)
    (hkey : ∀ q ∈ accs, q.2.2.through key) : ∀ s : State,
    Reads key s (c.readLanes s cache n val accs).2 ∧ (c.readLanes s cache n val accs).1.map Prod.fst = accs.map Prod.fst ∧
      ∀ q ∈ accs, ∃ s', Reads key s s' ∧
        (q.1, val (readPlace s' c.e.blk c.e.la cache q.2.1 q.2.2 n).1.1) ∈ (c.readLanes s cache n val accs).1 := by
  have key' : ∀ (accs : List Acc), (∀ q ∈ accs, q.2.2.through key) → ∀ (s : State) (l : List (Nat × Nat)),
      let r := accs.foldl (fun acc q =>
        let r := readPlace acc.2 c.e.blk c.e.la cache q.2.1 q.2.2 n
        (acc.1 ++ [(q.1, val r.1.1)], r.2)) (l, s)
      Reads key s r.2 ∧ r.1.map Prod.fst = l.map Prod.fst ++ accs.map Prod.fst ∧ (∀ p ∈ l, p ∈ r.1) ∧
        ∀ q ∈ accs, ∃ s', Reads key s s' ∧ (q.1, val (readPlace s' c.e.blk c.e.la cache q.2.1 q.2.2 n).1.1) ∈ r.1 := by
    intro accs
    induction accs with
    | nil => exact fun _ s l => ⟨.refl key s, by simp, fun p hp => hp, by simp⟩
    | cons a accs ih =>
      intro hk s l
      have ha : Reads key s (readPlace s c.e.blk c.e.la cache a.2.1 a.2.2 n).2 := readPlace_reads s _ _ _ _ n (hk a List.mem_cons_self)
      obtain ⟨hreads, hfst, hkeep, hval⟩ := ih (fun q hq => hk q (List.mem_cons_of_mem _ hq))
        (readPlace s c.e.blk c.e.la cache a.2.1 a.2.2 n).2 (l ++ [(a.1, val (readPlace s c.e.blk c.e.la cache a.2.1 a.2.2 n).1.1)])
      refine ⟨ha.trans hreads, hfst.trans (by simp), fun p hp => hkeep p (by simp [hp]), fun q hq => ?_⟩
      rcases List.mem_cons.1 hq with rfl | hq
      · exact ⟨s, .refl key s, hkeep _ (by simp)⟩
      · obtain ⟨s', hs', hmem⟩ := hval q hq
        exact ⟨s', ha.trans hs', hmem⟩
  intro s
  obtain ⟨hreads, hfst, -, hval⟩ := key' accs hkey s []
  exact ⟨hreads, hfst, hval⟩

theorem goodAccs_lane {ls : List Nat} {ea : Nat → Nat} {k need : Nat} {extra : Nat → Target → Option Nat} {q : Acc}
    (h : q ∈ goodAccs (c.resolveLanes ls ea k need extra)) : q.1 ∈ ls ∧ q.2.1 = ea q.1 := by
  simp only [goodAccs, List.mem_filterMap, Ctx.resolveLanes, List.mem_map] at h
  obtain ⟨r, ⟨l, hl, rfl⟩, hr⟩ := h
  dsimp only at hr
  split at hr
  · obtain rfl := Option.some.inj hr
    exact ⟨hl, rfl⟩
  · simp at hr

theorem goodAccs_nodup {ls : List Nat} (hn : ls.Nodup) (ea : Nat → Nat) (k need : Nat) (extra : Nat → Target → Option Nat) :
    ((goodAccs (c.resolveLanes ls ea k need extra)).map Prod.fst).Nodup := by
  have hsub : ((goodAccs (c.resolveLanes ls ea k need extra)).map Prod.fst).Sublist ls := by
    induction ls with
    | nil => simp [goodAccs, Ctx.resolveLanes]
    | cons l ls ih =>
      have hstep := ih (List.nodup_cons.1 hn).2
      simp only [goodAccs, Ctx.resolveLanes, List.map_cons, List.filterMap_cons] at hstep ⊢
      split
      · exact hstep.cons _
      · next x hx =>
        split at hx
        · obtain rfl := Option.some.inj hx
          exact hstep.cons_cons _
        · simp at hx
  exact hn.sublist hsub

theorem through_of_oneKey {accs : List Acc} {key : Nat} (h : OneKey accs key) : ∀ q ∈ accs, q.2.2.through key := by
  intro q hq
  cases htg : q.2.2 with
  | scr bid off => trivial
  | mem t p => exact h q hq t p htg

end

end Sys2Proof.Machine

end

section
/-! Loads (R203, R207, R208). -/

namespace Sys2Proof.Machine

section
variable {ins : Instr} {iss : Iss} {s t : State} {e : Env} {c : Ctx} {f : Form} {eff : Ctx → Res} {key : Nat}

/-- A form that does not run on a station executes on a core (R80, R90). -/
theorem Runs.core (hr : Runs f iss s e c) (hf : f.sta = false) : e.station = false := by
  by_contra hsta
  have hgo := hr.go
  rw [gate_station (by simpa using hsta) (.inl hf)] at hgo
  cases hgo

/-- Two states' blocks hold the same scratchpads. -/
def ScratchAs (s t : State) : Prop := ∀ b, (t.block? b).map Block.scratch = (s.block? b).map Block.scratch

theorem scratchAs_begun (hr : Runs f iss s e c) : ScratchAs s (c.begun f e iss).s := by
  intro b
  rw [show (c.begun f e iss).s = beginIssue [(f, c)] e iss from rfl, beginIssue_eq, State.block?_modTeam, (getEnv_spec hr.env).1]
  change Option.map _ (Option.map _ (s.block? b)) = _
  cases s.block? b with
  | none => rfl
  | some B => by_cases hb : b = e.who.bid <;> simp [hb, Block.modTeam]

theorem ScratchAs.some {B : Block} {b : Nat} (h : ScratchAs s t) (hb : s.block? b = some B) :
    ∃ B', t.block? b = some B' ∧ B'.scratch = B.scratch := by
  have hm := h b
  rw [hb, Option.map_some] at hm
  exact Option.map_eq_some_iff.1 hm

/-- Recording an issue changes nothing that a place reads as. -/
theorem begun_homes (hr : Runs f iss s e c) : SameHomes s (c.begun f e iss).s ∧ devId (c.begun f e iss).s = devId s ∧
    (c.begun f e iss).s.time = s.time := by
  rw [show (c.begun f e iss).s = beginIssue [(f, c)] e iss from rfl, beginIssue_eq, (getEnv_spec hr.env).1]
  exact ⟨⟨rfl, rfl, rfl, rfl⟩, rfl, rfl⟩

/-- What the value of a lane is that its place gives (R203, R209). -/
def Gives (s : State) (b : Block) (n : Nat) (val : List Byte → Nat) (tg : Target) (v : Nat) : Prop :=
  match tg with
  | .scr bid off => ∀ B, s.block? bid = some B → v = val (bytesAt B.scratch off n)
  | .mem _ p => b.site.isStation = false ∧ p.kind = .own ∧ locDie p.loc = coreDie b.coreNum → v = val (homeBytes s p n)

/-- A place read after others, in a state that reads as at issue. -/
theorem readPlace_gives {s' : State} (hr : Runs f iss s e c) {tg : Target} (hs : Reads key (c.begun f e iss).s s') (htg : tg.through key)
    (la : Launch) (cache : Cache) (ea n : Nat) (val : List Byte → Nat) :
    Gives s e.blk n val tg (val (readPlace s' e.blk la cache ea tg n).1.1) := by
  cases tg with
  | scr bid off =>
    intro B hB
    obtain ⟨B', hB', hscr⟩ := (scratchAs_begun hr).some hB
    have hB'' : s'.block? bid = some B' := by
      rw [State.block?, hs.blocks]
      exact hB'
    rw [readPlace_scr hB'', hscr]
  | mem t p =>
    intro ⟨hsta, hk, hdie⟩
    rw [readPlace_own s' la cache ea t n hsta hk hdie, hs.homeBytes htg]
    exact congrArg val (homeBytes_eq fun i _ => by rw [(begun_homes hr).1.value p])

/-- What follows of memory once the accesses of an instruction have left a state that reads as at issue. -/
theorem memory_of_reads {s1 : State} (hr : Runs f iss s e c) (hs : Reads key (c.begun f e iss).s s1) (ht : t = { s1 with blocks := t.blocks })
    (hscr : SameScratch s1 t) : SameScratch s t ∧ SameMemory s t key := by
  obtain ⟨hhomes, hdev, -⟩ := begun_homes hr
  have h1 : SameScratch s s1 := (sameScratch_of_map (scratchAs_begun hr)).trans (sameScratch_of_blocks hs.blocks)
  refine ⟨h1.trans hscr, fun ilv pa => ?_⟩
  have htdev : devId t = devId s := by
    refine Eq.trans ?_ (hs.devId.trans hdev)
    rw [ht]
    rfl
  have htv : ∀ q, homeLine t q = homeLine s1 q := fun q => by
    rw [ht]
    rfl
  rw [placeOf_of_devId htdev, homeBytes_one, homeBytes_one, htv, hs.value _ (placeOf_key ..), hhomes.value]

/-- AN INSTRUCTION THAT READS the places of some lanes into a destination: memory and scratchpads read as before. -/
theorem read_effect {s2 : State} {cache : Cache} {n k : Nat} {val : List Byte → Nat} {d : Opnd} {accs : List Acc}
    {one : List (Nat × Nat) → Nat → Nat} (hr : Runs f iss s e c) (hx : exec ins s = issueForm f iss eff s)
    (he : eff (c.begun f e iss) = .done s2)
    (hnotes : NotesOf c (c.modTeam ((c.begun f e iss).readLanes (c.begun f e iss).s cache n val accs).2
      (c.putTeam d k (one ((c.begun f e iss).readLanes (c.begun f e iss).s cache n val accs).1))) s2)
    (hkey : ∀ q ∈ accs, q.2.2.through key) (hn : (accs.map Prod.fst).Nodup) :
    ∃ t u l, exec ins s = .next t ∧ t.team? e.who.bid e.who.team = some u ∧ Noted f e c d k (one l) u ∧
      (opIsS d = true → u.v = e.team.v) ∧ (opIsS d = false → u.s = e.team.s) ∧ u.k = e.team.k ∧ SameScratch s t ∧ SameMemory s t key ∧
      l.map Prod.fst = accs.map Prod.fst ∧ ∀ q ∈ accs, Gives s e.blk n val q.2.2 (laneVal l q.1) := by
  obtain ⟨hreads, hfst, hval⟩ := readLanes_spec (key := key) (c.begun f e iss) cache n val accs hkey (c.begun f e iss).s
  generalize Ctx.readLanes (c.begun f e iss) (c.begun f e iss).s cache n val accs = r at hreads hfst hval hnotes
  have hteam : r.2.team? e.who.bid e.who.team = some (e.team.begun [(f, c)] e iss) := by
    rw [State.team?, State.block?, hreads.blocks]
    exact begun_team hr
  obtain ⟨t, u, ht, hframe, hscr, hut, hnoted, hv, hsr, hk⟩ :=
    noted_effect hr hx he hnotes (hreads.time.trans (begun_homes hr).2.2) hteam
  obtain ⟨hss, hsm⟩ := memory_of_reads hr hreads hframe hscr
  refine ⟨t, u, r.1, ht, hut, hnoted, hv, hsr, hk, hss, hsm, hfst, fun q hq => ?_⟩
  obtain ⟨s', hs', hmem⟩ := hval q hq
  rw [laneVal_of_mem (hfst ▸ hn) hmem, show (c.begun f e iss).e = e from hr.ctx.1]
  exact readPlace_gives hr hs' (hkey q hq) _ _ _ _ _

/-- A LOAD whose lanes meet no cause: its destination takes the lanes' values. -/
theorem load_effect {mc : MemCtl} {sx gen : Bool} {d a b : Opnd} {ls : List Nat} (hr : Runs f iss s e c) (hx : exec ins s = issueForm f iss eff s)
    (he : eff (c.begun f e iss) = (c.begun f e iss).load mc sx gen d a b ls)
    (hgood : firstBad (c.resolveLanes ls (c.ea gen a b) (sizeBytes mc.size) 0 (c.poisonAt (sizeBytes mc.size))) [] = none)
    (hkey : ∀ q ∈ goodAccs (c.resolveLanes ls (c.ea gen a b) (sizeBytes mc.size) 0 (c.poisonAt (sizeBytes mc.size))), q.2.2.through key)
    (hn : ls.Nodup)
    (hput : ∀ val s, (c.begun f e iss).putOn ls d (sizeRegs mc.size) val s = c.modTeam s (c.putTeam d (sizeRegs mc.size) val)) :
    ∃ t u l, exec ins s = .next t ∧ t.team? e.who.bid e.who.team = some u ∧
      Noted f e c d (sizeRegs mc.size) (fun k => if opIsS d then laneVal l (ls.headD 0) else laneVal l k) u ∧
      (opIsS d = true → u.v = e.team.v) ∧ (opIsS d = false → u.s = e.team.s) ∧ SameScratch s t ∧ SameMemory s t key ∧
      ∀ q ∈ goodAccs (c.resolveLanes ls (c.ea gen a b) (sizeBytes mc.size) 0 (c.poisonAt (sizeBytes mc.size))),
        Gives s e.blk (sizeBytes mc.size) (loadVal mc.size sx) q.2.2 (laneVal l q.1) := by
  have hload := (load_calm (c := c.begun f e iss) hr.begun_calm mc sx gen d a b ls).trans
    (access_good (c := c.begun f e iss) (ls := ls) (ea := c.ea gen a b) (extra := c.poisonAt (sizeBytes mc.size)) hgood _)
  have hdone := he.trans hload
  dsimp only at hdone
  rw [hput] at hdone
  obtain ⟨t, u, l, ht, hut, hnoted, hv, hsr, -, hss, hsm, -, hval⟩ :=
    read_effect (one := fun l k => if opIsS d then laneVal l (ls.headD 0) else laneVal l k) hr hx hdone
      ((noteHost_notesOf (c.begun f e iss) _ _ _ _).trans (acquires_notesOf (c.begun f e iss) _ _ _)) hkey
      (goodAccs_nodup (c := c) hn _ _ _ _)
  exact ⟨t, u, l, ht, hut, hnoted, hv, hsr, hss, hsm, hval⟩

/-- The one lane of an access by the lowest lane. -/
theorem through_of_one {ls : List Nat} {l : Nat} (hls : ls = [l]) (ea : Nat → Nat) (n need : Nat) (extra : Nat → Target → Option Nat) :
    ∃ key, ∀ q ∈ goodAccs (c.resolveLanes ls ea n need extra), q.2.2.through key := by
  subst hls
  have hlen : (goodAccs (c.resolveLanes [l] ea n need extra)).length ≤ 1 := List.length_filterMap_le _ _
  match haccs : goodAccs (c.resolveLanes [l] ea n need extra) with
  | [] => exact ⟨0, by simp⟩
  | [q] =>
    cases htg : q.2.2 with
    | scr bid off =>
      refine ⟨0, fun q' hq => ?_⟩
      obtain rfl := List.mem_singleton.1 hq
      rw [htg]
      trivial
    | mem t p =>
      refine ⟨p.key, fun q' hq => ?_⟩
      obtain rfl := List.mem_singleton.1 hq
      rw [htg]
      rfl
  | q :: q' :: accs => simp [haccs] at hlen

end

end Sys2Proof.Machine

open Sys2Proof Sys2Proof.Machine

/-- Settles O14: the checks pass, so the lanes' places are read in turn, each read leaving every byte where it was. -/
theorem loadsReadBytes : Obligations.LoadsReadBytes := by
  unfold Obligations.LoadsReadBytes
  refine ⟨fun h mc sx gen d a b i iss s e c key => ?_, fun h mc sx r0 a b s e c => ?_⟩
  · intro n k f rs hi hr hd hgood hone
    have hrun : ∃ eff : Ctx → Res, exec i s = issueForm f iss eff s ∧
        eff (c.begun f e iss) = (c.begun f e iss).load mc sx gen d a b c.lanes := by
      cases gen with
      | true => exact ⟨(opLd mc sx d a b).eff, hi.run (o := opLd mc sx d a b) rfl rfl nofun, rfl⟩
      | false => exact ⟨(opLds mc sx d a b).eff, hi.run (o := opLds mc sx d a b) rfl rfl nofun, rfl⟩
    obtain ⟨eff, hx, he⟩ := hrun
    obtain ⟨t, u, l, ht, hut, hnoted, -, hs, hss, hsm, hval⟩ :=
      load_effect hr hx he hgood (through_of_oneKey hone) (maskLanes_nodup _ _) fun val s => putOn_eq (c.begun f e iss) d k val s
    refine ⟨t, u, _, ht, hut, hnoted.rest, hnoted.vec, hs hd, hnoted.idx, fun q hq => ?_, hss, hsm⟩
    have hv := hval q hq
    have hnot : ¬ opIsS d = true := by simp [hd]
    simp only [if_neg hnot]
    cases htg : q.2.2 <;> rw [htg] at hv <;> exact hv
  · intro n k f l0 rs hr hgood
    obtain ⟨key, hkey⟩ := through_of_one (c := c) (ls := [l0]) rfl (c.ea true a b) n 0 (c.poisonAt n)
    obtain ⟨rfl, -, -⟩ := hr.ctx
    obtain ⟨t, u, l, ht, hut, hnoted, hv, -, hss, -, hval⟩ :=
      load_effect (ins := .ldu h mc sx (.s r0) a b) (eff := (opLdu mc sx (.s r0) a b).eff) (ls := [l0]) hr rfl rfl hgood hkey
        (List.nodup_singleton _) fun _ _ => rfl
    refine ⟨t, u, laneVal l l0, ht, hut, hnoted.rest, hv rfl, fun r => hnoted.sca r, hss, fun q hq => ?_⟩
    have hg := hval q hq
    rw [List.mem_singleton.1 (goodAccs_lane hq).1] at hg
    cases htg : q.2.2 with
    | scr bid off =>
      rw [htg] at hg
      exact hg
    | mem t p =>
      rw [htg] at hg
      exact fun hp => hg ⟨hr.core rfl, hp⟩

end

section
/-! Attention, evictions, calls and bundle fetches enter their engines (R345, R355, R375, R434); `PLATR` (R359). -/

namespace Sys2Proof.Machine

section
variable {ins : Instr} {iss : Iss} {s s1 : State} {e : Env} {c : Ctx} {f : Form} {eff : Ctx → Res} {cls : Nat}

/-- AN INSTRUCTION COUNTED as an operation of a module-wide engine: `s1` is the state with the operation added, its blocks those of
the issue. -/
theorem count_effect (hr : Runs f iss s e c) (hx : exec ins s = issueForm f iss eff s)
    (he : eff (c.begun f e iss) = .done (c.modTeam s1 fun t => t.addOp s.nextId cls)) (hb : s1.blocks = (c.begun f e iss).s.blocks)
    (htime : s1.time = s.time) :
    ∃ t u, exec ins s = .next t ∧ t = { s1 with blocks := t.blocks } ∧ SameScratch s t ∧
      t.team? e.who.bid e.who.team = some u ∧ Counted f e c s.nextId cls [] [] u ∧ u.v = e.team.v ∧ u.s = e.team.s ∧ u.k = e.team.k := by
  have hteam : s1.team? e.who.bid e.who.team = some (e.team.begun [(f, c)] e iss) := by
    rw [State.team?, State.block?, hb]
    exact begun_team hr
  obtain ⟨t, ht, hframe, hscr, hut⟩ := team_done (G := fun t => t.addOp s.nextId cls) (fun _ => rfl) hr hx he htime hteam
  have hcount := counted_team hr s.nextId cls s.time [] []
  rw [enters_plain] at hcount
  refine ⟨t, _, ht, hframe, ?_, hut, hcount, ?_⟩
  · exact ((sameScratch_of_map (scratchAs_begun hr)).trans (sameScratch_of_blocks hb)).trans hscr
  · have hrest := hcount.rest
    generalize ((e.team.begun [(f, c)] e iss).addOp s.nextId cls).ended [(f, c.begun f e iss)] s.time = u at hrest
    exact ⟨(congrArg Team.v hrest).trans rfl, (congrArg Team.s hrest).trans rfl, (congrArg Team.k hrest).trans rfl⟩

theorem begun_nextId (hr : Runs f iss s e c) : (c.begun f e iss).s.nextId = s.nextId := by
  rw [← (getEnv_spec hr.env).1]
  rfl

theorem not_cntFull {t : Team} (h : t.count cls < 255) : cntFull t cls = false := by
  simp only [cntFull, decide_eq_false_iff_not]
  omega

/-- The issue of an attention instruction (R345). -/
theorem attIssue_bad {a b x : Opnd} {k : Nat} {tr : W64}
    (h : attCheck c.e.blk (attKind ins) (c.uni 0 a).toNat (c.uni 2 x).toNat = some (k, tr)) :
    c.attIssue ins a b x = .trap k tr (c.e.low c.m) := by
  simp only [Ctx.attIssue, h]

theorem attFull_iff (e : Env) : attFull e.blk = true ↔ (if e.station then 1 else 2) ≤ e.blk.atts.length := by
  rw [attFull, decide_eq_true_iff]
  rfl

theorem attIssue_full {a b x : Opnd} (h : attCheck c.e.blk (attKind ins) (c.uni 0 a).toNat (c.uni 2 x).toNat = none)
    (hf : (if c.e.station then 1 else 2) ≤ c.e.blk.atts.length ∨ 255 ≤ c.e.team.count 4) : c.attIssue ins a b x = .hold .limit := by
  have hfull : (attFull c.e.blk || cntFull c.e.team 4) = true := by
    rw [Bool.or_eq_true, attFull_iff, cntFull, decide_eq_true_iff]
    exact hf
  simp only [Ctx.attIssue, h, hfull, if_true]

/-- The engine's record of an attention instruction (R345). -/
def Ctx.attOp (c : Ctx) (ins : Instr) (a b x : Opnd) : AttOp :=
  ⟨c.s.nextId, c.e.who.team, ins, c.e.rcd.pc, (c.uni 0 a).toNat, (c.uni 1 b).toNat, (c.uni 2 x).toNat,
    c.e.blk.copyOut (c.uni 0 a).toNat 64, false, 0, [], 0, []⟩

theorem attIssue_room {a b x : Opnd} (h : attCheck c.e.blk (attKind ins) (c.uni 0 a).toNat (c.uni 2 x).toNat = none)
    (hn : c.e.blk.atts.length < (if c.e.station then 1 else 2)) (hc : c.e.team.count 4 < 255) :
    c.attIssue ins a b x = .done ((c.enter 4 [] []).modBlock c.e.who.bid fun B => { B with atts := B.atts ++ [c.attOp ins a b x] }) := by
  have hfull : (attFull c.e.blk || cntFull c.e.team 4) = false := by
    rw [Bool.or_eq_false_iff, not_cntFull hc, Bool.eq_false_iff, ne_eq, attFull_iff]
    exact ⟨by omega, rfl⟩
  simp only [Ctx.attIssue, h, hfull, Bool.false_eq_true, if_false, Ctx.enter, enters_plain]
  rfl

/-- An eviction request that its checks pass and its counter has room for (R355). -/
theorem opEvict_room {a : Opnd} (h : evictCheck c.e.blk (c.uni 0 a).toNat = none) (hc : c.e.team.count 4 < 255) :
    (opEvict a).eff c = .done (c.modTeam { c.s with
      nextId := c.s.nextId + 1
      evicts := c.s.evicts ++ [⟨c.s.nextId, c.e.blk.q, c.e.blk.lseq, c.e.blk.idx, c.e.who.team, c.s.nextId, c.e.la.ctx, c.e.rcd.pc,
        BitVec.ofNat 128 (c.e.blk.num (c.uni 0 a).toNat 16), .waiting, []⟩] } fun t => t.addOp c.s.nextId 4) := by
  simp only [opEvict, h, not_cntFull hc, Bool.false_eq_true, if_false]

/-- The engine's record of a bundle fetch (R434). -/
def Ctx.fetchOp (c : Ctx) (a b x : Opnd) : FetchOp :=
  ⟨c.s.nextId, c.e.who.team, (c.uni 0 a).toNat, c.uni64 1 b, (c.uni 2 x).toNat, c.e.team.vs, c.e.rcd.pc⟩

theorem opBfetch_room {a b x : Opnd} (h0 : 0 < (c.uni 2 x).toNat) (h256 : (c.uni 2 x).toNat ≤ 256)
    (hfit : (c.uni 0 a).toNat + 32 + 144 * (c.uni 2 x).toNat ≤ c.e.blk.scratchLen) (hal : (c.uni 0 a).toNat % 16 = 0)
    (hc : c.e.team.count 5 < 255) : (opBfetch a b x).eff c =
      .done ((c.enter 5 [] []).modBlock c.e.who.bid fun B => { B with fetches := B.fetches ++ [c.fetchOp a b x] }) := by
  have hill : illIf ((c.uni 2 x).toNat == 0 || decide (256 < (c.uni 2 x).toNat)) = none := by
    have h1 : ((c.uni 2 x).toNat == 0) = false := by simp; omega
    have h2 : decide (256 < (c.uni 2 x).toNat) = false := by simp; omega
    rw [h1, h2]
    rfl
  have hspw : spwinIf c.e.blk [((c.uni 0 a).toNat, 32 + 144 * (c.uni 2 x).toNat)] = none := by
    have hf : c.e.blk.fits (c.uni 0 a).toNat (32 + 144 * (c.uni 2 x).toNat) = true := by
      rw [Block.fits, decide_eq_true_iff]
      omega
    simp [spwinIf, hf]
  have hali : alignIf [((c.uni 0 a).toNat, 16)] = none := by simp [alignIf, hal]
  simp only [opBfetch, hill, hspw, hali, firstFail, List.findSome?_cons, List.findSome?_nil, id, not_cntFull hc, Bool.false_eq_true, if_false,
    Ctx.enter, enters_plain]
  rfl

/-- The dispatcher's record of a call (R375). -/
def Ctx.callOf (c : Ctx) (off stack : Nat) (bar : Option Nat) : Call :=
  { id := c.s.nextId, q := c.e.blk.q, lseq := c.e.blk.lseq, idx := c.e.blk.idx, team := c.e.who.team, op := c.s.nextId, ctx := c.e.la.ctx,
    pc := c.e.rcd.pc, stack := stack, prio := c.e.team.prio.toNat,
    msg := c.e.blk.copyOut off (16 * (nmMsgOf (c.e.blk.copyOut off 32)).len), bar := bar, phase := .issued, since := c.s.time,
    station := 0, rstat := 0, cause := 0, data := [], fteam := 0, flane := 0, fpc := 0, trapa := 0, counted := false, expiry := 0 }

theorem nmCall_full {byAddr : Bool} {a b x : Opnd} (h : 8 ≤ (blockCalls c.e.s c.e.blk).length ∨ 255 ≤ c.e.team.count 3) :
    c.nmCall byAddr a b x = .hold .limit := by
  refine if_pos ?_
  rw [cntFull, decide_eq_true_iff]
  exact h

theorem nmCall_room {byAddr : Bool} {a b x : Opnd} {stack : Nat} (hn : (blockCalls c.e.s c.e.blk).length < 8) (hc : c.e.team.count 3 < 255)
    (hrel : c.relHold true .dev = none)
    (hcheck : nmCheck c.e.blk (c.uni 0 a).toNat (if byAddr then none else some (c.uni 1 b).toNat)
      (if opIsZero x then none else some (c.uni 2 x).toNat) = none)
    (hstack : (if byAddr then nmStack c.e (c.uni64 1 b).toNat else .ok (c.uni 1 b).toNat) = .ok stack) : c.nmCall byAddr a b x =
      .done (c.modTeam { c.s with
        nextId := c.s.nextId + 1
        calls := c.s.calls ++ [c.callOf (c.uni 0 a).toNat stack (if opIsZero x then none else some (c.uni 2 x).toNat)] }
        fun t => t.addOp c.s.nextId 3) := by
  have hnot : ¬ (8 ≤ (blockCalls c.e.s c.e.blk).length ∨ cntFull c.e.team 3 = true) := by
    rw [not_cntFull hc]
    simp only [Bool.false_eq_true, or_false]
    omega
  refine (if_neg hnot).trans ((afterRel_none hrel _).trans ?_)
  simp only [hcheck, hstack]
  rfl

theorem nmMsgOf_len (m : Memory) : (nmMsgOf m).len = numAt m 12 1 := rfl

theorem callOf_msg {off stack : Nat} {bar : Option Nat} :
    (c.callOf off stack bar).msg = c.e.blk.copyOut off (16 * numAt (c.e.blk.copyOut off 32) 12 1) := by
  unfold Ctx.callOf
  dsimp only
  rw [nmMsgOf_len]

/-! `PLATR` (R359). -/

theorem laneVal_absent {l : List (Nat × Nat)} {k : Nat} (h : k ∉ l.map Prod.fst) : laneVal l k = 0 := by
  unfold laneVal
  have hf : l.find? (fun p => p.1 == k) = none :=
    List.find?_eq_none.2 fun p hp hpk => h (List.mem_map.2 ⟨p, hp, by simpa using hpk⟩)
  rw [hf]

theorem lanesOf_nodup (c : Ctx) (one : Bool) (p : Nat → Bool) : ((if one then [c.e.low c.m] else c.lanes).filter p).Nodup := by
  refine List.Nodup.filter p ?_
  cases one with
  | true => exact List.nodup_singleton _
  | false => exact maskLanes_nodup _ _

/-- A vector destination's registers depend on the values of a vector destination alone. -/
theorem vAfter_vec (c : Ctx) (d : Opnd) (n : Nat) (v w : Nat → Nat) (r l : Nat) (h : opIsS d = false → v l = w l) :
    c.vAfter d n v r l = c.vAfter d n w r l := by
  by_cases hd : opIsS d = true
  · cases d <;> simp [opIsS] at hd
    rfl
  · unfold Ctx.vAfter
    rw [h (by simpa using hd)]

/-- A scalar destination's registers depend on the first value alone. -/
theorem sAfter_sca (c : Ctx) (d : Opnd) (n : Nat) (v w : Nat → Nat) (r : Nat) (h : opIsS d = true → v 0 = w 0) :
    c.sAfter d n v r = c.sAfter d n w r := by
  cases d with
  | s r0 => rw [Ctx.sAfter, Ctx.sAfter, h rfl]
  | _ => rfl

theorem platr_good {d a b : Opnd} {plat len : Nat} (hp : c.e.probing = false) (hhead : c.platHead (c.uni64 0 a).toNat = .ok (plat, len)) :
    let x : Nat → Nat := fun l => (c.rd 1 b l).toNat
    let rs := c.resolveLanes ((if opIsS d then [c.e.low c.m] else c.lanes).filter fun l => decide (x l < len))
      (fun l => (plat + 4 * x l) % 2 ^ 64) 4 0 (c.poisonAt 4)
    firstBad rs [] = none → (opPlatr d a b).eff c = .done (c.modTeam (c.readLanes c.s .normal 4 leNat (goodAccs rs)).2
      (c.putTeam d 1 fun l => laneVal (c.readLanes c.s .normal 4 leNat (goodAccs rs)).1 (if opIsS d then c.e.low c.m else l))) := by
  intro x rs hgood
  have hput : ∀ val s, c.putOn (if opIsS d then [c.e.low c.m] else c.lanes) d 1 val s = c.modTeam s (c.putTeam d 1 val) := by
    intro val s
    rw [← putOn_eq]
    cases d <;> rfl
  unfold opPlatr
  simp only [hp, Bool.false_and, Bool.false_eq_true, if_false, hhead]
  exact (access_good hgood _).trans (congrArg Res.done (hput _ _))

end

end Sys2Proof.Machine

open Sys2Proof Sys2Proof.Machine

/-- Settles O36: each of these instructions checks, waits for room and enters its engine; `PLATR` reads the entries of its lanes. -/
theorem farOperationsAndPlat : Obligations.FarOperationsAndPlat := by
  unfold Obligations.FarOperationsAndPlat
  refine ⟨fun h a b x i byAddr stack s e c => ?_, fun h d a b s e c plat len key => ?_⟩
  · extract_lets off cnt blk fa fe ff fn bar counted
    refine ⟨fun hcase hr => ?_, fun hr hcheck hcount => ?_, fun hr h0 h256 hfit hal hcount => ?_, fun hi hr hrel hcheck hstack => ?_⟩
    · have hissue : ∃ eff : Ctx → Res, exec i s = issueForm fa (issOf h) eff s ∧ ∀ c', eff c' = c'.attIssue i a b x := by
        rcases hcase with rfl | rfl | rfl
        · exact ⟨(opAtts h a b x).eff, rfl, fun _ => rfl⟩
        · exact ⟨(opAttv h a b x).eff, rfl, fun _ => rfl⟩
        · exact ⟨(opAttm h a b x).eff, rfl, fun _ => rfl⟩
      obtain ⟨eff, hx, heff⟩ := hissue
      have he := heff (c.begun fa e (issOf h))
      obtain ⟨rfl, -, -⟩ := hr.ctx
      refine ⟨fun k tr hbad => ?_, fun hok hfull => ?_, fun hok hn hcnt => ?_⟩
      · exact trap_effect hr hx (he.trans (attIssue_bad (c := c.begun fa c.e (issOf h)) hbad))
      · exact hold_effect hr hx (he.trans (attIssue_full (c := c.begun fa c.e (issOf h)) hok hfull))
      · let op := (c.begun fa c.e (issOf h)).attOp i a b x
        obtain ⟨t, u, B, ht, hent, hB, hcount⟩ := enter_effect (fun B => { B with atts := B.atts ++ [op] }) (fun _ _ => rfl) (fun _ => rfl)
          hr hx (he.trans (attIssue_room (c := c.begun fa c.e (issOf h)) hok hn hcnt))
        refine ⟨t, u, B, op, ht, hent, hcount.locks_eq.trans (List.append_nil _), (hcount.unready_eq rfl).trans (List.append_nil _), hB, ?_⟩
        simp only [op, Ctx.attOp, begun_nextId hr]
        rfl
    · obtain ⟨rfl, -, -⟩ := hr.ctx
      have he := opEvict_room (c := c.begun fe c.e (issOf h)) hcheck hcount
      rw [begun_nextId hr] at he
      obtain ⟨t, u, ht, hframe, hscr, hut, hcnt, hv, hs, hk⟩ := count_effect (ins := .evict h a) hr rfl he rfl (begun_homes hr).2.2
      refine ⟨t, _, ht, ⟨u, hut, ?_, hcnt.ops, hv, hs, hk⟩, ?_, ?_, hscr, rfl⟩
      · rw [hcnt.count, if_pos rfl]
      · rw [hframe, ← (getEnv_spec hr.env).1]
        rfl
      · rw [hframe]
        exact (begun_homes hr).1.mem
    · obtain ⟨rfl, -, -⟩ := hr.ctx
      have he := opBfetch_room (b := b) (c := c.begun ff c.e (issOf h)) h0 h256 hfit hal hcount
      obtain ⟨t, u, B, ht, hent, hB, -⟩ := enter_effect (ins := .bfetch h a b x)
        (fun B => { B with fetches := B.fetches ++ [(c.begun ff c.e (issOf h)).fetchOp a b x] }) (fun _ _ => rfl) (fun _ => rfl) hr rfl he
      refine ⟨t, u, B, ht, hent, hB.trans ?_⟩
      rw [Ctx.fetchOp, begun_nextId hr]
      rfl
    · have hissue : exec i s = issueForm fn (issOf h) (opNmcall byAddr a b x).eff s := by
        rw [hi]
        cases byAddr <;> rfl
      obtain ⟨rfl, -, -⟩ := hr.ctx
      have hbar : bar = if opIsZero x then none else some cnt := by
        simp only [opIsZero_iff, bar]
      rw [hbar] at hcheck
      have hes := (getEnv_spec hr.env).1
      refine ⟨fun hfull => ?_, fun hn hcnt => ?_⟩
      · refine hold_effect hr hissue (nmCall_full (c := c.begun fn c.e (issOf h)) ?_)
        change 8 ≤ (blockCalls c.e.s c.e.blk).length ∨ _
        rw [hes]
        exact hfull
      · have hst : (if byAddr then nmStack c.e (c.uni64 1 b).toNat else .ok (c.uni 1 b).toNat) = .ok stack := by
          cases byAddr with
          | true => exact hstack
          | false => exact congrArg Except.ok hstack.symm
        have he : (opNmcall byAddr a b x).eff (c.begun fn c.e (issOf h)) = _ :=
          nmCall_room (c := c.begun fn c.e (issOf h)) (by rw [← hes] at hn; exact hn) hcnt hrel hcheck hst
        rw [begun_nextId hr] at he
        obtain ⟨t, u, ht, hframe, hscr, hut, hc, hv, hs, hk⟩ := count_effect hr hissue he rfl (begun_homes hr).2.2
        have hmsg : ((c.begun fn c.e (issOf h)).callOf off stack bar).msg = c.e.blk.copyOut off (16 * numAt (c.e.blk.copyOut off 32) 12 1) :=
          callOf_msg (c := c.begun fn c.e (issOf h))
        refine ⟨t, (c.begun fn c.e (issOf h)).callOf off stack bar, ht, ⟨u, hut, ?_, hc.ops, hv, hs, hk⟩, ?_, ?_, hscr, begun_nextId hr,
          begun_nextId hr, rfl, rfl, rfl, rfl, rfl, rfl, rfl, rfl, rfl, rfl, hmsg⟩
        · rw [hc.count, if_pos rfl]
        · rw [hframe, hbar, ← hes]
          rfl
        · rw [hframe]
          exact (begun_homes hr).1.mem
  · intro f ls sd x rs hr hhead hgood hone
    obtain ⟨rfl, -, -⟩ := hr.ctx
    let accs := goodAccs rs
    let one : List (Nat × Nat) → Nat → Nat := fun r l => laneVal r (if opIsS d then c.e.low c.m else l)
    have he : (opPlatr d a b).eff (c.begun f c.e (issOf h)) = .done (c.modTeam
        ((c.begun f c.e (issOf h)).readLanes (c.begun f c.e (issOf h)).s .normal 4 leNat accs).2
        (c.putTeam d 1 (one ((c.begun f c.e (issOf h)).readLanes (c.begun f c.e (issOf h)).s .normal 4 leNat accs).1))) :=
      platr_good (c := c.begun f c.e (issOf h)) hr.begun_calm hhead hgood
    have hnodup : (accs.map Prod.fst).Nodup := goodAccs_nodup (lanesOf_nodup c (opIsS d) _) _ _ _ _
    obtain ⟨t, u, l, ht, hut, hnoted, hv, -, hk, hss, hsm, hfst, hval⟩ :=
      read_effect (ins := .platr h d a b) (eff := (opPlatr d a b).eff) (one := one) hr rfl he (.refl c _) (through_of_oneKey hone) hnodup
    refine ⟨t, u, laneVal l, ht, hut, hk, fun r l hl => (hnoted.vec r l hl).trans (vAfter_vec c d 1 _ _ r l fun hd => ?_),
      fun r => (hnoted.sca r).trans (sAfter_sca c d 1 _ _ r fun hd => ?_), fun k hk hlen => ?_, fun q hq => ?_, hss, hsm⟩
    · simp [one, hd]
    · simp [one, hd]
    · refine laneVal_absent fun hmem => ?_
      rw [hfst] at hmem
      obtain ⟨q, hq, rfl⟩ := List.mem_map.1 hmem
      have hin := List.mem_filter.1 (goodAccs_lane hq).1
      simp only [decide_eq_true_eq] at hin
      omega
    · have hg := hval q hq
      cases htg : q.2.2 with
      | scr bid off =>
        rw [htg] at hg
        exact hg
      | mem t p =>
        rw [htg] at hg
        exact fun hp => hg ⟨hr.core rfl, hp⟩

end

section
/-! Fences, the ordered clock, `WAITC`, prefetches and cache control (R216 to R220, R231 to R233). -/

namespace Sys2Proof.Machine

section
variable {ins : Instr} {iss : Iss} {s s1 : State} {e : Env} {c : Ctx} {f : Form} {eff : Ctx → Res} {d : Opnd} {n : Nat} {val : Nat → Nat}

/-! What an acquire hands on. -/

theorem inherits_spec (us : List Team) : ∀ t : Team,
    (us.foldl Team.inherit t).hostWait = t.hostWait ∧
    (∀ l, l ∈ (us.foldl Team.inherit t).unacked ↔ l ∈ t.unacked ∨ ∃ v ∈ us, l ∈ v.unacked) ∧
    t.gwct ≤ (us.foldl Team.inherit t).gwct ∧ ∀ v ∈ us, v.gwct ≤ (us.foldl Team.inherit t).gwct := by
  induction us with
  | nil => exact fun t => ⟨rfl, fun l => by simp, le_refl _, by simp⟩
  | cons u us ih =>
    intro t
    obtain ⟨hhost, hlines, hown, hothers⟩ := ih (t.inherit u)
    have hmax : t.gwct ≤ (t.inherit u).gwct ∧ u.gwct ≤ (t.inherit u).gwct := ⟨Nat.le_max_left _ _, Nat.le_max_right _ _⟩
    refine ⟨hhost, fun l => ?_, hmax.1.trans hown, fun v hv => ?_⟩
    · have hl : l ∈ (t.inherit u).unacked ↔ l ∈ t.unacked ∨ l ∈ u.unacked := by
        simp only [Team.inherit, List.mem_append, List.mem_filter, Bool.not_eq_eq_eq_not, Bool.not_true, List.contains_eq_mem,
          decide_eq_false_iff_not]
        tauto
      rw [List.foldl_cons, hlines l, hl, List.exists_mem_cons_iff, or_assoc]
    · rcases List.mem_cons.1 hv with rfl | hv
      · exact hmax.2.trans hown
      · exact hothers v hv

/-- What a team waits for, as an acquire hands it on. -/
def Team.pending (t : Team) : List Nat × Nat := (t.unacked, t.gwct)

/-- A block as a scope sees it: its place, and what its teams wait for. -/
structure SeenAs (b b' : Block) : Prop where
  bid : b'.bid = b.bid
  q : b'.q = b.q
  lseq : b'.lseq = b.lseq
  idx : b'.idx = b.idx
  site : b'.site = b.site
  pending : b'.teams.map Team.pending = b.teams.map Team.pending

theorem SeenAs.refl (b : Block) : SeenAs b b := ⟨rfl, rfl, rfl, rfl, rfl, rfl⟩

theorem SeenAs.trans {b b' b'' : Block} (h : SeenAs b b') (g : SeenAs b' b'') : SeenAs b b'' :=
  ⟨g.bid.trans h.bid, g.q.trans h.q, g.lseq.trans h.lseq, g.idx.trans h.idx, g.site.trans h.site, g.pending.trans h.pending⟩

theorem seenAs_modTeam {G : Team → Team} (hG : ∀ t, (G t).pending = t.pending) (k i : Nat) (b : Block) :
    SeenAs b (if b.bid = k then b.modTeam i G else b) := by
  split
  · refine ⟨rfl, rfl, rfl, rfl, rfl, ?_⟩
    rw [Block.modTeam, List.map_map]
    refine List.map_congr_left fun t _ => ?_
    by_cases h : t.idx = i
    · rw [Function.comp, if_pos h, hG]
    · rw [Function.comp, if_neg h]
  · exact .refl b

/-- The teams of an instance of a scope, after the blocks have changed otherwise than in what their teams wait for. -/
theorem scopeTeams_pending {F : Block → Block} {t : State} (hF : ∀ b, SeenAs b (F b)) (hblocks : t.blocks = s.blocks.map F)
    (hlaunches : t.launches = s.launches) (B : Block) (sc : Scope) :
    (scopeTeams t (F B) sc).map Team.pending = (scopeTeams s B sc).map Team.pending := by
  cases sc with
  | blk => exact (hF B).pending
  | cg =>
    have hla : t.launch? (F B).q (F B).lseq = s.launch? B.q B.lseq := by
      rw [State.launch?, hlaunches, (hF B).q, (hF B).lseq]
      rfl
    simp only [scopeTeams, hla]
    change List.map _ (match s.launch? B.q B.lseq with | none => _ | some la => _) = _
    cases s.launch? B.q B.lseq with
    | none => exact (hF B).pending
    | some la =>
      simp only [hblocks, List.filter_map, List.flatMap_map, List.map_flatMap]
      have hfil : ∀ (p q : Block → Bool) (G : Block → List (List Nat × Nat)) (H : Block → List (List Nat × Nat)), (∀ x, p x = q x) →
          (∀ x, G x = H x) → (s.blocks.filter p).flatMap G = (s.blocks.filter q).flatMap H := by
        intro p q G H hpq hGH
        rw [show p = q from funext hpq, show G = H from funext hGH]
      refine hfil _ _ _ _ (fun x => ?_) fun x => (hF x).pending
      simp only [Function.comp, (hF x).q, (hF x).lseq, (hF x).idx, (hF x).site, (hF B).q, (hF B).lseq, (hF B).idx]
  | _ => rfl

theorem putTeam_pending (c : Ctx) (d : Opnd) (n : Nat) (val : Nat → Nat) (t : Team) :
    (c.putTeam d n val t).pending = t.pending ∧ (c.putTeam d n val t).hostWait = t.hostWait := by
  by_cases hd : opIsS d = true
  · cases d with
    | s r0 =>
      have h : c.putTeam (.s r0) n val t = { t with s := (c.putTeam (.s r0) n val t).s } := (setS_run r0.val (val 0) n t).1
      rw [h]
      exact ⟨rfl, rfl⟩
    | _ => simp [opIsS] at hd
  · have hv := (putLanes_spec c d n val (by simpa using hd) c.lanes t (maskLanes_nodup _ _) fun l h => maskLanes_lt h).1
    have hcase : c.putTeam d n val t = c.lanes.foldl (fun t l => c.putLane d n l (val l) t) t ∨ c.putTeam d n val t = t := by
      cases d with
      | s r => exact absurd rfl hd
      | _ => simp [Ctx.putTeam]
    rcases hcase with h | h
    · rw [h]
      exact ⟨(congrArg Team.pending hv).trans rfl, (congrArg Team.hostWait hv).trans rfl⟩
    · rw [h]
      exact ⟨rfl, rfl⟩

theorem acquireAt_station {B : Block} (who : Issuer) (sc : Scope) (hB : s1.block? who.bid = some B) (h : B.site.isStation = true) :
    acquireAt s1 who sc = s1 := by
  simp only [acquireAt, hB, h, if_true]

/-- An acquire on a core: the team inherits from the teams of the scope that wait for anything. -/
theorem acquireAt_core {B : Block} (who : Issuer) (sc : Scope) (hB : s1.block? who.bid = some B) (h : B.site.isStation = false) :
    acquireAt s1 who sc = s1.modTeam who.bid who.team fun t =>
      ((scopeTeams s1 B sc).filter fun u => !u.unacked.isEmpty || u.gwct != 0).foldl Team.inherit t := by
  simp only [acquireAt, hB, h, Bool.false_eq_true, if_false]
  split
  · next hempty =>
    rw [List.isEmpty_iff.1 hempty]
    exact (modTeam_id _ _ _).symm
  · rfl

theorem acquires_of_not {ord : Order} (hord : orderAcq ord = false) (sc : Scope) (s : State) : c.acquires ord sc s = s :=
  if_neg (by simp [hord])

/-- Teams that an acquire takes over hand on what the teams of `vs` wait for. -/
def HandOn (us vs : List Team) : Prop :=
  (∀ l, (∃ v ∈ us, l ∈ v.unacked) ↔ ∃ v ∈ vs, l ∈ v.unacked) ∧ ∀ n, (∀ v ∈ us, v.gwct ≤ n) → ∀ v ∈ vs, v.gwct ≤ n

/-- The teams that wait for anything hand on what all of them wait for. -/
theorem handOn_of_pending {vs ws : List Team} (h : ws.map Team.pending = vs.map Team.pending) :
    HandOn (ws.filter fun u => !u.unacked.isEmpty || u.gwct != 0) vs := by
  have hto : ∀ w ∈ ws, ∃ v ∈ vs, v.unacked = w.unacked ∧ v.gwct = w.gwct := by
    intro w hw
    obtain ⟨v, hv, hp⟩ := List.mem_map.1 (h ▸ List.mem_map_of_mem hw)
    exact ⟨v, hv, congrArg Prod.fst hp, congrArg Prod.snd hp⟩
  have hfrom : ∀ v ∈ vs, ∃ w ∈ ws, w.unacked = v.unacked ∧ w.gwct = v.gwct := by
    intro v hv
    obtain ⟨w, hw, hp⟩ := List.mem_map.1 (h.symm ▸ List.mem_map_of_mem hv)
    exact ⟨w, hw, congrArg Prod.fst hp, congrArg Prod.snd hp⟩
  refine ⟨fun l => ⟨fun ⟨w, hw, hl⟩ => ?_, fun ⟨v, hv, hl⟩ => ?_⟩, fun n hn v hv => ?_⟩
  · obtain ⟨v, hv, hun, -⟩ := hto w (List.mem_filter.1 hw).1
    exact ⟨v, hv, hun ▸ hl⟩
  · obtain ⟨w, hw, hun, -⟩ := hfrom v hv
    have hne : w.unacked ≠ [] := fun hnil => by simp [← hun, hnil] at hl
    exact ⟨w, List.mem_filter.2 ⟨hw, by simp [hne]⟩, hun ▸ hl⟩
  · obtain ⟨w, hw, -, hg⟩ := hfrom v hv
    rcases Nat.eq_zero_or_pos w.gwct with h0 | hpos
    · omega
    · exact hg ▸ hn w (List.mem_filter.2 ⟨hw, by simp [Nat.pos_iff_ne_zero.1 hpos]⟩)

/-- What an acquire comes to where the blocks have changed otherwise than in what their teams wait for. -/
theorem acquireAt_hand (hr : Runs f iss s e c) (sc : Scope) {F : Block → Block} (hF : ∀ b, SeenAs b (F b)) (hblocks : s1.blocks = s.blocks.map F)
    (hlaunches : s1.launches = s.launches) :
    ∃ us, acquireAt s1 e.who sc = c.modTeam s1 (fun t => us.foldl Team.inherit t) ∧
      HandOn us (if e.station then [] else scopeTeams s e.blk sc) := by
  obtain ⟨rfl, -, -⟩ := hr.ctx
  have hB : s1.block? c.e.who.bid = some (F c.e.blk) := by
    have hp : (fun b : Block => b.bid == c.e.who.bid) ∘ F = fun b => b.bid == c.e.who.bid := funext fun b => by
      rw [Function.comp, (hF b).bid]
    rw [State.block?, hblocks, List.find?_map, hp, show s.blocks.find? _ = _ from getEnv_block hr.env]
    rfl
  have hsite : (F c.e.blk).site.isStation = c.e.station := congrArg Site.isStation (hF c.e.blk).site
  cases hsta : c.e.station with
  | true => exact ⟨[], (acquireAt_station c.e.who sc hB (hsite.trans hsta)).trans (modTeam_id _ _ _).symm, fun l => by simp, by simp⟩
  | false => exact ⟨_, acquireAt_core c.e.who sc hB (hsite.trans hsta), handOn_of_pending (scopeTeams_pending hF hblocks hlaunches _ sc)⟩

/-- The blocks at the start of an issue are those before it, but for the issuing team. -/
theorem begun_seen (hr : Runs f iss s e c) {G : Team → Team} (hpend : ∀ t, (G t).pending = t.pending) :
    ∃ F, (∀ b, SeenAs b (F b)) ∧ (c.modTeam (c.begun f e iss).s G).blocks = s.blocks.map F ∧
      (c.modTeam (c.begun f e iss).s G).launches = s.launches := by
  obtain ⟨rfl, -, -⟩ := hr.ctx
  have hs1 : c.modTeam (c.begun f c.e iss).s G = State.modTeam { s with issueCtr := s.issueCtr + 1, freeCtr := s.freeCtr + 1 }
      c.e.who.bid c.e.who.team fun t => G (t.begun [(f, c)] c.e iss) := by
    rw [show (c.begun f c.e iss).s = beginIssue [(f, c)] c.e iss from rfl, beginIssue_eq, (getEnv_spec hr.env).1]
    exact State.modTeam_modTeam _ _ _ _ _ fun _ => rfl
  rw [hs1]
  exact ⟨_, fun b => seenAs_modTeam (G := fun t => G (t.begun [(f, c)] c.e iss)) (fun t => hpend _) _ _ b, rfl, rfl⟩

/-- What a team that has written its destination waits for once it has taken over from others, its issue ended. -/
theorem acquired_team (hr : Runs f iss s e c) {us : List Team} {sc : Scope}
    (hus : HandOn us (if e.station then [] else scopeTeams s e.blk sc)) (d : Opnd) (n : Nat) (val : Nat → Nat) (now : Nat) :
    Acquired s e sc ((us.foldl Team.inherit (c.putTeam d n val (e.team.begun [(f, c)] e iss))).ended [(f, c.begun f e iss)] now) := by
  obtain ⟨hlines, hgwct⟩ := hus
  obtain ⟨hpend, hhost⟩ := putTeam_pending c d n val (e.team.begun [(f, c)] e iss)
  obtain ⟨hin, hun, hown, hothers⟩ := inherits_spec us (c.putTeam d n val (e.team.begun [(f, c)] e iss))
  have hprobe : (us.foldl Team.inherit (c.putTeam d n val (e.team.begun [(f, c)] e iss))).probe = none :=
    ((foldl_inherit_onlyNotes us _).probe).trans ((putTeam_other c d n val _).2.2.trans
      ((congrArg Team.probe (begun_rest e.team [(f, c)] e iss hr.noProbe)).trans hr.noProbe))
  have hend := ended_rest _ [(f, c.begun f e iss)] now hprobe
  have hunacked := congrArg Prod.fst hpend
  have hgw := congrArg Prod.snd hpend
  generalize us.foldl Team.inherit (c.putTeam d n val (e.team.begun [(f, c)] e iss)) = q at hin hun hown hothers hend
  refine ⟨((congrArg Team.hostWait hend).trans rfl).trans (hin.trans hhost), fun l => ?_, ?_, fun hsta v hv => ?_⟩
  · rw [(congrArg Team.unacked hend).trans rfl, hun l, hlines l, show (c.putTeam d n val _).unacked = _ from hunacked]
    refine or_congr Iff.rfl ?_
    cases e.station <;> simp
  · rw [(congrArg Team.gwct hend).trans rfl]
    exact hgw.symm.trans_le hown
  · rw [(congrArg Team.gwct hend).trans rfl]
    exact hgwct _ hothers v (by rw [hsta]; exact hv)

/-- AN INSTRUCTION THAT ACQUIRES once its team has changed by `G`, which writes its destination: the team in full, which hands on nothing
but notes. -/
theorem acquireAt_effect {sc : Scope} {G : Team → Team} (hr : Runs f iss s e c) (hx : exec ins s = issueForm f iss eff s)
    (hidx : ∀ t, (G t).idx = t.idx) (hpend : ∀ t, (G t).pending = t.pending)
    (hG : G (e.team.begun [(f, c)] e iss) = c.putTeam d n val (e.team.begun [(f, c)] e iss))
    (he : eff (c.begun f e iss) = .done (acquireAt (c.modTeam (c.begun f e iss).s G) e.who sc)) :
    ∃ t u q, exec ins s = .next t ∧ OnlyTeam e s t u ∧ Noted f e c d n val u ∧ Acquired s e sc u ∧
      OnlyNotes (c.putTeam d n val (e.team.begun [(f, c)] e iss)) q ∧ u = q.ended [(f, c.begun f e iss)] s.time := by
  obtain ⟨F, hF, hblocks, hlaunches⟩ := begun_seen hr hpend
  obtain ⟨us, hacq, hus⟩ := acquireAt_hand hr sc hF hblocks hlaunches
  have hin' : ∀ t : Team, (us.foldl Team.inherit t).idx = t.idx := fun t => (foldl_inherit_onlyNotes us t).idx
  obtain ⟨t, ht, hteam⟩ := team_effect (fun t => us.foldl Team.inherit (G t)) (fun t => (hin' _).trans (hidx t)) hr hx
    (he.trans (congrArg Res.done (hacq.trans (State.modTeam_modTeam _ _ _ _ _ hidx))))
  rw [hG] at hteam
  exact ⟨t, _, _, ht, hteam, noted_team (foldl_inherit_onlyNotes us) hr d n val s.time, acquired_team hr hus d n val s.time,
    foldl_inherit_onlyNotes us _, rfl⟩

/-- AN INSTRUCTION WHOSE ORDER ACQUIRES after it has written its destination. -/
theorem acquire_effect {ord : Order} {sc : Scope} (hr : Runs f iss s e c) (hx : exec ins s = issueForm f iss eff s) (hord : orderAcq ord = true)
    (he : eff (c.begun f e iss) = .done ((c.begun f e iss).acquires ord sc (c.modTeam (c.begun f e iss).s (c.putTeam d n val)))) :
    ∃ t u, exec ins s = .next t ∧ OnlyTeam e s t u ∧ Noted f e c d n val u ∧ Acquired s e sc u := by
  have hacq : (c.begun f e iss).acquires ord sc (c.modTeam (c.begun f e iss).s (c.putTeam d n val)) =
      acquireAt (c.modTeam (c.begun f e iss).s (c.putTeam d n val)) e.who sc := by
    obtain ⟨rfl, -, -⟩ := hr.ctx
    refine if_pos ?_
    rw [hord]
    exact congrArg (fun b => !b) hr.begun_calm
  obtain ⟨t, u, -, ht, hteam, hnoted, hacquired, -⟩ := acquireAt_effect hr hx (putTeam_idx c d n val)
    (fun t => (putTeam_pending c d n val t).1) rfl (he.trans (congrArg Res.done hacq))
  exact ⟨t, u, ht, hteam, hnoted, hacquired⟩

/-! Prefetches and cache control. -/

theorem dirSettle_onlyTags (s : State) (die : Nat) (lines : List Nat) : OnlyTags s (dirSettle s die lines) := rfl

theorem cctlLine_reads {key : Nat} (s : State) (op : CctlOp) (core line : Nat) : Reads key s (cctlLine s op core line) := by
  cases op with
  | wb => exact OnlyTags.reads rfl
  | inv => exact (l1Drop_onlyTags s _).reads
  | drop =>
    refine dropLines_reads s fun c hc => ?_
    rw [Bool.and_eq_true] at hc
    exact hc.2

theorem opPref_reads {key : Nat} {l2 : Bool} {ca : Cache} {a b : Opnd} (hkey : ∀ q ∈ c.reachable a b, q.2.2.key = key) :
    ∃ s2, (opPref l2 ca a b).eff c = .done s2 ∧ Reads key c.s s2 := by
  refine ⟨_, rfl, Reads.foldl _ (fun s q hq => ?_) c.s⟩
  split
  · exact .refl key s
  · exact (useTlb_reads s _ _ _ _).trans (coreReadLine_reads _ _ _ (hkey q hq))

theorem opCctl_reads {key : Nat} {op : CctlOp} {a b : Opnd} : ∃ s2, (opCctl op a b).eff c = .done s2 ∧ Reads key c.s s2 :=
  ⟨_, rfl, Reads.foldl _ (fun s _ _ => cctlLine_reads s op _ _) c.s⟩

/-- AN INSTRUCTION THAT ONLY READS THROUGH: no register but the index registers named, no byte of a scratchpad or at a home. -/
theorem through_effect {key : Nat} {s2 : State} (hr : Runs f iss s e c) (hx : exec ins s = issueForm f iss eff s)
    (he : eff (c.begun f e iss) = .done s2) (hreads : Reads key (c.begun f e iss).s s2) :
    ∃ t u, exec ins s = .next t ∧ t.team? e.who.bid e.who.team = some u ∧ u.v = e.team.v ∧ u.s = e.team.s ∧ u.k = e.team.k ∧
      (∀ q l, l < 1024 → u.getX q l = c.xAfter f.indexes q l) ∧ SameScratch s t ∧ SameMemory s t key := by
  have hteam : s2.team? e.who.bid e.who.team = some (e.team.begun [(f, c)] e iss) := by
    rw [State.team?, State.block?, hreads.blocks]
    exact begun_team hr
  have hid : s2 = c.modTeam s2 fun t => t := (modTeam_id s2 _ _).symm
  obtain ⟨t, ht, hframe, hscr, hut⟩ := team_done (fun _ => rfl) hr hx (he.trans (congrArg Res.done hid))
    (hreads.time.trans (begun_homes hr).2.2) hteam
  obtain ⟨hss, hsm⟩ := memory_of_reads hr hreads hframe hscr
  obtain ⟨rfl, -, -⟩ := hr.ctx
  have hrest := begun_rest c.e.team [(f, c)] c.e iss hr.noProbe
  have hp : (c.e.team.begun [(f, c)] c.e iss).probe = none := (congrArg Team.probe hrest).trans hr.noProbe
  obtain ⟨hv, hs, hk⟩ := ended_regs (c.e.team.begun [(f, c)] c.e iss) [(f, c.begun f c.e iss)] s.time hp
  refine ⟨t, _, ht, hut, hv.trans ((congrArg Team.v hrest).trans rfl), hs.trans ((congrArg Team.s hrest).trans rfl),
    hk.trans ((congrArg Team.k hrest).trans rfl), fun q l hl => ?_, hss, hsm⟩
  rw [getX_ended hp s.time q l hl, Team.getX, (congrArg Team.x hrest).trans rfl, (congrArg Team.lanes hrest).trans rfl]
  rfl

end

end Sys2Proof.Machine

open Sys2Proof Sys2Proof.Machine

/-- Settles O18: what need not wait only hands on notes, and what moves lines only reads through. -/
theorem fencesCountersAndCacheHints : Obligations.FencesCountersAndCacheHints := by
  unfold Obligations.FencesCountersAndCacheHints
  refine ⟨fun h ord sc cls d a i iss s e c => ?_, fun h l2 ca op a b s e c key i => ?_⟩
  · extract_lets ff fr fw n acquires
    refine ⟨fun hr => ⟨fun hrel => ⟨fun hord => ?_, fun hord => ?_⟩, fun w hrel => ?_⟩, fun hr hrel => ⟨fun hord => ?_, fun hord => ?_⟩,
      fun hi hr => ⟨fun hle => ?_, fun hlt h255 => ?_⟩⟩
    · obtain ⟨rfl, -, -⟩ := hr.ctx
      exact writes_of hr rfl ((afterRel_none (c := c.begun ff c.e (issOf h)) hrel _).trans
        (congrArg Res.done (acquires_of_not (c := c.begun ff c.e (issOf h)) hord _ _)))
    · obtain ⟨rfl, -, -⟩ := hr.ctx
      refine acquire_effect (eff := (opFence ord sc).eff) hr rfl hord ((afterRel_none (c := c.begun ff c.e (issOf h)) hrel _).trans ?_)
      exact congrArg (fun s => Res.done (Ctx.acquires _ _ _ s)) (modTeam_id _ _ _).symm
    · obtain ⟨rfl, -, -⟩ := hr.ctx
      exact hold_effect (eff := (opFence ord sc).eff) hr rfl (afterRel_some (c := c.begun ff c.e (issOf h)) hrel _)
    · obtain ⟨rfl, -, -⟩ := hr.ctx
      refine writes_of hr rfl ((afterRel_none (c := c.begun fr c.e (issOf h)) hrel _).trans
        (congrArg Res.done ((acquires_of_not (c := c.begun fr c.e (issOf h)) hord _ _).trans ?_)))
      change Ctx.putUni _ _ _ c.e.s.time _ = _
      rw [(getEnv_spec hr.env).1]
      rfl
    · obtain ⟨rfl, -, -⟩ := hr.ctx
      refine acquire_effect (eff := (opRdc ord sc d).eff) hr rfl hord ((afterRel_none (c := c.begun fr c.e (issOf h)) hrel _).trans ?_)
      refine congrArg (fun s => Res.done (Ctx.acquires _ _ _ s)) ((putOn_eq (c.begun fr c.e (issOf h)) d 2 _ _).trans ?_)
      rw [← (getEnv_spec hr.env).1]
      rfl
    · obtain ⟨rfl, -, -⟩ := hr.ctx
      exact writes_of hr (hi.run (o := opWaitc cls.val a) rfl rfl nofun) (if_pos hle)
    · obtain ⟨rfl, -, -⟩ := hr.ctx
      refine hold_effect hr (hi.run (o := opWaitc cls.val a) rfl rfl nofun) (if_neg ?_)
      change ¬ (c.e.team.count cls.val ≤ n ∨ 255 ≤ n)
      omega
  · intro f hi hr hkey
    obtain ⟨rfl, -, -⟩ := hr.ctx
    rcases hi with rfl | rfl
    · obtain ⟨s2, he, hreads⟩ := opPref_reads (c := c.begun f c.e (issOf h)) (l2 := l2) (ca := ca) hkey
      exact through_effect hr rfl he hreads
    · obtain ⟨s2, he, hreads⟩ := opCctl_reads (c := c.begun f c.e (issOf h)) (op := op) (a := a) (b := b)
      exact through_effect hr rfl he hreads

end

section
/-! Remote operations, triggered slots, scoreboards and collectives as they issue (R390, R394, R397 to R400, R407, R413). -/

namespace Sys2Proof.Machine

section
variable {ins : Instr} {iss : Iss} {s s1 s2 : State} {e : Env} {c : Ctx} {f : Form} {eff : Ctx → Res} {F : Block → Block} {G : Team → Team}

theorem env_bid (h : getEnv s = some e) : e.blk.bid = e.who.bid := by
  simpa using List.find?_some (getEnv_block h)

/-- AN INSTRUCTION ON ITS OWN BLOCK that also changes state outside the blocks: its team takes `G`, its block `F` of its own. -/
theorem block_effect (hF : ∀ b ts, F { b with teams := ts } = { F b with teams := ts }) (hFb : ∀ b, (F b).bid = b.bid)
    (hG : ∀ t, (G t).idx = t.idx) (hr : Runs f iss s e c) (hx : exec ins s = issueForm f iss eff s)
    (he : eff (c.begun f e iss) = .done s2) (hblocks : s2.blocks = ((c.modTeam (c.begun f e iss).s G).modBlock e.who.bid F).blocks)
    (htime : s2.time = s.time) :
    ∃ t B, exec ins s = .next t ∧ t = { s2 with blocks := t.blocks } ∧ t.block? e.who.bid = some B ∧ B = { F e.blk with teams := B.teams } ∧
      B.team? e.who.team = some ((G (e.team.begun [(f, c)] e iss)).ended [(f, c.begun f e iss)] s.time) ∧
      ((∀ b, (F b).scratch = b.scratch) → SameScratch s t) := by
  obtain ⟨rfl, -, -⟩ := hr.ctx
  obtain ⟨hes, hw, hb, hteam, -⟩ := getEnv_spec hr.env
  rw [← hw] at hb hteam
  let H : Team → Team := fun t => G (t.begun [(f, c)] c.e iss)
  have hH : ∀ t, (H t).idx = t.idx := fun _ => hG _
  have hs' : c.modTeam (c.begun f c.e iss).s G = State.modTeam { s with issueCtr := s.issueCtr + 1, freeCtr := s.freeCtr + 1 }
      c.e.who.bid c.e.who.team H := by
    rw [Ctx.modTeam, show (c.begun f c.e iss).s = beginIssue [(f, c)] c.e iss from rfl, beginIssue_eq, hes]
    exact State.modTeam_modTeam _ c.e.who.bid c.e.who.team (fun t => t.begun [(f, c)] c.e iss) G fun _ => rfl
  have hbid : ∀ k, s2.block? k = (s.block? k).map fun b => if k = c.e.who.bid then F (b.modTeam c.e.who.team H) else b := by
    intro k
    have hk : s2.block? k = ((c.modTeam (c.begun f c.e iss).s G).modBlock c.e.who.bid F).block? k := by
      rw [State.block?, hblocks]
      rfl
    rw [hk, hs', State.block?_modBlock _ _ _ _ hFb, State.block?_modTeam]
    change Option.map _ (Option.map _ (s.block? k)) = _
    cases s.block? k with
    | none => rfl
    | some b => by_cases hk : k = c.e.who.bid <;> simp [hk]
  have hblk := hbid c.e.who.bid
  rw [hb, Option.map_some, if_pos rfl, show F (c.e.blk.modTeam c.e.who.team H) =
    { F c.e.blk with teams := (c.e.blk.modTeam c.e.who.team H).teams } from hF _ _] at hblk
  have hu : ({ F c.e.blk with teams := (c.e.blk.modTeam c.e.who.team H).teams } : Block).team? c.e.who.team = some (H c.e.team) := by
    change (c.e.blk.modTeam c.e.who.team H).team? c.e.who.team = _
    rw [Block.team?_modTeam _ _ _ H hH, hteam, Option.map_some, if_pos rfl]
  obtain ⟨t, ts, ht, hrest, hB, hut, hoth⟩ := done_block hr hx he htime hblk hu
  refine ⟨t, _, ht, hrest, hB, rfl, hut, fun hscr => sameScratch_of_block hb hB (hscr _) fun b hne => ?_⟩
  rw [hoth b hne, hbid b]
  cases s.block? b <;> simp [hne]

/-- The registers of a team whose operation has been counted. -/
theorem counted_regs {id cls : Nat} {u : Team} {locks : List (Nat × Nat × LaneMask)} {unr : List (RegKey × LaneMask)}
    (h : Counted f e c id cls locks unr u) : u.v = e.team.v ∧ u.s = e.team.s ∧ u.k = e.team.k :=
  ⟨(congrArg Team.v h.rest).trans rfl, (congrArg Team.s h.rest).trans rfl, (congrArg Team.k h.rest).trans rfl⟩

/-- The registers of a team that has only issued. -/
theorem issued_regs (hr : Runs f iss s e c) (now : Nat) :
    ((e.team.begun [(f, c)] e iss).ended [(f, c.begun f e iss)] now).v = e.team.v ∧
    ((e.team.begun [(f, c)] e iss).ended [(f, c.begun f e iss)] now).s = e.team.s ∧
    ((e.team.begun [(f, c)] e iss).ended [(f, c.begun f e iss)] now).k = e.team.k := by
  have hrest := begun_rest e.team [(f, c)] e iss hr.noProbe
  obtain ⟨hv, hs, hk⟩ := ended_regs (e.team.begun [(f, c)] e iss) [(f, c.begun f e iss)] now ((congrArg Team.probe hrest).trans hr.noProbe)
  exact ⟨hv.trans ((congrArg Team.v hrest).trans rfl), hs.trans ((congrArg Team.s hrest).trans rfl),
    hk.trans ((congrArg Team.k hrest).trans rfl)⟩

theorem team?_of_block {t : State} {B : Block} {u : Team} {k i : Nat} (hB : t.block? k = some B) (hu : B.team? i = some u) :
    t.team? k i = some u := by
  rw [State.team?, hB]
  exact hu

/-! Registration in a group (R390, R391). -/

/-- A block is a rank of a group. -/
def Member (t : State) (la : Launch) (b : Block) (g : GDesc) : Prop :=
  ∃ r ∈ t.groups, r.ctx = la.ctx ∧ r.id = g.id ∧ r.q = b.q ∧ r.lseq = b.lseq ∧ r.idx = b.idx

/-- Only the groups, the messages held for them and the drop counter differ. -/
def OnlyJoined (s t : State) : Prop := t = { s with groups := t.groups, landing := t.landing, inNet := t.inNet, bar0 := t.bar0 }

theorem foldl_barCount_bar0 {α : Type} (off : Nat) (l : List α) : ∀ s : State,
    l.foldl (fun s _ => barCount s off) s = { s with bar0 := (l.foldl (fun s _ => barCount s off) s).bar0 } := by
  induction l with
  | nil => exact fun s => rfl
  | cons a l ih =>
    intro s
    obtain ⟨x, hx⟩ : ∃ x, barCount s off = { s with bar0 := x } := by
      by_cases h : (bar s off).toNat = 2 ^ 32 - 1
      · exact ⟨s.bar0, if_pos h⟩
      · exact ⟨_, if_neg h⟩
    rw [List.foldl_cons, hx]
    exact ih _

theorem Member.of_groups {t : State} {la : Launch} {b : Block} {g : GDesc} (h : Member s la b g) (hg : t.groups = s.groups) :
    Member t la b g := by
  obtain ⟨r, hr, h⟩ := h
  exact ⟨r, hg ▸ hr, h⟩

theorem OnlyJoined.refl (s : State) : OnlyJoined s s := rfl

theorem OnlyJoined.trans (h : OnlyJoined s s1) (g : OnlyJoined s1 s2) : OnlyJoined s s2 := by
  unfold OnlyJoined at *
  rw [g, h]

theorem register_spec (s : State) (la : Launch) (b : Block) (g : GDesc) :
    OnlyJoined s (register s la b g) ∧ Member (register s la b g) la b g := by
  unfold register
  split
  · next h =>
    refine ⟨rfl, ?_⟩
    obtain ⟨r, hr, hp⟩ := List.any_eq_true.1 h
    simp only [Bool.and_eq_true, beq_iff_eq] at hp
    obtain ⟨⟨⟨⟨hctx, hid⟩, hq⟩, hl⟩, hi⟩ := hp
    exact ⟨r, hr, hctx, hid, hq, hl, hi⟩
  · extract_lets s0 mine genOf held drop s1
    have h1 : s1 = { s0 with bar0 := s1.bar0 } := foldl_barCount_bar0 _ _ _
    have hg : s1.groups = s.groups ++ [⟨la.ctx, g.id, g.gen, g.myrank, b.q, b.lseq, b.idx, g.mlog, g.mcap⟩] :=
      (congrArg State.groups h1).trans rfl
    refine ⟨?_, ⟨_, hg ▸ List.mem_append_right _ (List.mem_singleton_self _), rfl, rfl, rfl, rfl, rfl⟩⟩
    unfold OnlyJoined
    generalize s1 = s1 at h1
    rw [h1]

/-! Sending (R397, R398). -/

/-- Only messages differ. -/
def OnlySent (s t : State) : Prop := t = { s with inNet := t.inNet, out := t.out }

theorem OnlySent.refl (s : State) : OnlySent s s := rfl

theorem OnlySent.trans (h : OnlySent s s1) (g : OnlySent s1 s2) : OnlySent s s2 := by
  unfold OnlySent at *
  rw [g, h]

/-- One operation, however far its parts have come. -/
def SameSend (o k : SendOp) : Prop := k = { o with poisoned := k.poisoned, parts := k.parts, ok := k.ok }

theorem SameSend.trans {o k j : SendOp} (h : SameSend o k) (g : SameSend k j) : SameSend o j := by
  unfold SameSend at *
  rw [g, h]

theorem deliver_onlySent {dev h : Nat} {mk : Nat → Msg} (hd : deliver s dev h mk = some s1) : OnlySent s s1 := by
  obtain ⟨p, -, rfl⟩ := Option.map_eq_some_iff.1 hd
  split <;> rfl

theorem sendPart_spec (s : State) (op : SendOp) (part dev hash : Nat) (mk : Nat → Msg) :
    OnlySent s (sendPart s op part dev hash mk).1 ∧ SameSend op (sendPart s op part dev hash mk).2 := by
  unfold sendPart
  split
  · next h => exact ⟨deliver_onlySent h, rfl⟩
  · exact ⟨rfl, rfl⟩

theorem foldl_sendPart_spec {α : Type} (l : List α) (part dev hash : α → Nat) (mk : α → Nat → Msg) : ∀ a : State × SendOp,
    OnlySent a.1 (l.foldl (fun a p => sendPart a.1 a.2 (part p) (dev p) (hash p) (mk p)) a).1 ∧
      SameSend a.2 (l.foldl (fun a p => sendPart a.1 a.2 (part p) (dev p) (hash p) (mk p)) a).2 := by
  induction l with
  | nil => exact fun a => ⟨rfl, rfl⟩
  | cons p l ih =>
    intro a
    obtain ⟨hs, ho⟩ := sendPart_spec a.1 a.2 (part p) (dev p) (hash p) (mk p)
    obtain ⟨hs', ho'⟩ := ih (sendPart a.1 a.2 (part p) (dev p) (hash p) (mk p))
    exact ⟨hs.trans hs', ho.trans ho'⟩

/-- The chunk leaves as messages, and its operation is in flight in its block. -/
theorem sendChunk_spec (s : State) (b : Block) (la : Launch) (desc : Memory) (op : SendOp) (places : List Piece) :
    ∃ s1 o, OnlySent s s1 ∧ SameSend op o ∧ sendChunk s b la desc op places =
      s1.modBlock b.bid fun b => { b with sends := b.sends ++ [o] } := by
  unfold sendChunk
  extract_lets d g data pois peer toMem hdr src chunk op0
  split
  next s1 o heq =>
  have hgoes : OnlySent s (s1, o).1 ∧ SameSend op0 (s1, o).2 := by
    rw [← heq]
    split
    · exact sendPart_spec s op0 _ _ _ _
    · exact foldl_sendPart_spec _ _ _ _ _ (s, op0)
  have h0 : SameSend op op0 := rfl
  exact ⟨s1, o, hgoes.1, h0.trans hgoes.2, rfl⟩

/-! What these instructions come to, their checks past. -/

theorem regRes_ok {g : GDesc} (h : regCheck c.e.s c.e.la c.e.blk g = .ok) (go : Res) : c.regRes g go = go := by
  simp only [Ctx.regRes, h]

theorem remoteOp_chain {red : Bool} {a x : Opnd} (h : c.e.who.team ≠ c.e.la.hdr.chain) :
    c.remoteOp red a x = .trap cILLOP 0 (c.e.low c.m) := if_pos h

/-- The operation of a `CLSEND` or `CLRED` as it enters. -/
def Ctx.sendOp (c : Ctx) (red : Bool) (off : Nat) (bar : Option Nat) : SendOp :=
  { id := c.s.nextId, team := c.e.who.team, red := red, desc := c.e.blk.copyOut off 64, fired := false, poisoned := false, parts := [],
    ok := true, pc := c.e.rcd.pc, bar := bar, lines := [], gwct := 0 }

theorem sameSend_sendOp {red : Bool} {off : Nat} {bar : Option Nat} {o : SendOp} (h : SameSend (c.sendOp red off bar) o) :
    o.id = c.s.nextId ∧ o.team = c.e.who.team ∧ o.red = red ∧ o.desc = c.e.blk.copyOut off 64 ∧ o.bar = bar ∧ o.fired = false := by
  unfold SameSend Ctx.sendOp at h
  rw [h]
  simp only [and_self]

section
variable {red : Bool} {a x : Opnd} {places : List Piece}

theorem remoteOp_full (hchain : c.e.who.team = c.e.la.hdr.chain) :
    let desc := c.e.blk.copyOut (c.uni 0 a).toNat 64
    sendCheck c.e.blk (c.uni 0 a).toNat desc red false (c.ownBar x) = none →
    regCheck c.e.s c.e.la c.e.blk (gdescOf c.e.blk.scratch (rdescOf desc).grp) = .ok →
    16 ≤ c.e.blk.sends.length ∨ 255 ≤ c.e.team.count 2 → c.remoteOp red a x = .hold .limit := by
  intro desc hcheck hreg hfull
  refine (if_neg (not_not.2 hchain)).trans ?_
  rw [hcheck]
  refine (regRes_ok hreg _).trans (if_pos ?_)
  simpa [Block.sendFull, cntFull] using hfull

theorem remoteOp_room (hchain : c.e.who.team = c.e.la.hdr.chain) :
    let desc := c.e.blk.copyOut (c.uni 0 a).toNat 64
    let g := gdescOf c.e.blk.scratch (rdescOf desc).grp
    sendCheck c.e.blk (c.uni 0 a).toNat desc red false (c.ownBar x) = none → regCheck c.e.s c.e.la c.e.blk g = .ok →
    c.e.blk.sends.length < 16 → c.e.team.count 2 < 255 →
    (if (rdescOf desc).dstK = 1 then sendPlaces c.e.s c.e.blk c.e.la (rdescOf desc) red = .ok places else places = []) →
    c.remoteOp red a x = .done (sendChunk (register
      (c.modTeam { c.s with nextId := c.s.nextId + 1 } fun t => t.addOp c.s.nextId 2) c.e.la c.e.blk g) c.e.blk c.e.la desc
      (c.sendOp red (c.uni 0 a).toNat (c.ownBar x)) places) := by
  intro desc g hcheck hreg hlen hcnt hpl
  have hplaces : (if (rdescOf desc).dstK = 1 then sendPlaces c.e.s c.e.blk c.e.la (rdescOf desc) red else .ok []) = .ok places := by
    split at hpl
    · next h1 => exact (if_pos h1).trans hpl
    · next h1 =>
      rw [hpl]
      exact if_neg h1
  have hroom : ¬ (c.e.blk.sendFull || cntFull c.e.team 2) = true := by
    rw [not_cntFull hcnt, Bool.or_false, Block.sendFull, decide_eq_true_iff]
    omega
  refine (if_neg (not_not.2 hchain)).trans ?_
  rw [hcheck]
  refine (regRes_ok hreg _).trans ((if_neg hroom).trans ?_)
  rw [hplaces]
  rfl

end

theorem opClarm_done {clr : Bool} {a b : Opnd} (hn : (c.uni 1 b).toNat ≤ 15) :
    let desc := c.e.blk.copyOut (c.uni 0 a).toNat 64
    let g := gdescOf c.e.blk.scratch (rdescOf desc).grp
    sendCheck c.e.blk (c.uni 0 a).toNat desc ((rdescOf desc).top == 1) true none = none → regCheck c.e.s c.e.la c.e.blk g = .ok →
    (opClarm clr a b).eff c = .done ((register c.s c.e.la c.e.blk g).modBlock c.e.blk.bid fun B =>
      { B with arms := B.arms.filter (fun k => k.n != (c.uni 1 b).toNat) ++ [⟨(c.uni 1 b).toNat, desc, c.e.rcd.pc, clr, true⟩] }) := by
  intro desc g hcheck hreg
  refine (if_neg (by omega)).trans ?_
  rw [hcheck]
  exact regRes_ok hreg _

/-- The checks of `CLOSE` pass. -/
theorem close_good {b : Block} {off n ty : Nat} (hty : ty ≤ 4) (hlen : n * elemSize ty ≤ 65536) (hal : off % elemSize ty = 0)
    (hfit : n = 0 ∨ off + n * elemSize ty ≤ b.scratchLen ∧ poisonUnit b (off, n * elemSize ty) = none) :
    firstFail
      [illIf (decide (4 < ty) || decide (65536 < n * elemSize ty)), (if n * elemSize ty = 0 then none else spwinIf b [(off, n * elemSize ty)]),
       alignIf [(off, elemSize ty)],
       (if n * elemSize ty = 0 then none else (poisonUnit b (off, n * elemSize ty)).map fun p => (cPOISON, w64 p))] = none := by
  have h1 : illIf (decide (4 < ty) || decide (65536 < n * elemSize ty)) = none := if_neg (by simp; omega)
  have h3 : alignIf [(off, elemSize ty)] = none := by simp [alignIf, hal]
  have h2 : (if n * elemSize ty = 0 then none else spwinIf b [(off, n * elemSize ty)]) = none := by
    split
    · rfl
    · next h =>
      rcases hfit with rfl | ⟨hfit, -⟩
      · simp at h
      · simp [spwinIf, Block.fits, hfit]
  have h4 : (if n * elemSize ty = 0 then none else (poisonUnit b (off, n * elemSize ty)).map fun p => (cPOISON, w64 p)) = none := by
    split
    · rfl
    · next h =>
      rcases hfit with rfl | ⟨-, hp⟩
      · simp at h
      · rw [hp]
        rfl
  rw [h1, h2, h3, h4]
  rfl

theorem opClose_done {d a b x : Opnd} (hp : c.e.probing = false) :
    let off := (c.uni 0 a).toNat
    let n := (c.uni 1 b).toNat
    let ty := (c.uni 2 x).toNat % 16
    ty ≤ 4 → n * elemSize ty ≤ 65536 → off % elemSize ty = 0 →
    (n = 0 ∨ off + n * elemSize ty ≤ c.e.blk.scratchLen ∧ poisonUnit c.e.blk (off, n * elemSize ty) = none) →
    (opClose d a b x).eff c = .done (c.putUni d 2 (ownClosure ty (elems ty (c.e.blk.bytes off (n * elemSize ty)))).toNat c.s) := by
  intro off n ty hty hlen hal hfit
  refine (if_neg (by simp [hp])).trans ?_
  have h := close_good (b := c.e.blk) hty hlen hal hfit
  simp only [n, off, ty] at h
  simp only [h]
  rfl

section
variable {op : CollOp} {arr : Bool} {t : Nat} {a x : Opnd}

/-- A team's part in an operation of its block that has begun: the part, and whether the team asks for something else (R407). -/
def Ctx.collPart (c : Ctx) (op : CollOp) (arr : Bool) (t off : Nat) (bar : Option Nat) (k j : CollOpS) : CollOpS :=
  if j.id = k.id then
    { j with issues := j.issues ++ [(c.e.who.team, j.id)]
             differs := k.differs || k.op != op || k.arrival != arr || k.tile != t || k.goff != off || k.bar != bar, pc := c.e.rcd.pc }
  else j

/-- An operation that a team's part begins (R407). -/
def Ctx.collNew (c : Ctx) (op : CollOp) (arr : Bool) (t off : Nat) (bar : Option Nat) : CollOpS :=
  { id := c.s.nextId, op := op, arrival := arr, tile := t, goff := off, bar := bar, issues := [(c.e.who.team, c.s.nextId)],
    differs := false, pc := c.e.rcd.pc, group := (c.e.la.ctx, (gdescOf c.e.blk.scratch off).id), started := false, desc := [], rows_ := [],
    starts := [], nodes := [], sent := [], accs := [], folded := [], final := [], failed := [], mismatch := false, degraded := false }

/-- A `COLL` whose checks pass, its class having room, that joins an operation. -/
theorem opColl_join {k : CollOpS} (hcheck : collCheck c.e.blk (c.uni 0 a).toNat (c.ownBar x) arr = none)
    (hreg : regCheck c.e.s c.e.la c.e.blk (gdescOf c.e.blk.scratch (c.uni 0 a).toNat) = .ok) (ht : (c.e.blk.itile t).valid = true)
    (hn : c.e.team.count 2 < 255) (hk : c.e.blk.colls.find? (fun k => joinColl k c.e.who.team) = some k) :
    (opColl op arr t a x).eff c = .done ((c.modTeam c.s fun t => t.addOp k.id 2).modBlock c.e.blk.bid fun b =>
      { b with colls := b.colls.map (c.collPart op arr t (c.uni 0 a).toNat (c.ownBar x) k) }) := by
  unfold opColl
  simp only [hcheck, regRes_ok hreg, ht, Bool.not_true, Bool.false_eq_true, if_false, not_cntFull hn, hk]
  rfl

/-- A `COLL` whose checks pass, its class having room, that begins an operation. -/
theorem opColl_new (hcheck : collCheck c.e.blk (c.uni 0 a).toNat (c.ownBar x) arr = none)
    (hreg : regCheck c.e.s c.e.la c.e.blk (gdescOf c.e.blk.scratch (c.uni 0 a).toNat) = .ok) (ht : (c.e.blk.itile t).valid = true)
    (hn : c.e.team.count 2 < 255) (hk : c.e.blk.colls.find? (fun k => joinColl k c.e.who.team) = none)
    (hroom : c.e.blk.collGroups.length < 4)
    (hnew : (c.e.la.ctx, (gdescOf c.e.blk.scratch (c.uni 0 a).toNat).id) ∉ c.e.blk.collGroups) :
    (opColl op arr t a x).eff c = .done ((c.modTeam { c.s with nextId := c.s.nextId + 1 } fun t => t.addOp c.s.nextId 2).modBlock c.e.blk.bid
      fun b => { b with colls := b.colls ++ [c.collNew op arr t (c.uni 0 a).toNat (c.ownBar x)] }) := by
  unfold opColl
  simp only [hcheck, regRes_ok hreg, ht, Bool.not_true, Bool.false_eq_true, if_false, not_cntFull hn, hk]
  exact if_neg fun h => h.elim (Nat.not_le.2 hroom) fun h => hnew (List.contains_iff_mem.1 h)

end

/-- AN INSTRUCTION ON ITS OWN BLOCK that may register it in a group and send: memory and scratchpads stay. -/
theorem joined_effect (n : Nat) (hF : ∀ b ts, F { b with teams := ts } = { F b with teams := ts }) (hFb : ∀ b, (F b).bid = b.bid)
    (hFs : ∀ b, (F b).scratch = b.scratch) (hG : ∀ t, (G t).idx = t.idx) (hr : Runs f iss s e c) (hx : exec ins s = issueForm f iss eff s)
    (he : eff (c.begun f e iss) = .done (s1.modBlock e.blk.bid F)) (hjoin : OnlyJoined (c.modTeam { (c.begun f e iss).s with nextId := n } G) s2)
    (hsent : OnlySent s2 s1) :
    ∃ t B, exec ins s = .next t ∧ t.mem = s.mem ∧ SameScratch s t ∧ t.groups = s2.groups ∧ t.block? e.who.bid = some B ∧
      B = { F e.blk with teams := B.teams } ∧
      t.team? e.who.bid e.who.team = some ((G (e.team.begun [(f, c)] e iss)).ended [(f, c.begun f e iss)] s.time) := by
  obtain ⟨hhomes, -, htime⟩ := begun_homes hr
  have hblocks : s1.blocks = (c.modTeam (c.begun f e iss).s G).blocks :=
    ((congrArg State.blocks hsent).trans rfl).trans ((congrArg State.blocks hjoin).trans rfl)
  have ht1 : s1.time = s.time := ((congrArg State.time hsent).trans rfl).trans (((congrArg State.time hjoin).trans rfl).trans htime)
  have hm1 : s1.mem = s.mem := ((congrArg State.mem hsent).trans rfl).trans (((congrArg State.mem hjoin).trans rfl).trans hhomes.mem)
  have hg1 : s1.groups = s2.groups := (congrArg State.groups hsent).trans rfl
  rw [env_bid hr.env] at he
  obtain ⟨t, B, ht, hframe, hB, hBeq, hu, hscr⟩ := block_effect hF hFb hG hr hx he (by rw [State.modBlock, hblocks]; rfl) ht1
  exact ⟨t, B, ht, ((congrArg State.mem hframe).trans rfl).trans hm1, hscr hFs, ((congrArg State.groups hframe).trans rfl).trans hg1, hB, hBeq,
    team?_of_block hB hu⟩

theorem onlyJoined_begun (hr : Runs f iss s e c) :
    OnlyJoined (c.modTeam { (c.begun f e iss).s with nextId := s.nextId } fun t => t) (c.begun f e iss).s := by
  have h : ({ (c.begun f e iss).s with nextId := s.nextId } : State) = (c.begun f e iss).s := by
    rw [← begun_nextId hr]
  rw [h, Ctx.modTeam, modTeam_id]
  rfl

/-- The tests and clears of a scoreboard update that the issuing block makes of its own. -/
theorem setSb_get (b : Block) (n : Nat) (v : W64) (k : Nat) : smGet 0 (setSb b n v).sb k = if k = n then v else smGet 0 b.sb k := by
  simp only [setSb, smGet_smSet]

/-- AN INSTRUCTION THAT SETS A SCOREBOARD of its own block. -/
theorem board_effect {sb : Nat} {v : Block → W64} (hr : Runs f iss s e c) (hx : exec ins s = issueForm f iss eff s)
    (he : eff (c.begun f e iss) = .done ((c.begun f e iss).s.modBlock e.blk.bid fun b => setSb b sb (v b)))
    (hv : ∀ b ts, v { b with teams := ts } = v b) :
    ∃ t, exec ins s = .next t ∧ (t.mem = s.mem ∧ SameScratch s t ∧
        ∃ u, t.team? e.who.bid e.who.team = some u ∧ u.v = e.team.v ∧ u.s = e.team.s ∧ u.k = e.team.k) ∧
      ∃ B, t.block? e.who.bid = some B ∧ (∀ k, smGet 0 B.sb k = if k = sb then v e.blk else smGet 0 e.blk.sb k) ∧
        B.scratch = e.blk.scratch ∧ B.arms = e.blk.arms := by
  obtain ⟨t, B, ht, hm, hscr, -, hB, hBeq, hu⟩ := joined_effect s.nextId (F := fun b => setSb b sb (v b))
    (fun b ts => by rw [hv]; rfl) (fun _ => rfl) (fun _ => rfl) (fun _ => rfl) hr hx he (onlyJoined_begun hr) (.refl _)
  refine ⟨t, ht, ⟨hm, hscr, _, hu, issued_regs hr s.time⟩, B, hB, fun k => ?_, ?_, ?_⟩
  · rw [hBeq]
    exact setSb_get e.blk sb (v e.blk) k
  · rw [hBeq]
    rfl
  · rw [hBeq]
    rfl

theorem differs_eq (k : CollOpS) (op : CollOp) (arr : Bool) (t off : Nat) (bar : Option Nat) :
    (k.differs || k.op != op || k.arrival != arr || k.tile != t || k.goff != off || k.bar != bar) =
      (k.differs || decide (k.op ≠ op ∨ k.arrival ≠ arr ∨ k.tile ≠ t ∨ k.goff ≠ off ∨ k.bar ≠ bar)) := by
  rw [Bool.eq_iff_iff]
  simp only [Bool.or_eq_true, bne_iff_ne, decide_eq_true_eq, or_assoc]

end

end Sys2Proof.Machine

open Sys2Proof Sys2Proof.Machine

/-- Settles O38: past its checks each of these changes its own block, its team's count, and the groups and messages alone. -/
theorem collectiveInstructions : Obligations.CollectiveInstructions := by
  unfold Obligations.CollectiveInstructions
  intro h red clr arr op sb t8 d a b x s e c places
  extract_lets off n v ty blk bar fr sf fc desc rd g cg board regs counted member boards same i
  have hbarOf : c.ownBar x = bar := by
    simp only [Ctx.ownBar, opIsZero_iff]
    rfl
  have hremote : ∃ eff : Ctx → Res, exec i s = issueForm fr (issOf h) eff s ∧ ∀ c', eff c' = c'.remoteOp red a x := by
    cases red with
    | true => exact ⟨(opClred a x).eff, rfl, fun _ => rfl⟩
    | false => exact ⟨(opClsend a x).eff, rfl, fun _ => rfl⟩
  refine ⟨fun hr => ⟨fun hchain => ?_, fun hchain hcheck hreg => ⟨fun hfull => ?_, fun hlen hcnt hpl => ?_⟩⟩, fun hr hn hcheck hreg => ?_,
    fun hr => ⟨fun hn => ?_, fun hn => ?_⟩, fun hr => ⟨?_, ?_⟩, fun hr => ?_, fun hr hty hlen hal hfit => ?_,
    fun hr hcheck hreg htile hcnt => ⟨fun k hk => ?_, fun hk hroom hnew => ?_⟩⟩
  · obtain ⟨eff, hx, heff⟩ := hremote
    obtain ⟨rfl, -, -⟩ := hr.ctx
    exact trap_effect hr hx ((heff _).trans (remoteOp_chain (c := c.begun fr c.e (issOf h)) hchain))
  · obtain ⟨eff, hx, heff⟩ := hremote
    obtain ⟨rfl, -, -⟩ := hr.ctx
    have hes := (getEnv_spec hr.env).1
    rw [← hbarOf] at hcheck
    rw [← hes] at hreg
    exact hold_effect hr hx ((heff _).trans (remoteOp_full (c := c.begun fr c.e (issOf h)) hchain hcheck hreg hfull))
  · obtain ⟨eff, hx, heff⟩ := hremote
    obtain ⟨rfl, -, -⟩ := hr.ctx
    have hes := (getEnv_spec hr.env).1
    rw [← hbarOf] at hcheck
    rw [← hes] at hreg hpl
    have he := (heff _).trans (remoteOp_room (c := c.begun fr c.e (issOf h)) hchain hcheck hreg hlen hcnt hpl)
    obtain ⟨s1, o, hsent, hsame, hchunk⟩ := sendChunk_spec (register ((c.begun fr c.e (issOf h)).modTeam { (c.begun fr c.e (issOf h)).s with
      nextId := (c.begun fr c.e (issOf h)).s.nextId + 1 } fun t => t.addOp (c.begun fr c.e (issOf h)).s.nextId 2) c.e.la c.e.blk g) c.e.blk c.e.la
      desc ((c.begun fr c.e (issOf h)).sendOp red off (c.ownBar x)) places
    obtain ⟨hjoin, hmember⟩ := register_spec ((c.begun fr c.e (issOf h)).modTeam { (c.begun fr c.e (issOf h)).s with
      nextId := (c.begun fr c.e (issOf h)).s.nextId + 1 } fun t => t.addOp (c.begun fr c.e (issOf h)).s.nextId 2) c.e.la c.e.blk g
    obtain ⟨t, B, ht, hm, hscr, hg, hB, hBeq, hu⟩ := joined_effect _ (F := fun b => { b with sends := b.sends ++ [o] })
      (G := fun t => t.addOp (c.begun fr c.e (issOf h)).s.nextId 2) (fun _ _ => rfl) (fun _ => rfl) (fun _ => rfl) (fun _ => rfl) hr hx
      (he.trans (congrArg Res.done hchunk)) hjoin hsent
    have hcount := counted_team hr s.nextId 2 s.time [] []
    rw [enters_plain] at hcount
    rw [begun_nextId hr] at hu
    obtain ⟨hid, hteam, hred, hdesc, hbar, hfired⟩ := sameSend_sendOp hsame
    refine ⟨t, B, o, ht, ⟨hm, hscr, _, hu, counted_regs hcount⟩, ⟨_, hu, ?_, hcount.ops⟩, hmember.of_groups hg, hB, ?_, hid.trans (begun_nextId hr), hteam, hred,
      hdesc, hbar.trans hbarOf, hfired⟩
    · rw [hcount.count, if_pos rfl]
    · rw [hBeq]
      exact List.mem_append_right _ (List.mem_singleton_self o)
  · obtain ⟨rfl, -, -⟩ := hr.ctx
    have hes := (getEnv_spec hr.env).1
    rw [← hes] at hreg
    have he := opClarm_done (c := c.begun (sf [fA a 1, fB b 1] [] .zero) c.e (issOf h)) (clr := clr) hn hcheck hreg
    obtain ⟨hjoin, hmember⟩ := register_spec (c.begun (sf [fA a 1, fB b 1] [] .zero) c.e (issOf h)).s c.e.la c.e.blk g
    obtain ⟨t, B, ht, hm, hscr, hg, hB, hBeq, hu⟩ := joined_effect (ins := .clarm h clr a b) s.nextId
      (F := fun B => { B with arms := B.arms.filter (fun k => k.n != n) ++ [⟨n, desc, c.e.rcd.pc, clr, true⟩] })
      (fun _ _ => rfl) (fun _ => rfl) (fun _ => rfl) (fun _ => rfl) hr rfl he ((onlyJoined_begun hr).trans hjoin) (.refl _)
    refine ⟨t, B, ht, ⟨hm, hscr, _, hu, issued_regs hr s.time⟩, hmember.of_groups hg, hB, ?_, ?_⟩
    · rw [hBeq]
    · rw [hBeq]
  · obtain ⟨rfl, -, -⟩ := hr.ctx
    refine trap_effect (eff := (opClarmOff b).eff) hr rfl (if_pos hn)
  · obtain ⟨rfl, -, -⟩ := hr.ctx
    have he : (opClarmOff b).eff (c.begun (sf [fB b 1] [] .zero) c.e (issOf h)) =
        .done ((c.begun (sf [fB b 1] [] .zero) c.e (issOf h)).s.modBlock c.e.blk.bid (disarm n)) := by
      rw [env_bid hr.env]
      exact if_neg (Nat.not_lt.2 hn)
    obtain ⟨t, B, ht, hm, hscr, -, hB, hBeq, hu⟩ := joined_effect (ins := .clarmOff h b) s.nextId (F := disarm n)
      (fun _ _ => rfl) (fun _ => rfl) (fun _ => rfl) (fun _ => rfl) hr rfl he (onlyJoined_begun hr) (.refl _)
    refine ⟨t, B, ht, ⟨hm, hscr, _, hu, issued_regs hr s.time⟩, hB, ?_, ?_⟩
    · rw [hBeq]
      rfl
    · rw [hBeq]
      rfl
  · obtain ⟨rfl, -, -⟩ := hr.ctx
    obtain ⟨t, ht, hsame, B, hB, hsb, hrest⟩ := board_effect (ins := .sbset h sb a) (eff := (opSbset sb.val a).eff) (sb := sb.val)
      (v := fun b => smGet 0 b.sb sb.val ||| v) hr rfl (by rw [env_bid hr.env]; rfl) fun _ _ => rfl
    refine ⟨t, ht, hsame, B, hB, fun k => (hsb k).trans ?_, hrest⟩
    dsimp only
    split
    · next hk => rw [hk]
    · rfl
  · obtain ⟨rfl, -, -⟩ := hr.ctx
    obtain ⟨t, ht, hsame, B, hB, hsb, hrest⟩ := board_effect (ins := .sbsetClr h sb a) (eff := (opSbsetClr sb.val a).eff) (sb := sb.val)
      (v := fun b => smGet 0 b.sb sb.val &&& ~~~v) hr rfl (by rw [env_bid hr.env]; rfl) fun _ _ => rfl
    refine ⟨t, ht, hsame, B, hB, fun k => (hsb k).trans ?_, hrest⟩
    dsimp only
    split
    · next hk => rw [hk]
    · rfl
  · obtain ⟨rfl, -, -⟩ := hr.ctx
    exact writes_of hr rfl rfl
  · obtain ⟨rfl, -, -⟩ := hr.ctx
    exact writes_of hr rfl (opClose_done (c := c.begun fc c.e (issOf h)) hr.begun_calm hty hlen hal hfit)
  · obtain ⟨rfl, -, -⟩ := hr.ctx
    have hes := (getEnv_spec hr.env).1
    rw [← hbarOf] at hcheck
    rw [← hes] at hreg
    have he := opColl_join (c := c.begun fr c.e (issOf h)) (op := op) hcheck hreg htile hcnt hk
    obtain ⟨t, B, ht, hm, hscr, -, hB, hBeq, hu⟩ := joined_effect (ins := .coll h op arr t8 a x) s.nextId
      (F := fun b => { b with colls := b.colls.map ((c.begun fr c.e (issOf h)).collPart op arr t8 off (c.ownBar x) k) })
      (G := fun t => t.addOp k.id 2) (fun _ _ => rfl) (fun _ => rfl) (fun _ => rfl) (fun _ => rfl) hr rfl he (by rw [← begun_nextId hr]; rfl)
      (.refl _)
    have hcount := counted_team hr k.id 2 s.time [] []
    rw [enters_plain] at hcount
    refine ⟨t, B, ht, ⟨hm, hscr, _, hu, counted_regs hcount⟩, ⟨_, hu, ?_, hcount.ops⟩, hB, 
      (c.begun fr c.e (issOf h)).collPart op arr t8 off (c.ownBar x) k k, ?_, ?_⟩
    · rw [hcount.count, if_pos rfl]
    · rw [hBeq]
      exact List.mem_map_of_mem (List.mem_of_find?_eq_some hk)
    · rw [Ctx.collPart, if_pos rfl, hbarOf]
      exact ⟨rfl, List.mem_append_right _ (List.mem_singleton_self _), differs_eq k op arr t8 off bar⟩
  · obtain ⟨rfl, -, -⟩ := hr.ctx
    have hes := (getEnv_spec hr.env).1
    rw [← hbarOf] at hcheck
    rw [← hes] at hreg
    have he := opColl_new (c := c.begun fr c.e (issOf h)) (op := op) hcheck hreg htile hcnt hk hroom hnew
    rw [begun_nextId hr] at he
    obtain ⟨t, B, ht, hm, hscr, -, hB, hBeq, hu⟩ := joined_effect (ins := .coll h op arr t8 a x) (s.nextId + 1)
      (F := fun b => { b with colls := b.colls ++ [(c.begun fr c.e (issOf h)).collNew op arr t8 off (c.ownBar x)] })
      (G := fun t => t.addOp s.nextId 2) (fun _ _ => rfl) (fun _ => rfl) (fun _ => rfl) (fun _ => rfl) hr rfl he (.refl _) (.refl _)
    have hcount := counted_team hr s.nextId 2 s.time [] []
    rw [enters_plain] at hcount
    have hid := begun_nextId hr
    refine ⟨t, B, _, ht, ⟨hm, hscr, _, hu, counted_regs hcount⟩, ⟨_, hu, ?_, hcount.ops⟩, hB, congrArg Block.colls hBeq, hid, rfl, rfl, rfl, rfl,
      hbarOf, ?_, rfl, rfl⟩
    · rw [hcount.count, if_pos rfl]
    · rw [← hid]
      rfl

end

section
/-! `STB` where a translation held in the TLB begins inside a line (R247, R423): the access crosses the end of its line, whose pending
version takes the bytes up to the end alone. -/

namespace Sys2Proof.Machine

/-- A bundle open in slot 0 of team 0 of the first block. -/
def openBundle : Bundle :=
  { id := 9, dev := 0, q := 0, lseq := 0, idx := 0, team := 0, slot := 0, ctx := 0, tag := 7, gen := 5, op := 0, since := 0, phase := .open_,
    homes := [], prepared := [], acked := [], asked := [], stbs := [], lost := false, newest := 0, expiry := 0, remote := false, tc := 0,
    man := [] }

/-- One lane: v0, v1 hold the address 128, and v2 the bytes 1, 1, 1, 1. -/
def bundleTeam : Team :=
  { newTeam 0 0 1 0 0 176 [] 0 0 352 with
    v := [(vKey 0 0, 128), (vKey 2 0, 0x01010101)], slots := [⟨true, false, 0, 0, 5, 7⟩, noSlot, noSlot, noSlot] }

/-- A block whose bundle is open, with a translation that begins at 1 in its cluster's TLB: address 128 is byte 127 of the frame. -/
def skewed : State :=
  { State.reset with
    nextId := 2
    launches := [newLaunch 0 0 0 0 0 0 { progHdr with e := [1, 1, 1, 1, 1, 1], w := [0, 0, 0, 0, 0, 0] } []]
    blocks := [newBlock 1 0 0 0 (.core 0) [bundleTeam] 4096]
    bundles := [openBundle]
    tlb := [⟨0, 0, 1, 1, 0x100D⟩]
    cur := ⟨1, 0, 0⟩ }

def stbHdr : Hdr := ⟨0, 0, false, none⟩
def stbCtl : MemCtl := ⟨.b32, .normal, .rlx, .dev⟩
def stbForm : Form := ⟨[fA (.v 0) 2, fB .zero 1, fC (.v 2) 1], [], .vec, none, .own, false, false⟩
def stbInstr : Instr := .stb stbHdr 0 stbCtl (.v 0) .zero (.v 2)

def skewedStores (c : Ctx) : List (Nat × Nat × Except Nat Target) :=
  c.resolveLanes c.lanes (c.ea true (.v 0) .zero) 4 1 noExtra

/-- What the statement asks of the store, and where it lies, as a Bool. -/
def crossing (e : Env) (c : Ctx) : Bool :=
  (e.team.slot 0).open_ && teamBundle? skewed e.blk e.who.team 0 == some openBundle && c.lanes == [0] &&
    firstBad (skewedStores c) [] == none && c.rdN 2 (.v 2) 1 0 == 0x01010101 &&
    match goodAccs (skewedStores c) with
    | [(0, _, .mem _ p)] => p.kind == .own && p.loc == 127 && !homeRemote skewed (homeOfLine skewed p.line)
    | _ => false

theorem skewed_runs : runsIn stbForm (issOf stbHdr) skewed crossing = true := by decide +kernel

/-- No pending version holds the four bytes from byte 127 of its line on. -/
theorem skewed_pends : (match exec stbInstr skewed with
    | .next t => t.pendLines.all fun q => lineBytes q.data 127 4 != [1, 1, 1, 1]
    | _ => true) = true := by decide +kernel

end Sys2Proof.Machine

open Sys2Proof Sys2Proof.Machine

/-- Refutes O39: an `STB` of four bytes from byte 127 of its line on, by a translation that the cluster's TLB holds from address 1, leaves
one of them in the pending version. -/
theorem not_bundleInstructions : ¬ Obligations.BundleInstructions := by
  unfold Obligations.BundleInstructions
  intro hall
  obtain ⟨e, c, hr, hcross⟩ := runs_of_runsIn skewed_runs
  simp only [crossing, Bool.and_eq_true, beq_iff_eq] at hcross
  obtain ⟨⟨⟨⟨⟨hopen, hbun⟩, hlanes⟩, hgood⟩, hval⟩, hacc⟩ := hcross
  split at hacc
  · next va tr p haccs =>
    simp only [Bool.and_eq_true, beq_iff_eq, Bool.not_eq_true'] at hacc
    obtain ⟨⟨hkind, hloc⟩, hhome⟩ := hacc
    obtain ⟨-, hbundle, -⟩ := hall stbHdr 0 stbCtl false .zero (.v 0) .zero (.v 2) 0 skewed e c openBundle 0 va p.line tr p
    obtain ⟨hstb, -⟩ := hbundle hopen hbun
    have hhomes : (openBundle.homes ++ [homeOfLine skewed p.line]).dedup.length ≤ 16 := by simp [openBundle]
    have hroom : (skewed.pendLines.filter fun q => homeOfLine skewed q.line == homeOfLine skewed p.line).length < 65536 := by
      rw [show skewed.pendLines = [] from rfl]
      exact Nat.zero_lt_succ _
    obtain ⟨t, q, ht, -, hq, -, -, -, hbytes, -⟩ := hstb hr hlanes hgood haccs hkind rfl hhome (by decide) hhomes hroom
    have hpends := skewed_pends
    rw [show exec stbInstr skewed = .next t from ht] at hpends
    have hne := List.all_eq_true.1 hpends q hq
    rw [hloc, show c.rdN 2 (.v 2) (sizeRegs stbCtl.size) 0 = 0x01010101 from hval] at hbytes
    rw [show lineBytes q.data 127 4 = [1, 1, 1, 1] from hbytes] at hne
    exact absurd hne (by decide)
  · exact absurd hacc (by decide)

end

section
/-! Atomics on a scratchpad (R206, R211 to R215). -/

namespace Sys2Proof.Machine

/-! What updates of a scratchpad and of its barrier objects leave (R25, R26). -/

/-- Of a block only its scratchpad, poison marks and scoreboards differ. -/
def OnlyScr (b b' : Block) : Prop := b' = { b with scratch := b'.scratch, spoison := b'.spoison, sb := b'.sb, sbTest := b'.sbTest }

section
variable {b b' b'' : Block}

theorem OnlyScr.refl (b : Block) : OnlyScr b b := rfl

theorem OnlyScr.trans (h : OnlyScr b b') (g : OnlyScr b' b'') : OnlyScr b b'' := by
  unfold OnlyScr at *
  rw [g, h]

theorem OnlyScr.bid (h : OnlyScr b b') : b'.bid = b.bid := by rw [h]
theorem OnlyScr.teams (h : OnlyScr b b') : b'.teams = b.teams := by rw [h]
theorem OnlyScr.objs (h : OnlyScr b b') : b'.objs = b.objs := by rw [h]

theorem closeTest_onlyScr (b : Block) (off : Nat) : OnlyScr b (closeTest b off) := by
  unfold closeTest
  extract_lets o o' b1 sb
  split
  · split <;> rfl
  · rfl

theorem foldl_closeTest_onlyScr (l : List Nat) : ∀ b : Block, OnlyScr b (l.foldl closeTest b) := by
  induction l with
  | nil => exact .refl
  | cons o l ih => exact fun b => (closeTest_onlyScr b o).trans (ih _)

theorem updateObj_onlyScr (b : Block) (off : Nat) (g : BarObj → BarObj) : OnlyScr b (updateObj b off g) :=
  OnlyScr.trans (b' := { b with scratch := setBytes b.scratch off (leBytes 16 (g (getObj b off)).num) }) rfl (closeTest_onlyScr _ off)

theorem putScratch_onlyScr (b : Block) (off : Nat) (l : List Byte) (p : Bool) : OnlyScr b (putScratch b off l p) := by
  unfold putScratch
  extract_lets n clear marks b1
  exact OnlyScr.trans (b' := b1) rfl (foldl_closeTest_onlyScr _ b1)

theorem putScratch_bid (b : Block) (off : Nat) (l : List Byte) (p : Bool) : (putScratch b off l p).bid = b.bid :=
  (putScratch_onlyScr b off l p).bid

end

/-! Bytes written to a scratchpad where no barrier object lies. -/

/-- No barrier object lies under n bytes of a block's scratchpad. -/
def Block.plainAt (b : Block) (off n : Nat) : Prop := ∀ o ∈ b.objs, ¬ (o < off + n ∧ off < o + 16)

theorem putScratch_plain {b : Block} {off : Nat} {l : List Byte} (h : b.plainAt off l.length) (p : Bool) :
    putScratch b off l p = { b with scratch := setBytes b.scratch off l, spoison := (putScratch b off l p).spoison } := by
  have hobjs : b.objs.filter (fun o => decide (o < off + l.length) && decide (off < o + 16)) = [] :=
    List.filter_eq_nil_iff.2 fun o ho => by simpa using h o ho
  unfold putScratch
  simp only [hobjs, List.foldl_nil]

section
variable {ins : Instr} {iss : Iss} {s s1 s2 : State} {e : Env} {c : Ctx} {f : Form} {eff : Ctx → Res} {bid off n l ea : Nat} {B : Block}

/-- A write of bytes to one scratchpad. -/
theorem scrByte_putScratch (hB : s.block? bid = some B) {bs : List Byte} (hplain : B.plainAt off bs.length) (p : Bool) :
    let t := s.modBlock bid fun b => putScratch b off bs p
    (∀ j, j < bs.length → scrByte t bid (off + j) = bs.getD j 0) ∧
      ∀ bd o, (bd ≠ bid ∨ o < off ∨ off + bs.length ≤ o) → scrByte t bd o = scrByte s bd o := by
  intro t
  have hbid : B.bid = bid := by simpa using List.find?_some hB
  have ht : ∀ bd, t.block? bd = (s.block? bd).map fun b => if bd = bid then putScratch b off bs p else b :=
    fun bd => State.block?_modBlock _ _ _ _ fun b => putScratch_bid b off bs p
  have hscr : ∀ o, scrByte t bid o = byteAt (setBytes B.scratch off bs) o := by
    intro o
    rw [scrByte, ht, hB, Option.map_some, if_pos rfl]
    exact congrArg (fun b : Block => byteAt b.scratch o) (putScratch_plain hplain p)
  refine ⟨fun j hj => ?_, fun bd o ho => ?_⟩
  · rw [hscr, byteAt_setBytes]
    simp [hj]
  · by_cases hbd : bd = bid
    · subst hbd
      rw [hscr, byteAt_setBytes_out (ho.resolve_left fun h => h rfl), scrByte, hB]
    · rw [scrByte, ht, scrByte]
      cases s.block? bd <;> simp [hbd]

/-! One lane's access of a scratchpad. -/

theorem low_of_lanes (h : c.lanes = [l]) : c.e.low c.m = l := by
  have hlow : lowLane c.m c.e.team.lanes = some l := by
    rw [lowLane, show maskLanes c.m c.e.team.lanes = [l] from h]
    rfl
  rw [Env.low, hlow]
  rfl

theorem laneVal_one (l v : Nat) : laneVal [(l, v)] l = v := by
  simp [laneVal]

theorem access_one {gen : Nat → Nat} {n need : Nat} {extra : Nat → Target → Option Nat} (hea : gen l = ea)
    (hres : resolve c.e.s c.e.la.hdr c.e.blk c.e.la.ctx ea n need = .ok (.scr bid off)) (hextra : extra ea (.scr bid off) = none)
    (act : List Acc → Res) : c.access [l] gen n need extra act = act [(l, ea, .scr bid off)] := by
  have hrs : c.resolveLanes [l] gen n need extra = [(l, ea, .ok (.scr bid off))] := by
    simp only [Ctx.resolveLanes, List.map_cons, List.map_nil, hea, hres, hextra]
  rw [access_good (by rw [hrs]; rfl), hrs]
  rfl

theorem atomLs_one (h : c.lanes = [l]) (d : Opnd) : c.atomLs d = [l] := by
  rw [Ctx.atomLs, h, low_of_lanes h]
  split <;> rfl

theorem noteStores_scr (c : Ctx) (l ea bid off : Nat) (s : State) : c.noteStores [(l, ea, .scr bid off)] s = s := by
  unfold Ctx.noteStores
  split <;> rfl

/-- The value that an atomic of one lane leaves in a register: what stood at the place. -/
def oldOf (d : Opnd) (l v : Nat) : Nat → Nat := fun j => laneVal [(l, v)] (if opIsS d then l else j)

theorem homeVal_scr (hB : s.block? bid = some B) (n : Nat) : c.homeVal s (.scr bid off) n = numAt B.scratch off n := by
  simp only [Ctx.homeVal, hB]

/-- `ATOM` and `ATOMS` of one lane on a scratchpad, their checks past. -/
theorem atomic_scr {mc : MemCtl} {op : AtomOp} {gen : Bool} {d a b x : Opnd} (hp : c.e.probing = false) (hlanes : c.lanes = [l])
    (hea : c.ea gen a b l = ea) (hrel : c.relHold (orderRel mc.order) mc.scope = none)
    (hres : resolve c.e.s c.e.la.hdr c.e.blk c.e.la.ctx ea (sizeBytes mc.size) 2 = .ok (.scr bid off))
    (hpois : c.homePoison (sizeBytes mc.size) (.scr bid off) = false) (hB : c.s.block? bid = some B) :
    let n := sizeBytes mc.size
    let k := sizeRegs mc.size
    let old := numAt B.scratch off n
    c.atomic mc op gen d a b x = .done (c.acquires mc.order mc.scope (c.noteHost d k [(l, ea, .scr bid off)]
      (c.putOn c.lanes d k (oldOf d l old) (c.s.modBlock bid fun b =>
        putScratch b off (leBytes n (atomNew op (8 * n) old (c.rdN 2 x k l) (c.rdN 3 d k l))) false)))) := by
  intro n k old
  refine (if_neg (by simp [hp])).trans ((afterRel_none hrel _).trans ?_)
  rw [atomLs_one hlanes, access_one hea hres (by simp [Ctx.routeAt, hpois])]
  refine (afterRel_none hrel _).trans ?_
  rw [hlanes]
  simp only [Ctx.atomLanes, List.foldl_cons, List.foldl_nil, List.nil_append, homeVal_scr hB, noteStores_scr]
  rfl

/-- `RED` of one lane on a scratchpad, its checks past. -/
theorem reduce_scr {mc : MemCtl} {op : AtomOp} {a b x : Opnd} (hp : c.e.probing = false) (hlanes : c.lanes = [l])
    (hea : c.ea true a b l = ea) (hrel : c.relHold (orderRel mc.order) mc.scope = none)
    (hres : resolve c.e.s c.e.la.hdr c.e.blk c.e.la.ctx ea (sizeBytes mc.size) 1 = .ok (.scr bid off))
    (hpois : c.homePoison (sizeBytes mc.size) (.scr bid off) = false) (hB : c.s.block? bid = some B) :
    let n := sizeBytes mc.size
    c.reduce mc op a b x = .done (c.s.modBlock bid fun b =>
        putScratch b off (leBytes n (atomNew op (8 * n) (numAt B.scratch off n) (c.rdN 2 x (sizeRegs mc.size) l) 0)) false) := by
  intro n
  refine (if_neg (by simp [hp])).trans ((afterRel_none hrel _).trans ?_)
  rw [hlanes, access_one hea hres rfl]
  refine (afterRel_none hrel _).trans ?_
  simp only [hpois, Bool.not_false, List.filter_cons, List.filter_nil, if_true, Bool.false_eq_true, if_false, List.foldl_nil,
    noteStores_scr, Ctx.atomLanes, List.foldl_cons, homeVal_scr hB]
  rfl

theorem atomNew_cmp {op : AtomOp} (h : op ≠ .cas) (w o x m m' : Nat) : atomNew op w o x m = atomNew op w o x m' := by
  cases op
  case cas => exact absurd rfl h
  all_goals rfl

/-- The issuing block's scratchpad and objects are those at issue. -/
theorem begun_block (hr : Runs f iss s e c) (hB : s.block? bid = some B) : ∃ ts, (c.begun f e iss).s.block? bid = some { B with teams := ts } := by
  rw [show (c.begun f e iss).s = beginIssue [(f, c)] e iss from rfl, beginIssue_eq, State.block?_modTeam, (getEnv_spec hr.env).1]
  change ∃ ts, Option.map _ (s.block? bid) = _
  rw [hB, Option.map_some]
  split
  · exact ⟨_, rfl⟩
  · exact ⟨B.teams, rfl⟩

/-- The teams of a state stand as before where its blocks keep their teams. -/
theorem team?_modBlock_kept {P : Block → Block} (hP : ∀ b, (P b).bid = b.bid ∧ (P b).teams = b.teams) (k i : Nat) :
    (s.modBlock bid P).team? k i = s.team? k i := by
  rw [State.team?, State.block?_modBlock _ _ _ _ fun b => (hP b).1, State.team?]
  cases s.block? k with
  | none => rfl
  | some b =>
    by_cases hk : k = bid
    · rw [Option.map_some, if_pos hk]
      exact congrArg (fun ts : List Team => ts.find? fun t => t.idx == i) (hP b).2
    · rw [Option.map_some, if_neg hk]

theorem team?_modBlock_scr {P : Block → Block} (hP : ∀ b, OnlyScr b (P b)) (k i : Nat) : (s.modBlock bid P).team? k i = s.team? k i :=
  team?_modBlock_kept (fun b => ⟨(hP b).bid, (hP b).teams⟩) k i

/-- The bytes after a write of one place of a scratchpad. -/
theorem stored_of {t : State} {bs : List Byte} (hr : Runs f iss s e c) (hB : s.block? bid = some B) (hplain : B.plainAt off bs.length)
    (hs1 : s1 = (c.begun f e iss).s.modBlock bid fun b => putScratch b off bs false) (hframe : t = { s1 with blocks := t.blocks })
    (hscr : SameScratch s1 t) :
    (∀ j, j < bs.length → scrByte t bid (off + j) = bs.getD j 0) ∧
      (∀ bd o, (bd ≠ bid ∨ o < off ∨ off + bs.length ≤ o) → scrByte t bd o = scrByte s bd o) ∧ t.mem = s.mem ∧ t.lines = s.lines := by
  subst hs1
  obtain ⟨hhomes, -, -⟩ := begun_homes hr
  obtain ⟨ts, hB'⟩ := begun_block hr hB
  obtain ⟨hin, hout⟩ := scrByte_putScratch hB' (bs := bs) hplain false
  have hbegun := sameScratch_of_map (scratchAs_begun hr)
  refine ⟨fun j hj => (hscr _ _).trans (hin j hj), fun bd o ho => (hscr _ _).trans ((hout bd o ho).trans (hbegun _ _)), ?_, ?_⟩
  · rw [hframe]
    exact hhomes.mem
  · rw [hframe]
    exact hhomes.lines

/-- AN INSTRUCTION THAT CHANGES NOTHING OF ITS TEAM but its issue. -/
theorem issued_effect (hr : Runs f iss s e c) (hx : exec ins s = issueForm f iss eff s) (he : eff (c.begun f e iss) = .done s1)
    (htime : s1.time = s.time) (hteam : s1.team? e.who.bid e.who.team = some (e.team.begun [(f, c)] e iss)) :
    ∃ t u, exec ins s = .next t ∧ t = { s1 with blocks := t.blocks } ∧ SameScratch s1 t ∧ t.team? e.who.bid e.who.team = some u ∧
      u.v = e.team.v ∧ u.s = e.team.s ∧ u.k = e.team.k := by
  have hid : s1 = c.modTeam s1 fun t => t := (modTeam_id s1 _ _).symm
  obtain ⟨t, ht, hframe, hscr, hut⟩ := team_done (fun _ => rfl) hr hx (he.trans (congrArg Res.done hid)) htime hteam
  exact ⟨t, _, ht, hframe, hscr, hut, issued_regs hr s.time⟩

/-- The registers after an atomic of one lane. -/
theorem vAfter_oldOf (hlanes : c.lanes = [l]) (d : Opnd) (k v r j : Nat) : c.vAfter d k (oldOf d l v) r j = c.vAfter d k (fun _ => v) r j := by
  unfold Ctx.vAfter
  cases d with
  | v _ | x _ =>
    simp only [Ctx.firstReg, hlanes, List.mem_singleton]
    split
    · next h =>
      obtain ⟨rfl, -⟩ := h
      rw [oldOf, show opIsS _ = false from rfl, if_neg Bool.false_ne_true, laneVal_one]
    · rfl
  | _ => rfl

theorem sAfter_oldOf (d : Opnd) (k v r : Nat) : c.sAfter d k (oldOf d l v) r = c.sAfter d k (fun _ => v) r := by
  refine sAfter_sca c d k _ _ r fun hd => ?_
  rw [oldOf, if_pos hd, laneVal_one]

end

end Sys2Proof.Machine

open Sys2Proof Sys2Proof.Machine

/-- Settles O17: past its checks an atomic of one lane on a scratchpad is one write of its block's bytes and of one destination. -/
theorem scratchpadAtomics : Obligations.ScratchpadAtomics := by
  unfold Obligations.ScratchpadAtomics
  intro h mc op d a b x s e c l ea bid off B
  extract_lets n k old new one stored loaded
  have hatomic : ∀ (gen sta : Bool) (i : Instr) (eff : Ctx → Res), exec i s = issueForm (atomForm op gen sta k d a b x) (issOf h) eff s →
      (∀ c', eff c' = c'.atomic mc op gen d a b x) → Runs (atomForm op gen sta k d a b x) (issOf h) s e c → one gen 2 →
      ∃ t, exec i s = .next t ∧ stored t ∧ loaded t (atomForm op gen sta k d a b x) := by
    intro gen sta i eff hx heff hr hone
    obtain ⟨hlanes, hea, hrel, hres, hpois, hB, hobjs⟩ := hone
    obtain ⟨rfl, -, -⟩ := hr.ctx
    obtain ⟨ts, hB'⟩ := begun_block hr hB
    rw [← (getEnv_spec hr.env).1] at hres
    let s1 := (c.begun (atomForm op gen sta k d a b x) c.e (issOf h)).s.modBlock bid fun b => putScratch b off (leBytes n new) false
    have he := (heff (c.begun (atomForm op gen sta k d a b x) c.e (issOf h))).trans
      (atomic_scr hr.begun_calm hlanes hea hrel hres hpois hB')
    rw [putOn_eq] at he
    have hnotes := (noteHost_notesOf (c.begun (atomForm op gen sta k d a b x) c.e (issOf h)) d k [(l, ea, .scr bid off)]
      (c.modTeam s1 (c.putTeam d k (oldOf d l old)))).trans (acquires_notesOf _ mc.order mc.scope _)
    have hlen : (leBytes n new).length = n := leBytes_length n new
    obtain ⟨t, u, ht, hframe, hscr, hut, hnoted, -⟩ := noted_effect (s1 := s1) (d := d) (n := k) (val := oldOf d l old) hr hx he hnotes
      (begun_homes hr).2.2 ((team?_modBlock_scr (fun b => putScratch_onlyScr b _ _ _) _ _).trans (begun_team hr))
    obtain ⟨hin, hout, hm, hl⟩ := stored_of (bs := leBytes n new) hr hB (by rw [hlen]; exact hobjs) rfl hframe hscr
    rw [hlen] at hin hout
    exact ⟨t, ht, ⟨hin, hout, hm, hl⟩, u, hut, hnoted.rest, fun r j hj => (hnoted.vec r j hj).trans (vAfter_oldOf hlanes d k old r j),
      fun r => (hnoted.sca r).trans (sAfter_oldOf d k old r), hnoted.idx⟩
  refine ⟨hatomic true true (.atom h mc op d a b x) (opAtom mc op d a b x).eff rfl fun _ => rfl,
    hatomic false false (.atoms h mc op d a b x) (opAtoms mc op d a b x).eff rfl fun _ => rfl, fun hr hone hcas => ?_⟩
  obtain ⟨hlanes, hea, hrel, hres, hpois, hB, hobjs⟩ := hone
  obtain ⟨rfl, -, -⟩ := hr.ctx
  obtain ⟨ts, hB'⟩ := begun_block hr hB
  rw [← (getEnv_spec hr.env).1] at hres
  have hnew : new = atomNew op (8 * n) old (c.rdN 2 x k l) 0 := atomNew_cmp hcas _ _ _ _ _
  let s1 := (c.begun (storeForm true true k a b x) c.e (issOf h)).s.modBlock bid fun b => putScratch b off (leBytes n new) false
  have he : (opRed mc op a b x).eff (c.begun (storeForm true true k a b x) c.e (issOf h)) = .done s1 := by
    simp only [s1, hnew]
    exact reduce_scr (B := { B with teams := ts }) hr.begun_calm hlanes hea hrel hres hpois hB'
  have hlen : (leBytes n new).length = n := leBytes_length n new
  obtain ⟨t, u, ht, hframe, hscr, hut, hregs⟩ := issued_effect (ins := .red h mc op a b x) hr rfl he (begun_homes hr).2.2
    ((team?_modBlock_scr (fun b => putScratch_onlyScr b _ _ _) _ _).trans (begun_team hr))
  obtain ⟨hin, hout, hm, hl⟩ := stored_of (bs := leBytes n new) hr hB (by rw [hlen]; exact hobjs) rfl hframe hscr
  rw [hlen] at hin hout
  exact ⟨t, u, ht, ⟨hin, hout, hm, hl⟩, hut, hregs⟩

end

section
/-! A copy issues (R17, R273, R292, R293): what the service of buffers that follows leaves of the issuing team and of its block's copies. -/

namespace Sys2Proof.Machine

/-- A team that is not in probe mode keeps its vector and mask registers and what it counts, and where `q` holds its scalar ones. -/
def TeamKept (q : Prop) (t u : Team) : Prop :=
  t.probe = none → u.probe = none ∧ u.v = t.v ∧ u.k = t.k ∧ u.cnt = t.cnt ∧ u.ops = t.ops ∧ (q → u.s = t.s)

/-- One copy, wherever its reservation stands. -/
def SameCopy (o k : CopyOp) : Prop := k = { o with phase := k.phase, slot := k.slot }

/-- Team `ti` of a block, and the block's copies, are kept. -/
structure BlockKept (q : Prop) (ti : Nat) (b b' : Block) : Prop where
  team : ∀ u, b.team? ti = some u → ∃ u', b'.team? ti = some u' ∧ TeamKept q u u'
  copies : ∀ o ∈ b.copies, ∃ k ∈ b'.copies, SameCopy o k

/-- No sub-team of team `ti` of block `bid` waits at a buffer; its copies may. -/
def SubsOut (bid ti : Nat) (s : State) : Prop := ∀ K ∈ s.blocks, ∀ w ∈ K.cbq, w.who.bid = bid → w.who.team = ti → w.op.isSome = true

/-- A move that keeps memory, the team and the copies; `q` says that no sub-team of the team waits at a buffer. -/
structure Kept (q : Prop) (bid ti : Nat) (s t : State) : Prop where
  run : (q → SubsOut bid ti s) → t.mem = s.mem ∧ t.time = s.time ∧ (q → SubsOut bid ti t) ∧
    ∀ b, s.block? bid = some b → ∃ b', t.block? bid = some b' ∧ BlockKept q ti b b'

section
variable {q : Prop} {bid ti k : Nat} {s t u : State} {b b' b'' : Block} {x y z : Team}

theorem TeamKept.refl (t : Team) : TeamKept q t t := fun h => ⟨h, rfl, rfl, rfl, rfl, fun _ => rfl⟩

theorem TeamKept.trans (h : TeamKept q x y) (g : TeamKept q y z) : TeamKept q x z := by
  intro hx
  obtain ⟨hy, hv, hk, hc, ho, hs⟩ := h hx
  obtain ⟨hz, gv, gk, gc, go, gs⟩ := g hy
  exact ⟨hz, gv.trans hv, gk.trans hk, gc.trans hc, go.trans ho, fun hq => (gs hq).trans (hs hq)⟩

theorem SameCopy.refl (o : CopyOp) : SameCopy o o := rfl

theorem SameCopy.trans {o j l : CopyOp} (h : SameCopy o j) (g : SameCopy j l) : SameCopy o l := by
  unfold SameCopy at *
  rw [g, h]

theorem BlockKept.refl (b : Block) : BlockKept q ti b b := ⟨fun u hu => ⟨u, hu, .refl u⟩, fun o ho => ⟨o, ho, .refl o⟩⟩

theorem BlockKept.trans (h : BlockKept q ti b b') (g : BlockKept q ti b' b'') : BlockKept q ti b b'' := by
  refine ⟨fun u hu => ?_, fun o ho => ?_⟩
  · obtain ⟨u', hu', hk⟩ := h.team u hu
    obtain ⟨u'', hu'', hk'⟩ := g.team u' hu'
    exact ⟨u'', hu'', hk.trans hk'⟩
  · obtain ⟨j, hj, hs⟩ := h.copies o ho
    obtain ⟨l, hl, hs'⟩ := g.copies j hj
    exact ⟨l, hl, hs.trans hs'⟩

theorem Kept.refl (s : State) : Kept q bid ti s s := ⟨fun h => ⟨rfl, rfl, h, fun b hb => ⟨b, hb, .refl b⟩⟩⟩

theorem Kept.trans (h : Kept q bid ti s t) (g : Kept q bid ti t u) : Kept q bid ti s u := by
  refine ⟨fun hsub => ?_⟩
  obtain ⟨hm, ht, hsub', hb⟩ := h.run hsub
  obtain ⟨gm, gt, gsub, gb⟩ := g.run hsub'
  refine ⟨gm.trans hm, gt.trans ht, gsub, fun b hbb => ?_⟩
  obtain ⟨b', hb', hk⟩ := hb b hbb
  obtain ⟨b'', hb'', hk'⟩ := gb b' hb'
  exact ⟨b'', hb'', hk.trans hk'⟩

/-- A move that changes each block on its own. -/
theorem Kept.mapBlocks {f : Block → Block} (hbs : t.blocks = s.blocks.map f) (hm : t.mem = s.mem) (ht : t.time = s.time)
    (hbid : ∀ b, (f b).bid = b.bid) (hcbq : ∀ b, ∀ w ∈ (f b).cbq, w ∈ b.cbq ∨ w.op.isSome = true)
    (hf : ∀ b, b.bid = bid → BlockKept q ti b (f b)) : Kept q bid ti s t := by
  refine ⟨fun hsub => ⟨hm, ht, fun hq K hK w hw hwb hwt => ?_, fun b hb => ⟨f b, ?_, hf b (by simpa using List.find?_some hb)⟩⟩⟩
  · rw [hbs] at hK
    obtain ⟨K₀, hK₀, rfl⟩ := List.mem_map.1 hK
    exact (hcbq K₀ w hw).elim (fun h => hsub hq K₀ hK₀ w h hwb hwt) id
  · rw [State.block?, hbs, List.find?_map, show ((fun b : Block => b.bid == bid) ∘ f) = fun b => b.bid == bid from funext fun b => by
      rw [Function.comp, hbid]]
    rw [State.block?] at hb
    rw [hb]
    rfl

theorem Kept.modBlock {F : Block → Block} (hbid : ∀ b, (F b).bid = b.bid) (hcbq : ∀ b, ∀ w ∈ (F b).cbq, w ∈ b.cbq ∨ w.op.isSome = true)
    (hF : ∀ b, BlockKept q ti b (F b)) : Kept q bid ti s (s.modBlock k F) := by
  refine Kept.mapBlocks (f := fun b => if b.bid = k then F b else b) rfl rfl rfl (fun b => ?_) (fun b w hw => ?_) fun b _ => ?_
  · split
    · exact hbid b
    · rfl
  · split at hw
    · exact hcbq b w hw
    · exact .inl hw
  · split
    · exact hF b
    · exact .refl b

/-- A change of a block that leaves its teams and copies. -/
theorem BlockKept.of_eq (ht : b'.teams = b.teams) (hc : b'.copies = b.copies) : BlockKept q ti b b' :=
  ⟨fun u hu => ⟨u, by rw [Block.team?, ht]; exact hu, .refl u⟩, fun o ho => ⟨o, hc ▸ ho, .refl o⟩⟩

theorem BlockKept.mapTeams {g : Team → Team} (ht : b'.teams = b.teams.map g) (hc : b'.copies = b.copies) (hidx : ∀ t, (g t).idx = t.idx)
    (hg : ∀ t, t.idx = ti → TeamKept q t (g t)) : BlockKept q ti b b' := by
  refine ⟨fun u hu => ⟨g u, ?_, hg u (by simpa using List.find?_some hu)⟩, fun o ho => ⟨o, hc ▸ ho, .refl o⟩⟩
  rw [Block.team?, ht, List.find?_map, show ((fun t : Team => t.idx == ti) ∘ g) = fun t => t.idx == ti from funext fun t => by
    rw [Function.comp, hidx]]
  rw [Block.team?] at hu
  rw [hu]
  rfl

theorem Kept.modTeam {i : Nat} {G : Team → Team} (hidx : ∀ t, (G t).idx = t.idx) (hG : k = bid → i = ti → ∀ t, TeamKept q t (G t)) :
    Kept q bid ti s (s.modTeam k i G) := by
  refine Kept.mapBlocks (f := fun b => if b.bid = k then b.modTeam i G else b) rfl rfl rfl (fun b => ?_) (fun b w hw => ?_) fun b hb => ?_
  · split <;> rfl
  · split at hw <;> exact .inl hw
  · split
    · next hk =>
      refine .mapTeams (g := fun t => if t.idx = i then G t else t) rfl rfl (fun t => ?_) fun t ht => ?_
      · split
        · exact hidx t
        · rfl
      · split
        · next hi => exact hG (hk.symm.trans hb) (hi.symm.trans ht) t
        · exact .refl t
    · exact .refl b

/-! The moves of the service of buffers. -/

theorem OnlyScr.kept (h : OnlyScr b b') : BlockKept q ti b b' := by
  unfold OnlyScr at h
  exact .of_eq (by rw [h]) (by rw [h])

theorem OnlyScr.cbq (h : OnlyScr b b') : b'.cbq = b.cbq := by rw [h]

theorem putCb_onlyScr (b : Block) (off : Nat) (c : CBuf) : OnlyScr b (putCb b off c) := putScratch_onlyScr ..

/-- Only its scratchpad, its own objects' state and matrix engine differ, and waiters at buffers go. -/
def Serves (b b' : Block) : Prop :=
  b'.bid = b.bid ∧ b'.teams = b.teams ∧ b'.copies = b.copies ∧ ∀ w ∈ b'.cbq, w ∈ b.cbq

theorem OnlyScr.serves (h : OnlyScr b b') : Serves b b' := by
  unfold OnlyScr at h
  exact ⟨by rw [h], by rw [h], by rw [h], fun w hw => by rw [h] at hw; exact hw⟩

theorem Serves.refl (b : Block) : Serves b b := (OnlyScr.refl b).serves

theorem Serves.trans (h : Serves b b') (g : Serves b' b'') : Serves b b'' := by
  obtain ⟨hb, ht, hc, hw⟩ := h
  obtain ⟨gb, gt, gc, gw⟩ := g
  exact ⟨gb.trans hb, gt.trans ht, gc.trans hc, fun w h => hw w (gw w h)⟩

theorem dropWaiter_serves (b : Block) (w : CbWaiter) : Serves b (dropWaiter b w) :=
  ⟨rfl, rfl, rfl, fun _ h => (List.mem_filter.1 h).1⟩

theorem acquireSlot_serves (b : Block) (off : Nat) (c : CBuf) : Serves b (acquireSlot b off c).2 := (putCb_onlyScr ..).serves

theorem grantMat_serves (b : Block) (off : Nat) (c : CBuf) (o : MatOp) : Serves b (grantMat b off c o) := by
  unfold grantMat
  split
  · obtain ⟨hb, ht, hc, hw⟩ := acquireSlot_serves b off c
    exact ⟨hb, ht, hc, hw⟩
  · exact .refl b

theorem fillSlot_serves (b : Block) (off i tag : Nat) : Serves b (fillSlot b off i tag) := by
  unfold fillSlot
  split
  · exact .refl b
  · next c _ =>
    extract_lets b1
    have h1 : Serves b b1 := by
      unfold b1
      split
      · exact .refl b
      · exact (putScratch_onlyScr ..).serves
    exact h1.trans (putCb_onlyScr ..).serves

theorem Kept.serves {F : Block → Block} (hF : ∀ b, Serves b (F b)) : Kept q bid ti s (s.modBlock k F) :=
  .modBlock (fun b => (hF b).1) (fun b w hw => .inl ((hF b).2.2.2 w hw)) fun b => .of_eq (hF b).2.1 (hF b).2.2.1

theorem Kept.modCopy (id : Nat) {F : CopyOp → CopyOp} (hF : ∀ o, SameCopy o (F o)) : Kept q bid ti s (s.modCopy k id F) := by
  refine .modBlock (fun _ => rfl) (fun _ _ hw => .inl hw) fun b => ⟨fun u hu => ⟨u, hu, .refl u⟩, fun o ho => ?_⟩
  refine ⟨_, List.mem_map_of_mem ho, ?_⟩
  split
  · exact hF o
  · exact .refl o

theorem OnlyRecs.kept (h : OnlyRecs x y) : TeamKept q x y := by
  unfold OnlyRecs at h
  intro hx
  generalize y = z at h
  rw [h]
  exact ⟨hx, rfl, rfl, rfl, rfl, fun _ => rfl⟩

theorem OnlyNotes.kept (h : OnlyNotes x y) : TeamKept q x y := by
  unfold OnlyNotes at h
  intro hx
  generalize y = z at h
  rw [h]
  exact ⟨hx, rfl, rfl, rfl, rfl, fun _ => rfl⟩

theorem halt_kept (t : Team) : TeamKept q t t.halt := by
  intro h
  simp only [Team.halt, Team.endProbe, h, Team.drain]
  exact ⟨trivial, trivial, trivial, trivial, trivial, fun _ => trivial⟩

theorem halt_idx (t : Team) : t.halt.idx = t.idx := by
  unfold Team.halt Team.endProbe
  split <;> rfl

theorem stopLaunch_kept (s : State) (p n : Nat) (st : Stop) (all : Bool) : Kept q bid ti s (stopLaunch s p n st all) := by
  refine .mapBlocks rfl rfl rfl (fun b => ?_) (fun b w hw => ?_) fun b _ => ?_
  · split <;> rfl
  · split at hw <;> exact .inl hw
  · split
    · refine .mapTeams rfl rfl (fun t => ?_) fun t _ => ?_
      · split
        · rfl
        · exact halt_idx t
      · split
        · exact .refl t
        · exact halt_kept t
    · exact .refl b

theorem engineStop_kept (s : State) (b : Block) (team cause : Nat) (pc trapa : W64) (pages : List W64) :
    Kept q bid ti s (engineStop s b team cause pc trapa pages) := by
  unfold engineStop
  split
  · exact .refl s
  · exact stopLaunch_kept ..

theorem copyStop_kept (s : State) (k id : Nat) : Kept q bid ti s (copyStop s k id) := by
  unfold copyStop
  split
  · exact .refl s
  · split
    · exact .refl s
    · exact engineStop_kept ..

theorem wakeWaiter_kept (s : State) (w : CbWaiter) : Kept q bid ti s (wakeWaiter s w) :=
  .modTeam (fun _ => rfl) fun _ _ t => OnlyRecs.kept (show OnlyRecs t (t.modRec _ _) from rfl)

theorem acquireAt_kept (s : State) (w : Issuer) (sc : Scope) : Kept q bid ti s (acquireAt s w sc) := by
  unfold acquireAt
  split
  · exact .refl s
  · split
    · exact .refl s
    · extract_lets us
      split
      · exact .refl s
      · exact .modTeam (fun t => (foldl_inherit_onlyNotes us t).idx) fun _ _ t => (foldl_inherit_onlyNotes us t).kept

/-- Registers that a served sub-team takes. -/
theorem foldl_setS_rest (ds : List (Nat × Nat)) : ∀ t : Team, ds.foldl (fun t p => t.setS p.1 (w32 p.2)) t =
    { t with s := (ds.foldl (fun t p => t.setS p.1 (w32 p.2)) t).s } := by
  induction ds with
  | nil => exact fun t => rfl
  | cons p ds ih => exact fun t => ih (t.setS p.1 (w32 p.2))

theorem serveSub_kept {w : CbWaiter} (v tag : Nat) (hw : q → ¬ (w.who.bid = bid ∧ w.who.team = ti)) :
    Kept q bid ti s (serveSub s w v tag) := by
  refine .modTeam (fun t => ?_) fun hb ht t => ?_
  · split
    · rfl
    · rw [(onlyRecs_fuse _ _).idx, foldl_setS_rest]
      rfl
  · split
    · exact .refl t
    · next ds next _ =>
      refine TeamKept.trans ?_ (onlyRecs_fuse s.time _).kept
      intro hp
      rw [foldl_setS_rest]
      exact ⟨hp, rfl, rfl, rfl, rfl, fun hq => absurd ⟨hb, ht⟩ (hw hq)⟩

theorem Kept.bind (h : Kept q bid ti s t) (g : (q → SubsOut bid ti s) → Kept q bid ti t u) : Kept q bid ti s u :=
  ⟨fun hsub => (h.trans (g hsub)).run hsub⟩

/-- A sub-team that waits at a buffer is none of the team's. -/
theorem SubsOut.not_of_firstWaiter {tgt off : Nat} {acq : Bool} {w : CbWaiter} (h : SubsOut bid ti s) (hb : s.block? tgt = some b)
    (hw : firstWaiter b off acq = some w) (hop : w.op = none) : ¬ (w.who.bid = bid ∧ w.who.team = ti) := by
  rintro ⟨hwb, hwt⟩
  have := h b (List.mem_of_find?_eq_some hb) w (List.mem_of_find?_eq_some hw) hwb hwt
  rw [hop] at this
  exact nomatch this

theorem grantCopy_kept (s : State) (tgt off : Nat) (w : CbWaiter) (id : Nat) (c : CBuf) : Kept q bid ti s (grantCopy s tgt off w id c) :=
  (Kept.serves fun b => (dropWaiter_serves b w).trans (putCb_onlyScr ..).serves).trans (.modCopy id fun _ => rfl)

theorem serveRes_kept (tgt off : Nat) (fuel : Nat) : ∀ s, Kept q bid ti s (serveRes s tgt off fuel) := by
  induction fuel with
  | zero => exact .refl
  | succ fuel ih =>
    intro s
    unfold serveRes
    split
    · exact .refl s
    · next b hb =>
      split
      · exact .refl s
      · next w hw =>
        have hout : Kept q bid ti s (s.modBlock tgt fun b => dropWaiter b w) := .serves fun b => dropWaiter_serves b w
        extract_lets out
        split
        · exact (hout.trans (wakeWaiter_kept _ w)).trans (ih _)
        · exact (hout.trans (copyStop_kept _ _ _)).trans (ih _)
        · next c _ hop =>
          split
          · have hput : Kept q bid ti s (acquireAt (out.modBlock tgt fun b => putCb b off c.reserve.2) w.who (scratchScope w.who.bid tgt)) :=
              hout.trans ((Kept.serves fun b => (putCb_onlyScr ..).serves).trans (acquireAt_kept ..))
            refine hput.bind fun hsub => ?_
            exact (serveSub_kept _ _ fun hq => (hsub hq).not_of_firstWaiter hb hw hop).trans (ih _)
          · exact .refl s
        · split
          · exact (grantCopy_kept s tgt off w _ _).trans (ih _)
          · exact .refl s

theorem serveAcq_kept (tgt off : Nat) (fuel : Nat) : ∀ s, Kept q bid ti s (serveAcq s tgt off fuel) := by
  induction fuel with
  | zero => exact .refl
  | succ fuel ih =>
    intro s
    unfold serveAcq
    split
    · exact .refl s
    · next b hb =>
      split
      · exact .refl s
      · next w hw =>
        have hout : Kept q bid ti s (s.modBlock tgt fun b => dropWaiter b w) := .serves fun b => dropWaiter_serves b w
        extract_lets out
        split
        · exact (hout.trans (wakeWaiter_kept _ w)).trans (ih _)
        · exact .refl s
        · next c _ hop =>
          split
          · have hput : Kept q bid ti s (acquireAt (out.modBlock tgt fun b => (acquireSlot b off c).2) w.who (scratchScope w.who.bid tgt)) :=
              hout.trans ((Kept.serves fun b => acquireSlot_serves b off c).trans (acquireAt_kept ..))
            refine hput.bind fun hsub => ?_
            exact (serveSub_kept _ _ fun hq => (hsub hq).not_of_firstWaiter hb hw hop).trans (ih _)
          · exact .refl s
        · next c id _ _ =>
          split
          · exact hout.trans (ih _)
          · next o _ =>
            split
            · split
              · exact (hout.trans (.serves fun b => grantMat_serves b off c o)).trans (ih _)
              · exact .refl s
            · exact hout.trans (ih _)

theorem serveCb_kept (s : State) (tgt off : Nat) : Kept q bid ti s (serveCb s tgt off) :=
  (serveRes_kept tgt off 64 s).trans (serveAcq_kept tgt off 64 _)

/-! The start and the end of a copy. -/

theorem copyStart_kept (s : State) (la : Launch) (k id : Nat) : Kept q bid ti s (copyStart s la k id) := by
  unfold copyStart
  split
  · exact .refl s
  · split
    · exact .refl s
    · split
      · exact .modCopy id fun _ => rfl
      · extract_lets w s1
        have h1 : Kept q bid ti s s1 := .modCopy id fun _ => rfl
        refine (h1.trans (.modBlock (F := fun b => { b with cbq := b.cbq ++ [w] }) (fun _ => rfl) (fun b v hv => ?_) fun b => .of_eq rfl rfl)).trans (serveCb_kept ..)
        rcases List.mem_append.1 hv with hv | hv
        · exact .inl hv
        · rw [List.mem_singleton.1 hv]
          exact .inr rfl

theorem copyDone_kept (s : State) (la : Launch) (b : Block) (o : CopyOp) : Kept q bid ti s (copyDone s la b o) := by
  unfold copyDone
  extract_lets s1
  have h1 : Kept q bid ti s s1 := .modCopy o.id fun _ => rfl
  split
  · split
    · exact h1.trans (engineStop_kept ..)
    · exact (h1.trans (.serves fun b => fillSlot_serves b _ _ _)).trans (serveCb_kept ..)
  · exact h1

theorem copyEndTest_kept (s : State) (la : Launch) (k id : Nat) : Kept q bid ti s (copyEndTest s la k id) := by
  unfold copyEndTest
  split
  · exact .refl s
  · split
    · exact .refl s
    · split
      · exact copyDone_kept ..
      · exact .refl s

/-- A copy that fills no buffer. -/
theorem SameCopy.buf {o j : CopyOp} (h : SameCopy o j) : j.buf = o.buf := by
  unfold SameCopy at h
  rw [h]
  rfl

/-- The copies of a block after one of them has started, or is done. -/
def atPhase (id : Nat) (ph : CopyPhase) (l : List CopyOp) : List CopyOp := l.map fun o => if o.id = id then { o with phase := ph } else o

theorem atPhase_buf {id : Nat} {ph : CopyPhase} {l : List CopyOp} (h : ∀ o ∈ l, o.buf = none) : ∀ o ∈ atPhase id ph l, o.buf = none := by
  intro o ho
  obtain ⟨j, hj, rfl⟩ := List.mem_map.1 ho
  split
  · exact h j hj
  · exact h j hj

/-- Of a state only the copies of one block differ. -/
def Rephased (k : Nat) (s t : State) : Prop := ∃ H : List CopyOp → List CopyOp, t = s.modBlock k fun b => { b with copies := H b.copies }

theorem Rephased.refl (k : Nat) (s : State) : Rephased k s s := by
  refine ⟨fun l => l, ?_⟩
  simp [State.modBlock]

theorem Rephased.trans (h : Rephased k s t) (g : Rephased k t u) : Rephased k s u := by
  obtain ⟨H, rfl⟩ := h
  obtain ⟨K, rfl⟩ := g
  refine ⟨fun l => K (H l), ?_⟩
  simp only [State.modBlock, List.map_map]
  refine congrArg (fun bs => { s with blocks := bs }) (List.map_congr_left fun b _ => ?_)
  by_cases hk : b.bid = k <;> simp [hk]

/-- The start of a copy where no copy of the block fills a buffer. -/
theorem copyStart_plain {la : Launch} {id : Nat} (hb : s.block? k = some b) (hbuf : ∀ o ∈ b.copies, o.buf = none) :
    Rephased k s (copyStart s la k id) ∧ ∃ l, (copyStart s la k id).block? k = some { b with copies := l } ∧ ∀ o ∈ l, o.buf = none := by
  unfold copyStart
  simp only [hb]
  cases ho : b.copy? id with
  | none => exact ⟨.refl k s, b.copies, hb, hbuf⟩
  | some o =>
    have hnone : copyBuf s la b o = none := by
      rw [copyBuf, hbuf o (List.mem_of_find?_eq_some ho)]
      rfl
    simp only [hnone]
    refine ⟨⟨atPhase id .running, rfl⟩, atPhase id .running b.copies, ?_, atPhase_buf hbuf⟩
    refine (State.block?_modBlock s k k (fun b => { b with copies := atPhase id .running b.copies }) fun _ => rfl).trans ?_
    rw [hb, Option.map_some, if_pos rfl]

/-- The end of a copy where no copy of the block fills a buffer. -/
theorem copyEndTest_plain {la : Launch} {id : Nat} (hb : s.block? k = some b) (hbuf : ∀ o ∈ b.copies, o.buf = none) :
    Rephased k s (copyEndTest s la k id) := by
  have hbid : b.bid = k := by simpa using List.find?_some hb
  unfold copyEndTest
  simp only [hb]
  cases ho : b.copy? id with
  | none => exact .refl k s
  | some o =>
    have hid : o.id = id := by simpa using List.find?_some ho
    simp only
    split
    · have hnone : o.buf = none := hbuf o (List.mem_of_find?_eq_some ho)
      unfold copyDone
      simp only [hnone, hbid, hid]
      exact ⟨atPhase id .finished, rfl⟩
    · exact .refl k s

/-! The issue. -/

/-- A copy as it enters the engine (R273). -/
def Ctx.copyOp (c : Ctx) (kind : CopyKind) (desc : Memory) (ranks : W64) (bar : Option Nat) : CopyOp :=
  { id := c.s.nextId, team := c.e.who.team, kind := kind, phase := .notStarted, done := 0, part := 0, misses := 0, slot := none,
    ranks := ranks, bar := bar.map w64, desc := desc, poisoned := false, pc := c.e.rcd.pc, unacked := [] }

section
variable {ins : Instr} {iss : Iss} {e : Env} {c : Ctx} {f : Form} {eff : Ctx → Res} {kind : CopyKind} {desc : Memory} {ranks : W64}
  {bar : Option Nat} {bad : Option (Nat × W64)}

theorem sameCopy_copyOp {o : CopyOp} (h : SameCopy (c.copyOp kind desc ranks bar) o) :
    o.id = c.s.nextId ∧ o.team = c.e.who.team ∧ o.kind = kind ∧ o.desc = desc ∧ o.ranks = ranks ∧ o.bar = bar.map w64 ∧ o.pc = c.e.rcd.pc ∧
      o.done = 0 := by
  unfold SameCopy Ctx.copyOp at h
  rw [h]
  simp only [and_self]

theorem opTcopy_eff (c : Ctx) {g : Bool} {a x : Opnd} : (opTcopy g a x).eff c =
    c.copyRes (tcopyCheck c.e (c.uni 0 a).toNat (c.barOperand g x)) .tcopy (c.e.blk.copyOut (c.uni 0 a).toNat 128) 0 (c.barOperand g x) := rfl

theorem opTgath_eff (c : Ctx) {g : Bool} {a x : Opnd} : (opTgath g a x).eff c =
    c.copyRes (gatherCheck c.e (c.uni 0 a).toNat false (c.barOperand g x)) .tgath (c.e.blk.copyOut (c.uni 0 a).toNat 64) 0
      (c.barOperand g x) := rfl

theorem opTscat_eff (c : Ctx) {g : Bool} {a x : Opnd} : (opTscat g a x).eff c =
    c.copyRes (gatherCheck c.e (c.uni 0 a).toNat true (c.barOperand g x)) .tscat (c.e.blk.copyOut (c.uni 0 a).toNat 64) 0
      (c.barOperand g x) := rfl

theorem opTmcst_eff (c : Ctx) {a b x : Opnd} : (opTmcst a b x).eff c =
    c.copyRes (tmcstCheck c.e (c.uni 0 a).toNat (c.uni64 1 b) (if opIsZero x then none else some (c.uni 2 x).toNat)) .tmcst
      (c.e.blk.copyOut (c.uni 0 a).toNat 128) (c.uni64 1 b) (if opIsZero x then none else some (c.uni 2 x).toNat) := rfl

theorem opTfill_eff (c : Ctx) {a b x : Opnd} : (opTfill a b x).eff c =
    c.copyRes (tfillCheck c.e.blk (c.uni 0 a).toNat (c.uni 1 b).toNat) .tfill
      (setBytes [] 0 (leBytes 4 (c.uni 0 a).toNat ++ leBytes 4 (c.uni 1 b).toNat ++ leBytes 4 (c.uni 2 x).toNat)) 0 none := rfl

theorem copyRes_bad {j : Nat} {tr : W64} (h : bad = some (j, tr)) : c.copyRes bad kind desc ranks bar = .trap j tr (c.e.low c.m) := by
  rw [h]
  rfl

theorem copyRes_full (h : bad = none) (hfull : 16 ≤ c.e.blk.copies.length ∨ 255 ≤ c.e.team.count 0) :
    c.copyRes bad kind desc ranks bar = .hold .limit := by
  rw [h]
  refine if_pos ?_
  simpa [Ctx.copyFull, cntFull] using hfull

theorem copyRes_room (h : bad = none) (hlen : c.e.blk.copies.length < 16) (hcnt : c.e.team.count 0 < 255) :
    c.copyRes bad kind desc ranks bar = .done (c.issueCopy kind desc ranks bar) := by
  rw [h]
  refine if_neg ?_
  rw [Ctx.copyFull, not_cntFull hcnt, Bool.or_false, decide_eq_true_iff]
  omega

/-- The state in which a copy has entered and is still to start. -/
def Ctx.copyEntered (c : Ctx) (o : CopyOp) : State :=
  (c.enter 0 [] []).modBlock c.e.who.bid fun b => { b with copies := b.copies ++ [o] }

theorem issueCopy_eq (c : Ctx) : c.issueCopy kind desc ranks bar =
    copyEndTest (copyStart (c.copyEntered (c.copyOp kind desc ranks bar)) c.e.la c.e.who.bid c.s.nextId) c.e.la c.e.who.bid c.s.nextId := by
  have hent : c.enter 0 [] [] = c.modTeam { c.s with nextId := c.s.nextId + 1 } fun t => t.addOp c.s.nextId 0 := by
    rw [Ctx.enter, show (fun t : Team => t.enters c.s.nextId 0 [] []) = fun t => t.addOp c.s.nextId 0 from
      funext fun t => enters_plain t c.s.nextId 0]
  rw [Ctx.copyEntered, hent]
  rfl

/-- The issuing block as a copy has entered. -/
theorem copyEntered_block (hr : Runs f iss s e c) (o : CopyOp) :
    ∃ ts, ((c.begun f e iss).copyEntered o).block? e.who.bid = some { e.blk with teams := ts, copies := e.blk.copies ++ [o] } ∧
      ({ e.blk with teams := ts, copies := e.blk.copies ++ [o] } : Block).team? e.who.team =
        some ((e.team.begun [(f, c)] e iss).enters s.nextId 0 [] []) := by
  obtain ⟨rfl, -, -⟩ := hr.ctx
  obtain ⟨hes, hw, -, hteam, -⟩ := getEnv_spec hr.env
  rw [← hw] at hteam
  have hblk := getEnv_block hr.env
  let G : Team → Team := fun t => t.enters s.nextId 0 [] []
  have hbegun : (c.begun f c.e iss).s.block? c.e.who.bid =
      some (c.e.blk.modTeam c.e.who.team fun t => t.begun [(f, c)] c.e iss) := by
    rw [show (c.begun f c.e iss).s = beginIssue [(f, c)] c.e iss from rfl, beginIssue_eq, State.block?_modTeam, hes]
    change Option.map _ (s.block? _) = _
    rw [hblk, Option.map_some, if_pos rfl]
  have hent : ((c.begun f c.e iss).enter 0 [] []).block? c.e.who.bid =
      some ((c.e.blk.modTeam c.e.who.team fun t => t.begun [(f, c)] c.e iss).modTeam c.e.who.team G) := by
    rw [Ctx.enter, begun_nextId hr, Ctx.modTeam, State.block?_modTeam]
    change Option.map _ ((c.begun f c.e iss).s.block? c.e.who.bid) = _
    rw [hbegun, Option.map_some]
    exact congrArg some (if_pos rfl)
  refine ⟨((c.e.blk.modTeam c.e.who.team fun t => t.begun [(f, c)] c.e iss).modTeam c.e.who.team G).teams, ?_, ?_⟩
  · refine (State.block?_modBlock _ c.e.who.bid c.e.who.bid (fun b => { b with copies := b.copies ++ [o] }) fun _ => rfl).trans ?_
    rw [hent, Option.map_some]
    exact congrArg some (if_pos rfl)
  · change ((c.e.blk.modTeam c.e.who.team fun t => t.begun [(f, c)] c.e iss).modTeam c.e.who.team G).team? c.e.who.team = _
    rw [Block.team?_modTeam _ _ _ G fun _ => rfl, Block.team?_modTeam _ _ _ (fun t => t.begun [(f, c)] c.e iss) fun _ => rfl, hteam]
    simp only [Option.map_some, if_true]
    rfl

theorem SubsOut.modBlock {F : Block → Block} (hF : ∀ b, (F b).cbq = b.cbq) (h : SubsOut bid ti s) : SubsOut bid ti (s.modBlock k F) := by
  intro K hK w hw
  obtain ⟨K₀, hK₀, rfl⟩ := List.mem_map.1 hK
  refine h K₀ hK₀ w ?_
  split at hw
  · exact hF K₀ ▸ hw
  · exact hw

theorem SubsOut.copyEntered (hr : Runs f iss s e c) (o : CopyOp) (h : SubsOut bid ti s) :
    SubsOut bid ti ((c.begun f e iss).copyEntered o) := by
  have hbegun : SubsOut bid ti (c.begun f e iss).s := by
    rw [show (c.begun f e iss).s = beginIssue [(f, c)] e iss from rfl, beginIssue_eq, (getEnv_spec hr.env).1]
    exact SubsOut.modBlock (s := { s with issueCtr := s.issueCtr + 1, freeCtr := s.freeCtr + 1 }) (fun _ => rfl) h
  have hent : SubsOut bid ti ((c.begun f e iss).enter 0 [] []) :=
    SubsOut.modBlock (s := { (c.begun f e iss).s with nextId := (c.begun f e iss).s.nextId + 1 }) (fun _ => rfl) hbegun
  exact hent.modBlock fun _ => rfl

/-- AN INSTRUCTION WHOSE COPY ENTERS: its team counts it, and it is among its block's copies. -/
theorem copy_effect (hr : Runs f iss s e c) (hx : exec ins s = issueForm f iss eff s)
    (he : eff (c.begun f e iss) = .done ((c.begun f e iss).issueCopy kind desc ranks bar)) :
    ∃ t u B o, exec ins s = .next t ∧ t.block? e.who.bid = some B ∧ B.team? e.who.team = some u ∧ o ∈ B.copies ∧
      SameCopy ((c.begun f e iss).copyOp kind desc ranks bar) o ∧ u.count 0 = e.team.count 0 + 1 ∧
      u.ops = e.team.ops ++ [⟨s.nextId, 0, false, none⟩] ∧ u.v = e.team.v ∧ u.k = e.team.k ∧ t.mem = s.mem ∧
      (SubsOut e.who.bid e.who.team s → u.s = e.team.s) := by
  obtain ⟨rfl, -, -⟩ := hr.ctx
  let o := (c.begun f c.e iss).copyOp kind desc ranks bar
  obtain ⟨hhomes, -, htime⟩ := begun_homes hr
  obtain ⟨ts, hB, hu⟩ := copyEntered_block hr o
  have hkept : Kept (SubsOut c.e.who.bid c.e.who.team s) c.e.who.bid c.e.who.team ((c.begun f c.e iss).copyEntered o)
      ((c.begun f c.e iss).issueCopy kind desc ranks bar) := by
    rw [issueCopy_eq]
    exact (copyStart_kept ..).trans (copyEndTest_kept ..)
  obtain ⟨hm, ht, -, hblock⟩ := hkept.run fun h => h.copyEntered hr o
  obtain ⟨B, hB', hkeep⟩ := hblock _ hB
  obtain ⟨u, hu', hteam⟩ := hkeep.team _ hu
  obtain ⟨o', ho', hsame⟩ := hkeep.copies o (List.mem_append_right _ (List.mem_singleton_self o))
  have hcount := counted_team hr s.nextId 0 s.time [] []
  have hprobe : ((c.e.team.begun [(f, c)] c.e iss).enters s.nextId 0 [] []).probe = none :=
    (congrArg Team.probe (begun_rest c.e.team [(f, c)] c.e iss hr.noProbe)).trans hr.noProbe
  obtain ⟨hup, hv, hk, hcnt, hops, hs⟩ := hteam hprobe
  have hend := ended_rest _ [(f, c.begun f c.e iss)] s.time hprobe
  have huend := ended_rest u [(f, c.begun f c.e iss)] s.time hup
  generalize (((c.e.team.begun [(f, c)] c.e iss).enters s.nextId 0 [] []).ended [(f, c.begun f c.e iss)] s.time) = w at hcount hend
  obtain ⟨hwv, hws, hwk⟩ := counted_regs hcount
  obtain ⟨t, ts', hexec, hframe, hBt, hut, -⟩ := done_block hr hx he (ht.trans htime) hB' hu'
  have hcnt' : (u.ended [(f, c.begun f c.e iss)] s.time).cnt = w.cnt :=
    ((congrArg Team.cnt huend).trans hcnt).trans (congrArg Team.cnt hend).symm
  refine ⟨t, _, _, o', hexec, hBt, hut, ho', hsame, ?_, ?_, ?_, ?_, ?_, fun h => ?_⟩
  · have h0 := hcount.count 0
    rw [if_pos rfl] at h0
    rw [← h0, Team.count, hcnt', Team.count]
  · exact (((congrArg Team.ops huend).trans hops).trans (congrArg Team.ops hend).symm).trans hcount.ops
  · exact (((congrArg Team.v huend).trans hv).trans (congrArg Team.v hend).symm).trans hwv
  · exact (((congrArg Team.k huend).trans hk).trans (congrArg Team.k hend).symm).trans hwk
  · rw [hframe]
    exact hm.trans hhomes.mem
  · exact (((congrArg Team.s huend).trans (hs h)).trans (congrArg Team.s hend).symm).trans hws

/-- Where no copy of the block fills a buffer, nothing else of it changes. -/
theorem copy_plain (hr : Runs f iss s e c) (hx : exec ins s = issueForm f iss eff s)
    (he : eff (c.begun f e iss) = .done ((c.begun f e iss).issueCopy kind desc ranks bar))
    (hbuf : ((c.begun f e iss).copyOp kind desc ranks bar).buf = none) (hcopies : ∀ o ∈ e.blk.copies, o.buf = none) :
    ∃ t u B, exec ins s = .next t ∧ Entered f e c 0 s t u B ∧ B = { e.blk with teams := B.teams, copies := B.copies } := by
  obtain ⟨rfl, -, -⟩ := hr.ctx
  let o := (c.begun f c.e iss).copyOp kind desc ranks bar
  obtain ⟨ts, hB, hu⟩ := copyEntered_block hr o
  have hall : ∀ j ∈ c.e.blk.copies ++ [o], j.buf = none := fun j hj =>
    (List.mem_append.1 hj).elim (hcopies j) fun h => List.mem_singleton.1 h ▸ hbuf
  have henters : Rephased c.e.who.bid ((c.begun f c.e iss).enter 0 [] []) ((c.begun f c.e iss).copyEntered o) := ⟨fun l => l ++ [o], rfl⟩
  obtain ⟨hstart, l, hl, hbufs⟩ := copyStart_plain (la := c.e.la) (id := (c.begun f c.e iss).s.nextId) hB hall
  obtain ⟨H, hH⟩ := (henters.trans hstart).trans (copyEndTest_plain (la := c.e.la) (id := (c.begun f c.e iss).s.nextId) hl hbufs)
  have hl := (issueCopy_eq (c.begun f c.e iss) (kind := kind) (desc := desc) (ranks := ranks) (bar := bar)).trans hH
  obtain ⟨t, u, B, ht, hent, hB, -⟩ := enter_effect (fun b => { b with copies := H b.copies }) (fun _ _ => rfl) (fun _ => rfl) hr hx
    (he.trans (congrArg Res.done hl))
  refine ⟨t, u, B, ht, hent, ?_⟩
  rw [hB]

end

end

end Sys2Proof.Machine

open Sys2Proof Sys2Proof.Machine

/-- Settles O30: past its checks a copy enters with its descriptor; what its start and the buffers' service do keeps the team and the
copies. -/
theorem copiesEnterTheEngine : Obligations.CopiesEnterTheEngine := by
  unfold Obligations.CopiesEnterTheEngine
  intro h g a b x i f kind desc ranks bad bar s e c off n opBar ownBar hcase hr
  obtain ⟨rfl, -, -⟩ := hr.ctx
  have hop : c.barOperand g x = opBar := by
    simp only [Ctx.barOperand, opIsZero_iff, opBar]
  have hown : (if opIsZero x then none else some (c.uni 2 x).toNat) = ownBar := by
    simp only [opIsZero_iff, ownBar]
  have hissue : ∃ eff : Ctx → Res, exec i s = issueForm f (issOf h) eff s ∧
      eff (c.begun f c.e (issOf h)) = (c.begun f c.e (issOf h)).copyRes bad kind desc ranks bar := by
    rcases hcase with ⟨rfl, rfl, rfl, hd, rfl, rfl, rfl⟩ | ⟨rfl, rfl, rfl, hd, rfl, rfl, rfl⟩ | ⟨rfl, rfl, rfl, hd, rfl, rfl, rfl⟩ |
      ⟨rfl, rfl, rfl, hd, rfl, rfl, rfl⟩ | ⟨rfl, rfl, rfl, hd, rfl, rfl, rfl⟩
    · rw [← hop, hd]
      exact ⟨(opTcopy g a x).eff, rfl, opTcopy_eff (c.begun _ c.e (issOf h))⟩
    · rw [← hop, hd]
      exact ⟨(opTgath g a x).eff, rfl, opTgath_eff (c.begun _ c.e (issOf h))⟩
    · rw [← hop, hd]
      exact ⟨(opTscat g a x).eff, rfl, opTscat_eff (c.begun _ c.e (issOf h))⟩
    · rw [← hown, hd]
      exact ⟨(opTmcst a b x).eff, rfl, opTmcst_eff (c.begun _ c.e (issOf h))⟩
    · rw [hd]
      exact ⟨(opTfill a b x).eff, rfl, opTfill_eff (c.begun _ c.e (issOf h))⟩
  obtain ⟨eff, hx, heff⟩ := hissue
  refine ⟨fun k tr hbad => ?_, fun hbad hfull => ?_, fun hbad hlen hcnt => ?_⟩
  · exact trap_effect hr hx (heff.trans (copyRes_bad (c := c.begun f c.e (issOf h)) hbad))
  · exact hold_effect hr hx (heff.trans (copyRes_full (c := c.begun f c.e (issOf h)) hbad hfull))
  · have he := heff.trans (copyRes_room (c := c.begun f c.e (issOf h)) hbad hlen hcnt)
    obtain ⟨t, u, B, o, ht, hB, hu, ho, hsame, hc, hops, hv, hk, hm, hs⟩ := copy_effect hr hx he
    obtain ⟨hid, hteam, hkind, hdesc, hranks, hbar, hpc, hdone⟩ := sameCopy_copyOp hsame
    refine ⟨t, u, B, o, ht, hB, hu, ho, hid.trans (begun_nextId hr), hteam, hkind, hdesc, hranks, hbar, hpc, hdone, hc, hops, hv, hk, hm, hs,
      fun hbuf hall => ?_⟩
    obtain ⟨t', u', B', ht', hent, hB'⟩ := copy_plain hr hx he (hsame.buf.symm.trans hbuf) hall
    obtain rfl : t' = t := Host.Outcome.next.inj (ht'.symm.trans ht)
    obtain rfl : B' = B := Option.some.inj (hent.block.symm.trans hB)
    obtain rfl : u' = u := Option.some.inj (hent.team.symm.trans hu)
    exact ⟨hent, hB', sameScratch_of_entered hent (getEnv_block hr.env) (by rw [hB'])⟩

end

section
/-! Async barrier objects (R24 to R26, R221, R222). -/

namespace Sys2Proof.Machine

/-! An object's fields and its bytes. -/

/-- The fields as wide as the object's bytes hold them (R24). -/
structure BarObj.Fits (o : BarObj) : Prop where
  epoch : o.epoch < 2 ^ 32
  owed : o.owed < 2 ^ 32
  mark : o.mark < 2 ^ 9
  legs : o.legs < 2 ^ 23
  rsvd : o.rsvd < 2 ^ 9
  opn : o.opn < 2 ^ 23

theorem getObj_fits (b : Block) (off : Nat) : (getObj b off).Fits := by
  constructor <;> exact Nat.mod_lt _ (by decide)

theorem objOf_num {o : BarObj} (h : o.Fits) : o.num < 256 ^ 16 ∧ objOf o.num = o := by
  obtain ⟨epoch, owed, mark, legs, rsvd, opn⟩ := o
  obtain ⟨h1, h2, h3, h4, h5, h6⟩ := h
  dsimp only at h1 h2 h3 h4 h5 h6
  simp only [BarObj.num, objOf, bitsOf, BarObj.mk.injEq]
  omega

theorem bytesAt_ext {m m' : Memory} (n : Nat) : ∀ a a', (∀ j, j < n → byteAt m (a + j) = byteAt m' (a' + j)) →
    bytesAt m a n = bytesAt m' a' n := by
  induction n with
  | zero => exact fun _ _ _ => rfl
  | succ n ih =>
    intro a a' h
    have h0 : byteAt m a = byteAt m' a' := h 0 (Nat.succ_pos n)
    rw [bytesAt, bytesAt, h0, ih (a + 1) (a' + 1) fun j hj => ?_]
    simpa only [Nat.add_assoc, Nat.add_comm 1] using h (j + 1) (by omega)

theorem bytesAt_setBytes_same (l : List Byte) : ∀ (m : Memory) (a : Nat), bytesAt (setBytes m a l) a l.length = l := by
  induction l with
  | nil => exact fun _ _ => rfl
  | cons v l ih =>
    intro m a
    have h0 : byteAt (setBytes m a (v :: l)) a = v := by
      rw [byteAt_setBytes]
      simp
    rw [List.length_cons, bytesAt, h0]
    exact congrArg (v :: ·) (ih _ (a + 1))

theorem numAt_setBytes {n v : Nat} (h : v < 256 ^ n) (m : Memory) (a : Nat) : numAt (setBytes m a (leBytes n v)) a n = v := by
  have hb := bytesAt_setBytes_same (leBytes n v) m a
  rw [leBytes_length] at hb
  rw [numAt, hb, leNat_leBytes, Nat.mod_eq_of_lt h]

/-- What an update of the object at `off` makes of a block: the object is `o`, and no other byte of the scratchpad differs. -/
structure ObjSet (off : Nat) (o : BarObj) (b b' : Block) : Prop where
  obj : getObj b' off = o
  out : ∀ i, i < off ∨ off + 16 ≤ i → byteAt b'.scratch i = byteAt b.scratch i

theorem objSet_bytes {o : BarObj} (h : o.Fits) (b : Block) (off : Nat) :
    ObjSet off o b { b with scratch := setBytes b.scratch off (leBytes 16 o.num) } := by
  obtain ⟨hlt, ho⟩ := objOf_num h
  refine ⟨?_, fun i hi => byteAt_setBytes_out (by rwa [leBytes_length])⟩
  rw [getObj, numAt_setBytes hlt, ho]

theorem ObjSet.trans {off : Nat} {o o' : BarObj} {b b' b'' : Block} (h : ObjSet off o b b') (g : ObjSet off o' b' b'') : ObjSet off o' b b'' :=
  ⟨g.obj, fun i hi => (g.out i hi).trans (h.out i hi)⟩

theorem ObjSet.of_scratch {off : Nat} {o : BarObj} {a b b' : Block} (h : ObjSet off o b b') (ha : b.scratch = a.scratch) :
    ObjSet off o a b' := ⟨h.obj, fun i hi => (h.out i hi).trans (by rw [ha])⟩

/-- R25's test closes the phase of an object that owes and opens nothing. -/
theorem closeTest_objSet (b : Block) (off : Nat) : ObjSet off (tested (getObj b off)) b (closeTest b off) := by
  have hfits := getObj_fits b off
  unfold closeTest tested
  extract_lets o o' b1 sb
  split
  · next h =>
    have howed : { o with epoch := (o.epoch + 1) % 2 ^ 32, opn := o.legs } = o' := by
      simp only [o', show o.owed = 0 from h.2]
    have hfits' : o'.Fits := ⟨Nat.mod_lt _ (by decide), Nat.two_pow_pos _, hfits.mark, hfits.legs, hfits.rsvd, hfits.legs⟩
    have hset : ObjSet off o' b b1 := objSet_bytes hfits' b off
    rw [howed]
    split
    · exact ⟨hset.obj, hset.out⟩
    · exact hset
  · exact ⟨rfl, fun _ _ => rfl⟩

theorem updateObj_objSet {F : BarObj → BarObj} {b : Block} {off : Nat} (h : (F (getObj b off)).Fits) :
    ObjSet off (tested (F (getObj b off))) b (updateObj b off F) := by
  have hset := objSet_bytes h b off
  have hclose := closeTest_objSet { b with scratch := setBytes b.scratch off (leBytes 16 (F (getObj b off)).num) } off
  rw [hset.obj] at hclose
  exact hset.trans hclose

theorem objArrive_fits {o : BarObj} (h : o.Fits) : (objArrive o).Fits := by
  obtain ⟨hepoch, howed, hmark, hlegs, hrsvd, hopn⟩ := h
  rw [objArrive]
  exact ⟨hepoch, howed, hmark, hlegs, hrsvd, Nat.mod_lt _ (Nat.two_pow_pos 23)⟩

theorem objExpect_fits {o : BarObj} (h : o.Fits) (n : Nat) : (objExpect n o).Fits :=
  { h with owed := by rw [objExpect]; exact Nat.mod_lt _ (Nat.two_pow_pos 32) }

theorem updateObj_kept (b : Block) (off : Nat) (F : BarObj → BarObj) : (updateObj b off F).bid = b.bid ∧ (updateObj b off F).teams = b.teams :=
  ⟨(updateObj_onlyScr b off F).bid, (updateObj_onlyScr b off F).teams⟩

/-- A block after INIT. -/
def initBlock (off count mark : Nat) (b : Block) : Block :=
  updateObj { b with objs := if b.objs.contains off then b.objs else b.objs ++ [off] } off fun _ => initObj count mark

theorem initBlock_kept (off count mark : Nat) (b : Block) : (initBlock off count mark b).bid = b.bid ∧ (initBlock off count mark b).teams = b.teams :=
  updateObj_kept _ _ _

theorem initBlock_objSet {count mark : Nat} (h0 : 0 < count) (hlt : count < 2 ^ 23) (hmk : mark < 2 ^ 9) (b : Block) (off : Nat) :
    ObjSet off ⟨0, 0, mark, count, 0, count⟩ b (initBlock off count mark b) := by
  have hset := updateObj_objSet (F := fun _ => initObj count mark) (off := off)
    (b := { b with objs := if b.objs.contains off then b.objs else b.objs ++ [off] })
    ⟨Nat.two_pow_pos _, Nat.two_pow_pos _, hmk, hlt, Nat.two_pow_pos _, hlt⟩
  rw [tested, if_neg fun h => Nat.ne_of_gt h0 h.1] at hset
  exact hset.of_scratch rfl

section
variable {ins : Instr} {iss : Iss} {s : State} {e : Env} {c : Ctx} {f : Form} {eff : Ctx → Res} {bid off n : Nat} {B : Block} {d : Opnd}
  {val : Nat → Nat} {o : BarObj} {P : Block → Block} {r : Record}

/-- An operation on an object that its address names. -/
theorem onObj_at {g : Bool} {a : Opnd} (hp : c.e.probing = false) (h : c.e.objAt (c.objAddr g a) = .ok (bid, off)) (probe : Res)
    (act : Nat → Nat → Res) : c.onObj g a false probe act = act bid off := by
  simp only [Ctx.onObj, hp, h, Bool.false_and, Bool.false_eq_true, if_false]

theorem init_eff {g : Bool} {a b x : Opnd} (hp : c.e.probing = false) (h : c.e.objAt (c.objAddr g a) = .ok (bid, off))
    (h0 : 0 < (c.uni 1 b).toNat) (hlt : (c.uni 1 b).toNat < 2 ^ 23) (hmk : (c.uni 2 x).toNat < 2 ^ 9) :
    (opAbarInit g a b x).eff c = .done (c.s.modBlock bid (initBlock off (c.uni 1 b).toNat (c.uni 2 x).toNat)) := by
  have hbad : ((c.uni 1 b).toNat == 0 || decide (2 ^ 23 ≤ (c.uni 1 b).toNat) || decide (2 ^ 9 ≤ (c.uni 2 x).toNat)) = false := by
    simp only [Bool.or_eq_false_iff, beq_eq_false_iff_ne, decide_eq_false_iff_not]
    omega
  unfold opAbarInit
  dsimp only
  rw [hbad]
  exact onObj_at hp h _ _

theorem objEpoch_of (hB : s.block? bid = some B) : objEpoch s bid off = (getObj B off).epoch := by
  simp only [objEpoch, hB]

theorem arrive_eff {g : Bool} {a : Opnd} (hp : c.e.probing = false) (h : c.e.objAt (c.objAddr g a) = .ok (bid, off))
    (hB : c.e.s.block? bid = some B) : (opAbarArrive g d a).eff c =
      .done (c.modTeam (c.s.modBlock bid fun b => updateObj b off objArrive) (c.putTeam d 1 fun _ => (getObj B off).epoch)) := by
  refine (onObj_at hp h _ _).trans (congrArg Res.done ((putOn_eq _ d 1 _ _).trans ?_))
  simp only [hB]

theorem expect_eff {g : Bool} {a b : Opnd} (hp : c.e.probing = false) (h : c.e.objAt (c.objAddr g a) = .ok (bid, off)) :
    (opAbarExpect g a b).eff c = .done (c.s.modBlock bid fun k => updateObj k off (objExpect (c.uni 1 b).toNat)) := onObj_at hp h _ _

theorem wait_eff {g : Bool} {a b : Opnd} (hp : c.e.probing = false) (h : c.e.objAt (c.objAddr g a) = .ok (bid, off))
    (hB : c.e.s.block? bid = some B) : (opAbarWait g a b).eff c =
      .done (if epochPassed (getObj B off).epoch (c.uni 1 b).toNat then acquireAt c.s c.e.who (objScope g)
        else c.waitNext (.abar (w64 (c.objAddr g a)) (c.uni 1 b) (c.e.rcd.pc + w64 c.iss.len)) c.s) := by
  refine (onObj_at hp h _ _).trans ?_
  dsimp only
  rw [objEpoch_of hB]
  split <;> rfl

/-- What `ABAR.TEST` makes of its team; of the marks there are none outside probe mode. -/
def testTeam (c : Ctx) (d b : Opnd) (v : Nat) (t : Team) : Team :=
  let mk := c.markedAt [fB b 1] 0
  let u := c.putTeam d 1 (fun _ => v) t
  { u with probe := u.probe.map fun p => [fD d 1].foldl (fun p fd => c.markDst fd c.lanes (fun _ => mk) p) p }

theorem testTeam_idx (d b : Opnd) (v : Nat) (t : Team) : (testTeam c d b v t).idx = t.idx := putTeam_idx c d 1 _ t

theorem testTeam_pending (d b : Opnd) (v : Nat) (t : Team) : (testTeam c d b v t).pending = t.pending := (putTeam_pending c d 1 _ t).1

theorem begun_noProbe (hr : Runs f iss s e c) : (e.team.begun [(f, c)] e iss).probe = none :=
  (congrArg Team.probe (begun_rest e.team [(f, c)] e iss hr.noProbe)).trans hr.noProbe

theorem testTeam_calm {t : Team} (b : Opnd) (v : Nat) (h : t.probe = none) : testTeam c d b v t = c.putTeam d 1 (fun _ => v) t := by
  have hp : (c.putTeam d 1 (fun _ => v) t).probe = none := (putTeam_other c d 1 _ t).2.2.trans h
  unfold testTeam
  extract_lets mk u
  rw [show u.probe = none from hp, Option.map_none, ← show u.probe = none from hp]

theorem test_eff {g : Bool} {a b : Opnd} (hp : c.e.probing = false) (h : c.e.objAt (c.objAddr g a) = .ok (bid, off))
    (hB : c.e.s.block? bid = some B) : (opAbarTest g d a b).eff c =
      .done (if epochPassed (getObj B off).epoch (c.uni 1 b).toNat then acquireAt (c.modTeam c.s (testTeam c d b 1)) c.e.who (objScope g)
        else c.modTeam c.s (testTeam c d b 0)) := by
  have hmark : ∀ v, c.mark [fD d 1] (fun _ => c.markedAt [fB b 1] 0) (c.putUni d 1 v c.s) = c.modTeam c.s (testTeam c d b v) := by
    intro v
    rw [Ctx.mark, Ctx.putUni, putOn_eq, Ctx.modTeam, Ctx.modTeam, State.modTeam_modTeam _ _ _ _ _ (putTeam_idx c d 1 _)]
    rfl
  simp only [opAbarTest, hp, h, Bool.false_and, Bool.false_eq_true, if_false, objEpoch_of hB, hmark]
  split <;> simp

/-- An instruction that ends its issue leaves the state of its effect but for the issuing team. -/
theorem done_state {s1 : State} (hr : Runs f iss s e c) (hx : exec ins s = issueForm f iss eff s) (he : eff (c.begun f e iss) = .done s1) :
    exec ins s = .next (s1.modTeam e.who.bid e.who.team fun t => t.ended [(f, c.begun f e iss)] s1.time) := by
  rw [hx, hr.done he, finish_eq _ _ _ hr.calm]

/-- AN INSTRUCTION THAT CHANGES A BLOCK by `P`, and its team by `G`. -/
theorem blockWrite_effect {G : Team → Team} (hr : Runs f iss s e c) (hx : exec ins s = issueForm f iss eff s) (hB : s.block? bid = some B)
    (hP : ∀ b, (P b).bid = b.bid ∧ (P b).teams = b.teams) (hidx : ∀ t, (G t).idx = t.idx)
    (he : eff (c.begun f e iss) = .done (c.modTeam ((c.begun f e iss).s.modBlock bid P) G)) :
    ∃ t ts ts', exec ins s = .next t ∧
      t.team? e.who.bid e.who.team = some ((G (e.team.begun [(f, c)] e iss)).ended [(f, c.begun f e iss)] s.time) ∧
      t.block? bid = some { P { B with teams := ts } with teams := ts' } ∧
      (∀ bd i, bd ≠ bid → scrByte t bd i = scrByte s bd i) ∧ t.mem = s.mem ∧ t.lines = s.lines ∧ t.launches = s.launches := by
  obtain ⟨hhomes, -, htime⟩ := begun_homes hr
  obtain ⟨ts, hB'⟩ := begun_block hr hB
  have hbegun := sameScratch_of_map (scratchAs_begun hr)
  have hteam := begun_team hr
  have hlaunches : (c.begun f e iss).s.launches = s.launches := by
    rw [show (c.begun f e iss).s = beginIssue [(f, c)] e iss from rfl, beginIssue_eq, (getEnv_spec hr.env).1]
    rfl
  have ht := done_state hr hx he
  obtain ⟨rfl, -, -⟩ := hr.ctx
  generalize (c.begun f c.e iss).s = s1 at *
  let F : Team → Team := fun t => (G t).ended [(f, c.begun f c.e iss)] s.time
  have hF : ∀ t, (F t).idx = t.idx := fun t => (ended_idx _ _ _).trans (hidx t)
  have hstate : State.modTeam (c.modTeam (s1.modBlock bid P) G) c.e.who.bid c.e.who.team
      (fun t => t.ended [(f, c.begun f c.e iss)] (c.modTeam (s1.modBlock bid P) G).time) =
      (s1.modBlock bid P).modTeam c.e.who.bid c.e.who.team F := by
    rw [Ctx.modTeam, State.modTeam_modTeam _ _ _ _ _ hidx]
    change State.modTeam _ _ _ (fun t => (G t).ended _ s1.time) = _
    rw [htime]
  rw [hstate] at ht
  have hblock : ∀ bd, ((s1.modBlock bid P).modTeam c.e.who.bid c.e.who.team F).block? bd =
      ((s1.block? bd).map fun b => if bd = bid then P b else b).map fun b => if bd = c.e.who.bid then b.modTeam c.e.who.team F else b := by
    intro bd
    rw [State.block?_modTeam, State.block?_modBlock _ _ _ _ fun b => (hP b).1]
  have hteams : ∀ (b : Block) bd, ∃ ts, (if bd = c.e.who.bid then b.modTeam c.e.who.team F else b) = { b with teams := ts } := by
    intro b bd
    split <;> exact ⟨_, rfl⟩
  obtain ⟨ts', hts'⟩ := hteams (P { B with teams := ts }) bid
  refine ⟨_, ts, ts', ht, ?_, ?_, fun bd i hbd => ?_, hhomes.mem, hhomes.lines, hlaunches⟩
  · rw [State.team?_modTeam _ _ _ _ _ _ hF, team?_modBlock_kept hP, hteam, Option.map_some, if_pos ⟨rfl, rfl⟩]
  · rw [hblock bid, hB', Option.map_some, Option.map_some, if_pos rfl, hts']
  · rw [← hbegun, scrByte, scrByte, hblock]
    cases s1.block? bd with
    | none => rfl
    | some b =>
      obtain ⟨ts, hts⟩ := hteams b bd
      simp only [Option.map_some, if_neg hbd, hts]

/-- AN INSTRUCTION THAT UPDATES A BARRIER OBJECT of a block and writes its destination. -/
theorem object_effect (hr : Runs f iss s e c) (hx : exec ins s = issueForm f iss eff s) (hB : s.block? bid = some B)
    (hP : ∀ b, (P b).bid = b.bid ∧ (P b).teams = b.teams) (hset : ∀ ts, ObjSet off o B (P { B with teams := ts }))
    (he : eff (c.begun f e iss) = .done (c.modTeam ((c.begun f e iss).s.modBlock bid P) (c.putTeam d n val))) :
    ∃ t, exec ins s = .next t ∧ (∃ u, t.team? e.who.bid e.who.team = some u ∧ Wrote f e c d n val u) ∧
      (∃ B', t.block? bid = some B' ∧ getObj B' off = o) ∧
      (∀ bd i, (bd ≠ bid ∨ i < off ∨ off + 16 ≤ i) → scrByte t bd i = scrByte s bd i) ∧ t.mem = s.mem ∧ t.lines = s.lines := by
  obtain ⟨t, ts, ts', ht, hteam, hBt, hother, hmem, hlines, -⟩ := blockWrite_effect hr hx hB hP (putTeam_idx c d n val) he
  refine ⟨t, ht, ⟨_, hteam, wrote_team f e iss c d n val s.time hr.ctx.1 hr.noProbe hr.lane⟩, ⟨_, hBt, (hset ts).obj⟩, fun bd i hi => ?_, hmem, hlines⟩
  by_cases hbd : bd = bid
  · subst hbd
    rw [scrByte, hBt, scrByte, hB]
    exact (hset ts).out i (hi.resolve_left fun h => h rfl)
  · exact hother bd i hbd

theorem waitAt_idx (t : Team) (n : Nat) (w : Wait) : (t.waitAt n w).idx = t.idx := by
  unfold Team.waitAt
  split <;> rfl

/-- AN INSTRUCTION WHOSE EFFECT ON ITS TEAM writes its destination. -/
theorem writes_of_team {G : Team → Team} (hr : Runs f iss s e c) (hx : exec ins s = issueForm f iss eff s) (hidx : ∀ t, (G t).idx = t.idx)
    (hG : G (e.team.begun [(f, c)] e iss) = c.putTeam d n val (e.team.begun [(f, c)] e iss))
    (he : eff (c.begun f e iss) = .done (c.modTeam (c.begun f e iss).s G)) : Writes ins f s e c d n val := by
  obtain ⟨t, ht, ho⟩ := team_effect G hidx hr hx he
  rw [hG] at ho
  exact ⟨t, _, ht, ho, wrote_team f e iss c d n val s.time hr.ctx.1 hr.noProbe hr.lane⟩

end

end Sys2Proof.Machine

open Sys2Proof Sys2Proof.Machine

/-- Settles O19: an operation is one update of its object's bytes; a wait and a test change the team alone. -/
theorem barrierObjects : Obligations.BarrierObjects := by
  unfold Obligations.BarrierObjects
  refine ⟨fun h g d a b x s e c bid off B => ?_, fun h g d a b i iss s e c bid off B => ?_⟩
  · extract_lets form at_ becomes regs
    refine ⟨fun hr hat h0 hlt hmk => ?_, fun hr hat => ?_, fun hr hat => ?_⟩
    · obtain ⟨hobj, hB⟩ := hat
      obtain ⟨rfl, -, -⟩ := hr.ctx
      exact object_effect (eff := (opAbarInit g a b x).eff) hr rfl hB (initBlock_kept off (c.uni 1 b).toNat (c.uni 2 x).toNat)
        (fun ts => (initBlock_objSet h0 hlt hmk { B with teams := ts } off).of_scratch rfl)
        ((init_eff (c := c.begun (form [fB b 1, fC x 1] []) c.e (issOf h)) hr.begun_calm hobj h0 hlt hmk).trans
          (congrArg Res.done (modTeam_id _ _ _).symm))
    · obtain ⟨hobj, hB⟩ := hat
      obtain ⟨rfl, -, -⟩ := hr.ctx
      exact object_effect (eff := (opAbarArrive g d a).eff) hr rfl hB (fun b => updateObj_kept b off objArrive)
        (fun ts => (updateObj_objSet (b := { B with teams := ts }) (objArrive_fits (getObj_fits B off))).of_scratch rfl)
        (arrive_eff (c := c.begun (form [] [fD d 1]) c.e (issOf h)) hr.begun_calm hobj ((getEnv_spec hr.env).1 ▸ hB))
    · obtain ⟨hobj, hB⟩ := hat
      obtain ⟨rfl, -, -⟩ := hr.ctx
      exact object_effect (eff := (opAbarExpect g a b).eff) hr rfl hB (fun k => updateObj_kept k off (objExpect (c.uni 1 b).toNat))
        (fun ts => (updateObj_objSet (b := { B with teams := ts }) (objExpect_fits (getObj_fits B off) _)).of_scratch rfl)
        ((expect_eff (c := c.begun (form [fB b 1] []) c.e (issOf h)) hr.begun_calm hobj).trans
          (congrArg Res.done (modTeam_id _ _ _).symm))
  · extract_lets fw ft ep want passed
    intro hobj hB
    have hpassed : epochPassed ep want.toNat = passed := by
      rw [epochPassed, ← Bool.decide_and]
    refine ⟨fun hi hr hp => ?_, fun hi hr hp hlone => ?_, fun hr => ⟨fun hp => ?_, fun hp => ?_⟩⟩
    · obtain ⟨rfl, -, hiss⟩ := hr.ctx
      have he := (wait_eff (b := b) (c := c.begun fw c.e iss) hr.begun_calm hobj ((getEnv_spec hr.env).1 ▸ hB)).trans
        (congrArg Res.done (if_pos (hpassed.trans hp)))
      obtain ⟨t, u, q, ht, hteam, hnoted, hacq, hq, hu⟩ := acquireAt_effect (G := fun t => t) (d := .zero) (n := 0) (val := fun _ => 0) hr
        (hi.run (o := opAbarWait g a b) rfl rfl nofun) (fun _ => rfl) (fun _ => rfl) rfl
        (he.trans (congrArg (fun s => Res.done (acquireAt s _ _)) (modTeam_id _ _ _).symm))
      refine ⟨t, u, ht, hteam, hnoted, hacq, fun hlone => ?_⟩
      have hpc : (issuedRec [(fw, c)] c.e iss c.e.rcd).pc = c.e.rcd.pc + w64 c.iss.len := by rw [hiss]; rfl
      have hb : c.putTeam .zero 0 (fun _ => 0) (c.e.team.begun [(fw, c)] c.e iss) = _ := begun_of_lone_calm hr hlone.1 (.inr rfl)
      rw [hb] at hq
      have hend := ended_lone (hq.probe.trans hr.noProbe) ((congrArg Team.records hq).trans rfl) rfl [(fw, c.begun fw c.e iss)] s.time
      exact ⟨issuedRec [(fw, c)] c.e iss c.e.rcd,
        (congrArg Team.records (hu.trans (hend.trans (onlyX_steps _ q)))).trans ((congrArg Team.records hq).trans rfl), rfl, hpc, rfl⟩
    · obtain ⟨rfl, -, -⟩ := hr.ctx
      have hnot : ¬ epochPassed ep want.toNat = true := by rw [hpassed, hp]; decide
      have he := (wait_eff (b := b) (c := c.begun fw c.e iss) hr.begun_calm hobj ((getEnv_spec hr.env).1 ▸ hB)).trans
        (congrArg Res.done (if_neg hnot))
      let w : Wait := .abar (w64 (c.objAddr g a)) want (c.e.rcd.pc + w64 c.iss.len)
      let r0 : Record := { issuedRec [(fw, c)] c.e iss c.e.rcd with pc := c.e.rcd.pc }
      have hback : (Team.modRec { c.e.team with records := [issuedRec [(fw, c)] c.e iss c.e.rcd] } c.e.who.sub
          fun r => { r with pc := c.e.rcd.pc }) = { c.e.team with records := [r0] } := by
        rw [← getEnv_num hr.env]
        exact modRec_lone (t := { c.e.team with records := [issuedRec [(fw, c)] c.e iss c.e.rcd] })
          (r := issuedRec [(fw, c)] c.e iss c.e.rcd) rfl fun r => { r with pc := c.e.rcd.pc }
      have hwait : Team.waitAt { c.e.team with records := [r0] } c.e.who.sub w =
          { c.e.team with records := [{ r0 with pend := if w.drains then [] else r0.pend, wait := w }] } := by
        rw [← getEnv_num hr.env]
        exact waitAt_lone (r := r0) rfl w
      obtain ⟨t, u, ht, hteam, hrec⟩ := onlyRecord_of (r := { r0 with pend := if w.drains then [] else r0.pend, wait := w })
        (fun t => (t.modRec c.e.who.sub fun r => { r with pc := c.e.rcd.pc }).waitAt c.e.who.sub w) (fun t => waitAt_idx _ _ _) hr hlone.1
        (.inr rfl) (hi.run (o := opAbarWait g a b) rfl rfl nofun) he ((congrArg (fun t => Team.waitAt t _ _) hback).trans hwait) rfl
      exact ⟨t, u, _, ht, hteam, hrec, rfl, rfl, rfl⟩
    · obtain ⟨rfl, -, -⟩ := hr.ctx
      have hnot : ¬ epochPassed ep want.toNat = true := by rw [hpassed, hp]; decide
      have he := (test_eff (d := d) (b := b) (c := c.begun ft c.e (issOf h)) hr.begun_calm hobj ((getEnv_spec hr.env).1 ▸ hB)).trans
        (congrArg Res.done (if_neg hnot))
      exact writes_of_team (G := testTeam c d b 0) hr rfl (testTeam_idx d b 0) (testTeam_calm b 0 (begun_noProbe hr)) he
    · obtain ⟨rfl, -, -⟩ := hr.ctx
      have he := (test_eff (d := d) (b := b) (c := c.begun ft c.e (issOf h)) hr.begun_calm hobj ((getEnv_spec hr.env).1 ▸ hB)).trans
        (congrArg Res.done (if_pos (hpassed.trans hp)))
      obtain ⟨t, u, q, ht, hteam, hnoted, hacq, -⟩ := acquireAt_effect (G := testTeam c d b 1) (d := d) (n := 1) (val := fun _ => 1)
        (ins := .abarTest h g d a b) hr rfl (testTeam_idx d b 1) (testTeam_pending d b 1) (testTeam_calm b 1 (begun_noProbe hr)) he
      exact ⟨t, u, ht, hteam, hnoted, hacq⟩

end

section
/-! Ending a call, gathering rows and draining reductions on a station (R380, R382, R386). -/

namespace Sys2Proof.Machine

/-! What lanes that end on a station leave of their block. -/

/-- Memory is as it was, and each block has its number, site and return data. -/
def FaceKept (s t : State) : Prop :=
  t.mem = s.mem ∧ ∃ F : Block → Block, t.blocks = s.blocks.map F ∧ ∀ b, (F b).bid = b.bid ∧ (F b).site = b.site ∧ (F b).ret = b.ret

section
variable {ins : Instr} {iss : Iss} {s t u s1 : State} {e : Env} {c : Ctx} {f : Form} {eff : Ctx → Res} {B : Block} {id now : Nat}

theorem FaceKept.of_blocks (hm : t.mem = s.mem) (hb : t.blocks = s.blocks) : FaceKept s t :=
  ⟨hm, fun b => b, by rw [hb, List.map_id'], fun _ => ⟨rfl, rfl, rfl⟩⟩

theorem FaceKept.trans (h : FaceKept s t) (g : FaceKept t u) : FaceKept s u := by
  obtain ⟨hm, F, hF, hf⟩ := h
  obtain ⟨gm, G, hG, hg⟩ := g
  refine ⟨gm.trans hm, G ∘ F, by rw [hG, hF, List.map_map], fun b => ?_⟩
  obtain ⟨h1, h2, h3⟩ := hf b
  obtain ⟨g1, g2, g3⟩ := hg (F b)
  exact ⟨g1.trans h1, g2.trans h2, g3.trans h3⟩

theorem FaceKept.foldl {α : Type} {g : State → α → State} (hg : ∀ s x, FaceKept s (g s x)) (l : List α) : ∀ s, FaceKept s (l.foldl g s) := by
  induction l with
  | nil => exact fun s => .of_blocks rfl rfl
  | cons x l ih => exact fun s => (hg s x).trans (ih _)

theorem FaceKept.block (h : FaceKept s t) {k : Nat} (hB : s.block? k = some B) :
    ∃ B', t.block? k = some B' ∧ B'.site = B.site ∧ B'.ret = B.ret := by
  obtain ⟨-, F, hF, hf⟩ := h
  have hp : (fun b : Block => b.bid == k) ∘ F = fun b => b.bid == k := funext fun b => by rw [Function.comp, (hf b).1]
  refine ⟨F B, ?_, (hf B).2⟩
  rw [State.block?, hF, List.find?_map, hp, show s.blocks.find? _ = some B from hB]
  rfl

theorem FaceKept.modBlock (s : State) (k : Nat) {P : Block → Block} (hP : ∀ b, (P b).bid = b.bid ∧ (P b).site = b.site ∧ (P b).ret = b.ret) :
    FaceKept s (s.modBlock k P) := by
  refine ⟨rfl, _, rfl, fun b => ?_⟩
  split
  · exact hP b
  · exact ⟨rfl, rfl, rfl⟩

theorem FaceKept.modTeam (s : State) (k i : Nat) (G : Team → Team) : FaceKept s (s.modTeam k i G) :=
  .modBlock s k fun _ => ⟨rfl, rfl, rfl⟩

/-- Of a block only its teams and barriers differ. -/
def OnlyTeamsBars (b b' : Block) : Prop := b' = { b with teams := b'.teams, bars := b'.bars }

theorem OnlyTeamsBars.foldl {α : Type} {g : Block → α → Block} (hg : ∀ b x, OnlyTeamsBars b (g b x)) (l : List α) :
    ∀ b, OnlyTeamsBars b (l.foldl g b) := by
  induction l with
  | nil => exact fun b => rfl
  | cons x l ih =>
    intro b
    have h := hg b x
    have h' := ih (g b x)
    rw [List.foldl_cons]
    unfold OnlyTeamsBars at h h' ⊢
    rw [h', h]

theorem arriveBar_only (b : Block) (t : Team) : OnlyTeamsBars b (arriveBar id b t) := by
  unfold arriveBar
  extract_lets st mine
  split <;> rfl

theorem barTest_only (b : Block) : OnlyTeamsBars b (barTest now id b) := by
  have h := OnlyTeamsBars.foldl (fun b t => arriveBar_only (id := id) b t) b.teams b
  unfold barTest
  extract_lets b₁ st go
  split
  · unfold OnlyTeamsBars at h ⊢
    rw [show b₁ = _ from h]
  · exact h

theorem barTestAll_face (b : Block) :
    (barTestAll now b).bid = b.bid ∧ (barTestAll now b).site = b.site ∧ (barTestAll now b).ret = b.ret := by
  have h : OnlyTeamsBars b (barTestAll now b) := .foldl (fun b _ => barTest_only b) _ b
  rw [h]
  exact ⟨rfl, rfl, rfl⟩

theorem gbarTest_face (s : State) (q lseq id : Nat) : FaceKept s (gbarTest s q lseq id) := by
  have hmap : ∀ (s : State) (p : Block → Bool) (g : Block → Team → Team),
      FaceKept s { s with blocks := s.blocks.map fun b => if p b then { b with teams := b.teams.map (g b) } else b } := by
    refine fun s p g => ⟨rfl, _, rfl, fun b => ?_⟩
    split <;> exact ⟨rfl, rfl, rfl⟩
  unfold gbarTest
  split
  · exact .of_blocks rfl rfl
  · extract_lets st new arrived drop mine upd s₁ all now go upd₂ s₂
    have hdrop : FaceKept s s₁ := hmap s mine drop
    split
    · exact (hdrop.trans (hmap s₁ mine fun _ => go)).trans (.of_blocks rfl rfl)
    · exact hdrop.trans (.of_blocks rfl rfl)

/-- Lanes that end on a station: their block stays, for its site never leaves a row (R380). -/
theorem afterExit_station {bid ti : Nat} (hB : s.block? bid = some B) (hsta : B.site.isStation = true) :
    FaceKept s (afterExit s bid ti) := by
  have hbars : FaceKept s (s.modBlock bid (barTestAll s.time)) := .modBlock s bid fun b => barTestAll_face b
  have hleave : ∀ {u : State}, FaceKept s u → leaveTest u bid ti = u := by
    intro u h
    obtain ⟨B', hB', hsite, -⟩ := h.block hB
    simp only [leaveTest, hB', hsite, hsta, Bool.or_true, Bool.true_or, if_true]
    split <;> rfl
  unfold afterExit
  extract_lets now s₁ s₂
  have h2 : FaceKept s s₂ := by
    simp only [s₂]
    split
    · exact hbars.trans (.foldl (fun s n => gbarTest_face s _ _ n) _ _)
    · exact hbars
  rw [hleave h2]
  exact h2

/-! The majors that only a station has. -/

theorem stationOnly_station {o : Op} {h : Hdr} (he : getEnv s = some e) (hsta : e.station = true) :
    stationOnly o h s = o.run (issOf h) s := by
  simp only [stationOnly, he, hsta, if_true]

theorem stationOnly_core {o : Op} {h : Hdr} (he : getEnv s = some e) (hsta : e.station = false) :
    stationOnly o h s = Op.illegal.run (issOf h) s := by
  simp only [stationOnly, he, hsta, Bool.false_eq_true, if_false]

/-- AN INSTRUCTION THAT WRITES A SCALAR or a register after it has changed the state otherwise than in its team. -/
theorem put_effect {d : Opnd} {v : Nat} (hr : Runs f iss s e c) (hx : exec ins s = issueForm f iss eff s)
    (he : eff (c.begun f e iss) = .done ((c.begun f e iss).putUni d 1 v s1)) (htime : s1.time = s.time)
    (hteam : s1.team? e.who.bid e.who.team = some (e.team.begun [(f, c)] e iss)) :
    ∃ t, exec ins s = .next t ∧ t = { s1 with blocks := t.blocks } ∧ SameScratch s1 t ∧
      ∃ u, t.team? e.who.bid e.who.team = some u ∧ u.k = e.team.k ∧ (∀ r, u.getS r = c.sAfter d 1 (fun _ => v) r) ∧
        ∀ r l, l < 1024 → u.getV r l = c.vAfter d 1 (fun _ => v) r l := by
  obtain ⟨t, ht, hframe, hscr, hut⟩ := team_done (putTeam_idx c d 1 fun _ => v) hr hx
    (he.trans (congrArg Res.done (putOn_eq (c.begun f e iss) d 1 _ s1))) htime hteam
  have hw := wrote_team f e iss c d 1 (fun _ => v) s.time hr.ctx.1 hr.noProbe hr.lane
  exact ⟨t, ht, hframe, hscr, _, hut, (congrArg Team.k hw.rest).trans rfl, hw.sca, hw.vec⟩

/-- A station's block with the return data of its call. -/
def Block.returned (data : List Byte) (b : Block) : Block := { b with ret := some data }

theorem nmret_eff {a b : Opnd} (hret : c.e.blk.ret = none) (hn : (c.uni 1 b).toNat ≤ 64) (hoff : (c.uni 0 a).toNat + (c.uni 1 b).toNat ≤ 65536) :
    (opNmret a b).eff c = .done (c.exitLanes (c.s.modBlock c.e.who.bid
      (Block.returned (c.e.blk.bytes (c.uni 0 a).toNat (c.uni 1 b).toNat)))) := by
  have hbad : (c.e.blk.ret.isSome || decide (64 < (c.uni 1 b).toNat)) = false := by
    simp only [hret, Option.isSome_none, Bool.false_or, decide_eq_false_iff_not]
    omega
  refine (if_neg (by rw [hbad]; decide)).trans (if_neg ?_)
  simp only [Config.stationScratch]
  omega

/-- A call that ends (R380): its block stays and keeps its return data, and what is left of the team has the other lanes or none. -/
theorem call_ends {data : List Byte} (hr : Runs f iss s e c) (hsta : e.station = true) (hl : Lone e) (hf : f.dsts = [])
    (hx : exec ins s = issueForm f iss eff s)
    (he : eff (c.begun f e iss) = .done ((c.begun f e iss).exitLanes ((c.begun f e iss).s.modBlock e.who.bid (Block.returned data)))) :
    ∃ t B, exec ins s = .next t ∧ t.block? e.who.bid = some B ∧ B.ret = some data ∧ t.mem = s.mem ∧
      ∀ u, B.team? e.who.team = some u → ∀ r ∈ u.records, r.k0 = e.rcd.k0 &&& ~~~c.m ∧ r.k0 ≠ 0 := by
  have hteam : ((c.begun f e iss).s.modBlock e.who.bid (Block.returned data)).team? e.who.bid e.who.team =
      some (e.team.begun [(f, c)] e iss) := (team?_modBlock_kept (P := Block.returned data) (fun _ => ⟨rfl, rfl⟩) _ _).trans (begun_team hr)
  obtain ⟨t, now, ht, rfl, hready⟩ := exitLanes_ready hr hl hf hx he hteam
  obtain ⟨rfl, -, -⟩ := hr.ctx
  obtain ⟨ts, hB⟩ := begun_block hr (getEnv_block hr.env)
  have hB1 : (c.modTeam ((c.begun f c.e iss).s.modBlock c.e.who.bid (Block.returned data))
      (c.exitTeam ((c.begun f c.e iss).s.modBlock c.e.who.bid (Block.returned data)).time)).block? c.e.who.bid =
      some (Block.modTeam (Block.returned data { c.e.blk with teams := ts }) c.e.who.team (c.exitTeam (c.begun f c.e iss).s.time)) := by
    rw [Ctx.modTeam, State.block?_modTeam, State.block?_modBlock _ _ _ (Block.returned data) fun _ => rfl, hB]
    simp only [Option.map_some, if_true]
    rfl
  have hkept := (afterExit_station (ti := c.e.who.team) hB1 hsta).trans (.modTeam _ c.e.who.bid c.e.who.team
    fun u => u.ended [(f, c.begun f c.e iss)] now)
  obtain ⟨B, hBt, -, hret⟩ := hkept.block hB1
  refine ⟨_, B, ht, hBt, hret, hkept.1.trans (begun_homes hr).1.mem, fun u hu r hrec => ?_⟩
  rcases (hready u (team?_of_block hBt hu)).recs with h0 | ⟨r', hr', -, hk, hne⟩
  · rw [h0] at hrec
    cases hrec
  · rw [hr', List.mem_singleton] at hrec
    subst hrec
    exact ⟨hk, hk ▸ hne⟩

/-! Gathering a row. -/

/-- The blocks and the time are as they were. -/
def SameBlocks (s t : State) : Prop := t.blocks = s.blocks ∧ t.time = s.time

theorem rowTouch_blocks (s : State) (b : Block) (la : Launch) (table rowb row ea : Nat) : SameBlocks s (rowTouch s b la table rowb row ea) := by
  have hacc : ∀ stack set, SameBlocks s (rowAccess s stack la.ctx table rowb row set) := by
    intro stack set
    unfold rowAccess
    extract_lets key ways n half s1 it need mine
    have h1 : SameBlocks s s1 := by
      simp only [s1]
      split <;> exact ⟨rfl, rfl⟩
    split
    · exact ⟨rfl, rfl⟩
    · split
      · exact h1
      · split <;> exact h1
  unfold rowTouch
  split
  · exact ⟨rfl, rfl⟩
  · split
    · exact ⟨rfl, rfl⟩
    · extract_lets p
      split
      · exact hacc _ _
      · exact ⟨rfl, rfl⟩

theorem readPlace_blocks (s : State) (b : Block) (la : Launch) (cache : Cache) (ea : Nat) (tg : Target) (n : Nat) :
    SameBlocks s (readPlace s b la cache ea tg n).2 := by
  cases tg with
  | scr bid off =>
    have h := readPlace_reads (key := 0) s b la cache ea (tg := .scr bid off) n trivial
    exact ⟨h.blocks, h.time⟩
  | mem t p =>
    have h := readPlace_reads (key := p.key) s b la cache ea (tg := .mem t p) n rfl
    exact ⟨h.blocks, h.time⟩

/-- What one step of an engine's read makes of its bytes and state. -/
def cleanStep (b : Block) (la : Launch) (acc : Except (Nat × Nat) (List Byte × State)) (q : Piece) : Except (Nat × Nat) (List Byte × State) :=
  match acc with
  | .error e => .error e
  | .ok (bytes, s) =>
    let r := readPlace s b la .bypass q.1 q.2.1 q.2.2
    if r.1.2 then .error (cPOISON, q.1) else .ok (bytes ++ r.1.1, r.2)

theorem cleanSteps_blocks (b : Block) (la : Launch) (qs : List Piece) : ∀ {acc : Except (Nat × Nat) (List Byte × State)} {l : List Byte},
    qs.foldl (cleanStep b la) acc = .ok (l, t) → ∃ l' u, acc = .ok (l', u) ∧ SameBlocks u t := by
  induction qs with
  | nil => exact fun {acc l} h => ⟨l, t, h, rfl, rfl⟩
  | cons q qs ih =>
    intro acc l h
    obtain ⟨l', u, hu, hb⟩ := ih h
    cases acc with
    | error k => exact absurd hu nofun
    | ok p =>
      obtain ⟨bytes, s⟩ := p
      refine ⟨bytes, s, rfl, ?_⟩
      simp only [cleanStep] at hu
      split at hu
      · exact absurd hu nofun
      · simp only [Except.ok.injEq, Prod.mk.injEq] at hu
        obtain ⟨-, rfl⟩ := hu
        obtain ⟨h1, h2⟩ := readPlace_blocks s b la .bypass q.1 q.2.1 q.2.2
        exact ⟨hb.1.trans h1, hb.2.trans h2⟩

theorem cleanRead_blocks {b : Block} {la : Launch} {ea n : Nat} {l : List Byte} (h : cleanRead b la ea n s = .ok (l, t)) : SameBlocks s t := by
  unfold cleanRead at h
  split at h
  · exact absurd h nofun
  · next qs _ =>
    obtain ⟨l', u, hu, hb⟩ := cleanSteps_blocks b la qs (acc := .ok ([], s)) (t := t) (l := l) h
    simp only [Except.ok.injEq, Prod.mk.injEq] at hu
    obtain ⟨-, rfl⟩ := hu
    exact hb

theorem foldl_range_one {α : Type} {n : Nat} (hn : n = 1) (F : α → Nat → α) (acc : α) : (List.range n).foldl F acc = F acc 0 := by
  subst hn
  rfl

theorem rgath_eff {d a : Opnd} {g : Gather} {v : Nat} (hg : gatherOf (c.e.blk.copyOut (c.uni 0 a).toNat 64) = g)
    (hchk : rgathCheck c.e.blk (c.uni 0 a).toNat = none)
    (hr : (List.range g.n).foldl (rgathRow c.e.who.bid c.e.la g) ⟨c.s, 0, none⟩ = ⟨t, v, none⟩) :
    (opRgath d a).eff c = .done (c.putUni d 1 v t) := by
  simp only [opRgath, hchk, hg, hr]

theorem gather_valid (g : Gather) (x : Nat) : g.valid x = true ↔ x < g.rows ∧ x ≠ 2 ^ 32 - 1 := by
  simp only [Gather.valid, Bool.and_eq_true, decide_eq_true_eq, bne_iff_ne]

/-- The first row of a gather, read whole. -/
theorem rgathRow_first {bid row ix at_ : Nat} {b : Block} {la : Launch} {g : Gather} {l : List Byte} (hat : g.packed % 2 ^ 44 = at_) (hB : s.block? bid = some b)
    (hix : b.num g.idx 4 = ix) (hrow : (if ix < g.rows ∧ ix ≠ 2 ^ 32 - 1 then ix else g.defrow) = row)
    (hread : cleanRead b la (g.table + row * g.rowb) g.rowb (rowTouch s b la g.table g.rowb row (g.table + row * g.rowb)) = .ok (l, t)) :
    rgathRow bid la g ⟨s, 0, none⟩ 0 = ⟨t.modBlock bid fun b => putScratch b at_ l false,
      if ix < g.rows ∧ ix ≠ 2 ^ 32 - 1 then 0 else 1, none⟩ := by
  simp only [rgathRow, hB, Nat.mul_zero, Nat.zero_mul, Nat.add_zero, Nat.zero_add, hix, gather_valid, hrow, hread, hat]

/-- The bytes of a row where they were written, in a scratchpad without barrier objects. -/
theorem row_written {bid at_ n : Nat} {b b' : Block} {l : List Byte} (hB : s.block? bid = some b) (hobjs : b.objs = []) (hlen : l.length = n)
    (hscr : SameScratch (s.modBlock bid fun b => putScratch b at_ l false) t) (hBt : t.block? bid = some b') : bytesAt b'.scratch at_ n = l := by
  subst hlen
  obtain ⟨hin, -⟩ := scrByte_putScratch (off := at_) (bs := l) hB (fun o ho => by simp [hobjs] at ho) false
  rw [← bytesAt_setBytes_same l [] at_, bytesAt_setBytes_same]
  refine (bytesAt_ext _ _ _ fun j hj => ?_).trans (bytesAt_setBytes_same l [] at_)
  have hbyte := (hscr bid (at_ + j)).trans (hin j hj)
  rw [byteAt_setBytes, if_pos (by omega), Nat.add_sub_cancel_left, ← hbyte, scrByte, hBt]

/-- An instruction that writes a row to its own scratchpad, which holds no barrier object, and then its destination. -/
theorem gather_effect {s3 : State} {d : Opnd} {v at_ n : Nat} {l : List Byte} (hr : Runs f iss s e c) (hx : exec ins s = issueForm f iss eff s)
    (hsame : SameBlocks (c.begun f e iss).s s3) (hobjs : e.blk.objs = []) (hlen : l.length = n)
    (he : eff (c.begun f e iss) = .done ((c.begun f e iss).putUni d 1 v (s3.modBlock e.who.bid fun b => putScratch b at_ l false))) :
    ∃ t B, exec ins s = .next t ∧ (∃ u, t.team? e.who.bid e.who.team = some u ∧ u.k = e.team.k ∧
        (∀ r, u.getS r = c.sAfter d 1 (fun _ => v) r) ∧ ∀ r l, l < 1024 → u.getV r l = c.vAfter d 1 (fun _ => v) r l) ∧
      t.block? e.who.bid = some B ∧ bytesAt B.scratch at_ n = l := by
  obtain ⟨hblocks, htime⟩ := hsame
  obtain ⟨ts, hB⟩ := begun_block hr (getEnv_block hr.env)
  have hteam : s3.team? e.who.bid e.who.team = some (e.team.begun [(f, c)] e iss) := by
    rw [State.team?, State.block?, hblocks]
    exact begun_team hr
  have hB3 : s3.block? e.who.bid = some { e.blk with teams := ts } := by
    rw [State.block?, hblocks]
    exact hB
  obtain ⟨t, ht, -, hscr, hgot⟩ := put_effect hr hx he (htime.trans (begun_homes hr).2.2)
    ((team?_modBlock_scr (fun b => putScratch_onlyScr b _ _ _) _ _).trans hteam)
  obtain ⟨u, hu, -⟩ := id hgot
  cases hb : t.block? e.who.bid with
  | none => simp [State.team?, hb] at hu
  | some B => exact ⟨t, B, ht, hgot, hb, row_written hB3 hobjs hlen hscr hb⟩

/-! Draining reductions. -/

theorem redrx_eff {d a : Opnd} {n m v stack st : Nat} (hv : 65536 * m + n = v) (hchk : drainCheck c.e.blk (c.uni 0 a).toNat = none)
    (hsite : c.e.blk.site = .station stack st)
    (hr : (c.e.s.redq.filter fun k => k.stack == stack).foldl (drainOne (drainOf c.e.blk.scratch (c.uni 0 a).toNat) c.e.who.bid) ⟨c.s, 0, 0, none⟩ =
      ⟨t, n, m, none⟩) : (opRedrx d a).eff c = .done (c.putUni d 1 v t) := by
  simp only [opRedrx, hchk, hsite, hr, hv]

theorem drain_most {b : Block} {off : Nat} (h : drainCheck b off = none) : (drainOf b.scratch off).most ≠ 0 := by
  intro h0
  have hbad : (drainOf b.scratch off).bad = true := by simp [Drain.bad, h0]
  have hill := List.findSome?_eq_none_iff.1 h (illIf (drainOf b.scratch off).bad) (by simp)
  rw [hbad] at hill
  exact absurd hill nofun

/-- What a drain of one packet whose checks pass leaves, and of one that they fail. -/
theorem drainOne_spec {d : Drain} {bid : Nat} {k : RedPkt} {m : Memory} (hm : s.mem = m) (hmost : d.most ≠ 0) (hid : (chdrOf k.hdr).id = d.id) (hgen : (chdrOf k.hdr).gen = d.gen)
    (hclean : k.poisoned = false) (hline : poisonLine s k.dst (k.count * elemSize ((chdrOf k.hdr).fmt % 16)) = none) :
    let hd := chdrOf k.hdr
    let ty := hd.fmt % 16
    let red := reduceCheck ty (hd.fmt / 16 % 4) (elems ty (bytesAt m k.dst (k.count * elemSize ty))) false (elems ty k.data) hd.closure
    (red.2.1 = true → red.2.2 = true → ∃ t, drainOne d bid ⟨s, 0, 0, none⟩ k = ⟨t, 1, 0, none⟩ ∧ t.redq = s.redq.erase k ∧ t.time = s.time ∧
        t.mem = setBytes m k.dst (red.1.flatMap (leBytes (elemSize ty))) ∧ t.blocks = s.blocks) ∧
      (red.2.1 = false ∨ red.2.2 = false → ∃ t, drainOne d bid ⟨s, 0, 0, none⟩ k = ⟨t, 0, 1, none⟩ ∧ t.redq = s.redq.erase k ∧
        t.time = s.time ∧ t.mem = m ∧ ∃ P, (∀ b, OnlyScr b (P b)) ∧ t.blocks = (s.modBlock bid P).blocks) := by
  subst hm
  intro hd ty red
  have hgo : ((none : Option Nat).isSome || decide (d.most ≤ 0 + 0) || hd.id != d.id) = false := by
    simp only [Option.isSome_none, Bool.false_or, Bool.or_eq_false_iff, decide_eq_false_iff_not, bne_eq_false_iff_eq]
    exact ⟨by omega, hid⟩
  have hpois : (if k.poisoned then some k.dst else poisonLine { s with redq := s.redq.erase k } k.dst (k.count * elemSize ty)) = none := by
    rw [hclean]
    exact hline
  have hr : drainOne d bid ⟨s, 0, 0, none⟩ k = if red.2.1 && red.2.2 then
      { s := (linePieces k.dst (k.count * elemSize ty + 1) (k.count * elemSize ty)).foldl (fun s q => mscTouch s (q.1 / 128) 2 0 true)
          { s with redq := s.redq.erase k, mem := setBytes s.mem k.dst (red.1.flatMap (leBytes (elemSize ty))) }
        taken := 1, bad := 0, poison := none }
    else
      { s := State.modBlock { s with redq := s.redq.erase k } bid fun b => if d.rep = noRep then b
          else putScratch b (d.rep + 32 * 0) (mismatchEntry k (if red.2.1 then 2 else 1) s.time) false
        taken := 0, bad := 1, poison := none } := by
    simp only [drainOne]
    rw [if_neg (by rw [hgo]; decide), if_neg (by simpa using hgen)]
    simp only [ty, hd] at hpois
    rw [hpois]
  refine ⟨fun h1 h2 => ?_, fun hbad => ?_⟩
  · have hreads := Reads.foldl (key := 0) (linePieces k.dst (k.count * elemSize ty + 1) (k.count * elemSize ty))
      (fun s q _ => mscTouch_reads s (q.1 / 128) 2 0 true)
      { s with redq := s.redq.erase k, mem := setBytes s.mem k.dst (red.1.flatMap (leBytes (elemSize ty))) }
    rw [h1, h2] at hr
    exact ⟨_, hr, congrArg State.redq hreads.frame, hreads.time, hreads.mem, hreads.blocks⟩
  · have hok : ¬ (red.2.1 && red.2.2) = true := by
      rcases hbad with h | h <;> simp [h]
    refine ⟨_, hr.trans (if_neg hok), rfl, rfl, rfl, _, fun b => ?_, rfl⟩
    split
    · exact .refl b
    · exact putScratch_onlyScr b _ _ _

theorem not_mem_erase_filter {α : Type} [DecidableEq α] {p : α → Bool} {l : List α} {k : α} (h : l.filter p = [k]) :
    k ∉ (l.erase k).filter p := by
  have hk : p k = true := (List.mem_filter.1 (h ▸ List.mem_singleton_self k)).2
  rw [← List.erase_filter, h]
  simp

end

end Sys2Proof.Machine

open Sys2Proof Sys2Proof.Machine

/-- Settles O37: a call's end keeps its block, one row is one write of the scratchpad, and one packet is one step of the drain. -/
theorem stationInstructions : Obligations.StationInstructions := by
  unfold Obligations.StationInstructions
  intro h d a b i s e c l s3 b1 k stack st
  extract_lets iss off n blk g ix row at_ fr begun dr hd ty width red got
  have hstart : Runs fr iss s e c → begun.mem = s.mem ∧ begun.redq = s.redq ∧ begun.mpoison = s.mpoison := by
    intro hr
    rw [show begun = _ from beginIssue_eq _ _ _, (getEnv_spec hr.env).1]
    exact ⟨rfl, rfl, rfl⟩
  refine ⟨fun hi hsta hr => ?_, fun hr hsta hl hret hn hoff => ?_, fun hr hsta hchk hobjs => ⟨fun hn => ?_, fun hn hb1 hread hlen => ?_⟩,
    fun hr hsta hsite hchk => ⟨fun hq => ?_, fun hq hid hgen hclean hline => ⟨fun ht ha => ?_, fun hbad => ?_⟩⟩⟩
  · have hcore := fun o : Op => stationOnly_core (o := o) (h := h) hr.env hsta
    obtain ⟨rfl, -, -⟩ := hr.ctx
    have hx : exec i s = issueForm (ctlForm [] [] .run true) iss Op.illegal.eff s := by
      rcases hi with rfl | rfl | rfl <;> exact hcore _
    exact trap_effect hr hx rfl
  · have hx := stationOnly_station (o := opNmret a b) (h := h) hr.env hsta
    obtain ⟨rfl, -, -⟩ := hr.ctx
    exact call_ends (ins := .nmret h a b) hr hsta hl rfl hx (nmret_eff (c := c.begun (ctlForm [fA a 1, fB b 1] [] .run true) c.e iss) hret hn hoff)
  · have hx := stationOnly_station (o := opRgath d a) (h := h) hr.env hsta
    obtain ⟨rfl, -, -⟩ := hr.ctx
    have he := rgath_eff (d := d) (a := a) (c := c.begun fr c.e iss) (g := g) (t := begun) (v := 0) rfl hchk (by rw [hn]; rfl)
    obtain ⟨t, ht, hframe, hscr, hgot⟩ := put_effect (ins := .rgath h d a) hr hx he (begun_homes hr).2.2 (begun_team hr)
    exact ⟨t, ht, hgot, fun bd o => (hscr bd o).trans (sameScratch_of_map (scratchAs_begun hr) bd o),
      (congrArg State.mem hframe).trans (begun_homes hr).1.mem⟩
  · have hx := stationOnly_station (o := opRgath d a) (h := h) hr.env hsta
    obtain ⟨rfl, -, -⟩ := hr.ctx
    obtain ⟨ts, hB⟩ := begun_block hr (getEnv_block hr.env)
    obtain rfl := Option.some.inj (hb1.symm.trans hB)
    have hat : g.packed % 2 ^ 44 = at_ := rfl
    have hix : Block.num { c.e.blk with teams := ts } g.idx 4 = ix := rfl
    have hsel : (if ix < g.rows ∧ ix ≠ 2 ^ 32 - 1 then ix else g.defrow) = row := rfl
    clear_value at_ row ix
    have hrow := rgathRow_first (bid := c.e.who.bid) (ix := ix) hat hB hix hsel hread
    have hfold : (List.range g.n).foldl (rgathRow c.e.who.bid c.e.la g) ⟨begun, 0, none⟩ = rgathRow c.e.who.bid c.e.la g ⟨begun, 0, none⟩ 0 :=
      foldl_range_one hn _ _
    have he : (opRgath d a).eff (c.begun fr c.e iss) = .done ((c.begun fr c.e iss).putUni d 1 (if ix < g.rows ∧ ix ≠ 2 ^ 32 - 1 then 0 else 1)
        (s3.modBlock c.e.who.bid fun b => putScratch b at_ l false)) :=
      rgath_eff (d := d) (a := a) (c := c.begun fr c.e iss) (g := g) rfl hchk (hfold.trans hrow)
    obtain ⟨htb, htt⟩ := rowTouch_blocks begun { c.e.blk with teams := ts } c.e.la g.table g.rowb row (g.table + row * g.rowb)
    obtain ⟨hcb, hct⟩ := cleanRead_blocks hread
    exact gather_effect (ins := .rgath h d a) hr hx ⟨hcb.trans htb, hct.trans htt⟩ hobjs hlen he
  · have hx := stationOnly_station (o := opRedrx d a) (h := h) hr.env hsta
    obtain ⟨rfl, -, -⟩ := hr.ctx
    have hfold : (s.redq.filter fun p => p.stack == stack).foldl (drainOne dr c.e.who.bid) ⟨begun, 0, 0, none⟩ = ⟨begun, 0, 0, none⟩ := by
      rw [hq]
      rfl
    rw [← (getEnv_spec hr.env).1] at hfold
    have he := redrx_eff (v := 0) rfl (d := d) (a := a) (c := c.begun fr c.e iss) hchk hsite hfold
    obtain ⟨t, ht, hframe, hscr, hgot⟩ := put_effect (ins := .redrx h d a) hr hx he (begun_homes hr).2.2 (begun_team hr)
    obtain ⟨-, hredq, -⟩ := hstart hr
    exact ⟨t, ht, hgot, (congrArg State.mem hframe).trans (begun_homes hr).1.mem, (congrArg State.redq hframe).trans hredq,
      fun bd o => (hscr bd o).trans (sameScratch_of_map (scratchAs_begun hr) bd o)⟩
  · have hx := stationOnly_station (o := opRedrx d a) (h := h) hr.env hsta
    obtain ⟨hm, hredq, hmp⟩ := hstart hr
    obtain ⟨rfl, -, -⟩ := hr.ctx
    have hspec := (drainOne_spec (bid := c.e.who.bid) hm (drain_most hchk) hid hgen hclean (by rw [poisonLine, hmp]; exact hline)).1 ht ha
    obtain ⟨t1, hone, hq1, htime, hmem, hblocks⟩ := hspec
    have hfold : (c.e.s.redq.filter fun p => p.stack == stack).foldl (drainOne dr c.e.who.bid) ⟨begun, 0, 0, none⟩ = ⟨t1, 1, 0, none⟩ := by
      rw [(getEnv_spec hr.env).1, hq]
      exact hone
    have he := redrx_eff (v := 1) (n := 1) (m := 0) rfl (d := d) (a := a) (c := c.begun fr c.e iss) hchk hsite hfold
    have hteam : t1.team? c.e.who.bid c.e.who.team = some (c.e.team.begun [(fr, c)] c.e iss) := by
      rw [State.team?, State.block?, hblocks]
      exact begun_team hr
    obtain ⟨t, ht, hframe, hscr, hgot⟩ := put_effect (ins := .redrx h d a) hr hx he (htime.trans (begun_homes hr).2.2) hteam
    refine ⟨t, ht, hgot, ?_, (congrArg State.mem hframe).trans hmem, fun bd o => (hscr bd o).trans ?_⟩
    · rw [hframe, hq1, hredq]
      exact not_mem_erase_filter hq
    · rw [scrByte, State.block?, hblocks]
      exact sameScratch_of_map (scratchAs_begun hr) bd o
  · have hx := stationOnly_station (o := opRedrx d a) (h := h) hr.env hsta
    obtain ⟨hm, hredq, hmp⟩ := hstart hr
    obtain ⟨rfl, -, -⟩ := hr.ctx
    have hspec := (drainOne_spec (bid := c.e.who.bid) hm (drain_most hchk) hid hgen hclean (by rw [poisonLine, hmp]; exact hline)).2 hbad
    obtain ⟨t1, hone, hq1, htime, hmem, P, hP, hblocks⟩ := hspec
    have hfold : (c.e.s.redq.filter fun p => p.stack == stack).foldl (drainOne dr c.e.who.bid) ⟨begun, 0, 0, none⟩ = ⟨t1, 0, 1, none⟩ := by
      rw [(getEnv_spec hr.env).1, hq]
      exact hone
    have he := redrx_eff (v := 65536) (n := 0) (m := 1) rfl (d := d) (a := a) (c := c.begun fr c.e iss) hchk hsite hfold
    have hteam : t1.team? c.e.who.bid c.e.who.team = some (c.e.team.begun [(fr, c)] c.e iss) := by
      rw [State.team?, State.block?, hblocks]
      exact (team?_modBlock_scr hP _ _).trans (begun_team hr)
    obtain ⟨t, ht, hframe, -, hgot⟩ := put_effect (ins := .redrx h d a) hr hx he (htime.trans (begun_homes hr).2.2) hteam
    refine ⟨t, ht, hgot, (congrArg State.mem hframe).trans hmem, ?_⟩
    rw [hframe, hq1, hredq]
    exact not_mem_erase_filter hq

end

section
/-! Circular buffers (R290 to R300, R307). -/

namespace Sys2Proof.Machine

/-! A descriptor's fields and its bytes. -/

/-- The fields as wide as the descriptor's bytes hold them, and no reserved bit (R290). -/
structure CBuf.Fits (k : CBuf) : Prop where
  base : k.base < 2 ^ 32
  ssize : k.ssize < 2 ^ 32
  count : k.count < 2 ^ 8
  free : k.free < 2 ^ 8
  filled : k.filled < 2 ^ 8
  head : k.head < 2 ^ 8
  tail : k.tail < 2 ^ 8
  rsv : k.rsv < 2 ^ 8
  done : k.done < 2 ^ 64
  tags : k.tags < 2 ^ 32
  zeros : k.zeros = 0

theorem cbufOf_num {k : CBuf} (h : k.Fits) : k.num < 256 ^ 32 ∧ cbufOf k.num = k := by
  obtain ⟨base, ssize, count, free, filled, head, tail, rsv, done, tags, zeros⟩ := k
  obtain ⟨h1, h2, h3, h4, h5, h6, h7, h8, h9, h10, h11⟩ := h
  dsimp only at h1 h2 h3 h4 h5 h6 h7 h8 h9 h10 h11
  simp only [CBuf.num, cbufOf, bitsOf, CBuf.mk.injEq]
  omega

/-- What R291 asks of the counts of a descriptor. -/
structure CBuf.Well (k : CBuf) : Prop where
  fits : k.Fits
  pos : 0 < k.count
  most : k.count ≤ 64
  sum : k.free + k.rsv + k.filled ≤ k.count
  head : k.head < k.count
  tail : k.tail < k.count
  ssize : 0 < k.ssize

theorem well_of {n len : Nat} (h : (cbufOf n).broken len = false) : (cbufOf n).Well := by
  have hbits : ∀ hi lo, bitsOf n hi lo < 2 ^ (hi + 1 - lo) := fun hi lo => Nat.mod_lt _ (Nat.two_pow_pos _)
  simp only [CBuf.broken, Bool.or_eq_false_iff, bne_eq_false_iff_eq, beq_eq_false_iff_ne, decide_eq_false_iff_not] at h
  obtain ⟨⟨⟨⟨⟨⟨⟨⟨⟨⟨⟨hz, h0⟩, h64⟩, hsum⟩, hhead⟩, htail⟩, -⟩, -⟩, -⟩, -⟩, hs⟩, -⟩ := h
  exact ⟨⟨hbits _ _, hbits _ _, hbits _ _, hbits _ _, hbits _ _, hbits _ _, hbits _ _, hbits _ _, hbits _ _, hbits _ _, hz⟩,
    by omega, by omega, by omega, by omega, by omega, by omega⟩

theorem new_fits {base size n tg : Nat} (hb : base < 2 ^ 32) (hs : size < 2 ^ 32) (hn : n < 2 ^ 8) (ht : tg < 2 ^ 32) :
    CBuf.Fits ⟨base, size, n, n, 0, 0, 0, 0, 0, tg, 0⟩ := by
  constructor <;> simp <;> omega

section
variable {k : CBuf} (h : k.Well)
include h

theorem reserve_fits (hf : 0 < k.free) : k.reserve.2.Fits := by
  obtain ⟨hfits, hpos, hmost, hsum, -, -, -⟩ := h
  have hmod := Nat.mod_lt (k.tail + 1) hpos
  exact { hfits with
    tail := by simp only [CBuf.reserve]; omega
    free := by simp only [CBuf.reserve]; omega
    rsv := by simp only [CBuf.reserve]; omega }

theorem acquired_fits : CBuf.Fits { k with head := (k.head + 1) % k.count, filled := k.filled - 1 } := by
  obtain ⟨hfits, hpos, hmost, hsum, -, -, -⟩ := h
  have hmod := Nat.mod_lt (k.head + 1) hpos
  exact { hfits with
    head := by dsimp only; omega
    filled := by dsimp only; omega }

theorem released_fits (hacq : 0 < k.acq) : CBuf.Fits { k with free := k.free + 1 } := by
  obtain ⟨hfits, hpos, hmost, hsum, -, -, -⟩ := h
  rw [CBuf.acq] at hacq
  exact { hfits with free := by dsimp only; omega }

theorem written_fits {j : Nat} (hj : j < k.count) : CBuf.Fits { k with done := k.done ||| 2 ^ j } := by
  obtain ⟨hfits, hpos, hmost, hsum, -, -, -⟩ := h
  exact { hfits with done := Nat.or_lt_two_pow hfits.done (Nat.pow_lt_pow_right (by decide) (by omega)) }

theorem filled_fits (hrsv : k.rsv ≠ 0) : CBuf.Fits { k with filled := k.filled + 1, rsv := k.rsv - 1 } := by
  obtain ⟨hfits, hpos, hmost, hsum, -, -, -⟩ := h
  exact { hfits with
    filled := by dsimp only; omega
    rsv := by dsimp only; omega }

theorem acq_lt : k.acq < 256 := by
  obtain ⟨hfits, hpos, hmost, hsum, -, -, -⟩ := h
  rw [CBuf.acq]
  omega

end

/-- What an update of the descriptor at `off` makes of a block: the descriptor is `k`, and no other byte of the scratchpad differs. -/
structure CbSet (off : Nat) (k : CBuf) (b b' : Block) : Prop where
  buf : cbufOf (b'.num off 32) = k
  out : ∀ i, i < off ∨ off + 32 ≤ i → byteAt b'.scratch i = byteAt b.scratch i

theorem cbuf_setBytes {m : Memory} {off : Nat} {k : CBuf} (hk : k.Fits) : cbufOf (numAt (setBytes m off (leBytes 32 k.num)) off 32) = k := by
  obtain ⟨hlt, hof⟩ := cbufOf_num hk
  exact (congrArg cbufOf (numAt_setBytes hlt _ _)).trans hof

theorem putCb_scratch {b : Block} {off : Nat} {k : CBuf} (hplain : b.plainAt off 32) :
    (putCb b off k).scratch = setBytes b.scratch off (leBytes 32 k.num) := by
  rw [putCb, putScratch_plain (by rwa [leBytes_length])]

theorem putCb_cbSet {b : Block} {off : Nat} {k : CBuf} (hk : k.Fits) (hplain : b.plainAt off 32) : CbSet off k b (putCb b off k) := by
  have hscr := putCb_scratch (k := k) hplain
  refine ⟨?_, fun i hi => ?_⟩
  · change cbufOf (numAt (putCb b off k).scratch off 32) = k
    rw [hscr]
    exact cbuf_setBytes hk
  · rw [hscr]
    exact byteAt_setBytes_out (by rwa [leBytes_length])

/-- A slot written, with its tag: where no barrier object lies, two writes of bytes. -/
theorem fillSlot_scratch {b : Block} {off j v : Nat} {cb : CBuf} (hcb : cbufOf (b.num off 32) = cb) (hwell : cb.broken b.scratchLen = false)
    (hplain : b.plainAt off 32) (htag : cb.tags ≠ noTags → b.plainAt (cb.tags + 4 * j) 4) : (fillSlot b off j v).scratch =
      setBytes (if cb.tags = noTags then b.scratch else setBytes b.scratch (cb.tags + 4 * j) (leBytes 4 v)) off
        (leBytes 32 (({ cb with done := cb.done ||| 2 ^ j } : CBuf).settle 64).num) := by
  have hget : getCb b off = some cb := by
    simp only [getCb, hcb, hwell, Bool.false_eq_true, if_false]
  unfold fillSlot
  rw [hget]
  dsimp only
  generalize ({ cb with done := cb.done ||| 2 ^ j } : CBuf).settle 64 = k
  by_cases h : cb.tags = noTags
  · rw [if_pos h, if_pos h, putCb_scratch hplain]
  · have hput := putScratch_plain (b := b) (l := leBytes 4 v) (by rw [leBytes_length]; exact htag h) false
    rw [if_neg h, if_neg h, putCb_scratch (by rw [hput]; exact hplain), congrArg Block.scratch hput]

/-- A byte beside the descriptor and the tag. -/
theorem fill_out {m : Memory} {off word i v n : Nat} {p : Prop} [Decidable p] (hi : ¬ (off ≤ i ∧ i < off + 32))
    (hw : ¬ p → ¬ (word ≤ i ∧ i < word + 4)) :
    byteAt (setBytes (if p then m else setBytes m word (leBytes 4 v)) off (leBytes 32 n)) i = byteAt m i := by
  rw [byteAt_setBytes_out (by rw [leBytes_length]; omega)]
  split
  · rfl
  · next h =>
    have := hw h
    exact byteAt_setBytes_out (by rw [leBytes_length]; omega)

/-- The tag, where it does not lie in the descriptor. -/
theorem fill_tag {m : Memory} {off word v n : Nat} (hv : v < 2 ^ 32) (h : word + 4 ≤ off ∨ off + 32 ≤ word) :
    numAt (setBytes (setBytes m word (leBytes 4 v)) off (leBytes 32 n)) word 4 = v := by
  have hsame : bytesAt (setBytes (setBytes m word (leBytes 4 v)) off (leBytes 32 n)) word 4 = bytesAt (setBytes m word (leBytes 4 v)) word 4 :=
    bytesAt_ext _ _ _ fun j hj => byteAt_setBytes_out (by rw [leBytes_length]; omega)
  rw [numAt, hsame]
  exact numAt_setBytes (by omega) _ _

/-! Slots written in turn (R294). -/

theorem settle_stop {k : CBuf} (h : ¬ (0 < k.rsv ∧ k.done.testBit ((k.head + k.filled) % k.count) = true)) (fuel : Nat) : k.settle fuel = k := by
  cases fuel with
  | zero => rfl
  | succ n =>
    rw [CBuf.settle]
    exact if_neg h

theorem settle_step {k : CBuf} (h : 0 < k.rsv ∧ k.done.testBit ((k.head + k.filled) % k.count) = true) (fuel : Nat) : k.settle (fuel + 1) =
    ({ k with done := k.done - 2 ^ ((k.head + k.filled) % k.count), filled := k.filled + 1, rsv := k.rsv - 1 } : CBuf).settle fuel := by
  rw [CBuf.settle]
  exact if_pos h

/-- A bit set in a number where it was clear. -/
theorem or_two_pow_sub {x j : Nat} (hx : x < 2 ^ 64) (hj : j < 64) (h : x.testBit j = false) : (x ||| 2 ^ j) - 2 ^ j = x := by
  have hand : BitVec.ofNat 65 x &&& BitVec.ofNat 65 (2 ^ j) = 0#65 := by
    refine BitVec.eq_of_getLsbD_eq fun i hi => ?_
    rw [BitVec.getLsbD_and, BitVec.getLsbD_ofNat, BitVec.getLsbD_ofNat, Nat.testBit_two_pow, BitVec.getLsbD_zero]
    by_cases hij : j = i
    · rw [← hij, h, Bool.and_false, Bool.false_and]
    · rw [decide_eq_false hij, Bool.and_false, Bool.and_false]
  have hadd := congrArg BitVec.toNat (BitVec.add_eq_or_of_and_eq_zero _ _ hand)
  have hpow : 2 ^ j < 2 ^ 64 := Nat.pow_lt_pow_right (by decide) hj
  have hor : x ||| 2 ^ j < 2 ^ 64 := Nat.or_lt_two_pow hx hpow
  rw [BitVec.toNat_add, BitVec.toNat_or, BitVec.toNat_ofNat, BitVec.toNat_ofNat, Nat.mod_eq_of_lt (a := x) (by omega),
    Nat.mod_eq_of_lt (a := 2 ^ j) (by omega), Nat.mod_eq_of_lt (by omega)] at hadd
  omega

theorem testBit_or_two_pow (x j i : Nat) : (x ||| 2 ^ j).testBit i = (x.testBit i || decide (j = i)) := by
  rw [Nat.testBit_or, Nat.testBit_two_pow]

/-- A slot written ahead of its turn. -/
theorem settle_ahead {k : CBuf} {j : Nat} (hj : j ≠ (k.head + k.filled) % k.count) (hd : k.done.testBit ((k.head + k.filled) % k.count) = false)
    (fuel : Nat) : ({ k with done := k.done ||| 2 ^ j } : CBuf).settle fuel = { k with done := k.done ||| 2 ^ j } := by
  refine settle_stop (fun h => ?_) fuel
  obtain ⟨-, h⟩ := h
  simp only [testBit_or_two_pow, hd, Bool.false_or, decide_eq_true_eq] at h
  exact hj h

/-- A slot written in its turn, the next one not. -/
theorem settle_turn {k : CBuf} {j : Nat} (hk : k.Well) (hj : j = (k.head + k.filled) % k.count) (hrsv : k.rsv ≠ 0) (hd : k.done.testBit j = false)
    (hnext : k.rsv = 1 ∨ k.done.testBit ((j + 1) % k.count) = false) (fuel : Nat) :
    ({ k with done := k.done ||| 2 ^ j } : CBuf).settle (fuel + 1) = { k with filled := k.filled + 1, rsv := k.rsv - 1 } := by
  have hlt : j < 64 := by
    have := Nat.mod_lt (k.head + k.filled) hk.pos
    have := hk.most
    omega
  have hfirst : 0 < ({ k with done := k.done ||| 2 ^ j } : CBuf).rsv ∧ ({ k with done := k.done ||| 2 ^ j } : CBuf).done.testBit
      ((k.head + k.filled) % k.count) = true := by
    refine ⟨Nat.pos_of_ne_zero hrsv, ?_⟩
    rw [← hj]
    simp only [testBit_or_two_pow, decide_true, Bool.or_true]
  rw [settle_step hfirst]
  simp only [← hj, or_two_pow_sub hk.fits.done hlt hd]
  refine settle_stop (fun h => ?_) fuel
  obtain ⟨h0, h1⟩ := h
  have hmod : (k.head + (k.filled + 1)) % k.count = (j + 1) % k.count := by rw [hj, Nat.mod_add_mod, Nat.add_assoc]
  dsimp only at h0 h1
  rw [hmod] at h1
  rcases hnext with h | h
  · omega
  · rw [h] at h1
    cases h1

/-- The slot that a `CBPUT` names (R297): slots do not share an offset. -/
theorem putSlot_eq {k : CBuf} {j i : Nat} (hs : 0 < k.ssize) (hi : i < k.rsv) (hj : j = (k.head + k.filled + i) % k.count)
    (hd : k.done.testBit j = false) : k.putSlot (k.base + j * k.ssize) = some j := by
  have hslot : ∀ i, (k.slot i == k.base + j * k.ssize && !k.done.testBit i) = true → i = j := by
    intro i h
    simp only [CBuf.slot, Bool.and_eq_true, beq_iff_eq, Nat.add_left_cancel_iff] at h
    exact Nat.eq_of_mul_eq_mul_right hs h.1
  have hmem : j ∈ (List.range k.rsv).map fun i => (k.head + k.filled + i) % k.count :=
    hj ▸ List.mem_map_of_mem (List.mem_range.2 hi)
  unfold CBuf.putSlot
  cases hf : List.find? _ ((List.range k.rsv).map fun i => (k.head + k.filled + i) % k.count) with
  | none => exact absurd (List.find?_eq_none.1 hf j hmem) (by simp [CBuf.slot, hd])
  | some q => exact congrArg some (hslot q (by simpa using List.find?_some hf))

/-! A sub-team that waits at a buffer stands where it is while others of its team fuse (R122 to R124). -/

/-- The sub-teams of number n, of which there is one, wait at a buffer, at `pc`. -/
structure Stands (n : Nat) (w : Wait) (pc : W64) (l : List Record) : Prop where
  cb : w.isCb = true
  some : ∃ r ∈ l, r.num = n
  all : ∀ r ∈ l, r.num = n → r.wait = w ∧ r.pc = pc

section
variable {n now : Nat} {w : Wait} {pc : W64} {l : List Record} {t : Team}

theorem Stands.map (h : Stands n w pc l) {g : Record → Record} (hnum : ∀ r, (g r).num = r.num)
    (hg : ∀ r, r.num = n → r.wait = w → (g r).wait = w ∧ (g r).pc = r.pc) : Stands n w pc (l.map g) := by
  refine ⟨h.cb, ?_, fun r hr hn => ?_⟩
  · obtain ⟨r, hr, hn⟩ := h.some
    exact ⟨g r, List.mem_map_of_mem hr, (hnum r).trans hn⟩
  · obtain ⟨r, hmem, rfl⟩ := List.mem_map.1 hr
    have hn' : r.num = n := (hnum r).symm.trans hn
    obtain ⟨hw, hpc⟩ := h.all r hmem hn'
    obtain ⟨hw', hpc'⟩ := hg r hn' hw
    exact ⟨hw', hpc'.trans hpc⟩

theorem Stands.filter (h : Stands n w pc l) {q : Record → Bool} (hq : ∀ r, r.num = n → q r = true) : Stands n w pc (l.filter q) := by
  obtain ⟨r, hr, hn⟩ := h.some
  exact ⟨h.cb, ⟨r, List.mem_filter.2 ⟨hr, hq r hn⟩, hn⟩, fun r hr => h.all r (List.mem_filter.1 hr).1⟩

/-- A sub-team that is ready, or waits at a `JOIN`, is another. -/
theorem Stands.ne (h : Stands n w pc l) {r : Record} (hr : r ∈ l) (hw : (r.wait == .ready || r.wait.isJoin) = true) : r.num ≠ n := by
  intro hn
  have hcb := h.cb
  rw [← (h.all r hr hn).1] at hcb
  cases hwait : r.wait <;> rw [hwait] at hw hcb <;> simp [Wait.isJoin, Wait.isCb] at hw hcb

theorem dropArm_stands (fuel : Nat) : ∀ {t : Team} (e : Nat), Stands n w pc t.records → Stands n w pc (dropArm t e fuel).records := by
  induction fuel with
  | zero => exact fun _ h => h
  | succ k ih =>
    intro t e h
    rw [dropArm]
    split
    · exact h
    · split
      · exact ih _ h
      · split
        · refine h.map (fun r => ?_) fun r _ hw => ?_
          · split <;> rfl
          · split <;> exact ⟨hw, rfl⟩
        · exact h

theorem mergeRec_stands {keep gone : Record} (p : W64) (v : Wait) (h : Stands n w pc t.records) (hk : keep.num ≠ n) (hg : gone.num ≠ n) :
    Stands n w pc (mergeRec now keep gone p v t).records := by
  unfold mergeRec
  extract_lets join t₁
  have hfilter : Stands n w pc (t.records.filter fun r => r.num != gone.num) := h.filter fun r hr => by
    rw [hr]
    exact bne_iff_ne.2 fun hn => hg hn.symm
  have hjoin : Stands n w pc t₁.records := by
    refine hfilter.map (fun r => ?_) fun r hr hw => ?_
    · simp only [join]; split <;> rfl
    · have hsame : join r = r := if_neg fun hn : r.num = keep.num => hk (hn.symm.trans hr)
      rw [hsame]
      exact ⟨hw, rfl⟩
  have hdrain : Stands n w pc t₁.drain.records := hjoin.map (fun _ => rfl) fun _ _ hw => ⟨hw, rfl⟩
  refine (dropArm_stands 64 gone.parent hdrain).map (fun r => ?_) fun r hr hw => ?_
  · unfold wakeRec; split <;> rfl
  · have hcb := h.cb
    have hnot : (w.isSplit || w.isHeldJoin) = false := by cases w <;> simp_all [Wait.isCb, Wait.isSplit, Wait.isHeldJoin]
    have hsame : wakeRec (fun w => w.isSplit || w.isHeldJoin) now r = r := if_neg (by simp only [hw, hnot]; decide)
    rw [hsame]
    exact ⟨hw, rfl⟩

theorem fusePair_mem {a b : Record} : ∀ {l : List Record}, fusePair l = some (a, b) → a ∈ l ∧ b ∈ l ∧ canFuse a b = true
  | [], h => nomatch h
  | c :: l, h => by
    rw [fusePair] at h
    split at h
    · next d hd =>
      simp only [Option.some.injEq, Prod.mk.injEq] at h
      obtain ⟨rfl, rfl⟩ := h
      exact ⟨List.mem_cons_self, List.mem_cons_of_mem _ (List.mem_of_find?_eq_some hd), List.find?_some hd⟩
    · obtain ⟨ha, hb, hc⟩ := fusePair_mem h
      exact ⟨List.mem_cons_of_mem _ ha, List.mem_cons_of_mem _ hb, hc⟩

theorem fuseAll_stands (fuel : Nat) : ∀ {t : Team}, Stands n w pc t.records → Stands n w pc (fuseAll now fuel t).records := by
  induction fuel with
  | zero => exact id
  | succ k ih =>
    intro t h
    rw [fuseAll]
    split
    · exact h
    · next a b hp =>
      obtain ⟨ha, hb, hc⟩ := fusePair_mem hp
      simp only [canFuse, Bool.and_eq_true] at hc
      have hna := h.ne ha hc.1.2
      have hnb := h.ne hb hc.2
      refine ih (mergeRec_stands _ _ h ?_ ?_) <;> split <;> assumption

theorem joinOver_isJoin {r : Record} (h : joinOver t r = true) : r.wait.isJoin = true := by
  unfold joinOver at h
  split at h
  · next hw => rw [hw]; rfl
  · cases h

/-- The sub-teams that a `JOIN` fuses wait at it. -/
theorem joinKids_mem {r k : Record} (hr : r ∈ t.records) (h : joinOver t r = true) (hk : k ∈ joinKids t r) :
    k ∈ t.records ∧ k.wait.isJoin = true := by
  have hself : r ∈ t.records ∧ r.wait.isJoin = true := ⟨hr, joinOver_isJoin h⟩
  unfold joinKids at hk
  split at hk
  · next e hw =>
    split at hk
    · next hany =>
      simp only [joinOver, hw, hany, Bool.not_true, Bool.false_or, Bool.and_eq_true, List.all_eq_true] at h
      obtain ⟨⟨-, hwk⟩, -⟩ := h.2 k hk
      rw [beq_iff_eq] at hwk
      exact ⟨(List.mem_filter.1 hk).1, by rw [hwk]; rfl⟩
    · rw [List.mem_singleton.1 hk]
      exact hself
  · rw [List.mem_singleton.1 hk]
    exact hself

theorem mergeRecs_stands {keep : Record} (hk : keep.num ≠ n) (ks : List Record) : ∀ {t : Team}, Stands n w pc t.records →
    (∀ k ∈ ks, k.num ≠ n) → Stands n w pc (ks.foldl (fun t k => mergeRec now keep k keep.pc .ready t) t).records := by
  induction ks with
  | nil => exact fun h _ => h
  | cons k ks ih =>
    exact fun h hks => ih (mergeRec_stands _ _ h hk (hks k List.mem_cons_self)) fun q hq => hks q (List.mem_cons_of_mem _ hq)

theorem modRec_stands {k : Nat} {g : Record → Record} (hg : ∀ r, (g r).num = r.num) (hk : k ≠ n) (h : Stands n w pc t.records) :
    Stands n w pc (t.modRec k g).records := by
  refine h.map (fun r => ?_) fun r hr hw => ?_
  · split
    · exact hg r
    · rfl
  · rw [if_neg fun hn : r.num = k => hk (hn.symm.trans hr)]
    exact ⟨hw, rfl⟩

theorem settleJoins_stands (fuel : Nat) : ∀ {t : Team}, Stands n w pc t.records → Stands n w pc (settleJoins now fuel t).records := by
  induction fuel with
  | zero => exact id
  | succ k ih =>
    intro t h
    rw [settleJoins]
    split
    · exact h
    · next r hf =>
      have hr := List.mem_of_find?_eq_some hf
      have hover := List.find?_some hf
      have hne : ∀ q ∈ joinKids t r, q.num ≠ n := by
        intro q hq
        obtain ⟨hm, hj⟩ := joinKids_mem hr hover hq
        exact h.ne hm (by rw [hj, Bool.or_true])
      generalize joinKids t r = ks at hne
      cases ks with
      | nil => exact h
      | cons keep rest =>
        have hkeep : keep.num ≠ n := hne keep List.mem_cons_self
        have hrest : ∀ q ∈ rest, q.num ≠ n := fun q hq => hne q (List.mem_cons_of_mem _ hq)
        refine ih ?_
        split
        · exact modRec_stands (fun _ => rfl) hkeep (mergeRecs_stands hkeep rest h hrest)
        · exact modRec_stands (fun _ => rfl) hkeep h

theorem fuse_stands (h : Stands n w pc t.records) : Stands n w pc (t.fuse now).records := by
  unfold Team.fuse
  extract_lets t₁ t₂
  have h1 : Stands n w pc t₁.records := by
    simp only [t₁]
    split
    · exact h
    · exact fuseAll_stands 32 h
  have h2 : Stands n w pc t₂.records := settleJoins_stands 32 h1
  split
  · split
    · exact h2
    · exact fuseAll_stands 32 h2
  · exact h1

/-- What follows an instruction's effect leaves the sub-team where it waits. -/
theorem ended_stands (h : Stands n w pc t.records) (hp : t.probe = none) (fs : List (Form × Ctx)) :
    ∃ r, (t.ended fs now).rec? n = some r ∧ r.wait = w ∧ r.pc = pc := by
  have hrec : Stands n w pc (t.ended fs now).records := by
    rw [ended_calm t fs now hp]
    refine fuse_stands ?_
    rw [(congrArg Team.records (onlyX_steps fs t)).trans rfl]
    exact h
  obtain ⟨r, hr, hn⟩ := hrec.some
  cases hf : (t.ended fs now).rec? n with
  | none => exact absurd (List.find?_eq_none.1 hf r hr) (by simp [hn])
  | some q => exact ⟨q, rfl, hrec.all q (List.mem_of_find?_eq_some hf) (by simpa using List.find?_some hf)⟩

end

end Sys2Proof.Machine
end

section
/-! The circular-buffer instructions (R290 to R300, R307). -/

namespace Sys2Proof.Machine

section
variable {ins : Instr} {iss : Iss} {s t : State} {e : Env} {c : Ctx} {f : Form} {eff : Ctx → Res} {bid off n : Nat} {B : Block} {d : Opnd}
  {val : Nat → Nat} {P : Block → Block} {g : Bool} {a : Opnd}

/-! An instruction that changes a block, acquires, and then writes its destination. -/

theorem putReg_inherit (c : Ctx) (d : Opnd) (k l : Nat) (v : W32) (t u : Team) :
    c.putReg d k l v (t.inherit u) = (c.putReg d k l v t).inherit u := by
  cases d <;> rfl

theorem foldl_inherit_comm {α : Type} {h : Team → α → Team} {u : Team} (hh : ∀ t x, h (t.inherit u) x = (h t x).inherit u) (l : List α) :
    ∀ t : Team, l.foldl h (t.inherit u) = (l.foldl h t).inherit u := by
  induction l with
  | nil => exact fun _ => rfl
  | cons x l ih => exact fun t => (congrArg (l.foldl h) (hh t x)).trans (ih _)

theorem putLane_inherit (c : Ctx) (d : Opnd) (n l v : Nat) (t u : Team) :
    c.putLane d n l v (t.inherit u) = (c.putLane d n l v t).inherit u :=
  foldl_inherit_comm (fun t k => putReg_inherit c d k l _ t u) _ t

theorem putTeam_inherit (c : Ctx) (d : Opnd) (n : Nat) (val : Nat → Nat) (t u : Team) :
    c.putTeam d n val (t.inherit u) = (c.putTeam d n val t).inherit u := by
  cases d with
  | s r => exact putLane_inherit c (.s r) n 0 (val 0) t u
  | zero => rfl
  | _ => exact foldl_inherit_comm (fun t l => putLane_inherit c _ n l (val l) t u) _ t

theorem putTeam_inherits (c : Ctx) (d : Opnd) (n : Nat) (val : Nat → Nat) (us : List Team) : ∀ t : Team,
    c.putTeam d n val (us.foldl Team.inherit t) = us.foldl Team.inherit (c.putTeam d n val t) := by
  induction us with
  | nil => exact fun _ => rfl
  | cons u us ih => exact fun t => (ih (t.inherit u)).trans (congrArg (us.foldl Team.inherit) (putTeam_inherit c d n val t u))

theorem OnlyScr.seen {b b' : Block} (h : OnlyScr b b') : SeenAs b b' := by
  rw [h]
  exact ⟨rfl, rfl, rfl, rfl, rfl, rfl⟩

theorem OnlyScr.scratchLen {b b' : Block} (h : OnlyScr b b') : b'.scratchLen = b.scratchLen := by rw [h]

theorem acquirePut_effect {sc : Scope} (hr : Runs f iss s e c) (hx : exec ins s = issueForm f iss eff s) (hB : s.block? bid = some B)
    (hP : ∀ b, OnlyScr b (P b))
    (he : eff (c.begun f e iss) = .done (c.putOn c.lanes d n val (acquireAt ((c.begun f e iss).s.modBlock bid P) e.who sc))) :
    ∃ t ts ts' u, exec ins s = .next t ∧ t.team? e.who.bid e.who.team = some u ∧ Noted f e c d n val u ∧ Acquired s e sc u ∧
      t.block? bid = some { P { B with teams := ts } with teams := ts' } ∧
      (∀ bd i, bd ≠ bid → scrByte t bd i = scrByte s bd i) ∧ t.mem = s.mem ∧ t.launches = s.launches := by
  obtain ⟨F, hF, hblocks, hlaunches⟩ := begun_seen (G := fun t => t) hr fun _ => rfl
  rw [Ctx.modTeam, modTeam_id] at hblocks hlaunches
  have hseen : ∀ b, SeenAs b (if (F b).bid = bid then P (F b) else F b) := by
    intro b
    split
    · exact (hF b).trans (hP _).seen
    · exact hF b
  obtain ⟨us, hacq, hus⟩ := acquireAt_hand (s1 := (c.begun f e iss).s.modBlock bid P) hr sc hseen
    (by rw [State.modBlock, hblocks, List.map_map]; rfl) hlaunches
  have hG : ∀ t : Team, (us.foldl Team.inherit (c.putTeam d n val t)).idx = t.idx := fun t =>
    (foldl_inherit_onlyNotes us _).idx.trans (putTeam_idx c d n val t)
  have heff : eff (c.begun f e iss) = .done (c.modTeam ((c.begun f e iss).s.modBlock bid P) fun t => us.foldl Team.inherit (c.putTeam d n val t)) := by
    rw [he, hacq, putOn_eq, Ctx.modTeam, Ctx.modTeam, State.modTeam_modTeam _ _ _ _ _ fun t => (foldl_inherit_onlyNotes us t).idx]
    exact congrArg (fun G => Res.done (c.modTeam _ G)) (funext fun t => putTeam_inherits c d n val us t)
  obtain ⟨t, ts, ts', ht, hteam, hBt, hother, hmem, -, hla⟩ := blockWrite_effect hr hx hB (fun b => ⟨(hP b).bid, (hP b).teams⟩) hG heff
  exact ⟨t, ts, ts', _, ht, hteam, noted_team (foldl_inherit_onlyNotes us) hr d n val s.time, acquired_team hr hus d n val s.time, hBt, hother, hmem, hla⟩

/-! Buffers at which nothing waits. -/

theorem serveCb_idle (h : ∀ b, s.block? bid = some b → b.cbq = []) : serveCb s bid off = s := by
  have hnone : ∀ b, s.block? bid = some b → ∀ acq, firstWaiter b off acq = none := by
    intro b hb acq
    rw [firstWaiter, h b hb]
    rfl
  have hres : serveRes s bid off 64 = s := by
    rw [serveRes]
    cases hb : s.block? bid with
    | none => rfl
    | some b => simp only [hnone b hb]
  have hacq : serveAcq s bid off 64 = s := by
    rw [serveAcq]
    cases hb : s.block? bid with
    | none => rfl
    | some b => simp only [hnone b hb]
  rw [serveCb, hres, hacq]

theorem serveCb_modBlock (hidle : ∀ b, s.block? bid = some b → b.cbq = []) (hP : ∀ b, OnlyScr b (P b)) :
    serveCb (s.modBlock bid P) bid off = s.modBlock bid P := by
  refine serveCb_idle fun b hb => ?_
  rw [State.block?_modBlock _ _ _ _ fun b => (hP b).bid, Option.map_eq_some_iff] at hb
  obtain ⟨b0, hb0, rfl⟩ := hb
  rw [if_pos rfl, (hP b0).cbq]
  exact hidle b0 hb0

theorem begun_idle (hr : Runs f iss s e c) (hB : s.block? bid = some B) (hq : B.cbq = []) :
    ∀ b, (c.begun f e iss).s.block? bid = some b → b.cbq = [] := by
  intro b hb
  obtain ⟨ts, hB'⟩ := begun_block hr hB
  obtain rfl := Option.some.inj (hb.symm.trans hB')
  exact hq

theorem fillSlot_onlyScr (b : Block) (off i tag : Nat) : OnlyScr b (fillSlot b off i tag) := by
  unfold fillSlot
  split
  · exact .refl b
  · next k _ =>
    extract_lets b1
    have h1 : OnlyScr b b1 := by
      unfold b1
      split
      · exact .refl b
      · exact putScratch_onlyScr ..
    exact h1.trans (putCb_onlyScr ..)

/-! The effects on a well-formed descriptor. -/

theorem onCb_at (hbuf : c.e.bufAt (c.objAddr g a) = .ok (bid, off)) (hB : c.e.s.block? bid = some B)
    (hwell : (cbufOf (B.num off 32)).broken B.scratchLen = false) (act : Block → Nat → CBuf → Res) :
    c.onCb g a act = act B off (cbufOf (B.num off 32)) := by
  simp only [Ctx.onCb, hbuf, hB, getCb, hwell, Bool.false_eq_true, if_false]

theorem bid_of_block (hB : s.block? bid = some B) : B.bid = bid := by simpa using List.find?_some hB

theorem cbBehind_idle (hq : B.cbq = []) (acq : Bool) : c.cbBehind B off acq = false := by
  rw [Ctx.cbBehind, firstWaiter, hq]
  rfl

theorem bufAt_ok {addr : Nat} (h : e.bufAt addr = .ok (bid, off)) :
    windowOf addr = true ∧ resolveWindow e.s e.la.hdr e.blk addr 32 = .ok (bid, off) ∧ off % 32 = 0 := by
  unfold Env.bufAt at h
  split at h
  · next hw =>
    split at h
    · cases h
    · next r hr =>
      split at h
      · next h0 =>
        obtain rfl := Except.ok.inj h
        exact ⟨hw, hr, h0⟩
      · cases h
  · cases h

theorem cbini_eff {tags : Bool} {m : Nat} {b x : Opnd} (hbuf : c.e.bufAt (c.objAddr g a) = .ok (bid, off)) (hB : c.e.s.block? bid = some B)
    (hq : B.cbq = []) (hbase : (c.uni 1 b).toNat % 128 = 0) (hsize : (c.uni 2 x).toNat % 128 = 0) (hpos : 0 < (c.uni 2 x).toNat)
    (hfit : (c.uni 1 b).toNat + (m + 1) * (c.uni 2 x).toNat + (if tags then 4 * (m + 1) else 0) ≤ B.scratchLen) :
    (opCbini g tags m a b x).eff c = .done (c.s.modBlock bid fun t => putCb t off ⟨(c.uni 1 b).toNat, (c.uni 2 x).toNat, m + 1, m + 1, 0, 0, 0,
      0, 0, if tags then (c.uni 1 b).toNat + (m + 1) * (c.uni 2 x).toNat else noTags, 0⟩) := by
  obtain ⟨hw, hres, h32⟩ := bufAt_ok hbuf
  have hlen : ¬ (B.scratchLen < (c.uni 1 b).toNat + (m + 1) * (c.uni 2 x).toNat ∨ tags = true ∧ B.scratchLen <
      (if tags then (c.uni 1 b).toNat + (m + 1) * (c.uni 2 x).toNat else noTags) + 4 * (m + 1)) := by
    cases tags <;> simp at hfit ⊢ <;> omega
  have hbad : ¬ ((c.uni 1 b).toNat % 128 ≠ 0 ∨ (c.uni 2 x).toNat = 0 ∨ (c.uni 2 x).toNat % 128 ≠ 0 ∨ (B.cbq.any fun w => w.off == off) = true) := by
    simp only [hq, List.any_nil, Bool.false_eq_true, or_false]
    omega
  simp only [opCbini, hw, hres, hB, if_true]
  rw [if_neg hlen, if_neg (by omega), if_neg hbad]

/-! A sub-team that waits at a buffer. -/

/-- A block with the issuing sub-team in the order of a buffer. -/
def Block.enqueued (w : CbWaiter) (b : Block) : Block := if b.cbq.contains w then b else { b with cbq := b.cbq ++ [w] }

theorem enqueued_kept (w : CbWaiter) (b : Block) : (b.enqueued w).bid = b.bid ∧ (b.enqueued w).teams = b.teams := by
  unfold Block.enqueued
  split <;> exact ⟨rfl, rfl⟩

theorem enqueued_scratch (w : CbWaiter) (b : Block) : (b.enqueued w).scratch = b.scratch := by
  unfold Block.enqueued
  split <;> rfl

theorem enqueued_first (w : CbWaiter) {b : Block} (h : b.cbq = []) : (b.enqueued w).cbq = [w] := by
  rw [Block.enqueued, h]
  rfl

/-- What a wait at a buffer makes of its team. -/
def Ctx.waitTeam (c : Ctx) (w : Wait) (t : Team) : Team :=
  (t.modRec c.e.who.sub fun r => { r with pc := c.e.rcd.pc }).waitAt c.e.who.sub w

theorem waitTeam_stands {w : Wait} {t : Team} (hw : w.isCb = true) (h : ∃ r ∈ t.records, r.num = c.e.who.sub) :
    Stands c.e.who.sub w c.e.rcd.pc (c.waitTeam w t).records := by
  have hd : w.drains = true := by cases w <;> first | rfl | cases hw
  let step : Record → Record := fun r => if r.num = c.e.who.sub then { r with pc := c.e.rcd.pc, pend := [], wait := w } else { r with pend := [] }
  have hrecs : (c.waitTeam w t).records = t.records.map step := by
    simp only [Ctx.waitTeam, Team.waitAt, hd, if_true, Team.modRec, Team.drain, List.map_map]
    refine List.map_congr_left fun r _ => ?_
    by_cases hn : r.num = c.e.who.sub <;> simp [step, hn]
  rw [hrecs]
  refine ⟨hw, ?_, fun r hr hn => ?_⟩
  · obtain ⟨r, hr, hn⟩ := h
    refine ⟨step r, List.mem_map_of_mem hr, ?_⟩
    simp only [step, if_pos hn]
    exact hn
  · obtain ⟨q, -, rfl⟩ := List.mem_map.1 hr
    by_cases hq : q.num = c.e.who.sub
    · simp [step, hq]
    · simp [step, hq] at hn

theorem cbWait_effect {w : Wait} {acq : Bool} (hr : Runs f iss s e c) (hx : exec ins s = issueForm f iss eff s) (hB : s.block? bid = some B)
    (hq : B.cbq = []) (hw : w.isCb = true)
    (he : eff (c.begun f e iss) = .done ((c.begun f e iss).waitNext w ((c.begun f e iss).s.modBlock bid (Block.enqueued ⟨off, acq, e.who, none⟩)))) :
    ∃ t, exec ins s = .next t ∧ ∃ B' u r, t.block? bid = some B' ∧ B'.cbq = [⟨off, acq, e.who, none⟩] ∧
      t.team? e.who.bid e.who.team = some u ∧ u.rec? e.who.sub = some r ∧ r.wait = w ∧ r.pc = e.rcd.pc ∧
      t.mem = s.mem ∧ t.launches = s.launches ∧ ∀ bd k, scrByte t bd k = scrByte s bd k := by
  obtain ⟨rfl, -, -⟩ := hr.ctx
  obtain ⟨t, ts, ts', ht, hteam, hBt, hother, hmem, -, hla⟩ := blockWrite_effect (G := c.waitTeam w) hr hx hB (enqueued_kept _)
    (fun t => waitAt_idx _ _ _) he
  have hmem0 : ∃ r ∈ (c.e.team.begun [(f, c)] c.e iss).records, r.num = c.e.who.sub := by
    rw [begun_records]
    exact ⟨_, List.mem_map_of_mem (List.mem_of_find?_eq_some (getEnv_rec hr.env)), by rw [if_pos (getEnv_num hr.env)]; exact getEnv_num hr.env⟩
  have hprobe : (c.waitTeam w (c.e.team.begun [(f, c)] c.e iss)).probe = none := by
    refine Eq.trans ?_ (begun_noProbe hr)
    unfold Ctx.waitTeam Team.waitAt
    split <;> rfl
  obtain ⟨r, hrec, hwr, hpc⟩ := ended_stands (now := s.time) (waitTeam_stands hw hmem0) hprobe [(f, c.begun f c.e iss)]
  refine ⟨t, ht, _, _, r, hBt, enqueued_first _ hq, hteam, hrec, hwr, hpc, hmem, hla, fun bd k => ?_⟩
  by_cases hbd : bd = bid
  · subst hbd
    rw [scrByte, hBt, scrByte, hB]
    exact congrArg (fun m => byteAt m k) (enqueued_scratch _ _)
  · exact hother bd k hbd

/-- The descriptor and the other bytes after a change of a block that writes it. -/
theorem cbSet_state {k : CBuf} {ts ts' : List Team} (hB : s.block? bid = some B) (hset : CbSet off k { B with teams := ts } (P { B with teams := ts }))
    (hBt : t.block? bid = some { P { B with teams := ts } with teams := ts' }) (hother : ∀ bd i, bd ≠ bid → scrByte t bd i = scrByte s bd i) :
    (∃ B', t.block? bid = some B' ∧ cbufOf (B'.num off 32) = k) ∧
      ∀ bd i, (bd ≠ bid ∨ ¬ (off ≤ i ∧ i < off + 32)) → scrByte t bd i = scrByte s bd i := by
  refine ⟨⟨_, hBt, hset.buf⟩, fun bd i hi => ?_⟩
  by_cases hbd : bd = bid
  · subst hbd
    rw [scrByte, hBt, scrByte, hB]
    exact hset.out i (by have := hi.resolve_left fun h => h rfl; omega)
  · exact hother bd i hbd

/-- A sub-team's part that changes nothing of its team but its issue. -/
theorem kept_wrote (hr : Runs f iss s e c) (now : Nat) :
    Wrote f e c .zero 0 (fun _ => 0) ((e.team.begun [(f, c)] e iss).ended [(f, c.begun f e iss)] now) :=
  wrote_team f e iss c .zero 0 (fun _ => 0) now hr.ctx.1 hr.noProbe hr.lane

section
variable {cb : CBuf} (hbuf : c.e.bufAt (c.objAddr g a) = .ok (bid, off)) (hB : c.e.s.block? bid = some B)
  (hcb : cbufOf (B.num off 32) = cb) (hwell : cb.broken B.scratchLen = false) (hq : B.cbq = [])
  (hidle : ∀ b, c.s.block? bid = some b → b.cbq = [])
include hbuf hB hcb hwell

theorem cbst_eff (hacq : cb.acq < 256) : (opCbst g d a).eff c =
    .done (c.putUni d 1 (2 ^ 24 * cb.acq + 2 ^ 16 * cb.rsv + 2 ^ 8 * cb.filled + cb.free) c.s) := by
  subst hcb
  refine (onCb_at hbuf hB hwell _).trans ?_
  rw [Nat.mod_eq_of_lt hacq]


theorem cbres_wait_eff (h0 : cb.free = 0) : (opCbres g d a).eff c =
    .done (c.waitNext (.cbres (w64 (c.objAddr g a)) (sNum d) (c.e.rcd.pc + w64 c.iss.len))
      (c.s.modBlock bid (Block.enqueued ⟨off, false, c.e.who, none⟩))) := by
  subst hcb
  obtain rfl := bid_of_block hB
  exact (onCb_at hbuf hB hwell _).trans (if_pos (.inl h0))

theorem cbacq_wait_eff {tag : Bool} (h0 : cb.filled = 0) : (opCbacq g tag d a).eff c =
    .done (c.waitNext (.cbacq (w64 (c.objAddr g a)) (sNum d) tag (c.e.rcd.pc + w64 c.iss.len))
      (c.s.modBlock bid (Block.enqueued ⟨off, true, c.e.who, none⟩))) := by
  subst hcb
  obtain rfl := bid_of_block hB
  exact (onCb_at hbuf hB hwell _).trans (if_pos (.inl h0))

include hidle

theorem cbrel_eff (h0 : 0 < cb.acq) : (opCbrel g a).eff c = .done (c.s.modBlock bid fun t => putCb t off { cb with free := cb.free + 1 }) := by
  subst hcb
  obtain rfl := bid_of_block hB
  refine (onCb_at hbuf hB hwell _).trans ((if_neg (Nat.ne_of_gt h0)).trans ?_)
  exact congrArg Res.done (serveCb_modBlock hidle fun b => putCb_onlyScr b off _)

theorem cbput_eff {b x : Opnd} {j : Nat} (h : cb.putSlot (c.uni 1 b).toNat = some j) : (opCbput g a b x).eff c =
    .done (c.s.modBlock bid fun t => fillSlot t off j (c.uni 2 x).toNat) := by
  subst hcb
  obtain rfl := bid_of_block hB
  refine (onCb_at hbuf hB hwell _).trans ?_
  rw [h]
  exact congrArg Res.done (serveCb_modBlock hidle fun b => fillSlot_onlyScr b off _ _)

include hq

theorem cbres_eff (h0 : 0 < cb.free) : (opCbres g d a).eff c = .done (c.putUni d 1 (cb.slot cb.tail)
    (acquireAt (c.s.modBlock bid fun t => putCb t off cb.reserve.2) c.e.who (objScope g))) := by
  subst hcb
  obtain rfl := bid_of_block hB
  refine (onCb_at hbuf hB hwell _).trans ((if_neg ?_).trans ?_)
  · rw [cbBehind_idle hq]
    simp only [Bool.false_eq_true, or_false]
    omega
  · exact congrArg (fun s => Res.done (c.putUni d 1 _ (acquireAt s c.e.who (objScope g))))
      (serveCb_modBlock hidle fun b => putCb_onlyScr b off _)

theorem cbacq_eff {tag : Bool} (h0 : 0 < cb.filled) : (opCbacq g tag d a).eff c =
    .done (c.putUni d (if tag then 2 else 1) (cb.slot cb.head + 2 ^ 32 * tagAt B cb cb.head)
      (acquireAt (c.s.modBlock bid fun t => putCb t off { cb with head := (cb.head + 1) % cb.count, filled := cb.filled - 1 }) c.e.who
        (objScope g))) := by
  subst hcb
  obtain rfl := bid_of_block hB
  refine (onCb_at hbuf hB hwell _).trans ((if_neg ?_).trans ?_)
  · rw [cbBehind_idle hq]
    simp only [Bool.false_eq_true, or_false]
    omega
  · exact congrArg (fun s => Res.done (c.putUni d (if tag then 2 else 1) _ (acquireAt s c.e.who (objScope g))))
      (serveCb_modBlock hidle fun b => putCb_onlyScr b off _)

end

end

end Sys2Proof.Machine

open Sys2Proof Sys2Proof.Machine

/-- Settles O31: on a buffer at which nothing waits each instruction is one write of the descriptor, with a tag before it, or a wait. -/
theorem circularBuffers : Obligations.CircularBuffers := by
  unfold Obligations.CircularBuffers
  intro h g tags tag n1 d a b x i iss s e c bid off B j
  extract_lets form addr cb next slot acq word tagged well outside own becomes base size n top clear after kept got waits
  intro hbuf hB hq hclear
  have hplain : ∀ ts, Block.plainAt { B with teams := ts } off 32 := fun ts => hclear
  have hput : ∀ k : CBuf, k.Fits → ∀ ts, CbSet off k { B with teams := ts } (putCb { B with teams := ts } off k) :=
    fun k hk ts => putCb_cbSet hk (hplain ts)
  have hstored : ∀ {t : State} {k : CBuf} {ts ts' : List Team}, k.Fits → t.block? bid = some { putCb { B with teams := ts } off k with teams := ts' } →
      (∀ bd i, bd ≠ bid → scrByte t bd i = scrByte s bd i) → t.mem = s.mem → t.launches = s.launches → outside t own ∧ becomes t k := by
    intro t k ts ts' hk hBt hother hmem hla
    obtain ⟨hbecomes, hout⟩ := cbSet_state (P := fun b => putCb b off k) hB (hput k hk ts) hBt hother
    exact ⟨⟨hmem, hla, hout⟩, hbecomes⟩
  have hBe : ∀ {f : Form} {iss : Iss}, Runs f iss s e c → c.e.s.block? bid = some B := by
    intro f iss hr
    obtain ⟨rfl, -, -⟩ := hr.ctx
    exact (getEnv_spec hr.env).1 ▸ hB
  have htagged : tagged = true ↔ cb.tags ≠ noTags := bne_iff_ne
  refine ⟨fun hr hbase hsize hpos htop hfit => ?_, fun hr hwell => ⟨fun hfree => ?_, fun hfree => ?_, ?_⟩,
    fun hr hwell hrsv hslot hturn hbit htag => ?_, fun hi hr hwell => ⟨fun hfull => ?_, fun hempty => ?_⟩, fun hi hr hwell hacq => ?_⟩
  · have hB' := hBe hr
    obtain ⟨rfl, -, -⟩ := hr.ctx
    have he := cbini_eff (c := c.begun (form [fB b 1, fC x 1] [] .zero) c.e (issOf h)) hbuf hB' hq hbase hsize hpos hfit
    obtain ⟨t, ts, ts', ht, hteam, hBt, hother, hmem, -, hla⟩ := blockWrite_effect (G := fun t => t) (ins := .cbini h g tags n1 a b x) hr rfl hB
      (fun b => ⟨(putCb_onlyScr b off _).bid, (putCb_onlyScr b off _).teams⟩) (fun _ => rfl) (he.trans (congrArg Res.done (modTeam_id _ _ _).symm))
    have hn : n < 2 ^ 8 := by have := n1.isLt; simp only [n]; omega
    have htg : (if tags then top else 2 ^ 32 - 1) < 2 ^ 32 := by split <;> omega
    obtain ⟨hout, hbecomes⟩ := hstored (new_fits (c.uni 1 b).isLt (c.uni 2 x).isLt hn htg) hBt hother hmem hla
    exact ⟨t, ht, ⟨_, hteam, kept_wrote hr s.time⟩, hout, hbecomes⟩
  · have hB' := hBe hr
    have hidle := begun_idle hr hB hq
    obtain ⟨rfl, -, -⟩ := hr.ctx
    have he := cbres_eff (d := d) (c := c.begun (form [] [fD d 1] .zero) c.e (issOf h)) hbuf hB' rfl hwell hq hidle hfree
    obtain ⟨t, ts, ts', u, ht, hteam, hnoted, hacq, hBt, hother, hmem, hla⟩ := acquirePut_effect (d := d) (n := 1) (ins := .cbres h g d a)
      (val := fun _ => slot cb.tail) hr rfl hB (fun b => putCb_onlyScr b off _) he
    obtain ⟨hout, hbecomes⟩ := hstored (reserve_fits (well_of hwell) hfree) hBt hother hmem hla
    exact ⟨t, ht, ⟨u, hteam, hnoted, hacq⟩, hout, hbecomes⟩
  · have hB' := hBe hr
    obtain ⟨rfl, -, -⟩ := hr.ctx
    have he := cbres_wait_eff (d := d) (c := c.begun (form [] [fD d 1] .zero) c.e (issOf h)) hbuf hB' rfl hwell hfree
    obtain ⟨t, ht, B', u, r, hBt, hcbq, hteam, hrec, hw, hpc, hmem, hla, hscr⟩ := cbWait_effect (ins := .cbres h g d a) hr rfl hB hq rfl he
    exact ⟨t, ht, B', u, r, hBt, hcbq, hteam, hrec, hw, hpc, hmem, hla, fun bd k _ => hscr bd k⟩
  · have hB' := hBe hr
    obtain ⟨rfl, -, -⟩ := hr.ctx
    exact writes_of hr rfl (cbst_eff (d := d) (c := c.begun (form [] [fD d 1] .zero) c.e (issOf h)) hbuf hB' rfl hwell (acq_lt (well_of hwell)))
  · have hB' := hBe hr
    have hidle := begun_idle hr hB hq
    obtain ⟨rfl, -, -⟩ := hr.ctx
    obtain ⟨k, hk, hj⟩ := hturn
    have hw := well_of hwell
    have hsl : cb.putSlot base = some j := by
      rw [hslot]
      exact putSlot_eq hw.ssize hk hj hbit
    have hjlt : j < cb.count := hj ▸ Nat.mod_lt _ hw.pos
    have he := cbput_eff (x := x) (c := c.begun (form [fB b 1, fC x 1] [] .zero) c.e (issOf h)) hbuf hB' rfl hwell hidle hsl
    obtain ⟨t, ts, ts', ht, hteam, hBt, hother, hmem, -, hla⟩ := blockWrite_effect (G := fun t => t) (ins := .cbput h g a b x) hr rfl hB
      (fun b => ⟨(fillSlot_onlyScr b off _ _).bid, (fillSlot_onlyScr b off _ _).teams⟩) (fun _ => rfl)
      (he.trans (congrArg Res.done (modTeam_id _ _ _).symm))
    have hscr := fillSlot_scratch (b := { B with teams := ts }) (j := j) (v := size) (cb := cb) rfl hwell (hplain ts) (fun h => htag (htagged.2 h))
    have hbecomes : ∀ k : CBuf, k.Fits → ({ cb with done := cb.done ||| 2 ^ j } : CBuf).settle 64 = k → becomes t k := by
      intro k hkf hset
      refine ⟨_, hBt, ?_⟩
      change cbufOf (numAt (fillSlot { B with teams := ts } off j size).scratch off 32) = k
      rw [hscr, hset]
      exact cbuf_setBytes hkf
    refine ⟨t, ht, ⟨_, hteam, kept_wrote hr s.time⟩, ⟨hmem, hla, fun bd i hi => ?_⟩, fun h hdis => ⟨_, hBt, ?_⟩, fun hne hclr => ?_, fun heq hnext => ?_⟩
    · by_cases hbd : bd = bid
      · subst hbd
        have hi := not_or.1 (hi.resolve_left fun h => h rfl)
        rw [scrByte, hBt, scrByte, hB]
        change byteAt (fillSlot { B with teams := ts } off j size).scratch i = _
        rw [hscr]
        exact fill_out hi.1 fun h => fun hword => hi.2 ⟨htagged.2 h, hword⟩
      · exact hother bd i hbd
    · change numAt (fillSlot { B with teams := ts } off j size).scratch word 4 = size
      rw [hscr, if_neg (htagged.1 h)]
      exact fill_tag (c.uni 2 x).isLt hdis
    · exact hbecomes _ (written_fits hw hjlt) (settle_ahead hne hclr 64)
    · exact hbecomes _ (filled_fits hw hrsv) (settle_turn hw heq hrsv hbit hnext 63)
  · have hB' := hBe hr
    have hidle := begun_idle hr hB hq
    obtain ⟨rfl, -, -⟩ := hr.ctx
    have he := cbacq_eff (tag := tag) (d := d) (c := c.begun (form [] [fD d (if tag then 2 else 1)] .ends) c.e iss) hbuf hB' rfl hwell hq hidle hfull
    obtain ⟨t, ts, ts', u, ht, hteam, hnoted, hacq, hBt, hother, hmem, hla⟩ := acquirePut_effect (d := d) (n := if tag then 2 else 1)
      (val := fun _ => cb.slot cb.head + 2 ^ 32 * tagAt B cb cb.head) hr (hi.run (o := opCbacq g tag d a) rfl rfl nofun) hB
      (fun b => putCb_onlyScr b off _) he
    obtain ⟨hout, hbecomes⟩ := hstored (acquired_fits (well_of hwell)) hBt hother hmem hla
    have htagv : tagAt B cb cb.head = if tagged = true then B.num (cb.tags + 4 * cb.head) 4 else 0 := by
      by_cases h0 : cb.tags = noTags
      · rw [tagAt, if_pos h0, if_neg (by rw [htagged]; exact fun hn => hn h0)]
      · rw [tagAt, if_neg h0, if_pos (htagged.2 h0)]
    rw [htagv] at hnoted
    exact ⟨t, ht, hout, ⟨u, hteam, hnoted, hacq⟩, hbecomes⟩
  · have hB' := hBe hr
    obtain ⟨rfl, -, -⟩ := hr.ctx
    have he := cbacq_wait_eff (tag := tag) (d := d) (c := c.begun (form [] [fD d (if tag then 2 else 1)] .ends) c.e iss) hbuf hB' rfl hwell hempty
    obtain ⟨t, ht, B', u, r, hBt, hcbq, hteam, hrec, hw, hpc, hmem, hla, hscr⟩ := cbWait_effect hr
      (hi.run (o := opCbacq g tag d a) rfl rfl nofun) hB hq rfl he
    exact ⟨t, ht, B', u, r, hBt, hcbq, hteam, hrec, hw, hpc, hmem, hla, fun bd k _ => hscr bd k⟩
  · have hB' := hBe hr
    have hidle := begun_idle hr hB hq
    obtain ⟨rfl, -, -⟩ := hr.ctx
    have he := cbrel_eff (c := c.begun (form [] [] .zero) c.e iss) hbuf hB' rfl hwell hidle hacq
    obtain ⟨t, ts, ts', ht, hteam, hBt, hother, hmem, -, hla⟩ := blockWrite_effect (G := fun t => t) hr (hi.run (o := opCbrel g a) rfl rfl nofun) hB
      (fun b => ⟨(putCb_onlyScr b off _).bid, (putCb_onlyScr b off _).teams⟩) (fun _ => rfl) (he.trans (congrArg Res.done (modTeam_id _ _ _).symm))
    obtain ⟨hout, hbecomes⟩ := hstored (released_fits (well_of hwell) hacq) hBt hother hmem hla
    exact ⟨t, ht, ⟨_, hteam, kept_wrote hr s.time⟩, hout, hbecomes⟩

end

section
/-! Stores (R206, R207, R209): what one write leaves of every byte, and the writes of an instruction's lanes in turn. -/

namespace Sys2Proof.Machine

/-! Whose memory a place is: its number says it (R239). -/

/-- Whose memory a number in `State.mem` names. -/
def kindOf (loc : Nat) : HomeK :=
  if bitsOf loc 51 50 = 0 then .own else if bitsOf loc 51 50 = 1 then .host else .pod (bitsOf loc 50 41)

/-- A place whose kind is that of its number. -/
def Phys.Placed (p : Phys) : Prop := p.kind = kindOf p.loc

section
variable {s t u s1 : State} {key : Nat} {p q : Phys} {l : List Byte}

theorem xor_lt_eight {a b : Nat} (ha : a < 8) (hb : b < 8) : a ^^^ b < 8 := Nat.xor_lt_two_pow (n := 3) ha hb
theorem xor_lt_four {a b : Nat} (ha : a < 4) (hb : b < 4) : a ^^^ b < 4 := Nat.xor_lt_two_pow (n := 2) ha hb

theorem bitsOf_lt (n hi lo : Nat) : bitsOf n hi lo < 2 ^ (hi + 1 - lo) := Nat.mod_lt _ (Nat.two_pow_pos _)

theorem fastStack_lt (ilv pa : Nat) : fastStack ilv pa < 8 := by
  unfold fastStack
  split
  · exact xor_lt_eight (bitsOf_lt pa 38 36) (bitsOf_lt pa 14 12)
  · split
    · have h1 := bitsOf_lt pa 38 38
      have h2 := xor_lt_four (bitsOf_lt pa 37 36) (bitsOf_lt pa 13 12)
      norm_num at h1
      omega
    · exact bitsOf_lt pa 38 36

theorem fastLoc_lt (ilv pa : Nat) : 2 ^ 36 * fastStack ilv pa + pa % 2 ^ 36 < 2 ^ 39 := by
  have h1 := fastStack_lt ilv pa
  have h2 : pa % 2 ^ 36 < 2 ^ 36 := Nat.mod_lt _ (by decide)
  omega

theorem mapLoc_lt (ilv : Nat) {m : Nat} (h : m < 2 ^ 41) : mapLoc ilv m < 2 ^ 41 := by
  unfold mapLoc
  split
  · exact (fastLoc_lt ilv m).trans (by norm_num)
  · exact h

theorem bitsOf_top (n : Nat) : bitsOf n 51 50 = n / 2 ^ 50 % 4 := rfl

theorem bitsOf_dev (n : Nat) : bitsOf n 50 41 = n / 2 ^ 41 % 1024 := rfl

theorem kindOf_own {loc : Nat} (h : loc / 2 ^ 50 % 4 = 0) : kindOf loc = .own := if_pos h

theorem mapLoc_top (ilv : Nat) {pa : Nat} (h : pa / 2 ^ 50 % 4 = 0) : mapLoc ilv pa / 2 ^ 50 % 4 = 0 := by
  unfold mapLoc
  split
  · have hlt := fastLoc_lt ilv pa
    omega
  · exact h

theorem physOf_placed (s : State) (ilv key : Nat) (rol : Bool) (pa : Nat) : (physOf s ilv key rol pa).Placed := by
  unfold physOf
  extract_lets top dev m
  have hm : mapLoc ilv m < 2 ^ 41 := mapLoc_lt ilv (Nat.mod_lt _ (by decide))
  have hdev : dev < 1024 := bitsOf_lt pa 50 41
  split
  · next h => exact (kindOf_own (mapLoc_top ilv h)).symm
  · split
    · next h0 h1 => exact ((if_neg h0).trans (if_pos h1)).symm
    · split
      · have htop : mapLoc ilv m / 2 ^ 50 % 4 = 0 := by omega
        exact (kindOf_own htop).symm
      · have h51 : bitsOf (2 ^ 51 + 2 ^ 41 * dev + mapLoc ilv m) 51 50 ≠ 0 ∧ bitsOf (2 ^ 51 + 2 ^ 41 * dev + mapLoc ilv m) 51 50 ≠ 1 := by
          rw [bitsOf_top]
          omega
        have h41 : bitsOf (2 ^ 51 + 2 ^ 41 * dev + mapLoc ilv m) 50 41 = dev := by
          rw [bitsOf_dev]
          omega
        refine Eq.symm (((if_neg h51.1).trans (if_neg h51.2)).trans ?_)
        exact congrArg HomeK.pod h41

/-- Places of one line are of one memory. -/
theorem kind_of_line (hp : p.Placed) (hq : q.Placed) (h : q.line = p.line) : q.kind = p.kind := by
  have hl : q.loc / 128 = p.loc / 128 := h
  have h50 : q.loc / 2 ^ 50 = p.loc / 2 ^ 50 := by omega
  have h41 : q.loc / 2 ^ 41 = p.loc / 2 ^ 41 := by omega
  rw [hp, hq, kindOf, kindOf, bitsOf_top, bitsOf_top, bitsOf_dev, bitsOf_dev, h50, h41]

/-- Places of one line that are reached through one key slot read the same line. -/
theorem value_of_line (hp : p.Placed) (hq : q.Placed) (h : q.line = p.line) (hkey : q.key = p.key) (s : State) :
    (homeLine s q).1 = (homeLine s p).1 := by
  have hk := kind_of_line hp hq h
  have hm : memLine s q = memLine s p := memLine_same_place hk h hkey
  simp only [homeLine, hk, h, hm]

/-! A line written to memory. -/

/-- A line written to memory under the key slot of its place (R495). -/
def putKeyed (s : State) (p : Phys) (d : LineData) : State :=
  { setLineKey s p with mem := putLine (setLineKey s p).mem p.line d }

theorem putKeyed_rest (s : State) (p : Phys) (d : LineData) :
    putKeyed s p d = { s with lineKey := (setLineKey s p).lineKey, mem := putLine s.mem p.line d } := by
  unfold putKeyed
  rw [setLineKey_rest]

theorem setLineKey_some {g : Nat} (hk : p.kind ≠ .host) (hg : keyGenOf s p.key = some g) : smGet 0 (setLineKey s p).lineKey p.line = g := by
  unfold setLineKey
  split
  · next h => exact absurd h hk
  · rw [hg]
    exact smGet_smSet_self _ _ _ _

theorem memLine_raw (h : ∀ g, q.kind ≠ .host → keyGenOf s q.key = some g → g = smGet 0 s.lineKey q.line) : memLine s q = rawLine s.mem q.line := by
  unfold memLine
  extract_lets raw old
  split
  · rfl
  · next hk =>
    split
    · next g hg => exact if_pos (h g hk hg)
    · rfl

theorem putKeyed_memLine {d : LineData} (hk : q.line = p.line → q.kind = p.kind) (hkey : q.key = p.key) :
    memLine (putKeyed s p d) q = if q.line = p.line then d else memLine s q := by
  have hkeys : (putKeyed s p d).keys = s.keys := by rw [putKeyed_rest]
  have hmem : (putKeyed s p d).mem = putLine s.mem p.line d := by rw [putKeyed_rest]
  have hlineKey : (putKeyed s p d).lineKey = (setLineKey s p).lineKey := by rw [putKeyed_rest]
  have hgen : keyGenOf (putKeyed s p d) q.key = keyGenOf s p.key := by rw [hkey, keyGenOf, hkeys, keyGenOf]
  have hraw : rawLine (putKeyed s p d).mem q.line = if q.line = p.line then d else rawLine s.mem q.line := by
    rw [hmem, rawLine_putLine]
  split
  · next h =>
    rw [if_pos h] at hraw
    refine (memLine_raw fun g hq hg => ?_).trans hraw
    rw [h, hlineKey]
    exact (setLineKey_some (hk h ▸ hq) (hgen.symm.trans hg)).symm
  · next h =>
    rw [if_neg h] at hraw
    exact memLine_congr hraw hkeys ((congrArg (smGet 0 · q.line) hlineKey).trans (setLineKey_other s p h))

/-- A line of memory with bytes replaced. -/
def memWrite (s : State) (p : Phys) (l : List Byte) : State := putKeyed s p (spliceLine (memLine s p) (p.loc % 128) l)

/-! One write (R229, R368, R370, R441). -/

/-- Bytes written at a place: every place of its line reads them, and no other reads otherwise than before; where the write is hidden,
as one of memory under a home's copy is, none does. -/
structure Lands (key : Nat) (s t : State) (p : Phys) (l : List Byte) (hidden : Prop) : Prop where
  blocks : t.blocks = s.blocks
  time : t.time = s.time
  hit : ∀ q : Phys, q.Placed → q.key = key → q.line = p.line → ¬ hidden → (homeLine t q).1 = spliceLine (homeLine s p).1 (p.loc % 128) l
  miss : ∀ q : Phys, q.Placed → q.key = key → q.line ≠ p.line ∨ hidden → (homeLine t q).1 = (homeLine s q).1

theorem Lands.before {hidden : Prop} (hr : Reads key s s1) (h : Lands key s1 t p l hidden) (hkey : p.key = key) : Lands key s t p l hidden :=
  ⟨h.blocks.trans hr.blocks, h.time.trans hr.time, fun q hq hk hl hn => (h.hit q hq hk hl hn).trans (by rw [hr.value p hkey]),
    fun q hq hk hl => (h.miss q hq hk hl).trans (hr.value q hk)⟩

theorem Lands.after {hidden : Prop} (h : Lands key s s1 p l hidden) (hr : Reads key s1 t) : Lands key s t p l hidden :=
  ⟨hr.blocks.trans h.blocks, hr.time.trans h.time, fun q hq hk hl hn => (hr.value q hk).trans (h.hit q hq hk hl hn),
    fun q hq hk hl => (hr.value q hk).trans (h.miss q hq hk hl)⟩

theorem OnlyMem.blocks_time (h : OnlyMem s t) : t.blocks = s.blocks ∧ t.time = s.time := by
  rw [h.frame]
  exact ⟨rfl, rfl⟩

/-- A write to memory: hidden where the home holds the line. -/
theorem memWrite_lands (hp : p.Placed) (hkey : p.key = key) :
    Lands key s (memWrite s p l) p l (p.kind = .own ∧ (homeCopy? s p.line).isSome) := by
  have hrest : (memWrite s p l).blocks = s.blocks ∧ (memWrite s p l).time = s.time ∧ (memWrite s p l).lines = s.lines := by
    rw [memWrite, putKeyed_rest]
    exact ⟨rfl, rfl, rfl⟩
  obtain ⟨hblocks, htime, hlines⟩ := hrest
  have hcopy : ∀ x, homeCopy? (memWrite s p l) x = homeCopy? s x := homeCopy?_congr hlines
  have hmem : ∀ q : Phys, q.Placed → q.key = key → memLine (memWrite s p l) q =
      if q.line = p.line then spliceLine (memLine s p) (p.loc % 128) l else memLine s q :=
    fun q hq hk => putKeyed_memLine (kind_of_line hp hq) (hk.trans hkey.symm)
  have hfree : ∀ (s : State) (q : Phys), ¬ (q.kind = .own ∧ (homeCopy? s q.line).isSome) → (homeLine s q).1 = memLine s q := by
    intro s q hn
    unfold homeLine
    cases hk : q.kind with
    | own =>
      have hnone : homeCopy? s q.line = none := by simpa [hk] using hn
      simp only [hnone]
    | _ => rfl
  refine ⟨hblocks, htime, fun q hq hk hl hn => ?_, fun q hq hk hl => ?_⟩
  · have hkind := kind_of_line hp hq hl
    rw [hfree _ q (by rw [hcopy, hkind, hl]; exact hn), hmem q hq hk, if_pos hl, hfree s p hn]
  · by_cases hline : q.line = p.line
    · obtain ⟨hown, hsome⟩ := hl.resolve_left fun h => h hline
      obtain ⟨c, hc⟩ := Option.isSome_iff_exists.1 hsome
      have hqk := (kind_of_line hp hq hline).trans hown
      rw [← hline] at hc
      rw [value_own_of_copy hqk ((hcopy _).trans hc), value_own_of_copy hqk hc]
    · refine value_congr (fun _ => by rw [hcopy]) ((hmem q hq hk).trans (if_neg hline))

theorem homeWrite_lands {ctx : Nat} {cache : Cache} (hp : p.Placed) (hkey : p.key = key) :
    Lands key s (homeWrite s p ctx l false cache) p l False := by
  obtain ⟨hblocks, htime⟩ := (homeWrite_onlyMem s p ctx l false cache).blocks_time
  by_cases hown : p.kind = .own
  · have hv : ∀ q : Phys, q.Placed → _ := fun q hq => homeWrite_own_value (q := q) s p ctx l false cache hown
      fun hne hl => hne ((kind_of_line hp hq hl).trans hown)
    exact ⟨hblocks, htime, fun q hq _ hl _ => (hv q hq).trans (if_pos hl),
      fun q hq _ hl => (hv q hq).trans (if_neg (hl.resolve_right id))⟩
  · have hw : homeWrite s p ctx l false cache = memWrite s p l := by
      unfold homeWrite
      split
      · next h => exact absurd h hown
      · rfl
    rw [hw]
    have h := memWrite_lands (s := s) (l := l) hp hkey
    exact ⟨h.blocks, h.time, fun q hq hk hl _ => h.hit q hq hk hl fun hn => hown hn.1,
      fun q hq hk hl => h.miss q hq hk (.inl (hl.resolve_right id))⟩

/-! A core's write (R442, R449). -/

theorem OnlyTags.set_dir (h : OnlyTags s t) (d : List DirEnt) : OnlyTags s { t with dir := d } := h.trans rfl

theorem dirSplit_onlyTags (die line core : Nat) : ∀ (fuel : Nat) (s : State), OnlyTags s (dirSplit s die line core fuel)
  | 0, _ => rfl
  | fuel + 1, s => by
    unfold dirSplit
    split
    · rfl
    · next d _ =>
      split
      · rfl
      · extract_lets h a b s1
        have h1 : OnlyTags s s1 := OnlyTags.trans (t := putDir s d d) rfl (dirRoom_onlyTags _ _ _)
        exact (h1.set_dir _).trans (dirSplit_onlyTags die line core fuel _)

theorem dirWrite_onlyTags (s : State) (die line core : Nat) : OnlyTags s (dirWrite s die line core) := by
  unfold dirWrite
  extract_lets s0 s1
  have h1 : OnlyTags s s1 := by
    unfold s1
    split
    · exact (dirRoom_onlyTags s _ _).set_dir _
    · exact dirSplit_onlyTags die line core 10 s
  clear_value s1
  split
  · exact h1
  · exact h1.set_dir _

theorem patchLeased_reads (s : State) (die : Nat) (p : Phys) (l : List Byte) : Reads key s (patchLeased s die p l) := by
  refine ⟨rfl, rfl, fun q _ => value_congr (fun _ => ?_) rfl⟩
  have hmap : homeCopy? (patchLeased s die p l) q.line = (homeCopy? s q.line).map fun c =>
      if c.die = die ∧ c.line = p.line ∧ c.stamp.isSome then { c with data := spliceLine c.data (p.loc % 128) l } else c := by
    refine find?_map_of_keeps _ fun c _ => ?_
    split <;> rfl
  rw [hmap]
  cases hc : homeCopy? s q.line with
  | none => rfl
  | some c =>
    obtain ⟨-, hst, -⟩ := homeCopy?_spec hc
    rw [Option.map_some, if_neg (by simp [hst])]

theorem coreWrite_lands {r : Req} (hp : p.Placed) (hkey : p.key = key) : Lands key s (coreWrite s r p l false) p l False := by
  refine Lands.before (wakeFor_reads s r.core p) ?_ hkey
  unfold coreWrite
  extract_lets die s1 s2 s3
  have h2 : Lands key _ s2 p l False := (homeWrite_lands hp hkey).after (patchLeased_reads s1 die p l)
  refine h2.after ?_
  clear_value s2
  split
  · split
    · have h3 : Reads key s2 s3 := by
        unfold s3
        split
        · exact .refl key s2
        · exact l2Use_reads s2 _ _
      refine h3.trans ?_
      clear_value s3
      split
      · exact (l1Drop_onlyTags s3 _).reads
      · exact (((l1Drop_onlyTags s3 _).trans (dirWrite_onlyTags _ _ _ _)).trans (l1Take_onlyTags _ _)).reads
    · exact (l1Drop_onlyTags s2 _).reads
  · exact .refl key s2

end

end Sys2Proof.Machine

end

section
/-! The writes of a store's lanes in turn (R206, R207, R209). -/

namespace Sys2Proof.Machine

/-! Bytes, of memory and of scratchpads alike: a cell is the target of one byte. -/

/-- The byte at a cell. -/
def cellByte (s : State) : Target → Byte
  | .scr bid off => scrByte s bid off
  | .mem _ p => memByte s p

/-- The cell j bytes after. -/
def Target.shift (j : Nat) : Target → Target
  | .scr bid off => .scr bid (off + j)
  | .mem t p => .mem t { p with loc := p.loc + j }

/-- A cell lies in the n bytes of a target. -/
def Target.covers (n : Nat) : Target → Target → Prop
  | .scr bd o, .scr bid off => bd = bid ∧ o ≤ off ∧ off < o + n
  | .mem _ g, .mem _ p => g.loc ≤ p.loc ∧ p.loc < g.loc + n
  | _, _ => False

/-- A cell of a scratchpad where no barrier object lies, or of memory reached through a key slot. -/
def Plain (key : Nat) (s : State) : Target → Prop
  | .scr bid off => ∀ B, s.block? bid = some B → ∀ o ∈ B.objs, ¬ (o ≤ off ∧ off < o + 16)
  | .mem _ p => p.Placed ∧ p.key = key

/-- A target whose n bytes show what a write puts there: of a station's write, where no home holds the line. -/
def Shows (sta : Bool) (n : Nat) (s : State) : Target → Prop
  | .scr bid _ => (s.block? bid).isSome
  | .mem _ p => p.loc % 128 + n ≤ 128 ∧ (sta = true → homeCopy? s p.line = none)

/-- A target whose place has the kind of its number. -/
def Target.Placed : Target → Prop
  | .scr _ _ => True
  | .mem _ p => p.Placed

/-- The teams and barrier objects of every block, and the time, are as they were. -/
structure SameRest (s t : State) : Prop where
  blocks : ∀ bid, (t.block? bid).map (fun b => (b.objs, b.teams)) = (s.block? bid).map fun b => (b.objs, b.teams)
  time : t.time = s.time

section
variable {s t u : State} {key n bid off j : Nat} {sta : Bool} {b : Block} {la : Launch} {cache : Cache} {ea : Nat} {tg cell : Target}
  {p q : Phys} {l : List Byte}

theorem SameRest.refl (s : State) : SameRest s s := ⟨fun _ => rfl, rfl⟩

theorem SameRest.trans (h : SameRest s t) (g : SameRest t u) : SameRest s u :=
  ⟨fun bid => (g.blocks bid).trans (h.blocks bid), g.time.trans h.time⟩

theorem SameRest.of_blocks (hb : t.blocks = s.blocks) (ht : t.time = s.time) : SameRest s t :=
  ⟨fun bid => by rw [State.block?, hb, State.block?], ht⟩

theorem SameRest.objs (h : SameRest s t) (bid : Nat) : (t.block? bid).map Block.objs = (s.block? bid).map Block.objs := by
  have hm := congrArg (Option.map Prod.fst) (h.blocks bid)
  rw [Option.map_map, Option.map_map] at hm
  exact hm

theorem SameRest.team? (h : SameRest s t) (bid i : Nat) : t.team? bid i = s.team? bid i := by
  have hm := h.blocks bid
  unfold State.team?
  cases ht : t.block? bid <;> cases hs : s.block? bid <;> simp only [ht, hs, Option.map_some, Option.map_none, reduceCtorEq] at hm ⊢
  exact congrArg (List.find? fun t : Team => t.idx == i) (congrArg Prod.snd (Option.some.inj hm))

theorem SameRest.plain (h : SameRest s t) (hc : Plain key s cell) : Plain key t cell := by
  cases cell with
  | scr bid off =>
    intro B hB
    have ho := h.objs bid
    rw [hB] at ho
    obtain ⟨B', hB', hobjs⟩ := Option.map_eq_some_iff.1 ho.symm
    exact hobjs ▸ hc B' hB'
  | mem t p => exact hc

theorem SameRest.shows (h : SameRest s t) (hl : sta = true → t.lines = s.lines) (hs : Shows sta n s tg) : Shows sta n t tg := by
  cases tg with
  | scr bid off =>
    have ho := congrArg Option.isSome (h.objs bid)
    simp only [Option.isSome_map] at ho
    exact ho.trans hs
  | mem t p => exact ⟨hs.1, fun hsta => (homeCopy?_congr (hl hsta) _).trans (hs.2 hsta)⟩

/-- A MOVE THAT WRITES BYTES at a target: they stand there where it shows them, and every other byte is as before. -/
structure Stored (key : Nat) (sta : Bool) (s t : State) (tg : Target) (l : List Byte) : Prop where
  rest : SameRest s t
  lines : sta = true → t.lines = s.lines
  keep : ∀ cell, Plain key s cell → ¬ tg.covers l.length cell → cellByte t cell = cellByte s cell
  put : ∀ j, j < l.length → Plain key s (tg.shift j) → Shows sta l.length s tg → cellByte t (tg.shift j) = l.getD j 0

/-! Memory. -/

theorem lands_byte {hidden : Prop} (h : Lands key s t p l hidden) (hp : p.Placed) (hkey : p.key = key) (hq : q.Placed) (hqkey : q.key = key)
    (hout : ¬ (p.loc ≤ q.loc ∧ q.loc < p.loc + l.length)) : memByte t q = memByte s q := by
  rw [homeBytes_one, homeBytes_one]
  by_cases hmiss : q.line ≠ p.line ∨ hidden
  · rw [h.miss q hq hqkey hmiss]
  · rw [not_or, not_not] at hmiss
    have hline : q.loc / 128 = p.loc / 128 := hmiss.1
    rw [h.hit q hq hqkey hmiss.1 hmiss.2, lineByte_spliceLine _ (Nat.mod_lt _ (by decide)), if_neg (by omega),
      value_of_line hp hq hmiss.1 (hqkey.trans hkey.symm)]

theorem lands_put {hidden : Prop} (h : Lands key s t p l hidden) (hj : j < l.length) (hfit : p.loc % 128 + l.length ≤ 128) (hn : ¬ hidden)
    (hq : ({ p with loc := p.loc + j } : Phys).Placed) (hkey : p.key = key) : memByte t { p with loc := p.loc + j } = l.getD j 0 := by
  have hline : ({ p with loc := p.loc + j } : Phys).line = p.line := by
    change (p.loc + j) / 128 = p.loc / 128
    omega
  rw [homeBytes_one, h.hit _ hq hkey hline hn]
  change lineByte _ ((p.loc + j) % 128) = _
  have hidx : (p.loc + j) % 128 - p.loc % 128 = j := by omega
  rw [lineByte_spliceLine _ (Nat.mod_lt _ (by decide)), if_pos (by omega), hidx]

theorem Lands.stored {hidden : Prop} {tr : Tr} (h : Lands key s t p l hidden) (hp : p.Placed) (hkey : p.key = key)
    (hlines : sta = true → t.lines = s.lines) (hshown : (sta = true → homeCopy? s p.line = none) → ¬ hidden) :
    Stored key sta s t (.mem tr p) l := by
  refine ⟨.of_blocks h.blocks h.time, hlines, fun cell hcell hout => ?_, fun j hj hcell hs => ?_⟩
  · cases cell with
    | scr bid off => simp only [cellByte, scrByte, State.block?, h.blocks]
    | mem tr' q => exact lands_byte h hp hkey hcell.1 hcell.2 hout
  · exact lands_put h hj hs.1 (hshown hs.2) hcell.1 hkey

/-! Scratchpads. -/

theorem foldl_closeTest_out (os : List Nat) (x : Nat) : ∀ b : Block, (∀ o ∈ os, ¬ (o ≤ x ∧ x < o + 16)) →
    byteAt (os.foldl closeTest b).scratch x = byteAt b.scratch x := by
  induction os with
  | nil => exact fun _ _ => rfl
  | cons o os ih =>
    intro b h
    refine (ih _ fun o' ho' => h o' (List.mem_cons_of_mem _ ho')).trans ((closeTest_objSet b o).out x ?_)
    have ho := h o List.mem_cons_self
    omega

/-- A byte under no barrier object, after a write of bytes. -/
theorem putScratch_byte (b : Block) (off : Nat) (l : List Byte) (p : Bool) {x : Nat} (h : ∀ o ∈ b.objs, ¬ (o ≤ x ∧ x < o + 16)) :
    byteAt (putScratch b off l p).scratch x = if off ≤ x ∧ x < off + l.length then l.getD (x - off) 0 else byteAt b.scratch x := by
  unfold putScratch
  extract_lets n clear marks b1
  rw [foldl_closeTest_out _ x b1 fun o ho => h o (List.mem_of_mem_filter ho)]
  exact byteAt_setBytes _ _ _ _

theorem putScratch_stored (s : State) (bid off : Nat) (l : List Byte) :
    Stored key sta s (s.modBlock bid fun c => putScratch c off l false) (.scr bid off) l := by
  let t := s.modBlock bid fun c => putScratch c off l false
  have hblock : ∀ bd, t.block? bd = (s.block? bd).map fun c => if bd = bid then putScratch c off l false else c :=
    fun bd => State.block?_modBlock _ _ _ _ fun c => putScratch_bid c off l false
  have hbyte : ∀ bd x, Plain key s (.scr bd x) → scrByte t bd x =
      if bd = bid ∧ (s.block? bd).isSome ∧ off ≤ x ∧ x < off + l.length then l.getD (x - off) 0 else scrByte s bd x := by
    intro bd x hplain
    unfold scrByte
    rw [hblock]
    cases hB : s.block? bd with
    | none => simp
    | some B =>
      by_cases hbd : bd = bid
      · simp only [Option.map_some, hbd, if_true, true_and, Option.isSome_some]
        exact putScratch_byte B off l false (hplain B hB)
      · simp [hbd]
  refine ⟨⟨fun bd => ?_, rfl⟩, fun _ => rfl, fun cell hcell hout => ?_, fun j hj hcell hs => ?_⟩
  · change (t.block? bd).map _ = _
    rw [hblock, Option.map_map]
    refine Option.map_congr fun c _ => ?_
    have hc := putScratch_onlyScr c off l false
    simp only [Function.comp]
    split
    · rw [hc.objs, hc.teams]
    · rfl
  · cases cell with
    | scr bd x => exact (hbyte bd x hcell).trans (if_neg fun h => hout ⟨h.1.symm, h.2.2⟩)
    | mem tr q => rfl
  · refine (hbyte bid (off + j) hcell).trans ((if_pos ⟨rfl, hs, by omega, by omega⟩).trans ?_)
    rw [Nat.add_sub_cancel_left]

/-! One lane's write. -/

theorem podSend_out (s : State) (p : Phys) (ctx kind : Nat) (op : AtomOp) (l : List Byte) :
    podSend s p ctx kind op l = { s with out := (podSend s p ctx kind op l).out } := by
  unfold podSend
  split <;> rfl

theorem writePlace_stored (htg : tg.through key) (hpl : tg.Placed) :
    Stored key b.site.isStation s (writePlace s b la cache ea tg l false) tg l := by
  cases tg with
  | scr bid off => exact putScratch_stored s bid off l
  | mem tr p =>
    unfold writePlace
    dsimp only
    by_cases hsta : b.site.isStation = true
    · rw [if_pos hsta]
      have hmsc := mscTouch_reads (key := key) (memWrite s p l) p.line p.ilv la.ctx true
      have hlines : (stationWrite s p la.ctx l false).lines = s.lines := by
        refine (mscTouch_sameHomes (memWrite s p l) p.line p.ilv la.ctx true).lines.trans ?_
        rw [memWrite, putKeyed_rest]
      refine Lands.stored (((memWrite_lands hpl htg)).after hmsc) hpl htg (fun _ => hlines) fun hs hn => ?_
      rw [hs hsta] at hn
      exact absurd hn.2 (by simp)
    · rw [if_neg hsta]
      have hcore : Lands key s (coreWrite (useTlb s b la tr ea) (blockReq b la tr cache ea) p l false) p l False :=
        (coreWrite_lands hpl htg).before (useTlb_reads s b la tr ea) htg
      generalize coreWrite (useTlb s b la tr ea) (blockReq b la tr cache ea) p l false = s1 at hcore ⊢
      have hsend : Lands key s (podSend s1 p la.ctx 1 .exch l) p l False := by
        rw [podSend_out]
        exact ⟨hcore.blocks, hcore.time, hcore.hit, hcore.miss⟩
      exact hsend.stored hpl htg (fun h => absurd h hsta) fun _ => id

/-! The lanes' writes in turn. -/

/-- One lane's write of a store. -/
def storeOne (b : Block) (la : Launch) (cache : Cache) (n : Nat) (val : Nat → Nat) (s : State) (q : Acc) : State :=
  writePlace s b la cache q.2.1 q.2.2 (leBytes n (val q.1)) false

variable {val : Nat → Nat} {accs : List Acc}

theorem storeOne_stored {a : Acc} (h : a.2.2.through key ∧ a.2.2.Placed) :
    Stored key b.site.isStation s (storeOne b la cache n val s a) a.2.2 (leBytes n (val a.1)) := writePlace_stored h.1 h.2

theorem stores_keep (hacc : ∀ a ∈ accs, a.2.2.through key ∧ a.2.2.Placed) : ∀ s : State,
    let t := accs.foldl (storeOne b la cache n val) s
    SameRest s t ∧ (b.site.isStation = true → t.lines = s.lines) ∧
      ∀ cell, Plain key s cell → (∀ a ∈ accs, ¬ a.2.2.covers n cell) → cellByte t cell = cellByte s cell := by
  induction accs with
  | nil => exact fun s => ⟨.refl s, fun _ => rfl, fun _ _ _ => rfl⟩
  | cons a accs ih =>
    intro s
    have h1 := storeOne_stored (b := b) (la := la) (cache := cache) (n := n) (val := val) (s := s) (hacc a List.mem_cons_self)
    obtain ⟨hrest, hlines, hkeep⟩ := ih (fun x hx => hacc x (List.mem_cons_of_mem _ hx)) (storeOne b la cache n val s a)
    refine ⟨h1.rest.trans hrest, fun hs => (hlines hs).trans (h1.lines hs), fun cell hcell hout => ?_⟩
    refine (hkeep cell (h1.rest.plain hcell) fun x hx => hout x (List.mem_cons_of_mem _ hx)).trans (h1.keep cell hcell ?_)
    rw [leBytes_length]
    exact hout a List.mem_cons_self

/-- What a lane stores stands where no later lane stores. -/
theorem stores_put {pre post : List Acc} {a : Acc} (hacc : ∀ x ∈ pre ++ a :: post, x.2.2.through key ∧ x.2.2.Placed) (s : State) (hj : j < n)
    (hplain : Plain key s (a.2.2.shift j)) (hs : Shows b.site.isStation n s a.2.2) (hpost : ∀ x ∈ post, ¬ x.2.2.covers n (a.2.2.shift j)) :
    cellByte ((pre ++ a :: post).foldl (storeOne b la cache n val) s) (a.2.2.shift j) = (leBytes n (val a.1)).getD j 0 := by
  obtain ⟨hrest, hlines, -⟩ := stores_keep (b := b) (la := la) (cache := cache) (n := n) (val := val) (accs := pre)
    (fun x hx => hacc x (List.mem_append_left _ hx)) s
  rw [List.foldl_append, List.foldl_cons]
  generalize pre.foldl (storeOne b la cache n val) s = s1 at hrest hlines ⊢
  have hone := storeOne_stored (b := b) (la := la) (cache := cache) (n := n) (val := val) (s := s1) (hacc a (by simp))
  have hlen : (leBytes n (val a.1)).length = n := leBytes_length ..
  obtain ⟨-, -, hkeep⟩ := stores_keep (b := b) (la := la) (cache := cache) (n := n) (val := val) (accs := post)
    (fun x hx => hacc x (by simp [hx])) (storeOne b la cache n val s1 a)
  have hplain1 := hrest.plain hplain
  refine (hkeep _ (hone.rest.plain hplain1) hpost).trans (hone.put j (hlen.symm ▸ hj) hplain1 ?_)
  rw [hlen]
  exact hrest.shows hlines hs

/-! Poison that a covering store clears. -/

theorem SameRest.foldl {α : Type} {F : State → α → State} (xs : List α) (hF : ∀ s x, SameRest s (F s x) ∧ ∀ cell, cellByte (F s x) cell = cellByte s cell) :
    ∀ s, SameRest s (xs.foldl F s) ∧ ∀ cell, cellByte (xs.foldl F s) cell = cellByte s cell := by
  induction xs with
  | nil => exact fun s => ⟨.refl s, fun _ => rfl⟩
  | cons x xs ih => exact fun s => ⟨(hF s x).1.trans (ih _).1, fun cell => ((ih _).2 cell).trans ((hF s x).2 cell)⟩

theorem cells_of_values (hb : t.blocks = s.blocks) (hv : ∀ q, (homeLine t q).1 = (homeLine s q).1) (cell : Target) :
    cellByte t cell = cellByte s cell := by
  cases cell with
  | scr bid off => simp only [cellByte, scrByte, State.block?, hb]
  | mem tr q => simp only [cellByte, homeBytes_one, hv]

theorem coverLine_cells (s : State) (b : Block) (p : Phys) : SameRest s (coverLine s b p) ∧ ∀ cell, cellByte (coverLine s b p) cell = cellByte s cell := by
  unfold coverLine
  split
  · have hsame : SameHomes s (setMPoison s p.line false) := ⟨rfl, rfl, rfl, rfl⟩
    exact ⟨⟨fun _ => rfl, rfl⟩, cells_of_values rfl hsame.value⟩
  · obtain ⟨hb, ht⟩ := (clearPoison_rest s p).blocks_time
    exact ⟨.of_blocks hb ht, cells_of_values hb (clearPoison_value s p)⟩

theorem clearUnits_poison (b : Block) (pieces : List (Nat × Nat)) : clearUnits b pieces = { b with spoison := (clearUnits b pieces).spoison } := by
  unfold clearUnits
  split <;> rfl

theorem clearUnits_cells (s : State) (bid : Nat) (pieces : List (Nat × Nat)) :
    SameRest s (s.modBlock bid fun c => clearUnits c pieces) ∧
      ∀ cell, cellByte (s.modBlock bid fun c => clearUnits c pieces) cell = cellByte s cell := by
  have hblock : ∀ bd, (s.modBlock bid fun c => clearUnits c pieces).block? bd = (s.block? bd).map fun c => if bd = bid then clearUnits c pieces else c :=
    fun bd => State.block?_modBlock _ _ _ _ fun c => by rw [clearUnits_poison]
  refine ⟨⟨fun bd => ?_, rfl⟩, fun cell => ?_⟩
  · rw [hblock, Option.map_map]
    refine Option.map_congr fun c _ => ?_
    simp only [Function.comp]
    split
    · rw [clearUnits_poison]
    · rfl
  · cases cell with
    | scr bd x =>
      simp only [cellByte, scrByte, hblock]
      cases s.block? bd with
      | none => rfl
      | some B =>
        by_cases hbd : bd = bid
        · simp only [Option.map_some, if_pos hbd]
          rw [clearUnits_poison]
        · simp only [Option.map_some, if_neg hbd]
    | mem tr q => rfl

theorem clearCovered_cells (s : State) (b : Block) (l : List (Target × Nat)) :
    SameRest s (clearCovered s b l) ∧ ∀ cell, cellByte (clearCovered s b l) cell = cellByte s cell := by
  unfold clearCovered
  extract_lets s1 scr
  have h1 : SameRest s s1 ∧ ∀ cell, cellByte s1 cell = cellByte s cell := by
    unfold s1
    split
    · exact ⟨.refl s, fun _ => rfl⟩
    · exact SameRest.foldl _ (fun s p => coverLine_cells s b p) s
  have h2 := SameRest.foldl ((scr.map Prod.fst).dedup)
    (F := fun s bid => s.modBlock bid fun c => clearUnits c ((scr.filter fun q => q.1 == bid).map Prod.snd))
    (fun s bid => clearUnits_cells s bid _) s1
  exact ⟨h1.1.trans h2.1, fun cell => (h2.2 cell).trans (h1.2 cell)⟩

end

end Sys2Proof.Machine

end

section
/-! Stores: the instruction (R206, R207, R209). -/

namespace Sys2Proof.Machine

section
variable {ins : Instr} {iss : Iss} {s t : State} {e : Env} {c : Ctx} {f : Form} {eff : Ctx → Res} {key n bid off j : Nat} {sta : Bool}
  {tg cell : Target} {q : Acc} {ls : List Nat} {ea : Nat → Nat} {need : Nat} {extra : Nat → Target → Option Nat}

/-! The places of the lanes. -/

theorem resolveMem_placed {b : Block} {ctx ea need : Nat} {tr : Tr} {p : Phys} (h : resolveMem s b ctx ea need = .ok (tr, p)) : p.Placed := by
  unfold resolveMem at h
  extract_lets found at h
  clear_value found
  cases found with
  | none => cases h
  | some t =>
    dsimp only at h
    split at h
    · cases h
    · split at h
      · cases h
      · split at h
        · cases h
        · split at h
          · obtain ⟨-, rfl⟩ := Prod.mk.inj (Except.ok.inj h)
            exact physOf_placed _ _ _ _ _
          · cases h

theorem resolve_placed {h : LaunchHdr} {b : Block} {ctx ea n need : Nat} (hres : resolve s h b ctx ea n need = .ok tg) : tg.Placed := by
  unfold resolve at hres
  split at hres
  · split at hres
    · cases hres
    · split at hres
      · obtain rfl := Except.ok.inj hres
        trivial
      · cases hres
  · split at hres
    · cases hres
    · split at hres
      · cases hres
      · next tr p hmem =>
        obtain rfl := Except.ok.inj hres
        exact resolveMem_placed hmem

theorem goodAccs_placed (h : q ∈ goodAccs (c.resolveLanes ls ea n need extra)) : q.2.2.Placed := by
  simp only [goodAccs, List.mem_filterMap, Ctx.resolveLanes, List.mem_map] at h
  obtain ⟨r, ⟨l, hl, rfl⟩, hr⟩ := h
  dsimp only at hr
  split at hr
  · next tg htg =>
    obtain rfl := Option.some.inj hr
    split at htg
    · cases htg
    · next tg' hres =>
      split at htg
      · cases htg
      · obtain rfl := Except.ok.inj htg
        exact resolve_placed hres
  · cases hr

/-- The lanes of a mask ascend. -/
theorem maskLanes_sorted (m : LaneMask) (n : Nat) : (maskLanes m n).Pairwise (· < ·) := List.pairwise_lt_range.filter _

theorem goodAccs_sorted (h : ls.Pairwise (· < ·)) :
    (goodAccs (c.resolveLanes ls ea n need extra)).Pairwise fun x y => x.1 < y.1 := by
  refine List.pairwise_filterMap.2 (List.pairwise_map.2 (h.imp fun {a b} hab x hx y hy => ?_))
  have hlane : ∀ {k : Nat} {z : Acc} {r : Except Nat Target}, (match r with
      | .ok tg => some (k, ea k, tg)
      | .error _ => none) = some z → z.1 = k := by
    intro k z r hz
    split at hz
    · exact (congrArg Prod.fst (Option.some.inj hz)).symm
    · cases hz
  rw [hlane hx, hlane hy]
  exact hab

/-- The accesses after one of ascending lanes are those of higher lanes. -/
theorem split_of_mem {accs : List Acc} (hs : accs.Pairwise fun x y => x.1 < y.1) (h : q ∈ accs) :
    ∃ pre post, accs = pre ++ q :: post ∧ ∀ x ∈ post, q.1 < x.1 := by
  obtain ⟨pre, post, rfl⟩ := List.append_of_mem h
  exact ⟨pre, post, rfl, fun x hx => (List.pairwise_cons.1 (List.pairwise_append.1 hs).2.1).1 x hx⟩

theorem placed_shift {p : Phys} (hp : p.Placed) (hj : p.loc % 128 + j < 128) : ({ p with loc := p.loc + j } : Phys).Placed := by
  have h50 : (p.loc + j) / 2 ^ 50 = p.loc / 2 ^ 50 := by omega
  have h41 : (p.loc + j) / 2 ^ 41 = p.loc / 2 ^ 41 := by omega
  refine Eq.trans hp ?_
  change kindOf p.loc = kindOf (p.loc + j)
  rw [kindOf, kindOf, bitsOf_top, bitsOf_top, bitsOf_dev, bitsOf_dev, h50, h41]

/-! The state at issue. -/

theorem begun_cell (hr : Runs f iss s e c) (cell : Target) : cellByte (c.begun f e iss).s cell = cellByte s cell := by
  cases cell with
  | scr bid off => exact sameScratch_of_map (scratchAs_begun hr) bid off
  | mem tr p => rw [cellByte, cellByte, homeBytes_one, homeBytes_one, (begun_homes hr).1.value]

theorem begun_plain (hr : Runs f iss s e c) (h : Plain key s cell) : Plain key (c.begun f e iss).s cell := by
  cases cell with
  | mem tr p => exact h
  | scr bid off =>
    intro B hB
    obtain ⟨B', hB', -⟩ := Option.map_eq_some_iff.1 ((scratchAs_begun hr bid).symm.trans (by rw [hB]; rfl))
    obtain ⟨ts, hts⟩ := begun_block hr hB'
    obtain rfl := Option.some.inj (hB.symm.trans hts)
    exact h B' hB'

theorem begun_shows (hr : Runs f iss s e c) (h : Shows sta n s tg) : Shows sta n (c.begun f e iss).s tg := by
  cases tg with
  | mem tr p => exact ⟨h.1, fun hs => (homeCopy?_congr (begun_homes hr).1.lines _).trans (h.2 hs)⟩
  | scr bid off =>
    obtain ⟨B, hB⟩ := Option.isSome_iff_exists.1 h
    obtain ⟨ts, hts⟩ := begun_block hr hB
    exact Option.isSome_iff_exists.2 ⟨_, hts⟩

/-- A STORE whose lanes meet no cause: the team keeps its registers; the bytes are those of the lanes' writes in turn. -/
theorem store_effect {mc : MemCtl} {gen : Bool} {a b x : Opnd} (hr : Runs f iss s e c) (hx : exec ins s = issueForm f iss eff s)
    (he : eff (c.begun f e iss) = (c.begun f e iss).store mc gen a b x) (hrel : c.relHold (orderRel mc.order) mc.scope = none)
    (hgood : firstBad (c.resolveLanes c.lanes (c.ea gen a b) (sizeBytes mc.size) 1 noExtra) [] = none)
    (hacc : ∀ q ∈ goodAccs (c.resolveLanes c.lanes (c.ea gen a b) (sizeBytes mc.size) 1 noExtra), q.2.2.through key ∧ q.2.2.Placed) :
    ∃ t u, exec ins s = .next t ∧ t.team? e.who.bid e.who.team = some u ∧ SameTeamAcc e u ∧ u.v = e.team.v ∧ u.s = e.team.s ∧
      (∀ q l, l < 1024 → u.getX q l = c.xAfter f.indexes q l) ∧
      ∀ cell, cellByte t cell = cellByte ((goodAccs (c.resolveLanes c.lanes (c.ea gen a b) (sizeBytes mc.size) 1 noExtra)).foldl
        (storeOne e.blk e.la mc.cache (sizeBytes mc.size) fun l => c.rdN 2 x (sizeRegs mc.size) l) (c.begun f e iss).s) cell := by
  have hdone := he.trans ((store_calm (c := c.begun f e iss) hr.begun_calm hrel gen a b x).trans
    (access_good (c := c.begun f e iss) (ls := c.lanes) (ea := c.ea gen a b) (need := 1) (extra := noExtra) hgood _))
  obtain ⟨rfl, -, -⟩ := hr.ctx
  generalize haccs : goodAccs (c.resolveLanes c.lanes (c.ea gen a b) (sizeBytes mc.size) 1 noExtra) = accs at hacc ⊢
  let s0 := (c.begun f c.e iss).s
  let w := accs.foldl (storeOne c.e.blk c.e.la mc.cache (sizeBytes mc.size) fun l => c.rdN 2 x (sizeRegs mc.size) l) s0
  let s1 := clearCovered w c.e.blk (accs.map fun q => (q.2.2, sizeBytes mc.size))
  have hd : eff (c.begun f c.e iss) = .done (c.noteStores accs s1) := by
    rw [hdone]
    exact congrArg (fun l => Res.done ((c.begun f c.e iss).storeLanes mc.cache (sizeBytes mc.size) _ l s0)) haccs
  obtain ⟨H, hH, hnotes⟩ := noteStores_notesOf c accs s1
  obtain ⟨hrest, -, -⟩ := stores_keep (b := c.e.blk) (la := c.e.la) (cache := mc.cache) (n := sizeBytes mc.size)
    (val := fun l => c.rdN 2 x (sizeRegs mc.size) l) hacc s0
  obtain ⟨hclear, hcells⟩ := clearCovered_cells w c.e.blk (accs.map fun q => (q.2.2, sizeBytes mc.size))
  have hteam : s1.team? c.e.who.bid c.e.who.team = some (c.e.team.begun [(f, c)] c.e iss) :=
    ((hrest.trans hclear).team? _ _).trans (begun_team hr)
  have htime : s1.time = s.time := (hrest.trans hclear).time.trans (begun_homes hr).2.2
  obtain ⟨t, ht, hframe, hscr, hut⟩ := team_done (G := H) (fun t => (hH t).idx) hr hx (hd.trans (congrArg Res.done hnotes)) htime hteam
  have hnoted := noted_team hH hr .zero 0 (fun _ => 0) s.time
  have hbegun := begun_rest c.e.team [(f, c)] c.e iss hr.noProbe
  have hn := hH (c.e.team.begun [(f, c)] c.e iss)
  obtain ⟨hv, hs, -⟩ := ended_regs (H (c.e.team.begun [(f, c)] c.e iss)) [(f, c.begun f c.e iss)] s.time
    (hn.probe.trans ((congrArg Team.probe hbegun).trans hr.noProbe))
  refine ⟨t, _, ht, hut, hnoted.rest, ?_, ?_, hnoted.idx, fun cell => (Eq.trans ?_ (hcells cell))⟩
  · exact hv.trans (((congrArg Team.v hn).trans rfl).trans ((congrArg Team.v hbegun).trans rfl))
  · exact hs.trans (((congrArg Team.s hn).trans rfl).trans ((congrArg Team.s hbegun).trans rfl))
  · cases cell with
    | scr bid off => exact hscr bid off
    | mem tr p =>
      rw [hframe]
      rfl

end

end Sys2Proof.Machine

open Sys2Proof Sys2Proof.Machine

/-- Settles O15: the checks pass, so the lanes' bytes are written in turn, and each write changes its own bytes alone. -/
theorem storesWriteBytes : Obligations.StoresWriteBytes := by
  unfold Obligations.StoresWriteBytes
  intro h mc gen a b x i iss s e c key
  extract_lets n k f rs stored near
  intro hi hr hrel hgood hone
  have hrun : ∃ eff : Ctx → Res, exec i s = issueForm f iss eff s ∧ eff (c.begun f e iss) = (c.begun f e iss).store mc gen a b x := by
    cases gen with
    | true => exact ⟨(opSt mc a b x).eff, hi.run (o := opSt mc a b x) rfl rfl nofun, rfl⟩
    | false => exact ⟨(opSts mc a b x).eff, hi.run (o := opSts mc a b x) rfl rfl nofun, rfl⟩
  obtain ⟨eff, hx, he⟩ := hrun
  have hacc : ∀ q ∈ goodAccs rs, q.2.2.through key ∧ q.2.2.Placed := fun q hq => ⟨through_of_oneKey hone q hq, goodAccs_placed hq⟩
  have hsorted : (goodAccs rs).Pairwise fun x y => x.1 < y.1 := goodAccs_sorted (maskLanes_sorted _ _)
  obtain ⟨t, u, ht, hut, hsame, hv, hs, hidx, hcells⟩ := store_effect hr hx he hrel hgood hacc
  change ∀ cell, cellByte t cell = cellByte ((goodAccs rs).foldl _ _) cell at hcells
  obtain ⟨-, -, hkeep⟩ := stores_keep (b := e.blk) (la := e.la) (cache := mc.cache) (n := n) (val := fun l => c.rdN 2 x k l) hacc
    (c.begun f e iss).s
  have hfar : ∀ cell, Plain key s cell → (∀ q ∈ goodAccs rs, ¬ q.2.2.covers n cell) → cellByte t cell = cellByte s cell :=
    fun cell hc hout => (hcells cell).trans ((hkeep cell (begun_plain hr hc) hout).trans (begun_cell hr cell))
  have hput : ∀ q ∈ goodAccs rs, ∀ j, j < n → Plain key s (q.2.2.shift j) → Shows e.blk.site.isStation n s q.2.2 →
      (∀ q' ∈ goodAccs rs, q.1 < q'.1 → ¬ q'.2.2.covers n (q.2.2.shift j)) →
      cellByte t (q.2.2.shift j) = (leBytes n (c.rdN 2 x k q.1)).getD j 0 := by
    intro q hq j hj hc hsh hlast
    obtain ⟨pre, post, hsplit, hpost⟩ := split_of_mem hsorted hq
    rw [hcells]
    rw [hsplit] at hacc hlast ⊢
    exact stores_put (val := fun l => c.rdN 2 x k l) hacc _ hj (begun_plain hr hc) (begun_shows hr hsh)
      fun y hy => hlast y (by simp [hy]) (hpost y hy)
  have hplain : ∀ bid off, near bid off = false → Plain key s (.scr bid off) := by
    intro bid off hn B hB o ho hin
    simp only [near, hB] at hn
    have := List.any_eq_false.1 hn o ho
    simp [hin.1, hin.2] at this
  refine ⟨t, u, ht, hut, hsame, hv, hs, hidx, fun ilv pa => ?_, fun bid off hst hn => ?_, fun q hq bid off j htg hj hB hn hlast => ?_,
    fun q hq tr p j htg hj hfit hcopy hlast => ?_⟩
  · intro p hout
    refine hfar (.mem ⟨0, 0, 0⟩ p) ⟨physOf_placed _ _ _ _ _, placeOf_key _ _ _ _⟩ fun q hq hcov => ?_
    cases htg : q.2.2 with
    | scr bid off =>
      rw [htg] at hcov
      exact hcov
    | mem tr g =>
      rw [htg] at hcov
      exact hout q hq tr g htg hcov
  · refine hfar (.scr bid off) (hplain bid off hn) fun q hq hcov => ?_
    have hno := List.any_eq_false.1 hst q hq
    cases htg : q.2.2 with
    | scr bd o =>
      rw [htg] at hcov hno
      simp [hcov.1, hcov.2.1, hcov.2.2] at hno
    | mem tr g =>
      rw [htg] at hcov
      exact hcov
  · have hbyte := hput q hq j hj
    rw [htg] at hbyte
    refine hbyte (hplain bid (off + j) hn) hB fun q' hq' hlt hcov => ?_
    cases htg' : q'.2.2 with
    | scr bd o =>
      rw [htg'] at hcov
      obtain ⟨rfl, hin⟩ := hcov
      exact hlast q' hq' hlt o htg' hin
    | mem tr g =>
      rw [htg'] at hcov
      exact hcov
  · have hpl := (hacc q hq).2
    have hbyte := hput q hq j hj
    rw [htg] at hbyte hpl
    refine hbyte ⟨placed_shift hpl (by omega), hone q hq tr p htg⟩ ⟨hfit, hcopy⟩ fun q' hq' hlt hcov => ?_
    cases htg' : q'.2.2 with
    | scr bd o =>
      rw [htg'] at hcov
      exact hcov
    | mem tr' g =>
      rw [htg'] at hcov
      exact hlast q' hq' hlt tr' g htg' hcov

end

section
/-! Pages on their way: working sets held, pages moved, host translations asked for, answered and invalidated (R105 to R108, R246). -/

namespace Sys2Proof.Machine

/-- Only what memory holds, with its lines and tags, has changed; no translation, no hold on a page. -/
structure OnlyData (s t : State) : Prop where
  frame : t = { s with mem := t.mem, mpoison := t.mpoison, lineKey := t.lineKey, lines := t.lines, l1 := t.l1, dir := t.dir, msc := t.msc,
                       psel := t.psel, lruIns := t.lruIns, sketch := t.sketch, cands := t.cands, czUnits := t.czUnits, czSect := t.czSect }

section
variable {s t : State} {q n ctx va key : Nat} {la : Launch} {tr : Tr} {r : PageReq} {g : Launch → Launch}

/-! Launches changed where they stand. -/

theorem mem_modLaunch (h : s.launch? q n = some la) (g : Launch → Launch) : g la ∈ (s.modLaunch q n g).launches := by
  obtain ⟨hmem, hq, hn⟩ := launch?_spec h
  exact List.mem_map.2 ⟨la, hmem, if_pos ⟨hq, hn⟩⟩

theorem OnlyMem.launches (h : OnlyMem s t) : t.launches = s.launches := by rw [h.frame]
theorem OnlyMem.packets (h : OnlyMem s t) : t.packets = s.packets := by rw [h.frame]
theorem OnlyMem.preqs (h : OnlyMem s t) : t.preqs = s.preqs := by rw [h.frame]

theorem launch?_congr (h : t.launches = s.launches) (q n : Nat) : t.launch? q n = s.launch? q n := by
  rw [State.launch?, h, State.launch?]

/-- Whether a launch can be placed at all is a matter of its header and of host registers. -/
theorem everPlaced_congr {lb : Launch} (hb : t.bar0 = s.bar0) (hh : lb.hdr = la.hdr) (hc : lb.ctx = la.ctx) :
    everPlaced t lb = everPlaced s la := by
  have hbar : ∀ o, bar t o = bar s o := fun o => by rw [bar, hb, bar]
  have hfence : ∀ k, coreFenced t k = coreFenced s k := fun k => by rw [coreFenced, hbar, coreFenced]
  have hholds : ∀ h k, clusterHolds t h k = clusterHolds s h k := fun h k => by simp only [clusterHolds, hfence]
  simp only [everPlaced, hholds, hbar, hh, hc]

/-! A launch's working set (R105). -/

/-- A launch whose working set is held, made eligible. -/
def Launch.eligible (s : State) (l : Launch) : Launch :=
  { l with state := .eligible, eligAt := s.time, waitSince := s.time, waited := 0, code := imageOf s }

theorem makeEligible_placed (h : s.launch? q n = some la) (he : everPlaced s la = true) :
    makeEligible s q n = s.modLaunch q n (Launch.eligible s) := by
  unfold makeEligible
  rw [h]
  dsimp only
  rw [he]
  rfl

/-- The whole list is held: the launch becomes eligible. -/
theorem wsHold_done (h : s.launch? q n = some la) (hpid : la.pid ≠ 0) (he : everPlaced s la = true) :
    wsHold q n ctx [] s = (s.modLaunch q n fun l => { l with staged := true }).modLaunch q n
      (Launch.eligible (s.modLaunch q n fun l => { l with staged := true })) := by
  have hstaged : (s.modLaunch q n fun l => { l with staged := true }).launch? q n = some { la with staged := true } :=
    (launch?_modLaunch s q n (fun l => { l with staged := true }) fun _ => ⟨rfl, rfl⟩).trans (by rw [h]; rfl)
  unfold wsHold
  extract_lets s1
  rw [hstaged]
  dsimp only
  exact (if_neg hpid).trans (makeEligible_placed hstaged ((everPlaced_congr rfl rfl rfl).trans he))

/-- What the command processor needs of a launch to begin with its list. -/
structure Stageable (s : State) (la : Launch) : Prop where
  state : la.state = .staging
  staged : la.staged = false
  status : la.status = 0
  held : la.held = 0
  granted : wsGranted s la.ctx la.ws = true
  fits : fastNeed s la.ctx la.ws ≤ 2 ^ 23
  placed : wsPlaced s la.ctx la.ws = true

theorem stageOn_holds (h : s.launch? q n = some la) (hs : Stageable s la) : stageOn s q n = wsHold q n la.ctx (wsPages la.ws) s := by
  unfold stageOn
  rw [h]
  dsimp only
  refine (if_neg ?_).trans ((if_neg ?_).trans ((if_neg (Nat.not_lt.2 hs.fits)).trans ((if_neg ?_).trans ?_)))
  · rw [hs.state, hs.staged, hs.status]
    simp
  · rw [hs.granted]
    simp
  · rw [hs.placed]
    simp
  · rw [hs.held, List.drop_zero]

theorem workingSetStaging_started (h : s.launch? q n = some la) : workingSetStaging s q n = stageOn s q n := by
  unfold workingSetStaging
  rw [h]
  exact congrArg (stageOn s q) (launch?_spec h).2.2

theorem tryHold_held (hf : findLeaf s ctx va = some tr) (hroom : pageHolds s (pageKey ctx va) < 65535) (hpin : tr.host = true → tr.pin = true) :
    tryHold s true ctx va = .held (takeHold s true ctx va) := by
  unfold tryHold
  rw [hf]
  dsimp only
  refine (if_neg (Nat.not_le.2 hroom)).trans (if_neg ?_)
  cases hh : tr.host with
  | false => simp
  | true => simp [hpin hh]

/-! A write of a table entry leaves translations and the holds on pages. -/

theorem OnlyMsc.onlyData (h : OnlyMsc s t) : OnlyData s t := by
  unfold OnlyMsc at h
  exact ⟨by rw [h]⟩

theorem OnlyData.trans {u : State} (h : OnlyData s t) (k : OnlyData t u) : OnlyData s u := ⟨by rw [k.frame, h.frame]⟩

theorem OnlyData.set_mem (s : State) (m : Memory) : OnlyData s { s with mem := m } := ⟨rfl⟩

theorem OnlyData.tlb (h : OnlyData s t) : t.tlb = s.tlb := by rw [h.frame]
theorem OnlyData.wsHolds (h : OnlyData s t) : t.wsHolds = s.wsHolds := by rw [h.frame]

theorem mscTouch_onlyData (s : State) (line ilv ctx : Nat) (write : Bool) : OnlyData s (mscTouch s line ilv ctx write) :=
  (mscTouch_onlyMsc s line ilv ctx write).onlyData

theorem l1Drop_onlyData (s : State) (gone : L1Copy → Bool) : OnlyData s (l1Drop s gone) := by
  have h := l1Drop_onlyTags s gone
  unfold OnlyTags at h
  exact ⟨by rw [h]⟩

theorem setLineKey_onlyData (s : State) (p : Phys) : OnlyData s (setLineKey s p) := ⟨by rw [setLineKey_rest]⟩

theorem writeBack_onlyData (s : State) (line : Nat) : OnlyData s (writeBack s line) := by
  unfold writeBack
  split
  · next c _ =>
    generalize putLine s.mem line c.data = m
    extract_lets s1 s2 clean s3 s4
    have h4 : OnlyData s s4 := ⟨rfl⟩
    clear_value s4
    split
    · exact h4.trans (mscTouch_onlyData s4 _ _ _ _)
    · exact ⟨rfl⟩
  · exact ⟨rfl⟩

theorem homeWrite_onlyData (s : State) (p : Phys) (ctx : Nat) (l : List Byte) : OnlyData s (homeWrite s p ctx l false) := by
  have hfill : OnlyData s (fillHome s p ctx .normal) := by
    cases h : homeCopy? s p.line with
    | some c =>
      rw [fillHome_of_some h]
      exact ⟨rfl⟩
    | none =>
      rw [fillHome_of_none h]
      let s1 := l2Put s ⟨locDie p.loc, p.line, memLine s p, false, s.mpoison.contains p.line, none, p.ilv⟩ .normal
      have h1 : OnlyData s s1 := ⟨rfl⟩
      exact h1.trans (mscTouch_onlyData s1 _ _ _ _)
  unfold homeWrite
  split
  · extract_lets s1 s2
    have h2 : OnlyData s s2 := hfill.trans (setLineKey_onlyData _ p)
    clear_value s2
    exact h2.trans ⟨rfl⟩
  · extract_lets d s1 s2
    have h2 : OnlyData s1 s2 := .set_mem s1 _
    exact (setLineKey_onlyData s p).trans h2

theorem devWrite_onlyData (s : State) (p : Phys) (ctx : Nat) (l : List Byte) : OnlyData s (devWrite s p ctx l) := by
  unfold devWrite
  extract_lets s1
  have h1 : OnlyData s s1 := homeWrite_onlyData s p ctx l
  split
  · exact (h1.trans (l1Drop_onlyData _ _)).trans (writeBack_onlyData _ _)
  · exact h1

theorem foldl_keeps {σ α β : Type} {f : σ → α → σ} {x : σ → β} (h : ∀ s a, x (f s a) = x s) (l : List α) :
    ∀ s, x (l.foldl f s) = x s := by
  induction l with
  | nil => exact fun _ => rfl
  | cons a l ih => exact fun s => (ih _).trans (h s a)

theorem setPin_wsHolds (s : State) (ctx va : Nat) (b : Bool) : (setPin s ctx va b).wsHolds = s.wsHolds := by
  unfold setPin
  split
  · rfl
  · exact foldl_keeps (x := State.wsHolds) (fun s q => (devWrite_onlyData s _ _ _).wsHolds) _ s

theorem takeHold_counted (s : State) (ctx va : Nat) :
    smGet 0 (takeHold s true ctx va).wsHolds (pageKey ctx va) = smGet 0 s.wsHolds (pageKey ctx va) + 1 := by
  unfold takeHold
  extract_lets k s1
  have h1 : s1.wsHolds = s.wsHolds := by
    unfold s1
    split
    · rfl
    · exact setPin_wsHolds s ctx va true
  rw [if_pos rfl]
  exact (smGet_smSet_self _ _ _ _).trans (by rw [h1])

/-- A list of one page: its hold is taken, and the launch becomes eligible. -/
theorem wsHold_one (h : s.launch? q n = some la) (hpid : la.pid ≠ 0) (he : everPlaced s la = true)
    (htry : tryHold s true ctx va = .held (takeHold s true ctx va)) :
    (wsHold q n ctx [va] s).wsHolds = (takeHold s true ctx va).wsHolds := by
  have hmem := takeHold_onlyMem s true ctx va
  rw [wsHold, htry]
  dsimp only
  generalize takeHold s true ctx va = s1 at hmem ⊢
  have hfound : s1.launch? q n = some la := (launch?_congr hmem.launches q n).trans h
  have hheld : (s1.modLaunch q n fun l => { l with held := l.held + 1 }).launch? q n = some { la with held := la.held + 1 } :=
    (launch?_modLaunch s1 q n (fun l => { l with held := l.held + 1 }) fun _ => ⟨rfl, rfl⟩).trans (by rw [hfound]; rfl)
  rw [wsHold_done hheld hpid ((everPlaced_congr hmem.bar0 rfl rfl).trans he)]
  rfl

/-! Pages moved (R9). -/

theorem moveLine_packets (s : State) (ctx : Nat) (a b : Phys) : (moveLine s ctx a b).packets = s.packets := by
  unfold moveLine
  extract_lets s1 bad d g ren s2 s3
  have h1 : s1.packets = s.packets := ((writeBack_onlyMem s a.line).trans (mscTouch_onlyMem _ _ _ _ _)).packets
  have h2 : s2.packets = s1.packets := (dropLines_onlyMem s1 _).packets
  have h3 : s3.packets = s2.packets := rfl
  exact ((setMPoison_onlyMem s3 b.line bad).trans (mscTouch_onlyMem _ _ _ _ _)).packets.trans (h3.trans (h2.trans h1))

theorem editLeaf_onlyMem (s : State) (ctx va : Nat) (f : Nat → Nat) : OnlyMem s (editLeaf s ctx va f) := by
  unfold editLeaf
  split
  · exact .refl s
  · exact paWrite_onlyMem _ _ _ _ _

theorem moveTo_packets (s : State) (ctx : Nat) (t : Tr) (pa tier ilv : Nat) : (moveTo s ctx t pa tier ilv).packets = s.packets := by
  unfold moveTo
  extract_lets s1 s2
  have h1 : s1.packets = s.packets := foldl_keeps (x := State.packets) (fun s i => (dropPage_onlyMem s _ _).packets) _ s
  have h2 : s2.packets = s1.packets := foldl_keeps (x := State.packets) (fun s i => moveLine_packets s _ _ _) _ s1
  exact (editLeaf_onlyMem s2 _ _ _).packets.trans (h2.trans h1)

theorem pageMove_done {vpage tier ilv stack pa : Nat} (hp : s.packets = []) (hf : findLeaf s ctx (vpage * 65536) = some tr)
    (hown : (tr.phys s (vpage * 65536)).kind = .own) (htier : tier ≤ 1) (hi : (if tier = 0 then ilv else 0) ≤ 2) (hstack : stack ≤ 7)
    (hbusy : pageBusy s ctx tr = false) (hout : tier = 1 → mayGoOut s ctx tr = true)
    (hpa : freeFrame s tr.size tier (if tier = 0 then ilv else 0) stack = some pa) :
    pageMove s ctx vpage tier ilv stack = moveTo s ctx tr pa tier (if tier = 0 then ilv else 0) := by
  have hmove : movePage s ctx (vpage * 65536) tier ilv stack = some (moveTo s ctx tr pa tier (if tier = 0 then ilv else 0)) := by
    unfold movePage
    rw [hf]
    dsimp only
    rw [if_neg, hpa]
    · rfl
    · rw [hbusy]
      rintro (h | h | h | h | h)
      · exact h hown
      · omega
      · exact Nat.not_lt.2 hi h
      · omega
      · cases h
  unfold pageMove
  extract_lets va
  rw [if_neg, hmove]
  · change List.foldl _ (moveTo s ctx tr pa tier _) _ = _
    rw [moveTo_packets, hp]
    rfl
  · rintro ⟨ht, hany⟩
    change ((findLeaf s ctx (vpage * 65536)).any fun t => !mayGoOut s ctx t) = true at hany
    rw [hf] at hany
    simp [hout ht] at hany

theorem pageMove_busy {vpage tier ilv stack : Nat} (hf : findLeaf s ctx (vpage * 65536) = some tr) (hbusy : pageBusy s ctx tr = true) :
    pageMove s ctx vpage tier ilv stack = s := by
  have hmove : movePage s ctx (vpage * 65536) tier ilv stack = none := by
    unfold movePage
    rw [hf]
    exact if_pos (.inr (.inr (.inr (.inr hbusy))))
  unfold pageMove
  extract_lets va
  split
  · rfl
  · rw [hmove]

/-! Requests for host pages (R106 to R108). -/

/-- A request that asks for the same page for the same operation. -/
def PageReq.Same (r k : PageReq) : Prop :=
  k.ctx = r.ctx ∧ k.page = r.page ∧ k.launch = r.launch ∧ k.q = r.q ∧ k.key = r.key ∧ k.killed = false

/-- No request waits for a slot. -/
def CalmReqs (s : State) : Prop := ∀ k ∈ s.preqs, k.phase ≠ .waiting

theorem grantSlots_calm (h : CalmReqs s) : ∀ n, grantSlots s n = s
  | 0 => rfl
  | n + 1 => by
    have hnone : s.preqs.find? (fun r => r.phase == .waiting) = none := List.find?_eq_none.2 fun k hk => by simpa using h k hk
    unfold grantSlots
    rw [hnone]

theorem dropReq_calm (h : CalmReqs s) (r : PageReq) : CalmReqs (dropReq s r) := fun k hk => h k (List.mem_of_mem_filter hk)

theorem dropReq_not_mem (s : State) (r : PageReq) : r ∉ (dropReq s r).preqs := by
  simp [dropReq]

/-- The page asked for again. -/
theorem askPage_same (h : CalmReqs s) (hr : r.phase = .pri) (hgone : r ∉ s.preqs) :
    CalmReqs (askPage s r.ctx (r.page * 65536) r.launch r.q r.key) ∧ r ∉ (askPage s r.ctx (r.page * 65536) r.launch r.q r.key).preqs ∧
      ∃ k ∈ (askPage s r.ctx (r.page * 65536) r.launch r.q r.key).preqs, r.Same k := by
  have hpage : r.page * 65536 / 65536 = r.page := Nat.mul_div_cancel _ (by decide)
  unfold askPage
  extract_lets page
  have hp : page = r.page := hpage
  clear_value page
  subst hp
  split
  · next hany =>
    obtain ⟨k, hk, hsame⟩ := List.any_eq_true.1 hany
    simp only [Bool.and_eq_true, beq_iff_eq, Bool.not_eq_true'] at hsame
    obtain ⟨⟨⟨⟨⟨h1, h2⟩, h3⟩, h4⟩, h5⟩, h6⟩ := hsame
    exact ⟨h, hgone, k, hk, h1, h2, h3, h4, h5, h6⟩
  · refine ⟨fun k hk => ?_, fun hk => ?_, _, List.mem_append_right _ (List.mem_singleton.2 rfl), rfl, rfl, rfl, rfl, rfl, rfl⟩
    · rcases List.mem_append.1 hk with hk | hk
      · exact h k hk
      · obtain rfl := List.mem_singleton.1 hk
        nofun
    · rcases List.mem_append.1 hk with hk | hk
      · exact hgone hk
      · have := congrArg PageReq.phase (List.mem_singleton.1 hk)
        rw [hr] at this
        cases this

theorem answer_found {slot code : Nat} (h : s.preqs.find? (fun k => k.slot == slot && k.phase == .pri) = some r) :
    pageRequestAnswer s slot code = grantSlots (if r.killed then
        setBar (setBar (dropReq s r) (ctxBase r.ctx + 0x18) (w32 (bar64 (dropReq s r) (ctxBase r.ctx + 0x18) + 1))) (ctxBase r.ctx + 0x18 + 4)
          (w32 ((bar64 (dropReq s r) (ctxBase r.ctx + 0x18) + 1) / 2 ^ 32))
      else if code = 0 then askPage (dropReq s r) r.ctx (r.page * 65536) r.launch r.q r.key else failRequest (dropReq s r) r code) 1 := by
  unfold pageRequestAnswer
  rw [h]

theorem find_pri {slot : Nat} {f : PageReq → Bool} (h : s.preqs.find? (fun k => k.slot == slot && f k) = some r) : f r = true := by
  have hk := List.find?_some h
  simp only [Bool.and_eq_true] at hk
  exact hk.2

/-- A counter of 64 bits in two host registers, written. -/
theorem bar64_written (s : State) (off v : Nat) : bar64 (setBar (setBar s off (w32 v)) (off + 4) (w32 (v / 2 ^ 32))) off = v % 2 ^ 64 := by
  have hlow : bar (setBar (setBar s off (w32 v)) (off + 4) (w32 (v / 2 ^ 32))) off = w32 v := by
    rw [bar_setBar, if_neg (by omega), bar_setBar, if_pos rfl]
  have hhigh : bar (setBar (setBar s off (w32 v)) (off + 4) (w32 (v / 2 ^ 32))) (off + 4) = w32 (v / 2 ^ 32) := by
    rw [bar_setBar, if_pos rfl]
  rw [bar64, hlow, hhigh]
  simp only [w32, BitVec.toNat_ofNat]
  omega

/-- What the command processor's work on page requests leaves of launches. -/
theorem grantSlots_launches : ∀ (n : Nat) (s : State), (grantSlots s n).launches = s.launches
  | 0, _ => rfl
  | n + 1, s => by
    unfold grantSlots
    split
    · exact grantSlots_launches n _
    · rfl

/-- A launch that has not started takes the status with which its working set has failed. -/
theorem failRequest_launch {code : Nat} (hl : r.launch = true) (h : s.launch? r.q r.key = some la) (hst : la.state = .staging) (hpid : la.pid = 0) :
    ∃ l ∈ (failRequest s r code).launches, l.q = r.q ∧ l.lseq = r.key ∧ l.status = 2 + 2 ^ 12 * (code % 16) := by
  obtain ⟨hmem, hq, hn⟩ := launch?_spec h
  have hfail : failRequest s r code =
      (dropWs s la).modLaunch la.q la.lseq fun l => { l with status := 2 + 2 ^ 12 * (code % 16), held := 0 } := by
    unfold failRequest
    extract_lets status
    rw [if_pos hl, h]
    exact (if_pos hst).trans (if_pos hpid)
  have hdropped : (dropWs s la).launch? la.q la.lseq = some la :=
    (launch?_congr (dropWs_onlyMem s la).launches _ _).trans (launch?_own h)
  rw [hfail]
  exact ⟨_, mem_modLaunch hdropped _, hq, hn, rfl⟩

end

end Sys2Proof.Machine

end

section
/-! Host translations answered and invalidated, operating points raised, and blocks placed (R106, R109 to R111, R246). -/

namespace Sys2Proof.Machine

section
variable {s t s1 : State} {q n ctx va slot frame core idx die : Nat} {la : Launch} {tr : Tr} {r : PageReq}

/-! Answers to translation requests (R106). -/

theorem ats_found (h : s.preqs.find? (fun k => k.slot == slot && k.phase == .ats) = some r) (hk : r.killed = false) :
    atsCompletion s slot frame =
      if frame < 2 ^ 34 then
        if r.launch then stageOn (editLeaf (dropReq s r) r.ctx (r.page * 65536) fun v => putField (putField v 49 16 frame) 12 12 1) r.q r.key
        else pinOn (editLeaf (dropReq s r) r.ctx (r.page * 65536) fun v => putField (putField v 49 16 frame) 12 12 1) r.key
      else grantSlots { dropReq s r with preqs := (dropReq s r).preqs ++ [{ r with phase := .waiting }] } 1 := by
  unfold atsCompletion
  rw [h]
  exact if_neg (by simp [hk])

theorem pinOn_none {id : Nat} (h : ∀ k ∈ s.packets, k.id ≠ id) : pinOn s id = s := by
  have hnone : s.packets.find? (fun k => k.id == id && k.op == 3 && !k.done) = none :=
    List.find?_eq_none.2 fun k hk => by simp [h k hk]
  unfold pinOn
  rw [hnone]

/-- Of 256 slots one is free while fewer are in use. -/
theorem free_slot {used : List Nat} (h : used.length < 256) : ∃ i, (List.range 256).find? (fun i => !used.contains i) = some i ∧ i < 256 := by
  cases hf : (List.range 256).find? fun i => !used.contains i with
  | some i => exact ⟨i, rfl, List.mem_range.1 (List.mem_of_find?_eq_some hf)⟩
  | none =>
    have hsub : List.range 256 ⊆ used := fun i hi => by simpa using List.find?_eq_none.1 hf i hi
    have hle := (List.nodup_range.subperm hsub).length_le
    rw [List.length_range] at hle
    omega

/-- The one request that waits takes a free slot. -/
theorem grantSlots_one {w : PageReq} (hw : w.phase = .waiting) (hcalm : CalmReqs s) (hslots : (slotsUsed s).length < 256) :
    ∃ i, i < 256 ∧ (grantSlots { s with preqs := s.preqs ++ [w] } 1).out = s.out ++ [.pri (ctxPasid s w.ctx) w.page] ∧
      { w with slot := i, phase := .pri, since := s.time } ∈ (grantSlots { s with preqs := s.preqs ++ [w] } 1).preqs := by
  have hnone : s.preqs.find? (fun r => r.phase == .waiting) = none := List.find?_eq_none.2 fun k hk => by simpa using hcalm k hk
  have hfind : (s.preqs ++ [w]).find? (fun r => r.phase == .waiting) = some w := by
    rw [List.find?_append, hnone]
    simp [hw]
  have hused : slotsUsed { s with preqs := s.preqs ++ [w] } = slotsUsed s := by
    have hno : (w.phase == .pri) = false := by rw [hw]; rfl
    simp [slotsUsed, List.filter_append, hno]
  obtain ⟨i, hi, hlt⟩ := free_slot hslots
  rw [← hused] at hi
  refine ⟨i, hlt, ?_, ?_⟩
  · unfold grantSlots
    simp only [hfind, hi]
    rfl
  · unfold grantSlots
    simp only [hfind, hi]
    exact List.mem_map.2 ⟨w, by simp, if_pos rfl⟩

theorem dropReq_slots (s : State) (r : PageReq) : (slotsUsed (dropReq s r)).length ≤ (slotsUsed s).length := by
  simp only [slotsUsed, dropReq, List.length_map]
  exact (List.filter_sublist.filter _).length_le

/-! Invalidations (R246, R249). -/

/-- No translation of a context held in a TLB covers a page. -/
def NoTlb (ctx page : Nat) (s : State) : Prop :=
  ∀ e ∈ s.tlb, e.ctx = ctx → ¬ (e.vbase / 65536 ≤ page ∧ page < e.vbase / 65536 + e.pages)

theorem dropPage_tlb (s : State) (ctx va : Nat) : (dropPage s ctx va).tlb = s.tlb.filter fun e => !(e.ctx == ctx &&
    decide (e.vbase / 65536 ≤ va / 65536) && decide (va / 65536 < e.vbase / 65536 + e.pages)) := by
  have hback : ∀ l : List Nat, (l.foldl writeBack s).tlb = s.tlb :=
    fun l => foldl_keeps (x := State.tlb) (fun s a => (writeBack_onlyData s a).tlb) l s
  unfold dropPage
  extract_lets page inPage s1
  exact congrArg (List.filter _) (hback _)

theorem dropPage_noTlb (s : State) (ctx va : Nat) : NoTlb ctx (va / 65536) (dropPage s ctx va) := by
  intro e he hctx hin
  rw [dropPage_tlb] at he
  have hk := (List.mem_filter.1 he).2
  simp [hctx, hin.1, hin.2] at hk

theorem NoTlb.dropPage {page : Nat} (h : NoTlb ctx page s) (ctx' va : Nat) : NoTlb ctx page (Machine.dropPage s ctx' va) := by
  intro e he
  rw [dropPage_tlb] at he
  exact h e (List.mem_of_mem_filter he)

theorem NoTlb.foldl {page : Nat} {α : Type} {va : α → Nat} (l : List α) : ∀ s : State, NoTlb ctx page s →
    NoTlb ctx page (l.foldl (fun s i => Machine.dropPage s ctx (va i)) s) := by
  induction l with
  | nil => exact fun _ h => h
  | cons a l ih => exact fun s h => ih _ (h.dropPage ctx (va a))

theorem dropLines_tlb (s : State) (gone : CLine → Bool) : (dropLines s gone).tlb = s.tlb := by
  unfold dropLines
  extract_lets out
  split
  · rfl
  · exact (l1Drop_onlyData _ _).tlb

theorem findLeaf_size (h : findLeaf s ctx va = some tr) : 1 ≤ tr.size / 65536 := by
  have hsize : ∀ lvl, 1 ≤ levelSize lvl / 65536 := by
    intro lvl
    unfold levelSize
    split
    · decide
    · split <;> decide
  unfold findLeaf at h
  extract_lets root at h
  split at h
  · split at h
    · next ent lvl _ =>
      split at h
      · obtain rfl := Option.some.inj h
        exact hsize lvl
      · cases h
    · cases h
  · cases h

theorem dropPages_onlyMem (ctx vbase : Nat) (l : List Nat) (s : State) :
    OnlyMem s (l.foldl (fun s i => Machine.dropPage s ctx (vbase + 65536 * i)) s) :=
  OnlyMem.foldl (fun s i => dropPage_onlyMem s ctx (vbase + 65536 * i)) l s

theorem invalidatePage_spec (hf : findLeaf s ctx va = some tr) (hh : tr.host = true) (hp : tr.pin = true) :
    (invalidatePage s ctx va).out = s.out ∧ NoTlb ctx (tr.vbase / 65536) (invalidatePage s ctx va) := by
  unfold invalidatePage
  rw [hf]
  dsimp only
  rw [if_pos (by rw [hh, hp]; rfl)]
  have hedit := editLeaf_onlyMem s ctx va fun v => putField (putField v 49 16 0) 12 12 0
  generalize editLeaf s ctx va (fun v => putField (putField v 49 16 0) 12 12 0) = s1 at hedit ⊢
  have hpages := dropPages_onlyMem ctx tr.vbase (List.range (tr.size / 65536)) s1
  have hgone : NoTlb ctx (tr.vbase / 65536) ((List.range (tr.size / 65536)).foldl (fun s i => Machine.dropPage s ctx (tr.vbase + 65536 * i)) s1) := by
    obtain ⟨k, hk⟩ := Nat.exists_eq_add_of_le' (findLeaf_size hf)
    rw [hk, List.range_succ_eq_map, List.foldl_cons]
    exact NoTlb.foldl (va := fun i => tr.vbase + 65536 * i) _ _ (dropPage_noTlb s1 ctx tr.vbase)
  refine ⟨(dropLines_onlyMem _ _).out.trans (hpages.out.trans hedit.out), fun e he => hgone e ?_⟩
  rwa [dropLines_tlb] at he

/-! Operating points (R111). -/

theorem le_foldl_max {α : Type} (f : α → Nat) (l : List α) : ∀ m : Nat,
    m ≤ l.foldl (fun n a => max n (f a)) m ∧ ∀ a ∈ l, f a ≤ l.foldl (fun n a => max n (f a)) m := by
  induction l with
  | nil => exact fun m => ⟨le_refl m, nofun⟩
  | cons b l ih =>
    intro m
    obtain ⟨h1, h2⟩ := ih (max m (f b))
    refine ⟨(le_max_left _ _).trans h1, fun a ha => ?_⟩
    rcases List.mem_cons.1 ha with rfl | ha
    · exact (le_max_right _ _).trans h1
    · exact h2 a ha

/-- A die with its point raised to what a launch wants, within its caps. -/
def Die.raised (d : Die) (want : Nat) : Die := { d with point := max d.point (min d.limit want) }

/-- The point that the launches of a die ask for. -/
def wanted (s : State) (die : Nat) : Nat :=
  (s.launches.filter (awaitsPlace s)).foldl (fun n l => max n l.hdr.oppt) (dieWants s die (dieAt s die))

theorem oppointStable_of (h : die ≤ 1) : dieAt (oppointStable s die) die = (dieAt s die).raised (wanted s die) ∧
    dieAt (oppointStable s die) (1 - die) = dieAt s (1 - die) ∧ { oppointStable s die with die0 := s.die0, die1 := s.die1 } = s := by
  obtain rfl | rfl : die = 0 ∨ die = 1 := by omega
  · exact ⟨rfl, rfl, rfl⟩
  · exact ⟨rfl, rfl, rfl⟩

/-! Blocks placed (R109, R262, R271). -/

theorem leaseRow_rest (s : State) (core row q lseq : Nat) : leaseRow s core row q lseq = { s with reserves := (leaseRow s core row q lseq).reserves } := by
  unfold leaseRow
  split
  · rfl
  · split
    · rfl
    · extract_lets mine add
      split <;> rfl

/-- Only reservations differ. -/
def OnlyReserves (s t : State) : Prop := t = { s with reserves := t.reserves }

theorem OnlyReserves.trans {u : State} (h : OnlyReserves s t) (k : OnlyReserves t u) : OnlyReserves s u := by
  unfold OnlyReserves at *
  rw [k, h]

theorem OnlyReserves.foldl {α : Type} {f : State → α → State} (hf : ∀ s a, OnlyReserves s (f s a)) (l : List α) : ∀ s, OnlyReserves s (l.foldl f s) := by
  induction l with
  | nil => exact fun _ => rfl
  | cons a l ih => exact fun s => (hf s a).trans (ih _)

theorem dropReserves_only (s : State) (gone : Reserve → Bool) (taken : List Nat) : OnlyReserves s (dropReserves s gone taken) := by
  unfold dropReserves
  extract_lets out s1
  have h1 : OnlyReserves s s1 := rfl
  refine h1.trans (OnlyReserves.foldl (fun s r => ?_) out s1)
  exact OnlyReserves.foldl (fun s i => leaseRow_rest s r.core i r.q r.lseq) _ s

/-- Room in the record area is noted in the launch alone. -/
theorem reserveRecord_spec (h : s.launch? q n = some la) (hres : reserveRecord s la idx = some s1) :
    s1 = { s with launches := s1.launches } ∧ ∃ lb, s1.launch? q n = some lb ∧ lb.nextIdx = la.nextIdx := by
  obtain ⟨-, rfl, rfl⟩ := launch?_spec h
  have hbase : ∀ s0, s0 = { s with launches := s0.launches } → (∃ lb, s0.launch? la.q la.lseq = some lb ∧ lb.nextIdx = la.nextIdx) →
      ((findRoom s0 la.ctx (blockRecLen la.hdr)).map fun a =>
        s0.modLaunch la.q la.lseq fun l => { l with blkRecs := l.blkRecs ++ [(idx, w64 a)] }) = some s1 →
      s1 = { s with launches := s1.launches } ∧ ∃ lb, s1.launch? la.q la.lseq = some lb ∧ lb.nextIdx = la.nextIdx := by
    rintro s0 h0 ⟨lb, hlb, hidx⟩ hs1
    obtain ⟨a, -, rfl⟩ := Option.map_eq_some_iff.1 hs1
    refine ⟨?_, { lb with blkRecs := lb.blkRecs ++ [(idx, w64 a)] }, ?_, hidx⟩
    · conv_lhs => rw [h0]
      rfl
    · exact (launch?_modLaunch s0 la.q la.lseq (fun l => { l with blkRecs := l.blkRecs ++ [(idx, w64 a)] }) fun _ => ⟨rfl, rfl⟩).trans (by rw [hlb]; rfl)
  unfold reserveRecord at hres
  extract_lets s? at hres
  cases hrec : la.recBase with
  | some a =>
    have hs : s? = some s := by simp only [s?, hrec]
    rw [hs] at hres
    exact hbase s rfl ⟨la, h, rfl⟩ hres
  | none =>
    have hs : s? = (findRoom s la.ctx 4096).map fun a => s.modLaunch la.q la.lseq fun l => { l with recBase := some a } := by simp only [s?, hrec]
    rw [hs] at hres
    obtain ⟨s0, h0, hs1⟩ := Option.bind_eq_some_iff.1 hres
    obtain ⟨a, -, rfl⟩ := Option.map_eq_some_iff.1 h0
    refine hbase _ rfl ⟨{ la with recBase := some a }, ?_, rfl⟩ hs1
    exact (launch?_modLaunch s la.q la.lseq (fun l => { l with recBase := some a }) fun _ => ⟨rfl, rfl⟩).trans (by rw [h]; rfl)

/-! Rows are found while enough are free. -/

theorem foldl_argmax (f : Nat → Nat) (l : List Nat) : ∀ b : Nat, f b ≤ f (l.foldl (fun b i => if f b < f i then i else b) b) ∧
    ∀ i ∈ l, f i ≤ f (l.foldl (fun b i => if f b < f i then i else b) b) := by
  induction l with
  | nil => exact fun b => ⟨le_refl _, nofun⟩
  | cons a l ih =>
    intro b
    obtain ⟨h1, h2⟩ := ih (if f b < f a then a else b)
    have hb : f b ≤ f (if f b < f a then a else b) ∧ f a ≤ f (if f b < f a then a else b) := by
      split <;> constructor <;> omega
    refine ⟨hb.1.trans h1, fun i hi => ?_⟩
    rcases List.mem_cons.1 hi with rfl | hi
    · exact hb.2.trans h1
    · exact h2 i hi

theorem pickRow_found {free : List Nat} (hlt : ∀ x ∈ free, x < Config.rows) (hne : free ≠ []) : ∃ x ∈ free, pickRow free = some x := by
  obtain ⟨x, hx⟩ := List.exists_mem_of_ne_nil free hne
  unfold pickRow
  extract_lets count quad
  have hmax := (foldl_argmax count (List.range 4) 0).2 (x / 16) (List.mem_range.2 (by
    have hrow : x < 64 := hlt x hx
    omega))
  have hpos : 0 < count (x / 16) := List.length_pos_of_mem (List.mem_filter.2 ⟨hx, by simp⟩)
  obtain ⟨y, hy⟩ := List.exists_mem_of_length_pos (show 0 < (free.filter fun r => r / 16 == quad).length from hpos.trans_le hmax)
  obtain ⟨hyf, hyq⟩ := List.mem_filter.1 hy
  cases hfind : (List.range Config.rows).find? fun r => r / 16 == quad && free.contains r with
  | none =>
    have hno := List.find?_eq_none.1 hfind y (List.mem_range.2 (hlt y hyf))
    simp only [hyq, Bool.true_and, List.contains_iff_mem] at hno
    exact absurd hyf hno
  | some z =>
    have hz := List.find?_some hfind
    simp only [Bool.and_eq_true, List.contains_iff_mem] at hz
    exact ⟨z, hz.2, rfl⟩

theorem pickRows_length : ∀ (k : Nat) {free : List Nat}, (∀ x ∈ free, x < Config.rows) → free.Nodup → k ≤ free.length → (pickRows free k).length = k
  | 0, _, _, _, _ => rfl
  | k + 1, free, hlt, hn, hk => by
    obtain ⟨x, hx, hpick⟩ := pickRow_found hlt (List.length_pos_iff.1 (by omega))
    have hlen : (free.filter fun i => i != x).length = free.length - 1 := by
      rw [← hn.erase_eq_filter, List.length_erase_of_mem hx]
    have hrec := pickRows_length k (free := free.filter fun i => i != x) (fun y hy => hlt y (List.mem_of_mem_filter hy)) (hn.filter _) (by omega)
    rw [pickRows, hpick]
    exact congrArg Nat.succ hrec

theorem freeRows_spec (s : State) (core : Nat) : (∀ x ∈ freeRows s core, x < Config.rows) ∧ (freeRows s core).Nodup :=
  ⟨fun _ hx => List.mem_range.1 (List.mem_filter.1 hx).1, List.nodup_range.filter _⟩

/-- A block placed: the launch goes on to its next index, and the block's teams stand at the entry. -/
def placedState (s s1 : State) (la : Launch) (core : Nat) : State :=
  { s1 with
    blocks := s1.blocks ++ [newBlock s.nextId la.q la.lseq (la.hdr.linear la.nextIdx) (.core core) (newTeams s1 la (la.hdr.linear la.nextIdx)
      (pickRows (rowsFor s1 core (Reserve.mine core la.q la.lseq)) (la.hdr.ext 1))) la.hdr.scratch],
    nextId := s1.nextId + 1 }.modLaunch la.q la.lseq fun l => { l with nextIdx := l.nextIdx + 1, state := .running }

theorem blockPlacement_placed (h : s.launch? q n = some la) (hnever : neverPlaced s la = false) (hunit : unitLen la.hdr = 1)
    (hfirst : goesFirst s la [core] = false) (hwant : wantsPlace la = true)
    (hfits : coreFits s core (Reserve.mine core q n) (needOf la.hdr) = true) (hpoint : pointReady s la core = true)
    (hres : reserveRecord s la (la.hdr.linear la.nextIdx) = some s1) :
    (blockPlacement s q n [core]).blocks = (placedState s s1 la core).blocks ∧
      (blockPlacement s q n [core]).launches = (placedState s s1 la core).launches := by
  obtain ⟨-, rfl, rfl⟩ := launch?_spec h
  have hnext : s1.nextId = s.nextId := by rw [(reserveRecord_spec h hres).1]
  have htogether : groupsTogether (la.hdr.ext 2) [core] = true := by
    simp [groupsTogether, List.zipIdx]
  have hplace : placeBlock s la.q la.lseq core = some (dieLower (placedReserves (placedState s s1 la core) la.q la.lseq
      (la.hdr.linear la.nextIdx) core (pickRows (rowsFor s1 core (Reserve.mine core la.q la.lseq)) (la.hdr.ext 1)))) := by
    unfold placeBlock
    rw [h]
    dsimp only
    rw [hwant, hfits, hpoint, hres]
    refine (if_pos rfl).trans ?_
    rw [placedState, ← hnext]
    rfl
  have hrun : blockPlacement s la.q la.lseq [core] = (placeBlock s la.q la.lseq core).getD s := by
    unfold blockPlacement
    rw [h]
    dsimp only
    rw [if_neg (by rw [hnever]; exact Bool.false_ne_true), if_pos]
    · rfl
    · rw [htogether, hfirst]
      exact (Bool.and_true _).trans ((Bool.and_true _).trans (decide_eq_true hunit.symm))
  have honly := dropReserves_only (placedState s s1 la core) (fun r => r.q == la.q && r.lseq == la.lseq &&
    (r.idx == la.hdr.linear la.nextIdx || r.core == core)) (pickRows (rowsFor s1 core (Reserve.mine core la.q la.lseq)) (la.hdr.ext 1))
  rw [hrun, hplace]
  exact ⟨(congrArg State.blocks honly).trans rfl, (congrArg State.launches honly).trans rfl⟩

end

end Sys2Proof.Machine

end

section
/-! Pages, points and placement: the events (R105 to R111, R246). -/

namespace Sys2Proof.Machine

section
variable {s s1 : State} {q n core idx : Nat} {la : Launch}

/-- The teams of a new block. -/
theorem newTeams_spec {rows : List Nat} {m : Team} (h : m ∈ newTeams s la idx rows) : m.lanes = la.hdr.ext 0 ∧ m.wid0 = la.hdr.wid idx m.idx ∧
    m.drawn = la.hdr.budget * la.hdr.ext 0 ∧ m.v = [] ∧ m.k = [] ∧ m.x = [] ∧
    ∃ x, m.records = [x] ∧ x.num = 0 ∧ x.pc = la.hdr.entry ∧ x.k0 = firstLanes (la.hdr.ext 0) ∧ x.alloc = la.hdr.budget := by
  obtain ⟨p, -, rfl⟩ := List.mem_map.1 h
  exact ⟨rfl, rfl, rfl, rfl, rfl, rfl, _, rfl, rfl, rfl, rfl, rfl⟩

/-- With nothing reserved a block that fits finds a row for each of its teams. -/
theorem newTeams_length (h1 : s1 = { s with launches := s1.launches }) (hres : s.reserves = []) (mine : Reserve → Bool)
    (hfits : coreFits s core mine (needOf la.hdr) = true) :
    (newTeams s1 la idx (pickRows (rowsFor s1 core mine) (la.hdr.ext 1))).length = la.hdr.ext 1 := by
  have hrows : rowsFor s1 core mine = freeRows s core := by
    rw [h1]
    change freeRows s core ++ (s.reserves.filter mine).flatMap Reserve.rows = _
    rw [hres]
    exact List.append_nil _
  have hlen : la.hdr.ext 1 ≤ (freeRows s core).length := by
    simp only [coreFits, Bool.and_eq_true, decide_eq_true_eq] at hfits
    have hr := hfits.1.1.2
    have hs : rowsFor s core mine = freeRows s core := by
      unfold rowsFor
      rw [hres]
      exact List.append_nil _
    rw [hs] at hr
    exact hr
  obtain ⟨hlt, hn⟩ := freeRows_spec s core
  rw [hrows]
  simp only [newTeams, List.length_map, List.length_zipIdx]
  exact pickRows_length _ hlt hn hlen

end

end Sys2Proof.Machine

open Sys2Proof Sys2Proof.Machine

/-- Settles O45, event by event. -/
theorem pageAndPlacementEvents : Obligations.PageAndPlacementEvents := by
  unfold Obligations.PageAndPlacementEvents
  intro s q n ctx vpage tier ilv stack slot code pasid frame core die va la tr r
  extract_lets now becomes calm i same asks fails inSlot late byAts stagingOf
  have hstage : stagingOf → s.launch? q n = some la ∧ Stageable s la ∧ la.pid ≠ 0 ∧ everPlaced s la = true := by
    rintro ⟨hl, hst, hsg, hstat, hheld, hpid, hgr, hfast, hpl, hev⟩
    exact ⟨hl, ⟨hst, hsg, hstat, hheld, hgr, hfast, hpl⟩, hpid, hev⟩
  refine ⟨fun hso hnil => ?_, fun hso hone hf hroom hpin => ?_, fun hp hf hown htier hi hstack hbusy hout pa hpa => ?_,
    fun hf hbusy => ?_, fun hin hcalm hk hc => ?_, fun hin hcalm hk => ?_, fun hin hask hk hc => ?_, fun hin hask hk hl => ?_, fun hin hl => ?_,
    fun hin hk hl hpk hfr => ?_, fun hin hk hcalm hs hfr => ?_, fun hctx hf hh hp => ?_, fun hd => ?_,
    fun hl hnever hunit hfirst hwant hfits hpoint hres => ?_, fun hl hwait hage hprio => ?_⟩
  · obtain ⟨hl, hst, hpid, hev⟩ := hstage hso
    have hrun := (workingSetStaging_started hl).trans ((stageOn_holds hl hst).trans
      ((congrArg (fun l => wsHold q n la.ctx l s) hnil).trans (wsHold_done hl hpid hev)))
    have hstaged : (s.modLaunch q n fun l => { l with staged := true }).launch? q n = some { la with staged := true } :=
      (launch?_modLaunch s q n (fun l => { l with staged := true }) fun _ => ⟨rfl, rfl⟩).trans (by rw [hl]; rfl)
    obtain ⟨-, hq, hn⟩ := launch?_spec hl
    exact ⟨_, congrArg Host.Outcome.next hrun, _, mem_modLaunch hstaged _, hq, hn, rfl, rfl, rfl⟩
  · obtain ⟨hl, hst, hpid, hev⟩ := hstage hso
    refine ⟨workingSetStaging s q n, rfl, ?_⟩
    beta_reduce
    rw [workingSetStaging_started hl, stageOn_holds hl hst, hone, wsHold_one hl hpid hev (tryHold_held hf hroom hpin)]
    exact takeHold_counted s la.ctx va
  · exact congrArg Host.Outcome.next (pageMove_done hp hf hown htier hi hstack hbusy hout hpa)
  · exact congrArg Host.Outcome.next (pageMove_busy hf hbusy)
  · refine ⟨pageRequestAnswer s slot code, rfl, ?_⟩
    obtain ⟨hcalm', hgone, k, hk', hsame⟩ := askPage_same (dropReq_calm hcalm r) (by simpa using find_pri hin) (dropReq_not_mem s r)
    rw [answer_found hin, if_neg (by simp [hk]), if_pos hc, grantSlots_calm hcalm']
    exact ⟨hgone, k, hk', hsame⟩
  · refine ⟨pageRequestAnswer s slot code, rfl, ?_⟩
    beta_reduce
    rw [answer_found hin, if_pos hk, grantSlots_calm (s := setBar (setBar (dropReq s r) _ _) _ _) (dropReq_calm hcalm r), bar64_written]
    rfl
  · obtain ⟨hlaunch, hl, hst, hpid⟩ := hask
    refine ⟨pageRequestAnswer s slot code, rfl, ?_⟩
    obtain ⟨l, hmem, hspec⟩ := failRequest_launch (s := dropReq s r) (code := code) hlaunch hl hst hpid
    rw [answer_found hin, if_neg (by simp [hk]), if_neg hc]
    exact ⟨l, (grantSlots_launches 1 _).symm ▸ hmem, hspec⟩
  · obtain ⟨hlaunch, hl', hst, hpid⟩ := hask
    refine ⟨pageRequestTimeout s slot, rfl, ?_⟩
    obtain ⟨l, hmem, hspec⟩ := failRequest_launch (s := dropReq s r) (code := 0xF) hlaunch hl' hst hpid
    have hrun : pageRequestTimeout s slot = grantSlots (failRequest (dropReq s r) r 0xF) 1 := by
      unfold pageRequestTimeout
      rw [hin]
      refine (if_neg (Nat.not_le.2 hl)).trans ?_
      exact congrArg (grantSlots · 1) (if_neg (by simp [hk]))
    rw [hrun]
    exact ⟨l, (grantSlots_launches 1 _).symm ▸ hmem, hspec⟩
  · refine congrArg Host.Outcome.next ?_
    unfold pageRequestTimeout
    rw [hin]
    exact if_pos (Nat.not_lt.1 hl)
  · refine congrArg Host.Outcome.next ((ats_found hin hk).trans ((if_pos hfr).trans ((if_neg (by simp [hl])).trans (pinOn_none ?_))))
    rw [(editLeaf_onlyMem (dropReq s r) _ _ _).packets]
    exact hpk
  · obtain ⟨j, hj, hout, hmem⟩ := grantSlots_one (s := dropReq s r) (w := { r with phase := .waiting }) rfl (dropReq_calm hcalm r)
      (lt_of_le_of_lt (dropReq_slots s r) hs)
    refine ⟨_, congrArg Host.Outcome.next ((ats_found hin hk).trans (if_neg (Nat.not_lt.2 hfr))), hout, _, hmem, ?_, rfl, hj, rfl⟩
    exact ⟨rfl, rfl, rfl, rfl, rfl, hk⟩
  · obtain ⟨hout, htlb⟩ := invalidatePage_spec hf hh hp
    have hrun : atsInvalidation s pasid va 1 = { invalidatePage s ctx va with out := (invalidatePage s ctx va).out ++ [.atsDone pasid va 1] } := by
      unfold atsInvalidation
      rw [hctx]
      rfl
    refine ⟨_, congrArg Host.Outcome.next hrun, ?_, fun e he hec => htlb e he hec⟩
    exact congrArg (· ++ _) hout
  · obtain ⟨hat, hother, hrest⟩ := oppointStable_of (s := s) hd
    refine ⟨oppointStable s die, rfl, hrest, fun l hl hw => ?_, ?_, hother⟩
    · have hmax := (le_foldl_max (fun l : Launch => l.hdr.oppt) (s.launches.filter (awaitsPlace s)) (dieWants s die (dieAt s die))).2 l
        (List.mem_filter.2 ⟨hl, hw⟩)
      rw [hat]
      change min l.hdr.oppt (dieAt s die).limit ≤ max (dieAt s die).point (min (dieAt s die).limit (wanted s die))
      have hle : l.hdr.oppt ≤ wanted s die := hmax
      omega
    · rw [hat]
      change max (dieAt s die).point (min (dieAt s die).limit (wanted s die)) ≤ _
      omega
  · obtain ⟨s1, hs1⟩ := Option.isSome_iff_exists.1 hres
    obtain ⟨hblocks, hlaunches⟩ := blockPlacement_placed hl hnever hunit hfirst hwant hfits hpoint hs1
    obtain ⟨hrest, lb, hlb, hidx⟩ := reserveRecord_spec hl hs1
    obtain ⟨-, hq, hn⟩ := launch?_spec hl
    obtain ⟨-, hq', hn'⟩ := launch?_spec hlb
    refine ⟨blockPlacement s q n [core], rfl, ⟨{ lb with nextIdx := lb.nextIdx + 1, state := .running }, ?_, hq', hn', ?_, rfl⟩, ?_⟩
    · rw [hlaunches]
      rw [← hq, ← hn] at hlb
      exact mem_modLaunch (s := { s1 with blocks := _, nextId := _ }) hlb fun l => { l with nextIdx := l.nextIdx + 1, state := .running }
    · exact congrArg (· + 1) hidx
    · have hin : ∀ b ∈ (placedState s s1 la core).blocks, b ∈ (blockPlacement s q n [core]).blocks := fun b hb => hblocks ▸ hb
      refine ⟨_, hin _ (List.mem_append_right _ (List.mem_singleton.2 rfl)), rfl, hq, hn, rfl, rfl, rfl, fun hnone => ?_, fun m hm => ?_⟩
      · rw [← hq, ← hn] at hfits
        exact newTeams_length hrest hnone _ hfits
      · exact newTeams_spec hm
  · obtain ⟨-, hq, hn⟩ := launch?_spec hl
    refine ⟨placementAging s q n, rfl, _, mem_modLaunch hl _, ?_⟩
    rw [if_pos (by simp only [hwait, Bool.true_and, Bool.and_eq_true, decide_eq_true_eq]; exact ⟨hage, hprio⟩)]
    exact ⟨hq, hn, rfl⟩

end

section
/-! Values and acknowledgements that arrive, waits that end, claims granted, and the end of run-ahead (R76, R128, R137, R138, R152, R235,
R253, R260). -/

namespace Sys2Proof.Machine

section
variable {s t : State} {bid team sub core q n : Nat} {b : Block} {u : Team} {r : Record} {c : ClaimReq}

/-! A sub-team's wait ends. -/

/-- A record whose wait is over. -/
def Record.woken (now : Nat) (r : Record) : Record := { r with wait := .ready, readySince := now, aged := false }

theorem wakeRec_num (p : Wait → Bool) (now : Nat) (r : Record) : (wakeRec p now r).num = r.num := by
  unfold wakeRec
  split <;> rfl

theorem wakeRec_over {p : Wait → Bool} (h : p r.wait = true) (now : Nat) : wakeRec p now r = r.woken now := if_pos h

theorem wakeRec_stands {p : Wait → Bool} (h : p r.wait = false) (now : Nat) : wakeRec p now r = r := if_neg (by rw [h]; exact Bool.false_ne_true)

/-- The record of a team that an event changes. -/
theorem rec_changed (hu : s.team? bid team = some u) (hr : u.rec? sub = some r) (g : Team → Record → Record) (hg : ∀ v x, (g v x).num = x.num) :
    ∃ v, (s.modTeam bid team fun v => v.modRec sub (g v)).team? bid team = some v ∧ v.rec? sub = some (g u r) := by
  refine ⟨_, team?_modTeam_same hu fun _ => rfl, ?_⟩
  rw [Team.rec?_modRec _ _ _ _ (hg u), hr, Option.map_some, if_pos rfl]

/-! Acknowledgements (R235, R469). -/

theorem foldl_max_le {α : Type} (f : α → Nat) (l : List α) (g : Nat) : g ≤ l.foldl (fun n a => max n (f a)) g := (le_foldl_max f l g).1

theorem answered_ge (s : State) (lines : List Nat) (g : Nat) : g ≤ (answered s lines g).1 :=
  (foldl_max_le _ lines g).trans (foldl_max_le _ _ _)

theorem flushRead_rest (s : State) (ctx : Nat) (u : Team) : (flushRead s ctx u).blocks = s.blocks ∧ (flushRead s ctx u).time = s.time := by
  unfold flushRead
  split <;> exact ⟨rfl, rfl⟩

/-- What a team waits for once its homes have answered, and after which answers. -/
theorem homeAcks_spec (hB : s.block? bid = some b) (hu : s.team? bid team = some u) (rel : Bool)
    (hrel : u.records.any (fun r => r.wait.isRelease) = rel) : ∃ v, (homeAcks s bid team).team? bid team = some v ∧ u.gwct ≤ v.gwct ∧ v.v = u.v ∧
      v.s = u.s ∧ v.k = u.k ∧ v.unacked = (if rel then [] else u.unacked.filter hostLine) ∧ v.lastHost = (if rel then 0 else u.lastHost) ∧
      (homeAcks s bid team).out = (if rel then flushRead s (queueCtx s b.q) u else s).out := by
  let s0 := if rel then flushRead s (queueCtx s b.q) u else s
  let stay := if rel then [] else u.unacked.filter hostLine
  let a := answered s0 (u.unacked.filter fun l => !stay.contains l) u.gwct
  let f : Team → Team := fun t =>
    { t with unacked := stay, gwct := a.1, lastHost := if rel then 0 else t.lastHost }.wakeReleases a.2.time
  have hrun : homeAcks s bid team = a.2.modTeam bid team f := by
    unfold homeAcks
    rw [hB, hu]
    dsimp only
    rw [hrel]
  have hblocks : a.2.blocks = s.blocks := by
    refine (answered_blocks _ _ _).trans ?_
    unfold s0
    split
    · exact (flushRead_rest s _ u).1
    · rfl
  rw [hrun]
  exact ⟨f u, team?_modTeam_same ((team?_of_blocks hblocks bid team).trans hu) fun _ => rfl, answered_ge _ _ _, rfl, rfl, rfl, rfl, rfl,
    (answered_frame s0 (u.unacked.filter fun l => !stay.contains l) u.gwct).2⟩

theorem any_release {u : Team} : (u.records.any fun r => r.wait.isRelease) = true ↔ ∃ x ∈ u.records, ∃ sc, x.wait = .release sc := by
  rw [List.any_eq_true]
  refine exists_congr fun x => and_congr_right fun _ => ⟨fun h => ?_, ?_⟩
  · cases hw : x.wait <;> simp [hw, Wait.isRelease] at h
    exact ⟨_, rfl⟩
  · rintro ⟨sc, hw⟩
    rw [hw]
    rfl

/-! Host reads that end without a completion (R260). -/

theorem setLost_rest (m : Nat) (p : RegKey × LaneMask) (u : Team) :
    (setLost m p u).waits = u.waits ∧ (setLost m p u).idx = u.idx := by
  unfold setLost
  extract_lets ls
  split
  · next r _ => exact ⟨foldl_keeps (f := fun t l => t.setV r l (Config.lostRead m l)) (x := Team.waits) (fun _ _ => rfl) ls u,
      foldl_keeps (f := fun t l => t.setV r l (Config.lostRead m l)) (x := Team.idx) (fun _ _ => rfl) ls u⟩
  · exact ⟨rfl, rfl⟩
  · next r _ => exact ⟨foldl_keeps (f := fun t l => t.setX r l (Config.lostRead m l)) (x := Team.waits) (fun _ _ => rfl) ls u,
      foldl_keeps (f := fun t l => t.setX r l (Config.lostRead m l)) (x := Team.idx) (fun _ _ => rfl) ls u⟩
  · exact ⟨rfl, rfl⟩

theorem foldl_setLost_rest (m : Nat) (ps : List ((RegKey × LaneMask) × Nat)) : ∀ u : Team,
    (ps.foldl (fun t p => setLost (m + p.2) p.1 t) u).waits = u.waits ∧ (ps.foldl (fun t p => setLost (m + p.2) p.1 t) u).idx = u.idx := by
  induction ps with
  | nil => exact fun _ => ⟨rfl, rfl⟩
  | cons p ps ih =>
    intro u
    obtain ⟨hw, hi⟩ := setLost_rest (m + p.2) p.1 u
    exact ⟨(ih _).1.trans hw, (ih _).2.trans hi⟩

theorem getV_foldl_setV (r : Nat) (w : Nat → W32) {l : Nat} (hl : l < 1024) (ls : List Nat) : (∀ x ∈ ls, x < 1024) → ∀ u : Team,
    (ls.foldl (fun t x => t.setV r x (w x)) u).getV r l = if l ∈ ls then w l else u.getV r l := by
  induction ls with
  | nil => exact fun _ _ => rfl
  | cons x ls ih =>
    intro hlt u
    rw [List.foldl_cons, ih (fun y hy => hlt y (List.mem_cons_of_mem _ hy)), Team.getV_setV _ _ _ _ (hlt x List.mem_cons_self) hl]
    by_cases hmem : l ∈ ls
    · rw [if_pos hmem, if_pos (List.mem_cons_of_mem _ hmem)]
    · by_cases hx : l = x
      · subst hx
        rw [if_neg hmem, if_pos ⟨rfl, rfl⟩, if_pos List.mem_cons_self]
      · rw [if_neg hmem, if_neg fun h => hx h.2, if_neg (by simp [hx, hmem])]

/-- The team whose host reads have ended. -/
def lostTeam (m : Nat) (keys : List RegKey) (t : Team) : Team :=
  { (t.hostWait.zipIdx).foldl (fun t p => setLost (m + p.2) p.1 t) t with
    waits := ((t.hostWait.zipIdx).foldl (fun t p => setLost (m + p.2) p.1 t) t).waits.filter fun w => !keys.contains w.1, hostWait := [] }

theorem pcieTimeout_run (hu : s.team? bid team = some u) (hh : u.halted = true) (hw : u.hostWait ≠ []) : pcieTimeout s bid team =
    { s.modTeam bid team (lostTeam s.freeCtr (u.hostWait.map Prod.fst)) with freeCtr := s.freeCtr + u.hostWait.length } := by
  unfold pcieTimeout
  rw [hu]
  refine if_neg ?_
  rw [hh]
  simpa using hw

theorem lostTeam_idx (m : Nat) (keys : List RegKey) (t : Team) : (lostTeam m keys t).idx = t.idx := (foldl_setLost_rest m _ t).2

/-! Claims granted (R136, R137). -/

theorem rec_modRec (hr : u.rec? sub = some r) (g : Record → Record) (hg : ∀ x, (g x).num = x.num) : (u.modRec sub g).rec? sub = some (g r) := by
  rw [Team.rec?_modRec _ _ _ _ hg, hr, Option.map_some, if_pos rfl]

/-- The head of a core's queue that the pool can meet is granted. -/
theorem grantHead_granted (hc : s.claims.find? (fun k => k.core == core) = some c) (hneed : c.need ≤ poolFree s core)
    (hwho : c.who = ⟨bid, team, sub⟩) (hu : s.team? bid team = some u) (hr : u.rec? sub = some r)
    (halone : ∀ q ∈ u.records, q.num ≠ sub → q.pc ≠ c.next) : c ∉ (grantHead s core).claims ∧
      ∃ v, (grantHead s core).team? bid team = some v ∧ v.drawn = u.drawn + c.n * countLanes r.k0 u.lanes ∧
        v.rec? sub = some { r with alloc := r.alloc + c.n, wait := .ready, pc := c.next, readySince := s.time, aged := false } := by
  let s1 : State := { s with claims := s.claims.filter fun d => !(d == c) }
  let go : Record → Record := fun r => { r with wait := .ready, pc := c.next, readySince := s.time, aged := false }
  have hrun : grantHead s core = ((applyClaim s1 c.who c.n).modRec c.who go).modTeam c.who.bid c.who.team (Team.fuseAt s.time c.who.sub) := by
    unfold grantHead
    rw [hc]
    exact if_pos hneed
  rw [hrun, hwho]
  refine ⟨by simp [applyClaim, State.modRec, State.modTeam, State.modBlock, s1], ?_⟩
  let f : Team → Team := fun t => match t.rec? sub with
    | none => t
    | some r =>
      let ls := maskLanes r.k0 t.lanes
      let v := ((List.range c.n).map fun k => r.alloc + k).foldl (fun v k => ls.foldl (fun v l => smSet 0 v (vKey k l) 0) v) t.v
      { t with v := v, drawn := t.drawn + c.n * ls.length }.modRec sub fun r => { r with alloc := r.alloc + c.n }
  have hf : ∀ t, (f t).idx = t.idx := by
    intro t
    simp only [f]
    split <;> rfl
  have h1 : (applyClaim s1 ⟨bid, team, sub⟩ c.n).team? bid team = some (f u) := team?_modTeam_same (s := s1) hu hf
  have hfu : f u = ({ u with v := (f u).v, drawn := u.drawn + c.n * countLanes r.k0 u.lanes } : Team).modRec sub
      fun r => { r with alloc := r.alloc + c.n } := by
    simp only [f, hr]
    rfl
  have hrec1 : (f u).rec? sub = some { r with alloc := r.alloc + c.n } := by
    rw [hfu]
    exact rec_modRec (u := { u with v := (f u).v, drawn := u.drawn + c.n * countLanes r.k0 u.lanes }) hr (fun r => { r with alloc := r.alloc + c.n })
      fun _ => rfl
  have h2 : ((applyClaim s1 ⟨bid, team, sub⟩ c.n).modRec ⟨bid, team, sub⟩ go).team? bid team = some ((f u).modRec sub go) :=
    team?_modTeam_same h1 fun _ => rfl
  have hrec2 : ((f u).modRec sub go).rec? sub = some (go { r with alloc := r.alloc + c.n }) := rec_modRec hrec1 go fun _ => rfl
  have hfuse : ((f u).modRec sub go).fuseAt s.time sub = (f u).modRec sub go := by
    refine fuseAt_alone hrec2 fun x hx hn => ?_
    rw [hfu] at hx
    simp only [Team.modRec, List.map_map, List.mem_map, Function.comp] at hx
    obtain ⟨y, hy, rfl⟩ := hx
    by_cases hsub : y.num = sub
    · rw [if_pos hsub] at hn
      simp [hsub, go] at hn
    · rw [if_neg hsub, if_neg hsub]
      exact halone y hy hsub
  refine ⟨(f u).modRec sub go, ?_, ?_, hrec2⟩
  · rw [← hfuse]
    exact team?_modTeam_same h2 fun t => by rw [onlyRecs_fuseAt]
  · rw [hfu]
    rfl

end

end Sys2Proof.Machine

end

section
/-! Deadlocked cores (R138), and the capture of halted blocks (R255, R258 to R268). -/

namespace Sys2Proof.Machine

section
variable {s t u : State} {bid q lseq core : Nat} {b : Block} {la : Launch} {st : Stop} {all : Bool}

/-! A launch stopped for a deadlocked core. -/

/-- A launch that has stopped for DEADLK. -/
def Launch.deadlocked (l : Launch) : Prop := l.state = .stopping ∧ ∃ st, l.stop = some st ∧ st.cause = 0x07 ∧ st.reason = 0

/-- A launch of a queue and number stands stopped for DEADLK. -/
def Deadlocked (q n : Nat) (s : State) : Prop := ∃ l ∈ s.launches, l.q = q ∧ l.lseq = n ∧ l.deadlocked

/-- What becomes of a launch that a stop names. -/
def stopJoined (st : Stop) (l : Launch) : Launch :=
  let keep := match l.stop with
    | none => st
    | some o =>
      let w := if o.reason ≠ 0 ∨ (st.reason = 0 ∧ stopBefore o st = false) then st else o
      { w with pages := addPages o.pages st.pages }
  { l with stop := some keep, state := .stopping }

theorem stopJoined_deadlocked {l : Launch} (hc : st.cause = 0x07) (hr : st.reason = 0) (h : l.stop = none ∨ l.deadlocked) :
    (stopJoined st l).deadlocked := by
  refine ⟨rfl, _, rfl, ?_⟩
  rcases h with h | ⟨-, o, ho, hoc, hor⟩
  · rw [h]
    exact ⟨hc, hr⟩
  · rw [ho]
    dsimp only
    split
    · exact ⟨hc, hr⟩
    · exact ⟨hoc, hor⟩

/-- A stop changes the launches that it names, and halts blocks. -/
theorem mem_stopLaunch {l : Launch} (hl : l ∈ s.launches) : ∃ l' ∈ (stopLaunch s q lseq st all).launches, l'.q = l.q ∧ l'.lseq = l.lseq ∧
    l'.state = (if l.q = q ∧ l.lseq = lseq then stopJoined st l else l).state ∧
    l'.stop = (if l.q = q ∧ l.lseq = lseq then stopJoined st l else l).stop := by
  have hmem : (if l.q = q ∧ l.lseq = lseq then stopJoined st l else l) ∈ (s.modLaunch q lseq (stopJoined st)).launches :=
    List.mem_map.2 ⟨l, hl, rfl⟩
  have hkey : (if l.q = q ∧ l.lseq = lseq then stopJoined st l else l).q = l.q ∧
      (if l.q = q ∧ l.lseq = lseq then stopJoined st l else l).lseq = l.lseq := by
    split <;> exact ⟨rfl, rfl⟩
  generalize (if l.q = q ∧ l.lseq = lseq then stopJoined st l else l) = k at hmem hkey ⊢
  let bids := ((s.modLaunch q lseq (stopJoined st)).blocksOf q lseq).map Block.bid
  refine ⟨if k.q = q ∧ k.lseq = lseq then { k with halting := k.halting ++ bids.filter fun i => !k.halting.contains i } else k,
    List.mem_map.2 ⟨k, hmem, rfl⟩, ?_⟩
  split <;> exact ⟨hkey.1, hkey.2, rfl, rfl⟩

theorem stopLaunch_deadlocked {l : Launch} (hl : l ∈ s.launches) (h : l.stop = none ∨ l.deadlocked) (hc : st.cause = 0x07) (hr : st.reason = 0) :
    ∃ l' ∈ (stopLaunch s q lseq st all).launches, l'.q = l.q ∧ l'.lseq = l.lseq ∧ (l'.stop = none ∨ l'.deadlocked) ∧
      (l.deadlocked ∨ l.q = q ∧ l.lseq = lseq → l'.deadlocked) := by
  obtain ⟨l', hmem, hq, hn, hstate, hstop⟩ := mem_stopLaunch (q := q) (lseq := lseq) (st := st) (all := all) hl
  have hdead : ∀ k : Launch, k.deadlocked → l'.state = k.state → l'.stop = k.stop → l'.deadlocked := by
    rintro k ⟨hk, hs⟩ h1 h2
    exact ⟨h1.trans hk, h2 ▸ hs⟩
  by_cases hnamed : l.q = q ∧ l.lseq = lseq
  · rw [if_pos hnamed] at hstate hstop
    have := hdead _ (stopJoined_deadlocked hc hr h) hstate hstop
    exact ⟨l', hmem, hq, hn, .inr this, fun _ => this⟩
  · rw [if_neg hnamed] at hstate hstop
    refine ⟨l', hmem, hq, hn, h.imp (fun h => hstop.trans h) fun h => hdead l h hstate hstop, fun hd => ?_⟩
    exact hdead l (hd.resolve_right hnamed) hstate hstop

/-- The stops of a deadlocked core's records reach every launch that one of them belongs to. -/
theorem foldl_deadlkStop (rs : List (Block × Team × Record)) : ∀ (s : State) (l : Launch), l ∈ s.launches → (l.stop = none ∨ l.deadlocked) →
    (l.deadlocked ∨ ∃ p ∈ rs, p.1.q = l.q ∧ p.1.lseq = l.lseq) → Deadlocked l.q l.lseq (rs.foldl deadlkStop s) := by
  induction rs with
  | nil =>
    intro s l hl _ hd
    refine ⟨l, hl, rfl, rfl, hd.resolve_right ?_⟩
    rintro ⟨p, hp, -⟩
    cases hp
  | cons p rs ih =>
    intro s l hl h hd
    let lane := (lowLane p.2.2.k0 p.2.1.lanes).getD 0
    let st : Stop := { cause := 0x07, pc := p.2.2.pc, trapa := 0, wid := p.2.1.wid0 + w64 lane, at_ := s.time, core := p.1.coreNum,
                       row := p.2.1.row, reason := 0, hold := false, silent := false, pages := [] }
    obtain ⟨l', hmem, hq, hn, hor, hdead⟩ := stopLaunch_deadlocked (q := p.1.q) (lseq := p.1.lseq) (st := st) (all := true) hl h rfl rfl
    have hgo := ih (stopLaunch s p.1.q p.1.lseq st true) l' hmem hor ?_
    · rw [hq, hn] at hgo
      exact hgo
    · rw [hq, hn]
      rcases hd with hd | ⟨x, hx, hxq⟩
      · exact .inl (hdead (.inl hd))
      · rcases List.mem_cons.1 hx with rfl | hx
        · exact .inl (hdead (.inr ⟨hxq.1.symm, hxq.2.symm⟩))
        · exact .inr ⟨x, hx, hxq⟩

/-! Capture: what is followed of a block and of the launches. -/

/-- What a save keeps of a block. -/
def Block.face (b : Block) : Nat × Nat × Nat × Memory := (b.bid, b.q, b.lseq, b.scratch)

/-- The blocks' faces, the launches and the saved blocks are as they were. -/
structure SameFaces (s t : State) : Prop where
  blocks : t.blocks.map Block.face = s.blocks.map Block.face
  launches : t.launches = s.launches
  saved : t.saved = s.saved

theorem SameFaces.refl (s : State) : SameFaces s s := ⟨rfl, rfl, rfl⟩

theorem SameFaces.trans (h : SameFaces s t) (g : SameFaces t u) : SameFaces s u :=
  ⟨g.blocks.trans h.blocks, g.launches.trans h.launches, g.saved.trans h.saved⟩

theorem SameFaces.of_blocks (hb : t.blocks = s.blocks) (hl : t.launches = s.launches) (hs : t.saved = s.saved) : SameFaces s t :=
  ⟨by rw [hb], hl, hs⟩

theorem SameFaces.foldl {α : Type} {f : State → α → State} (hf : ∀ s a, SameFaces s (f s a)) (l : List α) : ∀ s, SameFaces s (l.foldl f s) := by
  induction l with
  | nil => exact .refl
  | cons a l ih => exact fun s => (hf s a).trans (ih _)

theorem SameFaces.modBlock (s : State) (bid : Nat) {f : Block → Block} (hf : ∀ b, (f b).face = b.face) : SameFaces s (s.modBlock bid f) := by
  refine ⟨?_, rfl, rfl⟩
  rw [State.modBlock, List.map_map]
  refine List.map_congr_left fun b _ => ?_
  simp only [Function.comp]
  split
  · exact hf b
  · rfl

theorem OnlyMem.sameFaces (h : OnlyMem s t) : SameFaces s t := by
  rw [h.frame]
  exact ⟨rfl, rfl, rfl⟩

/-- The block of a number, found before and after. -/
theorem SameFaces.block (h : SameFaces s t) (hb : s.block? bid = some b) : ∃ b', t.block? bid = some b' ∧ b'.face = b.face := by
  have hfind : ∀ l : List Block, (l.find? fun b => b.bid == bid).map Block.face = (l.map Block.face).find? fun f => f.1 == bid := by
    intro l
    rw [List.find?_map]
    rfl
  have hmap : (t.block? bid).map Block.face = (s.block? bid).map Block.face := by
    rw [State.block?, State.block?, hfind, hfind, h.blocks]
  rw [hb] at hmap
  exact Option.map_eq_some_iff.1 hmap

theorem SameFaces.bids (h : SameFaces s t) : t.blocks.map Block.bid = s.blocks.map Block.bid := by
  have hb := congrArg (List.map Prod.fst) h.blocks
  rw [List.map_map, List.map_map] at hb
  exact hb

/-- A team's accesses complete (R227, R260). -/
theorem completeTeam_faces (s : State) (b : Block) (v : Team) : SameFaces s (completeTeam s b v) := by
  let a := answered (flushRead s (queueCtx s b.q) v) v.unacked v.gwct
  have h0 : SameFaces s (flushRead s (queueCtx s b.q) v) := by
    unfold flushRead
    split
    · exact .refl s
    · exact ⟨rfl, rfl, rfl⟩
  have h1 : SameFaces (flushRead s (queueCtx s b.q) v) a.2 :=
    (OnlyMem.foldl writeBack_onlyMem v.unacked (flushRead s (queueCtx s b.q) v)).sameFaces.trans (.of_blocks rfl rfl rfl)
  have h2 : SameFaces a.2 (noteGwct a.2 b.q a.1) := ⟨rfl, rfl, rfl⟩
  exact ((h0.trans h1).trans h2).trans (.modBlock _ _ fun _ => rfl)

theorem settleHead_faces (s : State) (bid : Nat) : SameFaces s (settleHead s bid) := by
  unfold settleHead
  split
  · exact .refl s
  · split
    · exact .refl s
    · split
      · exact .refl s
      · split
        · exact .modBlock _ _ fun _ => rfl
        · unfold matFinish
          extract_lets now s1 s2
          have h1 : SameFaces s s1 := .modBlock s bid fun _ => rfl
          have h2 : SameFaces s1 s2 := .modBlock s1 bid fun _ => rfl
          exact (h1.trans h2).trans (.modBlock s2 bid fun _ => rfl)

theorem recordPoison_faces (s : State) (p : Phys) (v : Bool) : SameFaces s (recordPoison s p v) := ⟨rfl, rfl, rfl⟩

theorem writeRecord_faces (s : State) (v : Saved) : SameFaces s (writeRecord s v) := by
  unfold writeRecord
  split
  · exact .refl s
  · split
    · exact .refl s
    · extract_lets key img at_ s1 bad
      exact (paWrite_onlyMem s _ _ _ _).sameFaces.trans (SameFaces.foldl (fun s i => recordPoison_faces s _ _) _ s1)

/-- One block saved, of a face, in a stop. -/
def SavedAs (st : Stop) (f : Nat × Nat × Nat × Memory) (w : Saved) : Prop :=
  w.blk.face = f ∧ w.reason = if st.reason = 0 then st.cause else 0x3F

/-- A save adds its block to those saved. -/
theorem saveBlock_spec (s : State) (bid : Nat) : (saveBlock st s bid).blocks.map Block.face = s.blocks.map Block.face ∧
    (saveBlock st s bid).launches = s.launches ∧ (∀ w ∈ s.saved, w ∈ (saveBlock st s bid).saved) ∧
    (∀ b, s.block? bid = some b → ∃ w ∈ (saveBlock st s bid).saved, SavedAs st b.face w) := by
  have hset := settleHead_faces s bid
  unfold saveBlock
  extract_lets s1
  change SameFaces s s1 at hset
  clear_value s1
  split
  · next hn =>
    refine ⟨hset.blocks, hset.launches, fun w hw => hset.saved ▸ hw, fun b hb => ?_⟩
    obtain ⟨b', hb', -⟩ := hset.block hb
    rw [hn] at hb'
    cases hb'
  · next b1 hb1 =>
    extract_lets v
    have hw := writeRecord_faces s1 v
    refine ⟨hw.blocks.trans hset.blocks, hw.launches.trans hset.launches, fun w hw => List.mem_append_left _ (hset.saved ▸ hw), fun b hb => ?_⟩
    obtain ⟨b', hb', hface⟩ := hset.block hb
    obtain rfl := Option.some.inj (hb1.symm.trans hb')
    exact ⟨v, List.mem_append_right _ (List.mem_singleton.2 rfl), hface, rfl⟩

theorem foldl_saveBlock (bids : List Nat) : ∀ s : State,
    (bids.foldl (saveBlock st) s).blocks.map Block.face = s.blocks.map Block.face ∧ (bids.foldl (saveBlock st) s).launches = s.launches ∧
      (∀ w ∈ s.saved, w ∈ (bids.foldl (saveBlock st) s).saved) ∧
      ∀ bid ∈ bids, ∀ b, s.block? bid = some b → ∃ w ∈ (bids.foldl (saveBlock st) s).saved, SavedAs st b.face w := by
  induction bids with
  | nil => exact fun _ => ⟨rfl, rfl, fun _ h => h, nofun⟩
  | cons x bids ih =>
    intro s
    obtain ⟨hb1, hl1, hk1, hs1⟩ := saveBlock_spec (st := st) s x
    obtain ⟨hb2, hl2, hk2, hs2⟩ := ih (saveBlock st s x)
    refine ⟨hb2.trans hb1, hl2.trans hl1, fun w hw => hk2 w (hk1 w hw), fun bid hbid b hb => ?_⟩
    rcases List.mem_cons.1 hbid with rfl | hbid
    · obtain ⟨w, hw, hspec⟩ := hs1 b hb
      exact ⟨w, hk2 w hw, hspec⟩
    · have hsame : SameFaces { s with saved := (saveBlock st s x).saved } (saveBlock st s x) := ⟨hb1, hl1, rfl⟩
      obtain ⟨b', hb', hface⟩ := hsame.block (b := b) hb
      exact hface ▸ hs2 bid hbid b' hb'

/-! Blocks that leave their core. -/

theorem leaseRows_only (s : State) (b : Block) : OnlyReserves s (leaseRows s b) := by
  unfold leaseRows
  split
  · exact OnlyReserves.foldl (fun s u => leaseRow_rest s _ _ _ _) _ s
  · rfl

theorem dropBlocks_spec (s : State) (bids : List Nat) : (dropBlocks s bids).launches = s.launches ∧ (dropBlocks s bids).saved = s.saved ∧
    ∀ k ∈ (dropBlocks s bids).blocks, k.bid ∉ bids := by
  unfold dropBlocks
  extract_lets gone s1
  have honly := OnlyReserves.foldl leaseRows_only gone s1
  have hl : (gone.foldl leaseRows s1).launches = s.launches := (congrArg State.launches honly).trans rfl
  have hs : (gone.foldl leaseRows s1).saved = s.saved := (congrArg State.saved honly).trans rfl
  have hb : (gone.foldl leaseRows s1).blocks = s.blocks.filter fun b => !bids.contains b.bid := (congrArg State.blocks honly).trans rfl
  generalize gone.foldl leaseRows s1 = s2 at hl hs hb
  refine ⟨hl, hs, fun k hk => ?_⟩
  obtain ⟨b, hb', rfl⟩ := List.mem_map.1 (show k ∈ s2.blocks.map (Block.wake Wait.isLimit s2.time) from hk)
  rw [hb] at hb'
  have hno := (List.mem_filter.1 hb').2
  change b.bid ∉ bids
  simpa using hno

/-! The launch after its units are saved. -/

theorem writeLaunchRecord_onlyMem (s : State) (la : Launch) (batch : List W64) : OnlyMem s (writeLaunchRecord s la batch) := by
  unfold writeLaunchRecord
  split
  · exact .refl s
  · extract_lets key s1
    have h1 : OnlyMem s s1 := paWrite_onlyMem _ _ _ _ _
    split
    · exact h1
    · exact h1.trans (paWrite_onlyMem _ _ _ _ _)

/-- A launch whose capture is done: it has stopped. -/
def Launch.captured (st : Stop) (now : Nat) (l : Launch) : Launch :=
  { l with stop := none, halting := [],
           state := if st.reason = 0 then .stopped else if st.hold && l.state == .stopping then .held else .running,
           waitSince := if wantsPlace l then l.waitSince else now, waited := if wantsPlace l then l.waited else 0 }

/-- A saved block that the stop of its launch holds. -/
def Saved.heldBy (st : Stop) (la : Launch) (v : Saved) : Saved :=
  if st.reason = 0 ∧ v.blk.q = la.q ∧ v.blk.lseq = la.lseq then { v with hold := true } else v

/-- After a stop for a cause nothing more becomes of the launch at the end of its capture. -/
theorem captureEnd_stopped (h : s.launch? la.q la.lseq = some la) (hr : st.reason = 0) :
    (captureEnd s la st).blocks = s.blocks ∧ (captureEnd s la st).saved = s.saved.map (Saved.heldBy st la) ∧
      la.captured st s.time ∈ (captureEnd s la st).launches := by
  unfold captureEnd
  extract_lets batch s1 hold s2 s3 s4
  have h1 : OnlyMem s s1 := writeLaunchRecord_onlyMem s la batch
  have h2 : s2.launches = s1.launches ∧ s2.blocks = s1.blocks ∧ s2.saved = s1.saved.map (Saved.heldBy st la) ∧ s2.time = s1.time :=
    ⟨rfl, rfl, rfl, rfl⟩
  have htime : s2.time = s.time := h2.2.2.2.trans h1.blocks_time.2
  have hfound : s2.launch? la.q la.lseq = some la := (launch?_congr (h2.1.trans h1.launches) _ _).trans h
  have hs3 : s3 = s2.modLaunch la.q la.lseq (Launch.captured st s2.time) := rfl
  clear_value s2
  have h3 : s3.launch? la.q la.lseq = some (la.captured st s2.time) := by
    rw [hs3]
    exact (launch?_modLaunch s2 la.q la.lseq (Launch.captured st s2.time) fun _ => ⟨rfl, rfl⟩).trans (by rw [hfound]; rfl)
  have h4 : OnlyPosts s3 s4 := by
    unfold s4
    split
    · exact postRec_onlyPosts _ _ _ _
    · exact .refl s3
  have hl4 : s4.launches = s3.launches := by rw [h4.frame]
  have hs4 : s4.saved = s3.saved := by rw [h4.frame]
  have hrun : launchTest s4 la.q la.lseq = s4 := by
    unfold launchTest
    rw [(launch?_congr hl4 _ _).trans h3]
    refine if_neg fun hrunning => ?_
    have hst := hrunning.1
    rw [Launch.captured, if_pos hr] at hst
    cases hst
  rw [hrun]
  refine ⟨?_, ?_, ?_⟩
  · rw [h4.blocks, hs3]
    exact h2.2.1.trans h1.blocks_time.1
  · rw [hs4, hs3]
    refine h2.2.2.1.trans ?_
    rw [h1.sameFaces.saved]
  · rw [hl4, hs3, ← htime]
    exact mem_modLaunch hfound _

/-- A CAPTURE of halted blocks that are ready for it, after a stop for a cause. -/
theorem capture_spec (h : s.launch? q lseq = some la) (hst : la.stop = some st) (hr : st.reason = 0)
    (hready : ∀ k ∈ s.blocks, k.bid ∈ la.halting → captureReady s la k = true) :
    (∃ l ∈ (capture s q lseq).launches, l.q = q ∧ l.lseq = lseq ∧ l.state = .stopped ∧ l.stop = none ∧ l.halting = []) ∧
      (∀ k ∈ (capture s q lseq).blocks, k.bid ∉ la.halting) ∧
      (s.block? bid = some b → bid ∈ la.halting → b.q = q → b.lseq = lseq → ∃ w ∈ (capture s q lseq).saved, w.blk.bid = bid ∧ w.hold = true ∧
        w.reason = st.cause ∧ w.blk.scratch = b.scratch) := by
  obtain ⟨-, rfl, rfl⟩ := launch?_spec h
  let hs := s.blocks.filter fun b => la.halting.contains b.bid
  let s1 := hs.foldl (fun s b => b.teams.foldl (fun s t => if t.left then s else completeTeam s b t) s) s
  let s2 := (hs.map Block.bid).foldl (saveBlock st) s1
  have hrun : capture s la.q la.lseq = captureEnd (dropBlocks s2 (hs.map Block.bid)) la st := by
    unfold capture
    rw [h]
    dsimp only
    rw [hst]
    refine if_pos (List.all_eq_true.2 fun k hk => ?_)
    obtain ⟨hk, hin⟩ := List.mem_filter.1 hk
    exact hready k hk (by simpa using hin)
  have h1 : SameFaces s s1 := SameFaces.foldl (fun s b => SameFaces.foldl (fun s v => by
    split
    · exact .refl s
    · exact completeTeam_faces s b v) _ s) hs s
  clear_value s1
  obtain ⟨hb2, hl2, -, hsaved⟩ := foldl_saveBlock (st := st) (hs.map Block.bid) s1
  change s2.blocks.map Block.face = _ at hb2
  change s2.launches = _ at hl2
  have hsaved' : ∀ bid ∈ hs.map Block.bid, ∀ b, s1.block? bid = some b → ∃ w ∈ s2.saved, SavedAs st b.face w := hsaved
  clear_value s2
  obtain ⟨hl3, hs3, hout⟩ := dropBlocks_spec s2 (hs.map Block.bid)
  have hfound : (dropBlocks s2 (hs.map Block.bid)).launch? la.q la.lseq = some la :=
    (launch?_congr (hl3.trans (hl2.trans h1.launches)) _ _).trans h
  obtain ⟨hb4, hs4, hl4⟩ := captureEnd_stopped hfound hr
  rw [hrun]
  refine ⟨⟨_, hl4, rfl, rfl, if_pos hr, rfl, rfl⟩, fun k hk hin => ?_, fun hb hin hq hn => ?_⟩
  · rw [hb4] at hk
    have hbids : k.bid ∈ s.blocks.map Block.bid := by
      have hsame : SameFaces { s1 with saved := s2.saved } s2 := ⟨hb2, hl2, rfl⟩
      rw [← h1.bids, ← hsame.bids]
      have hsub : ∀ x ∈ (dropBlocks s2 (hs.map Block.bid)).blocks.map Block.bid, x ∈ s2.blocks.map Block.bid := by
        have hblocks : (dropBlocks s2 (hs.map Block.bid)).blocks.map Block.bid =
            (s2.blocks.filter fun b => !(hs.map Block.bid).contains b.bid).map Block.bid := by
          unfold dropBlocks
          extract_lets gone s5
          have honly := OnlyReserves.foldl leaseRows_only gone s5
          change ((gone.foldl leaseRows s5).blocks.map (Block.wake Wait.isLimit _)).map Block.bid = _
          rw [List.map_map, (congrArg State.blocks honly).trans rfl]
          rfl
        intro x hx
        rw [hblocks] at hx
        obtain ⟨y, hy, rfl⟩ := List.mem_map.1 hx
        exact List.mem_map_of_mem (List.mem_of_mem_filter hy)
      exact hsub _ (List.mem_map_of_mem hk)
    obtain ⟨y, hy, hyb⟩ := List.mem_map.1 hbids
    refine hout k hk (List.mem_map.2 ⟨y, List.mem_filter.2 ⟨hy, ?_⟩, hyb⟩)
    rw [hyb]
    simpa using hin
  · have hbid : b.bid = bid := by simpa using List.find?_some hb
    have hmem : bid ∈ hs.map Block.bid := by
      refine List.mem_map.2 ⟨b, List.mem_filter.2 ⟨List.mem_of_find?_eq_some hb, ?_⟩, hbid⟩
      rw [hbid]
      simpa using hin
    obtain ⟨b', hb', hface⟩ := h1.block hb
    obtain ⟨w, hw, hwf, hwr⟩ := hsaved' bid hmem b' hb'
    rw [hface] at hwf
    have hwq : w.blk.q = la.q := (congrArg (fun f => f.2.1) hwf).trans hq
    have hwn : w.blk.lseq = la.lseq := (congrArg (fun f => f.2.2.1) hwf).trans hn
    have hheld : Saved.heldBy st la w = { w with hold := true } := if_pos ⟨hr, hwq, hwn⟩
    refine ⟨{ w with hold := true }, ?_, ?_, rfl, hwr.trans (if_pos hr), congrArg (fun f => f.2.2.2) hwf⟩
    · rw [hs4, hs3, ← hheld]
      exact List.mem_map_of_mem hw
    · exact (congrArg (fun f => f.1) hwf).trans hbid

end

end Sys2Proof.Machine

end

section
/-! A saved block placed again on a core (R261 to R269): it stays there, with its scratchpad, through all that follows its placing. -/

namespace Sys2Proof.Machine

section
variable {s t w : State} {bid ti q lseq now core : Nat} {b b' : Block} {u v : Team} {la : Launch}

/-! A team of one sub-team that holds lanes, which no barrier, grant or stop takes from it. -/

/-- A team on its row whose one record holds lanes. -/
def Team.Manned (u : Team) : Prop := u.left = false ∧ ∃ r, u.records = [r] ∧ r.k0 ≠ 0

theorem Team.Manned.of_records (h : u.Manned) (hl : v.left = u.left) {g : Record → Record} (hr : v.records = u.records.map g)
    (hg : ∀ r, (g r).k0 = r.k0) : v.Manned := by
  obtain ⟨hleft, r, hru, hk⟩ := h
  exact ⟨hl.trans hleft, g r, by rw [hr, hru]; rfl, by rw [hg]; exact hk⟩

theorem Team.Manned.modRec (h : u.Manned) (n : Nat) {g : Record → Record} (hg : ∀ r, (g r).k0 = r.k0) : (u.modRec n g).Manned :=
  h.of_records rfl rfl fun r => by
    split
    · exact hg r
    · rfl

theorem joinKids_lone {r x : Record} (h : u.records = [r]) (hx : x ∈ u.records) : joinKids u x = [] ∨ joinKids u x = [r] := by
  obtain rfl : x = r := by simpa [h] using hx
  unfold joinKids Team.kids
  rw [h]
  split
  · split
    · next e _ _ =>
      cases hp : x.parent == e <;> simp [List.filter, hp]
    · exact .inr rfl
  · exact .inr rfl

theorem settleJoins_manned (fuel : Nat) : ∀ {u : Team}, u.Manned → (settleJoins now fuel u).Manned := by
  induction fuel with
  | zero => exact id
  | succ fuel ih =>
    intro u h
    rw [settleJoins]
    split
    · exact h
    · next x hx =>
      obtain ⟨-, r, hr, -⟩ := id h
      rcases joinKids_lone hr (List.mem_of_find?_eq_some hx) with hks | hks
      · rw [hks]
        exact h
      · rw [hks]
        refine ih ?_
        split
        · exact h.modRec _ fun _ => rfl
        · exact h.modRec _ fun _ => rfl

theorem Team.Manned.fuse (h : u.Manned) : (u.fuse now).Manned := by
  have hone : ∀ {x : Team}, x.Manned → x.records.length ≤ 1 := by
    rintro x ⟨-, r, hr, -⟩
    rw [hr]
    exact Nat.le_refl 1
  unfold Team.fuse
  rw [if_pos (hone h)]
  dsimp only
  split
  · have hs := settleJoins_manned (now := now) 32 h
    rw [if_pos (hone hs)]
    exact hs
  · exact h

theorem Team.Manned.fuseAt (h : u.Manned) (n : Nat) : (u.fuseAt now n).Manned := by
  unfold Team.fuseAt
  split
  · split
    · exact h.fuse
    · exact h
  · exact h

theorem Team.Manned.inherit (ts : List Team) : ∀ {u : Team}, u.Manned → (ts.foldl Team.inherit u).Manned := by
  induction ts with
  | nil => exact id
  | cons x ts ih => exact fun h => ih (h.of_records rfl (List.map_id' _).symm fun _ => rfl)

/-! A block that stays. -/

/-- What restore sets of a block once for all. -/
def Block.place (b : Block) : Nat × Nat × Site × Memory × List CopyOp := (b.bid, b.idx, b.site, b.scratch, b.copies)

/-- The block is where b was put, and a team of it is manned. -/
def Block.Stays (b : Block) (ti : Nat) (c : Block) : Prop := c.place = b.place ∧ ∃ u, c.team? ti = some u ∧ u.Manned

theorem Block.Stays.mapTeams {c c' : Block} (h : b.Stays ti c) (hp : c'.place = c.place) {g : Team → Team} (hts : c'.teams = c.teams.map g)
    (hidx : ∀ u, (g u).idx = u.idx) (hg : ∀ u, u.Manned → (g u).Manned) : b.Stays ti c' := by
  obtain ⟨hplace, u, hu, hm⟩ := h
  refine ⟨hp.trans hplace, g u, ?_, hg u hm⟩
  have hfun : (fun t : Team => t.idx == ti) ∘ g = fun t => t.idx == ti := funext fun t => by rw [Function.comp, hidx]
  rw [Block.team?, hts, List.find?_map, hfun, show c.teams.find? _ = some u from hu]
  rfl

theorem Block.Stays.same {c c' : Block} (h : b.Stays ti c) (hp : c'.place = c.place) (hts : c'.teams = c.teams) : b.Stays ti c' :=
  h.mapTeams hp (hts.trans (List.map_id' _).symm) (fun _ => rfl) fun _ => id

/-- The saved blocks are those listed, and the block stands in the state and stays. -/
def Settles (b : Block) (ti : Nat) (l : List Saved) (s : State) : Prop := s.saved = l ∧ ∃ c, s.block? b.bid = some c ∧ b.Stays ti c

variable {l : List Saved}

theorem Settles.mapBlocks (h : Settles b ti l s) (hs : t.saved = s.saved) {F : Block → Block} (hb : t.blocks = s.blocks.map F)
    (hbid : ∀ c, (F c).bid = c.bid) (hF : ∀ c, b.Stays ti c → b.Stays ti (F c)) : Settles b ti l t := by
  obtain ⟨hl, c, hc, hstay⟩ := h
  refine ⟨hs.trans hl, F c, ?_, hF c hstay⟩
  have hfun : (fun x : Block => x.bid == b.bid) ∘ F = fun x => x.bid == b.bid := funext fun x => by rw [Function.comp, hbid]
  rw [State.block?, hb, List.find?_map, hfun, show s.blocks.find? _ = some c from hc]
  rfl

theorem Settles.of_blocks (h : Settles b ti l s) (hs : t.saved = s.saved) (hb : t.blocks = s.blocks) : Settles b ti l t :=
  h.mapBlocks hs (hb.trans (List.map_id' _).symm) (fun _ => rfl) fun _ => id

theorem Settles.modBlock (h : Settles b ti l s) (n : Nat) {F : Block → Block} (hbid : ∀ c, (F c).bid = c.bid)
    (hF : ∀ c, b.Stays ti c → b.Stays ti (F c)) : Settles b ti l (s.modBlock n F) := by
  refine h.mapBlocks (F := fun c => if c.bid = n then F c else c) rfl rfl (fun c => ?_) fun c hc => ?_
  · split
    · exact hbid c
    · rfl
  · split
    · exact hF c hc
    · exact hc

theorem Settles.modTeam (h : Settles b ti l s) (n i : Nat) {G : Team → Team} (hidx : ∀ u, (G u).idx = u.idx)
    (hG : ∀ u, u.Manned → (G u).Manned) : Settles b ti l (s.modTeam n i G) := by
  refine h.modBlock n (fun _ => rfl) fun c hc => hc.mapTeams rfl (g := fun u => if u.idx = i then G u else u) rfl (fun u => ?_) fun u hu => ?_
  · split
    · exact hidx u
    · rfl
  · split
    · exact hG u hu
    · exact hu

theorem Settles.modTeam_other (h : Settles b ti l s) {n i : Nat} {G : Team → Team} (hi : i ≠ ti) (hidx : ∀ u, (G u).idx = u.idx) :
    Settles b ti l (s.modTeam n i G) := by
  refine h.modBlock n (fun _ => rfl) fun c ⟨hplace, u, hu, hm⟩ => ⟨hplace, u, ?_, hm⟩
  refine (Block.team?_modTeam c i ti G hidx).trans ?_
  rw [hu, Option.map_some, if_neg hi.symm]

theorem Settles.foldl {α : Type} {f : State → α → State} (hf : ∀ s a, Settles b ti l s → Settles b ti l (f s a)) (as : List α) :
    ∀ {s}, Settles b ti l s → Settles b ti l (as.foldl f s) := by
  induction as with
  | nil => exact id
  | cons a as ih => exact fun h => ih (hf _ a h)

theorem OnlyReserves.settles (h : OnlyReserves s t) (hs : Settles b ti l s) : Settles b ti l t :=
  hs.of_blocks ((congrArg State.saved h).trans rfl) ((congrArg State.blocks h).trans rfl)

/-! What follows the placing: tiles, operations entered again, claims, barriers, departures. -/

theorem reloadTile_settles (h : Settles b ti l s) (n k : Nat) : Settles b ti l (reloadTile s la n k) := by
  unfold reloadTile
  split
  · exact h
  · extract_lets st src
    clear_value src
    split
    · exact h
    · cases src with
      | none => exact h
      | some p => exact h.modBlock n (fun _ => rfl) fun c hc => hc.same rfl rfl

/-- A stop that leaves probing teams as they are halts the others where they stand. -/
theorem stopLaunch_settles (h : Settles b ti l s) (st : Stop) : Settles b ti l (stopLaunch s q lseq st false) := by
  have hhalt : ∀ u : Team, (if !false && u.probe.isSome then u else u.halt).idx = u.idx ∧
      (u.Manned → (if !false && u.probe.isSome then u else u.halt).Manned) := by
    intro u
    cases hp : u.probe with
    | some p => exact ⟨rfl, id⟩
    | none =>
      have hend : u.endProbe = u := by unfold Team.endProbe; rw [hp]
      refine ⟨?_, fun hm => ?_⟩
      · change u.endProbe.idx = u.idx
        rw [hend]
      · refine hm.of_records (g := fun r => { r with pend := [] }) ?_ ?_ fun _ => rfl
        · change u.endProbe.left = u.left
          rw [hend]
        · change u.endProbe.records.map _ = _
          rw [hend]
  refine Settles.mapBlocks (s := s) (F := fun c =>
    if (((s.modLaunch q lseq fun l => _).blocksOf q lseq).map Block.bid).contains c.bid then
      { c with teams := c.teams.map fun u => if !false && u.probe.isSome then u else u.halt } else c) h rfl rfl (fun c => ?_) fun c hc => ?_
  · split <;> rfl
  · split
    · exact hc.mapTeams rfl rfl (fun u => (hhalt u).1) fun u => (hhalt u).2
    · exact hc

theorem xlateFault_settles (h : Settles b ti l s) (c : Block) (i : Nat) (pc : W64) (a : Nat) (ahead : List Nat) :
    Settles b ti l (engineFault s c la i pc (cXLATE, a) ahead) := by
  unfold engineFault engineStop
  split
  · exact h
  · exact stopLaunch_settles h _

/-- A block without copies enters its other operations again. -/
theorem reenterOps_settles (h : Settles b ti l s) (hcopies : b.copies = []) : Settles b ti l (reenterOps s la b.bid) := by
  obtain ⟨-, c, hc, hplace, -⟩ := id h
  have hcop : c.copies = [] := (congrArg (fun p => p.2.2.2.2) hplace).trans hcopies
  unfold reenterOps
  rw [hc]
  dsimp only
  rw [hcop]
  refine Settles.foldl (fun s o hs => ?_) c.fetches (Settles.foldl (fun s o hs => ?_) c.atts h)
  · split
    · exact xlateFault_settles hs ..
    · exact hs
  · split
    · exact xlateFault_settles hs ..
    · exact hs

theorem applyClaim_settles (h : Settles b ti l s) (who : Issuer) (n : Nat) : Settles b ti l (applyClaim s who n) := by
  refine h.modTeam _ _ (fun u => ?_) fun u hu => ?_
  · split <;> rfl
  · split
    · exact hu
    · exact Team.Manned.modRec (hu.of_records rfl (List.map_id' _).symm fun _ => rfl) _ fun _ => rfl

theorem grantHead_settles (h : Settles b ti l s) (core : Nat) : Settles b ti l (grantHead s core) := by
  unfold grantHead
  split
  · exact h
  · next c _ =>
    split
    · extract_lets s1 now s2
      have h1 : Settles b ti l s1 := h.of_blocks rfl rfl
      have h2 : Settles b ti l s2 := (applyClaim_settles h1 _ _).modTeam _ _ (fun _ => rfl) fun u hu => hu.modRec _ fun _ => rfl
      exact h2.modTeam _ _ (fun u => (onlyRecs_fuseAt now _ u).idx) fun u hu => hu.fuseAt _
    · exact h

theorem requeueClaims_settles (h : Settles b ti l s) (n : Nat) : Settles b ti l (requeueClaims s n) := by
  unfold requeueClaims
  split
  · exact h
  · exact Settles.foldl (f := fun s (c : ClaimReq) => grantHead { s with claims := s.claims ++ [c] } c.core)
      (fun s c hs => grantHead_settles (s := { s with claims := s.claims ++ [c] }) (hs.of_blocks rfl rfl) _) _ h

theorem arriveBar_stays {c : Block} (h : b.Stays ti c) (id : Nat) (x : Team) : b.Stays ti (arriveBar id c x) := by
  unfold arriveBar
  extract_lets st mine cnt st' drop
  split
  · refine h.mapTeams rfl (g := fun u => if u.idx = x.idx then drop u else u) rfl (fun u => ?_) fun u hu => ?_
    · split <;> rfl
    · split
      · exact hu.of_records rfl (List.map_id' _).symm fun _ => rfl
      · exact hu
  · exact h

theorem releaseBar_k0 (id : Nat) (r : Record) : (releaseBar id now r).k0 = r.k0 := by
  unfold releaseBar
  split
  · split <;> rfl
  · split <;> rfl
  · rfl

theorem releaseGbar_k0 (id : Nat) (r : Record) : (releaseGbar id now r).k0 = r.k0 := by
  unfold releaseGbar
  split
  · split <;> rfl
  · split <;> rfl
  · rfl

theorem Block.Stays.foldl {α : Type} {f : Block → α → Block} (hf : ∀ c a, b.Stays ti c → b.Stays ti (f c a)) (as : List α) :
    ∀ {c}, b.Stays ti c → b.Stays ti (as.foldl f c) := by
  induction as with
  | nil => exact id
  | cons a as ih => exact fun h => ih (hf _ a h)

theorem barTest_stays {c : Block} (h : b.Stays ti c) (id : Nat) : b.Stays ti (barTest now id c) := by
  have harrive := Block.Stays.foldl (fun c x hc => arriveBar_stays hc id x) c.teams h
  unfold barTest
  extract_lets c1 st go
  change b.Stays ti c1 at harrive
  split
  · refine harrive.mapTeams rfl (g := go) rfl (fun u => ?_) fun u hu => ?_
    · exact (onlyRecs_fuse now _).idx.trans (inherit_foldl_rest c1.teams _).2.2.2
    · exact (Team.Manned.inherit c1.teams (hu.of_records (v := { u with records := u.records.map (releaseBar id now) }) rfl rfl
        (releaseBar_k0 id))).fuse
  · exact harrive

theorem barTestAll_stays {c : Block} (h : b.Stays ti c) : b.Stays ti (barTestAll now c) :=
  Block.Stays.foldl (fun _ id hc => barTest_stays hc id) _ h

theorem barTestAll_bid (c : Block) : (barTestAll now c).bid = c.bid := (barTestAll_face c).1

theorem gbarTest_settles (h : Settles b ti l s) (q lseq id : Nat) : Settles b ti l (gbarTest s q lseq id) := by
  unfold gbarTest
  split
  · exact h
  · extract_lets st new arrived drop mine upd s1 all now go upd2 s2
    have h1 : Settles b ti l s1 := by
      refine h.mapBlocks (F := upd) rfl rfl (fun c => ?_) fun c hc => ?_
      · unfold upd
        split <;> rfl
      · unfold upd
        split
        · refine hc.mapTeams rfl (g := drop c) rfl (fun u => ?_) fun u hu => ?_
          · unfold drop
            split <;> rfl
          · unfold drop
            split
            · exact hu.of_records rfl (List.map_id' _).symm fun _ => rfl
            · exact hu
        · exact hc
    have h2 : Settles b ti l s2 := by
      refine h1.mapBlocks (F := upd2) rfl rfl (fun c => ?_) fun c hc => ?_
      · unfold upd2
        split <;> rfl
      · unfold upd2
        split
        · exact hc.mapTeams rfl (g := go) rfl (fun u => (onlyRecs_fuse now _).idx) fun u hu =>
            (hu.of_records (v := { u with records := u.records.map (releaseGbar id now) }) rfl rfl (releaseGbar_k0 id)).fuse
        · exact hc
    split
    · exact h2.of_blocks rfl rfl
    · exact h1.of_blocks rfl rfl

theorem gbarTestAll_settles (h : Settles b ti l s) (q lseq : Nat) : Settles b ti l (gbarTestAll s q lseq) :=
  Settles.foldl (fun _ id hs => gbarTest_settles hs q lseq id) _ h

theorem Team.Manned.live (h : u.Manned) : u.live ≠ 0 := by
  obtain ⟨-, r, hr, hk⟩ := h
  intro h0
  apply hk
  unfold Team.live at h0
  rw [hr] at h0
  exact (by simpa using h0 : r.k0 = 0 ∧ _).1

theorem teamAcks_saved (s : State) (q : Nat) (u : Team) : (teamAcks s q u).2.saved = s.saved := by
  have hflush : (flushRead s (queueCtx s q) u).saved = s.saved := by unfold flushRead; split <;> rfl
  exact (OnlyMem.foldl writeBack_onlyMem u.unacked (flushRead s (queueCtx s q) u)).sameFaces.saved.trans hflush

/-- A team of the block that has no lane left leaves its row; the manned one stands, and so the block. -/
theorem leaveTest_settles (h : Settles b ti l s) (i : Nat) : Settles b ti l (leaveTest s b.bid i) := by
  obtain ⟨-, c, hc, -, m, hm, hmanned⟩ := id h
  unfold leaveTest
  rw [hc]
  dsimp only
  cases hu : c.team? i with
  | none => exact h
  | some u =>
    dsimp only
    split
    · exact h
    · next hgo =>
      have hi : i ≠ ti := by
        rintro rfl
        obtain rfl := Option.some.inj (hm.symm.trans hu)
        have hlive : (m.live == 0) = false := by simpa using hmanned.live
        rw [bne, hlive] at hgo
        simp at hgo
      split
      · exact h
      · next la _ =>
        have h1 : Settles b ti l (teamAcks s c.q u).2 :=
          h.of_blocks (teamAcks_saved s c.q u) (teamAcks_blocks s c.q u)
        generalize teamAcks s c.q u = a at h1
        obtain ⟨g, s1⟩ := a
        dsimp only at h1 ⊢
        have h2 := h1.modTeam_other (n := b.bid) (G := fun t => { t with left := true, drawn := 0, unacked := [], gwct := g }) hi fun _ => rfl
        have h3 := (show OnlyReserves _ _ from leaseRow_rest _ c.coreNum u.row c.q c.lseq).settles h2
        generalize leaseRow _ _ _ _ _ = s3 at h3 ⊢
        obtain ⟨-, c3, hc3, -, m3, hm3, hmanned3⟩ := id h3
        rw [hc3]
        dsimp only
        split
        · next hall =>
          have hleft := List.all_eq_true.1 hall m3 (List.mem_of_find?_eq_some hm3)
          rw [hmanned3.1] at hleft
          cases hleft
        · exact h3

/-- A unit of one block after it has been put in place. -/
theorem restoreUnit_settles (h : Settles b ti l s) (hcopies : b.copies = []) : Settles b ti l (restoreUnit s la [b.bid]) := by
  unfold restoreUnit
  extract_lets s1 s2 s3 now s4 s5
  have h1 : Settles b ti l s1 := Settles.foldl (f := fun s i => (List.range 8).foldl (fun s k => reloadTile s la i k) s)
    (fun s i hs => Settles.foldl (f := fun s k => reloadTile s la i k) (fun s k hs => reloadTile_settles hs i k) (List.range 8) hs) [b.bid] h
  clear_value s1
  have h2 : Settles b ti l s2 := reenterOps_settles h1 hcopies
  have h3 : Settles b ti l s3 := requeueClaims_settles h2 b.bid
  clear_value now s3
  have h4 : Settles b ti l s4 := h3.modBlock b.bid (F := barTestAll now) barTestAll_bid fun c hc => barTestAll_stays hc
  clear_value s4
  have h5 : Settles b ti l s5 := gbarTestAll_settles h4 la.q la.lseq
  clear_value s5
  obtain ⟨-, c, hc, -⟩ := id h5
  rw [List.foldl_cons, List.foldl_nil, hc]
  exact Settles.foldl (fun s i hs => leaveTest_settles hs i) _ h5

/-! The placing. -/

theorem restoredBlock_teams (now core : Nat) (rows : List Nat) (x : Block) : ∃ g : Team → Nat, (restoredBlock now core rows x).teams =
    x.teams.map fun t => if t.left then t else restoredTeam now (g t) t := by
  refine ⟨fun t => rows.getD (((x.teams.filter fun t => !t.left).map Team.idx).findIdx fun i => i == t.idx) t.row, ?_⟩
  unfold restoredBlock
  extract_lets live rowOf planes
  unfold Block.retest
  split <;> rfl

theorem restoredBlock_place (now core : Nat) (rows : List Nat) (x : Block) :
    (restoredBlock now core rows x).place = (x.bid, x.idx, .core core, x.scratch, x.copies) := by
  unfold restoredBlock
  extract_lets live rowOf planes
  unfold Block.retest
  split <;> rfl

theorem find?_idx_of_nodup : ∀ {ts : List Team}, (ts.map Team.idx).Nodup → ∀ {m : Team}, m ∈ ts → (ts.find? fun t => t.idx == m.idx) = some m
  | [], _, _, h => absurd h List.not_mem_nil
  | t :: ts, hn, m, h => by
    rw [List.map_cons, List.nodup_cons] at hn
    rw [List.find?_cons]
    rcases List.mem_cons.1 h with rfl | h
    · rw [beq_self_eq_true]
    · have hne : (t.idx == m.idx) = false := by
        rw [beq_eq_false_iff_ne]
        exact fun he => hn.1 (he ▸ List.mem_map_of_mem h)
      rw [hne]
      exact find?_idx_of_nodup hn.2 h

theorem restoredBlock_stays {x : Block} (hnodup : (x.teams.map Team.idx).Nodup) {m : Team} (hm : m ∈ x.teams) (hmanned : m.Manned)
    (rows : List Nat) : (restoredBlock now core rows x).Stays m.idx (restoredBlock now core rows x) := by
  obtain ⟨g, hts⟩ := restoredBlock_teams now core rows x
  refine ⟨rfl, restoredTeam now (g m) m, ?_, hmanned.of_records rfl rfl fun _ => rfl⟩
  have hfun : ((fun t : Team => t.idx == m.idx) ∘ fun t : Team => if t.left then t else restoredTeam now (g t) t) = fun t => t.idx == m.idx := by
    funext t
    simp only [Function.comp]
    split <;> rfl
  rw [Block.team?, hts, List.find?_map, hfun, find?_idx_of_nodup hnodup hm, Option.map_some, hmanned.1]
  rfl

/-- One saved block put on a core that has room for it stands there. -/
theorem restoreBlock_settles {x : Saved} (hfit : coreFits s core (Reserve.mine core la.q la.lseq) (savedNeed x.blk) = true)
    (hpoint : pointReady s la core = true) (hfree : ∀ k ∈ s.blocks, k.site = .core core → k.mat.owned = false)
    (hnew : ∀ k ∈ s.blocks, k.bid ≠ x.blk.bid) (hnodup : (x.blk.teams.map Team.idx).Nodup) {m : Team} (hm : m ∈ x.blk.teams)
    (hmanned : m.Manned) : ∃ s' rows, restoreBlock s la x core = some s' ∧
      Settles (restoredBlock s.time core rows x.blk) m.idx (s.saved.filter fun w => w.blk.bid != x.blk.bid) s' := by
  let rows := pickRows (rowsFor s core (Reserve.mine core la.q la.lseq)) (savedNeed x.blk).rows
  let s1 := dropLines s fun c => c.die == coreDie core && c.stamp.isSome
  let s2 : State := { s1 with blocks := s1.blocks ++ [restoredBlock s.time core rows x.blk],
                              saved := s1.saved.filter fun w => w.blk.bid != x.blk.bid }
  have hrun : restoreBlock s la x core = some (dieLower (placedReserves s2 la.q la.lseq x.blk.idx core rows)) := by
    unfold restoreBlock
    have hengine : (x.blk.mat.owned && s.blocks.any fun b => b.site == .core core && b.mat.owned) = false := by
      rw [Bool.and_eq_false_iff, List.any_eq_false]
      refine .inr fun k hk hcore => ?_
      rw [Bool.and_eq_true, beq_iff_eq] at hcore
      rw [hfree k hk hcore.1] at hcore
      cases hcore.2
    refine if_pos ?_
    rw [hfit, hpoint, hengine]
    rfl
  have h1 : OnlyMem s s1 := dropLines_onlyMem s _
  have hblocks : s1.blocks = s.blocks := h1.blocks_time.1
  have hsaved : s1.saved = s.saved := h1.sameFaces.saved
  clear_value s1
  have h2 : Settles (restoredBlock s.time core rows x.blk) m.idx (s.saved.filter fun w => w.blk.bid != x.blk.bid) s2 := by
    refine ⟨?_, _, ?_, restoredBlock_stays hnodup hm hmanned rows⟩
    · rw [← hsaved]
    · have hbid : (restoredBlock s.time core rows x.blk).bid = x.blk.bid := congrArg Prod.fst (restoredBlock_place ..)
      have hnone : (s.blocks.find? fun k => k.bid == x.blk.bid) = none := List.find?_eq_none.2 fun k hk => by simpa using hnew k hk
      have hput : s2.blocks = s.blocks ++ [restoredBlock s.time core rows x.blk] := by rw [← hblocks]
      rw [State.block?, hbid, hput, List.find?_append, hnone, Option.none_or, List.find?_cons, hbid, beq_self_eq_true]
  have h3 := (dropReserves_only s2 (fun r => r.q == la.q && r.lseq == la.lseq && (r.idx == x.blk.idx || r.core == core)) rows).settles h2
  exact ⟨_, rows, hrun, h3.of_blocks rfl rfl⟩

/-- A saved unit of one block that is restored. -/
theorem restore_spec {x : Saved} {idx : Nat} (hl : s.launch? q lseq = some la) (hplaced : neverPlaced s la = false) (hrunning : la.state = .running)
    (hunit : savedUnit s la idx = [x]) (hhold : x.hold = false) (hfirst : goesFirst s la [core] = false)
    (hread : readRecord s la x = .ok x) (hfit : coreFits s core (Reserve.mine core la.q la.lseq) (savedNeed x.blk) = true)
    (hpoint : pointReady s la core = true) (hfree : ∀ k ∈ s.blocks, k.site = .core core → k.mat.owned = false) (hcopies : x.blk.copies = [])
    (hnew : ∀ k ∈ s.blocks, k.bid ≠ x.blk.bid) (hnodup : (x.blk.teams.map Team.idx).Nodup) {m : Team} (hm : m ∈ x.blk.teams)
    (hmanned : m.Manned) : (∀ w ∈ (restore s q lseq idx [core]).saved, w.blk.bid ≠ x.blk.bid) ∧
      ∃ k ∈ (restore s q lseq idx [core]).blocks, k.bid = x.blk.bid ∧ k.site = .core core ∧ k.idx = x.blk.idx ∧ k.scratch = x.blk.scratch := by
  obtain ⟨s1, rows, hput, hset⟩ := restoreBlock_settles hfit hpoint hfree hnew hnodup hm hmanned
  have hplace := restoredBlock_place s.time core rows x.blk
  have hread' : readUnit s la [x] = .ok [x] := by
    unfold readUnit
    rw [List.foldr_cons, List.foldr_nil, hread]
  have hrun : restore s q lseq idx [core] = restoreUnit s1 la [x.blk.bid] := by
    unfold restore
    rw [hl]
    dsimp only
    rw [hplaced, hunit, hfirst, hread']
    rw [if_neg Bool.false_ne_true, if_pos]
    · dsimp only
      rw [List.zip_cons_cons, List.zip_nil_left, List.foldl_cons, List.foldl_nil, Option.bind_some, hput]
      rfl
    · refine ⟨hrunning, rfl, by simp [hhold], rfl, ?_, rfl⟩
      simp [groupsTogether]
  generalize restoredBlock s.time core rows x.blk = put at hset hplace
  have hbid : put.bid = x.blk.bid := congrArg Prod.fst hplace
  have hend := restoreUnit_settles (la := la) hset ((congrArg (fun p => p.2.2.2.2) hplace).trans hcopies)
  rw [hbid, ← hrun] at hend
  obtain ⟨hsaved, c, hc, hcp, -⟩ := hend
  refine ⟨fun w hw => ?_, c, List.mem_of_find?_eq_some hc, ?_⟩
  · rw [hsaved] at hw
    simpa using (List.mem_filter.1 hw).2
  · rw [hplace] at hcp
    exact ⟨congrArg Prod.fst hcp, congrArg (fun p => p.2.2.1) hcp, congrArg (fun p => p.2.1) hcp, congrArg (fun p => p.2.2.2.1) hcp⟩

end

end Sys2Proof.Machine

end

section
/-! Waits that end, cores that stand deadlocked, and blocks captured and restored: the events (R76, R128, R137, R138, R152, R235, R253, R258,
R260, R269). -/

namespace Sys2Proof.Machine

section
variable {s : State} {bid team sub core q lseq idx : Nat} {key : RegKey} {b : Block} {u : Team} {r : Record} {la : Launch}

theorem readyBitSet_spec (hB : s.block? bid = some b) (hu : s.team? bid team = some u) (hkey : key ∉ tmvKeys b team) :
    ∃ v, (readyBitSet s bid team key).team? bid team = some v ∧ key ∉ v.unready ∧ v.v = u.v ∧ v.s = u.s ∧ v.k = u.k ∧ v.x = u.x ∧
      ∀ x ∈ v.records, x.wait ≠ .register := by
  let f : Team → Team := fun t =>
    { t with waits := t.waits.filter fun w => w.1 != key, hostWait := t.hostWait.filter fun p => p.1 != key }.wakeRegs s.time
  have hrun : readyBitSet s bid team key = s.modTeam bid team f := by
    unfold readyBitSet
    rw [hB]
    exact if_neg (by simpa using hkey)
  refine ⟨f u, by rw [hrun]; exact team?_modTeam_same hu fun _ => rfl, ?_, rfl, rfl, rfl, rfl, fun x hx => ?_⟩
  · simp [f, Team.unready, Team.wakeRegs, Team.wake]
  · obtain ⟨y, -, rfl⟩ := List.mem_map.1 hx
    unfold wakeRec
    split
    · nofun
    · next hno =>
      intro hw
      rw [hw] at hno
      exact hno rfl

/-- A wait for no time left is over; another stands. -/
theorem pauseEnd_over {x : Nat} (hu : s.team? bid team = some u) (hr : u.rec? sub = some r) (hw : r.wait = .pause x) :
    ∃ v, (pauseEnd s bid team sub).team? bid team = some v ∧ v.rec? sub = some (if x ≤ s.time then r.woken s.time else r) := by
  obtain ⟨v, hv, hrec⟩ := rec_changed hu hr (fun _ => wakeRec (fun w => match w with
    | .pause u => decide (u ≤ s.time)
    | _ => false) s.time) fun _ _ => wakeRec_num _ _ _
  refine ⟨v, hv, hrec.trans (congrArg some ?_)⟩
  split
  · next h => exact wakeRec_over (by rw [hw]; exact decide_eq_true h) _
  · next h => exact wakeRec_stands (by rw [hw]; exact decide_eq_false h) _

theorem yieldEnd_over {x : Nat} {others : List Issuer} (hu : s.team? bid team = some u) (hr : u.rec? sub = some r) (hw : r.wait = .yield x others)
    (hover : x ≤ s.time ∨ others.all (hasIssued s r.issuedAt) = true) :
    ∃ v, (yieldEnd s bid team sub).team? bid team = some v ∧ v.rec? sub = some (r.woken s.time) := by
  obtain ⟨v, hv, hrec⟩ := rec_changed hu hr (fun _ r => wakeRec (fun w => match w with
    | .yield u others => decide (u ≤ s.time) || others.all (hasIssued s r.issuedAt)
    | _ => false) s.time r) fun _ _ => wakeRec_num _ _ _
  refine ⟨v, hv, hrec.trans (congrArg some (wakeRec_over ?_ _))⟩
  rw [hw]
  dsimp only
  rcases hover with h | h
  · rw [decide_eq_true h]
    rfl
  · rw [h, Bool.or_true]

theorem gwctPassed_over {sc : Scope} (hu : s.team? bid team = some u) (hr : u.rec? sub = some r) (hw : r.wait = .release sc)
    (hover : releaseDone u s.time sc = true) : ∃ v, (gwctPassed s bid team sub).team? bid team = some v ∧ v.rec? sub = some (r.woken s.time) := by
  obtain ⟨v, hv, hrec⟩ := rec_changed hu hr (fun t => wakeRec (releaseOver t s.time) s.time) fun _ _ => wakeRec_num _ _ _
  exact ⟨v, hv, hrec.trans (congrArg some (wakeRec_over (by rw [hw]; exact hover) _))⟩

theorem schedulerAging_aged (hB : s.block? bid = some b) (hu : s.team? bid team = some u) (hr : u.rec? sub = some r) (hm : mayIssue u r = true)
    (hlong : r.readySince + cyclesNs s b 1024 ≤ s.time) : ∃ v, (schedulerAging s bid team sub).team? bid team = some v ∧
      v.rec? sub = some { r with aged := true } := by
  obtain ⟨v, hv, hrec⟩ := rec_changed hu hr (fun t r =>
    if mayIssue t r && decide (r.readySince + cyclesNs s b 1024 ≤ s.time) then { r with aged := true } else r) fun _ x => by split <;> rfl
  have hrun : schedulerAging s bid team sub = s.modTeam bid team fun t => t.modRec sub fun r =>
      if mayIssue t r && decide (r.readySince + cyclesNs s b 1024 ≤ s.time) then { r with aged := true } else r := by
    unfold schedulerAging
    rw [hB]
  refine ⟨v, hrun ▸ hv, hrec.trans (congrArg some (if_pos ?_))⟩
  rw [hm, decide_eq_true hlong]
  rfl

theorem probeEnd_over {p : Probe} (hB : s.block? bid = some b) (hbu : b.team? team = some u) (hu : s.team? bid team = some u) (hp : u.probe = some p)
    (hover : probeOver s b p = true) : (probeEnd s bid team).team? bid team =
      some { u with records := p.ckpt.records, splits := p.ckpt.splits, k := p.ckpt.k, s := p.ckpt.s, v := p.ckpt.v, x := p.ckpt.x,
                    vs := p.ckpt.vs, probe := none, halted := true } := by
  have hend : u.endProbe = { u with records := p.ckpt.records, splits := p.ckpt.splits, k := p.ckpt.k, s := p.ckpt.s, v := p.ckpt.v,
                                    x := p.ckpt.x, vs := p.ckpt.vs, probe := none, halted := true } := by
    unfold Team.endProbe
    rw [hp]
  have hrun : probeEnd s bid team = s.modTeam bid team Team.endProbe := by
    unfold probeEnd
    rw [hB]
    dsimp only
    rw [hbu, Option.bind_some, hp]
    exact if_pos hover
  rw [hrun, ← hend]
  exact team?_modTeam_same hu fun t => by unfold Team.endProbe; split <;> rfl

/-- A halted team's reads of host memory that end. -/
theorem pcieTimeout_spec (hu : s.team? bid team = some u) (hh : u.halted = true) (hw : u.hostWait ≠ []) :
    (pcieTimeout s bid team).freeCtr = s.freeCtr + u.hostWait.length ∧ ∃ v, (pcieTimeout s bid team).team? bid team = some v ∧ v.hostWait = [] ∧
      (∀ k ∈ v.unready, k ∈ u.unready ∧ ∀ p ∈ u.hostWait, p.1 ≠ k) ∧
      ∀ n l m, u.hostWait = [(.v n, m)] → l < u.lanes → l < 1024 → m.getLsbD l = true → v.getV n l = Config.lostRead s.freeCtr l := by
  have hv : (s.modTeam bid team (lostTeam s.freeCtr (u.hostWait.map Prod.fst))).team? bid team =
      some (lostTeam s.freeCtr (u.hostWait.map Prod.fst) u) := team?_modTeam_same hu (lostTeam_idx _ _)
  rw [pcieTimeout_run hu hh hw]
  refine ⟨rfl, _, hv, rfl, fun k hk => ?_, fun n l m hone hl hlt hm => ?_⟩
  · obtain ⟨w, hw, rfl⟩ := List.mem_map.1 hk
    obtain ⟨hin, hout⟩ := List.mem_filter.1 hw
    rw [(foldl_setLost_rest _ _ u).1] at hin
    refine ⟨List.mem_map_of_mem hin, fun p hp he => ?_⟩
    rw [← he] at hout
    simp [List.mem_map_of_mem hp] at hout
  · have hset : (lostTeam s.freeCtr (u.hostWait.map Prod.fst) u).getV n l =
        ((maskLanes m u.lanes).foldl (fun t x => t.setV n x (Config.lostRead s.freeCtr x)) u).getV n l := by
      unfold lostTeam
      rw [hone]
      rfl
    have hmem : l ∈ maskLanes m u.lanes := List.mem_filter.2 ⟨List.mem_range.2 hl, hm⟩
    have hlanes : ∀ x ∈ maskLanes m u.lanes, x < 1024 := fun x hx => maskLanes_lt hx
    rw [hset, getV_foldl_setV n _ hlt _ hlanes, if_pos hmem]

/-- A core whose pool cannot meet its first claim, where every record waits for one, stops every launch that has a block there. -/
theorem deadlk_stops {c : ClaimReq} (hc : s.claims.find? (fun k => k.core == core) = some c) (hpool : poolFree s core < c.need)
    (hall : ∀ p ∈ coreRecords s core, p.2.2.wait.isClaim = true ∧ p.2.1.halted = false) {l : Launch} (hl : l ∈ s.launches) (hs : l.stop = none)
    (hthere : ∃ p ∈ coreRecords s core, p.1.q = l.q ∧ p.1.lseq = l.lseq) : Deadlocked l.q l.lseq (deadlk s core) := by
  have hrun : deadlk s core = (coreRecords s core).foldl deadlkStop s := by
    unfold deadlk
    rw [hc]
    refine if_pos ?_
    rw [Bool.and_eq_true, List.all_eq_true]
    refine ⟨decide_eq_true hpool, fun p hp => ?_⟩
    rw [(hall p hp).1, (hall p hp).2]
    rfl
  rw [hrun]
  exact foldl_deadlkStop _ s l hl (.inl hs) (.inr hthere)

end

end Sys2Proof.Machine

open Sys2Proof Sys2Proof.Machine

/-- Settles O46: an event of one team changes that team alone, a grant is the claim applied, each stop of a deadlocked core's records
reaches its launch, a capture saves the halted blocks as they stand, and a restored block is followed through all that comes after. -/
theorem waitAndCaptureEvents : Obligations.WaitAndCaptureEvents := by
  unfold Obligations.WaitAndCaptureEvents
  intro s bid team sub core q lseq idx key b u r c la v now here after woken released cold
  refine ⟨?_, ?_, ?_, ?_, ?_, ?_, ?_, ?_, ?_⟩
  · rintro ⟨hB, hbu⟩ hkey
    exact ⟨_, rfl, readyBitSet_spec hB (team?_of_block hB hbu) hkey⟩
  · rintro ⟨hB, hbu⟩
    refine ⟨_, rfl, ?_⟩
    beta_reduce
    obtain ⟨w, hw, hg, hv, hs, hk, hun, hlast, hout⟩ := homeAcks_spec hB (team?_of_block hB hbu) _ rfl
    refine ⟨w, hw, hg, hv, hs, hk, fun hrel => ?_, fun hrel => ?_⟩
    · rw [any_release.2 hrel, if_pos rfl] at hun hlast hout
      refine ⟨hun, hlast, fun hne => hout.trans ?_⟩
      unfold flushRead
      rw [if_neg hne]
    · rw [eq_false_of_ne_true fun h => hrel (any_release.1 h), if_neg Bool.false_ne_true] at hun hlast hout
      exact ⟨hun, hlast, hout⟩
  · rintro ⟨hB, hbu⟩ hr
    have hu := team?_of_block hB hbu
    refine ⟨fun sc hw hover => ⟨_, rfl, gwctPassed_over hu hr hw hover⟩, fun x hw hle => ⟨_, rfl, ?_⟩, fun x hw hlt => ⟨_, rfl, ?_⟩,
      fun x others hw hover => ⟨_, rfl, yieldEnd_over hu hr hw hover⟩, fun hm hlong => ⟨_, rfl, schedulerAging_aged hB hu hr hm hlong⟩⟩
    · obtain ⟨w, hv, hrec⟩ := pauseEnd_over hu hr hw
      exact ⟨w, hv, hrec.trans (congrArg some (if_pos hle))⟩
    · obtain ⟨w, hv, hrec⟩ := pauseEnd_over hu hr hw
      exact ⟨w, hv, hrec.trans (congrArg some (if_neg (Nat.not_le.2 hlt)))⟩
  · rintro ⟨hB, hbu⟩ hh hw
    exact ⟨_, rfl, pcieTimeout_spec (team?_of_block hB hbu) hh hw⟩
  · rintro hc hneed hwho ⟨hB, hbu⟩ hr halone
    exact ⟨_, rfl, grantHead_granted hc hneed hwho (team?_of_block hB hbu) hr halone⟩
  · intro hc hpool hall
    refine ⟨_, rfl, fun l hl hs hthere => ?_⟩
    obtain ⟨l', hl', hq, hn, hst, st, hstop, hcause, -⟩ := deadlk_stops hc hpool hall hl hs hthere
    exact ⟨l', hl', hq, hn, hst, st, hstop, hcause⟩
  · rintro p ⟨hB, hbu⟩ hp hover
    exact ⟨_, rfl, _, probeEnd_over hB hbu (team?_of_block hB hbu) hp hover, rfl⟩
  · intro st hl hst hr hready
    exact ⟨_, rfl, capture_spec hl hst hr hready⟩
  · rintro hl hplaced hrunning hunit hhold hfirst hfit hpoint hread hfree hcopies hnew hnodup ⟨m, hm, hleft, x, hx, hk⟩
    exact ⟨_, rfl, restore_spec hl hplaced hrunning hunit hhold hfirst hread hfit hpoint hfree hcopies hnew hnodup hm ⟨hleft, x, hx, hk⟩⟩

end

section
/-! A unit of a copy (R280, R283, R289): the copies of every block through the moves of the unit and the service of buffers that follows, and
the bytes that a unit of a fill writes. -/

namespace Sys2Proof.Machine

/-- A copy without where its reservation stands. -/
def CopyOp.body (o : CopyOp) : CopyOp := { o with phase := .running, slot := none }

/-- A block's number, and its copies without where their reservations stand. -/
def Block.bodies (b : Block) : Nat × List CopyOp := (b.bid, b.copies.map CopyOp.body)

/-- The copies of every block are as they were, wherever their reservations stand. -/
def SameBodies (s t : State) : Prop := t.blocks.map Block.bodies = s.blocks.map Block.bodies

section
variable {s t u : State} {bid id k off tgt : Nat} {b : Block} {o : CopyOp} {la : Launch}

theorem SameBodies.refl (s : State) : SameBodies s s := rfl

theorem SameBodies.trans (h : SameBodies s t) (g : SameBodies t u) : SameBodies s u := Eq.trans g h

theorem SameBodies.of_blocks (h : t.blocks = s.blocks) : SameBodies s t := congrArg _ h

theorem SameBodies.foldl {α : Type} {f : State → α → State} (hf : ∀ s a, SameBodies s (f s a)) (l : List α) : ∀ s, SameBodies s (l.foldl f s) := by
  induction l with
  | nil => exact .refl
  | cons a l ih => exact fun s => (hf s a).trans (ih _)

theorem SameBodies.mapBlocks {F : Block → Block} (hb : t.blocks = s.blocks.map F) (hF : ∀ b, (F b).bodies = b.bodies) : SameBodies s t := by
  unfold SameBodies
  rw [hb, List.map_map]
  exact List.map_congr_left fun b _ => hF b

theorem SameBodies.modBlock (s : State) (k : Nat) {F : Block → Block} (hF : ∀ b, (F b).bodies = b.bodies) : SameBodies s (s.modBlock k F) :=
  .mapBlocks (F := fun b => if b.bid = k then F b else b) rfl fun b => by
    split
    · exact hF b
    · rfl

theorem SameBodies.modTeam (s : State) (k i : Nat) (G : Team → Team) : SameBodies s (s.modTeam k i G) := .modBlock s k fun _ => rfl

theorem OnlyScr.bodies {b b' : Block} (h : OnlyScr b b') : b'.bodies = b.bodies := by
  unfold OnlyScr at h
  rw [h]
  rfl

theorem Serves.bodies {b b' : Block} (h : Serves b b') : b'.bodies = b.bodies := by
  unfold Block.bodies
  rw [h.1, h.2.2.1]

/-- The block of a number holds the copy of a number before and after. -/
theorem SameBodies.copy (h : SameBodies s t) (hb : s.block? bid = some b) (ho : b.copy? id = some o) :
    ∃ B k, t.block? bid = some B ∧ B.copy? id = some k ∧ k.body = o.body := by
  have hblock : ∀ l : List Block, (l.find? fun b => b.bid == bid).map Block.bodies = (l.map Block.bodies).find? fun p => p.1 == bid :=
    fun l => by rw [List.find?_map]; rfl
  have hcopy : ∀ l : List CopyOp, (l.find? fun o => o.id == id).map CopyOp.body = (l.map CopyOp.body).find? fun o => o.id == id :=
    fun l => by rw [List.find?_map]; rfl
  have hB : (t.block? bid).map Block.bodies = (s.block? bid).map Block.bodies := by
    rw [State.block?, State.block?, hblock, hblock, h]
  rw [hb, Option.map_some] at hB
  obtain ⟨B, hB, hbod⟩ := Option.map_eq_some_iff.1 hB
  have hk : (B.copy? id).map CopyOp.body = (b.copy? id).map CopyOp.body := by
    rw [Block.copy?, Block.copy?, hcopy, hcopy, show B.copies.map CopyOp.body = b.copies.map CopyOp.body from congrArg Prod.snd hbod]
  rw [ho, Option.map_some] at hk
  obtain ⟨k, hk, hkb⟩ := Option.map_eq_some_iff.1 hk
  exact ⟨B, k, hB, hk, hkb⟩

/-! The service of a buffer. -/

theorem SameBodies.modCopy (s : State) (k id : Nat) {F : CopyOp → CopyOp} (hF : ∀ o, (F o).body = o.body) : SameBodies s (s.modCopy k id F) := by
  refine .modBlock s k fun b => ?_
  unfold Block.bodies
  rw [List.map_map]
  refine congrArg (Prod.mk b.bid) (List.map_congr_left fun o _ => ?_)
  simp only [Function.comp]
  split
  · exact hF o
  · rfl

theorem stopLaunch_bodies (s : State) (q lseq : Nat) (st : Stop) (all : Bool) : SameBodies s (stopLaunch s q lseq st all) :=
  .mapBlocks rfl fun b => by split <;> rfl

theorem engineStop_bodies (s : State) (b : Block) (team cause : Nat) (pc trapa : W64) (pages : List W64) :
    SameBodies s (engineStop s b team cause pc trapa pages) := by
  unfold engineStop
  split
  · exact .refl s
  · exact stopLaunch_bodies ..

theorem copyStop_bodies (s : State) (k id : Nat) : SameBodies s (copyStop s k id) := by
  unfold copyStop
  split
  · exact .refl s
  · split
    · exact .refl s
    · exact engineStop_bodies ..

theorem acquireAt_bodies (s : State) (w : Issuer) (sc : Scope) : SameBodies s (acquireAt s w sc) := by
  unfold acquireAt
  split
  · exact .refl s
  · split
    · exact .refl s
    · extract_lets us
      split
      · exact .refl s
      · exact .modTeam ..

theorem grantCopy_bodies (s : State) (tgt off : Nat) (w : CbWaiter) (id : Nat) (c : CBuf) : SameBodies s (grantCopy s tgt off w id c) :=
  (SameBodies.modBlock s tgt fun b => ((dropWaiter_serves b w).trans (putCb_onlyScr ..).serves).bodies).trans (.modCopy _ _ _ fun _ => rfl)

theorem serveRes_bodies (tgt off fuel : Nat) : ∀ s, SameBodies s (serveRes s tgt off fuel) := by
  induction fuel with
  | zero => exact .refl
  | succ fuel ih =>
    intro s
    unfold serveRes
    split
    · exact .refl s
    · split
      · exact .refl s
      · next w _ =>
        have hout : SameBodies s (s.modBlock tgt fun b => dropWaiter b w) := .modBlock s tgt fun b => (dropWaiter_serves b w).bodies
        extract_lets out
        split
        · exact (hout.trans (.modTeam ..)).trans (ih _)
        · exact (hout.trans (copyStop_bodies ..)).trans (ih _)
        · next c _ _ =>
          split
          · have hput : SameBodies out (out.modBlock tgt fun b => putCb b off c.reserve.2) := .modBlock out tgt fun b => (putCb_onlyScr ..).bodies
            exact (((hout.trans hput).trans (acquireAt_bodies _ w.who (scratchScope w.who.bid tgt))).trans (.modTeam ..)).trans (ih _)
          · exact .refl s
        · split
          · exact (grantCopy_bodies s tgt off w _ _).trans (ih _)
          · exact .refl s

theorem serveAcq_bodies (tgt off fuel : Nat) : ∀ s, SameBodies s (serveAcq s tgt off fuel) := by
  induction fuel with
  | zero => exact .refl
  | succ fuel ih =>
    intro s
    unfold serveAcq
    split
    · exact .refl s
    · next b _ =>
      split
      · exact .refl s
      · next w _ =>
        have hout : SameBodies s (s.modBlock tgt fun b => dropWaiter b w) := .modBlock s tgt fun b => (dropWaiter_serves b w).bodies
        extract_lets out
        split
        · exact (hout.trans (.modTeam ..)).trans (ih _)
        · exact .refl s
        · next c _ _ =>
          split
          · have hput : SameBodies out (out.modBlock tgt fun b => (acquireSlot b off c).2) :=
              .modBlock out tgt fun b => (acquireSlot_serves b off c).bodies
            exact (((hout.trans hput).trans (acquireAt_bodies _ w.who (scratchScope w.who.bid tgt))).trans (.modTeam ..)).trans (ih _)
          · exact .refl s
        · next c id _ _ =>
          split
          · exact hout.trans (ih _)
          · next o _ =>
            split
            · split
              · exact (hout.trans (.modBlock out tgt fun b => (grantMat_serves b off c o).bodies)).trans (ih _)
              · exact .refl s
            · exact hout.trans (ih _)

theorem serveCb_bodies (s : State) (tgt off : Nat) : SameBodies s (serveCb s tgt off) := (serveRes_bodies tgt off 64 s).trans (serveAcq_bodies tgt off 64 _)

theorem copyEndTest_bodies (s : State) (la : Launch) (k id : Nat) : SameBodies s (copyEndTest s la k id) := by
  unfold copyEndTest
  split
  · exact .refl s
  · next b _ =>
    split
    · exact .refl s
    · next o _ =>
      split
      · unfold copyDone
        extract_lets s1
        have h1 : SameBodies s s1 := .modCopy s b.bid o.id fun _ => rfl
        split
        · split
          · exact h1.trans (engineStop_bodies ..)
          · exact (h1.trans (.modBlock s1 _ fun b => (fillSlot_serves b _ _ _).bodies)).trans (serveCb_bodies ..)
        · exact h1
      · exact .refl s

/-! The moves of a unit. -/

theorem coreWrite_blocks (s : State) (r : Req) (p : Phys) (l : List Byte) (poison : Bool) : (coreWrite s r p l poison).blocks = s.blocks := by
  unfold coreWrite
  extract_lets die s1 s2 s3
  have h2 : s2.blocks = s.blocks :=
    (homeWrite_onlyMem (wakeFor s r.core p) p r.ctx l poison r.cache).blocks_time.1.trans (wakeFor_reads (key := 0) s r.core p).blocks
  clear_value s2
  split
  · split
    · have h3 : s3.blocks = s2.blocks := by
        unfold s3
        split
        · rfl
        · exact (l2Use_reads (key := 0) s2 _ _).blocks
      clear_value s3
      split
      · exact (l1Drop_onlyTags s3 _).reads (key := 0) |>.blocks.trans (h3.trans h2)
      · exact (((l1Drop_onlyTags s3 _).trans (dirWrite_onlyTags _ _ _ _)).trans (l1Take_onlyTags _ _)).reads (key := 0) |>.blocks.trans (h3.trans h2)
    · exact (l1Drop_onlyTags s2 _).reads (key := 0) |>.blocks.trans h2
  · exact h2

theorem stationWrite_blocks (s : State) (p : Phys) (ctx : Nat) (l : List Byte) (poison : Bool) : (stationWrite s p ctx l poison).blocks = s.blocks := by
  unfold stationWrite
  extract_lets d s1 s2 s3
  have h2 : s2.blocks = s.blocks := (setLineKey_onlyMem s p).blocks_time.1
  have h3 : s3.blocks = s.blocks := by
    unfold s3
    split
    · exact h2
    · exact h2
  exact (mscTouch_onlyMem s3 _ _ _ _).blocks_time.1.trans h3

theorem writePlace_bodies (s : State) (b : Block) (la : Launch) (cache : Cache) (ea : Nat) (tg : Target) (l : List Byte) (poison : Bool) :
    SameBodies s (writePlace s b la cache ea tg l poison) := by
  cases tg with
  | scr bid off => exact .modBlock s bid fun b => (putScratch_onlyScr ..).bodies
  | mem tr p =>
    refine .of_blocks ?_
    unfold writePlace
    dsimp only
    split
    · exact stationWrite_blocks ..
    · rw [podSend_out]
      exact (coreWrite_blocks ..).trans (useTlb_reads (key := 0) s b la tr ea).blocks

theorem copyRead_blocks (s : State) (b : Block) (la : Launch) (z : Bool) (q : Piece) : (copyRead s b la z q).2.blocks = s.blocks := by
  unfold copyRead
  split
  · split
    · exact (useTlb_reads (key := 0) s b la _ q.1).blocks
    · exact (readPlace_blocks ..).1
  · exact (readPlace_blocks ..).1

theorem putRun_bodies (b : Block) (la : Launch) (acc : CopyAcc) (ea : Nat) (l : List Byte) (p : Bool) : SameBodies acc.s (putRun b la acc ea l p).s := by
  unfold putRun
  split
  · exact .refl _
  · next ps _ =>
    have h : ∀ (ps : List Piece) (w : State × List Byte), SameBodies w.1
        (ps.foldl (fun w q => (writePlace w.1 b la .bypass q.1 q.2.1 (w.2.take q.2.2) p, w.2.drop q.2.2)) w).1 := by
      intro ps
      induction ps with
      | nil => exact fun w => .refl w.1
      | cons q ps ih => exact fun w => (writePlace_bodies ..).trans (ih _)
    exact h ps (acc.s, l)

theorem putRuns_bodies (b : Block) (la : Launch) (a : Nat) (data : List Byte) (runs : List (Nat × Nat × Bool)) : ∀ acc : CopyAcc,
    SameBodies acc.s (runs.foldl (fun acc k => putRun b la acc (a + k.1) ((data.drop k.1).take k.2.1) k.2.2) acc).s := by
  induction runs with
  | nil => exact fun acc => .refl acc.s
  | cons k runs ih => exact fun acc => (putRun_bodies ..).trans (ih _)

theorem putDsts_bodies (b : Block) (la : Launch) (data : List Byte) (runs : List (Nat × Nat × Bool)) (dsts : List Nat) : ∀ acc : CopyAcc,
    SameBodies acc.s (dsts.foldl (fun acc a => runs.foldl (fun acc k => putRun b la acc (a + k.1) ((data.drop k.1).take k.2.1) k.2.2) acc) acc).s := by
  induction dsts with
  | nil => exact fun acc => .refl acc.s
  | cons a dsts ih => exact fun acc => (putRuns_bodies b la a data runs acc).trans (ih _)

theorem copyReads_blocks (b : Block) (la : Launch) (z : Bool) (ps : List Piece) : ∀ w : List Byte × List Bool × State,
    (ps.foldl (fun w q =>
      let r := copyRead w.2.2 b la z q
      (w.1 ++ r.1.1, w.2.1 ++ pieceMarks r.2 q.2.1 q.2.2 r.1.2, r.2)) w).2.2.blocks = w.2.2.blocks := by
  induction ps with
  | nil => exact fun _ => rfl
  | cons q ps ih => exact fun w => (ih _).trans (copyRead_blocks ..)

/-- What a move reads: its bytes, which of them carry poison, and the state after. -/
def moveSource (b : Block) (la : Launch) (z : Bool) (s : State) (m : Move) : List Byte × List Bool × State :=
  match m.src with
  | .error l => (l, List.replicate l.length false, s)
  | .ok a =>
    match resolveRange s b la a m.n 0 with
    | .error _ => ([], [], s)
    | .ok ps => ps.foldl (fun w q =>
        let r := copyRead w.2.2 b la z q
        (w.1 ++ r.1.1, w.2.1 ++ pieceMarks r.2 q.2.1 q.2.2 r.1.2, r.2)) ([], [], s)

theorem doMove_eq (b : Block) (la : Launch) (z : Bool) (acc : CopyAcc) (m : Move) : doMove b la z acc m =
    m.dsts.foldl (fun w a => (markRuns 0 (moveSource b la z acc.s m).2.1).foldl (fun w k =>
      putRun b la w (a + k.1) (((moveSource b la z acc.s m).1.drop k.1).take k.2.1) k.2.2) w)
      { acc with s := (moveSource b la z acc.s m).2.2, pois := acc.pois || (moveSource b la z acc.s m).2.1.any fun p => p } := by
  unfold doMove moveSource
  cases m.src with
  | error l => rfl
  | ok a =>
    dsimp only
    cases resolveRange acc.s b la a m.n 0 with
    | error e => rfl
    | ok ps => rfl

theorem doMove_bodies (b : Block) (la : Launch) (z : Bool) (acc : CopyAcc) (m : Move) : SameBodies acc.s (doMove b la z acc m).s := by
  have hsrc : (moveSource b la z acc.s m).2.2.blocks = acc.s.blocks := by
    unfold moveSource
    split
    · rfl
    · split
      · rfl
      · exact copyReads_blocks ..
  rw [doMove_eq]
  generalize moveSource b la z acc.s m = src at hsrc ⊢
  exact SameBodies.trans (.of_blocks hsrc) (putDsts_bodies b la src.1 (markRuns 0 src.2.1) m.dsts { acc with s := src.2.2, pois := acc.pois || src.2.1.any fun p => p })

theorem doMoves_bodies (b : Block) (la : Launch) (z : Bool) (ms : List Move) : ∀ acc : CopyAcc, SameBodies acc.s (ms.foldl (doMove b la z) acc).s := by
  induction ms with
  | nil => exact fun acc => .refl acc.s
  | cons m ms ih => exact fun acc => (doMove_bodies ..).trans (ih _)

theorem coverLine_blocks (s : State) (b : Block) (p : Phys) : (coverLine s b p).blocks = s.blocks := by
  unfold coverLine
  split
  · rfl
  · exact (clearPoison_rest s p).blocks_time.1

theorem clearCovered_bodies (s : State) (b : Block) (l : List (Target × Nat)) : SameBodies s (clearCovered s b l) := by
  unfold clearCovered
  extract_lets s1 scr
  have h1 : SameBodies s s1 := by
    unfold s1
    split
    · exact .refl s
    · exact SameBodies.foldl (fun s p => .of_blocks (coverLine_blocks s b p)) _ s
  refine h1.trans (SameBodies.foldl (fun s bid => .modBlock s bid fun c => ?_) _ s1)
  rw [clearUnits_poison]
  rfl

theorem CopyAcc.clear_bodies (a : CopyAcc) (b : Block) : SameBodies a.s (a.clear b) := by
  unfold CopyAcc.clear
  split
  · exact clearCovered_bodies ..
  · exact clearCovered_bodies ..

theorem countUnit_bodies (s : State) (la : Launch) (b : Block) (o : CopyOp) (n : Nat) : SameBodies s (countUnit s la b o n) := by
  unfold countUnit
  split
  · exact .refl s
  · extract_lets objs
    refine SameBodies.foldl (fun s a => ?_) objs s
    split
    · exact .modBlock s _ fun b => (updateObj_onlyScr ..).bodies
    · exact .refl s

/-- What a unit whose moves do not fail makes of the state before its operation is taken on. -/
def unitState (s : State) (la : Launch) (b : Block) (o : CopyOp) : CopyAcc :=
  (o.step b).moves.foldl (doMove b la (o.kind != .tgath && o.kind != .tscat && (tensorOf o.desc).z))
    ⟨if o.kind = .tgath ∧ o.part = 0 then rowStart s b la o else s, [], [], false, []⟩

/-- A copy's operation taken on by a unit. -/
def unitDone (b : Block) (o : CopyOp) (acc : CopyAcc) (k : CopyOp) : CopyOp :=
  { k with done := (o.step b).done, part := (o.step b).part, misses := k.misses + (o.step b).misses, poisoned := k.poisoned || acc.pois,
           unacked := k.unacked ++ (acc.lines.dedup.filter fun l => !k.unacked.contains l) }

theorem copyUnit_run (hb : s.block? bid = some b) (ho : b.copy? id = some o) (hl : s.launch? b.q b.lseq = some la) (hph : o.phase = .running)
    (hleft : o.done < o.total) (hruns : engineRuns la b = true) (hok : (o.step b).moves.findSome? (moveFail s b la) = none) :
    copyUnit s bid id = copyEndTest ((countUnit ((unitState s la b o).clear b) la b o
      ((o.step b).moves.foldl (fun n m => n + m.n) 0)).modCopy bid id (unitDone b o (unitState s la b o))) la bid id := by
  unfold copyUnit
  rw [hb]
  dsimp only
  rw [ho, hl]
  dsimp only
  rw [if_neg (by simp [hph, hruns]), if_neg (Nat.not_le.2 hleft), hok]
  rfl

theorem unitState_bodies (s : State) (la : Launch) (b : Block) (o : CopyOp) : SameBodies s (unitState s la b o).s := by
  refine SameBodies.trans ?_ (doMoves_bodies b la _ _ ⟨if o.kind = .tgath ∧ o.part = 0 then rowStart s b la o else s, [], [], false, []⟩)
  split
  · exact .of_blocks (rowTouch_blocks ..).1
  · exact .refl s

/-- The state whose operation is taken on and then tested for its end. -/
def takenState (s : State) (la : Launch) (b : Block) (o : CopyOp) (bid id : Nat) : State :=
  (countUnit ((unitState s la b o).clear b) la b o ((o.step b).moves.foldl (fun n m => n + m.n) 0)).modCopy bid id (unitDone b o (unitState s la b o))

theorem takenState_copy (hb : s.block? bid = some b) (ho : b.copy? id = some o) :
    ∃ B k, (takenState s la b o bid id).block? bid = some B ∧ B.copy? id = some (unitDone b o (unitState s la b o) k) ∧ k.body = o.body := by
  let n := (o.step b).moves.foldl (fun n m => n + m.n) 0
  have hcount : SameBodies s (countUnit ((unitState s la b o).clear b) la b o n) :=
    ((unitState_bodies s la b o).trans (CopyAcc.clear_bodies _ b)).trans (countUnit_bodies ..)
  unfold takenState
  change ∃ B k, ((countUnit ((unitState s la b o).clear b) la b o n).modCopy bid id _).block? bid = some B ∧ _
  generalize unitState s la b o = acc at hcount ⊢
  generalize countUnit (acc.clear b) la b o n = s1 at hcount ⊢
  obtain ⟨B, k, hB, hk, hkb⟩ := hcount.copy hb ho
  have hid : k.id = id := by simpa using List.find?_some hk
  refine ⟨{ B with copies := B.copies.map fun o' => if o'.id = id then unitDone b o acc o' else o' }, k, ?_, ?_, hkb⟩
  · refine (State.block?_modBlock s1 bid bid (fun b' => { b' with copies := b'.copies.map fun o' => if o'.id = id then unitDone b o acc o' else o' })
      fun _ => rfl).trans ?_
    rw [hB, Option.map_some, if_pos rfl]
  · have hfun : ((fun x : CopyOp => x.id == id) ∘ fun o' : CopyOp => if o'.id = id then unitDone b o acc o' else o') = fun x => x.id == id := by
      funext x
      simp only [Function.comp]
      split <;> rfl
    change (List.map _ B.copies).find? _ = _
    rw [List.find?_map, hfun, show B.copies.find? _ = some k from hk, Option.map_some, if_pos hid]

theorem CopyOp.fields_of_body {x y : CopyOp} (h : x.body = y.body) :
    x.kind = y.kind ∧ x.done = y.done ∧ x.part = y.part ∧ x.misses = y.misses ∧ x.desc = y.desc :=
  ⟨(congrArg CopyOp.kind h :), (congrArg CopyOp.done h :), (congrArg CopyOp.part h :), (congrArg CopyOp.misses h :), (congrArg CopyOp.desc h :)⟩

theorem copyUnit_advances (hb : s.block? bid = some b) (ho : b.copy? id = some o) (hl : s.launch? b.q b.lseq = some la) (hph : o.phase = .running)
    (hleft : o.done < o.total) (hruns : engineRuns la b = true) (hok : (o.step b).moves.findSome? (moveFail s b la) = none) :
    ∃ B k, (copyUnit s bid id).block? bid = some B ∧ B.copy? id = some k ∧ k.done = (o.step b).done ∧ k.part = (o.step b).part ∧
      k.misses = o.misses + (o.step b).misses ∧ k.desc = o.desc := by
  rw [copyUnit_run hb ho hl hph hleft hruns hok]
  obtain ⟨B1, k, hB1, hk1, hkb⟩ := takenState_copy (la := la) hb ho
  obtain ⟨B2, k2, hB2, hk2, hk2b⟩ := (copyEndTest_bodies (takenState s la b o bid id) la bid id).copy hB1 hk1
  obtain ⟨-, hdone, hpart, hmiss, hdesc⟩ := CopyOp.fields_of_body hk2b
  obtain ⟨-, -, -, hmiss', hdesc'⟩ := CopyOp.fields_of_body hkb
  exact ⟨B2, k2, hB2, hk2, hdone, hpart, hmiss.trans (congrArg (· + (o.step b).misses) hmiss'), hdesc.trans hdesc'⟩

end

end Sys2Proof.Machine

end

section
/-! A unit of a fill (R289): the words of the pattern that it writes into its own scratchpad, and no other byte. -/

namespace Sys2Proof.Machine

section
variable {s t : State} {bid id a at_ first pat k n : Nat} {b : Block} {o : CopyOp} {la : Launch}

/-! One word of a fill. -/

theorem leNat_lt : ∀ l : List Byte, leNat l < 256 ^ l.length
  | [] => Nat.one_pos
  | x :: l => by
    have h := leNat_lt l
    have hx := x.isLt
    rw [leNat, List.length_cons, Nat.pow_succ]
    omega

theorem numAt_lt (m : Memory) (a n : Nat) : numAt m a n < 256 ^ n := by
  have h := leNat_lt (bytesAt m a n)
  rw [bytesAt_length] at h
  exact h

theorem localAddr_toNat (h : a < 2 ^ 44) : (localAddr a).toNat = Config.localWindow + a := by
  unfold localAddr w64 Config.localWindow
  rw [BitVec.toNat_ofNat, Nat.mod_eq_of_lt]
  omega

theorem linePieces_one {ea : Nat} (h : ea % 128 + n ≤ 128) (hn : 0 < n) (fuel : Nat) : linePieces ea (fuel + 2) n = [(ea, n)] := by
  have hmin : min n (128 - ea % 128) = n := Nat.min_eq_left (by omega)
  unfold linePieces
  rw [if_neg (by omega), hmin]
  dsimp only
  unfold linePieces
  rw [if_pos (Nat.sub_self n)]

/-- A word of the own scratchpad resolves in one piece. -/
theorem resolveRange_ownWord (s : State) (la : Launch) (need : Nat) (ha : a % 4 = 0) (hlt : a < 2 ^ 44) (hfit : a + 4 ≤ b.scratchLen) :
    resolveRange s b la (localAddr a).toNat 4 need = .ok [((localAddr a).toNat, .scr b.bid a, 4)] := by
  rw [localAddr_toNat hlt]
  unfold resolveRange
  rw [linePieces_one (n := 4) (fuel := 3) (by unfold Config.localWindow; omega) (by decide)]
  have hwin : windowOf (Config.localWindow + a) = true := by
    unfold windowOf Config.localWindow Config.clusterWindow
    simp only [Bool.and_eq_true, decide_eq_true_eq]
    omega
  have hres : resolveWindow s la.hdr b (Config.localWindow + a) 4 = .ok (b.bid, a) := by
    have hoff : (Config.localWindow + a) % 2 ^ 44 = a := by unfold Config.localWindow; omega
    unfold resolveWindow
    rw [if_pos (Nat.le_add_right _ _), hoff]
    exact if_pos hfit
  rw [List.foldr_cons, List.foldr_nil]
  dsimp only
  rw [if_pos hwin, hres]

/-- The move of one word of a fill. -/
def fillMove (pat a : Nat) : Move := ⟨.error (leBytes 4 pat), [(localAddr a).toNat], 4⟩

theorem doMove_fill (la : Launch) (z : Bool) (acc : CopyAcc) (ha : a % 4 = 0) (hlt : a < 2 ^ 44) (hfit : a + 4 ≤ b.scratchLen) :
    ∃ acc', doMove b la z acc (fillMove pat a) = acc' ∧ acc'.s = acc.s.modBlock b.bid (fun c => putScratch c a (leBytes 4 pat) false) ∧
      acc'.soiled = acc.soiled ∧ acc'.clean = (.scr b.bid a, 4) :: acc.clean := by
  refine ⟨_, rfl, ?_⟩
  have hsrc : moveSource b la z acc.s (fillMove pat a) = (leBytes 4 pat, List.replicate 4 false, acc.s) := rfl
  have hruns : markRuns 0 (List.replicate 4 false) = [(0, 4, false)] := rfl
  have hdata : ((leBytes 4 pat).drop 0).take 4 = leBytes 4 pat := rfl
  rw [doMove_eq, hsrc]
  dsimp only [fillMove]
  rw [hruns, List.foldl_cons, List.foldl_nil, List.foldl_cons, List.foldl_nil]
  dsimp only
  rw [hdata]
  unfold putRun
  rw [show (leBytes 4 pat).length = 4 from rfl, Nat.add_zero, resolveRange_ownWord _ la 1 ha hlt hfit]
  exact ⟨rfl, rfl, rfl⟩

/-! A unit of a fill. -/

/-- The first k words of a unit from `first` on are written, and nothing else. -/
structure Filled (s : State) (b : Block) (first pat k : Nat) (acc : CopyAcc) : Prop where
  mem : acc.s.mem = s.mem
  bytes : ∀ bd i, scrByte acc.s bd i =
    if bd = b.bid ∧ first ≤ i ∧ i < first + 4 * k then BitVec.ofNat 8 (pat / 2 ^ (8 * ((i - first) % 4))) else scrByte s bd i
  block : ∃ B, acc.s.block? b.bid = some B ∧ B.objs = b.objs
  soiled : acc.soiled = []
  clean : ∀ q ∈ acc.clean, ∃ bd off, q.1 = .scr bd off

theorem leBytes_four_getD {j : Nat} (h : j < 4) : (leBytes 4 pat).getD j 0 = BitVec.ofNat 8 (pat / 2 ^ (8 * j)) := by
  have hcases : j = 0 ∨ j = 1 ∨ j = 2 ∨ j = 3 := by omega
  rcases hcases with rfl | rfl | rfl | rfl
  · rw [Nat.mul_zero, Nat.pow_zero, Nat.div_one]
    rfl
  · rfl
  · change BitVec.ofNat 8 (pat / 256 / 256) = _
    rw [Nat.div_div_eq_div_mul]
    rfl
  · change BitVec.ofNat 8 (pat / 256 / 256 / 256) = _
    rw [Nat.div_div_eq_div_mul, Nat.div_div_eq_div_mul]
    rfl

/-- The next word of a unit. -/
theorem Filled.next {acc acc' : CopyAcc} (h : Filled s b first pat k acc)
    (hs : acc'.s = acc.s.modBlock b.bid (fun c => putScratch c (first + 4 * k) (leBytes 4 pat) false)) (hsoil : acc'.soiled = acc.soiled)
    (hclean : acc'.clean = (.scr b.bid (first + 4 * k), 4) :: acc.clean) (hplain : b.plainAt (first + 4 * k) 4) :
    Filled s b first pat (k + 1) acc' := by
  obtain ⟨B, hB, hobjs⟩ := h.block
  have hplain' : B.plainAt (first + 4 * k) (leBytes 4 pat).length := by
    unfold Block.plainAt
    rw [hobjs]
    exact hplain
  obtain ⟨hin, hout⟩ := scrByte_putScratch hB hplain' false
  rw [show (leBytes 4 pat).length = 4 from rfl] at hin hout
  refine ⟨by rw [hs]; exact h.mem, fun bd i => ?_, ⟨_, ?_, (putScratch_onlyScr B (first + 4 * k) (leBytes 4 pat) false).objs.trans hobjs⟩, hsoil.trans h.soiled, fun q hq => ?_⟩
  · rw [hs]
    by_cases hhit : bd = b.bid ∧ first + 4 * k ≤ i ∧ i < first + 4 * k + 4
    · obtain ⟨rfl, hle, hlt⟩ := hhit
      obtain ⟨j, rfl⟩ := Nat.exists_eq_add_of_le hle
      have hj : j < 4 := by omega
      have hmod : (first + 4 * k + j - first) % 4 = j := by omega
      rw [hin j hj, if_pos ⟨rfl, by omega, by omega⟩, hmod, leBytes_four_getD hj]
    · rw [hout bd i (by omega), h.bytes]
      by_cases hold : bd = b.bid ∧ first ≤ i ∧ i < first + 4 * k
      · rw [if_pos hold, if_pos ⟨hold.1, hold.2.1, by omega⟩]
      · rw [if_neg hold, if_neg (by omega)]
  · rw [hs]
    refine (State.block?_modBlock _ _ _ _ fun c => putScratch_bid c _ _ _).trans ?_
    rw [hB, Option.map_some, if_pos rfl]
  · rw [hclean] at hq
    rcases List.mem_cons.1 hq with rfl | hq
    · exact ⟨b.bid, _, rfl⟩
    · exact h.clean q hq

theorem fills (la : Launch) (z : Bool) (hB : s.block? b.bid = some b) (hfirst : first % 4 = 0) (hlt : first + 4 * n < 2 ^ 44)
    (hfit : first + 4 * n ≤ b.scratchLen) (hplain : ∀ x ∈ b.objs, x + 16 ≤ first ∨ first + 4 * n ≤ x) :
    ∀ k ≤ n, Filled s b first pat k ((List.range k).foldl (fun acc i => doMove b la z acc (fillMove pat (first + 4 * i))) ⟨s, [], [], false, []⟩) := by
  intro k hk
  induction k with
  | zero => exact ⟨rfl, fun bd i => by rw [if_neg (by omega)]; rfl, ⟨b, hB, rfl⟩, rfl, nofun⟩
  | succ k ih =>
    have h := ih (by omega)
    rw [List.range_succ, List.foldl_append, List.foldl_cons, List.foldl_nil]
    obtain ⟨acc', hacc, hs, hsoil, hclean⟩ := doMove_fill (pat := pat) la z
      ((List.range k).foldl (fun acc i => doMove b la z acc (fillMove pat (first + 4 * i))) ⟨s, [], [], false, []⟩)
      (a := first + 4 * k) (b := b) (by omega) (by omega) (by omega)
    rw [hacc]
    refine h.next hs hsoil hclean fun x hx => ?_
    have := hplain x hx
    omega

/-- Pieces of scratchpads clear no poison of memory. -/
theorem clearCovered_scr_mem (s : State) (b : Block) {l : List (Target × Nat)} (h : ∀ q ∈ l, ∃ bd off, q.1 = .scr bd off) :
    (clearCovered s b l).mem = s.mem := by
  have hnone : (l.filterMap fun q => q.1.line?.map fun p => (p, q.2)) = [] := by
    refine List.filterMap_eq_nil_iff.2 fun q hq => ?_
    obtain ⟨bd, off, hoff⟩ := h q hq
    rw [hoff]
    rfl
  unfold clearCovered
  extract_lets s1 scr
  have h1 : s1 = s := by
    unfold s1
    rw [hnone]
    split <;> rfl
  rw [h1]
  exact foldl_keeps (f := fun s bid => s.modBlock bid fun c => clearUnits c ((scr.filter fun q => q.1 == bid).map Prod.snd)) (x := State.mem)
    (fun _ _ => rfl) _ s

theorem scrByte_modCopy (s : State) (F : CopyOp → CopyOp) (bd i : Nat) : scrByte (s.modCopy bid id F) bd i = scrByte s bd i := by
  unfold scrByte State.modCopy
  rw [State.block?_modBlock s bid bd (fun b => { b with copies := b.copies.map fun o => if o.id = id then F o else o }) fun _ => rfl]
  cases s.block? bd with
  | none => rfl
  | some B =>
    rw [Option.map_some]
    by_cases h : bd = bid
    · rw [if_pos h]
    · rw [if_neg h]

/-- The end of a copy that fills no buffer changes its phase. -/
theorem copyEndTest_noBuf (h : ∀ B k, s.block? bid = some B → B.copy? id = some k → k.buf = none) :
    (copyEndTest s la bid id).mem = s.mem ∧ ∀ bd i, scrByte (copyEndTest s la bid id) bd i = scrByte s bd i := by
  unfold copyEndTest
  split
  · exact ⟨rfl, fun _ _ => rfl⟩
  · next B hB =>
    split
    · exact ⟨rfl, fun _ _ => rfl⟩
    · next k hk =>
      split
      · unfold copyDone
        rw [h B k hB hk]
        exact ⟨rfl, fun bd i => scrByte_modCopy s _ bd i⟩
      · exact ⟨rfl, fun _ _ => rfl⟩

/-- A unit of a fill. -/
theorem copyUnit_fills (hb : s.block? bid = some b) (ho : b.copy? id = some o) (hl : s.launch? b.q b.lseq = some la) (hph : o.phase = .running)
    (hleft : o.done < o.total) (hruns : engineRuns la b = true) (hok : (o.step b).moves.findSome? (moveFail s b la) = none) (hkind : o.kind = .tfill)
    (hbar : o.bar = none) (hfirst : (numAt o.desc 0 4 + 4 * o.done) % 4 = 0) (hfit : numAt o.desc 0 4 + numAt o.desc 4 4 ≤ b.scratchLen)
    (hplain : ∀ x ∈ b.objs, x + 16 ≤ numAt o.desc 0 4 ∨ numAt o.desc 0 4 + numAt o.desc 4 4 ≤ x)
    (hn : n = min (numAt o.desc 4 4 / 4 - o.done) ((128 - (numAt o.desc 0 4 + 4 * o.done) % 128) / 4)) :
    (o.step b).done = o.done + n ∧ (copyUnit s bid id).mem = s.mem ∧ ∀ bd i, scrByte (copyUnit s bid id) bd i =
      if bd = bid ∧ numAt o.desc 0 4 + 4 * o.done ≤ i ∧ i < numAt o.desc 0 4 + 4 * o.done + 4 * n then
        BitVec.ofNat 8 (numAt o.desc 8 4 / 2 ^ (8 * ((i - (numAt o.desc 0 4 + 4 * o.done)) % 4)))
      else scrByte s bd i := by
  have hbid : b.bid = bid := by simpa using List.find?_some hb
  have hstep : o.step b = ⟨(List.range n).map fun i => fillMove (numAt o.desc 8 4) (numAt o.desc 0 4 + 4 * o.done + 4 * i), o.done + n, 0, 0⟩ := by
    unfold CopyOp.step CopyOp.total
    rw [hkind, hn]
    rfl
  have hD := numAt_lt o.desc 0 4
  have hL := numAt_lt o.desc 4 4
  have htotal : o.done < numAt o.desc 4 4 / 4 := by
    unfold CopyOp.total at hleft
    rw [hkind] at hleft
    exact hleft
  have hstate : unitState s la b o = (List.range n).foldl (fun acc i => doMove b la (o.kind != .tgath && o.kind != .tscat && (tensorOf o.desc).z) acc
      (fillMove (numAt o.desc 8 4) (numAt o.desc 0 4 + 4 * o.done + 4 * i))) ⟨s, [], [], false, []⟩ := by
    unfold unitState
    rw [hstep, if_neg (by rw [hkind]; simp), List.foldl_map]
  have htake := takenState_copy (la := la) hb ho
  have hfilled : Filled s b (numAt o.desc 0 4 + 4 * o.done) (numAt o.desc 8 4) n (unitState s la b o) := by
    rw [hstate]
    clear hstate htake hstep
    generalize numAt o.desc 0 4 = D at *
    generalize numAt o.desc 4 4 = L at *
    refine fills la _ (hbid ▸ hb) hfirst ?_ ?_ (fun x hx => ?_) n (Nat.le_refl n)
    · omega
    · omega
    · have := hplain x hx
      omega
  have hrun : copyUnit s bid id = copyEndTest (takenState s la b o bid id) la bid id := copyUnit_run hb ho hl hph hleft hruns hok
  have hmid : (takenState s la b o bid id).mem = s.mem ∧ ∀ bd i, scrByte (takenState s la b o bid id) bd i = scrByte (unitState s la b o).s bd i := by
    unfold takenState countUnit
    rw [hbar]
    dsimp only
    generalize unitState s la b o = acc at hfilled
    have hclear : acc.clear b = clearCovered acc.s b acc.clean := by
      unfold CopyAcc.clear
      rw [hfilled.soiled]
      rfl
    rw [hclear]
    refine ⟨(clearCovered_scr_mem acc.s b hfilled.clean).trans hfilled.mem, fun bd i => ?_⟩
    exact (scrByte_modCopy _ _ bd i).trans ((clearCovered_cells acc.s b acc.clean).2 (.scr bd i))
  obtain ⟨hmem, hbytes⟩ := copyEndTest_noBuf (s := takenState s la b o bid id) (bid := bid) (id := id) (la := la) fun B k hB hk => by
    obtain ⟨B1, k1, hB1, hk1, hkb⟩ := htake
    obtain rfl := Option.some.inj (hB1.symm.trans hB)
    obtain rfl := Option.some.inj (hk1.symm.trans hk)
    have hkk : k1.kind = .tfill := (CopyOp.fields_of_body hkb).1.trans hkind
    unfold CopyOp.buf unitDone
    rw [hkk]
  refine ⟨by rw [hstep], by rw [hrun, hmem, hmid.1], fun bd i => ?_⟩
  rw [hrun, hbytes, hmid.2, hfilled.bytes, hbid]

end

end Sys2Proof.Machine

end

section
/-! Reservations granted, and copies that retire (R18, R293, R303). -/

namespace Sys2Proof.Machine

section
variable {s t : State} {bid id off fuel : Nat} {b B : Block} {o : CopyOp} {w : CbWaiter}

/-! The first reservation that waits at a buffer with a free slot. -/

theorem serveRes_idle (h : ∀ b, s.block? bid = some b → b.cbq = []) (fuel : Nat) : serveRes s bid off fuel = s := by
  cases fuel with
  | zero => rfl
  | succ fuel =>
    unfold serveRes
    cases hb : s.block? bid with
    | none => rfl
    | some b =>
      dsimp only
      rw [firstWaiter, h b hb]
      rfl

theorem serveAcq_idle (h : ∀ b, s.block? bid = some b → b.cbq = []) (fuel : Nat) : serveAcq s bid off fuel = s := by
  cases fuel with
  | zero => rfl
  | succ fuel =>
    unfold serveAcq
    cases hb : s.block? bid with
    | none => rfl
    | some b =>
      dsimp only
      rw [firstWaiter, h b hb]
      rfl

/-- A block after the grant of a slot to a copy that waited there. -/
def grantedBlock (off : Nat) (w : CbWaiter) (c : CBuf) (b : Block) : Block := putCb (dropWaiter b w) off c

theorem modCopy_block (s : State) (k id : Nat) (F : CopyOp → CopyOp) (n : Nat) : (s.modCopy k id F).block? n = (s.block? n).map fun b =>
    if n = k then { b with copies := b.copies.map fun o => if o.id = id then F o else o } else b :=
  State.block?_modBlock s k n (fun b => { b with copies := b.copies.map fun o => if o.id = id then F o else o }) fun _ => rfl

theorem grantCopy_block (s : State) (c : CBuf) (n : Nat) : (grantCopy s bid off w id c).block? n = (s.block? n).map fun b =>
    let b' := if n = bid then grantedBlock off w c.reserve.2 b else b
    if n = w.who.bid then { b' with copies := b'.copies.map fun o =>
      if o.id = id then { o with phase := .running, slot := some (c.slot c.tail) } else o } else b' := by
  have hput : (s.modBlock bid fun b => putCb (dropWaiter b w) off c.reserve.2).block? n =
      (s.block? n).map fun b => if n = bid then grantedBlock off w c.reserve.2 b else b :=
    State.block?_modBlock s bid n (grantedBlock off w c.reserve.2) fun b => (putCb_onlyScr (dropWaiter b w) off _).bid
  refine (modCopy_block (s.modBlock bid fun b => putCb (dropWaiter b w) off c.reserve.2) w.who.bid id
    (fun o => { o with phase := .running, slot := some (c.slot c.tail) }) n).trans ?_
  rw [hput, Option.map_map]
  rfl

theorem granted_cbq (hq : b.cbq = [w]) (c : CBuf) : (grantedBlock off w c b).cbq = [] := by
  unfold grantedBlock
  rw [(putCb_onlyScr _ _ _).cbq]
  unfold dropWaiter
  rw [hq]
  simp

theorem serveCb_grants (hB : s.block? bid = some b) (hq : b.cbq = [w]) (hoff : w.off = off) (hacq : w.acq = false) (hop : w.op = some id)
    (hwell : (cbufOf (b.num off 32)).broken b.scratchLen = false) (hfree : 0 < (cbufOf (b.num off 32)).free) :
    serveCb s bid off = grantCopy s bid off w id (cbufOf (b.num off 32)) := by
  have hfirst : firstWaiter b off false = some w := by
    unfold firstWaiter
    rw [hq, List.find?_cons, hoff, hacq, beq_self_eq_true, beq_self_eq_true]
    rfl
  have hget : getCb b off = some (cbufOf (b.num off 32)) := by
    unfold getCb
    dsimp only
    rw [if_neg (by rw [hwell]; exact Bool.false_ne_true)]
  have hidle : ∀ K, (grantCopy s bid off w id (cbufOf (b.num off 32))).block? bid = some K → K.cbq = [] := by
    intro K hK
    rw [grantCopy_block, hB, Option.map_some, Option.some.injEq, if_pos rfl] at hK
    have hnone := granted_cbq (off := off) hq (cbufOf (b.num off 32)).reserve.2
    rw [← hK]
    dsimp only
    split
    · exact hnone
    · exact hnone
  have hres : serveRes s bid off 64 = grantCopy s bid off w id (cbufOf (b.num off 32)) := by
    unfold serveRes
    rw [hB]
    dsimp only
    rw [hfirst]
    dsimp only
    rw [hget, hop]
    dsimp only
    rw [if_pos hfree]
    exact serveRes_idle hidle 63
  unfold serveCb
  rw [hres]
  exact serveAcq_idle hidle 64

theorem cbReservation_spec (hB : s.block? bid = some b) (hq : b.cbq = [w]) (hoff : w.off = off) (hacq : w.acq = false) (hop : w.op = some id)
    (hwell : (cbufOf (b.num off 32)).broken b.scratchLen = false) (hfree : 0 < (cbufOf (b.num off 32)).free) (hplain : b.plainAt off 32) :
    (∃ B, (serveCb s bid off).block? bid = some B ∧ B.cbq = [] ∧ cbufOf (B.num off 32) = (cbufOf (b.num off 32)).reserve.2) ∧
      ∀ b2, s.block? w.who.bid = some b2 → ∀ k ∈ b2.copies, k.id = id → ∃ B2, (serveCb s bid off).block? w.who.bid = some B2 ∧
        ({ k with phase := .running, slot := some ((cbufOf (b.num off 32)).slot (cbufOf (b.num off 32)).tail) } : CopyOp) ∈ B2.copies := by
  rw [serveCb_grants hB hq hoff hacq hop hwell hfree]
  have hfits := reserve_fits (well_of hwell) hfree
  generalize cbufOf (b.num off 32) = c at hfits
  have hset := putCb_cbSet (b := dropWaiter b w) hfits hplain
  refine ⟨?_, fun b2 hb2 k hk hid => ?_⟩
  · rw [grantCopy_block, hB, Option.map_some, if_pos rfl]
    refine ⟨_, rfl, ?_, ?_⟩
    · dsimp only
      split
      · exact granted_cbq hq _
      · exact granted_cbq hq _
    · dsimp only
      split
      · exact hset.buf
      · exact hset.buf
  · rw [grantCopy_block, hb2, Option.map_some]
    have hcopies : (if w.who.bid = bid then grantedBlock off w c.reserve.2 b2 else b2).copies = b2.copies := by
      split
      · exact ((dropWaiter_serves b2 w).trans (putCb_onlyScr ..).serves).2.2.1
      · rfl
    refine ⟨_, rfl, ?_⟩
    dsimp only
    rw [if_pos rfl]
    dsimp only
    rw [hcopies]
    exact List.mem_map.2 ⟨k, hk, if_pos hid⟩

/-! Retirement. -/

theorem SameBodies.block_bodies {B' : Block} (h : SameBodies s t) (hs : s.block? bid = some B) (ht : t.block? bid = some B') :
    B'.copies.map CopyOp.body = B.copies.map CopyOp.body := by
  have hblock : ∀ l : List Block, (l.find? fun b => b.bid == bid).map Block.bodies = (l.map Block.bodies).find? fun p => p.1 == bid :=
    fun l => by rw [List.find?_map]; rfl
  have hB : (t.block? bid).map Block.bodies = (s.block? bid).map Block.bodies := by
    rw [State.block?, State.block?, hblock, hblock, h]
  rw [hs, ht, Option.map_some, Option.map_some] at hB
  exact congrArg Prod.snd (Option.some.inj hB)

/-- What its retirement adds to a copy's team: what its writes were answered with, and the misses of its gather. -/
def copyCounted (o : CopyOp) (g : Nat) (t : Team) : Team := { t with gwct := max t.gwct g, gmiss := t.gmiss + w32 o.misses }

/-- The state of a copy's retirement before its operation finishes. -/
def copyOut (s : State) (bid id : Nat) (o : CopyOp) : State :=
  ((ackLines s bid o.team o.unacked).modTeam bid o.team fun t => { t with gmiss := t.gmiss + w32 o.misses }).modBlock bid
    fun b => { b with copies := b.copies.filter fun k => k.id != id }

theorem copyRetire_run (hB : s.block? bid = some b) (ho : b.copy? id = some o) (hph : o.phase = .finished) (hold : oldestOp b o.team 0 = some id) :
    copyRetire s bid id = wakeLimits (finishOp (copyOut s bid id o) bid o.team id 0 (if o.poisoned then some 0x20 else none)) bid := by
  unfold copyRetire
  rw [hB]
  dsimp only
  rw [ho]
  dsimp only
  rw [if_neg (by rw [hph, hold]; simp)]
  rfl

theorem copyOut_spec {u : Team} (hB : s.block? bid = some b) (hu : s.team? bid o.team = some u) : ∃ g B,
    (copyOut s bid id o).block? bid = some B ∧ B.copies = b.copies.filter (fun k => k.id != id) ∧
      (copyOut s bid id o).team? bid o.team = some (copyCounted o g u) := by
  let r := answered s o.unacked 0
  have hblocks : r.2.blocks = s.blocks := answered_blocks ..
  let s1 := (ackLines s bid o.team o.unacked).modTeam bid o.team fun t => { t with gmiss := t.gmiss + w32 o.misses }
  have h0 : r.2.team? bid o.team = some u := (team?_of_blocks hblocks bid o.team).trans hu
  have h1 : s1.team? bid o.team = some (copyCounted o r.1 u) :=
    team?_modTeam_same (s := ackLines s bid o.team o.unacked) (team?_modTeam_same h0 fun _ => rfl) fun _ => rfl
  have hb1 : ∃ ts, s1.block? bid = some { b with teams := ts } := by
    have hb0 : r.2.block? bid = some b := by rw [State.block?, hblocks]; exact hB
    let gw : Team → Team := fun t => { t with gwct := max t.gwct r.1 }
    let gm : Team → Team := fun t => { t with gmiss := t.gmiss + w32 o.misses }
    refine ⟨((b.modTeam o.team gw).modTeam o.team gm).teams, (State.block?_modTeam (r.2.modTeam bid o.team gw) bid o.team bid gm).trans ?_⟩
    rw [State.block?_modTeam, hb0, Option.map_some, Option.map_some, if_pos rfl, if_pos rfl]
    rfl
  obtain ⟨ts, hb1⟩ := hb1
  have hb2 : (copyOut s bid id o).block? bid = some { b with teams := ts, copies := b.copies.filter fun k => k.id != id } := by
    refine (State.block?_modBlock s1 bid bid (fun b => { b with copies := b.copies.filter fun k => k.id != id }) fun _ => rfl).trans ?_
    rw [hb1, Option.map_some, if_pos rfl]
  refine ⟨r.1, _, hb2, rfl, ?_⟩
  rw [State.team?, hb1] at h1
  rw [State.team?, hb2]
  exact h1

theorem finishOp_bodies {u : Team} (hu : s.team? bid o.team = some u) (hl : u.live ≠ 0) (cls : Nat) (err : Option Nat) :
    SameBodies s (finishOp s bid o.team id cls err) := by
  obtain ⟨s1, hs1, hrun⟩ := finishOp_live id cls err hu hl
  rw [hrun]
  exact ((SameBodies.modTeam s bid o.team (markFin id err)).trans (.of_blocks hs1.blocks)).trans (.modTeam ..)

/-- A copy that has finished retires. -/
theorem copyRetire_spec {u : Team} (hB : s.block? bid = some b) (ho : b.copy? id = some o) (hph : o.phase = .finished)
    (hold : oldestOp b o.team 0 = some id) (hu : s.team? bid o.team = some u) (hl : u.live ≠ 0) :
    ∃ g v B, (copyRetire s bid id).team? bid o.team = some v ∧ RetiredTo (copyCounted o g u) v id 0 (if o.poisoned then some 0x20 else none) ∧
      (copyRetire s bid id).block? bid = some B ∧ B.team? o.team = some v ∧ ∀ k ∈ B.copies, k.id ≠ id := by
  obtain ⟨g, B0, hB0, hcopies, hu0⟩ := copyOut_spec (id := id) hB hu
  rw [copyRetire_run hB ho hph hold]
  have hfin := finishOp_team id 0 (if o.poisoned then some 0x20 else none) hu0 hl
  have hbod := finishOp_bodies (id := id) hu0 hl 0 (if o.poisoned then some 0x20 else none)
  generalize finishOp (copyOut s bid id o) bid o.team id 0 (if o.poisoned then some 0x20 else none) = s2 at hfin hbod
  have hbod3 : SameBodies (copyOut s bid id o) (wakeLimits s2 bid) := hbod.trans (.modBlock s2 bid fun _ => rfl)
  have hteam := wakeLimits_team hfin
  obtain ⟨B, hB, hBu⟩ : ∃ B, (wakeLimits s2 bid).block? bid = some B ∧ B.team? o.team = some ((retiredTeam (copyOut s bid id o).time 0
      (markFin id (if o.poisoned then some 0x20 else none) (copyCounted o g u))).wake Wait.isLimit s2.time) := by
    unfold State.team? at hteam
    split at hteam
    · next B hB => exact ⟨B, hB, hteam⟩
    · cases hteam
  refine ⟨g, _, B, hteam, (retiredTo_retiredTeam _ _ _ _ _).wake _ _, hB, hBu, fun k hk => ?_⟩
  have hids : B.copies.map CopyOp.body = B0.copies.map CopyOp.body := hbod3.block_bodies hB0 hB
  obtain ⟨k0, hk0, hbody⟩ := List.mem_map.1 (hids ▸ List.mem_map_of_mem hk)
  rw [hcopies] at hk0
  have hne := (List.mem_filter.1 hk0).2
  have hid : k0.id = k.id := (congrArg CopyOp.id hbody :)
  rw [hid] at hne
  simpa using hne

end

end Sys2Proof.Machine

open Sys2Proof Sys2Proof.Machine

/-- Settles O34: a unit's moves and the service of buffers leave every copy but for where its reservation stands; a fill's words follow one
another by induction; one waiter's grant leaves the queue empty; a retirement is that of its team's operation. -/
theorem copyEngineSteps : Obligations.CopyEngineSteps := by
  unfold Obligations.CopyEngineSteps
  intro s bid id off b o la w hB
  refine ⟨fun ho hl hph hleft hruns hok => ?_, ?_, fun ho hph hold hun => ?_⟩
  · obtain ⟨B, k, hB', hk, hdone, hpart, hmiss, hdesc⟩ := copyUnit_advances hB ho hl hph hleft hruns hok
    refine ⟨_, B, k, rfl, hB', hk, hdone, hpart, hmiss, hdesc, fun hkind hbar hplain => ?_⟩
    intro first n hfirst hfit
    obtain ⟨hd, hmem, hbytes⟩ := copyUnit_fills (n := n) hB ho hl hph hleft hruns hok hkind hbar hfirst hfit hplain rfl
    exact ⟨hdone.trans hd, hmem, hbytes⟩
  · intro cb hq hoff hacq hop hwell hfree hplain
    have hplain' : b.plainAt off 32 := fun x hx h => hplain x hx ⟨h.1, h.2⟩
    obtain ⟨⟨B, hB', hBq, hcb⟩, hgrant⟩ := cbReservation_spec hB hq hoff hacq hop hwell hfree hplain'
    exact ⟨_, B, rfl, hB', hBq, hcb, hgrant⟩
  · refine ⟨_, rfl, Retired.of_retiredTo fun u hu hl => ?_, fun u hu hl => ?_⟩
    · obtain ⟨g, v, B, hv, hret, -⟩ := copyRetire_spec hB ho hph hold hu hl
      exact ⟨copyCounted o g u, v, hv, hret, rfl, rfl, rfl, rfl, rfl⟩
    · obtain ⟨g, v, B, -, ⟨rs, hret⟩, hB', hv, hgone⟩ := copyRetire_spec hB ho hph hold hu hl
      exact ⟨v, B, hB', hv, (congrArg Team.gmiss hret).trans rfl, hgone⟩

end

section
/-! A reduction packet whose sender, a block of this device, has been saved: its acknowledgement is kept in the block's record, which lies in
memory (R263, R268, R397). -/

namespace Sys2Proof.Machine

section
variable {s : State} {key ctx n off : Nat} {p : Phys} {l : List Byte} {x : Byte} {v : Saved} {la : Launch}

/-! A record in host memory. -/

theorem linePieces_range (fuel : Nat) : ∀ {off n : Nat}, ∀ q ∈ linePieces off fuel n, off ≤ q.1 ∧ q.1 < off + n := by
  induction fuel with
  | zero => exact fun _ h => absurd h List.not_mem_nil
  | succ fuel ih =>
    intro off n q hq
    unfold linePieces at hq
    split at hq
    · cases hq
    · rcases List.mem_cons.1 hq with rfl | hq
      · exact ⟨Nat.le_refl _, by dsimp only; omega⟩
      · obtain ⟨hlo, hhi⟩ := ih q hq
        omega

theorem physOf_host (s : State) (key : Nat) {pa : Nat} (hlo : 2 ^ 50 ≤ pa) (hhi : pa < 2 ^ 51) : physOf s 0 key false pa = ⟨.host, pa, key, false, 0⟩ := by
  have htop : bitsOf pa 51 50 = 1 := by unfold bitsOf; omega
  unfold physOf
  rw [htop]
  rfl

theorem devWrite_host_line (hk : p.kind = .host) (s : State) (ctx : Nat) (l : List Byte) (line : Nat) : rawLine (devWrite s p ctx l).mem line =
    if line = p.line then spliceLine (memLine s p) (p.loc % 128) l else rawLine s.mem line := by
  have hmem : (devWrite s p ctx l).mem = putLine s.mem p.line (spliceLine (memLine s p) (p.loc % 128) l) := by
    simp only [devWrite, homeWrite, setLineKey, hk, Bool.false_eq_true, if_false]
  rw [hmem, rawLine_putLine]

theorem foldl_devWrite_other (key ctx pa : Nat) (l : List Byte) (line : Nat) (qs : List (Nat × Nat)) :
    (∀ q ∈ qs, 2 ^ 50 ≤ q.1 ∧ q.1 < 2 ^ 51 ∧ q.1 / 128 ≠ line) → ∀ s : State,
    rawLine (qs.foldl (fun s q => devWrite s (physOf s 0 key false q.1) ctx ((l.drop (q.1 - pa)).take q.2)) s).mem line = rawLine s.mem line := by
  induction qs with
  | nil => exact fun _ _ => rfl
  | cons q qs ih =>
    intro h s
    obtain ⟨hlo, hhi, hne⟩ := h q List.mem_cons_self
    rw [List.foldl_cons, ih fun q hq => h q (List.mem_cons_of_mem _ hq), physOf_host s key hlo hhi, devWrite_host_line rfl]
    exact if_neg fun he => hne he.symm

/-- The first byte of what is written from the start of a line of host memory on. -/
theorem paWrite_host_first {pa : Nat} (s : State) (hx : l.head? = some x) (hlo : 2 ^ 50 ≤ pa) (hhi : pa + l.length < 2 ^ 51) (hal : pa % 128 = 0) :
    lineByte (rawLine (paWrite s key ctx pa l).mem (pa / 128)) 0 = x := by
  obtain ⟨xs, rfl⟩ : ∃ xs, l = x :: xs := by
    cases l with
    | nil => cases hx
    | cons y ys => exact ⟨ys, by rw [Option.some.inj hx]⟩
  generalize hn : (x :: xs).length = n at hhi
  have hpos : 0 < n := by rw [← hn]; exact Nat.succ_pos _
  have hpieces : linePieces pa (n + 1) n = (pa, min n 128) :: linePieces (pa + min n 128) n (n - min n 128) := by
    rw [linePieces, hal]
    exact if_neg (Nat.pos_iff_ne_zero.1 hpos)
  have hrest : ∀ q ∈ linePieces (pa + min n 128) n (n - min n 128), 2 ^ 50 ≤ q.1 ∧ q.1 < 2 ^ 51 ∧ q.1 / 128 ≠ pa / 128 := by
    intro q hq
    obtain ⟨hlo, hhi⟩ := linePieces_range n q hq
    omega
  unfold paWrite
  rw [hn, hpieces, List.foldl_cons, foldl_devWrite_other key ctx pa (x :: xs) (pa / 128) _ hrest, physOf_host s key hlo (by omega),
    devWrite_host_line rfl, if_pos (show pa / 128 = Phys.line ⟨.host, pa, key, false, 0⟩ from rfl), lineByte_spliceLine _ (by decide)]
  dsimp only
  obtain ⟨k, hk⟩ : ∃ k, min n 128 = k + 1 := ⟨min n 128 - 1, by omega⟩
  rw [hal, Nat.sub_self, List.drop_zero, hk, List.take_succ_cons, if_pos ⟨Nat.le_refl 0, by simp⟩]
  rfl

theorem recordPoison_mem (s : State) (p : Phys) (b : Bool) : (recordPoison s p b).mem = s.mem := rfl

/-- A record that lies from the start of a line of host memory on. -/
theorem writeRecord_host {r : Nat × W64} (hl : s.launch? v.blk.q v.blk.lseq = some la) (hr : la.blkRecs.find? (fun r => r.1 == v.blk.idx) = some r)
    (hx : (blockImage la.hdr v).head? = some x) (hlo : 2 ^ 50 ≤ r.2.toNat) (hhi : r.2.toNat + (blockImage la.hdr v).length < 2 ^ 51)
    (hal : r.2.toNat % 128 = 0) : lineByte (rawLine (writeRecord s v).mem (r.2.toNat / 128)) 0 = x := by
  unfold writeRecord
  rw [hl]
  dsimp only
  rw [hr]
  dsimp only
  rw [foldl_keeps (x := State.mem)]
  · exact paWrite_host_first s hx hlo hhi hal
  · exact fun _ _ => rfl

theorem layOut_length (len : Nat) (l : List (Nat × List Byte)) : (layOut len l).length ≤ len := List.length_take_le ..

theorem blockImage_length (h : LaunchHdr) (v : Saved) : (blockImage h v).length ≤ blockRecLen h := layOut_length ..

end

/-! The counterexample. -/

/-- The sender's launch: its block's record lies at the first address of host memory. -/
def farLaunch : Launch := { newLaunch 0 1 0 0 0 0 progHdr [] with blkRecs := [(0, w64 (2 ^ 50))] }

/-- The sender, saved. -/
def farSaved : Saved := ⟨newBlock 1 1 0 0 (.core 0) [] 0, 0, false⟩

/-- A reduction packet of one element, for stack 0. -/
def redPre : BitVec 512 := BitVec.ofNat 512 (2 ^ 320)

/-- A packet that a saved block has sent to this device. -/
def savedSender : State :=
  { State.reset with launches := [farLaunch], saved := [farSaved], inNet := [⟨0, .red redPre [] (devId State.reset) [1, 0, 0, 0, 0]⟩] }

theorem farSaved_image : (blockImage farLaunch.hdr farSaved).head? = some 1 := by decide +kernel

theorem farSaved_length : (blockImage farLaunch.hdr farSaved).length < 2 ^ 40 := by
  have hlen : blockRecLen farLaunch.hdr < 2 ^ 40 := by decide +kernel
  exact Nat.lt_of_le_of_lt (blockImage_length ..) hlen

theorem redPre_kept : (redPacket 0 redPre []).2 = false := by decide +kernel

/-- The state once the packet is queued. -/
def queuedSender : State := { savedSender with inNet := [], redq := [(redPacket 0 redPre []).1] }

theorem savedSender_run : reductionPacket savedSender 0 = writeRecord { queuedSender with blocks := [], saved := [farSaved] } farSaved := by
  have hqueue : reductionPacket savedSender 0 = ackSend queuedSender (devId State.reset) [1, 0, 0, 0, 0] true [] := by
    unfold reductionPacket
    rw [show savedSender.inNet[0]? = some ⟨0, .red redPre [] (devId State.reset) [1, 0, 0, 0, 0]⟩ from rfl]
    dsimp only
    rw [if_neg (by decide), redPre_kept, if_neg (by decide), if_neg (by decide)]
    rfl
  have hack : ackSend queuedSender (devId State.reset) [1, 0, 0, 0, 0] true [] = ackDone queuedSender [1, 0, 0, 0, 0] true [] 0 := if_pos rfl
  rw [hqueue, hack]
  rfl

theorem savedSender_first : lineByte (rawLine (reductionPacket savedSender 0).mem (2 ^ 43)) 0 = 1 := by
  have hrec : (w64 (2 ^ 50)).toNat = 2 ^ 50 := by decide
  have hlen := farSaved_length
  have h := writeRecord_host (s := { queuedSender with blocks := [], saved := [farSaved] }) (v := farSaved) (la := farLaunch) (r := (0, w64 (2 ^ 50)))
    rfl rfl farSaved_image (by rw [hrec]) (by rw [hrec]; omega) (by rw [hrec]; decide)
  rw [hrec] at h
  rw [savedSender_run]
  exact h

end Sys2Proof.Machine

open Sys2Proof Sys2Proof.Machine

/-- Refutes O48: the acknowledgement of a queued reduction packet of this device's own sender, a saved block, is kept in the block's record,
and so changes memory. -/
theorem not_callEvents : ¬ Obligations.CallEvents := by
  unfold Obligations.CallEvents
  intro hall
  have h := hall savedSender 0 0 0 0 (Call.mk 0 0 0 0 0 0 0 0 0 0 [] none .issued 0 0 0 0 [] 0 0 0 0 false 0) farSaved.blk farSaved.blk (0, 0)
    ⟨0, .red redPre [] (devId State.reset) [1, 0, 0, 0, 0]⟩ redPre [] (devId State.reset) [1, 0, 0, 0, 0]
  obtain ⟨-, -, -, -, -, -, -, hred⟩ := h
  obtain ⟨-, -, -, hqueue⟩ := hred rfl rfl
  obtain ⟨t, ht, -, -, hmem, -⟩ := hqueue (fun k hk => nomatch hk) redPre_kept (by decide)
  have hrun : t = reductionPacket savedSender 0 := (Host.Outcome.next.inj ht).symm
  have hone := savedSender_first
  rw [← hrun, hmem] at hone
  exact absurd hone (by decide +kernel)

end

section
/-! Messages of the collective engine (R391, R397, R403 to R408): chunks and start messages at the ranks of this module. -/

namespace Sys2Proof.Machine

section
variable {s t : State} {bid i j k v : Nat} {b : Block} {n : NetIn} {ck : Chunk} {g : GroupReg} {f : State → State}

theorem block?_bid (h : s.block? bid = some b) : b.bid = bid := by simpa using List.find?_some h

theorem atBlock_resident (h : s.block? bid = some b) : atBlock s bid f = f s := by
  unfold atBlock
  rw [h]

theorem modBlock_block (h : s.block? bid = some b) {F : Block → Block} (hF : ∀ b, (F b).bid = b.bid) :
    (s.modBlock bid F).block? bid = some (F b) := by
  rw [State.block?_modBlock s bid bid F hF, h, Option.map_some, if_pos rfl]

/-! Scoreboard bits. -/

theorem getLsbD_or_bit (x : W64) {k : Nat} (h : k < 64) : (x ||| w64 (2 ^ k)).getLsbD k = true := by
  rw [BitVec.getLsbD_or, w64, BitVec.getLsbD_ofNat, Nat.testBit_two_pow_self, decide_eq_true h]
  exact Bool.or_true _

/-- A bit of a block's scoreboards. -/
def Block.sbBit (b : Block) (i k : Nat) : Bool := (smGet 0 b.sb i).getLsbD k

theorem setSb_sb (b : Block) (i : Nat) (x : W64) (j : Nat) : smGet 0 (setSb b i x).sb j = if j = i then x else smGet 0 b.sb j :=
  smGet_smSet ..

theorem sbBit_setSb_same (b : Block) (i : Nat) {k : Nat} (h : k < 64) :
    (setSb b i (smGet 0 b.sb i ||| w64 (2 ^ k))).sbBit i k = true := by
  rw [Block.sbBit, setSb_sb, if_pos rfl]
  exact getLsbD_or_bit _ h

theorem sbBit_setSb (b : Block) (i : Nat) (x : W64) (h : b.sbBit j k = true) :
    (setSb b i (smGet 0 b.sb i ||| x)).sbBit j k = true := by
  unfold Block.sbBit at h ⊢
  rw [setSb_sb]
  split
  · next e =>
    subst e
    rw [BitVec.getLsbD_or, h, Bool.true_or]
  · exact h

theorem sbBit_closeTest (b : Block) (off : Nat) (h : b.sbBit j k = true) : (closeTest b off).sbBit j k = true := by
  unfold closeTest
  extract_lets o o' b1 sb
  have h1 : b1.sbBit j k = true := by
    have hsb : b1.sb = b.sb := rfl
    clear_value b1
    unfold Block.sbBit at h ⊢
    rw [hsb]
    exact h
  clear_value b1 sb
  split
  · split
    · exact sbBit_setSb b1 sb _ h1
    · exact h1
  · exact h

/-! Answers to the module itself, and messages held in the landing area. -/

theorem ackSend_own {dev : Nat} (h : dev = devId s) (ok : Bool) (lines : List Nat) : ackSend s dev [] ok lines = s := if_pos h

theorem foldl_add_sum (l : List Nat) : l.foldl (· + ·) 0 = l.sum := List.sum_eq_foldl.symm

theorem land_room (h : ((s.landing.filter fun m => landCtx m == landCtx n).map landSize).sum + landSize n ≤ 2 ^ 20) (i : Nat) :
    land s i n = { s with inNet := s.inNet.eraseIdx i, landing := s.landing ++ [n] } := by
  unfold land
  extract_lets used
  have hused : used = ((s.landing.filter fun m => landCtx m == landCtx n).map landSize).sum := foldl_add_sum _
  exact if_neg (by rw [hused]; exact Nat.not_lt.mpr h)

theorem barCount_inNet (s : State) (off : Nat) : (barCount s off).inNet = s.inNet := by
  unfold barCount
  extract_lets v
  split <;> rfl

theorem reject_silent (s : State) (ctx mcap : Nat) (entry : List Byte) : reject s ctx 0 mcap entry = barCount s 0x190004 := by
  unfold reject
  exact if_pos (Or.inl rfl)

/-! Chunks (R391, R397, R403). -/

theorem chunkReceive_own (hi : s.inNet[i]? = some n) (hmsg : n.msg = .chunk ck) (hmem : ck.mem = false) :
    chunkReceive s i = match recvAt s ck.ctx (chdrOf ck.hdr).id (some (chdrOf ck.hdr).gen) (chdrOf ck.hdr).rank with
      | .drop => ackSend (barCount { s with inNet := s.inNet.eraseIdx i } 0x190000) ck.dev ck.src false []
      | .hold => land s i n
      | .rank g => match ck.coll with
        | some r => collChunk { s with inNet := s.inNet.eraseIdx i } n.port ck g r
        | none => peerChunk { s with inNet := s.inNet.eraseIdx i } n.port ck g := by
  unfold chunkReceive
  simp only [hi, hmsg, hmem] <;> rfl

theorem peerAfter_scratch (h : ck.pbar = none) (b : Block) : (peerAfter ck b).scratch = b.scratch := by
  unfold peerAfter
  rw [h]
  cases ck.rbit <;> rfl

theorem peerAfter_bid (h : ck.pbar = none) (b : Block) : (peerAfter ck b).bid = b.bid := by
  unfold peerAfter
  rw [h]
  cases ck.rbit <;> rfl

theorem peerAfter_bit (h : ck.pbar = none) {r : Nat} (hr : ck.rbit = some r) (b : Block) : (peerAfter ck b).sbBit (r / 64 % 4) (r % 64) = true := by
  unfold peerAfter
  rw [h, hr]
  exact sbBit_setSb_same _ _ (Nat.mod_lt _ (by decide))

theorem peerAfter_same (h : ck.pbar = none) (hr : ck.rbit = none) (b : Block) : peerAfter ck b = b := by
  unfold peerAfter
  rw [h, hr]

theorem scrByte_of_scratch {F : Block → Block} (hF : ∀ b, (F b).bid = b.bid ∧ (F b).scratch = b.scratch) (bd o : Nat) :
    scrByte (s.modBlock bid F) bd o = scrByte s bd o := sameScratch_modBlock s bid F (fun b => (hF b).1) (fun b => (hF b).2) bd o

/-- A chunk whose port check passes, written into a scratchpad without barrier objects. -/
def peerState (s : State) (ck : Chunk) (bid : Nat) : State :=
  (s.modBlock bid fun b => putScratch b ck.dst ck.data (chdrOf ck.hdr).poisoned).modBlock bid (peerAfter ck)

theorem peerChunk_writes (hat : s.blockAt? g.q g.lseq g.idx = some b) (hb : s.block? bid = some b) (hred : ck.red = false)
    (hdev : ck.dev = devId s) (hsrc : ck.src = []) {port : Nat} (hport : portFails port ck = false)
    (hfit : ck.dst + ck.data.length ≤ b.scratchLen) : peerChunk s port ck g = peerState s ck bid := by
  have hbid := block?_bid hb
  have hval : peerValue b ck = .ok (ck.data, (chdrOf ck.hdr).poisoned) := by
    unfold peerValue
    extract_lets h t n
    rw [if_neg (Nat.not_lt.mpr hfit), hred]
    rfl
  have hput : (s.modBlock bid fun b => putScratch b ck.dst ck.data (chdrOf ck.hdr).poisoned).block? bid =
      some (putScratch b ck.dst ck.data (chdrOf ck.hdr).poisoned) := modBlock_block hb fun b => putScratch_bid ..
  unfold peerChunk
  simp only [hat, hport, hbid, hval]
  rw [if_neg Bool.false_ne_true]
  dsimp only
  rw [atBlock_resident hb, atBlock_resident hput, hsrc]
  have hdev' : ck.dev = devId (peerState s ck bid) := hdev
  exact ackSend_own hdev' true []

theorem peerState_effect (hb : s.block? bid = some b) (hobjs : b.objs = []) (hbar : ck.pbar = none) :
    (∀ bd a, scrByte (peerState s ck bid) bd a =
      if bd = bid ∧ ck.dst ≤ a ∧ a < ck.dst + ck.data.length then ck.data.getD (a - ck.dst) 0 else scrByte s bd a) ∧
    ∀ r, ck.rbit = some r → ∃ B, (peerState s ck bid).block? bid = some B ∧ (smGet 0 B.sb (r / 64 % 4)).getLsbD (r % 64) = true := by
  have hplain : b.plainAt ck.dst ck.data.length := fun o ho => absurd ho (by rw [hobjs]; exact List.not_mem_nil)
  obtain ⟨hin, hout⟩ := scrByte_putScratch hb hplain (chdrOf ck.hdr).poisoned
  constructor
  · intro bd a
    refine (scrByte_of_scratch (fun b => ⟨peerAfter_bid hbar b, peerAfter_scratch hbar b⟩) bd a).trans ?_
    split
    · next h =>
      obtain ⟨rfl, hlo, hhi⟩ := h
      have hj := hin (a - ck.dst) (by omega)
      rwa [Nat.add_sub_cancel' hlo] at hj
    · next h => exact hout bd a (by omega)
  · intro r hr
    exact ⟨_, modBlock_block (modBlock_block hb fun b => putScratch_bid ..) (peerAfter_bid hbar), peerAfter_bit hbar hr _⟩

theorem peerChunk_rejects (hat : s.blockAt? g.q g.lseq g.idx = some b) (hb : s.block? bid = some b) (hdev : ck.dev = devId s)
    (hsrc : ck.src = []) {port : Nat} (hport : portFails port ck = true) (hlog : g.mlog = 0) :
    peerChunk s port ck g = (barCount s 0x190004).modBlock bid (peerAfter ck) := by
  have hbid := block?_bid hb
  have hcount : (barCount s 0x190004).block? bid = some b := by
    unfold State.block? at hb ⊢
    rw [barCount_blocks]
    exact hb
  have hdev' : ck.dev = devId ((barCount s 0x190004).modBlock bid (peerAfter ck)) := hdev.trans (devId_barCount (by decide)).symm
  unfold peerChunk
  simp only [hat, hport, hbid, hlog, hsrc]
  rw [if_pos trivial]
  dsimp only
  rw [if_neg Nat.one_ne_zero, reject_silent, atBlock_resident hcount]
  exact ackSend_own hdev' _ _

end

end Sys2Proof.Machine
end

section
/-! The end of collective operations and of fetches (R397, R405, R411, R412, R417, R434). -/

namespace Sys2Proof.Machine

section
variable {s t s1 : State} {bid ti i id cls j n a : Nat} {b : Block} {v : Team} {err : Option Nat} {f : State → State}

/-! An operation retires, then instructions that the engine's limit held issue again. -/

theorem finishOp_block (hb : s.block? bid = some b) (hu : s.team? bid ti = some v) (hl : v.live ≠ 0) :
    ∃ ts, (finishOp s bid ti id cls err).block? bid = some { b with teams := ts } := by
  obtain ⟨s1, hposts, hrun⟩ := finishOp_live id cls err hu hl
  have hmark : (s.modTeam bid ti (markFin id err)).block? bid = some (b.modTeam ti (markFin id err)) := modBlock_block hb fun _ => rfl
  have h1 : s1.block? bid = some (b.modTeam ti (markFin id err)) := by
    unfold State.block? at hmark ⊢
    rw [hposts.blocks]
    exact hmark
  rw [hrun]
  exact ⟨_, modBlock_block h1 (F := fun b => b.modTeam ti (retiredTeam s1.time cls)) fun _ => rfl⟩

theorem retired_block (hb : s.block? bid = some b) (hu : s.team? bid ti = some v) (hl : v.live ≠ 0) :
    ∃ ts, (wakeLimits (finishOp s bid ti id cls err) bid).block? bid = some { b with teams := ts } := by
  obtain ⟨ts, hB⟩ := finishOp_block (id := id) (cls := cls) (err := err) hb hu hl
  exact ⟨_, modBlock_block hB (F := Block.wake Wait.isLimit (finishOp s bid ti id cls err).time) fun _ => rfl⟩

/-- Retirement after changes that leave the team, its acknowledgements aside, as it was. -/
theorem retired_finishOp (h : ∀ v, s.team? bid ti = some v → ∃ g, s1.team? bid ti = some { v with gwct := g }) :
    Retired s (finishOp s1 bid ti id cls err) bid ti id cls err := by
  refine Retired.of_retiredTo fun v hv hl => ?_
  obtain ⟨g, hg⟩ := h v hv
  exact ⟨{ v with gwct := g }, _, finishOp_team id cls err hg hl, retiredTo_retiredTeam .., rfl, rfl, rfl, rfl, rfl⟩

/-- The same where the engine's limit held instructions. -/
theorem retired_after (h : ∀ v, s.team? bid ti = some v → ∃ g, s1.team? bid ti = some { v with gwct := g }) :
    Retired s (wakeLimits (finishOp s1 bid ti id cls err) bid) bid ti id cls err := by
  refine Retired.of_retiredTo fun v hv hl => ?_
  obtain ⟨g, hg⟩ := h v hv
  exact ⟨{ v with gwct := g }, _, wakeLimits_team (finishOp_team id cls err hg hl), (retiredTo_retiredTeam ..).wake _ _, rfl, rfl, rfl, rfl, rfl⟩

/-- A block's change that touches no team, then a retirement. -/
theorem retired_modBlock {F : Block → Block} (hF : ∀ b, (F b).bid = b.bid ∧ (F b).teams = b.teams) :
    Retired s (wakeLimits (finishOp (s.modBlock bid F) bid ti id cls err) bid) bid ti id cls err :=
  retired_after fun v hv => ⟨v.gwct, (team?_modBlock_kept hF bid ti).trans hv⟩

/-- The block after both. -/
theorem retired_modBlock_block {F : Block → Block} (hF : ∀ b, (F b).bid = b.bid ∧ (F b).teams = b.teams) (hb : s.block? bid = some b)
    (hu : s.team? bid ti = some v) (hl : v.live ≠ 0) :
    ∃ ts, (wakeLimits (finishOp (s.modBlock bid F) bid ti id cls err) bid).block? bid = some { F b with teams := ts } :=
  retired_block (modBlock_block hb fun b => (hF b).1) ((team?_modBlock_kept hF bid ti).trans hu) hl

theorem anyBlock?_resident (hb : s.block? bid = some b) : s.anyBlock? bid = some b := by
  unfold State.anyBlock?
  rw [hb]
  rfl

/-! Remote operations (R397, R406). -/

theorem retest_onlyScr (b : Block) : OnlyScr b b.retest := by
  unfold Block.retest
  split <;> rfl

theorem setSb_onlyScr (b : Block) (n : Nat) (x : W64) : OnlyScr b (setSb b n x) := rfl

/-- The sender's bit of a remote operation. -/
def senderBit (o : SendOp) (b : Block) : Block :=
  let d := rdescOf o.desc
  if d.flags.testBit 1 then setSb b (d.sbit / 64 % 4) (smGet 0 b.sb (d.sbit / 64 % 4) ||| w64 (2 ^ (d.sbit % 64))) else b

/-- A block that a remote operation has left. -/
def sentBlock (o : SendOp) (id : Nat) (b : Block) : Block :=
  let b := senderBit o (Block.retest { b with sends := b.sends.filter fun k => k.id != id })
  match o.bar with
  | some off => updateObj b off objArrive
  | none => b

theorem senderBit_onlyScr (o : SendOp) (b : Block) : OnlyScr b (senderBit o b) := by
  unfold senderBit
  extract_lets d
  split
  · exact setSb_onlyScr ..
  · exact .refl b

theorem sentBlock_onlyScr (o : SendOp) (id : Nat) (b : Block) :
    OnlyScr { b with sends := b.sends.filter fun k => k.id != id } (sentBlock o id b) := by
  unfold sentBlock
  extract_lets b1
  have h1 := (retest_onlyScr { b with sends := b.sends.filter fun k => k.id != id }).trans (senderBit_onlyScr o _)
  cases o.bar with
  | none => exact h1
  | some off => exact h1.trans (updateObj_onlyScr ..)

theorem sentBlock_keeps (o : SendOp) (id : Nat) (b : Block) : (sentBlock o id b).bid = b.bid ∧ (sentBlock o id b).teams = b.teams :=
  ⟨(sentBlock_onlyScr o id b).bid, (sentBlock_onlyScr o id b).teams⟩

theorem sentBlock_sends (o : SendOp) (id : Nat) (b : Block) : (sentBlock o id b).sends = b.sends.filter fun k => k.id != id := by
  rw [sentBlock_onlyScr o id b]

theorem sbBit_updateObj (b : Block) (off : Nat) (F : BarObj → BarObj) {k : Nat} (h : b.sbBit j k = true) :
    (updateObj b off F).sbBit j k = true := by
  unfold updateObj
  refine sbBit_closeTest _ off ?_
  exact h

theorem sentBlock_bit {o : SendOp} (h : (rdescOf o.desc).flags.testBit 1 = true) (id : Nat) (b : Block) :
    (sentBlock o id b).sbBit ((rdescOf o.desc).sbit / 64 % 4) ((rdescOf o.desc).sbit % 64) = true := by
  unfold sentBlock
  extract_lets b1
  have h1 : b1.sbBit ((rdescOf o.desc).sbit / 64 % 4) ((rdescOf o.desc).sbit % 64) = true := by
    unfold b1 senderBit
    extract_lets d
    rw [if_pos h]
    exact sbBit_setSb_same _ _ (Nat.mod_lt _ (by decide))
  clear_value b1
  cases o.bar with
  | none => exact h1
  | some off => exact sbBit_updateObj b1 off objArrive h1

/-- A remote operation's acknowledgements noted in its team, and its block left. -/
def sentState (s : State) (bid : Nat) (o : SendOp) (id : Nat) : State :=
  ((ackLines s bid o.team o.lines).modTeam bid o.team fun t => { t with gwct := max t.gwct o.gwct }).modBlock bid (sentBlock o id)

theorem collectiveRetire_early {o : SendOp} {ok : Bool} (hb : s.block? bid = some b) (ho : b.sends.find? (fun x => x.id == id) = some o)
    (hdone : o.done = some ok) (hfired : o.fired = false) (hold : oldestOp b o.team 2 ≠ some id) : collectiveRetire s bid id = s := by
  unfold collectiveRetire
  simp only [anyBlock?_resident hb, ho, hdone, hfired]
  exact if_pos (by simpa using hold)

theorem collectiveRetire_run {o : SendOp} {ok : Bool} (hb : s.block? bid = some b) (ho : b.sends.find? (fun x => x.id == id) = some o)
    (hdone : o.done = some ok) (hfired : o.fired = false) (hold : oldestOp b o.team 2 = some id) :
    collectiveRetire s bid id = wakeLimits (finishOp (sentState s bid o id) bid o.team id 2
      (if !ok then some 0x23 else if o.poisoned then some 0x21 else none)) bid := by
  have hgo : ¬ (!o.fired && oldestOp b o.team 2 != some id) = true := by rw [hold]; simp
  unfold collectiveRetire
  simp only [anyBlock?_resident hb, ho, hdone]
  refine (if_neg hgo).trans ((atBlock_resident hb).trans ?_)
  have hclass : ¬ o.fired = true := by rw [hfired]; exact Bool.false_ne_true
  rw [if_neg hclass]
  rfl

theorem sentState_team {o : SendOp} (hv : s.team? bid o.team = some v) :
    ∃ g, (sentState s bid o id).team? bid o.team = some { v with gwct := g } := by
  have h1 : (answered s o.lines 0).2.team? bid o.team = some v := (team?_of_blocks (answered_blocks s o.lines 0) _ _).trans hv
  have h2 := team?_modTeam_same h1 (f := fun t => { t with gwct := max t.gwct (answered s o.lines 0).1 }) fun _ => rfl
  have h3 := team?_modTeam_same h2 (f := fun t => { t with gwct := max t.gwct o.gwct }) fun _ => rfl
  exact ⟨_, (team?_modBlock_kept (sentBlock_keeps o id) bid o.team).trans h3⟩

theorem sentState_block {o : SendOp} (hb : s.block? bid = some b) :
    ∃ b', b'.sends = b.sends ∧ (sentState s bid o id).block? bid = some (sentBlock o id b') := by
  have h1 : (answered s o.lines 0).2.block? bid = some b := by
    unfold State.block? at hb ⊢
    rw [answered_blocks]
    exact hb
  have h2 : (ackLines s bid o.team o.lines).block? bid = _ :=
    modBlock_block h1 (F := fun b => b.modTeam o.team fun t => { t with gwct := max t.gwct (answered s o.lines 0).1 }) fun _ => rfl
  have h3 : ((ackLines s bid o.team o.lines).modTeam bid o.team fun t => { t with gwct := max t.gwct o.gwct }).block? bid = _ :=
    modBlock_block h2 (F := fun b => b.modTeam o.team fun t => { t with gwct := max t.gwct o.gwct }) fun _ => rfl
  refine ⟨_, ?_, modBlock_block h3 fun b => (sentBlock_keeps o id b).1⟩
  rfl

end

end Sys2Proof.Machine
end

section
/-! The end of collectives and of fetches, and of a tag's quarantine (R391, R411, R412, R417, R434). -/

namespace Sys2Proof.Machine

section
variable {s t : State} {bid id j n a : Nat} {b : Block}

/-! Collectives (R411, R412). -/

/-- A block whose collective is over, its status word and its arrival aside. -/
def collOver (k : CollOpS) (g : GDesc) (id : Nat) (b : Block) : Block :=
  { b with
    colls := b.colls.filter fun j => j.id != id
    collsDone := (b.collsDone.filter fun j => b.teams.any fun t => t.ops.any fun o => o.id == j.1) ++ [(id, k.group)]
    startsLate := b.startsLate ++ ((g.others.filter fun r => !(k.starts.any fun p => p.1 == r)).map fun r => (k.group.1, k.group.2, r))
    mat := { b.mat with tiles := collRows k g b.mat.tiles, stat := setStat b.mat.stat k.tile TileStat.soil
                        queue := b.mat.queue.filter fun o => o.id != id } }

/-- The block after its collective. -/
def collLeft (k : CollOpS) (g : GDesc) (id : Nat) (b : Block) : Block :=
  let b := putScratch (collOver k g id b) (k.goff + 48) (leBytes 8 (collStatus k)) false
  match k.bar with
  | some off => updateObj b off objArrive
  | none => b

theorem collLeft_onlyScr (k : CollOpS) (g : GDesc) (id : Nat) (b : Block) : OnlyScr (collOver k g id b) (collLeft k g id b) := by
  unfold collLeft
  extract_lets b1
  have h1 : OnlyScr (collOver k g id b) b1 := putScratch_onlyScr ..
  cases k.bar with
  | none => exact h1
  | some off => exact h1.trans (updateObj_onlyScr ..)

theorem collLeft_keeps (k : CollOpS) (g : GDesc) (id : Nat) (b : Block) :
    (collLeft k g id b).bid = b.bid ∧ (collLeft k g id b).teams = b.teams :=
  ⟨(collLeft_onlyScr k g id b).bid, (collLeft_onlyScr k g id b).teams⟩

theorem collLeft_colls (k : CollOpS) (g : GDesc) (id : Nat) (b : Block) :
    (collLeft k g id b).colls = b.colls.filter (fun j => j.id != id) ∧ (collLeft k g id b).mat.tiles = collRows k g b.mat.tiles := by
  rw [collLeft_onlyScr k g id b]
  exact ⟨rfl, rfl⟩

theorem putScratch_bytes (h : b.objs = []) (off : Nat) (l : List Byte) (p : Bool) : (putScratch b off l p).scratch = setBytes b.scratch off l :=
  congrArg Block.scratch (putScratch_plain (fun o ho => absurd ho (by rw [h]; exact List.not_mem_nil)) p)

theorem collStatus_lt (k : CollOpS) : collStatus k < 256 ^ 8 := by
  unfold collStatus
  extract_lets low
  have h1 : min k.failed.length 65535 ≤ 65535 := Nat.min_le_right ..
  have h2 : low.getD 0 % 65536 < 65536 := Nat.mod_lt _ (by decide)
  have h3 : (if k.degraded = true then 2 ^ 32 else 0) ≤ 2 ^ 32 := by split <;> omega
  have h4 : (if k.mismatch = true then 2 ^ 33 else 0) ≤ 2 ^ 33 := by split <;> omega
  omega

theorem collLeft_status {k : CollOpS} (hbar : k.bar = none) (hobjs : b.objs = []) (g : GDesc) (id : Nat) :
    numAt (collLeft k g id b).scratch (k.goff + 48) 8 = collStatus k := by
  have hb : collLeft k g id b = putScratch (collOver k g id b) (k.goff + 48) (leBytes 8 (collStatus k)) false := by
    unfold collLeft
    rw [hbar]
  rw [hb, putScratch_bytes (b := collOver k g id b) hobjs]
  exact numAt_setBytes (collStatus_lt k) _ _

theorem collRows_single {k : CollOpS} {c : Nat} {els : List Nat} (h : k.final = [(c, some els)]) (g : GDesc) (m : SMap W32) (hj : j < els.length) :
    smGet 0 (collRows k g m) (tileKey k.tile (g.rowsOf c).1 0 + j) = w32 (els.getD j 0) := by
  unfold collRows
  rw [h, List.foldl_cons, List.foldl_nil]
  dsimp only
  rw [smGet_smSetList, if_pos ⟨Nat.le_add_right .., by rw [List.length_map]; omega⟩, Nat.add_sub_cancel_left,
    List.getD_eq_getElem _ _ (by rw [List.length_map]; exact hj), List.getElem_map, List.getD_eq_getElem _ _ hj]

theorem collComplete_run {k : CollOpS} {team op : Nat} (hb : s.block? bid = some b) (hk : b.colls.find? (fun x => x.id == id) = some k)
    (hgo : collGoes b k (gdescOf k.desc 0) = true ∨ k.mismatch = true)
    (hall : ∀ c, c < (gdescOf k.desc 0).chunks → ∃ x ∈ k.final, x.1 = c) (hiss : k.issues = [(team, op)]) :
    collComplete s bid id = wakeLimits (finishOp (s.modBlock bid (collLeft k (gdescOf k.desc 0) id)) bid team op 2
      (if k.failed = [] ∧ k.mismatch = false then none else some 0x23)) bid := by
  have hgoes : ¬ (!collGoes b k (gdescOf k.desc 0) && !k.mismatch) = true := by
    rcases hgo with h | h <;> rw [h] <;> simp
  have hfinal : ¬ (!((List.range (gdescOf k.desc 0).chunks).all fun c => k.final.any fun f => f.1 == c)) = true := by
    simpa using hall
  have herr : (if k.failed.isEmpty && !k.mismatch then none else some 0x23) =
      (if k.failed = [] ∧ k.mismatch = false then none else some 0x23) := if_congr (by simp) rfl rfl
  unfold collComplete
  simp only [anyBlock?_resident hb, hk]
  rw [if_neg hgoes, if_neg hfinal, atBlock_resident hb, hiss, herr]
  rfl

/-! Tags (R391, R417). -/

theorem wakeRec_not (p : Wait → Bool) (now : Nat) (r : Record) {w : Wait} (hw : p w = true) (hr : w ≠ .ready) : (wakeRec p now r).wait ≠ w := by
  unfold wakeRec
  split
  · exact Ne.symm hr
  · next h =>
    intro e
    rw [e] at h
    exact h hw

/-- The waits that the end of a tag's quarantine ends. -/
def endsQuarantine (id : Nat) (w : Wait) : Bool :=
  match w with
  | .quarantine i => i == id
  | _ => false

/-- A quarantine that is over. -/
def Quar.over (now ctx id : Nat) (k : Quar) : Bool := k.ctx == ctx && k.id == id && decide (k.until_ ≤ now)

theorem quar_over_iff {now ctx : Nat} {k : Quar} : k.over now ctx id = true ↔ k.ctx = ctx ∧ k.id = id ∧ k.until_ ≤ now := by
  simp [Quar.over, and_assoc]

theorem tagQuarantineEnd_due {ctx : Nat} (h : ∃ x ∈ s.quars, x.ctx = ctx ∧ x.id = id ∧ x.until_ ≤ s.time) :
    tagQuarantineEnd s ctx id = ({ s with quars := s.quars.filter fun k => !k.over s.time ctx id, blocks := s.blocks.map Block.retest } : State).wakeAll
      (endsQuarantine id) := by
  obtain ⟨x, hx, hover⟩ := h
  exact if_pos (List.any_eq_true.mpr ⟨x, hx, quar_over_iff.mpr hover⟩)

/-! Fetches (R434). -/

/-- A record of a fetch's output, written. -/
def putRecord (out : Nat) (b : Block) (r : (W64 × Option (LineData × Bool)) × Nat) : Block :=
  let at_ := out + 32 + 144 * r.2
  let bytes := fetchRecord r.1.1 r.1.2
  putScratch (putScratch b at_ (bytes.take 16) false) (at_ + 16) (bytes.drop 16) ((r.1.2.map Prod.snd).getD false)

/-- The block that a fetch has left. -/
def fetchedBlock (o : FetchOp) (head : List Byte) (recs : List (W64 × Option (LineData × Bool))) (b : Block) : Block :=
  recs.zipIdx.foldl (putRecord o.out) (putScratch { b with fetches := b.fetches.filter fun k => k.id != o.id } o.out head false)

theorem fetchEnd_run (s : State) (bid : Nat) (o : FetchOp) (head : List Byte) (recs : List (W64 × Option (LineData × Bool))) :
    fetchEnd s bid o head recs = wakeLimits (finishOp (s.modBlock bid (fetchedBlock o head recs)) bid o.team o.id 5
      (if recs.any fun r => (r.2.map Prod.snd).getD false then some 0x41 else none)) bid := rfl

theorem putRecord_onlyScr (out : Nat) (b : Block) (r : (W64 × Option (LineData × Bool)) × Nat) : OnlyScr b (putRecord out b r) :=
  (putScratch_onlyScr ..).trans (putScratch_onlyScr ..)

theorem putRecords_onlyScr (out : Nat) (l : List ((W64 × Option (LineData × Bool)) × Nat)) : ∀ b : Block, OnlyScr b (l.foldl (putRecord out) b) := by
  induction l with
  | nil => exact .refl
  | cons r l ih => exact fun b => (putRecord_onlyScr out b r).trans (ih _)

theorem fetchedBlock_onlyScr (o : FetchOp) (head : List Byte) (recs : List (W64 × Option (LineData × Bool))) (b : Block) :
    OnlyScr { b with fetches := b.fetches.filter fun k => k.id != o.id } (fetchedBlock o head recs b) :=
  (putScratch_onlyScr ..).trans (putRecords_onlyScr ..)

theorem fetchedBlock_keeps (o : FetchOp) (head : List Byte) (recs : List (W64 × Option (LineData × Bool))) (b : Block) :
    (fetchedBlock o head recs b).bid = b.bid ∧ (fetchedBlock o head recs b).teams = b.teams :=
  ⟨(fetchedBlock_onlyScr o head recs b).bid, (fetchedBlock_onlyScr o head recs b).teams⟩

theorem fetchedBlock_fetches (o : FetchOp) (head : List Byte) (recs : List (W64 × Option (LineData × Bool))) (b : Block) :
    (fetchedBlock o head recs b).fetches = b.fetches.filter fun k => k.id != o.id := by
  rw [fetchedBlock_onlyScr o head recs b]

/-- A record touches no byte of the header. -/
theorem putRecord_low (h : b.objs = []) {out : Nat} (ha : a < out + 32) (r : (W64 × Option (LineData × Bool)) × Nat) :
    byteAt (putRecord out b r).scratch a = byteAt b.scratch a := by
  unfold putRecord
  extract_lets at_ bytes
  have hat : a < at_ := by
    unfold at_
    omega
  clear_value at_ bytes
  have h1 : (putScratch b at_ (bytes.take 16) false).objs = [] := (putScratch_onlyScr ..).objs.trans h
  rw [putScratch_bytes h1, byteAt_setBytes_out (.inl (by omega)), putScratch_bytes h, byteAt_setBytes_out (.inl hat)]

theorem putRecords_low {out : Nat} (ha : a < out + 32) (l : List ((W64 × Option (LineData × Bool)) × Nat)) : ∀ b : Block, b.objs = [] →
    byteAt (l.foldl (putRecord out) b).scratch a = byteAt b.scratch a := by
  induction l with
  | nil => exact fun _ _ => rfl
  | cons r l ih => exact fun b h => (ih _ ((putRecord_onlyScr out b r).objs.trans h)).trans (putRecord_low h ha r)

theorem fetchHead_length (tag count missing tc : Nat) : (fetchHead tag count missing tc).length = 32 := by
  unfold fetchHead
  simp only [List.length_append, leBytes_length]

theorem fetchedBlock_head {o : FetchOp} {head : List Byte} (hobjs : b.objs = []) (hlen : head.length = 32)
    (recs : List (W64 × Option (LineData × Bool))) {k : Nat} (hk : k < 32) :
    byteAt (fetchedBlock o head recs b).scratch (o.out + k) = head.getD k 0 := by
  have hput : (putScratch { b with fetches := b.fetches.filter fun k => k.id != o.id } o.out head false).objs = [] :=
    (putScratch_onlyScr ..).objs.trans hobjs
  unfold fetchedBlock
  rw [putRecords_low (by omega) _ _ hput, putScratch_bytes (b := { b with fetches := b.fetches.filter fun k => k.id != o.id }) hobjs,
    byteAt_setBytes, if_pos (by omega), Nat.add_sub_cancel_left]

/-- A field of a header. -/
theorem numAt_field {m : Memory} {l x y z : List Byte} (hm : ∀ k, k < l.length → byteAt m (a + k) = l.getD k 0) (hl : l = x ++ (y ++ z)) :
    numAt m (a + x.length) y.length = leNat y := by
  have hb : bytesAt m (a + x.length) y.length = y := by
    refine (bytesAt_ext _ _ 0 fun j hj => ?_).trans (bytesAt_setBytes_same y [] 0)
    have hget : (x ++ (y ++ z)).getD (x.length + j) 0 = y.getD j 0 := by
      rw [List.getD_append_right _ _ _ _ (Nat.le_add_right ..), Nat.add_sub_cancel_left, List.getD_append _ _ _ _ hj]
    rw [Nat.add_assoc, hm _ (by rw [hl, List.length_append, List.length_append]; omega), hl, hget, byteAt_setBytes, if_pos (by omega)]
    congr 1
    omega
  rw [numAt, hb]

end

end Sys2Proof.Machine
end

section
/-! The events of collectives (R391, R397, R403, R405 to R412, R417, R434). -/

namespace Sys2Proof.Machine

section
variable {s t : State} {bid i id ctx gid gen dst rk : Nat} {b : Block} {n : NetIn} {g : GroupReg} {vals : List Nat} {k : CollOpS} {o : FetchOp}

/-! Start messages (R391, R408). -/

theorem startMessage_own (hi : s.inNet[i]? = some n) (hmsg : n.msg = .start ctx gid gen dst rk vals) :
    startMessage s i = match recvAt s ctx gid none dst with
      | .drop => barCount { s with inNet := s.inNet.eraseIdx i } 0x190000
      | .hold => land s i n
      | .rank g => startMsg s i n g rk vals := by
  unfold startMessage
  simp only [hi, hmsg] <;> rfl

theorem startMsg_late (hat : s.blockAt? g.q g.lseq g.idx = some b) (hb : s.block? bid = some b) (h : (g.ctx, g.id, rk) ∈ b.startsLate) :
    startMsg s i n g rk vals = ({ s with inNet := s.inNet.eraseIdx i } : State).modBlock bid fun b =>
      { b with startsLate := b.startsLate.erase (g.ctx, g.id, rk) } := by
  have hb' : ({ s with inNet := s.inNet.eraseIdx i } : State).block? bid = some b := hb
  unfold startMsg
  simp only [hat, block?_bid hb]
  rw [if_pos (List.contains_iff_mem.mpr h), atBlock_resident hb']

theorem startMsg_taken (hat : s.blockAt? g.q g.lseq g.idx = some b) (hb : s.block? bid = some b) (h : (g.ctx, g.id, rk) ∉ b.startsLate)
    (hk : b.colls.find? (fun k => k.started && k.group == (g.ctx, g.id) && !(k.starts.any fun p => p.1 == rk)) = some k) :
    startMsg s i n g rk vals = ({ s with inNet := s.inNet.eraseIdx i } : State).modColl bid k.id fun k =>
      { k with starts := k.starts ++ [(rk, vals)] } := by
  have hb' : ({ s with inNet := s.inNet.eraseIdx i } : State).block? bid = some b := hb
  unfold startMsg
  simp only [hat, block?_bid hb, hk]
  rw [if_neg (fun hc => h (List.contains_iff_mem.mp hc)), atBlock_resident hb']

/-- What a fetch without a version to read, or of a manifest, leaves in its block. -/
theorem fetchedBlock_fields (hobjs : b.objs = []) (o : FetchOp) (tag count missing tc : Nat) (recs : List (W64 × Option (LineData × Bool))) :
    let m := (fetchedBlock o (fetchHead tag count missing tc) recs b).scratch
    numAt m o.out 4 = tag % 2 ^ 32 ∧ numAt m (o.out + 4) 2 = count % 2 ^ 16 ∧ numAt m (o.out + 8) 8 = tc % 2 ^ 48 % 2 ^ 64 ∧
      numAt m (o.out + 16) 16 = 0 := by
  intro m
  have hm : ∀ k, k < (fetchHead tag count missing tc).length → byteAt m (o.out + k) = (fetchHead tag count missing tc).getD k 0 := fun k hk =>
    fetchedBlock_head hobjs (fetchHead_length ..) recs (by rwa [fetchHead_length] at hk)
  clear_value m
  have h0 := numAt_field (x := []) (y := leBytes 4 tag) (z := leBytes 2 count ++ leBytes 2 missing ++ leBytes 8 (tc % 2 ^ 48) ++ leBytes 16 0) hm
    (by simp [fetchHead])
  have h4 := numAt_field (x := leBytes 4 tag) (y := leBytes 2 count) (z := leBytes 2 missing ++ leBytes 8 (tc % 2 ^ 48) ++ leBytes 16 0) hm
    (by simp [fetchHead])
  have h8 := numAt_field (x := leBytes 4 tag ++ leBytes 2 count ++ leBytes 2 missing) (y := leBytes 8 (tc % 2 ^ 48)) (z := leBytes 16 0) hm
    (by simp [fetchHead])
  have h16 := numAt_field (x := leBytes 4 tag ++ leBytes 2 count ++ leBytes 2 missing ++ leBytes 8 (tc % 2 ^ 48)) (y := leBytes 16 0) (z := [])
    hm (by simp [fetchHead])
  simp only [List.length_append, leBytes_length, leNat_leBytes, List.length_nil, Nat.add_zero] at h0 h4 h8 h16
  exact ⟨h0, h4, h8, h16⟩

/-- A fetch's end. -/
theorem fetchEnd_effect {v : Team} (hb : s.block? bid = some b) (hobjs : b.objs = []) (hv : s.team? bid o.team = some v) (hl : v.live ≠ 0)
    (tag count missing tc : Nat) (recs : List (W64 × Option (LineData × Bool))) :
    let t := fetchEnd s bid o (fetchHead tag count missing tc) recs
    ((∀ r ∈ recs, ∀ d, r.2 = some d → d.2 = false) → Retired s t bid o.team o.id 5 none) ∧
      ∃ B, t.block? bid = some B ∧ (∀ x ∈ B.fetches, x.id ≠ o.id) ∧ numAt B.scratch o.out 4 = tag % 2 ^ 32 ∧
        numAt B.scratch (o.out + 4) 2 = count % 2 ^ 16 ∧ numAt B.scratch (o.out + 8) 8 = tc % 2 ^ 48 % 2 ^ 64 ∧
        numAt B.scratch (o.out + 16) 16 = 0 := by
  intro t
  have ht : t = _ := fetchEnd_run s bid o (fetchHead tag count missing tc) recs
  rw [ht]
  constructor
  · intro hclean
    have herr : (recs.any fun r => (r.2.map Prod.snd).getD false) = false := by
      rw [List.any_eq_false]
      intro r hr
      cases h : r.2 with
      | none => exact Bool.false_ne_true
      | some d =>
        rw [Option.map_some, Option.getD_some, hclean r hr d h]
        exact Bool.false_ne_true
    rw [herr]
    exact retired_modBlock (fetchedBlock_keeps o _ recs)
  · obtain ⟨ts, hB⟩ := retired_modBlock_block (id := o.id) (cls := 5)
      (err := if recs.any fun r => (r.2.map Prod.snd).getD false then some 0x41 else none)
      (fetchedBlock_keeps o (fetchHead tag count missing tc) recs) hb hv hl
    refine ⟨_, hB, fun x hx => ?_, fetchedBlock_fields hobjs o tag count missing tc recs⟩
    change x ∈ (fetchedBlock o (fetchHead tag count missing tc) recs b).fetches at hx
    rw [fetchedBlock_fetches] at hx
    simpa using (List.mem_filter.mp hx).2

end

end Sys2Proof.Machine

open Sys2Proof Sys2Proof.Machine

/-- Settles O49: each message is followed to the block of its rank, and each operation to its block and, at its end, its team. -/
theorem collectiveEvents : Obligations.CollectiveEvents := by
  unfold Obligations.CollectiveEvents
  intro s bid id ctx i b n ck g o ok k f la m holds blockIs rest counted h rank chunk used
  have hcounted : ∀ off, counted (barCount { s with inNet := rest } off) off := fun off hlt =>
    bar_barCount (s := { s with inNet := rest }) hlt
  refine ⟨?_, ?_, ?_, ?_, ?_, ?_, ?_, ?_, ?_⟩
  · rintro ⟨hi, hmsg, hmem, hdev, hsrc⟩ hrecv
    have hdev' : ck.dev = devId (barCount { s with inNet := rest } 0x190000) := hdev.trans
      (devId_barCount (s := { s with inNet := rest }) (off := 0x190000) (by decide)).symm
    have hrun : chunkReceive s i = barCount { s with inNet := rest } 0x190000 := by
      rw [chunkReceive_own hi hmsg hmem, hrecv, hsrc]
      exact ackSend_own hdev' _ _
    exact ⟨_, congrArg Host.Outcome.next hrun, barCount_inNet .., hcounted _, barCount_blocks ..⟩
  · rintro ⟨hi, hmsg, hmem, -, -⟩ hrecv hroom
    have hsize : landSize n = 32 + ck.data.length := by
      unfold landSize
      rw [hmsg]
    refine congrArg Host.Outcome.next ?_
    rw [chunkReceive_own hi hmsg hmem, hrecv]
    exact land_room (by rw [hsize]; exact (Nat.add_assoc ..).symm.trans_le hroom) i
  · rintro ⟨hi, hmsg, hmem, hdev, hsrc⟩ hrecv hcoll hred hbar ⟨hat, hb⟩ hobjs hport hfit
    have hrun : chunkReceive s i = peerState { s with inNet := rest } ck bid := by
      rw [chunkReceive_own hi hmsg hmem, hrecv]
      dsimp only
      rw [hcoll]
      exact peerChunk_writes (s := { s with inNet := rest }) hat hb hred hdev hsrc hport hfit
    obtain ⟨hbytes, hbit⟩ := peerState_effect (s := { s with inNet := rest }) hb hobjs hbar
    exact ⟨_, congrArg Host.Outcome.next hrun, rfl, rfl, hbytes, hbit⟩
  · rintro ⟨hi, hmsg, hmem, hdev, hsrc⟩ hrecv hcoll ⟨hat, hb⟩ hport hbit hbar hlog
    have hrun : chunkReceive s i = (barCount { s with inNet := rest } 0x190004).modBlock bid (peerAfter ck) := by
      rw [chunkReceive_own hi hmsg hmem, hrecv]
      dsimp only
      rw [hcoll]
      exact peerChunk_rejects (s := { s with inNet := rest }) hat hb hdev hsrc hport hlog
    refine ⟨_, congrArg Host.Outcome.next hrun, barCount_inNet .., ?_, hcounted _⟩
    exact (sameScratch_of_blocks (s := s) (t := barCount { s with inNet := rest } 0x190004) (barCount_blocks ..)).trans
      (sameScratch_modBlock _ bid (peerAfter ck) (peerAfter_bid hbar) (peerAfter_scratch hbar))
  · intro gid gen dst rk vals hi hmsg
    refine ⟨fun hrecv => ?_, fun hrecv hroom => ?_, fun hrecv ⟨hat, hb⟩ hlate => ?_, fun hrecv ⟨hat, hb⟩ hlate hk => ?_⟩
    · have hrun : startMessage s i = barCount { s with inNet := rest } 0x190000 := by
        rw [startMessage_own hi hmsg, hrecv]
      exact ⟨_, congrArg Host.Outcome.next hrun, barCount_inNet .., hcounted _⟩
    · have hsize : landSize n = 32 := by
        unfold landSize
        rw [hmsg]
      refine congrArg Host.Outcome.next ?_
      rw [startMessage_own hi hmsg, hrecv]
      exact land_room (by rw [hsize]; exact hroom) i
    · have hrun : startMessage s i = ({ s with inNet := rest } : State).modBlock bid fun b =>
          { b with startsLate := b.startsLate.erase (g.ctx, g.id, rk) } := by
        rw [startMessage_own hi hmsg, hrecv]
        exact startMsg_late hat hb hlate
      exact ⟨_, congrArg Host.Outcome.next hrun, rfl, _, modBlock_block (s := { s with inNet := rest }) hb fun _ => rfl, rfl, rfl⟩
    · have hrun : startMessage s i = ({ s with inNet := rest } : State).modColl bid k.id fun k =>
          { k with starts := k.starts ++ [(rk, vals)] } := by
        rw [startMessage_own hi hmsg, hrecv]
        exact startMsg_taken hat hb hlate hk
      refine ⟨_, congrArg Host.Outcome.next hrun, rfl, _, modBlock_block (s := { s with inNet := rest }) hb
        (F := fun b => { b with colls := b.colls.map fun j => if j.id = k.id then { j with starts := j.starts ++ [(rk, vals)] } else j })
        fun _ => rfl, _, List.mem_map.mpr ⟨k, List.mem_of_find?_eq_some hk, if_pos rfl⟩, rfl, rfl⟩
  · intro hb ho hdone d
    refine ⟨fun hfired hold => congrArg Host.Outcome.next (collectiveRetire_early hb ho hdone hfired hold), fun hfired hold => ?_⟩
    refine ⟨_, congrArg Host.Outcome.next (collectiveRetire_run hb ho hdone hfired hold), retired_after fun v hv => sentState_team hv, ?_⟩
    rintro ⟨v, hv, hl⟩
    obtain ⟨g, hg⟩ := sentState_team (id := id) hv
    obtain ⟨b', hsends, hb'⟩ := sentState_block (o := o) (id := id) hb
    obtain ⟨ts, hB⟩ := retired_block (id := id) (cls := 2) (err := if !ok then some 0x23 else if o.poisoned then some 0x21 else none) hb' hg hl
    refine ⟨_, hB, fun x hx => ?_, fun hbit => sentBlock_bit hbit id b'⟩
    change x ∈ (sentBlock o id b').sends at hx
    rw [sentBlock_sends] at hx
    simpa using (List.mem_filter.mp hx).2
  · intro hb hk d hgo hall team op hiss
    refine ⟨_, congrArg Host.Outcome.next (collComplete_run hb hk hgo hall hiss), retired_modBlock (collLeft_keeps k d id), ?_⟩
    rintro ⟨v, hv, hl⟩ hbar hobjs
    obtain ⟨ts, hB⟩ := retired_modBlock_block (id := op) (cls := 2) (err := if k.failed = [] ∧ k.mismatch = false then none else some 0x23)
      (collLeft_keeps k d id) hb hv hl
    obtain ⟨hcolls, htiles⟩ := collLeft_colls k d id b
    refine ⟨_, hB, fun x hx => ?_, collLeft_status hbar hobjs d id, fun c els hfinal j hj => ?_⟩
    · change x ∈ (collLeft k d id b).colls at hx
      rw [hcolls] at hx
      simpa using (List.mem_filter.mp hx).2
    · change smGet 0 (collLeft k d id b).mat.tiles _ = _
      rw [htiles]
      exact collRows_single hfinal d _ hj
  · intro hdue
    refine ⟨_, congrArg Host.Outcome.next (tagQuarantineEnd_due hdue), fun x => ?_, fun k hk u hu r hr => ?_⟩
    · change x ∈ s.quars.filter (fun k => !k.over s.time ctx id) ↔ _
      rw [List.mem_filter, Bool.not_eq_true', ← Bool.not_eq_true, quar_over_iff]
    · obtain ⟨k0, -, rfl⟩ := List.mem_map.mp hk
      obtain ⟨u0, -, rfl⟩ := List.mem_map.mp hu
      obtain ⟨r0, -, rfl⟩ := List.mem_map.mp hr
      exact wakeRec_not _ _ r0 (w := .quarantine id) (beq_self_eq_true id) (fun h => nomatch h)
  · intro hb hf hla hruns hobjs ⟨v, hv, hl⟩ ea wrote
    have hid : f.id = id := by simpa using List.find?_some hf
    have hgo : ¬ (!engineRuns la b) = true := by rw [hruns]; exact Bool.false_ne_true
    refine ⟨fun hwin => ?_, fun tr p data po tc man ps hwin hres hkind hsnap htc hman hps => ?_⟩
    · have hrun : bfetchComplete s bid id = fetchEnd s bid f (fetchHead 0 0 0 0) [] := by
        unfold bfetchComplete
        simp only [hb, hf, hla]
        rw [if_neg hgo, if_pos hwin]
      obtain ⟨hret, hB⟩ := fetchEnd_effect (o := f) hb hobjs hv hl 0 0 0 0 []
      rw [hid] at hret hB
      exact ⟨_, congrArg Host.Outcome.next hrun, hret (fun _ hr => nomatch hr), hB⟩
    · let recs := (ps.take f.limit).map fun l => (l.1, versionAt s l.2 m.tc)
      have hrun : bfetchComplete s bid id = fetchEnd s bid f
          (fetchHead (m.id + 2 ^ 16 * m.gen) m.lines.length (recs.filter fun r => r.2.isNone).length m.tc) recs := by
        unfold bfetchComplete
        simp only [hb, hf, hla]
        rw [if_neg hgo, if_neg (by rw [hwin]; exact Bool.false_ne_true), hres]
        dsimp only
        rw [if_neg hkind, hsnap]
        dsimp only
        rw [if_neg htc, hman]
        dsimp only
        rw [hps]
      obtain ⟨hret, hB⟩ := fetchEnd_effect (o := f) hb hobjs hv hl (m.id + 2 ^ 16 * m.gen) m.lines.length
        (recs.filter fun r => r.2.isNone).length m.tc recs
      rw [hid] at hret hB
      refine ⟨_, congrArg Host.Outcome.next hrun, fun hclean => hret fun r hr d hd => ?_, hB⟩
      obtain ⟨l, hmem, rfl⟩ := List.mem_map.mp hr
      exact hclean l (List.mem_of_mem_take hmem) d hd

end

section
/-! Tiles and products as the matrix engine computes them (R308, R320, R321, R325, R330): tiles replaced row by row, rows and columns read
as elements, and the sums over them. -/

namespace Sys2Proof.Machine

/-! Maps. -/

section
variable {α : Type} {d : α} {m m' : SMap α} {n : Nat}

theorem smGet_append_of_absent (h : ∀ p ∈ m, p.1 ≠ n) : smGet d (m ++ m') n = smGet d m' n := by
  induction m with
  | nil => rfl
  | cons p m ih =>
    rw [List.cons_append, smGet, if_neg (Ne.symm (h p (List.mem_cons_self ..))), ih fun q hq => h q (List.mem_cons_of_mem _ hq)]

theorem smGet_of_absent (h : ∀ p ∈ m, p.1 ≠ n) : smGet d m n = d := by
  have happ := smGet_append_of_absent (d := d) (m' := []) h
  rwa [List.append_nil] at happ

theorem smGet_append_left (h : ∀ p ∈ m', p.1 ≠ n) : smGet d (m ++ m') n = smGet d m n := by
  induction m with
  | nil => exact smGet_of_absent h
  | cons p m ih =>
    rw [List.cons_append, smGet, smGet, ih]

end

/-- Entries of successive keys, those of value 0 left out. -/
theorem smGet_entries (lo : Nat) (g : Nat → W32) (i : Nat) (l : List Nat) :
    smGet 0 ((l.map fun i => (lo + i, g i)).filter fun p => p.2 != 0) (lo + i) = if i ∈ l then g i else 0 := by
  induction l with
  | nil => rfl
  | cons j l ih =>
    rw [List.map_cons, List.filter_cons]
    by_cases hz : g j = 0
    · rw [if_neg (by simpa using hz), ih]
      by_cases hij : i = j
      · subst hij
        rw [hz, if_pos (List.mem_cons_self ..), ite_self]
      · exact if_congr (by simp [hij]) rfl rfl
    · rw [if_pos (by simpa using hz), smGet]
      by_cases hij : i = j
      · subst hij
        rw [if_pos rfl, if_pos (List.mem_cons_self ..)]
      · rw [if_neg (by omega), ih]
        exact if_congr (by simp [hij]) rfl rfl

/-! Tiles (R309). -/

theorem putRows_get (m : SMap W32) (t r0 rows : Nat) (f : Nat → Nat → W32) (n : Nat) :
    smGet 0 (putRows m t r0 rows f) n = if tileKey t r0 0 ≤ n ∧ n < tileKey t (r0 + rows) 0 then
      f (r0 + (n - tileKey t r0 0) / 32) ((n - tileKey t r0 0) % 32) else smGet 0 m n := by
  have hhi : tileKey t (r0 + rows) 0 = tileKey t r0 0 + 32 * rows := by
    unfold tileKey
    omega
  unfold putRows
  rw [hhi]
  generalize tileKey t r0 0 = lo
  extract_lets lo' hi new
  have hnew : ∀ p ∈ new, lo ≤ p.1 ∧ p.1 < lo + 32 * rows := by
    intro p hp
    obtain ⟨i, hi, rfl⟩ := List.mem_map.mp (List.mem_filter.mp hp).1
    have := List.mem_range.mp hi
    exact ⟨Nat.le_add_right .., Nat.add_lt_add_left this lo⟩
  have hlow : ∀ p ∈ m.filter (fun p => decide (p.1 < lo)), p.1 < lo := fun p hp => by simpa using (List.mem_filter.mp hp).2
  have hhigh : ∀ p ∈ m.filter (fun p => decide (lo + 32 * rows ≤ p.1)), lo + 32 * rows ≤ p.1 := fun p hp => by
    simpa using (List.mem_filter.mp hp).2
  by_cases h1 : n < lo
  · rw [if_neg (by omega), smGet_append_left fun p hp => by have := hhigh p hp; omega,
      smGet_append_left fun p hp => by have := hnew p hp; omega, smGet_filter 0 (fun k => decide (k < lo)), if_pos (by simpa using h1)]
  · by_cases h2 : n < lo + 32 * rows
    · have hget := smGet_entries lo (fun i => f (r0 + i / 32) (i % 32)) (n - lo) (List.range (32 * rows))
      rw [Nat.add_sub_cancel' (Nat.le_of_not_lt h1), if_pos (List.mem_range.mpr (by omega))] at hget
      rw [if_pos (by omega), smGet_append_left fun p hp => by have := hhigh p hp; omega,
        smGet_append_of_absent fun p hp => by have := hlow p hp; omega]
      exact hget
    · rw [if_neg (by omega), smGet_append_of_absent, smGet_filter 0 (fun k => decide (lo + 32 * rows ≤ k)), if_pos (by simpa using h2)]
      intro p hp
      rcases List.mem_append.mp hp with hp | hp
      · have := hlow p hp
        omega
      · have := hnew p hp
        omega

theorem putTile_get (m : SMap W32) (t : Nat) (f : Nat → Nat → W32) {k i n : Nat} (hi : i < 256) (hn : n < 32) :
    smGet 0 (putTile m t f) (tileKey k i n) = if k = t then f i n else smGet 0 m (tileKey k i n) := by
  unfold putTile
  rw [putRows_get]
  unfold tileKey
  by_cases h : k = t
  · subst h
    rw [if_pos rfl, if_pos (by omega)]
    congr 1 <;> omega
  · rw [if_neg h, if_neg (by omega)]

/-! Sums (R320). -/

theorem dotInt_range (f g : Nat → Int) (n : Nat) :
    dotInt ((List.range n).map f) ((List.range n).map g) = ((List.range n).map fun k => f k * g k).sum := by
  unfold dotInt
  rw [List.zip_map', List.foldl_map]
  induction n with
  | zero => rfl
  | succ n ih => rw [List.range_succ, List.foldl_append, List.map_append, List.sum_append, ih]; simp

theorem matVal_map {α : Type} (d : α) (F : Nat → Nat → α) {a c m n : Nat} (hm : m < a) (hn : n < c) :
    matVal d ((List.range a).map fun i => (List.range c).map (F i)) m n = F m n := by
  have hrow : ((List.range a).map fun i => (List.range c).map (F i)).getD m [] = (List.range c).map (F m) := by
    rw [List.getD_eq_getElem _ _ (by simpa using hm), List.getElem_map, List.getElem_range]
  rw [matVal, hrow, List.getD_eq_getElem _ _ (by simpa using hn), List.getElem_map, List.getElem_range]

/-! Bytes as numbers. -/

theorem leNat_append (l l' : List Byte) : leNat (l ++ l') = leNat l + 256 ^ l.length * leNat l' := by
  induction l with
  | nil => simp [leNat]
  | cons x l ih =>
    rw [List.cons_append, leNat, leNat, ih, List.length_cons, Nat.pow_succ]
    ring

theorem leNat_drop (l : List Byte) : ∀ k, leNat (l.drop k) = leNat l / 256 ^ k := by
  induction l with
  | nil => intro k; simp [leNat]
  | cons x l ih =>
    intro k
    cases k with
    | zero => simp
    | succ k =>
      have hx : x.toNat < 256 := x.isLt
      rw [List.drop_succ_cons, ih, leNat, Nat.pow_succ, Nat.mul_comm (256 ^ k), ← Nat.div_div_eq_div_mul]
      congr 1
      omega

theorem leNat_take (l : List Byte) : ∀ k, leNat (l.take k) = leNat l % 256 ^ k := by
  induction l with
  | nil => intro k; simp [leNat]
  | cons x l ih =>
    intro k
    cases k with
    | zero => simp [leNat, Nat.mod_one]
    | succ k =>
      have hx : x.toNat < 256 := x.isLt
      rw [List.take_succ_cons, leNat, ih, leNat, Nat.pow_succ, Nat.mul_comm (256 ^ k), Nat.mod_mul]
      have h1 : (x.toNat + 256 * leNat l) % 256 = x.toNat := by omega
      have h2 : (x.toNat + 256 * leNat l) / 256 = leNat l := by omega
      rw [h1, h2]

/-- Elements of s bytes in a run of bytes. -/
theorem leNat_element (l : List Byte) (k s : Nat) : leNat ((l.drop (k * s)).take s) = leNat l / 2 ^ (8 * s * k) % 2 ^ (8 * s) := by
  rw [leNat_take, leNat_drop, show (256 : Nat) = 2 ^ 8 from rfl, ← Nat.pow_mul, ← Nat.pow_mul]
  congr 3
  ring

theorem bytesAt_drop (m : Memory) (n : Nat) : ∀ a k, (bytesAt m a n).drop k = bytesAt m (a + k) (n - k) := by
  induction n with
  | zero => intro a k; simp [bytesAt]
  | succ n ih =>
    intro a k
    cases k with
    | zero => rfl
    | succ k => rw [bytesAt, List.drop_succ_cons, ih, Nat.succ_sub_succ, Nat.add_assoc, Nat.add_comm 1]

theorem bytesAt_take (m : Memory) (n : Nat) : ∀ a k, k ≤ n → (bytesAt m a n).take k = bytesAt m a k := by
  induction n with
  | zero =>
    intro a k h
    rw [Nat.le_zero.mp h]
    rfl
  | succ n ih =>
    intro a k h
    cases k with
    | zero => rfl
    | succ k => rw [bytesAt, List.take_succ_cons, ih _ _ (Nat.le_of_succ_le_succ h), bytesAt]

theorem numAt_element (m : Memory) (a : Nat) {k s n : Nat} (h : k * s + s ≤ n) :
    leNat (((bytesAt m a n).drop (k * s)).take s) = numAt m (a + k * s) s := by
  rw [bytesAt_drop, bytesAt_take _ _ _ _ (by omega), numAt]

theorem bytesAt_getD (m : Memory) (n : Nat) : ∀ a k, k < n → (bytesAt m a n).getD k 0 = byteAt m (a + k) := by
  induction n with
  | zero => exact fun _ _ h => absurd h (Nat.not_lt_zero _)
  | succ n ih =>
    intro a k h
    cases k with
    | zero => rfl
    | succ k =>
      rw [bytesAt, List.getD_cons_succ, ih _ _ (Nat.lt_of_succ_lt_succ h), Nat.add_assoc, Nat.add_comm 1]

/-- The number that successive words make. -/
theorem leNat_words (w : Nat → W32) (n : Nat) : leNat ((List.range n).flatMap fun j => leBytes 4 (w j).toNat) =
    ((List.range n).map fun k => (w k).toNat * 2 ^ (32 * k)).sum := by
  have hlen : ∀ n, ((List.range n).flatMap fun j => leBytes 4 (w j).toNat).length = 4 * n := by
    intro n
    rw [List.length_flatMap]
    simp [leBytes_length, Nat.mul_comm]
  induction n with
  | zero => rfl
  | succ n ih =>
    have hw : (w n).toNat % 256 ^ 4 = (w n).toNat := Nat.mod_eq_of_lt (w n).isLt
    have hpow : (256 : Nat) ^ (4 * n) = 2 ^ (32 * n) := by
      rw [show (256 : Nat) = 2 ^ 8 from rfl, ← Nat.pow_mul]
      congr 1
      omega
    rw [List.range_succ, List.flatMap_append, leNat_append, ih, hlen, List.map_append, List.sum_append, List.flatMap_singleton, leNat_leBytes,
      hw, hpow, List.map_singleton, List.sum_singleton, Nat.mul_comm]

end Sys2Proof.Machine
end

section
/-! The matrix engine's head executed (R312, R317 to R322, R325 to R330). -/

namespace Sys2Proof.Machine

section
variable {s t : State} {bid n m k : Nat} {b : Block} {o : MatOp} {la : Launch}

/-! Products (R320, R325). -/

/-- A column of a product: its bytes in the scratchpad, or the lane's words. -/
def colBytes (b : Block) (o : MatOp) (scal : Bool) (off len n : Nat) : List Byte :=
  if scal then b.bytes (off + n * len) len else vecBytes o.vec n (len / 4)

theorem colsOf_eq (b : Block) (o : MatOp) (scal : Bool) (off len : Nat) : colsOf b o scal off len len = (List.range 32).map (colBytes b o scal off len) := rfl

theorem colBytes_num (b : Block) (o : MatOp) (scal : Bool) (off len n : Nat) : leNat (colBytes b o scal off len n) =
    if scal then numAt b.scratch (off + n * len) len
    else ((List.range (len / 4)).map fun k => (smGet 0 o.vec (64 * n + k)).toNat * 2 ^ (32 * k)).sum := by
  unfold colBytes
  split
  · rfl
  · exact leNat_words (fun k => smGet 0 o.vec (64 * n + k)) (len / 4)

theorem qElem_div (b v k : Nat) : qElem b v k = readInt true b (v / 2 ^ (b * k)) := by
  rw [qElem, Nat.shiftRight_eq_div_pow]

theorem intProduct_val (pl : Plane) (A : Nat) (C : Nat → List Byte) (hm : m < 256) (hn : n < 32) :
    matVal 0 (intProduct pl A ((List.range 32).map C)) m n = ((List.range 32).map fun k =>
      readInt true pl.tag (numAt pl.img (m * (4 * pl.tag)) (4 * pl.tag) / 2 ^ (pl.tag * k)) * readInt true A (leNat (C n) / 2 ^ (A * k))).sum := by
  have hrows : intProduct pl A ((List.range 32).map C) = (List.range 256).map fun m => (List.range 32).map fun n =>
      dotInt (qElems pl.tag (bytesAt pl.img (m * (4 * pl.tag)) (4 * pl.tag))) (qElems A (C n)) := by
    unfold intProduct
    simp only [List.map_map]
    rfl
  rw [hrows, matVal_map 0 _ hm hn]
  unfold qElems
  simp only [qElem_div]
  exact dotInt_range ..

theorem msaTile_get (pol : Nat) (tiles : SMap W32) (t : Nat) (p : Nat → Nat → Int) (ew ea : List Byte) (hm : m < 256) (hn : n < 32) :
    smGet 0 (msaTile pol tiles t p ew ea) (tileKey k m n) = if k = t then
      w32 (msaElem pol (smGet 0 tiles (tileKey t m n)).toNat (p m n) (ew.getD m 0).toNat (ea.getD n 0).toNat)
      else smGet 0 tiles (tileKey k m n) := putTile_get _ _ _ hm hn

/-- A row of a float plane, and a column, as values. -/
theorem floatElems_row (tag a : Nat) (img : Memory) : floatElems tag (bytesAt img a (32 * tagBytes tag)) =
    (List.range 32).map fun k => (tagFmt tag).decode (numAt img (a + k * tagBytes tag) (tagBytes tag)) := by
  unfold floatElems
  extract_lets s
  refine List.map_congr_left fun k hk => ?_
  have hk32 : k < 32 := List.mem_range.mp hk
  rw [numAt_element img a (by nlinarith)]

theorem floatElems_col (tag : Nat) (l : List Byte) : floatElems tag l =
    (List.range 32).map fun k => (tagFmt tag).decode (leNat l / 2 ^ (8 * tagBytes tag * k) % 2 ^ (8 * tagBytes tag)) := by
  unfold floatElems
  extract_lets s
  exact List.map_congr_left fun k _ => by rw [leNat_element]

theorem rowBytes_float {tag : Nat} (h : tagFloat tag = true) : rowBytes tag = 32 * tagBytes tag := if_pos h

theorem getD_map_range {α : Type} (F : Nat → List α) {a : Nat} (h : m < a) : ((List.range a).map F).getD m [] = F m := by
  rw [List.getD_eq_getElem _ _ (by simpa using h), List.getElem_map, List.getElem_range]

theorem mmfTile_get (tiles : SMap W32) (t : Nat) (pl : Plane) (C : Nat → List Byte) (hf : tagFloat pl.tag = true) (hm : m < 256) (hn : n < 32) :
    smGet 0 (mmfTile tiles t pl ((List.range 32).map C)) (tileKey k m n) = if k = t then
      w32 (fp32.encode .rne (FVal.sum .rne (fp32.decode (smGet 0 tiles (tileKey t m n)).toNat :: (List.range 32).map fun k =>
        ((tagFmt pl.tag).decode (numAt pl.img (m * (32 * tagBytes pl.tag) + k * tagBytes pl.tag) (tagBytes pl.tag))).mul
          ((tagFmt pl.tag).decode (leNat (C n) / 2 ^ (8 * tagBytes pl.tag * k) % 2 ^ (8 * tagBytes pl.tag))))))
      else smGet 0 tiles (tileKey k m n) := by
  unfold mmfTile
  extract_lets rb ws xs
  have hrow : ws.getD m [] = _ := getD_map_range (fun m => floatElems pl.tag (bytesAt pl.img (m * rb) rb)) hm
  have hcol : xs.getD n [] = floatElems pl.tag (C n) := by
    unfold xs
    rw [List.map_map]
    exact getD_map_range (fun n => floatElems pl.tag (C n)) hn
  rw [putTile_get _ _ _ hm hn, hrow, hcol]
  unfold rb
  rw [rowBytes_float hf, floatElems_row, floatElems_col, List.zip_map', List.map_map]
  rfl

/-! The head of the engine. -/

/-- Instructions that execute wherever no poison is read. -/
def headExecutes : Instr → Prop
  | .mmqaCb _ _ _ _ _ => False
  | .tzero _ _ _ => False
  | .coll _ _ _ _ _ _ => False
  | _ => True

theorem matExecute_head (hb : s.block? bid = some b) (hh : matHead b = some o) (hl : s.launch? b.q b.lseq = some la) (hr : engineRuns la b = true)
    (hc : collHolds b o = false) (hf : engineFirst s b = none) (hp : matPoison s la b o = none) (hins : headExecutes o.ins) :
    matExecute s bid = matFinish (matEffect s la b o) bid o := by
  have hgo : ¬ (!engineRuns la b && !lockGoes s la b) = true := by rw [hr]; simp
  have hfree : ¬ collHolds b o = true := by rw [hc]; exact Bool.false_ne_true
  unfold matExecute
  simp only [hb, hl, hh, hf]
  rw [if_neg hgo, if_neg hfree]
  split
  · next e => rw [e] at hins; exact hins.elim
  · next e => rw [e] at hins; exact hins.elim
  · next e => rw [e] at hins; exact hins.elim
  · rw [hp]

theorem matExecute_tzero {h : Hdr} {i : Fin 8} {y : Opnd} (hb : s.block? bid = some b) (hh : matHead b = some o)
    (hl : s.launch? b.q b.lseq = some la) (hr : engineRuns la b = true) (hc : collHolds b o = false) (hf : engineFirst s b = none)
    (hins : o.ins = .tzero h i y) (hheld : heldFor b i.val = []) : matExecute s bid = matFinish (matEffect s la b o) bid o := by
  have hgo : ¬ (!engineRuns la b && !lockGoes s la b) = true := by rw [hr]; simp
  have hfree : ¬ collHolds b o = true := by rw [hc]; exact Bool.false_ne_true
  unfold matExecute
  simp only [hb, hl, hh, hf]
  rw [if_neg hgo, if_neg hfree, hins]
  dsimp only
  rw [hheld]
  rfl

/-! An instruction finished (R312, R316). -/

/-- The matrix state after an instruction has finished. -/
def finishedMat (o : MatOp) (m : Matrix) : Matrix :=
  { m with queue := m.queue.map fun k => if k.id = o.id then { k with started := true, fin := true } else k
           stat := statEffect false o.ins o.va o.vb m.stat }

theorem finishedMat_queue (o : MatOp) (m : Matrix) : ∀ k ∈ (finishedMat o m).queue, k.id = o.id → k.fin = true := by
  intro k hk hid
  obtain ⟨j, -, rfl⟩ := List.mem_map.mp hk
  by_cases h : j.id = o.id
  · rw [if_pos h]
  · rw [if_neg h] at hid
    exact absurd hid h

/-- An instruction's end in its block. -/
theorem matFinish_block (hb : s.block? bid = some b) :
    ∃ ts, (matFinish s bid o).block? bid = some { b with teams := ts, mat := finishedMat o b.mat } := by
  have h1 : (s.modMat bid (finishedMat o)).block? bid = some { b with mat := finishedMat o b.mat } :=
    modBlock_block (F := fun b => { b with mat := finishedMat o b.mat }) hb fun _ => rfl
  have h2 := modBlock_block (F := fun b => b.modTeam o.team fun t => if t.locks.any fun p => p.2 == o.id then
      Team.wake Wait.isRegister s.time { t with lockBits := t.lockBits.filter fun p => p.2.1 != o.id } else t) h1 fun _ => rfl
  exact ⟨_, modBlock_block (F := Block.wake Wait.isLimit s.time) h2 fun _ => rfl⟩

theorem matFinish_mem (s : State) (bid : Nat) (o : MatOp) : (matFinish s bid o).mem = s.mem := rfl

/-- What the end of an instruction leaves of every block. -/
theorem matFinish_blocks (s : State) (bid : Nat) (o : MatOp) (k : Nat) :
    ((matFinish s bid o).block? k).map Block.scratch = (s.block? k).map Block.scratch := by
  have hstep : ∀ (x : State) (F : Block → Block), (∀ b, (F b).bid = b.bid ∧ (F b).scratch = b.scratch) →
      ((x.modBlock bid F).block? k).map Block.scratch = (x.block? k).map Block.scratch := by
    intro x F hF
    rw [State.block?_modBlock x bid k F fun b => (hF b).1]
    cases x.block? k with
    | none => rfl
    | some b =>
      by_cases h : k = bid
      · rw [Option.map_some, if_pos h]
        exact congrArg some (hF b).2
      · rw [Option.map_some, if_neg h]
  have h1 := hstep s (fun b => { b with mat := finishedMat o b.mat }) fun _ => ⟨rfl, rfl⟩
  have h2 := hstep (s.modMat bid (finishedMat o)) (fun b => b.modTeam o.team fun t => if t.locks.any fun p => p.2 == o.id then
      Team.wake Wait.isRegister s.time { t with lockBits := t.lockBits.filter fun p => p.2.1 != o.id } else t) fun _ => ⟨rfl, rfl⟩
  exact (hstep _ (Block.wake Wait.isLimit s.time) fun _ => ⟨rfl, rfl⟩).trans (h2.trans h1)

theorem matFinish_scratch (s : State) (bid : Nat) (o : MatOp) : SameScratch s (matFinish s bid o) := sameScratch_of_map (matFinish_blocks s bid o)

/-- The engine's part of an instruction and the instruction's end, in its own block. -/
theorem executes {E : State} {B : Block} {post : State → Block → Prop} (hrun : matExecute s bid = matFinish E bid o) (hB : E.block? bid = some B)
    (hpost : ∀ ts, post (matFinish E bid o) { B with teams := ts, mat := finishedMat o B.mat }) :
    ∃ s' B, exec (.matrixExecute bid) s = .next s' ∧ s'.block? bid = some B ∧ (∀ k ∈ B.mat.queue, k.id = o.id → k.fin = true) ∧ post s' B := by
  obtain ⟨ts, hts⟩ := matFinish_block (o := o) hB
  exact ⟨_, _, congrArg Host.Outcome.next hrun, hts, finishedMat_queue o B.mat, hpost ts⟩

/-- Tiles set. -/
theorem executes_tiles {T : SMap W32} {i : Nat} {F : Nat → Nat → W32} (hb : s.block? bid = some b)
    (hrun : matExecute s bid = matFinish (s.modMat b.bid fun m => { m with tiles := T }) bid o)
    (hT : ∀ k m n, m < 256 → n < 32 → smGet 0 T (tileKey k m n) = if k = i then F m n else b.tile k m n) :
    ∃ s' B, exec (.matrixExecute bid) s = .next s' ∧ s'.block? bid = some B ∧ (∀ k ∈ B.mat.queue, k.id = o.id → k.fin = true) ∧
      s'.mem = s.mem ∧ ∀ k m n, m < 256 → n < 32 → B.tile k m n = if k = i then F m n else b.tile k m n := by
  rw [block?_bid hb] at hrun
  have hB : (s.modMat bid fun m => { m with tiles := T }).block? bid = some { b with mat := { b.mat with tiles := T } } :=
    modBlock_block (F := fun b => { b with mat := { b.mat with tiles := T } }) hb fun _ => rfl
  exact executes (post := fun s' B => s'.mem = s.mem ∧ ∀ k m n, m < 256 → n < 32 → B.tile k m n = if k = i then F m n else b.tile k m n) hrun hB
    fun ts => ⟨(matFinish_mem (s.modMat bid fun m => { m with tiles := T }) bid o).trans rfl, hT⟩

end

end Sys2Proof.Machine
end

section
/-! Tiles stored, planes loaded and exchanged, and what the matrix engine's head does as a whole (R308, R312, R317 to R322, R325 to R330). -/

namespace Sys2Proof.Machine

section
variable {s : State} {bid n m i off pitch e : Nat} {b c : Block} {o : MatOp} {la : Launch}

/-! Rows stored (R327). -/

/-- The first rows of an image, written one after the other. -/
def storedRows (off pitch : Nat) (row : Nat → List Byte) (n : Nat) (c : Block) : Block :=
  (List.range n).foldl (fun c m => putScratch c (off + m * pitch) (row m) false) c

theorem storedRows_succ (off pitch : Nat) (row : Nat → List Byte) (n : Nat) (c : Block) :
    storedRows off pitch row (n + 1) c = putScratch (storedRows off pitch row n c) (off + n * pitch) (row n) false := by
  unfold storedRows
  rw [List.range_succ, List.foldl_append]
  rfl

theorem storedRows_onlyScr (off pitch : Nat) (row : Nat → List Byte) (n : Nat) (c : Block) : OnlyScr c (storedRows off pitch row n c) := by
  induction n with
  | zero => exact .refl c
  | succ n ih =>
    rw [storedRows_succ]
    exact ih.trans (putScratch_onlyScr ..)

theorem storedRows_mat (off pitch : Nat) (row : Nat → List Byte) (n : Nat) (c : Block) : (storedRows off pitch row n c).mat = c.mat := by
  rw [storedRows_onlyScr off pitch row n c]

theorem storedRows_byte {row : Nat → List Byte} {len : Nat} (hlen : ∀ m, (row m).length = len) (hpitch : len ≤ pitch) (hobjs : c.objs = [])
    (n i : Nat) : (∀ m, m < n → off + m * pitch ≤ i → i < off + m * pitch + len →
        byteAt (storedRows off pitch row n c).scratch i = (row m).getD (i - (off + m * pitch)) 0) ∧
      ((∀ m, m < n → ¬ (off + m * pitch ≤ i ∧ i < off + m * pitch + len)) →
        byteAt (storedRows off pitch row n c).scratch i = byteAt c.scratch i) := by
  induction n with
  | zero => exact ⟨fun _ h => absurd h (Nat.not_lt_zero _), fun _ => rfl⟩
  | succ n ih =>
    obtain ⟨hin, hout⟩ := ih
    have hb : byteAt (storedRows off pitch row (n + 1) c).scratch i = if off + n * pitch ≤ i ∧ i < off + n * pitch + len then
        (row n).getD (i - (off + n * pitch)) 0 else byteAt (storedRows off pitch row n c).scratch i := by
      rw [storedRows_succ, putScratch_bytes ((storedRows_onlyScr ..).objs.trans hobjs), byteAt_setBytes, hlen]
    rw [hb]
    refine ⟨fun m hm hlo hhi => ?_, fun hno => ?_⟩
    · by_cases hmn : m = n
      · subst hmn
        rw [if_pos ⟨hlo, hhi⟩]
      · have hbelow : m * pitch + pitch ≤ n * pitch := by
          rw [← Nat.succ_mul]
          exact Nat.mul_le_mul_right pitch (by omega)
        rw [if_neg (by omega)]
        exact hin m (by omega) hlo hhi
    · rw [if_neg (hno n (Nat.lt_succ_self n))]
      exact hout fun m hm => hno m (by omega)

theorem storedRows_block (hb : s.block? bid = some b) (k off pitch : Nat) (row : Nat → List Byte) (n : Nat) :
    ∃ B, (s.modBlock k (storedRows off pitch row n)).block? bid = some B ∧ B.mat = b.mat := by
  rw [State.block?_modBlock s k bid _ fun b => (storedRows_onlyScr ..).bid, hb, Option.map_some]
  refine ⟨_, rfl, ?_⟩
  split
  · exact storedRows_mat ..
  · rfl

theorem tile_finished {B : Block} (h : B.mat = b.mat) (ts : List Team) (o : MatOp) (k m n : Nat) :
    ({ B with teams := ts, mat := finishedMat o B.mat } : Block).tile k m n = b.tile k m n := by
  unfold Block.tile
  rw [← h]
  rfl

/-- A row of elements. -/
theorem row_length (v : Nat → Nat) (e n : Nat) : ((List.range n).flatMap fun i => leBytes e (v i)).length = e * n := by
  rw [List.length_flatMap]
  simp [leBytes_length, Nat.mul_comm]

theorem row_element {mem : Memory} {a : Nat} {v : Nat → Nat} {w : Nat}
    (hm : ∀ k, k < e * w → byteAt mem (a + k) = ((List.range w).flatMap fun i => leBytes e (v i)).getD k 0) (hn : n < w) :
    numAt mem (a + n * e) e = v n % 2 ^ (8 * e) := by
  obtain ⟨k, rfl⟩ : ∃ k, w = n + (k + 1) := ⟨w - n - 1, by omega⟩
  have hsplit : (List.range (n + (k + 1))).flatMap (fun i => leBytes e (v i)) = (List.range n).flatMap (fun i => leBytes e (v i)) ++
      (leBytes e (v n) ++ ((List.range k).map fun j => n + (j + 1)).flatMap fun i => leBytes e (v i)) := by
    rw [List.range_add, List.flatMap_append, List.range_succ_eq_map, List.map_cons, List.flatMap_cons, List.map_map]
    rfl
  have hfield := numAt_field (a := a) (fun k hk => hm k (by rwa [row_length] at hk)) hsplit
  rw [row_length, leBytes_length, leNat_leBytes, Nat.mul_comm e n] at hfield
  rw [hfield, Nat.pow_mul]

theorem winAt_block {addr : Nat} (h : winAt s la b addr = some (c, off)) : s.block? c.bid = some c := by
  unfold winAt at h
  cases hr : resolveWindow s la.hdr b addr 1 with
  | error _ => rw [hr] at h; exact absurd h (by simp)
  | ok r =>
    rw [hr] at h
    obtain ⟨c', hc', heq⟩ := Option.map_eq_some_iff.mp h
    obtain rfl : c' = c := congrArg Prod.fst heq
    rw [block?_bid hc']
    exact hc'

/-! The engine's part of each instruction (R317 to R322, R325 to R330). -/

/-- Tiles set. -/
def State.setTiles (s : State) (b : Block) (T : SMap W32) : State := s.modMat b.bid fun m => { m with tiles := T }

theorem setTiles_block (hb : s.block? bid = some b) (T : SMap W32) :
    (s.setTiles b T).block? bid = some { b with mat := { b.mat with tiles := T } } := by
  have h : (s.modMat bid fun m => { m with tiles := T }).block? bid = some { b with mat := { b.mat with tiles := T } } :=
    modBlock_block (F := fun b => { b with mat := { b.mat with tiles := T } }) hb fun _ => rfl
  unfold State.setTiles
  exact (congrArg (fun k => (s.modMat k fun m => { m with tiles := T }).block? bid) (block?_bid hb)).trans h

/-- A plane laid into the shadow planes, in both of a pair where it is of floats. -/
def shadowed (two : Bool) (p : Nat) (pl : Plane) (sh : SMap Plane) : SMap Plane :=
  let sh := smSet emptyPlane sh p pl
  if two then smSet emptyPlane sh (p + 1) pl else sh

theorem shadowed_get (two : Bool) (p : Nat) (pl : Plane) (sh : SMap Plane) (k : Nat) :
    smGet emptyPlane (shadowed two p pl sh) k = if k = p ∨ two = true ∧ k = p + 1 then pl else smGet emptyPlane sh k := by
  unfold shadowed
  extract_lets sh'
  cases two with
  | false =>
    rw [if_neg Bool.false_ne_true, smGet_smSet]
    exact if_congr (by simp) rfl rfl
  | true =>
    rw [if_pos rfl, smGet_smSet, smGet_smSet]
    by_cases h1 : k = p + 1
    · rw [if_pos h1, if_pos (Or.inr ⟨rfl, h1⟩)]
    · rw [if_neg h1]
      exact if_congr (by simp [h1]) rfl rfl

theorem matEffect_ldw {h : Hdr} {f : PFmt} {p : Fin 8} {x : Opnd} (hins : o.ins = .ldw h f p x) : matEffect s la b o = s.modMat b.bid fun m =>
    { m with shadow := (shadowed (tagFloat (pfmtCode f)) p.val
        ⟨pfmtCode f, offOf o.va, b.copyOut (offOf o.va) (256 * rowBytes (pfmtCode f))⟩ m.shadow) } := by
  unfold matEffect
  rw [hins]
  rfl

theorem matEffect_wswap {h : Hdr} (hins : o.ins = .wswap h) :
    matEffect s la b o = s.modMat b.bid fun m => { m with active := m.shadow, shadow := m.active } := by
  unfold matEffect
  rw [hins]

theorem matEffect_mmq {h : Hdr} {q : QFmt} {t p : Fin 8} {x : Opnd} (hins : o.ins = .mmq h q t p x) : matEffect s la b o =
    s.setTiles b (putTile b.mat.tiles t.val fun m n => BitVec.ofInt 32 (matVal 0 (intProduct (b.plane p.val) (qBits q)
      (colsOf b o (opIsS x) (offOf o.vb) (4 * qBits q) (4 * qBits q))) m n)) := by
  unfold matEffect
  rw [hins]
  rfl

theorem matEffect_msa {h : Hdr} {t ts : Fin 8} {y z : Opnd} (hins : o.ins = .msa h t ts y z) : matEffect s la b o =
    s.setTiles b (msaTile (polFp32 o.ov) b.mat.tiles t.val (fun m n => readInt true 32 (smGet 0 b.mat.tiles (tileKey ts.val m n)).toNat)
      (b.bytes (offOf o.vb) 256) (b.bytes (offOf o.vc) 32)) := by
  unfold matEffect
  rw [hins]
  rfl

theorem matEffect_mmqa {h : Hdr} {q : QFmt} {t p : Fin 8} {x y : Opnd} (hins : o.ins = .mmqa h q t p x y) : matEffect s la b o =
    s.setTiles b (msaTile (polFp32 o.ov) b.mat.tiles t.val (matVal 0 (intProduct (b.plane p.val) (qBits q)
      (colsOf b o (opIsS x) (offOf o.vb) (4 * qBits q) (4 * qBits q)))) (b.bytes (loHalf o.vc).toNat 256) (b.bytes (hiHalf o.vc).toNat 32)) := by
  unfold matEffect
  rw [hins]
  rfl

theorem matEffect_mmf {h : Hdr} {f : PFmt} {t p : Fin 8} {x : Opnd} (hins : o.ins = .mmf h f t p x) : matEffect s la b o =
    s.setTiles b (mmfTile b.mat.tiles t.val (b.plane p.val)
      (colsOf b o (opIsS x) (offOf o.vb) (32 * tagBytes (pfmtCode f)) (32 * tagBytes (pfmtCode f)))) := by
  unfold matEffect
  rw [hins]
  rfl

theorem matEffect_tacc {h : Hdr} {t ts : Fin 8} (hins : o.ins = .tacc h t ts) : matEffect s la b o =
    s.setTiles b (putTile b.mat.tiles t.val fun m n => w32 (fp32.encode .rne (FVal.sum .rne
      [fp32.decode (b.tile t.val m n).toNat, fp32.decode (b.tile ts.val m n).toNat]))) := by
  unfold matEffect
  rw [hins]
  rfl

theorem matEffect_tzero {h : Hdr} {t : Fin 8} {y : Opnd} (hins : o.ins = .tzero h t y) : matEffect s la b o =
    s.setTiles b (putTile b.mat.tiles t.val fun _ _ => 0) := by
  unfold matEffect
  rw [hins]
  rfl

theorem matEffect_tld {h : Hdr} {f : TFmt} {t : Fin 8} {x y : Opnd} (hins : o.ins = .tld h f t x y) (hw : winAt s la b o.va.toNat = some (c, off)) :
    matEffect s la b o = s.setTiles b (putTile b.mat.tiles t.val fun m n =>
      w32 (tldElem f (numAt c.scratch (off + m * offOf o.vb + n * tfmtBytes f) (tfmtBytes f)))) := by
  unfold matEffect
  rw [hins]
  dsimp only
  rw [hw]
  rfl

theorem matEffect_tst {h : Hdr} {f : TFmt} {trk : Bool} {t : Fin 8} {x y : Opnd} (hins : o.ins = .tst h f trk x y t)
    (hw : winAt s la b o.va.toNat = some (c, off)) : matEffect s la b o = s.modBlock c.bid (storedRows off (offOf o.vb) (fun m =>
      (List.range 32).flatMap fun n => leBytes (tfmtBytes f) (tstElem f o.ov (b.tile t.val m n).toNat)) 256) := by
  unfold matEffect
  rw [hins]
  dsimp only
  rw [hw]
  rfl

/-! A tile stored in a scratchpad (R327). -/

theorem scrByte_congr {s' : State} {k : Nat} (h : (s'.block? k).map Block.scratch = (s.block? k).map Block.scratch) (i : Nat) :
    scrByte s' k i = scrByte s k i := by
  have hread : ∀ x : State, scrByte x k i = (((x.block? k).map Block.scratch).map fun m => byteAt m i).getD 0 := by
    intro x
    unfold scrByte
    cases x.block? k <;> rfl
  rw [hread, hread, h]

/-- Rows written into a scratchpad without barrier objects: the elements there, and every other byte as it was. -/
theorem storedState {v : Nat → Nat → Nat} {s' : State} (hc : s.block? c.bid = some c) (hobjs : c.objs = []) (hpitch : 32 * e ≤ pitch)
    (hs' : ∀ k, (s'.block? k).map Block.scratch = ((s.modBlock c.bid (storedRows off pitch (fun m => (List.range 32).flatMap fun n =>
      leBytes e (v m n)) 256)).block? k).map Block.scratch) :
    (∀ m n, m < 256 → n < 32 → ∃ C, s'.block? c.bid = some C ∧ numAt C.scratch (off + m * pitch + n * e) e = v m n % 2 ^ (8 * e)) ∧
      ∀ bd i, (bd = c.bid → ∀ m, m < 256 → ¬ (off + m * pitch ≤ i ∧ i < off + m * pitch + 32 * e)) → scrByte s' bd i = scrByte s bd i := by
  let rows := storedRows off pitch (fun m => (List.range 32).flatMap fun n => leBytes e (v m n)) 256
  have hstored : ∀ k, (s.modBlock c.bid rows).block? k = (s.block? k).map fun b => if k = c.bid then rows b else b :=
    fun k => State.block?_modBlock s c.bid k rows fun b => (storedRows_onlyScr ..).bid
  have hlen : ∀ m, ((List.range 32).flatMap fun n => leBytes e (v m n)).length = 32 * e := fun m => by rw [row_length, Nat.mul_comm]
  have hbyte : ∀ i, _ := fun i => storedRows_byte (c := c) (off := off) hlen hpitch hobjs 256 i
  obtain ⟨C, hC, hscr⟩ : ∃ C, s'.block? c.bid = some C ∧ C.scratch = (rows c).scratch := by
    have h := hs' c.bid
    rw [hstored, hc, Option.map_some, if_pos rfl, Option.map_some] at h
    exact Option.map_eq_some_iff.mp h
  constructor
  · intro m n hm hn
    refine ⟨C, hC, row_element (a := off + m * pitch) (v := v m) (w := 32) (fun k hk => ?_) hn⟩
    have h := (hbyte (off + m * pitch + k)).1 m hm (by omega) (by omega)
    rw [Nat.add_sub_cancel_left] at h
    rw [hscr]
    exact h
  · intro bd i hi
    by_cases hbd : bd = c.bid
    · subst hbd
      unfold scrByte
      rw [hC, hc]
      dsimp only
      rw [hscr]
      exact (hbyte i).2 (hi rfl)
    · have h := hs' bd
      rw [hstored] at h
      simp only [if_neg hbd, Option.map_id'] at h
      exact scrByte_congr h i

end

end Sys2Proof.Machine

open Sys2Proof Sys2Proof.Machine

/-- Settles O35: the engine's part of each instruction is computed as a change of tiles, planes or scratchpad, and the instruction's end
touches none of them. -/
theorem matrixExecution : Obligations.MatrixExecution := by
  unfold Obligations.MatrixExecution
  intro s bid b o la h pf q tf trk t ts p x y z hb hh hl hr hc hf hp run tileIs A pl lo word colNum wi xi P pol code w wf xf acc
  have hhead := matExecute_head hb hh hl hr hc hf hp
  have hcol : ∀ len n, leNat (colBytes b o (opIsS y) (offOf o.vb) len n) = colNum len n y :=
    fun len n => colBytes_num b o (opIsS y) (offOf o.vb) len n
  have hP : ∀ m n, m < 256 → n < 32 → matVal 0 (intProduct (b.plane p.val) (qBits q) (colsOf b o (opIsS y) (offOf o.vb) (4 * qBits q) (4 * qBits q))) m n =
      P m n := by
    intro m n hm hn
    rw [colsOf_eq, intProduct_val _ _ _ hm hn, hcol]
    rfl
  have hbytes : ∀ off n k, k < n → (b.bytes off n).getD k 0 = byteAt b.scratch (off + k) := fun off n k hk => bytesAt_getD _ _ _ _ hk
  refine ⟨fun hins _ _ => ?_, fun hins => ?_, fun hins _ _ => ?_, fun hins hfl htag => ?_, fun hins => ?_, fun hins hheld => ?_,
    fun hins c off hwin => ?_, fun hins c off hwin hobjs hpitch => ?_, fun hins => ?_, fun hins => ?_⟩
  · have hrun := hhead (by rw [hins]; trivial)
    rw [matEffect_mmq hins] at hrun
    refine executes_tiles hb hrun fun k m n hm hn => (putTile_get _ _ _ hm hn).trans ?_
    exact if_congr Iff.rfl (congrArg _ (hP m n hm hn)) rfl
  · have hrun := hhead (by rw [hins]; trivial)
    rw [matEffect_msa hins] at hrun
    refine executes_tiles hb hrun fun k m n hm hn => (msaTile_get _ _ _ _ _ _ hm hn).trans ?_
    rw [hbytes _ _ _ hm, hbytes _ _ _ hn, readInt_signed_word]
    rfl
  · have hrun := hhead (by rw [hins]; trivial)
    rw [matEffect_mmqa hins] at hrun
    refine executes_tiles hb hrun fun k m n hm hn => (msaTile_get _ _ _ _ _ _ hm hn).trans ?_
    rw [hbytes _ _ _ hm, hbytes _ _ _ hn, hP m n hm hn]
    rfl
  · have hrun := hhead (by rw [hins]; trivial)
    rw [matEffect_mmf hins, colsOf_eq] at hrun
    have hw4 : 4 * w = 32 * tagBytes code := by unfold w; omega
    have hw8 : w / 8 = tagBytes code := Nat.mul_div_cancel_left _ (by decide)
    have hwf : ∀ m k, wf m k = (tagFmt code).decode (numAt pl.img (m * (32 * tagBytes code) + k * tagBytes code) (tagBytes code)) := by
      intro m k
      unfold wf
      rw [hw4, hw8, Nat.mul_comm _ k]
    have hxf : ∀ n k, xf n k = (tagFmt code).decode (leNat (colBytes b o (opIsS y) (offOf o.vb) (32 * tagBytes code) n) / 2 ^ (w * k) % 2 ^ w) := by
      intro n k
      unfold xf
      rw [hw4, hcol]
    have hpl : (b.plane p.val).tag = code := htag
    refine executes_tiles hb hrun fun k m n hm hn => (mmfTile_get _ _ _ _ (hpl ▸ hfl) hm hn).trans ?_
    refine if_congr Iff.rfl (congrArg (fun l => w32 (fp32.encode .rne (FVal.sum .rne (acc m n :: l)))) (List.map_congr_left fun k _ => ?_)) rfl
    rw [hwf, hxf, hpl]
    rfl
  · have hrun := hhead (by rw [hins]; trivial)
    rw [matEffect_tacc hins] at hrun
    exact executes_tiles hb hrun fun k m n hm hn => putTile_get _ _ _ hm hn
  · have hrun := matExecute_tzero hb hh hl hr hc hf hins hheld
    rw [matEffect_tzero hins] at hrun
    refine ⟨executes_tiles hb hrun fun k m n hm hn => putTile_get _ _ _ hm hn, ?_⟩
    refine executes (post := fun _ B => tileStat B.mat.stat t.val = { tileStat b.mat.stat t.val with valid := true, dirty := true, nb := o.vb.toNat % 65536 })
      hrun (setTiles_block hb _) fun ts => ?_
    change tileStat (statEffect false o.ins o.va o.vb b.mat.stat) t.val = _
    rw [hins]
    exact (tileStat_setStat b.mat.stat t.val (fun st => { st with valid := true, dirty := true, nb := o.vb.toNat % 65536 }) t.val).trans
      (if_pos rfl)
  · have hrun := hhead (by rw [hins]; trivial)
    rw [matEffect_tld hins hwin] at hrun
    exact executes_tiles hb hrun fun k m n hm hn => putTile_get _ _ _ hm hn
  · have hrun := hhead (by rw [hins]; trivial)
    rw [matEffect_tst hins hwin] at hrun
    obtain ⟨B, hB, hmat⟩ := storedRows_block hb c.bid off (offOf o.vb) (fun m => (List.range 32).flatMap fun n =>
      leBytes (tfmtBytes tf) (tstElem tf o.ov (b.tile t.val m n).toNat)) 256
    obtain ⟨helems, hrest⟩ := storedState (v := fun m n => tstElem tf o.ov (b.tile t.val m n).toNat) (winAt_block hwin) hobjs hpitch
      (matFinish_blocks _ bid o)
    refine executes hrun hB fun ts => ⟨matFinish_mem .., tile_finished hmat ts o, helems, hrest⟩
  · have hrun := hhead (by rw [hins]; trivial)
    rw [matEffect_ldw hins, block?_bid hb] at hrun
    exact executes (post := fun s' B => s'.mem = s.mem ∧ B.mat.active = b.mat.active ∧ ∀ k, smGet emptyPlane B.mat.shadow k =
        if k = p.val ∨ tagFloat code = true ∧ k = p.val + 1 then ⟨code, offOf o.va, b.copyOut (offOf o.va) (256 * rowBytes code)⟩
        else smGet emptyPlane b.mat.shadow k) hrun
      (modBlock_block (F := fun b0 => { b0 with mat := { b0.mat with shadow := (shadowed (tagFloat code) p.val
        ⟨code, offOf o.va, b.copyOut (offOf o.va) (256 * rowBytes code)⟩ b0.mat.shadow) } }) hb fun _ => rfl)
      fun ts => ⟨matFinish_mem .., rfl, fun k => shadowed_get ..⟩
  · have hrun := hhead (by rw [hins]; trivial)
    rw [matEffect_wswap hins, block?_bid hb] at hrun
    exact executes (post := fun s' B => s'.mem = s.mem ∧ B.mat.active = b.mat.shadow ∧ B.mat.shadow = b.mat.active) hrun
      (modBlock_block (F := fun b => { b with mat := { b.mat with active := b.mat.shadow, shadow := b.mat.active } }) hb fun _ => rfl)
      fun ts => ⟨matFinish_mem .., rfl, rfl⟩

end

section
/-! Products fed by a buffer, and the retirement of matrix instructions (R18, R298, R323, R324). -/

namespace Sys2Proof.Machine

section
variable {s t : State} {bid off m n i : Nat} {b : Block} {o : MatOp} {la : Launch} {k : AcqSlot} {c : CBuf}

/-! A launch that an engine stops. -/

theorem engineStop_spec {team cause : Nat} {pc trapa : W64} (hl : s.launch? b.q b.lseq = some la) (hs : la.stop = none) (ht : b.teams ≠ [])
    (hc : cause ≠ cXLATE) : ∃ l, (engineStop s b team cause pc trapa []).launch? b.q b.lseq = some l ∧ l.state = .stopping ∧
      ∃ st, l.stop = some st ∧ st.cause = cause ∧ st.pc = pc ∧ st.trapa = trapa := by
  have hall : (cause != cXLATE) = true := bne_iff_ne.mpr hc
  obtain ⟨u, us, hus⟩ : ∃ u us, b.teams = u :: us := List.exists_cons_of_ne_nil ht
  obtain ⟨v, hv⟩ : ∃ v, (b.team? team).or b.teams.head? = some v := by
    rw [hus]
    cases b.team? team with
    | none => exact ⟨u, rfl⟩
    | some v => exact ⟨v, rfl⟩
  unfold engineStop
  rw [hv]
  dsimp only
  rw [hall]
  obtain ⟨⟨l, hl', hstate, hstop⟩, -, -⟩ := stopLaunch_spec hl hs _
  exact ⟨l, hl', hstate, _, hstop, rfl, rfl, rfl⟩

theorem blockFate_stop {t tag cause w : Nat} (h : blockFate b t tag = .stop cause w) : cause = cTILE := by
  unfold blockFate at h
  extract_lets k p nb held at h
  split at h
  · exact (BlockFate.stop.inj h).1.symm
  split at h
  · exact (BlockFate.stop.inj h).1.symm
  split at h
  · exact nomatch h
  split at h
  · exact (BlockFate.stop.inj h).1.symm
  split at h
  · exact nomatch h
  · exact nomatch h

/-! What comes first in the engine. -/

theorem slotAcquire_first (hb : s.block? bid = some b) (hl : s.launch? b.q b.lseq = some la) (hr : engineRuns la b = true)
    (hf : engineFirst s b = some t) : slotAcquire s bid = t := by
  have hgo : ¬ (!engineRuns la b) = true := by rw [hr]; exact Bool.false_ne_true
  unfold slotAcquire
  simp only [hb, hl, hf]
  exact if_neg hgo

theorem matExecute_first (hb : s.block? bid = some b) (hl : s.launch? b.q b.lseq = some la) (hr : engineRuns la b = true)
    (hf : engineFirst s b = some t) : matExecute s bid = t := by
  have hgo : ¬ (!engineRuns la b && !lockGoes s la b) = true := by rw [hr]; simp
  unfold matExecute
  simp only [hb, hl, hf]
  exact if_neg hgo

theorem engineFirst_apply (h : (b.mat.acq.head?.any AcqSlot.applied) = false) (hn : nextBlock b = some k) (hbad : applyBad b k = none) :
    engineFirst s b = some (applyBlock s b k) := by
  obtain ⟨a, as, has⟩ : ∃ a as, b.mat.acq = a :: as := List.exists_cons_of_ne_nil fun e => by
    unfold nextBlock at hn
    rw [e] at hn
    exact nomatch hn
  have ha : ¬ a.applied = true := by
    rw [has] at h
    exact Bool.eq_false_iff.mp h
  unfold engineFirst
  rw [hn, has]
  dsimp only [List.head?_cons]
  rw [if_neg ha, hbad]

theorem engineFirst_release (hh : b.mat.acq.head? = some k) (ha : k.applied = true) : engineFirst s b = some (releaseSlot s b k) := by
  unfold engineFirst
  rw [hh]
  exact if_pos ha

theorem engineFirst_finish (h : (b.mat.acq.head?.any AcqSlot.applied) = false) (hn : nextBlock b = none) (hh : matHead b = some o)
    (hs : o.started = true) : engineFirst s b = some (matFinish s b.bid o) := by
  unfold engineFirst
  rw [hn, hh]
  cases ha : b.mat.acq.head? with
  | none => exact if_pos hs
  | some a =>
    rw [ha] at h
    have hnot : ¬ a.applied = true := Bool.eq_false_iff.mp h
    dsimp only
    rw [if_neg hnot, if_pos hs]

/-! A block applied (R324). -/

/-- The matrix state after a block has been applied. -/
def appliedMat (b : Block) (a : AcqSlot) (m : Matrix) : Matrix :=
  { m with
    tiles := msaTile (polFp32 a.ov) m.tiles a.tile (matVal 0 (intProduct (b.plane a.plane) (qBits a.q)
      ((List.range 32).map fun i => b.bytes (a.slotOff + i * recLen a.q) (4 * qBits a.q)))) (b.bytes (a.sw + 256 * a.plane) 256)
      ((List.range 32).map fun i => byteAt b.scratch (a.slotOff + i * recLen a.q + 4 * qBits a.q))
    stat := setStat m.stat a.tile fun st => { st with dirty := true, nb := (st.nb + 1) % 65536 }
    acq := m.acq.map fun k => if k = a then { k with applied := true } else k }

theorem applyBlock_block (hb : s.block? bid = some b) (a : AcqSlot) :
    (applyBlock s b a).block? bid = some { b with mat := appliedMat b a b.mat } := by
  have h : (s.modMat bid (appliedMat b a)).block? bid = some { b with mat := appliedMat b a b.mat } :=
    modBlock_block (F := fun b0 => { b0 with mat := appliedMat b a b0.mat }) hb fun _ => rfl
  exact (congrArg (fun k => (s.modMat k (appliedMat b a)).block? bid) (block?_bid hb)).trans h

theorem appliedMat_tile (a : AcqSlot) (hm : m < 256) (hn : n < 32) : ({ b with mat := appliedMat b a b.mat } : Block).tile i m n =
    if i = a.tile then w32 (msaElem (polFp32 a.ov) (b.tile i m n).toNat
      (((List.range 32).map fun j => readInt true (b.plane a.plane).tag (numAt (b.plane a.plane).img (m * (4 * (b.plane a.plane).tag))
        (4 * (b.plane a.plane).tag) / 2 ^ ((b.plane a.plane).tag * j)) *
        readInt true (qBits a.q) (numAt b.scratch (a.slotOff + n * recLen a.q) (4 * qBits a.q) / 2 ^ (qBits a.q * j))).sum)
      (byteAt b.scratch (a.sw + 256 * a.plane + m)).toNat (byteAt b.scratch (a.slotOff + n * recLen a.q + 4 * qBits a.q)).toNat)
    else b.tile i m n := by
  have hget := msaTile_get (k := i) (polFp32 a.ov) b.mat.tiles a.tile (matVal 0 (intProduct (b.plane a.plane) (qBits a.q)
      ((List.range 32).map fun i => b.bytes (a.slotOff + i * recLen a.q) (4 * qBits a.q)))) (b.bytes (a.sw + 256 * a.plane) 256)
      ((List.range 32).map fun i => byteAt b.scratch (a.slotOff + i * recLen a.q + 4 * qBits a.q)) hm hn
  have hew : (b.bytes (a.sw + 256 * a.plane) 256).getD m 0 = byteAt b.scratch (a.sw + 256 * a.plane + m) := bytesAt_getD _ _ _ _ hm
  have hea : ((List.range 32).map fun i => byteAt b.scratch (a.slotOff + i * recLen a.q + 4 * qBits a.q)).getD n 0 =
      byteAt b.scratch (a.slotOff + n * recLen a.q + 4 * qBits a.q) := by
    rw [List.getD_eq_getElem _ _ (by simpa using hn), List.getElem_map, List.getElem_range]
  refine hget.trans ?_
  by_cases h : i = a.tile
  · rw [if_pos h, if_pos h, intProduct_val _ _ _ hm hn, hew, hea, ← h]
    rfl
  · rw [if_neg h, if_neg h]
    rfl

/-! A slot released, and one acquired (R298, R299). -/

theorem putCb_rest (b : Block) (off : Nat) (c : CBuf) : (putCb b off c).mat = b.mat ∧ (putCb b off c).cbq = b.cbq ∧ (putCb b off c).bid = b.bid := by
  rw [putCb_onlyScr b off c]
  exact ⟨rfl, rfl, rfl⟩

theorem releaseSlot_block (hb : s.block? bid = some b) (hc : getCb b k.bufOff = some c) (ha : c.acq ≠ 0) (hq : b.cbq = []) :
    ∃ B, (releaseSlot s b k).block? bid = some B ∧ B.mat = { b.mat with acq := b.mat.acq.tail } := by
  let F : Block → Block := fun b => putCb { b with mat := { b.mat with acq := b.mat.acq.tail } } k.bufOff { c with free := c.free + 1 }
  have hF : ∀ b, (F b).bid = b.bid := fun b => (putCb_rest ..).2.2
  have hB : (s.modBlock bid F).block? bid = some (F b) := modBlock_block hb hF
  have hidle : serveCb (s.modBlock bid F) bid k.bufOff = s.modBlock bid F := by
    refine serveCb_idle fun b' hb' => ?_
    obtain rfl : F b = b' := Option.some.inj (hB.symm.trans hb')
    exact (putCb_rest ..).2.1.trans hq
  have hrun : releaseSlot s b k = s.modBlock bid F := by
    unfold releaseSlot
    rw [hc]
    dsimp only
    rw [if_neg ha, block?_bid hb]
    exact hidle
  rw [hrun]
  exact ⟨F b, hB, (putCb_rest ..).1⟩

/-- The slot that a product acquires at the head of its buffer. -/
def takenSlot (b : Block) (o : MatOp) (q : QFmt) (tile : Nat) (c : CBuf) : AcqSlot :=
  ⟨o.id, o.team, o.pc, o.ov, tagAt b c c.head, tile, q, true, false, offOf o.vc, c.slot c.head, offOf o.vb⟩

theorem acquireFor_block {h : Hdr} {q : QFmt} {tile : Fin 8} {x y : Opnd} (hb : s.block? bid = some b) (hins : o.ins = .mmqaCb h q tile x y)
    (hc : getCb b (offOf o.vb) = some c) (htags : c.tags ≠ noTags) (hsize : 32 * recLen q ≤ c.ssize) (hfill : 0 < c.filled) (hq : b.cbq = [])
    (hp : poisonUnit b (offOf o.vb, 32) = none) (hp' : poisonUnit b (c.tags + 4 * c.head, 4) = none) :
    ∃ B, (acquireFor s b o q).block? bid = some B ∧ B.mat = { b.mat with acq := b.mat.acq ++ [takenSlot b o q tile.val c] } := by
  let me : CbWaiter := ⟨offOf o.vb, true, ⟨b.bid, o.team, 0⟩, some o.id⟩
  let F : Block → Block := fun b => grantMat (dropWaiter b me) (offOf o.vb) c o
  have hgrant : ∀ b : Block, grantMat b (offOf o.vb) c o =
      { (acquireSlot b (offOf o.vb) c).2 with mat := { (acquireSlot b (offOf o.vb) c).2.mat with
        acq := (acquireSlot b (offOf o.vb) c).2.mat.acq ++ [takenSlot b o q tile.val c] } } := by
    intro b
    unfold grantMat
    rw [hins]
    rfl
  have hF : ∀ b, (F b).bid = b.bid := fun b => (congrArg Block.bid (hgrant (dropWaiter b me))).trans (putCb_rest ..).2.2
  have hB : (s.modBlock bid F).block? bid = some (F b) := modBlock_block hb hF
  have hcbq : (F b).cbq = [] := by
    refine (congrArg Block.cbq (hgrant (dropWaiter b me))).trans ((putCb_rest ..).2.1.trans ?_)
    unfold dropWaiter
    rw [hq]
    rfl
  have hidle : serveCb (s.modBlock bid F) bid (offOf o.vb) = s.modBlock bid F :=
    serveCb_idle fun b' hb' => by rw [← Option.some.inj (hB.symm.trans hb')]; exact hcbq
  have hmat : (acquireSlot (dropWaiter b me) (offOf o.vb) c).2.mat = b.mat := (putCb_rest ..).1
  have hrun : acquireFor s b o q = s.modBlock bid F := by
    have hbad : ¬ (c.tags = noTags ∨ c.ssize < 32 * recLen q) := by
      rintro (h | h)
      · exact htags h
      · omega
    have hwait : ¬ (c.filled = 0 ∨ ((firstWaiter b (offOf o.vb) true).any fun w => !(w == me)) = true) := by
      unfold firstWaiter
      rw [hq]
      rintro (h | h)
      · omega
      · exact nomatch h
    unfold acquireFor
    extract_lets off me' stop
    rw [hp]
    dsimp only
    rw [hc]
    dsimp only
    rw [if_neg hbad, if_neg hwait, hp']
    dsimp only
    rw [block?_bid hb]
    exact hidle
  rw [hrun]
  refine ⟨F b, hB, (congrArg Block.mat (hgrant (dropWaiter b me))).trans ?_⟩
  dsimp only
  rw [hmat]
  rfl

/-! The product at the head (R324). -/

theorem slotAcquire_entered {h : Hdr} {q : QFmt} {tile : Fin 8} {x y : Opnd} (hb : s.block? bid = some b) (hl : s.launch? b.q b.lseq = some la)
    (hr : engineRuns la b = true) (hf : engineFirst s b = none) (hh : matHead b = some o) (hc : collHolds b o = false)
    (hins : o.ins = .mmqaCb h q tile x y) (hslot : slotOf b o = some k) : slotAcquire s bid = enterBlock s b o k := by
  have hgo : ¬ (!engineRuns la b) = true := by rw [hr]; exact Bool.false_ne_true
  have hfree : ¬ collHolds b o = true := by rw [hc]; exact Bool.false_ne_true
  unfold slotAcquire
  simp only [hb, hl, hf, hh]
  rw [if_neg hgo, if_neg hfree, hins]
  dsimp only
  rw [hslot]

theorem slotAcquire_free {h : Hdr} {q : QFmt} {tile : Fin 8} {x y : Opnd} (hb : s.block? bid = some b) (hl : s.launch? b.q b.lseq = some la)
    (hr : engineRuns la b = true) (hf : engineFirst s b = none) (hh : matHead b = some o) (hc : collHolds b o = false)
    (hins : o.ins = .mmqaCb h q tile x y) (hslot : slotOf b o = none) : slotAcquire s bid = acquireFor s b o q := by
  have hgo : ¬ (!engineRuns la b) = true := by rw [hr]; exact Bool.false_ne_true
  have hfree : ¬ collHolds b o = true := by rw [hc]; exact Bool.false_ne_true
  unfold slotAcquire
  simp only [hb, hl, hf, hh]
  rw [if_neg hgo, if_neg hfree, hins]
  dsimp only
  rw [hslot]

/-- A block entered: no longer stalled. -/
def enteredMat (k : AcqSlot) (m : Matrix) : Matrix := { m with acq := m.acq.map fun j => if j = k then { j with stalled := false } else j }

theorem entered_block (hb : s.block? bid = some b) (k : AcqSlot) :
    (s.modMat bid (enteredMat k)).block? bid = some { b with mat := enteredMat k b.mat } :=
  modBlock_block (F := fun b => { b with mat := enteredMat k b.mat }) hb fun _ => rfl

theorem enterBlock_hold (hb : s.block? bid = some b) (h : blockFate b k.tile k.tag = .hold) :
    enterBlock s b o k = matFinish (s.modMat bid (enteredMat k)) bid o := by
  unfold enterBlock
  rw [h, block?_bid hb]
  rfl

/-- A product started. -/
def startedMat (id : Nat) (m : Matrix) : Matrix := { m with queue := m.queue.map fun j => if j.id = id then { j with started := true } else j }

theorem enterBlock_apply (hb : s.block? bid = some b) (h : blockFate b k.tile k.tag = .apply) :
    enterBlock s b o k = (s.modMat bid (enteredMat k)).modMat bid (startedMat o.id) := by
  unfold enterBlock
  rw [h, block?_bid hb]
  rfl

/-! Retirement (R18). -/

theorem matRetire_run (hb : s.block? bid = some b) (ho : b.mat.queue.find? (fun k => k.fin && oldestOp b k.team 1 == some k.id) = some o) :
    matRetire s bid = finishOp (s.modMat bid fun m => { m with queue := m.queue.filter fun k => k.id != o.id }) bid o.team o.id 1 none := by
  unfold matRetire
  simp only [hb, ho]

end

end Sys2Proof.Machine
end

section
/-! The attention engine's and the eviction engine's moves (R346 to R357). -/

namespace Sys2Proof.Machine

/-! Blocks of which only scratchpads differ. -/

/-- Of every block only its scratchpad, poison marks and scoreboards differ. -/
def ScrOnly (s t : State) : Prop := ∀ k b, s.block? k = some b → ∃ B, t.block? k = some B ∧ OnlyScr b B

section
variable {s t u m : State} {bid id ti k n : Nat} {b : Block} {la : Launch} {a : AttOp}

theorem ScrOnly.trans (h : ScrOnly s t) (g : ScrOnly t u) : ScrOnly s u := by
  intro k b hb
  obtain ⟨B, hB, hscr⟩ := h k b hb
  obtain ⟨C, hC, hscr'⟩ := g k B hB
  exact ⟨C, hC, hscr.trans hscr'⟩

theorem ScrOnly.of_blocks (h : t.blocks = s.blocks) : ScrOnly s t := by
  intro k b hb
  refine ⟨b, ?_, .refl b⟩
  unfold State.block? at hb ⊢
  rw [h]
  exact hb

theorem ScrOnly.modBlock (s : State) (k : Nat) {F : Block → Block} (hF : ∀ b, OnlyScr b (F b)) : ScrOnly s (s.modBlock k F) := by
  intro i b hb
  refine ⟨if i = k then F b else b, ?_, ?_⟩
  · rw [State.block?_modBlock s k i F fun b => (hF b).bid, hb, Option.map_some]
  · split
    · exact hF b
    · exact .refl b

theorem ScrOnly.team (h : ScrOnly s t) {v : Team} (hv : s.team? bid ti = some v) : t.team? bid ti = some v := by
  unfold State.team? at hv
  cases hb : s.block? bid with
  | none => rw [hb] at hv; exact nomatch hv
  | some b =>
    rw [hb] at hv
    obtain ⟨B, hB, hscr⟩ := h bid b hb
    refine team?_of_block hB ?_
    unfold Block.team? at hv ⊢
    rw [hscr.teams]
    exact hv

/-! Updates at the home (R346, R352). -/

theorem atomicWrite_blocks (s : State) (r : Req) (p : Phys) (l : List Byte) : (atomicWrite s r p l).blocks = s.blocks := by
  unfold atomicWrite
  extract_lets die s1 s2
  have h1 : s1.blocks = s.blocks :=
    (homeWrite_onlyMem (wakeFor s r.core p) p r.ctx l false .normal).blocks_time.1.trans (wakeFor_reads (key := 0) s r.core p).blocks
  have h2 : s2.blocks = s1.blocks := (dropLines_onlyMem s1 _).blocks_time.1
  exact (l1Drop_onlyMem s2 _).blocks_time.1.trans (h2.trans h1)

theorem homeUpdate_scrOnly (s : State) (b : Block) (la : Launch) (l : List Piece) (bytes : List Byte) : ScrOnly s (homeUpdate s b la l bytes) := by
  have hfold : ∀ (l : List Piece) (acc : State × List Byte), ScrOnly acc.1 (l.foldl (fun acc q =>
      let mine := acc.2.take q.2.2
      let s := match q.2.1 with
        | .scr bid off => acc.1.modBlock bid fun t => putScratch t off mine false
        | .mem t p =>
          if b.site.isStation then stationWrite acc.1 p la.ctx mine false
          else atomicWrite (useTlb acc.1 b la t q.1) (blockReq b la t .bypass q.1) p mine
      (s, acc.2.drop q.2.2)) acc).1 := by
    intro l
    induction l with
    | nil => exact fun acc => .of_blocks rfl
    | cons q l ih =>
      intro acc
      refine ScrOnly.trans ?_ (ih _)
      dsimp only
      split
      · exact .modBlock _ _ fun b => putScratch_onlyScr ..
      · split
        · exact .of_blocks (stationWrite_blocks ..)
        · exact .of_blocks ((atomicWrite_blocks ..).trans (useTlb_reads (key := 0) acc.1 b la _ q.1).blocks)
  exact hfold l (s, bytes)

theorem seqUpdate_scrOnly {ea v : Nat} (h : seqUpdate s b la ea n v = .ok t) : ScrOnly s t := by
  unfold seqUpdate at h
  split at h
  · exact nomatch h
  · rw [← Except.ok.inj h]
    exact homeUpdate_scrOnly s b la _ _

theorem lowerBusy_scrOnly {seq : Nat} (h : lowerBusy s b la seq = .ok t) : ScrOnly s t := by
  unfold lowerBusy at h
  split at h
  · exact nomatch h
  · rw [← Except.ok.inj h]
    exact homeUpdate_scrOnly s b la _ _

/-! Entering (R346, R348). -/

theorem modAtt_att {B : Block} (hB : s.block? bid = some B) (ha : B.att? id = some a) {f : AttOp → AttOp} (hf : ∀ o, (f o).id = o.id) :
    ∃ C, (s.modAtt bid id f).block? bid = some C ∧ C.att? id = some (f a) := by
  refine ⟨_, modBlock_block (F := fun b => { b with atts := b.atts.map fun o => if o.id = id then f o else o }) hB fun _ => rfl, ?_⟩
  refine (find?_map_key AttOp.id id id f hf B.atts).trans ?_
  rw [show B.atts.find? (fun x => x.id == id) = some a from ha, Option.map_some, if_pos rfl]

/-- The view that an attention instruction takes of its sequence. -/
def seqView (q : SeqDesc) (hi : Nat) (bytes : List Byte) (o : AttOp) : AttOp :=
  { o with entered := true, npages := q.npages
           pages := (List.range (hi - o.first)).map fun i => w64 (leNat ((bytes.drop (8 * i)).take 8)) }

theorem seqEnter_ok (h : seqEnter s b la a = .ok (some m)) : ∃ l bytes s1, resolveRange s b la (adescOf a.desc).seq 128 0 = .ok l ∧
    ScrOnly s s1 ∧ m = s1.modAtt b.bid a.id (seqView (seqDescOf (homePieces s b l))
      (min (a.first + a.count) (seqDescOf (homePieces s b l)).npages) bytes) := by
  unfold seqEnter at h
  extract_lets d at h
  split at h
  · exact nomatch h
  · exact nomatch h
  next st l hst hl =>
  extract_lets q place at h
  split at h
  · exact nomatch Except.ok.inj h
  split at h
  · exact nomatch h
  split at h
  · exact nomatch h
  · exact nomatch h
  next u bytes s1 _ hread =>
  split at h
  · exact nomatch h
  next s2 hup =>
  refine ⟨l, bytes, s2, hl, (ScrOnly.of_blocks (cleanRead_blocks hread).1).trans (seqUpdate_scrOnly hup), ?_⟩
  exact (Option.some.inj (Except.ok.inj h)).symm

theorem sequenceEntry_run (hb : s.block? bid = some b) (hl : s.launch? b.q b.lseq = some la) (hr : engineRuns la b = true)
    (ha : b.att? id = some a) (he : a.entered = false) (h : seqEnter s b la a = .ok (some m)) : sequenceEntry s bid id = m := by
  have hgo : ¬ (a.entered || !engineRuns la b) = true := by rw [he, hr]; exact Bool.false_ne_true
  unfold sequenceEntry
  simp only [hb, ha, hl]
  rw [if_neg hgo, h]

theorem att?_id (ha : b.att? id = some a) : a.id = id := by simpa using List.find?_some ha

/-! Groups (R349 to R354). -/

theorem attentionGroup_run (hb : s.block? bid = some b) (hl : s.launch? b.q b.lseq = some la) (hr : engineRuns la b = true)
    (ha : b.att? id = some a) (he : a.entered = true) (ht : a.groups < a.total)
    (h : (if attKind a.ins = .scores then attScores s b la a (a.first + a.groups / 2) (a.groups % 2)
      else attValues s b la a (a.first + a.groups / 2) (a.groups % 2)) = .ok m) :
    attentionGroup s bid id = m.modAtt bid id fun k => { k with groups := k.groups + 1 } := by
  have hgo : ¬ (!a.entered || !engineRuns la b || decide (a.total ≤ a.groups)) = true := by
    rw [he, hr, decide_eq_false (Nat.not_le.mpr ht)]
    exact Bool.false_ne_true
  unfold attentionGroup
  simp only [hb, ha, hl]
  rw [if_neg hgo, h]

/-- The bytes of 32 scores of minus infinity. -/
def absentScores (h : Nat) : List Byte := (halfSlots h).flatMap fun _ => leBytes 4 negInf32

theorem absentScores_eq (h : Nat) : absentScores h = (List.range 32).flatMap fun _ => leBytes 4 negInf32 := by
  unfold absentScores halfSlots
  rw [List.flatMap_map]

theorem absentScores_length (h : Nat) : (absentScores h).length = 128 := by
  rw [absentScores_eq]
  rfl

theorem absentScores_byte (h : Nat) {j : Nat} (hj : j < 128) : (absentScores h).getD j 0 = (leBytes 4 negInf32).getD (j % 4) 0 := by
  rw [absentScores_eq]
  exact (by decide +kernel : ∀ j, j < 128 → ((List.range 32).flatMap fun _ => leBytes 4 negInf32).getD j 0 =
    (leBytes 4 negInf32).getD (j % 4) 0) j hj

theorem foldl_modBlock_block (hb : s.block? bid = some b) {G : Block → Nat → Block} (hG : ∀ b q, (G b q).bid = b.bid) (l : List Nat) :
    (l.foldl (fun s q => s.modBlock bid fun b => G b q) s).block? bid = some (l.foldl G b) := by
  induction l generalizing s b with
  | nil => exact hb
  | cons q l ih => exact ih (modBlock_block hb fun b => hG b q)

theorem foldl_modBlock_mem (k : Nat) (G : Nat → Block → Block) (l : List Nat) : ∀ s : State,
    (l.foldl (fun s q => s.modBlock k (G q)) s).mem = s.mem := by
  induction l with
  | nil => exact fun _ => rfl
  | cons q l ih => exact fun s => ih _

/-- Rows of one pattern, which may overlap. -/
theorem storedRows_pattern {l : List Byte} {pat : Nat → Byte} {off pitch : Nat} (hlen : l.length = 128)
    (hpat : ∀ j, j < 128 → l.getD j 0 = pat (j % 4)) (hpitch : pitch % 4 = 0) (hobjs : b.objs = []) (n : Nat) :
    ∀ q, q < n → ∀ j, j < 128 → byteAt (storedRows off pitch (fun _ => l) n b).scratch (off + q * pitch + j) = pat (j % 4) := by
  induction n with
  | zero => exact fun q h => absurd h (Nat.not_lt_zero q)
  | succ n ih =>
    intro q hq j hj
    rw [storedRows_succ, putScratch_bytes ((storedRows_onlyScr ..).objs.trans hobjs), byteAt_setBytes, hlen]
    have hq4 : q * pitch % 4 = 0 := by rw [Nat.mul_mod, hpitch, Nat.mul_zero]
    have hn4 : n * pitch % 4 = 0 := by rw [Nat.mul_mod, hpitch, Nat.mul_zero]
    split
    · next hin =>
      rw [hpat _ (by omega)]
      congr 1
      omega
    · next hout =>
      refine ih q (Nat.lt_of_le_of_ne (Nat.le_of_lt_succ hq) ?_) j hj
      rintro rfl
      exact hout (by omega)

/-- The scores of a page that a sequence does not hold. -/
def absentState (s : State) (b : Block) (o : AttOp) (i h : Nat) : State :=
  (List.range (adescOf o.desc).rows).foldl (fun s q => s.modBlock b.bid fun b => putScratch b
    ((adescOf o.desc).soff + q * (adescOf o.desc).pitch + 4 * ((i - o.first) * 64 + 32 * h)) (absentScores h) false) s

theorem attScores_absent {i h : Nat} (hp : a.npages ≤ i) : attScores s b la a i h = .ok (absentState s b a i h) := if_pos hp

theorem absentState_block (hb : s.block? bid = some b) (o : AttOp) (i h : Nat) : (absentState s b o i h).block? bid =
    some (storedRows ((adescOf o.desc).soff + 4 * ((i - o.first) * 64 + 32 * h)) (adescOf o.desc).pitch (fun _ => absentScores h)
      (adescOf o.desc).rows b) := by
  have hoff : ∀ q, (adescOf o.desc).soff + q * (adescOf o.desc).pitch + 4 * ((i - o.first) * 64 + 32 * h) =
      (adescOf o.desc).soff + 4 * ((i - o.first) * 64 + 32 * h) + q * (adescOf o.desc).pitch := fun q => by omega
  unfold absentState
  simp only [hoff, block?_bid hb]
  exact foldl_modBlock_block hb (G := fun b q => putScratch b ((adescOf o.desc).soff + 4 * ((i - o.first) * 64 + 32 * h) +
    q * (adescOf o.desc).pitch) (absentScores h) false) (fun b q => putScratch_bid ..) _

theorem absentState_mem (s : State) (b : Block) (o : AttOp) (i h : Nat) : (absentState s b o i h).mem = s.mem := by
  unfold absentState
  exact foldl_modBlock_mem b.bid (fun q b => putScratch b _ _ _) _ s

theorem negInf_of_bytes {mem : Memory} {x : Nat} (h : ∀ v, v < 4 → byteAt mem (x + v) = (leBytes 4 negInf32).getD v 0) :
    numAt mem x 4 = 0xFF800000 := by
  have hfield := numAt_field (x := []) (y := leBytes 4 negInf32) (z := []) (l := leBytes 4 negInf32) (a := x) h rfl
  exact hfield

/-! Leaving (R346, R353). -/

/-- The state in which an attention instruction finishes. -/
def leftSeq (m : State) (b : Block) (bid id : Nat) (a : AttOp) : State :=
  (if b.site.isStation then m else ackLines m bid a.team a.lines).modBlock bid fun b => { b with atts := b.atts.filter fun k => k.id != id }

theorem attentionExit_run (hb : s.block? bid = some b) (hl : s.launch? b.q b.lseq = some la) (hr : engineRuns la b = true)
    (ha : b.att? id = some a) (he : a.entered = true) (ht : a.total ≤ a.groups)
    (h : lowerBusy (dropLeased s a.lines) b la (adescOf a.desc).seq = .ok m) :
    attentionExit s bid id = wakeLimits (finishOp (leftSeq m b bid id a) bid a.team id 4 none) bid := by
  have hgo : ¬ (!a.entered || !engineRuns la b || decide (a.groups < a.total)) = true := by
    rw [he, hr, decide_eq_false (Nat.not_lt.mpr ht)]
    exact Bool.false_ne_true
  unfold attentionExit
  simp only [hb, ha, hl]
  rw [if_neg hgo, h]
  rfl

theorem dropLeased_scrOnly (s : State) (lines : List Nat) : ScrOnly s (dropLeased s lines) := .of_blocks (dropLines_onlyMem s _).blocks_time.1

theorem ackLines_team {lines : List Nat} {v : Team} (hv : s.team? bid ti = some v) :
    ∃ g, (ackLines s bid ti lines).team? bid ti = some { v with gwct := g } := by
  have h1 : (answered s lines 0).2.team? bid ti = some v := (team?_of_blocks (answered_blocks s lines 0) _ _).trans hv
  exact ⟨_, team?_modTeam_same h1 (f := fun t => { t with gwct := max t.gwct (answered s lines 0).1 }) fun _ => rfl⟩

theorem ackLines_block {lines : List Nat} (hb : s.block? bid = some b) :
    ∃ ts, (ackLines s bid ti lines).block? bid = some { b with teams := ts } := by
  have h1 : (answered s lines 0).2.block? bid = some b := by
    unfold State.block? at hb ⊢
    rw [answered_blocks]
    exact hb
  exact ⟨_, modBlock_block h1 (F := fun b => b.modTeam ti fun t => { t with gwct := max t.gwct (answered s lines 0).1 }) fun _ => rfl⟩

theorem leftSeq_team {v : Team} (hv : m.team? bid a.team = some v) : ∃ g, (leftSeq m b bid id a).team? bid a.team = some { v with gwct := g } := by
  have hleft : ∀ x : State, (x.modBlock bid fun b => { b with atts := b.atts.filter fun k => k.id != id }).team? bid a.team = x.team? bid a.team :=
    fun x => team?_modBlock_kept (P := fun b => { b with atts := b.atts.filter fun k => k.id != id }) (fun _ => ⟨rfl, rfl⟩) bid a.team
  unfold leftSeq
  rw [hleft]
  split
  · exact ⟨v.gwct, hv⟩
  · exact ackLines_team hv

theorem leftSeq_block {B : Block} (hB : m.block? bid = some B) : ∃ C, (leftSeq m b bid id a).block? bid = some C ∧ ∀ k ∈ C.atts, k.id ≠ id := by
  have hleft : ∀ (x : State) (X : Block), x.block? bid = some X →
      ∃ C, (x.modBlock bid fun b => { b with atts := b.atts.filter fun k => k.id != id }).block? bid = some C ∧ ∀ k ∈ C.atts, k.id ≠ id := by
    intro x X hX
    refine ⟨_, modBlock_block (F := fun b => { b with atts := b.atts.filter fun k => k.id != id }) hX fun _ => rfl, fun k hk => ?_⟩
    simpa using (List.mem_filter.mp hk).2
  unfold leftSeq
  split
  · exact hleft m B hB
  · obtain ⟨ts, hts⟩ := ackLines_block (ti := a.team) (lines := a.lines) hB
    exact hleft _ _ hts

end

end Sys2Proof.Machine
end

section
/-! The eviction engine's moves (R355 to R357), and the matrix and attention engines' together. -/

namespace Sys2Proof.Machine

section
variable {s t m : State} {bid id ev : Nat} {b : Block} {la : Launch} {e : Evict}

theorem evictionStart_waits (he : s.evicts.find? (fun k => k.id == ev) = some e) (hat : evictAt s e = some (b, la))
    (hs : (seqDescOf (vaRead s la.ctx e.seq 128)).state.testBit 0 = true) : evictionStart s ev = s := by
  unfold evictionStart
  simp only [he, hat]
  exact if_pos (Or.inr (Or.inl hs))

/-- The pages that an eviction holds pinned. -/
def heldPages (ranges : List (Nat × Nat)) : List Nat := ((ranges.flatMap fun r => pagesOf r.1 r.2).map fun a => a / 65536).dedup

theorem evictionStart_claims (he : s.evicts.find? (fun k => k.id == ev) = some e) (hat : evictAt s e = some (b, la)) (hph : e.phase = .waiting)
    (hs : (seqDescOf (vaRead s la.ctx e.seq 128)).state.testBit 0 = false)
    (hev : evictBefore s ((seqPlace s b la.ctx e.seq).getD 0) e.op = false) (hen : entryBefore s ((seqPlace s b la.ctx e.seq).getD 0) e.op = false)
    (hbad : evictStartBad s b la.ctx (seqRanges (seqDescOf (vaRead s la.ctx e.seq 128)) e.seq
      (if (siteTranslate s b la.ctx e.seq).isSome then pageList s la.ctx (seqDescOf (vaRead s la.ctx e.seq 128)) else [])) = none) :
    ∃ s1 held, OnlyMem s s1 ∧ evictionStart s ev = s1.modEvict ev fun e => { e with phase := .claimed, pages := held } := by
  have hgo : ¬ (e.phase ≠ .waiting ∨ (seqDescOf (vaRead s la.ctx e.seq 128)).state.testBit 0 = true ∨
      evictBefore s ((seqPlace s b la.ctx e.seq).getD 0) e.op = true ∨ entryBefore s ((seqPlace s b la.ctx e.seq).getD 0) e.op = true) := by
    rw [hs, hev, hen]
    simp [hph]
  refine ⟨vaWrite s la.ctx (e.seq + 36) (leBytes 1 ((seqDescOf (vaRead s la.ctx e.seq 128)).state ||| 1)),
    heldPages (seqRanges (seqDescOf (vaRead s la.ctx e.seq 128)) e.seq
      (if (siteTranslate s b la.ctx e.seq).isSome then pageList s la.ctx (seqDescOf (vaRead s la.ctx e.seq 128)) else [])), vaWrite_onlyMem .., ?_⟩
  unfold evictionStart
  simp only [he, hat]
  refine (if_neg hgo).trans ?_
  rw [hbad]
  rfl

theorem OnlyMem.evicts (h : OnlyMem s t) : t.evicts = s.evicts := by rw [h.frame]

theorem OnlyMem.blockAt? (h : OnlyMem s t) (q lseq idx : Nat) : t.blockAt? q lseq idx = s.blockAt? q lseq idx := by rw [h.frame]; rfl

theorem claimed_spec {s1 : State} {held : List Nat} (he : s.evicts.find? (fun k => k.id == ev) = some e) (h : OnlyMem s s1) :
    ∃ k ∈ (s1.modEvict ev fun e => { e with phase := .claimed, pages := held }).evicts, k.id = ev ∧ k.phase = .claimed ∧ k.req = e.req ∧
      k.team = e.team := by
  have hid : e.id = ev := by simpa using List.find?_some he
  have hmem : e ∈ s1.evicts := by
    rw [h.evicts]
    exact List.mem_of_find?_eq_some he
  exact ⟨_, List.mem_map.mpr ⟨e, hmem, if_pos hid⟩, hid, rfl, rfl, rfl⟩

/-! The end of an eviction (R356, R357). -/

theorem evApply_onlyMem (s : State) (ctx : Nat) (r : EvReq) (p : EvPlan) : OnlyMem s (evApply s ctx r p) := by
  unfold evApply
  extract_lets q row m imgs putPage s1 s2 s3 s4
  have hpage : ∀ x i, OnlyMem x (putPage x i) := by
    intro x i
    have hslots : ∀ (l : List (SlotImg × Nat)) (P : Nat), OnlyMem x (l.foldl (fun s k =>
        vaWrite (vaWrite s ctx (P + k.2 * row) k.1.key) ctx (P + (64 + k.2) * row) k.1.val) x) := fun l P =>
      OnlyMem.foldl (fun s k => (vaWrite_onlyMem ..).trans (vaWrite_onlyMem ..)) l x
    exact (((hslots _ _).trans (vaWrite_onlyMem ..)).trans (vaWrite_onlyMem ..)).trans (vaWrite_onlyMem ..)
  have h1 : OnlyMem s s1 := OnlyMem.foldl hpage _ s
  have h2 : OnlyMem s1 s2 := vaWrite_onlyMem ..
  have h3 : OnlyMem s2 s3 := OnlyMem.foldl (fun x t => vaWrite_onlyMem ..) p.drop s2
  have h4 : OnlyMem s3 s4 := OnlyMem.foldl (fun x k => vaWrite_onlyMem ..) p.keep.zipIdx s3
  exact ((((h1.trans h2).trans h3).trans h4).trans (vaWrite_onlyMem ..)).trans (vaWrite_onlyMem ..)

theorem evEnd_onlyMem (s : State) (ctx : Nat) (p : EvPlan) (seq : Nat) : OnlyMem s (evEnd s ctx p seq) := by
  unfold evEnd
  extract_lets ok s1 s2
  have h1 : OnlyMem s s1 := vaWrite_onlyMem ..
  have h2 : OnlyMem s1 s2 := vaWrite_onlyMem ..
  exact ((h1.trans h2).trans (vaWrite_onlyMem ..)).trans (vaWrite_onlyMem ..)

theorem releaseEvictPages_onlyMem (s : State) (e : Evict) : OnlyMem s (releaseEvictPages s e) :=
  OnlyMem.foldl (fun x g => by
    dsimp only
    split
    · exact .refl x
    · exact (dropPage_onlyMem ..).trans (setPin_onlyMem ..)) e.pages s

theorem evictionRun_busy (he : s.evicts.find? (fun k => k.id == ev) = some e) (h : (seqDescOf (vaRead s e.ctx e.seq 128)).busy ≠ 0) :
    evictionRun s ev = s := by
  unfold evictionRun
  simp only [he]
  exact if_pos (Or.inr h)

/-- A request gone from the engine. -/
def withoutEvict (s : State) (ev : Nat) : State := { s with evicts := s.evicts.filter fun k => k.id != ev }

theorem OnlyMem.withoutEvict (h : OnlyMem s t) (ev : Nat) : OnlyMem (withoutEvict s ev) (withoutEvict t ev) :=
  ⟨by unfold Machine.withoutEvict; rw [h.frame]⟩

theorem evictionRun_ends (he : s.evicts.find? (fun k => k.id == ev) = some e) (hph : e.phase = .claimed)
    (hbusy : (seqDescOf (vaRead s e.ctx e.seq 128)).busy = 0) (hat : s.blockAt? e.q e.lseq e.idx = some b) (hb : s.block? b.bid = some b) :
    ∃ s1 lines, OnlyMem (withoutEvict s ev) s1 ∧ evictionRun s ev = finishOp (ackLines s1 b.bid e.team lines) b.bid e.team e.op 4
      (if (evPlan s e.ctx (evReqOf e.req)).status = 0 then none else some (evPlan s e.ctx (evReqOf e.req)).status) := by
  have hgo : ¬ (e.phase ≠ .claimed ∨ (seqDescOf (vaRead s e.ctx e.seq 128)).busy ≠ 0) := by
    rw [hbusy]
    simp [hph]
  unfold evictionRun
  simp only [he]
  rw [if_neg hgo]
  generalize evPlan s e.ctx (evReqOf e.req) = p
  generalize hs1 : (if p.status = 0 then evApply s e.ctx (evReqOf e.req) p else s) = s1
  have h1 : OnlyMem s s1 := by
    rw [← hs1]
    split
    · exact evApply_onlyMem ..
    · exact .refl s
  have h2 : OnlyMem s1 (evEnd s1 e.ctx p e.seq) := evEnd_onlyMem ..
  generalize evEnd s1 e.ctx p e.seq = s2 at h2 ⊢
  generalize ((seqRanges p.q e.seq p.pages).flatMap fun g => vaLines s2 e.ctx g.1 g.2).dedup = lines
  have h3 : OnlyMem s2 (dropLeased s2 lines) := dropLines_onlyMem ..
  generalize dropLeased s2 lines = s3 at h3 ⊢
  have h4 : OnlyMem (withoutEvict s ev) (releaseEvictPages (withoutEvict s3 ev) e) :=
    (((h1.trans h2).trans h3).withoutEvict ev).trans (releaseEvictPages_onlyMem ..)
  refine ⟨releaseEvictPages (withoutEvict s3 ev) e, lines, h4, ?_⟩
  change (match (releaseEvictPages (withoutEvict s3 ev) e).blockAt? e.q e.lseq e.idx with
    | none => releaseEvictPages (withoutEvict s3 ev) e
    | some b => atBlock (releaseEvictPages (withoutEvict s3 ev) e) b.bid fun s =>
        finishOp (ackLines s b.bid e.team lines) b.bid e.team e.op 4 (if p.status = 0 then none else some p.status)) = _
  have hat' : (releaseEvictPages (withoutEvict s3 ev) e).blockAt? e.q e.lseq e.idx = some b := (h4.blockAt? ..).trans hat
  have hb' : (releaseEvictPages (withoutEvict s3 ev) e).block? b.bid = some b := by
    unfold State.block? at hb ⊢
    rw [h4.blocks_time.1]
    exact hb
  rw [hat']
  exact atBlock_resident hb'

end

end Sys2Proof.Machine

open Sys2Proof Sys2Proof.Machine

/-- Settles O47: each event is followed to its block's matrix state or attention list, and each retirement to its team. -/
theorem matrixAndAttentionEvents : Obligations.MatrixAndAttentionEvents := by
  unfold Obligations.MatrixAndAttentionEvents
  intro s m bid id ev b la o a e h q t x y c k here blockIs holds d i r grouped buf slot comes feeds goes entered done tiles first both pl A wi xi P
  have hboth : ∀ {s' : State} {B : Block} {p : Block → Prop}, here → engineFirst s b = some s' → s'.block? bid = some B → p B → both p := by
    rintro s' B p ⟨hb, hl, hr⟩ hf hB hp
    exact ⟨⟨s', congrArg Host.Outcome.next (slotAcquire_first hb hl hr hf), B, hB, hp⟩,
      ⟨s', congrArg Host.Outcome.next (matExecute_first hb hl hr hf), B, hB, hp⟩⟩
  have hentered : goes → slotAcquire s bid = enterBlock s b o k :=
    fun ⟨⟨⟨hb, hl, hr⟩, hf, hh, hc, hins⟩, hslot⟩ => slotAcquire_entered hb hl hr hf hh hc hins hslot
  refine ⟨?_, ?_, ?_, ?_, ?_, ?_, ?_, ?_, ?_, ?_, ?_, ?_, ?_, ?_⟩
  · intro hb ho
    have hkeep : ∀ b : Block, ({ b with mat := { b.mat with queue := b.mat.queue.filter fun k => k.id != o.id } } : Block).bid = b.bid ∧
        ({ b with mat := { b.mat with queue := b.mat.queue.filter fun k => k.id != o.id } } : Block).teams = b.teams := fun _ => ⟨rfl, rfl⟩
    refine ⟨_, congrArg Host.Outcome.next (matRetire_run hb ho), retired_finishOp fun v hv => ⟨v.gwct, ?_⟩, ?_⟩
    · exact (team?_modBlock_kept hkeep bid o.team).trans hv
    · rintro ⟨v, hv, hl⟩
      obtain ⟨ts, hB⟩ := finishOp_block (id := o.id) (cls := 1) (err := none)
        (modBlock_block (F := fun b => { b with mat := { b.mat with queue := b.mat.queue.filter fun k => k.id != o.id } }) hb fun _ => rfl)
        ((team?_modBlock_kept hkeep bid o.team).trans hv) hl
      exact ⟨_, hB, rfl⟩
  · rintro ⟨⟨⟨hb, hl, hr⟩, hf, hh, hc, hins⟩, hslot, hcb, htags, hsize, hfill, hq, hp, hp'⟩
    obtain ⟨B, hB, hmat⟩ := acquireFor_block hb hins hcb htags hsize hfill hq hp hp'
    refine ⟨_, congrArg Host.Outcome.next (slotAcquire_free hb hl hr hf hh hc hins hslot), B, hB, ?_, ?_, fun j m n => ?_⟩
    · rw [hmat]
      rfl
    · rw [hmat]
    · unfold Block.tile
      rw [hmat]
  · intro hgoes hfate
    have hb : s.block? bid = some b := hgoes.1.1.1
    obtain ⟨ts, hB⟩ := matFinish_block (o := o) (entered_block hb k)
    exact ⟨_, congrArg Host.Outcome.next ((hentered hgoes).trans (enterBlock_hold hb hfate)), _, hB, finishedMat_queue _ _, rfl, fun _ _ _ => rfl⟩
  · intro hgoes hfate
    have hb : s.block? bid = some b := hgoes.1.1.1
    have hB := modBlock_block (F := fun b => { b with mat := startedMat o.id b.mat }) (entered_block hb k) fun _ => rfl
    exact ⟨_, congrArg Host.Outcome.next ((hentered hgoes).trans (enterBlock_apply hb hfate)), _, hB, rfl, fun _ _ _ => rfl, rfl⟩
  · intro hgoes hfate
    refine congrArg Host.Outcome.next ((hentered hgoes).trans ?_)
    unfold enterBlock
    rw [hfate]
  · intro hgoes hteams hstop cause w hfate
    have hl : s.launch? b.q b.lseq = some la := hgoes.1.1.2.1
    have hcause : cause ≠ cXLATE := by
      rw [blockFate_stop hfate]
      decide
    obtain ⟨l, hl', hstate, hst⟩ := engineStop_spec (team := o.team) (pc := o.pc) (trapa := w64 w) hl hstop hteams hcause
    have hrun : enterBlock s b o k = engineStop s b o.team cause o.pc (w64 w) [] := by
      unfold enterBlock
      rw [hfate]
    have hkey := List.find?_some hl'
    rw [Bool.and_eq_true, beq_iff_eq, beq_iff_eq] at hkey
    exact ⟨_, congrArg Host.Outcome.next ((hentered hgoes).trans hrun), l, List.mem_of_find?_eq_some hl', hkey.1, hkey.2, hstate, hst⟩
  · rintro ⟨hhere, hfirst⟩ hnext hbad
    have hstat : tileStat (appliedMat b k b.mat).stat k.tile =
        { tileStat b.mat.stat k.tile with dirty := true, nb := ((tileStat b.mat.stat k.tile).nb + 1) % 65536 } :=
      (tileStat_setStat b.mat.stat k.tile (fun st => { st with dirty := true, nb := (st.nb + 1) % 65536 }) k.tile).trans (if_pos rfl)
    refine hboth hhere (engineFirst_apply hfirst hnext hbad) (applyBlock_block hhere.1 k) ⟨rfl, ?_, ?_, fun _ _ i m n hm hn => appliedMat_tile k hm hn⟩
    · exact congrArg TileStat.nb hstat
    · exact congrArg TileStat.dirty hstat
  · intro hhere hhead happ hcb hacq hq
    obtain ⟨B, hB, hmat⟩ := releaseSlot_block hhere.1 hcb hacq hq
    refine hboth hhere (engineFirst_release hhead happ) hB ⟨by rw [hmat], by rw [hmat], fun j m n => ?_⟩
    unfold Block.tile
    rw [hmat]
  · rintro ⟨hhere, hfirst⟩ hnext hhead hstart
    have hf : engineFirst s b = some (matFinish s bid o) := by
      rw [engineFirst_finish hfirst hnext hhead hstart, block?_bid hhere.1]
    obtain ⟨ts, hB⟩ := matFinish_block (o := o) hhere.1
    exact hboth hhere hf hB ⟨finishedMat_queue _ _, rfl, fun _ _ _ => rfl⟩
  · rintro ⟨hb, hl, hr⟩ ha he henter
    obtain ⟨l, bytes, s1, hres, hscr, rfl⟩ := seqEnter_ok henter
    obtain ⟨B, hB, honly⟩ := hscr bid b hb
    have hatts : B.att? id = some a := by
      unfold Block.att? at ha ⊢
      rw [honly]
      exact ha
    obtain ⟨C, hC, hatt⟩ := modAtt_att hB hatts (f := seqView (seqDescOf (homePieces s b l))
      (min (a.first + a.count) (seqDescOf (homePieces s b l)).npages) bytes) fun _ => rfl
    refine ⟨_, congrArg Host.Outcome.next (sequenceEntry_run hb hl hr ha he henter), rfl, C, ?_, _, hatt, rfl, rfl, fun l' hl' => ?_⟩
    · rw [block?_bid hb, att?_id ha]
      exact hC
    · obtain rfl : l = l' := Except.ok.inj (hres.symm.trans hl')
      exact ⟨rfl, by simp [seqView]⟩
  · rintro ⟨hb, hl, hr⟩ ha he htot
    refine ⟨fun hgroup => ⟨_, congrArg Host.Outcome.next (attentionGroup_run hb hl hr ha he htot hgroup), rfl⟩, fun hkind hpages hobjs hpitch => ?_⟩
    have hgroup : (if attKind a.ins = .scores then attScores s b la a i r else attValues s b la a i r) = .ok (absentState s b a i r) :=
      (if_pos hkind).trans (attScores_absent hpages)
    have hB := absentState_block hb a i r
    have hatts : (storedRows (d.soff + 4 * ((i - a.first) * 64 + 32 * r)) d.pitch (fun _ => absentScores r) d.rows b).att? id = some a := by
      unfold Block.att? at ha ⊢
      rw [storedRows_onlyScr (d.soff + 4 * ((i - a.first) * 64 + 32 * r)) d.pitch (fun _ => absentScores r) d.rows b]
      exact ha
    obtain ⟨C, hC, hatt⟩ := modAtt_att hB hatts (f := fun k => { k with groups := k.groups + 1 }) fun _ => rfl
    have hC' := modBlock_block (F := fun b => { b with atts := b.atts.map fun o => if o.id = id then { o with groups := o.groups + 1 } else o }) hB
      fun _ => rfl
    refine ⟨_, congrArg Host.Outcome.next (attentionGroup_run hb hl hr ha he htot hgroup), ⟨C, hC, _, hatt, rfl⟩, absentState_mem .., _, hC',
      fun row j hrow hj => negInf_of_bytes fun v hv => ?_⟩
    have hbyte := storedRows_pattern (off := d.soff + 4 * ((i - a.first) * 64 + 32 * r)) (absentScores_length r)
      (pat := fun j => (leBytes 4 negInf32).getD j 0) (fun j hj => absentScores_byte r hj) hpitch hobjs d.rows row hrow (4 * j + v) (by omega)
    rw [show (4 * j + v) % 4 = v by omega] at hbyte
    refine Eq.trans (congrArg (byteAt _) ?_) hbyte
    omega
  · rintro ⟨hb, hl, hr⟩ ha he htot hlow
    have hscr : ScrOnly s m := (dropLeased_scrOnly s a.lines).trans (lowerBusy_scrOnly hlow)
    refine ⟨_, congrArg Host.Outcome.next (attentionExit_run hb hl hr ha he htot hlow), retired_after fun v hv => leftSeq_team (hscr.team hv), ?_⟩
    rintro ⟨v, hv, hlive⟩
    obtain ⟨B, hB, -⟩ := hscr bid b hb
    obtain ⟨C, hC, hatts⟩ := leftSeq_block (b := b) (id := id) (a := a) hB
    obtain ⟨g, hg⟩ := leftSeq_team (b := b) (id := id) (hscr.team hv)
    obtain ⟨ts, hts⟩ := retired_block (id := id) (cls := 4) (err := none) hC hg hlive
    exact ⟨_, hts, hatts⟩
  · intro hev sq place held hat hph
    refine ⟨fun hbit => congrArg Host.Outcome.next (evictionStart_waits hev hat hbit), fun hbit hbefore hentry hbad => ?_⟩
    obtain ⟨s1, pages, h1, hrun⟩ := evictionStart_claims hev hat hph hbit hbefore hentry hbad
    exact ⟨_, congrArg Host.Outcome.next hrun, claimed_spec hev h1⟩
  · intro hev hph
    refine ⟨fun hbusy => congrArg Host.Outcome.next (evictionRun_busy hev hbusy), fun hbusy hat hb => ?_⟩
    intro plan
    obtain ⟨s1, lines, h1, hrun⟩ := evictionRun_ends hev hph hbusy hat hb
    refine ⟨_, congrArg Host.Outcome.next hrun, fun k hk => ?_, retired_finishOp fun v hv => ackLines_team ?_⟩
    · have hleaves : Leaves s1 (finishOp (ackLines s1 b.bid e.team lines) b.bid e.team e.op 4 (if plan.status = 0 then none else some plan.status)) :=
        ((answered_leaves s1 lines 0).trans (modTeam_leaves ..)).trans (finishOp_leaves ..)
      rw [hleaves.frame, h1.frame] at hk
      simpa using (List.mem_filter.mp hk).2
    · exact (team?_of_blocks h1.blocks_time.1 _ _).trans hv

end
